-- ==== Sys2Proof/Word.lean ====
section
/-! DEFINITION. The words of the machine: bytes, 32-bit and 64-bit words, and sparse families of instances as plain data. -/

namespace Sys2Proof

/-- The byte: the smallest addressable unit of HBM, the scratchpads and the vault. -/
abbrev Byte := BitVec 8

/-- Registers are 64 bits wide (R10). -/
abbrev Word := BitVec 64

/-- A sparse family of instances: key and value pairs, keys strictly rising, no entry equal to its default. -/
abbrev SMap (α : Type) := List (Nat × α)

end Sys2Proof
end

