-- ==== Sys2Proof/Syntax.lean ====
section
/-! DEFINITION. The commands of the module (one constructor of `Instr` per row of the spec's table) and the records they carry:
register requests, Flalys packets and extensions, flits, and the management, service and boundary messages. -/

namespace Sys2Proof

/-- The access path of a register request: the Cymund chain or the management VC (R10, R233). -/
inductive Path where
  | cymund | mgmt
  deriving DecidableEq, Repr

/-- A request of R556: its path, the requester (chain address, or the relaying coordinate), its tag (R557, R558) and whether
it was broadcast. -/
structure Req where
  path : Path
  src : Nat
  tag : BitVec 10
  bcast : Bool
  deriving DecidableEq, Repr

/-- Ring directions (R28): CW out of X+, CCW out of X−. -/
inductive Dir where
  | cw | ccw
  deriving DecidableEq, Repr

/-- Cue triggers (R277). -/
inductive Trig where
  | cw | ccw | gradCw | gradCcw
  deriving DecidableEq, Repr

/-- The stream engines of a core (R237). -/
inductive Engine where
  | fetch0 | fetch1 | drain
  deriving DecidableEq, Repr

/-- Coordinates in the torus, four bits each, packed x [11:8], y [7:4], z [3:0] (R320, R359). -/
abbrev Coord := BitVec 12

/-- The leaf extension of R28, field by field. -/
structure LeafExt where
  extType : BitVec 8
  flags : BitVec 8
  pktIdx : BitVec 8
  hop : BitVec 8
  ttl : BitVec 8
  origin : BitVec 8
  pkey : BitVec 16
  year : BitVec 32
  day : BitVec 32
  sectionByte : BitVec 8
  container : BitVec 8
  baseGen : BitVec 16
  layer : BitVec 16
  codecTable : BitVec 16
  tile : BitVec 32
  leafElems : BitVec 32
  tailCount : BitVec 16
  rsv34 : BitVec 16
  gcntInj : BitVec 32
  rsv40 : BitVec 192
  deriving DecidableEq, Repr

/-- The sync signal extension of R320, field by field. -/
structure SyncExt where
  extType : BitVec 8
  kind : BitVec 8
  pkey : BitVec 16
  syncId : BitVec 16
  src : BitVec 16
  value : BitVec 32
  srcCore : BitVec 16
  rsv14 : BitVec 80
  gcntSent : BitVec 64
  rsv32 : BitVec 256
  deriving DecidableEq, Repr

/-- A Flalys packet: the header of R359 field by field, the extension bytes (none or 64) and the payload. -/
structure Packet where
  ptype : BitVec 8
  flags : BitVec 8
  vc : BitVec 8
  mark : BitVec 8
  dst : BitVec 16
  src : BitVec 16
  pkey : BitVec 16
  len : BitVec 16
  item : BitVec 32
  addr : BitVec 64
  container : BitVec 8
  rsv25 : BitVec 8
  codecTable : BitVec 16
  elems : BitVec 32
  ext : List Byte
  payload : List Byte
  deriving DecidableEq, Repr

/-- The payload of a SYNC flit (R376); `rsvZero` tells whether its reserved fields are zero. -/
structure SyncFlit where
  kind : BitVec 8
  state : BitVec 8
  depth : BitVec 8
  exch : BitVec 32
  tGcnt : BitVec 64
  tPs : BitVec 16
  rxGcnt : BitVec 64
  rxPs : BitVec 16
  coord : BitVec 16
  rsvZero : Bool
  deriving DecidableEq, Repr

/-- A core program of R273: cue words, operation words, stream descriptors of R241, context sets, slot tables (16 words laid
out as SPM_SLOT), region entries (32 words laid out as SPM_REGION) and context initialisers (64 bytes each). -/
structure Program where
  cues : List (BitVec 128)
  ops : List (BitVec 128)
  streams : List (BitVec 512)
  nsets : Nat
  slots : List (BitVec 64)
  regions : List (BitVec 64)
  ctxInit : List (BitVec 512)
  deriving DecidableEq, Repr

/-- A cluster record of a schedule: its leaf table of R250 and REG_CLASS0–3 of R269. -/
structure ClusterRec where
  leafTable : List (BitVec 128)
  regClass : List (BitVec 64)
  deriving DecidableEq, Repr

/-- A schedule of R272. The core map lists the cores that take part; an unlisted core has the index 0xFFFF.
(DEDUCED, log 45) -/
structure Schedule where
  pkey : BitVec 12
  section5 : BitVec 5
  mode : BitVec 2
  baseGen : BitVec 16
  daysCw : BitVec 32
  daysCcw : BitVec 32
  programs : List Program
  coreMap : SMap Nat
  clusters : SMap ClusterRec
  mcast : List (BitVec 512)
  deriving DecidableEq, Repr

/-- The sync table of one partition key (R315): entries of 16 bytes by SYNC_ID, and its release lists (R327). -/
structure SyncTable where
  pkey : BitVec 12
  entries : SMap (BitVec 128)
  releases : List (List Coord)
  deriving DecidableEq, Repr

/-- A fault map (R413): dead links, each as a coordinate and a port of it, and dead or vacant coordinates. -/
structure FaultMap where
  links : List (Coord × Fin 6)
  dead : List Coord
  deriving DecidableEq, Repr

/-- A slice descriptor of R424. -/
structure SliceDesc where
  pkey : BitVec 16
  group : BitVec 8
  wrap : BitVec 8
  origin : BitVec 16
  sizeX : BitVec 8
  sizeY : BitVec 8
  sizeZ : BitVec 8
  useX : BitVec 8
  useY : BitVec 8
  useZ : BitVec 8
  tshareX : BitVec 8
  tshareY : BitVec 8
  tshareZ : BitVec 8
  rsv : BitVec 136
  deriving DecidableEq, Repr

/-! ### Flits (09) -/

/-- A flit: its header fields (R356), the 244 payload bytes, in clear when ENC is set (the keystream of R375 is taken off), and
whether its CRC passes (R355).
(DESIGN CHOICE, log 106) -/
structure Flit where
  ftype : BitVec 4
  start : BitVec 8
  seq : BitVec 13
  ack : BitVec 13
  cvc : BitVec 3
  ccnt : BitVec 16
  kph : Bool
  enc : Bool
  poison : Bool
  rsv : BitVec 4
  payload : List Byte
  crcOk : Bool
  deriving DecidableEq, Repr

/-- KX_HELLO and KX_REPLY (R605): the random, the ML-KEM encapsulation key or ciphertext, and the ECDH public key. -/
structure KxHello where
  random : List Byte
  kem : List Byte
  ecdh : List Byte
  deriving DecidableEq, Repr

/-- KX_AUTH as its receiver checks it (R606): both signatures, both chains, and the UID that the certificates name. -/
structure KxAuth where
  rsaOk : Bool
  slhOk : Bool
  chainsOk : Bool
  uid : BitVec 64
  deriving DecidableEq, Repr

/-! ### Routing and recovery (10, 11) -/

/-- A fault report (R460): its class as RECOV_LAST codes it, the coordinate, the port of a dead link or silent neighbour, and the slices
fenced. -/
structure FaultReport where
  cls : Nat
  coord : Coord
  port : Option (Fin 6)
  pkeys : List (BitVec 12)
  deriving DecidableEq, Repr

/-- A reply to a drain check (R417): HELD, and TX and RX of each port, latched at the count of the check. -/
structure DrainReply where
  at_ : BitVec 64
  held : Nat
  tx : List Nat
  rx : List Nat
  deriving DecidableEq, Repr

/-- A resolution report (R465): of a member (its last committed step and whether it sent READY for the next), or of the holder of a dead
member's mirror (whether it holds staged writes, and the newest decision record). -/
inductive ResReport where
  | member (committed : Int) (readySent : Bool)
  | mirror (staged : Bool) (decided : Option Nat)
  deriving DecidableEq, Repr

/-- TAKEOVER (R469): the coordinate a spare takes, the machine's shape and ZPB, the version, sequence number and fault map in force, the
slice map, and the committed step of each slice. -/
structure TakeOver where
  coord : Coord
  sx : BitVec 5
  sy : BitVec 5
  sz : BitVec 5
  zpb : BitVec 5
  epoch : Bool
  seq : BitVec 16
  map : FaultMap
  slices : List (Fin 256 × SliceDesc × Int)
  deriving DecidableEq, Repr

/-- A change of the slice map (R424, R427). An allocation carries the DET_MODE that the coordinator records in the entry (R494). -/
inductive MapChange where
  | alloc (d : SliceDesc) (detMode : Bool)
  | remove (pkey : BitVec 12)
  deriving DecidableEq, Repr

/-! ### The host chain and start-up (14, 15) -/

/-- A CMD of R569 with its argument; the kinds that may be timed carry GCNT_AT when TIMED is set. -/
inductive Cmd where
  | snapshot (at_ : Option (BitVec 64))
  | launch (at_ : Option (BitVec 64)) (k : Fin 4)
  | freeze (at_ : Option (BitVec 64)) (pkey : BitVec 12) (thaw : Bool)
  | drain (at_ : Option (BitVec 64)) (pkey : BitVec 12)
  | reset (at_ : Option (BitVec 64)) (cold force : Bool)
  | hostDma (timed : Bool) (item : BitVec 32) (pkey : BitVec 12) (toHost : Bool) (hbm host len : Nat)
  | sliceAlloc (timed : Bool) (d : SliceDesc)
  | sliceRemove (timed : Bool) (pkey : BitVec 12)
  | planRetry (timed : Bool)
  | loadRetry (timed : Bool)
  | weightLoad (timed : Bool) (k : Fin 4)
  deriving DecidableEq, Repr

/-- A request carried by RELAY (R556, R560). -/
inductive InnerReq where
  | regRd (addr : Nat)
  | regWr (addr bytes : Nat) (val : BitVec 64)
  | memRd (addr len : Nat)
  | memWr (addr : Nat) (data : List Byte)
  | install (addr : BitVec 64) (data : List Byte)
  | ltol (val : BitVec 64)
  | cmd (c : Cmd)
  deriving DecidableEq, Repr

/-- A DEFAULTS record (R577). -/
structure DefaultRec where
  addr : BitVec 64
  value : BitVec 64
  deriving DecidableEq, Repr

/-- A reader entry of a shape variant (R575). -/
structure ReaderEnt where
  sect : BitVec 8
  slotB : Bool
  coord : Coord
  baseGen : BitVec 16
  deriving DecidableEq, Repr

/-- A shape variant of the PLAN section (R575). -/
structure Variant where
  valid : Bool
  sx : BitVec 8
  sy : BitVec 8
  sz : BitVec 8
  zpb : BitVec 8
  readers : List ReaderEnt
  deriving DecidableEq, Repr

/-- A buffer of an adapter: generation, HBM address and bytes (R543). -/
structure AdapterBuf where
  gen : Nat
  addr : Nat
  bytes : Nat
  deriving DecidableEq, Repr

/-- An adapter: two buffers, one of them current (R543). -/
structure Adapter where
  id : Nat
  buf0 : AdapterBuf
  buf1 : AdapterBuf
  cur1 : Bool
  deriving DecidableEq, Repr

/-- A configuration image as ROM meets it in a slot (R573–R575, R600): the header fields, the outcomes of the checks on its bytes
(header and directory form, signer certificates, each signature, section digests at step 4), its measurements, and its sections. An
interface entry is the 32 bytes of R517, eight for each coordinate, by variant; `serve` holds the blocks of R528, `adapters` the
adapter table of the service firmware (R543), `slices` the slice descriptors that the plan carries (R424).
(DEDUCED, log 42, 143) -/
structure Image where
  version : BitVec 32
  serial : BitVec 64
  formed : Bool
  certsOk : Bool
  rsaOk : Bool
  slhOk : Bool
  digestsOk : Bool
  mImage : BitVec 384
  mPlan : BitVec 384
  spareWait : BitVec 16
  variants : List Variant
  defaults : List (List DefaultRec)
  ifaces : List (List (BitVec 256))
  regions : List (BitVec 128)
  codecTables : List (BitVec 128)
  digestK : BitVec 128
  schedLib : List Schedule
  syncLib : List SyncTable
  serve : List (BitVec 384)
  adapters : List Adapter
  slices : List SliceDesc
  deriving DecidableEq, Repr

/-- What release of reset meets (R576, R645, R649): the input voltage in mV, the sampled straps, the secure element and the PUF,
the two flash slots, the CORE_ARRAYW words of the self test for the cores with a narrowed array, and the HMAC verdicts of the two slot
manifests. -/
structure BootInput where
  vinMv : Nat
  seedN : Bool
  flashDual : Bool
  sa1 : Bool
  sa0 : Bool
  seOk : Bool
  pufOk : Bool
  slot0 : Image
  slot1 : Image
  bist : SMap (BitVec 64)
  manifestA : Bool
  manifestB : Bool
  deriving DecidableEq, Repr

/-- What a REPORT tells of one module of the subtree (R579, R580). -/
structure ModReport where
  coord : Coord
  uid : BitVec 64
  slotA : BitVec 64
  slotB : BitVec 64
  unlocked : Bool
  livePorts : List (Fin 6)
  miswired : List (Fin 6)
  detMap : BitVec 64
  conflict : Bool
  deriving DecidableEq, Repr

/-- What the coordinator tells every module at the end of step 8 (R582): the variant chosen, or to wait. -/
inductive PlanVerdict where
  | fits (v : Fin 4)
  | waits
  deriving DecidableEq, Repr

/-- The outcome of the checks of an owner's token that need the owner's public keys (R610, R612): each signature, and the match of the signer
with the owner key hashes. -/
structure TokenVerdict where
  rsaOk : Bool
  slhOk : Bool
  ownerOk : Bool
  deriving DecidableEq, Repr

/-- A spare's attestation as the coordinator checks it (R604). -/
structure SpareReport where
  coord : Coord
  uid : BitVec 64
  sigsOk : Bool
  mImage : BitVec 384
  mPlan : BitVec 384
  owner : BitVec 384
  arb : BitVec 32
  deriving DecidableEq, Repr

/-! ### Power and the board (16, 17) -/

/-- One reading of the controller (R629, R631): the hottest die sensor and its quadrant, the hottest stack and its number, input power
over 10 ms and over 1 ms, input voltage, and whether a power stage reports a regulation fault. -/
structure Sensors where
  dieMax : Nat
  dieQuad : Fin 4
  hbmMax : Nat
  hbmStack : Fin 8
  watts10 : Nat
  watts1 : Nat
  vinMv : Nat
  regFault : Bool
  deriving DecidableEq, Repr

/-- Causes that move the module to Active (R622), beyond those that are commands of their own. -/
inductive WakeCause where
  | train (p : Fin 6)
  | packet (vc : Fin 6)
  deriving DecidableEq, Repr

/-- An ageing sample (R632): the worst canary slowdown in 0.01 %; the worst HBM stack with its re-reads and corrections; the worst
lane with its eye height in 0.1 % and its corrected codewords; the vault's read retries and the oldest retention age in days. -/
inductive AgeSample where
  | compute (slowdown : Nat)
  | hbm (stack : Fin 8) (rereads corrections : Nat)
  | serdes (lane : Fin 128) (eye corrected : Nat)
  | vault (retries age : Nat)
  deriving DecidableEq, Repr

/-- Instructions of the TAP (R652, R653). -/
inductive JtagInstr where
  | bypass | idcode | samplePreload | extest | extestPulse | extestTrain | clamp | highz | other
  deriving DecidableEq, Repr

/-! ### The service node (13) -/

/-- An ARP frame (R518). -/
structure ArpFrame where
  isReply : Bool
  senderMac : BitVec 48
  senderIp : BitVec 32
  targetIp : BitVec 32
  deriving DecidableEq, Repr

/-- A neighbour solicitation or advertisement (R518): the target, the sender's address and MAC. -/
structure NdFrame where
  isAdvert : Bool
  target : BitVec 128
  src : BitVec 128
  mac : BitVec 48
  deriving DecidableEq, Repr

/-- An ICMP or ICMPv6 echo request (R518). IPv4 addresses stand in the low 32 bits. -/
structure EchoFrame where
  v6 : Bool
  src : BitVec 128
  dst : BitVec 128
  ident : BitVec 16
  seq : BitVec 16
  data : List Byte
  deriving DecidableEq, Repr

/-- An RDMA WRITE packet (R519, R520): its PSN; the first packet of a message carries the VA and R_Key; the last may carry immediate
data. -/
structure RdmaWrite where
  psn : BitVec 24
  first : Bool
  isLast : Bool
  va : BitVec 64
  rkey : BitVec 32
  imm : Option (BitVec 32)
  data : List Byte
  ce : Bool
  deriving DecidableEq, Repr

/-- An RDMA READ request. -/
structure RdmaRead where
  psn : BitVec 24
  va : BitVec 64
  rkey : BitVec 32
  len : BitVec 32
  ce : Bool
  deriving DecidableEq, Repr

/-- An RDMA READ response packet. -/
structure RdmaResp where
  psn : BitVec 24
  isLast : Bool
  data : List Byte
  ce : Bool
  deriving DecidableEq, Repr

/-- NAK kinds (R524). -/
inductive NakKind where
  | sequence | invalid | access
  deriving DecidableEq, Repr

/-- Frames that an interface sends besides RoCE. -/
inductive EthOut where
  | arp (f : ArpFrame)
  | nd (f : NdFrame)
  | echoReply (f : EchoFrame)
  | lldp (tlvs : List Byte)
  deriving DecidableEq, Repr

/-! ### The commands -/

/-- The commands of the module, one for each row of the spec's table. Requests carry their `Req`; events of the block carry what
the table's rule has them meet. -/
inductive Instr where
  /-- A write to a register that has no row of its own acts on its RW, W1C and WO fields only, or is refused by that register's own rule (R656). -/
  | registerWrite (r : Req) (addr : Nat) (bytes : Nat) (val : BitVec 64)
  /-- A write setting RING_CTL.ARM arms a ring context and binds its schedule, or is refused with an address error (R43). -/
  | ringCtlArm (r : Req) (k : Fin 4) (val : BitVec 64)
  /-- A write setting RING_CTL.STOP makes the first owner end the context at the next permitted year boundary (R42). -/
  | ringCtlStop (r : Req) (k : Fin 4) (val : BitVec 64)
  /-- The armed program bank finishes loading, and placement completes once the buddy also holds the mirror of the state at placement (R275). -/
  | bankLoadDone (k : Fin 4)
  /-- GCNT reaches RING_LAUNCH and the first owner of each direction injects day 0 of FIRST_YEAR (R41). -/
  | ringLaunch (k : Fin 4)
  /-- An owner that has accepted the previous day and holds credits for all four packets starts reading its leaf from HBM onto the link and multicast path, directly or as proxy for a spare (R32). -/
  | leafInject (k : Fin 4) (dir : Dir) (proxy : Bool)
  /-- The owner finishes reading its own leaf body and accepts it, moving its ring angle and making cues eligible (R38). -/
  | ownLeafAccept (k : Fin 4) (dir : Dir)
  /-- In resident mode the loopback plays the next owned leaf from HBM at one leaf per day period and accepts it (R50). -/
  | residentLoopbackLeaf (k : Fin 4) (dir : Dir)
  /-- A LEAF packet arrives, is checked against its context, consumed and forwarded cut-through; packet 3 completes acceptance (R47). -/
  | leafPacketReceive (p : Fin 6) (pkt : Packet)
  /-- A gradient leaf received whole gets the module's FP32 contribution and is forwarded, or kept by the owner (R45). -/
  | gradientLeafReceive (p : Fin 6) (pkts : List Packet) (contrib : List (BitVec 32))
  /-- A write to CORE_ARRAYMODE changes array modes in MAINTENANCE only, otherwise returns an address error (R110). -/
  | coreArraymodeWrite (r : Req) (c : Fin 25600) (val : BitVec 64)
  /-- Dummy-operation gap filling reaches 200 ns and the array is ramped down under the Kettle and clock-gated (R105). -/
  | gapFillExpire (c : Fin 25600) (arrB : Bool)
  /-- The drain engine finishes draining an accumulator bank, freeing it for the next pass (R79). -/
  | accumulatorDrainDone (c : Fin 25600) (arrB : Bool)
  /-- NOP does nothing and completes at issue (R294). -/
  | nop (c : Fin 25600) (n : Fin 64)
  /-- SETP writes VALUE into the named parameter register (R294). -/
  | setp (c : Fin 25600) (n : Fin 64)
  /-- LOOP runs its body count times, driving the IDX of its nesting level (R296). -/
  | loop (c : Fin 25600) (n : Fin 64)
  /-- TILE dispatches a matrix or distance operation to the arrays or thin path (R287). -/
  | tile (c : Fin 25600) (n : Fin 64)
  /-- A TILE completes when its last output element is written, or with HOLD when its last K-block is in the bank (R289). -/
  | tileComplete (c : Fin 25600) (thin : Bool)
  /-- VEC dispatches an element-wise vector operation to the vector unit (R290). -/
  | vec (c : Fin 25600) (n : Fin 64)
  /-- SFU dispatches a special-function operation (R290). -/
  | sfu (c : Fin 25600) (n : Fin 64)
  /-- A VEC or SFU operation completes when its last element is written (R285). -/
  | vecComplete (c : Fin 25600)
  /-- ARM queues a transfer of a stream descriptor at its engine and increments ARMED (R238). -/
  | arm (c : Fin 25600) (n : Fin 64)
  /-- REARM queues a persistent stream again with a new base and offset (R260). -/
  | rearm (c : Fin 25600) (n : Fin 64)
  /-- SWAP waits until the halves of a DOUBLE region are free and then flips SIDE (R244). -/
  | swap (c : Fin 25600) (n : Fin 64)
  /-- A waiting SWAP finds its condition met and flips SIDE (R244). -/
  | swapComplete (c : Fin 25600) (n : Fin 64)
  /-- SWAIT waits until a stream's DONE equals its ARMED count (R239). -/
  | swait (c : Fin 25600) (n : Fin 64)
  /-- SIGNAL updates a sync word locally or sends it in a sync signal to another module (R319). -/
  | signal (c : Fin 25600) (n : Fin 64)
  /-- SYNCWAIT completes if its condition holds, otherwise the context sleeps with a monitor armed (R324). -/
  | syncwait (c : Fin 25600) (n : Fin 64)
  /-- DIGEST turns digest folding of a stream's later drain transfers on or off (R293). -/
  | digest (c : Fin 25600) (n : Fin 64)
  /-- COMMIT waits for every earlier operation of the binding on the core to complete (R295). -/
  | commit (c : Fin 25600) (n : Fin 64)
  /-- COMMIT completes and the core reports its arrival for the step to the commit logic (R295). -/
  | commitComplete (c : Fin 25600)
  /-- An engine waiting on a full or empty circular region is served once room or data appears (R198). -/
  | regionWaitServed (c : Fin 25600) (e : Engine)
  /-- An engine starts its next queued transfer, reading any run-time count and making run-time checks (R238). -/
  | streamTransferStart (c : Fin 25600) (e : Engine)
  /-- A fetch or drain completes and the stream's DONE count increments (R240). -/
  | streamTransferComplete (c : Fin 25600) (e : Engine)
  /-- Every 64 core cycles each regulator bucket is refilled by RATE up to DEPTH (R257). -/
  | regulatorRefill (g : Fin 400)
  /-- A multicast block is sent once every member has armed the arm and has room (R253). -/
  | mcastBlockSend (c : Fin 25600) (e : Engine)
  /-- A cue whose day leaf has been accepted fires and enters its context's pending list (R278). -/
  | cueFire (c : Fin 25600) (trig : Trig) (cue : Nat)
  /-- When the old binding has ended and drained, the core switches to the armed program bank (R276). -/
  | bankSwitch (c : Fin 25600)
  /-- A slip reaches SLIP_LIMIT, its items fail with FAILED_TIMEOUT and the safe state is entered (R301). -/
  | slipLimitExpire (c : Fin 25600) (n : Fin 64)
  /-- An HBM block read returns and its CRC is checked (R204). -/
  | hbmBlockRead (block : Nat) (port : Fin 8) (ok : List Bool)
  /-- The shadow copy arrives, the block is rewritten whole and the leaf is injected (R206). -/
  | shareRepairReply (block : Nat) (data : List Byte)
  /-- A per-bank refresh falls due and holds the channel's read queue (R207). -/
  | hbmRefresh (ch : Fin 256)
  /-- A write to HBM_FREEZE stops or resumes new grants on channels (R211). -/
  | hbmFreezeWrite (r : Req) (i : Fin 4) (val : BitVec 64)
  /-- Every INTERVAL µs each channel reads the next scrub block (R212). -/
  | patrolScrubRead (ch : Fin 256) (ok : List Bool)
  /-- An HBM channel reports a fatal fault, a module fault that enters the device-level safe state (R261). -/
  | hbmChannelFatal (ch : Fin 256)
  /-- A vault block is delivered and checked, starting a rebuild on CRC failure (R217). -/
  | vaultBlockDeliver (block : Nat) (crcOk : Bool)
  /-- A vault block not delivered within DEADLINE is rebuilt from its parity group (R217). -/
  | vaultDeadlineExpire (block : Nat)
  /-- A rebuild from parity completes and the block is delivered and marked suspect (R217). -/
  | vaultRebuildDone (block : Nat) (bad : Nat)
  /-- A write to VAULT_SLOT_A or B is accepted only from the image or in installation mode (R230). -/
  | vaultSlotWrite (r : Req) (slotB : Bool) (val : BitVec 64)
  /-- A write to SPM_SLOT sets a bank's slot table in MAINTENANCE only (R235). -/
  | spmSlotWrite (r : Req) (b : Fin 16) (val : BitVec 64)
  /-- A write to SPM_REGION redefines a circular region in MAINTENANCE only (R236). -/
  | spmRegionWrite (r : Req) (n : Fin 32) (val : BitVec 64)
  /-- A sync signal arrives from another module and is applied after its data is written (R322). -/
  | syncSignalReceive (p : Fin 6) (sig : SyncExt)
  /-- A release signal writes its SENSE into the BARRIER_MIRROR word (R325). -/
  | barrierReleaseReceive (p : Fin 6) (sig : SyncExt)
  /-- With the channel monitors full, a waiting core polls its HBM sync word every 1 µs (R324). -/
  | syncPoll (c : Fin 25600) (n : Fin 64)
  /-- A wait watchdog expires, failing the uncommitted step's items with FAILED_TIMEOUT and entering the safe state (R330). -/
  | waitWatchdogExpire (c : Fin 25600) (n : Fin 64)
  /-- A stream watchdog expires and the transfer's task aborts with FAILED_TIMEOUT (R330). -/
  | streamWatchdogExpire (c : Fin 25600) (e : Engine)
  /-- A grant watchdog expires: module fault and device-level safe state (R330). -/
  | grantWatchdogExpire (ch : Fin 256)
  /-- Every 8 µs a port sends a SYNC REQUEST flit (R376). -/
  | syncFlitSend (p : Fin 6) (ps : Nat)
  /-- A SYNC REQUEST is received and answered with a REPLY (R376). -/
  | syncRequestReceive (p : Fin 6) (f : SyncFlit) (rxPs : Nat) (txPs : Nat)
  /-- A SYNC REPLY from the parent gives the offset and GCNT slews toward it (R333). -/
  | syncReplyReceive (p : Fin 6) (f : SyncFlit) (rxPs : Nat)
  /-- A module with no lower-depth live neighbour for 100 µs enters HOLDOVER (R334). -/
  | holdoverEnter
  /-- A spare at (0,0,0) locked for 1 ms becomes time master (R335). -/
  | actingMasterHandover
  /-- A write to SNAP_AT arms a snapshot, or is refused while one is armed or pending (R341). -/
  | snapAtWrite (r : Req) (val : BitVec 64)
  /-- GCNT reaches SNAP_AT and every latched counter is copied into its pending shadow (R338). -/
  | snapshotLatch
  /-- A DATA flit is checked for CRC and sequence, accepted and decrypted, or discarded with a NAK (R371). -/
  | dataFlitReceive (p : Fin 6) (f : Flit)
  /-- A CTRL flit updates the transmitter's six credit counts (R367). -/
  | ctrlFlitReceive (p : Fin 6) (f : Flit)
  /-- 640 flit times without a CTRL flit make one due (R368). -/
  | ctrlFlitDue (p : Fin 6)
  /-- A NAK makes the transmitter resend every held flit from the named SEQ (R372). -/
  | nakFlitReceive (p : Fin 6) (f : Flit)
  /-- No ACK progress for REPLAY_TO makes the transmitter resend from the oldest held flit (R372). -/
  | replayTimeout (p : Fin 6)
  /-- A FENCE flit makes the port discard packets of the fenced scope and hands the fence to commit logic (R378). -/
  | fenceFlitReceive (p : Fin 6) (f : Flit)
  /-- Every 1 µs while a fence holds, the port sends the FENCE again (R377). -/
  | fenceFlitResend (p : Fin 6)
  /-- A HELLO flit records the peer's port, coordinate, UID, buffers and deskew (R381). -/
  | helloFlitReceive (p : Fin 6) (f : Flit)
  /-- Loss of lock or no good flit for SILENCE_TO declares the link dead (R384). -/
  | silenceTimeout (p : Fin 6) (lossOfLock : Bool)
  /-- Writing LINK_CTL.KILL declares the link dead (R390). -/
  | linkKill (r : Req) (p : Fin 6) (val : BitVec 64)
  /-- Writing LINK_CTL.RETRAIN starts bring-up from DOWN or DEAD (R390). -/
  | linkRetrain (r : Req) (p : Fin 6) (val : BitVec 64)
  /-- Writing LINK_CTL.ENABLE holds the port DOWN or lets it train, clearing it being a death (R390). -/
  | linkEnableWrite (r : Req) (p : Fin 6) (val : BitVec 64)
  /-- All lanes are trained and the port moves to ALIGN (R379). -/
  | linkTrainDone (p : Fin 6)
  /-- Lock has held for 1 ms and the port moves to HELLO (R379). -/
  | linkAlignDone (p : Fin 6)
  /-- HELLOs and SYNC exchanges are done and the port moves to KEYING (R379). -/
  | linkHelloDone (p : Fin 6) (latNs : Nat) (hopNs : Nat)
  /-- A bring-up state exceeds its bound, returning the port to DOWN (R379). -/
  | linkBringupTimeout (p : Fin 6)
  /-- With AUTO set, the port starts again 10 ms after death or timeout (R379). -/
  | linkAutoRetrain (p : Fin 6)
  /-- The responder receives the initiator's random, ML-KEM key and ECDH key (R605). -/
  | kxHello (p : Fin 6) (m : KxHello)
  /-- The initiator receives the ML-KEM ciphertext and ECDH key and derives link keys (R605). -/
  | kxReply (p : Fin 6) (m : KxHello)
  /-- The peer's certificates and signatures over TH are received and checked (R606). -/
  | kxAuth (p : Fin 6) (a : KxAuth)
  /-- The peer's confirm HMAC is checked and the port enters UP in a new key phase (R606). -/
  | kxDone (p : Fin 6) (mac : List Byte)
  /-- The transmit count reaches 2^REKEY_EXP and a rekey exchange starts (R607). -/
  | rekeyStart (p : Fin 6)
  /-- A WRITE packet whose last flit passed is delivered and written whole to HBM (R361). -/
  | writePacketReceive (p : Fin 6) (pkt : Packet)
  /-- A READ_REQ is answered with READ_RESP packets in address order (R360). -/
  | readReqReceive (p : Fin 6) (pkt : Packet)
  /-- A READ_RESP is placed by the requester's record (R360). -/
  | readRespReceive (p : Fin 6) (pkt : Packet)
  /-- A CNP halves the injection rate toward its source (R423). -/
  | cnpReceive (p : Fin 6) (pkt : Packet)
  /-- After RECOVER_T without a CNP the injection rate rises by ADD (R423). -/
  | rateRecoverStep (dst : Coord)
  /-- The coordinator receives a fault report and adds it to the fault map (R415). -/
  | faultReport (rep : FaultReport)
  /-- A module receives a new fault map and starts computing its next table (R413). -/
  | faultMapReceive (seq : BitVec 16) (map : FaultMap) (verdict : Option PlanVerdict)
  /-- The next table is computed, NEXT_VALID set and an acknowledgement sent (R413). -/
  | tablePrepareDone
  /-- The coordinator counts acknowledgements and sends FLIP_AT once all live modules answered (R415). -/
  | prepareAckReceive (src : Coord) (seq : BitVec 16)
  /-- A module not acknowledging within 1 ms is mapped dead and Prepare restarts (R415). -/
  | prepareAckTimeout
  /-- A module records the scheduled flip count (R415). -/
  | flipAtReceive (at_ : BitVec 64)
  /-- At FLIP_AT each module toggles CUR, sets DRAINING and re-routes or discards queued packets (R415). -/
  | epochFlip
  /-- Every 20 µs the coordinator sends a drain check (R415). -/
  | drainCheckSend
  /-- A module records the drain check's count (R417). -/
  | drainCheckReceive (at_ : BitVec 64)
  /-- At the check count the module latches old-epoch counts and replies (R417). -/
  | drainCheckLatch
  /-- The coordinator judges the old version drained and sends RETIRE (R417). -/
  | drainCheckReplyReceive (src : Coord) (rep : DrainReply)
  /-- A module clears DRAINING and lifts HOLD (R415). -/
  | retireReceive
  /-- DRAIN_TO expires, remaining old packets are discarded and their slices fenced (R418). -/
  | drainToExpire
  /-- At the named count every module's slice map copy changes (R424). -/
  | sliceMapUpdate (at_ : BitVec 64) (c : MapChange)
  /-- Every 1 ms the controller sends a heartbeat to each admitted neighbour (R459). -/
  | heartbeatSend
  /-- A heartbeat restarts the neighbour's silence count (R459). -/
  | heartbeatReceive (p : Fin 6)
  /-- No heartbeat for SILENT_TO declares the neighbour silent (R459). -/
  | neighbourSilent (p : Fin 6)
  /-- The buddy stages a mirrored write and acknowledges it (R447). -/
  | mirrorWriteReceive (p : Fin 6) (step : Nat) (pkt : Packet)
  /-- A mirror acknowledgement arrives and may complete the module's readiness for the step (R450). -/
  | mirrorAckReceive (i : Fin 256) (step : Option Nat)
  /-- The home, holding READY from every member, writes DECIDE to its buddy (R451). -/
  | readyReceive (i : Fin 256) (src : Coord) (step : Nat)
  /-- The home's buddy logs the decision record and acknowledges (R451). -/
  | decideReceive (pkey : BitVec 12) (step : Nat)
  /-- The home takes its commit point and sends COMMIT(t) to the members (R451). -/
  | decideAckReceive (i : Fin 256) (step : Nat)
  /-- A member receives COMMIT(t), takes its commit point and sends APPLY to its buddy (R452). -/
  | commitReceive (i : Fin 256) (step : Nat)
  /-- The buddy applies the staged writes of the step to the mirror (R452). -/
  | applyReceive (pkey : BitVec 12) (step : Nat)
  /-- A coordinator safe-state request enters the device-level safe state with CAUSE 0x09 (R458). -/
  | safeRequestReceive
  /-- The resolver gathers reports, sets target step T and sends ROLLBACK(T) (R466). -/
  | resolutionReportReceive (i : Fin 256) (src : Coord) (rep : ResReport)
  /-- A member commits up to T late and undoes steps above T (R466). -/
  | rollbackReceive (i : Fin 256) (target : Int)
  /-- A spare takes the dead coordinate's identity and roles (R469). -/
  | takeoverReceive (t : TakeOver)
  /-- The dead module stops sending on Ethernet and sets RELINQUISHED (R469). -/
  | relinquishReceive
  /-- The spare finishes receiving the mirror and ward state and reports RESTORE done (R470). -/
  | restoreComplete (i : Fin 256)
  /-- The resolver receives RESTORE done and sets the relaunch count (R471). -/
  | restoreReportReceive (i : Fin 256) (src : Coord)
  /-- A member or transit module records the relaunch count (R471). -/
  | relaunchCountReceive (i : Fin 256) (at_ : BitVec 64)
  /-- At the relaunch count the fence lifts and ring contexts restart at the committed angle (R471). -/
  | relaunch (i : Fin 256)
  /-- A slice not back in RUN within BOUND fails its admitted items FAILED_FAULT_RETRYABLE (R473). -/
  | recoveryBoundExpire (i : Fin 256)
  /-- SAFE_CTL.TO_MAINT moves a module in SAFE to MAINTENANCE (R480). -/
  | toMaint (r : Req)
  /-- SAFE_CTL.RESUME relaunches a halted slice or returns a device from SAFE to RECOVERING (R464). -/
  | resume (r : Req)
  /-- SAFE_CTL.REQ_SLICE halts the slice named by COMMIT_SEL (R464). -/
  | reqSlice (r : Req)
  /-- SAFE_CTL.REQ_DEVICE enters the device-level safe state (R463). -/
  | reqDevice (r : Req)
  /-- A write to RNG_SEED sets the seed unless a context of the slice is armed or live (R503). -/
  | rngSeedWrite (r : Req) (val : BitVec 64)
  /-- An ARP request for an interface address is answered (R518). -/
  | arpReceive (i : Fin 8) (f : ArpFrame)
  /-- An IPv6 Neighbour Solicitation for an interface address is answered (R518). -/
  | neighbourDiscoveryReceive (i : Fin 8) (f : NdFrame)
  /-- An ICMP or ICMPv6 echo request is answered (R518). -/
  | icmpEchoReceive (i : Fin 8) (f : EchoFrame)
  /-- Every 30 s an interface sends LLDP (R518). -/
  | lldpSend (i : Fin 8)
  /-- An LLDP frame is received (R518). -/
  | lldpReceive (i : Fin 8) (tlvs : List Byte)
  /-- Any other frame is discarded and counted in DROPPED (R518). -/
  | ethFrameDiscard (i : Fin 8)
  /-- An RDMA WRITE is applied to the request region in PSN order (R520). -/
  | rdmaWriteReceive (q : Fin 65536) (w : RdmaWrite)
  /-- An RDMA READ from the request region is answered (R519). -/
  | rdmaReadRequestReceive (q : Fin 65536) (rd : RdmaRead)
  /-- Response data of a training pull or other READ arrives (R539). -/
  | rdmaReadResponseReceive (q : Fin 65536) (rsp : RdmaResp)
  /-- A RoCE acknowledgement retires sent packets (R519). -/
  | roceAckReceive (q : Fin 65536) (psn : BitVec 24)
  /-- A NAK triggers go-back-N retransmission or moves the queue pair to ERROR (R524). -/
  | roceNakReceive (q : Fin 65536) (psn : BitVec 24) (kind : NakKind)
  /-- The retransmission timer expires and the queue pair retransmits or enters ERROR (R519). -/
  | roceRetransmitTimeout (q : Fin 65536)
  /-- A CNP halves the queue pair's rate (R521). -/
  | roceCnpReceive (q : Fin 65536)
  /-- After RECOVER_T without a CNP the queue pair's rate rises (R521). -/
  | roceRateRecover (q : Fin 65536)
  /-- A received PFC frame pauses or resumes the lossless priority (R522). -/
  | pfcFrameReceive (e : Fin 2) (prio : Fin 8) (pause : Bool)
  /-- QP_CREATE checks a queue pair entry and makes it READY (R524). -/
  | qpCreate (r : Req)
  /-- QP_DESTROY returns a queue pair to RESET (R524). -/
  | qpDestroy (r : Req)
  /-- JOB_START checks a job manifest and starts a training job (R538). -/
  | jobStart (r : Req)
  /-- JOB_STOP ends a job CANCELLED at the next commit point (R541). -/
  | jobStop (r : Req)
  /-- EXPORT writes a committed adapter generation into an export area (R542). -/
  | exportAdapter (r : Req)
  /-- ADAPTER_GEN makes a generation current at a commit point chosen by the home (R544). -/
  | adapterGen (r : Req)
  /-- BASE_SWITCH drains the old base generation and switches to the armed context (R545). -/
  | baseSwitch (r : Req)
  /-- A Cymund MEM_RD reads HBM bytes, or a module reads adapter memory for host DMA (R562). -/
  | memRd (r : Req) (addr : Nat) (len : Nat)
  /-- A Cymund MEM_WR writes HBM bytes unless a committed region has a live binding (R562). -/
  | memWr (r : Req) (addr : Nat) (data : List Byte)
  /-- An INSTALL packet carries the next 1,024 bytes of the vault installation stream (R573). -/
  | install (r : Req) (addr : BitVec 64) (data : List Byte)
  /-- An LTOL message sets the latency tolerance as a write of LTOL (R556). -/
  | ltol (r : Req) (val : BitVec 64)
  /-- ENUMERATE assigns the chain address NEXT and forwards or answers with the count (R561). -/
  | enumerate (next : Nat) (tag : BitVec 10)
  /-- RELAY sends its inner request as a MGMT packet to the named coordinate (R560). -/
  | relay (r : Req) (target : Coord) (inner : InnerReq)
  /-- A target executes a relayed request from a MGMT packet and returns the response (R560). -/
  | relayedRequestReceive (src : Coord) (tag : BitVec 10) (inner : InnerReq)
  /-- The relaying module returns the inner response in a RELAY response (R560). -/
  | relayResponseReceive (src : Coord) (tag : BitVec 10) (status : BitVec 8) (reason : BitVec 8) (data : List Byte)
  /-- The adapter's response to an EVENT releases the held event (R564). -/
  | eventAck (seq : BitVec 32)
  /-- A response to a module's own Cymund request arrives and retires its tag (R558). -/
  | chainResponseReceive (tag : BitVec 10) (status : BitVec 8) (data : List Byte)
  /-- No response within RETRY_TO resends the request, abandoning it after RETRY_MAX (R558). -/
  | chainRetryTimeout (tag : BitVec 10)
  /-- A Cymund port dies and the modules beyond it are cut off from the chain (R553). -/
  | chainLinkDeath (out : Bool)
  /-- CMD SNAPSHOT writes SNAP_AT = GCNT_AT (R569). -/
  | snapshot (r : Req) (at_ : Option (BitVec 64))
  /-- CMD LAUNCH writes RING_LAUNCH and arms a ring context (R569). -/
  | launch (r : Req) (at_ : Option (BitVec 64)) (k : Fin 4)
  /-- CMD FREEZE closes or reopens admission of new items for a slice (R570). -/
  | freeze (r : Req) (at_ : Option (BitVec 64)) (pkey : BitVec 12) (thaw : Bool)
  /-- CMD DRAIN freezes a slice and stops its context once no item remains (R570). -/
  | drain (r : Req) (at_ : Option (BitVec 64)) (pkey : BitVec 12)
  /-- CMD RESET performs a warm or cold reset, refused with a live binding unless FORCE (R571). -/
  | reset (r : Req) (at_ : Option (BitVec 64)) (cold : Bool) (force : Bool)
  /-- CMD HOST_DMA queues a host DMA item (R563). -/
  | hostDma (r : Req) (timed : Bool) (item : BitVec 32) (pkey : BitVec 12) (toHost : Bool) (hbm : Nat) (host : Nat) (len : Nat)
  /-- CMD SLICE_ALLOC forwards a descriptor to the coordinator, which checks and applies it (R426). -/
  | sliceAlloc (r : Req) (timed : Bool) (d : SliceDesc)
  /-- CMD SLICE_REMOVE removes a slice with no armed or live context (R427). -/
  | sliceRemove (r : Req) (timed : Bool) (pkey : BitVec 12)
  /-- CMD PLAN_RETRY re-runs the plan check in PLAN_WAIT (R582). -/
  | planRetry (r : Req) (timed : Bool)
  /-- CMD LOAD_RETRY restarts the load of a failed section (R584). -/
  | loadRetry (r : Req) (timed : Bool)
  /-- CMD WEIGHT_LOAD loads a ring context's shares and shadows while the machine runs (R585). -/
  | weightLoad (r : Req) (timed : Bool) (k : Fin 4)
  /-- A timed command acts when GCNT reaches GCNT_AT (R570). -/
  | timedCommandAct
  /-- VSB12 comes into range and the management domain powers up held in reset (R645). -/
  | powerOn
  /-- Release of reset samples straps and runs start-up from image verification to port bring-up (R576). -/
  | resetRelease (b : BootInput)
  /-- A module without a coordinate takes the first ASSIGN and sends its own ASSIGNs and NEIGHBOURs (R579). -/
  | assignReceive (p : Fin 6) (coord : Coord) (seedUid : BitVec 32)
  /-- A NEIGHBOUR message is checked against R398, marking the port miswired on disagreement (R579). -/
  | neighbourReceive (p : Fin 6) (coord : Coord)
  /-- A REPORT from an assigned module is collected for the subtree (R579). -/
  | reportReceive (p : Fin 6) (rep : List ModReport)
  /-- After 100 ms a module sends its REPORT without the missing ones (R579). -/
  | reportTimeout
  /-- After 0.5 s with UP ports and no ASSIGN, a module enters PLAN_WAIT with NO_SEED (R580). -/
  | noSeedTimeout
  /-- The vacancy-fill wait ends when all vacancies are filled or SPARE_WAIT expires (R581). -/
  | spareWaitExpire
  /-- A reader receives a request for a missing 16 KiB unit and sends it again (R583). -/
  | loadUnitRequest (src : Coord) (k : Fin 4) (unit : Nat)
  /-- The coordinator collects DONE reports and moves the machine to placement (R583). -/
  | loadDoneReport (src : Coord)
  /-- A module records the READY count named by the coordinator (R586). -/
  | readyCountReceive (at_ : BitVec 64)
  /-- At the READY count the module enters READY and raises STATE (R586). -/
  | readyEnter
  /-- SEC_CMD NONCE issues a new nonce in SEC_NONCE0-3 (R616). -/
  | nonce (r : Req)
  /-- SEC_CMD ATTEST writes a signed attestation report (R603). -/
  | attest (r : Req)
  /-- SEC_CMD GET_EK writes the installation encapsulation key (R609). -/
  | getEk (r : Req)
  /-- SEC_CMD INSTALL_OPEN checks a token and opens installation (R610). -/
  | installOpen (r : Req) (v : TokenVerdict)
  /-- SEC_CMD INSTALL_CLOSE writes manifests and slots and closes installation (R611). -/
  | installClose (r : Req)
  /-- SEC_CMD OWNER_TRANSFER installs new owner hashes, erases secrets and HBM and resets (R612). -/
  | ownerTransfer (r : Req) (v : TokenVerdict)
  /-- A write of PWR_CTL.POINT requests a performance point (R618). -/
  | pwrCtlWrite (r : Req) (val : BitVec 64)
  /-- POINT_EFF changes: issue pauses, current ramps down, clocks switch and current ramps up (R619). -/
  | pointChange
  /-- Every 100 µs the controller reads temperatures and power stages (R629). -/
  | sensorPoll (x : Sensors)
  /-- After its conditions and LTOL have held, the module enters the deepest allowed idle state (R621). -/
  | idleEnter
  /-- A wake cause moves the module from an idle state to Active (R622). -/
  | idleExit (cause : WakeCause)
  /-- A write of LTOL changes the tolerance and may move the module to a shallower state (R622). -/
  | ltolWrite (r : Req) (val : BitVec 64)
  /-- MAINT_CTL.ENTER moves READY to MAINTENANCE when no context is armed or live (R628). -/
  | enter (r : Req)
  /-- MAINT_CTL.LEAVE stops any test load, checks bindings and returns to READY (R628). -/
  | leave (r : Req)
  /-- KETTLE_RUN.GO starts the Kettle test load (R627). -/
  | go (r : Req) (val : BitVec 64)
  /-- KETTLE_RUN.STOP ends the Kettle test (R627). -/
  | stop (r : Req) (val : BitVec 64)
  /-- At KETTLE_AT the first cycle of the test wave starts (R627). -/
  | kettleFirstCycle
  /-- After STEPS cycles the test ends and current ramps to zero (R627). -/
  | kettleTestEnd
  /-- Ageing indicators are sampled on their schedules (R632). -/
  | ageingSample (x : AgeSample)
  /-- At each cold start and every 86,400 s the end-of-life predictor runs (R633). -/
  | predictorRun
  /-- Assertion of RESET_N stops the module within 1 µs with arrays gated unshaped (R648). -/
  | resetNAssert
  /-- Loss of VSB12 shuts down the on-module stages with no safe-state sequence (R646). -/
  | vsb12Loss
  /-- Loss of REFCLK is a module fault entering the safe state with CAUSE 0x0A (R647). -/
  | refclkLoss
  /-- The I3C target takes its dynamic address by ENTDAA or SETDASA (R651). -/
  | i3cAddressAssign (dyn : BitVec 7) (viaStatic : Bool) (static : BitVec 7)
  /-- A one-byte private write sets the telemetry read offset (R651). -/
  | i3cPrivateWrite (data : List Byte)
  /-- A private read returns telemetry bytes from the offset, wrapping at 64 (R651). -/
  | i3cPrivateRead (len : Nat)
  /-- A TAP instruction is loaded, pin-driving ones acting only while RESET_N is low (R652). -/
  | jtagInstruction (i : JtagInstr)
  /-- TRST_N resets the TAP alone (R652). -/
  | jtagTapReset
  /-- A port whose transmit count n reaches 2^47 in a key phase without a key update declares its link dead as a protocol fault (R375). -/
  | keyPhaseExhausted (p : Fin 6)
  /-- A logged request still missing SYNC_CFG.WAIT_WD after its step opened fails every item of the step with FAILED_TIMEOUT (R496). -/
  | admissionLogTimeout (i : Fin 256)
  /-- At the end of step 6, a module with no Flalys port UP whose plan exceeds one module sets DEV_COORD.SPARE, enters READY without a coordinate and waits idle (R576). -/
  | noFlalysPortUp
  /-- The coordinator collects each module's completion of step 11 and, once all have completed it, names the READY count (R586). -/
  | placementReportReceive (src : Coord)
  /-- A module receives the reader's report of its last send and asks the reader, over VC5, for every 16 KiB unit it has not received (R583). -/
  | lastSendReportReceive (src : Coord) (sec : Nat)
  /-- The coordinator receives a spare's fresh attestation report, checks it against its own image, and then assigns or takes over the spare or sets SEC_ERR.ATTEST (R604). -/
  | spareAttestationReceive (p : Fin 6) (a : SpareReport)
  /-- An Ethernet interface gains or loses link after auto-negotiation and training, updating ETH_STATUS UP and AN_DONE (R549). -/
  | ethLinkChange (i : Fin 8) (up : Bool)
  /-- A Cymund port completes training and comes UP, so that held events and chain traffic flow again (R553). -/
  | chainLinkUp (out : Bool)
  /-- A Cymund packet that fails its CRC, disagrees with LEN, carries a reserved value or breaks its row is discarded unanswered and counted in CHAIN_ERR (R555). -/
  | chainPacketDiscard (crcFail : Bool)
  /-- A Cymund packet whose DST is not the module's own address is forwarded cut-through, upstream under the weighted arbiter or downstream (R559). -/
  | chainPacketForward (upstream : Bool) (dst : BitVec 8) (bytes : List Byte)
  /-- Every 1 µs in HELLO a port sends a HELLO flit announcing its port, coordinate, UID, buffers and deskew (R379). -/
  | helloFlitSend (p : Fin 6)
  /-- Lane presence detection on a DOWN port of a Dormant or spare module sees a peer and starts TRAIN, waking the module (R622). -/
  | lanePresenceDetect (p : Fin 6)
  /-- Complete loss of VIN while RESET_N is high stops the module where it stands (R646). -/
  | vinLoss
  deriving DecidableEq, Repr

end Sys2Proof
end

