-- ==== Sys2Proof/Decode.lean ====
section
/-! DEFINITION. The table gives none of its rows bits: its commands are requests, messages and events, and no word spells one. -/

namespace Sys2Proof

/-- The command that a word of `nbits` bits spells: no row of the table has bits, so none.
(DEDUCED, log 8) -/
def decodeTableWord (_nbits _w : Nat) : Option Instr := none

end Sys2Proof
end

