-- ==== Sys2Proof/Machine/Map.lean ====
section
/-! DEFINITION. Operations on sparse families and on byte memories: lookup, update and block write, each keeping the canonical
form (keys strictly rising, no entry equal to what an unlisted key reads as). -/

namespace Sys2Proof.Machine

/-- The value at a key: an unlisted key reads as `d k`. -/
def mapGet {α : Type} (d : Nat → α) : SMap α → Nat → α
  | [], k => d k
  | (j, a) :: m, k => if k = j then a else mapGet d m k

/-- Insert or replace, keeping keys strictly rising. -/
def mapPut {α : Type} (k : Nat) (v : α) : SMap α → SMap α
  | [] => [(k, v)]
  | (j, a) :: m =>
    if k < j then (k, v) :: (j, a) :: m
    else if k = j then (k, v) :: m
    else (j, a) :: mapPut k v m

/-- Remove a key. -/
def mapDel {α : Type} (k : Nat) (m : SMap α) : SMap α := m.filter fun e => e.1 ≠ k

/-- Write a value; writing what the unlisted key reads as removes the entry. -/
def mapSet {α : Type} [DecidableEq α] (d : Nat → α) (k : Nat) (v : α) (m : SMap α) : SMap α :=
  if v = d k then mapDel k m else mapPut k v m

/-- Change every listed entry. -/
def mapAll {α : Type} [DecidableEq α] (d : Nat → α) (f : Nat → α → α) (m : SMap α) : SMap α :=
  (m.map fun e => (e.1, f e.1 e.2)).filter fun e => e.2 ≠ d e.1

/-- The canonical form of a sparse family. -/
def mapWf {α : Type} [DecidableEq α] (d : Nat → α) (m : SMap α) : Bool :=
  (m.map Prod.fst).Pairwise (· < ·) && m.all fun e => e.2 ≠ d e.1

/-! ### Byte memories -/

/-- The byte at an address; an unlisted address reads as zero.
(DESIGN CHOICE, log 4) -/
def memByte (m : SMap Byte) (a : Nat) : Byte := mapGet (fun _ => 0) m a

/-- The listed cells of a run of bytes from an address. -/
def memCells : Nat → List Byte → SMap Byte
  | _, [] => []
  | a, b :: bs => if b = 0 then memCells (a + 1) bs else (a, b) :: memCells (a + 1) bs

/-- Write a run of bytes at an address. -/
def memWrite (m : SMap Byte) (a : Nat) (bs : List Byte) : SMap Byte :=
  m.filter (fun e => e.1 < a) ++ memCells a bs ++ m.filter (fun e => a + bs.length ≤ e.1)

/-- The cells of a run of addresses. -/
def memSlice (m : SMap Byte) (a n : Nat) : SMap Byte := m.filter fun e => a ≤ e.1 && e.1 < a + n

/-- Read a run of bytes. -/
def memRead (m : SMap Byte) (a n : Nat) : List Byte :=
  let w := memSlice m a n
  (List.range n).map fun i => memByte w (a + i)

/-- The canonical form of a byte memory of a given size: addresses strictly rising and below the size, no zero byte listed. -/
def memWf (size : Nat) (m : SMap Byte) : Bool :=
  mapWf (fun _ => (0 : Byte)) m && m.all fun e => e.1 < size

/-! ### Bits and bytes -/

/-- Little-endian bytes of a number (R24). -/
def leBytes : Nat → Nat → List Byte
  | 0, _ => []
  | n + 1, v => BitVec.ofNat 8 v :: leBytes n (v / 256)

/-- The number that little-endian bytes spell. -/
def leNat : List Byte → Nat
  | [] => 0
  | b :: bs => b.toNat + 256 * leNat bs

/-- Bits `[hi:lo]` of a word, as a number. -/
def bitsOf {w : Nat} (x : BitVec w) (hi lo : Nat) : Nat := (x.toNat >>> lo) % 2 ^ (hi - lo + 1)

/-- Bit `i` of a word. -/
def bitOf {w : Nat} (x : BitVec w) (i : Nat) : Bool := x.getLsbD i

/-- Replace bits `[hi:lo]` of a number. -/
def putBits (x hi lo v : Nat) : Nat :=
  let n := hi - lo + 1
  x - ((x >>> lo) % 2 ^ n) * 2 ^ lo + (v % 2 ^ n) * 2 ^ lo

/-- A counter that saturates at `top`. -/
def satAdd (top x n : Nat) : Nat := min top (x + n)

/-- The first element and its position that satisfies a test. -/
def findIdx? {α : Type} (p : Nat → α → Bool) (xs : List α) : Option Nat :=
  ((List.range xs.length).zip xs).findSome? fun e => if p e.1 e.2 then some e.1 else none

/-- The first `n` bits of a little-endian byte string. -/
def bitsOfBytes (n : Nat) (bs : List Byte) : List Nat :=
  (List.range n).map fun i => ((bs[i / 8]?.getD 0).toNat >>> (i % 8)) % 2

/-- Cut a list into pieces of `n`. -/
def chunksOf {α : Type} (fuel n : Nat) (xs : List α) : List (List α) :=
  match fuel with
  | 0 => []
  | fuel + 1 => match xs with
    | [] => []
    | x :: rest => (x :: rest).take n :: chunksOf fuel n ((x :: rest).drop n)

end Sys2Proof.Machine
end

