-- ==== Sys2Proof/Machine/Arith.lean ====
section
/-! DEFINITION. Number formats and arithmetic (03): exact values, the storage formats and their codes, block scales, packing,
rounding, overflow, the cell functions, K-block sums on the arrays and on the thin path, and the output stage (R117–R152). -/

namespace Sys2Proof.Machine

/-! ### Exact values -/

/-- An exact value: ±m·2^e, ±infinity or NaN. A zero keeps its sign. -/
inductive Val where
  | fin (neg : Bool) (m : Nat) (e : Int)
  | inf (neg : Bool)
  | nan
  deriving DecidableEq, Repr

/-- A signed integer multiple of 2^e. -/
def valOf (i : Int) (e : Int) (negZero : Bool := false) : Val :=
  if i = 0 then .fin negZero 0 e else .fin (i < 0) i.natAbs e

/-- The integer that a finite value with a nonnegative exponent is. -/
def Val.toInt : Val → Int
  | .fin neg m e => (if neg then -1 else 1) * ((m : Int) * (2 : Int) ^ e.toNat / (2 : Int) ^ (-e).toNat)
  | _ => 0

/-- A finite value aligned to a smaller exponent. -/
def alignTo (m : Nat) (e e' : Int) : Nat := m * 2 ^ (e - e').toNat

/-- The exact sum: +0 for an exact cancellation, −0 for −0 + −0; NaN for ∞ − ∞ (R144). -/
def Val.add : Val → Val → Val
  | .nan, _ => .nan
  | _, .nan => .nan
  | .inf a, .inf b => if a = b then .inf a else .nan
  | .inf a, _ => .inf a
  | _, .inf b => .inf b
  | .fin s m e, .fin t n f =>
    let g := min e f
    let a : Int := (if s then -1 else 1) * (alignTo m e g : Int)
    let b : Int := (if t then -1 else 1) * (alignTo n f g : Int)
    valOf (a + b) g (s && t)

/-- Negation. -/
def Val.neg : Val → Val
  | .nan => .nan
  | .inf a => .inf (!a)
  | .fin s m e => .fin (!s) m e

/-- Magnitude. -/
def Val.abs : Val → Val
  | .nan => .nan
  | .inf _ => .inf false
  | .fin _ m e => .fin false m e

/-- The exact product; NaN for 0 × ∞ (R144). -/
def Val.mul : Val → Val → Val
  | .nan, _ => .nan
  | _, .nan => .nan
  | .inf a, .inf b => .inf (a ≠ b)
  | .inf a, .fin s m _ => if m = 0 then .nan else .inf (a ≠ s)
  | .fin s m _, .inf a => if m = 0 then .nan else .inf (a ≠ s)
  | .fin s m e, .fin t n f => .fin (s ≠ t) (m * n) (e + f)

/-- Comparison of values that are not NaN: −1, 0 or 1; −0 equals +0. -/
def Val.cmp : Val → Val → Int
  | .inf a, .inf b => if a = b then 0 else if a then -1 else 1
  | .inf a, _ => if a then -1 else 1
  | _, .inf b => if b then 1 else -1
  | .fin s m e, .fin t n f =>
    let g := min e f
    let a : Int := (if s then -1 else 1) * (alignTo m e g : Int)
    let b : Int := (if t then -1 else 1) * (alignTo n f g : Int)
    if a < b then -1 else if a = b then 0 else 1
  | _, _ => 0

/-- The larger and the smaller of two values, NaN carrying through (R151). -/
def Val.max (a b : Val) : Val :=
  match a, b with
  | .nan, _ => .nan
  | _, .nan => .nan
  | a, b => if a.cmp b < 0 then b else a
def Val.min (a b : Val) : Val :=
  match a, b with
  | .nan, _ => .nan
  | _, .nan => .nan
  | a, b => if b.cmp a < 0 then b else a

/-- Plus zero. -/
def Val.zero : Val := .fin false 0 0

/-! ### Float formats (R119, R120) -/

/-- A binary float format: exponent and mantissa bits, bias, and what its top codes mean. -/
structure FloatFmt where
  expBits : Nat
  manBits : Nat
  bias : Int
  hasInf : Bool
  hasNan : Bool
  deriving DecidableEq, Repr

def fmtFp32 : FloatFmt := ⟨8, 23, 127, true, true⟩
def fmtFp19 : FloatFmt := ⟨8, 10, 127, true, true⟩
def fmtBf16 : FloatFmt := ⟨8, 7, 127, true, true⟩
def fmtFp16 : FloatFmt := ⟨5, 10, 15, true, true⟩
def fmtE4m3 : FloatFmt := ⟨4, 3, 7, false, true⟩
def fmtE5m2 : FloatFmt := ⟨5, 2, 15, true, true⟩
def fmtE3m2 : FloatFmt := ⟨3, 2, 3, false, false⟩
def fmtE2m3 : FloatFmt := ⟨2, 3, 1, false, false⟩
def fmtE2m1 : FloatFmt := ⟨2, 1, 1, false, false⟩

/-- The float format of a code of R29. -/
def floatFmt (code : Nat) : Option FloatFmt :=
  match code with
  | 1 => some fmtFp32
  | 2 => some fmtFp19
  | 3 => some fmtBf16
  | 4 => some fmtFp16
  | 5 => some fmtE4m3
  | 6 => some fmtE5m2
  | 7 => some fmtE3m2
  | 8 => some fmtE2m3
  | 9 => some fmtE2m1
  | _ => none

/-- The exponent of the smallest normal, 2^(1 − bias). -/
def FloatFmt.emin (f : FloatFmt) : Int := 1 - f.bias
/-- The exponent of the unit in the last place of subnormals. -/
def FloatFmt.qmin (f : FloatFmt) : Int := f.emin - f.manBits
/-- The largest finite value as mantissa and exponent. -/
def FloatFmt.maxFin (f : FloatFmt) : Nat × Int :=
  let top : Int := (2 ^ f.expBits : Nat) - 1 - f.bias - (if f.hasInf then 1 else 0)
  let m := if !f.hasInf && f.hasNan then 2 ^ (f.manBits + 1) - 2 else 2 ^ (f.manBits + 1) - 1
  (m, top - f.manBits)

/-- The value that the bits of a format spell; FTZ reads a subnormal as zero with its sign (R145). -/
def FloatFmt.decode (f : FloatFmt) (ftz : Bool) (x : Nat) : Val :=
  let man := x % 2 ^ f.manBits
  let ex := x / 2 ^ f.manBits % 2 ^ f.expBits
  let neg := x / 2 ^ (f.manBits + f.expBits) % 2 = 1
  let top := 2 ^ f.expBits - 1
  if f.hasInf && ex = top then (if man = 0 then .inf neg else .nan)
  else if f.hasNan && !f.hasInf && ex = top && man = 2 ^ f.manBits - 1 then .nan
  else if ex = 0 then .fin neg (if ftz then 0 else man) f.qmin
  else .fin neg (2 ^ f.manBits + man) ((ex : Int) - f.bias - f.manBits)

/-- The canonical NaN of a format (R120). -/
def FloatFmt.nanBits (f : FloatFmt) : Nat :=
  if !f.hasNan then 0
  else if f.hasInf then (2 ^ f.expBits - 1) * 2 ^ f.manBits + 2 ^ (f.manBits - 1)
  else 2 ^ (f.manBits + f.expBits) - 1

/-- The bits of a value that lies on the grid of a format. -/
def FloatFmt.encode (f : FloatFmt) (v : Val) : Nat :=
  let sign := fun (b : Bool) => if b then 2 ^ (f.manBits + f.expBits) else 0
  match v with
  | .nan => f.nanBits
  | .inf s => sign s + (2 ^ f.expBits - 1) * 2 ^ f.manBits
  | .fin s m e =>
    if m = 0 then sign s else
      let k := Nat.log2 m
      let q : Int := max (e + k - f.manBits) f.qmin
      let n := if q ≤ e then m * 2 ^ (e - q).toNat else m / 2 ^ (q - e).toNat
      if n < 2 ^ f.manBits then sign s + n
      else sign s + ((q + f.manBits + f.bias).toNat * 2 ^ f.manBits + (n - 2 ^ f.manBits))

/-! ### Rounding (R141–R145) -/

/-- The arithmetic control field (R129). -/
structure Arith where
  pred : Nat
  ftz : Bool
  ieee : Bool
  stoch : Bool
  deriving DecidableEq, Repr

/-- Decode ARITH (R129). -/
def arithOf (b : BitVec 8) : Arith := ⟨bitsOf b 6 4, bitOf b 3, bitOf b 2, bitsOf b 1 0 = 1⟩

/-- Divide by 2^s with a rounding: to nearest even, or stochastic with a 16-bit draw (R141, R142). -/
def shiftRound (draw : Option Nat) (m s : Nat) : Nat :=
  if s = 0 then m else
    let n := m / 2 ^ s
    let r := m % 2 ^ s
    match draw with
    | some d => if r = 0 then n else if 65536 ≤ d + r * 65536 / 2 ^ s then n + 1 else n
    | none =>
      let half := 2 ^ (s - 1)
      if r < half then n else if half < r then n + 1 else n + n % 2

/-- Round a finite magnitude to the grid of a format with no upper limit: mantissa and exponent. -/
def FloatFmt.grid (f : FloatFmt) (draw : Option Nat) (m : Nat) (e : Int) : Nat × Int :=
  if m = 0 then (0, f.qmin) else
    let q : Int := max (e + Nat.log2 m - f.manBits) f.qmin
    if q ≤ e then (m * 2 ^ (e - q).toNat, q) else (shiftRound draw m (q - e).toNat, q)

/-- Whether a magnitude lies beyond the largest finite value of a format. -/
def FloatFmt.beyond (f : FloatFmt) (m : Nat) (e : Int) : Bool :=
  let (mm, me) := f.maxFin
  let g := min e me
  alignTo mm me g < alignTo m e g

/-- The largest finite value with a sign. -/
def FloatFmt.largest (f : FloatFmt) (neg : Bool) : Val :=
  let (m, e) := f.maxFin
  .fin neg m e

/-- Round an intermediate to FP32: finite overflow saturates or becomes infinity under OVF; infinities stay (R143). -/
def rne32 (ieee : Bool) (v : Val) : Val :=
  match v with
  | .fin s m e =>
    let (n, q) := fmtFp32.grid none m e
    if fmtFp32.beyond n q then (if ieee then .inf s else fmtFp32.largest s) else .fin s n q
  | v => v

/-- Overflow of an output conversion to a float format (R143). -/
def FloatFmt.overflow (f : FloatFmt) (ieee neg : Bool) : Val :=
  if !ieee then f.largest neg
  else if f.hasInf then .inf neg
  else if f.hasNan then .nan
  else f.largest neg

/-- Convert a value to a float output format under ARITH (R143–R147): the bits of the element. E4M3 overflow under IEEE is NaN
with the sign kept; FTZ flushes a subnormal result of FP19, FP8, FP6 and FP4. -/
def FloatFmt.convert (f : FloatFmt) (a : Arith) (flushes : Bool) (draw : Option Nat) (v : Val) : Nat :=
  match v with
  | .nan => f.nanBits
  | .inf s =>
    if a.ieee && !f.hasInf && f.hasNan then f.nanBits + (if s then 2 ^ (f.manBits + f.expBits) else 0)
    else f.encode (f.overflow a.ieee s)
  | .fin s m e =>
    let (n, q) := f.grid draw m e
    if f.beyond n q then
      if a.ieee && !f.hasInf && f.hasNan then f.nanBits + (if s then 2 ^ (f.manBits + f.expBits) else 0)
      else f.encode (f.overflow a.ieee s)
    else if a.ftz && flushes && alignTo n q f.qmin < 2 ^ f.manBits then f.encode (.fin s 0 0)
    else f.encode (.fin s n q)

/-- Round a value to an integer, to nearest even or stochastically (R142, R147); NaN becomes zero (R144). -/
def roundInt (draw : Option Nat) (v : Val) (lo hi : Int) : Int :=
  match v with
  | .nan => 0
  | .inf s => if s then lo else hi
  | .fin s m e =>
    let n := if 0 ≤ e then m * 2 ^ e.toNat else shiftRound draw m (-e).toNat
    max lo (min hi ((if s then -1 else 1) * (n : Int)))

/-! ### Storage formats (R118, R121–R127) -/

/-- The width of an integer format, two's complement (R121). -/
def intWidth (code : Nat) : Option Nat :=
  match code with
  | 0x0A => some 16
  | 0x0B => some 8
  | 0x0C => some 4
  | 0x0D => some 2
  | 0x10 => some 3
  | 0x11 => some 5
  | 0x12 => some 6
  | 0x13 => some 7
  | _ => none

/-- Bits per element in packed storage; an FP19 element takes its 32-bit container; TERN packs five to a byte (R118). -/
def elemBits (code : Nat) : Nat :=
  match floatFmt code with
  | some f => if code = 2 then 32 else 1 + f.expBits + f.manBits
  | none => match intWidth code with
    | some w => w
    | none => 1

/-- Bytes of an unscaled unit of 256 elements (R118). -/
def unitBytes (code : Nat) : Nat := if code = 0x0E then 52 else elemBits code * 32

/-- Whether a format may be block-scaled (R125). -/
def scalable (code : Nat) : Bool := [5, 6, 7, 8, 9, 0x0B, 0x0C].contains code

/-- Bytes of a unit, scaled or not (R126). -/
def unitSize (code : Nat) (scaled : Bool) : Nat := unitBytes code + if scaled then 8 else 0

/-- Units of a format that fit a leaf body, and the leaf capacity in elements (R127). -/
def leafUnits (code : Nat) (scaled : Bool) : Nat := 16384 / unitSize code scaled
def leafCapacity (code : Nat) (scaled : Bool) : Nat := 256 * leafUnits code scaled

/-- Whether FTZ acts on a format (R145). -/
def ftzActs (code : Nat) : Bool := code = 2 || (5 ≤ code && code ≤ 9)

/-- Whether a format is a float format. -/
def isFloat (code : Nat) : Bool := 1 ≤ code && code ≤ 9

/-- Bits `[i, i + n)` of a number. -/
def natBits (x i n : Nat) : Nat := x / 2 ^ i % 2 ^ n

/-- The sign-extended value of a two's complement field. -/
def signed (w x : Nat) : Int := if x < 2 ^ (w - 1) then x else (x : Int) - (2 ^ w : Nat)

/-- The value of one element's bits, without block scale (R119, R121). -/
def elemValue (code : Nat) (ftz : Bool) (x : Nat) : Val :=
  match floatFmt code with
  | some f => f.decode (ftz && ftzActs code) (if code = 2 then x / 2 ^ 13 else x)
  | none => match intWidth code with
    | some w => valOf (signed w (x % 2 ^ w)) 0
    | none => if code = 0x0F then valOf (if x % 2 = 1 then 1 else -1) 0 else .zero

/-- Trit `i` of a TERN unit; a byte of 243–255 in bytes 0–50 reads as five zero trits; element 255 is byte 51 mod 3 (R123, R124). -/
def ternTrit (bs : List Byte) (i : Nat) : Int :=
  let b := (bs[i / 5]?.getD 0).toNat
  if i / 5 < 51 && 243 ≤ b then 0 else ((b / 3 ^ (i % 5) % 3 : Nat) : Int) - 1

/-- Whether a TERN unit holds an invalid byte among its bytes 0–50 (R124). -/
def ternInvalid (bs : List Byte) : Bool := (bs.take 51).any fun b => 243 ≤ b.toNat

/-- The implicit factor of scaled INT8 and INT4, as an exponent of two (R125). -/
def implicitExp (code : Nat) : Int := if code = 0x0B then -6 else if code = 0x0C then -2 else 0

/-- Scale an element: 2^(E − 127) with the implicit factor; E = 0xFF is NaN (R125). -/
def applyScale (code e : Nat) (v : Val) : Val :=
  if e = 255 then .nan else
    match v with
    | .fin s m x => .fin s m (x + (e : Int) - 127 + implicitExp code)
    | v => v

/-- Element `i` of a unit of 256 (R122, R123, R126). -/
def unitElem (code : Nat) (scaled ftz : Bool) (bs : List Byte) (i : Nat) : Val :=
  if code = 0x0E then valOf (ternTrit bs i) 0
  else
    let w := elemBits code
    let v := elemValue code ftz (natBits (leNat ((bs.drop (w * i / 8)).take 5)) (w * i % 8) w)
    if scaled then applyScale code ((bs[unitBytes code + i / 32]?.getD 0).toNat) v else v

/-- Pack element codes of a width into bytes, little-endian bit string (R122). -/
def packBits (w : Nat) (xs : List Nat) : List Byte :=
  leBytes ((w * xs.length + 7) / 8) (xs.foldr (fun x acc => x % 2 ^ w + acc * 2 ^ w) 0)

/-- Pack trits, five to a byte; the device writes the upper digits of the last byte as 1 (R123). -/
def packTern : Nat → List Int → List Byte
  | 0, _ => []
  | n + 1, ts =>
    let digit := fun i => match ts[i]? with
      | some t => (t + 1).toNat
      | none => 1
    BitVec.ofNat 8 (digit 0 + 3 * digit 1 + 9 * digit 2 + 27 * digit 3 + 81 * digit 4) :: packTern n (ts.drop 5)

/-! ### Pairs and rates (R96, R130, R132) -/

/-- The rate row of a format: cycles per row relative to the fastest (R96): 0 INT2/TERN/BIN, 1 FP4/INT4, 2 FP8/FP6/INT8,
3 BF16/FP16, 4 FP19/INT16, 5 FP32. -/
def rateRow (code : Nat) : Nat :=
  match code with
  | 1 => 5
  | 2 => 4
  | 0x0A => 4
  | 3 => 3
  | 4 => 3
  | 9 => 1
  | 0x0C => 1
  | 0x0D => 0
  | 0x0E => 0
  | 0x0F => 0
  | _ => 2

/-- Integer formats with a place of their own in the arrays. -/
def isPlainInt (code : Nat) : Bool := 0x0A ≤ code && code ≤ 0x0F
/-- The bit-serial weight formats. -/
def isSerial (code : Nat) : Bool := 0x10 ≤ code && code ≤ 0x13

/-- The accepted operand pairs (R130). -/
def pairOk (w x : Nat) : Bool :=
  (isFloat w && isFloat x) || (isPlainInt w && isPlainInt x) ||
    ([0x0B, 0x0C, 0x0D, 0x0E, 0x0F].contains w && [1, 2, 3, 4].contains x) ||
    (isSerial w && [0x0A, 0x0B, 0x0C, 0x0D].contains x)

/-- Whether the accumulator of a pair is INT32 (R130, R149). -/
def intAcc (func w x : Nat) (sclW sclX : Bool) : Bool :=
  func = 5 || (!isFloat w && !isFloat x && !sclW && !sclX)

/-- Weights per cell: two for FP4 and INT4 pairs on their own row, four for INT2, TERN and BIN pairs (R132). -/
def weightsPerCell (w x : Nat) : Nat :=
  match max (rateRow w) (rateRow x) with
  | 0 => 4
  | 1 => 2
  | _ => 1

/-! ### Cell functions (R149–R151) -/

/-- The predicate of CMPCOUNT: x against w; with a NaN every predicate is false but NE (R129, R151). -/
def predHolds (pred : Nat) (x w : Val) : Bool :=
  if x = .nan || w = .nan then pred = 1 else
    let c := x.cmp w
    match pred with
    | 0 => c = 0
    | 1 => c ≠ 0
    | 2 => c < 0
    | 3 => c ≤ 0
    | 4 => 0 < c
    | _ => 0 ≤ c

/-- The term of one weight (R149): 0 MAC, 1 L1, 2 L2, 3 MAXPLUS, 4 MINPLUS, 5 CMPCOUNT. -/
def cellTerm (func : Nat) (a : Arith) (int : Bool) (x w : Val) : Val :=
  match func with
  | 0 => x.mul w
  | 1 => (x.add w.neg).abs
  | 2 => (x.add w.neg).mul (x.add w.neg)
  | 5 => if predHolds a.pred x w then .fin false 1 0 else .zero
  | _ => if int then x.add w else rne32 a.ieee (x.add w)

/-- Combine the terms of one cell exactly (R132, R149). -/
def combineTerms (func : Nat) (ts : List Val) : Option Val :=
  match ts with
  | [] => none
  | t :: rest =>
    some (rest.foldl (fun s u => match func with
      | 3 => s.max u
      | 4 => s.min u
      | _ => s.add u) t)

/-- One cell step, one tree node or one bank addition (R132, R135, R149): rounded to FP32 for a float accumulator, exact for an
integer one. -/
def combine (func : Nat) (a : Arith) (int : Bool) (s t : Val) : Val :=
  match func with
  | 3 => s.max t
  | 4 => s.min t
  | _ => if int then s.add t else rne32 a.ieee (s.add t)

/-- Saturate an integer sum at INT32 (R136). -/
def clamp32 (v : Val) : Val :=
  valOf (max (-2147483648) (min 2147483647 v.toInt)) 0

/-- The entry value at the north edge (R149, R150). -/
def entryValue (func : Nat) (int : Bool) : Val :=
  match func with
  | 3 => if int then valOf (-2147483648) 0 else .inf true
  | 4 => if int then valOf 2147483647 0 else .inf false
  | _ => .zero

/-- A K-block down a column: the entry value, then the cell steps in row order; masked cells pass the sum on (R133). -/
def columnSum (func : Nat) (a : Arith) (int : Bool) (cells : List (Option Val)) : Val :=
  cells.foldl (fun s t => match t with
    | some v => combine func a int s v
    | none => s) (entryValue func int)

/-- One level of the balanced tree: pairs in index order; a masked child passes the other (R135). -/
def treeLevel (func : Nat) (a : Arith) (int : Bool) : List (Option Val) → List (Option Val)
  | x :: y :: rest =>
    (match x, y with
      | some u, some v => some (combine func a int u v)
      | some u, none => some u
      | none, v => v) :: treeLevel func a int rest
  | [x] => [x]
  | [] => []

/-- A K-block on the thin path: four levels over 16 terms, leaving the tree rounded once (R135). -/
def treeSum (func : Nat) (a : Arith) (int : Bool) (cells : List (Option Val)) : Val :=
  match (treeLevel func a int (treeLevel func a int (treeLevel func a int (treeLevel func a int cells))))[0]? with
  | some (some v) => if int then v else rne32 a.ieee v
  | _ => entryValue func int

/-- Add a K-block sum to a bank entry: the first is taken unchanged; integers saturate (R134, R136, R149). -/
def bankAdd (func : Nat) (a : Arith) (int : Bool) (entry : Option Val) (s : Val) : Val :=
  let v := match entry with
    | some e => combine func a int e s
    | none => s
  if int then clamp32 v else v

/-! ### The output stage (R146–R148, R152) -/

/-- An FP32 bit pattern as a value. -/
def fp32 (x : BitVec 32) : Val := fmtFp32.decode false x.toNat

/-- The value the output stage converts: t = RNE(α·a), or fma(α, a, RNE(β·c)) with one rounding (R146). -/
def outputStage (ieee : Bool) (alpha beta : Val) (entry : Val) (c : Option Val) : Val :=
  let a := rne32 ieee entry
  match c with
  | none => rne32 ieee (alpha.mul a)
  | some c => rne32 ieee ((alpha.mul a).add (rne32 ieee (beta.mul (rne32 ieee c))))

/-- Whether a value's sign bit is set. -/
def Val.signBit : Val → Bool
  | .fin s _ _ => s
  | .inf s => s
  | .nan => false

/-- Convert one value to an unscaled storage format: the element code, TERN trits being offset by one (R147). -/
def convertElem (code : Nat) (a : Arith) (draw : Option Nat) (v : Val) : Nat :=
  match floatFmt code with
  | some f => f.convert a (ftzActs code) draw v * (if code = 2 then 2 ^ 13 else 1)
  | none =>
    if code = 0x0E then (roundInt draw v (-1) 1 + 1).toNat
    else if code = 0x0F then (if v = .nan || !v.signBit then 1 else 0)
    else match intWidth code with
      | some w =>
        let i := roundInt draw v (-(2 ^ (w - 1) : Nat)) ((2 ^ (w - 1) : Nat) - 1)
        (i % (2 ^ w : Nat)).toNat
      | none => 0

/-- The exponent e of the scale choice of a format (R147). -/
def scaleBias (code : Nat) : Int :=
  match code with
  | 5 => 8
  | 6 => 15
  | 7 => 4
  | 8 => 2
  | 9 => 2
  | _ => 0

/-- floor(log2 |v|) of a nonzero finite value. -/
def log2Floor (m : Nat) (e : Int) : Int := (Nat.log2 m : Int) + e

/-- The largest exponent floor(log2 |v|) of the nonzero values of a group. -/
def groupLog (vs : List Val) : Option Int :=
  vs.foldl (fun b v => match v with
    | .fin _ m e => if m = 0 then b else
      match b with
      | some x => some (max x (log2Floor m e))
      | none => some (log2Floor m e)
    | _ => b) none

/-- Convert a group of up to 32 values to a scaled format: the scale byte and the element codes (R147). -/
def convertGroup (code : Nat) (a : Arith) (draws : List (Option Nat)) (vs : List Val) : Nat × List Nat :=
  if vs.any fun v => match v with | .fin _ _ _ => false | _ => true then (255, vs.map fun _ => 0)
  else match groupLog vs with
    | none => (0, vs.map fun _ => 0)
    | some g =>
      let x := max (-127) (min 127 (g - scaleBias code))
      let sat : Arith := { a with ieee := false }
      ((x + 127).toNat, (vs.zip draws).map fun e =>
        match e.1 with
        | .fin s m ex => convertElem code sat e.2 (.fin s m (ex - x - implicitExp code))
        | _ => 0)

/-- Pack element codes of one unscaled format, TERN included. -/
def packElems (code : Nat) (xs : List Nat) : List Byte :=
  if code = 0x0E then packTern ((xs.length + 4) / 5) (xs.map fun x => (x : Int) - 1) else packBits (elemBits code) xs

/-- The code of +0 in a format, written beyond a logical edge (R127); a zero trit for TERN. -/
def zeroCode (code : Nat) : Nat := if code = 0x0E then 1 else 0

/-- A unit of 256 elements in a storage format from its in-edge values, the rest being +0 (R126, R127, R147). -/
def packUnit (code : Nat) (scaled : Bool) (a : Arith) (draw : Nat → Option Nat) (vs : List Val) : List Byte :=
  if scaled then
    let groups := (chunksOf 8 32 ((vs.zip (List.range vs.length)))).map fun g =>
      convertGroup code a (g.map fun e => draw e.2) (g.map Prod.fst)
    let codes := (groups.flatMap fun g => g.2)
    packBits (elemBits code) (codes ++ List.replicate (256 - codes.length) 0) ++
      (groups.map fun g => BitVec.ofNat 8 g.1) ++ List.replicate (8 - groups.length) 0
  else
    let codes := (vs.zip (List.range vs.length)).map fun e => convertElem code a (draw e.2) e.1
    packElems code (codes ++ List.replicate (256 - codes.length) (zeroCode code))

/-! ### Conversions between formats (R148) -/

/-- The values of `n` unscaled elements stored from byte 0, in units of 256 (R118). -/
def unpackElems (code : Nat) (ftz : Bool) (bs : List Byte) (n : Nat) : List Val :=
  (List.range n).map fun i => unitElem code false ftz ((bs.drop (i / 256 * unitBytes code)).take (unitBytes code)) (i % 256)

end Sys2Proof.Machine
end

