-- ==== Sys2Proof/Config.lean ====
section
/-! DEFINITION. What the spec leaves to the implementation or leaves open: constants with no body, so that no proof can see a value
of them. Each is named in the assumption log. -/

namespace Sys2Proof.Config

/-- The gain of the GCNT servo in ppm per ps (R333 names it and gives no value).
(DESIGN CHOICE, log 13) -/
opaque servoGain : Int

/-- What a read of a scratchpad byte beyond word 3,071 gives (R186 has no such byte and states no result).
(DESIGN CHOICE, log 33) -/
opaque absentByte : Nat → Byte

/-- What a scratchpad byte holds after the contents were lost in Dormant (R620): the number of the loss, and the byte's place.
(DESIGN CHOICE, log 3, 34) -/
opaque lostByte : Nat → Nat → Byte

/-- The special functions (R104 bounds each result to 2 ulp of the exact value and fixes no bits): function number and FP32
operand to the FP32 result, the same on every core.
(DESIGN CHOICE, log 55) -/
opaque sfu : Nat → BitVec 32 → BitVec 32

/-- Whether a drain transfer is the drain of a day's gradient (R46 names it and gives no field that marks it): schedule's
partition key, stream number and HBM base.
(DESIGN CHOICE, log 66) -/
opaque gradientDrain : Nat → Nat → Int → Bool

/-- The depth of the own receive deskew and FEC buffers of a port in ps (R381 gives no value).
(DESIGN CHOICE, log 107) -/
opaque deskew : Nat → BitVec 32

/-- Random values (R598): the number of the draw, and how many bytes.
(DESIGN CHOICE, log 3) -/
opaque random : Nat → Nat → List Byte

/-- The ML-KEM part and the ECDH key that an end contributes to a key exchange (R605): the number of its draw and what it has received.
(DESIGN CHOICE, log 3) -/
opaque kxPart : Nat → List Byte → List Byte × List Byte

/-- The confirmation that the end of a role sends in KX_DONE (R605): transcript and role (0x49 for I, 0x52 for R).
(DESIGN CHOICE, log 115) -/
opaque kxConfirm : List Byte → Nat → List Byte

/-- SHA-384.
(DESIGN CHOICE, log 175) -/
opaque sha384 : List Byte → BitVec 384

/-- The RSA and SLH-DSA signatures of this module over bytes (R603): the number of the draw of the salt, and the bytes.
(DESIGN CHOICE, log 3, 175) -/
opaque signatures : Nat → List Byte → List Byte

/-- The installation encapsulation key that a module's PUF and UID give (R598, R609).
(DESIGN CHOICE, log 175) -/
opaque encapsulationKey : BitVec 64 → List Byte

/-- The installation secret that a token's ciphertext carries (R610).
(DESIGN CHOICE, log 175) -/
opaque decapsulate : BitVec 64 → List Byte → BitVec 256

/-- The checks of a token that a plain register write of SEC_CMD names (R610, R612): the owner and the token's bytes to the outcome of the RSA
signature, of the SLH-DSA signature, and of the match with the owner key hashes.
(DESIGN CHOICE, log 180) -/
opaque tokenChecks : BitVec 384 → List Byte → Bool × Bool × Bool

/-- The leaves that a slot manifest maps (R216 gives it no layout): vault block, place in the block, direction (CCW set), forward day, and
the 16 bytes of the leaf record.
(DESIGN CHOICE, log 46) -/
opaque manifestLeaves : List Byte → List (Nat × Nat × Bool × Nat × List Byte)

/-- The projection of an indicator from its samples (R633 gives no formula): median, low and high in days.
(DESIGN CHOICE, log 193) -/
opaque project : Nat → List (Nat × List Nat) → Nat × Nat × Nat

/-- The logits of an output token (what the plan's operations compute is not in the service firmware's sight): item handle, token index,
vocabulary index to an FP32.
(DESIGN CHOICE, log 80) -/
opaque logit : Nat → Nat → Nat → BitVec 32

/-- p_j of R532: exp((z_j − z_max)/TEMPERATURE), which R104 bounds and fixes no bits of: z_j, z_max and TEMPERATURE.
(DESIGN CHOICE, log 80) -/
opaque samplingExp : BitVec 32 → BitVec 32 → BitVec 32 → BitVec 32

/-- LOSS, LOSS_TOKENS and GRAD_NORM of a job step (R540: the plan's operations compute them): job handle and job step.
(DESIGN CHOICE, log 139) -/
opaque jobResult : Nat → Nat → BitVec 32 × BitVec 32 × BitVec 32

/-- The host's admission log (R496; no format is given): partition key and step to the records it lists, by queue pair and index.
(DESIGN CHOICE, log 141) -/
opaque admissionLog : BitVec 12 → Nat → List (Nat × Nat)

end Sys2Proof.Config
end

