-- ==== Sys2Proof/Machine/Regs.lean ====
section
/-! DEFINITION. The registers of the module: every register of the spec by its own name, where it is addressed
(R11, R12 and the address tables of the chapters), and its fields with their bits, access codes and reset values
(the field table of each register rule). Registers are 64 bits wide (R10). -/

namespace Sys2Proof.Machine

/-- Every register of the spec, by its name. -/
inductive Reg where
  | DEV_ID
  | DEV_STATE
  | DEV_COORD
  | SAFE_CTL
  | SAFE_STATUS
  | RECOV_CFG
  | COMMIT_SEL
  | COMMIT_STATUS
  | RECOV_LAST
  | BUDDY_STATUS
  | COMMIT_CNT
  | COMMIT_LOG
  | RECOV_ERR
  | DET_CTL
  | DET_STATUS
  | DET_MAP
  | DET_SEL
  | RNG_SEED
  | DIGEST_WR
  | BOOT_STATUS
  | PLAN_STATUS
  | LOAD_STATUS
  | START_CFG
  | BOARD_STATUS
  | LINK_CTL
  | LINK_CFG
  | LINK_STATUS
  | LINK_PEER
  | LINK_LAT
  | LINK_FLITS
  | LINK_RETRY
  | LINK_FEC
  | LINK_ERR
  | LINK_LOST
  | LINK_LOSTN
  | ROUTE_EPOCH
  | ROUTE_FLIP_AT
  | ROUTE_CFG
  | ROUTE_DRAIN
  | ROUTE_DROP
  | ROUTE_ERR
  | ROUTE_CONG
  | ROUTE_MASK
  | SLICE_SEL
  | SLICE_INFO
  | TRANSIT_PORT
  | ROUTE_OLD
  | ROUTE_TBL0
  | ROUTE_TBL1
  | RING_CTL
  | RING_PLAN
  | RING_DAYS
  | RING_SHARE
  | RING_SHADOW
  | RING_LAUNCH
  | RING_YEARS
  | RING_ANGLE_CW
  | RING_ANGLE_CCW
  | RING_STATUS
  | RING_ERR
  | RING_HOP
  | CODEC_CFG
  | CODEC_EXP
  | CODEC_CMP
  | CODEC_STALL
  | CODEC_ERR
  | CODEC_ERR_LOC
  | ETH_CTL
  | ETH_STATUS
  | ETH_CC
  | SVC_CFG
  | SVC_ARG
  | SVC_CMD
  | SVC_CMD_STATUS
  | SVC_GEN
  | SVC_CNT
  | SVC_TOK
  | SVC_ERR
  | CHAIN_ADDR
  | CHAIN_CFG
  | CHAIN_STATUS
  | CHAIN_CNT
  | CHAIN_ERR
  | EVT_STATUS
  | HBM_ERR
  | HBM_BAD_LOC
  | HBM_SCRUB
  | HBM_FREEZE
  | HBM_IDLE
  | HBM_ECC
  | VAULT_CTL
  | VAULT_SLOT
  | VAULT_ERR
  | VAULT_WEAR
  | SPM_SEL
  | SPM_PERR
  | SPM_SLOT
  | SPM_REGION
  | GCNT
  | GCNT_STATUS
  | SNAP_AT
  | SNAP_SEQ
  | SNAP_STATUS
  | SNAP_CTL
  | SNAP_GCNT
  | SYNC_CFG
  | SYNC_ERR
  | SYNC_ERR_LOC
  | SYNC_SIG
  | SYNC_WAIT
  | PWR_CTL
  | PWR_STATUS
  | LTOL
  | PWR_CAP
  | MAINT_CTL
  | PWR_METER
  | KETTLE_CTL
  | KETTLE_TEST
  | KETTLE_RUN
  | KETTLE_AT
  | KETTLE_STATUS
  | THERM_CFG
  | THERM_STATUS
  | THERM_CNT
  | HLTH_CFG
  | HLTH_MODULE
  | HLTH_SUB
  | SEC_STATUS
  | SEC_IMG
  | SEC_CFG
  | SEC_ARG
  | SEC_CMD
  | SEC_CMD_STATUS
  | SEC_NONCE
  | SEC_ERR
  | SEC_UID
  | CORE_ID
  | CORE_ARRAYW
  | CORE_ARRAYMODE
  | CORE_STATUS
  | CORE_BUBBLE_A
  | CORE_BUBBLE_B
  | CORE_THIN
  | CORE_DUMMY
  | CORE_TILES
  | CORE_HOLD
  | STREAM_STATUS
  | STREAM_WORDS
  | STREAM_STALL
  | STREAM_ERR
  | STREAM_ERR_LOC
  | SEQ_CFG
  | SEQ_STATUS
  | SLIP_COUNT
  | SLIP_TIME
  | SLIP_LAST
  | SEQ_ISSUE
  | SEQ_CUES
  | SEQ_ERR
  | REG_CLASS
  | REG_LEVEL
  | CTX_STATE
  deriving DecidableEq, Repr

/-- Access codes of R16. -/
inductive Access where
  | ro | rw | w1c | wo
  deriving DecidableEq, Repr

/-- One field of a register: its name in the spec, its bits `[hi:lo]`, its access code and its reset value. -/
structure FieldInfo where
  name : String
  hi : Nat
  lo : Nat
  access : Access
  reset : Nat
  deriving DecidableEq, Repr

/-- How a register is addressed: `one` at one address; `array` at `addr + i * stride`; `lost` the 64 LINK_LOSTN words of
each port (R397); `perPath` one copy for the Cymund path and one for the management path; `bySel` one copy per slice-map
index, addressed through the selector named; `selCore`, `selCore16`, `selCore32` per core, through SPM_SEL (R233-R236);
`core` per core at an offset of its window (R12); `cluster4`, `cluster` in the window of a cluster's first core (R269, R270);
`ctx` per thread context (R313). -/
inductive Place where
  | one | array | lost | perPath | bySel (sel : Reg) | selCore | selCore16 | selCore32 | core | cluster4 | cluster | ctx
  deriving DecidableEq, Repr

/-- Address, stride and number of copies of a register, and its fields (reserved bits carry no field). -/
structure RegInfo where
  addr : Nat
  stride : Nat
  count : Nat
  place : Place
  fields : List FieldInfo
  deriving DecidableEq, Repr

/-- DEV_ID: R17. -/
def info_DEV_ID : RegInfo :=
  ⟨0x0, 0x0, 1, .one,
    [⟨"VENDOR", 63, 48, .ro, 0x7d4e⟩,
     ⟨"PART", 47, 32, .ro, 0x7000⟩,
     ⟨"STEPPING", 15, 8, .ro, 0xb1⟩,
     ⟨"PKG_VARIANT", 7, 0, .ro, 0x1⟩]⟩

/-- DEV_STATE: R18. -/
def info_DEV_STATE : RegInfo :=
  ⟨0x8, 0x0, 1, .one,
    [⟨"ENTRY_GCNT", 63, 32, .ro, 0x0⟩,
     ⟨"STATE", 7, 4, .ro, 0x1⟩,
     ⟨"PREV_STATE", 3, 0, .ro, 0x0⟩]⟩

/-- DEV_COORD: R433. -/
def info_DEV_COORD : RegInfo :=
  ⟨0x200, 0x0, 1, .one,
    [⟨"SX", 63, 59, .ro, 0x0⟩,
     ⟨"SY", 58, 54, .ro, 0x0⟩,
     ⟨"SZ", 53, 49, .ro, 0x0⟩,
     ⟨"BLOCK", 48, 46, .ro, 0x0⟩,
     ⟨"VALID", 15, 15, .ro, 0x0⟩,
     ⟨"SPARE", 14, 14, .ro, 0x0⟩,
     ⟨"X", 11, 8, .ro, 0x0⟩,
     ⟨"Y", 7, 4, .ro, 0x0⟩,
     ⟨"Z", 3, 0, .ro, 0x0⟩]⟩

/-- SAFE_CTL: R480. -/
def info_SAFE_CTL : RegInfo :=
  ⟨0x400, 0x0, 1, .one,
    [⟨"TO_MAINT", 3, 3, .wo, 0x0⟩,
     ⟨"RESUME", 2, 2, .wo, 0x0⟩,
     ⟨"REQ_SLICE", 1, 1, .wo, 0x0⟩,
     ⟨"REQ_DEVICE", 0, 0, .wo, 0x0⟩]⟩

/-- SAFE_STATUS: R481. -/
def info_SAFE_STATUS : RegInfo :=
  ⟨0x408, 0x0, 1, .one,
    [⟨"ENTRY_GCNT", 63, 32, .ro, 0x0⟩,
     ⟨"CAUSE", 15, 8, .ro, 0x0⟩,
     ⟨"RELINQUISHED", 1, 1, .ro, 0x0⟩,
     ⟨"FAULT_N", 0, 0, .ro, 0x0⟩]⟩

/-- RECOV_CFG: R482. -/
def info_RECOV_CFG : RegInfo :=
  ⟨0x410, 0x0, 1, .one,
    [⟨"BOUND", 63, 48, .rw, 0x1f40⟩,
     ⟨"SILENT_TO", 47, 40, .rw, 0x14⟩,
     ⟨"REPLAY_MAX", 39, 36, .rw, 0x3⟩]⟩

/-- COMMIT_SEL: R483. -/
def info_COMMIT_SEL : RegInfo :=
  ⟨0x418, 0x0, 1, .perPath,
    [⟨"INDEX", 7, 0, .rw, 0x0⟩]⟩

/-- COMMIT_STATUS: R484. -/
def info_COMMIT_STATUS : RegInfo :=
  ⟨0x420, 0x0, 1, (.bySel .COMMIT_SEL),
    [⟨"COMMITTED", 63, 32, .ro, 0xffffffff⟩,
     ⟨"RSTATE", 28, 26, .ro, 0x0⟩,
     ⟨"UNCOMMITTED", 25, 24, .ro, 0x0⟩,
     ⟨"HOME", 23, 23, .ro, 0x0⟩,
     ⟨"VALID", 22, 22, .ro, 0x0⟩,
     ⟨"PKEY", 11, 0, .ro, 0x0⟩]⟩

/-- RECOV_LAST: R485. -/
def info_RECOV_LAST : RegInfo :=
  ⟨0x428, 0x0, 1, (.bySel .COMMIT_SEL),
    [⟨"FENCE_GCNT", 63, 32, .ro, 0x0⟩,
     ⟨"DURATION", 31, 16, .ro, 0x0⟩,
     ⟨"REPLAYS", 15, 8, .ro, 0x0⟩,
     ⟨"CLASS", 7, 0, .ro, 0x0⟩]⟩

/-- BUDDY_STATUS: R486. -/
def info_BUDDY_STATUS : RegInfo :=
  ⟨0x430, 0x0, 1, .one,
    [⟨"BUDDY", 63, 52, .ro, 0x0⟩,
     ⟨"WARD", 51, 40, .ro, 0x0⟩,
     ⟨"BUDDY_V", 39, 39, .ro, 0x0⟩,
     ⟨"WARD_V", 38, 38, .ro, 0x0⟩,
     ⟨"MIRROR_OK", 37, 37, .ro, 0x0⟩,
     ⟨"REBUILDING", 36, 36, .ro, 0x0⟩,
     ⟨"REBUILT", 31, 0, .ro, 0x0⟩]⟩

/-- COMMIT_CNT: R487. -/
def info_COMMIT_CNT : RegInfo :=
  ⟨0x438, 0x0, 1, .one,
    [⟨"COMMITS", 63, 40, .ro, 0x0⟩,
     ⟨"RECOVERIES", 39, 32, .ro, 0x0⟩,
     ⟨"HOLD_CYCLES", 31, 0, .ro, 0x0⟩]⟩

/-- COMMIT_LOG: R488. -/
def info_COMMIT_LOG : RegInfo :=
  ⟨0x440, 0x0, 1, .one,
    [⟨"UNDO_PEAK", 63, 32, .ro, 0x0⟩,
     ⟨"STAGED_PEAK", 31, 0, .ro, 0x0⟩]⟩

/-- RECOV_ERR: R489. -/
def info_RECOV_ERR : RegInfo :=
  ⟨0x448, 0x0, 1, .one,
    [⟨"FAULTS", 63, 32, .ro, 0x0⟩,
     ⟨"STATE_LOST", 7, 7, .w1c, 0x0⟩,
     ⟨"BOUND", 6, 6, .w1c, 0x0⟩,
     ⟨"LOG_FULL", 5, 5, .w1c, 0x0⟩,
     ⟨"REPLAY_MAX", 4, 4, .w1c, 0x0⟩,
     ⟨"SILENT", 3, 3, .w1c, 0x0⟩,
     ⟨"MODULE", 2, 2, .w1c, 0x0⟩,
     ⟨"LINK", 1, 1, .w1c, 0x0⟩,
     ⟨"STEP", 0, 0, .w1c, 0x0⟩]⟩

/-- DET_CTL: R509. -/
def info_DET_CTL : RegInfo :=
  ⟨0x600, 0x0, 1, .one,
    [⟨"LOG_REPLAY", 1, 1, .rw, 0x0⟩,
     ⟨"DET_MODE", 0, 0, .rw, 0x0⟩]⟩

/-- DET_STATUS: R510. -/
def info_DET_STATUS : RegInfo :=
  ⟨0x608, 0x0, 1, .one,
    [⟨"EVENTS", 63, 32, .ro, 0x0⟩,
     ⟨"FAILED", 6, 6, .w1c, 0x0⟩,
     ⟨"TIMEOUT", 5, 5, .w1c, 0x0⟩,
     ⟨"MAP_SPARE", 4, 4, .w1c, 0x0⟩,
     ⟨"MAP_NEW", 3, 3, .w1c, 0x0⟩,
     ⟨"KETTLE", 2, 2, .w1c, 0x0⟩,
     ⟨"THROTTLE", 1, 1, .w1c, 0x0⟩,
     ⟨"POINT", 0, 0, .w1c, 0x0⟩]⟩

/-- DET_MAP: R511. -/
def info_DET_MAP : RegInfo :=
  ⟨0x610, 0x0, 1, .one,
    [⟨"NARROWED", 47, 32, .ro, 0x0⟩,
     ⟨"MAP_CRC", 31, 0, .ro, 0x0⟩]⟩

/-- DET_SEL: R512. -/
def info_DET_SEL : RegInfo :=
  ⟨0x618, 0x0, 1, .perPath,
    [⟨"INDEX", 7, 0, .rw, 0x0⟩]⟩

/-- RNG_SEED: R513. -/
def info_RNG_SEED : RegInfo :=
  ⟨0x620, 0x0, 1, (.bySel .DET_SEL),
    [⟨"SEED", 63, 0, .rw, 0x0⟩]⟩

/-- DIGEST_WR: R514. -/
def info_DIGEST_WR : RegInfo :=
  ⟨0x628, 0x0, 1, .one,
    [⟨"RECORDS", 63, 0, .ro, 0x0⟩]⟩

/-- BOOT_STATUS: R591. -/
def info_BOOT_STATUS : RegInfo :=
  ⟨0x800, 0x0, 1, .one,
    [⟨"ELAPSED_MS", 63, 32, .ro, 0x0⟩,
     ⟨"STEP", 31, 28, .ro, 0x1⟩,
     ⟨"SLOT", 7, 7, .ro, 0x0⟩,
     ⟨"FALLBACK", 6, 6, .ro, 0x0⟩,
     ⟨"SLOT1_FAIL", 5, 5, .ro, 0x0⟩,
     ⟨"SLOT0_FAIL", 4, 4, .ro, 0x0⟩]⟩

/-- PLAN_STATUS: R592. -/
def info_PLAN_STATUS : RegInfo :=
  ⟨0x808, 0x0, 1, .one,
    [⟨"VACANT", 63, 54, .ro, 0x0⟩,
     ⟨"PARKED", 53, 44, .ro, 0x0⟩,
     ⟨"VARIANT", 43, 42, .ro, 0x0⟩,
     ⟨"VARIANT_V", 41, 41, .ro, 0x0⟩,
     ⟨"REASON", 40, 37, .ro, 0x0⟩,
     ⟨"MISWIRED", 25, 16, .ro, 0x0⟩,
     ⟨"FILLED", 9, 0, .ro, 0x0⟩]⟩

/-- LOAD_STATUS: R592. -/
def info_LOAD_STATUS : RegInfo :=
  ⟨0x810, 0x0, 1, .one,
    [⟨"LOADED_MIB", 63, 32, .ro, 0x0⟩,
     ⟨"REBUILDS", 31, 16, .ro, 0x0⟩,
     ⟨"SECTION", 15, 8, .ro, 0xff⟩,
     ⟨"CTX_LOADED", 6, 3, .ro, 0x0⟩,
     ⟨"FAILED", 2, 2, .ro, 0x0⟩,
     ⟨"READER", 1, 1, .ro, 0x0⟩,
     ⟨"DONE", 0, 0, .ro, 0x0⟩]⟩

/-- START_CFG: R593. -/
def info_START_CFG : RegInfo :=
  ⟨0x818, 0x0, 1, .one,
    [⟨"SPARE_WAIT", 15, 0, .ro, 0x5dc⟩]⟩

/-- BOARD_STATUS: R654. -/
def info_BOARD_STATUS : RegInfo :=
  ⟨0x900, 0x0, 1, .one,
    [⟨"VIN_MV", 63, 32, .ro, 0x0⟩,
     ⟨"CAUSE", 11, 8, .ro, 0x0⟩,
     ⟨"VIN_LOW", 7, 7, .ro, 0x0⟩,
     ⟨"REFCLK_LOST", 6, 6, .ro, 0x0⟩,
     ⟨"SEED_N", 3, 3, .ro, 0⟩,
     ⟨"FLASH_DUAL", 2, 2, .ro, 0⟩,
     ⟨"I3C_SA1", 1, 1, .ro, 0⟩,
     ⟨"I3C_SA0", 0, 0, .ro, 0⟩]⟩

/-- LINK_CTL: R390. -/
def info_LINK_CTL : RegInfo :=
  ⟨0x100000, 0x1000, 6, .array,
    [⟨"KILL", 2, 2, .wo, 0x0⟩,
     ⟨"RETRAIN", 1, 1, .wo, 0x0⟩,
     ⟨"ENABLE", 0, 0, .rw, 0x1⟩]⟩

/-- LINK_CFG: R391. -/
def info_LINK_CFG : RegInfo :=
  ⟨0x100008, 0x1000, 6, .array,
    [⟨"SILENCE_TO", 63, 54, .rw, 0x64⟩,
     ⟨"REPLAY_MAX", 53, 48, .rw, 0x10⟩,
     ⟨"REPLAY_TO", 47, 32, .rw, 0xfa0⟩,
     ⟨"DEG_RATE", 31, 24, .rw, 0x10⟩,
     ⟨"AUTO", 2, 2, .rw, 0x1⟩,
     ⟨"DEG_DEAD", 1, 1, .rw, 0x0⟩]⟩

/-- LINK_STATUS: R392. -/
def info_LINK_STATUS : RegInfo :=
  ⟨0x100010, 0x1000, 6, .array,
    [⟨"ENTRY_GCNT", 63, 32, .ro, 0x0⟩,
     ⟨"STATE", 7, 4, .ro, 0x0⟩,
     ⟨"ADMITTED", 3, 3, .ro, 0x0⟩,
     ⟨"FENCE_RX", 2, 2, .ro, 0x0⟩,
     ⟨"FENCE_TX", 1, 1, .ro, 0x0⟩,
     ⟨"DEGRADED", 0, 0, .ro, 0x0⟩]⟩

/-- LINK_PEER: R393. -/
def info_LINK_PEER : RegInfo :=
  ⟨0x100018, 0x1000, 6, .array,
    [⟨"VALID", 63, 63, .ro, 0x0⟩,
     ⟨"PORT", 58, 56, .ro, 0x0⟩,
     ⟨"COORD", 51, 40, .ro, 0x0⟩,
     ⟨"COORD_V", 39, 39, .ro, 0x0⟩,
     ⟨"SEED", 38, 38, .ro, 0x0⟩,
     ⟨"UID_LO", 31, 0, .ro, 0x0⟩]⟩

/-- LINK_LAT: R394. -/
def info_LINK_LAT : RegInfo :=
  ⟨0x100020, 0x1000, 6, .array,
    [⟨"ASYM", 63, 32, .ro, 0x0⟩,
     ⟨"LAT", 31, 0, .ro, 0x0⟩]⟩

/-- LINK_FLITS: R395. -/
def info_LINK_FLITS : RegInfo :=
  ⟨0x100028, 0x1000, 6, .array,
    [⟨"TX", 63, 32, .ro, 0x0⟩,
     ⟨"RX", 31, 0, .ro, 0x0⟩]⟩

/-- LINK_RETRY: R395. -/
def info_LINK_RETRY : RegInfo :=
  ⟨0x100030, 0x1000, 6, .array,
    [⟨"EPISODES", 63, 32, .ro, 0x0⟩,
     ⟨"FLITS", 31, 0, .ro, 0x0⟩]⟩

/-- LINK_FEC: R395. -/
def info_LINK_FEC : RegInfo :=
  ⟨0x100038, 0x1000, 6, .array,
    [⟨"CORRECTED", 63, 32, .ro, 0x0⟩,
     ⟨"UNCORRECTABLE", 31, 0, .ro, 0x0⟩]⟩

/-- LINK_ERR: R396. -/
def info_LINK_ERR : RegInfo :=
  ⟨0x100040, 0x1000, 6, .array,
    [⟨"FAULTS", 63, 32, .ro, 0x0⟩,
     ⟨"KILLED", 7, 7, .w1c, 0x0⟩,
     ⟨"PROTOCOL", 6, 6, .w1c, 0x0⟩,
     ⟨"REPLAY_MAX", 5, 5, .w1c, 0x0⟩,
     ⟨"SILENCE", 4, 4, .w1c, 0x0⟩,
     ⟨"LOCK", 3, 3, .w1c, 0x0⟩,
     ⟨"DEGRADED", 2, 2, .w1c, 0x0⟩,
     ⟨"CRC", 1, 1, .w1c, 0x0⟩,
     ⟨"DELIVERY", 0, 0, .w1c, 0x0⟩]⟩

/-- LINK_LOST: R397. -/
def info_LINK_LOST : RegInfo :=
  ⟨0x100048, 0x1000, 6, .array,
    [⟨"DEATH_GCNT", 63, 32, .ro, 0x0⟩,
     ⟨"ENTRIES", 31, 24, .ro, 0x0⟩,
     ⟨"UNATTRIBUTED", 23, 0, .ro, 0x0⟩]⟩

/-- LINK_LOSTN: R397. -/
def info_LINK_LOSTN : RegInfo :=
  ⟨0x100100, 0x8, 384, .lost,
    [⟨"PKEY", 63, 52, .ro, 0x0⟩,
     ⟨"FLITS", 47, 32, .ro, 0x0⟩,
     ⟨"ITEM", 31, 0, .ro, 0x0⟩]⟩

/-- ROUTE_EPOCH: R434. -/
def info_ROUTE_EPOCH : RegInfo :=
  ⟨0x110000, 0x0, 1, .one,
    [⟨"FLIPS", 63, 32, .ro, 0x0⟩,
     ⟨"MAP_SEQ", 31, 16, .ro, 0x0⟩,
     ⟨"HOLD_ACTIVE", 4, 4, .ro, 0x0⟩,
     ⟨"DRAINING", 3, 3, .ro, 0x0⟩,
     ⟨"NEXT_VALID", 2, 2, .ro, 0x0⟩,
     ⟨"COORD", 1, 1, .ro, 0x0⟩,
     ⟨"CUR", 0, 0, .ro, 0x0⟩]⟩

/-- ROUTE_FLIP_AT: R435. -/
def info_ROUTE_FLIP_AT : RegInfo :=
  ⟨0x110008, 0x0, 1, .one,
    [⟨"GCNT", 63, 0, .ro, 0x0⟩]⟩

/-- ROUTE_CFG: R436. -/
def info_ROUTE_CFG : RegInfo :=
  ⟨0x110010, 0x0, 1, .one,
    [⟨"CE_TH", 63, 56, .rw, 0x40⟩,
     ⟨"CNP_GAP", 55, 48, .rw, 0x4⟩,
     ⟨"RECOVER_T", 47, 40, .rw, 0xa⟩,
     ⟨"ADD", 39, 32, .rw, 0x4⟩,
     ⟨"RMIN", 31, 24, .rw, 0x1⟩,
     ⟨"DRAIN_TO", 23, 8, .rw, 0x1388⟩,
     ⟨"TRANSIT_MAX", 7, 0, .rw, 0x20⟩]⟩

/-- ROUTE_DRAIN: R437. -/
def info_ROUTE_DRAIN : RegInfo :=
  ⟨0x110018, 0x0, 1, .one,
    [⟨"CHECK_GCNT", 63, 32, .ro, 0x0⟩,
     ⟨"HELD", 31, 0, .ro, 0x0⟩]⟩

/-- ROUTE_DROP: R438. -/
def info_ROUTE_DROP : RegInfo :=
  ⟨0x110020, 0x0, 1, .one,
    [⟨"UNREACH", 63, 48, .ro, 0x0⟩,
     ⟨"PKEY", 47, 32, .ro, 0x0⟩,
     ⟨"TRANSIT", 31, 16, .ro, 0x0⟩,
     ⟨"EPOCH", 15, 0, .ro, 0x0⟩]⟩

/-- ROUTE_ERR: R439. -/
def info_ROUTE_ERR : RegInfo :=
  ⟨0x110028, 0x0, 1, .one,
    [⟨"FAULTS", 63, 32, .ro, 0x0⟩,
     ⟨"ALLOC", 5, 5, .w1c, 0x0⟩,
     ⟨"DRAIN_TO", 4, 4, .w1c, 0x0⟩,
     ⟨"EPOCH", 3, 3, .w1c, 0x0⟩,
     ⟨"TRANSIT", 2, 2, .w1c, 0x0⟩,
     ⟨"PKEY", 1, 1, .w1c, 0x0⟩,
     ⟨"UNREACH", 0, 0, .w1c, 0x0⟩]⟩

/-- ROUTE_CONG: R440. -/
def info_ROUTE_CONG : RegInfo :=
  ⟨0x110030, 0x0, 1, .one,
    [⟨"MARKED", 63, 32, .ro, 0x0⟩,
     ⟨"CNP_TX", 31, 16, .ro, 0x0⟩,
     ⟨"CNP_RX", 15, 0, .ro, 0x0⟩]⟩

/-- ROUTE_MASK: R443. -/
def info_ROUTE_MASK : RegInfo :=
  ⟨0x110038, 0x0, 1, .one,
    [⟨"MASK1", 13, 8, .ro, 0x0⟩,
     ⟨"MASK0", 5, 0, .ro, 0x0⟩]⟩

/-- SLICE_SEL: R441. -/
def info_SLICE_SEL : RegInfo :=
  ⟨0x110100, 0x0, 1, .perPath,
    [⟨"INDEX", 7, 0, .rw, 0x0⟩]⟩

/-- SLICE_INFO: R441. -/
def info_SLICE_INFO : RegInfo :=
  ⟨0x110108, 0x0, 1, (.bySel .SLICE_SEL),
    [⟨"VALID", 63, 63, .ro, 0x0⟩,
     ⟨"ROLE", 62, 61, .ro, 0x0⟩,
     ⟨"FENCED", 60, 60, .ro, 0x0⟩,
     ⟨"PKEY", 59, 48, .ro, 0x0⟩,
     ⟨"GROUP", 47, 40, .ro, 0x0⟩]⟩

/-- TRANSIT_PORT: R442. -/
def info_TRANSIT_PORT : RegInfo :=
  ⟨0x110200, 0x8, 6, .array,
    [⟨"HOST_USE", 63, 56, .ro, 0x0⟩,
     ⟨"TRANSIT_SUM", 55, 48, .ro, 0x0⟩,
     ⟨"TRANSIT_PKTS", 31, 0, .ro, 0x0⟩]⟩

/-- ROUTE_OLD: R437. -/
def info_ROUTE_OLD : RegInfo :=
  ⟨0x110300, 0x8, 6, .array,
    [⟨"TX", 63, 32, .ro, 0x0⟩,
     ⟨"RX", 31, 0, .ro, 0x0⟩]⟩

/-- ROUTE_TBL0: R443. -/
def info_ROUTE_TBL0 : RegInfo :=
  ⟨0x111000, 0x8, 256, .array,
    [⟨"ENTRIES", 63, 0, .ro, 0⟩]⟩

/-- ROUTE_TBL1: R443. -/
def info_ROUTE_TBL1 : RegInfo :=
  ⟨0x111800, 0x8, 256, .array,
    [⟨"ENTRIES", 63, 0, .ro, 0⟩]⟩

/-- RING_CTL: R60. -/
def info_RING_CTL : RegInfo :=
  ⟨0x180000, 0x100, 4, .array,
    [⟨"PKEY", 63, 52, .rw, 0x0⟩,
     ⟨"POS", 51, 48, .rw, 0x0⟩,
     ⟨"LEN", 47, 43, .rw, 0x0⟩,
     ⟨"SECTION", 42, 38, .rw, 0x0⟩,
     ⟨"BASE_GEN", 31, 16, .rw, 0x0⟩,
     ⟨"MODE", 7, 6, .rw, 0x0⟩,
     ⟨"ARM", 2, 2, .rw, 0x0⟩,
     ⟨"STOP", 1, 1, .rw, 0x0⟩,
     ⟨"LIVE", 0, 0, .ro, 0x0⟩]⟩

/-- RING_PLAN: R61. -/
def info_RING_PLAN : RegInfo :=
  ⟨0x180008, 0x100, 4, .array,
    [⟨"CW_FIRST", 63, 60, .rw, 0x0⟩,
     ⟨"CCW_FIRST", 59, 56, .rw, 0x0⟩]⟩

/-- RING_DAYS: R62. -/
def info_RING_DAYS : RegInfo :=
  ⟨0x180010, 0x100, 4, .array,
    [⟨"DAYS_CCW", 63, 32, .rw, 0x0⟩,
     ⟨"DAYS_CW", 31, 0, .rw, 0x0⟩]⟩

/-- RING_SHARE: R63. -/
def info_RING_SHARE : RegInfo :=
  ⟨0x180018, 0x100, 4, .array,
    [⟨"SIZE", 63, 32, .rw, 0x0⟩,
     ⟨"BASE", 31, 0, .rw, 0x0⟩]⟩

/-- RING_SHADOW: R63. -/
def info_RING_SHADOW : RegInfo :=
  ⟨0x180020, 0x100, 4, .array,
    [⟨"SIZE", 63, 32, .rw, 0x0⟩,
     ⟨"BASE", 31, 0, .rw, 0x0⟩]⟩

/-- RING_LAUNCH: R64. -/
def info_RING_LAUNCH : RegInfo :=
  ⟨0x180028, 0x100, 4, .array,
    [⟨"GCNT", 63, 0, .rw, 0x0⟩]⟩

/-- RING_YEARS: R65. -/
def info_RING_YEARS : RegInfo :=
  ⟨0x180030, 0x100, 4, .array,
    [⟨"FIRST_YEAR", 63, 32, .rw, 0x0⟩,
     ⟨"COUNT", 31, 0, .rw, 0x0⟩]⟩

/-- RING_ANGLE_CW: R66. -/
def info_RING_ANGLE_CW : RegInfo :=
  ⟨0x180038, 0x100, 4, .array,
    [⟨"YEAR", 63, 32, .ro, 0x0⟩,
     ⟨"DAY", 31, 0, .ro, 0x0⟩]⟩

/-- RING_ANGLE_CCW: R66. -/
def info_RING_ANGLE_CCW : RegInfo :=
  ⟨0x180040, 0x100, 4, .array,
    [⟨"YEAR", 63, 32, .ro, 0x0⟩,
     ⟨"DAY", 31, 0, .ro, 0x0⟩]⟩

/-- RING_STATUS: R67. -/
def info_RING_STATUS : RegInfo :=
  ⟨0x180048, 0x100, 4, .array,
    [⟨"YEARS_DONE", 63, 32, .ro, 0x0⟩,
     ⟨"SHADOW_SEL", 7, 7, .ro, 0x0⟩,
     ⟨"LATE_LAUNCH", 6, 6, .ro, 0x0⟩,
     ⟨"VALID_CCW", 5, 5, .ro, 0x0⟩,
     ⟨"VALID_CW", 4, 4, .ro, 0x0⟩,
     ⟨"BWD", 3, 3, .ro, 0x0⟩,
     ⟨"STATE", 1, 0, .ro, 0x0⟩]⟩

/-- RING_ERR: R68. -/
def info_RING_ERR : RegInfo :=
  ⟨0x180050, 0x100, 4, .array,
    [⟨"FAULTS", 63, 32, .ro, 0x0⟩,
     ⟨"ELEMS", 9, 9, .w1c, 0x0⟩,
     ⟨"INCOMPLETE", 8, 8, .w1c, 0x0⟩,
     ⟨"MISMATCH", 7, 7, .w1c, 0x0⟩,
     ⟨"RESERVED_VAL", 6, 6, .w1c, 0x0⟩,
     ⟨"ORDER", 5, 5, .w1c, 0x0⟩,
     ⟨"OWNER", 4, 4, .w1c, 0x0⟩,
     ⟨"HOPS", 3, 3, .w1c, 0x0⟩,
     ⟨"GEN", 2, 2, .w1c, 0x0⟩,
     ⟨"KEY", 1, 1, .w1c, 0x0⟩,
     ⟨"UNARMED", 0, 0, .w1c, 0x0⟩]⟩

/-- RING_HOP: R69. -/
def info_RING_HOP : RegInfo :=
  ⟨0x180058, 0x100, 4, .array,
    [⟨"HOP_CCW", 63, 32, .ro, 0x0⟩,
     ⟨"HOP_CW", 31, 0, .ro, 0x0⟩]⟩

/-- CODEC_CFG: R182. -/
def info_CODEC_CFG : RegInfo :=
  ⟨0x190000, 0x0, 1, .one,
    [⟨"TABLES", 15, 0, .ro, 0x0⟩]⟩

/-- CODEC_EXP: R183. -/
def info_CODEC_EXP : RegInfo :=
  ⟨0x190008, 0x0, 1, .one,
    [⟨"BLOCKS", 63, 0, .ro, 0x0⟩]⟩

/-- CODEC_CMP: R183. -/
def info_CODEC_CMP : RegInfo :=
  ⟨0x190010, 0x0, 1, .one,
    [⟨"BLOCKS", 63, 0, .ro, 0x0⟩]⟩

/-- CODEC_STALL: R183. -/
def info_CODEC_STALL : RegInfo :=
  ⟨0x190018, 0x0, 1, .one,
    [⟨"LANE_CYCLES", 63, 0, .ro, 0x0⟩]⟩

/-- CODEC_ERR: R184. -/
def info_CODEC_ERR : RegInfo :=
  ⟨0x190020, 0x0, 1, .one,
    [⟨"FAULTS", 63, 32, .ro, 0x0⟩,
     ⟨"HEADER", 7, 7, .w1c, 0x0⟩,
     ⟨"TABLE", 6, 6, .w1c, 0x0⟩,
     ⟨"CAPACITY", 5, 5, .w1c, 0x0⟩,
     ⟨"TAIL_RANGE", 4, 4, .w1c, 0x0⟩,
     ⟨"TAIL_FLAG", 3, 3, .w1c, 0x0⟩,
     ⟨"LONG", 2, 2, .w1c, 0x0⟩,
     ⟨"SHORT", 1, 1, .w1c, 0x0⟩,
     ⟨"ZERO", 0, 0, .w1c, 0x0⟩]⟩

/-- CODEC_ERR_LOC: R185. -/
def info_CODEC_ERR_LOC : RegInfo :=
  ⟨0x190028, 0x0, 1, .one,
    [⟨"TAG", 63, 32, .ro, 0x0⟩,
     ⟨"SOURCE", 31, 28, .ro, 0x0⟩,
     ⟨"DIR", 27, 27, .ro, 0x0⟩,
     ⟨"FIRST", 26, 24, .ro, 0x0⟩,
     ⟨"LAYER", 15, 0, .ro, 0x0⟩]⟩

/-- ETH_CTL: R548. -/
def info_ETH_CTL : RegInfo :=
  ⟨0x200000, 0x8, 2, .array,
    [⟨"PFC_PRIO", 59, 57, .rw, 0x3⟩,
     ⟨"PFC_EN", 56, 56, .rw, 0x0⟩,
     ⟨"MTU", 47, 32, .rw, 0x2328⟩,
     ⟨"MEDIA", 7, 4, .rw, 0x0⟩,
     ⟨"MODE", 3, 1, .rw, 0x0⟩,
     ⟨"ENABLE", 0, 0, .rw, 0x1⟩]⟩

/-- ETH_STATUS: R549. -/
def info_ETH_STATUS : RegInfo :=
  ⟨0x200010, 0x8, 2, .array,
    [⟨"DROPPED", 63, 32, .ro, 0x0⟩,
     ⟨"UP", 7, 4, .ro, 0x0⟩,
     ⟨"PFC_RX", 3, 3, .ro, 0x0⟩,
     ⟨"AN_DONE", 2, 2, .ro, 0x0⟩]⟩

/-- ETH_CC: R548. -/
def info_ETH_CC : RegInfo :=
  ⟨0x200020, 0x0, 1, .one,
    [⟨"CNP_GAP", 63, 56, .rw, 0x4⟩,
     ⟨"RECOVER_T", 55, 48, .rw, 0x37⟩,
     ⟨"ADD", 47, 40, .rw, 0x4⟩,
     ⟨"RMIN", 39, 32, .rw, 0x1⟩,
     ⟨"PFC_XOFF", 31, 16, .rw, 0x200⟩]⟩

/-- SVC_CFG: R548. -/
def info_SVC_CFG : RegInfo :=
  ⟨0x200100, 0x0, 1, .one,
    [⟨"QP_MAX_M1", 63, 48, .rw, 0xffff⟩,
     ⟨"DRAIN_STEPS", 47, 32, .rw, 0x40⟩,
     ⟨"QP_TABLE", 31, 0, .rw, 0x0⟩]⟩

/-- SVC_ARG: R550. -/
def info_SVC_ARG : RegInfo :=
  ⟨0x200108, 0x8, 2, .array,
    [⟨"ARG", 63, 0, .rw, 0x0⟩]⟩

/-- SVC_CMD: R550. -/
def info_SVC_CMD : RegInfo :=
  ⟨0x200118, 0x0, 1, .one,
    [⟨"OPCODE", 7, 0, .wo, 0x0⟩]⟩

/-- SVC_CMD_STATUS: R550. -/
def info_SVC_CMD_STATUS : RegInfo :=
  ⟨0x200120, 0x0, 1, .one,
    [⟨"SEQ", 63, 32, .ro, 0x0⟩,
     ⟨"RESULT", 15, 8, .ro, 0x0⟩,
     ⟨"BUSY", 0, 0, .ro, 0x0⟩]⟩

/-- SVC_GEN: R551. -/
def info_SVC_GEN : RegInfo :=
  ⟨0x200128, 0x0, 1, (.bySel .COMMIT_SEL),
    [⟨"BASE_CUR", 63, 48, .ro, 0x0⟩,
     ⟨"BASE_NEXT", 47, 32, .ro, 0x0⟩,
     ⟨"DRAINING", 31, 31, .ro, 0x0⟩,
     ⟨"DRAIN_LEFT", 30, 0, .ro, 0x0⟩]⟩

/-- SVC_CNT: R552. -/
def info_SVC_CNT : RegInfo :=
  ⟨0x200130, 0x0, 1, .one,
    [⟨"ADMITTED", 63, 32, .ro, 0x0⟩,
     ⟨"CANCEL_MISS", 31, 16, .ro, 0x0⟩,
     ⟨"UNDELIVERED", 15, 0, .ro, 0x0⟩]⟩

/-- SVC_TOK: R552. -/
def info_SVC_TOK : RegInfo :=
  ⟨0x200138, 0x0, 1, .one,
    [⟨"TOKENS", 63, 0, .ro, 0x0⟩]⟩

/-- SVC_ERR: R552. -/
def info_SVC_ERR : RegInfo :=
  ⟨0x200140, 0x0, 1, .one,
    [⟨"FAULTS", 63, 32, .ro, 0x0⟩,
     ⟨"INVALID", 6, 6, .w1c, 0x0⟩,
     ⟨"UNDELIVERED", 5, 5, .w1c, 0x0⟩,
     ⟨"TAIL", 4, 4, .w1c, 0x0⟩,
     ⟨"ACCESS", 3, 3, .w1c, 0x0⟩,
     ⟨"RETRY", 2, 2, .w1c, 0x0⟩,
     ⟨"PULL", 1, 1, .w1c, 0x0⟩,
     ⟨"DRAIN", 0, 0, .w1c, 0x0⟩]⟩

/-- CHAIN_ADDR: R588. -/
def info_CHAIN_ADDR : RegInfo :=
  ⟨0x300000, 0x0, 1, .one,
    [⟨"VALID", 15, 15, .ro, 0x0⟩,
     ⟨"LENGTH", 12, 8, .ro, 0x0⟩,
     ⟨"ADDR", 4, 0, .ro, 0x0⟩]⟩

/-- CHAIN_CFG: R588. -/
def info_CHAIN_CFG : RegInfo :=
  ⟨0x300008, 0x0, 1, .one,
    [⟨"RETRY_TO", 63, 48, .rw, 0x14⟩,
     ⟨"RETRY_MAX", 47, 44, .rw, 0x8⟩]⟩

/-- CHAIN_STATUS: R589. -/
def info_CHAIN_STATUS : RegInfo :=
  ⟨0x300010, 0x0, 1, .one,
    [⟨"IN_STATE", 7, 6, .ro, 0x0⟩,
     ⟨"OUT_STATE", 5, 4, .ro, 0x0⟩,
     ⟨"BEYOND", 0, 0, .ro, 0x0⟩]⟩

/-- CHAIN_CNT: R589. -/
def info_CHAIN_CNT : RegInfo :=
  ⟨0x300018, 0x0, 1, .one,
    [⟨"RX", 63, 32, .ro, 0x0⟩,
     ⟨"RESENDS", 31, 0, .ro, 0x0⟩]⟩

/-- CHAIN_ERR: R590. -/
def info_CHAIN_ERR : RegInfo :=
  ⟨0x300020, 0x0, 1, .one,
    [⟨"FAULTS", 63, 32, .ro, 0x0⟩,
     ⟨"OUT_DEAD", 5, 5, .w1c, 0x0⟩,
     ⟨"IN_DEAD", 4, 4, .w1c, 0x0⟩,
     ⟨"EVENT_LOST", 3, 3, .w1c, 0x0⟩,
     ⟨"RETRY_EXHAUSTED", 2, 2, .w1c, 0x0⟩,
     ⟨"MALFORMED", 1, 1, .w1c, 0x0⟩,
     ⟨"CRC", 0, 0, .w1c, 0x0⟩]⟩

/-- EVT_STATUS: R589. -/
def info_EVT_STATUS : RegInfo :=
  ⟨0x300028, 0x0, 1, .one,
    [⟨"SENT", 63, 32, .ro, 0x0⟩,
     ⟨"HELD", 31, 16, .ro, 0x0⟩,
     ⟨"LOST", 15, 0, .ro, 0x0⟩]⟩

/-- HBM_ERR: R224. -/
def info_HBM_ERR : RegInfo :=
  ⟨0x400000, 0x0, 1, .one,
    [⟨"REREADS_OK", 63, 32, .ro, 0x0⟩,
     ⟨"BAD_BLOCKS", 31, 16, .ro, 0x0⟩,
     ⟨"LIST_FULL", 3, 3, .w1c, 0x0⟩,
     ⟨"REPAIR", 2, 2, .w1c, 0x0⟩,
     ⟨"BAD", 1, 1, .w1c, 0x0⟩,
     ⟨"REREAD", 0, 0, .w1c, 0x0⟩]⟩

/-- HBM_BAD_LOC: R225. -/
def info_HBM_BAD_LOC : RegInfo :=
  ⟨0x400008, 0x0, 1, .one,
    [⟨"PORT", 63, 61, .ro, 0x0⟩,
     ⟨"BLOCK", 31, 0, .ro, 0x0⟩]⟩

/-- HBM_SCRUB: R226. -/
def info_HBM_SCRUB : RegInfo :=
  ⟨0x400010, 0x0, 1, .one,
    [⟨"PASSES", 63, 32, .ro, 0x0⟩,
     ⟨"EN", 31, 31, .rw, 0x1⟩,
     ⟨"INTERVAL", 15, 0, .rw, 0xa⟩]⟩

/-- HBM_FREEZE: R227. -/
def info_HBM_FREEZE : RegInfo :=
  ⟨0x400020, 0x8, 4, .array,
    [⟨"CH", 63, 0, .rw, 0x0⟩]⟩

/-- HBM_IDLE: R227. -/
def info_HBM_IDLE : RegInfo :=
  ⟨0x400040, 0x8, 4, .array,
    [⟨"CH", 63, 0, .ro, 0xffffffffffffffff⟩]⟩

/-- HBM_ECC: R228. -/
def info_HBM_ECC : RegInfo :=
  ⟨0x400080, 0x8, 8, .array,
    [⟨"CORRECTED", 63, 32, .ro, 0x0⟩,
     ⟨"UNCORRECTED", 31, 0, .ro, 0x0⟩]⟩

/-- VAULT_CTL: R229. -/
def info_VAULT_CTL : RegInfo :=
  ⟨0x410000, 0x0, 1, .one,
    [⟨"DEADLINE", 31, 16, .rw, 0x1f4⟩,
     ⟨"INSTALL", 1, 1, .ro, 0x0⟩,
     ⟨"UNLOCKED", 0, 0, .ro, 0x0⟩]⟩

/-- VAULT_SLOT: R230. -/
def info_VAULT_SLOT : RegInfo :=
  ⟨0x410008, 0x8, 2, .array,
    [⟨"PRESENT", 63, 63, .rw, 0x0⟩,
     ⟨"GEN", 60, 45, .rw, 0x0⟩,
     ⟨"SIZE", 44, 22, .rw, 0x0⟩,
     ⟨"BASE", 21, 0, .rw, 0x0⟩]⟩

/-- VAULT_ERR: R231. -/
def info_VAULT_ERR : RegInfo :=
  ⟨0x410018, 0x0, 1, .one,
    [⟨"REBUILDS", 63, 32, .ro, 0x0⟩,
     ⟨"FIRST_GROUP", 29, 8, .ro, 0x0⟩,
     ⟨"WRITE_REFUSED", 3, 3, .w1c, 0x0⟩,
     ⟨"DOUBLE", 2, 2, .w1c, 0x0⟩,
     ⟨"LATE", 1, 1, .w1c, 0x0⟩,
     ⟨"CRC", 0, 0, .w1c, 0x0⟩]⟩

/-- VAULT_WEAR: R232. -/
def info_VAULT_WEAR : RegInfo :=
  ⟨0x410020, 0x0, 1, .one,
    [⟨"MAX_WRITES", 63, 48, .ro, 0⟩,
     ⟨"MEAN_WRITES", 47, 32, .ro, 0⟩,
     ⟨"SPARES_LEFT", 31, 0, .ro, 0⟩]⟩

/-- SPM_SEL: R233. -/
def info_SPM_SEL : RegInfo :=
  ⟨0x420000, 0x0, 1, .perPath,
    [⟨"CORE", 15, 0, .rw, 0x0⟩]⟩

/-- SPM_PERR: R234. -/
def info_SPM_PERR : RegInfo :=
  ⟨0x420008, 0x0, 25600, .selCore,
    [⟨"COUNT", 63, 32, .ro, 0x0⟩,
     ⟨"ENGINE", 31, 28, .ro, 0x0⟩,
     ⟨"WORD", 11, 0, .ro, 0x0⟩]⟩

/-- SPM_SLOT: R235. -/
def info_SPM_SLOT : RegInfo :=
  ⟨0x420100, 0x8, 16, .selCore16,
    [⟨"SLOT_15", 63, 60, .rw, 0x0⟩,
     ⟨"SLOT_14", 59, 56, .rw, 0x0⟩,
     ⟨"SLOT_13", 55, 52, .rw, 0x0⟩,
     ⟨"SLOT_12", 51, 48, .rw, 0x0⟩,
     ⟨"SLOT_11", 47, 44, .rw, 0x0⟩,
     ⟨"SLOT_10", 43, 40, .rw, 0x0⟩,
     ⟨"SLOT_9", 39, 36, .rw, 0x0⟩,
     ⟨"SLOT_8", 35, 32, .rw, 0x0⟩,
     ⟨"SLOT_7", 31, 28, .rw, 0x0⟩,
     ⟨"SLOT_6", 27, 24, .rw, 0x0⟩,
     ⟨"SLOT_5", 23, 20, .rw, 0x0⟩,
     ⟨"SLOT_4", 19, 16, .rw, 0x0⟩,
     ⟨"SLOT_3", 15, 12, .rw, 0x0⟩,
     ⟨"SLOT_2", 11, 8, .rw, 0x0⟩,
     ⟨"SLOT_1", 7, 4, .rw, 0x0⟩,
     ⟨"SLOT_0", 3, 0, .rw, 0x0⟩]⟩

/-- SPM_REGION: R236. -/
def info_SPM_REGION : RegInfo :=
  ⟨0x420200, 0x8, 32, .selCore32,
    [⟨"EN", 63, 63, .rw, 0x0⟩,
     ⟨"PROD", 62, 59, .rw, 0x0⟩,
     ⟨"CONS", 58, 55, .rw, 0x0⟩,
     ⟨"BASE", 54, 43, .rw, 0x0⟩,
     ⟨"SIZE", 42, 31, .rw, 0x0⟩,
     ⟨"HEAD_WRAP", 30, 30, .ro, 0x0⟩,
     ⟨"HEAD", 29, 18, .ro, 0x0⟩,
     ⟨"TAIL_WRAP", 17, 17, .ro, 0x0⟩,
     ⟨"TAIL", 16, 5, .ro, 0x0⟩]⟩

/-- GCNT: R343. -/
def info_GCNT : RegInfo :=
  ⟨0x500000, 0x0, 1, .one,
    [⟨"COUNT", 63, 0, .ro, 0x0⟩]⟩

/-- GCNT_STATUS: R344. -/
def info_GCNT_STATUS : RegInfo :=
  ⟨0x500008, 0x0, 1, .one,
    [⟨"OFFSET", 63, 32, .ro, 0x0⟩,
     ⟨"DEPTH", 23, 19, .ro, 0x0⟩,
     ⟨"PARENT", 18, 16, .ro, 0x0⟩,
     ⟨"ACTING", 3, 3, .ro, 0x0⟩,
     ⟨"MASTER", 2, 2, .ro, 0x0⟩,
     ⟨"HOLDOVER", 1, 1, .ro, 0x0⟩,
     ⟨"LOCKED", 0, 0, .ro, 0x0⟩]⟩

/-- SNAP_AT: R345. -/
def info_SNAP_AT : RegInfo :=
  ⟨0x500100, 0x0, 1, .one,
    [⟨"GCNT", 63, 0, .rw, 0x0⟩]⟩

/-- SNAP_SEQ: R345. -/
def info_SNAP_SEQ : RegInfo :=
  ⟨0x500108, 0x0, 1, .one,
    [⟨"SEQ", 63, 0, .ro, 0x0⟩]⟩

/-- SNAP_STATUS: R346. -/
def info_SNAP_STATUS : RegInfo :=
  ⟨0x500110, 0x0, 1, .one,
    [⟨"UNLOCKED", 4, 4, .ro, 0x0⟩,
     ⟨"ABANDONED", 3, 3, .ro, 0x0⟩,
     ⟨"LATE", 2, 2, .ro, 0x0⟩,
     ⟨"PENDING", 1, 1, .ro, 0x0⟩,
     ⟨"ARMED", 0, 0, .ro, 0x0⟩]⟩

/-- SNAP_CTL: R347. -/
def info_SNAP_CTL : RegInfo :=
  ⟨0x500118, 0x0, 1, .perPath,
    [⟨"VIEW", 0, 0, .rw, 0x0⟩]⟩

/-- SNAP_GCNT: R345. -/
def info_SNAP_GCNT : RegInfo :=
  ⟨0x500120, 0x0, 1, .one,
    [⟨"GCNT", 63, 0, .ro, 0x0⟩]⟩

/-- SYNC_CFG: R348. -/
def info_SYNC_CFG : RegInfo :=
  ⟨0x500200, 0x0, 1, .one,
    [⟨"WAIT_WD", 63, 48, .rw, 0x7d0⟩,
     ⟨"STREAM_WD", 47, 32, .rw, 0x3e8⟩,
     ⟨"GRANT_WD", 31, 16, .rw, 0x14⟩,
     ⟨"WD_SAFE", 0, 0, .rw, 0x0⟩]⟩

/-- SYNC_ERR: R349. -/
def info_SYNC_ERR : RegInfo :=
  ⟨0x500208, 0x0, 1, .one,
    [⟨"FAULTS", 63, 32, .ro, 0x0⟩,
     ⟨"GRANT_WD", 7, 7, .w1c, 0x0⟩,
     ⟨"STREAM_WD", 6, 6, .w1c, 0x0⟩,
     ⟨"WAIT_WD", 5, 5, .w1c, 0x0⟩,
     ⟨"MISMATCH", 4, 4, .w1c, 0x0⟩,
     ⟨"UNMAPPED", 3, 3, .w1c, 0x0⟩,
     ⟨"OVERFLOW", 2, 2, .w1c, 0x0⟩,
     ⟨"UNDERFLOW", 1, 1, .w1c, 0x0⟩,
     ⟨"FENCED_DROP", 0, 0, .w1c, 0x0⟩]⟩

/-- SYNC_ERR_LOC: R350. -/
def info_SYNC_ERR_LOC : RegInfo :=
  ⟨0x500210, 0x0, 1, .one,
    [⟨"PKEY", 63, 52, .ro, 0x0⟩,
     ⟨"SYNC_ID", 51, 40, .ro, 0x0⟩,
     ⟨"FIRST", 39, 37, .ro, 0x0⟩,
     ⟨"SRC", 36, 25, .ro, 0x0⟩,
     ⟨"CORE", 15, 0, .ro, 0x0⟩]⟩

/-- SYNC_SIG: R351. -/
def info_SYNC_SIG : RegInfo :=
  ⟨0x500218, 0x0, 1, .one,
    [⟨"APPLIED", 63, 32, .ro, 0x0⟩,
     ⟨"RELEASES", 31, 0, .ro, 0x0⟩]⟩

/-- SYNC_WAIT: R351. -/
def info_SYNC_WAIT : RegInfo :=
  ⟨0x500220, 0x0, 1, .one,
    [⟨"SLEEPS", 63, 32, .ro, 0x0⟩,
     ⟨"POLLS", 31, 0, .ro, 0x0⟩]⟩

/-- PWR_CTL: R636. -/
def info_PWR_CTL : RegInfo :=
  ⟨0x600000, 0x0, 1, .one,
    [⟨"POINT", 1, 0, .rw, 0x0⟩]⟩

/-- PWR_STATUS: R637. -/
def info_PWR_STATUS : RegInfo :=
  ⟨0x600008, 0x0, 1, .one,
    [⟨"INPUT_W", 63, 32, .ro, 0x0⟩,
     ⟨"STATE", 23, 20, .ro, 0x0⟩,
     ⟨"POINT_EFF", 19, 18, .ro, 0x0⟩,
     ⟨"THROTTLE_T", 17, 17, .ro, 0x0⟩,
     ⟨"THROTTLE_P", 16, 16, .ro, 0x0⟩]⟩

/-- LTOL: R636. -/
def info_LTOL : RegInfo :=
  ⟨0x600010, 0x0, 1, .one,
    [⟨"NS", 31, 0, .rw, 0x0⟩]⟩

/-- PWR_CAP: R636. -/
def info_PWR_CAP : RegInfo :=
  ⟨0x600018, 0x0, 1, .one,
    [⟨"WATTS", 15, 0, .rw, 0x1b26⟩]⟩

/-- MAINT_CTL: R636. -/
def info_MAINT_CTL : RegInfo :=
  ⟨0x600020, 0x0, 1, .one,
    [⟨"LEAVE", 1, 1, .wo, 0x0⟩,
     ⟨"ENTER", 0, 0, .wo, 0x0⟩]⟩

/-- PWR_METER: R637. -/
def info_PWR_METER : RegInfo :=
  ⟨0x600028, 0x0, 1, .one,
    [⟨"ENERGY_MJ", 63, 0, .ro, 0x0⟩]⟩

/-- KETTLE_CTL: R636. -/
def info_KETTLE_CTL : RegInfo :=
  ⟨0x600100, 0x8, 4, .array,
    [⟨"RAMP", 15, 8, .rw, 0x40⟩,
     ⟨"GAP_EN", 0, 0, .rw, 0x1⟩]⟩

/-- KETTLE_TEST: R638. -/
def info_KETTLE_TEST : RegInfo :=
  ⟨0x600120, 0x8, 4, .array,
    [⟨"HIGH_A", 63, 53, .rw, 0x0⟩,
     ⟨"LOW_A", 52, 42, .rw, 0x0⟩,
     ⟨"EDGE_NS", 41, 28, .rw, 0x0⟩,
     ⟨"DWELL_US", 27, 8, .rw, 0x0⟩]⟩

/-- KETTLE_RUN: R638. -/
def info_KETTLE_RUN : RegInfo :=
  ⟨0x600140, 0x0, 1, .one,
    [⟨"STEPS", 63, 32, .rw, 0x0⟩,
     ⟨"QMASK", 7, 4, .rw, 0x0⟩,
     ⟨"STOP", 1, 1, .wo, 0x0⟩,
     ⟨"GO", 0, 0, .wo, 0x0⟩]⟩

/-- KETTLE_AT: R638. -/
def info_KETTLE_AT : RegInfo :=
  ⟨0x600148, 0x0, 1, .one,
    [⟨"GCNT", 63, 0, .rw, 0x0⟩]⟩

/-- KETTLE_STATUS: R638. -/
def info_KETTLE_STATUS : RegInfo :=
  ⟨0x600150, 0x0, 1, .one,
    [⟨"STEPS_DONE", 63, 32, .ro, 0x0⟩,
     ⟨"RUNNING", 7, 4, .ro, 0x0⟩,
     ⟨"LATE", 3, 3, .ro, 0x0⟩]⟩

/-- THERM_CFG: R639. -/
def info_THERM_CFG : RegInfo :=
  ⟨0x600200, 0x0, 1, .one,
    [⟨"THROTTLE_C", 63, 56, .rw, 0x5f⟩,
     ⟨"TRIP_C", 55, 48, .rw, 0x6e⟩,
     ⟨"HBM_THROTTLE_C", 47, 40, .rw, 0x55⟩,
     ⟨"HBM_TRIP_C", 39, 32, .rw, 0x5f⟩]⟩

/-- THERM_STATUS: R639. -/
def info_THERM_STATUS : RegInfo :=
  ⟨0x600208, 0x0, 1, .one,
    [⟨"DIE_MAX", 63, 56, .ro, 0x0⟩,
     ⟨"HBM_MAX", 55, 48, .ro, 0x0⟩,
     ⟨"HBM_STACK", 47, 45, .ro, 0x0⟩,
     ⟨"DIE_QUAD", 44, 43, .ro, 0x0⟩]⟩

/-- THERM_CNT: R639. -/
def info_THERM_CNT : RegInfo :=
  ⟨0x600210, 0x0, 1, .one,
    [⟨"STEPS", 63, 32, .ro, 0x0⟩,
     ⟨"MS", 31, 0, .ro, 0x0⟩]⟩

/-- HLTH_CFG: R640. -/
def info_HLTH_CFG : RegInfo :=
  ⟨0x600300, 0x0, 1, .one,
    [⟨"WARN_DAYS", 63, 48, .rw, 0xb4⟩]⟩

/-- HLTH_MODULE: R640. -/
def info_HLTH_MODULE : RegInfo :=
  ⟨0x600308, 0x0, 1, .one,
    [⟨"EST", 63, 48, .ro, 0xffff⟩,
     ⟨"LO", 47, 32, .ro, 0xffff⟩,
     ⟨"HI", 31, 16, .ro, 0xffff⟩,
     ⟨"WARN", 1, 1, .ro, 0x0⟩,
     ⟨"VALID", 0, 0, .ro, 0x0⟩]⟩

/-- HLTH_SUB: R640. -/
def info_HLTH_SUB : RegInfo :=
  ⟨0x600310, 0x8, 4, .array,
    [⟨"EST", 63, 48, .ro, 0xffff⟩,
     ⟨"LO", 47, 32, .ro, 0xffff⟩,
     ⟨"HI", 31, 16, .ro, 0xffff⟩,
     ⟨"WARN", 1, 1, .ro, 0x0⟩,
     ⟨"VALID", 0, 0, .ro, 0x0⟩]⟩

/-- SEC_STATUS: R614. -/
def info_SEC_STATUS : RegInfo :=
  ⟨0x700000, 0x0, 1, .one,
    [⟨"ARB", 63, 32, .ro, 0⟩,
     ⟨"TRANSFERS", 31, 16, .ro, 0⟩,
     ⟨"OIS", 4, 4, .ro, 0⟩,
     ⟨"VAULT_KEY", 3, 3, .ro, 0x0⟩,
     ⟨"IDENTITY", 2, 2, .ro, 0x0⟩,
     ⟨"PUF", 1, 1, .ro, 0x0⟩,
     ⟨"SE", 0, 0, .ro, 0x0⟩]⟩

/-- SEC_IMG: R614. -/
def info_SEC_IMG : RegInfo :=
  ⟨0x700008, 0x0, 1, .one,
    [⟨"VERSION", 63, 32, .ro, 0x0⟩,
     ⟨"RESULT1", 15, 12, .ro, 0x0⟩,
     ⟨"RESULT0", 11, 8, .ro, 0x0⟩]⟩

/-- SEC_CFG: R615. -/
def info_SEC_CFG : RegInfo :=
  ⟨0x700010, 0x0, 1, .one,
    [⟨"REKEY_EXP", 13, 8, .rw, 0x2c⟩,
     ⟨"WEIGHT_LOCK", 1, 1, .rw, 0x1⟩,
     ⟨"DEBUG_LOCK", 0, 0, .rw, 0x1⟩]⟩

/-- SEC_ARG: R615. -/
def info_SEC_ARG : RegInfo :=
  ⟨0x700018, 0x0, 1, .one,
    [⟨"ADDR", 38, 0, .rw, 0x0⟩]⟩

/-- SEC_CMD: R616. -/
def info_SEC_CMD : RegInfo :=
  ⟨0x700020, 0x0, 1, .one,
    [⟨"OPCODE", 7, 0, .wo, 0x0⟩]⟩

/-- SEC_CMD_STATUS: R616. -/
def info_SEC_CMD_STATUS : RegInfo :=
  ⟨0x700028, 0x0, 1, .one,
    [⟨"SEQ", 63, 32, .ro, 0x0⟩,
     ⟨"REASON", 23, 16, .ro, 0x0⟩,
     ⟨"RESULT", 15, 8, .ro, 0x0⟩,
     ⟨"BUSY", 0, 0, .ro, 0x0⟩]⟩

/-- SEC_NONCE: R616. -/
def info_SEC_NONCE : RegInfo :=
  ⟨0x700030, 0x8, 4, .array,
    [⟨"NONCE", 63, 0, .ro, 0x0⟩]⟩

/-- SEC_ERR: R617. -/
def info_SEC_ERR : RegInfo :=
  ⟨0x700050, 0x0, 1, .one,
    [⟨"FAULTS", 63, 32, .ro, 0x0⟩,
     ⟨"ARB_WORN", 7, 7, .w1c, 0x0⟩,
     ⟨"WEIGHT_READ", 6, 6, .w1c, 0x0⟩,
     ⟨"ATTEST", 5, 5, .w1c, 0x0⟩,
     ⟨"TOKEN", 4, 4, .w1c, 0x0⟩,
     ⟨"LINK_AUTH", 3, 3, .w1c, 0x0⟩,
     ⟨"VAULT_KEY", 2, 2, .w1c, 0x0⟩,
     ⟨"SE", 1, 1, .w1c, 0x0⟩,
     ⟨"PUF", 0, 0, .w1c, 0x0⟩]⟩

/-- SEC_UID: R614. -/
def info_SEC_UID : RegInfo :=
  ⟨0x700058, 0x0, 1, .one,
    [⟨"UID", 63, 0, .ro, 0⟩]⟩

/-- CORE_ID: R108. -/
def info_CORE_ID : RegInfo :=
  ⟨0x0, 0x0, 25600, .core,
    [⟨"GLOBAL", 39, 24, .ro, 0⟩,
     ⟨"Q", 15, 14, .ro, 0⟩,
     ⟨"C", 13, 7, .ro, 0⟩,
     ⟨"K", 5, 0, .ro, 0⟩]⟩

/-- CORE_ARRAYW: R109. -/
def info_CORE_ARRAYW : RegInfo :=
  ⟨0x8, 0x0, 25600, .core,
    [⟨"NEW_B", 31, 31, .ro, 0x0⟩,
     ⟨"NEW_A", 30, 30, .ro, 0x0⟩,
     ⟨"WIDTH_B", 29, 25, .ro, 0x10⟩,
     ⟨"WIDTH_A", 24, 20, .ro, 0x10⟩,
     ⟨"BYP_B1_V", 19, 19, .ro, 0x0⟩,
     ⟨"BYP_B1", 18, 15, .ro, 0x0⟩,
     ⟨"BYP_B0_V", 14, 14, .ro, 0x0⟩,
     ⟨"BYP_B0", 13, 10, .ro, 0x0⟩,
     ⟨"BYP_A1_V", 9, 9, .ro, 0x0⟩,
     ⟨"BYP_A1", 8, 5, .ro, 0x0⟩,
     ⟨"BYP_A0_V", 4, 4, .ro, 0x0⟩,
     ⟨"BYP_A0", 3, 0, .ro, 0x0⟩]⟩

/-- CORE_ARRAYMODE: R110. -/
def info_CORE_ARRAYMODE : RegInfo :=
  ⟨0x10, 0x0, 25600, .core,
    [⟨"MODE_B", 7, 4, .rw, 0x0⟩,
     ⟨"MODE_A", 3, 0, .rw, 0x0⟩]⟩

/-- CORE_STATUS: R111. -/
def info_CORE_STATUS : RegInfo :=
  ⟨0x18, 0x0, 25600, .core,
    [⟨"THIN_Q", 15, 8, .ro, 0x0⟩,
     ⟨"THIN_BUSY", 7, 7, .ro, 0x0⟩,
     ⟨"WIDE_B", 6, 6, .ro, 0x0⟩,
     ⟨"WIDE_A", 5, 5, .ro, 0x0⟩,
     ⟨"DUMMY_B", 4, 4, .ro, 0x0⟩,
     ⟨"DUMMY_A", 3, 3, .ro, 0x0⟩,
     ⟨"BUSY_B", 2, 2, .ro, 0x0⟩,
     ⟨"BUSY_A", 1, 1, .ro, 0x0⟩,
     ⟨"GATED", 0, 0, .ro, 0x1⟩]⟩

/-- CORE_BUBBLE_A: R112. -/
def info_CORE_BUBBLE_A : RegInfo :=
  ⟨0x20, 0x0, 25600, .core,
    [⟨"DRY", 63, 32, .ro, 0x0⟩,
     ⟨"DRAIN", 31, 0, .ro, 0x0⟩]⟩

/-- CORE_BUBBLE_B: R112. -/
def info_CORE_BUBBLE_B : RegInfo :=
  ⟨0x28, 0x0, 25600, .core,
    [⟨"DRY", 63, 32, .ro, 0x0⟩,
     ⟨"DRAIN", 31, 0, .ro, 0x0⟩]⟩

/-- CORE_THIN: R113. -/
def info_CORE_THIN : RegInfo :=
  ⟨0x30, 0x0, 25600, .core,
    [⟨"FOLD_OPS", 63, 32, .ro, 0x0⟩,
     ⟨"THIN_OPS", 31, 0, .ro, 0x0⟩]⟩

/-- CORE_DUMMY: R114. -/
def info_CORE_DUMMY : RegInfo :=
  ⟨0x38, 0x0, 25600, .core,
    [⟨"CYCLES", 63, 0, .ro, 0x0⟩]⟩

/-- CORE_TILES: R115. -/
def info_CORE_TILES : RegInfo :=
  ⟨0x40, 0x0, 25600, .core,
    [⟨"TILES_B", 63, 32, .ro, 0x0⟩,
     ⟨"TILES_A", 31, 0, .ro, 0x0⟩]⟩

/-- CORE_HOLD: R116. -/
def info_CORE_HOLD : RegInfo :=
  ⟨0x48, 0x0, 25600, .core,
    [⟨"POINT", 63, 32, .ro, 0x0⟩,
     ⟨"KETTLE", 31, 0, .ro, 0x0⟩]⟩

/-- STREAM_STATUS: R264. -/
def info_STREAM_STATUS : RegInfo :=
  ⟨0x100, 0x0, 25600, .core,
    [⟨"Q_DRAIN", 15, 12, .ro, 0x0⟩,
     ⟨"Q_FETCH1", 11, 8, .ro, 0x0⟩,
     ⟨"Q_FETCH0", 7, 4, .ro, 0x0⟩,
     ⟨"MCAST_WAIT", 3, 3, .ro, 0x0⟩,
     ⟨"BUSY_DRAIN", 2, 2, .ro, 0x0⟩,
     ⟨"BUSY_FETCH1", 1, 1, .ro, 0x0⟩,
     ⟨"BUSY_FETCH0", 0, 0, .ro, 0x0⟩]⟩

/-- STREAM_WORDS: R265. -/
def info_STREAM_WORDS : RegInfo :=
  ⟨0x108, 0x0, 25600, .core,
    [⟨"FETCHED", 63, 32, .ro, 0x0⟩,
     ⟨"DRAINED", 31, 0, .ro, 0x0⟩]⟩

/-- STREAM_STALL: R266. -/
def info_STREAM_STALL : RegInfo :=
  ⟨0x110, 0x0, 25600, .core,
    [⟨"TOKEN_CYCLES", 63, 32, .ro, 0x0⟩,
     ⟨"SPACE_CYCLES", 31, 0, .ro, 0x0⟩]⟩

/-- STREAM_ERR: R267. -/
def info_STREAM_ERR : RegInfo :=
  ⟨0x118, 0x0, 25600, .core,
    [⟨"FAULTS", 63, 32, .ro, 0x0⟩,
     ⟨"FENCE", 4, 4, .w1c, 0x0⟩,
     ⟨"CHANNEL", 3, 3, .w1c, 0x0⟩,
     ⟨"TIMEOUT", 2, 2, .w1c, 0x0⟩,
     ⟨"ENTRY", 1, 1, .w1c, 0x0⟩,
     ⟨"ADDR", 0, 0, .w1c, 0x0⟩]⟩

/-- STREAM_ERR_LOC: R268. -/
def info_STREAM_ERR_LOC : RegInfo :=
  ⟨0x120, 0x0, 25600, .core,
    [⟨"STREAM", 63, 56, .ro, 0x0⟩,
     ⟨"FIRST", 55, 53, .ro, 0x0⟩,
     ⟨"ENTRY_TASK", 32, 32, .ro, 0x0⟩,
     ⟨"ITEM", 31, 0, .ro, 0x0⟩]⟩

/-- SEQ_CFG: R307. -/
def info_SEQ_CFG : RegInfo :=
  ⟨0x200, 0x0, 25600, .core,
    [⟨"SLIP_LIMIT", 63, 48, .rw, 0x1f4⟩,
     ⟨"SLIP_SAFE", 0, 0, .rw, 0x0⟩]⟩

/-- SEQ_STATUS: R308. -/
def info_SEQ_STATUS : RegInfo :=
  ⟨0x208, 0x0, 25600, .core,
    [⟨"STEP", 63, 32, .ro, 0x0⟩,
     ⟨"SET", 31, 30, .ro, 0x0⟩,
     ⟨"NSETS_M1", 29, 28, .ro, 0x0⟩,
     ⟨"ACTIVE", 27, 21, .ro, 0x0⟩,
     ⟨"SLEEPING", 20, 14, .ro, 0x0⟩,
     ⟨"SLIPPING", 13, 13, .ro, 0x0⟩,
     ⟨"HOLDING", 12, 12, .ro, 0x0⟩,
     ⟨"LOADING", 11, 11, .ro, 0x0⟩,
     ⟨"ARMED_V", 10, 10, .ro, 0x0⟩,
     ⟨"ARMED_RCTX", 9, 8, .ro, 0x0⟩,
     ⟨"LIVE_V", 7, 7, .ro, 0x0⟩,
     ⟨"LIVE_RCTX", 6, 5, .ro, 0x0⟩]⟩

/-- SLIP_COUNT: R309. -/
def info_SLIP_COUNT : RegInfo :=
  ⟨0x210, 0x0, 25600, .core,
    [⟨"COUNT", 63, 32, .ro, 0x0⟩,
     ⟨"MAX_TICKS", 31, 0, .ro, 0x0⟩]⟩

/-- SLIP_TIME: R309. -/
def info_SLIP_TIME : RegInfo :=
  ⟨0x218, 0x0, 25600, .core,
    [⟨"TICKS", 63, 0, .ro, 0x0⟩]⟩

/-- SLIP_LAST: R310. -/
def info_SLIP_LAST : RegInfo :=
  ⟨0x220, 0x0, 25600, .core,
    [⟨"DAY", 63, 32, .ro, 0x0⟩,
     ⟨"DIR", 31, 31, .ro, 0x0⟩,
     ⟨"BWD", 30, 30, .ro, 0x0⟩,
     ⟨"CTX", 29, 24, .ro, 0x0⟩,
     ⟨"OBJ", 23, 12, .ro, 0x0⟩,
     ⟨"KIND", 11, 10, .ro, 0x0⟩]⟩

/-- SEQ_ISSUE: R311. -/
def info_SEQ_ISSUE : RegInfo :=
  ⟨0x228, 0x0, 25600, .core,
    [⟨"OPS", 63, 0, .ro, 0x0⟩]⟩

/-- SEQ_CUES: R311. -/
def info_SEQ_CUES : RegInfo :=
  ⟨0x230, 0x0, 25600, .core,
    [⟨"FIRED", 63, 32, .ro, 0x0⟩,
     ⟨"HOLD_CYCLES", 31, 0, .ro, 0x0⟩]⟩

/-- SEQ_ERR: R312. -/
def info_SEQ_ERR : RegInfo :=
  ⟨0x238, 0x0, 25600, .core,
    [⟨"FAULTS", 63, 32, .ro, 0x0⟩,
     ⟨"COMMIT2", 3, 3, .w1c, 0x0⟩,
     ⟨"LOAD_LATE", 2, 2, .w1c, 0x0⟩,
     ⟨"REARM_EXTENT", 1, 1, .w1c, 0x0⟩,
     ⟨"SLIP_LIMIT", 0, 0, .w1c, 0x0⟩]⟩

/-- REG_CLASS: R269. -/
def info_REG_CLASS : RegInfo :=
  ⟨0x180, 0x8, 1600, .cluster4,
    [⟨"EN", 63, 63, .rw, 0x0⟩,
     ⟨"RATE", 27, 16, .rw, 0x0⟩,
     ⟨"DEPTH", 15, 0, .rw, 0x0⟩]⟩

/-- REG_LEVEL: R270. -/
def info_REG_LEVEL : RegInfo :=
  ⟨0x1a0, 0x0, 400, .cluster,
    [⟨"LEVEL3", 63, 48, .ro, 0x0⟩,
     ⟨"LEVEL2", 47, 32, .ro, 0x0⟩,
     ⟨"LEVEL1", 31, 16, .ro, 0x0⟩,
     ⟨"LEVEL0", 15, 0, .ro, 0x0⟩]⟩

/-- CTX_STATE: R313. -/
def info_CTX_STATE : RegInfo :=
  ⟨0x400, 0x8, 1638400, .ctx,
    [⟨"CUE", 63, 48, .ro, 0x0⟩,
     ⟨"OP", 47, 37, .ro, 0x0⟩,
     ⟨"PENDING", 36, 32, .ro, 0x0⟩,
     ⟨"DEPTH", 31, 29, .ro, 0x0⟩,
     ⟨"STATE", 28, 27, .ro, 0x0⟩]⟩

/-- The table entry of a register. -/
def Reg.info : Reg → RegInfo
  | .DEV_ID => info_DEV_ID
  | .DEV_STATE => info_DEV_STATE
  | .DEV_COORD => info_DEV_COORD
  | .SAFE_CTL => info_SAFE_CTL
  | .SAFE_STATUS => info_SAFE_STATUS
  | .RECOV_CFG => info_RECOV_CFG
  | .COMMIT_SEL => info_COMMIT_SEL
  | .COMMIT_STATUS => info_COMMIT_STATUS
  | .RECOV_LAST => info_RECOV_LAST
  | .BUDDY_STATUS => info_BUDDY_STATUS
  | .COMMIT_CNT => info_COMMIT_CNT
  | .COMMIT_LOG => info_COMMIT_LOG
  | .RECOV_ERR => info_RECOV_ERR
  | .DET_CTL => info_DET_CTL
  | .DET_STATUS => info_DET_STATUS
  | .DET_MAP => info_DET_MAP
  | .DET_SEL => info_DET_SEL
  | .RNG_SEED => info_RNG_SEED
  | .DIGEST_WR => info_DIGEST_WR
  | .BOOT_STATUS => info_BOOT_STATUS
  | .PLAN_STATUS => info_PLAN_STATUS
  | .LOAD_STATUS => info_LOAD_STATUS
  | .START_CFG => info_START_CFG
  | .BOARD_STATUS => info_BOARD_STATUS
  | .LINK_CTL => info_LINK_CTL
  | .LINK_CFG => info_LINK_CFG
  | .LINK_STATUS => info_LINK_STATUS
  | .LINK_PEER => info_LINK_PEER
  | .LINK_LAT => info_LINK_LAT
  | .LINK_FLITS => info_LINK_FLITS
  | .LINK_RETRY => info_LINK_RETRY
  | .LINK_FEC => info_LINK_FEC
  | .LINK_ERR => info_LINK_ERR
  | .LINK_LOST => info_LINK_LOST
  | .LINK_LOSTN => info_LINK_LOSTN
  | .ROUTE_EPOCH => info_ROUTE_EPOCH
  | .ROUTE_FLIP_AT => info_ROUTE_FLIP_AT
  | .ROUTE_CFG => info_ROUTE_CFG
  | .ROUTE_DRAIN => info_ROUTE_DRAIN
  | .ROUTE_DROP => info_ROUTE_DROP
  | .ROUTE_ERR => info_ROUTE_ERR
  | .ROUTE_CONG => info_ROUTE_CONG
  | .ROUTE_MASK => info_ROUTE_MASK
  | .SLICE_SEL => info_SLICE_SEL
  | .SLICE_INFO => info_SLICE_INFO
  | .TRANSIT_PORT => info_TRANSIT_PORT
  | .ROUTE_OLD => info_ROUTE_OLD
  | .ROUTE_TBL0 => info_ROUTE_TBL0
  | .ROUTE_TBL1 => info_ROUTE_TBL1
  | .RING_CTL => info_RING_CTL
  | .RING_PLAN => info_RING_PLAN
  | .RING_DAYS => info_RING_DAYS
  | .RING_SHARE => info_RING_SHARE
  | .RING_SHADOW => info_RING_SHADOW
  | .RING_LAUNCH => info_RING_LAUNCH
  | .RING_YEARS => info_RING_YEARS
  | .RING_ANGLE_CW => info_RING_ANGLE_CW
  | .RING_ANGLE_CCW => info_RING_ANGLE_CCW
  | .RING_STATUS => info_RING_STATUS
  | .RING_ERR => info_RING_ERR
  | .RING_HOP => info_RING_HOP
  | .CODEC_CFG => info_CODEC_CFG
  | .CODEC_EXP => info_CODEC_EXP
  | .CODEC_CMP => info_CODEC_CMP
  | .CODEC_STALL => info_CODEC_STALL
  | .CODEC_ERR => info_CODEC_ERR
  | .CODEC_ERR_LOC => info_CODEC_ERR_LOC
  | .ETH_CTL => info_ETH_CTL
  | .ETH_STATUS => info_ETH_STATUS
  | .ETH_CC => info_ETH_CC
  | .SVC_CFG => info_SVC_CFG
  | .SVC_ARG => info_SVC_ARG
  | .SVC_CMD => info_SVC_CMD
  | .SVC_CMD_STATUS => info_SVC_CMD_STATUS
  | .SVC_GEN => info_SVC_GEN
  | .SVC_CNT => info_SVC_CNT
  | .SVC_TOK => info_SVC_TOK
  | .SVC_ERR => info_SVC_ERR
  | .CHAIN_ADDR => info_CHAIN_ADDR
  | .CHAIN_CFG => info_CHAIN_CFG
  | .CHAIN_STATUS => info_CHAIN_STATUS
  | .CHAIN_CNT => info_CHAIN_CNT
  | .CHAIN_ERR => info_CHAIN_ERR
  | .EVT_STATUS => info_EVT_STATUS
  | .HBM_ERR => info_HBM_ERR
  | .HBM_BAD_LOC => info_HBM_BAD_LOC
  | .HBM_SCRUB => info_HBM_SCRUB
  | .HBM_FREEZE => info_HBM_FREEZE
  | .HBM_IDLE => info_HBM_IDLE
  | .HBM_ECC => info_HBM_ECC
  | .VAULT_CTL => info_VAULT_CTL
  | .VAULT_SLOT => info_VAULT_SLOT
  | .VAULT_ERR => info_VAULT_ERR
  | .VAULT_WEAR => info_VAULT_WEAR
  | .SPM_SEL => info_SPM_SEL
  | .SPM_PERR => info_SPM_PERR
  | .SPM_SLOT => info_SPM_SLOT
  | .SPM_REGION => info_SPM_REGION
  | .GCNT => info_GCNT
  | .GCNT_STATUS => info_GCNT_STATUS
  | .SNAP_AT => info_SNAP_AT
  | .SNAP_SEQ => info_SNAP_SEQ
  | .SNAP_STATUS => info_SNAP_STATUS
  | .SNAP_CTL => info_SNAP_CTL
  | .SNAP_GCNT => info_SNAP_GCNT
  | .SYNC_CFG => info_SYNC_CFG
  | .SYNC_ERR => info_SYNC_ERR
  | .SYNC_ERR_LOC => info_SYNC_ERR_LOC
  | .SYNC_SIG => info_SYNC_SIG
  | .SYNC_WAIT => info_SYNC_WAIT
  | .PWR_CTL => info_PWR_CTL
  | .PWR_STATUS => info_PWR_STATUS
  | .LTOL => info_LTOL
  | .PWR_CAP => info_PWR_CAP
  | .MAINT_CTL => info_MAINT_CTL
  | .PWR_METER => info_PWR_METER
  | .KETTLE_CTL => info_KETTLE_CTL
  | .KETTLE_TEST => info_KETTLE_TEST
  | .KETTLE_RUN => info_KETTLE_RUN
  | .KETTLE_AT => info_KETTLE_AT
  | .KETTLE_STATUS => info_KETTLE_STATUS
  | .THERM_CFG => info_THERM_CFG
  | .THERM_STATUS => info_THERM_STATUS
  | .THERM_CNT => info_THERM_CNT
  | .HLTH_CFG => info_HLTH_CFG
  | .HLTH_MODULE => info_HLTH_MODULE
  | .HLTH_SUB => info_HLTH_SUB
  | .SEC_STATUS => info_SEC_STATUS
  | .SEC_IMG => info_SEC_IMG
  | .SEC_CFG => info_SEC_CFG
  | .SEC_ARG => info_SEC_ARG
  | .SEC_CMD => info_SEC_CMD
  | .SEC_CMD_STATUS => info_SEC_CMD_STATUS
  | .SEC_NONCE => info_SEC_NONCE
  | .SEC_ERR => info_SEC_ERR
  | .SEC_UID => info_SEC_UID
  | .CORE_ID => info_CORE_ID
  | .CORE_ARRAYW => info_CORE_ARRAYW
  | .CORE_ARRAYMODE => info_CORE_ARRAYMODE
  | .CORE_STATUS => info_CORE_STATUS
  | .CORE_BUBBLE_A => info_CORE_BUBBLE_A
  | .CORE_BUBBLE_B => info_CORE_BUBBLE_B
  | .CORE_THIN => info_CORE_THIN
  | .CORE_DUMMY => info_CORE_DUMMY
  | .CORE_TILES => info_CORE_TILES
  | .CORE_HOLD => info_CORE_HOLD
  | .STREAM_STATUS => info_STREAM_STATUS
  | .STREAM_WORDS => info_STREAM_WORDS
  | .STREAM_STALL => info_STREAM_STALL
  | .STREAM_ERR => info_STREAM_ERR
  | .STREAM_ERR_LOC => info_STREAM_ERR_LOC
  | .SEQ_CFG => info_SEQ_CFG
  | .SEQ_STATUS => info_SEQ_STATUS
  | .SLIP_COUNT => info_SLIP_COUNT
  | .SLIP_TIME => info_SLIP_TIME
  | .SLIP_LAST => info_SLIP_LAST
  | .SEQ_ISSUE => info_SEQ_ISSUE
  | .SEQ_CUES => info_SEQ_CUES
  | .SEQ_ERR => info_SEQ_ERR
  | .REG_CLASS => info_REG_CLASS
  | .REG_LEVEL => info_REG_LEVEL
  | .CTX_STATE => info_CTX_STATE

/-- Registers in the order of the chapters, part 0. -/
def regPart0 : List Reg :=
  [.DEV_ID, .DEV_STATE, .DEV_COORD, .SAFE_CTL, .SAFE_STATUS, .RECOV_CFG,
   .COMMIT_SEL, .COMMIT_STATUS, .RECOV_LAST, .BUDDY_STATUS, .COMMIT_CNT, .COMMIT_LOG,
   .RECOV_ERR, .DET_CTL, .DET_STATUS, .DET_MAP, .DET_SEL, .RNG_SEED,
   .DIGEST_WR, .BOOT_STATUS, .PLAN_STATUS, .LOAD_STATUS, .START_CFG, .BOARD_STATUS]

/-- Registers in the order of the chapters, part 1. -/
def regPart1 : List Reg :=
  [.LINK_CTL, .LINK_CFG, .LINK_STATUS, .LINK_PEER, .LINK_LAT, .LINK_FLITS,
   .LINK_RETRY, .LINK_FEC, .LINK_ERR, .LINK_LOST, .LINK_LOSTN, .ROUTE_EPOCH,
   .ROUTE_FLIP_AT, .ROUTE_CFG, .ROUTE_DRAIN, .ROUTE_DROP, .ROUTE_ERR, .ROUTE_CONG,
   .ROUTE_MASK, .SLICE_SEL, .SLICE_INFO, .TRANSIT_PORT, .ROUTE_OLD, .ROUTE_TBL0]

/-- Registers in the order of the chapters, part 2. -/
def regPart2 : List Reg :=
  [.ROUTE_TBL1, .RING_CTL, .RING_PLAN, .RING_DAYS, .RING_SHARE, .RING_SHADOW,
   .RING_LAUNCH, .RING_YEARS, .RING_ANGLE_CW, .RING_ANGLE_CCW, .RING_STATUS, .RING_ERR,
   .RING_HOP, .CODEC_CFG, .CODEC_EXP, .CODEC_CMP, .CODEC_STALL, .CODEC_ERR,
   .CODEC_ERR_LOC, .ETH_CTL, .ETH_STATUS, .ETH_CC, .SVC_CFG, .SVC_ARG]

/-- Registers in the order of the chapters, part 3. -/
def regPart3 : List Reg :=
  [.SVC_CMD, .SVC_CMD_STATUS, .SVC_GEN, .SVC_CNT, .SVC_TOK, .SVC_ERR,
   .CHAIN_ADDR, .CHAIN_CFG, .CHAIN_STATUS, .CHAIN_CNT, .CHAIN_ERR, .EVT_STATUS,
   .HBM_ERR, .HBM_BAD_LOC, .HBM_SCRUB, .HBM_FREEZE, .HBM_IDLE, .HBM_ECC,
   .VAULT_CTL, .VAULT_SLOT, .VAULT_ERR, .VAULT_WEAR, .SPM_SEL, .SPM_PERR]

/-- Registers in the order of the chapters, part 4. -/
def regPart4 : List Reg :=
  [.SPM_SLOT, .SPM_REGION, .GCNT, .GCNT_STATUS, .SNAP_AT, .SNAP_SEQ,
   .SNAP_STATUS, .SNAP_CTL, .SNAP_GCNT, .SYNC_CFG, .SYNC_ERR, .SYNC_ERR_LOC,
   .SYNC_SIG, .SYNC_WAIT, .PWR_CTL, .PWR_STATUS, .LTOL, .PWR_CAP,
   .MAINT_CTL, .PWR_METER, .KETTLE_CTL, .KETTLE_TEST, .KETTLE_RUN, .KETTLE_AT]

/-- Registers in the order of the chapters, part 5. -/
def regPart5 : List Reg :=
  [.KETTLE_STATUS, .THERM_CFG, .THERM_STATUS, .THERM_CNT, .HLTH_CFG, .HLTH_MODULE,
   .HLTH_SUB, .SEC_STATUS, .SEC_IMG, .SEC_CFG, .SEC_ARG, .SEC_CMD,
   .SEC_CMD_STATUS, .SEC_NONCE, .SEC_ERR, .SEC_UID, .CORE_ID, .CORE_ARRAYW,
   .CORE_ARRAYMODE, .CORE_STATUS, .CORE_BUBBLE_A, .CORE_BUBBLE_B, .CORE_THIN, .CORE_DUMMY]

/-- Registers in the order of the chapters, part 6. -/
def regPart6 : List Reg :=
  [.CORE_TILES, .CORE_HOLD, .STREAM_STATUS, .STREAM_WORDS, .STREAM_STALL, .STREAM_ERR,
   .STREAM_ERR_LOC, .SEQ_CFG, .SEQ_STATUS, .SLIP_COUNT, .SLIP_TIME, .SLIP_LAST,
   .SEQ_ISSUE, .SEQ_CUES, .SEQ_ERR, .REG_CLASS, .REG_LEVEL, .CTX_STATE]

/-- Every register, in the order of the chapters. -/
def Reg.all : List Reg :=
  regPart0 ++ regPart1 ++ regPart2 ++ regPart3 ++ regPart4 ++ regPart5 ++ regPart6

/-- A field of a register, as the meanings name it. -/
structure Fld where
  reg : Reg
  hi : Nat
  lo : Nat
  deriving DecidableEq, Repr

abbrev F.DEV_ID_VENDOR : Fld := ⟨.DEV_ID, 63, 48⟩
abbrev F.DEV_ID_PART : Fld := ⟨.DEV_ID, 47, 32⟩
abbrev F.DEV_ID_STEPPING : Fld := ⟨.DEV_ID, 15, 8⟩
abbrev F.DEV_ID_PKG_VARIANT : Fld := ⟨.DEV_ID, 7, 0⟩
abbrev F.DEV_STATE_ENTRY_GCNT : Fld := ⟨.DEV_STATE, 63, 32⟩
abbrev F.DEV_STATE_STATE : Fld := ⟨.DEV_STATE, 7, 4⟩
abbrev F.DEV_STATE_PREV_STATE : Fld := ⟨.DEV_STATE, 3, 0⟩
abbrev F.DEV_COORD_SX : Fld := ⟨.DEV_COORD, 63, 59⟩
abbrev F.DEV_COORD_SY : Fld := ⟨.DEV_COORD, 58, 54⟩
abbrev F.DEV_COORD_SZ : Fld := ⟨.DEV_COORD, 53, 49⟩
abbrev F.DEV_COORD_BLOCK : Fld := ⟨.DEV_COORD, 48, 46⟩
abbrev F.DEV_COORD_VALID : Fld := ⟨.DEV_COORD, 15, 15⟩
abbrev F.DEV_COORD_SPARE : Fld := ⟨.DEV_COORD, 14, 14⟩
abbrev F.DEV_COORD_X : Fld := ⟨.DEV_COORD, 11, 8⟩
abbrev F.DEV_COORD_Y : Fld := ⟨.DEV_COORD, 7, 4⟩
abbrev F.DEV_COORD_Z : Fld := ⟨.DEV_COORD, 3, 0⟩
abbrev F.SAFE_CTL_TO_MAINT : Fld := ⟨.SAFE_CTL, 3, 3⟩
abbrev F.SAFE_CTL_RESUME : Fld := ⟨.SAFE_CTL, 2, 2⟩
abbrev F.SAFE_CTL_REQ_SLICE : Fld := ⟨.SAFE_CTL, 1, 1⟩
abbrev F.SAFE_CTL_REQ_DEVICE : Fld := ⟨.SAFE_CTL, 0, 0⟩
abbrev F.SAFE_STATUS_ENTRY_GCNT : Fld := ⟨.SAFE_STATUS, 63, 32⟩
abbrev F.SAFE_STATUS_CAUSE : Fld := ⟨.SAFE_STATUS, 15, 8⟩
abbrev F.SAFE_STATUS_RELINQUISHED : Fld := ⟨.SAFE_STATUS, 1, 1⟩
abbrev F.SAFE_STATUS_FAULT_N : Fld := ⟨.SAFE_STATUS, 0, 0⟩
abbrev F.RECOV_CFG_BOUND : Fld := ⟨.RECOV_CFG, 63, 48⟩
abbrev F.RECOV_CFG_SILENT_TO : Fld := ⟨.RECOV_CFG, 47, 40⟩
abbrev F.RECOV_CFG_REPLAY_MAX : Fld := ⟨.RECOV_CFG, 39, 36⟩
abbrev F.COMMIT_SEL_INDEX : Fld := ⟨.COMMIT_SEL, 7, 0⟩
abbrev F.COMMIT_STATUS_COMMITTED : Fld := ⟨.COMMIT_STATUS, 63, 32⟩
abbrev F.COMMIT_STATUS_RSTATE : Fld := ⟨.COMMIT_STATUS, 28, 26⟩
abbrev F.COMMIT_STATUS_UNCOMMITTED : Fld := ⟨.COMMIT_STATUS, 25, 24⟩
abbrev F.COMMIT_STATUS_HOME : Fld := ⟨.COMMIT_STATUS, 23, 23⟩
abbrev F.COMMIT_STATUS_VALID : Fld := ⟨.COMMIT_STATUS, 22, 22⟩
abbrev F.COMMIT_STATUS_PKEY : Fld := ⟨.COMMIT_STATUS, 11, 0⟩
abbrev F.RECOV_LAST_FENCE_GCNT : Fld := ⟨.RECOV_LAST, 63, 32⟩
abbrev F.RECOV_LAST_DURATION : Fld := ⟨.RECOV_LAST, 31, 16⟩
abbrev F.RECOV_LAST_REPLAYS : Fld := ⟨.RECOV_LAST, 15, 8⟩
abbrev F.RECOV_LAST_CLASS : Fld := ⟨.RECOV_LAST, 7, 0⟩
abbrev F.BUDDY_STATUS_BUDDY : Fld := ⟨.BUDDY_STATUS, 63, 52⟩
abbrev F.BUDDY_STATUS_WARD : Fld := ⟨.BUDDY_STATUS, 51, 40⟩
abbrev F.BUDDY_STATUS_BUDDY_V : Fld := ⟨.BUDDY_STATUS, 39, 39⟩
abbrev F.BUDDY_STATUS_WARD_V : Fld := ⟨.BUDDY_STATUS, 38, 38⟩
abbrev F.BUDDY_STATUS_MIRROR_OK : Fld := ⟨.BUDDY_STATUS, 37, 37⟩
abbrev F.BUDDY_STATUS_REBUILDING : Fld := ⟨.BUDDY_STATUS, 36, 36⟩
abbrev F.BUDDY_STATUS_REBUILT : Fld := ⟨.BUDDY_STATUS, 31, 0⟩
abbrev F.COMMIT_CNT_COMMITS : Fld := ⟨.COMMIT_CNT, 63, 40⟩
abbrev F.COMMIT_CNT_RECOVERIES : Fld := ⟨.COMMIT_CNT, 39, 32⟩
abbrev F.COMMIT_CNT_HOLD_CYCLES : Fld := ⟨.COMMIT_CNT, 31, 0⟩
abbrev F.COMMIT_LOG_UNDO_PEAK : Fld := ⟨.COMMIT_LOG, 63, 32⟩
abbrev F.COMMIT_LOG_STAGED_PEAK : Fld := ⟨.COMMIT_LOG, 31, 0⟩
abbrev F.RECOV_ERR_FAULTS : Fld := ⟨.RECOV_ERR, 63, 32⟩
abbrev F.RECOV_ERR_STATE_LOST : Fld := ⟨.RECOV_ERR, 7, 7⟩
abbrev F.RECOV_ERR_BOUND : Fld := ⟨.RECOV_ERR, 6, 6⟩
abbrev F.RECOV_ERR_LOG_FULL : Fld := ⟨.RECOV_ERR, 5, 5⟩
abbrev F.RECOV_ERR_REPLAY_MAX : Fld := ⟨.RECOV_ERR, 4, 4⟩
abbrev F.RECOV_ERR_SILENT : Fld := ⟨.RECOV_ERR, 3, 3⟩
abbrev F.RECOV_ERR_MODULE : Fld := ⟨.RECOV_ERR, 2, 2⟩
abbrev F.RECOV_ERR_LINK : Fld := ⟨.RECOV_ERR, 1, 1⟩
abbrev F.RECOV_ERR_STEP : Fld := ⟨.RECOV_ERR, 0, 0⟩
abbrev F.DET_CTL_LOG_REPLAY : Fld := ⟨.DET_CTL, 1, 1⟩
abbrev F.DET_CTL_DET_MODE : Fld := ⟨.DET_CTL, 0, 0⟩
abbrev F.DET_STATUS_EVENTS : Fld := ⟨.DET_STATUS, 63, 32⟩
abbrev F.DET_STATUS_FAILED : Fld := ⟨.DET_STATUS, 6, 6⟩
abbrev F.DET_STATUS_TIMEOUT : Fld := ⟨.DET_STATUS, 5, 5⟩
abbrev F.DET_STATUS_MAP_SPARE : Fld := ⟨.DET_STATUS, 4, 4⟩
abbrev F.DET_STATUS_MAP_NEW : Fld := ⟨.DET_STATUS, 3, 3⟩
abbrev F.DET_STATUS_KETTLE : Fld := ⟨.DET_STATUS, 2, 2⟩
abbrev F.DET_STATUS_THROTTLE : Fld := ⟨.DET_STATUS, 1, 1⟩
abbrev F.DET_STATUS_POINT : Fld := ⟨.DET_STATUS, 0, 0⟩
abbrev F.DET_MAP_NARROWED : Fld := ⟨.DET_MAP, 47, 32⟩
abbrev F.DET_MAP_MAP_CRC : Fld := ⟨.DET_MAP, 31, 0⟩
abbrev F.DET_SEL_INDEX : Fld := ⟨.DET_SEL, 7, 0⟩
abbrev F.RNG_SEED_SEED : Fld := ⟨.RNG_SEED, 63, 0⟩
abbrev F.DIGEST_WR_RECORDS : Fld := ⟨.DIGEST_WR, 63, 0⟩
abbrev F.BOOT_STATUS_ELAPSED_MS : Fld := ⟨.BOOT_STATUS, 63, 32⟩
abbrev F.BOOT_STATUS_STEP : Fld := ⟨.BOOT_STATUS, 31, 28⟩
abbrev F.BOOT_STATUS_SLOT : Fld := ⟨.BOOT_STATUS, 7, 7⟩
abbrev F.BOOT_STATUS_FALLBACK : Fld := ⟨.BOOT_STATUS, 6, 6⟩
abbrev F.BOOT_STATUS_SLOT1_FAIL : Fld := ⟨.BOOT_STATUS, 5, 5⟩
abbrev F.BOOT_STATUS_SLOT0_FAIL : Fld := ⟨.BOOT_STATUS, 4, 4⟩
abbrev F.PLAN_STATUS_VACANT : Fld := ⟨.PLAN_STATUS, 63, 54⟩
abbrev F.PLAN_STATUS_PARKED : Fld := ⟨.PLAN_STATUS, 53, 44⟩
abbrev F.PLAN_STATUS_VARIANT : Fld := ⟨.PLAN_STATUS, 43, 42⟩
abbrev F.PLAN_STATUS_VARIANT_V : Fld := ⟨.PLAN_STATUS, 41, 41⟩
abbrev F.PLAN_STATUS_REASON : Fld := ⟨.PLAN_STATUS, 40, 37⟩
abbrev F.PLAN_STATUS_MISWIRED : Fld := ⟨.PLAN_STATUS, 25, 16⟩
abbrev F.PLAN_STATUS_FILLED : Fld := ⟨.PLAN_STATUS, 9, 0⟩
abbrev F.LOAD_STATUS_LOADED_MIB : Fld := ⟨.LOAD_STATUS, 63, 32⟩
abbrev F.LOAD_STATUS_REBUILDS : Fld := ⟨.LOAD_STATUS, 31, 16⟩
abbrev F.LOAD_STATUS_SECTION : Fld := ⟨.LOAD_STATUS, 15, 8⟩
abbrev F.LOAD_STATUS_CTX_LOADED : Fld := ⟨.LOAD_STATUS, 6, 3⟩
abbrev F.LOAD_STATUS_FAILED : Fld := ⟨.LOAD_STATUS, 2, 2⟩
abbrev F.LOAD_STATUS_READER : Fld := ⟨.LOAD_STATUS, 1, 1⟩
abbrev F.LOAD_STATUS_DONE : Fld := ⟨.LOAD_STATUS, 0, 0⟩
abbrev F.START_CFG_SPARE_WAIT : Fld := ⟨.START_CFG, 15, 0⟩
abbrev F.BOARD_STATUS_VIN_MV : Fld := ⟨.BOARD_STATUS, 63, 32⟩
abbrev F.BOARD_STATUS_CAUSE : Fld := ⟨.BOARD_STATUS, 11, 8⟩
abbrev F.BOARD_STATUS_VIN_LOW : Fld := ⟨.BOARD_STATUS, 7, 7⟩
abbrev F.BOARD_STATUS_REFCLK_LOST : Fld := ⟨.BOARD_STATUS, 6, 6⟩
abbrev F.BOARD_STATUS_SEED_N : Fld := ⟨.BOARD_STATUS, 3, 3⟩
abbrev F.BOARD_STATUS_FLASH_DUAL : Fld := ⟨.BOARD_STATUS, 2, 2⟩
abbrev F.BOARD_STATUS_I3C_SA1 : Fld := ⟨.BOARD_STATUS, 1, 1⟩
abbrev F.BOARD_STATUS_I3C_SA0 : Fld := ⟨.BOARD_STATUS, 0, 0⟩
abbrev F.LINK_CTL_KILL : Fld := ⟨.LINK_CTL, 2, 2⟩
abbrev F.LINK_CTL_RETRAIN : Fld := ⟨.LINK_CTL, 1, 1⟩
abbrev F.LINK_CTL_ENABLE : Fld := ⟨.LINK_CTL, 0, 0⟩
abbrev F.LINK_CFG_SILENCE_TO : Fld := ⟨.LINK_CFG, 63, 54⟩
abbrev F.LINK_CFG_REPLAY_MAX : Fld := ⟨.LINK_CFG, 53, 48⟩
abbrev F.LINK_CFG_REPLAY_TO : Fld := ⟨.LINK_CFG, 47, 32⟩
abbrev F.LINK_CFG_DEG_RATE : Fld := ⟨.LINK_CFG, 31, 24⟩
abbrev F.LINK_CFG_AUTO : Fld := ⟨.LINK_CFG, 2, 2⟩
abbrev F.LINK_CFG_DEG_DEAD : Fld := ⟨.LINK_CFG, 1, 1⟩
abbrev F.LINK_STATUS_ENTRY_GCNT : Fld := ⟨.LINK_STATUS, 63, 32⟩
abbrev F.LINK_STATUS_STATE : Fld := ⟨.LINK_STATUS, 7, 4⟩
abbrev F.LINK_STATUS_ADMITTED : Fld := ⟨.LINK_STATUS, 3, 3⟩
abbrev F.LINK_STATUS_FENCE_RX : Fld := ⟨.LINK_STATUS, 2, 2⟩
abbrev F.LINK_STATUS_FENCE_TX : Fld := ⟨.LINK_STATUS, 1, 1⟩
abbrev F.LINK_STATUS_DEGRADED : Fld := ⟨.LINK_STATUS, 0, 0⟩
abbrev F.LINK_PEER_VALID : Fld := ⟨.LINK_PEER, 63, 63⟩
abbrev F.LINK_PEER_PORT : Fld := ⟨.LINK_PEER, 58, 56⟩
abbrev F.LINK_PEER_COORD : Fld := ⟨.LINK_PEER, 51, 40⟩
abbrev F.LINK_PEER_COORD_V : Fld := ⟨.LINK_PEER, 39, 39⟩
abbrev F.LINK_PEER_SEED : Fld := ⟨.LINK_PEER, 38, 38⟩
abbrev F.LINK_PEER_UID_LO : Fld := ⟨.LINK_PEER, 31, 0⟩
abbrev F.LINK_LAT_ASYM : Fld := ⟨.LINK_LAT, 63, 32⟩
abbrev F.LINK_LAT_LAT : Fld := ⟨.LINK_LAT, 31, 0⟩
abbrev F.LINK_FLITS_TX : Fld := ⟨.LINK_FLITS, 63, 32⟩
abbrev F.LINK_FLITS_RX : Fld := ⟨.LINK_FLITS, 31, 0⟩
abbrev F.LINK_RETRY_EPISODES : Fld := ⟨.LINK_RETRY, 63, 32⟩
abbrev F.LINK_RETRY_FLITS : Fld := ⟨.LINK_RETRY, 31, 0⟩
abbrev F.LINK_FEC_CORRECTED : Fld := ⟨.LINK_FEC, 63, 32⟩
abbrev F.LINK_FEC_UNCORRECTABLE : Fld := ⟨.LINK_FEC, 31, 0⟩
abbrev F.LINK_ERR_FAULTS : Fld := ⟨.LINK_ERR, 63, 32⟩
abbrev F.LINK_ERR_KILLED : Fld := ⟨.LINK_ERR, 7, 7⟩
abbrev F.LINK_ERR_PROTOCOL : Fld := ⟨.LINK_ERR, 6, 6⟩
abbrev F.LINK_ERR_REPLAY_MAX : Fld := ⟨.LINK_ERR, 5, 5⟩
abbrev F.LINK_ERR_SILENCE : Fld := ⟨.LINK_ERR, 4, 4⟩
abbrev F.LINK_ERR_LOCK : Fld := ⟨.LINK_ERR, 3, 3⟩
abbrev F.LINK_ERR_DEGRADED : Fld := ⟨.LINK_ERR, 2, 2⟩
abbrev F.LINK_ERR_CRC : Fld := ⟨.LINK_ERR, 1, 1⟩
abbrev F.LINK_ERR_DELIVERY : Fld := ⟨.LINK_ERR, 0, 0⟩
abbrev F.LINK_LOST_DEATH_GCNT : Fld := ⟨.LINK_LOST, 63, 32⟩
abbrev F.LINK_LOST_ENTRIES : Fld := ⟨.LINK_LOST, 31, 24⟩
abbrev F.LINK_LOST_UNATTRIBUTED : Fld := ⟨.LINK_LOST, 23, 0⟩
abbrev F.LINK_LOSTN_PKEY : Fld := ⟨.LINK_LOSTN, 63, 52⟩
abbrev F.LINK_LOSTN_FLITS : Fld := ⟨.LINK_LOSTN, 47, 32⟩
abbrev F.LINK_LOSTN_ITEM : Fld := ⟨.LINK_LOSTN, 31, 0⟩
abbrev F.ROUTE_EPOCH_FLIPS : Fld := ⟨.ROUTE_EPOCH, 63, 32⟩
abbrev F.ROUTE_EPOCH_MAP_SEQ : Fld := ⟨.ROUTE_EPOCH, 31, 16⟩
abbrev F.ROUTE_EPOCH_HOLD_ACTIVE : Fld := ⟨.ROUTE_EPOCH, 4, 4⟩
abbrev F.ROUTE_EPOCH_DRAINING : Fld := ⟨.ROUTE_EPOCH, 3, 3⟩
abbrev F.ROUTE_EPOCH_NEXT_VALID : Fld := ⟨.ROUTE_EPOCH, 2, 2⟩
abbrev F.ROUTE_EPOCH_COORD : Fld := ⟨.ROUTE_EPOCH, 1, 1⟩
abbrev F.ROUTE_EPOCH_CUR : Fld := ⟨.ROUTE_EPOCH, 0, 0⟩
abbrev F.ROUTE_FLIP_AT_GCNT : Fld := ⟨.ROUTE_FLIP_AT, 63, 0⟩
abbrev F.ROUTE_CFG_CE_TH : Fld := ⟨.ROUTE_CFG, 63, 56⟩
abbrev F.ROUTE_CFG_CNP_GAP : Fld := ⟨.ROUTE_CFG, 55, 48⟩
abbrev F.ROUTE_CFG_RECOVER_T : Fld := ⟨.ROUTE_CFG, 47, 40⟩
abbrev F.ROUTE_CFG_ADD : Fld := ⟨.ROUTE_CFG, 39, 32⟩
abbrev F.ROUTE_CFG_RMIN : Fld := ⟨.ROUTE_CFG, 31, 24⟩
abbrev F.ROUTE_CFG_DRAIN_TO : Fld := ⟨.ROUTE_CFG, 23, 8⟩
abbrev F.ROUTE_CFG_TRANSIT_MAX : Fld := ⟨.ROUTE_CFG, 7, 0⟩
abbrev F.ROUTE_DRAIN_CHECK_GCNT : Fld := ⟨.ROUTE_DRAIN, 63, 32⟩
abbrev F.ROUTE_DRAIN_HELD : Fld := ⟨.ROUTE_DRAIN, 31, 0⟩
abbrev F.ROUTE_DROP_UNREACH : Fld := ⟨.ROUTE_DROP, 63, 48⟩
abbrev F.ROUTE_DROP_PKEY : Fld := ⟨.ROUTE_DROP, 47, 32⟩
abbrev F.ROUTE_DROP_TRANSIT : Fld := ⟨.ROUTE_DROP, 31, 16⟩
abbrev F.ROUTE_DROP_EPOCH : Fld := ⟨.ROUTE_DROP, 15, 0⟩
abbrev F.ROUTE_ERR_FAULTS : Fld := ⟨.ROUTE_ERR, 63, 32⟩
abbrev F.ROUTE_ERR_ALLOC : Fld := ⟨.ROUTE_ERR, 5, 5⟩
abbrev F.ROUTE_ERR_DRAIN_TO : Fld := ⟨.ROUTE_ERR, 4, 4⟩
abbrev F.ROUTE_ERR_EPOCH : Fld := ⟨.ROUTE_ERR, 3, 3⟩
abbrev F.ROUTE_ERR_TRANSIT : Fld := ⟨.ROUTE_ERR, 2, 2⟩
abbrev F.ROUTE_ERR_PKEY : Fld := ⟨.ROUTE_ERR, 1, 1⟩
abbrev F.ROUTE_ERR_UNREACH : Fld := ⟨.ROUTE_ERR, 0, 0⟩
abbrev F.ROUTE_CONG_MARKED : Fld := ⟨.ROUTE_CONG, 63, 32⟩
abbrev F.ROUTE_CONG_CNP_TX : Fld := ⟨.ROUTE_CONG, 31, 16⟩
abbrev F.ROUTE_CONG_CNP_RX : Fld := ⟨.ROUTE_CONG, 15, 0⟩
abbrev F.ROUTE_MASK_MASK1 : Fld := ⟨.ROUTE_MASK, 13, 8⟩
abbrev F.ROUTE_MASK_MASK0 : Fld := ⟨.ROUTE_MASK, 5, 0⟩
abbrev F.SLICE_SEL_INDEX : Fld := ⟨.SLICE_SEL, 7, 0⟩
abbrev F.SLICE_INFO_VALID : Fld := ⟨.SLICE_INFO, 63, 63⟩
abbrev F.SLICE_INFO_ROLE : Fld := ⟨.SLICE_INFO, 62, 61⟩
abbrev F.SLICE_INFO_FENCED : Fld := ⟨.SLICE_INFO, 60, 60⟩
abbrev F.SLICE_INFO_PKEY : Fld := ⟨.SLICE_INFO, 59, 48⟩
abbrev F.SLICE_INFO_GROUP : Fld := ⟨.SLICE_INFO, 47, 40⟩
abbrev F.TRANSIT_PORT_HOST_USE : Fld := ⟨.TRANSIT_PORT, 63, 56⟩
abbrev F.TRANSIT_PORT_TRANSIT_SUM : Fld := ⟨.TRANSIT_PORT, 55, 48⟩
abbrev F.TRANSIT_PORT_TRANSIT_PKTS : Fld := ⟨.TRANSIT_PORT, 31, 0⟩
abbrev F.ROUTE_OLD_TX : Fld := ⟨.ROUTE_OLD, 63, 32⟩
abbrev F.ROUTE_OLD_RX : Fld := ⟨.ROUTE_OLD, 31, 0⟩
abbrev F.ROUTE_TBL0_ENTRIES : Fld := ⟨.ROUTE_TBL0, 63, 0⟩
abbrev F.ROUTE_TBL1_ENTRIES : Fld := ⟨.ROUTE_TBL1, 63, 0⟩
abbrev F.RING_CTL_PKEY : Fld := ⟨.RING_CTL, 63, 52⟩
abbrev F.RING_CTL_POS : Fld := ⟨.RING_CTL, 51, 48⟩
abbrev F.RING_CTL_LEN : Fld := ⟨.RING_CTL, 47, 43⟩
abbrev F.RING_CTL_SECTION : Fld := ⟨.RING_CTL, 42, 38⟩
abbrev F.RING_CTL_BASE_GEN : Fld := ⟨.RING_CTL, 31, 16⟩
abbrev F.RING_CTL_MODE : Fld := ⟨.RING_CTL, 7, 6⟩
abbrev F.RING_CTL_ARM : Fld := ⟨.RING_CTL, 2, 2⟩
abbrev F.RING_CTL_STOP : Fld := ⟨.RING_CTL, 1, 1⟩
abbrev F.RING_CTL_LIVE : Fld := ⟨.RING_CTL, 0, 0⟩
abbrev F.RING_PLAN_CW_FIRST : Fld := ⟨.RING_PLAN, 63, 60⟩
abbrev F.RING_PLAN_CCW_FIRST : Fld := ⟨.RING_PLAN, 59, 56⟩
abbrev F.RING_DAYS_DAYS_CCW : Fld := ⟨.RING_DAYS, 63, 32⟩
abbrev F.RING_DAYS_DAYS_CW : Fld := ⟨.RING_DAYS, 31, 0⟩
abbrev F.RING_SHARE_SIZE : Fld := ⟨.RING_SHARE, 63, 32⟩
abbrev F.RING_SHARE_BASE : Fld := ⟨.RING_SHARE, 31, 0⟩
abbrev F.RING_SHADOW_SIZE : Fld := ⟨.RING_SHADOW, 63, 32⟩
abbrev F.RING_SHADOW_BASE : Fld := ⟨.RING_SHADOW, 31, 0⟩
abbrev F.RING_LAUNCH_GCNT : Fld := ⟨.RING_LAUNCH, 63, 0⟩
abbrev F.RING_YEARS_FIRST_YEAR : Fld := ⟨.RING_YEARS, 63, 32⟩
abbrev F.RING_YEARS_COUNT : Fld := ⟨.RING_YEARS, 31, 0⟩
abbrev F.RING_ANGLE_CW_YEAR : Fld := ⟨.RING_ANGLE_CW, 63, 32⟩
abbrev F.RING_ANGLE_CW_DAY : Fld := ⟨.RING_ANGLE_CW, 31, 0⟩
abbrev F.RING_ANGLE_CCW_YEAR : Fld := ⟨.RING_ANGLE_CCW, 63, 32⟩
abbrev F.RING_ANGLE_CCW_DAY : Fld := ⟨.RING_ANGLE_CCW, 31, 0⟩
abbrev F.RING_STATUS_YEARS_DONE : Fld := ⟨.RING_STATUS, 63, 32⟩
abbrev F.RING_STATUS_SHADOW_SEL : Fld := ⟨.RING_STATUS, 7, 7⟩
abbrev F.RING_STATUS_LATE_LAUNCH : Fld := ⟨.RING_STATUS, 6, 6⟩
abbrev F.RING_STATUS_VALID_CCW : Fld := ⟨.RING_STATUS, 5, 5⟩
abbrev F.RING_STATUS_VALID_CW : Fld := ⟨.RING_STATUS, 4, 4⟩
abbrev F.RING_STATUS_BWD : Fld := ⟨.RING_STATUS, 3, 3⟩
abbrev F.RING_STATUS_STATE : Fld := ⟨.RING_STATUS, 1, 0⟩
abbrev F.RING_ERR_FAULTS : Fld := ⟨.RING_ERR, 63, 32⟩
abbrev F.RING_ERR_ELEMS : Fld := ⟨.RING_ERR, 9, 9⟩
abbrev F.RING_ERR_INCOMPLETE : Fld := ⟨.RING_ERR, 8, 8⟩
abbrev F.RING_ERR_MISMATCH : Fld := ⟨.RING_ERR, 7, 7⟩
abbrev F.RING_ERR_RESERVED_VAL : Fld := ⟨.RING_ERR, 6, 6⟩
abbrev F.RING_ERR_ORDER : Fld := ⟨.RING_ERR, 5, 5⟩
abbrev F.RING_ERR_OWNER : Fld := ⟨.RING_ERR, 4, 4⟩
abbrev F.RING_ERR_HOPS : Fld := ⟨.RING_ERR, 3, 3⟩
abbrev F.RING_ERR_GEN : Fld := ⟨.RING_ERR, 2, 2⟩
abbrev F.RING_ERR_KEY : Fld := ⟨.RING_ERR, 1, 1⟩
abbrev F.RING_ERR_UNARMED : Fld := ⟨.RING_ERR, 0, 0⟩
abbrev F.RING_HOP_HOP_CCW : Fld := ⟨.RING_HOP, 63, 32⟩
abbrev F.RING_HOP_HOP_CW : Fld := ⟨.RING_HOP, 31, 0⟩
abbrev F.CODEC_CFG_TABLES : Fld := ⟨.CODEC_CFG, 15, 0⟩
abbrev F.CODEC_EXP_BLOCKS : Fld := ⟨.CODEC_EXP, 63, 0⟩
abbrev F.CODEC_CMP_BLOCKS : Fld := ⟨.CODEC_CMP, 63, 0⟩
abbrev F.CODEC_STALL_LANE_CYCLES : Fld := ⟨.CODEC_STALL, 63, 0⟩
abbrev F.CODEC_ERR_FAULTS : Fld := ⟨.CODEC_ERR, 63, 32⟩
abbrev F.CODEC_ERR_HEADER : Fld := ⟨.CODEC_ERR, 7, 7⟩
abbrev F.CODEC_ERR_TABLE : Fld := ⟨.CODEC_ERR, 6, 6⟩
abbrev F.CODEC_ERR_CAPACITY : Fld := ⟨.CODEC_ERR, 5, 5⟩
abbrev F.CODEC_ERR_TAIL_RANGE : Fld := ⟨.CODEC_ERR, 4, 4⟩
abbrev F.CODEC_ERR_TAIL_FLAG : Fld := ⟨.CODEC_ERR, 3, 3⟩
abbrev F.CODEC_ERR_LONG : Fld := ⟨.CODEC_ERR, 2, 2⟩
abbrev F.CODEC_ERR_SHORT : Fld := ⟨.CODEC_ERR, 1, 1⟩
abbrev F.CODEC_ERR_ZERO : Fld := ⟨.CODEC_ERR, 0, 0⟩
abbrev F.CODEC_ERR_LOC_TAG : Fld := ⟨.CODEC_ERR_LOC, 63, 32⟩
abbrev F.CODEC_ERR_LOC_SOURCE : Fld := ⟨.CODEC_ERR_LOC, 31, 28⟩
abbrev F.CODEC_ERR_LOC_DIR : Fld := ⟨.CODEC_ERR_LOC, 27, 27⟩
abbrev F.CODEC_ERR_LOC_FIRST : Fld := ⟨.CODEC_ERR_LOC, 26, 24⟩
abbrev F.CODEC_ERR_LOC_LAYER : Fld := ⟨.CODEC_ERR_LOC, 15, 0⟩
abbrev F.ETH_CTL_PFC_PRIO : Fld := ⟨.ETH_CTL, 59, 57⟩
abbrev F.ETH_CTL_PFC_EN : Fld := ⟨.ETH_CTL, 56, 56⟩
abbrev F.ETH_CTL_MTU : Fld := ⟨.ETH_CTL, 47, 32⟩
abbrev F.ETH_CTL_MEDIA : Fld := ⟨.ETH_CTL, 7, 4⟩
abbrev F.ETH_CTL_MODE : Fld := ⟨.ETH_CTL, 3, 1⟩
abbrev F.ETH_CTL_ENABLE : Fld := ⟨.ETH_CTL, 0, 0⟩
abbrev F.ETH_STATUS_DROPPED : Fld := ⟨.ETH_STATUS, 63, 32⟩
abbrev F.ETH_STATUS_UP : Fld := ⟨.ETH_STATUS, 7, 4⟩
abbrev F.ETH_STATUS_PFC_RX : Fld := ⟨.ETH_STATUS, 3, 3⟩
abbrev F.ETH_STATUS_AN_DONE : Fld := ⟨.ETH_STATUS, 2, 2⟩
abbrev F.ETH_CC_CNP_GAP : Fld := ⟨.ETH_CC, 63, 56⟩
abbrev F.ETH_CC_RECOVER_T : Fld := ⟨.ETH_CC, 55, 48⟩
abbrev F.ETH_CC_ADD : Fld := ⟨.ETH_CC, 47, 40⟩
abbrev F.ETH_CC_RMIN : Fld := ⟨.ETH_CC, 39, 32⟩
abbrev F.ETH_CC_PFC_XOFF : Fld := ⟨.ETH_CC, 31, 16⟩
abbrev F.SVC_CFG_QP_MAX_M1 : Fld := ⟨.SVC_CFG, 63, 48⟩
abbrev F.SVC_CFG_DRAIN_STEPS : Fld := ⟨.SVC_CFG, 47, 32⟩
abbrev F.SVC_CFG_QP_TABLE : Fld := ⟨.SVC_CFG, 31, 0⟩
abbrev F.SVC_ARG_ARG : Fld := ⟨.SVC_ARG, 63, 0⟩
abbrev F.SVC_CMD_OPCODE : Fld := ⟨.SVC_CMD, 7, 0⟩
abbrev F.SVC_CMD_STATUS_SEQ : Fld := ⟨.SVC_CMD_STATUS, 63, 32⟩
abbrev F.SVC_CMD_STATUS_RESULT : Fld := ⟨.SVC_CMD_STATUS, 15, 8⟩
abbrev F.SVC_CMD_STATUS_BUSY : Fld := ⟨.SVC_CMD_STATUS, 0, 0⟩
abbrev F.SVC_GEN_BASE_CUR : Fld := ⟨.SVC_GEN, 63, 48⟩
abbrev F.SVC_GEN_BASE_NEXT : Fld := ⟨.SVC_GEN, 47, 32⟩
abbrev F.SVC_GEN_DRAINING : Fld := ⟨.SVC_GEN, 31, 31⟩
abbrev F.SVC_GEN_DRAIN_LEFT : Fld := ⟨.SVC_GEN, 30, 0⟩
abbrev F.SVC_CNT_ADMITTED : Fld := ⟨.SVC_CNT, 63, 32⟩
abbrev F.SVC_CNT_CANCEL_MISS : Fld := ⟨.SVC_CNT, 31, 16⟩
abbrev F.SVC_CNT_UNDELIVERED : Fld := ⟨.SVC_CNT, 15, 0⟩
abbrev F.SVC_TOK_TOKENS : Fld := ⟨.SVC_TOK, 63, 0⟩
abbrev F.SVC_ERR_FAULTS : Fld := ⟨.SVC_ERR, 63, 32⟩
abbrev F.SVC_ERR_INVALID : Fld := ⟨.SVC_ERR, 6, 6⟩
abbrev F.SVC_ERR_UNDELIVERED : Fld := ⟨.SVC_ERR, 5, 5⟩
abbrev F.SVC_ERR_TAIL : Fld := ⟨.SVC_ERR, 4, 4⟩
abbrev F.SVC_ERR_ACCESS : Fld := ⟨.SVC_ERR, 3, 3⟩
abbrev F.SVC_ERR_RETRY : Fld := ⟨.SVC_ERR, 2, 2⟩
abbrev F.SVC_ERR_PULL : Fld := ⟨.SVC_ERR, 1, 1⟩
abbrev F.SVC_ERR_DRAIN : Fld := ⟨.SVC_ERR, 0, 0⟩
abbrev F.CHAIN_ADDR_VALID : Fld := ⟨.CHAIN_ADDR, 15, 15⟩
abbrev F.CHAIN_ADDR_LENGTH : Fld := ⟨.CHAIN_ADDR, 12, 8⟩
abbrev F.CHAIN_ADDR_ADDR : Fld := ⟨.CHAIN_ADDR, 4, 0⟩
abbrev F.CHAIN_CFG_RETRY_TO : Fld := ⟨.CHAIN_CFG, 63, 48⟩
abbrev F.CHAIN_CFG_RETRY_MAX : Fld := ⟨.CHAIN_CFG, 47, 44⟩
abbrev F.CHAIN_STATUS_IN_STATE : Fld := ⟨.CHAIN_STATUS, 7, 6⟩
abbrev F.CHAIN_STATUS_OUT_STATE : Fld := ⟨.CHAIN_STATUS, 5, 4⟩
abbrev F.CHAIN_STATUS_BEYOND : Fld := ⟨.CHAIN_STATUS, 0, 0⟩
abbrev F.CHAIN_CNT_RX : Fld := ⟨.CHAIN_CNT, 63, 32⟩
abbrev F.CHAIN_CNT_RESENDS : Fld := ⟨.CHAIN_CNT, 31, 0⟩
abbrev F.CHAIN_ERR_FAULTS : Fld := ⟨.CHAIN_ERR, 63, 32⟩
abbrev F.CHAIN_ERR_OUT_DEAD : Fld := ⟨.CHAIN_ERR, 5, 5⟩
abbrev F.CHAIN_ERR_IN_DEAD : Fld := ⟨.CHAIN_ERR, 4, 4⟩
abbrev F.CHAIN_ERR_EVENT_LOST : Fld := ⟨.CHAIN_ERR, 3, 3⟩
abbrev F.CHAIN_ERR_RETRY_EXHAUSTED : Fld := ⟨.CHAIN_ERR, 2, 2⟩
abbrev F.CHAIN_ERR_MALFORMED : Fld := ⟨.CHAIN_ERR, 1, 1⟩
abbrev F.CHAIN_ERR_CRC : Fld := ⟨.CHAIN_ERR, 0, 0⟩
abbrev F.EVT_STATUS_SENT : Fld := ⟨.EVT_STATUS, 63, 32⟩
abbrev F.EVT_STATUS_HELD : Fld := ⟨.EVT_STATUS, 31, 16⟩
abbrev F.EVT_STATUS_LOST : Fld := ⟨.EVT_STATUS, 15, 0⟩
abbrev F.HBM_ERR_REREADS_OK : Fld := ⟨.HBM_ERR, 63, 32⟩
abbrev F.HBM_ERR_BAD_BLOCKS : Fld := ⟨.HBM_ERR, 31, 16⟩
abbrev F.HBM_ERR_LIST_FULL : Fld := ⟨.HBM_ERR, 3, 3⟩
abbrev F.HBM_ERR_REPAIR : Fld := ⟨.HBM_ERR, 2, 2⟩
abbrev F.HBM_ERR_BAD : Fld := ⟨.HBM_ERR, 1, 1⟩
abbrev F.HBM_ERR_REREAD : Fld := ⟨.HBM_ERR, 0, 0⟩
abbrev F.HBM_BAD_LOC_PORT : Fld := ⟨.HBM_BAD_LOC, 63, 61⟩
abbrev F.HBM_BAD_LOC_BLOCK : Fld := ⟨.HBM_BAD_LOC, 31, 0⟩
abbrev F.HBM_SCRUB_PASSES : Fld := ⟨.HBM_SCRUB, 63, 32⟩
abbrev F.HBM_SCRUB_EN : Fld := ⟨.HBM_SCRUB, 31, 31⟩
abbrev F.HBM_SCRUB_INTERVAL : Fld := ⟨.HBM_SCRUB, 15, 0⟩
abbrev F.HBM_FREEZE_CH : Fld := ⟨.HBM_FREEZE, 63, 0⟩
abbrev F.HBM_IDLE_CH : Fld := ⟨.HBM_IDLE, 63, 0⟩
abbrev F.HBM_ECC_CORRECTED : Fld := ⟨.HBM_ECC, 63, 32⟩
abbrev F.HBM_ECC_UNCORRECTED : Fld := ⟨.HBM_ECC, 31, 0⟩
abbrev F.VAULT_CTL_DEADLINE : Fld := ⟨.VAULT_CTL, 31, 16⟩
abbrev F.VAULT_CTL_INSTALL : Fld := ⟨.VAULT_CTL, 1, 1⟩
abbrev F.VAULT_CTL_UNLOCKED : Fld := ⟨.VAULT_CTL, 0, 0⟩
abbrev F.VAULT_SLOT_PRESENT : Fld := ⟨.VAULT_SLOT, 63, 63⟩
abbrev F.VAULT_SLOT_GEN : Fld := ⟨.VAULT_SLOT, 60, 45⟩
abbrev F.VAULT_SLOT_SIZE : Fld := ⟨.VAULT_SLOT, 44, 22⟩
abbrev F.VAULT_SLOT_BASE : Fld := ⟨.VAULT_SLOT, 21, 0⟩
abbrev F.VAULT_ERR_REBUILDS : Fld := ⟨.VAULT_ERR, 63, 32⟩
abbrev F.VAULT_ERR_FIRST_GROUP : Fld := ⟨.VAULT_ERR, 29, 8⟩
abbrev F.VAULT_ERR_WRITE_REFUSED : Fld := ⟨.VAULT_ERR, 3, 3⟩
abbrev F.VAULT_ERR_DOUBLE : Fld := ⟨.VAULT_ERR, 2, 2⟩
abbrev F.VAULT_ERR_LATE : Fld := ⟨.VAULT_ERR, 1, 1⟩
abbrev F.VAULT_ERR_CRC : Fld := ⟨.VAULT_ERR, 0, 0⟩
abbrev F.VAULT_WEAR_MAX_WRITES : Fld := ⟨.VAULT_WEAR, 63, 48⟩
abbrev F.VAULT_WEAR_MEAN_WRITES : Fld := ⟨.VAULT_WEAR, 47, 32⟩
abbrev F.VAULT_WEAR_SPARES_LEFT : Fld := ⟨.VAULT_WEAR, 31, 0⟩
abbrev F.SPM_SEL_CORE : Fld := ⟨.SPM_SEL, 15, 0⟩
abbrev F.SPM_PERR_COUNT : Fld := ⟨.SPM_PERR, 63, 32⟩
abbrev F.SPM_PERR_ENGINE : Fld := ⟨.SPM_PERR, 31, 28⟩
abbrev F.SPM_PERR_WORD : Fld := ⟨.SPM_PERR, 11, 0⟩
abbrev F.SPM_SLOT_SLOT_15 : Fld := ⟨.SPM_SLOT, 63, 60⟩
abbrev F.SPM_SLOT_SLOT_14 : Fld := ⟨.SPM_SLOT, 59, 56⟩
abbrev F.SPM_SLOT_SLOT_13 : Fld := ⟨.SPM_SLOT, 55, 52⟩
abbrev F.SPM_SLOT_SLOT_12 : Fld := ⟨.SPM_SLOT, 51, 48⟩
abbrev F.SPM_SLOT_SLOT_11 : Fld := ⟨.SPM_SLOT, 47, 44⟩
abbrev F.SPM_SLOT_SLOT_10 : Fld := ⟨.SPM_SLOT, 43, 40⟩
abbrev F.SPM_SLOT_SLOT_9 : Fld := ⟨.SPM_SLOT, 39, 36⟩
abbrev F.SPM_SLOT_SLOT_8 : Fld := ⟨.SPM_SLOT, 35, 32⟩
abbrev F.SPM_SLOT_SLOT_7 : Fld := ⟨.SPM_SLOT, 31, 28⟩
abbrev F.SPM_SLOT_SLOT_6 : Fld := ⟨.SPM_SLOT, 27, 24⟩
abbrev F.SPM_SLOT_SLOT_5 : Fld := ⟨.SPM_SLOT, 23, 20⟩
abbrev F.SPM_SLOT_SLOT_4 : Fld := ⟨.SPM_SLOT, 19, 16⟩
abbrev F.SPM_SLOT_SLOT_3 : Fld := ⟨.SPM_SLOT, 15, 12⟩
abbrev F.SPM_SLOT_SLOT_2 : Fld := ⟨.SPM_SLOT, 11, 8⟩
abbrev F.SPM_SLOT_SLOT_1 : Fld := ⟨.SPM_SLOT, 7, 4⟩
abbrev F.SPM_SLOT_SLOT_0 : Fld := ⟨.SPM_SLOT, 3, 0⟩
abbrev F.SPM_REGION_EN : Fld := ⟨.SPM_REGION, 63, 63⟩
abbrev F.SPM_REGION_PROD : Fld := ⟨.SPM_REGION, 62, 59⟩
abbrev F.SPM_REGION_CONS : Fld := ⟨.SPM_REGION, 58, 55⟩
abbrev F.SPM_REGION_BASE : Fld := ⟨.SPM_REGION, 54, 43⟩
abbrev F.SPM_REGION_SIZE : Fld := ⟨.SPM_REGION, 42, 31⟩
abbrev F.SPM_REGION_HEAD_WRAP : Fld := ⟨.SPM_REGION, 30, 30⟩
abbrev F.SPM_REGION_HEAD : Fld := ⟨.SPM_REGION, 29, 18⟩
abbrev F.SPM_REGION_TAIL_WRAP : Fld := ⟨.SPM_REGION, 17, 17⟩
abbrev F.SPM_REGION_TAIL : Fld := ⟨.SPM_REGION, 16, 5⟩
abbrev F.GCNT_COUNT : Fld := ⟨.GCNT, 63, 0⟩
abbrev F.GCNT_STATUS_OFFSET : Fld := ⟨.GCNT_STATUS, 63, 32⟩
abbrev F.GCNT_STATUS_DEPTH : Fld := ⟨.GCNT_STATUS, 23, 19⟩
abbrev F.GCNT_STATUS_PARENT : Fld := ⟨.GCNT_STATUS, 18, 16⟩
abbrev F.GCNT_STATUS_ACTING : Fld := ⟨.GCNT_STATUS, 3, 3⟩
abbrev F.GCNT_STATUS_MASTER : Fld := ⟨.GCNT_STATUS, 2, 2⟩
abbrev F.GCNT_STATUS_HOLDOVER : Fld := ⟨.GCNT_STATUS, 1, 1⟩
abbrev F.GCNT_STATUS_LOCKED : Fld := ⟨.GCNT_STATUS, 0, 0⟩
abbrev F.SNAP_AT_GCNT : Fld := ⟨.SNAP_AT, 63, 0⟩
abbrev F.SNAP_SEQ_SEQ : Fld := ⟨.SNAP_SEQ, 63, 0⟩
abbrev F.SNAP_STATUS_UNLOCKED : Fld := ⟨.SNAP_STATUS, 4, 4⟩
abbrev F.SNAP_STATUS_ABANDONED : Fld := ⟨.SNAP_STATUS, 3, 3⟩
abbrev F.SNAP_STATUS_LATE : Fld := ⟨.SNAP_STATUS, 2, 2⟩
abbrev F.SNAP_STATUS_PENDING : Fld := ⟨.SNAP_STATUS, 1, 1⟩
abbrev F.SNAP_STATUS_ARMED : Fld := ⟨.SNAP_STATUS, 0, 0⟩
abbrev F.SNAP_CTL_VIEW : Fld := ⟨.SNAP_CTL, 0, 0⟩
abbrev F.SNAP_GCNT_GCNT : Fld := ⟨.SNAP_GCNT, 63, 0⟩
abbrev F.SYNC_CFG_WAIT_WD : Fld := ⟨.SYNC_CFG, 63, 48⟩
abbrev F.SYNC_CFG_STREAM_WD : Fld := ⟨.SYNC_CFG, 47, 32⟩
abbrev F.SYNC_CFG_GRANT_WD : Fld := ⟨.SYNC_CFG, 31, 16⟩
abbrev F.SYNC_CFG_WD_SAFE : Fld := ⟨.SYNC_CFG, 0, 0⟩
abbrev F.SYNC_ERR_FAULTS : Fld := ⟨.SYNC_ERR, 63, 32⟩
abbrev F.SYNC_ERR_GRANT_WD : Fld := ⟨.SYNC_ERR, 7, 7⟩
abbrev F.SYNC_ERR_STREAM_WD : Fld := ⟨.SYNC_ERR, 6, 6⟩
abbrev F.SYNC_ERR_WAIT_WD : Fld := ⟨.SYNC_ERR, 5, 5⟩
abbrev F.SYNC_ERR_MISMATCH : Fld := ⟨.SYNC_ERR, 4, 4⟩
abbrev F.SYNC_ERR_UNMAPPED : Fld := ⟨.SYNC_ERR, 3, 3⟩
abbrev F.SYNC_ERR_OVERFLOW : Fld := ⟨.SYNC_ERR, 2, 2⟩
abbrev F.SYNC_ERR_UNDERFLOW : Fld := ⟨.SYNC_ERR, 1, 1⟩
abbrev F.SYNC_ERR_FENCED_DROP : Fld := ⟨.SYNC_ERR, 0, 0⟩
abbrev F.SYNC_ERR_LOC_PKEY : Fld := ⟨.SYNC_ERR_LOC, 63, 52⟩
abbrev F.SYNC_ERR_LOC_SYNC_ID : Fld := ⟨.SYNC_ERR_LOC, 51, 40⟩
abbrev F.SYNC_ERR_LOC_FIRST : Fld := ⟨.SYNC_ERR_LOC, 39, 37⟩
abbrev F.SYNC_ERR_LOC_SRC : Fld := ⟨.SYNC_ERR_LOC, 36, 25⟩
abbrev F.SYNC_ERR_LOC_CORE : Fld := ⟨.SYNC_ERR_LOC, 15, 0⟩
abbrev F.SYNC_SIG_APPLIED : Fld := ⟨.SYNC_SIG, 63, 32⟩
abbrev F.SYNC_SIG_RELEASES : Fld := ⟨.SYNC_SIG, 31, 0⟩
abbrev F.SYNC_WAIT_SLEEPS : Fld := ⟨.SYNC_WAIT, 63, 32⟩
abbrev F.SYNC_WAIT_POLLS : Fld := ⟨.SYNC_WAIT, 31, 0⟩
abbrev F.PWR_CTL_POINT : Fld := ⟨.PWR_CTL, 1, 0⟩
abbrev F.PWR_STATUS_INPUT_W : Fld := ⟨.PWR_STATUS, 63, 32⟩
abbrev F.PWR_STATUS_STATE : Fld := ⟨.PWR_STATUS, 23, 20⟩
abbrev F.PWR_STATUS_POINT_EFF : Fld := ⟨.PWR_STATUS, 19, 18⟩
abbrev F.PWR_STATUS_THROTTLE_T : Fld := ⟨.PWR_STATUS, 17, 17⟩
abbrev F.PWR_STATUS_THROTTLE_P : Fld := ⟨.PWR_STATUS, 16, 16⟩
abbrev F.LTOL_NS : Fld := ⟨.LTOL, 31, 0⟩
abbrev F.PWR_CAP_WATTS : Fld := ⟨.PWR_CAP, 15, 0⟩
abbrev F.MAINT_CTL_LEAVE : Fld := ⟨.MAINT_CTL, 1, 1⟩
abbrev F.MAINT_CTL_ENTER : Fld := ⟨.MAINT_CTL, 0, 0⟩
abbrev F.PWR_METER_ENERGY_MJ : Fld := ⟨.PWR_METER, 63, 0⟩
abbrev F.KETTLE_CTL_RAMP : Fld := ⟨.KETTLE_CTL, 15, 8⟩
abbrev F.KETTLE_CTL_GAP_EN : Fld := ⟨.KETTLE_CTL, 0, 0⟩
abbrev F.KETTLE_TEST_HIGH_A : Fld := ⟨.KETTLE_TEST, 63, 53⟩
abbrev F.KETTLE_TEST_LOW_A : Fld := ⟨.KETTLE_TEST, 52, 42⟩
abbrev F.KETTLE_TEST_EDGE_NS : Fld := ⟨.KETTLE_TEST, 41, 28⟩
abbrev F.KETTLE_TEST_DWELL_US : Fld := ⟨.KETTLE_TEST, 27, 8⟩
abbrev F.KETTLE_RUN_STEPS : Fld := ⟨.KETTLE_RUN, 63, 32⟩
abbrev F.KETTLE_RUN_QMASK : Fld := ⟨.KETTLE_RUN, 7, 4⟩
abbrev F.KETTLE_RUN_STOP : Fld := ⟨.KETTLE_RUN, 1, 1⟩
abbrev F.KETTLE_RUN_GO : Fld := ⟨.KETTLE_RUN, 0, 0⟩
abbrev F.KETTLE_AT_GCNT : Fld := ⟨.KETTLE_AT, 63, 0⟩
abbrev F.KETTLE_STATUS_STEPS_DONE : Fld := ⟨.KETTLE_STATUS, 63, 32⟩
abbrev F.KETTLE_STATUS_RUNNING : Fld := ⟨.KETTLE_STATUS, 7, 4⟩
abbrev F.KETTLE_STATUS_LATE : Fld := ⟨.KETTLE_STATUS, 3, 3⟩
abbrev F.THERM_CFG_THROTTLE_C : Fld := ⟨.THERM_CFG, 63, 56⟩
abbrev F.THERM_CFG_TRIP_C : Fld := ⟨.THERM_CFG, 55, 48⟩
abbrev F.THERM_CFG_HBM_THROTTLE_C : Fld := ⟨.THERM_CFG, 47, 40⟩
abbrev F.THERM_CFG_HBM_TRIP_C : Fld := ⟨.THERM_CFG, 39, 32⟩
abbrev F.THERM_STATUS_DIE_MAX : Fld := ⟨.THERM_STATUS, 63, 56⟩
abbrev F.THERM_STATUS_HBM_MAX : Fld := ⟨.THERM_STATUS, 55, 48⟩
abbrev F.THERM_STATUS_HBM_STACK : Fld := ⟨.THERM_STATUS, 47, 45⟩
abbrev F.THERM_STATUS_DIE_QUAD : Fld := ⟨.THERM_STATUS, 44, 43⟩
abbrev F.THERM_CNT_STEPS : Fld := ⟨.THERM_CNT, 63, 32⟩
abbrev F.THERM_CNT_MS : Fld := ⟨.THERM_CNT, 31, 0⟩
abbrev F.HLTH_CFG_WARN_DAYS : Fld := ⟨.HLTH_CFG, 63, 48⟩
abbrev F.HLTH_MODULE_EST : Fld := ⟨.HLTH_MODULE, 63, 48⟩
abbrev F.HLTH_MODULE_LO : Fld := ⟨.HLTH_MODULE, 47, 32⟩
abbrev F.HLTH_MODULE_HI : Fld := ⟨.HLTH_MODULE, 31, 16⟩
abbrev F.HLTH_MODULE_WARN : Fld := ⟨.HLTH_MODULE, 1, 1⟩
abbrev F.HLTH_MODULE_VALID : Fld := ⟨.HLTH_MODULE, 0, 0⟩
abbrev F.HLTH_SUB_EST : Fld := ⟨.HLTH_SUB, 63, 48⟩
abbrev F.HLTH_SUB_LO : Fld := ⟨.HLTH_SUB, 47, 32⟩
abbrev F.HLTH_SUB_HI : Fld := ⟨.HLTH_SUB, 31, 16⟩
abbrev F.HLTH_SUB_WARN : Fld := ⟨.HLTH_SUB, 1, 1⟩
abbrev F.HLTH_SUB_VALID : Fld := ⟨.HLTH_SUB, 0, 0⟩
abbrev F.SEC_STATUS_ARB : Fld := ⟨.SEC_STATUS, 63, 32⟩
abbrev F.SEC_STATUS_TRANSFERS : Fld := ⟨.SEC_STATUS, 31, 16⟩
abbrev F.SEC_STATUS_OIS : Fld := ⟨.SEC_STATUS, 4, 4⟩
abbrev F.SEC_STATUS_VAULT_KEY : Fld := ⟨.SEC_STATUS, 3, 3⟩
abbrev F.SEC_STATUS_IDENTITY : Fld := ⟨.SEC_STATUS, 2, 2⟩
abbrev F.SEC_STATUS_PUF : Fld := ⟨.SEC_STATUS, 1, 1⟩
abbrev F.SEC_STATUS_SE : Fld := ⟨.SEC_STATUS, 0, 0⟩
abbrev F.SEC_IMG_VERSION : Fld := ⟨.SEC_IMG, 63, 32⟩
abbrev F.SEC_IMG_RESULT1 : Fld := ⟨.SEC_IMG, 15, 12⟩
abbrev F.SEC_IMG_RESULT0 : Fld := ⟨.SEC_IMG, 11, 8⟩
abbrev F.SEC_CFG_REKEY_EXP : Fld := ⟨.SEC_CFG, 13, 8⟩
abbrev F.SEC_CFG_WEIGHT_LOCK : Fld := ⟨.SEC_CFG, 1, 1⟩
abbrev F.SEC_CFG_DEBUG_LOCK : Fld := ⟨.SEC_CFG, 0, 0⟩
abbrev F.SEC_ARG_ADDR : Fld := ⟨.SEC_ARG, 38, 0⟩
abbrev F.SEC_CMD_OPCODE : Fld := ⟨.SEC_CMD, 7, 0⟩
abbrev F.SEC_CMD_STATUS_SEQ : Fld := ⟨.SEC_CMD_STATUS, 63, 32⟩
abbrev F.SEC_CMD_STATUS_REASON : Fld := ⟨.SEC_CMD_STATUS, 23, 16⟩
abbrev F.SEC_CMD_STATUS_RESULT : Fld := ⟨.SEC_CMD_STATUS, 15, 8⟩
abbrev F.SEC_CMD_STATUS_BUSY : Fld := ⟨.SEC_CMD_STATUS, 0, 0⟩
abbrev F.SEC_NONCE_NONCE : Fld := ⟨.SEC_NONCE, 63, 0⟩
abbrev F.SEC_ERR_FAULTS : Fld := ⟨.SEC_ERR, 63, 32⟩
abbrev F.SEC_ERR_ARB_WORN : Fld := ⟨.SEC_ERR, 7, 7⟩
abbrev F.SEC_ERR_WEIGHT_READ : Fld := ⟨.SEC_ERR, 6, 6⟩
abbrev F.SEC_ERR_ATTEST : Fld := ⟨.SEC_ERR, 5, 5⟩
abbrev F.SEC_ERR_TOKEN : Fld := ⟨.SEC_ERR, 4, 4⟩
abbrev F.SEC_ERR_LINK_AUTH : Fld := ⟨.SEC_ERR, 3, 3⟩
abbrev F.SEC_ERR_VAULT_KEY : Fld := ⟨.SEC_ERR, 2, 2⟩
abbrev F.SEC_ERR_SE : Fld := ⟨.SEC_ERR, 1, 1⟩
abbrev F.SEC_ERR_PUF : Fld := ⟨.SEC_ERR, 0, 0⟩
abbrev F.SEC_UID_UID : Fld := ⟨.SEC_UID, 63, 0⟩
abbrev F.CORE_ID_GLOBAL : Fld := ⟨.CORE_ID, 39, 24⟩
abbrev F.CORE_ID_Q : Fld := ⟨.CORE_ID, 15, 14⟩
abbrev F.CORE_ID_C : Fld := ⟨.CORE_ID, 13, 7⟩
abbrev F.CORE_ID_K : Fld := ⟨.CORE_ID, 5, 0⟩
abbrev F.CORE_ARRAYW_NEW_B : Fld := ⟨.CORE_ARRAYW, 31, 31⟩
abbrev F.CORE_ARRAYW_NEW_A : Fld := ⟨.CORE_ARRAYW, 30, 30⟩
abbrev F.CORE_ARRAYW_WIDTH_B : Fld := ⟨.CORE_ARRAYW, 29, 25⟩
abbrev F.CORE_ARRAYW_WIDTH_A : Fld := ⟨.CORE_ARRAYW, 24, 20⟩
abbrev F.CORE_ARRAYW_BYP_B1_V : Fld := ⟨.CORE_ARRAYW, 19, 19⟩
abbrev F.CORE_ARRAYW_BYP_B1 : Fld := ⟨.CORE_ARRAYW, 18, 15⟩
abbrev F.CORE_ARRAYW_BYP_B0_V : Fld := ⟨.CORE_ARRAYW, 14, 14⟩
abbrev F.CORE_ARRAYW_BYP_B0 : Fld := ⟨.CORE_ARRAYW, 13, 10⟩
abbrev F.CORE_ARRAYW_BYP_A1_V : Fld := ⟨.CORE_ARRAYW, 9, 9⟩
abbrev F.CORE_ARRAYW_BYP_A1 : Fld := ⟨.CORE_ARRAYW, 8, 5⟩
abbrev F.CORE_ARRAYW_BYP_A0_V : Fld := ⟨.CORE_ARRAYW, 4, 4⟩
abbrev F.CORE_ARRAYW_BYP_A0 : Fld := ⟨.CORE_ARRAYW, 3, 0⟩
abbrev F.CORE_ARRAYMODE_MODE_B : Fld := ⟨.CORE_ARRAYMODE, 7, 4⟩
abbrev F.CORE_ARRAYMODE_MODE_A : Fld := ⟨.CORE_ARRAYMODE, 3, 0⟩
abbrev F.CORE_STATUS_THIN_Q : Fld := ⟨.CORE_STATUS, 15, 8⟩
abbrev F.CORE_STATUS_THIN_BUSY : Fld := ⟨.CORE_STATUS, 7, 7⟩
abbrev F.CORE_STATUS_WIDE_B : Fld := ⟨.CORE_STATUS, 6, 6⟩
abbrev F.CORE_STATUS_WIDE_A : Fld := ⟨.CORE_STATUS, 5, 5⟩
abbrev F.CORE_STATUS_DUMMY_B : Fld := ⟨.CORE_STATUS, 4, 4⟩
abbrev F.CORE_STATUS_DUMMY_A : Fld := ⟨.CORE_STATUS, 3, 3⟩
abbrev F.CORE_STATUS_BUSY_B : Fld := ⟨.CORE_STATUS, 2, 2⟩
abbrev F.CORE_STATUS_BUSY_A : Fld := ⟨.CORE_STATUS, 1, 1⟩
abbrev F.CORE_STATUS_GATED : Fld := ⟨.CORE_STATUS, 0, 0⟩
abbrev F.CORE_BUBBLE_A_DRY : Fld := ⟨.CORE_BUBBLE_A, 63, 32⟩
abbrev F.CORE_BUBBLE_A_DRAIN : Fld := ⟨.CORE_BUBBLE_A, 31, 0⟩
abbrev F.CORE_BUBBLE_B_DRY : Fld := ⟨.CORE_BUBBLE_B, 63, 32⟩
abbrev F.CORE_BUBBLE_B_DRAIN : Fld := ⟨.CORE_BUBBLE_B, 31, 0⟩
abbrev F.CORE_THIN_FOLD_OPS : Fld := ⟨.CORE_THIN, 63, 32⟩
abbrev F.CORE_THIN_THIN_OPS : Fld := ⟨.CORE_THIN, 31, 0⟩
abbrev F.CORE_DUMMY_CYCLES : Fld := ⟨.CORE_DUMMY, 63, 0⟩
abbrev F.CORE_TILES_TILES_B : Fld := ⟨.CORE_TILES, 63, 32⟩
abbrev F.CORE_TILES_TILES_A : Fld := ⟨.CORE_TILES, 31, 0⟩
abbrev F.CORE_HOLD_POINT : Fld := ⟨.CORE_HOLD, 63, 32⟩
abbrev F.CORE_HOLD_KETTLE : Fld := ⟨.CORE_HOLD, 31, 0⟩
abbrev F.STREAM_STATUS_Q_DRAIN : Fld := ⟨.STREAM_STATUS, 15, 12⟩
abbrev F.STREAM_STATUS_Q_FETCH1 : Fld := ⟨.STREAM_STATUS, 11, 8⟩
abbrev F.STREAM_STATUS_Q_FETCH0 : Fld := ⟨.STREAM_STATUS, 7, 4⟩
abbrev F.STREAM_STATUS_MCAST_WAIT : Fld := ⟨.STREAM_STATUS, 3, 3⟩
abbrev F.STREAM_STATUS_BUSY_DRAIN : Fld := ⟨.STREAM_STATUS, 2, 2⟩
abbrev F.STREAM_STATUS_BUSY_FETCH1 : Fld := ⟨.STREAM_STATUS, 1, 1⟩
abbrev F.STREAM_STATUS_BUSY_FETCH0 : Fld := ⟨.STREAM_STATUS, 0, 0⟩
abbrev F.STREAM_WORDS_FETCHED : Fld := ⟨.STREAM_WORDS, 63, 32⟩
abbrev F.STREAM_WORDS_DRAINED : Fld := ⟨.STREAM_WORDS, 31, 0⟩
abbrev F.STREAM_STALL_TOKEN_CYCLES : Fld := ⟨.STREAM_STALL, 63, 32⟩
abbrev F.STREAM_STALL_SPACE_CYCLES : Fld := ⟨.STREAM_STALL, 31, 0⟩
abbrev F.STREAM_ERR_FAULTS : Fld := ⟨.STREAM_ERR, 63, 32⟩
abbrev F.STREAM_ERR_FENCE : Fld := ⟨.STREAM_ERR, 4, 4⟩
abbrev F.STREAM_ERR_CHANNEL : Fld := ⟨.STREAM_ERR, 3, 3⟩
abbrev F.STREAM_ERR_TIMEOUT : Fld := ⟨.STREAM_ERR, 2, 2⟩
abbrev F.STREAM_ERR_ENTRY : Fld := ⟨.STREAM_ERR, 1, 1⟩
abbrev F.STREAM_ERR_ADDR : Fld := ⟨.STREAM_ERR, 0, 0⟩
abbrev F.STREAM_ERR_LOC_STREAM : Fld := ⟨.STREAM_ERR_LOC, 63, 56⟩
abbrev F.STREAM_ERR_LOC_FIRST : Fld := ⟨.STREAM_ERR_LOC, 55, 53⟩
abbrev F.STREAM_ERR_LOC_ENTRY_TASK : Fld := ⟨.STREAM_ERR_LOC, 32, 32⟩
abbrev F.STREAM_ERR_LOC_ITEM : Fld := ⟨.STREAM_ERR_LOC, 31, 0⟩
abbrev F.SEQ_CFG_SLIP_LIMIT : Fld := ⟨.SEQ_CFG, 63, 48⟩
abbrev F.SEQ_CFG_SLIP_SAFE : Fld := ⟨.SEQ_CFG, 0, 0⟩
abbrev F.SEQ_STATUS_STEP : Fld := ⟨.SEQ_STATUS, 63, 32⟩
abbrev F.SEQ_STATUS_SET : Fld := ⟨.SEQ_STATUS, 31, 30⟩
abbrev F.SEQ_STATUS_NSETS_M1 : Fld := ⟨.SEQ_STATUS, 29, 28⟩
abbrev F.SEQ_STATUS_ACTIVE : Fld := ⟨.SEQ_STATUS, 27, 21⟩
abbrev F.SEQ_STATUS_SLEEPING : Fld := ⟨.SEQ_STATUS, 20, 14⟩
abbrev F.SEQ_STATUS_SLIPPING : Fld := ⟨.SEQ_STATUS, 13, 13⟩
abbrev F.SEQ_STATUS_HOLDING : Fld := ⟨.SEQ_STATUS, 12, 12⟩
abbrev F.SEQ_STATUS_LOADING : Fld := ⟨.SEQ_STATUS, 11, 11⟩
abbrev F.SEQ_STATUS_ARMED_V : Fld := ⟨.SEQ_STATUS, 10, 10⟩
abbrev F.SEQ_STATUS_ARMED_RCTX : Fld := ⟨.SEQ_STATUS, 9, 8⟩
abbrev F.SEQ_STATUS_LIVE_V : Fld := ⟨.SEQ_STATUS, 7, 7⟩
abbrev F.SEQ_STATUS_LIVE_RCTX : Fld := ⟨.SEQ_STATUS, 6, 5⟩
abbrev F.SLIP_COUNT_COUNT : Fld := ⟨.SLIP_COUNT, 63, 32⟩
abbrev F.SLIP_COUNT_MAX_TICKS : Fld := ⟨.SLIP_COUNT, 31, 0⟩
abbrev F.SLIP_TIME_TICKS : Fld := ⟨.SLIP_TIME, 63, 0⟩
abbrev F.SLIP_LAST_DAY : Fld := ⟨.SLIP_LAST, 63, 32⟩
abbrev F.SLIP_LAST_DIR : Fld := ⟨.SLIP_LAST, 31, 31⟩
abbrev F.SLIP_LAST_BWD : Fld := ⟨.SLIP_LAST, 30, 30⟩
abbrev F.SLIP_LAST_CTX : Fld := ⟨.SLIP_LAST, 29, 24⟩
abbrev F.SLIP_LAST_OBJ : Fld := ⟨.SLIP_LAST, 23, 12⟩
abbrev F.SLIP_LAST_KIND : Fld := ⟨.SLIP_LAST, 11, 10⟩
abbrev F.SEQ_ISSUE_OPS : Fld := ⟨.SEQ_ISSUE, 63, 0⟩
abbrev F.SEQ_CUES_FIRED : Fld := ⟨.SEQ_CUES, 63, 32⟩
abbrev F.SEQ_CUES_HOLD_CYCLES : Fld := ⟨.SEQ_CUES, 31, 0⟩
abbrev F.SEQ_ERR_FAULTS : Fld := ⟨.SEQ_ERR, 63, 32⟩
abbrev F.SEQ_ERR_COMMIT2 : Fld := ⟨.SEQ_ERR, 3, 3⟩
abbrev F.SEQ_ERR_LOAD_LATE : Fld := ⟨.SEQ_ERR, 2, 2⟩
abbrev F.SEQ_ERR_REARM_EXTENT : Fld := ⟨.SEQ_ERR, 1, 1⟩
abbrev F.SEQ_ERR_SLIP_LIMIT : Fld := ⟨.SEQ_ERR, 0, 0⟩
abbrev F.REG_CLASS_EN : Fld := ⟨.REG_CLASS, 63, 63⟩
abbrev F.REG_CLASS_RATE : Fld := ⟨.REG_CLASS, 27, 16⟩
abbrev F.REG_CLASS_DEPTH : Fld := ⟨.REG_CLASS, 15, 0⟩
abbrev F.REG_LEVEL_LEVEL3 : Fld := ⟨.REG_LEVEL, 63, 48⟩
abbrev F.REG_LEVEL_LEVEL2 : Fld := ⟨.REG_LEVEL, 47, 32⟩
abbrev F.REG_LEVEL_LEVEL1 : Fld := ⟨.REG_LEVEL, 31, 16⟩
abbrev F.REG_LEVEL_LEVEL0 : Fld := ⟨.REG_LEVEL, 15, 0⟩
abbrev F.CTX_STATE_CUE : Fld := ⟨.CTX_STATE, 63, 48⟩
abbrev F.CTX_STATE_OP : Fld := ⟨.CTX_STATE, 47, 37⟩
abbrev F.CTX_STATE_PENDING : Fld := ⟨.CTX_STATE, 36, 32⟩
abbrev F.CTX_STATE_DEPTH : Fld := ⟨.CTX_STATE, 31, 29⟩
abbrev F.CTX_STATE_STATE : Fld := ⟨.CTX_STATE, 28, 27⟩

end Sys2Proof.Machine
end

