-- ==== Sys2Proof/Machine/StateBoard.lean ====
section
/-! DEFINITION. The state of start-up, of the security block, of power and health, and of the board side of the module (14–17). -/

namespace Sys2Proof.Machine

/-! ### The chain (14) -/

/-- A response kept for a repeated tag (R558). -/
structure CachedResp where
  path : Path
  src : Nat
  tag : BitVec 10
  status : BitVec 8
  reason : BitVec 8
  data : List Byte
  deriving DecidableEq, Repr

/-- An event held until the adapter acknowledges it (R564, R566, R567). -/
structure Event where
  seq : BitVec 32
  kind : Nat
  gcnt : BitVec 64
  body : List Byte
  deriving DecidableEq, Repr

/-- A request of this module to the adapter: an access of the first host DMA item, by its address on both sides, or an event. -/
inductive OwnReq where
  | memRd (host hbm len : Nat)
  | memWr (host hbm len : Nat)
  | event (seq : BitVec 32)
  deriving DecidableEq, Repr

/-- An outstanding request of this module: its tag, count of the last send, and resends (R558). -/
structure OutReq where
  tag : BitVec 10
  body : OwnReq
  sentAt : Nat
  resends : Nat
  deriving DecidableEq, Repr

/-- A host DMA item (R563): its handle, slice, direction, addresses, length, bytes asked for and bytes moved. -/
structure DmaItem where
  item : BitVec 32
  pkey : BitVec 12
  toHost : Bool
  hbm : Nat
  host : Nat
  len : Nat
  asked : Nat
  moved : Nat
  deriving DecidableEq, Repr

/-- A command that acts at GCNT_AT (R570), with the requester that its response went to. -/
structure TimedCmd where
  at_ : Nat
  cmd : Cmd
  deriving DecidableEq, Repr

/-- A request sent to another module and not yet answered: the request, the coordinate, the tag used toward it, and for a RELAY the TYPE of
the inner request (R560); a SLICE_ALLOC or SLICE_REMOVE forwarded to the coordinator has none (R569). -/
structure RelayOut where
  req : Req
  target : Coord
  tag : BitVec 10
  typ : Option Nat
  deriving DecidableEq, Repr

/-- The Cymund chain port and the management requests: the responses kept, the events held, the SEQ of the last one and of the last
one sent, own requests outstanding and the last tag used, host DMA items in order, commands not yet due, relays and the ENUMERATE
passed downstream. -/
structure ChainSt where
  cache : List CachedResp
  evSeq : BitVec 32
  evSent : BitVec 32
  events : List Event
  out : List OutReq
  lastTag : BitVec 10
  dma : List DmaItem
  timed : List TimedCmd
  relays : List RelayOut
  enumTag : Option (BitVec 10)
  deriving DecidableEq, Repr

/-- A chain port that has answered nothing and raised nothing. -/
def ChainSt.init : ChainSt := ⟨[], 0, 0, [], [], 0, [], [], [], none⟩

/-! ### Start-up (14) -/

/-- A weight load of this module as a reader (R583, R585): ring contexts loaded, slot, section, base generation, the vault blocks read and
sent, whether the last send has been reported, and whether the load has failed. -/
structure ReaderJob where
  ctxs : List Nat
  slotB : Bool
  sect : Nat
  gen : Nat
  got : List Nat
  reported : Bool
  failed : Bool
  deriving DecidableEq, Repr

/-- Start-up: the count at release, whether the steps have been started and whether by a warm reset, the image in use, the seed strap,
the seed UID held, the port the ASSIGN came from, ports assigned, ports whose REPORT has come, coordinates that NEIGHBOUR named, miswired
ports and whether a seed conflict was seen, the count at which the step began, whether the own REPORT has gone, the reports of the
subtree, vacancies found and filled (at the coordinator), the variant, ARM and RING_LAUNCH writes of the image held for step 11 and
the READY count, bytes received of each 16 KiB unit, reader work, contexts whose shares and shadows are being loaded, modules that
reported DONE and the end of step 11 (at the coordinator), whether the own end of step 11 has been reported, and the READY count. -/
structure StartSt where
  releasedAt : Nat
  started : Bool
  warm : Bool
  image : Option Image
  seed : Bool
  seedUid : Option (BitVec 32)
  fromPort : Option Nat
  toPorts : List Nat
  heardPorts : List Nat
  peers : List (Nat × Coord)
  miswired : List Nat
  conflict : Bool
  stepSince : Nat
  reported : Bool
  tree : List ModReport
  wanted : List Coord
  filled : List Coord
  variant : Option Nat
  heldArms : List (Nat × Nat)
  launches : List (Nat × Nat)
  units : SMap Nat
  reader : Option ReaderJob
  loading : List Nat
  dones : List Coord
  placedBy : List Coord
  placedSent : Bool
  readyAt : Option Nat
  deriving DecidableEq, Repr

/-- A module at which nothing has started. -/
def StartSt.init : StartSt :=
  { releasedAt := 0, started := false, warm := false, image := none, seed := false, seedUid := none, fromPort := none,
    toPorts := [], heardPorts := [], peers := [], miswired := [], conflict := false, stepSince := 0, reported := false,
    tree := [], wanted := [], filled := [], variant := none, heldArms := [], launches := [], units := [],
    reader := none, loading := [], dones := [], placedBy := [], placedSent := false, readyAt := none }

/-! ### Security (15) -/

/-- The secure element and the key store beyond their registers (R596–R598, R602, R610–R612): raises of the anti-rollback counter made,
SHA-384 of the owner key hashes, the installation secret (present as SEC_STATUS.OIS tells), the narrowed-array map of the previous start,
whether the current nonce is live, and the slots named by the open installation with their generations. -/
structure SecureSt where
  raises : Nat
  owner : BitVec 384
  secret : BitVec 256
  arrayMap : SMap (BitVec 64)
  nonceLive : Bool
  installA : Option (BitVec 16)
  installB : Option (BitVec 16)
  deriving DecidableEq, Repr

/-- A secure element with nothing written (R597 gives no values).
(DESIGN CHOICE, log 6) -/
def SecureSt.init : SecureSt := ⟨0, 0, 0, [], false, none, none⟩

/-! ### Power and health (16) -/

/-- A Kettle test under way (R626, R627): the count of its start and of its first cycle, the quadrants and the cycles to run. -/
structure KettleSt where
  goAt : Nat
  firstAt : Option Nat
  qmask : Nat
  steps : Nat
  deriving DecidableEq, Repr

/-- Power, Kettle and health: the throttle points, since when each cause has held or been clear, the last step of each, reads in a row
at or above a trip temperature, since when the input voltage is out of range, the last reading, the last change of POINT_EFF, whether
a software write or a throttle is the cause of the next, ns and W·ns not yet counted by THERM_CNT and PWR_METER, since when nothing has kept the module from idling, the test, powered ns before this start,
ageing samples with their powered time, the medians of the last HEALTH event and the count of the last run of the predictor. -/
structure PowerSt where
  ptT : Nat
  ptP : Nat
  hotSince : Option Nat
  coolSince : Option Nat
  hotStep : Option Nat
  underSince : Option Nat
  overStep : Option Nat
  tripReads : Nat
  vinSince : Option Nat
  readAt : Option Nat
  changeAt : Option Nat
  bySoftware : Bool
  byThrottle : Bool
  belowNs : Nat
  meterNs : Nat
  quietAt : Nat
  test : Option KettleSt
  lived : Nat
  samples : List (Nat × AgeSample)
  lastMedians : List Nat
  ranAt : Option Nat
  deriving DecidableEq, Repr

/-- Power at reset: no throttle and nothing read. -/
def PowerSt.init : PowerSt :=
  { ptT := 0, ptP := 0, hotSince := none, coolSince := none, hotStep := none, underSince := none, overStep := none,
    tripReads := 0, vinSince := none, readAt := none, changeAt := none, bySoftware := false, byThrottle := false, belowNs := 0,
    meterNs := 0, quietAt := 0, test := none,
    lived := 0, samples := [], lastMedians := [], ranAt := none }

/-! ### The board (17) -/

/-- The board side: whether RESET_N is held low, whether VSB12 and the reference clock are present, whether the module has stopped where it
stood (VIN lost while RESET_N was high), the I3C dynamic address and the telemetry offset, and the TAP instruction in force.
(DESIGN CHOICE, log 7) -/
structure BoardSt where
  resetLow : Bool
  vsb12 : Bool
  refclk : Bool
  stopped : Bool
  i3cAddr : Option (BitVec 7)
  i3cOff : Nat
  jtag : JtagInstr
  deriving DecidableEq, Repr

/-- The board at the release of reset: supplies in range, no dynamic address, and the TAP holding IDCODE as IEEE 1149.1 resets it.
(PRESUMED, log 205) -/
def BoardSt.init : BoardSt := ⟨false, true, true, false, none, 0, .idcode⟩

end Sys2Proof.Machine
end

