-- ==== Sys2Proof/Machine/StateLink.lean ====
section
/-! DEFINITION. The state of the Flalys ports and of the router and coordinator (09, 10). -/

namespace Sys2Proof.Machine

/-! ### Ports (09) -/

/-- A DATA flit held for replay (R370): its SEQ, the packets whose bytes it carries as (PKEY, ITEM), and its key phase and number. -/
structure HeldFlit where
  seq : Nat
  pairs : List (Nat × Nat)
  kph : Bool
  n : Nat
  deriving DecidableEq, Repr

/-- A packet in reception (R358, R361): the bytes so far, whether POISON or a fence has made it void, the output port that forwards it
cut-through, if it has started there. -/
structure RxPacket where
  bytes : List Byte
  void : Bool
  onward : Option Nat
  deriving DecidableEq, Repr

/-- A packet that waits for an output port (R386, R404): the port it came in on (none: injected here), and the packet, its VC field
naming the VC of that arrival. -/
structure Queued where
  from_ : Option Nat
  pkt : Packet
  deriving DecidableEq, Repr

/-- Where a key exchange stands (R605): the transcript of KX_HELLO and KX_REPLY as received or sent, whether the peer's KX_AUTH was
accepted, whether the own KX_DONE has gone, and whether it is a rekey. -/
structure KxSt where
  transcript : List Byte
  replied : Bool
  authOk : Bool
  rekey : Bool
  deriving DecidableEq, Repr

/-- A port beyond its registers. Transmitter: credits announced by the peer and used, by VC, and the peer's freed counts; next SEQ,
flits held, the count of the last ACK progress, resends in a row, whether bring-up by AUTO is due and since when; key phase and
n of both directions, flits accepted since the last phase change; packets waiting and the last winner among VC0–VC3. Receiver: freed
counts, SEQ expected, whether a NAK is out, the packet in reception, CRC failures and flits of the degradation window, the count of
the last good flit. HELLO received and exchanges; fences received; key exchange; failed exchanges in a row; the count of the last
heartbeat (R459); packets sent and received by epoch since it began (R417); whether a leaf has started and not ended on the link; the
count at which the state of the port was entered, and whether it starts again by AUTO. -/
structure PortSt where
  cap : List Nat
  used : List Nat
  freed : List Nat
  txSeq : Nat
  held : List HeldFlit
  ackAt : Nat
  resends : Nat
  resendSeq : Nat
  txKph : Bool
  rxKph : Bool
  txN : Nat
  rxN : Nat
  rxOld : Nat
  queue : List Queued
  lastVc : Nat
  rxFreed : List Nat
  rxSeq : Nat
  nakOut : Bool
  rx : Option RxPacket
  badFlits : Nat
  windowFlits : Nat
  goodAt : Nat
  hello : Bool
  peerUid : BitVec 64
  rxFence : List (BitVec 12)
  rxDevice : Bool
  kx : Option KxSt
  kxFails : Nat
  heardAt : Nat
  silent : Bool
  oldTx : Nat × Nat
  oldRx : Nat × Nat
  leafOut : Bool
  enteredAt : Nat
  autoStart : Bool
  deriving DecidableEq, Repr

/-- A port that is DOWN. -/
def PortSt.init : PortSt :=
  { cap := [], used := [], freed := [], txSeq := 0, held := [], ackAt := 0, resends := 0, resendSeq := 0,
    txKph := false, rxKph := false, txN := 0, rxN := 0, rxOld := 0, queue := [], lastVc := 3, rxFreed := [], rxSeq := 0,
    nakOut := false, rx := none, badFlits := 0, windowFlits := 0, goodAt := 0, hello := false, peerUid := 0, rxFence := [],
    rxDevice := false, kx := none, kxFails := 0, heardAt := 0, silent := false, oldTx := (0, 0), oldRx := (0, 0),
    leafOut := false, enteredAt := 0, autoStart := false }

/-! ### The router and the coordinator (10) -/

/-- A table version (R412, R413): the fault map it is computed from and the one before, on which HOLD rests.
(DEDUCED, log 116) -/
structure TableVer where
  map : FaultMap
  prev : FaultMap
  deriving DecidableEq, Repr

/-- The injection rate toward a destination (R423): R_d in bytes per second (none: the port rate), the count of the last CNP or step,
and the UNPL bytes started with their counts. -/
structure RateSt where
  rate : Option Nat
  since : Nat
  starts : List (Nat × Nat)
  deriving DecidableEq, Repr

/-- What the coordinator does in an epoch flip (R415): the map it keeps and its sequence number, the count since which acknowledgements are awaited and
who has acknowledged, faults that wait for RETIRE, the count of the check outstanding and its replies, and whether the flip runs. -/
structure CoordSt where
  map : FaultMap
  seq : Nat
  preparing : Option Nat
  acks : List Coord
  deferred : Bool
  checkAt : Option Nat
  replies : List (Coord × DrainReply)
  deriving DecidableEq, Repr

/-- The router and the coordinator: the machine's fault map as this module knows it, its two table versions, the map whose table is
being computed with its sequence number, the drain check to be latched, injection rates by destination, the counts of the last CNP
sent by destination, packets that wait to be injected, keys whose SCHED packets were discarded and not yet acted on, READ_REQs outstanding (destination, item, address there, address here, bytes), the sequence number
of the prepared map, whether FLIP_AT is set, and the coordinator's part. -/
structure RouteSt where
  fmap : FaultMap
  v0 : Option TableVer
  v1 : Option TableVer
  computing : Option (Nat × FaultMap)
  checkAt : Option Nat
  rates : SMap RateSt
  cnpSent : SMap Nat
  waiting : List Packet
  lost : List (BitVec 12)
  reads : List (Coord × Nat × Nat × Nat × Nat)
  nextSeq : Nat
  flipArmed : Bool
  coord : CoordSt
  deriving DecidableEq, Repr

/-- No rate below the port rate. -/
def RateSt.init : RateSt := ⟨none, 0, []⟩

/-- A coordinator at rest. -/
def CoordSt.init : CoordSt := ⟨⟨[], []⟩, 0, none, [], false, none, []⟩

/-- A router with no fault known and no table. -/
def RouteSt.init : RouteSt := ⟨⟨[], []⟩, none, none, none, none, [], [], [], [], [], 0, false, .init⟩

end Sys2Proof.Machine
end

