-- ==== Sys2Proof/Machine/StateService.lean ====
section
/-! DEFINITION. The state of the service node (13): interfaces, queue pairs, requests, jobs, adapters, exports and base switches. -/

namespace Sys2Proof.Machine

/-- An entry of the interface table (R517): addresses as numbers, zero for none. -/
structure Iface where
  mac : BitVec 48
  vlan : BitVec 16
  ipv4 : BitVec 32
  ipv6 : BitVec 128
  prefix6 : Nat
  deriving DecidableEq, Repr

/-- A queue pair table entry (R523), decoded. -/
structure QpEnt where
  role : Nat
  iface : Nat
  ipv6 : Bool
  notify : Bool
  pkey : BitVec 12
  localQpn : Nat
  remoteQpn : Nat
  pmtu : Nat
  retry : Nat
  timeout : Nat
  tclass : Nat
  remoteIp : BitVec 128
  ringAddr : Nat
  ringRkey : Nat
  ringEntries : Nat
  localRkey : Nat
  nrec : Nat
  promptKib : Nat
  regionOff : Nat
  sqPsn : Nat
  rqPsn : Nat
  reservedBits : Bool
  deriving DecidableEq, Repr

/-- RoCEv2 messages of a queue pair (R519). A message of more than one path MTU takes that many PSNs from its first. -/
inductive RoceMsg where
  | write (psn va rkey : Nat) (imm : Option Nat) (data : List Byte)
  | readReq (psn va rkey len : Nat)
  | readResp (psn : Nat) (data : List Byte)
  | ack (psn : Nat)
  | nakSequence (psn : Nat)
  | nakInvalid (psn : Nat)
  | nakAccess (psn : Nat)
  | cnp
  deriving DecidableEq, Repr

/-- What a READ of this module is for: the offsets of a job's shard, or an example of a job (R539). -/
inductive Pull where
  | offsets (job shard : Nat)
  | example_ (job : Nat)
  deriving DecidableEq, Repr

/-- A message sent and not acknowledged: its first PSN, its PSNs, the message, the READ's purpose and the bytes received of it, and
the export it belongs to. -/
structure SentMsg where
  psn : Nat
  count : Nat
  msg : RoceMsg
  pull : Option Pull
  got : List Byte
  export_ : Option Nat
  deriving DecidableEq, Repr

/-- States of a queue pair (R524). -/
inductive QpState where
  | reset | ready | error
  deriving DecidableEq, Repr

/-- A queue pair: its entry and state, PSNs, messages sent and not acknowledged, retries and the count of the last progress, rate in
2^32 parts of the interface rate and the counts of the last CNP sent and received (R521); a WRITE message in reception (next VA);
records resolved in committed lists (HEAD), by step after each list not yet committed, and records answered UNAVAILABLE out of
order (R525, R529), TAIL values seen with their counts (R537), client
ring entries written and waiting (R533, R535), and since when its first PSN after a take-over is awaited (R546).
(DESIGN CHOICE, log 128) -/
structure QpSt where
  ent : Option QpEnt
  st : QpState
  sqPsn : Nat
  rqPsn : Nat
  sent : List SentMsg
  retries : Nat
  progressAt : Nat
  rate : Nat
  cnpTx : Option Nat
  cnpRx : Option Nat
  rateAt : Nat
  rxVa : Option (Nat × Nat)
  head : Nat
  lists : List (Nat × Nat)
  skip : List Nat
  seen : List (Nat × Nat)
  ringSeq : Nat
  backlog : List (List Byte)
  awaitFirst : Bool
  deriving DecidableEq, Repr

/-- A serving request (R526–R537): its handle, queue pair, index, record bytes, pinned generations, prompt tokens processed, output
tokens so far and how many of them were sent, step of admission, count of its deadline, and the step in
whose list a CANCEL of it resolved. -/
structure SvcReq where
  handle : Nat
  qp : Nat
  seq : Nat
  body : List Byte
  adapterGen : Nat
  baseGen : Nat
  promptDone : Nat
  toks : List Nat
  sent : Nat
  step : Nat
  deadline : Option Nat
  cancelled : Option Nat
  deriving DecidableEq, Repr

/-- A record resolved with a status in an admission list of a step not yet committed (R529): its COMPLETION entry is queued at the
commit of the step; `decided` is the last committed step when the status was decided, as the record gives it. -/
structure Refused where
  handle : Nat
  qp : Nat
  seq : Nat
  body : List Byte
  status : Nat
  reason : Nat
  step : Nat
  decided : Nat
  deriving DecidableEq, Repr

/-- A shard of a job (R538). -/
structure Shard where
  qp : Nat
  rkey : Nat
  addr : Nat
  bytes : Nat
  examples : Nat
  deriving DecidableEq, Repr

/-- The data of one job step on this member (R539): sequences of token IDs, examples consumed, examples cut, data epoch. -/
structure JobData where
  seqs : List (List Nat)
  examples : Nat
  truncated : Nat
  epoch : Nat
  deriving DecidableEq, Repr

/-- A training job (R538–R541): manifest fields, offsets pulled of each shard, data epoch and position of the next example of this
member, job steps done, data in place for the steps to come, data being packed, and the status that ends it. -/
structure JobSt where
  handle : Nat
  pkey : BitVec 12
  reportQp : Nat
  adapter : Nat
  genOut : Nat
  steps : Nat
  seqLen : Nat
  seqCount : Nat
  shards : List Shard
  offsets : List (List Nat)
  epoch : Nat
  next : Nat
  done : Nat
  ready : List JobData
  packing : JobData
  pulling : Bool
  ended : Option Nat
  deriving DecidableEq, Repr

/-- An export under way (R542): its handle, queue pair, bytes in all and acknowledged. -/
structure ExportSt where
  handle : Nat
  qp : Nat
  bytes : Nat
  acked : Nat
  pkey : BitVec 12
  deriving DecidableEq, Repr

/-- A service command that acts at a commit point (R544, R545). -/
inductive SvcCmd where
  | adapterGen (adapter gen : Nat)
  | baseSwitch (gen : Nat)
  | jobStart (job : JobSt)
  | jobStop (handle : Nat)
  deriving DecidableEq, Repr

/-- The generation state of a slice (R545, R551): current and next base generation, whether a switch drains, and the step C at
which it began. -/
structure BaseGen where
  cur : Nat
  next : Nat
  draining : Bool
  since : Nat
  deriving DecidableEq, Repr

/-- The service node: interface table, peer addresses resolved by interface and IP, LLDP heard; frames held by a pause of each
port (R522); queue pairs; serving and training blocks of R528; the handle counter (R530); the queue pair admitted from last;
requests, refused records, steps whose admission list has closed and the count (plus one) since which a logged list is awaited, by slice; jobs, exports, adapters, generations by slice, and the
commands that act at the next commit point of a slice; whether RELINQUISH has silenced it (R469). -/
structure SvcSt where
  ifaces : List Iface
  peers : List (Nat × BitVec 128 × BitVec 48)
  lldp : SMap (List Byte)
  held : List (Nat × Nat × RoceMsg)
  qps : SMap QpSt
  blocks : List (BitVec 384)
  handle : Nat
  lastQp : Nat
  reqs : List SvcReq
  refused : List Refused
  closed : SMap Nat
  waitAt : SMap Nat
  jobs : List JobSt
  exports : List ExportSt
  adapters : List Adapter
  gens : SMap BaseGen
  atCommit : List (Nat × SvcCmd)
  silenced : Bool
  deriving DecidableEq, Repr

/-- A queue pair in RESET. -/
def QpSt.init : QpSt :=
  { ent := none, st := .reset, sqPsn := 0, rqPsn := 0, sent := [], retries := 0, progressAt := 0, rate := 0, cnpTx := none,
    cnpRx := none, rateAt := 0, rxVa := none, head := 0, lists := [], skip := [], seen := [], ringSeq := 0, backlog := [],
    awaitFirst := false }

/-- No generation switching. -/
def BaseGen.init : BaseGen := ⟨0, 0, false, 0⟩

/-- A service node with nothing loaded. The handle counter starts so that the first handle is 1. -/
def SvcSt.init : SvcSt :=
  { ifaces := [], peers := [], lldp := [], held := [], qps := [], blocks := [], handle := 0, lastQp := 0, reqs := [],
    refused := [], closed := [], waitAt := [], jobs := [], exports := [], adapters := [], gens := [], atCommit := [], silenced := false }

end Sys2Proof.Machine
end

