-- ==== Sys2Proof/Machine/State.lean ====
section
/-! DEFINITION. The state of the module as plain data: registers, memories, cores, ring contexts, ports, slices, the commit
logic, the service node, the chain and the standby domain; the reasons a step can stop; and the state after reset. -/

namespace Sys2Proof.Machine

/-! ### Cores, sequencers and streams (02, 06, 07) -/

/-- One firing of a cue (R278): its index in the cue table, trigger, year, day, kind of year, firing index and step. -/
structure Firing where
  cue : Nat
  trig : Trig
  year : Nat
  day : Nat
  bwd : Bool
  idx : Nat
  step : Nat
  deriving DecidableEq, Repr

/-- A loop in progress (R296): its body `[first, last)` in the operation array, the current index and the count. -/
structure LoopFrame where
  first : Nat
  last : Nat
  idx : Nat
  count : Nat
  deriving DecidableEq, Repr

/-- The states of a thread context (R282). -/
inductive CtxState where
  | idle | ready | issuing | sleeping
  deriving DecidableEq, Repr

/-- What a sleeping context waits on: a stream's DONE count (R239), a swap of a region (R244), a sync word (R317). -/
inductive WaitObj where
  | stream (n : Nat) (target : BitVec 32)
  | swap (region : Nat)
  | sync (id : Nat) (cond : Nat) (val : BitVec 32)
  deriving DecidableEq, Repr

/-- A wait: its object, the number of its operation, DUE (R298), the GCNT count of its issue, and whether its slip has reached
SLIP_LIMIT (R301). -/
structure Wait where
  obj : WaitObj
  opId : Nat
  due : Bool
  start : Nat
  limited : Bool
  deriving DecidableEq, Repr

/-- A use of a region by an operation: the half for a DOUBLE region, none for the whole region (R284). -/
structure RegUse where
  region : Nat
  half : Option Bool
  write : Bool
  deriving DecidableEq, Repr

/-- An issued operation that has not completed (R284, R285). -/
structure OutOp where
  id : Nat
  uses : List RegUse
  deriving DecidableEq, Repr

/-- The barrier record of a context (R326). -/
structure BarrierRec where
  syncId : Nat
  sense : Bool
  deriving DecidableEq, Repr

/-- A thread context (R282). `held` names the chain of TILEs whose sums it holds in the accumulator banks (R288). -/
structure ThreadCtx where
  params : SMap (BitVec 32)
  st : CtxState
  pending : List Firing
  cur : Option Firing
  nextOp : Nat
  endOp : Nat
  loops : List LoopFrame
  out : List OutOp
  wait : Option Wait
  barrier : Option BarrierRec
  held : Option Nat
  deriving DecidableEq, Repr

/-- An operation in a unit queue: its context, number, word, firing, parameter registers at issue, the SIDE bits at issue of the
DOUBLE regions it names (R284, R287, R290), the chain its sums belong to and whether it continues held sums (R288), the first
draw block it takes (R502), and whether it is the fold work of a narrowed array (R88). -/
structure UnitOp where
  ctx : Nat
  id : Nat
  word : BitVec 128
  firing : Firing
  params : List (BitVec 32)
  side : SMap Bool
  chain : Nat
  cont : Bool
  draw : Nat
  fold : Bool
  deriving DecidableEq, Repr

/-- A queued arm of a stream (R238): stream number, HBM base, whether a REARM set it, scratchpad offset, SIDE at the arm, number of
the arm, the digest layer it folds into (R293), the operation that issued it, and its firing. -/
structure Arm where
  stream : Nat
  base : Int
  rearmed : Bool
  spmOff : Nat
  side : Bool
  armNo : BitVec 32
  digest : Option Nat
  opId : Nat
  firing : Firing
  deriving DecidableEq, Repr

/-- One run of a transfer: HBM address, length in bytes (elements with CODED), item handle (R242, R255). -/
structure Run where
  addr : Nat
  len : Nat
  item : Nat
  deriving DecidableEq, Repr

/-- The transfer in service of an engine: its runs, the bytes of its string already moved, the GCNT count of its start, the
count from which it waits for region space or a multicast member (R266), and the blocks its regulator class has not granted
yet (R257). -/
structure Xfer where
  runs : List Run
  moved : Nat
  start : Nat
  waitFrom : Option Nat
  owed : Nat
  deriving DecidableEq, Repr

/-- A stream engine: its arm queue, the head being in service when `xfer` is set (R238). -/
structure EngineSt where
  queue : List Arm
  xfer : Option Xfer
  deriving DecidableEq, Repr

/-- A program bank: the ring context bound and the schedule's index in the library (R275). -/
structure Binding where
  ring : Nat
  sched : Nat
  loaded : Bool
  deriving DecidableEq, Repr

/-- A sync signal that waits for a transfer of its core (R321): stream, arm number, remote target or local. -/
structure AfterSig where
  stream : Nat
  armNo : BitVec 32
  kind : Nat
  syncId : Nat
  value : BitVec 32
  dest : Option Coord
  ctx : Nat
  opId : Nat
  step : Nat
  deriving DecidableEq, Repr

/-- A core: its contexts and program banks, unit queues and engines, stream counts (R239), SIDE bits (R244), draw blocks by
context and trigger (R502), sums held by chain (R288), banks that await their drain and since when the feeder waits for one
(R79), and since when dummy operations run (R105). -/
structure CoreSt where
  ctxs : SMap ThreadCtx
  saved : SMap (BitVec 32)
  live : Option Binding
  armed : Option Binding
  residentSet : Nat
  due : List Firing
  commitWait : Option (Nat × Nat × Nat)
  lastCommit : Option Nat
  opCount : Nat
  tileQ : List UnitOp
  thinQ : List UnitOp
  vecQ : List UnitOp
  fetch0 : EngineSt
  fetch1 : EngineSt
  drain : EngineSt
  armedCnt : SMap (BitVec 32)
  doneCnt : SMap (BitVec 32)
  sides : SMap Bool
  digestOn : SMap Nat
  afters : List AfterSig
  draws : SMap (Nat × Nat × Nat)
  banks : SMap (List (BitVec 32))
  drainA : Nat
  drainB : Nat
  stallA : Option Nat
  stallB : Option Nat
  holdFrom : Option (Nat × Bool)
  dummyA : Option Nat
  dummyB : Option Nat
  deriving DecidableEq, Repr

/-- A cluster: the schedule whose leaf table is live and the one loading (R275), and by class the core that last won the
regulator's bucket (R257, R210). -/
structure ClusterSt where
  liveSched : Option Nat
  armedSched : Option Nat
  winner : SMap Nat
  deriving DecidableEq, Repr

/-! ### Ring contexts (01) -/

/-- A leaf in reception in one direction: the extension of packet 0, the next packet index, the bodies so far, whether
forwarding began and whether a check has failed (R47). -/
structure LeafRx where
  ext : LeafExt
  next : Nat
  body : List Byte
  port : Nat
  vc : Nat
  deriving DecidableEq, Repr

/-- One direction of a ring context: live, ended (R42), the module's own leaf under way on its link and multicast path (R38),
the leaf in reception, the tiles of the leaf under way that the leaf tree has broadcast (R251), and the count of the last
acceptance (R42). -/
structure RingDir where
  live : Bool
  ended : Bool
  reading : Bool
  rx : Option LeafRx
  fed : Nat
  acceptedAt : Nat
  deriving DecidableEq, Repr

/-- A gradient leaf handled at this module: direction, year and day (R47). -/
structure GradKey where
  dir : Dir
  year : Nat
  day : Nat
  deriving DecidableEq, Repr

/-- A completed gradient leaf that the owner keeps in FP32 (R45, R138). -/
structure KeptGrad where
  key : GradKey
  elems : List (BitVec 32)
  deriving DecidableEq, Repr

/-- A ring context beyond its registers (R42, R43, R275, R445, R471, R503): whether its launch count has come (R41), the schedule bound,
whether the bank is loaded and the mirror at placement held, the key and status of a refused ARM (R274), the seed captured, gradient
leaves received and those completed here, the bytes of the X− neighbour's share written into the spare shadow copy since the last
commit (R35), whether the share is in place, the year in which a spare catches up on this ring (R471) and the position of the spare
that this module stands in for, and the extensions of the backward weight leaves of its uncommitted steps, which their gradient
leaves repeat (R45). -/
structure RingSt where
  cw : RingDir
  ccw : RingDir
  launched : Bool
  sched : Option Nat
  bankLoaded : Bool
  mirrorHeld : Bool
  refused : Option (Nat × Nat)
  seed : BitVec 64
  grads : List GradKey
  kept : List KeptGrad
  shadowBytes : Nat
  shareOk : Bool
  catchUp : Option Nat
  proxy : Option Nat
  bwdExts : List LeafExt
  deriving DecidableEq, Repr

/-! ### Memory (05) -/

/-- An HBM channel: the last winner, the port holding the grant and its start, the scrub position and the scrub passes completed, and
the contexts monitoring sync words of the channel (R209, R210, R212, R324). -/
structure ChanSt where
  last : Nat
  grant : Option (Nat × Nat)
  scrub : Nat
  passes : Nat
  monitors : List (Nat × Nat)
  deriving DecidableEq, Repr

/-- A vault block (R215, R221): what it holds, and its write count.
(DESIGN CHOICE, log 176) -/
structure VaultBlock where
  data : List Byte
  writes : Nat
  deriving DecidableEq, Repr

/-- A vault read under way (R206, R217, R583): the count of its issue, whether a rebuild has started for it, whether the weight load wants the
block, and the units that other modules have asked for, as coordinate, ring context and unit. -/
structure VaultRead where
  block : Nat
  issued : Nat
  rebuilding : Bool
  forLoad : Bool
  wants : List (Coord × Nat × Nat)
  deriving DecidableEq, Repr

/-- The weight vault: its blocks, the reads under way, the blocks found bad or late and not yet rebuilt, the suspect list,
the remapped blocks, the slot words and manifests in its metadata blocks, and the installation streams: bytes collected and the next
offset, by slot and by body or manifest (R215–R222, R573). -/
structure VaultSt where
  blocks : SMap VaultBlock
  reads : List VaultRead
  bad : List Nat
  suspect : List Nat
  sparesLeft : Nat
  slotA : BitVec 64
  slotB : BitVec 64
  manifest : SMap (List Byte)
  staged : SMap (List Byte)
  nextUnit : SMap Nat
  deriving DecidableEq, Repr

/-! ### Commit logic and recovery (11) -/

/-- An uncommitted step of a slice at this module (R446–R453): cores that have reported COMMIT, mirrored writes sent and not
acknowledged, READY sent, and the status its items will take when a fault has failed them: all of them, or some. -/
structure StepSt where
  step : Nat
  reports : List Nat
  mirrorOut : Nat
  readySent : Bool
  fail : Option Nat
  failItems : List (Nat × Nat)
  deriving DecidableEq, Repr

/-- What the home of a slice holds (R451, R465, R466, R471): READY by member and step, the step whose DECIDE is outstanding,
resolution reports, members restored, and the decided target. -/
structure HomeSt where
  ready : List (Coord × Nat)
  deciding : Option Nat
  decided : Option Nat
  reports : List (Coord × Int × Bool)
  logged : Option (Option Nat)
  restored : List Coord
  target : Option Int
  deriving DecidableEq, Repr

/-- Repeats of faults during the replay of a step (R195, R328, R458, R472). -/
structure Repeats where
  step : Nat
  rollbacks : Nat
  syncIds : List Nat
  ringDays : List (Dir × Nat × Nat)
  parity : List (Nat × Nat)
  deriving DecidableEq, Repr

/-- A slice of the slice map at this module (R424–R427, R444–R473). -/
structure SliceSt where
  desc : Option SliceDesc
  detMode : Bool
  baseYear : Option Nat
  committed : Option Nat
  steps : List StepSt
  rstate : Nat
  fenced : Bool
  fenceAt : Nat
  fenceCls : Nat
  rollbacks : Nat
  halted : Bool
  failed : Bool
  boundDone : Bool
  noReplay : List Nat
  frozen : Bool
  draining : Bool
  drained : Bool
  relaunchAt : Option Nat
  flipsAt : Nat
  replaced : List Coord
  repeats : Repeats
  home : HomeSt
  deriving DecidableEq, Repr

/-- A page of the undo log: slice, step, page number of 16 KiB and its committed contents (R446). -/
structure UndoPage where
  slice : Nat
  step : Nat
  page : Nat
  cells : List Host.Cell
  deriving DecidableEq, Repr

/-- A staged write of the ward (R447): partition key, step, address and bytes. -/
structure StagedWrite where
  pkey : BitVec 12
  step : Nat
  addr : Nat
  data : List Byte
  deriving DecidableEq, Repr

/-- The core state record of a core (R448): parameter registers of every set, the resident set, the sync words of the slice in
its scratchpad, and the draw block counters. -/
structure CoreRec where
  core : Nat
  slice : Nat
  step : Nat
  params : SMap (BitVec 32)
  residentSet : Nat
  sync : SMap (BitVec 64)
  deriving DecidableEq, Repr

/-- An admitted item (R2, R455): serving request 1, training step 2, host DMA 3, export 4. -/
structure Item where
  handle : Nat
  typ : Nat
  pkey : BitVec 12
  step : Option Nat
  count : Nat
  lost : Nat
  replays : Nat
  cls : Nat
  status : Option Nat
  deriving DecidableEq, Repr

/-- The commit logic: undo log, the ward's staged writes and decision records, the core state records, the items admitted,
and the bytes received to rebuild the ward's mirror (R470). -/
structure CommitSt where
  undo : List UndoPage
  staged : List StagedWrite
  wardDecide : List (BitVec 12 × Nat)
  recStaged : List CoreRec
  recCur : List CoreRec
  items : List Item
  rebuilt : Nat
  deriving DecidableEq, Repr

/-! ### Tasting digests (12) -/

/-- A tasting digest accumulator of an uncommitted step (R504, R505). -/
structure DigestAcc where
  pkey : BitVec 12
  step : Nat
  bwd : Bool
  layer : Nat
  year : Nat
  chunks : Nat
  bad : Bool
  acc : BitVec 128
  deriving DecidableEq, Repr

/-! ### What leaves the module -/

/-- Messages whose bytes the spec does not lay out: between members, buddies, homes and the coordinator (R415–R418, R445–R471),
and of start-up (R579–R586). A core state record on its way to the buddy (R448) and the mirror of a state at placement (R445) are
among them. -/
inductive Mgmt where
  | heartbeat
  | faultReport (cls : Nat) (coord : Coord) (port : Option Nat) (pkeys : List (BitVec 12))
  | mirrorAck (pkey : BitVec 12) (step : Nat)
  | ready (pkey : BitVec 12) (step : Nat)
  | decide (pkey : BitVec 12) (step : Nat)
  | decideAck (pkey : BitVec 12) (step : Nat)
  | commit (pkey : BitVec 12) (step : Nat)
  | apply (pkey : BitVec 12) (step : Nat)
  | resolution (pkey : BitVec 12) (committed : Int) (readySent : Bool)
  | mirrorResolution (pkey : BitVec 12) (staged : Bool) (decided : Option Nat)
  | rollback (pkey : BitVec 12) (target : Int)
  | restoreDone (pkey : BitVec 12)
  | relaunchCount (pkey : BitVec 12) (at_ : BitVec 64)
  | safeRequest
  | coreRecord (pkey : BitVec 12) (r : CoreRec)
  | mirrorState (pkey : BitVec 12) (bytes : Nat)
  | faultMap (seq : Nat) (map : FaultMap) (verdict : Option PlanVerdict)
  | prepareAck (seq : Nat)
  | flipAt (at_ : BitVec 64)
  | drainCheck (at_ : BitVec 64)
  | drainReply (rep : DrainReply)
  | retire
  | sliceChange (at_ : Nat) (c : MapChange)
  | takeover (t : TakeOver)
  | assign (coord : Coord) (seedUid : BitVec 32)
  | relinquish
  | weightLoad (k : Nat)
  | unitRequest (k unit : Nat)
  | lastSend (sect : Nat)
  | loadDone
  | placed
  | readyCount (at_ : BitVec 64)
  | relayed (tag : BitVec 10) (inner : InnerReq)
  deriving DecidableEq, Repr

/-- Messages to the peer of one port (R579, R605). -/
inductive PortMsg where
  | assign (coord : Coord) (seedUid : BitVec 32)
  | neighbour (coord : Coord)
  | report (rep : List ModReport)
  | kxHello (m : KxHello)
  | kxReply (m : KxHello)
  | kxAuth (role : Nat)
  | kxDone (mac : List Byte)
  deriving DecidableEq, Repr

/-- Everything the module sends. A response on the management path travels in a MGMT packet to the coordinate that `src` names (R560).
(DESIGN CHOICE, log 2; DEDUCED, log 11) -/
inductive Msg where
  | resp (r : Req) (status reason : BitVec 8) (data : List Byte)
  | event (tag : BitVec 10) (kind : Nat) (seq : BitVec 32) (gcnt : BitVec 64) (body : List Byte)
  | packet (p : Packet)
  | fence (port : Nat) (device : Bool) (pkey : BitVec 12) (gcnt : BitVec 64)
  | mgmt (dst : Coord) (m : Mgmt)
  | syncFlit (port : Nat) (f : SyncFlit)
  | i3cInterrupt (mandatory : Byte)
  | i3cRead (data : List Byte)
  | portMsg (port : Nat) (m : PortMsg)
  | delivered (port : Nat) (p : Packet)
  | dataFlits (port vc seq count : Nat) (kph : Bool) (n : Nat) (p : Packet)
  | poisonFlits (port seq count : Nat) (p : Packet)
  | resendFlits (port seq count : Nat)
  | nakFlit (port seq : Nat)
  | ctrlFlit (port : Nat) (counts : List Nat)
  | helloFlit (port : Nat) (payload : List Byte)
  | chainRequest (tag : BitVec 10) (body : OwnReq) (data : List Byte)
  | enumerate (next : Nat) (tag : BitVec 10)
  | chainForward (upstream : Bool) (dst : BitVec 8) (bytes : List Byte)
  | roce (qp : Nat) (m : RoceMsg)
  | eth (i : Nat) (f : EthOut)
  deriving DecidableEq, Repr

/-! ### The counter snapshot (08) -/

/-- The latched snapshot not yet published: its count, and whether it was late or unlocked (R338, R341, R346). -/
structure SnapInfo where
  gcnt : Nat
  late : Bool
  unlocked : Bool
  waiting : List (BitVec 12)
  deriving DecidableEq, Repr

/-- The GCNT servo (R332–R335): exchanges below the lock bound in a row, whether the first lock has happened, the count of the
last lock, the exchange number and t1 in ps of the last request on each port, the depth last heard on each port, the count at
which the parent was lost, and the rate in ppm.
(DESIGN CHOICE, log 15) -/
structure ServoSt where
  run : Nat
  everLocked : Bool
  lockedAt : Nat
  sent : SMap (Nat × Nat)
  heard : SMap (Nat × Nat)
  lostAt : Option Nat
  rate : Int
  deriving DecidableEq, Repr

/-! ### Instances as reset leaves them -/

/-- An idle context with no parameters written. -/
def ThreadCtx.init : ThreadCtx := ⟨[], .idle, [], none, 0, 0, [], [], none, none, none⟩

/-- An engine with nothing queued. -/
def EngineSt.init : EngineSt := ⟨[], none⟩

/-- A core with no program. -/
def CoreSt.init : CoreSt :=
  { ctxs := [], saved := [], live := none, armed := none, residentSet := 0, due := [], commitWait := none,
    lastCommit := none, opCount := 0, tileQ := [], thinQ := [], vecQ := [], fetch0 := .init, fetch1 := .init,
    drain := .init, armedCnt := [], doneCnt := [], sides := [], digestOn := [], afters := [], draws := [], banks := [],
    drainA := 0, drainB := 0, stallA := none, stallB := none, holdFrom := none, dummyA := none, dummyB := none }

/-- A cluster with no leaf table. -/
def ClusterSt.init : ClusterSt := ⟨none, none, []⟩

/-- A direction of an idle ring context. -/
def RingDir.init : RingDir := ⟨false, false, false, none, 0, 0⟩

/-- An idle ring context. Its share is in place (`shareOk`) unless a take-over says otherwise (R471). -/
def RingSt.init : RingSt :=
  { cw := .init, ccw := .init, launched := false, sched := none, bankLoaded := false, mirrorHeld := false, refused := none,
    seed := 0, grads := [], kept := [], shadowBytes := 0, shareOk := true, catchUp := none, proxy := none, bwdExts := [] }

/-- An idle channel: the ranking starts at port 0, so the last winner is port 7.
(DESIGN CHOICE, log 5) -/
def ChanSt.init : ChanSt := ⟨7, none, 0, 0, []⟩

/-- A vault block never written. -/
def VaultBlock.init : VaultBlock := ⟨[], 0⟩

/-- A vault with nothing listed and 3,932,160 spares (R215). -/
def VaultSt.init : VaultSt := ⟨[], [], [], [], 3932160, 0, 0, [], [], []⟩

/-- A home that holds nothing. -/
def HomeSt.init : HomeSt := ⟨[], none, none, [], none, [], none⟩

/-- No repeated fault. -/
def Repeats.init : Repeats := ⟨0, 0, [], [], []⟩

/-- An empty entry of the slice map. -/
def SliceSt.init : SliceSt :=
  { desc := none, detMode := false, baseYear := none, committed := none, steps := [], rstate := 0, fenced := false,
    fenceAt := 0, fenceCls := 0, rollbacks := 0, halted := false, failed := false, boundDone := false, noReplay := [],
    frozen := false, draining := false, drained := false, relaunchAt := none, flipsAt := 0, replaced := [], repeats := .init, home := .init }

/-- Empty commit logs. -/
def CommitSt.init : CommitSt := ⟨[], [], [], [], [], [], 0⟩

/-- A servo that has exchanged nothing. -/
def ServoSt.init : ServoSt := ⟨0, false, 0, [], [], none, 0⟩

/-! ### The whole module -/

/-- Everything of the module but the queue of waiting commands. `spm` holds the scratchpads as they stand against `spmLost`, the number of
the last loss of their contents (R620); `frozen` holds the registers and the count that reads see in an idle state (R622). -/
structure Dev where
  regs : SMap Nat
  gcnt : BitVec 64
  hbm : List Host.Cell
  spm : List Host.Cell
  hbmBad : List Nat
  hbmMarks : List (Nat × Nat)
  spmMarks : List (Nat × Nat)
  spmParity : List Nat
  repair : List Nat
  chans : SMap ChanSt
  regions : List (BitVec 128)
  codecTables : List (BitVec 128)
  digestK : BitVec 128
  digests : List DigestAcc
  schedLib : List Schedule
  syncLib : List SyncTable
  cores : SMap CoreSt
  clusters : SMap ClusterSt
  rings : SMap RingSt
  slices : SMap SliceSt
  commit : CommitSt
  vault : VaultSt
  chain : ChainSt
  ports : SMap PortSt
  route : RouteSt
  svc : SvcSt
  start : StartSt
  secure : SecureSt
  power : PowerSt
  board : BoardSt
  servo : ServoSt
  snapInfo : SnapInfo
  snapPend : SMap Nat
  snapPub : SMap Nat
  spmLost : Nat
  frozen : Option (SMap Nat × BitVec 64)
  outbox : List Msg
  freeCtr : Nat
  deriving DecidableEq, Repr

/-- The module right after reset: every register at its reset value (no entry in `regs`), memories with nothing listed, everything else
empty.
(DESIGN CHOICE, log 3, 70) -/
def Dev.reset : Dev :=
  { regs := [], gcnt := 0, hbm := [], spm := [], hbmBad := [], hbmMarks := [], spmMarks := [], spmParity := [], repair := []
    chans := [], regions := [], codecTables := [], digestK := 0, digests := [], schedLib := [], syncLib := [], cores := []
    clusters := [], rings := [], slices := [], commit := .init, vault := .init, chain := .init, ports := [], route := .init
    svc := .init, start := .init, secure := .init, power := .init, board := .init, servo := .init
    snapInfo := ⟨0, false, false, []⟩, snapPend := [], snapPub := [], spmLost := 0, frozen := none, outbox := [], freeCtr := 0 }

/-! ### The state of the model -/

/-- The whole state: the commands that wait, first in, first out, and the module. -/
structure State where
  pending : List Instr
  dev : Dev
  deriving DecidableEq, Repr

/-- The state right after reset: no command waits. -/
def State.reset : State := ⟨[], .reset⟩

/-- Faults of the model: none. The spec gives every condition of its own an effect on the state (an error flag, a response, a safe state). -/
inductive Fault where
  deriving DecidableEq, Repr

/-- Refusals of the model. -/
inductive Refusal where
  /-- A command without a meaning, by its mnemonic. No command of this model answers with it; a refusal would be safe. -/
  | notModelled (mnemonic : String)
  deriving DecidableEq, Repr

end Sys2Proof.Machine
end

