-- ==== Sys2Proof/Machine/Fields.lean ====
section
/-! DEFINITION. Registers and the families of the state: reading and writing one field of one copy of a register, and one member of a
family. -/

namespace Sys2Proof.Machine

/-! ### Registers -/

/-- Copies of one register are numbered below this bound (R313 has the most, 25,600 × 64). -/
def regCopies : Nat := 2097152

/-- The key of copy `i` of a register. -/
def regKey (r : Reg) (i : Nat) : Nat := r.ctorIdx * regCopies + i % regCopies

/-- The reset word of a register: its fields at their reset values, reserved bits zero (R14).
(DEDUCED, log 203) -/
def Reg.resetWord (r : Reg) : Nat :=
  r.info.fields.foldl (fun w f => putBits w f.hi f.lo f.reset) 0

/-- The bits of a register that some field names. -/
def Reg.mask (r : Reg) : Nat :=
  r.info.fields.foldl (fun w f => putBits w f.hi f.lo (2 ^ (f.hi - f.lo + 1) - 1)) 0

/-- What an unlisted register key reads as. -/
def regDefault (k : Nat) : Nat :=
  match Reg.all[k / regCopies]? with
  | some r => r.resetWord
  | none => 0

/-- The stored word of copy `i` of a register. -/
def Dev.reg (d : Dev) (r : Reg) (i : Nat := 0) : Nat := mapGet regDefault d.regs (regKey r i)

/-- A field of a stored register. -/
def Dev.fld (d : Dev) (f : Fld) (i : Nat := 0) : Nat := (d.reg f.reg i >>> f.lo) % 2 ^ (f.hi - f.lo + 1)

/-- A one-bit field of a stored register. -/
def Dev.bit (d : Dev) (f : Fld) (i : Nat := 0) : Bool := d.fld f i ≠ 0

/-- The global count as a number (R331). -/
def Dev.now (d : Dev) : Nat := d.gcnt.toNat

/-! ### Families -/

def Dev.core (d : Dev) (c : Nat) : CoreSt := mapGet (fun _ => CoreSt.init) d.cores c
def Dev.cluster (d : Dev) (g : Nat) : ClusterSt := mapGet (fun _ => ClusterSt.init) d.clusters g
def Dev.ring (d : Dev) (k : Nat) : RingSt := mapGet (fun _ => RingSt.init) d.rings k
def Dev.slice (d : Dev) (i : Nat) : SliceSt := mapGet (fun _ => SliceSt.init) d.slices i
def Dev.chan (d : Dev) (ch : Nat) : ChanSt := mapGet (fun _ => ChanSt.init) d.chans ch
def CoreSt.ctx (c : CoreSt) (n : Nat) : ThreadCtx := mapGet (fun _ => ThreadCtx.init) c.ctxs n

/-- HBM holds 512 GiB (R202). -/
def hbmSize : Nat := 549755813888
/-- A scratchpad holds 3,072 words of 64 bytes (R186). -/
def spmSize : Nat := 196608
/-- The cores of the device (R6). -/
def coreCount : Nat := 25600

def Dev.port (d : Dev) (p : Nat) : PortSt := mapGet (fun _ => PortSt.init) d.ports p

/-! ### Writing -/

/-- The whole reset word kept in canonical form. -/
def setReg (r : Reg) (i : Nat) (v : Nat) (m : SMap Nat) : SMap Nat := mapSet regDefault (regKey r i) v m

/-- Write a field of a register through a function of its old value. -/
def Dev.setFld (d : Dev) (f : Fld) (i : Nat) (g : Nat → Nat) : Dev :=
  { d with regs := setReg f.reg i (putBits (d.reg f.reg i) f.hi f.lo (g (d.fld f i))) d.regs }

/-- Change a port. -/
def Dev.onPort (d : Dev) (p : Nat) (g : PortSt → PortSt) : Dev :=
  { d with ports := mapSet (fun _ => PortSt.init) p (g (d.port p)) d.ports }

/-- Send a message. -/
def Dev.emit (d : Dev) (m : Msg) : Dev := { d with outbox := d.outbox ++ [m] }

end Sys2Proof.Machine
end

