-- ==== Sys2Proof/Machine/Topo.lean ====
section
/-! DEFINITION. Coordinates, ports, neighbours, slice membership, buddies, homes and the coordinator (R332, R398, R425, R447, R450). -/

namespace Sys2Proof.Machine

/-- The x, y and z of a coordinate. -/
def cx (c : Coord) : Nat := bitsOf c 11 8
def cy (c : Coord) : Nat := bitsOf c 7 4
def cz (c : Coord) : Nat := bitsOf c 3 0

/-- A coordinate from x, y and z. -/
def mkCoord (x y z : Nat) : Coord := BitVec.ofNat 12 (x % 16 * 256 + y % 16 * 16 + z % 16)

/-- This module's coordinate (R433). -/
def Dev.here (d : Dev) : Coord := mkCoord (d.fld F.DEV_COORD_X) (d.fld F.DEV_COORD_Y) (d.fld F.DEV_COORD_Z)

/-- The machine's axis lengths (R433). -/
def Dev.axis (d : Dev) (a : Nat) : Nat :=
  match a with
  | 0 => d.fld F.DEV_COORD_SX
  | 1 => d.fld F.DEV_COORD_SY
  | _ => d.fld F.DEV_COORD_SZ

/-- Coordinate `i` of axis `a`. -/
def coordOn (c : Coord) (a : Nat) : Nat :=
  match a with
  | 0 => cx c
  | 1 => cy c
  | _ => cz c

/-- Replace the position on an axis. -/
def setOn (c : Coord) (a v : Nat) : Coord :=
  match a with
  | 0 => mkCoord v (cy c) (cz c)
  | 1 => mkCoord (cx c) v (cz c)
  | _ => mkCoord (cx c) (cy c) v

/-- Ports are X+, X−, Y+, Y−, Z+, Z− (0–5, R352): the axis of a port and whether it points to the plus side. -/
def portAxis (p : Nat) : Nat := p / 2
def portPlus (p : Nat) : Bool := p % 2 = 0
/-- The port at the other end of a link. -/
def oppositePort (p : Nat) : Nat := if portPlus p then p + 1 else p - 1

/-- The neighbour one step along an axis, on the torus. -/
def Dev.stepOn (d : Dev) (c : Coord) (a : Nat) (plus : Bool) : Coord :=
  let n := max 1 (d.axis a)
  setOn c a (if plus then (coordOn c a + 1) % n else (coordOn c a + n - 1) % n)

/-- The coordinate at a port. -/
def Dev.neighbour (d : Dev) (p : Nat) : Coord := d.stepOn d.here (portAxis p) (portPlus p)

/-- Every coordinate of the machine in the order x, then y, then z (R539, R579). -/
def Dev.allCoords (d : Dev) : List Coord :=
  (List.range (d.axis 2)).flatMap fun z =>
    (List.range (d.axis 1)).flatMap fun y => (List.range (d.axis 0)).map fun x => mkCoord x y z

/-- The origin of a slice (R424). -/
def originOf (s : SliceDesc) : Coord := s.origin.truncate 12

/-- The size of a slice on an axis. -/
def sizeOn (s : SliceDesc) (a : Nat) : Nat :=
  match a with
  | 0 => bitsOf s.sizeX 4 0
  | 1 => bitsOf s.sizeY 4 0
  | _ => bitsOf s.sizeZ 4 0

/-- The offset of a coordinate from the slice's origin on an axis, on the torus. -/
def Dev.offsetIn (d : Dev) (s : SliceDesc) (c : Coord) (a : Nat) : Nat :=
  let n := max 1 (d.axis a)
  (coordOn c a + n - coordOn (originOf s) a % n) % n

/-- Whether a coordinate is a member of a slice (R425). -/
def Dev.isMember (d : Dev) (s : SliceDesc) (c : Coord) : Bool :=
  [0, 1, 2].all fun a => coordOn c a < max 1 (d.axis a) && d.offsetIn s c a < sizeOn s a

/-- Whether a coordinate is a transit module of a slice on an axis (R425). -/
def Dev.isTransitOn (d : Dev) (s : SliceDesc) (c : Coord) (a : Nat) : Bool :=
  bitOf s.wrap a && sizeOn s a < d.axis a && !d.isMember s c &&
    [0, 1, 2].all fun b => b = a || (coordOn c b < max 1 (d.axis b) && d.offsetIn s c b < sizeOn s b)

/-- Whether a coordinate is a transit module of a slice. -/
def Dev.isTransit (d : Dev) (s : SliceDesc) (c : Coord) : Bool := [0, 1, 2].any fun a => d.isTransitOn s c a

/-- The members of a slice in the member order of R539: x, then y, then z within the slice box. -/
def Dev.members (d : Dev) (s : SliceDesc) : List Coord :=
  (List.range (sizeOn s 2)).flatMap fun k =>
    (List.range (sizeOn s 1)).flatMap fun j =>
      (List.range (sizeOn s 0)).map fun i =>
        mkCoord ((cx (originOf s) + i) % max 1 (d.axis 0)) ((cy (originOf s) + j) % max 1 (d.axis 1))
          ((cz (originOf s) + k) % max 1 (d.axis 2))

/-- The axis of buddies: Y, then Z, then X (R447). -/
def Dev.buddyAxis (d : Dev) : Option Nat :=
  if 2 ≤ d.axis 1 then some 1 else if 2 ≤ d.axis 2 then some 2 else if 2 ≤ d.axis 0 then some 0 else none

/-- The buddy of a module (R447). -/
def Dev.buddyOf (d : Dev) (c : Coord) : Option Coord := d.buddyAxis.map fun a => d.stepOn c a true
/-- The ward of a module: the one whose buddy it is. -/
def Dev.wardOf (d : Dev) (c : Coord) : Option Coord := d.buddyAxis.map fun a => d.stepOn c a false

/-- Whether another module and this one are buddy and ward of each other (R447). -/
def Dev.paired (d : Dev) (c : Coord) : Bool := d.buddyOf d.here = some c || d.wardOf d.here = some c

/-- Whether a coordinate is dead or vacant in the fault map. -/
def Dev.isDead (d : Dev) (c : Coord) : Bool := d.route.fmap.dead.contains c

/-- The coordinator: the module at (0, 0, 0), or while it is dead or vacant the first live module in the order of the walk
(R335, R415, R459). -/
def Dev.coordinator (d : Dev) : Coord := (d.allCoords.find? fun c => !d.isDead c).getD 0

/-- The home of a slice: the member at its ORIGIN (R450). -/
def homeOf (s : SliceDesc) : Coord := originOf s

/-- The resolver of a slice: its home, or while the home is dead the first live member (R465). -/
def Dev.resolver (d : Dev) (s : SliceDesc) : Coord :=
  if d.isDead (homeOf s) then ((d.members s).find? fun c => !d.isDead c).getD (homeOf s) else homeOf s

/-- The partition key of a slice map entry. -/
def SliceSt.pkey (s : SliceSt) : BitVec 12 :=
  match s.desc with
  | some e => e.pkey.truncate 12
  | none => 0

/-- The index of the slice of a partition key. -/
def Dev.sliceOf (d : Dev) (pkey : BitVec 12) : Option Nat :=
  (d.slices.find? fun e => match e.2.desc with
    | some s => s.pkey.truncate 12 = pkey
    | none => false).map Prod.fst

/-- Whether this module is a member of a slice of the map. -/
def Dev.memberHere (d : Dev) (s : SliceSt) : Bool :=
  match s.desc with
  | some e => d.isMember e d.here
  | none => false

/-- Whether this module is a transit module of a slice of the map. -/
def Dev.transitHere (d : Dev) (s : SliceSt) : Bool :=
  match s.desc with
  | some e => d.isTransit e d.here
  | none => false

/-- The cluster of a core (R8): 64 cores each. -/
def clusterOf (c : Nat) : Nat := c / 64
/-- The quadrant of a core. -/
def quadrantOf (c : Nat) : Nat := c / 6400

end Sys2Proof.Machine
end

