-- ==== Sys2Proof/Machine/Packets.lean ====
section
/-! DEFINITION. Packet headers, leaf extensions and sync extensions: their bytes (R28, R320, R359) and the packets the module
builds. -/

namespace Sys2Proof.Machine

/-- A run of bytes as a bit vector of a given width, little-endian. -/
def leBits (w : Nat) (bs : List Byte) : BitVec w := BitVec.ofNat w (leNat bs)

/-- Bytes `[off, off + n)` of a byte list as a bit vector. -/
def fieldAt (bs : List Byte) (off n : Nat) : BitVec (8 * n) := leBits (8 * n) ((bs.drop off).take n)

/-- The 64 bytes of a leaf extension (R28). -/
def leafBytes (e : LeafExt) : List Byte :=
  [e.extType, e.flags, e.pktIdx, e.hop, e.ttl, e.origin] ++ leBytes 2 e.pkey.toNat ++ leBytes 4 e.year.toNat ++
  leBytes 4 e.day.toNat ++ [e.sectionByte, e.container] ++ leBytes 2 e.baseGen.toNat ++ leBytes 2 e.layer.toNat ++
  leBytes 2 e.codecTable.toNat ++ leBytes 4 e.tile.toNat ++ leBytes 4 e.leafElems.toNat ++ leBytes 2 e.tailCount.toNat ++
  leBytes 2 e.rsv34.toNat ++ leBytes 4 e.gcntInj.toNat ++ leBytes 24 e.rsv40.toNat

/-- The leaf extension that 64 bytes spell (R28). -/
def leafOfBytes (bs : List Byte) : LeafExt :=
  { extType := fieldAt bs 0 1, flags := fieldAt bs 1 1, pktIdx := fieldAt bs 2 1, hop := fieldAt bs 3 1,
    ttl := fieldAt bs 4 1, origin := fieldAt bs 5 1, pkey := fieldAt bs 6 2, year := fieldAt bs 8 4, day := fieldAt bs 12 4,
    sectionByte := fieldAt bs 16 1, container := fieldAt bs 17 1, baseGen := fieldAt bs 18 2, layer := fieldAt bs 20 2,
    codecTable := fieldAt bs 22 2, tile := fieldAt bs 24 4, leafElems := fieldAt bs 28 4, tailCount := fieldAt bs 32 2,
    rsv34 := fieldAt bs 34 2, gcntInj := fieldAt bs 36 4, rsv40 := fieldAt bs 40 24 }

end Sys2Proof.Machine

namespace Sys2Proof

open Sys2Proof.Machine

/-- Flag bits of a leaf extension (R28). -/
def LeafExt.dir (e : LeafExt) : Dir := if bitOf e.flags 0 then .ccw else .cw
def LeafExt.bwd (e : LeafExt) : Bool := bitOf e.flags 1
def LeafExt.grad (e : LeafExt) : Bool := bitOf e.flags 2
def LeafExt.shortTail (e : LeafExt) : Bool := bitOf e.flags 3
def LeafExt.isEnd (e : LeafExt) : Bool := bitOf e.flags 6
def LeafExt.scaled (e : LeafExt) : Bool := bitOf e.flags 7

end Sys2Proof

namespace Sys2Proof.Machine
/-- The 64 bytes of a sync extension (R320). -/
def syncBytes (e : SyncExt) : List Byte :=
  [e.extType, e.kind] ++ leBytes 2 e.pkey.toNat ++ leBytes 2 e.syncId.toNat ++ leBytes 2 e.src.toNat ++
  leBytes 4 e.value.toNat ++ leBytes 2 e.srcCore.toNat ++ leBytes 10 e.rsv14.toNat ++ leBytes 8 e.gcntSent.toNat ++
  leBytes 32 e.rsv32.toNat

/-- The sync extension that 64 bytes spell (R320). -/
def syncOfBytes (bs : List Byte) : SyncExt :=
  { extType := fieldAt bs 0 1, kind := fieldAt bs 1 1, pkey := fieldAt bs 2 2, syncId := fieldAt bs 4 2,
    src := fieldAt bs 6 2, value := fieldAt bs 8 4, srcCore := fieldAt bs 12 2, rsv14 := fieldAt bs 14 10,
    gcntSent := fieldAt bs 24 8, rsv32 := fieldAt bs 32 32 }

/-- Packet types (R360). -/
def ptLeaf : Nat := 1
def ptWrite : Nat := 2
def ptSignal : Nat := 3
def ptReadReq : Nat := 4
def ptReadResp : Nat := 5
def ptMgmt : Nat := 6
def ptCnp : Nat := 7

end Sys2Proof.Machine

namespace Sys2Proof

open Sys2Proof.Machine

/-- Flag bits of a packet header (R359). -/
def Packet.ordered (p : Packet) : Bool := bitOf p.flags 0
def Packet.epoch (p : Packet) : Bool := bitOf p.flags 1
def Packet.adapt (p : Packet) : Bool := bitOf p.flags 2
def Packet.hasExt (p : Packet) : Bool := bitOf p.flags 3
def Packet.coded (p : Packet) : Bool := bitOf p.flags 4
def Packet.ce (p : Packet) : Bool := bitOf p.flags 5
def Packet.echo (p : Packet) : Bool := bitOf p.flags 6
def Packet.isLast (p : Packet) : Bool := bitOf p.flags 7
def Packet.bad (p : Packet) : Bool := bitOf p.mark 0
def Packet.mirror (p : Packet) : Bool := bitOf p.mark 1
def Packet.dstCoord (p : Packet) : Coord := p.dst.truncate 12
def Packet.srcCoord (p : Packet) : Coord := p.src.truncate 12
def Packet.key (p : Packet) : BitVec 12 := p.pkey.truncate 12

end Sys2Proof

namespace Sys2Proof.Machine
/-- Replace one flag bit of a header. -/
def setFlag (p : Packet) (i : Nat) (b : Bool) : Packet :=
  { p with flags := BitVec.ofNat 8 (putBits p.flags.toNat i i (if b then 1 else 0)) }

/-- A packet with a plain header: every optional field zero. -/
def mkPacket (ptype vc : Nat) (src dst : Coord) (pkey : BitVec 12) (payload : List Byte) : Packet :=
  { ptype := BitVec.ofNat 8 ptype, flags := 0, vc := BitVec.ofNat 8 vc, mark := 0, dst := dst.zeroExtend 16,
    src := src.zeroExtend 16, pkey := pkey.zeroExtend 16, len := BitVec.ofNat 16 payload.length, item := 0, addr := 0,
    container := 0, rsv25 := 0, codecTable := 0, elems := 0, ext := [], payload := payload }

/-- An ordered SCHED packet (R359, R402: it enters on VC0). -/
def mkOrdered (ptype : Nat) (src dst : Coord) (pkey : BitVec 12) (payload : List Byte) : Packet :=
  setFlag (mkPacket ptype 0 src dst pkey payload) 0 true

/-- Attach an extension. -/
def withExt (p : Packet) (ext : List Byte) : Packet := { setFlag p 3 true with ext := ext }

/-- The 32 header bytes of a packet (R359). -/
def headerBytes (p : Packet) : List Byte :=
  [p.ptype, p.flags, p.vc, p.mark] ++ leBytes 2 p.dst.toNat ++ leBytes 2 p.src.toNat ++ leBytes 2 p.pkey.toNat ++
  leBytes 2 p.len.toNat ++ leBytes 4 p.item.toNat ++ leBytes 8 p.addr.toNat ++ [p.container, p.rsv25] ++
  leBytes 2 p.codecTable.toNat ++ leBytes 4 p.elems.toNat

/-- The bytes of a whole packet. -/
def packetBytes (p : Packet) : List Byte := headerBytes p ++ p.ext ++ p.payload

/-- The packet that bytes spell, header first: its extension when EXT is set, then LEN payload bytes. -/
def packetOfBytes (bs : List Byte) : Packet :=
  let flags : BitVec 8 := fieldAt bs 1 1
  let ext := if bitOf flags 3 then (bs.drop 32).take 64 else []
  let len : BitVec 16 := fieldAt bs 10 2
  { ptype := fieldAt bs 0 1, flags := flags, vc := fieldAt bs 2 1, mark := fieldAt bs 3 1, dst := fieldAt bs 4 2,
    src := fieldAt bs 6 2, pkey := fieldAt bs 8 2, len := len, item := fieldAt bs 12 4, addr := fieldAt bs 16 8,
    container := fieldAt bs 24 1, rsv25 := fieldAt bs 25 1, codecTable := fieldAt bs 26 2, elems := fieldAt bs 28 4,
    ext := ext, payload := (bs.drop (32 + ext.length)).take (bitsOf len 12 0) }

/-- Cut a byte list into pieces of at most `n` bytes, each with its offset. -/
def piecesFrom (fuel n off : Nat) (bs : List Byte) : List (Nat × List Byte) :=
  match fuel with
  | 0 => []
  | fuel + 1 =>
    match bs with
    | [] => []
    | b :: rest => (off, (b :: rest).take n) :: piecesFrom fuel n (off + n) ((b :: rest).drop n)

/-- Pieces of at most `n` bytes. -/
def pieces (n : Nat) (bs : List Byte) : List (Nat × List Byte) := piecesFrom bs.length n 0 bs

end Sys2Proof.Machine
end

