-- ==== Sys2Proof/Machine/Router.lean ====
section
/-! DEFINITION. The router and the transmitters of the ports: tables from fault maps (R412, R413), the choice of output port and virtual
channel (R402, R406–R411), injection with its holds and rates (R414, R416, R423), and the start of packets on a link (R365–R370,
R403, R404, R421). -/

namespace Sys2Proof.Machine

/-! ### Packets on a link -/

/-- Bytes of a packet on the link (R359). -/
def pktBytes (p : Packet) : Nat := 32 + p.ext.length + p.payload.length
/-- Credits of a packet (R365). -/
def pktCredits (p : Packet) : Nat := (pktBytes p + 63) / 64
/-- DATA flits of a packet, 244 payload bytes each (R355). -/
def pktFlits (p : Packet) : Nat := (pktBytes p + 243) / 244
/-- The VC a packet is on. -/
def pktVc (p : Packet) : Nat := p.vc.toNat % 8
/-- Whether a packet is of the SCHED class (R401). -/
def isSched (p : Packet) : Bool := pktVc p ≤ 1

/-- Element `i` of a list of counts. -/
def nth (xs : List Nat) (i : Nat) : Nat := xs[i]?.getD 0
/-- Add to element `i` of six counts, modulo 2^32. -/
def addNth (xs : List Nat) (i n : Nat) : List Nat :=
  (List.range 6).map fun j => if j = i then (nth xs j + n) % 4294967296 else nth xs j

/-- Credits free on a VC: announced − (used − freed) (R367). -/
def PortSt.free (s : PortSt) (vc : Nat) : Nat :=
  nth s.cap vc - (nth s.used vc + 4294967296 - nth s.freed vc) % 4294967296

/-! ### Tables (R412, R413) -/

/-- Whether a link is dead in a fault map, named at either end. -/
def Dev.linkDead (d : Dev) (m : FaultMap) (c : Coord) (p : Nat) : Bool :=
  let far := d.stepOn c (portAxis p) (portPlus p)
  m.links.any fun e => (e.1 = c && e.2.val = p) || (e.1 = far && e.2.val = oppositePort p)

/-- The port of an axis and side. -/
def portOf (a : Nat) (plus : Bool) : Nat := 2 * a + if plus then 0 else 1

/-- The hops from a coordinate along one axis; none when one of them is in the fault map. -/
def Dev.walk (d : Dev) (m : FaultMap) (a : Nat) (plus : Bool) : Nat → Coord → Option (List (Coord × Nat))
  | 0, _ => some []
  | n + 1, c =>
    let e := d.stepOn c a plus
    if d.linkDead m c (portOf a plus) || m.dead.contains e then none
    else (d.walk m a plus n e).map fun rest => (c, portOf a plus) :: rest

/-- The route of R413 from a coordinate over the axes given. -/
def Dev.routeAxes (d : Dev) (m : FaultMap) : List Nat → Coord → Coord → Option (List (Coord × Nat))
  | [], _, _ => some []
  | a :: rest, c, t =>
    let n := max 1 (d.axis a)
    let δ := (coordOn t a + n - coordOn c a % n) % n
    if δ = 0 then d.routeAxes m rest c t
    else
      match d.routeAxes m rest (setOn c a (coordOn t a)) t with
      | none => none
      | some tail =>
        let go := fun (plus : Bool) => (d.walk m a plus (if plus then δ else n - δ) c).map fun w => w ++ tail
        let first : Bool := δ ≤ n - δ
        (go first).or (go (!first))

/-- Whether a coordinate lies in the shape. -/
def Dev.inShape (d : Dev) (c : Coord) : Bool := [0, 1, 2].all fun a => coordOn c a < d.axis a

/-- The path from this module to a destination under a fault map. -/
def Dev.path (d : Dev) (m : FaultMap) (t : Coord) : Option (List (Coord × Nat)) :=
  if d.inShape t && !m.dead.contains t then d.routeAxes m [0, 1, 2] d.here t else none

/-- The entry codes for delivery here and for no route (R412). -/
def portLocal : Nat := 6
def portUnreach : Nat := 7

/-- PORT of the entry of a destination in a version (R412). -/
def Dev.entryPort (d : Dev) (v : TableVer) (t : Coord) : Nat :=
  if !d.inShape t then portUnreach
  else if t = d.here then portLocal
  else match d.path v.map t with
    | some (h :: _) => h.2
    | _ => portUnreach

/-- HOLD of the entry of a destination in a version (R412). -/
def Dev.entryHold (d : Dev) (v : TableVer) (t : Coord) : Bool :=
  d.inShape t && t ≠ d.here && d.path v.map t ≠ d.path v.prev t

/-- Whether a version admits a port (R413). -/
def Dev.maskBit (d : Dev) (v : TableVer) (p : Nat) : Bool := !d.linkDead v.map d.here p && 1 < d.axis (portAxis p)

/-- A table version. -/
def Dev.table (d : Dev) (v : Bool) : Option TableVer := if v then d.route.v1 else d.route.v0

/-- The current epoch (R414). -/
def Dev.epoch (d : Dev) : Bool := d.bit F.ROUTE_EPOCH_CUR

/-- Whether a packet's version is current or prepared or draining (R414). -/
def Dev.usable (d : Dev) (v : Bool) : Bool :=
  (d.table v).isSome && (v = d.epoch || d.bit F.ROUTE_EPOCH_DRAINING || d.bit F.ROUTE_EPOCH_NEXT_VALID)

/-! ### The next hop -/

/-- Whether the link of an output port is a date line (R402). -/
def Dev.dateLine (d : Dev) (out : Nat) : Bool :=
  let a := portAxis out
  if portPlus out then coordOn d.here a + 1 = d.axis a else coordOn d.here a = 0

/-- The VC of a SCHED packet on its next link (R402). -/
def Dev.schedVc (d : Dev) (q : Queued) (out : Nat) : Nat :=
  if d.dateLine out then 1
  else if q.from_.any fun i => portAxis i = portAxis out then pktVc q.pkt else 0

/-- What the router does with a packet. -/
inductive NextHop where
  | out (port vc : Nat)
  | here
  | unreach
  | badEpoch
  | noRole
  | later
  deriving DecidableEq, Repr

/-- Whether a slice of a key has a member or transit role at this module. -/
def Dev.hasRole (d : Dev) (pkey : BitVec 12) : Bool :=
  match d.sliceOf pkey with
  | some i => d.memberHere (d.slice i) || d.transitHere (d.slice i)
  | none => false

/-- Whether this module is a member of the slice of a key. -/
def Dev.memberOf (d : Dev) (pkey : BitVec 12) : Bool := (d.sliceOf pkey).any fun i => d.memberHere (d.slice i)

/-- The candidates of an adaptive packet with their VC2 credits, in the order of ties (R407).
(DEDUCED, log 117) -/
def Dev.adaptive (d : Dev) (v : TableVer) (p : Packet) : List (Nat × Nat) :=
  [0, 1, 2, 3, 4, 5].filterMap fun o =>
    let a := portAxis o
    let n := max 1 (d.axis a)
    let δ := (coordOn p.dstCoord a + n - coordOn d.here a % n) % n
    let minimal : Bool := δ ≠ 0 && if portPlus o then δ ≤ n - δ else n - δ ≤ δ
    let credits := (d.port o).free 2
    if minimal && d.maskBit v o && d.bit F.LINK_STATUS_ADMITTED o && pktCredits p ≤ credits then some (o, credits) else none

/-- The candidate with the most credits, the first of equals. -/
def mostCredits : List (Nat × Nat) → Option Nat
  | [] => none
  | c :: cs => match cs.foldl (fun (b : Nat × Nat) x => if b.2 < x.2 then x else b) c with
    | b => some b.1

/-- The next hop of a packet (R404–R414, R430). -/
def Dev.nextHop (d : Dev) (q : Queued) : NextHop :=
  let p := q.pkt
  let sched := isSched p
  if p.ptype.toNat = ptLeaf then
    if q.from_.isSome && d.memberOf p.key then .here
    else if q.from_.isSome && !d.hasRole p.key then .noRole
    else
      let out := match q.from_ with
        | some i => oppositePort i
        | none => if (leafOfBytes p.ext).dir = .cw then 0 else 1
      .out out (d.schedVc q out)
  else
    match d.table p.epoch with
    | none => if q.from_.isSome then .badEpoch else .later
    | some v =>
      if q.from_.isSome && !d.usable p.epoch then .badEpoch
      else if p.dstCoord = d.here then .here
      else if q.from_.isSome && sched && !p.mirror && !d.hasRole p.key then .noRole
      else
        let out := d.entryPort v p.dstCoord
        if out = portUnreach then .unreach
        else if sched then .out out (d.schedVc q out)
        else if pktVc p = 2 then
          if p.adapt && !p.ordered && !d.bit F.DET_CTL_DET_MODE then
            match mostCredits (d.adaptive v p) with
            | some o => .out o 2
            | none => .out out 3
          else .out out 3
        else .out out (pktVc p)

/-! ### Starting packets on a link -/

/-- Whether a packet is of a scope fenced at this module (R378, R462). -/
def Dev.fencedPacket (d : Dev) (vc : Nat) (pkey : BitVec 12) : Bool :=
  vc ≤ 3 && (d.fld F.DEV_STATE_STATE = 7 || (d.sliceOf pkey).any fun i => (d.slice i).fenced)

/-- The index of a leaf packet within its leaf. -/
def leafPkt (p : Packet) : Option Nat :=
  if p.ptype.toNat = ptLeaf then some (leafOfBytes p.ext).pktIdx.toNat else none

/-- Whether a waiting packet may start on a port (R366, R369, R370, R374, R380, R403). -/
def Dev.mayStart (d : Dev) (o : Nat) (q : Queued) : Bool :=
  let s := d.port o
  let vc := pktVc q.pkt
  let credits := s.free vc
  let straight : Bool := q.from_.any fun i => i = oppositePort o
  let idx := leafPkt q.pkt
  d.fld F.LINK_STATUS_STATE o = 5 && (4 ≤ vc || d.bit F.LINK_STATUS_ADMITTED o) &&
    !d.fencedPacket vc q.pkt.key && s.held.length + pktFlits q.pkt ≤ 4096 &&
    (!s.leafOut || idx.any fun i => i ≠ 0) &&
    (if idx = some 0 then 264 ≤ credits else pktCredits q.pkt ≤ credits) &&
    (vc ≤ 2 || (if straight then 66 else 132) ≤ credits)

/-- The first waiting packet of a VC with its position. -/
def headOf (vc : Nat) (qs : List Queued) : Option (Nat × Queued) :=
  (List.zip (List.range qs.length) qs).find? fun e => pktVc e.2.pkt = vc

/-- The waiting packet that starts next: VC5, VC4, then VC0–VC3 in rotation after the last winner (R369). -/
def Dev.nextStart (d : Dev) (o : Nat) : Option (Nat × Queued) :=
  let s := d.port o
  let order := [5, 4] ++ (List.range 4).map fun i => (s.lastVc + 1 + i) % 4
  order.findSome? fun vc => (headOf vc s.queue).bind fun e => if d.mayStart o e.2 then some e else none

/-- Bytes of UNPL packets waiting at a port (R421). -/
def unplQueued (s : PortSt) : Nat := ((s.queue.filter fun q => !isSched q.pkt).map fun q => pktBytes q.pkt).sum

/-- The congestion mark of a packet that starts (R421). -/
def Dev.marksCe (d : Dev) (o : Nat) (p : Packet) : Bool :=
  !isSched p && p.ptype.toNat ≠ ptCnp && d.fld F.ROUTE_CFG_CE_TH * 1024 ≤ unplQueued (d.port o)

/-- Count a packet of an epoch. -/
def countEpoch (v : Bool) (c : Nat × Nat) : Nat × Nat := if v then (c.1, c.2 + 1) else (c.1 + 1, c.2)

/-- Free the credits of the buffer that a packet leaves (R366).
(DEDUCED, log 109) -/
def Dev.freeBuffer (d : Dev) (q : Queued) : Dev :=
  match q.from_ with
  | some i => d.onPort i fun s => { s with rxFreed := addNth s.rxFreed (pktVc q.pkt) (pktCredits q.pkt) }
  | none => d

/-- Add one to a 32-bit counter when something is so. -/
def Dev.countIf (d : Dev) (b : Bool) (f : Fld) (i : Nat) : Dev :=
  if b then d.setFld f i fun v => (v + 1) % 4294967296 else d

/-- The transmitter of a port after it has started a packet: credits used, flits numbered and held for replay (R365–R370, R375, R417). -/
def PortSt.started (s : PortSt) (now at_ : Nat) (p : Packet) : PortSt :=
  let n := pktFlits p
  let vc := pktVc p
  let flits := (List.range n).map fun i =>
    (⟨(s.txSeq + i) % 8192, [(p.key.toNat, p.item.toNat)], s.txKph, s.txN + i⟩ : HeldFlit)
  { s with
    queue := s.queue.eraseIdx at_, used := addNth s.used vc (pktCredits p), txSeq := (s.txSeq + n) % 8192
    ackAt := if s.held.isEmpty then now else s.ackAt
    held := s.held ++ flits, txN := s.txN + n, lastVc := if vc ≤ 3 then vc else s.lastVc
    leafOut := match leafPkt p with
      | some i => i ≠ 3
      | none => s.leafOut
    oldTx := countEpoch p.epoch s.oldTx }

/-- Start a waiting packet on a port: it leaves its queue as flits, and the credits of the buffer it leaves are freed (R365–R370, R375).
(DEDUCED, log 108) -/
def Dev.startPacket (d : Dev) (o : Nat) (e : Nat × Queued) : Dev :=
  let q := e.2
  let s := d.port o
  let ce : Bool := d.marksCe o q.pkt && !q.pkt.ce
  let p := if ce then setFlag q.pkt 5 true else q.pkt
  let n := pktFlits p
  let transit : Bool := q.from_.isSome && isSched p && (d.sliceOf p.key).any fun i => d.transitHere (d.slice i)
  (((((d.onPort o fun s => s.started d.now e.1 p).freeBuffer q).setFld F.LINK_FLITS_TX o fun v => (v + n) % 4294967296).countIf
    ce F.ROUTE_CONG_MARKED 0).countIf transit F.TRANSIT_PORT_TRANSIT_PKTS o).emit (.dataFlits o (pktVc p) s.txSeq n s.txKph s.txN p)

/-- Start every packet that may start on a port. -/
def Dev.pumpPort (d : Dev) (o : Nat) : Nat → Dev
  | 0 => d
  | n + 1 => match d.nextStart o with
    | some e => (d.startPacket o e).pumpPort o n
    | none => d

/-- Start every packet that may start. -/
def Dev.pumpPorts (d : Dev) : Dev := [0, 1, 2, 3, 4, 5].foldl (fun d o => d.pumpPort o (d.port o).queue.length) d

/-! ### Discards -/

/-- Count a discarded packet in ROUTE_DROP and ROUTE_ERR. -/
def Dev.countDrop (d : Dev) (cnt bit : Fld) : Dev :=
  ((d.setFld cnt 0 (satAdd 65535 1)).setFld bit 0 fun _ => 1).setFld F.ROUTE_ERR_FAULTS 0 (satAdd 4294967295 1)

/-- A discarded packet (R411, R414, R430, R478): the slice of a SCHED packet that met UNREACH is to be fenced.
(DEDUCED, log 124) -/
def Dev.discard (d : Dev) (h : NextHop) (q : Queued) : Dev :=
  let d := d.freeBuffer q
  match h with
  | .unreach =>
    let d := d.countDrop F.ROUTE_DROP_UNREACH F.ROUTE_ERR_UNREACH
    if isSched q.pkt then { d with route := { d.route with lost := d.route.lost ++ [q.pkt.key] } } else d
  | .badEpoch => d.countDrop F.ROUTE_DROP_EPOCH F.ROUTE_ERR_EPOCH
  | .noRole => d.countDrop F.ROUTE_DROP_TRANSIT F.ROUTE_ERR_TRANSIT
  | _ => d

/-- Give a packet to its output queue, deliver it, or discard it. -/
def Dev.routePacket (d : Dev) (q : Queued) : Dev :=
  match d.nextHop q with
  | .out o vc =>
    d.onPort o fun s => { s with queue := s.queue ++ [{ q with pkt := { q.pkt with vc := BitVec.ofNat 8 vc } }] }
  | .here =>
    match q.from_ with
    | some i =>
      (d.onPort i fun s => { s with rxFreed := addNth s.rxFreed (pktVc q.pkt) (pktCredits q.pkt) }).emit (.delivered i q.pkt)
    | none => d
  | .later => { d with route := { d.route with waiting := d.route.waiting ++ [q.pkt] } }
  | h => d.discard h q

/-! ### Injection -/

/-- Packet-byte rate of a port in bytes per 4 µs (R352). -/
def portRate (p : Nat) : Nat := if p ≤ 1 then 3050000 else if p ≤ 3 then 1525000 else 762500

/-- The port that the current table names for a destination, when it has one. -/
def Dev.tablePort (d : Dev) (t : Coord) : Option Nat :=
  (d.table d.epoch).bind fun v => if d.entryPort v t ≤ 5 then some (d.entryPort v t) else none

/-- The rate state of a destination. -/
def Dev.rateSt (d : Dev) (t : Coord) : RateSt := mapGet (fun _ => RateSt.init) d.route.rates t.toNat

/-- R_d in 256ths of a byte per 4 µs (R423). -/
def Dev.rateOf (d : Dev) (t : Coord) : Nat :=
  match (d.rateSt t).rate with
  | some r => r
  | none => 256 * ((d.tablePort t).map portRate).getD 3050000

/-- Bytes of UNPL packets started toward a destination in the last 4 µs. -/
def Dev.recentBytes (d : Dev) (t : Coord) : Nat :=
  (((d.rateSt t).starts.filter fun e => d.now < e.1 + 4000).map Prod.snd).sum

/-- Whether a packet waits for its rate (R423).
(DEDUCED, log 118) -/
def Dev.rateHeld (d : Dev) (p : Packet) : Bool :=
  !isSched p && p.ptype.toNat ≠ ptCnp && d.rateOf p.dstCoord + 8384 * 256 < 256 * d.recentBytes p.dstCoord

/-- Whether an ORDERED packet of the new epoch waits for RETIRE (R416). -/
def Dev.epochHeld (d : Dev) (p : Packet) : Bool :=
  p.ordered && p.ptype.toNat ≠ ptLeaf && d.bit F.ROUTE_EPOCH_DRAINING &&
    (d.table d.epoch).any fun v => d.entryHold v p.dstCoord

/-- Note the bytes of a packet that starts toward its destination. -/
def Dev.noteStart (d : Dev) (p : Packet) : Dev :=
  if isSched p || p.ptype.toNat = ptCnp then d else
    let r := d.rateSt p.dstCoord
    let r := { r with starts := (r.starts.filter fun e => d.now < e.1 + 4000) ++ [(d.now, pktBytes p)] }
    { d with route := { d.route with rates := mapSet (fun _ => RateSt.init) p.dstCoord.toNat r d.route.rates } }

/-- Whether a packet waits before injection: its rate, its epoch, no table yet, or an earlier packet of its class to its destination
that waits. -/
def Dev.waits (d : Dev) (ahead : List Packet) (p : Packet) : Bool :=
  d.rateHeld p || d.epochHeld p || d.nextHop ⟨none, p⟩ = .later ||
    (p.ptype.toNat ≠ ptLeaf && ahead.any fun x => x.dst = p.dst && isSched x = isSched p && x.ptype.toNat ≠ ptLeaf)

/-- Inject the waiting packets that need not wait; the others stay in order (R416, R423). -/
def Dev.release (d : Dev) : List Packet → List Packet → Dev
  | kept, [] => { d with route := { d.route with waiting := kept } }
  | kept, p :: ps =>
    let p := setFlag p 1 d.epoch
    if d.waits kept p then d.release (kept ++ [p]) ps
    else ((d.noteStart p).routePacket ⟨none, p⟩).release kept ps

/-- The rest of the waiting list is tried again, and every port starts what it may.
(DESIGN CHOICE, log 110) -/
def Dev.pump (d : Dev) : Dev :=
  let d := d.release [] d.route.waiting
  let held := d.bit F.ROUTE_EPOCH_DRAINING && d.route.waiting.any fun p => d.epochHeld p
  (if d.bit F.ROUTE_EPOCH_HOLD_ACTIVE = held then d else d.setFld F.ROUTE_EPOCH_HOLD_ACTIVE 0 fun _ => if held then 1 else 0).pumpPorts

/-- Inject a packet of this module, with EPOCH equal to CUR (R414). -/
def Dev.inject (d : Dev) (p : Packet) : Dev :=
  let p := setFlag p 1 d.epoch
  let d := d.emit (.packet p)
  if p.ptype.toNat ≠ ptLeaf && p.dstCoord = d.here then d
  else ({ d with route := { d.route with waiting := d.route.waiting ++ [p] } }).pump

end Sys2Proof.Machine
end

