-- ==== Sys2Proof/Machine/Ops.lean ====
section
/-! DEFINITION. The named operations over the state. A meaning is an `Act`: from the state at the start of the command it
answers the list of updates (`Upd`) the command makes, applied in order; `inSequence` chains acts, each seeing the state the one
before it left. Registers are read and written through `Dev.reg`, `Dev.fld` and the field updates alone. -/

namespace Sys2Proof.Machine

/-! ### Updates -/

/-- One update of the module's state. -/
inductive Upd where
  | fld (f : Fld) (i : Nat) (g : Nat → Nat)
  | hbm (addr : Nat) (data : List Byte)
  | spm (core addr : Nat) (data : List Byte)
  | gcnt (g : BitVec 64)
  | core (c : Nat) (g : CoreSt → CoreSt)
  | cores (g : Nat → CoreSt → CoreSt)
  | cluster (c : Nat) (g : ClusterSt → ClusterSt)
  | ring (k : Nat) (g : RingSt → RingSt)
  | slice (i : Nat) (g : SliceSt → SliceSt)
  | chan (ch : Nat) (g : ChanSt → ChanSt)
  | commit (g : CommitSt → CommitSt)
  | vault (g : VaultSt → VaultSt)
  | chain (g : ChainSt → ChainSt)
  | route (g : RouteSt → RouteSt)
  | hbmBad (g : List Nat → List Nat)
  | hbmMarks (g : List (Nat × Nat) → List (Nat × Nat))
  | spmMarks (g : List (Nat × Nat) → List (Nat × Nat))
  | spmParity (g : List Nat → List Nat)
  | repair (g : List Nat → List Nat)
  | image (regions codecTables : List (BitVec 128)) (k : BitVec 128) (sched : List Schedule) (sync : List SyncTable)
  | digests (g : List DigestAcc → List DigestAcc)
  | servo (g : ServoSt → ServoSt)
  | snapDone (g : List (BitVec 12) → List (BitVec 12))
  | snapLatch (info : SnapInfo) (keys : List Nat)
  | snapPublish
  | event (kind : Nat) (body : List Byte)
  | send (m : Msg)
  | inject (p : Packet)
  | port (p : Nat) (g : PortSt → PortSt)
  | sendEvents
  | ask (body : OwnReq) (m : BitVec 10 → Msg)
  | pump
  | routed (q : Queued)
  | svc (g : SvcSt → SvcSt)
  | start (g : StartSt → StartSt)
  | secure (g : SecureSt → SecureSt)
  | power (g : PowerSt → PowerSt)
  | board (g : BoardSt → BoardSt)
  | drawFree
  | restart (warm : Bool)
  | hbmZero
  | loseSpm
  | freeze (on : Bool)

/-- Whether requests of this module can reach the adapter: it has an address and its chain link is UP (R560, R565). -/
def Dev.chained (d : Dev) : Bool := d.bit F.CHAIN_ADDR_VALID && d.fld F.CHAIN_STATUS_IN_STATE = 2

/-- A tag that no outstanding request holds (R558). -/
def Dev.freeTag (d : Dev) : BitVec 10 :=
  (((List.range 65).map fun i => d.chain.lastTag + 1 + BitVec.ofNat 10 i).find? fun t =>
    d.chain.out.all fun o => o.tag ≠ t).getD 0

/-- Send a request to the adapter and keep it as outstanding (R558). -/
def Dev.ask (d : Dev) (body : OwnReq) (m : BitVec 10 → Msg) : Dev :=
  let tag := d.freeTag
  ({ d with chain := { d.chain with out := d.chain.out ++ [(⟨tag, body, d.now, 0⟩ : OutReq)], lastTag := tag } }).emit (m tag)

/-- Send held events in SEQ order while the adapter has room (R558, R564–R566). -/
def Dev.sendEvents (d : Dev) : Nat → Dev
  | 0 => d
  | n + 1 =>
    match d.chain.events.find? fun e => d.chain.evSent < e.seq && !(d.chain.out.any fun o => o.body = .event e.seq) with
    | none => d
    | some e =>
      if !d.chained || 64 ≤ d.chain.out.length then d
      else (({ d with chain := { d.chain with evSent := e.seq } }).ask (.event e.seq)
        fun t => .event t e.kind e.seq e.gcnt e.body).sendEvents n

/-- Raise an event (R564–R567): numbered in SEQ order and held until acknowledged; while 960 or more are held, kinds other than
COMPLETION and SPARE_REQUEST are dropped and counted. -/
def Dev.raise (d : Dev) (kind : Nat) (body : List Byte) : Dev :=
  if 960 ≤ d.chain.events.length ∧ kind ≠ 1 ∧ kind ≠ 3 then
    let d := d.setFld F.EVT_STATUS_LOST 0 (satAdd 65535 1)
    let d := d.setFld F.CHAIN_ERR_EVENT_LOST 0 (fun _ => 1)
    d.setFld F.CHAIN_ERR_FAULTS 0 (satAdd 4294967295 1)
  else
    let seq := d.chain.evSeq + 1
    let d := d.setFld F.EVT_STATUS_SENT 0 (fun _ => seq.toNat)
    let d := d.setFld F.EVT_STATUS_HELD 0 (fun _ => d.chain.events.length + 1)
    let e : Event := ⟨seq, kind, d.gcnt, body⟩
    let d := { d with chain := { d.chain with evSeq := seq, events := d.chain.events ++ [e] } }
    d.sendEvents d.chain.events.length

/-- Registers that a reset leaves as they are: the module identifier and the wear of the vault; a warm reset, which restarts at step 2, keeps
the results of image verification, the device root secret, and the array widths (R85, R571, R596, R597).
(DEDUCED, log 200) -/
def keptReg (warm : Bool) (r : Reg) : Bool :=
  match r with
  | .SEC_UID | .VAULT_WEAR => true
  | .SEC_IMG | .SEC_STATUS | .CORE_ARRAYW | .DET_MAP => warm
  | _ => false

/-- The fields that a reset keeps beside whole registers: sampled straps, what the secure element holds, and after a warm reset the slot in
use. -/
def keptFields (warm : Bool) : List Fld :=
  [F.BOARD_STATUS_SEED_N, F.BOARD_STATUS_FLASH_DUAL, F.BOARD_STATUS_I3C_SA1, F.BOARD_STATUS_I3C_SA0, F.SEC_STATUS_ARB,
   F.SEC_STATUS_TRANSFERS, F.SEC_STATUS_OIS] ++
  if warm then [F.BOOT_STATUS_SLOT, F.BOOT_STATUS_FALLBACK, F.BOOT_STATUS_SLOT1_FAIL, F.BOOT_STATUS_SLOT0_FAIL] else []

/-- Everything at its reset value but what is non-volatile (HBM contents, vault, secure element), what stands outside the reset domain
(board, messages already sent), and what R571 keeps over a warm reset.
(PRESUMED, log 27) -/
def Dev.restartBase (d : Dev) (warm : Bool) : Dev :=
  { Dev.reset with
    regs := d.regs.filter fun e => (Reg.all[e.1 / regCopies]?).any (keptReg warm)
    hbm := d.hbm, outbox := d.outbox, freeCtr := d.freeCtr, board := d.board
    vault := { d.vault with reads := [], bad := [], staged := [], nextUnit := [] }
    secure := { d.secure with nonceLive := false, installA := none, installB := none }
    start := { StartSt.init with seed := d.start.seed, warm := warm, image := if warm then d.start.image else none }
    power := { PowerSt.init with
      lived := d.power.lived + d.now, samples := d.power.samples, lastMedians := d.power.lastMedians } }

/-- The internal reset (R571, R648), with the single fields that it keeps. -/
def Dev.restart (d : Dev) (warm : Bool) : Dev :=
  ((keptFields warm).filter fun f => d.fld f ≠ 0).foldl (fun b f => b.setFld f 0 fun _ => d.fld f) (d.restartBase warm)

/-- Scratchpad bytes against what the last loss of contents left there (R620): the same function takes bytes to their stored form and back. -/
def Dev.spmVeil (d : Dev) (a : Nat) (bs : List Byte) : List Byte :=
  if d.spmLost = 0 then bs
  else ((List.range bs.length).zip bs).map fun e => e.2 ^^^ Config.lostByte d.spmLost (a + e.1)

/-- What one update does. -/
def Upd.apply (u : Upd) (d : Dev) : Dev :=
  match u with
  | .fld f i g => d.setFld f i g
  | .hbm a bs => { d with hbm := memWrite d.hbm a (bs.take (hbmSize - a)) }
  | .spm c a bs =>
    if c < coreCount then { d with spm := memWrite d.spm (c * spmSize + a) (d.spmVeil (c * spmSize + a) (bs.take (spmSize - a))) } else d
  | .gcnt g => { d with gcnt := g }
  | .core c g => { d with cores := mapSet (fun _ => CoreSt.init) c (g (d.core c)) d.cores }
  | .cores g => { d with cores := mapAll (fun _ => CoreSt.init) g d.cores }
  | .cluster c g => { d with clusters := mapSet (fun _ => ClusterSt.init) c (g (d.cluster c)) d.clusters }
  | .ring k g => { d with rings := mapSet (fun _ => RingSt.init) k (g (d.ring k)) d.rings }
  | .slice i g => { d with slices := mapSet (fun _ => SliceSt.init) i (g (d.slice i)) d.slices }
  | .chan c g => { d with chans := mapSet (fun _ => ChanSt.init) c (g (d.chan c)) d.chans }
  | .commit g => { d with commit := g d.commit }
  | .vault g => { d with vault := g d.vault }
  | .chain g => { d with chain := g d.chain }
  | .route g => { d with route := g d.route }
  | .hbmBad g => { d with hbmBad := g d.hbmBad }
  | .hbmMarks g => { d with hbmMarks := g d.hbmMarks }
  | .spmMarks g => { d with spmMarks := g d.spmMarks }
  | .spmParity g => { d with spmParity := g d.spmParity }
  | .repair g => { d with repair := g d.repair }
  | .image r t k sc sy => { d with regions := r, codecTables := t, digestK := k, schedLib := sc, syncLib := sy }
  | .digests g => { d with digests := g d.digests }
  | .servo g => { d with servo := g d.servo }
  | .snapDone g => { d with snapInfo := { d.snapInfo with waiting := g d.snapInfo.waiting } }
  | .snapLatch info ks =>
    { d with snapInfo := info, snapPend := ks.foldl (fun m k => mapSet regDefault k (mapGet regDefault d.regs k) m) [] }
  | .snapPublish => { d with snapPub := d.snapPend }
  | .event k b => d.raise k b
  | .send m => { d with outbox := d.outbox ++ [m] }
  | .inject p => d.inject p
  | .port p g => d.onPort p g
  | .sendEvents => d.sendEvents d.chain.events.length
  | .ask b m => d.ask b m
  | .pump => d.pump
  | .routed q => d.routePacket q
  | .svc g => { d with svc := g d.svc }
  | .start g => { d with start := g d.start }
  | .secure g => { d with secure := g d.secure }
  | .power g => { d with power := g d.power }
  | .board g => { d with board := g d.board }
  | .drawFree => { d with freeCtr := d.freeCtr + 1 }
  | .restart warm => d.restart warm
  | .hbmZero => { d with hbm := [], hbmBad := [], hbmMarks := [] }
  | .loseSpm => { d with spm := [], spmMarks := [], spmParity := [], spmLost := d.freeCtr + 1, freeCtr := d.freeCtr + 1 }
  | .freeze on => { d with frozen := if on then some (d.regs, d.gcnt) else none }

/-- Apply updates in order. -/
def applyAll (us : List Upd) (d : Dev) : Dev := us.foldl (fun d u => u.apply d) d

/-- What a command does, as a function of the state it meets. -/
abbrev Act := Dev → List Upd

/-- The module after an act. -/
def runAct (a : Act) (d : Dev) : Dev := applyAll (a d) d

/-- Acts one after the other, each on the state the one before left. -/
def inSequence : List Act → Act
  | [], _ => []
  | a :: as, d =>
    let us := a d
    us ++ inSequence as (applyAll us d)

/-- An act over the elements of a list, in order. -/
def forEach {α : Type} (f : α → Act) (xs : List α) : Act := inSequence (xs.map f)

/-- An act under a condition.
(DESIGN CHOICE, log 10) -/
def onlyIf (b : Bool) (a : Act) : Act := fun d => if b then a d else []

/-! ### Field updates -/

/-- Write a field. -/
def setF (f : Fld) (i : Nat) (v : Nat) : Upd := .fld f i (fun _ => v)
/-- Set a one-bit field. -/
def setB (f : Fld) (i : Nat) (b : Bool) : Upd := .fld f i (fun _ => if b then 1 else 0)
/-- Add to a counter that wraps modulo its width. -/
def addF (f : Fld) (i : Nat) (n : Nat) : Upd := .fld f i (fun v => (v + n) % 2 ^ (f.hi - f.lo + 1))
/-- Add to a counter that saturates at all ones. -/
def satF (f : Fld) (i : Nat) (n : Nat) : Upd := .fld f i (satAdd (2 ^ (f.hi - f.lo + 1) - 1) n)
/-- Keep the larger value. -/
def maxF (f : Fld) (i : Nat) (n : Nat) : Upd := .fld f i (fun v => max v (min n (2 ^ (f.hi - f.lo + 1) - 1)))

/-! ### Machine state -/

/-- The machine state of DEV_STATE (R19). -/
def Dev.mode (d : Dev) : Nat := d.fld F.DEV_STATE_STATE

def stOff : Nat := 0
def stBoot : Nat := 1
def stPlanWait : Nat := 2
def stLoading : Nat := 3
def stReady : Nat := 4
def stRunning : Nat := 5
def stRecovering : Nat := 6
def stSafe : Nat := 7
def stMaint : Nat := 8

/-- The conditions of idling start anew (R621).
(DEDUCED, log 186) -/
def noteQuiet : Act := fun d => [.power fun p => { p with quietAt := d.now }]

/-- Move to Active (R622). -/
def wakeUp : Act := fun d =>
  if d.fld F.PWR_STATUS_STATE = 0 then [] else setF F.PWR_STATUS_STATE 0 0 :: .freeze false :: noteQuiet d

/-- Change the machine state: ENTRY_GCNT, STATE and PREV_STATE in one write (R18), with a STATE event (R568).
(DEDUCED, log 202) -/
def enterState (st : Nat) : Act := fun d =>
  if d.mode = st then [] else
    let entry := d.now % 4294967296
    [setF F.DEV_STATE_PREV_STATE 0 d.mode, setF F.DEV_STATE_STATE 0 st, setF F.DEV_STATE_ENTRY_GCNT 0 entry,
     .event 2 (leBytes 8 (entry * 4294967296 + st * 16 + d.mode))] ++ noteQuiet d

/-- Drive FAULT_N (R650): every change raises an in-band interrupt whose mandatory byte holds STATE and the new level of the pin (R651). -/
def driveFault (low : Bool) : Act := fun d =>
  if d.bit F.SAFE_STATUS_FAULT_N = low then [] else
    [setB F.SAFE_STATUS_FAULT_N 0 low, .send (.i3cInterrupt (BitVec.ofNat 8 (d.mode + if low then 0 else 16)))]

/-! ### Requests -/

/-- The status and reason of a response, and its data (R557). -/
structure Answer where
  status : BitVec 8
  reason : BitVec 8
  data : List Byte
  deriving DecidableEq, Repr

/-- STATUS OK. -/
def answerOk : Answer := ⟨0, 0, []⟩
/-- STATUS OK with data. -/
def answerData (bs : List Byte) : Answer := ⟨0, 0, bs⟩
/-- STATUS OK with an R21 status or a count in REASON, as CMD and ENUMERATE have it. -/
def answerWith (n : Nat) : Answer := ⟨0, BitVec.ofNat 8 n, []⟩
/-- ADDRESS_ERROR with a reason of R557. -/
def addressError (reason : Nat) : Answer := ⟨1, BitVec.ofNat 8 reason, []⟩
/-- BUSY. -/
def answerBusy : Answer := ⟨2, 0, []⟩

/-- The response kept for a request's source and tag (R558). -/
def Dev.cached (d : Dev) (r : Req) : Option CachedResp :=
  d.chain.cache.find? fun e => e.path = r.path ∧ e.src = r.src ∧ e.tag = r.tag

/-- Keep a response among the last 64 of its source (R558). -/
def keepResponse (r : Req) (a : Answer) (cache : List CachedResp) : List CachedResp :=
  let mine := fun e : CachedResp => e.path = r.path ∧ e.src = r.src
  let kept := cache.filter fun e => ¬ (mine e ∧ e.tag = r.tag)
  let kept := if 64 ≤ (kept.filter fun e => mine e).length then
      match kept.find? fun e => mine e with
      | some e => kept.erase e
      | none => kept
    else kept
  kept ++ [⟨r.path, r.src, r.tag, a.status, a.reason, a.data⟩]

/-- The response to a request, kept for a repeat of its tag. -/
def respond (r : Req) (a : Answer) : List Upd :=
  [.send (.resp r a.status a.reason a.data), .chain fun c => { c with cache := keepResponse r a c.cache }]

/-- Serve a request (R557, R558): a repeated source and tag draws the kept response and executes nothing; otherwise the request
is executed, counted in CHAIN_CNT.RX, and answered.
(DEDUCED, log 201) -/
def serve (r : Req) (f : Dev → Answer × Act) : Act := fun d =>
  match d.cached r with
  | some e => [.send (.resp r e.status e.reason e.data)]
  | none =>
    let (ans, act) := f d
    [addF F.CHAIN_CNT_RX 0 1] ++ act d ++ respond r ans

/-- Serve a request that may be executed again (REG_RD, MEM_RD: R558). -/
def serveAgain (r : Req) (f : Dev → Answer × Act) : Act := fun d =>
  let (ans, act) := f d
  [addF F.CHAIN_CNT_RX 0 1] ++ act d ++ respond r ans

/-- A write that wakes an idle module (R622).
(DEDUCED, log 149) -/
def waking (f : Dev → Answer × Act) (d : Dev) : Answer × Act :=
  let (a, act) := f d
  (a, inSequence [wakeUp, act])

/-- No effect. -/
def noAct : Act := fun _ => []

/-- A refused request: its answer and no effect (R557: an address error changes no state). -/
def refuse (reason : Nat) : Answer × Act := (addressError reason, noAct)

end Sys2Proof.Machine

namespace Sys2Proof

open Sys2Proof.Machine

/-- The index of a path's own copy of a selector (R233): 0 Cymund, 1 management. -/
def Path.copy : Path → Nat
  | .cymund => 0
  | .mgmt => 1

end Sys2Proof

namespace Sys2Proof.Machine
end Sys2Proof.Machine
end

