-- ==== Sys2Proof/Machine/Flags.lean ====
section
/-! DEFINITION. Error bits and their counters: every error register sets a bit at the first event of its kind and counts its events
in a saturating FAULTS field; a location register keeps the first event met while the bits were clear. -/

namespace Sys2Proof.Machine

/-- Set an error bit and count the event in a saturating FAULTS field. -/
def flagFault (bit faults : Fld) (i : Nat := 0) : List Upd := [setF bit i 1, satF faults i 1]

/-- RECOV_ERR (R489). -/
def flagRecov (bit : Fld) : List Upd := flagFault bit F.RECOV_ERR_FAULTS
/-- RING_ERR of a context (R68). -/
def flagRing (k : Nat) (bit : Fld) : List Upd := flagFault bit F.RING_ERR_FAULTS k
/-- SEQ_ERR of a core (R312). -/
def flagSeq (c : Nat) (bit : Fld) : List Upd := flagFault bit F.SEQ_ERR_FAULTS c
/-- LINK_ERR of a port (R396). -/
def flagLink (p : Nat) (bit : Fld) : List Upd := flagFault bit F.LINK_ERR_FAULTS p
/-- ROUTE_ERR (R439). -/
def flagRoute (bit : Fld) : List Upd := flagFault bit F.ROUTE_ERR_FAULTS
/-- SVC_ERR (R552). -/
def flagSvc (bit : Fld) : List Upd := flagFault bit F.SVC_ERR_FAULTS
/-- CHAIN_ERR (R590). -/
def flagChain (bit : Fld) : List Upd := flagFault bit F.CHAIN_ERR_FAULTS
/-- SEC_ERR (R617). -/
def flagSec (bit : Fld) : List Upd := flagFault bit F.SEC_ERR_FAULTS

/-- DET_STATUS, which counts its events in EVENTS (R510). -/
def flagDet (bit : Fld) : List Upd := flagFault bit F.DET_STATUS_EVENTS

/-- SYNC_ERR and SYNC_ERR_LOC (R349, R350): FENCED_DROP (bit 0) is recorded and neither counted nor located; the location is
that of the first fault met while bits [7:1] were clear. -/
def flagSync (d : Dev) (bit : Fld) (pkey syncId src core : Nat) : List Upd :=
  if bit.lo = 0 then [setF bit 0 1] else
    let clear := (d.reg .SYNC_ERR / 2) % 128 = 0
    flagFault bit F.SYNC_ERR_FAULTS ++
      (if clear then
        [setF F.SYNC_ERR_LOC_PKEY 0 pkey, setF F.SYNC_ERR_LOC_SYNC_ID 0 syncId, setF F.SYNC_ERR_LOC_FIRST 0 bit.lo,
         setF F.SYNC_ERR_LOC_SRC 0 src, setF F.SYNC_ERR_LOC_CORE 0 core]
      else [])

/-- STREAM_ERR and STREAM_ERR_LOC of a core (R267, R268). -/
def flagStream (d : Dev) (c : Nat) (bit : Fld) (stream : Nat) (item : Option Nat) : List Upd :=
  let clear := d.reg .STREAM_ERR c % 32 = 0
  flagFault bit F.STREAM_ERR_FAULTS c ++
    (if clear then
      [setF F.STREAM_ERR_LOC_STREAM c stream, setF F.STREAM_ERR_LOC_FIRST c bit.lo,
       setB F.STREAM_ERR_LOC_ENTRY_TASK c item.isSome, setF F.STREAM_ERR_LOC_ITEM c (item.getD 0)]
    else [])

end Sys2Proof.Machine
end

