-- ==== Sys2Proof/Machine/Codec.lean ====
section
/-! DEFINITION. The Steep codec (04): coded blocks and their decoding, codec tables, compression, the checks of a coded run and what
a bad run delivers, and the codec registers (R155–R185). -/

namespace Sys2Proof.Machine

/-! ### Containers and blocks (R155–R160) -/

/-- Whether a format code names a Steep container. -/
def isSteep (code : Nat) : Bool := 0x20 ≤ code && code ≤ 0x24

/-- Code bits of a container (R155). -/
def steepBits (code : Nat) : Nat :=
  match code with
  | 0x20 => 8
  | 0x21 => 6
  | 0x22 => 4
  | 0x23 => 3
  | _ => 2

/-- Bytes of a block (R155). -/
def steepBlock (code : Nat) : Nat := 8 + 32 * steepBits code

/-- Blocks of a container in a leaf body at most (R167). -/
def steepLeafBlocks (code : Nat) : Nat := 16384 / steepBlock code

/-- The header of a block (R156). -/
structure SteepHdr where
  bexp : Nat
  goff : List Nat
  lev : Nat
  last : Bool
  shortTail : Bool
  rsv : Nat
  deriving DecidableEq, Repr

/-- Read a block header (R156). -/
def steepHdr (bs : List Byte) : SteepHdr :=
  let g := leNat ((bs.drop 1).take 4)
  let l := leNat ((bs.drop 5).take 3)
  { bexp := (bs[0]?.getD 0).toNat, goff := (List.range 8).map fun i => natBits g (4 * i) 4, lev := l % 2 ^ 20,
    last := natBits l 20 1 = 1, shortTail := natBits l 21 1 = 1, rsv := natBits l 22 2 }

/-- Level table entry `s`; e[4] is 32 (R158). -/
def levAt (lev s : Nat) : Nat := if s = 4 then 32 else natBits lev (5 * s) 5

/-- The value of a code relative to its group scale (R158, R159). -/
def steepCode (cont lev c : Nat) : Val :=
  let b := steepBits cont
  if b = 2 then valOf (signed 5 (levAt lev c)) (-4)
  else
    let f := b - 3
    let s := natBits c (b - 3) 2
    let u := natBits c 0 f
    .fin (natBits c (b - 1) 1 = 1) (levAt lev s * (2 ^ f - u) + levAt lev (s + 1) * u) (-(5 + (f : Int)))

/-- Multiply a value by a power of two. -/
def Val.scaleBy (v : Val) (x : Int) : Val :=
  match v with
  | .fin s m e => .fin s m (e + x)
  | v => v

/-- The 256 exact values of a block (R157–R160). -/
def steepDecode (cont : Nat) (bs : List Byte) : List Val :=
  let h := steepHdr bs
  let b := steepBits cont
  (List.range 256).map fun i =>
    if h.bexp = 255 then .nan
    else
      let g : Nat := (h.goff[i / 32]?).getD 15
      if g = 15 then .zero
      else
        let c := natBits (leNat ((bs.drop (8 + b * i / 8)).take 2)) (b * i % 8) b
        (steepCode cont h.lev c).scaleBy ((h.bexp : Int) - 127 - (g : Int))

/-! ### Codec tables (R161, R162) -/

def tabContainer (t : BitVec 128) : Nat := bitsOf t 7 0
def tabTarget (t : BitVec 128) : Nat := bitsOf t 15 8
def tabArith (t : BitVec 128) : Arith := arithOf (BitVec.ofNat 8 (bitsOf t 23 16))
def tabLevels (t : BitVec 128) : Nat := bitsOf t 51 32

/-- Whether a codec table passes image verification (R129, R162). -/
def codecTableOk (t : BitVec 128) : Bool :=
  isSteep (tabContainer t) && 1 ≤ tabTarget t && tabTarget t ≤ 6 && bitsOf t 17 16 = 0 && bitsOf t 22 20 ≤ 5 &&
    !bitOf t 23 && bitsOf t 31 24 = 0 && bitsOf t 127 52 = 0

/-- Table `i`, from 1 (R161). -/
def Dev.codecTable (d : Dev) (i : Nat) : Option (BitVec 128) := if i = 0 then none else d.codecTables[i - 1]?

/-! ### Compression (R164) -/

/-- The distance of two finite values as a nonnegative value. -/
def Val.dist (a b : Val) : Val := (a.add b.neg).abs

/-- The better of two codes for a value: nearer, then the smaller magnitude, then the lower code (R164). -/
def betterCode (v : Val) (a b : Nat × Val) : Nat × Val :=
  let c := (v.dist b.2).cmp (v.dist a.2)
  if c < 0 then b
  else if c = 0 && b.2.abs.cmp a.2.abs < 0 then b
  else a

/-- The code whose decoded value is nearest to `v` under a scale exponent. -/
def nearestCode (cont lev : Nat) (x : Int) (v : Val) : Nat :=
  ((List.range (2 ^ steepBits cont)).foldl
    (fun (best : Nat × Val) c => betterCode v best (c, (steepCode cont lev c).scaleBy x))
    (0, (steepCode cont lev 0).scaleBy x)).1

/-- The header bytes of a block. -/
def steepHeader (bexp : Nat) (goff : List Nat) (lev : Nat) (last short : Bool) : List Byte :=
  [BitVec.ofNat 8 bexp] ++ leBytes 4 (goff.foldr (fun g acc => g + 16 * acc) 0) ++
    leBytes 3 (lev + (if last then 2 ^ 20 else 0) + (if short then 2 ^ 21 else 0))

/-- Whether a value is finite. -/
def Val.isFin : Val → Bool
  | .fin _ _ _ => true
  | _ => false

/-- Code a block of up to 256 values (R164). -/
def steepEncode (cont lev : Nat) (last : Bool) (vs : List Val) : List Byte :=
  let short := vs.length < 256
  let zeros := List.replicate (32 * steepBits cont) (0 : Byte)
  if vs.any fun v => !v.isFin then steepHeader 255 [] 0 last short ++ zeros
  else match groupLog vs with
    | none => steepHeader 0 (List.replicate 8 15) lev last short ++ zeros
    | some m =>
      let bexp : Int := max 0 (min 254 (m + 128))
      let groups := (chunksOf 8 32 vs)
      let offs : List Nat := groups.map fun g =>
        match groupLog g with
        | some x => (max (0 : Int) (min 14 (bexp - 128 - x))).toNat
        | none => 15
      let codes := (groups.zip offs).flatMap fun e => e.1.map fun v =>
        if e.2 = 15 then 0 else nearestCode cont lev (bexp - 127 - (e.2 : Int)) v
      steepHeader bexp.toNat (offs ++ List.replicate (8 - offs.length) 15) lev last short ++
        packBits (steepBits cont) (codes ++ List.replicate (256 - codes.length) 0)

/-- Code a run of values as blocks of one container, the last with LAST (R166). -/
def steepRun (cont lev : Nat) (vs : List Val) : List Byte :=
  let n := (vs.length + 255) / 256
  ((chunksOf n 256 vs).zip (List.range n)).flatMap fun e => steepEncode cont lev (e.2 + 1 = n) e.1

/-! ### Checks and delivery (R177, R178) -/

/-- What a coded run declares outside itself, and what carries it. -/
structure RunDecl where
  cont : Nat
  table : Nat
  elems : Nat
  short : Bool
  tail : Nat
  capacity : Nat
  deriving DecidableEq, Repr

/-- The declaration checks that fail, in the order of R177 (checks 1 to 3), as bit numbers of CODEC_ERR.
(DEDUCED, log 63) -/
def declFails (table : Option (BitVec 128)) (r : RunDecl) : List Nat :=
  (match table with
    | some t => if tabContainer t = r.cont then [] else [6]
    | none => [6]) ++
  (if r.elems = 0 then [0] else if r.capacity < r.elems then [5] else []) ++
  (if (if r.short then 1 ≤ r.tail && r.tail ≤ 255 && r.tail = r.elems % 256 else r.tail = 0 && r.elems % 256 = 0)
    then [] else [4])

/-- Block `i` of a run. -/
def runBlock (cont : Nat) (bs : List Byte) (i : Nat) : List Byte := (bs.drop (i * steepBlock cont)).take (steepBlock cont)

/-- The header checks that block `i` of `n` fails (R177 check 4). -/
def blockFails (r : RunDecl) (n i : Nat) (h : SteepHdr) : List Nat :=
  let final := i + 1 = n
  (if h.last && !final then [1] else []) ++ (if !h.last && final then [2] else []) ++
  (if h.shortTail = (final && r.short) then [] else [3]) ++ (if h.rsv = 0 then [] else [7])

/-- What an expander delivers: the element bytes in the target format, the target, whether the run is bad, the bits it sets in
CODEC_ERR in the order met, and the blocks it decoded. -/
structure Expanded where
  vals : List Val
  target : Nat
  bad : Bool
  fails : List Nat
  blocks : Nat
  deriving DecidableEq, Repr

/-- Expand a run (R160, R177, R178). The values are those of the target format. -/
def expandRun (table : Option (BitVec 128)) (r : RunDecl) (bs : List Byte) : Expanded :=
  let target := match table with
    | some t => tabTarget t
    | none => 1
  let decl := declFails table r
  if decl ≠ [] then
    ⟨List.replicate (if r.capacity < r.elems then r.capacity else r.elems) .nan, target, true, decl, 0⟩
  else
    let n := (r.elems + 255) / 256
    let fails := (List.range n).map fun i => blockFails r n i (steepHdr (runBlock r.cont bs i))
    let good := ((List.range n).find? fun i => fails[i]?.getD [] ≠ []).getD n
    let vals := (List.range good).flatMap fun i => steepDecode r.cont (runBlock r.cont bs i)
    ⟨vals.take r.elems ++ List.replicate (r.elems - min r.elems (256 * good)) .nan, target, good ≠ n, fails.flatten, good⟩

/-- The bytes that an expander writes: the target's units of 256 elements (R118, R160). -/
def expandedBytes (table : Option (BitVec 128)) (x : Expanded) : List Byte :=
  let a : Arith := match table with
    | some t => { tabArith t with stoch := false }
    | none => ⟨0, false, false, false⟩
  (chunksOf ((x.vals.length + 255) / 256) 256 x.vals).flatMap fun u => packUnit x.target false a (fun _ => none) u

/-! ### Registers (R181–R185) -/

/-- A bit of CODEC_ERR by number (R184). -/
def codecBit (i : Nat) : Fld := ⟨.CODEC_ERR, i, i⟩

/-- Record an expanded run: blocks counted; a bad one sets every matching bit, counts once, and is located when it is the first
met while the bits were clear (R180, R183–R185).
(DESIGN CHOICE, log 64) -/
def recordRun (d : Dev) (x : Expanded) (tag source : Nat) (ccw : Bool) (layer : Nat) : List Upd :=
  (if x.blocks = 0 then [] else [addF F.CODEC_EXP_BLOCKS 0 x.blocks]) ++
  (if x.bad then
    (if d.reg .CODEC_ERR % 256 = 0 then
      [setF F.CODEC_ERR_LOC_TAG 0 tag, setF F.CODEC_ERR_LOC_SOURCE 0 source, setB F.CODEC_ERR_LOC_DIR 0 ccw,
       setF F.CODEC_ERR_LOC_FIRST 0 (x.fails.headD 0), setF F.CODEC_ERR_LOC_LAYER 0 layer] else []) ++
    (x.fails.map fun i => setF (codecBit i) 0 1) ++ [satF F.CODEC_ERR_FAULTS 0 1]
  else [])

end Sys2Proof.Machine
end

