-- ==== Sys2Proof/Machine/Hbm.lean ====
section
/-! DEFINITION. The region table (R213), and reads and writes of HBM with bad blocks and bad marks (R202–R206, R363). -/

namespace Sys2Proof.Machine

/-! ### The region table (R213) -/

def regionType (e : BitVec 128) : Nat := bitsOf e 7 0
def regionScrub (e : BitVec 128) : Bool := bitOf e 8
def regionCommitted (e : BitVec 128) : Bool := bitOf e 9
def regionPkey (e : BitVec 128) : Nat := bitsOf e 27 16
def regionBase (e : BitVec 128) : Nat := bitsOf e 63 32 * 16384
def regionSize (e : BitVec 128) : Nat := bitsOf e 95 64 * 16384

/-- Whether an address lies in a region. -/
def inRegion (e : BitVec 128) (a : Nat) : Bool := regionBase e ≤ a && a < regionBase e + regionSize e

/-! ### HBM reads and writes -/

/-- The block of an address (R202). -/
def blockOf (a : Nat) : Nat := a / 256
/-- The channel of an address (R202). -/
def channelOf (a : Nat) : Nat := a / 256 % 256

/-- Show in HBM_IDLE whether a channel has no transfer in progress (R211, R227). -/
def channelIdle (ch : Nat) (idle : Bool) : Upd :=
  .fld F.HBM_IDLE_CH (ch / 64) fun v => putBits v (ch % 64) (ch % 64) (if idle then 1 else 0)

/-- Whether any marked range meets `[a, a + n)` (R363). -/
def marked (marks : List (Nat × Nat)) (a n : Nat) : Bool := marks.any fun m => m.1 < a + n && a < m.1 + m.2

/-- Remove `[a, a + n)` from the marked ranges. -/
def unmark (a n : Nat) (marks : List (Nat × Nat)) : List (Nat × Nat) :=
  marks.flatMap fun m =>
    if m.1 < a + n && a < m.1 + m.2 then
      (if m.1 < a then [(m.1, a - m.1)] else []) ++
      (if a + n < m.1 + m.2 then [(a + n, m.1 + m.2 - (a + n))] else [])
    else [m]

/-- Read HBM: a listed bad block is delivered as zero bytes with a bad mark (R205), and bytes written under a mark keep it
(R363). -/
def Dev.readHbm (d : Dev) (a n : Nat) : List Byte × Bool :=
  let bs := memRead d.hbm a n
  let bad := d.hbmBad.filter fun b => b * 256 < a + n && a < b * 256 + 256
  let bs' := if bad.isEmpty then bs else
    (List.range n).zip bs |>.map fun e => if bad.contains (blockOf (a + e.1)) then 0 else e.2
  (bs', !bad.isEmpty || marked d.hbmMarks a n)

/-- Write HBM: a read-modify-write of a listed bad block performs no write, and a whole-block write removes the block from the
list (R203, R205). The written bytes carry a mark or lose it (R363). -/
def writeHbm (a : Nat) (bs : List Byte) (bad : Bool) : Act := fun d =>
  let n := bs.length
  if n = 0 then [] else
    let hit := d.hbmBad.filter fun b => b * 256 < a + n && a < b * 256 + 256
    let whole := hit.filter fun b => a ≤ b * 256 && b * 256 + 256 ≤ a + n
    let partly := hit.filter fun b => !(a ≤ b * 256 && b * 256 + 256 ≤ a + n)
    let bs' := if partly.isEmpty then bs else
      (List.range n).zip bs |>.map fun e => if partly.contains (blockOf (a + e.1)) then memByte d.hbm (a + e.1) else e.2
    [.hbm a bs'] ++ (if whole.isEmpty then [] else [.hbmBad fun l => l.filter fun b => !whole.contains b]) ++
      (if bad then [.hbmMarks fun m => unmark a n m ++ [(a, n)]]
       else if marked d.hbmMarks a n then [.hbmMarks (unmark a n)] else [])

end Sys2Proof.Machine
end

