-- ==== Sys2Proof/Machine/Client.lean ====
section
/-! DEFINITION. Queue pairs as senders, client rings and completion records (13, and R455, R456): what the fence of a slice and the commit
point both need. -/

namespace Sys2Proof.Machine

/-! ### The service region and queue pair state -/

/-- The service region: base and size (type 0x06, R213). -/
def Dev.svcRegion (d : Dev) : Nat × Nat :=
  match d.regions.find? fun e => regionType e = 6 with
  | some e => (regionBase e, regionSize e)
  | none => (0, 0)

/-- A queue pair. -/
def Dev.qp (d : Dev) (q : Nat) : QpSt := mapGet (fun _ => QpSt.init) d.svc.qps q

/-- Change a queue pair. -/
def onQp (q : Nat) (g : QpSt → QpSt) : Upd :=
  .svc fun s => { s with qps := mapSet (fun _ => QpSt.init) q (g (mapGet (fun _ => QpSt.init) s.qps q)) s.qps }

/-- Bytes of the request region of an entry: header, records, prompt area (R525). -/
def QpEnt.regionBytes (e : QpEnt) : Nat := 4096 + 128 * e.nrec + 1024 * e.promptKib

/-- The HBM address of a queue pair's request region (R523). -/
def Dev.qpRegion (d : Dev) (e : QpEnt) : Nat := d.svcRegion.1 + 4096 * e.regionOff

/-- Bytes of the path MTU (R523). -/
def QpEnt.mtu (e : QpEnt) : Nat := if e.pmtu = 3 then 1024 else if e.pmtu = 4 then 2048 else 4096

/-- PSNs are 24 bits wide. -/
def psnMod : Nat := 16777216
/-- How far PSN `b` lies ahead of `a`. -/
def psnAhead (a b : Nat) : Nat := (b + psnMod - a % psnMod) % psnMod

/-- An interface's Ethernet port and its index there (R516). -/
def ethPort (i : Nat) : Nat := i / 4
def ethIndex (i : Nat) : Nat := i % 4


/-- Interfaces of a mode (R516). -/
def ifaceCount (mode : Nat) : Nat := if mode = 0 then 1 else if mode = 1 then 2 else 4

/-- Whether an interface exists in its port's mode (R516). -/
def Dev.ifaceExists (d : Dev) (i : Nat) : Bool := i < 8 && ethIndex i < ifaceCount (d.fld F.ETH_CTL_MODE (ethPort i))

/-- An interface's table entry, when it is used (R517). -/
def Dev.iface (d : Dev) (i : Nat) : Option Iface := (d.svc.ifaces[i]?).bind fun e => if e.mac = 0 then none else some e

/-- Whether an interface sends: it exists, its entry is used, its port is enabled and has link, and RELINQUISH has not silenced the
module (R469, R517). -/
def Dev.ifaceSends (d : Dev) (i : Nat) : Bool :=
  d.ifaceExists i && (d.iface i).isSome && d.bit F.ETH_CTL_ENABLE (ethPort i) &&
    d.fld F.ETH_STATUS_UP (ethPort i) / 2 ^ ethIndex i % 2 = 1

/-- Whether a received pause holds RoCE frames of an interface (R522). -/
def Dev.paused (d : Dev) (i : Nat) : Bool :=
  let e := ethPort i
  d.bit F.ETH_CTL_PFC_EN e && d.bit F.ETH_STATUS_PFC_RX e &&
    (d.iface i).any fun x => bitsOf x.vlan 14 12 = d.fld F.ETH_CTL_PFC_PRIO e

/-! ### Sending (R519, R522, R524) -/

/-- Packets of a length at a path MTU, one for no bytes. -/
def mtuPackets (n mtu : Nat) : Nat := max 1 ((n + mtu - 1) / mtu)

/-- The PSNs that a message takes. -/
def RoceMsg.psns (mtu : Nat) : RoceMsg → Nat
  | .write _ _ _ _ data => mtuPackets data.length mtu
  | .readReq _ _ _ len => mtuPackets len mtu
  | _ => 0

/-- Put a message on the wire of a queue pair, or hold it under a pause; what an interface cannot send is lost. -/
def roceEmit (q : Nat) (m : RoceMsg) : Act := fun d =>
  match (d.qp q).ent with
  | none => []
  | some e =>
    if d.svc.silenced || !d.ifaceSends e.iface then []
    else if d.paused e.iface then [.svc fun s => { s with held := s.held ++ [(ethPort e.iface, q, m)] }]
    else [.send (.roce q m)]

/-- Send a request of this module: it takes PSNs and is kept until acknowledged. The message is given its first PSN.
(DEDUCED, log 126) -/
def rocePost (q : Nat) (f : Nat → RoceMsg) (pull : Option Pull) (export_ : Option Nat) : Act := fun d =>
  let s := d.qp q
  match s.ent with
  | none => []
  | some e =>
    if s.st ≠ .ready then [] else
      let m := f s.sqPsn
      let n := m.psns e.mtu
      inSequence [
        fun d => [onQp q fun s => { s with
          sent := s.sent ++ [⟨s.sqPsn, n, m, pull, [], export_⟩], sqPsn := (s.sqPsn + n) % psnMod
          progressAt := if s.sent.isEmpty then d.now else s.progressAt }],
        roceEmit q m ] d

/-! ### The client ring (R533, R535) -/

/-- CONSUMED as the client has written it (R525). -/
def Dev.consumed (d : Dev) (e : QpEnt) : Nat := leNat (memRead d.hbm (d.qpRegion e + 8) 8)

/-- Whether an entry may be sent in the safe state: a COMPLETION with a status other than DONE (R462). -/
def failureEntry (b : List Byte) : Bool := b.getD 56 0 = 1 && b.getD 5 0 ≠ 0

/-- The position of the entry sent next: the first, or in the safe state the first that reports a failure. -/
def Dev.nextEntry (d : Dev) (s : QpSt) : Option Nat :=
  if s.backlog.isEmpty then none
  else if d.mode = stSafe then findIdx? (fun _ b => failureEntry b) s.backlog
  else some 0

/-- Write one waiting entry into the client ring: bytes 60–63 carry the new RING_SEQ (R533). -/
def writeEntry (q i : Nat) (e : QpEnt) : Act := fun d =>
  let s := d.qp q
  match s.backlog[i]? with
  | none => []
  | some b =>
    let seq := s.ringSeq + 1
    let bytes := b ++ leBytes 3 0 ++ leBytes 4 seq
    inSequence [
      fun _ => [onQp q fun s => { s with backlog := s.backlog.eraseIdx i, ringSeq := seq }],
      writeHbm (d.qpRegion e + 24) (leBytes 8 seq) false,
      rocePost q (fun psn => .write psn (e.ringAddr + 64 * (s.ringSeq % max 1 e.ringEntries)) e.ringRkey
        (if e.notify then some (seq % 4294967296) else none) bytes) none none ] d

/-- Write waiting entries while RING_SEQ − CONSUMED < RING_ENTRIES (R535). -/
def pumpQp (q : Nat) : Nat → Act
  | 0, _ => []
  | n + 1, d =>
    let s := d.qp q
    match s.ent, d.nextEntry s with
    | some e, some i =>
      if s.st = .ready && s.ringSeq - d.consumed e < e.ringEntries then inSequence [writeEntry q i e, pumpQp q n] d else []
    | _, _ => []

/-- Queue an entry for a queue pair; one in ERROR or RESET sends nothing, and its entries are counted undelivered (R535). An entry is 56
bytes and its KIND. -/
def queueEntry (q : Nat) (kind : Nat) (body : List Byte) : Act := fun d =>
  if (d.qp q).st = .ready then
    inSequence [
      fun _ => [onQp q fun s => { s with backlog := s.backlog ++ [body.take 56 ++ [BitVec.ofNat 8 kind]] }],
      fun d => pumpQp q (d.qp q).backlog.length d ] d
  else [satF F.SVC_CNT_UNDELIVERED 0 1]

/-! ### Request records (R526) -/

/-- The fields of a request record. -/
structure ReqRec where
  seq : Nat
  kind : Nat
  flags : Nat
  stopLens : Nat
  adapter : Nat
  adapterGen : Nat
  baseGen : Nat
  maxTokens : Nat
  promptLen : Nat
  promptOff : Nat
  temp : BitVec 32
  topP : BitVec 32
  topK : Nat
  deadlineUs : Nat
  cancelSeq : Nat
  rsv : Nat
  stop : List Nat
  user : List Byte
  deriving DecidableEq, Repr

/-- Read a request record. -/
def reqRec (b : List Byte) : ReqRec :=
  let n := fun (off len : Nat) => leNat ((b.drop off).take len)
  { seq := n 0 4, kind := n 4 1, flags := n 5 1, stopLens := n 6 2, adapter := n 8 4, adapterGen := n 12 2, baseGen := n 14 2,
    maxTokens := n 16 4, promptLen := n 20 4, promptOff := n 24 8, temp := BitVec.ofNat 32 (n 32 4),
    topP := BitVec.ofNat 32 (n 36 4), topK := n 40 4, deadlineUs := n 44 4, cancelSeq := n 48 4, rsv := n 52 4,
    stop := (List.range 16).map fun i => n (56 + 4 * i) 4, user := (b.drop 120).take 8 }

/-! ### Completion records (R455, R456) -/

/-- The 32 bytes of a completion record (R455). -/
def recordBytes (it : Item) (status step : Nat) (gcnt : BitVec 64) : List Byte :=
  leBytes 4 it.handle ++ [BitVec.ofNat 8 it.typ, BitVec.ofNat 8 status] ++ leBytes 2 it.pkey.toNat ++ leBytes 8 step ++
    leBytes 8 gcnt.toNat ++ leBytes 4 it.count ++ leBytes 2 (min 65535 it.lost) ++
    [BitVec.ofNat 8 (min 255 it.replays), BitVec.ofNat 8 it.cls]

/-- Bytes 32–55 of the COMPLETION entry of a request (R533). -/
def requestTail (b : List Byte) (reason adapterGen baseGen : Nat) : List Byte :=
  let r := reqRec b
  r.user ++ leBytes 4 r.seq ++ [BitVec.ofNat 8 reason, 0] ++ leBytes 2 adapterGen ++ leBytes 2 baseGen ++ [0, 0] ++
    leBytes 4 r.promptLen

/-- Release the completion record of an item, once (R2, R456): a request's goes to its client ring, a training step's to the ring of
its job's REPORT_QP, the others to the host as an event. STEP is the deciding step, all ones for step −1; `reason` is the REASON of a
request. `tail` gives bytes 32–55 of a training step's entry (R540). -/
def releaseWith (handle : Nat) (pkey : BitVec 12) (status step reason : Nat) (tail : List Byte) : Act := fun d =>
  match d.commit.items.find? fun it => it.handle = handle && it.pkey = pkey with
  | none => []
  | some it =>
    let bytes := recordBytes it status step d.gcnt
    inSequence [
      fun _ => [.commit fun c => { c with items := c.items.filter fun x => !(x.handle = handle && x.pkey = pkey) }] ++
        (if status = 0x40 then flagDet F.DET_STATUS_TIMEOUT else []),
      fun d =>
        match it.typ with
        | 1 =>
          match d.svc.reqs.find? fun r => r.handle = handle with
          | some r => inSequence [
              fun _ => [.svc fun s => { s with reqs := s.reqs.filter fun x => x.handle ≠ handle }],
              queueEntry r.qp 1 (bytes ++ requestTail r.body reason r.adapterGen r.baseGen) ] d
          | none => []
        | 2 =>
          match d.svc.jobs.find? fun j => j.handle = handle with
          | some j => queueEntry j.reportQp 1 (bytes ++ tail) d
          | none => []
        | _ => [.event 1 bytes] ] d

/-- Release a record whose status is not DONE: a request's REASON is 0xFF (R533). -/
def releaseRecord (handle : Nat) (pkey : BitVec 12) (status step : Nat) : Act :=
  releaseWith handle pkey status step 255 (leBytes 24 0)

end Sys2Proof.Machine
end

