-- ==== Sys2Proof/Machine/Fence.lean ====
section
/-! DEFINITION. Fencing a slice, the safe state, fault reports, items that a fault fails, slips, and the publication of a snapshot:
the shared operations by which every fault acts (R261, R281, R300, R339, R455–R463, R477). -/

namespace Sys2Proof.Machine

/-- The ring contexts of a partition key that are armed or live (RING_STATUS.STATE 1 or 2). -/
def Dev.activeRings (d : Dev) (pkey : BitVec 12) : List Nat :=
  [0, 1, 2, 3].filter fun k =>
    d.fld F.RING_CTL_PKEY k = pkey.toNat && (d.fld F.RING_STATUS_STATE k = 1 || d.fld F.RING_STATUS_STATE k = 2)

/-- The ring context live in at least one direction, if any (R43). -/
def Dev.liveRing (d : Dev) : Option Nat := [0, 1, 2, 3].find? fun k => d.fld F.RING_STATUS_STATE k = 2

/-- The partition key of a core's live binding. -/
def Dev.corePkey (d : Dev) (c : CoreSt) : Option (BitVec 12) :=
  (c.live.bind fun b => d.schedLib[b.sched]?).map fun s => s.pkey

/-- The listed cores whose live binding serves a partition key. -/
def Dev.coresOf (d : Dev) (pkey : BitVec 12) : List (Nat × CoreSt) :=
  d.cores.filter fun e => d.corePkey e.2 = some pkey

/-- The ring contexts that a slice's work rests on: armed or live, or stopped with cores that still hold the binding live (R276, R304). -/
def Dev.boundRings (d : Dev) (pkey : BitVec 12) : List Nat :=
  [0, 1, 2, 3].filter fun k => d.fld F.RING_CTL_PKEY k = pkey.toNat &&
    (d.fld F.RING_STATUS_STATE k = 1 || d.fld F.RING_STATUS_STATE k = 2 ||
      (d.coresOf pkey).any fun e => e.2.live.any fun b => b.ring = k)

/-- The slice a core works for. -/
def Dev.coreSlice (d : Dev) (c : Nat) : Option Nat := (d.corePkey (d.core c)).bind d.sliceOf

/-! ### Publishing a snapshot -/

/-- Publish a pending snapshot (R339), with ABANDONED when a fence or the safe state publishes it. -/
def publishSnap (abandoned : Bool) : Act := fun d =>
  if d.bit F.SNAP_STATUS_PENDING then
    [.snapPublish, setF F.SNAP_GCNT_GCNT 0 d.snapInfo.gcnt, addF F.SNAP_SEQ_SEQ 0 1, setF F.SNAP_STATUS_PENDING 0 0,
     setB F.SNAP_STATUS_ABANDONED 0 abandoned, setB F.SNAP_STATUS_LATE 0 d.snapInfo.late,
     setB F.SNAP_STATUS_UNLOCKED 0 d.snapInfo.unlocked]
  else []

/-! ### Slips -/

/-- The object and kind that SLIP_LAST gives for a wait (R310). -/
def WaitObj.slip : WaitObj → Nat × Nat
  | .stream n _ => (n, 0)
  | .swap r => (r, 1)
  | .sync id _ _ => (id, 2)

/-- Record the slip of a DUE wait that ends now (R299, R300); one that has reached SLIP_LIMIT was recorded then (R301). -/
def recordSlip (c n : Nat) (x : ThreadCtx) : Act := fun d =>
  match x.wait, x.cur with
  | some w, some f =>
    if w.due && !w.limited then
      let ticks := d.now - w.start
      let (obj, kind) := w.obj.slip
      [addF F.SLIP_COUNT_COUNT c 1, maxF F.SLIP_COUNT_MAX_TICKS c ticks, addF F.SLIP_TIME_TICKS c ticks,
       setF F.SLIP_LAST_DAY c f.day, setB F.SLIP_LAST_DIR c (f.trig = .ccw || f.trig = .gradCcw),
       setB F.SLIP_LAST_BWD c f.bwd, setF F.SLIP_LAST_CTX c n, setF F.SLIP_LAST_OBJ c obj, setF F.SLIP_LAST_KIND c kind]
    else []
  | _, _ => []

/-! ### Items -/

/-- The step record of a slice, empty when the step has not opened. -/
def StepSt.init (t : Nat) : StepSt := ⟨t, [], 0, false, none, []⟩

/-- Change the record of an uncommitted step, opening it when it is not open; a committed step is not opened again (R658). -/
def onStep (t : Nat) (g : StepSt → StepSt) (s : SliceSt) : SliceSt :=
  if s.steps.any fun e => e.step = t then
    { s with steps := s.steps.map fun e => if e.step = t then g e else e }
  else if s.committed.any fun c => t ≤ c then s
  else { s with steps := (s.steps.filter fun e => e.step < t) ++ [g (.init t)] ++ (s.steps.filter fun e => t < e.step) }

/-- Every item of a step takes a status, the first that failed it (R261, R477). -/
def failStep (i t status : Nat) : Upd :=
  .slice i (onStep t fun e => { e with fail := if e.fail.isSome then e.fail else some status })

/-- One item of a step takes a status. -/
def failItem (i t item status : Nat) : Upd :=
  .slice i (onStep t fun e =>
    if e.failItems.any fun x => x.1 = item then e else { e with failItems := e.failItems ++ [(item, status)] })

/-- The low bits of the last committed step of a slice: all ones for step −1 (R484). -/
def SliceSt.committedWord (s : SliceSt) : Nat :=
  match s.committed with
  | some c => c
  | none => 2 ^ 64 - 1

/-- Complete every admitted item of a slice with a status decided by recovery (R456, R473, R474, R477). Host DMA items and exports belong
to no step (R457). -/
def failAllItems (i status : Nat) : Act := fun d =>
  let s := d.slice i
  let items := d.commit.items.filter fun it => it.pkey = s.pkey && it.typ ≠ 3 && it.typ ≠ 4
  inSequence [
    onlyIf (!items.isEmpty && status ≠ 0x40) (fun _ => flagDet F.DET_STATUS_FAILED),
    forEach (fun it => releaseRecord it.handle s.pkey status s.committedWord) items,
    fun _ => [.svc fun v => { v with jobs := v.jobs.filter fun j => j.pkey ≠ s.pkey }] ] d

/-! ### Fault reports -/

/-- A fault report to the coordinator, with its FAULT event (R460, R568). -/
def faultReport (cls : Nat) (port : Option Nat) (pkeys : List (BitVec 12)) : Act := fun d =>
  let pk := match pkeys with
    | p :: _ => p.toNat
    | [] => 0
  [.send (.mgmt d.coordinator (.faultReport cls d.here port pkeys)),
   .event 6 ([BitVec.ofNat 8 cls, 0] ++ leBytes 2 d.here.toNat ++ leBytes 2 pk)]

/-! ### Fencing -/

/-- What a fence leaves of a core: every pending list empty, every unit queue and engine stopped, parameters kept until the
rollback restores them (R261, R281). -/
def stopCore (cs : CoreSt) : CoreSt :=
  { cs with
    ctxs := mapAll (fun _ => ThreadCtx.init) (fun _ x => { ThreadCtx.init with params := x.params, barrier := x.barrier }) cs.ctxs
    due := [], commitWait := none, tileQ := [], thinQ := [], vecQ := [], afters := []
    fetch0 := .init, fetch1 := .init, drain := .init, armedCnt := [], doneCnt := [], holdFrom := none
    draws := [], banks := [], drainA := 0, drainB := 0, stallA := none, stallB := none, dummyA := none, dummyB := none }

/-- The arms held by a core's engines. -/
def CoreSt.allArms (cs : CoreSt) : List Arm := cs.fetch0.queue ++ cs.fetch1.queue ++ cs.drain.queue

/-- Stop the work of a slice on one core: slips that its waits were in are recorded, and its transfers abort (R261, R300). -/
def fenceCore (e : Nat × CoreSt) : Act := fun d =>
  let (c, cs) := e
  (cs.ctxs.flatMap fun x => recordSlip c x.1 x.2 d) ++
  inSequence (cs.allArms.map fun a => fun d' => flagStream d' c F.STREAM_ERR_FENCE a.stream none) d ++
  [.core c stopCore]

/-- FENCE flits leave every port that is UP, and the ports report it (R377, R461). -/
def sendFences (device : Bool) (pkey : BitVec 12) : Act := fun d =>
  ([0, 1, 2, 3, 4, 5].filter fun p => d.fld F.LINK_STATUS_STATE p = 5).flatMap fun p =>
    [.send (.fence p device pkey d.gcnt), setF F.LINK_STATUS_FENCE_TX p 1]

/-- The RECOV_ERR bit of a fence of a class, when the class has one (R489). -/
def fenceBit (cls : Nat) : List Upd :=
  match cls with
  | 1 => flagRecov F.RECOV_ERR_STEP
  | 2 => flagRecov F.RECOV_ERR_LINK
  | _ => []

/-- Whether step c + 1 of a slice has sent READY. -/
def SliceSt.nextReady (s : SliceSt) : Bool :=
  let t := match s.committed with
    | some c => c + 1
    | none => 0
  s.steps.any fun e => e.step = t && e.readySent

/-- The last committed step as an integer, −1 for none. -/
def SliceSt.committedInt (s : SliceSt) : Int :=
  match s.committed with
  | some c => c
  | none => -1

/-- The resolution data a fenced module reports to the slice's resolver (R465); the holder of a dead member's mirror also
reports its staged writes and decision record. -/
def sendResolution (i : Nat) : Act := fun d =>
  let s := d.slice i
  match s.desc with
  | none => []
  | some e =>
    let own := if d.isMember e d.here then
        [Upd.send (.mgmt (d.resolver e) (.resolution s.pkey s.committedInt s.nextReady))] else []
    let ward := match d.wardOf d.here with
      | some w =>
        if d.isMember e w && (d.isDead w || w = homeOf e) then
          let t := (s.committedInt + 1).toNat
          let dec := (d.commit.wardDecide.filter fun x => x.1 = s.pkey).foldl
            (fun (a : Option Nat) x => some (max (a.getD 0) x.2)) none
          [Upd.send (.mgmt (d.resolver e) (.mirrorResolution s.pkey
            (d.commit.staged.any fun x => x.pkey = s.pkey && x.step = t) dec))]
        else []
      | none => []
    own ++ ward

/-- Discard the SCHED and UNPL packets of a fenced slice that wait here on VC0–VC3: nothing of the key is sent or forwarded, and the steps
they belong to are undone (R378, R462).
(DEDUCED, log 105) -/
def dropQueued (pkey : BitVec 12) : Act := fun d =>
  let gone := fun (q : Packet) => decide (q.key = pkey) && pktVc q ≤ 3
  ([0, 1, 2, 3, 4, 5].flatMap fun p =>
    let s := d.port p
    let out := s.queue.filter fun q => gone q.pkt
    if out.isEmpty && !s.leafOut then [] else
      Upd.port p (fun s => { s with queue := s.queue.filter fun q => !gone q.pkt, leafOut := false }) ::
        out.filterMap fun q => q.from_.map fun i =>
          Upd.port i fun s => { s with rxFreed := addNth s.rxFreed (pktVc q.pkt) (pktCredits q.pkt) }) ++
  (if d.route.waiting.any gone then [.route fun r => { r with waiting := r.waiting.filter fun p => !gone p }] else [])

/-- Fence a slice at this module (R281, R453, R461, R465, R474, R485): its cues stop, its transfers abort, the packets of its key
stop, and the fence floods. A fault in a slice already fenced joins that recovery.
(DEDUCED, log 102) -/
def fenceSlice (i cls : Nat) : Act := fun d =>
  let s := d.slice i
  if s.fenced || s.desc.isNone then [] else
    inSequence [
      forEach fenceCore (d.coresOf s.pkey),
      fun _ => [.slice i fun s => { s with
        fenced := true, rstate := 1, fenceAt := d.now, fenceCls := cls,
        rollbacks := 0, boundDone := false, relaunchAt := none, flipsAt := d.fld F.ROUTE_EPOCH_FLIPS,
        replaced := s.desc.toList.flatMap fun e => (d.members e).filter d.isDead,
        home := { s.home with reports := [], logged := none, restored := [], target := none } }],
      fun _ => (d.activeRings s.pkey).map fun k => .ring k fun r =>
        { r with cw := { r.cw with rx := none, reading := false, fed := 0 },
                 ccw := { r.ccw with rx := none, reading := false, fed := 0 } },
      fun _ => [setF F.RECOV_LAST_FENCE_GCNT i d.now, setF F.RECOV_LAST_DURATION i 65535, setF F.RECOV_LAST_REPLAYS i 0,
        setF F.RECOV_LAST_CLASS i cls, addF F.COMMIT_CNT_RECOVERIES 0 1] ++ fenceBit cls,
      dropQueued s.pkey,
      sendFences false s.pkey,
      onlyIf (d.liveRing.any fun k => d.fld F.RING_CTL_PKEY k = s.pkey.toNat) (publishSnap true),
      onlyIf (d.mode = stReady || d.mode = stRunning) (enterState stRecovering),
      sendResolution i ] d

/-- Fence the slice of a fault this module detects, and report the fault (R460). -/
def faultSlice (i cls : Nat) : Act := fun d =>
  let s := d.slice i
  if s.desc.isNone then [] else
    inSequence [fenceSlice i cls, faultReport cls none [s.pkey]] d

/-- The slices of SCHED packets that the router discarded are fenced, as step faults (R458, R478).
(DEDUCED, log 103) -/
def fenceLost : Act := fun d =>
  if d.route.lost.isEmpty then [] else
    inSequence [
      forEach (fun k => fun d => match d.sliceOf k with
        | some i => faultSlice i 1 d
        | none => []) d.route.lost,
      fun _ => [.route fun r => { r with lost := [] }] ] d

/-- Halt a slice at slice level for a timeout or on request: fenced, and HALTED once rolled back (R464, R467). -/
def haltSlice (i cls : Nat) : Act :=
  inSequence [fenceSlice i cls, fun _ => [.slice i fun s => { s with halted := true }]]

/-! ### The device-level safe state -/

/-- Enter the device-level safe state (R463): every output as the device column of R462, FAULT_N asserted with an in-band
interrupt of the I3C target (R651), the Kettles stopped (R625), and SAFE_STATUS naming the cause (R481). -/
def enterSafe (cause cls : Nat) : Act := fun d =>
  if d.mode = stSafe then [] else
    inSequence [
      enterState stSafe,
      fun d => [setF F.SAFE_STATUS_ENTRY_GCNT 0 d.now, setF F.SAFE_STATUS_CAUSE 0 cause] ++ driveFault true d,
      fun _ => [.power fun p => { p with test := none }, setF F.KETTLE_STATUS_RUNNING 0 0],
      wakeUp,
      publishSnap true,
      fun d => forEach (fun e => fenceSlice e.1 cls) (d.slices.filter fun e => d.memberHere e.2) d,
      fun d => (d.cores.flatMap fun e => [setF F.CORE_STATUS_DUMMY_A e.1 0, setF F.CORE_STATUS_DUMMY_B e.1 0,
        setF F.CORE_STATUS_GATED e.1 1]),
      sendFences true 0 ] d

/-- A module fault of this module: reported to the coordinator, and the device-level safe state entered (R458, R460, R463). In a machine of
one module it fails every item (R475). -/
def moduleFault (cause : Nat) : Act := fun d =>
  if d.mode = stSafe then [] else
    let pkeys := (d.slices.filter fun e => d.memberHere e.2).map fun e => e.2.pkey
    inSequence [
      fun _ => flagRecov F.RECOV_ERR_MODULE,
      enterSafe cause 3,
      onlyIf d.buddyAxis.isNone (forEach (fun (e : Nat × SliceSt) => failAllItems e.1 0x21) (d.slices.filter fun e => d.memberHere e.2)),
      faultReport 3 none pkeys ] d

/-- A timeout on the work of a slice: its items complete with FAILED_TIMEOUT, decided now (R456), and the safe state is entered,
at slice level or at device level (R301, R330). -/
def timeoutSlice (i : Nat) (device : Bool) (cause : Nat) : Act :=
  inSequence [
    failAllItems i 0x40,
    haltSlice i 4,
    onlyIf device (enterSafe cause 4) ]

end Sys2Proof.Machine
end

