-- ==== Sys2Proof/Machine/Store.lean ====
section
/-! DEFINITION. Reads and writes of HBM and of the scratchpads: bad blocks and bad marks (R203–R206, R363), the region table
(R213), the undo log and the buddy mirror of committed pages (R446, R447), and the overflow of a commit log (R449). -/

namespace Sys2Proof.Machine

/-! ### The commit log region (R213) -/

/-- Whether an address lies in a COMMITTED region of a partition key, or in one shared by all slices (R444). -/
def Dev.isCommitted (d : Dev) (pkey : BitVec 12) (a : Nat) : Bool :=
  d.regions.any fun e => regionCommitted e && inRegion e a && (regionPkey e = pkey.toNat || regionPkey e = 0)

/-- The bytes of the commit log region (type 0x05); each half is half of it (R446, R447). -/
def Dev.commitLogHalf (d : Dev) : Nat :=
  ((d.regions.filter fun e => regionType e = 5).map regionSize).sum / 2

/-! ### Committed writes -/

/-- The pages of 16 KiB that a run touches. -/
def pagesOf (a n : Nat) : List Nat :=
  if n = 0 then [] else (List.range ((a + n - 1) / 16384 + 1 - a / 16384)).map fun i => a / 16384 + i

/-- Bytes of the undo half in use: logged pages and core state records of at most 8 KiB each (R446, R448). -/
def Dev.undoUse (d : Dev) : Nat :=
  d.commit.undo.length * 16384 + (d.commit.recStaged.length + d.commit.recCur.length) * 8192

/-- A step whose log would overflow its half: a step fault that is not replayed, its items completing with CFG_PLAN (R449). -/
def logFull (i t : Nat) : Act :=
  inSequence [
    fun _ => flagRecov F.RECOV_ERR_LOG_FULL ++ [failStep i t 0x12, .slice i fun s => { s with noReplay := s.noReplay ++ [t] }],
    faultSlice i 1 ]

/-- The mirrored WRITE packets of a committed write (R447). -/
def mirrorPackets (d : Dev) (buddy : Coord) (pkey : BitVec 12) (a : Nat) (bs : List Byte) (bad : Bool) : List Packet :=
  (pieces 4096 bs).map fun e =>
    { mkOrdered ptWrite d.here buddy pkey e.2 with
      mark := if bad then 3 else 2, addr := BitVec.ofNat 64 (a + e.1) }

/-- Copy to the undo log the committed contents of every page of the run that step `t` writes for the first time (R446).
(DEDUCED, log 96) -/
def logUndo (i t a n : Nat) : Act := fun d =>
  let pkey := (d.slice i).pkey
  let fresh := (pagesOf a n).filter fun p =>
    (d.isCommitted pkey (max a (p * 16384))) &&
    !(d.commit.undo.any fun u => u.slice = i && u.step = t && u.page = p)
  if fresh.isEmpty then [] else
    let pages := fresh.map fun p => (⟨i, t, p, memSlice d.hbm (p * 16384) 16384⟩ : UndoPage)
    let use := d.undoUse + pages.length * 16384
    [.commit fun c => { c with undo := c.undo ++ pages }, maxF F.COMMIT_LOG_UNDO_PEAK 0 ((use + 1048575) / 1048576)] ++
      (if d.commitLogHalf < use then logFull i t d else [])

/-- Send a committed write to the buddy and count its packets as outstanding for the step (R447, R450). -/
def mirrorWrite (i t a : Nat) (bs : List Byte) (bad : Bool) : Act := fun d =>
  match d.buddyOf d.here with
  | none => []
  | some b =>
    let ps := mirrorPackets d b (d.slice i).pkey a bs bad
    (ps.map Upd.inject) ++ [.slice i (onStep t fun e => { e with mirrorOut := e.mirrorOut + ps.length })]

/-- A write to HBM that belongs to step `t` of slice `i`: logged and mirrored where it lands in COMMITTED pages (R446, R447). -/
def storeStep (i t a : Nat) (bs : List Byte) (bad : Bool) : Act := fun d =>
  if bs.isEmpty then [] else
    if d.isCommitted (d.slice i).pkey a then
      inSequence [logUndo i t a bs.length, writeHbm a bs bad, mirrorWrite i t a bs bad] d
    else writeHbm a bs bad d

/-! ### Scratchpads -/

/-- Read bytes of a core's scratchpad. -/
def Dev.readSpm (d : Dev) (c a n : Nat) : List Byte :=
  d.spmVeil (c * spmSize + a) (memRead d.spm (c * spmSize + a) n)

/-- The key of a scratchpad word. -/
def wordKey (c w : Nat) : Nat := c * 3072 + w

/-- The tasks whose bad marks words of a core carry (R205, R261): 0 for the step, otherwise the item's handle. -/
def Dev.marksOf (d : Dev) (c : Nat) (ws : List Nat) : List Nat :=
  ((d.spmMarks.filter fun m => ws.any fun w => m.1 = wordKey c w).map Prod.snd).dedup

/-- The bytes of words of a core; a word address the scratchpad does not have reads as a free value. -/
def Dev.readWords (d : Dev) (c : Nat) (ws : List Nat) : List Byte :=
  ws.flatMap fun w =>
    if w < 3072 then d.readSpm c (w * 64) 64 else (List.range 64).map fun i => Config.absentByte (w * 64 + i)

/-- The words that `n` bytes take from a first word. -/
def spanWords (w n : Nat) : List Nat := (List.range ((n + 63) / 64)).map fun j => w + j

/-- Write bytes into a list of words in order, with the marks of their data; a bank generates parity on every write (R193). -/
def writeWords (c : Nat) (ws : List Nat) (bs : List Byte) (marks : List Nat) : List Upd :=
  if bs.isEmpty then [] else
    let here := fun (k : Nat) => ws.any fun w => k = wordKey c w
    (ws.zip (chunksOf bs.length 64 bs)).map (fun e => Upd.spm c (e.1 * 64) e.2) ++
    [.spmMarks fun m => (m.filter fun e => !here e.1) ++ ws.flatMap fun w => marks.map fun t => (wordKey c w, t),
     .spmParity fun m => m.filter fun k => !here k]

/-- The first of some words whose stored parity mismatches (R194). -/
def Dev.parityBad (d : Dev) (c : Nat) (ws : List Nat) : Option Nat :=
  ws.find? fun w => d.spmParity.contains (wordKey c w)

/-- Fail what bad-marked data is part of (R205, R261): the step's items, or the items named.
(DEDUCED, log 22) -/
def failMarks (i t : Nat) (marks : List Nat) : List Upd :=
  marks.map fun h => if h = 0 then failStep i t 0x50 else failItem i t h 0x50

end Sys2Proof.Machine
end

