-- ==== Sys2Proof/Machine/Operands.lean ====
section
/-! DEFINITION. Operand forms: the fields of cues (R277), of the 128-bit operations (R286–R296), of stream descriptors (R241) and of
table entries, and how an operation names scratchpad words: regions, halves and queue pointers (R196–R199, R243, R244, R287). -/

namespace Sys2Proof.Machine

/-! ### Cues (R277) -/

def cueTrig (w : BitVec 128) : Nat := bitsOf w 127 125
def cueBwd (w : BitVec 128) : Bool := bitOf w 124
def cueFwd (w : BitVec 128) : Bool := bitOf w 123
def cueCtx (w : BitVec 128) : Nat := bitsOf w 122 115
def cueOpFirst (w : BitVec 128) : Nat := bitsOf w 114 104
def cueOpCount (w : BitVec 128) : Nat := bitsOf w 103 93
def cueDay (w : BitVec 128) : Nat := bitsOf w 92 61
def cuePeriod (w : BitVec 128) : Nat := bitsOf w 60 37
def cueRepeat (w : BitVec 128) : Nat := bitsOf w 36 13

/-- The code of a trigger (R277). -/
def trigCode : Trig → Nat
  | .cw => 1 | .ccw => 2 | .gradCw => 3 | .gradCcw => 4

/-! ### Operations (R286) -/

/-- The operations by opcode; all other values are reserved (R286). -/
inductive OpKind where
  | nop | setp | loop | tile | vec | sfu | arm | rearm | swap | swait | signal | syncwait | digest | commit
  deriving DecidableEq, Repr

/-- The operation of an opcode. -/
def opKind (w : BitVec 128) : Option OpKind :=
  match bitsOf w 127 120 with
  | 0x01 => some .nop
  | 0x02 => some .setp
  | 0x03 => some .loop
  | 0x10 => some .tile
  | 0x20 => some .vec
  | 0x21 => some .sfu
  | 0x30 => some .arm
  | 0x31 => some .rearm
  | 0x32 => some .swap
  | 0x33 => some .swait
  | 0x40 => some .signal
  | 0x41 => some .syncwait
  | 0x50 => some .digest
  | 0x60 => some .commit
  | _ => none

/-- The fields of a TILE (R287). -/
structure TileFields where
  func : Nat
  unit : Nat
  wide : Bool
  cuse : Bool
  cont : Bool
  arith : BitVec 8
  wfmt : Nat
  xfmt : Nat
  cfmt : Nat
  ofmt : Nat
  sclW : Bool
  sclX : Bool
  sclC : Bool
  sclO : Bool
  wreg : Nat
  xreg : Nat
  creg : Nat
  oreg : Nat
  m : Nat
  n : Nat
  k : Nat
  hold : Bool
  deriving DecidableEq, Repr

/-- Decode a TILE (R287). -/
def tileFields (w : BitVec 128) : TileFields :=
  { func := bitsOf w 119 117, unit := bitsOf w 116 115, wide := bitOf w 114, cuse := bitOf w 113, cont := bitOf w 112,
    arith := BitVec.ofNat 8 (bitsOf w 111 104), wfmt := bitsOf w 103 99, xfmt := bitsOf w 98 94, cfmt := bitsOf w 93 89,
    ofmt := bitsOf w 88 84, sclW := bitOf w 83, sclX := bitOf w 82, sclC := bitOf w 81, sclO := bitOf w 80,
    wreg := bitsOf w 79 75, xreg := bitsOf w 74 70, creg := bitsOf w 69 65, oreg := bitsOf w 64 60, m := bitsOf w 59 44,
    n := bitsOf w 43 24, k := bitsOf w 23 4, hold := bitOf w 3 }

/-- The fields of a VEC or SFU (R290). -/
structure VecFields where
  fn : Nat
  arith : BitVec 8
  sfmt : Nat
  dfmt : Nat
  s1reg : Nat
  s2reg : Nat
  dreg : Nat
  s1off : Nat
  s2off : Nat
  doff : Nat
  len : Nat
  row : Nat
  deriving DecidableEq, Repr

/-- Decode a VEC or SFU (R290). -/
def vecFields (w : BitVec 128) : VecFields :=
  { fn := bitsOf w 119 112, arith := BitVec.ofNat 8 (bitsOf w 111 104), sfmt := bitsOf w 103 99, dfmt := bitsOf w 98 94,
    s1reg := bitsOf w 93 89, s2reg := bitsOf w 88 84, dreg := bitsOf w 83 79, s1off := bitsOf w 78 67,
    s2off := bitsOf w 66 55, doff := bitsOf w 54 43, len := bitsOf w 42 23, row := bitsOf w 22 11 }

/-- Stream number of ARM, REARM, SWAIT and DIGEST (R291, R293). -/
def opStream (w : BitVec 128) : Nat := bitsOf w 119 112
def rearmSel (w : BitVec 128) : Nat := bitsOf w 111 109
def rearmBase (w : BitVec 128) : Nat := bitsOf w 108 70
def rearmOff (w : BitVec 128) : Nat := bitsOf w 69 58
/-- The two's complement byte step of a REARM (R291). -/
def rearmStep (w : BitVec 128) : Int := (BitVec.ofNat 32 (bitsOf w 57 26)).toInt
def swapRegion (w : BitVec 128) : Nat := bitsOf w 119 115
def swapDue (w : BitVec 128) : Bool := bitOf w 114
def swaitDue (w : BitVec 128) : Bool := bitOf w 111
def opSyncId (w : BitVec 128) : Nat := bitsOf w 119 108
def signalKind (w : BitVec 128) : Nat := bitsOf w 107 105
def signalRemote (w : BitVec 128) : Bool := bitOf w 104
def signalDest (w : BitVec 128) : Coord := BitVec.ofNat 12 (bitsOf w 103 92)
def opValue (w : BitVec 128) : BitVec 32 := BitVec.ofNat 32 (bitsOf w 87 56)
def signalAfter (w : BitVec 128) : Nat := bitsOf w 55 48
def signalAfterV (w : BitVec 128) : Bool := bitOf w 47
def waitCond (w : BitVec 128) : Nat := bitsOf w 107 105
def waitDue (w : BitVec 128) : Bool := bitOf w 104
def digestLayer (w : BitVec 128) : Nat := bitsOf w 111 96
def digestOnBit (w : BitVec 128) : Bool := bitOf w 95
def setpReg (w : BitVec 128) : Nat := bitsOf w 119 116
def setpValue (w : BitVec 128) : BitVec 32 := BitVec.ofNat 32 (bitsOf w 111 80)
def loopBody (w : BitVec 128) : Nat := bitsOf w 119 108
def loopRt (w : BitVec 128) : Bool := bitOf w 107
def loopPreg (w : BitVec 128) : Nat := bitsOf w 106 103
def loopCount (w : BitVec 128) : Nat := bitsOf w 102 71

/-! ### Stream descriptors (R241) -/

/-- How a stream lies in its region (R243). -/
inductive BufKind where
  | linear | double | queue
  deriving DecidableEq, Repr

/-- A stream descriptor (R241). -/
structure Desc where
  drain : Bool
  transpose : Bool
  mcast : Bool
  persist : Bool
  scaled : Bool
  coded : Bool
  indirect : Bool
  rtCount : Bool
  remote : Bool
  cls : Nat
  engine1 : Bool
  buf : BufKind
  region : Nat
  format : Nat
  entryTask : Bool
  codecTable : Nat
  base : Nat
  rowLen : Nat
  count1 : Nat
  count2 : Nat
  count3 : Nat
  stride1 : Int
  stride2 : Int
  stride3 : Int
  spmOff : Nat
  group : Nat
  rtWord : Nat
  dest : Coord
  deriving DecidableEq, Repr

/-- Decode a descriptor: byte offset `o` of the table is bit `8 * o` (R241). -/
def descOf (w : BitVec 512) : Desc :=
  { drain := bitsOf w 7 0 = 2, transpose := bitOf w 8, mcast := bitOf w 9, persist := bitOf w 10, scaled := bitOf w 11,
    coded := bitOf w 12, indirect := bitOf w 13, rtCount := bitOf w 14, remote := bitOf w 15,
    cls := bitsOf w 17 16, engine1 := bitOf w 18,
    buf := match bitsOf w 20 19 with
      | 0 => .linear
      | 1 => .double
      | _ => .queue,
    region := bitsOf w 28 24, format := bitsOf w 39 32, entryTask := bitsOf w 47 40 = 1, codecTable := bitsOf w 59 48,
    base := bitsOf w 102 64, rowLen := bitsOf w 159 128, count1 := bitsOf w 191 160, count2 := bitsOf w 223 192,
    count3 := bitsOf w 255 224, stride1 := (BitVec.ofNat 64 (bitsOf w 319 256)).toInt,
    stride2 := (BitVec.ofNat 64 (bitsOf w 383 320)).toInt, stride3 := (BitVec.ofNat 64 (bitsOf w 447 384)).toInt,
    spmOff := bitsOf w 459 448, group := bitsOf w 473 464, rtWord := bitsOf w 491 480,
    dest := BitVec.ofNat 12 (bitsOf w 507 496) }

/-- The engine of a descriptor (R237). -/
def Desc.eng (x : Desc) : Engine := if x.drain then .drain else if x.engine1 then .fetch1 else .fetch0

/-- An engine of a core. -/
def CoreSt.engine (cs : CoreSt) : Engine → EngineSt
  | .fetch0 => cs.fetch0
  | .fetch1 => cs.fetch1
  | .drain => cs.drain

/-- Change an engine of a core. -/
def onEngine (e : Engine) (g : EngineSt → EngineSt) (cs : CoreSt) : CoreSt :=
  match e with
  | .fetch0 => { cs with fetch0 := g cs.fetch0 }
  | .fetch1 => { cs with fetch1 := g cs.fetch1 }
  | .drain => { cs with drain := g cs.drain }

/-! ### Programs -/

/-- The schedule of a binding. -/
def Dev.schedOf (d : Dev) (b : Binding) : Option Schedule := d.schedLib[b.sched]?

end Sys2Proof.Machine

namespace Sys2Proof

open Sys2Proof.Machine

/-- The program index of a core in a schedule: 0xFFFF takes no part (R272). -/
def Schedule.progIdx (s : Schedule) (c : Nat) : Nat := mapGet (fun _ => 65535) s.coreMap c

/-- The program of a core in a schedule. -/
def Schedule.prog (s : Schedule) (c : Nat) : Option Program := s.programs[s.progIdx c]?

end Sys2Proof

namespace Sys2Proof.Machine
/-- The program of a core's live bank. -/
def Dev.liveProg (d : Dev) (c : Nat) : Option Program :=
  match (d.core c).live with
  | some b => (d.schedOf b).bind fun s => s.prog c
  | none => none

/-- The descriptor of a stream of a core's live program (R239). -/
def Dev.desc (d : Dev) (c stream : Nat) : Option Desc :=
  (d.liveProg c).bind fun p => p.streams[stream]? |>.map descOf

/-! ### Regions of a scratchpad (R196–R199) -/

/-- The copy of SPM_REGION of core `c` and region `n`. -/
def regionIx (c n : Nat) : Nat := c * 32 + n

def Dev.regionEn (d : Dev) (c n : Nat) : Bool := d.bit F.SPM_REGION_EN (regionIx c n)
def Dev.regBase (d : Dev) (c n : Nat) : Nat := d.fld F.SPM_REGION_BASE (regionIx c n)
def Dev.regSize (d : Dev) (c n : Nat) : Nat := d.fld F.SPM_REGION_SIZE (regionIx c n)
def Dev.regProd (d : Dev) (c n : Nat) : Nat := d.fld F.SPM_REGION_PROD (regionIx c n)
def Dev.regCons (d : Dev) (c n : Nat) : Nat := d.fld F.SPM_REGION_CONS (regionIx c n)

/-- Words held by a circular region (R197). -/
def Dev.regionOcc (d : Dev) (c n : Nat) : Nat :=
  let i := regionIx c n
  let h := d.fld F.SPM_REGION_HEAD i
  let t := d.fld F.SPM_REGION_TAIL i
  let s := d.regSize c n
  if h = t then (if d.bit F.SPM_REGION_HEAD_WRAP i = d.bit F.SPM_REGION_TAIL_WRAP i then 0 else s)
  else (t + s - h) % max 1 s

/-- Room in a circular region, in words. -/
def Dev.regionRoom (d : Dev) (c n : Nat) : Nat := d.regSize c n - d.regionOcc c n

/-- Advance a pointer of a region by some words, toggling its wrap bit at each pass of the end (R197). -/
def advancePtr (d : Dev) (ptr wrap : Fld) (c n words : Nat) : List Upd :=
  let i := regionIx c n
  let s := max 1 (d.regSize c n)
  let p := d.fld ptr i + words
  [setF ptr i (p % s), setF wrap i ((d.fld wrap i + p / s) % 2)]

/-- Advance the tail: words written by the producer. -/
def advanceTail (d : Dev) (c n words : Nat) : List Upd := advancePtr d F.SPM_REGION_TAIL F.SPM_REGION_TAIL_WRAP c n words
/-- Advance the head: words read by the consumer. -/
def advanceHead (d : Dev) (c n words : Nat) : List Upd := advancePtr d F.SPM_REGION_HEAD F.SPM_REGION_HEAD_WRAP c n words

/-- The word addresses of `n` words of a region from an offset, round its end (R197). -/
def Dev.ringWords (d : Dev) (c r off n : Nat) : List Nat :=
  (List.range n).map fun j => d.regBase c r + (off + j) % max 1 (d.regSize c r)

/-- SIDE of a DOUBLE region: the fill half (R244). -/
def CoreSt.side (cs : CoreSt) (r : Nat) : Bool := mapGet (fun _ => false) cs.sides r

/-- Whether any descriptor of the program uses the region as a DOUBLE buffer; QUEUE regions are those some QUEUE descriptor uses
or that hold leaf tiles from NET; every other region is LINEAR (R243, R249). -/
def Dev.regionKind (d : Dev) (c r : Nat) : BufKind :=
  match d.liveProg c with
  | none => .linear
  | some p =>
    let ds := p.streams.map descOf
    if ds.any fun x => x.region = r && x.buf = .double then .double
    else if (ds.any fun x => x.region = r && x.buf = .queue) || d.regProd c r = 8 then .queue
    else .linear

/-- The base word of the half of a DOUBLE region, or of the region (R244). -/
def Dev.halfBase (d : Dev) (c r : Nat) (half : Option Bool) : Nat :=
  match half with
  | some true => d.regBase c r + d.regSize c r / 2
  | _ => d.regBase c r

/-! ### Parameters -/

/-- Parameter register `i` of a context (R282). -/
def ThreadCtx.param (x : ThreadCtx) (i : Nat) : BitVec 32 := mapGet (fun _ => 0) x.params i

/-- P0 to P15. -/
def ThreadCtx.paramList (x : ThreadCtx) : List (BitVec 32) := (List.range 16).map x.param

/-- The loop index IDX `i`: level 0 is the outermost loop (R296). -/
def ThreadCtx.idxOf (x : ThreadCtx) (i : Nat) : Nat :=
  match x.loops.reverse[i]? with
  | some f => f.idx
  | none => 0

end Sys2Proof.Machine
end

