-- ==== Sys2Proof/Machine/Threads.lean ====
section
/-! DEFINITION. Thread contexts: firing, issue, hazards, completion and waits, as every operation uses them (R278–R285, R296,
R299–R303). -/

namespace Sys2Proof.Machine

/-! ### Time in core cycles -/

/-- Core cycles in a number of ticks at the effective performance point: 2.4, 2.1, 1.8 and 1.2 GHz (R6, R618).
(DEDUCED, log 53) -/
def Dev.cycles (d : Dev) (ticks : Nat) : Nat :=
  match d.fld F.PWR_STATUS_POINT_EFF with
  | 0 => ticks * 24 / 10
  | 1 => ticks * 21 / 10
  | 2 => ticks * 18 / 10
  | _ => ticks * 12 / 10

/-! ### Steps and years -/

/-- Whether a year of a ring context is backward: in the TRAIN modes every second year from FIRST_YEAR (R37). -/
def Dev.yearBwd (d : Dev) (k year : Nat) : Bool :=
  d.fld F.RING_CTL_MODE k ≠ 0 && (year + 4294967296 - d.fld F.RING_YEARS_FIRST_YEAR k) % 2 = 1

/-- The step number of a year of a slice: years from the base year in SERVE mode, pairs of years in a TRAIN mode (R302). -/
def Dev.stepOf (d : Dev) (k i year : Nat) : Nat :=
  let base := (d.slice i).baseYear.getD (d.fld F.RING_YEARS_FIRST_YEAR k)
  let n := (year + 4294967296 - base) % 4294967296
  if d.fld F.RING_CTL_MODE k = 0 then n else n / 2

/-! ### The life of a context -/

/-- Unwind loops whose body has ended: the next iteration, or out of the loop (R296). -/
def unwindLoops : Nat → ThreadCtx → ThreadCtx
  | 0, x => x
  | fuel + 1, x =>
    match x.loops with
    | [] => x
    | f :: rest =>
      if x.nextOp = f.last then
        if f.idx + 1 < f.count then { x with nextOp := f.first, loops := { f with idx := f.idx + 1 } :: rest }
        else unwindLoops fuel { x with loops := rest }
      else x

/-- Take the next pending cue when the current one has completed; a cue with no operation completes at once (R278, R280). -/
def startCues (cues : List (BitVec 128)) : Nat → ThreadCtx → ThreadCtx
  | 0, x => x
  | fuel + 1, x =>
    match x.cur with
    | some _ =>
      if x.nextOp = x.endOp && x.loops.isEmpty && x.out.isEmpty && x.wait.isNone then
        startCues cues fuel { x with cur := none, st := .idle }
      else x
    | none =>
      match x.pending with
      | [] => x
      | f :: rest =>
        match cues[f.cue]? with
        | none => startCues cues fuel { x with pending := rest }
        | some w =>
          startCues cues fuel
            { x with cur := some f, pending := rest, st := .ready, nextOp := cueOpFirst w,
                     endOp := cueOpFirst w + cueOpCount w, loops := [] }

/-- Bring a context up to date after a change: loops unwound, completed cues retired, the next one started. -/
def settle (cues : List (BitVec 128)) (x : ThreadCtx) : ThreadCtx :=
  startCues cues 40 (unwindLoops 5 x)

/-- The cue table of a core's live program. -/
def Dev.cues (d : Dev) (c : Nat) : List (BitVec 128) :=
  match d.liveProg c with
  | some p => p.cues
  | none => []

/-- Change a context of a core. -/
def onCtx (n : Nat) (g : ThreadCtx → ThreadCtx) (cs : CoreSt) : CoreSt :=
  { cs with ctxs := mapSet (fun _ => ThreadCtx.init) n (g (cs.ctx n)) cs.ctxs }

/-- Change a context, then settle it. -/
def ctxUpd (d : Dev) (c n : Nat) (g : ThreadCtx → ThreadCtx) : Upd :=
  .core c (onCtx n fun x => settle (d.cues c) (g x))

/-- An issued operation has completed (R285). -/
def completeOp (c n id : Nat) : Act := fun d =>
  [ctxUpd d c n fun x => { x with out := x.out.filter fun o => o.id ≠ id }]

/-! ### Issue -/

/-- Whether the work of a core's slice may go on: the slice is not fenced and the module is not in the safe state (R281, R462). -/
def Dev.coreRuns (d : Dev) (c : Nat) : Bool :=
  d.mode ≠ stSafe && d.mode ≠ stOff &&
    match d.coreSlice c with
    | some i => !(d.slice i).fenced
    | none => false

/-- The next operation a context can issue (R283): a context that is ready or issuing, not waiting, and not behind its own
COMMIT (R295). -/
def Dev.nextWord (d : Dev) (c n : Nat) : Option (BitVec 128) :=
  let cs := d.core c
  let x := cs.ctx n
  if !d.coreRuns c || x.wait.isSome || x.cur.isNone || x.nextOp = x.endOp ||
      (match cs.commitWait with | some (m, _, _) => m = n | none => false) then none
  else (d.liveProg c).bind fun p => p.ops[x.nextOp]?

/-- Two uses of scratchpad conflict when they meet in a region or half and one of them writes (R284). -/
def usesConflict (a b : RegUse) : Bool :=
  a.region = b.region && (a.half.isNone || b.half.isNone || a.half = b.half) && (a.write || b.write)

/-- Whether an operation with these uses must wait for an earlier one of its context (R284). -/
def hazard (x : ThreadCtx) (uses : List RegUse) : Bool :=
  x.out.any fun o => o.uses.any fun a => uses.any fun b => usesConflict a b

/-- The use of a region by an operand: none for a QUEUE, the half for a DOUBLE (R244, R284). -/
def Dev.useOf (d : Dev) (c r : Nat) (write : Bool) : List RegUse :=
  match d.regionKind c r with
  | .queue => []
  | .linear => [⟨r, none, write⟩]
  | .double =>
    let side := (d.core c).side r
    [⟨r, some (if write then side else !side), write⟩]

/-- Move a context past the operation it issues, and count it in SEQ_ISSUE (R311). -/
def stepPast (d : Dev) (c n : Nat) (g : ThreadCtx → ThreadCtx) : List Upd :=
  [addF F.SEQ_ISSUE_OPS c 1, ctxUpd d c n fun x => g { x with nextOp := x.nextOp + 1, st := .issuing }]

/-- Issue an operation of a kind: nothing happens unless the context's next operation is of that kind (R283). -/
def issue (kind : OpKind) (c n : Nat) (f : BitVec 128 → ThreadCtx → Firing → Act) : Act := fun d =>
  match d.nextWord c n, ((d.core c).ctx n).cur with
  | some w, some fi => if opKind w = some kind then f w ((d.core c).ctx n) fi d else []
  | _, _ => []

/-! ### Waits -/

/-- Put a context to sleep on an unmet wait (R299, R324). -/
def sleepOn (d : Dev) (c n : Nat) (obj : WaitObj) (due : Bool) : List Upd :=
  stepPast d c n (fun x => { x with st := .sleeping, wait := some ⟨obj, (d.core c).opCount, due, d.now, false⟩ }) ++
    [.core c fun cs => { cs with opCount := cs.opCount + 1 }]

/-- A wait is met: its slip, if any, is recorded, and the context goes on (R300, R324). -/
def wakeCtx (c n : Nat) : Act := fun d =>
  let x := (d.core c).ctx n
  recordSlip c n x d ++ [ctxUpd d c n fun x => { x with st := .issuing, wait := none }]

/-! ### Cues -/

/-- The firing index at which a cue fires on a day, if it does (R278): day DAY + i·PERIOD for i below REPEAT. -/
def firingIndex (w : BitVec 128) (day : Nat) : Option Nat :=
  if day < cueDay w then none
  else if cuePeriod w = 0 then (if day = cueDay w && 1 ≤ cueRepeat w then some 0 else none)
  else
    let o := day - cueDay w
    if o % cuePeriod w = 0 && o / cuePeriod w < cueRepeat w then some (o / cuePeriod w) else none

/-- The cues of a program that are due on a day of a year, in table order; a firing whose context set is not resident in the step
is skipped (R278, R279, R302). -/
def dueCues (p : Program) (trig : Trig) (year day step : Nat) (bwd : Bool) : List Firing :=
  (List.range p.cues.length).zip p.cues |>.filterMap fun e =>
    let w := e.2
    if cueTrig w = trigCode trig && (if bwd then cueBwd w else cueFwd w) && cueCtx w / 64 = step % max 1 p.nsets then
      (firingIndex w day).map fun i => ⟨e.1, trig, year, day, bwd, i, step⟩
    else none

/-- Make the cues of a day due on every core of a ring context's binding. -/
def offerDay (k : Nat) (trig : Trig) (year day step : Nat) (bwd : Bool) : Act := fun d =>
  (d.cores.filter fun e => match e.2.live with | some b => b.ring = k | none => false).flatMap fun e =>
    match d.liveProg e.1 with
    | none => []
    | some p =>
      let fs := dueCues p trig year day step bwd
      if fs.isEmpty then [] else [Upd.core e.1 fun cs => { cs with due := cs.due ++ fs }]

/-- Whether some core still withholds leaf credit in a direction: a cue of the last leaf has not fired (R280).
(DEDUCED, log 74) -/
def Dev.creditHeld (d : Dev) (k : Nat) (trig : Trig) : Bool :=
  d.cores.any fun e => (match e.2.live with | some b => b.ring = k | none => false) && e.2.due.any fun f => f.trig = trig

end Sys2Proof.Machine
end

