-- ==== Sys2Proof/Machine/RingPlan.lean ====
section
/-! DEFINITION. The plan of a ring context: runs and owners, years and their days, successors, the layout of a share, leaf records, and
the checks at load (R30–R39, R50, R55–R58, R162). -/

namespace Sys2Proof.Machine

/-- What the registers of a ring context plan. -/
structure RPlan where
  len : Nat
  pos : Nat
  mode : Nat
  cwFirst : Nat
  ccwFirst : Nat
  daysCw : Nat
  daysCcw : Nat
  first : Nat
  count : Nat
  deriving DecidableEq, Repr

/-- The plan of ring context `k`. -/
def Dev.plan (d : Dev) (k : Nat) : RPlan :=
  { len := d.fld F.RING_CTL_LEN k, pos := d.fld F.RING_CTL_POS k, mode := d.fld F.RING_CTL_MODE k,
    cwFirst := d.fld F.RING_PLAN_CW_FIRST k, ccwFirst := d.fld F.RING_PLAN_CCW_FIRST k,
    daysCw := d.fld F.RING_DAYS_DAYS_CW k, daysCcw := d.fld F.RING_DAYS_DAYS_CCW k,
    first := d.fld F.RING_YEARS_FIRST_YEAR k, count := d.fld F.RING_YEARS_COUNT k }

/-- Year numbers are 32 bits wide (R40). -/
def yearMod : Nat := 4294967296

/-- Years from `a` to `b`. -/
def yearsFrom (a b : Nat) : Nat := (b + yearMod - a % yearMod) % yearMod

/-- Whether a year is backward (R37). -/
def RPlan.bwd (p : RPlan) (year : Nat) : Bool := p.mode ≠ 0 && yearsFrom p.first year % 2 = 1

/-- The forward direction whose leaves a direction carries in a year: the other one in a backward year (R36). -/
def forwardDir (dir : Dir) (bwd : Bool) : Dir :=
  match dir, bwd with
  | d, false => d
  | .cw, true => .ccw
  | .ccw, true => .cw

/-- Days of a forward year in a direction. -/
def RPlan.fwdDays (p : RPlan) (dir : Dir) : Nat :=
  match dir with
  | .cw => p.daysCw
  | .ccw => p.daysCcw

/-- Days of a year in a direction (R36). -/
def RPlan.days (p : RPlan) (dir : Dir) (year : Nat) : Nat := p.fwdDays (forwardDir dir (p.bwd year))

/-- Days of run `i` of `d` days on a ring of `n` (R30). -/
def runLen (d n i : Nat) : Nat := d / max 1 n + if i < d % max 1 n then 1 else 0
/-- First day of run `i` (R30). -/
def runStart (d n i : Nat) : Nat := i * (d / max 1 n) + min i (d % max 1 n)
/-- The run that holds a day (R30). -/
def runOf (d n day : Nat) : Nat :=
  let q := d / max 1 n
  let r := d % max 1 n
  if day < r * (q + 1) then day / (q + 1) else r + (day - r * (q + 1)) / max 1 q

/-- The position that owns run `i` of a forward direction (R31). -/
def RPlan.runOwner (p : RPlan) (dir : Dir) (i : Nat) : Nat :=
  let n := max 1 p.len
  match dir with
  | .cw => (p.cwFirst + i) % n
  | .ccw => (p.ccwFirst + n - i % n) % n

/-- The run of a forward direction that a position owns (R31). -/
def RPlan.ownRun (p : RPlan) (dir : Dir) (pos : Nat) : Nat :=
  let n := max 1 p.len
  match dir with
  | .cw => (pos + n - p.cwFirst % n) % n
  | .ccw => (p.ccwFirst + n - pos % n) % n

/-- The forward day that a day of a year carries (R36). -/
def RPlan.forwardDay (p : RPlan) (dir : Dir) (year day : Nat) : Nat :=
  if p.bwd year then p.days dir year - 1 - day else day

/-- The owner of a day (R30, R31, R36). -/
def RPlan.owner (p : RPlan) (dir : Dir) (year day : Nat) : Nat :=
  let f := forwardDir dir (p.bwd year)
  p.runOwner f (runOf (p.fwdDays f) p.len (p.forwardDay dir year day))

/-- Days of a position's run in a forward direction. -/
def RPlan.ownDays (p : RPlan) (dir : Dir) (pos : Nat) : Nat := runLen (p.fwdDays dir) p.len (p.ownRun dir pos)

/-- Leaves of a position's share: its CW run, then its CCW run (R55). -/
def RPlan.shareLeaves (p : RPlan) (pos : Nat) : Nat := p.ownDays .cw pos + p.ownDays .ccw pos

/-- Units of 16 KiB of a share's layout: the bodies, then the leaf record table (R55). -/
def RPlan.shareUnits (p : RPlan) (pos : Nat) : Nat :=
  p.shareLeaves pos + (16 * p.shareLeaves pos + 16383) / 16384

/-- The index of a day's leaf in the share of its owner (R36, R55). -/
def RPlan.leafIndex (p : RPlan) (dir : Dir) (year day : Nat) : Nat :=
  let f := forwardDir dir (p.bwd year)
  let fd := p.forwardDay dir year day
  let own := p.owner dir year day
  let inRun := fd - runStart (p.fwdDays f) p.len (p.ownRun f own)
  match f with
  | .cw => inRun
  | .ccw => p.ownDays .cw own + inRun

/-- The position before this one on the ring, its X− neighbour there (R34). -/
def RPlan.prevPos (p : RPlan) : Nat := (p.pos + max 1 p.len - 1) % max 1 p.len
/-- The position after this one on the ring, its X+ neighbour there (R34). -/
def RPlan.nextPos (p : RPlan) : Nat := (p.pos + 1) % max 1 p.len

/-- Whether a direction has days in the context at all (R58). -/
def RPlan.hasDays (p : RPlan) (dir : Dir) : Bool :=
  if p.mode = 0 then p.fwdDays dir ≠ 0 else p.daysCw ≠ 0 || p.daysCcw ≠ 0

/-- Skip years without days in the direction; of two successive years at most one is skipped. -/
def RPlan.firstDay (p : RPlan) (dir : Dir) (year : Nat) : Nat × Nat :=
  let y := year % yearMod
  if p.days dir y ≠ 0 then (y, 0) else ((y + 1) % yearMod, 0)

/-- The successor of a day (R39). -/
def RPlan.succ (p : RPlan) (dir : Dir) (year day : Nat) : Nat × Nat :=
  if day + 1 < p.days dir year then (year, day + 1) else p.firstDay dir (year + 1)

/-- Whether a year lies past the last one of the context (R42). -/
def RPlan.pastEnd (p : RPlan) (year : Nat) : Bool := p.count ≠ 4294967295 && p.count ≤ yearsFrom p.first year

/-! ### Angles -/

/-- A direction of a ring context. -/
def RingSt.dir (r : RingSt) (dir : Dir) : RingDir :=
  match dir with
  | .cw => r.cw
  | .ccw => r.ccw

/-- Change a direction. -/
def onDir (dir : Dir) (g : RingDir → RingDir) (r : RingSt) : RingSt :=
  match dir with
  | .cw => { r with cw := g r.cw }
  | .ccw => { r with ccw := g r.ccw }

def angleYear (dir : Dir) : Fld := match dir with | .cw => F.RING_ANGLE_CW_YEAR | .ccw => F.RING_ANGLE_CCW_YEAR
def angleDay (dir : Dir) : Fld := match dir with | .cw => F.RING_ANGLE_CW_DAY | .ccw => F.RING_ANGLE_CCW_DAY
def angleValid (dir : Dir) : Fld := match dir with | .cw => F.RING_STATUS_VALID_CW | .ccw => F.RING_STATUS_VALID_CCW

/-- The ring angle of a direction, none before the first leaf (R38, R66). -/
def Dev.angle (d : Dev) (k : Nat) (dir : Dir) : Option (Nat × Nat) :=
  if d.bit (angleValid dir) k then some (d.fld (angleYear dir) k, d.fld (angleDay dir) k) else none

/-- The next day of a direction (R39, R41). -/
def Dev.nextDay (d : Dev) (k : Nat) (dir : Dir) : Nat × Nat :=
  let p := d.plan k
  match d.angle k dir with
  | some (y, dd) => p.succ dir y dd
  | none => p.firstDay dir p.first

/-! ### Leaf records (R56) -/

/-- The 16 bytes of a leaf record. -/
structure LeafRec where
  layer : Nat
  table : Nat
  tile : Nat
  elems : Nat
  tail : Nat
  container : Nat
  flags : Nat
  deriving DecidableEq, Repr

/-- Read a leaf record (R56). -/
def leafRec (bs : List Byte) : LeafRec :=
  { layer := leNat (bs.take 2), table := leNat ((bs.drop 2).take 2), tile := leNat ((bs.drop 4).take 4),
    elems := leNat ((bs.drop 8).take 4), tail := leNat ((bs.drop 12).take 2), container := leNat ((bs.drop 14).take 1),
    flags := leNat ((bs.drop 15).take 1) }

/-- The address of body `i` of a share that starts at `base`. -/
def bodyAddr (base i : Nat) : Nat := base + 16384 * i
/-- The address of record `i` of a share of `n` leaves. -/
def recAddr (base n i : Nat) : Nat := base + 16384 * n + 16 * i

/-! ### Checks at load (R58) -/

/-- A check that failed, with the status of its failure: CFG_ZERO or CFG_PLAN. -/
def cfgZero : Nat := 0x11
def cfgPlan : Nat := 0x12
def chk (failed : Bool) (status : Nat) : List Nat := if failed then [status] else []

/-- Whether RING_SHADOW of a context is used (R50, R58). -/
def RPlan.usesShadow (p : RPlan) : Bool := p.len ≠ 1 || p.mode = 2

/-- The units of a shadow's layout: of the X− neighbour's share, or of the own share on a ring of one; two copies in TRAIN_FULL
(R35, R57). -/
def RPlan.shadowUnits (p : RPlan) : Nat := p.shareUnits p.prevPos * if p.mode = 2 then 2 else 1

/-- A region of `(base, size)` in units of 16 KiB that lies partly beyond 512 GiB. -/
def beyondHbm (base size : Nat) : Bool := 33554432 < base + size

/-- The load checks of a ring context (R58, R60). -/
def Dev.loadChecks (d : Dev) (k : Nat) : List Nat :=
  let p := d.plan k
  let sb := d.fld F.RING_SHARE_BASE k
  let ss := d.fld F.RING_SHARE_SIZE k
  let hb := d.fld F.RING_SHADOW_BASE k
  let hs := d.fld F.RING_SHADOW_SIZE k
  let shadow := p.usesShadow
  chk (ss = 0 || (shadow && hs = 0) || p.len = 0 || p.daysCw + p.daysCcw = 0) cfgZero ++
  chk (ss < p.shareUnits p.pos || (shadow && hs < p.shadowUnits)) cfgPlan ++
  chk (beyondHbm sb ss || (shadow && beyondHbm hb hs)) cfgPlan ++
  chk (25165824 < ss + if shadow then hs else 0) cfgPlan ++
  chk (p.len ≤ p.pos || p.len ≤ p.cwFirst || p.len ≤ p.ccwFirst) cfgPlan ++
  chk (p.mode ≠ 0 && p.count % 2 = 1 && p.count ≠ 4294967295) cfgPlan

/-- The leaf records of a share name loaded codec tables of their own container (R162). -/
def Dev.recordChecks (d : Dev) (k : Nat) : List Nat :=
  let p := d.plan k
  let n := p.shareLeaves p.pos
  let base := d.fld F.RING_SHARE_BASE k * 16384
  let table := memSlice d.hbm (recAddr base n 0) (16 * n)
  chk ((List.range n).any fun i =>
    let r := leafRec (memRead table (recAddr base n i) 16)
    isSteep r.container && !((d.codecTable r.table).any fun t => tabContainer t = r.container)) cfgPlan

end Sys2Proof.Machine
end

