-- ==== Sys2Proof/Machine/Random.lean ====
section
/-! DEFINITION. Random draws (R500–R502): the Philox-4x32-10 block function, its counter, and the draw blocks of core
conversions. -/

namespace Sys2Proof.Machine

/-- The counter or the output of one Philox block. -/
structure Quad where
  x0 : BitVec 32
  x1 : BitVec 32
  x2 : BitVec 32
  x3 : BitVec 32
  deriving DecidableEq, Repr

/-- High and low halves of a 32 by 32 product. -/
def mulHi (a b : BitVec 32) : BitVec 32 := BitVec.ofNat 32 (a.toNat * b.toNat / 4294967296)
def mulLo (a b : BitVec 32) : BitVec 32 := a * b

/-- One round (R500). -/
def philoxRound (k0 k1 : BitVec 32) (q : Quad) : Quad :=
  { x0 := mulHi 0xcd9e8d57 q.x2 ^^^ q.x1 ^^^ k0, x1 := mulLo 0xcd9e8d57 q.x2,
    x2 := mulHi 0xd2511f53 q.x0 ^^^ q.x3 ^^^ k1, x3 := mulLo 0xd2511f53 q.x0 }

/-- Rounds with the key schedule (R500). -/
def philoxRounds : Nat → BitVec 32 → BitVec 32 → Quad → Quad
  | 0, _, _, q => q
  | n + 1, k0, k1, q => philoxRounds n (k0 + 0x9e3779b9) (k1 + 0xbb67ae85) (philoxRound k0 k1 q)

/-- The block of a seed and a counter (R500). -/
def philox (seed : BitVec 64) (q : Quad) : Quad :=
  philoxRounds 10 (seed.truncate 32) ((seed >>> 32).truncate 32) q

/-- Draw `j` of a block, 0 to 7 (R500). -/
def drawOf (q : Quad) (j : Nat) : Nat :=
  let y := match j / 2 with
    | 0 => q.x0
    | 1 => q.x1
    | 2 => q.x2
    | _ => q.x3
  (y.toNat >>> (16 * (j % 2))) % 65536

/-- The trigger field of the domain 0 counter (R501). -/
def trigField : Trig → Nat
  | .cw => 0 | .ccw => 1 | .gradCw => 2 | .gradCcw => 3

/-- The counter of core conversions, domain 0 (R501). -/
def coreCounter (f : Firing) (logical core block : Nat) : Quad :=
  { x0 := BitVec.ofNat 32 f.day, x1 := BitVec.ofNat 32 f.year,
    x2 := BitVec.ofNat 32 (trigField f.trig * 2 ^ 30 + logical % 256 * 2 ^ 22 + core % 32768),
    x3 := BitVec.ofNat 32 block }

/-- The counter of sampling (domain 1) and of training data (domain 2): item handle, index, block (R501). -/
def itemCounter (domain handle index block : Nat) : Quad :=
  { x0 := BitVec.ofNat 32 handle, x1 := BitVec.ofNat 32 index, x2 := BitVec.ofNat 32 (domain * 2 ^ 15),
    x3 := BitVec.ofNat 32 block }

/-- The key of a context's draw counter: context and trigger. -/
def drawKey (n : Nat) (t : Trig) : Nat := n * 4 + trigField t

/-- The next draw block of a context for a firing: numbered from 0 for each year, trigger and day (R502). -/
def CoreSt.nextDraw (cs : CoreSt) (n : Nat) (f : Firing) : Nat :=
  let (y, dd, b) := mapGet (fun _ => ((0, 0, 0) : Nat × Nat × Nat)) cs.draws (drawKey n f.trig)
  if y = f.year && dd = f.day then b else 0

/-- Take the draw blocks of `e` converted elements (R502). -/
def takeDraws (c n : Nat) (f : Firing) (e : Nat) : List Upd :=
  if e = 0 then [] else
    [.core c fun cs => { cs with
      draws := mapSet (fun _ => (0, 0, 0)) (drawKey n f.trig) (f.year, f.day, cs.nextDraw n f + (e + 7) / 8) cs.draws }]

/-- The seed captured by the ring context of a core's live binding (R503). -/
def Dev.coreSeed (d : Dev) (c : Nat) : BitVec 64 :=
  match (d.core c).live with
  | some b => (d.ring b.ring).seed
  | none => 0

/-- The logical context of a firing's cue (R277). -/
def Dev.logicalCtx (d : Dev) (c : Nat) (f : Firing) : Nat :=
  match (d.cues c)[f.cue]? with
  | some w => cueCtx w
  | none => 0

/-- Draw `i` of an operation whose first block is `b0`, when its ARITH is stochastic (R502). -/
def Dev.coreDraw (d : Dev) (c : Nat) (f : Firing) (b0 : Nat) (stoch : Bool) (i : Nat) : Option Nat :=
  if stoch then
    some (drawOf (philox (d.coreSeed c) (coreCounter f (d.logicalCtx c f) c (b0 + i / 8))) (i % 8))
  else none

end Sys2Proof.Machine
end

