-- ==== Sys2Proof/Machine/Jobs.lean ====
section
/-! DEFINITION. The data of training jobs (R538, R539, R541): shuffle, distribution, pulls by RDMA READ, packing, and failed pulls. -/

namespace Sys2Proof.Machine

/-- The seed captured by the armed or live ring context of a slice (R503). -/
def Dev.sliceSeed (d : Dev) (pkey : BitVec 12) : BitVec 64 :=
  match d.boundRings pkey with
  | k :: _ => (d.ring k).seed
  | [] => 0

/-- u of two draws of a block as its numerator over 2^32 (R532). -/
def drawU (q : Quad) (pair : Nat) : Nat := 65536 * drawOf q (2 * pair + 1) + drawOf q (2 * pair)

/-- Exchange two elements. -/
def swapAt (xs : List Nat) (i j : Nat) : List Nat :=
  let a := xs[i]?.getD 0
  let b := xs[j]?.getD 0
  (xs.set i b).set j a

/-- The Fisher–Yates steps from element `i` down to 1; `n` counts the pairs drawn (R539). -/
def shuffleFrom (seed : BitVec 64) (job epoch : Nat) : Nat → Nat → List Nat → List Nat
  | 0, _, xs => xs
  | i + 1, n, xs =>
    let u := drawU (philox seed (itemCounter 2 job epoch (n / 4))) (n % 4)
    shuffleFrom seed job epoch i (n + 1) (swapAt xs (i + 1) (u * (i + 2) / 4294967296))

/-- The order of `n` examples in a data epoch (R539). -/
def shuffle (seed : BitVec 64) (job epoch n : Nat) : List Nat :=
  shuffleFrom seed job epoch (n - 1) 0 (List.range n)

/-- Examples of a job in all. -/
def JobSt.total (j : JobSt) : Nat := (j.shards.map fun s => s.examples).sum

/-- The shard and the index there of an example numbered in shard order. -/
def locate : List Shard → Nat → Nat → Option (Nat × Nat)
  | [], _, _ => none
  | s :: ss, i, g => if g < s.examples then some (i, g) else locate ss (i + 1) (g - s.examples)

/-- This module's place among the members of a slice, and how many there are (R539). -/
def Dev.memberIndex (d : Dev) (pkey : BitVec 12) : Nat × Nat :=
  match (d.sliceOf pkey).bind fun i => (d.slice i).desc with
  | some s =>
    let ms := d.members s
    ((ms.findIdx? fun c => c = d.here).getD 0, max 1 ms.length)
  | none => (0, 1)

/-- The next example of a job at this member: the epoch it is of, its place there, and the shard and index; none when the member owns no
example of the job. -/
def Dev.nextExample (d : Dev) (j : JobSt) : Option (Nat × Nat × Nat × Nat) :=
  let (m, n) := d.memberIndex j.pkey
  let pos := m + n * j.next
  let (epoch, next) := if pos < j.total then (j.epoch, j.next) else (j.epoch + 1, 0)
  let order := shuffle (d.sliceSeed j.pkey) j.handle epoch j.total
  match order[m + n * next]? with
  | some g => (locate j.shards 0 g).map fun e => (epoch, next, e.1, e.2)
  | none => none

/-- The bytes of an example within its shard: from its offset to the next one's, or to the end of the shard. -/
def exampleExtent (s : Shard) (offsets : List Nat) (i : Nat) : Nat × Nat :=
  let a := offsets[i]?.getD 0
  let b := if i + 1 < s.examples then offsets[i + 1]?.getD 0 else s.bytes
  (a, min b s.bytes - a)

/-- Change a job. -/
def onJob (handle : Nat) (g : JobSt → JobSt) : Upd :=
  .svc fun s => { s with jobs := s.jobs.map fun j => if j.handle = handle then g j else j }

/-- A job ends with a status, the first one (R541). -/
def endJob (handle status : Nat) : Upd := onJob handle fun j => { j with ended := j.ended.or (some status) }

/-- An empty job step in packing. -/
def JobData.empty : JobData := ⟨[], 0, 0, 0⟩

/-- Whether data is still to be pulled: up to two job steps ahead (R539). -/
def JobSt.wantsData (j : JobSt) : Bool :=
  j.ended.isNone && !j.pulling && j.ready.length < 2 && j.done + j.ready.length < j.steps

/-- Pull what a job needs next: the offsets of each shard, then its examples in order (R539). A queue pair that is not READY fails the
job. -/
def pullNext (handle : Nat) : Act := fun d =>
  match d.svc.jobs.find? fun j => j.handle = handle with
  | none => []
  | some j =>
    if !j.wantsData then [] else
      let read := fun (s : Shard) (addr len : Nat) (p : Pull) =>
        if (d.qp s.qp).st = .ready then
          inSequence [fun _ => [onJob handle fun j => { j with pulling := true }],
            rocePost s.qp (fun psn => .readReq psn addr s.rkey len) (some p) none] d
        else [endJob handle 0x20] ++ flagSvc F.SVC_ERR_PULL
      if j.offsets.length < j.shards.length then
        match j.shards[j.offsets.length]? with
        | some s => read s s.addr (8 * s.examples) (.offsets handle j.offsets.length)
        | none => []
      else
        match d.nextExample j with
        | none => [onJob handle fun j => { j with ready := j.ready ++ [.empty] }]
        | some (epoch, next, sh, i) =>
          match j.shards[sh]? with
          | none => []
          | some s =>
            let (off, len) := exampleExtent s (j.offsets[sh]?.getD []) i
            [onJob handle fun j => { j with epoch := epoch, next := next + 1 }] ++
              read s (s.addr + off) len (.example_ handle)

/-- Add an example to the data of a job step; none when it begins the next job step (R539). -/
def pack (j : JobSt) (toks : List Nat) (cut : Bool) : Option JobData :=
  let p := j.packing
  let p := if p.seqs.isEmpty then { p with epoch := j.epoch } else p
  let more := fun (seqs : List (List Nat)) =>
    some { p with seqs := seqs, examples := p.examples + 1, truncated := p.truncated + if cut then 1 else 0 }
  match p.seqs.reverse with
  | [] => more [toks]
  | last :: before =>
    if last.length + toks.length ≤ j.seqLen then more (before.reverse ++ [last ++ toks])
    else if p.seqs.length < j.seqCount then more (p.seqs ++ [toks])
    else none

/-- Place an example that has arrived: LEN, LOSS_FROM, then token IDs; longer ones are cut, empty ones skipped (R539). -/
def placeExample (bs : List Byte) (j : JobSt) : JobSt :=
  let n := min (leNat (bs.take 4)) ((bs.length - 8) / 4)
  if n = 0 then j else
    let cut : Bool := j.seqLen < n
    let toks := (List.range (min n j.seqLen)).map fun i => leNat ((bs.drop (8 + 4 * i)).take 4)
    match pack j toks cut with
    | some p => { j with packing := p }
    | none => { j with ready := j.ready ++ [j.packing],
                       packing := ⟨[toks], 1, if cut then 1 else 0, j.epoch⟩ }

/-- The offsets that a shard begins with (R539). -/
def offsetsOf (bs : List Byte) (n : Nat) : List Nat := (List.range n).map fun i => leNat ((bs.drop (8 * i)).take 8)

/-- A pull has completed. -/
def pullDone (p : Pull) (bs : List Byte) : Act :=
  let handle := match p with
    | .offsets h _ => h
    | .example_ h => h
  inSequence [
    fun _ => [onJob handle fun j =>
      let j := { j with pulling := false }
      match p with
      | .offsets _ sh => { j with offsets := j.offsets ++ [offsetsOf bs ((j.shards[sh]?.map fun s => s.examples).getD 0)] }
      | .example_ _ => placeExample bs j],
    pullNext handle ]

/-- Whether the data of the next job steps of every running job of a slice is in place: `ahead` steps are open before it (R539). -/
def Dev.dataReady (d : Dev) (pkey : BitVec 12) (ahead : Nat) : Bool :=
  d.svc.jobs.all fun j => j.pkey ≠ pkey || j.ended.isSome || j.steps ≤ j.done + ahead || ahead < j.ready.length

end Sys2Proof.Machine
end

