-- ==== Sys2Proof/Machine/Sync.lean ====
section
/-! DEFINITION. Synchronisation: sync words and their tables, signals, barriers, waits and wakes, count faults, and the wait and
grant watchdogs (R314–R330, R349–R351). -/

namespace Sys2Proof.Machine

/-! ### Sync tables (R315) -/

def syncType (e : BitVec 128) : Nat := bitsOf e 7 0
def syncPlace (e : BitVec 128) : Nat := bitsOf e 15 8
def syncCore (e : BitVec 128) : Nat := bitsOf e 31 16
def syncAddr (e : BitVec 128) : Nat := bitsOf e 67 32
def syncWd (e : BitVec 128) : Nat := bitsOf e 95 80
def syncLimit (e : BitVec 128) : Nat := bitsOf e 127 96
def syncParties (e : BitVec 128) : Nat := bitsOf e 111 96
def syncRelease (e : BitVec 128) : Nat := bitsOf e 121 112

/-- The sync table of a partition key. -/
def Dev.syncTable (d : Dev) (pkey : BitVec 12) : Option SyncTable := d.syncLib.find? fun t => t.pkey = pkey

/-- The entry of a SYNC_ID; an unlisted entry is unmapped. -/
def Dev.syncEntry (d : Dev) (pkey : BitVec 12) (id : Nat) : BitVec 128 :=
  match d.syncTable pkey with
  | some t => mapGet (fun _ => 0) t.entries id
  | none => 0

/-- Where a sync word lies: a core's scratchpad, or HBM (byte addresses). -/
inductive SyncLoc where
  | spm (core addr : Nat)
  | hbm (addr : Nat)
  deriving DecidableEq, Repr

/-- The word an entry names (R315). -/
def syncLoc (e : BitVec 128) : SyncLoc :=
  if syncPlace e = 0 then .spm (syncCore e) (syncAddr e * 8) else .hbm (syncAddr e * 8)

/-- The value of a sync word. -/
def Dev.syncWord (d : Dev) (l : SyncLoc) : Nat :=
  match l with
  | .spm c a => leNat (d.readSpm c a 8)
  | .hbm a => leNat (memRead d.hbm a 8)

/-- SENSE and ARRIVED of a barrier word, and a barrier word from them (R314). -/
def senseOf (w : Nat) : Bool := w / 65536 % 2 = 1
def arrivedOf (w : Nat) : Nat := w % 65536
def barrierWord (sense : Bool) (arrived : Nat) : Nat := (if sense then 65536 else 0) + arrived

/-- The oldest uncommitted step of a slice: the step after the last committed one (R446). -/
def SliceSt.nextStep (s : SliceSt) : Nat :=
  match s.committed with
  | some c => c + 1
  | none => 0

/-- Write a sync word; one in HBM is committed state of its step (R314, R446). -/
def writeSync (i t : Nat) (l : SyncLoc) (v : Nat) : Act :=
  match l with
  | .spm c a => fun _ => [.spm c a (leBytes 8 v)]
  | .hbm a => storeStep i t a (leBytes 8 v) false

/-! ### Waits -/

/-- Whether a wait condition holds of a word for a context (R317, R326). -/
def condMet (x : ThreadCtx) (id cond : Nat) (val : BitVec 32) (w : Nat) : Bool :=
  match cond with
  | 0 => w % 4294967296 = val.toNat
  | 1 => val.toNat ≤ w % 4294967296
  | 2 => w % 4294967296 ≤ val.toNat
  | _ =>
    match x.barrier with
    | some b => if b.syncId = id then senseOf w ≠ b.sense else senseOf w ≠ val.getLsbD 0
    | none => senseOf w ≠ val.getLsbD 0

/-- Completion of a COND 3 wait clears the barrier record (R326). -/
def clearRecord (cond : Nat) (x : ThreadCtx) : ThreadCtx := if cond = 3 then { x with barrier := none } else x

/-- The contexts asleep on a SYNC_ID whose condition a word meets. -/
def metWaiters (d : Dev) (pkey : BitVec 12) (id w : Nat) : List (Nat × Nat × Nat) :=
  (d.coresOf pkey).flatMap fun e =>
    e.2.ctxs.filterMap fun x =>
      match x.2.wait with
      | some ⟨.sync j cond val, _, _, _, _⟩ => if j = id && condMet x.2 id cond val w then some (e.1, x.1, cond) else none
      | _ => none

/-- The wake of a met wait: its monitor entry is freed and its context goes on (R324). -/
def wakeWaiter (l : SyncLoc) (e : Nat × Nat × Nat) : Act :=
  inSequence [
    fun _ => match l with
      | .hbm a => [.chan (channelOf a) fun ch => { ch with monitors := ch.monitors.filter fun m => m ≠ (e.1, e.2.1) }]
      | .spm _ _ => [],
    wakeCtx e.1 e.2.1,
    fun d => [ctxUpd d e.1 e.2.1 (clearRecord e.2.2)] ]

/-- Every update of a monitored word re-evaluates the entries on it (R324); a context that polls an HBM word is woken by its
poll instead. -/
def wakeWaiters (pkey : BitVec 12) (id w : Nat) (l : SyncLoc) : Act := fun d =>
  let ws := metWaiters d pkey id w
  let ws := match l with
    | .hbm a => ws.filter fun e => (d.chan (channelOf a)).monitors.contains (e.1, e.2.1)
    | .spm _ _ => ws
  forEach (wakeWaiter l) ws d

/-! ### Count faults (R328) -/

/-- Keep a fault of step `t` for the test of repetition, starting anew for another step. -/
def Repeats.at (r : Repeats) (t : Nat) : Repeats := if r.step = t then r else { Repeats.init with step := t }

/-- A sync fault: recorded and located, and the slice is fenced as for a step fault; if the same SYNC_ID faulted before in the
step being replayed, every item completes with FAILED_FAULT_FINAL and the slice stays fenced (R328).
(DEDUCED, log 19) -/
def syncFault (i : Nat) (bit : Fld) (id src core : Nat) : Act := fun d =>
  let s := d.slice i
  let r := s.repeats.at s.nextStep
  let again := r.syncIds.contains id
  inSequence [
    fun d => flagSync d bit s.pkey.toNat id src core,
    fun _ => [.slice i fun s => { s with repeats := { r with syncIds := if again then r.syncIds else r.syncIds ++ [id] } }],
    faultSlice i 1,
    onlyIf again (inSequence [failAllItems i 0x21, fun _ => [.slice i fun s => { s with failed := true, rstate := 6 }]]) ] d

/-! ### Applying updates (R317, R318, R325) -/

/-- A sync signal packet (R320, R321). -/
def signalPacket (d : Dev) (pkey : BitVec 12) (dest : Coord) (kind : Nat) (sense : Bool) (id : Nat) (value : BitVec 32)
    (core : Nat) : Packet :=
  let e : SyncExt :=
    { extType := 2, kind := BitVec.ofNat 8 (kind + if sense then 8 else 0), pkey := pkey.zeroExtend 16,
      syncId := BitVec.ofNat 16 id, src := d.here.zeroExtend 16, value := value, srcCore := BitVec.ofNat 16 core,
      rsv14 := 0, gcntSent := d.gcnt, rsv32 := 0 }
  withExt (mkOrdered ptSignal d.here dest pkey []) (syncBytes e)

/-- The release signals of a barrier: one to each module of its list, in list order (R325). -/
def sendReleases (pkey : BitVec 12) (id list : Nat) (sense : Bool) : Act := fun d =>
  match d.syncTable pkey with
  | none => []
  | some t =>
    let dests := (t.releases[list]?).getD []
    (dests.map fun c => Upd.inject (signalPacket d pkey c 3 sense id 0 65535)) ++
      [addF F.SYNC_SIG_RELEASES 0 dests.length]

/-- The new value of a word under an update, or the fault bit (R317, R325, R328). Kinds: 0 decrement, 1 set, 2 barrier arrive,
3 release. -/
def updateWord (e : BitVec 128) (w kind : Nat) (value : BitVec 32) (sense : Bool) : Fld ⊕ Nat :=
  let v := w % 4294967296
  match syncType e, kind with
  | 0, _ => .inl F.SYNC_ERR_UNMAPPED
  | 1, 0 => if v < value.toNat then .inl F.SYNC_ERR_UNDERFLOW else .inr (v - value.toNat)
  | 1, 1 => if syncLimit e < value.toNat then .inl F.SYNC_ERR_OVERFLOW else .inr value.toNat
  | 2, 2 =>
    if value ≠ 0 then .inl F.SYNC_ERR_MISMATCH
    else if arrivedOf w + 1 < syncParties e then .inr (barrierWord (senseOf w) (arrivedOf w + 1))
    else .inr (barrierWord (!senseOf w) 0)
  | 3, 3 => .inr (barrierWord sense 0)
  | _, _ => .inl F.SYNC_ERR_MISMATCH

/-- Apply an update of step `t` to a sync word of this module, from a signaller at `src`, `core`. -/
def applySync (i t id kind : Nat) (value : BitVec 32) (sense : Bool) (src core : Nat) : Act := fun d =>
  let pkey := (d.slice i).pkey
  let e := d.syncEntry pkey id
  let l := syncLoc e
  let w := d.syncWord l
  match updateWord e w kind value sense with
  | .inl bit => syncFault i bit id src core d
  | .inr v =>
    inSequence [
      writeSync i t l v,
      fun _ => [addF F.SYNC_SIG_APPLIED 0 1],
      onlyIf (kind = 2 && senseOf v ≠ senseOf w && syncRelease e ≠ 1023) (sendReleases pkey id (syncRelease e) (senseOf v)),
      wakeWaiters pkey id v l ] d

/-! ### SIGNAL and SYNCWAIT (R292, R319–R326) -/

/-- A signal leaves: applied here, or sent to the module at DEST (R319). Its operation completes (R285). -/
def emitSignal (c n opId i t : Nat) (kind id : Nat) (value : BitVec 32) (dest : Option Coord) : Act := fun d =>
  inSequence [
    match dest with
    | none => applySync i t id kind value false d.here.toNat c
    | some to_ => fun d => [.inject (signalPacket d (d.slice i).pkey to_ kind false id value c)],
    completeOp c n opId ] d

/-- A context can issue into the sync queue while it holds fewer than 16 entries: waits unmet and signals not yet done (R283). -/
def syncRoom (cs : CoreSt) : Bool :=
  (cs.ctxs.filter fun x => match x.2.wait with | some ⟨.sync _ _ _, _, _, _, _⟩ => true | _ => false).length +
    cs.afters.length < 16

/-- SIGNAL (R292, R319, R321, R326): a barrier arrive records the SENSE of the context's own word; a signal ordered after a
transfer still under way waits for it in the core, and any other is applied or sent at once. -/
def signalAct (c n : Nat) : Act :=
  issue .signal c n fun w _ fi d =>
    match d.coreSlice c with
    | none => []
    | some i =>
      let cs := d.core c
      if !syncRoom cs then [] else
        let id := opSyncId w
        let kind := signalKind w
        let own := d.syncWord (syncLoc (d.syncEntry (d.slice i).pkey id))
        let st := signalAfter w
        let armNo := mapGet (fun _ => (0 : BitVec 32)) cs.armedCnt st
        let waits := signalAfterV w && armNo ≠ mapGet (fun _ => (0 : BitVec 32)) cs.doneCnt st
        let dest := if signalRemote w then some (signalDest w) else none
        inSequence [
          fun d => stepPast d c n fun x =>
            { x with out := x.out ++ [⟨cs.opCount, []⟩],
                     barrier := if kind = 2 then some ⟨id, senseOf own⟩ else x.barrier },
          fun _ => [.core c fun cs => { cs with opCount := cs.opCount + 1 }],
          if waits then fun _ => [.core c fun cs =>
            { cs with afters := cs.afters ++ [⟨st, armNo, kind, id, opValue w, dest, n, cs.opCount - 1, fi.step⟩] }]
          else emitSignal c n cs.opCount i fi.step kind id (opValue w) dest ] d

/-- SYNCWAIT (R292, R324, R326): met at issue it completes; otherwise the context sleeps, its entry is armed in the monitor of
the word's unit, and the wait is counted. -/
def syncwaitAct (c n : Nat) : Act :=
  issue .syncwait c n fun w x _ d =>
    match d.coreSlice c with
    | none => []
    | some i =>
      if !syncRoom (d.core c) then [] else
        let id := opSyncId w
        let l := syncLoc (d.syncEntry (d.slice i).pkey id)
        if condMet x id (waitCond w) (opValue w) (d.syncWord l) then
          stepPast d c n (clearRecord (waitCond w))
        else
          sleepOn d c n (.sync id (waitCond w) (opValue w)) (waitDue w) ++ [addF F.SYNC_WAIT_SLEEPS 0 1] ++
            match l with
            | .hbm a =>
              if (d.chan (channelOf a)).monitors.length < 64 then
                [.chan (channelOf a) fun ch => { ch with monitors := ch.monitors ++ [(c, n)] }]
              else []
            | .spm _ _ => []

/-- SYNC_POLL (R324): a core whose word's channel monitor was full polls it; the poll counts, and a met wait completes. -/
def syncPollAct (c n : Nat) : Act := fun d =>
  let x := (d.core c).ctx n
  match d.coreSlice c, x.wait with
  | some i, some ⟨.sync id cond val, _, _, _, _⟩ =>
    match syncLoc (d.syncEntry (d.slice i).pkey id) with
    | .spm _ _ => []
    | .hbm a =>
      if (d.chan (channelOf a)).monitors.contains (c, n) then [] else
        [addF F.SYNC_WAIT_POLLS 0 1] ++
          (if condMet x id cond val (d.syncWord (.hbm a)) then wakeWaiter (.hbm a) (c, n, cond) d else [])
  | _, _ => []

/-! ### Signals from other modules (R322, R323, R325) -/

/-- Whether a sync extension holds no reserved value (R320).
(DEDUCED, log 20) -/
def syncExtOk (e : SyncExt) : Bool :=
  e.extType = 2 && bitsOf e.kind 2 0 < 4 && bitsOf e.kind 7 4 = 0 && bitsOf e.pkey 15 12 = 0 && bitsOf e.syncId 15 12 = 0 &&
    bitsOf e.src 15 12 = 0 && e.rsv14 = 0 && e.rsv32 = 0

/-- Deliver a sync signal: dropped at delivery when its key is no member slice's (R323, R430), discarded under a fence (R323),
discarded with a MISMATCH fault when malformed (R320), and otherwise applied (R319, R325). -/
def deliverSignal (e : SyncExt) : Act := fun d =>
  match d.sliceOf (e.pkey.truncate 12) with
  | none => [satF F.ROUTE_DROP_PKEY 0 1] ++ flagRoute F.ROUTE_ERR_PKEY
  | some i =>
    let s := d.slice i
    let src := bitsOf e.src 11 0
    if !d.memberHere s then [satF F.ROUTE_DROP_PKEY 0 1] ++ flagRoute F.ROUTE_ERR_PKEY
    else if s.fenced then flagSync d F.SYNC_ERR_FENCED_DROP 0 0 0 0
    else if !syncExtOk e then syncFault i F.SYNC_ERR_MISMATCH (bitsOf e.syncId 11 0) src e.srcCore.toNat d
    else applySync i s.nextStep (bitsOf e.syncId 11 0) (bitsOf e.kind 2 0) e.value (bitOf e.kind 3) src e.srcCore.toNat d

/-- SYNC_SIGNAL_RECEIVE (R322): any signal but a release. -/
def syncSignalReceiveAct (e : SyncExt) : Act := onlyIf (bitsOf e.kind 2 0 ≠ 3) (deliverSignal e)

/-- BARRIER_RELEASE_RECEIVE (R325): a release. -/
def barrierReleaseReceiveAct (e : SyncExt) : Act := onlyIf (bitsOf e.kind 2 0 = 3) (deliverSignal e)

/-! ### Watchdogs (R329, R330) -/

/-- Whether a watchdog started at a count with a limit in µs has expired (R329).
(DEDUCED, log 18) -/
def Dev.expired (d : Dev) (start limitUs : Nat) : Bool := start + limitUs * 1000 ≤ d.now

/-- WAIT_WATCHDOG_EXPIRE (R330): recorded, and the slice's items time out. -/
def waitWatchdogExpireAct (c n : Nat) : Act := fun d =>
  match d.coreSlice c, ((d.core c).ctx n).wait with
  | some i, some ⟨.sync id _ _, _, _, start, _⟩ =>
    let pkey := (d.slice i).pkey
    let wd := syncWd (d.syncEntry pkey id)
    let lim := if wd = 0 then d.fld F.SYNC_CFG_WAIT_WD else wd
    if d.expired start lim then
      inSequence [
        fun d => flagSync d F.SYNC_ERR_WAIT_WD pkey.toNat id d.here.toNat c,
        timeoutSlice i (d.bit F.SYNC_CFG_WD_SAFE) 5 ] d
    else []
  | _, _ => []

/-- GRANT_WATCHDOG_EXPIRE (R330): a module fault; the requester's transfer is aborted. -/
def grantWatchdogExpireAct (ch : Nat) : Act := fun d =>
  match (d.chan ch).grant with
  | none => []
  | some (_, start) =>
    if d.expired start (d.fld F.SYNC_CFG_GRANT_WD) then
      inSequence [
        fun d => flagSync d F.SYNC_ERR_GRANT_WD 0 0 d.here.toNat 65535,
        fun _ => [.chan ch (fun c => { c with grant := none }), channelIdle ch true],
        moduleFault 4 ] d
    else []

end Sys2Proof.Machine
end

