-- ==== Sys2Proof/Machine/Time.lean ====
section
/-! DEFINITION. Global time and the counter snapshot: SYNC exchanges, lock, parents and masters (R331–R335, R344, R376), and the
latch and publication of the counters (R336, R338–R341, R345–R347). -/

namespace Sys2Proof.Machine

/-! ### SYNC exchanges -/

/-- The STATE byte of a SYNC flit: LOCKED, MASTER, ACTING, HOLDOVER (R376). -/
def Dev.syncState (d : Dev) : BitVec 8 :=
  BitVec.ofNat 8 (d.fld F.GCNT_STATUS_LOCKED + 2 * d.fld F.GCNT_STATUS_MASTER + 4 * d.fld F.GCNT_STATUS_ACTING +
    8 * d.fld F.GCNT_STATUS_HOLDOVER)

/-- Own DEPTH as a SYNC flit gives it: unknown (0xFF) without parent, for a module that is no master (R376). -/
def Dev.syncDepth (d : Dev) : BitVec 8 :=
  if d.bit F.GCNT_STATUS_MASTER || d.bit F.GCNT_STATUS_ACTING || d.fld F.GCNT_STATUS_PARENT ≠ 0 then
    BitVec.ofNat 8 (d.fld F.GCNT_STATUS_DEPTH)
  else 255

/-- Own coordinate with its valid bit (R376). -/
def Dev.coordWord (d : Dev) : BitVec 16 :=
  BitVec.ofNat 16 (d.here.toNat + if d.bit F.DEV_COORD_VALID then 32768 else 0)

/-- A port in UP or HELLO exchanges SYNC flits (R376). -/
def Dev.syncsOn (d : Dev) (p : Nat) : Bool := d.fld F.LINK_STATUS_STATE p = 5 || d.fld F.LINK_STATUS_STATE p = 3

/-- The code of a port in GCNT_STATUS.PARENT (R344). -/
def parentCode (p : Nat) : Nat := p + 1

/-- SYNC_FLIT_SEND (R333, R376): a REQUEST leaves; t1 is stamped. -/
def syncFlitSendAct (p ps : Nat) : Act := fun d =>
  if !d.syncsOn p then [] else
    let n := ((mapGet (fun _ => ((0, 0) : Nat × Nat)) d.servo.sent p).1 + 1) % 4294967296
    [.servo fun s => { s with sent := mapSet (fun _ => (0, 0)) p (n, d.now * 1000 + ps % 1000) s.sent },
     .send (.syncFlit p
      { kind := 1, state := d.syncState, depth := d.syncDepth, exch := BitVec.ofNat 32 n, tGcnt := d.gcnt,
        tPs := BitVec.ofNat 16 (ps % 1000), rxGcnt := 0, rxPs := 0, coord := d.coordWord, rsvZero := true })]

/-- What a SYNC flit tells of the neighbour: its depth and state (R334). -/
def hearSync (p : Nat) (f : SyncFlit) : Upd :=
  .servo fun s => { s with heard := mapSet (fun _ => (255, 0)) p (f.depth.toNat, f.state.toNat) s.heard }

/-- SYNC_REQUEST_RECEIVE (R333, R376): every REQUEST is answered with a REPLY carrying t2 and t3.
(DEDUCED, log 14) -/
def syncRequestReceiveAct (p : Nat) (f : SyncFlit) (rxPs txPs : Nat) : Act := fun d =>
  if !d.syncsOn p || f.kind ≠ 1 then [] else
    [hearSync p f,
     .send (.syncFlit p
      { kind := 2, state := d.syncState, depth := d.syncDepth, exch := f.exch, tGcnt := d.gcnt,
        tPs := BitVec.ofNat 16 (txPs % 1000), rxGcnt := d.gcnt, rxPs := BitVec.ofNat 16 (rxPs % 1000), coord := d.coordWord,
        rsvZero := true })]

/-- The offset from the parent in ps: half of (t2 − t1) − (t4 − t3) (R333). -/
def syncOffset (t1 t2 t3 t4 : Int) : Int := ((t2 - t1) - (t4 - t3)) / 2

/-- Lock after 16 exchanges in a row with an offset below 0.5 ns; the first lock of a module that is not the master sets its
GCNT to the parent's count in one step (R333).
(DEDUCED, log 12) -/
def gcntLock (offset : Int) : Act := fun d =>
  let near := offset.natAbs < 500
  let run := if near then min 16 (d.servo.run + 1) else 0
  if run < 16 then
    [.servo fun s => { s with run := run }] ++ (if near then [] else [setF F.GCNT_STATUS_LOCKED 0 0])
  else
    [.servo fun s => { s with
        run := run, everLocked := true, lockedAt := if d.bit F.GCNT_STATUS_LOCKED then s.lockedAt else d.now }] ++
      (if d.servo.everLocked || d.bit F.GCNT_STATUS_MASTER then []
       else [.gcnt (BitVec.ofInt 64 ((d.now : Int) + (offset + 500) / 1000))]) ++
      [setF F.GCNT_STATUS_LOCKED 0 1, setF F.GCNT_STATUS_HOLDOVER 0 0]

/-- SYNC_REPLY_RECEIVE (R333, R344): the reply of the own exchange on the parent's port gives the offset; the module slews
toward its parent by at most 100 ppm, and may lock. -/
def syncReplyReceiveAct (p : Nat) (f : SyncFlit) (rxPs : Nat) : Act := fun d =>
  let (n, t1) := mapGet (fun _ => ((0, 0) : Nat × Nat)) d.servo.sent p
  if !d.syncsOn p || f.kind ≠ 2 || f.exch.toNat ≠ n then [] else
    if d.fld F.GCNT_STATUS_PARENT ≠ parentCode p then [hearSync p f] else
      let t2 := f.rxGcnt.toNat * 1000 + f.rxPs.toNat
      let t3 := f.tGcnt.toNat * 1000 + f.tPs.toNat
      let t4 := d.now * 1000 + rxPs % 1000
      let off := syncOffset t1 t2 t3 t4
      let rate := max (-100) (min 100 (Config.servoGain * off))
      inSequence [
        fun _ => [hearSync p f, setF F.GCNT_STATUS_OFFSET 0 (BitVec.ofInt 32 off).toNat,
          setF F.GCNT_STATUS_DEPTH 0 (min 24 (f.depth.toNat + 1)), .servo fun s => { s with rate := rate }],
        gcntLock off ] d

/-! ### Parents and masters (R332, R334, R335) -/

/-- The tie order of re-parenting: X−, X+, Y−, Y+, Z−, Z+ (R334). -/
def reparentOrder : List Nat := [1, 0, 3, 2, 5, 4]

/-- The depth heard on a live port, 255 when unknown. -/
def Dev.heardDepth (d : Dev) (p : Nat) : Nat :=
  if d.syncsOn p then (mapGet (fun _ => ((255, 0) : Nat × Nat)) d.servo.heard p).1 else 255

/-- The live neighbour of least depth below the module's own (R334). -/
def Dev.bestParent (d : Dev) : Option Nat :=
  let own := d.fld F.GCNT_STATUS_DEPTH
  (reparentOrder.filter fun p => d.heardDepth p < own).foldl
    (fun b p => match b with
      | some q => if d.heardDepth p < d.heardDepth q then some p else some q
      | none => some p) none

/-- A module whose parent link died takes the live neighbour of least depth, and holds over while it has none (R334).
(DEDUCED, log 21) -/
def reparent : Act := fun d =>
  if d.bit F.GCNT_STATUS_MASTER || d.bit F.GCNT_STATUS_ACTING then [] else
    match d.bestParent with
    | some p => [setF F.GCNT_STATUS_PARENT 0 (parentCode p), setF F.GCNT_STATUS_DEPTH 0 (d.heardDepth p + 1),
        .servo fun s => { s with lostAt := none, run := 0 }]
    | none => [setF F.GCNT_STATUS_PARENT 0 0,
        .servo fun s => { s with lostAt := if s.lostAt.isSome then s.lostAt else some d.now, run := 0 }]

/-- The parent's link has died: re-parent (R334). -/
def parentLost (p : Nat) : Act := fun d => onlyIf (d.fld F.GCNT_STATUS_PARENT = parentCode p) reparent d

/-- HOLDOVER_ENTER (R334): no live neighbour of lower depth for more than 100 µs; a neighbour found meanwhile is taken. -/
def holdoverEnterAct : Act := fun d =>
  match d.servo.lostAt with
  | none => []
  | some t =>
    if d.bestParent.isSome then reparent d
    else if t + 100000 < d.now then [setF F.GCNT_STATUS_HOLDOVER 0 1, setF F.GCNT_STATUS_LOCKED 0 0] else []

/-- ACTING_MASTER_HANDOVER (R335): the spare at (0, 0, 0), locked for 1 ms, becomes master without a step; the acting master
that hears a master gives up its part and re-parents toward it. -/
def actingMasterHandoverAct : Act := fun d =>
  if d.bit F.DEV_COORD_VALID && d.here = 0 && !d.bit F.GCNT_STATUS_MASTER && d.bit F.GCNT_STATUS_LOCKED &&
      d.servo.lockedAt + 1000000 ≤ d.now then
    [setF F.GCNT_STATUS_MASTER 0 1, setF F.GCNT_STATUS_PARENT 0 0, setF F.GCNT_STATUS_DEPTH 0 0]
  else if d.bit F.GCNT_STATUS_ACTING && !d.isDead 0 && d.here ≠ 0 then
    let own := (reparentOrder.find? fun p => d.syncsOn p &&
      ((mapGet (fun _ => ((255, 0) : Nat × Nat)) d.servo.heard p).2 / 2 % 2 = 1 || d.heardDepth p < 255))
    match own with
    | some p => [setF F.GCNT_STATUS_ACTING 0 0, setF F.GCNT_STATUS_PARENT 0 (parentCode p),
        setF F.GCNT_STATUS_DEPTH 0 (min 24 (d.heardDepth p + 1)), .servo fun s => { s with run := 0 }]
    | none => []
  else []

/-- The module that the fault map makes coordinator acts as master while (0, 0, 0) is vacant (R335). -/
def takeActing : Act := fun d =>
  if d.coordinator = d.here && d.here ≠ 0 && d.bit F.DEV_COORD_VALID && !d.bit F.GCNT_STATUS_ACTING then
    [setF F.GCNT_STATUS_ACTING 0 1, setF F.GCNT_STATUS_PARENT 0 0, setF F.GCNT_STATUS_DEPTH 0 0,
     setF F.GCNT_STATUS_HOLDOVER 0 0]
  else []

/-! ### The snapshot -/

/-- The counters latched by the snapshot (R107, R181, R223, R263, R306, R342, R389, R432, R479, R508, R547, R587, R613, R635).
(DEDUCED, log 16) -/
def latchedFields : List Fld :=
  [F.CORE_BUBBLE_A_DRY, F.CORE_BUBBLE_A_DRAIN, F.CORE_BUBBLE_B_DRY, F.CORE_BUBBLE_B_DRAIN, F.CORE_THIN_FOLD_OPS,
   F.CORE_THIN_THIN_OPS, F.CORE_DUMMY_CYCLES, F.CORE_TILES_TILES_B, F.CORE_TILES_TILES_A, F.CORE_HOLD_POINT,
   F.CORE_HOLD_KETTLE, F.CODEC_EXP_BLOCKS, F.CODEC_CMP_BLOCKS, F.CODEC_STALL_LANE_CYCLES, F.HBM_ERR_REREADS_OK,
   F.HBM_ERR_BAD_BLOCKS, F.HBM_ECC_CORRECTED, F.HBM_ECC_UNCORRECTED, F.SPM_PERR_COUNT, F.STREAM_WORDS_FETCHED,
   F.STREAM_WORDS_DRAINED, F.STREAM_STALL_TOKEN_CYCLES, F.STREAM_STALL_SPACE_CYCLES, F.STREAM_ERR_FAULTS,
   F.SLIP_COUNT_COUNT, F.SLIP_COUNT_MAX_TICKS, F.SLIP_TIME_TICKS, F.SEQ_ISSUE_OPS, F.SEQ_CUES_FIRED,
   F.SEQ_CUES_HOLD_CYCLES, F.SEQ_ERR_FAULTS, F.SYNC_SIG_APPLIED, F.SYNC_SIG_RELEASES, F.SYNC_WAIT_SLEEPS,
   F.SYNC_WAIT_POLLS, F.SYNC_ERR_FAULTS, F.LINK_FLITS_TX, F.LINK_FLITS_RX, F.LINK_RETRY_EPISODES, F.LINK_RETRY_FLITS,
   F.LINK_FEC_CORRECTED, F.LINK_FEC_UNCORRECTABLE, F.LINK_ERR_FAULTS, F.ROUTE_DROP_UNREACH, F.ROUTE_DROP_PKEY,
   F.ROUTE_DROP_TRANSIT, F.ROUTE_DROP_EPOCH, F.ROUTE_CONG_MARKED, F.ROUTE_CONG_CNP_TX, F.ROUTE_CONG_CNP_RX,
   F.TRANSIT_PORT_TRANSIT_PKTS, F.ROUTE_ERR_FAULTS, F.COMMIT_CNT_COMMITS, F.COMMIT_CNT_RECOVERIES,
   F.COMMIT_CNT_HOLD_CYCLES, F.RECOV_ERR_FAULTS, F.DET_STATUS_EVENTS, F.DIGEST_WR_RECORDS, F.SVC_CNT_ADMITTED,
   F.SVC_CNT_CANCEL_MISS, F.SVC_CNT_UNDELIVERED, F.SVC_TOK_TOKENS, F.ETH_STATUS_DROPPED, F.SVC_ERR_FAULTS,
   F.CHAIN_CNT_RX, F.CHAIN_CNT_RESENDS, F.CHAIN_ERR_FAULTS, F.EVT_STATUS_SENT, F.EVT_STATUS_HELD, F.EVT_STATUS_LOST,
   F.SEC_ERR_FAULTS, F.PWR_METER_ENERGY_MJ, F.THERM_CNT_STEPS, F.THERM_CNT_MS]

/-- Whether a register holds a latched counter. -/
def Reg.latched (r : Reg) : Bool := latchedFields.any fun f => f.reg = r

/-- The listed register keys that a snapshot copies. -/
def Dev.latchedKeys (d : Dev) : List Nat :=
  (d.regs.map Prod.fst).filter fun k => (Reg.all[k / regCopies]?).any Reg.latched

/-- The keys of the slices with a live binding on the module (R339). -/
def Dev.liveKeys (d : Dev) : List (BitVec 12) :=
  ([0, 1, 2, 3].filter fun k => d.fld F.RING_STATUS_STATE k = 2).map fun k => BitVec.ofNat 12 (d.fld F.RING_CTL_PKEY k)

/-- Latch the counters (R338, R341): ARMED becomes PENDING; with no live binding the snapshot is published at once (R339).
(DEDUCED, log 17) -/
def snapLatchAct (late : Bool) : Act := fun d =>
  let at_ := if late then d.now else d.fld F.SNAP_AT_GCNT
  inSequence [
    fun d => [.snapLatch ⟨at_, late, !d.bit F.GCNT_STATUS_LOCKED, d.liveKeys⟩ d.latchedKeys,
      setF F.SNAP_STATUS_ARMED 0 0, setF F.SNAP_STATUS_PENDING 0 1],
    onlyIf d.liveKeys.isEmpty (publishSnap false) ] d

/-- SNAPSHOT_LATCH (R336, R338): GCNT has reached SNAP_AT. -/
def snapshotLatchAct : Act := fun d =>
  if d.bit F.SNAP_STATUS_ARMED && d.fld F.SNAP_AT_GCNT ≤ d.now then snapLatchAct false d else []

/-- A write of SNAP_AT (R341): refused while a snapshot is armed or pending; a count already past latches at once, late (R336). -/
def writeSnapAt (val : Nat) (d : Dev) : Answer × Act :=
  if d.bit F.SNAP_STATUS_ARMED || d.bit F.SNAP_STATUS_PENDING then refuse 5
  else (answerOk, inSequence [
    fun _ => [setF F.SNAP_AT_GCNT 0 val, setF F.SNAP_STATUS_ARMED 0 1],
    onlyIf (val < d.now) (snapLatchAct true) ])

/-- A commit point of a slice publishes the pending snapshot when it is the last slice with a live binding to take one (R339). -/
def snapCommit (pkey : BitVec 12) : Act := fun d =>
  if d.bit F.SNAP_STATUS_PENDING then
    let rest := d.snapInfo.waiting.filter fun k => k ≠ pkey
    [Upd.snapDone fun _ => rest] ++ (if rest.isEmpty then publishSnap false d else [])
  else []

end Sys2Proof.Machine
end

