-- ==== Sys2Proof/Machine/Roce.lean ====
section
/-! DEFINITION. Ethernet and RoCEv2 (R516–R524): ARP, Neighbour Discovery, echo, LLDP, link changes and pauses; RDMA requests, responses,
acknowledgements, retries and congestion notifications; and the TAIL of a request region (R525). -/

namespace Sys2Proof.Machine

/-! ### Frames besides RoCE (R518) -/

/-- A frame that an interface discards (R518). -/
def dropFrame (i : Nat) : Act := fun _ => [addF F.ETH_STATUS_DROPPED (ethPort i) 1]

/-- ETH_FRAME_DISCARD (R518). -/
def ethFrameDiscardAct (i : Nat) : Act := dropFrame i

/-- Whether an address is the peer of a queue pair of an interface. -/
def Dev.isPeer (d : Dev) (i : Nat) (ip : BitVec 128) : Bool :=
  d.svc.qps.any fun q => q.2.ent.any fun e => e.iface = i && e.remoteIp = ip

/-- Keep a peer's MAC. -/
def learnPeer (i : Nat) (ip : BitVec 128) (mac : BitVec 48) : Upd :=
  .svc fun s => { s with peers := (s.peers.filter fun e => !(e.1 = i && e.2.1 = ip)) ++ [(i, ip, mac)] }

/-- Send a frame of an interface, unless it does not send. -/
def ethSend (i : Nat) (f : EthOut) : Act := fun d => if d.ifaceSends i then [.send (.eth i f)] else []

/-- ARP_RECEIVE (R518): requests for the own address are answered, peers' addresses kept. -/
def arpReceiveAct (i : Nat) (f : ArpFrame) : Act := fun d =>
  match d.iface i with
  | none => dropFrame i d
  | some e =>
    let ip := f.senderIp.zeroExtend 128
    let mine : Bool := e.ipv4 ≠ 0 && f.targetIp = e.ipv4
    let peer := d.isPeer i ip
    if !mine && !peer then dropFrame i d
    else inSequence [
      fun _ => if peer then [learnPeer i ip f.senderMac] else [],
      onlyIf (mine && !f.isReply) (ethSend i (.arp ⟨true, e.mac, e.ipv4, f.senderIp⟩)) ] d

/-- NEIGHBOUR_DISCOVERY_RECEIVE (R518). -/
def neighbourDiscoveryReceiveAct (i : Nat) (f : NdFrame) : Act := fun d =>
  match d.iface i with
  | none => dropFrame i d
  | some e =>
    let mine : Bool := e.ipv6 ≠ 0 && !f.isAdvert && f.target = e.ipv6
    let peer := d.isPeer i (if f.isAdvert then f.target else f.src)
    if !mine && !peer then dropFrame i d
    else inSequence [
      fun _ => if peer then [learnPeer i (if f.isAdvert then f.target else f.src) f.mac] else [],
      onlyIf mine (ethSend i (.nd ⟨true, e.ipv6, e.ipv6, e.mac⟩)) ] d

/-- Bytes of the IP packet of an echo: the IP header, 8 bytes of ICMP, the data. -/
def EchoBytes (f : EchoFrame) : Nat := (if f.v6 then 40 else 20) + 8 + f.data.length

/-- ICMP_ECHO_RECEIVE (R518): an echo request to an own address, up to the IP MTU, is answered. -/
def icmpEchoReceiveAct (i : Nat) (f : EchoFrame) : Act := fun d =>
  match d.iface i with
  | none => dropFrame i d
  | some e =>
    let own : BitVec 128 := if f.v6 then e.ipv6 else e.ipv4.zeroExtend 128
    if own ≠ 0 && f.dst = own && EchoBytes f ≤ d.fld F.ETH_CTL_MTU (ethPort i) then
      ethSend i (.echoReply { f with src := own, dst := f.src }) d
    else dropFrame i d

/-- The bytes of a string of ASCII characters. -/
def asciiBytes (s : String) : List Byte := s.toList.map fun c => BitVec.ofNat 8 c.toNat

/-- The port description of an interface (R518). -/
def Dev.portDescription (d : Dev) (i : Nat) : List Byte :=
  asciiBytes ("KZF-7000 (" ++ toString (cx d.here) ++ "," ++ toString (cy d.here) ++ "," ++ toString (cz d.here) ++ ") " ++
    toString i)

/-- An LLDP TLV: seven bits of type, nine of length. -/
def lldpTlv (t : Nat) (bs : List Byte) : List Byte :=
  [BitVec.ofNat 8 (2 * t + bs.length / 256), BitVec.ofNat 8 bs.length] ++ bs

/-- LLDP_SEND (R518): the chassis ID is the MAC (subtype 4), the port description names the module and the interface.
(DEDUCED, log 130) -/
def lldpSendAct (i : Nat) : Act := fun d =>
  match d.iface i with
  | some e => ethSend i (.lldp (lldpTlv 1 ([4] ++ leBytes 6 e.mac.toNat) ++ lldpTlv 4 (d.portDescription i))) d
  | none => []

/-- LLDP_RECEIVE (R518). -/
def lldpReceiveAct (i : Nat) (tlvs : List Byte) : Act := fun d =>
  if (d.iface i).isSome then [.svc fun s => { s with lldp := mapSet (fun _ => []) i tlvs s.lldp }] else dropFrame i d

/-- ETH_LINK_CHANGE (R516, R549): UP of the interface; AN_DONE on media that negotiate, while an interface of the port is up.
(DEDUCED, log 131) -/
def ethLinkChangeAct (i : Nat) (up : Bool) : Act := fun d =>
  let e := ethPort i
  if !d.ifaceExists i || !d.bit F.ETH_CTL_ENABLE e then [] else
    let v := putBits (d.fld F.ETH_STATUS_UP e) (ethIndex i) (ethIndex i) (if up then 1 else 0)
    [setF F.ETH_STATUS_UP e v, setB F.ETH_STATUS_AN_DONE e (v ≠ 0 && d.fld F.ETH_CTL_MEDIA e ≤ 1)]

/-- PFC_FRAME_RECEIVE (R522): with PFC_EN, a frame for PFC_PRIO sets or ends the pause; at its end what was held goes out in order.
(DESIGN CHOICE, log 129) -/
def pfcFrameReceiveAct (e prio : Nat) (pause : Bool) : Act := fun d =>
  if !d.bit F.ETH_CTL_PFC_EN e || prio ≠ d.fld F.ETH_CTL_PFC_PRIO e then [addF F.ETH_STATUS_DROPPED e 1]
  else if pause then [setF F.ETH_STATUS_PFC_RX e 1]
  else
    inSequence [
      fun _ => [setF F.ETH_STATUS_PFC_RX e 0, .svc fun s => { s with held := s.held.filter fun h => h.1 ≠ e }],
      forEach (fun h => roceEmit h.2.1 h.2.2) (d.svc.held.filter fun h => h.1 = e) ] d

/-! ### Errors of a queue pair (R524, R541) -/

/-- The status of what an error of a queue pair fails: a retry count is retryable, an access error or an invalid request is not. -/
def qpFailure (bit : Fld) : Nat := if bit = F.SVC_ERR_RETRY then 0x20 else 0x10

/-- A queue pair enters ERROR with its SVC_ERR bit (R524). The jobs that pull from it fail (R541), and the exports on it end. -/
def qpError (q : Nat) (bit : Fld) : Act := fun d =>
  let s := d.qp q
  let pulls := s.sent.filterMap fun m => m.pull.map fun p => match p with
    | .offsets h _ => h
    | .example_ h => h
  let exports := d.svc.exports.filter fun x => x.qp = q
  inSequence [
    fun _ => flagSvc bit ++ [onQp q fun s => { s with st := .error, sent := [], rxVa := none }],
    fun _ => [.svc fun s => { s with held := s.held.filter fun h => h.2.1 ≠ q,
                                     exports := s.exports.filter fun x => x.qp ≠ q }],
    forEach (fun h => fun _ => [endJob h (qpFailure bit)] ++ flagSvc F.SVC_ERR_PULL) pulls.dedup,
    forEach (fun x => fun d => releaseRecord x.handle x.pkey (qpFailure bit)
      (((d.sliceOf x.pkey).map fun i => (d.slice i).committedWord).getD 0) d) exports ] d

/-! ### Congestion (R521) -/

/-- CNP_SEND of RoCE (R521): one CNP per queue pair per CNP_GAP µs answers packets that arrive with CE. -/
def notifyQp (q : Nat) (ce : Bool) : Act := fun d =>
  let quiet : Bool := match (d.qp q).cnpTx with
    | some t => d.expired t (d.fld F.ETH_CC_CNP_GAP)
    | none => true
  if ce && quiet then inSequence [fun d => [onQp q fun s => { s with cnpTx := some d.now }], roceEmit q .cnp] d else []

/-- The interface rate in the unit of QpSt.rate. -/
def fullRate : Nat := 4294967296

/-- ROCE_CNP_RECEIVE (R521): R_q becomes max(R_q/2, RMIN/256 of the interface rate). -/
def roceCnpReceiveAct (q : Nat) : Act := fun d =>
  if (d.qp q).st = .ready then
    [onQp q fun s => { s with
      rate := max (s.rate / 2) (fullRate * d.fld F.ETH_CC_RMIN / 256), cnpRx := some d.now, rateAt := d.now }]
  else []

/-- ROCE_RATE_RECOVER (R521): RECOVER_T µs after the last CNP or step, R_q rises by ADD/256 of the interface rate. -/
def roceRateRecoverAct (q : Nat) : Act := fun d =>
  let s := d.qp q
  if s.st = .ready && s.rate < fullRate && d.expired s.rateAt (d.fld F.ETH_CC_RECOVER_T) then
    [onQp q fun s => { s with rate := min fullRate (s.rate + fullRate * d.fld F.ETH_CC_ADD / 256), rateAt := d.now }]
  else []

/-! ### Availability of a slice to new items (R21, R477) -/

/-- The status that a refused binding gives later items of its slice (R274), while no context of it is armed or live. -/
def Dev.refusedBinding (d : Dev) (pkey : BitVec 12) : Option Nat :=
  if !(d.activeRings pkey).isEmpty then none
  else [0, 1, 2, 3].findSome? fun k => (d.ring k).refused.bind fun r => if r.1 = pkey.toNat then some r.2 else none

/-- The status of an item that a slice does not take: that of its refused binding, or UNAVAILABLE (R21, R274). -/
def Dev.turnedAway (d : Dev) (pkey : BitVec 12) : Nat := (d.refusedBinding pkey).getD 0x60

/-- Whether a slice takes new items: the module is READY or RUNNING, or recovers another slice, and the slice is in RUN. -/
def Dev.takesItems (d : Dev) (i : Nat) : Bool :=
  let s := d.slice i
  (d.mode = stReady || d.mode = stRunning || d.mode = stRecovering) && !s.fenced && s.rstate = 0 && !s.failed &&
    d.memberHere s && (d.refusedBinding s.pkey).isNone

/-- The next item handle of requests (R530). -/
def nextHandle (h : Nat) : Nat := h % 2147483647 + 1

/-- Answer a record at once that its slice does not take (R21, R274, R462): its completion is released now; the record counts as resolved when its turn
comes. -/
def answerUnavailable (q n : Nat) (body : List Byte) : Act := fun d =>
  match (d.qp q).ent with
  | none => []
  | some e =>
    let r := reqRec body
    let h := nextHandle d.svc.handle
    let step := ((d.sliceOf e.pkey).map fun i => (d.slice i).committedWord).getD (2 ^ 64 - 1)
    let it : Item := ⟨h, 1, e.pkey, none, 0, 0, 0, 0, none⟩
    inSequence [
      fun _ => [onQp q fun s => { s with skip := s.skip ++ [n] }],
      onlyIf (r.kind ≠ 2) (inSequence [
        fun _ => [.svc fun s => { s with handle := h }],
        queueEntry q 1 (recordBytes it (d.turnedAway e.pkey) step d.gcnt ++ requestTail body 255 0 0) ]) ] d

/-! ### Request regions (R520, R525) -/

/-- The record at index `n` of a queue pair (R525, R526). -/
def Dev.recordAt (d : Dev) (e : QpEnt) (n : Nat) : List Byte :=
  memRead d.hbm (d.qpRegion e + 4096 + 128 * (n % max 1 e.nrec)) 128

/-- TAIL as last seen. -/
def QpSt.tail (s : QpSt) : Nat := match s.seen.getLast? with | some e => e.1 | none => s.head

/-- A write that covers TAIL (R525): a value that decreases or exceeds HEAD + NREC is ignored and moves the queue pair to ERROR; records
that arrive while their slice takes no items are answered UNAVAILABLE. -/
def tailWritten (q : Nat) : Act := fun d =>
  let s := d.qp q
  match s.ent with
  | none => []
  | some e =>
    let tail := leNat (memRead d.hbm (d.qpRegion e) 8)
    let old := s.tail
    if tail < old || s.head + e.nrec < tail then qpError q F.SVC_ERR_TAIL d
    else if tail = old then []
    else
      let up : Bool := (d.sliceOf e.pkey).any fun i => d.takesItems i
      inSequence [
        fun d => [onQp q fun s => { s with seen := s.seen ++ [(tail, d.now)] }],
        onlyIf (!up) (fun d => forEach (fun j => answerUnavailable q (old + j) (d.recordAt e (old + j)))
          (List.range (tail - old)) d) ] d

/-- How a received request stands to the PSN expected: in order, a duplicate, or ahead of it. -/
inductive PsnOrder where
  | next | again | ahead
  deriving DecidableEq, Repr

/-- Compare a PSN with the one expected. -/
def psnOrder (want psn : Nat) : PsnOrder :=
  let a := psnAhead want psn
  if a = 0 then .next else if a < 8388608 then .ahead else .again

/-- Refuse a request with a NAK; the queue pair enters ERROR (R519, R524). -/
def nakInvalid (q psn : Nat) : Act := inSequence [roceEmit q (.nakInvalid psn), qpError q F.SVC_ERR_INVALID]
def nakAccess (q psn : Nat) : Act := inSequence [roceEmit q (.nakAccess psn), qpError q F.SVC_ERR_ACCESS]

/-- After a take-over, the first packet of a message sets the PSN expected (R546). -/
def takeFirst (q psn : Nat) : Upd := onQp q fun s => { s with rqPsn := psn, awaitFirst := false }

/-- Receive a request packet of a queue pair that is READY: congestion is answered, and the packet is taken in PSN order (R520). Before
the first packet of a message after a take-over nothing is taken (R546). -/
def inOrder (q psn : Nat) (first ce : Bool) (dup k : Act) : Act := fun d =>
  let s := d.qp q
  if s.st ≠ .ready || d.svc.silenced then []
  else if s.awaitFirst && !first then []
  else inSequence [
    notifyQp q ce,
    fun _ => if s.awaitFirst then [takeFirst q psn] else [],
    fun d => match psnOrder (d.qp q).rqPsn psn with
      | .next => k d
      | .again => dup d
      | .ahead => roceEmit q (.nakSequence (d.qp q).rqPsn) d ] d

/-- An RDMA WRITE packet (R519–R521, R525): applied to the request region in PSN order and acknowledged.
(DEDUCED, log 127) -/
def rdmaWriteTake (q : Nat) (w : RdmaWrite) : Act :=
  let psn := w.psn.toNat
  inOrder q psn w.first w.ce (fun d => roceEmit q (.ack ((d.qp q).rqPsn + psnMod - 1)) d) fun d =>
    let s := d.qp q
    match s.ent with
    | none => []
    | some e =>
      let va := if w.first then some w.va.toNat else s.rxVa.map Prod.fst
      let n := w.data.length
      match va with
      | none => nakInvalid q psn d
      | some va =>
        if (w.first && s.rxVa.isSome) || e.mtu < n || (!w.isLast && n ≠ e.mtu) then nakInvalid q psn d
        else if e.role ≠ 1 || (w.first && w.rkey.toNat ≠ e.localRkey) || e.regionBytes < va + n then nakAccess q psn d
        else inSequence [
          writeHbm (d.qpRegion e + va) w.data false,
          fun _ => [onQp q fun s => { s with
            rqPsn := (psn + 1) % psnMod, rxVa := if w.isLast then none else some (va + n, 0) }],
          roceEmit q (.ack psn),
          onlyIf (va = 0 && 8 ≤ n) (tailWritten q),
          fun d => pumpQp q (d.qp q).backlog.length d ] d

/-- RDMA_READ_REQUEST_RECEIVE (R519): answered from the request region; a duplicate is answered again. -/
def rdmaReadRequestReceiveAct (q : Nat) (rd : RdmaRead) : Act :=
  let psn := rd.psn.toNat
  let answer := fun (e : QpEnt) (advance : Bool) (d : Dev) =>
    let n := rd.len.toNat
    let va := rd.va.toNat
    if e.role ≠ 1 || rd.rkey.toNat ≠ e.localRkey || e.regionBytes < va + n then nakAccess q psn d
    else inSequence [
      fun _ => if advance then [onQp q fun s => { s with rqPsn := (psn + mtuPackets n e.mtu) % psnMod }] else [],
      fun d => roceEmit q (.readResp psn (d.readHbm (d.qpRegion e + va) n).1) d ] d
  let run := fun (advance : Bool) (d : Dev) => match (d.qp q).ent with
    | some e => answer e advance d
    | none => []
  inOrder q psn true rd.ce (run false) (run true)

/-! ### Acknowledgements (R519, R542) -/

/-- Whether an acknowledgement of a PSN covers a message. -/
def SentMsg.coveredBy (m : SentMsg) (psn : Nat) : Bool := psnAhead (m.psn + m.count - 1) psn < 8388608

/-- Whether a message is a READ, which only its response completes. -/
def SentMsg.isRead (m : SentMsg) : Bool := match m.msg with | .readReq .. => true | _ => false

/-- The messages at the front that an acknowledgement completes. -/
def ackedBy (psn : Nat) : List SentMsg → List SentMsg
  | [] => []
  | m :: ms => if !m.isRead && m.coveredBy psn then m :: ackedBy psn ms else []

/-- Bytes that a message writes. -/
def SentMsg.bytes (m : SentMsg) : Nat := match m.msg with | .write _ _ _ _ data => data.length | _ => 0

/-- Count the bytes of an export that are acknowledged; its record is released with the last (R457, R542). -/
def exportAcked (handle n : Nat) : Act := fun d =>
  match d.svc.exports.find? fun x => x.handle = handle with
  | none => []
  | some x =>
    let acked := x.acked + n
    inSequence [
      fun _ => [.svc fun s => { s with exports := s.exports.map fun y => if y.handle = handle then { y with acked := acked } else y },
        .commit fun c => { c with items := c.items.map fun it =>
          if it.handle = handle && it.typ = 4 then { it with count := acked } else it }],
      onlyIf (x.bytes ≤ acked) (inSequence [
        fun _ => [.svc fun s => { s with exports := s.exports.filter fun y => y.handle ≠ handle }],
        noteQuiet,
        fun d => releaseRecord handle x.pkey 0
          (((d.sliceOf x.pkey).map fun i => (d.slice i).committedWord).getD 0) d ]) ] d

/-- Complete messages at the front of those sent: progress ends a row of retries. -/
def completeSent (q : Nat) (ms : List SentMsg) : Act :=
  if ms.isEmpty then noAct else
    inSequence [
      fun d => [onQp q fun s => { s with sent := s.sent.drop ms.length, retries := 0, progressAt := d.now }],
      forEach (fun m => match m.export_ with
        | some h => exportAcked h m.bytes
        | none => noAct) ms ]

/-- ROCE_ACK_RECEIVE (R519). -/
def roceAckReceiveAct (q : Nat) (psn : BitVec 24) : Act := fun d =>
  let s := d.qp q
  if s.st ≠ .ready then [] else completeSent q (ackedBy psn.toNat s.sent) d

/-- Send every message not acknowledged again, from the first (R519: go-back-N). -/
def resendAll (q : Nat) : Act := fun d => forEach (fun m : SentMsg => roceEmit q m.msg) (d.qp q).sent d

/-- One more retry: past the retry count the queue pair enters ERROR (R519, R524). -/
def retryQp (q : Nat) : Act := fun d =>
  let s := d.qp q
  match s.ent with
  | none => []
  | some e =>
    if e.retry ≤ s.retries then qpError q F.SVC_ERR_RETRY d
    else inSequence [
      fun d => [onQp q fun s => { s with
        retries := s.retries + 1, progressAt := d.now, sent := s.sent.map fun m => { m with got := [] } }],
      resendAll q ] d

/-- ROCE_NAK_RECEIVE (R519, R524, R541). -/
def roceNakReceiveAct (q : Nat) (psn : BitVec 24) (kind : NakKind) : Act := fun d =>
  let s := d.qp q
  if s.st ≠ .ready then [] else
    match kind with
    | .sequence => inSequence [completeSent q (ackedBy ((psn.toNat + psnMod - 1) % psnMod) s.sent), retryQp q] d
    | .invalid => qpError q F.SVC_ERR_INVALID d
    | .access => qpError q F.SVC_ERR_ACCESS d

/-- ROCE_RETRANSMIT_TIMEOUT (R519): 4.096 µs × 2^t without progress. -/
def roceRetransmitTimeoutAct (q : Nat) : Act := fun d =>
  let s := d.qp q
  match s.ent with
  | none => []
  | some e =>
    if s.st = .ready && !s.sent.isEmpty && s.progressAt + 4096 * 2 ^ e.timeout ≤ d.now then retryQp q d else []

/-- RDMA_READ_RESPONSE_RECEIVE (R519, R539): the packets of a READ's response come in PSN order; the last completes it, and messages
sent before it. -/
def rdmaReadResponseReceiveAct (q : Nat) (rsp : RdmaResp) : Act := fun d =>
  let s := d.qp q
  match s.ent, s.sent.find? SentMsg.isRead with
  | some e, some m =>
    if s.st ≠ .ready || (m.psn + m.got.length / e.mtu) % psnMod ≠ rsp.psn.toNat then [] else
      let got := m.got ++ rsp.data
      let ahead := s.sent.takeWhile fun x => !x.isRead
      inSequence [
        notifyQp q rsp.ce,
        completeSent q ahead,
        fun d => if rsp.isLast then [] else [onQp q fun s => { s with
          progressAt := d.now, sent := s.sent.map fun x => if x.psn = m.psn then { x with got := got } else x }],
        onlyIf rsp.isLast (inSequence [
          completeSent q [m],
          match m.pull with
          | some p => pullDone p got
          | none => noAct ]) ] d
  | _, _ => []

end Sys2Proof.Machine
end

