-- ==== Sys2Proof/Machine/Sample.lean ====
section
/-! DEFINITION. Sampling of output tokens (R532) and the end conditions of a request (R536). -/

namespace Sys2Proof.Machine

/-- Insert into a list kept in order. -/
def insertBy {α : Type} (before : α → α → Bool) (a : α) : List α → List α
  | [] => [a]
  | b :: bs => if before b a then b :: insertBy before a bs else a :: b :: bs

/-- Sort a list, equals in their first order. -/
def sortBy {α : Type} (before : α → α → Bool) (xs : List α) : List α :=
  xs.foldr (insertBy fun a b => before a b) []

/-- A logit with its index. -/
abbrev Logit := Nat × BitVec 32

/-- Descending values, ties by ascending index (R532). -/
def logitBefore (a b : Logit) : Bool :=
  let c := (fp32 a.2).cmp (fp32 b.2)
  0 < c || (c = 0 && a.1 < b.1)

/-- Partial sums in FP32: S_j = RNE(S_{j−1} + p_j) (R532). -/
def partialSums : Val → List Val → List Val
  | _, [] => []
  | s, p :: ps =>
    let t := rne32 false (s.add p)
    t :: partialSums t ps

/-- An integer multiple of a power of two as a value. -/
def dyadic (m : Nat) (e : Int) : Val := .fin false m e

/-- The token that logits give under a temperature, TOP_P and TOP_K, with u of the draws over 2^32 (R532). -/
def pickToken (zs : List Logit) (temp topP : BitVec 32) (topK u : Nat) : Nat :=
  let sorted := sortBy logitBefore zs
  match sorted with
  | [] => 0
  | top :: _ =>
    if (fp32 temp).cmp Val.zero = 0 then top.1
    else
      let kept := if topK ≠ 0 && topK < zs.length then sorted.take topK else sorted
      let ps := kept.map fun z => fp32 (Config.samplingExp z.2 top.2 temp)
      let sums := partialSums Val.zero ps
      let last := sums.getLast?.getD Val.zero
      let bound := rne32 false ((fp32 topP).mul last)
      let n := match sums.findIdx? fun s => 0 ≤ s.cmp bound with
        | some i => i + 1
        | none => sums.length
      let kept := kept.take n
      let sums := sums.take n
      let keptSum := sums.getLast?.getD Val.zero
      let mark := rne32 false ((dyadic u (-32)).mul keptSum)
      match (kept.zip sums).find? fun e => 0 < e.2.cmp mark with
      | some e => e.1.1
      | none => (kept.getLast?.getD top).1

/-- The output token of a request at an index (R532): the logits are not in the firmware's model. -/
def sampleToken (seed : BitVec 64) (handle idx vocab : Nat) (r : ReqRec) : Nat :=
  let zs := (List.range vocab).map fun i => (i, Config.logit handle idx i)
  let u := drawU (philox seed (itemCounter 1 handle idx 0)) 0
  pickToken zs r.temp r.topP r.topK u

/-- The stop sequences of a request that are not empty (R526). -/
def ReqRec.stops (r : ReqRec) : List (List Nat) :=
  ((List.range 4).map fun j => (r.stop.drop (4 * j)).take (r.stopLens / 16 ^ j % 16)).filter fun s => !s.isEmpty

/-- The ending that the last output token gives, as REASON: END, STOP, CONTEXT, MAX_TOKENS, in this order (R533, R536). -/
def endReason (eos contextMax : Nat) (r : ReqRec) (toks : List Nat) : Option Nat :=
  if toks.getLast? = some eos then some 2
  else if r.stops.any fun s => s.isSuffixOf toks then some 1
  else if contextMax ≤ r.promptLen + toks.length then some 3
  else if r.maxTokens ≤ toks.length then some 0
  else none

end Sys2Proof.Machine
end

