-- ==== Sys2Proof/Machine/Admit.lean ====
section
/-! DEFINITION. Admission of requests (R526–R530, R537, R543) and the commit point of the service firmware (R531–R537, R540, R545). -/

namespace Sys2Proof.Machine

/-! ### Blocks (R528) -/

/-- A serving or training block. -/
structure Block where
  slots : Nat
  tokens : Nat
  prefill : Nat
  context : Nat
  vocab : Nat
  eos : Nat
  joinDay : Nat
  deriving DecidableEq, Repr

/-- Read a block. -/
def blockAt (b : BitVec 384) : Block :=
  { slots := bitsOf b 63 32, tokens := bitsOf b 95 64, prefill := bitsOf b 127 96, context := bitsOf b 159 128,
    vocab := bitsOf b 191 160, eos := bitsOf b 223 192, joinDay := bitsOf b 287 256 }

/-- The block of a partition key. -/
def Dev.block (d : Dev) (pkey : BitVec 12) : Option Block :=
  (d.svc.blocks.find? fun b => bitsOf b 11 0 = pkey.toNat).map blockAt

/-- Whether a slice serves: the MODE of its armed or live context is SERVE (R528). -/
def Dev.serving (d : Dev) (pkey : BitVec 12) : Bool :=
  match d.boundRings pkey with
  | k :: _ => d.fld F.RING_CTL_MODE k = 0
  | [] => false

/-- Whether a slice trains adapters. -/
def Dev.training (d : Dev) (pkey : BitVec 12) : Bool := (d.boundRings pkey).any fun k => d.fld F.RING_CTL_MODE k = 1

/-! ### Generations (R543, R545) -/

/-- The generation state of a slice: without a switch its current one is that of its context. -/
def Dev.baseGen (d : Dev) (i : Nat) : BaseGen :=
  let g := mapGet (fun _ => BaseGen.init) d.svc.gens i
  if g.cur ≠ 0 then g else
    match d.activeRings (d.slice i).pkey with
    | k :: _ => { g with cur := d.fld F.RING_CTL_BASE_GEN k }
    | [] => g

/-- An adapter's table entry. -/
def Dev.adapter (d : Dev) (id : Nat) : Option Adapter := d.svc.adapters.find? fun a => a.id = id

/-- The current buffer of an adapter, and the other one. -/
def curBuf (a : Adapter) : AdapterBuf := if a.cur1 then a.buf1 else a.buf0
def otherBuf (a : Adapter) : AdapterBuf := if a.cur1 then a.buf0 else a.buf1

/-- The adapter generation that a request is pinned to; none when no buffer holds it (R543). Adapter 0 is the base model alone. -/
def Dev.pinAdapter (d : Dev) (r : ReqRec) : Option Nat :=
  if r.adapter = 0 then some 0 else
    match d.adapter r.adapter with
    | none => none
    | some a =>
      if r.adapterGen = 0 then some (curBuf a).gen
      else if a.buf0.gen = r.adapterGen || a.buf1.gen = r.adapterGen then some r.adapterGen
      else none

/-- Old-generation requests in flight while a switch drains (R545, R551). -/
def Dev.drainLeft (d : Dev) (i : Nat) : Nat :=
  let g := d.baseGen i
  if g.draining then
    (d.svc.reqs.filter fun r => ((d.qp r.qp).ent.any fun e => e.pkey = (d.slice i).pkey) && r.baseGen = g.cur).length
  else 0

/-! ### The check of a record (R527) -/

/-- Whether a GENERATE record is malformed (R527). -/
def badRecord (e : QpEnt) (b : Block) (n : Nat) (r : ReqRec) : Bool :=
  let t := fp32 r.temp
  let p := fp32 r.topP
  let finite : Bool := match t with | .fin neg m _ => !neg || m = 0 | _ => false
  r.kind ≠ 1 || 2 ≤ r.flags || ((List.range 4).any fun j => 4 < r.stopLens / 16 ^ j % 16) || r.rsv ≠ 0 || r.cancelSeq ≠ 0 ||
    r.seq ≠ n % 4294967296 || !finite || p = .nan || p.cmp Val.zero ≤ 0 || 0 < p.cmp (dyadic 1 0) ||
    (r.promptLen ≠ 0 && (r.promptOff % 4 ≠ 0 || 1024 * e.promptKib < r.promptOff + 4 * r.promptLen)) ||
    b.context ≤ r.promptLen

/-! ### The admission list (R529, R530, R537) -/

/-- The count at which the service cores saw the TAIL that covers a record (R537). -/
def QpSt.seenAt (s : QpSt) (n : Nat) : Nat := match s.seen.find? fun e => n < e.1 with | some e => e.2 | none => 0

/-- Records resolved in the lists so far. -/
def QpSt.resolved (s : QpSt) : Nat := match s.lists.getLast? with | some e => max e.2 s.head | none => s.head

/-- The deadline of a record (R537). -/
def QpSt.deadline (s : QpSt) (n : Nat) (r : ReqRec) : Option Nat :=
  if r.deadlineUs = 0 then none else some (s.seenAt n + 1000 * r.deadlineUs)

/-- Note in a queue pair that the list of a step has resolved its records up to a count. -/
def noteResolved (q t n : Nat) : Upd :=
  onQp q fun s => { s with lists := (s.lists.filter fun e => e.1 ≠ t) ++ [(t, n)] }

/-- Resolve a record with a status in the list of a step: its entry is queued at the commit of the step. -/
def resolveWith (i q n t : Nat) (body : List Byte) (status reason : Nat) : Act := fun d =>
  let h := nextHandle d.svc.handle
  let decided := if status = 0 then t else (d.slice i).committedWord
  [.svc fun s => { s with handle := h, refused := s.refused ++ [⟨h, q, n, body, status, reason, t, decided⟩] },
   noteResolved q t (n + 1)]

/-- Whether a later record that the service cores have seen cancels record `n` (R537).
(DEDUCED, log 133) -/
def Dev.cancelAhead (d : Dev) (e : QpEnt) (s : QpSt) (n : Nat) : Bool :=
  (List.range (s.tail - (n + 1))).any fun j =>
    let r := reqRec (d.recordAt e (n + 1 + j))
    r.kind = 2 && r.cancelSeq = n % 4294967296

/-- Resolve a CANCEL (R537): its target among the admitted requests, or one resolved CANCELLED in the same list; otherwise a miss. -/
def resolveCancel (q n t : Nat) (r : ReqRec) : Act := fun d =>
  let target := d.svc.reqs.find? fun x => x.qp = q && x.seq % 4294967296 = r.cancelSeq && x.cancelled.isNone
  let same := d.svc.refused.any fun x => x.qp = q && x.seq % 4294967296 = r.cancelSeq && x.status = 0x31 && x.step = t
  (match target with
   | some x => [Upd.svc fun s => { s with reqs := s.reqs.map fun y => if y.handle = x.handle then { y with cancelled := some t } else y }]
   | none => if same then [] else [addF F.SVC_CNT_CANCEL_MISS 0 1]) ++ [noteResolved q t (n + 1)]

/-- Admit a request to a step (R529, R530, R543). -/
def admitRequest (i q n t : Nat) (body : List Byte) (agen bgen : Nat) (deadline : Option Nat) : Act := fun d =>
  let h := nextHandle d.svc.handle
  [.svc fun s => { s with handle := h, lastQp := q, reqs := s.reqs ++
      [⟨h, q, n, body, agen, bgen, 0, [], 0, t, deadline, none⟩] },
   .commit fun c => { c with items := c.items ++ [⟨h, 1, (d.slice i).pkey, some t, 0, 0, 0, 0, none⟩] },
   addF F.SVC_CNT_ADMITTED 0 1, noteResolved q t (n + 1)]

/-- Requests of a slice in its batch. -/
def Dev.active (d : Dev) (i : Nat) : List SvcReq :=
  d.svc.reqs.filter fun r => (d.qp r.qp).ent.any fun e => e.pkey = (d.slice i).pkey

/-- Whether a record waits for a base switch: it names the current or the new generation while the old one drains (R545). -/
def BaseGen.holds (g : BaseGen) (r : ReqRec) : Bool :=
  g.draining && (r.baseGen = 0 || r.baseGen = g.cur || r.baseGen = g.next)

/-- What becomes of a record in the list of a step; none when it stays unresolved (R527, R529, R537, R543, R545). -/
def takeRecord (i q n t : Nat) (b : Block) (e : QpEnt) (d : Dev) : Option Act :=
  let s := d.qp q
  let body := d.recordAt e n
  let r := reqRec body
  let g := d.baseGen i
  let dl := s.deadline n r
  if s.skip.contains n then some fun _ => [noteResolved q t (n + 1)]
  else if r.kind = 2 then some (resolveCancel q n t r)
  else if badRecord e b n r then some (resolveWith i q n t body 0x10 255)
  else if d.cancelAhead e s n then some (resolveWith i q n t body 0x31 255)
  else if dl.any fun x => x ≤ d.now then some (resolveWith i q n t body 0x40 255)
  else if g.holds r then none
  else match d.pinAdapter r with
    | none => some (resolveWith i q n t body 0x30 255)
    | some ag =>
      if r.baseGen ≠ 0 && r.baseGen ≠ g.cur then some (resolveWith i q n t body 0x30 255)
      else if r.maxTokens = 0 then some (resolveWith i q n t body 0 0)
      else if (d.active i).length < b.slots then some (admitRequest i q n t body ag g.cur dl)
      else none

/-- Take the records of a queue pair in index order until one stays unresolved.
(DEDUCED, log 132) -/
def takeRecords (i q t : Nat) (b : Block) (e : QpEnt) : Nat → Act
  | 0, _ => []
  | fuel + 1, d =>
    let s := d.qp q
    let n := s.resolved
    if s.tail ≤ n then [] else
      match takeRecord i q n t b e d with
      | some a => inSequence [a, takeRecords i q t b e fuel] d
      | none => []

/-- The CLIENT queue pairs that serve a partition key and are READY, in ascending number. -/
def Dev.clientQps (d : Dev) (pkey : BitVec 12) : List (Nat × QpEnt) :=
  d.svc.qps.filterMap fun q => match q.2.ent with
    | some e => if e.role = 1 && e.pkey = pkey && q.2.st = .ready then some (q.1, e) else none
    | none => none

/-- The order in which queue pairs are taken: in DET_MODE by number, otherwise in rotation after the last one admitted from
(R496, R529). -/
def Dev.admissionOrder (d : Dev) (pkey : BitVec 12) : List (Nat × QpEnt) :=
  let qs := d.clientQps pkey
  if d.bit F.DET_CTL_DET_MODE then qs
  else (qs.filter fun q => d.svc.lastQp < q.1) ++ (qs.filter fun q => q.1 ≤ d.svc.lastQp)

/-- Whether lists come from the host's admission log (R496). -/
def Dev.logReplay (d : Dev) : Bool := d.bit F.DET_CTL_DET_MODE && d.bit F.DET_CTL_LOG_REPLAY

/-- The logged records of a step that have arrived. -/
def Dev.logArrived (d : Dev) (pkey : BitVec 12) (t : Nat) : Bool :=
  (Config.admissionLog pkey t).all fun e => e.2 < (d.qp e.1).tail

/-- Close the admission list of step `t` of a slice (R496, R529). A frozen slice admits nothing (R570). -/
def closeList (i t : Nat) : Act := fun d =>
  let pkey := (d.slice i).pkey
  let n := mapGet (fun _ => 0) d.svc.closed i
  match d.block pkey with
  | none => []
  | some b =>
    let wait := mapGet (fun _ => 0) d.svc.waitAt i
    if t < n || !d.serving pkey then []
    else if (d.slice i).frozen then [.svc fun s => { s with closed := mapSet (fun _ => 0) i (t + 1) s.closed }]
    else if d.logReplay then
      if !d.logArrived pkey t then
        (if wait = 0 then [.svc fun s => { s with waitAt := mapSet (fun _ => 0) i (d.now + 1) s.waitAt }] else [])
      else
        inSequence [
          forEach (fun e => fun d => match (d.qp e.1).ent with
            | some x => ((takeRecord i e.1 e.2 t b x d).map fun a => a d).getD []
            | none => []) (Config.admissionLog pkey t),
          fun _ => [.svc fun s => { s with
            closed := mapSet (fun _ => 0) i (t + 1) s.closed, waitAt := mapSet (fun _ => 0) i 0 s.waitAt }] ] d
    else
      inSequence [
        forEach (fun q => fun d => takeRecords i q.1 t b q.2 ((d.qp q.1).tail) d) (d.admissionOrder pkey),
        fun _ => [.svc fun s => { s with closed := mapSet (fun _ => 0) i (t + 1) s.closed }] ] d

/-- Whether the acceptance of a CW day of a step's year waits (R496, R529, R539): on its join day, for the admission list in DET_MODE, or for
the data of a running job. `ahead` is the number of open steps before it. -/
def Dev.joinHeld (d : Dev) (i t day : Nat) : Bool :=
  let pkey := (d.slice i).pkey
  match d.block pkey with
  | none => false
  | some b =>
    day = b.joinDay &&
      ((d.serving pkey && d.bit F.DET_CTL_DET_MODE && mapGet (fun _ => 0) d.svc.closed i ≤ t && t ≠ 0) ||
       (d.training pkey && !d.dataReady pkey (t - (d.slice i).nextStep)))

/-- The acceptance of a CW day closes the list of its step on the join day, without DET_MODE (R529). -/
def joinDay (i t day : Nat) : Act := fun d =>
  match d.block (d.slice i).pkey with
  | some b => onlyIf (day = b.joinDay && !d.bit F.DET_CTL_DET_MODE) (closeList i t) d
  | none => []

/-! ### The commit point (R531–R537) -/

/-- The STEP of a record that a fault decided while step `t` was uncommitted: the step before it, all ones for step −1 (R455). -/
def stepBefore (t : Nat) : Nat := if t = 0 then 2 ^ 64 - 1 else t - 1

/-- What a step gives a request: its new state, and how it ends: status and REASON. -/
structure ReqStep where
  req : SvcReq
  ended : Option (Nat × Nat)
  deriving DecidableEq, Repr

/-- Advance a request by a step with a budget of token positions (R531, R532, R536, R537). -/
def advance (d : Dev) (i t : Nat) (b : Block) (budget : Nat) (r : SvcReq) : ReqStep × Nat :=
  let rec_ := reqRec r.body
  let n := rec_.promptLen - r.promptDone
  let take := if n = 0 then min 1 budget else min (min n b.prefill) budget
  let r := { r with promptDone := r.promptDone + if n = 0 then 0 else take }
  let token : Bool := 0 < take && r.promptDone = rec_.promptLen
  let r := if token then
      { r with toks := r.toks ++ [sampleToken (d.sliceSeed (d.slice i).pkey) r.handle r.toks.length b.vocab rec_] }
    else r
  let done := if token then endReason b.eos b.context rec_ r.toks else none
  let q := d.qp r.qp
  let cancelled : Bool := (r.cancelled.any fun c => c ≤ t) || q.st = .error || 4096 < q.backlog.length
  let ended := match done with
    | some reason => some (0, reason)
    | none => if cancelled then some (0x31, 255)
      else if r.deadline.any fun x => x ≤ d.now then some (0x40, 255) else none
  (⟨r, ended⟩, budget - take)

/-- Advance requests in order: those that decode first, then prompts in admission order (R531). -/
def advanceAll (d : Dev) (i t : Nat) (b : Block) : Nat → List SvcReq → List ReqStep
  | _, [] => []
  | budget, r :: rs =>
    let (x, left) := advance d i t b budget r
    x :: advanceAll d i t b left rs

/-- The batch of a step in the order of its positions. -/
def Dev.batch (d : Dev) (i t : Nat) : List SvcReq :=
  let rs := (d.active i).filter fun r => r.step ≤ t
  let decodes := fun (r : SvcReq) => decide ((reqRec r.body).promptLen ≤ r.promptDone)
  (rs.filter decodes) ++ rs.filter fun r => !decodes r

/-- The status that a fault gave an item of a step, when it gave one (R261, R477). -/
def StepSt.failed (e : StepSt) (handle : Nat) : Option Nat :=
  match e.failItems.find? fun x => x.1 = handle with
  | some x => some x.2
  | none => e.fail

/-- Tokens of a TOKENS entry (R533).
(DEDUCED, log 134) -/
def tokensEntry (handle first : Nat) (toks : List Nat) : List Byte :=
  leBytes 4 handle ++ [BitVec.ofNat 8 toks.length, 0, 0, 0] ++ leBytes 4 first ++
    ((List.range 10).flatMap fun j => leBytes 4 (toks[j]?.getD 0)) ++ leBytes 4 0

/-- Send the tokens of a request that are due: all of them for STREAM, else in tens, the remainder at a DONE end (R534). -/
def sendTokens (r : SvcReq) (all : Bool) : Act := fun _ =>
  let due := r.toks.drop r.sent
  let due := if all then due else due.take (due.length / 10 * 10)
  let groups := chunksOf due.length 10 due
  inSequence [
    forEach (fun e => queueEntry r.qp 2 (tokensEntry r.handle (r.sent + 10 * e.1) e.2)) ((List.range groups.length).zip groups),
    fun _ => [addF F.SVC_TOK_TOKENS 0 due.length,
      .svc fun s => { s with reqs := s.reqs.map fun x => if x.handle = r.handle then { x with sent := r.sent + due.length } else x },
      .commit fun c => { c with items := c.items.map fun it =>
        if it.handle = r.handle && it.typ = 1 then { it with count := r.sent + due.length } else it }] ] ‹Dev›

/-- HEAD of a queue pair at the commit of a step (R525, R529, R534): an advance is written to the region and to the ring. -/
def commitHead (q t : Nat) : Act := fun d =>
  let s := d.qp q
  match s.ent, s.lists.find? fun e => e.1 = t with
  | some e, some x =>
    let drop := onQp q fun s => { s with lists := s.lists.filter fun e => t < e.1 }
    if x.2 ≤ s.head then [drop] else
      inSequence [
        fun _ => [drop, onQp q fun s => { s with
          head := x.2, skip := s.skip.filter fun n => x.2 ≤ n
          seen := (s.seen.filter fun e => x.2 ≤ e.1) }],
        writeHbm (d.qpRegion e + 16) (leBytes 8 x.2) false,
        queueEntry q 3 (leBytes 8 x.2 ++ leBytes 8 t ++ leBytes 40 0) ] d
  | _, _ => []

/-- The entry of a record refused in a list (R529, R533, R534). -/
def completeRefused (i : Nat) (x : Refused) : Act := fun d =>
  let it : Item := ⟨x.handle, 1, (d.slice i).pkey, none, 0, 0, 0, 0, none⟩
  queueEntry x.qp 1 (recordBytes it x.status x.decided d.gcnt ++ requestTail x.body x.reason 0 0) d

/-- Whether a request streams (R526). -/
def SvcReq.streams (r : SvcReq) : Bool := (reqRec r.body).flags % 2 = 1

/-- The commit point of step `t` for the requests of a serving slice (R534): HEAD, tokens of STREAM requests, tokens of the others,
COMPLETIONs, each group in ascending handle order. -/
def commitRequests (i t : Nat) : Act := fun d =>
  match d.block (d.slice i).pkey with
  | none => []
  | some b =>
    let e := ((d.slice i).steps.find? fun e => e.step = t).getD (StepSt.init t)
    let batch := d.batch i t
    let g := d.baseGen i
    let expired : Bool := g.draining && g.since + d.fld F.SVC_CFG_DRAIN_STEPS ≤ t
    let failed := batch.filterMap fun r => (e.failed r.handle).map fun st => (⟨r, some (st, 255)⟩ : ReqStep)
    let ran := advanceAll d i t b b.tokens (batch.filter fun r => (e.failed r.handle).isNone)
    let ran := if expired then
        ran.map fun x => if x.ended.isNone && x.req.baseGen = g.cur then { x with ended := some (0x30, 255) } else x
      else ran
    let byHandle := sortBy (fun (a b : ReqStep) => a.req.handle < b.req.handle) (failed ++ ran)
    let tokened := byHandle.filter fun x => (e.failed x.req.handle).isNone
    let refused := d.svc.refused.filter fun x => x.step = t && (d.qp x.qp).ent.any fun y => y.pkey = (d.slice i).pkey
    let ends := (byHandle.filterMap fun x => x.ended.map fun s => (x.req.handle, Sum.inl (x, s))) ++
      refused.map fun x => (x.handle, Sum.inr x)
    inSequence [
      forEach (fun q => commitHead q.1 t) (d.clientQps (d.slice i).pkey),
      fun _ => [.svc fun s => { s with
        reqs := s.reqs.map fun r => match tokened.find? fun x => x.req.handle = r.handle with
          | some x => x.req
          | none => r
        refused := s.refused.filter fun x => !(refused.any fun y => y.handle = x.handle) }],
      forEach (fun x : ReqStep => sendTokens x.req true) (tokened.filter fun x => x.req.streams),
      forEach (fun x : ReqStep => sendTokens x.req (x.ended.any fun s => s.1 = 0)) (tokened.filter fun x => !x.req.streams),
      forEach (fun y => fun d => match y.2 with
        | .inl (x, s) => releaseWith x.req.handle (d.slice i).pkey s.1
            (if (e.failed x.req.handle).isSome then stepBefore t else t) s.2 [] d
        | .inr x => completeRefused i x d)
        (sortBy (fun (a b : Nat × (ReqStep × Nat × Nat ⊕ Refused)) => a.1 < b.1) ends),
      onlyIf expired (fun _ => flagSvc F.SVC_ERR_DRAIN),
      fun d => (d.svc.qps.filter fun q => 4096 < q.2.backlog.length).flatMap fun _ => flagSvc F.SVC_ERR_UNDELIVERED ] d

/-! ### Jobs at the commit point (R540, R541) -/

/-- Whether this module is the home of a slice. -/
def Dev.homeHere (d : Dev) (i : Nat) : Bool := (d.slice i).desc.any fun e => homeOf e = d.here

/-- The item of a job's step, held at the home.
(DEDUCED, log 140) -/
def jobItem (d : Dev) (j : JobSt) (t : Option Nat) : List Upd :=
  if (d.sliceOf j.pkey).any fun i => d.homeHere i then
    [.commit fun c => { c with items := c.items ++ [⟨j.handle, 2, j.pkey, t, 0, 0, 0, 0, none⟩] }]
  else []

/-- Leave an adapter's trained generation in its other buffer (R540). -/
def tagGeneration (adapter gen : Nat) : Upd :=
  .svc fun s => { s with adapters := s.adapters.map fun a =>
    if a.id ≠ adapter then a
    else if a.cur1 then { a with buf0 := { a.buf0 with gen := gen } } else { a with buf1 := { a.buf1 with gen := gen } } }

/-- Remove a job. -/
def dropJob (handle : Nat) : Upd := .svc fun s => { s with jobs := s.jobs.filter fun j => j.handle ≠ handle }

/-- The commit point of a step for one job: its entry is written, and it ends after step STEPS or with the status that ended it
(R540, R541). -/
def commitJob (t : Nat) (j : JobSt) (fail : Option Nat) : Act := fun d =>
  let n := j.done + 1
  let data := j.ready.headD .empty
  let status := (j.ended.or fail).getD 0
  let (loss, lossTokens, norm) := Config.jobResult j.handle n
  let tail := leBytes 4 n ++ leBytes 4 loss.toNat ++ leBytes 4 lossTokens.toNat ++ leBytes 4 data.epoch ++
    leBytes 4 norm.toNat ++ leBytes 4 data.truncated
  let step := if status = 0 then t else stepBefore t
  inSequence [
    fun _ => [.commit fun c => { c with items := c.items.map fun it =>
      if it.handle = j.handle && it.typ = 2 && status = 0 then { it with count := data.examples } else it }],
    releaseWith j.handle j.pkey status step 255 tail,
    fun _ =>
      if status ≠ 0 then [dropJob j.handle]
      else if j.steps ≤ n then [tagGeneration j.adapter j.genOut, dropJob j.handle]
      else [onJob j.handle fun j => { j with done := n, ready := j.ready.drop 1 }] ++ jobItem d j (some (t + 1)),
    pullNext j.handle ] d

/-- The commit point of a step for the jobs of a slice. -/
def commitJobs (i t : Nat) : Act := fun d =>
  let e := ((d.slice i).steps.find? fun e => e.step = t).getD (StepSt.init t)
  forEach (fun j => commitJob t j (e.failed j.handle)) (d.svc.jobs.filter fun j => j.pkey = (d.slice i).pkey) d

/-! ### Commands that act at a commit point (R541, R544, R545) -/

/-- The coordinate at a ring position of a slice: along X from its origin (R34, R425). -/
def Dev.ringCoord (d : Dev) (s : SliceDesc) (pos : Nat) : Coord :=
  setOn d.here 0 ((cx (originOf s) + pos) % max 1 (d.axis 0))

/-- The register address of RING_CTL of a context, for the STOP that the home sends (R67). -/
def ringCtlAddr (k : Nat) : Nat := (Reg.RING_CTL).info.addr + k * (Reg.RING_CTL).info.stride

/-- Set STOP on the live context of a slice at its first owners (R42, R545, R570). -/
def stopAtOwners (i : Nat) : Act := fun d =>
  let s := d.slice i
  match (d.activeRings s.pkey).find? fun k => d.fld F.RING_STATUS_STATE k = 2, s.desc with
  | some k, some e =>
    let p := d.plan k
    let word := putBits (d.reg .RING_CTL k) F.RING_CTL_STOP.hi F.RING_CTL_STOP.lo 1
    let stop := fun (o : Nat) => BitVec.ofNat 64 (putBits word F.RING_CTL_POS.hi F.RING_CTL_POS.lo o)
    let owners := [p.runOwner .cw 0, p.runOwner .ccw 0].dedup
    owners.map fun o => .send (.mgmt (d.ringCoord e o) (.relayed 0 (.regWr (ringCtlAddr k) 8 (stop o))))
  | _, _ => []

/-- The home stops the old context, and the waiting generation becomes the current one (R545). -/
def switchBase (i : Nat) : Act :=
  inSequence [
    stopAtOwners i,
    fun d => [.svc fun v => { v with gens := mapSet (fun _ => BaseGen.init) i ⟨(d.baseGen i).next, 0, false, 0⟩ v.gens }] ]

/-- A slice that drains is stopped by its home, which admits its items, once no admitted item of it remains (R570). -/
def drainStop (i : Nat) : Act := fun d =>
  let s := d.slice i
  onlyIf (s.draining && !s.drained && d.homeHere i && !(d.commit.items.any fun it => it.pkey = s.pkey && it.typ ≠ 3))
    (inSequence [stopAtOwners i, fun _ => [.slice i fun s => { s with drained := true }]]) d

/-- A command takes effect at the commit point of step `t` (R540, R541, R544, R545). -/
def runSvcCmd (i t : Nat) (c : SvcCmd) : Act := fun d =>
  match c with
  | .adapterGen a g =>
    [.svc fun s => { s with adapters := s.adapters.map fun x =>
      if x.id = a && (otherBuf x).gen = g then { x with cur1 := !x.cur1 } else x }]
  | .baseSwitch g => [.svc fun s => { s with gens := mapSet (fun _ => BaseGen.init) i ⟨(d.baseGen i).cur, g, true, t⟩ s.gens }]
  | .jobStart j => inSequence [
      fun _ => [.svc fun s => { s with jobs := s.jobs ++ [j] }],
      fun d => jobItem d j (some (t + 1)),
      onlyIf (j.steps = 0) (releaseWith j.handle j.pkey 0 (d.slice i).committedWord 255 (leBytes 24 0)),
      fun _ => if j.steps = 0 then [dropJob j.handle] else [],
      pullNext j.handle ] d
  | .jobStop h => inSequence [
      releaseWith h (d.slice i).pkey 0x31 (d.slice i).committedWord 255 (leBytes 24 0),
      fun _ => [dropJob h] ] d

/-- The service firmware at the commit point of step `t` of a slice (R529, R534, R540, R544, R545): results of the step, then commands
that wait for a commit point, then a base switch that has drained, then the next list in DET_MODE (R496). -/
def serviceCommit (i t : Nat) : Act :=
  inSequence [
    fun d => if d.serving (d.slice i).pkey then commitRequests i t d else [],
    commitJobs i t,
    fun d => inSequence [
      fun _ => [.svc fun s => { s with atCommit := s.atCommit.filter fun c => c.1 ≠ i }],
      forEach (fun c => runSvcCmd i t c.2) (d.svc.atCommit.filter fun c => c.1 = i) ] d,
    fun d => onlyIf ((d.baseGen i).draining && d.drainLeft i = 0 && d.homeHere i) (switchBase i) d,
    drainStop i,
    fun d => onlyIf (d.bit F.DET_CTL_DET_MODE) (closeList i (t + 1)) d ]

/-- A list that waits for logged records is tried again when records arrive (R496). -/
def retryLists : Act := fun d =>
  forEach (fun e => closeList e.1 (mapGet (fun _ => 0) d.svc.closed e.1)) d.svc.waitAt d

/-- RDMA_WRITE_RECEIVE (R496, R519–R521, R525). -/
def rdmaWriteReceiveAct (q : Nat) (w : RdmaWrite) : Act := inSequence [rdmaWriteTake q w, retryLists]

/-- A rollback to step `target` undoes the request progress of the steps after it (R444, R466): their admissions, refusals and cancels;
in DET_MODE the list of the step after the target was committed with it (R496). -/
def serviceRollback (i : Nat) (target : Int) : Act := fun d =>
  let pkey := (d.slice i).pkey
  let keep : Int := if d.bit F.DET_CTL_DET_MODE then target + 1 else target
  let mine := fun (q : Nat) => (d.qp q).ent.any fun e => e.pkey = pkey
  let gone := (d.svc.reqs.filter fun r => mine r.qp && keep < r.step).map fun r => r.handle
  let lost := gone ++ (d.svc.refused.filter fun r => mine r.qp && keep < r.step).map fun r => r.handle
  let kept := (d.commit.items.map fun it => it.handle).filter fun h => h < 2147483648 && !lost.contains h
  let low := lost.foldl min 4294967296
  [.svc fun s => { s with
      reqs := (s.reqs.filter fun r => !gone.contains r.handle).map fun r =>
        { r with cancelled := if mine r.qp then r.cancelled.filter fun c => (c : Int) ≤ keep else r.cancelled }
      refused := s.refused.filter fun r => !lost.contains r.handle
      closed := mapSet (fun _ => 0) i (min (mapGet (fun _ => 0) s.closed i) (keep + 1).toNat) s.closed
      handle := if !lost.isEmpty && (kept.all fun h => h < low) then low - 1 else s.handle },
   .commit fun c => { c with items := c.items.filter fun it => !(it.typ = 1 && gone.contains it.handle) }] ++
  (d.clientQps pkey).map fun q => onQp q.1 fun s => { s with lists := s.lists.filter fun e => (e.1 : Int) ≤ keep }

end Sys2Proof.Machine
end

