-- ==== Sys2Proof/Machine/Link.lean ====
section
/-! DEFINITION. The Flalys ports (09): states and death of a link, flits and their checks, retry, credits, FENCE and HELLO flits, and the
link key exchange (R357–R397, R605–R607). -/

namespace Sys2Proof.Machine

/-! ### States of a port (R379) -/

def lsDown : Nat := 0
def lsTrain : Nat := 1
def lsAlign : Nat := 2
def lsHello : Nat := 3
def lsKeying : Nat := 4
def lsUp : Nat := 5
def lsDead : Nat := 6

/-- The state of a port. -/
def Dev.linkState (d : Dev) (p : Nat) : Nat := d.fld F.LINK_STATUS_STATE p

/-- Enter a state of a port. -/
def enterLink (p st : Nat) : Act := fun d =>
  [setF F.LINK_STATUS_STATE p st, setF F.LINK_STATUS_ENTRY_GCNT p (d.now % 4294967296),
   .port p fun s => { s with enteredAt := d.now }]

/-- The bounds of the bring-up states in µs (R379, R606). -/
def linkBound (st : Nat) : Option Nat :=
  match st with
  | 1 => some 400000
  | 2 => some 20000
  | 3 => some 2000
  | 4 => some 100000
  | _ => none

/-- Receive buffers of a port in credits (R364, R365). -/
def ownBuffers (p : Nat) : List Nat :=
  if p ≤ 1 then [12288, 12288, 3072, 3072, 512, 1536]
  else if p ≤ 3 then [6144, 6144, 1536, 1536, 512, 1024]
  else [6144, 6144, 1536, 1536, 512, 1024]

/-! ### Death of a link (R384–R388, R476) -/

/-- Add one lost flit of a pair. -/
def countPair (k : Nat × Nat) : List ((Nat × Nat) × Nat) → List ((Nat × Nat) × Nat)
  | [] => [(k, 1)]
  | (j, n) :: m => if j = k then (j, n + 1) :: m else (j, n) :: countPair k m

/-- Lost flits by pair of the flits held for replay (R386). -/
def lostPairs (held : List HeldFlit) : List ((Nat × Nat) × Nat) :=
  held.foldl (fun m f => f.pairs.foldl (fun m k => countPair k m) m) []

/-- The packet in reception, when its header has arrived. -/
def PortSt.rxHeader (s : PortSt) : Option Packet :=
  s.rx.bind fun r => if 32 ≤ r.bytes.length then some (packetOfBytes r.bytes) else none

/-- Bytes of the packet whose first bytes are given (R359). -/
def declaredBytes (bs : List Byte) : Nat :=
  32 + (if bitOf (fieldAt bs 1 1) 3 then 64 else 0) + bitsOf (fieldAt bs 10 2) 12 0

/-- Write the record of a death (R388, R397). -/
def recordLoss (p : Nat) (pairs : List ((Nat × Nat) × Nat)) : Act := fun d =>
  let over_ := ((pairs.drop 64).map Prod.snd).sum
  [setF F.LINK_LOST_DEATH_GCNT p (d.now % 4294967296), setF F.LINK_LOST_ENTRIES p (min 64 pairs.length),
   setF F.LINK_LOST_UNATTRIBUTED p (min 16777215 over_)] ++
  (List.range 64).flatMap fun j =>
    let e := pairs[j]?.getD ((0, 0), 0)
    [setF F.LINK_LOSTN_PKEY (p * 64 + j) e.1.1, setF F.LINK_LOSTN_FLITS (p * 64 + j) (min 65535 e.2),
     setF F.LINK_LOSTN_ITEM (p * 64 + j) e.1.2]

/-- LOST of the items whose flits died with a transmitter (R388): a flit of item 0 counts for every item of the slice's uncommitted
steps. -/
def addLost (pairs : List ((Nat × Nat) × Nat)) : Upd :=
  .commit fun c => { c with items := c.items.map fun it =>
    let n := ((pairs.filter fun e => e.1.1 = it.pkey.toNat &&
      (e.1.2 = it.handle || (e.1.2 = 0 && it.step.isSome))).map Prod.snd).sum
    { it with lost := it.lost + n } }

/-- End a packet that was being forwarded cut-through when its input link died (R387): the rest of it leaves as zero bytes in POISON
flits. -/
def poisonOnward (p : Nat) : Act := fun d =>
  match (d.port p).rx, (d.port p).rxHeader with
  | some r, some h =>
    match r.onward with
    | some o =>
      let n := (declaredBytes r.bytes + 243) / 244
      let s := d.port o
      [.send (.poisonFlits o s.txSeq n h),
       .port o fun s => { s with
        txSeq := (s.txSeq + n) % 8192, txN := s.txN + n, used := addNth s.used (pktVc h) (pktCredits h)
        held := s.held ++ (List.range n).map fun i =>
          (⟨(s.txSeq + i) % 8192, [(h.key.toNat, h.item.toNat)], s.txKph, s.txN + i⟩ : HeldFlit) }]
    | none => []
  | _, _ => []

/-- The flits that a death cuts out of a packet forwarded cut-through (R387). -/
def poisonPairs (s : PortSt) : List ((Nat × Nat) × Nat) :=
  match s.rx, s.rxHeader with
  | some r, some h => if r.onward.isSome then [((h.key.toNat, h.item.toNat), (declaredBytes r.bytes + 243) / 244)] else []
  | _, _ => []

/-- The slices of a link's record, and those with a role at both ends of an X link (R476). -/
def Dev.slicesOnLink (d : Dev) (p : Nat) (pairs : List ((Nat × Nat) × Nat)) : List Nat :=
  (d.slices.filter fun e => match e.2.desc with
    | none => false
    | some s =>
      (pairs.any fun k => k.1.1 = e.2.pkey.toNat) ||
        (p ≤ 1 && (d.isMember s d.here || d.isTransitOn s d.here 0) &&
          (d.isMember s (d.neighbour p) || d.isTransitOn s (d.neighbour p) 0))).map Prod.fst

/-- The LINK event (R567, R568). -/
def linkEvent (p : Nat) : Act := fun d =>
  [.event 5 ([BitVec.ofNat 8 p] ++ leBytes 7 0 ++ leBytes 8 (d.reg .LINK_STATUS p) ++ leBytes 8 (d.reg .LINK_ERR p))]

/-- LINK_DEATH (R384–R388, R476): the flit layer stops, the loss is recorded, what was in reception is discarded, the event is raised, the
slices concerned are fenced, the death is reported to the coordinator, and the module re-parents when the link led to its parent.
(DEDUCED, log 112, 119) -/
def linkDeath (p : Nat) (bit : Fld) : Act := fun d =>
  if d.linkState p = lsDead || d.linkState p = lsDown then [] else
    let s := d.port p
    let own := lostPairs s.held
    let all := own ++ poisonPairs s
    let hit := d.slicesOnLink p all
    inSequence [
      fun _ => flagLink p bit,
      recordLoss p all,
      fun _ => [addLost own],
      poisonOnward p,
      enterLink p lsDead,
      fun d => [setF F.LINK_STATUS_ADMITTED p 0, setF F.LINK_STATUS_FENCE_RX p 0, setF F.LINK_STATUS_FENCE_TX p 0,
        .port p fun s => { s with
          held := [], rx := none, kx := none, nakOut := false, hello := false, rxFence := [], rxDevice := false
          autoStart := d.bit F.LINK_CFG_AUTO p, leafOut := false, silent := false },
        .servo fun s => { s with heard := mapSet (fun _ => (255, 0)) p (255, 0) s.heard }],
      linkEvent p,
      forEach (fun i => fenceSlice i 2) hit,
      faultReport 2 (some p) (hit.map fun i => (d.slice i).pkey),
      parentLost p ] d

/-- A protocol fault (R383). -/
def protocolFault (p : Nat) : Act := linkDeath p F.LINK_ERR_PROTOCOL

/-! ### Acknowledgements and credits (R367, R370) -/

/-- Whether an ACK names a flit that was sent (R370): one still held, or the last one covered. -/
def PortSt.ackOk (s : PortSt) (a : Nat) : Bool :=
  (s.held.any fun h => h.seq = a) ||
    match s.held with
    | h :: _ => (h.seq + 8191) % 8192 = a
    | [] => (s.txSeq + 8191) % 8192 = a

/-- Drop the flits that an ACK covers. -/
def dropHeld (a : Nat) : List HeldFlit → List HeldFlit
  | [] => []
  | h :: hs => if h.seq = a then hs else dropHeld a hs

/-- Take the ACK and the credit count of a good flit's header (R357, R367, R370). -/
def takeHeader (p : Nat) (f : Flit) : Act := fun d =>
  [.port p fun s =>
    let a := f.ack.toNat
    let hit := s.held.any fun h => h.seq = a
    let v := f.cvc.toNat
    let c := nth s.freed v
    { s with
      held := if hit then dropHeld a s.held else s.held, ackAt := if hit then d.now else s.ackAt
      resends := if hit then 0 else s.resends, goodAt := d.now
      freed := if v < 6 then addNth s.freed v ((f.ccnt.toNat + 65536 - c % 65536) % 65536) else s.freed }]

/-- Whether a flit that passed its CRC has a reserved header value (R356, R383), or an ACK that names no flit sent. -/
def headerBad (s : PortSt) (f : Flit) : Bool :=
  f.rsv ≠ 0 || f.cvc = 6 || f.ftype = 0 || 8 ≤ f.ftype.toNat || !s.ackOk f.ack.toNat ||
    (f.ftype ≠ 1 && (f.start ≠ 0 || f.seq ≠ 0 || f.kph || f.enc || f.poison)) ||
    (f.ftype = 1 && 244 ≤ f.start.toNat && f.start ≠ 255)

/-- Whether the flit layer of a port runs (R379). -/
def Dev.flitLayer (d : Dev) (p : Nat) : Bool := 3 ≤ d.linkState p && d.linkState p ≤ 5

/-- Receive an unsequenced flit (R357, R371): one that fails its CRC is discarded and draws no NAK. -/
def unsequenced (p : Nat) (type : Nat) (f : Flit) (k : Act) : Act := fun d =>
  if !d.flitLayer p then [] else
    if !f.crcOk then [setF F.LINK_ERR_CRC p 1]
    else if headerBad (d.port p) f || f.ftype.toNat ≠ type then protocolFault p d
    else inSequence [takeHeader p f, k, fun _ => [.pump]] d

/-! ### Packets from flits (R358, R360) -/

/-- Whether a packet is malformed (R360, R408). -/
def malformed (p : Packet) : Bool :=
  let t := p.ptype.toNat
  let v := pktVc p
  let n := p.payload.length
  let ext := p.ext.headD 0
  t = 0 || 8 ≤ t || 8 ≤ p.vc.toNat || 5 < v || 4 ≤ p.mark.toNat || 4096 ≤ p.dst.toNat || 4096 ≤ p.src.toNat || 4096 ≤ p.pkey.toNat ||
  8192 ≤ p.len.toNat || 4096 < n || p.rsv25 ≠ 0 || 4096 ≤ p.codecTable.toNat || 549755813888 ≤ p.addr.toNat ||
  (p.coded && t ≠ ptWrite) ||
  (if p.coded then !(0x20 ≤ p.container.toNat && p.container.toNat ≤ 0x24)
   else p.container ≠ 0 || p.codecTable ≠ 0 || (p.elems ≠ 0 && t ≠ ptReadReq)) ||
  (p.mirror && (t ≠ ptWrite || v = 2 || v = 3 || v = 4)) ||
  (p.adapt && p.ordered) || (p.adapt && v ≠ 2 && v ≠ 3) || (p.ce && v ≤ 1) || (p.echo ≠ (t = ptCnp)) ||
  (match t with
   | 1 => 1 < v || n ≠ 4096 || !p.hasExt || ext ≠ 1 || p.dst ≠ 0 || p.addr ≠ 0 || p.item ≠ 0
   | 2 => n = 0 || (p.hasExt && ext ≠ 2)
   | 3 => 1 < v || n ≠ 0 || !p.hasExt || ext ≠ 2
   | 4 => v ≠ 5 || n ≠ 0 || p.hasExt
   | 5 => v ≠ 5 || n = 0 || p.hasExt
   | 6 => v ≠ 4 || n = 0 || p.hasExt
   | 7 => (v ≠ 2 && v ≠ 3) || n ≠ 0 || p.hasExt
   | _ => true)

/-- What the payload of a flit gives: the packets that it completes, and the packet that goes on; none on a framing fault. -/
structure Framed where
  done : List RxPacket
  rx : Option RxPacket
  deriving DecidableEq, Repr

/-- Take bytes into the packet in reception: `begun` tells whether a header has begun in this flit (R358). -/
def frame (start : Nat) : Nat → Option RxPacket → Nat → Bool → List Byte → List RxPacket → Option Framed
  | 0, rx, _, _, _, done => some ⟨done, rx⟩
  | fuel + 1, rx, off, begun, bs, done =>
    match bs with
    | [] => if !begun && start ≠ 255 then none else some ⟨done, rx⟩
    | b :: rest =>
      match rx with
      | some r =>
        let need := if 12 ≤ r.bytes.length then declaredBytes r.bytes - r.bytes.length else 12 - r.bytes.length
        let r' : RxPacket := { r with bytes := r.bytes ++ (b :: rest).take need }
        let rest' := (b :: rest).drop need
        let off' := off + min need (rest.length + 1)
        if 12 ≤ r'.bytes.length && declaredBytes r'.bytes ≤ r'.bytes.length then
          frame start fuel none off' begun rest' (done ++ [r'])
        else frame start fuel (some r') off' begun rest' done
      | none =>
        if !begun then
          if start = 255 then (if (b :: rest).all fun x => x = 0 then some ⟨done, none⟩ else none)
          else if start ≠ off then none
          else frame start fuel (some ⟨[], false, none⟩) off true (b :: rest) done
        else if b = 0 then (if rest.all fun x => x = 0 then some ⟨done, none⟩ else none)
        else frame start fuel (some ⟨[], false, none⟩) off true (b :: rest) done

/-- Whether a packet that arrives on a port is of a scope that a received fence names (R378). -/
def PortSt.rxFenced (s : PortSt) (p : Packet) : Bool := pktVc p ≤ 3 && (s.rxDevice || s.rxFence.contains p.key)

/-- Take a whole packet (R361, R378, R387): void and fenced packets are discarded, the others routed.
(DESIGN CHOICE, log 111) -/
def takePacket (p : Nat) (r : RxPacket) : Act := fun d =>
  let pkt := packetOfBytes r.bytes
  let count : Upd := .port p fun s => { s with oldRx := countEpoch pkt.epoch s.oldRx }
  let free : Upd := .port p fun s => { s with rxFreed := addNth s.rxFreed (pktVc pkt) (pktCredits pkt) }
  if malformed pkt then protocolFault p d
  else if r.void || (d.port p).rxFenced pkt || (pktVc pkt ≤ 3 && d.mode = stSafe) then [count, free]
  else [count, .routed ⟨some p, pkt⟩]

/-- Note the port on which a packet in reception goes on cut-through, once its header is here and nothing is ahead of it (R404). -/
def noteOnward (p : Nat) : Act := fun d =>
  match (d.port p).rxHeader with
  | none => []
  | some h =>
    match d.nextHop ⟨some p, h⟩ with
    | .out o vc =>
      if (d.port o).queue.isEmpty && d.mayStart o ⟨some p, { h with vc := BitVec.ofNat 8 vc }⟩ then
        [.port p fun s => { s with rx := s.rx.map fun r => { r with onward := some o } }]
      else []
    | _ => []

/-! ### DATA flits (R371, R374, R375, R382) -/

/-- The degradation window (R382): a port is degraded while failures exceed DEG_RATE in 2^24 DATA flits. -/
def countFailure (p : Nat) : Act := fun d =>
  let n := (d.port p).badFlits + 1
  let rate := d.fld F.LINK_CFG_DEG_RATE p
  let bad : Bool := rate ≠ 0 && rate < n
  inSequence [
    fun _ => [.port p fun s => { s with badFlits := n }, setF F.LINK_ERR_CRC p 1],
    onlyIf (bad && !d.bit F.LINK_STATUS_DEGRADED p) (inSequence [
      fun _ => [setF F.LINK_STATUS_DEGRADED p 1, setF F.LINK_ERR_DEGRADED p 1],
      linkEvent p ]),
    onlyIf (bad && d.bit F.LINK_CFG_DEG_DEAD p) (linkDeath p F.LINK_ERR_DEGRADED) ] d

/-- Count an accepted DATA flit; a window ends after 2^24 (R382). -/
def countAccepted (p : Nat) (f : Flit) : Act := fun d =>
  let s := d.port p
  let wrap : Bool := 16777215 ≤ s.windowFlits
  [.port p fun s => { s with
      rxSeq := (s.rxSeq + 1) % 8192, nakOut := false, windowFlits := if wrap then 0 else s.windowFlits + 1
      badFlits := if wrap then 0 else s.badFlits, rxOld := if f.kph = s.rxKph then min 4096 (s.rxOld + 1) else s.rxOld
      rxN := s.rxN + 1 },
   addF F.LINK_FLITS_RX p 1] ++
  (if wrap && d.bit F.LINK_STATUS_DEGRADED p && s.badFlits ≤ d.fld F.LINK_CFG_DEG_RATE p
    then [setF F.LINK_STATUS_DEGRADED p 0] else [])

/-- A NAK naming the SEQ expected (R371). -/
def sendNak (p : Nat) : Act := fun d =>
  [.send (.nakFlit p (d.port p).rxSeq), .port p fun s => { s with nakOut := true }]

/-- Whether a DATA flit breaks R374 or R375: ENC clear in UP or set before it, or a key phase that is not held. -/
def encBad (up : Bool) (s : PortSt) (f : Flit) : Bool :=
  f.enc ≠ up || (f.kph ≠ s.rxKph && 4096 ≤ s.rxOld)

/-- DATA_FLIT_RECEIVE (R358, R371, R374, R382). -/
def dataFlitReceiveAct (p : Nat) (f : Flit) : Act := fun d =>
  let s := d.port p
  let up : Bool := d.linkState p = lsUp
  if d.linkState p ≠ lsKeying && !up then []
  else if !f.crcOk then
    inSequence [countFailure p, fun d => onlyIf (d.flitLayer p && (!s.nakOut || f.seq.toNat = s.rxSeq)) (sendNak p) d] d
  else if headerBad s f || f.ftype ≠ 1 then protocolFault p d
  else
    inSequence [
      takeHeader p f,
      fun d =>
        if f.seq.toNat ≠ s.rxSeq then onlyIf (!s.nakOut) (sendNak p) d
        else if encBad up s f then protocolFault p d
        else
          let rx := if f.poison then s.rx.map fun r => { r with void := true } else s.rx
          match frame f.start.toNat 1024 rx 0 false f.payload [] with
          | none => protocolFault p d
          | some g =>
            inSequence [
              countAccepted p f,
              fun _ => [.port p fun s => { s with rx := g.rx.map fun r => if f.poison then { r with void := true } else r }],
              forEach (takePacket p) g.done,
              noteOnward p ] d,
      fun _ => [.pump] ] d

/-! ### CTRL, NAK and retry (R367, R368, R372) -/

/-- CTRL_FLIT_RECEIVE (R357, R367): the six credit counters. -/
def ctrlFlitReceiveAct (p : Nat) (f : Flit) : Act :=
  unsequenced p 2 f fun _ =>
    [.port p fun s => { s with freed := (List.range 6).map fun v => leNat ((f.payload.drop (4 * v)).take 4) }]

/-- CTRL_FLIT_DUE (R368): a CTRL flit with the counts of credits freed leaves. -/
def ctrlFlitDueAct (p : Nat) : Act := fun d =>
  if d.flitLayer p then [.send (.ctrlFlit p ((List.range 6).map fun v => nth (d.port p).rxFreed v))] else []

/-- Resend every held flit from one on (R372, R384): one episode; REPLAY_MAX resends from one SEQ end the link. -/
def resendFrom (p : Nat) (seq : Nat) : Act := fun d =>
  let s := d.port p
  let n := (s.held.dropWhile fun h => h.seq ≠ seq).length
  let again := if s.resendSeq = seq then s.resends + 1 else 1
  if d.fld F.LINK_CFG_REPLAY_MAX p ≤ again then linkDeath p F.LINK_ERR_REPLAY_MAX d
  else
    [.port p fun s => { s with resends := again, resendSeq := seq, ackAt := d.now }, addF F.LINK_RETRY_EPISODES p 1,
     addF F.LINK_RETRY_FLITS p n, .send (.resendFlits p seq n)]

/-- NAK_FLIT_RECEIVE (R372): a NAK of a SEQ that is not held is a protocol fault. -/
def nakFlitReceiveAct (p : Nat) (f : Flit) : Act :=
  unsequenced p 3 f fun d =>
    let e := leNat (f.payload.take 2) % 8192
    if (d.port p).held.any fun h => h.seq = e then resendFrom p e d else protocolFault p d

/-- REPLAY_TIMEOUT (R372): no ACK progress for REPLAY_TO ns. -/
def replayTimeoutAct (p : Nat) : Act := fun d =>
  match (d.port p).held with
  | h :: _ =>
    if d.flitLayer p && (d.port p).ackAt + d.fld F.LINK_CFG_REPLAY_TO p ≤ d.now then resendFrom p h.seq d else []
  | [] => []

/-! ### FENCE flits (R377, R378, R431, R461) -/

/-- The receiving side of a fence: later packets of its scope are discarded, the one in progress too. -/
def receiveFence (p : Nat) (device : Bool) (pkey : BitVec 12) : Upd :=
  .port p fun s =>
    let hit : Bool := s.rxHeader.any fun h => pktVc h ≤ 3 && (device || h.key = pkey)
    { s with
      rxDevice := s.rxDevice || device, rxFence := if device || s.rxFence.contains pkey then s.rxFence else s.rxFence ++ [pkey]
      rx := s.rx.map fun r => if hit then { r with void := true } else r }

/-- The slices of the map with a role for a coordinate. -/
def Dev.slicesOf (d : Dev) (c : Coord) : List Nat :=
  (d.slices.filter fun e => match e.2.desc with
    | some s => d.isMember s c || d.isTransit s c
    | none => false).map Prod.fst

/-- FENCE_FLIT_RECEIVE (R378, R431, R461): the port discards the scope; a member or transit module of the slice fences it and sends the
fence on; a DEVICE fence fences every slice with a role at the module of that port. -/
def fenceFlitReceiveAct (p : Nat) (f : Flit) : Act :=
  unsequenced p 5 f fun d =>
    let scope := leNat (f.payload.take 1)
    let pkey : BitVec 12 := BitVec.ofNat 12 (leNat ((f.payload.drop 2).take 2))
    if scope = 1 then
      inSequence [
        fun _ => [receiveFence p false pkey, setF F.LINK_STATUS_FENCE_RX p 1],
        fun d => match d.sliceOf pkey with
          | some i => onlyIf (d.memberHere (d.slice i) || d.transitHere (d.slice i)) (fenceSlice i 0) d
          | none => [] ] d
    else if scope = 2 then
      inSequence [
        fun _ => [receiveFence p true 0, setF F.LINK_STATUS_FENCE_RX p 1],
        fun d => forEach (fun i => fenceSlice i 0) (d.slicesOf (d.neighbour p)) d ] d
    else protocolFault p d

/-- FENCE_FLIT_RESEND (R377): every fence in force is sent again. -/
def fenceFlitResendAct (p : Nat) : Act := fun d =>
  if d.linkState p ≠ lsUp then [] else
    (d.slices.filter fun e => e.2.fenced).map (fun e => Upd.send (.fence p false e.2.pkey d.gcnt)) ++
      (if d.mode = stSafe then [.send (.fence p true 0 d.gcnt)] else [])

/-! ### HELLO (R381) -/

/-- The payload of a HELLO flit (R381). -/
def helloPayload (d : Dev) (p : Nat) : List Byte :=
  [BitVec.ofNat 8 p,
   BitVec.ofNat 8 (d.fld F.DEV_COORD_VALID + 2 * (if d.start.seed then 1 else 0))] ++ leBytes 2 d.here.toNat ++ leBytes 4 0 ++
  leBytes 8 (d.reg .SEC_UID) ++ (ownBuffers p).flatMap (leBytes 4) ++ leBytes 4 (Config.deskew p).toNat ++ leBytes 200 0

/-- HELLO_FLIT_SEND (R379, R381). -/
def helloFlitSendAct (p : Nat) : Act := fun d =>
  if d.linkState p = lsHello then [.send (.helloFlit p (helloPayload d p))] else []

/-- HELLO_FLIT_RECEIVE (R381, R393, R394). -/
def helloFlitReceiveAct (p : Nat) (f : Flit) : Act :=
  unsequenced p 7 f fun d =>
    if d.linkState p ≠ lsHello then [] else
      let b := fun (off n : Nat) => leNat ((f.payload.drop off).take n)
      let asym : Int := ((Config.deskew p).toNat - (b 40 4 : Int)) / 2
      [setF F.LINK_PEER_VALID p 1, setF F.LINK_PEER_PORT p (b 0 1 % 8), setF F.LINK_PEER_COORD p (b 2 2 % 4096),
       setF F.LINK_PEER_COORD_V p (b 1 1 % 2), setF F.LINK_PEER_SEED p (b 1 1 / 2 % 2), setF F.LINK_PEER_UID_LO p (b 8 4),
       setF F.LINK_LAT_ASYM p (BitVec.ofInt 32 asym).toNat,
       .port p fun s => { s with
        hello := true, peerUid := BitVec.ofNat 64 (b 8 8), cap := (List.range 6).map fun v => b (16 + 4 * v) 4 }]

/-! ### Bring-up (R379, R390) -/

/-- Start bring-up of a port (R379): held DOWN while ENABLE is clear, on an axis of length 1 (R398), and while RESET_N is low. -/
def startTrain (p : Nat) : Act := fun d =>
  let short : Bool := d.bit F.DEV_COORD_VALID && d.axis (portAxis p) = 1
  if (d.linkState p = lsDown || d.linkState p = lsDead) && d.bit F.LINK_CTL_ENABLE p && !short then
    inSequence [enterLink p lsTrain, fun _ => [.port p fun s => { s with autoStart := false }]] d
  else []

/-- LINK_TRAIN_DONE (R379).
(DESIGN CHOICE, log 107) -/
def linkTrainDoneAct (p : Nat) : Act := fun d => onlyIf (d.linkState p = lsTrain) (enterLink p lsAlign) d

/-- LINK_ALIGN_DONE (R379): HELLO begins with SEQ and credits at zero. -/
def linkAlignDoneAct (p : Nat) : Act := fun d =>
  onlyIf (d.linkState p = lsAlign) (inSequence [
    enterLink p lsHello,
    fun d => [setF F.LINK_STATUS_DEGRADED p 0, .port p fun s => { s with
      cap := [], used := [], freed := [], rxFreed := [], txSeq := 0, rxSeq := 0, held := [], resends := 0, nakOut := false,
      rx := none, hello := false, goodAt := d.now, badFlits := 0, windowFlits := 0, txKph := false, rxKph := false, txN := 0,
      rxN := 0, rxOld := 4096 }] ]) d

/-- The bytes of a key exchange message.
(DESIGN CHOICE, log 115) -/
def kxBytes (m : KxHello) : List Byte := m.random ++ m.kem ++ m.ecdh

/-- Whether this end has the lower UID and so initiates (R605). -/
def Dev.initiates (d : Dev) (p : Nat) : Bool := d.reg .SEC_UID < (d.port p).peerUid.toNat

/-- Begin a key exchange (R605): the initiator sends KX_HELLO. -/
def beginKx (p : Nat) (rekey : Bool) : Act := fun d =>
  if d.initiates p then
    let (kem, ecdh) := Config.kxPart d.freeCtr []
    let m : KxHello := ⟨Config.random d.freeCtr 32, kem, ecdh⟩
    [.drawFree, .send (.portMsg p (.kxHello m)),
     .port p fun s => { s with kx := some ⟨kxBytes m, false, false, rekey⟩ }]
  else [.port p fun s => { s with kx := some ⟨[], false, false, rekey⟩ }]

/-- LINK_HELLO_DONE (R379, R394): both HELLOs and the exchanges are done; the latency is kept and KEYING begins. On an X port the hop
latency enters RING_HOP of the contexts. -/
def linkHelloDoneAct (p latNs hopNs : Nat) : Act := fun d =>
  onlyIf (d.linkState p = lsHello && (d.port p).hello) (inSequence [
    enterLink p lsKeying,
    fun _ => [setF F.LINK_LAT_LAT p latNs] ++
      (match p with
       | 0 => [0, 1, 2, 3].map fun k => setF F.RING_HOP_HOP_CW k hopNs
       | 1 => [0, 1, 2, 3].map fun k => setF F.RING_HOP_HOP_CCW k hopNs
       | _ => []),
    beginKx p false ]) d

/-- LINK_BRINGUP_TIMEOUT (R379): the port returns to DOWN; with AUTO it starts again after 10 ms. -/
def linkBringupTimeoutAct (p : Nat) : Act := fun d =>
  match linkBound (d.linkState p) with
  | none => []
  | some b =>
    if d.expired (d.port p).enteredAt b then
      inSequence [enterLink p lsDown, fun d => [setF F.LINK_ERR_LOCK p 1,
        .port p fun s => { s with autoStart := d.bit F.LINK_CFG_AUTO p, kx := none }]] d
    else []

/-- LINK_AUTO_RETRAIN (R379, R606). -/
def linkAutoRetrainAct (p : Nat) : Act := fun d =>
  let s := d.port p
  onlyIf (s.autoStart && s.kxFails < 3 && d.expired s.enteredAt 10000) (startTrain p) d

/-- A write of LINK_CTL (R390): clearing ENABLE on a port that is not DOWN is a death first and holds it DOWN; KILL is a death; RETRAIN
starts bring-up from DOWN or DEAD; setting ENABLE on a DOWN port lets it train.
(DEDUCED, log 113) -/
def writeLinkCtl (p : Nat) (val : BitVec 64) : Act := fun d =>
  let en : Bool := bitOf val 0
  inSequence [
    fun _ => [setB F.LINK_CTL_ENABLE p en],
    onlyIf (!en && d.linkState p ≠ lsDown) (inSequence [linkDeath p F.LINK_ERR_KILLED, enterLink p lsDown,
      fun _ => [.port p fun s => { s with autoStart := false }]]),
    onlyIf (en && bitOf val 2) (linkDeath p F.LINK_ERR_KILLED),
    onlyIf (en && bitOf val 1) (inSequence [fun _ => [.port p fun s => { s with kxFails := 0 }], startTrain p]),
    onlyIf (en && !d.bit F.LINK_CTL_ENABLE p && d.linkState p = lsDown) (startTrain p),
    fun d => [.power fun w => { w with quietAt := d.now }] ] d

/-- SILENCE_TIMEOUT (R384): loss of lock, or no good flit, for SILENCE_TO µs. -/
def silenceTimeoutAct (p : Nat) (lossOfLock : Bool) : Act := fun d =>
  if !d.flitLayer p then [] else
    if lossOfLock then linkDeath p F.LINK_ERR_LOCK d
    else if d.expired (d.port p).goodAt (d.fld F.LINK_CFG_SILENCE_TO p) then linkDeath p F.LINK_ERR_SILENCE d
    else []

/-- KEY_PHASE_EXHAUSTED (R375, R607): n has reached 2^47 without a key update. -/
def keyPhaseExhaustedAct (p : Nat) : Act := fun d =>
  onlyIf (d.linkState p = lsUp && 140737488355328 ≤ (d.port p).txN) (protocolFault p) d

/-! ### Link keys (R605–R607) -/

/-- A failed exchange (R606, R607): a protocol fault; after three in a row AUTO is ignored until RETRAIN. -/
def kxFail (p : Nat) : Act := fun d =>
  let n := (d.port p).kxFails + 1
  inSequence [
    fun _ => flagSec F.SEC_ERR_LINK_AUTH,
    protocolFault p,
    fun _ => [.port p fun s => { s with kxFails := n, autoStart := s.autoStart && n < 3 }] ] d

/-- Whether a key exchange is open on a port: in KEYING, or a rekey in UP. -/
def Dev.keyOpen (d : Dev) (p : Nat) : Bool :=
  d.linkState p = lsKeying || (d.linkState p = lsUp && (d.port p).kx.any fun k => k.rekey)

/-- KX_HELLO (R605): the responder answers with KX_REPLY and its KX_AUTH. In UP it opens a rekey. -/
def kxHelloAct (p : Nat) (m : KxHello) : Act := fun d =>
  if !(d.linkState p = lsKeying || d.linkState p = lsUp) || d.initiates p then [] else
    let (kem, ecdh) := Config.kxPart d.freeCtr (kxBytes m)
    let reply : KxHello := ⟨Config.random d.freeCtr 32, kem, ecdh⟩
    [.drawFree, .send (.portMsg p (.kxReply reply)), .send (.portMsg p (.kxAuth 0x52)),
     .port p fun s => { s with kx := some ⟨kxBytes m ++ kxBytes reply, true, false, d.linkState p = lsUp⟩ }]

/-- KX_REPLY (R605): the initiator has the transcript and sends its KX_AUTH. -/
def kxReplyAct (p : Nat) (m : KxHello) : Act := fun d =>
  match (d.port p).kx with
  | some k =>
    if d.keyOpen p && d.initiates p && !k.replied then
      [.send (.portMsg p (.kxAuth 0x49)),
       .port p fun s => { s with kx := some { k with transcript := k.transcript ++ kxBytes m, replied := true } }]
    else []
  | none => []

/-- The role byte of this end, and of the peer (R605). -/
def Dev.kxRole (d : Dev) (p : Nat) : Nat := if d.initiates p then 0x49 else 0x52
def Dev.peerRole (d : Dev) (p : Nat) : Nat := if d.initiates p then 0x52 else 0x49

/-- KX_AUTH (R606): certificates and signatures of the peer; accepted, the own KX_DONE goes out.
(DEDUCED, log 114) -/
def kxAuthAct (p : Nat) (a : KxAuth) : Act := fun d =>
  match (d.port p).kx with
  | some k =>
    if !d.keyOpen p || !k.replied then []
    else if a.rsaOk && a.slhOk && a.chainsOk && a.uid = (d.port p).peerUid then
      [.send (.portMsg p (.kxDone (Config.kxConfirm k.transcript (d.kxRole p)))),
       .port p fun s => { s with kx := some { k with authOk := true } }]
    else kxFail p d
  | none => []

/-- A port is admitted when the mask of the current version names it and the link has not died since that version took effect (R380,
R412): a link that has died is in the fault map, and the flip that admits it again sets the bit.
(DEDUCED, log 166) -/
def admitPort (p : Nat) : Act := fun d =>
  match d.table d.epoch with
  | some v => onlyIf (d.linkState p = lsUp && d.maskBit v p && d.fld F.LINK_ERR_FAULTS p = 0)
      (fun _ => [setF F.LINK_STATUS_ADMITTED p 1]) d
  | none => []

/-- The port comes UP in key phase 0 (R379, R606); a link that the fault map lists is reported to the coordinator as restored. -/
def comeUp (p : Nat) : Act := fun d =>
  inSequence [
    enterLink p lsUp,
    fun d => [.port p fun s => { s with kx := none, kxFails := 0, goodAt := d.now, heardAt := d.now, silent := false }],
    admitPort p,
    onlyIf (d.linkDead d.route.fmap d.here p) (fun d =>
      [.send (.mgmt d.coordinator (.faultReport 0 d.here (some p) []))]),
    fun _ => [.pump] ] d

/-- The new key phase of a rekey (R607): KPH toggles, n starts at 0, and the receiver keeps the old key for 4,096 flits. -/
def newPhase (p : Nat) : Act := fun _ =>
  [.port p fun s => { s with kx := none, kxFails := 0, txKph := !s.txKph, rxKph := !s.rxKph, txN := 0, rxN := 0, rxOld := 0 }]

/-- The link part of KX_DONE (R606, R607): the peer's confirmation is checked. -/
def kxDoneLink (p : Nat) (mac : List Byte) : Act := fun d =>
  match (d.port p).kx with
  | some k =>
    if !d.keyOpen p || !k.authOk then []
    else if mac = Config.kxConfirm k.transcript (d.peerRole p) then (if k.rekey then newPhase p else comeUp p) d
    else kxFail p d
  | none => []

/-- REKEY_START (R607): n has reached 2^REKEY_EXP in the phase. -/
def rekeyStartAct (p : Nat) : Act := fun d =>
  onlyIf (d.linkState p = lsUp && (d.port p).kx.isNone && 2 ^ d.fld F.SEC_CFG_REKEY_EXP ≤ (d.port p).txN) (beginKx p true) d

end Sys2Proof.Machine
end

