-- ==== Sys2Proof/Machine/Cores.lean ====
section
/-! DEFINITION. The matrix arrays, the thin path, the vector unit and the special-function unit of a core (02, R287–R290): issue
and placement, operands in the scratchpad, fold and accumulation, completion, dummy operations and bank drains. -/

namespace Sys2Proof.Machine

/-! ### Array widths and modes (R85–R91) -/

/-- The width of array A or B: 16, 15, 14, or 0 when retired (R109). -/
def Dev.arrayWidth (d : Dev) (c : Nat) (b : Bool) : Nat :=
  if b then d.fld F.CORE_ARRAYW_WIDTH_B c else d.fld F.CORE_ARRAYW_WIDTH_A c

/-- Whether an array is in bit-serial mode (R110). -/
def Dev.bitSerial (d : Dev) (c : Nat) (b : Bool) : Bool :=
  if b then d.fld F.CORE_ARRAYMODE_MODE_B c = 1 else d.fld F.CORE_ARRAYMODE_MODE_A c = 1

/-- The geometry that fixes how a core runs a tile operation. -/
structure Geom where
  widthA : Nat
  widthB : Nat
  serialA : Bool
  serialB : Bool
  deriving DecidableEq, Repr

/-- The geometry of a core. -/
def Dev.geom (d : Dev) (c : Nat) : Geom :=
  ⟨d.arrayWidth c false, d.arrayWidth c true, d.bitSerial c false, d.bitSerial c true⟩

def Geom.width (g : Geom) (b : Bool) : Nat := if b then g.widthB else g.widthA
def Geom.serial (g : Geom) (b : Bool) : Bool := if b then g.serialB else g.serialA

/-! ### Placement (R99, R102, R288) -/

/-- The unit that runs a TILE. -/
inductive TileUnit where
  | none | vector | thin | arrays
  deriving DecidableEq, Repr

/-- The unit of a shape with elements, K aside (R99). -/
def shapeUnit (g : Geom) (t : TileFields) : TileUnit :=
  if t.m = 1 || t.n = 1 || t.unit = 2 || (t.unit = 0 && t.m ≤ 15) || (g.widthA = 0 && g.widthB = 0) then .thin else .arrays

/-- The unit of a TILE (R102, R288).
(DEDUCED, log 56) -/
def tileUnit (g : Geom) (t : TileFields) (cont : Bool) : TileUnit :=
  if t.m = 0 || t.n = 0 then .none
  else if t.k = 0 then (if t.hold then .none else if cont then shapeUnit g t else .vector)
  else shapeUnit g t

/-- The array that takes row `m`: rows alternate, in blocks of 128 when both arrays are bit-serial; a retired array takes none
(R72, R89, R92). -/
def rowArray (g : Geom) (m : Nat) : Bool :=
  if g.widthB = 0 then false
  else if g.widthA = 0 then true
  else if g.serialA && g.serialB then m / 128 % 2 = 1
  else m % 2 = 1

/-- The rows that an array holds of an operation. -/
def arrayRows (g : Geom) (m : Nat) (b : Bool) : Nat := ((List.range m).filter fun i => rowArray g i = b).length

/-- Whether an array runs an operation in the wide form (R97, R101). -/
def isWide (g : Geom) (t : TileFields) (b : Bool) : Bool := t.wide && g.width b = 16 && !g.serial b

/-- Weights of one cell (R132); a bit-serial lane holds one (R136). -/
def cellWeights (g : Geom) (t : TileFields) (unit : TileUnit) (b : Bool) : Nat :=
  if unit = .arrays && g.serial b then 1 else weightsPerCell t.wfmt t.xfmt

/-- K-rows of a K-block (R133, R135, R136).
(DEDUCED, log 52) -/
def kBlock (g : Geom) (t : TileFields) (unit : TileUnit) (b : Bool) : Nat :=
  (if unit = .arrays && isWide g t b then 4 else 16) * cellWeights g t unit b

/-- Whether a column's sums run in the thin path's order (R87, R135). -/
def treeOrder (g : Geom) (t : TileFields) (unit : TileUnit) (b : Bool) (j : Nat) : Bool :=
  unit = .thin || (!g.serial b && !isWide g t b && g.width b ≤ j % 16)

/-- Whether an operation on the arrays gives fold work to the thin path (R87, R88). -/
def foldsWork (g : Geom) (t : TileFields) : Bool :=
  [false, true].any fun b => 0 < arrayRows g t.m b && !g.serial b && !isWide g t b && g.width b < 16 &&
    (List.range ((t.n + 15) / 16)).any fun nb => g.width b < min 16 (t.n - 16 * nb)

/-! ### Operand layout (R126, R251, R287) -/

/-- Bytes of `n` unscaled elements stored from byte 0 (R118, R122, R123). -/
def elemBytes (code n : Nat) : Nat :=
  n / 256 * unitBytes code +
    (if code = 0x0E then (n % 256 + 4) / 5 else (n % 256 * elemBits code + 7) / 8)

/-- Bytes of a matrix: unscaled, blocks of 16 columns, each holding its rows in order; scaled, rows in units of 256. -/
def matBytes (code : Nat) (scaled : Bool) (rows cols : Nat) : Nat :=
  if scaled then rows * ((cols + 255) / 256) * unitSize code true
  else elemBytes code (16 * rows * ((cols + 15) / 16))

/-- Where element `(i, k)` of a matrix lies: its unit and its place in the unit.
(DEDUCED, log 51) -/
def matPos (scaled : Bool) (rows cols i k : Nat) : Nat × Nat :=
  if scaled then (i * ((cols + 255) / 256) + k / 256, k % 256)
  else
    let p := 16 * (rows * (k / 16) + i) + k % 16
    (p / 256, p % 256)

/-- Element `(i, k)` of a matrix in the scratchpad. -/
def matElem (code : Nat) (scaled ftz : Bool) (rows cols : Nat) (bs : List Byte) (i k : Nat) : Val :=
  let (u, e) := matPos scaled rows cols i k
  let n := unitSize code scaled
  unitElem code scaled ftz ((bs.drop (u * n)).take n) e

/-- Words of one weight tile (R251). -/
def tileWords (t : TileFields) : Nat := (unitSize t.wfmt t.sclW + 63) / 64

/-- Tiles of an operation: 16 by 16 each, N-blocks ascending, K-blocks ascending within one (R82). -/
def tileCount (t : TileFields) : Nat := (t.k + 15) / 16 * ((t.n + 15) / 16)

/-- Weight `(k, j)`: row-major within its tile (R126). -/
def weightElem (t : TileFields) (ftz : Bool) (bs : List Byte) (k j : Nat) : Val :=
  let u := j / 16 * ((t.k + 15) / 16) + k / 16
  unitElem t.wfmt t.sclW ftz ((bs.drop (u * tileWords t * 64)).take (unitSize t.wfmt t.sclW)) (16 * (k % 16) + j % 16)

/-- Whether packed TERN storage holds an invalid byte (R124). -/
def ternBad (code : Nat) (bs : List Byte) (stride : Nat) : Bool :=
  code = 0x0E && (chunksOf bs.length stride bs).any fun u => ternInvalid u

/-! ### Accumulation (R132–R136) -/

/-- The cells of a K-block `[k0, k1)` for one output: weights of a cell combined exactly, masked rows absent (R83, R132). -/
def blockCells (t : TileFields) (a : Arith) (int : Bool) (w : Nat) (x y : Nat → Val) (k0 k1 : Nat) : List (Option Val) :=
  (List.range ((k1 - k0 + w - 1) / w)).map fun r =>
    combineTerms t.func ((List.range (min w (k1 - k0 - r * w))).map fun q =>
      cellTerm t.func a int (x (k0 + r * w + q)) (y (k0 + r * w + q)))

/-- The bank entry of output `(i, j)` after the operation's K-blocks, from an earlier entry if any (R134). -/
def accumulate (g : Geom) (t : TileFields) (unit : TileUnit) (a : Arith) (int : Bool) (start : Option Val) (i j : Nat)
    (x y : Nat → Val) : Option Val :=
  let b := rowArray g i
  let kb := kBlock g t unit b
  (List.range ((t.k + kb - 1) / kb)).foldl (fun e q =>
    let cells := blockCells t a int (cellWeights g t unit b) x y (q * kb) (min t.k ((q + 1) * kb))
    let s := if treeOrder g t unit b j then treeSum t.func a int cells else columnSum t.func a int cells
    some (bankAdd t.func a int e s)) start

/-- A bank entry as 32 bits. -/
def entryBits (int : Bool) (v : Val) : BitVec 32 :=
  if int then BitVec.ofInt 32 v.toInt else BitVec.ofNat 32 (fmtFp32.encode v)

/-- A bank entry from 32 bits. -/
def entryVal (int : Bool) (x : BitVec 32) : Val := if int then valOf x.toInt 0 else fp32 x

/-! ### Operands -/

/-- An operand read: its words, its bytes, and the pointer advances of a consumed region. -/
structure OpRead where
  ws : List Nat
  bs : List Byte
  adv : List Upd

/-- SIDE of a region as an operation in a queue resolved it (R284). -/
def UnitOp.sideOf (op : UnitOp) (r : Nat) : Bool := mapGet (fun _ => false) op.side r

/-- The words of an operand of a LINEAR or DOUBLE region (R244, R287). -/
def plainWords (d : Dev) (c : Nat) (op : UnitOp) (r off bytes : Nat) (write : Bool) : List Nat :=
  let base := match d.regionKind c r with
    | .double => d.halfBase c r (some (if write then op.sideOf r else !op.sideOf r))
    | _ => d.regBase c r
  spanWords (base + off) bytes

/-- Read `bytes` of a source operand: from the head of a QUEUE, advancing it where the unit is the consumer, none while it holds
too little (R197–R199, R287); otherwise from its place. -/
def readOperand (d : Dev) (c : Nat) (op : UnitOp) (r off bytes : Nat) (consumer : Nat → Bool) : Option OpRead :=
  if bytes = 0 then some ⟨[], [], []⟩
  else if d.regionKind c r = .queue then
    let n := (bytes + 63) / 64
    let ws := d.ringWords c r (d.fld F.SPM_REGION_HEAD (regionIx c r)) n
    if consumer (d.regCons c r) || d.regProd c r = 8 then
      if d.regionOcc c r < n then none else some ⟨ws, d.readWords c ws, advanceHead d c r n⟩
    else some ⟨ws, d.readWords c ws, []⟩
  else
    let ws := plainWords d c op r off bytes false
    some ⟨ws, d.readWords c ws, []⟩

/-- Where a result goes: its words and the pointer advances, none while a QUEUE lacks room (R198). -/
def destWords (d : Dev) (c : Nat) (op : UnitOp) (r off bytes : Nat) (producer : Nat → Bool) : Option (List Nat × List Upd) :=
  if d.regionKind c r = .queue then
    let n := (bytes + 63) / 64
    let ws := d.ringWords c r (d.fld F.SPM_REGION_TAIL (regionIx c r)) n
    if producer (d.regProd c r) then
      if d.regionRoom c r < n then none else some (ws, advanceTail d c r n)
    else some (ws, [])
  else some (plainWords d c op r off bytes true, [])

/-- Engine codes that consume for a TILE and that produce its output (R188): the feeders, the thin path and the drain of banks.
(DEDUCED, log 58) -/
def tileEngine (e : Nat) : Bool := e = 1 || e = 2 || e = 3 || e = 6
/-- The vector unit's engine code. -/
def vecEngine (e : Nat) : Bool := e = 4

/-! ### Parity (R194, R195) -/

/-- A parity error on a read: recorded, and the step is abandoned at every module of the slice; the same word again in the
re-run of the step makes the core faulty, a module fault. -/
def parityError (c w eng : Nat) : Act := fun d =>
  let log := [addF F.SPM_PERR_COUNT c 1, setF F.SPM_PERR_ENGINE c eng, setF F.SPM_PERR_WORD c w]
  match d.coreSlice c with
  | none => log
  | some i =>
    let s := d.slice i
    let r := s.repeats.at s.nextStep
    if r.parity.contains (c, w) then inSequence [fun _ => log, faultSlice i 3, moduleFault 4] d
    else inSequence [
      fun _ => log ++ [.slice i fun s => { s with repeats := { r with parity := r.parity ++ [(c, w)] } }],
      faultSlice i 1 ] d

/-- Read words before an act: a parity error takes the act's place (R194).
(DEDUCED, log 60) -/
def withParity (c eng : Nat) (ws : List Nat) (act : Act) : Act := fun d =>
  match d.parityBad c ws with
  | some w => parityError c w eng d
  | none => act d

/-! ### Issue of TILE -/

/-- The uses of a TILE (R284): X and W when it runs a K-block, C and the output when it has an output stage. -/
def tileUses (d : Dev) (c : Nat) (t : TileFields) (unit : TileUnit) : List RegUse :=
  if unit = .none then [] else
    (if t.k = 0 then [] else d.useOf c t.xreg false ++ d.useOf c t.wreg false) ++
    (if t.hold then [] else (if t.cuse then d.useOf c t.creg false else []) ++ d.useOf c t.oreg true)

/-- SIDE bits of regions at issue. -/
def sidesAt (cs : CoreSt) (rs : List Nat) : SMap Bool :=
  rs.foldl (fun m r => mapSet (fun _ => false) r (cs.side r) m) []

/-- Discard the sums of a chain that no queued operation still adds to (R288). -/
def dropChain (chain : Nat) (cs : CoreSt) : CoreSt :=
  if (cs.tileQ ++ cs.thinQ ++ cs.vecQ).any fun o => o.chain = chain && o.cont then cs
  else { cs with banks := mapDel chain cs.banks }

/-- Elements that a TILE converts under stochastic rounding (R502). -/
def tileDraws (t : TileFields) : Nat :=
  if (arithOf t.arith).stoch && !t.hold then t.m * t.n else 0

/-- End the dummy operations of an array that has a valid row, and ungate it (R105).
(DESIGN CHOICE, log 54) -/
def endDummy (c : Nat) (b : Bool) : Act := fun d =>
  let cs := d.core c
  match (if b then cs.dummyB else cs.dummyA) with
  | none => []
  | some t =>
    [addF F.CORE_DUMMY_CYCLES c (d.cycles (min 200 (d.now - t))),
     setF (if b then F.CORE_STATUS_DUMMY_B else F.CORE_STATUS_DUMMY_A) c 0,
     .core c fun cs => if b then { cs with dummyB := none } else { cs with dummyA := none }]

/-- An array that has valid rows. -/
def startArray (c : Nat) (g : Geom) (t : TileFields) (b : Bool) : Act := fun d =>
  if arrayRows g t.m b = 0 then [] else
    inSequence [endDummy c b, fun _ =>
      [setF (if b then F.CORE_STATUS_BUSY_B else F.CORE_STATUS_BUSY_A) c 1,
       setB (if b then F.CORE_STATUS_WIDE_B else F.CORE_STATUS_WIDE_A) c (isWide g t b), setF F.CORE_STATUS_GATED c 0]] d

/-- Whether a TILE on the arrays leaves missing columns to the thin path (R88). -/
def tileFolds (g : Geom) (t : TileFields) (unit : TileUnit) : Bool := unit = .arrays && 0 < t.k && foldsWork g t

/-- Whether the queues that a TILE enters have room (R283).
(DEDUCED, log 57) -/
def tileRoom (cs : CoreSt) (unit : TileUnit) (folds : Bool) : Bool :=
  match unit with
  | .none => true
  | .vector => cs.vecQ.length < 8
  | .thin => cs.thinQ.length < 32
  | .arrays => cs.tileQ.length < 4 && (!folds || cs.thinQ.length < 32)

/-- TILE (R102, R283, R284, R287, R288): classified, held back by a hazard or a full queue, and dispatched to the arrays, the thin
path or the vector unit; a shape with no elements, or a held operation with no K-block, completes at issue. -/
def tileAct (c n : Nat) : Act :=
  issue .tile c n fun w x fi d =>
    let cs := d.core c
    let t := tileFields w
    let g := d.geom c
    let cont := t.cont && x.held.isSome
    let unit := tileUnit g t cont
    let chain := if cont then x.held.getD 0 else cs.opCount
    let uses := tileUses d c t unit
    let folds := tileFolds g t unit
    if hazard x uses || !tileRoom cs unit folds then [] else
      let op : UnitOp :=
        { ctx := n, id := cs.opCount, word := w, firing := fi, params := x.paramList,
          side := sidesAt cs (uses.map fun u => u.region), chain := chain, cont := cont, draw := cs.nextDraw n fi, fold := false }
      inSequence [
        fun d => stepPast d c n fun x =>
          { x with out := if unit = .none then x.out else x.out ++ [⟨cs.opCount, uses⟩],
                   held := if t.hold then some chain else none },
        fun _ => [.core c fun cs =>
          let cs := { cs with opCount := cs.opCount + 1 }
          match unit with
          | .none => cs
          | .vector => { cs with vecQ := cs.vecQ ++ [op] }
          | .thin => { cs with thinQ := cs.thinQ ++ [op] }
          | .arrays => { cs with tileQ := cs.tileQ ++ [op],
                                 thinQ := if folds then cs.thinQ ++ [{ op with fold := true }] else cs.thinQ }],
        onlyIf (!cont && x.held.isSome) (fun _ => [.core c (dropChain (x.held.getD 0))]),
        onlyIf (unit ≠ .none) (fun _ => takeDraws c n fi (tileDraws t)),
        onlyIf (unit = .arrays) (inSequence [startArray c g t false, startArray c g t true]) ] d

/-! ### Completion of TILE -/

/-- The sums an operation starts from: held ones, the entry values for a CONT with nothing held, or none (R134, R288). -/
def startSum (cs : CoreSt) (op : UnitOp) (t : TileFields) (int : Bool) (idx : Nat) : Option Val :=
  if op.cont then
    match mapGet (fun _ => ([] : List (BitVec 32))) cs.banks op.chain with
    | [] => none
    | xs => (xs[idx]?).map (entryVal int)
  else if t.cont then some (entryValue t.func int) else none

/-- What a TILE that has read its operands computes. -/
structure TileData where
  x : List Byte
  w : List Byte
  cm : List Byte

/-- The bank entries of a TILE, row by row; none where no K-block has been added (R134). -/
def tileSums (g : Geom) (t : TileFields) (unit : TileUnit) (cs : CoreSt) (op : UnitOp) (dat : TileData) : List (Option Val) :=
  let a := arithOf t.arith
  let int := intAcc t.func t.wfmt t.xfmt t.sclW t.sclX
  (List.range t.m).flatMap fun i => (List.range t.n).map fun j =>
    accumulate g t unit a int (startSum cs op t int (i * t.n + j)) i j
      (fun k => matElem t.xfmt t.sclX a.ftz t.m t.k dat.x i k) (fun k => weightElem t a.ftz dat.w k j)

/-- The values the output stage of a TILE converts, row by row (R146, R152). -/
def tileOut (t : TileFields) (op : UnitOp) (dat : TileData) (sums : List (Option Val)) : List Val :=
  let a := arithOf t.arith
  let alpha := fp32 (op.params[0]?.getD 0)
  let beta := fp32 (op.params[1]?.getD 0)
  (List.range t.m).flatMap fun i => (List.range t.n).map fun j =>
    let cv := if t.cuse then some (matElem t.cfmt t.sclC a.ftz t.m t.n dat.cm i j) else none
    match (sums[i * t.n + j]?).join with
    | some e => outputStage a.ieee alpha beta e cv
    | none => match cv with
      | some v => rne32 a.ieee (beta.mul (rne32 a.ieee v))
      | none => .zero

/-- Write a matrix in its storage format; draws go to the elements in storage order, and positions beyond an edge hold +0 (R127,
R147, R502). -/
def packMat (code : Nat) (scaled : Bool) (a : Arith) (rows cols : Nat) (draw : Nat → Option Nat) (vs : List Val) : List Byte :=
  if scaled then
    (List.range rows).flatMap fun i => (List.range ((cols + 255) / 256)).flatMap fun u =>
      packUnit code true a (fun j => draw (i * cols + u * 256 + j)) (((vs.drop (i * cols + u * 256)).take (min 256 (cols - u * 256))))
  else
    let codes := (List.range (16 * rows * ((cols + 15) / 16))).map fun p =>
      let nb := p / (16 * rows)
      let i := p / 16 % rows
      let col := 16 * nb + p % 16
      if col < cols then
        convertElem code a (draw (16 * rows * nb + i * min 16 (cols - 16 * nb) + p % 16)) (vs[i * cols + col]?.getD .zero)
      else zeroCode code
    (chunksOf codes.length 256 codes).flatMap fun u => packElems code u

/-- Row passes of an array (R79, R82, R92, R101). -/
def rowPasses (g : Geom) (t : TileFields) (b : Bool) : Nat :=
  let per := if g.serial b then 128 else if isWide g t b then 64 else 256
  (arrayRows g t.m b + per - 1) / per

/-- Physical tiles that an array completes for an operation (R115). -/
def tilesOf (g : Geom) (t : TileFields) (b : Bool) : Nat :=
  let kb := kBlock g t .arrays b
  rowPasses g t b * ((t.k + kb - 1) / kb) * (if isWide g t b then (t.n + 63) / 64 else (t.n + 15) / 16)

/-- Tile passes of an array whose missing columns ran on the thin path (R113). -/
def foldsOf (g : Geom) (t : TileFields) (b : Bool) : Nat :=
  if g.serial b || isWide g t b || 16 ≤ g.width b then 0 else
    let kb := kBlock g t .arrays b
    rowPasses g t b * ((t.k + kb - 1) / kb) *
      ((List.range ((t.n + 15) / 16)).filter fun nb => g.width b < min 16 (t.n - 16 * nb)).length

/-- Bubbles of tiles shorter than the load of the next (R76, R78, R101). -/
def shortBubbles (g : Geom) (t : TileFields) (b : Bool) : Nat :=
  let m := arrayRows g t.m b
  let least := if isWide g t b then 4 else 16
  if g.serial b || m = 0 || least ≤ m then 0 else (least - m) * tilesOf g t b

/-- An array's counters for a completed operation, its bank going to its drain (R79, R112–R115). -/
def arrayDone (c : Nat) (g : Geom) (t : TileFields) (b : Bool) : Act := fun d =>
  if arrayRows g t.m b = 0 then [] else
    [addF (if b then F.CORE_TILES_TILES_B else F.CORE_TILES_TILES_A) c (tilesOf g t b),
     addF F.CORE_THIN_FOLD_OPS c (foldsOf g t b),
     addF (if b then F.CORE_BUBBLE_B_DRY else F.CORE_BUBBLE_A_DRY) c (shortBubbles g t b)] ++
    (if t.hold then [] else
      [.core c fun cs =>
        let n := min 2 ((if b then cs.drainB else cs.drainA) + 1)
        let stall := if n = 2 then some d.now else none
        if b then { cs with drainB := n, stallB := if cs.stallB.isSome then cs.stallB else stall }
        else { cs with drainA := n, stallA := if cs.stallA.isSome then cs.stallA else stall }])

/-- Whether gap filling is enabled for a core's quadrant (R105, R624). -/
def Dev.gapFill (d : Dev) (c : Nat) : Bool := d.bit F.KETTLE_CTL_GAP_EN (quadrantOf c)

/-- An array with no further row runs dummy operations where gap filling is enabled, and otherwise ramps down (R105, R624). -/
def idleArray (c : Nat) (b : Bool) : Act := fun d =>
  let cs := d.core c
  let busy := if b then F.CORE_STATUS_BUSY_B else F.CORE_STATUS_BUSY_A
  if !d.bit busy c then [] else
    [setF busy c 0, setF (if b then F.CORE_STATUS_WIDE_B else F.CORE_STATUS_WIDE_A) c 0] ++
    (if d.gapFill c then
      [setF (if b then F.CORE_STATUS_DUMMY_B else F.CORE_STATUS_DUMMY_A) c 1,
       .core c fun cs => if b then { cs with dummyB := some d.now } else { cs with dummyA := some d.now }]
     else [setB F.CORE_STATUS_GATED c ((if b then cs.dummyA else cs.dummyB).isNone &&
            !d.bit (if b then F.CORE_STATUS_BUSY_A else F.CORE_STATUS_BUSY_B) c)])

/-- Take a completed operation out of its queue and complete it (R285). -/
def retireOp (c : Nat) (op : UnitOp) : Act :=
  inSequence [
    fun _ => [.core c fun cs =>
      { cs with tileQ := cs.tileQ.filter fun o => o.id ≠ op.id, thinQ := cs.thinQ.filter fun o => o.id ≠ op.id,
                vecQ := cs.vecQ.filter fun o => o.id ≠ op.id }],
    completeOp c op.ctx op.id ]

/-- Keep or discard the sums of a completed TILE (R288). -/
def keepSums (c : Nat) (op : UnitOp) (t : TileFields) (sums : List (Option Val)) : Upd :=
  let int := intAcc t.func t.wfmt t.xfmt t.sclW t.sclX
  .core c fun cs =>
    let wanted := (cs.ctxs.any fun x => x.2.held = some op.chain) ||
      ((cs.tileQ ++ cs.thinQ ++ cs.vecQ).any fun o => o.chain = op.chain && o.cont && o.id ≠ op.id)
    if t.hold && wanted then
      { cs with banks := mapSet (fun _ => []) op.chain (sums.filterMap fun e => e.map (entryBits int)) cs.banks }
    else { cs with banks := mapDel op.chain cs.banks }

/-- The effect of a TILE on completion: operands read, sums formed, the output stage run and its elements written (R285, R289). -/
def runTile (c : Nat) (op : UnitOp) (unit : TileUnit) : Act := fun d =>
  let t := tileFields op.word
  let a := arithOf t.arith
  let g := d.geom c
  let p := fun (i : Nat) => (op.params[i]?.getD 0).toNat
  let eng := if unit = .vector then 4 else if unit = .thin then 3 else 1
  let src := if unit = .vector then vecEngine else tileEngine
  match readOperand d c op t.xreg (p 2) (if t.k = 0 then 0 else matBytes t.xfmt t.sclX t.m t.k) src,
      readOperand d c op t.wreg (p 3) (if t.k = 0 then 0 else tileCount t * tileWords t * 64) src,
      readOperand d c op t.creg (p 4) (if t.cuse && !t.hold then matBytes t.cfmt t.sclC t.m t.n else 0) src,
      destWords d c op t.oreg (p 5) (if t.hold then 0 else matBytes t.ofmt t.sclO t.m t.n) src with
  | some rx, some rw, some rc, some (ows, oadv) =>
    let dat : TileData := ⟨rx.bs, rw.bs, rc.bs⟩
    let read := rx.ws ++ rw.ws ++ rc.ws
    let sums := tileSums g t unit (d.core c) op dat
    let marks := d.marksOf c read
    let terns := ternBad t.xfmt rx.bs 52 || ternBad t.wfmt rw.bs (tileWords t * 64) || ternBad t.cfmt rc.bs 52
    let fails := match d.coreSlice c with
      | some i => failMarks i op.firing.step (if terns then marks ++ [0] else marks)
      | none => []
    withParity c eng read (inSequence [
      fun _ => fails ++ rx.adv ++ rw.adv ++ rc.adv,
      onlyIf (!t.hold) (fun d => oadv ++ writeWords c ows
        (packMat t.ofmt t.sclO a t.m t.n (d.coreDraw c op.firing op.draw a.stoch) (tileOut t op dat sums)) marks),
      fun _ => [keepSums c op t sums],
      onlyIf (unit = .thin) (fun _ => [addF F.CORE_THIN_THIN_OPS c 1]),
      onlyIf (unit = .arrays) (inSequence [arrayDone c g t false, arrayDone c g t true]),
      retireOp c op,
      onlyIf (unit = .arrays) (fun d => if (d.core c).tileQ.isEmpty then inSequence [idleArray c false, idleArray c true] d else [])
      ]) d
  | _, _, _, _ => []

/-- TILE_COMPLETE (R285, R289): the oldest operation of the arrays, or of the thin path, completes. Fold work at the head of the
thin path's queue goes with its own tile (R88, R100). -/
def tileCompleteAct (c : Nat) (thin : Bool) : Act := fun d =>
  let cs := d.core c
  match (if thin then cs.thinQ else cs.tileQ) with
  | [] => []
  | op :: _ => if op.fold then [] else runTile c op (if thin then .thin else .arrays) d

/-- ACCUMULATOR_DRAIN_DONE (R79): a bank of the array is free again; a feeder that waited for it ends its DRAIN bubbles (R78). -/
def accumulatorDrainDoneAct (c : Nat) (b : Bool) : Act := fun d =>
  let cs := d.core c
  let n := if b then cs.drainB else cs.drainA
  if n = 0 then [] else
    (match (if b then cs.stallB else cs.stallA) with
      | some t => [addF (if b then F.CORE_BUBBLE_B_DRAIN else F.CORE_BUBBLE_A_DRAIN) c (d.cycles (d.now - t))]
      | none => []) ++
    [.core c fun cs => if b then { cs with drainB := n - 1, stallB := none } else { cs with drainA := n - 1, stallA := none }]

/-- GAP_FILL_EXPIRE (R105): after 200 ns of dummy operations the array is ramped down and clock-gated. -/
def gapFillExpireAct (c : Nat) (b : Bool) : Act := fun d =>
  let cs := d.core c
  match (if b then cs.dummyB else cs.dummyA) with
  | none => []
  | some t =>
    if d.now < t + 200 then [] else
      let other := if b then cs.dummyA else cs.dummyB
      endDummy c b d ++
      [setB F.CORE_STATUS_GATED c (other.isNone && !d.bit (if b then F.CORE_STATUS_BUSY_A else F.CORE_STATUS_BUSY_B) c)]

/-! ### VEC and SFU (R103, R104, R137, R290) -/

/-- The functions that read a second source. -/
def vecTwo (fn : Nat) : Bool := (1 ≤ fn && fn ≤ 6) || fn = 8
/-- The functions that read their destination. -/
def vecReadsDest (fn : Nat) : Bool := fn = 4 || fn = 12
/-- Elements that a VEC or SFU writes. -/
def vecOut (sfu : Bool) (v : VecFields) : Nat :=
  if !sfu && (v.fn = 9 || v.fn = 10) then v.len / max 1 v.row else v.len
/-- Bytes of the destination; AADD's are 32-bit words. -/
def vecDestBytes (sfu : Bool) (v : VecFields) : Nat :=
  if !sfu && v.fn = 12 then 4 * v.len else elemBytes v.dfmt (vecOut sfu v)

/-- Lane kinds of the vector unit (R290). -/
inductive Lane where
  | fp32 | bf16 | fp16 | int32 | int16
  deriving DecidableEq, Repr

/-- The lanes of an operation (R290). -/
def laneOf (v : VecFields) : Lane :=
  if v.sfmt = 3 && v.dfmt = 3 then .bf16
  else if v.sfmt = 4 && v.dfmt = 4 then .fp16
  else if v.sfmt = 0x0A && v.dfmt = 0x0A then .int16
  else if isFloat v.sfmt || isFloat v.dfmt then .fp32
  else .int32

/-- Round an exact result to a lane (R137). -/
def laneRound (l : Lane) (ieee : Bool) (v : Val) : Val :=
  let a : Arith := ⟨0, false, ieee, false⟩
  match l with
  | .fp32 => rne32 ieee v
  | .bf16 => fmtBf16.decode false (fmtBf16.convert a false none v)
  | .fp16 => fmtFp16.decode false (fmtFp16.convert a false none v)
  | .int32 => valOf (roundInt none v (-2147483648) 2147483647) 0
  | .int16 => valOf (roundInt none v (-32768) 32767) 0

/-- Whether the lane format is the destination format, so that the stored element is rounded once, under RND (R137). -/
def laneStores (l : Lane) (dfmt : Nat) : Bool :=
  match l with
  | .fp32 => dfmt = 1
  | .bf16 => dfmt = 3
  | .fp16 => dfmt = 4
  | .int32 => false
  | .int16 => dfmt = 0x0A

/-- The exact result of an element-wise function (R290). -/
def vecExact (fn : Nat) (p0 p1 s1 s2 dv : Val) : Val :=
  match fn with
  | 1 => s1.add s2
  | 2 => s1.add s2.neg
  | 3 => s1.mul s2
  | 4 => (s1.mul s2).add dv
  | 5 => s1.max s2
  | 6 => s1.min s2
  | 8 => (p0.mul s1).add (p1.mul s2)
  | 12 => dv.add s1
  | _ => s1

/-- A row's sum, ascending, one rounding per addition but the last, which the store makes, or its maximum (R137, R290). -/
def rowReduce (fn : Nat) (rnd : Val → Val) : List Val → Val
  | [] => .zero
  | [v] => v
  | v :: rest =>
    if fn = 9 then (rest.dropLast.foldl (fun s x => rnd (s.add x)) v).add (rest.getLastD .zero)
    else rest.foldl (fun s x => s.max x) v

/-- The FP32 result of a special function (R104); CVT of the operand to FP32 comes first. -/
def sfuValue (fn : Nat) (ieee : Bool) (v : Val) : Val :=
  fp32 (Config.sfu fn (BitVec.ofNat 32 (fmtFp32.encode (rne32 ieee v))))

/-- Store an element (R137, R142): where the lane format is the destination's, one rounding under RND; elsewhere the lane rounds
to nearest and the conversion rounds under RND. An integer lane rounds to an integer under RND, then saturates. -/
def storeElem (l : Lane) (dfmt : Nat) (a : Arith) (draw : Option Nat) (v : Val) : Nat :=
  match l with
  | .int32 => convertElem dfmt a draw (valOf (roundInt draw v (-2147483648) 2147483647) 0)
  | .int16 => convertElem dfmt a draw v
  | _ => convertElem dfmt a draw (if laneStores l dfmt then v else laneRound l a.ieee v)

/-- The bytes that a VEC or SFU writes from its sources. -/
def vecResult (sfu : Bool) (v : VecFields) (p0 p1 : Val) (b1 b2 bd : List Byte) (draw : Nat → Option Nat) : List Byte :=
  let a := arithOf v.arith
  let l := laneOf v
  let s1 := unpackElems v.sfmt a.ftz b1 v.len
  if sfu then
    let codes := ((List.range v.len).zip s1).map fun e => convertElem v.dfmt a (draw e.1) (sfuValue v.fn a.ieee e.2)
    (chunksOf codes.length 256 codes).flatMap fun u => packElems v.dfmt u
  else if v.fn = 11 then
    if v.sfmt = 0x0E then b1.take (elemBytes v.sfmt v.len) else packBits 1 (bitsOfBytes (v.len * elemBits v.sfmt) b1)
  else if v.fn = 12 then
    let float := isFloat v.sfmt
    let words := (List.range v.len).map fun i => BitVec.ofNat 32 (leNat ((bd.drop (4 * i)).take 4))
    ((List.range v.len).zip (s1.zip words)).flatMap fun e =>
      leBytes 4 (if float then fmtFp32.encode (rne32 a.ieee ((fp32 e.2.2).add e.2.1))
        else (BitVec.ofInt 32 (roundInt none ((valOf e.2.2.toInt 0).add e.2.1) (-2147483648) 2147483647)).toNat)
  else
    let exact :=
      if v.fn = 9 || v.fn = 10 then
        (chunksOf v.len (max 1 v.row) s1).map (rowReduce v.fn (laneRound l a.ieee))
      else
        let s2 := if vecTwo v.fn then unpackElems v.sfmt a.ftz b2 v.len else []
        let dv := if v.fn = 4 then unpackElems v.dfmt a.ftz bd v.len else []
        ((List.range v.len).zip s1).map fun e =>
          vecExact v.fn p0 p1 e.2 (s2[e.1]?.getD .zero) (dv[e.1]?.getD .zero)
    let codes := ((List.range exact.length).zip exact).map fun e =>
      if v.fn = 7 || v.fn = 5 || v.fn = 6 || v.fn = 10 then convertElem v.dfmt a (draw e.1) e.2
      else storeElem l v.dfmt a (draw e.1) e.2
    (chunksOf codes.length 256 codes).flatMap fun u => packElems v.dfmt u

/-- Elements that consume a draw (R137). -/
def vecDraws (sfu : Bool) (v : VecFields) : Nat :=
  if (arithOf v.arith).stoch && (sfu || (v.fn ≠ 11 && v.fn ≠ 12)) then vecOut sfu v else 0

/-- Issue of a VEC or SFU (R283, R284, R290): a LEN of zero completes at once. -/
def vecIssue (sfu : Bool) (c n : Nat) : Act :=
  issue (if sfu then .sfu else .vec) c n fun w x fi d =>
    let cs := d.core c
    let v := vecFields w
    let uses := d.useOf c v.s1reg false ++ (if !sfu && vecTwo v.fn then d.useOf c v.s2reg false else []) ++ d.useOf c v.dreg true
    if v.len = 0 then stepPast d c n id
    else if hazard x uses || 8 ≤ cs.vecQ.length then [] else
      let op : UnitOp :=
        { ctx := n, id := cs.opCount, word := w, firing := fi, params := x.paramList,
          side := sidesAt cs (uses.map fun u => u.region), chain := 0, cont := false, draw := cs.nextDraw n fi, fold := false }
      inSequence [
        fun d => stepPast d c n fun x => { x with out := x.out ++ [⟨cs.opCount, uses⟩] },
        fun _ => [.core c fun cs => { cs with opCount := cs.opCount + 1, vecQ := cs.vecQ ++ [op] }],
        fun _ => takeDraws c n fi (vecDraws sfu v) ] d

def vecAct (c n : Nat) : Act := vecIssue false c n
def sfuAct (c n : Nat) : Act := vecIssue true c n

/-- The effect of a VEC or SFU on completion. -/
def runVec (c : Nat) (op : UnitOp) (sfu : Bool) : Act := fun d =>
  let v := vecFields op.word
  let a := arithOf v.arith
  let n := elemBytes v.sfmt v.len
  let dn := vecDestBytes sfu v
  match readOperand d c op v.s1reg v.s1off n vecEngine,
      readOperand d c op v.s2reg v.s2off (if !sfu && vecTwo v.fn then n else 0) vecEngine,
      destWords d c op v.dreg v.doff dn vecEngine with
  | some r1, some r2, some (dws, adv) =>
    let rd := if !sfu && vecReadsDest v.fn then dws else []
    let read := r1.ws ++ r2.ws ++ rd
    let marks := d.marksOf c read
    let p := fun (i : Nat) => fp32 (op.params[i]?.getD 0)
    let out := vecResult sfu v (p 0) (p 1) r1.bs r2.bs (d.readWords c rd) (d.coreDraw c op.firing op.draw a.stoch)
    let terns := ternBad v.sfmt (r1.bs.take n) 52 || ternBad v.sfmt (r2.bs.take n) 52
    let fails := match d.coreSlice c with
      | some i => failMarks i op.firing.step (if terns then marks ++ [0] else marks)
      | none => []
    withParity c 4 read (inSequence [
      fun _ => fails ++ r1.adv ++ r2.adv ++ adv ++ writeWords c dws out marks,
      retireOp c op ]) d
  | _, _, _ => []

/-- VEC_COMPLETE (R285): the oldest operation of the vector and special-function queue completes; a TILE with K = 0 runs there
(R102). -/
def vecCompleteAct (c : Nat) : Act := fun d =>
  match (d.core c).vecQ with
  | [] => []
  | op :: _ =>
    match opKind op.word with
    | some .tile => runTile c op .vector d
    | some .sfu => runVec c op true d
    | _ => runVec c op false d

/-! ### CORE_ARRAYMODE (R110) -/

/-- A write of CORE_ARRAYMODE: in MAINTENANCE only, and no reserved mode.
(DEDUCED, log 61) -/
def writeArrayMode (c : Nat) (val : BitVec 64) (d : Dev) : Answer × Act :=
  if d.mode ≠ stMaint then refuse 5
  else if 1 < bitsOf val 3 0 || 1 < bitsOf val 7 4 then refuse 6
  else (answerOk, fun _ => [setF F.CORE_ARRAYMODE_MODE_A c (bitsOf val 3 0), setF F.CORE_ARRAYMODE_MODE_B c (bitsOf val 7 4)])

end Sys2Proof.Machine
end

