-- ==== Sys2Proof/Machine/Digest.lean ====
section
/-! DEFINITION. The tasting digest (R504, R505): multiplication in GF(2^128), the fold of a written run, and the records of a
committed step. -/

namespace Sys2Proof.Machine

/-- Multiply by x modulo x^128 + x^7 + x^2 + x + 1 (R504). -/
def gfDouble (a : BitVec 128) : BitVec 128 := (a <<< 1) ^^^ (if a.getLsbD 127 then 0x87 else 0)

/-- The product in GF(2^128), bit `i` being the coefficient of x^i: the sum of `a·x^i` over the set bits of `b`. -/
def gfMulFrom (b : BitVec 128) : Nat → Nat → BitVec 128 → BitVec 128 → BitVec 128
  | 0, _, _, acc => acc
  | n + 1, i, a, acc => gfMulFrom b n (i + 1) (gfDouble a) (if b.getLsbD i then acc ^^^ a else acc)

/-- Multiplication of R504. -/
def gfMul (a b : BitVec 128) : BitVec 128 := gfMulFrom b 128 0 a 0

/-- What a chunk adds: (c ⊕ a) ⊗ (a ⊕ K), for chunk `c` at 16-byte address `a` (R504). -/
def chunkTerm (k c : BitVec 128) (a : Nat) : BitVec 128 :=
  let aw : BitVec 128 := BitVec.ofNat 128 a
  gfMul (c ^^^ aw) (aw ^^^ k)

/-- The chunks of a written run: 16-byte address and contents, uncovered bytes zero (R504). -/
def runChunks (addr : Nat) (bs : List Byte) : List (Nat × BitVec 128) :=
  if bs.isEmpty then [] else
    let lead := addr % 16
    let padded := List.replicate lead 0 ++ bs
    (List.range ((padded.length + 15) / 16)).map fun i =>
      (addr / 16 + i, BitVec.ofNat 128 (leNat ((padded.drop (16 * i)).take 16)))

/-- Fold a run into an accumulator (R504). -/
def foldRun (k : BitVec 128) (addr : Nat) (bs : List Byte) (bad : Bool) (a : DigestAcc) : DigestAcc :=
  let cs := runChunks addr bs
  { a with
    acc := cs.foldl (fun s e => s ^^^ chunkTerm k e.2 e.1) a.acc
    chunks := satAdd 4294967295 a.chunks cs.length
    bad := a.bad || bad }

/-- Fold a run into the accumulator of (step, BWD, LAYER), opening it when it is new (R504, R505). -/
def digestFold (pkey : BitVec 12) (step : Nat) (bwd : Bool) (layer year addr : Nat) (bs : List Byte) (bad : Bool) : Act := fun d =>
  let mine := fun (a : DigestAcc) => a.pkey = pkey && a.step = step && a.bwd = bwd && a.layer = layer
  [.digests fun l =>
    if l.any mine then l.map fun a => if mine a then foldRun d.digestK addr bs bad a else a
    else l ++ [foldRun d.digestK addr bs bad ⟨pkey, step, bwd, layer, year, 0, false, 0⟩]]

/-- The 64 bytes of a digest record (R505). -/
def digestRecord (coord : Nat) (det : Bool) (a : DigestAcc) : List Byte :=
  leBytes 2 a.pkey.toNat ++ [BitVec.ofNat 8 ((if a.bwd then 1 else 0) + (if a.bad then 2 else 0) + (if det then 4 else 0)), 0] ++
  leBytes 2 a.layer ++ leBytes 2 coord ++ leBytes 8 a.step ++ leBytes 4 a.year ++ leBytes 4 a.chunks ++
  leBytes 16 a.acc.toNat ++ List.replicate 24 0

end Sys2Proof.Machine
end

