-- ==== Sys2Proof/Machine/Streams.lean ====
section
/-! DEFINITION. Streams and prefetch (06): arms, swaps and waits on streams, the runs and strings of a transfer, its start, its
partial service and its completion, remote drains, multicast, the regulator, aborts, and stream faults (R237–R262, R330,
R657). -/

namespace Sys2Proof.Machine

/-! ### Arming (R238, R239, R260, R291) -/

/-- The count of a stream number: arms or completions (R239). -/
def countOf (m : SMap (BitVec 32)) (st : Nat) : BitVec 32 := mapGet (fun _ => 0) m st

/-- The region uses of an arm (R284): a fetch writes its region, a drain reads it.
(DEDUCED, log 59) -/
def armUses (d : Dev) (c : Nat) (x : Desc) : List RegUse := d.useOf c x.region (!x.drain)

/-- Queue an arm at its engine; a full queue makes the context wait (R238, R283). -/
def armStream (c n st : Nat) (fi : Firing) (base : Int) (rearmed : Bool) (off : Nat) (x : Desc) : Act := fun d =>
  let cs := d.core c
  if 8 ≤ (cs.engine x.eng).queue.length || hazard (cs.ctx n) (armUses d c x) then [] else
    let no := countOf cs.armedCnt st + 1
    let dig := (cs.digestOn.find? fun e => e.1 = st).map Prod.snd
    let a : Arm :=
      { stream := st, base := base, rearmed := rearmed, spmOff := off, side := cs.side x.region, armNo := no,
        digest := dig, opId := cs.opCount, firing := fi }
    stepPast d c n id ++
    [.core c fun cs => onEngine x.eng (fun e => { e with queue := e.queue ++ [a] })
      { cs with opCount := cs.opCount + 1, armedCnt := mapSet (fun _ => 0) st no cs.armedCnt }]

/-- ARM (R238, R291): starts the descriptor as written. -/
def armAct (c n : Nat) : Act :=
  issue .arm c n fun w _ fi d =>
    match d.desc c (opStream w) with
    | none => []
    | some x => armStream c n (opStream w) fi x.base false x.spmOff x d

/-- The index that a REARM selects (R291). -/
def rearmIndex (sel : Nat) (x : ThreadCtx) (fi : Firing) : Nat :=
  if sel = 0 then 0 else if sel = 5 then fi.idx else x.idxOf (sel - 1)

/-- REARM (R260, R291): the stream again, with HBM_BASE + STEP times the selected index and the offset it carries. -/
def rearmAct (c n : Nat) : Act :=
  issue .rearm c n fun w x fi d =>
    match d.desc c (opStream w) with
    | none => []
    | some ds =>
      armStream c n (opStream w) fi ((rearmBase w : Int) + rearmStep w * rearmIndex (rearmSel w) x fi) true (rearmOff w) ds d

/-! ### SWAP and SWAIT (R239, R244) -/

/-- Whether something issued before operation `before` still writes the fill half of a region or reads its read half (R244). -/
def swapBlocked (d : Dev) (c r before : Nat) : Bool :=
  let cs := d.core c
  let side := cs.side r
  let ops := cs.ctxs.flatMap fun x => x.2.out
  (ops.any fun o => o.id < before && o.uses.any fun u =>
    u.region = r && (match u.half with | some h => h = (if u.write then side else !side) | none => true)) ||
  (cs.allArms.any fun a => a.opId < before && a.side = side &&
    match d.desc c a.stream with
    | some x => x.region = r && x.buf = .double
    | none => false)

/-- Flip SIDE (R244). -/
def flipSide (c r : Nat) : Upd :=
  .core c fun cs => { cs with sides := mapSet (fun _ => false) r (!cs.side r) cs.sides }

/-- SWAP (R244, R299): the halves free, it flips SIDE; otherwise the context sleeps. -/
def swapAct (c n : Nat) : Act :=
  issue .swap c n fun w _ _ d =>
    let r := swapRegion w
    if swapBlocked d c r (d.core c).opCount then sleepOn d c n (.swap r) (swapDue w)
    else stepPast d c n id ++ [.core c fun cs => { cs with opCount := cs.opCount + 1 }, flipSide c r]

/-- SWAP_COMPLETE (R244): a waiting SWAP finds its condition met and flips SIDE. -/
def swapCompleteAct (c n : Nat) : Act := fun d =>
  match ((d.core c).ctx n).wait with
  | some ⟨.swap r, before, _, _, _⟩ =>
    if d.coreRuns c && !swapBlocked d c r before then [flipSide c r] ++ wakeCtx c n d else []
  | _ => []

/-- SWAIT (R239, R299): returns when DONE equals the ARMED count at issue. -/
def swaitAct (c n : Nat) : Act :=
  issue .swait c n fun w _ _ d =>
    let st := opStream w
    let cs := d.core c
    if countOf cs.doneCnt st = countOf cs.armedCnt st then stepPast d c n id
    else sleepOn d c n (.stream st (countOf cs.armedCnt st)) (swaitDue w)

/-- DIGEST (R293): folding of a stream's later drains on or off. -/
def digestAct (c n : Nat) : Act :=
  issue .digest c n fun w _ _ d =>
    stepPast d c n id ++ [.core c fun cs =>
      { cs with digestOn := if digestOnBit w then mapPut (opStream w) (digestLayer w) cs.digestOn
                            else mapDel (opStream w) cs.digestOn }]

/-! ### Runs and strings (R242, R248, R255) -/

/-- Bytes of one element of an expansion target in a string (R248). -/
def targetBytes (code : Nat) : Nat := elemBits code / 8

/-- Bytes that one run gives the string: its bytes, or its decoded elements (R242, R248). -/
def runBytes (d : Dev) (x : Desc) (len : Nat) : Nat :=
  if x.coded then len * targetBytes (match d.codecTable x.codecTable with | some t => tabTarget t | none => 1) else len

/-- Bytes that one run takes in HBM: blocks of a coded run, or decoded elements at the destination of a REMOTE drain (R248,
R657). -/
def runExtent (d : Dev) (x : Desc) (len : Nat) : Nat :=
  if x.coded && !x.remote then (len + 255) / 256 * steepBlock x.format else runBytes d x len

/-- The bytes of the whole string. -/
def stringBytes (d : Dev) (x : Desc) (runs : List Run) : Nat := (runs.map fun r => runBytes d x r.len).sum

/-- The start addresses of strided runs, the innermost dimension first (R242). -/
def strideAddrs (x : Desc) (base : Int) (count1 : Nat) : List Int :=
  (List.range x.count3).flatMap fun i3 => (List.range x.count2).flatMap fun i2 => (List.range count1).map fun i1 =>
    base + (i1 : Int) * x.stride1 + (i2 : Int) * x.stride2 + (i3 : Int) * x.stride3

/-- Whether an extent lies within 0 to 512 GiB. -/
def extentOk (a : Int) (n : Nat) : Bool := 0 ≤ a && a + n ≤ (hbmSize : Int)

/-- Whether a REMOTE extent stays within the slice's regions and out of COMMITTED ones (R657). -/
def remoteOk (d : Dev) (pkey : BitVec 12) (a n : Nat) : Bool :=
  d.regions.any (fun e => regionPkey e = pkey.toNat && regionBase e ≤ a && a + n ≤ regionBase e + regionSize e) &&
  !d.regions.any fun e => regionCommitted e && a < regionBase e + regionSize e && regionBase e < a + n

/-- Words that a LINEAR region, or a half of a DOUBLE one, leaves a string from an offset; none for a QUEUE. -/
def stringRoom (d : Dev) (c : Nat) (x : Desc) (off : Nat) : Option Nat :=
  match x.buf with
  | .linear => some (d.regSize c x.region - off)
  | .double => some (d.regSize c x.region / 2 - off)
  | .queue => none

/-- What the start of a transfer finds: its runs, or the STREAM_ERR bit and item of its fault (R245, R255, R256, R261). -/
inductive StartResult where
  | runs (rs : List Run) (listBlocks : Nat)
  | fault (bit : Fld) (item : Nat)

/-- The runs of a strided descriptor, or the fault of an extent. -/
def stridedRuns (d : Dev) (x : Desc) (base : Int) (count1 : Nat) : StartResult :=
  if x.rowLen = 0 then .runs [] 0 else
    let as := strideAddrs x base count1
    if as.all fun a => extentOk a (runExtent d x x.rowLen) then .runs (as.map fun a => ⟨a.toNat, x.rowLen, 0⟩) 0
    else .fault F.STREAM_ERR_ADDR 0

/-- Entry `i` of an indirect list (R255). -/
def listEntry (bs : List Byte) (i : Nat) : Nat × Nat × Nat :=
  let e := (bs.drop (16 * i)).take 16
  (leNat (e.take 8), leNat ((e.drop 8).take 4), leNat ((e.drop 12).take 4))

/-- The runs of an indirect list, up to the first faulty entry (R255, R261). -/
def listRuns (d : Dev) (x : Desc) (base : Int) (count1 : Nat) : StartResult :=
  if !extentOk base (16 * count1) then .fault F.STREAM_ERR_ADDR 0 else
    let bs := (d.readHbm base.toNat (16 * count1)).1
    let es := (List.range count1).map (listEntry bs)
    let item := fun (e : Nat × Nat × Nat) => if x.entryTask then e.2.2 else 0
    let blocks := (16 * count1 + 255) / 256
    match es.find? fun e => 549755813888 ≤ e.1 || x.rowLen < e.2.1 || !extentOk e.1 (runExtent d x e.2.1) with
    | some e =>
      .fault (if 549755813888 ≤ e.1 || x.rowLen < e.2.1 then F.STREAM_ERR_ENTRY else F.STREAM_ERR_ADDR) (item e)
    | none => .runs ((es.filter fun e => e.2.1 ≠ 0).map fun e => ⟨e.1, e.2.1, item e⟩) blocks

/-- The count of dimension 1 at the start: a run-time count comes from the scratchpad (R256). -/
def startCount (d : Dev) (c : Nat) (x : Desc) : Nat :=
  if x.rtCount then leNat ((d.readWords c [x.rtWord]).take 4) else x.count1

/-- The runs of a transfer as its start finds them, with every check that run-time values need (R245, R256, R261, R657). -/
def startRuns (d : Dev) (c : Nat) (x : Desc) (a : Arm) (pkey : BitVec 12) : StartResult :=
  let n := startCount d c x
  match if x.indirect then listRuns d x a.base n else stridedRuns d x a.base n with
  | .fault b i => .fault b i
  | .runs rs blocks =>
    let words := (stringBytes d x rs + 63) / 64
    if (stringRoom d c x a.spmOff).any fun room => room < words then .fault F.STREAM_ERR_ADDR 0
    else if x.remote && !(rs.all fun r => remoteOk d pkey r.addr (runExtent d x r.len)) then .fault F.STREAM_ERR_ADDR 0
    else .runs rs blocks

/-! ### The end of a transfer -/

/-- The signals ordered after a transfer (R321). -/
def aftersOf (cs : CoreSt) (a : Arm) : List AfterSig := cs.afters.filter fun s => s.stream = a.stream && s.armNo = a.armNo

/-- Send or apply the signals that waited for a transfer (R321, R323). -/
def releaseAfters (c i : Nat) (sigs : List AfterSig) : Act :=
  inSequence [
    fun _ => [.core c fun cs => { cs with afters := cs.afters.filter fun s => !sigs.contains s }],
    forEach (fun s => emitSignal c s.ctx s.opId i s.step s.kind s.syncId s.value s.dest) sigs ]

/-- Contexts that wait for a stream's DONE to reach its present value (R239, R300). -/
def wakeStream (c st : Nat) : Act := fun d =>
  let cs := d.core c
  let done := countOf cs.doneCnt st
  forEach (fun n => wakeCtx c n) ((cs.ctxs.filter fun x => match x.2.wait with
    | some ⟨.stream s t, _, _, _, _⟩ => s = st && t = done
    | _ => false).map Prod.fst) d

/-- A transfer leaves its engine: DONE counts it, and its waiters wake (R239). -/
def leaveEngine (c : Nat) (e : Engine) (a : Arm) : Act :=
  inSequence [
    fun _ => [.core c fun cs =>
      onEngine e (fun en => { queue := en.queue.filter fun b => !(b.stream = a.stream && b.armNo = a.armNo), xfer := none })
        { cs with doneCnt := mapSet (fun _ => 0) a.stream (countOf cs.doneCnt a.stream + 1) cs.doneCnt }],
    wakeStream c a.stream ]

/-- The end of a transfer: it leaves its engine and the signals behind it go (R240, R321). -/
def finishArm (c : Nat) (e : Engine) (a : Arm) : Act := fun d =>
  inSequence [
    leaveEngine c e a,
    fun d' => match d.coreSlice c with
      | some i => releaseAfters c i (aftersOf (d'.core c) a) d'
      | none => [] ] d

/-- The words of a transfer's string in the scratchpad, from the part not yet moved of a QUEUE (R243). -/
def stringWords (d : Dev) (c : Nat) (x : Desc) (a : Arm) (bytes : Nat) : List Nat :=
  let n := (bytes + 63) / 64
  match x.buf with
  | .linear => (List.range n).map fun j => d.regBase c x.region + a.spmOff + j
  | .double =>
    let half := if x.drain then !a.side else a.side
    (List.range n).map fun j => d.halfBase c x.region (some half) + a.spmOff + j
  | .queue =>
    let ptr := if x.drain then F.SPM_REGION_HEAD else F.SPM_REGION_TAIL
    d.ringWords c x.region (d.fld ptr (regionIx c x.region)) n

/-- Abort one transfer or waiting arm (R261): it writes nothing more, the words it would have filled carry a bad mark, and DONE
counts it.
(DEDUCED, log 72) -/
def abortArm (c : Nat) (bit : Fld) (item : Option Nat) (e : Engine) (a : Arm) : Act := fun d =>
  let marks := match d.desc c a.stream, (d.core c).engine e with
    | some x, ⟨b :: _, some t⟩ =>
      if x.drain || !(b.stream = a.stream && b.armNo = a.armNo) || x.buf = .queue then [] else
        let ws := stringWords d c x a (stringBytes d x t.runs)
        [Upd.spmMarks fun m => m ++ ws.map fun w => (wordKey c w, item.getD 0)]
    | _, _ => []
  inSequence [fun d => marks ++ flagStream d c bit a.stream item, finishArm c e a] d

/-- The engines of a core. -/
def engines : List Engine := [.fetch0, .fetch1, .drain]

/-- Whether an arm belongs to a task: the step's streams with TASK = STEP, or transfers in service that move data of the item
(R261). -/
def inTask (d : Dev) (c : Nat) (step : Nat) (item : Option Nat) (e : Engine) (a : Arm) : Bool :=
  match d.desc c a.stream with
  | none => false
  | some x =>
    match item with
    | none => !x.entryTask && a.firing.step = step
    | some h => x.entryTask && match (d.core c).engine e with
      | ⟨b :: _, some t⟩ => b.stream = a.stream && b.armNo = a.armNo && t.runs.any fun r => r.item = h
      | _ => false

/-- Abort the whole task of a stream (R261): every arm of the core for the task, the failing one among them, and its items fail. -/
def abortTask (c : Nat) (e : Engine) (a : Arm) (bit : Fld) (status : Nat) (item : Option Nat) : Act := fun d =>
  let step := a.firing.step
  let others := engines.flatMap fun f =>
    ((d.core c).engine f).queue.filterMap fun b =>
      if !(b.stream = a.stream && b.armNo = a.armNo) && inTask d c step item f b then some (f, b) else none
  inSequence [
    fun d => match d.coreSlice c with
      | some i => [match item with | some h => failItem i step h status | none => failStep i step status]
      | none => [],
    abortArm c bit item e a,
    forEach (fun p => abortArm c bit item p.1 p.2) others ] d

/-! ### Multicast (R252, R253, R256) -/

/-- The entry of a core's descriptor in the multicast group table of its schedule. -/
def Dev.mcastGroup (d : Dev) (c g : Nat) : Option (BitVec 512) :=
  (d.core c).live.bind fun b => (d.schedOf b).bind fun s => s.mcast[g]?

def groupK (e : BitVec 512) : Nat := bitsOf e 5 0
def groupRoot (e : BitVec 512) : Nat := bitsOf e 31 16
/-- The members of a group as global core indices (R252). -/
def groupMembers (e : BitVec 512) : List Nat :=
  ((List.range 400).filter fun g => bitOf e (32 + g)).map fun g => 64 * g + groupK e
/-- The reading core of a group. -/
def groupRootCore (e : BitVec 512) : Nat := 64 * groupRoot e + groupK e

/-- Whether a core's engine serves, or holds at its head, the same arm of a stream as the root (R253). -/
def memberReady (d : Dev) (e : Engine) (st : Nat) (no : BitVec 32) (m : Nat) : Bool :=
  match ((d.core m).engine e).queue with
  | b :: _ => b.stream = st && b.armNo = no
  | [] => false

/-! ### The regulator (R257) -/

/-- A field of REG_LEVEL by class. -/
def levelFld (cls : Nat) : Fld :=
  match cls with
  | 0 => F.REG_LEVEL_LEVEL0
  | 1 => F.REG_LEVEL_LEVEL1
  | 2 => F.REG_LEVEL_LEVEL2
  | _ => F.REG_LEVEL_LEVEL3

/-- The copy of REG_CLASS of a cluster's class. -/
def classIx (g cls : Nat) : Nat := g * 4 + cls

/-- The transfer of an engine that waits for tokens of a class: the blocks its requests still need. -/
def owedOf (d : Dev) (c cls : Nat) (e : Engine) : Nat :=
  match (d.core c).engine e with
  | ⟨a :: _, some t⟩ =>
    match d.desc c a.stream with
    | some x => if x.cls = cls then t.owed else 0
    | none => 0
  | _ => 0

/-- Grant one request of up to 8 blocks (R209, R257). -/
def grantTokens (c g cls : Nat) (e : Engine) (n : Nat) : List Upd :=
  [.fld (levelFld cls) g (fun v => v - 4 * n),
   .core c (onEngine e fun en => { en with xfer := en.xfer.map fun t => { t with owed := t.owed - n } }),
   .cluster g fun s => { s with winner := mapSet (fun _ => 63) cls (c % 64) s.winner }]

/-- The requester that ranks first after the last winner (R210). -/
def nextRequester (d : Dev) (g cls : Nat) : Option (Nat × Engine × Nat) :=
  let last := mapGet (fun _ => 63) (d.cluster g).winner cls
  ((List.range 64).map fun j => 64 * g + (last + 1 + j) % 64).findSome? fun c =>
    engines.findSome? fun e => let o := owedOf d c cls e; if o = 0 then none else some (c, e, min 8 o)

/-- Grant requests in rotating priority while the level covers the next one. -/
def grantAll (g cls : Nat) : Nat → Act
  | 0, _ => []
  | fuel + 1, d =>
    match nextRequester d g cls with
    | none => []
    | some (c, e, n) =>
      if d.fld (levelFld cls) g < 4 * n then [] else
        inSequence [fun _ => grantTokens c g cls e n, grantAll g cls fuel] d

/-- The requests that a bucket can grant at most: its level over four. -/
def grantFuel (d : Dev) (g cls : Nat) : Nat := d.fld (levelFld cls) g / 4 + 1

/-- Whether a class of a cluster is regulated. -/
def Dev.regulated (d : Dev) (g cls : Nat) : Bool := d.bit F.REG_CLASS_EN (classIx g cls)

/-- REGULATOR_REFILL (R257, R266): each regulated bucket rises by RATE up to DEPTH, engines that waited count 64 cycles, and
waiting requests are granted. -/
def regulatorRefillAct (g : Nat) : Act :=
  forEach (fun cls d =>
    if !d.regulated g cls then [] else
      let i := classIx g cls
      inSequence [
        fun d => [.fld (levelFld cls) g fun v => min (d.fld F.REG_CLASS_DEPTH i) (v + d.fld F.REG_CLASS_RATE i)],
        fun d => (List.range 64).flatMap fun k =>
          let n := (engines.filter fun e => owedOf d (64 * g + k) cls e ≠ 0).length
          if n = 0 then [] else [addF F.STREAM_STALL_TOKEN_CYCLES (64 * g + k) (64 * n)],
        fun d => grantAll g cls (grantFuel d g cls) d ] d) [0, 1, 2, 3]

/-! ### Fetches -/

/-- A piece of a fetched string: its bytes, whether they carry a bad mark, the item they belong to, and the codec's outcome. -/
structure Piece where
  bytes : List Byte
  bad : Bool
  item : Nat
  code : Option Expanded

/-- The raw codes of a unit of 256 elements. -/
def unitCodes (code : Nat) (bs : List Byte) : List Nat :=
  if code = 0x0E then (List.range 256).map fun i => (ternTrit bs i + 1).toNat
  else
    let w := elemBits code
    (List.range 256).map fun i => natBits (leNat ((bs.drop (w * i / 8)).take 5)) (w * i % 8) w

/-- A unit in column-major order: source element 16i + j becomes element 16j + i (R246). -/
def transposeUnit (code : Nat) (bs : List Byte) : List Byte :=
  let xs := unitCodes code bs
  packElems code ((List.range 256).map fun p => xs[16 * (p % 16) + p / 16]?.getD 0)

/-- The blocks of HBM that a run touches, as address and length. -/
def blockPieces (a n : Nat) : List (Nat × Nat) :=
  if n = 0 then [] else
    (List.range ((a + n - 1) / 256 + 1 - a / 256)).map fun i =>
      let lo := max a ((a / 256 + i) * 256)
      (lo, min (a + n) ((a / 256 + i + 1) * 256) - lo)

/-- The pieces of one run of a fetch (R242, R246, R248). -/
def fetchRun (d : Dev) (x : Desc) (r : Run) : List Piece :=
  let turn := fun (code : Nat) (bs : List Byte) =>
    if x.transpose then (chunksOf bs.length (unitBytes code) bs).flatMap (transposeUnit code) else bs
  if x.coded then
    let (bs, bad) := d.readHbm r.addr (runExtent d x r.len)
    let tab := d.codecTable x.codecTable
    let ex := expandRun tab ⟨x.format, x.codecTable, r.len, r.len % 256 ≠ 0, r.len % 256, r.len⟩ bs
    [⟨turn ex.target ((expandedBytes tab ex).take (r.len * targetBytes ex.target)), bad || ex.bad, r.item, some ex⟩]
  else if x.transpose then
    let (bs, bad) := d.readHbm r.addr r.len
    [⟨turn x.format bs, bad, r.item, none⟩]
  else
    (blockPieces r.addr r.len).map fun p =>
      let (bs, bad) := d.readHbm p.1 p.2
      ⟨bs, bad, r.item, none⟩

/-- The string of a fetch in pieces. -/
def fetchString (d : Dev) (x : Desc) (runs : List Run) : List Piece := runs.flatMap (fetchRun d x)

/-- The bytes of a string. -/
def pieceBytes (ps : List Piece) : List Byte := ps.flatMap fun p => p.bytes

/-- The words of the string that bad pieces touch, with their tasks. -/
def badWords (ps : List Piece) : List (Nat × Nat) :=
  (ps.foldl (fun (acc : Nat × List (Nat × Nat)) p =>
    let n := p.bytes.length
    (acc.1 + n, if p.bad && 0 < n then
        acc.2 ++ (List.range ((acc.1 + n - 1) / 64 + 1 - acc.1 / 64)).map fun j => (acc.1 / 64 + j, p.item)
      else acc.2)) (0, [])).2

/-- Write bytes `[off, off + n)` of a fetched string into words of a core, keeping bad marks; `off` is a whole number of words. -/
def putString (c : Nat) (ws : List Nat) (ps : List Piece) (off n : Nat) : List Upd :=
  let bs := ((pieceBytes ps).drop off).take n
  let pad := List.replicate ((64 - bs.length % 64) % 64) (0 : Byte)
  let bad := badWords ps
  let marks := (ws.zip (List.range ws.length)).flatMap fun e =>
    (bad.filter fun b => b.1 = off / 64 + e.2).map fun b => (wordKey c e.1, b.2)
  writeWords c ws (bs ++ pad) [] ++ (if marks.isEmpty then [] else [.spmMarks fun m => m ++ marks])

/-- The failures of a fetched string: of the step, or of the items of its entries (R178, R205). -/
def stringFails (i t : Nat) (ps : List Piece) : List Upd :=
  failMarks i t ((ps.filter fun p => p.bad).map fun p => p.item).dedup

/-- What the codec records of a fetched string (R183–R185). -/
def stringCodec (c : Nat) (ps : List Piece) : Act :=
  forEach (fun p d => match p.code with
    | some ex => recordRun d ex c 6 false 0
    | none => []) ps

/-- End a wait for space: its cycles count (R266). -/
def endSpaceWait (d : Dev) (c : Nat) (e : Engine) (t : Xfer) : List Upd :=
  match t.waitFrom with
  | some w => [addF F.STREAM_STALL_SPACE_CYCLES c (d.cycles (d.now - w)),
      .core c (onEngine e fun en => { en with xfer := en.xfer.map fun t => { t with waitFrom := none } })]
  | none => []

/-- Move the engine's transfer on by some bytes. -/
def moveOn (c : Nat) (e : Engine) (n : Nat) : Upd :=
  .core c (onEngine e fun en => { en with xfer := en.xfer.map fun t => { t with moved := t.moved + n } })

/-- Write the next `n` bytes of a fetch into its region; a QUEUE's tail advances per word (R242, R243). -/
def fetchMove (c : Nat) (e : Engine) (a : Arm) (x : Desc) (t : Xfer) (ps : List Piece) (n : Nat) : Act := fun d =>
  let words := (n + 63) / 64
  let ws := match x.buf with
    | .queue => stringWords d c x a n
    | _ => (stringWords d c x a (t.moved + n)).drop (t.moved / 64)
  endSpaceWait d c e t ++ putString c ws ps t.moved n ++
    (if x.buf = .queue then advanceTail d c x.region words else []) ++
    [addF F.STREAM_WORDS_FETCHED c words, moveOn c e n]

/-! ### Drains -/

/-- A run of a drain with its bytes as the string gives them. -/
def drainRuns (d : Dev) (x : Desc) : List Run → List Byte → List (Run × List Byte)
  | [], _ => []
  | r :: rest, bs => (r, bs.take (runBytes d x r.len)) :: drainRuns d x rest (bs.drop (runBytes d x r.len))

/-- The bytes that a drained run writes to HBM: compressed when CODED (R248). -/
def drainBytes (d : Dev) (x : Desc) (bs : List Byte) (len : Nat) : List Byte :=
  if x.coded then
    match d.codecTable x.codecTable with
    | some t => steepRun x.format (tabLevels t) (unpackElems (tabTarget t) false bs len)
    | none => []
  else bs

/-- Blocks that a coded run of elements makes. -/
def codedBlocks (x : Desc) (len : Nat) : Nat := if x.coded then (len + 255) / 256 else 0

/-- Share bytes that an owner updates in TRAIN_FULL go to the copy of its X+ neighbour that SHADOW_SEL does not name (R35); the
neighbour's address is that of the same offset in its RING_SHADOW region, which the packet's ADDR names from the start of the
region. With LEN = 1 the module writes its own copy and mirrors it to its buddy. -/
def Dev.shareRing (d : Dev) (pkey : BitVec 12) (a : Nat) : Option Nat :=
  (d.boundRings pkey).find? fun k =>
    d.fld F.RING_CTL_MODE k = 2 && d.fld F.RING_SHARE_BASE k * 16384 ≤ a &&
      a < (d.fld F.RING_SHARE_BASE k + d.fld F.RING_SHARE_SIZE k) * 16384

/-- The start of the shadow copy that SHADOW_SEL does not name (R35, R57). -/
def Dev.spareCopy (d : Dev) (k : Nat) : Nat :=
  let size := d.fld F.RING_SHADOW_SIZE k * 16384 / 2
  d.fld F.RING_SHADOW_BASE k * 16384 + if d.bit F.RING_STATUS_SHADOW_SEL k then 0 else size

/-- The X+ neighbour on the ring: the next module along X that is a member of the slice (R34). -/
def Dev.ringNext (d : Dev) (s : SliceSt) : Coord :=
  match s.desc with
  | some e =>
    let steps := (List.range 16).map fun j => (List.range (j + 1)).foldl (fun c _ => d.stepOn c 0 true) d.here
    (steps.find? fun c => d.isMember e c).getD (d.stepOn d.here 0 true)
  | none => d.stepOn d.here 0 true

/-- SHADOW_UPDATE_SEND (R35): updated share bytes of step `t` on their way to the shadow.
(DEDUCED, log 69) -/
def shadowUpdate (i t a : Nat) (bs : List Byte) (bad : Bool) : Act := fun d =>
  match d.shareRing (d.slice i).pkey a with
  | none => []
  | some k =>
    let off := a - d.fld F.RING_SHARE_BASE k * 16384
    if d.fld F.RING_CTL_LEN k = 1 then
      inSequence [writeHbm (d.spareCopy k + off) bs bad, mirrorWrite i t a bs bad] d
    else
      let dst := d.ringNext (d.slice i)
      let ps := (pieces 4096 bs).map fun e =>
        { mkOrdered ptWrite d.here dst (d.slice i).pkey e.2 with
          mark := if bad then 1 else 0, addr := BitVec.ofNat 64 (d.spareCopy k + off + e.1) }
      ps.map Upd.inject

/-- Whether any word that bytes `[off, off + n)` of a string touch carries a bad mark. -/
def wordsBad (d : Dev) (c : Nat) (ws : List Nat) (off n : Nat) : Bool :=
  !(d.marksOf c ((ws.drop (off / 64)).take ((off % 64 + n + 63) / 64))).isEmpty

/-- Fold a drained run into the digest its arm names (R293, R504). -/
def foldDrain (i : Nat) (a : Arm) (addr : Nat) (bs : List Byte) (bad : Bool) : Act := fun d =>
  match a.digest with
  | some layer => digestFold (d.slice i).pkey a.firing.step a.firing.bwd layer a.firing.year addr bs bad d
  | none => []

/-- Write the drained bytes from `moved` on, a local drain: each run's part to its address (R242, R248). -/
def drainLocal (i : Nat) (a : Arm) (x : Desc) (bad : Bool) (es : List (Run × Nat × List Byte)) : Act :=
  forEach (fun e d =>
    let out := if x.coded then drainBytes d x e.2.2 e.1.len else e.2.2
    let addr := e.1.addr + e.2.1
    inSequence [
      fun _ => if x.coded then [addF F.CODEC_CMP_BLOCKS 0 (codedBlocks x e.1.len)] else [],
      storeStep i a.firing.step addr out bad,
      foldDrain i a addr out bad,
      shadowUpdate i a.firing.step addr out bad ] d) es

/-- The WRITE packets of a run of a REMOTE drain: up to 4,096 payload bytes each, or whole coded blocks (R168, R657). -/
def remotePackets (d : Dev) (x : Desc) (pkey : BitVec 12) (bad : Bool) (r : Run) (off : Nat) (bs : List Byte) : List Packet :=
  let base := fun (addr : Nat) (payload : List Byte) =>
    { mkOrdered ptWrite d.here x.dest pkey payload with
      mark := if bad then 1 else 0, item := BitVec.ofNat 32 r.item, addr := BitVec.ofNat 64 addr }
  if x.coded then
    match d.codecTable x.codecTable with
    | none => []
    | some t =>
      let es := targetBytes (tabTarget t)
      let per := 4096 / steepBlock x.format * 256
      (pieces (per * es) bs).map fun e =>
        let n := e.2.length / es
        let p := base (r.addr + off + e.1) (steepRun x.format (tabLevels t) (unpackElems (tabTarget t) false e.2 n))
        { setFlag p 4 true with
          container := BitVec.ofNat 8 x.format, codecTable := BitVec.ofNat 16 x.codecTable, elems := BitVec.ofNat 32 n }
  else (pieces 4096 bs).map fun e => base (r.addr + off + e.1) e.2

/-- Attach LAST, and the first waiting signal to the destination, to the final packet of a transfer (R321, R657). -/
def sealPackets (d : Dev) (pkey : BitVec 12) (c : Nat) (sig : Option AfterSig) (ps : List Packet) : List Packet :=
  match ps.getLast? with
  | none => []
  | some p =>
    let p := setFlag p 7 true
    let p := match sig with
      | some s => withExt p (signalPacket d pkey (s.dest.getD 0) s.kind false s.syncId s.value c).ext
      | none => p
    ps.dropLast ++ [p]

/-- The parts of the runs that bytes `[off, off + n)` of the string hold: the run, the offset within it and its bytes. -/
def partRuns : List (Run × List Byte) → Nat → Nat → List (Run × Nat × List Byte)
  | [], _, _ => []
  | (r, bs) :: rest, off, n =>
    if n = 0 then []
    else if bs.length ≤ off then partRuns rest (off - bs.length) n
    else
      let part := (bs.drop off).take n
      (r, off, part) :: partRuns rest 0 (n - part.length)

/-- The parts of runs with their bytes read from the string's unmoved words. -/
def drainParts (d : Dev) (x : Desc) (t : Xfer) (bs : List Byte) (n : Nat) : List (Run × Nat × List Byte) :=
  let whole := List.replicate t.moved (0 : Byte) ++ bs
  partRuns (drainRuns d x t.runs whole) t.moved n

/-- Read the next `n` bytes of a drain and write them; the head of a QUEUE advances past the words read whole (R240, R243). -/
def drainMove (c i : Nat) (e : Engine) (a : Arm) (x : Desc) (t : Xfer) (n : Nat) (final : Bool) : Act := fun d =>
  let skip := t.moved % 64
  let ws := match x.buf with
    | .queue => stringWords d c x a (skip + n)
    | _ => (stringWords d c x a (t.moved + n)).drop (t.moved / 64)
  let bs := ((d.readWords c ws).drop skip).take n
  let words := if final then (t.moved + n + 63) / 64 - t.moved / 64 else (t.moved + n) / 64 - t.moved / 64
  let es := drainParts d x t bs n
  let marks := d.marksOf c ws
  let bad := !marks.isEmpty
  let pkey := (d.slice i).pkey
  let sig := (aftersOf (d.core c) a).find? fun s => s.dest = some x.dest
  withParity c 6 ws (inSequence [
    fun d => endSpaceWait d c e t ++ failMarks i a.firing.step marks ++
      (if x.buf = .queue then advanceHead d c x.region words else []) ++
      [addF F.STREAM_WORDS_DRAINED c words, moveOn c e n],
    if x.remote then inSequence [
      fun d =>
        let ps := es.flatMap fun p => remotePackets d x pkey bad p.1 p.2.1 p.2.2
        let ps := if final then sealPackets d pkey c sig ps else ps
        (if x.coded then [addF F.CODEC_CMP_BLOCKS 0 ((es.map fun p => codedBlocks x p.1.len).sum)] else []) ++
          ps.map Upd.inject,
      forEach (fun p => foldDrain i a (p.1.addr + p.2.1) p.2.2 bad) es,
      fun _ => if final && !es.isEmpty then
        match sig with
        | some s => [.core c fun cs => { cs with afters := cs.afters.filter fun y => y ≠ s }]
        | none => []
        else [],
      fun d => if final && !es.isEmpty then
        match sig with
        | some s => completeOp c s.ctx s.opId d
        | none => []
        else [] ]
    else drainLocal i a x bad es ]) d

/-! ### Start, service and completion -/

/-- The engine's transfer in service. -/
def inService (d : Dev) (c : Nat) (e : Engine) : Option (Arm × Xfer × Desc) :=
  match (d.core c).engine e with
  | ⟨a :: _, some t⟩ => (d.desc c a.stream).map fun x => (a, t, x)
  | _ => none

/-- Bytes of a QUEUE transfer that can move now: words with room for a fetch, words held for a drain; whole runs of a coded drain
(R198, R243). -/
def queueBytes (d : Dev) (c : Nat) (x : Desc) (t : Xfer) : Nat :=
  let left := stringBytes d x t.runs - t.moved
  if x.drain then
    let have_ := d.regionOcc c x.region * 64 - t.moved % 64
    if left ≤ have_ then left
    else if x.coded then
      (t.runs.foldl (fun (acc : Nat × Nat) r =>
        let e := acc.1 + runBytes d x r.len
        (e, if e ≤ t.moved + have_ then e else acc.2)) (0, t.moved)).2 - t.moved
    else have_
  else min left (d.regionRoom c x.region * 64)

/-- Move what a QUEUE region lets an engine move, and wait for the rest (R198, R254, R266). -/
def serveQueue (c i : Nat) (e : Engine) : Act := fun d =>
  match inService d c e with
  | none => []
  | some (a, t, x) =>
    let n := queueBytes d c x t
    let left := stringBytes d x t.runs - t.moved
    let wait := fun (d : Dev) => if n < left then
        [Upd.core c (onEngine e fun en => { en with xfer := en.xfer.map fun t =>
          { t with waitFrom := if t.waitFrom.isSome then t.waitFrom else some d.now } })] else []
    if n = 0 || n = left then wait d
    else inSequence [
      if x.drain then drainMove c i e a x t n false else fetchMove c e a x t (fetchString d x t.runs) n,
      wait ] d

/-- The SEQ_ERR bit of a re-arm whose extent is out of range at run time (R291, R312). -/
def rearmFault (c : Nat) (a : Arm) (bit : Fld) : List Upd :=
  if a.rearmed && bit = F.STREAM_ERR_ADDR then flagSeq c F.SEQ_ERR_REARM_EXTENT else []

/-- A transfer starts: its runs are found, its blocks are charged to the regulator of its cluster, and a QUEUE moves what it can
(R238, R256, R257). -/
def beginXfer (c i : Nat) (e : Engine) (a : Arm) (x : Desc) (runs : List Run) (listBlocks : Nat) : Act := fun d =>
  let g := clusterOf c
  let blocks := listBlocks + (if x.remote then 0 else (runs.map fun r => (blockPieces r.addr (runExtent d x r.len)).length).sum)
  let owed := if d.regulated g x.cls then blocks else 0
  let members := if x.mcast then (d.mcastGroup c x.group).elim [] groupMembers else []
  let waits := !(members.all fun m => memberReady d e a.stream a.armNo m)
  inSequence [
    fun d => [.core c (onEngine e fun en => { en with
      xfer := some ⟨runs, 0, d.now, if waits then some d.now else none, owed⟩ })],
    onlyIf (0 < owed) (fun d => grantAll g x.cls (grantFuel d g x.cls) d),
    onlyIf (x.buf = .queue && !x.mcast) (serveQueue c i e) ] d

/-- STREAM_TRANSFER_START (R238, R256): the engine starts its next arm. A run-time fault aborts the task; a string of no bytes
completes at once, at every member of a multicast; a member other than the root only waits for the root's blocks. -/
def streamTransferStartAct (c : Nat) (e : Engine) : Act := fun d =>
  match d.coreSlice c, (d.core c).engine e with
  | some i, ⟨a :: _, none⟩ =>
    match d.desc c a.stream with
    | none => []
    | some x =>
      if !d.coreRuns c then [] else
        let group := if x.mcast then d.mcastGroup c x.group else none
        let root := (group.map groupRootCore).getD c
        if root ≠ c then
          if a.armNo.toNat ≤ (countOf (d.core root).doneCnt a.stream).toNat &&
              !(memberReady d e a.stream a.armNo root) then finishArm c e a d
          else [.core c (onEngine e fun en => { en with xfer := some ⟨[], 0, d.now, none, 0⟩ })]
        else
          withParity c (if x.drain then 6 else 5) (if x.rtCount then [x.rtWord] else []) (fun d =>
            match startRuns d c x a (d.slice i).pkey with
            | .fault bit h =>
              inSequence [fun _ => rearmFault c a bit, abortTask c e a bit 0x10 (if x.entryTask then some h else none)] d
            | .runs rs blocks =>
              if stringBytes d x rs = 0 then
                let others := ((group.map groupMembers).getD []).filter fun m => m ≠ c && memberReady d e a.stream a.armNo m
                inSequence [finishArm c e a,
                  forEach (fun m d => match ((d.core m).engine e).queue with
                    | b :: _ => finishArm m e b d
                    | [] => []) others] d
              else beginXfer c i e a x rs blocks d) d
  | _, _ => []

/-- REGION_WAIT_SERVED (R198): an engine that waits on a QUEUE region moves what the region now lets it move. -/
def regionWaitServedAct (c : Nat) (e : Engine) : Act := fun d =>
  match d.coreSlice c, inService d c e with
  | some i, some (_, t, x) =>
    if d.coreRuns c && x.buf = .queue && !x.mcast && t.owed = 0 then serveQueue c i e d else []
  | _, _ => []

/-- The start of a gradient leaf when its drain completes at the owner's downstream neighbour (R45, R46); defined with the ring. -/
abbrev DrainHook := Nat → Arm → Desc → List Byte → Act

/-- STREAM_TRANSFER_COMPLETE (R240): a fetch's last word is written, or a drain's last block is accepted or last packet handed to
the port; DONE counts, waiters wake, and the signals behind it go. A multicast transfer completes once its blocks have been
sent. -/
def streamTransferComplete (hook : DrainHook) (c : Nat) (e : Engine) : Act := fun d =>
  match d.coreSlice c, inService d c e with
  | some i, some (a, t, x) =>
    let total := stringBytes d x t.runs
    let left := total - t.moved
    if !d.coreRuns c || t.owed ≠ 0 then []
    else if x.mcast then
      let root := ((d.mcastGroup c x.group).map groupRootCore).getD c
      if root = c then (if left = 0 then finishArm c e a d else [])
      else if memberReady d e a.stream a.armNo root then
        match inService d root e with
        | some (_, tr, xr) => if 0 < t.moved && stringBytes d xr tr.runs ≤ t.moved then finishArm c e a d else []
        | none => []
      else if 0 < t.moved then finishArm c e a d else []
    else if x.buf = .queue && queueBytes d c x t < left then []
    else if x.drain then
      let bs := (d.readWords c (stringWords d c x a total)).take total
      inSequence [drainMove c i e a x t left true, fun d => if d.coreRuns c then hook c a x bs d else [],
        fun d => if d.coreRuns c then finishArm c e a d else []] d
    else
      let ps := fetchString d x t.runs
      inSequence [
        fun _ => stringFails i a.firing.step ps,
        stringCodec c ps,
        fetchMove c e a x t ps left,
        finishArm c e a ] d
  | _, _ => []

/-- MCAST_BLOCK_SEND (R253): the next block of the root's read goes to every member once each has armed the same arm and has
room.
(DEDUCED, log 71) -/
def mcastBlockSendAct (c : Nat) (e : Engine) : Act := fun d =>
  match d.coreSlice c, inService d c e with
  | some i, some (a, t, x) =>
    match if x.mcast then d.mcastGroup c x.group else none with
    | none => []
    | some g =>
      let ms := groupMembers g
      let left := stringBytes d x t.runs - t.moved
      let n := min 256 left
      let room := fun m => x.buf ≠ .queue || (n + 63) / 64 ≤ d.regionRoom m x.region
      if groupRootCore g ≠ c || !d.coreRuns c || t.owed ≠ 0 || n = 0 || !(ms.all fun m => memberReady d e a.stream a.armNo m) ||
          !(ms.all room) then []
      else
        let ps := fetchString d x t.runs
        inSequence [
          onlyIf (t.moved = 0) (inSequence [fun _ => stringFails i a.firing.step ps, stringCodec c ps]),
          forEach (fun m d =>
            match (d.core m).engine e with
            | ⟨b :: _, xm⟩ =>
              let tm := xm.getD ⟨[], 0, d.now, none, 0⟩
              inSequence [
                fun _ => [.core m (onEngine e fun en => { en with xfer := some tm })],
                fetchMove m e b x { tm with moved := t.moved } ps n ] d
            | _ => []) ms ] d
  | _, _ => []

/-- STREAM_WATCHDOG_EXPIRE (R330): the transfer's task aborts with FAILED_TIMEOUT and the safe state follows as for the wait
watchdog. -/
def streamWatchdogExpireAct (c : Nat) (e : Engine) : Act := fun d =>
  match d.coreSlice c, inService d c e with
  | some i, some (a, t, x) =>
    if d.expired t.start (d.fld F.SYNC_CFG_STREAM_WD) then
      let item := if x.entryTask then (t.runs.head?).map fun r => r.item else none
      inSequence [
        fun d => flagSync d F.SYNC_ERR_STREAM_WD (d.slice i).pkey.toNat 0 d.here.toNat c,
        abortTask c e a F.STREAM_ERR_TIMEOUT 0x40 item,
        timeoutSlice i (d.bit F.SYNC_CFG_WD_SAFE) 5 ] d
    else []
  | _, _ => []

end Sys2Proof.Machine
end

