-- ==== Sys2Proof/Machine/Place.lean ====
section
/-! DEFINITION. The placement checks of a binding (R274): those of its cues and operations (07), its arithmetic (02, 03), regions,
streams and tables (05, 06), sync words (08), the slice map (10), committed state (11) and determinism (12). Each check gives the
statuses of what failed; CFG_ZERO goes before CFG_PLAN. -/

namespace Sys2Proof.Machine

/-! ### The regions of a program (R200) -/

/-- A field of a register word that a schedule carries. -/
def wordFld (w : BitVec 64) (f : Fld) : Nat := bitsOf w f.hi f.lo

def regEn (w : BitVec 64) : Bool := wordFld w F.SPM_REGION_EN = 1
def regProdW (w : BitVec 64) : Nat := wordFld w F.SPM_REGION_PROD
def regConsW (w : BitVec 64) : Nat := wordFld w F.SPM_REGION_CONS
def regBaseW (w : BitVec 64) : Nat := wordFld w F.SPM_REGION_BASE
def regSizeW (w : BitVec 64) : Nat := wordFld w F.SPM_REGION_SIZE

/-- A region entry of a program; an absent one is disabled. -/
def regionAt (p : Program) (n : Nat) : BitVec 64 := p.regions[n]?.getD 0

/-- Whether an engine code names an engine (R188). -/
def engineCode (e : Nat) : Bool := 1 ≤ e && e ≤ 8

/-- Region checks (R200). -/
def regionChecks (p : Program) : List Nat :=
  let rs := p.regions.filter regEn
  chk (rs.any fun w => regSizeW w = 0) cfgZero ++
  chk (rs.any fun w => 3072 < regBaseW w + regSizeW w || regProdW w = regConsW w || !engineCode (regProdW w) ||
    !engineCode (regConsW w)) cfgPlan ++
  chk ((List.range rs.length).any fun i => (List.range rs.length).any fun j => i < j &&
    match rs[i]?, rs[j]? with
    | some a, some b => regBaseW a < regBaseW b + regSizeW b && regBaseW b < regBaseW a + regSizeW a
    | _, _ => false) cfgPlan

/-! ### Operations in their loops (R296) -/

/-- An operation with the loops that enclose it, outermost first: the immediate count of each, none for a run-time one. -/
structure OpAt where
  word : BitVec 128
  loops : List (Option Nat)

/-- Walk the operations of a cue from index `i` to `stop`, with the loops open (end, count), innermost first. The flag tells
whether every loop stays within its cue and its enclosing body, four deep at most. -/
def walkOps (ops : List (BitVec 128)) (stop : Nat) : Nat → Nat → List (Nat × Option Nat) → List OpAt × Bool
  | 0, _, _ => ([], true)
  | fuel + 1, i, loops =>
    if stop ≤ i then ([], true) else
      let inner := loops.filter fun l => i < l.1
      match ops[i]? with
      | none => ([], false)
      | some w =>
        let here : OpAt := ⟨w, inner.reverse.map fun l => l.2⟩
        if opKind w = some .loop then
          let e := i + 1 + loopBody w
          let fits := e ≤ stop && inner.all (fun l => e ≤ l.1) && inner.length < 4
          let (rest, ok) := walkOps ops stop fuel (i + 1)
            ((e, if loopRt w then none else some (loopCount w)) :: inner)
          (here :: rest, ok && fits)
        else
          let (rest, ok) := walkOps ops stop fuel (i + 1) inner
          (here :: rest, ok)

/-- The operations of a cue. -/
def cueOps (p : Program) (cue : BitVec 128) : List OpAt × Bool :=
  walkOps p.ops (cueOpFirst cue + cueOpCount cue) (cueOpCount cue) (cueOpFirst cue) []

/-! ### Chains of TILEs (R288) -/

/-- The members of a chain must agree in shape, form, unit, function and formats.
(DEDUCED, log 90) -/
def chainDiffers (a b : TileFields) : Bool :=
  a.hold && b.cont && !(a.m = b.m && a.n = b.n && a.wide = b.wide && a.unit = b.unit && a.func = b.func &&
    a.wfmt = b.wfmt && a.xfmt = b.xfmt && a.cfmt = b.cfmt && a.ofmt = b.ofmt)

/-- Some pair of consecutive elements satisfies a test. -/
def anyConsecutive (f : TileFields → TileFields → Bool) : List TileFields → Bool
  | a :: b :: rest => f a b || anyConsecutive f (b :: rest)
  | _ => false

/-- The TILEs among operations. -/
def tilesIn (ops : List (BitVec 128)) : List TileFields :=
  (ops.filter fun w => opKind w = some .tile).map tileFields

/-- Chains that differ within a cue: consecutive TILEs, and the last and first TILE of a loop body. -/
def cueChainBad (p : Program) (cue : BitVec 128) : Bool :=
  let range := (p.ops.drop (cueOpFirst cue)).take (cueOpCount cue)
  anyConsecutive chainDiffers (tilesIn range) ||
    (List.range range.length).any fun i =>
      match range[i]? with
      | some w =>
        let body := tilesIn ((range.drop (i + 1)).take (loopBody w))
        opKind w = some .loop && (match body.getLast?, body.head? with
          | some a, some b => chainDiffers a b
          | _, _ => false)
      | none => false

/-- Chains that differ between cues of one context. -/
def crossChainBad (p : Program) : Bool :=
  let ends := p.cues.map fun c => (cueCtx c, tilesIn ((p.ops.drop (cueOpFirst c)).take (cueOpCount c)))
  ends.any fun a => ends.any fun b => a.1 = b.1 && match a.2.getLast?, b.2.head? with
    | some x, some y => chainDiffers x y
    | _, _ => false

/-! ### TILE, VEC and SFU (R97, R128, R130, R147, R289, R290, R495) -/

/-- What bit-serial mode accepts (R94, R97, R128). -/
def serialOk (t : TileFields) : Bool :=
  [0x0B, 0x0C, 0x0D, 0x0E, 0x0F, 0x10, 0x11, 0x12, 0x13].contains t.wfmt && [0x0A, 0x0B, 0x0C, 0x0D].contains t.xfmt &&
    !t.wide && t.func = 0 && !t.sclW && !t.sclX

/-- A TILE that a core cannot run (R97, R128, R130, R147). -/
def tileBad (g : Geom) (t : TileFields) : Bool :=
  let onArrays := t.m ≠ 0 && t.n ≠ 0 && shapeUnit g t = .arrays
  let arrays := [false, true].filter fun b => g.width b ≠ 0
  (t.sclW && !scalable t.wfmt) || (t.sclX && !scalable t.xfmt) || (t.cuse && t.sclC && !scalable t.cfmt) ||
    (t.sclO && !scalable t.ofmt) || !pairOk t.wfmt t.xfmt || isSerial t.ofmt || (t.wide && t.func ≠ 0) ||
    (onArrays && arrays.any fun b => if g.serial b then !serialOk t else isSerial t.wfmt)

/-- A NET weight queue limits the rows (R289). -/
def netRowsBad (p : Program) (t : TileFields) : Bool :=
  let r := regionAt p t.wreg
  regEn r && regProdW r = 8 && (if t.wide then 128 else 512) < t.m

/-- The checks of a VEC or SFU (R290, R495). -/
def vecChecks (p : Program) (det sfu : Bool) (v : VecFields) : List Nat :=
  let rows := !sfu && (v.fn = 9 || v.fn = 10)
  let queue := (p.streams.any fun s => let x := descOf s; x.region = v.dreg && x.buf = .queue) ||
    (regEn (regionAt p v.dreg) && regProdW (regionAt p v.dreg) = 8)
  chk (rows && v.row = 0) cfgZero ++
  chk (rows && v.len % max 1 v.row ≠ 0) cfgPlan ++
  chk (sfu && !(isFloat v.sfmt && isFloat v.dfmt)) cfgPlan ++
  chk (!sfu && (v.fn = 4 || v.fn = 12) && queue) cfgPlan ++
  chk (!sfu && v.fn = 12 && (det || v.dfmt ≠ 0)) cfgPlan ++
  chk (!sfu && v.fn = 11 && v.sfmt ≠ v.dfmt) cfgPlan

/-! ### Streams (R245–R247, R255, R260, R291, R657) -/

/-- The least and greatest offset of a strided extent from its base, with its length added; none for no access. -/
def strideSpan (d : Dev) (x : Desc) (count1 : Nat) : Option (Int × Int) :=
  if x.rowLen = 0 || count1 = 0 || x.count2 = 0 || x.count3 = 0 then none else
    let reach := fun (n : Nat) (s : Int) => ((n - 1 : Nat) : Int) * s
    let ds := [reach count1 x.stride1, reach x.count2 x.stride2, reach x.count3 x.stride3]
    some ((ds.map fun v => min 0 v).sum, (ds.map fun v => max 0 v).sum + (runExtent d x x.rowLen : Nat))

/-- Whether a base is bad for a descriptor as far as placement can tell (R245). -/
def baseBad (d : Dev) (x : Desc) (base : Int) : Bool :=
  if x.indirect || x.rtCount then
    !extentOk base 0 || base = (hbmSize : Int) || (x.indirect && !x.rtCount && !extentOk base (16 * x.count1))
  else match strideSpan d x x.count1 with
    | none => false
    | some (lo, hi) => base + lo < 0 || (hbmSize : Int) < base + hi

/-- The whole words of a string that placement knows (R245). -/
def planWords (d : Dev) (x : Desc) : Option Nat :=
  if x.indirect || x.rtCount then none
  else some ((x.count1 * x.count2 * x.count3 * runBytes d x x.rowLen + 63) / 64)

/-- Whether a word offset is bad for a descriptor's region (R245). -/
def offsetBad (d : Dev) (p : Program) (x : Desc) (off : Nat) : Bool :=
  let r := regionAt p x.region
  match x.buf with
  | .queue => off ≠ 0
  | .linear => (planWords d x).any fun w => regSizeW r < off + w
  | .double => (planWords d x).any fun w => regSizeW r / 2 < off + w

/-- Whether an extent at another module is bad where placement knows it (R657). -/
def remoteBad (d : Dev) (pkey : BitVec 12) (x : Desc) (base : Int) : Bool :=
  if x.indirect || x.rtCount then false
  else match strideSpan d x x.count1 with
    | none => false
    | some _ => (strideAddrs x base x.count1).any fun a => !remoteOk d pkey a.toNat (runExtent d x x.rowLen)

/-- The transposed unit must fill whole runs (R246). -/
def wholeUnits (d : Dev) (x : Desc) : Bool :=
  if x.coded then x.rowLen % 256 = 0 else x.rowLen % max 1 (unitBytes x.format) = 0 && runBytes d x x.rowLen = x.rowLen

/-- The producer or consumer code of a descriptor's engine (R188). -/
def Desc.code (x : Desc) : Nat := if x.drain then 6 else 5

/-- The checks of one descriptor (R245–R247, R255, R657). -/
def descChecks (d : Dev) (sl : SliceSt) (p : Program) (x : Desc) : List Nat :=
  let r := regionAt p x.region
  let member := sl.desc.any fun e => d.isMember e x.dest
  chk (x.drain && x.engine1) cfgPlan ++
  chk (!regEn r) cfgPlan ++
  chk (baseBad d x x.base) cfgPlan ++
  chk (offsetBad d p x x.spmOff) cfgPlan ++
  chk (x.buf = .double && regSizeW r % 2 = 1) cfgPlan ++
  chk (x.buf = .queue && (if x.drain then regConsW r else regProdW r) ≠ x.code) cfgPlan ++
  chk (16777216 < x.rowLen) cfgPlan ++
  chk (x.transpose && (x.drain || x.scaled || !wholeUnits d x)) cfgPlan ++
  chk (x.scaled && (!scalable x.format || x.rowLen % max 1 (unitSize x.format true) ≠ 0)) cfgPlan ++
  chk (x.indirect && (x.stride1 ≠ 0 || x.count2 ≠ 1 || x.count3 ≠ 1)) cfgPlan ++
  chk (x.coded && !((d.codecTable x.codecTable).any fun t => tabContainer t = x.format)) cfgPlan ++
  chk (x.remote && (!x.drain || x.mcast || !member || remoteBad d sl.pkey x x.base)) cfgPlan

/-- The index values of a REARM that placement knows: the first and the last (R291). -/
def rearmIndices (w : BitVec 128) (rep : Nat) (loops : List (Option Nat)) : List Nat :=
  let ends := fun (n : Nat) => if n = 0 then [] else [0, n - 1]
  if rearmSel w = 0 then [0]
  else if rearmSel w = 5 then ends rep
  else match loops[rearmSel w - 1]? with
    | some (some n) => ends n
    | _ => []

/-- The checks of a REARM (R245, R260, R291, R657). -/
def rearmChecks (d : Dev) (sl : SliceSt) (p : Program) (w : BitVec 128) (rep : Nat) (loops : List (Option Nat)) : List Nat :=
  match p.streams[opStream w]? with
  | none => [cfgPlan]
  | some s =>
    let x := descOf s
    let bases := (rearmIndices w rep loops).map fun i => (rearmBase w : Int) + rearmStep w * i
    chk (!x.persist) cfgPlan ++
    chk (1 ≤ rearmSel w && rearmSel w ≤ 4 && loops.length < rearmSel w) cfgPlan ++
    chk (offsetBad d p x (rearmOff w)) cfgPlan ++
    chk (bases.any fun b => baseBad d x b || (x.remote && remoteBad d sl.pkey x b)) cfgPlan

/-! ### Sync operations (R316) -/

/-- The checks of a SIGNAL or SYNCWAIT (R316). -/
def syncOpBad (d : Dev) (pkey : BitVec 12) (w : BitVec 128) : Bool :=
  let e := d.syncEntry pkey (opSyncId w)
  if opKind w = some .signal then
    (signalKind w = 2 && opValue w ≠ 0) ||
    (if signalRemote w then signalKind w = 2 && !(syncType e = 2 || syncType e = 3)
     else if signalKind w = 2 then syncType e ≠ 2 else syncType e ≠ 1)
  else if waitCond w = 3 then !(syncType e = 2 || syncType e = 3) else syncType e ≠ 1

/-- The words of two entries meet. -/
def sameWord (a b : BitVec 128) : Bool := syncLoc a = syncLoc b

/-- The checks of a sync table for a schedule (R316, R327). -/
def syncChecks (d : Dev) (s : Schedule) : List Nat :=
  match d.syncTable s.pkey with
  | none => []
  | some t =>
    let es := (t.entries.map Prod.snd).filter fun e => syncType e ≠ 0
    let inRegions := fun (e : BitVec 128) =>
      syncPlace e = 0 && (s.prog (syncCore e)).any fun p => p.regions.any fun r =>
        regEn r && regBaseW r ≤ syncAddr e / 8 && syncAddr e / 8 < regBaseW r + regSizeW r
    chk (es.any fun e => syncType e = 2 && syncParties e = 0) cfgZero ++
    chk (t.releases.any fun l => l.isEmpty) cfgZero ++
    chk (es.any fun e => syncPlace e = 0 && (25600 ≤ syncCore e || 24576 ≤ syncAddr e)) cfgPlan ++
    chk (es.any inRegions) cfgPlan ++
    chk (es.any fun e => syncPlace e ≠ 0 && !(d.regions.any fun r => regionCommitted r && regionPkey r = s.pkey.toNat &&
      inRegion r (syncAddr e * 8))) cfgPlan ++
    chk ((List.range es.length).any fun i => (List.range es.length).any fun j => i < j &&
      match es[i]?, es[j]? with
      | some a, some b => sameWord a b
      | _, _ => false) cfgPlan ++
    chk (es.any fun e => syncType e = 2 && syncRelease e ≠ 1023 && t.releases.length ≤ syncRelease e) cfgPlan

/-! ### A program (R273, R277, R286–R296) -/

/-- The checks of one operation in its cue. -/
def opChecks (d : Dev) (sl : SliceSt) (det : Bool) (p : Program) (rep : Nat) (o : OpAt) : List Nat :=
  let w := o.word
  let n := p.streams.length
  match opKind w with
  | some .loop => chk (loopBody w = 0) cfgZero
  | some .tile => chk (netRowsBad p (tileFields w)) cfgPlan
  | some .vec => vecChecks p det false (vecFields w)
  | some .sfu => vecChecks p det true (vecFields w)
  | some .arm => chk (n ≤ opStream w) cfgPlan
  | some .rearm => rearmChecks d sl p w rep o.loops
  | some .swait => chk (n ≤ opStream w) cfgPlan
  | some .digest => chk (n ≤ opStream w) cfgPlan ++
      chk (digestOnBit w && !(d.regions.any fun r => regionType r = 7)) cfgPlan
  | some .swap => chk (!(p.streams.any fun s => let x := descOf s; x.region = swapRegion w && x.buf = .double)) cfgPlan
  | some .signal => chk (syncOpBad d sl.pkey w) cfgPlan
  | some .syncwait => chk (syncOpBad d sl.pkey w) cfgPlan
  | _ => []

/-- The checks of a cue and its operations (R277, R296). -/
def cueChecks (d : Dev) (sl : SliceSt) (det : Bool) (mode : Nat) (p : Program) (cue : BitVec 128) : List Nat :=
  let (ops, nested) := cueOps p cue
  chk (p.ops.length < cueOpFirst cue + cueOpCount cue || 64 * p.nsets ≤ cueCtx cue ||
    (cuePeriod cue = 0 && 1 < cueRepeat cue) ||
    (3 ≤ cueTrig cue && (cueFwd cue || mode ≠ 2))) cfgPlan ++
  chk (!nested) cfgPlan ++
  chk (cueChainBad p cue) cfgPlan ++
  ops.flatMap (opChecks d sl det p (cueRepeat cue))

/-- The checks of a program that no core's geometry enters (R200, R273). -/
def programChecks (d : Dev) (sl : SliceSt) (det : Bool) (mode : Nat) (p : Program) : List Nat :=
  chk (p.nsets = 0) cfgZero ++
  chk (1024 < p.cues.length || 2048 < p.ops.length || 256 < p.streams.length || 4 < p.nsets) cfgPlan ++
  regionChecks p ++
  p.streams.flatMap (fun s => descChecks d sl p (descOf s)) ++
  chk (crossChainBad p) cfgPlan ++
  p.cues.flatMap (cueChecks d sl det mode p)

/-! ### Tables of the schedule (R250, R252, R257, R505) -/

/-- The taking-part cores of a schedule with their programs (R272). -/
def takersOf (s : Schedule) : List (Nat × Program) :=
  s.coreMap.filterMap fun e => if e.1 < coreCount then (s.programs[e.2]?).map fun p => (e.1, p) else none

/-- The checks of a cluster record (R250, R257). -/
def clusterChecks (s : Schedule) (e : Nat × ClusterRec) : List Nat :=
  let takers := (takersOf s).filter fun c => clusterOf c.1 = e.1
  let en := fun (w : BitVec 64) => wordFld w F.REG_CLASS_EN = 1
  chk (1024 < e.2.leafTable.length) cfgPlan ++
  chk (e.2.leafTable.any fun w => bitsOf w 95 64 = 0 && 1 < bitsOf w 127 96) cfgPlan ++
  chk (e.2.leafTable.any fun w => takers.any fun c =>
    let r := regionAt c.2 (bitsOf w 20 16)
    !(regEn r && regProdW r = 8)) cfgPlan ++
  chk (e.2.regClass.any fun w => en w && wordFld w F.REG_CLASS_RATE = 0) cfgZero ++
  chk (e.2.regClass.any fun w => en w && wordFld w F.REG_CLASS_DEPTH < 32) cfgPlan

/-- The multicast descriptors of a program for a group, with their stream numbers. -/
def groupDescs (p : Program) (g : Nat) : List (Nat × BitVec 512) :=
  ((List.range p.streams.length).zip p.streams).filter fun e => let x := descOf e.2; x.mcast && x.group = g

/-- The checks of the multicast group table (R252). -/
def mcastChecks (s : Schedule) : List Nat :=
  chk (1024 < s.mcast.length) cfgPlan ++
  ((List.range s.mcast.length).zip s.mcast).flatMap fun e =>
    let ms := groupMembers e.2
    let descs := fun (c : Nat) => ((s.prog c).map fun p => groupDescs p e.1).getD []
    chk ms.isEmpty cfgZero ++
    chk (400 ≤ groupRoot e.2 || !ms.contains (groupRootCore e.2)) cfgPlan ++
    chk (ms.any fun c => descs c ≠ descs (groupRootCore e.2)) cfgPlan

/-- The (BWD, LAYER) pairs that the DIGEST operations of a schedule name (R505). -/
def digestPairs (s : Schedule) : List (Bool × Nat) :=
  (s.programs.flatMap fun p => p.cues.flatMap fun c =>
    let ls := ((p.ops.drop (cueOpFirst c)).take (cueOpCount c)).filter fun w => opKind w = some .digest && digestOnBit w
    ls.flatMap fun w => (if cueFwd c then [(false, digestLayer w)] else []) ++
      (if cueBwd c then [(true, digestLayer w)] else [])).dedup

/-- The checks of a schedule against the module (R97, R273, R274). -/
def scheduleChecks (d : Dev) (k : Nat) (sl : SliceSt) (s : Schedule) : List Nat :=
  let det := d.bit F.DET_CTL_DET_MODE
  chk s.programs.isEmpty cfgZero ++
  chk (25600 < s.programs.length) cfgPlan ++
  chk (s.coreMap.any fun e => e.2 ≠ 65535 && s.programs.length ≤ e.2) cfgPlan ++
  chk (s.daysCw.toNat ≠ d.fld F.RING_DAYS_DAYS_CW k || s.daysCcw.toNat ≠ d.fld F.RING_DAYS_DAYS_CCW k) cfgPlan ++
  (s.programs.flatMap fun p => programChecks d sl det s.mode.toNat p) ++
  chk ((takersOf s).any fun c => (tilesIn c.2.ops).any (tileBad (d.geom c.1))) cfgPlan ++
  s.clusters.flatMap (clusterChecks s) ++
  mcastChecks s ++
  chk (256 < (digestPairs s).length) cfgPlan ++
  syncChecks d s

/-! ### HBM regions and committed state (R214, R445, R449, R506) -/

/-- The (base, size) of every ring share and of every shadow in use, in bytes. -/
def Dev.ringRegions (d : Dev) : List (Nat × Nat) :=
  [0, 1, 2, 3].flatMap fun k =>
    [(d.fld F.RING_SHARE_BASE k * 16384, d.fld F.RING_SHARE_SIZE k * 16384)] ++
      (if (d.plan k).usesShadow then [(d.fld F.RING_SHADOW_BASE k * 16384, d.fld F.RING_SHADOW_SIZE k * 16384)] else [])

/-- Two extents overlap. -/
def meets (a b : Nat × Nat) : Bool := a.1 < b.1 + b.2 && b.1 < a.1 + a.2

/-- The checks of the HBM region table (R214, R506). -/
def Dev.tableChecks (d : Dev) : List Nat :=
  let rs := d.regions.map fun e => (regionBase e, regionSize e)
  chk (rs.any fun r => r.2 = 0) cfgZero ++
  chk (rs.any fun r => hbmSize < r.1 + r.2) cfgPlan ++
  chk ((List.range rs.length).any fun i => (List.range rs.length).any fun j => i < j &&
    match rs[i]?, rs[j]? with
    | some a, some b => meets a b
    | _, _ => false) cfgPlan ++
  chk (rs.any fun r => d.ringRegions.any (meets r)) cfgPlan ++
  chk (1 < (d.regions.filter fun e => regionType e = 7).length) cfgPlan

/-- Committed bytes of the module: its COMMITTED regions and the core state records (R449). -/
def Dev.committedBytes (d : Dev) : Nat :=
  ((d.regions.filter regionCommitted).map regionSize).sum + 25600 * 16384

/-- The committed copy of the share of a ring of one in TRAIN_FULL (R35, R449). -/
def Dev.ownCopyBytes (d : Dev) (k : Nat) : Nat :=
  let p := d.plan k
  if p.mode = 2 && p.len = 1 then p.shareUnits 0 * 16384 else 0

/-- The size checks of committed state (R449); a machine of one module has no mirror to check. -/
def Dev.commitChecks (d : Dev) (k : Nat) : List Nat :=
  let bytes := d.committedBytes
  let all := bytes + d.ownCopyBytes k
  let mirror := ((d.regions.filter fun e => regionType e = 4).map regionSize).sum
  chk (42949672960 < bytes) cfgPlan ++
  chk (d.buddyAxis.isSome && mirror < all) cfgPlan ++
  chk (2 * d.commitLogHalf < 2 * (268435456 + all / 16)) cfgPlan

/-- Years of a step of a mode (R302). -/
def stepYears (mode : Nat) : Nat := if mode = 0 then 1 else 2

/-- FIRST_YEAR of a resumed slice follows the last year of its last committed step (R445). -/
def resumeBad (d : Dev) (k : Nat) (sl : SliceSt) : Bool :=
  match sl.baseYear, sl.committed with
  | some b, some c => d.fld F.RING_YEARS_FIRST_YEAR k ≠ (b + (c + 1) * stepYears (d.fld F.RING_CTL_MODE k)) % yearMod
  | _, _ => false

/-! ### The binding (R274) -/

/-- The schedules of the library that match a ring context, by index (R274). -/
def Dev.matching (d : Dev) (k : Nat) : List Nat :=
  (List.range d.schedLib.length).filter fun j => match d.schedLib[j]? with
    | some s => s.pkey.toNat = d.fld F.RING_CTL_PKEY k && s.section5.toNat = d.fld F.RING_CTL_SECTION k &&
        s.mode.toNat = d.fld F.RING_CTL_MODE k && s.baseGen.toNat = d.fld F.RING_CTL_BASE_GEN k
    | none => false

/-- Every check of placing a binding on ring context `k`: the statuses of what fails (R274).
(DEDUCED, log 89) -/
def Dev.placementChecks (d : Dev) (k : Nat) : List Nat :=
  let i := (d.sliceOf (BitVec.ofNat 12 (d.fld F.RING_CTL_PKEY k))).getD 256
  let sl := d.slice i
  d.loadChecks k ++ d.tableChecks ++ d.recordChecks k ++
  chk (!d.memberHere sl) cfgPlan ++
  chk (sl.detMode ≠ d.bit F.DET_CTL_DET_MODE) cfgPlan ++
  chk (resumeBad d k sl) cfgPlan ++
  d.commitChecks k ++
  match d.matching k with
  | [j] => match d.schedLib[j]? with
    | some s => scheduleChecks d k sl s
    | none => [cfgPlan]
  | _ => [cfgPlan]

/-- The status of a refused binding, none for one that may be placed (R274). -/
def Dev.bindStatus (d : Dev) (k : Nat) : Option Nat :=
  let fails := d.placementChecks k
  if fails.isEmpty then none else if fails.contains cfgZero then some cfgZero else some cfgPlan

end Sys2Proof.Machine
end

