-- ==== Sys2Proof/Machine/Sched.lean ====
section
/-! DEFINITION. Cue lists (07): NOP, SETP and LOOP, cues and their firing, COMMIT, the core state record, the rotation of context
sets, program banks, slips that reach their limit, and the states READY and RUNNING (R275–R305, R448, R450, R453). -/

namespace Sys2Proof.Machine

/-! ### READY and RUNNING (R305) -/

/-- Whether every ring context is idle or stopped and every thread context idle. -/
def Dev.allIdle (d : Dev) : Bool :=
  ([0, 1, 2, 3].all fun k => d.fld F.RING_STATUS_STATE k = 0 || d.fld F.RING_STATUS_STATE k = 3) &&
    d.cores.all fun e => e.2.ctxs.all fun x => x.2.st = .idle

/-- RUNNING ends when nothing runs (R305).
(DEDUCED, log 79) -/
def settleReady : Act := fun d => if d.mode = stRunning && d.allIdle then enterState stReady d else []

/-- A whole command: the slices of packets that its act discarded are fenced, and RUNNING ends where nothing runs any longer. -/
def settled (a : Act) : Act := inSequence [a, fenceLost, settleReady]

/-! ### NOP, SETP and LOOP (R294, R296) -/

/-- NOP (R294). -/
def nopAct (c n : Nat) : Act := issue .nop c n fun _ _ _ d => stepPast d c n id

/-- SETP (R294): VALUE into the named parameter register. -/
def setpAct (c n : Nat) : Act :=
  issue .setp c n fun w _ _ d =>
    stepPast d c n fun x => { x with params := mapSet (fun _ => 0) (setpReg w) (setpValue w) x.params }

/-- Enter a loop body of operations, or skip it (R296); the context already stands behind the LOOP. -/
def enterLoop (body count : Nat) (x : ThreadCtx) : ThreadCtx :=
  if count = 0 then { x with nextOp := x.nextOp + body }
  else { x with loops := ⟨x.nextOp, x.nextOp + body, 0, count⟩ :: x.loops }

/-- LOOP (R296): the count is immediate, or read from a parameter register. -/
def loopAct (c n : Nat) : Act :=
  issue .loop c n fun w x _ d =>
    stepPast d c n (enterLoop (loopBody w) (if loopRt w then (x.param (loopPreg w)).toNat else loopCount w))

/-! ### COMMIT (R295) -/

/-- COMMIT (R295): a second one in a step completes at issue and is recorded; the first waits for everything before it.
(DEDUCED, log 78) -/
def commitAct (c n : Nat) : Act :=
  issue .commit c n fun _ _ fi d =>
    let cs := d.core c
    if cs.lastCommit = some fi.step || cs.commitWait.any fun w => w.2.2 = fi.step then
      stepPast d c n id ++ flagSeq c F.SEQ_ERR_COMMIT2
    else if cs.commitWait.isSome then []
    else
      stepPast d c n (fun x => { x with out := x.out ++ [⟨cs.opCount, []⟩] }) ++
        [.core c fun cs => { cs with commitWait := some (n, cs.opCount, fi.step), opCount := cs.opCount + 1 }]

/-- Whether anything issued before operation `id` of a core is still under way: an operation, a wait, or a transfer of
TASK = STEP (R240, R295). -/
def Dev.behindCommit (d : Dev) (c id : Nat) : Bool :=
  let cs := d.core c
  (cs.ctxs.any fun x => (x.2.out.any fun o => o.id < id) || (match x.2.wait with | some w => w.opId < id | none => false)) ||
  cs.allArms.any fun a => a.opId < id && (d.desc c a.stream).any fun x => !x.entryTask

/-! ### Context sets (R302, R303) -/

/-- The key of P`i` of logical context `l`. -/
def paramKey (l i : Nat) : Nat := l * 16 + i

/-- The parameters of the contexts of a set as keys of logical contexts. -/
def setParams (s : Nat) (ctxs : SMap ThreadCtx) : SMap (BitVec 32) :=
  ctxs.flatMap fun x => x.2.params.map fun p => (paramKey (64 * s + x.1) p.1, p.2)

/-- The parameters of every logical context of a core: those saved, and those of the resident set (R303, R448). -/
def CoreSt.allParams (cs : CoreSt) : SMap (BitVec 32) :=
  let lo := paramKey (64 * cs.residentSet) 0
  let hi := paramKey (64 * cs.residentSet + 64) 0
  (cs.saved.filter fun e => e.1 < lo) ++ setParams cs.residentSet cs.ctxs ++ (cs.saved.filter fun e => hi ≤ e.1)

/-- The parameters of one logical context among all. -/
def pickParams (all : SMap (BitVec 32)) (l : Nat) : SMap (BitVec 32) :=
  (all.filter fun e => paramKey l 0 ≤ e.1 && e.1 < paramKey (l + 1) 0).map fun e => (e.1 - paramKey l 0, e.2)

/-- Put a set's parameters into the physical contexts, keeping everything else of them. -/
def loadSet (s : Nat) (all : SMap (BitVec 32)) (cs : CoreSt) : CoreSt :=
  let cs := { cs with saved := all, residentSet := s }
  (List.range 64).foldl (fun cs n => onCtx n (fun x => { x with params := pickParams all (64 * s + n) }) cs) cs

/-- The rotation of context sets at a core's COMMIT of step `t` (R303): the outgoing set is saved and the set resident in step
`t + 1` loaded.
(DEDUCED, log 75) -/
def rotateSets (nsets t : Nat) (cs : CoreSt) : CoreSt :=
  if nsets ≤ 1 then cs else loadSet ((t + 1) % nsets) cs.allParams cs

/-! ### Readiness (R448, R450) -/

/-- The sync words of a slice that lie in one core's scratchpad (R444), by SYNC_ID. -/
def Dev.coreSync (d : Dev) (pkey : BitVec 12) (c : Nat) : SMap (BitVec 64) :=
  match d.syncTable pkey with
  | none => []
  | some t => t.entries.filterMap fun e =>
    if syncType e.2 ≠ 0 && syncPlace e.2 = 0 && syncCore e.2 = c then
      some (e.1, BitVec.ofNat 64 (d.syncWord (syncLoc e.2)))
    else none

/-- The core state record of a core at its COMMIT of step `t` (R448). -/
def Dev.coreRecord (d : Dev) (c i t : Nat) : CoreRec :=
  let cs := d.core c
  { core := c, slice := i, step := t, params := cs.allParams, residentSet := cs.residentSet,
    sync := d.coreSync (d.slice i).pkey c }

/-- Stage a core state record and mirror it (R447, R448).
(DEDUCED, log 76) -/
def stageRecord (c i t : Nat) : Act := fun d =>
  let r := d.coreRecord c i t
  [.commit fun s => { s with recStaged := (s.recStaged.filter fun x => !(x.core = c && x.slice = i && x.step = t)) ++ [r] }] ++
    match d.buddyOf d.here with
    | none => []
    | some b => [.send (.mgmt b (.coreRecord (d.slice i).pkey r)),
        .slice i (onStep t fun e => { e with mirrorOut := e.mirrorOut + 1 })]

/-- The ring contexts of a slice that are armed or live, with their schedules. -/
def Dev.sliceScheds (d : Dev) (i : Nat) : List (Nat × Schedule) :=
  (d.activeRings (d.slice i).pkey).filterMap fun k =>
    ((d.ring k).sched.bind fun j => d.schedLib[j]?).map fun s => (k, s)

/-- The cores whose COMMIT a slice awaits: those of its live binding that have cues (R273, R450).
(DEDUCED, log 77) -/
def Dev.committers (d : Dev) (i : Nat) : List Nat :=
  ((d.coresOf (d.slice i).pkey).filter fun e => (d.liveProg e.1).any fun p => !p.cues.isEmpty).map Prod.fst

/-- Whether the shadow copy that this module holds is complete for the step (R35): every byte of the X− neighbour's share has been
written. On a ring of one the mirror acknowledgement takes its place. -/
def Dev.shadowDone (d : Dev) (i : Nat) : Bool :=
  (d.boundRings (d.slice i).pkey).all fun k =>
    let p := d.plan k
    p.mode ≠ 2 || p.len ≤ 1 || p.shareLeaves p.prevPos * 16384 ≤ (d.ring k).shadowBytes

/-- Whether this module is ready for step `t` of a slice (R450). -/
def Dev.readyFor (d : Dev) (i t : Nat) : Bool :=
  let s := d.slice i
  !s.fenced && d.memberHere s &&
    match s.steps.find? fun e => e.step = t with
    | some e => !e.readySent && e.mirrorOut = 0 && ((d.committers i).all fun c => e.reports.contains c) &&
        d.shadowDone i
    | none => false

/-- READY_SEND (R450): a module ready for a step tells the slice's home. -/
def checkReady (i t : Nat) : Act := fun d =>
  if d.readyFor i t then
    match (d.slice i).desc with
    | some e => [.slice i (onStep t fun s => { s with readySent := true }),
        .send (.mgmt (homeOf e) (.ready (d.slice i).pkey t))]
    | none => []
  else []

/-- COMMIT_COMPLETE (R295, R303, R448): everything before the core's COMMIT is done. Its sets rotate, its record is staged and
mirrored, and its arrival for the step is reported. -/
def commitCompleteAct (c : Nat) : Act := fun d =>
  match (d.core c).commitWait, d.coreSlice c with
  | some (n, id, t), some i =>
    if !d.coreRuns c || d.behindCommit c id then [] else
      let nsets := ((d.liveProg c).map fun p => p.nsets).getD 1
      inSequence [
        fun _ => [.core c fun cs => rotateSets nsets t { cs with commitWait := none, lastCommit := some t }],
        stageRecord c i t,
        completeOp c n id,
        fun _ => [.slice i (onStep t fun e => { e with reports := (e.reports.filter fun x => x ≠ c) ++ [c] })],
        checkReady i t ] d
  | _, _ => []

/-! ### Cues (R278–R280, R302, R303, R453) -/

/-- Why a due cue does not fire yet. -/
inductive CueHold where
  | none | list | commit
  deriving DecidableEq, Repr

/-- Whether a due cue may fire: its context's list has room and its set is resident (R280, R303), and its step is at most the
second uncommitted one (R453). -/
def cueHold (d : Dev) (c : Nat) (p : Program) (w : BitVec 128) (f : Firing) : CueHold :=
  let cs := d.core c
  let late : Bool := match d.coreSlice c with
    | some i => (d.slice i).nextStep + 2 ≤ f.step
    | none => false
  if late = true then .commit
  else if 16 ≤ (cs.ctx (cueCtx w % 64)).pending.length || (1 < p.nsets && cs.residentSet ≠ f.step % p.nsets) then .list
  else .none

/-- The wait of a cue that now fires counts, in cycles (R280, R453). -/
def endHold (d : Dev) (c : Nat) : List Upd :=
  match (d.core c).holdFrom with
  | none => []
  | some (start, byCommit) =>
    let n := d.cycles (d.now - start)
    [if byCommit then addF F.COMMIT_CNT_HOLD_CYCLES 0 n else addF F.SEQ_CUES_HOLD_CYCLES c n,
     .core c fun cs => { cs with holdFrom := none }]

/-- Remove the first element that satisfies a test. -/
def dropFirst {α : Type} (p : α → Bool) : List α → List α
  | [] => []
  | a :: as => if p a then as else a :: dropFirst p as

/-- CUE_FIRE (R278–R281): the first due cue of a trigger enters its context's pending list, or begins to wait.
(DEDUCED, log 73) -/
def cueFireAct (c : Nat) (trig : Trig) (cue : Nat) : Act := fun d =>
  let cs := d.core c
  match cs.due.find? fun f => f.trig = trig, d.liveProg c with
  | some f, some p =>
    match p.cues[f.cue]? with
    | none => []
    | some w =>
      if f.cue ≠ cue || !d.coreRuns c then [] else
        match cueHold d c p w f with
        | .none =>
          endHold d c ++
          [.core c fun cs => { cs with due := dropFirst (fun g => g.trig = trig) cs.due },
           addF F.SEQ_CUES_FIRED c 1,
           ctxUpd d c (cueCtx w % 64) fun x =>
            { x with pending := x.pending ++ [f], st := if x.st = .idle then .ready else x.st }] ++
          (match d.coreSlice c with
            | some i => [Upd.slice i (onStep f.step id)]
            | none => [])
        | h => if cs.holdFrom.isSome then [] else
            [.core c fun cs => { cs with holdFrom := some (d.now, h = .commit) }]
  | _, _ => []

/-! ### Program banks (R275, R276) -/

/-- The parameters that the context initialisers of a program give (R273, R282). -/
def initParams (p : Program) : SMap (BitVec 32) :=
  ((List.range p.ctxInit.length).zip p.ctxInit).flatMap fun e =>
    (List.range 16).filterMap fun i =>
      let v := BitVec.ofNat 32 (bitsOf e.2 (32 * i + 31) (32 * i))
      if v = 0 then none else some (paramKey e.1 i, v)

/-- The current core state record of a core for a slice (R448). -/
def Dev.currentRec (d : Dev) (c i : Nat) : Option CoreRec :=
  d.commit.recCur.find? fun r => r.core = c && r.slice = i

/-- The parameters and resident set that a core starts from: those of its current record, or its initialisers (R445). -/
def Dev.startParams (d : Dev) (c i : Nat) (p : Program) : SMap (BitVec 32) × Nat :=
  match d.currentRec c i with
  | some r => (r.params, r.residentSet)
  | none => (initParams p, 0)

/-- The slot tables and regions that a bank loads into a core (R196, R276). -/
def loadTables (c : Nat) (p : Program) : List Upd :=
  ((List.range 16).map fun b => setF ⟨.SPM_SLOT, 63, 0⟩ (c * 16 + b) (p.slots[b]?.getD 0).toNat) ++
  (List.range 32).map fun n =>
    setF ⟨.SPM_REGION, 63, 0⟩ (regionIx c n) ((regionAt p n).toNat / 2 ^ 31 * 2 ^ 31)

/-- A core with a bank just switched in (R239, R244, R276, R445). -/
def freshCore (b : Binding) (opCount : Nat) (armed : Option Binding) : CoreSt :=
  { CoreSt.init with live := some b, armed := armed, opCount := opCount }

/-- The tables of a cluster's armed schedule become live: its leaf table and REG_CLASS (R275, R276).
(DEDUCED, log 91) -/
def switchCluster (g : Nat) : Act := fun d =>
  let s := (d.cluster g).armedSched.bind fun j => d.schedLib[j]?
  let pending := (List.range 64).any fun k => (d.core (64 * g + k)).armed.isSome
  match s with
  | none => []
  | some s =>
    if pending then [] else
      let words := (mapGet (fun _ => ⟨[], []⟩) s.clusters g).regClass
      [.cluster g fun cl => { cl with liveSched := cl.armedSched, armedSched := none }] ++
      (List.range 4).map fun cls => setF ⟨.REG_CLASS, 63, 0⟩ (classIx g cls) (words[cls]?.getD 0).toNat

/-- Whether a core has finished with its live binding: every cue complete and every transfer done (R276). -/
def CoreSt.finished (cs : CoreSt) : Bool :=
  cs.due.isEmpty && cs.allArms.isEmpty && cs.commitWait.isNone &&
    cs.ctxs.all fun x => x.2.cur.isNone && x.2.pending.isEmpty

/-- Whether a ring context has ended in both directions, is idle, or is armed anew (R276). -/
def Dev.ringOver (d : Dev) (k : Nat) : Bool := d.fld F.RING_STATUS_STATE k ≠ 2

/-- BANK_SWITCH (R276): the old context over, its cues and transfers complete, the core takes its armed bank. -/
def bankSwitchAct (c : Nat) : Act := fun d =>
  let cs := d.core c
  match cs.armed with
  | none => []
  | some b =>
    let p := (d.schedOf b).bind fun s => s.prog c
    match p with
    | none => []
    | some p =>
      let isOver := match cs.live with
        | some o => o.ring = b.ring || d.ringOver o.ring
        | none => true
      if !b.loaded || !isOver || !cs.finished then [] else
        let i := ((d.schedOf b).bind fun s => d.sliceOf s.pkey).getD 256
        let (params, set) := d.startParams c i p
        inSequence [
          fun _ => [.core c fun cs => loadSet set params (freshCore b cs.opCount none)],
          fun _ => loadTables c p,
          switchCluster (clusterOf c) ] d

/-! ### Placement (R275, R445) -/

/-- Placement of the binding of a ring context is complete (R275). -/
def Dev.placed (d : Dev) (k : Nat) : Bool := (d.ring k).bankLoaded && (d.ring k).mirrorHeld

/-- BANK_LOAD_DONE (R275): the armed bank is loaded on every core of the binding. -/
def bankLoadDoneAct (k : Nat) : Act := fun d =>
  if (d.ring k).sched.isNone || (d.ring k).bankLoaded then [] else
    [.ring k fun r => { r with bankLoaded := true },
     .cores fun _ cs => { cs with armed := cs.armed.map fun b => if b.ring = k then { b with loaded := true } else b }]

/-! ### Slips (R301) -/

/-- SLIP_LIMIT_EXPIRE (R300, R301): the slip is recorded in the cycle it reaches the limit, the items of the uncommitted steps fail
with FAILED_TIMEOUT, and the safe state is entered at slice or device level. -/
def slipLimitExpireAct (c n : Nat) : Act := fun d =>
  let x := (d.core c).ctx n
  match x.wait, d.coreSlice c with
  | some w, some i =>
    if w.due && !w.limited && d.expired w.start (d.fld F.SEQ_CFG_SLIP_LIMIT c) then
      inSequence [
        recordSlip c n x,
        fun _ => [.core c (onCtx n fun x => { x with wait := x.wait.map fun w => { w with limited := true } })] ++
          flagSeq c F.SEQ_ERR_SLIP_LIMIT,
        timeoutSlice i (d.bit F.SEQ_CFG_SLIP_SAFE c) 6 ] d
    else []
  | _, _ => []

end Sys2Proof.Machine
end

