-- ==== Sys2Proof/Machine/Deliver.lean ====
section
/-! DEFINITION. Delivery of packets (09, 10): the partition key check, congestion notifications, WRITE, READ_REQ, READ_RESP and CNP packets,
and injection rates (R360–R363, R421–R423, R430). -/

namespace Sys2Proof.Machine

/-! ### The check at delivery (R430) -/

/-- Whether a packet may be delivered here (R430). -/
def Dev.deliverable (d : Dev) (p : Packet) : Bool :=
  if p.mirror then d.paired p.srcCoord || d.memberOf p.key
  else if p.key = 0 then 4 ≤ pktVc p
  else d.memberOf p.key

/-- CNP_SEND (R422): one CNP to a source per CNP_GAP µs; a mark inside the gap is absorbed. -/
def notifySource (p : Packet) : Act := fun d =>
  let src := p.srcCoord
  let last := d.route.cnpSent.find? fun e => e.1 = src.toNat
  let quiet : Bool := match last with
    | some e => d.expired e.2 (d.fld F.ROUTE_CFG_CNP_GAP)
    | none => true
  if p.ce && quiet then
    [.route fun r => { r with cnpSent := mapPut src.toNat d.now r.cnpSent }, addF F.ROUTE_CONG_CNP_TX 0 1,
     .inject (setFlag (setFlag (mkPacket ptCnp 2 d.here src p.key []) 6 true) 2 true)]
  else []

/-- Deliver a packet (R422, R430): one that fails the check is discarded and counted; packets of a fenced slice are discarded (R462). -/
def deliver (p : Packet) (k : Act) : Act := fun d =>
  if !d.deliverable p then
    [satF F.ROUTE_DROP_PKEY 0 1] ++ flagRoute F.ROUTE_ERR_PKEY
  else if d.fencedPacket (pktVc p) p.key then []
  else inSequence [notifySource p, k] d

/-- The slice of a packet is fenced for a packet that reaches beyond HBM (R362). -/
def deliveryFault (port : Nat) (p : Packet) : Act := fun d =>
  inSequence [
    fun _ => [setF F.LINK_ERR_DELIVERY port 1],
    fun d => match d.sliceOf p.key with
      | some i => faultSlice i 1 d
      | none => [] ] d

/-! ### WRITE (R361, R362, R363) -/

/-- Bytes received of the 16 KiB units of a weight load, and LOADED_MIB (R583, R592). -/
def noteUnits (a n : Nat) : Act := fun d =>
  if d.mode = stLoading || !d.start.loading.isEmpty then
    let units := (pagesOf a n).foldl (fun m u =>
      let part := min (a + n) ((u + 1) * 16384) - max a (u * 16384)
      mapSet (fun _ => 0) u (min 16384 (mapGet (fun _ => 0) m u + part)) m) d.start.units
    [.start fun s => { s with units := units },
     setF F.LOAD_STATUS_LOADED_MIB 0 ((units.map Prod.snd).sum / 1048576)]
  else []

/-- The ring context of a slice whose spare shadow copy holds an address, in TRAIN_FULL (R35). -/
def Dev.shadowRing (d : Dev) (pkey : BitVec 12) (a : Nat) : Option Nat :=
  (d.boundRings pkey).find? fun k =>
    d.fld F.RING_CTL_MODE k = 2 && d.spareCopy k ≤ a && a < d.spareCopy k + d.fld F.RING_SHADOW_SIZE k * 16384 / 2

/-- Count the bytes of the neighbour's share that reach the spare shadow copy; its completeness may make the module ready (R35, R450). -/
def noteShadow (i a n : Nat) : Act := fun d =>
  match d.shadowRing (d.slice i).pkey a with
  | none => []
  | some k => inSequence [
      fun _ => [.ring k fun r => { r with shadowBytes := r.shadowBytes + n }],
      checkReady i (d.slice i).nextStep ] d

/-- Write delivered bytes: those of a slice belong to its oldest uncommitted step (R446), and bytes of the own share in TRAIN_FULL go on
to the shadow (R35). -/
def writeDelivered (pkey : BitVec 12) (a : Nat) (bs : List Byte) (bad : Bool) : Act := fun d =>
  match d.sliceOf pkey with
  | some i =>
    let t := (d.slice i).nextStep
    inSequence [storeStep i t a bs bad, shadowUpdate i t a bs bad, noteShadow i a bs.length, noteUnits a bs.length] d
  | none => inSequence [writeHbm a bs bad, noteUnits a bs.length] d

/-- WRITE_PACKET_RECEIVE (R321, R322, R361–R363): the whole packet is written, then the signal that rides on it is applied. -/
def writePacketReceiveAct (port : Nat) (p : Packet) : Act :=
  deliver p fun d =>
    let a := p.addr.toNat
    if p.ptype.toNat ≠ ptWrite || p.mirror then []
    else if hbmSize < a + p.payload.length then deliveryFault port p d
    else inSequence [
      writeDelivered p.key a p.payload p.bad,
      onlyIf p.hasExt (deliverSignal (syncOfBytes p.ext)) ] d

/-! ### READ_REQ and READ_RESP (R360) -/

/-- The answers to a READ_REQ: READ_RESP packets of up to 4,096 bytes in address order, LAST on the final one. -/
def readResponses (d : Dev) (p : Packet) : List Packet :=
  let a := p.addr.toNat
  let n := p.elems.toNat
  let offs := (List.range ((n + 4095) / 4096)).map fun j => j * 4096
  offs.map fun off =>
    let len := min 4096 (n - off)
    let (bs, bad) := d.readHbm (a + off) len
    setFlag { mkPacket ptReadResp 5 d.here p.srcCoord p.key bs with
      mark := if bad then 1 else 0, item := p.item, addr := BitVec.ofNat 64 (a + off) } 7 (n ≤ off + 4096)

/-- READ_REQ_RECEIVE (R23, R360, R362): RLEN = 0 draws no response. -/
def readReqReceiveAct (port : Nat) (p : Packet) : Act :=
  deliver p fun d =>
    if p.ptype.toNat ≠ ptReadReq || p.elems = 0 then []
    else if hbmSize < p.addr.toNat + p.elems.toNat then deliveryFault port p d
    else (readResponses d p).map Upd.inject

/-- The record of a READ_REQ that a response answers: by source, item and address. -/
def Dev.readRecord (d : Dev) (p : Packet) : Option (Coord × Nat × Nat × Nat × Nat) :=
  d.route.reads.find? fun e => e.1 = p.srcCoord && e.2.1 = p.item.toNat && e.2.2.1 ≤ p.addr.toNat &&
    p.addr.toNat + p.payload.length ≤ e.2.2.1 + e.2.2.2.2

/-- Blocks repaired by a write of whole blocks over blocks held as under repair (R206). -/
def finishRepair (a n : Nat) : Act := fun d =>
  let done := d.repair.filter fun b => a ≤ b * 256 && b * 256 + 256 ≤ a + n
  if done.isEmpty then [] else
    [.repair fun l => l.filter fun b => !done.contains b, setF F.HBM_ERR_REPAIR 0 1]

/-- READ_RESP_RECEIVE (R360, R363): the bytes are placed by the requester's record; LAST ends it. -/
def readRespReceiveAct (p : Packet) : Act :=
  deliver p fun d =>
    match d.readRecord p with
    | none => []
    | some e =>
      let a := e.2.2.2.1 + (p.addr.toNat - e.2.2.1)
      inSequence [
        writeHbm a p.payload p.bad,
        finishRepair a p.payload.length,
        onlyIf p.isLast (fun _ => [.route fun r => { r with reads := r.reads.erase e }]) ] d

/-! ### Injection rates (R423) -/

/-- The port rate toward a destination in 256ths of a byte per 4 µs. -/
def Dev.portRateTo (d : Dev) (t : Coord) : Nat := 256 * ((d.tablePort t).map portRate).getD 3050000

/-- Set R_d; the port rate itself is the unlisted value. -/
def setRate (t : Coord) (v : Nat) : Act := fun d =>
  let r := d.rateSt t
  let r := { r with rate := if d.portRateTo t ≤ v then none else some v, since := d.now }
  [.route fun s => { s with rates := mapSet (fun _ => RateSt.init) t.toNat r s.rates }, .pump]

/-- CNP_RECEIVE (R423): R_d becomes max(R_d / 2, RMIN/256 of the port rate). -/
def cnpReceiveAct (p : Packet) : Act :=
  deliver p fun d =>
    let t := p.srcCoord
    inSequence [
      fun _ => [addF F.ROUTE_CONG_CNP_RX 0 1],
      setRate t (max (d.rateOf t / 2) (d.portRateTo t * d.fld F.ROUTE_CFG_RMIN / 256)) ] d

/-- RATE_RECOVER_STEP (R423): after RECOVER_T µs without a CNP from a destination, R_d rises by ADD/256 of the port rate. -/
def rateRecoverStepAct (t : Coord) : Act := fun d =>
  let r := d.rateSt t
  match r.rate with
  | none => []
  | some v =>
    if d.expired r.since (d.fld F.ROUTE_CFG_RECOVER_T) then
      setRate t (min (v + d.portRateTo t * d.fld F.ROUTE_CFG_ADD / 256) (d.portRateTo t)) d
    else []

end Sys2Proof.Machine
end

