-- ==== Sys2Proof/Machine/Ring.lean ====
section
/-! DEFINITION. Ring contexts (01): arming and placement of a binding, going live, injection, the checks of received leaves, their
broadcast on the leaf tree and acceptance, the end of years and contexts, and gradient leaves (R26–R60, R138, R206, R249–R251,
R274–R276, R445, R471, R503). -/

namespace Sys2Proof.Machine

/-! ### Directions -/

/-- The day and gradient triggers of a direction (R277). -/
def dayTrig (dir : Dir) : Trig := match dir with | .cw => .cw | .ccw => .ccw
def gradTrig (dir : Dir) : Trig := match dir with | .cw => .gradCw | .ccw => .gradCcw

/-- The X port that a direction leaves by (R28). -/
def dirPort (dir : Dir) : Nat := match dir with | .cw => 0 | .ccw => 1

/-- The direction of a trigger. -/
def trigDir (t : Trig) : Dir := match t with | .cw => .cw | .gradCw => .cw | .ccw => .ccw | .gradCcw => .ccw

/-- The slice that a ring context serves. -/
def Dev.ringSlice (d : Dev) (k : Nat) : Option Nat := d.sliceOf (BitVec.ofNat 12 (d.fld F.RING_CTL_PKEY k))

/-- Whether the slice of a ring context is fenced. -/
def Dev.ringFenced (d : Dev) (k : Nat) : Bool := (d.ringSlice k).any fun i => (d.slice i).fenced

/-- The context live in a direction (R43).
(DEDUCED, log 62) -/
def Dev.liveIn (d : Dev) (dir : Dir) : Option Nat := [0, 1, 2, 3].find? fun k => ((d.ring k).dir dir).live

/-- Whether a context may still become live in a direction: armed, or live in the other direction only. -/
def Dev.awaits (d : Dev) (k : Nat) (dir : Dir) : Bool :=
  let st := d.fld F.RING_STATUS_STATE k
  let s := (d.ring k).dir dir
  (st = 1 || st = 2) && !s.live && !s.ended && (d.plan k).hasDays dir

/-- The context of a received leaf (R47): the one live in its direction, else the armed one. -/
def Dev.leafContext (d : Dev) (dir : Dir) : Option Nat :=
  (d.liveIn dir).or ([0, 1, 2, 3].find? fun k => d.awaits k dir)

/-! ### YEARS_DONE (R67) -/

/-- Years completed in a direction since FIRST_YEAR. -/
def Dev.yearsIn (d : Dev) (k : Nat) (dir : Dir) : Nat :=
  let p := d.plan k
  let (y, _) := d.nextDay k dir
  let done := match d.angle k dir with
    | some (a, dd) => if dd + 1 < p.days dir a then a else y
    | none => y
  let n := yearsFrom p.first done
  if p.count = 4294967295 then n else min n p.count

/-- Years completed in both directions; a direction without days does not count. -/
def Dev.yearsDone (d : Dev) (k : Nat) : Nat :=
  let p := d.plan k
  match p.hasDays .cw, p.hasDays .ccw with
  | true, true => min (d.yearsIn k .cw) (d.yearsIn k .ccw)
  | true, false => d.yearsIn k .cw
  | _, _ => d.yearsIn k .ccw

/-! ### Going live and ending (R42, R43, R275, R305) -/

/-- A context becomes live in a direction; with placement incomplete, LOAD_LATE is set in the cores of the binding (R275). -/
def goLive (k : Nat) (dir : Dir) : Act := fun d =>
  if !d.awaits k dir || (d.liveIn dir).isSome then [] else
    let late := if d.placed k then [] else
      (d.cores.filter fun e => e.2.armed.any fun b => b.ring = k).flatMap fun e => flagSeq e.1 F.SEQ_ERR_LOAD_LATE
    inSequence [
      fun d => if d.fld F.RING_STATUS_STATE k = 1 then
          [setF F.RING_STATUS_STATE k 2, setF F.RING_CTL_LIVE k 1, setF F.RING_CTL_ARM k 0] ++ late else [],
      fun _ => [.ring k (onDir dir fun s => { s with live := true })],
      onlyIf (d.mode = stReady) (enterState stRunning) ] d

/-- A context goes live in every direction that is free once its launch count has come. -/
def goLiveBoth (k : Nat) : Act := inSequence [goLive k .cw, goLive k .ccw]

/-- A slice that drained has stopped: DRAINED is raised (R568, R570). -/
def drainedEvent (k : Nat) : Act := fun d =>
  match d.ringSlice k with
  | some i =>
    let s := d.slice i
    if s.draining && (d.activeRings s.pkey).isEmpty then
      [.slice i fun s => { s with draining := false, drained := false }, .event 7 (leBytes 2 s.pkey.toNat)]
    else []
  | none => []

/-- A context stops (R42, R60). -/
def stopContext (k : Nat) : Act :=
  inSequence [
    fun _ => [setF F.RING_STATUS_STATE k 3, setF F.RING_CTL_LIVE k 0, setF F.RING_CTL_ARM k 0,
      .ring k fun r => { r with cw := { RingDir.init with ended := true }, ccw := { RingDir.init with ended := true } }],
    noteQuiet,
    drainedEvent k ]

/-- A context ends in a direction; ended in both, it is stopped. The armed context becomes live there (R42, R43). -/
def endDir (k : Nat) (dir : Dir) : Act :=
  inSequence [
    fun _ => [.ring k (onDir dir fun _ => { RingDir.init with ended := true })],
    fun d =>
      let p := d.plan k
      let r := d.ring k
      onlyIf ((r.cw.ended || !p.hasDays .cw) && (r.ccw.ended || !p.hasDays .ccw)) (stopContext k) d,
    fun d => match [0, 1, 2, 3].find? fun o => o ≠ k && d.awaits o dir with
      | some o => goLive o dir d
      | none => [] ]

/-! ### Leaves of a share (R30–R36, R55–R57) -/

/-- The start of the shadow copy that SHADOW_SEL names (R35, R57). -/
def Dev.namedCopy (d : Dev) (k : Nat) : Nat :=
  let half := if d.fld F.RING_CTL_MODE k = 2 && d.bit F.RING_STATUS_SHADOW_SEL k then d.fld F.RING_SHADOW_SIZE k * 8192 else 0
  d.fld F.RING_SHADOW_BASE k * 16384 + half

/-- Where the leaf of a day lies here: the start of the share or shadow that holds it, and the leaves of that share. -/
def Dev.leafStore (d : Dev) (k owner : Nat) : Nat × Nat :=
  let p := d.plan k
  if owner = p.pos then (d.fld F.RING_SHARE_BASE k * 16384, p.shareLeaves p.pos)
  else (d.namedCopy k, p.shareLeaves p.prevPos)

/-- The extension of a leaf, without its place in a packet (R28, R55). -/
def Dev.leafExt (d : Dev) (k : Nat) (dir : Dir) (year day : Nat) : LeafExt :=
  let p := d.plan k
  let owner := p.owner dir year day
  let (base, n) := d.leafStore k owner
  let r := leafRec (d.readHbm (recAddr base n (p.leafIndex dir year day)) 16).1
  let lastOfYear := day + 1 = p.days dir year
  let lastOfRun := lastOfYear || p.owner dir year (day + 1) ≠ owner
  let b := fun (x : Bool) (n : Nat) => if x then 2 ^ n else 0
  { extType := 1
    flags := BitVec.ofNat 8 (b (dir = .ccw) 0 + b (p.bwd year) 1 + b (r.flags % 2 = 1) 3 + b lastOfRun 4 + b lastOfYear 5 +
      b (r.flags / 2 % 2 = 1) 7)
    pktIdx := 0, hop := 0, ttl := BitVec.ofNat 8 (p.len - 1), origin := BitVec.ofNat 8 owner
    pkey := BitVec.ofNat 16 (d.fld F.RING_CTL_PKEY k), year := BitVec.ofNat 32 year, day := BitVec.ofNat 32 day
    sectionByte := BitVec.ofNat 8 (d.fld F.RING_CTL_SECTION k), container := BitVec.ofNat 8 r.container
    baseGen := BitVec.ofNat 16 (d.fld F.RING_CTL_BASE_GEN k), layer := BitVec.ofNat 16 r.layer
    codecTable := BitVec.ofNat 16 r.table, tile := BitVec.ofNat 32 r.tile, leafElems := BitVec.ofNat 32 r.elems
    tailCount := BitVec.ofNat 16 r.tail, rsv34 := 0, gcntInj := d.gcnt.truncate 32, rsv40 := 0 }

/-- The address of the body of a day's leaf here. -/
def Dev.leafAddr (d : Dev) (k : Nat) (dir : Dir) (year day : Nat) : Nat :=
  let p := d.plan k
  bodyAddr (d.leafStore k (p.owner dir year day)).1 (p.leafIndex dir year day)

/-- The coordinate of a ring position of the slice of a context. -/
def Dev.ringModule (d : Dev) (k pos : Nat) : Coord :=
  match (d.ringSlice k).bind fun i => (d.slice i).desc with
  | some e => d.ringCoord e pos
  | none => d.here

/-- The four packets of a leaf (R26, R360): SRC is the owner, DST, ADDR, ITEM and the coded fields are zero. -/
def Dev.leafPackets (d : Dev) (k : Nat) (e : LeafExt) (body : List Byte) : List Packet :=
  [0, 1, 2, 3].map fun i =>
    let bs := (body.drop (4096 * i)).take 4096
    let p := mkOrdered ptLeaf (d.ringModule k e.origin.toNat) 0 (e.pkey.truncate 12) (bs ++ List.replicate (4096 - bs.length) 0)
    withExt p (leafBytes { e with pktIdx := BitVec.ofNat 8 i })

/-! ### Repair of share blocks (R206) -/

/-- The reader module of a ring section, as the chosen plan variant names it (R575). -/
def Dev.readerOf (d : Dev) (sect : Nat) : Option Coord :=
  ((d.start.image.bind fun im => d.start.variant.bind fun v => im.variants[v]?).bind fun v =>
    v.readers.find? fun r => r.sect.toNat = sect).map fun r => r.coord

/-- Ask for the bytes of a bad share block (R206): of the X+ neighbour's shadow on VC5, or of the reader's vault on a ring of one.
(DEDUCED, log 29) -/
def requestRepair (k block : Nat) : Act := fun d =>
  if d.repair.contains block then [] else
    let p := d.plan k
    let off := block * 256 - d.fld F.RING_SHARE_BASE k * 16384
    let pkey := BitVec.ofNat 12 (d.fld F.RING_CTL_PKEY k)
    if p.len ≤ 1 then
      [.repair fun l => l ++ [block]] ++
        match d.readerOf (d.fld F.RING_CTL_SECTION k) with
        | some c => [Upd.send (.mgmt c (.unitRequest k (block / 64)))]
        | none => []
    else
      let dst := d.ringModule k p.nextPos
      let there := d.namedCopy k + off
      [.repair fun l => l ++ [block], .route fun r => { r with reads := r.reads ++ [(dst, 0, there, block * 256, 256)] },
       .inject { mkPacket ptReadReq 5 d.here dst pkey [] with addr := BitVec.ofNat 64 there, elems := 256 }]

/-- The bad blocks of an extent. -/
def Dev.badBlocks (d : Dev) (a n : Nat) : List Nat := d.hbmBad.filter fun b => b * 256 < a + n && a < b * 256 + 256

/-- The bad blocks of a day's leaf and of its record here. -/
def Dev.badLeaf (d : Dev) (k : Nat) (dir : Dir) (year day : Nat) : List Nat :=
  let p := d.plan k
  let s := d.leafStore k (p.owner dir year day)
  d.badBlocks (d.leafAddr k dir year day) 16384 ++ d.badBlocks (recAddr s.1 s.2 (p.leafIndex dir year day)) 16

/-! ### Tiles of a leaf (R249–R251) -/

/-- A unit of a raw leaf with the positions beyond its elements at +0 (R251). -/
def maskUnit (code : Nat) (scaled : Bool) (n : Nat) (bs : List Byte) : List Byte :=
  if 256 ≤ n then bs
  else if code = 0x0E then packTern 52 ((List.range n).map (ternTrit bs))
  else
    let w := leNat (bs.take (unitBytes code)) % 2 ^ (n * elemBits code)
    leBytes (unitBytes code) w ++ (if scaled then (bs.drop (unitBytes code)).take 8 else [])

/-- What a leaf delivers to the leaf tree: its tiles, and what the codec made of a Steep body (R170, R177, R249). -/
structure LeafTiles where
  tiles : List (List Byte)
  code : Option Expanded

/-- The tiles of a leaf. -/
def Dev.leafTiles (d : Dev) (e : LeafExt) (body : List Byte) : LeafTiles :=
  let c := e.container.toNat
  let n := e.leafElems.toNat
  if isSteep c then
    let t := d.codecTable e.codecTable.toNat
    let x := expandRun t ⟨c, e.codecTable.toNat, n, e.shortTail, e.tailCount.toNat, 256 * steepLeafBlocks c⟩ body
    let bytes := expandedBytes t x
    ⟨chunksOf bytes.length (unitBytes x.target) bytes, some x⟩
  else
    let u := unitSize c e.scaled
    ⟨(List.range ((min n (leafCapacity c e.scaled) + 255) / 256)).map fun j =>
      maskUnit c e.scaled (n - 256 * j) ((body.drop (u * j)).take u), none⟩

/-- Whether tile `t` of a layer matches an entry of a cluster leaf table (R250). -/
def leafMatch (w : BitVec 128) (layer t : Nat) : Bool :=
  let first := bitsOf w 63 32
  let stride := bitsOf w 95 64
  let count := bitsOf w 127 96
  bitsOf w 15 0 = layer && first ≤ t &&
    (if stride = 0 then t = first && 0 < count else (t - first) % stride = 0 && (t - first) / stride < count)

/-- Where a tile goes: every taking-part core of the clusters whose table names it, with the region of the first matching entry. -/
def Dev.tileTargets (d : Dev) (k layer t : Nat) : List (Nat × Nat) :=
  match (d.ring k).sched.bind fun j => d.schedLib[j]? with
  | none => []
  | some s =>
    (d.cores.filter fun e => e.2.live.any fun b => b.ring = k).filterMap fun e =>
      let g := clusterOf e.1
      if (d.cluster g).liveSched ≠ (d.ring k).sched then none
      else ((mapGet (fun _ => ⟨[], []⟩) s.clusters g).leafTable.find? fun w => leafMatch w layer t).map fun w =>
        (e.1, bitsOf w 20 16)

/-- Write one tile at the tail of its regions; none when one of them is full (R251). -/
def Dev.putTile (d : Dev) (k layer t : Nat) (bs : List Byte) (bad : Bool) : Option Act :=
  let dsts := d.tileTargets k layer t
  let words := (bs.length + 63) / 64
  if dsts.any fun e => d.regionRoom e.1 e.2 < words then none
  else some (forEach (fun e d =>
    let ws := d.ringWords e.1 e.2 (d.fld F.SPM_REGION_TAIL (regionIx e.1 e.2)) words
    writeWords e.1 ws (bs ++ List.replicate (words * 64 - bs.length) 0) (if bad then [0] else []) ++
      advanceTail d e.1 e.2 words) dsts)

/-- Broadcast the tiles of a leaf from the first that has not gone, until an interface withholds credit.
(DEDUCED, log 81) -/
def feedTiles (k : Nat) (dir : Dir) (layer first : Nat) (bad : Bool) : List (Nat × List Byte) → Act
  | [], _ => []
  | (j, bs) :: rest, d =>
    if j < ((d.ring k).dir dir).fed then feedTiles k dir layer first bad rest d
    else match d.putTile k layer (first + j) bs bad with
      | none => []
      | some a => inSequence [a, fun _ => [.ring k (onDir dir fun s => { s with fed := j + 1 })],
          feedTiles k dir layer first bad rest] d

/-! ### Acceptance (R38, R42, R278, R471) -/

/-- Whether leaf credit is withheld from a leaf: placement incomplete or a core not changed to the binding (R275, R276), a due cue of the
direction (R280, R453), or a join day whose list or data is not ready (R529, R539). -/
def Dev.leafHeld (d : Dev) (k : Nat) (dir : Dir) (year day : Nat) : Bool :=
  !d.placed k || (d.cores.any fun e => e.2.armed.any fun b => b.ring = k) || d.creditHeld k (dayTrig dir) ||
    (dir = .cw && (d.ringSlice k).any fun i => d.joinHeld i (d.stepOf k i year) day)

/-- The closing leaf of a direction (R42). -/
def Dev.closingExt (d : Dev) (k : Nat) (dir : Dir) (year : Nat) : LeafExt :=
  let p := d.plan k
  { extType := 1
    flags := BitVec.ofNat 8 ((if dir = .ccw then 1 else 0) + (if p.bwd year then 2 else 0) + 64)
    pktIdx := 0, hop := 0, ttl := BitVec.ofNat 8 (p.len - 1), origin := BitVec.ofNat 8 p.pos
    pkey := BitVec.ofNat 16 (d.fld F.RING_CTL_PKEY k), year := BitVec.ofNat 32 year, day := 0
    sectionByte := BitVec.ofNat 8 (d.fld F.RING_CTL_SECTION k), container := 0
    baseGen := BitVec.ofNat 16 (d.fld F.RING_CTL_BASE_GEN k), layer := 0, codecTable := 0, tile := 0, leafElems := 0
    tailCount := 0, rsv34 := 0, gcntInj := d.gcnt.truncate 32, rsv40 := 0 }

/-- The decision of the first owner of the next year, when the last day of a year has been accepted (R42): with COUNT years done, or STOP
set where it may act, the closing leaf goes in place of day 0 and the context ends in the direction.
(DEDUCED, log 86) -/
def yearEnd (k : Nat) (dir : Dir) : Act := fun d =>
  let p := d.plan k
  match d.angle k dir with
  | none => []
  | some (y, dd) =>
    let (ny, nd) := p.succ dir y dd
    let atEnd := dd + 1 = p.days dir y
    let stop := d.bit F.RING_CTL_STOP k && (p.mode = 0 || p.bwd y || !p.bwd ny)
    if !atEnd || p.owner dir ny nd ≠ p.pos || !((d.ring k).dir dir).live then []
    else if p.pastEnd ny || stop then
      inSequence [
        onlyIf (1 < p.len) (fun d => (d.leafPackets k (d.closingExt k dir ny) []).map Upd.inject),
        endDir k dir ] d
    else []

/-- A spare stores a passing leaf (R471): one of its own share, or one of its X− neighbour's for the shadow.
(DEDUCED, log 84) -/
def catchUpStore (k : Nat) (dir : Dir) (e : LeafExt) (body : List Byte) : Act := fun d =>
  let p := d.plan k
  let o := e.origin.toNat
  if (d.ring k).shareOk || !(o = p.pos || o = p.prevPos) || p.len ≤ 1 then [] else
    let (base, n) := d.leafStore k o
    let i := p.leafIndex dir e.year.toNat e.day.toNat
    let rec_ := leBytes 2 e.layer.toNat ++ leBytes 2 e.codecTable.toNat ++ leBytes 4 e.tile.toNat ++ leBytes 4 e.leafElems.toNat ++
      leBytes 2 e.tailCount.toNat ++ [e.container, BitVec.ofNat 8 ((if e.shortTail then 1 else 0) + if e.scaled then 2 else 0)]
    inSequence [writeHbm (bodyAddr base i) body false, writeHbm (recAddr base n i) rec_ false] d

/-- The end of the year of catching up (R471): the share of a spare is in place, and its X+ neighbour stands in no more. -/
def catchUpEnd (k : Nat) : Act := fun d =>
  match (d.ring k).catchUp with
  | some y => if yearsFrom (d.plan k).first y < d.yearsDone k then
      [.ring k fun r => { r with shareOk := true, catchUp := none, proxy := none }] else []
  | none => []

/-- A weight leaf is accepted (R38): the codec's findings are recorded, the angle moves, the cues of the day become due, and the first
owner of the next year decides at a year's end. `source` is the port, 6 HBM or 7 the loopback (R185). -/
def completeLeaf (k : Nat) (dir : Dir) (e : LeafExt) (body : List Byte) (code : Option Expanded) (source : Nat) : Act := fun d =>
  let y := e.year.toNat
  let day := e.day.toNat
  let p := d.plan k
  let step := (d.ringSlice k).map fun i => (i, d.stepOf k i y)
  inSequence [
    fun d => match code with
      | some x => recordRun d x day source (dir = .ccw) e.layer.toNat ++
          (if x.bad then step.toList.map fun s => failStep s.1 s.2 0x50 else [])
      | none => [],
    catchUpStore k dir e body,
    fun d => [setF (angleYear dir) k y, setF (angleDay dir) k day, setF (angleValid dir) k 1,
      setB F.RING_STATUS_BWD k (p.bwd y),
      .ring k (onDir dir fun s => { s with rx := none, reading := false, fed := 0, acceptedAt := d.now })] ++
      (if p.mode = 2 && p.bwd y then [.ring k fun r => { r with bwdExts := r.bwdExts ++ [{ e with hop := 0, pktIdx := 0 }] }] else []),
    fun d => match step with
      | some s => offerDay k (dayTrig dir) y day s.2 (p.bwd y) d
      | none => [],
    fun d => [setF F.RING_STATUS_YEARS_DONE k (d.yearsDone k)],
    fun d => match step with
      | some s => if dir = .cw then joinDay s.1 s.2 day d else []
      | none => [],
    catchUpEnd k,
    yearEnd k dir,
    fun d => match step with
      | some s => checkReady s.1 (d.slice s.1).nextStep d
      | none => [] ] d

/-- Accept a weight leaf when no credit is withheld and every tile has been taken; `after` is done with the acceptance. -/
def acceptLeaf (k : Nat) (dir : Dir) (e : LeafExt) (body : List Byte) (source : Nat) (after : Act) : Act := fun d =>
  if d.leafHeld k dir e.year.toNat e.day.toNat then [] else
    let lt := d.leafTiles e body
    let bad := lt.code.any fun x => x.bad
    inSequence [
      goLive k dir,
      feedTiles k dir e.layer.toNat e.tile.toNat bad ((List.range lt.tiles.length).zip lt.tiles),
      fun d => if ((d.ring k).dir dir).fed < lt.tiles.length then []
        else inSequence [after, completeLeaf k dir e body lt.code source] d ] d

/-! ### Own leaves (R32, R36, R38, R41, R50, R471) -/

/-- Whether this module plays the next day of a direction: as owner, or as proxy of a spare in its year of catching up (R471). -/
def Dev.playsNext (d : Dev) (k : Nat) (dir : Dir) (proxy : Bool) : Bool :=
  let p := d.plan k
  let r := d.ring k
  let s := r.dir dir
  let (y, day) := d.nextDay k dir
  let owner := p.owner dir y day
  s.live && r.launched && d.placed k && !d.ringFenced k && !p.pastEnd y &&
    (if proxy then r.proxy = some owner && r.catchUp = some y
     else owner = p.pos && (r.shareOk || r.catchUp ≠ some y))

/-- LEAF_INJECT (R32, R38, R206, R366): the read of the next leaf begins once the port holds the credits of all four packets; a bad block
of the share is repaired first.
(DESIGN CHOICE, log 83) -/
def leafInjectAct (k : Nat) (dir : Dir) (proxy : Bool) : Act := fun d =>
  let p := d.plan k
  let (y, day) := d.nextDay k dir
  let a := d.leafAddr k dir y day
  let bad := d.badLeaf k dir y day
  let out := dirPort dir
  let s := (d.ring k).dir dir
  if p.len ≤ 1 || !d.playsNext k dir proxy || s.reading || s.rx.isSome then []
  else if !bad.isEmpty then (if proxy then [] else forEach (requestRepair k) bad d)
  else if (d.port out).free (d.schedVc ⟨none, mkOrdered ptLeaf d.here 0 0 []⟩ out) < 264 then []
  else
    (fun d => [.ring k (onDir dir fun s => { s with reading := true })] ++
      ((d.leafPackets k (d.leafExt k dir y day) (d.readHbm a 16384).1).map Upd.inject)) d

/-- OWN_LEAF_ACCEPT (R38, R171): the owner has read its leaf's body and accepts it. -/
def ownLeafAcceptAct (k : Nat) (dir : Dir) : Act := fun d =>
  let (y, day) := d.nextDay k dir
  if !((d.ring k).dir dir).reading || d.ringFenced k then [] else
    acceptLeaf k dir (d.leafExt k dir y day) (d.readHbm (d.leafAddr k dir y day) 16384).1 6 noAct d

/-- RESIDENT_LOOPBACK_LEAF (R50): the loopback plays the next leaf of a ring of one. -/
def residentLoopbackLeafAct (k : Nat) (dir : Dir) : Act := fun d =>
  let (y, day) := d.nextDay k dir
  let a := d.leafAddr k dir y day
  let bad := d.badLeaf k dir y day
  if (d.plan k).len ≠ 1 || !d.playsNext k dir false then []
  else if !bad.isEmpty then forEach (requestRepair k) bad d
  else acceptLeaf k dir (d.leafExt k dir y day) (d.readHbm a 16384).1 7 noAct d

/-! ### Launch (R41, R42) -/

/-- Whether this module is a first owner of the context's first year. -/
def Dev.firstOwner (d : Dev) (k : Nat) : Bool :=
  let p := d.plan k
  [Dir.cw, Dir.ccw].any fun dir => p.hasDays dir && (let (y, day) := p.firstDay dir p.first; p.owner dir y day = p.pos)

/-- The launch count of a context has come (R41, R42, R275): a COUNT of zero stops it; otherwise it goes live where it may. -/
def launch (k : Nat) : Act := fun d =>
  let late : Bool := !d.placed k && d.firstOwner k
  inSequence [
    fun _ => [.ring k fun r => { r with launched := true }] ++ (if late then [setF F.RING_STATUS_LATE_LAUNCH k 1] else []),
    if (d.plan k).count = 0 then stopContext k else goLiveBoth k ] d

/-- RING_LAUNCH (R41): GCNT has reached the launch count of an armed or live context.
(DEDUCED, log 87) -/
def ringLaunchAct (k : Nat) : Act := fun d =>
  let st := d.fld F.RING_STATUS_STATE k
  if (st = 1 || st = 2) && !(d.ring k).launched && d.fld F.RING_LAUNCH_GCNT k ≤ d.now then launch k d else []

/-! ### Arming (R43, R274, R275, R445, R503) -/

/-- Every sync word of a slice is zero in its state at placement (R445). -/
def zeroSync (pkey : BitVec 12) : Act := fun d =>
  match d.syncTable pkey with
  | none => []
  | some t => (t.entries.filter fun e => syncType e.2 ≠ 0).flatMap fun e =>
    match syncLoc e.2 with
    | .spm c a => [Upd.spm c a (leBytes 8 0)]
    | .hbm a => [Upd.hbm a (leBytes 8 0)]

/-- Place the binding of a ring context whose checks have passed: schedule, seed, mirror and armed banks (R274, R275, R445, R503). -/
def placeBinding (k : Nat) : Act := fun d =>
  match d.matching k, d.ringSlice k with
  | j :: _, some i =>
    match d.schedLib[j]? with
    | none => []
    | some s =>
      let sl := d.slice i
      let first := sl.committed.isNone && (d.activeRings sl.pkey).isEmpty
      let takers := takersOf s
      let buddy := d.buddyOf d.here
      let held := !first || buddy.isNone
      inSequence [
        fun d => [setF F.RING_STATUS_STATE k 1, setF F.RING_CTL_ARM k 1, setF F.RING_STATUS_VALID_CW k 0,
          setF F.RING_STATUS_VALID_CCW k 0, setF F.RING_STATUS_YEARS_DONE k 0, setF F.RING_STATUS_BWD k 0,
          setF F.RING_STATUS_LATE_LAUNCH k 0,
          .ring k fun r => { RingSt.init with
            sched := some j, mirrorHeld := held, seed := BitVec.ofNat 64 (d.fld F.RNG_SEED_SEED i)
            shareOk := r.shareOk, catchUp := r.catchUp, proxy := r.proxy }] ++
          (if first then [.slice i fun s => { s with baseYear := some (d.fld F.RING_YEARS_FIRST_YEAR k) }] else []),
        onlyIf first (zeroSync sl.pkey),
        fun _ => (takers.map fun e => .core e.1 fun cs => { cs with armed := some ⟨k, j, false⟩ }) ++
          (((takers.map fun e => clusterOf e.1) ++ s.clusters.map Prod.fst).dedup.map fun g =>
            .cluster g fun cl => { cl with armedSched := some j }) ++
          (if held then [] else buddy.toList.map fun b => .send (.mgmt b (.mirrorState sl.pkey d.committedBytes))),
        fun d => if d.fld F.RING_LAUNCH_GCNT k < d.now then
            inSequence [fun _ => [setF F.RING_STATUS_LATE_LAUNCH k 1], launch k] d else [] ] d
  | _, _ => []

/-- The RW fields of RING_CTL beside ARM and STOP (R60). -/
def ringCtlFields : List Fld :=
  [F.RING_CTL_PKEY, F.RING_CTL_POS, F.RING_CTL_LEN, F.RING_CTL_SECTION, F.RING_CTL_BASE_GEN, F.RING_CTL_MODE]

/-- A write of RING_CTL (R42, R43, R60, R274): of an armed or live context only STOP may change; setting ARM binds a schedule or is refused,
and a STOP in the cycle of a year's last acceptance still acts on it.
(DEDUCED, log 85) -/
def writeRingCtl (k : Nat) (val : BitVec 64) (d : Dev) : Answer × Act :=
  let get := fun (f : Fld) => bitsOf val f.hi f.lo
  let st := d.fld F.RING_STATUS_STATE k
  let arm : Bool := get F.RING_CTL_ARM = 1
  let put := fun (fs : List Fld) => fs.map fun f => setF f k (get f)
  if 16 < get F.RING_CTL_LEN || get F.RING_CTL_MODE = 3 then refuse 6
  else if st = 1 || st = 2 then
    if (ringCtlFields.any fun f => get f ≠ d.fld f k) || (arm && !d.bit F.RING_CTL_ARM k) then refuse 5
    else
      let again := fun (dir : Dir) => onlyIf (((d.ring k).dir dir).acceptedAt = d.now && !((d.ring k).dir dir).reading) (yearEnd k dir)
      (answerOk, inSequence [fun _ => put [F.RING_CTL_STOP], again .cw, again .ccw])
  else if !arm then (answerOk, fun _ => put (F.RING_CTL_STOP :: ringCtlFields))
  else if [0, 1, 2, 3].any fun o => d.fld F.RING_STATUS_STATE o = 1 then refuse 5
  else
    let d' := applyAll (put ringCtlFields) d
    match d'.bindStatus k with
    | some status => (addressError 5, fun _ => [.ring k fun r => { r with refused := some (get F.RING_CTL_PKEY, status) }])
    | none => (answerOk, inSequence [fun _ => put (F.RING_CTL_STOP :: ringCtlFields), placeBinding k])

/-- RING_CTL_ARM (R43, R274). -/
def ringCtlArmAct (r : Req) (k : Nat) (val : BitVec 64) : Act :=
  serve r (waking (writeRingCtl k (BitVec.ofNat 64 (putBits val.toNat F.RING_CTL_ARM.hi F.RING_CTL_ARM.lo 1))))

/-- RING_CTL_STOP (R42). -/
def ringCtlStopAct (r : Req) (k : Nat) (val : BitVec 64) : Act :=
  serve r (waking (writeRingCtl k (BitVec.ofNat 64 (putBits val.toNat F.RING_CTL_STOP.hi F.RING_CTL_STOP.lo 1))))

/-! ### Checks of received leaves (R29, R47, R68) -/

/-- A CONTAINER value that R29 reserves. -/
def reservedContainer (c : Nat) : Bool := c = 0 || (0x14 ≤ c && c ≤ 0x1F) || 0x25 ≤ c

/-- A reserved value or nonzero reserved field, or a closing leaf with a field that must be zero (R28, R47). -/
def leafReserved (e : LeafExt) : Bool :=
  e.extType ≠ 1 || e.pktIdx.toNat / 4 ≠ 0 || e.hop.toNat / 16 ≠ 0 || e.ttl.toNat / 16 ≠ 0 || e.origin.toNat / 16 ≠ 0 ||
    e.pkey.toNat / 4096 ≠ 0 || e.sectionByte.toNat / 32 ≠ 0 || e.rsv34 ≠ 0 || e.rsv40 ≠ 0 ||
    (if e.isEnd then e.grad || e.scaled || e.layer ≠ 0 || e.codecTable ≠ 0 || e.tile ≠ 0 || e.leafElems ≠ 0 || e.tailCount ≠ 0 ||
        e.container ≠ 0
     else reservedContainer e.container.toNat)

/-- The format check of a raw leaf, and SCALED of a Steep leaf (R47). -/
def leafElemsBad (e : LeafExt) : Bool :=
  let c := e.container.toNat
  let n := e.leafElems.toNat
  if e.isEnd || reservedContainer c then false
  else if isSteep c then e.scaled
  else (e.scaled && !scalable c) || n = 0 || leafCapacity c e.scaled < n || e.shortTail ≠ decide (n % 256 ≠ 0) ||
    e.tailCount.toNat ≠ n % 256

/-- Whether a day is not later than the angle of its direction (R39, R47). -/
def Dev.notLater (d : Dev) (k : Nat) (dir : Dir) (year day : Nat) : Bool :=
  match d.angle k dir with
  | some (y, dd) => yearsFrom (d.plan k).first year < yearsFrom (d.plan k).first y || (year = y && day ≤ dd)
  | none => false

/-- The GRAD, YEAR, DAY and repeat checks of a gradient leaf (R47). -/
def Dev.gradOk (d : Dev) (k : Nat) (e : LeafExt) : Bool :=
  let p := d.plan k
  let y := e.year.toNat
  p.mode = 2 && e.bwd && p.bwd y && d.notLater k e.dir y e.day.toNat && e.day.toNat < p.days e.dir y &&
    !((d.ring k).grads.contains ⟨e.dir, y, e.day.toNat⟩) &&
    (d.ringSlice k).any fun i =>
      let t := d.stepOf k i y
      (d.slice i).nextStep ≤ t && t ≤ (d.slice i).nextStep + 1

/-- The bits of RING_ERR that an extension sets in its context (R47, R68). -/
def Dev.leafFails (d : Dev) (k : Nat) (e : LeafExt) : List Fld :=
  let p := d.plan k
  let y := e.year.toNat
  let day := e.day.toNat
  let placed := if e.grad then d.gradOk k e else (y, day) = d.nextDay k e.dir
  let f := fun (b : Bool) (x : Fld) => if b then [x] else []
  f (leafReserved e) F.RING_ERR_RESERVED_VAL ++
  f (e.pkey.toNat ≠ d.fld F.RING_CTL_PKEY k) F.RING_ERR_KEY ++
  f (e.sectionByte.toNat ≠ d.fld F.RING_CTL_SECTION k || e.baseGen.toNat ≠ d.fld F.RING_CTL_BASE_GEN k) F.RING_ERR_GEN ++
  f (e.ttl.toNat + 1 ≠ p.len || e.ttl.toNat < e.hop.toNat + 1) F.RING_ERR_HOPS ++
  f (!placed || e.bwd ≠ p.bwd y) F.RING_ERR_ORDER ++
  f (placed && e.origin.toNat ≠ p.owner e.dir y day) F.RING_ERR_OWNER ++
  f (leafElemsBad e) F.RING_ERR_ELEMS

/-- Where a leaf without a context is recorded (R47, R68).
(DEDUCED, log 88) -/
def Dev.strayLeaf (d : Dev) (e : LeafExt) : Nat × Fld :=
  match [0, 1, 2, 3].find? fun k => d.fld F.RING_CTL_PKEY k = e.pkey.toNat with
  | some k => (k, F.RING_ERR_UNARMED)
  | none => (0, F.RING_ERR_KEY)

/-- The module that sent a leaf here: the previous one of the ring in its direction (R458). -/
def Dev.leafSender (d : Dev) (k : Nat) (dir : Dir) : Coord :=
  let p := d.plan k
  d.ringModule k (match dir with | .cw => p.prevPos | .ccw => p.nextPos)

/-- A ring fault (R48, R458): its bits are set, one fault is counted, and the slice is fenced. One that recurs at the same direction and
day in the replay of its step is a module fault of the sender. -/
def ringFault (k : Nat) (bits : List Fld) (e : LeafExt) : Act := fun d =>
  let flags := (bits.map fun b => setF b k 1) ++ [satF F.RING_ERR_FAULTS k 1]
  match d.sliceOf (e.pkey.truncate 12) with
  | none => flags
  | some i =>
    let s := d.slice i
    let r := s.repeats.at s.nextStep
    let key := (e.dir, e.year.toNat, e.day.toNat)
    if r.ringDays.contains key then
      let c := d.leafSender k e.dir
      inSequence [
        fun _ => flags,
        fenceSlice i 3,
        fun d => [.send (.mgmt d.coordinator (.faultReport 3 c none [s.pkey])),
          .event 6 ([3, 0] ++ leBytes 2 c.toNat ++ leBytes 2 s.pkey.toNat)] ] d
    else inSequence [
      fun _ => flags ++ [.slice i fun s => { s with repeats := { r with ringDays := r.ringDays ++ [key] } }],
      faultSlice i 1 ] d

/-! ### Reception (R44, R47–R49) -/

/-- Whether two queued packets are of one leaf (R27). -/
def sameLeaf (a b : Packet) : Bool :=
  a.ptype.toNat = ptLeaf && b.ptype.toNat = ptLeaf &&
    { leafOfBytes a.ext with pktIdx := 0 } = { leafOfBytes b.ext with pktIdx := 0 }

/-- Queue a packet of a leaf behind the packets of the same leaf, so that its four packets stay back to back (R26). -/
def insertLeaf (p : Packet) (qs : List Queued) : List Queued :=
  if (leafOfBytes p.ext).pktIdx = 0 then qs ++ [⟨none, p⟩]
  else match findIdx? (fun _ (q : Queued) => sameLeaf q.pkt p) qs.reverse with
    | some i => qs.take (qs.length - i) ++ [⟨none, p⟩] ++ qs.drop (qs.length - i)
    | none => ⟨none, p⟩ :: qs

/-- Forward a leaf packet on the port that continues its direction (R44).
(DEDUCED, log 82) -/
def forwardLeaf (p : Nat) (pkt : Packet) (e : LeafExt) : Act := fun d =>
  let out := dirPort e.dir
  let pkt := { pkt with ext := leafBytes { e with hop := e.hop + 1 } }
  let pkt := { pkt with vc := BitVec.ofNat 8 (d.schedVc ⟨some p, pkt⟩ out) }
  [.port out fun s => { s with queue := insertLeaf pkt s.queue }, .pump]

/-- Whether a receiving module forwards a leaf: h = HOP + 1 below TTL (R44). -/
def forwards (e : LeafExt) : Bool := e.hop.toNat + 1 < e.ttl.toNat

/-- A packet of a leaf in order: it is forwarded; the last one completes the leaf, whose acceptance waits while credit is withheld. -/
def leafPacket (k p : Nat) (pkt : Packet) (e : LeafExt) (rx : LeafRx) : Act := fun d =>
  let fwd := onlyIf (forwards e) (forwardLeaf p pkt e)
  let body := rx.body ++ pkt.payload
  if rx.next < 3 then
    inSequence [
      fun _ => [.ring k (onDir e.dir fun s => { s with rx := some { rx with next := rx.next + 1, body := body } })],
      fwd ] d
  else if e.isEnd then
    inSequence [fun _ => [.ring k (onDir e.dir fun s => { s with rx := none })], fwd, goLive k e.dir, endDir k e.dir] d
  else acceptLeaf k e.dir rx.ext body p fwd d

/-- Receive one packet of a weight leaf (R47). -/
def receiveLeaf (p : Nat) (pkt : Packet) (e : LeafExt) : Act := fun d =>
  let dir := e.dir
  match [0, 1, 2, 3].findSome? fun k => ((d.ring k).dir dir).rx.map fun x => (k, x) with
  | some (k, rx) =>
    let i := e.pktIdx.toNat % 4
    let bits := (if i ≠ rx.next then [F.RING_ERR_INCOMPLETE] else []) ++
      (if i = rx.next && { e with pktIdx := rx.ext.pktIdx } ≠ rx.ext then [F.RING_ERR_MISMATCH] else []) ++
      (if leafReserved e then [F.RING_ERR_RESERVED_VAL] else [])
    if bits.isEmpty then leafPacket k p pkt e rx d else ringFault k bits rx.ext d
  | none =>
    match d.leafContext dir with
    | none => let (k, bit) := d.strayLeaf e; ringFault k [bit] e d
    | some k =>
      let bits := d.leafFails k e ++ (if e.pktIdx.toNat % 4 = 0 then [] else [F.RING_ERR_INCOMPLETE])
      if !bits.isEmpty then ringFault k bits e d
      else if e.grad then []
      else leafPacket k p pkt e ⟨e, 0, [], p, pktVc pkt⟩ d

/-- LEAF_PACKET_RECEIVE (R38, R44, R47–R49). -/
def leafPacketReceiveAct (p : Nat) (pkt : Packet) : Act :=
  deliver pkt fun d =>
    if pkt.ptype.toNat ≠ ptLeaf then [] else receiveLeaf p pkt (leafOfBytes pkt.ext) d

/-! ### Gradient leaves (R45, R46, R138) -/

/-- The element values of a gradient leaf. -/
def gradValues (e : LeafExt) (body : List Byte) : List Val :=
  let c := e.container.toNat
  let u := unitSize c e.scaled
  (List.range e.leafElems.toNat).map fun i => unitElem c e.scaled false ((body.drop (u * (i / 256))).take u) (i % 256)

/-- RNE(g + c) of every element, saturating (R138).
(DEDUCED, log 67) -/
def gradSums (e : LeafExt) (body : List Byte) (contrib : List (BitVec 32)) : List Val :=
  ((gradValues e body).zip (List.range e.leafElems.toNat)).map fun x =>
    rne32 false (x.1.add (fp32 (contrib[x.2]?.getD 0)))

/-- The body of a forwarded gradient leaf: the sums in CONTAINER with RNE and saturation (R138). -/
def gradBody (e : LeafExt) (vs : List Val) : List Byte :=
  (chunksOf ((vs.length + 255) / 256) 256 vs).flatMap fun u =>
    packUnit e.container.toNat e.scaled ⟨0, false, false, false⟩ (fun _ => none) u

/-- The owner keeps a completed gradient leaf in FP32 (R45, R138). -/
def keepGrad (k : Nat) (e : LeafExt) (vs : List Val) : Upd :=
  let key : GradKey := ⟨e.dir, e.year.toNat, e.day.toNat⟩
  .ring k fun r => { r with kept := r.kept ++ [⟨key, vs.map fun v => BitVec.ofNat 32 (fmtFp32.encode v)⟩] }

/-- The GRAD cues of a gradient leaf received whole become due (R278). -/
def offerGrad (k : Nat) (e : LeafExt) : Act := fun d =>
  match d.ringSlice k with
  | some i => offerDay k (gradTrig e.dir) e.year.toNat e.day.toNat (d.stepOf k i e.year.toNat) true d
  | none => []

/-- A whole gradient leaf whose checks have passed: the contribution is added, and it is forwarded, or kept by the owner (R45). -/
def takeGrad (k : Nat) (e : LeafExt) (body : List Byte) (contrib : List (BitVec 32)) : Act := fun d =>
  if d.creditHeld k (gradTrig e.dir) then [] else
    let vs := gradSums e body contrib
    inSequence [
      fun _ => [.ring k fun r => { r with grads := r.grads ++ [⟨e.dir, e.year.toNat, e.day.toNat⟩] }],
      fun d => if e.hop.toNat + 1 = e.ttl.toNat then [keepGrad k e vs]
        else (d.leafPackets k { e with hop := e.hop + 1, pktIdx := 0 } (gradBody e vs)).map Upd.inject,
      offerGrad k e ] d

/-- Receive a gradient leaf whole (R45, R47). -/
def receiveGrad (pkts : List Packet) (contrib : List (BitVec 32)) : Act := fun d =>
  match pkts with
  | [] => []
  | pkt :: _ =>
    let e := leafOfBytes pkt.ext
    let exts := pkts.map fun q => leafOfBytes q.ext
    if !e.grad || (pkts.any fun q => q.ptype.toNat ≠ ptLeaf) then [] else
      match d.leafContext e.dir with
      | none => let (k, bit) := d.strayLeaf e; ringFault k [bit] e d
      | some k =>
        let inOrder := (exts.map fun x => x.pktIdx.toNat % 4) = [0, 1, 2, 3]
        let bits := d.leafFails k e ++ (if inOrder then [] else [F.RING_ERR_INCOMPLETE]) ++
          (if inOrder && exts.any fun x => { x with pktIdx := e.pktIdx } ≠ e then [F.RING_ERR_MISMATCH] else []) ++
          (if !leafReserved e && exts.any leafReserved then [F.RING_ERR_RESERVED_VAL] else [])
        if bits.isEmpty then takeGrad k e (pkts.flatMap fun q => q.payload) contrib d else ringFault k bits e d

/-- GRADIENT_LEAF_RECEIVE (R45, R46, R138).
(DEDUCED, log 65) -/
def gradientLeafReceiveAct (pkts : List Packet) (contrib : List (BitVec 32)) : Act := fun d =>
  match pkts with
  | [] => []
  | pkt :: _ => deliver pkt (receiveGrad pkts contrib) d

/-- GRADIENT_LEAF_START (R45, R46): the drain of a day's gradient is complete at the owner's downstream neighbour. The leaf takes its
format and elements from the drain and the rest from its weight leaf. On a ring of one the owner keeps its own contribution.
(DEDUCED, log 68) -/
def gradientStart : DrainHook := fun c a x bs d =>
  match (d.core c).live with
  | none => []
  | some b =>
    let k := b.ring
    let p := d.plan k
    let f := a.firing
    let dir := trigDir f.trig
    if p.mode ≠ 2 || !f.bwd || !Config.gradientDrain (d.fld F.RING_CTL_PKEY k) a.stream a.base then []
    else match (d.ring k).bwdExts.find? fun e => e.dir = dir && e.year.toNat = f.year && e.day.toNat = f.day with
      | none => []
      | some w =>
        let n := min (bs.length / unitSize x.format x.scaled * 256 +
          bs.length % unitSize x.format x.scaled * 8 / max 1 (elemBits x.format)) (leafCapacity x.format x.scaled)
        let bit := fun (b : Bool) (i : Nat) => if b then 2 ^ i else 0
        let e := { w with
          flags := BitVec.ofNat 8 (bit (dir = .ccw) 0 + 2 + 4 + bit (n % 256 ≠ 0) 3 + bit x.scaled 7)
          container := BitVec.ofNat 8 x.format, codecTable := 0, leafElems := BitVec.ofNat 32 n
          tailCount := BitVec.ofNat 16 (n % 256), hop := 0, gcntInj := d.gcnt.truncate 32 }
        let owner := w.origin.toNat
        let down := match dir with
          | .cw => (owner + 1) % max 1 p.len
          | .ccw => (owner + p.len - 1) % max 1 p.len
        if p.len ≤ 1 then inSequence [fun _ => [keepGrad k e (gradValues e bs)], offerGrad k e] d
        else if down = p.pos then (d.leafPackets k e bs).map Upd.inject
        else []

/-- STREAM_TRANSFER_COMPLETE (R46, R240). -/
def streamTransferCompleteAct (c : Nat) (e : Engine) : Act := streamTransferComplete gradientStart c e

end Sys2Proof.Machine
end

