-- ==== Sys2Proof/Machine/Memory.lean ====
section
/-! DEFINITION. The HBM controllers and the scratchpad tables (05), and the determinism commands (12): block reads with re-reads and bad
blocks, patrol scrub, freeze, share repair, slot tables and regions, the seed, and the admission log (R202–R212, R223–R236, R496, R503). -/

namespace Sys2Proof.Machine

/-! ### Block reads (R203–R206, R209–R211) -/

/-- Blocks of the device (R202). -/
def blockCount : Nat := hbmSize / 256

/-- The stack of a channel (R201). -/
def stackOf (ch : Nat) : Nat := ch / 32

/-- What the reads of a block gave (R204): matched at the first read, matched at a re-read, none of three matched, or not yet known. -/
inductive ReadOutcome where
  | clean | corrected | failed | under
  deriving DecidableEq, Repr

/-- The outcome of the CRC checks of a read and its re-reads, in order.
(DEDUCED, log 24, 25, 30) -/
def readOutcome (ok : List Bool) : ReadOutcome :=
  match ok.take 3 with
  | true :: _ => .clean
  | [false, false, false] => .failed
  | bs => if bs.any id then .corrected else .under

/-- The ring context whose share, or whose shadow, holds a block. -/
def Dev.shareOfBlock (d : Dev) (b : Nat) : Option Nat :=
  [0, 1, 2, 3].find? fun k => (d.ringSlice k).isSome && d.fld F.RING_SHARE_BASE k * 64 ≤ b &&
    b < (d.fld F.RING_SHARE_BASE k + d.fld F.RING_SHARE_SIZE k) * 64
def Dev.shadowOfBlock (d : Dev) (b : Nat) : Option Nat :=
  [0, 1, 2, 3].find? fun k => (d.ringSlice k).isSome && (d.plan k).usesShadow && d.fld F.RING_SHADOW_BASE k * 64 ≤ b &&
    b < (d.fld F.RING_SHADOW_BASE k + d.fld F.RING_SHADOW_SIZE k) * 64

/-- Ask for the bytes of a block that ring contexts hold (R206): a share block from the shadow, or from the reader in resident mode; a
shadow block from the reader.
(DEDUCED, log 28) -/
def repairBlock (b : Nat) : Act := fun d =>
  match d.shareOfBlock b, d.shadowOfBlock b with
  | some k, _ => requestRepair k b d
  | none, some k =>
    if d.repair.contains b then [] else
      [.repair fun l => l ++ [b]] ++
        match d.readerOf (d.fld F.RING_CTL_SECTION k) with
        | some c => [Upd.send (.mgmt c (.unitRequest k (b / 64)))]
        | none => []
  | none, none => []

/-- A block is bad (R205, R224, R225): recorded, listed unless its stack's list is full, and repaired when it is a ring's. Beyond a full
list its bytes carry the bad mark alone.
(DEDUCED, log 26) -/
def declareBad (b port : Nat) : Act := fun d =>
  let stack := stackOf (b % 256)
  let full : Bool := 4096 ≤ (d.hbmBad.filter fun x => stackOf (x % 256) = stack).length
  inSequence [
    fun _ => [setF F.HBM_ERR_BAD 0 1, satF F.HBM_ERR_BAD_BLOCKS 0 1, setF F.HBM_BAD_LOC_PORT 0 port, setF F.HBM_BAD_LOC_BLOCK 0 b] ++
      (if full then [setF F.HBM_ERR_LIST_FULL 0 1, .hbmMarks fun m => unmark (b * 256) 256 m ++ [(b * 256, 256)]]
       else [.hbmBad fun l => l ++ [b]]),
    repairBlock b ] d

/-- A read of a block through a port, from its grant to its delivery (R204, R205, R210, R211): a listed block returns bad at once. -/
def readBlock (b port : Nat) (ok : List Bool) : Act := fun d =>
  let ch := b % 256
  let done : List Upd := [.chan ch (fun c => { c with grant := none, last := port }), channelIdle ch true]
  if d.hbmBad.contains b then done else
    match readOutcome ok with
    | .under =>
      if (d.chan ch).grant.isSome then [] else [.chan ch (fun c => { c with grant := some (port, d.now) }), channelIdle ch false]
    | .clean => done
    | .corrected => done ++ [addF F.HBM_ERR_REREADS_OK 0 1, setF F.HBM_ERR_REREAD 0 1]
    | .failed => inSequence [fun _ => done, declareBad b port] d

/-- Whether a channel's freeze bit is set (R211).
(DEDUCED, log 32) -/
def Dev.frozenChan (d : Dev) (ch : Nat) : Bool := d.fld F.HBM_FREEZE_CH (ch / 64) / 2 ^ (ch % 64) % 2 = 1

/-- HBM_BLOCK_READ (R204, R205, R209–R211): a frozen channel makes no new grant; a transfer in progress completes.
(DESIGN CHOICE, log 23) -/
def hbmBlockReadAct (block port : Nat) (ok : List Bool) : Act := fun d =>
  let ch := block % 256
  let mine : Bool := match (d.chan ch).grant with
    | some (p, _) => p = port
    | none => !d.frozenChan ch
  if block < blockCount && mine then readBlock block port ok d else []

/-- SHARE_REPAIR_REPLY (R206): the block is rewritten whole, and the leaf that waited for it is injected. -/
def shareRepairReplyAct (block : Nat) (data : List Byte) : Act := fun d =>
  let a := block * 256
  if !d.repair.contains block || data.length ≠ 256 then [] else
    inSequence [
      writeHbm a data false,
      finishRepair a 256,
      fun _ => [.route fun r => { r with reads := r.reads.filter fun e => !(e.2.2.2.1 = a && e.2.2.2.2 = 256) }],
      forEach (fun (e : Nat × Dir) => fun d =>
        let (k, dir) := e
        let (y, day) := d.nextDay k dir
        let at_ := d.leafAddr k dir y day
        if (d.shareOfBlock block) ≠ some k || !d.playsNext k dir false || !(at_ ≤ a && a < at_ + 16384) then []
        else if (d.plan k).len = 1 then residentLoopbackLeafAct k dir d
        else leafInjectAct k dir false d)
        ([0, 1, 2, 3].flatMap fun k => [(k, Dir.cw), (k, Dir.ccw)]) ] d

/-- HBM_REFRESH (R207): a refresh delays the channel's read queue and changes nothing. -/
def hbmRefreshAct (_ch : Nat) : Act := noAct

/-- A write of HBM_FREEZE (R211): the ranking is unchanged. -/
def writeFreeze (i : Nat) (val : BitVec 64) : Answer × Act := (answerOk, fun _ => [setF F.HBM_FREEZE_CH i val.toNat])

/-- HBM_CHANNEL_FATAL (R261, R463). -/
def hbmChannelFatalAct (_ch : Nat) : Act := moduleFault 3

/-! ### Patrol scrub (R212) -/

/-- The extents that the scrub covers: shares and shadows, and the regions with SCRUB set.
(DEDUCED, log 31) -/
def Dev.scrubExtents (d : Dev) : List (Nat × Nat) :=
  (d.ringRegions ++ (d.regions.filter regionScrub).map fun e => (regionBase e, regionSize e)).filter fun r => r.2 ≠ 0

/-- The first block of a channel at or above a position in an extent. -/
def blockFrom (ch pos : Nat) (r : Nat × Nat) : Option Nat :=
  let m := max pos (r.1 / 256)
  let b := m + (ch + 256 - m % 256) % 256
  if b * 256 < min hbmSize (r.1 + r.2) then some b else none

/-- The next block of a channel to scrub at or above a position. -/
def Dev.scrubNext (d : Dev) (ch pos : Nat) : Option Nat :=
  (d.scrubExtents.filterMap (blockFrom ch pos)).foldl (fun (a : Option Nat) b => some (match a with | some x => min x b | none => b)) none

/-- Passes that every channel with blocks to scrub has completed. -/
def Dev.scrubPasses (d : Dev) : Nat :=
  ((List.range 256).filter fun ch => (d.scrubNext ch 0).isSome).foldl
    (fun (a : Option Nat) ch => some (match a with | some x => min x (d.chan ch).passes | none => (d.chan ch).passes)) none |>.getD 0

/-- PATROL_SCRUB_READ (R204–R206, R212): the next block of the channel is read through port 7; the pass ends at the last one. -/
def patrolScrubReadAct (ch : Nat) (ok : List Bool) : Act := fun d =>
  if !d.bit F.HBM_SCRUB_EN || d.frozenChan ch || (d.chan ch).grant.isSome then [] else
    match (d.scrubNext ch (d.chan ch).scrub).or (d.scrubNext ch 0) with
    | none => []
    | some b =>
      let more := (d.scrubNext ch (b + 1)).isSome
      if readOutcome ok = .under && !d.hbmBad.contains b then [] else
        inSequence [
          readBlock b 7 ok,
          fun _ => [.chan ch fun c => if more then { c with scrub := b + 1 } else { c with scrub := 0, passes := c.passes + 1 }],
          fun d => [setF F.HBM_SCRUB_PASSES 0 d.scrubPasses] ] d

/-! ### Slot tables, regions and vault slots (R192, R196, R230, R233, R235, R236) -/

/-- The core that SPM_SEL of a path names (R233). -/
def Dev.spmSel (d : Dev) (path : Path) : Nat := d.fld F.SPM_SEL_CORE path.copy

/-- Whether an engine code is reserved (R188).
(DEDUCED, log 35) -/
def reservedEngine (n : Nat) : Bool := 9 ≤ n

/-- The word of a register, written whole. -/
def wholeReg (r : Reg) : Fld := ⟨r, 63, 0⟩

/-- A write of SPM_SLOT (R188, R235). -/
def writeSpmSlot (path : Path) (b : Nat) (val : BitVec 64) (d : Dev) : Answer × Act :=
  if d.mode ≠ stMaint then refuse 5
  else if (List.range 16).any fun s => reservedEngine (bitsOf val (4 * s + 3) (4 * s)) then refuse 6
  else (answerOk, fun d => [setF (wholeReg .SPM_SLOT) (d.spmSel path * 16 + b) val.toNat])

/-- A write of SPM_REGION (R196, R236): the region is redefined, and is then empty. -/
def writeSpmRegion (path : Path) (n : Nat) (val : BitVec 64) (d : Dev) : Answer × Act :=
  if d.mode ≠ stMaint then refuse 5
  else if reservedEngine (bitsOf val 62 59) || reservedEngine (bitsOf val 58 55) then refuse 6
  else (answerOk, fun d => [setF (wholeReg .SPM_REGION) (regionIx (d.spmSel path) n) (bitsOf val 63 31 * 2147483648)])

/-- A write of VAULT_SLOT_A or VAULT_SLOT_B by software (R221, R230): in installation mode only.
(DEDUCED, log 36) -/
def writeVaultSlot (slotB : Bool) (val : BitVec 64) (d : Dev) : Answer × Act :=
  let i := if slotB then 1 else 0
  if d.bit F.VAULT_CTL_INSTALL then
    (answerOk, fun _ => [F.VAULT_SLOT_PRESENT, F.VAULT_SLOT_GEN, F.VAULT_SLOT_SIZE, F.VAULT_SLOT_BASE].map fun f =>
      setF f i (bitsOf val f.hi f.lo))
  else (addressError 5, fun _ => [setF F.VAULT_ERR_WRITE_REFUSED 0 1])

/-! ### Determinism (R496, R503) -/

/-- A write of RNG_SEED (R503, R513): refused for an entry not allocated, or while a ring context of its slice is armed or live. -/
def writeSeed (path : Path) (val : BitVec 64) (d : Dev) : Answer × Act :=
  let i := d.fld F.DET_SEL_INDEX path.copy
  let s := d.slice i
  if s.desc.isNone || !(d.activeRings s.pkey).isEmpty then refuse 5
  else (answerOk, fun _ => [setF F.RNG_SEED_SEED i val.toNat])

/-- RNG_SEED_WRITE (R503). -/
def rngSeedWriteAct (r : Req) (val : BitVec 64) : Act := serve r (writeSeed r.path val)

/-- ADMISSION_LOG_TIMEOUT (R496): a logged request has not arrived SYNC_CFG.WAIT_WD µs after its step opened. -/
def admissionLogTimeoutAct (i : Nat) : Act := fun d =>
  let wait := mapGet (fun _ => 0) d.svc.waitAt i
  if wait = 0 || !d.expired (wait - 1) (d.fld F.SYNC_CFG_WAIT_WD) then [] else
    inSequence [
      fun _ => [.svc fun s => { s with waitAt := mapSet (fun _ => 0) i 0 s.waitAt }],
      timeoutSlice i (d.bit F.SYNC_CFG_WD_SAFE) 5 ] d

end Sys2Proof.Machine
end

