-- ==== Sys2Proof/Machine/Commit.lean ====
section
/-! DEFINITION. The commit protocol (R444–R457): the ward's staged writes and mirror, READY, DECIDE, COMMIT and APPLY, the commit point of a
step, and its digest records (R505, R506). -/

namespace Sys2Proof.Machine

/-! ### The ward's mirror (R447) -/

/-- The base of the mirror region (type 0x04). -/
def Dev.mirrorBase (d : Dev) : Option Nat := (d.regions.find? fun e => regionType e = 4).map regionBase

/-- The place of an address of the ward in the mirror: the ward's COMMITTED regions in region-table order. The ward's table is that of this
module, because both run one image. -/
def mirrorOffset : List (BitVec 128) → Nat → Nat → Option Nat
  | [], _, _ => none
  | e :: es, off, a =>
    if !regionCommitted e then mirrorOffset es off a
    else if inRegion e a then some (off + (a - regionBase e))
    else mirrorOffset es (off + regionSize e) a

/-- Write bytes of the ward into its mirror. -/
def writeMirror (a : Nat) (bs : List Byte) (bad : Bool) : Act := fun d =>
  match d.mirrorBase, mirrorOffset d.regions 0 a with
  | some b, some o => writeHbm (b + o) bs bad d
  | _, _ => []

/-- Bytes of the ward's staged writes. -/
def Dev.stagedUse (d : Dev) : Nat := (d.commit.staged.map fun w => w.data.length).sum

/-- A recovery WRITE on VC5 (R470): from the buddy, it restores this module's own state; from the ward, it rebuilds the ward's mirror. On an
axis of two modules, where one neighbour is both, the link tells: the buddy's is that of the plus port. -/
def recoveryWrite (port : Nat) (p : Packet) : Act := fun d =>
  let both : Bool := d.buddyOf d.here = d.wardOf d.here
  if d.buddyOf d.here = some p.srcCoord && (!both || portPlus port) then
    (if d.bit F.SAFE_STATUS_RELINQUISHED then [] else writeHbm p.addr.toNat p.payload p.bad d)
  else if d.wardOf d.here = some p.srcCoord then
    inSequence [
      writeMirror p.addr.toNat p.payload p.bad,
      fun d => [setF F.BUDDY_STATUS_REBUILDING 0 1, setF F.BUDDY_STATUS_MIRROR_OK 0 0,
        .commit fun c => { c with rebuilt := c.rebuilt + p.payload.length },
        setF F.BUDDY_STATUS_REBUILT 0 ((d.commit.rebuilt + p.payload.length) / 1048576)] ] d
  else []

/-- MIRROR_WRITE_RECEIVE (R447, R449, R470): a mirrored write of the ward is staged for its step and acknowledged. Staged writes that
overflow their half of the commit log region are a step fault of the slice.
(DEDUCED, log 92, 94) -/
def mirrorWriteReceiveAct (port step : Nat) (p : Packet) : Act := fun d =>
  if p.ptype.toNat ≠ ptWrite || !p.mirror || !d.paired p.srcCoord then []
  else if pktVc p = 5 then recoveryWrite port p d
  else
    let use := d.stagedUse + p.payload.length
    inSequence [
      fun _ => [.commit fun c => { c with staged := c.staged ++ [⟨p.key, step, p.addr.toNat, p.payload⟩] },
        maxF F.COMMIT_LOG_STAGED_PEAK 0 ((use + 1048575) / 1048576),
        .send (.mgmt p.srcCoord (.mirrorAck p.key step))],
      onlyIf (d.commitLogHalf < use) (fun d => match d.sliceOf p.key with
        | some i => logFull i step d
        | none => flagRecov F.RECOV_ERR_LOG_FULL) ] d

/-- MIRROR_ACK_RECEIVE (R445, R447, R450): a mirrored packet of a step, or the mirror of a slice's state at placement, is held by the
buddy. -/
def mirrorAckReceiveAct (i : Nat) (step : Option Nat) : Act := fun d =>
  match step with
  | some t => inSequence [
      fun _ => [.slice i fun s => { s with steps := s.steps.map fun e =>
        if e.step = t then { e with mirrorOut := e.mirrorOut - 1 } else e }],
      checkReady i t ] d
  | none => (d.activeRings (d.slice i).pkey).map fun k => .ring k fun r => { r with mirrorHeld := true }

/-! ### The commit point (R452) -/

/-- The digest ring: base and records (R506). -/
def Dev.digestRing (d : Dev) : Option (Nat × Nat) :=
  (d.regions.find? fun e => regionType e = 7).map fun e => (regionBase e, regionSize e / 64)

/-- Write one digest record at the next place of the ring (R505, R506). -/
def writeDigest (a : DigestAcc) : Act := fun d =>
  match d.digestRing with
  | none => []
  | some (base, n) =>
    inSequence [
      writeHbm (base + 64 * (d.fld F.DIGEST_WR_RECORDS % max 1 n)) (digestRecord d.here.toNat (d.bit F.DET_CTL_DET_MODE) a) false,
      fun _ => [addF F.DIGEST_WR_RECORDS 0 1] ] d

/-- The digest records of a committed step, in ascending (YEAR, LAYER) order (R505). -/
def commitDigests (pkey : BitVec 12) (t : Nat) : Act := fun d =>
  let mine := d.digests.filter fun a => a.pkey = pkey && a.step = t
  let order := sortBy (fun (a b : DigestAcc) => decide (a.year < b.year) || (decide (a.year = b.year) && decide (a.layer < b.layer))) mine
  inSequence [
    forEach writeDigest order,
    fun _ => if mine.isEmpty then [] else [.digests fun l => l.filter fun a => !(a.pkey = pkey && a.step = t)] ] d

/-- The commit point of step `t` at this module (R452): the step is committed, its undo log discarded, its core state records current,
SHADOW_SEL flipped in TRAIN_FULL, its results released, and the buddy told to apply. -/
def commitPoint (i t : Nat) : Act := fun d =>
  let pkey := (d.slice i).pkey
  let full := (d.boundRings pkey).filter fun k => d.fld F.RING_CTL_MODE k = 2
  inSequence [
    fun _ => [.commit fun c => { c with
        undo := c.undo.filter fun u => !(u.slice = i && u.step = t)
        recCur := (c.recCur.filter fun r => !(r.slice = i && c.recStaged.any fun x => x.slice = i && x.step = t && x.core = r.core)) ++
          c.recStaged.filter fun r => r.slice = i && r.step = t
        recStaged := c.recStaged.filter fun r => !(r.slice = i && r.step = t) },
      addF F.COMMIT_CNT_COMMITS 0 1] ++
      full.flatMap fun k =>
        let later := fun (y : Nat) => decide (t < d.stepOf k i y)
        [.fld F.RING_STATUS_SHADOW_SEL k (fun v => 1 - v),
         .ring k fun r => { r with
          shadowBytes := 0, bwdExts := r.bwdExts.filter fun e => later e.year.toNat
          grads := r.grads.filter fun g => later g.year }],
    fun _ => [.slice i fun s => { s with committed := some t }],
    commitDigests pkey t,
    serviceCommit i t,
    fun _ => [.slice i fun s => { s with
        steps := s.steps.filter fun e => t < e.step, rollbacks := 0
        noReplay := s.noReplay.filter fun n => t < n }],
    fun d => match d.buddyOf d.here with
      | some b => [.send (.mgmt b (.apply pkey t))]
      | none => [],
    snapCommit pkey ] d

/-! ### READY, DECIDE and COMMIT (R450, R451) -/

/-- The home has decided step `t`: it takes its own commit point, then sends COMMIT to every other member. Of a fenced slice the decision
stands in the home's record, and the rollback resolves the step (R454, R466). -/
def homeDecided (i t : Nat) : Act := fun d =>
  let s := d.slice i
  match s.desc with
  | none => []
  | some e =>
    inSequence [
      fun _ => [.slice i fun s => { s with home := { s.home with
        deciding := none, decided := some t, ready := s.home.ready.filter fun r => t < r.2 } }],
      onlyIf (!s.fenced && s.nextStep = t) (inSequence [
        commitPoint i t,
        fun d => ((d.members e).filter fun c => c ≠ d.here).map fun c => .send (.mgmt c (.commit s.pkey t)) ]) ] d

/-- The home decides the next step when it holds READY from every member (R451): the buddy must hold the decision first. -/
def tryDecide (i : Nat) : Act := fun d =>
  let s := d.slice i
  match s.desc with
  | none => []
  | some e =>
    let t := s.nextStep
    if s.fenced || s.home.deciding.isSome || !((d.members e).all fun c => s.home.ready.contains (c, t)) then []
    else match d.buddyOf d.here with
      | some b => [.slice i fun s => { s with home := { s.home with deciding := some t } },
          .send (.mgmt b (.decide s.pkey t))]
      | none => homeDecided i t d

/-- READY_RECEIVE (R450, R451, R454): discarded while the slice is fenced. -/
def readyReceiveAct (i : Nat) (src : Coord) (step : Nat) : Act := fun d =>
  let s := d.slice i
  if s.fenced || !d.homeHere i || !(s.desc.any fun e => d.isMember e src) || step < s.nextStep then [] else
    inSequence [
      fun _ => [.slice i fun s => { s with home := { s.home with
        ready := if s.home.ready.contains (src, step) then s.home.ready else s.home.ready ++ [(src, step)] } }],
      tryDecide i ] d

/-- DECIDE_RECEIVE (R451): the buddy of a home keeps the decision record and acknowledges it. -/
def decideReceiveAct (pkey : BitVec 12) (step : Nat) : Act := fun d =>
  match d.wardOf d.here with
  | none => []
  | some w => [.commit fun c => { c with wardDecide := (c.wardDecide.filter fun e => e.1 ≠ pkey) ++ [(pkey, step)] },
      .send (.mgmt w (.decideAck pkey step))]

/-- DECIDE_ACK_RECEIVE (R451): the decision is final; steps that are ready behind it follow. -/
def decideAckReceiveAct (i step : Nat) : Act := fun d =>
  if (d.slice i).home.deciding = some step && d.homeHere i then
    inSequence [homeDecided i step, tryDecide i] d
  else []

/-- COMMIT_RECEIVE (R451, R452, R454): not applied to a slice that is fenced here. -/
def commitReceiveAct (i step : Nat) : Act := fun d =>
  let s := d.slice i
  if s.fenced || !d.memberHere s || s.nextStep ≠ step then [] else commitPoint i step d

/-- APPLY_RECEIVE (R452): the ward's staged writes of a step enter the mirror in the order they were staged. -/
def applyStaged (pkey : BitVec 12) (upTo : Nat) : Act := fun d =>
  let mine := fun (w : StagedWrite) => w.pkey = pkey && w.step ≤ upTo
  inSequence [
    forEach (fun w : StagedWrite => writeMirror w.addr w.data false) (d.commit.staged.filter mine),
    fun _ => [.commit fun c => { c with staged := c.staged.filter fun w => !mine w }] ] d

def applyReceiveAct (pkey : BitVec 12) (step : Nat) : Act :=
  inSequence [applyStaged pkey step, fun _ => [setF F.BUDDY_STATUS_MIRROR_OK 0 1]]

end Sys2Proof.Machine
end

