-- ==== Sys2Proof/Machine/Service.lean ====
section
/-! DEFINITION. The service commands of SVC_CMD (R523, R524, R538, R541–R545, R550). -/

namespace Sys2Proof.Machine

/-! ### The queue pair table (R523) -/

/-- Read a queue pair table entry of 96 bytes. -/
def qpEnt (b : List Byte) : QpEnt :=
  let n := fun (off len : Nat) => leNat ((b.drop off).take len)
  let v6 : Bool := n 1 1 / 8 % 2 = 1
  let ip := (b.drop 16).take 16
  { role := n 0 1, iface := n 1 1 % 8, ipv6 := v6, notify := n 1 1 / 16 % 2 = 1, pkey := BitVec.ofNat 12 (n 2 2),
    localQpn := n 4 4 % 16777216, remoteQpn := n 8 4 % 16777216, pmtu := n 12 1, retry := n 13 1 % 8, timeout := n 13 1 / 8,
    tclass := n 14 1, remoteIp := BitVec.ofNat 128 (if v6 then leNat ip else leNat (ip.drop 12)), ringAddr := n 32 8,
    ringRkey := n 40 4, ringEntries := n 44 4, localRkey := n 48 4, nrec := n 52 4, promptKib := n 56 4, regionOff := n 60 4,
    sqPsn := n 64 4 % 16777216, rqPsn := n 68 4 % 16777216,
    reservedBits := n 1 1 / 32 ≠ 0 || n 2 2 / 4096 ≠ 0 || n 4 4 / 16777216 ≠ 0 || n 8 4 / 16777216 ≠ 0 || n 15 1 ≠ 0 ||
      n 64 4 / 16777216 ≠ 0 || n 68 4 / 16777216 ≠ 0 || leNat ((b.drop 72).take 24) ≠ 0 }

/-- Bytes of the queue pair table (R523). -/
def Dev.qpTable (d : Dev) : Nat × Nat :=
  (d.svcRegion.1 + 4096 * d.fld F.SVC_CFG_QP_TABLE, 96 * (d.fld F.SVC_CFG_QP_MAX_M1 + 1))

/-- A power of two within bounds. -/
def powerTo (n hi : Nat) : Bool := n ≠ 0 && n ≤ hi && 2 ^ Nat.log2 n = n

/-- Whether two extents overlap. -/
def overlaps (a b : Nat × Nat) : Bool := a.1 < b.1 + b.2 && b.1 < a.1 + a.2

/-- A reserved value in an entry (R523). -/
def QpEnt.reserved (e : QpEnt) : Bool :=
  e.reservedBits || e.role = 0 || 3 < e.role || e.pmtu < 3 || 5 < e.pmtu || e.timeout = 0 ||
    (match e.role with
     | 1 => !powerTo e.ringEntries 1048576 || !powerTo e.nrec 65536
     | 2 => e.ringAddr ≠ 0 || e.nrec ≠ 0 || e.promptKib ≠ 0
     | _ => e.nrec ≠ 0 || e.promptKib ≠ 0)

/-- The result of QP_CREATE for an entry (R524).
(DEDUCED, log 138) -/
def Dev.qpCheck (d : Dev) (q : Nat) (e : QpEnt) : Nat :=
  let region := d.svcRegion
  let mine := (d.qpRegion e, e.regionBytes)
  let others := d.svc.qps.filter fun x => x.1 ≠ q && x.2.st ≠ .reset
  if (e.role = 1 && (e.nrec = 0 || e.ringEntries = 0 || e.promptKib = 0)) || (e.role = 3 && e.ringEntries = 0) then 0x11
  else if e.reserved || !d.ifaceExists e.iface || !d.memberOf e.pkey ||
      (others.any fun x => x.2.ent.any fun y => y.localQpn = e.localQpn) ||
      (e.role = 1 && (region.1 + region.2 < mine.1 + mine.2 || overlaps mine d.qpTable ||
        (others.any fun x => x.2.ent.any fun y => y.role = 1 && overlaps mine (d.qpRegion y, y.regionBytes)))) then 0x12
  else 0

/-- Ask for the address of a queue pair's peer (R518). -/
def resolvePeer (e : QpEnt) : Act := fun d =>
  if d.svc.peers.any fun p => p.1 = e.iface && p.2.1 = e.remoteIp then [] else
    match d.iface e.iface with
    | none => []
    | some x =>
      ethSend e.iface (if e.ipv6 then .nd ⟨false, e.remoteIp, x.ipv6, x.mac⟩
        else .arp ⟨false, x.mac, x.ipv4, e.remoteIp.truncate 32⟩) d

/-! ### The result of a service command (R550) -/

/-- A service command completes: SEQ counts it and RESULT holds its status. -/
def svcResult (n : Nat) : List Upd :=
  [addF F.SVC_CMD_STATUS_SEQ 0 1, setF F.SVC_CMD_STATUS_RESULT 0 n, setF F.SVC_CMD_STATUS_BUSY 0 0]

/-- The arguments of a service command. -/
def Dev.svcArg (d : Dev) (i : Nat) : Nat := d.fld F.SVC_ARG_ARG i

/-- QP_CREATE (R523, R524). A queue pair that is already READY or in ERROR keeps its state: its LOCAL_QPN is in use. -/
def qpCreate : Act := fun d =>
  let q := d.svcArg 0 % 65536
  let (base, size) := d.qpTable
  let e := qpEnt (memRead d.hbm (base + 96 * q) 96)
  let res := if size ≤ 96 * q || (d.qp q).st ≠ .reset then 0x12 else d.qpCheck q e
  inSequence [
    fun d => if res = 0 then [onQp q fun _ => { QpSt.init with
        ent := some e, st := .ready, sqPsn := e.sqPsn, rqPsn := e.rqPsn, rate := fullRate, progressAt := d.now, rateAt := d.now }]
      else [],
    onlyIf (res = 0) (resolvePeer e),
    fun _ => svcResult res ] d

/-- QP_DESTROY (R524, R535): the queue pair returns to RESET; its requests complete CANCELLED at the next commit point through its state. -/
def qpDestroy : Act := fun d =>
  let q := d.svcArg 0 % 65536
  if (d.qp q).st = .reset then svcResult 0x12
  else inSequence [
    fun _ => [onQp q fun s => { QpSt.init with ent := s.ent }, .svc fun s => { s with
      held := s.held.filter fun h => h.2.1 ≠ q,
      reqs := s.reqs.map fun r => if r.qp = q then { r with cancelled := some (r.cancelled.getD 0) } else r }],
    fun _ => svcResult 0 ] d

/-! ### Jobs (R538) -/

/-- Read the shards of a manifest. -/
def shardsOf (b : List Byte) (n : Nat) : List Shard :=
  (List.range n).map fun j =>
    let f := fun (off len : Nat) => leNat ((b.drop (64 + 32 * j + off)).take len)
    { qp := f 0 2, rkey := f 4 4, addr := f 8 8, bytes := f 16 8, examples := f 24 4 }

/-- A reserved value in a manifest (R538). -/
def manifestReserved (b : List Byte) (n : Nat) : Bool :=
  let f := fun (off len : Nat) => leNat ((b.drop off).take len)
  f 4 2 / 4096 ≠ 0 || f 15 1 ≠ 0 || f 56 8 ≠ 0 || 64 < n ||
    (List.range n).any fun j => f (64 + 32 * j + 2) 2 ≠ 0 || f (64 + 32 * j + 28) 4 ≠ 0

/-- The job that a manifest describes. -/
def jobOf (b : List Byte) : JobSt :=
  let f := fun (off len : Nat) => leNat ((b.drop off).take len)
  { handle := f 0 4, pkey := BitVec.ofNat 12 (f 4 2), reportQp := f 6 2, adapter := f 8 4, genOut := f 12 2, steps := f 16 4,
    seqLen := f 20 4, seqCount := f 24 4, shards := shardsOf b (f 14 1), offsets := [], epoch := 0, next := 0, done := 0,
    ready := [], packing := .empty, pulling := false, ended := none }

/-- Whether a queue pair is of a role. -/
def Dev.hasQpRole (d : Dev) (q role : Nat) : Bool := (d.qp q).ent.any fun e => e.role = role

/-- Whether a generation of an adapter would be written over a buffer to which a request is pinned (R544). -/
def Dev.pinned (d : Dev) (adapter gen : Nat) : Bool :=
  d.svc.reqs.any fun r => (reqRec r.body).adapter = adapter && r.adapterGen = gen

/-- The result of JOB_START (R538, R544). -/
def Dev.jobCheck (d : Dev) (b : List Byte) (j : JobSt) : Nat :=
  let pend := d.svc.atCommit.filterMap fun c => match c.2 with | .jobStart x => some x | _ => none
  let running := d.svc.jobs ++ pend
  let ofSlice := running.filter fun x => x.pkey = j.pkey
  let n := j.shards.length
  if n = 0 || j.seqLen = 0 || j.seqCount = 0 || j.shards.any fun s => s.bytes = 0 || s.examples = 0 then 0x11
  else match d.sliceOf j.pkey, d.block j.pkey with
    | some i, some k =>
      if manifestReserved b n || !d.hasQpRole j.reportQp 1 || (j.shards.any fun s => !d.hasQpRole s.qp 2) ||
          j.handle / 1073741824 ≠ 2 || j.handle % 1073741824 = 0 ||
          (running.any fun x => x.handle = j.handle || x.adapter = j.adapter) || d.serving j.pkey ||
          k.slots ≤ ofSlice.length || k.prefill < j.seqLen ||
          k.tokens < j.seqCount * j.seqLen + (ofSlice.map fun x => x.seqCount * x.seqLen).sum then 0x12
      else if !d.takesItems i || (d.slice i).frozen then d.turnedAway j.pkey
      else if (d.adapter j.adapter).any fun a => d.pinned j.adapter (otherBuf a).gen then 0x30
      else 0
    | _, _ => 0x12

/-- A command that acts at the commit point that the home chooses: the next one of the slice (R550). -/
def atNextCommit (i : Nat) (c : SvcCmd) : Upd := .svc fun s => { s with atCommit := s.atCommit ++ [(i, c)] }

/-- JOB_START (R538). -/
def jobStart : Act := fun d =>
  let b := memRead d.hbm (d.svcRegion.1 + 4096 * (d.svcArg 0 % 4294967296)) 2112
  let j := jobOf b
  let res := d.jobCheck b j
  (if res = 0 then [atNextCommit ((d.sliceOf j.pkey).getD 0) (.jobStart j)] else []) ++ svcResult res

/-- JOB_STOP (R541): a job that does not run gives FAILED_INPUT. -/
def jobStop : Act := fun d =>
  let h := d.svcArg 0 % 4294967296
  match d.svc.jobs.find? fun j => j.handle = h with
  | some j => [atNextCommit ((d.sliceOf j.pkey).getD 0) (.jobStop h)] ++ svcResult 0
  | none => svcResult 0x10

/-! ### Exports (R542) -/

/-- EXPORT (R542): the buffer of the generation goes to the area in RDMA WRITEs of up to 1 MiB, in address order. An empty one is DONE at
once (R23). -/
def exportStart : Act := fun d =>
  let q := d.svcArg 0 % 65536
  let gen := d.svcArg 0 / 281474976710656 % 65536
  let off := d.svcArg 1
  let buf := (d.adapter (d.svcArg 0 / 65536 % 4294967296)).bind fun a =>
    if a.buf0.gen = gen then some a.buf0 else if a.buf1.gen = gen then some a.buf1 else none
  match (d.qp q).ent, buf with
  | some e, some b =>
    if e.role ≠ 3 || (d.qp q).st ≠ .ready || e.ringEntries * 1048576 < off + b.bytes then svcResult 0x10
    else if !((d.sliceOf e.pkey).any fun i => d.takesItems i && !(d.slice i).frozen) then svcResult (d.turnedAway e.pkey)
    else
      let h := 3221225472 + (d.fld F.SVC_CMD_STATUS_SEQ + 1) % 1073741824
      let word := ((d.sliceOf e.pkey).map fun i => (d.slice i).committedWord).getD 0
      inSequence [
        fun _ => [.commit fun c => { c with items := c.items ++ [⟨h, 4, e.pkey, none, 0, 0, 0, 0, none⟩] },
          .svc fun s => { s with exports := s.exports ++ [⟨h, q, b.bytes, 0, e.pkey⟩] }],
        forEach (fun p => rocePost q (fun psn => .write psn (e.ringAddr + off + p.1) e.ringRkey none p.2) none (some h))
          (pieces 1048576 (d.readHbm b.addr b.bytes).1),
        onlyIf (b.bytes = 0) (inSequence [
          fun _ => [.svc fun s => { s with exports := s.exports.filter fun x => x.handle ≠ h }],
          releaseRecord h e.pkey 0 word ]),
        fun _ => svcResult 0 ] d
  | some _, none => svcResult 0x30
  | none, _ => svcResult 0x10

/-! ### Generations (R544, R545) -/

/-- The slice that a generation command acts on: the one that a member here serves. ADAPTER_GEN names no slice; adapters are shared by
all of them (R543), and the command waits for a commit point of the first slice with a role here. -/
def Dev.ownSlice (d : Dev) : Option Nat := (d.slices.find? fun e => d.memberHere e.2 && !(d.activeRings e.2.pkey).isEmpty).map Prod.fst

/-- ADAPTER_GEN (R544).
(DEDUCED, log 136) -/
def adapterGen : Act := fun d =>
  let a := d.svcArg 0 % 4294967296
  let g := d.svcArg 0 / 4294967296 % 65536
  match d.adapter a, d.ownSlice with
  | some x, some i => if (otherBuf x).gen = g then [atNextCommit i (.adapterGen a g)] ++ svcResult 0 else svcResult 0x30
  | some _, none => svcResult 0x60
  | none, _ => svcResult 0x30

/-- Whether an armed context of a base generation is loaded here (R43, R545, R592). -/
def Dev.armedLoaded (d : Dev) (pkey : BitVec 12) (g : Nat) : Bool :=
  [0, 1, 2, 3].any fun k =>
    d.fld F.RING_STATUS_STATE k = 1 && d.fld F.RING_CTL_PKEY k = pkey.toNat && d.fld F.RING_CTL_BASE_GEN k = g &&
      d.fld F.LOAD_STATUS_CTX_LOADED / 2 ^ k % 2 = 1

/-- Whether the vault slots that the chosen variant names this module as reader for hold a generation (R545). -/
def Dev.readerHolds (d : Dev) (g : Nat) : Bool :=
  let rs := ((d.start.image.bind fun im => d.start.variant.bind fun v => im.variants[v]?).map fun v => v.readers).getD []
  rs.all fun r => r.coord ≠ d.here || r.baseGen.toNat ≠ g ||
    (d.bit F.VAULT_SLOT_PRESENT (if r.slotB then 1 else 0) && d.fld F.VAULT_SLOT_GEN (if r.slotB then 1 else 0) = g)

/-- BASE_SWITCH (R545): checked at this member; the home carries it through from the next commit point.
(DEDUCED, log 137) -/
def baseSwitch : Act := fun d =>
  let g := d.svcArg 0 % 65536
  match d.ownSlice with
  | none => svcResult 0x60
  | some i =>
    if !d.armedLoaded (d.slice i).pkey g || !d.readerHolds g || (d.baseGen i).draining then svcResult 0x12
    else if !d.takesItems i then svcResult 0x60
    else [atNextCommit i (.baseSwitch g)] ++ svcResult 0

/-! ### The rows -/

/-- Run a service command by its opcode (R550). -/
def svcCommand (opcode : Nat) : Act :=
  match opcode with
  | 1 => qpCreate
  | 2 => qpDestroy
  | 3 => jobStart
  | 4 => jobStop
  | 5 => exportStart
  | 6 => adapterGen
  | 7 => baseSwitch
  | _ => noAct

/-- A write of SVC_CMD (R550): refused while BUSY is set, or for a reserved opcode.
(DEDUCED, log 135) -/
def writeSvcCmd (val : Nat) (d : Dev) : Answer × Act :=
  let op := val % 256
  if d.bit F.SVC_CMD_STATUS_BUSY then refuse 5
  else if op = 0 || 7 < op then refuse 6
  else (answerOk, svcCommand op)

def qpCreateAct (r : Req) : Act := serve r (waking (writeSvcCmd 1))
def qpDestroyAct (r : Req) : Act := serve r (waking (writeSvcCmd 2))
def jobStartAct (r : Req) : Act := serve r (waking (writeSvcCmd 3))
def jobStopAct (r : Req) : Act := serve r (waking (writeSvcCmd 4))
def exportAct (r : Req) : Act := serve r (waking (writeSvcCmd 5))
def adapterGenAct (r : Req) : Act := serve r (waking (writeSvcCmd 6))
def baseSwitchAct (r : Req) : Act := serve r (waking (writeSvcCmd 7))

/-! ### Take-over (R517, R546) -/

/-- Read an interface table entry of 32 bytes (R517). -/
def ifaceOf (b : BitVec 256) : Iface :=
  { mac := BitVec.ofNat 48 (bitsOf b 47 0), vlan := BitVec.ofNat 16 (bitsOf b 63 48), ipv4 := BitVec.ofNat 32 (bitsOf b 95 64),
    ipv6 := BitVec.ofNat 128 (bitsOf b 223 96), prefix6 := bitsOf b 231 224 }

/-- The interface table of a coordinate in the image's IFACE section of a variant: eight entries for each coordinate, in the order x,
then y, then z (R517). -/
def Dev.ifaceTable (d : Dev) (v : Nat) (c : Coord) : List Iface :=
  match d.start.image.bind fun im => im.ifaces[v]? with
  | none => []
  | some es =>
    let n := (d.allCoords.findIdx? fun x => x = c).getD 0
    ((es.drop (8 * n)).take 8).map ifaceOf

/-- Announce the addresses of every interface: a gratuitous ARP and an unsolicited advertisement for each (R546). -/
def announce : Act := fun d =>
  forEach (fun i => fun d => match d.iface i with
    | none => []
    | some e => inSequence [
        onlyIf (e.ipv4 ≠ 0) (ethSend i (.arp ⟨true, e.mac, e.ipv4, e.ipv4⟩)),
        onlyIf (e.ipv6 ≠ 0) (ethSend i (.nd ⟨true, e.ipv6, e.ipv6, e.mac⟩)) ] d) (List.range 8) d

/-- The queue pairs of a slice resume at a spare (R546): messages not acknowledged go out again, the first packet received sets the PSN
expected, and each client ring gets a RESYNC entry. -/
def resumeQps (i : Nat) : Act := fun d =>
  let qs := d.clientQps (d.slice i).pkey
  inSequence [
    announce,
    forEach (fun q => inSequence [
      fun _ => [onQp q.1 fun s => { s with awaitFirst := true }],
      resendAll q.1,
      fun d => queueEntry q.1 4 (leBytes 8 (d.qp q.1).head ++ leBytes 8 (d.slice i).committedWord ++ leBytes 40 0) d ]) qs ] d

end Sys2Proof.Machine
end

