-- ==== Sys2Proof/Machine/Recovery.lean ====
section
/-! DEFINITION. Recovery (11): resolution, rollback, the restart of ring contexts, relaunch, the bound, loss of state, and SAFE_CTL (R40, R281,
R454, R458–R475, R480). -/

namespace Sys2Proof.Machine

/-! ### Resolution (R465, R466) -/

/-- The modules that a rollback concerns: the members of the slice, and their buddies, which hold staged writes of it.
(DEDUCED, log 97) -/
def Dev.rollbackTargets (d : Dev) (e : SliceDesc) : List Coord :=
  ((d.members e) ++ (d.members e).filterMap d.buddyOf).dedup

/-- A step number of a decision as an integer, −1 for none. -/
def stepInt (t : Option Nat) : Int := match t with | some n => n | none => -1

/-- The target step, once the resolver holds the decision report and the report of one member (R466). -/
def Dev.targetOf (d : Dev) (i : Nat) : Option Int :=
  let h := (d.slice i).home
  let decision : Option Int := if d.homeHere i then some (stepInt h.decided) else h.logged.map stepInt
  match decision, h.reports with
  | some x, r :: rs => some ((r :: rs).foldl (fun m r => max m r.2.1) x)
  | _, _ => none

/-- Whether this module resolves a slice (R465). -/
def Dev.resolverHere (d : Dev) (i : Nat) : Bool := (d.slice i).desc.any fun e => d.resolver e = d.here

/-- Set the target and send ROLLBACK, once per recovery (R466). -/
def tryResolve (i : Nat) : Act := fun d =>
  let s := d.slice i
  match s.desc, d.targetOf i with
  | some e, some t =>
    if !d.resolverHere i || !s.fenced || s.home.target.isSome then [] else
      [.slice i fun s => { s with home := { s.home with target := some t } }] ++
        (d.rollbackTargets e).map fun c => .send (.mgmt c (.rollback s.pkey t))
  | _, _ => []

/-- RESOLUTION_REPORT_RECEIVE (R465, R466). -/
def resolutionReportReceiveAct (i : Nat) (src : Coord) (rep : ResReport) : Act := fun d =>
  if !d.resolverHere i then [] else
    inSequence [
      fun _ => match rep with
        | .member c r => [.slice i fun s => { s with home := { s.home with
            reports := (s.home.reports.filter fun x => x.1 ≠ src) ++ [(src, c, r)] } }]
        | .mirror _ dec => [.slice i fun s => { s with home := { s.home with logged := some dec } }],
      tryResolve i ] d

/-! ### Restarting ring contexts (R40, R281, R471) -/

/-- The year that follows the committed steps of a slice on a context: base year and years per step (R302, R445). -/
def Dev.restartYear (d : Dev) (k i : Nat) : Nat :=
  let s := d.slice i
  (s.baseYear.getD (d.plan k).first + s.nextStep * stepYears (d.fld F.RING_CTL_MODE k)) % yearMod

/-- The last day of a direction before a year of the context, if any. -/
def RPlan.lastBefore (p : RPlan) (dir : Dir) (year : Nat) : Option (Nat × Nat) :=
  let back := fun (n : Nat) =>
    let y := (year + yearMod - n) % yearMod
    if n ≤ yearsFrom p.first year && p.days dir y ≠ 0 then some (y, p.days dir y - 1) else none
  (back 1).or (back 2)

/-- Put a direction of a context at the end of the committed steps (R40): its angle, and live again while years remain. -/
def restartDir (k i : Nat) (dir : Dir) : Act := fun d =>
  let p := d.plan k
  let year := d.restartYear k i
  let over_ : Bool := !p.hasDays dir || p.pastEnd (p.firstDay dir year).1
  (match p.lastBefore dir year with
   | some (y, dd) => [setF (angleYear dir) k y, setF (angleDay dir) k dd, setF (angleValid dir) k 1]
   | none => [setF (angleValid dir) k 0]) ++
  [.ring k (onDir dir fun _ => { RingDir.init with live := !over_, ended := over_ && p.hasDays dir })]

/-- Put a context's bank back into the cores of its schedule that have left it; a core's later binding is armed again. -/
def rebindCores (k : Nat) : Act := fun d =>
  match (d.ring k).sched with
  | none => []
  | some j =>
    match d.schedLib[j]? with
    | none => []
    | some s =>
      ((takersOf s).filter fun e => !((d.core e.1).live.any fun b => b.ring = k)).flatMap fun e =>
        Upd.core e.1 (fun cs => freshCore ⟨k, j, true⟩ cs.opCount (cs.live.or cs.armed)) :: loadTables e.1 e.2

/-- Restart one context of a slice at the committed angle (R40, R471): one whose years all lie ahead is armed again; one whose years are
all committed, or that ended where the slice stands, stays stopped; any other is live.
(DEDUCED, log 99) -/
def restartRing (i k : Nat) : Act := fun d =>
  let p := d.plan k
  let st := d.fld F.RING_STATUS_STATE k
  let year := d.restartYear k i
  let off := yearsFrom p.first year
  let stands : Bool := st = 3 && ((p.count ≠ 4294967295 && p.count ≤ off) || (d.nextDay k .cw).1 = year || (d.nextDay k .ccw).1 = year)
  if (d.ring k).sched.isNone || st = 0 || (st = 1 && off = 0) || stands then []
  else if 2147483648 < off then
    [setF F.RING_STATUS_STATE k 1, setF F.RING_CTL_LIVE k 0, setF F.RING_CTL_ARM k 1, setF F.RING_STATUS_VALID_CW k 0,
     setF F.RING_STATUS_VALID_CCW k 0, setF F.RING_STATUS_YEARS_DONE k 0,
     .ring k fun r => { r with cw := .init, ccw := .init, bwdExts := [], grads := [], kept := [] }]
  else
    inSequence [
      restartDir k i .cw,
      restartDir k i .ccw,
      fun d =>
        let r := d.ring k
        let live : Bool := r.cw.live || r.ccw.live
        [setF F.RING_STATUS_STATE k (if live then 2 else 3), setB F.RING_CTL_LIVE k live, setF F.RING_CTL_ARM k 0,
         .ring k (fun r => { r with launched := true, bwdExts := [], grads := [], shadowBytes := 0 }),
         setF F.RING_STATUS_YEARS_DONE k (d.yearsDone k)],
      rebindCores k ] d

/-- Restart every context of a slice. -/
def restartRings (i : Nat) : Act := fun d =>
  let pkey := (d.slice i).pkey
  forEach (restartRing i) ([0, 1, 2, 3].filter fun k => d.fld F.RING_CTL_PKEY k = pkey.toNat) d

/-! ### Rollback (R466, R472) -/

/-- Copy back the undo log of the steps above the target, newest step first (R446, R466). -/
def restoreUndo (i : Nat) (target : Int) : Act := fun d =>
  let mine := fun (u : UndoPage) => u.slice = i && target < (u.step : Int)
  let pages := sortBy (fun (a b : UndoPage) => decide (b.step < a.step)) (d.commit.undo.filter mine)
  pages.map (fun u => Upd.hbm (u.page * 16384) (memRead u.cells (u.page * 16384) 16384)) ++
    [.commit fun c => { c with
      undo := c.undo.filter fun u => !mine u
      recStaged := c.recStaged.filter fun r => !(r.slice = i && target < (r.step : Int)) }]

/-- Put the current core state records of a slice into its cores (R448, R466): parameters, resident set and scratchpad sync words, zero
for a slice with no committed step. -/
def restoreCores (i : Nat) : Act := fun d =>
  let pkey := (d.slice i).pkey
  (d.coresOf pkey).flatMap fun e =>
    match d.liveProg e.1 with
    | none => []
    | some p =>
      let (params, set) := d.startParams e.1 i p
      let words := ((d.currentRec e.1 i).map fun r => r.sync).getD []
      let ids := (((d.syncTable pkey).map fun t => t.entries).getD []).filter fun x =>
        syncType x.2 ≠ 0 && syncPlace x.2 = 0 && syncCore x.2 = e.1
      [Upd.core e.1 fun cs => { loadSet set params cs with
        ctxs := mapAll (fun _ => ThreadCtx.init) (fun _ x => { x with barrier := none }) (loadSet set params cs).ctxs, lastCommit := none }] ++
      ids.map fun x => Upd.spm e.1 (syncAddr x.2 * 8) (leBytes 8 (mapGet (fun _ => 0) words x.1).toNat)

/-- Items of a slice that its steps serve (R2, R457). -/
def Dev.stepItems (d : Dev) (i : Nat) : List Item :=
  d.commit.items.filter fun it => it.pkey = (d.slice i).pkey && (it.typ = 1 || it.typ = 2)

/-- The items of the step that is rolled back complete with a status decided by recovery (R449, R472, R477). -/
def failStepItems (i status : Nat) : Act := fun d =>
  let s := d.slice i
  let items := (d.stepItems i).filter fun it => it.step.all fun t => t ≤ s.nextStep
  inSequence [
    onlyIf (!items.isEmpty) (fun _ => flagDet F.DET_STATUS_FAILED),
    forEach (fun it => releaseRecord it.handle s.pkey status s.committedWord) items,
    fun _ => [.svc fun v => { v with jobs := v.jobs.filter fun j => !(items.any fun it => it.handle = j.handle) }] ] d

/-- The buddy's part of a rollback (R466): staged writes of steps up to the target are applied, the rest discarded. -/
def rollbackStaged (pkey : BitVec 12) (target : Int) : Act :=
  inSequence [
    onlyIf (0 ≤ target) (applyStaged pkey target.toNat),
    fun _ => [.commit fun c => { c with staged := c.staged.filter fun w => w.pkey ≠ pkey }] ]

/-- The rollback of a member (R466, R472): the steps above the target are undone, the rollback is counted for the first of them and for
its items, and a step that has been rolled back REPLAY_MAX times, or whose log overflowed, completes its items without a replay. -/
def rollback (i : Nat) (target : Int) : Act := fun d =>
  let pkey := (d.slice i).pkey
  inSequence [
    onlyIf ((d.slice i).committedInt < target) (commitPoint i target.toNat),
    restoreUndo i target,
    fun d => [.digests fun l => l.filter fun a => !(a.pkey = pkey && target < (a.step : Int)),
      .slice i fun s => { s with steps := s.steps.filter fun e => (e.step : Int) ≤ target
                                 home := { s.home with deciding := none, ready := s.home.ready.filter fun r => (r.2 : Int) ≤ target } },
      .commit fun c => { c with items := c.items.map fun it =>
        if it.pkey = pkey && (it.typ = 1 || it.typ = 2) then
          { it with replays := it.replays + 1, cls := (d.slice i).fenceCls } else it }] ,
    serviceRollback i target,
    restartRings i,
    restoreCores i,
    fun d =>
      let s := d.slice i
      let r := s.repeats.at s.nextStep
      [.slice i fun s => { s with repeats := { r with rollbacks := r.rollbacks + 1 }, rollbacks := s.rollbacks + 1 },
       satF F.RECOV_LAST_REPLAYS i 1],
    fun d =>
      let s := d.slice i
      if s.noReplay.contains s.nextStep then
        inSequence [failStepItems i 0x12, fun _ => [.slice i fun s => { s with noReplay := [], repeats := .init }]] d
      else if d.fld F.RECOV_CFG_REPLAY_MAX ≤ s.repeats.rollbacks then
        inSequence [fun _ => flagRecov F.RECOV_ERR_REPLAY_MAX, failStepItems i 0x21,
          fun _ => [.slice i fun s => { s with repeats := .init }]] d
      else [],
    fun d => let s := d.slice i
      [.slice i fun s' => { s' with rstate := if s.failed then 6 else if s.halted then 5 else 2 }] ] d

/-! ### Leaving WAIT (R467, R468, R471) -/

/-- Whether every X link of the rings of a slice, and every member, is alive in the current epoch (R468). -/
def Dev.ringsWhole (d : Dev) (e : SliceDesc) : Bool :=
  let m := match d.table d.epoch with
    | some v => v.map
    | none => d.route.fmap
  let crosses := fun (c : Coord) => d.isMember e c || d.isTransitOn e c 0
  (d.allCoords.all fun c => !(crosses c && crosses (d.stepOn c 0 true)) || c = d.stepOn c 0 true || !d.linkDead m c 0) &&
    (d.members e).all fun c => !m.dead.contains c

/-- The resolver sets the relaunch count, 1 ms ahead, and sends it to every member and transit module (R471). A slice fenced for a link or
module fault waits for a flip; a halted one for RESUME.
(DEDUCED, log 98) -/
def tryRelaunch (i : Nat) : Act := fun d =>
  let s := d.slice i
  match s.desc with
  | none => []
  | some e =>
    let flipped : Bool := !(s.fenceCls = 2 || s.fenceCls = 3) || d.fld F.ROUTE_EPOCH_FLIPS ≠ s.flipsAt
    if !d.resolverHere i || !s.fenced || !(s.rstate = 2 || s.rstate = 3) || s.halted || s.failed || s.relaunchAt.isSome ||
        !flipped || !d.ringsWhole e || !(s.replaced.all fun c => s.home.restored.contains c) then []
    else
      let at_ := d.gcnt + 1000000
      let to_ := d.allCoords.filter fun c => !d.isDead c && (d.isMember e c || d.isTransit e c)
      [.slice i fun s => { s with rstate := 4, relaunchAt := some at_.toNat }] ++
        (to_.filter fun c => c ≠ d.here).map fun c => .send (.mgmt c (.relaunchCount s.pkey at_))

/-- ROLLBACK_RECEIVE (R466): at a member that is fenced and not yet rolled back; the buddy of a member resolves its staged writes. -/
def rollbackReceiveAct (i : Nat) (target : Int) : Act := fun d =>
  let s := d.slice i
  inSequence [
    onlyIf (d.wardOf d.here).isSome (rollbackStaged s.pkey target),
    onlyIf (d.memberHere s && s.fenced && s.rstate = 1) (inSequence [rollback i target, tryRelaunch i]) ] d

/-- RESTORE_REPORT_RECEIVE (R470, R471). -/
def restoreReportReceiveAct (i : Nat) (src : Coord) : Act := fun d =>
  if !d.resolverHere i then [] else
    inSequence [
      fun _ => [.slice i fun s => { s with home := { s.home with
        restored := if s.home.restored.contains src then s.home.restored else s.home.restored ++ [src] } }],
      tryRelaunch i ] d

/-- RELAUNCH_COUNT_RECEIVE (R471): HALTED and FAILED are not left by it (R467). -/
def relaunchCountReceiveAct (i : Nat) (at_ : BitVec 64) : Act := fun d =>
  let s := d.slice i
  if !s.fenced || s.failed || s.halted || !(d.memberHere s || d.transitHere s) then []
  else [.slice i fun s => { s with rstate := 4, relaunchAt := some at_.toNat }]

/-! ### Relaunch (R471) -/

/-- The catch-up of a ring after a take-over (R471, R475): a spare without its share catches up in the year that begins, while its X+
neighbour stands in; with two neighbours replaced the reader has delivered both shares, and nobody stands in. -/
def startCatchUp (i k : Nat) : Act := fun d =>
  let p := d.plan k
  let year := d.restartYear k i
  let gone := fun (pos : Nat) => (d.slice i).replaced.contains (d.ringModule k pos)
  if p.len ≤ 1 then []
  else if !(d.ring k).shareOk then
    [.ring k fun r => if gone p.nextPos || gone p.prevPos then { r with shareOk := true, catchUp := none } else { r with catchUp := some year }]
  else if gone p.prevPos && !gone p.pos && !gone ((p.prevPos + p.len - 1) % p.len) then [.ring k fun r => { r with proxy := some p.prevPos, catchUp := some year }]
  else []

/-- Whether some slice of this module is still fenced. -/
def Dev.anyFenced (d : Dev) : Bool := d.slices.any fun e => e.2.fenced

/-- RECOVERING ends when no slice is fenced (R462). -/
def leaveRecovering : Act := fun d =>
  if d.mode = stRecovering && !d.anyFenced then enterState (if d.allIdle then stReady else stRunning) d else []

/-- Lift the fence of a slice at its ports (R378, R471). -/
def liftFence (pkey : BitVec 12) : Act := fun d =>
  let others := (d.slices.filter fun e => e.2.fenced && e.2.pkey ≠ pkey).length
  [0, 1, 2, 3, 4, 5].flatMap fun p =>
    let left := (d.port p).rxFence.filter fun k => k ≠ pkey
    [Upd.port p fun s => { s with rxFence := s.rxFence.filter fun k => k ≠ pkey }] ++
      (if left.isEmpty && !(d.port p).rxDevice then [setF F.LINK_STATUS_FENCE_RX p 0] else []) ++
      (if others = 0 && d.mode ≠ stSafe then [setF F.LINK_STATUS_FENCE_TX p 0] else [])

/-- RELAUNCH (R471): the count of the slice has come. -/
def relaunchAct (i : Nat) : Act := fun d =>
  let s := d.slice i
  if !s.fenced || !(s.relaunchAt.any fun t => t ≤ d.now) || s.halted || s.failed || d.mode = stSafe then [] else
    let ms := (d.now - s.fenceAt) / 1000000
    let ks := [0, 1, 2, 3].filter fun k => d.fld F.RING_CTL_PKEY k = s.pkey.toNat
    inSequence [
      liftFence s.pkey,
      forEach (startCatchUp i) ks,
      restartRings i,
      fun _ => [.slice i (fun s => { s with
          fenced := false, rstate := 0, relaunchAt := none, frozen := false, draining := false, drained := false
          replaced := [], home := { s.home with reports := [], logged := none, restored := [], target := none } }),
        setF F.RECOV_LAST_DURATION i (min 65535 ms)],
      leaveRecovering,
      fun _ => [.pump] ] d

/-! ### The bound (R473) -/

/-- RECOVERY_BOUND_EXPIRE (R473): the admitted items of a slice not back within BOUND ms complete; recovery goes on. -/
def recoveryBoundExpireAct (i : Nat) : Act := fun d =>
  let s := d.slice i
  if !s.fenced || s.boundDone || d.now < s.fenceAt + d.fld F.RECOV_CFG_BOUND * 1000000 then [] else
    inSequence [
      fun _ => flagRecov F.RECOV_ERR_BOUND ++ [.slice i fun s => { s with boundDone := true }],
      failAllItems i 0x20 ] d

/-! ### Loss of committed state (R474, R475) -/

/-- A slice whose committed state is lost (R464, R474). -/
def loseSlice (i : Nat) : Act := fun d =>
  if (d.slice i).failed || (d.slice i).desc.isNone then [] else
    inSequence [
      fun _ => flagRecov F.RECOV_ERR_STATE_LOST,
      fenceSlice i 3,
      failAllItems i 0x21,
      fun _ => [.slice i fun s => { s with failed := true, rstate := 6 }] ] d

/-- Whether the committed state of a dead module is lost: its buddy is dead too, or is this module and still rebuilds the mirror. -/
def Dev.stateLost (d : Dev) (c : Coord) : Bool :=
  d.isDead c && match d.buddyOf c with
    | some b => d.isDead b || (b = d.here && d.bit F.BUDDY_STATUS_REBUILDING)
    | none => true

/-- Slices lost with the modules that the fault map names dead; a surviving module of a lost pair enters the safe state (R474). -/
def checkLost : Act := fun d =>
  let lost := d.slices.filter fun e => e.2.desc.any fun s => (d.members s).any d.stateLost
  let pair : Bool := (d.wardOf d.here).any fun w => d.isDead w && d.stateLost w
  inSequence [
    forEach (fun (e : Nat × SliceSt) => loseSlice e.1) lost,
    onlyIf (pair && !lost.isEmpty) (enterSafe 8 3) ] d

/-! ### Requests for the safe state and its end (R458, R463, R464, R480) -/

/-- SAFE_REQUEST_RECEIVE (R458). -/
def safeRequestReceiveAct : Act := enterSafe 9 3

/-- RELINQUISH_RECEIVE (R469): the module's role has passed to a spare; it sends nothing more on Ethernet but link-level frames. -/
def relinquishReceiveAct : Act := fun _ =>
  [.svc fun s => { s with silenced := true, held := [] }, setF F.SAFE_STATUS_RELINQUISHED 0 1]

/-- TO_MAINT (R464, R480). -/
def toMaint (d : Dev) : Answer × Act :=
  if d.mode ≠ stSafe then refuse 5
  else (answerOk, inSequence [enterState stMaint, driveFault false])

/-- The slice that COMMIT_SEL of a path names (R483). -/
def Dev.commitSel (d : Dev) (path : Path) : Nat := d.fld F.COMMIT_SEL_INDEX path.copy

/-- RESUME (R464): out of SAFE, every slice becomes HALTED and the module recovers; otherwise the halted slice selected relaunches. -/
def resume (path : Path) (d : Dev) : Answer × Act :=
  if d.mode = stSafe then
    if [1, 5, 6].contains (d.fld F.SAFE_STATUS_CAUSE) then
      (answerOk, inSequence [
        fun d => (d.slices.filter fun e => d.memberHere e.2).map fun e => .slice e.1 fun s =>
          { s with halted := !s.failed, rstate := if s.rstate = 1 || s.failed then s.rstate else 5, relaunchAt := none },
        enterState stRecovering,
        driveFault false ])
    else refuse 5
  else
    let i := d.commitSel path
    if (d.slice i).rstate = 5 then
      (answerOk, inSequence [fun _ => [.slice i fun s => { s with halted := false, rstate := 2 }], tryRelaunch i])
    else refuse 5

/-- REQ_SLICE (R464, R480). -/
def reqSlice (path : Path) (d : Dev) : Answer × Act :=
  let i := d.commitSel path
  (answerOk, onlyIf (d.memberHere (d.slice i) && !(d.slice i).failed) (inSequence [
    haltSlice i 5,
    fun _ => [.slice i fun s => { s with rstate := if s.rstate = 1 then 1 else 5, relaunchAt := none }] ]))

/-- REQ_DEVICE (R463, R480). -/
def reqDevice : Answer × Act := (answerOk, enterSafe 1 5)

/-- A write of SAFE_CTL (R480): each bit set acts, REQ_DEVICE first. A bit that its state refuses refuses the write.
(DEDUCED, log 101) -/
def writeSafeCtl (path : Path) (val : BitVec 64) (d : Dev) : Answer × Act :=
  let acts := (if bitOf val 3 then [toMaint d] else []) ++ (if bitOf val 2 then [resume path d] else []) ++
    (if bitOf val 1 then [reqSlice path d] else []) ++ (if bitOf val 0 then [reqDevice] else [])
  match acts.find? fun a => a.1 ≠ answerOk with
  | some a => a
  | none => (answerOk, inSequence (acts.reverse.map Prod.snd))

end Sys2Proof.Machine
end

