-- ==== Sys2Proof/Machine/Route.lean ====
section
/-! DEFINITION. The coordinator and routing epochs (R413–R419), the slice map (R424–R427), heartbeats and silence (R459), and the part of a
take-over that the other modules play (R468–R470). -/

namespace Sys2Proof.Machine

/-! ### The fault map (R413, R459, R460) -/

/-- The coordinator under a fault map: the first live module in the order of the walk (R335, R415). -/
def Dev.coordIn (d : Dev) (m : FaultMap) : Coord := (d.allCoords.find? fun c => !m.dead.contains c).getD 0

/-- Whether this module's controller is the coordinator under the map it keeps. -/
def Dev.isCoord (d : Dev) : Bool := d.bit F.DEV_COORD_VALID && d.coordIn d.route.coord.map = d.here

/-- Live modules of a fault map. -/
def Dev.liveIn' (d : Dev) (m : FaultMap) : List Coord := d.allCoords.filter fun c => !m.dead.contains c

/-- The other end of a link. -/
def Dev.farEnd (d : Dev) (c : Coord) (p : Nat) : Coord := d.stepOn c (portAxis p) (portPlus p)

/-- Add a dead link. -/
def Dev.addDeadLink (d : Dev) (c : Coord) (p : Fin 6) (m : FaultMap) : FaultMap :=
  if m.links.any fun e => (e.1 = c && e.2.val = p.val) || (e.1 = d.farEnd c p.val && e.2.val = oppositePort p.val) then m
  else { m with links := m.links ++ [(c, p)] }

/-- Remove a link, named at either end. -/
def Dev.dropDeadLink (d : Dev) (c : Coord) (p : Nat) (m : FaultMap) : FaultMap :=
  { m with links := m.links.filter fun e =>
      !((e.1 = c && e.2.val = p) || (e.1 = d.farEnd c p && e.2.val = oppositePort p)) }

/-- Add a dead module.
(DEDUCED, log 120) -/
def addDead (c : Coord) (m : FaultMap) : FaultMap := if m.dead.contains c then m else { m with dead := m.dead ++ [c] }

/-- Whether every link of a coordinate is dead in a map. -/
def Dev.cutOff (d : Dev) (m : FaultMap) (c : Coord) : Bool :=
  [0, 1, 2, 3, 4, 5].all fun p => d.axis (portAxis p) ≤ 1 ||
    m.links.any fun e => (e.1 = c && e.2.val = p) || (e.1 = d.farEnd c p && e.2.val = oppositePort p)

/-- A fault map with a report applied (R459, R460): a dead link, a link that is UP again, a module silent or faulty, or a module every
link of which is now dead. -/
def Dev.withReport (d : Dev) (m : FaultMap) (r : FaultReport) : FaultMap :=
  match r.cls, r.port with
  | 0, some p => d.dropDeadLink r.coord p.val m
  | 2, some p =>
    let m := d.addDeadLink r.coord p m
    let far := d.farEnd r.coord p.val
    if d.cutOff m far then addDead far m else m
  | 3, _ => addDead r.coord m
  | _, _ => m

/-- The machine's consecutive z values per block, of the plan variant in force (R399, R575). -/
def Dev.zpb (d : Dev) : Nat :=
  match (d.start.image.bind fun im => d.start.variant.bind fun v => im.variants[v]?) with
  | some v => max 1 (bitsOf v.zpb 4 0)
  | none => max 1 (d.axis 2)

/-- The block of a coordinate (R399). -/
def Dev.blockNo (d : Dev) (c : Coord) : Nat := cz c / d.zpb

/-- SPARE_REQUEST (R469, R567): reason 1 for a vacancy at start-up, 2 for a dead module. -/
def spareRequest (c : Coord) (reason : Nat) : Act := fun d =>
  [.event 3 (leBytes 2 c.toNat ++ [BitVec.ofNat 8 (d.blockNo c), BitVec.ofNat 8 reason])]

/-! ### Preparing and flipping (R413–R416, R418) -/

/-- Send the coordinator's map to every live module and await their acknowledgements; while a version drains, or a flip is set, the next
map waits for RETIRE (R415). -/
def startMap : Act := fun d =>
  let c := d.route.coord
  if d.bit F.ROUTE_EPOCH_DRAINING || d.route.flipArmed then
    [.route fun r => { r with coord := { r.coord with deferred := true } }]
  else
    let seq := (c.seq + 1) % 65536
    [.route fun r => { r with
      computing := some (seq, c.map)
      coord := { r.coord with seq := seq, preparing := some d.now, acks := [], deferred := false } }] ++
    ((d.liveIn' c.map).filter fun x => x ≠ d.here).map fun x => .send (.mgmt x (.faultMap seq c.map none))

/-- The coordinator takes a new map: modules newly dead draw a spare request and RELINQUISH, and the next flip begins (R459, R469). -/
def newMap (m : FaultMap) : Act := fun d =>
  let gone := m.dead.filter fun c => !d.route.coord.map.dead.contains c
  if m = d.route.coord.map then [] else
    inSequence [
      fun _ => [.route fun r => { r with coord := { r.coord with map := m } }],
      forEach (fun c => inSequence [spareRequest c 2, fun _ => [.send (.mgmt c .relinquish)]]) gone,
      startMap ] d

/-- FAULT_REPORT (R415, R458–R460): a ring fault charged to a module also sends it a safe-state request.
(DEDUCED, log 100) -/
def faultReportAct (rep : FaultReport) : Act := fun d =>
  let m := d.withReport d.route.coord.map rep
  if !d.bit F.DEV_COORD_VALID || d.coordIn m ≠ d.here then [] else
    inSequence [
      newMap m,
      onlyIf (rep.cls = 3 && rep.port.isNone) (fun _ => [.send (.mgmt rep.coord .safeRequest)]) ] d

/-- Take a fault map whose table is to be computed (R415). -/
def takeMap (seq : Nat) (m : FaultMap) : Upd := .route fun r => { r with computing := some (seq, m) }

/-- TABLE_PREPARE_DONE (R412, R413, R415): the version that is neither current nor draining holds the new table. -/
def tablePrepareDoneAct : Act := fun d =>
  match d.route.computing with
  | none => []
  | some (seq, m) =>
    if d.bit F.ROUTE_EPOCH_DRAINING then [] else
      let v : TableVer := ⟨m, match d.table d.epoch with
        | some t => t.map
        | none => d.route.fmap⟩
      [.route fun r => if d.epoch then { r with v0 := some v, computing := none, nextSeq := seq }
          else { r with v1 := some v, computing := none, nextSeq := seq },
       setF F.ROUTE_EPOCH_NEXT_VALID 0 1, .send (.mgmt (d.coordIn m) (.prepareAck seq)), .pump]

/-- Record the count of a flip (R415, R435). -/
def armFlip (at_ : Nat) : List Upd := [setF F.ROUTE_FLIP_AT_GCNT 0 at_, .route fun r => { r with flipArmed := true }]

/-- PREPARE_ACK_RECEIVE (R415): when every live module has acknowledged, FLIP_AT is set 50 µs ahead. -/
def prepareAckReceiveAct (src : Coord) (seq : BitVec 16) : Act := fun d =>
  let c := d.route.coord
  if !d.isCoord || c.preparing.isNone || seq.toNat ≠ c.seq then [] else
    let acks := if c.acks.contains src then c.acks else c.acks ++ [src]
    let live := d.liveIn' c.map
    if live.all fun x => acks.contains x then
      let at_ := d.gcnt + 50000
      [.route fun r => { r with coord := { r.coord with acks := acks, preparing := none } }] ++ armFlip at_.toNat ++
        (live.filter fun x => x ≠ d.here).map fun x => .send (.mgmt x (.flipAt at_))
    else [.route fun r => { r with coord := { r.coord with acks := acks } }]

/-- PREPARE_ACK_TIMEOUT (R415): live modules that have not acknowledged within 1 ms are entered as dead, and Prepare starts again. -/
def prepareAckTimeoutAct : Act := fun d =>
  let c := d.route.coord
  match c.preparing with
  | none => []
  | some t =>
    let late := (d.liveIn' c.map).filter fun x => !c.acks.contains x && x ≠ d.here
    if !d.isCoord || d.now < t + 1000000 || late.isEmpty then [] else newMap (late.foldl (fun m x => addDead x m) c.map) d

/-- FLIP_AT_RECEIVE (R415, R435). -/
def flipAtReceiveAct (at_ : BitVec 64) : Act := fun _ => armFlip at_.toNat

/-- Count a packet discarded at a flip (R418), and free the credits of its arrival. A SCHED packet so lost fences its slice (R458). -/
def discardQueued (q : Queued) : List Upd :=
  [satF F.ROUTE_DROP_EPOCH 0 1] ++
    (match q.from_ with
     | some i => [Upd.port i fun s => { s with rxFreed := addNth s.rxFreed (pktVc q.pkt) (pktCredits q.pkt) }]
     | none => []) ++
    (if isSched q.pkt && q.pkt.key ≠ 0 then [Upd.route fun r => { r with lost := r.lost ++ [q.pkt.key] }] else [])

/-- The queues of dead ports at the flip (R418): unordered UNPL packets are routed again under the new version, others are discarded. -/
def flushDead (p : Nat) : Act := fun d =>
  if d.linkState p = lsUp then [] else
    let qs := (d.port p).queue
    let again := fun (q : Queued) => !isSched q.pkt && !q.pkt.ordered
    [.port p fun s => { s with queue := [] }] ++
      (qs.filter again).map (fun q => Upd.routed { q with pkt := setFlag q.pkt 1 d.epoch }) ++
      (qs.filter fun q => !again q).flatMap discardQueued

/-- Admission under the current table (R380, R412). -/
def admitPorts : Act := fun d =>
  match d.table d.epoch with
  | none => []
  | some v => [0, 1, 2, 3, 4, 5].map fun p => setB F.LINK_STATUS_ADMITTED p (d.linkState p = lsUp && d.maskBit v p)

/-- Send committed bytes of this module, or of its mirror, to a spare (R470): recovery WRITEs on VC5 with MARK.MIRROR set. `from_` is where
the bytes of a region lie here.
(DEDUCED, log 125) -/
def sendRegions (to_ : Coord) (from_ : Nat → Nat) : Act := fun d =>
  (d.regions.filter regionCommitted).flatMap fun e =>
    (List.range (regionSize e / 4096)).map fun j =>
      let a := regionBase e + 4096 * j
      let (bs, bad) := d.readHbm (from_ a) 4096
      .inject { mkPacket ptWrite 5 d.here to_ (BitVec.ofNat 12 (regionPkey e)) bs with
        mark := if bad then 3 else 2, addr := BitVec.ofNat 64 a }

/-- What the buddy and the ward of a spare send it once its links are admitted (R470). -/
def sendRestore (was : FaultMap) : Act := fun d =>
  let back := fun (c : Option Coord) => c.filter fun x => was.dead.contains x && !d.isDead x && x ≠ d.here
  inSequence [
    fun d => match back (d.wardOf d.here), d.mirrorBase with
      | some w, some b => sendRegions w (fun a => b + (mirrorOffset d.regions 0 a).getD 0) d
      | _, _ => [],
    fun d => match back (d.buddyOf d.here) with
      | some b => sendRegions b id d
      | none => [] ] d

/-- What a new map means for the slices fenced here (R467, R474): members newly dead are to be replaced, and one that a spare has taken
puts the slice in RESTORE. -/
def refreshFenced : Act := fun d =>
  (d.slices.filter fun e => e.2.fenced).map fun e =>
    .slice e.1 fun s =>
      let dead := s.desc.toList.flatMap fun x => (d.members x).filter fun c => d.isDead c && !s.replaced.contains c
      let taken : Bool := s.replaced.any fun c => !d.isDead c
      { s with replaced := s.replaced ++ dead, rstate := if s.rstate = 2 && taken then 3 else s.rstate }

/-- EPOCH_FLIP (R415, R416, R418, R419, R434): at FLIP_AT the prepared version becomes current and the previous one drains. -/
def epochFlipAct : Act := fun d =>
  let next := d.table (!d.epoch)
  match next with
  | none => []
  | some v =>
    if !d.route.flipArmed || !d.bit F.ROUTE_EPOCH_NEXT_VALID || d.bit F.ROUTE_EPOCH_DRAINING ||
        d.now < d.fld F.ROUTE_FLIP_AT_GCNT then [] else
      let was := d.route.fmap
      inSequence [
        fun d => [setB F.ROUTE_EPOCH_CUR 0 (!d.epoch), setF F.ROUTE_EPOCH_DRAINING 0 1, setF F.ROUTE_EPOCH_NEXT_VALID 0 0,
          addF F.ROUTE_EPOCH_FLIPS 0 1, setF F.ROUTE_EPOCH_MAP_SEQ 0 d.route.nextSeq,
          .route fun r => { r with
            fmap := v.map, flipArmed := false
            coord := if d.isCoord then { r.coord with checkAt := none, replies := [] }
              else { CoordSt.init with map := v.map, seq := r.nextSeq } }],
        fun d => [setB F.ROUTE_EPOCH_COORD 0 d.isCoord],
        admitPorts,
        inSequence ([0, 1, 2, 3, 4, 5].map flushDead),
        takeActing,
        refreshFenced,
        checkLost,
        sendRestore was,
        fun d => forEach (fun (e : Nat × SliceSt) => tryRelaunch e.1) d.slices d,
        fun _ => [.pump] ] d

/-! ### Draining (R417, R418) -/

/-- DRAIN_CHECK_SEND (R415): every 20 µs the coordinator names a count 10 µs ahead. -/
def drainCheckSendAct : Act := fun d =>
  let due : Bool := match d.route.coord.checkAt with
    | some t => t + 10000 ≤ d.now
    | none => true
  if !d.isCoord || !d.bit F.ROUTE_EPOCH_DRAINING || !due then [] else
    let at_ := d.gcnt + 10000
    [.route fun r => { r with checkAt := some at_.toNat, coord := { r.coord with checkAt := some at_.toNat, replies := [] } }] ++
      ((d.liveIn' d.route.fmap).filter fun x => x ≠ d.here).map fun x => .send (.mgmt x (.drainCheck at_))

/-- DRAIN_CHECK_RECEIVE (R417). -/
def drainCheckReceiveAct (at_ : BitVec 64) : Act := fun _ => [.route fun r => { r with checkAt := some at_.toNat }]

/-- The count of an epoch. -/
def epochCount (v : Bool) (c : Nat × Nat) : Nat := if v then c.2 else c.1

/-- Whether the packet in reception on a port is of an epoch. -/
def PortSt.rxOf (s : PortSt) (v : Bool) : Bool := s.rx.any fun r => 2 ≤ r.bytes.length && bitOf (fieldAt r.bytes 1 1) 1 = v

/-- HELD (R417): packets of an epoch that wait at a port or are in reception. -/
def Dev.heldOf (d : Dev) (v : Bool) : Nat :=
  ([0, 1, 2, 3, 4, 5].map fun p =>
    ((d.port p).queue.filter fun q => q.pkt.epoch = v).length + (if (d.port p).rxOf v then 1 else 0)).sum

/-- RX of a port for an epoch (R417): packets whose first byte has been received. -/
def Dev.rxCount (d : Dev) (p : Nat) (v : Bool) : Nat := epochCount v (d.port p).oldRx + (if (d.port p).rxOf v then 1 else 0)

/-- DRAIN_CHECK_LATCH (R417, R437). -/
def drainCheckLatchAct : Act := fun d =>
  match d.route.checkAt with
  | none => []
  | some t =>
    if d.now < t then [] else
      let old := !d.epoch
      let tx := [0, 1, 2, 3, 4, 5].map fun p => epochCount old (d.port p).oldTx
      let rx := [0, 1, 2, 3, 4, 5].map fun p => d.rxCount p old
      [.route (fun r => { r with checkAt := none }), setF F.ROUTE_DRAIN_CHECK_GCNT 0 (t % 4294967296), setF F.ROUTE_DRAIN_HELD 0 (d.heldOf old),
       .send (.mgmt (d.coordIn d.route.fmap) (.drainReply ⟨BitVec.ofNat 64 t, d.heldOf old, tx, rx⟩))] ++
      [0, 1, 2, 3, 4, 5].flatMap fun p => [setF F.ROUTE_OLD_TX p (nth tx p), setF F.ROUTE_OLD_RX p (nth rx p)]

/-- Whether a full set of replies shows the version drained (R417): nothing held, and TX equal to RX on every link between live modules that
is not itself dead. -/
def Dev.drainedBy (d : Dev) (rs : List (Coord × DrainReply)) : Bool :=
  (rs.all fun r => r.2.held = 0) &&
    rs.all fun r => [0, 1, 2, 3, 4, 5].all fun p =>
      d.axis (portAxis p) ≤ 1 || d.linkDead d.route.fmap r.1 p ||
        match rs.find? fun x => x.1 = d.farEnd r.1 p with
        | some x => nth r.2.tx p = nth x.2.rx (oppositePort p)
        | none => true

/-- Retire the draining version (R415): DRAINING and HOLD are lifted, its counts cleared, and what waited goes on; the coordinator begins the
flip that faults reported meanwhile ask for. -/
def retire : Act := fun d =>
  if !d.bit F.ROUTE_EPOCH_DRAINING then [] else
    let old := !d.epoch
    let clear := fun (c : Nat × Nat) => if old then (c.1, 0) else (0, c.2)
    inSequence [
      fun _ => [setF F.ROUTE_EPOCH_DRAINING 0 0,
        .route fun r => if old then { r with v1 := none, checkAt := none } else { r with v0 := none, checkAt := none }] ++
        [0, 1, 2, 3, 4, 5].map fun p => .port p fun s => { s with oldTx := clear s.oldTx, oldRx := clear s.oldRx },
      fun _ => [.pump],
      onlyIf (d.isCoord && d.route.coord.deferred) startMap ] d

/-- DRAIN_CHECK_REPLY_RECEIVE (R417): a check that shows the version drained draws RETIRE. -/
def drainCheckReplyReceiveAct (src : Coord) (rep : DrainReply) : Act := fun d =>
  let c := d.route.coord
  if !d.isCoord || c.checkAt ≠ some rep.at_.toNat || !d.bit F.ROUTE_EPOCH_DRAINING then [] else
    let rs := (c.replies.filter fun r => r.1 ≠ src) ++ [(src, rep)]
    let live := d.liveIn' d.route.fmap
    let whole : Bool := live.all fun x => rs.any fun r => r.1 = x
    inSequence [
      fun _ => [.route fun r => { r with coord := { r.coord with replies := rs } }],
      onlyIf (whole && d.drainedBy rs) (inSequence [
        fun _ => (live.filter fun x => x ≠ d.here).map fun x => .send (.mgmt x .retire),
        retire ]) ] d

/-- RETIRE_RECEIVE (R415, R416). -/
def retireReceiveAct : Act := retire

/-- DRAIN_TO_EXPIRE (R418): the remaining packets of the old version are discarded, their slices fenced, and the version is retired. -/
def drainToExpireAct : Act := fun d =>
  if !d.bit F.ROUTE_EPOCH_DRAINING || !d.expired (d.fld F.ROUTE_FLIP_AT_GCNT) (d.fld F.ROUTE_CFG_DRAIN_TO) then [] else
    let old := !d.epoch
    let gone := [0, 1, 2, 3, 4, 5].flatMap fun p => (d.port p).queue.filter fun q => q.pkt.epoch = old
    let keys := ((gone.map fun q => q.pkt.key) ++ [0, 1, 2, 3, 4, 5].filterMap fun p =>
      if (d.port p).rxOf old then (d.port p).rxHeader.map fun h => h.key else none).dedup
    inSequence [
      fun _ => flagRoute F.ROUTE_ERR_DRAIN_TO ++
        ([0, 1, 2, 3, 4, 5].map fun p => Upd.port p fun s => { s with
          queue := s.queue.filter fun q => q.pkt.epoch ≠ old
          rx := if s.rxOf old then s.rx.map fun r => { r with void := true } else s.rx }) ++
        gone.flatMap discardQueued,
      fun d => forEach (fun k => fun d => match d.sliceOf k with
        | some i => faultSlice i 1 d
        | none => []) (keys.filter fun k => k ≠ 0) d,
      retire ] d

/-! ### The slice map (R424–R427) -/

/-- A slice descriptor's bytes by axis. -/
def useOn (s : SliceDesc) (a : Nat) : Nat := match a with | 0 => s.useX.toNat | 1 => s.useY.toNat | _ => s.useZ.toNat
def tshareOn (s : SliceDesc) (a : Nat) : Nat := match a with | 0 => s.tshareX.toNat | 1 => s.tshareY.toNat | _ => s.tshareZ.toNat

/-- Whether a reserved field of a descriptor is nonzero (R424). -/
def descReserved (s : SliceDesc) : Bool :=
  bitsOf s.pkey 15 12 ≠ 0 || bitsOf s.wrap 7 3 ≠ 0 || bitsOf s.origin 15 12 ≠ 0 || bitsOf s.sizeX 7 5 ≠ 0 ||
    bitsOf s.sizeY 7 5 ≠ 0 || bitsOf s.sizeZ 7 5 ≠ 0 || s.rsv ≠ 0

/-- The descriptors of the slice map. -/
def Dev.mapDescs (d : Dev) : List SliceDesc := d.slices.filterMap fun e => e.2.desc

/-- The largest USE of the slices of which a coordinate is a member on an axis (R426, R442). -/
def Dev.hostUse (d : Dev) (ss : List SliceDesc) (c : Coord) (a : Nat) : Nat :=
  ((ss.filter fun s => d.isMember s c).map fun s => useOn s a).foldl max 0

/-- The transit shares in force on the ports of an axis of a coordinate (R426): a transit slice of one compile group with every member slice
of the module is left out.
(DEDUCED, log 121) -/
def Dev.transitSum (d : Dev) (ss : List SliceDesc) (c : Coord) (a : Nat) : Nat :=
  let ms := ss.filter fun s => d.isMember s c
  let shared := fun (s : SliceDesc) => s.group ≠ 0 && !ms.isEmpty && ms.all fun m => m.group = s.group
  ((ss.filter fun s => d.isTransitOn s c a && !shared s).map fun s => tshareOn s a).sum

/-- The verdict on an allocation (R426). -/
def Dev.allocStatus (d : Dev) (s : SliceDesc) : Nat :=
  let old := d.mapDescs
  let all := old ++ [s]
  let axes := [0, 1, 2]
  if axes.any fun a => sizeOn s a = 0 then cfgZero
  else if bitsOf s.pkey 11 0 = 0 || (old.any fun o => bitsOf o.pkey 11 0 = bitsOf s.pkey 11 0) || 256 ≤ old.length ||
      (axes.any fun a => d.axis a < sizeOn s a || 64 < useOn s a || 64 < tshareOn s a) || descReserved s ||
      (d.allCoords.any fun c => 4 < (all.filter fun x => d.isMember x c).length || 16 < (all.filter fun x => d.isTransit x c).length) then cfgPlan
  else if axes.any fun a => tshareOn s a = 0 && d.allCoords.any fun c => d.isTransitOn s c a &&
      !(s.group ≠ 0 && all.any fun x => d.isMember x c && x.group = s.group) then cfgPlan
  else if d.allCoords.any fun c => axes.any fun a =>
      64 < d.hostUse all c a + d.transitSum all c a || d.fld F.ROUTE_CFG_TRANSIT_MAX < d.transitSum all c a then cfgPlan
  else 0

/-- The verdict on a removal (R427).
(DEDUCED, log 122) -/
def Dev.removeStatus (d : Dev) (pkey : BitVec 12) : Nat :=
  if (d.sliceOf pkey).isNone || !(d.activeRings pkey).isEmpty then cfgPlan else 0

/-- The verdict on a change of the slice map. -/
def Dev.changeStatus (d : Dev) (c : MapChange) : Nat :=
  match c with
  | .alloc s _ => d.allocStatus s
  | .remove k => d.removeStatus k

/-- Put a slice into the lowest free entry, or take one out with what the module keeps for it. -/
def applyChange (c : MapChange) : Act := fun d =>
  match c with
  | .alloc s det =>
    match (List.range 256).find? fun i => (d.slice i).desc.isNone with
    | some i => [.slice i fun _ => { SliceSt.init with desc := some s, detMode := det }]
    | none => []
  | .remove k =>
    match d.sliceOf k with
    | some i => [.slice i fun _ => SliceSt.init,
        .commit fun c => { c with
          undo := c.undo.filter fun u => u.slice ≠ i, recStaged := c.recStaged.filter fun r => r.slice ≠ i
          recCur := c.recCur.filter fun r => r.slice ≠ i }]
    | none => []

/-- SLICE_MAP_UPDATE (R424, R426): at the named count the copy here changes, the same checks giving the same verdict everywhere. -/
def sliceMapUpdateAct (at_ : BitVec 64) (c : MapChange) : Act := fun d =>
  if d.now < at_.toNat || d.changeStatus c ≠ 0 then [] else applyChange c d

/-- The coordinator decides a change of the slice map (R424, R426, R427): accepted, every module applies it at a count that it names.
(DESIGN CHOICE, log 123) -/
def decideChange (c : MapChange) (d : Dev) : Nat × Act :=
  let st := d.changeStatus c
  if st ≠ 0 then (st, fun _ => flagRoute F.ROUTE_ERR_ALLOC)
  else
    let c := match c with
      | .alloc s _ => MapChange.alloc s (d.bit F.DET_CTL_DET_MODE)
      | .remove k => .remove k
    let at_ := d.now + 50000
    (0, fun d => (d.liveIn' d.route.fmap).map fun x => .send (.mgmt x (.sliceChange at_ c)))

/-! ### Heartbeats (R459) -/

/-- HEARTBEAT_SEND (R459). -/
def heartbeatSendAct : Act := fun d =>
  ([0, 1, 2, 3, 4, 5].filter fun p => d.linkState p = lsUp && d.bit F.LINK_STATUS_ADMITTED p).map fun p =>
    .send (.mgmt (d.neighbour p) .heartbeat)

/-- HEARTBEAT_RECEIVE (R459). -/
def heartbeatReceiveAct (p : Nat) : Act := fun d =>
  if d.linkState p = lsUp then [.port p fun s => { s with heardAt := d.now, silent := false }] else []

/-- NEIGHBOUR_SILENT (R458–R460, R489): no heartbeat for SILENT_TO ms while the link is UP. The report goes to the coordinator, or to the
acting master when the coordinator is the silent module. -/
def neighbourSilentAct (p : Nat) : Act := fun d =>
  let s := d.port p
  let n := d.neighbour p
  if d.linkState p ≠ lsUp || !d.bit F.LINK_STATUS_ADMITTED p || s.silent ||
      d.now < s.heardAt + d.fld F.RECOV_CFG_SILENT_TO * 1000000 then [] else
    let hit := d.slicesOf n
    let keys := hit.map fun i => (d.slice i).pkey
    inSequence [
      fun _ => flagRecov F.RECOV_ERR_SILENT ++ [.port p fun s => { s with silent := true }],
      forEach (fun i => fenceSlice i 3) hit,
      fun d => [.send (.mgmt (d.coordIn (addDead n d.route.fmap)) (.faultReport 3 n (some p) keys)),
        .event 6 ([3, 0] ++ leBytes 2 n.toNat ++ leBytes 2 (keys.headD 0).toNat)] ] d

/-! ### Admitting a spare (R419, R469) -/

/-- The map without a dead coordinate that a spare has taken, and without its links. -/
def Dev.withSpare (d : Dev) (c : Coord) (m : FaultMap) : FaultMap :=
  { links := m.links.filter fun e => !(e.1 = c || d.farEnd e.1 e.2.val = c), dead := m.dead.filter fun x => x ≠ c }

/-- The next flip admits a spare's links (R419). -/
def admitSpare (c : Coord) : Act := fun d => newMap (d.withSpare c d.route.coord.map) d

end Sys2Proof.Machine
end

