-- ==== Sys2Proof/Machine/Chain.lean ====
section
/-! DEFINITION. The Cymund chain (14): memory requests, host DMA, events, the module's own requests and their retries, links, addresses,
forwarding, and requests relayed to other modules (R553–R566, R595). -/

namespace Sys2Proof.Machine

/-! ### Framing (R555, R556) -/

/-- A packet that breaks its row of R556 is discarded, counted, and draws no response (R555). -/
def framed (ok : Bool) (a : Act) : Act := if ok then a else fun _ => flagChain F.CHAIN_ERR_MALFORMED

/-- CHAIN_PACKET_DISCARD (R555). -/
def chainPacketDiscardAct (crcFail : Bool) : Act := fun _ => flagChain (if crcFail then F.CHAIN_ERR_CRC else F.CHAIN_ERR_MALFORMED)

/-- States of a Cymund port (R589). -/
def csUp : Nat := 2
def csDead : Nat := 3

/-- CHAIN_PACKET_FORWARD (R559): a packet for another address, or a broadcast, leaves by the other port while that is UP. -/
def chainPacketForwardAct (upstream : Bool) (dst : BitVec 8) (bytes : List Byte) : Act := fun d =>
  let own : Bool := d.bit F.CHAIN_ADDR_VALID && dst.toNat = d.fld F.CHAIN_ADDR_ADDR
  let out := if upstream then d.fld F.CHAIN_STATUS_IN_STATE else d.fld F.CHAIN_STATUS_OUT_STATE
  if own || out ≠ csUp then [] else [.send (.chainForward upstream dst bytes)]

/-! ### Memory requests (R562, R595) -/

/-- The slices that have a live binding here: ring contexts armed or live, and cores that still hold one.
(DEDUCED, log 151) -/
def Dev.keyLive (d : Dev) (pkey : Nat) : Bool :=
  if pkey = 0 then d.slices.any fun e => !(d.boundRings e.2.pkey).isEmpty
  else !(d.boundRings (BitVec.ofNat 12 pkey)).isEmpty

/-- Whether a run touches a COMMITTED region whose key has a live binding; a region shared by all slices counts as that of every slice. -/
def Dev.committedLive (d : Dev) (a n : Nat) : Bool :=
  d.regions.any fun e => regionCommitted e && meets (a, n) (regionBase e, regionSize e) && d.keyLive (regionPkey e)

/-- Whether WEIGHT_LOCK refuses a read (R595). -/
def Dev.weightLocked (d : Dev) (a n : Nat) : Bool :=
  d.bit F.SEC_CFG_WEIGHT_LOCK &&
    (([0, 1, 2, 3].any fun k =>
      meets (a, n) (d.fld F.RING_SHARE_BASE k * 16384, d.fld F.RING_SHARE_SIZE k * 16384) ||
      meets (a, n) (d.fld F.RING_SHADOW_BASE k * 16384, d.fld F.RING_SHADOW_SIZE k * 16384)) ||
     d.regions.any fun e => regionType e = 8 && meets (a, n) (regionBase e, regionSize e))

/-- What leaves the module of a run (R1): a page that an uncommitted step has written shows its committed contents.
(DEDUCED, log 150) -/
def Dev.readOut (d : Dev) (a n : Nat) : List Byte :=
  let bs := (d.readHbm a n).1
  if d.commit.undo.isEmpty then bs
  else ((List.range n).zip bs).map fun e =>
    match d.commit.undo.find? fun u => u.page = (a + e.1) / 16384 with
    | some u => memByte u.cells (a + e.1)
    | none => e.2

/-- A read of HBM by a request (R562, R595). -/
def readMem (a n : Nat) (d : Dev) : Answer × Act :=
  if hbmSize < a + n then refuse 7
  else if d.weightLocked a n then (addressError 5, fun _ => flagSec F.SEC_ERR_WEIGHT_READ)
  else (answerData (d.readOut a n), noAct)

/-- A write of HBM by a request (R562). -/
def writeMem (a : Nat) (bs : List Byte) (d : Dev) : Answer × Act :=
  if hbmSize < a + bs.length then refuse 7
  else if d.committedLive a bs.length then refuse 5
  else (answerOk, writeHbm a bs false)

/-- A write of HBM that is in self-refresh is answered BUSY and wakes the module (R620, R622).
(DEDUCED, log 188) -/
def memBusy (f : Dev → Answer × Act) (d : Dev) : Answer × Act := if 3 ≤ d.fld F.PWR_STATUS_STATE then (answerBusy, wakeUp) else f d

/-- MEM_RD (R556, R558, R562). -/
def memRdAct (r : Req) (addr len : Nat) : Act :=
  framed (1 ≤ len && len ≤ 1024 && !r.bcast) (serveAgain r (readMem addr len))

/-- MEM_WR (R556, R562). -/
def memWrAct (r : Req) (addr : Nat) (data : List Byte) : Act :=
  framed (1 ≤ data.length && data.length ≤ 1024 && !r.bcast) (serve r (memBusy (writeMem addr data)))

/-! ### Host DMA (R563) -/

/-- The step that the record of a host DMA item names (R455): its slice's last committed step, all ones when it has no slice. -/
def Dev.dmaStep (d : Dev) (pkey : BitVec 12) : Nat :=
  match d.sliceOf pkey with
  | some i => (d.slice i).committedWord
  | none => 2 ^ 64 - 1

/-- The first item ends: its requests still outstanding are given up, and its record leaves in an event. -/
def endDma (x : DmaItem) (status : Nat) : Act :=
  inSequence [
    fun _ => [.chain (fun c => { c with
        dma := c.dma.filter fun y => y.item ≠ x.item
        out := c.out.filter fun o => match o.body with | .event _ => true | _ => false }),
      .commit fun c => { c with items := c.items.map fun it => if it.typ = 3 && it.handle = x.item.toNat then { it with count := x.moved } else it }],
    noteQuiet,
    fun d => releaseRecord x.item.toNat x.pkey status (d.dmaStep x.pkey) d ]

/-- Whether the first item's data may not be moved (R457, R563, R595). -/
def Dev.dmaBad (d : Dev) (x : DmaItem) : Bool :=
  hbmSize < x.hbm + x.len || (if x.toHost then d.weightLocked x.hbm x.len else d.committedLive x.hbm x.len)

/-- Issue the next packets of the first item, at most 64 outstanding (R558, R563).
(DEDUCED, log 152) -/
def dmaPump : Nat → Act
  | 0, _ => []
  | fuel + 1, d =>
    match d.chain.dma with
    | [] => []
    | x :: _ =>
      if x.asked = 0 && d.dmaBad x then
        inSequence [onlyIf (x.toHost && d.weightLocked x.hbm x.len) (fun _ => flagSec F.SEC_ERR_WEIGHT_READ), endDma x 0x10, dmaPump fuel] d
      else if x.len ≤ x.asked || 64 ≤ d.chain.out.length || !d.chained then []
      else
        let n := min 1024 (x.len - x.asked)
        let body : OwnReq := if x.toHost then .memWr (x.host + x.asked) (x.hbm + x.asked) n else .memRd (x.host + x.asked) (x.hbm + x.asked) n
        let data := if x.toHost then d.readOut (x.hbm + x.asked) n else []
        inSequence [
          fun _ => [.ask body fun t => .chainRequest t body data,
            .chain fun c => { c with dma := c.dma.map fun y => if y.item = x.item then { y with asked := y.asked + n } else y }],
          dmaPump fuel ] d

/-- Issue what the chain has room for. -/
def runDma : Act := fun d => dmaPump (64 + d.chain.dma.length) d

/-- Queue a host DMA item (R563, R564): the response is OK as soon as it is queued; a ninth is answered BUSY. -/
def hostDma (item : BitVec 32) (pkey : BitVec 12) (toHost : Bool) (hbm host len : Nat) (d : Dev) : Answer × Act :=
  let x : DmaItem := ⟨item, pkey, toHost, hbm, host, len, 0, 0⟩
  let it : Item := ⟨item.toNat, 3, pkey, none, 0, 0, 0, 0, none⟩
  let add : Upd := .commit fun c => { c with items := c.items ++ [it] }
  if 8 ≤ d.chain.dma.length || 960 ≤ d.chain.events.length then (answerBusy, noAct)
  else if len = 0 then (answerWith 0, inSequence [fun _ => [add], endDma x 0])
  else (answerWith 0, inSequence [fun _ => [add, .chain fun c => { c with dma := c.dma ++ [x] }], runDma])

/-! ### Responses, retries and events (R558, R564–R566) -/

/-- An event is acknowledged: it is no longer held (R564). -/
def ackEvent (seq : BitVec 32) : Act := fun d =>
  if !(d.chain.events.any fun e => e.seq = seq) then [] else
    [.chain fun c => { c with
      events := c.events.filter fun e => e.seq ≠ seq
      out := c.out.filter fun o => o.body ≠ .event seq },
     setF F.EVT_STATUS_HELD 0 (d.chain.events.length - 1), .sendEvents]

/-- EVENT_ACK (R564). -/
def eventAckAct (seq : BitVec 32) : Act := inSequence [ackEvent seq, runDma]

/-- Bytes of the first item have moved (R563). -/
def dmaMoved (n : Nat) : Act := fun d =>
  match d.chain.dma with
  | [] => []
  | x :: _ =>
    let y := { x with moved := x.moved + n }
    inSequence [
      fun _ => [.chain fun c => { c with dma := c.dma.map fun z => if z.item = x.item then y else z }],
      onlyIf (y.len ≤ y.moved) (endDma y 0) ] d

/-- The first item fails: a request of it was abandoned, or answered with another STATUS than OK (R563). -/
def dmaFail : Act := fun d => match d.chain.dma with | [] => [] | x :: _ => endDma x 0x20 d

/-- A response to one of this module's requests. -/
def takeResponse (o : OutReq) (status : BitVec 8) (data : List Byte) : Act :=
  let retire : Act := fun _ => [.chain fun c => { c with out := c.out.filter fun x => x.tag ≠ o.tag }]
  match o.body with
  | .event seq => inSequence [retire, ackEvent seq]
  | .memWr _ _ n => inSequence [retire, if status = 0 then dmaMoved n else dmaFail]
  | .memRd _ hbm n =>
    inSequence [retire, if status = 0 && data.length = n then inSequence [writeHbm hbm data false, dmaMoved n] else dmaFail]

/-- The bytes of the ENUMERATE payload (R561). -/
def enumBytes (next count : Nat) : List Byte := [BitVec.ofNat 8 next, BitVec.ofNat 8 count] ++ leBytes 6 0

/-- The adapter as the source of an ENUMERATE (R561). -/
def enumReq (tag : BitVec 10) : Req := ⟨.cymund, 0, tag, false⟩

/-- Whether a response is that of the ENUMERATE passed downstream (R561). -/
def Dev.enumBack (d : Dev) (tag : BitVec 10) (data : List Byte) : Bool :=
  d.chain.enumTag = some tag && data.length = 8 && !(d.chain.out.any fun o => o.tag = tag && match o.body with | .event _ => false | _ => true)

/-- CHAIN_RESPONSE_RECEIVE (R558, R561, R563, R564). -/
def chainResponseReceiveAct (tag : BitVec 10) (status : BitVec 8) (data : List Byte) : Act := fun d =>
  if d.enumBack tag data then
    let count := (data.getD 1 0).toNat
    [setF F.CHAIN_ADDR_LENGTH 0 count, .chain fun c => { c with enumTag := none },
     .send (.resp (enumReq tag) 0 (BitVec.ofNat 8 count) data)]
  else
    match d.chain.out.find? fun o => o.tag = tag with
    | none => []
    | some o => inSequence [takeResponse o status data, runDma, fun _ => [.sendEvents]] d

/-- Send a request again with the same tag and bytes. -/
def resend (o : OutReq) : Act := fun d =>
  match o.body with
  | .event seq => match d.chain.events.find? fun e => e.seq = seq with
    | some e => [.send (.event o.tag e.kind e.seq e.gcnt e.body)]
    | none => []
  | .memWr _ hbm n => [.send (.chainRequest o.tag o.body (d.readOut hbm n))]
  | .memRd _ _ _ => [.send (.chainRequest o.tag o.body [])]

/-- CHAIN_RETRY_TIMEOUT (R558): the request is sent again, or abandoned after RETRY_MAX resends. An event abandoned stays held.
(DEDUCED, log 153) -/
def chainRetryTimeoutAct (tag : BitVec 10) : Act := fun d =>
  match d.chain.out.find? fun o => o.tag = tag with
  | none => []
  | some o =>
    if !d.expired o.sentAt (d.fld F.CHAIN_CFG_RETRY_TO) then []
    else if o.resends < d.fld F.CHAIN_CFG_RETRY_MAX then
      inSequence [
        fun _ => [addF F.CHAIN_CNT_RESENDS 0 1, .chain fun c => { c with
          out := c.out.map fun x => if x.tag = tag then { x with sentAt := d.now, resends := x.resends + 1 } else x }],
        onlyIf d.chained (resend o) ] d
    else
      inSequence [
        fun _ => flagChain F.CHAIN_ERR_RETRY_EXHAUSTED ++ [.chain fun c => { c with out := c.out.filter fun x => x.tag ≠ tag }],
        match o.body with
        | .event _ => noAct
        | _ => dmaFail,
        runDma ] d

/-! ### Links and addresses (R553, R560, R561) -/

/-- CHAIN_LINK_DEATH (R553, R590). -/
def chainLinkDeathAct (out : Bool) : Act := fun d =>
  let f := if out then F.CHAIN_STATUS_OUT_STATE else F.CHAIN_STATUS_IN_STATE
  if d.fld f = 0 || d.fld f = csDead then []
  else [setF f 0 csDead] ++ flagChain (if out then F.CHAIN_ERR_OUT_DEAD else F.CHAIN_ERR_IN_DEAD)

/-- Send the events still held again, from the first (R561, R565). -/
def resendEvents : Act := fun d =>
  [.chain (fun c => { c with evSent := match d.chain.events with | e :: _ => e.seq - 1 | [] => c.evSent }), .sendEvents]

/-- CHAIN_LINK_UP (R553, R565). -/
def chainLinkUpAct (out : Bool) : Act := fun d =>
  let f := if out then F.CHAIN_STATUS_OUT_STATE else F.CHAIN_STATUS_IN_STATE
  if d.fld f = csUp || d.mode = stOff then []
  else inSequence [fun _ => [setF f 0 csUp], onlyIf (!out) (inSequence [resendEvents, runDma])] d

/-- ENUMERATE (R561): the module takes address NEXT; the last one answers with the count. -/
def enumerateAct (next : Nat) (tag : BitVec 10) : Act := fun d =>
  if next = 0 || 24 < next then flagChain F.CHAIN_ERR_MALFORMED else
    let outUp : Bool := d.fld F.CHAIN_STATUS_OUT_STATE = csUp
    let on : Bool := outUp && next < 24
    inSequence [
      onlyIf (d.chain.out.any fun o => match o.body with | .event _ => false | _ => true) dmaFail,
      fun _ => [setF F.CHAIN_ADDR_VALID 0 1, setF F.CHAIN_ADDR_ADDR 0 next, setB F.CHAIN_STATUS_BEYOND 0 (outUp && next = 24),
        .chain fun c => { c with cache := [], out := [], enumTag := if on then some tag else none }],
      fun _ => if on then [.send (.enumerate (next + 1) tag)]
        else [setF F.CHAIN_ADDR_LENGTH 0 next, .send (.resp (enumReq tag) 0 (BitVec.ofNat 8 next) (enumBytes next next))],
      resendEvents,
      runDma ] d

/-! ### Requests to other modules (R560, R569) -/

/-- TYPE of a request (R556). -/
def innerType : InnerReq → Nat
  | .regRd _ => 1
  | .regWr _ _ _ => 2
  | .memRd _ _ => 3
  | .memWr _ _ => 4
  | .install _ _ => 5
  | .ltol _ => 7
  | .cmd _ => 8

/-- A tag that no request to other modules holds. -/
def Dev.relayTag (d : Dev) : BitVec 10 :=
  (((List.range 1023).map fun i => BitVec.ofNat 10 (i + 1)).find? fun t => d.chain.relays.all fun x => x.tag ≠ t).getD 0

/-- Send a request to another module, whose response will answer `r`. A request already under way is not sent twice (R558). -/
def relayTo (r : Req) (target : Coord) (inner : InnerReq) (typ : Option Nat) : Act := fun d =>
  match d.cached r with
  | some e => [.send (.resp r e.status e.reason e.data)]
  | none =>
    if d.chain.relays.any fun x => x.req.path = r.path && x.req.src = r.src && x.req.tag = r.tag then []
    else if 64 ≤ (d.chain.relays.filter fun x => x.target = target).length then [addF F.CHAIN_CNT_RX 0 1] ++ respond r answerBusy
    else
      [addF F.CHAIN_CNT_RX 0 1, .chain fun c => { c with relays := c.relays ++ [⟨r, target, d.relayTag, typ⟩] },
       .send (.mgmt target (.relayed d.relayTag inner))]

/-- RELAY (R560). -/
def relayAct (r : Req) (target : Coord) (inner : InnerReq) : Act := framed (!r.bcast) (relayTo r target inner (some (innerType inner)))

/-- The response packet of a relayed request, without its CRC (R555, R560).
(DEDUCED, log 154) -/
def responsePacket (typ : Nat) (tag : BitVec 10) (status reason : BitVec 8) (data : List Byte) : List Byte :=
  [BitVec.ofNat 8 typ, 1, 0, 0] ++ leBytes 2 tag.toNat ++ leBytes 2 data.length ++ [status, reason] ++ leBytes 6 0 ++ data

/-- RELAY_RESPONSE_RECEIVE (R560, R569): the target's response becomes the payload of the RELAY response; the coordinator's verdict is the
response of the command itself. -/
def relayResponseReceiveAct (src : Coord) (tag : BitVec 10) (status reason : BitVec 8) (data : List Byte) : Act := fun d =>
  match d.chain.relays.find? fun x => x.target = src && x.tag = tag with
  | none => []
  | some x =>
    [.chain fun c => { c with relays := c.relays.filter fun y => !(y.target = src && y.tag = tag) }] ++
      respond x.req (match x.typ with
        | some t => answerData (responsePacket t x.req.tag status reason data)
        | none => ⟨status, reason, data⟩)

end Sys2Proof.Machine
end

