-- ==== Sys2Proof/Machine/RegMap.lean ====
section
/-! DEFINITION. The register map: where an address lies (R10–R13), what a stored register takes from a write (R14, R16, R656), and the values
that the chapters reserve (R15). -/

namespace Sys2Proof.Machine

/-! ### Addresses (R10–R13, R557) -/

/-- What an address names: copy `i` of a register, or the REASON of the address error. -/
inductive Located where
  | at_ (r : Reg) (i : Nat)
  | no (reason : Nat)
  deriving DecidableEq, Repr

/-- The window of a core within a quadrant's stride (R12): the core index and the offset in its window. -/
def coreWindow (a : Nat) : Option (Nat × Nat) :=
  let o := a - 0x10000000
  let q := o / 0x4000000
  let c := o % 0x4000000 / 0x80000
  if a < 0x10000000 || 4 ≤ q || 100 ≤ c then none
  else some (q * 6400 + c * 64 + o % 0x80000 / 0x2000, o % 0x2000)

/-- The copy of a device register at an address; a selector's own path, and what it selects (R233, R441, R483, R512). -/
def Dev.copyAt (d : Dev) (path : Path) (r : Reg) (a : Nat) : Option Nat :=
  let x := r.info
  let o := a - x.addr
  let one : Bool := a = x.addr
  let arr : Bool := x.addr ≤ a && o % max 1 x.stride = 0 && o / max 1 x.stride < x.count
  let core := d.fld F.SPM_SEL_CORE path.copy
  match x.place with
  | .one => if one then some 0 else none
  | .array => if arr then some (o / x.stride) else none
  | .lost => if x.addr ≤ a && o / 0x1000 < 6 && o % 0x1000 < 0x200 && o % 8 = 0 then some (o / 0x1000 * 64 + o % 0x1000 / 8) else none
  | .perPath => if one then some path.copy else none
  | .bySel sel => if one then some (d.reg sel path.copy) else none
  | .selCore => if one then some core else none
  | .selCore16 => if arr then some (core * 16 + o / x.stride) else none
  | .selCore32 => if arr then some (core * 32 + o / x.stride) else none
  | _ => none

/-- The copy of a core register at an offset of the window of a core; REG_ registers exist in the window of a cluster's first core
(R263). -/
def windowCopy (core o : Nat) (r : Reg) : Option Nat :=
  let x := r.info
  let n := o - x.addr
  match x.place with
  | .core => if o = x.addr then some core else none
  | .ctx => if x.addr ≤ o && n % 8 = 0 && n / 8 < 64 then some (core * 64 + n / 8) else none
  | .cluster4 => if core % 64 = 0 && x.addr ≤ o && n % 8 = 0 && n / 8 < 4 then some (core / 64 * 4 + n / 8) else none
  | .cluster => if core % 64 = 0 && o = x.addr then some (core / 64) else none
  | _ => none

/-- Find an access of some bytes (R13, R557): outside every block and window, narrower than 64 bits, misaligned, or at no register.
(DEDUCED, log 155) -/
def Dev.locate (d : Dev) (path : Path) (a bytes : Nat) : Located :=
  let block : Bool := a < 0x800000
  let win := coreWindow a
  if !block && win.isNone then .no 1
  else if bytes < 8 then .no 4
  else if a % 8 ≠ 0 then .no 3
  else
    match (Reg.all.findSome? fun r => (match win with
      | some (c, o) => windowCopy c o r
      | none => d.copyAt path r a).map fun i => (r, i)) with
    | some (r, i) => .at_ r i
    | none => .no 2

/-! ### What a write stores (R14, R16, R656) -/

/-- The RW fields of a register take the value's bits, and its W1C fields are cleared where the value has ones. -/
def storeFields (r : Reg) (i : Nat) (val : BitVec 64) : List Upd :=
  r.info.fields.filterMap fun f =>
    let x := bitsOf val f.hi f.lo
    match f.access with
    | .rw => some (setF ⟨r, f.hi, f.lo⟩ i x)
    | .w1c => if x ≠ 0 then some (setF ⟨r, f.hi, f.lo⟩ i 0) else none
    | _ => none

/-! ### Reserved values (R15) -/

/-- A value of THERM_CFG that R639 reserves. -/
def thermReserved (throttle trip hbmThrottle hbmTrip : Nat) : Bool :=
  125 < throttle || 125 < trip || 125 < hbmThrottle || 125 < hbmTrip || trip ≤ throttle + 5 || hbmTrip ≤ hbmThrottle + 5

/-- Whether a field value of KETTLE_TESTq is reserved (R638). -/
def kettleReserved (high low edge dwell : Nat) : Bool := 1500 < high || 1500 < low || edge < 10 || 10000 < edge || dwell = 0

/-- Whether a value holds a reserved encoding for a register (R15 and the field tables of the chapters). -/
def reservedValue (r : Reg) (val : BitVec 64) : Bool :=
  let g := fun (f : Fld) => bitsOf val f.hi f.lo
  match r with
  | .RING_CTL => 16 < g F.RING_CTL_LEN || g F.RING_CTL_MODE = 3
  | .CORE_ARRAYMODE => 1 < g F.CORE_ARRAYMODE_MODE_A || 1 < g F.CORE_ARRAYMODE_MODE_B
  | .HBM_SCRUB => g F.HBM_SCRUB_INTERVAL = 0
  | .VAULT_CTL => g F.VAULT_CTL_DEADLINE = 0
  | .SPM_SEL => coreCount ≤ g F.SPM_SEL_CORE
  | .SPM_SLOT => (List.range 16).any fun s => reservedEngine (bitsOf val (4 * s + 3) (4 * s))
  | .SPM_REGION => reservedEngine (bitsOf val 62 59) || reservedEngine (bitsOf val 58 55)
  | .SEQ_CFG => g F.SEQ_CFG_SLIP_LIMIT = 0
  | .SYNC_CFG => g F.SYNC_CFG_WAIT_WD = 0 || g F.SYNC_CFG_STREAM_WD = 0 || g F.SYNC_CFG_GRANT_WD = 0
  | .LINK_CFG => g F.LINK_CFG_SILENCE_TO = 0 || 900 < g F.LINK_CFG_SILENCE_TO || g F.LINK_CFG_REPLAY_MAX = 0 ||
      g F.LINK_CFG_REPLAY_TO = 0
  | .ROUTE_CFG => g F.ROUTE_CFG_CE_TH = 0 || g F.ROUTE_CFG_CNP_GAP = 0 || g F.ROUTE_CFG_RECOVER_T = 0 || g F.ROUTE_CFG_ADD = 0 ||
      g F.ROUTE_CFG_RMIN = 0 || g F.ROUTE_CFG_DRAIN_TO = 0 || g F.ROUTE_CFG_TRANSIT_MAX = 0 || 64 < g F.ROUTE_CFG_TRANSIT_MAX
  | .RECOV_CFG => g F.RECOV_CFG_BOUND = 0 || g F.RECOV_CFG_SILENT_TO < 2 || 100 < g F.RECOV_CFG_SILENT_TO || g F.RECOV_CFG_REPLAY_MAX = 0
  | .ETH_CTL => g F.ETH_CTL_MTU < 1280 || 9000 < g F.ETH_CTL_MTU || 2 < g F.ETH_CTL_MEDIA || 2 < g F.ETH_CTL_MODE
  | .ETH_CC => g F.ETH_CC_CNP_GAP = 0 || g F.ETH_CC_RECOVER_T = 0 || g F.ETH_CC_ADD = 0 || g F.ETH_CC_RMIN = 0 || g F.ETH_CC_PFC_XOFF = 0
  | .SVC_CFG => g F.SVC_CFG_DRAIN_STEPS = 0
  | .SVC_CMD => g F.SVC_CMD_OPCODE = 0 || 7 < g F.SVC_CMD_OPCODE
  | .CHAIN_CFG => g F.CHAIN_CFG_RETRY_TO = 0 || g F.CHAIN_CFG_RETRY_MAX = 0
  | .SEC_CFG => g F.SEC_CFG_REKEY_EXP < 32 || 46 < g F.SEC_CFG_REKEY_EXP
  | .SEC_CMD => g F.SEC_CMD_OPCODE = 0 || 6 < g F.SEC_CMD_OPCODE
  | .PWR_CAP => g F.PWR_CAP_WATTS < 1000 || 8000 < g F.PWR_CAP_WATTS
  | .KETTLE_CTL => g F.KETTLE_CTL_RAMP = 0 || 64 < g F.KETTLE_CTL_RAMP
  | .KETTLE_TEST => kettleReserved (g F.KETTLE_TEST_HIGH_A) (g F.KETTLE_TEST_LOW_A) (g F.KETTLE_TEST_EDGE_NS) (g F.KETTLE_TEST_DWELL_US)
  | .THERM_CFG => thermReserved (g F.THERM_CFG_THROTTLE_C) (g F.THERM_CFG_TRIP_C) (g F.THERM_CFG_HBM_THROTTLE_C) (g F.THERM_CFG_HBM_TRIP_C)
  | _ => false

/-- Registers that software writes in MAINTENANCE only (R110, R235, R236, R269, R307, R348, R391, R436, R482, R509, R548, R588, R615, R627,
R639). -/
def maintOnly (r : Reg) : Bool :=
  match r with
  | .CORE_ARRAYMODE | .SPM_SLOT | .SPM_REGION | .REG_CLASS | .SEQ_CFG | .SYNC_CFG | .LINK_CFG | .ROUTE_CFG | .RECOV_CFG | .DET_CTL
  | .ETH_CTL | .ETH_CC | .SVC_CFG | .CHAIN_CFG | .SEC_CFG | .KETTLE_TEST | .KETTLE_RUN | .KETTLE_AT | .THERM_CFG => true
  | _ => false

/-! ### Register records of an image (R577) -/

/-- The address of a DEFAULTS record. -/
def recReg (x : DefaultRec) : Nat := bitsOf x.addr 31 0
/-- The coordinate of a DEFAULTS record, none for ANY. -/
def recCoord (x : DefaultRec) : Option Coord := if bitOf x.addr 44 then none else some (BitVec.ofNat 12 (bitsOf x.addr 43 32))
/-- Whether a record is one for a coordinate. -/
def recFor (x : DefaultRec) (c : Coord) : Bool := recCoord x = none || recCoord x = some c

/-- Whether a record fails verification: an undefined register, a reserved encoding, or a reserved bit (R15, R577). -/
def recBad (x : DefaultRec) (d : Dev) : Bool :=
  bitsOf x.addr 63 45 ≠ 0 ||
    match d.locate .cymund (recReg x) 8 with
    | .at_ r _ => reservedValue r x.value
    | .no _ => true

/-- Store one record: its RW and W1C fields, the port's own way of taking LINK_CTL aside, ARM of RING_CTL held back and RING_LAUNCH kept as
an offset until the READY count is known (R577). -/
def recStore (x : DefaultRec) : Act := fun d =>
  match d.locate .cymund (recReg x) 8 with
  | .no _ => []
  | .at_ r i =>
    match r with
    | .RING_CTL =>
      let v := putBits x.value.toNat F.RING_CTL_ARM.hi F.RING_CTL_ARM.lo 0
      storeFields r i (BitVec.ofNat 64 v) ++
        (if bitOf x.value F.RING_CTL_ARM.lo then [Upd.start fun s => { s with heldArms := s.heldArms ++ [(i, x.value.toNat)] }] else [])
    | .RING_LAUNCH => [setF F.RING_LAUNCH_GCNT i (2 ^ 64 - 1),
        .start fun s => { s with launches := (s.launches.filter fun e => e.1 ≠ i) ++ [(i, x.value.toNat)] }]
    | .LINK_CTL => writeLinkCtl i x.value d
    | _ => storeFields r i x.value

/-- Apply the records of a section that are for a coordinate, in section order (R577). -/
def applyDefaults (c : Coord) (xs : List DefaultRec) : Act := forEach recStore (xs.filter fun x => recFor x c)

end Sys2Proof.Machine
end

