-- ==== Sys2Proof/Machine/Power.lean ====
section
/-! DEFINITION. Power, Kettle and health (16): performance points and throttles, sensors and trips, idle states, the Kettle test load,
MAINTENANCE, ageing samples and the end-of-life predictor (R618–R640). -/

namespace Sys2Proof.Machine

/-! ### Performance points (R618, R619, R630) -/

/-- The point that ought to be in force: the slowest of the requested point and the two throttle points (R618). -/
def Dev.pointWanted (d : Dev) : Nat := max (d.fld F.PWR_CTL_POINT) (max d.power.ptT d.power.ptP)

/-- THROTTLE_T and THROTTLE_P (R637): a throttle below the requested point. -/
def throttleBits : Act := fun d =>
  [setB F.PWR_STATUS_THROTTLE_T 0 (d.fld F.PWR_CTL_POINT < d.power.ptT), setB F.PWR_STATUS_THROTTLE_P 0 (d.fld F.PWR_CTL_POINT < d.power.ptP)]

/-- A write of PWR_CTL (R618, R636). -/
def writePwrCtl (val : BitVec 64) : Act :=
  inSequence [
    fun _ => [setF F.PWR_CTL_POINT 0 (bitsOf val 1 0), .power fun p => { p with bySoftware := true }],
    throttleBits ]

/-- PWR_CTL_WRITE (R618). -/
def pwrCtlWriteAct (r : Req) (val : BitVec 64) : Act := serve r fun _ => (answerOk, writePwrCtl val)

/-- POINT_CHANGE (R619): at most once per 1 ms; under a live slice the change is recorded for what it followed (R510). -/
def pointChangeAct : Act := fun d =>
  let p := d.power
  let early : Bool := p.changeAt.any fun t => d.now < t + 1000000
  if d.pointWanted = d.fld F.PWR_STATUS_POINT_EFF || early then [] else
    let live := d.liveRing.isSome
    [setF F.PWR_STATUS_POINT_EFF 0 d.pointWanted,
     .power fun p => { p with changeAt := some d.now, bySoftware := false, byThrottle := false }] ++
      (if live && p.bySoftware then flagDet F.DET_STATUS_POINT else []) ++
      (if live && p.byThrottle then flagDet F.DET_STATUS_THROTTLE else [])

/-- Whether some ms have passed since a count. -/
def Dev.heldMs (d : Dev) (t ms : Nat) : Bool := t + ms * 1000000 ≤ d.now

/-- One move of the thermal throttle point on a reading (R630).
(DEDUCED, log 185) -/
def stepThermal (hot cool : Bool) : Act := fun d =>
  let p := d.power
  if hot then
    let since := p.hotSince.getD d.now
    let due : Bool := d.heldMs since 1 && (match p.hotStep with | some t => d.heldMs t 10 | none => true) && p.ptT < 3
    [.power fun p => { p with hotSince := some since, coolSince := none
                              ptT := if due then p.ptT + 1 else p.ptT, hotStep := if due then some d.now else p.hotStep
                              byThrottle := p.byThrottle || due }] ++
      (if due then [addF F.THERM_CNT_STEPS 0 1] else [])
  else if cool then
    let since := p.coolSince.getD d.now
    let due : Bool := d.heldMs since 100 && 0 < p.ptT
    [.power fun p => { p with hotSince := none, hotStep := none, coolSince := some (if due then d.now else since)
                              ptT := if due then p.ptT - 1 else p.ptT, byThrottle := p.byThrottle || due }]
  else [.power fun p => { p with hotSince := none, hotStep := none, coolSince := none }]

/-- One move of the power throttle point on a reading; it rests during a test load (R630). -/
def stepPower (watts : Nat) : Act := fun d =>
  let p := d.power
  let cap := d.fld F.PWR_CAP_WATTS
  if p.test.isSome then []
  else if cap < watts then
    let due : Bool := (match p.overStep with | some t => d.heldMs t 10 | none => true) && p.ptP < 3
    [.power fun p => { p with underSince := none, ptP := if due then p.ptP + 1 else p.ptP
                              overStep := if due then some d.now else p.overStep, byThrottle := p.byThrottle || due }] ++
      (if due then [addF F.THERM_CNT_STEPS 0 1] else [])
  else if watts * 100 < cap * 95 then
    let since := p.underSince.getD d.now
    let due : Bool := d.heldMs since 100 && 0 < p.ptP
    [.power fun p => { p with overStep := none, underSince := some (if due then d.now else since)
                              ptP := if due then p.ptP - 1 else p.ptP, byThrottle := p.byThrottle || due }]
  else [.power fun p => { p with overStep := none, underSince := none }]

/-- What a reading adds to PWR_METER and THERM_CNT.MS (R637, R639): the input power and the requested point over the time since the last
one. -/
def meter (watts : Nat) : Act := fun d =>
  let dt := match d.power.readAt with | some t => d.now - t | none => 0
  let e := d.power.meterNs + watts * dt
  let below := if d.fld F.PWR_CTL_POINT < d.fld F.PWR_STATUS_POINT_EFF then d.power.belowNs + dt else d.power.belowNs
  [addF F.PWR_METER_ENERGY_MJ 0 (e / 1000000), addF F.THERM_CNT_MS 0 (below / 1000000),
   .power fun p => { p with readAt := some d.now, meterNs := e % 1000000, belowNs := below % 1000000 }]

/-- Whether a reading trips (R631): a trip temperature on two reads in a row, input voltage out of range for 100 µs, more than 8,000 W over
1 ms, or a regulation fault. -/
def Dev.trips (d : Dev) (x : Sensors) : Bool :=
  2 ≤ d.power.tripReads || (d.power.vinSince.any fun t => t + 100000 ≤ d.now) || 8000 < x.watts1 || x.regFault

/-- SENSOR_POLL (R629–R631, R637, R639, R654): one reading of the controller, every 100 µs.
(DESIGN CHOICE, log 184) -/
def sensorPollAct (x : Sensors) : Act := fun d =>
  let early : Bool := d.power.readAt.any fun t => d.now < t + 100000
  if d.mode = stOff || early then [] else
    let c := fun (f : Fld) => d.fld f
    let hot : Bool := c F.THERM_CFG_THROTTLE_C ≤ x.dieMax || c F.THERM_CFG_HBM_THROTTLE_C ≤ x.hbmMax
    let cool : Bool := x.dieMax + 5 < c F.THERM_CFG_THROTTLE_C && x.hbmMax + 5 < c F.THERM_CFG_HBM_THROTTLE_C
    let over_ : Bool := c F.THERM_CFG_TRIP_C ≤ x.dieMax || c F.THERM_CFG_HBM_TRIP_C ≤ x.hbmMax
    let vinBad : Bool := x.vinMv < 40000 || 60000 < x.vinMv
    inSequence [
      meter x.watts1,
      fun d => [setF F.THERM_STATUS_DIE_MAX 0 x.dieMax, setF F.THERM_STATUS_HBM_MAX 0 x.hbmMax, setF F.THERM_STATUS_HBM_STACK 0 x.hbmStack.val,
        setF F.THERM_STATUS_DIE_QUAD 0 x.dieQuad.val, setF F.PWR_STATUS_INPUT_W 0 x.watts10, setF F.BOARD_STATUS_VIN_MV 0 x.vinMv,
        .power fun p => { p with tripReads := if over_ then p.tripReads + 1 else 0
                                 vinSince := if vinBad then some (p.vinSince.getD d.now) else none }],
      stepThermal hot cool,
      stepPower x.watts10,
      throttleBits,
      fun d => if d.trips x then moduleFault 7 d else [] ] d

/-! ### Idle states (R620–R622) -/

/-- Exit latency of an idle state in ns (R620). -/
def exitLatency (st : Nat) : Nat :=
  match st with
  | 0 => 0
  | 1 => 2000
  | 2 => 300000
  | 3 => 15000000
  | _ => 1500000000

/-- Whether the conditions of an idle state hold, its tolerance aside (R621). -/
def Dev.mayIdle (d : Dev) (st : Nat) : Bool :=
  st = 0 ||
    ((d.mode = stReady || d.mode = stMaint) &&
      ([0, 1, 2, 3].all fun k => d.fld F.RING_STATUS_STATE k ≠ 1 && d.fld F.RING_STATUS_STATE k ≠ 2) &&
      d.chain.dma.isEmpty && d.svc.exports.isEmpty && !d.bit F.VAULT_CTL_INSTALL && d.power.test.isNone &&
      !d.bit F.SVC_CMD_STATUS_BUSY && !d.bit F.SEC_CMD_STATUS_BUSY &&
      (st < 4 || !d.bit F.DEV_COORD_VALID || (d.mode = stMaint && [0, 1, 2, 3, 4, 5].all fun p => !d.bit F.LINK_CTL_ENABLE p)))

/-- The deepest idle state, at most a given one, whose latency LTOL allows and whose conditions hold; a tolerance below 50 ns acts as 50 ns
(R621, R622). -/
def Dev.deepest (d : Dev) (most : Nat) : Nat :=
  (([4, 3, 2, 1].filter fun st => st ≤ most).find? fun st =>
    exitLatency st ≤ max 50 (d.fld F.LTOL_NS) && d.mayIdle st).getD 0

/-- Bring every Flalys port DOWN (R620, Dormant). -/
def portsDown : Act := fun d =>
  ([0, 1, 2, 3, 4, 5].filter fun p => d.linkState p ≠ lsDown).flatMap fun p =>
    [setF F.LINK_STATUS_STATE p lsDown, setF F.LINK_STATUS_ADMITTED p 0, Upd.port p fun _ => PortSt.init]

/-- Take an idle state: registers freeze for reads (R622), and Dormant loses the scratchpads and the ports (R620). -/
def enterIdle (st : Nat) : Act :=
  inSequence [
    onlyIf (st = 4) (inSequence [portsDown, fun _ => [.loseSpm]]),
    fun _ => [setF F.PWR_STATUS_STATE 0 st, .freeze true] ]

/-- IDLE_ENTER (R621): into the deepest state allowed, deeper than the present one, whose conditions have held for 1 ms, or for 100 ms for
Idle-3 and Dormant. -/
def idleEnterAct : Act := fun d =>
  let st := d.deepest (if d.heldMs d.power.quietAt 100 then 4 else if d.heldMs d.power.quietAt 1 then 2 else 0)
  if d.fld F.PWR_STATUS_STATE < st then enterIdle st d else []

/-- IDLE_EXIT (R622): a port that starts TRAIN wakes a Dormant module, a packet on VC0–VC3 or VC5 one in Idle-3. -/
def idleExitAct (cause : WakeCause) : Act := fun d =>
  match cause with
  | .train _ => onlyIf (d.fld F.PWR_STATUS_STATE = 4) wakeUp d
  | .packet vc => onlyIf (d.fld F.PWR_STATUS_STATE = 3 && vc.val ≠ 4) wakeUp d

/-- LANE_PRESENCE_DETECT (R620, R622): a peer on a DOWN port of a Dormant or spare module starts TRAIN there, and wakes it. -/
def lanePresenceDetectAct (p : Nat) : Act := fun d =>
  if d.linkState p = lsDown && (d.fld F.PWR_STATUS_STATE = 4 || d.bit F.DEV_COORD_SPARE) && d.mode ≠ stOff then
    inSequence [onlyIf (d.fld F.PWR_STATUS_STATE = 4) wakeUp, startTrain p] d
  else []

/-- A write of the latency tolerance (R622, R636): below the exit latency of the present state it moves the module to the deepest state that
the new value allows. -/
def writeLtol (val : BitVec 64) : Act := fun d =>
  inSequence [
    fun _ => [setF F.LTOL_NS 0 (bitsOf val 31 0)],
    noteQuiet,
    fun d =>
      let st := d.fld F.PWR_STATUS_STATE
      if max 50 (d.fld F.LTOL_NS) < exitLatency st then
        let to_ := d.deepest st
        if to_ = 0 then wakeUp d else [setF F.PWR_STATUS_STATE 0 to_]
      else [] ] d

/-- LTOL_WRITE (R622). -/
def ltolWriteAct (r : Req) (val : BitVec 64) : Act := serve r fun _ => (answerOk, writeLtol val)

/-- LTOL (R556): the message has the effect of the write; its reserved bits are zero.
(DEDUCED, log 156) -/
def ltolAct (r : Req) (val : BitVec 64) : Act :=
  framed (bitsOf val 63 32 = 0) (serve r fun _ => (answerOk, writeLtol val))

/-! ### Kettle settings and the test load (R623–R627, R638) -/

/-- A write of KETTLE_CTLq (R624): a change under a live slice is recorded. -/
def writeKettleCtl (q : Nat) (val : BitVec 64) : Act := fun d =>
  let changed := (storeFields .KETTLE_CTL q val).any fun u => match u with
    | .fld f i g => g (d.fld f i) ≠ d.fld f i
    | _ => false
  storeFields .KETTLE_CTL q val ++ (if changed && d.liveRing.isSome then flagDet F.DET_STATUS_KETTLE else [])

/-- The quadrants of a mask. -/
def quadsOf (m : Nat) : List Nat := [0, 1, 2, 3].filter fun q => m / 2 ^ q % 2 = 1

/-- Ticks of the rise to LOW_A at RAMP in a quadrant (R627). -/
def Dev.riseTicks (d : Dev) (q : Nat) : Nat :=
  (d.fld F.KETTLE_TEST_LOW_A q * 64 + max 1 (d.fld F.KETTLE_CTL_RAMP q) - 1) / max 1 (d.fld F.KETTLE_CTL_RAMP q)

/-- Ticks of one cycle of the wave in a quadrant (R626). -/
def Dev.waveTicks (d : Dev) (q : Nat) : Nat := 2 * d.fld F.KETTLE_TEST_EDGE_NS q + 2000 * d.fld F.KETTLE_TEST_DWELL_US q

/-- Cycles that a test has completed in every quadrant.
(DEDUCED, log 190) -/
def Dev.stepsDone (d : Dev) (t : KettleSt) : Nat :=
  match t.firstAt with
  | none => 0
  | some f =>
    let wave := (quadsOf t.qmask).foldl (fun m q => max m (d.waveTicks q)) 1
    let n := (d.now - f) / wave
    if t.steps = 4294967295 then n else min t.steps n

/-- End the test (R627). -/
def endTest : Act := fun d =>
  match d.power.test with
  | none => []
  | some t => [setF F.KETTLE_STATUS_STEPS_DONE 0 (d.stepsDone t), setF F.KETTLE_STATUS_RUNNING 0 0, .power fun p => { p with test := none }] ++
      noteQuiet d

/-- Whether a named KETTLE_TESTq holds a reserved value. -/
def Dev.testReserved (d : Dev) (q : Nat) : Bool :=
  kettleReserved (d.fld F.KETTLE_TEST_HIGH_A q) (d.fld F.KETTLE_TEST_LOW_A q) (d.fld F.KETTLE_TEST_EDGE_NS q) (d.fld F.KETTLE_TEST_DWELL_US q)

/-- A write of KETTLE_RUN (R627): GO starts a test, or completes at once with no load when STEPS is zero; STOP ends it.
(DEDUCED, log 191) -/
def writeKettleRun (val : BitVec 64) (d : Dev) : Answer × Act :=
  let steps := bitsOf val 63 32
  let qmask := bitsOf val 7 4
  let go := bitOf val 0
  let stop := bitOf val 1
  let put : Act := fun _ => [setF F.KETTLE_RUN_STEPS 0 steps, setF F.KETTLE_RUN_QMASK 0 qmask]
  let start : Act := fun d =>
    [setF F.KETTLE_STATUS_STEPS_DONE 0 0, setF F.KETTLE_STATUS_LATE 0 0] ++
      (if steps = 0 then [] else [setF F.KETTLE_STATUS_RUNNING 0 qmask, .power fun p => { p with test := some ⟨d.now, none, qmask, steps⟩ }])
  if d.mode ≠ stMaint then refuse 5
  else if go && (d.power.test.isSome || qmask = 0 || (quadsOf qmask).any d.testReserved) then refuse 5
  else (answerOk, inSequence [put, onlyIf go start, onlyIf stop endTest])

/-- GO (R627).
(DEDUCED, log 189) -/
def goAct (r : Req) (val : BitVec 64) : Act := serve r (writeKettleRun (val ||| 1))
/-- STOP (R627). -/
def stopAct (r : Req) (val : BitVec 64) : Act := serve r (writeKettleRun (val ||| 2))

/-- The count of the first cycle of a test: KETTLE_AT, or the end of the rise when that is later (R627). -/
def Dev.firstCycle (d : Dev) (t : KettleSt) : Nat :=
  max (d.fld F.KETTLE_AT_GCNT) (t.goAt + (quadsOf t.qmask).foldl (fun m q => max m (d.riseTicks q)) 0)

/-- KETTLE_FIRST_CYCLE (R627). -/
def kettleFirstCycleAct : Act := fun d =>
  match d.power.test with
  | none => []
  | some t =>
    let at_ := d.firstCycle t
    if t.firstAt.isSome || d.now < at_ then [] else
      [.power (fun p => { p with test := some { t with firstAt := some at_ } }),
       setB F.KETTLE_STATUS_LATE 0 (d.fld F.KETTLE_AT_GCNT < at_)]

/-- KETTLE_TEST_END (R627): the cycles asked for have run. -/
def kettleTestEndAct : Act := fun d =>
  match d.power.test with
  | none => []
  | some t => if t.firstAt.isSome && t.steps ≠ 4294967295 && d.stepsDone t = t.steps then endTest d else []

/-! ### MAINTENANCE (R628) -/

/-- Whether a binding no longer fits its module (R97, R494): a tile operation against the array modes and widths, or DET_MODE.
(DEDUCED, log 192) -/
def Dev.bindingFails (d : Dev) (k : Nat) : Bool :=
  let det : Bool := match d.ringSlice k with
    | some i => (d.slice i).detMode ≠ d.bit F.DET_CTL_DET_MODE
    | none => false
  det || match (d.ring k).sched.bind fun j => d.schedLib[j]? with
    | some s => (takersOf s).any fun e => (tilesIn e.2.ops).any fun t => tileBad (d.geom e.1) t
    | none => false

/-- A binding refused on leaving MAINTENANCE (R628): its context is idle, and its items complete with CFG_PLAN. -/
def refuseBinding (k : Nat) : Act := fun d =>
  [setF F.RING_STATUS_STATE k 0, setF F.RING_CTL_LIVE k 0, setF F.RING_CTL_ARM k 0,
   .ring k fun _ => { RingSt.init with refused := some (d.fld F.RING_CTL_PKEY k, cfgPlan) },
   .cores fun _ cs => { cs with live := if cs.live.any (fun b => b.ring = k) then none else cs.live
                                armed := if cs.armed.any (fun b => b.ring = k) then none else cs.armed }]

/-- MAINT_CTL.ENTER (R628). -/
def enterMaint (d : Dev) : Answer × Act :=
  if d.mode = stReady && [0, 1, 2, 3].all fun k => d.fld F.RING_STATUS_STATE k ≠ 1 && d.fld F.RING_STATUS_STATE k ≠ 2 then
    (answerOk, enterState stMaint)
  else refuse 5

/-- MAINT_CTL.LEAVE (R628): any test load stops, every binding is checked, and a relieved module is a spare. -/
def leaveMaint (d : Dev) : Answer × Act :=
  if d.mode ≠ stMaint || d.bit F.VAULT_CTL_INSTALL then refuse 5
  else (answerOk, inSequence [
    endTest,
    fun d => ([0, 1, 2, 3].filter fun k => (d.ring k).sched.isSome && d.bindingFails k).flatMap fun k => refuseBinding k d,
    onlyIf (d.bit F.SAFE_STATUS_RELINQUISHED) (fun _ => [setF F.DEV_COORD_VALID 0 0, setF F.DEV_COORD_SPARE 0 1]),
    enterState stReady ])

/-- A write of MAINT_CTL (R628, R636): each bit set acts, and a bit that its state refuses refuses the write. -/
def writeMaintCtl (val : BitVec 64) (d : Dev) : Answer × Act :=
  let acts := (if bitOf val 0 then [enterMaint d] else []) ++ (if bitOf val 1 then [leaveMaint d] else [])
  match acts.find? fun a => a.1 ≠ answerOk with
  | some a => a
  | none => (answerOk, inSequence (acts.map Prod.snd))

/-- ENTER (R628). -/
def enterAct (r : Req) : Act := serve r (waking (writeMaintCtl 1))
/-- LEAVE (R628). -/
def leaveAct (r : Req) : Act := serve r (waking (writeMaintCtl 2))

/-! ### Health (R632–R634, R640) -/

/-- Powered time of the module's life in ns. -/
def Dev.lived (d : Dev) : Nat := d.power.lived + d.now

/-- AGEING_SAMPLE (R632). -/
def ageingSampleAct (x : AgeSample) : Act := fun d => [.power fun p => { p with samples := p.samples ++ [(d.lived, x)] }]

/-- The subsystem of a sample: compute 0, HBM 1, SerDes 2, vault 3 (R640). -/
def sampleSub (x : AgeSample) : Nat :=
  match x with
  | .compute _ => 0
  | .hbm .. => 1
  | .serdes .. => 2
  | .vault .. => 3

/-- The values of an indicator in a sample (R632): canary slowdown, HBM re-reads and corrections, eye height and corrected codewords, vault
retries, retention age. -/
def sampleValues (ind : Nat) (x : AgeSample) : Option (List Nat) :=
  match ind, x with
  | 0, .compute s => some [s]
  | 2, .hbm _ r c => some [r, c]
  | 3, .serdes _ e c => some [e, c]
  | 4, .vault r _ => some [r]
  | 6, .vault _ a => some [a]
  | _, _ => none

/-- The history of an indicator; narrowed arrays (1) and MAX_WRITES (5) have the value their registers hold (R632). -/
def Dev.history (d : Dev) (ind : Nat) : List (Nat × List Nat) :=
  match ind with
  | 1 => [(d.lived, [d.fld F.DET_MAP_NARROWED])]
  | 5 => [(d.lived, [d.fld F.VAULT_WEAR_MAX_WRITES])]
  | _ => d.power.samples.filterMap fun s => (sampleValues ind s.2).map fun v => (s.1, v)

/-- The indicators of a subsystem. -/
def indicatorsOf (s : Nat) : List Nat :=
  match s with
  | 0 => [0, 1]
  | 1 => [2]
  | 2 => [3]
  | _ => [4, 5, 6]

/-- The smaller of two projections, part by part (R633). -/
def minProjection (a b : Nat × Nat × Nat) : Nat × Nat × Nat := (min a.1 b.1, min a.2.1 b.2.1, min a.2.2 b.2.2)

/-- The projection of a subsystem, in days, at most 0xFFFF (R633). -/
def Dev.projectSub (d : Dev) (s : Nat) : Nat × Nat × Nat :=
  ((indicatorsOf s).map fun ind => Config.project ind (d.history ind)).foldl minProjection (65535, 65535, 65535)

/-- Whether seven days of samples of a subsystem are held (R633, R640). -/
def Dev.weekHeld (d : Dev) (s : Nat) : Bool :=
  (d.power.samples.find? fun x => sampleSub x.2 = s).any fun x => x.1 + 604800000000000 ≤ d.lived

/-- The last sample of each kind, as HEALTH reports it: worst stack, lane, eye height, canary slowdown, retries, retention age. -/
def Dev.worst (d : Dev) : Nat × Nat × Nat × Nat × Nat × Nat :=
  d.power.samples.foldl (fun w s => match s.2 with
    | .compute x => (w.1, w.2.1, w.2.2.1, x, w.2.2.2.2.1, w.2.2.2.2.2)
    | .hbm st _ _ => (st.val, w.2.1, w.2.2.1, w.2.2.2.1, w.2.2.2.2.1, w.2.2.2.2.2)
    | .serdes l e _ => (w.1, l.val, e, w.2.2.2.1, w.2.2.2.2.1, w.2.2.2.2.2)
    | .vault r a => (w.1, w.2.1, w.2.2.1, w.2.2.2.1, r, a)) (0, 0, 0, 0, 0, 0)

/-- Arrays that lost a column at the last cold start: the NEW bits of CORE_ARRAYW (R109). -/
def Dev.newArrays (d : Dev) : Nat :=
  ((d.regs.filter fun e => e.1 / regCopies = (Reg.CORE_ARRAYW).ctorIdx).map fun e => e.2 / 2 ^ 30 % 2 + e.2 / 2 ^ 31 % 2).sum

/-- The body of a HEALTH event (R634). -/
def Dev.healthBody (d : Dev) : List Byte :=
  let three := fun (r : Nat) => leBytes 2 (bitsOf (BitVec.ofNat 64 r) 63 48) ++ leBytes 2 (bitsOf (BitVec.ofNat 64 r) 47 32) ++
    leBytes 2 (bitsOf (BitVec.ofNat 64 r) 31 16)
  let w := d.worst
  three (d.reg .HLTH_MODULE) ++ (([0, 1, 2, 3].map fun s => three (d.reg .HLTH_SUB s)).flatten) ++
    leBytes 2 (d.fld F.DET_MAP_NARROWED) ++ leBytes 2 d.newArrays ++ leBytes 1 w.1 ++ leBytes 1 w.2.1 ++ leBytes 2 w.2.2.1 ++
    leBytes 2 w.2.2.2.1 ++ leBytes 4 w.2.2.2.2.1 ++ leBytes 2 (d.fld F.VAULT_WEAR_MAX_WRITES) ++ leBytes 2 w.2.2.2.2.2 ++
    leBytes 1 (d.fld F.HLTH_MODULE_VALID + 2 * d.fld F.HLTH_MODULE_WARN + if d.newArrays = 0 then 0 else 4) ++ leBytes 15 0

/-- Write the estimates of one register pair (R640). -/
def putEstimate (r : Reg) (s : Nat) (p : Nat × Nat × Nat) (warn valid : Bool) : List Upd :=
  [setF ⟨r, 63, 48⟩ s (min 65535 p.1), setF ⟨r, 47, 32⟩ s (min 65535 p.2.1), setF ⟨r, 31, 16⟩ s (min 65535 p.2.2),
   setB ⟨r, 1, 1⟩ s warn, setB ⟨r, 0, 0⟩ s valid]

/-- One run of the predictor (R633, R634): projections combined, registers written, and a HEALTH event when the low bound is below
WARN_DAYS, a subsystem median has fallen by 10% since the last event, or `new` arrays were narrowed at this start. -/
def runPredictor (new : Bool) : Act := fun d =>
  let subs := [0, 1, 2, 3].map d.projectSub
  let all := subs.foldl minProjection (65535, 65535, 65535)
  let warnAt := d.fld F.HLTH_CFG_WARN_DAYS
  let fell : Bool := ((subs.map fun p => p.1).zip d.power.lastMedians).any fun e => e.1 * 10 ≤ e.2 * 9
  inSequence [
    fun d => ([0, 1, 2, 3].flatMap fun s =>
        let p := d.projectSub s
        putEstimate .HLTH_SUB s p (p.2.1 < warnAt) (d.weekHeld s)) ++
      putEstimate .HLTH_MODULE 0 all (all.2.1 < warnAt) ([0, 1, 2, 3].all d.weekHeld) ++
      [.power fun p => { p with ranAt := some d.now }],
    onlyIf (all.2.1 < warnAt || fell || new) (fun d =>
      [.event 10 d.healthBody, .power fun p => { p with lastMedians := subs.map fun x => x.1 }]) ] d

/-- PREDICTOR_RUN (R633): every 86,400 s of GCNT. -/
def predictorRunAct : Act := fun d =>
  if d.mode ≠ stOff && (d.power.ranAt.all fun t => t + 86400000000000 ≤ d.now) then runPredictor false d else []

end Sys2Proof.Machine
end

