-- ==== Sys2Proof/Machine/Image.lean ====
section
/-! DEFINITION. Image verification (14, 15): the reserved encodings that fail an image (R15), the limits of its plan (R398, R399, R575), the
checks of a slot (R600, R601), and the choice between the slots (R578). -/

namespace Sys2Proof.Machine

/-! ### Operations, cues and descriptors (R241, R277, R286–R296) -/

/-- An element format that is not a reserved code (R29, R287). -/
def formatOk (n : Nat) : Bool := 1 ≤ n && n ≤ 0x13

/-- A reserved value of ARITH (R129). -/
def arithReserved (a : BitVec 8) : Bool := bitOf a 7 || 6 ≤ bitsOf a 6 4 || 2 ≤ bitsOf a 1 0

/-- A TILE with a reserved encoding (R286, R287). -/
def tileReserved (w : BitVec 128) : Bool :=
  let t := tileFields w
  6 ≤ t.func || t.unit = 3 || arithReserved t.arith || !formatOk t.wfmt || !formatOk t.xfmt || !formatOk t.ofmt ||
    (if t.cuse then !formatOk t.cfmt else t.cfmt ≠ 0 || t.creg ≠ 0) || bitsOf w 2 0 ≠ 0

/-- A VEC with a reserved encoding (R286, R290). AADD alone has DFMT = 0. -/
def vecReserved (w : BitVec 128) : Bool :=
  let v := vecFields w
  let single := [7, 9, 10, 11, 12].contains v.fn
  v.fn = 0 || 12 < v.fn || arithReserved v.arith || !formatOk v.sfmt || !(formatOk v.dfmt || (v.fn = 12 && v.dfmt = 0)) ||
    (single && v.s2reg ≠ 0) || (v.fn ≠ 9 && v.fn ≠ 10 && v.row ≠ 0) || bitsOf w 10 0 ≠ 0

/-- An SFU with a reserved encoding (R286, R290). -/
def sfuReserved (w : BitVec 128) : Bool :=
  let v := vecFields w
  v.fn = 0 || 9 < v.fn || arithReserved v.arith || !formatOk v.sfmt || !formatOk v.dfmt || v.s2reg ≠ 0 || v.row ≠ 0 || bitsOf w 10 0 ≠ 0

/-- An operation word with a reserved opcode, a reserved encoding or a nonzero reserved bit (R286–R296). -/
def opReserved (w : BitVec 128) : Bool :=
  match opKind w with
  | none => true
  | some .nop => bitsOf w 119 0 ≠ 0
  | some .commit => bitsOf w 119 0 ≠ 0
  | some .setp => bitsOf w 115 112 ≠ 0 || bitsOf w 79 0 ≠ 0
  | some .loop => bitsOf w 70 0 ≠ 0
  | some .tile => tileReserved w
  | some .vec => vecReserved w
  | some .sfu => sfuReserved w
  | some .arm => bitsOf w 111 0 ≠ 0
  | some .rearm => 6 ≤ rearmSel w || bitsOf w 25 0 ≠ 0
  | some .swap => bitsOf w 113 0 ≠ 0
  | some .swait => bitsOf w 110 0 ≠ 0
  | some .signal => 3 ≤ signalKind w || bitsOf w 91 88 ≠ 0 || bitsOf w 46 0 ≠ 0
  | some .syncwait => 4 ≤ waitCond w || bitsOf w 103 88 ≠ 0 || bitsOf w 55 0 ≠ 0
  | some .digest => bitsOf w 94 0 ≠ 0

/-- A cue with a reserved trigger or a nonzero reserved bit (R277). -/
def cueReserved (w : BitVec 128) : Bool := cueTrig w = 0 || 4 < cueTrig w || bitsOf w 12 0 ≠ 0

/-- A stream descriptor with a reserved value or a nonzero reserved bit (R241).
(DEDUCED, log 49) -/
def streamReserved (w : BitVec 512) : Bool :=
  let op := bitsOf w 7 0
  let coded := bitOf w 12
  let format := bitsOf w 39 32
  (op ≠ 1 && op ≠ 2) || bitsOf w 20 19 = 3 || bitsOf w 23 21 ≠ 0 || bitsOf w 31 29 ≠ 0 ||
    (if coded then format < 0x20 || 0x24 < format else !formatOk format || bitsOf w 59 48 ≠ 0) ||
    1 < bitsOf w 47 40 || (bitsOf w 47 40 = 1 && !bitOf w 13) || bitsOf w 63 60 ≠ 0 || bitsOf w 127 103 ≠ 0 || bitsOf w 463 460 ≠ 0 ||
    bitsOf w 479 474 ≠ 0 || bitsOf w 495 492 ≠ 0 || bitsOf w 511 508 ≠ 0 || (!bitOf w 15 && bitsOf w 507 496 ≠ 0)

/-! ### Programs, schedules and tables -/

/-- A slot table that holds a reserved engine code (R188). -/
def slotReserved (w : BitVec 64) : Bool := (List.range 16).any fun s => reservedEngine (bitsOf w (4 * s + 3) (4 * s))

/-- A region entry with a reserved engine code, a field that is not zero as R273 asks, or a nonzero reserved bit. -/
def regionReserved (w : BitVec 64) : Bool := reservedEngine (regProdW w) || reservedEngine (regConsW w) || bitsOf w 30 0 ≠ 0

/-- A program with a reserved encoding (R273, R286). -/
def programReserved (p : Program) : Bool :=
  p.cues.any cueReserved || p.ops.any opReserved || p.streams.any streamReserved || p.slots.any slotReserved || p.regions.any regionReserved

/-- A row of a leaf table with a nonzero reserved bit (R250). -/
def leafRowReserved (w : BitVec 128) : Bool := bitsOf w 31 21 ≠ 0

/-- A row of the multicast table with a nonzero reserved bit (R252). -/
def groupReserved (w : BitVec 512) : Bool := bitsOf w 15 6 ≠ 0 || bitsOf w 511 432 ≠ 0

/-- A cluster record with a nonzero reserved bit (R250, R269). -/
def clusterReserved (c : ClusterRec) : Bool := c.leafTable.any leafRowReserved || c.regClass.any fun w => bitsOf w 62 28 ≠ 0

/-- A schedule with a reserved encoding (R272). -/
def scheduleReserved (s : Schedule) : Bool :=
  s.mode = 3 || s.programs.any programReserved || (s.clusters.any fun e => clusterReserved e.2) || s.mcast.any groupReserved

/-- An entry of a sync table with a reserved value or a nonzero reserved bit (R315).
(DEDUCED, log 50) -/
def syncReserved (e : BitVec 128) : Bool :=
  3 < bitsOf e 7 0 || 1 < bitsOf e 15 8 || (bitsOf e 15 8 = 1 && bitsOf e 31 16 ≠ 0) || bitsOf e 79 68 ≠ 0 ||
    (bitsOf e 7 0 = 2 && bitsOf e 127 122 ≠ 0) || (bitsOf e 7 0 = 3 && bitsOf e 127 96 ≠ 0)

/-- A sync table beyond its limits or with a reserved encoding (R315, R327). A release list of none is for the placement check. -/
def syncTableReserved (t : SyncTable) : Bool :=
  (t.entries.any fun e => 4096 ≤ e.1 || syncReserved e.2) || 1023 < t.releases.length || t.releases.any fun l => 511 < l.length

/-- An entry of the HBM region table with a reserved value (R213). -/
def hbmRegionReserved (e : BitVec 128) : Bool :=
  regionType e = 0 || 8 < regionType e || bitsOf e 15 10 ≠ 0 || bitsOf e 31 28 ≠ 0 || bitsOf e 127 96 ≠ 0

/-- A codec table with a reserved value; RND is round-to-nearest-even (R161). -/
def codecReserved (t : BitVec 128) : Bool :=
  bitsOf t 7 0 < 0x20 || 0x24 < bitsOf t 7 0 || bitsOf t 15 8 = 0 || 6 < bitsOf t 15 8 || arithReserved (BitVec.ofNat 8 (bitsOf t 23 16)) ||
    bitsOf t 17 16 ≠ 0 || bitsOf t 31 24 ≠ 0 || bitsOf t 127 52 ≠ 0

/-- Whether two used entries of a coordinate's interface table share a MAC or an IP address, or one is reserved or multicast (R517). -/
def ifaceTableBad (es : List (BitVec 256)) : Bool :=
  let used := es.filter fun e => bitsOf e 47 0 ≠ 0
  let shares := fun (a b : BitVec 256) => bitsOf a 47 0 = bitsOf b 47 0 || (bitsOf a 95 64 ≠ 0 && bitsOf a 95 64 = bitsOf b 95 64) ||
    (bitsOf a 223 96 ≠ 0 && bitsOf a 223 96 = bitsOf b 223 96)
  (es.any fun e => bitOf e 63 || 128 < bitsOf e 231 224 || bitsOf e 255 232 ≠ 0) || (used.any fun e => bitOf e 0) ||
    (List.range used.length).any fun i => (List.range used.length).any fun j => i < j &&
      match used[i]?, used[j]? with
      | some a, some b => shares a b
      | _, _ => false

/-- The SERVE section: two blocks of one PKEY, or a nonzero reserved bit (R528). -/
def serveBad (bs : List (BitVec 384)) : Bool :=
  (bs.any fun b => bitsOf b 31 12 ≠ 0 || bitsOf b 383 288 ≠ 0) || !(bs.map fun b => bitsOf b 11 0).Nodup

/-! ### The plan (R398, R399, R575) -/

/-- A shape within R398 and R399. -/
def shapeOk (v : Variant) : Bool :=
  let x := v.sx.toNat
  let y := v.sy.toNat
  let z := v.sz.toNat
  let b := v.zpb.toNat
  1 ≤ x && x ≤ 16 && 1 ≤ y && y ≤ 16 && 1 ≤ z && z ≤ 16 && x * y * z ≤ 512 && 1 ≤ b && x * y * b ≤ 64 && z % b = 0 && z / b ≤ 8

/-- The variants of a plan: variant 0 valid, the others with fewer blocks along Z, at most 32 readers each (R575). -/
def planOk (vs : List Variant) : Bool :=
  match vs with
  | [] => false
  | v :: rest => v.valid && vs.length ≤ 4 && (vs.all fun x => !x.valid || (shapeOk x && x.readers.length ≤ 32)) &&
      rest.all fun x => !x.valid || (x.sx = v.sx && x.sy = v.sy && x.zpb = v.zpb && x.sz.toNat < v.sz.toNat)

/-! ### A slot (R578, R600, R601) -/

/-- Whether the contents of an image break R15 or the plan's limits.
(DEDUCED, log 44) -/
def Dev.contentBad (d : Dev) (m : Image) : Bool :=
  !planOk m.variants || (m.defaults.any fun xs => xs.any fun x => recBad x d) || (m.ifaces.any fun t => (chunksOf t.length 8 t).any ifaceTableBad) ||
    256 < m.regions.length || m.regions.any hbmRegionReserved || 4095 < m.codecTables.length || m.codecTables.any codecReserved ||
    bitsOf m.digestK 127 64 = 0 || m.schedLib.any scheduleReserved || m.syncLib.any syncTableReserved || serveBad m.serve ||
    m.slices.any descReserved

/-- The result code of a slot (R600, R601): the first check that fails. A reserved encoding in what the image holds fails it as its
header would. -/
def Dev.slotResult (d : Dev) (m : Image) : Nat :=
  if !m.formed then 2
  else if !m.certsOk then 3
  else if !m.rsaOk then (if m.slhOk then 4 else 6)
  else if !m.slhOk then 5
  else if m.version.toNat < d.fld F.SEC_STATUS_ARB then 7
  else if d.contentBad m then 2
  else if !m.digestsOk then 8
  else 1

/-- The order in which ROM takes the slots (R578): the higher SERIAL among well-formed headers, slot 0 on a tie. -/
def slotOrder (m0 m1 : Image) : List Bool :=
  let one : Bool := if m0.formed && m1.formed then m0.serial.toNat < m1.serial.toNat else m1.formed
  if one then [true, false] else [false, true]

/-- What ROM finds (R578): the result codes of slots 0 and 1, the slot in use, and whether the first slot tried failed. -/
structure SlotChoice where
  code0 : Nat
  code1 : Nat
  use : Option Bool
  fallback : Bool
  deriving DecidableEq, Repr

/-- Try the slots in order until one is accepted and passes its digests; `kept` is the slot whose image a warm reset keeps, checked for its
digests alone (R571, R578). -/
def Dev.chooseSlot (d : Dev) (m0 m1 : Image) (kept : Option Bool) : SlotChoice :=
  let img := fun (s : Bool) => if s then m1 else m0
  let order := match kept with
    | some s => [s, !s]
    | none => slotOrder m0 m1
  let code := fun (s : Bool) => if kept = some s then (if (img s).digestsOk then 1 else 8) else d.slotResult (img s)
  let use := order.find? fun s => code s = 1
  let tried := fun (s : Bool) => order.head? = some s || use ≠ order.head?
  ⟨if tried false then code false else 0, if tried true then code true else 0, use, use ≠ order.head?⟩

end Sys2Proof.Machine
end

