-- ==== Sys2Proof/Machine/Vault.lean ====
section
/-! DEFINITION. The weight vault and the weight load (05, 14): vault reads, rebuilds from parity and failed groups (R215–R219), what a reader
sends where (R583), missing units, and when a module's regions are complete (R583–R585). -/

namespace Sys2Proof.Machine

/-! ### Vault blocks (R215, R216) -/

/-- Bytes of a vault block. -/
def vaultBlockBytes : Nat := 65536
/-- The parity group of a data block. -/
def groupOf (b : Nat) : Nat := b / 8
/-- The block that holds the parity of a group. -/
def parityBlock (g : Nat) : Nat := 33554432 + g

/-- A vault block. -/
def Dev.vblock (d : Dev) (b : Nat) : VaultBlock := mapGet (fun _ => VaultBlock.init) d.vault.blocks b

/-- Pad bytes with zeros to a length. -/
def padTo (n : Nat) (bs : List Byte) : List Byte := bs.take n ++ List.replicate (n - bs.length) 0

/-- The bytes of a vault block. -/
def Dev.blockBytes (d : Dev) (b : Nat) : List Byte := padTo vaultBlockBytes (d.vblock b).data

/-- The XOR of two byte strings of one length. -/
def xorBytes (a b : List Byte) : List Byte := List.zipWith (fun x y => x ^^^ y) a b

/-- A block rebuilt from the other seven of its group and the parity block (R215, R217). -/
def Dev.rebuilt (d : Dev) (b : Nat) : List Byte :=
  let g := groupOf b
  let others := ((List.range 8).map fun i => 8 * g + i).filter fun x => x ≠ b
  others.foldl (fun acc x => xorBytes acc (d.blockBytes x)) (d.blockBytes (parityBlock g))

/-- A leaf of a slot as its manifest maps it: its block, its place there, its direction, its forward day, and its record (R216). -/
structure VaultLeaf where
  block : Nat
  place : Nat
  dir : Dir
  day : Nat
  rec_ : List Byte
  deriving DecidableEq, Repr

/-- The first block of a slot (R220). -/
def Dev.slotBase (d : Dev) (slotB : Bool) : Nat := 8 * d.fld F.VAULT_SLOT_BASE (if slotB then 1 else 0)

/-- The leaves of a slot. -/
def Dev.slotLeaves (d : Dev) (slotB : Bool) : List VaultLeaf :=
  (Config.manifestLeaves (mapGet (fun _ => []) d.vault.manifest (if slotB then 1 else 0))).map fun e =>
    { block := d.slotBase slotB + e.1, place := e.2.1 % 4, dir := if e.2.2.1 then .ccw else .cw, day := e.2.2.2.1, rec_ := padTo 16 e.2.2.2.2 }

/-! ### Destinations (R55, R57, R583) -/

/-- The DEFAULTS records of the variant in force. -/
def Dev.planRecords (d : Dev) : List DefaultRec :=
  match d.start.image, d.start.variant with
  | some m, some v => (m.defaults[v]?).getD []
  | _, _ => []

/-- The value of a register of ring context `k` at a coordinate: the own one here, elsewhere the image's, or, where the image gives none, the
own one with the ring position of that coordinate.
(DEDUCED, log 48) -/
def Dev.destReg (d : Dev) (c : Coord) (r : Reg) (k : Nat) : BitVec 64 :=
  if c = d.here then BitVec.ofNat 64 (d.reg r k)
  else match (d.planRecords.filter fun x => recFor x c && d.locate .cymund (recReg x) 8 = .at_ r k).getLast? with
    | some x => x.value
    | none =>
      let pos := match (d.ringSlice k).bind fun i => (d.slice i).desc with
        | some e => d.offsetIn e c 0
        | none => 0
      BitVec.ofNat 64 (if r = .RING_CTL then putBits (d.reg r k) F.RING_CTL_POS.hi F.RING_CTL_POS.lo pos else d.reg r k)

/-- A field of a register of a ring context at a coordinate. -/
def Dev.destFld (d : Dev) (c : Coord) (f : Fld) (k : Nat) : Nat := bitsOf (d.destReg c f.reg k) f.hi f.lo

/-- The plan of a ring context at a coordinate. -/
def Dev.planAt (d : Dev) (c : Coord) (k : Nat) : RPlan :=
  { len := d.destFld c F.RING_CTL_LEN k, pos := d.destFld c F.RING_CTL_POS k, mode := d.destFld c F.RING_CTL_MODE k
    cwFirst := d.destFld c F.RING_PLAN_CW_FIRST k, ccwFirst := d.destFld c F.RING_PLAN_CCW_FIRST k
    daysCw := d.destFld c F.RING_DAYS_DAYS_CW k, daysCcw := d.destFld c F.RING_DAYS_DAYS_CCW k
    first := d.destFld c F.RING_YEARS_FIRST_YEAR k, count := d.destFld c F.RING_YEARS_COUNT k }

/-- The place of a forward day in its owner's share (R55). -/
def RPlan.fwdIndex (p : RPlan) (dir : Dir) (day owner : Nat) : Nat :=
  let inRun := day - runStart (p.fwdDays dir) p.len (p.ownRun dir owner)
  match dir with
  | .cw => inRun
  | .ccw => p.ownDays .cw owner + inRun

/-- What a leaf writes at a coordinate for a ring context, as addresses with bytes: its body and record in the owner's share, and in the shadow
of the owner's X+ neighbour (R55–R57, R583). -/
def Dev.leafWrites (d : Dev) (c : Coord) (k : Nat) (l : VaultLeaf) (body : List Byte) : List (Nat × List Byte) :=
  let p := d.planAt c k
  let own := p.runOwner l.dir (runOf (p.fwdDays l.dir) p.len l.day)
  let i := p.fwdIndex l.dir l.day own
  let put := fun (base : Nat) => [(bodyAddr base i, body), (recAddr base (p.shareLeaves own) i, l.rec_)]
  if p.len = 0 || p.fwdDays l.dir ≤ l.day then [] else
    (if own = p.pos then put (d.destFld c F.RING_SHARE_BASE k * 16384) else []) ++
      (if p.usesShadow && own = p.prevPos then put (d.destFld c F.RING_SHADOW_BASE k * 16384) else [])

/-- Write bytes into a module's regions: directly here, elsewhere as WRITE packets on VC5 (R583, R585). -/
def sendLoad (c : Coord) (k : Nat) (ws : List (Nat × List Byte)) : Act := fun d =>
  let pkey := BitVec.ofNat 12 (d.destFld c F.RING_CTL_PKEY k)
  let parts := ws.flatMap fun w => (pieces 4096 w.2).map fun x => (w.1 + x.1, x.2)
  if c = d.here then
    inSequence [
      forEach (fun (w : Nat × List Byte) => inSequence [writeHbm w.1 w.2 false, noteUnits w.1 w.2.length]) parts ] d
  else parts.map fun w => .inject { mkPacket ptWrite 5 d.here c pkey w.2 with addr := BitVec.ofNat 64 w.1 }

/-! ### Completeness (R583, R585) -/

/-- The units that a share or shadow of `n` leaves fills from a base, each with the bytes expected there. -/
def unitsOf (base n : Nat) : List (Nat × Nat) :=
  ((List.range n).map fun i => (base + i, 16384)) ++
    (List.range ((16 * n + 16383) / 16384)).map fun u => (base + n + u, min 16384 (16 * n - 16384 * u))

/-- The units of ring context `k` that a load fills here: the share, and the shadow where it is used. -/
def Dev.wantedUnits (d : Dev) (k : Nat) : List (Nat × Nat) :=
  let p := d.plan k
  if p.len = 0 then [] else
    unitsOf (d.fld F.RING_SHARE_BASE k) (p.shareLeaves p.pos) ++
      (if p.usesShadow then unitsOf (d.fld F.RING_SHADOW_BASE k) (p.shareLeaves p.prevPos) else [])

/-- The units of a ring context not yet received whole. -/
def Dev.missingUnits (d : Dev) (k : Nat) : List Nat :=
  ((d.wantedUnits k).filter fun u => mapGet (fun _ => 0) d.start.units u.1 < u.2).map Prod.fst

/-- Regions that are complete set their bit of CTX_LOADED; the last one sets DONE at start-up and is reported to the coordinator (R583,
R585). -/
def checkLoaded : Act := fun d =>
  let whole := d.start.loading.filter fun k => (d.missingUnits k).isEmpty
  let left := d.start.loading.filter fun k => !whole.contains k
  if whole.isEmpty then [] else
    [setF F.LOAD_STATUS_CTX_LOADED 0 (whole.foldl (fun m k => m ||| 2 ^ k) (d.fld F.LOAD_STATUS_CTX_LOADED)),
     .start fun s => { s with loading := left, units := if left.isEmpty then [] else s.units }] ++
    (if left.isEmpty then
      (if d.mode = stLoading then [setF F.LOAD_STATUS_DONE 0 1] else []) ++ [Upd.send (.mgmt d.coordinator .loadDone)]
     else [])

/-- An act after which a load may be complete. -/
def thenLoaded (a : Act) : Act := inSequence [a, checkLoaded]

/-- LAST_SEND_REPORT_RECEIVE (R583): the units not received are asked of the reader, over VC5. -/
def lastSendReportReceiveAct (src : Coord) (sec : Nat) : Act := fun d =>
  (d.start.loading.filter fun k => d.fld F.RING_CTL_SECTION k = sec).flatMap fun k =>
    (d.missingUnits k).map fun u => .send (.mgmt src (.unitRequest k u))

/-! ### Reading a slot (R583) -/

/-- Issue vault reads, or add to reads under way.
(DEDUCED, log 37) -/
def askBlocks (bs : List Nat) (g : VaultRead → VaultRead) : Act := fun d =>
  [.vault fun v => { v with reads := bs.foldl (fun rs b =>
      if rs.any fun r => r.block = b then rs.map fun r => if r.block = b then g r else r
      else rs ++ [g ⟨b, d.now, false, false, []⟩]) v.reads }]

/-- The blocks of the slot of a load. -/
def Dev.jobBlocks (d : Dev) (slotB : Bool) : List Nat := ((d.slotLeaves slotB).map fun l => l.block).dedup

/-- The end of a reader's sends: every module hears of it (R583). -/
def lastSend : Act := fun d =>
  match d.start.reader with
  | none => []
  | some j =>
    inSequence [
      fun _ => [.start fun s => { s with reader := some { j with reported := true } }],
      fun d => (d.allCoords.filter fun c => !d.isDead c).map fun c => .send (.mgmt c (.lastSend j.sect)) ] d

/-- Begin to read a slot for ring contexts (R583, R585).
(DEDUCED, log 47) -/
def startReader (j : ReaderJob) : Act := fun d =>
  let bs := d.jobBlocks j.slotB
  inSequence [
    fun _ => [.start fun s => { s with reader := some j }, setF F.LOAD_STATUS_READER 0 1, setF F.LOAD_STATUS_SECTION 0 j.sect,
      setF F.LOAD_STATUS_FAILED 0 0, setF F.LOAD_STATUS_REBUILDS 0 0],
    askBlocks bs fun r => { r with forLoad := true },
    onlyIf bs.isEmpty lastSend ] d

/-- The coordinates and contexts that a load writes to. -/
def Dev.loadTargets (d : Dev) (j : ReaderJob) : List (Coord × Nat) :=
  d.allCoords.flatMap fun c => (j.ctxs.filter fun k =>
    d.destFld c F.RING_CTL_SECTION k = j.sect && d.destFld c F.RING_CTL_BASE_GEN k = j.gen && d.destFld c F.RING_CTL_LEN k ≠ 0).map fun k => (c, k)

/-- Send what the load wants of a block. -/
def sendForLoad (b : Nat) (data : List Byte) : Act := fun d =>
  match d.start.reader with
  | none => []
  | some j =>
    let got := if j.got.contains b then j.got else j.got ++ [b]
    inSequence [
      forEach (fun (l : VaultLeaf) => fun d =>
        let body := (data.drop (16384 * l.place)).take 16384
        forEach (fun (t : Coord × Nat) => fun d => sendLoad t.1 t.2 (d.leafWrites t.1 t.2 l body) d) (d.loadTargets j) d)
        ((d.slotLeaves j.slotB).filter fun l => l.block = b),
      fun _ => [.start fun s => { s with reader := some { j with got := got } }],
      onlyIf ((d.jobBlocks j.slotB).all fun x => got.contains x) lastSend ] d

/-- The slot that holds the section and generation of a ring context of another module, as the chosen variant's reader entry for this module
names it (R575, R585). -/
def Dev.slotFor (d : Dev) (c : Coord) (k : Nat) : Option Bool :=
  ((d.start.image.bind fun m => d.start.variant.bind fun v => m.variants[v]?).bind fun v =>
    v.readers.find? fun r => r.coord = d.here && r.sect.toNat = d.destFld c F.RING_CTL_SECTION k &&
      r.baseGen.toNat = d.destFld c F.RING_CTL_BASE_GEN k).map fun r => r.slotB

/-- Send again the part of a block that lies in a unit of another module. -/
def sendForUnit (b : Nat) (data : List Byte) (w : Coord × Nat × Nat) : Act := fun d =>
  match d.slotFor w.1 w.2.1 with
  | none => []
  | some slotB =>
    forEach (fun (l : VaultLeaf) => fun d =>
      let body := (data.drop (16384 * l.place)).take 16384
      sendLoad w.1 w.2.1 ((d.leafWrites w.1 w.2.1 l body).filter fun x => x.1 / 16384 = w.2.2) d)
      ((d.slotLeaves slotB).filter fun l => l.block = b) d

/-- LOAD_UNIT_REQUEST (R206, R583): the blocks that hold the unit are read from the vault. -/
def loadUnitRequestAct (src : Coord) (k unit : Nat) : Act := fun d =>
  match d.slotFor src k with
  | none => []
  | some slotB =>
    let bs := (((d.slotLeaves slotB).filter fun l => (d.leafWrites src k l []).any fun x => x.1 / 16384 = unit).map fun l => l.block).dedup
    askBlocks bs (fun r => { r with wants := if r.wants.contains (src, k, unit) then r.wants else r.wants ++ [(src, k, unit)] }) d

/-! ### Delivery and rebuilds (R217, R218, R231) -/

/-- A block good or rebuilt goes to whoever wants it. -/
def deliverBlock (r : VaultRead) (data : List Byte) : Act :=
  inSequence [
    fun _ => [.vault fun v => { v with reads := v.reads.filter fun x => x.block ≠ r.block }],
    onlyIf r.forLoad (sendForLoad r.block data),
    forEach (sendForUnit r.block data) r.wants,
    checkLoaded ]

/-- A parity group with two bad or late blocks (R218, R584): the group is recorded and what asked for it fails; a weight load sets
LOAD_STATUS.FAILED, and the coordinator raises LOAD.
(DEDUCED, log 165) -/
def failGroup (g : Nat) : Act := fun d =>
  let load := d.vault.reads.any fun r => groupOf r.block = g && r.forLoad
  let keep := fun (r : VaultRead) => if !load then some r else if r.wants.isEmpty then none else some { r with forLoad := false }
  inSequence [
    fun _ => (if d.bit F.VAULT_ERR_DOUBLE then [] else [setF F.VAULT_ERR_FIRST_GROUP 0 g]) ++
      [setF F.VAULT_ERR_DOUBLE 0 1,
       .vault fun v => { v with bad := v.bad.filter fun b => groupOf b ≠ g, reads := (v.reads.filter fun r => groupOf r.block ≠ g).filterMap keep }],
    onlyIf load (fun _ =>
      [setF F.LOAD_STATUS_FAILED 0 1, .start fun s => { s with reader := s.reader.map fun j => { j with failed := true } }]),
    onlyIf (load && d.isCoord) (fun d => [.event 8 (leBytes 8 (d.reg .LOAD_STATUS))]) ] d

/-- A block is bad or late: a second one of its group fails the group, otherwise a rebuild starts (R217, R218). -/
def loseBlock (b : Nat) : Act := fun d =>
  if d.vault.bad.any fun x => x ≠ b && groupOf x = groupOf b then failGroup (groupOf b) d
  else
    let mark := fun (r : VaultRead) => if r.block = b then { r with rebuilding := true } else r
    [.vault fun v => { v with bad := if v.bad.contains b then v.bad else v.bad ++ [b], reads := v.reads.map mark }]

/-- VAULT_BLOCK_DELIVER (R217): a block that comes after its rebuild has started is discarded. -/
def vaultBlockDeliverAct (block : Nat) (crcOk : Bool) : Act := fun d =>
  match d.vault.reads.find? fun r => r.block = block with
  | none => []
  | some r =>
    if r.rebuilding then []
    else if crcOk then deliverBlock r (d.blockBytes block) d
    else inSequence [fun _ => [setF F.VAULT_ERR_CRC 0 1], loseBlock block] d

/-- VAULT_DEADLINE_EXPIRE (R217). -/
def vaultDeadlineExpireAct (block : Nat) : Act := fun d =>
  match d.vault.reads.find? fun r => r.block = block with
  | none => []
  | some r =>
    if r.rebuilding || !d.expired r.issued (d.fld F.VAULT_CTL_DEADLINE) then []
    else inSequence [fun _ => [setF F.VAULT_ERR_LATE 0 1], loseBlock block] d

/-- VAULT_REBUILD_DONE (R217–R219): with every other block of the group good, the parity block too, the block is rebuilt, delivered and
suspect; otherwise the group has failed. -/
def vaultRebuildDoneAct (block bad : Nat) : Act := fun d =>
  match d.vault.reads.find? fun r => r.block = block && r.rebuilding with
  | none => []
  | some r =>
    if bad = 0 then
      inSequence [
        fun _ => [addF F.VAULT_ERR_REBUILDS 0 1] ++ (if r.forLoad then [satF F.LOAD_STATUS_REBUILDS 0 1] else []) ++
          [.vault fun v => { v with bad := v.bad.filter fun x => x ≠ block
                                    suspect := if v.suspect.contains block then v.suspect else v.suspect ++ [block] }],
        deliverBlock r (d.rebuilt block) ] d
    else failGroup (groupOf block) d

end Sys2Proof.Machine
end

