-- ==== Sys2Proof/Machine/Startup.lean ====
section
/-! DEFINITION. Start-up (14, 17): release of reset, the coordinate walk, vacancies, the choice of a variant, weight load and placement, and
READY (R576–R586, R602, R608, R645). -/

namespace Sys2Proof.Machine

/-! ### Steps (R576, R591) -/

/-- The step of start-up in progress. -/
def Dev.bootStep (d : Dev) : Nat := d.fld F.BOOT_STATUS_STEP

/-- Begin a step. -/
def toStep (n : Nat) : Act := fun d => [setF F.BOOT_STATUS_STEP 0 n, .start fun s => { s with stepSince := d.now }]

/-- Whether some ms of GCNT have passed since the step began. -/
def Dev.stepMs (d : Dev) (ms : Nat) : Bool := d.start.stepSince + ms * 1000000 ≤ d.now

/-- Raise IMAGE (R568, R578, R596). -/
def imageEvent : Act := fun d => [.event 9 (leBytes 8 (d.reg .BOOT_STATUS))]

/-- Leave BOOT, or enter PLAN_WAIT: STATE and IMAGE (R568). -/
def leaveBoot (st : Nat) : Act := fun d =>
  inSequence [enterState st, onlyIf (d.mode = stBoot || (st = stPlanWait && d.mode ≠ stPlanWait)) imageEvent] d

/-- ELAPSED_MS (R591). -/
def elapsed : Act := fun d => [setF F.BOOT_STATUS_ELAPSED_MS 0 ((d.now - d.start.releasedAt) / 1000000)]

/-- A variant of the image in use. -/
def Dev.variantOf (d : Dev) (v : Nat) : Option Variant := (d.start.image.bind fun m => m.variants[v]?).filter fun x => x.valid

end Sys2Proof.Machine

namespace Sys2Proof

open Sys2Proof.Machine

/-- The shape of a variant. -/
def Variant.shape (v : Variant) : Nat × Nat × Nat := (bitsOf v.sx 4 0, bitsOf v.sy 4 0, bitsOf v.sz 4 0)

end Sys2Proof

namespace Sys2Proof.Machine

/-! ### Self test (R85, R90, R109, R511) -/

/-- CRC-32C, bit by bit, reflected (R511). -/
def crcBits : Nat → Nat → Nat
  | 0, c => c
  | n + 1, c => crcBits n (if c % 2 = 1 then Nat.xor (c / 2) 0x82F63B78 else c / 2)

/-- CRC-32C of bytes with initial value 0xFFFF_FFFF and final XOR 0xFFFF_FFFF. -/
def crc32c (bs : List Byte) : Nat := Nat.xor (bs.foldl (fun c b => crcBits 8 (Nat.xor c b.toNat)) 0xFFFFFFFF) 0xFFFFFFFF

/-- A reset word of CORE_ARRAYW: both arrays full. -/
def fullArrays : Nat := (Reg.CORE_ARRAYW).resetWord

/-- Arrays of a CORE_ARRAYW word that are narrower than 16 columns. -/
def narrowIn (w : Nat) : Nat := (if w / 2 ^ 20 % 32 < 16 then 1 else 0) + (if w / 2 ^ 25 % 32 < 16 then 1 else 0)

/-- A word of the self test with NEW bits for the arrays narrower than at the previous start (R90, R109). -/
def withNew (old w : Nat) : Nat :=
  let lost := fun (lo : Nat) => w / 2 ^ lo % 32 < old / 2 ^ lo % 32
  putBits (putBits w 30 30 (if lost 20 then 1 else 0)) 31 31 (if lost 25 then 1 else 0)

/-- DET_MAP from the CORE_ARRAYW words (R511). -/
def detMap : Act := fun d =>
  let words := (List.range coreCount).map fun c => d.reg .CORE_ARRAYW c % 4294967296
  [setF F.DET_MAP_NARROWED 0 ((words.map narrowIn).sum), setF F.DET_MAP_MAP_CRC 0 (crc32c (words.flatMap (leBytes 4)))]

/-- Built-in self test at a cold start (R85, R90, R510, R511, R634): CORE_ARRAYW, DET_MAP, the map of this start, and a run of the predictor,
which raises HEALTH for an array newly narrowed. -/
def selfTest (bist : SMap (BitVec 64)) : Act := fun d =>
  let old := fun (c : Nat) => (mapGet (fun _ => BitVec.ofNat 64 fullArrays) d.secure.arrayMap c).toNat
  let words := bist.filter fun e => e.1 < coreCount
  inSequence [
    fun _ => words.map fun e => setF (wholeReg .CORE_ARRAYW) e.1 (withNew (old e.1) (e.2.toNat % 2 ^ 30)),
    detMap,
    fun d => (if d.newArrays = 0 then [] else flagDet F.DET_STATUS_MAP_NEW) ++
      [.secure fun s => { s with arrayMap := words.map fun e => (e.1, BitVec.ofNat 64 (e.2.toNat % 2 ^ 30)) }],
    fun d => runPredictor (d.newArrays ≠ 0) d ] d

/-! ### Image and vault (R161, R578, R593, R600, R608) -/

/-- Record what ROM found of the slots. -/
def noteSlots (c : SlotChoice) : List Upd :=
  let put := fun (f : Fld) (n : Nat) => if n = 0 then [] else [setF f 0 n]
  put F.SEC_IMG_RESULT0 c.code0 ++ put F.SEC_IMG_RESULT1 c.code1 ++
    [setB F.BOOT_STATUS_SLOT0_FAIL 0 (1 < c.code0), setB F.BOOT_STATUS_SLOT1_FAIL 0 (1 < c.code1)] ++
    [setB F.BOOT_STATUS_FALLBACK 0 c.fallback, setB F.BOOT_STATUS_SLOT 0 (c.use = some true)]

/-- Step 4 (R576, R593): the sections of the image are in HBM region type 0x08. -/
def readSections (m : Image) : Act := fun _ =>
  [.image m.regions m.codecTables m.digestK m.schedLib m.syncLib, .start fun s => { s with image := some m },
   .svc fun s => { s with blocks := m.serve, adapters := m.adapters }, setF F.START_CFG_SPARE_WAIT 0 (if m.spareWait = 0 then 1500 else m.spareWait.toNat),
   setF F.CODEC_CFG_TABLES 0 m.codecTables.length, setF F.SEC_IMG_VERSION 0 m.version.toNat]

/-- Whether a slot word breaks R220: a size of zero, blocks beyond the last group, or an overlap with the other slot. -/
def slotWordBad (w other : BitVec 64) : Bool :=
  let base := fun (x : BitVec 64) => wordFld x F.VAULT_SLOT_BASE
  let size := fun (x : BitVec 64) => wordFld x F.VAULT_SLOT_SIZE
  size w = 0 || 4194304 < base w + size w ||
    (wordFld other F.VAULT_SLOT_PRESENT = 1 && base w < base other + size other && base other < base w + size w)

/-- Step 5 (R220, R608): present slots are checked; a slot that fails is treated as not present, and the vault is unlocked when an installation
secret is there and a slot passes. -/
def unlockVault (okA okB : Bool) : Act := fun d =>
  let a := d.vault.slotA
  let b := d.vault.slotB
  let ois := d.bit F.SEC_STATUS_OIS
  let present := fun (w other : BitVec 64) => wordFld w F.VAULT_SLOT_PRESENT = 1 && !slotWordBad w other
  let hmac := fun (w other : BitVec 64) (ok : Bool) => ois && present w other && !ok
  let kept := fun (w other : BitVec 64) (ok : Bool) => present w other && !hmac w other ok
  let put := fun (i : Nat) (w other : BitVec 64) (ok : Bool) =>
    setF (wholeReg .VAULT_SLOT) i (if kept w other ok then w.toNat else putBits w.toNat 63 63 0)
  let open_ : Bool := ois && (kept a b okA || kept b a okB)
  [put 0 a b okA, put 1 b a okB] ++ (if hmac a b okA then flagSec F.SEC_ERR_VAULT_KEY else []) ++
    (if hmac b a okB then flagSec F.SEC_ERR_VAULT_KEY else []) ++ [setB F.SEC_STATUS_VAULT_KEY 0 open_, setB F.VAULT_CTL_UNLOCKED 0 open_]

/-! ### The coordinate walk (R332, R579, R580) -/

/-- A module's own part of a REPORT (R579). -/
def Dev.ownReport (d : Dev) : ModReport :=
  { coord := d.here, uid := BitVec.ofNat 64 (d.reg .SEC_UID), slotA := BitVec.ofNat 64 (d.reg .VAULT_SLOT 0)
    slotB := BitVec.ofNat 64 (d.reg .VAULT_SLOT 1), unlocked := d.bit F.VAULT_CTL_UNLOCKED
    livePorts := (List.finRange 6).filter fun p => d.linkState p.val = lsUp
    miswired := (List.finRange 6).filter fun p => d.start.miswired.contains p.val
    detMap := BitVec.ofNat 64 (d.reg .DET_MAP), conflict := d.start.conflict }

/-- Take up reports, the newest of each coordinate. -/
def mergeReports (old new : List ModReport) : List ModReport := (old.filter fun r => !(new.any fun x => x.coord = r.coord)) ++ new

/-- Miswired ports known here: the own ones and those of the reports taken up.
(DEDUCED, log 160) -/
def countMiswired : Act := fun d =>
  let others := (d.start.tree.filter fun r => r.coord ≠ d.here).map fun r => r.miswired.length
  [setF F.PLAN_STATUS_MISWIRED 0 (min 1023 (d.start.miswired.length + others.sum))]

/-- The ports on which a module sends its ASSIGNs, with the coordinates (R579). -/
def Dev.assigns (d : Dev) : List (Nat × Coord) :=
  let c := d.here
  let put := fun (b : Bool) (p : Nat) (x : Coord) => if b then [(p, x)] else []
  put (cy c = 0 && cz c = 0 && cx c + 1 < d.axis 0) 0 (mkCoord (cx c + 1) (cy c) (cz c)) ++
    put (cz c = 0 && cy c + 1 < d.axis 1) 2 (mkCoord (cx c) (cy c + 1) (cz c)) ++
    put (cz c + 1 < d.axis 2) 4 (mkCoord (cx c) (cy c) (cz c + 1))

/-- The port toward the parent of a coordinate (R332): along the first axis where it is not 0, the shorter way round, a tie to minus. -/
def Dev.parentPort (d : Dev) (c : Coord) : Option Nat :=
  ([0, 1, 2].find? fun a => coordOn c a ≠ 0).map fun a =>
    let n := max 1 (d.axis a)
    portOf a (n < 2 * coordOn c a)

/-- Hops to the master along the parents (R332). -/
def Dev.depthOf (d : Dev) (c : Coord) : Nat :=
  ([0, 1, 2].map fun a => let n := max 1 (d.axis a); min (coordOn c a) (n - coordOn c a)).sum

/-- Mark a port miswired. -/
def miswire (p : Nat) : Act :=
  inSequence [
    fun _ => [.start fun s => { s with miswired := if s.miswired.contains p then s.miswired else s.miswired ++ [p] }],
    countMiswired ]

/-- A port whose NEIGHBOUR names another coordinate than R398 gives is miswired (R579). -/
def checkPeer (p : Nat) : Act := fun d =>
  match d.start.peers.find? fun e => e.1 = p with
  | some e => onlyIf (d.bit F.DEV_COORD_VALID && e.2 ≠ d.neighbour p) (miswire p) d
  | none => []

/-- NEIGHBOUR, and the ASSIGN due on a port, once the port is UP and a coordinate is held (R579). -/
def greet (p : Nat) : Act := fun d =>
  if !d.bit F.DEV_COORD_VALID || d.linkState p ≠ lsUp then [] else
    (match d.assigns.find? fun e => e.1 = p && !d.start.toPorts.contains p with
     | some e => [Upd.send (.portMsg p (.assign e.2 (d.start.seedUid.getD 0))), .start fun s => { s with toPorts := s.toPorts ++ [p] }]
     | none => []) ++ [Upd.send (.portMsg p (.neighbour d.here))]

/-- DEV_COORD for a coordinate in a shape (R433). -/
def setCoord (c : Coord) (sx sy sz zpb : Nat) : List Upd :=
  [setF F.DEV_COORD_X 0 (cx c), setF F.DEV_COORD_Y 0 (cy c), setF F.DEV_COORD_Z 0 (cz c), setF F.DEV_COORD_VALID 0 1,
   setF F.DEV_COORD_SPARE 0 0, setF F.DEV_COORD_SX 0 sx, setF F.DEV_COORD_SY 0 sy, setF F.DEV_COORD_SZ 0 sz,
   setF F.DEV_COORD_BLOCK 0 (cz c / max 1 zpb)]

/-- The time parent of a coordinate: (0, 0, 0) is master (R332). -/
def setParent (c : Coord) : Act := fun d =>
  match d.parentPort c with
  | none => [setF F.GCNT_STATUS_MASTER 0 1, setF F.GCNT_STATUS_PARENT 0 0, setF F.GCNT_STATUS_DEPTH 0 0]
  | some p => [setF F.GCNT_STATUS_PARENT 0 (parentCode p), setF F.GCNT_STATUS_DEPTH 0 (d.depthOf c)]

/-- Send the REPORT upward (R579). -/
def sendReport : Act := fun d =>
  match d.start.fromPort with
  | some p => [.send (.portMsg p (.report (d.ownReport :: d.start.tree))), .start fun s => { s with reported := true }]
  | none => []

/-- The coordinates of variant 0 with no report. -/
def Dev.vacant (d : Dev) : List Coord := d.allCoords.filter fun c => c ≠ d.here && !(d.start.tree.any fun r => r.coord = c)

/-- Count vacancies found, filled and left at the coordinator (R592). -/
def countVacant : Act := fun d =>
  let v := d.vacant
  let filled := d.start.wanted.filter fun c => !v.contains c
  [setF F.PLAN_STATUS_VACANT 0 v.length, setF F.PLAN_STATUS_FILLED 0 (min 1023 filled.length), .start fun s => { s with filled := filled }]

/-- Step 8 at the coordinator: every vacancy of variant 0 draws a SPARE_REQUEST with reason 0x01 (R581). -/
def vacancyFill : Act :=
  inSequence [
    toStep 8,
    fun d => [.start fun s => { s with wanted := d.vacant, reported := true }],
    countVacant,
    countMiswired,
    fun d => forEach (fun c => spareRequest c 1) d.vacant d ]

/-- Whether this module leads start-up: the seed, which holds (0, 0, 0) (R579). -/
def Dev.leads (d : Dev) : Bool := d.start.seed && d.bit F.DEV_COORD_VALID && d.here = 0 && d.start.fromPort.isNone

/-- Once the REPORTs of every module assigned have come, the own REPORT goes, or step 8 begins at the coordinator (R579, R581). -/
def tryReport : Act := fun d =>
  let s := d.start
  if !d.bit F.DEV_COORD_VALID || s.reported || !(d.assigns.all fun e => s.heardPorts.contains e.1) then []
  else if d.leads then vacancyFill d
  else inSequence [sendReport, toStep 8] d

/-- Take a coordinate (R579): DEV_COORD, the time parent, ASSIGNs and NEIGHBOURs on the ports that are UP. -/
def takeCoord (c : Coord) (uid : BitVec 32) (from_ : Option Nat) : Act := fun d =>
  let v := d.variantOf 0
  let (sx, sy, sz) := (v.map Variant.shape).getD (1, 1, 1)
  let zpb := (v.map fun x => bitsOf x.zpb 4 0).getD 1
  inSequence [
    fun _ => setCoord c sx sy sz zpb,
    setParent c,
    toStep 7,
    fun _ => [.start fun s => { s with seedUid := some uid, fromPort := from_, reported := false }],
    inSequence ([0, 1, 2, 3, 4, 5].map greet),
    inSequence ([0, 1, 2, 3, 4, 5].map checkPeer),
    tryReport ] d

/-- Step 7 begins: the seed takes (0, 0, 0) (R579). -/
def beginWalk : Act := fun d =>
  if d.start.seed then takeCoord 0 (BitVec.ofNat 32 (d.reg .SEC_UID)) none d else toStep 7 d

/-- ASSIGN_RECEIVE (R579, R580): the first is taken; a second makes its port miswired, and names a seed conflict when its seed differs. -/
def assignReceiveAct (p : Nat) (coord : Coord) (seedUid : BitVec 32) : Act := fun d =>
  if d.linkState p ≠ lsUp then []
  else if !d.bit F.DEV_COORD_VALID then
    onlyIf (!(d.fld F.PLAN_STATUS_PARKED = 1) && d.mode ≠ stOff) (takeCoord coord seedUid (some p)) d
  else inSequence [
    onlyIf (d.start.seedUid ≠ some seedUid) (fun _ => [.start fun s => { s with conflict := true }]),
    miswire p ] d

/-- NEIGHBOUR_RECEIVE (R579). -/
def neighbourReceiveAct (p : Nat) (coord : Coord) : Act := fun d =>
  if d.linkState p ≠ lsUp then [] else
    inSequence [
      fun _ => [.start fun s => { s with peers := (s.peers.filter fun e => e.1 ≠ p) ++ [(p, coord)] }],
      checkPeer p ] d

/-! ### The plan (R581, R582) -/

/-- What the coordinator knows of a coordinate. -/
def Dev.reportOf (d : Dev) (c : Coord) : Option ModReport :=
  if c = d.here then some d.ownReport else d.start.tree.find? fun r => r.coord = c

end Sys2Proof.Machine

namespace Sys2Proof

open Sys2Proof.Machine

/-- Whether a report shows a port UP and not miswired. -/
def ModReport.good (r : ModReport) (p : Nat) : Bool :=
  (r.livePorts.any fun x => x.val = p) && !(r.miswired.any fun x => x.val = p)

end Sys2Proof

namespace Sys2Proof.Machine

/-- The coordinates of a shape. -/
def coordsOf (sx sy sz : Nat) : List Coord :=
  (List.range sz).flatMap fun z => (List.range sy).flatMap fun y => (List.range sx).map fun x => mkCoord x y z

/-- The next coordinate along an axis of a shape. -/
def nextIn (sh : Nat × Nat × Nat) (c : Coord) (a : Nat) : Coord :=
  let n := match a with
    | 0 => sh.1
    | 1 => sh.2.1
    | _ => sh.2.2
  setOn c a ((coordOn c a + 1) % max 1 n)

/-- The length of an axis of a shape. -/
def axisOf (sh : Nat × Nat × Nat) (a : Nat) : Nat :=
  match a with
  | 0 => sh.1
  | 1 => sh.2.1
  | _ => sh.2.2

/-- Whether the link out of the plus port of a coordinate is UP and not miswired at both ends. -/
def Dev.linkGood (d : Dev) (sh : Nat × Nat × Nat) (c : Coord) (a : Nat) : Bool :=
  axisOf sh a ≤ 1 || match d.reportOf c, d.reportOf (nextIn sh c a) with
    | some r, some s => r.good (portOf a true) && s.good (portOf a false)
    | _, _ => false

/-- The (section, base generation) of the ring contexts that the image arms in a variant (R575, R582). -/
def Dev.armed (d : Dev) (v : Nat) : List (Nat × Nat) :=
  let xs := (d.start.image.bind fun m => m.defaults[v]?).getD []
  (xs.filterMap fun x => match d.locate .cymund (recReg x) 8 with
    | .at_ .RING_CTL _ => if wordFld x.value F.RING_CTL_ARM = 1 then
        some (wordFld x.value F.RING_CTL_SECTION, wordFld x.value F.RING_CTL_BASE_GEN) else none
    | _ => none).dedup

/-- The reader entries that start-up uses. -/
def Dev.startReaders (d : Dev) (v : Nat) : List ReaderEnt :=
  match d.variantOf v with
  | some x => x.readers.filter fun r => (d.armed v).contains (r.sect.toNat, r.baseGen.toNat)
  | none => []

end Sys2Proof.Machine

namespace Sys2Proof

open Sys2Proof.Machine

/-- Whether a report shows a slot present with a base generation, in an unlocked vault. -/
def ModReport.holds (r : ModReport) (slotB : Bool) (gen : Nat) : Bool :=
  let w := if slotB then r.slotB else r.slotA
  r.unlocked && wordFld w F.VAULT_SLOT_PRESENT = 1 && wordFld w F.VAULT_SLOT_GEN = gen

end Sys2Proof

namespace Sys2Proof.Machine

/-- The first condition of R582 that a variant fails: 1 VACANT, 2 RING, 3 READER, 5 SEED_CONFLICT; 0 when it fits. -/
def Dev.planFault (d : Dev) (v : Nat) : Nat :=
  match d.variantOf v with
  | none => 1
  | some x =>
    let sh := x.shape
    let cs := coordsOf sh.1 sh.2.1 sh.2.2
    if cs.any fun c => (d.reportOf c).isNone then 1
    else if cs.any fun c => !d.linkGood sh c 0 then 2
    else if (d.startReaders v).any fun r => !((d.reportOf r.coord).any fun m => m.holds r.slotB r.baseGen.toNat) then 3
    else if d.start.conflict || d.start.tree.any fun r => r.conflict then 5
    else 0

/-- The fault map that discovery gives for a shape (R413, R582): vacant coordinates, and links that are dead or miswired. -/
def Dev.discovered (d : Dev) (sh : Nat × Nat × Nat) : FaultMap :=
  let cs := coordsOf sh.1 sh.2.1 sh.2.2
  { links := cs.flatMap fun c => (([(0, 0), (1, 2), (2, 4)] : List (Nat × Fin 6)).filter fun e =>
      1 < axisOf sh e.1 && (d.reportOf c).isSome && (d.reportOf (nextIn sh c e.1)).isSome && !d.linkGood sh c e.1).map fun e => (c, e.2)
    dead := cs.filter fun c => (d.reportOf c).isNone }

/-! ### Weight load and placement (R445, R577, R583, R586) -/

/-- Step 10 (R583): the contexts that the image arms are loaded here, and a reader starts on its slot. -/
def beginLoad : Act := fun d =>
  let ks := d.start.heldArms.map Prod.fst
  let mine := (d.startReaders (d.start.variant.getD 0)).find? fun r => r.coord = d.here
  inSequence [
    toStep 10,
    leaveBoot stLoading,
    fun _ => [.start fun s => { s with loading := ks, units := [], dones := [], placedBy := [], placedSent := false, readyAt := none }],
    match mine with
    | some r => startReader ⟨[0, 1, 2, 3], r.slotB, r.sect.toNat, r.baseGen.toNat, [], false, false⟩
    | none => noAct,
    onlyIf ks.isEmpty (fun d => [setF F.LOAD_STATUS_DONE 0 1, .send (.mgmt d.coordinator .loadDone)]),
    checkLoaded ] d

/-- Park this module (R581). -/
def park : Act := fun d =>
  [setF F.DEV_COORD_SPARE 0 1, setF F.DEV_COORD_VALID 0 0, setF F.PLAN_STATUS_PARKED 0 1] ++
    [0, 1, 2, 3, 4, 5].map fun p => setF F.LINK_STATUS_ADMITTED p (if d.linkState p = lsUp then 0 else d.fld F.LINK_STATUS_ADMITTED p)

/-- Step 9 (R419, R577, R582): the variant's shape, DEFAULTS, interface table and slices; routing of epoch 0 from the fault map; then the
weight load. A module beyond the variant's shape is parked.
(DEDUCED, log 43) -/
def takePlan (v : Nat) (m : FaultMap) : Act := fun d =>
  match d.variantOf v with
  | none => []
  | some x =>
    let (sx, sy, sz) := x.shape
    if sz ≤ cz d.here then park d else
      inSequence [
        toStep 9,
        fun d => [.start fun s => { s with variant := some v, heldArms := [], launches := [] }, setF F.PLAN_STATUS_VARIANT 0 v,
          setF F.PLAN_STATUS_VARIANT_V 0 1, setF F.PLAN_STATUS_REASON 0 0] ++ setCoord d.here sx sy sz (bitsOf x.zpb 4 0),
        fun d => applyDefaults d.here d.planRecords d,
        fun d => [.svc fun s => { s with ifaces := d.ifaceTable v d.here }],
        fun d => forEach (fun s => fun d => onlyIf (d.allocStatus s = 0) (applyChange (.alloc s (d.bit F.DET_CTL_DET_MODE))) d)
          ((d.start.image.map fun i => i.slices).getD []) d,
        fun d => [.route fun r => { r with fmap := m, v0 := some ⟨m, m⟩, v1 := none, coord := { CoordSt.init with map := m } },
          setF F.ROUTE_EPOCH_CUR 0 0, setB F.ROUTE_EPOCH_COORD 0 (d.coordIn m = d.here)],
        admitPorts,
        beginLoad ] d

/-- PLAN_WAIT (R580, R582). -/
def planWait : Act := leaveBoot stPlanWait

/-- The coordinator chooses the lowest variant that fits and tells every module, or sends every module to PLAN_WAIT and raises PLAN (R582). -/
def chooseVariant : Act := fun d =>
  let others := d.start.tree.map fun r => r.coord
  match ([0, 1, 2, 3] : List (Fin 4)).find? fun v => d.planFault v.val = 0 with
  | some v =>
    let m := d.discovered ((d.variantOf v.val).map Variant.shape |>.getD (1, 1, 1))
    let sz := ((d.variantOf v.val).map Variant.shape |>.getD (1, 1, 1)).2.2
    inSequence [
      fun _ => [setF F.PLAN_STATUS_PARKED 0 (min 1023 (others.filter fun c => sz ≤ cz c).length)] ++
        others.map fun c => Upd.send (.mgmt c (.faultMap 0 m (some (.fits v)))),
      takePlan v.val m ] d
  | none =>
    let m := d.discovered ((d.variantOf 0).map Variant.shape |>.getD (1, 1, 1))
    inSequence [
      fun d => [setF F.PLAN_STATUS_REASON 0 (d.planFault 0)] ++ others.map fun c => Upd.send (.mgmt c (.faultMap 0 m (some .waits))),
      planWait,
      fun d => [.event 4 (leBytes 8 (d.reg .PLAN_STATUS))] ] d

/-- SPARE_WAIT_EXPIRE (R581, R582): the wait of step 8 ends when every vacancy is filled, or after SPARE_WAIT. -/
def spareWaitExpireAct : Act := fun d =>
  if d.leads && d.mode = stBoot && d.bootStep = 8 && (d.vacant.isEmpty || d.stepMs (d.fld F.START_CFG_SPARE_WAIT)) then
    chooseVariant d else []

/-- FAULT_MAP_RECEIVE (R413, R415, R582): a map of a later epoch is prepared; the first one carries the coordinator's choice.
(DEDUCED, log 173) -/
def faultMapReceiveAct (seq : BitVec 16) (map : FaultMap) (verdict : Option PlanVerdict) : Act := fun d =>
  let starting : Bool := d.bit F.DEV_COORD_VALID && (d.mode = stBoot || d.mode = stPlanWait || (d.mode = stReady && d.start.variant.isNone))
  match verdict with
  | none => [takeMap seq.toNat map]
  | some (.fits v) => onlyIf starting (takePlan v.val map) d
  | some .waits => onlyIf (starting && d.mode = stBoot) planWait d

/-- In PLAN_WAIT, what changes at the coordinator re-runs R581 and R582. -/
def rechoose : Act := fun d => if d.mode = stPlanWait && d.leads then inSequence [countVacant, chooseVariant] d else []

/-- REPORT_RECEIVE (R579, R581): reports of the subtree are collected, and one that comes after the own REPORT goes on at once. -/
def reportReceiveAct (p : Nat) (rep : List ModReport) : Act := fun d =>
  if d.linkState p ≠ lsUp || !d.bit F.DEV_COORD_VALID then [] else
    inSequence [
      fun _ => [.start fun s => { s with
        tree := mergeReports s.tree rep, heardPorts := if s.heardPorts.contains p then s.heardPorts else s.heardPorts ++ [p] }],
      countMiswired,
      fun d => if !d.start.reported then tryReport d
        else if d.leads then inSequence [onlyIf (d.bootStep = 8) countVacant, rechoose] d
        else match d.start.fromPort with
          | some q => [.send (.portMsg q (.report rep))]
          | none => [] ] d

/-- REPORT_TIMEOUT (R579): after 100 ms the REPORT goes without those that are missing. -/
def reportTimeoutAct : Act := fun d =>
  if d.bootStep ≠ 7 || !d.bit F.DEV_COORD_VALID || d.start.reported || !d.stepMs 100 then []
  else if d.leads then vacancyFill d
  else inSequence [sendReport, toStep 8] d

/-- NO_SEED_TIMEOUT (R580, R581): after 0.5 s of step 7 with UP ports and no ASSIGN; a module that heard a neighbour's coordinate is an extra and
is parked.
(DEDUCED, log 159) -/
def noSeedTimeoutAct : Act := fun d =>
  if d.mode ≠ stBoot || d.bootStep ≠ 7 || d.bit F.DEV_COORD_VALID || !d.stepMs 500 || !([0, 1, 2, 3, 4, 5].any fun p => d.linkState p = lsUp) ||
      d.bit F.DEV_COORD_SPARE then []
  else if d.start.peers.isEmpty then inSequence [fun _ => [setF F.PLAN_STATUS_REASON 0 4], planWait] d
  else park d

/-- NO_FLALYS_PORT_UP (R576): a module whose plan exceeds one module and that finds no port UP at the end of step 6 waits as a spare. -/
def noFlalysPortUpAct : Act := fun d =>
  let sh := ((d.variantOf 0).map Variant.shape).getD (1, 1, 1)
  if d.mode ≠ stBoot || d.bootStep ≠ 6 || sh = (1, 1, 1) || [0, 1, 2, 3, 4, 5].any fun p => d.linkState p = lsUp then [] else
    inSequence [fun _ => [setF F.DEV_COORD_SPARE 0 1], elapsed, leaveBoot stReady] d

/-- What start-up does when a port comes UP: the walk begins with the first, and later ones are greeted and reported (R576, R579, R582).
(DEDUCED, log 161, 162) -/
def portUp (p : Nat) : Act := fun d =>
  if d.linkState p ≠ lsUp then []
  else if d.mode = stBoot && d.bootStep = 6 then beginWalk d
  else if (d.mode = stBoot || d.mode = stPlanWait) && d.bit F.DEV_COORD_VALID then
    inSequence [
      greet p,
      onlyIf (d.start.reported && !d.leads) (fun d => match d.start.fromPort with
        | some q => [.send (.portMsg q (.report [d.ownReport]))]
        | none => []),
      rechoose ] d
  else []

/-- KX_DONE (R576, R579, R582, R606, R607): the exchange of a port completes; a port newly UP takes its part in start-up. -/
def kxDoneAct (p : Nat) (mac : List Byte) : Act := fun d =>
  let was := d.linkState p
  inSequence [kxDoneLink p mac, onlyIf (was ≠ lsUp) (portUp p)] d

/-- PLAN_RETRY (R569, R582): in PLAN_WAIT the plan check runs again. -/
def planRetry (d : Dev) : Answer × Act :=
  if d.mode = stPlanWait then (answerWith 0, rechoose) else refuse 5

/-! ### From loading to READY (R583, R586, R602) -/

/-- Whether the bindings that the image arms are placed here: each placed, or refused (R445, R586). -/
def Dev.placedAll (d : Dev) : Bool := d.start.heldArms.all fun e => d.placed e.1 || (d.ring e.1).sched.isNone

/-- The end of step 11 is reported to the coordinator (R586). -/
def checkPlaced : Act := fun d =>
  if d.mode = stLoading && d.bootStep = 11 && !d.start.placedSent && d.placedAll then
    [.start fun s => { s with placedSent := true }, .send (.mgmt d.coordinator .placed)]
  else []

/-- An act after which placement may be complete. -/
def thenPlaced (a : Act) : Act := inSequence [a, checkPlaced]

/-- Step 11 (R577): the ARM writes held back are applied. -/
def beginPlacement : Act := fun d =>
  if d.bootStep ≠ 10 || d.mode ≠ stLoading then [] else
    inSequence [
      toStep 11,
      fun d => forEach (fun (e : Nat × Nat) => fun d => (writeRingCtl e.1 (BitVec.ofNat 64 e.2) d).2 d) d.start.heldArms d,
      checkPlaced ] d

/-- Whether a list of coordinates holds every live module. -/
def Dev.allLive (d : Dev) (cs : List Coord) : Bool := (d.liveIn' d.route.fmap).all fun c => cs.contains c

/-- Add a coordinate to a list. -/
def addCoord (c : Coord) (cs : List Coord) : List Coord := if cs.contains c then cs else cs ++ [c]

/-- LOAD_DONE_REPORT (R583, R585): the coordinator collects; with every module done it moves the machine to step 11, or raises LOAD for a load
that ran beside. At other modules the coordinator's own report is that move.
(DEDUCED, log 163) -/
def loadDoneReportAct (src : Coord) : Act := fun d =>
  if !d.isCoord then onlyIf (src = d.coordinator) beginPlacement d
  else
    let cs := addCoord src d.start.dones
    if d.fld F.LOAD_STATUS_FAILED = 1 && d.mode = stLoading then [.start fun s => { s with dones := cs }]
    else if d.allLive cs then
      inSequence [
        fun _ => [.start fun s => { s with dones := [] }],
        if d.mode = stLoading then inSequence [
          fun d => ((d.liveIn' d.route.fmap).filter fun c => c ≠ d.here).map fun c => .send (.mgmt c .loadDone),
          beginPlacement ]
        else fun d => [.event 8 (leBytes 8 (d.reg .LOAD_STATUS))] ] d
    else [.start fun s => { s with dones := cs }]

/-- Take the READY count (R577, R586): launch offsets of the image become counts. -/
def takeReady (at_ : Nat) : Act := fun d =>
  if d.mode ≠ stLoading || d.bootStep ≠ 11 then [] else
    inSequence [
      toStep 12,
      fun d => [.start fun s => { s with readyAt := some at_ }] ++
        d.start.launches.map fun e => setF F.RING_LAUNCH_GCNT e.1 ((at_ + e.2) % 2 ^ 64) ] d

/-- PLACEMENT_REPORT_RECEIVE (R586): with every module through step 11, the READY count is named, 1 ms ahead.
(DEDUCED, log 174) -/
def placementReportReceiveAct (src : Coord) : Act := fun d =>
  if !d.isCoord || d.mode ≠ stLoading || d.bootStep ≠ 11 then [] else
    let cs := addCoord src d.start.placedBy
    let at_ := d.gcnt + 1000000
    [.start fun s => { s with placedBy := cs }] ++
      if d.allLive cs then
        (((d.liveIn' d.route.fmap).filter fun c => c ≠ d.here).map fun c => Upd.send (.mgmt c (.readyCount at_))) ++ takeReady at_.toNat d
      else []

/-- READY_COUNT_RECEIVE (R586). -/
def readyCountReceiveAct (at_ : BitVec 64) : Act := takeReady at_.toNat

/-- Raise the anti-rollback counter to the image's version; beyond 4,096 raises it holds (R602). -/
def raiseCounter : Act := fun d =>
  let v := d.fld F.SEC_IMG_VERSION
  if v ≤ d.fld F.SEC_STATUS_ARB then []
  else if 4096 ≤ d.secure.raises then flagSec F.SEC_ERR_ARB_WORN
  else [setF F.SEC_STATUS_ARB 0 v, .secure fun s => { s with raises := s.raises + 1 }]

/-- READY_ENTER (R586, R602): the READY count has come. -/
def readyEnterAct : Act := fun d =>
  if d.mode = stLoading && d.bootStep = 12 && (d.start.readyAt.any fun t => t ≤ d.now) then
    inSequence [enterState stReady, elapsed, raiseCounter] d
  else []

/-- BANK_LOAD_DONE (R275, R586). -/
def bankLoadAct (k : Nat) : Act := thenPlaced (bankLoadDoneAct k)

/-- MIRROR_ACK_RECEIVE (R445, R447, R450, R586). -/
def mirrorHeldAct (i : Nat) (step : Option Nat) : Act := thenPlaced (mirrorAckReceiveAct i step)

/-- WRITE_PACKET_RECEIVE (R361, R583). -/
def writeReceiveAct (port : Nat) (p : Packet) : Act := thenLoaded (writePacketReceiveAct port p)

/-! ### LOAD_RETRY and WEIGHT_LOAD (R584, R585) -/

/-- LOAD_RETRY (R569, R584): the failed section is read again. -/
def loadRetry (d : Dev) : Answer × Act :=
  match d.start.reader with
  | some j => if j.failed then (answerWith 0, startReader { j with got := [], reported := false, failed := false }) else refuse 5
  | none => refuse 5

/-- Whether a load is in progress (R585). -/
def Dev.loadRuns (d : Dev) : Bool :=
  d.mode = stLoading || !d.start.loading.isEmpty || d.start.reader.any fun j => !j.reported && !j.failed

/-- What WEIGHT_LOAD checks at the coordinator (R585). -/
def Dev.weightLoadBad (d : Dev) (k : Nat) : Bool :=
  let st := d.fld F.RING_STATUS_STATE k
  let g := d.fld F.RING_CTL_BASE_GEN k
  let live := d.liveRing
  let readers := ((d.start.variant.bind d.variantOf).map fun v => v.readers).getD []
  let mine := readers.filter fun r => r.sect.toNat = d.fld F.RING_CTL_SECTION k && r.baseGen.toNat = g
  (d.ringSlice k).isNone || d.fld F.RING_CTL_LEN k = 0 || st = 1 || st = 2 || (live.any fun j => d.fld F.RING_CTL_BASE_GEN j = g) ||
    mine.isEmpty || (mine.any fun r => !((d.reportOf r.coord).any fun m => m.holds r.slotB g)) || d.loadRuns

/-- A module's own part of a WEIGHT_LOAD (R585): its regions of the context are awaited, and a reader starts on its slot. -/
def beginWeightLoad (k : Nat) : Act := fun d =>
  let readers := ((d.start.variant.bind d.variantOf).map fun v => v.readers).getD []
  let sect := d.fld F.RING_CTL_SECTION k
  let g := d.fld F.RING_CTL_BASE_GEN k
  inSequence [
    fun d => [setF F.LOAD_STATUS_CTX_LOADED 0 (d.fld F.LOAD_STATUS_CTX_LOADED &&& (15 - 2 ^ k)), setF F.LOAD_STATUS_FAILED 0 0,
      .start fun s => { s with loading := [k], units := [], dones := [] }],
    match readers.find? fun r => r.coord = d.here && r.sect.toNat = sect && r.baseGen.toNat = g with
    | some r => startReader ⟨[k], r.slotB, sect, g, [], false, false⟩
    | none => noAct,
    checkLoaded ] d

/-- WEIGHT_LOAD (R585): the coordinator checks and passes it on; another module does its own part.
(DEDUCED, log 164) -/
def weightLoad (k : Nat) (d : Dev) : Answer × Act :=
  if !d.isCoord then (answerWith 0, beginWeightLoad k)
  else if d.weightLoadBad k then (answerWith cfgPlan, noAct)
  else (answerWith 0, inSequence [
    fun d => ((d.liveIn' d.route.fmap).filter fun c => c ≠ d.here).map fun c => .send (.mgmt c (.weightLoad k)),
    beginWeightLoad k ])

/-- A write of RING_SHARE or RING_SHADOW, or a removal of the slice, clears the context's bit of CTX_LOADED (R585). -/
def unload (k : Nat) : Act := fun d =>
  [setF F.LOAD_STATUS_CTX_LOADED 0 (d.fld F.LOAD_STATUS_CTX_LOADED &&& (15 - 2 ^ k))]

/-! ### Release of reset (R571, R576, R596, R645, R649) -/

/-- Steps 2 to 6 with an image in use: self test at a cold start, sections, vault, and the ports. -/
def startSteps (b : BootInput) (cold : Bool) (m : Image) : Act :=
  inSequence [
    toStep 2,
    onlyIf cold (selfTest b.bist),
    toStep 3,
    toStep 4,
    readSections m,
    toStep 5,
    unlockVault b.manifestA b.manifestB,
    toStep 6,
    fun d =>
      let sh := ((d.variantOf 0).map Variant.shape).getD (1, 1, 1)
      if sh = (1, 1, 1) then beginWalk d
      else inSequence ([0, 1, 2, 3, 4, 5].map fun p => onlyIf (1 < axisOf sh (portAxis p)) (startTrain p)) d ]

/-- From step 1: the secure element and the PUF at a cold start, then the image (R571, R578, R596).
(DEDUCED, log 9) -/
def startFrom (b : BootInput) : Act := fun d =>
  let cold := !d.start.warm
  let stop : Bool := cold && !(b.seOk && b.pufOk)
  let kept : Option Bool := if cold || d.start.image.isNone then none else some (d.bit F.BOOT_STATUS_SLOT)
  let c := d.chooseSlot b.slot0 b.slot1 kept
  inSequence [
    onlyIf cold (fun _ => [setB F.SEC_STATUS_SE 0 b.seOk, setB F.SEC_STATUS_PUF 0 (b.seOk && b.pufOk),
      setB F.SEC_STATUS_IDENTITY 0 (b.seOk && b.pufOk)] ++
      (if !b.seOk then flagSec F.SEC_ERR_SE else if !b.pufOk then flagSec F.SEC_ERR_PUF else [])),
    onlyIf stop imageEvent,
    onlyIf (!stop) (inSequence [
      fun _ => noteSlots c,
      match c.use with
      | none => imageEvent
      | some s =>
        let m : Image := if kept = some s then (d.start.image.getD b.slot0) else if s then b.slot1 else b.slot0
        startSteps b cold m ]) ] d

/-- RESET_RELEASE (R332, R576, R645, R648, R649): straps are sampled at the release of RESET_N, GCNT starts, BOOT begins, and VIN is checked. A
RESET command releases the internal reset in the same way, with the straps as they were.
(DEDUCED, log 158) -/
def resetReleaseAct (b : BootInput) : Act := fun d =>
  let pin : Bool := d.fld F.BOARD_STATUS_CAUSE ≤ 1
  let low : Bool := b.vinMv < 40000 || 60000 < b.vinMv
  if !d.board.vsb12 || !(d.board.resetLow || !d.start.started) then [] else
    inSequence [
      fun _ => [.gcnt 0, .board fun x => { x with resetLow := false, stopped := false, refclk := true }, setF F.BOARD_STATUS_VIN_MV 0 b.vinMv] ++
        (if pin then [setB F.BOARD_STATUS_SEED_N 0 b.seedN, setB F.BOARD_STATUS_FLASH_DUAL 0 b.flashDual,
          setB F.BOARD_STATUS_I3C_SA1 0 b.sa1, setB F.BOARD_STATUS_I3C_SA0 0 b.sa0] else []),
      fun d => [.start fun s => { s with started := true, releasedAt := 0, seed := !d.bit F.BOARD_STATUS_SEED_N }],
      enterState (if low then stOff else stBoot),
      onlyIf low (inSequence [fun _ => [setF F.BOARD_STATUS_VIN_LOW 0 1], driveFault true]),
      onlyIf (!low) (startFrom b) ] d

end Sys2Proof.Machine
end

