-- ==== Sys2Proof/Machine/Takeover.lean ====
section
/-! DEFINITION. Take-over by a spare (11, 14, 15): its attestation at the coordinator, ASSIGN or TAKEOVER, what it takes up, and RESTORE (R335,
R469–R471, R475, R499, R511, R546, R581, R604). -/

namespace Sys2Proof.Config

/-- Queue pairs, requests and handle counter in the committed request progress of a slice that the mirror returns to a spare (R444, R546):
the committed state's bytes have no layout in the spec.
(DESIGN CHOICE, log 95, 142) -/
opaque committedService : BitVec 12 → SMap Machine.QpSt × List Machine.SvcReq × Nat

/-- The core state records of a coordinate that its buddy returns (R448, R470).
(DESIGN CHOICE, log 95) -/
opaque committedCores : BitVec 12 → Coord → List Machine.CoreRec

end Sys2Proof.Config

namespace Sys2Proof.Machine

/-! ### The coordinator's check (R469, R581, R604) -/

/-- Whether a spare's attestation matches the machine's image (R604). -/
def Dev.spareOk (d : Dev) (a : SpareReport) : Bool :=
  a.sigsOk && d.start.image.any fun m =>
    a.mImage = m.mImage && a.mPlan = m.mPlan && a.owner = d.secure.owner && a.arb.toNat ≤ m.version.toNat

/-- What TAKEOVER carries (R469).
(DEDUCED, log 168) -/
def Dev.takeOverOf (d : Dev) (c : Coord) : TakeOver :=
  let five := fun (n : Nat) => BitVec.ofNat 5 n
  { coord := c, sx := five (d.axis 0), sy := five (d.axis 1), sz := five (d.axis 2), zpb := five d.zpb, epoch := d.epoch
    seq := BitVec.ofNat 16 (d.fld F.ROUTE_EPOCH_MAP_SEQ), map := d.route.fmap
    slices := (List.finRange 256).filterMap fun i => (d.slice i.val).desc.map fun s => (i, s, (d.slice i.val).committedInt) }

/-- Ports toward a vacancy from its neighbours, the X− neighbour first (R581): the neighbour, and its port. -/
def Dev.besideOf (d : Dev) (c : Coord) : List (Coord × Nat) :=
  ([1, 0, 3, 2, 5, 4].filter fun p => 1 < d.axis (portAxis p)).map fun p => (d.farEnd c p, oppositePort p)

/-- ASSIGN to a spare that fills a vacancy, through a neighbour whose port to it is UP (R581). -/
def assignSpare (c : Coord) : Act := fun d =>
  match (d.besideOf c).find? fun e => (d.reportOf e.1).any fun r => r.livePorts.any fun p => p.val = e.2 with
  | some (n, p) =>
    let m := d.start.seedUid.getD 0
    if n = d.here then [.send (.portMsg p (.assign c m))] else [.send (.mgmt n (.assign c m))]
  | none => []

/-- Whether every link of a dead coordinate is UP again (R469). -/
def Dev.linksBack (d : Dev) (c : Coord) : Bool :=
  d.route.coord.map.dead.contains c && !d.route.coord.map.links.any fun e => e.1 = c || d.farEnd e.1 e.2.val = c

/-- SPARE_ATTESTATION_RECEIVE (R469, R581, R604): a spare that matches fills a vacancy of start-up, or takes a dead coordinate and is admitted
by the next flip; one that fails is not assigned.
(DEDUCED, log 167) -/
def spareAttestationReceiveAct (_p : Nat) (a : SpareReport) : Act := fun d =>
  if !d.isCoord then []
  else if !d.spareOk a then flagSec F.SEC_ERR_ATTEST
  else if d.mode = stBoot || d.mode = stPlanWait then onlyIf (d.leads && d.vacant.contains a.coord) (assignSpare a.coord) d
  else if d.linksBack a.coord then
    inSequence [fun d => [.send (.mgmt a.coord (.takeover (d.takeOverOf a.coord)))], admitSpare a.coord] d
  else []

/-! ### TAKEOVER at the spare (R433, R469) -/

/-- The variant of the image that has a shape. -/
def Dev.variantFor (d : Dev) (sh : Nat × Nat × Nat) : Option Nat :=
  [0, 1, 2, 3].find? fun v => (d.variantOf v).any fun x => x.shape = sh

/-- The slice map and the fence that holds its slices here (R467, R469). -/
def takeSlices (t : TakeOver) : Act := fun d =>
  t.slices.map fun e =>
    let s := e.2.1
    let part : Bool := d.isMember s d.here || d.isTransit s d.here
    Upd.slice e.1.val fun _ => { SliceSt.init with
      desc := some s, detMode := d.bit F.DET_CTL_DET_MODE, committed := if (e.2.2 : Int) < 0 then none else some (Int.toNat e.2.2)
      fenced := part, fenceAt := d.now, fenceCls := if part then 3 else 0, flipsAt := d.fld F.ROUTE_EPOCH_FLIPS
      rstate := if d.isMember s d.here then 3 else if part then 2 else 0
      replaced := if part then (d.members s).filter fun c => c = d.here || t.map.dead.contains c else [] }

/-- Place a binding of the coordinate (R274, R469): the mirror of its state stands at the buddy, and the share is not in place. -/
def takeBinding (e : Nat × Nat) : Act := fun d =>
  inSequence [
    (writeRingCtl e.1 (BitVec.ofNat 64 e.2) d).2,
    fun d => if d.fld F.RING_STATUS_STATE e.1 = 1 then
      [.ring e.1 fun r => { r with mirrorHeld := true, shareOk := (d.plan e.1).len ≤ 1 }] else [] ] d

/-- Whether the reader's vault gives back the share of a context: on a ring of one outside TRAIN_FULL, or with a ring neighbour replaced too
(R475). -/
def Dev.shareFromVault (d : Dev) (k : Nat) : Bool :=
  let p := d.plan k
  let gone := fun (pos : Nat) => (d.ringSlice k).any fun i => (d.slice i).replaced.contains (d.ringModule k pos)
  if p.len ≤ 1 then p.len = 1 && p.mode ≠ 2 else gone p.nextPos || gone p.prevPos

/-- Ask the readers for the shares that the vaults give back (R475, R583).
(DEDUCED, log 169) -/
def askShares : Act := fun d =>
  let ks := (d.start.heldArms.map Prod.fst).filter d.shareFromVault
  [.start fun s => { s with loading := ks, units := [] }] ++
    ks.flatMap fun k => match d.readerOf (d.fld F.RING_CTL_SECTION k) with
      | some r => (d.missingUnits k).map fun u => Upd.send (.mgmt r (.unitRequest k u))
      | none => []

/-- The time parent of a coordinate just taken (R334, R335): (0, 0, 0) is a child of the acting master at first, and a coordinate whose parent
is not there takes another.
(DEDUCED, log 170) -/
def takeParent (c : Coord) : Act := fun d =>
  match d.parentPort c with
  | some p => if d.syncsOn p then setParent c d else inSequence [fun _ => [setF F.GCNT_STATUS_DEPTH 0 31], reparent] d
  | none => inSequence [fun _ => [setF F.GCNT_STATUS_DEPTH 0 31], reparent] d

/-- TAKEOVER_RECEIVE (R335, R433, R469, R499, R511): a spare takes the coordinate, the routes of the version in force, the slice map with its
slices fenced, the bindings of the coordinate from its own image, and the service addresses; its mirror of the ward is to be rebuilt.
(DEDUCED, log 172) -/
def takeoverReceiveAct (t : TakeOver) : Act := fun d =>
  let sh := (t.sx.toNat, t.sy.toNat, t.sz.toNat)
  if d.mode ≠ stReady || d.bit F.DEV_COORD_VALID || !d.bit F.DEV_COORD_SPARE || d.bit F.PLAN_STATUS_PARKED then [] else
    let v := (d.variantFor sh).getD 0
    inSequence [
      wakeUp,
      fun _ => setCoord t.coord t.sx.toNat t.sy.toNat t.sz.toNat t.zpb.toNat,
      takeParent t.coord,
      fun d => [.start fun s => { s with variant := some v, heldArms := [], launches := [] }, setF F.PLAN_STATUS_VARIANT 0 v,
        setF F.PLAN_STATUS_VARIANT_V 0 1,
        .route fun r => { r with
          fmap := t.map, v0 := if t.epoch then none else some ⟨t.map, t.map⟩, v1 := if t.epoch then some ⟨t.map, t.map⟩ else none
          coord := { CoordSt.init with map := t.map, seq := t.seq.toNat } },
        setB F.ROUTE_EPOCH_CUR 0 t.epoch, setF F.ROUTE_EPOCH_MAP_SEQ 0 t.seq.toNat,
        setB F.ROUTE_EPOCH_COORD 0 (d.coordIn t.map = d.here)],
      fun d => applyDefaults d.here d.planRecords d,
      takeSlices t,
      fun d => [.svc fun s => { s with ifaces := d.ifaceTable v d.here, silenced := false }, setF F.SAFE_STATUS_RELINQUISHED 0 0],
      fun d => forEach takeBinding d.start.heldArms d,
      askShares,
      detMap,
      fun d => flagDet F.DET_STATUS_MAP_SPARE ++
        [setF F.BUDDY_STATUS_REBUILDING 0 1, setF F.BUDDY_STATUS_MIRROR_OK 0 0, setF F.BUDDY_STATUS_REBUILT 0 0,
         .commit fun c => { c with rebuilt := 0, staged := [], wardDecide := [] }] ++
        (if d.anyFenced then enterState stRecovering d else []) ] d

/-! ### RESTORE (R470, R546) -/

/-- Put the committed request progress of a slice into the service node (R546). -/
def restoreService (pkey : BitVec 12) : Act := fun _ =>
  let (qps, reqs, handle) := Config.committedService pkey
  [.svc fun s => { s with
    qps := (qps.filter fun e => e.1 < 65536).foldl (fun m e => mapSet (fun _ => QpSt.init) e.1 e.2 m) s.qps
    reqs := s.reqs ++ reqs, handle := max s.handle handle }]

/-- Put the core state records of a slice into the cores (R448, R470): the contexts that the records' step has begun go on from them.
(DEDUCED, log 171) -/
def restoreBindings (i : Nat) : Act := fun d =>
  let pkey := (d.slice i).pkey
  let recs := (Config.committedCores pkey d.here).map fun r => { r with slice := i }
  let ks := [0, 1, 2, 3].filter fun k =>
    d.fld F.RING_CTL_PKEY k = pkey.toNat && (d.ring k).sched.isSome && d.fld F.RING_STATUS_STATE k = 1
  inSequence [
    fun _ => [.commit fun c => { c with recCur := (c.recCur.filter fun r => r.slice ≠ i) ++ recs }],
    forEach (fun k => inSequence [fun _ => [.ring k fun r => { r with launched := true }], goLiveBoth k]) ks,
    restartRings i,
    restoreCores i ] d

/-- RESTORE_COMPLETE (R470, R486, R546): the mirror and the ward's state are here; the records go into their cores, the queue pairs resume, and
RESTORE done is reported to the resolver. -/
def restoreCompleteAct (i : Nat) : Act := fun d =>
  let s := d.slice i
  if s.rstate ≠ 3 || !d.memberHere s || !s.replaced.contains d.here || s.home.restored.contains d.here then [] else
    inSequence [
      fun _ => [setF F.BUDDY_STATUS_REBUILDING 0 0, setF F.BUDDY_STATUS_MIRROR_OK 0 1,
        .slice i fun s => { s with home := { s.home with restored := s.home.restored ++ [d.here] } }],
      restoreService s.pkey,
      restoreBindings i,
      resumeQps i,
      fun d => match s.desc with
        | some e => [.send (.mgmt (d.resolver e) (.restoreDone s.pkey))]
        | none => [] ] d

end Sys2Proof.Machine
end

