-- ==== Sys2Proof/Machine/Security.lean ====
section
/-! DEFINITION. The security commands and the installation of vault slots (R219–R222, R573, R603, R609–R613, R616, R617). -/

namespace Sys2Proof.Machine

/-! ### Completion (R616) -/

/-- A security command completes: SEQ, RESULT and REASON. -/
def secDone (result reason : Nat) : List Upd :=
  [addF F.SEC_CMD_STATUS_SEQ 0 1, setF F.SEC_CMD_STATUS_RESULT 0 result, setF F.SEC_CMD_STATUS_REASON 0 reason]

/-- The address in SEC_ARG (R615). -/
def Dev.secArg (d : Dev) : Nat := d.fld F.SEC_ARG_ADDR

/-- Whether a buffer lies wholly in a region of type 0x06. -/
def Dev.inService (d : Dev) (a n : Nat) : Bool :=
  d.regions.any fun e => regionType e = 6 && regionBase e ≤ a && a + n ≤ regionBase e + regionSize e

/-! ### NONCE, ATTEST, GET_EK (R603, R609, R616) -/

/-- NONCE (R598, R616). -/
def nonce : Act := fun d =>
  let bs := padTo 32 (Config.random d.freeCtr 32)
  .drawFree :: .secure (fun s => { s with nonceLive := true }) ::
    ((List.range 4).map fun i => setF F.SEC_NONCE_NONCE i (leNat ((bs.drop (8 * i)).take 8))) ++ secDone 0 0

/-- Bytes of a 48-byte digest. -/
def hashBytes (h : BitVec 384) : List Byte := leBytes 48 h.toNat

/-- M_VAULT of a slot (R603): zero when it is not present. -/
def Dev.vaultDigest (d : Dev) (slotB : Bool) : List Byte :=
  let i := if slotB then 1 else 0
  if d.bit F.VAULT_SLOT_PRESENT i then hashBytes (Config.sha384 (mapGet (fun _ => []) d.vault.manifest i)) else List.replicate 48 0

/-- The first 448 bytes of an attestation report, which the signatures cover (R603). -/
def Dev.reportBody (d : Dev) (challenge : List Byte) : List Byte :=
  let b := fun (n : Nat) (x : Bool) => if x then 2 ^ n else 0
  let flags := b 0 (d.bit F.VAULT_CTL_INSTALL) + b 1 (d.bit F.BOOT_STATUS_FALLBACK) + b 2 (d.bit F.DET_CTL_DET_MODE) +
    b 3 (d.bit F.SEC_CFG_WEIGHT_LOCK) + b 4 (d.bit F.SEC_CFG_DEBUG_LOCK)
  let im := d.start.image
  let uid := d.reg .SEC_UID
  [0x4B, 0x5A, 0x46, 0x37, 0x41, 0x54, 0x54, 0x31] ++ leBytes 4 1 ++ leBytes 4 flags ++ leBytes 8 uid ++ padTo 32 challenge ++
    leBytes 8 d.now ++ leBytes 8 (d.reg .DEV_ID) ++ leBytes 8 (d.reg .DEV_COORD) ++ leBytes 4 (d.fld F.SEC_IMG_VERSION) ++
    leBytes 4 (d.fld F.SEC_STATUS_ARB) ++ leBytes 8 ((im.map fun m => m.serial.toNat).getD 0) ++
    hashBytes ((im.map fun m => m.mImage).getD 0) ++ hashBytes ((im.map fun m => m.mPlan).getD 0) ++ d.vaultDigest false ++
    d.vaultDigest true ++ hashBytes d.secure.owner ++ leBytes 8 (d.reg .DET_MAP) ++
    hashBytes (Config.sha384 (Config.encapsulationKey (BitVec.ofNat 64 uid))) ++ List.replicate 56 0

/-- ATTEST (R603). -/
def attest : Act := fun d =>
  let a := d.secArg
  if !d.inService a 17056 then secDone 0x10 8
  else
    let body := d.reportBody (d.readHbm (a + 24) 32).1
    inSequence [
      writeHbm a (body ++ padTo 16608 (Config.signatures d.freeCtr body)) false,
      fun _ => .drawFree :: secDone 0 0 ] d

/-- GET_EK (R609): the key is 1,184 bytes (R605).
(DEDUCED, log 179) -/
def getEk : Act := fun d =>
  let a := d.secArg
  if hbmSize < a + 1184 then secDone 0x10 8
  else inSequence [writeHbm a (padTo 1184 (Config.encapsulationKey (BitVec.ofNat 64 (d.reg .SEC_UID)))) false, fun _ => secDone 0 0] d

/-! ### Tokens (R609, R610, R612) -/

/-- The bytes of a token. -/
def tokenBytes : Nat := 17888

/-- Whether a run of bytes is zero. -/
def zeroAt (bs : List Byte) (lo hi : Nat) : Bool := ((bs.drop lo).take (hi - lo)).all fun b => b = 0

/-- The current nonce as bytes. -/
def Dev.nonceBytes (d : Dev) : List Byte := (List.range 4).flatMap fun i => leBytes 8 (d.fld F.SEC_NONCE_NONCE i)

/-- The first check that a token fails, as its REASON, 0 where no reason names it; none when it passes (R610, R612).
(DEDUCED, log 177, 178) -/
def Dev.tokenFault (d : Dev) (t : List Byte) (v : TokenVerdict) (formed : Bool) : Option Nat :=
  if !v.ownerOk then some 6
  else if !v.rsaOk && !v.slhOk then some 3
  else if !v.rsaOk then some 1
  else if !v.slhOk then some 2
  else if leNat ((t.drop 8).take 8) ≠ d.reg .SEC_UID then some 4
  else if !d.secure.nonceLive || (t.drop 16).take 32 ≠ d.nonceBytes then some 5
  else if !formed then some 0
  else none

/-- The nonce is consumed (R610). -/
def useNonce : List Upd :=
  .secure (fun s => { s with nonceLive := false }) :: (List.range 4).map fun i => setF F.SEC_NONCE_NONCE i 0

/-- Check a token and consume the nonce: in MAINTENANCE, with no installation open and the token in its region, `k` runs on a token that
passes. -/
def withToken (v : TokenVerdict) (formed : List Byte → Bool) (k : List Byte → Act) : Act := fun d =>
  if d.mode ≠ stMaint || d.bit F.VAULT_CTL_INSTALL then secDone 0x60 7
  else if !d.inService d.secArg tokenBytes then secDone 0x10 8
  else
    let t := (d.readHbm d.secArg tokenBytes).1
    match d.tokenFault t v (formed t) with
    | some reason => useNonce ++ flagSec F.SEC_ERR_TOKEN ++ secDone 0x10 reason
    | none => inSequence [fun _ => useNonce, k t] d

/-- A byte of a token. -/
def byteOf (t : List Byte) (i : Nat) : BitVec 8 := t[i]?.getD 0

/-- The form of an installation token (R609, R610): its MAGIC, SLOTS nonzero, reserved fields zero, and KEM_CT zero unless NEW_SECRET. -/
def installFormed (t : List Byte) : Bool :=
  t.take 8 = [0x4B, 0x5A, 0x46, 0x37, 0x49, 0x4E, 0x53, 0x31] && (byteOf t 48).toNat ≠ 0 && (byteOf t 48).toNat < 4 &&
    (byteOf t 49).toNat < 2 && zeroAt t 54 64 && zeroAt t 1152 1280 && (byteOf t 49 ≠ 0 || zeroAt t 64 1152)

/-- Mark a slot not present, in its register and in the vault's metadata. -/
def dropSlot (slotB : Bool) : List Upd :=
  setF F.VAULT_SLOT_PRESENT (if slotB then 1 else 0) 0 ::
    [.vault fun v => if slotB then { v with slotB := BitVec.ofNat 64 (putBits v.slotB.toNat 63 63 0) }
      else { v with slotA := BitVec.ofNat 64 (putBits v.slotA.toNat 63 63 0) }]

/-- INSTALL_OPEN (R610).
(DEDUCED, log 182) -/
def installOpen (v : TokenVerdict) : Act :=
  withToken v installFormed fun t d =>
    let new : Bool := byteOf t 49 ≠ 0
    let slots := byteOf t 48
    let gen := fun (i : Nat) => BitVec.ofNat 16 (leNat ((t.drop i).take 2))
    if !new && !d.bit F.SEC_STATUS_OIS then secDone 0x10 0
    else
      (if new then
        let uid := BitVec.ofNat 64 (d.reg .SEC_UID)
        Upd.secure (fun s => { s with secret := Config.decapsulate uid ((t.drop 64).take 1088) }) :: setF F.SEC_STATUS_OIS 0 1 ::
          (dropSlot false ++ dropSlot true)
       else (if bitOf slots 0 then dropSlot false else []) ++ (if bitOf slots 1 then dropSlot true else [])) ++
      Upd.secure (fun s => { s with installA := if bitOf slots 0 then some (gen 50) else none
                                    installB := if bitOf slots 1 then some (gen 52) else none }) ::
      Upd.vault (fun v => { v with staged := [], nextUnit := [] }) :: setF F.VAULT_CTL_INSTALL 0 1 :: secDone 0 0

/-! ### The installation stream (R219, R221, R232, R573) -/

/-- VAULT_WEAR (R222, R232): the highest and the mean write count of the data and parity blocks.
(DEDUCED, log 39) -/
def wear : Act := fun d =>
  let ws := d.vault.blocks.map fun e => e.2.writes
  [setF F.VAULT_WEAR_MAX_WRITES 0 (min 65535 (ws.foldl max 0)), setF F.VAULT_WEAR_MEAN_WRITES 0 (min 65535 (ws.sum / 37748736))]

/-- Suspect blocks are remapped to spares while spares last (R219): the spare takes the block's place with its contents.
(DEDUCED, log 38) -/
def remapSuspects : Act := fun d =>
  let ss := d.vault.suspect.take d.vault.sparesLeft
  if ss.isEmpty then [] else
    [.vault fun v => { v with
      suspect := v.suspect.drop ss.length, sparesLeft := v.sparesLeft - ss.length
      blocks := ss.foldl (fun m b => let x := mapGet (fun _ => VaultBlock.init) m b
        mapSet (fun _ => VaultBlock.init) b { x with writes := 0 } m) v.blocks }]

/-- Write a whole parity group: eight data blocks and their parity (R215, R221).
(DESIGN CHOICE, log 41) -/
def writeGroup (g : Nat) (bs : List Byte) : Act := fun _ =>
  if 4194304 ≤ g then [] else
    let data := (List.range 8).map fun i => padTo vaultBlockBytes (bs.drop (vaultBlockBytes * i))
    let parity := data.foldl xorBytes (List.replicate vaultBlockBytes 0)
    let puts := ((List.range 8).zip data).map (fun e => (8 * g + e.1, e.2)) ++ [(parityBlock g, parity)]
    [.vault fun v => { v with
      bad := v.bad.filter fun b => groupOf b ≠ g && b ≠ parityBlock g
      blocks := puts.foldl (fun m e => let x := mapGet (fun _ => VaultBlock.init) m e.1
        mapSet (fun _ => VaultBlock.init) e.1 { data := e.2, writes := x.writes + 1 } m) v.blocks }]

/-- The stream of a slot: its body, or its manifest. -/
def streamIx (slotB manifest : Bool) : Nat := (if slotB then 1 else 0) + if manifest then 2 else 0

/-- Bytes of a parity group. -/
def groupBytes : Nat := 8 * vaultBlockBytes

/-- Take the next 1,024 bytes of a stream; a body writes each group once it is whole (R221, R573). -/
def takeUnit (slotB manifest : Bool) (data : List Byte) : Act := fun d =>
  let x := streamIx slotB manifest
  let next := mapGet (fun _ => 0) d.vault.nextUnit x + 1024
  let got := mapGet (fun _ => []) d.vault.staged x ++ data
  let full : Bool := !manifest && groupBytes ≤ got.length
  inSequence [
    remapSuspects,
    fun _ => [.vault fun v => { v with
      nextUnit := mapSet (fun _ => 0) x next v.nextUnit
      staged := mapSet (fun _ => []) x (if full then [] else got) v.staged }],
    onlyIf full (writeGroup (d.fld F.VAULT_SLOT_BASE (if slotB then 1 else 0) + (next / groupBytes - 1)) got),
    onlyIf full wear ] d

/-- An INSTALL packet (R221, R573, R610).
(DEDUCED, log 181) -/
def installPacket (addr : BitVec 64) (data : List Byte) (d : Dev) : Answer × Act :=
  let slotB := bitOf addr 63
  let manifest := bitOf addr 62
  let off := bitsOf addr 61 0
  let named := if slotB then d.secure.installB else d.secure.installA
  let next := mapGet (fun _ => 0) d.vault.nextUnit (streamIx slotB manifest)
  if !d.bit F.VAULT_CTL_INSTALL then (addressError 5, fun _ => [setF F.VAULT_ERR_WRITE_REFUSED 0 1])
  else if named.isNone then refuse 5
  else if off % 1024 = 0 && off < next then (answerOk, noAct)
  else if off ≠ next then refuse 5
  else (answerOk, takeUnit slotB manifest data)

/-- INSTALL (R556, R573): 1,024 bytes to one module. -/
def installAct (r : Req) (addr : BitVec 64) (data : List Byte) : Act :=
  framed (!r.bcast && data.length = 1024) (serve r (installPacket addr data))

/-- A slot's last group, completed with zero blocks (R221). -/
def lastGroup (slotB : Bool) : Act := fun d =>
  let x := streamIx slotB false
  let got := mapGet (fun _ => []) d.vault.staged x
  if got.isEmpty then [] else
    inSequence [
      writeGroup (d.fld F.VAULT_SLOT_BASE (if slotB then 1 else 0) + mapGet (fun _ => 0) d.vault.nextUnit x / groupBytes) got,
      fun _ => [.vault fun v => { v with staged := mapSet (fun _ => []) x [] v.staged }] ] d

/-- Write the manifest that a slot has received (R611). -/
def putManifest (slotB : Bool) : Act := fun d =>
  let m := mapGet (fun _ => []) d.vault.staged (streamIx slotB true)
  if m.isEmpty then [] else
    [.vault fun v => { v with manifest := mapSet (fun _ => []) (if slotB then 1 else 0) m v.manifest }]

/-- Close the installation without writing slots (R611): a reset, or a write of SAFE_CTL. -/
def closeOnly : Act :=
  inSequence [
    putManifest false,
    putManifest true,
    fun _ => [setF F.VAULT_CTL_INSTALL 0 0, .secure (fun s => { s with installA := none, installB := none }),
      .vault fun v => { v with staged := [], nextUnit := [] }] ]

/-- A write of SAFE_CTL that is accepted closes an open installation (R611).
(DEDUCED, log 183) -/
def writeSafe (path : Path) (val : BitVec 64) (d : Dev) : Answer × Act :=
  let (a, act) := writeSafeCtl path val d
  (a, inSequence [onlyIf (d.bit F.VAULT_CTL_INSTALL && a = answerOk) closeOnly, act])

/-- TO_MAINT (R464, R480). -/
def toMaintAct (r : Req) : Act := serve r (writeSafe r.path 8)
/-- RESUME (R464, R480). -/
def resumeAct (r : Req) : Act := serve r (writeSafe r.path 4)
/-- REQ_SLICE (R464, R480). -/
def reqSliceAct (r : Req) : Act := serve r (writeSafe r.path 2)
/-- REQ_DEVICE (R463, R480). -/
def reqDeviceAct (r : Req) : Act := serve r (writeSafe r.path 1)

/-- Write a named slot (R611): present with the size received and the token's generation, if a manifest has come. -/
def putSlot (slotB : Bool) (gen : BitVec 16) : Act := fun d =>
  let i := if slotB then 1 else 0
  if (mapGet (fun _ => []) d.vault.staged (streamIx slotB true)).isEmpty then [setF F.VAULT_SLOT_PRESENT i 0] else
    let size := (mapGet (fun _ => 0) d.vault.nextUnit (streamIx slotB false) + groupBytes - 1) / groupBytes
    inSequence [
      fun _ => [setF F.VAULT_SLOT_PRESENT i 1, setF F.VAULT_SLOT_GEN i gen.toNat, setF F.VAULT_SLOT_SIZE i size],
      fun d =>
        let w := BitVec.ofNat 64 (d.reg .VAULT_SLOT i)
        [.vault fun v => if slotB then { v with slotB := w } else { v with slotA := w }] ] d

/-- INSTALL_CLOSE (R611). -/
def installClose : Act := fun d =>
  if !d.bit F.VAULT_CTL_INSTALL then secDone 0x60 7
  else
    let missing := fun (slotB : Bool) (named : Option (BitVec 16)) =>
      named.isSome && (mapGet (fun _ => []) d.vault.staged (streamIx slotB true)).isEmpty
    let bad : Bool := missing false d.secure.installA || missing true d.secure.installB
    inSequence [
      lastGroup false,
      lastGroup true,
      wear,
      (match d.secure.installA with
        | some g => putSlot false g
        | none => noAct),
      (match d.secure.installB with
        | some g => putSlot true g
        | none => noAct),
      closeOnly,
      fun _ => secDone (if bad then 0x10 else 0) 0 ] d

/-! ### OWNER_TRANSFER (R612) -/

/-- The form of an owner token (R612). -/
def ownerFormed (t : List Byte) : Bool :=
  t.take 8 = [0x4B, 0x5A, 0x46, 0x37, 0x4F, 0x57, 0x4E, 0x31] && zeroAt t 144 1280

/-- OWNER_TRANSFER (R612): the new owner's hashes, no installation secret, no slot, HBM zero, and a cold reset. -/
def ownerTransfer (v : TokenVerdict) : Act :=
  withToken v ownerFormed fun t _ =>
    Upd.secure (fun s => { s with owner := Config.sha384 ((t.drop 48).take 96), secret := 0 }) :: setF F.SEC_STATUS_OIS 0 0 ::
      satF F.SEC_STATUS_TRANSFERS 0 1 :: (dropSlot false ++ dropSlot true ++ secDone 0 0) ++
      [Upd.hbmZero, .restart false, setF F.BOARD_STATUS_CAUSE 0 4]

/-! ### SEC_CMD (R616) -/

/-- The command of an opcode. -/
def secCommand (opcode : Nat) (v : TokenVerdict) : Act :=
  match opcode with
  | 1 => nonce
  | 2 => attest
  | 3 => getEk
  | 4 => installOpen v
  | 5 => installClose
  | 6 => ownerTransfer v
  | _ => noAct

/-- A write of SEC_CMD (R616): refused while BUSY is set, or for a reserved opcode. -/
def writeSecCmd (val : Nat) (v : TokenVerdict) (d : Dev) : Answer × Act :=
  let op := val % 256
  if d.bit F.SEC_CMD_STATUS_BUSY then refuse 5
  else if op = 0 || 6 < op then refuse 6
  else (answerOk, secCommand op v)

/-- The verdict on the token that SEC_ARG names, where a command carries none. -/
def Dev.tokenVerdict (d : Dev) : TokenVerdict :=
  let (rsa, slh, owner) := Config.tokenChecks d.secure.owner (d.readHbm d.secArg tokenBytes).1
  ⟨rsa, slh, owner⟩

/-- A verdict for a command that reads no token. -/
def noVerdict : TokenVerdict := ⟨false, false, false⟩

def nonceAct (r : Req) : Act := serve r (waking (writeSecCmd 1 noVerdict))
def attestAct (r : Req) : Act := serve r (waking (writeSecCmd 2 noVerdict))
def getEkAct (r : Req) : Act := serve r (waking (writeSecCmd 3 noVerdict))
def installOpenAct (r : Req) (v : TokenVerdict) : Act := serve r (waking (writeSecCmd 4 v))
def installCloseAct (r : Req) : Act := serve r (waking (writeSecCmd 5 noVerdict))
def ownerTransferAct (r : Req) (v : TokenVerdict) : Act := serve r (waking (writeSecCmd 6 v))

end Sys2Proof.Machine
end

