-- ==== Sys2Proof/Machine/RegRead.lean ====
section
/-! DEFINITION. What a register reads as: stored fields, the views that are computed from the state, the published shadows of the snapshot
(R340), and the registers frozen in an idle state (R622). -/

namespace Sys2Proof.Machine

/-- The word with fields put into it. -/
def putAll (w : Nat) (fs : List (Fld × Nat)) : Nat := fs.foldl (fun w e => putBits w e.1.hi e.1.lo e.2) w

/-- A Bool as a bit. -/
def bitN (b : Bool) : Nat := if b then 1 else 0

/-- CORE_ID (R108). -/
def viewCoreId (c : Nat) : Nat :=
  putAll 0 [(F.CORE_ID_GLOBAL, c), (F.CORE_ID_Q, c / 6400), (F.CORE_ID_C, c / 64 % 100), (F.CORE_ID_K, c % 64)]

/-- CORE_STATUS (R111): the thin path's queue. -/
def Dev.viewCoreStatus (d : Dev) (c w : Nat) : Nat :=
  putAll w [(F.CORE_STATUS_THIN_Q, (d.core c).thinQ.length), (F.CORE_STATUS_THIN_BUSY, bitN (!(d.core c).thinQ.isEmpty))]

/-- Whether an engine's transfer is a multicast that waits for a member (R253, R264). -/
def Dev.mcastWaits (d : Dev) (c : Nat) (e : EngineSt) : Bool :=
  match e.xfer, e.queue with
  | some x, a :: _ => x.waitFrom.isSome && (d.desc c a.stream).any fun y => y.mcast
  | _, _ => false

/-- STREAM_STATUS (R264). -/
def Dev.viewStreamStatus (d : Dev) (c : Nat) : Nat :=
  let cs := d.core c
  putAll 0 [(F.STREAM_STATUS_Q_DRAIN, cs.drain.queue.length), (F.STREAM_STATUS_Q_FETCH1, cs.fetch1.queue.length),
    (F.STREAM_STATUS_Q_FETCH0, cs.fetch0.queue.length),
    (F.STREAM_STATUS_MCAST_WAIT, bitN ([cs.fetch0, cs.fetch1, cs.drain].any fun e => d.mcastWaits c e)),
    (F.STREAM_STATUS_BUSY_DRAIN, bitN cs.drain.xfer.isSome), (F.STREAM_STATUS_BUSY_FETCH1, bitN cs.fetch1.xfer.isSome),
    (F.STREAM_STATUS_BUSY_FETCH0, bitN cs.fetch0.xfer.isSome)]

/-- SEQ_STATUS (R308). -/
def Dev.viewSeqStatus (d : Dev) (c : Nat) : Nat :=
  let cs := d.core c
  let step := match d.coreSlice c with
    | some i => (d.slice i).nextStep
    | none => 0
  let nsets := ((d.liveProg c).map fun p => p.nsets).getD 1
  let count := fun (p : ThreadCtx → Bool) => (cs.ctxs.filter fun x => p x.2).length
  let holds : Bool := cs.holdFrom.isSome ||
    cs.armed.any fun b => (d.ring b.ring).cw.live || (d.ring b.ring).ccw.live
  putAll 0 [(F.SEQ_STATUS_STEP, if cs.live.isSome then step else 0), (F.SEQ_STATUS_SET, cs.residentSet),
    (F.SEQ_STATUS_NSETS_M1, nsets - 1), (F.SEQ_STATUS_ACTIVE, count fun x => x.st ≠ .idle),
    (F.SEQ_STATUS_SLEEPING, count fun x => x.st = .sleeping),
    (F.SEQ_STATUS_SLIPPING, bitN (cs.ctxs.any fun x => x.2.wait.any fun w => w.due)), (F.SEQ_STATUS_HOLDING, bitN holds),
    (F.SEQ_STATUS_LOADING, bitN (cs.armed.any fun b => !b.loaded)), (F.SEQ_STATUS_ARMED_V, bitN cs.armed.isSome),
    (F.SEQ_STATUS_ARMED_RCTX, (cs.armed.map fun b => b.ring).getD 0), (F.SEQ_STATUS_LIVE_V, bitN cs.live.isSome),
    (F.SEQ_STATUS_LIVE_RCTX, (cs.live.map fun b => b.ring).getD 0)]

/-- CTX_STATE (R313). -/
def Dev.viewCtxState (d : Dev) (c n : Nat) : Nat :=
  let x := (d.core c).ctx n
  let st := match x.st with
    | .idle => 0
    | .ready => 1
    | .issuing => 2
    | .sleeping => 3
  putAll 0 [(F.CTX_STATE_CUE, (x.cur.map fun f => f.cue).getD 0), (F.CTX_STATE_OP, x.nextOp), (F.CTX_STATE_PENDING, x.pending.length),
    (F.CTX_STATE_DEPTH, x.loops.length), (F.CTX_STATE_STATE, st)]

/-- COMMIT_STATUS of a slice map entry (R484). -/
def Dev.viewCommit (d : Dev) (i : Nat) : Nat :=
  let s := d.slice i
  putAll 0 [(F.COMMIT_STATUS_COMMITTED, s.committedWord % 4294967296), (F.COMMIT_STATUS_RSTATE, s.rstate),
    (F.COMMIT_STATUS_UNCOMMITTED, s.steps.length), (F.COMMIT_STATUS_HOME, bitN (s.desc.any fun e => homeOf e = d.here)),
    (F.COMMIT_STATUS_VALID, bitN (d.memberHere s)), (F.COMMIT_STATUS_PKEY, (s.desc.map fun e => bitsOf e.pkey 11 0).getD 0)]

/-- BUDDY_STATUS (R486). -/
def Dev.viewBuddy (d : Dev) (w : Nat) : Nat :=
  let b := d.buddyOf d.here
  let a := d.wardOf d.here
  putAll w [(F.BUDDY_STATUS_BUDDY, (b.map BitVec.toNat).getD 0), (F.BUDDY_STATUS_WARD, (a.map BitVec.toNat).getD 0),
    (F.BUDDY_STATUS_BUDDY_V, bitN b.isSome), (F.BUDDY_STATUS_WARD_V, bitN a.isSome)]

/-- SLICE_INFO of a slice map entry (R441). -/
def Dev.viewSlice (d : Dev) (i : Nat) : Nat :=
  let s := d.slice i
  let role := if d.memberHere s then 1 else if d.transitHere s then 2 else 0
  putAll 0 [(F.SLICE_INFO_VALID, bitN s.desc.isSome), (F.SLICE_INFO_ROLE, role), (F.SLICE_INFO_FENCED, bitN s.fenced),
    (F.SLICE_INFO_PKEY, (s.desc.map fun e => bitsOf e.pkey 11 0).getD 0), (F.SLICE_INFO_GROUP, (s.desc.map fun e => e.group.toNat).getD 0)]

/-- TRANSIT_PORT of a port (R442). -/
def Dev.viewTransit (d : Dev) (p w : Nat) : Nat :=
  putAll w [(F.TRANSIT_PORT_HOST_USE, d.hostUse d.mapDescs d.here (portAxis p)),
    (F.TRANSIT_PORT_TRANSIT_SUM, d.transitSum d.mapDescs d.here (portAxis p))]

/-- Sixteen entries of a table version (R412, R443): the entry of destination `n` is numbered x + 16y + 256z. A
version that no map has been computed into reads UNREACH throughout.
(DEDUCED, log 204) -/
def Dev.viewTable (d : Dev) (v : Bool) (i : Nat) : Nat :=
  match d.table v with
  | none => 0x7777777777777777
  | some t => ((List.range 16).map fun j =>
      let n := 16 * i + j
      let c := mkCoord (n % 16) (n / 16 % 16) (n / 256)
      (bitN (d.entryHold t c) * 8 + d.entryPort t c) * 16 ^ j).sum

/-- ROUTE_MASK (R443). -/
def Dev.viewMask (d : Dev) : Nat :=
  let mask := fun (v : Bool) => match d.table v with
    | none => 0
    | some t => ([0, 1, 2, 3, 4, 5].map fun p => bitN (d.maskBit t p) * 2 ^ p).sum
  putAll 0 [(F.ROUTE_MASK_MASK1, mask true), (F.ROUTE_MASK_MASK0, mask false)]

/-- SVC_GEN of a slice map entry (R551). -/
def Dev.viewGen (d : Dev) (i : Nat) : Nat :=
  let g := d.baseGen i
  putAll 0 [(F.SVC_GEN_BASE_CUR, g.cur), (F.SVC_GEN_BASE_NEXT, if g.draining then g.next else 0), (F.SVC_GEN_DRAINING, bitN g.draining),
    (F.SVC_GEN_DRAIN_LEFT, d.drainLeft i)]

/-- The word of copy `i` of a register, live.
(DEDUCED, log 40) -/
def Dev.view (d : Dev) (r : Reg) (i : Nat) : Nat :=
  let w := d.reg r i
  match r with
  | .CORE_ID => viewCoreId i
  | .CORE_STATUS => d.viewCoreStatus i w
  | .STREAM_STATUS => d.viewStreamStatus i
  | .SEQ_STATUS => d.viewSeqStatus i
  | .CTX_STATE => d.viewCtxState (i / 64) (i % 64)
  | .COMMIT_STATUS => d.viewCommit i
  | .BUDDY_STATUS => d.viewBuddy w
  | .SLICE_INFO => d.viewSlice i
  | .TRANSIT_PORT => d.viewTransit i w
  | .ROUTE_TBL0 => d.viewTable false i
  | .ROUTE_TBL1 => d.viewTable true i
  | .ROUTE_MASK => d.viewMask
  | .SVC_GEN => d.viewGen i
  | .GCNT => d.now
  | .VAULT_WEAR => putAll w [(F.VAULT_WEAR_SPARES_LEFT, d.vault.sparesLeft)]
  | .BOOT_STATUS => if d.mode = stBoot || d.mode = stPlanWait || d.mode = stLoading then
      putAll w [(F.BOOT_STATUS_ELAPSED_MS, (d.now - d.start.releasedAt) / 1000000)] else w
  | .KETTLE_STATUS => match d.power.test with
    | some t => putAll w [(F.KETTLE_STATUS_STEPS_DONE, d.stepsDone t)]
    | none => w
  | _ => w

/-- The latched fields of a register as the last published snapshot has them (R340). -/
def Dev.shadowed (d : Dev) (r : Reg) (i w : Nat) : Nat :=
  let p := mapGet regDefault d.snapPub (regKey r i)
  putAll w ((latchedFields.filter fun f => f.reg = r).map fun f => (f, (p >>> f.lo) % 2 ^ (f.hi - f.lo + 1)))

/-- What a read of copy `i` of a register over a path returns (R340, R622).
(DEDUCED, log 187) -/
def Dev.readWord (d : Dev) (path : Path) (r : Reg) (i : Nat) : Nat :=
  let d := match d.frozen with
    | some (regs, g) => { d with regs := regs, gcnt := g }
    | none => d
  let w := d.view r i
  if d.bit F.SNAP_CTL_VIEW path.copy then d.shadowed r i w else w

/-- REG_RD (R556, R557, R562). -/
def readReg (path : Path) (addr : Nat) (d : Dev) : Answer × Act :=
  match d.locate path addr 8 with
  | .at_ r i => (answerData (leBytes 8 (d.readWord path r i)), noAct)
  | .no reason => refuse reason

end Sys2Proof.Machine
end

