-- ==== Sys2Proof/Machine/RegWrite.lean ====
section
/-! DEFINITION. Writes of registers: the rule of each register that has one of its own, reserved encodings and states that refuse a write,
powered-down blocks, and the plain registers (R10–R16, R43, R233, R585, R611, R622, R656). -/

namespace Sys2Proof.Machine

/-- Whether a register lies in a core window. -/
def Reg.inWindow (r : Reg) : Bool :=
  match r.info.place with
  | .core | .ctx | .cluster4 | .cluster => true
  | _ => false

/-- Whether a register lies in a block that is powered down (R620, R622): the compute dies in Idle-2 and deeper; in Dormant all but the
management domain, which holds the blocks of identity, the Cymund port, GCNT, power and security. -/
def Dev.powered (d : Dev) (r : Reg) : Bool :=
  let st := d.fld F.PWR_STATUS_STATE
  if r.inWindow then st < 2
  else st < 4 || !([1, 2, 4].contains (r.info.addr / 0x100000))

/-- Registers of a ring context that ARM and a live context hold (R43, R61–R66). -/
def ringReg (r : Reg) : Bool :=
  match r with
  | .RING_PLAN | .RING_DAYS | .RING_SHARE | .RING_SHADOW | .RING_LAUNCH | .RING_YEARS => true
  | _ => false

/-- A register without a rule of its own beyond its state, its reserved values and its fields (R15, R43, R656). -/
def writePlain (r : Reg) (i : Nat) (val : BitVec 64) (d : Dev) : Answer × Act :=
  let st := d.fld F.RING_STATUS_STATE i
  if maintOnly r && d.mode ≠ stMaint then refuse 5
  else if ringReg r && (st = 1 || st = 2) then refuse 5
  else if reservedValue r val then refuse 6
  else (answerOk, inSequence [
    fun _ => storeFields r i val,
    onlyIf (r = .RING_SHARE || r = .RING_SHADOW) (unload i) ])

/-- The write of copy `i` of a register, in a powered block. -/
def writeLive (path : Path) (r : Reg) (i : Nat) (val : BitVec 64) (d : Dev) : Answer × Act :=
  match r with
  | .RING_CTL => waking (writeRingCtl i val) d
  | .SAFE_CTL => writeSafe path val d
  | .SVC_CMD => waking (writeSvcCmd val.toNat) d
  | .SEC_CMD => waking (fun d => writeSecCmd val.toNat d.tokenVerdict d) d
  | .MAINT_CTL => waking (writeMaintCtl val) d
  | .HBM_FREEZE => writeFreeze i val
  | .SPM_SLOT => writeSpmSlot path (i % 16) val d
  | .SPM_REGION => writeSpmRegion path (i % 32) val d
  | .VAULT_SLOT => writeVaultSlot (i = 1) val d
  | .RNG_SEED => writeSeed path val d
  | .SNAP_AT => writeSnapAt val.toNat d
  | .LINK_CTL => (answerOk, writeLinkCtl i val)
  | .CORE_ARRAYMODE => writeArrayMode i val d
  | .PWR_CTL => (answerOk, writePwrCtl val)
  | .LTOL => (answerOk, writeLtol val)
  | .KETTLE_RUN => writeKettleRun val d
  | .KETTLE_CTL => if reservedValue .KETTLE_CTL val then refuse 6 else (answerOk, writeKettleCtl i val)
  | r => writePlain r i val d

/-- Whether a write of a register wakes the module before it acts, and so meets its block powered (R622). -/
def wakesFirst (r : Reg) : Bool := r = .RING_CTL || r = .MAINT_CTL || r = .SVC_CMD || r = .SEC_CMD

/-- A write of copy `i` of a register over a path: one that needs a powered-down block is answered BUSY and wakes the module (R622).
(DEDUCED, log 104) -/
def writeAt (path : Path) (r : Reg) (i : Nat) (val : BitVec 64) (d : Dev) : Answer × Act :=
  if !wakesFirst r && !d.powered r then (answerBusy, wakeUp) else writeLive path r i val d

/-- REG_WR (R13, R556, R557, R562). -/
def writeReg (path : Path) (addr bytes : Nat) (val : BitVec 64) (d : Dev) : Answer × Act :=
  match d.locate path addr bytes with
  | .at_ r i => writeAt path r i val d
  | .no reason => refuse reason

/-! ### The rows -/

/-- REGISTER_WRITE (R10–R16, R656). -/
def registerWriteAct (r : Req) (addr bytes : Nat) (val : BitVec 64) : Act :=
  framed (1 ≤ bytes && bytes ≤ 8) (serve r (writeReg r.path addr bytes val))

/-- CORE_ARRAYMODE_WRITE (R110). -/
def coreArraymodeWriteAct (r : Req) (c : Nat) (val : BitVec 64) : Act := serve r (writeAt r.path .CORE_ARRAYMODE c val)

/-- HBM_FREEZE_WRITE (R211). -/
def hbmFreezeWriteAct (r : Req) (i : Nat) (val : BitVec 64) : Act := serve r (writeAt r.path .HBM_FREEZE i val)

/-- VAULT_SLOT_WRITE (R230). -/
def vaultSlotWriteAct (r : Req) (slotB : Bool) (val : BitVec 64) : Act := serve r (writeAt r.path .VAULT_SLOT (if slotB then 1 else 0) val)

/-- SPM_SLOT_WRITE (R192, R235). -/
def spmSlotWriteAct (r : Req) (b : Nat) (val : BitVec 64) : Act := serve r (writeAt r.path .SPM_SLOT b val)

/-- SPM_REGION_WRITE (R196, R236). -/
def spmRegionWriteAct (r : Req) (n : Nat) (val : BitVec 64) : Act := serve r (writeAt r.path .SPM_REGION n val)

/-- LINK_KILL (R390): KILL is set in the value. -/
def linkKillAct (r : Req) (p : Nat) (val : BitVec 64) : Act := serve r (writeAt r.path .LINK_CTL p (val ||| 4))

/-- LINK_RETRAIN (R390): RETRAIN is set in the value. -/
def linkRetrainAct (r : Req) (p : Nat) (val : BitVec 64) : Act := serve r (writeAt r.path .LINK_CTL p (val ||| 2))

/-- LINK_ENABLE_WRITE (R390). -/
def linkEnableWriteAct (r : Req) (p : Nat) (val : BitVec 64) : Act := serve r (writeAt r.path .LINK_CTL p val)

end Sys2Proof.Machine
end

