-- ==== Sys2Proof/Machine/Requests.lean ====
section
/-! DEFINITION. The commands of a CMD request, timed and untimed, and requests relayed from another module (R427, R560, R569–R571, R585). -/

namespace Sys2Proof.Machine

/-- SNAP_AT_WRITE (R341). -/
def snapAtWriteAct (r : Req) (val : BitVec 64) : Act := serve r (writeAt r.path .SNAP_AT 0 val)

/-! ### FREEZE and DRAIN (R570) -/

/-- The slice map entries that a PKEY names: 0 names all (R569).
(DEDUCED, log 148) -/
def Dev.namedSlices (d : Dev) (pkey : BitVec 12) : List Nat :=
  (d.slices.filter fun e => e.2.desc.isSome && (pkey = 0 || e.2.pkey = pkey)).map Prod.fst

/-- Close or reopen the admission of new items; a thaw also ends a DRAIN. -/
def freezeSlices (pkey : BitVec 12) (thaw : Bool) : Act := fun d =>
  (d.namedSlices pkey).map fun i => .slice i fun s =>
    if thaw then { s with frozen := false, draining := false, drained := false } else { s with frozen := true }

/-- Freeze a slice, and stop its context once no admitted item of it remains; a slice with no context has stopped (R568, R570).
(DEDUCED, log 147) -/
def drainSlice (i : Nat) : Act :=
  inSequence [
    fun _ => [.slice i fun s => { s with frozen := true, draining := true, drained := false }],
    drainStop i,
    fun d =>
      let pkey := (d.slice i).pkey
      if (d.activeRings pkey).isEmpty then
        [.slice i fun s => { s with draining := false }, .event 7 (leBytes 2 pkey.toNat)]
      else [] ]

/-- DRAIN of the slices that a PKEY names. -/
def drainSlices (pkey : BitVec 12) : Act := fun d => forEach drainSlice (d.namedSlices pkey) d

/-! ### RESET (R571, R648) -/

/-- Whether the module has a live or armed binding. -/
def Dev.hasBinding (d : Dev) : Bool := [0, 1, 2, 3].any fun k => d.fld F.RING_STATUS_STATE k = 1 || d.fld F.RING_STATUS_STATE k = 2

/-- The internal reset that a RESET drives: FAULT_N is released with the safe state left (R648, R650, R651, R654). -/
def internalReset (cold : Bool) : Act := fun d =>
  [.restart (!cold), setF F.BOARD_STATUS_CAUSE 0 (if cold then 3 else 2)] ++
    (if d.bit F.SAFE_STATUS_FAULT_N then [.send (.i3cInterrupt (BitVec.ofNat 8 (stBoot + 16)))] else [])

/-- RESET acts (R571): with a binding only under FORCE, and then through the device-level safe state. -/
def resetNow (cold force : Bool) : Act := fun d =>
  if d.hasBinding && !force then [] else
    inSequence [onlyIf d.hasBinding (enterSafe 1 5), internalReset cold] d

/-! ### Commands (R569) -/

/-- Keep a command for GCNT_AT; a count already reached acts at once (R336, R570). -/
def atCount (at_ : Option (BitVec 64)) (c : Cmd) (a : Act) : Act := fun d =>
  match at_ with
  | some g => if g.toNat ≤ d.now then a d else [.chain fun s => { s with timed := s.timed ++ [⟨g.toNat, c⟩] }]
  | none => a d

/-- SNAPSHOT writes SNAP_AT; untimed, the present count (R341, R569, R570).
(DEDUCED, log 145) -/
def cmdSnapshot (at_ : Option (BitVec 64)) (d : Dev) : Answer × Act :=
  match at_ with
  | some g => writeSnapAt g.toNat d
  | none =>
    let (a, act) := writeSnapAt d.now d
    (a, inSequence [act, snapshotLatchAct])

/-- LAUNCH writes RING_LAUNCH and sets ARM, refused as that write of RING_CTL is (R41, R43, R274, R569).
(DEDUCED, log 144) -/
def cmdLaunch (at_ : Option (BitVec 64)) (k : Nat) (d : Dev) : Answer × Act :=
  let g := (at_.map BitVec.toNat).getD d.now
  let word := BitVec.ofNat 64 (putBits (d.reg .RING_CTL k) F.RING_CTL_ARM.hi F.RING_CTL_ARM.lo 1)
  let st := d.fld F.RING_STATUS_STATE k
  if st = 1 || st = 2 then refuse 5
  else
    let (a, act) := writeRingCtl k word d
    if a = answerOk then (a, inSequence [fun _ => [setF F.RING_LAUNCH_GCNT k g], fun d => (writeRingCtl k word d).2 d])
    else (a, act)

/-- FREEZE. -/
def cmdFreeze (at_ : Option (BitVec 64)) (pkey : BitVec 12) (thaw : Bool) (_ : Dev) : Answer × Act :=
  (answerOk, atCount at_ (.freeze none pkey thaw) (freezeSlices pkey thaw))

/-- DRAIN. -/
def cmdDrain (at_ : Option (BitVec 64)) (pkey : BitVec 12) (_ : Dev) : Answer × Act :=
  (answerOk, atCount at_ (.drain none pkey) (drainSlices pkey))

/-- RESET: UNAVAILABLE with a live or armed binding unless FORCE (R571).
(DEDUCED, log 146) -/
def cmdReset (at_ : Option (BitVec 64)) (cold force : Bool) (d : Dev) : Answer × Act :=
  if d.hasBinding && !force then (answerWith 0x60, noAct)
  else (answerOk, atCount at_ (.reset none cold force) (resetNow cold force))

/-- TIMED set on a kind that has no timed form is refused (R569). -/
def untimed (timed : Bool) (f : Dev → Answer × Act) (d : Dev) : Answer × Act := if timed then refuse 5 else f d

/-- The coordinator's verdict on a change of the slice map is the status of the command (R424, R426, R427, R569). -/
def cmdChange (c : MapChange) (d : Dev) : Answer × Act :=
  let (st, act) := decideChange c d
  (answerWith st, act)

/-- A change of the slice map: decided by the coordinator, or forwarded to it. -/
def changeRequest (r : Req) (timed : Bool) (c : MapChange) (fwd : Cmd) : Act := fun d =>
  if timed || d.isCoord then serve r (untimed timed (cmdChange c)) d
  else relayTo r d.coordinator (.cmd fwd) none d

/-! ### The rows -/

/-- SNAPSHOT. -/
def snapshotAct (r : Req) (at_ : Option (BitVec 64)) : Act := serve r (cmdSnapshot at_)
/-- LAUNCH; it wakes the module (R622). -/
def launchAct (r : Req) (at_ : Option (BitVec 64)) (k : Nat) : Act := serve r (waking (cmdLaunch at_ k))
/-- FREEZE. -/
def freezeAct (r : Req) (at_ : Option (BitVec 64)) (pkey : BitVec 12) (thaw : Bool) : Act := serve r (cmdFreeze at_ pkey thaw)
/-- DRAIN. -/
def drainAct (r : Req) (at_ : Option (BitVec 64)) (pkey : BitVec 12) : Act := serve r (cmdDrain at_ pkey)
/-- RESET; it wakes the module (R622). -/
def resetAct (r : Req) (at_ : Option (BitVec 64)) (cold force : Bool) : Act := serve r (waking (cmdReset at_ cold force))

/-- HOST_DMA (R563, R569). -/
def hostDmaAct (r : Req) (timed : Bool) (item : BitVec 32) (pkey : BitVec 12) (toHost : Bool) (hbm host len : Nat) : Act :=
  framed (!r.bcast) (serve r (untimed timed (waking (hostDma item pkey toHost hbm host len))))

/-- SLICE_ALLOC (R424, R426, R569). -/
def sliceAllocAct (r : Req) (timed : Bool) (s : SliceDesc) : Act :=
  framed (!r.bcast) (inSequence [onlyIf (!timed) wakeUp, changeRequest r timed (.alloc s false) (.sliceAlloc false s)])

/-- SLICE_REMOVE (R427, R569). -/
def sliceRemoveAct (r : Req) (timed : Bool) (pkey : BitVec 12) : Act :=
  framed (!r.bcast) (changeRequest r timed (.remove pkey) (.sliceRemove false pkey))

/-- PLAN_RETRY (R569, R582). -/
def planRetryAct (r : Req) (timed : Bool) : Act := framed (!r.bcast) (serve r (untimed timed planRetry))
/-- LOAD_RETRY (R569, R584, R585). -/
def loadRetryAct (r : Req) (timed : Bool) : Act := framed (!r.bcast) (serve r (untimed timed loadRetry))
/-- WEIGHT_LOAD (R569, R585). -/
def weightLoadAct (r : Req) (timed : Bool) (k : Nat) : Act := framed (!r.bcast) (serve r (untimed timed (weightLoad k)))

/-- A CMD. -/
def cmdAct (r : Req) (c : Cmd) : Act :=
  match c with
  | .snapshot at_ => snapshotAct r at_
  | .launch at_ k => launchAct r at_ k.val
  | .freeze at_ pkey thaw => freezeAct r at_ pkey thaw
  | .drain at_ pkey => drainAct r at_ pkey
  | .reset at_ cold force => resetAct r at_ cold force
  | .hostDma timed item pkey toHost hbm host len => hostDmaAct r timed item pkey toHost hbm host len
  | .sliceAlloc timed s => sliceAllocAct r timed s
  | .sliceRemove timed pkey => sliceRemoveAct r timed pkey
  | .planRetry timed => planRetryAct r timed
  | .loadRetry timed => loadRetryAct r timed
  | .weightLoad timed k => weightLoadAct r timed k.val

/-- What a timed command does at its count. -/
def timedAct (c : Cmd) : Act :=
  match c with
  | .freeze _ pkey thaw => freezeSlices pkey thaw
  | .drain _ pkey => drainSlices pkey
  | .reset _ cold force => resetNow cold force
  | _ => noAct

/-- Whether a command is a RESET, which R336 takes last. -/
def isReset (c : Cmd) : Bool := match c with | .reset _ _ _ => true | _ => false

/-- TIMED_COMMAND_ACT (R336, R570): the commands whose count has come, freeze and drain before reset. -/
def timedCommandActAct : Act := fun d =>
  let due := d.chain.timed.filter fun t => t.at_ ≤ d.now
  inSequence [
    fun _ => [.chain fun s => { s with timed := s.timed.filter fun t => d.now < t.at_ }],
    forEach (fun t => timedAct t.cmd) (due.filter fun t => !isReset t.cmd),
    forEach (fun t => timedAct t.cmd) (due.filter fun t => isReset t.cmd) ] d

/-- The request that a relaying module passes on: it is the source, over the management path (R233, R560).
(DEDUCED, log 157) -/
def relayedReq (src : Coord) (tag : BitVec 10) : Req := ⟨.mgmt, src.toNat, tag, false⟩

/-- RELAYED_REQUEST_RECEIVE (R560): executed under R557 and R558 as if received here. -/
def relayedRequestReceiveAct (src : Coord) (tag : BitVec 10) (inner : InnerReq) : Act :=
  let r := relayedReq src tag
  match inner with
  | .regRd addr => serveAgain r (readReg .mgmt addr)
  | .regWr addr bytes val => registerWriteAct r addr bytes val
  | .memRd addr len => memRdAct r addr len
  | .memWr addr data => memWrAct r addr data
  | .install addr data => installAct r addr data
  | .ltol val => ltolAct r val
  | .cmd c => cmdAct r c

/-- SLICE_MAP_UPDATE (R424, R426, R427, R585): a slice removed takes the loaded marks of its contexts with it. -/
def mapUpdateAct (at_ : BitVec 64) (c : MapChange) : Act := fun d =>
  let gone : List Nat := match c with
    | .remove pkey => if d.now < at_.toNat || d.changeStatus c ≠ 0 then [] else
        [0, 1, 2, 3].filter fun k => d.fld F.RING_CTL_PKEY k = pkey.toNat
    | .alloc _ _ => []
  inSequence [forEach unload gone, sliceMapUpdateAct at_ c] d

end Sys2Proof.Machine
end

