-- ==== Sys2Proof/Machine/Board.lean ====
section
/-! DEFINITION. The board side (17): supplies, RESET_N and the reference clock, the I3C target with its telemetry block, and the TAP
(R645–R653). -/

namespace Sys2Proof.Machine

/-! ### Supplies, reset and clock -/

/-- Whether the module runs: VSB12 in range, RESET_N high, and not stopped for want of VIN (R645, R646, R648). -/
def Dev.running (d : Dev) : Bool := d.board.vsb12 && !d.board.resetLow && !d.board.stopped

/-- Every command but those of the board meets a module that runs, or has no effect. -/
def onPower (a : Act) : Act := fun d => if d.running then settled a d else []

/-- The domain held in reset: everything at its reset value, and DEV_STATE at OFF (R19, R645, R648).
(DEDUCED, log 194) -/
def heldInReset : List Upd := [.restart false, setF F.DEV_STATE_STATE 0 stOff]

/-- The dynamic address and the offset are lost with the target's supply or its reset. -/
def dropI3c (b : BoardSt) : BoardSt := { b with i3cAddr := none, i3cOff := 0 }

/-- POWER_ON (R645): VSB12 comes into range with RESET_N low.
(DEDUCED, log 197) -/
def powerOnAct : Act := fun d =>
  if d.board.vsb12 then [] else
    heldInReset ++ [.hbmZero, .board fun b => { dropI3c b with vsb12 := true, resetLow := true, stopped := false, refclk := true, jtag := .idcode },
      setF F.BOARD_STATUS_CAUSE 0 0]

/-- RESET_N_ASSERT (R611, R648): the module stops, and FAULT_N is released. -/
def resetNAssertAct : Act := fun d =>
  if !d.board.vsb12 || d.board.resetLow then [] else
    heldInReset ++ [.board fun b => { dropI3c b with resetLow := true, stopped := false }, setF F.BOARD_STATUS_CAUSE 0 1]

/-- VSB12_LOSS (R646): the module is OFF, with no safe-state sequence. -/
def vsb12LossAct : Act := fun d =>
  if !d.board.vsb12 then [] else
    heldInReset ++ [.board fun b => { dropI3c b with vsb12 := false, stopped := false, refclk := false, jtag := .idcode }]

/-- VIN_LOSS (R646): with RESET_N high the module stops where it stands.
(DEDUCED, log 195) -/
def vinLossAct : Act := fun d =>
  if !d.board.vsb12 || d.board.resetLow then [] else [.board fun b => { b with stopped := true }]

/-- REFCLK_LOSS (R481, R647, R654): with RESET_N high it is a module fault, the safe state entered with CAUSE 0x0A.
(DEDUCED, log 196) -/
def refclkLossAct : Act := fun d =>
  if !d.board.refclk then [] else
    inSequence [
      fun _ => [setF F.BOARD_STATUS_REFCLK_LOST 0 1],
      onlyIf (d.mode ≠ stOff) (moduleFault 0x0A),
      fun _ => [.board fun b => { b with refclk := false }] ] d

/-! ### The I3C target (R651) -/

/-- Whether the target answers: VSB12 in range and RESET_N released. -/
def Dev.i3cUp (d : Dev) : Bool := d.board.vsb12 && !d.board.resetLow

/-- The static address (R649). -/
def Dev.i3cStatic (d : Dev) : BitVec 7 :=
  BitVec.ofNat 7 (0x50 + 2 * d.fld F.BOARD_STATUS_I3C_SA1 + d.fld F.BOARD_STATUS_I3C_SA0)

/-- I3C_ADDRESS_ASSIGN (R651): a target without a dynamic address takes one by ENTDAA, or by SETDASA to its static address. -/
def i3cAddressAssignAct (dyn : BitVec 7) (viaStatic : Bool) (static : BitVec 7) : Act := fun d =>
  if !d.i3cUp || d.board.i3cAddr.isSome || (viaStatic && static ≠ d.i3cStatic) then []
  else [.board fun b => { b with i3cAddr := some dyn }]

/-- I3C_PRIVATE_WRITE (R651): one byte, a multiple of 8 below 64, sets the read offset; any other write is ignored. -/
def i3cPrivateWriteAct (data : List Byte) : Act := fun d =>
  match data with
  | [b] => if d.i3cUp && b.toNat % 8 = 0 && b.toNat < 64 then [.board fun x => { x with i3cOff := b.toNat }] else []
  | _ => []

/-- The telemetry block, from the shadows that reads are served from. -/
def Dev.telemetry (d : Dev) : List Byte :=
  ([.DEV_STATE, .SAFE_STATUS, .PWR_STATUS, .THERM_STATUS, .HLTH_MODULE, .DEV_COORD, .SEC_UID, .BOARD_STATUS] : List Reg).flatMap
    fun r => leBytes 8 (d.view r 0)

/-- I3C_PRIVATE_READ (R651): bytes from the offset on, wrapping at 64.
(DEDUCED, log 198) -/
def i3cPrivateReadAct (len : Nat) : Act := fun d =>
  if !d.i3cUp then [] else
    let t := d.telemetry
    [.send (.i3cRead ((List.range len).map fun i => t.getD ((d.board.i3cOff + i) % 64) 0))]

/-! ### The TAP (R652, R653) -/

/-- JTAG_INSTRUCTION (R652). -/
def jtagInstructionAct (i : JtagInstr) : Act := fun d => if d.board.vsb12 then [.board fun b => { b with jtag := i }] else []

/-- JTAG_TAP_RESET (R652): the TAP alone. -/
def jtagTapResetAct : Act := fun d => if d.board.vsb12 then [.board fun b => { b with jtag := .idcode }] else []

/-- The instruction that takes effect: one that drives pins only while RESET_N is low, and one that R652 does not list as BYPASS while
DEBUG_LOCK is set; with the lock clear the spec gives such an instruction no effect.
(DEDUCED, log 199) -/
def Dev.tapEffect (d : Dev) : JtagInstr :=
  match d.board.jtag with
  | .extest => if d.board.resetLow then .extest else .bypass
  | .extestPulse => if d.board.resetLow then .extestPulse else .bypass
  | .extestTrain => if d.board.resetLow then .extestTrain else .bypass
  | .clamp => if d.board.resetLow then .clamp else .bypass
  | .highz => if d.board.resetLow then .highz else .bypass
  | .other => if d.bit F.SEC_CFG_DEBUG_LOCK then .bypass else .other
  | .bypass => .bypass
  | .idcode => .idcode
  | .samplePreload => .samplePreload

/-- The IDCODE (R652). -/
def idcode : BitVec 32 := 0x17000E4F

end Sys2Proof.Machine
end

