-- ==== Sys2Proof/Machine/Run.lean ====
section
/-! DEFINITION. How a command runs: its act on the module, as one next state. -/

namespace Sys2Proof.Machine

/-- The outcome of a command. -/
abbrev Outcome := Host.Outcome State Fault Refusal

/-- The state with its module replaced. -/
def State.withDev (s : State) (d : Dev) : State := { s with dev := d }

/-- Run an act: the module changes, the queue stays. -/
def perform (a : Act) (s : State) : Outcome := .next (s.withDev (runAct a s.dev))

/-- GCNT counts one tick while the reference clock reaches a running module that is not in OFF (R332, R645, R647). -/
def tickAct : Act := fun d => if d.running && d.board.refclk && d.mode ≠ stOff then [.gcnt (d.gcnt + 1)] else []

/-- The block with no command: its counter counts. -/
def idle (s : State) : Outcome := perform tickAct s

end Sys2Proof.Machine
end

