-- ==== Sys2Proof/Machine/RunBoard.lean ====
section
/-! DEFINITION. The board (17): what each command does to the state. -/

namespace Sys2Proof.Machine

/-- POWER_ON (R645). -/
def execPowerOn (s : State) : Outcome := perform powerOnAct s

/-- RESET_N_ASSERT (R648). -/
def execResetNAssert (s : State) : Outcome := perform resetNAssertAct s

/-- VSB12_LOSS (R646). -/
def execVsb12Loss (s : State) : Outcome := perform vsb12LossAct s

/-- REFCLK_LOSS (R647). -/
def execRefclkLoss (s : State) : Outcome := perform (onPower refclkLossAct) s

/-- I3C_ADDRESS_ASSIGN (R651). -/
def execI3cAddressAssign (dyn : BitVec 7) (viaStatic : Bool) (static : BitVec 7) (s : State) : Outcome :=
  perform (i3cAddressAssignAct dyn viaStatic static) s

/-- I3C_PRIVATE_WRITE (R651). -/
def execI3cPrivateWrite (data : List Byte) (s : State) : Outcome := perform (i3cPrivateWriteAct data) s

/-- I3C_PRIVATE_READ (R651). -/
def execI3cPrivateRead (len : Nat) (s : State) : Outcome := perform (i3cPrivateReadAct len) s

/-- JTAG_INSTRUCTION (R652). -/
def execJtagInstruction (i : JtagInstr) (s : State) : Outcome := perform (jtagInstructionAct i) s

/-- JTAG_TAP_RESET (R652). -/
def execJtagTapReset (s : State) : Outcome := perform jtagTapResetAct s

/-- VIN_LOSS (R646). -/
def execVinLoss (s : State) : Outcome := perform vinLossAct s

end Sys2Proof.Machine
end

