-- ==== Sys2Proof/Machine/RunChain.lean ====
section
/-! DEFINITION. The host chain and its commands (14): what each command does to the state. -/

namespace Sys2Proof.Machine

/-- MEM_RD (R562). -/
def execMemRd (r : Req) (addr : Nat) (len : Nat) (s : State) : Outcome := perform (onPower (memRdAct r addr len)) s

/-- MEM_WR (R562). -/
def execMemWr (r : Req) (addr : Nat) (data : List Byte) (s : State) : Outcome :=
  perform (onPower (memWrAct r addr data)) s

/-- INSTALL (R573). -/
def execInstall (r : Req) (addr : BitVec 64) (data : List Byte) (s : State) : Outcome :=
  perform (onPower (installAct r addr data)) s

/-- LTOL (R556). -/
def execLtol (r : Req) (val : BitVec 64) (s : State) : Outcome := perform (onPower (ltolAct r val)) s

/-- ENUMERATE (R561). -/
def execEnumerate (next : Nat) (tag : BitVec 10) (s : State) : Outcome := perform (onPower (enumerateAct next tag)) s

/-- RELAY (R560). -/
def execRelay (r : Req) (target : Coord) (inner : InnerReq) (s : State) : Outcome :=
  perform (onPower (relayAct r target inner)) s

/-- RELAYED_REQUEST_RECEIVE (R560). -/
def execRelayedRequestReceive (src : Coord) (tag : BitVec 10) (inner : InnerReq) (s : State) : Outcome :=
  perform (onPower (relayedRequestReceiveAct src tag inner)) s

/-- RELAY_RESPONSE_RECEIVE (R560). -/
def execRelayResponseReceive (src : Coord) (tag : BitVec 10) (status : BitVec 8) (reason : BitVec 8) (data : List Byte) (s : State) : Outcome :=
  perform (onPower (relayResponseReceiveAct src tag status reason data)) s

/-- EVENT_ACK (R564). -/
def execEventAck (seq : BitVec 32) (s : State) : Outcome := perform (onPower (eventAckAct seq)) s

/-- CHAIN_RESPONSE_RECEIVE (R558). -/
def execChainResponseReceive (tag : BitVec 10) (status : BitVec 8) (data : List Byte) (s : State) : Outcome :=
  perform (onPower (chainResponseReceiveAct tag status data)) s

/-- CHAIN_RETRY_TIMEOUT (R558). -/
def execChainRetryTimeout (tag : BitVec 10) (s : State) : Outcome := perform (onPower (chainRetryTimeoutAct tag)) s

/-- CHAIN_LINK_DEATH (R553). -/
def execChainLinkDeath (out : Bool) (s : State) : Outcome := perform (onPower (chainLinkDeathAct out)) s

/-- SNAPSHOT (R569). -/
def execSnapshot (r : Req) (at_ : Option (BitVec 64)) (s : State) : Outcome := perform (onPower (snapshotAct r at_)) s

/-- LAUNCH (R569). -/
def execLaunch (r : Req) (at_ : Option (BitVec 64)) (k : Fin 4) (s : State) : Outcome :=
  perform (onPower (launchAct r at_ k.val)) s

/-- FREEZE (R570). -/
def execFreeze (r : Req) (at_ : Option (BitVec 64)) (pkey : BitVec 12) (thaw : Bool) (s : State) : Outcome :=
  perform (onPower (freezeAct r at_ pkey thaw)) s

/-- DRAIN (R570). -/
def execDrain (r : Req) (at_ : Option (BitVec 64)) (pkey : BitVec 12) (s : State) : Outcome :=
  perform (onPower (drainAct r at_ pkey)) s

/-- RESET (R571). -/
def execReset (r : Req) (at_ : Option (BitVec 64)) (cold : Bool) (force : Bool) (s : State) : Outcome :=
  perform (onPower (resetAct r at_ cold force)) s

/-- HOST_DMA (R563). -/
def execHostDma (r : Req) (timed : Bool) (item : BitVec 32) (pkey : BitVec 12) (toHost : Bool) (hbm : Nat) (host : Nat) (len : Nat) (s : State) : Outcome :=
  perform (onPower (hostDmaAct r timed item pkey toHost hbm host len)) s

/-- SLICE_ALLOC (R426). -/
def execSliceAlloc (r : Req) (timed : Bool) (d : SliceDesc) (s : State) : Outcome :=
  perform (onPower (sliceAllocAct r timed d)) s

/-- SLICE_REMOVE (R427). -/
def execSliceRemove (r : Req) (timed : Bool) (pkey : BitVec 12) (s : State) : Outcome :=
  perform (onPower (sliceRemoveAct r timed pkey)) s

/-- PLAN_RETRY (R582). -/
def execPlanRetry (r : Req) (timed : Bool) (s : State) : Outcome := perform (onPower (planRetryAct r timed)) s

/-- LOAD_RETRY (R584). -/
def execLoadRetry (r : Req) (timed : Bool) (s : State) : Outcome := perform (onPower (loadRetryAct r timed)) s

/-- WEIGHT_LOAD (R585). -/
def execWeightLoad (r : Req) (timed : Bool) (k : Fin 4) (s : State) : Outcome :=
  perform (onPower (weightLoadAct r timed k.val)) s

/-- TIMED_COMMAND_ACT (R570). -/
def execTimedCommandAct (s : State) : Outcome := perform (onPower timedCommandActAct) s

/-- CHAIN_LINK_UP (R553). -/
def execChainLinkUp (out : Bool) (s : State) : Outcome := perform (onPower (chainLinkUpAct out)) s

/-- CHAIN_PACKET_DISCARD (R555). -/
def execChainPacketDiscard (crcFail : Bool) (s : State) : Outcome := perform (onPower (chainPacketDiscardAct crcFail)) s

/-- CHAIN_PACKET_FORWARD (R559). -/
def execChainPacketForward (upstream : Bool) (dst : BitVec 8) (bytes : List Byte) (s : State) : Outcome :=
  perform (onPower (chainPacketForwardAct upstream dst bytes)) s

end Sys2Proof.Machine
end

