-- ==== Sys2Proof/Machine/RunCore.lean ====
section
/-! DEFINITION. The cores, their streams and cue lists (02, 03, 06, 07): what each command does to the state. -/

namespace Sys2Proof.Machine

/-- CORE_ARRAYMODE_WRITE (R110). -/
def execCoreArraymodeWrite (r : Req) (c : Fin 25600) (val : BitVec 64) (s : State) : Outcome :=
  perform (onPower (coreArraymodeWriteAct r c.val val)) s

/-- GAP_FILL_EXPIRE (R105). -/
def execGapFillExpire (c : Fin 25600) (arrB : Bool) (s : State) : Outcome :=
  perform (onPower (gapFillExpireAct c.val arrB)) s

/-- ACCUMULATOR_DRAIN_DONE (R79). -/
def execAccumulatorDrainDone (c : Fin 25600) (arrB : Bool) (s : State) : Outcome :=
  perform (onPower (accumulatorDrainDoneAct c.val arrB)) s

/-- NOP (R294). -/
def execNop (c : Fin 25600) (n : Fin 64) (s : State) : Outcome := perform (onPower (nopAct c.val n.val)) s

/-- SETP (R294). -/
def execSetp (c : Fin 25600) (n : Fin 64) (s : State) : Outcome := perform (onPower (setpAct c.val n.val)) s

/-- LOOP (R296). -/
def execLoop (c : Fin 25600) (n : Fin 64) (s : State) : Outcome := perform (onPower (loopAct c.val n.val)) s

/-- TILE (R287). -/
def execTile (c : Fin 25600) (n : Fin 64) (s : State) : Outcome := perform (onPower (tileAct c.val n.val)) s

/-- TILE_COMPLETE (R289). -/
def execTileComplete (c : Fin 25600) (thin : Bool) (s : State) : Outcome :=
  perform (onPower (tileCompleteAct c.val thin)) s

/-- VEC (R290). -/
def execVec (c : Fin 25600) (n : Fin 64) (s : State) : Outcome := perform (onPower (vecAct c.val n.val)) s

/-- SFU (R290). -/
def execSfu (c : Fin 25600) (n : Fin 64) (s : State) : Outcome := perform (onPower (sfuAct c.val n.val)) s

/-- VEC_COMPLETE (R285). -/
def execVecComplete (c : Fin 25600) (s : State) : Outcome := perform (onPower (vecCompleteAct c.val)) s

/-- ARM (R238). -/
def execArm (c : Fin 25600) (n : Fin 64) (s : State) : Outcome := perform (onPower (armAct c.val n.val)) s

/-- REARM (R260). -/
def execRearm (c : Fin 25600) (n : Fin 64) (s : State) : Outcome := perform (onPower (rearmAct c.val n.val)) s

/-- SWAP (R244). -/
def execSwap (c : Fin 25600) (n : Fin 64) (s : State) : Outcome := perform (onPower (swapAct c.val n.val)) s

/-- SWAP_COMPLETE (R244). -/
def execSwapComplete (c : Fin 25600) (n : Fin 64) (s : State) : Outcome :=
  perform (onPower (swapCompleteAct c.val n.val)) s

/-- SWAIT (R239). -/
def execSwait (c : Fin 25600) (n : Fin 64) (s : State) : Outcome := perform (onPower (swaitAct c.val n.val)) s

/-- SIGNAL (R319). -/
def execSignal (c : Fin 25600) (n : Fin 64) (s : State) : Outcome :=
  perform (onPower (signalAct c.val n.val)) s

/-- SYNCWAIT (R324). -/
def execSyncwait (c : Fin 25600) (n : Fin 64) (s : State) : Outcome :=
  perform (onPower (syncwaitAct c.val n.val)) s

/-- DIGEST (R293). -/
def execDigest (c : Fin 25600) (n : Fin 64) (s : State) : Outcome :=
  perform (onPower (digestAct c.val n.val)) s

/-- COMMIT (R295). -/
def execCommit (c : Fin 25600) (n : Fin 64) (s : State) : Outcome :=
  perform (onPower (commitAct c.val n.val)) s

/-- COMMIT_COMPLETE (R295). -/
def execCommitComplete (c : Fin 25600) (s : State) : Outcome := perform (onPower (commitCompleteAct c.val)) s

/-- REGION_WAIT_SERVED (R198). -/
def execRegionWaitServed (c : Fin 25600) (e : Engine) (s : State) : Outcome :=
  perform (onPower (regionWaitServedAct c.val e)) s

/-- STREAM_TRANSFER_START (R238). -/
def execStreamTransferStart (c : Fin 25600) (e : Engine) (s : State) : Outcome :=
  perform (onPower (streamTransferStartAct c.val e)) s

/-- STREAM_TRANSFER_COMPLETE (R240). -/
def execStreamTransferComplete (c : Fin 25600) (e : Engine) (s : State) : Outcome :=
  perform (onPower (streamTransferCompleteAct c.val e)) s

/-- REGULATOR_REFILL (R257). -/
def execRegulatorRefill (g : Fin 400) (s : State) : Outcome := perform (onPower (regulatorRefillAct g.val)) s

/-- MCAST_BLOCK_SEND (R253). -/
def execMcastBlockSend (c : Fin 25600) (e : Engine) (s : State) : Outcome :=
  perform (onPower (mcastBlockSendAct c.val e)) s

/-- CUE_FIRE (R278). -/
def execCueFire (c : Fin 25600) (trig : Trig) (cue : Nat) (s : State) : Outcome :=
  perform (onPower (cueFireAct c.val trig cue)) s

/-- BANK_SWITCH (R276). -/
def execBankSwitch (c : Fin 25600) (s : State) : Outcome := perform (onPower (bankSwitchAct c.val)) s

/-- SLIP_LIMIT_EXPIRE (R301). -/
def execSlipLimitExpire (c : Fin 25600) (n : Fin 64) (s : State) : Outcome :=
  perform (onPower (slipLimitExpireAct c.val n.val)) s

end Sys2Proof.Machine
end

