-- ==== Sys2Proof/Machine/RunLink.lean ====
section
/-! DEFINITION. The Flalys links and the key exchange (09, 15): what each command does to the state. -/

namespace Sys2Proof.Machine

/-- DATA_FLIT_RECEIVE (R371). -/
def execDataFlitReceive (p : Fin 6) (f : Flit) (s : State) : Outcome :=
  perform (onPower (dataFlitReceiveAct p.val f)) s

/-- CTRL_FLIT_RECEIVE (R367). -/
def execCtrlFlitReceive (p : Fin 6) (f : Flit) (s : State) : Outcome :=
  perform (onPower (ctrlFlitReceiveAct p.val f)) s

/-- CTRL_FLIT_DUE (R368). -/
def execCtrlFlitDue (p : Fin 6) (s : State) : Outcome := perform (onPower (ctrlFlitDueAct p.val)) s

/-- NAK_FLIT_RECEIVE (R372). -/
def execNakFlitReceive (p : Fin 6) (f : Flit) (s : State) : Outcome :=
  perform (onPower (nakFlitReceiveAct p.val f)) s

/-- REPLAY_TIMEOUT (R372). -/
def execReplayTimeout (p : Fin 6) (s : State) : Outcome := perform (onPower (replayTimeoutAct p.val)) s

/-- FENCE_FLIT_RECEIVE (R378). -/
def execFenceFlitReceive (p : Fin 6) (f : Flit) (s : State) : Outcome :=
  perform (onPower (fenceFlitReceiveAct p.val f)) s

/-- FENCE_FLIT_RESEND (R377). -/
def execFenceFlitResend (p : Fin 6) (s : State) : Outcome := perform (onPower (fenceFlitResendAct p.val)) s

/-- HELLO_FLIT_RECEIVE (R381). -/
def execHelloFlitReceive (p : Fin 6) (f : Flit) (s : State) : Outcome :=
  perform (onPower (helloFlitReceiveAct p.val f)) s

/-- SILENCE_TIMEOUT (R384). -/
def execSilenceTimeout (p : Fin 6) (lossOfLock : Bool) (s : State) : Outcome :=
  perform (onPower (silenceTimeoutAct p.val lossOfLock)) s

/-- LINK_KILL (R390). -/
def execLinkKill (r : Req) (p : Fin 6) (val : BitVec 64) (s : State) : Outcome :=
  perform (onPower (linkKillAct r p.val val)) s

/-- LINK_RETRAIN (R390). -/
def execLinkRetrain (r : Req) (p : Fin 6) (val : BitVec 64) (s : State) : Outcome :=
  perform (onPower (linkRetrainAct r p.val val)) s

/-- LINK_ENABLE_WRITE (R390). -/
def execLinkEnableWrite (r : Req) (p : Fin 6) (val : BitVec 64) (s : State) : Outcome :=
  perform (onPower (linkEnableWriteAct r p.val val)) s

/-- LINK_TRAIN_DONE (R379). -/
def execLinkTrainDone (p : Fin 6) (s : State) : Outcome := perform (onPower (linkTrainDoneAct p.val)) s

/-- LINK_ALIGN_DONE (R379). -/
def execLinkAlignDone (p : Fin 6) (s : State) : Outcome := perform (onPower (linkAlignDoneAct p.val)) s

/-- LINK_HELLO_DONE (R379). -/
def execLinkHelloDone (p : Fin 6) (latNs : Nat) (hopNs : Nat) (s : State) : Outcome :=
  perform (onPower (linkHelloDoneAct p.val latNs hopNs)) s

/-- LINK_BRINGUP_TIMEOUT (R379). -/
def execLinkBringupTimeout (p : Fin 6) (s : State) : Outcome :=
  perform (onPower (linkBringupTimeoutAct p.val)) s

/-- LINK_AUTO_RETRAIN (R379). -/
def execLinkAutoRetrain (p : Fin 6) (s : State) : Outcome := perform (onPower (linkAutoRetrainAct p.val)) s

/-- KX_HELLO (R605). -/
def execKxHello (p : Fin 6) (m : KxHello) (s : State) : Outcome := perform (onPower (kxHelloAct p.val m)) s

/-- KX_REPLY (R605). -/
def execKxReply (p : Fin 6) (m : KxHello) (s : State) : Outcome := perform (onPower (kxReplyAct p.val m)) s

/-- KX_AUTH (R606). -/
def execKxAuth (p : Fin 6) (a : KxAuth) (s : State) : Outcome := perform (onPower (kxAuthAct p.val a)) s

/-- KX_DONE (R606). -/
def execKxDone (p : Fin 6) (mac : List Byte) (s : State) : Outcome := perform (onPower (kxDoneAct p.val mac)) s

/-- REKEY_START (R607). -/
def execRekeyStart (p : Fin 6) (s : State) : Outcome := perform (onPower (rekeyStartAct p.val)) s

/-- KEY_PHASE_EXHAUSTED (R375). -/
def execKeyPhaseExhausted (p : Fin 6) (s : State) : Outcome := perform (onPower (keyPhaseExhaustedAct p.val)) s

/-- HELLO_FLIT_SEND (R379). -/
def execHelloFlitSend (p : Fin 6) (s : State) : Outcome := perform (onPower (helloFlitSendAct p.val)) s

/-- LANE_PRESENCE_DETECT (R622). -/
def execLanePresenceDetect (p : Fin 6) (s : State) : Outcome := perform (onPower (lanePresenceDetectAct p.val)) s

end Sys2Proof.Machine
end

