-- ==== Sys2Proof/Machine/RunMemory.lean ====
section
/-! DEFINITION. HBM, scratchpads and the vault (05): what each command does to the state. -/

namespace Sys2Proof.Machine

/-- HBM_BLOCK_READ (R204). -/
def execHbmBlockRead (block : Nat) (port : Fin 8) (ok : List Bool) (s : State) : Outcome :=
  perform (onPower (hbmBlockReadAct block port.val ok)) s

/-- SHARE_REPAIR_REPLY (R206). -/
def execShareRepairReply (block : Nat) (data : List Byte) (s : State) : Outcome :=
  perform (onPower (shareRepairReplyAct block data)) s

/-- HBM_REFRESH (R207). -/
def execHbmRefresh (ch : Fin 256) (s : State) : Outcome := perform (onPower (hbmRefreshAct ch.val)) s

/-- HBM_FREEZE_WRITE (R211). -/
def execHbmFreezeWrite (r : Req) (i : Fin 4) (val : BitVec 64) (s : State) : Outcome :=
  perform (onPower (hbmFreezeWriteAct r i.val val)) s

/-- PATROL_SCRUB_READ (R212). -/
def execPatrolScrubRead (ch : Fin 256) (ok : List Bool) (s : State) : Outcome :=
  perform (onPower (patrolScrubReadAct ch.val ok)) s

/-- HBM_CHANNEL_FATAL (R261). -/
def execHbmChannelFatal (ch : Fin 256) (s : State) : Outcome := perform (onPower (hbmChannelFatalAct ch.val)) s

/-- VAULT_BLOCK_DELIVER (R217). -/
def execVaultBlockDeliver (block : Nat) (crcOk : Bool) (s : State) : Outcome :=
  perform (onPower (vaultBlockDeliverAct block crcOk)) s

/-- VAULT_DEADLINE_EXPIRE (R217). -/
def execVaultDeadlineExpire (block : Nat) (s : State) : Outcome :=
  perform (onPower (vaultDeadlineExpireAct block)) s

/-- VAULT_REBUILD_DONE (R217). -/
def execVaultRebuildDone (block : Nat) (bad : Nat) (s : State) : Outcome :=
  perform (onPower (vaultRebuildDoneAct block bad)) s

/-- VAULT_SLOT_WRITE (R230). -/
def execVaultSlotWrite (r : Req) (slotB : Bool) (val : BitVec 64) (s : State) : Outcome :=
  perform (onPower (vaultSlotWriteAct r slotB val)) s

/-- SPM_SLOT_WRITE (R235). -/
def execSpmSlotWrite (r : Req) (b : Fin 16) (val : BitVec 64) (s : State) : Outcome :=
  perform (onPower (spmSlotWriteAct r b.val val)) s

/-- SPM_REGION_WRITE (R236). -/
def execSpmRegionWrite (r : Req) (n : Fin 32) (val : BitVec 64) (s : State) : Outcome :=
  perform (onPower (spmRegionWriteAct r n.val val)) s

end Sys2Proof.Machine
end

