-- ==== Sys2Proof/Machine/RunPower.lean ====
section
/-! DEFINITION. Power, Kettle and health (16): what each command does to the state. -/

namespace Sys2Proof.Machine

/-- PWR_CTL_WRITE (R618). -/
def execPwrCtlWrite (r : Req) (val : BitVec 64) (s : State) : Outcome := perform (onPower (pwrCtlWriteAct r val)) s

/-- POINT_CHANGE (R619). -/
def execPointChange (s : State) : Outcome := perform (onPower pointChangeAct) s

/-- SENSOR_POLL (R629). -/
def execSensorPoll (x : Sensors) (s : State) : Outcome := perform (onPower (sensorPollAct x)) s

/-- IDLE_ENTER (R621). -/
def execIdleEnter (s : State) : Outcome := perform (onPower idleEnterAct) s

/-- IDLE_EXIT (R622). -/
def execIdleExit (cause : WakeCause) (s : State) : Outcome := perform (onPower (idleExitAct cause)) s

/-- LTOL_WRITE (R622). -/
def execLtolWrite (r : Req) (val : BitVec 64) (s : State) : Outcome := perform (onPower (ltolWriteAct r val)) s

/-- ENTER (R628). -/
def execEnter (r : Req) (s : State) : Outcome := perform (onPower (enterAct r)) s

/-- LEAVE (R628). -/
def execLeave (r : Req) (s : State) : Outcome := perform (onPower (leaveAct r)) s

/-- GO (R627). -/
def execGo (r : Req) (val : BitVec 64) (s : State) : Outcome := perform (onPower (goAct r val)) s

/-- STOP (R627). -/
def execStop (r : Req) (val : BitVec 64) (s : State) : Outcome := perform (onPower (stopAct r val)) s

/-- KETTLE_FIRST_CYCLE (R627). -/
def execKettleFirstCycle (s : State) : Outcome := perform (onPower kettleFirstCycleAct) s

/-- KETTLE_TEST_END (R627). -/
def execKettleTestEnd (s : State) : Outcome := perform (onPower kettleTestEndAct) s

/-- AGEING_SAMPLE (R632). -/
def execAgeingSample (x : AgeSample) (s : State) : Outcome := perform (onPower (ageingSampleAct x)) s

/-- PREDICTOR_RUN (R633). -/
def execPredictorRun (s : State) : Outcome := perform (onPower predictorRunAct) s

end Sys2Proof.Machine
end

