-- ==== Sys2Proof/Machine/RunRecovery.lean ====
section
/-! DEFINITION. Commit, recovery and the safe state (11, 12): what each command does to the state. -/

namespace Sys2Proof.Machine

/-- MIRROR_WRITE_RECEIVE (R447). -/
def execMirrorWriteReceive (p : Fin 6) (step : Nat) (pkt : Packet) (s : State) : Outcome :=
  perform (onPower (mirrorWriteReceiveAct p.val step pkt)) s

/-- MIRROR_ACK_RECEIVE (R450). -/
def execMirrorAckReceive (i : Fin 256) (step : Option Nat) (s : State) : Outcome :=
  perform (onPower (mirrorHeldAct i.val step)) s

/-- READY_RECEIVE (R451). -/
def execReadyReceive (i : Fin 256) (src : Coord) (step : Nat) (s : State) : Outcome :=
  perform (onPower (readyReceiveAct i.val src step)) s

/-- DECIDE_RECEIVE (R451). -/
def execDecideReceive (pkey : BitVec 12) (step : Nat) (s : State) : Outcome :=
  perform (onPower (decideReceiveAct pkey step)) s

/-- DECIDE_ACK_RECEIVE (R451). -/
def execDecideAckReceive (i : Fin 256) (step : Nat) (s : State) : Outcome :=
  perform (onPower (decideAckReceiveAct i.val step)) s

/-- COMMIT_RECEIVE (R452). -/
def execCommitReceive (i : Fin 256) (step : Nat) (s : State) : Outcome :=
  perform (onPower (commitReceiveAct i.val step)) s

/-- APPLY_RECEIVE (R452). -/
def execApplyReceive (pkey : BitVec 12) (step : Nat) (s : State) : Outcome :=
  perform (onPower (applyReceiveAct pkey step)) s

/-- SAFE_REQUEST_RECEIVE (R458). -/
def execSafeRequestReceive (s : State) : Outcome := perform (onPower safeRequestReceiveAct) s

/-- RESOLUTION_REPORT_RECEIVE (R466). -/
def execResolutionReportReceive (i : Fin 256) (src : Coord) (rep : ResReport) (s : State) : Outcome :=
  perform (onPower (resolutionReportReceiveAct i.val src rep)) s

/-- ROLLBACK_RECEIVE (R466). -/
def execRollbackReceive (i : Fin 256) (target : Int) (s : State) : Outcome :=
  perform (onPower (rollbackReceiveAct i.val target)) s

/-- TAKEOVER_RECEIVE (R469). -/
def execTakeoverReceive (t : TakeOver) (s : State) : Outcome := perform (onPower (takeoverReceiveAct t)) s

/-- RELINQUISH_RECEIVE (R469). -/
def execRelinquishReceive (s : State) : Outcome := perform (onPower relinquishReceiveAct) s

/-- RESTORE_COMPLETE (R470). -/
def execRestoreComplete (i : Fin 256) (s : State) : Outcome := perform (onPower (restoreCompleteAct i.val)) s

/-- RESTORE_REPORT_RECEIVE (R471). -/
def execRestoreReportReceive (i : Fin 256) (src : Coord) (s : State) : Outcome :=
  perform (onPower (restoreReportReceiveAct i.val src)) s

/-- RELAUNCH_COUNT_RECEIVE (R471). -/
def execRelaunchCountReceive (i : Fin 256) (at_ : BitVec 64) (s : State) : Outcome :=
  perform (onPower (relaunchCountReceiveAct i.val at_)) s

/-- RELAUNCH (R471). -/
def execRelaunch (i : Fin 256) (s : State) : Outcome := perform (onPower (relaunchAct i.val)) s

/-- RECOVERY_BOUND_EXPIRE (R473). -/
def execRecoveryBoundExpire (i : Fin 256) (s : State) : Outcome :=
  perform (onPower (recoveryBoundExpireAct i.val)) s

/-- TO_MAINT (R480). -/
def execToMaint (r : Req) (s : State) : Outcome := perform (onPower (toMaintAct r)) s

/-- RESUME (R464). -/
def execResume (r : Req) (s : State) : Outcome := perform (onPower (resumeAct r)) s

/-- REQ_SLICE (R464). -/
def execReqSlice (r : Req) (s : State) : Outcome := perform (onPower (reqSliceAct r)) s

/-- REQ_DEVICE (R463). -/
def execReqDevice (r : Req) (s : State) : Outcome := perform (onPower (reqDeviceAct r)) s

/-- RNG_SEED_WRITE (R503). -/
def execRngSeedWrite (r : Req) (val : BitVec 64) (s : State) : Outcome := perform (onPower (rngSeedWriteAct r val)) s

/-- ADMISSION_LOG_TIMEOUT (R496). -/
def execAdmissionLogTimeout (i : Fin 256) (s : State) : Outcome :=
  perform (onPower (admissionLogTimeoutAct i.val)) s

end Sys2Proof.Machine
end

