-- ==== Sys2Proof/Machine/RunRing.lean ====
section
/-! DEFINITION. The weight ring and registers (01, 07): what each command does to the state. -/

namespace Sys2Proof.Machine

/-- REGISTER_WRITE (R656). -/
def execRegisterWrite (r : Req) (addr : Nat) (bytes : Nat) (val : BitVec 64) (s : State) : Outcome :=
  perform (onPower (registerWriteAct r addr bytes val)) s

/-- RING_CTL_ARM (R43). -/
def execRingCtlArm (r : Req) (k : Fin 4) (val : BitVec 64) (s : State) : Outcome :=
  perform (onPower (ringCtlArmAct r k.val val)) s

/-- RING_CTL_STOP (R42). -/
def execRingCtlStop (r : Req) (k : Fin 4) (val : BitVec 64) (s : State) : Outcome :=
  perform (onPower (ringCtlStopAct r k.val val)) s

/-- BANK_LOAD_DONE (R275). -/
def execBankLoadDone (k : Fin 4) (s : State) : Outcome := perform (onPower (bankLoadAct k.val)) s

/-- RING_LAUNCH (R41). -/
def execRingLaunch (k : Fin 4) (s : State) : Outcome := perform (onPower (ringLaunchAct k.val)) s

/-- LEAF_INJECT (R32). -/
def execLeafInject (k : Fin 4) (dir : Dir) (proxy : Bool) (s : State) : Outcome :=
  perform (onPower (leafInjectAct k.val dir proxy)) s

/-- OWN_LEAF_ACCEPT (R38). -/
def execOwnLeafAccept (k : Fin 4) (dir : Dir) (s : State) : Outcome := perform (onPower (ownLeafAcceptAct k.val dir)) s

/-- RESIDENT_LOOPBACK_LEAF (R50). -/
def execResidentLoopbackLeaf (k : Fin 4) (dir : Dir) (s : State) : Outcome :=
  perform (onPower (residentLoopbackLeafAct k.val dir)) s

/-- LEAF_PACKET_RECEIVE (R47). -/
def execLeafPacketReceive (p : Fin 6) (pkt : Packet) (s : State) : Outcome :=
  perform (onPower (leafPacketReceiveAct p.val pkt)) s

/-- GRADIENT_LEAF_RECEIVE (R45). -/
def execGradientLeafReceive (_p : Fin 6) (pkts : List Packet) (contrib : List (BitVec 32)) (s : State) : Outcome :=
  perform (onPower (gradientLeafReceiveAct pkts contrib)) s

end Sys2Proof.Machine
end

