-- ==== Sys2Proof/Machine/RunRoute.lean ====
section
/-! DEFINITION. Delivered packets, routing and the slice map (09, 10): what each command does to the state. -/

namespace Sys2Proof.Machine

/-- WRITE_PACKET_RECEIVE (R361). -/
def execWritePacketReceive (p : Fin 6) (pkt : Packet) (s : State) : Outcome :=
  perform (onPower (writeReceiveAct p.val pkt)) s

/-- READ_REQ_RECEIVE (R360). -/
def execReadReqReceive (p : Fin 6) (pkt : Packet) (s : State) : Outcome :=
  perform (onPower (readReqReceiveAct p.val pkt)) s

/-- READ_RESP_RECEIVE (R360). -/
def execReadRespReceive (_p : Fin 6) (pkt : Packet) (s : State) : Outcome :=
  perform (onPower (readRespReceiveAct pkt)) s

/-- CNP_RECEIVE (R423). -/
def execCnpReceive (_p : Fin 6) (pkt : Packet) (s : State) : Outcome := perform (onPower (cnpReceiveAct pkt)) s

/-- RATE_RECOVER_STEP (R423). -/
def execRateRecoverStep (dst : Coord) (s : State) : Outcome := perform (onPower (rateRecoverStepAct dst)) s

/-- FAULT_REPORT (R415). -/
def execFaultReport (rep : FaultReport) (s : State) : Outcome := perform (onPower (faultReportAct rep)) s

/-- FAULT_MAP_RECEIVE (R413). -/
def execFaultMapReceive (seq : BitVec 16) (map : FaultMap) (verdict : Option PlanVerdict) (s : State) : Outcome :=
  perform (onPower (faultMapReceiveAct seq map verdict)) s

/-- TABLE_PREPARE_DONE (R413). -/
def execTablePrepareDone (s : State) : Outcome := perform (onPower tablePrepareDoneAct) s

/-- PREPARE_ACK_RECEIVE (R415). -/
def execPrepareAckReceive (src : Coord) (seq : BitVec 16) (s : State) : Outcome :=
  perform (onPower (prepareAckReceiveAct src seq)) s

/-- PREPARE_ACK_TIMEOUT (R415). -/
def execPrepareAckTimeout (s : State) : Outcome := perform (onPower prepareAckTimeoutAct) s

/-- FLIP_AT_RECEIVE (R415). -/
def execFlipAtReceive (at_ : BitVec 64) (s : State) : Outcome := perform (onPower (flipAtReceiveAct at_)) s

/-- EPOCH_FLIP (R415). -/
def execEpochFlip (s : State) : Outcome := perform (onPower epochFlipAct) s

/-- DRAIN_CHECK_SEND (R415). -/
def execDrainCheckSend (s : State) : Outcome := perform (onPower drainCheckSendAct) s

/-- DRAIN_CHECK_RECEIVE (R417). -/
def execDrainCheckReceive (at_ : BitVec 64) (s : State) : Outcome := perform (onPower (drainCheckReceiveAct at_)) s

/-- DRAIN_CHECK_LATCH (R417). -/
def execDrainCheckLatch (s : State) : Outcome := perform (onPower drainCheckLatchAct) s

/-- DRAIN_CHECK_REPLY_RECEIVE (R417). -/
def execDrainCheckReplyReceive (src : Coord) (rep : DrainReply) (s : State) : Outcome :=
  perform (onPower (drainCheckReplyReceiveAct src rep)) s

/-- RETIRE_RECEIVE (R415). -/
def execRetireReceive (s : State) : Outcome := perform (onPower retireReceiveAct) s

/-- DRAIN_TO_EXPIRE (R418). -/
def execDrainToExpire (s : State) : Outcome := perform (onPower drainToExpireAct) s

/-- SLICE_MAP_UPDATE (R424). -/
def execSliceMapUpdate (at_ : BitVec 64) (c : MapChange) (s : State) : Outcome :=
  perform (onPower (mapUpdateAct at_ c)) s

/-- HEARTBEAT_SEND (R459). -/
def execHeartbeatSend (s : State) : Outcome := perform (onPower heartbeatSendAct) s

/-- HEARTBEAT_RECEIVE (R459). -/
def execHeartbeatReceive (p : Fin 6) (s : State) : Outcome := perform (onPower (heartbeatReceiveAct p.val)) s

/-- NEIGHBOUR_SILENT (R459). -/
def execNeighbourSilent (p : Fin 6) (s : State) : Outcome := perform (onPower (neighbourSilentAct p.val)) s

end Sys2Proof.Machine
end

