-- ==== Sys2Proof/Machine/RunService.lean ====
section
/-! DEFINITION. The service node (13): what each command does to the state. -/

namespace Sys2Proof.Machine

/-- ARP_RECEIVE (R518). -/
def execArpReceive (i : Fin 8) (f : ArpFrame) (s : State) : Outcome := perform (onPower (arpReceiveAct i.val f)) s

/-- NEIGHBOUR_DISCOVERY_RECEIVE (R518). -/
def execNeighbourDiscoveryReceive (i : Fin 8) (f : NdFrame) (s : State) : Outcome :=
  perform (onPower (neighbourDiscoveryReceiveAct i.val f)) s

/-- ICMP_ECHO_RECEIVE (R518). -/
def execIcmpEchoReceive (i : Fin 8) (f : EchoFrame) (s : State) : Outcome :=
  perform (onPower (icmpEchoReceiveAct i.val f)) s

/-- LLDP_SEND (R518). -/
def execLldpSend (i : Fin 8) (s : State) : Outcome := perform (onPower (lldpSendAct i.val)) s

/-- LLDP_RECEIVE (R518). -/
def execLldpReceive (i : Fin 8) (tlvs : List Byte) (s : State) : Outcome :=
  perform (onPower (lldpReceiveAct i.val tlvs)) s

/-- ETH_FRAME_DISCARD (R518). -/
def execEthFrameDiscard (i : Fin 8) (s : State) : Outcome := perform (onPower (ethFrameDiscardAct i.val)) s

/-- RDMA_WRITE_RECEIVE (R520). -/
def execRdmaWriteReceive (q : Fin 65536) (w : RdmaWrite) (s : State) : Outcome :=
  perform (onPower (rdmaWriteReceiveAct q.val w)) s

/-- RDMA_READ_REQUEST_RECEIVE (R519). -/
def execRdmaReadRequestReceive (q : Fin 65536) (rd : RdmaRead) (s : State) : Outcome :=
  perform (onPower (rdmaReadRequestReceiveAct q.val rd)) s

/-- RDMA_READ_RESPONSE_RECEIVE (R539). -/
def execRdmaReadResponseReceive (q : Fin 65536) (rsp : RdmaResp) (s : State) : Outcome :=
  perform (onPower (rdmaReadResponseReceiveAct q.val rsp)) s

/-- ROCE_ACK_RECEIVE (R519). -/
def execRoceAckReceive (q : Fin 65536) (psn : BitVec 24) (s : State) : Outcome :=
  perform (onPower (roceAckReceiveAct q.val psn)) s

/-- ROCE_NAK_RECEIVE (R524). -/
def execRoceNakReceive (q : Fin 65536) (psn : BitVec 24) (kind : NakKind) (s : State) : Outcome :=
  perform (onPower (roceNakReceiveAct q.val psn kind)) s

/-- ROCE_RETRANSMIT_TIMEOUT (R519). -/
def execRoceRetransmitTimeout (q : Fin 65536) (s : State) : Outcome :=
  perform (onPower (roceRetransmitTimeoutAct q.val)) s

/-- ROCE_CNP_RECEIVE (R521). -/
def execRoceCnpReceive (q : Fin 65536) (s : State) : Outcome := perform (onPower (roceCnpReceiveAct q.val)) s

/-- ROCE_RATE_RECOVER (R521). -/
def execRoceRateRecover (q : Fin 65536) (s : State) : Outcome := perform (onPower (roceRateRecoverAct q.val)) s

/-- PFC_FRAME_RECEIVE (R522). -/
def execPfcFrameReceive (e : Fin 2) (prio : Fin 8) (pause : Bool) (s : State) : Outcome :=
  perform (onPower (pfcFrameReceiveAct e.val prio.val pause)) s

/-- QP_CREATE (R524). -/
def execQpCreate (r : Req) (s : State) : Outcome := perform (onPower (qpCreateAct r)) s

/-- QP_DESTROY (R524). -/
def execQpDestroy (r : Req) (s : State) : Outcome := perform (onPower (qpDestroyAct r)) s

/-- JOB_START (R538). -/
def execJobStart (r : Req) (s : State) : Outcome := perform (onPower (jobStartAct r)) s

/-- JOB_STOP (R541). -/
def execJobStop (r : Req) (s : State) : Outcome := perform (onPower (jobStopAct r)) s

/-- EXPORT (R542). -/
def execExportAdapter (r : Req) (s : State) : Outcome := perform (onPower (exportAct r)) s

/-- ADAPTER_GEN (R544). -/
def execAdapterGen (r : Req) (s : State) : Outcome := perform (onPower (adapterGenAct r)) s

/-- BASE_SWITCH (R545). -/
def execBaseSwitch (r : Req) (s : State) : Outcome := perform (onPower (baseSwitchAct r)) s

/-- ETH_LINK_CHANGE (R549). -/
def execEthLinkChange (i : Fin 8) (up : Bool) (s : State) : Outcome := perform (onPower (ethLinkChangeAct i.val up)) s

end Sys2Proof.Machine
end

