-- ==== Sys2Proof/Machine/RunStart.lean ====
section
/-! DEFINITION. Start-up (14) and the security block (15): what each command does to the state. -/

namespace Sys2Proof.Machine

/-- RESET_RELEASE (R576). -/
def execResetRelease (b : BootInput) (s : State) : Outcome := perform (settled (resetReleaseAct b)) s

/-- ASSIGN_RECEIVE (R579). -/
def execAssignReceive (p : Fin 6) (coord : Coord) (seedUid : BitVec 32) (s : State) : Outcome :=
  perform (onPower (assignReceiveAct p.val coord seedUid)) s

/-- NEIGHBOUR_RECEIVE (R579). -/
def execNeighbourReceive (p : Fin 6) (coord : Coord) (s : State) : Outcome :=
  perform (onPower (neighbourReceiveAct p.val coord)) s

/-- REPORT_RECEIVE (R579). -/
def execReportReceive (p : Fin 6) (rep : List ModReport) (s : State) : Outcome :=
  perform (onPower (reportReceiveAct p.val rep)) s

/-- REPORT_TIMEOUT (R579). -/
def execReportTimeout (s : State) : Outcome := perform (onPower reportTimeoutAct) s

/-- NO_SEED_TIMEOUT (R580). -/
def execNoSeedTimeout (s : State) : Outcome := perform (onPower noSeedTimeoutAct) s

/-- SPARE_WAIT_EXPIRE (R581). -/
def execSpareWaitExpire (s : State) : Outcome := perform (onPower spareWaitExpireAct) s

/-- LOAD_UNIT_REQUEST (R583). -/
def execLoadUnitRequest (src : Coord) (k : Fin 4) (unit : Nat) (s : State) : Outcome :=
  perform (onPower (loadUnitRequestAct src k.val unit)) s

/-- LOAD_DONE_REPORT (R583). -/
def execLoadDoneReport (src : Coord) (s : State) : Outcome := perform (onPower (loadDoneReportAct src)) s

/-- READY_COUNT_RECEIVE (R586). -/
def execReadyCountReceive (at_ : BitVec 64) (s : State) : Outcome :=
  perform (onPower (readyCountReceiveAct at_)) s

/-- READY_ENTER (R586). -/
def execReadyEnter (s : State) : Outcome := perform (onPower readyEnterAct) s

/-- NO_FLALYS_PORT_UP (R576). -/
def execNoFlalysPortUp (s : State) : Outcome := perform (onPower noFlalysPortUpAct) s

/-- PLACEMENT_REPORT_RECEIVE (R586). -/
def execPlacementReportReceive (src : Coord) (s : State) : Outcome :=
  perform (onPower (placementReportReceiveAct src)) s

/-- LAST_SEND_REPORT_RECEIVE (R583). -/
def execLastSendReportReceive (src : Coord) (sec : Nat) (s : State) : Outcome :=
  perform (onPower (lastSendReportReceiveAct src sec)) s

/-- SPARE_ATTESTATION_RECEIVE (R604). -/
def execSpareAttestationReceive (p : Fin 6) (a : SpareReport) (s : State) : Outcome :=
  perform (onPower (spareAttestationReceiveAct p.val a)) s

/-- NONCE (R616). -/
def execNonce (r : Req) (s : State) : Outcome := perform (onPower (nonceAct r)) s

/-- ATTEST (R603). -/
def execAttest (r : Req) (s : State) : Outcome := perform (onPower (attestAct r)) s

/-- GET_EK (R609). -/
def execGetEk (r : Req) (s : State) : Outcome := perform (onPower (getEkAct r)) s

/-- INSTALL_OPEN (R610). -/
def execInstallOpen (r : Req) (v : TokenVerdict) (s : State) : Outcome := perform (onPower (installOpenAct r v)) s

/-- INSTALL_CLOSE (R611). -/
def execInstallClose (r : Req) (s : State) : Outcome := perform (onPower (installCloseAct r)) s

/-- OWNER_TRANSFER (R612). -/
def execOwnerTransfer (r : Req) (v : TokenVerdict) (s : State) : Outcome := perform (onPower (ownerTransferAct r v)) s

end Sys2Proof.Machine
end

