-- ==== Sys2Proof/Machine/RunSync.lean ====
section
/-! DEFINITION. Synchronisation and machine time (08): what each command does to the state. -/

namespace Sys2Proof.Machine

/-- SYNC_SIGNAL_RECEIVE (R322). -/
def execSyncSignalReceive (_p : Fin 6) (sig : SyncExt) (s : State) : Outcome :=
  perform (onPower (syncSignalReceiveAct sig)) s

/-- BARRIER_RELEASE_RECEIVE (R325). -/
def execBarrierReleaseReceive (_p : Fin 6) (sig : SyncExt) (s : State) : Outcome :=
  perform (onPower (barrierReleaseReceiveAct sig)) s

/-- SYNC_POLL (R324). -/
def execSyncPoll (c : Fin 25600) (n : Fin 64) (s : State) : Outcome :=
  perform (onPower (syncPollAct c.val n.val)) s

/-- WAIT_WATCHDOG_EXPIRE (R330). -/
def execWaitWatchdogExpire (c : Fin 25600) (n : Fin 64) (s : State) : Outcome :=
  perform (onPower (waitWatchdogExpireAct c.val n.val)) s

/-- STREAM_WATCHDOG_EXPIRE (R330). -/
def execStreamWatchdogExpire (c : Fin 25600) (e : Engine) (s : State) : Outcome :=
  perform (onPower (streamWatchdogExpireAct c.val e)) s

/-- GRANT_WATCHDOG_EXPIRE (R330). -/
def execGrantWatchdogExpire (ch : Fin 256) (s : State) : Outcome :=
  perform (onPower (grantWatchdogExpireAct ch.val)) s

/-- SYNC_FLIT_SEND (R376). -/
def execSyncFlitSend (p : Fin 6) (ps : Nat) (s : State) : Outcome := perform (onPower (syncFlitSendAct p.val ps)) s

/-- SYNC_REQUEST_RECEIVE (R376). -/
def execSyncRequestReceive (p : Fin 6) (f : SyncFlit) (rxPs : Nat) (txPs : Nat) (s : State) : Outcome :=
  perform (onPower (syncRequestReceiveAct p.val f rxPs txPs)) s

/-- SYNC_REPLY_RECEIVE (R333). -/
def execSyncReplyReceive (p : Fin 6) (f : SyncFlit) (rxPs : Nat) (s : State) : Outcome :=
  perform (onPower (syncReplyReceiveAct p.val f rxPs)) s

/-- HOLDOVER_ENTER (R334). -/
def execHoldoverEnter (s : State) : Outcome := perform (onPower holdoverEnterAct) s

/-- ACTING_MASTER_HANDOVER (R335). -/
def execActingMasterHandover (s : State) : Outcome := perform (onPower actingMasterHandoverAct) s

/-- SNAP_AT_WRITE (R341). -/
def execSnapAtWrite (r : Req) (val : BitVec 64) (s : State) : Outcome := perform (onPower (snapAtWriteAct r val)) s

/-- SNAPSHOT_LATCH (R338). -/
def execSnapshotLatch (s : State) : Outcome := perform (onPower snapshotLatchAct) s

end Sys2Proof.Machine
end

