-- ==== Sys2Proof/Machine/Dispatch.lean ====
section
/-! DEFINITION. The meaning of every command. -/

namespace Sys2Proof.Machine

def exec (i : Instr) (s : State) : Host.Outcome State Fault Refusal :=
  match i with
  | .registerWrite r addr bytes val => Sys2Proof.Machine.execRegisterWrite r addr bytes val s
  | .ringCtlArm r k val => Sys2Proof.Machine.execRingCtlArm r k val s
  | .ringCtlStop r k val => Sys2Proof.Machine.execRingCtlStop r k val s
  | .bankLoadDone k => Sys2Proof.Machine.execBankLoadDone k s
  | .ringLaunch k => Sys2Proof.Machine.execRingLaunch k s
  | .leafInject k dir proxy => Sys2Proof.Machine.execLeafInject k dir proxy s
  | .ownLeafAccept k dir => Sys2Proof.Machine.execOwnLeafAccept k dir s
  | .residentLoopbackLeaf k dir => Sys2Proof.Machine.execResidentLoopbackLeaf k dir s
  | .leafPacketReceive p pkt => Sys2Proof.Machine.execLeafPacketReceive p pkt s
  | .gradientLeafReceive p pkts contrib => Sys2Proof.Machine.execGradientLeafReceive p pkts contrib s
  | .coreArraymodeWrite r c val => Sys2Proof.Machine.execCoreArraymodeWrite r c val s
  | .gapFillExpire c arrB => Sys2Proof.Machine.execGapFillExpire c arrB s
  | .accumulatorDrainDone c arrB => Sys2Proof.Machine.execAccumulatorDrainDone c arrB s
  | .nop c n => Sys2Proof.Machine.execNop c n s
  | .setp c n => Sys2Proof.Machine.execSetp c n s
  | .loop c n => Sys2Proof.Machine.execLoop c n s
  | .tile c n => Sys2Proof.Machine.execTile c n s
  | .tileComplete c thin => Sys2Proof.Machine.execTileComplete c thin s
  | .vec c n => Sys2Proof.Machine.execVec c n s
  | .sfu c n => Sys2Proof.Machine.execSfu c n s
  | .vecComplete c => Sys2Proof.Machine.execVecComplete c s
  | .arm c n => Sys2Proof.Machine.execArm c n s
  | .rearm c n => Sys2Proof.Machine.execRearm c n s
  | .swap c n => Sys2Proof.Machine.execSwap c n s
  | .swapComplete c n => Sys2Proof.Machine.execSwapComplete c n s
  | .swait c n => Sys2Proof.Machine.execSwait c n s
  | .signal c n => Sys2Proof.Machine.execSignal c n s
  | .syncwait c n => Sys2Proof.Machine.execSyncwait c n s
  | .digest c n => Sys2Proof.Machine.execDigest c n s
  | .commit c n => Sys2Proof.Machine.execCommit c n s
  | .commitComplete c => Sys2Proof.Machine.execCommitComplete c s
  | .regionWaitServed c e => Sys2Proof.Machine.execRegionWaitServed c e s
  | .streamTransferStart c e => Sys2Proof.Machine.execStreamTransferStart c e s
  | .streamTransferComplete c e => Sys2Proof.Machine.execStreamTransferComplete c e s
  | .regulatorRefill g => Sys2Proof.Machine.execRegulatorRefill g s
  | .mcastBlockSend c e => Sys2Proof.Machine.execMcastBlockSend c e s
  | .cueFire c trig cue => Sys2Proof.Machine.execCueFire c trig cue s
  | .bankSwitch c => Sys2Proof.Machine.execBankSwitch c s
  | .slipLimitExpire c n => Sys2Proof.Machine.execSlipLimitExpire c n s
  | .hbmBlockRead block port ok => Sys2Proof.Machine.execHbmBlockRead block port ok s
  | .shareRepairReply block data => Sys2Proof.Machine.execShareRepairReply block data s
  | .hbmRefresh ch => Sys2Proof.Machine.execHbmRefresh ch s
  | .hbmFreezeWrite r j val => Sys2Proof.Machine.execHbmFreezeWrite r j val s
  | .patrolScrubRead ch ok => Sys2Proof.Machine.execPatrolScrubRead ch ok s
  | .hbmChannelFatal ch => Sys2Proof.Machine.execHbmChannelFatal ch s
  | .vaultBlockDeliver block crcOk => Sys2Proof.Machine.execVaultBlockDeliver block crcOk s
  | .vaultDeadlineExpire block => Sys2Proof.Machine.execVaultDeadlineExpire block s
  | .vaultRebuildDone block bad => Sys2Proof.Machine.execVaultRebuildDone block bad s
  | .vaultSlotWrite r slotB val => Sys2Proof.Machine.execVaultSlotWrite r slotB val s
  | .spmSlotWrite r b val => Sys2Proof.Machine.execSpmSlotWrite r b val s
  | .spmRegionWrite r n val => Sys2Proof.Machine.execSpmRegionWrite r n val s
  | .syncSignalReceive p sig => Sys2Proof.Machine.execSyncSignalReceive p sig s
  | .barrierReleaseReceive p sig => Sys2Proof.Machine.execBarrierReleaseReceive p sig s
  | .syncPoll c n => Sys2Proof.Machine.execSyncPoll c n s
  | .waitWatchdogExpire c n => Sys2Proof.Machine.execWaitWatchdogExpire c n s
  | .streamWatchdogExpire c e => Sys2Proof.Machine.execStreamWatchdogExpire c e s
  | .grantWatchdogExpire ch => Sys2Proof.Machine.execGrantWatchdogExpire ch s
  | .syncFlitSend p ps => Sys2Proof.Machine.execSyncFlitSend p ps s
  | .syncRequestReceive p f rxPs txPs => Sys2Proof.Machine.execSyncRequestReceive p f rxPs txPs s
  | .syncReplyReceive p f rxPs => Sys2Proof.Machine.execSyncReplyReceive p f rxPs s
  | .holdoverEnter => Sys2Proof.Machine.execHoldoverEnter s
  | .actingMasterHandover => Sys2Proof.Machine.execActingMasterHandover s
  | .snapAtWrite r val => Sys2Proof.Machine.execSnapAtWrite r val s
  | .snapshotLatch => Sys2Proof.Machine.execSnapshotLatch s
  | .dataFlitReceive p f => Sys2Proof.Machine.execDataFlitReceive p f s
  | .ctrlFlitReceive p f => Sys2Proof.Machine.execCtrlFlitReceive p f s
  | .ctrlFlitDue p => Sys2Proof.Machine.execCtrlFlitDue p s
  | .nakFlitReceive p f => Sys2Proof.Machine.execNakFlitReceive p f s
  | .replayTimeout p => Sys2Proof.Machine.execReplayTimeout p s
  | .fenceFlitReceive p f => Sys2Proof.Machine.execFenceFlitReceive p f s
  | .fenceFlitResend p => Sys2Proof.Machine.execFenceFlitResend p s
  | .helloFlitReceive p f => Sys2Proof.Machine.execHelloFlitReceive p f s
  | .silenceTimeout p lossOfLock => Sys2Proof.Machine.execSilenceTimeout p lossOfLock s
  | .linkKill r p val => Sys2Proof.Machine.execLinkKill r p val s
  | .linkRetrain r p val => Sys2Proof.Machine.execLinkRetrain r p val s
  | .linkEnableWrite r p val => Sys2Proof.Machine.execLinkEnableWrite r p val s
  | .linkTrainDone p => Sys2Proof.Machine.execLinkTrainDone p s
  | .linkAlignDone p => Sys2Proof.Machine.execLinkAlignDone p s
  | .linkHelloDone p latNs hopNs => Sys2Proof.Machine.execLinkHelloDone p latNs hopNs s
  | .linkBringupTimeout p => Sys2Proof.Machine.execLinkBringupTimeout p s
  | .linkAutoRetrain p => Sys2Proof.Machine.execLinkAutoRetrain p s
  | .kxHello p m => Sys2Proof.Machine.execKxHello p m s
  | .kxReply p m => Sys2Proof.Machine.execKxReply p m s
  | .kxAuth p a => Sys2Proof.Machine.execKxAuth p a s
  | .kxDone p mac => Sys2Proof.Machine.execKxDone p mac s
  | .rekeyStart p => Sys2Proof.Machine.execRekeyStart p s
  | .writePacketReceive p pkt => Sys2Proof.Machine.execWritePacketReceive p pkt s
  | .readReqReceive p pkt => Sys2Proof.Machine.execReadReqReceive p pkt s
  | .readRespReceive p pkt => Sys2Proof.Machine.execReadRespReceive p pkt s
  | .cnpReceive p pkt => Sys2Proof.Machine.execCnpReceive p pkt s
  | .rateRecoverStep dst => Sys2Proof.Machine.execRateRecoverStep dst s
  | .faultReport rep => Sys2Proof.Machine.execFaultReport rep s
  | .faultMapReceive seq map verdict => Sys2Proof.Machine.execFaultMapReceive seq map verdict s
  | .tablePrepareDone => Sys2Proof.Machine.execTablePrepareDone s
  | .prepareAckReceive src seq => Sys2Proof.Machine.execPrepareAckReceive src seq s
  | .prepareAckTimeout => Sys2Proof.Machine.execPrepareAckTimeout s
  | .flipAtReceive at_ => Sys2Proof.Machine.execFlipAtReceive at_ s
  | .epochFlip => Sys2Proof.Machine.execEpochFlip s
  | .drainCheckSend => Sys2Proof.Machine.execDrainCheckSend s
  | .drainCheckReceive at_ => Sys2Proof.Machine.execDrainCheckReceive at_ s
  | .drainCheckLatch => Sys2Proof.Machine.execDrainCheckLatch s
  | .drainCheckReplyReceive src rep => Sys2Proof.Machine.execDrainCheckReplyReceive src rep s
  | .retireReceive => Sys2Proof.Machine.execRetireReceive s
  | .drainToExpire => Sys2Proof.Machine.execDrainToExpire s
  | .sliceMapUpdate at_ c => Sys2Proof.Machine.execSliceMapUpdate at_ c s
  | .heartbeatSend => Sys2Proof.Machine.execHeartbeatSend s
  | .heartbeatReceive p => Sys2Proof.Machine.execHeartbeatReceive p s
  | .neighbourSilent p => Sys2Proof.Machine.execNeighbourSilent p s
  | .mirrorWriteReceive p step pkt => Sys2Proof.Machine.execMirrorWriteReceive p step pkt s
  | .mirrorAckReceive j step => Sys2Proof.Machine.execMirrorAckReceive j step s
  | .readyReceive j src step => Sys2Proof.Machine.execReadyReceive j src step s
  | .decideReceive pkey step => Sys2Proof.Machine.execDecideReceive pkey step s
  | .decideAckReceive j step => Sys2Proof.Machine.execDecideAckReceive j step s
  | .commitReceive j step => Sys2Proof.Machine.execCommitReceive j step s
  | .applyReceive pkey step => Sys2Proof.Machine.execApplyReceive pkey step s
  | .safeRequestReceive => Sys2Proof.Machine.execSafeRequestReceive s
  | .resolutionReportReceive j src rep => Sys2Proof.Machine.execResolutionReportReceive j src rep s
  | .rollbackReceive j target => Sys2Proof.Machine.execRollbackReceive j target s
  | .takeoverReceive t => Sys2Proof.Machine.execTakeoverReceive t s
  | .relinquishReceive => Sys2Proof.Machine.execRelinquishReceive s
  | .restoreComplete j => Sys2Proof.Machine.execRestoreComplete j s
  | .restoreReportReceive j src => Sys2Proof.Machine.execRestoreReportReceive j src s
  | .relaunchCountReceive j at_ => Sys2Proof.Machine.execRelaunchCountReceive j at_ s
  | .relaunch j => Sys2Proof.Machine.execRelaunch j s
  | .recoveryBoundExpire j => Sys2Proof.Machine.execRecoveryBoundExpire j s
  | .toMaint r => Sys2Proof.Machine.execToMaint r s
  | .resume r => Sys2Proof.Machine.execResume r s
  | .reqSlice r => Sys2Proof.Machine.execReqSlice r s
  | .reqDevice r => Sys2Proof.Machine.execReqDevice r s
  | .rngSeedWrite r val => Sys2Proof.Machine.execRngSeedWrite r val s
  | .arpReceive j f => Sys2Proof.Machine.execArpReceive j f s
  | .neighbourDiscoveryReceive j f => Sys2Proof.Machine.execNeighbourDiscoveryReceive j f s
  | .icmpEchoReceive j f => Sys2Proof.Machine.execIcmpEchoReceive j f s
  | .lldpSend j => Sys2Proof.Machine.execLldpSend j s
  | .lldpReceive j tlvs => Sys2Proof.Machine.execLldpReceive j tlvs s
  | .ethFrameDiscard j => Sys2Proof.Machine.execEthFrameDiscard j s
  | .rdmaWriteReceive q w => Sys2Proof.Machine.execRdmaWriteReceive q w s
  | .rdmaReadRequestReceive q rd => Sys2Proof.Machine.execRdmaReadRequestReceive q rd s
  | .rdmaReadResponseReceive q rsp => Sys2Proof.Machine.execRdmaReadResponseReceive q rsp s
  | .roceAckReceive q psn => Sys2Proof.Machine.execRoceAckReceive q psn s
  | .roceNakReceive q psn kind => Sys2Proof.Machine.execRoceNakReceive q psn kind s
  | .roceRetransmitTimeout q => Sys2Proof.Machine.execRoceRetransmitTimeout q s
  | .roceCnpReceive q => Sys2Proof.Machine.execRoceCnpReceive q s
  | .roceRateRecover q => Sys2Proof.Machine.execRoceRateRecover q s
  | .pfcFrameReceive e prio pause => Sys2Proof.Machine.execPfcFrameReceive e prio pause s
  | .qpCreate r => Sys2Proof.Machine.execQpCreate r s
  | .qpDestroy r => Sys2Proof.Machine.execQpDestroy r s
  | .jobStart r => Sys2Proof.Machine.execJobStart r s
  | .jobStop r => Sys2Proof.Machine.execJobStop r s
  | .exportAdapter r => Sys2Proof.Machine.execExportAdapter r s
  | .adapterGen r => Sys2Proof.Machine.execAdapterGen r s
  | .baseSwitch r => Sys2Proof.Machine.execBaseSwitch r s
  | .memRd r addr len => Sys2Proof.Machine.execMemRd r addr len s
  | .memWr r addr data => Sys2Proof.Machine.execMemWr r addr data s
  | .install r addr data => Sys2Proof.Machine.execInstall r addr data s
  | .ltol r val => Sys2Proof.Machine.execLtol r val s
  | .enumerate next tag => Sys2Proof.Machine.execEnumerate next tag s
  | .relay r target inner => Sys2Proof.Machine.execRelay r target inner s
  | .relayedRequestReceive src tag inner => Sys2Proof.Machine.execRelayedRequestReceive src tag inner s
  | .relayResponseReceive src tag status reason data => Sys2Proof.Machine.execRelayResponseReceive src tag status reason data s
  | .eventAck seq => Sys2Proof.Machine.execEventAck seq s
  | .chainResponseReceive tag status data => Sys2Proof.Machine.execChainResponseReceive tag status data s
  | .chainRetryTimeout tag => Sys2Proof.Machine.execChainRetryTimeout tag s
  | .chainLinkDeath out => Sys2Proof.Machine.execChainLinkDeath out s
  | .snapshot r at_ => Sys2Proof.Machine.execSnapshot r at_ s
  | .launch r at_ k => Sys2Proof.Machine.execLaunch r at_ k s
  | .freeze r at_ pkey thaw => Sys2Proof.Machine.execFreeze r at_ pkey thaw s
  | .drain r at_ pkey => Sys2Proof.Machine.execDrain r at_ pkey s
  | .reset r at_ cold force => Sys2Proof.Machine.execReset r at_ cold force s
  | .hostDma r timed item pkey toHost hbm host len => Sys2Proof.Machine.execHostDma r timed item pkey toHost hbm host len s
  | .sliceAlloc r timed d => Sys2Proof.Machine.execSliceAlloc r timed d s
  | .sliceRemove r timed pkey => Sys2Proof.Machine.execSliceRemove r timed pkey s
  | .planRetry r timed => Sys2Proof.Machine.execPlanRetry r timed s
  | .loadRetry r timed => Sys2Proof.Machine.execLoadRetry r timed s
  | .weightLoad r timed k => Sys2Proof.Machine.execWeightLoad r timed k s
  | .timedCommandAct => Sys2Proof.Machine.execTimedCommandAct s
  | .powerOn => Sys2Proof.Machine.execPowerOn s
  | .resetRelease b => Sys2Proof.Machine.execResetRelease b s
  | .assignReceive p coord seedUid => Sys2Proof.Machine.execAssignReceive p coord seedUid s
  | .neighbourReceive p coord => Sys2Proof.Machine.execNeighbourReceive p coord s
  | .reportReceive p rep => Sys2Proof.Machine.execReportReceive p rep s
  | .reportTimeout => Sys2Proof.Machine.execReportTimeout s
  | .noSeedTimeout => Sys2Proof.Machine.execNoSeedTimeout s
  | .spareWaitExpire => Sys2Proof.Machine.execSpareWaitExpire s
  | .loadUnitRequest src k unit => Sys2Proof.Machine.execLoadUnitRequest src k unit s
  | .loadDoneReport src => Sys2Proof.Machine.execLoadDoneReport src s
  | .readyCountReceive at_ => Sys2Proof.Machine.execReadyCountReceive at_ s
  | .readyEnter => Sys2Proof.Machine.execReadyEnter s
  | .nonce r => Sys2Proof.Machine.execNonce r s
  | .attest r => Sys2Proof.Machine.execAttest r s
  | .getEk r => Sys2Proof.Machine.execGetEk r s
  | .installOpen r v => Sys2Proof.Machine.execInstallOpen r v s
  | .installClose r => Sys2Proof.Machine.execInstallClose r s
  | .ownerTransfer r v => Sys2Proof.Machine.execOwnerTransfer r v s
  | .pwrCtlWrite r val => Sys2Proof.Machine.execPwrCtlWrite r val s
  | .pointChange => Sys2Proof.Machine.execPointChange s
  | .sensorPoll x => Sys2Proof.Machine.execSensorPoll x s
  | .idleEnter => Sys2Proof.Machine.execIdleEnter s
  | .idleExit cause => Sys2Proof.Machine.execIdleExit cause s
  | .ltolWrite r val => Sys2Proof.Machine.execLtolWrite r val s
  | .enter r => Sys2Proof.Machine.execEnter r s
  | .leave r => Sys2Proof.Machine.execLeave r s
  | .go r val => Sys2Proof.Machine.execGo r val s
  | .stop r val => Sys2Proof.Machine.execStop r val s
  | .kettleFirstCycle => Sys2Proof.Machine.execKettleFirstCycle s
  | .kettleTestEnd => Sys2Proof.Machine.execKettleTestEnd s
  | .ageingSample x => Sys2Proof.Machine.execAgeingSample x s
  | .predictorRun => Sys2Proof.Machine.execPredictorRun s
  | .resetNAssert => Sys2Proof.Machine.execResetNAssert s
  | .vsb12Loss => Sys2Proof.Machine.execVsb12Loss s
  | .refclkLoss => Sys2Proof.Machine.execRefclkLoss s
  | .i3cAddressAssign dyn viaStatic static => Sys2Proof.Machine.execI3cAddressAssign dyn viaStatic static s
  | .i3cPrivateWrite data => Sys2Proof.Machine.execI3cPrivateWrite data s
  | .i3cPrivateRead len => Sys2Proof.Machine.execI3cPrivateRead len s
  | .jtagInstruction j => Sys2Proof.Machine.execJtagInstruction j s
  | .jtagTapReset => Sys2Proof.Machine.execJtagTapReset s
  | .keyPhaseExhausted p => Sys2Proof.Machine.execKeyPhaseExhausted p s
  | .admissionLogTimeout j => Sys2Proof.Machine.execAdmissionLogTimeout j s
  | .noFlalysPortUp => Sys2Proof.Machine.execNoFlalysPortUp s
  | .placementReportReceive src => Sys2Proof.Machine.execPlacementReportReceive src s
  | .lastSendReportReceive src sec => Sys2Proof.Machine.execLastSendReportReceive src sec s
  | .spareAttestationReceive p a => Sys2Proof.Machine.execSpareAttestationReceive p a s
  | .ethLinkChange j up => Sys2Proof.Machine.execEthLinkChange j up s
  | .chainLinkUp out => Sys2Proof.Machine.execChainLinkUp out s
  | .chainPacketDiscard crcFail => Sys2Proof.Machine.execChainPacketDiscard crcFail s
  | .chainPacketForward upstream dst bytes => Sys2Proof.Machine.execChainPacketForward upstream dst bytes s
  | .helloFlitSend p => Sys2Proof.Machine.execHelloFlitSend p s
  | .lanePresenceDetect p => Sys2Proof.Machine.execLanePresenceDetect p s
  | .vinLoss => Sys2Proof.Machine.execVinLoss s

end Sys2Proof.Machine
end

