-- ==== Sys2Proof/Safety.lean ====
section
/-! DEFINITION. What statements speak of: canonical states, modules that run, requests not yet answered, and what a command leaves
unchanged. -/

namespace Sys2Proof.Machine

/-- Every family of the module is in canonical form: keys strictly rising, no entry equal to what an unlisted key reads as, and both
byte memories inside their address spaces. -/
structure Dev.Canonical (d : Dev) : Prop where
  regs : mapWf regDefault d.regs = true
  hbm : memWf hbmSize d.hbm = true
  spm : memWf (coreCount * spmSize) d.spm = true
  chans : mapWf (fun _ => ChanSt.init) d.chans = true
  cores : mapWf (fun _ => CoreSt.init) d.cores = true
  clusters : mapWf (fun _ => ClusterSt.init) d.clusters = true
  rings : mapWf (fun _ => RingSt.init) d.rings = true
  slices : mapWf (fun _ => SliceSt.init) d.slices = true
  ports : mapWf (fun _ => PortSt.init) d.ports = true
  snapPend : mapWf regDefault d.snapPend = true
  snapPub : mapWf regDefault d.snapPub = true
  frozen : ∀ r g, d.frozen = some (r, g) → mapWf regDefault r = true

/-- A module between commands: it runs, and no discarded packet waits to be noted. -/
def Dev.steady (d : Dev) : Prop := d.running = true ∧ d.route.lost = []

/-- The command answers a next state with the queue as it was, and a module that satisfies `P`. -/
def Completes (i : Instr) (s : State) (P : Dev → Prop) : Prop := ∃ t, exec i s = .next t ∧ t.pending = s.pending ∧ P t.dev

/-- The registers that a change of the machine state, and the event it raises, can write (R18, R565, R568). -/
def modeRegs : List Reg := [.DEV_STATE, .EVT_STATUS, .CHAIN_ERR]

/-- Every register but those listed reads as before; those of the machine state may change where RUNNING ends. -/
def regsBut (rs : List Reg) (d d' : Dev) : Prop := ∀ r i, r ∉ rs → r ∉ modeRegs → d'.reg r i = d.reg r i

/-- A register keeps its other copies. -/
def otherCopies (r : Reg) (i : Nat) (d d' : Dev) : Prop := ∀ j, j < regCopies → j ≠ i → d'.reg r j = d.reg r j

/-- The module without its registers, and without what a change of the machine state touches: the chain with its events, what was sent, and
the power state. -/
def Dev.besideRegs (d : Dev) : Dev := { d with regs := [], chain := .init, outbox := [], power := .init }

/-- As `besideRegs`, without the cores too. -/
def Dev.besideCores (d : Dev) : Dev := { d.besideRegs with cores := [] }

/-- Nothing was unsent, and of the power state only the start of the idling conditions differs. -/
def sentOn (d d' : Dev) : Prop := d.outbox <+: d'.outbox ∧ d'.power = { d.power with quietAt := d'.power.quietAt }

/-- Nothing has changed but registers, and what a change of the machine state touches. -/
def onlyRegs (d d' : Dev) : Prop := d'.besideRegs = d.besideRegs ∧ sentOn d d'

/-- As `onlyRegs`, and the cores. -/
def onlyCores (d d' : Dev) : Prop := d'.besideCores = d.besideCores ∧ sentOn d d'

/-- Context `n` of core `c` is `x`, with cue firing `fi`, and its next operation is the word `w` of a kind. -/
structure Dev.AtOp (d : Dev) (c n : Nat) (k : OpKind) (w : BitVec 128) (x : ThreadCtx) (fi : Firing) : Prop where
  word : d.nextWord c n = some w
  kind : opKind w = some k
  ctx : (d.core c).ctx n = x
  cur : x.cur = some fi

/-- The core after context `n` has passed the operation it issues, changed by `g`. -/
def Dev.passed (d : Dev) (c n : Nat) (g : ThreadCtx → ThreadCtx) : CoreSt :=
  onCtx n (fun x => settle (d.cues c) (g { x with nextOp := x.nextOp + 1, st := .issuing })) (d.core c)

/-- An operation has been issued: core `c` is `cs`, SEQ_ISSUE counts it, and every other core and register is as before, but registers
listed. -/
structure Issued (d d' : Dev) (c : Nat) (cs : CoreSt) (rs : List Reg) : Prop where
  core : d'.core c = cs
  cores : ∀ c', c' ≠ c → d'.core c' = d.core c'
  count : d'.fld F.SEQ_ISSUE_OPS c = (d.fld F.SEQ_ISSUE_OPS c + 1) % 2 ^ 64
  copies : otherCopies .SEQ_ISSUE c d d'
  regs : regsBut (.SEQ_ISSUE :: rs) d d'
  rest : onlyCores d d'

/-- Only the registers listed have changed, and what a change of the machine state touches. -/
def Dev.wrote (d d' : Dev) (rs : List Reg) : Prop := regsBut rs d d' ∧ onlyRegs d d'

/-- A request whose source and tag have drawn no response yet (R558). -/
def Dev.fresh (d : Dev) (r : Req) : Prop := d.cached r = none

/-- A request has drawn its response, which is kept for a repeat of its tag, and CHAIN_CNT.RX has counted it (R557, R558, R589). -/
def Dev.answered (d d' : Dev) (r : Req) (a : Answer) : Prop :=
  Msg.resp r a.status a.reason a.data ∈ d'.outbox ∧
  d'.cached r = some ⟨r.path, r.src, r.tag, a.status, a.reason, a.data⟩ ∧
  d'.fld F.CHAIN_CNT_RX = (d.fld F.CHAIN_CNT_RX + 1) % 2 ^ 32

/-- The work of slice `i` has timed out (R301, R330, R456, R464): it is fenced and halts, no admitted item of it is left but host DMA items
and exports, and those of every other slice are. -/
structure TimedOut (d d' : Dev) (i : Nat) : Prop where
  fenced : (d'.slice i).fenced = true
  halted : (d'.slice i).halted = true
  none : ∀ x ∈ d'.commit.items, x.pkey = (d.slice i).pkey → x.typ = 3 ∨ x.typ = 4
  others : ∀ x ∈ d.commit.items, x.pkey ≠ (d.slice i).pkey → x ∈ d'.commit.items

/-- What holds between commands (R305): no discarded packet waits to be noted, and the module is RUNNING only while a context that is live
runs. -/
def Dev.Settled (d : Dev) : Prop := d.route.lost = [] ∧ ¬ (d.mode = stRunning ∧ d.allIdle = true)

/-- Every byte of HBM and of the scratchpads reads as before. -/
def sameMemory (d d' : Dev) : Prop :=
  (∀ a, memByte d'.hbm a = memByte d.hbm a) ∧ (∀ c a n, d'.readSpm c a n = d.readSpm c a n)

/-- A family of latched words holds every latched counter of the module as it stands (R338); CHAIN_CNT.RX moves with the request that
latches. -/
def latchedAs (d : Dev) (m : SMap Nat) : Prop :=
  ∀ f ∈ latchedFields, f ≠ F.CHAIN_CNT_RX → ∀ i, (mapGet regDefault m (regKey f.reg i) >>> f.lo) % 2 ^ (f.hi - f.lo + 1) = d.fld f i

/-- The registers whose writes follow a rule of their own (R656). -/
def ownRule : List Reg :=
  [.RING_CTL, .SAFE_CTL, .SVC_CMD, .SEC_CMD, .MAINT_CTL, .HBM_FREEZE, .SPM_SLOT, .SPM_REGION, .VAULT_SLOT, .RNG_SEED, .SNAP_AT,
    .LINK_CTL, .CORE_ARRAYMODE, .PWR_CTL, .LTOL, .KETTLE_RUN, .KETTLE_CTL]

/-- No credit is withheld from a leaf, and the leaf tree takes every tile of it (R38, R251). -/
def Dev.takesLeaf (d : Dev) (k : Nat) (dir : Dir) (e : LeafExt) (body : List Byte) : Bool :=
  let lt := d.leafTiles e body
  let bad := lt.code.any fun x => x.bad
  let fed := runAct (inSequence [goLive k dir,
    feedTiles k dir e.layer.toNat e.tile.toNat bad ((List.range lt.tiles.length).zip lt.tiles)]) d
  !d.leafHeld k dir e.year.toNat e.day.toNat && decide (lt.tiles.length ≤ ((fed.ring k).dir dir).fed)

/-- The ring angle of a direction has moved to a day: the leaf is no longer under way, and the cues of the day are due on every core of
the binding, unless the slice is fenced (R38, R278). -/
def Dev.turned (d d' : Dev) (k : Nat) (dir : Dir) (year day : Nat) : Prop :=
  d'.angle k dir = some (year, day) ∧ ((d'.ring k).dir dir).reading = false ∧ ((d'.ring k).dir dir).rx = none ∧
  ∀ i c b p, d.ringSlice k = some i → d.coreSlice c = some i → (d.core c).live = some b → b.ring = k → d.liveProg c = some p →
    (d'.slice i).fenced = true ∨ (d'.core c).due = (d.core c).due ++
      dueCues p (dayTrig dir) year day (d.stepOf k i year) ((d.plan k).bwd year)

/-- The request of a command that is executed once for its source and tag (R558), when its packet is well formed (R555); a command that relays
a request, or may forward it, has none. -/
def servedOnce (i : Instr) : Option Req :=
  let ifNot := fun (b : Bool) (r : Req) => if b then none else some r
  match i with
  | .registerWrite r _ n _ => ifNot (n = 0 || 8 < n) r
  | .ringCtlArm r _ _ | .ringCtlStop r _ _ | .linkKill r _ _ | .linkRetrain r _ _ | .linkEnableWrite r _ _ => some r
  | .coreArraymodeWrite r _ _ | .hbmFreezeWrite r _ _ | .vaultSlotWrite r _ _ | .spmSlotWrite r _ _ | .spmRegionWrite r _ _ => some r
  | .snapAtWrite r _ | .rngSeedWrite r _ | .pwrCtlWrite r _ | .ltolWrite r _ | .go r _ | .stop r _ => some r
  | .toMaint r | .resume r | .reqSlice r | .reqDevice r | .enter r | .leave r => some r
  | .qpCreate r | .qpDestroy r | .jobStart r | .jobStop r | .exportAdapter r | .adapterGen r | .baseSwitch r => some r
  | .nonce r | .attest r | .getEk r | .installOpen r _ | .installClose r | .ownerTransfer r _ => some r
  | .snapshot r _ | .launch r _ _ | .freeze r _ _ _ | .drain r _ _ | .reset r _ _ _ => some r
  | .hostDma r _ _ _ _ _ _ _ | .planRetry r _ | .loadRetry r _ | .weightLoad r _ _ => ifNot r.bcast r
  | .memWr r _ bs => ifNot (r.bcast || bs.length = 0 || 1024 < bs.length) r
  | .install r _ bs => ifNot (r.bcast || bs.length ≠ 1024) r
  | .ltol r v => ifNot (bitsOf v 63 32 ≠ 0) r
  | _ => none

/-- A counter has counted `n` events, modulo its width. -/
def Dev.counted (d d' : Dev) (f : Fld) (i n : Nat) : Prop := d'.fld f i = (d.fld f i + n) % 2 ^ (f.hi - f.lo + 1)

/-- A saturating counter has counted one event. -/
def Dev.tallied (d d' : Dev) (f : Fld) (i : Nat) : Prop := d'.fld f i = min (2 ^ (f.hi - f.lo + 1) - 1) (d.fld f i + 1)

/-- The module is in the device-level safe state (R462, R463, R650); one that was not has recorded the cause, drives FAULT_N low, has fenced
every slice it is a member of, and has flooded a device fence from every port that was UP. -/
def Dev.enteredSafe (d d' : Dev) (cause : Nat) : Prop :=
  d'.mode = stSafe ∧ (d.mode ≠ stSafe →
    d'.fld F.SAFE_STATUS_CAUSE = cause ∧ d'.fld F.SAFE_STATUS_ENTRY_GCNT = d.now % 2 ^ 32 ∧ d'.fld F.SAFE_STATUS_FAULT_N = 1 ∧
    (∀ i, d.memberHere (d.slice i) = true → (d'.slice i).fenced = true) ∧
    ∀ p, p < 6 → d.fld F.LINK_STATUS_STATE p = 5 → Msg.fence p true 0 d.gcnt ∈ d'.outbox)

/-- A link has died (R384–R388, R397, R476): its port is DEAD and admits nothing, it holds no flit, the cause and the loss are recorded, and
every slice that the death concerns is fenced; no byte of memory changes. -/
structure LinkDied (d d' : Dev) (p : Nat) (bit : Fld) : Prop where
  state : d'.linkState p = lsDead
  cause : d'.fld bit p = 1
  count : d.tallied d' F.LINK_ERR_FAULTS p
  shut : d'.fld F.LINK_STATUS_ADMITTED p = 0
  held : (d'.port p).held = [] ∧ (d'.port p).rx = none
  lost : d'.fld F.LINK_LOST_ENTRIES p = min 64 (lostPairs (d.port p).held ++ poisonPairs (d.port p)).length
  fenced : ∀ i ∈ d.slicesOnLink p (lostPairs (d.port p).held ++ poisonPairs (d.port p)),
    (d.slice i).desc.isSome = true → (d'.slice i).fenced = true
  memory : sameMemory d d'

/-- A port sends its held flits again from one on, and counts it (R372); at REPLAY_MAX resends from one flit the link dies (R384). -/
def Resent (d d' : Dev) (p e : Nat) : Prop :=
  let s := d.port p
  let again := if s.resendSeq = e then s.resends + 1 else 1
  let n := (s.held.dropWhile fun h => h.seq ≠ e).length
  if d.fld F.LINK_CFG_REPLAY_MAX p ≤ again then LinkDied d d' p F.LINK_ERR_REPLAY_MAX
  else d.counted d' F.LINK_RETRY_EPISODES p 1 ∧ d.counted d' F.LINK_RETRY_FLITS p n ∧ Msg.resendFlits p e n ∈ d'.outbox ∧
    (d'.port p).resends = again ∧ (d'.port p).resendSeq = e ∧ d'.linkState p = d.linkState p

/-- A port has entered a state of its link, whose count it keeps (R379, R392). -/
def Dev.enteredLink (d d' : Dev) (p st : Nat) : Prop :=
  d'.linkState p = st ∧ d'.fld F.LINK_STATUS_ENTRY_GCNT p = d.now % 2 ^ 32 ∧ (d'.port p).enteredAt = d.now

/-- The command that a relayed request stands for at the module that runs it (R560); a read of a register has no row. -/
def relayedAs (r : Req) (inner : InnerReq) : Option Instr :=
  match inner with
  | .regRd _ => none
  | .regWr addr bytes val => some (.registerWrite r addr bytes val)
  | .memRd addr len => some (.memRd r addr len)
  | .memWr addr data => some (.memWr r addr data)
  | .install addr data => some (.install r addr data)
  | .ltol val => some (.ltol r val)
  | .cmd (.snapshot at_) => some (.snapshot r at_)
  | .cmd (.launch at_ k) => some (.launch r at_ k)
  | .cmd (.freeze at_ key thaw) => some (.freeze r at_ key thaw)
  | .cmd (.drain at_ key) => some (.drain r at_ key)
  | .cmd (.reset at_ cold force) => some (.reset r at_ cold force)
  | .cmd (.hostDma timed item key toHost hbm host len) => some (.hostDma r timed item key toHost hbm host len)
  | .cmd (.sliceAlloc timed d) => some (.sliceAlloc r timed d)
  | .cmd (.sliceRemove timed key) => some (.sliceRemove r timed key)
  | .cmd (.planRetry timed) => some (.planRetry r timed)
  | .cmd (.loadRetry timed) => some (.loadRetry r timed)
  | .cmd (.weightLoad timed k) => some (.weightLoad r timed k)

/-- The commands of the board, which act whether or not the module runs. -/
def boardCommand (i : Instr) : Bool :=
  match i with
  | .powerOn | .resetNAssert | .vsb12Loss | .vinLoss | .jtagTapReset => true
  | .resetRelease _ | .i3cPrivateWrite _ | .i3cPrivateRead _ | .jtagInstruction _ => true
  | .i3cAddressAssign _ _ _ => true
  | _ => false

end Sys2Proof.Machine
end

