-- ==== Sys2Proof/Certificates/Slice0/Obligations.lean ====
section
/-! DEFINITION. The statements for the provers. -/

open Sys2Proof Sys2Proof.Machine

/-- R294, R296 (07): NOP completes at issue and does nothing; SETP writes VALUE into P[REG] and no other parameter; LOOP enters its body
with IDX 0, or skips it when its count is 0, the count being COUNT or, with RT, the value of P[PREG]. Each moves its context on by one
operation, counts it in SEQ_ISSUE, and changes nothing else. -/
def Obligations.NopSetpLoopComplete : Prop :=
  ∀ (s : State) (c : Fin 25600) (n : Fin 64) (w : BitVec 128) (x : ThreadCtx) (fi : Firing), s.dev.steady →
    (s.dev.AtOp c n .nop w x fi → Completes (.nop c n) s fun d => Issued s.dev d c (s.dev.passed c n id) []) ∧
    (s.dev.AtOp c n .setp w x fi → Completes (.setp c n) s fun d =>
      Issued s.dev d c (s.dev.passed c n fun y => { y with params := mapSet (fun _ => 0) (setpReg w) (setpValue w) y.params }) [] ∧
      ((d.core c).ctx n).param (setpReg w) = setpValue w ∧
      ∀ j, j ≠ setpReg w → ((d.core c).ctx n).param j = x.param j) ∧
    (s.dev.AtOp c n .loop w x fi →
      let count := if loopRt w then (x.param (loopPreg w)).toNat else loopCount w
      Completes (.loop c n) s fun d => Issued s.dev d c (s.dev.passed c n fun y =>
        if count = 0 then { y with nextOp := y.nextOp + loopBody w }
        else { y with loops := ⟨y.nextOp, y.nextOp + loopBody w, 0, count⟩ :: y.loops }) [])

/-- R295, R312 (07): the first COMMIT of a core in a step waits for everything issued before it and holds its context; a second one of the
same step completes at issue and sets SEQ_ERR.COMMIT2; one of another step waits while the first still waits.
R295, R303, R448 (07, 11): COMMIT completes once nothing issued before it is under way; the core's last commit is then the step's, the
core has reported for the step, and its core state record is staged. Until then nothing changes. -/
def Obligations.CommitIssuesAndCompletes : Prop :=
  (∀ (s : State) (c : Fin 25600) (n : Fin 64) (w : BitVec 128) (x : ThreadCtx) (fi : Firing), s.dev.steady →
    s.dev.AtOp c n .commit w x fi →
    let cs := s.dev.core c
    (cs.lastCommit ≠ some fi.step → cs.commitWait = none → Completes (.commit c n) s fun d =>
      Issued s.dev d c { s.dev.passed c n (fun y => { y with out := y.out ++ [⟨cs.opCount, []⟩] }) with
        commitWait := some (n.val, cs.opCount, fi.step), opCount := cs.opCount + 1 } []) ∧
    (cs.lastCommit = some fi.step ∨ (∃ m j, cs.commitWait = some (m, j, fi.step)) → Completes (.commit c n) s fun d =>
      Issued s.dev d c (s.dev.passed c n id) [.SEQ_ERR] ∧ d.fld F.SEQ_ERR_COMMIT2 c = 1 ∧
      d.fld F.SEQ_ERR_FAULTS c = min 4294967295 (s.dev.fld F.SEQ_ERR_FAULTS c + 1)) ∧
    (cs.lastCommit ≠ some fi.step → (∃ m j t, cs.commitWait = some (m, j, t) ∧ t ≠ fi.step) →
      Completes (.commit c n) s fun d => d.cores = s.dev.cores ∧ regsBut [] s.dev d ∧ onlyRegs s.dev d)) ∧
  (∀ (s : State) (c : Fin 25600) (m j t i : Nat), s.dev.steady → (s.dev.core c).commitWait = some (m, j, t) →
    s.dev.coreSlice c = some i → s.dev.coreRuns c = true →
    (s.dev.behindCommit c j = false → ((s.dev.slice i).committed.any fun x => t ≤ x) = false → Completes (.commitComplete c) s fun d =>
      (d.core c).commitWait = none ∧ (d.core c).lastCommit = some t ∧
      (∃ e ∈ (d.slice i).steps, e.step = t ∧ c.val ∈ e.reports) ∧
      (∃ r ∈ d.commit.recStaged, r.core = c.val ∧ r.slice = i ∧ r.step = t) ∧
      d.hbm = s.dev.hbm ∧ d.spm = s.dev.spm ∧ regsBut [] s.dev d) ∧
    (s.dev.behindCommit c j = true → Completes (.commitComplete c) s fun d =>
      d.cores = s.dev.cores ∧ d.slices = s.dev.slices ∧ d.commit = s.dev.commit ∧ regsBut [] s.dev d))

/-- R283, R284, R290 (07): VEC and SFU issue once no earlier operation of the context conflicts and the unit's queue has room: the operation
enters the vector and special-function queue with its parameters as they stand at issue. A LEN of 0 completes at issue. A hazard or a full
queue holds the context where it is. -/
def Obligations.VecSfuIssue : Prop :=
  ∀ (s : State) (c : Fin 25600) (n : Fin 64) (w : BitVec 128) (x : ThreadCtx) (fi : Firing) (sfu : Bool), s.dev.steady →
    s.dev.AtOp c n (if sfu then .sfu else .vec) w x fi →
    let i : Instr := if sfu then .sfu c n else .vec c n
    let v := vecFields w
    let uses := s.dev.useOf c v.s1reg false ++ (if !sfu && vecTwo v.fn then s.dev.useOf c v.s2reg false else []) ++
      s.dev.useOf c v.dreg true
    let blocked := hazard x uses || decide (8 ≤ (s.dev.core c).vecQ.length)
    (v.len = 0 → Completes i s fun d => Issued s.dev d c (s.dev.passed c n id) []) ∧
    (v.len ≠ 0 → blocked = false → Completes i s fun d => ∃ op : UnitOp,
      op.ctx = n.val ∧ op.id = (s.dev.core c).opCount ∧ op.word = w ∧ op.firing = fi ∧ op.params = x.paramList ∧
      (d.core c).vecQ = (s.dev.core c).vecQ ++ [op] ∧ (d.core c).opCount = (s.dev.core c).opCount + 1 ∧
      (d.core c).ctx n = (s.dev.passed c n fun y => { y with out := y.out ++ [⟨(s.dev.core c).opCount, uses⟩] }).ctx n ∧
      d.fld F.SEQ_ISSUE_OPS c = (s.dev.fld F.SEQ_ISSUE_OPS c + 1) % 2 ^ 64 ∧ regsBut [.SEQ_ISSUE] s.dev d ∧ onlyCores s.dev d) ∧
    (v.len ≠ 0 → blocked = true → Completes i s fun d => d.cores = s.dev.cores ∧ regsBut [] s.dev d ∧ onlyRegs s.dev d)

/-- R283, R284, R287, R288, R102 (02, 07): TILE issues once no hazard holds it and its unit's queue has room, and goes to the arrays, the
thin path or the vector unit as its shape says; one with no elements to compute completes at issue. -/
def Obligations.TileIssues : Prop :=
  ∀ (s : State) (c : Fin 25600) (n : Fin 64) (w : BitVec 128) (x : ThreadCtx) (fi : Firing), s.dev.steady → s.dev.AtOp c n .tile w x fi →
    let cs := s.dev.core c
    let t := tileFields w
    let g := s.dev.geom c
    let unit := tileUnit g t (t.cont && x.held.isSome)
    let folds := tileFolds g t unit
    let room := tileRoom cs unit folds
    (hazard x (tileUses s.dev c t unit) = false → room = true → Completes (.tile c n) s fun d =>
      (∃ op : UnitOp, op.ctx = n.val ∧ op.id = cs.opCount ∧ op.word = w ∧ op.firing = fi ∧ op.params = x.paramList ∧ op.fold = false ∧
        (d.core c).tileQ = (if unit = .arrays then cs.tileQ ++ [op] else cs.tileQ) ∧
        (d.core c).vecQ = (if unit = .vector then cs.vecQ ++ [op] else cs.vecQ) ∧
        (d.core c).thinQ = (if unit = .thin then cs.thinQ ++ [op]
          else if folds then cs.thinQ ++ [{ op with fold := true }] else cs.thinQ)) ∧
      d.fld F.SEQ_ISSUE_OPS c = (s.dev.fld F.SEQ_ISSUE_OPS c + 1) % 2 ^ 64 ∧
      (unit = .arrays → (∃ b, arrayRows g t.m b ≠ 0) → d.fld F.CORE_STATUS_GATED c = 0) ∧
      regsBut [.SEQ_ISSUE, .CORE_STATUS, .CORE_DUMMY] s.dev d ∧ onlyCores s.dev d) ∧
    (hazard x (tileUses s.dev c t unit) = true ∨ room = false → Completes (.tile c n) s fun d =>
      d.cores = s.dev.cores ∧ regsBut [] s.dev d ∧ onlyRegs s.dev d)

/-- R238, R260, R291 (06, 07): ARM queues a transfer of its stream as its descriptor has it, REARM with the base HBM_BASE + STEP × index and
the offset it carries; each adds 1 to the stream's ARMED count. A full queue or a hazard holds the context where it is. -/
def Obligations.ArmRearmQueue : Prop :=
  ∀ (s : State) (c : Fin 25600) (n : Fin 64) (w : BitVec 128) (x : ThreadCtx) (fi : Firing) (ds : Desc) (again : Bool), s.dev.steady →
    s.dev.AtOp c n (if again then .rearm else .arm) w x fi → s.dev.desc c (opStream w) = some ds →
    let i : Instr := if again then .rearm c n else .arm c n
    let cs := s.dev.core c
    let blocked := decide (8 ≤ (cs.engine ds.eng).queue.length) || hazard x (armUses s.dev c ds)
    (blocked = false → Completes i s fun d => ∃ a : Arm,
      a.stream = opStream w ∧ a.firing = fi ∧ a.rearmed = again ∧ a.armNo = countOf cs.armedCnt (opStream w) + 1 ∧
      a.base = (if again then (rearmBase w : Int) + rearmStep w * rearmIndex (rearmSel w) x fi else (ds.base : Int)) ∧
      a.spmOff = (if again then rearmOff w else ds.spmOff) ∧
      ((d.core c).engine ds.eng).queue = (cs.engine ds.eng).queue ++ [a] ∧
      countOf (d.core c).armedCnt (opStream w) = countOf cs.armedCnt (opStream w) + 1 ∧
      (∀ st, st ≠ opStream w → countOf (d.core c).armedCnt st = countOf cs.armedCnt st) ∧
      (d.core c).ctx n = (s.dev.passed c n id).ctx n ∧
      d.fld F.SEQ_ISSUE_OPS c = (s.dev.fld F.SEQ_ISSUE_OPS c + 1) % 2 ^ 64 ∧ regsBut [.SEQ_ISSUE] s.dev d ∧ onlyCores s.dev d) ∧
    (blocked = true → Completes i s fun d => d.cores = s.dev.cores ∧ regsBut [] s.dev d ∧ onlyRegs s.dev d)

/-- R239, R244, R293, R299 (06, 07): SWAP flips SIDE of its region at once when nothing earlier uses the halves, and otherwise its context
sleeps on the region; SWAIT goes on when the stream's DONE equals its ARMED count, and otherwise its context sleeps on the count; DIGEST
turns folding of a stream's later drains on with its layer, or off. -/
def Obligations.SwapSwaitDigestIssue : Prop :=
  ∀ (s : State) (c : Fin 25600) (n : Fin 64) (w : BitVec 128) (x : ThreadCtx) (fi : Firing), s.dev.steady →
    let cs := s.dev.core c
    let asleep := fun (obj : WaitObj) (due : Bool) =>
      { s.dev.passed c n (fun y => { y with st := .sleeping, wait := some ⟨obj, cs.opCount, due, s.dev.now, false⟩ }) with
        opCount := cs.opCount + 1 }
    (s.dev.AtOp c n .swap w x fi →
      (swapBlocked s.dev c (swapRegion w) cs.opCount = false → Completes (.swap c n) s fun d =>
        Issued s.dev d c { s.dev.passed c n id with
          opCount := cs.opCount + 1, sides := mapSet (fun _ => false) (swapRegion w) (!cs.side (swapRegion w)) cs.sides } []) ∧
      (swapBlocked s.dev c (swapRegion w) cs.opCount = true → Completes (.swap c n) s fun d =>
        Issued s.dev d c (asleep (.swap (swapRegion w)) (swapDue w)) [])) ∧
    (s.dev.AtOp c n .swait w x fi →
      (countOf cs.doneCnt (opStream w) = countOf cs.armedCnt (opStream w) → Completes (.swait c n) s fun d =>
        Issued s.dev d c (s.dev.passed c n id) []) ∧
      (countOf cs.doneCnt (opStream w) ≠ countOf cs.armedCnt (opStream w) → Completes (.swait c n) s fun d =>
        Issued s.dev d c (asleep (.stream (opStream w) (countOf cs.armedCnt (opStream w))) (swaitDue w)) [])) ∧
    (s.dev.AtOp c n .digest w x fi → Completes (.digest c n) s fun d =>
      Issued s.dev d c { s.dev.passed c n id with
        digestOn := if digestOnBit w then mapPut (opStream w) (digestLayer w) cs.digestOn else mapDel (opStream w) cs.digestOn } [])

/-- R285, R289, R290 (03, 07): the oldest operation of the vector and special-function queue completes: what `vecResult` computes of its
sources is written to its destination's words, each source and destination queue advances, the operation leaves its queue and its context
no longer holds it. HBM is as before, and so is every scratchpad byte but those words. -/
def Obligations.VecCompletes : Prop :=
  ∀ (s : State) (c : Fin 25600) (op : UnitOp) (rest : List UnitOp) (sfu : Bool) (r1 r2 : OpRead) (dws : List Nat) (adv : List Upd),
    s.dev.steady → (s.dev.core c).vecQ = op :: rest → opKind op.word = some (if sfu then .sfu else .vec) →
    let v := vecFields op.word
    let n := elemBytes v.sfmt v.len
    let rd := if !sfu && vecReadsDest v.fn then dws else []
    let a := arithOf v.arith
    readOperand s.dev c op v.s1reg v.s1off n vecEngine = some r1 →
    readOperand s.dev c op v.s2reg v.s2off (if !sfu && vecTwo v.fn then n else 0) vecEngine = some r2 →
    destWords s.dev c op v.dreg v.doff (vecDestBytes sfu v) vecEngine = some (dws, adv) →
    s.dev.parityBad c (r1.ws ++ r2.ws ++ rd) = none →
    let out := vecResult sfu v (fp32 (op.params[0]?.getD 0)) (fp32 (op.params[1]?.getD 0)) r1.bs r2.bs (s.dev.readWords c rd)
      (s.dev.coreDraw c op.firing op.draw a.stoch)
    Completes (.vecComplete c) s fun d =>
      d.spm = (applyAll (writeWords c dws out (s.dev.marksOf c (r1.ws ++ r2.ws ++ rd))) s.dev).spm ∧ d.hbm = s.dev.hbm ∧
      (∀ o ∈ (d.core c).vecQ, o.id ≠ op.id) ∧ (∀ o ∈ ((d.core c).ctx op.ctx).out, o.id ≠ op.id) ∧
      regsBut [.SPM_REGION] s.dev d

/-- R285, R287–R289, R134, R146 (03, 07): the oldest TILE of the arrays, or of the thin path, completes: its operands are read, its sums
formed, and without HOLD the output stage's elements are written to the output's words; with HOLD nothing is written. It leaves its queue and its context no
longer holds it. -/
def Obligations.TileCompletes : Prop :=
  ∀ (s : State) (c : Fin 25600) (thin : Bool) (op : UnitOp) (rest : List UnitOp) (rx rw rc : OpRead) (ows : List Nat) (oadv : List Upd),
    s.dev.steady → (if thin then (s.dev.core c).thinQ else (s.dev.core c).tileQ) = op :: rest → op.fold = false →
    let t := tileFields op.word
    let a := arithOf t.arith
    let p := fun (i : Nat) => (op.params[i]?.getD 0).toNat
    let unit : TileUnit := if thin then .thin else .arrays
    readOperand s.dev c op t.xreg (p 2) (if t.k = 0 then 0 else matBytes t.xfmt t.sclX t.m t.k) tileEngine = some rx →
    readOperand s.dev c op t.wreg (p 3) (if t.k = 0 then 0 else tileCount t * tileWords t * 64) tileEngine = some rw →
    readOperand s.dev c op t.creg (p 4) (if t.cuse && !t.hold then matBytes t.cfmt t.sclC t.m t.n else 0) tileEngine = some rc →
    destWords s.dev c op t.oreg (p 5) (if t.hold then 0 else matBytes t.ofmt t.sclO t.m t.n) tileEngine = some (ows, oadv) →
    s.dev.parityBad c (rx.ws ++ rw.ws ++ rc.ws) = none →
    let dat : TileData := ⟨rx.bs, rw.bs, rc.bs⟩
    let sums := tileSums (s.dev.geom c) t unit (s.dev.core c) op dat
    let out := packMat t.ofmt t.sclO a t.m t.n (s.dev.coreDraw c op.firing op.draw a.stoch) (tileOut t op dat sums)
    Completes (.tileComplete c thin) s fun d =>
      d.spm = (if t.hold then s.dev.spm
        else (applyAll (writeWords c ows out (s.dev.marksOf c (rx.ws ++ rw.ws ++ rc.ws))) s.dev).spm) ∧
      d.hbm = s.dev.hbm ∧ (∀ o ∈ (d.core c).tileQ ++ (d.core c).thinQ, o.id ≠ op.id) ∧
      (∀ o ∈ ((d.core c).ctx op.ctx).out, o.id ≠ op.id) ∧
      (thin = true → d.fld F.CORE_THIN_THIN_OPS c = (s.dev.fld F.CORE_THIN_THIN_OPS c + 1) % 2 ^ 32)

/-- R194, R195 (05): a parity mismatch on a word that a completing operation reads takes the place of its effect: SPM_PERR counts it and
names the word.
R79, R105 (02): the drain of an accumulator bank frees the bank; after 200 ns of dummy operations an array's dummy operations end, and
the core is clock-gated when its other array runs neither work nor dummies; before that nothing changes. -/
def Obligations.ArraysAreTimed : Prop :=
  (∀ (s : State) (c : Fin 25600) (w eng : Nat) (ws : List Nat) (act : Act),
    s.dev.parityBad c ws = some w → w < 3072 →
    (runAct (withParity c eng ws act) s.dev).fld F.SPM_PERR_COUNT c = (s.dev.fld F.SPM_PERR_COUNT c + 1) % 2 ^ 32 ∧
    (runAct (withParity c eng ws act) s.dev).fld F.SPM_PERR_WORD c = w) ∧
  (∀ (s : State) (c : Fin 25600) (b : Bool), s.dev.steady →
    let cs := s.dev.core c
    (0 < (if b then cs.drainB else cs.drainA) → Completes (.accumulatorDrainDone c b) s fun d =>
      (if b then (d.core c).drainB else (d.core c).drainA) + 1 = (if b then cs.drainB else cs.drainA) ∧
      (if b then (d.core c).stallB else (d.core c).stallA) = none ∧ regsBut [.CORE_BUBBLE_A, .CORE_BUBBLE_B] s.dev d ∧ onlyCores s.dev d) ∧
    (∀ t, (if b then cs.dummyB else cs.dummyA) = some t → t + 200 ≤ s.dev.now → Completes (.gapFillExpire c b) s fun d =>
      (if b then (d.core c).dummyB else (d.core c).dummyA) = none ∧
      d.fld (if b then F.CORE_STATUS_DUMMY_B else F.CORE_STATUS_DUMMY_A) c = 0 ∧
      (((if b then cs.dummyA else cs.dummyB) = none ∧
        s.dev.bit (if b then F.CORE_STATUS_BUSY_A else F.CORE_STATUS_BUSY_B) c = false) → d.fld F.CORE_STATUS_GATED c = 1) ∧
      regsBut [.CORE_STATUS, .CORE_DUMMY] s.dev d ∧ onlyCores s.dev d) ∧
    (∀ t, (if b then cs.dummyB else cs.dummyA) = some t → s.dev.now < t + 200 → Completes (.gapFillExpire c b) s fun d =>
      d.cores = s.dev.cores ∧ regsBut [] s.dev d ∧ onlyRegs s.dev d))

/-- R292, R317, R319, R321 (08): SIGNAL of this module, behind no transfer under way, applies its update: the sync word then holds the
value that its kind gives, the update is counted in SYNC_SIG, and the context has passed the operation. One to another module leaves as an ORDERED SIGNAL
packet with the sync extension; one that waits for a transfer is held in the core. -/
def Obligations.SignalActs : Prop :=
  ∀ (s : State) (c : Fin 25600) (n : Fin 64) (w : BitVec 128) (x : ThreadCtx) (fi : Firing) (i : Nat), s.dev.steady →
    s.dev.AtOp c n .signal w x fi → s.dev.coreSlice c = some i → syncRoom (s.dev.core c) = true →
    let cs := s.dev.core c
    let pkey := (s.dev.slice i).pkey
    let e := s.dev.syncEntry pkey (opSyncId w)
    let armNo := countOf cs.armedCnt (signalAfter w)
    let waits := signalAfterV w && armNo ≠ countOf cs.doneCnt (signalAfter w)
    let old := s.dev.syncWord (syncLoc e)
    (waits = false → signalRemote w = false → ∀ v, updateWord e old (signalKind w) (opValue w) false = .inr v →
      (signalKind w = 2 → senseOf v = senseOf old) → syncPlace e = 0 → syncCore e < coreCount → syncAddr e < 24576 → Completes (.signal c n) s fun d => d.syncWord (syncLoc e) = v ∧
        d.fld F.SYNC_SIG_APPLIED = (s.dev.fld F.SYNC_SIG_APPLIED + 1) % 2 ^ 32 ∧ d.hbm = s.dev.hbm ∧
        d.fld F.SEQ_ISSUE_OPS c = (s.dev.fld F.SEQ_ISSUE_OPS c + 1) % 2 ^ 64) ∧
    (waits = false → signalRemote w = false → ∀ v tab, updateWord e old 2 (opValue w) false = .inr v → signalKind w = 2 →
      senseOf v ≠ senseOf old → syncPlace e = 0 → syncRelease e ≠ 1023 → s.dev.syncTable pkey = some tab → Completes (.signal c n) s fun d =>
        ∀ dest ∈ (tab.releases[syncRelease e]?).getD [],
          Msg.packet (setFlag (signalPacket s.dev pkey dest 3 (senseOf v) (opSyncId w) 0 65535) 1 s.dev.epoch) ∈ d.outbox) ∧
    (waits = false → signalRemote w = true → Completes (.signal c n) s fun d =>
      Msg.packet (setFlag (signalPacket s.dev pkey (signalDest w) (signalKind w) false (opSyncId w) (opValue w) c) 1 s.dev.epoch) ∈ d.outbox) ∧
    (waits = true → Completes (.signal c n) s fun d =>
      (d.core c).afters = cs.afters ++ [⟨signalAfter w, armNo, signalKind w, opSyncId w, opValue w,
        if signalRemote w then some (signalDest w) else none, n, cs.opCount, fi.step⟩] ∧
      d.spm = s.dev.spm ∧ d.hbm = s.dev.hbm ∧ regsBut [.SEQ_ISSUE] s.dev d)

/-- R292, R317, R324, R326 (08): SYNCWAIT goes on when the word meets its condition; otherwise its context sleeps on the word, SYNC_WAIT counts
the sleep, and an HBM word's channel monitors it while it has an entry free. -/
def Obligations.SyncwaitActs : Prop :=
  ∀ (s : State) (c : Fin 25600) (n : Fin 64) (w : BitVec 128) (x : ThreadCtx) (fi : Firing) (i : Nat), s.dev.steady →
    s.dev.AtOp c n .syncwait w x fi → s.dev.coreSlice c = some i → syncRoom (s.dev.core c) = true →
    let l := syncLoc (s.dev.syncEntry (s.dev.slice i).pkey (opSyncId w))
    let met := condMet x (opSyncId w) (waitCond w) (opValue w) (s.dev.syncWord l)
    let wait : Wait := ⟨.sync (opSyncId w) (waitCond w) (opValue w), (s.dev.core c).opCount, waitDue w, s.dev.now, false⟩
    (met = true → Completes (.syncwait c n) s fun d => Issued s.dev d c (s.dev.passed c n (clearRecord (waitCond w))) []) ∧
    (met = false → Completes (.syncwait c n) s fun d =>
      d.core c = { s.dev.passed c n (fun y => { y with st := .sleeping, wait := some wait }) with opCount := (s.dev.core c).opCount + 1 } ∧
      d.fld F.SYNC_WAIT_SLEEPS = (s.dev.fld F.SYNC_WAIT_SLEEPS + 1) % 2 ^ 32 ∧ regsBut [.SEQ_ISSUE, .SYNC_WAIT] s.dev d ∧
      d.spm = s.dev.spm ∧ d.hbm = s.dev.hbm ∧
      (∀ a, l = .hbm a → (s.dev.chan (channelOf a)).monitors.length < 64 → (c.val, n.val) ∈ (d.chan (channelOf a)).monitors) ∧
      (∀ a, l = .hbm a → 64 ≤ (s.dev.chan (channelOf a)).monitors.length → d.chans = s.dev.chans))

/-- R238, R242, R256, R261 (06): an idle engine starts the arm at the head of its queue: the transfer has the runs that the descriptor gives,
nothing moved, and starts now; one of no bytes completes at once and DONE counts it; one that fails a run-time check sets its STREAM_ERR
bit. -/
def Obligations.TransferStarts : Prop :=
  ∀ (s : State) (c : Fin 25600) (e : Engine) (a : Arm) (rest : List Arm) (x : Desc) (i : Nat), s.dev.steady →
    s.dev.coreSlice c = some i → (s.dev.core c).engine e = ⟨a :: rest, none⟩ → s.dev.desc c a.stream = some x →
    s.dev.coreRuns c = true → x.mcast = false → (x.rtCount = true → s.dev.parityBad c [x.rtWord] = none) →
    (∀ rs blocks, startRuns s.dev c x a (s.dev.slice i).pkey = .runs rs blocks → stringBytes s.dev x rs ≠ 0 → x.buf ≠ .queue →
      Completes (.streamTransferStart c e) s fun d => ∃ t : Xfer, ((d.core c).engine e).xfer = some t ∧
        ((d.core c).engine e).queue = a :: rest ∧ t.runs = rs ∧ t.moved = 0 ∧ t.start = s.dev.now ∧
        d.hbm = s.dev.hbm ∧ d.spm = s.dev.spm) ∧
    (∀ rs blocks, startRuns s.dev c x a (s.dev.slice i).pkey = .runs rs blocks → stringBytes s.dev x rs = 0 →
      aftersOf (s.dev.core c) a = [] → Completes (.streamTransferStart c e) s fun d =>
        countOf (d.core c).doneCnt a.stream = countOf (s.dev.core c).doneCnt a.stream + 1 ∧
        ((d.core c).engine e).xfer = none ∧ d.hbm = s.dev.hbm ∧ d.spm = s.dev.spm) ∧
    (∀ bit h, startRuns s.dev c x a (s.dev.slice i).pkey = .fault bit h → Completes (.streamTransferStart c e) s fun d =>
      d.fld bit c = 1)

/-- R239, R240, R242, R321 (06): a fetch whose whole string can move completes: its bytes are in the words of its region, DONE counts it, and its
engine serves it no longer. HBM is as before.
R240, R242, R266 (06): a drain of this module's own HBM whose whole string can move completes: the words it drains are counted, and a
string of one run, neither coded nor committed nor shared nor digested, is in HBM from the run's address on, with every other byte of HBM as before. -/
def Obligations.TransfersComplete : Prop :=
  (∀ (s : State) (c : Fin 25600) (e : Engine) (a : Arm) (t : Xfer) (x : Desc) (i : Nat), s.dev.steady →
    s.dev.coreSlice c = some i → inService s.dev c e = some (a, t, x) → s.dev.coreRuns c = true → t.owed = 0 → x.mcast = false →
    x.drain = false → (x.buf = .queue → stringBytes s.dev x t.runs - t.moved ≤ queueBytes s.dev c x t) →
    aftersOf (s.dev.core c) a = [] →
    let left := stringBytes s.dev x t.runs - t.moved
    let ws := match x.buf with
      | .queue => stringWords s.dev c x a left
      | _ => (stringWords s.dev c x a (t.moved + left)).drop (t.moved / 64)
    Completes (.streamTransferComplete c e) s fun d =>
      d.spm = (applyAll (putString c ws (fetchString s.dev x t.runs) t.moved left) s.dev).spm ∧ d.hbm = s.dev.hbm ∧
      countOf (d.core c).doneCnt a.stream = countOf (s.dev.core c).doneCnt a.stream + 1 ∧ ((d.core c).engine e).xfer = none) ∧
  (∀ (s : State) (c : Fin 25600) (e : Engine) (a : Arm) (t : Xfer) (x : Desc) (i : Nat) (r : Run), s.dev.steady →
    s.dev.coreSlice c = some i → inService s.dev c e = some (a, t, x) → s.dev.coreRuns c = true → t.owed = 0 → x.mcast = false →
    x.drain = true → x.remote = false → x.coded = false → x.buf = .linear → t.moved = 0 → t.runs = [r] → r.len ≠ 0 →
    a.digest = none → s.dev.isCommitted (s.dev.slice i).pkey r.addr = false → s.dev.shareRing (s.dev.slice i).pkey r.addr = none →
    let ws := stringWords s.dev c x a r.len
    s.dev.parityBad c ws = none → s.dev.marksOf c ws = [] →
    s.dev.hbmBad = [] → r.addr + r.len ≤ hbmSize →
    let bs := (s.dev.readWords c ws).take r.len
    Completes (.streamTransferComplete c e) s fun d =>
      d.hbm = memWrite s.dev.hbm r.addr bs ∧ d.spm = s.dev.spm ∧
      (∀ y, y < r.addr ∨ r.addr + bs.length ≤ y → memByte d.hbm y = memByte s.dev.hbm y) ∧
      d.fld F.STREAM_WORDS_DRAINED c = (s.dev.fld F.STREAM_WORDS_DRAINED c + (r.len + 63) / 64) % 2 ^ 32)

/-- R198, R243, R254 (06): an engine that waits on a QUEUE region is served when the region lets part of its string move: a fetch writes that
part and its transfer stands behind it; with nothing to move it waits on, and the wait is timed.
R244, R299, R300 (06, 07): a SWAP that waits flips SIDE and wakes its context once nothing issued before it uses the halves; before that
nothing changes. -/
def Obligations.WaitsAreServed : Prop :=
  (∀ (s : State) (c : Fin 25600) (e : Engine) (a : Arm) (t : Xfer) (x : Desc) (i : Nat), s.dev.steady →
    s.dev.coreSlice c = some i → inService s.dev c e = some (a, t, x) → s.dev.coreRuns c = true → t.owed = 0 → x.mcast = false →
    x.buf = .queue → x.drain = false →
    let n := queueBytes s.dev c x t
    let left := stringBytes s.dev x t.runs - t.moved
    (n ≠ 0 → n < left → Completes (.regionWaitServed c e) s fun d =>
      (∃ t' : Xfer, ((d.core c).engine e).xfer = some t' ∧ t'.moved = t.moved + n ∧ t'.runs = t.runs) ∧
      d.spm = (applyAll (putString c (stringWords s.dev c x a n) (fetchString s.dev x t.runs) t.moved n) s.dev).spm ∧
      d.hbm = s.dev.hbm ∧ d.fld F.STREAM_WORDS_FETCHED c = (s.dev.fld F.STREAM_WORDS_FETCHED c + (n + 63) / 64) % 2 ^ 32) ∧
    (n = 0 → left ≠ 0 → Completes (.regionWaitServed c e) s fun d =>
      (∃ t' : Xfer, ((d.core c).engine e).xfer = some t' ∧ t'.moved = t.moved ∧ t'.waitFrom.isSome = true) ∧
      d.spm = s.dev.spm ∧ d.hbm = s.dev.hbm ∧ regsBut [] s.dev d)) ∧
  (∀ (s : State) (c : Fin 25600) (n : Fin 64) (r before start : Nat) (due limited : Bool), s.dev.steady →
    ((s.dev.core c).ctx n).wait = some ⟨.swap r, before, due, start, limited⟩ → s.dev.coreRuns c = true →
    (swapBlocked s.dev c r before = false → Completes (.swapComplete c n) s fun d =>
      (d.core c).side r = !(s.dev.core c).side r ∧ (∀ q, q ≠ r → (d.core c).side q = (s.dev.core c).side q) ∧
      ((d.core c).ctx n).wait = none ∧
      (due = true → limited = false → ((s.dev.core c).ctx n).cur.isSome = true →
        d.fld F.SLIP_COUNT_COUNT c = (s.dev.fld F.SLIP_COUNT_COUNT c + 1) % 2 ^ 32) ∧
      regsBut [.SLIP_COUNT, .SLIP_TIME, .SLIP_LAST] s.dev d ∧ onlyCores s.dev d) ∧
    (swapBlocked s.dev c r before = true → Completes (.swapComplete c n) s fun d =>
      d.cores = s.dev.cores ∧ regsBut [] s.dev d ∧ onlyRegs s.dev d))

/-- R257 (06): a refill raises a regulated bucket by RATE, up to DEPTH, and while no engine of the cluster waits for tokens it changes nothing else
of the bucket; an unregulated class keeps its level.
R252, R253 (06): the root of a multicast group sends the next block of its read once every member holds the same arm and has room; every
member that holds it, the root among them, stands behind the block. Until then nothing is sent. -/
def Obligations.StreamsSend : Prop :=
  (∀ (s : State) (g : Fin 400), s.dev.steady → (∀ k e cls, owedOf s.dev (64 * g + k) cls e = 0) →
    Completes (.regulatorRefill g) s fun d =>
      (∀ cls, cls < 4 → d.fld (levelFld cls) g = if s.dev.regulated g cls
        then min (s.dev.fld F.REG_CLASS_DEPTH (classIx g cls)) (s.dev.fld (levelFld cls) g + s.dev.fld F.REG_CLASS_RATE (classIx g cls)) % 2 ^ 16
        else s.dev.fld (levelFld cls) g) ∧
      regsBut [.REG_LEVEL] s.dev d ∧ onlyRegs s.dev d) ∧
  (∀ (s : State) (c : Fin 25600) (e : Engine) (a : Arm) (t : Xfer) (x : Desc) (i : Nat) (g : BitVec 512), s.dev.steady →
    s.dev.coreSlice c = some i → inService s.dev c e = some (a, t, x) → s.dev.coreRuns c = true → t.owed = 0 → x.mcast = true →
    s.dev.mcastGroup c x.group = some g → groupRootCore g = c → c.val ∈ groupMembers g → x.buf ≠ .queue →
    let n := min 256 (stringBytes s.dev x t.runs - t.moved)
    let ready := (groupMembers g).all fun m => memberReady s.dev e a.stream a.armNo m
    (n ≠ 0 → ready = true → Completes (.mcastBlockSend c e) s fun d =>
      (∀ m ∈ groupMembers g, ∃ t' : Xfer, ((d.core m).engine e).xfer = some t' ∧
        t'.moved = (match ((s.dev.core m).engine e).xfer with | some tm => tm.moved | none => 0) + n) ∧ d.hbm = s.dev.hbm) ∧
    (ready = false → Completes (.mcastBlockSend c e) s fun d => d.cores = s.dev.cores ∧ regsBut [] s.dev d ∧ onlyRegs s.dev d))

/-- R277–R280, R303, R453 (07): the first due cue of a trigger fires when its context's list has room, its set is resident and its step is at most
the second uncommitted one: it leaves the due list and SEQ_CUES counts it, and its context has it as current or pending firing. Otherwise it
stays due and the wait is timed.
R276 (07): a core whose armed bank is loaded, whose old context is over and whose cues and transfers are complete switches banks: the
armed binding is live and no bank is armed, and slot tables and regions are those of the new program. A core that has not finished keeps its bank. -/
def Obligations.CuesFireAndBanksSwitch : Prop :=
  (∀ (s : State) (c : Fin 25600) (trig : Trig) (f : Firing) (p : Program) (w : BitVec 128), s.dev.steady →
    (s.dev.core c).due.find? (fun y => y.trig = trig) = some f → s.dev.liveProg c = some p → p.cues[f.cue]? = some w →
    s.dev.coreRuns c = true →
    (cueHold s.dev c p w f = .none → Completes (.cueFire c trig f.cue) s fun d =>
      (d.core c).due = dropFirst (fun y => y.trig = trig) (s.dev.core c).due ∧
      d.fld F.SEQ_CUES_FIRED c = (s.dev.fld F.SEQ_CUES_FIRED c + 1) % 2 ^ 32 ∧
      (d.core c).ctx (cueCtx w % 64) =
        settle p.cues { (s.dev.core c).ctx (cueCtx w % 64) with
          pending := ((s.dev.core c).ctx (cueCtx w % 64)).pending ++ [f]
          st := if ((s.dev.core c).ctx (cueCtx w % 64)).st = .idle then .ready else ((s.dev.core c).ctx (cueCtx w % 64)).st } ∧
      (d.core c).holdFrom = none ∧ regsBut [.SEQ_CUES, .COMMIT_CNT] s.dev d ∧ d.spm = s.dev.spm ∧ d.hbm = s.dev.hbm) ∧
    (cueHold s.dev c p w f ≠ .none → Completes (.cueFire c trig f.cue) s fun d =>
      (d.core c).due = (s.dev.core c).due ∧ (d.core c).holdFrom.isSome = true ∧ regsBut [] s.dev d ∧ onlyCores s.dev d)) ∧
  (∀ (s : State) (c : Fin 25600) (b : Binding) (p : Program), s.dev.steady → (s.dev.core c).armed = some b →
    (s.dev.schedOf b).bind (fun y => y.prog c) = some p →
    (b.loaded = true → (∀ o, (s.dev.core c).live = some o → o.ring = b.ring ∨ s.dev.ringOver o.ring = true) →
      (s.dev.core c).finished = true → Completes (.bankSwitch c) s fun d =>
        (d.core c).live = some b ∧ (d.core c).armed = none ∧ (d.core c).due = [] ∧
        (∀ n, n < 16 → d.fld ⟨.SPM_SLOT, 63, 0⟩ (c * 16 + n) = (p.slots[n]?.getD 0).toNat) ∧
        d.hbm = s.dev.hbm ∧ d.spm = s.dev.spm ∧ regsBut [.SPM_SLOT, .SPM_REGION, .REG_CLASS] s.dev d) ∧
    (b.loaded = false ∨ (s.dev.core c).finished = false → Completes (.bankSwitch c) s fun d =>
      d.cores = s.dev.cores ∧ regsBut [] s.dev d ∧ onlyRegs s.dev d))

/-- R1, R656: a step on a queue that is not empty takes the command at its front and answers what the command answers on the rest.
On an empty queue GCNT counts one tick, while the reference clock reaches a running module that is not OFF, and nothing else changes
(the model's choice, log 1). -/
def Obligations.StepRunsTheFrontCommand : Prop :=
  (∀ (s : State) (c : Instr) (rest : List Instr), s.pending = c :: rest → step s = exec c { s with pending := rest }) ∧
  (∀ s : State, s.pending = [] → ∃ t, step s = .next t ∧ t.pending = [] ∧
    t.dev = (if s.dev.running && s.dev.board.refclk && s.dev.mode ≠ stOff then { s.dev with gcnt := s.dev.gcnt + 1 } else s.dev))

/-- Every command answers a next state and leaves the queue to the step: no command faults and none is refused. -/
def Obligations.EveryCommandAnswers : Prop :=
  ∀ (i : Instr) (s : State), ∃ t, exec i s = .next t ∧ t.pending = s.pending

/-- R645, R646, R648 (17): while the module is held in reset, without standby supply, or stopped for want of VIN, every command but those of the
board leaves the whole state as it is. -/
def Obligations.StoppedModuleKeepsItsState : Prop :=
  ∀ (i : Instr) (s : State), boardCommand i = false → s.dev.running = false → exec i s = .next s

/-- The canonical forms hold at reset, and reset leaves the module settled.
R10, R19, R21, R108 (00, 02): what reset leaves in the registers: DEV_STATE reads BOOT with no earlier state, no ring context is armed, no
core runs, GCNT is 0, and every register without a listed word reads as the reset values of its fields (where the spec gives none, as log 6 and 203 have
it). That HBM reads 0 where nothing has been written, and that a core holds nothing, are the model's choice (log 4, 6). -/
def Obligations.ResetLeavesResetValues : Prop :=
  (State.reset.dev.Canonical ∧ State.reset.dev.Settled ∧ State.reset.pending = []) ∧
  (let d := State.reset.dev
  d.mode = stBoot ∧ d.fld F.DEV_STATE_PREV_STATE = 0 ∧ d.fld F.DEV_STATE_ENTRY_GCNT = 0 ∧ d.now = 0 ∧
  (∀ k, k < 4 → d.fld F.RING_STATUS_STATE k = 0) ∧ (∀ r i, i < regCopies → d.reg r i = r.resetWord) ∧
  (∀ c, d.core c = CoreSt.init) ∧ (∀ a, memByte d.hbm a = 0) ∧ d.frozen = none)

/-- Every step keeps the canonical forms of registers, memories and families: keys rising, nothing listed that reads as unlisted, and both
memories inside their address spaces. -/
def Obligations.StepKeepsCanonical : Prop :=
  ∀ s t : State, s.dev.Canonical → step s = .next t → t.dev.Canonical

/-- R305, R458 (07, 11): every step leaves a module that is RUNNING only while something runs, and no discarded packet whose slice is still to be
fenced. -/
def Obligations.StepKeepsSettled : Prop :=
  ∀ s t : State, s.dev.Settled → step s = .next t → t.dev.Settled

/-- What has left the module is never taken back: every step only adds to the messages sent, in order. -/
def Obligations.StepKeepsWhatWasSent : Prop :=
  ∀ s t : State, step s = .next t → s.dev.outbox <+: t.dev.outbox

/-- R317, R320, R322, R323, R325, R328 (08): a sync signal or barrier release delivered to a member of its slice, not fenced, applies its update: the
word takes the value of its kind, SYNC_SIG counts it, and every context of the slice whose wait the value meets goes on. One that the
word or the extension does not allow sets its SYNC_ERR bit and the slice is fenced. One under a fence is discarded, with FENCED_DROP; one for
no member is dropped and counted. -/
def Obligations.SignalsAreDelivered : Prop :=
  ∀ (s : State) (p : Fin 6) (sig : SyncExt) (rel : Bool), s.dev.steady → (bitsOf sig.kind 2 0 = 3 ↔ rel = true) →
    let i : Instr := if rel then .barrierReleaseReceive p sig else .syncSignalReceive p sig
    (∀ j, s.dev.sliceOf (sig.pkey.truncate 12) = some j → s.dev.memberHere (s.dev.slice j) = true → (s.dev.slice j).fenced = false →
      let pkey := (s.dev.slice j).pkey
      let id := bitsOf sig.syncId 11 0
      let e := s.dev.syncEntry pkey id
      let new := updateWord e (s.dev.syncWord (syncLoc e)) (bitsOf sig.kind 2 0) sig.value (bitOf sig.kind 3)
      (∀ v, syncExtOk sig = true → new = .inr v → syncPlace e = 0 → syncCore e < coreCount → syncAddr e < 24576 →
        Completes i s fun d => d.syncWord (syncLoc e) = v ∧
          d.fld F.SYNC_SIG_APPLIED = (s.dev.fld F.SYNC_SIG_APPLIED + 1) % 2 ^ 32 ∧ d.hbm = s.dev.hbm ∧
          ∀ c n w cond val, s.dev.corePkey (s.dev.core c) = some pkey → ((s.dev.core c).ctx n).wait = some w →
            w.obj = .sync id cond val → condMet ((s.dev.core c).ctx n) id cond val v = true → ((d.core c).ctx n).wait = none) ∧
      (∀ bit, syncExtOk sig = true → new = .inl bit → Completes i s fun d =>
        d.fld bit = 1 ∧ (d.slice j).fenced = true ∧ d.spm = s.dev.spm) ∧
      (syncExtOk sig = false → Completes i s fun d =>
        d.fld F.SYNC_ERR_MISMATCH = 1 ∧ (d.slice j).fenced = true ∧ d.spm = s.dev.spm)) ∧
    (∀ j, s.dev.sliceOf (sig.pkey.truncate 12) = some j → s.dev.memberHere (s.dev.slice j) = true → (s.dev.slice j).fenced = true →
      Completes i s fun d => d.fld F.SYNC_ERR_FENCED_DROP = 1 ∧ s.dev.wrote d [.SYNC_ERR]) ∧
    (s.dev.memberOf (sig.pkey.truncate 12) = false → Completes i s fun d =>
      d.fld F.ROUTE_DROP_PKEY = min 65535 (s.dev.fld F.ROUTE_DROP_PKEY + 1) ∧ d.fld F.ROUTE_ERR_PKEY = 1 ∧
      s.dev.wrote d [.ROUTE_DROP, .ROUTE_ERR])

/-- R324 (08): a context that waits on an HBM word and holds no monitor entry polls it: the poll is counted, and the context goes on when the
word meets its condition.
R301, R330, R456 (07, 08, 11): a wait, a transfer or a slip that has reached its limit sets its error bit, and the work of its slice times
out, at device level too where the configuration says so; a grant held too long is given up and enters the safe state. Before the limit nothing
happens. -/
def Obligations.PollsWakeAndWatchdogsExpire : Prop :=
  (∀ (s : State) (c : Fin 25600) (n : Fin 64) (i id cond o a start : Nat) (val : BitVec 32) (due limited : Bool), s.dev.steady →
    s.dev.coreSlice c = some i → ((s.dev.core c).ctx n).wait = some ⟨.sync id cond val, o, due, start, limited⟩ →
    syncLoc (s.dev.syncEntry (s.dev.slice i).pkey id) = .hbm a → (c.val, n.val) ∉ (s.dev.chan (channelOf a)).monitors →
    let met := condMet ((s.dev.core c).ctx n) id cond val (s.dev.syncWord (.hbm a))
    Completes (.syncPoll c n) s fun d =>
      d.fld F.SYNC_WAIT_POLLS = (s.dev.fld F.SYNC_WAIT_POLLS + 1) % 2 ^ 32 ∧ d.spm = s.dev.spm ∧ d.hbm = s.dev.hbm ∧
      (met = true → ((d.core c).ctx n).wait = none) ∧ (met = false → d.cores = s.dev.cores ∧ s.dev.wrote d [.SYNC_WAIT])) ∧
  (∀ (s : State) (c : Fin 25600) (n : Fin 64) (e : Engine) (ch : Fin 256) (i : Nat), s.dev.steady → s.dev.coreSlice c = some i →
    (s.dev.slice i).desc.isSome = true →
    (∀ w id cond val, ((s.dev.core c).ctx n).wait = some w → w.obj = .sync id cond val →
      let wd := syncWd (s.dev.syncEntry (s.dev.slice i).pkey id)
      let limit := if wd = 0 then s.dev.fld F.SYNC_CFG_WAIT_WD else wd
      (w.start + limit * 1000 ≤ s.dev.now → Completes (.waitWatchdogExpire c n) s fun d =>
        d.fld F.SYNC_ERR_WAIT_WD = 1 ∧ TimedOut s.dev d i ∧ (s.dev.bit F.SYNC_CFG_WD_SAFE = true → d.mode = stSafe)) ∧
      (s.dev.now < w.start + limit * 1000 → Completes (.waitWatchdogExpire c n) s fun d => s.dev.wrote d [])) ∧
    (∀ a t x, inService s.dev c e = some (a, t, x) →
      let limit := s.dev.fld F.SYNC_CFG_STREAM_WD
      (t.start + limit * 1000 ≤ s.dev.now → Completes (.streamWatchdogExpire c e) s fun d =>
        d.fld F.SYNC_ERR_STREAM_WD = 1 ∧ d.fld F.STREAM_ERR_TIMEOUT c = 1 ∧ TimedOut s.dev d i ∧
        (s.dev.bit F.SYNC_CFG_WD_SAFE = true → d.mode = stSafe)) ∧
      (s.dev.now < t.start + limit * 1000 → Completes (.streamWatchdogExpire c e) s fun d => s.dev.wrote d [])) ∧
    (∀ w, ((s.dev.core c).ctx n).wait = some w → w.limited = false →
      let limit := s.dev.fld F.SEQ_CFG_SLIP_LIMIT c
      (w.due = true → w.start + limit * 1000 ≤ s.dev.now → Completes (.slipLimitExpire c n) s fun d =>
        d.fld F.SEQ_ERR_SLIP_LIMIT c = 1 ∧ TimedOut s.dev d i ∧ (s.dev.bit F.SEQ_CFG_SLIP_SAFE c = true → d.mode = stSafe)) ∧
      (w.due = false ∨ s.dev.now < w.start + limit * 1000 → Completes (.slipLimitExpire c n) s fun d => s.dev.wrote d [])) ∧
    (∀ port start, (s.dev.chan ch).grant = some (port, start) →
      let limit := s.dev.fld F.SYNC_CFG_GRANT_WD
      (start + limit * 1000 ≤ s.dev.now → Completes (.grantWatchdogExpire ch) s fun d =>
        d.fld F.SYNC_ERR_GRANT_WD = 1 ∧ (d.chan ch).grant = none ∧ d.mode = stSafe ∧
        (s.dev.mode ≠ stSafe → d.fld F.RECOV_ERR_MODULE = 1)) ∧
      (s.dev.now < start + limit * 1000 → Completes (.grantWatchdogExpire ch) s fun d => s.dev.wrote d [])))

/-- R333, R376 (08, 09): on a port in UP or HELLO a REQUEST leaves with the next exchange number and is kept with its time, and every REQUEST received
is answered by a REPLY of the same exchange with both times; elsewhere nothing happens. -/
def Obligations.SyncExchanges : Prop :=
  ∀ (s : State) (p : Fin 6) (f : SyncFlit) (rxPs txPs : Nat), s.dev.steady →
    let n := ((mapGet (fun _ => ((0, 0) : Nat × Nat)) s.dev.servo.sent p).1 + 1) % 2 ^ 32
    (s.dev.syncsOn p = true → Completes (.syncFlitSend p txPs) s fun d =>
      mapGet (fun _ => ((0, 0) : Nat × Nat)) d.servo.sent p = (n, s.dev.now * 1000 + txPs % 1000) ∧
      (∃ q : SyncFlit, Msg.syncFlit p q ∈ d.outbox ∧ q.kind = 1 ∧ q.exch = BitVec.ofNat 32 n ∧ q.tGcnt = s.dev.gcnt ∧
        q.state = s.dev.syncState ∧ q.depth = s.dev.syncDepth ∧ q.coord = s.dev.coordWord) ∧
      regsBut [] s.dev d ∧ d.gcnt = s.dev.gcnt) ∧
    (s.dev.syncsOn p = true → f.kind = 1 → Completes (.syncRequestReceive p f rxPs txPs) s fun d =>
      mapGet (fun _ => ((255, 0) : Nat × Nat)) d.servo.heard p = (f.depth.toNat, f.state.toNat) ∧
      (∃ q : SyncFlit, Msg.syncFlit p q ∈ d.outbox ∧ q.kind = 2 ∧ q.exch = f.exch ∧ q.rxGcnt = s.dev.gcnt ∧ q.tGcnt = s.dev.gcnt ∧
        q.rxPs = BitVec.ofNat 16 (rxPs % 1000) ∧ q.tPs = BitVec.ofNat 16 (txPs % 1000) ∧ q.state = s.dev.syncState) ∧
      regsBut [] s.dev d ∧ d.gcnt = s.dev.gcnt) ∧
    (s.dev.syncsOn p = false → Completes (.syncFlitSend p txPs) s fun d => s.dev.wrote d []) ∧
    (s.dev.syncsOn p = false ∨ f.kind ≠ 1 → Completes (.syncRequestReceive p f rxPs txPs) s fun d => s.dev.wrote d [])

/-- R333 (08): the REPLY of the own exchange on the parent's port gives the offset and the depth, and the module slews by at most 100 ppm; after 16
offsets in a row below 0.5 ns it is LOCKED and out of holdover, and the first lock of a module that is not the master sets GCNT to the
parent's count; a larger offset takes LOCKED away. A REPLY elsewhere moves neither. -/
def Obligations.ReplyDisciplinesTheCount : Prop :=
  ∀ (s : State) (p : Fin 6) (f : SyncFlit) (rxPs : Nat), s.dev.steady →
    let sent := mapGet (fun _ => ((0, 0) : Nat × Nat)) s.dev.servo.sent p
    let off := syncOffset sent.2 (f.rxGcnt.toNat * 1000 + f.rxPs.toNat) (f.tGcnt.toNat * 1000 + f.tPs.toNat)
      ((s.dev.now * 1000 + rxPs % 1000 : Nat) : Int)
    s.dev.syncsOn p = true → f.kind = 2 → f.exch.toNat = sent.1 →
    (s.dev.fld F.GCNT_STATUS_PARENT = parentCode p → Completes (.syncReplyReceive p f rxPs) s fun d =>
      d.fld F.GCNT_STATUS_OFFSET = (BitVec.ofInt 32 off).toNat ∧ d.fld F.GCNT_STATUS_DEPTH = min 24 (f.depth.toNat + 1) ∧
      -100 ≤ d.servo.rate ∧ d.servo.rate ≤ 100 ∧ regsBut [.GCNT_STATUS] s.dev d ∧
      (off.natAbs < 500 → 15 ≤ s.dev.servo.run → d.fld F.GCNT_STATUS_LOCKED = 1 ∧ d.fld F.GCNT_STATUS_HOLDOVER = 0 ∧
        d.gcnt = (if s.dev.servo.everLocked || s.dev.bit F.GCNT_STATUS_MASTER then s.dev.gcnt
          else BitVec.ofInt 64 ((s.dev.now : Int) + (off + 500) / 1000))) ∧
      (off.natAbs < 500 → s.dev.servo.run < 15 → d.servo.run = s.dev.servo.run + 1 ∧ d.gcnt = s.dev.gcnt) ∧
      (500 ≤ off.natAbs → d.servo.run = 0 ∧ d.fld F.GCNT_STATUS_LOCKED = 0 ∧ d.gcnt = s.dev.gcnt)) ∧
    (s.dev.fld F.GCNT_STATUS_PARENT ≠ parentCode p → Completes (.syncReplyReceive p f rxPs) s fun d =>
      regsBut [] s.dev d ∧ d.gcnt = s.dev.gcnt)

/-- R334, R335 (08): without a live neighbour of lower depth for more than 100 µs the module enters holdover and is no longer locked; a neighbour found
meanwhile becomes its parent. The spare at (0, 0, 0), locked for 1 ms, becomes master, and an acting master that hears a master gives up its
part; the count does not step. -/
def Obligations.HoldoverAndHandover : Prop :=
  ∀ s : State, s.dev.steady →
    (∀ t, s.dev.servo.lostAt = some t → s.dev.bestParent = none → t + 100000 < s.dev.now → Completes .holdoverEnter s fun d =>
      d.fld F.GCNT_STATUS_HOLDOVER = 1 ∧ d.fld F.GCNT_STATUS_LOCKED = 0 ∧ d.gcnt = s.dev.gcnt ∧ s.dev.wrote d [.GCNT_STATUS]) ∧
    (∀ t p, s.dev.servo.lostAt = some t → s.dev.bestParent = some p → s.dev.bit F.GCNT_STATUS_MASTER = false →
      s.dev.bit F.GCNT_STATUS_ACTING = false → Completes .holdoverEnter s fun d =>
        d.fld F.GCNT_STATUS_PARENT = parentCode p ∧ d.fld F.GCNT_STATUS_DEPTH = s.dev.heardDepth p + 1 ∧ d.servo.lostAt = none ∧
        d.gcnt = s.dev.gcnt ∧ regsBut [.GCNT_STATUS] s.dev d) ∧
    (s.dev.servo.lostAt = none → Completes .holdoverEnter s fun d => s.dev.wrote d []) ∧
    (s.dev.bit F.DEV_COORD_VALID = true → s.dev.here = 0 → s.dev.bit F.GCNT_STATUS_MASTER = false →
      s.dev.bit F.GCNT_STATUS_LOCKED = true → s.dev.servo.lockedAt + 1000000 ≤ s.dev.now → Completes .actingMasterHandover s fun d =>
        d.fld F.GCNT_STATUS_MASTER = 1 ∧ d.fld F.GCNT_STATUS_PARENT = 0 ∧ d.fld F.GCNT_STATUS_DEPTH = 0 ∧ d.gcnt = s.dev.gcnt ∧
        s.dev.wrote d [.GCNT_STATUS]) ∧
    (∀ p, s.dev.here ≠ 0 → s.dev.bit F.GCNT_STATUS_ACTING = true → s.dev.isDead 0 = false →
      (reparentOrder.find? fun p => s.dev.syncsOn p &&
        ((mapGet (fun _ => ((255, 0) : Nat × Nat)) s.dev.servo.heard p).2 / 2 % 2 = 1 || s.dev.heardDepth p < 255)) = some p →
      Completes .actingMasterHandover s fun d =>
        d.fld F.GCNT_STATUS_ACTING = 0 ∧ d.fld F.GCNT_STATUS_PARENT = parentCode p ∧ d.gcnt = s.dev.gcnt ∧
        regsBut [.GCNT_STATUS] s.dev d) ∧
    (s.dev.here ≠ 0 → s.dev.bit F.GCNT_STATUS_ACTING = false → Completes .actingMasterHandover s fun d => s.dev.wrote d [])

/-- R336, R338, R339, R341 (08): a write of SNAP_AT arms the snapshot, and a count already past latches it at once, late; a second one while a
snapshot is armed or pending is refused. At the count every latched counter is copied, and the copy is published at once where no slice has a
live binding, and is otherwise pending. -/
def Obligations.SnapshotLatches : Prop :=
  ∀ (s : State) (r : Req) (val : BitVec 64), s.dev.steady →
    let free := !s.dev.bit F.SNAP_STATUS_ARMED && !s.dev.bit F.SNAP_STATUS_PENDING
    let latched := fun (d : Dev) (at_ : Nat) (late : Bool) =>
      d.snapInfo = ⟨at_, late, !s.dev.bit F.GCNT_STATUS_LOCKED, s.dev.liveKeys⟩ ∧ latchedAs s.dev d.snapPend ∧
      d.fld F.SNAP_STATUS_ARMED = 0 ∧
      (s.dev.liveKeys ≠ [] → d.fld F.SNAP_STATUS_PENDING = 1 ∧ d.snapPub = s.dev.snapPub) ∧
      (s.dev.liveKeys = [] → d.fld F.SNAP_STATUS_PENDING = 0 ∧ d.snapPub = d.snapPend ∧ d.fld F.SNAP_GCNT_GCNT = at_ ∧
        d.fld F.SNAP_SEQ_SEQ = (s.dev.fld F.SNAP_SEQ_SEQ + 1) % 2 ^ 64 ∧ d.fld F.SNAP_STATUS_ABANDONED = 0 ∧
        d.fld F.SNAP_STATUS_LATE = (if late then 1 else 0))
    (s.dev.fresh r → s.dev.powered .SNAP_AT = true →
      (free = true → s.dev.now ≤ val.toNat → Completes (.snapAtWrite r val) s fun d =>
        s.dev.answered d r answerOk ∧ d.fld F.SNAP_AT_GCNT = val.toNat ∧ d.fld F.SNAP_STATUS_ARMED = 1 ∧
        s.dev.wrote d [.SNAP_AT, .SNAP_STATUS, .CHAIN_CNT]) ∧
      (free = true → val.toNat < s.dev.now → Completes (.snapAtWrite r val) s fun d =>
        s.dev.answered d r answerOk ∧ latched d s.dev.now true) ∧
      (free = false → Completes (.snapAtWrite r val) s fun d =>
        s.dev.answered d r (addressError 5) ∧ s.dev.wrote d [.CHAIN_CNT])) ∧
    (s.dev.bit F.SNAP_STATUS_ARMED = true → s.dev.fld F.SNAP_AT_GCNT ≤ s.dev.now → Completes .snapshotLatch s fun d =>
      latched d (s.dev.fld F.SNAP_AT_GCNT) false) ∧
    (s.dev.bit F.SNAP_STATUS_ARMED = false ∨ s.dev.now < s.dev.fld F.SNAP_AT_GCNT → Completes .snapshotLatch s fun d => s.dev.wrote d [])

/-- R12 (00): the register window of core (q, c, k) is 8 KiB long and starts at 0x1000_0000 + q·0x0400_0000 + c·0x0008_0000 + k·0x2000; no
address outside a window names a core, and windows do not meet.
R202 (05): HBM forms one flat space of 512 GiB in 256-byte blocks; byte A lies in block floor(A/256), block n on channel n mod 256; consecutive
blocks fall on consecutive channels, and an aligned run of 64 KiB touches every channel once. -/
def Obligations.AddressesAreLaidOut : Prop :=
  ((∀ q c k o, q < 4 → c < 100 → k < 64 → o < 0x2000 →
    coreWindow (0x10000000 + q * 0x04000000 + c * 0x00080000 + k * 0x2000 + o) = some (q * 6400 + c * 64 + k, o)) ∧
  (∀ a n o, coreWindow a = some (n, o) → ∃ q c k, q < 4 ∧ c < 100 ∧ k < 64 ∧ o < 0x2000 ∧ n = q * 6400 + c * 64 + k ∧
    a = 0x10000000 + q * 0x04000000 + c * 0x00080000 + k * 0x2000 + o)) ∧
  (hbmSize = 512 * 2 ^ 30 ∧ (∀ a, blockOf a = a / 256 ∧ channelOf a = blockOf a % 256) ∧
  (∀ a, channelOf (a + 256) = (channelOf a + 1) % 256) ∧
  (∀ run ch, run * 65536 + 65536 ≤ hbmSize → ch < 256 → ∃ b, (run * 65536 ≤ b * 256 ∧ b * 256 + 256 ≤ run * 65536 + 65536 ∧
    channelOf (b * 256) = ch) ∧
    ∀ c, run * 65536 ≤ c * 256 → c * 256 + 256 ≤ run * 65536 + 65536 → channelOf (c * 256) = ch → c = b))

/-- R10–R16, R557, R558, R656 (00, 14): a write of a register without a rule of its own gives its RW fields the bits of the value, clears its W1C
fields where the value has ones, and leaves its other fields, every other register and every other copy; the response is OK. In the wrong
state it is refused with reason 5, a reserved encoding with reason 6, and an address that names no register with its reason, each without
effect; a block that is powered down answers BUSY. -/
def Obligations.RegisterWriteTakesEffect : Prop :=
  ∀ (s : State) (r : Req) (addr bytes : Nat) (val : BitVec 64), s.dev.steady → s.dev.fresh r → 1 ≤ bytes → bytes ≤ 8 →
    (∀ g j, s.dev.locate r.path addr bytes = .at_ g j → s.dev.powered g = true → g ∉ ownRule → g ∉ modeRegs →
      let held := (maintOnly g && s.dev.mode ≠ stMaint) ||
        (ringReg g && (s.dev.fld F.RING_STATUS_STATE j = 1 || s.dev.fld F.RING_STATUS_STATE j = 2))
      (held = true → Completes (.registerWrite r addr bytes val) s fun d =>
        s.dev.answered d r (addressError 5) ∧ s.dev.wrote d [.CHAIN_CNT]) ∧
      (held = false → reservedValue g val = true → Completes (.registerWrite r addr bytes val) s fun d =>
        s.dev.answered d r (addressError 6) ∧ s.dev.wrote d [.CHAIN_CNT]) ∧
      (held = false → reservedValue g val = false → Completes (.registerWrite r addr bytes val) s fun d =>
        s.dev.answered d r answerOk ∧ s.dev.wrote d [g, .CHAIN_CNT, .LOAD_STATUS] ∧
        (g ≠ .LOAD_STATUS → g ≠ .CHAIN_CNT → otherCopies g (j % regCopies) s.dev d ∧ ∀ f ∈ g.info.fields,
          d.fld ⟨g, f.hi, f.lo⟩ j = match f.access with
            | .rw => bitsOf val f.hi f.lo
            | .w1c => if bitsOf val f.hi f.lo ≠ 0 then 0 else s.dev.fld ⟨g, f.hi, f.lo⟩ j
            | _ => s.dev.fld ⟨g, f.hi, f.lo⟩ j))) ∧
    (∀ g j, s.dev.locate r.path addr bytes = .at_ g j → s.dev.powered g = false → wakesFirst g = false →
      Completes (.registerWrite r addr bytes val) s fun d => s.dev.answered d r answerBusy ∧ d.fld F.PWR_STATUS_STATE = 0 ∧
        s.dev.wrote { d with frozen := s.dev.frozen } [.CHAIN_CNT, .PWR_STATUS]) ∧
    (∀ reason, s.dev.locate r.path addr bytes = .no reason → Completes (.registerWrite r addr bytes val) s fun d =>
      s.dev.answered d r (addressError reason) ∧ s.dev.wrote d [.CHAIN_CNT])

/-- R558 (14): a request whose source and tag have drawn a response draws it again, and nothing is executed. -/
def Obligations.RepeatedRequestIsNotExecuted : Prop :=
  ∀ (s : State) (r : Req) (e : CachedResp) (i : Instr), s.dev.steady → s.dev.cached r = some e → servedOnce i = some r →
    Completes i s fun d => Msg.resp r e.status e.reason e.data ∈ d.outbox ∧ s.dev.wrote d [] ∧ d.chain.cache = s.dev.chain.cache

/-- R30 (01): on a ring of N, run i of D days has floor(D/N) days, plus one where i < D mod N; runs are contiguous and in order, and hold every
day once. -/
def Obligations.RunsOfDays : Prop :=
  ∀ D N : Nat, 0 < N →
    (∀ i, i < N → runLen D N i = D / N + if i < D % N then 1 else 0) ∧ runStart D N 0 = 0 ∧
    (∀ i, i < N → runStart D N (i + 1) = runStart D N i + runLen D N i) ∧ runStart D N N = D ∧
    (∀ day, day < D → runOf D N day < N ∧ runStart D N (runOf D N day) ≤ day ∧
      day < runStart D N (runOf D N day) + runLen D N (runOf D N day))

/-- R41–R43, R60, R274, R275 (01, 07): arming a context whose binding passes its checks makes it ARMED, with every core of its schedule holding
the new bank and no angle; a binding that fails a check is refused and the failure kept; and of an armed or live context only STOP may
change. -/
def Obligations.ArmingBindsAContext : Prop :=
  ∀ (s : State) (r : Req) (k : Fin 4) (val : BitVec 64), s.dev.steady → s.dev.fresh r →
    let put := fun (f : Fld) => BitVec.ofNat 64 (putBits val.toNat f.hi f.lo 1)
    let busy := fun (o : Nat) => s.dev.fld F.RING_STATUS_STATE o = 1 || s.dev.fld F.RING_STATUS_STATE o = 2
    let legal := fun (v : BitVec 64) => bitsOf v F.RING_CTL_LEN.hi F.RING_CTL_LEN.lo ≤ 16 ∧ bitsOf v F.RING_CTL_MODE.hi F.RING_CTL_MODE.lo ≠ 3
    let as := put F.RING_CTL_ARM
    let vs := put F.RING_CTL_STOP
    let set := applyAll (ringCtlFields.map fun f => setF f k (bitsOf as f.hi f.lo)) s.dev
    (legal as → busy k = false → (∀ o, o < 4 → s.dev.fld F.RING_STATUS_STATE o ≠ 1) → set.bindStatus k = none →
      s.dev.now ≤ s.dev.fld F.RING_LAUNCH_GCNT k → Completes (.ringCtlArm r k val) s fun d =>
        s.dev.answered d r answerOk ∧ d.fld F.RING_STATUS_STATE k = 1 ∧ d.fld F.RING_CTL_ARM k = 1 ∧
        (∀ f ∈ ringCtlFields, d.fld f k = bitsOf as f.hi f.lo) ∧ d.angle k .cw = none ∧ d.angle k .ccw = none ∧
        ∃ j sch, set.matching k = [j] ∧ s.dev.schedLib[j]? = some sch ∧ (d.ring k).sched = some j ∧ (d.ring k).bankLoaded = false ∧
          ∀ x ∈ takersOf sch, (d.core x.1).armed = some ⟨k, j, false⟩) ∧
    (legal as → busy k = false → (∀ o, o < 4 → s.dev.fld F.RING_STATUS_STATE o ≠ 1) → ∀ st, set.bindStatus k = some st →
      Completes (.ringCtlArm r k val) s fun d => s.dev.answered d r (addressError 5) ∧
        (d.ring k).refused = some (bitsOf as F.RING_CTL_PKEY.hi F.RING_CTL_PKEY.lo, st) ∧ d.cores = s.dev.cores ∧
        regsBut [.CHAIN_CNT, .PWR_STATUS] s.dev d) ∧
    (¬ legal as → Completes (.ringCtlArm r k val) s fun d =>
      s.dev.answered d r (addressError 6) ∧ d.cores = s.dev.cores ∧ d.rings = s.dev.rings ∧ regsBut [.CHAIN_CNT, .PWR_STATUS] s.dev d) ∧
    (legal vs → busy k = true → (∀ f ∈ ringCtlFields, bitsOf vs f.hi f.lo = s.dev.fld f k) →
      (bitsOf vs F.RING_CTL_ARM.hi F.RING_CTL_ARM.lo = 1 → s.dev.bit F.RING_CTL_ARM k = true) →
      Completes (.ringCtlStop r k val) s fun d => s.dev.answered d r answerOk ∧ d.fld F.RING_CTL_STOP k = 1 ∧
        (s.dev.route.waiting = [] → (s.dev.ring k).cw.acceptedAt ≠ s.dev.now → (s.dev.ring k).ccw.acceptedAt ≠ s.dev.now →
          d.rings = s.dev.rings ∧ d.cores = s.dev.cores ∧ regsBut [.RING_CTL, .CHAIN_CNT, .PWR_STATUS] s.dev d)) ∧
    (legal vs → busy k = true → (∃ f ∈ ringCtlFields, bitsOf vs f.hi f.lo ≠ s.dev.fld f k) → Completes (.ringCtlStop r k val) s fun d =>
      s.dev.answered d r (addressError 5) ∧ d.rings = s.dev.rings ∧ regsBut [.CHAIN_CNT, .PWR_STATUS] s.dev d)

/-- R41, R42, R275 (01, 07): the bank of a binding is loaded once, on every core that holds it armed; at its launch count a context goes live in
every direction that no other context holds, its module is RUNNING where it was READY, and a context of no years stops instead. -/
def Obligations.BankLoadsAndLaunches : Prop :=
  ∀ (s : State) (k : Fin 4), s.dev.steady →
    ((s.dev.ring k).sched.isSome = true → (s.dev.ring k).bankLoaded = false → Completes (.bankLoadDone k) s fun d =>
      (d.ring k).bankLoaded = true ∧ (∀ o, o ≠ k.val → d.ring o = s.dev.ring o) ∧ regsBut [] s.dev d ∧
      ∀ c b, (s.dev.core c).armed = some b → (d.core c).armed = some (if b.ring = k then { b with loaded := true } else b)) ∧
    (∀ dir, (s.dev.fld F.RING_STATUS_STATE k = 1 ∨ s.dev.fld F.RING_STATUS_STATE k = 2) → (s.dev.ring k).launched = false →
      s.dev.fld F.RING_LAUNCH_GCNT k ≤ s.dev.now →
      ((s.dev.plan k).count ≠ 0 → s.dev.awaits k dir = true → s.dev.liveIn dir = none → Completes (.ringLaunch k) s fun d =>
        (d.ring k).launched = true ∧ ((d.ring k).dir dir).live = true ∧ d.fld F.RING_STATUS_STATE k = 2 ∧
        (s.dev.fld F.RING_STATUS_STATE k = 1 → d.fld F.RING_CTL_LIVE k = 1 ∧ d.fld F.RING_CTL_ARM k = 0) ∧
        (s.dev.mode = stReady → d.mode = stRunning) ∧ d.hbm = s.dev.hbm ∧ d.spm = s.dev.spm) ∧
      ((s.dev.plan k).count = 0 → Completes (.ringLaunch k) s fun d =>
        d.fld F.RING_STATUS_STATE k = 3 ∧ d.fld F.RING_CTL_LIVE k = 0 ∧ d.fld F.RING_CTL_ARM k = 0 ∧ (d.ring k).cw.ended = true ∧
        (d.ring k).ccw.ended = true ∧ d.hbm = s.dev.hbm ∧ d.spm = s.dev.spm)) ∧
    (s.dev.now < s.dev.fld F.RING_LAUNCH_GCNT k → Completes (.ringLaunch k) s fun d => s.dev.wrote d [])

/-- R26, R32, R41, R366 (01, 09): the owner of the next day, once its context is launched, placed and live there and its port holds the credits of four
packets, begins to read the leaf and its four packets leave; a bad block of the leaf is asked for again instead.
R38, R39, R50, R278 (01, 07): an own leaf that has been read, or that the loopback of a ring of one plays, is accepted once no credit is withheld and
the leaf tree has taken its tiles: the angle moves to its day and the cues of the day become due. -/
def Obligations.OwnLeavesAreInjectedAndAccepted : Prop :=
  (∀ (s : State) (k : Fin 4) (dir : Dir) (proxy : Bool), s.dev.steady →
    let day := s.dev.nextDay k dir
    let st := (s.dev.ring k).dir dir
    let bad := s.dev.badLeaf k dir day.1 day.2
    let out := dirPort dir
    let credits := (s.dev.port out).free (s.dev.schedVc ⟨none, mkOrdered ptLeaf s.dev.here 0 0 []⟩ out)
    let pkts := s.dev.leafPackets k (s.dev.leafExt k dir day.1 day.2) (s.dev.readHbm (s.dev.leafAddr k dir day.1 day.2) 16384).1
    let ready := decide (1 < (s.dev.plan k).len) && s.dev.playsNext k dir proxy && !st.reading && st.rx.isNone
    (ready = true → bad = [] → 264 ≤ credits → Completes (.leafInject k dir proxy) s fun d =>
      (∀ p ∈ pkts, Msg.packet (setFlag p 1 s.dev.epoch) ∈ d.outbox) ∧ pkts.length = 4 ∧ d.hbm = s.dev.hbm ∧
      d.angle k dir = s.dev.angle k dir ∧ (s.dev.route.waiting = [] → ((d.ring k).dir dir).reading = true)) ∧
    (ready = true → proxy = false → ∀ b ∈ bad, b ∉ s.dev.repair → Completes (.leafInject k dir proxy) s fun d =>
      b ∈ d.repair ∧ d.hbm = s.dev.hbm ∧ d.angle k dir = s.dev.angle k dir) ∧
    (ready = false ∨ (bad = [] ∧ credits < 264) → Completes (.leafInject k dir proxy) s fun d => s.dev.wrote d [])) ∧
  (∀ (s : State) (k : Fin 4) (dir : Dir) (loop : Bool), s.dev.steady → s.dev.Canonical →
    let i : Instr := if loop then .residentLoopbackLeaf k dir else .ownLeafAccept k dir
    let day := s.dev.nextDay k dir
    let e := s.dev.leafExt k dir day.1 day.2
    let body := (s.dev.readHbm (s.dev.leafAddr k dir day.1 day.2) 16384).1
    let may := if loop then decide ((s.dev.plan k).len = 1) && s.dev.playsNext k dir false
      else ((s.dev.ring k).dir dir).reading && !s.dev.ringFenced k
    (may = true → (loop = true → s.dev.badLeaf k dir day.1 day.2 = []) → s.dev.takesLeaf k dir e body = true →
      Completes i s fun d => s.dev.turned d k dir day.1 day.2) ∧
    (may = false ∨ (s.dev.leafHeld k dir day.1 day.2 = true ∧ (loop = true → s.dev.badLeaf k dir day.1 day.2 = [])) →
      Completes i s fun d => s.dev.wrote d []))

/-- R38, R44, R47, R48 (01): packets of a leaf are received in order: the first opens the leaf, the last one accepts it and turns the angle to its day. A
leaf that fails a check sets every bit of its failures and the slice is fenced. -/
def Obligations.LeavesAreReceived : Prop :=
  ∀ (s : State) (p : Fin 6) (pkt : Packet), s.dev.steady → s.dev.Canonical → s.dev.deliverable pkt = true →
    s.dev.fencedPacket (pktVc pkt) pkt.key = false → pkt.ptype.toNat = ptLeaf → pkt.ce = false → s.dev.route.waiting = [] →
    let e := leafOfBytes pkt.ext
    (∀ k, (∀ o, o < 4 → ((s.dev.ring o).dir e.dir).rx = none) → s.dev.leafContext e.dir = some k → e.grad = false →
      let fails := s.dev.leafFails k e ++ (if e.pktIdx.toNat % 4 = 0 then [] else [F.RING_ERR_INCOMPLETE])
      (fails = [] → Completes (.leafPacketReceive p pkt) s fun d =>
        ((d.ring k).dir e.dir).rx = some ⟨e, 1, pkt.payload, p, pktVc pkt⟩ ∧ d.hbm = s.dev.hbm ∧ d.angle k e.dir = s.dev.angle k e.dir) ∧
      (fails ≠ [] → Completes (.leafPacketReceive p pkt) s fun d =>
        (∀ f ∈ fails, d.fld f k = 1) ∧ d.hbm = s.dev.hbm ∧ d.angle k e.dir = s.dev.angle k e.dir ∧
        ∀ i, s.dev.sliceOf (e.pkey.truncate 12) = some i → (s.dev.slice i).desc.isSome = true → (d.slice i).fenced = true)) ∧
    (∀ k rx, ((s.dev.ring k).dir e.dir).rx = some rx → (∀ o, o < k → ((s.dev.ring o).dir e.dir).rx = none) → k < 4 →
      e.pktIdx.toNat % 4 = rx.next → { e with pktIdx := rx.ext.pktIdx } = rx.ext → leafReserved e = false → e.isEnd = false →
      (rx.next < 3 → Completes (.leafPacketReceive p pkt) s fun d =>
        ((d.ring k).dir e.dir).rx = some { rx with next := rx.next + 1, body := rx.body ++ pkt.payload } ∧ d.hbm = s.dev.hbm) ∧
      (rx.next = 3 → s.dev.takesLeaf k e.dir rx.ext (rx.body ++ pkt.payload) = true → Completes (.leafPacketReceive p pkt) s fun d =>
        s.dev.turned d k e.dir rx.ext.year.toNat rx.ext.day.toNat) ∧
      (rx.next = 3 → s.dev.leafHeld k e.dir rx.ext.year.toNat rx.ext.day.toNat = true → Completes (.leafPacketReceive p pkt) s fun d =>
        s.dev.wrote d []))

/-- R45, R46, R138 (01, 03): a whole gradient leaf that passes its checks is counted for its day; the module before the owner's neighbour forwards the
sums in its format, and the owner keeps them in FP32. -/
def Obligations.GradientLeavesAdd : Prop :=
  ∀ (s : State) (p : Fin 6) (pkt : Packet) (rest : List Packet) (contrib : List (BitVec 32)) (k : Nat), s.dev.steady →
    s.dev.deliverable pkt = true → pkt.ce = false → s.dev.fencedPacket (pktVc pkt) pkt.key = false →
    let pkts := pkt :: rest
    let e := leafOfBytes pkt.ext
    let exts := pkts.map fun q => leafOfBytes q.ext
    (∀ q ∈ pkts, q.ptype.toNat = ptLeaf) → e.grad = true → s.dev.leafContext e.dir = some k → s.dev.leafFails k e = [] →
    (exts.map fun x => x.pktIdx.toNat % 4) = [0, 1, 2, 3] → (∀ x ∈ exts, { x with pktIdx := e.pktIdx } = e ∧ leafReserved x = false) →
    let sums := gradSums e (pkts.flatMap fun q => q.payload) contrib
    let key : GradKey := ⟨e.dir, e.year.toNat, e.day.toNat⟩
    (s.dev.creditHeld k (gradTrig e.dir) = false → Completes (.gradientLeafReceive p pkts contrib) s fun d =>
      key ∈ (d.ring k).grads ∧ d.hbm = s.dev.hbm ∧ d.spm = s.dev.spm ∧
      (e.hop.toNat + 1 = e.ttl.toNat →
        (⟨key, sums.map fun v => BitVec.ofNat 32 (fmtFp32.encode v)⟩ : KeptGrad) ∈ (d.ring k).kept) ∧
      (e.hop.toNat + 1 ≠ e.ttl.toNat → ∀ q ∈ s.dev.leafPackets k { e with hop := e.hop + 1, pktIdx := 0 } (gradBody e sums),
        Msg.packet (setFlag q 1 s.dev.epoch) ∈ d.outbox)) ∧
    (s.dev.creditHeld k (gradTrig e.dir) = true → Completes (.gradientLeafReceive p pkts contrib) s fun d => s.dev.wrote d [])

/-- R204–R206, R209–R212, R224–R226 (05): a block read that its channel may grant ends with its port as the last winner and the channel idle: clean at
the first read, corrected by a re-read, which is counted, or bad after three, which is recorded and lists the block. A read not yet decided
holds the grant; a frozen channel makes none. The patrol scrub reads the next block of its channel so, and moves on. HBM holds what it held. -/
def Obligations.BlockReadsEnd : Prop :=
  ∀ (s : State) (b : Nat) (port : Fin 8) (ch : Fin 256) (ok : List Bool), s.dev.steady →
    let c := b % 256
    let may := ((s.dev.chan c).grant.map fun g => decide (g.1 = port.val)).getD (!s.dev.frozenChan c)
    let idle := fun (d : Dev) => d.chan c = { s.dev.chan c with grant := none, last := port }
    let listed := decide (b ∈ s.dev.hbmBad)
    let full := decide (4096 ≤ (s.dev.hbmBad.filter fun x => stackOf (x % 256) = stackOf c).length)
    (b < blockCount → may = true →
      (listed = true ∨ readOutcome ok = .clean → Completes (.hbmBlockRead b port ok) s fun d =>
        idle d ∧ d.hbm = s.dev.hbm ∧ d.hbmBad = s.dev.hbmBad ∧ regsBut [.HBM_IDLE] s.dev d) ∧
      (listed = false → readOutcome ok = .corrected → Completes (.hbmBlockRead b port ok) s fun d =>
        idle d ∧ s.dev.counted d F.HBM_ERR_REREADS_OK 0 1 ∧ d.fld F.HBM_ERR_REREAD = 1 ∧ d.hbm = s.dev.hbm ∧ d.hbmBad = s.dev.hbmBad ∧
        regsBut [.HBM_IDLE, .HBM_ERR] s.dev d) ∧
      (listed = false → readOutcome ok = .failed → Completes (.hbmBlockRead b port ok) s fun d =>
        idle d ∧ d.fld F.HBM_ERR_BAD = 1 ∧ s.dev.tallied d F.HBM_ERR_BAD_BLOCKS 0 ∧ d.fld F.HBM_BAD_LOC_PORT = port ∧
        d.fld F.HBM_BAD_LOC_BLOCK = b ∧ d.hbm = s.dev.hbm ∧ (full = false → b ∈ d.hbmBad) ∧
        (full = true → d.hbmBad = s.dev.hbmBad ∧ d.fld F.HBM_ERR_LIST_FULL = 1 ∧ marked d.hbmMarks (b * 256) 256 = true)) ∧
      (listed = false → readOutcome ok = .under → (s.dev.chan c).grant = none → Completes (.hbmBlockRead b port ok) s fun d =>
        d.chan c = { s.dev.chan c with grant := some (port.val, s.dev.now) } ∧ d.hbm = s.dev.hbm ∧ regsBut [.HBM_IDLE] s.dev d)) ∧
    (b < blockCount → may = false → Completes (.hbmBlockRead b port ok) s fun d => s.dev.wrote d []) ∧
    (∀ x, s.dev.bit F.HBM_SCRUB_EN = true → s.dev.frozenChan ch = false → (s.dev.chan ch).grant = none → x % 256 = ch.val →
      (s.dev.scrubNext ch (s.dev.chan ch).scrub).or (s.dev.scrubNext ch 0) = some x → x ∈ s.dev.hbmBad ∨ readOutcome ok ≠ .under →
      Completes (.patrolScrubRead ch ok) s fun d => d.hbm = s.dev.hbm ∧ (d.chan ch).grant = none ∧ (d.chan ch).last = 7 ∧
        (if (s.dev.scrubNext ch (x + 1)).isSome then (d.chan ch).scrub = x + 1 ∧ (d.chan ch).passes = (s.dev.chan ch).passes
          else (d.chan ch).scrub = 0 ∧ (d.chan ch).passes = (s.dev.chan ch).passes + 1)) ∧
    (s.dev.bit F.HBM_SCRUB_EN = false ∨ s.dev.frozenChan ch = true → Completes (.patrolScrubRead ch ok) s fun d => s.dev.wrote d [])

/-- R207, R211, R261, R463 (05, 06, 11): a refresh changes nothing; a fatal error of a channel is a module fault, and the device-level safe state is
entered with CAUSE 3.
R203, R206 (05): the bytes of a block asked for again rewrite it whole: it is no longer listed as bad nor asked for, HBM_ERR.REPAIR is set, and every
other byte of HBM is as before while no context of a ring of one plays the leaf. -/
def Obligations.ChannelsScrubAndRepair : Prop :=
  (∀ (s : State) (ch : Fin 256), s.dev.steady →
    Completes (.hbmRefresh ch) s (fun d => s.dev.wrote d []) ∧
    Completes (.hbmChannelFatal ch) s fun d =>
      s.dev.enteredSafe d 3 ∧ (s.dev.mode ≠ stSafe → d.fld F.RECOV_ERR_MODULE = 1) ∧ d.spm = s.dev.spm) ∧
  (∀ (s : State) (b : Nat) (data : List Byte), s.dev.steady → b ∈ s.dev.repair → data.length = 256 → b < blockCount →
    Completes (.shareRepairReply b data) s fun d =>
      b ∉ d.repair ∧ b ∉ d.hbmBad ∧ d.fld F.HBM_ERR_REPAIR = 1 ∧
      ((∀ k, k < 4 → (s.dev.plan k).len ≠ 1) → d.hbm = memWrite s.dev.hbm (b * 256) data ∧
        (∀ i, i < 256 → memByte d.hbm (b * 256 + i) = data.getD i 0) ∧
        ∀ a, a < b * 256 ∨ b * 256 + 256 ≤ a → memByte d.hbm a = memByte s.dev.hbm a))

/-- R217–R219, R231, R584 (05, 14): a vault block that arrives good, or is rebuilt from its group, is delivered and its read is over; a bad or late one
sets its error bit and is rebuilt, unless a second block of its group is bad, or the rebuild finds one: then the group is recorded as lost
and a weight load fails. -/
def Obligations.VaultReadsEnd : Prop :=
  ∀ (s : State) (b : Nat) (r : VaultRead), s.dev.steady → (s.dev.vault.reads.find? fun x => x.block = b) = some r →
    let over_ := fun (d : Dev) => (∀ x ∈ d.vault.reads, x.block ≠ b) ∧ d.vault.blocks = s.dev.vault.blocks ∧
      (r.forLoad = true → ∀ j, s.dev.start.reader = some j → ∃ j', d.start.reader = some j' ∧ b ∈ j'.got)
    let second := s.dev.vault.bad.any fun x => x ≠ b && groupOf x = groupOf b
    let load := s.dev.vault.reads.any fun x => groupOf x.block = groupOf b && x.forLoad
    let lost := fun (d : Dev) => d.fld F.VAULT_ERR_DOUBLE = 1 ∧ (s.dev.bit F.VAULT_ERR_DOUBLE = false →
        d.fld F.VAULT_ERR_FIRST_GROUP = groupOf b % 2 ^ (F.VAULT_ERR_FIRST_GROUP.hi - F.VAULT_ERR_FIRST_GROUP.lo + 1)) ∧
      (∀ x ∈ d.vault.reads, groupOf x.block ≠ groupOf b) ∧ (load = true → d.fld F.LOAD_STATUS_FAILED = 1) ∧
      d.vault.blocks = s.dev.vault.blocks
    let rebuilds := fun (d : Dev) => b ∈ d.vault.bad ∧ (∀ x ∈ d.vault.reads, x.block = b → x.rebuilding = true) ∧
      d.vault.blocks = s.dev.vault.blocks
    let late := decide (r.issued + s.dev.fld F.VAULT_CTL_DEADLINE * 1000 ≤ s.dev.now)
    (r.rebuilding = false →
      Completes (.vaultBlockDeliver b true) s over_ ∧
      (second = false → Completes (.vaultBlockDeliver b false) s fun d => d.fld F.VAULT_ERR_CRC = 1 ∧ rebuilds d) ∧
      (second = true → Completes (.vaultBlockDeliver b false) s fun d => d.fld F.VAULT_ERR_CRC = 1 ∧ lost d) ∧
      (late = true → second = false → Completes (.vaultDeadlineExpire b) s fun d => d.fld F.VAULT_ERR_LATE = 1 ∧ rebuilds d) ∧
      (late = true → second = true → Completes (.vaultDeadlineExpire b) s fun d => d.fld F.VAULT_ERR_LATE = 1 ∧ lost d) ∧
      (late = false → Completes (.vaultDeadlineExpire b) s fun d => s.dev.wrote d [])) ∧
    (r.rebuilding = true →
      (∀ ok, Completes (.vaultBlockDeliver b ok) s fun d => s.dev.wrote d []) ∧
      Completes (.vaultRebuildDone b 0) s (fun d => over_ d ∧ b ∉ d.vault.bad ∧ b ∈ d.vault.suspect ∧
        s.dev.counted d F.VAULT_ERR_REBUILDS 0 1) ∧
      ∀ n, n ≠ 0 → Completes (.vaultRebuildDone b n) s lost)

/-- R110, R192, R196, R211, R221, R230, R235, R236, R503 (02, 05, 12): a write of an array mode, a slot table or a region takes effect in MAINTENANCE only,
and a region written is empty; HBM_FREEZE takes its bits at once; a vault slot is written in installation mode only, and another attempt is
recorded; a seed is written for an allocated entry with no armed or live context. Each refusal changes nothing else. -/
def Obligations.TablesAreWritten : Prop :=
  ∀ (s : State) (r : Req) (c : Fin 25600) (i : Fin 4) (b : Fin 16) (n : Fin 32) (slotB : Bool) (val : BitVec 64),
    s.dev.steady → s.dev.fresh r → (∀ g, s.dev.powered g = true) →
    let maint := decide (s.dev.mode = stMaint)
    let core := s.dev.spmSel r.path
    let badSlots := (List.range 16).any fun j => reservedEngine (bitsOf val (4 * j + 3) (4 * j))
    let badEngines := reservedEngine (bitsOf val 62 59) || reservedEngine (bitsOf val 58 55)
    let badModes := decide (1 < bitsOf val 3 0 ∨ 1 < bitsOf val 7 4)
    let e := s.dev.slice (s.dev.fld F.DET_SEL_INDEX r.path.copy)
    let took := fun (d : Dev) (g : Reg) => s.dev.answered d r answerOk ∧ s.dev.wrote d [g, .CHAIN_CNT]
    let no := fun (reason : Nat) (d : Dev) => s.dev.answered d r (addressError reason) ∧ s.dev.wrote d [.CHAIN_CNT]
    (maint = false → Completes (.coreArraymodeWrite r c val) s (no 5) ∧ Completes (.spmSlotWrite r b val) s (no 5) ∧
      Completes (.spmRegionWrite r n val) s (no 5)) ∧
    (maint = true → (badModes = true → Completes (.coreArraymodeWrite r c val) s (no 6)) ∧
      (badSlots = true → Completes (.spmSlotWrite r b val) s (no 6)) ∧ (badEngines = true → Completes (.spmRegionWrite r n val) s (no 6)) ∧
      (badModes = false → Completes (.coreArraymodeWrite r c val) s fun d => took d .CORE_ARRAYMODE ∧
        d.fld F.CORE_ARRAYMODE_MODE_A c = bitsOf val 3 0 ∧ d.fld F.CORE_ARRAYMODE_MODE_B c = bitsOf val 7 4 ∧
        otherCopies .CORE_ARRAYMODE c s.dev d) ∧
      (badSlots = false → Completes (.spmSlotWrite r b val) s fun d => took d .SPM_SLOT ∧
        d.fld (wholeReg .SPM_SLOT) (core * 16 + b) = val.toNat ∧ otherCopies .SPM_SLOT (core * 16 + b) s.dev d) ∧
      (badEngines = false → Completes (.spmRegionWrite r n val) s fun d => took d .SPM_REGION ∧
        d.fld (wholeReg .SPM_REGION) (regionIx core n) = bitsOf val 63 31 * 2 ^ 31 ∧
        otherCopies .SPM_REGION (regionIx core n) s.dev d)) ∧
    Completes (.hbmFreezeWrite r i val) s (fun d => took d .HBM_FREEZE ∧ d.fld F.HBM_FREEZE_CH i = val.toNat ∧
      otherCopies .HBM_FREEZE i s.dev d) ∧
    (s.dev.bit F.VAULT_CTL_INSTALL = true → Completes (.vaultSlotWrite r slotB val) s fun d => took d .VAULT_SLOT ∧
      (∀ f ∈ [F.VAULT_SLOT_PRESENT, F.VAULT_SLOT_GEN, F.VAULT_SLOT_SIZE, F.VAULT_SLOT_BASE],
        d.fld f (if slotB then 1 else 0) = bitsOf val f.hi f.lo) ∧ otherCopies .VAULT_SLOT (if slotB then 1 else 0) s.dev d) ∧
    (s.dev.bit F.VAULT_CTL_INSTALL = false → Completes (.vaultSlotWrite r slotB val) s fun d =>
      s.dev.answered d r (addressError 5) ∧ d.fld F.VAULT_ERR_WRITE_REFUSED = 1 ∧ s.dev.wrote d [.VAULT_ERR, .CHAIN_CNT]) ∧
    (e.desc.isSome = true → s.dev.activeRings e.pkey = [] → Completes (.rngSeedWrite r val) s fun d => took d .RNG_SEED ∧
      d.fld F.RNG_SEED_SEED (s.dev.fld F.DET_SEL_INDEX r.path.copy) = val.toNat ∧
      otherCopies .RNG_SEED (s.dev.fld F.DET_SEL_INDEX r.path.copy) s.dev d) ∧
    (e.desc = none ∨ s.dev.activeRings e.pkey ≠ [] → Completes (.rngSeedWrite r val) s (no 5))

/-- R356–R358, R360, R367, R371, R372, R374, R375, R377, R378, R381–R383 (09): what a flit does to its port. One that fails its CRC is recorded and
discarded; a reserved value, an ACK that names no flit sent, or another fault of the protocol is the death of the link. A good CTRL flit
gives the freed counts, a NAK has its flit and the later ones sent again, a FENCE flit discards its scope and fences the slices, a HELLO
flit tells of the peer. A DATA flit with the SEQ expected is accepted, counted and its packets are taken; any other draws a NAK. -/
def Obligations.FlitsAreReceived : Prop :=
  ∀ (s : State) (p : Fin 6) (f : Flit), s.dev.steady →
    let h := runAct (takeHeader p f) s.dev
    let o := s.dev.port p
    let bad := headerBad o f
    let byte := fun (off n : Nat) => leNat ((f.payload.drop off).take n)
    let key : BitVec 12 := BitVec.ofNat 12 (byte 2 2)
    let died := fun (d₀ : Dev) (d : Dev) => LinkDied d₀ d p F.LINK_ERR_PROTOCOL
    let data := decide (s.dev.linkState p = lsKeying ∨ s.dev.linkState p = lsUp)
    let over_ := decide (s.dev.fld F.LINK_CFG_DEG_RATE p ≠ 0 ∧ s.dev.fld F.LINK_CFG_DEG_RATE p < o.badFlits + 1)
    let dies := over_ && s.dev.bit F.LINK_CFG_DEG_DEAD p;
    (∀ e ∈ [(2, Instr.ctrlFlitReceive p f), (3, .nakFlitReceive p f), (5, .fenceFlitReceive p f), (7, .helloFlitReceive p f)],
      (s.dev.flitLayer p = false → Completes e.2 s fun d => s.dev.wrote d []) ∧
      (s.dev.flitLayer p = true → f.crcOk = false → Completes e.2 s fun d => d.fld F.LINK_ERR_CRC p = 1 ∧ s.dev.wrote d [.LINK_ERR]) ∧
      (s.dev.flitLayer p = true → f.crcOk = true → bad = true ∨ f.ftype.toNat ≠ e.1 → Completes e.2 s (died s.dev))) ∧
    (s.dev.flitLayer p = true → f.crcOk = true → bad = false →
      (f.ftype = 2 → Completes (.ctrlFlitReceive p f) s fun d =>
        (d.port p).freed = ((List.range 6).map fun v => byte (4 * v) 4) ∧ (d.port p).goodAt = s.dev.now) ∧
      (f.ftype = 3 → Completes (.nakFlitReceive p f) s fun d =>
        let e := byte 0 2 % 8192
        if ((h.port p).held.any fun x => x.seq = e) = true then Resent h d p e else died h d) ∧
      (f.ftype = 5 → Completes (.fenceFlitReceive p f) s fun d =>
        (byte 0 1 = 1 → key ∈ (d.port p).rxFence ∧ d.fld F.LINK_STATUS_FENCE_RX p = 1 ∧
          ∀ i, s.dev.sliceOf key = some i → s.dev.memberHere (s.dev.slice i) = true ∨ s.dev.transitHere (s.dev.slice i) = true →
            (d.slice i).fenced = true) ∧
        (byte 0 1 = 2 → (d.port p).rxDevice = true ∧ d.fld F.LINK_STATUS_FENCE_RX p = 1 ∧
          ∀ i ∈ s.dev.slicesOf (s.dev.neighbour p), (s.dev.slice i).desc.isSome = true → (d.slice i).fenced = true) ∧
        (byte 0 1 ≠ 1 → byte 0 1 ≠ 2 → died h d)) ∧
      (f.ftype = 7 → s.dev.linkState p = lsHello → Completes (.helloFlitReceive p f) s fun d =>
        (d.port p).hello = true ∧ (d.port p).cap = ((List.range 6).map fun v => byte (16 + 4 * v) 4) ∧
        (d.port p).peerUid = BitVec.ofNat 64 (byte 8 8) ∧ d.fld F.LINK_PEER_VALID p = 1 ∧ d.fld F.LINK_PEER_PORT p = byte 0 1 % 8 ∧
        d.fld F.LINK_PEER_COORD p = byte 2 2 % 4096 ∧ d.fld F.LINK_PEER_COORD_V p = byte 1 1 % 2 ∧
        d.fld F.LINK_PEER_SEED p = byte 1 1 / 2 % 2 ∧ d.fld F.LINK_PEER_UID_LO p = byte 8 4) ∧
      (f.ftype = 7 → s.dev.linkState p ≠ lsHello → Completes (.helloFlitReceive p f) s fun d =>
        (d.port p).hello = o.hello ∧ d.reg .LINK_PEER p = s.dev.reg .LINK_PEER p)) ∧
    (data = false → Completes (.dataFlitReceive p f) s fun d => s.dev.wrote d []) ∧
    (data = true → f.crcOk = false → dies = false → Completes (.dataFlitReceive p f) s fun d =>
      d.fld F.LINK_ERR_CRC p = 1 ∧ (d.port p).rxSeq = o.rxSeq ∧ (d.port p).badFlits = o.badFlits + 1 ∧
      (over_ = true → d.bit F.LINK_STATUS_DEGRADED p = true) ∧
      (o.nakOut = false ∨ f.seq.toNat = o.rxSeq → Msg.nakFlit p o.rxSeq ∈ d.outbox) ∧ sameMemory s.dev d) ∧
    (data = true → f.crcOk = false → dies = true → Completes (.dataFlitReceive p f) s fun d => LinkDied s.dev d p F.LINK_ERR_DEGRADED) ∧
    (data = true → f.crcOk = true → bad = true ∨ f.ftype ≠ 1 → Completes (.dataFlitReceive p f) s (died s.dev)) ∧
    (data = true → f.crcOk = true → bad = false → f.ftype = 1 →
      (f.seq.toNat ≠ o.rxSeq → Completes (.dataFlitReceive p f) s fun d =>
        (d.port p).rxSeq = o.rxSeq ∧ d.fld F.LINK_FLITS_RX p = s.dev.fld F.LINK_FLITS_RX p ∧
        (o.nakOut = false → Msg.nakFlit p o.rxSeq ∈ d.outbox)) ∧
      (f.seq.toNat = o.rxSeq → encBad (decide (s.dev.linkState p = lsUp)) o f = true → Completes (.dataFlitReceive p f) s (died h)) ∧
      (f.seq.toNat = o.rxSeq → encBad (decide (s.dev.linkState p = lsUp)) o f = false →
        let rx := if f.poison then o.rx.map fun r => { r with void := true } else o.rx;
        (frame f.start.toNat 1024 rx 0 false f.payload [] = none → Completes (.dataFlitReceive p f) s (died h)) ∧
        (∀ g, frame f.start.toNat 1024 rx 0 false f.payload [] = some g → (∀ r ∈ g.done, malformed (packetOfBytes r.bytes) = false) →
          Completes (.dataFlitReceive p f) s fun d =>
            (d.port p).rxSeq = (o.rxSeq + 1) % 8192 ∧ (d.port p).nakOut = false ∧ s.dev.counted d F.LINK_FLITS_RX p 1 ∧
            d.linkState p = s.dev.linkState p ∧
            ∀ r ∈ g.done, r.void = false → o.rxFenced (packetOfBytes r.bytes) = false → s.dev.mode ≠ stSafe →
              s.dev.nextHop ⟨some p.val, packetOfBytes r.bytes⟩ = .here → Msg.delivered p (packetOfBytes r.bytes) ∈ d.outbox)))

/-- R368, R372, R375, R377, R379, R384, R607 (09, 15): the timers of a port. A CTRL flit gives the counts of credits freed; without ACK progress for
REPLAY_TO the held flits are sent again; every fence in force is sent again on a port that is UP; a HELLO flit leaves in HELLO; loss of
lock, or silence for SILENCE_TO, and a key phase at 2^47 flits are the death of the link. Before its time each changes nothing. -/
def Obligations.PortTimersAct : Prop :=
  ∀ (s : State) (p : Fin 6) (lock : Bool), s.dev.steady →
    let o := s.dev.port p
    let none_ := fun (d : Dev) => s.dev.wrote d []
    let up := decide (s.dev.linkState p = lsUp);
    (s.dev.flitLayer p = true → Completes (.ctrlFlitDue p) s fun d =>
      Msg.ctrlFlit p ((List.range 6).map fun v => nth o.rxFreed v) ∈ d.outbox ∧ none_ d) ∧
    (s.dev.flitLayer p = false → Completes (.ctrlFlitDue p) s none_ ∧ Completes (.replayTimeout p) s none_ ∧
      Completes (.silenceTimeout p lock) s none_) ∧
    (s.dev.flitLayer p = true → ∀ h hs, o.held = h :: hs →
      (o.ackAt + s.dev.fld F.LINK_CFG_REPLAY_TO p ≤ s.dev.now → Completes (.replayTimeout p) s fun d => Resent s.dev d p h.seq) ∧
      (s.dev.now < o.ackAt + s.dev.fld F.LINK_CFG_REPLAY_TO p → Completes (.replayTimeout p) s none_)) ∧
    (o.held = [] → Completes (.replayTimeout p) s none_) ∧
    (up = true → Completes (.fenceFlitResend p) s fun d => none_ d ∧
      (∀ i, (s.dev.slice i).fenced = true → Msg.fence p false (s.dev.slice i).pkey s.dev.gcnt ∈ d.outbox) ∧
      (s.dev.mode = stSafe → Msg.fence p true 0 s.dev.gcnt ∈ d.outbox)) ∧
    (up = false → Completes (.fenceFlitResend p) s none_ ∧ Completes (.keyPhaseExhausted p) s none_) ∧
    (s.dev.linkState p = lsHello → Completes (.helloFlitSend p) s fun d =>
      Msg.helloFlit p (helloPayload s.dev p) ∈ d.outbox ∧ none_ d) ∧
    (s.dev.linkState p ≠ lsHello → Completes (.helloFlitSend p) s none_) ∧
    (s.dev.flitLayer p = true →
      let silent := s.dev.expired o.goodAt (s.dev.fld F.LINK_CFG_SILENCE_TO p);
      (lock = true → Completes (.silenceTimeout p lock) s fun d => LinkDied s.dev d p F.LINK_ERR_LOCK) ∧
      (lock = false → silent = true → Completes (.silenceTimeout p lock) s fun d => LinkDied s.dev d p F.LINK_ERR_SILENCE) ∧
      (lock = false → silent = false → Completes (.silenceTimeout p lock) s none_)) ∧
    (up = true →
      (2 ^ 47 ≤ o.txN → Completes (.keyPhaseExhausted p) s fun d => LinkDied s.dev d p F.LINK_ERR_PROTOCOL) ∧
      (o.txN < 2 ^ 47 → Completes (.keyPhaseExhausted p) s none_))

/-- R379, R380, R390, R398, R605–R607, R622 (09, 15, 16): how a link comes up. TRAIN, ALIGN and HELLO end in the next state, HELLO in KEYING; each bring-up state
has its bound, after which the port is DOWN with LOCK recorded; with AUTO it trains again after 10 ms unless three exchanges failed.
KILL and a clear ENABLE are a death, RETRAIN and ENABLE let a port train, and so does a peer detected on a DOWN port of a Dormant or
spare module. KX_HELLO, KX_REPLY, KX_AUTH and KX_DONE follow each other; a failed check is a death with LINK_AUTH recorded. -/
def Obligations.LinksComeUp : Prop :=
  ∀ (s : State) (r : Req) (p : Fin 6) (val : BitVec 64) (lat hop : Nat) (m : KxHello) (a : KxAuth) (mac : List Byte), s.dev.steady →
    let o := s.dev.port p
    let st := s.dev.linkState p
    let none_ := fun (d : Dev) => s.dev.wrote d []
    let short := s.dev.bit F.DEV_COORD_VALID && decide (s.dev.axis (portAxis p) = 1)
    let idle := decide (st = lsDown ∨ st = lsDead)
    let live := decide (st ≠ lsDown ∧ st ≠ lsDead)
    let trains := fun (d : Dev) => s.dev.enteredLink d p lsTrain ∧ (d.port p).autoStart = false
    let failed := fun (d : Dev) => LinkDied s.dev d p F.LINK_ERR_PROTOCOL ∧ d.fld F.SEC_ERR_LINK_AUTH = 1 ∧ (d.port p).kxFails = o.kxFails + 1;
    (st = lsTrain → Completes (.linkTrainDone p) s fun d => s.dev.enteredLink d p lsAlign ∧ regsBut [.LINK_STATUS] s.dev d) ∧
    (st ≠ lsTrain → Completes (.linkTrainDone p) s none_) ∧
    (st = lsAlign → Completes (.linkAlignDone p) s fun d => s.dev.enteredLink d p lsHello ∧ regsBut [.LINK_STATUS] s.dev d ∧
      (d.port p).txSeq = 0 ∧ (d.port p).rxSeq = 0 ∧ (d.port p).held = [] ∧ (d.port p).rx = none ∧ (d.port p).hello = false ∧
      ∀ v, (d.port p).free v = 0) ∧
    (st ≠ lsAlign → Completes (.linkAlignDone p) s none_) ∧
    (st = lsHello → o.hello = true → Completes (.linkHelloDone p lat hop) s fun d => s.dev.enteredLink d p lsKeying ∧
      d.fld F.LINK_LAT_LAT p = lat % 2 ^ 32 ∧ (∃ k, (d.port p).kx = some k ∧ k.rekey = false) ∧
      (p = 0 → ∀ k, k < 4 → d.fld F.RING_HOP_HOP_CW k = hop % 2 ^ (F.RING_HOP_HOP_CW.hi - F.RING_HOP_HOP_CW.lo + 1)) ∧
      (p = 1 → ∀ k, k < 4 → d.fld F.RING_HOP_HOP_CCW k = hop % 2 ^ (F.RING_HOP_HOP_CCW.hi - F.RING_HOP_HOP_CCW.lo + 1)) ∧
      (s.dev.initiates p = true → ∃ q, Msg.portMsg p (.kxHello q) ∈ d.outbox)) ∧
    (st ≠ lsHello ∨ o.hello = false → Completes (.linkHelloDone p lat hop) s none_) ∧
    (∀ b, linkBound st = some b →
      (s.dev.expired o.enteredAt b = true → Completes (.linkBringupTimeout p) s fun d => s.dev.enteredLink d p lsDown ∧
        d.fld F.LINK_ERR_LOCK p = 1 ∧ (d.port p).autoStart = s.dev.bit F.LINK_CFG_AUTO p) ∧
      (s.dev.expired o.enteredAt b = false → Completes (.linkBringupTimeout p) s none_)) ∧
    (linkBound st = none → Completes (.linkBringupTimeout p) s none_) ∧
    (let due := o.autoStart && decide (o.kxFails < 3) && s.dev.expired o.enteredAt 10000;
      (due = true → idle = true → s.dev.bit F.LINK_CTL_ENABLE p = true → short = false → Completes (.linkAutoRetrain p) s trains) ∧
      (due = false ∨ idle = false ∨ s.dev.bit F.LINK_CTL_ENABLE p = false ∨ short = true → Completes (.linkAutoRetrain p) s none_)) ∧
    (s.dev.fresh r → s.dev.powered .LINK_CTL = true →
      (live = true → bitOf val 0 = true → bitOf val 1 = false → Completes (.linkKill r p val) s fun d =>
        s.dev.answered d r answerOk ∧ LinkDied s.dev d p F.LINK_ERR_KILLED ∧ d.fld F.LINK_CTL_ENABLE p = 1) ∧
      (live = true → bitOf val 0 = false → ∀ i ∈ [Instr.linkKill r p val, .linkRetrain r p val, .linkEnableWrite r p val],
        Completes i s fun d => s.dev.answered d r answerOk ∧ d.fld F.LINK_CTL_ENABLE p = 0 ∧ d.linkState p = lsDown ∧
          d.fld F.LINK_ERR_KILLED p = 1 ∧ (d.port p).held = [] ∧ (d.port p).autoStart = false) ∧
      (idle = true → short = false → bitOf val 0 = true → bitOf val 2 = false → Completes (.linkRetrain r p val) s fun d =>
        s.dev.answered d r answerOk ∧ trains d ∧ (d.port p).kxFails = 0) ∧
      (st = lsDown → short = false → bitOf val 0 = true → bitOf val 1 = false → bitOf val 2 = false →
        s.dev.bit F.LINK_CTL_ENABLE p = false → Completes (.linkEnableWrite r p val) s fun d =>
          s.dev.answered d r answerOk ∧ trains d ∧ d.fld F.LINK_CTL_ENABLE p = 1)) ∧
    (let may := decide (s.dev.fld F.PWR_STATUS_STATE = 4 ∨ s.dev.bit F.DEV_COORD_SPARE = true) && decide (s.dev.mode ≠ stOff);
      (st = lsDown → may = true → s.dev.bit F.LINK_CTL_ENABLE p = true → short = false → Completes (.lanePresenceDetect p) s fun d =>
        trains d ∧ (s.dev.fld F.PWR_STATUS_STATE = 4 → d.fld F.PWR_STATUS_STATE = 0)) ∧
      (st ≠ lsDown ∨ may = false → Completes (.lanePresenceDetect p) s none_)) ∧
    (let open_ := decide (st = lsKeying ∨ st = lsUp);
      (open_ = true → s.dev.initiates p = false → Completes (.kxHello p m) s fun d => ∃ q, Msg.portMsg p (.kxReply q) ∈ d.outbox ∧
        Msg.portMsg p (.kxAuth 0x52) ∈ d.outbox ∧ (d.port p).kx = some ⟨kxBytes m ++ kxBytes q, true, false, decide (st = lsUp)⟩ ∧
        regsBut [] s.dev d) ∧
      (open_ = false ∨ s.dev.initiates p = true → Completes (.kxHello p m) s none_)) ∧
    (∀ k, o.kx = some k → s.dev.keyOpen p = true →
      (s.dev.initiates p = true → k.replied = false → Completes (.kxReply p m) s fun d => Msg.portMsg p (.kxAuth 0x49) ∈ d.outbox ∧
        (d.port p).kx = some { k with transcript := k.transcript ++ kxBytes m, replied := true } ∧ regsBut [] s.dev d) ∧
      (s.dev.initiates p = false ∨ k.replied = true → Completes (.kxReply p m) s none_) ∧
      (k.replied = false → Completes (.kxAuth p a) s none_) ∧
      (k.replied = true →
        let ok := a.rsaOk && a.slhOk && a.chainsOk && decide (a.uid = o.peerUid);
        (ok = true → Completes (.kxAuth p a) s fun d => (d.port p).kx = some { k with authOk := true } ∧
          Msg.portMsg p (.kxDone (Config.kxConfirm k.transcript (s.dev.kxRole p))) ∈ d.outbox ∧ regsBut [] s.dev d) ∧
        (ok = false → Completes (.kxAuth p a) s failed)) ∧
      (k.authOk = true → mac ≠ Config.kxConfirm k.transcript (s.dev.peerRole p) → Completes (.kxDone p mac) s failed) ∧
      (k.authOk = true → mac = Config.kxConfirm k.transcript (s.dev.peerRole p) →
        (k.rekey = true → st = lsUp → Completes (.kxDone p mac) s fun d => d.linkState p = lsUp ∧ (d.port p).kx = none ∧
          (d.port p).txKph = !o.txKph ∧ (d.port p).rxKph = !o.rxKph ∧ (d.port p).txN = 0 ∧ (d.port p).rxN = 0 ∧ regsBut [] s.dev d) ∧
        (k.rekey = false → s.dev.mode ≠ stBoot → s.dev.mode ≠ stPlanWait → Completes (.kxDone p mac) s fun d =>
          s.dev.enteredLink d p lsUp ∧ (d.port p).kx = none ∧ (d.port p).kxFails = 0))) ∧
    (o.kx = none → Completes (.kxReply p m) s none_ ∧ Completes (.kxAuth p a) s none_) ∧
    (let due := decide (st = lsUp) && o.kx.isNone && decide (2 ^ s.dev.fld F.SEC_CFG_REKEY_EXP ≤ o.txN);
      (due = true → Completes (.rekeyStart p) s fun d => (∃ k, (d.port p).kx = some k ∧ k.rekey = true ∧ k.replied = false) ∧
        (s.dev.initiates p = true → ∃ q, Msg.portMsg p (.kxHello q) ∈ d.outbox) ∧ regsBut [] s.dev d) ∧
      (due = false → Completes (.rekeyStart p) s none_))

/-- R360–R363, R422, R423, R430, R459 (09, 10, 11): a packet delivered to a module that has no part in its key is discarded and counted, and one of a
fenced slice is discarded. A WRITE writes its payload, a READ_REQ draws READ_RESP packets in address order, a READ_RESP is placed by the
requester's record; one that reaches beyond HBM fences its slice. A CNP lowers the rate toward its source, which recovers step by step.
Heartbeats leave on every admitted port, are noted, and a silent neighbour is reported and its slices fenced. -/
def Obligations.PacketsAreDelivered : Prop :=
  ∀ (s : State) (p : Fin 6) (pkt : Packet) (t : Coord), s.dev.steady →
    let a := pkt.addr.toNat
    let n := pkt.payload.length
    let type := pkt.ptype.toNat
    let none_ := fun (d : Dev) => s.dev.wrote d []
    let port := s.dev.port p
    let rated := fun (d : Dev) (c : Coord) (v : Nat) =>
      (d.rateSt c).rate = (if s.dev.portRateTo c ≤ v then none else some v) ∧ (d.rateSt c).since = s.dev.now
    let fault := fun (d : Dev) => d.fld F.LINK_ERR_DELIVERY p = 1 ∧ sameMemory s.dev d ∧
      ∀ i, s.dev.sliceOf pkt.key = some i → (s.dev.slice i).desc.isSome = true → (d.slice i).fenced = true;
    (s.dev.deliverable pkt = false →
      ∀ i ∈ [Instr.writePacketReceive p pkt, .readReqReceive p pkt, .readRespReceive p pkt, .cnpReceive p pkt], Completes i s fun d =>
        s.dev.tallied d F.ROUTE_DROP_PKEY 0 ∧ d.fld F.ROUTE_ERR_PKEY = 1 ∧ sameMemory s.dev d ∧ d.route = s.dev.route) ∧
    (s.dev.deliverable pkt = true → s.dev.fencedPacket (pktVc pkt) pkt.key = true →
      ∀ i ∈ [Instr.writePacketReceive p pkt, .readReqReceive p pkt, .readRespReceive p pkt, .cnpReceive p pkt], Completes i s fun d =>
        sameMemory s.dev d ∧ d.route = s.dev.route) ∧
    (s.dev.deliverable pkt = true → s.dev.fencedPacket (pktVc pkt) pkt.key = false →
      (type = ptWrite → pkt.mirror = false → hbmSize < a + n → Completes (.writePacketReceive p pkt) s fault) ∧
      (type = ptWrite → pkt.mirror = false → a + n ≤ hbmSize → pkt.hasExt = false → (∀ k, k < 4 → s.dev.fld F.RING_CTL_LEN k ≠ 1) →
        Completes (.writePacketReceive p pkt) s fun d =>
          d.hbm = (runAct (writeHbm a pkt.payload pkt.bad) s.dev).hbm ∧ d.spm = s.dev.spm ∧
          (∀ x, x < a ∨ a + n ≤ x → memByte d.hbm x = memByte s.dev.hbm x) ∧
          (s.dev.hbmBad = [] → ∀ j, j < n → memByte d.hbm (a + j) = pkt.payload.getD j 0)) ∧
      (type = ptReadReq → hbmSize < a + pkt.elems.toNat → pkt.elems ≠ 0 → Completes (.readReqReceive p pkt) s fault) ∧
      (type = ptReadReq → a + pkt.elems.toNat ≤ hbmSize → Completes (.readReqReceive p pkt) s fun d => sameMemory s.dev d ∧
        ∀ q ∈ readResponses s.dev pkt, Msg.packet (setFlag q 1 s.dev.epoch) ∈ d.outbox) ∧
      (∀ e, s.dev.readRecord pkt = some e → Completes (.readRespReceive p pkt) s fun d =>
        d.hbm = (runAct (writeHbm (e.2.2.2.1 + (a - e.2.2.1)) pkt.payload pkt.bad) s.dev).hbm ∧ d.spm = s.dev.spm ∧
        d.route.reads = if pkt.isLast then s.dev.route.reads.erase e else s.dev.route.reads) ∧
      (s.dev.readRecord pkt = none → Completes (.readRespReceive p pkt) s fun d => sameMemory s.dev d ∧ d.route.reads = s.dev.route.reads) ∧
      Completes (.cnpReceive p pkt) s fun d => s.dev.counted d F.ROUTE_CONG_CNP_RX 0 1 ∧
        rated d pkt.srcCoord (max (s.dev.rateOf pkt.srcCoord / 2) (s.dev.portRateTo pkt.srcCoord * s.dev.fld F.ROUTE_CFG_RMIN / 256))) ∧
    (∀ v, (s.dev.rateSt t).rate = some v →
      (s.dev.expired (s.dev.rateSt t).since (s.dev.fld F.ROUTE_CFG_RECOVER_T) = true → Completes (.rateRecoverStep t) s fun d =>
        rated d t (min (v + s.dev.portRateTo t * s.dev.fld F.ROUTE_CFG_ADD / 256) (s.dev.portRateTo t))) ∧
      (s.dev.expired (s.dev.rateSt t).since (s.dev.fld F.ROUTE_CFG_RECOVER_T) = false → Completes (.rateRecoverStep t) s none_)) ∧
    ((s.dev.rateSt t).rate = none → Completes (.rateRecoverStep t) s none_) ∧
    Completes .heartbeatSend s (fun d => none_ d ∧ ∀ q, q < 6 → s.dev.linkState q = lsUp → s.dev.bit F.LINK_STATUS_ADMITTED q = true →
      Msg.mgmt (s.dev.neighbour q) .heartbeat ∈ d.outbox) ∧
    (s.dev.linkState p = lsUp → Completes (.heartbeatReceive p) s fun d =>
      (d.port p).heardAt = s.dev.now ∧ (d.port p).silent = false ∧ regsBut [] s.dev d) ∧
    (s.dev.linkState p ≠ lsUp → Completes (.heartbeatReceive p) s none_) ∧
    (let silent := decide (s.dev.linkState p = lsUp) && s.dev.bit F.LINK_STATUS_ADMITTED p && !port.silent &&
        decide (port.heardAt + s.dev.fld F.RECOV_CFG_SILENT_TO * 1000000 ≤ s.dev.now)
      let c := s.dev.neighbour p;
      (silent = true → Completes (.neighbourSilent p) s fun d =>
        d.fld F.RECOV_ERR_SILENT = 1 ∧ (d.port p).silent = true ∧ sameMemory s.dev d ∧
        (∀ i ∈ s.dev.slicesOf c, (s.dev.slice i).desc.isSome = true → (d.slice i).fenced = true) ∧
        Msg.mgmt (s.dev.coordIn (addDead c s.dev.route.fmap))
          (.faultReport 3 c (some p.val) ((s.dev.slicesOf c).map fun i => (s.dev.slice i).pkey)) ∈ d.outbox) ∧
      (silent = false → Completes (.neighbourSilent p) s none_))

/-- R412, R413, R415–R419, R424, R426, R427, R434, R435, R437 (10): how a fault comes into the tables. The coordinator takes a report into its map and
sends the map to every live module; each computes its next version and acknowledges; with every acknowledgement FLIP_AT is set 50 µs
ahead, and a module that stays silent for 1 ms is entered as dead. At FLIP_AT the prepared version becomes current and the old one
drains; checks every 20 µs show when it is drained and retired, or DRAIN_TO retires it. A change of the slice map takes effect at its
count where the checks pass. -/
def Obligations.RoutingEpochsFlip : Prop :=
  ∀ (s : State) (rep : FaultReport) (seq : BitVec 16) (m : FaultMap) (v : Fin 4) (src : Coord) (at_ : BitVec 64) (r : DrainReply)
      (sd : SliceDesc) (det : Bool) (key : BitVec 12), s.dev.steady →
    let none_ := fun (d : Dev) => s.dev.wrote d []
    let ro := s.dev.route
    let co := ro.coord
    let drains := s.dev.bit F.ROUTE_EPOCH_DRAINING
    let others := fun (x : FaultMap) => (s.dev.liveIn' x).filter fun c => c ≠ s.dev.here
    let begun := fun (d : Dev) (x : FaultMap) => d.route.coord.map = x ∧
      (drains = false → ro.flipArmed = false → d.route.computing = some ((co.seq + 1) % 65536, x) ∧
        d.route.coord.preparing = some s.dev.now ∧ ∀ c ∈ others x, Msg.mgmt c (.faultMap ((co.seq + 1) % 65536) x none) ∈ d.outbox) ∧
      (drains = true ∨ ro.flipArmed = true → d.route.coord.deferred = true)
    let flipSet := fun (d : Dev) (g : BitVec 64) => d.fld F.ROUTE_FLIP_AT_GCNT = g.toNat ∧ d.route.flipArmed = true
    let retired := fun (d : Dev) => d.fld F.ROUTE_EPOCH_DRAINING = 0 ∧ d.table (!s.dev.epoch) = none ∧ d.epoch = s.dev.epoch;
    (let x := s.dev.withReport co.map rep
      let mine := s.dev.bit F.DEV_COORD_VALID && decide (s.dev.coordIn x = s.dev.here);
      (mine = false → Completes (.faultReport rep) s none_) ∧
      (mine = true → Completes (.faultReport rep) s fun d =>
        (x = co.map → d.route = ro) ∧
        (x ≠ co.map → begun d x ∧ ∀ c ∈ x.dead, c ∉ co.map.dead → Msg.mgmt c .relinquish ∈ d.outbox) ∧
        (rep.cls = 3 → rep.port = none → Msg.mgmt rep.coord .safeRequest ∈ d.outbox))) ∧
    Completes (.faultMapReceive seq m none) s (fun d => d.route.computing = some (seq.toNat, m) ∧ regsBut [] s.dev d) ∧
    (let starting := s.dev.bit F.DEV_COORD_VALID && (decide (s.dev.mode = stBoot) || decide (s.dev.mode = stPlanWait) ||
        (decide (s.dev.mode = stReady) && s.dev.start.variant.isNone));
      (starting = false → Completes (.faultMapReceive seq m (some (.fits v))) s none_ ∧
        Completes (.faultMapReceive seq m (some .waits)) s none_) ∧
      (starting = true → s.dev.mode = stBoot → Completes (.faultMapReceive seq m (some .waits)) s fun d => d.mode = stPlanWait) ∧
      (∀ x, starting = true → s.dev.variantOf v = some x → cz s.dev.here < x.shape.2.2 →
        Completes (.faultMapReceive seq m (some (.fits v))) s fun d => d.route.fmap = m ∧ d.start.variant = some v.val ∧
          d.mode = stLoading ∧ d.fld F.BOOT_STATUS_STEP = 10 ∧ d.fld F.PLAN_STATUS_VARIANT = v)) ∧
    (∀ q x, ro.computing = some (q, x) → drains = false → Completes .tablePrepareDone s fun d =>
      (∃ w, d.table (!s.dev.epoch) = some ⟨x, w⟩) ∧ d.table s.dev.epoch = s.dev.table s.dev.epoch ∧ d.route.computing = none ∧
      d.fld F.ROUTE_EPOCH_NEXT_VALID = 1 ∧ Msg.mgmt (s.dev.coordIn x) (.prepareAck q) ∈ d.outbox) ∧
    (ro.computing = none ∨ drains = true → Completes .tablePrepareDone s none_) ∧
    (let awaited := s.dev.isCoord && co.preparing.isSome && decide (seq.toNat = co.seq)
      let acks := if co.acks.contains src then co.acks else co.acks ++ [src]
      let all := (s.dev.liveIn' co.map).all fun c => acks.contains c;
      (awaited = false → Completes (.prepareAckReceive src seq) s none_) ∧
      (awaited = true → all = true → Completes (.prepareAckReceive src seq) s fun d => flipSet d (s.dev.gcnt + 50000) ∧
        d.route.coord.preparing = none ∧ ∀ c ∈ others co.map, Msg.mgmt c (.flipAt (s.dev.gcnt + 50000)) ∈ d.outbox) ∧
      (awaited = true → all = false → Completes (.prepareAckReceive src seq) s fun d => d.route.coord.acks = acks ∧
        d.route.coord.preparing = co.preparing ∧ regsBut [] s.dev d)) ∧
    (let late := (s.dev.liveIn' co.map).filter fun c => !co.acks.contains c && c ≠ s.dev.here
      let due := s.dev.isCoord && (co.preparing.any fun t => t + 1000000 ≤ s.dev.now) && !late.isEmpty;
      (due = true → Completes .prepareAckTimeout s fun d => begun d (late.foldl (fun x c => addDead c x) co.map) ∧
        ∀ c ∈ late, c ∈ d.route.coord.map.dead) ∧
      (due = false → Completes .prepareAckTimeout s none_)) ∧
    Completes (.flipAtReceive at_) s (fun d => flipSet d at_ ∧ regsBut [.ROUTE_FLIP_AT] s.dev d) ∧
    (let next := s.dev.table (!s.dev.epoch)
      let due := ro.flipArmed && s.dev.bit F.ROUTE_EPOCH_NEXT_VALID && !drains && decide (s.dev.fld F.ROUTE_FLIP_AT_GCNT ≤ s.dev.now);
      (∀ w, next = some w → due = true → Completes .epochFlip s fun d => d.epoch = !s.dev.epoch ∧ d.fld F.ROUTE_EPOCH_DRAINING = 1 ∧
        d.fld F.ROUTE_EPOCH_NEXT_VALID = 0 ∧ s.dev.counted d F.ROUTE_EPOCH_FLIPS 0 1 ∧ d.route.fmap = w.map ∧
        d.route.flipArmed = false ∧ ∀ q, q < 6 →
          d.bit F.LINK_STATUS_ADMITTED q = (decide (s.dev.linkState q = lsUp) && s.dev.maskBit w q)) ∧
      (next = none ∨ due = false → Completes .epochFlip s none_)) ∧
    (let due := s.dev.isCoord && drains && (co.checkAt.all fun t => decide (t + 10000 ≤ s.dev.now));
      (due = true → Completes .drainCheckSend s fun d => d.route.checkAt = some (s.dev.gcnt + 10000).toNat ∧
        d.route.coord.checkAt = some (s.dev.gcnt + 10000).toNat ∧ d.route.coord.replies = [] ∧ regsBut [] s.dev d ∧
        ∀ c ∈ others ro.fmap, Msg.mgmt c (.drainCheck (s.dev.gcnt + 10000)) ∈ d.outbox) ∧
      (due = false → Completes .drainCheckSend s none_)) ∧
    Completes (.drainCheckReceive at_) s (fun d => d.route.checkAt = some at_.toNat ∧ regsBut [] s.dev d) ∧
    (∀ t, ro.checkAt = some t → t ≤ s.dev.now → Completes .drainCheckLatch s fun d =>
      d.route.checkAt = none ∧ d.fld F.ROUTE_DRAIN_CHECK_GCNT = t % 2 ^ 32 ∧ d.fld F.ROUTE_DRAIN_HELD = s.dev.heldOf (!s.dev.epoch) % 2 ^ 32 ∧
      (∀ q, q < 6 → d.fld F.ROUTE_OLD_RX q = s.dev.rxCount q (!s.dev.epoch) % 2 ^ 32) ∧
      ∃ x : DrainReply, x.at_ = BitVec.ofNat 64 t ∧ x.held = s.dev.heldOf (!s.dev.epoch) ∧
        Msg.mgmt (s.dev.coordIn ro.fmap) (.drainReply x) ∈ d.outbox) ∧
    ((∀ t, ro.checkAt = some t → s.dev.now < t) → Completes .drainCheckLatch s none_) ∧
    (let awaited := s.dev.isCoord && decide (co.checkAt = some r.at_.toNat) && drains
      let rs := (co.replies.filter fun x => x.1 ≠ src) ++ [(src, r)]
      let done := ((s.dev.liveIn' ro.fmap).all fun c => rs.any fun x => x.1 = c) && s.dev.drainedBy rs;
      (awaited = false → Completes (.drainCheckReplyReceive src r) s none_) ∧
      (awaited = true → done = false → Completes (.drainCheckReplyReceive src r) s fun d => d.route.coord.replies = rs ∧ regsBut [] s.dev d) ∧
      (awaited = true → done = true → Completes (.drainCheckReplyReceive src r) s fun d => retired d ∧
        ∀ c ∈ others ro.fmap, Msg.mgmt c .retire ∈ d.outbox)) ∧
    (drains = true → Completes .retireReceive s fun d => retired d ∧ d.fld F.ROUTE_EPOCH_HOLD_ACTIVE = 0) ∧
    (drains = false → Completes .retireReceive s none_) ∧
    (let due := drains && s.dev.expired (s.dev.fld F.ROUTE_FLIP_AT_GCNT) (s.dev.fld F.ROUTE_CFG_DRAIN_TO);
      (due = true → Completes .drainToExpire s fun d => d.fld F.ROUTE_ERR_DRAIN_TO = 1 ∧ retired d) ∧
      (due = false → Completes .drainToExpire s none_)) ∧
    (let early := decide (s.dev.now < at_.toNat);
      (early = true ∨ s.dev.allocStatus sd ≠ 0 → Completes (.sliceMapUpdate at_ (.alloc sd det)) s none_) ∧
      (early = true ∨ s.dev.removeStatus key ≠ 0 → Completes (.sliceMapUpdate at_ (.remove key)) s none_) ∧
      (∀ i, early = false → s.dev.allocStatus sd = 0 → ((List.range 256).find? fun j => (s.dev.slice j).desc.isNone) = some i →
        Completes (.sliceMapUpdate at_ (.alloc sd det)) s fun d => (d.slice i).desc = some sd ∧ (d.slice i).detMode = det ∧
          (∀ j, j ≠ i → d.slice j = s.dev.slice j) ∧ regsBut [] s.dev d) ∧
      (∀ i, early = false → s.dev.removeStatus key = 0 → s.dev.sliceOf key = some i →
        Completes (.sliceMapUpdate at_ (.remove key)) s fun d => (d.slice i).desc = none ∧ (∀ j, j ≠ i → d.slice j = s.dev.slice j) ∧
          regsBut [.LOAD_STATUS] s.dev d))

/-- R444, R447, R449–R452, R454, R470 (11): how a step commits. A mirrored write of the ward is staged and acknowledged, an acknowledgement may make the
module ready, READY of every member makes the home decide, the buddy keeps the decision, and with its acknowledgement the home takes its
commit point and sends COMMIT; each member takes its own and tells its buddy to apply. A fenced slice takes none of it. -/
def Obligations.StepsCommit : Prop :=
  ∀ (s : State) (p : Fin 6) (pkt : Packet) (i : Fin 256) (t : Nat) (src b : Coord) (key : BitVec 12), s.dev.steady →
    let sl := s.dev.slice i
    let none_ := fun (d : Dev) => s.dev.wrote d []
    let mirrored := decide (pkt.ptype.toNat = ptWrite) && pkt.mirror && s.dev.paired pkt.srcCoord
    let use := s.dev.stagedUse + pkt.payload.length
    let both := decide (s.dev.buddyOf s.dev.here = s.dev.wardOf s.dev.here)
    let own := decide (s.dev.buddyOf s.dev.here = some pkt.srcCoord) && (!both || portPlus p)
    let committed := fun (d : Dev) => (d.slice i).committed = some t ∧ s.dev.counted d F.COMMIT_CNT_COMMITS 0 1 ∧
      (∀ c, s.dev.buddyOf s.dev.here = some c → Msg.mgmt c (.apply sl.pkey t) ∈ d.outbox)
    let ready := if sl.home.ready.contains (src, t) then sl.home.ready else sl.home.ready ++ [(src, t)];
    (mirrored = false → Completes (.mirrorWriteReceive p t pkt) s none_) ∧
    (mirrored = true → pktVc pkt ≠ 5 → Completes (.mirrorWriteReceive p t pkt) s fun d =>
      d.commit.staged = s.dev.commit.staged ++ [⟨pkt.key, t, pkt.addr.toNat, pkt.payload⟩] ∧
      Msg.mgmt pkt.srcCoord (.mirrorAck pkt.key t) ∈ d.outbox ∧ sameMemory s.dev d ∧
      (s.dev.commitLogHalf < use → d.fld F.RECOV_ERR_LOG_FULL = 1) ∧ (use ≤ s.dev.commitLogHalf → regsBut [.COMMIT_LOG] s.dev d)) ∧
    (mirrored = true → pktVc pkt = 5 → own = true → Completes (.mirrorWriteReceive p t pkt) s fun d => regsBut [] s.dev d ∧
      d.hbm = if s.dev.bit F.SAFE_STATUS_RELINQUISHED then s.dev.hbm else (runAct (writeHbm pkt.addr.toNat pkt.payload pkt.bad) s.dev).hbm) ∧
    (mirrored = true → pktVc pkt = 5 → own = false → s.dev.wardOf s.dev.here = some pkt.srcCoord →
      Completes (.mirrorWriteReceive p t pkt) s fun d => d.hbm = (runAct (writeMirror pkt.addr.toNat pkt.payload pkt.bad) s.dev).hbm ∧
        d.fld F.BUDDY_STATUS_REBUILDING = 1 ∧ d.fld F.BUDDY_STATUS_MIRROR_OK = 0) ∧
    (∀ e, (sl.steps.find? fun e => e.step = t) = some e → Completes (.mirrorAckReceive i (some t)) s fun d =>
      (∃ e', ((d.slice i).steps.find? fun x => x.step = t) = some e' ∧ e'.mirrorOut = e.mirrorOut - 1) ∧ sameMemory s.dev d ∧
      (∀ x, sl.fenced = false → s.dev.memberHere sl = true → sl.desc = some x → e.readySent = false → e.mirrorOut = 1 →
        ((s.dev.committers i).all fun c => e.reports.contains c) = true → s.dev.shadowDone i = true →
        Msg.mgmt (homeOf x) (.ready sl.pkey t) ∈ d.outbox)) ∧
    Completes (.mirrorAckReceive i none) s (fun d => ∀ k ∈ s.dev.activeRings sl.pkey, (d.ring k).mirrorHeld = true) ∧
    (∀ x, sl.desc = some x →
      let takes := !sl.fenced && s.dev.homeHere i && s.dev.isMember x src && decide (sl.nextStep ≤ t)
      let all := (s.dev.members x).all fun c => ready.contains (c, sl.nextStep);
      (takes = false → Completes (.readyReceive i src t) s none_) ∧
      (takes = true → s.dev.buddyOf s.dev.here = some b → Completes (.readyReceive i src t) s fun d =>
        (d.slice i).home.ready = ready ∧ (d.slice i).committed = sl.committed ∧ regsBut [] s.dev d ∧
        (sl.home.deciding = none → all = true →
          (d.slice i).home.deciding = some sl.nextStep ∧ Msg.mgmt b (.decide sl.pkey sl.nextStep) ∈ d.outbox)) ∧
      (takes = true → s.dev.buddyOf s.dev.here = none → t = sl.nextStep → sl.home.deciding = none → all = true →
        Completes (.readyReceive i src t) s committed) ∧
      (let acked := decide (sl.home.deciding = some t) && s.dev.homeHere i;
        (acked = false → Completes (.decideAckReceive i t) s none_) ∧
        (acked = true → sl.fenced = false → sl.nextStep = t → s.dev.buddyOf s.dev.here = some b →
          Completes (.decideAckReceive i t) s fun d => committed d ∧
            ∀ c ∈ s.dev.members x, c ≠ s.dev.here → Msg.mgmt c (.commit sl.pkey t) ∈ d.outbox) ∧
        (acked = true → sl.fenced = true → Completes (.decideAckReceive i t) s fun d =>
          (d.slice i).home.decided = some t ∧ (d.slice i).committed = sl.committed ∧ sameMemory s.dev d))) ∧
    (∀ w, s.dev.wardOf s.dev.here = some w → Completes (.decideReceive key t) s fun d => (key, t) ∈ d.commit.wardDecide ∧
      Msg.mgmt w (.decideAck key t) ∈ d.outbox ∧ regsBut [] s.dev d) ∧
    (s.dev.wardOf s.dev.here = none → Completes (.decideReceive key t) s none_) ∧
    (let takes := !sl.fenced && s.dev.memberHere sl && decide (sl.nextStep = t);
      (takes = true → Completes (.commitReceive i t) s committed) ∧ (takes = false → Completes (.commitReceive i t) s none_)) ∧
    Completes (.applyReceive key t) s fun d => d.fld F.BUDDY_STATUS_MIRROR_OK = 1 ∧ regsBut [.BUDDY_STATUS] s.dev d ∧
      d.commit.staged = (s.dev.commit.staged.filter fun w => !(decide (w.pkey = key) && decide (w.step ≤ t))) ∧
      d.hbm = (runAct (applyStaged key t) s.dev).hbm

/-- R458, R463–R475, R480 (11): how a slice recovers. The resolver takes the reports, sets the target and sends ROLLBACK; a member undoes the steps
above the target; the resolver's count, once it comes, lifts the fence and relaunches the slice. A spare takes a coordinate with its
routes and slices, and reports what it has restored; RELINQUISH silences a module. Items not back within the bound complete. SAFE_CTL
enters and leaves the safe state and halts a slice, where its state allows it. -/
def Obligations.SlicesRecover : Prop :=
  ∀ (s : State) (r : Req) (i : Fin 256) (src : Coord) (rep : ResReport) (target : Int) (to_ : TakeOver) (at_ : BitVec 64), s.dev.steady →
    let sl := s.dev.slice i
    let none_ := fun (d : Dev) => s.dev.wrote d []
    let refused := fun (d : Dev) => s.dev.answered d r (addressError 5) ∧ s.dev.wrote d [.CHAIN_CNT]
    let ok := fun (d : Dev) => s.dev.answered d r answerOk
    let role := s.dev.memberHere sl || s.dev.transitHere sl;
    Completes .safeRequestReceive s (fun d => s.dev.enteredSafe d 9 ∧ sameMemory s.dev d) ∧
    Completes .relinquishReceive s (fun d => d.fld F.SAFE_STATUS_RELINQUISHED = 1 ∧ d.svc.silenced = true ∧ d.svc.held = [] ∧
      regsBut [.SAFE_STATUS] s.dev d) ∧
    (s.dev.resolverHere i = false → Completes (.resolutionReportReceive i src rep) s none_ ∧ Completes (.restoreReportReceive i src) s none_) ∧
    (s.dev.resolverHere i = true → Completes (.resolutionReportReceive i src rep) s fun d => regsBut [] s.dev d ∧
      (∀ c x, rep = .member c x → (src, c, x) ∈ (d.slice i).home.reports) ∧
      (∀ x dec, rep = .mirror x dec → (d.slice i).home.logged = some dec) ∧
      (∀ x n, sl.desc = some x → sl.fenced = true → sl.home.target = none → d.targetOf i = some n →
        (d.slice i).home.target = some n ∧ ∀ c ∈ s.dev.rollbackTargets x, Msg.mgmt c (.rollback sl.pkey n) ∈ d.outbox)) ∧
    (s.dev.resolverHere i = true → Completes (.restoreReportReceive i src) s fun d => src ∈ (d.slice i).home.restored ∧ regsBut [] s.dev d ∧
      ((d.slice i).relaunchAt = sl.relaunchAt ∨ (d.slice i).relaunchAt = some (s.dev.gcnt + 1000000).toNat)) ∧
    (let rolls := s.dev.memberHere sl && sl.fenced && decide (sl.rstate = 1)
      let buddy := (s.dev.wardOf s.dev.here).isSome;
      (rolls = false → buddy = false → Completes (.rollbackReceive i target) s none_) ∧
      (buddy = true → Completes (.rollbackReceive i target) s fun d => ∀ w ∈ d.commit.staged, w.pkey ≠ sl.pkey) ∧
      (rolls = true → Completes (.rollbackReceive i target) s fun d => (d.slice i).fenced = true ∧ (d.slice i).rstate ≠ 1 ∧
        (∀ u ∈ d.commit.undo, u.slice = i → (u.step : Int) ≤ target) ∧ (∀ e ∈ (d.slice i).steps, (e.step : Int) ≤ target) ∧
        s.dev.tallied d F.RECOV_LAST_REPLAYS i ∧ (sl.committedInt < target → (d.slice i).committed = some target.toNat))) ∧
    (let takes := decide (s.dev.mode = stReady) && !s.dev.bit F.DEV_COORD_VALID && s.dev.bit F.DEV_COORD_SPARE &&
        !s.dev.bit F.PLAN_STATUS_PARKED;
      (takes = false → Completes (.takeoverReceive to_) s none_) ∧
      (takes = true → (to_.slices.map Prod.fst).Nodup → Completes (.takeoverReceive to_) s fun d => d.fld F.DEV_COORD_VALID = 1 ∧
        d.fld F.DEV_COORD_SPARE = 0 ∧ d.here = to_.coord ∧ d.route.fmap = to_.map ∧ d.epoch = to_.epoch ∧
        (∀ e ∈ to_.slices, (d.slice e.1).desc = some e.2.1) ∧ d.fld F.DET_STATUS_MAP_SPARE = 1 ∧
        d.fld F.BUDDY_STATUS_REBUILDING = 1 ∧ d.fld F.BUDDY_STATUS_MIRROR_OK = 0 ∧ d.svc.silenced = false)) ∧
    (∀ x, sl.desc = some x →
      let restores := decide (sl.rstate = 3) && s.dev.memberHere sl && sl.replaced.contains s.dev.here && !sl.home.restored.contains s.dev.here;
      (restores = false → Completes (.restoreComplete i) s none_) ∧
      (restores = true → Completes (.restoreComplete i) s fun d => s.dev.here ∈ (d.slice i).home.restored ∧
        d.fld F.BUDDY_STATUS_REBUILDING = 0 ∧ d.fld F.BUDDY_STATUS_MIRROR_OK = 1 ∧
        Msg.mgmt (s.dev.resolver x) (.restoreDone sl.pkey) ∈ d.outbox)) ∧
    (let takes := sl.fenced && !sl.failed && !sl.halted && role;
      (takes = true → Completes (.relaunchCountReceive i at_) s fun d => (d.slice i).rstate = 4 ∧
        (d.slice i).relaunchAt = some at_.toNat ∧ regsBut [] s.dev d) ∧
      (takes = false → Completes (.relaunchCountReceive i at_) s none_)) ∧
    (let due := sl.fenced && (sl.relaunchAt.any fun n => n ≤ s.dev.now) && !sl.halted && !sl.failed && decide (s.dev.mode ≠ stSafe);
      (due = true → s.dev.route.waiting = [] → Completes (.relaunch i) s fun d => (d.slice i).fenced = false ∧ (d.slice i).rstate = 0 ∧
        (d.slice i).relaunchAt = none ∧ d.fld F.RECOV_LAST_DURATION i = min 65535 ((s.dev.now - sl.fenceAt) / 1000000) ∧
        ∀ q, q < 6 → sl.pkey ∉ (d.port q).rxFence) ∧
      (due = false → Completes (.relaunch i) s none_)) ∧
    (let due := sl.fenced && !sl.boundDone && decide (sl.fenceAt + s.dev.fld F.RECOV_CFG_BOUND * 1000000 ≤ s.dev.now);
      (due = true → Completes (.recoveryBoundExpire i) s fun d => d.fld F.RECOV_ERR_BOUND = 1 ∧ (d.slice i).boundDone = true ∧
        (d.slice i).fenced = true ∧ (∀ x ∈ d.commit.items, x.pkey = sl.pkey → x.typ = 3 ∨ x.typ = 4) ∧
        ∀ x ∈ s.dev.commit.items, x.pkey ≠ sl.pkey → x ∈ d.commit.items) ∧
      (due = false → Completes (.recoveryBoundExpire i) s none_)) ∧
    (s.dev.fresh r →
      let sel := s.dev.slice (s.dev.commitSel r.path)
      let safe := decide (s.dev.mode = stSafe)
      let quits := decide (s.dev.fld F.SAFE_STATUS_CAUSE ∈ [1, 5, 6]);
      (safe = false → Completes (.toMaint r) s refused) ∧
      (safe = true → Completes (.toMaint r) s fun d => ok d ∧ d.mode = stMaint ∧ d.fld F.SAFE_STATUS_FAULT_N = 0) ∧
      (safe = true → quits = false → Completes (.resume r) s refused) ∧
      (safe = true → quits = true → Completes (.resume r) s fun d => ok d ∧ d.mode = stRecovering ∧ d.fld F.SAFE_STATUS_FAULT_N = 0) ∧
      (safe = false → sel.rstate ≠ 5 → Completes (.resume r) s refused) ∧
      (safe = false → sel.rstate = 5 → Completes (.resume r) s fun d => ok d ∧ (d.slice (s.dev.commitSel r.path)).halted = false ∧
        (d.slice (s.dev.commitSel r.path)).rstate ≠ 5) ∧
      (s.dev.memberHere sel = true → sel.failed = false → Completes (.reqSlice r) s fun d => ok d ∧
        (d.slice (s.dev.commitSel r.path)).fenced = true ∧ (d.slice (s.dev.commitSel r.path)).halted = true) ∧
      (s.dev.memberHere sel = false ∨ sel.failed = true → s.dev.bit F.VAULT_CTL_INSTALL = false → Completes (.reqSlice r) s fun d => ok d ∧
        s.dev.wrote d [.CHAIN_CNT]) ∧
      Completes (.reqDevice r) s fun d => ok d ∧ s.dev.enteredSafe d 1 ∧ sameMemory s.dev d)

/-- R516–R518, R522, R549 (13): what an Ethernet interface does with a frame. An ARP or Neighbour Discovery request for its own address, and an echo
request within the MTU, is answered; the address of a queue pair's peer is kept; LLDP goes out and is kept; every other frame is dropped
and counted. A link change sets UP of the interface. With PFC_EN a pause for PFC_PRIO holds RoCE frames until its end. -/
def Obligations.EthernetFramesAreTaken : Prop :=
  ∀ (s : State) (i : Fin 8) (e : Fin 2) (prio : Fin 8) (a : ArpFrame) (nd : NdFrame) (ec : EchoFrame) (tlvs : List Byte) (up : Bool),
    s.dev.steady →
    let none_ := fun (d : Dev) => s.dev.wrote d []
    let dropped := fun (d : Dev) => s.dev.counted d F.ETH_STATUS_DROPPED (ethPort i) 1 ∧ s.dev.wrote d [.ETH_STATUS]
    let sends := s.dev.ifaceSends i;
    Completes (.ethFrameDiscard i) s dropped ∧
    (s.dev.iface i = none → Completes (.arpReceive i a) s dropped ∧ Completes (.neighbourDiscoveryReceive i nd) s dropped ∧
      Completes (.icmpEchoReceive i ec) s dropped ∧ Completes (.lldpReceive i tlvs) s dropped ∧ Completes (.lldpSend i) s none_) ∧
    (∀ x, s.dev.iface i = some x →
      let mineA := decide (x.ipv4 ≠ 0) && decide (a.targetIp = x.ipv4)
      let peerA := s.dev.isPeer i (a.senderIp.zeroExtend 128)
      let mineN := decide (x.ipv6 ≠ 0) && !nd.isAdvert && decide (nd.target = x.ipv6)
      let from_ := if nd.isAdvert then nd.target else nd.src
      let own : BitVec 128 := if ec.v6 then x.ipv6 else x.ipv4.zeroExtend 128
      let mineE := decide (own ≠ 0) && decide (ec.dst = own) && decide (EchoBytes ec ≤ s.dev.fld F.ETH_CTL_MTU (ethPort i));
      (mineA = false → peerA = false → Completes (.arpReceive i a) s dropped) ∧
      (mineA = true ∨ peerA = true → Completes (.arpReceive i a) s fun d => regsBut [] s.dev d ∧
        (peerA = true → (i.val, a.senderIp.zeroExtend 128, a.senderMac) ∈ d.svc.peers) ∧
        (mineA = true → a.isReply = false → sends = true → Msg.eth i (.arp ⟨true, x.mac, x.ipv4, a.senderIp⟩) ∈ d.outbox)) ∧
      (mineN = false → s.dev.isPeer i from_ = false → Completes (.neighbourDiscoveryReceive i nd) s dropped) ∧
      (mineN = true ∨ s.dev.isPeer i from_ = true → Completes (.neighbourDiscoveryReceive i nd) s fun d => regsBut [] s.dev d ∧
        (s.dev.isPeer i from_ = true → (i.val, from_, nd.mac) ∈ d.svc.peers) ∧
        (mineN = true → sends = true → Msg.eth i (.nd ⟨true, x.ipv6, x.ipv6, x.mac⟩) ∈ d.outbox)) ∧
      (mineE = false → Completes (.icmpEchoReceive i ec) s dropped) ∧
      (mineE = true → Completes (.icmpEchoReceive i ec) s fun d => none_ d ∧
        (sends = true → Msg.eth i (.echoReply { ec with src := own, dst := ec.src }) ∈ d.outbox)) ∧
      Completes (.lldpReceive i tlvs) s (fun d => mapGet (fun _ => []) d.svc.lldp i = tlvs ∧ regsBut [] s.dev d) ∧
      Completes (.lldpSend i) s fun d => none_ d ∧
        (sends = true → Msg.eth i (.lldp (lldpTlv 1 ([4] ++ leBytes 6 x.mac.toNat) ++ lldpTlv 4 (s.dev.portDescription i))) ∈ d.outbox)) ∧
    (let may := s.dev.ifaceExists i && s.dev.bit F.ETH_CTL_ENABLE (ethPort i);
      (may = false → Completes (.ethLinkChange i up) s none_) ∧
      (may = true → Completes (.ethLinkChange i up) s fun d => s.dev.wrote d [.ETH_STATUS] ∧
        d.fld F.ETH_STATUS_UP (ethPort i) / 2 ^ ethIndex i % 2 = (if up then 1 else 0) ∧
        ∀ j, j < 4 → j ≠ ethIndex i →
          d.fld F.ETH_STATUS_UP (ethPort i) / 2 ^ j % 2 = s.dev.fld F.ETH_STATUS_UP (ethPort i) / 2 ^ j % 2)) ∧
    (let takes := s.dev.bit F.ETH_CTL_PFC_EN e && decide (prio.val = s.dev.fld F.ETH_CTL_PFC_PRIO e)
      let held := fun (b : Bool) => Instr.pfcFrameReceive e prio b;
      (takes = false → ∀ b, Completes (held b) s fun d => s.dev.counted d F.ETH_STATUS_DROPPED e 1 ∧ s.dev.wrote d [.ETH_STATUS]) ∧
      (takes = true → Completes (held true) s fun d => d.fld F.ETH_STATUS_PFC_RX e = 1 ∧ s.dev.wrote d [.ETH_STATUS]) ∧
      (takes = true → Completes (held false) s fun d => d.fld F.ETH_STATUS_PFC_RX e = 0 ∧ regsBut [.ETH_STATUS] s.dev d ∧
        ∀ h ∈ s.dev.svc.held, h.1 = e → ∀ x, (s.dev.qp h.2.1).ent = some x → ethPort x.iface = e → s.dev.svc.silenced = false →
          s.dev.ifaceSends x.iface = true → Msg.roce h.2.1 h.2.2 ∈ d.outbox))

/-- R519–R521, R524, R525 (13): what a queue pair does. A WRITE in PSN order enters the request region and is acknowledged, a READ is answered from
it, a packet ahead draws a sequence NAK; a malformed request or one outside the region moves the queue pair to ERROR. Acknowledgements
complete what they cover, a NAK or silence sends everything again until the retry count is reached. A CNP halves the rate, which recovers
step by step. A queue pair that is not READY takes nothing. -/
def Obligations.QueuePairsRun : Prop :=
  ∀ (s : State) (q : Fin 65536) (w : RdmaWrite) (rd : RdmaRead) (rsp : RdmaResp) (psn : BitVec 24) (kind : NakKind), s.dev.steady →
    let x := s.dev.qp q
    let none_ := fun (d : Dev) => s.dev.wrote d []
    let errored := fun (bit : Fld) (d : Dev) => (d.qp q).st = .error ∧ (d.qp q).sent = [] ∧ d.fld bit = 1 ∧
      ∀ j, j ≠ q.val → (d.qp j).st = (s.dev.qp j).st
    (x.st ≠ .ready → Completes (.rdmaReadRequestReceive q rd) s none_ ∧ Completes (.rdmaReadResponseReceive q rsp) s none_ ∧
      Completes (.roceAckReceive q psn) s none_ ∧ Completes (.roceNakReceive q psn kind) s none_ ∧
      Completes (.roceRetransmitTimeout q) s none_ ∧ Completes (.roceCnpReceive q) s none_ ∧ Completes (.roceRateRecover q) s none_ ∧
      (s.dev.svc.waitAt = [] → Completes (.rdmaWriteReceive q w) s none_)) ∧
    (∀ e, x.ent = some e → x.st = .ready →
      let sends := !s.dev.svc.silenced && s.dev.ifaceSends e.iface && !s.dev.paused e.iface
      let base := s.dev.qpRegion e
      let say := fun (m : RoceMsg) (d : Dev) => sends = true → Msg.roce q m ∈ d.outbox
      let resent := fun (d : Dev) => if e.retry ≤ x.retries then errored F.SVC_ERR_RETRY d else
        (d.qp q).retries = x.retries + 1 ∧ (d.qp q).st = .ready ∧ ∀ m ∈ x.sent, say m.msg d
      let va := if w.first then some w.va.toNat else x.rxVa.map Prod.fst
      let n := w.data.length
      let misplaced := (w.first && x.rxVa.isSome) || decide (e.mtu < n) || (!w.isLast && decide (n ≠ e.mtu))
      let outside := fun (v : Nat) => decide (e.role ≠ 1) || (w.first && decide (w.rkey.toNat ≠ e.localRkey)) ||
        decide (e.regionBytes < v + n)
      let order := psnOrder x.rqPsn w.psn.toNat
      let quiet := decide (s.dev.svc.silenced = false ∧ x.awaitFirst = false ∧ s.dev.svc.waitAt = []);
      (quiet = true → w.ce = false →
        (order = .ahead → Completes (.rdmaWriteReceive q w) s fun d => say (.nakSequence x.rqPsn) d ∧ d.svc.qps = s.dev.svc.qps) ∧
        (order = .again → Completes (.rdmaWriteReceive q w) s fun d => say (.ack (x.rqPsn + psnMod - 1)) d ∧ d.svc.qps = s.dev.svc.qps) ∧
        (order = .next → va = none ∨ misplaced = true → Completes (.rdmaWriteReceive q w) s (errored F.SVC_ERR_INVALID)) ∧
        (∀ v, order = .next → va = some v → misplaced = false → outside v = true → Completes (.rdmaWriteReceive q w) s
          (errored F.SVC_ERR_ACCESS)) ∧
        (∀ v, order = .next → va = some v → misplaced = false → outside v = false → 4096 ≤ v → s.dev.hbmBad = [] →
          base + v + n ≤ hbmSize → Completes (.rdmaWriteReceive q w) s fun d =>
            (d.qp q).rqPsn = (w.psn.toNat + 1) % psnMod ∧ (d.qp q).rxVa = (if w.isLast then none else some (v + n, 0)) ∧
            say (.ack w.psn.toNat) d ∧ (∀ j, j < n → memByte d.hbm (base + v + j) = w.data.getD j 0))) ∧
      (quiet = true → rd.ce = false → psnOrder x.rqPsn rd.psn.toNat = .next →
        let bad := decide (e.role ≠ 1 ∨ rd.rkey.toNat ≠ e.localRkey ∨ e.regionBytes < rd.va.toNat + rd.len.toNat);
        (bad = true → Completes (.rdmaReadRequestReceive q rd) s (errored F.SVC_ERR_ACCESS)) ∧
        (bad = false → Completes (.rdmaReadRequestReceive q rd) s fun d => d.hbm = s.dev.hbm ∧
          (d.qp q).rqPsn = (rd.psn.toNat + mtuPackets rd.len.toNat e.mtu) % psnMod ∧
          say (.readResp rd.psn.toNat (s.dev.readHbm (base + rd.va.toNat) rd.len.toNat).1) d)) ∧
      (∀ m, x.sent.find? SentMsg.isRead = some m → rsp.ce = false → (∀ y ∈ x.sent, y.export_ = none) →
        let ahead := x.sent.takeWhile fun y => !y.isRead
        let mine := decide ((m.psn + m.got.length / e.mtu) % psnMod = rsp.psn.toNat);
        (mine = false → Completes (.rdmaReadResponseReceive q rsp) s none_) ∧
        (mine = true → rsp.isLast = false → Completes (.rdmaReadResponseReceive q rsp) s fun d =>
          (d.qp q).sent = (x.sent.drop ahead.length).map fun y => if y.psn = m.psn then { y with got := m.got ++ rsp.data } else y) ∧
        (mine = true → rsp.isLast = true → m.pull = none → Completes (.rdmaReadResponseReceive q rsp) s fun d =>
          (d.qp q).sent = x.sent.drop (ahead.length + 1) ∧ (d.qp q).retries = 0)) ∧
      ((∀ y ∈ x.sent, y.export_ = none) → Completes (.roceAckReceive q psn) s fun d =>
        (d.qp q).sent = x.sent.drop (ackedBy psn.toNat x.sent).length ∧ regsBut [] s.dev d) ∧
      (kind = .invalid → Completes (.roceNakReceive q psn kind) s (errored F.SVC_ERR_INVALID)) ∧
      (kind = .access → Completes (.roceNakReceive q psn kind) s (errored F.SVC_ERR_ACCESS)) ∧
      (kind = .sequence → ackedBy ((psn.toNat + psnMod - 1) % psnMod) x.sent = [] → Completes (.roceNakReceive q psn kind) s resent) ∧
      (let due := decide (x.sent ≠ [] ∧ x.progressAt + 4096 * 2 ^ e.timeout ≤ s.dev.now);
        (due = true → Completes (.roceRetransmitTimeout q) s resent) ∧ (due = false → Completes (.roceRetransmitTimeout q) s none_)) ∧
      Completes (.roceCnpReceive q) s (fun d => (d.qp q).rate = max (x.rate / 2) (fullRate * s.dev.fld F.ETH_CC_RMIN / 256) ∧
        (d.qp q).rateAt = s.dev.now ∧ regsBut [] s.dev d) ∧
      (let due := decide (x.rate < fullRate) && s.dev.expired x.rateAt (s.dev.fld F.ETH_CC_RECOVER_T);
        (due = true → Completes (.roceRateRecover q) s fun d =>
          (d.qp q).rate = min fullRate (x.rate + fullRate * s.dev.fld F.ETH_CC_ADD / 256) ∧ (d.qp q).rateAt = s.dev.now ∧
          regsBut [] s.dev d) ∧
        (due = false → Completes (.roceRateRecover q) s none_)))

/-- R496, R523, R524, R538, R541–R545, R550 (13): a service command counts in SEQ and leaves its status in RESULT. QP_CREATE makes a queue pair READY,
QP_DESTROY returns it to RESET; JOB_START, JOB_STOP, ADAPTER_GEN and BASE_SWITCH that pass their checks wait for a commit point; EXPORT
takes an item. One that comes while BUSY is set is refused. A logged list that does not come in time is a timeout of its slice. -/
def Obligations.ServiceCommandsRun : Prop :=
  ∀ (s : State) (r : Req) (i : Fin 256), s.dev.steady →
    (s.dev.fresh r →
      let arg := s.dev.svcArg 0
      let q := arg % 65536
      let tbl := s.dev.qpTable
      let e := qpEnt (memRead s.dev.hbm (tbl.1 + 96 * q) 96)
      let made := if tbl.2 ≤ 96 * q ∨ (s.dev.qp q).st ≠ .reset then 0x12 else s.dev.qpCheck q e
      let b := memRead s.dev.hbm (s.dev.svcRegion.1 + 4096 * (arg % 4294967296)) 2112
      let handle := arg % 4294967296
      let gen := arg / 4294967296 % 65536
      let area := (s.dev.qp q).ent
      let xgen := arg / 281474976710656 % 65536
      let buf := (s.dev.adapter (arg / 65536 % 4294967296)).bind fun a =>
        if a.buf0.gen = xgen then some a.buf0 else if a.buf1.gen = xgen then some a.buf1 else none
      let ended := fun (n : Nat) (d : Dev) => s.dev.answered d r answerOk ∧ s.dev.counted d F.SVC_CMD_STATUS_SEQ 0 1 ∧
        d.fld F.SVC_CMD_STATUS_RESULT = n % 256
      let waits := fun (k : Nat) (c : SvcCmd) (d : Dev) => ended 0 d ∧ d.svc.atCommit = s.dev.svc.atCommit ++ [(k, c)]
      let no := fun (n : Nat) (d : Dev) => ended n d ∧ d.svc = s.dev.svc ∧ d.commit = s.dev.commit;
      (s.dev.bit F.SVC_CMD_STATUS_BUSY = true → ∀ c ∈ [Instr.qpCreate r, .qpDestroy r, .jobStart r, .jobStop r, .exportAdapter r,
        .adapterGen r, .baseSwitch r], Completes c s fun d => s.dev.answered d r (addressError 5) ∧ d.svc = s.dev.svc) ∧
      (s.dev.bit F.SVC_CMD_STATUS_BUSY = false →
        (made = 0 → Completes (.qpCreate r) s fun d => ended 0 d ∧ (d.qp q).ent = some e ∧ (d.qp q).st = .ready ∧
          (d.qp q).sqPsn = e.sqPsn ∧ (d.qp q).rqPsn = e.rqPsn ∧ ∀ j, j ≠ q → d.qp j = s.dev.qp j) ∧
        (made ≠ 0 → Completes (.qpCreate r) s (no made)) ∧
        ((s.dev.qp q).st = .reset → Completes (.qpDestroy r) s (no 0x12)) ∧
        ((s.dev.qp q).st ≠ .reset → Completes (.qpDestroy r) s fun d => ended 0 d ∧ (d.qp q).st = .reset ∧ (d.qp q).sent = [] ∧
          ∀ j, j ≠ q → d.qp j = s.dev.qp j) ∧
        (s.dev.jobCheck b (jobOf b) = 0 → Completes (.jobStart r) s
          (waits ((s.dev.sliceOf (jobOf b).pkey).getD 0) (.jobStart (jobOf b)))) ∧
        (s.dev.jobCheck b (jobOf b) ≠ 0 → Completes (.jobStart r) s (no (s.dev.jobCheck b (jobOf b)))) ∧
        (∀ j, (s.dev.svc.jobs.find? fun j => j.handle = handle) = some j → Completes (.jobStop r) s
          (waits ((s.dev.sliceOf j.pkey).getD 0) (.jobStop handle))) ∧
        ((s.dev.svc.jobs.find? fun j => j.handle = handle) = none → Completes (.jobStop r) s (no 0x10)) ∧
        (area = none → Completes (.exportAdapter r) s (no 0x10)) ∧
        (∀ x, area = some x → buf = none → Completes (.exportAdapter r) s (no 0x30)) ∧
        (∀ x y, area = some x → buf = some y →
          let fits := decide (x.role = 3 ∧ (s.dev.qp q).st = .ready ∧ s.dev.svcArg 1 + y.bytes ≤ x.ringEntries * 1048576)
          let takes := (s.dev.sliceOf x.pkey).any fun k => s.dev.takesItems k && !(s.dev.slice k).frozen;
          (fits = false → Completes (.exportAdapter r) s (no 0x10)) ∧
          (fits = true → takes = false → Completes (.exportAdapter r) s (no (s.dev.turnedAway x.pkey))) ∧
          (fits = true → takes = true → y.bytes ≠ 0 → Completes (.exportAdapter r) s fun d => ended 0 d ∧
            ∃ h, d.svc.exports = s.dev.svc.exports ++ [⟨h, q, y.bytes, 0, x.pkey⟩] ∧
              d.commit.items = s.dev.commit.items ++ [⟨h, 4, x.pkey, none, 0, 0, 0, 0, none⟩])) ∧
        (s.dev.adapter handle = none → Completes (.adapterGen r) s (no 0x30)) ∧
        (∀ a, s.dev.adapter handle = some a →
          (s.dev.ownSlice = none → Completes (.adapterGen r) s (no 0x60)) ∧
          (∀ k, s.dev.ownSlice = some k → (otherBuf a).gen ≠ gen → Completes (.adapterGen r) s (no 0x30)) ∧
          (∀ k, s.dev.ownSlice = some k → (otherBuf a).gen = gen → Completes (.adapterGen r) s (waits k (.adapterGen handle gen)))) ∧
        (s.dev.ownSlice = none → Completes (.baseSwitch r) s (no 0x60)) ∧
        (∀ k, s.dev.ownSlice = some k →
          let fits := s.dev.armedLoaded (s.dev.slice k).pkey q && s.dev.readerHolds q && !(s.dev.baseGen k).draining;
          (fits = false → Completes (.baseSwitch r) s (no 0x12)) ∧
          (fits = true → s.dev.takesItems k = false → Completes (.baseSwitch r) s (no 0x60)) ∧
          (fits = true → s.dev.takesItems k = true → Completes (.baseSwitch r) s (waits k (.baseSwitch q)))))) ∧
    (let wait := mapGet (fun _ => 0) s.dev.svc.waitAt i
      let due := decide (wait ≠ 0) && s.dev.expired (wait - 1) (s.dev.fld F.SYNC_CFG_WAIT_WD);
      (due = true → (s.dev.slice i).desc.isSome = true → Completes (.admissionLogTimeout i) s fun d => TimedOut s.dev d i ∧
        mapGet (fun _ => 0) d.svc.waitAt i = 0 ∧ (s.dev.bit F.SYNC_CFG_WD_SAFE = true → d.mode = stSafe)) ∧
      (due = false → Completes (.admissionLogTimeout i) s fun d => s.dev.wrote d []))

/-- R555, R556, R562, R563, R573, R595, R620, R622 (14, 15, 16): what the requests of the chain do. A packet that breaks its row of R556 is
counted and draws no response. MEM_RD answers the bytes as they may leave the module, MEM_WR writes them; one outside HBM, of a locked
region or of a COMMITTED region with a live binding is refused, and a write of an HBM in self-refresh is answered BUSY and wakes it.
INSTALL takes the next 1,024 bytes of a stream, and writes a parity group once it is whole. HOST_DMA takes an item, up to eight. -/
def Obligations.ChainRequestsRun : Prop :=
  ∀ (s : State) (r : Req) (a n : Nat) (bs : List Byte) (w : BitVec 64) (item : BitVec 32) (key : BitVec 12) (timed toHost : Bool)
    (host : Nat) (dst : BitVec 8) (b : Bool), s.dev.steady → s.dev.Settled →
    let malformed := fun (d : Dev) => d.fld F.CHAIN_ERR_MALFORMED = 1 ∧ s.dev.tallied d F.CHAIN_ERR_FAULTS 0 ∧ s.dev.wrote d []
    let answersIt := fun (x : Answer) (d : Dev) => s.dev.answered d r x ∧ s.dev.wrote d [.CHAIN_CNT]
    let asleep := decide (3 ≤ s.dev.fld F.PWR_STATUS_STATE)
    let dma := Instr.hostDma r timed item key toHost a host n
    let x : DmaItem := ⟨item, key, toHost, a, host, n, 0, 0⟩
    let part := min 1024 n;
    Completes (.chainPacketDiscard b) s (fun d => d.fld (if b then F.CHAIN_ERR_CRC else F.CHAIN_ERR_MALFORMED) = 1 ∧
      s.dev.tallied d F.CHAIN_ERR_FAULTS 0 ∧ s.dev.wrote d []) ∧
    (let own := s.dev.bit F.CHAIN_ADDR_VALID && decide (dst.toNat = s.dev.fld F.CHAIN_ADDR_ADDR)
      let out := if b then s.dev.fld F.CHAIN_STATUS_IN_STATE else s.dev.fld F.CHAIN_STATUS_OUT_STATE
      let on := !own && decide (out = 2);
      (on = true → Completes (.chainPacketForward b dst bs) s fun d => Msg.chainForward b dst bs ∈ d.outbox ∧ s.dev.wrote d []) ∧
      (on = false → Completes (.chainPacketForward b dst bs) s fun d => d.outbox = s.dev.outbox ∧ s.dev.wrote d [])) ∧
    (r.bcast = true ∨ n = 0 ∨ 1024 < n → Completes (.memRd r a n) s malformed) ∧
    (r.bcast = true ∨ bs.length = 0 ∨ 1024 < bs.length → Completes (.memWr r a bs) s malformed) ∧
    (r.bcast = true ∨ bs.length ≠ 1024 → Completes (.install r w bs) s malformed) ∧
    (bitsOf w 63 32 ≠ 0 → Completes (.ltol r w) s malformed) ∧ (r.bcast = true → Completes dma s malformed) ∧
    (r.bcast = false → 1 ≤ n → n ≤ 1024 →
      (hbmSize < a + n → Completes (.memRd r a n) s (answersIt (addressError 7))) ∧
      (a + n ≤ hbmSize → s.dev.weightLocked a n = true → Completes (.memRd r a n) s fun d => s.dev.answered d r (addressError 5) ∧
        d.fld F.SEC_ERR_WEIGHT_READ = 1 ∧ s.dev.wrote d [.CHAIN_CNT, .SEC_ERR]) ∧
      (a + n ≤ hbmSize → s.dev.weightLocked a n = false → Completes (.memRd r a n) s (answersIt (answerData (s.dev.readOut a n))))) ∧
    (s.dev.fresh r → r.bcast = false → 1 ≤ bs.length → bs.length ≤ 1024 →
      (asleep = true → Completes (.memWr r a bs) s fun d => s.dev.answered d r answerBusy ∧ d.hbm = s.dev.hbm ∧
        d.fld F.PWR_STATUS_STATE = 0) ∧
      (asleep = false → hbmSize < a + bs.length → Completes (.memWr r a bs) s (answersIt (addressError 7))) ∧
      (asleep = false → a + bs.length ≤ hbmSize → s.dev.committedLive a bs.length = true →
        Completes (.memWr r a bs) s (answersIt (addressError 5))) ∧
      (asleep = false → a + bs.length ≤ hbmSize → s.dev.committedLive a bs.length = false → s.dev.hbmBad = [] →
        Completes (.memWr r a bs) s fun d => s.dev.answered d r answerOk ∧ regsBut [.CHAIN_CNT] s.dev d ∧
          (∀ j, j < bs.length → memByte d.hbm (a + j) = bs.getD j 0) ∧
          (∀ j, j < a ∨ a + bs.length ≤ j → memByte d.hbm j = memByte s.dev.hbm j) ∧ d.spm = s.dev.spm)) ∧
    (s.dev.fresh r → r.bcast = false → bs.length = 1024 →
      let slotB := bitOf w 63
      let manifest := bitOf w 62
      let off := bitsOf w 61 0
      let named := if slotB then s.dev.secure.installB else s.dev.secure.installA
      let k := streamIx slotB manifest
      let next := mapGet (fun _ => 0) s.dev.vault.nextUnit k
      let got := mapGet (fun _ => []) s.dev.vault.staged k ++ bs
      let g := s.dev.fld F.VAULT_SLOT_BASE (if slotB then 1 else 0) + ((next + 1024) / groupBytes - 1)
      let block := fun (i : Nat) => padTo vaultBlockBytes (got.drop (vaultBlockBytes * i))
      let opened := s.dev.bit F.VAULT_CTL_INSTALL;
      (opened = false → Completes (.install r w bs) s fun d => s.dev.answered d r (addressError 5) ∧
        d.fld F.VAULT_ERR_WRITE_REFUSED = 1 ∧ s.dev.wrote d [.CHAIN_CNT, .VAULT_ERR]) ∧
      (opened = true → named = none → Completes (.install r w bs) s (answersIt (addressError 5))) ∧
      (opened = true → named.isSome = true → off % 1024 = 0 → off < next → Completes (.install r w bs) s (answersIt answerOk)) ∧
      (opened = true → named.isSome = true → ¬ (off % 1024 = 0 ∧ off < next) → off ≠ next →
        Completes (.install r w bs) s (answersIt (addressError 5))) ∧
      (opened = true → named.isSome = true → off = next → Completes (.install r w bs) s fun d => s.dev.answered d r answerOk ∧
        mapGet (fun _ => 0) d.vault.nextUnit k = next + 1024 ∧ regsBut [.CHAIN_CNT, .VAULT_WEAR] s.dev d ∧ d.hbm = s.dev.hbm ∧
        (manifest = true ∨ got.length < groupBytes → mapGet (fun _ => []) d.vault.staged k = got ∧
          ∀ j, (d.vblock j).data = (s.dev.vblock j).data) ∧
        (manifest = false → groupBytes ≤ got.length → g < 4194304 → mapGet (fun _ => []) d.vault.staged k = [] ∧
          (∀ i, i < 8 → (d.vblock (8 * g + i)).data = block i) ∧
          (d.vblock (parityBlock g)).data = ((List.range 8).map block).foldl xorBytes (List.replicate vaultBlockBytes 0) ∧
          ∀ j, groupOf j ≠ g → j ≠ parityBlock g → (d.vblock j).data = (s.dev.vblock j).data))) ∧
    (s.dev.fresh r → r.bcast = false →
      (timed = true → Completes dma s (answersIt (addressError 5))) ∧
      (timed = false → 8 ≤ s.dev.chain.dma.length ∨ 960 ≤ s.dev.chain.events.length → Completes dma s fun d =>
        s.dev.answered d r answerBusy ∧ d.commit = s.dev.commit ∧ d.chain.dma = s.dev.chain.dma) ∧
      (timed = false → s.dev.chain.dma = [] → s.dev.chain.events.length < 960 → n = 0 ∨ s.dev.dmaBad x = true → Completes dma s fun d =>
        s.dev.answered d r answerOk ∧ d.chain.dma = []) ∧
      (timed = false → s.dev.chain.dma = [] → s.dev.chain.events.length < 960 → 0 < n → s.dev.dmaBad x = false → Completes dma s fun d =>
        s.dev.answered d r answerOk ∧ d.commit.items = s.dev.commit.items ++ [⟨item.toNat, 3, key, none, 0, 0, 0, 0, none⟩] ∧
        (∃ y, d.chain.dma = [y] ∧ y.item = item ∧ y.toHost = toHost ∧ y.len = n ∧ y.moved = 0) ∧ sameMemory s.dev d ∧
        (s.dev.chained = true → s.dev.chain.out.length < 64 → ∃ t, Msg.chainRequest t
          (if toHost then .memWr host a part else .memRd host a part) (if toHost then s.dev.readOut a part else []) ∈ d.outbox)))

/-- R553, R558, R560, R561, R563–R566 (14): the module's own requests, its address and its links. An event is held until its acknowledgement or the
response to it; a response moves the DMA item on, one with another STATUS than OK ends it; a request without a response is sent again with
its tag until RETRY_MAX. ENUMERATE gives the address and passes on; the last module answers. RELAY sends a request to another module, which
runs it as received there, and whose response is the answer. A port of the chain goes UP and dies as its link does. -/
def Obligations.ChainResponsesReturn : Prop :=
  ∀ (s : State) (r : Req) (tag : BitVec 10) (status reason : BitVec 8) (data : List Byte) (seq : BitVec 32) (next : Nat) (out : Bool)
    (c : Coord) (inner : InnerReq), s.dev.steady → s.dev.Settled →
    let none_ := fun (d : Dev) => s.dev.wrote d [] ∧ d.chain = s.dev.chain
    let malformed := fun (d : Dev) => d.fld F.CHAIN_ERR_MALFORMED = 1 ∧ s.dev.tallied d F.CHAIN_ERR_FAULTS 0 ∧ s.dev.wrote d []
    let held := fun (q : BitVec 32) (d : Dev) => d.chain.events = s.dev.chain.events.filter fun e => e.seq ≠ q
    let back := s.dev.enumBack tag data
    let n := (data.getD 1 0).toNat
    let max_ := s.dev.fld F.CHAIN_CFG_RETRY_MAX
    let port := if out then F.CHAIN_STATUS_OUT_STATE else F.CHAIN_STATUS_IN_STATE;
    (s.dev.chain.dma = [] →
      ((∀ e ∈ s.dev.chain.events, e.seq ≠ seq) → Completes (.eventAck seq) s none_) ∧
      ((∃ e ∈ s.dev.chain.events, e.seq = seq) → s.dev.chain.events.length < 1024 → Completes (.eventAck seq) s fun d => held seq d ∧
        d.fld F.EVT_STATUS_HELD = s.dev.chain.events.length - 1 ∧ (∀ o ∈ d.chain.out, o.body ≠ .event seq) ∧ s.dev.wrote d [])) ∧
    (back = true → Completes (.chainResponseReceive tag status data) s fun d => d.fld F.CHAIN_ADDR_LENGTH = n % 2 ^ (F.CHAIN_ADDR_LENGTH.hi - F.CHAIN_ADDR_LENGTH.lo + 1) ∧
      d.chain.enumTag = none ∧ Msg.resp (enumReq tag) 0 (BitVec.ofNat 8 n) data ∈ d.outbox ∧ s.dev.wrote d [.CHAIN_ADDR]) ∧
    (back = false → s.dev.chain.out.find? (fun o => o.tag = tag) = none → Completes (.chainResponseReceive tag status data) s none_) ∧
    (∀ o, back = false → s.dev.chain.out.find? (fun o => o.tag = tag) = some o →
      (∀ q, o.body = .event q → s.dev.chain.dma = [] → Completes (.chainResponseReceive tag status data) s fun d => held q d ∧
        s.dev.wrote d []) ∧
      (∀ x xs, s.dev.chain.dma = x :: xs →
        let moved := fun (k : Nat) (d : Dev) => ∃ y ys, d.chain.dma = y :: ys ∧ y.item = x.item ∧ y.moved = x.moved + k;
        (∀ h a k, o.body = .memRd h a k → status = 0 → data.length = k → x.moved + k < x.len → x.asked ≠ 0 → s.dev.hbmBad = [] →
          a + k ≤ hbmSize → Completes (.chainResponseReceive tag status data) s fun d => moved k d ∧
            (∀ j, j < k → memByte d.hbm (a + j) = data.getD j 0) ∧
            ∀ j, j < a ∨ a + k ≤ j → memByte d.hbm j = memByte s.dev.hbm j) ∧
        (∀ h a k, o.body = .memWr h a k → status = 0 → x.moved + k < x.len → x.asked ≠ 0 →
          Completes (.chainResponseReceive tag status data) s fun d => moved k d ∧ d.hbm = s.dev.hbm) ∧
        (∀ h a k, o.body = .memRd h a k ∨ o.body = .memWr h a k → status ≠ 0 →
          Completes (.chainResponseReceive tag status data) s fun d => ∀ y ∈ d.chain.dma, y.item ≠ x.item))) ∧
    (s.dev.chain.out.find? (fun o => o.tag = tag) = none → Completes (.chainRetryTimeout tag) s none_) ∧
    (∀ o, s.dev.chain.out.find? (fun o => o.tag = tag) = some o →
      let late := s.dev.expired o.sentAt (s.dev.fld F.CHAIN_CFG_RETRY_TO);
      (late = false → Completes (.chainRetryTimeout tag) s none_) ∧
      (late = true → o.resends < max_ → Completes (.chainRetryTimeout tag) s fun d => s.dev.counted d F.CHAIN_CNT_RESENDS 0 1 ∧
        s.dev.wrote d [.CHAIN_CNT] ∧ d.chain.out.find? (fun o => o.tag = tag) = some { o with sentAt := s.dev.now, resends := o.resends + 1 } ∧
        (∀ h a k, o.body = .memRd h a k → s.dev.chained = true → Msg.chainRequest tag o.body [] ∈ d.outbox) ∧
        (∀ q e, o.body = .event q → s.dev.chain.events.find? (fun e => e.seq = q) = some e → s.dev.chained = true →
          Msg.event tag e.kind e.seq e.gcnt e.body ∈ d.outbox)) ∧
      (late = true → max_ ≤ o.resends → Completes (.chainRetryTimeout tag) s fun d => d.fld F.CHAIN_ERR_RETRY_EXHAUSTED = 1 ∧
        (∀ q, o.body = .event q → s.dev.chain.dma = [] → d.chain.events = s.dev.chain.events) ∧
        (∀ x xs, s.dev.chain.dma = x :: xs → (∀ q, o.body ≠ .event q) → ∀ y ∈ d.chain.dma, y.item ≠ x.item))) ∧
    (next = 0 ∨ 24 < next → Completes (.enumerate next tag) s malformed) ∧
    (1 ≤ next → next ≤ 24 →
      let outUp := decide (s.dev.fld F.CHAIN_STATUS_OUT_STATE = 2);
      Completes (.enumerate next tag) s (fun d => d.fld F.CHAIN_ADDR_VALID = 1 ∧ d.fld F.CHAIN_ADDR_ADDR = next ∧ d.chain.cache = [] ∧
        d.fld F.CHAIN_STATUS_BEYOND = (if outUp && decide (next = 24) then 1 else 0) ∧
        (outUp = true → next < 24 → d.chain.enumTag = some tag ∧ Msg.enumerate (next + 1) tag ∈ d.outbox) ∧
        (outUp = false ∨ next = 24 → d.chain.enumTag = none ∧ d.fld F.CHAIN_ADDR_LENGTH = next ∧
          Msg.resp (enumReq tag) 0 (BitVec.ofNat 8 next) (enumBytes next next) ∈ d.outbox) ∧
        (s.dev.chain.dma = [] → s.dev.wrote d [.CHAIN_ADDR, .CHAIN_STATUS]))) ∧
    (r.bcast = true → Completes (.relay r c inner) s malformed) ∧
    (s.dev.fresh r → r.bcast = false → (∀ x ∈ s.dev.chain.relays, ¬ (x.req.path = r.path ∧ x.req.src = r.src ∧ x.req.tag = r.tag)) →
      let full := decide (64 ≤ (s.dev.chain.relays.filter fun x => x.target = c).length);
      (full = true → Completes (.relay r c inner) s fun d => s.dev.answered d r answerBusy ∧ s.dev.wrote d [.CHAIN_CNT]) ∧
      (full = false → Completes (.relay r c inner) s fun d => Msg.mgmt c (.relayed s.dev.relayTag inner) ∈ d.outbox ∧
        d.chain.relays = s.dev.chain.relays ++ [⟨r, c, s.dev.relayTag, some (innerType inner)⟩] ∧ s.dev.counted d F.CHAIN_CNT_RX 0 1 ∧
        s.dev.wrote d [.CHAIN_CNT])) ∧
    (s.dev.chain.relays.find? (fun x => x.target = c && x.tag = tag) = none →
      Completes (.relayResponseReceive c tag status reason data) s none_) ∧
    (∀ x, s.dev.chain.relays.find? (fun x => x.target = c && x.tag = tag) = some x →
      let full := responsePacket (x.typ.getD 0) x.req.tag status reason data
      let a : Answer := if x.typ.isSome then answerData full else ⟨status, reason, data⟩;
      Completes (.relayResponseReceive c tag status reason data) s fun d => Msg.resp x.req a.status a.reason a.data ∈ d.outbox ∧
        d.cached x.req = some ⟨x.req.path, x.req.src, x.req.tag, a.status, a.reason, a.data⟩ ∧
        (∀ y ∈ d.chain.relays, ¬ (y.target = c ∧ y.tag = tag)) ∧ s.dev.wrote d []) ∧
    (∀ adr, inner = .regRd adr → Completes (.relayedRequestReceive c tag inner) s fun d =>
      s.dev.answered d (relayedReq c tag) (readReg .mgmt adr s.dev).1 ∧ sameMemory s.dev d) ∧
    (∀ i, relayedAs (relayedReq c tag) inner = some i → Completes (.relayedRequestReceive c tag inner) s fun d =>
      exec i s = .next ⟨s.pending, d⟩) ∧
    (s.dev.fld port = 0 ∨ s.dev.fld port = 3 → Completes (.chainLinkDeath out) s none_) ∧
    (s.dev.fld port ≠ 0 → s.dev.fld port ≠ 3 → Completes (.chainLinkDeath out) s fun d => d.fld port = 3 ∧
      d.fld (if out then F.CHAIN_ERR_OUT_DEAD else F.CHAIN_ERR_IN_DEAD) = 1 ∧ s.dev.wrote d [.CHAIN_STATUS]) ∧
    (s.dev.fld port = 2 ∨ s.dev.mode = stOff → Completes (.chainLinkUp out) s none_) ∧
    (s.dev.fld port ≠ 2 → s.dev.mode ≠ stOff → s.dev.chain.dma = [] → Completes (.chainLinkUp out) s fun d => d.fld port = 2 ∧
      s.dev.wrote d [.CHAIN_STATUS] ∧
      ∀ e es, out = false → s.dev.bit F.CHAIN_ADDR_VALID = true → s.dev.chain.events = e :: es → s.dev.chain.out = [] → 0 < e.seq →
        ∃ t, Msg.event t e.kind e.seq e.gcnt e.body ∈ d.outbox)

/-- R41, R336, R341, R424, R426, R427, R455, R560, R569–R571, R582, R584, R585, R622, R648 (08, 10, 14): what the commands of CMD do. SNAPSHOT arms the
snapshot, LAUNCH sets the launch count and arms a context, FREEZE closes or reopens admission, DRAIN also stops the slice, RESET restarts
the module, and each is refused as its rule answersIt; FREEZE, DRAIN and RESET wait for GCNT_AT. SLICE_ALLOC and SLICE_REMOVE are decided by the
coordinator. PLAN_RETRY, LOAD_RETRY and WEIGHT_LOAD run their step of start-up again. TIMED on a kind with no timed form is refused. -/
def Obligations.ChainCommandsRun : Prop :=
  ∀ (s : State) (r : Req) (at_ : Option (BitVec 64)) (k : Fin 4) (key : BitVec 12) (thaw cold force timed : Bool) (sd : SliceDesc),
    s.dev.steady → s.dev.Settled → s.dev.fresh r →
    let answersIt := fun (x : Answer) (d : Dev) => s.dev.answered d r x ∧ s.dev.wrote d [.CHAIN_CNT]
    let atOnce := decide ((at_.map BitVec.toNat).getD 0 ≤ s.dev.now)
    let waits := fun (c : Cmd) (d : Dev) => s.dev.answered d r answerOk ∧ d.slices = s.dev.slices ∧ d.mode = s.dev.mode ∧
      ∃ g, at_ = some g ∧ d.chain.timed = s.dev.chain.timed ++ [⟨g.toNat, c⟩]
    let froze := fun (key : BitVec 12) (thaw : Bool) (d : Dev) => (∀ i ∈ s.dev.namedSlices key, (d.slice i).frozen = !thaw ∧
        (thaw = true → (d.slice i).draining = false)) ∧
      (∀ i, i ∉ s.dev.namedSlices key → d.slice i = s.dev.slice i) ∧ sameMemory s.dev d
    let drained := fun (key : BitVec 12) (d : Dev) => (∀ i ∈ s.dev.namedSlices key, (d.slice i).frozen = true ∧
        (d.slice i).draining = !(s.dev.activeRings (s.dev.slice i).pkey).isEmpty) ∧
      (∀ i, i ∉ s.dev.namedSlices key → d.slice i = s.dev.slice i) ∧ sameMemory s.dev d
    let restarted := fun (cold : Bool) (d : Dev) => d.mode = stBoot ∧ d.fld F.BOARD_STATUS_CAUSE = (if cold then 3 else 2) ∧
      d.start.warm = !cold ∧ d.start.started = false ∧ d.cores = [] ∧ d.rings = [] ∧ d.slices = [] ∧ d.spm = [] ∧
      s.dev.outbox <+: d.outbox ∧ (s.dev.hasBinding = false → ∀ a, memByte d.hbm a = memByte s.dev.hbm a)
    let relayed := fun (c : Cmd) (d : Dev) => Msg.mgmt s.dev.coordinator (.relayed s.dev.relayTag (.cmd c)) ∈ d.outbox ∧
      d.chain.relays = s.dev.chain.relays ++ [⟨r, s.dev.coordinator, s.dev.relayTag, none⟩]
    let alone := (∀ x ∈ s.dev.chain.relays, ¬ (x.req.path = r.path ∧ x.req.src = r.src ∧ x.req.tag = r.tag)) ∧
      (s.dev.chain.relays.filter fun x => x.target = s.dev.coordinator).length < 64
    let verdict := fun (c : MapChange) (i : Instr) =>
      (s.dev.changeStatus c ≠ 0 → Completes i s fun d => s.dev.answered d r (answerWith (s.dev.changeStatus c)) ∧
        d.fld F.ROUTE_ERR_ALLOC = 1 ∧ d.slices = s.dev.slices) ∧
      (s.dev.changeStatus c = 0 → Completes i s fun d => s.dev.answered d r (answerWith 0) ∧ d.slices = s.dev.slices ∧
        ∀ x ∈ s.dev.liveIn' s.dev.route.fmap, ∃ c', Msg.mgmt x (.sliceChange (s.dev.now + 50000) c') ∈ d.outbox)
    let alloc := Instr.sliceAlloc r timed sd
    let remove := Instr.sliceRemove r timed key;
    (let free := !s.dev.bit F.SNAP_STATUS_ARMED && !s.dev.bit F.SNAP_STATUS_PENDING
      let late := decide ((at_.map BitVec.toNat).getD s.dev.now < s.dev.now);
      (free = false → Completes (.snapshot r at_) s (answersIt (addressError 5))) ∧
      (free = true → at_ = none ∨ late = true → Completes (.snapshot r at_) s fun d => s.dev.answered d r answerOk ∧
        d.snapInfo = ⟨s.dev.now, late, !s.dev.bit F.GCNT_STATUS_LOCKED, s.dev.liveKeys⟩ ∧ latchedAs s.dev d.snapPend ∧
        d.fld F.SNAP_STATUS_ARMED = 0) ∧
      (∀ g, free = true → at_ = some g → late = false → Completes (.snapshot r at_) s fun d => s.dev.answered d r answerOk ∧
        d.fld F.SNAP_AT_GCNT = g.toNat ∧ d.fld F.SNAP_STATUS_ARMED = 1 ∧ s.dev.wrote d [.SNAP_AT, .SNAP_STATUS, .CHAIN_CNT])) ∧
    (let st := s.dev.fld F.RING_STATUS_STATE k
      let g := (at_.map BitVec.toNat).getD s.dev.now
      let w := BitVec.ofNat 64 (putBits (s.dev.reg .RING_CTL k) F.RING_CTL_ARM.hi F.RING_CTL_ARM.lo 1)
      let legal := s.dev.fld F.RING_CTL_LEN k ≤ 16 ∧ s.dev.fld F.RING_CTL_MODE k ≠ 3
      let set := applyAll (ringCtlFields.map fun f => setF f k (bitsOf w f.hi f.lo)) s.dev;
      (st = 1 ∨ st = 2 → Completes (.launch r at_ k) s fun d => s.dev.answered d r (addressError 5) ∧ d.rings = s.dev.rings ∧
        regsBut [.CHAIN_CNT, .PWR_STATUS] s.dev d) ∧
      (st ≠ 1 → st ≠ 2 → legal → (∀ o, o < 4 → s.dev.fld F.RING_STATUS_STATE o ≠ 1) → set.bindStatus k = none → s.dev.now ≤ g →
        Completes (.launch r at_ k) s fun d => s.dev.answered d r answerOk ∧ d.fld F.RING_STATUS_STATE k = 1 ∧
          d.fld F.RING_CTL_ARM k = 1 ∧ d.fld F.RING_LAUNCH_GCNT k = g ∧ (d.ring k).bankLoaded = false)) ∧
    (atOnce = true → Completes (.freeze r at_ key thaw) s fun d => s.dev.answered d r answerOk ∧ froze key thaw d ∧
      regsBut [.CHAIN_CNT] s.dev d) ∧
    (atOnce = false → Completes (.freeze r at_ key thaw) s (waits (.freeze none key thaw))) ∧
    (atOnce = true → Completes (.drain r at_ key) s fun d => s.dev.answered d r answerOk ∧ drained key d ∧ regsBut [.CHAIN_CNT] s.dev d) ∧
    (atOnce = false → Completes (.drain r at_ key) s (waits (.drain none key))) ∧
    (let may := !s.dev.hasBinding || force
      let i := Instr.reset r at_ cold force;
      (may = false → Completes i s fun d => s.dev.answered d r (answerWith 0x60) ∧ d.mode = s.dev.mode ∧ d.rings = s.dev.rings ∧
        sameMemory s.dev d) ∧
      (may = true → atOnce = true → Completes i s fun d => restarted cold d ∧ Msg.resp r 0 0 [] ∈ d.outbox ∧
        d.cached r = some ⟨r.path, r.src, r.tag, 0, 0, []⟩) ∧
      (may = true → atOnce = false → Completes i s (waits (.reset none cold force)))) ∧
    (r.bcast = true → ∀ i ∈ [alloc, remove, .planRetry r timed, .loadRetry r timed, .weightLoad r timed k], Completes i s fun d =>
      d.fld F.CHAIN_ERR_MALFORMED = 1 ∧ s.dev.tallied d F.CHAIN_ERR_FAULTS 0 ∧ s.dev.wrote d []) ∧
    (r.bcast = false → timed = true → ∀ i ∈ [alloc, remove, .planRetry r timed, .loadRetry r timed, .weightLoad r timed k],
      Completes i s (answersIt (addressError 5))) ∧
    (r.bcast = false → timed = false →
      (s.dev.isCoord = true → verdict (.alloc sd false) alloc ∧ verdict (.remove key) remove) ∧
      (s.dev.isCoord = false → alone → Completes alloc s (relayed (.sliceAlloc false sd)) ∧
        Completes remove s (relayed (.sliceRemove false key))) ∧
      (s.dev.mode ≠ stPlanWait → Completes (.planRetry r timed) s (answersIt (addressError 5))) ∧
      (s.dev.mode = stPlanWait → s.dev.leads = false → Completes (.planRetry r timed) s (answersIt (answerWith 0))) ∧
      (s.dev.mode = stPlanWait → s.dev.leads = true → (∀ v, v < 4 → s.dev.planFault v ≠ 0) → Completes (.planRetry r timed) s fun d =>
        s.dev.answered d r (answerWith 0) ∧ d.mode = stPlanWait ∧ d.fld F.PLAN_STATUS_REASON = s.dev.planFault 0 ∧
        d.fld F.PLAN_STATUS_VACANT = s.dev.vacant.length % 2 ^ (F.PLAN_STATUS_VACANT.hi - F.PLAN_STATUS_VACANT.lo + 1)) ∧
      (s.dev.start.reader.all (fun j => !j.failed) = true → Completes (.loadRetry r timed) s (answersIt (addressError 5))) ∧
      (∀ j, s.dev.start.reader = some j → j.failed = true → Completes (.loadRetry r timed) s fun d => s.dev.answered d r (answerWith 0) ∧
        (∃ j', d.start.reader = some j' ∧ j'.failed = false ∧ j'.ctxs = j.ctxs ∧ j'.got = []) ∧ d.fld F.LOAD_STATUS_FAILED = 0 ∧
        d.fld F.LOAD_STATUS_READER = 1 ∧ ∀ b ∈ s.dev.jobBlocks j.slotB, ∃ v ∈ d.vault.reads, v.block = b ∧ v.forLoad = true) ∧
      (s.dev.isCoord = true → s.dev.weightLoadBad k = true → Completes (.weightLoad r timed k) s (answersIt (answerWith 0x12))) ∧
      (s.dev.isCoord = false ∨ s.dev.weightLoadBad k = false → Completes (.weightLoad r timed k) s fun d =>
        s.dev.answered d r (answerWith 0) ∧ d.fld F.LOAD_STATUS_FAILED = 0 ∧
        (s.dev.wantedUnits k ≠ [] → d.start.loading = [k.val] ∧ d.fld F.LOAD_STATUS_CTX_LOADED / 2 ^ k.val % 2 = 0) ∧
        (s.dev.isCoord = true → ∀ x ∈ s.dev.liveIn' s.dev.route.fmap, x ≠ s.dev.here → Msg.mgmt x (.weightLoad k) ∈ d.outbox))) ∧
    (let due := s.dev.chain.timed.filter fun t => t.at_ ≤ s.dev.now;
      (due = [] → Completes .timedCommandAct s fun d => s.dev.wrote d [] ∧ d.chain = { s.dev.chain with timed := s.dev.chain.timed.filter fun t => s.dev.now < t.at_ }) ∧
      (∀ t, due = [t] → Completes .timedCommandAct s fun d => (∀ x ∈ d.chain.timed, s.dev.now < x.at_) ∧
        (t.cmd = .freeze none key thaw → froze key thaw d ∧ regsBut [] s.dev d) ∧ (t.cmd = .drain none key → drained key d) ∧
        (t.cmd = .reset none cold force → s.dev.hasBinding = false ∨ force = true → restarted cold d)))

/-- R332, R398, R433, R576, R579–R583, R585, R586, R602, R604 (08, 10, 14, 15): how start-up goes on. The first ASSIGN gives the coordinate, a second one or a
wrong neighbour makes its port miswired; reports are collected and go on; with no seed, no port or no report the waits of the rules end.
The coordinator takes the lowest variant that fits, or sends the machine to PLAN_WAIT; a load ends at every module before step 11, placement
before step 12, and READY comes at its count. A unit not received is asked of the reader, which reads its blocks. A spare whose attestation
matches takes a vacancy or a dead coordinate. What meets no wait of its kind changes nothing. -/
def Obligations.StartUpProceeds : Prop :=
  ∀ (s : State) (p : Fin 6) (c : Coord) (uid : BitVec 32) (rep : List ModReport) (k : Fin 4) (u sec : Nat) (at_ : BitVec 64)
    (a : SpareReport), s.dev.steady → s.dev.Settled →
    let st := s.dev.start
    let step := s.dev.bootStep
    let up := decide (s.dev.linkState p = lsUp)
    let valid := s.dev.bit F.DEV_COORD_VALID
    let none_ := fun (d : Dev) => s.dev.wrote d []
    let waits := fun (v : Nat) (d : Dev) => d.mode = stPlanWait ∧ d.fld F.PLAN_STATUS_REASON = v
    let reports := fun (d : Dev) => d.start.reported = true ∧ d.bootStep = 8 ∧
      (s.dev.leads = true → d.start.wanted = d.vacant) ∧
      (∀ q, s.dev.leads = false → st.fromPort = some q → ∃ l, Msg.portMsg q (.report l) ∈ d.outbox)
    let live := s.dev.liveIn' s.dev.route.fmap
    let loading := decide (s.dev.mode = stLoading);
    (up = false → ∀ i ∈ [Instr.assignReceive p c uid, .neighbourReceive p c, .reportReceive p rep], Completes i s none_) ∧
    (up = true → valid = false → s.dev.fld F.PLAN_STATUS_PARKED = 1 ∨ s.dev.mode = stOff → Completes (.assignReceive p c uid) s none_) ∧
    (up = true → valid = false → s.dev.fld F.PLAN_STATUS_PARKED ≠ 1 → s.dev.mode ≠ stOff → Completes (.assignReceive p c uid) s fun d =>
      d.fld F.DEV_COORD_VALID = 1 ∧ d.fld F.DEV_COORD_X = cx c ∧ d.fld F.DEV_COORD_Y = cy c ∧ d.fld F.DEV_COORD_Z = cz c ∧
      d.fld F.DEV_COORD_SPARE = 0 ∧ d.start.seedUid = some uid ∧ d.start.fromPort = some p.val ∧
      (∀ q, q < 6 → s.dev.linkState q = lsUp → Msg.portMsg q (.neighbour c) ∈ d.outbox) ∧
      (c = 0 → d.fld F.GCNT_STATUS_MASTER = 1 ∧ d.fld F.GCNT_STATUS_DEPTH = 0)) ∧
    (up = true → valid = true → Completes (.assignReceive p c uid) s fun d => p.val ∈ d.start.miswired ∧ regsBut [.PLAN_STATUS] s.dev d ∧
      (d.start.conflict = true ↔ st.conflict = true ∨ st.seedUid ≠ some uid)) ∧
    (up = true → Completes (.neighbourReceive p c) s fun d => (p.val, c) ∈ d.start.peers ∧ regsBut [.PLAN_STATUS] s.dev d ∧
      (valid = true → c ≠ s.dev.neighbour p → p.val ∈ d.start.miswired) ∧
      (valid = false ∨ c = s.dev.neighbour p → d.start.miswired = st.miswired)) ∧
    (valid = false → Completes (.reportReceive p rep) s none_) ∧
    (up = true → valid = true →
      let all := s.dev.assigns.all fun e => decide (e.1 = p.val) || st.heardPorts.contains e.1;
      Completes (.reportReceive p rep) s fun d => p.val ∈ d.start.heardPorts ∧ (∀ x ∈ rep, x ∈ d.start.tree) ∧
        (st.reported = false → all = true → s.dev.leads = true ∨ st.fromPort ≠ none → reports d) ∧ (st.reported = false → all = false → regsBut [.PLAN_STATUS] s.dev d) ∧
        (∀ q, st.reported = true → s.dev.leads = false → st.fromPort = some q → Msg.portMsg q (.report rep) ∈ d.outbox)) ∧
    (let due := decide (step = 7) && valid && !st.reported && s.dev.stepMs 100;
      (due = true → s.dev.leads = true ∨ st.fromPort ≠ none → Completes .reportTimeout s reports) ∧
      (due = false → Completes .reportTimeout s none_)) ∧
    (let due := decide (s.dev.mode = stBoot ∧ step = 7) && !valid && s.dev.stepMs 500 && !s.dev.bit F.DEV_COORD_SPARE &&
        [0, 1, 2, 3, 4, 5].any fun q => s.dev.linkState q = lsUp;
      (due = true → st.peers = [] → Completes .noSeedTimeout s (waits 4)) ∧
      (due = true → st.peers ≠ [] → Completes .noSeedTimeout s fun d => d.fld F.PLAN_STATUS_PARKED = 1 ∧ d.fld F.DEV_COORD_SPARE = 1 ∧
        ∀ q, q < 6 → s.dev.linkState q = lsUp → d.fld F.LINK_STATUS_ADMITTED q = 0) ∧
      (due = false → Completes .noSeedTimeout s none_)) ∧
    (let shape := ((s.dev.variantOf 0).map Variant.shape).getD (1, 1, 1)
      let due := decide (s.dev.mode = stBoot ∧ step = 6 ∧ shape ≠ (1, 1, 1)) && [0, 1, 2, 3, 4, 5].all fun q => s.dev.linkState q ≠ lsUp;
      (due = true → Completes .noFlalysPortUp s fun d => d.mode = stReady ∧ d.fld F.DEV_COORD_SPARE = 1) ∧
      (due = false → Completes .noFlalysPortUp s none_)) ∧
    (let due := s.dev.leads && decide (s.dev.mode = stBoot ∧ step = 8) &&
        (s.dev.vacant.isEmpty || s.dev.stepMs (s.dev.fld F.START_CFG_SPARE_WAIT));
      (due = false → Completes .spareWaitExpire s none_) ∧
      (due = true → (∀ v, v < 4 → s.dev.planFault v ≠ 0) → Completes .spareWaitExpire s fun d => waits (s.dev.planFault 0) d ∧
        ∀ r ∈ st.tree, ∃ m, Msg.mgmt r.coord (.faultMap 0 m (some .waits)) ∈ d.outbox) ∧
      (∀ v : Fin 4, due = true → s.dev.planFault v = 0 → (∀ w, w < v.val → s.dev.planFault w ≠ 0) →
        (s.dev.variantOf v).all (fun x => decide (cz s.dev.here < x.shape.2.2)) = true → Completes .spareWaitExpire s fun d =>
          d.start.variant = some v.val ∧ d.bootStep = 10 ∧
          ∀ r ∈ st.tree, ∃ m, Msg.mgmt r.coord (.faultMap 0 m (some (.fits v))) ∈ d.outbox)) ∧
    (s.dev.slotFor c k = none → Completes (.loadUnitRequest c k u) s none_) ∧
    (∀ b, s.dev.slotFor c k = some b → Completes (.loadUnitRequest c k u) s fun d => regsBut [] s.dev d ∧ sameMemory s.dev d ∧
      ∀ l ∈ s.dev.slotLeaves b, ((s.dev.leafWrites c k l []).any fun x => decide (x.1 / 16384 = u)) = true →
        ∃ v ∈ d.vault.reads, v.block = l.block ∧ (c, k.val, u) ∈ v.wants) ∧
    (let whole := live.all fun x => decide (x = c) || st.dones.contains x
      let failed := decide (s.dev.fld F.LOAD_STATUS_FAILED = 1) && loading;
      (s.dev.isCoord = false → c ≠ s.dev.coordinator → Completes (.loadDoneReport c) s none_) ∧
      (s.dev.isCoord = false → c = s.dev.coordinator → loading = true → step = 10 → Completes (.loadDoneReport c) s fun d => d.bootStep = 11) ∧
      (s.dev.isCoord = true → failed = true ∨ whole = false → Completes (.loadDoneReport c) s fun d => c ∈ d.start.dones ∧
        regsBut [] s.dev d) ∧
      (s.dev.isCoord = true → whole = true → loading = false → s.dev.chain.events.length < 960 → Completes (.loadDoneReport c) s fun d =>
        d.start.dones = [] ∧ ∃ e ∈ d.chain.events, e.kind = 8) ∧
      (s.dev.isCoord = true → whole = true → failed = false → loading = true → step = 10 → Completes (.loadDoneReport c) s fun d =>
        d.bootStep = 11 ∧ ∀ x ∈ live, x ≠ s.dev.here → Msg.mgmt x .loadDone ∈ d.outbox)) ∧
    (let due := s.dev.isCoord && loading && decide (step = 11)
      let whole := live.all fun x => decide (x = c) || st.placedBy.contains x;
      (due = false → Completes (.placementReportReceive c) s none_) ∧
      (due = true → whole = false → Completes (.placementReportReceive c) s fun d => c ∈ d.start.placedBy ∧ d.bootStep = 11) ∧
      (due = true → whole = true → Completes (.placementReportReceive c) s fun d => d.bootStep = 12 ∧
        d.start.readyAt = some (s.dev.gcnt + 1000000).toNat ∧
        ∀ x ∈ live, x ≠ s.dev.here → Msg.mgmt x (.readyCount (s.dev.gcnt + 1000000)) ∈ d.outbox)) ∧
    (let due := loading && decide (step = 11);
      (due = true → Completes (.readyCountReceive at_) s fun d => d.bootStep = 12 ∧ d.start.readyAt = some at_.toNat ∧
        ∀ j o, st.launches = [(j, o)] → j < 4 → d.fld F.RING_LAUNCH_GCNT j = (at_.toNat + o) % 2 ^ 64) ∧
      (due = false → Completes (.readyCountReceive at_) s none_)) ∧
    (let due := loading && decide (step = 12) && st.readyAt.any fun t => decide (t ≤ s.dev.now)
      let v := s.dev.fld F.SEC_IMG_VERSION
      let old := s.dev.fld F.SEC_STATUS_ARB;
      (due = true → Completes .readyEnter s fun d => d.mode = stReady ∧
        d.fld F.SEC_STATUS_ARB = (if old < v ∧ s.dev.secure.raises < 4096 then v else old) ∧
        (old < v → 4096 ≤ s.dev.secure.raises → d.fld F.SEC_ERR_ARB_WORN = 1)) ∧
      (due = false → Completes .readyEnter s none_)) ∧
    Completes (.lastSendReportReceive c sec) s (fun d => none_ d ∧
      ∀ j ∈ st.loading, s.dev.fld F.RING_CTL_SECTION j = sec → ∀ x ∈ s.dev.missingUnits j, Msg.mgmt c (.unitRequest j x) ∈ d.outbox) ∧
    (let starting := decide (s.dev.mode = stBoot ∨ s.dev.mode = stPlanWait)
      let vacancy := s.dev.leads && s.dev.vacant.contains a.coord;
      (s.dev.isCoord = false → Completes (.spareAttestationReceive p a) s none_) ∧
      (s.dev.isCoord = true → s.dev.spareOk a = false → Completes (.spareAttestationReceive p a) s fun d =>
        d.fld F.SEC_ERR_ATTEST = 1 ∧ s.dev.tallied d F.SEC_ERR_FAULTS 0 ∧ s.dev.wrote d [.SEC_ERR]) ∧
      (s.dev.isCoord = true → s.dev.spareOk a = true → starting = true →
        (vacancy = false → Completes (.spareAttestationReceive p a) s none_) ∧
        (∀ n q, vacancy = true → (s.dev.besideOf a.coord).find? (fun e => (s.dev.reportOf e.1).any fun r => r.livePorts.any
          fun x => x.val = e.2) = some (n, q) → Completes (.spareAttestationReceive p a) s fun d => none_ d ∧
            (if n = s.dev.here then Msg.portMsg q (.assign a.coord (st.seedUid.getD 0)) ∈ d.outbox
              else Msg.mgmt n (.assign a.coord (st.seedUid.getD 0)) ∈ d.outbox))) ∧
      (s.dev.isCoord = true → s.dev.spareOk a = true → starting = false →
        (s.dev.linksBack a.coord = false → Completes (.spareAttestationReceive p a) s none_) ∧
        (s.dev.linksBack a.coord = true → Completes (.spareAttestationReceive p a) s fun d =>
          Msg.mgmt a.coord (.takeover (s.dev.takeOverOf a.coord)) ∈ d.outbox)))

/-- R219–R221, R571, R598, R603, R609–R613, R616, R617 (05, 15): what the commands of SEC_CMD do. NONCE draws a nonce, ATTEST writes the report over the
challenge, GET_EK the encapsulation key, where the buffer lies as its rule says. A token is checked only in MAINTENANCE with no
installation open; its first failed check is the REASON, and the nonce is consumed. INSTALL_OPEN opens the named slots and takes a new
secret, INSTALL_CLOSE writes them, OWNER_TRANSFER takes the new owner's keys, forgets the secret and the slots, and restarts. -/
def Obligations.SecurityCommandsRun : Prop :=
  ∀ (s : State) (r : Req) (v : TokenVerdict), s.dev.steady → s.dev.Settled → s.dev.fresh r →
    let done := fun (res why : Nat) (d : Dev) => s.dev.answered d r answerOk ∧ s.dev.counted d F.SEC_CMD_STATUS_SEQ 0 1 ∧
      d.fld F.SEC_CMD_STATUS_RESULT = res ∧ d.fld F.SEC_CMD_STATUS_REASON = why
    let fails := fun (res why : Nat) (d : Dev) => done res why d ∧ d.secure = s.dev.secure ∧ d.vault = s.dev.vault ∧ d.hbm = s.dev.hbm
    let busy := s.dev.bit F.SEC_CMD_STATUS_BUSY
    let opened := s.dev.bit F.VAULT_CTL_INSTALL
    let a := s.dev.secArg
    let t := (s.dev.readHbm a tokenBytes).1
    let may := decide (s.dev.mode = stMaint) && !opened
    let uid := BitVec.ofNat 64 (s.dev.reg .SEC_UID)
    let holds := fun (bs : List Byte) (d : Dev) => ∀ j, j < bs.length → memByte d.hbm (a + j) = bs.getD j 0
    let outside := fun (n : Nat) (d : Dev) => ∀ j, j < a ∨ a + n ≤ j → memByte d.hbm j = memByte s.dev.hbm j
    let spent := fun (d : Dev) => d.secure.nonceLive = false ∧ ∀ i, i < 4 → d.fld F.SEC_NONCE_NONCE i = 0
    let staged := fun (b m : Bool) => mapGet (fun _ => []) s.dev.vault.staged (streamIx b m)
    let ix := fun (b : Bool) => if b then 1 else 0
    let rand := padTo 32 (Config.random s.dev.freeCtr 32);
    (busy = true → ∀ i ∈ [Instr.nonce r, .attest r, .getEk r, .installOpen r v, .installClose r, .ownerTransfer r v], Completes i s fun d =>
      s.dev.answered d r (addressError 5) ∧ d.secure = s.dev.secure ∧ d.vault = s.dev.vault ∧ d.hbm = s.dev.hbm ∧
      regsBut [.CHAIN_CNT, .PWR_STATUS] s.dev d) ∧
    (busy = false →
      Completes (.nonce r) s (fun d => done 0 0 d ∧ d.secure = { s.dev.secure with nonceLive := true } ∧
        d.freeCtr = s.dev.freeCtr + 1 ∧ ∀ i, i < 4 → d.fld F.SEC_NONCE_NONCE i = leNat ((rand.drop (8 * i)).take 8)) ∧
      (s.dev.inService a 17056 = false → Completes (.attest r) s (fails 0x10 8)) ∧
      (s.dev.inService a 17056 = true → a + 17056 ≤ hbmSize → s.dev.hbmBad = [] → Completes (.attest r) s fun d => done 0 0 d ∧
        holds (s.dev.reportBody (s.dev.readHbm (a + 24) 32).1) d ∧ outside 17056 d ∧ d.vault = s.dev.vault ∧ d.secure = s.dev.secure) ∧
      (hbmSize < a + 1184 → Completes (.getEk r) s (fails 0x10 8)) ∧
      (a + 1184 ≤ hbmSize → s.dev.hbmBad = [] → Completes (.getEk r) s fun d => done 0 0 d ∧
        holds (padTo 1184 (Config.encapsulationKey uid)) d ∧ outside 1184 d) ∧
      (∀ i ∈ [(installFormed t, Instr.installOpen r v), (ownerFormed t, .ownerTransfer r v)],
        (may = false → Completes i.2 s (fails 0x60 7)) ∧
        (may = true → s.dev.inService a tokenBytes = false → Completes i.2 s (fails 0x10 8)) ∧
        (∀ why, may = true → s.dev.inService a tokenBytes = true → s.dev.tokenFault t v i.1 = some why → Completes i.2 s fun d =>
          done 0x10 why d ∧ spent d ∧ d.fld F.SEC_ERR_TOKEN = 1 ∧ d.vault = s.dev.vault ∧ d.hbm = s.dev.hbm ∧
          d.secure.owner = s.dev.secure.owner ∧ d.secure.secret = s.dev.secure.secret)) ∧
      (may = true → s.dev.inService a tokenBytes = true → s.dev.tokenFault t v (installFormed t) = none →
        let new := decide (byteOf t 49 ≠ 0)
        let named := fun (b : Bool) => bitOf (byteOf t 48) (ix b)
        let gen := fun (i : Nat) => BitVec.ofNat 16 (leNat ((t.drop i).take 2));
        (new = false → s.dev.bit F.SEC_STATUS_OIS = false → Completes (.installOpen r v) s fun d => done 0x10 0 d ∧ spent d ∧
          d.bit F.VAULT_CTL_INSTALL = false ∧ d.vault = s.dev.vault) ∧
        (new = true ∨ s.dev.bit F.SEC_STATUS_OIS = true → Completes (.installOpen r v) s fun d => done 0 0 d ∧ spent d ∧
          d.bit F.VAULT_CTL_INSTALL = true ∧ d.vault.staged = [] ∧ d.vault.nextUnit = [] ∧ d.bit F.SEC_STATUS_OIS = true ∧
          d.secure.installA = (if named false then some (gen 50) else none) ∧
          d.secure.installB = (if named true then some (gen 52) else none) ∧
          d.secure.secret = (if new then Config.decapsulate uid ((t.drop 64).take 1088) else s.dev.secure.secret) ∧
          ∀ b, d.fld F.VAULT_SLOT_PRESENT (ix b) = (if new || named b then 0 else s.dev.fld F.VAULT_SLOT_PRESENT (ix b)))) ∧
      (opened = false → Completes (.installClose r) s (fails 0x60 7)) ∧
      (opened = true →
        let named := fun (b : Bool) => if b then s.dev.secure.installB else s.dev.secure.installA
        let missing := fun (b : Bool) => (named b).isSome && (staged b true).isEmpty;
        Completes (.installClose r) s fun d => done (if missing false || missing true then 0x10 else 0) 0 d ∧
          d.bit F.VAULT_CTL_INSTALL = false ∧ d.secure.installA = none ∧ d.secure.installB = none ∧ d.vault.staged = [] ∧
          ∀ b, (named b = none → d.reg .VAULT_SLOT (ix b) = s.dev.reg .VAULT_SLOT (ix b)) ∧
            (missing b = true → d.fld F.VAULT_SLOT_PRESENT (ix b) = 0) ∧
            (∀ g, named b = some g → missing b = false → d.fld F.VAULT_SLOT_PRESENT (ix b) = 1 ∧
              d.fld F.VAULT_SLOT_GEN (ix b) = g.toNat ∧ mapGet (fun _ => []) d.vault.manifest (ix b) = staged b true ∧
              d.fld F.VAULT_SLOT_SIZE (ix b) =
                (mapGet (fun _ => 0) s.dev.vault.nextUnit (streamIx b false) + groupBytes - 1) / groupBytes % 2 ^ 23)) ∧
      (may = true → s.dev.inService a tokenBytes = true → s.dev.tokenFault t v (ownerFormed t) = none → Completes (.ownerTransfer r v) s fun d =>
        Msg.resp r 0 0 [] ∈ d.outbox ∧ d.mode = stBoot ∧ d.fld F.BOARD_STATUS_CAUSE = 4 ∧
        d.secure.owner = Config.sha384 ((t.drop 48).take 96) ∧ d.secure.secret = 0 ∧ d.secure.nonceLive = false ∧
        d.bit F.SEC_STATUS_OIS = false ∧ s.dev.tallied d F.SEC_STATUS_TRANSFERS 0 ∧ (∀ j, memByte d.hbm j = 0) ∧
        wordFld d.vault.slotA F.VAULT_SLOT_PRESENT = 0 ∧ wordFld d.vault.slotB F.VAULT_SLOT_PRESENT = 0))

/-- R618–R622, R626–R634, R636, R637, R639, R640 (16): power and health. The point in force is the slowest of the request and the two throttles, and
changes at most once in 1 ms; a reading every 100 µs moves the throttles by their times, and at a trip is a module fault. The module takes
the deepest idle state that LTOL and its conditions allow, and leaves it for a cause of R622 or a tolerance too short. MAINTENANCE is
entered from READY with nothing bound, and left after the checks of every binding; GO and STOP run a test load there. A sample is kept,
and the predictor writes its estimates once a day. What is not due changes nothing. -/
def Obligations.PowerFollowsItsRules : Prop :=
  ∀ (s : State) (r : Req) (val : BitVec 64) (x : Sensors) (cause : WakeCause) (age : AgeSample), s.dev.steady → s.dev.Settled →
    let w := s.dev.power
    let now := s.dev.now
    let none_ := fun (d : Dev) => s.dev.wrote d [] ∧ d.power = w
    let ok := fun (d : Dev) => s.dev.answered d r answerOk
    let no := fun (d : Dev) => s.dev.answered d r (addressError 5) ∧ d.mode = s.dev.mode ∧ d.power.test = w.test
    let pwr := s.dev.fld F.PWR_STATUS_STATE
    let point := s.dev.fld F.PWR_CTL_POINT
    let eff := s.dev.fld F.PWR_STATUS_POINT_EFF
    let maint := decide (s.dev.mode = stMaint)
    let held := fun (t ms : Nat) => decide (t + ms * 1000000 ≤ now)
    let bound := [0, 1, 2, 3].any fun k => decide (s.dev.fld F.RING_STATUS_STATE k = 1 ∨ s.dev.fld F.RING_STATUS_STATE k = 2);
    (s.dev.fresh r → Completes (.pwrCtlWrite r val) s fun d => ok d ∧ d.fld F.PWR_CTL_POINT = bitsOf val 1 0 ∧ d.power.bySoftware = true ∧
      d.fld F.PWR_STATUS_THROTTLE_T = (if bitsOf val 1 0 < w.ptT then 1 else 0) ∧
      d.fld F.PWR_STATUS_THROTTLE_P = (if bitsOf val 1 0 < w.ptP then 1 else 0) ∧
      regsBut [.PWR_CTL, .PWR_STATUS, .CHAIN_CNT] s.dev d) ∧
    (let due := decide (s.dev.pointWanted ≠ eff) && w.changeAt.all fun t => decide (t + 1000000 ≤ now);
      (due = true → Completes .pointChange s fun d => d.fld F.PWR_STATUS_POINT_EFF = s.dev.pointWanted % 4 ∧
        d.power = { w with changeAt := some now, bySoftware := false, byThrottle := false } ∧
        (s.dev.liveRing.isSome = true → w.bySoftware = true → d.fld F.DET_STATUS_POINT = 1) ∧
        (s.dev.liveRing.isSome = true → w.byThrottle = true → d.fld F.DET_STATUS_THROTTLE = 1) ∧
        regsBut [.PWR_STATUS, .DET_STATUS] s.dev d) ∧
      (due = false → Completes .pointChange s none_)) ∧
    (let due := decide (s.dev.mode ≠ stOff) && w.readAt.all fun t => decide (t + 100000 ≤ now)
      let cfg := fun (f : Fld) => s.dev.fld f
      let hot := decide (cfg F.THERM_CFG_THROTTLE_C ≤ x.dieMax ∨ cfg F.THERM_CFG_HBM_THROTTLE_C ≤ x.hbmMax)
      let cool := decide (x.dieMax + 5 < cfg F.THERM_CFG_THROTTLE_C ∧ x.hbmMax + 5 < cfg F.THERM_CFG_HBM_THROTTLE_C)
      let reads := if cfg F.THERM_CFG_TRIP_C ≤ x.dieMax ∨ cfg F.THERM_CFG_HBM_TRIP_C ≤ x.hbmMax then w.tripReads + 1 else 0
      let vin := decide (x.vinMv < 40000 ∨ 60000 < x.vinMv)
      let trips := decide (2 ≤ reads ∨ 8000 < x.watts1) || x.regFault || (vin && w.vinSince.any fun t => decide (t + 100000 ≤ now))
      let hotDue := hot && held (w.hotSince.getD now) 1 && (w.hotStep.all fun t => held t 10) && decide (w.ptT < 3)
      let coolDue := !hot && cool && held (w.coolSince.getD now) 100 && decide (0 < w.ptT)
      let cap := cfg F.PWR_CAP_WATTS
      let rests := w.test.isSome
      let overDue := !rests && decide (cap < x.watts10) && (w.overStep.all fun t => held t 10) && decide (w.ptP < 3)
      let underDue := !rests && decide (x.watts10 ≤ cap ∧ x.watts10 * 100 < cap * 95) && held (w.underSince.getD now) 100 && decide (0 < w.ptP)
      let dt := w.readAt.elim 0 fun t => now - t
      let steps := (if hotDue then 1 else 0) + if overDue then 1 else 0;
      (due = false → Completes (.sensorPoll x) s none_) ∧
      (due = true → trips = true → Completes (.sensorPoll x) s fun d => s.dev.enteredSafe d 7) ∧
      (due = true → trips = false → Completes (.sensorPoll x) s fun d => d.mode = s.dev.mode ∧ d.power.tripReads = reads ∧
        d.fld F.THERM_STATUS_DIE_MAX = x.dieMax % 256 ∧ d.fld F.THERM_STATUS_HBM_MAX = x.hbmMax % 256 ∧
        d.fld F.THERM_STATUS_HBM_STACK = x.hbmStack ∧ d.fld F.THERM_STATUS_DIE_QUAD = x.dieQuad ∧
        d.fld F.PWR_STATUS_INPUT_W = x.watts10 % 2 ^ 32 ∧ d.fld F.BOARD_STATUS_VIN_MV = x.vinMv % 2 ^ 32 ∧
        d.power.ptT = (if hotDue then w.ptT + 1 else if coolDue then w.ptT - 1 else w.ptT) ∧
        d.power.ptP = (if overDue then w.ptP + 1 else if underDue then w.ptP - 1 else w.ptP) ∧
        s.dev.counted d F.THERM_CNT_STEPS 0 steps ∧
        s.dev.counted d F.PWR_METER_ENERGY_MJ 0 ((w.meterNs + x.watts1 * dt) / 1000000) ∧
        s.dev.counted d F.THERM_CNT_MS 0 ((if point < eff then w.belowNs + dt else w.belowNs) / 1000000) ∧
        regsBut [.THERM_STATUS, .PWR_STATUS, .BOARD_STATUS, .PWR_METER, .THERM_CNT] s.dev d)) ∧
    (let to_ := s.dev.deepest (if held w.quietAt 100 then 4 else if held w.quietAt 1 then 2 else 0);
      (pwr < to_ → Completes .idleEnter s fun d => d.fld F.PWR_STATUS_STATE = to_ ∧ d.frozen = some (d.regs, s.dev.gcnt) ∧
        (∀ a, memByte d.hbm a = memByte s.dev.hbm a) ∧ (to_ ≠ 4 → d.spm = s.dev.spm ∧ regsBut [.PWR_STATUS] s.dev d) ∧
        (to_ = 4 → ∀ p, p < 6 → d.linkState p = lsDown)) ∧
      (to_ ≤ pwr → Completes .idleEnter s none_)) ∧
    (let wakes := (∃ p, cause = .train p ∧ pwr = 4) ∨ ∃ v, cause = .packet v ∧ pwr = 3 ∧ v ≠ 4;
      (wakes → Completes (.idleExit cause) s fun d => d.fld F.PWR_STATUS_STATE = 0 ∧ d.frozen = none ∧ regsBut [.PWR_STATUS] s.dev d) ∧
      (¬ wakes → Completes (.idleExit cause) s none_)) ∧
    (s.dev.fresh r → ∀ i, i = .ltolWrite r val ∨ (bitsOf val 63 32 = 0 ∧ i = .ltol r val) → Completes i s fun d => ok d ∧
      d.fld F.LTOL_NS = bitsOf val 31 0 ∧ regsBut [.LTOL, .PWR_STATUS, .CHAIN_CNT] s.dev d ∧
      d.fld F.PWR_STATUS_STATE = (if max 50 (bitsOf val 31 0) < exitLatency pwr then d.deepest pwr else pwr)) ∧
    (s.dev.fresh r →
      (s.dev.mode = stReady → bound = false → Completes (.enter r) s fun d => ok d ∧ d.mode = stMaint ∧
        regsBut [.CHAIN_CNT, .PWR_STATUS] s.dev d) ∧
      (s.dev.mode ≠ stReady ∨ bound = true → Completes (.enter r) s no) ∧
      (maint = false ∨ s.dev.bit F.VAULT_CTL_INSTALL = true → Completes (.leave r) s no) ∧
      (maint = true → s.dev.bit F.VAULT_CTL_INSTALL = false → Completes (.leave r) s fun d => ok d ∧ d.mode = stReady ∧
        d.power.test = none ∧
        (s.dev.bit F.SAFE_STATUS_RELINQUISHED = true → d.fld F.DEV_COORD_VALID = 0 ∧ d.fld F.DEV_COORD_SPARE = 1) ∧
        ∀ k, k < 4 →
          let fails := (s.dev.ring k).sched.isSome && s.dev.bindingFails k;
          (fails = true → d.fld F.RING_STATUS_STATE k = 0 ∧ d.fld F.RING_CTL_ARM k = 0 ∧ d.fld F.RING_CTL_LIVE k = 0 ∧
            (d.ring k).refused = some (s.dev.fld F.RING_CTL_PKEY k, 0x12)) ∧
          (fails = false → d.ring k = s.dev.ring k ∧ d.fld F.RING_STATUS_STATE k = s.dev.fld F.RING_STATUS_STATE k)) ∧
      (let steps := bitsOf val 63 32
        let qmask := bitsOf val 7 4
        let bad := w.test.isSome || decide (qmask = 0) || (quadsOf qmask).any s.dev.testReserved;
        (maint = false → Completes (.go r val) s no ∧ Completes (.stop r val) s no) ∧
        (maint = true → bad = true → Completes (.go r val) s no) ∧
        (maint = true → bad = false → bitOf val 1 = false → Completes (.go r val) s fun d => ok d ∧ d.fld F.KETTLE_STATUS_STEPS_DONE = 0 ∧
          (steps = 0 → d.power = w) ∧
          (steps ≠ 0 → d.power.test = some ⟨now, none, qmask, steps⟩ ∧ d.fld F.KETTLE_STATUS_RUNNING = qmask)) ∧
        (maint = true → ∀ i, (i = .go r val ∧ bitOf val 1 = true) ∨ (i = .stop r val ∧ bitOf val 0 = true) →
          (bad = true → Completes i s no) ∧ (bad = false → Completes i s fun d => ok d ∧ d.power.test = none)) ∧
        (maint = true → bitOf val 0 = false → Completes (.stop r val) s fun d => ok d ∧ d.power.test = none ∧
          ∀ t, w.test = some t → d.fld F.KETTLE_STATUS_RUNNING = 0 ∧ d.fld F.KETTLE_STATUS_STEPS_DONE = s.dev.stepsDone t % 2 ^ 32))) ∧
    (w.test = none → Completes .kettleFirstCycle s none_ ∧ Completes .kettleTestEnd s none_) ∧
    (∀ t, w.test = some t →
      let first := s.dev.firstCycle t
      let ends := t.firstAt.isSome && decide (t.steps ≠ 4294967295 ∧ s.dev.stepsDone t = t.steps);
      (t.firstAt.isSome = true ∨ now < first → Completes .kettleFirstCycle s none_) ∧
      (t.firstAt = none → first ≤ now → Completes .kettleFirstCycle s fun d => d.power.test = some { t with firstAt := some first } ∧
        d.fld F.KETTLE_STATUS_LATE = (if s.dev.fld F.KETTLE_AT_GCNT < first then 1 else 0) ∧ regsBut [.KETTLE_STATUS] s.dev d) ∧
      (ends = true → Completes .kettleTestEnd s fun d => d.power.test = none ∧ d.fld F.KETTLE_STATUS_RUNNING = 0 ∧
        d.fld F.KETTLE_STATUS_STEPS_DONE = t.steps % 2 ^ 32 ∧ regsBut [.KETTLE_STATUS] s.dev d) ∧
      (ends = false → Completes .kettleTestEnd s none_)) ∧
    Completes (.ageingSample age) s (fun d => d.power = { w with samples := w.samples ++ [(s.dev.lived, age)] } ∧ d.regs = s.dev.regs) ∧
    (let due := decide (s.dev.mode ≠ stOff) && w.ranAt.all fun t => decide (t + 86400000000000 ≤ now)
      let low := fun (k : Nat) => (s.dev.projectSub k).2.1
      let warn := s.dev.fld F.HLTH_CFG_WARN_DAYS;
      (due = false → Completes .predictorRun s none_) ∧
      (due = true → Completes .predictorRun s fun d => d.power.ranAt = some now ∧ regsBut [.HLTH_SUB, .HLTH_MODULE] s.dev d ∧
        (∀ k, k < 4 → d.fld F.HLTH_SUB_EST k = min 65535 (s.dev.projectSub k).1 ∧ d.fld F.HLTH_SUB_LO k = min 65535 (low k) ∧
          d.fld F.HLTH_SUB_HI k = min 65535 (s.dev.projectSub k).2.2 ∧ d.fld F.HLTH_SUB_WARN k = (if low k < warn then 1 else 0) ∧
          d.fld F.HLTH_SUB_VALID k = if s.dev.weekHeld k then 1 else 0) ∧
        (∀ k, k < 4 → low k < warn → s.dev.chain.events.length < 960 → ∃ e ∈ d.chain.events, e.kind = 10)))

/-- R576, R611, R645–R653 (14, 17): the board. POWER_ON brings the standby supply with RESET_N low and HBM zero; RESET_N low and the loss of the
standby supply hold everything in reset, OFF; a loss of VIN stops the module where it stands, and one of the reference clock is a module
fault. At the release of RESET_N the straps are sampled, GCNT starts at 0, and BOOT begins, unless VIN is out of range. The I3C target
takes one dynamic address, a read offset, and gives the telemetry block from there; the TAP takes its instruction. -/
def Obligations.BoardActs : Prop :=
  ∀ (s : State) (b : BootInput) (dyn static : BitVec 7) (viaStatic : Bool) (data : List Byte) (len : Nat) (j : JtagInstr),
    let x := s.dev.board
    let same := fun (d : Dev) => d = s.dev
    let held := fun (d : Dev) => d.mode = stOff ∧ d.cores = [] ∧ d.rings = [] ∧ d.slices = [] ∧ d.ports = [] ∧ d.chain = .init ∧
      d.vault.blocks = s.dev.vault.blocks ∧ d.secure.owner = s.dev.secure.owner ∧ d.secure.secret = s.dev.secure.secret ∧
      d.fld F.SEC_STATUS_ARB = s.dev.fld F.SEC_STATUS_ARB ∧ d.bit F.VAULT_CTL_INSTALL = false ∧ d.board.i3cAddr = none ∧
      d.outbox = s.dev.outbox
    let hbmKept := fun (d : Dev) => ∀ a, memByte d.hbm a = memByte s.dev.hbm a
    let low := decide (b.vinMv < 40000 ∨ 60000 < b.vinMv)
    let released := x.vsb12 && (x.resetLow || !s.dev.start.started)
    let i3c := x.vsb12 && !x.resetLow;
    (x.vsb12 = true → Completes .powerOn s same) ∧
    (x.vsb12 = false → Completes .powerOn s fun d => held d ∧ (∀ a, memByte d.hbm a = 0) ∧ d.fld F.BOARD_STATUS_CAUSE = 0 ∧
      d.board = { x with vsb12 := true, resetLow := true, stopped := false, refclk := true, jtag := .idcode, i3cAddr := none, i3cOff := 0 }) ∧
    (x.vsb12 = false ∨ x.resetLow = true → Completes .resetNAssert s same ∧ Completes .vinLoss s same) ∧
    (x.vsb12 = true → x.resetLow = false →
      Completes .resetNAssert s (fun d => held d ∧ hbmKept d ∧ d.fld F.BOARD_STATUS_CAUSE = 1 ∧
        d.board = { x with resetLow := true, stopped := false, i3cAddr := none, i3cOff := 0 }) ∧
      Completes .vinLoss s (fun d => d = { s.dev with board := { x with stopped := true } })) ∧
    (x.vsb12 = false → Completes .vsb12Loss s same ∧ Completes (.jtagInstruction j) s same ∧ Completes .jtagTapReset s same) ∧
    (x.vsb12 = true → Completes .vsb12Loss s fun d => held d ∧ d.board.vsb12 = false ∧ d.board.refclk = false ∧ d.running = false) ∧
    (s.dev.steady → x.refclk = false → Completes .refclkLoss s fun d => s.dev.wrote d []) ∧
    (s.dev.steady → x.refclk = true → Completes .refclkLoss s fun d => d.fld F.BOARD_STATUS_REFCLK_LOST = 1 ∧ d.board.refclk = false ∧
      (s.dev.mode ≠ stOff → s.dev.enteredSafe d 10) ∧ (s.dev.mode = stOff → regsBut [.BOARD_STATUS] s.dev d)) ∧
    (s.dev.route.lost = [] →
      (released = false → s.dev.Settled → Completes (.resetRelease b) s same) ∧
      (released = true → Completes (.resetRelease b) s fun d => d.gcnt = 0 ∧ d.board.resetLow = false ∧ d.board.refclk = true ∧
        d.running = true ∧ d.start.started = true ∧ d.fld F.BOARD_STATUS_VIN_MV = b.vinMv % 2 ^ 32 ∧
        d.mode = (if low then stOff else stBoot) ∧ (low = true → d.fld F.BOARD_STATUS_VIN_LOW = 1 ∧ d.fld F.SAFE_STATUS_FAULT_N = 1) ∧
        (s.dev.fld F.BOARD_STATUS_CAUSE ≤ 1 → d.bit F.BOARD_STATUS_SEED_N = b.seedN ∧ d.bit F.BOARD_STATUS_FLASH_DUAL = b.flashDual ∧
          d.bit F.BOARD_STATUS_I3C_SA1 = b.sa1 ∧ d.bit F.BOARD_STATUS_I3C_SA0 = b.sa0 ∧ d.start.seed = !b.seedN) ∧
        (low = false → s.dev.start.warm = false → d.bit F.SEC_STATUS_SE = b.seOk ∧ d.bit F.SEC_STATUS_PUF = (b.seOk && b.pufOk) ∧
          d.bit F.SEC_STATUS_IDENTITY = (b.seOk && b.pufOk) ∧
          (b.seOk = false → d.fld F.SEC_ERR_SE = 1) ∧ (b.seOk = true → b.pufOk = false → d.fld F.SEC_ERR_PUF = 1)) ∧
        ∀ a, memByte d.hbm a = memByte s.dev.hbm a)) ∧
    (let takes := i3c && x.i3cAddr.isNone && (!viaStatic || decide (static = s.dev.i3cStatic))
      let i := Instr.i3cAddressAssign dyn viaStatic static;
      (takes = true → Completes i s fun d => d = { s.dev with board := { x with i3cAddr := some dyn } }) ∧
      (takes = false → Completes i s same)) ∧
    (∀ y, data = [y] → i3c = true → y.toNat % 8 = 0 → y.toNat < 64 → Completes (.i3cPrivateWrite data) s fun d =>
      d = { s.dev with board := { x with i3cOff := y.toNat } }) ∧
    (i3c = false ∨ data.length ≠ 1 ∨ (∃ y, data = [y] ∧ (y.toNat % 8 ≠ 0 ∨ 64 ≤ y.toNat)) → Completes (.i3cPrivateWrite data) s same) ∧
    (i3c = false → Completes (.i3cPrivateRead len) s same) ∧
    (i3c = true → Completes (.i3cPrivateRead len) s fun d => s.dev.telemetry.length = 64 ∧ d = { s.dev with outbox := s.dev.outbox ++
      [Msg.i3cRead ((List.range len).map fun n => s.dev.telemetry.getD ((x.i3cOff + n) % 64) 0)] }) ∧
    (x.vsb12 = true → Completes (.jtagInstruction j) s (fun d => d = { s.dev with board := { x with jtag := j } } ∧
      (x.resetLow = false → j = .extest ∨ j = .extestPulse ∨ j = .extestTrain ∨ j = .clamp ∨ j = .highz → d.tapEffect = .bypass) ∧
      (j = .other → d.bit F.SEC_CFG_DEBUG_LOCK = true → d.tapEffect = .bypass) ∧ (j = .idcode → d.tapEffect = .idcode)) ∧
      Completes .jtagTapReset s (fun d => d = { s.dev with board := { x with jtag := .idcode } }))
end

