-- ==== Sys2Proof/Laws/Map.lean ====
section
/-! SUPPORT. Sparse families and byte memories: what is read back, what is left alone, and that every operation keeps the canonical
form. -/

namespace Sys2Proof.Machine

variable {α : Type}

/-! ### What is read back -/

theorem mapGet_mapPut_same (d : Nat → α) (k : Nat) (v : α) (m : SMap α) : mapGet d (mapPut k v m) k = v := by
  induction m with
  | nil => simp [mapPut, mapGet]
  | cons e m ih =>
    obtain ⟨j, a⟩ := e
    unfold mapPut
    split
    · simp [mapGet]
    · split
      · simp [mapGet]
      · rename_i h
        simp [mapGet, h, ih]

theorem mapGet_mapPut_other (d : Nat → α) {k k' : Nat} (v : α) (m : SMap α) (h : k' ≠ k) :
    mapGet d (mapPut k v m) k' = mapGet d m k' := by
  induction m with
  | nil => simp [mapPut, mapGet, h]
  | cons e m ih =>
    obtain ⟨j, a⟩ := e
    unfold mapPut
    split
    · simp [mapGet, h]
    · split
      · rename_i hj
        subst hj
        simp [mapGet, h]
      · simp [mapGet, ih]

theorem mapGet_mapDel_same (d : Nat → α) (k : Nat) (m : SMap α) : mapGet d (mapDel k m) k = d k := by
  induction m with
  | nil => rfl
  | cons e m ih =>
    obtain ⟨j, a⟩ := e
    by_cases hj : j = k
    · simpa [mapDel, hj] using ih
    · have hk : k ≠ j := fun h => hj h.symm
      simpa [mapDel, hj, mapGet, hk] using ih

theorem mapGet_mapDel_other (d : Nat → α) {k k' : Nat} (m : SMap α) (h : k' ≠ k) :
    mapGet d (mapDel k m) k' = mapGet d m k' := by
  induction m with
  | nil => rfl
  | cons e m ih =>
    obtain ⟨j, a⟩ := e
    by_cases hj : j = k
    · subst hj
      simpa [mapDel, mapGet, h] using ih
    · by_cases hk : k' = j
      · simp [mapDel, hj, mapGet, hk]
      · simpa [mapDel, hj, mapGet, hk] using ih

/-- A value written is read back. -/
@[simp] theorem mapGet_mapSet_same [DecidableEq α] (d : Nat → α) (k : Nat) (v : α) (m : SMap α) :
    mapGet d (mapSet d k v m) k = v := by
  unfold mapSet
  split
  · rename_i h
    rw [mapGet_mapDel_same, h]
  · exact mapGet_mapPut_same d k v m

/-- Other keys read as before. -/
theorem mapGet_mapSet_other [DecidableEq α] (d : Nat → α) {k k' : Nat} (v : α) (m : SMap α) (h : k' ≠ k) :
    mapGet d (mapSet d k v m) k' = mapGet d m k' := by
  unfold mapSet
  split
  · exact mapGet_mapDel_other d m h
  · exact mapGet_mapPut_other d v m h

/-! ### The canonical form -/

/-- The canonical form, as propositions. -/
theorem mapWf_iff [DecidableEq α] (d : Nat → α) (m : SMap α) :
    mapWf d m = true ↔ (m.map Prod.fst).Pairwise (· < ·) ∧ ∀ e ∈ m, e.2 ≠ d e.1 := by
  simp [mapWf]

theorem mem_mapPut {k : Nat} {v : α} {m : SMap α} {e : Nat × α} (h : e ∈ mapPut k v m) : e = (k, v) ∨ e ∈ m := by
  induction m with
  | nil => simpa [mapPut] using h
  | cons f m ih =>
    obtain ⟨j, a⟩ := f
    unfold mapPut at h
    split at h
    · simpa using h
    · split at h
      · rcases List.mem_cons.1 h with h | h
        · exact .inl h
        · exact .inr (List.mem_cons_of_mem _ h)
      · rcases List.mem_cons.1 h with h | h
        · exact .inr (by simp [h])
        · exact (ih h).imp_right (List.mem_cons_of_mem _)

theorem mapPut_rising (k : Nat) (v : α) (m : SMap α) (h : (m.map Prod.fst).Pairwise (· < ·)) :
    ((mapPut k v m).map Prod.fst).Pairwise (· < ·) := by
  induction m with
  | nil => simp [mapPut]
  | cons e m ih =>
    obtain ⟨j, a⟩ := e
    simp only [List.map_cons, List.pairwise_cons] at h
    unfold mapPut
    split
    · rename_i hk
      simp only [List.map_cons, List.pairwise_cons]
      refine ⟨?_, h.1, h.2⟩
      intro b hb
      rcases List.mem_cons.1 hb with hb | hb
      · omega
      · have := h.1 b hb
        omega
    · split
      · rename_i hk
        subst hk
        simp only [List.map_cons, List.pairwise_cons]
        exact ⟨h.1, h.2⟩
      · simp only [List.map_cons, List.pairwise_cons]
        refine ⟨?_, ih h.2⟩
        intro b hb
        obtain ⟨e, he, rfl⟩ := List.mem_map.1 hb
        rcases mem_mapPut he with he | he
        · subst he
          simp only
          omega
        · exact h.1 _ (List.mem_map_of_mem he)

theorem filter_rising (p : Nat × α → Bool) (m : SMap α) (h : (m.map Prod.fst).Pairwise (· < ·)) :
    ((m.filter p).map Prod.fst).Pairwise (· < ·) :=
  h.sublist (List.filter_sublist.map Prod.fst)

/-- Removing entries keeps the canonical form. -/
theorem mapWf_filter [DecidableEq α] (d : Nat → α) (p : Nat × α → Bool) (m : SMap α) (h : mapWf d m = true) :
    mapWf d (m.filter p) = true := by
  rw [mapWf_iff] at h ⊢
  exact ⟨filter_rising p m h.1, fun e he => h.2 e (List.mem_filter.1 he).1⟩

/-- A write keeps the canonical form. -/
theorem mapWf_mapSet [DecidableEq α] (d : Nat → α) (k : Nat) (v : α) (m : SMap α) (h : mapWf d m = true) :
    mapWf d (mapSet d k v m) = true := by
  unfold mapSet
  split
  · exact mapWf_filter d _ m h
  · rename_i hv
    rw [mapWf_iff] at h ⊢
    refine ⟨mapPut_rising k v m h.1, fun e he => ?_⟩
    rcases mem_mapPut he with he | he
    · subst he
      exact hv
    · exact h.2 e he

/-- Changing every entry keeps the canonical form. -/
theorem mapWf_mapAll [DecidableEq α] (d : Nat → α) (f : Nat → α → α) (m : SMap α) (h : mapWf d m = true) :
    mapWf d (mapAll d f m) = true := by
  rw [mapWf_iff] at h ⊢
  refine ⟨filter_rising _ _ ?_, fun e he => by simpa using (List.mem_filter.1 he).2⟩
  simpa [List.map_map, Function.comp_def] using h.1

/-! ### Byte memories -/

theorem mem_memCells {a : Nat} {bs : List Byte} {e : Nat × Byte} (h : e ∈ memCells a bs) :
    a ≤ e.1 ∧ e.1 < a + bs.length ∧ e.2 ≠ 0 := by
  induction bs generalizing a with
  | nil => simp [memCells] at h
  | cons b bs ih =>
    unfold memCells at h
    split at h
    · obtain ⟨h1, h2, h3⟩ := ih h
      simp only [List.length_cons]
      exact ⟨by omega, by omega, h3⟩
    · rename_i hb
      rcases List.mem_cons.1 h with h | h
      · subst h
        exact ⟨le_refl _, by simp, hb⟩
      · obtain ⟨h1, h2, h3⟩ := ih h
        simp only [List.length_cons]
        exact ⟨by omega, by omega, h3⟩

theorem memCells_rising (a : Nat) (bs : List Byte) : ((memCells a bs).map Prod.fst).Pairwise (· < ·) := by
  induction bs generalizing a with
  | nil => simp [memCells]
  | cons b bs ih =>
    unfold memCells
    split
    · exact ih _
    · simp only [List.map_cons, List.pairwise_cons]
      refine ⟨fun x hx => ?_, ih _⟩
      obtain ⟨e, he, rfl⟩ := List.mem_map.1 hx
      have := mem_memCells he
      omega

theorem memWf_iff (size : Nat) (m : SMap Byte) :
    memWf size m = true ↔ (m.map Prod.fst).Pairwise (· < ·) ∧ (∀ e ∈ m, e.2 ≠ 0) ∧ ∀ e ∈ m, e.1 < size := by
  simp only [memWf, Bool.and_eq_true, mapWf_iff, List.all_eq_true, decide_eq_true_eq]
  exact and_assoc

/-- A write inside the memory keeps its canonical form. -/
theorem memWf_memWrite (size : Nat) (m : SMap Byte) (a : Nat) (bs : List Byte) (h : memWf size m = true)
    (hb : bs = [] ∨ a + bs.length ≤ size) : memWf size (memWrite m a bs) = true := by
  rw [memWf_iff] at h ⊢
  obtain ⟨h1, h2, h3⟩ := h
  have hc : ∀ e ∈ memCells a bs, a ≤ e.1 ∧ e.1 < a + bs.length ∧ e.2 ≠ 0 := fun e he => mem_memCells he
  refine ⟨?_, ?_, ?_⟩
  · unfold memWrite
    rw [List.map_append, List.map_append, List.pairwise_append, List.pairwise_append]
    refine ⟨⟨filter_rising _ _ h1, memCells_rising a bs, ?_⟩, filter_rising _ _ h1, ?_⟩
    · intro x hx y hy
      obtain ⟨e, he, rfl⟩ := List.mem_map.1 hx
      obtain ⟨f, hf, rfl⟩ := List.mem_map.1 hy
      have he := (List.mem_filter.1 he).2
      have := hc f hf
      simp only [decide_eq_true_eq] at he
      omega
    · intro x hx y hy
      obtain ⟨f, hf, rfl⟩ := List.mem_map.1 hy
      have hf := (List.mem_filter.1 hf).2
      simp only [decide_eq_true_eq] at hf
      rcases List.mem_append.1 hx with hx | hx
      · obtain ⟨e, he, rfl⟩ := List.mem_map.1 hx
        have he := (List.mem_filter.1 he).2
        simp only [decide_eq_true_eq] at he
        omega
      · obtain ⟨e, he, rfl⟩ := List.mem_map.1 hx
        have := hc e he
        omega
  · intro e he
    simp only [memWrite, List.mem_append, List.mem_filter] at he
    rcases he with (he | he) | he
    · exact h2 e he.1
    · exact (hc e he).2.2
    · exact h2 e he.1
  · intro e he
    simp only [memWrite, List.mem_append, List.mem_filter] at he
    rcases he with (he | he) | he
    · exact h3 e he.1
    · have := hc e he
      rcases hb with hb | hb
      · subst hb
        simp [memCells] at he
      · omega
    · exact h3 e he.1

theorem memByte_append (m m' : SMap Byte) (a : Nat) :
    memByte (m ++ m') a = if m.any (fun e => e.1 = a) then memByte m a else memByte m' a := by
  induction m with
  | nil => simp [memByte]
  | cons e m ih =>
    obtain ⟨j, b⟩ := e
    simp only [memByte] at ih ⊢
    by_cases h : a = j
    · subst h
      simp [mapGet]
    · have h' : j ≠ a := fun x => h x.symm
      simp only [List.cons_append, mapGet, h, if_false, List.any_cons, h', decide_false, Bool.false_or]
      exact ih

theorem memByte_filter (p : Nat → Bool) (m : SMap Byte) (a : Nat) (hp : p a = true) :
    memByte (m.filter fun e => p e.1) a = memByte m a := by
  induction m with
  | nil => rfl
  | cons e m ih =>
    obtain ⟨j, b⟩ := e
    simp only [memByte] at ih ⊢
    by_cases h : a = j
    · subst h
      simp [hp, mapGet]
    · by_cases hj : p j = true
      · simpa [hj, mapGet, h] using ih
      · simpa [hj, mapGet, h] using ih

theorem memByte_none (m : SMap Byte) (a : Nat) (h : ∀ e ∈ m, e.1 ≠ a) : memByte m a = 0 := by
  induction m with
  | nil => rfl
  | cons e m ih =>
    obtain ⟨j, b⟩ := e
    have hj : a ≠ j := fun x => h (j, b) (by simp) x.symm
    simp only [memByte, mapGet, hj, if_false]
    exact ih fun e he => h e (List.mem_cons_of_mem _ he)

theorem memByte_memCells (a : Nat) (bs : List Byte) (i : Nat) : memByte (memCells a bs) (a + i) = bs.getD i 0 := by
  induction bs generalizing a i with
  | nil => simp [memCells, memByte, mapGet]
  | cons b bs ih =>
    unfold memCells
    cases i with
    | zero =>
      split
      · rename_i hb
        rw [memByte_none]
        · simp [hb]
        · intro e he
          have := mem_memCells he
          omega
      · simp [memByte, mapGet]
    | succ i =>
      have h := ih (a + 1) i
      rw [show a + 1 + i = a + (i + 1) by omega] at h
      split
      · simpa using h
      · have hne : a + (i + 1) ≠ a := by omega
        simp only [memByte, mapGet, hne, if_false] at h ⊢
        simpa using h

/-- Outside the bytes written, a memory reads as before. -/
theorem memByte_memWrite_other (m : SMap Byte) (a : Nat) (bs : List Byte) (x : Nat) (h : x < a ∨ a + bs.length ≤ x) :
    memByte (memWrite m a bs) x = memByte m x := by
  unfold memWrite
  rw [List.append_assoc, memByte_append, memByte_append]
  have hc : (memCells a bs).any (fun e => e.1 = x) = false := by
    rw [List.any_eq_false]
    intro e he
    have := mem_memCells he
    simp only [decide_eq_true_eq]
    omega
  rw [hc]
  rcases h with h | h
  · by_cases hx : (m.filter fun e => decide (e.1 < a)).any (fun e => e.1 = x) = true
    · rw [if_pos hx]
      exact memByte_filter (fun y => decide (y < a)) m x (by simpa using h)
    · rw [if_neg hx]
      have h1 : memByte m x = 0 := by
        rw [← memByte_filter (fun y => decide (y < a)) m x (by simpa using h)]
        apply memByte_none
        intro e he hex
        exact hx (List.any_eq_true.2 ⟨e, he, by simpa using hex⟩)
      rw [h1]
      simp only [Bool.false_eq_true, if_false]
      apply memByte_none
      intro e he
      have := (List.mem_filter.1 he).2
      simp only [decide_eq_true_eq] at this
      omega
  · have hx : (m.filter fun e => decide (e.1 < a)).any (fun e => e.1 = x) = false := by
      rw [List.any_eq_false]
      intro e he
      have := (List.mem_filter.1 he).2
      simp only [decide_eq_true_eq] at this ⊢
      omega
    rw [hx]
    simp only [Bool.false_eq_true, if_false]
    exact memByte_filter (fun y => decide (a + bs.length ≤ y)) m x (by simpa using h)

/-- The bytes written are read back. -/
theorem memByte_memWrite_same (m : SMap Byte) (a : Nat) (bs : List Byte) (i : Nat) (h : i < bs.length) :
    memByte (memWrite m a bs) (a + i) = bs.getD i 0 := by
  unfold memWrite
  rw [List.append_assoc, memByte_append, memByte_append]
  have hx : (m.filter fun e => decide (e.1 < a)).any (fun e => e.1 = a + i) = false := by
    rw [List.any_eq_false]
    intro e he
    have := (List.mem_filter.1 he).2
    simp only [decide_eq_true_eq] at this ⊢
    omega
  rw [hx]
  simp only [Bool.false_eq_true, if_false]
  split
  · exact memByte_memCells a bs i
  · rename_i hn
    have h0 : memByte (memCells a bs) (a + i) = 0 := by
      apply memByte_none
      intro e he hex
      exact hn (List.any_eq_true.2 ⟨e, he, by simpa using hex⟩)
    rw [memByte_memCells] at h0
    rw [h0]
    apply memByte_none
    intro e he
    have := (List.mem_filter.1 he).2
    simp only [decide_eq_true_eq] at this
    omega

end Sys2Proof.Machine
end

