-- ==== Sys2Proof/Laws/Fields.lean ====
section
/-! SUPPORT. Register fields: a field written is read back, and every other field of every register reads as before. -/

namespace Sys2Proof.Machine

/-- Bits `[hi:lo]` replaced, bit by bit. -/
theorem testBit_putBits (x hi lo v j : Nat) :
    (putBits x hi lo v).testBit j =
      if lo ≤ j ∧ j < lo + (hi - lo + 1) then v.testBit (j - lo) else x.testBit j := by
  set n := hi - lo + 1 with hn
  have hlow : x % 2 ^ lo < 2 ^ lo := Nat.mod_lt _ (Nat.two_pow_pos lo)
  have hmid : v % 2 ^ n < 2 ^ n := Nat.mod_lt _ (Nat.two_pow_pos n)
  have hx : x = 2 ^ lo * (2 ^ n * (x / 2 ^ lo / 2 ^ n) + x / 2 ^ lo % 2 ^ n) + x % 2 ^ lo := by
    rw [Nat.div_add_mod, Nat.div_add_mod]
  have hp : putBits x hi lo v = 2 ^ lo * (2 ^ n * (x / 2 ^ lo / 2 ^ n) + v % 2 ^ n) + x % 2 ^ lo := by
    unfold putBits
    rw [Nat.shiftRight_eq_div_pow, ← hn]
    have h2 : x - x / 2 ^ lo % 2 ^ n * 2 ^ lo = 2 ^ lo * (2 ^ n * (x / 2 ^ lo / 2 ^ n)) + x % 2 ^ lo := by
      conv_lhs => rw [hx]
      rw [Nat.mul_add]
      have : (2 ^ lo * (2 ^ n * (x / 2 ^ lo / 2 ^ n) + x / 2 ^ lo % 2 ^ n) + x % 2 ^ lo) / 2 ^ lo % 2 ^ n =
          x / 2 ^ lo % 2 ^ n := by rw [← hx]
      rw [Nat.mul_add] at this
      rw [this, Nat.mul_comm (x / 2 ^ lo % 2 ^ n)]
      omega
    show x - x / 2 ^ lo % 2 ^ n * 2 ^ lo + v % 2 ^ n * 2 ^ lo = _
    rw [h2, Nat.mul_add, Nat.mul_comm (v % 2 ^ n)]
    omega
  have hx' : x.testBit j = if j < lo then (x % 2 ^ lo).testBit j
      else if j - lo < n then (x / 2 ^ lo % 2 ^ n).testBit (j - lo) else (x / 2 ^ lo / 2 ^ n).testBit (j - lo - n) := by
    conv_lhs => rw [hx]
    rw [Nat.testBit_two_pow_mul_add _ hlow, Nat.testBit_two_pow_mul_add _ (Nat.mod_lt _ (Nat.two_pow_pos n))]
  rw [hp, Nat.testBit_two_pow_mul_add _ hlow, Nat.testBit_two_pow_mul_add _ hmid, hx']
  by_cases h1 : j < lo
  · simp [h1, Nat.not_le.2 h1]
  · by_cases h2 : j - lo < n
    · have h3 : lo ≤ j ∧ j < lo + n := by omega
      simp [h1, h2, h3, Nat.testBit_mod_two_pow]
    · have h3 : ¬ (lo ≤ j ∧ j < lo + n) := by omega
      simp [h1, h2, h3]

/-- Bits written are read back. -/
theorem bits_putBits_same (x hi lo v : Nat) : (putBits x hi lo v >>> lo) % 2 ^ (hi - lo + 1) = v % 2 ^ (hi - lo + 1) := by
  apply Nat.eq_of_testBit_eq
  intro j
  rw [Nat.testBit_mod_two_pow, Nat.testBit_mod_two_pow, Nat.testBit_shiftRight, testBit_putBits]
  by_cases h : j < hi - lo + 1
  · have : lo ≤ lo + j ∧ lo + j < lo + (hi - lo + 1) := by omega
    simp [h, this]
  · simp [h]

/-- Bits of a disjoint field read as before. -/
theorem bits_putBits_other (x v : Nat) {hi lo hi' lo' : Nat} (h : hi < lo' ∨ hi' < lo) (hle : lo ≤ hi) (hle' : lo' ≤ hi') :
    (putBits x hi lo v >>> lo') % 2 ^ (hi' - lo' + 1) = (x >>> lo') % 2 ^ (hi' - lo' + 1) := by
  apply Nat.eq_of_testBit_eq
  intro j
  rw [Nat.testBit_mod_two_pow, Nat.testBit_mod_two_pow, Nat.testBit_shiftRight, Nat.testBit_shiftRight, testBit_putBits]
  by_cases hj : j < hi' - lo' + 1
  · have : ¬ (lo ≤ lo' + j ∧ lo' + j < lo + (hi - lo + 1)) := by omega
    simp [this]
  · simp [hj]

/-- Registers are told apart by their number. -/
theorem Reg.eq_of_ctorIdx {r r' : Reg} (h : r.ctorIdx = r'.ctorIdx) : r = r' := by
  have := congrArg Reg.ofNat h
  simpa [Reg.ofNat_ctorIdx] using this

/-- Keys of registers and copies differ where either differs. -/
theorem regKey_ne {r r' : Reg} {i i' : Nat} (h : r ≠ r' ∨ i % regCopies ≠ i' % regCopies) : regKey r i ≠ regKey r' i' := by
  have hi : i % regCopies < regCopies := Nat.mod_lt _ (by decide)
  have hi' : i' % regCopies < regCopies := Nat.mod_lt _ (by decide)
  intro he
  unfold regKey at he
  have hc : r.ctorIdx = r'.ctorIdx := by
    have h1 := congrArg (· / regCopies) he
    simp only [Nat.mul_comm _ regCopies, Nat.mul_add_div (show 0 < regCopies by decide), Nat.div_eq_of_lt hi,
      Nat.div_eq_of_lt hi', Nat.add_zero] at h1
    exact h1
  rcases h with h | h
  · exact h (Reg.eq_of_ctorIdx hc)
  · rw [hc] at he
    omega

/-- A field written is read back. -/
theorem fld_setFld_same (d : Dev) (f : Fld) (i : Nat) (g : Nat → Nat) :
    (d.setFld f i g).fld f i = g (d.fld f i) % 2 ^ (f.hi - f.lo + 1) := by
  simp only [Dev.fld, Dev.reg, Dev.setFld, setReg, mapGet_mapSet_same]
  exact bits_putBits_same _ _ _ _

/-- Registers and copies other than the one written read as before. -/
theorem reg_setFld_other (d : Dev) (f : Fld) (i : Nat) (g : Nat → Nat) {r : Reg} {j : Nat}
    (h : r ≠ f.reg ∨ j % regCopies ≠ i % regCopies) : (d.setFld f i g).reg r j = d.reg r j := by
  simp only [Dev.reg, Dev.setFld, setReg]
  exact mapGet_mapSet_other _ _ _ (regKey_ne h)

/-- Fields of other registers or copies, and other fields of the same one, read as before. -/
theorem fld_setFld_other (d : Dev) (f : Fld) (i : Nat) (g : Nat → Nat) {f' : Fld} {j : Nat}
    (h : f'.reg ≠ f.reg ∨ j % regCopies ≠ i % regCopies ∨ ((f.hi < f'.lo ∨ f'.hi < f.lo) ∧ f.lo ≤ f.hi ∧ f'.lo ≤ f'.hi)) :
    (d.setFld f i g).fld f' j = d.fld f' j := by
  by_cases hr : f'.reg ≠ f.reg ∨ j % regCopies ≠ i % regCopies
  · simp only [Dev.fld, reg_setFld_other d f i g hr]
  · push Not at hr
    obtain ⟨hr1, hr2⟩ := hr
    have hb : (f.hi < f'.lo ∨ f'.hi < f.lo) ∧ f.lo ≤ f.hi ∧ f'.lo ≤ f'.hi := by
      rcases h with h | h | h
      · exact absurd hr1 h
      · exact absurd hr2 h
      · exact h
    have hk : regKey f'.reg j = regKey f.reg i := by simp [regKey, hr1, hr2]
    simp only [Dev.fld, Dev.reg, Dev.setFld, setReg, hk, mapGet_mapSet_same]
    exact bits_putBits_other _ _ hb.1 hb.2.1 hb.2.2

/-- The whole register after a write of one of its fields. -/
theorem reg_setFld_same (d : Dev) (f : Fld) (i : Nat) (g : Nat → Nat) :
    (d.setFld f i g).reg f.reg i = putBits (d.reg f.reg i) f.hi f.lo (g (d.fld f i)) := by
  simp only [Dev.reg, Dev.setFld, setReg, mapGet_mapSet_same]

end Sys2Proof.Machine
end

