-- ==== Sys2Proof/Laws/Net.lean ====
section
/-! SUPPORT. What sending can do: the router, the chain and events change registers, ports, the router's state, the chain's state and the
outbox, and nothing else; what was sent stays sent. -/

namespace Sys2Proof.Machine

/-- The module without registers, ports, router, chain and outbox. -/
def Dev.still (d : Dev) : Dev := { d with regs := [], ports := [], route := .init, chain := .init, outbox := [] }

/-- `d'` differs from `d` in registers, ports, router and chain alone, its outbox goes on from that of `d`, and canonical families stay
canonical. -/
structure Net (d d' : Dev) : Prop where
  same : d'.still = d.still
  sent : d.outbox <+: d'.outbox
  regs : mapWf regDefault d.regs = true → mapWf regDefault d'.regs = true
  ports : mapWf (fun _ => PortSt.init) d.ports = true → mapWf (fun _ => PortSt.init) d'.ports = true

theorem Net.refl (d : Dev) : Net d d := ⟨rfl, List.prefix_rfl, id, id⟩

theorem Net.trans {d d' d'' : Dev} (h : Net d d') (h' : Net d' d'') : Net d d'' :=
  ⟨h'.same.trans h.same, h.sent.trans h'.sent, h'.regs ∘ h.regs, h'.ports ∘ h.ports⟩

theorem net_setFld (d : Dev) (f : Fld) (i : Nat) (g : Nat → Nat) : Net d (d.setFld f i g) :=
  ⟨rfl, List.prefix_rfl, mapWf_mapSet _ _ _ _, id⟩

theorem net_onPort (d : Dev) (p : Nat) (g : PortSt → PortSt) : Net d (d.onPort p g) :=
  ⟨rfl, List.prefix_rfl, id, mapWf_mapSet _ _ _ _⟩

theorem net_emit (d : Dev) (m : Msg) : Net d (d.emit m) := ⟨rfl, List.prefix_append _ _, id, id⟩

theorem net_route (d : Dev) (r : RouteSt) : Net d { d with route := r } := ⟨rfl, List.prefix_rfl, id, id⟩

theorem net_chain (d : Dev) (c : ChainSt) : Net d { d with chain := c } := ⟨rfl, List.prefix_rfl, id, id⟩

theorem Net.setFld {e d : Dev} (h : Net e d) (f : Fld) (i : Nat) (g : Nat → Nat) : Net e (d.setFld f i g) := h.trans (net_setFld _ _ _ _)
theorem Net.onPort {e d : Dev} (h : Net e d) (p : Nat) (g : PortSt → PortSt) : Net e (d.onPort p g) := h.trans (net_onPort _ _ _)
theorem Net.emit {e d : Dev} (h : Net e d) (m : Msg) : Net e (d.emit m) := h.trans (net_emit _ _)
theorem Net.ite {e a b : Dev} (c : Bool) (ha : Net e a) (hb : Net e b) : Net e (if c = true then a else b) := by
  split
  · exact ha
  · exact hb

/-! ### Events and own requests -/

theorem net_ask (d : Dev) (b : OwnReq) (m : BitVec 10 → Msg) : Net d (d.ask b m) :=
  (net_chain d _).trans (net_emit _ _)

theorem net_sendEvents (n : Nat) (d : Dev) : Net d (d.sendEvents n) := by
  induction n generalizing d with
  | zero => exact Net.refl d
  | succ n ih =>
    unfold Dev.sendEvents
    split
    · exact Net.refl d
    · split
      · exact Net.refl d
      · exact ((net_chain d _).trans (net_ask _ _ _)).trans (ih _)

theorem net_raise (d : Dev) (k : Nat) (b : List Byte) : Net d (d.raise k b) := by
  unfold Dev.raise
  split
  · exact ((net_setFld _ _ _ _).trans (net_setFld _ _ _ _)).trans (net_setFld _ _ _ _)
  · exact (((net_setFld _ _ _ _).trans (net_setFld _ _ _ _)).trans (net_chain _ _)).trans (net_sendEvents _ _)

/-! ### The router -/

theorem Net.freeBuffer {e d : Dev} (h : Net e d) (q : Queued) : Net e (d.freeBuffer q) := by
  unfold Dev.freeBuffer
  split
  · exact h.onPort _ _
  · exact h

theorem Net.countIf {e d : Dev} (h : Net e d) (b : Bool) (f : Fld) (i : Nat) : Net e (d.countIf b f i) := by
  unfold Dev.countIf
  split
  · exact h.setFld _ _ _
  · exact h

theorem net_startPacket (d : Dev) (o : Nat) (e : Nat × Queued) : Net d (d.startPacket o e) :=
  (((((net_onPort _ _ _).freeBuffer _).setFld _ _ _).countIf _ _ _).countIf _ _ _).emit _

theorem net_pumpPort (o n : Nat) (d : Dev) : Net d (d.pumpPort o n) := by
  induction n generalizing d with
  | zero => exact Net.refl d
  | succ n ih =>
    unfold Dev.pumpPort
    split
    · exact (net_startPacket d o _).trans (ih _)
    · exact Net.refl d

theorem net_pumpPorts (d : Dev) : Net d d.pumpPorts := by
  unfold Dev.pumpPorts
  have h : ∀ (l : List Nat) (d : Dev), Net d (l.foldl (fun d o => d.pumpPort o (d.port o).queue.length) d) := by
    intro l
    induction l with
    | nil => exact fun d => Net.refl d
    | cons a l ih => exact fun d => (net_pumpPort a _ d).trans (ih _)
  exact h _ d

theorem net_countDrop (d : Dev) (c b : Fld) : Net d (d.countDrop c b) :=
  ((net_setFld _ _ _ _).trans (net_setFld _ _ _ _)).trans (net_setFld _ _ _ _)

theorem net_discard (d : Dev) (h : NextHop) (q : Queued) : Net d (d.discard h q) := by
  unfold Dev.discard
  have hq : Net d (d.freeBuffer q) := (Net.refl d).freeBuffer q
  cases h with
  | unreach =>
    dsimp only
    split
    · exact (hq.trans (net_countDrop _ _ _)).trans (net_route _ _)
    · exact hq.trans (net_countDrop _ _ _)
  | badEpoch => exact hq.trans (net_countDrop _ _ _)
  | noRole => exact hq.trans (net_countDrop _ _ _)
  | _ => exact hq

theorem net_routePacket (d : Dev) (q : Queued) : Net d (d.routePacket q) := by
  unfold Dev.routePacket
  split
  · exact net_onPort _ _ _
  · split
    · exact (net_onPort _ _ _).trans (net_emit _ _)
    · exact Net.refl _
  · exact net_route _ _
  · exact net_discard _ _ _

theorem net_noteStart (d : Dev) (p : Packet) : Net d (d.noteStart p) := by
  unfold Dev.noteStart
  split
  · exact Net.refl _
  · exact net_route _ _

theorem net_release (ps : List Packet) : ∀ (kept : List Packet) (d : Dev), Net d (d.release kept ps) := by
  induction ps with
  | nil => exact fun _ d => net_route d _
  | cons p ps ih =>
    intro kept d
    unfold Dev.release
    dsimp only
    split
    · exact ih _ _
    · exact ((net_noteStart _ _).trans (net_routePacket _ _)).trans (ih _ _)

theorem net_pump (d : Dev) : Net d d.pump := by
  unfold Dev.pump
  dsimp only
  have h := net_release d.route.waiting [] d
  split
  · exact h.trans (net_pumpPorts _)
  · exact (h.setFld _ _ _).trans (net_pumpPorts _)

/-- Injecting a packet. -/
theorem net_inject (d : Dev) (p : Packet) : Net d (d.inject p) := by
  unfold Dev.inject
  dsimp only
  split
  · exact net_emit _ _
  · exact ((net_emit _ _).trans (net_route _ _)).trans (net_pump _)

end Sys2Proof.Machine
end

