-- ==== Sys2Proof/Laws/Ops.lean ====
section
/-! SUPPORT. Acts and updates: how acts compose, that every command runs one act, and that every update keeps canonical families and what
was sent. -/

namespace Sys2Proof.Machine

/-! ### Composition -/

@[simp] theorem applyAll_nil (d : Dev) : applyAll [] d = d := rfl
@[simp] theorem applyAll_cons (u : Upd) (us : List Upd) (d : Dev) : applyAll (u :: us) d = applyAll us (u.apply d) := rfl
@[simp] theorem applyAll_append (us vs : List Upd) (d : Dev) : applyAll (us ++ vs) d = applyAll vs (applyAll us d) := by
  simp [applyAll, List.foldl_append]

theorem runAct_eq (a : Act) (d : Dev) : runAct a d = applyAll (a d) d := rfl
@[simp] theorem runAct_list (us : List Upd) (d : Dev) : runAct (fun _ => us) d = applyAll us d := rfl
@[simp] theorem runAct_noAct (d : Dev) : runAct noAct d = d := rfl
@[simp] theorem runAct_inSequence_nil (d : Dev) : runAct (inSequence []) d = d := rfl
@[simp] theorem runAct_inSequence_cons (a : Act) (as : List Act) (d : Dev) :
    runAct (inSequence (a :: as)) d = runAct (inSequence as) (runAct a d) := by
  simp [runAct, inSequence]
@[simp] theorem runAct_onlyIf_true (a : Act) (d : Dev) : runAct (onlyIf true a) d = runAct a d := rfl
@[simp] theorem runAct_onlyIf_false (a : Act) (d : Dev) : runAct (onlyIf false a) d = d := rfl

/-- A powered command runs its act. -/
theorem runAct_onPower {a : Act} {d : Dev} (h : d.running = true) : runAct (onPower a) d = runAct (settled a) d := by
  simp [runAct, onPower, h]

/-- A module that does not run is left alone. -/
theorem runAct_onPower_off {a : Act} {d : Dev} (h : d.running = false) : runAct (onPower a) d = d := by
  simp [runAct, onPower, h]

/-- With no discarded packet noted, nothing is fenced. -/
theorem runAct_fenceLost {d : Dev} (h : d.route.lost = []) : runAct fenceLost d = d := by
  simp [runAct, fenceLost, h]

/-- Every command runs one act on the module; it never faults or refuses. -/
theorem exec_perform (i : Instr) (s : State) : ∃ a, exec i s = perform a s := by
  cases i <;> exact ⟨_, rfl⟩

/-! ### Canonical families -/

theorem Net.canonical {d d' : Dev} (h : Net d d') (c : d.Canonical) : d'.Canonical := by
  have e := h.same
  simp only [Dev.still, Dev.mk.injEq] at e
  obtain ⟨-, -, e1, e2, -, -, -, -, -, e3, -, -, -, -, -, -, e4, e5, e6, e7, -, -, -, -, -, -, -, -, -, -, -, -, e8, e9, -, e10, -, -⟩ := e
  exact { regs := h.regs c.regs, hbm := e1 ▸ c.hbm, spm := e2 ▸ c.spm, chans := e3 ▸ c.chans, cores := e4 ▸ c.cores,
          clusters := e5 ▸ c.clusters, rings := e6 ▸ c.rings, slices := e7 ▸ c.slices, ports := h.ports c.ports,
          snapPend := e8 ▸ c.snapPend, snapPub := e9 ▸ c.snapPub, frozen := fun r g hf => c.frozen r g (e10 ▸ hf) }

/-- What a loss left in the scratchpads has the length of what was there. -/
theorem length_spmVeil (d : Dev) (a : Nat) (bs : List Byte) : (d.spmVeil a bs).length = bs.length := by
  unfold Dev.spmVeil
  split
  · rfl
  · simp

theorem canonical_hbm {d : Dev} (c : d.Canonical) (a : Nat) (bs : List Byte) :
    memWf hbmSize (memWrite d.hbm a (bs.take (hbmSize - a))) = true := by
  apply memWf_memWrite _ _ _ _ c.hbm
  by_cases h : a ≤ hbmSize
  · right
    have := List.length_take_le (hbmSize - a) bs
    omega
  · left
    rw [show hbmSize - a = 0 by omega, List.take_zero]

theorem canonical_spm {d : Dev} (c : d.Canonical) (k a : Nat) (hk : k < coreCount) (bs : List Byte) :
    memWf (coreCount * spmSize) (memWrite d.spm (k * spmSize + a) (d.spmVeil (k * spmSize + a) (bs.take (spmSize - a)))) = true := by
  apply memWf_memWrite _ _ _ _ c.spm
  rw [length_spmVeil]
  by_cases h : a ≤ spmSize
  · right
    have := List.length_take_le (spmSize - a) bs
    have h2 : (k + 1) * spmSize ≤ coreCount * spmSize := Nat.mul_le_mul_right _ hk
    rw [Nat.add_mul, Nat.one_mul] at h2
    omega
  · left
    rw [show spmSize - a = 0 by omega, List.take_zero]
    exact List.eq_nil_of_length_eq_zero (by rw [length_spmVeil]; rfl)

theorem mapWf_foldl_mapSet {α : Type} [DecidableEq α] (d : Nat → α) (f : Nat → α) (ks : List Nat) (m : SMap α)
    (h : mapWf d m = true) : mapWf d (ks.foldl (fun m k => mapSet d k (f k) m) m) = true := by
  induction ks generalizing m with
  | nil => exact h
  | cons k ks ih => exact ih _ (mapWf_mapSet d k _ m h)

theorem net_foldl_setFld (fs : List Fld) (g : Fld → Nat) (d : Dev) :
    Net d (fs.foldl (fun b f => b.setFld f 0 fun _ => g f) d) := by
  induction fs generalizing d with
  | nil => exact Net.refl d
  | cons f fs ih => exact (net_setFld _ _ _ _).trans (ih _)

/-- A reset leaves canonical families, and what was sent. -/
theorem canonical_restart {d : Dev} (c : d.Canonical) (warm : Bool) : (d.restart warm).Canonical := by
  have hb : (d.restartBase warm).Canonical :=
    { regs := mapWf_filter _ _ _ c.regs, hbm := c.hbm, spm := rfl, chans := rfl, cores := rfl, clusters := rfl, rings := rfl,
      slices := rfl, ports := rfl, snapPend := rfl, snapPub := rfl, frozen := fun _ _ h => nomatch h }
  exact (net_foldl_setFld _ (fun f => d.fld f) _).canonical hb

theorem sent_restart (d : Dev) (warm : Bool) : d.outbox <+: (d.restart warm).outbox :=
  (net_foldl_setFld _ (fun f => d.fld f) (d.restartBase warm)).sent

/-- Every update keeps canonical families. -/
theorem canonical_apply {d : Dev} (c : d.Canonical) (u : Upd) : (u.apply d).Canonical := by
  cases u with
  | fld f i g => exact (net_setFld d f i g).canonical c
  | hbm a bs => exact { c with hbm := canonical_hbm c a bs }
  | spm k a bs =>
    simp only [Upd.apply]
    split
    · rename_i hk
      exact { c with spm := canonical_spm c k a hk bs }
    · exact c
  | core k g => exact { c with cores := mapWf_mapSet _ _ _ _ c.cores }
  | cores g => exact { c with cores := mapWf_mapAll _ _ _ c.cores }
  | cluster k g => exact { c with clusters := mapWf_mapSet _ _ _ _ c.clusters }
  | ring k g => exact { c with rings := mapWf_mapSet _ _ _ _ c.rings }
  | slice i g => exact { c with slices := mapWf_mapSet _ _ _ _ c.slices }
  | chan k g => exact { c with chans := mapWf_mapSet _ _ _ _ c.chans }
  | snapLatch info ks => exact { c with snapPend := mapWf_foldl_mapSet _ _ _ _ rfl }
  | snapPublish => exact { c with snapPub := c.snapPend }
  | event k b => exact (net_raise d k b).canonical c
  | send m => exact (net_emit d m).canonical c
  | inject p => exact (net_inject d p).canonical c
  | port p g => exact (net_onPort d p g).canonical c
  | sendEvents => exact (net_sendEvents _ d).canonical c
  | ask b m => exact (net_ask d b m).canonical c
  | pump => exact (net_pump d).canonical c
  | routed q => exact (net_routePacket d q).canonical c
  | restart warm => exact canonical_restart c warm
  | hbmZero => exact { c with hbm := rfl }
  | loseSpm => exact { c with spm := rfl }
  | freeze on =>
    cases on
    · exact { c with frozen := fun _ _ h => nomatch h }
    · have hf : ∀ r g, (some (d.regs, d.gcnt) : Option (SMap Nat × BitVec 64)) = some (r, g) → mapWf regDefault r = true := by
        intro r g h
        cases h
        exact c.regs
      exact { c with frozen := hf }
  | _ => exact { c with }

/-- Every update leaves what was sent. -/
theorem sent_apply (u : Upd) (d : Dev) : d.outbox <+: (u.apply d).outbox := by
  cases u with
  | fld f i g => exact (net_setFld d f i g).sent
  | spm k a bs =>
    simp only [Upd.apply]
    split <;> exact List.prefix_rfl
  | event k b => exact (net_raise d k b).sent
  | send m => exact (net_emit d m).sent
  | inject p => exact (net_inject d p).sent
  | port p g => exact (net_onPort d p g).sent
  | sendEvents => exact (net_sendEvents _ d).sent
  | ask b m => exact (net_ask d b m).sent
  | pump => exact (net_pump d).sent
  | routed q => exact (net_routePacket d q).sent
  | restart warm => exact sent_restart d warm
  | _ => exact List.prefix_rfl

theorem canonical_applyAll (us : List Upd) {d : Dev} (c : d.Canonical) : (applyAll us d).Canonical := by
  induction us generalizing d with
  | nil => exact c
  | cons u us ih => exact ih (canonical_apply c u)

theorem sent_applyAll (us : List Upd) (d : Dev) : d.outbox <+: (applyAll us d).outbox := by
  induction us generalizing d with
  | nil => exact List.prefix_rfl
  | cons u us ih => exact (sent_apply u d).trans (ih _)

end Sys2Proof.Machine
end

