-- ==== Sys2Proof/Laws/State.lean ====
section
/-! SUPPORT. Updates, field by field: what each primitive update leaves of each part of the module. A proof reads a part of the module after
an update by these, and unfolds no update. -/

namespace Sys2Proof.Machine

/-! ### Parts of the module as functions of its fields -/

/-- A register field, of the register file alone. -/
def fieldIn (m : SMap Nat) (f : Fld) (i : Nat) : Nat := (mapGet regDefault m (regKey f.reg i) >>> f.lo) % 2 ^ (f.hi - f.lo + 1)

theorem fld_eq (d : Dev) (f : Fld) (i : Nat) : d.fld f i = fieldIn d.regs f i := rfl
theorem reg_eq (d : Dev) (r : Reg) (i : Nat) : d.reg r i = mapGet regDefault d.regs (regKey r i) := rfl

/-- The register file with one field written. -/
def putField (m : SMap Nat) (f : Fld) (i : Nat) (g : Nat → Nat) : SMap Nat :=
  mapSet regDefault (regKey f.reg i) (putBits (mapGet regDefault m (regKey f.reg i)) f.hi f.lo (g (fieldIn m f i))) m

@[simp] theorem setFld_regs (d : Dev) (f : Fld) (i : Nat) (g : Nat → Nat) : (d.setFld f i g).regs = putField d.regs f i g := rfl

@[simp] theorem fieldIn_putField_same (m : SMap Nat) (f : Fld) (i : Nat) (g : Nat → Nat) :
    fieldIn (putField m f i g) f i = g (fieldIn m f i) % 2 ^ (f.hi - f.lo + 1) :=
  fld_setFld_same { Dev.reset with regs := m } f i g

/-- A field of another register reads as before. -/
theorem fieldIn_putField_reg (m : SMap Nat) {f f' : Fld} (i j : Nat) (g : Nat → Nat) (h : f'.reg ≠ f.reg) :
    fieldIn (putField m f i g) f' j = fieldIn m f' j :=
  fld_setFld_other { Dev.reset with regs := m } f i g (.inl h)

/-- A field of another copy reads as before. -/
theorem fieldIn_putField_copy (m : SMap Nat) {f f' : Fld} {i j : Nat} (g : Nat → Nat) (h : j % regCopies ≠ i % regCopies) :
    fieldIn (putField m f i g) f' j = fieldIn m f' j :=
  fld_setFld_other { Dev.reset with regs := m } f i g (.inr (.inl h))

/-- A field of other bits reads as before. -/
theorem fieldIn_putField_bits (m : SMap Nat) {f f' : Fld} (i j : Nat) (g : Nat → Nat)
    (h : (f.hi < f'.lo ∨ f'.hi < f.lo) ∧ f.lo ≤ f.hi ∧ f'.lo ≤ f'.hi) :
    fieldIn (putField m f i g) f' j = fieldIn m f' j :=
  fld_setFld_other { Dev.reset with regs := m } f i g (.inr (.inr h))

/-- Another register reads as before. -/
theorem mapGet_putField (m : SMap Nat) (f : Fld) (i : Nat) (g : Nat → Nat) {r : Reg} {j : Nat}
    (h : r ≠ f.reg ∨ j % regCopies ≠ i % regCopies) : mapGet regDefault (putField m f i g) (regKey r j) = mapGet regDefault m (regKey r j) :=
  reg_setFld_other { Dev.reset with regs := m } f i g h

/-! ### Writing one register field -/

@[simp] theorem setFld_gcnt (d : Dev) (f : Fld) (i : Nat) (g : Nat → Nat) : (d.setFld f i g).gcnt = d.gcnt := rfl
@[simp] theorem setFld_hbm (d : Dev) (f : Fld) (i : Nat) (g : Nat → Nat) : (d.setFld f i g).hbm = d.hbm := rfl
@[simp] theorem setFld_spm (d : Dev) (f : Fld) (i : Nat) (g : Nat → Nat) : (d.setFld f i g).spm = d.spm := rfl
@[simp] theorem setFld_hbmBad (d : Dev) (f : Fld) (i : Nat) (g : Nat → Nat) : (d.setFld f i g).hbmBad = d.hbmBad := rfl
@[simp] theorem setFld_hbmMarks (d : Dev) (f : Fld) (i : Nat) (g : Nat → Nat) : (d.setFld f i g).hbmMarks = d.hbmMarks := rfl
@[simp] theorem setFld_spmMarks (d : Dev) (f : Fld) (i : Nat) (g : Nat → Nat) : (d.setFld f i g).spmMarks = d.spmMarks := rfl
@[simp] theorem setFld_spmParity (d : Dev) (f : Fld) (i : Nat) (g : Nat → Nat) : (d.setFld f i g).spmParity = d.spmParity := rfl
@[simp] theorem setFld_repair (d : Dev) (f : Fld) (i : Nat) (g : Nat → Nat) : (d.setFld f i g).repair = d.repair := rfl
@[simp] theorem setFld_chans (d : Dev) (f : Fld) (i : Nat) (g : Nat → Nat) : (d.setFld f i g).chans = d.chans := rfl
@[simp] theorem setFld_regions (d : Dev) (f : Fld) (i : Nat) (g : Nat → Nat) : (d.setFld f i g).regions = d.regions := rfl
@[simp] theorem setFld_codecTables (d : Dev) (f : Fld) (i : Nat) (g : Nat → Nat) : (d.setFld f i g).codecTables = d.codecTables := rfl
@[simp] theorem setFld_digestK (d : Dev) (f : Fld) (i : Nat) (g : Nat → Nat) : (d.setFld f i g).digestK = d.digestK := rfl
@[simp] theorem setFld_digests (d : Dev) (f : Fld) (i : Nat) (g : Nat → Nat) : (d.setFld f i g).digests = d.digests := rfl
@[simp] theorem setFld_schedLib (d : Dev) (f : Fld) (i : Nat) (g : Nat → Nat) : (d.setFld f i g).schedLib = d.schedLib := rfl
@[simp] theorem setFld_syncLib (d : Dev) (f : Fld) (i : Nat) (g : Nat → Nat) : (d.setFld f i g).syncLib = d.syncLib := rfl
@[simp] theorem setFld_cores (d : Dev) (f : Fld) (i : Nat) (g : Nat → Nat) : (d.setFld f i g).cores = d.cores := rfl
@[simp] theorem setFld_clusters (d : Dev) (f : Fld) (i : Nat) (g : Nat → Nat) : (d.setFld f i g).clusters = d.clusters := rfl
@[simp] theorem setFld_rings (d : Dev) (f : Fld) (i : Nat) (g : Nat → Nat) : (d.setFld f i g).rings = d.rings := rfl
@[simp] theorem setFld_slices (d : Dev) (f : Fld) (i : Nat) (g : Nat → Nat) : (d.setFld f i g).slices = d.slices := rfl
@[simp] theorem setFld_commit (d : Dev) (f : Fld) (i : Nat) (g : Nat → Nat) : (d.setFld f i g).commit = d.commit := rfl
@[simp] theorem setFld_vault (d : Dev) (f : Fld) (i : Nat) (g : Nat → Nat) : (d.setFld f i g).vault = d.vault := rfl
@[simp] theorem setFld_chain (d : Dev) (f : Fld) (i : Nat) (g : Nat → Nat) : (d.setFld f i g).chain = d.chain := rfl
@[simp] theorem setFld_ports (d : Dev) (f : Fld) (i : Nat) (g : Nat → Nat) : (d.setFld f i g).ports = d.ports := rfl
@[simp] theorem setFld_route (d : Dev) (f : Fld) (i : Nat) (g : Nat → Nat) : (d.setFld f i g).route = d.route := rfl
@[simp] theorem setFld_svc (d : Dev) (f : Fld) (i : Nat) (g : Nat → Nat) : (d.setFld f i g).svc = d.svc := rfl
@[simp] theorem setFld_start (d : Dev) (f : Fld) (i : Nat) (g : Nat → Nat) : (d.setFld f i g).start = d.start := rfl
@[simp] theorem setFld_secure (d : Dev) (f : Fld) (i : Nat) (g : Nat → Nat) : (d.setFld f i g).secure = d.secure := rfl
@[simp] theorem setFld_power (d : Dev) (f : Fld) (i : Nat) (g : Nat → Nat) : (d.setFld f i g).power = d.power := rfl
@[simp] theorem setFld_board (d : Dev) (f : Fld) (i : Nat) (g : Nat → Nat) : (d.setFld f i g).board = d.board := rfl
@[simp] theorem setFld_servo (d : Dev) (f : Fld) (i : Nat) (g : Nat → Nat) : (d.setFld f i g).servo = d.servo := rfl
@[simp] theorem setFld_snapInfo (d : Dev) (f : Fld) (i : Nat) (g : Nat → Nat) : (d.setFld f i g).snapInfo = d.snapInfo := rfl
@[simp] theorem setFld_snapPend (d : Dev) (f : Fld) (i : Nat) (g : Nat → Nat) : (d.setFld f i g).snapPend = d.snapPend := rfl
@[simp] theorem setFld_snapPub (d : Dev) (f : Fld) (i : Nat) (g : Nat → Nat) : (d.setFld f i g).snapPub = d.snapPub := rfl
@[simp] theorem setFld_spmLost (d : Dev) (f : Fld) (i : Nat) (g : Nat → Nat) : (d.setFld f i g).spmLost = d.spmLost := rfl
@[simp] theorem setFld_frozen (d : Dev) (f : Fld) (i : Nat) (g : Nat → Nat) : (d.setFld f i g).frozen = d.frozen := rfl
@[simp] theorem setFld_outbox (d : Dev) (f : Fld) (i : Nat) (g : Nat → Nat) : (d.setFld f i g).outbox = d.outbox := rfl
@[simp] theorem setFld_freeCtr (d : Dev) (f : Fld) (i : Nat) (g : Nat → Nat) : (d.setFld f i g).freeCtr = d.freeCtr := rfl

/-! ### Changing a port -/

@[simp] theorem onPort_regs (d : Dev) (p : Nat) (g : PortSt → PortSt) : (d.onPort p g).regs = d.regs := rfl
@[simp] theorem onPort_gcnt (d : Dev) (p : Nat) (g : PortSt → PortSt) : (d.onPort p g).gcnt = d.gcnt := rfl
@[simp] theorem onPort_hbm (d : Dev) (p : Nat) (g : PortSt → PortSt) : (d.onPort p g).hbm = d.hbm := rfl
@[simp] theorem onPort_spm (d : Dev) (p : Nat) (g : PortSt → PortSt) : (d.onPort p g).spm = d.spm := rfl
@[simp] theorem onPort_hbmBad (d : Dev) (p : Nat) (g : PortSt → PortSt) : (d.onPort p g).hbmBad = d.hbmBad := rfl
@[simp] theorem onPort_hbmMarks (d : Dev) (p : Nat) (g : PortSt → PortSt) : (d.onPort p g).hbmMarks = d.hbmMarks := rfl
@[simp] theorem onPort_spmMarks (d : Dev) (p : Nat) (g : PortSt → PortSt) : (d.onPort p g).spmMarks = d.spmMarks := rfl
@[simp] theorem onPort_spmParity (d : Dev) (p : Nat) (g : PortSt → PortSt) : (d.onPort p g).spmParity = d.spmParity := rfl
@[simp] theorem onPort_repair (d : Dev) (p : Nat) (g : PortSt → PortSt) : (d.onPort p g).repair = d.repair := rfl
@[simp] theorem onPort_chans (d : Dev) (p : Nat) (g : PortSt → PortSt) : (d.onPort p g).chans = d.chans := rfl
@[simp] theorem onPort_regions (d : Dev) (p : Nat) (g : PortSt → PortSt) : (d.onPort p g).regions = d.regions := rfl
@[simp] theorem onPort_codecTables (d : Dev) (p : Nat) (g : PortSt → PortSt) : (d.onPort p g).codecTables = d.codecTables := rfl
@[simp] theorem onPort_digestK (d : Dev) (p : Nat) (g : PortSt → PortSt) : (d.onPort p g).digestK = d.digestK := rfl
@[simp] theorem onPort_digests (d : Dev) (p : Nat) (g : PortSt → PortSt) : (d.onPort p g).digests = d.digests := rfl
@[simp] theorem onPort_schedLib (d : Dev) (p : Nat) (g : PortSt → PortSt) : (d.onPort p g).schedLib = d.schedLib := rfl
@[simp] theorem onPort_syncLib (d : Dev) (p : Nat) (g : PortSt → PortSt) : (d.onPort p g).syncLib = d.syncLib := rfl
@[simp] theorem onPort_cores (d : Dev) (p : Nat) (g : PortSt → PortSt) : (d.onPort p g).cores = d.cores := rfl
@[simp] theorem onPort_clusters (d : Dev) (p : Nat) (g : PortSt → PortSt) : (d.onPort p g).clusters = d.clusters := rfl
@[simp] theorem onPort_rings (d : Dev) (p : Nat) (g : PortSt → PortSt) : (d.onPort p g).rings = d.rings := rfl
@[simp] theorem onPort_slices (d : Dev) (p : Nat) (g : PortSt → PortSt) : (d.onPort p g).slices = d.slices := rfl
@[simp] theorem onPort_commit (d : Dev) (p : Nat) (g : PortSt → PortSt) : (d.onPort p g).commit = d.commit := rfl
@[simp] theorem onPort_vault (d : Dev) (p : Nat) (g : PortSt → PortSt) : (d.onPort p g).vault = d.vault := rfl
@[simp] theorem onPort_chain (d : Dev) (p : Nat) (g : PortSt → PortSt) : (d.onPort p g).chain = d.chain := rfl
@[simp] theorem onPort_route (d : Dev) (p : Nat) (g : PortSt → PortSt) : (d.onPort p g).route = d.route := rfl
@[simp] theorem onPort_svc (d : Dev) (p : Nat) (g : PortSt → PortSt) : (d.onPort p g).svc = d.svc := rfl
@[simp] theorem onPort_start (d : Dev) (p : Nat) (g : PortSt → PortSt) : (d.onPort p g).start = d.start := rfl
@[simp] theorem onPort_secure (d : Dev) (p : Nat) (g : PortSt → PortSt) : (d.onPort p g).secure = d.secure := rfl
@[simp] theorem onPort_power (d : Dev) (p : Nat) (g : PortSt → PortSt) : (d.onPort p g).power = d.power := rfl
@[simp] theorem onPort_board (d : Dev) (p : Nat) (g : PortSt → PortSt) : (d.onPort p g).board = d.board := rfl
@[simp] theorem onPort_servo (d : Dev) (p : Nat) (g : PortSt → PortSt) : (d.onPort p g).servo = d.servo := rfl
@[simp] theorem onPort_snapInfo (d : Dev) (p : Nat) (g : PortSt → PortSt) : (d.onPort p g).snapInfo = d.snapInfo := rfl
@[simp] theorem onPort_snapPend (d : Dev) (p : Nat) (g : PortSt → PortSt) : (d.onPort p g).snapPend = d.snapPend := rfl
@[simp] theorem onPort_snapPub (d : Dev) (p : Nat) (g : PortSt → PortSt) : (d.onPort p g).snapPub = d.snapPub := rfl
@[simp] theorem onPort_spmLost (d : Dev) (p : Nat) (g : PortSt → PortSt) : (d.onPort p g).spmLost = d.spmLost := rfl
@[simp] theorem onPort_frozen (d : Dev) (p : Nat) (g : PortSt → PortSt) : (d.onPort p g).frozen = d.frozen := rfl
@[simp] theorem onPort_outbox (d : Dev) (p : Nat) (g : PortSt → PortSt) : (d.onPort p g).outbox = d.outbox := rfl
@[simp] theorem onPort_freeCtr (d : Dev) (p : Nat) (g : PortSt → PortSt) : (d.onPort p g).freeCtr = d.freeCtr := rfl

/-! ### Sending -/

@[simp] theorem emit_regs (d : Dev) (m : Msg) : (d.emit m).regs = d.regs := rfl
@[simp] theorem emit_gcnt (d : Dev) (m : Msg) : (d.emit m).gcnt = d.gcnt := rfl
@[simp] theorem emit_hbm (d : Dev) (m : Msg) : (d.emit m).hbm = d.hbm := rfl
@[simp] theorem emit_spm (d : Dev) (m : Msg) : (d.emit m).spm = d.spm := rfl
@[simp] theorem emit_hbmBad (d : Dev) (m : Msg) : (d.emit m).hbmBad = d.hbmBad := rfl
@[simp] theorem emit_hbmMarks (d : Dev) (m : Msg) : (d.emit m).hbmMarks = d.hbmMarks := rfl
@[simp] theorem emit_spmMarks (d : Dev) (m : Msg) : (d.emit m).spmMarks = d.spmMarks := rfl
@[simp] theorem emit_spmParity (d : Dev) (m : Msg) : (d.emit m).spmParity = d.spmParity := rfl
@[simp] theorem emit_repair (d : Dev) (m : Msg) : (d.emit m).repair = d.repair := rfl
@[simp] theorem emit_chans (d : Dev) (m : Msg) : (d.emit m).chans = d.chans := rfl
@[simp] theorem emit_regions (d : Dev) (m : Msg) : (d.emit m).regions = d.regions := rfl
@[simp] theorem emit_codecTables (d : Dev) (m : Msg) : (d.emit m).codecTables = d.codecTables := rfl
@[simp] theorem emit_digestK (d : Dev) (m : Msg) : (d.emit m).digestK = d.digestK := rfl
@[simp] theorem emit_digests (d : Dev) (m : Msg) : (d.emit m).digests = d.digests := rfl
@[simp] theorem emit_schedLib (d : Dev) (m : Msg) : (d.emit m).schedLib = d.schedLib := rfl
@[simp] theorem emit_syncLib (d : Dev) (m : Msg) : (d.emit m).syncLib = d.syncLib := rfl
@[simp] theorem emit_cores (d : Dev) (m : Msg) : (d.emit m).cores = d.cores := rfl
@[simp] theorem emit_clusters (d : Dev) (m : Msg) : (d.emit m).clusters = d.clusters := rfl
@[simp] theorem emit_rings (d : Dev) (m : Msg) : (d.emit m).rings = d.rings := rfl
@[simp] theorem emit_slices (d : Dev) (m : Msg) : (d.emit m).slices = d.slices := rfl
@[simp] theorem emit_commit (d : Dev) (m : Msg) : (d.emit m).commit = d.commit := rfl
@[simp] theorem emit_vault (d : Dev) (m : Msg) : (d.emit m).vault = d.vault := rfl
@[simp] theorem emit_chain (d : Dev) (m : Msg) : (d.emit m).chain = d.chain := rfl
@[simp] theorem emit_ports (d : Dev) (m : Msg) : (d.emit m).ports = d.ports := rfl
@[simp] theorem emit_route (d : Dev) (m : Msg) : (d.emit m).route = d.route := rfl
@[simp] theorem emit_svc (d : Dev) (m : Msg) : (d.emit m).svc = d.svc := rfl
@[simp] theorem emit_start (d : Dev) (m : Msg) : (d.emit m).start = d.start := rfl
@[simp] theorem emit_secure (d : Dev) (m : Msg) : (d.emit m).secure = d.secure := rfl
@[simp] theorem emit_power (d : Dev) (m : Msg) : (d.emit m).power = d.power := rfl
@[simp] theorem emit_board (d : Dev) (m : Msg) : (d.emit m).board = d.board := rfl
@[simp] theorem emit_servo (d : Dev) (m : Msg) : (d.emit m).servo = d.servo := rfl
@[simp] theorem emit_snapInfo (d : Dev) (m : Msg) : (d.emit m).snapInfo = d.snapInfo := rfl
@[simp] theorem emit_snapPend (d : Dev) (m : Msg) : (d.emit m).snapPend = d.snapPend := rfl
@[simp] theorem emit_snapPub (d : Dev) (m : Msg) : (d.emit m).snapPub = d.snapPub := rfl
@[simp] theorem emit_spmLost (d : Dev) (m : Msg) : (d.emit m).spmLost = d.spmLost := rfl
@[simp] theorem emit_frozen (d : Dev) (m : Msg) : (d.emit m).frozen = d.frozen := rfl
@[simp] theorem emit_outbox (d : Dev) (m : Msg) : (d.emit m).outbox = d.outbox ++ [m] := rfl
@[simp] theorem emit_freeCtr (d : Dev) (m : Msg) : (d.emit m).freeCtr = d.freeCtr := rfl

/-! ### State -/

@[simp] theorem withDev_pending (s : State) (d : Dev) : (s.withDev d).pending = s.pending := rfl
@[simp] theorem withDev_dev (s : State) (d : Dev) : (s.withDev d).dev = d := rfl
@[simp] theorem perform_eq (a : Act) (s : State) : perform a s = .next (s.withDev (runAct a s.dev)) := rfl

/-! ### Each update -/

@[simp] theorem apply_fld (d : Dev) (f : Fld) (i : Nat) (g : Nat → Nat) : (Upd.fld f i g).apply d = d.setFld f i g := rfl
@[simp] theorem apply_hbm (d : Dev) (a : Nat) (bs : List Byte) : (Upd.hbm a bs).apply d =
    { d with hbm := memWrite d.hbm a (bs.take (hbmSize - a)) } := rfl
@[simp] theorem apply_spm (d : Dev) (c : Nat) (a : Nat) (bs : List Byte) : (Upd.spm c a bs).apply d =
    if c < coreCount then { d with spm := memWrite d.spm (c * spmSize + a) (d.spmVeil (c * spmSize + a) (bs.take (spmSize - a))) } else d := rfl
@[simp] theorem apply_gcnt (d : Dev) (g : BitVec 64) : (Upd.gcnt g).apply d = { d with gcnt := g } := rfl
@[simp] theorem apply_core (d : Dev) (c : Nat) (g : CoreSt → CoreSt) : (Upd.core c g).apply d =
    { d with cores := mapSet (fun _ => CoreSt.init) c (g (d.core c)) d.cores } := rfl
@[simp] theorem apply_cores (d : Dev) (g : Nat → CoreSt → CoreSt) : (Upd.cores g).apply d =
    { d with cores := mapAll (fun _ => CoreSt.init) g d.cores } := rfl
@[simp] theorem apply_cluster (d : Dev) (c : Nat) (g : ClusterSt → ClusterSt) : (Upd.cluster c g).apply d =
    { d with clusters := mapSet (fun _ => ClusterSt.init) c (g (d.cluster c)) d.clusters } := rfl
@[simp] theorem apply_ring (d : Dev) (k : Nat) (g : RingSt → RingSt) : (Upd.ring k g).apply d =
    { d with rings := mapSet (fun _ => RingSt.init) k (g (d.ring k)) d.rings } := rfl
@[simp] theorem apply_slice (d : Dev) (i : Nat) (g : SliceSt → SliceSt) : (Upd.slice i g).apply d =
    { d with slices := mapSet (fun _ => SliceSt.init) i (g (d.slice i)) d.slices } := rfl
@[simp] theorem apply_chan (d : Dev) (c : Nat) (g : ChanSt → ChanSt) : (Upd.chan c g).apply d =
    { d with chans := mapSet (fun _ => ChanSt.init) c (g (d.chan c)) d.chans } := rfl
@[simp] theorem apply_commit (d : Dev) (g : CommitSt → CommitSt) : (Upd.commit g).apply d = { d with commit := g d.commit } := rfl
@[simp] theorem apply_vault (d : Dev) (g : VaultSt → VaultSt) : (Upd.vault g).apply d = { d with vault := g d.vault } := rfl
@[simp] theorem apply_chain (d : Dev) (g : ChainSt → ChainSt) : (Upd.chain g).apply d = { d with chain := g d.chain } := rfl
@[simp] theorem apply_route (d : Dev) (g : RouteSt → RouteSt) : (Upd.route g).apply d = { d with route := g d.route } := rfl
@[simp] theorem apply_hbmBad (d : Dev) (g : List Nat → List Nat) : (Upd.hbmBad g).apply d = { d with hbmBad := g d.hbmBad } := rfl
@[simp] theorem apply_hbmMarks (d : Dev) (g : List (Nat × Nat) → List (Nat × Nat)) : (Upd.hbmMarks g).apply d =
    { d with hbmMarks := g d.hbmMarks } := rfl
@[simp] theorem apply_spmMarks (d : Dev) (g : List (Nat × Nat) → List (Nat × Nat)) : (Upd.spmMarks g).apply d =
    { d with spmMarks := g d.spmMarks } := rfl
@[simp] theorem apply_spmParity (d : Dev) (g : List Nat → List Nat) : (Upd.spmParity g).apply d = { d with spmParity := g d.spmParity } := rfl
@[simp] theorem apply_repair (d : Dev) (g : List Nat → List Nat) : (Upd.repair g).apply d = { d with repair := g d.repair } := rfl
@[simp] theorem apply_image (d : Dev) (r : List (BitVec 128)) (t : List (BitVec 128)) (k : BitVec 128) (sc : List Schedule) (sy : List SyncTable) : (Upd.image r t k sc sy).apply d =
    { d with regions := r, codecTables := t, digestK := k, schedLib := sc, syncLib := sy } := rfl
@[simp] theorem apply_digests (d : Dev) (g : List DigestAcc → List DigestAcc) : (Upd.digests g).apply d = { d with digests := g d.digests } := rfl
@[simp] theorem apply_servo (d : Dev) (g : ServoSt → ServoSt) : (Upd.servo g).apply d = { d with servo := g d.servo } := rfl
@[simp] theorem apply_snapDone (d : Dev) (g : List (BitVec 12) → List (BitVec 12)) : (Upd.snapDone g).apply d =
    { d with snapInfo := { d.snapInfo with waiting := g d.snapInfo.waiting } } := rfl
@[simp] theorem apply_snapLatch (d : Dev) (info : SnapInfo) (ks : List Nat) : (Upd.snapLatch info ks).apply d =
    { d with snapInfo := info, snapPend := ks.foldl (fun m k => mapSet regDefault k (mapGet regDefault d.regs k) m) [] } := rfl
@[simp] theorem apply_snapPublish (d : Dev) : (Upd.snapPublish).apply d = { d with snapPub := d.snapPend } := rfl
@[simp] theorem apply_event (d : Dev) (k : Nat) (b : List Byte) : (Upd.event k b).apply d = d.raise k b := rfl
@[simp] theorem apply_send (d : Dev) (m : Msg) : (Upd.send m).apply d = { d with outbox := d.outbox ++ [m] } := rfl
@[simp] theorem apply_inject (d : Dev) (p : Packet) : (Upd.inject p).apply d = d.inject p := rfl
@[simp] theorem apply_port (d : Dev) (p : Nat) (g : PortSt → PortSt) : (Upd.port p g).apply d = d.onPort p g := rfl
@[simp] theorem apply_sendEvents (d : Dev) : (Upd.sendEvents).apply d = d.sendEvents d.chain.events.length := rfl
@[simp] theorem apply_ask (d : Dev) (b : OwnReq) (m : BitVec 10 → Msg) : (Upd.ask b m).apply d = d.ask b m := rfl
@[simp] theorem apply_pump (d : Dev) : (Upd.pump).apply d = d.pump := rfl
@[simp] theorem apply_routed (d : Dev) (q : Queued) : (Upd.routed q).apply d = d.routePacket q := rfl
@[simp] theorem apply_svc (d : Dev) (g : SvcSt → SvcSt) : (Upd.svc g).apply d = { d with svc := g d.svc } := rfl
@[simp] theorem apply_start (d : Dev) (g : StartSt → StartSt) : (Upd.start g).apply d = { d with start := g d.start } := rfl
@[simp] theorem apply_secure (d : Dev) (g : SecureSt → SecureSt) : (Upd.secure g).apply d = { d with secure := g d.secure } := rfl
@[simp] theorem apply_power (d : Dev) (g : PowerSt → PowerSt) : (Upd.power g).apply d = { d with power := g d.power } := rfl
@[simp] theorem apply_board (d : Dev) (g : BoardSt → BoardSt) : (Upd.board g).apply d = { d with board := g d.board } := rfl
@[simp] theorem apply_drawFree (d : Dev) : (Upd.drawFree).apply d = { d with freeCtr := d.freeCtr + 1 } := rfl
@[simp] theorem apply_restart (d : Dev) (warm : Bool) : (Upd.restart warm).apply d = d.restart warm := rfl
@[simp] theorem apply_hbmZero (d : Dev) : (Upd.hbmZero).apply d = { d with hbm := [], hbmBad := [], hbmMarks := [] } := rfl
@[simp] theorem apply_loseSpm (d : Dev) : (Upd.loseSpm).apply d =
    { d with spm := [], spmMarks := [], spmParity := [], spmLost := d.freeCtr + 1, freeCtr := d.freeCtr + 1 } := rfl
@[simp] theorem apply_freeze (d : Dev) (on : Bool) : (Upd.freeze on).apply d =
    { d with frozen := if on then some (d.regs, d.gcnt) else none } := rfl

end Sys2Proof.Machine
end

