-- ==== Sys2Proof/Laws/Settle.lean ====
section
/-! SUPPORT. What follows a command's own act: with no discarded packet noted only the machine state can change, from RUNNING to READY, with
its event. -/

namespace Sys2Proof.Machine

/-- The registers that a change of the machine state and its event can write. -/
def modeReg (r : Reg) : Bool :=
  match r with
  | .DEV_STATE | .EVT_STATUS | .CHAIN_ERR => true
  | _ => false

/-- `d'` differs from `d` in the machine state, what its event changes, and the start of the idling conditions alone. -/
structure Quiet (d d' : Dev) : Prop where
  same : d'.besideRegs = d.besideRegs
  reg : ∀ r i, modeReg r = false → d'.reg r i = d.reg r i
  sent : d.outbox <+: d'.outbox
  power : d'.power = { d.power with quietAt := d'.power.quietAt }

theorem Quiet.refl (d : Dev) : Quiet d d := ⟨rfl, fun _ _ _ => rfl, List.prefix_rfl, rfl⟩

theorem Quiet.trans {d d' d'' : Dev} (h : Quiet d d') (h' : Quiet d' d'') : Quiet d d'' :=
  ⟨h'.same.trans h.same, fun r i e => (h'.reg r i e).trans (h.reg r i e), h.sent.trans h'.sent, by rw [h'.power, h.power]⟩

theorem quiet_setFld (d : Dev) (f : Fld) (i : Nat) (g : Nat → Nat) (h : modeReg f.reg = true) : Quiet d (d.setFld f i g) :=
  ⟨rfl, fun r j e => reg_setFld_other d f i g (.inl fun he => by rw [he, h] at e; cases e), List.prefix_rfl, rfl⟩

theorem quiet_chain (d : Dev) (c : ChainSt) : Quiet d { d with chain := c } := ⟨rfl, fun _ _ _ => rfl, List.prefix_rfl, rfl⟩

theorem quiet_ask (d : Dev) (b : OwnReq) (m : BitVec 10 → Msg) : Quiet d (d.ask b m) :=
  ⟨rfl, fun _ _ _ => rfl, List.prefix_append _ _, rfl⟩

theorem quiet_sendEvents (n : Nat) (d : Dev) : Quiet d (d.sendEvents n) := by
  induction n generalizing d with
  | zero => exact .refl d
  | succ n ih =>
    unfold Dev.sendEvents
    split
    · exact .refl d
    · split
      · exact .refl d
      · exact ((quiet_chain d _).trans (quiet_ask _ _ _)).trans (ih _)

/-- An event changes EVT_STATUS, CHAIN_ERR, the chain and the outbox alone. -/
theorem quiet_raise (d : Dev) (k : Nat) (b : List Byte) : Quiet d (d.raise k b) := by
  unfold Dev.raise
  split
  · exact ((quiet_setFld _ F.EVT_STATUS_LOST _ _ rfl).trans (quiet_setFld _ F.CHAIN_ERR_EVENT_LOST _ _ rfl)).trans
      (quiet_setFld _ F.CHAIN_ERR_FAULTS _ _ rfl)
  · exact (((quiet_setFld _ F.EVT_STATUS_SENT _ _ rfl).trans (quiet_setFld _ F.EVT_STATUS_HELD _ _ rfl)).trans
      (quiet_chain _ _)).trans (quiet_sendEvents _ _)

theorem quiet_setF (d : Dev) (f : Fld) (i v : Nat) (h : modeReg f.reg = true) : Quiet d ((setF f i v).apply d) :=
  quiet_setFld d f i (fun _ => v) h
theorem quiet_event (d : Dev) (k : Nat) (b : List Byte) : Quiet d ((Upd.event k b).apply d) := quiet_raise d k b
theorem quiet_noteAt (e d : Dev) : Quiet d (applyAll (noteQuiet e) d) := ⟨rfl, fun _ _ _ => rfl, List.prefix_rfl, rfl⟩

theorem quiet_noteQuiet (d : Dev) : Quiet d (runAct noteQuiet d) := ⟨rfl, fun _ _ _ => rfl, List.prefix_rfl, rfl⟩

/-- A change of the machine state writes DEV_STATE and raises its event. -/
theorem quiet_enterState (st : Nat) (d : Dev) : Quiet d (runAct (enterState st) d) := by
  unfold runAct enterState
  split
  · exact .refl d
  · simp only [applyAll_append, applyAll_cons, applyAll_nil]
    have h1 : Quiet d ((setF F.DEV_STATE_PREV_STATE 0 d.mode).apply d) := quiet_setF _ _ _ _ rfl
    have h2 := h1.trans (quiet_setF _ F.DEV_STATE_STATE 0 st rfl)
    have h3 := h2.trans (quiet_setF _ F.DEV_STATE_ENTRY_GCNT 0 (d.now % 4294967296) rfl)
    have h4 := h3.trans (quiet_event _ 2 (leBytes 8 (d.now % 4294967296 * 4294967296 + st * 16 + d.mode)))
    exact h4.trans (quiet_noteAt d _)

theorem quiet_settleReady (d : Dev) : Quiet d (runAct settleReady d) := by
  unfold runAct settleReady
  split
  · exact quiet_enterState _ d
  · exact .refl d

/-- What a command leaves, when its own act discarded no packet. -/
theorem quiet_settled (a : Act) (d : Dev) (h : (runAct a d).route.lost = []) : Quiet (runAct a d) (runAct (settled a) d) := by
  simp only [settled, runAct_inSequence_cons, runAct_inSequence_nil, runAct_fenceLost h]
  exact quiet_settleReady _

/-! ### Parts that such a change leaves -/

section parts
variable {d d' : Dev} (h : Quiet d d')
include h

theorem Quiet.fld {f : Fld} (e : modeReg f.reg = false) (i : Nat) : d'.fld f i = d.fld f i := by
  simp only [Dev.fld, h.reg _ i e]
theorem Quiet.bit {f : Fld} (e : modeReg f.reg = false) (i : Nat) : d'.bit f i = d.bit f i := by
  simp only [Dev.bit, h.fld e i]
theorem Quiet.gcnt : d'.gcnt = d.gcnt := (congrArg Dev.gcnt h.same :)
theorem Quiet.hbm : d'.hbm = d.hbm := (congrArg Dev.hbm h.same :)
theorem Quiet.spm : d'.spm = d.spm := (congrArg Dev.spm h.same :)
theorem Quiet.hbmBad : d'.hbmBad = d.hbmBad := (congrArg Dev.hbmBad h.same :)
theorem Quiet.hbmMarks : d'.hbmMarks = d.hbmMarks := (congrArg Dev.hbmMarks h.same :)
theorem Quiet.spmMarks : d'.spmMarks = d.spmMarks := (congrArg Dev.spmMarks h.same :)
theorem Quiet.spmParity : d'.spmParity = d.spmParity := (congrArg Dev.spmParity h.same :)
theorem Quiet.repair : d'.repair = d.repair := (congrArg Dev.repair h.same :)
theorem Quiet.chans : d'.chans = d.chans := (congrArg Dev.chans h.same :)
theorem Quiet.regions : d'.regions = d.regions := (congrArg Dev.regions h.same :)
theorem Quiet.codecTables : d'.codecTables = d.codecTables := (congrArg Dev.codecTables h.same :)
theorem Quiet.digestK : d'.digestK = d.digestK := (congrArg Dev.digestK h.same :)
theorem Quiet.digests : d'.digests = d.digests := (congrArg Dev.digests h.same :)
theorem Quiet.schedLib : d'.schedLib = d.schedLib := (congrArg Dev.schedLib h.same :)
theorem Quiet.syncLib : d'.syncLib = d.syncLib := (congrArg Dev.syncLib h.same :)
theorem Quiet.cores : d'.cores = d.cores := (congrArg Dev.cores h.same :)
theorem Quiet.clusters : d'.clusters = d.clusters := (congrArg Dev.clusters h.same :)
theorem Quiet.rings : d'.rings = d.rings := (congrArg Dev.rings h.same :)
theorem Quiet.slices : d'.slices = d.slices := (congrArg Dev.slices h.same :)
theorem Quiet.commit : d'.commit = d.commit := (congrArg Dev.commit h.same :)
theorem Quiet.vault : d'.vault = d.vault := (congrArg Dev.vault h.same :)
theorem Quiet.ports : d'.ports = d.ports := (congrArg Dev.ports h.same :)
theorem Quiet.route : d'.route = d.route := (congrArg Dev.route h.same :)
theorem Quiet.svc : d'.svc = d.svc := (congrArg Dev.svc h.same :)
theorem Quiet.start : d'.start = d.start := (congrArg Dev.start h.same :)
theorem Quiet.secure : d'.secure = d.secure := (congrArg Dev.secure h.same :)
theorem Quiet.board : d'.board = d.board := (congrArg Dev.board h.same :)
theorem Quiet.servo : d'.servo = d.servo := (congrArg Dev.servo h.same :)
theorem Quiet.snapInfo : d'.snapInfo = d.snapInfo := (congrArg Dev.snapInfo h.same :)
theorem Quiet.snapPend : d'.snapPend = d.snapPend := (congrArg Dev.snapPend h.same :)
theorem Quiet.snapPub : d'.snapPub = d.snapPub := (congrArg Dev.snapPub h.same :)
theorem Quiet.spmLost : d'.spmLost = d.spmLost := (congrArg Dev.spmLost h.same :)
theorem Quiet.frozen : d'.frozen = d.frozen := (congrArg Dev.frozen h.same :)
theorem Quiet.freeCtr : d'.freeCtr = d.freeCtr := (congrArg Dev.freeCtr h.same :)
end parts

end Sys2Proof.Machine
end

