-- ==== Sys2Proof/Laws/Parts.lean ====
section
/-! SUPPORT. Frames: which parts of the module an update can change. A part that no update of an act can change is as before; so is
it after a whole command, when neither the act nor what follows it can change the part. -/

namespace Sys2Proof.Machine

/-- The parts of the module: its fields. -/
inductive Part where
  | regs | gcnt | hbm | spm | hbmBad | hbmMarks | spmMarks | spmParity | repair | chans | regions | codecTables | digestK | digests | schedLib | syncLib | cores | clusters | rings | slices | commit | vault | chain | ports | route | svc | start | secure | power | board | servo | snapInfo | snapPend | snapPub | spmLost | frozen | outbox | freeCtr
  deriving DecidableEq, Repr

/-- All parts. -/
def Part.all : List Part := [.regs, .gcnt, .hbm, .spm, .hbmBad, .hbmMarks, .spmMarks, .spmParity, .repair, .chans, .regions, .codecTables, .digestK, .digests, .schedLib, .syncLib, .cores, .clusters, .rings, .slices, .commit, .vault, .chain, .ports, .route, .svc, .start, .secure, .power, .board, .servo, .snapInfo, .snapPend, .snapPub, .spmLost, .frozen, .outbox, .freeCtr]

/-- The parts that an update can change. -/
def Upd.touches : Upd → List Part
  | .fld _ _ _ => [.regs]
  | .hbm _ _ => [.hbm]
  | .spm _ _ _ => [.spm]
  | .gcnt _ => [.gcnt]
  | .core _ _ => [.cores]
  | .cores _ => [.cores]
  | .cluster _ _ => [.clusters]
  | .ring _ _ => [.rings]
  | .slice _ _ => [.slices]
  | .chan _ _ => [.chans]
  | .commit _ => [.commit]
  | .vault _ => [.vault]
  | .chain _ => [.chain]
  | .route _ => [.route]
  | .hbmBad _ => [.hbmBad]
  | .hbmMarks _ => [.hbmMarks]
  | .spmMarks _ => [.spmMarks]
  | .spmParity _ => [.spmParity]
  | .repair _ => [.repair]
  | .image _ _ _ _ _ => [.regions, .codecTables, .digestK, .schedLib, .syncLib]
  | .digests _ => [.digests]
  | .servo _ => [.servo]
  | .snapDone _ => [.snapInfo]
  | .snapLatch _ _ => [.snapInfo, .snapPend]
  | .snapPublish => [.snapPub]
  | .event _ _ => [.regs, .chain, .outbox]
  | .send _ => [.outbox]
  | .inject _ => [.regs, .ports, .route, .chain, .outbox]
  | .port _ _ => [.ports]
  | .sendEvents => [.regs, .chain, .outbox]
  | .ask _ _ => [.regs, .chain, .outbox]
  | .pump => [.regs, .ports, .route, .chain, .outbox]
  | .routed _ => [.regs, .ports, .route, .chain, .outbox]
  | .svc _ => [.svc]
  | .start _ => [.start]
  | .secure _ => [.secure]
  | .power _ => [.power]
  | .board _ => [.board]
  | .drawFree => [.freeCtr]
  | .restart _ => Part.all
  | .hbmZero => [.hbm, .hbmBad, .hbmMarks]
  | .loseSpm => [.spm, .spmMarks, .spmParity, .spmLost, .freeCtr]
  | .freeze _ => [.frozen]


/-! ### The parts of each update -/

@[simp] theorem touches_fld (x1 : Fld) (x2 : Nat) (x3 : Nat → Nat) : (Upd.fld x1 x2 x3).touches = [.regs] := rfl
@[simp] theorem touches_hbm (x1 : Nat) (x2 : List Byte) : (Upd.hbm x1 x2).touches = [.hbm] := rfl
@[simp] theorem touches_spm (x1 x2 : Nat) (x3 : List Byte) : (Upd.spm x1 x2 x3).touches = [.spm] := rfl
@[simp] theorem touches_gcnt (x1 : BitVec 64) : (Upd.gcnt x1).touches = [.gcnt] := rfl
@[simp] theorem touches_core (x1 : Nat) (x2 : CoreSt → CoreSt) : (Upd.core x1 x2).touches = [.cores] := rfl
@[simp] theorem touches_cores (x1 : Nat → CoreSt → CoreSt) : (Upd.cores x1).touches = [.cores] := rfl
@[simp] theorem touches_cluster (x1 : Nat) (x2 : ClusterSt → ClusterSt) : (Upd.cluster x1 x2).touches = [.clusters] := rfl
@[simp] theorem touches_ring (x1 : Nat) (x2 : RingSt → RingSt) : (Upd.ring x1 x2).touches = [.rings] := rfl
@[simp] theorem touches_slice (x1 : Nat) (x2 : SliceSt → SliceSt) : (Upd.slice x1 x2).touches = [.slices] := rfl
@[simp] theorem touches_chan (x1 : Nat) (x2 : ChanSt → ChanSt) : (Upd.chan x1 x2).touches = [.chans] := rfl
@[simp] theorem touches_commit (x1 : CommitSt → CommitSt) : (Upd.commit x1).touches = [.commit] := rfl
@[simp] theorem touches_vault (x1 : VaultSt → VaultSt) : (Upd.vault x1).touches = [.vault] := rfl
@[simp] theorem touches_chain (x1 : ChainSt → ChainSt) : (Upd.chain x1).touches = [.chain] := rfl
@[simp] theorem touches_route (x1 : RouteSt → RouteSt) : (Upd.route x1).touches = [.route] := rfl
@[simp] theorem touches_hbmBad (x1 : List Nat → List Nat) : (Upd.hbmBad x1).touches = [.hbmBad] := rfl
@[simp] theorem touches_hbmMarks (x1 : List (Nat × Nat) → List (Nat × Nat)) : (Upd.hbmMarks x1).touches = [.hbmMarks] := rfl
@[simp] theorem touches_spmMarks (x1 : List (Nat × Nat) → List (Nat × Nat)) : (Upd.spmMarks x1).touches = [.spmMarks] := rfl
@[simp] theorem touches_spmParity (x1 : List Nat → List Nat) : (Upd.spmParity x1).touches = [.spmParity] := rfl
@[simp] theorem touches_repair (x1 : List Nat → List Nat) : (Upd.repair x1).touches = [.repair] := rfl
@[simp] theorem touches_image (x1 x2 : List (BitVec 128)) (x3 : BitVec 128) (x4 : List Schedule) (x5 : List SyncTable) : (Upd.image x1 x2 x3 x4 x5).touches = [.regions, .codecTables, .digestK, .schedLib, .syncLib] := rfl
@[simp] theorem touches_digests (x1 : List DigestAcc → List DigestAcc) : (Upd.digests x1).touches = [.digests] := rfl
@[simp] theorem touches_servo (x1 : ServoSt → ServoSt) : (Upd.servo x1).touches = [.servo] := rfl
@[simp] theorem touches_snapDone (x1 : List (BitVec 12) → List (BitVec 12)) : (Upd.snapDone x1).touches = [.snapInfo] := rfl
@[simp] theorem touches_snapLatch (x1 : SnapInfo) (x2 : List Nat) : (Upd.snapLatch x1 x2).touches = [.snapInfo, .snapPend] := rfl
@[simp] theorem touches_snapPublish : (Upd.snapPublish).touches = [.snapPub] := rfl
@[simp] theorem touches_event (x1 : Nat) (x2 : List Byte) : (Upd.event x1 x2).touches = [.regs, .chain, .outbox] := rfl
@[simp] theorem touches_send (x1 : Msg) : (Upd.send x1).touches = [.outbox] := rfl
@[simp] theorem touches_inject (x1 : Packet) : (Upd.inject x1).touches = [.regs, .ports, .route, .chain, .outbox] := rfl
@[simp] theorem touches_port (x1 : Nat) (x2 : PortSt → PortSt) : (Upd.port x1 x2).touches = [.ports] := rfl
@[simp] theorem touches_sendEvents : (Upd.sendEvents).touches = [.regs, .chain, .outbox] := rfl
@[simp] theorem touches_ask (x1 : OwnReq) (x2 : BitVec 10 → Msg) : (Upd.ask x1 x2).touches = [.regs, .chain, .outbox] := rfl
@[simp] theorem touches_pump : (Upd.pump).touches = [.regs, .ports, .route, .chain, .outbox] := rfl
@[simp] theorem touches_routed (x1 : Queued) : (Upd.routed x1).touches = [.regs, .ports, .route, .chain, .outbox] := rfl
@[simp] theorem touches_svc (x1 : SvcSt → SvcSt) : (Upd.svc x1).touches = [.svc] := rfl
@[simp] theorem touches_start (x1 : StartSt → StartSt) : (Upd.start x1).touches = [.start] := rfl
@[simp] theorem touches_secure (x1 : SecureSt → SecureSt) : (Upd.secure x1).touches = [.secure] := rfl
@[simp] theorem touches_power (x1 : PowerSt → PowerSt) : (Upd.power x1).touches = [.power] := rfl
@[simp] theorem touches_board (x1 : BoardSt → BoardSt) : (Upd.board x1).touches = [.board] := rfl
@[simp] theorem touches_drawFree : (Upd.drawFree).touches = [.freeCtr] := rfl
@[simp] theorem touches_restart (x1 : Bool) : (Upd.restart x1).touches = Part.all := rfl
@[simp] theorem touches_hbmZero : (Upd.hbmZero).touches = [.hbm, .hbmBad, .hbmMarks] := rfl
@[simp] theorem touches_loseSpm : (Upd.loseSpm).touches = [.spm, .spmMarks, .spmParity, .spmLost, .freeCtr] := rfl
@[simp] theorem touches_freeze (x1 : Bool) : (Upd.freeze x1).touches = [.frozen] := rfl

/-! ### What sending leaves -/

section net
variable {d d' : Dev} (h : Net d d')
include h

theorem Net.gcnt' : d'.gcnt = d.gcnt := (congrArg Dev.gcnt h.same :)
theorem Net.hbm' : d'.hbm = d.hbm := (congrArg Dev.hbm h.same :)
theorem Net.spm' : d'.spm = d.spm := (congrArg Dev.spm h.same :)
theorem Net.hbmBad' : d'.hbmBad = d.hbmBad := (congrArg Dev.hbmBad h.same :)
theorem Net.hbmMarks' : d'.hbmMarks = d.hbmMarks := (congrArg Dev.hbmMarks h.same :)
theorem Net.spmMarks' : d'.spmMarks = d.spmMarks := (congrArg Dev.spmMarks h.same :)
theorem Net.spmParity' : d'.spmParity = d.spmParity := (congrArg Dev.spmParity h.same :)
theorem Net.repair' : d'.repair = d.repair := (congrArg Dev.repair h.same :)
theorem Net.chans' : d'.chans = d.chans := (congrArg Dev.chans h.same :)
theorem Net.regions' : d'.regions = d.regions := (congrArg Dev.regions h.same :)
theorem Net.codecTables' : d'.codecTables = d.codecTables := (congrArg Dev.codecTables h.same :)
theorem Net.digestK' : d'.digestK = d.digestK := (congrArg Dev.digestK h.same :)
theorem Net.digests' : d'.digests = d.digests := (congrArg Dev.digests h.same :)
theorem Net.schedLib' : d'.schedLib = d.schedLib := (congrArg Dev.schedLib h.same :)
theorem Net.syncLib' : d'.syncLib = d.syncLib := (congrArg Dev.syncLib h.same :)
theorem Net.cores' : d'.cores = d.cores := (congrArg Dev.cores h.same :)
theorem Net.clusters' : d'.clusters = d.clusters := (congrArg Dev.clusters h.same :)
theorem Net.rings' : d'.rings = d.rings := (congrArg Dev.rings h.same :)
theorem Net.slices' : d'.slices = d.slices := (congrArg Dev.slices h.same :)
theorem Net.commit' : d'.commit = d.commit := (congrArg Dev.commit h.same :)
theorem Net.vault' : d'.vault = d.vault := (congrArg Dev.vault h.same :)
theorem Net.svc' : d'.svc = d.svc := (congrArg Dev.svc h.same :)
theorem Net.start' : d'.start = d.start := (congrArg Dev.start h.same :)
theorem Net.secure' : d'.secure = d.secure := (congrArg Dev.secure h.same :)
theorem Net.power' : d'.power = d.power := (congrArg Dev.power h.same :)
theorem Net.board' : d'.board = d.board := (congrArg Dev.board h.same :)
theorem Net.servo' : d'.servo = d.servo := (congrArg Dev.servo h.same :)
theorem Net.snapInfo' : d'.snapInfo = d.snapInfo := (congrArg Dev.snapInfo h.same :)
theorem Net.snapPend' : d'.snapPend = d.snapPend := (congrArg Dev.snapPend h.same :)
theorem Net.snapPub' : d'.snapPub = d.snapPub := (congrArg Dev.snapPub h.same :)
theorem Net.spmLost' : d'.spmLost = d.spmLost := (congrArg Dev.spmLost h.same :)
theorem Net.frozen' : d'.frozen = d.frozen := (congrArg Dev.frozen h.same :)
theorem Net.freeCtr' : d'.freeCtr = d.freeCtr := (congrArg Dev.freeCtr h.same :)

end net

/-! ### One update -/

theorem keep_regs (u : Upd) (d : Dev) (h : Part.regs ∉ u.touches) : (u.apply d).regs = d.regs := by
  cases u with
  | fld _ _ _ => exact absurd (List.mem_of_elem_eq_true rfl) h
  | spm _ _ _ => simp only [Upd.apply]; split <;> rfl
  | event _ _ => exact absurd (List.mem_of_elem_eq_true rfl) h
  | inject _ => exact absurd (List.mem_of_elem_eq_true rfl) h
  | sendEvents => exact absurd (List.mem_of_elem_eq_true rfl) h
  | ask _ _ => exact absurd (List.mem_of_elem_eq_true rfl) h
  | pump => exact absurd (List.mem_of_elem_eq_true rfl) h
  | routed _ => exact absurd (List.mem_of_elem_eq_true rfl) h
  | restart _ => exact absurd (List.mem_of_elem_eq_true rfl) h
  | _ => rfl

theorem keep_gcnt (u : Upd) (d : Dev) (h : Part.gcnt ∉ u.touches) : (u.apply d).gcnt = d.gcnt := by
  cases u with
  | spm _ _ _ => simp only [Upd.apply]; split <;> rfl
  | gcnt _ => exact absurd (List.mem_of_elem_eq_true rfl) h
  | event k b => exact (quiet_raise d k b).gcnt
  | inject p => exact (net_inject d p).gcnt'
  | sendEvents => exact (quiet_sendEvents _ d).gcnt
  | ask b m => exact (quiet_ask d b m).gcnt
  | pump => exact (net_pump d).gcnt'
  | routed q => exact (net_routePacket d q).gcnt'
  | restart _ => exact absurd (List.mem_of_elem_eq_true rfl) h
  | _ => rfl

theorem keep_hbm (u : Upd) (d : Dev) (h : Part.hbm ∉ u.touches) : (u.apply d).hbm = d.hbm := by
  cases u with
  | hbm _ _ => exact absurd (List.mem_of_elem_eq_true rfl) h
  | spm _ _ _ => simp only [Upd.apply]; split <;> rfl
  | event k b => exact (quiet_raise d k b).hbm
  | inject p => exact (net_inject d p).hbm'
  | sendEvents => exact (quiet_sendEvents _ d).hbm
  | ask b m => exact (quiet_ask d b m).hbm
  | pump => exact (net_pump d).hbm'
  | routed q => exact (net_routePacket d q).hbm'
  | restart _ => exact absurd (List.mem_of_elem_eq_true rfl) h
  | hbmZero => exact absurd (List.mem_of_elem_eq_true rfl) h
  | _ => rfl

theorem keep_spm (u : Upd) (d : Dev) (h : Part.spm ∉ u.touches) : (u.apply d).spm = d.spm := by
  cases u with
  | spm _ _ _ => exact absurd (List.mem_of_elem_eq_true rfl) h
  | event k b => exact (quiet_raise d k b).spm
  | inject p => exact (net_inject d p).spm'
  | sendEvents => exact (quiet_sendEvents _ d).spm
  | ask b m => exact (quiet_ask d b m).spm
  | pump => exact (net_pump d).spm'
  | routed q => exact (net_routePacket d q).spm'
  | restart _ => exact absurd (List.mem_of_elem_eq_true rfl) h
  | loseSpm => exact absurd (List.mem_of_elem_eq_true rfl) h
  | _ => rfl

theorem keep_hbmBad (u : Upd) (d : Dev) (h : Part.hbmBad ∉ u.touches) : (u.apply d).hbmBad = d.hbmBad := by
  cases u with
  | spm _ _ _ => simp only [Upd.apply]; split <;> rfl
  | hbmBad _ => exact absurd (List.mem_of_elem_eq_true rfl) h
  | event k b => exact (quiet_raise d k b).hbmBad
  | inject p => exact (net_inject d p).hbmBad'
  | sendEvents => exact (quiet_sendEvents _ d).hbmBad
  | ask b m => exact (quiet_ask d b m).hbmBad
  | pump => exact (net_pump d).hbmBad'
  | routed q => exact (net_routePacket d q).hbmBad'
  | restart _ => exact absurd (List.mem_of_elem_eq_true rfl) h
  | hbmZero => exact absurd (List.mem_of_elem_eq_true rfl) h
  | _ => rfl

theorem keep_hbmMarks (u : Upd) (d : Dev) (h : Part.hbmMarks ∉ u.touches) : (u.apply d).hbmMarks = d.hbmMarks := by
  cases u with
  | spm _ _ _ => simp only [Upd.apply]; split <;> rfl
  | hbmMarks _ => exact absurd (List.mem_of_elem_eq_true rfl) h
  | event k b => exact (quiet_raise d k b).hbmMarks
  | inject p => exact (net_inject d p).hbmMarks'
  | sendEvents => exact (quiet_sendEvents _ d).hbmMarks
  | ask b m => exact (quiet_ask d b m).hbmMarks
  | pump => exact (net_pump d).hbmMarks'
  | routed q => exact (net_routePacket d q).hbmMarks'
  | restart _ => exact absurd (List.mem_of_elem_eq_true rfl) h
  | hbmZero => exact absurd (List.mem_of_elem_eq_true rfl) h
  | _ => rfl

theorem keep_spmMarks (u : Upd) (d : Dev) (h : Part.spmMarks ∉ u.touches) : (u.apply d).spmMarks = d.spmMarks := by
  cases u with
  | spm _ _ _ => simp only [Upd.apply]; split <;> rfl
  | spmMarks _ => exact absurd (List.mem_of_elem_eq_true rfl) h
  | event k b => exact (quiet_raise d k b).spmMarks
  | inject p => exact (net_inject d p).spmMarks'
  | sendEvents => exact (quiet_sendEvents _ d).spmMarks
  | ask b m => exact (quiet_ask d b m).spmMarks
  | pump => exact (net_pump d).spmMarks'
  | routed q => exact (net_routePacket d q).spmMarks'
  | restart _ => exact absurd (List.mem_of_elem_eq_true rfl) h
  | loseSpm => exact absurd (List.mem_of_elem_eq_true rfl) h
  | _ => rfl

theorem keep_spmParity (u : Upd) (d : Dev) (h : Part.spmParity ∉ u.touches) : (u.apply d).spmParity = d.spmParity := by
  cases u with
  | spm _ _ _ => simp only [Upd.apply]; split <;> rfl
  | spmParity _ => exact absurd (List.mem_of_elem_eq_true rfl) h
  | event k b => exact (quiet_raise d k b).spmParity
  | inject p => exact (net_inject d p).spmParity'
  | sendEvents => exact (quiet_sendEvents _ d).spmParity
  | ask b m => exact (quiet_ask d b m).spmParity
  | pump => exact (net_pump d).spmParity'
  | routed q => exact (net_routePacket d q).spmParity'
  | restart _ => exact absurd (List.mem_of_elem_eq_true rfl) h
  | loseSpm => exact absurd (List.mem_of_elem_eq_true rfl) h
  | _ => rfl

theorem keep_repair (u : Upd) (d : Dev) (h : Part.repair ∉ u.touches) : (u.apply d).repair = d.repair := by
  cases u with
  | spm _ _ _ => simp only [Upd.apply]; split <;> rfl
  | repair _ => exact absurd (List.mem_of_elem_eq_true rfl) h
  | event k b => exact (quiet_raise d k b).repair
  | inject p => exact (net_inject d p).repair'
  | sendEvents => exact (quiet_sendEvents _ d).repair
  | ask b m => exact (quiet_ask d b m).repair
  | pump => exact (net_pump d).repair'
  | routed q => exact (net_routePacket d q).repair'
  | restart _ => exact absurd (List.mem_of_elem_eq_true rfl) h
  | _ => rfl

theorem keep_chans (u : Upd) (d : Dev) (h : Part.chans ∉ u.touches) : (u.apply d).chans = d.chans := by
  cases u with
  | spm _ _ _ => simp only [Upd.apply]; split <;> rfl
  | chan _ _ => exact absurd (List.mem_of_elem_eq_true rfl) h
  | event k b => exact (quiet_raise d k b).chans
  | inject p => exact (net_inject d p).chans'
  | sendEvents => exact (quiet_sendEvents _ d).chans
  | ask b m => exact (quiet_ask d b m).chans
  | pump => exact (net_pump d).chans'
  | routed q => exact (net_routePacket d q).chans'
  | restart _ => exact absurd (List.mem_of_elem_eq_true rfl) h
  | _ => rfl

theorem keep_regions (u : Upd) (d : Dev) (h : Part.regions ∉ u.touches) : (u.apply d).regions = d.regions := by
  cases u with
  | spm _ _ _ => simp only [Upd.apply]; split <;> rfl
  | image _ _ _ _ _ => exact absurd (List.mem_of_elem_eq_true rfl) h
  | event k b => exact (quiet_raise d k b).regions
  | inject p => exact (net_inject d p).regions'
  | sendEvents => exact (quiet_sendEvents _ d).regions
  | ask b m => exact (quiet_ask d b m).regions
  | pump => exact (net_pump d).regions'
  | routed q => exact (net_routePacket d q).regions'
  | restart _ => exact absurd (List.mem_of_elem_eq_true rfl) h
  | _ => rfl

theorem keep_codecTables (u : Upd) (d : Dev) (h : Part.codecTables ∉ u.touches) : (u.apply d).codecTables = d.codecTables := by
  cases u with
  | spm _ _ _ => simp only [Upd.apply]; split <;> rfl
  | image _ _ _ _ _ => exact absurd (List.mem_of_elem_eq_true rfl) h
  | event k b => exact (quiet_raise d k b).codecTables
  | inject p => exact (net_inject d p).codecTables'
  | sendEvents => exact (quiet_sendEvents _ d).codecTables
  | ask b m => exact (quiet_ask d b m).codecTables
  | pump => exact (net_pump d).codecTables'
  | routed q => exact (net_routePacket d q).codecTables'
  | restart _ => exact absurd (List.mem_of_elem_eq_true rfl) h
  | _ => rfl

theorem keep_digestK (u : Upd) (d : Dev) (h : Part.digestK ∉ u.touches) : (u.apply d).digestK = d.digestK := by
  cases u with
  | spm _ _ _ => simp only [Upd.apply]; split <;> rfl
  | image _ _ _ _ _ => exact absurd (List.mem_of_elem_eq_true rfl) h
  | event k b => exact (quiet_raise d k b).digestK
  | inject p => exact (net_inject d p).digestK'
  | sendEvents => exact (quiet_sendEvents _ d).digestK
  | ask b m => exact (quiet_ask d b m).digestK
  | pump => exact (net_pump d).digestK'
  | routed q => exact (net_routePacket d q).digestK'
  | restart _ => exact absurd (List.mem_of_elem_eq_true rfl) h
  | _ => rfl

theorem keep_digests (u : Upd) (d : Dev) (h : Part.digests ∉ u.touches) : (u.apply d).digests = d.digests := by
  cases u with
  | spm _ _ _ => simp only [Upd.apply]; split <;> rfl
  | digests _ => exact absurd (List.mem_of_elem_eq_true rfl) h
  | event k b => exact (quiet_raise d k b).digests
  | inject p => exact (net_inject d p).digests'
  | sendEvents => exact (quiet_sendEvents _ d).digests
  | ask b m => exact (quiet_ask d b m).digests
  | pump => exact (net_pump d).digests'
  | routed q => exact (net_routePacket d q).digests'
  | restart _ => exact absurd (List.mem_of_elem_eq_true rfl) h
  | _ => rfl

theorem keep_schedLib (u : Upd) (d : Dev) (h : Part.schedLib ∉ u.touches) : (u.apply d).schedLib = d.schedLib := by
  cases u with
  | spm _ _ _ => simp only [Upd.apply]; split <;> rfl
  | image _ _ _ _ _ => exact absurd (List.mem_of_elem_eq_true rfl) h
  | event k b => exact (quiet_raise d k b).schedLib
  | inject p => exact (net_inject d p).schedLib'
  | sendEvents => exact (quiet_sendEvents _ d).schedLib
  | ask b m => exact (quiet_ask d b m).schedLib
  | pump => exact (net_pump d).schedLib'
  | routed q => exact (net_routePacket d q).schedLib'
  | restart _ => exact absurd (List.mem_of_elem_eq_true rfl) h
  | _ => rfl

theorem keep_syncLib (u : Upd) (d : Dev) (h : Part.syncLib ∉ u.touches) : (u.apply d).syncLib = d.syncLib := by
  cases u with
  | spm _ _ _ => simp only [Upd.apply]; split <;> rfl
  | image _ _ _ _ _ => exact absurd (List.mem_of_elem_eq_true rfl) h
  | event k b => exact (quiet_raise d k b).syncLib
  | inject p => exact (net_inject d p).syncLib'
  | sendEvents => exact (quiet_sendEvents _ d).syncLib
  | ask b m => exact (quiet_ask d b m).syncLib
  | pump => exact (net_pump d).syncLib'
  | routed q => exact (net_routePacket d q).syncLib'
  | restart _ => exact absurd (List.mem_of_elem_eq_true rfl) h
  | _ => rfl

theorem keep_cores (u : Upd) (d : Dev) (h : Part.cores ∉ u.touches) : (u.apply d).cores = d.cores := by
  cases u with
  | spm _ _ _ => simp only [Upd.apply]; split <;> rfl
  | core _ _ => exact absurd (List.mem_of_elem_eq_true rfl) h
  | cores _ => exact absurd (List.mem_of_elem_eq_true rfl) h
  | event k b => exact (quiet_raise d k b).cores
  | inject p => exact (net_inject d p).cores'
  | sendEvents => exact (quiet_sendEvents _ d).cores
  | ask b m => exact (quiet_ask d b m).cores
  | pump => exact (net_pump d).cores'
  | routed q => exact (net_routePacket d q).cores'
  | restart _ => exact absurd (List.mem_of_elem_eq_true rfl) h
  | _ => rfl

theorem keep_clusters (u : Upd) (d : Dev) (h : Part.clusters ∉ u.touches) : (u.apply d).clusters = d.clusters := by
  cases u with
  | spm _ _ _ => simp only [Upd.apply]; split <;> rfl
  | cluster _ _ => exact absurd (List.mem_of_elem_eq_true rfl) h
  | event k b => exact (quiet_raise d k b).clusters
  | inject p => exact (net_inject d p).clusters'
  | sendEvents => exact (quiet_sendEvents _ d).clusters
  | ask b m => exact (quiet_ask d b m).clusters
  | pump => exact (net_pump d).clusters'
  | routed q => exact (net_routePacket d q).clusters'
  | restart _ => exact absurd (List.mem_of_elem_eq_true rfl) h
  | _ => rfl

theorem keep_rings (u : Upd) (d : Dev) (h : Part.rings ∉ u.touches) : (u.apply d).rings = d.rings := by
  cases u with
  | spm _ _ _ => simp only [Upd.apply]; split <;> rfl
  | ring _ _ => exact absurd (List.mem_of_elem_eq_true rfl) h
  | event k b => exact (quiet_raise d k b).rings
  | inject p => exact (net_inject d p).rings'
  | sendEvents => exact (quiet_sendEvents _ d).rings
  | ask b m => exact (quiet_ask d b m).rings
  | pump => exact (net_pump d).rings'
  | routed q => exact (net_routePacket d q).rings'
  | restart _ => exact absurd (List.mem_of_elem_eq_true rfl) h
  | _ => rfl

theorem keep_slices (u : Upd) (d : Dev) (h : Part.slices ∉ u.touches) : (u.apply d).slices = d.slices := by
  cases u with
  | spm _ _ _ => simp only [Upd.apply]; split <;> rfl
  | slice _ _ => exact absurd (List.mem_of_elem_eq_true rfl) h
  | event k b => exact (quiet_raise d k b).slices
  | inject p => exact (net_inject d p).slices'
  | sendEvents => exact (quiet_sendEvents _ d).slices
  | ask b m => exact (quiet_ask d b m).slices
  | pump => exact (net_pump d).slices'
  | routed q => exact (net_routePacket d q).slices'
  | restart _ => exact absurd (List.mem_of_elem_eq_true rfl) h
  | _ => rfl

theorem keep_commit (u : Upd) (d : Dev) (h : Part.commit ∉ u.touches) : (u.apply d).commit = d.commit := by
  cases u with
  | spm _ _ _ => simp only [Upd.apply]; split <;> rfl
  | commit _ => exact absurd (List.mem_of_elem_eq_true rfl) h
  | event k b => exact (quiet_raise d k b).commit
  | inject p => exact (net_inject d p).commit'
  | sendEvents => exact (quiet_sendEvents _ d).commit
  | ask b m => exact (quiet_ask d b m).commit
  | pump => exact (net_pump d).commit'
  | routed q => exact (net_routePacket d q).commit'
  | restart _ => exact absurd (List.mem_of_elem_eq_true rfl) h
  | _ => rfl

theorem keep_vault (u : Upd) (d : Dev) (h : Part.vault ∉ u.touches) : (u.apply d).vault = d.vault := by
  cases u with
  | spm _ _ _ => simp only [Upd.apply]; split <;> rfl
  | vault _ => exact absurd (List.mem_of_elem_eq_true rfl) h
  | event k b => exact (quiet_raise d k b).vault
  | inject p => exact (net_inject d p).vault'
  | sendEvents => exact (quiet_sendEvents _ d).vault
  | ask b m => exact (quiet_ask d b m).vault
  | pump => exact (net_pump d).vault'
  | routed q => exact (net_routePacket d q).vault'
  | restart _ => exact absurd (List.mem_of_elem_eq_true rfl) h
  | _ => rfl

theorem keep_chain (u : Upd) (d : Dev) (h : Part.chain ∉ u.touches) : (u.apply d).chain = d.chain := by
  cases u with
  | spm _ _ _ => simp only [Upd.apply]; split <;> rfl
  | chain _ => exact absurd (List.mem_of_elem_eq_true rfl) h
  | event _ _ => exact absurd (List.mem_of_elem_eq_true rfl) h
  | inject _ => exact absurd (List.mem_of_elem_eq_true rfl) h
  | sendEvents => exact absurd (List.mem_of_elem_eq_true rfl) h
  | ask _ _ => exact absurd (List.mem_of_elem_eq_true rfl) h
  | pump => exact absurd (List.mem_of_elem_eq_true rfl) h
  | routed _ => exact absurd (List.mem_of_elem_eq_true rfl) h
  | restart _ => exact absurd (List.mem_of_elem_eq_true rfl) h
  | _ => rfl

theorem keep_ports (u : Upd) (d : Dev) (h : Part.ports ∉ u.touches) : (u.apply d).ports = d.ports := by
  cases u with
  | spm _ _ _ => simp only [Upd.apply]; split <;> rfl
  | event k b => exact (quiet_raise d k b).ports
  | inject _ => exact absurd (List.mem_of_elem_eq_true rfl) h
  | port _ _ => exact absurd (List.mem_of_elem_eq_true rfl) h
  | sendEvents => exact (quiet_sendEvents _ d).ports
  | ask b m => exact (quiet_ask d b m).ports
  | pump => exact absurd (List.mem_of_elem_eq_true rfl) h
  | routed _ => exact absurd (List.mem_of_elem_eq_true rfl) h
  | restart _ => exact absurd (List.mem_of_elem_eq_true rfl) h
  | _ => rfl

theorem keep_route (u : Upd) (d : Dev) (h : Part.route ∉ u.touches) : (u.apply d).route = d.route := by
  cases u with
  | spm _ _ _ => simp only [Upd.apply]; split <;> rfl
  | route _ => exact absurd (List.mem_of_elem_eq_true rfl) h
  | event k b => exact (quiet_raise d k b).route
  | inject _ => exact absurd (List.mem_of_elem_eq_true rfl) h
  | sendEvents => exact (quiet_sendEvents _ d).route
  | ask b m => exact (quiet_ask d b m).route
  | pump => exact absurd (List.mem_of_elem_eq_true rfl) h
  | routed _ => exact absurd (List.mem_of_elem_eq_true rfl) h
  | restart _ => exact absurd (List.mem_of_elem_eq_true rfl) h
  | _ => rfl

theorem keep_svc (u : Upd) (d : Dev) (h : Part.svc ∉ u.touches) : (u.apply d).svc = d.svc := by
  cases u with
  | spm _ _ _ => simp only [Upd.apply]; split <;> rfl
  | event k b => exact (quiet_raise d k b).svc
  | inject p => exact (net_inject d p).svc'
  | sendEvents => exact (quiet_sendEvents _ d).svc
  | ask b m => exact (quiet_ask d b m).svc
  | pump => exact (net_pump d).svc'
  | routed q => exact (net_routePacket d q).svc'
  | svc _ => exact absurd (List.mem_of_elem_eq_true rfl) h
  | restart _ => exact absurd (List.mem_of_elem_eq_true rfl) h
  | _ => rfl

theorem keep_start (u : Upd) (d : Dev) (h : Part.start ∉ u.touches) : (u.apply d).start = d.start := by
  cases u with
  | spm _ _ _ => simp only [Upd.apply]; split <;> rfl
  | event k b => exact (quiet_raise d k b).start
  | inject p => exact (net_inject d p).start'
  | sendEvents => exact (quiet_sendEvents _ d).start
  | ask b m => exact (quiet_ask d b m).start
  | pump => exact (net_pump d).start'
  | routed q => exact (net_routePacket d q).start'
  | start _ => exact absurd (List.mem_of_elem_eq_true rfl) h
  | restart _ => exact absurd (List.mem_of_elem_eq_true rfl) h
  | _ => rfl

theorem keep_secure (u : Upd) (d : Dev) (h : Part.secure ∉ u.touches) : (u.apply d).secure = d.secure := by
  cases u with
  | spm _ _ _ => simp only [Upd.apply]; split <;> rfl
  | event k b => exact (quiet_raise d k b).secure
  | inject p => exact (net_inject d p).secure'
  | sendEvents => exact (quiet_sendEvents _ d).secure
  | ask b m => exact (quiet_ask d b m).secure
  | pump => exact (net_pump d).secure'
  | routed q => exact (net_routePacket d q).secure'
  | secure _ => exact absurd (List.mem_of_elem_eq_true rfl) h
  | restart _ => exact absurd (List.mem_of_elem_eq_true rfl) h
  | _ => rfl

theorem keep_power (u : Upd) (d : Dev) (h : Part.power ∉ u.touches) : (u.apply d).power = d.power := by
  cases u with
  | spm _ _ _ => simp only [Upd.apply]; split <;> rfl
  | event k b => exact (net_raise d k b).power'
  | inject p => exact (net_inject d p).power'
  | sendEvents => exact (net_sendEvents _ d).power'
  | ask b m => exact (net_ask d b m).power'
  | pump => exact (net_pump d).power'
  | routed q => exact (net_routePacket d q).power'
  | power _ => exact absurd (List.mem_of_elem_eq_true rfl) h
  | restart _ => exact absurd (List.mem_of_elem_eq_true rfl) h
  | _ => rfl

theorem keep_board (u : Upd) (d : Dev) (h : Part.board ∉ u.touches) : (u.apply d).board = d.board := by
  cases u with
  | spm _ _ _ => simp only [Upd.apply]; split <;> rfl
  | event k b => exact (quiet_raise d k b).board
  | inject p => exact (net_inject d p).board'
  | sendEvents => exact (quiet_sendEvents _ d).board
  | ask b m => exact (quiet_ask d b m).board
  | pump => exact (net_pump d).board'
  | routed q => exact (net_routePacket d q).board'
  | board _ => exact absurd (List.mem_of_elem_eq_true rfl) h
  | restart _ => exact absurd (List.mem_of_elem_eq_true rfl) h
  | _ => rfl

theorem keep_servo (u : Upd) (d : Dev) (h : Part.servo ∉ u.touches) : (u.apply d).servo = d.servo := by
  cases u with
  | spm _ _ _ => simp only [Upd.apply]; split <;> rfl
  | servo _ => exact absurd (List.mem_of_elem_eq_true rfl) h
  | event k b => exact (quiet_raise d k b).servo
  | inject p => exact (net_inject d p).servo'
  | sendEvents => exact (quiet_sendEvents _ d).servo
  | ask b m => exact (quiet_ask d b m).servo
  | pump => exact (net_pump d).servo'
  | routed q => exact (net_routePacket d q).servo'
  | restart _ => exact absurd (List.mem_of_elem_eq_true rfl) h
  | _ => rfl

theorem keep_snapInfo (u : Upd) (d : Dev) (h : Part.snapInfo ∉ u.touches) : (u.apply d).snapInfo = d.snapInfo := by
  cases u with
  | spm _ _ _ => simp only [Upd.apply]; split <;> rfl
  | snapDone _ => exact absurd (List.mem_of_elem_eq_true rfl) h
  | snapLatch _ _ => exact absurd (List.mem_of_elem_eq_true rfl) h
  | event k b => exact (quiet_raise d k b).snapInfo
  | inject p => exact (net_inject d p).snapInfo'
  | sendEvents => exact (quiet_sendEvents _ d).snapInfo
  | ask b m => exact (quiet_ask d b m).snapInfo
  | pump => exact (net_pump d).snapInfo'
  | routed q => exact (net_routePacket d q).snapInfo'
  | restart _ => exact absurd (List.mem_of_elem_eq_true rfl) h
  | _ => rfl

theorem keep_snapPend (u : Upd) (d : Dev) (h : Part.snapPend ∉ u.touches) : (u.apply d).snapPend = d.snapPend := by
  cases u with
  | spm _ _ _ => simp only [Upd.apply]; split <;> rfl
  | snapLatch _ _ => exact absurd (List.mem_of_elem_eq_true rfl) h
  | event k b => exact (quiet_raise d k b).snapPend
  | inject p => exact (net_inject d p).snapPend'
  | sendEvents => exact (quiet_sendEvents _ d).snapPend
  | ask b m => exact (quiet_ask d b m).snapPend
  | pump => exact (net_pump d).snapPend'
  | routed q => exact (net_routePacket d q).snapPend'
  | restart _ => exact absurd (List.mem_of_elem_eq_true rfl) h
  | _ => rfl

theorem keep_snapPub (u : Upd) (d : Dev) (h : Part.snapPub ∉ u.touches) : (u.apply d).snapPub = d.snapPub := by
  cases u with
  | spm _ _ _ => simp only [Upd.apply]; split <;> rfl
  | snapPublish => exact absurd (List.mem_of_elem_eq_true rfl) h
  | event k b => exact (quiet_raise d k b).snapPub
  | inject p => exact (net_inject d p).snapPub'
  | sendEvents => exact (quiet_sendEvents _ d).snapPub
  | ask b m => exact (quiet_ask d b m).snapPub
  | pump => exact (net_pump d).snapPub'
  | routed q => exact (net_routePacket d q).snapPub'
  | restart _ => exact absurd (List.mem_of_elem_eq_true rfl) h
  | _ => rfl

theorem keep_spmLost (u : Upd) (d : Dev) (h : Part.spmLost ∉ u.touches) : (u.apply d).spmLost = d.spmLost := by
  cases u with
  | spm _ _ _ => simp only [Upd.apply]; split <;> rfl
  | event k b => exact (quiet_raise d k b).spmLost
  | inject p => exact (net_inject d p).spmLost'
  | sendEvents => exact (quiet_sendEvents _ d).spmLost
  | ask b m => exact (quiet_ask d b m).spmLost
  | pump => exact (net_pump d).spmLost'
  | routed q => exact (net_routePacket d q).spmLost'
  | restart _ => exact absurd (List.mem_of_elem_eq_true rfl) h
  | loseSpm => exact absurd (List.mem_of_elem_eq_true rfl) h
  | _ => rfl

theorem keep_frozen (u : Upd) (d : Dev) (h : Part.frozen ∉ u.touches) : (u.apply d).frozen = d.frozen := by
  cases u with
  | spm _ _ _ => simp only [Upd.apply]; split <;> rfl
  | event k b => exact (quiet_raise d k b).frozen
  | inject p => exact (net_inject d p).frozen'
  | sendEvents => exact (quiet_sendEvents _ d).frozen
  | ask b m => exact (quiet_ask d b m).frozen
  | pump => exact (net_pump d).frozen'
  | routed q => exact (net_routePacket d q).frozen'
  | restart _ => exact absurd (List.mem_of_elem_eq_true rfl) h
  | freeze _ => exact absurd (List.mem_of_elem_eq_true rfl) h
  | _ => rfl

theorem keep_outbox (u : Upd) (d : Dev) (h : Part.outbox ∉ u.touches) : (u.apply d).outbox = d.outbox := by
  cases u with
  | spm _ _ _ => simp only [Upd.apply]; split <;> rfl
  | event _ _ => exact absurd (List.mem_of_elem_eq_true rfl) h
  | send _ => exact absurd (List.mem_of_elem_eq_true rfl) h
  | inject _ => exact absurd (List.mem_of_elem_eq_true rfl) h
  | sendEvents => exact absurd (List.mem_of_elem_eq_true rfl) h
  | ask _ _ => exact absurd (List.mem_of_elem_eq_true rfl) h
  | pump => exact absurd (List.mem_of_elem_eq_true rfl) h
  | routed _ => exact absurd (List.mem_of_elem_eq_true rfl) h
  | restart _ => exact absurd (List.mem_of_elem_eq_true rfl) h
  | _ => rfl

theorem keep_freeCtr (u : Upd) (d : Dev) (h : Part.freeCtr ∉ u.touches) : (u.apply d).freeCtr = d.freeCtr := by
  cases u with
  | spm _ _ _ => simp only [Upd.apply]; split <;> rfl
  | event k b => exact (quiet_raise d k b).freeCtr
  | inject p => exact (net_inject d p).freeCtr'
  | sendEvents => exact (quiet_sendEvents _ d).freeCtr
  | ask b m => exact (quiet_ask d b m).freeCtr
  | pump => exact (net_pump d).freeCtr'
  | routed q => exact (net_routePacket d q).freeCtr'
  | drawFree => exact absurd (List.mem_of_elem_eq_true rfl) h
  | restart _ => exact absurd (List.mem_of_elem_eq_true rfl) h
  | loseSpm => exact absurd (List.mem_of_elem_eq_true rfl) h
  | _ => rfl

/-! ### Lists of updates and whole commands -/

/-- No update of a list can change a part. -/
def leaves (p : Part) (us : List Upd) : Prop := ∀ u ∈ us, p ∉ u.touches

@[simp] theorem leaves_nil (p : Part) : leaves p [] := fun _ h => nomatch h
@[simp] theorem leaves_cons (p : Part) (u : Upd) (us : List Upd) : leaves p (u :: us) ↔ p ∉ u.touches ∧ leaves p us := by
  simp [leaves]
@[simp] theorem leaves_append (p : Part) (us vs : List Upd) : leaves p (us ++ vs) ↔ leaves p us ∧ leaves p vs := by
  simp only [leaves, List.mem_append, or_imp, forall_and]

theorem keepAll_regs {us : List Upd} (d : Dev) (h : leaves .regs us) : (applyAll us d).regs = d.regs := by
  induction us generalizing d with
  | nil => rfl
  | cons u us ih => exact (ih (u.apply d) fun v hv => h v (List.mem_cons_of_mem _ hv)).trans (keep_regs u d (h u (List.mem_cons_self ..)))

theorem keepAll_gcnt {us : List Upd} (d : Dev) (h : leaves .gcnt us) : (applyAll us d).gcnt = d.gcnt := by
  induction us generalizing d with
  | nil => rfl
  | cons u us ih => exact (ih (u.apply d) fun v hv => h v (List.mem_cons_of_mem _ hv)).trans (keep_gcnt u d (h u (List.mem_cons_self ..)))

theorem keepAll_hbm {us : List Upd} (d : Dev) (h : leaves .hbm us) : (applyAll us d).hbm = d.hbm := by
  induction us generalizing d with
  | nil => rfl
  | cons u us ih => exact (ih (u.apply d) fun v hv => h v (List.mem_cons_of_mem _ hv)).trans (keep_hbm u d (h u (List.mem_cons_self ..)))

theorem keepAll_spm {us : List Upd} (d : Dev) (h : leaves .spm us) : (applyAll us d).spm = d.spm := by
  induction us generalizing d with
  | nil => rfl
  | cons u us ih => exact (ih (u.apply d) fun v hv => h v (List.mem_cons_of_mem _ hv)).trans (keep_spm u d (h u (List.mem_cons_self ..)))

theorem keepAll_hbmBad {us : List Upd} (d : Dev) (h : leaves .hbmBad us) : (applyAll us d).hbmBad = d.hbmBad := by
  induction us generalizing d with
  | nil => rfl
  | cons u us ih => exact (ih (u.apply d) fun v hv => h v (List.mem_cons_of_mem _ hv)).trans (keep_hbmBad u d (h u (List.mem_cons_self ..)))

theorem keepAll_hbmMarks {us : List Upd} (d : Dev) (h : leaves .hbmMarks us) : (applyAll us d).hbmMarks = d.hbmMarks := by
  induction us generalizing d with
  | nil => rfl
  | cons u us ih => exact (ih (u.apply d) fun v hv => h v (List.mem_cons_of_mem _ hv)).trans (keep_hbmMarks u d (h u (List.mem_cons_self ..)))

theorem keepAll_spmMarks {us : List Upd} (d : Dev) (h : leaves .spmMarks us) : (applyAll us d).spmMarks = d.spmMarks := by
  induction us generalizing d with
  | nil => rfl
  | cons u us ih => exact (ih (u.apply d) fun v hv => h v (List.mem_cons_of_mem _ hv)).trans (keep_spmMarks u d (h u (List.mem_cons_self ..)))

theorem keepAll_spmParity {us : List Upd} (d : Dev) (h : leaves .spmParity us) : (applyAll us d).spmParity = d.spmParity := by
  induction us generalizing d with
  | nil => rfl
  | cons u us ih => exact (ih (u.apply d) fun v hv => h v (List.mem_cons_of_mem _ hv)).trans (keep_spmParity u d (h u (List.mem_cons_self ..)))

theorem keepAll_repair {us : List Upd} (d : Dev) (h : leaves .repair us) : (applyAll us d).repair = d.repair := by
  induction us generalizing d with
  | nil => rfl
  | cons u us ih => exact (ih (u.apply d) fun v hv => h v (List.mem_cons_of_mem _ hv)).trans (keep_repair u d (h u (List.mem_cons_self ..)))

theorem keepAll_chans {us : List Upd} (d : Dev) (h : leaves .chans us) : (applyAll us d).chans = d.chans := by
  induction us generalizing d with
  | nil => rfl
  | cons u us ih => exact (ih (u.apply d) fun v hv => h v (List.mem_cons_of_mem _ hv)).trans (keep_chans u d (h u (List.mem_cons_self ..)))

theorem keepAll_regions {us : List Upd} (d : Dev) (h : leaves .regions us) : (applyAll us d).regions = d.regions := by
  induction us generalizing d with
  | nil => rfl
  | cons u us ih => exact (ih (u.apply d) fun v hv => h v (List.mem_cons_of_mem _ hv)).trans (keep_regions u d (h u (List.mem_cons_self ..)))

theorem keepAll_codecTables {us : List Upd} (d : Dev) (h : leaves .codecTables us) : (applyAll us d).codecTables = d.codecTables := by
  induction us generalizing d with
  | nil => rfl
  | cons u us ih => exact (ih (u.apply d) fun v hv => h v (List.mem_cons_of_mem _ hv)).trans (keep_codecTables u d (h u (List.mem_cons_self ..)))

theorem keepAll_digestK {us : List Upd} (d : Dev) (h : leaves .digestK us) : (applyAll us d).digestK = d.digestK := by
  induction us generalizing d with
  | nil => rfl
  | cons u us ih => exact (ih (u.apply d) fun v hv => h v (List.mem_cons_of_mem _ hv)).trans (keep_digestK u d (h u (List.mem_cons_self ..)))

theorem keepAll_digests {us : List Upd} (d : Dev) (h : leaves .digests us) : (applyAll us d).digests = d.digests := by
  induction us generalizing d with
  | nil => rfl
  | cons u us ih => exact (ih (u.apply d) fun v hv => h v (List.mem_cons_of_mem _ hv)).trans (keep_digests u d (h u (List.mem_cons_self ..)))

theorem keepAll_schedLib {us : List Upd} (d : Dev) (h : leaves .schedLib us) : (applyAll us d).schedLib = d.schedLib := by
  induction us generalizing d with
  | nil => rfl
  | cons u us ih => exact (ih (u.apply d) fun v hv => h v (List.mem_cons_of_mem _ hv)).trans (keep_schedLib u d (h u (List.mem_cons_self ..)))

theorem keepAll_syncLib {us : List Upd} (d : Dev) (h : leaves .syncLib us) : (applyAll us d).syncLib = d.syncLib := by
  induction us generalizing d with
  | nil => rfl
  | cons u us ih => exact (ih (u.apply d) fun v hv => h v (List.mem_cons_of_mem _ hv)).trans (keep_syncLib u d (h u (List.mem_cons_self ..)))

theorem keepAll_cores {us : List Upd} (d : Dev) (h : leaves .cores us) : (applyAll us d).cores = d.cores := by
  induction us generalizing d with
  | nil => rfl
  | cons u us ih => exact (ih (u.apply d) fun v hv => h v (List.mem_cons_of_mem _ hv)).trans (keep_cores u d (h u (List.mem_cons_self ..)))

theorem keepAll_clusters {us : List Upd} (d : Dev) (h : leaves .clusters us) : (applyAll us d).clusters = d.clusters := by
  induction us generalizing d with
  | nil => rfl
  | cons u us ih => exact (ih (u.apply d) fun v hv => h v (List.mem_cons_of_mem _ hv)).trans (keep_clusters u d (h u (List.mem_cons_self ..)))

theorem keepAll_rings {us : List Upd} (d : Dev) (h : leaves .rings us) : (applyAll us d).rings = d.rings := by
  induction us generalizing d with
  | nil => rfl
  | cons u us ih => exact (ih (u.apply d) fun v hv => h v (List.mem_cons_of_mem _ hv)).trans (keep_rings u d (h u (List.mem_cons_self ..)))

theorem keepAll_slices {us : List Upd} (d : Dev) (h : leaves .slices us) : (applyAll us d).slices = d.slices := by
  induction us generalizing d with
  | nil => rfl
  | cons u us ih => exact (ih (u.apply d) fun v hv => h v (List.mem_cons_of_mem _ hv)).trans (keep_slices u d (h u (List.mem_cons_self ..)))

theorem keepAll_commit {us : List Upd} (d : Dev) (h : leaves .commit us) : (applyAll us d).commit = d.commit := by
  induction us generalizing d with
  | nil => rfl
  | cons u us ih => exact (ih (u.apply d) fun v hv => h v (List.mem_cons_of_mem _ hv)).trans (keep_commit u d (h u (List.mem_cons_self ..)))

theorem keepAll_vault {us : List Upd} (d : Dev) (h : leaves .vault us) : (applyAll us d).vault = d.vault := by
  induction us generalizing d with
  | nil => rfl
  | cons u us ih => exact (ih (u.apply d) fun v hv => h v (List.mem_cons_of_mem _ hv)).trans (keep_vault u d (h u (List.mem_cons_self ..)))

theorem keepAll_chain {us : List Upd} (d : Dev) (h : leaves .chain us) : (applyAll us d).chain = d.chain := by
  induction us generalizing d with
  | nil => rfl
  | cons u us ih => exact (ih (u.apply d) fun v hv => h v (List.mem_cons_of_mem _ hv)).trans (keep_chain u d (h u (List.mem_cons_self ..)))

theorem keepAll_ports {us : List Upd} (d : Dev) (h : leaves .ports us) : (applyAll us d).ports = d.ports := by
  induction us generalizing d with
  | nil => rfl
  | cons u us ih => exact (ih (u.apply d) fun v hv => h v (List.mem_cons_of_mem _ hv)).trans (keep_ports u d (h u (List.mem_cons_self ..)))

theorem keepAll_route {us : List Upd} (d : Dev) (h : leaves .route us) : (applyAll us d).route = d.route := by
  induction us generalizing d with
  | nil => rfl
  | cons u us ih => exact (ih (u.apply d) fun v hv => h v (List.mem_cons_of_mem _ hv)).trans (keep_route u d (h u (List.mem_cons_self ..)))

theorem keepAll_svc {us : List Upd} (d : Dev) (h : leaves .svc us) : (applyAll us d).svc = d.svc := by
  induction us generalizing d with
  | nil => rfl
  | cons u us ih => exact (ih (u.apply d) fun v hv => h v (List.mem_cons_of_mem _ hv)).trans (keep_svc u d (h u (List.mem_cons_self ..)))

theorem keepAll_start {us : List Upd} (d : Dev) (h : leaves .start us) : (applyAll us d).start = d.start := by
  induction us generalizing d with
  | nil => rfl
  | cons u us ih => exact (ih (u.apply d) fun v hv => h v (List.mem_cons_of_mem _ hv)).trans (keep_start u d (h u (List.mem_cons_self ..)))

theorem keepAll_secure {us : List Upd} (d : Dev) (h : leaves .secure us) : (applyAll us d).secure = d.secure := by
  induction us generalizing d with
  | nil => rfl
  | cons u us ih => exact (ih (u.apply d) fun v hv => h v (List.mem_cons_of_mem _ hv)).trans (keep_secure u d (h u (List.mem_cons_self ..)))

theorem keepAll_power {us : List Upd} (d : Dev) (h : leaves .power us) : (applyAll us d).power = d.power := by
  induction us generalizing d with
  | nil => rfl
  | cons u us ih => exact (ih (u.apply d) fun v hv => h v (List.mem_cons_of_mem _ hv)).trans (keep_power u d (h u (List.mem_cons_self ..)))

theorem keepAll_board {us : List Upd} (d : Dev) (h : leaves .board us) : (applyAll us d).board = d.board := by
  induction us generalizing d with
  | nil => rfl
  | cons u us ih => exact (ih (u.apply d) fun v hv => h v (List.mem_cons_of_mem _ hv)).trans (keep_board u d (h u (List.mem_cons_self ..)))

theorem keepAll_servo {us : List Upd} (d : Dev) (h : leaves .servo us) : (applyAll us d).servo = d.servo := by
  induction us generalizing d with
  | nil => rfl
  | cons u us ih => exact (ih (u.apply d) fun v hv => h v (List.mem_cons_of_mem _ hv)).trans (keep_servo u d (h u (List.mem_cons_self ..)))

theorem keepAll_snapInfo {us : List Upd} (d : Dev) (h : leaves .snapInfo us) : (applyAll us d).snapInfo = d.snapInfo := by
  induction us generalizing d with
  | nil => rfl
  | cons u us ih => exact (ih (u.apply d) fun v hv => h v (List.mem_cons_of_mem _ hv)).trans (keep_snapInfo u d (h u (List.mem_cons_self ..)))

theorem keepAll_snapPend {us : List Upd} (d : Dev) (h : leaves .snapPend us) : (applyAll us d).snapPend = d.snapPend := by
  induction us generalizing d with
  | nil => rfl
  | cons u us ih => exact (ih (u.apply d) fun v hv => h v (List.mem_cons_of_mem _ hv)).trans (keep_snapPend u d (h u (List.mem_cons_self ..)))

theorem keepAll_snapPub {us : List Upd} (d : Dev) (h : leaves .snapPub us) : (applyAll us d).snapPub = d.snapPub := by
  induction us generalizing d with
  | nil => rfl
  | cons u us ih => exact (ih (u.apply d) fun v hv => h v (List.mem_cons_of_mem _ hv)).trans (keep_snapPub u d (h u (List.mem_cons_self ..)))

theorem keepAll_spmLost {us : List Upd} (d : Dev) (h : leaves .spmLost us) : (applyAll us d).spmLost = d.spmLost := by
  induction us generalizing d with
  | nil => rfl
  | cons u us ih => exact (ih (u.apply d) fun v hv => h v (List.mem_cons_of_mem _ hv)).trans (keep_spmLost u d (h u (List.mem_cons_self ..)))

theorem keepAll_frozen {us : List Upd} (d : Dev) (h : leaves .frozen us) : (applyAll us d).frozen = d.frozen := by
  induction us generalizing d with
  | nil => rfl
  | cons u us ih => exact (ih (u.apply d) fun v hv => h v (List.mem_cons_of_mem _ hv)).trans (keep_frozen u d (h u (List.mem_cons_self ..)))

theorem keepAll_outbox {us : List Upd} (d : Dev) (h : leaves .outbox us) : (applyAll us d).outbox = d.outbox := by
  induction us generalizing d with
  | nil => rfl
  | cons u us ih => exact (ih (u.apply d) fun v hv => h v (List.mem_cons_of_mem _ hv)).trans (keep_outbox u d (h u (List.mem_cons_self ..)))

theorem keepAll_freeCtr {us : List Upd} (d : Dev) (h : leaves .freeCtr us) : (applyAll us d).freeCtr = d.freeCtr := by
  induction us generalizing d with
  | nil => rfl
  | cons u us ih => exact (ih (u.apply d) fun v hv => h v (List.mem_cons_of_mem _ hv)).trans (keep_freeCtr u d (h u (List.mem_cons_self ..)))

@[simp] theorem touches_setF (f : Fld) (i v : Nat) : (setF f i v).touches = [.regs] := rfl
@[simp] theorem touches_setB (f : Fld) (i : Nat) (b : Bool) : (setB f i b).touches = [.regs] := rfl
@[simp] theorem touches_addF (f : Fld) (i n : Nat) : (addF f i n).touches = [.regs] := rfl
@[simp] theorem touches_satF (f : Fld) (i n : Nat) : (satF f i n).touches = [.regs] := rfl
@[simp] theorem touches_maxF (f : Fld) (i n : Nat) : (maxF f i n).touches = [.regs] := rfl
@[simp] theorem touches_ctxUpd (d : Dev) (c n : Nat) (g : ThreadCtx → ThreadCtx) : (ctxUpd d c n g).touches = [.cores] := rfl

@[simp] theorem leaves_stepPast (p : Part) (d : Dev) (c n : Nat) (g : ThreadCtx → ThreadCtx) :
    leaves p (stepPast d c n g) ↔ p ∉ [Part.regs] ∧ p ∉ [Part.cores] := by simp [stepPast]

/-! ### Registers -/

/-- Whether an update may write a register. What the router writes is not told apart. -/
def Upd.mayWrite (u : Upd) (r : Reg) : Bool :=
  match u with
  | .fld f _ _ => f.reg = r
  | .event _ _ | .sendEvents | .ask _ _ => modeReg r
  | .inject _ | .pump | .routed _ | .restart _ => true
  | _ => false

/-- No update of a list may write a register. -/
def spares (r : Reg) (us : List Upd) : Prop := ∀ u ∈ us, u.mayWrite r = false

@[simp] theorem spares_nil (r : Reg) : spares r [] := fun _ h => nomatch h
@[simp] theorem spares_cons (r : Reg) (u : Upd) (us : List Upd) : spares r (u :: us) ↔ u.mayWrite r = false ∧ spares r us := by
  simp [spares]
@[simp] theorem spares_append (r : Reg) (us vs : List Upd) : spares r (us ++ vs) ↔ spares r us ∧ spares r vs := by
  simp only [spares, List.mem_append, or_imp, forall_and]
@[simp] theorem mayWrite_fld (f : Fld) (i : Nat) (g : Nat → Nat) (r : Reg) : (Upd.fld f i g).mayWrite r = decide (f.reg = r) := rfl
@[simp] theorem mayWrite_core (c : Nat) (g : CoreSt → CoreSt) (r : Reg) : (Upd.core c g).mayWrite r = false := rfl
@[simp] theorem mayWrite_setF (f : Fld) (i v : Nat) (r : Reg) : (setF f i v).mayWrite r = decide (f.reg = r) := rfl
@[simp] theorem mayWrite_setB (f : Fld) (i : Nat) (b : Bool) (r : Reg) : (setB f i b).mayWrite r = decide (f.reg = r) := rfl
@[simp] theorem mayWrite_addF (f : Fld) (i n : Nat) (r : Reg) : (addF f i n).mayWrite r = decide (f.reg = r) := rfl
@[simp] theorem mayWrite_satF (f : Fld) (i n : Nat) (r : Reg) : (satF f i n).mayWrite r = decide (f.reg = r) := rfl
@[simp] theorem mayWrite_maxF (f : Fld) (i n : Nat) (r : Reg) : (maxF f i n).mayWrite r = decide (f.reg = r) := rfl
@[simp] theorem mayWrite_ctxUpd (d : Dev) (c n : Nat) (g : ThreadCtx → ThreadCtx) (r : Reg) : (ctxUpd d c n g).mayWrite r = false := rfl
@[simp] theorem spares_stepPast (r : Reg) (d : Dev) (c n : Nat) (g : ThreadCtx → ThreadCtx) :
    spares r (stepPast d c n g) ↔ Reg.SEQ_ISSUE ≠ r := by simp [stepPast]

theorem reg_apply (u : Upd) (d : Dev) {r : Reg} (h : u.mayWrite r = false) (i : Nat) : (u.apply d).reg r i = d.reg r i := by
  have key : ∀ d' : Dev, d'.regs = d.regs → d'.reg r i = d.reg r i := fun d' e => by simp only [Dev.reg, e]
  cases u with
  | fld f j g => exact reg_setFld_other d f j g (.inl fun e => by simp [e] at h)
  | event k b => exact (quiet_raise d k b).reg r i h
  | sendEvents => exact (quiet_sendEvents _ d).reg r i h
  | ask b m => exact (quiet_ask d b m).reg r i h
  | inject p => cases h
  | pump => cases h
  | routed q => cases h
  | restart w => cases h
  | _ => exact key _ (keep_regs _ d (by simp))

/-- A register that no update of a list may write reads as before. -/
theorem reg_applyAll {us : List Upd} {r : Reg} (d : Dev) (h : spares r us) (i : Nat) : (applyAll us d).reg r i = d.reg r i := by
  induction us generalizing d with
  | nil => rfl
  | cons u us ih =>
    exact (ih (u.apply d) fun v hv => h v (List.mem_cons_of_mem _ hv)).trans (reg_apply u d (h u (List.mem_cons_self ..)) i)

theorem fld_applyAll {us : List Upd} {f : Fld} (d : Dev) (h : spares f.reg us) (i : Nat) : (applyAll us d).fld f i = d.fld f i := by
  simp only [Dev.fld, reg_applyAll d h i]

/-! ### Whole acts -/

/-- An act that leaves a part in every state. -/
def Leaves (p : Part) (a : Act) : Prop := ∀ d, leaves p (a d)

theorem Leaves.nil (p : Part) : Leaves p noAct := fun _ => leaves_nil p

theorem Leaves.inSequence {p : Part} {as : List Act} (h : ∀ a ∈ as, Leaves p a) : Leaves p (inSequence as) := by
  induction as with
  | nil => exact fun _ => leaves_nil p
  | cons a as ih =>
    intro d
    simp only [Sys2Proof.Machine.inSequence, leaves_append]
    exact ⟨h a (List.mem_cons_self ..) d, ih (fun b hb => h b (List.mem_cons_of_mem _ hb)) _⟩

theorem Leaves.forEach {α : Type} {p : Part} {f : α → Act} {xs : List α} (h : ∀ x ∈ xs, Leaves p (f x)) : Leaves p (forEach f xs) := by
  apply Leaves.inSequence
  intro a ha
  obtain ⟨x, hx, rfl⟩ := List.mem_map.1 ha
  exact h x hx

theorem Leaves.onlyIf {p : Part} {b : Bool} {a : Act} (h : Leaves p a) : Leaves p (onlyIf b a) := by
  intro d
  unfold Sys2Proof.Machine.onlyIf
  split
  · exact h d
  · exact leaves_nil p

end Sys2Proof.Machine
end

