-- ==== Sys2Proof/Laws/Issue.lean ====
section
/-! SUPPORT. Issue: how a command's own act gives its next state, and what the issue of an operation changes. -/

namespace Sys2Proof.Machine

theorem core_set (d : Dev) (c : Nat) (v : CoreSt) (c' : Nat) :
    Dev.core { d with cores := mapSet (fun _ => CoreSt.init) c v d.cores } c' = if c' = c then v else d.core c' := by
  unfold Dev.core
  split
  · subst_vars; simp
  · rw [mapGet_mapSet_other _ _ _ ‹_›]

theorem completes_powered {i : Instr} {s : State} {a : Act} {P : Dev → Prop} (he : exec i s = perform (onPower a) s)
    (hs : s.dev.steady) (hl : (runAct a s.dev).route.lost = []) (h : ∀ d, Quiet (runAct a s.dev) d → P d) : Completes i s P := by
  refine ⟨_, he.trans (perform_eq _ _), rfl, ?_⟩
  rw [withDev_dev, runAct_onPower hs.1]
  exact h _ (quiet_settled a _ hl)

theorem issue_run {k : OpKind} {c n : Nat} {f : BitVec 128 → ThreadCtx → Firing → Act} {d : Dev} {w x fi} (h : d.AtOp c n k w x fi) :
    runAct (issue k c n f) d = runAct (f w x fi) d := by
  obtain ⟨h1, h2, h3, h4⟩ := h
  unfold runAct issue
  rw [h1, h3, h4]
  simp [h2]

theorem quiet_issued {d d' e : Dev} {c : Nat} {cs : CoreSt} {rs} (q : Quiet d' e) (h : Issued d d' c cs rs) : Issued d e c cs rs := by
  have hc : e.cores = d'.cores := q.cores
  have hcore : ∀ c, e.core c = d'.core c := fun c => by unfold Dev.core; rw [hc]
  refine ⟨(hcore c).trans h.core, fun c' hc' => (hcore c').trans (h.cores c' hc'), ?_, ?_, ?_, ?_⟩
  · exact (q.fld (f := F.SEQ_ISSUE_OPS) rfl c).trans h.count
  · exact fun j hj hn => (q.reg _ _ rfl).trans (h.copies j hj hn)
  · intro r i hr hm
    refine (q.reg r i ?_).trans (h.regs r i hr hm)
    cases r <;> first | rfl | (exfalso; revert hm; decide)
  · exact ⟨(congrArg (fun x : Dev => { x with cores := [] }) q.same).trans (h.rest.1) , h.rest.2.1.trans q.sent, by rw [q.power, h.rest.2.2]⟩

theorem issued_stepPast (d : Dev) (c n : Nat) (g : ThreadCtx → ThreadCtx) (hc : c < regCopies) :
    Issued d (applyAll (stepPast d c n g) d) c (d.passed c n g) [] := by
  have e : applyAll (stepPast d c n g) d =
      { (d.setFld F.SEQ_ISSUE_OPS c fun v => (v + 1) % 2 ^ 64) with cores := mapSet (fun _ => CoreSt.init) c (d.passed c n g) d.cores } := rfl
  rw [e]
  refine ⟨?_, ?_, ?_, ?_, ?_, ?_⟩
  · rw [← setFld_cores d F.SEQ_ISSUE_OPS c (fun v => (v + 1) % 2 ^ 64), core_set]; simp
  · intro c' h
    rw [← setFld_cores d F.SEQ_ISSUE_OPS c (fun v => (v + 1) % 2 ^ 64), core_set]; simp [h]; rfl
  · show Dev.fld (d.setFld F.SEQ_ISSUE_OPS c fun v => (v + 1) % 2 ^ 64) F.SEQ_ISSUE_OPS c = _
    rw [fld_setFld_same]; exact Nat.mod_mod _ _
  · intro j hj hn
    show Dev.reg (d.setFld F.SEQ_ISSUE_OPS c fun v => (v + 1) % 2 ^ 64) .SEQ_ISSUE j = _
    exact reg_setFld_other d F.SEQ_ISSUE_OPS c _ (.inr (by rw [Nat.mod_eq_of_lt hj, Nat.mod_eq_of_lt hc]; exact hn))
  · intro r i hr _
    show Dev.reg (d.setFld F.SEQ_ISSUE_OPS c fun v => (v + 1) % 2 ^ 64) r i = _
    exact reg_setFld_other d F.SEQ_ISSUE_OPS c _ (.inl (by simp at hr; exact hr))
  · exact ⟨rfl, List.prefix_rfl, rfl⟩

theorem unwindLoops_params (n : Nat) (x : ThreadCtx) : (unwindLoops n x).params = x.params := by
  induction n generalizing x with
  | zero => rfl
  | succ n ih =>
    unfold unwindLoops
    split
    · rfl
    · split
      · split
        · rfl
        · rw [ih]
      · rfl
theorem startCues_params (cues) (n : Nat) (x : ThreadCtx) : (startCues cues n x).params = x.params := by
  induction n generalizing x with
  | zero => rfl
  | succ n ih =>
    unfold startCues
    split
    · split
      · rw [ih]
      · rfl
    · split
      · rfl
      · split <;> rw [ih]
theorem settle_params (cues) (x : ThreadCtx) : (settle cues x).params = x.params := by
  rw [settle, startCues_params, unwindLoops_params]

theorem ctx_onCtx (n : Nat) (g) (cs : CoreSt) : (onCtx n g cs).ctx n = g (cs.ctx n) := by simp [onCtx, CoreSt.ctx]

theorem issue_completes {k c} {n : Fin 64} {f : BitVec 128 → ThreadCtx → Firing → Act} {s : State} {w x fi g i} (he : exec i s = perform (onPower (issue k c n f)) s)
   (hs : s.dev.steady) (h : s.dev.AtOp c n k w x fi) (hf : f w x fi s.dev = stepPast s.dev c n g) (hc : c < regCopies) :
   Completes i s fun d => Issued s.dev d c (s.dev.passed c n g) [] := by
  have hr : runAct (issue k c n f) s.dev = applyAll (stepPast s.dev c n g) s.dev := by rw [issue_run h]; simp [runAct, hf]
  apply completes_powered he hs
  · rw [hr]; exact hs.2
  · rw [hr]; intro d q; exact quiet_issued q (issued_stepPast _ _ _ _ hc)

/-- A further change of the core that issued. -/
theorem Issued.onCore {d d' : Dev} {c : Nat} {cs : CoreSt} {rs : List Reg} (h : Issued d d' c cs rs) (g : CoreSt → CoreSt) :
    Issued d ((Upd.core c g).apply d') c (g cs) rs := by
  refine ⟨?_, ?_, h.count, h.copies, h.regs, ?_⟩
  · rw [apply_core, core_set, if_pos rfl, h.core]
  · intro c' hc; rw [apply_core, core_set, if_neg hc, h.cores c' hc]
  · exact h.rest

theorem Issued.weaken {d d' : Dev} {c : Nat} {cs : CoreSt} {rs rs' : List Reg} (h : Issued d d' c cs rs) (hr : rs ⊆ rs') :
    Issued d d' c cs rs' :=
  ⟨h.core, h.cores, h.count, h.copies, fun r i hn hm => h.regs r i (fun hx => hn (by
    simp only [List.mem_cons] at hx ⊢; exact hx.imp_right (hr ·))) hm, h.rest⟩

/-- A further register written. -/
theorem Issued.onFld {d d' : Dev} {c : Nat} {cs : CoreSt} {rs : List Reg} (h : Issued d d' c cs rs) {f : Fld} {i : Nat} {g : Nat → Nat}
    (hr : f.reg ∈ rs) (hs : f.reg ≠ .SEQ_ISSUE) : Issued d ((Upd.fld f i g).apply d') c cs rs := by
  refine ⟨h.core, h.cores, ?_, ?_, ?_, h.rest⟩
  · exact (fld_setFld_other d' f i g (f' := F.SEQ_ISSUE_OPS) (.inl (Ne.symm hs))).trans h.count
  · exact fun j hj hn => (reg_setFld_other d' f i g (.inl (Ne.symm hs))).trans (h.copies j hj hn)
  · intro r j hn hm
    refine (reg_setFld_other d' f i g (.inl ?_)).trans (h.regs r j hn hm)
    rintro rfl
    exact hn (List.mem_cons_of_mem _ hr)

theorem lt_copies (c : Fin 25600) : c.val < regCopies := by have := c.isLt; unfold regCopies; omega

theorem nothing_completes {i : Instr} {s : State} {a : Act} (he : exec i s = perform (onPower a) s) (hs : s.dev.steady)
   (hf : runAct a s.dev = s.dev) : Completes i s fun d => d.cores = s.dev.cores ∧ regsBut [] s.dev d ∧ onlyRegs s.dev d := by
  apply completes_powered he hs
  · rw [hf]; exact hs.2
  · rw [hf]; intro d q
    refine ⟨q.cores, ?_, q.same, q.sent, q.power⟩
    intro r i _ hm
    refine q.reg r i ?_
    cases r <;> first | rfl | (exfalso; revert hm; decide)

theorem issue_is {k c n f} {s : State} {w x fi i} {P : Dev → Prop} (he : exec i s = perform (onPower (issue k c n f)) s)
   (hs : s.dev.steady) (h : s.dev.AtOp c n k w x fi) (hl : (runAct (f w x fi) s.dev).route.lost = [])
   (hf : ∀ d, Quiet (runAct (f w x fi) s.dev) d → P d) : Completes i s P := by
  refine completes_powered he hs ?_ ?_
  · rw [issue_run h]; exact hl
  · rw [issue_run h]; exact hf

theorem issued_issue {k c n f} {s : State} {w x fi i cs rs} (he : exec i s = perform (onPower (issue k c n f)) s)
   (hs : s.dev.steady) (h : s.dev.AtOp c n k w x fi) (hl : (runAct (f w x fi) s.dev).route.lost = [])
   (hi : Issued s.dev (runAct (f w x fi) s.dev) c cs rs) : Completes i s fun d => Issued s.dev d c cs rs :=
  issue_is he hs h hl fun _ q => quiet_issued q hi

end Sys2Proof.Machine
end

