-- ==== Sys2Proof/WellFormed.lean ====
section
/-! DEFINITION. Well-formed commands: operands whose sizes are those of the wire formats (R28, R320, R355, R359, R556, R569, R573, R605).
`exec` gives every command a meaning, the ill-formed ones too. -/

namespace Sys2Proof

/-- A flit has 244 payload bytes (R355). -/
def Flit.wf (f : Flit) : Bool := f.payload.length = 244

/-- A packet: an extension of 64 bytes exactly when EXT is set, at most 4,096 payload bytes, and LEN their number (R359). -/
def Packet.wf (p : Packet) : Bool :=
  p.ext.length = (if p.flags.getLsbD 3 then 64 else 0) && p.payload.length ≤ 4096 && p.len.toNat = p.payload.length

/-- KX_HELLO: the sizes of R605. -/
def KxHello.wfHello (m : KxHello) : Bool := m.random.length = 32 && m.kem.length = 1184 && m.ecdh.length = 97

/-- KX_REPLY: the sizes of R605. -/
def KxHello.wfReply (m : KxHello) : Bool := m.random.length = 32 && m.kem.length = 1088 && m.ecdh.length = 97

/-- Blocks of 256 bytes in 512 GiB of HBM (R203). -/
def hbmBlockCount : Nat := 2147483648

/-- A request relayed or received by RELAY, with the payload sizes of R556. -/
def InnerReq.wf (q : InnerReq) : Bool :=
  match q with
  | .regWr _ bytes _ => 1 ≤ bytes && bytes ≤ 8
  | .memRd _ len => 1 ≤ len && len ≤ 1024
  | .memWr _ data => 1 ≤ data.length && data.length ≤ 1024
  | .install _ data => data.length = 1024
  | .regRd _ => true
  | .ltol _ => true
  | .cmd _ => true

/-- Well-formedness of a command. -/
def Instr.wf (i : Instr) : Bool :=
  match i with
  | .registerWrite _ _ bytes _ => 1 ≤ bytes && bytes ≤ 8
  | .leafPacketReceive _ pkt => pkt.wf
  | .gradientLeafReceive _ pkts _ => pkts.all Packet.wf
  | .hbmBlockRead block _ _ => block < hbmBlockCount
  | .dataFlitReceive _ f => f.wf
  | .ctrlFlitReceive _ f => f.wf
  | .nakFlitReceive _ f => f.wf
  | .fenceFlitReceive _ f => f.wf
  | .helloFlitReceive _ f => f.wf
  | .kxHello _ m => m.wfHello
  | .kxReply _ m => m.wfReply
  | .kxDone _ mac => mac.length = 48
  | .writePacketReceive _ pkt => pkt.wf
  | .readReqReceive _ pkt => pkt.wf
  | .readRespReceive _ pkt => pkt.wf
  | .cnpReceive _ pkt => pkt.wf
  | .mirrorWriteReceive _ _ pkt => pkt.wf
  | .memRd _ _ len => 1 ≤ len && len ≤ 1024
  | .memWr _ _ data => 1 ≤ data.length && data.length ≤ 1024
  | .install _ _ data => data.length = 1024
  | .enumerate next _ => 1 ≤ next && next ≤ 24
  | .relay _ _ inner => inner.wf
  | .relayedRequestReceive _ _ inner => inner.wf
  | .hostDma _ _ _ _ _ hbm host len => hbm < 2 ^ 64 && host < 2 ^ 64 && len < 2 ^ 32
  | _ => true

end Sys2Proof
end

