-- ==== Sys2Proof/Tests/Slice0.lean ====
section
/-! SUPPORT. Own checks: ill-formed commands that `wf` refuses, a witness for the hypotheses of every statement, and single commands
against the spec's words. -/

namespace Sys2Proof.Tests

open Sys2Proof.Machine

/-! ### Builders -/

/-- A word from the values of its fields, each with its lowest bit. -/
def word (n : Nat) (fs : List (Nat × Nat)) : BitVec n := BitVec.ofNat n ((fs.map fun f => f.2 * 2 ^ f.1).sum)

/-- A module right after reset, with changes. -/
def devWith (us : List Upd) : State := ⟨[], applyAll us Dev.reset⟩

/-- The module a command leaves; the same where it answers no next state. -/
def after (i : Instr) (s : State) : Dev :=
  match exec i s with
  | .next t => t.dev
  | _ => s.dev

/-- A request over the Cymund chain. -/
def req : Req := ⟨.cymund, 1, 5, false⟩

/-- Slice 1 on the X axis, from (0, 0, 0), four modules long. -/
def desc4 : SliceDesc :=
  { pkey := 1, group := 0, wrap := 1, origin := 0, sizeX := 4, sizeY := 1, sizeZ := 1, useX := 1, useY := 0, useZ := 0,
    tshareX := 0, tshareY := 0, tshareZ := 0, rsv := 0 }

/-- A module at (0, 0, 0) of a 4 × 1 × 1 machine, RUNNING, a member of slice 1. -/
def baseUpds : List Upd := [
  setF F.DEV_COORD_SX 0 4, setF F.DEV_COORD_SY 0 1, setF F.DEV_COORD_SZ 0 1, setF F.DEV_COORD_VALID 0 1,
  setF F.DEV_STATE_STATE 0 stRunning, setF F.CHAIN_ADDR_VALID 0 1,
  .gcnt 5000, .slice 0 fun s => { s with desc := some desc4, baseYear := some 0 }]

/-- The slice's module with changes. -/
def sliceDev (us : List Upd) : State := devWith (baseUpds ++ us)

/-- Ring context 0 live in both directions for slice 1: four modules, eight CW days. -/
def ringUpds : List Upd := [
  setF F.RING_CTL_PKEY 0 1, setF F.RING_CTL_LEN 0 4, setF F.RING_CTL_ARM 0 1, setF F.RING_STATUS_STATE 0 2,
  setF F.RING_DAYS_DAYS_CW 0 8, setF F.RING_DAYS_DAYS_CCW 0 8, setF F.RING_PLAN_CCW_FIRST 0 3, setF F.RING_YEARS_COUNT 0 4]

/-! ### Cores -/

/-- The firing whose operations the cores below run. -/
def fi0 : Firing := { cue := 0, trig := .cw, year := 0, day := 0, bwd := false, idx := 0, step := 0 }

/-- A context about to issue the first of two operations. -/
def ctxAt : ThreadCtx := { ThreadCtx.init with st := .issuing, cur := some fi0, endOp := 2 }

/-- A program of one cue of context 0 on CW day 0, with operations and streams. -/
def progOf (ops : List (BitVec 128)) (streams : List (BitVec 512)) : Program :=
  { cues := [word 128 [(125, 1), (123, 1), (93, 2)]], ops := ops, streams := streams, nsets := 1, slots := [], regions := []
    ctxInit := [] }

/-- The sync table of slice 1: a COUNT word in core 0's scratchpad at byte 128, the home of a barrier of one party beside it, a COUNT word
in HBM at byte 8192, a mirror. -/
def sync1 : SyncTable :=
  { pkey := 1
    entries := [(0, word 128 [(0, 1), (32, 16), (96, 100)]), (1, word 128 [(0, 2), (32, 17), (96, 1)]),
      (2, word 128 [(0, 1), (8, 1), (32, 1024), (96, 100)]), (3, word 128 [(0, 3), (32, 18)])]
    releases := [[0x100]] }

/-- A schedule of slice 1 whose program core 0 runs. -/
def schedOf (p : Program) : Schedule :=
  { pkey := 1, section5 := 0, mode := 0, baseGen := 0, daysCw := 8, daysCcw := 8, programs := [p], coreMap := [(0, 0)]
    clusters := [], mcast := [] }

/-- Core 0 at an operation of a program, with its context and changes. -/
def coreAt (p : Program) (x : ThreadCtx) (us : List Upd) : State :=
  sliceDev (ringUpds ++ [.image [] [] 0 [schedOf p] [sync1],
    .core 0 fun cs => { cs with live := some ⟨0, 0, true⟩, ctxs := [(0, x)] }] ++ us)

/-- Core 0 at the operation `w`, followed by a NOP. -/
def atWord (w : BitVec 128) (us : List Upd) : State := coreAt (progOf [w, word 128 [(120, 1)]] []) ctxAt us

def nopS : State := atWord (word 128 [(120, 1)]) []
def setpW : BitVec 128 := word 128 [(120, 2), (116, 15), (80, 4294967295)]
def setpS : State := atWord setpW []
def loopW : BitVec 128 := word 128 [(120, 3), (108, 1), (71, 3)]
def loopS : State := atWord loopW []
def loopSkipS : State := atWord (word 128 [(120, 3), (108, 1), (71, 0)]) []

theorem witness_NopSetpLoopComplete :
    (nopS.dev.steady ∧ nopS.dev.AtOp 0 0 .nop (word 128 [(120, 1)]) ctxAt fi0) ∧
    (setpS.dev.steady ∧ setpS.dev.AtOp 0 0 .setp setpW ctxAt fi0) ∧
    (loopS.dev.steady ∧ loopS.dev.AtOp 0 0 .loop loopW ctxAt fi0 ∧ loopCount loopW = 3) ∧
    (loopSkipS.dev.steady ∧ loopSkipS.dev.AtOp 0 0 .loop (word 128 [(120, 3), (108, 1), (71, 0)]) ctxAt fi0) := by
  refine ⟨⟨?_, ?_⟩, ⟨?_, ?_⟩, ⟨?_, ?_, ?_⟩, ?_, ?_⟩ <;>
    first
      | exact ⟨by decide +kernel, by decide +kernel⟩
      | exact ⟨by decide +kernel, by decide +kernel, by decide +kernel, by decide +kernel⟩
      | decide +kernel

def commitW : BitVec 128 := word 128 [(120, 0x60)]
def commitS : State := atWord commitW []
def commitTwiceS : State := atWord commitW [.core 0 fun cs => { cs with lastCommit := some 0 }]
def commitLaterS : State := atWord commitW [.core 0 fun cs => { cs with commitWait := some (1, 0, 7) }]
def commitDoneS : State := atWord commitW [.core 0 fun cs => { cs with commitWait := some (0, 3, 0) }]
def commitBehindS : State := coreAt (progOf [commitW] []) { ctxAt with out := [⟨1, []⟩] }
  [.core 0 fun cs => { cs with commitWait := some (0, 3, 0) }]

theorem witness_CommitIssuesAndCompletes :
    (commitS.dev.steady ∧ commitS.dev.AtOp 0 0 .commit commitW ctxAt fi0 ∧ (commitS.dev.core 0).lastCommit ≠ some fi0.step ∧
      (commitS.dev.core 0).commitWait = none) ∧
    (commitTwiceS.dev.AtOp 0 0 .commit commitW ctxAt fi0 ∧ (commitTwiceS.dev.core 0).lastCommit = some fi0.step) ∧
    (commitLaterS.dev.AtOp 0 0 .commit commitW ctxAt fi0 ∧ (commitLaterS.dev.core 0).commitWait = some (1, 0, 7)) ∧
    (commitDoneS.dev.steady ∧ (commitDoneS.dev.core 0).commitWait = some (0, 3, 0) ∧ commitDoneS.dev.coreSlice 0 = some 0 ∧
      commitDoneS.dev.coreRuns 0 = true ∧ commitDoneS.dev.behindCommit 0 3 = false) ∧
    (commitBehindS.dev.coreRuns 0 = true ∧ commitBehindS.dev.behindCommit 0 3 = true) := by
  refine ⟨⟨⟨?_, ?_⟩, ⟨?_, ?_, ?_, ?_⟩, ?_, ?_⟩, ⟨⟨?_, ?_, ?_, ?_⟩, ?_⟩, ⟨⟨?_, ?_, ?_, ?_⟩, ?_⟩, ⟨⟨?_, ?_⟩, ?_⟩, ?_⟩ <;> decide +kernel

/-- VEC ADD of 16 FP32 elements from region 1 and 2 into region 3. -/
def vecW : BitVec 128 := word 128 [(120, 0x20), (112, 1), (99, 1), (94, 1), (89, 1), (84, 2), (79, 3), (23, 16)]
def vecNoneW : BitVec 128 := word 128 [(120, 0x20), (112, 1), (99, 1), (94, 1), (89, 1), (84, 2), (79, 3)]
def sfuW : BitVec 128 := word 128 [(120, 0x21), (112, 1), (99, 1), (94, 1), (89, 1), (79, 3), (23, 16)]

/-- Linear regions of 8 words: region `n` of core 0 from word `8 n`. -/
def regionUpds (rs : List Nat) : List Upd := rs.flatMap fun n =>
  [setF F.SPM_REGION_EN n 1, setF F.SPM_REGION_BASE n (8 * n), setF F.SPM_REGION_SIZE n 8]

def queued (w : BitVec 128) (id : Nat) : UnitOp := ⟨0, id, w, fi0, [], [], 0, false, 0, false⟩

def vecS : State := atWord vecW (regionUpds [1, 2, 3])
def sfuS : State := atWord sfuW (regionUpds [1, 2, 3])
def vecNoneS : State := atWord vecNoneW (regionUpds [1, 2, 3])
def vecHazardCtx : ThreadCtx := { ctxAt with out := [⟨0, [⟨1, none, true⟩]⟩] }
def vecHazardS : State := coreAt (progOf [vecW, 0] []) vecHazardCtx (regionUpds [1, 2, 3])
def vecFullS : State := atWord vecW (regionUpds [1, 2, 3] ++
  [.core 0 fun cs => { cs with vecQ := (List.range 8).map (queued vecW), opCount := 8 }])

theorem witness_VecSfuIssue :
    (vecS.dev.steady ∧ vecS.dev.AtOp 0 0 .vec vecW ctxAt fi0 ∧ (vecFields vecW).len = 16) ∧
    (sfuS.dev.AtOp 0 0 .sfu sfuW ctxAt fi0 ∧ (vecFields sfuW).len = 16) ∧
    (vecNoneS.dev.AtOp 0 0 .vec vecNoneW ctxAt fi0 ∧ (vecFields vecNoneW).len = 0) ∧
    (vecHazardS.dev.AtOp 0 0 .vec vecW vecHazardCtx fi0 ∧ hazard vecHazardCtx (vecHazardS.dev.useOf 0 1 false) = true) ∧
    (vecFullS.dev.AtOp 0 0 .vec vecW ctxAt fi0 ∧ (vecFullS.dev.core 0).vecQ.length = 8) := by
  refine ⟨⟨⟨?_, ?_⟩, ⟨?_, ?_, ?_, ?_⟩, ?_⟩, ⟨⟨?_, ?_, ?_, ?_⟩, ?_⟩, ⟨⟨?_, ?_, ?_, ?_⟩, ?_⟩, ⟨⟨?_, ?_, ?_, ?_⟩, ?_⟩,
    ⟨?_, ?_, ?_, ?_⟩, ?_⟩ <;> decide +kernel

/-- A TILE of FP32 operands: X in region 1, W in region 2, C in region 4, output in region 3; rows, columns and terms as given. -/
def tileW (m n k hold : Nat) : BitVec 128 := word 128 [(120, 0x10), (99, 1), (94, 1), (89, 1), (84, 1), (75, 2), (70, 1), (65, 4),
  (60, 3), (44, m), (24, n), (4, k), (3, hold)]
def tileS (w : BitVec 128) : State := atWord w (regionUpds [1, 2, 3, 4])
def tileHazardS : State := coreAt (progOf [tileW 16 16 16 0, 0] []) vecHazardCtx (regionUpds [1, 2, 3, 4])
def tileFullS : State := atWord (tileW 16 16 16 0) (regionUpds [1, 2, 3, 4] ++
  [.core 0 fun cs => { cs with tileQ := (List.range 4).map (queued (tileW 16 16 16 0)), opCount := 4 }])

theorem witness_TileIssues :
    ((tileS (tileW 16 16 16 0)).dev.steady ∧ (tileS (tileW 16 16 16 0)).dev.AtOp 0 0 .tile (tileW 16 16 16 0) ctxAt fi0 ∧
      tileUnit ((tileS (tileW 16 16 16 0)).dev.geom 0) (tileFields (tileW 16 16 16 0)) false = .arrays) ∧
    ((tileS (tileW 1 1 3 0)).dev.AtOp 0 0 .tile (tileW 1 1 3 0) ctxAt fi0 ∧
      tileUnit ((tileS (tileW 1 1 3 0)).dev.geom 0) (tileFields (tileW 1 1 3 0)) false = .thin) ∧
    ((tileS (tileW 1 1 0 0)).dev.AtOp 0 0 .tile (tileW 1 1 0 0) ctxAt fi0 ∧
      tileUnit ((tileS (tileW 1 1 0 0)).dev.geom 0) (tileFields (tileW 1 1 0 0)) false = .vector) ∧
    ((tileS (tileW 0 1 1 0)).dev.AtOp 0 0 .tile (tileW 0 1 1 0) ctxAt fi0 ∧
      tileUnit ((tileS (tileW 0 1 1 0)).dev.geom 0) (tileFields (tileW 0 1 1 0)) false = .none) ∧
    (tileHazardS.dev.AtOp 0 0 .tile (tileW 16 16 16 0) vecHazardCtx fi0 ∧
      hazard vecHazardCtx (tileUses tileHazardS.dev 0 (tileFields (tileW 16 16 16 0)) .arrays) = true) ∧
    (tileFullS.dev.AtOp 0 0 .tile (tileW 16 16 16 0) ctxAt fi0 ∧ tileRoom (tileFullS.dev.core 0) .arrays false = false) := by
  refine ⟨⟨⟨?_, ?_⟩, ⟨?_, ?_, ?_, ?_⟩, ?_⟩, ⟨⟨?_, ?_, ?_, ?_⟩, ?_⟩, ⟨⟨?_, ?_, ?_, ?_⟩, ?_⟩, ⟨⟨?_, ?_, ?_, ?_⟩, ?_⟩,
    ⟨⟨?_, ?_, ?_, ?_⟩, ?_⟩, ⟨?_, ?_, ?_, ?_⟩, ?_⟩ <;> decide +kernel

/-- A stream: the descriptor fields given, one run of 256 bytes at HBM address 4096, with region 1. -/
def streamW (fs : List (Nat × Nat)) : BitVec 512 :=
  word 512 ([(0, 1), (24, 1), (64, 4096), (128, 256), (160, 1), (192, 1), (224, 1)] ++ fs)
def drainW (fs : List (Nat × Nat)) : BitVec 512 :=
  word 512 ([(0, 2), (24, 1), (64, 4096), (128, 256), (160, 1), (192, 1), (224, 1)] ++ fs)
def armW : BitVec 128 := word 128 [(120, 0x30)]
def rearmW : BitVec 128 := word 128 [(120, 0x31), (70, 8192), (58, 2), (26, 4294967040)]
def armOf (base : Int) : Arm := ⟨0, base, false, 0, false, 1, none, 0, fi0⟩

def armS (w : BitVec 128) (us : List Upd) : State := coreAt (progOf [w, 0] [streamW []]) ctxAt (regionUpds [1] ++ us)
def armFullS (w : BitVec 128) : State := armS w [.core 0 fun cs => { cs with
  fetch0 := ⟨(List.range 8).map fun _ => armOf 4096, none⟩, armedCnt := [(0, 8)] }]
def armHazardS : State := coreAt (progOf [armW, 0] [streamW []]) vecHazardCtx (regionUpds [1])

theorem witness_ArmRearmQueue :
    ((armS armW []).dev.steady ∧ (armS armW []).dev.AtOp 0 0 .arm armW ctxAt fi0 ∧
      (armS armW []).dev.desc 0 0 = some (descOf (streamW [])) ∧
      hazard ctxAt (armUses (armS armW []).dev 0 (descOf (streamW []))) = false) ∧
    ((armS rearmW []).dev.AtOp 0 0 .rearm rearmW ctxAt fi0 ∧ (armS rearmW []).dev.desc 0 0 = some (descOf (streamW []))) ∧
    ((armFullS armW).dev.AtOp 0 0 .arm armW ctxAt fi0 ∧ ((armFullS armW).dev.core 0).fetch0.queue.length = 8) ∧
    (armHazardS.dev.AtOp 0 0 .arm armW vecHazardCtx fi0 ∧
      hazard vecHazardCtx (armUses armHazardS.dev 0 (descOf (streamW []))) = true) := by
  refine ⟨⟨⟨?_, ?_⟩, ⟨?_, ?_, ?_, ?_⟩, ?_, ?_⟩, ⟨⟨?_, ?_, ?_, ?_⟩, ?_⟩, ⟨⟨?_, ?_, ?_, ?_⟩, ?_⟩, ⟨?_, ?_, ?_, ?_⟩, ?_⟩ <;>
    decide +kernel

def swapW : BitVec 128 := word 128 [(120, 0x32), (115, 1), (114, 1)]
def swaitW : BitVec 128 := word 128 [(120, 0x33)]
def digestW (on : Nat) : BitVec 128 := word 128 [(120, 0x50), (96, 7), (95, on)]
def doubleW : BitVec 512 := streamW [(19, 1)]
def swapS : State := coreAt (progOf [swapW, 0] [doubleW]) ctxAt (regionUpds [1] ++ [.core 0 fun cs => { cs with opCount := 4 }])
/-- As `swapS`, while operation 2 writes the fill half. -/
def busyCtx : ThreadCtx := { ctxAt with out := [⟨2, [⟨1, some false, true⟩]⟩] }
def swapBusyS : State := coreAt (progOf [swapW, 0] [doubleW]) busyCtx (regionUpds [1] ++ [.core 0 fun cs => { cs with opCount := 4 }])
def swaitS : State := coreAt (progOf [swaitW, 0] [streamW []]) ctxAt [.core 0 fun cs => { cs with armedCnt := [(0, 2)], doneCnt := [(0, 2)] }]
def swaitBehindS : State := coreAt (progOf [swaitW, 0] [streamW []]) ctxAt [.core 0 fun cs => { cs with armedCnt := [(0, 2)], doneCnt := [(0, 1)] }]
def digestS (on : Nat) : State := coreAt (progOf [digestW on, 0] [streamW []]) ctxAt [.core 0 fun cs => { cs with digestOn := [(0, 3)] }]

theorem witness_SwapSwaitDigestIssue :
    (swapS.dev.steady ∧ swapS.dev.AtOp 0 0 .swap swapW ctxAt fi0 ∧ swapBlocked swapS.dev 0 1 4 = false) ∧
    (swapBusyS.dev.AtOp 0 0 .swap swapW busyCtx fi0 ∧ swapBlocked swapBusyS.dev 0 1 4 = true) ∧
    (swaitS.dev.AtOp 0 0 .swait swaitW ctxAt fi0 ∧ countOf (swaitS.dev.core 0).doneCnt 0 = countOf (swaitS.dev.core 0).armedCnt 0) ∧
    (swaitBehindS.dev.AtOp 0 0 .swait swaitW ctxAt fi0 ∧
      countOf (swaitBehindS.dev.core 0).doneCnt 0 ≠ countOf (swaitBehindS.dev.core 0).armedCnt 0) ∧
    ((digestS 1).dev.AtOp 0 0 .digest (digestW 1) ctxAt fi0 ∧ (digestS 0).dev.AtOp 0 0 .digest (digestW 0) ctxAt fi0) := by
  refine ⟨⟨⟨?_, ?_⟩, ⟨?_, ?_, ?_, ?_⟩, ?_⟩, ⟨⟨?_, ?_, ?_, ?_⟩, ?_⟩, ⟨⟨?_, ?_, ?_, ?_⟩, ?_⟩, ⟨⟨?_, ?_, ?_, ?_⟩, ?_⟩,
    ⟨?_, ?_, ?_, ?_⟩, ⟨?_, ?_, ?_, ?_⟩⟩ <;> decide +kernel

/-! ### Completions -/

/-- FP32 1.0 and 2.0 as bytes, some times over. -/
def ones (n : Nat) : List Byte := (List.range n).flatMap fun _ => [0, 0, 0x80, 0x3F]
def twos (n : Nat) : List Byte := (List.range n).flatMap fun _ => [0, 0, 0, 0x40]

def outCtx (id : Nat) : ThreadCtx := { ctxAt with nextOp := 1, out := [⟨id, []⟩] }
def vecQueuedS (w : BitVec 128) : State := coreAt (progOf [w, 0] []) (outCtx 3) (regionUpds [1, 2, 3] ++
  [.spm 0 512 (ones 16), .spm 0 1024 (twos 16), .core 0 fun cs => { cs with vecQ := [queued w 3], opCount := 4 }])

theorem witness_VecCompletes :
    (vecQueuedS vecW).dev.steady ∧ ((vecQueuedS vecW).dev.core 0).vecQ = [queued vecW 3] ∧ opKind vecW = some .vec ∧
    ((readOperand (vecQueuedS vecW).dev 0 (queued vecW 3) 1 0 64 vecEngine).map fun r => r.ws) = some [8] ∧
    ((readOperand (vecQueuedS vecW).dev 0 (queued vecW 3) 2 0 64 vecEngine).map fun r => r.ws) = some [16] ∧
    ((destWords (vecQueuedS vecW).dev 0 (queued vecW 3) 3 0 64 vecEngine).map fun r => r.1) = some [24] ∧
    (vecQueuedS vecW).dev.parityBad 0 [8, 16] = none ∧
    ((vecQueuedS sfuW).dev.core 0).vecQ = [queued sfuW 3] ∧ opKind sfuW = some .sfu := by
  refine ⟨⟨?_, ?_⟩, ?_, ?_, ?_, ?_, ?_, ?_, ?_, ?_⟩ <;> decide +kernel

/-- R290: VEC ADD of 1.0 and 2.0 writes 3.0. -/
theorem test_vec_add : (after (.vecComplete 0) (vecQueuedS vecW)).readSpm 0 1536 8 = [0, 0, 0x40, 0x40, 0, 0, 0x40, 0x40] := by
  decide +kernel

/-- A thin TILE of 1 × 1 over three terms, and a TILE of the arrays, queued behind nothing. -/
def tileQueuedS (w : BitVec 128) (thin : Bool) : State := coreAt (progOf [w, 0] []) (outCtx 3) (regionUpds [1, 2, 3, 4] ++
  [.spm 0 512 (ones 16), .spm 0 1024 (twos 16), .core 0 fun cs => { cs with
    thinQ := if thin then [queued w 3] else [], tileQ := if thin then [] else [queued w 3], opCount := 4 }])

theorem witness_TileCompletes :
    (tileQueuedS (tileW 1 1 3 0) true).dev.steady ∧
    ((tileQueuedS (tileW 1 1 3 0) true).dev.core 0).thinQ = [queued (tileW 1 1 3 0) 3] ∧
    ((readOperand (tileQueuedS (tileW 1 1 3 0) true).dev 0 (queued (tileW 1 1 3 0) 3) 1 0 (matBytes 1 false 1 3) tileEngine).isSome) = true ∧
    ((destWords (tileQueuedS (tileW 1 1 3 0) true).dev 0 (queued (tileW 1 1 3 0) 3) 3 0 (matBytes 1 false 1 1) tileEngine).isSome) = true ∧
    ((tileQueuedS (tileW 2 2 1 1) false).dev.core 0).tileQ = [queued (tileW 2 2 1 1) 3] ∧ (tileFields (tileW 2 2 1 1)).hold = true := by
  refine ⟨⟨?_, ?_⟩, ?_, ?_, ?_, ?_, ?_⟩ <;> decide +kernel

def parityS : State := coreAt (progOf [vecW, 0] []) (outCtx 3) (regionUpds [1, 2, 3] ++
  [.spmParity fun _ => [3071], .core 0 fun cs => { cs with vecQ := [queued vecW 3], opCount := 4 }])
def drainingS : State := coreAt (progOf [] []) ctxAt [.core 0 fun cs => { cs with drainA := 1, drainB := 2, stallB := some 7 }]
def dummiesS : State := coreAt (progOf [] []) ctxAt [.core 0 fun cs => { cs with dummyA := some 4800, dummyB := some 4801 }]

theorem witness_ArraysAreTimed :
    (parityS.dev.parityBad 0 [8, 3071] = some 3071) ∧
    (drainingS.dev.steady ∧ 0 < (drainingS.dev.core 0).drainA ∧ 0 < (drainingS.dev.core 0).drainB) ∧
    (dummiesS.dev.steady ∧ (dummiesS.dev.core 0).dummyA = some 4800 ∧ 4800 + 200 ≤ dummiesS.dev.now ∧
      (dummiesS.dev.core 0).dummyB = some 4801 ∧ dummiesS.dev.now < 4801 + 200) := by
  refine ⟨?_, ⟨⟨?_, ?_⟩, ?_, ?_⟩, ⟨?_, ?_⟩, ?_, ?_, ?_, ?_⟩ <;> decide +kernel

/-! ### Synchronisation operations -/

def signalW (fs : List (Nat × Nat)) : BitVec 128 := word 128 ([(120, 0x40)] ++ fs)
/-- Set word 0 to 7; arrive at barrier 1; set word 5 of module (1, 0, 0); set word 0 after stream 0. -/
def setW : BitVec 128 := signalW [(105, 1), (56, 7)]
def arriveW : BitVec 128 := signalW [(108, 1), (105, 2)]
def remoteW : BitVec 128 := signalW [(108, 5), (105, 1), (104, 1), (92, 0x100), (56, 7)]
def afterW : BitVec 128 := signalW [(105, 1), (56, 7), (47, 1)]
def signalS (w : BitVec 128) : State := coreAt (progOf [w, 0] [streamW []]) ctxAt [.core 0 fun cs => { cs with armedCnt := [(0, 1)] }]

theorem witness_SignalActs :
    ((signalS setW).dev.steady ∧ (signalS setW).dev.AtOp 0 0 .signal setW ctxAt fi0 ∧ (signalS setW).dev.coreSlice 0 = some 0 ∧
      syncRoom ((signalS setW).dev.core 0) = true ∧
      updateWord ((signalS setW).dev.syncEntry 1 0) 0 1 7 false = .inr 7 ∧ syncAddr ((signalS setW).dev.syncEntry 1 0) = 16) ∧
    ((signalS arriveW).dev.AtOp 0 0 .signal arriveW ctxAt fi0 ∧
      updateWord ((signalS arriveW).dev.syncEntry 1 1) 0 2 0 false = .inr 65536 ∧
      syncRelease ((signalS arriveW).dev.syncEntry 1 1) ≠ 1023 ∧ (signalS arriveW).dev.syncTable 1 = some sync1) ∧
    ((signalS remoteW).dev.AtOp 0 0 .signal remoteW ctxAt fi0 ∧ signalRemote remoteW = true) ∧
    ((signalS afterW).dev.AtOp 0 0 .signal afterW ctxAt fi0 ∧ signalAfterV afterW = true ∧
      countOf ((signalS afterW).dev.core 0).armedCnt 0 ≠ countOf ((signalS afterW).dev.core 0).doneCnt 0) := by
  refine ⟨⟨⟨?_, ?_⟩, ⟨?_, ?_, ?_, ?_⟩, ?_, ?_, ?_, ?_⟩, ⟨⟨?_, ?_, ?_, ?_⟩, ?_, ?_, ?_⟩, ⟨⟨?_, ?_, ?_, ?_⟩, ?_⟩,
    ⟨?_, ?_, ?_, ?_⟩, ?_, ?_⟩ <;> decide +kernel

def syncwaitW (id val : Nat) : BitVec 128 := word 128 [(120, 0x41), (108, id), (56, val)]
def syncwaitS (id val : Nat) (us : List Upd) : State := coreAt (progOf [syncwaitW id val, 0] []) ctxAt us
/-- The channel of byte 8192 with every monitor entry taken. -/
def monitorsFull : List Upd := [.chan 32 fun ch => { ch with monitors := (List.range 64).map fun i => (1, i) }]

theorem witness_SyncwaitActs :
    ((syncwaitS 0 0 []).dev.steady ∧ (syncwaitS 0 0 []).dev.AtOp 0 0 .syncwait (syncwaitW 0 0) ctxAt fi0 ∧
      (syncwaitS 0 0 []).dev.coreSlice 0 = some 0 ∧ condMet ctxAt 0 0 0 0 = true) ∧
    ((syncwaitS 2 5 []).dev.AtOp 0 0 .syncwait (syncwaitW 2 5) ctxAt fi0 ∧ condMet ctxAt 2 0 5 0 = false ∧
      syncLoc ((syncwaitS 2 5 []).dev.syncEntry 1 2) = .hbm 8192 ∧ ((syncwaitS 2 5 []).dev.chan (channelOf 8192)).monitors = []) ∧
    ((syncwaitS 2 5 monitorsFull).dev.AtOp 0 0 .syncwait (syncwaitW 2 5) ctxAt fi0 ∧
      ((syncwaitS 2 5 monitorsFull).dev.chan (channelOf 8192)).monitors.length = 64) := by
  refine ⟨⟨⟨?_, ?_⟩, ⟨?_, ?_, ?_, ?_⟩, ?_, ?_⟩, ⟨⟨?_, ?_, ?_, ?_⟩, ?_, ?_, ?_⟩, ⟨?_, ?_, ?_, ?_⟩, ?_⟩ <;> decide +kernel

/-! ### Streams -/

/-- An engine about to start an arm of stream 0. -/
def startS (ds : BitVec 512) (a : Arm) : State := coreAt (progOf [] [ds]) ctxAt (regionUpds [1] ++
  [.core 0 fun cs => { cs with fetch0 := ⟨[a], none⟩, armedCnt := [(0, 1)] }])
/-- A run that ends beyond HBM, and a stream of no bytes. -/
def farArm : Arm := armOf 549755813760
def emptyW : BitVec 512 := word 512 [(0, 1), (24, 1), (64, 4096), (160, 1), (192, 1), (224, 1)]

/-- The bytes that a transfer of core 0 finds at its start, none where it fails. -/
def bytesAtStart (s : State) (x : Desc) (a : Arm) : Option Nat :=
  match startRuns s.dev 0 x a 1 with
  | .runs rs _ => some (stringBytes s.dev x rs)
  | .fault _ _ => none

theorem witness_TransferStarts :
    ((startS (streamW []) (armOf 4096)).dev.steady ∧ (startS (streamW []) (armOf 4096)).dev.coreSlice 0 = some 0 ∧
      ((startS (streamW []) (armOf 4096)).dev.core 0).engine .fetch0 = ⟨[armOf 4096], none⟩ ∧
      (startS (streamW []) (armOf 4096)).dev.desc 0 0 = some (descOf (streamW [])) ∧
      (startS (streamW []) (armOf 4096)).dev.coreRuns 0 = true ∧ (descOf (streamW [])).mcast = false) ∧
    bytesAtStart (startS (streamW []) (armOf 4096)) (descOf (streamW [])) (armOf 4096) = some 256 ∧
    bytesAtStart (startS emptyW (armOf 4096)) (descOf emptyW) (armOf 4096) = some 0 ∧
    bytesAtStart (startS (streamW []) farArm) (descOf (streamW [])) farArm = none := by
  refine ⟨⟨⟨?_, ?_⟩, ?_, ?_, ?_, ?_, ?_⟩, ?_, ?_, ?_⟩ <;> decide +kernel

/-- An engine that serves stream 0: 256 bytes at 4096, with some moved. -/
def runOf4096 : Run := ⟨4096, 256, 0⟩
def servedS (ds : BitVec 512) (e : Engine) (moved : Nat) (us : List Upd) : State := coreAt (progOf [] [ds]) ctxAt
  (regionUpds [1] ++ [.hbm 4096 (ones 64), .spm 0 512 (twos 64), .core 0 fun cs => onEngine e (fun _ =>
    ⟨[armOf 4096], some ⟨[runOf4096], moved, 5000, none, 0⟩⟩) { cs with armedCnt := [(0, 1)] }] ++ us)
def queueW : BitVec 512 := streamW [(19, 2)]
/-- Region 1 of eight words with `n` held. -/
def holding (n : Nat) : List Upd := [setF F.SPM_REGION_TAIL 1 (n % 8), setF F.SPM_REGION_TAIL_WRAP 1 (n / 8)]

theorem witness_TransfersComplete :
    ((servedS (streamW []) .fetch0 0 []).dev.steady ∧ (servedS (streamW []) .fetch0 0 []).dev.coreSlice 0 = some 0 ∧
      inService (servedS (streamW []) .fetch0 0 []).dev 0 .fetch0 =
        some (armOf 4096, ⟨[runOf4096], 0, 5000, none, 0⟩, descOf (streamW [])) ∧
      (servedS (streamW []) .fetch0 0 []).dev.coreRuns 0 = true ∧
      aftersOf ((servedS (streamW []) .fetch0 0 []).dev.core 0) (armOf 4096) = []) ∧
    (queueBytes (servedS queueW .fetch0 0 (holding 4)).dev 0 (descOf queueW) ⟨[runOf4096], 0, 5000, none, 0⟩ = 256) ∧
    ((servedS (drainW []) .drain 0 []).dev.steady ∧ inService (servedS (drainW []) .drain 0 []).dev 0 .drain =
        some (armOf 4096, ⟨[runOf4096], 0, 5000, none, 0⟩, descOf (drainW [])) ∧
      (descOf (drainW [])).buf = .linear ∧ (servedS (drainW []) .drain 0 []).dev.isCommitted 1 4096 = false ∧
      (servedS (drainW []) .drain 0 []).dev.shareRing 1 4096 = none ∧
      (servedS (drainW []) .drain 0 []).dev.parityBad 0 [8, 9, 10, 11] = none) := by
  refine ⟨⟨⟨?_, ?_⟩, ?_, ?_, ?_, ?_⟩, ?_, ⟨?_, ?_⟩, ?_, ?_, ?_, ?_, ?_⟩ <;> decide +kernel

def swapWaitS (out : List OutOp) : State := coreAt (progOf [swapW, 0] [doubleW])
  { ctxAt with nextOp := 1, st := .sleeping, wait := some ⟨.swap 1, 4, true, 4000, false⟩, out := out } (regionUpds [1])

theorem witness_WaitsAreServed :
    (queueBytes (servedS queueW .fetch0 0 (holding 5)).dev 0 (descOf queueW) ⟨[runOf4096], 0, 5000, none, 0⟩ = 192 ∧
      (servedS queueW .fetch0 0 (holding 5)).dev.steady) ∧
    (queueBytes (servedS queueW .fetch0 64 (holding 8)).dev 0 (descOf queueW) ⟨[runOf4096], 64, 5000, none, 0⟩ = 0) ∧
    ((swapWaitS []).dev.steady ∧ (((swapWaitS []).dev.core 0).ctx 0).wait = some ⟨.swap 1, 4, true, 4000, false⟩ ∧
      (swapWaitS []).dev.coreRuns 0 = true ∧ swapBlocked (swapWaitS []).dev 0 1 4 = false) ∧
    (swapBlocked (swapWaitS [⟨3, [⟨1, some false, true⟩]⟩]).dev 0 1 4 = true) := by
  refine ⟨⟨?_, ?_, ?_⟩, ?_, ⟨⟨?_, ?_⟩, ?_, ?_, ?_⟩, ?_⟩ <;> decide +kernel

/-! ### The regulator, multicast, cues and banks -/

def regulatorS : State := coreAt (progOf [] []) ctxAt [setF F.REG_CLASS_RATE 0 3, setF F.REG_CLASS_DEPTH 0 4, setF (levelFld 0) 0 3]

/-- A multicast group of core 0 alone. -/
def groupW : BitVec 512 := word 512 [(32, 1)]
def mcastW : BitVec 512 := streamW [(9, 1)]
def mcastS (served : Bool) : State := coreAt (progOf [] [mcastW]) ctxAt (regionUpds [1] ++
  [.image [] [] 0 [{ schedOf (progOf [] [mcastW]) with mcast := [groupW] }] [sync1], .hbm 4096 (ones 64), .core 0 fun cs => { cs with
    armedCnt := [(0, 1)], fetch0 := ⟨[armOf 4096], if served then some ⟨[runOf4096], 0, 5000, none, 0⟩ else none⟩ }])

theorem witness_StreamsSend :
    (regulatorS.dev.steady ∧ owedOf regulatorS.dev 0 0 .fetch0 = 0) ∧
    ((mcastS true).dev.steady ∧ (mcastS true).dev.coreRuns 0 = true ∧
      inService (mcastS true).dev 0 .fetch0 = some (armOf 4096, ⟨[runOf4096], 0, 5000, none, 0⟩, descOf mcastW) ∧
      (mcastS true).dev.mcastGroup 0 0 = some groupW ∧ groupRootCore groupW = 0 ∧ groupMembers groupW = [0] ∧
      memberReady (mcastS true).dev .fetch0 0 1 0 = true) := by
  refine ⟨⟨⟨?_, ?_⟩, ?_⟩, ⟨?_, ?_⟩, ?_, ?_, ?_, ?_, ?_, ?_⟩ <;> decide +kernel

/-! ### Cues and program banks -/

def cueS (f : Firing) (us : List Upd) : State := coreAt (progOf [word 128 [(120, 1)], 0] []) ThreadCtx.init
  (.core 0 (fun cs => { cs with due := [f] }) :: us)

def nextProg : Program := { progOf [0] [] with slots := [0x1111] }
def boundS (loaded : Bool) (due : List Firing) : State := coreAt (progOf [] []) ThreadCtx.init
  [.image [] [] 0 [schedOf (progOf [] []), schedOf nextProg] [sync1], setF F.RING_STATUS_STATE 0 3,
   .core 0 fun cs => { cs with due := due, armed := some ⟨1, 1, loaded⟩ }]

theorem witness_CuesFireAndBanksSwitch :
    ((cueS fi0 []).dev.steady ∧ ((cueS fi0 []).dev.core 0).due.find? (fun y => y.trig = Trig.cw) = some fi0 ∧
      (cueS fi0 []).dev.liveProg 0 = some (progOf [word 128 [(120, 1)], 0] []) ∧ (cueS fi0 []).dev.coreRuns 0 = true ∧
      cueHold (cueS fi0 []).dev 0 (progOf [] []) (word 128 [(125, 1), (123, 1), (93, 2)]) fi0 = .none) ∧
    (cueHold (cueS { fi0 with step := 2 } []).dev 0 (progOf [] []) (word 128 [(125, 1), (123, 1), (93, 2)]) { fi0 with step := 2 } = .commit) ∧
    ((boundS true []).dev.steady ∧ ((boundS true []).dev.core 0).armed = some ⟨1, 1, true⟩ ∧
      ((boundS true []).dev.schedOf ⟨1, 1, true⟩).bind (fun y => y.prog 0) = some nextProg ∧ (boundS true []).dev.ringOver 0 = true ∧
      ((boundS true []).dev.core 0).finished = true) ∧
    ((boundS true [fi0]).dev.core 0).finished = false ∧ ((boundS false []).dev.core 0).armed = some ⟨1, 1, false⟩ := by
  refine ⟨⟨⟨?_, ?_⟩, ?_, ?_, ?_, ?_⟩, ?_, ⟨⟨?_, ?_⟩, ?_, ?_, ?_, ?_⟩, ?_, ?_⟩ <;> decide +kernel

/-! ### Steps -/

def withQueue (q : List Instr) (us : List Upd) : State := ⟨q, applyAll us Dev.reset⟩

theorem witness_StepRunsTheFrontCommand :
    (withQueue [.resetNAssert, .powerOn] []).pending = .resetNAssert :: [.powerOn] ∧ (withQueue [] []).pending = [] := by decide +kernel

/-- The front command runs, and the rest waits; an empty queue lets the count pass. -/
theorem test_step_front :
    (match step (withQueue [.resetNAssert, .powerOn] []) with | .next t => t.pending | _ => []) = [.powerOn] ∧
    (match step (withQueue [] [setF F.DEV_STATE_STATE 0 stReady]) with | .next t => t.dev.now | _ => 9) = 1 := by decide +kernel

theorem witness_StoppedModuleKeepsItsState :
    (devWith [.board fun b => { b with resetLow := true }]).dev.running = false ∧ boardCommand (.vecComplete 0) = false := by decide +kernel

theorem witness_StepKeepsCanonical : State.reset.dev.Canonical ∧ ∃ t, step State.reset = .next t :=
  ⟨⟨by decide +kernel, by decide +kernel, by decide +kernel, by decide +kernel, by decide +kernel, by decide +kernel, by decide +kernel,
    by decide +kernel, by decide +kernel, by decide +kernel, by decide +kernel, by intro r g h; cases h⟩, _, rfl⟩

theorem witness_StepKeepsSettled : nopS.dev.Settled ∧ nopS.dev.mode = stRunning ∧ ∃ t, step nopS = .next t :=
  ⟨⟨by decide +kernel, by decide +kernel⟩, by decide +kernel, _, rfl⟩

theorem witness_StepKeepsWhatWasSent : ∃ t, step (withQueue [.powerOn] []) = .next t := ⟨_, rfl⟩

/-! ### Synchronisation and time -/

/-- A signal to slice 1: kind, SYNC_ID, value. -/
def sig (kind id : Nat) (v : BitVec 32) : SyncExt :=
  { extType := 2, kind := BitVec.ofNat 8 kind, pkey := 1, syncId := BitVec.ofNat 16 id, src := 0, value := v, srcCore := 0, rsv14 := 0
    gcntSent := 0, rsv32 := 0 }
def sigS (us : List Upd) : State := coreAt (progOf [] []) ctxAt us
def waitingCtx (id : Nat) (v : BitVec 32) (due : Bool) : ThreadCtx :=
  { ctxAt with st := .sleeping, wait := some ⟨.sync id 0 v, 4, due, 4000, false⟩ }
def waitingS (id : Nat) (v : BitVec 32) (due : Bool) (us : List Upd) : State := coreAt (progOf [] []) (waitingCtx id v due) us

theorem witness_SignalsAreDelivered :
    ((waitingS 0 7 false []).dev.steady ∧ (waitingS 0 7 false []).dev.sliceOf 1 = some 0 ∧
      (waitingS 0 7 false []).dev.memberHere ((waitingS 0 7 false []).dev.slice 0) = true ∧
      ((waitingS 0 7 false []).dev.slice 0).fenced = false ∧ syncExtOk (sig 1 0 7) = true ∧
      updateWord ((waitingS 0 7 false []).dev.syncEntry 1 0) 0 1 7 false = .inr 7 ∧
      syncPlace ((waitingS 0 7 false []).dev.syncEntry 1 0) = 0 ∧ condMet (waitingCtx 0 7 false) 0 0 7 7 = true) ∧
    (updateWord ((sigS []).dev.syncEntry 1 0) 0 0 7 false = .inl F.SYNC_ERR_UNDERFLOW ∧ syncExtOk (sig 0 0 7) = true) ∧
    syncExtOk { sig 1 0 7 with rsv14 := 1 } = false ∧
    ((sigS [.slice 0 fun s => { s with fenced := true }]).dev.slice 0).fenced = true ∧
    (sigS []).dev.memberOf 2 = false ∧
    (updateWord ((sigS []).dev.syncEntry 1 3) 0 3 0 true = .inr 65536 ∧ syncExtOk (sig 11 3 0) = true) := by
  refine ⟨⟨⟨?_, ?_⟩, ?_, ?_, ?_, ?_, ?_, ?_, ?_⟩, ⟨?_, ?_⟩, ?_, ?_, ?_, ?_, ?_⟩ <;> decide +kernel

def transferS (us : List Upd) : State := coreAt (progOf [] [streamW []]) ctxAt (regionUpds [1] ++
  [.core 0 fun cs => { cs with fetch0 := ⟨[armOf 4096], some ⟨[runOf4096], 0, 4000, none, 0⟩⟩ }] ++ us)
/-- The limits at their smallest, one microsecond, and the count at the last tick before and the first tick of the limit. -/
def limits (now : Nat) : List Upd := [setF F.SYNC_CFG_WAIT_WD 0 1, setF F.SYNC_CFG_STREAM_WD 0 1, setF F.SYNC_CFG_GRANT_WD 0 1,
  setF F.SEQ_CFG_SLIP_LIMIT 0 1, setF F.SEQ_CFG_SLIP_SAFE 0 1, setF F.SYNC_CFG_WD_SAFE 0 1, .gcnt (BitVec.ofNat 64 now),
  .chan 0 fun ch => { ch with grant := some (0, 4000) }]

theorem witness_PollsWakeAndWatchdogsExpire :
    ((waitingS 2 0 false []).dev.steady ∧ (waitingS 2 0 false []).dev.coreSlice 0 = some 0 ∧
      (((waitingS 2 0 false []).dev.core 0).ctx 0).wait = some ⟨.sync 2 0 0, 4, false, 4000, false⟩ ∧
      syncLoc ((waitingS 2 0 false []).dev.syncEntry 1 2) = .hbm 8192 ∧ ((waitingS 2 0 false []).dev.chan (channelOf 8192)).monitors = [] ∧
      condMet (waitingCtx 2 0 false) 2 0 0 0 = true ∧ condMet (waitingCtx 2 1 false) 2 0 1 0 = false) ∧
    ((waitingS 0 7 true (limits 5000)).dev.steady ∧ (waitingS 0 7 true (limits 5000)).dev.coreSlice 0 = some 0 ∧
      ((waitingS 0 7 true (limits 5000)).dev.slice 0).desc.isSome = true ∧
      (((waitingS 0 7 true (limits 5000)).dev.core 0).ctx 0).wait = some ⟨.sync 0 0 7, 4, true, 4000, false⟩ ∧
      syncWd ((waitingS 0 7 true (limits 5000)).dev.syncEntry 1 0) = 0 ∧ (waitingS 0 7 true (limits 5000)).dev.fld F.SYNC_CFG_WAIT_WD = 1 ∧
      (waitingS 0 7 true (limits 5000)).dev.now = 5000 ∧ (waitingS 0 7 true (limits 4999)).dev.now = 4999) ∧
    (inService (transferS (limits 5000)).dev 0 .fetch0 = some (armOf 4096, ⟨[runOf4096], 0, 4000, none, 0⟩, descOf (streamW [])) ∧
      (transferS (limits 5000)).dev.fld F.SYNC_CFG_STREAM_WD = 1) ∧
    ((sigS (limits 5000)).dev.chan 0).grant = some (0, 4000) := by
  refine ⟨⟨⟨?_, ?_⟩, ?_, ?_, ?_, ?_, ?_, ?_⟩, ⟨⟨?_, ?_⟩, ?_, ?_, ?_, ?_, ?_, ?_, ?_⟩, ⟨?_, ?_⟩, ?_⟩ <;> decide +kernel

/-- Port 1 (X−) UP with an exchange sent, the parent behind it. -/
def servoUpds (run : Nat) : List Upd := [setF F.LINK_STATUS_STATE 1 5, setF F.GCNT_STATUS_PARENT 0 2, setF F.GCNT_STATUS_DEPTH 0 3,
  .servo fun s => { s with sent := [(1, (7, 4900000))], heard := [(1, (2, 1))], run := run }]
def servoS (run : Nat) (us : List Upd) : State := sliceDev (servoUpds run ++ us)
/-- The REPLY to exchange 7: received at 4,980 ns and answered at 4,990 ns of the parent's count, with an offset of `o` ns. -/
def reply (kind : Nat) (o : Nat) : SyncFlit :=
  { kind := BitVec.ofNat 8 kind, state := 1, depth := 2, exch := 7, tGcnt := BitVec.ofNat 64 (4960 + o), tPs := 0
    rxGcnt := BitVec.ofNat 64 (4940 + o), rxPs := 0, coord := 0, rsvZero := true }

theorem witness_SyncExchanges :
    ((servoS 0 []).dev.steady ∧ (servoS 0 []).dev.syncsOn 1 = true ∧ (reply 1 0).kind = 1 ∧ (servoS 0 []).dev.syncsOn 0 = false ∧
      (reply 2 0).kind ≠ 1) := by
  refine ⟨⟨?_, ?_⟩, ?_, ?_, ?_, ?_⟩ <;> decide +kernel

theorem witness_ReplyDisciplinesTheCount :
    ((servoS 15 []).dev.steady ∧ (servoS 15 []).dev.syncsOn 1 = true ∧ (reply 2 0).kind = 2 ∧ (reply 2 0).exch = 7 ∧
      mapGet (fun _ => ((0, 0) : Nat × Nat)) (servoS 15 []).dev.servo.sent 1 = (7, 4900000) ∧
      (servoS 15 []).dev.fld F.GCNT_STATUS_PARENT = parentCode 1 ∧
      syncOffset 4900000 4940000 4960000 5000000 = 0 ∧ syncOffset 4900000 4941000 4961000 5000000 = 1000) ∧
    (servoS 14 []).dev.servo.run = 14 ∧ (servoS 0 [setF F.GCNT_STATUS_PARENT 0 1]).dev.fld F.GCNT_STATUS_PARENT ≠ parentCode 1 := by
  refine ⟨⟨⟨?_, ?_⟩, ?_, ?_, ?_, ?_, ?_, ?_, ?_⟩, ?_, ?_⟩ <;> decide +kernel

def lostS (depth now : Nat) : State := servoS 0 [setF F.GCNT_STATUS_DEPTH 0 depth, .gcnt (BitVec.ofNat 64 now),
  .servo fun s => { s with lostAt := some 5000 }]
def spareS (now : Nat) : State := sliceDev [setF F.DEV_COORD_VALID 0 1, setF F.GCNT_STATUS_LOCKED 0 1, .gcnt (BitVec.ofNat 64 now)]
def actingS : State := servoS 0 [setF F.DEV_COORD_X 0 1, setF F.GCNT_STATUS_ACTING 0 1, setF F.GCNT_STATUS_PARENT 0 0]

theorem witness_HoldoverAndHandover :
    ((lostS 2 105001).dev.steady ∧ (lostS 2 105001).dev.servo.lostAt = some 5000 ∧ (lostS 2 105001).dev.bestParent = none ∧
      (lostS 2 105001).dev.now = 105001) ∧
    ((lostS 3 6000).dev.bestParent = some 1 ∧ (lostS 3 6000).dev.bit F.GCNT_STATUS_MASTER = false ∧
      (lostS 3 6000).dev.bit F.GCNT_STATUS_ACTING = false) ∧
    (servoS 0 []).dev.servo.lostAt = none ∧
    ((spareS 1000000).dev.bit F.DEV_COORD_VALID = true ∧ (spareS 1000000).dev.here = 0 ∧
      (spareS 1000000).dev.bit F.GCNT_STATUS_MASTER = false ∧ (spareS 1000000).dev.servo.lockedAt = 0) ∧
    (actingS.dev.here ≠ 0 ∧ actingS.dev.bit F.GCNT_STATUS_ACTING = true ∧ actingS.dev.isDead 0 = false ∧
      (reparentOrder.find? fun p => actingS.dev.syncsOn p &&
        ((mapGet (fun _ => ((255, 0) : Nat × Nat)) actingS.dev.servo.heard p).2 / 2 % 2 = 1 || actingS.dev.heardDepth p < 255)) = some 1) ∧
    (servoS 0 [setF F.DEV_COORD_X 0 1]).dev.here ≠ 0 := by
  refine ⟨⟨⟨?_, ?_⟩, ?_, ?_, ?_⟩, ⟨?_, ?_, ?_⟩, ?_, ⟨?_, ?_, ?_, ?_⟩, ⟨?_, ?_, ?_, ?_⟩, ?_⟩ <;> decide +kernel

def snapS (us : List Upd) : State := sliceDev ([setF F.SEQ_ISSUE_OPS 7 77, setF F.LINK_FLITS_TX 2 9] ++ us)
def liveUpds : List Upd := [setF F.RING_STATUS_STATE 0 2, setF F.RING_CTL_PKEY 0 1]

theorem witness_SnapshotLatches :
    ((snapS []).dev.steady ∧ (snapS []).dev.cached req = none ∧ (snapS []).dev.powered .SNAP_AT = true ∧
      (snapS []).dev.bit F.SNAP_STATUS_ARMED = false ∧ (snapS []).dev.bit F.SNAP_STATUS_PENDING = false ∧ (snapS []).dev.now = 5000 ∧
      (snapS []).dev.liveKeys = [] ∧ (snapS liveUpds).dev.liveKeys = [1]) ∧
    (snapS [setF F.SNAP_STATUS_PENDING 0 1]).dev.bit F.SNAP_STATUS_PENDING = true ∧
    ((snapS [setF F.SNAP_STATUS_ARMED 0 1, setF F.SNAP_AT_GCNT 0 5000]).dev.bit F.SNAP_STATUS_ARMED = true ∧
      (snapS [setF F.SNAP_STATUS_ARMED 0 1, setF F.SNAP_AT_GCNT 0 5000]).dev.fld F.SNAP_AT_GCNT = 5000) := by
  refine ⟨⟨⟨?_, ?_⟩, ?_, ?_, ?_, ?_, ?_, ?_, ?_⟩, ?_, ?_, ?_⟩ <;> decide +kernel

/-! ### Registers -/

def regS (us : List Upd) : State := sliceDev us
/-- What a request to write 64 bits at an address meets. -/
def whereIs (s : State) (a bytes : Nat) : Option (Reg × Nat) × Option Nat :=
  match s.dev.locate .cymund a bytes with
  | .at_ g i => (some (g, i), none)
  | .no r => (none, some r)

/-- A program of no cues. -/
def bareProg : Program := { progOf [] [] with cues := [] }

/-- Ring context 1 as software sets it up for slice 1: a module's share and shadow of five units each. -/
def armUpds : List Upd := [setF F.RING_PLAN_CCW_FIRST 1 3, setF F.RING_DAYS_DAYS_CW 1 8, setF F.RING_DAYS_DAYS_CCW 1 8,
  setF F.RING_YEARS_COUNT 1 4, setF F.RING_SHARE_SIZE 1 5, setF F.RING_SHADOW_BASE 1 5, setF F.RING_SHADOW_SIZE 1 5,
  setF F.RING_LAUNCH_GCNT 1 5000, .image [word 128 [(0, 4), (32, 10), (64, 30000)], word 128 [(0, 5), (32, 40000), (64, 50000)]] [] 0
    [schedOf bareProg] [⟨1, [], []⟩]]
/-- RING_CTL for slice 1, position 0 of four. -/
def ctlW (len : Nat) : BitVec 64 := word 64 [(F.RING_CTL_PKEY.lo, 1), (F.RING_CTL_LEN.lo, len)]
def armableS (us : List Upd) : State := sliceDev (armUpds ++ us)

/-- Context 1 with the fields of RING_CTL as an ARM writes them. -/
def setS (v : BitVec 64) (us : List Upd) : Dev := applyAll (ringCtlFields.map fun f => setF f 1 (bitsOf v f.hi f.lo)) (armableS us).dev

theorem witness_AddressesAreLaidOut :
    (3 < 4 ∧ 99 < 100 ∧ 63 < 64 ∧ 0x1FFF < 0x2000 ∧ coreWindow 0x1FFFFFFF = none) ∧
    coreWindow (0x10000000 + 3 * 0x04000000 + 99 * 0x00080000 + 63 * 0x2000 + 0x1FFF) = some (25599, 0x1FFF) ∧
    coreWindow 0x0FFFFFFF = none ∧ coreWindow 0x20000000 = none ∧
    (8388607 * 65536 + 65536 ≤ hbmSize ∧ channelOf (549755813888 - 256) = 255 ∧ channelOf 256 = 1) := by decide +kernel

theorem witness_RunsOfDays :
    (0 < 4 ∧ 3 < 4 ∧ 9 < 10 ∧ runLen 10 4 1 = 3 ∧ runLen 10 4 2 = 2 ∧ runStart 10 4 3 = 8 ∧ runOf 10 4 9 = 3) ∧
    (0 < 1 ∧ runLen 0 1 0 = 0) ∧ (2 < 3 ∧ runLen 1 3 0 = 1 ∧ runLen 1 3 2 = 0) := by decide +kernel

theorem witness_RegisterWriteTakesEffect :
    ((regS []).dev.steady ∧ (regS []).dev.cached req = none ∧ (regS []).dev.powered .HBM_SCRUB = true ∧ 1 ≤ 8 ∧ 8 ≤ 8) ∧
    (whereIs (regS []) Reg.HBM_SCRUB.info.addr 8 = (some (.HBM_SCRUB, 0), none) ∧ Reg.HBM_SCRUB ∉ ownRule ∧ Reg.HBM_SCRUB ∉ modeRegs ∧
      reservedValue .HBM_SCRUB 0 = true ∧ reservedValue .HBM_SCRUB (word 64 [(F.HBM_SCRUB_INTERVAL.lo, 1)]) = false) ∧
    (whereIs (regS []) Reg.SYNC_CFG.info.addr 8 = (some (.SYNC_CFG, 0), none) ∧ maintOnly .SYNC_CFG = true ∧ (regS []).dev.mode ≠ stMaint) ∧
    (whereIs (regS []) (Reg.RING_PLAN.info.addr + Reg.RING_PLAN.info.stride) 8 = (some (.RING_PLAN, 1), none) ∧ ringReg .RING_PLAN = true ∧
      (regS [setF F.RING_STATUS_STATE 1 2]).dev.fld F.RING_STATUS_STATE 1 = 2) ∧
    (whereIs (regS []) (0x10000000 + Reg.SEQ_ERR.info.addr) 8 = (some (.SEQ_ERR, 0), none) ∧
      (regS [setF F.PWR_STATUS_STATE 0 2]).dev.powered .SEQ_ERR = false ∧ wakesFirst .SEQ_ERR = false) ∧
    (whereIs (regS []) 0x00900000 8 = (none, some 1) ∧ whereIs (regS []) 0x000FFFF8 8 = (none, some 2) ∧
      whereIs (regS []) 4 8 = (none, some 3) ∧ whereIs (regS []) 0 1 = (none, some 4)) := by
  refine ⟨⟨⟨?_, ?_⟩, ?_, ?_, ?_, ?_⟩, ⟨?_, ?_, ?_, ?_, ?_⟩, ⟨?_, ?_, ?_⟩, ⟨?_, ?_, ?_⟩, ⟨?_, ?_, ?_⟩, ?_, ?_, ?_, ?_⟩ <;> decide +kernel

/-- R14, R16: a one clears its W1C bit, a zero leaves it. -/
theorem test_write_one_clears :
    let d := after (.registerWrite req Reg.HBM_ERR.info.addr 8 (word 64 [(F.HBM_ERR_BAD.lo, 1)]))
      (regS [setF F.HBM_ERR_BAD 0 1, setF F.HBM_ERR_REPAIR 0 1])
    d.fld F.HBM_ERR_BAD = 0 ∧ d.fld F.HBM_ERR_REPAIR = 1 := by decide +kernel

def cachedS : State := regS [.chain fun c => { c with cache := [⟨.cymund, 1, 5, 0, 0, [1, 2]⟩] }]
theorem witness_RepeatedRequestIsNotExecuted :
    cachedS.dev.steady ∧ cachedS.dev.cached req = some ⟨.cymund, 1, 5, 0, 0, [1, 2]⟩ ∧
    servedOnce (.registerWrite req 0 8 0) = some req ∧ servedOnce (.snapshot req none) = some req := by
  refine ⟨⟨?_, ?_⟩, ?_, ?_, ?_⟩ <;> decide +kernel

/-! ### Ring contexts -/

def liveCtlS (us : List Upd) : State := sliceDev (ringUpds ++ us)
/-- RING_CTL of the live context 0 as it reads, and with another position. -/
def heldCtl : BitVec 64 := word 64 [(F.RING_CTL_PKEY.lo, 1), (F.RING_CTL_LEN.lo, 4), (F.RING_CTL_ARM.lo, 1)]

theorem witness_ArmingBindsAContext :
    ((armableS []).dev.steady ∧ (armableS []).dev.cached req = none ∧ (armableS []).dev.now = (armableS []).dev.fld F.RING_LAUNCH_GCNT 1 ∧
      ([0, 1, 2, 3].all fun o => (armableS []).dev.fld F.RING_STATUS_STATE o = 0) = true ∧ (setS (ctlW 4) []).bindStatus 1 = none ∧
      (setS (ctlW 4) []).matching 1 = [0]) ∧
    ((setS (ctlW 0) []).bindStatus 1 = some cfgZero ∧ (setS (ctlW 4) [setF F.RING_SHARE_SIZE 1 4]).bindStatus 1 = some cfgPlan) ∧
    (bitsOf (ctlW 16) F.RING_CTL_LEN.hi F.RING_CTL_LEN.lo = 16 ∧ bitsOf (ctlW 17) F.RING_CTL_LEN.hi F.RING_CTL_LEN.lo = 17) ∧
    ((liveCtlS []).dev.fld F.RING_STATUS_STATE 0 = 2 ∧ (liveCtlS []).dev.route.waiting = [] ∧
      (ringCtlFields.all fun f => bitsOf heldCtl f.hi f.lo = (liveCtlS []).dev.fld f 0) = true ∧
      (liveCtlS []).dev.bit F.RING_CTL_ARM 0 = true ∧ ((liveCtlS []).dev.ring 0).cw.acceptedAt ≠ (liveCtlS []).dev.now ∧
      (ringCtlFields.any fun f => bitsOf (ctlW 5) f.hi f.lo ≠ (liveCtlS []).dev.fld f 0) = true) := by
  refine ⟨⟨⟨?_, ?_⟩, ?_, ?_, ?_, ?_, ?_⟩, ⟨?_, ?_⟩, ⟨?_, ?_⟩, ?_, ?_, ?_, ?_, ?_, ?_⟩ <;> decide +kernel

/-- Context 0 armed, its bank held armed by core 0 and not loaded; launched at the count given. -/
def launchS (st count at_ : Nat) (us : List Upd) : State := sliceDev (ringUpds ++ [setF F.RING_STATUS_STATE 0 st,
  setF F.RING_YEARS_COUNT 0 count, setF F.RING_LAUNCH_GCNT 0 at_, .ring 0 fun r => { r with sched := some 0 },
  .core 0 fun cs => { cs with armed := some ⟨0, 0, false⟩ }] ++ us)

theorem witness_BankLoadsAndLaunches :
    ((launchS 1 4 5000 []).dev.steady ∧ ((launchS 1 4 5000 []).dev.ring 0).sched.isSome = true ∧
      ((launchS 1 4 5000 []).dev.ring 0).bankLoaded = false ∧ ((launchS 1 4 5000 []).dev.core 0).armed = some ⟨0, 0, false⟩ ∧
      (launchS 1 4 5000 []).dev.fld F.RING_STATUS_STATE 0 = 1 ∧ ((launchS 1 4 5000 []).dev.ring 0).launched = false ∧
      (launchS 1 4 5000 []).dev.fld F.RING_LAUNCH_GCNT 0 = (launchS 1 4 5000 []).dev.now ∧ ((launchS 1 4 5000 []).dev.plan 0).count = 4 ∧
      (launchS 1 4 5000 []).dev.awaits 0 .cw = true ∧ (launchS 1 4 5000 []).dev.liveIn .cw = none) ∧
    ((launchS 1 4 5000 [setF F.DEV_STATE_STATE 0 stReady]).dev.mode = stReady ∧ ((launchS 1 0 5000 []).dev.plan 0).count = 0 ∧
      (launchS 1 4 5001 []).dev.now < (launchS 1 4 5001 []).dev.fld F.RING_LAUNCH_GCNT 0) := by
  refine ⟨⟨⟨?_, ?_⟩, ?_, ?_, ?_, ?_, ?_, ?_, ?_, ?_, ?_⟩, ?_, ?_, ?_⟩ <;> decide +kernel

/-- A direction live with nothing under way. -/
def liveDir : RingDir := { RingDir.init with live := true }
/-- Context 0 live in both directions and placed, its X+ port with `n` credits on VC0; the share at unit 4. -/
def playUpds (n : Nat) : List Upd := ringUpds ++ [setF F.RING_SHARE_BASE 0 4,
  .ring 0 fun r => { r with cw := liveDir, ccw := liveDir, launched := true, sched := some 0, bankLoaded := true, mirrorHeld := true },
  .image [] [] 0 [schedOf (progOf [] [])] [sync1],
  .core 0 fun cs => { cs with live := some ⟨0, 0, true⟩ },
  .port 0 fun s => { s with cap := [n] }]
def playS (n : Nat) (us : List Upd) : State := sliceDev (playUpds n ++ us)
def leafReading : Upd := .ring 0 fun r => { r with cw := { r.cw with reading := true } }
def dueCw : Upd := .core 0 fun cs => { cs with due := [fi0] }
/-- A ring of one that plays its own day 0. -/
def loopS1 (us : List Upd) : State := playS 0 ([setF F.RING_CTL_LEN 0 1, setF F.RING_PLAN_CCW_FIRST 0 0] ++ us)
def ownExt (s : State) : LeafExt := s.dev.leafExt 0 .cw 0 0
def ownBody (s : State) : List Byte := (s.dev.readHbm (s.dev.leafAddr 0 .cw 0 0) 16384).1

theorem witness_OwnLeavesAreInjectedAndAccepted :
    ((playS 264 []).dev.steady ∧ (playS 264 []).dev.nextDay 0 .cw = (0, 0) ∧ 1 < ((playS 264 []).dev.plan 0).len ∧
      (playS 264 []).dev.playsNext 0 .cw false = true ∧ ((playS 264 []).dev.ring 0).cw.reading = false ∧
      ((playS 264 []).dev.ring 0).cw.rx.isNone = true ∧ (playS 264 []).dev.badLeaf 0 .cw 0 0 = [] ∧ (playS 264 []).dev.route.waiting = [] ∧
      ((playS 264 []).dev.port 0).free ((playS 264 []).dev.schedVc ⟨none, mkOrdered ptLeaf (playS 264 []).dev.here 0 0 []⟩ 0) = 264 ∧
      ((playS 263 []).dev.port 0).free 0 = 263) ∧
    ((playS 264 [.hbmBad fun _ => [256]]).dev.badLeaf 0 .cw 0 0 = [256] ∧ 256 ∉ (playS 264 [.hbmBad fun _ => [256]]).dev.repair) ∧
    (((playS 0 [leafReading]).dev.ring 0).cw.reading = true ∧ (playS 0 [leafReading]).dev.ringFenced 0 = false ∧
      (playS 0 [leafReading]).dev.takesLeaf 0 .cw (ownExt (playS 0 [leafReading])) (ownBody (playS 0 [leafReading])) = true ∧
      (playS 0 [leafReading, dueCw]).dev.leafHeld 0 .cw 0 0 = true) ∧
    (((loopS1 []).dev.plan 0).len = 1 ∧ (loopS1 []).dev.playsNext 0 .cw false = true ∧
      (loopS1 []).dev.takesLeaf 0 .cw (ownExt (loopS1 [])) (ownBody (loopS1 [])) = true ∧ (loopS1 [dueCw]).dev.leafHeld 0 .cw 0 0 = true) := by
  refine ⟨⟨⟨?_, ?_⟩, ?_, ?_, ?_, ?_, ?_, ?_, ?_, ?_, ?_⟩, ⟨?_, ?_⟩, ⟨?_, ?_, ?_, ?_⟩, ?_, ?_, ?_, ?_⟩ <;> decide +kernel

/-- After day 1 of year 0: the next CW leaf is module 1's, and comes by port 1. -/
def awaitS (us : List Upd) : State := playS 0 ([setF F.RING_STATUS_VALID_CW 0 1, setF F.RING_ANGLE_CW_DAY 0 1] ++ us)
/-- The leaf of day 2: one unit of FP32. -/
def leafE (idx : Nat) : LeafExt :=
  { extType := 1, flags := 0, pktIdx := BitVec.ofNat 8 idx, hop := 2, ttl := 3, origin := 1, pkey := 1, year := 0, day := 2
    sectionByte := 0, container := 1, baseGen := 0, layer := 0, codecTable := 0, tile := 0, leafElems := 256, tailCount := 0, rsv34 := 0
    gcntInj := 0, rsv40 := 0 }
def leafPktOf (e : LeafExt) : Packet := withExt (mkOrdered ptLeaf 0x100 0 1 (List.replicate 4096 0)) (leafBytes e)
def rxAt (n : Nat) : Upd := .ring 0 fun r => { r with cw := { r.cw with
  rx := some ⟨leafE 0, n, (List.range n).flatMap fun _ => List.replicate 4096 0, 1, 0⟩ } }

theorem witness_LeavesAreReceived :
    ((awaitS []).dev.steady ∧ (awaitS []).dev.deliverable (leafPktOf (leafE 0)) = true ∧
      (awaitS []).dev.fencedPacket (pktVc (leafPktOf (leafE 0))) (leafPktOf (leafE 0)).key = false ∧ (leafPktOf (leafE 0)).ce = false ∧
      leafOfBytes (leafPktOf (leafE 0)).ext = leafE 0 ∧ (leafE 0).dir = .cw ∧ (awaitS []).dev.leafContext .cw = some 0 ∧
      (awaitS []).dev.leafFails 0 (leafE 0) = [] ∧ (awaitS []).dev.route.waiting = []) ∧
    ((awaitS []).dev.leafFails 0 { leafE 1 with day := 3 } = [F.RING_ERR_ORDER]) ∧
    (((awaitS [rxAt 2]).dev.ring 0).cw.rx.isSome = true ∧ { leafE 2 with pktIdx := (leafE 0).pktIdx } = leafE 0 ∧
      leafReserved (leafE 2) = false ∧ (leafE 2).isEnd = false) ∧
    ((awaitS [rxAt 3]).dev.takesLeaf 0 .cw (leafE 0) (List.replicate 16384 0) = true ∧
      (awaitS [rxAt 3, dueCw]).dev.leafHeld 0 .cw 0 2 = true) := by
  refine ⟨⟨⟨?_, ?_⟩, ?_, ?_, ?_, ?_, ?_, ?_, ?_, ?_⟩, ?_, ⟨?_, ?_, ?_, ?_⟩, ?_, ?_⟩ <;> decide +kernel

/-- Backward year 1 of TRAIN_FULL, its CW angle at day 4. -/
def gradS (us : List Upd) : State := playS 0 ([setF F.RING_CTL_MODE 0 2, setF F.RING_STATUS_VALID_CW 0 1, setF F.RING_ANGLE_CW_YEAR 0 1,
  setF F.RING_ANGLE_CW_DAY 0 4] ++ us)
/-- The gradient leaf of day 4, `hop` modules on. -/
def gradE (hop idx : Nat) : LeafExt := { leafE idx with
  flags := 6, hop := BitVec.ofNat 8 hop, origin := BitVec.ofNat 8 ((gradS []).dev.plan 0 |>.owner .cw 1 4), year := 1, day := 4 }
def gradPkts (hop : Nat) : List Packet := [0, 1, 2, 3].map fun i => leafPktOf (gradE hop i)

theorem witness_GradientLeavesAdd :
    ((gradS []).dev.steady ∧ (gradPkts 2).length = 4 ∧ (gradE 2 0).grad = true ∧ (gradE 2 0).dir = .cw ∧
      (gradS []).dev.leafContext .cw = some 0 ∧ (gradS []).dev.leafFails 0 (gradE 2 0) = [] ∧ (gradS []).dev.leafFails 0 (gradE 1 0) = [] ∧
      ((gradPkts 2).map fun q => (leafOfBytes q.ext).pktIdx.toNat % 4) = [0, 1, 2, 3] ∧
      ((gradPkts 2).all fun q => (gradS []).dev.deliverable q && !q.ce && !(gradS []).dev.fencedPacket (pktVc q) q.key &&
        !leafReserved (leafOfBytes q.ext)) = true ∧
      (gradS []).dev.creditHeld 0 .gradCw = false ∧ (gradE 2 0).hop.toNat + 1 = (gradE 2 0).ttl.toNat) ∧
    (gradS [.core 0 fun cs => { cs with due := [{ fi0 with trig := .gradCw }] }]).dev.creditHeld 0 .gradCw = true := by
  refine ⟨⟨⟨?_, ?_⟩, ?_, ?_, ?_, ?_, ?_, ?_, ?_, ?_, ?_, ?_⟩, ?_⟩ <;> decide +kernel

/-! ### HBM, vault and tables -/

/-- `Dev.steady`, in a form that is evaluated. -/
abbrev Steady (s : State) : Prop := s.dev.running = true ∧ s.dev.route.lost = []

def memS (us : List Upd) : State := sliceDev us
def badBlock (b : Nat) : Upd := .hbmBad fun _ => [b]
def fullList : Upd := .hbmBad fun _ => (List.range 4096).map fun i => 256 * (i + 8)
def freezeCh (i v : Nat) : Upd := setF F.HBM_FREEZE_CH i v
def scrubUpds : List Upd := [setF F.HBM_SCRUB_EN 0 1, .image [word 128 [(0, 4), (8, 1), (32, 10), (64, 4)]] [] 0 [] []]

theorem witness_BlockReadsEnd :
    (Steady (memS []) ∧ 2147483647 < blockCount ∧ 2147483647 % 256 = 255 ∧ ((memS []).dev.chan 255).grant = none ∧
      (memS []).dev.frozenChan 255 = false ∧ readOutcome [true] = .clean ∧ readOutcome [false, false, true] = .corrected ∧
      readOutcome [false, false, false] = .failed ∧ readOutcome [false, false] = .under) ∧
    (7 ∈ (memS [badBlock 7]).dev.hbmBad ∧
      ((memS [fullList]).dev.hbmBad.filter fun x => stackOf (x % 256) = stackOf 0).length = 4096) ∧
    ((memS [freezeCh 3 0x8000000000000000]).dev.frozenChan 255 = true ∧ (memS [freezeCh 3 0x8000000000000000]).dev.frozenChan 254 = false ∧
      ((memS [.chan 0 fun ch => { ch with grant := some (2, 5) }]).dev.chan 0).grant = some (2, 5)) ∧
    ((memS scrubUpds).dev.bit F.HBM_SCRUB_EN = true ∧ (memS scrubUpds).dev.scrubNext 128 0 = some 640 ∧
      (memS scrubUpds).dev.scrubNext 128 641 = none ∧ (memS [setF F.HBM_SCRUB_EN 0 0]).dev.bit F.HBM_SCRUB_EN = false) := by decide +kernel

theorem witness_ChannelsScrubAndRepair :
    Steady (memS []) ∧ (memS []).dev.mode ≠ stSafe ∧ 7 ∈ (memS [badBlock 7, .repair fun _ => [7]]).dev.repair ∧
    (ones 64).length = 256 ∧ ((memS [badBlock 7, .repair fun _ => [7]]).dev.plan 0).len ≠ 1 ∧
    ((loopS1 [.repair fun _ => [7]]).dev.plan 0).len = 1 := by decide +kernel

def vread (b issued : Nat) (rebuilding : Bool) : VaultRead := ⟨b, issued, rebuilding, true, []⟩
def vaultS (rs : List VaultRead) (bad : List Nat) : State := sliceDev [setF F.VAULT_CTL_DEADLINE 0 1,
  .vault fun v => { v with reads := rs, bad := bad }, .start fun t => { t with reader := some ⟨[0], false, 0, 0, [], false, false⟩ }]

theorem witness_VaultReadsEnd :
    (Steady (vaultS [vread 8 4000 false] []) ∧
      ((vaultS [vread 8 4000 false] []).dev.vault.reads.find? fun x => x.block = 8) = some (vread 8 4000 false) ∧
      (vaultS [vread 8 4000 false] []).dev.fld F.VAULT_CTL_DEADLINE = 1 ∧ (vaultS [vread 8 4000 false] []).dev.now = 5000 ∧
      (vread 8 4000 false).issued + 1000 = 5000 ∧ (vread 8 4001 false).issued + 1000 = 5001) ∧
    (groupOf 15 = groupOf 8 ∧ groupOf 16 ≠ groupOf 8) ∧
    (((vaultS [vread 8 4000 false] [15]).dev.vault.bad.any fun x => x ≠ 8 && groupOf x = groupOf 8) = true ∧
      ((vaultS [vread 8 4000 true] []).dev.vault.reads.find? fun x => x.block = 8) = some (vread 8 4000 true)) := by decide +kernel

def maintS (us : List Upd) : State := sliceDev (setF F.DEV_STATE_STATE 0 stMaint :: us)

theorem witness_TablesAreWritten :
    (Steady (maintS []) ∧ (maintS []).dev.cached req = none ∧ (Reg.all.all fun g => (maintS []).dev.powered g) = true ∧
      (maintS []).dev.mode = stMaint ∧ (memS []).dev.mode ≠ stMaint) ∧
    (bitsOf (0x11 : BitVec 64) 3 0 = 1 ∧ bitsOf (0x12 : BitVec 64) 3 0 = 2 ∧ reservedEngine 8 = false ∧ reservedEngine 9 = true) ∧
    ((maintS [setF F.VAULT_CTL_INSTALL 0 1]).dev.bit F.VAULT_CTL_INSTALL = true ∧ (maintS []).dev.bit F.VAULT_CTL_INSTALL = false) ∧
    (((maintS []).dev.slice 0).desc.isSome = true ∧ (maintS []).dev.activeRings ((maintS []).dev.slice 0).pkey = [] ∧
      (maintS ringUpds).dev.activeRings ((maintS ringUpds).dev.slice 0).pkey = [0] ∧
      ((devWith [setF F.DEV_STATE_STATE 0 stMaint]).dev.slice 0).desc = none) := by decide +kernel

/-! ### Ports -/

/-- Port 2 (Y+) in a state of its link. -/
def portS (st : Nat) (us : List Upd) : State := sliceDev (setF F.LINK_STATUS_STATE 2 st :: us)
/-- A flit of a type; only a DATA flit has a START. -/
def flit (t start : Nat) (bs : List Byte) : Flit :=
  { ftype := BitVec.ofNat 4 t, start := BitVec.ofNat 8 start, seq := 0, ack := 8191, cvc := 7, ccnt := 0, kph := false, enc := false, poison := false
    rsv := 0, payload := bs ++ List.replicate (244 - bs.length) 0, crcOk := true }
def heldOne : Upd := .port 2 fun s => { s with txSeq := 6, held := [⟨5, [], false, 0⟩], resendSeq := 5 }
/-- A packet of the Y+ neighbour's own, to this module, on VC4 with key 0: a WRITE of four bytes. -/
def smallPkt : Packet := { mkPacket ptWrite 4 0x010 0 0 [1, 2, 3, 4] with addr := 4096 }
/-- A table without dead links. -/
def tabUpd : Upd := .route fun r => { r with v0 := some ⟨⟨[], []⟩, ⟨[], []⟩⟩ }
def nakOf5 : Flit := { flit 3 0 [5] with ack := 4 }
def dataFlit : Flit := flit 1 0 (packetBytes smallPkt)

theorem witness_FlitsAreReceived :
    (Steady (portS 5 []) ∧ (portS 5 []).dev.flitLayer 2 = true ∧ (portS 3 []).dev.flitLayer 2 = true ∧ (portS 2 []).dev.flitLayer 2 = false ∧
      headerBad ((portS 5 []).dev.port 2) (flit 2 0 []) = false ∧ headerBad ((portS 5 []).dev.port 2) { flit 2 0 [] with cvc := 6 } = true ∧
      headerBad ((portS 5 []).dev.port 2) { flit 2 0 [] with ack := 5 } = true) ∧
    (headerBad ((portS 5 [heldOne]).dev.port 2) nakOf5 = false ∧
      (((runAct (takeHeader 2 nakOf5) (portS 5 [heldOne]).dev).port 2).held.any fun x => x.seq = 5) = true) ∧
    ((portS 5 []).dev.sliceOf 1 = some 0 ∧ (portS 5 []).dev.memberHere ((portS 5 []).dev.slice 0) = true ∧ (portS 3 []).dev.linkState 2 = lsHello) ∧
    (headerBad ((portS 5 []).dev.port 2) dataFlit = false ∧ encBad true ((portS 5 []).dev.port 2) { dataFlit with enc := true } = false ∧
      encBad true ((portS 5 []).dev.port 2) dataFlit = true ∧ encBad false ((portS 4 []).dev.port 2) dataFlit = false ∧
      dataFlit.seq.toNat = ((portS 5 []).dev.port 2).rxSeq ∧ (frame 0 1024 none 0 false dataFlit.payload []).isSome = true ∧
      ((frame 0 1024 none 0 false dataFlit.payload []).map fun g => (g.done.map fun r => malformed (packetOfBytes r.bytes))) = some [false] ∧
      ((frame 0 1024 none 0 false dataFlit.payload []).map fun g => (g.done.map fun r => packetOfBytes r.bytes)) = some [smallPkt] ∧
      (portS 5 [tabUpd]).dev.nextHop ⟨some 2, smallPkt⟩ = .here ∧
      frame 7 1024 none 0 false dataFlit.payload [] = none) ∧
    ((portS 5 [setF F.LINK_CFG_DEG_RATE 2 1, .port 2 fun s => { s with badFlits := 1 }]).dev.fld F.LINK_CFG_DEG_RATE 2 = 1 ∧
      (portS 5 [setF F.LINK_CFG_DEG_DEAD 2 1]).dev.bit F.LINK_CFG_DEG_DEAD 2 = true) := by decide +kernel

/-- Fences in force: slice 1, and the device. -/
def fencedSlice : Upd := .slice 0 fun s => { s with fenced := true }
def fullPhase : Upd := .port 2 fun s => { s with txN := 2 ^ 47 }

theorem witness_PortTimersAct :
    (Steady (portS 5 []) ∧ (portS 5 []).dev.flitLayer 2 = true ∧ (portS 0 []).dev.flitLayer 2 = false ∧
      ((portS 5 [heldOne]).dev.port 2).held = [⟨5, [], false, 0⟩] ∧
      ((portS 5 [heldOne]).dev.port 2).ackAt + (portS 5 [heldOne]).dev.fld F.LINK_CFG_REPLAY_TO 2 ≤ (portS 5 [heldOne]).dev.now ∧
      (portS 5 [heldOne, .gcnt 0]).dev.now < ((portS 5 []).dev.port 2).ackAt + (portS 5 []).dev.fld F.LINK_CFG_REPLAY_TO 2 ∧
      ((portS 5 []).dev.port 2).held = []) ∧
    (((portS 5 [fencedSlice]).dev.slice 0).fenced = true ∧ (portS 5 [setF F.DEV_STATE_STATE 0 stSafe]).dev.mode = stSafe ∧
      (portS 3 []).dev.linkState 2 = lsHello) ∧
    ((portS 5 [.gcnt 200000]).dev.expired ((portS 5 []).dev.port 2).goodAt ((portS 5 []).dev.fld F.LINK_CFG_SILENCE_TO 2) = true ∧
      (portS 5 [.gcnt 0]).dev.expired 0 ((portS 5 []).dev.fld F.LINK_CFG_SILENCE_TO 2) = false) ∧
    (2 ^ 47 ≤ ((portS 5 [fullPhase]).dev.port 2).txN ∧ ((portS 5 []).dev.port 2).txN < 2 ^ 47) := by decide +kernel

/-- A key exchange of port 2. -/
def kxUpd (k : KxSt) : Upd := .port 2 fun s => { s with kx := some k }
def heardHello : Upd := .port 2 fun s => { s with hello := true }
/-- The peer's UID lies above the own, so this module initiates. -/
def lowUid : Upd := .port 2 fun s => { s with peerUid := 9 }
def ctlUpd (en : Nat) : Upd := setF F.LINK_CTL_ENABLE 2 en
def longY : Upd := setF F.DEV_COORD_SY 0 4
/-- 10 ms after a failed bring-up. -/
def autoUpds : List Upd := [.port 2 fun s => { s with autoStart := true }, .gcnt 10000000, ctlUpd 1, longY]
def authOf (uid : BitVec 64) : KxAuth := ⟨true, true, true, uid⟩
def spareUpds : List Upd := [setF F.DEV_COORD_SPARE 0 1, ctlUpd 1, longY]

theorem witness_LinksComeUp :
    (Steady (portS 1 []) ∧ (portS 1 []).dev.linkState 2 = lsTrain ∧ (portS 2 []).dev.linkState 2 = lsAlign ∧
      (portS 3 [heardHello]).dev.linkState 2 = lsHello ∧ ((portS 3 [heardHello]).dev.port 2).hello = true ∧
      (portS 3 [lowUid]).dev.initiates 2 = true ∧ (portS 3 []).dev.initiates 2 = false) ∧
    (linkBound 1 = some 400000 ∧ linkBound 4 = some 100000 ∧ linkBound 5 = none ∧ (portS 1 [.gcnt 400000000]).dev.expired 0 400000 = true ∧
      (portS 1 [.gcnt 399999999]).dev.expired 0 400000 = false) ∧
    (((portS 0 autoUpds).dev.port 2).autoStart = true ∧ ((portS 0 autoUpds).dev.port 2).kxFails < 3 ∧
      (portS 0 autoUpds).dev.expired 0 10000 = true ∧ (portS 0 autoUpds).dev.bit F.LINK_CTL_ENABLE 2 = true ∧
      (portS 0 autoUpds).dev.axis (portAxis 2) = 4 ∧ (portS 0 []).dev.axis (portAxis 2) = 1) ∧
    ((portS 5 []).dev.cached req = none ∧ (portS 5 []).dev.powered .LINK_CTL = true ∧ bitOf (1 : BitVec 64) 0 = true ∧
      bitOf (1 : BitVec 64) 1 = false ∧ bitOf (1 : BitVec 64) 2 = false ∧ bitOf (0 : BitVec 64) 0 = false ∧
      (portS 0 [longY, ctlUpd 0]).dev.bit F.LINK_CTL_ENABLE 2 = false) ∧
    ((portS 0 spareUpds).dev.bit F.DEV_COORD_SPARE = true ∧ (portS 0 spareUpds).dev.mode ≠ stOff ∧
      (portS 0 []).dev.bit F.DEV_COORD_SPARE = false) ∧
    ((portS 4 [kxUpd ⟨[], true, false, false⟩]).dev.keyOpen 2 = true ∧ (portS 5 [kxUpd ⟨[], true, false, true⟩]).dev.keyOpen 2 = true ∧
      (authOf 9).uid = ((portS 4 [lowUid]).dev.port 2).peerUid ∧ (authOf 8).uid ≠ ((portS 4 [lowUid]).dev.port 2).peerUid ∧
      ((portS 4 [kxUpd ⟨[], true, true, false⟩]).dev.port 2).kx = some ⟨[], true, true, false⟩ ∧
      (portS 4 []).dev.mode ≠ stBoot ∧ (portS 4 []).dev.mode ≠ stPlanWait ∧ ((portS 4 []).dev.port 2).kx = none) ∧
    (2 ^ (portS 5 [setF F.SEC_CFG_REKEY_EXP 0 30]).dev.fld F.SEC_CFG_REKEY_EXP ≤ ((portS 5 [fullPhase]).dev.port 2).txN) := by decide +kernel

/-- Packets of slice 1 to this module, which another member sent. -/
def pktOf (type : Nat) (vc : Nat) (addr n : Nat) : Packet :=
  { mkPacket type vc 0x100 0 1 (List.replicate n 7) with addr := BitVec.ofNat 64 addr }
def readOf (addr n : Nat) : Packet := { pktOf ptReadReq 5 addr 0 with elems := BitVec.ofNat 32 n }
def strangerPkt : Packet := { pktOf ptWrite 2 4096 4 with pkey := 2 }
def readOut : Upd := .route fun r => { r with reads := [(0x100, 0, 8192, 4096, 16)] }
def slowUpd (since : Nat) : Upd := .route fun r => { r with rates := [(256, ⟨some 1000, since, []⟩)] }
/-- A port UP and admitted, its neighbour heard at 0. -/
def admittedS (us : List Upd) : State := portS 5 ([setF F.LINK_STATUS_ADMITTED 2 1, longY] ++ us)

theorem witness_PacketsAreDelivered :
    (Steady (memS [tabUpd]) ∧ (memS [tabUpd]).dev.deliverable strangerPkt = false ∧ (memS [tabUpd]).dev.deliverable (pktOf ptWrite 2 4096 4) = true ∧
      (memS [tabUpd]).dev.fencedPacket 2 1 = false ∧ (memS [tabUpd, fencedSlice]).dev.fencedPacket 2 1 = true) ∧
    ((pktOf ptWrite 2 4096 4).mirror = false ∧ (pktOf ptWrite 2 4096 4).hasExt = false ∧ 549755813884 + 4 = hbmSize ∧
      (memS [tabUpd]).dev.fld F.RING_CTL_LEN 0 = 0 ∧ (memS [tabUpd]).dev.hbmBad = [] ∧ (readOf 549755813880 16).elems ≠ 0) ∧
    ((memS [tabUpd, readOut]).dev.readRecord (pktOf ptReadResp 5 8192 16) = some (0x100, 0, 8192, 4096, 16) ∧
      (memS [tabUpd, readOut]).dev.readRecord (pktOf ptReadResp 5 8192 17) = none) ∧
    (((memS [tabUpd, slowUpd 0]).dev.rateSt 0x100).rate = some 1000 ∧
      (memS [tabUpd, slowUpd 0, .gcnt 1000000000]).dev.expired 0 ((memS []).dev.fld F.ROUTE_CFG_RECOVER_T) = true ∧
      (memS [tabUpd, slowUpd 0, .gcnt 0]).dev.expired 0 ((memS []).dev.fld F.ROUTE_CFG_RECOVER_T) = false ∧
      ((memS [tabUpd]).dev.rateSt 0x100).rate = none) ∧
    ((admittedS []).dev.linkState 2 = lsUp ∧ (admittedS []).dev.bit F.LINK_STATUS_ADMITTED 2 = true ∧
      ((admittedS []).dev.port 2).heardAt + (admittedS []).dev.fld F.RECOV_CFG_SILENT_TO * 1000000 ≤ (admittedS [.gcnt 1000000000]).dev.now ∧
      (portS 4 []).dev.linkState 2 ≠ lsUp ∧ ((admittedS []).dev.port 2).silent = false) := by decide +kernel

/-- R360: the READ_RESP packets of 4,097 bytes: 4,096 and then one, LAST on it. -/
theorem test_read_responses :
    ((readResponses (memS []).dev (readOf 4096 4097)).map fun q => (q.addr.toNat, q.payload.length, q.isLast)) =
      [(4096, 4096, false), (8192, 1, true)] := by decide +kernel

/-! ### Routing epochs and the slice map -/

/-- The coordinator of the machine of four: its router, with version 0 current. -/
def coordS (g : RouteSt → RouteSt) (us : List Upd) : State := sliceDev ([tabUpd, .route g] ++ us)
def reportOf (cls : Nat) (c : Coord) (port : Option (Fin 6)) : FaultReport := ⟨cls, c, port, []⟩
def deadMap : FaultMap := ⟨[], [0x200]⟩
def nextVer : TableVer := ⟨deadMap, ⟨[], []⟩⟩
def prepUpd (acks : List Coord) (r : RouteSt) : RouteSt :=
  { r with coord := { r.coord with map := deadMap, seq := 3, preparing := some 5000, acks := acks } }
def flipUpd (r : RouteSt) : RouteSt := { r with v1 := some nextVer, flipArmed := true }
def drainUpds : List Upd := [setF F.ROUTE_EPOCH_DRAINING 0 1]
def checkUpd (r : RouteSt) : RouteSt := { r with checkAt := some 5000, coord := { r.coord with checkAt := some 5000 } }
/-- A variant of 4 × 1 × 1 in an image, while the machine starts. -/
def variantOf4 : Variant := ⟨true, 4, 1, 1, 1, []⟩
def newDesc : SliceDesc := { desc4 with pkey := 2, sizeX := 2, wrap := 0 }
def replyOf (held : Nat) : DrainReply := ⟨5000, held, [0, 0, 0, 0, 0, 0], [0, 0, 0, 0, 0, 0]⟩
def repliesUpd (r : RouteSt) : RouteSt :=
  { r with coord := { r.coord with checkAt := some 5000, replies := [(0, replyOf 0), (0x100, replyOf 0), (0x200, replyOf 0)] } }

theorem witness_RoutingEpochsFlip :
    (Steady (coordS id []) ∧ (coordS id []).dev.bit F.DEV_COORD_VALID = true ∧ (coordS id []).dev.here = 0 ∧
      (coordS id []).dev.coordIn ((coordS id []).dev.withReport ⟨[], []⟩ (reportOf 3 0x200 none)) = 0 ∧
      (coordS id []).dev.withReport ⟨[], []⟩ (reportOf 3 0x200 none) ≠ ⟨[], []⟩ ∧ (coordS id []).dev.withReport ⟨[], []⟩ (reportOf 1 0x200 none) = ⟨[], []⟩ ∧
      (coordS id [setF F.DEV_COORD_VALID 0 0]).dev.bit F.DEV_COORD_VALID = false) ∧
    ((coordS (fun r => { r with computing := some (3, deadMap) }) []).dev.route.computing = some (3, deadMap) ∧
      (coordS id []).dev.bit F.ROUTE_EPOCH_DRAINING = false ∧ (coordS id drainUpds).dev.bit F.ROUTE_EPOCH_DRAINING = true) ∧
    ((coordS (prepUpd [0, 0x300]) []).dev.isCoord = true ∧ (coordS (prepUpd [0, 0x300]) []).dev.route.coord.preparing.isSome = true ∧
      (((coordS (prepUpd [0, 0x300]) []).dev.liveIn' deadMap).all fun c => [0, 0x300, 0x100].contains c) = true ∧
      (((coordS (prepUpd [0]) []).dev.liveIn' deadMap).all fun c => [0, 0x100].contains c) = false ∧
      (coordS (prepUpd [0]) [.gcnt 1005000]).dev.now = 5000 + 1000000) ∧
    ((coordS flipUpd [setF F.ROUTE_EPOCH_NEXT_VALID 0 1, setF F.ROUTE_FLIP_AT_GCNT 0 5000]).dev.table true = some nextVer ∧
      (coordS flipUpd [setF F.ROUTE_EPOCH_NEXT_VALID 0 1, setF F.ROUTE_FLIP_AT_GCNT 0 5000]).dev.fld F.ROUTE_FLIP_AT_GCNT = 5000 ∧
      (coordS flipUpd []).dev.now = 5000 ∧ (coordS flipUpd []).dev.epoch = false ∧ (coordS id []).dev.table true = none) ∧
    ((coordS checkUpd drainUpds).dev.route.checkAt = some 5000 ∧ (coordS checkUpd [.gcnt 4999]).dev.now = 4999 ∧
      (coordS repliesUpd drainUpds).dev.drainedBy ([(0, replyOf 0), (0x100, replyOf 0), (0x200, replyOf 0)] ++ [(0x300, replyOf 0)]) = true ∧
      (coordS repliesUpd drainUpds).dev.drainedBy ([(0, replyOf 0), (0x100, replyOf 0), (0x200, replyOf 0)] ++ [(0x300, replyOf 1)]) = false ∧
      (coordS id (drainUpds ++ [.gcnt 1000000000])).dev.expired 0 ((coordS id []).dev.fld F.ROUTE_CFG_DRAIN_TO) = true) ∧
    ((coordS id []).dev.allocStatus newDesc = 0 ∧ (coordS id []).dev.allocStatus desc4 ≠ 0 ∧ (coordS id []).dev.removeStatus 1 = 0 ∧
      (coordS id []).dev.removeStatus 2 ≠ 0 ∧ (coordS id []).dev.sliceOf 1 = some 0 ∧
      ((List.range 256).find? fun j => ((coordS id []).dev.slice j).desc.isNone) = some 1) := by decide +kernel

/-! ### Commit and recovery -/

/-- A module of slice 1 with changes of its slice. -/
def commitAtS (g : SliceSt → SliceSt) (us : List Upd) : State := sliceDev ([tabUpd, .slice 0 g] ++ us)
/-- Step 0 open, with one mirrored write outstanding. -/
def openStep (s : SliceSt) : SliceSt := { s with steps := [⟨0, [], 1, false, none, []⟩] }
def mirrorPkt (vc : Nat) (src : Coord) : Packet := { mkPacket ptWrite vc src 0 1 [1, 2, 3, 4] with mark := 2, addr := 16384 }
def readySome (cs : List Coord) (s : SliceSt) : SliceSt := { s with home := { s.home with ready := cs.map fun c => (c, 0) } }
def decidingUpd (s : SliceSt) : SliceSt := { s with home := { s.home with deciding := some 0 } }
def fencedUpd (s : SliceSt) : SliceSt := { s with fenced := true }
/-- A machine of one module. -/
def aloneS (g : SliceSt → SliceSt) : State := commitAtS (fun s => g { s with desc := some { desc4 with sizeX := 1 } }) [setF F.DEV_COORD_SX 0 1]

theorem witness_StepsCommit :
    (Steady (commitAtS id []) ∧ (commitAtS id []).dev.buddyOf 0 = some 0x100 ∧ (commitAtS id []).dev.wardOf 0 = some 0x300 ∧
      (mirrorPkt 0 0x300).mirror = true ∧ pktVc (mirrorPkt 0 0x300) ≠ 5 ∧ pktVc (mirrorPkt 5 0x100) = 5 ∧
      (commitAtS id []).dev.paired 0x300 = true ∧ (commitAtS id []).dev.paired 0x200 = false ∧
      (commitAtS id []).dev.commitLogHalf < (commitAtS id []).dev.stagedUse + 4) ∧
    (((commitAtS openStep []).dev.slice 0).steps.find? (fun e => e.step = 0) = some ⟨0, [], 1, false, none, []⟩ ∧
      ((commitAtS openStep []).dev.committers 0) = [] ∧ (commitAtS openStep []).dev.shadowDone 0 = true ∧
      (commitAtS openStep []).dev.memberHere ((commitAtS openStep []).dev.slice 0) = true) ∧
    ((commitAtS (readySome [0, 0x100, 0x200]) []).dev.homeHere 0 = true ∧ (commitAtS id []).dev.isMember desc4 0x300 = true ∧
      ((commitAtS id []).dev.members desc4).all ([0, 0x100, 0x200, 0x300].contains ·) = true ∧
      ((commitAtS id []).dev.slice 0).nextStep = 0 ∧ ((commitAtS id []).dev.slice 0).home.deciding = none ∧
      ((commitAtS decidingUpd []).dev.slice 0).home.deciding = some 0 ∧ ((commitAtS fencedUpd []).dev.slice 0).fenced = true) ∧
    ((aloneS id).dev.buddyOf (aloneS id).dev.here = none ∧ (aloneS id).dev.wardOf (aloneS id).dev.here = none ∧ (aloneS id).dev.homeHere 0 = true) := by
  decide +kernel

/-- Slice 1 fenced and resolving, with step 1 to be undone. -/
def resolvingUpd (s : SliceSt) : SliceSt :=
  { s with fenced := true, fenceAt := 4000, rstate := 1, committed := some 0, steps := [⟨1, [], 0, false, none, []⟩] }
def relaunchUpd (s : SliceSt) : SliceSt := { s with fenced := true, rstate := 4, relaunchAt := some 5000 }
def haltedUpd (s : SliceSt) : SliceSt := { s with fenced := true, halted := true, rstate := 5 }
def restoreUpd (s : SliceSt) : SliceSt := { s with fenced := true, rstate := 3, replaced := [0] }
def undoUpd : Upd := .commit fun c => { c with undo := [⟨0, 1, 3, []⟩] }
def parkedSpare : State := devWith [setF F.DEV_STATE_STATE 0 stReady, setF F.DEV_COORD_SPARE 0 1]
def takeOver : TakeOver := ⟨0x200, 4, 1, 1, 1, true, 3, ⟨[], []⟩, [(0, desc4, 0)]⟩
def safeS (cause : Nat) : State := commitAtS id [setF F.DEV_STATE_STATE 0 stSafe, setF F.SAFE_STATUS_CAUSE 0 cause, setF F.SAFE_STATUS_FAULT_N 0 1]

theorem witness_SlicesRecover :
    (Steady (commitAtS id []) ∧ (commitAtS id []).dev.resolverHere 0 = true ∧ (commitAtS id [setF F.DEV_COORD_X 0 1]).dev.resolverHere 0 = false ∧
      ((commitAtS resolvingUpd []).dev.slice 0).home.target = none ∧ ((commitAtS resolvingUpd []).dev.slice 0).rstate = 1) ∧
    ((commitAtS resolvingUpd [undoUpd]).dev.commit.undo.length = 1 ∧ ((aloneS resolvingUpd).dev.wardOf (aloneS resolvingUpd).dev.here).isSome = false ∧
      ((commitAtS resolvingUpd []).dev.slice 0).committedInt < 1) ∧
    (parkedSpare.dev.mode = stReady ∧ parkedSpare.dev.bit F.DEV_COORD_VALID = false ∧ parkedSpare.dev.bit F.PLAN_STATUS_PARKED = false ∧
      (takeOver.slices.map Prod.fst).Nodup) ∧
    (((commitAtS restoreUpd []).dev.slice 0).replaced.contains 0 = true ∧ ((commitAtS restoreUpd []).dev.slice 0).rstate = 3) ∧
    (((commitAtS relaunchUpd []).dev.slice 0).relaunchAt = some 5000 ∧ (commitAtS relaunchUpd []).dev.now = 5000 ∧
      (commitAtS relaunchUpd []).dev.mode ≠ stSafe ∧ (commitAtS relaunchUpd []).dev.route.waiting = []) ∧
    (((commitAtS resolvingUpd []).dev.slice 0).fenceAt + (commitAtS resolvingUpd [setF F.RECOV_CFG_BOUND 0 1]).dev.fld F.RECOV_CFG_BOUND * 1000000 ≤
        (commitAtS resolvingUpd [.gcnt 1004000]).dev.now ∧ ((commitAtS resolvingUpd []).dev.slice 0).boundDone = false) ∧
    ((commitAtS id []).dev.cached req = none ∧ (safeS 1).dev.mode = stSafe ∧ (safeS 6).dev.fld F.SAFE_STATUS_CAUSE = 6 ∧
      (safeS 3).dev.fld F.SAFE_STATUS_CAUSE = 3 ∧ ((commitAtS haltedUpd []).dev.slice ((commitAtS id []).dev.commitSel .cymund)).rstate = 5 ∧
      (commitAtS id []).dev.memberHere ((commitAtS id []).dev.slice 0) = true ∧
      (devWith []).dev.memberHere ((devWith []).dev.slice 0) = false ∧ (devWith []).dev.bit F.VAULT_CTL_INSTALL = false) := by decide +kernel

/-! ### The service node -/

/-- The service region of a module: 1 MiB at 1 MiB. -/
def svcRegionW : BitVec 128 := word 128 [(0, 6), (32, 64), (64, 64)]
def svcS (g : SvcSt → SvcSt) (us : List Upd) : State :=
  sliceDev ([.image [svcRegionW] [] 0 [] [], setF F.SVC_CFG_QP_TABLE 0 0, setF F.SVC_CFG_QP_MAX_M1 0 7, .svc g] ++ us)
/-- Interface 0 of Ethernet port 0, sending. -/
def iface0 : Iface := ⟨0x020000000001, 0, 0x0A000001, 0xFE80, 64⟩
def ifUpds : List Upd := [setF F.ETH_CTL_ENABLE 0 1, setF F.ETH_STATUS_UP 0 1]
def withIf (s : SvcSt) : SvcSt := { s with ifaces := [iface0] }
/-- The serving queue pair of a client at 10.0.0.2. -/
def servEnt : QpEnt :=
  { role := 1, iface := 0, ipv6 := false, notify := false, pkey := 1, localQpn := 7, remoteQpn := 9, pmtu := 3, retry := 2, timeout := 1
    tclass := 0, remoteIp := 0x0A000002, ringAddr := 0, ringRkey := 0, ringEntries := 4, localRkey := 11, nrec := 4, promptKib := 4
    regionOff := 16, sqPsn := 100, rqPsn := 200, reservedBits := false }
/-- The same entry as bytes of the queue pair table. -/
def servBytes : List Byte :=
  [1, 0, 1, 0] ++ [7, 0, 0, 0] ++ [9, 0, 0, 0] ++ [3, 10, 0, 0] ++ List.replicate 12 0 ++ [2, 0, 0, 10] ++ List.replicate 12 0 ++
    [4, 0, 0, 0] ++ [11, 0, 0, 0] ++ [4, 0, 0, 0] ++ [4, 0, 0, 0] ++ [16, 0, 0, 0] ++ [100, 0, 0, 0] ++ [200, 0, 0, 0] ++ List.replicate 24 0
def servQp : QpSt := { QpSt.init with ent := some servEnt, st := .ready, sqPsn := 100, rqPsn := 200 }
def withQp (x : QpSt) (s : SvcSt) : SvcSt := { s with ifaces := [iface0], qps := [(0, x)] }
def qpS (x : QpSt) (us : List Upd) : State := svcS (withQp x) (ifUpds ++ us)
def arpOf (target sender : BitVec 32) : ArpFrame := ⟨false, 5, sender, target⟩
def ndOf (target src : BitVec 128) : NdFrame := ⟨false, target, src, 5⟩
def echoOf (dst : BitVec 128) (n : Nat) : EchoFrame := ⟨false, 0x0A000002, dst, 1, 1, List.replicate n 0⟩
/-- A pause of priority 3 is obeyed at port 0. -/
def pfcUpds : List Upd := [setF F.ETH_CTL_PFC_EN 0 1, setF F.ETH_CTL_PFC_PRIO 0 3]

theorem witness_EthernetFramesAreTaken :
    (Steady (svcS id []) ∧ (svcS id []).dev.iface 0 = none ∧ (svcS withIf []).dev.iface 0 = some iface0 ∧ (svcS withIf []).dev.iface 1 = none ∧
      (svcS withIf ifUpds).dev.ifaceSends 0 = true ∧ (svcS withIf []).dev.ifaceSends 0 = false) ∧
    ((arpOf 0x0A000001 0x0A000002).targetIp = iface0.ipv4 ∧ (arpOf 0x0A000003 0x0A000002).targetIp ≠ iface0.ipv4 ∧ iface0.ipv4 ≠ 0 ∧
      (qpS servQp []).dev.isPeer 0 0x0A000002 = true ∧ (qpS servQp []).dev.isPeer 0 0x0A000003 = false) ∧
    ((ndOf 0xFE80 3).target = iface0.ipv6 ∧ (ndOf 0xFE81 3).target ≠ iface0.ipv6 ∧ iface0.ipv6 ≠ 0 ∧ (qpS servQp []).dev.isPeer 0 3 = false) ∧
    ((qpS servQp []).dev.fld F.ETH_CTL_MTU 0 = EchoBytes (echoOf 0x0A000001 ((qpS servQp []).dev.fld F.ETH_CTL_MTU 0 - 28)) ∧
      (qpS servQp []).dev.fld F.ETH_CTL_MTU 0 < EchoBytes (echoOf 0x0A000001 ((qpS servQp []).dev.fld F.ETH_CTL_MTU 0 - 27)) ∧
      (echoOf 0x0A000001 0).dst = iface0.ipv4.zeroExtend 128 ∧ (echoOf 0x0A000003 0).dst ≠ iface0.ipv4.zeroExtend 128) ∧
    ((svcS id ifUpds).dev.ifaceExists 0 = true ∧ (svcS id ifUpds).dev.ifaceExists 7 = false ∧
      (svcS id ifUpds).dev.bit F.ETH_CTL_ENABLE (ethPort 0) = true) ∧
    ((svcS id pfcUpds).dev.bit F.ETH_CTL_PFC_EN 0 = true ∧ (svcS id pfcUpds).dev.fld F.ETH_CTL_PFC_PRIO 0 = 3 ∧
      (svcS id []).dev.bit F.ETH_CTL_PFC_EN 0 = false) := by decide +kernel

def writeOf (psn va n : Nat) (first last : Bool) : RdmaWrite :=
  { psn := BitVec.ofNat 24 psn, first := first, isLast := last, va := BitVec.ofNat 64 va, rkey := 11, imm := none, data := List.replicate n 7, ce := false }
def readReqOf (va len : Nat) : RdmaRead := { psn := 200, va := BitVec.ofNat 64 va, rkey := 11, len := BitVec.ofNat 32 len, ce := false }
/-- A READ of two packets sent, with its first packet received or not. -/
def readSent (got : Nat) : SentMsg := ⟨100, 2, .readReq 100 4096 1 2048, none, List.replicate got 0, none⟩
def writeSent (psn : Nat) : SentMsg := ⟨psn, 1, .write psn 4096 1 none [1], none, [], none⟩
def respOf (psn : Nat) (last : Bool) : RdmaResp := ⟨BitVec.ofNat 24 psn, last, List.replicate 1024 3, false⟩

theorem witness_QueuePairsRun :
    (Steady (svcS id []) ∧ ((svcS id []).dev.qp 65535).st ≠ .ready ∧ (svcS id []).dev.svc.waitAt = [] ∧
      ((qpS servQp []).dev.qp 0).ent = some servEnt ∧ ((qpS servQp []).dev.qp 0).st = .ready ∧ (qpS servQp []).dev.svc.waitAt = [] ∧
      (qpS servQp []).dev.svc.silenced = false ∧ ((qpS servQp []).dev.qp 0).awaitFirst = false) ∧
    (psnOrder 200 201 = .ahead ∧ psnOrder 200 199 = .again ∧ psnOrder 200 200 = .next ∧ psnOrder 16777215 0 = .ahead ∧
      psnOrder 0 8388607 = .ahead ∧ psnOrder 0 8388608 = .again) ∧
    (((qpS servQp []).dev.qp 0).rxVa.map Prod.fst = none ∧ servEnt.mtu = 1024 ∧ servEnt.mtu < (writeOf 200 4096 1025 true true).data.length ∧
      servEnt.regionBytes = 8704 ∧ 7680 + (writeOf 200 7680 1024 true true).data.length = 8704 ∧
      8704 < 7681 + (writeOf 200 7681 1024 true true).data.length ∧ (qpS servQp []).dev.qpRegion servEnt = 1114112 ∧
      (qpS servQp []).dev.hbmBad = [] ∧ ((qpS { servQp with rxVa := some (4096, 0) } []).dev.qp 0).rxVa.isSome = true) ∧
    (servEnt.regionBytes = (readReqOf 7680 1024).va.toNat + (readReqOf 7680 1024).len.toNat ∧
      servEnt.regionBytes < (readReqOf 7680 1025).va.toNat + (readReqOf 7680 1025).len.toNat ∧ (readReqOf 7680 1024).ce = false) ∧
    ((qpS { servQp with sent := [writeSent 99, readSent 1024] } []).dev.qp 0).sent.find? SentMsg.isRead = some (readSent 1024) ∧
    (((readSent 1024).psn + (readSent 1024).got.length / servEnt.mtu) % psnMod = (respOf 101 true).psn.toNat ∧
      ((readSent 0).psn + (readSent 0).got.length / servEnt.mtu) % psnMod = (respOf 100 false).psn.toNat ∧
      (([writeSent 99, readSent 1024] : List SentMsg).all fun y => y.export_ = none) = true) ∧
    (ackedBy ((100 + psnMod - 1) % psnMod) [writeSent 100] = [] ∧ (ackedBy 100 [writeSent 100]).length = 1) ∧
    (2 = servEnt.retry ∧ ((qpS { servQp with retries := 2 } []).dev.qp 0).retries = 2) ∧
    ((qpS servQp []).dev.qp 0).progressAt + 4096 * 2 ^ servEnt.timeout = (qpS servQp [.gcnt 8192]).dev.now ∧
    (((qpS { servQp with rate := fullRate } []).dev.qp 0).rate = fullRate ∧ ((qpS servQp []).dev.qp 0).rate < fullRate ∧
      (qpS servQp [.gcnt 1000000, setF F.ETH_CC_RECOVER_T 0 1000]).dev.expired 0 1000 = true ∧
      (qpS servQp [.gcnt 999999, setF F.ETH_CC_RECOVER_T 0 1000]).dev.expired 0 1000 = false) := by decide +kernel

/-- A job of slice 1 of one step on shards of queue pair 1, reporting on queue pair 0. -/
def jobBytes : List Byte :=
  [1, 0, 0, 0x80] ++ [1, 0] ++ [0, 0] ++ [5, 0, 0, 0] ++ [2, 0, 1, 0] ++ [1, 0, 0, 0] ++ [4, 0, 0, 0] ++ [2, 0, 0, 0] ++ List.replicate 36 0 ++
    ([1, 0] ++ [0, 0] ++ [1, 0, 0, 0] ++ List.replicate 8 0 ++ [64, 0, 0, 0, 0, 0, 0, 0] ++ [1, 0, 0, 0] ++ [0, 0, 0, 0])
def dataEnt : QpEnt := { servEnt with role := 2, localQpn := 8, nrec := 0, promptKib := 0, ringEntries := 0 }
def dataQp : QpSt := { servQp with ent := some dataEnt }
def areaEnt : QpEnt := { servEnt with role := 3, localQpn := 10, nrec := 0, promptKib := 0, ringEntries := 1 }
def areaQp : QpSt := { servQp with ent := some areaEnt }
def block1 : BitVec 384 := word 384 [(0, 1), (32, 4), (64, 64), (96, 16), (128, 32)]
def adapter5 : Adapter := ⟨5, ⟨1, 2097152, 1024⟩, ⟨2, 3145728, 1048576⟩, false⟩
def withJobs (s : SvcSt) : SvcSt :=
  { s with ifaces := [iface0], qps := [(0, servQp), (1, dataQp), (2, areaQp)], blocks := [block1], adapters := [adapter5] }
def withOneJob (s : SvcSt) : SvcSt := { withJobs s with jobs := [jobOf jobBytes] }
def jobS (us : List Upd) : State := svcS withJobs (ifUpds ++ [.hbm 1052672 jobBytes] ++ us)
/-- The manifest lies in page 1 of the service region. -/
def jobAtS : State := jobS [setF F.SVC_ARG_ARG 0 1]
/-- The arguments of EXPORT: an area, an adapter, its generation. -/
def exportArg (q adapter gen : Nat) : Upd := setF F.SVC_ARG_ARG 0 (q + 65536 * adapter + 281474976710656 * gen)
/-- Another ring context armed and loaded for base generation 3. -/
def armed1 : List Upd := [setF F.RING_CTL_PKEY 1 1, setF F.RING_STATUS_STATE 1 1, setF F.RING_CTL_BASE_GEN 1 3, setF F.LOAD_STATUS_CTX_LOADED 0 2]
def awaitedLog : SvcSt → SvcSt := fun s => { withJobs s with waitAt := [(0, 1)] }

theorem witness_ServiceCommandsRun :
    (Steady (jobS []) ∧ (jobS []).dev.cached req = none ∧ (jobS [setF F.SVC_CMD_STATUS_BUSY 0 1]).dev.bit F.SVC_CMD_STATUS_BUSY = true ∧
      (jobS []).dev.bit F.SVC_CMD_STATUS_BUSY = false) ∧
    ((svcS withIf (ifUpds ++ [.hbm 1048576 servBytes])).dev.qpTable = (1048576, 768) ∧
      qpEnt (memRead (svcS withIf [.hbm 1048576 servBytes]).dev.hbm 1048576 96) = servEnt ∧
      (svcS withIf (ifUpds ++ [.hbm 1048576 servBytes])).dev.qpCheck 0 servEnt = 0 ∧ ((svcS withIf []).dev.qp 0).st = .reset ∧
      ¬ (768 ≤ 96 * 7) ∧ 768 ≤ 96 * 8 ∧ ((jobS []).dev.qp 0).st ≠ .reset) ∧
    (memRead jobAtS.dev.hbm (jobAtS.dev.svcRegion.1 + 4096 * (jobAtS.dev.svcArg 0 % 4294967296)) 96 = jobBytes ∧
      memRead jobAtS.dev.hbm (1052672 + 96) 2016 = List.replicate 2016 0 ∧ jobAtS.dev.jobCheck jobBytes (jobOf jobBytes) = 0 ∧
      (svcS withOneJob []).dev.jobCheck jobBytes (jobOf jobBytes) ≠ 0 ∧
      (svcS withOneJob []).dev.svc.jobs.find? (fun j => j.handle = 2147483649) = some (jobOf jobBytes) ∧
      (svcS withOneJob []).dev.svc.jobs.find? (fun j => j.handle = 2147483650) = none) ∧
    (((jobS []).dev.qp 7).ent = none ∧ ((jobS [exportArg 2 5 2]).dev.qp ((jobS [exportArg 2 5 2]).dev.svcArg 0 % 65536)).ent = some areaEnt ∧
      (jobS [exportArg 2 5 2]).dev.adapter ((jobS [exportArg 2 5 2]).dev.svcArg 0 / 65536 % 4294967296) = some adapter5 ∧
      (jobS [exportArg 2 5 2]).dev.svcArg 0 / 281474976710656 % 65536 = 2 ∧ (jobS [exportArg 2 5 2]).dev.svcArg 1 + 1048576 = areaEnt.ringEntries * 1048576 ∧
      ((jobS []).dev.sliceOf areaEnt.pkey).any (fun k => (jobS []).dev.takesItems k && !((jobS []).dev.slice k).frozen) = true ∧
      (jobS [fencedSlice]).dev.takesItems 0 = false) ∧
    ((jobS []).dev.adapter 5 = some adapter5 ∧ (jobS []).dev.adapter 6 = none ∧ (jobS []).dev.ownSlice = none ∧
      (jobS ringUpds).dev.ownSlice = some 0 ∧ (otherBuf adapter5).gen = 2) ∧
    ((jobS (ringUpds ++ armed1)).dev.armedLoaded ((jobS ringUpds).dev.slice 0).pkey 3 = true ∧ (jobS ringUpds).dev.readerHolds 3 = true ∧
      ((jobS (ringUpds ++ armed1)).dev.baseGen 0).draining = false ∧ (jobS (ringUpds ++ armed1)).dev.takesItems 0 = true ∧
      (jobS (ringUpds ++ armed1)).dev.armedLoaded 1 4 = false) ∧
    (mapGet (fun _ => 0) (svcS awaitedLog []).dev.svc.waitAt 0 = 1 ∧
      (svcS awaitedLog [.gcnt 10000000000]).dev.expired 0 ((svcS id []).dev.fld F.SYNC_CFG_WAIT_WD) = true ∧
      ((svcS awaitedLog []).dev.slice 0).desc.isSome = true ∧ mapGet (fun _ => 0) (svcS id []).dev.svc.waitAt 255 = 0) := by decide +kernel

/-! ### The chain -/

/-- `Dev.steady` and `Dev.Settled`, in a form that is evaluated. -/
abbrev Calm (s : State) : Prop := Steady s ∧ ¬ (s.dev.mode = stRunning ∧ s.dev.allIdle = true)
/-- A member of slice 1 that is READY. -/
def readyS (us : List Upd) : State := sliceDev (setF F.DEV_STATE_STATE 0 stReady :: us)
def chainS (g : ChainSt → ChainSt) (us : List Upd) : State := readyS (.chain g :: us)
/-- A region of weights at 1 MiB, and a COMMITTED one of slice 1 at 2 MiB. -/
def lockUpds : List Upd := [.image [word 128 [(0, 8), (32, 64), (64, 64)], word 128 [(0, 3), (9, 1), (16, 1), (32, 128), (64, 64)]] [] 0 [] [],
  setF F.SEC_CFG_WEIGHT_LOCK 0 1]
/-- An installation open for slot A, with a stream of units taken. -/
def installUpds (taken got : Nat) : List Upd := [setF F.VAULT_CTL_INSTALL 0 1, .secure fun s => { s with installA := some 2 },
  .vault fun v => { v with nextUnit := [(0, taken)], staged := [(0, List.replicate got 7)] }]
def dmaItem (asked moved : Nat) : DmaItem := ⟨7, 1, false, 4096, 8192, 4096, asked, moved⟩
def eightDma (c : ChainSt) : ChainSt := { c with dma := List.replicate 8 (dmaItem 0 0) }
def ev (n : Nat) : Event := ⟨BitVec.ofNat 32 n, 1, 0, []⟩
def upPort : Upd := setF F.CHAIN_STATUS_OUT_STATE 0 2

theorem witness_ChainRequestsRun :
    (Calm (readyS []) ∧ (readyS []).dev.cached req = none ∧ (readyS []).dev.fld F.PWR_STATUS_STATE = 0 ∧
      3 ≤ (readyS [setF F.PWR_STATUS_STATE 0 3]).dev.fld F.PWR_STATUS_STATE ∧ req.bcast = false) ∧
    ((readyS [upPort]).dev.fld F.CHAIN_STATUS_OUT_STATE = 2 ∧ (readyS []).dev.fld F.CHAIN_STATUS_OUT_STATE ≠ 2 ∧
      (readyS [upPort]).dev.fld F.CHAIN_ADDR_ADDR ≠ 255 ∧ (readyS [upPort]).dev.bit F.CHAIN_ADDR_VALID = true) ∧
    ((549755813888 - 1024) + 1024 = hbmSize ∧ hbmSize < (549755813888 - 1023) + 1024 ∧
      (readyS lockUpds).dev.weightLocked (1048576 - 1) 2 = true ∧ (readyS lockUpds).dev.weightLocked (1048576 - 1) 1 = false) ∧
    ((readyS (lockUpds ++ ringUpds)).dev.committedLive 2097152 1 = true ∧ (readyS lockUpds).dev.committedLive 2097152 1 = false ∧
      (readyS (lockUpds ++ ringUpds)).dev.committedLive (2097152 - 1) 1 = false ∧ (readyS []).dev.hbmBad = []) ∧
    (bitsOf (1024 : BitVec 64) 63 32 = 0 ∧ bitsOf (4294967296 : BitVec 64) 63 32 ≠ 0) ∧
    ((readyS []).dev.bit F.VAULT_CTL_INSTALL = false ∧ (readyS (installUpds 2048 2048)).dev.bit F.VAULT_CTL_INSTALL = true ∧
      (readyS (installUpds 2048 2048)).dev.secure.installA = some 2 ∧ (readyS (installUpds 2048 2048)).dev.secure.installB = none ∧
      bitOf (2048 : BitVec 64) 63 = false ∧ bitOf (2048 : BitVec 64) 62 = false ∧ bitsOf (2048 : BitVec 64) 61 0 = 2048 ∧
      mapGet (fun _ => 0) (readyS (installUpds 2048 2048)).dev.vault.nextUnit (streamIx false false) = 2048 ∧ 1024 % 1024 = 0) ∧
    ((readyS []).dev.fld F.VAULT_SLOT_BASE 0 + ((523264 + 1024) / groupBytes - 1) < 4194304) ∧
    (8 ≤ (chainS eightDma []).dev.chain.dma.length ∧ (readyS []).dev.chain.dma = [] ∧ (readyS []).dev.chain.events.length < 960 ∧
      960 ≤ (chainS (fun c => { c with events := List.replicate 960 (ev 1) }) []).dev.chain.events.length ∧
      (readyS lockUpds).dev.dmaBad ⟨7, 1, true, 1048576, 0, 1, 0, 0⟩ = true ∧ (readyS lockUpds).dev.dmaBad (dmaItem 0 0) = false) := by
  decide +kernel

/-- The unit that makes a parity group whole. -/
theorem witness_ChainRequestsRun_group :
    (mapGet (fun _ => []) (readyS (installUpds 523264 523264)).dev.vault.staged (streamIx false false)).length + 1024 = groupBytes := by
  have h : mapGet (fun _ => []) (readyS (installUpds 523264 523264)).dev.vault.staged (streamIx false false) = List.replicate 523264 7 := rfl
  rw [h, List.length_replicate]
  rfl

def withOut (os : List OutReq) (c : ChainSt) : ChainSt := { c with out := os }
def outEv : OutReq := ⟨3, .event 5, 4000, 0⟩
def outRd : OutReq := ⟨4, .memRd 8192 4096 1024, 4000, 0⟩
def outWr : OutReq := ⟨4, .memWr 8192 4096 1024, 4000, 0⟩
def heldEv (c : ChainSt) : ChainSt := { c with events := [ev 5], out := [outEv] }
def movingDma (o : OutReq) (c : ChainSt) : ChainSt := { c with dma := [dmaItem 1024 0], out := [o] }
def askedOn (c : ChainSt) : ChainSt := { c with enumTag := some 9 }
def relayOut1 : RelayOut := ⟨req, 0x200, 6, some 3⟩
def outPort (v : Nat) : Upd := setF F.CHAIN_STATUS_OUT_STATE 0 v

theorem witness_ChainResponsesReturn :
    (Calm (chainS heldEv []) ∧ (chainS heldEv []).dev.chain.dma = [] ∧ (∃ e ∈ (chainS heldEv []).dev.chain.events, e.seq = 5) ∧
      (∀ e ∈ (chainS heldEv []).dev.chain.events, e.seq ≠ 6) ∧ (chainS heldEv []).dev.chain.events.length < 1024) ∧
    ((chainS askedOn []).dev.enumBack 9 (enumBytes 3 4) = true ∧ (chainS askedOn []).dev.enumBack 8 (enumBytes 3 4) = false ∧
      (chainS askedOn []).dev.enumBack 9 [1] = false ∧ (chainS heldEv []).dev.enumBack 3 [] = false) ∧
    ((chainS heldEv []).dev.chain.out.find? (fun o => o.tag = 2) = none ∧ (chainS heldEv []).dev.chain.out.find? (fun o => o.tag = 3) = some outEv) ∧
    ((chainS (movingDma outRd) []).dev.chain.out.find? (fun o => o.tag = 4) = some outRd ∧ (chainS (movingDma outRd) []).dev.enumBack 4 [] = false ∧
      (chainS (movingDma outWr) []).dev.chain.out.find? (fun o => o.tag = 4) = some outWr ∧
      (chainS (movingDma outRd) []).dev.chain.dma = [dmaItem 1024 0] ∧ (dmaItem 1024 0).moved + 1024 < (dmaItem 1024 0).len ∧
      (dmaItem 1024 0).asked ≠ 0 ∧ (chainS (movingDma outRd) []).dev.hbmBad = [] ∧ 4096 + 1024 ≤ hbmSize) ∧
    ((chainS heldEv [setF F.CHAIN_CFG_RETRY_TO 0 1]).dev.expired outEv.sentAt 1 = true ∧
      (chainS heldEv [setF F.CHAIN_CFG_RETRY_TO 0 1, .gcnt 4999]).dev.expired outEv.sentAt 1 = false ∧
      outEv.resends < (chainS heldEv [setF F.CHAIN_CFG_RETRY_MAX 0 1]).dev.fld F.CHAIN_CFG_RETRY_MAX ∧
      (chainS heldEv [setF F.CHAIN_CFG_RETRY_MAX 0 0]).dev.fld F.CHAIN_CFG_RETRY_MAX ≤ outEv.resends) ∧
    ((readyS [outPort 2]).dev.fld F.CHAIN_STATUS_OUT_STATE = 2 ∧ (readyS [outPort 0]).dev.fld F.CHAIN_STATUS_OUT_STATE = 0 ∧
      (readyS [outPort 1]).dev.fld F.CHAIN_STATUS_OUT_STATE = 1 ∧ (readyS [outPort 1]).dev.mode ≠ stOff ∧
      (readyS [outPort 3]).dev.fld F.CHAIN_STATUS_OUT_STATE = 3) ∧
    ((readyS []).dev.chain.relays = [] ∧ (readyS []).dev.cached req = none ∧
      64 ≤ ((chainS (fun c => { c with relays := List.replicate 64 { relayOut1 with tag := 7, req := { req with tag := 9 } } }) []).dev.chain.relays.filter
        fun x => x.target = 0x200).length ∧
      (chainS (fun c => { c with relays := [relayOut1] }) []).dev.chain.relays.find? (fun x => x.target = 0x200 && x.tag = 6) = some relayOut1 ∧
      (chainS (fun c => { c with relays := [relayOut1] }) []).dev.chain.relays.find? (fun x => x.target = 0x200 && x.tag = 7) = none) := by
  decide +kernel

def timedOne (at_ : Nat) (c : Cmd) (s : ChainSt) : ChainSt := { s with timed := [⟨at_, c⟩] }
def readerUpd (failed : Bool) : Upd := .start fun t => { t with reader := some ⟨[0], false, 0, 0, [], false, failed⟩ }
/-- The seeded module of a machine of four in PLAN_WAIT, with no image. -/
def planS (us : List Upd) : State := sliceDev ([setF F.DEV_STATE_STATE 0 stPlanWait, .start fun t => { t with seed := true }] ++ us)
/-- Ring context 1 set up for LAUNCH, and the word of RING_CTL that arms it. -/
def armLaunchS : State := armableS [setF F.DEV_STATE_STATE 0 stReady, setF F.RING_CTL_PKEY 1 1, setF F.RING_CTL_LEN 1 4]
def armLaunchW : BitVec 64 := BitVec.ofNat 64 (putBits (armLaunchS.dev.reg .RING_CTL 1) F.RING_CTL_ARM.hi F.RING_CTL_ARM.lo 1)

theorem witness_ChainCommandsRun :
    (Calm (readyS []) ∧ (readyS []).dev.cached req = none ∧ (5000 : BitVec 64).toNat ≤ (readyS []).dev.now ∧ (readyS []).dev.now < (5001 : BitVec 64).toNat) ∧
    ((readyS []).dev.bit F.SNAP_STATUS_ARMED = false ∧ (readyS []).dev.bit F.SNAP_STATUS_PENDING = false ∧
      (readyS [setF F.SNAP_STATUS_ARMED 0 1]).dev.bit F.SNAP_STATUS_ARMED = true ∧ ¬ ((5000 : BitVec 64).toNat < (readyS []).dev.now)) ∧
    ((readyS ringUpds).dev.fld F.RING_STATUS_STATE 0 = 2 ∧ (readyS []).dev.fld F.RING_STATUS_STATE 3 = 0 ∧ Calm armLaunchS ∧
      armLaunchS.dev.fld F.RING_STATUS_STATE 1 = 0 ∧ armLaunchS.dev.fld F.RING_CTL_LEN 1 ≤ 16 ∧ armLaunchS.dev.fld F.RING_CTL_MODE 1 ≠ 3 ∧
      ([0, 1, 2, 3].all fun o => armLaunchS.dev.fld F.RING_STATUS_STATE o = 0) = true ∧
      (applyAll (ringCtlFields.map fun f => setF f 1 (bitsOf armLaunchW f.hi f.lo)) armLaunchS.dev).bindStatus 1 = none) ∧
    ((readyS []).dev.hasBinding = false ∧ (readyS ringUpds).dev.hasBinding = true) ∧
    ((readyS [tabUpd]).dev.isCoord = true ∧ (readyS [tabUpd, setF F.DEV_COORD_X 0 1]).dev.isCoord = false ∧ (readyS []).dev.chain.relays = [] ∧
      (readyS [tabUpd]).dev.changeStatus (.remove 1) = 0 ∧ (readyS [tabUpd]).dev.changeStatus (.remove 2) ≠ 0 ∧
      (readyS [tabUpd]).dev.changeStatus (.alloc newDesc false) = 0 ∧ (readyS [tabUpd]).dev.changeStatus (.alloc desc4 false) ≠ 0) ∧
    (Calm (planS []) ∧ (planS []).dev.mode = stPlanWait ∧ (planS []).dev.leads = true ∧ (∀ v ∈ [0, 1, 2, 3], (planS []).dev.planFault v ≠ 0) ∧
      (planS [setF F.DEV_COORD_X 0 1]).dev.leads = false ∧ (readyS []).dev.mode ≠ stPlanWait) ∧
    ((readyS []).dev.start.reader.all (fun j => !j.failed) = true ∧
      (readyS [readerUpd true]).dev.start.reader = some ⟨[0], false, 0, 0, [], false, true⟩ ∧ (readyS [tabUpd]).dev.weightLoadBad 0 = true ∧
      (readyS [tabUpd, setF F.DEV_COORD_X 0 1]).dev.isCoord = false) ∧
    ((readyS []).dev.chain.timed.filter (fun t => t.at_ ≤ (readyS []).dev.now) = [] ∧
      (chainS (timedOne 5000 (.freeze none 1 false)) []).dev.chain.timed.filter (fun t => t.at_ ≤ 5000) = [⟨5000, .freeze none 1 false⟩] ∧
      (chainS (timedOne 5000 (.drain none 0)) []).dev.chain.timed.filter (fun t => t.at_ ≤ 5000) = [⟨5000, .drain none 0⟩] ∧
      (chainS (timedOne 5000 (.reset none true false)) []).dev.chain.timed.filter (fun t => t.at_ ≤ 5000) = [⟨5000, .reset none true false⟩]) := by
  decide +kernel

/-! ### Start-up -/

/-- The seeded module while the machine starts, at a step. -/
def bootS (step : Nat) (g : StartSt → StartSt) (us : List Upd) : State :=
  sliceDev ([setF F.DEV_STATE_STATE 0 stBoot, setF F.BOOT_STATUS_STEP 0 step, .start fun t => g { t with seed := true }] ++ us)
/-- A module that waits for its coordinate, with port 2 UP. -/
def seekS (g : StartSt → StartSt) (us : List Upd) : State :=
  devWith ([setF F.DEV_STATE_STATE 0 stBoot, setF F.BOOT_STATUS_STEP 0 7, setF F.LINK_STATUS_STATE 2 lsUp, .gcnt 500000000, .start g] ++ us)
def modReport (c : Coord) (conflict : Bool) : ModReport := ⟨c, 9, 0, 0, true, [], [], 0, conflict⟩
/-- An image of a signer, with a plan for one module. -/
def soloImage : Image :=
  { version := 5, serial := 0, formed := true, certsOk := true, rsaOk := true, slhOk := true, digestsOk := true, mImage := 1, mPlan := 2
    spareWait := 0, variants := [⟨true, 1, 1, 1, 1, [⟨0, false, 0, 3⟩]⟩], defaults := [], ifaces := [], regions := [], codecTables := []
    digestK := 0, schedLib := [], syncLib := [], serve := [], adapters := [], slices := [] }
def image4 : Image := { soloImage with variants := [⟨true, 4, 1, 1, 1, []⟩] }
def withImage (im : Image) (t : StartSt) : StartSt := { t with image := some im, variant := some 0 }
def loadUpds (step : Nat) : List Upd := [tabUpd, setF F.DEV_STATE_STATE 0 stLoading, setF F.BOOT_STATUS_STEP 0 step]
def three : List Coord := [0, 0x100, 0x200]
def spareRep : SpareReport := ⟨0x300, 9, true, 1, 2, 0, 5⟩
def deadUpd : Upd := .route fun r => { r with coord := { r.coord with map := ⟨[], [0x300]⟩ } }
def soloUpds : List Upd := [setF F.DEV_COORD_SX 0 1]
def fourReports : List ModReport := [modReport 0x100 false, modReport 0x200 false, modReport 0x300 false]

theorem witness_StartUpProceeds :
    (Calm (seekS id []) ∧ (seekS id []).dev.linkState 2 = lsUp ∧ (seekS id []).dev.linkState 0 ≠ lsUp ∧ (seekS id []).dev.bit F.DEV_COORD_VALID = false ∧
      (seekS id []).dev.fld F.PLAN_STATUS_PARKED ≠ 1 ∧ (seekS id []).dev.mode ≠ stOff ∧ (seekS id [setF F.PLAN_STATUS_PARKED 0 1]).dev.fld F.PLAN_STATUS_PARKED = 1) ∧
    (Calm (bootS 7 id []) ∧ (bootS 7 id [setF F.LINK_STATUS_STATE 2 lsUp]).dev.linkState 2 = lsUp ∧ (bootS 7 id []).dev.bit F.DEV_COORD_VALID = true ∧
      (0 : Coord) ≠ (bootS 7 id []).dev.neighbour 0 ∧ (bootS 7 id []).dev.neighbour 0 = 0x100) ∧
    ((bootS 7 id []).dev.assigns = [(0, 0x100)] ∧ (bootS 7 id []).dev.start.reported = false ∧ (bootS 7 id []).dev.leads = true ∧
      (bootS 7 (fun t => { t with seed := false, fromPort := some 1, reported := true }) []).dev.leads = false ∧
      ((bootS 7 id []).dev.assigns.all fun e => decide (e.1 = 0) || (bootS 7 id []).dev.start.heardPorts.contains e.1) = true ∧
      ((bootS 7 id []).dev.assigns.all fun e => decide (e.1 = 2) || (bootS 7 id []).dev.start.heardPorts.contains e.1) = false) ∧
    ((bootS 7 id [.gcnt 100000000]).dev.stepMs 100 = true ∧ (bootS 7 id [.gcnt 99999999]).dev.stepMs 100 = false) ∧
    ((seekS id []).dev.stepMs 500 = true ∧ (seekS id []).dev.bit F.DEV_COORD_SPARE = false ∧ (seekS id []).dev.start.peers = [] ∧ (seekS id []).dev.bootStep = 7 ∧
      (seekS (fun t => { t with peers := [(2, 0)] }) []).dev.start.peers ≠ []) ∧
    ((((bootS 6 (withImage image4) []).dev.variantOf 0).map Variant.shape).getD (1, 1, 1) = (4, 1, 1) ∧ (bootS 6 (withImage image4) []).dev.bootStep = 6 ∧
      ([0, 1, 2, 3, 4, 5].all fun q => (bootS 6 (withImage image4) []).dev.linkState q ≠ lsUp) = true) ∧
    ((bootS 8 id [.gcnt 10000000000]).dev.stepMs ((bootS 8 id []).dev.fld F.START_CFG_SPARE_WAIT) = true ∧
      ([0, 1, 2, 3].all fun v => (bootS 8 id []).dev.planFault v ≠ 0) = true ∧ (bootS 8 (withImage soloImage) soloUpds).dev.planFault 0 = 0 ∧
      (bootS 8 (withImage soloImage) soloUpds).dev.vacant.isEmpty = true ∧ (bootS 8 (withImage soloImage) soloUpds).dev.leads = true ∧
      ((bootS 8 (withImage soloImage) soloUpds).dev.variantOf 0).all (fun x => decide (cz (bootS 8 id soloUpds).dev.here < x.shape.2.2)) = true) ∧
    ((bootS 8 id []).dev.slotFor 0 0 = none ∧ (bootS 8 (withImage soloImage) [setF F.RING_CTL_BASE_GEN 0 3]).dev.slotFor 0 0 = some false) ∧
    ((bootS 10 id (loadUpds 10)).dev.isCoord = true ∧ (bootS 10 id (loadUpds 10)).dev.mode = stLoading ∧ (bootS 10 id (loadUpds 10)).dev.bootStep = 10 ∧
      (((bootS 10 (fun t => { t with dones := three }) (loadUpds 10)).dev.liveIn' ⟨[], []⟩).all fun x => decide (x = 0x300) || three.contains x) = true ∧
      (((bootS 10 id (loadUpds 10)).dev.liveIn' ⟨[], []⟩).all fun x => decide (x = 0x300) || ([] : List Coord).contains x) = false ∧
      (bootS 10 id (loadUpds 10 ++ [setF F.DEV_COORD_X 0 1])).dev.isCoord = false ∧ (0 : Coord) = (bootS 10 id (loadUpds 10 ++ [setF F.DEV_COORD_X 0 1])).dev.coordinator ∧
      (bootS 10 id (loadUpds 10)).dev.fld F.LOAD_STATUS_FAILED ≠ 1 ∧ (bootS 10 id (loadUpds 10)).dev.route.fmap = ⟨[], []⟩) ∧
    ((bootS 11 id (loadUpds 11)).dev.bootStep = 11 ∧ (bootS 12 (fun t => { t with readyAt := some 5000 }) (loadUpds 12)).dev.start.readyAt = some 5000 ∧
      (bootS 12 (fun t => { t with readyAt := some 5000 }) (loadUpds 12)).dev.bootStep = 12 ∧
      (bootS 11 (fun t => { t with launches := [(1, 7)] }) (loadUpds 11)).dev.start.launches = [(1, 7)] ∧
      (bootS 12 id [setF F.SEC_STATUS_ARB 0 4, setF F.SEC_IMG_VERSION 0 5]).dev.fld F.SEC_STATUS_ARB = 4 ∧
      (bootS 12 id [setF F.SEC_STATUS_ARB 0 4, setF F.SEC_IMG_VERSION 0 5]).dev.fld F.SEC_IMG_VERSION = 5) ∧
    ((bootS 8 (withImage image4) [tabUpd]).dev.isCoord = true ∧ (bootS 8 (withImage image4) [tabUpd]).dev.spareOk spareRep = true ∧
      (bootS 8 (withImage image4) [tabUpd]).dev.spareOk { spareRep with arb := 6 } = false ∧ (bootS 8 id []).dev.vacant.contains 0x300 = true ∧
      (bootS 8 (fun t => { t with tree := fourReports }) []).dev.vacant.contains 0x300 = false ∧
      (((bootS 8 (fun t => { t with tree := [{ modReport 0x200 false with livePorts := [0] }] }) []).dev.besideOf 0x300).find? fun e =>
        ((bootS 8 (fun t => { t with tree := [{ modReport 0x200 false with livePorts := [0] }] }) []).dev.reportOf e.1).any fun r =>
          r.livePorts.any fun x => x.val = e.2) = some (0x200, 0) ∧
      (readyS [tabUpd, deadUpd]).dev.linksBack 0x300 = true ∧ (readyS [tabUpd]).dev.linksBack 0x300 = false ∧ (readyS []).dev.mode ≠ stBoot) := by
  refine ⟨?_, ?_, ?_, ?_, ?_, ?_, ?_, ?_, ?_, ?_, ?_⟩ <;> decide +kernel

/-! ### Security -/

/-- A service region of 1 MiB at 1 MiB, where the buffers of SEC_CMD lie. -/
def secUpds (a : Nat) : List Upd := [.image [svcRegionW] [] 0 [] [], setF F.SEC_ARG_ADDR 0 a]
def secS (a : Nat) (us : List Upd) : State := readyS (secUpds a ++ us)
/-- A module in MAINTENANCE, a nonce of zeros live, and a token of the bytes at 1 MiB. -/
def tokenS (t : List Byte) (us : List Upd) : State :=
  secS 1048576 ([setF F.DEV_STATE_STATE 0 stMaint, .secure fun s => { s with nonceLive := true }, .hbm 1048576 t] ++ us)
/-- The first bytes of a token that opens slot A with generation 2 and a new secret; the rest is zero. -/
def installBytes : List Byte :=
  [0x4B, 0x5A, 0x46, 0x37, 0x49, 0x4E, 0x53, 0x31] ++ List.replicate 40 0 ++ [1, 1, 2, 0]
def ownerBytes : List Byte := [0x4B, 0x5A, 0x46, 0x37, 0x4F, 0x57, 0x4E, 0x31]
def good : TokenVerdict := ⟨true, true, true⟩
/-- The token that a command reads. -/
def tokenOf (s : State) : List Byte := (s.dev.readHbm s.dev.secArg tokenBytes).1
/-- An open installation of slot A: its manifest received, or not. -/
def openUpds (m : List Byte) : List Upd := [setF F.VAULT_CTL_INSTALL 0 1, .secure fun s => { s with installA := some 2 },
  .vault fun v => { v with staged := [(2, m)], nextUnit := [(0, 524288)] }]

theorem witness_SecurityCommandsRun :
    (Calm (secS 1048576 []) ∧ (secS 1048576 []).dev.cached req = none ∧ (secS 1048576 []).dev.bit F.SEC_CMD_STATUS_BUSY = false ∧
      (secS 1048576 [setF F.SEC_CMD_STATUS_BUSY 0 1]).dev.bit F.SEC_CMD_STATUS_BUSY = true ∧ (secS 1048576 []).dev.hbmBad = []) ∧
    ((secS (2097152 - 17056) []).dev.inService ((secS (2097152 - 17056) []).dev.secArg) 17056 = true ∧
      (secS (2097152 - 17056) []).dev.secArg + 17056 ≤ hbmSize ∧ (secS 2097152 []).dev.inService ((secS 2097152 []).dev.secArg) 17056 = false) ∧
    ((secS (549755813888 - 1184) []).dev.secArg + 1184 = hbmSize ∧ hbmSize < (secS (549755813888 - 1176) []).dev.secArg + 1184) ∧
    (Calm (tokenS installBytes []) ∧ (tokenS installBytes []).dev.mode = stMaint ∧ (tokenS installBytes []).dev.bit F.VAULT_CTL_INSTALL = false ∧
      (secS 1048576 []).dev.mode ≠ stMaint ∧ (tokenS installBytes []).dev.inService 1048576 tokenBytes = true ∧
      (tokenS installBytes [setF F.SEC_ARG_ADDR 0 2097152]).dev.inService 2097152 tokenBytes = false) ∧
    ((tokenS installBytes []).dev.tokenFault (tokenOf (tokenS installBytes [])) good (installFormed (tokenOf (tokenS installBytes []))) = none ∧
      (tokenS installBytes []).dev.tokenFault (tokenOf (tokenS installBytes [])) ⟨true, false, true⟩ true = some 2 ∧
      (tokenS ownerBytes []).dev.tokenFault (tokenOf (tokenS ownerBytes [])) good (ownerFormed (tokenOf (tokenS ownerBytes []))) = none ∧
      (tokenS ownerBytes []).dev.tokenFault (tokenOf (tokenS ownerBytes [])) good (installFormed (tokenOf (tokenS ownerBytes []))) = some 0) ∧
    (byteOf (tokenOf (tokenS installBytes [])) 49 ≠ 0 ∧ byteOf (tokenOf (tokenS (installBytes.take 49) [])) 49 = 0 ∧
      (tokenS (installBytes.take 49) []).dev.tokenFault (tokenOf (tokenS (installBytes.take 49) [])) good
        (installFormed (tokenOf (tokenS (installBytes.take 49) []))) = none ∧
      (tokenS installBytes []).dev.bit F.SEC_STATUS_OIS = false ∧ (tokenS installBytes [setF F.SEC_STATUS_OIS 0 1]).dev.bit F.SEC_STATUS_OIS = true) ∧
    ((tokenS [] (openUpds [1])).dev.bit F.VAULT_CTL_INSTALL = true ∧ (tokenS [] (openUpds [1])).dev.secure.installA = some 2 ∧
      (tokenS [] (openUpds [1])).dev.secure.installB = none ∧
      (mapGet (fun _ => []) (tokenS [] (openUpds [1])).dev.vault.staged (streamIx false true)).isEmpty = false ∧
      (mapGet (fun _ => []) (tokenS [] (openUpds [])).dev.vault.staged (streamIx false true)).isEmpty = true) := by decide +kernel

/-! ### Power and the board -/

def powerS (g : PowerSt → PowerSt) (us : List Upd) : State := readyS ([.gcnt 86400000000000, .power g] ++ us)
/-- A reading at 50 °C and 48 V. -/
def quiet : Sensors := ⟨50, 0, 50, 0, 100, 100, 48000, false⟩
def thermUpds : List Upd := [setF F.THERM_CFG_THROTTLE_C 0 95, setF F.THERM_CFG_HBM_THROTTLE_C 0 90, setF F.THERM_CFG_TRIP_C 0 105,
  setF F.THERM_CFG_HBM_TRIP_C 0 100, setF F.PWR_CAP_WATTS 0 1000]
def kettle (first : Option Nat) (steps : Nat) : KettleSt := ⟨1000, first, 1, steps⟩
def testing (k : KettleSt) (w : PowerSt) : PowerSt := { w with test := some k }
/-- The four test descriptors as R626 takes them. -/
def kettleUpds : List Upd := [0, 1, 2, 3].flatMap fun q => [setF F.KETTLE_TEST_HIGH_A q 100, setF F.KETTLE_TEST_LOW_A q 10,
  setF F.KETTLE_TEST_EDGE_NS q 500, setF F.KETTLE_TEST_DWELL_US q 2]
def maintUpd : Upd := setF F.DEV_STATE_STATE 0 stMaint

theorem witness_PowerFollowsItsRules :
    (Calm (powerS id []) ∧ (powerS id []).dev.cached req = none ∧ (powerS id []).dev.mode = stReady ∧ (powerS id [maintUpd]).dev.mode = stMaint ∧
      ([0, 1, 2, 3].any fun k => decide ((powerS id []).dev.fld F.RING_STATUS_STATE k = 1 ∨ (powerS id []).dev.fld F.RING_STATUS_STATE k = 2)) = false ∧
      (powerS id ringUpds).dev.fld F.RING_STATUS_STATE 0 = 2) ∧
    ((powerS id [setF F.PWR_CTL_POINT 0 2]).dev.pointWanted ≠ (powerS id []).dev.fld F.PWR_STATUS_POINT_EFF ∧
      (powerS (fun w => { w with changeAt := some 86399999000000 }) []).dev.power.changeAt = some (86400000000000 - 1000000) ∧
      (powerS id []).dev.pointWanted = (powerS id []).dev.fld F.PWR_STATUS_POINT_EFF ∧ (powerS id ringUpds).dev.liveRing = some 0) ∧
    ((powerS (fun w => { w with readAt := some 86399999900000 }) []).dev.now = 86399999900000 + 100000 ∧ (powerS id []).dev.mode ≠ stOff ∧
      (powerS id thermUpds).dev.fld F.THERM_CFG_THROTTLE_C = 95 ∧ quiet.dieMax + 5 < 95 ∧ quiet.hbmMax + 5 < 90 ∧ quiet.watts10 * 100 < 1000 * 95 ∧
      (powerS id thermUpds).dev.fld F.THERM_CFG_TRIP_C ≤ ({ quiet with dieMax := 105 }).dieMax ∧ ¬ (8000 < quiet.watts1) ∧ quiet.vinMv = 48000) ∧
    ((powerS id []).dev.deepest 4 = 0 ∧ (powerS id [setF F.LTOL_NS 0 2000]).dev.deepest 4 = 1 ∧
      (powerS id [setF F.LTOL_NS 0 15000000]).dev.deepest 4 = 3 ∧ (powerS id [setF F.LTOL_NS 0 14999999]).dev.deepest 4 = 2 ∧
      (powerS id [setF F.PWR_STATUS_STATE 0 4]).dev.fld F.PWR_STATUS_STATE = 4 ∧ (powerS id [setF F.PWR_STATUS_STATE 0 3]).dev.fld F.PWR_STATUS_STATE = 3) ∧
    (bitsOf (4294967295 : BitVec 64) 63 32 = 0 ∧ (powerS id [maintUpd]).dev.bit F.VAULT_CTL_INSTALL = false ∧
      (powerS id [maintUpd, setF F.VAULT_CTL_INSTALL 0 1]).dev.bit F.VAULT_CTL_INSTALL = true ∧
      (powerS id [setF F.SAFE_STATUS_RELINQUISHED 0 1]).dev.bit F.SAFE_STATUS_RELINQUISHED = true ∧
      ((powerS id [maintUpd]).dev.ring 0).sched.isSome = false ∧ (powerS id [maintUpd]).dev.power.test.isSome = false ∧
      (quadsOf 1).any (powerS id kettleUpds).dev.testReserved = false ∧ (quadsOf 15) = [0, 1, 2, 3] ∧
      (quadsOf 1).any (powerS id [setF F.KETTLE_TEST_EDGE_NS 0 9]).dev.testReserved = true) ∧
    ((powerS (testing (kettle none 10)) kettleUpds).dev.firstCycle (kettle none 10) ≤ (powerS (testing (kettle none 10)) kettleUpds).dev.now ∧
      (powerS (testing (kettle none 10)) [setF F.KETTLE_AT_GCNT 0 86400000000001]).dev.now <
        (powerS (testing (kettle none 10)) [setF F.KETTLE_AT_GCNT 0 86400000000001]).dev.firstCycle (kettle none 10) ∧
      (powerS (testing (kettle (some 2000) 10)) kettleUpds).dev.stepsDone (kettle (some 2000) 10) = 10 ∧
      (powerS (testing (kettle none 10)) kettleUpds).dev.power.test = some (kettle none 10)) ∧
    ((powerS (fun w => { w with ranAt := some 0 }) []).dev.now = 0 + 86400000000000 ∧ (powerS (fun w => { w with ranAt := some 1 }) []).dev.now < 1 + 86400000000000 ∧
      (powerS (fun w => { w with samples := [(0, .compute 5)], lived := 604800000000000 }) []).dev.weekHeld 0 = true ∧ (powerS id []).dev.weekHeld 0 = false) := by
  refine ⟨?_, ?_, ?_, ?_, ?_, ?_, ?_⟩ <;> decide +kernel

def boardS (x : BoardSt) (us : List Upd) : State := devWith (.board (fun _ => x) :: us)
/-- RESET_N low, supplies in range; and high. -/
def lowBoard : BoardSt := { BoardSt.init with resetLow := true }
def bootIn (vin : Nat) : BootInput :=
  { vinMv := vin, seedN := false, flashDual := true, sa1 := false, sa0 := true, seOk := true, pufOk := false, slot0 := soloImage
    slot1 := soloImage, bist := [], manifestA := true, manifestB := true }

theorem witness_BoardActs :
    (lowBoard.vsb12 = true ∧ lowBoard.resetLow = true ∧ BoardSt.init.vsb12 = true ∧ BoardSt.init.resetLow = false ∧
      ({ lowBoard with vsb12 := false }).vsb12 = false) ∧
    (Steady (boardS BoardSt.init []) ∧ (boardS BoardSt.init []).dev.board.refclk = true ∧
      (boardS { BoardSt.init with refclk := false } []).dev.board.refclk = false ∧ (boardS BoardSt.init [setF F.DEV_STATE_STATE 0 stOff]).dev.mode = stOff ∧
      (boardS BoardSt.init [setF F.DEV_STATE_STATE 0 stReady]).dev.mode ≠ stOff) ∧
    ((boardS lowBoard []).dev.route.lost = [] ∧ (boardS lowBoard []).dev.start.started = false ∧ Calm (boardS BoardSt.init []) ∧
      (boardS BoardSt.init [.start fun t => { t with started := true }]).dev.start.started = true ∧
      (boardS lowBoard []).dev.fld F.BOARD_STATUS_CAUSE ≤ 1 ∧ (boardS lowBoard []).dev.start.warm = false ∧
      ¬ ((bootIn 40000).vinMv < 40000) ∧ (bootIn 39999).vinMv < 40000 ∧ ¬ (60000 < (bootIn 60000).vinMv) ∧ 60000 < (bootIn 60001).vinMv) ∧
    ((boardS BoardSt.init []).dev.board.i3cAddr.isNone = true ∧ (boardS BoardSt.init []).dev.i3cStatic = 0x50 ∧ (0x51 : BitVec 7) ≠ 0x50 ∧
      (boardS BoardSt.init [setF F.BOARD_STATUS_I3C_SA1 0 1, setF F.BOARD_STATUS_I3C_SA0 0 1]).dev.i3cStatic = 0x53) ∧
    ((56 : Byte).toNat % 8 = 0 ∧ (56 : Byte).toNat < 64 ∧ ¬ ((64 : Byte).toNat < 64) ∧ (57 : Byte).toNat % 8 ≠ 0 ∧
      (boardS BoardSt.init []).dev.telemetry.length = 64) ∧
    ((boardS BoardSt.init [setF F.SEC_CFG_DEBUG_LOCK 0 1]).dev.bit F.SEC_CFG_DEBUG_LOCK = true) := by
  refine ⟨?_, ?_, ?_, ?_, ?_, ?_⟩ <;> decide +kernel

/-! ### Ill-formed commands, one for each check of `wf` -/

/-- A packet with one payload byte fewer than LEN says, one without its extension, and one of 4,097 bytes. -/
def shortPkt : Packet := { smallPkt with payload := [1, 2, 3] }
def noExtPkt : Packet := { smallPkt with flags := smallPkt.flags ||| 8 }
def longPkt : Packet := { smallPkt with payload := List.replicate 4097 0, len := 4097 }
/-- A flit of 243 payload bytes. -/
def shortFlit : Flit := { flit 1 0 [] with payload := List.replicate 243 0 }
def helloOf (r m e : Nat) : KxHello := ⟨List.replicate r 0, List.replicate m 0, List.replicate e 0⟩

/-- R10, R13: a register has 64 bits, and a narrower access is one that is answered. -/
theorem test_wf_registerWrite :
    (Instr.registerWrite req 0 0 0).wf = false ∧ (Instr.registerWrite req 0 9 0).wf = false ∧ (Instr.registerWrite req 0 8 0).wf = true := by decide

/-- R359: a packet's extension, payload and LEN. -/
theorem test_wf_packets :
    shortPkt.wf = false ∧ noExtPkt.wf = false ∧ longPkt.wf = false ∧ smallPkt.wf = true ∧
    (Instr.leafPacketReceive 2 shortPkt).wf = false ∧ (Instr.gradientLeafReceive 2 [smallPkt, shortPkt] []).wf = false ∧
    (Instr.writePacketReceive 2 shortPkt).wf = false ∧ (Instr.readReqReceive 2 noExtPkt).wf = false ∧ (Instr.readRespReceive 2 longPkt).wf = false ∧
    (Instr.cnpReceive 2 shortPkt).wf = false ∧ (Instr.mirrorWriteReceive 2 0 shortPkt).wf = false := by decide +kernel

/-- R203: HBM has 2,147,483,648 blocks. -/
theorem test_wf_hbmBlockRead : (Instr.hbmBlockRead 2147483648 0 []).wf = false ∧ (Instr.hbmBlockRead 2147483647 0 []).wf = true := by decide

/-- R355: a flit has 244 payload bytes. -/
theorem test_wf_flits :
    (Instr.dataFlitReceive 2 shortFlit).wf = false ∧ (Instr.ctrlFlitReceive 2 shortFlit).wf = false ∧ (Instr.nakFlitReceive 2 shortFlit).wf = false ∧
    (Instr.fenceFlitReceive 2 shortFlit).wf = false ∧ (Instr.helloFlitReceive 2 shortFlit).wf = false ∧ (Instr.dataFlitReceive 2 dataFlit).wf = true := by
  decide +kernel

/-- R605: the sizes of the key exchange. -/
theorem test_wf_keyExchange :
    (Instr.kxHello 2 (helloOf 31 1184 97)).wf = false ∧ (Instr.kxHello 2 (helloOf 32 1088 97)).wf = false ∧ (Instr.kxHello 2 (helloOf 32 1184 96)).wf = false ∧
    (Instr.kxReply 2 (helloOf 31 1088 97)).wf = false ∧ (Instr.kxReply 2 (helloOf 32 1184 97)).wf = false ∧ (Instr.kxReply 2 (helloOf 32 1088 96)).wf = false ∧
    (Instr.kxDone 2 (List.replicate 47 0)).wf = false ∧ (Instr.kxHello 2 (helloOf 32 1184 97)).wf = true ∧ (Instr.kxReply 2 (helloOf 32 1088 97)).wf = true := by
  decide +kernel

/-- R556: the payload sizes of the requests. -/
theorem test_wf_requests :
    (Instr.memRd req 0 0).wf = false ∧ (Instr.memRd req 0 1025).wf = false ∧ (Instr.memWr req 0 []).wf = false ∧
    (Instr.memWr req 0 (List.replicate 1025 0)).wf = false ∧ (Instr.install req 0 (List.replicate 1023 0)).wf = false ∧
    (Instr.enumerate 0 0).wf = false ∧ (Instr.enumerate 25 0).wf = false ∧ (Instr.enumerate 24 0).wf = true ∧
    (Instr.relay req 0 (.regWr 0 9 0)).wf = false ∧ (Instr.relay req 0 (.memRd 0 1025)).wf = false ∧
    (Instr.relayedRequestReceive 0 0 (.memWr 0 [])).wf = false ∧ (Instr.relayedRequestReceive 0 0 (.install 0 [])).wf = false ∧
    (Instr.relayedRequestReceive 0 0 (.regRd 0)).wf = true := by decide +kernel

/-- R569: the fields of HOST_DMA. -/
theorem test_wf_hostDma :
    (Instr.hostDma req false 1 1 true (2 ^ 64) 0 1).wf = false ∧ (Instr.hostDma req false 1 1 true 0 (2 ^ 64) 1).wf = false ∧
    (Instr.hostDma req false 1 1 true 0 0 (2 ^ 32)).wf = false ∧ (Instr.hostDma req false 1 1 true 0 0 1).wf = true := by decide +kernel

/-! ### Single commands -/

/-- No word spells a command. -/
theorem test_no_word (n w : Nat) (s : State) : decodeTableWord n w = none ∧ s.withFetchWord n w = s := ⟨rfl, rfl⟩

/-- R562: MEM_WR writes its bytes at the address, and the bytes beside them stay. -/
theorem test_memory_write :
    let d := after (.memWr req 4096 [1, 2, 3]) (readyS [])
    memRead d.hbm 4095 5 = [0, 1, 2, 3, 0] := by decide +kernel

/-- R557, R562: MEM_RD beyond 512 GiB is answered ADDRESS_ERROR, STATUS 0x01 with REASON 0x07. -/
theorem test_memory_read_outside :
    ((after (.memRd req 549755813887 2) (readyS [])).outbox.any fun m => match m with
      | .resp _ status reason _ => status = 1 && reason = 7
      | _ => false) = true := by decide +kernel

/-- R221, R573: an INSTALL with no installation open is refused and recorded. -/
theorem test_install_closed :
    (after (.install req 0 (List.replicate 1024 0)) (readyS [])).fld F.VAULT_ERR_WRITE_REFUSED = 1 := by decide +kernel

/-- R628: ENTER moves a READY module with nothing bound to MAINTENANCE; a bound one stays. -/
theorem test_enter_maintenance :
    (after (.enter req) (readyS [])).mode = stMaint ∧ (after (.enter req) (readyS ringUpds)).mode = stReady := by decide +kernel

/-- R561: ENUMERATE gives the address, and the last module answers. -/
theorem test_enumerate :
    let d := after (.enumerate 3 9) (readyS [])
    d.fld F.CHAIN_ADDR_ADDR = 3 ∧ d.fld F.CHAIN_ADDR_LENGTH = 3 := by decide +kernel

/-- R521: a CNP halves the rate of a queue pair. -/
theorem test_cnp_halves :
    ((after (.roceCnpReceive 0) (qpS { servQp with rate := fullRate } [setF F.ETH_CC_RMIN 0 1])).qp 0).rate = fullRate / 2 := by decide +kernel

/-- R653: with RESET_N high, EXTEST acts as BYPASS. -/
theorem test_extest_bypass : (after (.jtagInstruction .extest) (boardS BoardSt.init [])).tapEffect = .bypass := by decide +kernel

/-- R651: the telemetry offset that a write sets. -/
theorem test_i3c_offset : (after (.i3cPrivateWrite [56]) (boardS BoardSt.init [])).board.i3cOff = 56 := by decide +kernel

/-- R570: FREEZE closes admission of the slice, and a thaw reopens it. -/
theorem test_freeze :
    ((after (.freeze req none 1 false) (readyS [])).slice 0).frozen = true ∧
    ((after (.freeze req none 1 true) (readyS [.slice 0 fun s => { s with frozen := true }])).slice 0).frozen = false := by decide +kernel

end Sys2Proof.Tests
end

