-- ==== Sys2Proof/Proofs/Addresses.lean ====
section
/-! PROOFS. How addresses are laid out: the register windows of the cores (R12), and the blocks and channels of HBM (R202). -/

namespace Sys2Proof.Machine

/-! ### The register windows of the cores (R12) -/

/-- The address of offset `o` in the register window of core (q, c, k) (R12). -/
def windowAddr (q c k o : Nat) : Nat := 0x10000000 + q * 0x04000000 + c * 0x00080000 + k * 0x2000 + o

/-- The windows of a cluster's 64 cores fill its stride of 512 KiB, and those of 100 clusters fit in a quadrant's stride of 64 MiB: so the
quotients by the strides give q, c and k back. -/
theorem coreWindow_windowAddr {q c k o : Nat} (hq : q < 4) (hc : c < 100) (hk : k < 64) (ho : o < 0x2000) :
    coreWindow (windowAddr q c k o) = some (q * 6400 + c * 64 + k, o) := by
  have quadrant : (windowAddr q c k o - 0x10000000) / 0x4000000 = q := by unfold windowAddr; omega
  have cluster : (windowAddr q c k o - 0x10000000) % 0x4000000 / 0x80000 = c := by unfold windowAddr; omega
  have inCluster : (windowAddr q c k o - 0x10000000) % 0x80000 = k * 0x2000 + o := by unfold windowAddr; omega
  have core : (k * 0x2000 + o) / 0x2000 = k := by omega
  have offset : (windowAddr q c k o - 0x10000000) % 0x2000 = o := by
    rw [← Nat.mod_mod_of_dvd _ (by decide : 0x2000 ∣ 0x80000), inCluster]
    omega
  have above : ¬ windowAddr q c k o < 0x10000000 := by unfold windowAddr; omega
  simp [coreWindow, quadrant, cluster, inCluster, core, offset, above, hq, hc]

/-- An address names a core exactly when it lies in that core's window. -/
theorem coreWindow_eq_some_iff {a n o : Nat} :
    coreWindow a = some (n, o) ↔
      ∃ q c k, q < 4 ∧ c < 100 ∧ k < 64 ∧ o < 0x2000 ∧ n = q * 6400 + c * 64 + k ∧ a = windowAddr q c k o := by
  constructor
  · intro h
    simp only [coreWindow, Bool.or_eq_true, decide_eq_true_eq, Option.ite_none_left_eq_some, Option.some.injEq, Prod.mk.injEq] at h
    obtain ⟨inside, rfl, rfl⟩ := h
    refine ⟨(a - 0x10000000) / 0x4000000, (a - 0x10000000) % 0x4000000 / 0x80000, (a - 0x10000000) % 0x80000 / 0x2000,
      by omega, by omega, by omega, by omega, rfl, ?_⟩
    unfold windowAddr
    omega
  · rintro ⟨q, c, k, hq, hc, hk, ho, rfl, rfl⟩
    exact coreWindow_windowAddr hq hc hk ho

/-! ### The blocks and channels of HBM (R202) -/

theorem channelOf_eq_blockOf_mod (a : Nat) : channelOf a = blockOf a % 256 := rfl

@[simp] theorem blockOf_mul (b : Nat) : blockOf (b * 256) = b := Nat.mul_div_cancel b (by decide)

@[simp] theorem blockOf_add_block (a : Nat) : blockOf (a + 256) = blockOf a + 1 := Nat.add_div_right a (by decide)

theorem channelOf_add_block (a : Nat) : channelOf (a + 256) = (channelOf a + 1) % 256 := by
  simp only [channelOf_eq_blockOf_mod, blockOf_add_block, Nat.mod_add_mod]

/-- A block lies in the aligned 64 KiB run of its number's quotient by 256. -/
theorem block_in_run_iff {run b : Nat} :
    (run * 65536 ≤ b * 256 ∧ b * 256 + 256 ≤ run * 65536 + 65536) ↔ b / 256 = run := by
  omega

/-- Of the blocks of an aligned 64 KiB run, a channel holds the one whose number has the run as quotient and the channel as remainder. -/
theorem block_of_run_and_channel_iff {run ch b : Nat} (hch : ch < 256) :
    (b / 256 = run ∧ channelOf (b * 256) = ch) ↔ b = run * 256 + ch := by
  rw [channelOf_eq_blockOf_mod, blockOf_mul]
  omega

/-- Settles O30: the quotients by the strides of the windows give the core back, and the block of a run on a channel is given by its quotient
and remainder. -/
theorem addressesAreLaidOut : Obligations.AddressesAreLaidOut := by
  refine ⟨⟨fun q c k o => coreWindow_windowAddr, fun a n o => coreWindow_eq_some_iff.mp⟩,
    by decide, fun a => ⟨rfl, channelOf_eq_blockOf_mod a⟩, channelOf_add_block, fun run ch _ hch => ?_⟩
  obtain ⟨inRun, onChannel⟩ := (block_of_run_and_channel_iff hch).mpr (rfl : run * 256 + ch = run * 256 + ch)
  obtain ⟨first, last⟩ := block_in_run_iff.mpr inRun
  exact ⟨run * 256 + ch, ⟨first, last, onChannel⟩, fun c hfirst hlast hc =>
    (block_of_run_and_channel_iff hch).mp ⟨block_in_run_iff.mp ⟨hfirst, hlast⟩, hc⟩⟩

end Sys2Proof.Machine
end

