-- ==== Sys2Proof/Proofs/Runs.lean ====
section
/-! PROOFS. The runs of a direction's days on a ring (R30): the runs of the first `d % n` positions are one day longer than the others. -/

namespace Sys2Proof.Machine

/-! ### The lengths and first days of the runs (R30) -/

theorem runLen_of_pos {n : Nat} (hn : 0 < n) (d i : Nat) : runLen d n i = d / n + if i < d % n then 1 else 0 := by
  rw [runLen, Nat.max_eq_right hn]

@[simp] theorem runStart_zero (d n : Nat) : runStart d n 0 = 0 := by simp [runStart]

/-- Runs are contiguous: the run after run `i` begins where run `i` ends. -/
theorem runStart_succ (d n i : Nat) : runStart d n (i + 1) = runStart d n i + runLen d n i := by
  simp only [runStart, runLen, Nat.succ_mul]
  split <;> omega

theorem runStart_mono (d n : Nat) : Monotone (runStart d n) :=
  monotone_nat_of_le_succ fun i => runStart_succ d n i ▸ Nat.le_add_right _ _

/-- The runs of a ring of `n` hold all `d` days: the first day after them is `d`. -/
theorem runStart_self {n : Nat} (hn : 0 < n) (d : Nat) : runStart d n n = d := by
  rw [runStart, Nat.max_eq_right hn, Nat.min_eq_right (Nat.mod_lt d hn).le, Nat.div_add_mod]

/-- The longer runs come first, so all runs before one of them are longer too. -/
theorem runStart_of_le {d n i : Nat} (hi : i ≤ d % max 1 n) : runStart d n i = i * (d / max 1 n + 1) := by
  rw [runStart, Nat.min_eq_left hi, Nat.mul_succ]

/-- The days of the longer runs: the first day of the first shorter run. -/
def longRunDays (d n : Nat) : Nat := runStart d n (d % max 1 n)

theorem longRunDays_eq (d n : Nat) : longRunDays d n = d % max 1 n * (d / max 1 n + 1) := runStart_of_le le_rfl

/-- Past the longer runs, each run adds the quotient. -/
theorem runStart_mod_add (d n j : Nat) : runStart d n (d % max 1 n + j) = longRunDays d n + j * (d / max 1 n) := by
  rw [longRunDays, runStart, runStart, Nat.min_self, Nat.min_eq_right (Nat.le_add_right _ _), Nat.add_mul]
  omega

/-! ### The run of a day (R30) -/

theorem runOf_of_lt {d n day : Nat} (h : day < longRunDays d n) : runOf d n day = day / (d / max 1 n + 1) :=
  if_pos (longRunDays_eq d n ▸ h)

theorem runOf_of_le {d n day : Nat} (h : longRunDays d n ≤ day) :
    runOf d n day = d % max 1 n + (day - longRunDays d n) / max 1 (d / max 1 n) := by
  rw [longRunDays_eq] at h ⊢
  exact if_neg h.not_gt

/-- A day below `d` that no longer run holds leaves days for the shorter runs, so the quotient is positive. -/
theorem div_pos_of_longRunDays_le {d n day : Nat} (h : longRunDays d n ≤ day) (hday : day < d) : 0 < d / max 1 n := by
  refine Nat.pos_of_ne_zero fun quotient => ?_
  have remainder : d % max 1 n = d := by simpa [quotient] using Nat.mod_add_div d (max 1 n)
  rw [longRunDays_eq, quotient, remainder] at h
  omega

/-- The run of a day holds it: the day lies at or after the run's first day and before the next run's. -/
theorem runOf_holds_day {d n day : Nat} (hday : day < d) :
    runStart d n (runOf d n day) ≤ day ∧ day < runStart d n (runOf d n day + 1) := by
  rcases lt_or_ge day (longRunDays d n) with longer | shorter
  · have inLonger : day / (d / max 1 n + 1) < d % max 1 n :=
      Nat.div_lt_of_lt_mul (by rwa [longRunDays_eq, Nat.mul_comm] at longer)
    rw [runOf_of_lt longer, runStart_of_le inLonger.le, runStart_of_le inLonger]
    exact ⟨Nat.div_mul_le_self _ _, Nat.lt_mul_of_div_lt (Nat.lt_add_one _) (Nat.succ_pos _)⟩
  · have hq := div_pos_of_longRunDays_le shorter hday
    rw [runOf_of_le shorter, Nat.add_assoc, runStart_mod_add, runStart_mod_add, Nat.max_eq_right hq]
    have first := Nat.div_mul_le_self (day - longRunDays d n) (d / max 1 n)
    have next := Nat.lt_mul_of_div_lt (Nat.lt_add_one ((day - longRunDays d n) / (d / max 1 n))) hq
    omega

/-- A day below `d` has its run on the ring: the runs from `n` on begin at `d` or later. -/
theorem runOf_lt {d n day : Nat} (hn : 0 < n) (hday : day < d) : runOf d n day < n := by
  by_contra! past
  have last := runStart_mono d n past
  rw [runStart_self hn] at last
  exact absurd ((last.trans (runOf_holds_day hday).1).trans_lt hday) (lt_irrefl d)

/-- Settles O33: the runs are contiguous by the step of `runStart`, they end at `D`, and the run of a day begins at or before it and ends
after it. -/
theorem runsOfDays : Obligations.RunsOfDays := by
  intro D N hN
  refine ⟨fun i _ => runLen_of_pos hN D i, runStart_zero D N, fun i _ => runStart_succ D N i, runStart_self hN D, fun day hday => ?_⟩
  obtain ⟨first, beforeNext⟩ := runOf_holds_day (n := N) hday
  exact ⟨runOf_lt hN hday, first, runStart_succ D N _ ▸ beforeNext⟩

end Sys2Proof.Machine
end

