-- ==== Sys2Proof/Proofs/ModeLaws.lean ====
section
/-! PROOFS. What sending an event and a change of the machine state leave: the registers beside the event's own, and the new state. -/

namespace Sys2Proof.Machine

/-! ### Events -/

theorem sendEvents_regs (n : Nat) (d : Dev) : (d.sendEvents n).regs = d.regs := by
  induction n generalizing d with
  | zero => rfl
  | succ n ih =>
    unfold Dev.sendEvents
    split
    · rfl
    · split
      · rfl
      · exact ih _

/-- Registers are read from the register file alone. -/
theorem reg_of_regs {d d' : Dev} (h : d'.regs = d.regs) (r : Reg) (i : Nat) : d'.reg r i = d.reg r i := by
  simp only [Dev.reg, h]

theorem fld_of_regs {d d' : Dev} (h : d'.regs = d.regs) (f : Fld) (i : Nat) : d'.fld f i = d.fld f i := by
  simp only [Dev.fld, reg_of_regs h]

theorem reg_sendEvents (n : Nat) (d : Dev) (r : Reg) (i : Nat) : (d.sendEvents n).reg r i = d.reg r i :=
  reg_of_regs (sendEvents_regs n d) r i

theorem reg_chain (d : Dev) (c : ChainSt) (r : Reg) (i : Nat) : ({ d with chain := c } : Dev).reg r i = d.reg r i := rfl

/-- An event writes EVT_STATUS and CHAIN_ERR and no other register. -/
theorem reg_raise {r : Reg} (d : Dev) (k : Nat) (b : List Byte) (i : Nat) (evt : r ≠ .EVT_STATUS) (err : r ≠ .CHAIN_ERR) :
    (d.raise k b).reg r i = d.reg r i := by
  unfold Dev.raise
  split
  · rw [reg_setFld_other _ _ _ _ (.inl err), reg_setFld_other _ _ _ _ (.inl err), reg_setFld_other _ _ _ _ (.inl evt)]
  · rw [reg_sendEvents, reg_chain, reg_setFld_other _ _ _ _ (.inl evt), reg_setFld_other _ _ _ _ (.inl evt)]

theorem fld_raise {f : Fld} (d : Dev) (k : Nat) (b : List Byte) (i : Nat) (evt : f.reg ≠ .EVT_STATUS) (err : f.reg ≠ .CHAIN_ERR) :
    (d.raise k b).fld f i = d.fld f i := by
  simp only [Dev.fld, reg_raise d k b i evt err]

/-! ### Registers that an update does not write -/

@[simp] theorem mayWrite_board (g : BoardSt → BoardSt) (r : Reg) : (Upd.board g).mayWrite r = false := rfl
@[simp] theorem mayWrite_hbmZero (r : Reg) : Upd.hbmZero.mayWrite r = false := rfl

/-! ### Changes of the machine state -/

/-- A change of the machine state leaves the module in that state. -/
theorem mode_enterState {st : Nat} (d : Dev) (h : st < 16) : (runAct (enterState st) d).mode = st := by
  unfold runAct enterState
  split
  · assumption
  · simp only [noteQuiet, List.cons_append, List.nil_append, applyAll_cons, applyAll_nil, apply_power, apply_event, setF, apply_fld]
    refine (fld_raise (f := F.DEV_STATE_STATE) _ _ _ 0 (by decide) (by decide)).trans ?_
    rw [fld_setFld_other _ _ _ _ (.inr (.inr (by decide))), fld_setFld_same]
    exact Nat.mod_eq_of_lt h

end Sys2Proof.Machine
end

