-- ==== Sys2Proof/Proofs/Steps.lean ====
section
/-! PROOFS. What holds of every step: the command at the front runs, every command answers, a stopped module keeps its state, and what every
step keeps (R18, R305, R458, R645–R648). -/

namespace Sys2Proof.Machine

/-! ### The acts that commands run -/

/-- Every command but those of the board runs a powered act. -/
theorem exec_onPower (i : Instr) (s : State) (h : boardCommand i = false) : ∃ a, exec i s = perform (onPower a) s := by
  cases i with
  | powerOn | resetNAssert | vsb12Loss | vinLoss | jtagTapReset => cases h
  | resetRelease _ | i3cPrivateWrite _ | i3cPrivateRead _ | jtagInstruction _ | i3cAddressAssign _ _ _ => cases h
  | _ => exact ⟨_, rfl⟩

/-- A step runs one act on the module. -/
theorem step_perform (s : State) : ∃ (a : Act) (p : List Instr), step s = .next ⟨p, runAct a s.dev⟩ := by
  unfold step
  split
  · exact ⟨tickAct, _, rfl⟩
  · obtain ⟨a, ha⟩ := exec_perform _ { s with pending := _ }
    exact ⟨a, _, ha⟩

/-! ### Commands and stops -/

/-- Settles O17: `step` takes the front command, and `tickAct` is the only act of an empty queue. -/
theorem stepRunsTheFrontCommand : Obligations.StepRunsTheFrontCommand := by
  refine ⟨fun s c rest h => by simp only [step, h], fun s h => ⟨s.withDev (runAct tickAct s.dev), ?_, h, ?_⟩⟩
  · simp only [step, h, idle, perform_eq]
  · rw [withDev_dev]
    unfold runAct tickAct
    split <;> rfl

/-- Settles O18: every command is one act, which leaves the queue alone. -/
theorem everyCommandAnswers : Obligations.EveryCommandAnswers := by
  intro i s
  obtain ⟨a, ha⟩ := exec_perform i s
  exact ⟨_, ha.trans (perform_eq a s), rfl⟩

/-- Settles O19: the powered act of a command does nothing where the module does not run. -/
theorem stoppedModuleKeepsItsState : Obligations.StoppedModuleKeepsItsState := by
  intro i s board stopped
  obtain ⟨a, ha⟩ := exec_onPower i s board
  rw [ha, perform_eq, runAct_onPower_off stopped]
  rfl

/-! ### What every step keeps -/

/-- Settles O21: a step is a list of updates, each of which keeps canonical families. -/
theorem stepKeepsCanonical : Obligations.StepKeepsCanonical := by
  intro s t canonical h
  obtain ⟨a, p, ha⟩ := step_perform s
  obtain rfl := Host.Outcome.next.inj (ha.symm.trans h)
  exact canonical_applyAll _ canonical

/-- Settles O23: a step is a list of updates, each of which only adds to what was sent. -/
theorem stepKeepsWhatWasSent : Obligations.StepKeepsWhatWasSent := by
  intro s t h
  obtain ⟨a, p, ha⟩ := step_perform s
  obtain rfl := Host.Outcome.next.inj (ha.symm.trans h)
  exact sent_applyAll _ _

/-! ### Settled modules (R305, R458) -/

/-- Once the discarded packets are noted, none waits. -/
theorem lost_fenceLost (d : Dev) : (runAct fenceLost d).route.lost = [] := by
  by_cases h : d.route.lost = []
  · rw [runAct_fenceLost h, h]
  · have hn : d.route.lost.isEmpty = false := by simpa using h
    simp only [runAct, fenceLost, hn, Bool.false_eq_true, if_false]
    change (runAct (inSequence _) d).route.lost = []
    rw [runAct_inSequence_cons, runAct_inSequence_cons, runAct_inSequence_nil]
    rfl

/-- After READY and RUNNING are settled, a module that is RUNNING has something that runs. -/
theorem not_running_idle_settleReady (d : Dev) :
    ¬ ((runAct settleReady d).mode = stRunning ∧ (runAct settleReady d).allIdle = true) := by
  by_cases h : d.mode = stRunning ∧ d.allIdle = true
  · have hs : runAct settleReady d = runAct (enterState stReady) d := by simp [runAct, settleReady, h]
    rw [hs, mode_enterState d (by decide)]
    exact fun both => absurd both.1 (by decide)
  · have hs : runAct settleReady d = d := by simp [runAct, settleReady, h]
    rwa [hs]

/-- A whole command leaves the module settled. -/
theorem settled_settled (a : Act) (d : Dev) : (runAct (settled a) d).Settled := by
  simp only [settled, runAct_inSequence_cons, runAct_inSequence_nil]
  exact ⟨(congrArg RouteSt.lost (quiet_settleReady _).route).trans (lost_fenceLost _), not_running_idle_settleReady _⟩

/-- What keeps registers, cores and router keeps the module settled. -/
theorem Dev.Settled.of_same {d d' : Dev} (h : d.Settled) (regs : d'.regs = d.regs) (cores : d'.cores = d.cores)
    (route : d'.route = d.route) : d'.Settled := by
  have idle : d'.allIdle = d.allIdle := by simp only [Dev.allIdle, fld_of_regs regs, cores]
  simp only [Dev.Settled, route, Dev.mode, fld_of_regs regs, idle]
  exact h

/-- An act of updates that touch neither registers, cores nor router keeps the module settled. -/
theorem Dev.Settled.apply_of_leaves {d : Dev} (h : d.Settled) {us : List Upd} (regs : leaves .regs us) (cores : leaves .cores us)
    (route : leaves .route us) : (applyAll us d).Settled :=
  h.of_same (keepAll_regs d regs) (keepAll_cores d cores) (keepAll_route d route)

/-- A module in OFF with nothing discarded is settled. -/
theorem settled_of_off {d : Dev} (lost : d.route.lost = []) (off : d.mode = stOff) : d.Settled :=
  ⟨lost, fun both => absurd (off.symm.trans both.1) (by decide)⟩

theorem setFld_foldl_besideRegs (fs : List Fld) (g : Fld → Nat) (b : Dev) :
    ∃ m, fs.foldl (fun b f => b.setFld f 0 fun _ => g f) b = { b with regs := m } := by
  induction fs generalizing b with
  | nil => exact ⟨b.regs, rfl⟩
  | cons f fs ih =>
    obtain ⟨m, hm⟩ := ih (b.setFld f 0 fun _ => g f)
    exact ⟨m, hm⟩

/-- A reset leaves everything but the registers as its base does. -/
theorem restart_eq (d : Dev) (warm : Bool) : ∃ m, d.restart warm = { d.restartBase warm with regs := m } := by
  unfold Dev.restart
  exact setFld_foldl_besideRegs _ (fun f => d.fld f) (d.restartBase warm)

/-- A reset discards what the router noted. -/
theorem lost_restart (d : Dev) (warm : Bool) : (d.restart warm).route.lost = [] := by
  obtain ⟨m, hm⟩ := restart_eq d warm
  simp only [hm, Dev.restartBase]
  rfl

/-- A domain held in reset is settled: it is OFF, and its router has noted nothing. -/
theorem settled_heldInReset (d : Dev) (us : List Upd) (route : leaves .route us) (mode : spares .DEV_STATE us) :
    (applyAll (heldInReset ++ us) d).Settled := by
  refine settled_of_off ?_ ?_
  · rw [applyAll_append, keepAll_route _ route]
    exact lost_restart d false
  · rw [applyAll_append, Dev.mode, fld_applyAll _ mode]
    simp only [heldInReset, applyAll_cons, applyAll_nil, setF, apply_fld, fld_setFld_same, stOff, Nat.zero_mod]

/-- Every command keeps the module settled. -/
theorem exec_keeps_settled {i : Instr} {s t : State} (h : s.dev.Settled) (he : exec i s = .next t) : t.dev.Settled := by
  by_cases board : boardCommand i = true
  · have run : ∀ a : Act, exec i s = perform a s → (runAct a s.dev).Settled → t.dev.Settled := by
      intro a ha settled
      obtain rfl := Host.Outcome.next.inj (ha.symm.trans he)
      exact settled
    cases i with
    | resetRelease b => exact run _ rfl (settled_settled _ _)
    | powerOn =>
      refine run _ rfl ?_
      unfold runAct powerOnAct
      split
      · exact h
      · exact settled_heldInReset _ _ (by simp) (by simp)
    | resetNAssert =>
      refine run _ rfl ?_
      unfold runAct resetNAssertAct
      split
      · exact h
      · exact settled_heldInReset _ _ (by simp) (by simp)
    | vsb12Loss =>
      refine run _ rfl ?_
      unfold runAct vsb12LossAct
      split
      · exact h
      · exact settled_heldInReset _ _ (by simp) (by simp)
    | vinLoss =>
      refine run _ rfl ?_
      unfold runAct vinLossAct
      split
      · exact h
      · exact h.apply_of_leaves (by simp) (by simp) (by simp)
    | i3cAddressAssign dyn viaStatic static =>
      refine run _ rfl ?_
      unfold runAct i3cAddressAssignAct
      split
      · exact h
      · exact h.apply_of_leaves (by simp) (by simp) (by simp)
    | i3cPrivateWrite data =>
      refine run _ rfl ?_
      unfold runAct i3cPrivateWriteAct
      split
      · split
        · exact h.apply_of_leaves (by simp) (by simp) (by simp)
        · exact h
      · exact h
    | i3cPrivateRead len =>
      refine run _ rfl ?_
      unfold runAct i3cPrivateReadAct
      split
      · exact h
      · exact h.apply_of_leaves (by simp) (by simp) (by simp)
    | jtagInstruction j =>
      refine run _ rfl ?_
      unfold runAct jtagInstructionAct
      split
      · exact h.apply_of_leaves (by simp) (by simp) (by simp)
      · exact h
    | jtagTapReset =>
      refine run _ rfl ?_
      unfold runAct jtagTapResetAct
      split
      · exact h.apply_of_leaves (by simp) (by simp) (by simp)
      · exact h
    | _ => cases board
  · obtain ⟨a, ha⟩ := exec_onPower i s (by simpa using board)
    obtain rfl := Host.Outcome.next.inj (ha.symm.trans he)
    by_cases running : s.dev.running = true
    · rw [withDev_dev, runAct_onPower running]
      exact settled_settled a _
    · rw [withDev_dev, runAct_onPower_off (by simpa using running)]
      exact h

/-- Settles O22: a powered command ends with the fences of what it discarded and the end of RUNNING, and those of the board and a tick touch
neither, or leave the domain held in reset. -/
theorem stepKeepsSettled : Obligations.StepKeepsSettled := by
  intro s t h he
  unfold step at he
  split at he
  · obtain rfl := Host.Outcome.next.inj he
    change (runAct tickAct s.dev).Settled
    unfold runAct tickAct
    split
    · exact h.apply_of_leaves (by simp) (by simp) (by simp)
    · exact h
  · rename_i c rest _
    exact exec_keeps_settled (s := { s with pending := rest }) h he

/-! ### Reset -/

theorem Reg.all_ctorIdx : Reg.all.map Reg.ctorIdx = List.range Reg.all.length := by decide +kernel

theorem Reg.ctorIdx_lt (r : Reg) : r.ctorIdx < Reg.all.length := by cases r <;> decide +kernel

/-- The list of registers has each at its number. -/
theorem Reg.all_getElem (r : Reg) : Reg.all[r.ctorIdx]? = some r := by
  have number : (Reg.all.map Reg.ctorIdx)[r.ctorIdx]? = some r.ctorIdx := by
    rw [Reg.all_ctorIdx, List.getElem?_range r.ctorIdx_lt]
  obtain ⟨r', here, same⟩ := Option.map_eq_some_iff.1 (List.getElem?_map.symm.trans number)
  rw [here, Reg.eq_of_ctorIdx same]

theorem regKey_div (r : Reg) (i : Nat) : regKey r i / regCopies = r.ctorIdx := by
  have pos : 0 < regCopies := by decide
  unfold regKey
  generalize regCopies = n at pos
  rw [Nat.mul_comm, Nat.mul_add_div pos, Nat.div_eq_of_lt (Nat.mod_lt _ pos), Nat.add_zero]

theorem regDefault_eq (k : Nat) : regDefault k = (Reg.all[k / regCopies]?).elim 0 Reg.resetWord := by
  unfold regDefault
  cases Reg.all[k / regCopies]? <;> rfl

/-- An unlisted copy of a register reads as its reset word. -/
theorem regDefault_regKey (r : Reg) (i : Nat) : regDefault (regKey r i) = r.resetWord := calc
  regDefault (regKey r i) = (Reg.all[regKey r i / regCopies]?).elim 0 Reg.resetWord := regDefault_eq _
  _ = (Reg.all[r.ctorIdx]?).elim 0 Reg.resetWord := congrArg (fun k => (Reg.all[k]?).elim 0 Reg.resetWord) (regKey_div r i)
  _ = r.resetWord := congrArg (fun o => o.elim 0 Reg.resetWord) (Reg.all_getElem r)

theorem mapGet_nil {α : Type} (d : Nat → α) (k : Nat) : mapGet d [] k = d k := rfl

theorem reg_of_nothing_listed {d : Dev} (h : d.regs = []) (r : Reg) (i : Nat) : d.reg r i = r.resetWord := by
  rw [Dev.reg, h, mapGet_nil, regDefault_regKey]

theorem fld_of_nothing_listed {d : Dev} (h : d.regs = []) (f : Fld) (i : Nat) :
    d.fld f i = (f.reg.resetWord >>> f.lo) % 2 ^ (f.hi - f.lo + 1) := by
  rw [Dev.fld, reg_of_nothing_listed h]

/-- Settles O20: nothing is listed at reset, so every register and family reads as unlisted. -/
theorem resetLeavesResetValues : Obligations.ResetLeavesResetValues := by
  have fld (f : Fld) (i : Nat) := fld_of_nothing_listed (d := State.reset.dev) rfl f i
  have boot : State.reset.dev.mode = stBoot := (fld _ _).trans (by decide)
  refine ⟨⟨?_, ⟨rfl, fun both => absurd (boot.symm.trans both.1) (by decide)⟩, rfl⟩, boot, (fld _ _).trans (by decide),
    (fld _ _).trans (by decide), rfl, fun k _ => (fld _ _).trans (by decide), fun r i _ => reg_of_nothing_listed rfl r i,
    fun _ => rfl, fun _ => rfl, rfl⟩
  exact { regs := rfl, hbm := rfl, spm := rfl, chans := rfl, cores := rfl, clusters := rfl, rings := rfl, slices := rfl, ports := rfl,
          snapPend := rfl, snapPub := rfl, frozen := fun _ _ h => nomatch h }

end Sys2Proof.Machine
end

