-- ==== Sys2Proof/Proofs/Frames.lean ====
section
/-! PROOFS. Frames of lists of updates: the parts and registers that a list may change, and what a command that changes only those leaves. -/

namespace Sys2Proof.Machine

/-! ### The registers that sending a packet writes -/

/-- The registers that the router writes: its counters and errors, and HOLD_ACTIVE (R370, R411, R416, R421). -/
def routerRegs : List Reg := [.LINK_FLITS, .ROUTE_CONG, .TRANSIT_PORT, .ROUTE_DROP, .ROUTE_ERR, .ROUTE_EPOCH]

/-- The module after some work of its router: the chain and every register that is not the router's are as before. -/
structure Routed (d d' : Dev) : Prop where
  reg : ∀ r i, r ∉ routerRegs → d'.reg r i = d.reg r i
  chain : d'.chain = d.chain

theorem Routed.of_regs {d d' : Dev} (regs : d'.regs = d.regs) (chain : d'.chain = d.chain) : Routed d d' :=
  ⟨fun r i _ => reg_of_regs regs r i, chain⟩

theorem Routed.refl (d : Dev) : Routed d d := .of_regs rfl rfl

theorem Routed.trans {d d' d'' : Dev} (h : Routed d d') (h' : Routed d' d'') : Routed d d'' :=
  ⟨fun r i hr => (h'.reg r i hr).trans (h.reg r i hr), h'.chain.trans h.chain⟩

theorem routed_setFld (d : Dev) {f : Fld} (i : Nat) (g : Nat → Nat) (h : f.reg ∈ routerRegs) : Routed d (d.setFld f i g) :=
  ⟨fun _ _ hr => reg_setFld_other d f i g (.inl fun e => hr (e ▸ h)), rfl⟩

theorem routed_countIf (d : Dev) (b : Bool) {f : Fld} (i : Nat) (h : f.reg ∈ routerRegs) : Routed d (d.countIf b f i) := by
  unfold Dev.countIf
  split
  · exact routed_setFld d i _ h
  · exact .refl d

theorem routed_freeBuffer (d : Dev) (q : Queued) : Routed d (d.freeBuffer q) := by
  unfold Dev.freeBuffer
  split
  · exact .of_regs rfl rfl
  · exact .refl d

theorem routed_startPacket (d : Dev) (o : Nat) (e : Nat × Queued) : Routed d (d.startPacket o e) := by
  unfold Dev.startPacket
  have start (p : Packet) : Routed d (d.onPort o fun s => s.started d.now e.1 p) := .of_regs rfl rfl
  exact (((((start _).trans (routed_freeBuffer _ _)).trans (routed_setFld _ _ _ (by decide))).trans (routed_countIf _ _ _ (by decide))).trans
    (routed_countIf _ _ _ (by decide))).trans (.of_regs rfl rfl)

theorem routed_pumpPort (o n : Nat) (d : Dev) : Routed d (d.pumpPort o n) := by
  induction n generalizing d with
  | zero => exact .refl d
  | succ n ih =>
    unfold Dev.pumpPort
    split
    · exact (routed_startPacket d o _).trans (ih _)
    · exact .refl d

theorem routed_pumpPorts (d : Dev) : Routed d d.pumpPorts := by
  have ports : ∀ (l : List Nat) (d : Dev), Routed d (l.foldl (fun d o => d.pumpPort o (d.port o).queue.length) d) := by
    intro l
    induction l with
    | nil => exact fun d => .refl d
    | cons o l ih => exact fun d => (routed_pumpPort o _ d).trans (ih _)
  exact ports _ d

theorem routed_countDrop (d : Dev) {cnt bit : Fld} (hc : cnt.reg ∈ routerRegs) (hb : bit.reg ∈ routerRegs) : Routed d (d.countDrop cnt bit) :=
  ((routed_setFld d 0 _ hc).trans (routed_setFld _ 0 _ hb)).trans (routed_setFld _ (f := F.ROUTE_ERR_FAULTS) 0 _ (by decide))

theorem routed_discard (d : Dev) (h : NextHop) (q : Queued) : Routed d (d.discard h q) := by
  have free := routed_freeBuffer d q
  unfold Dev.discard
  cases h with
  | unreach =>
    have drop := free.trans (routed_countDrop _ (cnt := F.ROUTE_DROP_UNREACH) (bit := F.ROUTE_ERR_UNREACH) (by decide) (by decide))
    dsimp only
    split
    · exact drop.trans (.of_regs rfl rfl)
    · exact drop
  | badEpoch => exact free.trans (routed_countDrop _ (by decide) (by decide))
  | noRole => exact free.trans (routed_countDrop _ (by decide) (by decide))
  | here | later | out _ _ => exact free

theorem routed_routePacket (d : Dev) (q : Queued) : Routed d (d.routePacket q) := by
  unfold Dev.routePacket
  split
  · exact .of_regs rfl rfl
  · split
    · exact .of_regs rfl rfl
    · exact .refl d
  · exact .of_regs rfl rfl
  · exact routed_discard _ _ _

theorem routed_noteStart (d : Dev) (p : Packet) : Routed d (d.noteStart p) := by
  unfold Dev.noteStart
  split
  · exact .refl d
  · exact .of_regs rfl rfl

theorem routed_release (ps : List Packet) : ∀ (kept : List Packet) (d : Dev), Routed d (d.release kept ps) := by
  induction ps with
  | nil => exact fun _ d => .of_regs rfl rfl
  | cons p ps ih =>
    intro kept d
    unfold Dev.release
    dsimp only
    split
    · exact ih _ _
    · exact ((routed_noteStart _ _).trans (routed_routePacket _ _)).trans (ih _ _)

theorem routed_pump (d : Dev) : Routed d d.pump := by
  have release := routed_release d.route.waiting [] d
  unfold Dev.pump
  dsimp only
  split
  · exact release.trans (routed_pumpPorts _)
  · refine Routed.trans ?_ (routed_pumpPorts (Dev.setFld _ F.ROUTE_EPOCH_HOLD_ACTIVE 0 _))
    exact release.trans (routed_setFld _ 0 _ (by decide))

theorem routed_inject (d : Dev) (p : Packet) : Routed d (d.inject p) := by
  unfold Dev.inject
  dsimp only
  split
  · exact .of_regs rfl rfl
  · refine Routed.trans ?_ (routed_pump _)
    exact .of_regs rfl rfl

/-! ### The registers of an update -/

/-- The registers that an update may write. -/
def Upd.writes : Upd → List Reg
  | .fld f _ _ => [f.reg]
  | .event _ _ => [.EVT_STATUS, .CHAIN_ERR]
  | .inject _ | .pump | .routed _ => routerRegs
  | .restart _ => Reg.all
  | _ => []

theorem Reg.mem_all (r : Reg) : r ∈ Reg.all := List.mem_of_getElem? (Reg.all_getElem r)

/-- A register that an update does not write reads as before. -/
theorem reg_apply_of_not_mem (u : Upd) (d : Dev) {r : Reg} (h : r ∉ u.writes) (i : Nat) : (u.apply d).reg r i = d.reg r i := by
  cases u with
  | fld f j g => exact reg_setFld_other d f j g (.inl fun e => h (by simp [Upd.writes, e]))
  | event k b => exact reg_raise d k b i (fun e => h (by simp [Upd.writes, e])) (fun e => h (by simp [Upd.writes, e]))
  | sendEvents => exact reg_sendEvents _ d r i
  | ask b m => rfl
  | inject p => exact (routed_inject d p).reg r i h
  | pump => exact (routed_pump d).reg r i h
  | routed q => exact (routed_routePacket d q).reg r i h
  | restart w => exact absurd (Reg.mem_all r) h
  | spm _ _ _ => exact reg_of_regs (keep_regs _ d (by simp)) r i
  | _ => rfl

/-! ### Confined lists of updates -/

/-- An update that may change only the parts `ps`, and of the registers only `rs`. -/
def Upd.confined (ps : List Part) (rs : List Reg) (u : Upd) : Bool :=
  (u.touches.all fun p => decide (p ∈ ps)) && u.writes.all fun r => decide (r ∈ rs)

/-- Updates that may change only the parts `ps`, and of the registers only `rs`. -/
def Confined (ps : List Part) (rs : List Reg) (us : List Upd) : Prop := ∀ u ∈ us, u.confined ps rs = true

/-- An act whose updates may change only the parts `ps`, and of the registers only `rs`, in every state. -/
def Confines (ps : List Part) (rs : List Reg) (a : Act) : Prop := ∀ d, Confined ps rs (a d)

section lists
variable {ps : List Part} {rs : List Reg}

@[simp] theorem confined_nil : Confined ps rs [] := fun _ h => nomatch h
@[simp] theorem confined_cons (u : Upd) (us : List Upd) : Confined ps rs (u :: us) ↔ u.confined ps rs = true ∧ Confined ps rs us := by
  simp [Confined]
@[simp] theorem confined_append (us vs : List Upd) : Confined ps rs (us ++ vs) ↔ Confined ps rs us ∧ Confined ps rs vs := by
  simp only [Confined, List.mem_append, or_imp, forall_and]
@[simp] theorem confined_ite (p : Prop) [Decidable p] (us vs : List Upd) :
    Confined ps rs (if p then us else vs) ↔ (p → Confined ps rs us) ∧ (¬p → Confined ps rs vs) := by
  split <;> simp_all
@[simp] theorem confined_map {α : Type} (f : α → Upd) (xs : List α) :
    Confined ps rs (xs.map f) ↔ ∀ x ∈ xs, (f x).confined ps rs = true := by
  simp [Confined]
@[simp] theorem confined_flatMap {α : Type} (f : α → List Upd) (xs : List α) :
    Confined ps rs (xs.flatMap f) ↔ ∀ x ∈ xs, Confined ps rs (f x) := by
  simp only [Confined, List.mem_flatMap]
  exact ⟨fun h x hx u hu => h u ⟨x, hx, hu⟩, fun h u ⟨x, hx, hu⟩ => h x hx u hu⟩

theorem Confined.mono {ps' : List Part} {rs' : List Reg} {us : List Upd} (h : Confined ps rs us) (hp : ps ⊆ ps') (hr : rs ⊆ rs') :
    Confined ps' rs' us := by
  intro u hu
  have := h u hu
  simp only [Upd.confined, Bool.and_eq_true, List.all_eq_true, decide_eq_true_eq] at this ⊢
  exact ⟨fun p m => hp (this.1 p m), fun r m => hr (this.2 r m)⟩

theorem Confined.leaves {us : List Upd} (h : Confined ps rs us) {p : Part} (hp : p ∉ ps) : leaves p us := by
  intro u hu touched
  have := h u hu
  simp only [Upd.confined, Bool.and_eq_true, List.all_eq_true, decide_eq_true_eq] at this
  exact hp (this.1 p touched)

/-- A register outside those of a confined list reads as before. -/
theorem Confined.reg {us : List Upd} (h : Confined ps rs us) (d : Dev) {r : Reg} (hr : r ∉ rs) (i : Nat) :
    (applyAll us d).reg r i = d.reg r i := by
  induction us generalizing d with
  | nil => rfl
  | cons u us ih =>
    obtain ⟨hu, hus⟩ := (confined_cons u us).1 h
    simp only [Upd.confined, Bool.and_eq_true, List.all_eq_true, decide_eq_true_eq] at hu
    exact (ih hus _).trans (reg_apply_of_not_mem u d (fun m => hr (hu.2 r m)) i)

theorem Confined.fld {us : List Upd} (h : Confined ps rs us) (d : Dev) {f : Fld} (hr : f.reg ∉ rs) (i : Nat) :
    (applyAll us d).fld f i = d.fld f i := by
  simp only [Dev.fld, h.reg d hr]

theorem Confines.nil : Confines ps rs noAct := fun _ => confined_nil

theorem Confines.inSequence {as : List Act} (h : ∀ a ∈ as, Confines ps rs a) : Confines ps rs (inSequence as) := by
  induction as with
  | nil => exact fun _ => confined_nil
  | cons a as ih =>
    intro d
    simp only [Sys2Proof.Machine.inSequence, confined_append]
    exact ⟨h a (List.mem_cons_self ..) d, ih (fun b hb => h b (List.mem_cons_of_mem _ hb)) _⟩

theorem Confines.forEach {α : Type} {f : α → Act} {xs : List α} (h : ∀ x ∈ xs, Confines ps rs (f x)) : Confines ps rs (forEach f xs) := by
  apply Confines.inSequence
  intro a ha
  obtain ⟨x, hx, rfl⟩ := List.mem_map.1 ha
  exact h x hx

theorem Confines.onlyIf {b : Bool} {a : Act} (h : Confines ps rs a) : Confines ps rs (onlyIf b a) := by
  intro d
  unfold Sys2Proof.Machine.onlyIf
  split
  · exact h d
  · exact confined_nil

theorem Confines.mono {ps' : List Part} {rs' : List Reg} {a : Act} (h : Confines ps rs a) (hp : ps ⊆ ps') (hr : rs ⊆ rs') :
    Confines ps' rs' a := fun d => (h d).mono hp hr

end lists

/-! ### Frames of whole modules -/

/-- Updates of registers, cores, chain and outbox change nothing else. -/
theorem Confined.onlyCores {rs : List Reg} {us : List Upd} (h : Confined [.regs, .cores, .chain, .outbox] rs us) (d : Dev) :
    onlyCores d (applyAll us d) := by
  refine ⟨?_, sent_applyAll us d, ?_⟩
  · simp only [Dev.besideCores, Dev.besideRegs, Dev.mk.injEq, true_and]
    exact ⟨keepAll_gcnt d (h.leaves (by decide)), keepAll_hbm d (h.leaves (by decide)), keepAll_spm d (h.leaves (by decide)),
      keepAll_hbmBad d (h.leaves (by decide)), keepAll_hbmMarks d (h.leaves (by decide)), keepAll_spmMarks d (h.leaves (by decide)),
      keepAll_spmParity d (h.leaves (by decide)), keepAll_repair d (h.leaves (by decide)), keepAll_chans d (h.leaves (by decide)),
      keepAll_regions d (h.leaves (by decide)), keepAll_codecTables d (h.leaves (by decide)), keepAll_digestK d (h.leaves (by decide)),
      keepAll_digests d (h.leaves (by decide)), keepAll_schedLib d (h.leaves (by decide)), keepAll_syncLib d (h.leaves (by decide)),
      keepAll_clusters d (h.leaves (by decide)), keepAll_rings d (h.leaves (by decide)),
      keepAll_slices d (h.leaves (by decide)), keepAll_commit d (h.leaves (by decide)), keepAll_vault d (h.leaves (by decide)),
      keepAll_ports d (h.leaves (by decide)), keepAll_route d (h.leaves (by decide)), keepAll_svc d (h.leaves (by decide)),
      keepAll_start d (h.leaves (by decide)), keepAll_secure d (h.leaves (by decide)), keepAll_board d (h.leaves (by decide)),
      keepAll_servo d (h.leaves (by decide)), keepAll_snapInfo d (h.leaves (by decide)), keepAll_snapPend d (h.leaves (by decide)),
      keepAll_snapPub d (h.leaves (by decide)), keepAll_spmLost d (h.leaves (by decide)), keepAll_frozen d (h.leaves (by decide)),
      keepAll_freeCtr d (h.leaves (by decide))⟩
  · rw [keepAll_power d (h.leaves (by decide))]

/-- What changed beside the cores alone, with the cores as before. -/
theorem onlyRegs_of_onlyCores {d d' : Dev} (h : onlyCores d d') (cores : d'.cores = d.cores) : onlyRegs d d' := by
  refine ⟨?_, h.2⟩
  have e : { d'.besideCores with cores := d'.cores } = { d.besideCores with cores := d.cores } := by rw [h.1, cores]
  exact e

/-- Updates of registers, chain and outbox change nothing else. -/
theorem Confined.onlyRegs {rs : List Reg} {us : List Upd} (h : Confined [.regs, .chain, .outbox] rs us) (d : Dev) :
    onlyRegs d (applyAll us d) :=
  onlyRegs_of_onlyCores ((h.mono (by decide) fun _ hr => hr).onlyCores d) (keepAll_cores d (h.leaves (by decide)))

/-- Registers outside those of a confined list read as before. -/
theorem Confined.regsBut {ps : List Part} {rs : List Reg} {us : List Upd} (h : Confined ps rs us) (d : Dev) {rs' : List Reg}
    (hr : ∀ r ∈ rs, r ∈ rs' ∨ r ∈ modeRegs) : regsBut rs' d (applyAll us d) := fun r i hn hm =>
  h.reg d (fun m => (hr r m).elim hn hm) i

/-! ### What follows a command's own act -/

theorem modeReg_eq_false {r : Reg} (h : r ∉ modeRegs) : modeReg r = false := by
  unfold modeReg
  split
  · exact absurd (by decide) h
  · exact absurd (by decide) h
  · exact absurd (by decide) h
  · rfl

section quiet
variable {d d' e : Dev} {rs : List Reg} (q : Quiet d' e)
include q

theorem Quiet.regsBut (h : regsBut rs d d') : regsBut rs d e := fun r i hr hm =>
  (q.reg r i (modeReg_eq_false hm)).trans (h r i hr hm)

theorem Quiet.sentOn (h : sentOn d d') : sentOn d e := ⟨h.1.trans q.sent, by rw [q.power, h.2]⟩

theorem Quiet.onlyRegs (h : onlyRegs d d') : onlyRegs d e := ⟨q.same.trans h.1, q.sentOn h.2⟩

theorem Quiet.onlyCores (h : onlyCores d d') : onlyCores d e :=
  ⟨(congrArg (fun x : Dev => { x with cores := [] }) q.same).trans h.1, q.sentOn h.2⟩

theorem Quiet.wrote (h : d.wrote d' rs) : d.wrote e rs := ⟨q.regsBut h.1, q.onlyRegs h.2⟩

theorem Quiet.core (c : Nat) : e.core c = d'.core c := by simp only [Dev.core, q.cores]
theorem Quiet.slice (i : Nat) : e.slice i = d'.slice i := by simp only [Dev.slice, q.slices]
theorem Quiet.ring (k : Nat) : e.ring k = d'.ring k := by simp only [Dev.ring, q.rings]
theorem Quiet.chan (ch : Nat) : e.chan ch = d'.chan ch := by simp only [Dev.chan, q.chans]
theorem Quiet.port (p : Nat) : e.port p = d'.port p := by simp only [Dev.port, q.ports]

end quiet

theorem wrote_refl (d : Dev) : d.wrote d [] := ⟨fun _ _ _ _ => rfl, rfl, List.prefix_rfl, rfl⟩

/-- Updates of registers `rs` alone. -/
theorem Confined.wrote {rs rs' : List Reg} {us : List Upd} (h : Confined [.regs, .chain, .outbox] rs us) (d : Dev)
    (hr : ∀ r ∈ rs, r ∈ rs' ∨ r ∈ modeRegs) : d.wrote (applyAll us d) rs' := ⟨h.regsBut d hr, h.onlyRegs d⟩

/-- A powered command with an act that discards no packet leaves its act's result, but for what follows. -/
theorem completes_act {i : Instr} {s : State} {a : Act} {P : Dev → Prop} {ps : List Part} {rs : List Reg}
    (he : exec i s = perform (onPower a) s) (hs : s.dev.steady) (hc : Confined ps rs (a s.dev)) (route : Part.route ∉ ps)
    (h : ∀ d, Quiet (applyAll (a s.dev) s.dev) d → P d) : Completes i s P :=
  completes_powered he hs ((congrArg RouteSt.lost (keepAll_route _ (hc.leaves route))).trans hs.2) h

/-- A powered command whose act does nothing. -/
theorem completes_nothing {i : Instr} {s : State} {a : Act} {P : Dev → Prop} (he : exec i s = perform (onPower a) s) (hs : s.dev.steady)
    (ha : a s.dev = []) (h : ∀ d, Quiet s.dev d → P d) : Completes i s P :=
  completes_powered he hs (by rw [runAct_eq, ha]; exact hs.2) (by rw [runAct_eq, ha]; exact h)

/-! ### Fields after a write -/

/-- A field of another register reads as before. -/
theorem fld_setFld_reg (d : Dev) {f f' : Fld} (i j : Nat) (g : Nat → Nat) (h : f'.reg ≠ f.reg) : (d.setFld f i g).fld f' j = d.fld f' j :=
  fld_setFld_other d f i g (.inl h)

/-- A field of other bits reads as before. -/
theorem fld_setFld_bits (d : Dev) {f f' : Fld} (i j : Nat) (g : Nat → Nat)
    (h : (f.hi < f'.lo ∨ f'.hi < f.lo) ∧ f.lo ≤ f.hi ∧ f'.lo ≤ f'.hi) : (d.setFld f i g).fld f' j = d.fld f' j :=
  fld_setFld_other d f i g (.inr (.inr h))

/-- A field of another copy reads as before. -/
theorem fld_setFld_copy (d : Dev) {f f' : Fld} {i j : Nat} (g : Nat → Nat) (h : j % regCopies ≠ i % regCopies) :
    (d.setFld f i g).fld f' j = d.fld f' j :=
  fld_setFld_other d f i g (.inr (.inl h))

theorem fld_lt (d : Dev) (f : Fld) (i : Nat) : d.fld f i < 2 ^ (f.hi - f.lo + 1) := Nat.mod_lt _ (Nat.two_pow_pos _)

theorem fld_setF (d : Dev) (f : Fld) (i v : Nat) : ((setF f i v).apply d).fld f i = v % 2 ^ (f.hi - f.lo + 1) := fld_setFld_same ..

theorem fld_setB (d : Dev) (f : Fld) (i : Nat) (b : Bool) : ((setB f i b).apply d).fld f i = if b then 1 else 0 := by
  refine (fld_setFld_same ..).trans (Nat.mod_eq_of_lt ?_)
  cases b <;> simp

theorem fld_addF (d : Dev) (f : Fld) (i n : Nat) : ((addF f i n).apply d).fld f i = (d.fld f i + n) % 2 ^ (f.hi - f.lo + 1) :=
  (fld_setFld_same ..).trans (Nat.mod_mod _ _)

theorem fld_satF (d : Dev) (f : Fld) (i n : Nat) :
    ((satF f i n).apply d).fld f i = min (2 ^ (f.hi - f.lo + 1) - 1) (d.fld f i + n) := by
  have := Nat.two_pow_pos (f.hi - f.lo + 1)
  refine (fld_setFld_same ..).trans ?_
  rw [satAdd, Nat.mod_eq_of_lt (by omega), Nat.add_comm n]

/-- An error bit that is set and counted: the bit reads 1, and the count one more, or all ones. -/
theorem fld_flagFault (d : Dev) {bit faults : Fld} (i : Nat) {top : Nat} (ht : 2 ^ (faults.hi - faults.lo + 1) - 1 = top)
    (h : (faults.hi < bit.lo ∨ bit.hi < faults.lo) ∧ faults.lo ≤ faults.hi ∧ bit.lo ≤ bit.hi) :
    (applyAll (flagFault bit faults i) d).fld bit i = 1 ∧
    (applyAll (flagFault bit faults i) d).fld faults i = min top (d.fld faults i + 1) := by
  subst ht
  simp only [flagFault, applyAll_cons, applyAll_nil]
  refine ⟨?_, ?_⟩
  · exact (fld_setFld_bits _ i i _ h).trans ((fld_setF d bit i 1).trans (Nat.mod_eq_of_lt (Nat.one_lt_two_pow (by omega))))
  · rw [fld_satF]
    exact congrArg (fun v => min _ (v + 1)) (fld_setFld_bits d i i _ ⟨h.1.symm, h.2.2, h.2.1⟩)

/-! ### Members of families after an update -/

theorem mapGet_mapSet {α : Type} [DecidableEq α] (d : Nat → α) (k j : Nat) (v : α) (m : SMap α) :
    mapGet d (mapSet d k v m) j = if j = k then v else mapGet d m j := by
  split
  · subst_vars; exact mapGet_mapSet_same ..
  · exact mapGet_mapSet_other _ _ _ ‹_›

theorem core_apply_core (d : Dev) (c c' : Nat) (g : CoreSt → CoreSt) :
    ((Upd.core c g).apply d).core c' = if c' = c then g (d.core c) else d.core c' := core_set d c _ c'
theorem slice_apply_slice (d : Dev) (i j : Nat) (g : SliceSt → SliceSt) :
    ((Upd.slice i g).apply d).slice j = if j = i then g (d.slice i) else d.slice j := mapGet_mapSet ..
theorem ring_apply_ring (d : Dev) (k j : Nat) (g : RingSt → RingSt) :
    ((Upd.ring k g).apply d).ring j = if j = k then g (d.ring k) else d.ring j := mapGet_mapSet ..
theorem chan_apply_chan (d : Dev) (ch j : Nat) (g : ChanSt → ChanSt) :
    ((Upd.chan ch g).apply d).chan j = if j = ch then g (d.chan ch) else d.chan j := mapGet_mapSet ..
theorem port_apply_port (d : Dev) (p j : Nat) (g : PortSt → PortSt) :
    ((Upd.port p g).apply d).port j = if j = p then g (d.port p) else d.port j := mapGet_mapSet ..

theorem core_apply_same (d : Dev) (c : Nat) (g : CoreSt → CoreSt) : ((Upd.core c g).apply d).core c = g (d.core c) :=
  (core_apply_core d c c g).trans (if_pos rfl)
theorem slice_apply_same (d : Dev) (i : Nat) (g : SliceSt → SliceSt) : ((Upd.slice i g).apply d).slice i = g (d.slice i) :=
  (slice_apply_slice d i i g).trans (if_pos rfl)
theorem ring_apply_same (d : Dev) (k : Nat) (g : RingSt → RingSt) : ((Upd.ring k g).apply d).ring k = g (d.ring k) :=
  (ring_apply_ring d k k g).trans (if_pos rfl)
theorem chan_apply_same (d : Dev) (ch : Nat) (g : ChanSt → ChanSt) : ((Upd.chan ch g).apply d).chan ch = g (d.chan ch) :=
  (chan_apply_chan d ch ch g).trans (if_pos rfl)
theorem port_apply_same (d : Dev) (p : Nat) (g : PortSt → PortSt) : ((Upd.port p g).apply d).port p = g (d.port p) :=
  (port_apply_port d p p g).trans (if_pos rfl)

theorem core_of_cores {d d' : Dev} (h : d'.cores = d.cores) (c : Nat) : d'.core c = d.core c := by simp only [Dev.core, h]
theorem slice_of_slices {d d' : Dev} (h : d'.slices = d.slices) (i : Nat) : d'.slice i = d.slice i := by simp only [Dev.slice, h]
theorem ring_of_rings {d d' : Dev} (h : d'.rings = d.rings) (k : Nat) : d'.ring k = d.ring k := by simp only [Dev.ring, h]
theorem chan_of_chans {d d' : Dev} (h : d'.chans = d.chans) (ch : Nat) : d'.chan ch = d.chan ch := by simp only [Dev.chan, h]
theorem port_of_ports {d d' : Dev} (h : d'.ports = d.ports) (p : Nat) : d'.port p = d.port p := by simp only [Dev.port, h]

section confinedFamilies
variable {ps : List Part} {rs : List Reg} {us : List Upd} (h : Confined ps rs us) (d : Dev)
include h

theorem Confined.core (hp : Part.cores ∉ ps) (c : Nat) : (applyAll us d).core c = d.core c := core_of_cores (keepAll_cores d (h.leaves hp)) c
theorem Confined.slice (hp : Part.slices ∉ ps) (i : Nat) : (applyAll us d).slice i = d.slice i :=
  slice_of_slices (keepAll_slices d (h.leaves hp)) i
theorem Confined.ring (hp : Part.rings ∉ ps) (k : Nat) : (applyAll us d).ring k = d.ring k := ring_of_rings (keepAll_rings d (h.leaves hp)) k
theorem Confined.chan (hp : Part.chans ∉ ps) (ch : Nat) : (applyAll us d).chan ch = d.chan ch := chan_of_chans (keepAll_chans d (h.leaves hp)) ch
theorem Confined.port (hp : Part.ports ∉ ps) (p : Nat) : (applyAll us d).port p = d.port p := port_of_ports (keepAll_ports d (h.leaves hp)) p

end confinedFamilies

end Sys2Proof.Machine
end

