-- ==== Sys2Proof/Proofs/Issues.lean ====
section
/-! PROOFS. Operations at issue: NOP, SETP and LOOP, VEC and SFU, ARM and REARM, SWAP, SWAIT and DIGEST (R238–R244, R283–R296). -/

namespace Sys2Proof.Machine

/-! ### Issue -/

theorem Completes.imp {i : Instr} {s : State} {P Q : Dev → Prop} (h : Completes i s P) (hpq : ∀ d, P d → Q d) : Completes i s Q := by
  obtain ⟨t, he, hp, ht⟩ := h
  exact ⟨t, he, hp, hpq _ ht⟩

theorem ctx_passed (d : Dev) (c n : Nat) (g : ThreadCtx → ThreadCtx) :
    (d.passed c n g).ctx n = settle (d.cues c) (g { (d.core c).ctx n with nextOp := ((d.core c).ctx n).nextOp + 1, st := .issuing }) :=
  ctx_onCtx _ _ _

/-- A parameter of a context after an operation that sets parameters reads what it set. -/
theorem param_passed (d : Dev) (c n : Nat) (g : ThreadCtx → ThreadCtx) (j : Nat) :
    ((d.passed c n g).ctx n).param j =
      (g { (d.core c).ctx n with nextOp := ((d.core c).ctx n).nextOp + 1, st := .issuing }).param j := by
  simp only [ctx_passed, ThreadCtx.param, settle_params]

/-- Settles O1: each is the issue of one operation, with the change of its context that R294 and R296 give. -/
theorem nopSetpLoopComplete : Obligations.NopSetpLoopComplete := by
  intro s c n w x fi hs
  refine ⟨fun h => issue_completes rfl hs h rfl (lt_copies c), fun h => ?_, fun h => issue_completes rfl hs h rfl (lt_copies c)⟩
  refine (issue_completes rfl hs h rfl (lt_copies c)).imp fun d issued => ⟨issued, ?_, fun j hj => ?_⟩
  · rw [issued.core, param_passed]
    exact mapGet_mapSet_same _ _ _ _
  · rw [issued.core, param_passed, ← h.ctx]
    exact mapGet_mapSet_other _ _ _ hj

/-- An operation that does nothing holds its context where it is. -/
theorem held_issue {k : OpKind} {c n : Nat} {f : BitVec 128 → ThreadCtx → Firing → Act} {s : State} {w : BitVec 128} {x : ThreadCtx}
    {fi : Firing} {i : Instr} (he : exec i s = perform (onPower (issue k c n f)) s) (hs : s.dev.steady) (h : s.dev.AtOp c n k w x fi)
    (hf : f w x fi s.dev = []) : Completes i s fun d => d.cores = s.dev.cores ∧ regsBut [] s.dev d ∧ onlyRegs s.dev d :=
  nothing_completes he hs (by rw [issue_run h, runAct_eq, hf]; rfl)

/-- What an issued operation leaves of the module, in the words of the statements. -/
theorem Issued.frame {d d' : Dev} {c : Nat} {cs : CoreSt} (h : Issued d d' c cs []) :
    d'.fld F.SEQ_ISSUE_OPS c = (d.fld F.SEQ_ISSUE_OPS c + 1) % 2 ^ 64 ∧ regsBut [.SEQ_ISSUE] d d' ∧ onlyCores d d' :=
  ⟨h.count, h.regs, h.rest⟩

/-- An issue whose updates are known, and what they issue. -/
theorem issue_updates {k : OpKind} {c n : Nat} {f : BitVec 128 → ThreadCtx → Firing → Act} {s : State} {w : BitVec 128} {x : ThreadCtx}
    {fi : Firing} {i : Instr} {us : List Upd} {cs : CoreSt} {rs : List Reg} {P : Dev → Prop}
    (he : exec i s = perform (onPower (issue k c n f)) s) (hs : s.dev.steady) (h : s.dev.AtOp c n k w x fi)
    (hf : f w x fi s.dev = us) (hi : Issued s.dev (applyAll us s.dev) c cs rs) (hP : ∀ d, Issued s.dev d c cs rs → P d) :
    Completes i s P := by
  have lost : (runAct (f w x fi) s.dev).route.lost = [] := by
    rw [runAct_eq, hf]
    have route : (applyAll us s.dev).route = s.dev.route := (congrArg Dev.route hi.rest.1 :)
    rw [route, hs.2]
  exact (issued_issue he hs h lost (by rwa [runAct_eq, hf])).imp hP

theorem applyAll_inSequence_nil (d d' : Dev) : applyAll (inSequence [] d) d' = d' := rfl

theorem applyAll_inSequence_cons (a : Act) (as : List Act) (d : Dev) :
    applyAll (inSequence (a :: as) d) d = applyAll (inSequence as (applyAll (a d) d)) (applyAll (a d) d) := by
  simp [inSequence]

/-! ### VEC and SFU -/

/-- The draws an operation takes are a further change of the core that issued. -/
theorem Issued.onDraws {d d' : Dev} {c : Nat} {cs : CoreSt} {rs : List Reg} (h : Issued d d' c cs rs) (n : Nat) (f : Firing) (e : Nat) :
    ∃ m, Issued d (applyAll (takeDraws c n f e) d') c { cs with draws := m } rs := by
  unfold takeDraws
  split
  · exact ⟨cs.draws, h⟩
  · exact ⟨_, h.onCore fun cs => { cs with draws := _ }⟩

/-- Settles O3: the operation enters the queue behind `stepPast`, and a LEN of 0 is `stepPast` alone. -/
theorem vecSfuIssue : Obligations.VecSfuIssue := by
  intro s c n w x fi sfu hs h i v uses blocked
  have he : exec i s = perform (onPower (vecIssue sfu c n)) s := by cases sfu <;> rfl
  refine ⟨fun len => ?_, fun len free => ?_, fun len full => ?_⟩
  · exact issue_completes he hs h (if_pos len) (lt_copies c)
  · have room : ¬ blocked = true := by rw [free]; decide
    obtain ⟨m, issued⟩ := (((issued_stepPast s.dev c n fun y => { y with out := y.out ++ [⟨(s.dev.core c).opCount, uses⟩] })
      (lt_copies c)).onCore fun cs => { cs with
        opCount := cs.opCount + 1
        vecQ := cs.vecQ ++ [(⟨n, (s.dev.core c).opCount, w, fi, x.paramList, sidesAt (s.dev.core c) (uses.map fun u => u.region), 0, false,
          (s.dev.core c).nextDraw n fi, false⟩ : UnitOp)] }).onDraws n fi (vecDraws sfu v)
    refine issue_updates (cs := ?cs) (rs := []) he hs h ((if_neg len).trans (if_neg room)) ?issued ?read
    case issued =>
      simp only [applyAll_inSequence_cons, applyAll_inSequence_nil]
      exact issued
    case read =>
      rintro d ⟨core, -, count, -, regs, rest⟩
      exact ⟨_, rfl, rfl, rfl, rfl, rfl, congrArg CoreSt.vecQ core, congrArg CoreSt.opCount core, by rw [core]; rfl,
        count, regs, rest⟩
  · exact held_issue he hs h ((if_neg len).trans (if_pos full))

/-! ### ARM and REARM -/

theorem engine_onEngine (e : Engine) (g : EngineSt → EngineSt) (cs : CoreSt) : (onEngine e g cs).engine e = g (cs.engine e) := by
  cases e <;> rfl

theorem armedCnt_onEngine (e : Engine) (g : EngineSt → EngineSt) (cs : CoreSt) : (onEngine e g cs).armedCnt = cs.armedCnt := by
  cases e <;> rfl

theorem ctxs_onEngine (e : Engine) (g : EngineSt → EngineSt) (cs : CoreSt) : (onEngine e g cs).ctxs = cs.ctxs := by
  cases e <;> rfl

/-- The arm that ARM or REARM queues (R238). -/
def queuedArm (cs : CoreSt) (st : Nat) (fi : Firing) (base : Int) (rearmed : Bool) (off : Nat) (x : Desc) : Arm :=
  { stream := st, base := base, rearmed := rearmed, spmOff := off, side := cs.side x.region, armNo := countOf cs.armedCnt st + 1,
    digest := (cs.digestOn.find? fun e => e.1 = st).map Prod.snd, opId := cs.opCount, firing := fi }

/-- The core behind the issue of an arm. -/
def armedCore (d : Dev) (c n st : Nat) (a : Arm) (x : Desc) : CoreSt :=
  onEngine x.eng (fun e => { e with queue := e.queue ++ [a] })
    { d.passed c n id with
      opCount := (d.core c).opCount + 1, armedCnt := mapSet (fun _ => 0) st (countOf (d.core c).armedCnt st + 1) (d.core c).armedCnt }

/-- An arm with room and no hazard is queued and counted. -/
theorem issued_armStream {d : Dev} {c n st : Nat} {fi : Firing} {base : Int} {rearmed : Bool} {off : Nat} {x : Desc} (hc : c < regCopies)
    (free : (decide (8 ≤ ((d.core c).engine x.eng).queue.length) || hazard ((d.core c).ctx n) (armUses d c x)) = false) :
    Issued d (applyAll (armStream c n st fi base rearmed off x d) d) c
      (armedCore d c n st (queuedArm (d.core c) st fi base rearmed off x) x) [] := by
  have room : ¬ (decide (8 ≤ ((d.core c).engine x.eng).queue.length) || hazard ((d.core c).ctx n) (armUses d c x)) = true := by
    rw [free]; decide
  unfold armStream
  rw [if_neg room, applyAll_append, applyAll_cons, applyAll_nil]
  exact (issued_stepPast d c n id hc).onCore _

/-- A core behind the issue of an arm, as the statements read it. -/
theorem armedCore_reads (d : Dev) (c n st : Nat) (a : Arm) (x : Desc) :
    ((armedCore d c n st a x).engine x.eng).queue = ((d.core c).engine x.eng).queue ++ [a] ∧
    countOf (armedCore d c n st a x).armedCnt st = countOf (d.core c).armedCnt st + 1 ∧
    (∀ j, j ≠ st → countOf (armedCore d c n st a x).armedCnt j = countOf (d.core c).armedCnt j) ∧
    (armedCore d c n st a x).ctx n = (d.passed c n id).ctx n := by
  refine ⟨?_, ?_, fun j hj => ?_, ?_⟩
  · rw [armedCore, engine_onEngine]
    cases x.eng <;> rfl
  · rw [armedCore, armedCnt_onEngine]
    exact mapGet_mapSet_same ..
  · rw [armedCore, armedCnt_onEngine]
    exact mapGet_mapSet_other _ _ _ hj
  · rw [armedCore, CoreSt.ctx, ctxs_onEngine]
    rfl

/-- The HBM base and scratchpad offset of the transfer that ARM, or REARM, queues (R291). -/
def armPlace (again : Bool) (w : BitVec 128) (x : ThreadCtx) (fi : Firing) (ds : Desc) : Int × Nat :=
  (if again then (rearmBase w : Int) + rearmStep w * rearmIndex (rearmSel w) x fi else (ds.base : Int),
    if again then rearmOff w else ds.spmOff)

/-- What ARM, or REARM, does with its operation (R291). -/
def armOrRearm (again : Bool) (c n : Nat) (w : BitVec 128) (x : ThreadCtx) (fi : Firing) : Act := fun d =>
  match d.desc c (opStream w) with
  | none => []
  | some ds => armStream c n (opStream w) fi (armPlace again w x fi ds).1 again (armPlace again w x fi ds).2 ds d

theorem armOrRearm_of_desc {d : Dev} {c n : Nat} {w : BitVec 128} {x : ThreadCtx} {fi : Firing} {ds : Desc} (again : Bool)
    (h : d.desc c (opStream w) = some ds) : armOrRearm again c n w x fi d =
      armStream c n (opStream w) fi (armPlace again w x fi ds).1 again (armPlace again w x fi ds).2 ds d := by
  rw [armOrRearm, h]

/-- Settles O5: both run `armStream`, which queues the arm behind `stepPast`, or does nothing. -/
theorem armRearmQueue : Obligations.ArmRearmQueue := by
  intro s c n w x fi ds again hs h hd i cs blocked
  have he : exec i s = perform (onPower (issue (if again then .rearm else .arm) c n (armOrRearm again c n))) s := by cases again <;> rfl
  have hx : (s.dev.core c).ctx n = x := h.ctx
  have body := armOrRearm_of_desc (n := n) (x := x) (fi := fi) again hd
  refine ⟨fun free => ?_, fun full => held_issue he hs h (body.trans (if_pos (hx ▸ full)))⟩
  refine issue_updates he hs h body (issued_armStream (lt_copies c) (hx ▸ free)) ?_
  rintro d ⟨core, -, count, -, regs, rest⟩
  rw [core]
  obtain ⟨queue, armed, others, ctx⟩ := armedCore_reads s.dev c n (opStream w) (queuedArm cs (opStream w) fi _ again _ ds) ds
  exact ⟨_, rfl, rfl, rfl, rfl, rfl, rfl, queue, armed, others, ctx, count, regs, rest⟩

/-! ### SWAP, SWAIT and DIGEST -/

/-- Putting a context to sleep is an issue that changes its core alone. -/
theorem issued_sleepOn (d : Dev) (c n : Nat) (obj : WaitObj) (due : Bool) (hc : c < regCopies) :
    Issued d (applyAll (sleepOn d c n obj due) d) c
      { d.passed c n (fun y => { y with st := .sleeping, wait := some ⟨obj, (d.core c).opCount, due, d.now, false⟩ }) with
        opCount := (d.core c).opCount + 1 } [] := by
  rw [sleepOn, applyAll_append, applyAll_cons, applyAll_nil]
  exact (issued_stepPast d c n _ hc).onCore _

/-- Settles O6: each is `stepPast` with a change of its core, or sleeps. -/
theorem swapSwaitDigestIssue : Obligations.SwapSwaitDigestIssue := by
  intro s c n w x fi hs cs asleep
  refine ⟨fun h => ⟨fun free => ?_, fun blocked => ?_⟩, fun h => ⟨fun done => ?_, fun under => ?_⟩, fun h => ?_⟩
  · refine issue_updates rfl hs h (if_neg (ne_true_of_eq_false free)) ?_ fun _ => id
    rw [applyAll_append, applyAll_cons, applyAll_cons, applyAll_nil]
    exact ((issued_stepPast s.dev c n id (lt_copies c)).onCore fun cs => { cs with opCount := cs.opCount + 1 }).onCore _
  · exact issue_updates rfl hs h (if_pos blocked) (issued_sleepOn _ _ _ _ _ (lt_copies c)) fun _ => id
  · exact issue_completes rfl hs h (if_pos done) (lt_copies c)
  · exact issue_updates rfl hs h (if_neg under) (issued_sleepOn _ _ _ _ _ (lt_copies c)) fun _ => id
  · refine issue_updates rfl hs h rfl ?_ fun _ => id
    rw [applyAll_append, applyAll_cons, applyAll_nil]
    exact (issued_stepPast s.dev c n id (lt_copies c)).onCore _

end Sys2Proof.Machine
end

