-- ==== Sys2Proof/Proofs/Commits.lean ====
section
/-! PROOFS. COMMIT at issue and on completion: the core's wait, its record, and its report for the step (R295, R303, R312, R448). -/

namespace Sys2Proof.Machine

/-! ### Records of steps -/

theorem committed_onStep (t : Nat) (g : StepSt → StepSt) (s : SliceSt) : (onStep t g s).committed = s.committed := by
  unfold onStep
  split
  · rfl
  · split <;> rfl

/-- The record of an open step is changed in its place. -/
theorem mem_onStep {t : Nat} {s : SliceSt} {e : StepSt} (g : StepSt → StepSt) (h : e ∈ s.steps) (ht : e.step = t) :
    g e ∈ (onStep t g s).steps := by
  have isOpen : s.steps.any (fun e => decide (e.step = t)) = true := List.any_eq_true.2 ⟨e, h, by simpa using ht⟩
  unfold onStep
  rw [if_pos isOpen]
  exact List.mem_map.2 ⟨e, h, if_pos ht⟩

/-- A step that is not committed has a record once it is changed. -/
theorem exists_mem_onStep {t : Nat} {s : SliceSt} (g : StepSt → StepSt) (h : (s.committed.any fun c => decide (t ≤ c)) = false) :
    ∃ e, e.step = t ∧ g e ∈ (onStep t g s).steps := by
  by_cases isOpen : s.steps.any (fun e => decide (e.step = t)) = true
  · obtain ⟨e, he, ht⟩ := List.any_eq_true.1 isOpen
    exact ⟨e, by simpa using ht, mem_onStep g he (by simpa using ht)⟩
  · refine ⟨.init t, rfl, ?_⟩
    unfold onStep
    rw [if_neg isOpen, if_neg (ne_true_of_eq_false h)]
    simp

/-! ### The rotation of context sets -/

/-- Loading a set changes parameters and the resident set alone. -/
theorem commit_loadSet (r : Nat) (all : SMap (BitVec 32)) (cs : CoreSt) :
    (loadSet r all cs).commitWait = cs.commitWait ∧ (loadSet r all cs).lastCommit = cs.lastCommit := by
  have loaded : ∀ (l : List Nat) (cs : CoreSt) (g : Nat → ThreadCtx → ThreadCtx),
      (l.foldl (fun cs n => onCtx n (g n) cs) cs).commitWait = cs.commitWait ∧
      (l.foldl (fun cs n => onCtx n (g n) cs) cs).lastCommit = cs.lastCommit := by
    intro l
    induction l with
    | nil => exact fun _ _ => ⟨rfl, rfl⟩
    | cons n l ih => exact fun cs g => ih (onCtx n (g n) cs) g
  exact loaded _ { cs with saved := all, residentSet := r } _

theorem commit_rotateSets (nsets t : Nat) (cs : CoreSt) :
    (rotateSets nsets t cs).commitWait = cs.commitWait ∧ (rotateSets nsets t cs).lastCommit = cs.lastCommit := by
  unfold rotateSets
  split
  · exact ⟨rfl, rfl⟩
  · exact commit_loadSet _ _ _

/-! ### The acts of a completed COMMIT -/

theorem confines_stageRecord (c i t : Nat) : Confines [.commit, .outbox, .slices] [] (stageRecord c i t) := by
  intro d
  unfold stageRecord
  simp only [confined_append, confined_cons, confined_nil, and_true]
  refine ⟨rfl, ?_⟩
  split
  · exact confined_nil
  · simp only [confined_cons, confined_nil, and_true]
    exact ⟨rfl, rfl⟩

theorem confines_checkReady (i t : Nat) : Confines [.outbox, .slices] [] (checkReady i t) := by
  intro d
  unfold checkReady
  split
  · split
    · simp only [confined_cons, confined_nil, and_true]
      exact ⟨rfl, rfl⟩
    · exact confined_nil
  · exact confined_nil

/-- The record of a core is staged. -/
theorem recStaged_stageRecord (c i t : Nat) (d : Dev) : d.coreRecord c i t ∈ (runAct (stageRecord c i t) d).commit.recStaged := by
  unfold runAct stageRecord
  simp only [applyAll_append, applyAll_cons, applyAll_nil, apply_commit]
  split <;> simp

/-- Staging a record leaves what a slice has committed. -/
theorem committed_stageRecord (c i t j : Nat) (d : Dev) : ((runAct (stageRecord c i t) d).slice j).committed = (d.slice j).committed := by
  unfold runAct stageRecord
  simp only [applyAll_append, applyAll_cons, applyAll_nil]
  split
  · rfl
  · simp only [applyAll_cons, applyAll_nil, slice_apply_slice]
    split
    · subst_vars; exact committed_onStep _ _ _
    · rfl

/-- A module that is ready keeps the reports of its step. -/
theorem mem_checkReady {i t c : Nat} {d : Dev} (h : ∃ e ∈ (d.slice i).steps, e.step = t ∧ c ∈ e.reports) :
    ∃ e ∈ ((runAct (checkReady i t) d).slice i).steps, e.step = t ∧ c ∈ e.reports := by
  obtain ⟨e, he, ht, hc⟩ := h
  unfold runAct checkReady
  split
  · split
    · refine ⟨{ e with readySent := true }, ?_, ht, hc⟩
      change _ ∈ (((Upd.slice i _).apply d).slice i).steps
      rw [slice_apply_same]
      exact mem_onStep (fun s => { s with readySent := true }) he ht
    · exact ⟨e, he, ht, hc⟩
  · exact ⟨e, he, ht, hc⟩

/-- What a completed COMMIT does (R295, R303, R448). -/
def commitDone (c n id t i nsets : Nat) : Act :=
  inSequence [
    fun _ => [.core c fun cs => rotateSets nsets t { cs with commitWait := none, lastCommit := some t }],
    stageRecord c i t,
    completeOp c n id,
    fun _ => [.slice i (onStep t fun e => { e with reports := (e.reports.filter fun x => x ≠ c) ++ [c] })],
    checkReady i t ]

theorem confines_commitDone (c n id t i nsets : Nat) : Confines [.cores, .slices, .commit, .outbox] [] (commitDone c n id t i nsets) := by
  refine Confines.inSequence ?_
  simp only [List.mem_cons, List.not_mem_nil, or_false, forall_eq_or_imp, forall_eq]
  refine ⟨fun _ => ?_, (confines_stageRecord c i t).mono (by decide) (by decide), fun _ => ?_, fun _ => ?_,
    (confines_checkReady i t).mono (by decide) (by decide)⟩
  all_goals
    simp only [completeOp, confined_cons, confined_nil, and_true]
    rfl

/-- After a completed COMMIT the core waits no longer, its last commit is the step's, the core has reported, and its record is staged. -/
theorem commitDone_reads (c n id t i nsets : Nat) (d d' : Dev) (hd : runAct (commitDone c n id t i nsets) d = d')
    (h : ((d.slice i).committed.any fun x => decide (t ≤ x)) = false) :
    (d'.core c).commitWait = none ∧ (d'.core c).lastCommit = some t ∧
    (∃ e ∈ (d'.slice i).steps, e.step = t ∧ c ∈ e.reports) ∧ ∃ r ∈ d'.commit.recStaged, r.core = c ∧ r.slice = i ∧ r.step = t := by
  simp only [commitDone, runAct_inSequence_cons, runAct_inSequence_nil, runAct_list, applyAll_cons, applyAll_nil] at hd
  generalize h1 : (Upd.core c fun cs => rotateSets nsets t { cs with commitWait := none, lastCommit := some t }).apply d = d1 at hd
  have c1 : (d1.core c).commitWait = none ∧ (d1.core c).lastCommit = some t := by
    rw [← h1, core_apply_same]
    exact commit_rotateSets _ _ _
  have s1 : (d1.slice i).committed = (d.slice i).committed := by rw [← h1]; rfl
  have c2 := (confines_stageRecord c i t d1).core d1 (by decide) c
  have s2 := committed_stageRecord c i t i d1
  have r2 := recStaged_stageRecord c i t d1
  rw [← runAct_eq] at c2
  generalize runAct (stageRecord c i t) d1 = d2 at hd c2 s2 r2
  have c3 : ((runAct (completeOp c n id) d2).core c).commitWait = none ∧ ((runAct (completeOp c n id) d2).core c).lastCommit = some t := by
    rw [runAct_eq, completeOp, applyAll_cons, applyAll_nil, ctxUpd, core_apply_same, c2]
    exact c1
  have s3 : ((runAct (completeOp c n id) d2).slice i).committed = (d.slice i).committed := s2.trans s1
  have r3 : (runAct (completeOp c n id) d2).commit = d2.commit := rfl
  generalize runAct (completeOp c n id) d2 = d3 at hd c3 s3 r3
  have report : ∃ e ∈ (((Upd.slice i (onStep t fun e => { e with reports := (e.reports.filter fun x => x ≠ c) ++ [c] })).apply d3).slice i).steps,
      e.step = t ∧ c ∈ e.reports := by
    obtain ⟨e, ht, he⟩ := exists_mem_onStep (t := t) (s := d3.slice i)
      (fun e => { e with reports := (e.reports.filter fun x => x ≠ c) ++ [c] }) (by rw [s3]; exact h)
    rw [slice_apply_same]
    exact ⟨_, he, ht, List.mem_append_right _ (List.mem_singleton_self c)⟩
  have last := confines_checkReady i t ((Upd.slice i (onStep t fun e => { e with reports := (e.reports.filter fun x => x ≠ c) ++ [c] })).apply d3)
  refine ⟨?_, ?_, hd ▸ mem_checkReady report, d1.coreRecord c i t, ?_, rfl, rfl, rfl⟩
  · rw [← hd, runAct_eq, last.core _ (by decide)]; exact c3.1
  · rw [← hd, runAct_eq, last.core _ (by decide)]; exact c3.2
  · rw [← hd, runAct_eq, keepAll_commit _ (last.leaves (by decide))]
    exact (congrArg CommitSt.recStaged r3).symm ▸ r2

/-- An error bit of a core is set, and its event counted, behind what was issued. -/
theorem issued_flagSeq {d d' : Dev} {c : Nat} {cs : CoreSt} (h : Issued d d' c cs []) :
    let d'' := applyAll (flagSeq c F.SEQ_ERR_COMMIT2) d'
    Issued d d'' c cs [.SEQ_ERR] ∧ d''.fld F.SEQ_ERR_COMMIT2 c = 1 ∧
    d''.fld F.SEQ_ERR_FAULTS c = min 4294967295 (d.fld F.SEQ_ERR_FAULTS c + 1) := by
  have before : d'.fld F.SEQ_ERR_FAULTS c = d.fld F.SEQ_ERR_FAULTS c := by
    simp only [Dev.fld, h.regs .SEQ_ERR c (by decide) (by decide)]
  obtain ⟨bit, faults⟩ := fld_flagFault d' (bit := F.SEQ_ERR_COMMIT2) (faults := F.SEQ_ERR_FAULTS) c (by decide : _ = 4294967295) (by decide)
  refine ⟨?_, bit, faults.trans (by rw [before])⟩
  simp only [flagSeq, flagFault, setF, satF, applyAll_cons, applyAll_nil]
  refine Issued.onFld (Issued.onFld (h.weaken (List.nil_subset _)) ?_ ?_) ?_ ?_
  all_goals decide

/-- A second COMMIT of a step completes at issue with its error (R312). -/
theorem commit_again {s : State} {c n : Nat} {i : Instr} {w : BitVec 128} {x : ThreadCtx} {fi : Firing}
    {f : BitVec 128 → ThreadCtx → Firing → Act} (he : exec i s = perform (onPower (issue .commit c n f)) s) (hs : s.dev.steady)
    (h : s.dev.AtOp c n .commit w x fi) (hc : c < regCopies)
    (hf : f w x fi s.dev = stepPast s.dev c n id ++ flagSeq c F.SEQ_ERR_COMMIT2) : Completes i s fun d =>
      Issued s.dev d c (s.dev.passed c n id) [.SEQ_ERR] ∧ d.fld F.SEQ_ERR_COMMIT2 c = 1 ∧
      d.fld F.SEQ_ERR_FAULTS c = min 4294967295 (s.dev.fld F.SEQ_ERR_FAULTS c + 1) := by
  obtain ⟨issued, bit, faults⟩ := issued_flagSeq (issued_stepPast s.dev c n id hc)
  rw [← applyAll_append, ← hf] at issued bit faults
  refine issue_is he hs h ?_ fun d q => ⟨quiet_issued q issued, (q.fld rfl c).trans bit, (q.fld rfl c).trans faults⟩
  exact (congrArg (fun d : Dev => d.route.lost) issued.rest.1 :).trans hs.2

/-- Settles O2: at issue COMMIT is `stepPast` with a wait or an error, and on completion the acts of `commitDone`. -/
theorem commitIssuesAndCompletes : Obligations.CommitIssuesAndCompletes := by
  refine ⟨fun s c n w x fi hs h => ?_, fun s c m j t i hs wait slice runs => ?_⟩
  · intro cs
    refine ⟨fun last free => ?_, fun again => ?_, fun last other => ?_⟩
    · have first : ¬ (cs.lastCommit = some fi.step || cs.commitWait.any fun w => w.2.2 = fi.step) = true := by simp [last, free]
      have alone : ¬ cs.commitWait.isSome = true := by simp [free]
      refine issue_updates rfl hs h ((if_neg first).trans (if_neg alone)) ?_ fun _ => id
      rw [applyAll_append, applyAll_cons, applyAll_nil]
      exact (issued_stepPast s.dev c n _ (lt_copies c)).onCore _
    · have second : (cs.lastCommit = some fi.step || cs.commitWait.any fun w => w.2.2 = fi.step) = true := by
        rcases again with last | ⟨m, j, wait⟩
        · simp [last]
        · simp [wait]
      exact commit_again rfl hs h (lt_copies c) (if_pos second)
    · obtain ⟨m, j, t, wait, ht⟩ := other
      have first : ¬ (cs.lastCommit = some fi.step || cs.commitWait.any fun w => w.2.2 = fi.step) = true := by simp [last, wait, ht]
      exact held_issue rfl hs h ((if_neg first).trans (if_pos (show cs.commitWait.isSome = true by simp [wait])))
  · refine ⟨fun free fresh => ?_, fun behind => ?_⟩
    · have act : commitCompleteAct c s.dev = commitDone c m j t i (((s.dev.liveProg c).map fun p => p.nsets).getD 1) s.dev := by
        simp [commitCompleteAct, wait, slice, runs, free, commitDone]
      have confined := confines_commitDone c m j t i (((s.dev.liveProg c).map fun p => p.nsets).getD 1) s.dev
      refine completes_act rfl hs (act ▸ confined) (by decide) fun d q => ?_
      rw [act] at q
      obtain ⟨waits, last, reports, staged⟩ := commitDone_reads c m j t i (((s.dev.liveProg c).map fun p => p.nsets).getD 1) s.dev _ rfl fresh
      rw [q.core, q.slice, q.commit, q.hbm, q.spm]
      exact ⟨waits, last, reports, staged, keepAll_hbm _ (confined.leaves (by decide)), keepAll_spm _ (confined.leaves (by decide)),
        q.regsBut (confined.regsBut _ (by decide))⟩
    · refine completes_nothing rfl hs ?_ fun d q => ⟨q.cores, q.slices, q.commit, q.regsBut (wrote_refl _).1⟩
      simp [commitCompleteAct, wait, slice, runs, behind]

end Sys2Proof.Machine
end

