-- ==== Sys2Proof/Proofs/Completions.lean ====
section
/-! PROOFS. Completion of operations in the units: what advances of pointers, words written and retired operations change (R197, R285–R289). -/

namespace Sys2Proof.Machine

/-! ### Sequences of acts -/

theorem runAct_onlyIf (b : Bool) (a : Act) (d : Dev) : runAct (onlyIf b a) d = if b then runAct a d else d := by
  cases b <;> rfl

theorem confines_inSequence_cons {ps : List Part} {rs : List Reg} {a : Act} {as : List Act} (ha : Confines ps rs a)
    (has : Confines ps rs (inSequence as)) : Confines ps rs (inSequence (a :: as)) := by
  intro d
  simp only [inSequence, confined_append]
  exact ⟨ha d, has _⟩

/-! ### What updates keep -/

/-- Updates that leave what `obs` reads of the module, in every state. -/
def Keeps {α : Type} (obs : Dev → α) (us : List Upd) : Prop := ∀ u ∈ us, ∀ d, obs (u.apply d) = obs d

section keeps
variable {α β : Type} {obs : Dev → α}

theorem Keeps.eq {us : List Upd} (h : Keeps obs us) (d : Dev) : obs (applyAll us d) = obs d := by
  induction us generalizing d with
  | nil => rfl
  | cons u us ih => exact (ih (fun v hv => h v (List.mem_cons_of_mem _ hv)) _).trans (h u (List.mem_cons_self ..) d)

@[simp] theorem keeps_nil : Keeps obs [] := fun _ h => nomatch h
@[simp] theorem keeps_cons (u : Upd) (us : List Upd) : Keeps obs (u :: us) ↔ (∀ d, obs (u.apply d) = obs d) ∧ Keeps obs us := by
  simp [Keeps]
@[simp] theorem keeps_append (us vs : List Upd) : Keeps obs (us ++ vs) ↔ Keeps obs us ∧ Keeps obs vs := by
  simp only [Keeps, List.mem_append, or_imp, forall_and]
@[simp] theorem keeps_ite (p : Prop) [Decidable p] (us vs : List Upd) :
    Keeps obs (if p then us else vs) ↔ (p → Keeps obs us) ∧ (¬p → Keeps obs vs) := by
  split <;> simp_all

theorem keeps_core {f : CoreSt → α} {c c' : Nat} {g : CoreSt → CoreSt} (hg : ∀ cs, f (g cs) = f cs) (d : Dev) :
    f (((Upd.core c' g).apply d).core c) = f (d.core c) := by
  rw [core_apply_core]
  split
  · subst_vars; exact hg _
  · rfl

end keeps

/-! ### Scratchpads and HBM written by lists of updates -/

/-- What a list of updates leaves in the scratchpads rests on the scratchpads alone, while none loses their contents. -/
theorem spm_congr {us : List Upd} (h : leaves .spmLost us) {d d' : Dev} (spm : d'.spm = d.spm) (lost : d'.spmLost = d.spmLost) :
    (applyAll us d').spm = (applyAll us d).spm := by
  induction us generalizing d d' with
  | nil => exact spm
  | cons u us ih =>
    obtain ⟨hu, hus⟩ := (leaves_cons _ _ _).1 h
    refine ih hus ?_ ((keep_spmLost u d' hu).trans (lost.trans (keep_spmLost u d hu).symm))
    by_cases touches : Part.spm ∈ u.touches
    · cases u with
      | spm c a bs =>
        simp only [apply_spm]
        split
        · simp only [spm, Dev.spmVeil, lost]
        · exact spm
      | loseSpm => exact absurd (by decide) hu
      | restart w => exact absurd (by simp [Part.all]) hu
      | _ => exact absurd touches (by simp)
    · rw [keep_spm u d' touches, keep_spm u d touches, spm]

/-- What a list of updates leaves in HBM rests on HBM alone, while no reset comes. -/
theorem hbm_congr {us : List Upd} (h : leaves .frozen us) {d d' : Dev} (hbm : d'.hbm = d.hbm) :
    (applyAll us d').hbm = (applyAll us d).hbm := by
  induction us generalizing d d' with
  | nil => exact hbm
  | cons u us ih =>
    obtain ⟨hu, hus⟩ := (leaves_cons _ _ _).1 h
    refine ih hus ?_
    by_cases touches : Part.hbm ∈ u.touches
    · cases u with
      | hbm a bs => simp only [apply_hbm, hbm]
      | hbmZero => rfl
      | restart w => exact absurd (by simp [Part.all]) hu
      | _ => exact absurd touches (by simp)
    · rw [keep_hbm u d' touches, keep_hbm u d touches, hbm]

/-! ### Words, pointers and marks -/

theorem confined_advancePtr (d : Dev) {ptr wrap : Fld} (c n words : Nat) (hp : ptr.reg = .SPM_REGION) (hw : wrap.reg = .SPM_REGION) :
    Confined [.regs] [.SPM_REGION] (advancePtr d ptr wrap c n words) := by
  simp [advancePtr, Upd.confined, setF, Upd.writes, hp, hw]

theorem confined_readOperand {d : Dev} {c : Nat} {op : UnitOp} {r off bytes : Nat} {consumer : Nat → Bool} {o : OpRead}
    (h : readOperand d c op r off bytes consumer = some o) : Confined [.regs] [.SPM_REGION] o.adv := by
  have head := confined_advancePtr d (ptr := F.SPM_REGION_HEAD) (wrap := F.SPM_REGION_HEAD_WRAP) c r ((bytes + 63) / 64) rfl rfl
  unfold readOperand at h
  split at h
  · obtain rfl := Option.some.inj h; exact confined_nil
  · split at h
    · dsimp only at h
      split at h
      · split at h
        · cases h
        · obtain rfl := Option.some.inj h; exact head
      · obtain rfl := Option.some.inj h; exact confined_nil
    · obtain rfl := Option.some.inj h; exact confined_nil

theorem confined_destWords {d : Dev} {c : Nat} {op : UnitOp} {r off bytes : Nat} {producer : Nat → Bool} {ws : List Nat} {adv : List Upd}
    (h : destWords d c op r off bytes producer = some (ws, adv)) : Confined [.regs] [.SPM_REGION] adv := by
  have tail := confined_advancePtr d (ptr := F.SPM_REGION_TAIL) (wrap := F.SPM_REGION_TAIL_WRAP) c r ((bytes + 63) / 64) rfl rfl
  unfold destWords at h
  split at h
  · dsimp only at h
    split at h
    · split at h
      · cases h
      · obtain ⟨-, rfl⟩ := Prod.mk.inj (Option.some.inj h); exact tail
    · obtain ⟨-, rfl⟩ := Prod.mk.inj (Option.some.inj h); exact confined_nil
  · obtain ⟨-, rfl⟩ := Prod.mk.inj (Option.some.inj h); exact confined_nil

theorem confined_writeWords (c : Nat) (ws : List Nat) (bs : List Byte) (marks : List Nat) :
    Confined [.spm, .spmMarks, .spmParity] [] (writeWords c ws bs marks) := by
  unfold writeWords
  simp only [confined_ite, confined_nil, confined_append, confined_map, confined_cons, and_true, implies_true, true_and]
  exact fun _ => ⟨fun _ _ => rfl, rfl, rfl⟩

theorem confined_failMarks (i t : Nat) (marks : List Nat) : Confined [.slices] [] (failMarks i t marks) := by
  unfold failMarks
  simp only [confined_map]
  intro m _
  split <;> rfl

/-- What bad-marked data fails on a core: the items of its slice's step. -/
theorem confined_coreFails (o : Option Nat) (t : Nat) (marks : List Nat) : Confined [.slices] []
    (match o with | some i => failMarks i t marks | none => []) := by
  cases o with
  | none => exact confined_nil
  | some i => exact confined_failMarks i t marks

/-! ### Retired operations -/

theorem unwindLoops_out (n : Nat) (x : ThreadCtx) : (unwindLoops n x).out = x.out := by
  induction n generalizing x with
  | zero => rfl
  | succ n ih =>
    unfold unwindLoops
    split
    · rfl
    · split
      · split
        · rfl
        · rw [ih]
      · rfl

theorem startCues_out (cues : List (BitVec 128)) (n : Nat) (x : ThreadCtx) : (startCues cues n x).out = x.out := by
  induction n generalizing x with
  | zero => rfl
  | succ n ih =>
    unfold startCues
    split
    · split
      · rw [ih]
      · rfl
    · split
      · rfl
      · split <;> rw [ih]

theorem settle_out (cues : List (BitVec 128)) (x : ThreadCtx) : (settle cues x).out = x.out := by
  rw [settle, startCues_out, unwindLoops_out]

/-- An operation is under way no longer: it is in no queue of the arrays or the thin path, and its context does not hold it. -/
def Retired (op : UnitOp) (cs : CoreSt) : Prop :=
  (∀ o ∈ cs.tileQ ++ cs.thinQ, o.id ≠ op.id) ∧ ∀ o ∈ (cs.ctx op.ctx).out, o.id ≠ op.id

theorem Retired.of_same {op : UnitOp} {cs cs' : CoreSt} (h : Retired op cs) (tile : cs'.tileQ = cs.tileQ) (thin : cs'.thinQ = cs.thinQ)
    (ctxs : cs'.ctxs = cs.ctxs) : Retired op cs' := by
  simpa only [Retired, CoreSt.ctx, tile, thin, ctxs] using h

theorem confines_retireOp (c : Nat) (op : UnitOp) : Confines [.cores] [] (retireOp c op) := by
  refine Confines.inSequence fun a ha => ?_
  simp only [List.mem_cons, List.not_mem_nil, or_false] at ha
  rcases ha with rfl | rfl
  · exact fun _ => by simp only [confined_cons, confined_nil, and_true]; rfl
  · exact fun _ => by simp only [completeOp, confined_cons, confined_nil, and_true]; rfl

theorem retired_retireOp (c : Nat) (op : UnitOp) (d : Dev) : Retired op ((runAct (retireOp c op) d).core c) := by
  simp only [retireOp, runAct_inSequence_cons, runAct_inSequence_nil, runAct_list, applyAll_cons, applyAll_nil]
  rw [runAct_eq, completeOp, applyAll_cons, applyAll_nil, ctxUpd, core_apply_same, core_apply_same]
  refine ⟨fun o ho => ?_, fun o ho => ?_⟩
  · rcases List.mem_append.1 ho with ho | ho
    · simpa using (List.mem_filter.1 ho).2
    · simpa using (List.mem_filter.1 ho).2
  · rw [ctx_onCtx, settle_out] at ho
    simpa using (List.mem_filter.1 ho).2

/-! ### What the arrays count and become -/

/-- The registers in which the units of a core count their work. -/
def unitRegs : List Reg := [.CORE_TILES, .CORE_THIN, .CORE_BUBBLE_A, .CORE_BUBBLE_B, .CORE_STATUS]

theorem confines_arrayDone (c : Nat) (g : Geom) (t : TileFields) (b : Bool) : Confines [.regs, .cores] unitRegs (arrayDone c g t b) := by
  intro d
  unfold arrayDone
  simp only [confined_ite, confined_nil, confined_append, confined_cons, and_true, implies_true, true_and]
  refine fun _ => ⟨?_, fun _ => rfl⟩
  cases b <;> exact ⟨rfl, rfl, rfl⟩

theorem confines_idleArray (c : Nat) (b : Bool) : Confines [.regs, .cores] unitRegs (idleArray c b) := by
  intro d
  unfold idleArray
  simp only [confined_ite, confined_nil, confined_append, confined_cons, and_true, implies_true, true_and]
  cases b <;> exact fun _ => ⟨⟨rfl, rfl⟩, fun _ => ⟨rfl, rfl⟩, fun _ => rfl⟩

theorem keeps_idleArray {α : Type} {f : CoreSt → α} (hA : ∀ cs v, f { cs with dummyA := v } = f cs)
    (hB : ∀ cs v, f { cs with dummyB := v } = f cs) (c : Nat) (b : Bool) (d : Dev) : Keeps (fun d => f (d.core c)) (idleArray c b d) := by
  unfold idleArray
  simp only [keeps_ite, keeps_nil, keeps_append, keeps_cons, and_true, implies_true, true_and]
  refine fun _ => ⟨⟨fun _ => rfl, fun _ => rfl⟩, fun _ => ⟨fun _ => rfl, keeps_core fun cs => ?_⟩, fun _ _ => rfl⟩
  cases b
  · exact hA cs _
  · exact hB cs _

/-- An array that idles keeps an operation retired. -/
theorem retired_idleArrays {op : UnitOp} {c : Nat} {d : Dev} (h : Retired op (d.core c)) : Retired op
    ((runAct (fun d => if (d.core c).tileQ.isEmpty then inSequence [idleArray c false, idleArray c true] d else []) d).core c) := by
  have kept (b : Bool) (d : Dev) : Retired op ((applyAll (idleArray c b d) d).core c) = Retired op (d.core c) :=
    (keeps_idleArray (f := Retired op) (fun _ _ => rfl) (fun _ _ => rfl) c b d).eq d
  rw [runAct_eq]
  split
  · rw [applyAll_inSequence_cons, applyAll_inSequence_cons, applyAll_inSequence_nil, kept, kept]
    exact h
  · exact h

theorem coreDraw_of_same {d d' : Dev} (cores : d'.cores = d.cores) (rings : d'.rings = d.rings) (lib : d'.schedLib = d.schedLib) (c : Nat)
    (f : Firing) (b : Nat) (stoch : Bool) : d'.coreDraw c f b stoch = d.coreDraw c f b stoch := by
  have prog : d'.liveProg c = d.liveProg c := by simp only [Dev.liveProg, Dev.core, Dev.schedOf, cores, lib]
  funext i
  simp only [Dev.coreDraw, Dev.coreSeed, Dev.logicalCtx, Dev.cues, prog, core_of_cores cores, ring_of_rings rings]

theorem confines_idleArrays (c : Nat) : Confines [.regs, .cores] unitRegs fun d =>
    if (d.core c).tileQ.isEmpty then inSequence [idleArray c false, idleArray c true] d else [] := by
  intro d
  simp only [confined_ite, confined_nil, implies_true, and_true]
  exact fun _ => confines_inSequence_cons (confines_idleArray c false) (confines_inSequence_cons (confines_idleArray c true) Confines.nil) d

/-! ### TILE on completion -/

/-- What a TILE does behind its output: its sums are kept or discarded, it is counted, and it leaves its unit. -/
def tileEnd (c : Nat) (g : Geom) (op : UnitOp) (unit : TileUnit) (sums : List (Option Val)) : List Act :=
  let t := tileFields op.word
  [fun _ => [keepSums c op t sums],
    onlyIf (unit = .thin) (fun _ => [addF F.CORE_THIN_THIN_OPS c 1]),
    onlyIf (unit = .arrays) (inSequence [arrayDone c g t false, arrayDone c g t true]),
    retireOp c op,
    onlyIf (unit = .arrays) (fun d => if (d.core c).tileQ.isEmpty then inSequence [idleArray c false, idleArray c true] d else [])]

theorem confines_tileEnd (c : Nat) (g : Geom) (op : UnitOp) (unit : TileUnit) (sums : List (Option Val)) :
    Confines [.regs, .cores] unitRegs (inSequence (tileEnd c g op unit sums)) := by
  refine Confines.inSequence ?_
  simp only [tileEnd, List.mem_cons, List.not_mem_nil, or_false, forall_eq_or_imp, forall_eq]
  refine ⟨fun _ => ?_, Confines.onlyIf fun _ => ?_, ?_, (confines_retireOp c op).mono (by decide) (by decide),
    (confines_idleArrays c).onlyIf⟩
  · simp only [confined_cons, confined_nil, and_true]; rfl
  · simp only [confined_cons, confined_nil, and_true]; rfl
  · exact Confines.onlyIf fun d => confines_inSequence_cons (confines_arrayDone c g _ false)
      (confines_inSequence_cons (confines_arrayDone c g _ true) Confines.nil) d

/-- An operation whose completion ends is retired; on the thin path it is counted. -/
theorem tileEnd_reads (c : Nat) (g : Geom) (op : UnitOp) (unit : TileUnit) (sums : List (Option Val)) (d d' : Dev)
    (hd : runAct (inSequence (tileEnd c g op unit sums)) d = d') : Retired op (d'.core c) ∧
    (unit = .thin → d'.fld F.CORE_THIN_THIN_OPS c = (d.fld F.CORE_THIN_THIN_OPS c + 1) % 2 ^ 32) := by
  simp only [tileEnd, runAct_inSequence_cons, runAct_inSequence_nil, runAct_list, applyAll_cons, applyAll_nil] at hd
  refine ⟨?_, fun thin => ?_⟩
  · generalize runAct (onlyIf (unit = .arrays) (inSequence [arrayDone c g _ false, arrayDone c g _ true])) _ = d3 at hd
    rw [← hd, runAct_onlyIf]
    split
    · exact retired_idleArrays (retired_retireOp c op d3)
    · exact retired_retireOp c op d3
  · subst thin
    simp only [runAct_onlyIf, reduceCtorEq, decide_false, decide_true, if_true, Bool.false_eq_true, if_false, runAct_list, applyAll_cons,
      applyAll_nil] at hd
    rw [← hd, runAct_eq, (confines_retireOp c op _).fld _ (by decide), fld_addF]
    rfl

/-- What a TILE does behind its parity check, with what its operands gave: the output is packed from the draws of the core. -/
def tileActs (c : Nat) (g : Geom) (op : UnitOp) (unit : TileUnit) (adv oadv : List Upd) (ows marks : List Nat)
    (sums : List (Option Val)) (out : (Nat → Option Nat) → List Byte) : List Act :=
  let t := tileFields op.word
  (fun _ => adv) ::
    onlyIf (!t.hold) (fun d => oadv ++ writeWords c ows (out (d.coreDraw c op.firing op.draw (arithOf t.arith).stoch)) marks) ::
    tileEnd c g op unit sums

section tile
variable (c : Nat) (g : Geom) (op : UnitOp) (unit : TileUnit) {adv oadv : List Upd} (ows marks : List Nat) (sums : List (Option Val))
  (out : (Nat → Option Nat) → List Byte) (hadv : Confined [.slices, .regs] [.SPM_REGION] adv) (hoadv : Confined [.regs] [.SPM_REGION] oadv)
include hadv hoadv

theorem confines_tileActs : Confines [.slices, .regs, .spm, .spmMarks, .spmParity, .cores] (.SPM_REGION :: unitRegs)
    (inSequence (tileActs c g op unit adv oadv ows marks sums out)) := by
  refine confines_inSequence_cons (fun _ => hadv.mono (by decide) (by decide)) (confines_inSequence_cons (Confines.onlyIf fun d => ?_) ?_)
  · rw [confined_append]
    exact ⟨hoadv.mono (by decide) (by decide), (confined_writeWords c ows _ marks).mono (by decide) (List.nil_subset _)⟩
  · exact (confines_tileEnd c g op unit sums).mono (by decide) (by decide)

/-- A completed TILE has written its output where HOLD is clear, is retired, and is counted on the thin path. -/
theorem tileActs_reads (d d' : Dev) (hd : runAct (inSequence (tileActs c g op unit adv oadv ows marks sums out)) d = d') :
    d'.spm = (if (tileFields op.word).hold then d.spm else
      (applyAll (writeWords c ows (out (d.coreDraw c op.firing op.draw (arithOf (tileFields op.word).arith).stoch)) marks) d).spm) ∧
    Retired op (d'.core c) ∧
    (unit = .thin → d'.fld F.CORE_THIN_THIN_OPS c = (d.fld F.CORE_THIN_THIN_OPS c + 1) % 2 ^ 32) := by
  rw [tileActs, runAct_inSequence_cons, runAct_list, runAct_inSequence_cons, runAct_onlyIf] at hd
  have spm1 : (applyAll adv d).spm = d.spm := keepAll_spm d (hadv.leaves (by decide))
  have draw := coreDraw_of_same (keepAll_cores d (hadv.leaves (by decide))) (keepAll_rings d (hadv.leaves (by decide)))
    (keepAll_schedLib d (hadv.leaves (by decide))) c op.firing op.draw (arithOf (tileFields op.word).arith).stoch
  have lost1 : (applyAll adv d).spmLost = d.spmLost := keepAll_spmLost d (hadv.leaves (by decide))
  have count1 : (applyAll adv d).fld F.CORE_THIN_THIN_OPS c = d.fld F.CORE_THIN_THIN_OPS c := hadv.fld d (by decide) c
  generalize applyAll adv d = d1 at hd spm1 draw lost1 count1
  have writes (bs : List Byte) := confined_writeWords c ows bs marks
  have stage : ∀ d2, (if (!(tileFields op.word).hold) = true then runAct (fun d => oadv ++ writeWords c ows
      (out (d.coreDraw c op.firing op.draw (arithOf (tileFields op.word).arith).stoch)) marks) d1 else d1) = d2 →
      d2.spm = (if (tileFields op.word).hold then d.spm else
        (applyAll (writeWords c ows (out (d.coreDraw c op.firing op.draw (arithOf (tileFields op.word).arith).stoch)) marks) d).spm) ∧
      d2.fld F.CORE_THIN_THIN_OPS c = d.fld F.CORE_THIN_THIN_OPS c := by
    rintro d2 rfl
    cases (tileFields op.word).hold
    · simp only [Bool.not_false, if_true, Bool.false_eq_true, if_false]
      rw [runAct_eq, applyAll_append, draw]
      refine ⟨spm_congr ((writes _).leaves (by decide)) ?_ ?_, ?_⟩
      · exact (keepAll_spm d1 (hoadv.leaves (by decide))).trans spm1
      · exact (keepAll_spmLost d1 (hoadv.leaves (by decide))).trans lost1
      · rw [(writes _).fld _ (by decide), hoadv.fld _ (by decide), count1]
    · simp only [Bool.not_true, if_true, Bool.false_eq_true, if_false]
      exact ⟨spm1, count1⟩
  generalize output : (if (!(tileFields op.word).hold) = true then runAct _ d1 else d1) = d2 at hd
  obtain ⟨spm2, count2⟩ := stage d2 output
  obtain ⟨retired, counted⟩ := tileEnd_reads c g op unit sums d2 d' hd
  refine ⟨?_, retired, fun thin => (counted thin).trans (by rw [count2])⟩
  rw [← hd, runAct_eq, keepAll_spm d2 ((confines_tileEnd c g op unit sums d2).leaves (by decide)), spm2]

end tile

/-- Settles O8: behind its parity check a TILE does `tileActs`. -/
theorem tileCompletes : Obligations.TileCompletes := by
  intro s c thin op rest rx rw rc ows oadv hs queue fold t a p unit hx hw hc ho parity dat sums out
  have confX := confined_readOperand hx
  have confW := confined_readOperand hw
  have confC := confined_readOperand hc
  have confO := confined_destWords ho
  let marks := s.dev.marksOf c (rx.ws ++ rw.ws ++ rc.ws)
  let terns := ternBad t.xfmt rx.bs 52 || ternBad t.wfmt rw.bs (tileWords t * 64) || ternBad t.cfmt rc.bs 52
  let fails := match s.dev.coreSlice c with
    | some i => failMarks i op.firing.step (if terns then marks ++ [0] else marks)
    | none => []
  have adv : Confined [.slices, .regs] [.SPM_REGION] (fails ++ rx.adv ++ rw.adv ++ rc.adv) := by
    simp only [confined_append]
    exact ⟨⟨⟨(confined_coreFails _ _ _).mono (by decide) (by decide), confX.mono (by decide) (by decide)⟩,
      confW.mono (by decide) (by decide)⟩, confC.mono (by decide) (by decide)⟩
  let acts := tileActs c (s.dev.geom c) op unit (fails ++ rx.adv ++ rw.adv ++ rc.adv) oadv ows marks sums
    fun draw => packMat t.ofmt t.sclO a t.m t.n draw (tileOut t op dat sums)
  have act : tileCompleteAct c thin s.dev = inSequence acts s.dev := by
    have src : (if unit = .vector then vecEngine else tileEngine) = tileEngine := by cases thin <;> rfl
    simp only [tileCompleteAct, queue, fold, Bool.false_eq_true, if_false]
    change runTile c op unit s.dev = _
    unfold runTile
    simp only [src, t, p] at hx hw hc ho ⊢
    rw [hx, hw, hc, ho]
    simp only [withParity, parity]
    rfl
  have confined := confines_tileActs c (s.dev.geom c) op unit ows marks sums
    (fun draw => packMat t.ofmt t.sclO a t.m t.n draw (tileOut t op dat sums)) adv confO s.dev
  refine completes_act rfl hs (act ▸ confined) (by decide) fun d q => ?_
  rw [act] at q
  obtain ⟨spm, ⟨queues, held⟩, counted⟩ := tileActs_reads c (s.dev.geom c) op unit ows marks sums
    (fun draw => packMat t.ofmt t.sclO a t.m t.n draw (tileOut t op dat sums)) adv confO s.dev _ rfl
  rw [q.core, q.spm, q.hbm]
  refine ⟨spm, keepAll_hbm _ (confined.leaves (by decide)), queues, held, fun h => (q.fld rfl c).trans (counted ?_)⟩
  exact if_pos h

end Sys2Proof.Machine
end

