-- ==== Sys2Proof/Proofs/Waits.lean ====
section
/-! PROOFS. Waits: SYNCWAIT at issue, QUEUE transfers and SWAPs that wait, the regulator, and the blocks of a multicast
(R198, R243, R244, R252–R257, R292, R324). -/

namespace Sys2Proof.Machine

/-- Updates that leave the cores keep what is read of them. -/
theorem Confined.keeps_core {ps : List Part} {rs : List Reg} {us : List Upd} (h : Confined ps rs us) (hp : Part.cores ∉ ps)
    {α : Type} (f : CoreSt → α) {c : Nat} : Keeps (fun d => f (d.core c)) us := fun u hu d =>
  congrArg f (core_of_cores (keep_cores u d (h.leaves hp u hu)) c)

/-! ### SYNCWAIT -/

/-- The context that falls asleep, as the core keeps it (R299). -/
def asleepCore (d : Dev) (c n : Nat) (obj : WaitObj) (due : Bool) : CoreSt :=
  { d.passed c n (fun y => { y with st := .sleeping, wait := some ⟨obj, (d.core c).opCount, due, d.now, false⟩ }) with
    opCount := (d.core c).opCount + 1 }

/-- The monitor of an HBM word takes the context that waits on it while it has an entry free (R324). -/
def armMonitor (d : Dev) (c n : Nat) (l : SyncLoc) : List Upd :=
  match l with
  | .hbm a =>
    if (d.chan (channelOf a)).monitors.length < 64 then
      [.chan (channelOf a) fun ch => { ch with monitors := ch.monitors ++ [(c, n)] }] else []
  | .spm _ _ => []

theorem confined_armMonitor (d : Dev) (c n : Nat) (l : SyncLoc) : Confined [.chans] [] (armMonitor d c n l) := by
  unfold armMonitor
  split
  · simp only [confined_ite, confined_cons, confined_nil, and_true, implies_true]
    exact fun _ => rfl
  · exact confined_nil

theorem confined_sleepOn (d : Dev) (c n : Nat) (obj : WaitObj) (due : Bool) : Confined [.regs, .cores] [.SEQ_ISSUE] (sleepOn d c n obj due) := by
  simp only [sleepOn, stepPast, List.cons_append, List.nil_append, confined_cons, confined_nil, and_true]
  exact ⟨rfl, rfl, rfl⟩

/-- A monitor with an entry free holds the context; a full one is left. -/
theorem armMonitor_reads {c n a : Nat} {d d' : Dev} (chans : d'.chans = d.chans) :
    ((d.chan (channelOf a)).monitors.length < 64 →
      (c, n) ∈ ((applyAll (armMonitor d c n (.hbm a)) d').chan (channelOf a)).monitors) ∧
    (64 ≤ (d.chan (channelOf a)).monitors.length → (applyAll (armMonitor d c n (.hbm a)) d').chans = d.chans) := by
  refine ⟨fun free => ?_, fun full => ?_⟩
  · rw [armMonitor, if_pos free, applyAll_cons, applyAll_nil, chan_apply_same]
    simp
  · rw [armMonitor, if_neg (Nat.not_lt.2 full), applyAll_nil, chans]

/-- An issue whose updates are known and discard no packet. -/
theorem issue_confined {k : OpKind} {c n : Nat} {f : BitVec 128 → ThreadCtx → Firing → Act} {s : State} {w : BitVec 128} {x : ThreadCtx}
    {fi : Firing} {i : Instr} {us : List Upd} {ps : List Part} {rs : List Reg} {P : Dev → Prop}
    (he : exec i s = perform (onPower (issue k c n f)) s) (hs : s.dev.steady) (h : s.dev.AtOp c n k w x fi)
    (hf : f w x fi s.dev = us) (hc : Confined ps rs us) (route : Part.route ∉ ps)
    (hP : ∀ d, Quiet (applyAll us s.dev) d → P d) : Completes i s P := by
  subst hf
  exact issue_is he hs h ((congrArg RouteSt.lost (keepAll_route _ (hc.leaves route))).trans hs.2) hP

/-- Settles O11: a met wait is `stepPast`, and an unmet one `sleepOn` with its count and its monitor entry. -/
theorem syncwaitActs : Obligations.SyncwaitActs := by
  intro s c n w x fi i hs h slice room l met wait
  have ready : ¬ (!syncRoom (s.dev.core c)) = true := by rw [room]; decide
  refine ⟨fun hm => issue_completes rfl hs h ?_ (lt_copies c), fun hm => ?_⟩
  · simp only [slice]
    exact (if_neg ready).trans (if_pos hm)
  have confS := confined_sleepOn s.dev c n wait.obj wait.due
  have confM := confined_armMonitor s.dev c n l
  have confined : Confined [.regs, .cores, .chans] [.SEQ_ISSUE, .SYNC_WAIT]
      (sleepOn s.dev c n wait.obj wait.due ++ [addF F.SYNC_WAIT_SLEEPS 0 1] ++ armMonitor s.dev c n l) := by
    simp only [confined_append, confined_cons, confined_nil, and_true]
    exact ⟨⟨confS.mono (by decide) (by decide), rfl⟩, confM.mono (by decide) (by decide)⟩
  refine issue_confined rfl hs h (us := sleepOn s.dev c n wait.obj wait.due ++ [addF F.SYNC_WAIT_SLEEPS 0 1] ++ armMonitor s.dev c n l)
    (ps := [.regs, .cores, .chans]) (rs := [.SEQ_ISSUE, .SYNC_WAIT]) ?act ?confined (by decide) fun d q => ?reads
  case act =>
    simp only [slice]
    exact (if_neg ready).trans (if_neg (ne_true_of_eq_false hm))
  case confined => exact confined
  case reads =>
    have issued := issued_sleepOn s.dev c n wait.obj wait.due (lt_copies c)
    have count : (applyAll (sleepOn s.dev c n wait.obj wait.due) s.dev).fld F.SYNC_WAIT_SLEEPS 0 = s.dev.fld F.SYNC_WAIT_SLEEPS 0 :=
      confS.fld _ (by decide) 0
    have chans : (applyAll (sleepOn s.dev c n wait.obj wait.due) s.dev).chans = s.dev.chans := keepAll_chans _ (confS.leaves (by decide))
    have regs := q.regsBut (confined.regsBut s.dev (rs' := [.SEQ_ISSUE, .SYNC_WAIT]) (by decide))
    have memory := And.intro (q.spm.trans (keepAll_spm s.dev (confined.leaves (by decide))))
      (q.hbm.trans (keepAll_hbm s.dev (confined.leaves (by decide))))
    rw [applyAll_append, applyAll_append, applyAll_cons, applyAll_nil] at q
    generalize applyAll (sleepOn s.dev c n wait.obj wait.due) s.dev = d1 at q issued count chans
    have monitors (a : Nat) := armMonitor_reads (c := c) (n := n) (a := a) (d := s.dev)
      ((keep_chans (addF F.SYNC_WAIT_SLEEPS 0 1) d1 (by decide)).trans chans)
    refine ⟨?_, ?_, regs, memory.1, memory.2, fun a hl => ?_, fun a hl full => ?_⟩
    · rw [q.core, confM.core _ (by decide), core_of_cores (keep_cores (addF F.SYNC_WAIT_SLEEPS 0 1) d1 (by decide))]
      exact issued.core
    · rw [q.fld rfl, confM.fld _ (by decide), fld_addF, count]
      rfl
    · rw [q.chan, hl]
      exact (monitors a).1
    · rw [q.chans, hl]
      exact (monitors a).2 full

/-! ### Transfers as they stand -/

theorem core_addF (f : Fld) (i n : Nat) (d : Dev) (c : Nat) : ((addF f i n).apply d).core c = d.core c := rfl
theorem fld_core (c : Nat) (g : CoreSt → CoreSt) (d : Dev) (f : Fld) (i : Nat) : ((Upd.core c g).apply d).fld f i = d.fld f i := rfl

/-- How far the transfer that an engine serves has moved, and its runs. -/
def standing (e : Engine) (cs : CoreSt) : Option (Nat × List Run) := (cs.engine e).xfer.map fun t => (t.moved, t.runs)

theorem standing_onEngine (e : Engine) (g : EngineSt → EngineSt) (cs : CoreSt) :
    standing e (onEngine e g cs) = (g (cs.engine e)).xfer.map fun t => (t.moved, t.runs) := by
  rw [standing, engine_onEngine]

/-- A transfer that stands somewhere. -/
theorem exists_of_standing {e : Engine} {cs : CoreSt} {m : Nat} {rs : List Run} (h : standing e cs = some (m, rs)) :
    ∃ t : Xfer, (cs.engine e).xfer = some t ∧ t.moved = m ∧ t.runs = rs := by
  obtain ⟨t, ht, e⟩ := Option.map_eq_some_iff.1 h
  obtain ⟨rfl, rfl⟩ := Prod.mk.inj e
  exact ⟨t, ht, rfl, rfl⟩

theorem confined_endSpaceWait (d : Dev) (c : Nat) (e : Engine) (t : Xfer) :
    Confined [.regs, .cores] [.STREAM_STALL] (endSpaceWait d c e t) := by
  unfold endSpaceWait
  split
  · simp only [confined_cons, confined_nil, and_true]
    exact ⟨rfl, rfl⟩
  · exact confined_nil

/-- The end of a wait for space leaves the transfer where it stands. -/
theorem keeps_endSpaceWait (d : Dev) (c c' : Nat) (e : Engine) (t : Xfer) :
    Keeps (fun d => standing e (d.core c')) (endSpaceWait d c e t) := by
  unfold endSpaceWait
  split
  · simp only [keeps_cons, keeps_nil, and_true]
    refine ⟨fun _ => rfl, keeps_core fun cs => ?_⟩
    rw [standing_onEngine, standing, Option.map_map]
    rfl
  · exact keeps_nil

theorem confined_putString (c : Nat) (ws : List Nat) (ps : List Piece) (off n : Nat) :
    Confined [.spm, .spmMarks, .spmParity] [] (putString c ws ps off n) := by
  unfold putString
  simp only [confined_append, confined_ite, confined_nil, confined_cons, and_true, implies_true, true_and]
  exact ⟨confined_writeWords _ _ _ _, fun _ => rfl⟩

/-- The words of its region that the next bytes of a fetch go to (R242, R243). -/
def fetchWords (d : Dev) (c : Nat) (a : Arm) (x : Desc) (t : Xfer) (n : Nat) : List Nat :=
  match x.buf with
  | .queue => stringWords d c x a n
  | _ => (stringWords d c x a (t.moved + n)).drop (t.moved / 64)

/-- The bookkeeping of a fetch: the tail of a QUEUE, the words counted, the transfer moved on. -/
def fetchCounts (d : Dev) (c : Nat) (e : Engine) (x : Desc) (n : Nat) : List Upd :=
  (if x.buf = .queue then advanceTail d c x.region ((n + 63) / 64) else []) ++
    [addF F.STREAM_WORDS_FETCHED c ((n + 63) / 64), moveOn c e n]

theorem fetchMove_eq (c : Nat) (e : Engine) (a : Arm) (x : Desc) (t : Xfer) (ps : List Piece) (n : Nat) (d : Dev) :
    fetchMove c e a x t ps n d =
      endSpaceWait d c e t ++ putString c (fetchWords d c a x t n) ps t.moved n ++ fetchCounts d c e x n := by
  rw [fetchCounts, ← List.append_assoc]
  rfl

theorem confined_tailAdvance (d : Dev) (c n : Nat) (x : Desc) :
    Confined [.regs] [.SPM_REGION] (if x.buf = .queue then advanceTail d c x.region n else []) := by
  simp only [confined_ite, confined_nil, implies_true, and_true]
  exact fun _ => confined_advancePtr d c _ _ rfl rfl

theorem confined_fetchCounts (d : Dev) (c : Nat) (e : Engine) (x : Desc) (n : Nat) :
    Confined [.regs, .cores] [.SPM_REGION, .STREAM_WORDS] (fetchCounts d c e x n) := by
  simp only [fetchCounts, confined_append, confined_cons, confined_nil, and_true]
  exact ⟨(confined_tailAdvance d c _ x).mono (by decide) (by decide), rfl, rfl⟩

theorem confines_fetchMove (c : Nat) (e : Engine) (a : Arm) (x : Desc) (t : Xfer) (ps : List Piece) (n : Nat) :
    Confines [.regs, .cores, .spm, .spmMarks, .spmParity] [.STREAM_STALL, .SPM_REGION, .STREAM_WORDS] (fetchMove c e a x t ps n) := by
  intro d
  simp only [fetchMove_eq, confined_append]
  exact ⟨⟨(confined_endSpaceWait d c e t).mono (by decide) (by decide),
    (confined_putString c _ ps t.moved n).mono (by decide) (by decide)⟩, (confined_fetchCounts d c e x n).mono (by decide) (by decide)⟩

/-- A fetch has moved on by the bytes it wrote. -/
theorem standing_fetchMove (c : Nat) (e : Engine) (a : Arm) (x : Desc) (t : Xfer) (ps : List Piece) (n : Nat) (d : Dev) :
    standing e ((applyAll (fetchMove c e a x t ps n d) d).core c) = (standing e (d.core c)).map fun m => (m.1 + n, m.2) := by
  rw [fetchMove_eq, fetchCounts]
  simp only [applyAll_append, applyAll_cons, applyAll_nil]
  rw [moveOn, core_apply_same, standing_onEngine, Option.map_map, core_addF,
    (confined_tailAdvance d c _ x).core _ (by decide), (confined_putString c _ ps _ n).core _ (by decide),
    ← (keeps_endSpaceWait d c c e t).eq d, standing, Option.map_map]
  rfl

theorem keeps_core_other {c c' : Nat} (h : c' ≠ c) (g : CoreSt → CoreSt) (d : Dev) : ((Upd.core c g).apply d).core c' = d.core c' :=
  (core_apply_core d c c' g).trans (if_neg h)

/-- The other cores are as before. -/
theorem core_fetchMove_other {c c' : Nat} (h : c' ≠ c) (e : Engine) (a : Arm) (x : Desc) (t : Xfer) (ps : List Piece) (n : Nat) (d : Dev) :
    (applyAll (fetchMove c e a x t ps n d) d).core c' = d.core c' := by
  have wait : Keeps (fun d => d.core c') (endSpaceWait d c e t) := by
    unfold endSpaceWait
    split
    · simp only [keeps_cons, keeps_nil, and_true]
      exact ⟨fun d => core_addF _ _ _ d c', keeps_core_other h _⟩
    · exact keeps_nil
  rw [fetchMove_eq, fetchCounts]
  simp only [applyAll_append, applyAll_cons, applyAll_nil]
  rw [moveOn, keeps_core_other h, core_addF,
    (confined_tailAdvance d c _ x).core _ (by decide), (confined_putString c _ ps _ n).core _ (by decide)]
  exact wait.eq d

/-- A fetch writes its bytes into the words of its region, and counts them. -/
theorem fetchMove_writes (c : Nat) (e : Engine) (a : Arm) (x : Desc) (t : Xfer) (ps : List Piece) (n : Nat) (d : Dev) :
    (applyAll (fetchMove c e a x t ps n d) d).spm = (applyAll (putString c (fetchWords d c a x t n) ps t.moved n) d).spm ∧
    (applyAll (fetchMove c e a x t ps n d) d).fld F.STREAM_WORDS_FETCHED c =
      (d.fld F.STREAM_WORDS_FETCHED c + (n + 63) / 64) % 2 ^ 32 := by
  have wait := confined_endSpaceWait d c e t
  have put := confined_putString c (fetchWords d c a x t n) ps t.moved n
  rw [fetchMove_eq, applyAll_append, applyAll_append]
  constructor
  · rw [keepAll_spm _ ((confined_fetchCounts d c e x n).leaves (by decide))]
    exact spm_congr (put.leaves (by decide)) (keepAll_spm d (wait.leaves (by decide))) (keepAll_spmLost d (wait.leaves (by decide)))
  · have before : (applyAll (putString c (fetchWords d c a x t n) ps t.moved n) (applyAll (endSpaceWait d c e t) d)).fld
        F.STREAM_WORDS_FETCHED c = d.fld F.STREAM_WORDS_FETCHED c := by
      rw [put.fld _ (by decide), wait.fld _ (by decide)]
    generalize applyAll (putString c _ ps t.moved n) _ = d1 at before
    simp only [fetchCounts, applyAll_append, applyAll_cons, applyAll_nil]
    rw [moveOn, fld_core, fld_addF, (confined_tailAdvance d c _ x).fld _ (by decide), before]
    rfl

/-! ### QUEUE transfers that wait -/

/-- A QUEUE transfer whose string is not through waits for its region, and its wait is timed (R198, R266). -/
def waitMore (c : Nat) (e : Engine) (n left : Nat) : Act := fun d =>
  if n < left then
    [Upd.core c (onEngine e fun en => { en with xfer := en.xfer.map fun t =>
      { t with waitFrom := if t.waitFrom.isSome then t.waitFrom else some d.now } })]
  else []

theorem serveQueue_fetch {d : Dev} {c i : Nat} {e : Engine} {a : Arm} {t : Xfer} {x : Desc} (h : inService d c e = some (a, t, x))
    (fetch : x.drain = false) : serveQueue c i e d =
      if (decide (queueBytes d c x t = 0) || decide (queueBytes d c x t = stringBytes d x t.runs - t.moved)) = true then
        waitMore c e (queueBytes d c x t) (stringBytes d x t.runs - t.moved) d
      else inSequence [fetchMove c e a x t (fetchString d x t.runs) (queueBytes d c x t),
        waitMore c e (queueBytes d c x t) (stringBytes d x t.runs - t.moved)] d := by
  simp only [serveQueue, h, fetch, Bool.false_eq_true, if_false]
  rfl

theorem confines_waitMore (c : Nat) (e : Engine) (n left : Nat) : Confines [.cores] [] (waitMore c e n left) := by
  intro d
  simp only [waitMore, confined_ite, confined_cons, confined_nil, and_true, implies_true]
  exact fun _ => rfl

theorem keeps_waitMore (c c' : Nat) (e : Engine) (n left : Nat) (d : Dev) :
    Keeps (fun d => standing e (d.core c')) (waitMore c e n left d) := by
  simp only [waitMore, keeps_ite, keeps_cons, keeps_nil, and_true, implies_true]
  refine fun _ => keeps_core fun cs => ?_
  rw [standing_onEngine, standing, Option.map_map]
  rfl

/-- What an engine serves. -/
theorem inService_eq {d : Dev} {c : Nat} {e : Engine} {a : Arm} {t : Xfer} {x : Desc} (h : inService d c e = some (a, t, x)) :
    (∃ rest, (d.core c).engine e = ⟨a :: rest, some t⟩) ∧ d.desc c a.stream = some x := by
  unfold inService at h
  split at h
  · obtain ⟨x', hx, e⟩ := Option.map_eq_some_iff.1 h
    obtain ⟨rfl, rfl, rfl⟩ := e
    exact ⟨⟨_, ‹_›⟩, hx⟩
  · cases h

theorem standing_inService {d : Dev} {c : Nat} {e : Engine} {a : Arm} {t : Xfer} {x : Desc} (h : inService d c e = some (a, t, x)) :
    standing e (d.core c) = some (t.moved, t.runs) := by
  obtain ⟨⟨rest, he⟩, -⟩ := inService_eq h
  rw [standing, he]
  rfl

/-- A transfer that waits for its region has its wait timed, and stands where it stood. -/
theorem waitMore_times {d : Dev} {c : Nat} {e : Engine} {a : Arm} {t : Xfer} {x : Desc} (h : inService d c e = some (a, t, x))
    {left : Nat} (more : left ≠ 0) : ∃ t' : Xfer, ((((applyAll (waitMore c e 0 left d) d).core c)).engine e).xfer = some t' ∧
      t'.moved = t.moved ∧ t'.waitFrom.isSome = true := by
  obtain ⟨⟨rest, he⟩, -⟩ := inService_eq h
  refine ⟨{ t with waitFrom := if t.waitFrom.isSome then t.waitFrom else some d.now }, ?_, rfl, ?_⟩
  · rw [waitMore, if_pos (Nat.pos_of_ne_zero more), applyAll_cons, applyAll_nil, core_apply_same, engine_onEngine, he]
    rfl
  · by_cases waits : t.waitFrom.isSome = true <;> simp [waits]

theorem confines_serveFetch {c : Nat} {e : Engine} {a : Arm} {x : Desc} {t : Xfer} {ps : List Piece} {n left : Nat} :
    Confines [.regs, .cores, .spm, .spmMarks, .spmParity] [.STREAM_STALL, .SPM_REGION, .STREAM_WORDS]
      (inSequence [fetchMove c e a x t ps n, waitMore c e n left]) :=
  confines_inSequence_cons (confines_fetchMove c e a x t ps n)
    (confines_inSequence_cons ((confines_waitMore c e n left).mono (by decide) (by decide)) Confines.nil)

/-- A QUEUE fetch that is served in part has written that part, counted it, and stands behind it. -/
theorem serveFetch_reads (c : Nat) (e : Engine) (a : Arm) (x : Desc) (t : Xfer) (ps : List Piece) (n left : Nat) (d d' : Dev)
    (hd : applyAll (inSequence [fetchMove c e a x t ps n, waitMore c e n left] d) d = d') :
    standing e (d'.core c) = (standing e (d.core c)).map (fun m => (m.1 + n, m.2)) ∧
    d'.spm = (applyAll (putString c (fetchWords d c a x t n) ps t.moved n) d).spm ∧
    d'.fld F.STREAM_WORDS_FETCHED c = (d.fld F.STREAM_WORDS_FETCHED c + (n + 63) / 64) % 2 ^ 32 := by
  rw [applyAll_inSequence_cons, applyAll_inSequence_cons, applyAll_inSequence_nil] at hd
  obtain ⟨spm, count⟩ := fetchMove_writes c e a x t ps n d
  have stand := standing_fetchMove c e a x t ps n d
  generalize applyAll (fetchMove c e a x t ps n d) d = d1 at hd spm count stand
  have waits := confines_waitMore c e n left d1
  subst hd
  exact ⟨((keeps_waitMore c c e n left d1).eq d1).trans stand, (keepAll_spm d1 (waits.leaves (by decide))).trans spm,
    (waits.fld d1 (by decide) c).trans count⟩

/-! ### SWAPs that wait -/

theorem unwindLoops_wait (n : Nat) (x : ThreadCtx) : (unwindLoops n x).wait = x.wait := by
  induction n generalizing x with
  | zero => rfl
  | succ n ih =>
    unfold unwindLoops
    split
    · rfl
    · split
      · split
        · rfl
        · rw [ih]
      · rfl

theorem startCues_wait (cues : List (BitVec 128)) (n : Nat) (x : ThreadCtx) : (startCues cues n x).wait = x.wait := by
  induction n generalizing x with
  | zero => rfl
  | succ n ih =>
    unfold startCues
    split
    · split
      · rw [ih]
      · rfl
    · split
      · rfl
      · split <;> rw [ih]

theorem settle_wait (cues : List (BitVec 128)) (x : ThreadCtx) : (settle cues x).wait = x.wait := by
  rw [settle, startCues_wait, unwindLoops_wait]

theorem confines_recordSlip (c n : Nat) (x : ThreadCtx) : Confines [.regs] [.SLIP_COUNT, .SLIP_TIME, .SLIP_LAST] (recordSlip c n x) := by
  intro d
  unfold recordSlip
  split
  · simp only [confined_ite, confined_nil, confined_cons, and_true, implies_true]
    exact fun _ => ⟨rfl, rfl, rfl, rfl, rfl, rfl, rfl, rfl, rfl⟩
  · exact confined_nil

/-- A recorded slip is counted (R300). -/
theorem slips_recordSlip {c n : Nat} {x : ThreadCtx} {w : Wait} {f : Firing} (hw : x.wait = some w) (hf : x.cur = some f)
    (due : w.due = true) (fresh : w.limited = false) (d d' : Dev) : (applyAll (recordSlip c n x d) d').fld F.SLIP_COUNT_COUNT c =
      (d'.fld F.SLIP_COUNT_COUNT c + 1) % 2 ^ 32 := by
  obtain ⟨obj, opId, due', start, limited⟩ := w
  obtain rfl : due' = true := due
  obtain rfl : limited = false := fresh
  have others : Confined [.regs] [.SLIP_TIME, .SLIP_LAST] ((recordSlip c n x d).drop 2) := by
    simp only [recordSlip, hw, hf, Bool.not_false, Bool.and_true, if_true, List.drop_succ_cons, List.drop_zero, confined_cons, confined_nil,
      and_true]
    exact ⟨rfl, rfl, rfl, rfl, rfl, rfl, rfl⟩
  have split : recordSlip c n x d =
      [addF F.SLIP_COUNT_COUNT c 1, maxF F.SLIP_COUNT_MAX_TICKS c (d.now - start)] ++ (recordSlip c n x d).drop 2 := by
    simp only [recordSlip, hw, hf, Bool.not_false, Bool.and_true, if_true]
    rfl
  rw [split, applyAll_append, others.fld _ (by decide), applyAll_cons, applyAll_cons, applyAll_nil, maxF, apply_fld,
    fld_setFld_bits _ _ _ _ (by decide), fld_addF]
  rfl

/-- What reads a core apart from its contexts is left by a wake. -/
theorem keeps_wakeCtx {α : Type} {f : CoreSt → α} (hf : ∀ n g cs, f (onCtx n g cs) = f cs) (c c' n : Nat) (d : Dev) :
    Keeps (fun d => f (d.core c')) (wakeCtx c n d) := by
  simp only [wakeCtx, keeps_append, keeps_cons, keeps_nil, and_true]
  exact ⟨(confines_recordSlip c n _ d).keeps_core (by decide) f, keeps_core fun cs => hf _ _ cs⟩

theorem confines_wakeCtx (c n : Nat) : Confines [.regs, .cores] [.SLIP_COUNT, .SLIP_TIME, .SLIP_LAST] (wakeCtx c n) := by
  intro d
  simp only [wakeCtx, confined_append, confined_cons, confined_nil, and_true]
  exact ⟨(confines_recordSlip c n _ d).mono (by decide) (by decide), rfl⟩

/-- A context that wakes waits no longer. -/
theorem wakeCtx_wait (c n : Nat) (d d' : Dev) : ((((applyAll (wakeCtx c n d) d').core c).ctx n)).wait = none := by
  rw [wakeCtx, applyAll_append, applyAll_cons, applyAll_nil, ctxUpd, core_apply_same, ctx_onCtx, settle_wait]

/-- Settles O14: a served fetch is `fetchMove`; a SWAP that may flip is `flipSide` and `wakeCtx`. -/
theorem waitsAreServed : Obligations.WaitsAreServed := by
  refine ⟨fun s c e a t x i hs slice service runs paid single queue fetch => ?_, fun s c n r before start due limited hs wait runs => ?_⟩
  · intro m left
    have act : regionWaitServedAct c e s.dev = serveQueue c i e s.dev := by
      simp [regionWaitServedAct, slice, service, runs, queue, single, paid]
    rw [serveQueue_fetch service fetch] at act
    refine ⟨fun some_ more => ?_, fun none_ more => ?_⟩
    · have part : ¬ (decide (m = 0) || decide (m = left)) = true := by simpa using ⟨some_, Nat.ne_of_lt more⟩
      rw [if_neg part] at act
      have confined := confines_serveFetch (c := c) (e := e) (a := a) (x := x) (t := t) (ps := fetchString s.dev x t.runs) (n := m)
        (left := left) s.dev
      refine completes_act rfl hs (act ▸ confined) (by decide) fun d q => ?_
      rw [act] at q
      obtain ⟨stand, spm, count⟩ := serveFetch_reads c e a x t (fetchString s.dev x t.runs) m left s.dev _ rfl
      rw [standing_inService service] at stand
      obtain ⟨t', engine, moved, same⟩ := exists_of_standing stand
      have words : fetchWords s.dev c a x t m = stringWords s.dev c x a m := by rw [fetchWords, queue]
      rw [q.core, q.spm, q.hbm, ← words]
      exact ⟨⟨t', engine, moved, same⟩, spm, keepAll_hbm _ (confined.leaves (by decide)), (q.fld rfl c).trans count⟩
    · have nothing : (decide (m = 0) || decide (m = left)) = true := by simp [none_]
      rw [if_pos nothing] at act
      have confined := confines_waitMore c e m left s.dev
      refine completes_act rfl hs (act ▸ confined) (by decide) fun d q => ?_
      rw [act] at q
      have timed := waitMore_times service more
      rw [← none_] at timed
      rw [q.core, q.spm, q.hbm]
      exact ⟨timed, keepAll_spm _ (confined.leaves (by decide)), keepAll_hbm _ (confined.leaves (by decide)),
        q.regsBut (confined.regsBut _ (by decide))⟩
  · refine ⟨fun free => ?_, fun blocked => ?_⟩
    · have act : swapCompleteAct c n s.dev = [flipSide c r] ++ wakeCtx c n s.dev := by
        simp only [swapCompleteAct, wait, runs, free, Bool.not_false, Bool.and_true, if_true]
      have wakes := confines_wakeCtx c n s.dev
      have confined : Confined [.regs, .cores] [.SLIP_COUNT, .SLIP_TIME, .SLIP_LAST] ([flipSide c r] ++ wakeCtx c n s.dev) := by
        simp only [confined_append, confined_cons, confined_nil, and_true]
        exact ⟨rfl, wakes⟩
      refine completes_act rfl hs (act ▸ confined) (by decide) fun d q => ?_
      rw [act] at q
      have wrote := q.regsBut (confined.regsBut s.dev (rs' := [.SLIP_COUNT, .SLIP_TIME, .SLIP_LAST]) (by decide))
      have rest := q.onlyCores ((confined.mono (by decide) fun _ h => h).onlyCores s.dev)
      rw [applyAll_append, applyAll_cons, applyAll_nil] at q
      have side (r' : Nat) := (keeps_wakeCtx (f := fun cs => cs.side r') (fun _ _ _ => rfl) c c n s.dev).eq ((flipSide c r).apply s.dev)
      simp only [flipSide, core_apply_same] at side
      refine ⟨?_, fun r' hr => ?_, ?_, fun due_ fresh cur => ?_, wrote, rest⟩
      · rw [q.core]
        exact (side r).trans (mapGet_mapSet_same ..)
      · rw [q.core]
        exact (side r').trans (mapGet_mapSet_other _ _ _ hr)
      · rw [q.core]
        exact wakeCtx_wait c n _ _
      · obtain ⟨f, hf⟩ := Option.isSome_iff_exists.1 cur
        refine (q.fld rfl c).trans ?_
        rw [wakeCtx, applyAll_append, applyAll_cons, applyAll_nil, ctxUpd, fld_core, slips_recordSlip wait hf due_ fresh]
        rfl
    · refine nothing_completes rfl hs ?_
      rw [runAct_eq]
      simp only [swapCompleteAct, wait, blocked, Bool.not_true, Bool.and_false, Bool.false_eq_true, if_false, applyAll_nil]

end Sys2Proof.Machine
end

