-- ==== Sys2Proof/Proofs/Multicast.lean ====
section
/-! PROOFS. The regulator's refills and the blocks of a multicast read (R252, R253, R257). -/

namespace Sys2Proof.Machine

/-! ### Refills -/

/-- The refill of one class of a cluster (R257). -/
def refillClass (g cls : Nat) : Act := fun d =>
  if !d.regulated g cls then [] else
    let i := classIx g cls
    inSequence [
      fun d => [.fld (levelFld cls) g fun v => min (d.fld F.REG_CLASS_DEPTH i) (v + d.fld F.REG_CLASS_RATE i)],
      fun d => (List.range 64).flatMap fun k =>
        let n := (engines.filter fun e => owedOf d (64 * g + k) cls e ≠ 0).length
        if n = 0 then [] else [addF F.STREAM_STALL_TOKEN_CYCLES (64 * g + k) (64 * n)],
      fun d => grantAll g cls (grantFuel d g cls) d ] d

/-- No engine of a cluster waits for tokens. -/
def NoneOwed (d : Dev) (g : Nat) : Prop := ∀ k e cls, owedOf d (64 * g + k) cls e = 0

theorem owedOf_of_same {d d' : Dev} (cores : d'.cores = d.cores) (lib : d'.schedLib = d.schedLib) (c cls : Nat) (e : Engine) :
    owedOf d' c cls e = owedOf d c cls e := by
  have prog : d'.liveProg c = d.liveProg c := by simp only [Dev.liveProg, Dev.core, Dev.schedOf, cores, lib]
  simp only [owedOf, Dev.desc, prog, core_of_cores cores]

theorem nextRequester_none {d : Dev} {g : Nat} (h : NoneOwed d g) (cls : Nat) : nextRequester d g cls = none := by
  unfold nextRequester
  rw [List.findSome?_eq_none_iff]
  intro c hc
  obtain ⟨j, -, rfl⟩ := List.mem_map.1 hc
  rw [List.findSome?_eq_none_iff]
  intro e _
  simp only [h _ e cls, if_true]

/-- The cycles that engines of a cluster have waited for tokens (R266). -/
def stallCycles (g cls : Nat) : Act := fun d =>
  (List.range 64).flatMap fun k =>
    let n := (engines.filter fun e => owedOf d (64 * g + k) cls e ≠ 0).length
    if n = 0 then [] else [addF F.STREAM_STALL_TOKEN_CYCLES (64 * g + k) (64 * n)]

theorem stallCycles_none {d : Dev} {g : Nat} (h : NoneOwed d g) (cls : Nat) : stallCycles g cls d = [] := by
  refine List.flatMap_eq_nil_iff.2 fun k _ => if_pos ?_
  rw [List.length_eq_zero_iff, List.filter_eq_nil_iff]
  intro e _
  simp [h k e cls]

theorem grantAll_none {d : Dev} {g : Nat} (h : NoneOwed d g) (cls fuel : Nat) : grantAll g cls fuel d = [] := by
  cases fuel with
  | zero => rfl
  | succ n => rw [grantAll, nextRequester_none h]

/-- The level that a refill leaves (R257). -/
def refilled (d : Dev) (g cls : Nat) : Upd :=
  .fld (levelFld cls) g fun v => min (d.fld F.REG_CLASS_DEPTH (classIx g cls)) (v + d.fld F.REG_CLASS_RATE (classIx g cls))

/-- While nothing is owed a refill raises the level alone. -/
theorem refillClass_eq {d : Dev} {g : Nat} (h : NoneOwed d g) (cls : Nat) :
    refillClass g cls d = if d.regulated g cls then [refilled d g cls] else [] := by
  have after : NoneOwed ((refilled d g cls).apply d) g := fun k e cls' => (owedOf_of_same rfl rfl _ _ _).trans (h k e cls')
  have act : refillClass g cls d = if !d.regulated g cls then [] else
      inSequence [fun d => [refilled d g cls], stallCycles g cls, fun d => grantAll g cls (grantFuel d g cls) d] d := rfl
  rw [act]
  cases d.regulated g cls
  · rfl
  · simp only [Bool.not_true, Bool.false_eq_true, if_false, if_true, inSequence, applyAll_cons, applyAll_nil, stallCycles_none after,
      grantAll_none after, List.append_nil]

theorem levelFld_reg (cls : Nat) : (levelFld cls).reg = .REG_LEVEL := by
  unfold levelFld
  split <;> rfl

theorem noneOwed_refill {d : Dev} {g : Nat} (h : NoneOwed d g) (cls : Nat) : NoneOwed (applyAll (refillClass g cls d) d) g := by
  rw [refillClass_eq h]
  split
  · exact fun k e cls' => (owedOf_of_same rfl rfl _ _ _).trans (h k e cls')
  · exact h

theorem confined_refill {d : Dev} {g : Nat} (h : NoneOwed d g) (cls : Nat) : Confined [.regs] [.REG_LEVEL] (refillClass g cls d) := by
  rw [refillClass_eq h]
  simp only [confined_ite, confined_cons, confined_nil, and_true, implies_true, refilled, Upd.confined, Upd.writes, levelFld_reg]
  exact fun _ => rfl

/-- The levels of two classes are apart. -/
theorem levelFld_apart {a b : Nat} (ha : a < 4) (hb : b < 4) (h : a ≠ b) :
    ((levelFld a).hi < (levelFld b).lo ∨ (levelFld b).hi < (levelFld a).lo) ∧ (levelFld a).lo ≤ (levelFld a).hi ∧
      (levelFld b).lo ≤ (levelFld b).hi := by
  have : ∀ a < 4, ∀ b < 4, a ≠ b → ((levelFld a).hi < (levelFld b).lo ∨ (levelFld b).hi < (levelFld a).lo) ∧
      (levelFld a).lo ≤ (levelFld a).hi ∧ (levelFld b).lo ≤ (levelFld b).hi := by decide
  exact this a ha b hb h

theorem levelFld_width (cls : Nat) : (levelFld cls).hi - (levelFld cls).lo + 1 = 16 := by
  unfold levelFld
  split <;> rfl

/-- The level of a class after its own refill, and after one of another. -/
theorem level_refill {d : Dev} {g : Nat} (h : NoneOwed d g) {cls cls' : Nat} (hc : cls < 4) (hc' : cls' < 4) :
    (applyAll (refillClass g cls d) d).fld (levelFld cls') g =
      if cls' = cls ∧ d.regulated g cls then
        min (d.fld F.REG_CLASS_DEPTH (classIx g cls)) (d.fld (levelFld cls) g + d.fld F.REG_CLASS_RATE (classIx g cls)) % 2 ^ 16
      else d.fld (levelFld cls') g := by
  rw [refillClass_eq h]
  cases d.regulated g cls
  · simp
  · simp only [if_true, applyAll_cons, applyAll_nil, refilled, apply_fld, and_true]
    split
    · subst_vars
      rw [fld_setFld_same, levelFld_width]
    · exact fld_setFld_bits d g g _ (levelFld_apart hc hc' (Ne.symm ‹_›))

/-- A refill of a list of classes raises each that is regulated, once. -/
theorem level_refills {g : Nat} (l : List Nat) (d : Dev) (h : NoneOwed d g) (hl : ∀ x ∈ l, x < 4) (nodup : l.Nodup) :
    Confined [.regs] [.REG_LEVEL] (forEach (refillClass g) l d) ∧ ∀ cls < 4,
    (applyAll (forEach (refillClass g) l d) d).fld (levelFld cls) g = if cls ∈ l ∧ d.regulated g cls then
        min (d.fld F.REG_CLASS_DEPTH (classIx g cls)) (d.fld (levelFld cls) g + d.fld F.REG_CLASS_RATE (classIx g cls)) % 2 ^ 16
      else d.fld (levelFld cls) g := by
  induction l generalizing d with
  | nil => exact ⟨confined_nil, fun _ _ => by simp [forEach, inSequence]⟩
  | cons x l ih =>
    obtain ⟨hx, hl⟩ := List.forall_mem_cons.1 hl
    obtain ⟨notin, nodup⟩ := List.nodup_cons.1 nodup
    have first := confined_refill h x
    obtain ⟨confined, levels⟩ := ih _ (noneOwed_refill h x) hl nodup
    have act : forEach (refillClass g) (x :: l) d =
        refillClass g x d ++ forEach (refillClass g) l (applyAll (refillClass g x d) d) := rfl
    rw [act, confined_append, applyAll_append]
    refine ⟨⟨first, confined⟩, fun cls hc => ?_⟩
    have same (f : Fld) (hf : f.reg = .REG_CLASS) (j : Nat) : (applyAll (refillClass g x d) d).fld f j = d.fld f j :=
      first.fld d (by rw [hf]; decide) j
    rw [levels cls hc, level_refill h hx hc, same _ rfl, same _ rfl]
    have reg : (applyAll (refillClass g x d) d).regulated g cls = d.regulated g cls := by
      simp only [Dev.regulated, Dev.bit, same F.REG_CLASS_EN rfl]
    rw [reg]
    by_cases e : cls = x
    · subst e
      simp [notin]
    · simp [e]

/-! ### Multicast -/

theorem nodup_groupMembers (g : BitVec 512) : (groupMembers g).Nodup := by
  refine List.Nodup.map (fun a b h => ?_) (List.nodup_range.filter _)
  exact Nat.eq_of_mul_eq_mul_left (by decide : 0 < 64) (Nat.add_right_cancel h)

theorem confined_stringFails (i t : Nat) (ps : List Piece) : Confined [.slices] [] (stringFails i t ps) := confined_failMarks i t _

theorem confined_recordRun (d : Dev) (x : Expanded) (tag source : Nat) (ccw : Bool) (layer : Nat) :
    Confined [.regs] [.CODEC_EXP, .CODEC_ERR, .CODEC_ERR_LOC] (recordRun d x tag source ccw layer) := by
  unfold recordRun
  simp only [confined_append, confined_ite, confined_cons, confined_nil, confined_map, and_true, implies_true]
  exact ⟨⟨trivial, fun _ => rfl⟩, fun _ => ⟨⟨fun _ => ⟨rfl, rfl, rfl, rfl, rfl⟩, fun _ _ => rfl⟩, rfl⟩⟩

theorem confines_stringCodec (c : Nat) (ps : List Piece) :
    Confines [.regs] [.CODEC_EXP, .CODEC_ERR, .CODEC_ERR_LOC] (stringCodec c ps) := by
  refine Confines.forEach fun p _ d => ?_
  split
  · exact confined_recordRun _ _ _ _ _ _
  · exact confined_nil

/-- What a block of a multicast read does at one member: its engine serves the arm, and the block is written (R253). -/
def memberBlock (e : Engine) (x : Desc) (moved : Nat) (ps : List Piece) (n m : Nat) : Act := fun d =>
  match (d.core m).engine e with
  | ⟨b :: _, xm⟩ =>
    let tm := xm.getD ⟨[], 0, d.now, none, 0⟩
    inSequence [
      fun _ => [.core m (onEngine e fun en => { en with xfer := some tm })],
      fetchMove m e b x { tm with moved := moved } ps n ] d
  | _ => []

/-- The registers that the blocks of a multicast read write. -/
def blockRegs : List Reg := [.STREAM_STALL, .SPM_REGION, .STREAM_WORDS, .CODEC_EXP, .CODEC_ERR, .CODEC_ERR_LOC]

theorem confines_memberBlock (e : Engine) (x : Desc) (moved : Nat) (ps : List Piece) (n m : Nat) :
    Confines [.slices, .regs, .cores, .spm, .spmMarks, .spmParity] blockRegs (memberBlock e x moved ps n m) := by
  intro d
  unfold memberBlock
  split
  · refine confines_inSequence_cons (fun d => ?_) (confines_inSequence_cons ((confines_fetchMove _ _ _ _ _ _ _).mono (by decide) (by decide))
      Confines.nil) d
    simp only [confined_cons, confined_nil, and_true]
    rfl
  · exact confined_nil

/-- A member that holds the arm at its head stands behind the block, and no other core is touched. -/
theorem memberBlock_reads {d : Dev} {e : Engine} {m : Nat} {b : Arm} {rest : List Arm} {xm : Option Xfer}
    (h : (d.core m).engine e = ⟨b :: rest, xm⟩) (x : Desc) (moved : Nat) (ps : List Piece) (n : Nat) :
    (∃ rs, standing e ((applyAll (memberBlock e x moved ps n m d) d).core m) =
      some ((match xm with | some t => t.moved | none => 0) + n, rs)) ∧
    ∀ c', c' ≠ m → (applyAll (memberBlock e x moved ps n m d) d).core c' = d.core c' := by
  simp only [memberBlock, h, applyAll_inSequence_cons, applyAll_inSequence_nil, applyAll_cons, applyAll_nil]
  refine ⟨⟨(xm.getD ⟨[], 0, d.now, none, 0⟩).runs, ?_⟩, fun c' hc => ?_⟩
  · rw [standing_fetchMove, core_apply_same, standing_onEngine]
    cases xm <;> rfl
  · rw [core_fetchMove_other hc, keeps_core_other hc]

/-- How far the transfer in service has moved, 0 when there is none. -/
def movedBy (d : Dev) (e : Engine) (m : Nat) : Nat :=
  match ((d.core m).engine e).xfer with
  | some t => t.moved
  | none => 0

/-- A block goes to every member of a list that holds the arm at its head. -/
theorem memberBlocks_read (e : Engine) (x : Desc) (moved : Nat) (ps : List Piece) (n : Nat) (ms : List Nat) (d : Dev) (nodup : ms.Nodup)
    (h : ∀ m ∈ ms, ((d.core m).engine e).queue ≠ []) :
    (∀ m ∈ ms, ∃ rs, standing e ((applyAll (forEach (memberBlock e x moved ps n) ms d) d).core m) = some (movedBy d e m + n, rs)) ∧
    ∀ c', c' ∉ ms → (applyAll (forEach (memberBlock e x moved ps n) ms d) d).core c' = d.core c' := by
  induction ms generalizing d with
  | nil => exact ⟨fun _ h => absurd h List.not_mem_nil, fun _ _ => rfl⟩
  | cons m ms ih =>
    obtain ⟨notin, nodup⟩ := List.nodup_cons.1 nodup
    obtain ⟨hm, hms⟩ := List.forall_mem_cons.1 h
    have act : forEach (memberBlock e x moved ps n) (m :: ms) d = memberBlock e x moved ps n m d ++
      forEach (memberBlock e x moved ps n) ms (applyAll (memberBlock e x moved ps n m d) d) := rfl
    obtain ⟨b, rest, hq⟩ := List.exists_cons_of_ne_nil hm
    have he : (d.core m).engine e = ⟨b :: rest, ((d.core m).engine e).xfer⟩ := by rw [← hq]
    obtain ⟨stands, others⟩ := memberBlock_reads he x moved ps n
    rw [act, applyAll_append]
    generalize applyAll (memberBlock e x moved ps n m d) d = d1 at stands others
    have same : ∀ m' ∈ ms, d1.core m' = d.core m' := fun m' hm' => others m' fun e => notin (e ▸ hm')
    obtain ⟨rest, beyond⟩ := ih d1 nodup fun m' hm' => by rw [same m' hm']; exact hms m' hm'
    refine ⟨fun m' hm' => ?_, fun c' hc' => ?_⟩
    · rcases List.mem_cons.1 hm' with rfl | hm'
      · rw [beyond m' notin]
        exact stands
      · have := rest m' hm'
        rwa [movedBy, same m' hm'] at this
    · rw [beyond c' fun h => hc' (List.mem_cons_of_mem _ h), others c' fun e => hc' (e ▸ List.mem_cons_self ..)]

theorem queue_of_memberReady {d : Dev} {e : Engine} {st : Nat} {no : BitVec 32} {m : Nat} (h : memberReady d e st no m = true) :
    ((d.core m).engine e).queue ≠ [] := by
  intro empty
  simp [memberReady, empty] at h

/-- Settles O15: while nothing is owed a refill is `refilled` for each class, and a block goes to every member in turn. -/
theorem streamsSend : Obligations.StreamsSend := by
  refine ⟨fun s g hs none_ => ?_, fun s c e a t x i g hs slice service runs paid mcast group root member buf => ?_⟩
  · have owed : NoneOwed s.dev g := none_
    obtain ⟨confined, levels⟩ := level_refills [0, 1, 2, 3] s.dev owed (by decide) (by decide)
    have act : regulatorRefillAct g s.dev = forEach (refillClass g) [0, 1, 2, 3] s.dev := rfl
    refine completes_act rfl hs (act ▸ confined) (by decide) fun d q => ?_
    rw [act] at q
    refine ⟨fun cls hc => ?_, q.wrote (confined.mono (by decide) (fun _ h => h) |>.wrote s.dev (by decide))⟩
    rw [q.fld (by rw [levelFld_reg]; rfl), levels cls hc]
    have listed : cls ∈ [0, 1, 2, 3] := by simp; omega
    simp only [listed, true_and]
  · intro n ready
    have room : (groupMembers g).all (fun m => decide (x.buf ≠ .queue) || decide ((n + 63) / 64 ≤ s.dev.regionRoom m x.region)) = true := by
      simp [buf]
    have send : mcastBlockSendAct c e s.dev = if n = 0 ∨ ready = false then [] else
        inSequence [
          onlyIf (t.moved = 0) (inSequence [fun _ => stringFails i a.firing.step (fetchString s.dev x t.runs),
            stringCodec c (fetchString s.dev x t.runs)]),
          forEach (memberBlock e x t.moved (fetchString s.dev x t.runs) n) (groupMembers g)] s.dev := by
      simp only [mcastBlockSendAct, slice, service, mcast, if_true, group, root, runs, paid]
      refine if_congr ?_ rfl rfl
      rw [show (_ || !(groupMembers g).all _) = _ from congrArg (_ || !·) room]
      simp [n, ready]
    refine ⟨fun some_ all => ?_, fun some_ => ?_⟩
    · have start : Confines [.slices, .regs] blockRegs (onlyIf (t.moved = 0) (inSequence [
          fun _ => stringFails i a.firing.step (fetchString s.dev x t.runs), stringCodec c (fetchString s.dev x t.runs)])) :=
        Confines.onlyIf (confines_inSequence_cons (fun _ => (confined_stringFails _ _ _).mono (by decide) (by decide))
          (confines_inSequence_cons ((confines_stringCodec _ _).mono (by decide) (by decide)) Confines.nil))
      have blocks : Confines [.slices, .regs, .cores, .spm, .spmMarks, .spmParity] blockRegs
          (forEach (memberBlock e x t.moved (fetchString s.dev x t.runs) n) (groupMembers g)) :=
        Confines.forEach fun m _ => confines_memberBlock _ _ _ _ _ _
      have confined := confines_inSequence_cons (start.mono (by decide) (by decide)) (confines_inSequence_cons (as := []) blocks Confines.nil) s.dev
      rw [if_neg (by simp [some_, all])] at send
      refine completes_act rfl hs (send ▸ confined) (by decide) fun d q => ?_
      rw [q.hbm, send, keepAll_hbm _ (confined.leaves (by decide))]
      refine ⟨fun m hm => ?_, rfl⟩
      rw [q.core, send, applyAll_inSequence_cons, applyAll_inSequence_cons, applyAll_inSequence_nil]
      have same (m : Nat) := (start s.dev).core s.dev (by decide) m
      generalize applyAll (onlyIf _ _ s.dev) s.dev = d1 at same
      have holds : ∀ m ∈ groupMembers g, ((d1.core m).engine e).queue ≠ [] := fun m hm => by
        rw [same]
        exact queue_of_memberReady (List.all_eq_true.1 all m hm)
      obtain ⟨rs, stand⟩ := (memberBlocks_read e x t.moved (fetchString s.dev x t.runs) n _ d1 (nodup_groupMembers g) holds).1 m hm
      obtain ⟨t', engine, moved, -⟩ := exists_of_standing stand
      refine ⟨t', engine, ?_⟩
      rw [moved, movedBy, same] <;> rfl
    · rw [if_pos (.inr some_)] at send
      exact nothing_completes rfl hs (by rw [runAct_eq, send]; rfl)

end Sys2Proof.Machine
end

