-- ==== Sys2Proof/Proofs/Fences.lean ====
section
/-! PROOFS. Fences and faults as changes of the module: what they may write, and what none of them takes back — a fence, a halted slice, the
error bits of streams, the state of a link (R261, R281, R455–R463). -/

namespace Sys2Proof.Machine

/-! ### Tame updates -/

/-- Registers of error bits below a count of faults: streams, the sequencer, synchronisation, rings and recovery. -/
def stickyRegs : List Reg := [.STREAM_ERR, .SEQ_ERR, .SYNC_ERR, .RING_ERR, .RECOV_ERR]

/-- A change of a core that leaves its live binding and starts no wait. -/
def Waitless (g : CoreSt → CoreSt) : Prop :=
  ∀ cs, (g cs).live = cs.live ∧ ∀ n, (cs.ctx n).wait = none → ((g cs).ctx n).wait = none

/-- An update that takes back no fence, no halt and no error bit, leaves the descriptors of slices, the states of links and the bindings of
cores, and starts no wait. -/
def Upd.mild : Upd → Prop
  | .slice _ g => ∀ s, (g s).desc = s.desc ∧ (s.fenced = true → (g s).fenced = true) ∧ (s.halted = true → (g s).halted = true)
  | .fld f _ g => (f.reg ∈ stickyRegs → (32 ≤ f.lo ∧ f.lo ≤ f.hi) ∨ (f.lo = f.hi ∧ f.hi < 32 ∧ ∀ v, g v = 1)) ∧
      (f.reg = .LINK_STATUS → f.lo ≤ f.hi ∧ f.hi < 4)
  | .core _ g => Waitless g
  | .cores _ | .restart _ => False
  | _ => True

/-- A mild update that may change only the parts `ps`, and of the registers only `rs`. -/
def Upd.tame (ps : List Part) (rs : List Reg) (u : Upd) : Prop := u.confined ps rs = true ∧ u.mild

/-- An update that is mild for what it writes. -/
def Upd.plain : Upd → Bool
  | .slice _ _ | .core _ _ | .cores _ | .restart _ => false
  | .fld f _ _ => decide (f.reg ∉ stickyRegs) && decide (f.reg ≠ .LINK_STATUS)
  | _ => true

theorem Upd.mild_of_plain {u : Upd} (h : u.plain = true) : u.mild := by
  cases u with
  | fld f i g =>
    simp only [plain, Bool.and_eq_true, decide_eq_true_eq] at h
    exact ⟨fun e => absurd e h.1, fun e => absurd e h.2⟩
  | slice i g => cases h
  | core c g => cases h
  | cores g => cases h
  | restart w => cases h
  | _ => trivial

theorem tame_of_plain {ps : List Part} {rs : List Reg} {u : Upd} (h : (u.confined ps rs && u.plain) = true) : u.tame ps rs := by
  obtain ⟨hc, hp⟩ := Bool.and_eq_true_iff.1 h
  exact ⟨hc, Upd.mild_of_plain hp⟩

/-- Mild updates that may change only the parts `ps`, and of the registers only `rs`. -/
def Tame (ps : List Part) (rs : List Reg) (us : List Upd) : Prop := ∀ u ∈ us, u.tame ps rs

/-- An act whose updates are tame in every state. -/
def Tames (ps : List Part) (rs : List Reg) (a : Act) : Prop := ∀ d, Tame ps rs (a d)

section lists
variable {ps : List Part} {rs : List Reg}

@[simp] theorem tame_nil : Tame ps rs [] := fun _ h => nomatch h
@[simp] theorem tame_cons (u : Upd) (us : List Upd) : Tame ps rs (u :: us) ↔ u.tame ps rs ∧ Tame ps rs us := by
  simp [Tame]
@[simp] theorem tame_append (us vs : List Upd) : Tame ps rs (us ++ vs) ↔ Tame ps rs us ∧ Tame ps rs vs := by
  simp only [Tame, List.mem_append, or_imp, forall_and]
@[simp] theorem tame_ite (p : Prop) [Decidable p] (us vs : List Upd) :
    Tame ps rs (if p then us else vs) ↔ (p → Tame ps rs us) ∧ (¬p → Tame ps rs vs) := by
  split <;> simp_all
@[simp] theorem tame_map {α : Type} (f : α → Upd) (xs : List α) : Tame ps rs (xs.map f) ↔ ∀ x ∈ xs, (f x).tame ps rs := by
  simp [Tame]
@[simp] theorem tame_flatMap {α : Type} (f : α → List Upd) (xs : List α) : Tame ps rs (xs.flatMap f) ↔ ∀ x ∈ xs, Tame ps rs (f x) := by
  simp only [Tame, List.mem_flatMap]
  exact ⟨fun h x hx u hu => h u ⟨x, hx, hu⟩, fun h u ⟨x, hx, hu⟩ => h x hx u hu⟩

/-- A list of updates that are mild for what they write. -/
theorem tame_of_all {us : List Upd} (h : (us.all fun u => u.confined ps rs && u.plain) = true) : Tame ps rs us := fun u hu =>
  tame_of_plain (List.all_eq_true.1 h u hu)

theorem Tame.confined {us : List Upd} (h : Tame ps rs us) : Confined ps rs us := fun u hu => (h u hu).1

theorem Tame.mono {ps' : List Part} {rs' : List Reg} {us : List Upd} (h : Tame ps rs us) (hp : ps ⊆ ps') (hr : rs ⊆ rs') : Tame ps' rs' us :=
  fun u hu => ⟨Confined.mono h.confined hp hr u hu, (h u hu).2⟩

theorem Confined.tame {us : List Upd} (h : Confined ps rs us) (slices : Part.slices ∉ ps) (cores : Part.cores ∉ ps) (sticky : ∀ r ∈ stickyRegs, r ∉ rs)
    (link : Reg.LINK_STATUS ∉ rs) : Tame ps rs us := by
  intro u hu
  have hc := h u hu
  refine ⟨hc, Upd.mild_of_plain ?_⟩
  simp only [Upd.confined, Bool.and_eq_true, List.all_eq_true, decide_eq_true_eq] at hc
  obtain ⟨parts, regs⟩ := hc
  cases u with
  | slice i g => exact absurd (parts _ (List.mem_singleton_self _)) slices
  | core c g => exact absurd (parts _ (List.mem_singleton_self _)) cores
  | cores g => exact absurd (parts _ (List.mem_singleton_self _)) cores
  | restart w => exact absurd (parts _ (by simp [Part.all])) slices
  | fld f i g =>
    have hf := regs f.reg (List.mem_singleton_self _)
    simp only [Upd.plain, Bool.and_eq_true, decide_eq_true_eq]
    exact ⟨fun e => sticky _ e hf, fun e => link (e ▸ hf)⟩
  | _ => rfl

theorem Confines.tames {a : Act} (h : Confines ps rs a) (slices : Part.slices ∉ ps) (cores : Part.cores ∉ ps)
    (sticky : ∀ r ∈ stickyRegs, r ∉ rs) (link : Reg.LINK_STATUS ∉ rs) : Tames ps rs a := fun d => (h d).tame slices cores sticky link

theorem Tames.confines {a : Act} (h : Tames ps rs a) : Confines ps rs a := fun d => (h d).confined

theorem Tames.mono {ps' : List Part} {rs' : List Reg} {a : Act} (h : Tames ps rs a) (hp : ps ⊆ ps') (hr : rs ⊆ rs') : Tames ps' rs' a :=
  fun d => (h d).mono hp hr

theorem Tames.nil : Tames ps rs (inSequence []) := fun _ => tame_nil

theorem Tames.cons {a : Act} {as : List Act} (ha : Tames ps rs a) (has : Tames ps rs (inSequence as)) :
    Tames ps rs (inSequence (a :: as)) := by
  intro d
  simp only [inSequence, tame_append]
  exact ⟨ha d, has _⟩

theorem Tames.inSequence {as : List Act} (h : ∀ a ∈ as, Tames ps rs a) : Tames ps rs (inSequence as) := by
  induction as with
  | nil => exact Tames.nil
  | cons a as ih =>
    exact Tames.cons (h a (List.mem_cons_self ..)) (ih fun b hb => h b (List.mem_cons_of_mem _ hb))

theorem Tames.forEach {α : Type} {f : α → Act} {xs : List α} (h : ∀ x ∈ xs, Tames ps rs (f x)) : Tames ps rs (forEach f xs) := by
  apply Tames.inSequence
  intro a ha
  obtain ⟨x, hx, rfl⟩ := List.mem_map.1 ha
  exact h x hx

theorem Tames.onlyIf {b : Bool} {a : Act} (h : Tames ps rs a) : Tames ps rs (onlyIf b a) := by
  intro d
  unfold Sys2Proof.Machine.onlyIf
  split
  · exact h d
  · exact tame_nil

end lists

/-! ### What tame updates keep -/

theorem Upd.mild.slice {u : Upd} (h : u.mild) (d : Dev) (i : Nat) : ((u.apply d).slice i).desc = (d.slice i).desc ∧
    ((d.slice i).fenced = true → ((u.apply d).slice i).fenced = true) ∧
    ((d.slice i).halted = true → ((u.apply d).slice i).halted = true) := by
  have kept (slices : (u.apply d).slices = d.slices) : ((u.apply d).slice i).desc = (d.slice i).desc ∧
      ((d.slice i).fenced = true → ((u.apply d).slice i).fenced = true) ∧
      ((d.slice i).halted = true → ((u.apply d).slice i).halted = true) := by
    rw [slice_of_slices slices]
    exact ⟨rfl, id, id⟩
  cases u with
  | slice j g =>
    rw [slice_apply_slice]
    split
    · subst_vars; exact h _
    · exact ⟨rfl, id, id⟩
  | restart w => exact h.elim
  | cores g => exact h.elim
  | _ => exact kept (keep_slices _ d (by simp))

theorem Upd.mild.core {u : Upd} (h : u.mild) (d : Dev) (c : Nat) : ((u.apply d).core c).live = (d.core c).live ∧
    ∀ n, ((d.core c).ctx n).wait = none → (((u.apply d).core c).ctx n).wait = none := by
  have kept (cores : (u.apply d).cores = d.cores) : ((u.apply d).core c).live = (d.core c).live ∧
      ∀ n, ((d.core c).ctx n).wait = none → (((u.apply d).core c).ctx n).wait = none := by
    rw [core_of_cores cores]
    exact ⟨rfl, fun _ => id⟩
  cases u with
  | core j g =>
    rw [core_apply_core]
    split
    · subst_vars; exact h _
    · exact ⟨rfl, fun _ => id⟩
  | cores g => exact h.elim
  | restart w => exact h.elim
  | _ => exact kept (keep_cores _ d (by simp))

/-- An error bit. -/
def ErrorBit (f : Fld) : Prop := f.reg ∈ stickyRegs ∧ f.lo = f.hi ∧ f.hi < 32

theorem not_mem_of_sticky {f : Fld} (h : f.reg ∈ stickyRegs) {rs : List Reg} (hr : ∀ r ∈ stickyRegs, r ∉ rs) : f.reg ∉ rs := hr _ h

theorem Upd.mild.error {u : Upd} (h : u.mild) {f : Fld} (hf : ErrorBit f) (d : Dev) (c : Nat) (set : d.fld f c = 1) :
    (u.apply d).fld f c = 1 := by
  obtain ⟨reg, bit, low⟩ := hf
  have kept (h : f.reg ∉ u.writes) : (u.apply d).fld f c = 1 := by
    simp only [Dev.fld, reg_apply_of_not_mem u d h]
    exact set
  cases u with
  | fld f' i g =>
    by_cases same : f'.reg = f.reg
    · rcases h.1 (same ▸ reg) with ⟨hl, hh⟩ | ⟨hb, hl, hg⟩
      · rw [apply_fld, fld_setFld_bits _ _ _ _ (by omega)]
        exact set
      · have one : ∀ v, g v % 2 ^ (f'.hi - f'.lo + 1) = 1 := fun v => by rw [hg, hb]; simp
        by_cases bits : f'.hi = f.hi
        · obtain rfl : f' = f := by
            obtain ⟨r', h', l'⟩ := f'
            obtain ⟨r, h, l⟩ := f
            simp_all
          by_cases copy : c % regCopies = i % regCopies
          · have key : (d.setFld f' i g).fld f' c = (d.setFld f' i g).fld f' i := by simp only [Dev.fld, Dev.reg, regKey, copy]
            rw [apply_fld, key, fld_setFld_same, one]
          · rw [apply_fld, fld_setFld_copy _ _ copy]
            exact set
        · rw [apply_fld, fld_setFld_bits _ _ _ _ (by omega)]
          exact set
    · exact kept (by simp [Upd.writes, Ne.symm same])
  | restart w => exact h.elim
  | _ => exact kept (not_mem_of_sticky reg (of_decide_eq_true rfl))

theorem Upd.mild.link {u : Upd} (h : u.mild) (d : Dev) (p : Nat) : (u.apply d).fld F.LINK_STATUS_STATE p = d.fld F.LINK_STATUS_STATE p := by
  have kept (h : Reg.LINK_STATUS ∉ u.writes) : (u.apply d).fld F.LINK_STATUS_STATE p = d.fld F.LINK_STATUS_STATE p := by
    simp only [Dev.fld, reg_apply_of_not_mem u d h]
  cases u with
  | fld f' i g =>
    by_cases same : f'.reg = .LINK_STATUS
    · obtain ⟨h1, h2⟩ := h.2 same
      rw [apply_fld, fld_setFld_bits _ _ _ _ (by simp only; omega)]
    · exact kept (by simp [Upd.writes, Ne.symm same])
  | restart w => exact h.elim
  | _ => exact kept (of_decide_eq_true rfl)

section lists
variable {ps : List Part} {rs : List Reg} {us : List Upd} (h : Tame ps rs us) (d : Dev)
include h

theorem Tame.slice (i : Nat) : ((applyAll us d).slice i).desc = (d.slice i).desc ∧
    ((d.slice i).fenced = true → ((applyAll us d).slice i).fenced = true) ∧
    ((d.slice i).halted = true → ((applyAll us d).slice i).halted = true) := by
  induction us generalizing d with
  | nil => exact ⟨rfl, id, id⟩
  | cons u us ih =>
    obtain ⟨hu, hus⟩ := (tame_cons u us).1 h
    obtain ⟨desc, fenced, halted⟩ := hu.2.slice d i
    obtain ⟨desc', fenced', halted'⟩ := ih hus (u.apply d)
    exact ⟨desc'.trans desc, fun e => fenced' (fenced e), fun e => halted' (halted e)⟩

theorem Tame.core (c : Nat) : ((applyAll us d).core c).live = (d.core c).live ∧
    ∀ n, ((d.core c).ctx n).wait = none → (((applyAll us d).core c).ctx n).wait = none := by
  induction us generalizing d with
  | nil => exact ⟨rfl, fun _ => id⟩
  | cons u us ih =>
    obtain ⟨hu, hus⟩ := (tame_cons u us).1 h
    obtain ⟨live, wait⟩ := hu.2.core d c
    obtain ⟨live', wait'⟩ := ih hus (u.apply d)
    exact ⟨live'.trans live, fun n e => wait' n (wait n e)⟩

theorem Tame.desc (i : Nat) : ((applyAll us d).slice i).desc = (d.slice i).desc := (h.slice d i).1
theorem Tame.fenced {i : Nat} (e : (d.slice i).fenced = true) : ((applyAll us d).slice i).fenced = true := (h.slice d i).2.1 e
theorem Tame.halted {i : Nat} (e : (d.slice i).halted = true) : ((applyAll us d).slice i).halted = true := (h.slice d i).2.2 e

theorem Tame.error {f : Fld} (hf : ErrorBit f) {c : Nat} (set : d.fld f c = 1) : (applyAll us d).fld f c = 1 := by
  induction us generalizing d with
  | nil => exact set
  | cons u us ih =>
    obtain ⟨hu, hus⟩ := (tame_cons u us).1 h
    exact ih hus (u.apply d) (hu.2.error hf d c set)

theorem Tame.link (p : Nat) : (applyAll us d).fld F.LINK_STATUS_STATE p = d.fld F.LINK_STATUS_STATE p := by
  induction us generalizing d with
  | nil => rfl
  | cons u us ih =>
    obtain ⟨hu, hus⟩ := (tame_cons u us).1 h
    exact (ih hus (u.apply d)).trans (hu.2.link d p)

end lists

/-! ### What a fence writes -/

/-- The registers that fencing a slice may write beside those of the machine state. -/
def floodRegs : List Reg :=
  [.SLIP_COUNT, .SLIP_TIME, .SLIP_LAST, .STREAM_ERR, .STREAM_ERR_LOC, .RECOV_LAST, .COMMIT_CNT, .RECOV_ERR, .LINK_STATUS, .SNAP_GCNT,
    .SNAP_SEQ, .SNAP_STATUS]

/-- The registers that fencing a slice may write. -/
def fenceRegs : List Reg := floodRegs ++ modeRegs

/-- The parts of the module that fencing a slice may change, beside the slice. -/
def floodParts : List Part := [.regs, .cores, .rings, .ports, .route, .outbox, .chain, .power, .snapPub]

/-- The parts of the module that fencing a slice may change. -/
def fenceParts : List Part := .slices :: floodParts

/-- A change of a slice that takes back no fence and no halt, and leaves its descriptor. -/
theorem tame_slice {ps : List Part} {rs : List Reg} {i : Nat} {g : SliceSt → SliceSt} (hp : Part.slices ∈ ps)
    (hg : ∀ s, (g s).desc = s.desc ∧ (s.fenced = true → (g s).fenced = true) ∧ (s.halted = true → (g s).halted = true)) :
    (Upd.slice i g).tame ps rs := ⟨by simp [Upd.confined, Upd.touches, Upd.writes, hp], hg⟩

/-- A change of a core that leaves its live binding and starts no wait. -/
theorem tame_core {ps : List Part} {rs : List Reg} {c : Nat} {g : CoreSt → CoreSt} (hp : Part.cores ∈ ps) (hg : Waitless g) :
    (Upd.core c g).tame ps rs := ⟨by simp [Upd.confined, Upd.touches, Upd.writes, hp], hg⟩

theorem waitless_of_ctxs {g : CoreSt → CoreSt} (live : ∀ cs, (g cs).live = cs.live) (ctxs : ∀ cs, (g cs).ctxs = cs.ctxs) : Waitless g :=
  fun cs => ⟨live cs, fun n h => by rw [CoreSt.ctx, ctxs]; exact h⟩

theorem waitless_onCtx {n : Nat} {g : ThreadCtx → ThreadCtx} (hg : ∀ x, x.wait = none → (g x).wait = none) : Waitless (onCtx n g) := by
  refine fun cs => ⟨rfl, fun m h => ?_⟩
  unfold onCtx CoreSt.ctx at *
  dsimp only
  rw [mapGet_mapSet]
  split
  · subst_vars; exact hg _ h
  · exact h

/-- A family of contexts none of which waits. -/
theorem wait_mapGet {m : SMap ThreadCtx} (h : ∀ e ∈ m, e.2.wait = none) (n : Nat) : (mapGet (fun _ => ThreadCtx.init) m n).wait = none := by
  induction m with
  | nil => rfl
  | cons e m ih =>
    rw [mapGet]
    split
    · exact h _ (List.mem_cons_self ..)
    · exact ih fun e he => h e (List.mem_cons_of_mem _ he)

/-- A stopped core waits for nothing (R281). -/
theorem stopCore_wait (cs : CoreSt) (n : Nat) : ((stopCore cs).ctx n).wait = none := by
  refine wait_mapGet (fun e he => ?_) n
  obtain ⟨x, -, rfl⟩ := List.mem_map.1 (List.mem_filter.1 he).1
  rfl

theorem tame_recordSlip (c n : Nat) (x : ThreadCtx) (d : Dev) : Tame [.regs] [.SLIP_COUNT, .SLIP_TIME, .SLIP_LAST] (recordSlip c n x d) :=
  (confines_recordSlip c n x d).tame (by decide) (by decide) (by decide) (by decide)

/-- An error bit that is set and counted. -/
theorem tame_flagFault {bit faults : Fld} (hb : ErrorBit bit) (hf : faults.reg = bit.reg) (hi : 32 ≤ faults.lo ∧ faults.lo ≤ faults.hi)
    {ps : List Part} {rs : List Reg} (hp : Part.regs ∈ ps) (hr : bit.reg ∈ rs) (i : Nat) : Tame ps rs (flagFault bit faults i) := by
  obtain ⟨reg, low, high⟩ := hb
  have link : bit.reg ≠ .LINK_STATUS := fun e => by rw [e] at reg; exact absurd reg (by decide)
  simp only [flagFault, tame_cons, tame_nil, and_true]
  refine ⟨⟨by simp [setF, Upd.confined, Upd.touches, Upd.writes, hp, hr], fun _ => .inr ⟨low, high, fun _ => rfl⟩, fun e => absurd e link⟩,
    by simp [satF, Upd.confined, Upd.touches, Upd.writes, hp, hr, hf], fun _ => .inl hi, fun e => absurd (hf ▸ e) link⟩

theorem tame_flagStream (d : Dev) (c : Nat) {bit : Fld} (hb : ErrorBit bit) (hs : bit.reg = .STREAM_ERR) (stream : Nat) (item : Option Nat) :
    Tame [.regs] [.STREAM_ERR, .STREAM_ERR_LOC] (flagStream d c bit stream item) := by
  simp only [flagStream, tame_append, tame_cons, tame_nil, tame_ite, and_true, implies_true]
  exact ⟨tame_flagFault hb hs.symm (by decide) (by decide) (by rw [hs]; decide) c, fun _ => ⟨tame_of_plain rfl, tame_of_plain rfl, tame_of_plain rfl, tame_of_plain rfl⟩⟩

theorem tames_fenceCore (e : Nat × CoreSt) : Tames floodParts floodRegs (fenceCore e) := by
  intro d
  simp only [fenceCore, tame_append, tame_flatMap, tame_cons, tame_nil, and_true]
  refine ⟨⟨fun x _ => (tame_recordSlip _ _ _ _).mono (by decide) (by decide), ?_⟩,
    tame_core (by decide) fun cs => ⟨rfl, fun n _ => stopCore_wait cs n⟩⟩
  refine Tames.inSequence (fun a ha => ?_) d
  obtain ⟨a, -, rfl⟩ := List.mem_map.1 ha
  exact fun d => (tame_flagStream d _ ⟨by decide, rfl, by decide⟩ rfl _ _).mono (by decide) (by decide)

theorem tames_sendFences (device : Bool) (pkey : BitVec 12) : Tames floodParts floodRegs (sendFences device pkey) := by
  intro d
  simp only [sendFences, tame_flatMap, tame_cons, tame_nil, and_true]
  exact fun p _ => ⟨tame_of_plain rfl, rfl, nofun, fun _ => by decide⟩

theorem tames_publishSnap (abandoned : Bool) : Tames [.regs, .snapPub] [.SNAP_GCNT, .SNAP_SEQ, .SNAP_STATUS] (publishSnap abandoned) := by
  intro d
  simp only [publishSnap, tame_ite, tame_nil, implies_true, and_true]
  exact fun _ => tame_of_all rfl

theorem tames_noteQuiet : Tames [.power] [] noteQuiet := fun _ => tame_of_all rfl

theorem tames_enterState (st : Nat) : Tames [.regs, .chain, .outbox, .power] modeRegs (enterState st) := by
  intro d
  simp only [enterState, tame_ite, tame_nil, tame_append, implies_true, true_and]
  exact fun _ => ⟨tame_of_all rfl, (tames_noteQuiet d).mono (by decide) (by decide)⟩

theorem tame_send {ps : List Part} {rs : List Reg} (hp : Part.outbox ∈ ps) (m : Msg) : (Upd.send m).tame ps rs :=
  ⟨by simp [Upd.confined, Upd.touches, Upd.writes, hp], trivial⟩

theorem tames_sendResolution (i : Nat) : Tames [.outbox] [] (sendResolution i) := by
  intro d
  unfold sendResolution
  dsimp only
  split
  · exact tame_nil
  · rw [tame_append]
    refine ⟨?_, ?_⟩
    · simp only [tame_ite, tame_cons, tame_nil, and_true, implies_true]
      exact fun _ => tame_of_plain rfl
    · split
      · simp only [tame_ite, tame_cons, tame_nil, and_true, implies_true]
        exact fun _ => tame_of_plain rfl
      · exact tame_nil

theorem tames_dropQueued (pkey : BitVec 12) : Tames [.ports, .route] [] (dropQueued pkey) := by
  intro d
  simp only [dropQueued, tame_append, tame_flatMap, tame_ite, tame_nil, tame_cons, implies_true, true_and, and_true]
  refine ⟨fun p _ _ => ⟨tame_of_plain rfl, fun u hu => ?_⟩, fun _ => tame_of_plain rfl⟩
  obtain ⟨q, -, hq⟩ := List.mem_filterMap.1 hu
  obtain ⟨i, -, rfl⟩ := Option.map_eq_some_iff.1 hq
  exact tame_of_plain rfl

theorem tame_fenceBit (cls : Nat) : Tame [.regs] [.RECOV_ERR] (fenceBit cls) := by
  unfold fenceBit
  split
  · exact tame_flagFault (bit := F.RECOV_ERR_STEP) (faults := F.RECOV_ERR_FAULTS) ⟨by decide, rfl, by decide⟩ rfl (by decide) (by decide) (by decide) 0
  · exact tame_flagFault (bit := F.RECOV_ERR_LINK) (faults := F.RECOV_ERR_FAULTS) ⟨by decide, rfl, by decide⟩ rfl (by decide) (by decide) (by decide) 0
  · exact tame_nil

/-- What a fence does behind the mark of the slice, before the machine state changes: rings, records, packets and floods (R281, R461). -/
def fenceFlood (i cls : Nat) (d : Dev) : List Act :=
  let pkey := (d.slice i).pkey
  [fun _ => (d.activeRings pkey).map fun k => .ring k fun r =>
      { r with cw := { r.cw with rx := none, reading := false, fed := 0 }, ccw := { r.ccw with rx := none, reading := false, fed := 0 } },
    fun _ => [setF F.RECOV_LAST_FENCE_GCNT i d.now, setF F.RECOV_LAST_DURATION i 65535, setF F.RECOV_LAST_REPLAYS i 0,
      setF F.RECOV_LAST_CLASS i cls, addF F.COMMIT_CNT_RECOVERIES 0 1] ++ fenceBit cls,
    dropQueued pkey,
    sendFences false pkey,
    onlyIf (d.liveRing.any fun k => d.fld F.RING_CTL_PKEY k = pkey.toNat) (publishSnap true)]

/-- The end of a fence: the machine state, and the resolution data (R465). -/
def fenceEnd (i : Nat) (d : Dev) : List Act :=
  [onlyIf (d.mode = stReady || d.mode = stRunning) (enterState stRecovering), sendResolution i]

/-- The mark of a fenced slice (R465, R474). -/
def markFenced (cls : Nat) (d : Dev) (s : SliceSt) : SliceSt :=
  { s with
    fenced := true, rstate := 1, fenceAt := d.now, fenceCls := cls,
    rollbacks := 0, boundDone := false, relaunchAt := none, flipsAt := d.fld F.ROUTE_EPOCH_FLIPS,
    replaced := s.desc.toList.flatMap fun e => (d.members e).filter d.isDead,
    home := { s.home with reports := [], logged := none, restored := [], target := none } }

theorem fenceSlice_eq (i cls : Nat) (d : Dev) : fenceSlice i cls d =
    if (d.slice i).fenced || (d.slice i).desc.isNone then [] else
      inSequence (forEach fenceCore (d.coresOf (d.slice i).pkey) :: (fun _ => [.slice i (markFenced cls d)]) ::
        (fenceFlood i cls d ++ fenceEnd i d)) d := rfl

theorem tames_fenceFlood (i cls : Nat) (d : Dev) : ∀ a ∈ fenceFlood i cls d, Tames floodParts floodRegs a := by
  simp only [fenceFlood, List.mem_cons, List.not_mem_nil, or_false, forall_eq_or_imp, forall_eq]
  refine ⟨fun _ => ?_, fun _ => ?_, ?_, tames_sendFences _ _, ?_⟩
  · simp only [tame_map]
    exact fun _ _ => tame_of_plain rfl
  · rw [tame_append]
    exact ⟨tame_of_all rfl, (tame_fenceBit cls).mono (by decide) (by decide)⟩
  · exact (tames_dropQueued _).mono (by decide) (by decide)
  · exact ((tames_publishSnap _).mono (by decide) (by decide)).onlyIf

theorem tames_fenceRest (i cls : Nat) (d : Dev) : Tames floodParts fenceRegs (inSequence (fenceFlood i cls d ++ fenceEnd i d)) := by
  refine Tames.inSequence fun a ha => ?_
  rcases List.mem_append.1 ha with ha | ha
  · exact (tames_fenceFlood i cls d a ha).mono (List.Subset.refl _) (by decide)
  · simp only [fenceEnd, List.mem_cons, List.not_mem_nil, or_false] at ha
    rcases ha with rfl | rfl
    · exact ((tames_enterState _).mono (by decide) (by decide)).onlyIf
    · exact (tames_sendResolution i).mono (by decide) (by decide)

theorem tame_markFenced {ps : List Part} {rs : List Reg} (hp : Part.slices ∈ ps) (i cls : Nat) (d : Dev) :
    Tame ps rs [.slice i (markFenced cls d)] := by
  simp only [tame_cons, tame_nil, and_true]
  exact tame_slice hp fun s => ⟨rfl, fun _ => rfl, id⟩

theorem tames_fenceSlice (i cls : Nat) : Tames fenceParts fenceRegs (fenceSlice i cls) := by
  intro d
  rw [fenceSlice_eq, tame_ite]
  refine ⟨fun _ => tame_nil, fun _ => ?_⟩
  exact Tames.cons (Tames.forEach fun e _ => (tames_fenceCore e).mono (by decide) (by decide))
    (Tames.cons (fun _ => tame_markFenced (by decide) i cls d) ((tames_fenceRest i cls d).mono (by decide) (by decide))) d

/-- A slice that is fenced is fenced behind it. -/
theorem fenced_fenceSlice {i : Nat} {d : Dev} (h : (d.slice i).desc.isSome = true) (cls : Nat) :
    ((runAct (fenceSlice i cls) d).slice i).fenced = true := by
  by_cases already : (d.slice i).fenced = true
  · exact (tames_fenceSlice i cls d).fenced d already
  · have acts : ¬ ((d.slice i).fenced || (d.slice i).desc.isNone) = true := by
      simpa [already, Option.isSome_iff_ne_none] using h
    rw [runAct_eq, fenceSlice_eq, if_neg acts, applyAll_inSequence_cons, applyAll_inSequence_cons]
    refine (tames_fenceRest i cls d _).fenced _ ?_
    rw [applyAll_cons, applyAll_nil, slice_apply_same]
    rfl

/-! ### Faults of a slice -/

theorem tames_faultReport (cls : Nat) (port : Option Nat) (pkeys : List (BitVec 12)) :
    Tames [.regs, .chain, .outbox] [.EVT_STATUS, .CHAIN_ERR] (faultReport cls port pkeys) := by
  intro d
  simp only [faultReport, tame_cons, tame_nil, and_true]
  exact ⟨tame_of_plain rfl, tame_of_plain rfl⟩

theorem tames_faultSlice (i cls : Nat) : Tames fenceParts fenceRegs (faultSlice i cls) := by
  intro d
  simp only [faultSlice, tame_ite, tame_nil, implies_true, true_and]
  exact fun _ => Tames.cons (tames_fenceSlice i cls)
    (Tames.cons ((tames_faultReport _ _ _).mono (by decide) (by decide)) Tames.nil) d

theorem fenced_faultSlice {i : Nat} {d : Dev} (h : (d.slice i).desc.isSome = true) (cls : Nat) :
    ((runAct (faultSlice i cls) d).slice i).fenced = true := by
  simp only [runAct_eq, faultSlice, Option.isNone_eq_false_iff.2 h, Bool.false_eq_true, if_false]
  rw [applyAll_inSequence_cons, applyAll_inSequence_cons, applyAll_inSequence_nil]
  exact (tames_faultReport _ _ _ _).fenced _ (fenced_fenceSlice h cls)

theorem tames_fenceLost : Tames fenceParts fenceRegs fenceLost := by
  intro d
  simp only [fenceLost, tame_ite, tame_nil, implies_true, true_and]
  refine fun _ => Tames.cons (Tames.forEach fun k _ d => ?_) (Tames.cons (fun _ => tame_of_all rfl) Tames.nil) d
  split
  · exact tames_faultSlice _ 1 d
  · exact tame_nil

theorem tames_haltSlice (i cls : Nat) : Tames fenceParts fenceRegs (haltSlice i cls) := by
  refine Tames.cons (tames_fenceSlice i cls) (Tames.cons (fun _ => ?_) Tames.nil)
  simp only [tame_cons, tame_nil, and_true]
  exact tame_slice (by decide) fun s => ⟨rfl, id, fun _ => rfl⟩

theorem haltSlice_reads {i : Nat} {d : Dev} (h : (d.slice i).desc.isSome = true) (cls : Nat) :
    ((runAct (haltSlice i cls) d).slice i).fenced = true ∧ ((runAct (haltSlice i cls) d).slice i).halted = true := by
  simp only [haltSlice, runAct_inSequence_cons, runAct_inSequence_nil, runAct_list, applyAll_cons, applyAll_nil]
  rw [slice_apply_same]
  exact ⟨fenced_fenceSlice h cls, rfl⟩

/-! ### The safe state is not left by a fence -/

/-- An act that keeps a fact about the module. -/
def Invariant (P : Dev → Prop) (a : Act) : Prop := ∀ d, P d → P (runAct a d)

theorem Invariant.nil {P : Dev → Prop} : Invariant P (inSequence []) := fun _ h => h

theorem Invariant.cons {P : Dev → Prop} {a : Act} {as : List Act} (ha : Invariant P a) (has : Invariant P (inSequence as)) :
    Invariant P (inSequence (a :: as)) := fun d h => by
  rw [runAct_inSequence_cons]
  exact has _ (ha d h)

theorem Invariant.inSequence {P : Dev → Prop} {as : List Act} (h : ∀ a ∈ as, Invariant P a) : Invariant P (inSequence as) := by
  induction as with
  | nil => exact Invariant.nil
  | cons a as ih => exact Invariant.cons (h a (List.mem_cons_self ..)) (ih fun b hb => h b (List.mem_cons_of_mem _ hb))

theorem Invariant.forEach {P : Dev → Prop} {α : Type} {f : α → Act} {xs : List α} (h : ∀ x ∈ xs, Invariant P (f x)) :
    Invariant P (forEach f xs) := by
  apply Invariant.inSequence
  intro a ha
  obtain ⟨x, hx, rfl⟩ := List.mem_map.1 ha
  exact h x hx

theorem Invariant.onlyIf {P : Dev → Prop} {b : Bool} {a : Act} (h : Invariant P a) : Invariant P (onlyIf b a) := fun d hd => by
  rw [runAct_onlyIf]
  split
  · exact h d hd
  · exact hd

/-- The module is in the safe state. -/
def InSafe (d : Dev) : Prop := d.mode = stSafe

theorem Confines.inSafe {ps : List Part} {rs : List Reg} {a : Act} (h : Confines ps rs a) (hr : Reg.DEV_STATE ∉ rs) : Invariant InSafe a :=
  fun d hd => by
    rw [InSafe, Dev.mode, runAct_eq, (h d).fld d hr]
    exact hd

theorem Tames.inSafe {ps : List Part} {a : Act} (h : Tames ps floodRegs a) : Invariant InSafe a := h.confines.inSafe (by decide)

theorem inSafe_fenceSlice (i cls : Nat) : Invariant InSafe (fenceSlice i cls) := by
  intro d hd
  rw [runAct_eq, fenceSlice_eq]
  split
  · exact hd
  · refine Invariant.cons (Tames.forEach fun e _ => tames_fenceCore e).inSafe
      (Invariant.cons (Tames.inSafe (ps := [.slices]) fun _ => tame_markFenced (by decide) i cls d) (Invariant.inSequence fun a ha => ?_)) d hd
    rcases List.mem_append.1 ha with ha | ha
    · exact (tames_fenceFlood i cls d a ha).inSafe
    · simp only [fenceEnd, List.mem_cons, List.not_mem_nil, or_false] at ha
      rcases ha with rfl | rfl
      · rw [show (d.mode = stReady || d.mode = stRunning) = false by rw [show d.mode = stSafe from hd]; rfl]
        exact fun _ h => h
      · exact ((tames_sendResolution i).mono (ps' := fenceParts) (rs' := floodRegs) (by decide) (by decide)).inSafe

theorem inSafe_faultSlice (i cls : Nat) : Invariant InSafe (faultSlice i cls) := by
  intro d hd
  rw [runAct_eq, faultSlice]
  split
  · exact hd
  · exact Invariant.cons (inSafe_fenceSlice i cls) (Invariant.cons ((tames_faultReport _ _ _).confines.inSafe (by decide)) Invariant.nil) d hd

theorem inSafe_fenceLost : Invariant InSafe fenceLost := by
  intro d hd
  rw [runAct_eq, fenceLost]
  split
  · exact hd
  · refine Invariant.cons (Invariant.forEach fun k _ d hd => ?_) (Invariant.cons (Confines.inSafe (ps := [.route]) (rs := []) ?_ (by decide))
      Invariant.nil) d hd
    · rw [runAct_eq]
      split
      · exact inSafe_faultSlice _ 1 d hd
      · exact hd
    · exact fun _ => by simp only [confined_cons, confined_nil, and_true]; rfl

/-! ### Items that fail -/

/-- The registers that the records of failed items may write. -/
def recordRegs : List Reg := [.DET_STATUS, .SVC_CNT, .EVT_STATUS, .CHAIN_ERR]

/-- The parts that the records of failed items may change. -/
def recordParts : List Part := [.regs, .commit, .svc, .hbm, .hbmBad, .hbmMarks, .outbox, .chain]

theorem confines_writeHbm (a : Nat) (bs : List Byte) (bad : Bool) : Confines [.hbm, .hbmBad, .hbmMarks] [] (writeHbm a bs bad) := by
  intro d
  simp only [writeHbm, confined_ite, confined_nil, confined_append, confined_cons, implies_true, true_and, and_true]
  exact fun _ => ⟨⟨rfl, fun _ => rfl⟩, fun _ => rfl, fun _ _ => rfl⟩

theorem confines_roceEmit (q : Nat) (m : RoceMsg) : Confines [.svc, .outbox] [] (roceEmit q m) := by
  intro d
  unfold roceEmit
  split
  · exact confined_nil
  · simp only [confined_ite, confined_nil, confined_cons, implies_true, true_and, and_true]
    exact fun _ => ⟨fun _ => rfl, fun _ => rfl⟩

theorem confines_rocePost (q : Nat) (f : Nat → RoceMsg) (pull : Option Pull) (export_ : Option Nat) :
    Confines [.svc, .outbox] [] (rocePost q f pull export_) := by
  intro d
  unfold rocePost
  dsimp only
  split
  · exact confined_nil
  · rw [confined_ite]
    refine ⟨fun _ => confined_nil, fun _ => ?_⟩
    refine confines_inSequence_cons (fun d => ?_) (confines_inSequence_cons (as := []) (confines_roceEmit q _) Confines.nil) d
    simp only [confined_cons, confined_nil, and_true]
    rfl

theorem confines_writeEntry (q i : Nat) (e : QpEnt) : Confines [.svc, .outbox, .hbm, .hbmBad, .hbmMarks] [] (writeEntry q i e) := by
  intro d
  unfold writeEntry
  dsimp only
  split
  · exact confined_nil
  · refine confines_inSequence_cons (fun d => ?_) (confines_inSequence_cons ((confines_writeHbm _ _ _).mono (by decide) (by decide))
      (confines_inSequence_cons (as := []) ((confines_rocePost _ _ _ _).mono (by decide) (by decide)) Confines.nil)) d
    simp only [confined_cons, confined_nil, and_true]
    rfl

theorem confines_pumpQp (q n : Nat) : Confines [.svc, .outbox, .hbm, .hbmBad, .hbmMarks] [] (pumpQp q n) := by
  induction n with
  | zero => exact fun _ => confined_nil
  | succ n ih =>
    intro d
    unfold pumpQp
    dsimp only
    split
    · rw [confined_ite]
      exact ⟨fun _ => confines_inSequence_cons (confines_writeEntry _ _ _) (confines_inSequence_cons (as := []) ih Confines.nil) d,
        fun _ => confined_nil⟩
    · exact confined_nil

theorem confines_queueEntry (q kind : Nat) (body : List Byte) :
    Confines [.regs, .svc, .outbox, .hbm, .hbmBad, .hbmMarks] [.SVC_CNT] (queueEntry q kind body) := by
  intro d
  simp only [queueEntry, confined_ite]
  refine ⟨fun _ => confines_inSequence_cons (fun d => ?_) (confines_inSequence_cons (as := []) (fun d =>
    (confines_pumpQp q _ d).mono (by decide) (by decide)) Confines.nil) d, fun _ => ?_⟩
  · simp only [confined_cons, confined_nil, and_true]
    rfl
  · simp only [confined_cons, confined_nil, and_true]
    rfl

/-- What becomes of the record of an item that is released (R2, R456). -/
def recordOut (it : Item) (handle status step reason : Nat) (tail : List Byte) (gcnt : BitVec 64) : Act := fun d =>
  let bytes := recordBytes it status step gcnt
  match it.typ with
  | 1 =>
    match d.svc.reqs.find? fun r => r.handle = handle with
    | some r => inSequence [
        fun _ => [.svc fun s => { s with reqs := s.reqs.filter fun x => x.handle ≠ handle }],
        queueEntry r.qp 1 (bytes ++ requestTail r.body reason r.adapterGen r.baseGen) ] d
    | none => []
  | 2 =>
    match d.svc.jobs.find? fun j => j.handle = handle with
    | some j => queueEntry j.reportQp 1 (bytes ++ tail) d
    | none => []
  | _ => [.event 1 bytes]

theorem releaseWith_eq (handle : Nat) (pkey : BitVec 12) (status step reason : Nat) (tail : List Byte) (d : Dev) :
    releaseWith handle pkey status step reason tail d =
      match d.commit.items.find? fun it => it.handle = handle && it.pkey = pkey with
      | none => []
      | some it => inSequence [
          fun _ => [.commit fun c => { c with items := c.items.filter fun x => !(x.handle = handle && x.pkey = pkey) }] ++
            (if status = 0x40 then flagDet F.DET_STATUS_TIMEOUT else []),
          recordOut it handle status step reason tail d.gcnt] d := rfl

/-- The parts that the release of a record may change, beside the items. -/
def outParts : List Part := [.regs, .svc, .hbm, .hbmBad, .hbmMarks, .outbox, .chain]

theorem confines_recordOut (it : Item) (handle status step reason : Nat) (tail : List Byte) (gcnt : BitVec 64) :
    Confines outParts recordRegs (recordOut it handle status step reason tail gcnt) := by
  intro d
  unfold recordOut
  dsimp only
  split
  · split
    · refine confines_inSequence_cons (fun d => ?_) (confines_inSequence_cons (as := []) ((confines_queueEntry _ _ _).mono (by decide)
        (by decide)) Confines.nil) d
      simp only [confined_cons, confined_nil, and_true]
      rfl
    · exact confined_nil
  · split
    · exact (confines_queueEntry _ _ _ d).mono (by decide) (by decide)
    · exact confined_nil
  · simp only [confined_cons, confined_nil, and_true]
    rfl

theorem confines_releaseWith (handle : Nat) (pkey : BitVec 12) (status step reason : Nat) (tail : List Byte) :
    Confines recordParts recordRegs (releaseWith handle pkey status step reason tail) := by
  intro d
  rw [releaseWith_eq]
  split
  · exact confined_nil
  · refine confines_inSequence_cons (fun d => ?_) (confines_inSequence_cons (as := []) ((confines_recordOut _ _ _ _ _ _ _).mono (by decide)
      (by decide)) Confines.nil) d
    simp only [flagDet, flagFault, confined_append, confined_ite, confined_cons, confined_nil, and_true, implies_true]
    exact ⟨rfl, fun _ => ⟨rfl, rfl⟩⟩

/-- The items that the release of a record leaves. -/
theorem items_releaseWith (handle : Nat) (pkey : BitVec 12) (status step reason : Nat) (tail : List Byte) (d : Dev) :
    (runAct (releaseWith handle pkey status step reason tail) d).commit.items =
      d.commit.items.filter fun x => !(x.handle = handle && x.pkey = pkey) := by
  rw [runAct_eq, releaseWith_eq]
  split
  · rename_i none_
    refine (List.filter_eq_self.2 fun x hx => ?_).symm
    simpa [imp_iff_not_or] using List.find?_eq_none.1 none_ x hx
  · rw [applyAll_inSequence_cons, applyAll_inSequence_cons, applyAll_inSequence_nil,
      keepAll_commit _ ((confines_recordOut _ _ _ _ _ _ _ _).leaves (by decide)), applyAll_append, keepAll_commit]
    · rfl
    · split <;> simp [flagDet, flagFault]

theorem confines_failAllItems (i status : Nat) : Confines recordParts recordRegs (failAllItems i status) := by
  intro d
  refine confines_inSequence_cons (Confines.onlyIf fun d => ?_) (confines_inSequence_cons (Confines.forEach fun it _ =>
    confines_releaseWith _ _ _ _ _ _) (confines_inSequence_cons (as := []) (fun d => ?_) Confines.nil)) d
  · simp only [flagDet, flagFault, confined_cons, confined_nil, and_true]
    exact ⟨rfl, rfl⟩
  · simp only [confined_cons, confined_nil, and_true]
    rfl

/-- Releasing the records of a list of items leaves none of them, and every item of another key. -/
theorem items_releases (its : List Item) (pkey : BitVec 12) (status step : Nat) (d : Dev) :
    let items := (runAct (forEach (fun it => releaseRecord it.handle pkey status step) its) d).commit.items
    (∀ x ∈ items, x ∈ d.commit.items ∧ ∀ it ∈ its, ¬ (x.handle = it.handle ∧ x.pkey = pkey)) ∧
    ∀ x ∈ d.commit.items, x.pkey ≠ pkey → x ∈ items := by
  induction its generalizing d with
  | nil => exact ⟨fun x hx => ⟨hx, fun it h => absurd h List.not_mem_nil⟩, fun x hx _ => hx⟩
  | cons it its ih =>
    obtain ⟨gone, kept⟩ := ih (runAct (releaseRecord it.handle pkey status step) d)
    have first := items_releaseWith it.handle pkey status step 255 (leBytes 24 0) d
    have act : runAct (forEach (fun it => releaseRecord it.handle pkey status step) (it :: its)) d =
      runAct (forEach (fun it => releaseRecord it.handle pkey status step) its) (runAct (releaseRecord it.handle pkey status step) d) :=
      runAct_inSequence_cons ..
    change (runAct (releaseRecord it.handle pkey status step) d).commit.items = _ at first
    simp only [act]
    simp only [first, List.mem_filter] at gone kept
    refine ⟨fun x hx => ?_, fun x hx hp => kept x ⟨hx, by simp [hp]⟩ hp⟩
    obtain ⟨⟨mem, other⟩, rest⟩ := gone x hx
    refine ⟨mem, fun it' hit => ?_⟩
    rcases List.mem_cons.1 hit with rfl | hit
    · simpa [imp_iff_not_or] using other
    · exact rest it' hit

/-- After the failure of a slice's items none is left but host DMA items and exports; every item of another key is. -/
theorem items_failAllItems (i status : Nat) (d : Dev) :
    (∀ x ∈ (runAct (failAllItems i status) d).commit.items, x.pkey = (d.slice i).pkey → x.typ = 3 ∨ x.typ = 4) ∧
    ∀ x ∈ d.commit.items, x.pkey ≠ (d.slice i).pkey → x ∈ (runAct (failAllItems i status) d).commit.items := by
  let its := d.commit.items.filter fun it => it.pkey = (d.slice i).pkey && it.typ ≠ 3 && it.typ ≠ 4
  have flag : (runAct (onlyIf (!its.isEmpty && status ≠ 0x40) fun _ => flagDet F.DET_STATUS_FAILED) d).commit = d.commit := by
    rw [runAct_onlyIf]
    split
    · exact keepAll_commit d (by simp [flagDet, flagFault])
    · rfl
  have act : failAllItems i status d = inSequence [
      onlyIf (!its.isEmpty && status ≠ 0x40) (fun _ => flagDet F.DET_STATUS_FAILED),
      forEach (fun it => releaseRecord it.handle (d.slice i).pkey status (d.slice i).committedWord) its,
      fun _ => [.svc fun v => { v with jobs := v.jobs.filter fun j => j.pkey ≠ (d.slice i).pkey }]] d := rfl
  rw [runAct_eq, act, applyAll_inSequence_cons, applyAll_inSequence_cons, applyAll_inSequence_cons, applyAll_inSequence_nil, ← runAct_eq,
    ← runAct_eq, applyAll_cons, applyAll_nil, keep_commit _ _ (by simp)]
  generalize runAct (onlyIf _ _) d = flagged at flag
  obtain ⟨gone, kept⟩ := items_releases its (d.slice i).pkey status (d.slice i).committedWord flagged
  rw [flag] at gone kept
  refine ⟨fun x hx hp => ?_, kept⟩
  obtain ⟨mem, rest⟩ := gone x hx
  by_contra other
  exact rest x (List.mem_filter.2 ⟨mem, by simpa [hp, not_or] using other⟩) ⟨rfl, hp⟩

/-! ### The device-level safe state -/

/-- A member of a family that does not read as unlisted is listed. -/
theorem mem_of_mapGet {α : Type} {f : Nat → α} {m : SMap α} {k : Nat} (h : mapGet f m k ≠ f k) : (k, mapGet f m k) ∈ m := by
  induction m with
  | nil => exact absurd rfl h
  | cons e m ih =>
    obtain ⟨j, a⟩ := e
    by_cases eq : k = j
    · simp [mapGet, eq]
    · rw [mapGet, if_neg eq] at h ⊢
      exact List.mem_cons_of_mem _ (ih h)

theorem listed_of_desc {d : Dev} {i : Nat} (h : (d.slice i).desc.isSome = true) : (i, d.slice i) ∈ d.slices := by
  refine mem_of_mapGet fun e => ?_
  rw [Dev.slice, e] at h
  cases h

theorem desc_of_memberHere {d : Dev} {s : SliceSt} (h : d.memberHere s = true) : s.desc.isSome = true := by
  unfold Dev.memberHere at h
  split at h
  · simp [*]
  · cases h

/-- Whether the module is a member rests on its coordinates and the slice's descriptor. -/
theorem memberHere_of_same {d d' : Dev} {s s' : SliceSt} (coord : ∀ i, d'.reg .DEV_COORD i = d.reg .DEV_COORD i) (desc : s'.desc = s.desc) :
    d'.memberHere s' = d.memberHere s := by
  have fld (f : Fld) (hf : f.reg = .DEV_COORD) (i : Nat) : d'.fld f i = d.fld f i := by simp only [Dev.fld, hf, coord]
  have axis (a : Nat) : d'.axis a = d.axis a := by
    unfold Dev.axis
    split <;> exact fld _ rfl 0
  have axes : d'.axis = d.axis := funext axis
  have here : d'.here = d.here := by simp only [Dev.here, fld F.DEV_COORD_X rfl, fld F.DEV_COORD_Y rfl, fld F.DEV_COORD_Z rfl]
  unfold Dev.memberHere Dev.isMember Dev.offsetIn
  rw [desc, here, axes]

/-- What each act of a list fences is fenced behind them all. -/
theorem fenced_forEach {α : Type} {f : α → Act} {k : α → Nat} {ps : List Part} {rs : List Reg} (tames : ∀ x, Tames ps rs (f x))
    (fences : ∀ x d, (d.slice (k x)).desc.isSome = true → ((runAct (f x) d).slice (k x)).fenced = true) (xs : List α) (d : Dev) :
    ∀ x ∈ xs, (d.slice (k x)).desc.isSome = true → ((runAct (forEach f xs) d).slice (k x)).fenced = true := by
  induction xs generalizing d with
  | nil => exact fun x h => absurd h List.not_mem_nil
  | cons y ys ih =>
    intro x hx desc
    have act : runAct (forEach f (y :: ys)) d = runAct (forEach f ys) (runAct (f y) d) := runAct_inSequence_cons ..
    rw [act]
    rcases List.mem_cons.1 hx with rfl | hx
    · exact (Tames.forEach fun x _ => tames x) _ |>.fenced _ (fences x d desc)
    · refine ih _ x hx ?_
      rw [runAct_eq, (tames y d).desc]
      exact desc

/-- The registers that entering the safe state may write. -/
def safeRegs : List Reg := fenceRegs ++ [.SAFE_STATUS, .KETTLE_STATUS, .PWR_STATUS, .CORE_STATUS]

/-- The parts that entering the safe state may change. -/
def safeParts : List Part := .frozen :: fenceParts

theorem tames_driveFault (low : Bool) : Tames [.regs, .outbox] [.SAFE_STATUS] (driveFault low) := by
  intro d
  simp only [driveFault, tame_ite, tame_nil, implies_true, true_and]
  exact fun _ => tame_of_all rfl

theorem tames_wakeUp : Tames [.regs, .frozen, .power] [.PWR_STATUS] wakeUp := by
  intro d
  simp only [wakeUp, tame_ite, tame_nil, tame_cons, implies_true, true_and]
  exact fun _ => ⟨tame_of_plain rfl, tame_of_plain rfl, (tames_noteQuiet d).mono (by decide) (by decide)⟩

/-- The safe state as it is entered: its cause and count, FAULT_N, and the Kettles stopped (R463, R481, R650). -/
def safeStart (cause : Nat) : List Act :=
  [enterState stSafe, fun d => [setF F.SAFE_STATUS_ENTRY_GCNT 0 d.now, setF F.SAFE_STATUS_CAUSE 0 cause] ++ driveFault true d]

/-- What follows it before the slices are fenced. -/
def safeQuiet : List Act :=
  [fun _ => [.power fun p => { p with test := none }, setF F.KETTLE_STATUS_RUNNING 0 0], wakeUp, publishSnap true]

/-- The fences of the safe state (R463). -/
def fenceMembers (cls : Nat) : Act := fun d => forEach (fun e => fenceSlice e.1 cls) (d.slices.filter fun e => d.memberHere e.2) d

theorem runAct_fenceMembers (cls : Nat) (d : Dev) : runAct (fenceMembers cls) d =
    runAct (forEach (fun e => fenceSlice e.1 cls) (d.slices.filter fun e => d.memberHere e.2)) d := by
  simp only [runAct_eq, fenceMembers]

/-- The outputs of the safe state that stop last: the arrays are gated, and a device fence floods (R461, R462). -/
def gateArrays : Act := fun d =>
  d.cores.flatMap fun e => [setF F.CORE_STATUS_DUMMY_A e.1 0, setF F.CORE_STATUS_DUMMY_B e.1 0, setF F.CORE_STATUS_GATED e.1 1]

theorem enterSafe_eq (cause cls : Nat) (d : Dev) : enterSafe cause cls d = if d.mode = stSafe then [] else
    inSequence (safeStart cause ++ (safeQuiet ++ [fenceMembers cls, gateArrays, sendFences true 0])) d := rfl

theorem tames_safeStart (cause : Nat) : ∀ a ∈ safeStart cause, Tames safeParts safeRegs a := by
  simp only [safeStart, List.mem_cons, List.not_mem_nil, or_false, forall_eq_or_imp, forall_eq]
  refine ⟨(tames_enterState _).mono (by decide) (by decide), fun d => ?_⟩
  rw [tame_append]
  exact ⟨tame_of_all rfl, (tames_driveFault true d).mono (by decide) (by decide)⟩

theorem tames_fenceMembers (cls : Nat) : Tames fenceParts fenceRegs (fenceMembers cls) := fun d =>
  Tames.forEach (fun e _ => tames_fenceSlice e.1 cls) d

/-- The registers that the safe state may write once it is entered. -/
def safeEndRegs : List Reg := fenceRegs ++ [.KETTLE_STATUS, .PWR_STATUS, .CORE_STATUS]

theorem tames_safeQuiet : ∀ a ∈ safeQuiet, Tames safeParts (floodRegs ++ [.KETTLE_STATUS, .PWR_STATUS]) a := by
  simp only [safeQuiet, List.mem_cons, List.not_mem_nil, or_false, forall_eq_or_imp, forall_eq]
  exact ⟨fun _ => tame_of_all rfl, tames_wakeUp.mono (by decide) (by decide), (tames_publishSnap _).mono (by decide) (by decide)⟩

theorem tames_gateArrays : Tames [.regs] [.CORE_STATUS] gateArrays := by
  intro d
  simp only [gateArrays, tame_flatMap]
  exact fun _ _ => tame_of_all rfl

theorem tames_safeEnd (cls : Nat) : Tames safeParts safeEndRegs (inSequence (safeQuiet ++ [fenceMembers cls, gateArrays, sendFences true 0])) := by
  refine Tames.inSequence fun a ha => ?_
  rcases List.mem_append.1 ha with ha | ha
  · exact (tames_safeQuiet a ha).mono (List.Subset.refl _) (by decide)
  · simp only [List.mem_cons, List.not_mem_nil, or_false] at ha
    rcases ha with rfl | rfl | rfl
    · exact (tames_fenceMembers cls).mono (by decide) (by decide)
    · exact tames_gateArrays.mono (by decide) (by decide)
    · exact (tames_sendFences _ _).mono (by decide) (by decide)

theorem tames_enterSafe (cause cls : Nat) : Tames safeParts safeRegs (enterSafe cause cls) := by
  intro d
  rw [enterSafe_eq, tame_ite]
  refine ⟨fun _ => tame_nil, fun _ => ?_⟩
  exact Tames.cons (tames_safeStart cause _ (List.mem_cons_self ..)) (Tames.cons (tames_safeStart cause _ (List.mem_cons_of_mem _
    (List.mem_cons_self ..))) ((tames_safeEnd cls).mono (List.Subset.refl _) (by decide))) d

/-! ### What the safe state leaves -/

/-- Every slice of which the module is a member is fenced by the fences of the safe state. -/
theorem fenced_fenceMembers {d d' : Dev} (cls : Nat) (coord : ∀ i, d'.reg .DEV_COORD i = d.reg .DEV_COORD i) {i : Nat}
    (desc : (d'.slice i).desc = (d.slice i).desc) (h : d.memberHere (d.slice i) = true) :
    ((runAct (fenceMembers cls) d').slice i).fenced = true := by
  rw [runAct_fenceMembers]
  have here : d'.memberHere (d'.slice i) = true := (memberHere_of_same coord desc).trans h
  have some_ := desc_of_memberHere here
  exact fenced_forEach (f := fun e : Nat × SliceSt => fenceSlice e.1 cls) (k := Prod.fst) (fun e => tames_fenceSlice e.1 cls)
    (fun e d h => fenced_fenceSlice h cls) _ d' (i, d'.slice i) (List.mem_filter.2 ⟨listed_of_desc some_, here⟩) some_

/-- What a list of updates sends is sent. -/
theorem sent_of_mem {us : List Upd} {m : Msg} (h : Upd.send m ∈ us) (d : Dev) : m ∈ (applyAll us d).outbox := by
  induction us generalizing d with
  | nil => exact absurd h List.not_mem_nil
  | cons u us ih =>
    rcases List.mem_cons.1 h with rfl | h
    · exact (sent_applyAll us _).subset (List.mem_append_right _ (List.mem_singleton_self m))
    · exact ih h _

/-- A device fence leaves every port that is UP (R461). -/
theorem sent_sendFences {d : Dev} {p : Nat} (hp : p < 6) (up : d.fld F.LINK_STATUS_STATE p = 5) (device : Bool) (pkey : BitVec 12)
    (d' : Dev) : Msg.fence p device pkey d.gcnt ∈ (applyAll (sendFences device pkey d) d').outbox := by
  have listed : Upd.send (.fence p device pkey d.gcnt) ∈ sendFences device pkey d := by
    refine List.mem_flatMap.2 ⟨p, List.mem_filter.2 ⟨?_, by simpa using up⟩, List.mem_cons_self ..⟩
    simp only [List.mem_cons, List.not_mem_nil, or_false]
    omega
  exact sent_of_mem listed d'

theorem inSafe_safeEnd (cls : Nat) : Invariant InSafe (inSequence (safeQuiet ++ [fenceMembers cls, gateArrays, sendFences true 0])) := by
  refine Invariant.inSequence fun a ha => ?_
  rcases List.mem_append.1 ha with ha | ha
  · exact (tames_safeQuiet a ha).confines.inSafe (by decide)
  · simp only [List.mem_cons, List.not_mem_nil, or_false] at ha
    rcases ha with rfl | rfl | rfl
    · intro d hd
      rw [runAct_fenceMembers]
      exact Invariant.forEach (fun e _ => inSafe_fenceSlice e.1 cls) d hd
    · exact tames_gateArrays.confines.inSafe (by decide)
    · exact (tames_sendFences _ _).inSafe

end Sys2Proof.Machine
end

