-- ==== Sys2Proof/Proofs/SafeState.lean ====
section
/-! PROOFS. The device-level safe state, the faults that enter it, and the timeouts of a slice (R456, R463, R464, R481, R650). -/

namespace Sys2Proof.Machine

theorem runAct_inSequence_append (as bs : List Act) (d : Dev) :
    runAct (inSequence (as ++ bs)) d = runAct (inSequence bs) (runAct (inSequence as) d) := by
  induction as generalizing d with
  | nil => rw [List.nil_append, runAct_inSequence_nil]
  | cons a as ih => rw [List.cons_append, runAct_inSequence_cons, runAct_inSequence_cons, ih]

theorem runAct_two (a b : Act) (d : Dev) : runAct (inSequence [a, b]) d = runAct b (runAct a d) := by
  rw [runAct_inSequence_cons, runAct_inSequence_cons, runAct_inSequence_nil]

theorem runAct_three (a b c : Act) (d : Dev) : runAct (inSequence [a, b, c]) d = runAct c (runAct b (runAct a d)) := by
  rw [runAct_inSequence_cons, runAct_two]

/-! ### The safe state -/

theorem fld_event {f : Fld} (d : Dev) (k : Nat) (b : List Byte) (i : Nat) (evt : f.reg ≠ .EVT_STATUS) (err : f.reg ≠ .CHAIN_ERR) :
    ((Upd.event k b).apply d).fld f i = d.fld f i := fld_raise d k b i evt err

/-- A write of a field leaves the fields of other bits. -/
theorem fld_setF_bits {f f' : Fld} (d : Dev) (i v : Nat) {j : Nat} (h : (f.hi < f'.lo ∨ f'.hi < f.lo) ∧ f.lo ≤ f.hi ∧ f'.lo ≤ f'.hi) :
    ((setF f i v).apply d).fld f' j = d.fld f' j := fld_setFld_bits d i j _ h

/-- FAULT_N reads as it is driven, and the rest of SAFE_STATUS as before. -/
theorem driveFault_reads (d d' : Dev) (same : d'.fld F.SAFE_STATUS_FAULT_N = d.fld F.SAFE_STATUS_FAULT_N) (low : Bool) :
    (applyAll (driveFault low d) d').fld F.SAFE_STATUS_FAULT_N = (if low then 1 else 0) ∧
    (∀ f : Fld, f.reg = .SAFE_STATUS → 0 < f.lo → f.lo ≤ f.hi → ∀ i, (applyAll (driveFault low d) d').fld f i = d'.fld f i) := by
  unfold driveFault
  split
  · rename_i already
    refine ⟨?_, fun f _ _ _ i => rfl⟩
    have narrow : d.fld F.SAFE_STATUS_FAULT_N < 2 := fld_lt d F.SAFE_STATUS_FAULT_N 0
    rw [applyAll_nil, same]
    subst already
    have one : d.fld F.SAFE_STATUS_FAULT_N = 0 ∨ d.fld F.SAFE_STATUS_FAULT_N = 1 := by omega
    rcases one with h | h <;> rw [Dev.bit, h] <;> rfl
  · refine ⟨?_, fun f hr hl hh i => ?_⟩
    · rw [applyAll_cons, applyAll_cons, applyAll_nil, apply_send]
      exact fld_setB _ _ _ _
    · rw [applyAll_cons, applyAll_cons, applyAll_nil, apply_send]
      exact fld_setF_bits _ _ _ (by simp only; omega)

/-- The cause and the count of the safe state, and FAULT_N (R463, R481, R650). -/
theorem safeStart_reads (d : Dev) {cause : Nat} (hc : cause < 256) :
    InSafe (runAct (inSequence (safeStart cause)) d) ∧
    (runAct (inSequence (safeStart cause)) d).fld F.SAFE_STATUS_CAUSE = cause ∧
    (runAct (inSequence (safeStart cause)) d).fld F.SAFE_STATUS_ENTRY_GCNT = d.now % 2 ^ 32 ∧
    (runAct (inSequence (safeStart cause)) d).fld F.SAFE_STATUS_FAULT_N = 1 := by
  have mode : (runAct (enterState stSafe) d).mode = stSafe := mode_enterState d (by decide)
  have now_ : (runAct (enterState stSafe) d).now = d.now := by
    rw [Dev.now, Dev.now, (quiet_enterState stSafe d).gcnt]
  unfold safeStart
  rw [runAct_inSequence_cons, runAct_inSequence_cons, runAct_inSequence_nil]
  generalize runAct (enterState stSafe) d = e at mode now_
  rw [runAct_eq, applyAll_append, ← now_]
  let e' := applyAll [setF F.SAFE_STATUS_ENTRY_GCNT 0 e.now, setF F.SAFE_STATUS_CAUSE 0 cause] e
  have set : e'.fld F.SAFE_STATUS_CAUSE = cause ∧ e'.fld F.SAFE_STATUS_ENTRY_GCNT = e.now % 2 ^ 32 ∧
      e'.fld F.SAFE_STATUS_FAULT_N = e.fld F.SAFE_STATUS_FAULT_N := by
    refine ⟨(fld_setF _ _ _ _).trans (Nat.mod_eq_of_lt hc), ?_, ?_⟩
    · exact (fld_setF_bits (f' := F.SAFE_STATUS_ENTRY_GCNT) _ _ _ (by decide)).trans (fld_setF _ _ _ _)
    · exact (fld_setF_bits (f' := F.SAFE_STATUS_FAULT_N) _ _ _ (by decide)).trans
        (fld_setF_bits (f' := F.SAFE_STATUS_FAULT_N) _ _ _ (by decide))
  obtain ⟨hcause, hentry, hsame⟩ := set
  obtain ⟨hfault, hrest⟩ := driveFault_reads e e' hsame true
  have quiet : (applyAll (driveFault true e) e').mode = e'.mode := (tames_driveFault true e).confined.fld e' (by decide) 0
  have mode' : e'.mode = e.mode := Confined.fld (ps := [.regs]) (rs := [.SAFE_STATUS]) (by
    simp only [confined_cons, confined_nil, and_true]
    exact ⟨rfl, rfl⟩) e (by decide) 0
  exact ⟨quiet.trans (mode'.trans mode), (hrest _ rfl (by decide) (by decide) 0).trans hcause,
    (hrest _ rfl (by decide) (by decide) 0).trans hentry, hfault⟩

/-- What the safe state's acts keep of the module they find: coordinates, descriptors, the states of links, and the count. -/
structure Settling (d d' : Dev) : Prop where
  coord : ∀ i, d'.reg .DEV_COORD i = d.reg .DEV_COORD i
  desc : ∀ i, (d'.slice i).desc = (d.slice i).desc
  link : ∀ p, d'.fld F.LINK_STATUS_STATE p = d.fld F.LINK_STATUS_STATE p
  gcnt : d'.gcnt = d.gcnt

theorem Settling.step {d d' : Dev} (h : Settling d d') {ps : List Part} {rs : List Reg} {a : Act} (t : Tames ps rs a)
    (coord : Reg.DEV_COORD ∉ rs) (gcnt : Part.gcnt ∉ ps) : Settling d (runAct a d') where
  coord i := ((t d').confined.reg d' coord i).trans (h.coord i)
  desc i := ((t d').desc d' i).trans (h.desc i)
  link p := ((t d').link d' p).trans (h.link p)
  gcnt := (keepAll_gcnt d' ((t d').confined.leaves gcnt)).trans h.gcnt

/-- Once the safe state is entered, every slice of which the module is a member is fenced, and a device fence has left. -/
theorem safeEnd_reads {d e : Dev} (h : Settling d e) (cls : Nat) :
    (∀ i, d.memberHere (d.slice i) = true →
      ((runAct (inSequence (safeQuiet ++ [fenceMembers cls, gateArrays, sendFences true 0])) e).slice i).fenced = true) ∧
    ∀ p, p < 6 → d.fld F.LINK_STATUS_STATE p = 5 →
      Msg.fence p true 0 d.gcnt ∈ (runAct (inSequence (safeQuiet ++ [fenceMembers cls, gateArrays, sendFences true 0])) e).outbox := by
  have quiet := h.step (Tames.inSequence tames_safeQuiet) (by decide) (by decide)
  have fenced := quiet.step (tames_fenceMembers cls) (by decide) (by decide)
  have gated := fenced.step tames_gateArrays (by decide) (by decide)
  rw [runAct_inSequence_append, runAct_inSequence_cons, runAct_inSequence_cons, runAct_inSequence_cons, runAct_inSequence_nil]
  refine ⟨fun i here => ?_, fun p hp up => ?_⟩
  · refine (tames_sendFences true 0 _).fenced _ ((tames_gateArrays _).fenced _ (fenced_fenceMembers cls (fun j => ?_) rfl ?_))
    · rfl
    · rw [memberHere_of_same quiet.coord (quiet.desc i)]
      exact here
  · rw [← gated.gcnt]
    exact sent_sendFences hp ((gated.link p).trans up) true 0 _

/-- The safe state, entered (R462, R463, R650). -/
theorem enteredSafe_enterSafe (d : Dev) {cause : Nat} (hc : cause < 256) (cls : Nat) :
    d.enteredSafe (runAct (enterSafe cause cls) d) cause := by
  by_cases already : d.mode = stSafe
  · rw [runAct_eq, enterSafe_eq, if_pos already]
    exact ⟨already, fun h => absurd already h⟩
  · obtain ⟨safe, hcause, hentry, hfault⟩ := safeStart_reads d hc
    have start : Settling d (runAct (inSequence (safeStart cause)) d) :=
      Settling.step ⟨fun _ => rfl, fun _ => rfl, fun _ => rfl, rfl⟩ (Tames.inSequence (tames_safeStart cause)) (by decide) (by decide)
    have run : runAct (enterSafe cause cls) d =
        runAct (inSequence (safeQuiet ++ [fenceMembers cls, gateArrays, sendFences true 0])) (runAct (inSequence (safeStart cause)) d) := by
      rw [← runAct_inSequence_append, runAct_eq, enterSafe_eq, if_neg already, ← runAct_eq]
    rw [run]
    generalize runAct (inSequence (safeStart cause)) d = e at *
    obtain ⟨fenced, sent⟩ := safeEnd_reads start cls
    have kept {f : Fld} (hf : f.reg ∉ safeEndRegs) := (tames_safeEnd cls e).confined.fld e hf 0
    exact ⟨inSafe_safeEnd cls e safe, fun _ =>
      ⟨(kept (by decide)).trans hcause, (kept (by decide)).trans hentry, (kept (by decide)).trans hfault, fenced, sent⟩⟩

/-! ### Module faults and timeouts -/

theorem tame_flagModule : Tame [.regs] [.RECOV_ERR] (flagRecov F.RECOV_ERR_MODULE) :=
  tame_flagFault (bit := F.RECOV_ERR_MODULE) (faults := F.RECOV_ERR_FAULTS) ⟨by decide, rfl, by decide⟩ rfl (by decide) (by decide) (by decide) 0

/-- What a module fault does behind its bit and the safe state: the items of a machine of one module fail, and it is reported (R460, R475). -/
theorem confines_moduleFault_end (d : Dev) (pkeys : List (BitVec 12)) : Confines recordParts recordRegs (inSequence [
      onlyIf d.buddyAxis.isNone (forEach (fun (e : Nat × SliceSt) => failAllItems e.1 0x21) (d.slices.filter fun e => d.memberHere e.2)),
      faultReport 3 none pkeys]) :=
  confines_inSequence_cons (Confines.onlyIf (Confines.forEach fun e _ => confines_failAllItems e.1 0x21))
    (confines_inSequence_cons (as := []) ((tames_faultReport 3 none pkeys).confines.mono (by decide) (by decide)) Confines.nil)

/-- The safe state stays entered behind acts that keep SAFE_STATUS, the machine state, and what is fenced. -/
theorem Dev.enteredSafe.step {d e : Dev} {cause : Nat} (h : d.enteredSafe e cause) {ps : List Part} {rs : List Reg} {a : Act}
    (t : Tames ps rs a) (status : Reg.SAFE_STATUS ∉ rs) (safe : Invariant InSafe a) : d.enteredSafe (runAct a e) cause := by
  obtain ⟨mode, entered⟩ := h
  refine ⟨safe e mode, fun out => ?_⟩
  obtain ⟨hcause, hentry, hfault, fenced, sent⟩ := entered out
  have kept {f : Fld} (hf : f.reg ∉ rs) := (t e).confined.fld e hf 0
  exact ⟨(kept status).trans hcause, (kept status).trans hentry, (kept status).trans hfault, fun i here => (t e).fenced e (fenced i here),
    fun p hp up => (sent_applyAll _ _).subset (sent p hp up)⟩

/-- The safe state entered from another module that differs in registers only is the one entered from it. -/
theorem Dev.enteredSafe.before {d d' e : Dev} {cause : Nat} (h : d'.enteredSafe e cause) (mode : d'.mode = d.mode) (same : Settling d d') :
    d.enteredSafe e cause := by
  obtain ⟨safe, entered⟩ := h
  refine ⟨safe, fun out => ?_⟩
  obtain ⟨hcause, hentry, hfault, fenced, sent⟩ := entered (mode ▸ out)
  refine ⟨hcause, ?_, hfault, fun i here => fenced i ?_, fun p hp up => ?_⟩
  · rw [hentry, Dev.now, Dev.now, same.gcnt]
  · rw [memberHere_of_same same.coord (same.desc i)]
    exact here
  · rw [← same.gcnt]
    exact sent p hp ((same.link p).trans up)

theorem moduleFault_eq (cause : Nat) (d : Dev) : moduleFault cause d = if d.mode = stSafe then [] else
    inSequence [
      fun _ => flagRecov F.RECOV_ERR_MODULE,
      enterSafe cause 3,
      inSequence [
        onlyIf d.buddyAxis.isNone (forEach (fun (e : Nat × SliceSt) => failAllItems e.1 0x21) (d.slices.filter fun e => d.memberHere e.2)),
        faultReport 3 none ((d.slices.filter fun e => d.memberHere e.2).map fun e => e.2.pkey)]] d := by
  simp only [moduleFault, inSequence, List.append_nil]

/-- A module fault enters the safe state with its cause, and sets its bit where the module was not there (R460, R463). -/
theorem moduleFault_reads (d : Dev) {cause : Nat} (hc : cause < 256) : d.enteredSafe (runAct (moduleFault cause) d) cause ∧
    (d.mode ≠ stSafe → (runAct (moduleFault cause) d).fld F.RECOV_ERR_MODULE = 1) := by
  by_cases already : d.mode = stSafe
  · rw [runAct_eq, moduleFault_eq, if_pos already]
    exact ⟨⟨already, fun h => absurd already h⟩, fun h => absurd already h⟩
  · have run := runAct_eq (moduleFault cause) d
    rw [moduleFault_eq, if_neg already, ← runAct_eq, runAct_inSequence_cons, runAct_inSequence_cons, runAct_inSequence_cons,
      runAct_inSequence_nil] at run
    rw [run]
    have ends := confines_moduleFault_end d ((d.slices.filter fun e => d.memberHere e.2).map fun e => e.2.pkey)
    generalize inSequence [onlyIf d.buddyAxis.isNone _, _] = tail at ends
    have flag : Settling d (runAct (fun _ => flagRecov F.RECOV_ERR_MODULE) d) :=
      Settling.step ⟨fun _ => rfl, fun _ => rfl, fun _ => rfl, rfl⟩ (fun _ => tame_flagModule) (by decide) (by decide)
    have bit : (runAct (fun _ => flagRecov F.RECOV_ERR_MODULE) d).fld F.RECOV_ERR_MODULE = 1 := (fld_flagFault d 0 rfl (by decide)).1
    have mode : (runAct (fun _ => flagRecov F.RECOV_ERR_MODULE) d).mode = d.mode := tame_flagModule.confined.fld d (by decide) 0
    generalize runAct (fun _ => flagRecov F.RECOV_ERR_MODULE) d = e at *
    have entered := (enteredSafe_enterSafe e hc 3).before mode flag
    refine ⟨entered.step (ends.tames (by decide) (by decide) (by decide) (by decide)) (by decide) (ends.inSafe (by decide)), fun _ => ?_⟩
    have moduleBit : ErrorBit F.RECOV_ERR_MODULE := ⟨by decide, rfl, by decide⟩
    exact (ends.tames (by decide) (by decide) (by decide) (by decide) _).error _ moduleBit ((tames_enterSafe cause 3 e).error e moduleBit bit)

theorem tames_timeout_end (device : Bool) (cause : Nat) : Tames safeParts safeRegs (onlyIf device (enterSafe cause 4)) :=
  (tames_enterSafe cause 4).onlyIf

/-- The work of a slice that has a descriptor times out (R301, R330, R456, R464). -/
theorem timedOut_timeoutSlice {d : Dev} {i : Nat} (h : (d.slice i).desc.isSome = true) (device : Bool) (cause : Nat) :
    TimedOut d (runAct (timeoutSlice i device cause) d) i := by
  obtain ⟨gone, kept⟩ := items_failAllItems i 0x40 d
  have desc : ((runAct (failAllItems i 0x40) d).slice i).desc.isSome = true := by
    rw [runAct_eq, slice_of_slices (keepAll_slices d ((confines_failAllItems i 0x40 d).leaves (by decide)))]
    exact h
  unfold timeoutSlice
  rw [runAct_inSequence_cons, runAct_inSequence_cons, runAct_inSequence_cons, runAct_inSequence_nil]
  generalize runAct (failAllItems i 0x40) d = e at *
  obtain ⟨fenced, halted⟩ := haltSlice_reads desc 4
  have items : (runAct (onlyIf device (enterSafe cause 4)) (runAct (haltSlice i 4) e)).commit.items = e.commit.items := by
    rw [runAct_eq, runAct_eq, keepAll_commit _ ((tames_timeout_end device cause _).confined.leaves (by decide)),
      keepAll_commit _ ((tames_haltSlice i 4 _).confined.leaves (by decide))]
  refine ⟨(tames_timeout_end device cause _).fenced _ fenced, (tames_timeout_end device cause _).halted _ halted, ?_, ?_⟩
  · rw [items]
    exact gone
  · rw [items]
    exact kept

/-- A timeout at device level leaves the module in the safe state (R463). -/
theorem inSafe_timeoutSlice (d : Dev) (i : Nat) {cause : Nat} (hc : cause < 256) : InSafe (runAct (timeoutSlice i true cause) d) := by
  unfold timeoutSlice
  rw [runAct_inSequence_cons, runAct_inSequence_cons, runAct_inSequence_cons, runAct_inSequence_nil, runAct_onlyIf_true]
  exact (enteredSafe_enterSafe _ hc 4).1

/-! ### Behind a command -/

theorem inSafe_settleReady : Invariant InSafe settleReady := by
  intro d hd
  rw [runAct_eq, settleReady, if_neg]
  · exact hd
  · rw [show d.mode = stSafe from hd]
    exact Bool.false_ne_true

/-- The module once a command's act has left it as `e`: the slices of discarded packets are fenced, and READY and RUNNING are settled
(R305, R458). -/
structure Behind (e d : Dev) : Prop where
  quiet : Quiet (runAct fenceLost e) d
  safe : InSafe e → InSafe d

theorem completes_behind {i : Instr} {s : State} {a : Act} {P : Dev → Prop} (he : exec i s = perform (onPower a) s)
    (hs : s.dev.steady) (h : ∀ d, Behind (runAct a s.dev) d → P d) : Completes i s P := by
  refine ⟨_, he.trans (perform_eq _ _), rfl, ?_⟩
  rw [withDev_dev, runAct_onPower hs.1]
  simp only [settled, runAct_inSequence_cons, runAct_inSequence_nil]
  exact h _ ⟨quiet_settleReady _, fun safe => inSafe_settleReady _ (inSafe_fenceLost _ safe)⟩

section behind
variable {e d : Dev} (b : Behind e d)
include b

theorem Behind.fld {f : Fld} (h : f.reg ∉ fenceRegs) (i : Nat) : d.fld f i = e.fld f i := by
  have mode : modeReg f.reg = false := modeReg_eq_false fun hm => h (List.mem_append_right _ hm)
  rw [b.quiet.fld mode, runAct_eq, (tames_fenceLost e).confined.fld e h]

theorem Behind.error {f : Fld} (hf : ErrorBit f) {i : Nat} (set : e.fld f i = 1) : d.fld f i = 1 := by
  have mode : modeReg f.reg = false := modeReg_eq_false (not_mem_of_sticky hf.1 (by decide))
  rw [b.quiet.fld mode]
  exact (tames_fenceLost e).error e hf set

theorem Behind.fenced {i : Nat} (h : (e.slice i).fenced = true) : (d.slice i).fenced = true := by
  rw [b.quiet.slice]
  exact (tames_fenceLost e).fenced e h

theorem Behind.halted {i : Nat} (h : (e.slice i).halted = true) : (d.slice i).halted = true := by
  rw [b.quiet.slice]
  exact (tames_fenceLost e).halted e h

theorem Behind.commit : d.commit = e.commit := by
  rw [b.quiet.commit, runAct_eq, keepAll_commit _ ((tames_fenceLost e).confined.leaves (by decide))]

theorem Behind.hbm : d.hbm = e.hbm := by
  rw [b.quiet.hbm, runAct_eq, keepAll_hbm _ ((tames_fenceLost e).confined.leaves (by decide))]

theorem Behind.spm : d.spm = e.spm := by
  rw [b.quiet.spm, runAct_eq, keepAll_spm _ ((tames_fenceLost e).confined.leaves (by decide))]

theorem Behind.chan (ch : Nat) : d.chan ch = e.chan ch := by
  rw [b.quiet.chan, runAct_eq, (tames_fenceLost e).confined.chan e (by decide)]

theorem Behind.sent {m : Msg} (h : m ∈ e.outbox) : m ∈ d.outbox := b.quiet.sent.subset ((sent_applyAll _ _).subset h)

theorem Behind.timedOut {d₀ : Dev} {i : Nat} (h : TimedOut d₀ e i) : TimedOut d₀ d i :=
  ⟨b.fenced h.fenced, b.halted h.halted, by rw [b.commit]; exact h.none, by rw [b.commit]; exact h.others⟩

theorem Behind.enteredSafe {d₀ : Dev} {cause : Nat} (h : d₀.enteredSafe e cause) : d₀.enteredSafe d cause :=
  ⟨b.safe h.1, fun out => by
    obtain ⟨hcause, hentry, hfault, fenced, sent⟩ := h.2 out
    exact ⟨(b.fld (by decide) 0).trans hcause, (b.fld (by decide) 0).trans hentry, (b.fld (by decide) 0).trans hfault,
      fun i here => b.fenced (fenced i here), fun p hp up => b.sent (sent p hp up)⟩⟩

end behind

/-- What leaves the slice's key and the items of other slices comes before a timeout as if it were none. -/
theorem TimedOut.before {d d' e : Dev} {i : Nat} (h : TimedOut d' e i) (slice : (d'.slice i).pkey = (d.slice i).pkey)
    (items : ∀ x ∈ d.commit.items, x.pkey ≠ (d.slice i).pkey → x ∈ d'.commit.items) : TimedOut d e i :=
  ⟨h.fenced, h.halted, slice ▸ h.none, fun x hx hk => h.others x (items x hx hk) (slice ▸ hk)⟩

end Sys2Proof.Machine
end

