-- ==== Sys2Proof/Proofs/Effects.lean ====
section
/-! PROOFS. Updates of sync words, and the end of transfers with the signals behind them, as changes of the module: tame, and sparing the
items of other slices (R240, R261, R317–R328, R446–R449). -/

namespace Sys2Proof.Machine

/-- The registers that the end of a transfer may write, with the signals and faults behind it. -/
def effectRegs : List Reg := fenceRegs ++ recordRegs ++ routerRegs ++ [.SYNC_ERR, .SYNC_ERR_LOC, .SYNC_SIG, .COMMIT_LOG]

/-- The parts that a fault may change, with the items that it fails. -/
def faultParts : List Part := fenceParts ++ recordParts

/-- The parts that the end of a transfer may change. -/
def effectParts : List Part := faultParts ++ [.spm, .spmMarks, .chans]

section acts
variable {ps : List Part} {rs : List Reg} {a : Act} (h : Tames ps rs a) {d : Dev}
include h

theorem Tames.error {f : Fld} (hf : ErrorBit f) {c : Nat} (set : d.fld f c = 1) : (runAct a d).fld f c = 1 := by
  rw [runAct_eq]
  exact (h d).error d hf set

theorem Tames.desc (i : Nat) : ((runAct a d).slice i).desc = (d.slice i).desc := by
  rw [runAct_eq, (h d).desc]

theorem Tames.fenced {i : Nat} (e : (d.slice i).fenced = true) : ((runAct a d).slice i).fenced = true := by
  rw [runAct_eq]
  exact (h d).fenced d e

theorem Tames.fld {f : Fld} (hf : f.reg ∉ rs) (i : Nat) : (runAct a d).fld f i = d.fld f i := by
  rw [runAct_eq, (h d).confined.fld d hf]

theorem Tames.wait {c n : Nat} (e : ((d.core c).ctx n).wait = none) : (((runAct a d).core c).ctx n).wait = none := by
  rw [runAct_eq]
  exact ((h d).core d c).2 n e

end acts

theorem Behind.wait {e d : Dev} (b : Behind e d) {c n : Nat} (h : ((e.core c).ctx n).wait = none) : ((d.core c).ctx n).wait = none := by
  rw [b.quiet.core]
  exact tames_fenceLost.wait h

theorem Behind.spmLost {e d : Dev} (b : Behind e d) : d.spmLost = e.spmLost := by
  rw [b.quiet.spmLost, runAct_eq, keepAll_spmLost _ ((tames_fenceLost e).confined.leaves (by decide))]

/-! What an act that may change only some parts and registers leaves. -/

section acts
variable {ps : List Part} {rs : List Reg} {a : Act} (h : Confines ps rs a) (d : Dev)
include h

theorem Confines.reg {r : Reg} (hr : r ∉ rs) (i : Nat) : (runAct a d).reg r i = d.reg r i := by
  rw [runAct_eq, (h d).reg d hr]
theorem Confines.fld {f : Fld} (hf : f.reg ∉ rs) (i : Nat) : (runAct a d).fld f i = d.fld f i := by
  rw [runAct_eq, (h d).fld d hf]
theorem Confines.core (hp : Part.cores ∉ ps) (c : Nat) : (runAct a d).core c = d.core c := by
  rw [runAct_eq, (h d).core d hp]
theorem Confines.slice (hp : Part.slices ∉ ps) (i : Nat) : (runAct a d).slice i = d.slice i := by
  rw [runAct_eq, (h d).slice d hp]
theorem Confines.chan (hp : Part.chans ∉ ps) (ch : Nat) : (runAct a d).chan ch = d.chan ch := by
  rw [runAct_eq, (h d).chan d hp]
theorem Confines.cores (hp : Part.cores ∉ ps) : (runAct a d).cores = d.cores := by
  rw [runAct_eq, keepAll_cores d ((h d).leaves hp)]
theorem Confines.hbm (hp : Part.hbm ∉ ps) : (runAct a d).hbm = d.hbm := by
  rw [runAct_eq, keepAll_hbm d ((h d).leaves hp)]
theorem Confines.spm (hp : Part.spm ∉ ps) : (runAct a d).spm = d.spm := by
  rw [runAct_eq, keepAll_spm d ((h d).leaves hp)]
theorem Confines.spmLost (hp : Part.spmLost ∉ ps) : (runAct a d).spmLost = d.spmLost := by
  rw [runAct_eq, keepAll_spmLost d ((h d).leaves hp)]
theorem Confines.schedLib (hp : Part.schedLib ∉ ps) : (runAct a d).schedLib = d.schedLib := by
  rw [runAct_eq, keepAll_schedLib d ((h d).leaves hp)]
theorem Confines.route (hp : Part.route ∉ ps) : (runAct a d).route = d.route := by
  rw [runAct_eq, keepAll_route d ((h d).leaves hp)]
theorem Confines.commit (hp : Part.commit ∉ ps) : (runAct a d).commit = d.commit := by
  rw [runAct_eq, keepAll_commit d ((h d).leaves hp)]

end acts

theorem live_onEngine (e : Engine) (g : EngineSt → EngineSt) (cs : CoreSt) : (onEngine e g cs).live = cs.live := by
  cases e <;> rfl

section pieces
variable {ps : List Part} {rs : List Reg}

/-- The record of a step is no mark of its slice. -/
theorem tame_onStep (hp : Part.slices ∈ ps) (i t : Nat) (g : StepSt → StepSt) : (Upd.slice i (onStep t g)).tame ps rs := by
  refine tame_slice hp fun s => ?_
  unfold onStep
  split
  · exact ⟨rfl, id, id⟩
  · split
    · exact ⟨rfl, id, id⟩
    · exact ⟨rfl, id, id⟩

theorem tames_writeHbm (a : Nat) (bs : List Byte) (bad : Bool) : Tames effectParts effectRegs (writeHbm a bs bad) :=
  ((confines_writeHbm a bs bad).tames (by decide) (by decide) (by decide) (by decide)).mono (by decide) (by decide)

theorem tames_failAllItems (i status : Nat) : Tames faultParts effectRegs (failAllItems i status) :=
  ((confines_failAllItems i status).tames (by decide) (by decide) (by decide) (by decide)).mono (by decide) (by decide)

theorem tames_fault (i cls : Nat) : Tames faultParts effectRegs (faultSlice i cls) := (tames_faultSlice i cls).mono (by decide) (by decide)

theorem tames_logFull (i t : Nat) : Tames faultParts effectRegs (logFull i t) := by
  refine Tames.cons (fun _ => ?_) (Tames.cons (tames_fault i 1) Tames.nil)
  simp only [tame_append, tame_cons, tame_nil, and_true]
  exact ⟨tame_flagFault (bit := F.RECOV_ERR_LOG_FULL) (faults := F.RECOV_ERR_FAULTS) ⟨by decide, rfl, by decide⟩ rfl (by decide)
    (by decide) (by decide) 0, tame_onStep (by decide) i t _, tame_slice (by decide) fun s => ⟨rfl, id, id⟩⟩

theorem tames_logUndo (i t a n : Nat) : Tames effectParts effectRegs (logUndo i t a n) := by
  intro d
  simp only [logUndo, tame_ite, tame_nil, tame_append, tame_cons, implies_true, true_and, and_true]
  exact fun _ => ⟨⟨tame_of_plain rfl, tame_of_plain rfl⟩, fun _ => (tames_logFull i t d).mono (by decide) (List.Subset.refl _)⟩

theorem tames_mirrorWrite (i t a : Nat) (bs : List Byte) (bad : Bool) : Tames effectParts effectRegs (mirrorWrite i t a bs bad) := by
  intro d
  unfold mirrorWrite
  split
  · exact tame_nil
  · simp only [tame_append, tame_map, tame_cons, tame_nil, and_true]
    exact ⟨fun _ _ => tame_of_plain rfl, tame_onStep (by decide) i t _⟩

theorem tames_storeStep (i t a : Nat) (bs : List Byte) (bad : Bool) : Tames effectParts effectRegs (storeStep i t a bs bad) := by
  intro d
  simp only [storeStep, tame_ite, tame_nil, implies_true, true_and]
  exact fun _ => ⟨fun _ => Tames.cons (tames_logUndo _ _ _ _) (Tames.cons (tames_writeHbm _ _ _) (Tames.cons (tames_mirrorWrite _ _ _ _ _)
    Tames.nil)) d, fun _ => tames_writeHbm _ _ _ d⟩

theorem tames_writeSync (i t : Nat) (l : SyncLoc) (v : Nat) : Tames effectParts effectRegs (writeSync i t l v) := by
  unfold writeSync
  split
  · exact fun _ => tame_of_all rfl
  · exact tames_storeStep _ _ _ _ _

theorem tame_flagSync (d : Dev) {bit : Fld} (hb : ErrorBit bit) (hs : bit.reg = .SYNC_ERR) (pkey id src core : Nat) :
    Tame [.regs] [.SYNC_ERR, .SYNC_ERR_LOC] (flagSync d bit pkey id src core) := by
  obtain ⟨reg, low, high⟩ := hb
  simp only [flagSync, tame_ite, tame_append]
  refine ⟨fun _ => ?_, fun _ => ⟨?_, fun _ => tame_of_all rfl, fun _ => tame_nil⟩⟩
  · rw [tame_cons]
    exact ⟨⟨by simp [setF, Upd.confined, Upd.touches, Upd.writes, hs],
      fun _ => .inr ⟨low, high, fun _ => rfl⟩, fun e => by simp [hs] at e⟩, tame_nil⟩
  · exact tame_flagFault ⟨reg, low, high⟩ (hs ▸ rfl) (by decide) (by decide) (by rw [hs]; decide) 0

/-- The error bits of sync faults. -/
theorem errorBit_updateWord {e : BitVec 128} {w kind : Nat} {value : BitVec 32} {sense : Bool} {bit : Fld}
    (h : updateWord e w kind value sense = .inl bit) : ErrorBit bit ∧ bit.reg = .SYNC_ERR := by
  have four : bit = F.SYNC_ERR_UNMAPPED ∨ bit = F.SYNC_ERR_UNDERFLOW ∨ bit = F.SYNC_ERR_OVERFLOW ∨ bit = F.SYNC_ERR_MISMATCH := by
    unfold updateWord at h
    dsimp only at h
    split at h
    · exact .inl (Sum.inl.inj h).symm
    · split at h
      · exact .inr (.inl (Sum.inl.inj h).symm)
      · cases h
    · split at h
      · exact .inr (.inr (.inl (Sum.inl.inj h).symm))
      · cases h
    · split at h
      · exact .inr (.inr (.inr (Sum.inl.inj h).symm))
      · split at h <;> cases h
    · cases h
    · exact .inr (.inr (.inr (Sum.inl.inj h).symm))
  rcases four with rfl | rfl | rfl | rfl <;> exact ⟨⟨by decide, rfl, by decide⟩, rfl⟩

/-- The faults of SYNC_IDs that a slice keeps for the test of repetition (R328). -/
def noteRepeat (i : Nat) (r : Repeats) (again : Bool) (id : Nat) : Act := fun _ =>
  [.slice i fun s => { s with repeats := { r with syncIds := if again then r.syncIds else r.syncIds ++ [id] } }]

/-- A fault that repeats is final (R328). -/
def failFinally (i : Nat) (again : Bool) : Act :=
  onlyIf again (inSequence [failAllItems i 0x21, fun _ => [.slice i fun s => { s with failed := true, rstate := 6 }]])

theorem syncFault_eq (i : Nat) (bit : Fld) (id src core : Nat) (d : Dev) : syncFault i bit id src core d =
    inSequence [fun d' => flagSync d' bit (d.slice i).pkey.toNat id src core,
      noteRepeat i ((d.slice i).repeats.at (d.slice i).nextStep) (((d.slice i).repeats.at (d.slice i).nextStep).syncIds.contains id) id,
      faultSlice i 1, failFinally i (((d.slice i).repeats.at (d.slice i).nextStep).syncIds.contains id)] d := rfl

theorem tames_repeat (i : Nat) (r : Repeats) (again : Bool) (id : Nat) : Tames faultParts effectRegs (noteRepeat i r again id) := by
  intro d
  simp only [noteRepeat, tame_cons, tame_nil, and_true]
  exact tame_slice (by decide) fun s => ⟨rfl, fun h => h, fun h => h⟩

theorem tames_again (i : Nat) (again : Bool) : Tames faultParts effectRegs (failFinally i again) := by
  refine Tames.onlyIf (Tames.cons (tames_failAllItems i 0x21) (Tames.cons (fun _ => ?_) Tames.nil))
  simp only [tame_cons, tame_nil, and_true]
  exact tame_slice (by decide) fun s => ⟨rfl, fun h => h, fun h => h⟩

theorem tames_syncFault (i : Nat) {bit : Fld} (hb : ErrorBit bit) (hs : bit.reg = .SYNC_ERR) (id src core : Nat) :
    Tames faultParts effectRegs (syncFault i bit id src core) := by
  intro d
  rw [syncFault_eq]
  exact Tames.cons (fun d => (tame_flagSync d hb hs _ _ _ _).mono (by decide) (by decide)) (Tames.cons (tames_repeat _ _ _ _) (Tames.cons (tames_fault i 1)
    (Tames.cons (tames_again _ _) Tames.nil))) d

theorem tames_sendReleases (pkey : BitVec 12) (id list : Nat) (sense : Bool) :
    Tames effectParts effectRegs (sendReleases pkey id list sense) := by
  intro d
  unfold sendReleases
  split
  · exact tame_nil
  · simp only [tame_append, tame_map, tame_cons, tame_nil, and_true]
    exact ⟨fun _ _ => tame_of_plain rfl, tame_of_plain rfl⟩

/-- A settled change of a context that starts no wait. -/
theorem tame_ctxUpd (hp : Part.cores ∈ ps) (d : Dev) (c n : Nat) {g : ThreadCtx → ThreadCtx} (hg : ∀ x, x.wait = none → (g x).wait = none) :
    (ctxUpd d c n g).tame ps rs := tame_core hp (waitless_onCtx fun x h => by rw [settle_wait, hg x h])

theorem tames_wakeCtx (c n : Nat) : Tames [.regs, .cores] [.SLIP_COUNT, .SLIP_TIME, .SLIP_LAST] (wakeCtx c n) := by
  intro d
  simp only [wakeCtx, tame_append, tame_cons, tame_nil, and_true]
  exact ⟨(tame_recordSlip c n _ d).mono (by decide) (by decide), tame_ctxUpd (by decide) d c n fun _ _ => rfl⟩

theorem clearRecord_wait (cond : Nat) (x : ThreadCtx) : (clearRecord cond x).wait = x.wait := by
  unfold clearRecord
  split <;> rfl

theorem tames_wakeWaiter (l : SyncLoc) (e : Nat × Nat × Nat) :
    Tames [.regs, .cores, .chans] [.SLIP_COUNT, .SLIP_TIME, .SLIP_LAST] (wakeWaiter l e) := by
  refine Tames.cons (fun _ => ?_) (Tames.cons ((tames_wakeCtx _ _).mono (by decide) (by decide)) (Tames.cons (fun d => ?_) Tames.nil))
  rotate_left
  · rw [tame_cons]
    exact ⟨tame_ctxUpd (by decide) d _ _ fun x h => by rw [clearRecord_wait, h], tame_nil⟩
  split
  · exact tame_of_all rfl
  · exact tame_nil

theorem tames_wakeWaiters (pkey : BitVec 12) (id w : Nat) (l : SyncLoc) :
    Tames [.regs, .cores, .chans] [.SLIP_COUNT, .SLIP_TIME, .SLIP_LAST] (wakeWaiters pkey id w l) :=
  fun d => Tames.forEach (fun e _ => tames_wakeWaiter l e) d

theorem tames_applySync (i t id kind : Nat) (value : BitVec 32) (sense : Bool) (src core : Nat) :
    Tames effectParts effectRegs (applySync i t id kind value sense src core) := by
  intro d
  unfold applySync
  dsimp only
  split
  · rename_i bit h
    exact (tames_syncFault i (errorBit_updateWord h).1 (errorBit_updateWord h).2 _ _ _ d).mono (by decide) (List.Subset.refl _)
  · exact Tames.cons (tames_writeSync _ _ _ _) (Tames.cons (fun _ => tame_of_all rfl) (Tames.cons (tames_sendReleases _ _ _ _).onlyIf
      (Tames.cons ((tames_wakeWaiters _ _ _ _).mono (by decide) (by decide)) Tames.nil))) d

theorem tames_emitSignal (c n opId i t kind id : Nat) (value : BitVec 32) (dest : Option Coord) :
    Tames effectParts effectRegs (emitSignal c n opId i t kind id value dest) := by
  intro d
  refine Tames.cons ?_ (Tames.cons (fun d => ?_) Tames.nil) d
  rotate_left
  · rw [completeOp, tame_cons]
    exact ⟨tame_ctxUpd (by decide) d c n fun _ h => h, tame_nil⟩
  split
  · exact tames_applySync _ _ _ _ _ _ _ _
  · exact fun _ => tame_of_all rfl

theorem tames_releaseAfters (c i : Nat) (sigs : List AfterSig) : Tames effectParts effectRegs (releaseAfters c i sigs) :=
  Tames.cons (fun _ => (tame_cons _ _).2 ⟨tame_core (by decide) (waitless_of_ctxs (fun _ => rfl) fun _ => rfl), tame_nil⟩)
    (Tames.cons (Tames.forEach fun _ _ => tames_emitSignal _ _ _ _ _ _ _ _ _) Tames.nil)

theorem tames_leaveEngine (c : Nat) (e : Engine) (a : Arm) : Tames effectParts effectRegs (leaveEngine c e a) :=
  Tames.cons (fun _ => (tame_cons _ _).2 ⟨tame_core (by decide) (waitless_of_ctxs (fun _ => by rw [live_onEngine])
    fun _ => by rw [ctxs_onEngine]), tame_nil⟩) (Tames.cons (fun d => Tames.forEach (fun n _ => (tames_wakeCtx c n).mono (by decide) (by decide)) d) Tames.nil)

theorem tames_finishArm (c : Nat) (e : Engine) (a : Arm) : Tames effectParts effectRegs (finishArm c e a) := by
  intro d
  refine Tames.cons (tames_leaveEngine c e a) (Tames.cons (fun d' => ?_) Tames.nil) d
  split
  · exact tames_releaseAfters _ _ _ d'
  · exact tame_nil

/-- The words that an aborted fetch would have filled, marked bad (R261). -/
def abortMarks (d : Dev) (c : Nat) (item : Option Nat) (e : Engine) (a : Arm) : List Upd :=
  match d.desc c a.stream, (d.core c).engine e with
  | some x, ⟨b :: _, some t⟩ =>
    if x.drain || !(b.stream = a.stream && b.armNo = a.armNo) || x.buf = .queue then [] else
      [Upd.spmMarks fun m => m ++ (stringWords d c x a (stringBytes d x t.runs)).map fun w => (wordKey c w, item.getD 0)]
  | _, _ => []

theorem abortArm_eq (c : Nat) (bit : Fld) (item : Option Nat) (e : Engine) (a : Arm) (d : Dev) : abortArm c bit item e a d =
    inSequence [fun d' => abortMarks d c item e a ++ flagStream d' c bit a.stream item, finishArm c e a] d := rfl

theorem tame_abortMarks (d : Dev) (c : Nat) (item : Option Nat) (e : Engine) (a : Arm) :
    Tame [.regs, .spmMarks] [.STREAM_ERR, .STREAM_ERR_LOC] (abortMarks d c item e a) := by
  unfold abortMarks
  split
  · rw [tame_ite]
    exact ⟨fun _ => tame_nil, fun _ => tame_of_all rfl⟩
  · exact tame_nil

theorem tames_abortArm (c : Nat) {bit : Fld} (hb : ErrorBit bit) (hs : bit.reg = .STREAM_ERR) (item : Option Nat) (e : Engine) (a : Arm) :
    Tames effectParts effectRegs (abortArm c bit item e a) := by
  intro d
  rw [abortArm_eq]
  refine Tames.cons (fun d' => ?_) (Tames.cons (tames_finishArm c e a) Tames.nil) d
  rw [tame_append]
  exact ⟨(tame_abortMarks d c item e a).mono (by decide) (by decide), (tame_flagStream d' c hb hs _ _).mono (by decide) (by decide)⟩

/-- The other arms of a core that are part of a task (R261). -/
def taskArms (d : Dev) (c : Nat) (a : Arm) (item : Option Nat) : List (Engine × Arm) :=
  engines.flatMap fun f => ((d.core c).engine f).queue.filterMap fun b =>
    if !(b.stream = a.stream && b.armNo = a.armNo) && inTask d c a.firing.step item f b then some (f, b) else none

/-- What the items of an aborted task take (R261). -/
def failTask (c : Nat) (a : Arm) (status : Nat) (item : Option Nat) : Act := fun d =>
  match d.coreSlice c with
  | some i => [match item with | some h => failItem i a.firing.step h status | none => failStep i a.firing.step status]
  | none => []

theorem abortTask_eq (c : Nat) (e : Engine) (a : Arm) (bit : Fld) (status : Nat) (item : Option Nat) (d : Dev) :
    abortTask c e a bit status item d = inSequence [failTask c a status item, abortArm c bit item e a,
      forEach (fun p => abortArm c bit item p.1 p.2) (taskArms d c a item)] d := rfl

theorem tames_failTask (c : Nat) (a : Arm) (status : Nat) (item : Option Nat) : Tames effectParts effectRegs (failTask c a status item) := by
  intro d
  unfold failTask
  split
  · rw [tame_cons]
    refine ⟨?_, tame_nil⟩
    split
    · exact tame_onStep (by decide) _ _ _
    · exact tame_onStep (by decide) _ _ _
  · exact tame_nil

theorem tames_abortTask (c : Nat) (e : Engine) (a : Arm) {bit : Fld} (hb : ErrorBit bit) (hs : bit.reg = .STREAM_ERR) (status : Nat)
    (item : Option Nat) : Tames effectParts effectRegs (abortTask c e a bit status item) := by
  intro d
  have all : Tames effectParts effectRegs (inSequence [failTask c a status item, abortArm c bit item e a,
      forEach (fun p => abortArm c bit item p.1 p.2) (taskArms d c a item)]) :=
    Tames.cons (tames_failTask c a status item) (Tames.cons (tames_abortArm c hb hs item e a) (Tames.cons
      (Tames.forEach fun p _ => tames_abortArm c hb hs item p.1 p.2) Tames.nil))
  rw [abortTask_eq]
  exact all d

/-- A stream fault sets its bit (R267). -/
theorem flagged_flagStream (d₀ : Dev) (c : Nat) {bit : Fld} (hb : ErrorBit bit) (hs : bit.reg = .STREAM_ERR) (stream : Nat)
    (item : Option Nat) (d : Dev) : (applyAll (flagStream d₀ c bit stream item) d).fld bit c = 1 := by
  have flag := (fld_flagFault (faults := F.STREAM_ERR_FAULTS) d c rfl ⟨.inr hb.2.2, by decide, hb.2.1.le⟩).1
  have tame := tame_flagStream d₀ c hb hs stream item
  unfold flagStream at tame ⊢
  rw [applyAll_append]
  exact ((tame_append _ _).1 tame).2.error _ hb flag

/-- An aborted transfer sets its bit (R261, R267). -/
theorem flagged_abortArm (c : Nat) (e : Engine) (a : Arm) {bit : Fld} (hb : ErrorBit bit) (hs : bit.reg = .STREAM_ERR) (item : Option Nat) (d : Dev) :
    (runAct (abortArm c bit item e a) d).fld bit c = 1 := by
  have run := runAct_eq (abortArm c bit item e a) d
  rw [abortArm_eq, ← runAct_eq, runAct_inSequence_cons, runAct_inSequence_cons, runAct_inSequence_nil] at run
  rw [run]
  refine (tames_finishArm c e a).error hb ?_
  rw [runAct_eq, applyAll_append]
  exact flagged_flagStream _ c hb hs _ _ _

/-- An aborted task sets its bit (R261, R267). -/
theorem flagged_abortTask (c : Nat) (e : Engine) (a : Arm) {bit : Fld} (hb : ErrorBit bit) (hs : bit.reg = .STREAM_ERR) (status : Nat)
    (item : Option Nat) (d : Dev) : (runAct (abortTask c e a bit status item) d).fld bit c = 1 := by
  have run := runAct_eq (abortTask c e a bit status item) d
  rw [abortTask_eq, ← runAct_eq, runAct_inSequence_cons, runAct_inSequence_cons, runAct_inSequence_cons, runAct_inSequence_nil] at run
  rw [run]
  exact Tames.error (Tames.forEach fun p _ => tames_abortArm c hb hs item p.1 p.2) hb (flagged_abortArm c e a hb hs item _)

end pieces

end Sys2Proof.Machine
end

