-- ==== Sys2Proof/Proofs/Signals.lean ====
section
/-! PROOFS. Sync words as memory, and what a received signal or release does (R317–R328). -/

namespace Sys2Proof.Machine

/-! ### Reading back what was written -/

theorem memByte_memSlice (m : SMap Byte) {a n x : Nat} (h : a ≤ x ∧ x < a + n) : memByte (memSlice m a n) x = memByte m x :=
  memByte_filter (fun y => a ≤ y && y < a + n) m x (by simpa using h)

theorem memRead_eq (m : SMap Byte) (a n : Nat) : memRead m a n = (List.range n).map fun i => memByte m (a + i) := by
  refine List.map_congr_left fun i hi => memByte_memSlice m ?_
  have := List.mem_range.1 hi
  omega

/-- A run of bytes reads as it was written. -/
theorem memRead_memWrite_same (m : SMap Byte) (a : Nat) (bs : List Byte) : memRead (memWrite m a bs) a bs.length = bs := by
  rw [memRead_eq]
  refine List.ext_getElem (by simp) fun i h1 h2 => ?_
  rw [List.getElem_map, List.getElem_range, memByte_memWrite_same m a bs i h2, List.getD_eq_getElem?_getD, List.getElem?_eq_getElem h2]
  rfl

theorem length_leBytes (n v : Nat) : (leBytes n v).length = n := by
  induction n generalizing v with
  | zero => rfl
  | succ n ih => rw [leBytes, List.length_cons, ih]

theorem leNat_leBytes (n v : Nat) : leNat (leBytes n v) = v % 256 ^ n := by
  induction n generalizing v with
  | zero => rw [leBytes, leNat, Nat.pow_zero, Nat.mod_one]
  | succ n ih =>
    rw [leBytes, leNat, ih, BitVec.toNat_ofNat, show 256 ^ (n + 1) = 2 ^ 8 * 256 ^ n from Nat.pow_succ', Nat.mod_mul]
    rfl

/-- The veil of lost scratchpad bytes is its own inverse. -/
theorem spmVeil_spmVeil (d : Dev) (a : Nat) (bs : List Byte) : d.spmVeil a (d.spmVeil a bs) = bs := by
  unfold Dev.spmVeil
  split
  · rfl
  · refine List.ext_getElem (by simp) fun i h1 h2 => ?_
    simp

theorem readSpm_of_same {d d' : Dev} (spm : d'.spm = d.spm) (lost : d'.spmLost = d.spmLost) (c a n : Nat) :
    d'.readSpm c a n = d.readSpm c a n := by
  simp only [Dev.readSpm, Dev.spmVeil, spm, lost]

/-- Bytes written to a scratchpad read as they were written. -/
theorem readSpm_apply_spm (d : Dev) {c a : Nat} {bs : List Byte} (core : c < coreCount) (room : a + bs.length ≤ spmSize) :
    ((Upd.spm c a bs).apply d).readSpm c a bs.length = bs := by
  have take : bs.take (spmSize - a) = bs := List.take_of_length_le (by omega)
  rw [apply_spm, if_pos core, take]
  unfold Dev.readSpm
  have written := memRead_memWrite_same d.spm (c * spmSize + a) (d.spmVeil (c * spmSize + a) bs)
  rw [length_spmVeil] at written
  dsimp only
  rw [written]
  exact spmVeil_spmVeil d _ _

/-! ### Updates of sync words -/

/-- The values of sync words fit in their eight bytes. -/
theorem updateWord_lt {e : BitVec 128} {w kind : Nat} {value : BitVec 32} {sense : Bool} {v : Nat}
    (h : updateWord e w kind value sense = .inr v) : v < 2 ^ 64 := by
  have hv := value.isLt
  have barrier (s : Bool) (n : Nat) : barrierWord s n ≤ 65536 + n := by
    unfold barrierWord
    split <;> omega
  unfold updateWord at h
  dsimp only at h
  split at h
  · cases h
  · split at h
    · cases h
    · have := Sum.inr.inj h
      omega
  · split at h
    · cases h
    · have := Sum.inr.inj h
      omega
  · split at h
    · cases h
    · split at h
      · have := Sum.inr.inj h
        have := barrier (senseOf w) (arrivedOf w + 1)
        have : arrivedOf w < 65536 := Nat.mod_lt _ (by decide)
        omega
      · have := Sum.inr.inj h
        have := barrier (!senseOf w) 0
        omega
  · have := Sum.inr.inj h
    have := barrier sense 0
    omega
  · cases h

/-- A sync word in a scratchpad holds what was written. -/
theorem syncWord_writeSync {c a v : Nat} (core : c < coreCount) (room : a + 8 ≤ spmSize) (hv : v < 2 ^ 64) (i t : Nat) (d : Dev) :
    (runAct (writeSync i t (.spm c a) v) d).syncWord (.spm c a) = v := by
  have read := readSpm_apply_spm (bs := leBytes 8 v) d core (by rw [length_leBytes]; exact room)
  rw [length_leBytes] at read
  rw [writeSync, runAct_list, applyAll_cons, applyAll_nil, Dev.syncWord, read, leNat_leBytes]
  exact Nat.mod_eq_of_lt hv

theorem syncWord_of_same {d d' : Dev} {c a : Nat} (spm : d'.spm = d.spm) (lost : d'.spmLost = d.spmLost) :
    d'.syncWord (.spm c a) = d.syncWord (.spm c a) := by
  simp only [Dev.syncWord, readSpm_of_same spm lost]

/-! ### Waits that an update meets -/

/-- A family's listed value stands in its list. -/
theorem mem_ctxs_of_wait {cs : CoreSt} {n : Nat} {w : Wait} (h : (cs.ctx n).wait = some w) : (n, cs.ctx n) ∈ cs.ctxs :=
  mem_of_mapGet fun e => by rw [CoreSt.ctx, e] at h; cases h

theorem mem_cores_of_wait {d : Dev} {c n : Nat} {w : Wait} (h : ((d.core c).ctx n).wait = some w) : (c, d.core c) ∈ d.cores :=
  mem_of_mapGet fun e => by rw [Dev.core, e] at h; cases h

/-- A context of the slice whose wait a word meets is among those that its update wakes (R324). -/
theorem mem_metWaiters {d : Dev} {pkey : BitVec 12} {c n id cond v : Nat} {val : BitVec 32} {w : Wait}
    (core : d.corePkey (d.core c) = some pkey) (wait : ((d.core c).ctx n).wait = some w) (obj : w.obj = .sync id cond val)
    (met : condMet ((d.core c).ctx n) id cond val v = true) : (c, n, cond) ∈ metWaiters d pkey id v := by
  refine List.mem_flatMap.2 ⟨(c, d.core c), List.mem_filter.2 ⟨mem_cores_of_wait wait, by simpa using core⟩, ?_⟩
  refine List.mem_filterMap.2 ⟨(n, (d.core c).ctx n), mem_ctxs_of_wait wait, ?_⟩
  obtain ⟨o, before, due, start, limited⟩ := w
  subst obj
  simp only [wait, met, decide_true, Bool.and_self, if_true]

theorem wait_wakeWaiter (l : SyncLoc) (e : Nat × Nat × Nat) (d d' : Dev) :
    (((applyAll (wakeWaiter l e d) d').core e.1).ctx e.2.1).wait = none := by
  have tame (d : Dev) : Tame effectParts effectRegs [ctxUpd d e.1 e.2.1 (clearRecord e.2.2)] := by
    rw [tame_cons]
    exact ⟨tame_ctxUpd (by decide) d _ _ fun x h => by rw [clearRecord_wait, h], tame_nil⟩
  simp only [wakeWaiter, inSequence, List.append_nil, applyAll_append]
  exact ((tame _).core _ e.1).2 _ (wakeCtx_wait ..)

/-- Every context that is woken waits no longer. -/
theorem wait_wakeAll (l : SyncLoc) (es : List (Nat × Nat × Nat)) (d : Dev) : ∀ e ∈ es,
    (((runAct (forEach (wakeWaiter l) es) d).core e.1).ctx e.2.1).wait = none := by
  induction es generalizing d with
  | nil => exact fun e h => absurd h List.not_mem_nil
  | cons x es ih =>
    intro e he
    have run : runAct (forEach (wakeWaiter l) (x :: es)) d = runAct (forEach (wakeWaiter l) es) (runAct (wakeWaiter l x) d) :=
      runAct_inSequence_cons ..
    rw [run]
    rcases List.mem_cons.1 he with rfl | he
    · exact (Tames.forEach fun y _ => tames_wakeWaiter l y).wait (by rw [runAct_eq]; exact wait_wakeWaiter l e d d)
    · exact ih _ e he

theorem wait_wakeWaiters {d : Dev} {pkey : BitVec 12} {c n id cond v : Nat} {val : BitVec 32} {w : Wait} (cl a : Nat)
    (core : d.corePkey (d.core c) = some pkey) (wait : ((d.core c).ctx n).wait = some w) (obj : w.obj = .sync id cond val)
    (met : condMet ((d.core c).ctx n) id cond val v = true) :
    (((runAct (wakeWaiters pkey id v (.spm cl a)) d).core c).ctx n).wait = none := by
  have run : runAct (wakeWaiters pkey id v (.spm cl a)) d = runAct (forEach (wakeWaiter (.spm cl a)) (metWaiters d pkey id v)) d := by
    simp only [runAct_eq, wakeWaiters]
  rw [run]
  exact wait_wakeAll _ _ d _ (mem_metWaiters core wait obj met)

/-! ### Updates applied -/

/-- What an update of a scratchpad word does behind its write (R317, R324, R325). -/
def syncTail (pkey : BitVec 12) (id kind list : Nat) (old v : Nat) (l : SyncLoc) : List Act :=
  [fun _ => [addF F.SYNC_SIG_APPLIED 0 1],
   onlyIf (kind = 2 && senseOf v ≠ senseOf old && list ≠ 1023) (sendReleases pkey id list (senseOf v)),
   wakeWaiters pkey id v l]

theorem applySync_eq (i t id kind : Nat) (value : BitVec 32) (sense : Bool) (src core : Nat) (d : Dev) {v : Nat}
    (h : updateWord (d.syncEntry (d.slice i).pkey id) (d.syncWord (syncLoc (d.syncEntry (d.slice i).pkey id))) kind value sense = .inr v) :
    applySync i t id kind value sense src core d =
      inSequence (writeSync i t (syncLoc (d.syncEntry (d.slice i).pkey id)) v :: syncTail (d.slice i).pkey id kind
        (syncRelease (d.syncEntry (d.slice i).pkey id)) (d.syncWord (syncLoc (d.syncEntry (d.slice i).pkey id))) v
        (syncLoc (d.syncEntry (d.slice i).pkey id))) d := by
  unfold applySync
  dsimp only
  rw [h]
  rfl

/-- The parts that an update of a scratchpad word may change behind its write. -/
def tailParts : List Part := [.regs, .cores, .chans, .ports, .route, .chain, .outbox]

/-- The registers that it may write. -/
def tailRegs : List Reg := routerRegs ++ [.SYNC_SIG, .SLIP_COUNT, .SLIP_TIME, .SLIP_LAST]

theorem confines_sendReleases (pkey : BitVec 12) (id list : Nat) (sense : Bool) :
    Confines [.regs, .ports, .route, .chain, .outbox] (.SYNC_SIG :: routerRegs) (sendReleases pkey id list sense) := by
  intro d
  unfold sendReleases
  split
  · exact confined_nil
  · simp only [confined_append, confined_map, confined_cons, confined_nil, and_true]
    exact ⟨fun _ _ => rfl, rfl⟩

/-- Releases count beside the updates applied (R336). -/
theorem applied_sendReleases (pkey : BitVec 12) (id list : Nat) (sense : Bool) (d : Dev) :
    (runAct (sendReleases pkey id list sense) d).fld F.SYNC_SIG_APPLIED = d.fld F.SYNC_SIG_APPLIED := by
  rw [runAct_eq]
  unfold sendReleases
  split
  · rfl
  · rw [applyAll_append, applyAll_cons, applyAll_nil]
    refine (fld_setFld_bits _ _ _ _ (by decide)).trans (Confined.fld (ps := [.regs, .ports, .route, .chain, .outbox]) (rs := routerRegs) ?_ _
      (by decide) 0)
    rw [confined_map]
    exact fun _ _ => rfl

theorem confines_wakeWaiter (l : SyncLoc) (e : Nat × Nat × Nat) :
    Confines [.regs, .cores, .chans] [.SLIP_COUNT, .SLIP_TIME, .SLIP_LAST] (wakeWaiter l e) := by
  refine confines_inSequence_cons (fun _ => ?_) (confines_inSequence_cons ((confines_wakeCtx _ _).mono (by decide) (by decide))
    (confines_inSequence_cons (as := []) (fun _ => ?_) Confines.nil))
  · split
    · simp only [confined_cons, confined_nil, and_true]
      rfl
    · exact confined_nil
  · simp only [confined_cons, confined_nil, and_true]
    rfl

theorem confines_wakeWaiters (pkey : BitVec 12) (id w : Nat) (l : SyncLoc) :
    Confines [.regs, .cores, .chans] [.SLIP_COUNT, .SLIP_TIME, .SLIP_LAST] (wakeWaiters pkey id w l) := fun d =>
  Confines.forEach (fun e _ => confines_wakeWaiter l e) d

theorem confines_syncTail (pkey : BitVec 12) (id kind list old v : Nat) (l : SyncLoc) :
    Confines tailParts tailRegs (inSequence (syncTail pkey id kind list old v l)) := by
  refine confines_inSequence_cons (fun _ => ?_) (confines_inSequence_cons (Confines.onlyIf ((confines_sendReleases _ _ _ _).mono (by decide)
    (by decide))) (confines_inSequence_cons (as := []) ((confines_wakeWaiters _ _ _ _).mono (by decide) (by decide)) Confines.nil))
  simp only [confined_cons, confined_nil, and_true]
  rfl

theorem applied_syncTail (pkey : BitVec 12) (id kind list old v : Nat) (l : SyncLoc) (d : Dev) :
    (runAct (inSequence (syncTail pkey id kind list old v l)) d).fld F.SYNC_SIG_APPLIED = (d.fld F.SYNC_SIG_APPLIED + 1) % 2 ^ 32 := by
  unfold syncTail
  rw [runAct_inSequence_cons, runAct_inSequence_cons, runAct_inSequence_cons, runAct_inSequence_nil, runAct_list, applyAll_cons, applyAll_nil,
    (confines_wakeWaiters _ _ _ _).fld _ (by decide), runAct_onlyIf]
  split
  · rw [applied_sendReleases, fld_addF]
    rfl
  · rw [fld_addF]
    rfl

/-- A context whose wait the value meets waits no longer behind the update (R324). -/
theorem wait_syncTail {pkey : BitVec 12} {id kind list old v cl a c n cond : Nat} {val : BitVec 32} {w : Wait} {d : Dev}
    (core : d.corePkey (d.core c) = some pkey) (wait : ((d.core c).ctx n).wait = some w) (obj : w.obj = .sync id cond val)
    (met : condMet ((d.core c).ctx n) id cond val v = true) :
    (((runAct (inSequence (syncTail pkey id kind list old v (.spm cl a))) d).core c).ctx n).wait = none := by
  unfold syncTail
  rw [runAct_inSequence_cons, runAct_inSequence_cons, runAct_inSequence_cons, runAct_inSequence_nil]
  have add : Confines [.regs] [.SYNC_SIG] fun _ => [addF F.SYNC_SIG_APPLIED 0 1] := fun _ => by
    simp only [confined_cons, confined_nil, and_true]
    rfl
  have send : Confines [.regs, .ports, .route, .chain, .outbox] (.SYNC_SIG :: routerRegs)
      (onlyIf (kind = 2 && senseOf v ≠ senseOf old && list ≠ 1023) (sendReleases pkey id list (senseOf v))) :=
    (confines_sendReleases _ _ _ _).onlyIf
  generalize onlyIf _ _ = releases at send
  have same (c : Nat) : (runAct releases (runAct (fun _ => [addF F.SYNC_SIG_APPLIED 0 1]) d)).core c = d.core c := by
    rw [send.core _ (by decide), add.core _ (by decide)]
  have lib : (runAct releases (runAct (fun _ => [addF F.SYNC_SIG_APPLIED 0 1]) d)).schedLib = d.schedLib := by
    rw [send.schedLib _ (by decide), add.schedLib _ (by decide)]
  generalize runAct releases _ = d' at same lib
  refine wait_wakeWaiters cl a ?_ (by rw [same]; exact wait) obj (by rw [same]; exact met)
  rw [Dev.corePkey, same, lib]
  exact core

/-- A scratchpad word after its update: it holds its value, the update is counted, HBM is as before, and every context whose wait the value
meets waits no longer (R317, R324). -/
theorem applySync_reads (i t id kind : Nat) (value : BitVec 32) (sense : Bool) (src core : Nat) (d : Dev) {v c a : Nat}
    (loc : syncLoc (d.syncEntry (d.slice i).pkey id) = .spm c a) (hc : c < coreCount) (ha : a + 8 ≤ spmSize)
    (h : updateWord (d.syncEntry (d.slice i).pkey id) (d.syncWord (syncLoc (d.syncEntry (d.slice i).pkey id))) kind value sense = .inr v) :
    let e := runAct (applySync i t id kind value sense src core) d
    e.syncWord (.spm c a) = v ∧ e.fld F.SYNC_SIG_APPLIED = (d.fld F.SYNC_SIG_APPLIED + 1) % 2 ^ 32 ∧ e.hbm = d.hbm ∧
      ∀ c n w cond val, d.corePkey (d.core c) = some (d.slice i).pkey → ((d.core c).ctx n).wait = some w → w.obj = .sync id cond val →
        condMet ((d.core c).ctx n) id cond val v = true → ((e.core c).ctx n).wait = none := by
  have run := runAct_eq (applySync i t id kind value sense src core) d
  rw [applySync_eq i t id kind value sense src core d h, loc, ← runAct_eq, runAct_inSequence_cons] at run
  intro e
  have word := syncWord_writeSync hc ha (updateWord_lt h) i t d
  have write : Confines [.spm] [] (writeSync i t (.spm c a) v) := fun _ => by
    simp only [writeSync, confined_cons, confined_nil, and_true]
    rfl
  have tail := confines_syncTail (d.slice i).pkey id kind (syncRelease (d.syncEntry (d.slice i).pkey id)) (d.syncWord (.spm c a)) v (.spm c a)
  have count := applied_syncTail (d.slice i).pkey id kind (syncRelease (d.syncEntry (d.slice i).pkey id)) (d.syncWord (.spm c a)) v (.spm c a)
  have he : e = _ := run
  rw [he]
  refine ⟨?_, ?_, ?_, fun c' n w cond val hk hw ho hm => ?_⟩
  · rw [syncWord_of_same (tail.spm _ (by decide)) (tail.spmLost _ (by decide))]
    exact word
  · rw [count, write.fld d (by decide)]
  · rw [tail.hbm _ (by decide), write.hbm d (by decide)]
  · refine wait_syncTail ?_ (by rw [write.core d (by decide)]; exact hw) ho (by rw [write.core d (by decide)]; exact hm)
    rw [Dev.corePkey, write.core d (by decide), write.schedLib d (by decide)]
    exact hk

/-! ### Sync faults -/

/-- A sync fault sets its bit (R328). -/
theorem flagged_flagSync (d₀ : Dev) {bit : Fld} (hb : ErrorBit bit) (hs : bit.reg = .SYNC_ERR) (pkey id src core : Nat) (d : Dev) :
    (applyAll (flagSync d₀ bit pkey id src core) d).fld bit = 1 := by
  by_cases low : bit.lo = 0
  · rw [flagSync, if_pos low, applyAll_cons, applyAll_nil]
    refine (fld_setF _ _ _ _).trans ?_
    rw [hb.2.1]
    simp
  · have tame := tame_flagSync d₀ hb hs pkey id src core
    have flag := (fld_flagFault (faults := F.SYNC_ERR_FAULTS) d 0 rfl ⟨.inr hb.2.2, by decide, hb.2.1.le⟩).1
    unfold flagSync at tame ⊢
    rw [if_neg low] at tame ⊢
    rw [applyAll_append]
    exact ((tame_append _ _).1 tame).2.error _ hb flag

/-- A sync fault sets its bit and fences the slice (R328). -/
theorem syncFault_reads {i : Nat} {bit : Fld} (hb : ErrorBit bit) (hs : bit.reg = .SYNC_ERR) (id src core : Nat) {d : Dev}
    (desc : (d.slice i).desc.isSome = true) :
    (runAct (syncFault i bit id src core) d).fld bit = 1 ∧ ((runAct (syncFault i bit id src core) d).slice i).fenced = true := by
  have flag : Tames faultParts effectRegs fun d' => flagSync d' bit (d.slice i).pkey.toNat id src core := fun d =>
    (tame_flagSync d hb hs _ _ _ _).mono (by decide) (by decide)
  have mark := tames_repeat i ((d.slice i).repeats.at (d.slice i).nextStep) (((d.slice i).repeats.at (d.slice i).nextStep).syncIds.contains id) id
  have again := tames_again i (((d.slice i).repeats.at (d.slice i).nextStep).syncIds.contains id)
  have run := runAct_eq (syncFault i bit id src core) d
  rw [syncFault_eq, ← runAct_eq, runAct_inSequence_cons, runAct_inSequence_cons, runAct_inSequence_cons, runAct_inSequence_cons,
    runAct_inSequence_nil] at run
  rw [run]
  refine ⟨again.error hb ((tames_fault i 1).error hb (mark.error hb (flagged_flagSync d hb hs _ _ _ _ d))), again.fenced (fenced_faultSlice ?_ 1)⟩
  rw [mark.desc, flag.desc]
  exact desc

theorem applySync_fault {i t id kind : Nat} {value : BitVec 32} {sense : Bool} {src core : Nat} {d : Dev} {bit : Fld}
    (h : updateWord (d.syncEntry (d.slice i).pkey id) (d.syncWord (syncLoc (d.syncEntry (d.slice i).pkey id))) kind value sense = .inl bit) :
    applySync i t id kind value sense src core d = syncFault i bit id src core d := by
  unfold applySync
  dsimp only
  rw [h]

/-- A command whose act is a sync fault (R328). -/
theorem completes_syncFault {ins : Instr} {s : State} {a : Act} (he : exec ins s = perform (onPower a) s) (hs : s.dev.steady) {i : Nat}
    {bit : Fld} {id src core : Nat} (run : runAct a s.dev = applyAll (syncFault i bit id src core s.dev) s.dev) (hb : ErrorBit bit)
    (hreg : bit.reg = .SYNC_ERR) (desc : (s.dev.slice i).desc.isSome = true) :
    Completes ins s fun d => d.fld bit = 1 ∧ (d.slice i).fenced = true ∧ d.spm = s.dev.spm := by
  rw [← runAct_eq] at run
  obtain ⟨flag, fenced⟩ := syncFault_reads hb hreg id src core desc
  refine completes_behind he hs fun d b => ?_
  rw [run] at b
  exact ⟨b.error hb flag, b.fenced fenced, b.spm.trans ((tames_syncFault i hb hreg id src core).confines.spm _ (by decide))⟩

theorem memberOf_eq (d : Dev) (pkey : BitVec 12) : d.memberOf pkey = (d.sliceOf pkey).any fun i => d.memberHere (d.slice i) := rfl

/-- A signal for no member is dropped and counted (R323, R430). -/
theorem deliverSignal_dropped {e : SyncExt} {d : Dev} (h : d.memberOf (e.pkey.truncate 12) = false) :
    deliverSignal e d = [satF F.ROUTE_DROP_PKEY 0 1] ++ flagRoute F.ROUTE_ERR_PKEY := by
  unfold deliverSignal
  rw [memberOf_eq] at h
  split
  · rfl
  · rename_i i hi
    rw [hi] at h
    simp only [Option.any_some] at h
    simp only [h, Bool.not_false, if_true]

theorem deliverSignal_member {e : SyncExt} {d : Dev} {j : Nat} (hj : d.sliceOf (e.pkey.truncate 12) = some j)
    (member : d.memberHere (d.slice j) = true) : deliverSignal e d =
      if (d.slice j).fenced then flagSync d F.SYNC_ERR_FENCED_DROP 0 0 0 0
      else if !syncExtOk e then syncFault j F.SYNC_ERR_MISMATCH (bitsOf e.syncId 11 0) (bitsOf e.src 11 0) e.srcCore.toNat d
      else applySync j (d.slice j).nextStep (bitsOf e.syncId 11 0) (bitsOf e.kind 2 0) e.value (bitOf e.kind 3) (bitsOf e.src 11 0)
        e.srcCore.toNat d := by
  unfold deliverSignal
  simp only [hj, member, Bool.not_true, Bool.false_eq_true, if_false]

/-- The command of a signal or a release delivers it (R322, R325). -/
theorem exec_deliver (p : Fin 6) (sig : SyncExt) (rel : Bool) (kind : bitsOf sig.kind 2 0 = 3 ↔ rel = true) (s : State) :
    ∃ a, exec (if rel then .barrierReleaseReceive p sig else .syncSignalReceive p sig) s = perform (onPower a) s ∧
      runAct a s.dev = runAct (deliverSignal sig) s.dev := by
  cases rel with
  | true => exact ⟨barrierReleaseReceiveAct sig, rfl, by
    rw [barrierReleaseReceiveAct, kind.2 rfl]
    rfl⟩
  | false => exact ⟨syncSignalReceiveAct sig, rfl, by
    rw [syncSignalReceiveAct, runAct_onlyIf, if_pos]
    simpa using fun h => Bool.false_ne_true (kind.1 h)⟩

/-- A signal under a fence is discarded (R323). -/
theorem completes_fencedDrop {ins : Instr} {s : State} {a : Act} (he : exec ins s = perform (onPower a) s) (hs : s.dev.steady)
    (same : runAct a s.dev = applyAll [setF F.SYNC_ERR_FENCED_DROP 0 1] s.dev) :
    Completes ins s fun d => d.fld F.SYNC_ERR_FENCED_DROP = 1 ∧ s.dev.wrote d [.SYNC_ERR] := by
  have drop : Confined [.regs, .chain, .outbox] [.SYNC_ERR] [setF F.SYNC_ERR_FENCED_DROP 0 1] := by
    simp only [confined_cons, confined_nil, and_true]
    rfl
  have lost : (runAct a s.dev).route.lost = [] := by rw [same, keepAll_route _ (drop.leaves (by decide)), hs.2]
  refine completes_powered he hs lost fun d q => ⟨?_, ?_⟩
  · rw [q.fld (by decide), same]
    exact fld_setF _ _ _ _
  · rw [same] at q
    exact q.wrote (drop.wrote s.dev (by decide))

/-- A packet for no member is dropped and counted (R430). -/
theorem completes_keyDrop {ins : Instr} {s : State} {a : Act} (he : exec ins s = perform (onPower a) s) (hs : s.dev.steady)
    (same : runAct a s.dev = applyAll ([satF F.ROUTE_DROP_PKEY 0 1] ++ flagRoute F.ROUTE_ERR_PKEY) s.dev) :
    Completes ins s fun d => d.fld F.ROUTE_DROP_PKEY = min 65535 (s.dev.fld F.ROUTE_DROP_PKEY + 1) ∧ d.fld F.ROUTE_ERR_PKEY = 1 ∧
      s.dev.wrote d [.ROUTE_DROP, .ROUTE_ERR] := by
  have route : Confined [.regs] [.ROUTE_ERR] (flagRoute F.ROUTE_ERR_PKEY) := by
    simp only [flagRoute, flagFault, confined_cons, confined_nil, and_true]
    exact ⟨rfl, rfl⟩
  have drop : Confined [.regs, .chain, .outbox] [.ROUTE_DROP, .ROUTE_ERR] ([satF F.ROUTE_DROP_PKEY 0 1] ++ flagRoute F.ROUTE_ERR_PKEY) := by
    simp only [confined_append, confined_cons, confined_nil, and_true]
    exact ⟨rfl, route.mono (by decide) (by decide)⟩
  have count := fld_satF s.dev F.ROUTE_DROP_PKEY 0 1
  have lost : (runAct a s.dev).route.lost = [] := by rw [same, keepAll_route _ (drop.leaves (by decide)), hs.2]
  refine completes_powered he hs lost fun d q => ?_
  rw [same] at q
  refine ⟨?_, ?_, q.wrote (drop.wrote s.dev (by decide))⟩
  · rw [q.fld (by decide), applyAll_append, applyAll_cons, applyAll_nil, route.fld _ (by decide), count]
    rfl
  · rw [q.fld (by decide), applyAll_append]
    exact (fld_flagFault _ 0 rfl (by decide)).1

/-- Settles O24: a delivered signal is `applySync` or `syncFault`, and one that is not taken sets its count and bit. -/
theorem signalsAreDelivered : Obligations.SignalsAreDelivered := by
  intro s p sig rel hs kind
  obtain ⟨act, he, run⟩ := exec_deliver p sig rel kind s
  refine ⟨fun j hj member free => ?_, fun j hj member fenced => ?_, fun out => ?_⟩
  · have desc := desc_of_memberHere member
    have act_ := deliverSignal_member hj member
    rw [free, if_neg Bool.false_ne_true] at act_
    refine ⟨fun v ok new place core addr => ?_, fun bit ok new => ?_, fun bad => ?_⟩
    · rw [ok] at act_
      have loc : syncLoc (s.dev.syncEntry (s.dev.slice j).pkey (bitsOf sig.syncId 11 0)) = .spm
          (syncCore (s.dev.syncEntry (s.dev.slice j).pkey (bitsOf sig.syncId 11 0)))
          (syncAddr (s.dev.syncEntry (s.dev.slice j).pkey (bitsOf sig.syncId 11 0)) * 8) := if_pos place
      obtain ⟨word, count, hbm, waits⟩ := applySync_reads j (s.dev.slice j).nextStep (bitsOf sig.syncId 11 0) (bitsOf sig.kind 2 0) sig.value
        (bitOf sig.kind 3) (bitsOf sig.src 11 0) sig.srcCore.toNat s.dev loc core (by rw [spmSize]; omega) new
      have same := run.trans ((runAct_eq _ _).trans (congrArg (applyAll · s.dev) act_))
      refine completes_behind he hs fun d b => ?_
      rw [same] at b
      refine ⟨?_, (b.fld (by decide) 0).trans count, b.hbm.trans hbm, fun c n w cond val hk hw ho hm => b.wait (waits c n w cond val hk hw ho hm)⟩
      rw [loc, syncWord_of_same b.spm b.spmLost]
      exact word
    · rw [ok] at act_
      obtain ⟨hb, hreg⟩ := errorBit_updateWord new
      exact completes_syncFault he hs (run.trans ((runAct_eq _ _).trans (congrArg (applyAll · s.dev) (act_.trans (applySync_fault new))))) hb
        hreg desc
    · rw [bad] at act_
      exact completes_syncFault he hs (run.trans ((runAct_eq _ _).trans (congrArg (applyAll · s.dev) act_))) ⟨by decide, rfl, by decide⟩ rfl desc
  · exact completes_fencedDrop he hs (by rw [run, runAct_eq, deliverSignal_member hj member, if_pos fenced]; rfl)
  · exact completes_keyDrop he hs (by rw [run, runAct_eq, deliverSignal_dropped out])

end Sys2Proof.Machine
end

