-- ==== Sys2Proof/Proofs/Starts.lean ====
section
/-! PROOFS. The start of a transfer (R238, R242, R256, R261). -/

namespace Sys2Proof.Machine

/-- What the start of a transfer of one core does with the runs, or the fault, that it finds (R238, R242, R261). -/
def startWith (c i : Nat) (e : Engine) (a : Arm) (x : Desc) : StartResult → Act
  | .fault bit h => inSequence [fun _ => rearmFault c a bit, abortTask c e a bit 0x10 (if x.entryTask then some h else none)]
  | .runs rs blocks => fun d =>
    if stringBytes d x rs = 0 then inSequence [finishArm c e a, noAct] d else beginXfer c i e a x rs blocks d

theorem start_eq {d : Dev} {c i : Nat} {e : Engine} {a : Arm} {rest : List Arm} {x : Desc} (slice : d.coreSlice c = some i)
    (engine : (d.core c).engine e = ⟨a :: rest, none⟩) (desc : d.desc c a.stream = some x) (runs : d.coreRuns c = true)
    (single : x.mcast = false) (parity : x.rtCount = true → d.parityBad c [x.rtWord] = none) :
    streamTransferStartAct c e d = startWith c i e a x (startRuns d c x a (d.slice i).pkey) d := by
  have good : d.parityBad c (if x.rtCount then [x.rtWord] else []) = none := by
    split
    · exact parity ‹_›
    · rfl
  unfold streamTransferStartAct
  simp only [slice, engine, desc, runs, single, withParity, good, Bool.not_true, Bool.false_eq_true, if_false, Option.map_none,
    Option.getD_none, ne_eq, not_true_eq_false]
  cases startRuns d c x a (d.slice i).pkey with
  | fault bit h => rfl
  | runs rs blocks => rfl

/-! ### A transfer that begins -/

/-- What an engine holds of its transfer, beside the blocks that it owes. -/
def served (e : Engine) (cs : CoreSt) : List Arm × Option (List Run × Nat × Nat) :=
  ((cs.engine e).queue, (cs.engine e).xfer.map fun t => (t.runs, t.moved, t.start))

theorem engine_onEngine_other {e f : Engine} (h : f ≠ e) (g : EngineSt → EngineSt) (cs : CoreSt) :
    (onEngine e g cs).engine f = cs.engine f := by
  cases e <;> cases f <;> simp [onEngine, CoreSt.engine] at h ⊢

/-- Granting tokens changes the blocks owed and nothing else of a transfer (R257). -/
theorem keeps_grantAll (e : Engine) (c g cls fuel : Nat) (d : Dev) : Keeps (fun d => served e (d.core c)) (grantAll g cls fuel d) := by
  induction fuel generalizing d with
  | zero => exact keeps_nil
  | succ fuel ih =>
    unfold grantAll
    split
    · exact keeps_nil
    · rename_i c' e' n _
      rw [keeps_ite]
      refine ⟨fun _ => keeps_nil, fun _ => ?_⟩
      simp only [inSequence, List.append_nil, keeps_append]
      refine ⟨?_, ih _⟩
      simp only [grantTokens, keeps_cons, keeps_nil, and_true]
      refine ⟨fun _ => rfl, keeps_core fun cs => ?_, fun _ => rfl⟩
      by_cases same : e = e'
      · subst same
        rw [served, engine_onEngine, served, Option.map_map]
        rfl
      · rw [served, engine_onEngine_other same, served]

theorem confines_grantAll (g cls fuel : Nat) : Confines [.regs, .cores, .clusters] [.REG_LEVEL] (grantAll g cls fuel) := by
  induction fuel with
  | zero => exact fun _ => confined_nil
  | succ fuel ih =>
    intro d
    unfold grantAll
    split
    · exact confined_nil
    · rw [confined_ite]
      refine ⟨fun _ => confined_nil, fun _ => confines_inSequence_cons (fun _ => ?_) (confines_inSequence_cons (as := []) ih Confines.nil) d⟩
      simp only [grantTokens, confined_cons, confined_nil, and_true]
      exact ⟨by simp [Upd.confined, Upd.touches, Upd.writes, levelFld_reg], rfl, rfl⟩

/-- A transfer that an engine takes up, and the tokens that its blocks are granted (R238, R257). -/
def takeUp (c : Nat) (e : Engine) (t : Xfer) (g cls : Nat) : Act :=
  inSequence [fun _ => [.core c (onEngine e fun en => { en with xfer := some t })],
    onlyIf (0 < t.owed) (fun d => grantAll g cls (grantFuel d g cls) d)]

/-- The transfer as it begins: the blocks that it owes, and whether a multicast waits for its members (R238, R252, R257). -/
def freshXfer (d : Dev) (c : Nat) (e : Engine) (a : Arm) (x : Desc) (rs : List Run) (blocks : Nat) : Xfer :=
  let all := blocks + (if x.remote then 0 else (rs.map fun r => (blockPieces r.addr (runExtent d x r.len)).length).sum)
  let members := if x.mcast then (d.mcastGroup c x.group).elim [] groupMembers else []
  ⟨rs, 0, d.now, if !(members.all fun m => memberReady d e a.stream a.armNo m) then some d.now else none,
    if d.regulated (clusterOf c) x.cls then all else 0⟩

theorem beginXfer_run (c i : Nat) (e : Engine) (a : Arm) {x : Desc} (rs : List Run) (blocks : Nat) (d : Dev) (buf : x.buf ≠ .queue) :
    runAct (beginXfer c i e a x rs blocks) d = runAct (takeUp c e (freshXfer d c e a x rs blocks) (clusterOf c) x.cls) d := by
  have noQueue : (decide (x.buf = .queue) && !x.mcast) = false := by simp [buf]
  rw [runAct_eq]
  unfold beginXfer
  dsimp only
  rw [noQueue, ← runAct_eq, runAct_inSequence_cons, runAct_inSequence_cons, runAct_inSequence_cons, runAct_inSequence_nil,
    runAct_onlyIf_false, takeUp, runAct_inSequence_cons, runAct_inSequence_cons, runAct_inSequence_nil]
  unfold freshXfer
  rfl

theorem confines_takeUp (c : Nat) (e : Engine) (t : Xfer) (g cls : Nat) :
    Confines [.regs, .cores, .clusters] [.REG_LEVEL] (takeUp c e t g cls) := by
  refine confines_inSequence_cons (fun _ => ?_) (confines_inSequence_cons (as := []) (Confines.onlyIf fun d => confines_grantAll _ _ _ d)
    Confines.nil)
  simp only [confined_cons, confined_nil, and_true]
  rfl

/-- A transfer that begins stands at its start (R238, R257). -/
theorem served_takeUp (c : Nat) (e : Engine) (t : Xfer) (g cls : Nat) (d : Dev) :
    served e ((runAct (takeUp c e t g cls) d).core c) = (((d.core c).engine e).queue, some (t.runs, t.moved, t.start)) := by
  have set : served e (((Upd.core c (onEngine e fun en => { en with xfer := some t })).apply d).core c) =
      (((d.core c).engine e).queue, some (t.runs, t.moved, t.start)) := by
    rw [core_apply_same, served, engine_onEngine]
    rfl
  rw [takeUp, runAct_inSequence_cons, runAct_inSequence_cons, runAct_inSequence_nil, runAct_list, applyAll_cons, applyAll_nil, runAct_onlyIf]
  generalize (Upd.core c _).apply d = d' at set
  split
  · rw [runAct_eq]
    exact ((keeps_grantAll e c g cls _ d').eq d').trans set
  · exact set

/-! ### A transfer of no bytes -/

/-- The count of the transfers of a stream that are over, and what an engine serves. -/
def doneAt (st : Nat) (e : Engine) (cs : CoreSt) : BitVec 32 × Option Xfer := (countOf cs.doneCnt st, (cs.engine e).xfer)

theorem doneAt_onCtx (st : Nat) (e : Engine) (n : Nat) (g : ThreadCtx → ThreadCtx) (cs : CoreSt) :
    doneAt st e (onCtx n g cs) = doneAt st e cs := by
  cases e <;> rfl

theorem doneAt_leave (st : Nat) (e : Engine) (f : EngineSt → EngineSt) (v : BitVec 32) (hf : ∀ en, (f en).xfer = none) (cs : CoreSt) :
    doneAt st e (onEngine e f { cs with doneCnt := mapSet (fun _ => 0) st v cs.doneCnt }) = (v, none) := by
  have counts : (onEngine e f { cs with doneCnt := mapSet (fun _ => 0) st v cs.doneCnt }).doneCnt = mapSet (fun _ => 0) st v cs.doneCnt := by
    cases e <;> rfl
  rw [doneAt, counts, engine_onEngine, hf, countOf, mapGet_mapSet_same]

theorem keeps_forEach {α β : Type} {obs : Dev → β} {f : α → Act} {xs : List α} (h : ∀ x d, Keeps obs (f x d)) (d : Dev) :
    Keeps obs (forEach f xs d) := by
  induction xs generalizing d with
  | nil => exact keeps_nil
  | cons x xs ih =>
    intro u hu
    rcases List.mem_append.1 hu with hu | hu
    · exact h x d u hu
    · exact ih _ u hu

/-- The transfer that leaves its engine, before its waiters wake (R239). -/
def leftCore (e : Engine) (a : Arm) (cs : CoreSt) : CoreSt :=
  onEngine e (fun en => { queue := en.queue.filter fun b => !(b.stream = a.stream && b.armNo = a.armNo), xfer := none })
    { cs with doneCnt := mapSet (fun _ => 0) a.stream (countOf cs.doneCnt a.stream + 1) cs.doneCnt }

/-- What a core holds that no wake changes, after a transfer has left its engine. -/
theorem leaveEngine_keeps {α : Type} {f : CoreSt → α} (hf : ∀ n g cs, f (onCtx n g cs) = f cs) (c : Nat) (e : Engine) (a : Arm) (d : Dev) :
    f ((runAct (leaveEngine c e a) d).core c) = f (leftCore e a (d.core c)) := by
  rw [leaveEngine, runAct_inSequence_cons, runAct_inSequence_cons, runAct_inSequence_nil, runAct_list, applyAll_cons, applyAll_nil]
  have left : ((Upd.core c (leftCore e a)).apply d).core c = leftCore e a (d.core c) := core_apply_same ..
  generalize hd : (Upd.core c _).apply d = d'
  have same : d'.core c = leftCore e a (d.core c) := hd ▸ left
  rw [← same, runAct_eq]
  exact (keeps_forEach (obs := fun d => f (d.core c)) (fun n d => keeps_wakeCtx hf c c n d) d').eq d'

theorem confines_leaveEngine (c : Nat) (e : Engine) (a : Arm) :
    Confines [.regs, .cores] [.SLIP_COUNT, .SLIP_TIME, .SLIP_LAST] (leaveEngine c e a) := by
  refine confines_inSequence_cons (fun _ => ?_) (confines_inSequence_cons (as := []) (fun d => Confines.forEach (fun n _ =>
    confines_wakeCtx c n) d) Confines.nil)
  simp only [confined_cons, confined_nil, and_true]
  rfl

/-- The signals that waited for a transfer leave the core's list (R321). -/
def dropAfters (c : Nat) (sigs : List AfterSig) : Act := fun _ =>
  [.core c fun cs => { cs with afters := cs.afters.filter fun s => !sigs.contains s }]

theorem runAct_forEach_nil {α : Type} (f : α → Act) (d : Dev) : runAct (forEach f []) d = d := rfl

/-- The end of a transfer behind which no signal waits. -/
theorem finishArm_run {c i : Nat} {e : Engine} {a : Arm} {d : Dev} (slice : d.coreSlice c = some i) (afters : aftersOf (d.core c) a = []) :
    runAct (finishArm c e a) d = runAct (dropAfters c []) (runAct (leaveEngine c e a) d) := by
  have none_ : aftersOf ((runAct (leaveEngine c e a) d).core c) a = [] := by
    have same := leaveEngine_keeps (f := CoreSt.afters) (fun _ _ _ => rfl) c e a d
    have left : (leftCore e a (d.core c)).afters = (d.core c).afters := by cases e <;> rfl
    rw [aftersOf, same, left]
    exact afters
  rw [runAct_eq, finishArm, slice, applyAll_inSequence_cons, applyAll_inSequence_cons, applyAll_inSequence_nil, ← runAct_eq]
  rw [← runAct_eq (leaveEngine c e a), none_, releaseAfters, runAct_inSequence_cons, runAct_inSequence_cons, runAct_inSequence_nil,
    runAct_forEach_nil]
  rfl

theorem confines_dropAfters (c : Nat) (sigs : List AfterSig) : Confines [.cores] [] (dropAfters c sigs) := fun _ => by
  simp only [dropAfters, confined_cons, confined_nil, and_true]
  rfl

theorem doneAt_dropAfters (st : Nat) (e : Engine) (c : Nat) (sigs : List AfterSig) (d : Dev) :
    doneAt st e ((runAct (dropAfters c sigs) d).core c) = doneAt st e (d.core c) := by
  unfold dropAfters
  rw [runAct_list, applyAll_cons, applyAll_nil, core_apply_same]
  cases e <;> rfl

/-- The faults that the start of a transfer finds set ADDR or ENTRY (R261). -/
theorem errorBit_startRuns {d : Dev} {c : Nat} {x : Desc} {a : Arm} {pkey : BitVec 12} {bit : Fld} {h : Nat}
    (found : startRuns d c x a pkey = .fault bit h) : ErrorBit bit ∧ bit.reg = .STREAM_ERR := by
  have addr : ErrorBit F.STREAM_ERR_ADDR ∧ F.STREAM_ERR_ADDR.reg = .STREAM_ERR := ⟨⟨by decide, rfl, by decide⟩, rfl⟩
  have entry : ErrorBit F.STREAM_ERR_ENTRY ∧ F.STREAM_ERR_ENTRY.reg = .STREAM_ERR := ⟨⟨by decide, rfl, by decide⟩, rfl⟩
  have listed {n : Nat} {b : Fld} {k : Nat} (e : listRuns d x a.base n = .fault b k) : ErrorBit b ∧ b.reg = .STREAM_ERR := by
    unfold listRuns at e
    split at e
    · cases e; exact addr
    · dsimp only at e
      split at e
      · obtain ⟨hb, -⟩ := StartResult.fault.inj e
        rw [← hb]
        split
        · exact entry
        · exact addr
      · cases e
  have strided {n : Nat} {b : Fld} {k : Nat} (e : stridedRuns d x a.base n = .fault b k) : ErrorBit b ∧ b.reg = .STREAM_ERR := by
    unfold stridedRuns at e
    split at e
    · cases e
    · dsimp only at e
      split at e
      · cases e
      · cases e; exact addr
  unfold startRuns at found
  dsimp only at found
  split at found
  · rename_i b k e
    cases found
    split at e
    · exact listed e
    · exact strided e
  · split at found
    · cases found; exact addr
    · split at found
      · cases found; exact addr
      · cases found

/-- Settles O12: a start is `beginXfer` with what it finds, `finishArm` for no bytes, or `abortTask` for a fault. -/
theorem transferStarts : Obligations.TransferStarts := by
  intro s c e a rest x i hs slice engine desc runs single parity
  have start := start_eq slice engine desc runs single parity
  refine ⟨fun rs blocks found some_ buf => ?_, fun rs blocks found none_ afters => ?_, fun bit h found => ?_⟩
  · have act : streamTransferStartAct c e s.dev = beginXfer c i e a x rs blocks s.dev := by
      rw [start, found]
      exact if_neg some_
    have run := beginXfer_run c i e a rs blocks s.dev buf
    rw [runAct_eq, ← act, ← runAct_eq] at run
    have confines := confines_takeUp c e (freshXfer s.dev c e a x rs blocks) (clusterOf c) x.cls
    have lost : (runAct (streamTransferStartAct c e) s.dev).route.lost = [] := by rw [run, confines.route _ (by decide), hs.2]
    refine completes_powered rfl hs lost fun d q => ?_
    rw [run] at q
    have stands := served_takeUp c e (freshXfer s.dev c e a x rs blocks) (clusterOf c) x.cls s.dev
    rw [← q.core, engine] at stands
    obtain ⟨queue, xfer⟩ := Prod.mk.inj stands
    obtain ⟨t', ht', same⟩ := Option.map_eq_some_iff.1 xfer
    obtain ⟨same_runs, same_rest⟩ := Prod.mk.inj same
    obtain ⟨same_moved, same_start⟩ := Prod.mk.inj same_rest
    exact ⟨t', ht', queue, same_runs, same_moved, same_start,
      q.hbm.trans (confines.hbm _ (by decide)), q.spm.trans (confines.spm _ (by decide))⟩
  · have run : runAct (streamTransferStartAct c e) s.dev = runAct (dropAfters c []) (runAct (leaveEngine c e a) s.dev) := by
      rw [runAct_eq, start, found, ← finishArm_run slice afters]
      simp only [startWith, none_, if_true]
      rw [← runAct_eq, runAct_inSequence_cons, runAct_inSequence_cons, runAct_inSequence_nil]
      rfl
    have leave := confines_leaveEngine c e a
    have drop := confines_dropAfters c []
    have lost : (runAct (streamTransferStartAct c e) s.dev).route.lost = [] := by
      rw [run, drop.route _ (by decide), leave.route _ (by decide), hs.2]
    have done := (doneAt_dropAfters a.stream e c [] (runAct (leaveEngine c e a) s.dev)).trans
      ((leaveEngine_keeps (doneAt_onCtx a.stream e) c e a s.dev).trans (doneAt_leave a.stream e _ _ (fun _ => rfl) _))
    refine completes_powered rfl hs lost fun d q => ?_
    rw [run] at q
    rw [← q.core] at done
    obtain ⟨count, xfer⟩ := Prod.mk.inj done
    exact ⟨count, xfer, q.hbm.trans ((drop.hbm _ (by decide)).trans (leave.hbm _ (by decide))),
      q.spm.trans ((drop.spm _ (by decide)).trans (leave.spm _ (by decide)))⟩
  · have run : runAct (streamTransferStartAct c e) s.dev = runAct (abortTask c e a bit 0x10 (if x.entryTask then some h else none))
        (runAct (fun _ => rearmFault c a bit) s.dev) := by
      rw [runAct_eq, start, found, startWith, ← runAct_eq, runAct_inSequence_cons, runAct_inSequence_cons, runAct_inSequence_nil]
    obtain ⟨hb, hreg⟩ := errorBit_startRuns found
    refine completes_behind rfl hs fun d b => ?_
    rw [run] at b
    exact b.error hb (flagged_abortTask c e a hb hreg _ _ _)

end Sys2Proof.Machine
end

