-- ==== Sys2Proof/Proofs/Watchdogs.lean ====
section
/-! PROOFS. Work that concerns one slice only, and what follows a poll or the expiry of a watchdog (R301, R324, R330, R456). -/

namespace Sys2Proof.Machine

/-! ### Work for one slice -/

/-- An update that changes no other slice than `i`, and takes no item away that is not of the key. -/
def Upd.own (i : Nat) (pkey : BitVec 12) : Upd → Prop
  | .slice j _ => j = i
  | .commit g => ∀ c, ∀ x ∈ c.items, x.pkey ≠ pkey → x ∈ (g c).items
  | .restart _ => False
  | _ => True

/-- A core works for a slice of the map. -/
structure Serves (c i : Nat) (pkey : BitVec 12) (d : Dev) : Prop where
  slice : d.coreSlice c = some i
  desc : (d.slice i).desc.isSome = true
  key : (d.slice i).pkey = pkey

/-- The test by which a slice is found for its key. -/
def keyed (pkey : BitVec 12) (e : Nat × SliceSt) : Bool :=
  match e.2.desc with
  | some s => s.pkey.truncate 12 = pkey
  | none => false

theorem sliceOf_eq (d : Dev) (pkey : BitVec 12) : d.sliceOf pkey = (d.slices.find? (keyed pkey)).map Prod.fst := rfl

theorem keyed_of_desc {pkey : BitVec 12} {e e' : Nat × SliceSt} (h : e'.2.desc = e.2.desc) : keyed pkey e' = keyed pkey e := by
  unfold keyed
  rw [h]

/-- A slice that is found for its key is found still when its listed state changes and keeps its descriptor. -/
theorem find_mapPut {pkey : BitVec 12} {i : Nat} {v : SliceSt} (m : SMap SliceSt) (found : (m.find? (keyed pkey)).map Prod.fst = some i)
    (desc : v.desc = (mapGet (fun _ => SliceSt.init) m i).desc) : ((mapPut i v m).find? (keyed pkey)).map Prod.fst = some i := by
  induction m with
  | nil => cases found
  | cons e m ih =>
    obtain ⟨j, a⟩ := e
    rw [mapPut]
    split
    · rw [List.find?_cons]
      split
      · rfl
      · exact found
    · split
      · subst_vars
        rw [mapGet, if_pos rfl] at desc
        rw [List.find?_cons] at found ⊢
        have same : keyed pkey (j, v) = keyed pkey (j, a) := keyed_of_desc desc
        rw [same]
        split
        · rfl
        · rename_i no
          rw [no] at found
          exact found
      · rename_i other
        rw [mapGet, if_neg other] at desc
        rw [List.find?_cons] at found ⊢
        cases hk : keyed pkey (j, a) with
        | true =>
          rw [hk] at found
          exact absurd (Option.some.inj found).symm other
        | false =>
          rw [hk] at found
          exact ih found desc

theorem sliceOf_apply_slice {d : Dev} {i : Nat} {g : SliceSt → SliceSt} {pkey : BitVec 12} (found : d.sliceOf pkey = some i)
    (some_ : (d.slice i).desc.isSome = true) (desc : (g (d.slice i)).desc = (d.slice i).desc) :
    ((Upd.slice i g).apply d).sliceOf pkey = some i := by
  have listed : g (d.slice i) ≠ SliceSt.init := fun e => by
    rw [← desc, e] at some_
    cases some_
  rw [sliceOf_eq, apply_slice]
  dsimp only
  rw [mapSet, if_neg listed]
  exact find_mapPut d.slices found desc

/-- Work of core `c` for its slice: tame, and of no other slice. -/
structure Owns (c i : Nat) (pkey : BitVec 12) (a : Act) : Prop where
  tame : Tames effectParts effectRegs a
  own : ∀ d, Serves c i pkey d → ∀ u ∈ a d, u.own i pkey

section owns
variable {c i : Nat} {pkey : BitVec 12}

/-- What work for one slice keeps: the core works for it still, and no item of another slice is gone. -/
theorem serves_apply {u : Upd} (tame : u.tame effectParts effectRegs) (own : u.own i pkey) {d : Dev} (h : Serves c i pkey d) :
    Serves c i pkey (u.apply d) ∧ ∀ x ∈ d.commit.items, x.pkey ≠ pkey → x ∈ (u.apply d).commit.items := by
  have one : Tame effectParts effectRegs [u] := by simpa using tame
  have desc : ((u.apply d).slice i).desc = (d.slice i).desc := one.desc d i
  have lib : (u.apply d).schedLib = d.schedLib := keepAll_schedLib (us := [u]) d (one.confined.leaves (by decide))
  have live : ((u.apply d).core c).live = (d.core c).live := (one.core d c).1
  obtain ⟨key, hkey, found⟩ := Option.bind_eq_some_iff.1 h.slice
  have same : (u.apply d).corePkey ((u.apply d).core c) = some key := by
    rw [← hkey, Dev.corePkey, Dev.corePkey, live, lib]
  have pkeys : ((u.apply d).slice i).pkey = pkey := by
    rw [← h.key, SliceSt.pkey, SliceSt.pkey, desc]
  have sliceOf : (u.apply d).sliceOf key = some i := by
    cases u with
    | slice j g =>
      obtain rfl : j = i := own
      exact sliceOf_apply_slice found h.desc (tame.2 (d.slice j)).1
    | restart w => exact own.elim
    | _ =>
      rw [sliceOf_eq, keep_slices _ d (by simp)]
      exact found
  refine ⟨⟨Option.bind_eq_some_iff.2 ⟨key, same, sliceOf⟩, desc ▸ h.desc, pkeys⟩, fun x hx hk => ?_⟩
  cases u with
  | commit g => exact own _ x hx hk
  | restart w => exact own.elim
  | _ =>
    rw [keep_commit _ d (by simp)]
    exact hx

theorem Owns.run {a : Act} (h : Owns c i pkey a) {d : Dev} (hd : Serves c i pkey d) :
    Serves c i pkey (runAct a d) ∧ ∀ x ∈ d.commit.items, x.pkey ≠ pkey → x ∈ (runAct a d).commit.items := by
  rw [runAct_eq]
  have tame := h.tame d
  have own := h.own d hd
  generalize a d = us at tame own
  induction us generalizing d with
  | nil => exact ⟨hd, fun x hx _ => hx⟩
  | cons u us ih =>
    obtain ⟨hu, hus⟩ := (tame_cons u us).1 tame
    obtain ⟨serves, items⟩ := serves_apply hu (own u (List.mem_cons_self ..)) hd
    obtain ⟨serves', items'⟩ := ih serves hus fun v hv => own v (List.mem_cons_of_mem _ hv)
    exact ⟨serves', fun x hx hk => items' x (items x hx hk) hk⟩

theorem Owns.nil : Owns c i pkey (inSequence []) := ⟨Tames.nil, fun _ _ _ h => nomatch h⟩

theorem Owns.cons {a : Act} {as : List Act} (ha : Owns c i pkey a) (has : Owns c i pkey (inSequence as)) :
    Owns c i pkey (inSequence (a :: as)) := by
  refine ⟨Tames.cons ha.tame has.tame, fun d hd u hu => ?_⟩
  rcases List.mem_append.1 hu with hu | hu
  · exact ha.own d hd u hu
  · rw [← runAct_eq] at hu
    exact has.own _ (ha.run hd).1 u hu

theorem Owns.inSequence {as : List Act} (h : ∀ a ∈ as, Owns c i pkey a) : Owns c i pkey (inSequence as) := by
  induction as with
  | nil => exact Owns.nil
  | cons a as ih => exact Owns.cons (h a (List.mem_cons_self ..)) (ih fun b hb => h b (List.mem_cons_of_mem _ hb))

theorem Owns.forEach {α : Type} {f : α → Act} {xs : List α} (h : ∀ x ∈ xs, Owns c i pkey (f x)) : Owns c i pkey (forEach f xs) := by
  apply Owns.inSequence
  intro a ha
  obtain ⟨x, hx, rfl⟩ := List.mem_map.1 ha
  exact h x hx

theorem Owns.onlyIf {b : Bool} {a : Act} (h : Owns c i pkey a) : Owns c i pkey (onlyIf b a) := by
  refine ⟨h.tame.onlyIf, fun d hd u hu => ?_⟩
  unfold Sys2Proof.Machine.onlyIf at hu
  split at hu
  · exact h.own d hd u hu
  · exact nomatch hu

/-- An act that does in each state what some work for the slice does there. -/
theorem Owns.of_eq {a : Act} (h : ∀ d, Serves c i pkey d → ∃ b, Owns c i pkey b ∧ a d = b d) (tame : Tames effectParts effectRegs a) :
    Owns c i pkey a := by
  refine ⟨tame, fun d hd u hu => ?_⟩
  obtain ⟨b, hb, same⟩ := h d hd
  exact hb.own d hd u (same ▸ hu)

/-- Work that touches neither slices nor items. -/
theorem Tames.owns {ps : List Part} {rs : List Reg} {a : Act} (h : Tames ps rs a) (slices : Part.slices ∉ ps) (commit : Part.commit ∉ ps)
    (hp : ps ⊆ effectParts) (hr : rs ⊆ effectRegs) : Owns c i pkey a := by
  refine ⟨h.mono hp hr, fun d _ u hu => ?_⟩
  have confined := (h d).confined u hu
  simp only [Upd.confined, Bool.and_eq_true, List.all_eq_true, decide_eq_true_eq] at confined
  obtain ⟨parts, -⟩ := confined
  cases u with
  | slice j g => exact absurd (parts _ (List.mem_singleton_self _)) slices
  | commit g => exact absurd (parts _ (List.mem_singleton_self _)) commit
  | restart w => exact absurd (parts _ (by simp [Part.all])) slices
  | _ => trivial

/-- Work that is a list of updates of the slice. -/
theorem owns_list {us : List Upd} (tame : Tame effectParts effectRegs us) (own : ∀ u ∈ us, u.own i pkey) : Owns c i pkey fun _ => us :=
  ⟨fun _ => tame, fun _ _ => own⟩

end owns

/-! ### Faults and transfers are work for one slice -/

section owns
variable {c i : Nat} {pkey : BitVec 12}

theorem owns_releaseWith (handle status step reason : Nat) (tail : List Byte) :
    Owns c i pkey (releaseWith handle pkey status step reason tail) := by
  have tame : Tames effectParts effectRegs (releaseWith handle pkey status step reason tail) :=
    ((confines_releaseWith handle pkey status step reason tail).tames (by decide) (by decide) (by decide) (by decide)).mono (by decide)
      (by decide)
  refine ⟨tame, fun d hd => ?_⟩
  rw [releaseWith_eq]
  split
  · exact fun u hu => nomatch hu
  · rename_i it found
    have out := ((confines_recordOut it handle status step reason tail d.gcnt).tames (by decide) (by decide) (by decide) (by decide)).owns
      (c := c) (i := i) (pkey := pkey) (by decide) (by decide) (by decide) (by decide)
    have flag : Owns c i pkey fun _ => [.commit fun c => { c with items := c.items.filter fun x => !(x.handle = handle && x.pkey = pkey) }] ++
        (if status = 0x40 then flagDet F.DET_STATUS_TIMEOUT else []) := by
      refine owns_list ?_ ?_
      · simp only [flagDet, flagFault, tame_append, tame_cons, tame_nil, tame_ite, implies_true, and_true]
        exact ⟨tame_of_plain rfl, fun _ => ⟨tame_of_plain rfl, tame_of_plain rfl⟩⟩
      · intro u hu
        rcases List.mem_append.1 hu with hu | hu
        · obtain rfl := List.mem_singleton.1 hu
          exact fun c x hx hk => List.mem_filter.2 ⟨hx, by simp [hk]⟩
        · split at hu
          · simp only [flagDet, flagFault, List.mem_cons, List.not_mem_nil, or_false] at hu
            rcases hu with rfl | rfl <;> trivial
          · exact nomatch hu
    exact (flag.cons (out.cons Owns.nil)).own d hd

theorem failAllItems_eq (i status : Nat) (d : Dev) : failAllItems i status d =
    let items := d.commit.items.filter fun it => it.pkey = (d.slice i).pkey && it.typ ≠ 3 && it.typ ≠ 4
    inSequence [
      onlyIf (!items.isEmpty && status ≠ 0x40) (fun _ => flagDet F.DET_STATUS_FAILED),
      forEach (fun it => releaseRecord it.handle (d.slice i).pkey status (d.slice i).committedWord) items,
      fun _ => [.svc fun v => { v with jobs := v.jobs.filter fun j => j.pkey ≠ (d.slice i).pkey }] ] d := rfl

theorem owns_failAllItems (status : Nat) : Owns c i pkey (failAllItems i status) := by
  have flag : Tames [.regs] [.DET_STATUS] fun _ => flagDet F.DET_STATUS_FAILED := fun _ => tame_of_all rfl
  have jobs (key : BitVec 12) : Tames [.svc] [] fun _ => [.svc fun v => { v with jobs := v.jobs.filter fun j => j.pkey ≠ key }] := fun _ => tame_of_all rfl
  refine ⟨(tames_failAllItems i status).mono (by decide) (by decide), fun d hd => ?_⟩
  rw [failAllItems_eq, hd.key]
  exact (Owns.cons (flag.owns (by decide) (by decide) (by decide) (by decide)).onlyIf (Owns.cons
    (Owns.forEach fun it _ => owns_releaseWith _ _ _ _ _) (Owns.cons ((jobs pkey).owns (by decide) (by decide) (by decide) (by decide)) Owns.nil))).own d hd

theorem owns_fenceSlice (cls : Nat) : Owns c i pkey (fenceSlice i cls) := by
  refine ⟨(tames_fenceSlice i cls).mono (by decide) (by decide), fun d hd => ?_⟩
  rw [fenceSlice_eq]
  split
  · exact fun u hu => nomatch hu
  · have cores : Tames floodParts floodRegs (forEach fenceCore (d.coresOf (d.slice i).pkey)) := Tames.forEach fun e _ => tames_fenceCore e
    have mark : Owns c i pkey fun _ => [.slice i (markFenced cls d)] :=
      owns_list (tame_markFenced (by decide) i cls d) fun u hu => by
        obtain rfl := List.mem_singleton.1 hu
        rfl
    exact (Owns.cons (cores.owns (by decide) (by decide) (by decide) (by decide)) (mark.cons ((tames_fenceRest i cls d).owns (by decide)
      (by decide) (by decide) (by decide)))).own d hd

theorem owns_faultSlice (cls : Nat) : Owns c i pkey (faultSlice i cls) := by
  refine ⟨(tames_fault i cls).mono (by decide) (by decide), fun d hd => ?_⟩
  rw [faultSlice]
  split
  · exact fun u hu => nomatch hu
  · exact ((owns_fenceSlice cls).cons (((tames_faultReport _ _ _).owns (by decide) (by decide) (by decide) (by decide)).cons Owns.nil)).own d hd

theorem owns_logFull (t : Nat) : Owns c i pkey (logFull i t) := by
  have tame := tames_logFull i t
  refine Owns.cons (owns_list ?_ fun u hu => ?_) (Owns.cons (owns_faultSlice 1) Owns.nil)
  · simp only [tame_append, tame_cons, tame_nil, and_true]
    exact ⟨tame_flagFault (bit := F.RECOV_ERR_LOG_FULL) (faults := F.RECOV_ERR_FAULTS) ⟨by decide, rfl, by decide⟩ rfl (by decide)
      (by decide) (by decide) 0, tame_onStep (by decide) i t _, tame_slice (by decide) fun s => ⟨rfl, id, id⟩⟩
  · rcases List.mem_append.1 hu with hu | hu
    · simp only [flagRecov, flagFault, List.mem_cons, List.not_mem_nil, or_false] at hu
      rcases hu with rfl | rfl <;> trivial
    · simp only [List.mem_cons, List.not_mem_nil, or_false] at hu
      rcases hu with rfl | rfl <;> rfl

theorem owns_logUndo (t a n : Nat) : Owns c i pkey (logUndo i t a n) := by
  refine ⟨tames_logUndo i t a n, fun d hd => ?_⟩
  unfold logUndo
  dsimp only
  split
  · exact fun u hu => nomatch hu
  · intro u hu
    rcases List.mem_append.1 hu with hu | hu
    · simp only [List.mem_cons, List.not_mem_nil, or_false] at hu
      rcases hu with rfl | rfl
      · exact fun c x hx _ => hx
      · trivial
    · split at hu
      · exact (owns_logFull t).own d hd u hu
      · exact nomatch hu

theorem owns_mirrorWrite (t a : Nat) (bs : List Byte) (bad : Bool) : Owns c i pkey (mirrorWrite i t a bs bad) := by
  refine ⟨tames_mirrorWrite i t a bs bad, fun d hd u hu => ?_⟩
  unfold mirrorWrite at hu
  split at hu
  · exact nomatch hu
  · rcases List.mem_append.1 hu with hu | hu
    · obtain ⟨p, -, rfl⟩ := List.mem_map.1 hu
      trivial
    · obtain rfl := List.mem_singleton.1 hu
      rfl

theorem owns_writeHbm (a : Nat) (bs : List Byte) (bad : Bool) : Owns c i pkey (writeHbm a bs bad) :=
  ((confines_writeHbm a bs bad).tames (by decide) (by decide) (by decide) (by decide)).owns (by decide) (by decide) (by decide) (by decide)

theorem owns_storeStep (t a : Nat) (bs : List Byte) (bad : Bool) : Owns c i pkey (storeStep i t a bs bad) := by
  refine ⟨tames_storeStep i t a bs bad, fun d hd => ?_⟩
  unfold storeStep
  split
  · exact fun u hu => nomatch hu
  · split
    · exact ((owns_logUndo t a _).cons ((owns_writeHbm a bs bad).cons ((owns_mirrorWrite t a bs bad).cons Owns.nil))).own d hd
    · exact (owns_writeHbm a bs bad).own d hd

theorem owns_writeSync (t : Nat) (l : SyncLoc) (v : Nat) : Owns c i pkey (writeSync i t l v) := by
  unfold writeSync
  split
  · exact owns_list (tame_of_all rfl) fun u hu => by
      obtain rfl := List.mem_singleton.1 hu
      trivial
  · exact owns_storeStep _ _ _ _

theorem owns_noteRepeat (r : Repeats) (again : Bool) (id : Nat) : Owns c i pkey (noteRepeat i r again id) :=
  ⟨(tames_repeat i r again id).mono (by decide) (by decide), fun _ _ u hu => by
    obtain rfl := List.mem_singleton.1 hu
    rfl⟩

theorem owns_failFinally (again : Bool) : Owns c i pkey (failFinally i again) := by
  refine Owns.onlyIf ((owns_failAllItems 0x21).cons (Owns.cons (owns_list ?_ fun u hu => ?_) Owns.nil))
  · simp only [tame_cons, tame_nil, and_true]
    exact tame_slice (by decide) fun s => ⟨rfl, id, id⟩
  · obtain rfl := List.mem_singleton.1 hu
    rfl

theorem owns_flagSync {bit : Fld} (hb : ErrorBit bit) (hs : bit.reg = .SYNC_ERR) (key id src core : Nat) :
    Owns c i pkey fun d => flagSync d bit key id src core := by
  have flag : Tames [.regs] [.SYNC_ERR, .SYNC_ERR_LOC] fun d => flagSync d bit key id src core := fun d => tame_flagSync d hb hs key id src core
  exact flag.owns (by decide) (by decide) (by decide) (by decide)

theorem owns_syncFault {bit : Fld} (hb : ErrorBit bit) (hs : bit.reg = .SYNC_ERR) (id src core : Nat) :
    Owns c i pkey (syncFault i bit id src core) := by
  refine ⟨(tames_syncFault i hb hs id src core).mono (by decide) (by decide), fun d hd => ?_⟩
  rw [syncFault_eq]
  exact ((owns_flagSync hb hs _ _ _ _).cons ((owns_noteRepeat _ _ _).cons ((owns_faultSlice 1).cons ((owns_failFinally _).cons Owns.nil)))).own d hd

theorem owns_wakeCtx (core n : Nat) : Owns c i pkey (wakeCtx core n) := by
  have tame : Tames [.regs, .cores] [.SLIP_COUNT, .SLIP_TIME, .SLIP_LAST] (wakeCtx core n) := tames_wakeCtx core n
  exact tame.owns (by decide) (by decide) (by decide) (by decide)

theorem owns_applySync (t id kind : Nat) (value : BitVec 32) (sense : Bool) (src core : Nat) :
    Owns c i pkey (applySync i t id kind value sense src core) := by
  refine ⟨tames_applySync i t id kind value sense src core, fun d hd => ?_⟩
  unfold applySync
  dsimp only
  split
  · rename_i bit h
    exact (owns_syncFault (errorBit_updateWord h).1 (errorBit_updateWord h).2 _ _ _).own d hd
  · have count : Tames [.regs] [.SYNC_SIG] fun _ => [addF F.SYNC_SIG_APPLIED 0 1] := fun _ => tame_of_all rfl
    have release (key : BitVec 12) (id list : Nat) (sense : Bool) : Tames [.regs, .ports, .route, .chain, .outbox] (.SYNC_SIG :: routerRegs)
        (sendReleases key id list sense) := (confines_sendReleases key id list sense).tames (by decide) (by decide) (by decide) (by decide)
    have wake (key : BitVec 12) (id w : Nat) (l : SyncLoc) : Tames [.regs, .cores, .chans] [.SLIP_COUNT, .SLIP_TIME, .SLIP_LAST]
        (wakeWaiters key id w l) := tames_wakeWaiters key id w l
    exact ((owns_writeSync _ _ _).cons (Owns.cons (count.owns (by decide) (by decide) (by decide) (by decide)) (Owns.cons
      ((release _ _ _ _).owns (by decide) (by decide) (by decide) (by decide)).onlyIf (Owns.cons ((wake _ _ _ _).owns (by decide)
        (by decide) (by decide) (by decide)) Owns.nil)))).own d hd

theorem owns_emitSignal (core n opId t kind id : Nat) (value : BitVec 32) (dest : Option Coord) :
    Owns c i pkey (emitSignal core n opId i t kind id value dest) := by
  refine ⟨tames_emitSignal core n opId i t kind id value dest, fun d hd => ?_⟩
  have complete : Tames [.cores] [] (completeOp core n opId) := fun d => by
    rw [completeOp, tame_cons]
    exact ⟨tame_ctxUpd (by decide) d core n fun _ h => h, tame_nil⟩
  have done := complete.owns (c := c) (i := i) (pkey := pkey) (by decide) (by decide) (by decide) (by decide)
  unfold emitSignal
  cases dest with
  | none => exact ((owns_applySync _ _ _ _ _ _ _).cons (done.cons Owns.nil)).own d hd
  | some to_ =>
    have send : Tames [.regs, .ports, .route, .chain, .outbox] routerRegs fun d => [.inject (signalPacket d (d.slice i).pkey to_ kind false id value core)] :=
      fun _ => tame_of_all rfl
    exact (Owns.cons (send.owns (by decide) (by decide) (by decide) (by decide)) (done.cons Owns.nil)).own d hd

theorem owns_releaseAfters (core : Nat) (sigs : List AfterSig) : Owns c i pkey (releaseAfters core i sigs) := by
  have drop : Tames [.cores] [] fun _ => [.core core fun cs => { cs with afters := cs.afters.filter fun s => !sigs.contains s }] := fun _ => by
    rw [tame_cons]
    exact ⟨tame_core (by decide) (waitless_of_ctxs (fun _ => rfl) fun _ => rfl), tame_nil⟩
  exact Owns.cons (drop.owns (by decide) (by decide) (by decide) (by decide)) (Owns.cons (Owns.forEach fun _ _ =>
    owns_emitSignal _ _ _ _ _ _ _ _) Owns.nil)

theorem owns_leaveEngine (core : Nat) (e : Engine) (a : Arm) : Owns c i pkey (leaveEngine core e a) := by
  have leave : Tames [.cores] [] fun _ => [.core core (leftCore e a)] := fun _ => by
    rw [tame_cons]
    exact ⟨tame_core (by decide) (waitless_of_ctxs (fun _ => live_onEngine ..) fun _ => ctxs_onEngine ..), tame_nil⟩
  have wake : Owns c i pkey (wakeStream core a.stream) :=
    ⟨fun d => Tames.forEach (fun n _ => (tames_wakeCtx core n).mono (by decide) (by decide)) d, fun d hd =>
      (Owns.forEach fun n _ => owns_wakeCtx core n).own d hd⟩
  exact Owns.cons (leave.owns (by decide) (by decide) (by decide) (by decide)) (wake.cons Owns.nil)

/-- The end of a transfer is work for the slice that its core serves. -/
theorem owns_finishArm (e : Engine) (a : Arm) : Owns c i pkey (finishArm c e a) := by
  refine ⟨tames_finishArm c e a, fun d hd => ?_⟩
  rw [finishArm, hd.slice]
  have release : Owns c i pkey fun d' => releaseAfters c i (aftersOf (d'.core c) a) d' :=
    ⟨fun d' => tames_releaseAfters c i _ d', fun d' hd' => (owns_releaseAfters c _).own d' hd'⟩
  exact ((owns_leaveEngine c e a).cons (release.cons Owns.nil)).own d hd

theorem owns_abortArm {bit : Fld} (hb : ErrorBit bit) (hs : bit.reg = .STREAM_ERR) (item : Option Nat) (e : Engine) (a : Arm) :
    Owns c i pkey (abortArm c bit item e a) := by
  refine ⟨tames_abortArm c hb hs item e a, fun d hd => ?_⟩
  rw [abortArm_eq]
  have mark : Tames [.regs, .spmMarks] [.STREAM_ERR, .STREAM_ERR_LOC] fun d' => abortMarks d c item e a ++ flagStream d' c bit a.stream item :=
    fun d' => (tame_append _ _).2 ⟨tame_abortMarks d c item e a, (tame_flagStream d' c hb hs _ _).mono (by decide) (by decide)⟩
  exact (Owns.cons (mark.owns (by decide) (by decide) (by decide) (by decide)) ((owns_finishArm e a).cons Owns.nil)).own d hd

theorem owns_failTask (a : Arm) (status : Nat) (item : Option Nat) : Owns c i pkey (failTask c a status item) := by
  refine ⟨tames_failTask c a status item, fun d hd u hu => ?_⟩
  rw [failTask, hd.slice] at hu
  obtain rfl := List.mem_singleton.1 hu
  cases item <;> rfl

/-- The abort of a task is work for the slice that its core serves. -/
theorem owns_abortTask (e : Engine) (a : Arm) {bit : Fld} (hb : ErrorBit bit) (hs : bit.reg = .STREAM_ERR) (status : Nat)
    (item : Option Nat) : Owns c i pkey (abortTask c e a bit status item) := by
  refine ⟨tames_abortTask c e a hb hs status item, fun d hd => ?_⟩
  rw [abortTask_eq]
  exact ((owns_failTask a status item).cons ((owns_abortArm hb hs item e a).cons (Owns.cons (Owns.forEach fun p _ =>
    owns_abortArm hb hs item p.1 p.2) Owns.nil))).own d hd

end owns

/-! ### Watchdogs -/

theorem tames_timeoutSlice (i : Nat) (device : Bool) (cause : Nat) :
    Tames (safeParts ++ recordParts) (safeRegs ++ recordRegs) (timeoutSlice i device cause) :=
  Tames.cons (((confines_failAllItems i 0x40).tames (by decide) (by decide) (by decide) (by decide)).mono (by decide) (by decide))
    (Tames.cons ((tames_haltSlice i 4).mono (by decide) (by decide)) (Tames.cons (((tames_enterSafe cause 4).mono (by decide)
      (by decide)).onlyIf) Tames.nil))

/-- A command that sets error bits and times the work of a slice out (R301, R330, R456). -/
theorem completes_timeout {ins : Instr} {s : State} {act : Act} (he : exec ins s = perform (onPower act) s) (hs : s.dev.steady) {i : Nat}
    {flags : Act} {device : Bool} {cause : Nat} (hc : cause < 256) {ps : List Part} {rs : List Reg} (tame : Tames ps rs flags)
    (run : runAct act s.dev = runAct (timeoutSlice i device cause) (runAct flags s.dev)) (desc : (s.dev.slice i).desc.isSome = true)
    (items : ∀ x ∈ s.dev.commit.items, x.pkey ≠ (s.dev.slice i).pkey → x ∈ (runAct flags s.dev).commit.items) {P : Dev → Prop}
    (h : ∀ d, (∀ f c, ErrorBit f → (runAct flags s.dev).fld f c = 1 → d.fld f c = 1) → TimedOut s.dev d i →
      (device = true → d.mode = stSafe) → P d) : Completes ins s P := by
  have same : ((runAct flags s.dev).slice i).desc = (s.dev.slice i).desc := tame.desc i
  have out := (timedOut_timeoutSlice (i := i) (by rw [same]; exact desc) device cause).before (by rw [SliceSt.pkey, SliceSt.pkey, same]) items
  refine completes_behind he hs fun d b => ?_
  rw [run] at b
  refine h d (fun f c hf set => b.error hf ((tames_timeoutSlice i device cause).error hf set)) (b.timedOut out) fun hd => ?_
  subst hd
  exact b.safe (inSafe_timeoutSlice _ i hc)

theorem expired_eq (d : Dev) (start limit : Nat) : d.expired start limit = decide (start + limit * 1000 ≤ d.now) := rfl

/-- A command that does nothing, before a limit. -/
theorem completes_quiet {ins : Instr} {s : State} {act : Act} (he : exec ins s = perform (onPower act) s) (hs : s.dev.steady)
    (ha : act s.dev = []) : Completes ins s fun d => s.dev.wrote d [] :=
  completes_nothing he hs ha fun _ q => q.wrote (wrote_refl _)

theorem mem_items_of_confined {ps : List Part} {rs : List Reg} {a : Act} (h : Confines ps rs a) (hp : Part.commit ∉ ps) (d : Dev) {x : Item}
    (hx : x ∈ d.commit.items) : x ∈ (runAct a d).commit.items := by
  rw [h.commit d hp]
  exact hx

theorem tames_moduleFault (cause : Nat) : Tames (safeParts ++ recordParts) (safeRegs ++ recordRegs) (moduleFault cause) := by
  intro d
  rw [moduleFault_eq, tame_ite]
  refine ⟨fun _ => tame_nil, fun _ => ?_⟩
  have ends := (confines_moduleFault_end d ((d.slices.filter fun e => d.memberHere e.2).map fun e => e.2.pkey)).tames (by decide) (by decide)
    (by decide) (by decide)
  exact Tames.cons (fun _ => tame_flagModule.mono (by decide) (by decide)) (Tames.cons ((tames_enterSafe cause 3).mono (by decide) (by decide))
    (Tames.cons (ends.mono (by decide) (by decide)) Tames.nil)) d

theorem errorBit_sync {f : Fld} (h : f.reg = .SYNC_ERR) (bit : f.lo = f.hi ∧ f.hi < 32) : ErrorBit f := ⟨h ▸ by decide, bit⟩

/-- A poll counts, and wakes its context when the word meets the condition (R324). -/
theorem completes_poll {s : State} {c : Fin 25600} {n : Fin 64} {i id cond o a start : Nat} {val : BitVec 32} {due limited : Bool}
    (hs : s.dev.steady) (slice : s.dev.coreSlice c = some i)
    (wait : ((s.dev.core c).ctx n).wait = some ⟨.sync id cond val, o, due, start, limited⟩)
    (loc : syncLoc (s.dev.syncEntry (s.dev.slice i).pkey id) = .hbm a) (unlisted : (c.val, n.val) ∉ (s.dev.chan (channelOf a)).monitors) :
    Completes (.syncPoll c n) s fun d =>
      d.fld F.SYNC_WAIT_POLLS = (s.dev.fld F.SYNC_WAIT_POLLS + 1) % 2 ^ 32 ∧ d.spm = s.dev.spm ∧ d.hbm = s.dev.hbm ∧
      (condMet ((s.dev.core c).ctx n) id cond val (s.dev.syncWord (.hbm a)) = true → ((d.core c).ctx n).wait = none) ∧
      (condMet ((s.dev.core c).ctx n) id cond val (s.dev.syncWord (.hbm a)) = false → d.cores = s.dev.cores ∧ s.dev.wrote d [.SYNC_WAIT]) := by
  have act : syncPollAct c n s.dev = [addF F.SYNC_WAIT_POLLS 0 1] ++
      (if condMet ((s.dev.core c).ctx n) id cond val (s.dev.syncWord (.hbm a)) then wakeWaiter (.hbm a) (c.val, n.val, cond) s.dev else []) := by
    unfold syncPollAct
    simp only [slice, wait, loc]
    rw [if_neg (by simpa using unlisted)]
  have count : Confined [.regs, .chain, .outbox] [.SYNC_WAIT] [addF F.SYNC_WAIT_POLLS 0 1] := by
    simp only [confined_cons, confined_nil, and_true]
    rfl
  have wake := confines_wakeWaiter (.hbm a) (c.val, n.val, cond) s.dev
  cases met : condMet ((s.dev.core c).ctx n) id cond val (s.dev.syncWord (.hbm a)) with
  | true =>
    rw [met, if_pos rfl] at act
    have confined : Confined [.regs, .cores, .chans, .chain, .outbox] [.SYNC_WAIT, .SLIP_COUNT, .SLIP_TIME, .SLIP_LAST] (syncPollAct c n s.dev) := by
      rw [act, confined_append]
      exact ⟨count.mono (by decide) (by decide), wake.mono (by decide) (by decide)⟩
    refine completes_act rfl hs confined (by decide) fun d q => ⟨?_, ?_, ?_, fun _ => ?_, nofun⟩
    · rw [q.fld (by decide), act, applyAll_append, wake.fld _ (by decide), applyAll_cons, applyAll_nil, fld_addF]
      rfl
    · exact q.spm.trans (keepAll_spm _ (confined.leaves (by decide)))
    · exact q.hbm.trans (keepAll_hbm _ (confined.leaves (by decide)))
    · rw [q.core, act, applyAll_append]
      exact wait_wakeWaiter (.hbm a) (c.val, n.val, cond) _ _
  | false =>
    rw [met, if_neg Bool.false_ne_true, List.append_nil] at act
    refine completes_act rfl hs (act ▸ count) (by decide) fun d q => ?_
    rw [act] at q
    refine ⟨?_, q.spm.trans (keepAll_spm _ (count.leaves (by decide))), q.hbm.trans (keepAll_hbm _ (count.leaves (by decide))), nofun,
      fun _ => ⟨q.cores.trans (keepAll_cores _ (count.leaves (by decide))), q.wrote (count.wrote s.dev (by decide))⟩⟩
    rw [q.fld (by decide), applyAll_cons, applyAll_nil, fld_addF]
    rfl

theorem tames_watchdogFlag {bit : Fld} (hb : ErrorBit bit) (hs : bit.reg = .SYNC_ERR) (key id c : Nat) :
    Tames [.regs] [.SYNC_ERR, .SYNC_ERR_LOC] fun d => flagSync d bit key id d.here.toNat c := fun d => tame_flagSync d hb hs _ _ _ _

/-- The wait watchdog expires at its limit (R330). -/
theorem completes_waitWatchdog {s : State} {c : Fin 25600} {n : Fin 64} {i id cond before start : Nat} {val : BitVec 32} {due limited : Bool}
    (hs : s.dev.steady) (slice : s.dev.coreSlice c = some i) (desc : (s.dev.slice i).desc.isSome = true)
    (wait : ((s.dev.core c).ctx n).wait = some ⟨.sync id cond val, before, due, start, limited⟩) :
    let wd := syncWd (s.dev.syncEntry (s.dev.slice i).pkey id)
    let limit := if wd = 0 then s.dev.fld F.SYNC_CFG_WAIT_WD else wd
    (start + limit * 1000 ≤ s.dev.now → Completes (.waitWatchdogExpire c n) s fun d =>
      d.fld F.SYNC_ERR_WAIT_WD = 1 ∧ TimedOut s.dev d i ∧ (s.dev.bit F.SYNC_CFG_WD_SAFE = true → d.mode = stSafe)) ∧
    (s.dev.now < start + limit * 1000 → Completes (.waitWatchdogExpire c n) s fun d => s.dev.wrote d []) := by
  intro wd limit
  have act : waitWatchdogExpireAct c n s.dev = if s.dev.expired start limit then inSequence [
        fun d => flagSync d F.SYNC_ERR_WAIT_WD (s.dev.slice i).pkey.toNat id d.here.toNat c,
        timeoutSlice i (s.dev.bit F.SYNC_CFG_WD_SAFE) 5] s.dev else [] := by
    unfold waitWatchdogExpireAct
    simp only [slice, wait]
    rfl
  have hb : ErrorBit F.SYNC_ERR_WAIT_WD := errorBit_sync rfl (by decide)
  refine ⟨fun late => ?_, fun early => ?_⟩
  · rw [expired_eq, decide_eq_true late, if_pos rfl] at act
    have flag := tames_watchdogFlag hb rfl (s.dev.slice i).pkey.toNat id c
    refine completes_timeout rfl hs (by decide) flag (device := s.dev.bit F.SYNC_CFG_WD_SAFE) (cause := 5) ?_ desc
      (fun x hx _ => mem_items_of_confined flag.confines (by decide) _ hx) fun d kept out safe => ⟨kept _ 0 hb ?_, out, safe⟩
    · rw [runAct_eq, act, ← runAct_eq, runAct_two]
    · exact flagged_flagSync _ hb rfl _ _ _ _ _
  · rw [expired_eq, decide_eq_false (by omega), if_neg Bool.false_ne_true] at act
    exact completes_quiet rfl hs act

/-- The stream watchdog expires at its limit (R330). -/
theorem completes_streamWatchdog {s : State} {c : Fin 25600} {e : Engine} {i : Nat} {a : Arm} {t : Xfer} {x : Desc}
    (hs : s.dev.steady) (slice : s.dev.coreSlice c = some i) (desc : (s.dev.slice i).desc.isSome = true)
    (service : inService s.dev c e = some (a, t, x)) :
    let limit := s.dev.fld F.SYNC_CFG_STREAM_WD
    (t.start + limit * 1000 ≤ s.dev.now → Completes (.streamWatchdogExpire c e) s fun d =>
      d.fld F.SYNC_ERR_STREAM_WD = 1 ∧ d.fld F.STREAM_ERR_TIMEOUT c = 1 ∧ TimedOut s.dev d i ∧
      (s.dev.bit F.SYNC_CFG_WD_SAFE = true → d.mode = stSafe)) ∧
    (s.dev.now < t.start + limit * 1000 → Completes (.streamWatchdogExpire c e) s fun d => s.dev.wrote d []) := by
  intro limit
  let item := if x.entryTask then (t.runs.head?).map fun r => r.item else none
  have act : streamWatchdogExpireAct c e s.dev = if s.dev.expired t.start limit then inSequence [
        fun d => flagSync d F.SYNC_ERR_STREAM_WD (s.dev.slice i).pkey.toNat 0 d.here.toNat c,
        abortTask c e a F.STREAM_ERR_TIMEOUT 0x40 item,
        timeoutSlice i (s.dev.bit F.SYNC_CFG_WD_SAFE) 5] s.dev else [] := by
    unfold streamWatchdogExpireAct
    simp only [slice, service]
    rfl
  have hb : ErrorBit F.SYNC_ERR_STREAM_WD := errorBit_sync rfl (by decide)
  have ht : ErrorBit F.STREAM_ERR_TIMEOUT := ⟨by decide, rfl, by decide⟩
  refine ⟨fun late => ?_, fun early => ?_⟩
  · rw [expired_eq, decide_eq_true late, if_pos rfl] at act
    have flag := tames_watchdogFlag hb rfl (s.dev.slice i).pkey.toNat 0 c
    have owns : Owns c i (s.dev.slice i).pkey (inSequence [fun d => flagSync d F.SYNC_ERR_STREAM_WD (s.dev.slice i).pkey.toNat 0 d.here.toNat c,
        abortTask c e a F.STREAM_ERR_TIMEOUT 0x40 item]) :=
      Owns.cons (flag.owns (by decide) (by decide) (by decide) (by decide)) ((owns_abortTask e a ht rfl 0x40 item).cons Owns.nil)
    have first := runAct_two (fun d => flagSync d F.SYNC_ERR_STREAM_WD (s.dev.slice i).pkey.toNat 0 d.here.toNat c)
      (abortTask c e a F.STREAM_ERR_TIMEOUT 0x40 item) s.dev
    refine completes_timeout rfl hs (by decide) owns.tame (device := s.dev.bit F.SYNC_CFG_WD_SAFE) (cause := 5) ?_ desc
      (owns.run ⟨slice, desc, rfl⟩).2 fun d kept out safe => ⟨kept _ 0 hb ?_, kept _ c ht ?_, out, safe⟩
    · rw [first, runAct_eq, act, ← runAct_eq, runAct_three]
    · rw [first]
      exact (tames_abortTask c e a ht rfl 0x40 item).error hb (flagged_flagSync _ hb rfl _ _ _ _ _)
    · rw [first]
      exact flagged_abortTask c e a ht rfl 0x40 item _
  · rw [expired_eq, decide_eq_false (by omega), if_neg Bool.false_ne_true] at act
    exact completes_quiet rfl hs act

/-- What the slip limit leaves before the work times out (R301). -/
def limitSlip (c n : Nat) (x : ThreadCtx) : List Act :=
  [recordSlip c n x,
   fun _ => [.core c (onCtx n fun x => { x with wait := x.wait.map fun w => { w with limited := true } })] ++ flagSeq c F.SEQ_ERR_SLIP_LIMIT]

theorem errorBit_slipLimit : ErrorBit F.SEQ_ERR_SLIP_LIMIT := ⟨by decide, rfl, by decide⟩

theorem tames_limitSlip (c n : Nat) (x : ThreadCtx) :
    Tames [.regs, .cores] [.SLIP_COUNT, .SLIP_TIME, .SLIP_LAST, .SEQ_ERR] (inSequence (limitSlip c n x)) := by
  refine Tames.cons (fun d => (tame_recordSlip c n x d).mono (by decide) (by decide)) (Tames.cons (fun _ => ?_) Tames.nil)
  rw [tame_append, tame_cons]
  refine ⟨⟨tame_core (by decide) (waitless_onCtx fun x h => by simp only [h, Option.map_none]), tame_nil⟩, ?_⟩
  exact tame_flagFault (faults := F.SEQ_ERR_FAULTS) errorBit_slipLimit rfl (by decide) (by decide) (by decide) c

theorem flagged_limitSlip (c n : Nat) (x : ThreadCtx) (d : Dev) :
    (runAct (inSequence (limitSlip c n x)) d).fld F.SEQ_ERR_SLIP_LIMIT c = 1 := by
  unfold limitSlip
  rw [runAct_inSequence_cons, runAct_inSequence_cons, runAct_inSequence_nil, runAct_list, applyAll_append]
  exact (fld_flagFault (faults := F.SEQ_ERR_FAULTS) _ c rfl (by decide)).1

/-- A slip reaches its limit (R301). -/
theorem completes_slipLimit {s : State} {c : Fin 25600} {n : Fin 64} {i : Nat} {w : Wait} (hs : s.dev.steady)
    (slice : s.dev.coreSlice c = some i) (desc : (s.dev.slice i).desc.isSome = true) (wait : ((s.dev.core c).ctx n).wait = some w)
    (unlimited : w.limited = false) :
    let limit := s.dev.fld F.SEQ_CFG_SLIP_LIMIT c
    (w.due = true → w.start + limit * 1000 ≤ s.dev.now → Completes (.slipLimitExpire c n) s fun d =>
      d.fld F.SEQ_ERR_SLIP_LIMIT c = 1 ∧ TimedOut s.dev d i ∧ (s.dev.bit F.SEQ_CFG_SLIP_SAFE c = true → d.mode = stSafe)) ∧
    (w.due = false ∨ s.dev.now < w.start + limit * 1000 → Completes (.slipLimitExpire c n) s fun d => s.dev.wrote d []) := by
  intro limit
  have act : slipLimitExpireAct c n s.dev = if w.due && !w.limited && s.dev.expired w.start limit then
      inSequence (limitSlip c n ((s.dev.core c).ctx n) ++ [timeoutSlice i (s.dev.bit F.SEQ_CFG_SLIP_SAFE c) 6]) s.dev else [] := by
    unfold slipLimitExpireAct
    simp only [slice, wait]
    rfl
  rw [unlimited, expired_eq] at act
  refine ⟨fun due late => ?_, fun early => ?_⟩
  · rw [due, decide_eq_true late, Bool.not_false, Bool.and_self, Bool.and_self, if_pos rfl] at act
    have flags := tames_limitSlip c n ((s.dev.core c).ctx n)
    refine completes_timeout rfl hs (by decide) flags (device := s.dev.bit F.SEQ_CFG_SLIP_SAFE c) (cause := 6) ?_ desc
      (fun x hx _ => mem_items_of_confined flags.confines (by decide) _ hx) fun d kept out safe => ⟨kept _ c errorBit_slipLimit ?_, out, safe⟩
    · rw [runAct_eq, act, ← runAct_eq, runAct_inSequence_append, runAct_inSequence_cons, runAct_inSequence_nil]
    · exact flagged_limitSlip c n _ _
  · refine completes_quiet rfl hs ?_
    rw [act, if_neg]
    rcases early with due | early
    · simp [due]
    · simp [Nat.not_le.2 early]

/-- A channel gives its grant up (R330). -/
def freeGrant (ch : Nat) : Act := fun _ => [.chan ch (fun c => { c with grant := none }), channelIdle ch true]

theorem tames_freeGrant (ch : Nat) : Tames [.regs, .chans] [.HBM_IDLE] (freeGrant ch) := fun _ => by
  simp only [freeGrant, tame_cons, tame_nil, and_true]
  exact ⟨tame_of_plain rfl, tame_of_plain rfl⟩

theorem grant_freeGrant (ch : Nat) (d : Dev) : ((runAct (freeGrant ch) d).chan ch).grant = none := by
  unfold freeGrant
  rw [runAct_list, applyAll_cons, applyAll_cons, applyAll_nil, chan_of_chans (keep_chans (channelIdle ch true) _ (by simp [channelIdle])),
    chan_apply_same]

/-- The grant watchdog expires at its limit (R330). -/
theorem completes_grantWatchdog {s : State} {ch : Fin 256} {port start : Nat} (hs : s.dev.steady)
    (grant : (s.dev.chan ch).grant = some (port, start)) :
    let limit := s.dev.fld F.SYNC_CFG_GRANT_WD
    (start + limit * 1000 ≤ s.dev.now → Completes (.grantWatchdogExpire ch) s fun d =>
      d.fld F.SYNC_ERR_GRANT_WD = 1 ∧ (d.chan ch).grant = none ∧ d.mode = stSafe ∧
      (s.dev.mode ≠ stSafe → d.fld F.RECOV_ERR_MODULE = 1)) ∧
    (s.dev.now < start + limit * 1000 → Completes (.grantWatchdogExpire ch) s fun d => s.dev.wrote d []) := by
  intro limit
  have act : grantWatchdogExpireAct ch s.dev = if s.dev.expired start limit then
      inSequence [fun d => flagSync d F.SYNC_ERR_GRANT_WD 0 0 d.here.toNat 65535,
        fun _ => [.chan ch (fun c => { c with grant := none }), channelIdle ch true], moduleFault 4] s.dev else [] := by
    unfold grantWatchdogExpireAct
    simp only [grant]
    rfl
  have hb : ErrorBit F.SYNC_ERR_GRANT_WD := errorBit_sync rfl (by decide)
  refine ⟨fun late => ?_, fun early => ?_⟩
  · have run := runAct_eq (grantWatchdogExpireAct ch) s.dev
    rw [act, expired_eq, decide_eq_true late, if_pos rfl, ← runAct_eq, runAct_three] at run
    have flag := tames_watchdogFlag hb rfl 0 0 65535
    have set : (runAct (fun d => flagSync d F.SYNC_ERR_GRANT_WD 0 0 d.here.toNat 65535) s.dev).fld F.SYNC_ERR_GRANT_WD = 1 :=
      flagged_flagSync s.dev hb rfl 0 0 s.dev.here.toNat 65535 s.dev
    have freed := tames_freeGrant ch
    have none_ := grant_freeGrant ch (runAct (fun d => flagSync d F.SYNC_ERR_GRANT_WD 0 0 d.here.toNat 65535) s.dev)
    have mode := (freed.fld (d := runAct (fun d => flagSync d F.SYNC_ERR_GRANT_WD 0 0 d.here.toNat 65535) s.dev) (f := F.DEV_STATE_STATE)
      (by decide) 0).trans (flag.fld (by decide) 0)
    have bit := freed.error hb set
    change runAct (grantWatchdogExpireAct ch) s.dev = runAct (moduleFault 4) (runAct (freeGrant ch) (runAct _ s.dev)) at run
    generalize runAct (freeGrant ch) (runAct _ s.dev) = d1 at run none_ mode bit
    obtain ⟨entered, module⟩ := moduleFault_reads d1 (cause := 4) (by decide)
    refine completes_behind rfl hs fun d b => ?_
    rw [run] at b
    refine ⟨b.error hb ((tames_moduleFault 4).error hb bit), ?_, b.safe entered.1, fun out => b.error ⟨by decide, rfl, by decide⟩ (module ?_)⟩
    · rw [b.chan, (tames_moduleFault 4).confines.chan _ (by decide)]
      exact none_
    · exact fun safe => out (mode.symm.trans safe)
  · rw [expired_eq, decide_eq_false (by omega), if_neg Bool.false_ne_true] at act
    exact completes_quiet rfl hs act

/-- Settles O25: a poll is a count and a wake; an expired watchdog is its error bit and `timeoutSlice`, or `moduleFault`. -/
theorem pollsWakeAndWatchdogsExpire : Obligations.PollsWakeAndWatchdogsExpire := by
  refine ⟨fun s c n i id cond o a start val due limited hs slice wait loc unlisted => completes_poll hs slice wait loc unlisted,
    fun s c n e ch i hs slice desc => ⟨fun w id cond val wait obj => ?_, fun a t x service => completes_streamWatchdog hs slice desc service,
      fun w wait unlimited => completes_slipLimit hs slice desc wait unlimited, fun port start grant => completes_grantWatchdog hs grant⟩⟩
  obtain ⟨obj', before, due, start, limited⟩ := w
  subst obj
  exact completes_waitWatchdog hs slice desc wait

end Sys2Proof.Machine
end

