-- ==== Sys2Proof/Proofs/GlobalTime.lean ====
section
/-! PROOFS. Fields behind lists of updates; SYNC exchanges, the servo, parents and masters (R331–R335, R376). -/

namespace Sys2Proof.Machine

/-! ### Fields behind an update of another field -/

/-- Two fields with no bit in common. -/
def Fld.apart (f f' : Fld) : Bool :=
  decide (f.reg ≠ f'.reg) || (decide (f.hi < f'.lo ∨ f'.hi < f.lo) && decide (f.lo ≤ f.hi) && decide (f'.lo ≤ f'.hi))

/-- An update that writes no bit of a field. -/
def Fld.spared (f' : Fld) : Upd → Bool
  | .fld f _ _ => f.apart f'
  | u => decide (f'.reg ∉ u.writes)

theorem fld_setFld_apart (d : Dev) {f f' : Fld} (i j : Nat) (g : Nat → Nat) (h : f.apart f' = true) :
    (d.setFld f i g).fld f' j = d.fld f' j := by
  simp only [Fld.apart, Bool.or_eq_true, Bool.and_eq_true, decide_eq_true_eq] at h
  rcases h with reg | ⟨⟨bits, lo⟩, lo'⟩
  · exact fld_setFld_reg d i j g reg.symm
  · exact fld_setFld_bits d i j g ⟨bits, lo, lo'⟩

/-- A field that an update does not write reads as before. -/
theorem fld_apply_spared {f : Fld} {u : Upd} (h : f.spared u = true) (d : Dev) (j : Nat) : (u.apply d).fld f j = d.fld f j := by
  have other (h : f.reg ∉ u.writes) : (u.apply d).fld f j = d.fld f j := by
    simp only [Dev.fld, reg_apply_of_not_mem u d h]
  cases u with
  | fld f' i g => exact fld_setFld_apart d i j g h
  | _ => exact other (of_decide_eq_true h)

theorem fld_setF_lt (d : Dev) {f : Fld} (i : Nat) {v : Nat} (h : v < 2 ^ (f.hi - f.lo + 1)) : ((setF f i v).apply d).fld f i = v :=
  (fld_setF d f i v).trans (Nat.mod_eq_of_lt h)

/-! ### A part behind the update that changes it -/

section parts
variable (d : Dev)

theorem gcnt_apply_gcnt (v : BitVec 64) : ((Upd.gcnt v).apply d).gcnt = v := rfl
theorem servo_apply_servo (g : ServoSt → ServoSt) : ((Upd.servo g).apply d).servo = g d.servo := rfl
theorem commit_apply_commit (g : CommitSt → CommitSt) : ((Upd.commit g).apply d).commit = g d.commit := rfl
theorem vault_apply_vault (g : VaultSt → VaultSt) : ((Upd.vault g).apply d).vault = g d.vault := rfl
theorem chain_apply_chain (g : ChainSt → ChainSt) : ((Upd.chain g).apply d).chain = g d.chain := rfl
theorem route_apply_route (g : RouteSt → RouteSt) : ((Upd.route g).apply d).route = g d.route := rfl
theorem svc_apply_svc (g : SvcSt → SvcSt) : ((Upd.svc g).apply d).svc = g d.svc := rfl
theorem start_apply_start (g : StartSt → StartSt) : ((Upd.start g).apply d).start = g d.start := rfl
theorem secure_apply_secure (g : SecureSt → SecureSt) : ((Upd.secure g).apply d).secure = g d.secure := rfl
theorem power_apply_power (g : PowerSt → PowerSt) : ((Upd.power g).apply d).power = g d.power := rfl
theorem board_apply_board (g : BoardSt → BoardSt) : ((Upd.board g).apply d).board = g d.board := rfl
theorem outbox_apply_send (m : Msg) : ((Upd.send m).apply d).outbox = d.outbox ++ [m] := rfl

end parts

/-! ### SYNC exchanges (R333, R376) -/

theorem confined_servo (g : ServoSt → ServoSt) : Confined [.servo] [] [.servo g] := by
  simp only [confined_cons, confined_nil, and_true]
  rfl

/-- The REQUEST that a module sends (R376). -/
def requestFlit (d : Dev) (n ps : Nat) : SyncFlit :=
  { kind := 1, state := d.syncState, depth := d.syncDepth, exch := BitVec.ofNat 32 n, tGcnt := d.gcnt,
    tPs := BitVec.ofNat 16 (ps % 1000), rxGcnt := 0, rxPs := 0, coord := d.coordWord, rsvZero := true }

/-- The REPLY that a module gives (R333, R376). -/
def replyFlit (d : Dev) (f : SyncFlit) (rxPs txPs : Nat) : SyncFlit :=
  { kind := 2, state := d.syncState, depth := d.syncDepth, exch := f.exch, tGcnt := d.gcnt, tPs := BitVec.ofNat 16 (txPs % 1000),
    rxGcnt := d.gcnt, rxPs := BitVec.ofNat 16 (rxPs % 1000), coord := d.coordWord, rsvZero := true }

/-- A command that records something of its servo and sends one message. -/
theorem completes_servoSend {ins : Instr} {s : State} {act : Act} (he : exec ins s = perform (onPower act) s) (hs : s.dev.steady)
    {g : ServoSt → ServoSt} {m : Msg} (ha : act s.dev = [.servo g, .send m]) {P : Dev → Prop}
    (h : ∀ d, d.servo = g s.dev.servo → m ∈ d.outbox → regsBut [] s.dev d → d.gcnt = s.dev.gcnt → P d) : Completes ins s P := by
  have confined : Confined [.servo, .outbox] [] (act s.dev) := by
    rw [ha]
    simp only [confined_cons, confined_nil, and_true]
    exact ⟨rfl, rfl⟩
  refine completes_act he hs confined (by decide) fun d q => h d ?_ ?_ (q.regsBut (confined.regsBut _ (by decide)))
    (q.gcnt.trans (keepAll_gcnt _ (confined.leaves (by decide))))
  · rw [q.servo, ha]
    rfl
  · exact q.sent.subset (sent_of_mem (ha ▸ List.mem_cons_of_mem _ (List.mem_singleton_self _)) _)

/-- Settles O26: a REQUEST and a REPLY are one message each, and the record of what was sent or heard. -/
theorem syncExchanges : Obligations.SyncExchanges := by
  intro s p f rxPs txPs hs n
  refine ⟨fun on => ?_, fun on kind => ?_, fun off => ?_, fun off => ?_⟩
  · have act : syncFlitSendAct p txPs s.dev = [
        .servo fun v => { v with sent := mapSet (fun _ => (0, 0)) p (n, s.dev.now * 1000 + txPs % 1000) v.sent },
        .send (.syncFlit p (requestFlit s.dev n txPs))] := by
      unfold syncFlitSendAct
      rw [on]
      rfl
    refine completes_servoSend rfl hs act fun d servo sent regs gcnt => ⟨?_, ⟨_, sent, rfl, rfl, rfl, rfl, rfl, rfl⟩, regs, gcnt⟩
    rw [servo]
    exact mapGet_mapSet_same ..
  · have act : syncRequestReceiveAct p f rxPs txPs s.dev = [
        .servo fun v => { v with heard := mapSet (fun _ => (255, 0)) p (f.depth.toNat, f.state.toNat) v.heard },
        .send (.syncFlit p (replyFlit s.dev f rxPs txPs))] := by
      unfold syncRequestReceiveAct
      rw [on, kind]
      rfl
    refine completes_servoSend rfl hs act fun d servo sent regs gcnt => ⟨?_, ⟨_, sent, rfl, rfl, rfl, rfl, rfl, rfl, rfl⟩, regs, gcnt⟩
    rw [servo]
    exact mapGet_mapSet_same ..
  · exact completes_quiet rfl hs (by unfold syncFlitSendAct; rw [off]; rfl)
  · refine completes_quiet rfl hs ?_
    unfold syncRequestReceiveAct
    rw [if_pos]
    simpa using off

/-! ### The servo (R333) -/

/-- What the reply of the parent sets before the lock is judged (R333, R344). -/
def slewToward (p : Nat) (f : SyncFlit) (off rate : Int) : List Upd :=
  [hearSync p f, setF F.GCNT_STATUS_OFFSET 0 (BitVec.ofInt 32 off).toNat, setF F.GCNT_STATUS_DEPTH 0 (min 24 (f.depth.toNat + 1)),
   .servo fun s => { s with rate := rate }]

theorem confined_slewToward (p : Nat) (f : SyncFlit) (off rate : Int) : Confined [.regs, .servo] [.GCNT_STATUS] (slewToward p f off rate) := by
  simp only [slewToward, confined_cons, confined_nil, and_true]
  exact ⟨rfl, rfl, rfl, rfl⟩

theorem slewToward_reads (p : Nat) (f : SyncFlit) (off rate : Int) (d : Dev) :
    (applyAll (slewToward p f off rate) d).fld F.GCNT_STATUS_OFFSET = (BitVec.ofInt 32 off).toNat ∧
    (applyAll (slewToward p f off rate) d).fld F.GCNT_STATUS_DEPTH = min 24 (f.depth.toNat + 1) ∧
    (applyAll (slewToward p f off rate) d).fld F.GCNT_STATUS_MASTER = d.fld F.GCNT_STATUS_MASTER ∧
    (applyAll (slewToward p f off rate) d).servo.rate = rate ∧ (applyAll (slewToward p f off rate) d).servo.run = d.servo.run ∧
    (applyAll (slewToward p f off rate) d).servo.everLocked = d.servo.everLocked := by
  have h32 : (BitVec.ofInt 32 off).toNat < 2 ^ (F.GCNT_STATUS_OFFSET.hi - F.GCNT_STATUS_OFFSET.lo + 1) := (BitVec.ofInt 32 off).isLt
  have h24 : min 24 (f.depth.toNat + 1) < 2 ^ (F.GCNT_STATUS_DEPTH.hi - F.GCNT_STATUS_DEPTH.lo + 1) := lt_of_le_of_lt (min_le_left ..) (by decide)
  simp (disch := exact of_decide_eq_true rfl) only [slewToward, applyAll_cons, applyAll_nil, hearSync, fld_setF, fld_apply_spared,
    Nat.mod_eq_of_lt h32, Nat.mod_eq_of_lt h24, keep_servo, servo_apply_servo, and_true]

theorem confined_gcntLock (off : Int) (d : Dev) : Confined [.regs, .servo, .gcnt] [.GCNT_STATUS] (gcntLock off d) := by
  unfold gcntLock
  simp only [confined_ite, confined_append, confined_cons, confined_nil, and_true, implies_true, true_and]
  exact ⟨fun _ => ⟨rfl, fun _ => rfl⟩, fun _ => ⟨⟨rfl, fun _ => rfl⟩, rfl, rfl⟩⟩

/-- The module locks at the sixteenth near offset in a row (R333). -/
theorem gcntLock_locks {off : Int} {d : Dev} (near : off.natAbs < 500) (run : 15 ≤ d.servo.run) : gcntLock off d =
    [.servo fun s => { s with run := 16, everLocked := true, lockedAt := if d.bit F.GCNT_STATUS_LOCKED then s.lockedAt else d.now }] ++
      (if d.servo.everLocked || d.bit F.GCNT_STATUS_MASTER then []
       else [.gcnt (BitVec.ofInt 64 ((d.now : Int) + (off + 500) / 1000))]) ++
      [setF F.GCNT_STATUS_LOCKED 0 1, setF F.GCNT_STATUS_HOLDOVER 0 0] := by
  have full : min 16 (d.servo.run + 1) = 16 := by omega
  unfold gcntLock
  simp only [near, if_true, full]
  rfl

theorem gcntLock_nears {off : Int} {d : Dev} (near : off.natAbs < 500) (run : d.servo.run < 15) :
    gcntLock off d = [.servo fun s => { s with run := d.servo.run + 1 }] := by
  have short : min 16 (d.servo.run + 1) = d.servo.run + 1 := by omega
  unfold gcntLock
  simp only [near, if_true, short]
  rw [if_pos (by omega)]
  rfl

theorem gcntLock_far {off : Int} {d : Dev} (far : 500 ≤ off.natAbs) :
    gcntLock off d = [.servo fun s => { s with run := 0 }, setF F.GCNT_STATUS_LOCKED 0 0] := by
  have notNear : ¬ off.natAbs < 500 := by omega
  unfold gcntLock
  simp only [notNear, if_false]
  rfl

/-- The offset, the depth and the rate as a module shows them. -/
def slewing (d : Dev) : Nat × Nat × Int := (d.fld F.GCNT_STATUS_OFFSET, d.fld F.GCNT_STATUS_DEPTH, d.servo.rate)

theorem keeps_gcntLock (off : Int) (d : Dev) : Keeps slewing (gcntLock off d) := by
  have field (f : Fld) (v : Nat) (h1 : f.apart F.GCNT_STATUS_OFFSET = true) (h2 : f.apart F.GCNT_STATUS_DEPTH = true) (d : Dev) :
      slewing ((setF f 0 v).apply d) = slewing d :=
    Prod.ext (fld_setFld_apart _ _ _ _ h1) (Prod.ext (fld_setFld_apart _ _ _ _ h2) rfl)
  unfold gcntLock
  simp only [keeps_ite, keeps_append, keeps_cons, keeps_nil, and_true, implies_true, true_and]
  exact ⟨fun _ => ⟨fun _ => rfl, fun _ => field _ _ (by decide) (by decide)⟩,
    fun _ => ⟨⟨fun _ => rfl, fun _ _ => rfl⟩, field _ _ (by decide) (by decide), field _ _ (by decide) (by decide)⟩⟩

/-- The lock as the servo, LOCKED, HOLDOVER and the count show it (R333). -/
theorem gcntLock_reads (off : Int) (d : Dev) :
    let e := applyAll (gcntLock off d) d
    (off.natAbs < 500 → 15 ≤ d.servo.run → e.fld F.GCNT_STATUS_LOCKED = 1 ∧ e.fld F.GCNT_STATUS_HOLDOVER = 0 ∧
      e.gcnt = if d.servo.everLocked || d.bit F.GCNT_STATUS_MASTER then d.gcnt else BitVec.ofInt 64 ((d.now : Int) + (off + 500) / 1000)) ∧
    (off.natAbs < 500 → d.servo.run < 15 → e.servo.run = d.servo.run + 1 ∧ e.gcnt = d.gcnt) ∧
    (500 ≤ off.natAbs → e.servo.run = 0 ∧ e.fld F.GCNT_STATUS_LOCKED = 0 ∧ e.gcnt = d.gcnt) := by
  refine ⟨fun near run => ?_, fun near run => ?_, fun far => ?_⟩
  · rw [gcntLock_locks near run]
    cases d.servo.everLocked || d.bit F.GCNT_STATUS_MASTER with
    | true =>
      simp (disch := exact of_decide_eq_true rfl) only [applyAll_append, applyAll_cons, applyAll_nil, fld_apply_spared, fld_setF, keep_gcnt,
        if_true]
      exact ⟨rfl, rfl, trivial⟩
    | false =>
      simp (disch := exact of_decide_eq_true rfl) only [applyAll_append, applyAll_cons, applyAll_nil, fld_apply_spared, fld_setF, keep_gcnt,
        gcnt_apply_gcnt, Bool.false_eq_true, if_false]
      exact ⟨rfl, rfl, trivial⟩
  · rw [gcntLock_nears near run]
    exact ⟨rfl, rfl⟩
  · rw [gcntLock_far far]
    simp (disch := exact of_decide_eq_true rfl) only [applyAll_cons, applyAll_nil, keep_servo, servo_apply_servo, fld_setF, keep_gcnt, true_and, and_true]
    rfl

/-- Settles O27: the reply of the own exchange is `slewToward` and `gcntLock` on the parent's port, and is heard elsewhere. -/
theorem replyDisciplinesTheCount : Obligations.ReplyDisciplinesTheCount := by
  intro s p f rxPs hs sent off on kind own
  have gate : (!s.dev.syncsOn p || decide (f.kind ≠ 2) || decide (f.exch.toNat ≠ sent.1)) = false := by
    simp [on, kind, own]
  let rate := max (-100) (min 100 (Config.servoGain * off))
  have act : syncReplyReceiveAct p f rxPs s.dev = if s.dev.fld F.GCNT_STATUS_PARENT ≠ parentCode p then [hearSync p f]
      else inSequence [fun _ => slewToward p f off rate, gcntLock off] s.dev := by
    rw [syncReplyReceiveAct]
    exact if_neg (ne_true_of_eq_false gate)
  refine ⟨fun parent => ?_, fun other => ?_⟩
  · rw [if_neg (not_not.2 parent)] at act
    obtain ⟨hoff, hdepth, hmaster, hrate, hrun, hever⟩ := slewToward_reads p f off rate s.dev
    have slew := confined_slewToward p f off rate
    have lock := confined_gcntLock off (applyAll (slewToward p f off rate) s.dev)
    have confined : Confined [.regs, .servo, .gcnt] [.GCNT_STATUS] (syncReplyReceiveAct p f rxPs s.dev) := by
      rw [act, inSequence, confined_append, inSequence, inSequence, List.append_nil]
      exact ⟨slew.mono (by decide) (by decide), lock⟩
    have gcnt := keepAll_gcnt s.dev (slew.leaves (p := .gcnt) (by decide))
    have frame := confined.regsBut s.dev (rs' := [.GCNT_STATUS]) (by decide)
    refine completes_act rfl hs confined (by decide) fun d q => ?_
    have regs := q.regsBut frame
    rw [act, applyAll_inSequence_cons, applyAll_inSequence_cons, applyAll_inSequence_nil] at q
    generalize applyAll (slewToward p f off rate) s.dev = e at *
    have keeps := (keeps_gcntLock off e).eq e
    obtain ⟨koff, krest⟩ := Prod.mk.inj keeps
    obtain ⟨kdepth, krate⟩ := Prod.mk.inj krest
    obtain ⟨locks, nears, far⟩ := gcntLock_reads off e
    rw [hrun, gcnt] at nears
    rw [hrun, hever, gcnt, Dev.bit, hmaster, Dev.now, gcnt] at locks
    rw [gcnt] at far
    refine ⟨(q.fld rfl 0).trans (koff.trans hoff), (q.fld rfl 0).trans (kdepth.trans hdepth), ?_, ?_, regs, fun h1 h2 => ?_, fun h1 h2 => ?_,
      fun h1 => ?_⟩
    · rw [q.servo, krate, hrate]
      exact le_max_left ..
    · rw [q.servo, krate, hrate]
      exact max_le (by decide) (min_le_left ..)
    · obtain ⟨h3, h4, h5⟩ := locks h1 h2
      exact ⟨(q.fld rfl 0).trans h3, (q.fld rfl 0).trans h4, q.gcnt.trans h5⟩
    · obtain ⟨h3, h4⟩ := nears h1 h2
      exact ⟨(congrArg ServoSt.run q.servo).trans h3, q.gcnt.trans h4⟩
    · obtain ⟨h3, h4, h5⟩ := far h1
      exact ⟨(congrArg ServoSt.run q.servo).trans h3, (q.fld rfl 0).trans h4, q.gcnt.trans h5⟩
  · rw [if_pos other] at act
    have confined : Confined [.servo] [] (syncReplyReceiveAct p f rxPs s.dev) := act ▸ confined_servo _
    refine completes_act rfl hs confined (by decide) fun d q => ⟨q.regsBut (confined.regsBut _ (by decide)),
      q.gcnt.trans (keepAll_gcnt _ (confined.leaves (by decide)))⟩

/-! ### Parents and masters (R334, R335) -/

/-- The neighbour chosen as parent is one of the ports in order, and of lower depth. -/
theorem bestParent_lower {d : Dev} {p : Nat} (h : d.bestParent = some p) : d.heardDepth p < d.fld F.GCNT_STATUS_DEPTH ∧ p < 6 := by
  have chosen (ps : List Nat) (b : Option Nat) (hb : ∀ q, b = some q → q ∈ reparentOrder ∧ d.heardDepth q < d.fld F.GCNT_STATUS_DEPTH)
      (hp : ∀ q ∈ ps, q ∈ reparentOrder ∧ d.heardDepth q < d.fld F.GCNT_STATUS_DEPTH) :
      ∀ q, ps.foldl (fun b p => match b with
        | some q => if d.heardDepth p < d.heardDepth q then some p else some q
        | none => some p) b = some q → q ∈ reparentOrder ∧ d.heardDepth q < d.fld F.GCNT_STATUS_DEPTH := by
    induction ps generalizing b with
    | nil => exact hb
    | cons p ps ih =>
      refine ih _ (fun q hq => ?_) fun q hq => hp q (List.mem_cons_of_mem _ hq)
      have first := hp p (List.mem_cons_self ..)
      cases b with
      | none => exact Option.some.inj hq ▸ first
      | some r =>
        dsimp only at hq
        split at hq
        · exact Option.some.inj hq ▸ first
        · exact Option.some.inj hq ▸ hb r rfl
  obtain ⟨listed, lower⟩ := chosen _ none nofun (fun q hq => by simpa using List.mem_filter.1 hq) p h
  refine ⟨lower, ?_⟩
  simp only [reparentOrder, List.mem_cons, List.not_mem_nil, or_false] at listed
  omega

theorem confined_status (us : List Upd) (h : (us.all fun u => u.confined [.regs, .servo] [.GCNT_STATUS]) = true) :
    Confined [.regs, .servo] [.GCNT_STATUS] us := fun u hu => List.all_eq_true.1 h u hu

/-- Settles O28: each command is one list of fields of GCNT_STATUS, with the parent that `bestParent` names. -/
theorem holdoverAndHandover : Obligations.HoldoverAndHandover := by
  intro s hs
  refine ⟨fun t lost none_ late => ?_, fun t p lost best master acting => ?_, fun none_ => ?_, fun valid here master locked since => ?_,
    fun p here acting alive heard => ?_, fun here acting => ?_⟩
  · have act : holdoverEnterAct s.dev = [setF F.GCNT_STATUS_HOLDOVER 0 1, setF F.GCNT_STATUS_LOCKED 0 0] := by
      unfold holdoverEnterAct
      simp only [lost, none_, late, Option.isSome_none, Bool.false_eq_true, if_false, if_true]
    have confined : Confined [.regs, .chain, .outbox] [.GCNT_STATUS] (holdoverEnterAct s.dev) := by
      rw [act]
      simp only [confined_cons, confined_nil, and_true]
      exact ⟨rfl, rfl⟩
    refine completes_act rfl hs confined (by decide) fun d q => ⟨?_, ?_, q.gcnt.trans (keepAll_gcnt _ (confined.leaves (by decide))),
      q.wrote (confined.wrote _ (by decide))⟩
    · rw [q.fld rfl, act]
      simp (disch := exact of_decide_eq_true rfl) only [applyAll_cons, applyAll_nil, fld_apply_spared, fld_setF]
      rfl
    · rw [q.fld rfl, act]
      simp (disch := exact of_decide_eq_true rfl) only [applyAll_cons, applyAll_nil, fld_apply_spared, fld_setF]
      rfl
  · obtain ⟨lower, port⟩ := bestParent_lower best
    have act : holdoverEnterAct s.dev = [setF F.GCNT_STATUS_PARENT 0 (parentCode p), setF F.GCNT_STATUS_DEPTH 0 (s.dev.heardDepth p + 1),
        .servo fun s => { s with lostAt := none, run := 0 }] := by
      unfold holdoverEnterAct reparent
      simp only [lost, best, master, acting, Option.isSome_some, if_true, Bool.or_false, Bool.false_eq_true, if_false]
    have confined : Confined [.regs, .servo] [.GCNT_STATUS] (holdoverEnterAct s.dev) := act ▸ confined_status _ rfl
    have deep : s.dev.fld F.GCNT_STATUS_DEPTH < 32 := fld_lt s.dev F.GCNT_STATUS_DEPTH 0
    have hp : parentCode p < 2 ^ (F.GCNT_STATUS_PARENT.hi - F.GCNT_STATUS_PARENT.lo + 1) := show p + 1 < 8 by omega
    have hd : s.dev.heardDepth p + 1 < 2 ^ (F.GCNT_STATUS_DEPTH.hi - F.GCNT_STATUS_DEPTH.lo + 1) := show _ < 32 by omega
    refine completes_act rfl hs confined (by decide) fun d q => ⟨?_, ?_, ?_, q.gcnt.trans (keepAll_gcnt _ (confined.leaves (by decide))),
      q.regsBut (confined.regsBut _ (by decide))⟩
    · rw [q.fld rfl, act]
      simp (disch := exact of_decide_eq_true rfl) only [applyAll_cons, applyAll_nil, fld_apply_spared, fld_setF, Nat.mod_eq_of_lt hp]
    · rw [q.fld rfl, act]
      simp (disch := exact of_decide_eq_true rfl) only [applyAll_cons, applyAll_nil, fld_apply_spared, fld_setF, Nat.mod_eq_of_lt hd]
    · rw [q.servo, act]
      rfl
  · refine completes_quiet rfl hs ?_
    unfold holdoverEnterAct
    rw [none_]
  · have act : actingMasterHandoverAct s.dev = [setF F.GCNT_STATUS_MASTER 0 1, setF F.GCNT_STATUS_PARENT 0 0, setF F.GCNT_STATUS_DEPTH 0 0] := by
      unfold actingMasterHandoverAct
      simp only [valid, here, master, locked, since, decide_true, Bool.not_false, Bool.and_self, if_true]
    have confined : Confined [.regs, .chain, .outbox] [.GCNT_STATUS] (actingMasterHandoverAct s.dev) := by
      rw [act]
      simp only [confined_cons, confined_nil, and_true]
      exact ⟨rfl, rfl, rfl⟩
    refine completes_act rfl hs confined (by decide) fun d q => ⟨?_, ?_, ?_, q.gcnt.trans (keepAll_gcnt _ (confined.leaves (by decide))),
      q.wrote (confined.wrote _ (by decide))⟩
    · rw [q.fld rfl, act]
      simp (disch := exact of_decide_eq_true rfl) only [applyAll_cons, applyAll_nil, fld_apply_spared, fld_setF]
      rfl
    · rw [q.fld rfl, act]
      simp (disch := exact of_decide_eq_true rfl) only [applyAll_cons, applyAll_nil, fld_apply_spared, fld_setF]
      rfl
    · rw [q.fld rfl, act]
      simp (disch := exact of_decide_eq_true rfl) only [applyAll_cons, applyAll_nil, fld_apply_spared, fld_setF]
      rfl
  · have act : actingMasterHandoverAct s.dev = [setF F.GCNT_STATUS_ACTING 0 0, setF F.GCNT_STATUS_PARENT 0 (parentCode p),
        setF F.GCNT_STATUS_DEPTH 0 (min 24 (s.dev.heardDepth p + 1)), .servo fun s => { s with run := 0 }] := by
      unfold actingMasterHandoverAct
      simp only [here, acting, alive, heard, decide_false, Bool.and_false, Bool.false_and, Bool.false_eq_true, if_false, ne_eq,
        not_false_eq_true, decide_true, Bool.not_false, Bool.and_self, if_true]
    have listed := List.mem_of_find?_eq_some heard
    simp only [reparentOrder, List.mem_cons, List.not_mem_nil, or_false] at listed
    have hp : parentCode p < 2 ^ (F.GCNT_STATUS_PARENT.hi - F.GCNT_STATUS_PARENT.lo + 1) := show p + 1 < 8 by omega
    have confined : Confined [.regs, .servo] [.GCNT_STATUS] (actingMasterHandoverAct s.dev) := act ▸ confined_status _ rfl
    refine completes_act rfl hs confined (by decide) fun d q => ⟨?_, ?_, q.gcnt.trans (keepAll_gcnt _ (confined.leaves (by decide))),
      q.regsBut (confined.regsBut _ (by decide))⟩
    · rw [q.fld rfl, act]
      simp (disch := exact of_decide_eq_true rfl) only [applyAll_cons, applyAll_nil, fld_apply_spared, fld_setF]
      rfl
    · rw [q.fld rfl, act]
      simp (disch := exact of_decide_eq_true rfl) only [applyAll_cons, applyAll_nil, fld_apply_spared, fld_setF, Nat.mod_eq_of_lt hp]
  · refine completes_quiet rfl hs ?_
    unfold actingMasterHandoverAct
    simp only [here, acting, decide_false, Bool.and_false, Bool.false_and, Bool.false_eq_true, if_false]

end Sys2Proof.Machine
end

