-- ==== Sys2Proof/Proofs/Requests.lean ====
section
/-! PROOFS. Requests of the chain: what a command leaves of the chain, responses kept and drawn again, and requests handled (R557, R558). -/

namespace Sys2Proof.Machine

/-! ### What an event leaves of the chain -/

/-- The chain without what raising and sending events moves. -/
def ChainSt.beside (c : ChainSt) : ChainSt := { c with evSeq := 0, evSent := 0, events := [], out := [], lastTag := 0 }

/-- Of the chain only events have moved, and none has gone. -/
structure Raised (d e : Dev) : Prop where
  beside : e.chain.beside = d.chain.beside
  events : d.chain.events <+: e.chain.events

theorem Raised.of_chain {d e : Dev} (h : e.chain = d.chain) : Raised d e := ⟨by rw [h], by rw [h]⟩

theorem Raised.trans {d e e' : Dev} (h : Raised d e) (h' : Raised e e') : Raised d e' :=
  ⟨h'.beside.trans h.beside, h.events.trans h'.events⟩

theorem raised_sent (d : Dev) (seq : BitVec 32) : Raised d { d with chain := { d.chain with evSent := seq } } := ⟨rfl, List.prefix_rfl⟩

theorem raised_ask (d : Dev) (b : OwnReq) (m : BitVec 10 → Msg) : Raised d (d.ask b m) := ⟨rfl, List.prefix_rfl⟩

theorem raised_sendEvents (n : Nat) (d : Dev) : Raised d (d.sendEvents n) := by
  induction n generalizing d with
  | zero => exact .of_chain rfl
  | succ n ih =>
    unfold Dev.sendEvents
    split
    · exact .of_chain rfl
    · split
      · exact .of_chain rfl
      · exact ((raised_sent ..).trans (raised_ask ..)).trans (ih _)

theorem raised_setFld (d : Dev) (f : Fld) (i : Nat) (g : Nat → Nat) : Raised d (d.setFld f i g) := .of_chain (setFld_chain ..)

theorem raised_numbered (d : Dev) (seq : BitVec 32) (e : Event) :
    Raised d { d with chain := { d.chain with evSeq := seq, events := d.chain.events ++ [e] } } := ⟨rfl, List.prefix_append ..⟩

theorem raised_raise (d : Dev) (k : Nat) (b : List Byte) : Raised d (d.raise k b) := by
  unfold Dev.raise
  split
  · exact ((raised_setFld ..).trans (raised_setFld ..)).trans (raised_setFld ..)
  · exact (((raised_setFld ..).trans (raised_setFld ..)).trans (raised_numbered _ _ _)).trans (raised_sendEvents _ _)

theorem raised_enterState (st : Nat) (d : Dev) : Raised d (runAct (enterState st) d) := by
  unfold enterState
  rw [runAct_eq]
  split
  · exact .of_chain rfl
  · simp only [applyAll_append, applyAll_cons, applyAll_nil, noteQuiet]
    refine ((Raised.of_chain ?_).trans (raised_raise _ 2 _)).trans (.of_chain rfl)
    simp only [setF, apply_fld, setFld_chain]

/-- A module after a command's own act: what is quiet, with of its chain only events moved. -/
structure Settles (d e : Dev) : Prop where
  quiet : Quiet d e
  raised : Raised d e

theorem settles_settled (a : Act) (d : Dev) (h : (runAct a d).route.lost = []) : Settles (runAct a d) (runAct (settled a) d) := by
  refine ⟨quiet_settled a d h, ?_⟩
  simp only [settled, runAct_inSequence_cons, runAct_inSequence_nil, runAct_fenceLost h]
  generalize runAct a d = e
  unfold settleReady
  rw [runAct_eq]
  split
  · exact raised_enterState stReady e
  · exact .of_chain rfl

/-- Kept responses are read from the chain alone. -/
theorem cached_of_cache {d e : Dev} (h : e.chain.cache = d.chain.cache) (r : Req) : e.cached r = d.cached r := by
  unfold Dev.cached
  rw [h]

theorem Raised.cache {d e : Dev} (h : Raised d e) : e.chain.cache = d.chain.cache := by
  have beside := congrArg ChainSt.cache h.beside
  exact beside

/-- A powered command, with what it leaves of the chain. -/
theorem completes_settles {i : Instr} {s : State} {a : Act} {P : Dev → Prop} (he : exec i s = perform (onPower a) s)
    (hs : s.dev.steady) (hl : (runAct a s.dev).route.lost = []) (h : ∀ d, Settles (runAct a s.dev) d → P d) : Completes i s P := by
  refine ⟨_, he.trans (perform_eq _ _), rfl, ?_⟩
  rw [withDev_dev, runAct_onPower hs.1]
  exact h _ (settles_settled a _ hl)

/-! ### A repeated request (R558) -/

/-- A command that serves a request once. -/
def Once (i : Instr) (r : Req) : Prop :=
  ∃ (f : Dev → Answer × Act) (a : Act), a = serve r f ∧ ∀ s, exec i s = perform (onPower a) s

theorem framed_true {ok : Bool} (a : Act) (h : ok = true) : framed ok a = a := if_pos h

/-- A well-formed packet is handled (R555). -/
theorem once_framed {i : Instr} {q r : Req} {f : Dev → Answer × Act} {ok bad : Bool} (he : ∀ s, exec i s = perform (onPower (framed ok (serve q f))) s)
    (well : bad = false → ok = true) (h : (if bad then none else some q) = some r) : Once i r := by
  cases bad with
  | true => cases h
  | false =>
    obtain rfl := Option.some.inj h
    exact ⟨f, _, rfl, fun s => (he s).trans (by rw [framed_true _ (well rfl)])⟩

theorem once_of_servedOnce {i : Instr} {r : Req} (h : servedOnce i = some r) : Once i r := by
  cases i
  case ringCtlArm | ringCtlStop | linkKill | linkRetrain | linkEnableWrite | coreArraymodeWrite | hbmFreezeWrite | vaultSlotWrite |
      spmSlotWrite | spmRegionWrite | snapAtWrite | rngSeedWrite | pwrCtlWrite | ltolWrite | go | stop | toMaint | resume | reqSlice |
      reqDevice | enter | leave | qpCreate | qpDestroy | jobStart | jobStop | exportAdapter | adapterGen | baseSwitch | nonce | attest |
      getEk | installOpen | installClose | ownerTransfer | snapshot | launch | freeze | drain | reset =>
    obtain rfl := Option.some.inj h
    exact ⟨_, _, rfl, fun _ => rfl⟩
  case hostDma | planRetry | loadRetry | weightLoad => exact once_framed (fun _ => rfl) (by simp) h
  case install => exact once_framed (fun _ => rfl) (by simp) h
  case ltol => exact once_framed (fun _ => rfl) (by simp) h
  case registerWrite => exact once_framed (fun _ => rfl) (by simp; omega) h
  case memWr => exact once_framed (fun _ => rfl) (by simp +contextual [Nat.one_le_iff_ne_zero]) h
  all_goals cases h

theorem serve_cached {d : Dev} {r : Req} {e : CachedResp} (f : Dev → Answer × Act) (h : d.cached r = some e) :
    serve r f d = [.send (.resp r e.status e.reason e.data)] := by
  unfold serve
  rw [h]

/-- Settles O32: the kept response is the one message of the command. -/
theorem repeatedRequestIsNotExecuted : Obligations.RepeatedRequestIsNotExecuted := by
  intro s r e i hs kept once
  obtain ⟨f, _, rfl, he⟩ := once_of_servedOnce once
  have act := serve_cached f kept
  have confined : Confined [.outbox] [] (serve r f s.dev) := by
    rw [act]
    simp only [confined_cons, confined_nil, and_true]
    rfl
  refine completes_settles (he s) hs ((congrArg RouteSt.lost (keepAll_route _ (confined.leaves (by decide)))).trans hs.2) fun d q => ?_
  refine ⟨q.quiet.sent.subset ?_, q.quiet.wrote ((confined.mono (by decide) fun _ h => h).wrote _ (by decide)), ?_⟩
  · rw [runAct_eq]
    exact sent_of_mem (by rw [act]; exact List.mem_singleton_self _) _
  · rw [q.raised.cache]
    exact congrArg ChainSt.cache (keepAll_chain _ (confined.leaves (by decide)))

/-! ### A request handled (R557, R558) -/

theorem serve_fresh {d : Dev} {r : Req} (f : Dev → Answer × Act) (h : d.fresh r) :
    serve r f d = [addF F.CHAIN_CNT_RX 0 1] ++ (f d).2 d ++ respond r (f d).1 := by
  unfold serve
  rw [h]

/-- What is kept of a request's source and tag is its last response. -/
theorem find_keepResponse (r : Req) (a : Answer) (cache : List CachedResp) :
    ((keepResponse r a cache).find? fun e => e.path = r.path ∧ e.src = r.src ∧ e.tag = r.tag) =
      some ⟨r.path, r.src, r.tag, a.status, a.reason, a.data⟩ := by
  unfold keepResponse
  rw [List.find?_append, List.find?_eq_none.2, Option.none_or]
  · exact List.find?_cons_of_pos (by simp)
  · intro e he same
    have kept : e ∈ cache.filter fun e => ¬ ((e.path = r.path ∧ e.src = r.src) ∧ e.tag = r.tag) := by
      dsimp only at he
      split at he
      · split at he
        · exact List.mem_of_mem_erase he
        · exact he
      · exact he
    simp_all

/-- The updates of a request that is served: counted, executed, answered. -/
def handled (r : Req) (a : Answer) (us : List Upd) : List Upd := [addF F.CHAIN_CNT_RX 0 1] ++ us ++ respond r a

/-- The module with a request counted (R589). -/
def Dev.heard (d : Dev) : Dev := applyAll [addF F.CHAIN_CNT_RX 0 1] d

theorem applyAll_handled (r : Req) (a : Answer) (us : List Upd) (d : Dev) :
    applyAll (handled r a us) d = applyAll (respond r a) (applyAll us d.heard) := by
  rw [handled, applyAll_append, applyAll_append, Dev.heard]

theorem quiet_respond (r : Req) (a : Answer) (d : Dev) : Quiet d (applyAll (respond r a) d) :=
  ⟨rfl, fun _ _ _ => rfl, List.prefix_append .., rfl⟩

/-- But for the response a request leaves what its updates do behind its count. -/
theorem quiet_handled (r : Req) (a : Answer) (us : List Upd) (d : Dev) : Quiet (applyAll us d.heard) (applyAll (handled r a us) d) := by
  rw [applyAll_handled]
  exact quiet_respond r a _

theorem confined_handled {ps : List Part} {rs : List Reg} {us : List Upd} (r : Req) (a : Answer) (h : Confined ps rs us) :
    Confined (.regs :: .chain :: .outbox :: ps) (.CHAIN_CNT :: rs) (handled r a us) := by
  simp only [handled, respond, confined_append, confined_cons, confined_nil, and_true]
  refine ⟨⟨?_, h.mono (fun _ m => by simp [m]) fun _ m => by simp [m]⟩, ?_, ?_⟩
  all_goals simp [Upd.confined, Upd.touches, Upd.writes, addF]

theorem answered_handled {ps : List Part} {rs : List Reg} {us : List Upd} (r : Req) (a : Answer) (d : Dev) (h : Confined ps rs us)
    (cnt : .CHAIN_CNT ∉ rs) {e : Dev} (q : Settles (applyAll (handled r a us) d) e) : d.answered e r a := by
  refine ⟨q.quiet.sent.subset (sent_of_mem ?_ _), (cached_of_cache q.raised.cache r).trans ?_, (q.quiet.fld rfl 0).trans ?_⟩
  · simp [handled, respond]
  · simp only [handled, respond, applyAll_append, applyAll_cons, applyAll_nil, Dev.cached, chain_apply_chain]
    exact find_keepResponse r a _
  · have after (d : Dev) : (applyAll (respond r a) d).fld F.CHAIN_CNT_RX = d.fld F.CHAIN_CNT_RX := rfl
    simp only [handled, applyAll_append, applyAll_cons, applyAll_nil]
    rw [after, h.fld _ cnt]
    exact fld_addF ..

/-- A request with no response yet is served. -/
theorem completes_request {i : Instr} {s : State} {r : Req} {f : Dev → Answer × Act} {P : Dev → Prop} {ps : List Part} {rs : List Reg}
    {a : Answer} {act : Act} (he : exec i s = perform (onPower (serve r f)) s) (hs : s.dev.steady) (fresh : s.dev.fresh r)
    (hf : f s.dev = (a, act)) (hc : Confined ps rs (act s.dev)) (route : .route ∉ ps) (cnt : .CHAIN_CNT ∉ rs)
    (h : ∀ d, Settles (applyAll (handled r a (act s.dev)) s.dev) d → s.dev.answered d r a → P d) : Completes i s P := by
  have act : runAct (serve r f) s.dev = applyAll (handled r a (act s.dev)) s.dev := by
    rw [runAct_eq, serve_fresh f fresh, hf]
    rfl
  refine completes_settles he hs ?_ fun d q => ?_
  · rw [act]
    exact (congrArg RouteSt.lost (keepAll_route _ ((confined_handled r a hc).leaves (by simp [route])))).trans hs.2
  · rw [act] at q
    exact h d q (answered_handled r a s.dev hc cnt q)

/-- A request that writes registers alone is answered, and nothing else changes. -/
theorem completes_written {i : Instr} {s : State} {r : Req} {f : Dev → Answer × Act} {rs rs' : List Reg} {a : Answer} {act : Act}
    (he : exec i s = perform (onPower (serve r f)) s) (hs : s.dev.steady) (fresh : s.dev.fresh r) (hf : f s.dev = (a, act))
    (hc : Confined [.regs, .chain, .outbox] rs (act s.dev)) (cnt : .CHAIN_CNT ∉ rs)
    (hr : ∀ x ∈ .CHAIN_CNT :: rs, x ∈ rs' ∨ x ∈ modeRegs) : Completes i s fun d => s.dev.answered d r a ∧ s.dev.wrote d rs' :=
  completes_request he hs fresh hf hc (by decide) cnt fun _ q answer =>
    ⟨answer, q.quiet.wrote (((confined_handled r a hc).mono (by simp) fun _ h => h).wrote _ hr)⟩

/-- A refused request is answered, and nothing else changes (R557). -/
theorem completes_refused {i : Instr} {s : State} {r : Req} {f : Dev → Answer × Act} {a : Answer}
    (he : exec i s = perform (onPower (serve r f)) s) (hs : s.dev.steady) (fresh : s.dev.fresh r) (hf : f s.dev = (a, noAct)) :
    Completes i s fun d => s.dev.answered d r a ∧ s.dev.wrote d [.CHAIN_CNT] :=
  completes_written he hs fresh hf (rs := []) confined_nil (by decide) (by simp)

end Sys2Proof.Machine
end

