-- ==== Sys2Proof/Proofs/Snapshots.lean ====
section
/-! PROOFS. Snapshots of the counters (R336, R338–R341). -/

namespace Sys2Proof.Machine

/-! ### Registers copied -/

/-- A copy of listed registers reads as they do for the keys copied. -/
theorem mapGet_copied (regs : SMap Nat) (k : Nat) : ∀ (ks : List Nat) (m : SMap Nat),
    mapGet regDefault (ks.foldl (fun m k => mapSet regDefault k (mapGet regDefault regs k) m) m) k =
      if k ∈ ks then mapGet regDefault regs k else mapGet regDefault m k := by
  intro ks
  induction ks with
  | nil => simp
  | cons j ks ih =>
    intro m
    rw [List.foldl_cons, ih, mapGet_mapSet]
    by_cases here : k = j
    · subst here
      simp
    · simp [here]

theorem mapGet_of_not_listed {α : Type} (dflt : Nat → α) (k : Nat) : ∀ m : SMap α, k ∉ m.map Prod.fst → mapGet dflt m k = dflt k := by
  intro m
  induction m with
  | nil => exact fun _ => rfl
  | cons e m ih =>
    intro h
    simp only [List.map_cons, List.mem_cons, not_or] at h
    exact (if_neg h.1).trans (ih h.2)

/-- A counter whose key is not copied is not listed. -/
theorem reg_of_not_latched (d : Dev) {r : Reg} (i : Nat) (latched : r.latched = true) (h : regKey r i ∉ d.latchedKeys) :
    mapGet regDefault d.regs (regKey r i) = regDefault (regKey r i) := by
  refine mapGet_of_not_listed _ _ _ fun listed => h (List.mem_filter.2 ⟨listed, ?_⟩)
  rw [regKey_div, Reg.all_getElem]
  exact latched

/-- A latch holds every counter, where the counters read alike when its keys are listed and when they are copied. -/
theorem latchedAs_snapLatch (d d₀ d₁ : Dev) (info : SnapInfo)
    (h₀ : ∀ f ∈ latchedFields, ∀ i, d₀.fld f i = d.fld f i)
    (h₁ : ∀ f ∈ latchedFields, f ≠ F.CHAIN_CNT_RX → ∀ i, d₁.fld f i = d.fld f i) :
    latchedAs d ((Upd.snapLatch info d₀.latchedKeys).apply d₁).snapPend := by
  intro f hf notRx i
  have latched : f.reg.latched = true := List.any_eq_true.2 ⟨f, hf, decide_eq_true rfl⟩
  show (mapGet regDefault (List.foldl _ [] _) _ >>> f.lo) % _ = _
  rw [mapGet_copied]
  split
  · exact h₁ f hf notRx i
  · rw [mapGet_nil, ← reg_of_not_latched d₀ i latched ‹_›]
    exact h₀ f hf i

/-! ### Latching and publishing -/

/-- The updates that latch the counters. -/
def latches (info : SnapInfo) (keys : List Nat) : List Upd :=
  [.snapLatch info keys, setF F.SNAP_STATUS_ARMED 0 0, setF F.SNAP_STATUS_PENDING 0 1]

/-- The updates that publish a latched snapshot. -/
def publishes (info : SnapInfo) : List Upd :=
  [.snapPublish, setF F.SNAP_GCNT_GCNT 0 info.gcnt, addF F.SNAP_SEQ_SEQ 0 1, setF F.SNAP_STATUS_PENDING 0 0,
   setB F.SNAP_STATUS_ABANDONED 0 false, setB F.SNAP_STATUS_LATE 0 info.late, setB F.SNAP_STATUS_UNLOCKED 0 info.unlocked]

/-- What a snapshot of the module records of itself (R338, R341). -/
def Dev.snapInfoAt (d : Dev) (at_ : Nat) (late : Bool) : SnapInfo := ⟨at_, late, !d.bit F.GCNT_STATUS_LOCKED, d.liveKeys⟩

theorem pending_latches (info : SnapInfo) (keys : List Nat) (d : Dev) :
    (applyAll (latches info keys) d).bit F.SNAP_STATUS_PENDING = true ∧ (applyAll (latches info keys) d).snapInfo = info := by
  refine ⟨?_, ?_⟩
  · simp only [Dev.bit, latches, applyAll_cons, applyAll_nil, fld_setF]
    decide
  · simp (disch := exact of_decide_eq_true rfl) only [latches, applyAll_cons, applyAll_nil, keep_snapInfo]
    rfl

theorem snapLatchAct_eq (late : Bool) (d : Dev) :
    let info := d.snapInfoAt (if late then d.now else d.fld F.SNAP_AT_GCNT) late
    snapLatchAct late d = latches info d.latchedKeys ++ if d.liveKeys.isEmpty then publishes info else [] := by
  intro info
  obtain ⟨pending, kept⟩ := pending_latches info d.latchedKeys d
  have publish : publishSnap false (applyAll (latches info d.latchedKeys) d) = publishes info := by
    unfold publishSnap
    rw [if_pos pending, kept]
    rfl
  have acts : snapLatchAct late d = latches info d.latchedKeys ++
      (onlyIf d.liveKeys.isEmpty (publishSnap false) (applyAll (latches info d.latchedKeys) d) ++ []) := rfl
  rw [acts, List.append_nil, onlyIf]
  split
  · rw [publish]
  · rfl

/-- The module has latched its counters, and published them where no slice has a live binding (R338, R339). -/
def Dev.latched (d e : Dev) (at_ : Nat) (late : Bool) : Prop :=
  e.snapInfo = d.snapInfoAt at_ late ∧ latchedAs d e.snapPend ∧ e.fld F.SNAP_STATUS_ARMED = 0 ∧
  (d.liveKeys ≠ [] → e.fld F.SNAP_STATUS_PENDING = 1 ∧ e.snapPub = d.snapPub) ∧
  (d.liveKeys = [] → e.fld F.SNAP_STATUS_PENDING = 0 ∧ e.snapPub = e.snapPend ∧ e.fld F.SNAP_GCNT_GCNT = at_ ∧
    e.fld F.SNAP_SEQ_SEQ = (d.fld F.SNAP_SEQ_SEQ + 1) % 2 ^ 64 ∧ e.fld F.SNAP_STATUS_ABANDONED = 0 ∧
    e.fld F.SNAP_STATUS_LATE = (if late then 1 else 0))

/-- A latch on a module whose counters read as those of `d`. -/
theorem latched_latches (d d₀ d₁ : Dev) {at_ : Nat} (late : Bool) (small : at_ < 2 ^ 64)
    (h₀ : ∀ f ∈ latchedFields, ∀ i, d₀.fld f i = d.fld f i)
    (h₁ : ∀ f ∈ latchedFields, f ≠ F.CHAIN_CNT_RX → ∀ i, d₁.fld f i = d.fld f i)
    (pub : d₁.snapPub = d.snapPub) (seq : d₁.fld F.SNAP_SEQ_SEQ = d.fld F.SNAP_SEQ_SEQ) :
    d.latched (applyAll (latches (d.snapInfoAt at_ late) d₀.latchedKeys ++
      if d.liveKeys.isEmpty then publishes (d.snapInfoAt at_ late) else []) d₁) at_ late := by
  have counters := latchedAs_snapLatch d d₀ d₁ (d.snapInfoAt at_ late) h₀ h₁
  generalize hinfo : d.snapInfoAt at_ late = info at *
  have hat : info.gcnt = at_ := by rw [← hinfo]; rfl
  have hlate : info.late = late := by rw [← hinfo]; rfl
  have fits : at_ % 2 ^ (F.SNAP_GCNT_GCNT.hi - F.SNAP_GCNT_GCNT.lo + 1) = at_ := Nat.mod_eq_of_lt small
  have info' (v : Dev) : ((Upd.snapLatch info d₀.latchedKeys).apply v).snapInfo = info := rfl
  unfold Dev.latched
  rw [hinfo]
  rcases hlive : d.liveKeys with _ | ⟨key, keys⟩
  · simp (disch := exact of_decide_eq_true rfl) only [List.isEmpty_nil, if_true, latches, publishes, applyAll_append, applyAll_cons,
      applyAll_nil, keep_snapInfo, keep_snapPend, keep_snapPub, fld_apply_spared, fld_setF, fld_setB, fld_addF, hat, hlate, info', fits, seq]
    exact ⟨trivial, counters, rfl, fun h => absurd rfl h, fun _ => ⟨rfl, rfl, trivial, trivial, rfl, trivial⟩⟩
  · simp (disch := exact of_decide_eq_true rfl) only [List.isEmpty_cons, Bool.false_eq_true, if_false, latches, applyAll_append,
      applyAll_cons, applyAll_nil, keep_snapInfo, keep_snapPend, keep_snapPub, fld_apply_spared, fld_setF, info', pub]
    exact ⟨trivial, counters, rfl, fun _ => ⟨rfl, trivial⟩, fun h => nomatch h⟩

theorem Dev.latched.settles {d e e' : Dev} {at_ : Nat} {late : Bool} (h : d.latched e at_ late) (q : Quiet e e') :
    d.latched e' at_ late := by
  obtain ⟨info, counters, armed, live, free⟩ := h
  refine ⟨q.snapInfo.trans info, q.snapPend ▸ counters, (q.fld rfl 0).trans armed, fun h => ?_, fun h => ?_⟩
  · exact ⟨(q.fld rfl 0).trans (live h).1, q.snapPub.trans (live h).2⟩
  · obtain ⟨pending, pub, at', seq, abandoned, late'⟩ := free h
    exact ⟨(q.fld rfl 0).trans pending, by rw [q.snapPub, q.snapPend, pub], (q.fld rfl 0).trans at', (q.fld rfl 0).trans seq,
      (q.fld rfl 0).trans abandoned, (q.fld rfl 0).trans late'⟩

theorem confined_latches (info : SnapInfo) (keys : List Nat) :
    Confined [.regs, .snapInfo, .snapPend] [.SNAP_STATUS] (latches info keys) := by
  simp only [latches, confined_cons, confined_nil, and_true]
  exact ⟨rfl, rfl, rfl⟩

theorem confined_publishes (info : SnapInfo) : Confined [.regs, .snapPub] [.SNAP_GCNT, .SNAP_SEQ, .SNAP_STATUS] (publishes info) := by
  simp only [publishes, confined_cons, confined_nil, and_true]
  exact ⟨rfl, rfl, rfl, rfl, rfl, rfl, rfl⟩

theorem confines_snapLatchAct (late : Bool) : Confines [.regs, .snapInfo, .snapPend, .snapPub] [.SNAP_GCNT, .SNAP_SEQ, .SNAP_STATUS]
    (snapLatchAct late) := by
  intro d
  rw [snapLatchAct_eq]
  simp only [confined_append, confined_ite, confined_nil, implies_true, and_true]
  exact ⟨(confined_latches _ _).mono (by decide) (by decide), fun _ => (confined_publishes _).mono (by decide) (by decide)⟩

/-! ### SNAP_AT (R336, R341) -/

/-- The updates that arm a snapshot. -/
def arms (v : Nat) : List Upd := [setF F.SNAP_AT_GCNT 0 v, setF F.SNAP_STATUS_ARMED 0 1]

theorem confined_arms (v : Nat) : Confined [.regs] [.SNAP_AT, .SNAP_STATUS] (arms v) := by
  simp only [arms, confined_cons, confined_nil, and_true]
  exact ⟨rfl, rfl⟩

/-- No latched counter stands in a register of the snapshot. -/
theorem snapRegs_not_latched : ∀ f ∈ latchedFields, f.reg ∉ [Reg.SNAP_AT, .SNAP_STATUS] := by decide

/-- The counters read as before a request is counted, but CHAIN_CNT.RX. -/
theorem rx_apart_latched : ∀ f ∈ latchedFields, f ≠ F.CHAIN_CNT_RX → f.spared (addF F.CHAIN_CNT_RX 0 1) = true := by decide

theorem writeSnapAt_refused {v : Nat} {d : Dev} (h : (!d.bit F.SNAP_STATUS_ARMED && !d.bit F.SNAP_STATUS_PENDING) = false) :
    writeSnapAt v d = refuse 5 := if_pos (by revert h; cases d.bit F.SNAP_STATUS_ARMED <;> simp)

theorem writeSnapAt_free {v : Nat} {d : Dev} (h : (!d.bit F.SNAP_STATUS_ARMED && !d.bit F.SNAP_STATUS_PENDING) = true) :
    ∃ act, writeSnapAt v d = (answerOk, act) ∧ act d = arms v ++ if v < d.now then snapLatchAct true (applyAll (arms v) d) else [] := by
  refine ⟨_, if_neg (by revert h; cases d.bit F.SNAP_STATUS_ARMED <;> simp), ?_⟩
  have acts : ∀ a : Act, inSequence [fun _ => arms v, a] d = arms v ++ (a (applyAll (arms v) d) ++ []) := fun _ => rfl
  refine (acts _).trans ?_
  rw [List.append_nil, onlyIf]
  simp only [decide_eq_true_eq]

theorem writeAt_snapAt (path : Path) (v : BitVec 64) {d : Dev} (h : d.powered .SNAP_AT = true) :
    writeAt path .SNAP_AT 0 v d = writeSnapAt v.toNat d := if_neg (by simp [h])

/-- A late write of SNAP_AT latches the counters as the module stood before it (R336). -/
theorem latched_late (v : Nat) (d : Dev) : d.latched (applyAll (arms v ++ snapLatchAct true (applyAll (arms v) d)) d.heard) d.now true := by
  have armed := confined_arms v
  have live : (applyAll (arms v) d).liveKeys = d.liveKeys := by
    simp only [Dev.liveKeys, armed.fld d (f := F.RING_STATUS_STATE) (by decide), armed.fld d (f := F.RING_CTL_PKEY) (by decide)]
  have info : (applyAll (arms v) d).snapInfoAt d.now true = d.snapInfoAt d.now true := by
    simp only [Dev.snapInfoAt, live, Dev.bit, armed.fld d (f := F.GCNT_STATUS_LOCKED) (by decide)]
  have now : (applyAll (arms v) d).now = d.now := congrArg BitVec.toNat (keepAll_gcnt d (armed.leaves (by decide)))
  have act : snapLatchAct true (applyAll (arms v) d) = latches (d.snapInfoAt d.now true) (applyAll (arms v) d).latchedKeys ++
      if d.liveKeys.isEmpty then publishes (d.snapInfoAt d.now true) else [] := by
    rw [snapLatchAct_eq, live, if_pos rfl, now, info]
  rw [act, applyAll_append]
  refine latched_latches d (applyAll (arms v) d) _ true d.gcnt.isLt ?_ ?_ ?_ ?_
  · exact fun f hf i => armed.fld d (snapRegs_not_latched f hf) i
  · exact fun f hf notRx i => (armed.fld _ (snapRegs_not_latched f hf) i).trans (fld_apply_spared (rx_apart_latched f hf notRx) d i)
  · simp (disch := exact of_decide_eq_true rfl) only [arms, Dev.heard, applyAll_cons, applyAll_nil, keep_snapPub]
  · simp (disch := exact of_decide_eq_true rfl) only [arms, Dev.heard, applyAll_cons, applyAll_nil, fld_apply_spared]

theorem arms_reads (v : BitVec 64) (d : Dev) : (applyAll (arms v.toNat) d).fld F.SNAP_AT_GCNT = v.toNat ∧
    (applyAll (arms v.toNat) d).fld F.SNAP_STATUS_ARMED = 1 := by
  have fits : v.toNat % 2 ^ (F.SNAP_AT_GCNT.hi - F.SNAP_AT_GCNT.lo + 1) = v.toNat := Nat.mod_eq_of_lt v.isLt
  simp (disch := exact of_decide_eq_true rfl) only [arms, applyAll_cons, applyAll_nil, fld_setF, fld_apply_spared, fits, true_and]
  rfl

/-- Settles O29: a latch copies what the counters hold, behind SNAP_AT's own registers and the count of the request. -/
theorem snapshotLatches : Obligations.SnapshotLatches := by
  intro s r val hs free latched
  refine ⟨fun fresh powered => ⟨fun isFree due => ?_, fun isFree late => ?_, fun busy => ?_⟩, fun armed due => ?_, fun idle => ?_⟩
  · obtain ⟨act, write, updates⟩ := writeSnapAt_free (v := val.toNat) isFree
    rw [if_neg (Nat.not_lt.2 due), List.append_nil] at updates
    have confined : Confined [.regs] [.SNAP_AT, .SNAP_STATUS] (act s.dev) := updates ▸ confined_arms _
    refine completes_request rfl hs fresh ((writeAt_snapAt _ _ powered).trans write) confined (by decide) (by decide) fun d q answer => ?_
    obtain ⟨at_, arm⟩ := arms_reads val s.dev.heard
    have kept := (quiet_handled r answerOk (act s.dev) s.dev).trans q.quiet
    rw [updates] at kept
    exact ⟨answer, (kept.fld rfl 0).trans at_, (kept.fld rfl 0).trans arm,
      q.quiet.wrote (((confined_handled r answerOk confined).mono (by decide) fun _ h => h).wrote _ (by decide))⟩
  · obtain ⟨act, write, updates⟩ := writeSnapAt_free (v := val.toNat) isFree
    rw [if_pos late] at updates
    have confined : Confined [.regs, .snapInfo, .snapPend, .snapPub] [.SNAP_AT, .SNAP_GCNT, .SNAP_SEQ, .SNAP_STATUS] (act s.dev) := by
      rw [updates, confined_append]
      exact ⟨(confined_arms _).mono (by decide) (by decide), (confines_snapLatchAct true _).mono (by decide) (by decide)⟩
    refine completes_request rfl hs fresh ((writeAt_snapAt _ _ powered).trans write) confined (by decide) (by decide) fun d q answer => ?_
    have kept := (quiet_handled r answerOk (act s.dev) s.dev).trans q.quiet
    rw [updates] at kept
    exact ⟨answer, (latched_late val.toNat s.dev).settles kept⟩
  · exact completes_refused rfl hs fresh ((writeAt_snapAt _ _ powered).trans (writeSnapAt_refused busy))
  · have act : snapshotLatchAct s.dev = snapLatchAct false s.dev := if_pos (by simp [armed, due])
    refine completes_act rfl hs (act ▸ confines_snapLatchAct false s.dev) (by decide) fun d q => ?_
    rw [act, snapLatchAct_eq] at q
    exact (latched_latches s.dev s.dev s.dev false (fld_lt ..) (fun _ _ _ => rfl) (fun _ _ _ _ => rfl) rfl rfl).settles q
  · refine completes_quiet rfl hs (if_neg ?_)
    rcases idle with idle | idle
    · simp [idle]
    · simp [Nat.not_le.2 idle]

end Sys2Proof.Machine
end

