-- ==== Sys2Proof/Proofs/RegisterWrites.lean ====
section
/-! PROOFS. Writes of registers: plain fields, tables, refusals, and blocks that are powered down (R10–R16, R110, R192, R196, R211, R221, R503,
R622, R656). -/

namespace Sys2Proof.Machine

/-! ### Updates of one copy of a register -/

/-- Updates that write fields of one copy of a register. -/
def Stores (r : Reg) (i : Nat) (us : List Upd) : Prop := ∀ u ∈ us, ∃ f g, u = .fld f i g ∧ f.reg = r

section stores
variable {r : Reg} {i : Nat}

theorem stores_nil : Stores r i [] := fun _ h => nomatch h

theorem Stores.cons {f : Fld} {us : List Upd} (hf : f.reg = r) (g : Nat → Nat) (h : Stores r i us) : Stores r i (.fld f i g :: us) := by
  intro u hu
  rcases List.mem_cons.1 hu with rfl | hu
  · exact ⟨f, g, rfl, hf⟩
  · exact h u hu

theorem stores_setF {f : Fld} (hf : f.reg = r) (v : Nat) : Stores r i [setF f i v] := Stores.cons hf _ stores_nil

theorem Stores.tail {u : Upd} {us : List Upd} (h : Stores r i (u :: us)) : Stores r i us := fun v hv => h v (List.mem_cons_of_mem _ hv)

theorem Stores.confined {us : List Upd} (h : Stores r i us) : Confined [.regs] [r] us := by
  intro u hu
  obtain ⟨f, g, rfl, rfl⟩ := h u hu
  simp [Upd.confined, Upd.touches, Upd.writes]

/-- Other copies read as before. -/
theorem Stores.copies {us : List Upd} (h : Stores r i us) {j : Nat} (hj : j % regCopies ≠ i % regCopies) (d : Dev) :
    (applyAll us d).reg r j = d.reg r j := by
  induction us generalizing d with
  | nil => rfl
  | cons u us ih =>
    obtain ⟨f, g, rfl, -⟩ := h u (List.mem_cons_self ..)
    exact (ih h.tail _).trans (reg_setFld_other d f i g (.inr hj))

/-- The copy written depends on its old word alone. -/
theorem Stores.reg {us : List Upd} (h : Stores r i us) {d d' : Dev} (hd : d'.reg r i = d.reg r i) :
    (applyAll us d').reg r i = (applyAll us d).reg r i := by
  induction us generalizing d d' with
  | nil => exact hd
  | cons u us ih =>
    obtain ⟨f, g, rfl, rfl⟩ := h u (List.mem_cons_self ..)
    refine ih h.tail ?_
    simp only [apply_fld, reg_setFld_same, Dev.fld, hd]

end stores

theorem reg_heard (d : Dev) {r : Reg} (h : r ≠ .CHAIN_CNT) (i : Nat) : d.heard.reg r i = d.reg r i := by
  rw [Dev.heard, applyAll_cons, applyAll_nil]
  exact reg_apply_of_not_mem (addF F.CHAIN_CNT_RX 0 1) d (fun m => h (List.mem_singleton.1 m)) i

theorem fld_heard (d : Dev) {f : Fld} (h : f.reg ≠ .CHAIN_CNT) (i : Nat) : d.heard.fld f i = d.fld f i := by
  simp only [Dev.fld, reg_heard d h]

/-- A request that writes one copy of a register. -/
theorem completes_stored {ins : Instr} {s : State} {q : Req} {f : Dev → Answer × Act} {act : Act} {r : Reg} {i : Nat} {us : List Upd}
    {P : Dev → Prop} (he : exec ins s = perform (onPower (serve q f)) s) (hs : s.dev.steady) (fresh : s.dev.fresh q)
    (hf : f s.dev = (answerOk, act)) (ha : act s.dev = us) (st : Stores r i us) (hi : i < regCopies) (cnt : r ≠ .CHAIN_CNT)
    (mode : r ∉ modeRegs)
    (h : ∀ d, s.dev.answered d q answerOk ∧ s.dev.wrote d [r, .CHAIN_CNT] → otherCopies r i s.dev d →
      (∀ f : Fld, f.reg = r → d.fld f i = (applyAll us s.dev).fld f i) → P d) : Completes ins s P := by
  refine completes_request he hs fresh hf (ha ▸ st.confined) (by decide)
    (fun m => cnt (List.mem_singleton.1 m).symm) fun d settles answer => ?_
  have confined := confined_handled q answerOk (ha ▸ st.confined : Confined [.regs] [r] (act s.dev))
  have kept : Quiet (applyAll us s.dev.heard) d := ha ▸ (quiet_handled q answerOk (act s.dev) s.dev).trans settles.quiet
  have heard (j : Nat) : s.dev.heard.reg r j = s.dev.reg r j := reg_heard s.dev cnt j
  refine h d ⟨answer, settles.quiet.wrote ((confined.mono (by decide) fun _ h => h).wrote _ fun x hx => .inl ((List.Perm.swap ..).mem_iff.1 hx))⟩
    (fun j hj ne => ?_) fun f hf => ?_
  · refine (kept.reg _ _ (modeReg_eq_false mode)).trans ((st.copies ?_ _).trans (heard j))
    rwa [Nat.mod_eq_of_lt hj, Nat.mod_eq_of_lt hi]
  · subst hf
    rw [kept.fld (modeReg_eq_false mode)]
    simp only [Dev.fld, st.reg (heard i)]

/-! ### Plain registers (R14, R656) -/

/-- Fields that do not meet. -/
def fieldsApart : List FieldInfo → Bool
  | [] => true
  | f :: fs => decide (f.lo ≤ f.hi) && (fs.all fun g => decide (f.hi < g.lo ∨ g.hi < f.lo)) && fieldsApart fs

/-- The fields of a register do not meet. -/
theorem fieldsApart_info (r : Reg) : fieldsApart r.info.fields = true := by
  have all : (Reg.all.all fun r => fieldsApart r.info.fields) = true := by decide
  exact List.all_eq_true.1 all r (Reg.mem_all r)

theorem fieldsApart_cons {f : FieldInfo} {fs : List FieldInfo} (h : fieldsApart (f :: fs) = true) :
    f.lo ≤ f.hi ∧ (∀ g ∈ fs, f.hi < g.lo ∨ g.hi < f.lo) ∧ fieldsApart fs = true := by
  simp only [fieldsApart, Bool.and_eq_true, List.all_eq_true, decide_eq_true_eq] at h
  exact ⟨h.1.1, h.1.2, h.2⟩

theorem le_of_fieldsApart {g : FieldInfo} : ∀ {fs : List FieldInfo}, fieldsApart fs = true → g ∈ fs → g.lo ≤ g.hi := by
  intro fs
  induction fs with
  | nil => exact fun _ h => nomatch h
  | cons f fs ih =>
    intro h hg
    obtain ⟨le, -, rest⟩ := fieldsApart_cons h
    rcases List.mem_cons.1 hg with rfl | hg
    · exact le
    · exact ih rest hg

/-- What a plain write does to one field. -/
def storeOf (r : Reg) (i : Nat) (val : BitVec 64) (f : FieldInfo) : Option Upd :=
  let x := bitsOf val f.hi f.lo
  match f.access with
  | .rw => some (setF ⟨r, f.hi, f.lo⟩ i x)
  | .w1c => if x ≠ 0 then some (setF ⟨r, f.hi, f.lo⟩ i 0) else none
  | _ => none

theorem storeFields_eq (r : Reg) (i : Nat) (val : BitVec 64) : storeFields r i val = r.info.fields.filterMap (storeOf r i val) := rfl

/-- What a plain write leaves in a field. -/
def storedIn (val : BitVec 64) (f : FieldInfo) (old : Nat) : Nat :=
  match f.access with
  | .rw => bitsOf val f.hi f.lo
  | .w1c => if bitsOf val f.hi f.lo ≠ 0 then 0 else old
  | _ => old

section plain
variable {r : Reg} {i : Nat} {val : BitVec 64}

theorem storeOf_some {f : FieldInfo} {u : Upd} (h : storeOf r i val f = some u) : ∃ v, u = setF ⟨r, f.hi, f.lo⟩ i v := by
  unfold storeOf at h
  dsimp only at h
  split at h
  · exact ⟨_, (Option.some.inj h).symm⟩
  · split at h
    · exact ⟨_, (Option.some.inj h).symm⟩
    · cases h
  · cases h

theorem stores_storeFields (r : Reg) (i : Nat) (val : BitVec 64) : Stores r i (storeFields r i val) := by
  intro u hu
  obtain ⟨f, -, hf⟩ := List.mem_filterMap.1 hu
  obtain ⟨v, rfl⟩ := storeOf_some hf
  exact ⟨_, _, rfl, rfl⟩

/-- A field apart from those written reads as before. -/
theorem fld_storeOf_apart {f : FieldInfo} {fs : List FieldInfo} (le : f.lo ≤ f.hi) (hfs : fieldsApart fs = true)
    (h : ∀ g ∈ fs, f.hi < g.lo ∨ g.hi < f.lo) (d : Dev) :
    (applyAll (fs.filterMap (storeOf r i val)) d).fld ⟨r, f.hi, f.lo⟩ i = d.fld ⟨r, f.hi, f.lo⟩ i := by
  induction fs generalizing d with
  | nil => rfl
  | cons g fs ih =>
    obtain ⟨le', -, rest⟩ := fieldsApart_cons hfs
    have ih (d : Dev) := ih rest (fun g hg => h g (List.mem_cons_of_mem _ hg)) d
    rw [List.filterMap_cons]
    split
    · exact ih d
    · rename_i u hu
      obtain ⟨v, rfl⟩ := storeOf_some hu
      exact (ih _).trans (fld_setFld_bits d i i _ ⟨(h g (List.mem_cons_self ..)).symm, le', le⟩)

theorem fld_storeOf_same (f : FieldInfo) (d : Dev) :
    (applyAll (storeOf r i val f).toList d).fld ⟨r, f.hi, f.lo⟩ i = storedIn val f (d.fld ⟨r, f.hi, f.lo⟩ i) := by
  unfold storeOf storedIn
  dsimp only
  cases f.access with
  | rw =>
    refine (fld_setF d ⟨r, f.hi, f.lo⟩ i _).trans ?_
    unfold bitsOf
    exact Nat.mod_mod _ _
  | w1c =>
    dsimp only
    split
    · exact (fld_setF d ⟨r, f.hi, f.lo⟩ i 0).trans (Nat.zero_mod _)
    · rfl
  | ro | wo => rfl

/-- What a plain write leaves in the fields of a register that do not meet. -/
theorem fld_storeOf {f : FieldInfo} {fs : List FieldInfo} (hfs : fieldsApart fs = true) (hf : f ∈ fs) (d : Dev) :
    (applyAll (fs.filterMap (storeOf r i val)) d).fld ⟨r, f.hi, f.lo⟩ i = storedIn val f (d.fld ⟨r, f.hi, f.lo⟩ i) := by
  induction fs generalizing d with
  | nil => exact nomatch hf
  | cons g fs ih =>
    obtain ⟨le, apart, rest⟩ := fieldsApart_cons hfs
    have split : applyAll ((g :: fs).filterMap (storeOf r i val)) d =
        applyAll (fs.filterMap (storeOf r i val)) (applyAll (storeOf r i val g).toList d) := by
      rw [List.filterMap_cons, ← applyAll_append]
      cases storeOf r i val g <;> rfl
    rw [split]
    rcases List.mem_cons.1 hf with rfl | hf
    · rw [fld_storeOf_apart le rest apart, fld_storeOf_same]
    · rw [ih rest hf]
      congr 1
      have one := fld_storeOf_apart (r := r) (i := i) (val := val) (fs := [g]) (le_of_fieldsApart rest hf)
        (by simp [fieldsApart, le]) (fun x hx => by rw [List.mem_singleton.1 hx]; exact (apart f hf).symm) d
      refine Eq.trans ?_ one
      rw [List.filterMap_cons]
      cases storeOf r i val g <;> rfl

theorem fld_storeFields {f : FieldInfo} (hf : f ∈ r.info.fields) (d : Dev) :
    (applyAll (storeFields r i val) d).fld ⟨r, f.hi, f.lo⟩ i = storedIn val f (d.fld ⟨r, f.hi, f.lo⟩ i) :=
  fld_storeOf (fieldsApart_info r) hf d

end plain

/-! ### Plain registers as the chain writes them (R15, R43, R557) -/

theorem writeLive_plain {g : Reg} (path : Path) (i : Nat) (val : BitVec 64) (d : Dev) (h : g ∉ ownRule) :
    writeLive path g i val d = writePlain g i val d := by
  unfold writeLive
  split
  case h_18 => rfl
  all_goals exact absurd (by decide) h

theorem ownRule_of_wakesFirst {g : Reg} (h : wakesFirst g = true) : g ∈ ownRule := by
  simp only [wakesFirst, Bool.or_eq_true, decide_eq_true_eq] at h
  rcases h with ((rfl | rfl) | rfl) | rfl <;> decide

theorem writeAt_powered (path : Path) {g : Reg} (i : Nat) (val : BitVec 64) {d : Dev} (h : d.powered g = true) :
    writeAt path g i val d = writeLive path g i val d := if_neg (by simp [h])

theorem writeReg_at {path : Path} {addr bytes : Nat} {val : BitVec 64} {d : Dev} {g : Reg} {j : Nat} (h : d.locate path addr bytes = .at_ g j) :
    writeReg path addr bytes val d = writeAt path g j val d := by
  unfold writeReg
  rw [h]

theorem writeReg_no {path : Path} {addr bytes : Nat} {val : BitVec 64} {d : Dev} {reason : Nat} (h : d.locate path addr bytes = .no reason) :
    writeReg path addr bytes val d = refuse reason := by
  unfold writeReg
  rw [h]

/-- The state that refuses a write of a plain register: MAINTENANCE needed, or a ring context held (R43, R656). -/
def Dev.heldReg (d : Dev) (g : Reg) (j : Nat) : Bool :=
  (maintOnly g && d.mode ≠ stMaint) || (ringReg g && (d.fld F.RING_STATUS_STATE j = 1 || d.fld F.RING_STATUS_STATE j = 2))

theorem writePlain_held {g : Reg} {j : Nat} (val : BitVec 64) {d : Dev} (h : d.heldReg g j = true) : writePlain g j val d = refuse 5 := by
  simp only [Dev.heldReg, Bool.or_eq_true] at h
  unfold writePlain
  dsimp only
  split
  · rfl
  · rename_i free
    rw [if_pos (by simpa using h.resolve_left free)]

theorem writePlain_reserved {g : Reg} {j : Nat} {val : BitVec 64} {d : Dev} (h : d.heldReg g j = false) (bad : reservedValue g val = true) :
    writePlain g j val d = refuse 6 := by
  simp only [Dev.heldReg, Bool.or_eq_false_iff] at h
  unfold writePlain
  dsimp only
  rw [if_neg (by simpa using h.1), if_neg (by simpa using h.2), if_pos bad]

/-- The updates of a plain write: its fields, and the loaded mark of a share that moves. -/
def plainStores (g : Reg) (j : Nat) (val : BitVec 64) : Act :=
  inSequence [fun _ => storeFields g j val, onlyIf (g = .RING_SHARE || g = .RING_SHADOW) (unload j)]

theorem writePlain_ok {g : Reg} {j : Nat} {val : BitVec 64} {d : Dev} (h : d.heldReg g j = false) (good : reservedValue g val = false) :
    writePlain g j val d = (answerOk, plainStores g j val) := by
  simp only [Dev.heldReg, Bool.or_eq_false_iff] at h
  unfold writePlain
  dsimp only
  rw [if_neg (by simpa using h.1), if_neg (by simpa using h.2), if_neg (by simp [good])]
  rfl

/-! ### Powered-down blocks (R620, R622) -/

theorem wakeUp_eq {d : Dev} (h : d.fld F.PWR_STATUS_STATE ≠ 0) :
    wakeUp d = [setF F.PWR_STATUS_STATE 0 0, .freeze false, .power fun p => { p with quietAt := d.now }] := if_neg h

theorem asleep_of_not_powered {d : Dev} {g : Reg} (h : d.powered g = false) : d.fld F.PWR_STATUS_STATE ≠ 0 := by
  intro awake
  simp [Dev.powered, awake] at h

theorem confined_wakeUp (d : Dev) : Confined [.regs, .frozen, .power] [.PWR_STATUS] (wakeUp d) := by
  unfold wakeUp
  simp only [confined_ite, confined_nil, confined_cons, noteQuiet, and_true, implies_true, true_and]
  exact fun _ => ⟨rfl, rfl, rfl⟩

/-- Waking the module, but for the register file that its sleep kept, is quiet. -/
theorem quiet_wake (e : Dev) (v : Option (SMap Nat × BitVec 64)) (g : Nat) :
    Quiet { e with frozen := v } { applyAll [.freeze false, .power fun p => { p with quietAt := g }] e with frozen := v } :=
  ⟨rfl, fun _ _ _ => rfl, List.prefix_rfl, rfl⟩

theorem withFrozen_same {d : Dev} {v : Option (SMap Nat × BitVec 64)} (h : d.frozen = v) : { d with frozen := v } = d := by
  subst h
  rfl

theorem Quiet.withFrozen {d e : Dev} (q : Quiet d e) (v : Option (SMap Nat × BitVec 64)) :
    Quiet { d with frozen := v } { e with frozen := v } :=
  ⟨(congrArg (fun x : Dev => { x with frozen := v }) q.same :), q.reg, q.sent, q.power⟩

/-- A module woken by a request that is answered BUSY (R622). -/
theorem completes_busy {ins : Instr} {s : State} {q : Req} {f : Dev → Answer × Act} (he : exec ins s = perform (onPower (serve q f)) s)
    (hs : s.dev.steady) (fresh : s.dev.fresh q) (hf : f s.dev = (answerBusy, wakeUp)) (asleep : s.dev.fld F.PWR_STATUS_STATE ≠ 0) :
    Completes ins s fun d => s.dev.answered d q answerBusy ∧ d.fld F.PWR_STATUS_STATE = 0 ∧
      s.dev.wrote { d with frozen := s.dev.frozen } [.CHAIN_CNT, .PWR_STATUS] := by
  refine completes_request he hs fresh hf (confined_wakeUp _) (by decide) (by decide) fun d settles answer => ⟨answer, ?_, ?_⟩
  · have kept := (quiet_handled q answerBusy (wakeUp s.dev) s.dev).trans settles.quiet
    rw [kept.fld rfl, wakeUp_eq asleep]
    simp (disch := exact of_decide_eq_true rfl) only [applyAll_cons, applyAll_nil, fld_apply_spared, fld_setF]
    rfl
  · have kept := ((quiet_handled q answerBusy (wakeUp s.dev) s.dev).trans settles.quiet).withFrozen s.dev.frozen
    have woken : applyAll (wakeUp s.dev) s.dev.heard = applyAll [.freeze false, .power fun p => { p with quietAt := s.dev.now }]
        (applyAll [addF F.CHAIN_CNT_RX 0 1, setF F.PWR_STATUS_STATE 0 0] s.dev) := by
      rw [wakeUp_eq asleep, Dev.heard, ← applyAll_append, ← applyAll_append]
      rfl
    rw [woken] at kept
    have slept : Confined [.regs] [.CHAIN_CNT, .PWR_STATUS] [addF F.CHAIN_CNT_RX 0 1, setF F.PWR_STATUS_STATE 0 0] := by
      simp only [confined_cons, confined_nil, and_true]
      exact ⟨rfl, rfl⟩
    refine kept.wrote ((quiet_wake _ s.dev.frozen s.dev.now).wrote ?_)
    rw [withFrozen_same (keepAll_frozen s.dev (slept.leaves (by decide)))]
    exact (slept.mono (by decide) fun _ h => h).wrote s.dev (by decide)

/-! ### REGISTER_WRITE (R10–R16, R656) -/

theorem exec_registerWrite (r : Req) {addr bytes : Nat} (val : BitVec 64) (s : State) (h1 : 1 ≤ bytes) (h8 : bytes ≤ 8) :
    exec (.registerWrite r addr bytes val) s = perform (onPower (serve r (writeReg r.path addr bytes val))) s :=
  congrArg (fun a => perform (onPower a) s) (framed_true _ (by simp [h1, h8]))

theorem plainStores_eq (g : Reg) (j : Nat) (val : BitVec 64) (d : Dev) :
    ∃ tail, plainStores g j val d = storeFields g j val ++ tail ∧ Confined [.regs] [.LOAD_STATUS] tail := by
  refine ⟨_, rfl, ?_⟩
  simp only [inSequence, confined_append, confined_nil, and_true, onlyIf, unload, confined_ite, confined_cons, implies_true]
  exact fun _ => rfl

/-- CHAIN_CNT only counts: a write stores nothing. -/
theorem storeFields_chainCnt (j : Nat) (val : BitVec 64) : storeFields .CHAIN_CNT j val = [] := rfl

/-- What a plain write that is taken leaves (R14, R16). -/
theorem completes_plain {s : State} {r : Req} {addr bytes : Nat} {val : BitVec 64} {g : Reg} {j : Nat} (hs : s.dev.steady)
    (fresh : s.dev.fresh r) (h1 : 1 ≤ bytes) (h8 : bytes ≤ 8) (mode : g ∉ modeRegs)
    (hf : writeReg r.path addr bytes val s.dev = (answerOk, plainStores g j val)) :
    Completes (.registerWrite r addr bytes val) s fun d => s.dev.answered d r answerOk ∧ s.dev.wrote d [g, .CHAIN_CNT, .LOAD_STATUS] ∧
      (g ≠ .LOAD_STATUS → g ≠ .CHAIN_CNT → otherCopies g (j % regCopies) s.dev d ∧ ∀ f ∈ g.info.fields,
        d.fld ⟨g, f.hi, f.lo⟩ j = storedIn val f (s.dev.fld ⟨g, f.hi, f.lo⟩ j)) := by
  obtain ⟨tail, updates, loads⟩ := plainStores_eq g j val s.dev
  have stores := stores_storeFields g j val
  obtain ⟨rs, confined, sub, cnt⟩ : ∃ rs, Confined [.regs] rs (plainStores g j val s.dev) ∧ rs ⊆ [g, .LOAD_STATUS] ∧ .CHAIN_CNT ∉ rs := by
    rw [updates]
    by_cases counter : g = .CHAIN_CNT
    · subst counter
      exact ⟨[.LOAD_STATUS], (storeFields_chainCnt j val).symm ▸ loads, by simp, by decide⟩
    · refine ⟨[g, .LOAD_STATUS], (confined_append _ _).2 ⟨stores.confined.mono (by simp) (by simp), loads.mono (by simp) (by simp)⟩,
        fun _ h => h, fun m => ?_⟩
      rcases List.mem_cons.1 m with m | m
      · exact counter m.symm
      · exact absurd m (by decide)
  refine completes_request (exec_registerWrite r val s h1 h8) hs fresh hf confined (by decide) cnt fun d settles answer => ⟨answer, ?_, ?_⟩
  · refine settles.quiet.wrote (((confined_handled r answerOk confined).mono (by decide) fun _ h => h).wrote _ fun x hx => .inl ?_)
    rcases List.mem_cons.1 hx with rfl | hx
    · exact List.mem_cons_of_mem _ (List.mem_cons_self ..)
    · exact List.Subset.trans sub (by simp) hx
  · intro load counter
    have kept := (quiet_handled r answerOk (plainStores g j val s.dev) s.dev).trans settles.quiet
    rw [updates, applyAll_append] at kept
    have reg (i : Nat) : d.reg g i = (applyAll (storeFields g j val) s.dev.heard).reg g i :=
      (kept.reg _ _ (modeReg_eq_false mode)).trans (loads.reg _ (fun m => load (List.mem_singleton.1 m)) i)
    refine ⟨fun i hi ne => (reg i).trans ((stores.copies ?_ _).trans (reg_heard s.dev counter i)), fun f hf => ?_⟩
    · rwa [Nat.mod_eq_of_lt hi]
    · refine Eq.trans ?_ ((fld_storeFields (i := j) (val := val) hf s.dev.heard).trans ?_)
      · simp only [Dev.fld, reg]
      · rw [fld_heard s.dev counter]

/-- Settles O31: a plain write stores its fields behind the count of the request, and a refused one stores nothing. -/
theorem registerWriteTakesEffect : Obligations.RegisterWriteTakesEffect := by
  intro s r addr bytes val hs fresh h1 h8
  refine ⟨fun g j here powered own mode => ?_, fun g j here asleep wakes => ?_, fun reason none => ?_⟩
  · have write : writeReg r.path addr bytes val s.dev = writePlain g j val s.dev :=
      (writeReg_at here).trans ((writeAt_powered _ _ _ powered).trans (writeLive_plain _ _ _ _ own))
    refine ⟨fun held => ?_, fun free bad => ?_, fun free good => ?_⟩
    · exact completes_refused (exec_registerWrite r val s h1 h8) hs fresh (write.trans (writePlain_held val held))
    · exact completes_refused (exec_registerWrite r val s h1 h8) hs fresh (write.trans (writePlain_reserved free bad))
    · exact completes_plain hs fresh h1 h8 mode (write.trans (writePlain_ok free good))
  · refine completes_busy (exec_registerWrite r val s h1 h8) hs fresh ((writeReg_at here).trans (if_pos ?_)) (asleep_of_not_powered asleep)
    rw [wakes, asleep]
    rfl
  · exact completes_refused (exec_registerWrite r val s h1 h8) hs fresh (writeReg_no none)

end Sys2Proof.Machine
end

