-- ==== Sys2Proof/Proofs/Tables.lean ====
section
/-! PROOFS. Writes of tables: array modes, slot tables, regions, freezes, vault slots and seeds (R110, R192, R196, R211, R221, R503). -/

namespace Sys2Proof.Machine

theorem bitsOf_mod {w : Nat} (x : BitVec w) (hi lo : Nat) : bitsOf x hi lo % 2 ^ (hi - lo + 1) = bitsOf x hi lo := Nat.mod_mod _ _

/-- A field that takes bits of a value takes them whole. -/
theorem fld_setBits (d : Dev) (f : Fld) (i : Nat) {w : Nat} (x : BitVec w) : ((setF f i (bitsOf x f.hi f.lo)).apply d).fld f i = bitsOf x f.hi f.lo :=
  (fld_setF ..).trans (bitsOf_mod ..)

theorem bits_high (val : BitVec 64) : bitsOf val 63 31 * 2147483648 < 2 ^ 64 := by
  have : bitsOf val 63 31 < 2 ^ 33 := Nat.mod_lt _ (by decide)
  omega

/-- The fields of a vault slot do not meet. -/
theorem vaultSlot_stored (i : Nat) (val : BitVec 64) (d : Dev) :
    ∀ f ∈ [F.VAULT_SLOT_PRESENT, F.VAULT_SLOT_GEN, F.VAULT_SLOT_SIZE, F.VAULT_SLOT_BASE],
      (applyAll ([F.VAULT_SLOT_PRESENT, F.VAULT_SLOT_GEN, F.VAULT_SLOT_SIZE, F.VAULT_SLOT_BASE].map fun f =>
        setF f i (bitsOf val f.hi f.lo)) d).fld f i = bitsOf val f.hi f.lo := by
  intro f hf
  simp only [List.mem_cons, List.not_mem_nil, or_false] at hf
  rcases hf with rfl | rfl | rfl | rfl
  all_goals
    simp (disch := exact of_decide_eq_true rfl) only [List.map_cons, List.map_nil, applyAll_cons, applyAll_nil, fld_apply_spared]
    exact fld_setBits ..

theorem stores_map (r : Reg) (i : Nat) (fs : List Fld) (v : Fld → Nat) (h : ∀ f ∈ fs, f.reg = r) : Stores r i (fs.map fun f => setF f i (v f)) := by
  intro u hu
  obtain ⟨f, hf, rfl⟩ := List.mem_map.1 hu
  exact ⟨f, _, rfl, h f hf⟩

/-! ### What each table's write answers -/

section answers
variable {val : BitVec 64} {d : Dev}

theorem writeArrayMode_ok (c : Nat) (maint : d.mode = stMaint) (good : ¬ (1 < bitsOf val 3 0 ∨ 1 < bitsOf val 7 4)) :
    writeArrayMode c val d = (answerOk, fun _ => [setF F.CORE_ARRAYMODE_MODE_A c (bitsOf val 3 0),
      setF F.CORE_ARRAYMODE_MODE_B c (bitsOf val 7 4)]) := by
  unfold writeArrayMode
  rw [if_neg (not_not.2 maint), if_neg (by simpa using good)]

theorem writeArrayMode_bad (c : Nat) (maint : d.mode = stMaint) (bad : 1 < bitsOf val 3 0 ∨ 1 < bitsOf val 7 4) :
    writeArrayMode c val d = refuse 6 := by
  unfold writeArrayMode
  rw [if_neg (not_not.2 maint), if_pos (by simpa using bad)]

theorem writeSpmSlot_ok (path : Path) (b : Nat) (maint : d.mode = stMaint)
    (good : ((List.range 16).any fun s => reservedEngine (bitsOf val (4 * s + 3) (4 * s))) = false) :
    writeSpmSlot path b val d = (answerOk, fun d => [setF (wholeReg .SPM_SLOT) (d.spmSel path * 16 + b) val.toNat]) := by
  unfold writeSpmSlot
  rw [if_neg (not_not.2 maint), if_neg (by rw [good]; decide)]

theorem writeSpmSlot_bad (path : Path) (b : Nat) (maint : d.mode = stMaint)
    (bad : ((List.range 16).any fun s => reservedEngine (bitsOf val (4 * s + 3) (4 * s))) = true) :
    writeSpmSlot path b val d = refuse 6 := by
  unfold writeSpmSlot
  rw [if_neg (not_not.2 maint), if_pos bad]

theorem writeSpmRegion_ok (path : Path) (n : Nat) (maint : d.mode = stMaint)
    (good : (reservedEngine (bitsOf val 62 59) || reservedEngine (bitsOf val 58 55)) = false) :
    writeSpmRegion path n val d =
      (answerOk, fun d => [setF (wholeReg .SPM_REGION) (regionIx (d.spmSel path) n) (bitsOf val 63 31 * 2147483648)]) := by
  unfold writeSpmRegion
  rw [if_neg (not_not.2 maint), if_neg (by rw [good]; decide)]

theorem writeSpmRegion_bad (path : Path) (n : Nat) (maint : d.mode = stMaint)
    (bad : (reservedEngine (bitsOf val 62 59) || reservedEngine (bitsOf val 58 55)) = true) :
    writeSpmRegion path n val d = refuse 6 := by
  unfold writeSpmRegion
  rw [if_neg (not_not.2 maint), if_pos bad]

theorem writeLive_vaultSlot (path : Path) (slotB : Bool) :
    writeLive path .VAULT_SLOT (if slotB then 1 else 0) val d = writeVaultSlot slotB val d := by
  cases slotB <;> rfl

theorem writeVaultSlot_open (slotB : Bool) (h : d.bit F.VAULT_CTL_INSTALL = true) : writeVaultSlot slotB val d =
    (answerOk, fun _ => [F.VAULT_SLOT_PRESENT, F.VAULT_SLOT_GEN, F.VAULT_SLOT_SIZE, F.VAULT_SLOT_BASE].map fun f =>
      setF f (if slotB then 1 else 0) (bitsOf val f.hi f.lo)) := if_pos h

theorem vaultSlotFields_reg : ∀ f ∈ [F.VAULT_SLOT_PRESENT, F.VAULT_SLOT_GEN, F.VAULT_SLOT_SIZE, F.VAULT_SLOT_BASE], f.reg = .VAULT_SLOT := by
  decide

theorem writeVaultSlot_shut (slotB : Bool) (h : d.bit F.VAULT_CTL_INSTALL = false) : writeVaultSlot slotB val d =
    (addressError 5, fun _ => [setF F.VAULT_ERR_WRITE_REFUSED 0 1]) := if_neg (by simp [h])

/-- The slice map entry that DET_SEL of a path names (R512). -/
def Dev.seeded (d : Dev) (path : Path) : SliceSt := d.slice (d.fld F.DET_SEL_INDEX path.copy)

theorem writeSeed_ok (path : Path) (alloc : (d.seeded path).desc.isSome = true) (idle : d.activeRings (d.seeded path).pkey = []) :
    writeSeed path val d = (answerOk, fun _ => [setF F.RNG_SEED_SEED (d.fld F.DET_SEL_INDEX path.copy) val.toNat]) := by
  refine if_neg ?_
  change ¬ ((d.seeded path).desc.isNone || !(d.activeRings (d.seeded path).pkey).isEmpty) = true
  rw [idle]
  simp [Option.isSome_iff_ne_none.1 alloc]

theorem writeSeed_held (path : Path) (held : (d.seeded path).desc = none ∨ d.activeRings (d.seeded path).pkey ≠ []) :
    writeSeed path val d = refuse 5 := by
  refine if_pos ?_
  change ((d.seeded path).desc.isNone || !(d.activeRings (d.seeded path).pkey).isEmpty) = true
  rcases held with none | active
  · simp [none]
  · simp [active]

end answers

section tables
variable {s : State} {r : Req} {val : BitVec 64} (hs : s.dev.steady) (fresh : s.dev.fresh r) (powered : ∀ g, s.dev.powered g = true)
include hs fresh powered

/-- A write of a table that is taken stores what its rule gives. -/
theorem completes_table {ins : Instr} {g : Reg} {k i : Nat} {act : Act} {us : List Upd} (he : exec ins s = perform (onPower (serve r (writeAt r.path g k val))) s)
    (hf : writeLive r.path g k val s.dev = (answerOk, act)) (ha : act s.dev = us) (st : Stores g i us) (hi : i < regCopies)
    (cnt : g ≠ .CHAIN_CNT) (mode : g ∉ modeRegs) {P : Dev → Prop}
    (h : ∀ d, s.dev.answered d r answerOk ∧ s.dev.wrote d [g, .CHAIN_CNT] → otherCopies g i s.dev d →
      (∀ f : Fld, f.reg = g → d.fld f i = (applyAll us s.dev).fld f i) → P d) : Completes ins s P :=
  completes_stored he hs fresh ((writeAt_powered _ _ _ (powered g)).trans hf) ha st hi cnt mode h

theorem completes_tableRefused {ins : Instr} {g : Reg} {k reason : Nat} (he : exec ins s = perform (onPower (serve r (writeAt r.path g k val))) s)
    (hf : writeLive r.path g k val s.dev = refuse reason) :
    Completes ins s fun d => s.dev.answered d r (addressError reason) ∧ s.dev.wrote d [.CHAIN_CNT] :=
  completes_refused he hs fresh ((writeAt_powered _ _ _ (powered g)).trans hf)

end tables

/-- Settles O42: each table's write stores the fields of one copy of its register, or is refused before it. -/
theorem tablesAreWritten : Obligations.TablesAreWritten := by
  intro s r c i b n slotB val hs fresh powered maint core badSlots badEngines badModes e took no
  have copies : core * 32 + 32 ≤ regCopies := by
    have : core < 2 ^ 16 := fld_lt s.dev F.SPM_SEL_CORE r.path.copy
    unfold regCopies
    omega
  have slot : core * 16 + b < regCopies := by omega
  have region : regionIx core n < regCopies := by unfold regionIx; omega
  have modulo16 : b.val % 16 = b := Nat.mod_eq_of_lt b.isLt
  have modulo32 : n.val % 32 = n := Nat.mod_eq_of_lt n.isLt
  refine ⟨fun live => ?_, fun inMaint => ?_, ?_, fun open_ => ?_, fun shut => ?_, fun free => ?_, fun held => ?_⟩
  · have mode : s.dev.mode ≠ stMaint := of_decide_eq_false live
    exact ⟨completes_tableRefused hs fresh powered rfl (if_pos mode), completes_tableRefused hs fresh powered rfl (if_pos mode),
      completes_tableRefused hs fresh powered rfl (if_pos mode)⟩
  · have mode : s.dev.mode = stMaint := of_decide_eq_true inMaint
    refine ⟨fun bad => ?_, fun bad => ?_, fun bad => ?_, fun good => ?_, fun good => ?_, fun good => ?_⟩
    · exact completes_tableRefused hs fresh powered rfl (writeArrayMode_bad _ mode (of_decide_eq_true bad))
    · exact completes_tableRefused hs fresh powered rfl (writeSpmSlot_bad _ _ mode bad)
    · exact completes_tableRefused hs fresh powered rfl (writeSpmRegion_bad _ _ mode bad)
    · refine completes_table (g := .CORE_ARRAYMODE) (k := c) hs fresh powered rfl (writeArrayMode_ok _ mode (of_decide_eq_false good)) rfl
        (Stores.cons rfl _ (stores_setF rfl _)) (by unfold regCopies; omega) (by decide) (by decide) fun d took copies fld => ⟨took, ?_, ?_, copies⟩
      · rw [fld _ rfl]
        simp (disch := exact of_decide_eq_true rfl) only [applyAll_cons, applyAll_nil, fld_apply_spared]
        exact fld_setBits s.dev F.CORE_ARRAYMODE_MODE_A c val
      · rw [fld _ rfl]
        exact fld_setBits _ F.CORE_ARRAYMODE_MODE_B c val
    · refine completes_table (g := .SPM_SLOT) (k := b) (i := core * 16 + b) hs fresh powered rfl (writeSpmSlot_ok _ _ mode good) (by rw [modulo16]) (stores_setF rfl _) slot
        (by decide) (by decide) fun d took copies fld => ⟨took, (fld _ rfl).trans ?_, copies⟩
      exact fld_setF_lt s.dev _ val.isLt
    · refine completes_table (g := .SPM_REGION) (k := n) (i := regionIx core n) hs fresh powered rfl (writeSpmRegion_ok _ _ mode good) (by rw [modulo32]) (stores_setF rfl _)
        region (by decide) (by decide) fun d took copies fld => ⟨took, (fld _ rfl).trans ?_, copies⟩
      exact fld_setF_lt s.dev _ (bits_high val)
  · refine completes_table (g := .HBM_FREEZE) (k := i) hs fresh powered rfl rfl rfl (stores_setF rfl _) (by unfold regCopies; omega) (by decide) (by decide)
      fun d took copies fld => ⟨took, (fld _ rfl).trans ?_, copies⟩
    exact fld_setF_lt s.dev _ val.isLt
  · refine completes_table (g := .VAULT_SLOT) (k := if slotB then 1 else 0) hs fresh powered rfl
      ((writeLive_vaultSlot _ _).trans (writeVaultSlot_open _ open_)) rfl (stores_map _ _ _ (fun f => bitsOf val f.hi f.lo) vaultSlotFields_reg) (by cases slotB <;> decide) (by decide) (by decide)
      fun d took copies fld => ⟨took, fun f hf => ?_, ?_⟩
    · rw [fld f (vaultSlotFields_reg f hf)]
      exact vaultSlot_stored _ val s.dev f hf
    · exact copies
  · have confined : Confined [.regs] [.VAULT_ERR] [setF F.VAULT_ERR_WRITE_REFUSED 0 1] := (stores_setF rfl _).confined
    refine completes_request rfl hs fresh ((writeAt_powered _ _ _ (powered _)).trans ((writeLive_vaultSlot _ _).trans (writeVaultSlot_shut _ shut)))
      confined (by decide) (by decide) fun d q answer => ⟨answer, ?_, ?_⟩
    · exact (((quiet_handled ..).trans q.quiet).fld rfl 0).trans (fld_setF_lt _ 0 (by decide))
    · exact q.quiet.wrote (((confined_handled r _ confined).mono (by decide) fun _ h => h).wrote _ (by decide))
  · intro alloc
    have index : s.dev.fld F.DET_SEL_INDEX r.path.copy < 2 ^ 8 := fld_lt s.dev F.DET_SEL_INDEX r.path.copy
    refine completes_stored (f := writeSeed r.path val) (i := s.dev.fld F.DET_SEL_INDEX r.path.copy) rfl hs fresh
      (writeSeed_ok _ free alloc) rfl (stores_setF rfl _)
      (by unfold regCopies; omega) (by decide) (by decide) fun d took copies fld => ⟨took, (fld _ rfl).trans ?_, copies⟩
    exact fld_setF_lt s.dev _ val.isLt
  · exact completes_refused rfl hs fresh (writeSeed_held _ held)

end Sys2Proof.Machine
end

