-- ==== Sys2Proof/Proofs/BlockReads.lean ====
section
/-! PROOFS. Block reads of HBM and the patrol scrub (R204–R206, R209–R212, R224–R226). -/

namespace Sys2Proof.Machine

/-! ### What fencing the slices of discarded packets leaves -/

/-- The module without what a fence, or a change of the machine state, touches. -/
def Dev.besideFence (d : Dev) : Dev := { d.besideCores with rings := [], slices := [], ports := [], route := .init, snapPub := [] }

theorem Confined.besideFence {rs : List Reg} {us : List Upd} (h : Confined fenceParts rs us) (d : Dev) :
    (applyAll us d).besideFence = d.besideFence := by
  simp only [Dev.besideFence, Dev.besideCores, Dev.besideRegs, Dev.mk.injEq, true_and]
  exact ⟨keepAll_gcnt d (h.leaves (by decide)), keepAll_hbm d (h.leaves (by decide)), keepAll_spm d (h.leaves (by decide)),
    keepAll_hbmBad d (h.leaves (by decide)), keepAll_hbmMarks d (h.leaves (by decide)), keepAll_spmMarks d (h.leaves (by decide)),
    keepAll_spmParity d (h.leaves (by decide)), keepAll_repair d (h.leaves (by decide)), keepAll_chans d (h.leaves (by decide)),
    keepAll_regions d (h.leaves (by decide)), keepAll_codecTables d (h.leaves (by decide)), keepAll_digestK d (h.leaves (by decide)),
    keepAll_digests d (h.leaves (by decide)), keepAll_schedLib d (h.leaves (by decide)), keepAll_syncLib d (h.leaves (by decide)),
    keepAll_clusters d (h.leaves (by decide)), keepAll_commit d (h.leaves (by decide)), keepAll_vault d (h.leaves (by decide)),
    keepAll_svc d (h.leaves (by decide)), keepAll_start d (h.leaves (by decide)), keepAll_secure d (h.leaves (by decide)),
    keepAll_board d (h.leaves (by decide)), keepAll_servo d (h.leaves (by decide)), keepAll_snapInfo d (h.leaves (by decide)),
    keepAll_snapPend d (h.leaves (by decide)), keepAll_spmLost d (h.leaves (by decide)), keepAll_frozen d (h.leaves (by decide)),
    keepAll_freeCtr d (h.leaves (by decide))⟩

/-- Behind a command every part that no fence touches is as its act left it. -/
theorem Behind.same {e d : Dev} (b : Behind e d) : d.besideFence = e.besideFence := by
  have quiet : d.besideFence = (runAct fenceLost e).besideFence :=
    congrArg (fun x : Dev => { x with cores := [], rings := [], slices := [], ports := [], route := .init, snapPub := [] }) b.quiet.same
  exact quiet.trans ((tames_fenceLost e).confined.besideFence e)

section behind
variable {e d : Dev} (b : Behind e d)
include b
theorem Behind.hbmBad : d.hbmBad = e.hbmBad := (congrArg Dev.hbmBad b.same :)
theorem Behind.hbmMarks : d.hbmMarks = e.hbmMarks := (congrArg Dev.hbmMarks b.same :)
theorem Behind.repair : d.repair = e.repair := (congrArg Dev.repair b.same :)
theorem Behind.vault : d.vault = e.vault := (congrArg Dev.vault b.same :)
theorem Behind.start : d.start = e.start := (congrArg Dev.start b.same :)
theorem Behind.svc : d.svc = e.svc := (congrArg Dev.svc b.same :)
end behind

/-! ### The end of a block read -/

/-- The updates that end a block's transfer: its port has won, and the channel is idle (R209). -/
def endsRead (b port : Nat) : List Upd :=
  [.chan (b % 256) fun c => { c with grant := none, last := port }, channelIdle (b % 256) true]

theorem confined_endsRead (b port : Nat) : Confined [.chans, .regs] [.HBM_IDLE] (endsRead b port) := by
  simp only [endsRead, confined_cons, confined_nil, and_true]
  exact ⟨rfl, rfl⟩

theorem chan_endsRead (b port : Nat) (d : Dev) :
    (applyAll (endsRead b port) d).chan (b % 256) = { d.chan (b % 256) with grant := none, last := port } := by
  simp only [endsRead, applyAll_cons, applyAll_nil, channelIdle]
  rw [chan_of_chans (keep_chans (.fld F.HBM_IDLE_CH _ _) _ (of_decide_eq_true rfl))]
  exact chan_apply_same d (b % 256) _

section read
variable {b port : Nat} {ok : List Bool} {d : Dev}

theorem readBlock_clean (h : b ∈ d.hbmBad ∨ readOutcome ok = .clean) : readBlock b port ok d = endsRead b port := by
  unfold readBlock
  by_cases listed : b ∈ d.hbmBad
  · rw [if_pos (by simpa using listed)]
    rfl
  · rw [if_neg (by simpa using listed), h.resolve_left listed]
    rfl

theorem readBlock_corrected (listed : b ∉ d.hbmBad) (h : readOutcome ok = .corrected) : readBlock b port ok d =
    endsRead b port ++ [addF F.HBM_ERR_REREADS_OK 0 1, setF F.HBM_ERR_REREAD 0 1] := by
  unfold readBlock
  rw [if_neg (by simpa using listed), h]
  rfl

theorem readBlock_failed (listed : b ∉ d.hbmBad) (h : readOutcome ok = .failed) : readBlock b port ok d =
    inSequence [fun _ => endsRead b port, declareBad b port] d := by
  unfold readBlock
  rw [if_neg (by simpa using listed), h]
  rfl

theorem readBlock_under (listed : b ∉ d.hbmBad) (h : readOutcome ok = .under) (free : (d.chan (b % 256)).grant = none) :
    readBlock b port ok d = [.chan (b % 256) fun c => { c with grant := some (port, d.now) }, channelIdle (b % 256) false] := by
  unfold readBlock
  rw [if_neg (by simpa using listed), h]
  dsimp only
  rw [free]
  rfl

end read

/-! ### Bad blocks (R205, R206, R224, R225) -/

/-- The parts that asking for a block touches. -/
def repairParts : List Part := [.repair, .route, .regs, .ports, .chain, .outbox]

theorem confines_requestRepair (k b : Nat) : Confines repairParts routerRegs (requestRepair k b) := by
  intro d
  unfold requestRepair
  dsimp only
  split
  · exact confined_nil
  · split
    · rw [confined_append]
      refine ⟨?_, ?_⟩
      · simp only [confined_cons, confined_nil, and_true]
        rfl
      · split
        · simp only [confined_cons, confined_nil, and_true]
          rfl
        · exact confined_nil
    · simp only [confined_cons, confined_nil, and_true]
      exact ⟨rfl, rfl, rfl⟩

theorem confines_repairBlock (b : Nat) : Confines repairParts routerRegs (repairBlock b) := by
  intro d
  unfold repairBlock
  split
  · exact confines_requestRepair _ b d
  · split
    · exact confined_nil
    · rw [confined_append]
      refine ⟨?_, ?_⟩
      · simp only [confined_cons, confined_nil, and_true]
        rfl
      · split
        · simp only [confined_cons, confined_nil, and_true]
          rfl
        · exact confined_nil
  · exact confined_nil

/-- The list of bad blocks of a block's stack is full (R205). -/
def Dev.badFull (d : Dev) (b : Nat) : Bool := 4096 ≤ (d.hbmBad.filter fun x => stackOf (x % 256) = stackOf (b % 256)).length

/-- The updates that record a bad block and list it, or leave its mark alone where the list is full. -/
def recordsBad (b port : Nat) (full : Bool) : List Upd :=
  [setF F.HBM_ERR_BAD 0 1, satF F.HBM_ERR_BAD_BLOCKS 0 1, setF F.HBM_BAD_LOC_PORT 0 port, setF F.HBM_BAD_LOC_BLOCK 0 b] ++
    (if full then [setF F.HBM_ERR_LIST_FULL 0 1, .hbmMarks fun m => unmark (b * 256) 256 m ++ [(b * 256, 256)]]
     else [.hbmBad fun l => l ++ [b]])

theorem declareBad_eq (b port : Nat) (d : Dev) :
    declareBad b port d = inSequence [fun _ => recordsBad b port (d.badFull b), repairBlock b] d := by
  unfold declareBad recordsBad Dev.badFull
  rfl

theorem confined_recordsBad (b port : Nat) (full : Bool) :
    Confined [.regs, .hbmBad, .hbmMarks] [.HBM_ERR, .HBM_BAD_LOC] (recordsBad b port full) := by
  simp only [recordsBad, confined_append, confined_cons, confined_nil, confined_ite, and_true]
  exact ⟨⟨rfl, rfl, rfl, rfl⟩, fun _ => ⟨rfl, rfl⟩, fun _ => rfl⟩

/-- What recording a bad block leaves. -/
theorem recordsBad_reads {b port : Nat} (full : Bool) (d : Dev) (hb : b < blockCount) (hp : port < 8) :
    (applyAll (recordsBad b port full) d).fld F.HBM_ERR_BAD = 1 ∧ d.tallied (applyAll (recordsBad b port full) d) F.HBM_ERR_BAD_BLOCKS 0 ∧
    (applyAll (recordsBad b port full) d).fld F.HBM_BAD_LOC_PORT = port ∧
    (applyAll (recordsBad b port full) d).fld F.HBM_BAD_LOC_BLOCK = b ∧
    (full = false → b ∈ (applyAll (recordsBad b port full) d).hbmBad) ∧
    (full = true → (applyAll (recordsBad b port full) d).hbmBad = d.hbmBad ∧ (applyAll (recordsBad b port full) d).fld F.HBM_ERR_LIST_FULL = 1 ∧
      marked (applyAll (recordsBad b port full) d).hbmMarks (b * 256) 256 = true) := by
  have block : b % 2 ^ (F.HBM_BAD_LOC_BLOCK.hi - F.HBM_BAD_LOC_BLOCK.lo + 1) = b :=
    Nat.mod_eq_of_lt (lt_trans hb (by decide))
  have won : port % 2 ^ (F.HBM_BAD_LOC_PORT.hi - F.HBM_BAD_LOC_PORT.lo + 1) = port := Nat.mod_eq_of_lt hp
  cases full with
  | false =>
    simp (disch := exact of_decide_eq_true rfl) only [recordsBad, Bool.false_eq_true, if_false, applyAll_append, applyAll_cons, applyAll_nil,
      fld_apply_spared, fld_setF, Dev.tallied, fld_satF, block, won]
    exact ⟨rfl, trivial, trivial, trivial, fun _ => List.mem_append_right _ (List.mem_singleton_self _), fun h => nomatch h⟩
  | true =>
    simp (disch := exact of_decide_eq_true rfl) only [recordsBad, if_true, applyAll_append, applyAll_cons, applyAll_nil,
      fld_apply_spared, fld_setF, Dev.tallied, fld_satF, block, won, keep_hbmBad]
    refine ⟨rfl, trivial, trivial, trivial, fun h => Bool.noConfusion h, fun _ => ⟨trivial, rfl, ?_⟩⟩
    refine List.any_eq_true.2 ⟨(b * 256, 256), List.mem_append_right _ (List.mem_singleton_self _), ?_⟩
    simp

theorem confines_declareBad (b port : Nat) :
    Confines (.hbmBad :: .hbmMarks :: repairParts) (.HBM_ERR :: .HBM_BAD_LOC :: routerRegs) (declareBad b port) := by
  intro d
  rw [declareBad_eq]
  refine confines_inSequence_cons (as := [repairBlock b]) ?_ (confines_inSequence_cons (as := []) ?_ Confines.nil) d
  · exact fun _ => (confined_recordsBad b port _).mono (by decide) (by decide)
  · exact (confines_repairBlock b).mono (by decide) (by decide)

/-- A block read that ends. -/
theorem readBlock_ends {b port : Nat} {ok : List Bool} {d : Dev} (h : b ∈ d.hbmBad ∨ readOutcome ok ≠ .under) :
    ∃ rest, readBlock b port ok d = endsRead b port ++ rest ∧
      Confined (.hbmBad :: .hbmMarks :: repairParts) (.HBM_ERR :: .HBM_BAD_LOC :: routerRegs) rest := by
  by_cases listed : b ∈ d.hbmBad
  · exact ⟨[], by rw [readBlock_clean (.inl listed), List.append_nil], confined_nil⟩
  · cases outcome : readOutcome ok with
    | clean => exact ⟨[], by rw [readBlock_clean (.inr outcome), List.append_nil], confined_nil⟩
    | corrected =>
      refine ⟨_, readBlock_corrected listed outcome, ?_⟩
      simp only [confined_cons, confined_nil, and_true]
      exact ⟨rfl, rfl⟩
    | failed =>
      refine ⟨declareBad b port (applyAll (endsRead b port) d), ?_, confines_declareBad b port _⟩
      rw [readBlock_failed listed outcome]
      exact congrArg (endsRead b port ++ ·) (List.append_nil _)
    | under => exact absurd outcome (h.resolve_left listed)

theorem readBlock_reads {b port : Nat} {ok : List Bool} {d : Dev} (h : b ∈ d.hbmBad ∨ readOutcome ok ≠ .under) :
    (runAct (readBlock b port ok) d).hbm = d.hbm ∧
    (runAct (readBlock b port ok) d).chan (b % 256) = { d.chan (b % 256) with grant := none, last := port } := by
  obtain ⟨rest, updates, confined⟩ := readBlock_ends (port := port) h
  rw [runAct_eq, updates, applyAll_append]
  exact ⟨(keepAll_hbm _ (confined.leaves (by decide))).trans (keepAll_hbm _ ((confined_endsRead b port).leaves (by decide))),
    (confined.chan _ (by decide) _).trans (chan_endsRead ..)⟩

/-! ### HBM_BLOCK_READ -/

theorem hbmBlockReadAct_eq {b port : Nat} {ok : List Bool} {d : Dev} (hb : b < blockCount)
    (may : ((d.chan (b % 256)).grant.map fun g => decide (g.1 = port)).getD (!d.frozenChan (b % 256)) = true) :
    hbmBlockReadAct b port ok d = readBlock b port ok d := by
  unfold hbmBlockReadAct
  cases grant : (d.chan (b % 256)).grant <;> simp_all

theorem hbmBlockReadAct_nil {b port : Nat} {ok : List Bool} {d : Dev}
    (may : ((d.chan (b % 256)).grant.map fun g => decide (g.1 = port)).getD (!d.frozenChan (b % 256)) = false) :
    hbmBlockReadAct b port ok d = [] := by
  unfold hbmBlockReadAct
  cases grant : (d.chan (b % 256)).grant <;> simp_all

/-- What a read that failed leaves of its block (R205, R224, R225). -/
structure BadRead (d e : Dev) (b port : Nat) : Prop where
  idle : e.chan (b % 256) = { d.chan (b % 256) with grant := none, last := port }
  bad : e.fld F.HBM_ERR_BAD = 1
  count : d.tallied e F.HBM_ERR_BAD_BLOCKS 0
  port : e.fld F.HBM_BAD_LOC_PORT = port
  block : e.fld F.HBM_BAD_LOC_BLOCK = b
  hbm : e.hbm = d.hbm
  listed : d.badFull b = false → b ∈ e.hbmBad
  full : d.badFull b = true → e.hbmBad = d.hbmBad ∧ e.fld F.HBM_ERR_LIST_FULL = 1 ∧ marked e.hbmMarks (b * 256) 256 = true

theorem badRead_readBlock {b port : Nat} {ok : List Bool} {d : Dev} (hb : b < blockCount) (hp : port < 8) (listed : b ∉ d.hbmBad)
    (failed : readOutcome ok = .failed) : BadRead d (runAct (readBlock b port ok) d) b port := by
  obtain ⟨hbm, idle⟩ := readBlock_reads (port := port) (.inr (by rw [failed]; decide) : b ∈ d.hbmBad ∨ readOutcome ok ≠ .under)
  have ends := confined_endsRead b port
  have bads : (applyAll (endsRead b port) d).hbmBad = d.hbmBad := keepAll_hbmBad _ (ends.leaves (by decide))
  have full : (applyAll (endsRead b port) d).badFull b = d.badFull b := by simp only [Dev.badFull, bads]
  have run : runAct (readBlock b port ok) d = runAct (repairBlock b)
      (applyAll (recordsBad b port (d.badFull b)) (applyAll (endsRead b port) d)) := by
    rw [runAct_eq, readBlock_failed listed failed, ← runAct_eq, runAct_two, runAct_eq _ d]
    rw [runAct_eq, declareBad_eq, full, ← runAct_eq, runAct_two, runAct_eq _ (applyAll (endsRead b port) d)]
  obtain ⟨bad, count, at_, block, notFull, isFull⟩ := recordsBad_reads (d.badFull b) (applyAll (endsRead b port) d) hb hp
  have repair := confines_repairBlock b (applyAll (recordsBad b port (d.badFull b)) (applyAll (endsRead b port) d))
  have fld {f : Fld} (h : f.reg ∉ routerRegs) : (runAct (readBlock b port ok) d).fld f =
      (applyAll (recordsBad b port (d.badFull b)) (applyAll (endsRead b port) d)).fld f := by
    rw [run, runAct_eq, repair.fld _ h]
  refine ⟨idle, (fld (by decide)).trans bad, ((fld (by decide)).trans count).trans ?_, (fld (by decide)).trans at_, (fld (by decide)).trans block, hbm,
    fun h => ?_, fun h => ?_⟩
  · rw [ends.fld d (by decide)]
  · rw [run, runAct_eq, keepAll_hbmBad _ (repair.leaves (by decide))]
    exact notFull h
  · obtain ⟨same, listFull, mark⟩ := isFull h
    refine ⟨?_, (fld (by decide)).trans listFull, ?_⟩
    · rw [run, runAct_eq, keepAll_hbmBad _ (repair.leaves (by decide)), same, bads]
    · rw [run, runAct_eq, keepAll_hbmMarks _ (repair.leaves (by decide))]
      exact mark

theorem BadRead.behind {d e e' : Dev} {b port : Nat} (h : BadRead d e b port) (q : Behind e e') : BadRead d e' b port where
  idle := (q.chan _).trans h.idle
  bad := (q.fld (by decide) 0).trans h.bad
  count := (q.fld (by decide) 0).trans h.count
  port := (q.fld (by decide) 0).trans h.port
  block := (q.fld (by decide) 0).trans h.block
  hbm := q.hbm.trans h.hbm
  listed := fun free => q.hbmBad ▸ h.listed free
  full := fun all => ⟨q.hbmBad.trans (h.full all).1, (q.fld (by decide) 0).trans (h.full all).2.1, q.hbmMarks ▸ (h.full all).2.2⟩

/-! ### PATROL_SCRUB_READ (R212) -/

/-- Where the scrub of a channel stands behind a block. -/
def scrubbed (x : Nat) (more : Bool) (c : ChanSt) : ChanSt :=
  if more then { c with scrub := x + 1 } else { c with scrub := 0, passes := c.passes + 1 }

theorem patrolScrubReadAct_eq {ch x : Nat} {ok : List Bool} {d : Dev} (en : d.bit F.HBM_SCRUB_EN = true) (thawed : d.frozenChan ch = false)
    (free : (d.chan ch).grant = none) (next : (d.scrubNext ch (d.chan ch).scrub).or (d.scrubNext ch 0) = some x)
    (ends : x ∈ d.hbmBad ∨ readOutcome ok ≠ .under) : patrolScrubReadAct ch ok d =
      inSequence [readBlock x 7 ok, fun _ => [.chan ch (scrubbed x (d.scrubNext ch (x + 1)).isSome)],
        fun d => [setF F.HBM_SCRUB_PASSES 0 d.scrubPasses]] d := by
  unfold patrolScrubReadAct
  rw [if_neg (by simp [en, thawed, free]), next]
  dsimp only
  rw [if_neg]
  · rfl
  · rcases ends with listed | outcome
    · simp [listed]
    · simp [outcome]

theorem scrubbed_reads {ch x : Nat} (more : Bool) (e : Dev) :
    let e' := runAct (fun d => [setF F.HBM_SCRUB_PASSES 0 d.scrubPasses]) (runAct (fun _ => [.chan ch (scrubbed x more)]) e)
    e'.hbm = e.hbm ∧ e'.chan ch = scrubbed x more (e.chan ch) := by
  simp only [runAct_eq, applyAll_cons, applyAll_nil]
  refine ⟨?_, (chan_of_chans (keep_chans (setF F.HBM_SCRUB_PASSES 0 _) _ (of_decide_eq_true rfl)) ch).trans (chan_apply_same ..)⟩
  simp (disch := exact of_decide_eq_true rfl) only [keep_hbm]

theorem patrolScrubReadAct_nil {ch : Nat} {ok : List Bool} {d : Dev} (h : d.bit F.HBM_SCRUB_EN = false ∨ d.frozenChan ch = true) :
    patrolScrubReadAct ch ok d = [] := by
  refine if_pos ?_
  rcases h with off | frozen
  · simp [off]
  · simp [frozen]

/-- Settles O39: a read that ends leaves its channel idle, whatever the repair of its block asks for; a read that is not granted does
nothing. -/
theorem blockReadsEnd : Obligations.BlockReadsEnd := by
  intro s b port ch ok hs c may idle listed full
  refine ⟨fun hb granted => ⟨fun clean => ?_, fun fresh corrected => ?_, fun fresh failed => ?_, fun fresh under free => ?_⟩, fun hb barred => ?_,
    fun x en thawed free here next ends => ?_, fun off => ?_⟩
  · have act : hbmBlockReadAct b port ok s.dev = endsRead b port := (hbmBlockReadAct_eq hb granted).trans
      (readBlock_clean (clean.imp_left of_decide_eq_true))
    have confined : Confined [.chans, .regs] [.HBM_IDLE] (hbmBlockReadAct b port ok s.dev) := act ▸ confined_endsRead b port
    refine completes_act rfl hs confined (by decide) fun d q => ⟨?_, ?_, ?_, q.regsBut (confined.regsBut _ (by decide))⟩
    · refine (q.chan _).trans ?_
      rw [act]
      exact chan_endsRead b port s.dev
    · exact q.hbm.trans (keepAll_hbm _ (confined.leaves (by decide)))
    · exact q.hbmBad.trans (keepAll_hbmBad _ (confined.leaves (by decide)))
  · have act := (hbmBlockReadAct_eq hb granted).trans (readBlock_corrected (port := port) (of_decide_eq_false fresh) corrected)
    have counts : Confined [.regs] [.HBM_ERR] [addF F.HBM_ERR_REREADS_OK 0 1, setF F.HBM_ERR_REREAD 0 1] := by
      simp only [confined_cons, confined_nil, and_true]
      exact ⟨rfl, rfl⟩
    have confined : Confined [.chans, .regs] [.HBM_IDLE, .HBM_ERR] (hbmBlockReadAct b port ok s.dev) := by
      rw [act, confined_append]
      exact ⟨(confined_endsRead b port).mono (by decide) (by decide), counts.mono (by decide) (by decide)⟩
    refine completes_act rfl hs confined (by decide) fun d q => ⟨?_, ?_, ?_, ?_, ?_, q.regsBut (confined.regsBut _ (by decide))⟩
    · refine (q.chan _).trans ?_
      rw [act, applyAll_append, counts.chan _ (by decide)]
      exact chan_endsRead b port s.dev
    · rw [Dev.counted, q.fld rfl, act, applyAll_append]
      simp (disch := exact of_decide_eq_true rfl) only [applyAll_cons, applyAll_nil, fld_apply_spared, fld_addF]
      rw [(confined_endsRead b port).fld s.dev (by decide)]
    · rw [q.fld rfl, act, applyAll_append]
      exact fld_setF ..
    · exact q.hbm.trans (keepAll_hbm _ (confined.leaves (by decide)))
    · exact q.hbmBad.trans (keepAll_hbmBad _ (confined.leaves (by decide)))
  · have act := hbmBlockReadAct_eq (ok := ok) hb granted
    refine completes_behind rfl hs fun d q => ?_
    rw [runAct_eq, act, ← runAct_eq] at q
    have bad := (badRead_readBlock hb port.isLt (of_decide_eq_false fresh) failed).behind q
    exact ⟨bad.idle, bad.bad, bad.count, bad.port, bad.block, bad.hbm, bad.listed, bad.full⟩
  · have act := (hbmBlockReadAct_eq hb granted).trans (readBlock_under (port := port) (of_decide_eq_false fresh) under free)
    have confined : Confined [.chans, .regs] [.HBM_IDLE] (hbmBlockReadAct b port ok s.dev) := by
      rw [act]
      simp only [confined_cons, confined_nil, and_true]
      exact ⟨rfl, rfl⟩
    refine completes_act rfl hs confined (by decide) fun d q =>
      ⟨?_, q.hbm.trans (keepAll_hbm _ (confined.leaves (by decide))), q.regsBut (confined.regsBut _ (by decide))⟩
    rw [q.chan, act, applyAll_cons, applyAll_cons, applyAll_nil, channelIdle,
      chan_of_chans (keep_chans (.fld F.HBM_IDLE_CH _ _) _ (of_decide_eq_true rfl))]
    exact chan_apply_same ..
  · exact completes_quiet rfl hs (hbmBlockReadAct_nil barred)
  · have act := patrolScrubReadAct_eq (ok := ok) en thawed free next ends
    obtain ⟨hbm, idled⟩ := readBlock_reads (port := 7) ends
    refine completes_behind rfl hs fun d q => ?_
    rw [runAct_eq, act, ← runAct_eq, runAct_three] at q
    rw [here] at idled
    obtain ⟨hbm', chan'⟩ := scrubbed_reads (ch := ch) (x := x) (s.dev.scrubNext ch (x + 1)).isSome (runAct (readBlock x 7 ok) s.dev)
    have chan := (q.chan ch).trans (chan'.trans (congrArg _ idled))
    refine ⟨q.hbm.trans (hbm'.trans hbm), ?_⟩
    rw [chan]
    unfold scrubbed
    cases (s.dev.scrubNext ch (x + 1)).isSome with
    | true => exact ⟨rfl, rfl, rfl, rfl⟩
    | false => exact ⟨rfl, rfl, rfl, rfl⟩
  · exact completes_quiet rfl hs (patrolScrubReadAct_nil off)

end Sys2Proof.Machine
end

