-- ==== Sys2Proof/Proofs/VaultReads.lean ====
section
/-! PROOFS. Vault reads: delivery, rebuilds, and groups lost (R217–R219, R231, R584). -/

namespace Sys2Proof.Machine

/-! ### The reader of a load -/

/-- The parts that a load touches. -/
def loadParts : List Part := [.hbm, .hbmBad, .hbmMarks, .start, .regs, .ports, .route, .chain, .outbox]

/-- The registers that a load writes. -/
def loadRegs : List Reg := .LOAD_STATUS :: routerRegs

/-- The weight load that a module runs as a reader. -/
def Dev.job (d : Dev) : Option ReaderJob := d.start.reader

theorem keeps_inSequence {β : Type} {obs : Dev → β} {as : List Act} (h : ∀ a ∈ as, ∀ d, Keeps obs (a d)) (d : Dev) :
    Keeps obs (inSequence as d) := by
  induction as generalizing d with
  | nil => exact keeps_nil
  | cons a as ih =>
    exact (keeps_append _ _).2 ⟨h a (List.mem_cons_self ..) d, ih (fun b hb => h b (List.mem_cons_of_mem _ hb)) _⟩

theorem Confined.keepsJob {ps : List Part} {rs : List Reg} {us : List Upd} (h : Confined ps rs us) (hp : Part.start ∉ ps) :
    Keeps Dev.job us := fun u hu d => congrArg StartSt.reader (keep_start u d (h.leaves hp u hu))

theorem job_setF (f : Fld) (i v : Nat) (d : Dev) : ((setF f i v).apply d).job = d.job :=
  congrArg StartSt.reader (keep_start (setF f i v) d (of_decide_eq_true rfl))

theorem confines_noteUnits (a n : Nat) : Confines [.start, .regs] [.LOAD_STATUS] (noteUnits a n) := by
  intro d
  simp only [noteUnits, confined_ite, confined_cons, confined_nil, and_true, implies_true]
  exact fun _ => ⟨rfl, rfl⟩

theorem keepsJob_noteUnits (a n : Nat) (d : Dev) : Keeps Dev.job (noteUnits a n d) := by
  simp only [noteUnits, keeps_ite, keeps_cons, keeps_nil, and_true, implies_true]
  exact fun _ => ⟨fun _ => rfl, job_setF _ _ _⟩

theorem confines_checkLoaded : Confines [.start, .regs, .outbox] [.LOAD_STATUS] checkLoaded := by
  intro d
  simp only [checkLoaded, confined_ite, confined_append, confined_cons, confined_nil, and_true, implies_true, true_and]
  exact fun _ => ⟨⟨rfl, rfl⟩, fun _ => ⟨fun _ => rfl, rfl⟩⟩

theorem keepsJob_checkLoaded (d : Dev) : Keeps Dev.job (checkLoaded d) := by
  simp only [checkLoaded, keeps_ite, keeps_append, keeps_cons, keeps_nil, and_true, implies_true, true_and]
  exact fun _ => ⟨⟨job_setF _ _ _, fun _ => rfl⟩, fun _ => ⟨fun _ => job_setF _ _ _, fun _ => rfl⟩⟩

theorem confines_sendLoad (c : Coord) (k : Nat) (ws : List (Nat × List Byte)) : Confines loadParts loadRegs (sendLoad c k ws) := by
  intro d
  unfold sendLoad
  dsimp only
  split
  · refine confines_inSequence_cons (as := []) (Confines.forEach fun w _ => ?_) Confines.nil d
    exact confines_inSequence_cons (as := [noteUnits w.1 w.2.length]) ((confines_writeHbm w.1 w.2 false).mono (by decide) (by decide))
      (confines_inSequence_cons (as := []) ((confines_noteUnits w.1 w.2.length).mono (by decide) (by decide)) Confines.nil)
  · rw [confined_map]
    exact fun w _ => rfl

theorem keepsJob_sendLoad (c : Coord) (k : Nat) (ws : List (Nat × List Byte)) (d : Dev) : Keeps Dev.job (sendLoad c k ws d) := by
  unfold sendLoad
  dsimp only
  split
  · refine keeps_inSequence (fun a ha d => ?_) d
    rw [List.mem_singleton.1 ha]
    refine keeps_forEach (fun w d => keeps_inSequence (fun a ha d => ?_) d) d
    simp only [List.mem_cons, List.not_mem_nil, or_false] at ha
    rcases ha with rfl | rfl
    · exact (confines_writeHbm _ _ _ d).keepsJob (by decide)
    · exact keepsJob_noteUnits _ _ d
  · intro u hu
    obtain ⟨w, -, rfl⟩ := List.mem_map.1 hu
    exact fun d => congrArg StartSt.reader (keep_start (.inject _) d (of_decide_eq_true rfl))

theorem confines_sendForUnit (b : Nat) (data : List Byte) (w : Coord × Nat × Nat) : Confines loadParts loadRegs (sendForUnit b data w) := by
  intro d
  unfold sendForUnit
  split
  · exact confined_nil
  · exact Confines.forEach (fun _ _ d => confines_sendLoad _ _ _ d) d

theorem keepsJob_sendForUnit (b : Nat) (data : List Byte) (w : Coord × Nat × Nat) (d : Dev) : Keeps Dev.job (sendForUnit b data w d) := by
  unfold sendForUnit
  split
  · exact keeps_nil
  · exact keeps_forEach (fun _ d => keepsJob_sendLoad _ _ _ d) d

theorem confines_lastSend : Confines [.start, .outbox] [] lastSend := by
  intro d
  unfold lastSend
  split
  · exact confined_nil
  · refine confines_inSequence_cons (as := [_]) (fun _ => ?_) (confines_inSequence_cons (as := []) (fun d => ?_) Confines.nil) d
    · simp only [confined_cons, confined_nil, and_true]
      rfl
    · rw [confined_map]
      exact fun _ _ => rfl

/-- A reader that has a block keeps it over its last send. -/
theorem job_lastSend {d : Dev} {j : ReaderJob} (h : d.job = some j) : ∃ j', (runAct lastSend d).job = some j' ∧ j'.got = j.got := by
  have reader : d.start.reader = some j := h
  refine ⟨{ j with reported := true }, ?_, rfl⟩
  unfold lastSend
  rw [runAct_eq, reader]
  dsimp only
  rw [← runAct_eq, runAct_two, runAct_eq, Keeps.eq (obs := Dev.job)]
  · rfl
  · intro u hu
    obtain ⟨_, -, rfl⟩ := List.mem_map.1 hu
    exact fun _ => rfl

theorem confines_sendForLoad (b : Nat) (data : List Byte) : Confines loadParts loadRegs (sendForLoad b data) := by
  intro d
  unfold sendForLoad
  split
  · exact confined_nil
  · refine confines_inSequence_cons (as := [_, _]) (Confines.forEach fun _ _ d => Confines.forEach (fun _ _ d => confines_sendLoad _ _ _ d) d)
      (confines_inSequence_cons (as := [_]) (fun _ => ?_) (confines_inSequence_cons (as := []) ?_ Confines.nil)) d
    · simp only [confined_cons, confined_nil, and_true]
      rfl
    · exact (confines_lastSend.mono (by decide) (by decide)).onlyIf

/-- A reader has the block that it has sent. -/
theorem job_sendForLoad {b : Nat} {data : List Byte} {d : Dev} {j : ReaderJob} (h : d.job = some j) :
    ∃ j', (runAct (sendForLoad b data) d).job = some j' ∧ b ∈ j'.got := by
  have reader : d.start.reader = some j := h
  unfold sendForLoad
  rw [runAct_eq, reader]
  dsimp only
  rw [← runAct_eq, runAct_three]
  generalize runAct (forEach _ _) d = e
  have mine : b ∈ if j.got.contains b then j.got else j.got ++ [b] := by
    split
    · exact List.contains_iff_mem.1 ‹_›
    · simp
  generalize hgot : (if j.got.contains b then j.got else j.got ++ [b]) = got at mine
  have set : (runAct (fun _ => [.start fun s => { s with reader := some { j with got := got } }]) e).job = some { j with got := got } := rfl
  rcases hb : (d.jobBlocks j.slotB).all fun x => got.contains x with _ | _
  · rw [runAct_onlyIf_false]
    exact ⟨_, set, mine⟩
  · rw [runAct_onlyIf_true]
    obtain ⟨j', now, same⟩ := job_lastSend set
    exact ⟨j', now, same ▸ mine⟩

/-! ### Delivery (R217, R231) -/

/-- What follows the end of a read: what the block brings goes to whoever wants it. -/
def serveRead (r : VaultRead) (data : List Byte) : Act :=
  inSequence [onlyIf r.forLoad (sendForLoad r.block data), forEach (sendForUnit r.block data) r.wants, checkLoaded]

theorem confines_serveRead (r : VaultRead) (data : List Byte) : Confines loadParts loadRegs (serveRead r data) := by
  refine Confines.inSequence fun a ha => ?_
  simp only [List.mem_cons, List.not_mem_nil, or_false] at ha
  rcases ha with rfl | rfl | rfl
  · exact (confines_sendForLoad _ _).onlyIf
  · exact Confines.forEach fun w _ => confines_sendForUnit _ _ w
  · exact confines_checkLoaded.mono (by decide) (by decide)

theorem job_serveRead {r : VaultRead} {data : List Byte} {d : Dev} {j : ReaderJob} (load : r.forLoad = true) (h : d.job = some j) :
    ∃ j', (runAct (serveRead r data) d).job = some j' ∧ r.block ∈ j'.got := by
  unfold serveRead
  rw [runAct_three, load, runAct_onlyIf_true]
  obtain ⟨j', now, mine⟩ := job_sendForLoad (b := r.block) (data := data) h
  refine ⟨j', ?_, mine⟩
  rw [runAct_eq, (keepsJob_checkLoaded _).eq, runAct_eq, (keeps_forEach (fun w d => keepsJob_sendForUnit _ _ w d) _).eq]
  exact now

/-- The read of a block ends. -/
def endsReadOf (b : Nat) : List Upd := [.vault fun v => { v with reads := v.reads.filter fun x => x.block ≠ b }]

theorem runAct_deliverBlock (r : VaultRead) (data : List Byte) (d : Dev) :
    runAct (deliverBlock r data) d = runAct (serveRead r data) (applyAll (endsReadOf r.block) d) := by
  unfold deliverBlock serveRead
  rw [runAct_inSequence_cons, runAct_eq _ d]
  rfl

/-- A block delivered: its read is over, and the reader of a load has it. -/
structure Delivered (d e : Dev) (r : VaultRead) : Prop where
  vault : e.vault = { d.vault with reads := d.vault.reads.filter fun x => x.block ≠ r.block }
  got : r.forLoad = true → ∀ j, d.job = some j → ∃ j', e.job = some j' ∧ r.block ∈ j'.got
  fld : ∀ f : Fld, f.reg ∉ loadRegs → ∀ i, e.fld f i = d.fld f i

theorem delivered_deliverBlock (r : VaultRead) (data : List Byte) (d : Dev) : Delivered d (runAct (deliverBlock r data) d) r := by
  rw [runAct_deliverBlock]
  have serve := confines_serveRead r data (applyAll (endsReadOf r.block) d)
  refine ⟨?_, fun load j h => job_serveRead load h, fun f hf i => ?_⟩
  · rw [runAct_eq, keepAll_vault _ (serve.leaves (by decide))]
    rfl
  · rw [runAct_eq, serve.fld _ hf]
    rfl

theorem Delivered.behind {d e e' : Dev} {r : VaultRead} (h : Delivered d e r) (b : Behind e e')
    : e'.vault = { d.vault with reads := d.vault.reads.filter fun x => x.block ≠ r.block } ∧
      (r.forLoad = true → ∀ j, d.start.reader = some j → ∃ j', e'.start.reader = some j' ∧ r.block ∈ j'.got) := by
  refine ⟨b.vault.trans h.vault, fun load j hj => ?_⟩
  rw [b.start]
  exact h.got load j hj

/-! ### Blocks and groups lost (R217, R218, R584) -/

/-- The parity group of a block has no other bad block. -/
def Dev.aloneInGroup (d : Dev) (b : Nat) : Bool := !d.vault.bad.any fun x => x ≠ b && groupOf x = groupOf b

/-- The updates by which a rebuild of a block starts. -/
def startsRebuild (b : Nat) : List Upd :=
  [.vault fun v => { v with bad := if v.bad.contains b then v.bad else v.bad ++ [b],
                            reads := v.reads.map fun r => if r.block = b then { r with rebuilding := true } else r }]

theorem loseBlock_alone {b : Nat} {d : Dev} (h : (d.vault.bad.any fun x => x ≠ b && groupOf x = groupOf b) = false) :
    loseBlock b d = startsRebuild b := if_neg (by rw [h]; decide)

theorem loseBlock_second {b : Nat} {d : Dev} (h : (d.vault.bad.any fun x => x ≠ b && groupOf x = groupOf b) = true) :
    loseBlock b d = failGroup (groupOf b) d := if_pos h

/-- A block whose rebuild has started. -/
theorem startsRebuild_reads (b : Nat) (d : Dev) :
    b ∈ (applyAll (startsRebuild b) d).vault.bad ∧
    (∀ x ∈ (applyAll (startsRebuild b) d).vault.reads, x.block = b → x.rebuilding = true) ∧
    (applyAll (startsRebuild b) d).vault.blocks = d.vault.blocks := by
  refine ⟨?_, fun x hx here => ?_, rfl⟩
  · show b ∈ if d.vault.bad.contains b then d.vault.bad else d.vault.bad ++ [b]
    split
    · exact List.contains_iff_mem.1 ‹_›
    · simp
  · obtain ⟨y, -, rfl⟩ := List.mem_map.1 hx
    split
    · rfl
    · rename_i other
      rw [if_neg other] at here
      exact absurd here other

/-- The group of a read that fails is lost (R218, R584). -/
structure GroupLost (d e : Dev) (g : Nat) : Prop where
  double : e.fld F.VAULT_ERR_DOUBLE = 1
  first : d.bit F.VAULT_ERR_DOUBLE = false → e.fld F.VAULT_ERR_FIRST_GROUP = g % 2 ^ (F.VAULT_ERR_FIRST_GROUP.hi - F.VAULT_ERR_FIRST_GROUP.lo + 1)
  reads : ∀ x ∈ e.vault.reads, groupOf x.block ≠ g
  failed : (d.vault.reads.any fun x => groupOf x.block = g && x.forLoad) = true → e.fld F.LOAD_STATUS_FAILED = 1
  blocks : e.vault.blocks = d.vault.blocks

/-- What is left of the other reads where a group is lost: a load that failed takes no more of them. -/
def keptRead (load : Bool) (r : VaultRead) : Option VaultRead :=
  if !load then some r else if r.wants.isEmpty then none else some { r with forLoad := false }

theorem block_keptRead {load : Bool} {r x : VaultRead} (h : keptRead load r = some x) : x.block = r.block := by
  unfold keptRead at h
  split at h
  · exact congrArg VaultRead.block (Option.some.inj h).symm
  · split at h
    · cases h
    · exact (congrArg VaultRead.block (Option.some.inj h).symm :)

/-- The updates that record a lost group. -/
def losesGroup (g : Nat) (again load : Bool) : List Upd :=
  (if again then [] else [setF F.VAULT_ERR_FIRST_GROUP 0 g]) ++ [setF F.VAULT_ERR_DOUBLE 0 1,
    .vault fun v => { v with bad := v.bad.filter fun b => groupOf b ≠ g,
                             reads := (v.reads.filter fun r => groupOf r.block ≠ g).filterMap (keptRead load) }]

/-- A load reads a block of a group. -/
def Dev.groupLoads (d : Dev) (g : Nat) : Bool := d.vault.reads.any fun x => groupOf x.block = g && x.forLoad

/-- The updates by which a load fails (R584). -/
def failsLoad : List Upd := [setF F.LOAD_STATUS_FAILED 0 1, .start fun s => { s with reader := s.reader.map fun j => { j with failed := true } }]

theorem failGroup_eq (g : Nat) (d : Dev) : failGroup g d = inSequence [fun _ => losesGroup g (d.bit F.VAULT_ERR_DOUBLE) (d.groupLoads g),
    onlyIf (d.groupLoads g) fun _ => failsLoad,
    onlyIf (d.groupLoads g && d.isCoord) fun d => [.event 8 (leBytes 8 (d.reg .LOAD_STATUS))]] d := rfl

theorem confines_failGroup (g : Nat) :
    Confines [.regs, .vault, .start, .chain, .outbox] [.VAULT_ERR, .LOAD_STATUS, .EVT_STATUS, .CHAIN_ERR] (failGroup g) := by
  intro d
  rw [failGroup_eq]
  refine Confines.inSequence (fun a ha => ?_) d
  simp only [List.mem_cons, List.not_mem_nil, or_false] at ha
  rcases ha with rfl | rfl | rfl
  · intro _
    simp only [losesGroup, confined_append, confined_ite, confined_cons, confined_nil, and_true, implies_true, true_and]
    exact ⟨fun _ => rfl, rfl, rfl⟩
  · refine Confines.onlyIf fun _ => ?_
    simp only [failsLoad, confined_cons, confined_nil, and_true]
    exact ⟨rfl, rfl⟩
  · refine Confines.onlyIf fun _ => ?_
    simp only [confined_cons, confined_nil, and_true]
    rfl

theorem losesGroup_reads (g : Nat) (again load : Bool) (d : Dev) :
    let e := applyAll (losesGroup g again load) d
    e.fld F.VAULT_ERR_DOUBLE = 1 ∧
    (again = false → e.fld F.VAULT_ERR_FIRST_GROUP = g % 2 ^ (F.VAULT_ERR_FIRST_GROUP.hi - F.VAULT_ERR_FIRST_GROUP.lo + 1)) ∧
    (∀ x ∈ e.vault.reads, groupOf x.block ≠ g) ∧ e.vault.blocks = d.vault.blocks := by
  intro e
  refine ⟨?_, fun first => ?_, fun x hx => ?_, ?_⟩
  · simp (disch := exact of_decide_eq_true rfl) only [e, losesGroup, applyAll_append, applyAll_cons, applyAll_nil, fld_apply_spared, fld_setF]
    rfl
  · simp (disch := exact of_decide_eq_true rfl) only [e, losesGroup, first, Bool.false_eq_true, if_false, applyAll_append, applyAll_cons,
      applyAll_nil, fld_apply_spared, fld_setF]
  · simp (disch := exact of_decide_eq_true rfl) only [e, losesGroup, applyAll_append, applyAll_cons, applyAll_nil, vault_apply_vault] at hx
    obtain ⟨y, hy, kept⟩ := List.mem_filterMap.1 hx
    rw [block_keptRead kept]
    exact of_decide_eq_true (List.mem_filter.1 hy).2
  · cases again <;>
      simp (disch := exact of_decide_eq_true rfl) only [e, losesGroup, if_true, Bool.false_eq_true, if_false, applyAll_append, applyAll_cons,
        applyAll_nil, vault_apply_vault, keep_vault]

/-- What follows the record of a lost group. -/
def reportsGroup (load coord : Bool) : Act :=
  inSequence [onlyIf load fun _ => failsLoad, onlyIf (load && coord) fun d => [.event 8 (leBytes 8 (d.reg .LOAD_STATUS))]]

theorem confines_reportsGroup (load coord : Bool) :
    Confines [.regs, .start, .chain, .outbox] [.LOAD_STATUS, .EVT_STATUS, .CHAIN_ERR] (reportsGroup load coord) := by
  refine confines_inSequence_cons (as := [_]) (Confines.onlyIf fun _ => ?_)
    (confines_inSequence_cons (as := []) (Confines.onlyIf fun _ => ?_) Confines.nil)
  · simp only [failsLoad, confined_cons, confined_nil, and_true]
    exact ⟨rfl, rfl⟩
  · simp only [confined_cons, confined_nil, and_true]
    rfl

theorem failed_reportsGroup (coord : Bool) (d : Dev) : (runAct (reportsGroup true coord) d).fld F.LOAD_STATUS_FAILED = 1 := by
  unfold reportsGroup
  rw [runAct_two, runAct_onlyIf_true]
  have raises : Confines [.regs, .chain, .outbox] [.EVT_STATUS, .CHAIN_ERR]
      (onlyIf (true && coord) fun d => [.event 8 (leBytes 8 (d.reg .LOAD_STATUS))]) := by
    refine Confines.onlyIf fun _ => ?_
    simp only [confined_cons, confined_nil, and_true]
    rfl
  rw [runAct_eq, (raises _).fld _ (by decide), runAct_eq]
  simp (disch := exact of_decide_eq_true rfl) only [failsLoad, applyAll_cons, applyAll_nil, fld_apply_spared, fld_setF]
  rfl

theorem runAct_failGroup (g : Nat) (d : Dev) : runAct (failGroup g) d =
    runAct (reportsGroup (d.groupLoads g) d.isCoord) (applyAll (losesGroup g (d.bit F.VAULT_ERR_DOUBLE) (d.groupLoads g)) d) := by
  unfold reportsGroup
  rw [runAct_eq, failGroup_eq, ← runAct_eq, runAct_three, runAct_eq _ d, runAct_two]

theorem groupLost_failGroup (g : Nat) (d : Dev) : GroupLost d (runAct (failGroup g) d) g := by
  obtain ⟨double, first, reads, blocks⟩ := losesGroup_reads g (d.bit F.VAULT_ERR_DOUBLE) (d.groupLoads g) d
  rw [runAct_failGroup]
  have reports (e : Dev) := confines_reportsGroup (d.groupLoads g) d.isCoord e
  have vault (e : Dev) : (runAct (reportsGroup (d.groupLoads g) d.isCoord) e).vault = e.vault := keepAll_vault _ ((reports e).leaves (by decide))
  refine ⟨?_, fun h => ?_, by rw [vault]; exact reads, fun load => ?_, by rw [vault]; exact blocks⟩
  · exact ((reports _).fld _ (by decide) 0).trans double
  · exact ((reports _).fld _ (by decide) 0).trans (first h)
  · rw [show d.groupLoads g = true from load]
    exact failed_reportsGroup ..

/-! ### The commands -/

theorem GroupLost.quiet {d e e' : Dev} {g : Nat} (h : GroupLost d e g) (q : Quiet e e') : GroupLost d e' g where
  double := (q.fld rfl 0).trans h.double
  first := fun free => (q.fld rfl 0).trans (h.first free)
  reads := by rw [q.vault]; exact h.reads
  failed := fun load => (q.fld rfl 0).trans (h.failed load)
  blocks := by rw [q.vault]; exact h.blocks

/-- The error bits of the vault that a lost block sets. -/
def lossBits : List Fld := [F.VAULT_ERR_CRC, F.VAULT_ERR_LATE]

section loss
variable {bit : Fld} (hbit : bit ∈ lossBits) (d : Dev)
include hbit

theorem lossBit_set : (applyAll [setF bit 0 1] d).fld bit = 1 ∧ (applyAll [setF bit 0 1] d).bit F.VAULT_ERR_DOUBLE = d.bit F.VAULT_ERR_DOUBLE ∧
    (applyAll [setF bit 0 1] d).vault = d.vault := by
  simp only [lossBits, List.mem_cons, List.not_mem_nil, or_false] at hbit
  rcases hbit with rfl | rfl
  all_goals
    simp (disch := exact of_decide_eq_true rfl) only [applyAll_cons, applyAll_nil, Dev.bit, fld_apply_spared, fld_setF, keep_vault]
    exact ⟨rfl, trivial, trivial⟩

theorem lossBit_failGroup (g : Nat) : (runAct (failGroup g) d).fld bit = d.fld bit := by
  rw [runAct_failGroup, runAct_eq, (confines_reportsGroup _ _ _).fld]
  · generalize d.bit F.VAULT_ERR_DOUBLE = again
    simp only [lossBits, List.mem_cons, List.not_mem_nil, or_false] at hbit
    rcases hbit with rfl | rfl <;> cases again <;>
      simp (disch := exact of_decide_eq_true rfl) only [losesGroup, if_true, Bool.false_eq_true, if_false, applyAll_append, applyAll_cons,
        applyAll_nil, fld_apply_spared]
  · simp only [lossBits, List.mem_cons, List.not_mem_nil, or_false] at hbit
    rcases hbit with rfl | rfl <;> decide

end loss

/-- A block that is lost sets its error bit, and is rebuilt, or its group is lost. -/
theorem completes_loseBlock {ins : Instr} {s : State} {act : Act} {b : Nat} {bit : Fld} (he : exec ins s = perform (onPower act) s)
    (hs : s.dev.steady) (hbit : bit ∈ lossBits) (ha : act s.dev = inSequence [fun _ => [setF bit 0 1], loseBlock b] s.dev) :
    ((s.dev.vault.bad.any fun x => x ≠ b && groupOf x = groupOf b) = false → Completes ins s fun d => d.fld bit = 1 ∧
      b ∈ d.vault.bad ∧ (∀ x ∈ d.vault.reads, x.block = b → x.rebuilding = true) ∧ d.vault.blocks = s.dev.vault.blocks) ∧
    ((s.dev.vault.bad.any fun x => x ≠ b && groupOf x = groupOf b) = true → Completes ins s fun d => d.fld bit = 1 ∧
      GroupLost s.dev d (groupOf b)) := by
  obtain ⟨one, double, vault⟩ := lossBit_set hbit s.dev
  have mode : modeReg bit.reg = false := by
    simp only [lossBits, List.mem_cons, List.not_mem_nil, or_false] at hbit
    rcases hbit with rfl | rfl <;> rfl
  have run : runAct act s.dev = runAct (loseBlock b) (applyAll [setF bit 0 1] s.dev) := by
    rw [runAct_eq, ha, ← runAct_eq, runAct_two, runAct_eq _ s.dev]
  have lost : (applyAll [setF bit 0 1] s.dev).route.lost = [] :=
    (congrArg RouteSt.lost (keep_route (setF bit 0 1) s.dev (of_decide_eq_true rfl))).trans hs.2
  rw [← vault]
  refine ⟨fun alone => ?_, fun second => ?_⟩
  · rw [runAct_eq _ (applyAll _ _), loseBlock_alone alone] at run
    have confined : Confined [.vault] [] (startsRebuild b) := by
      simp only [startsRebuild, confined_cons, confined_nil, and_true]
      rfl
    refine completes_powered he hs ?_ fun d q => ?_
    · rw [run]
      exact (congrArg RouteSt.lost (keepAll_route _ (confined.leaves (by decide)))).trans lost
    · rw [run] at q
      obtain ⟨bad, reads, blocks⟩ := startsRebuild_reads b (applyAll [setF bit 0 1] s.dev)
      exact ⟨(q.fld mode 0).trans ((confined.fld _ (List.not_mem_nil) 0).trans one), q.vault ▸ bad, q.vault ▸ reads, by rw [q.vault, blocks]⟩
  · rw [runAct_eq _ (applyAll _ _), loseBlock_second second, ← runAct_eq] at run
    refine completes_powered he hs ?_ fun d q => ?_
    · rw [run]
      exact (congrArg RouteSt.lost (keepAll_route _ ((confines_failGroup _ _).leaves (by decide)))).trans lost
    · rw [run] at q
      obtain ⟨h1, h2, h3, h4, h5⟩ := (groupLost_failGroup (groupOf b) (applyAll [setF bit 0 1] s.dev)).quiet q
      rw [vault] at h4 h5
      rw [double] at h2
      exact ⟨(q.fld mode 0).trans ((lossBit_failGroup hbit _ _).trans one), h1, h2, h3, h4, h5⟩

theorem find_rebuilding {b : Nat} {r : VaultRead} {reads : List VaultRead} (h : reads.find? (fun x => x.block = b) = some r)
    (rebuilding : r.rebuilding = true) : reads.find? (fun x => x.block = b && x.rebuilding) = some r := by
  obtain ⟨here, before, after, rfl, others⟩ := List.find?_eq_some_iff_append.1 h
  refine List.find?_eq_some_iff_append.2 ⟨by simpa [rebuilding] using here, before, after, rfl, fun x hx => ?_⟩
  have := others x hx
  simp_all

/-- The suspect list with a block (R219). -/
def withSuspect (b : Nat) (l : List Nat) : List Nat := if l.contains b then l else l ++ [b]

theorem mem_withSuspect (b : Nat) (l : List Nat) : b ∈ withSuspect b l := by
  unfold withSuspect
  split
  · exact List.contains_iff_mem.1 ‹_›
  · simp

/-- The updates that count a rebuild, and mark its block suspect (R219). -/
def countsRebuild (r : VaultRead) : List Upd :=
  [addF F.VAULT_ERR_REBUILDS 0 1] ++ (if r.forLoad then [satF F.LOAD_STATUS_REBUILDS 0 1] else []) ++
    [.vault fun v => { v with bad := v.bad.filter fun x => x ≠ r.block, suspect := withSuspect r.block v.suspect }]

theorem countsRebuild_reads (r : VaultRead) (d : Dev) :
    (applyAll (countsRebuild r) d).vault =
      { d.vault with bad := d.vault.bad.filter fun x => x ≠ r.block, suspect := withSuspect r.block d.vault.suspect } ∧
    (applyAll (countsRebuild r) d).start.reader = d.start.reader ∧ d.counted (applyAll (countsRebuild r) d) F.VAULT_ERR_REBUILDS 0 1 := by
  unfold countsRebuild
  rcases r.forLoad with _ | _
  all_goals
    simp (disch := exact of_decide_eq_true rfl) only [if_true, Bool.false_eq_true, if_false, applyAll_append, applyAll_cons, applyAll_nil,
      vault_apply_vault, keep_vault, keep_start, Dev.counted, fld_apply_spared, fld_addF]
    exact ⟨trivial, trivial, trivial⟩

/-- Settles O41: what a delivery leaves of the vault stands behind what it sends; a second bad block loses the group. -/
theorem vaultReadsEnd : Obligations.VaultReadsEnd := by
  intro s b r hs found over_ second load lost rebuilds late
  have here : r.block = b := by simpa using List.find?_some found
  subst here
  have ends {e d : Dev} (h : Delivered s.dev e r) (q : Behind e d) : over_ d := by
    obtain ⟨vault, got⟩ := h.behind q
    refine ⟨fun x hx => ?_, by rw [vault], got⟩
    rw [vault] at hx
    exact of_decide_eq_true (List.mem_filter.1 hx).2
  refine ⟨fun fresh => ?_, fun rebuilding => ?_⟩
  · have deliver (ok : Bool) : vaultBlockDeliverAct r.block ok s.dev = if ok then deliverBlock r (s.dev.blockBytes r.block) s.dev
        else inSequence [fun _ => [setF F.VAULT_ERR_CRC 0 1], loseBlock r.block] s.dev := by
      unfold vaultBlockDeliverAct
      rw [found]
      dsimp only
      rw [if_neg (by simp [fresh])]
    have expire (h : late = true) : vaultDeadlineExpireAct r.block s.dev =
        inSequence [fun _ => [setF F.VAULT_ERR_LATE 0 1], loseBlock r.block] s.dev := by
      unfold vaultDeadlineExpireAct
      rw [found]
      exact if_neg (by simp [fresh, Dev.expired, of_decide_eq_true h])
    have crc := completes_loseBlock (ins := .vaultBlockDeliver r.block false) (bit := F.VAULT_ERR_CRC) rfl hs (by decide) (deliver false)
    refine ⟨?_, crc.1, fun two => (crc.2 two).imp fun d h => ?_, fun h => ?_, fun h two => ?_, fun early => ?_⟩
    · refine completes_behind rfl hs fun d q => ends ?_ q
      rw [runAct_eq, deliver]
      exact delivered_deliverBlock r _ s.dev
    · obtain ⟨bit, double, first, reads, failed, blocks⟩ := h
      exact ⟨bit, double, first, reads, failed, blocks⟩
    · exact (completes_loseBlock (ins := .vaultDeadlineExpire r.block) (bit := F.VAULT_ERR_LATE) rfl hs (by decide) (expire h)).1
    · refine ((completes_loseBlock (ins := .vaultDeadlineExpire r.block) (bit := F.VAULT_ERR_LATE) rfl hs (by decide) (expire h)).2 two).imp
        fun d h => ?_
      obtain ⟨bit, double, first, reads, failed, blocks⟩ := h
      exact ⟨bit, double, first, reads, failed, blocks⟩
    · refine completes_quiet rfl hs ?_
      unfold vaultDeadlineExpireAct
      rw [found]
      exact if_pos (by simpa [Dev.expired, fresh] using of_decide_eq_false early)
  · have again := find_rebuilding found rebuilding
    refine ⟨fun ok => completes_quiet rfl hs ?_, ?_, fun n hn => ?_⟩
    · unfold vaultBlockDeliverAct
      rw [found]
      exact if_pos rebuilding
    · have act : vaultRebuildDoneAct r.block 0 s.dev = inSequence [fun _ => countsRebuild r, deliverBlock r (s.dev.rebuilt r.block)] s.dev := by
        unfold vaultRebuildDoneAct
        rw [again]
        rfl
      obtain ⟨vault, job, count⟩ := countsRebuild_reads r s.dev
      refine completes_behind rfl hs fun d q => ?_
      rw [runAct_eq, act, ← runAct_eq, runAct_two, runAct_eq _ s.dev] at q
      have delivered := delivered_deliverBlock r (s.dev.rebuilt r.block) (applyAll (countsRebuild r) s.dev)
      obtain ⟨vault', got⟩ := delivered.behind q
      rw [vault] at vault'
      refine ⟨⟨fun x hx => ?_, by rw [vault'], fun load j hj => got load j (job.trans hj)⟩, ?_, ?_, ?_⟩
      · rw [vault'] at hx
        exact of_decide_eq_true (List.mem_filter.1 hx).2
      · rw [vault']
        exact fun bad => of_decide_eq_true (List.mem_filter.1 bad).2 rfl
      · rw [vault']
        exact mem_withSuspect _ _
      · exact (q.fld (by decide) 0).trans ((delivered.fld _ (by decide) 0).trans count)
    · have act : vaultRebuildDoneAct r.block n s.dev = failGroup (groupOf r.block) s.dev := by
        unfold vaultRebuildDoneAct
        rw [again]
        exact if_neg hn
      refine completes_act rfl hs (act ▸ confines_failGroup _ _) (by decide) fun d q => ?_
      rw [act] at q
      obtain ⟨double, first, reads, failed, blocks⟩ := (groupLost_failGroup (groupOf r.block) s.dev).quiet q
      exact ⟨double, first, reads, failed, blocks⟩

end Sys2Proof.Machine
end

