-- ==== Sys2Proof/Proofs/Launches.lean ====
section
/-! PROOFS. Banks loaded, and ring contexts that go live or stop at their launch count (R41, R42, R275, R305). -/

namespace Sys2Proof.Machine

theorem runAct_const (us : List Upd) (d : Dev) : runAct (fun _ => us) d = applyAll us d := rfl

/-! ### A module that keeps running -/

/-- A command behind which the module still runs leaves what its act leaves. -/
theorem completes_running {i : Instr} {s : State} {a : Act} {P : Dev → Prop} (he : exec i s = perform (onPower a) s)
    (hs : s.dev.steady) (hl : (runAct a s.dev).route.lost = []) (busy : ¬ ((runAct a s.dev).mode = stRunning ∧ (runAct a s.dev).allIdle = true))
    (h : P (runAct a s.dev)) : Completes i s P := by
  refine ⟨_, he.trans (perform_eq _ _), rfl, ?_⟩
  rw [withDev_dev, runAct_onPower hs.1]
  simp only [settled, runAct_inSequence_cons, runAct_inSequence_nil, runAct_fenceLost hl]
  have idle : settleReady (runAct a s.dev) = [] := if_neg (by simpa using busy)
  rw [runAct_eq settleReady, idle]
  exact h

theorem not_allIdle {d : Dev} {k : Nat} (hk : k < 4) (live : d.fld F.RING_STATUS_STATE k = 2) : d.allIdle = false := by
  refine Bool.and_eq_false_iff.2 (.inl (List.all_eq_false.2 ⟨k, ?_, by simp [live]⟩))
  interval_cases k <;> simp

/-! ### Banks (R275) -/

/-- A listed member changed to something still listed. -/
theorem mapGet_mapAll {α : Type} [DecidableEq α] (dflt : Nat → α) (f : Nat → α → α) (k : Nat) : ∀ m : SMap α,
    mapGet dflt m k ≠ dflt k → f k (mapGet dflt m k) ≠ dflt k → mapGet dflt (mapAll dflt f m) k = f k (mapGet dflt m k) := by
  intro m
  induction m with
  | nil => exact fun h => absurd rfl h
  | cons e m ih =>
    obtain ⟨j, a⟩ := e
    intro listed changed
    have get : mapGet dflt ((j, a) :: m) k = if k = j then a else mapGet dflt m k := rfl
    have all : mapAll dflt f ((j, a) :: m) = if f j a ≠ dflt j then (j, f j a) :: mapAll dflt f m else mapAll dflt f m := by
      simp only [mapAll, List.map_cons, List.filter_cons, decide_eq_true_eq]
    rw [get] at listed changed ⊢
    rw [all]
    by_cases here : k = j
    · subst here
      rw [if_pos rfl] at changed ⊢
      rw [if_pos changed]
      exact if_pos rfl
    · rw [if_neg here] at listed changed ⊢
      split
      · exact (if_neg here).trans (ih listed changed)
      · exact ih listed changed

/-- The bank of a core, loaded where ring context `k` armed it (R275). -/
def loadedBank (k : Nat) (b : Binding) : Binding := if b.ring = k then { b with loaded := true } else b

/-- The updates that load the banks of a binding. -/
def loadsBanks (k : Nat) : List Upd :=
  [.ring k fun r => { r with bankLoaded := true }, .cores fun _ cs => { cs with armed := cs.armed.map (loadedBank k) }]

theorem armed_loadsBanks {k c : Nat} {b : Binding} {d : Dev} (h : (d.core c).armed = some b) :
    ((applyAll (loadsBanks k) d).core c).armed = some (loadedBank k b) := by
  have cores : (applyAll (loadsBanks k) d).core c =
      mapGet (fun _ => CoreSt.init) (mapAll (fun _ => CoreSt.init) (fun _ cs => { cs with armed := cs.armed.map (loadedBank k) }) d.cores) c := rfl
  have core : mapGet (fun _ => CoreSt.init) d.cores c = d.core c := rfl
  rw [cores, mapGet_mapAll, core]
  · exact congrArg (Option.map (loadedBank k)) h
  · rw [core]
    intro e
    rw [e] at h
    cases h
  · rw [core]
    intro e
    have := congrArg CoreSt.armed e
    rw [h] at this
    cases this

/-! ### Going live (R42, R43, R275) -/

/-- The error bits of cores whose bank is late (R275). -/
def lateBanks (k : Nat) (d : Dev) : List Upd :=
  if d.placed k then [] else (d.cores.filter fun e => e.2.armed.any fun b => b.ring = k).flatMap fun e => flagSeq e.1 F.SEQ_ERR_LOAD_LATE

theorem confined_lateBanks (k : Nat) (d : Dev) : Confined [.regs] [.SEQ_ERR] (lateBanks k d) := by
  simp only [lateBanks, confined_ite, confined_nil, confined_flatMap, flagSeq, flagFault, confined_cons, and_true, implies_true, true_and]
  exact fun _ _ _ => ⟨rfl, rfl⟩

/-- The fields of an armed context that goes live (R42, R60). -/
def liveMarks (k : Nat) (late : List Upd) : Act := fun d =>
  if d.fld F.RING_STATUS_STATE k = 1 then [setF F.RING_STATUS_STATE k 2, setF F.RING_CTL_LIVE k 1, setF F.RING_CTL_ARM k 0] ++ late else []

/-- RUNNING is entered from READY (R305). -/
def startRunning (ready : Bool) : Act := onlyIf ready (enterState stRunning)

theorem goLive_eq {k : Nat} {dir : Dir} {d : Dev} (may : d.awaits k dir = true) (free : d.liveIn dir = none) : goLive k dir d =
    inSequence [liveMarks k (lateBanks k d), fun _ => [.ring k (onDir dir fun s => { s with live := true })], startRunning (d.mode = stReady)] d := by
  unfold goLive
  rw [if_neg (by simp [may, free])]
  rfl

theorem goLive_nil {k : Nat} {dir : Dir} {d : Dev} (h : ¬ (d.awaits k dir = true ∧ d.liveIn dir = none)) : goLive k dir d = [] := by
  refine if_pos ?_
  cases may : d.awaits k dir with
  | false => rfl
  | true => simpa [Option.isSome_iff_ne_none] using fun free => h ⟨may, free⟩

theorem confines_liveMarks (k : Nat) (d : Dev) : Confines [.regs] [.RING_STATUS, .RING_CTL, .SEQ_ERR] (liveMarks k (lateBanks k d)) := by
  intro e
  simp only [liveMarks, confined_ite, confined_append, confined_cons, confined_nil, and_true, implies_true]
  exact fun _ => ⟨⟨rfl, rfl, rfl⟩, (confined_lateBanks k d).mono (by decide) (by decide)⟩

theorem liveMarks_reads {k : Nat} {d e : Dev} (h : e.fld F.RING_STATUS_STATE k = 1 ∨ e.fld F.RING_STATUS_STATE k = 2) :
    (runAct (liveMarks k (lateBanks k d)) e).fld F.RING_STATUS_STATE k = 2 ∧
    (e.fld F.RING_STATUS_STATE k = 1 → (runAct (liveMarks k (lateBanks k d)) e).fld F.RING_CTL_LIVE k = 1 ∧
      (runAct (liveMarks k (lateBanks k d)) e).fld F.RING_CTL_ARM k = 0) ∧
    (e.fld F.RING_STATUS_STATE k = 2 → runAct (liveMarks k (lateBanks k d)) e = e) := by
  have late := confined_lateBanks k d
  rcases h with armed | live
  · have marks : liveMarks k (lateBanks k d) e =
        [setF F.RING_STATUS_STATE k 2, setF F.RING_CTL_LIVE k 1, setF F.RING_CTL_ARM k 0] ++ lateBanks k d := if_pos armed
    refine ⟨?_, fun _ => ⟨?_, ?_⟩, fun live => by omega⟩
    all_goals
      rw [runAct_eq, marks, applyAll_append, late.fld _ (by decide)]
      simp (disch := exact of_decide_eq_true rfl) only [applyAll_cons, applyAll_nil, fld_apply_spared, fld_setF]
      rfl
  · have marks : liveMarks k (lateBanks k d) e = [] := if_neg (by omega)
    have same : runAct (liveMarks k (lateBanks k d)) e = e := by rw [runAct_eq, marks, applyAll_nil]
    exact ⟨by rw [same]; exact live, fun armed => by omega, fun _ => same⟩

theorem confines_enterState (st : Nat) : Confines [.regs, .chain, .outbox, .power] [.DEV_STATE, .EVT_STATUS, .CHAIN_ERR] (enterState st) := by
  intro d
  simp only [enterState, noteQuiet, confined_ite, confined_nil, confined_append, confined_cons, and_true, implies_true, true_and]
  exact fun _ => ⟨⟨rfl, rfl, rfl, rfl⟩, rfl⟩

/-- The parts that going live touches. -/
def liveParts : List Part := [.regs, .rings, .chain, .outbox, .power]

/-- The registers that going live writes. -/
def liveRegs : List Reg := [.RING_STATUS, .RING_CTL, .SEQ_ERR, .DEV_STATE, .EVT_STATUS, .CHAIN_ERR]

theorem confines_goLive (k : Nat) (dir : Dir) : Confines liveParts liveRegs (goLive k dir) := by
  intro d
  by_cases h : d.awaits k dir = true ∧ d.liveIn dir = none
  · rw [goLive_eq h.1 h.2]
    refine Confines.inSequence (fun a ha => ?_) d
    simp only [List.mem_cons, List.not_mem_nil, or_false] at ha
    rcases ha with rfl | rfl | rfl
    · exact (confines_liveMarks k d).mono (by decide) (by decide)
    · intro _
      simp only [confined_cons, confined_nil, and_true]
      rfl
    · exact ((confines_enterState _).mono (by decide) (by decide)).onlyIf
  · rw [goLive_nil h]
    exact confined_nil

theorem dir_onDir (dir dir' : Dir) (g : RingDir → RingDir) (r : RingSt) :
    (onDir dir g r).dir dir' = if dir' = dir then g (r.dir dir) else r.dir dir' := by
  cases dir <;> cases dir' <;> rfl

theorem launched_onDir (dir : Dir) (g : RingDir → RingDir) (r : RingSt) : (onDir dir g r).launched = r.launched := by cases dir <;> rfl

theorem runAct_goLive {k : Nat} {dir : Dir} {d : Dev} (may : d.awaits k dir = true) (free : d.liveIn dir = none) :
    runAct (goLive k dir) d = runAct (startRunning (d.mode = stReady))
      ((Upd.ring k (onDir dir fun s => { s with live := true })).apply (runAct (liveMarks k (lateBanks k d)) d)) := by
  rw [runAct_eq, goLive_eq may free, ← runAct_eq, runAct_three, runAct_const, applyAll_cons, applyAll_nil]

/-- Going live in one direction, where a context waits. -/
theorem goLive_runs {k : Nat} {dir : Dir} {d : Dev} (may : d.awaits k dir = true) (free : d.liveIn dir = none) :
    (∀ o, (runAct (goLive k dir) d).ring o = if o = k then onDir dir (fun s => { s with live := true }) (d.ring k) else d.ring o) ∧
    (runAct (goLive k dir) d).fld F.RING_STATUS_STATE k = 2 ∧
    (d.fld F.RING_STATUS_STATE k = 1 → (runAct (goLive k dir) d).fld F.RING_CTL_LIVE k = 1 ∧ (runAct (goLive k dir) d).fld F.RING_CTL_ARM k = 0) ∧
    (d.fld F.RING_STATUS_STATE k = 2 → (runAct (goLive k dir) d).fld F.RING_CTL_LIVE k = d.fld F.RING_CTL_LIVE k ∧
      (runAct (goLive k dir) d).fld F.RING_CTL_ARM k = d.fld F.RING_CTL_ARM k) ∧
    (runAct (goLive k dir) d).mode = if d.mode = stReady then stRunning else d.mode := by
  have st : d.fld F.RING_STATUS_STATE k = 1 ∨ d.fld F.RING_STATUS_STATE k = 2 := by
    simp only [Dev.awaits, Bool.and_eq_true, Bool.or_eq_true, decide_eq_true_eq] at may
    exact may.1.1.1
  obtain ⟨state, armed, live⟩ := liveMarks_reads (d := d) st
  have marks := confines_liveMarks k d d
  have run := runAct_goLive may free
  have rings : (runAct (liveMarks k (lateBanks k d)) d).rings = d.rings := keepAll_rings _ (marks.leaves (by decide))
  have runs : Confines [.regs, .chain, .outbox, .power] [.DEV_STATE, .EVT_STATUS, .CHAIN_ERR] (startRunning (d.mode = stReady)) :=
    (confines_enterState _).onlyIf
  have fld {f : Fld} (h : f.reg ∉ [Reg.DEV_STATE, .EVT_STATUS, .CHAIN_ERR]) (i : Nat) :
      (runAct (goLive k dir) d).fld f i = (runAct (liveMarks k (lateBanks k d)) d).fld f i := by
    rw [run, runAct_eq, (runs _).fld _ h]
    rfl
  refine ⟨fun o => ?_, (fld (by decide) k).trans state, fun h => ?_, fun h => ?_, ?_⟩
  · rw [run, runAct_eq, (runs _).ring _ (by decide), ring_apply_ring, ring_of_rings rings, ring_of_rings rings]
  · exact ⟨(fld (by decide) k).trans (armed h).1, (fld (by decide) k).trans (armed h).2⟩
  · rw [fld (by decide), fld (by decide), live h]
    exact ⟨rfl, rfl⟩
  · rw [run]
    have before : ((Upd.ring k (onDir dir fun s => { s with live := true })).apply (runAct (liveMarks k (lateBanks k d)) d)).mode = d.mode :=
      marks.fld d (f := F.DEV_STATE_STATE) (by decide) 0
    by_cases ready : d.mode = stReady
    · rw [if_pos ready, startRunning, decide_eq_true ready, runAct_onlyIf_true]
      exact mode_enterState _ (by decide)
    · rw [if_neg ready, startRunning, decide_eq_false ready, runAct_onlyIf_false]
      exact before

/-- The fields of a ring plan (R60–R63). -/
def planFields : List Fld := [F.RING_CTL_LEN, F.RING_CTL_POS, F.RING_CTL_MODE, F.RING_PLAN_CW_FIRST, F.RING_PLAN_CCW_FIRST,
  F.RING_DAYS_DAYS_CW, F.RING_DAYS_DAYS_CCW, F.RING_YEARS_FIRST_YEAR, F.RING_YEARS_COUNT]

theorem plan_congr {d d' : Dev} (k : Nat) (h : ∀ f ∈ planFields, d'.fld f k = d.fld f k) : d'.plan k = d.plan k := by
  unfold Dev.plan
  rw [h F.RING_CTL_LEN (by decide), h F.RING_CTL_POS (by decide), h F.RING_CTL_MODE (by decide), h F.RING_PLAN_CW_FIRST (by decide),
    h F.RING_PLAN_CCW_FIRST (by decide), h F.RING_DAYS_DAYS_CW (by decide), h F.RING_DAYS_DAYS_CCW (by decide),
    h F.RING_YEARS_FIRST_YEAR (by decide), h F.RING_YEARS_COUNT (by decide)]

/-- Going live leaves every ring plan. -/
theorem fld_liveMarks {f : Fld} (h : f ∈ planFields) (k : Nat) (d e : Dev) (j : Nat) :
    (runAct (liveMarks k (lateBanks k d)) e).fld f j = e.fld f j := by
  have late := confined_lateBanks k d
  have seq : f.reg ∉ [Reg.SEQ_ERR] := (by decide : ∀ f ∈ planFields, f.reg ∉ [Reg.SEQ_ERR]) f h
  have state : f.spared (setF F.RING_STATUS_STATE k 2) = true :=
    (by decide : ∀ f ∈ planFields, F.RING_STATUS_STATE.apart f = true) f h
  have live : f.spared (setF F.RING_CTL_LIVE k 1) = true :=
    (by decide : ∀ f ∈ planFields, F.RING_CTL_LIVE.apart f = true) f h
  have arm : f.spared (setF F.RING_CTL_ARM k 0) = true :=
    (by decide : ∀ f ∈ planFields, F.RING_CTL_ARM.apart f = true) f h
  rw [runAct_eq, liveMarks]
  split
  · rw [applyAll_append, late.fld _ seq, applyAll_cons, applyAll_cons, applyAll_cons, applyAll_nil, fld_apply_spared arm,
      fld_apply_spared live, fld_apply_spared state]
  · rfl

theorem goLive_plan (k : Nat) (dir : Dir) (d : Dev) (j : Nat) : (runAct (goLive k dir) d).plan j = d.plan j := by
  by_cases h : d.awaits k dir = true ∧ d.liveIn dir = none
  · refine plan_congr j fun f hf => ?_
    have runs : Confines [.regs, .chain, .outbox, .power] [.DEV_STATE, .EVT_STATUS, .CHAIN_ERR] (startRunning (d.mode = stReady)) :=
      (confines_enterState _).onlyIf
    rw [runAct_goLive h.1 h.2, runAct_eq, (runs _).fld _ ((by decide : ∀ f ∈ planFields, f.reg ∉ [Reg.DEV_STATE, .EVT_STATUS, .CHAIN_ERR]) f hf)]
    exact fld_liveMarks hf k d d j
  · rw [runAct_eq, goLive_nil h, applyAll_nil]

/-- Where context `k` stands on its way to going live: armed still, or live with its marks. -/
def Dev.underWay (d e : Dev) (k : Nat) : Prop :=
  (e.fld F.RING_STATUS_STATE k = 1 ∨ e.fld F.RING_STATUS_STATE k = 2) ∧
  (d.fld F.RING_STATUS_STATE k = 1 → e.fld F.RING_STATUS_STATE k = 1 ∨ (e.fld F.RING_CTL_LIVE k = 1 ∧ e.fld F.RING_CTL_ARM k = 0)) ∧
  (d.mode = stReady → e.mode = stReady ∨ e.mode = stRunning)

/-- Going live in one direction leaves the other as it waits. -/
theorem goLive_other {d e : Dev} {k : Nat} {dir dir' : Dir} (other : dir' ≠ dir) (way : d.underWay e k) :
    d.underWay (runAct (goLive k dir) e) k ∧ (runAct (goLive k dir) e).awaits k dir' = e.awaits k dir' ∧
    (runAct (goLive k dir) e).liveIn dir' = e.liveIn dir' ∧ ((runAct (goLive k dir) e).ring k).launched = (e.ring k).launched ∧
    ((runAct (goLive k dir) e).ring k).dir dir' = (e.ring k).dir dir' := by
  by_cases h : e.awaits k dir = true ∧ e.liveIn dir = none
  · obtain ⟨rings, state, armed, live, mode⟩ := goLive_runs h.1 h.2
    obtain ⟨st, marks, ready⟩ := way
    have dirs (o : Nat) : ((runAct (goLive k dir) e).ring o).dir dir' = (e.ring o).dir dir' := by
      rw [rings]
      split
      · subst_vars
        rw [dir_onDir, if_neg other]
      · rfl
    refine ⟨⟨.inr state, fun one => .inr ?_, fun hd => ?_⟩, ?_, ?_, ?_, dirs k⟩
    · rcases marks one with now | ⟨hl, ha⟩
      · exact armed now
      · rcases st with now | now
        · exact armed now
        · rw [(live now).1, (live now).2]
          exact ⟨hl, ha⟩
    · rw [mode]
      rcases ready hd with m | m <;> rw [m] <;> decide
    · simp only [Dev.awaits, dirs, goLive_plan, state]
      rcases st with m | m <;> rw [m] <;> rfl
    · simp only [Dev.liveIn, dirs]
    · rw [rings, if_pos rfl, launched_onDir]
  · rw [runAct_eq, goLive_nil h, applyAll_nil]
    exact ⟨way, rfl, rfl, rfl, rfl⟩

/-- Context `k` is live in a direction, as the module stood before (R42, R43, R305). -/
structure GoneLive (d e : Dev) (k : Nat) (dir : Dir) : Prop where
  state : e.fld F.RING_STATUS_STATE k = 2
  marks : d.fld F.RING_STATUS_STATE k = 1 → e.fld F.RING_CTL_LIVE k = 1 ∧ e.fld F.RING_CTL_ARM k = 0
  runs : d.mode = stReady → e.mode = stRunning
  launched : (e.ring k).launched = true
  live : ((e.ring k).dir dir).live = true

/-- A context goes live in a direction where it waits. -/
theorem goneLive_goLive {d e : Dev} {k : Nat} {dir : Dir} (way : d.underWay e k) (may : e.awaits k dir = true) (free : e.liveIn dir = none)
    (launched : (e.ring k).launched = true) : GoneLive d (runAct (goLive k dir) e) k dir := by
  obtain ⟨rings, state, armed, live, mode⟩ := goLive_runs may free
  obtain ⟨st, marks, ready⟩ := way
  refine ⟨state, fun one => ?_, fun hd => ?_, ?_, ?_⟩
  · rcases marks one with now | ⟨hl, ha⟩
    · exact armed now
    · rcases st with now | now
      · exact armed now
      · rw [(live now).1, (live now).2]
        exact ⟨hl, ha⟩
  · rw [mode]
    rcases ready hd with m | m <;> rw [m] <;> rfl
  · rw [rings, if_pos rfl, launched_onDir, launched]
  · rw [rings, if_pos rfl, dir_onDir, if_pos rfl]

/-- Going live in the other direction too keeps it. -/
theorem GoneLive.other {d e : Dev} {k : Nat} {dir dir' : Dir} (other : dir ≠ dir') (h : GoneLive d e k dir) :
    GoneLive d (runAct (goLive k dir') e) k dir := by
  by_cases may : e.awaits k dir' = true ∧ e.liveIn dir' = none
  · obtain ⟨rings, state, -, live, mode⟩ := goLive_runs may.1 may.2
    refine ⟨state, fun one => ?_, fun hd => ?_, ?_, ?_⟩
    · rw [(live h.state).1, (live h.state).2]
      exact h.marks one
    · rw [mode, h.runs hd]
      rfl
    · rw [rings, if_pos rfl, launched_onDir, h.launched]
    · rw [rings, if_pos rfl, dir_onDir, if_neg other, h.live]
  · rw [runAct_eq, goLive_nil may, applyAll_nil]
    exact h

theorem goneLive_goLiveBoth {d e : Dev} {k : Nat} (dir : Dir) (way : d.underWay e k) (may : e.awaits k dir = true)
    (free : e.liveIn dir = none) (launched : (e.ring k).launched = true) : GoneLive d (runAct (goLiveBoth k) e) k dir := by
  unfold goLiveBoth
  rw [runAct_two]
  cases dir with
  | cw => exact (goneLive_goLive way may free launched).other (by decide)
  | ccw =>
    obtain ⟨way', awaits, liveIn, launched', -⟩ := goLive_other (dir := .cw) (dir' := .ccw) (by decide) way
    exact goneLive_goLive way' (awaits.trans may) (liveIn.trans free) (launched'.trans launched)

/-! ### Launching and stopping (R41, R42) -/

/-- The marks of a context whose launch count has come. -/
def launches (k : Nat) (late : Bool) : List Upd :=
  [.ring k fun r => { r with launched := true }] ++ (if late then [setF F.RING_STATUS_LATE_LAUNCH k 1] else [])

theorem confined_launches (k : Nat) (late : Bool) : Confined [.regs, .rings] [.RING_STATUS] (launches k late) := by
  simp only [launches, confined_append, confined_ite, confined_cons, confined_nil, and_true, implies_true]
  exact ⟨rfl, fun _ => rfl⟩

theorem launch_eq (k : Nat) (d : Dev) : launch k d = inSequence [fun _ => launches k (!d.placed k && d.firstOwner k),
    if (d.plan k).count = 0 then stopContext k else goLiveBoth k] d := rfl

theorem launches_reads (k : Nat) (late : Bool) (d : Dev) :
    (∀ o, (applyAll (launches k late) d).ring o = if o = k then { d.ring k with launched := true } else d.ring o) ∧
    (∀ j, (applyAll (launches k late) d).fld F.RING_STATUS_STATE j = d.fld F.RING_STATUS_STATE j) ∧
    (∀ j, (applyAll (launches k late) d).plan j = d.plan j) ∧ (applyAll (launches k late) d).mode = d.mode := by
  have confined := confined_launches k late
  refine ⟨fun o => ?_, fun j => ?_, fun j => plan_congr j fun f hf => confined.fld d ((by decide : ∀ f ∈ planFields, f.reg ∉ [Reg.RING_STATUS]) f hf) j,
    confined.fld d (f := F.DEV_STATE_STATE) (by decide) 0⟩
  · rw [launches, applyAll_append]
    have tail : Confined [.regs] [.RING_STATUS] (if late then [setF F.RING_STATUS_LATE_LAUNCH k 1] else []) := by
      simp only [confined_ite, confined_cons, confined_nil, and_true, implies_true]
      exact fun _ => rfl
    rw [tail.ring _ (by decide), applyAll_cons, applyAll_nil, ring_apply_ring]
  · cases late <;>
      simp (disch := exact of_decide_eq_true rfl) only [launches, if_true, Bool.false_eq_true, if_false, applyAll_append, applyAll_cons,
        applyAll_nil, fld_apply_spared]

/-- A launch leaves what waits as it waits. -/
theorem launches_waits (k : Nat) (late : Bool) (dir : Dir) (d : Dev) :
    (applyAll (launches k late) d).awaits k dir = d.awaits k dir ∧ (applyAll (launches k late) d).liveIn dir = d.liveIn dir := by
  obtain ⟨rings, state, plan, -⟩ := launches_reads k late d
  have dirs (o : Nat) : ((applyAll (launches k late) d).ring o).dir dir = (d.ring o).dir dir := by
    rw [rings]
    split
    · subst_vars
      cases dir <;> rfl
    · rfl
  simp only [Dev.awaits, Dev.liveIn, dirs, state, plan, true_and]

theorem ringLaunchAct_eq {k : Nat} {d : Dev} (st : d.fld F.RING_STATUS_STATE k = 1 ∨ d.fld F.RING_STATUS_STATE k = 2)
    (first : (d.ring k).launched = false) (due : d.fld F.RING_LAUNCH_GCNT k ≤ d.now) : ringLaunchAct k d = launch k d := by
  refine if_pos ?_
  simpa [first, due] using st

theorem ringLaunchAct_nil {k : Nat} {d : Dev} (early : d.now < d.fld F.RING_LAUNCH_GCNT k) : ringLaunchAct k d = [] :=
  if_neg (by simp [early])

/-- The updates by which a context stops. -/
def stops (k : Nat) : List Upd :=
  [setF F.RING_STATUS_STATE k 3, setF F.RING_CTL_LIVE k 0, setF F.RING_CTL_ARM k 0,
   .ring k fun r => { r with cw := { RingDir.init with ended := true }, ccw := { RingDir.init with ended := true } }]

/-- A context that has stopped (R42, R60). -/
structure Stopped (e : Dev) (k : Nat) : Prop where
  state : e.fld F.RING_STATUS_STATE k = 3
  live : e.fld F.RING_CTL_LIVE k = 0
  arm : e.fld F.RING_CTL_ARM k = 0
  cw : (e.ring k).cw.ended = true
  ccw : (e.ring k).ccw.ended = true

theorem stopped_stops (k : Nat) (d : Dev) : Stopped (applyAll (stops k) d) k := by
  have ring : (applyAll (stops k) d).ring k = _ := ring_apply_same _ k fun r =>
    { r with cw := { RingDir.init with ended := true }, ccw := { RingDir.init with ended := true } }
  refine ⟨?_, ?_, ?_, by rw [ring], by rw [ring]⟩
  all_goals
    simp (disch := exact of_decide_eq_true rfl) only [stops, applyAll_cons, applyAll_nil, fld_apply_spared, fld_setF]
    rfl

/-- What follows a stop: idling begins, and a slice that drained has stopped. -/
def stopRest (k : Nat) : Act := inSequence [noteQuiet, drainedEvent k]

theorem confines_drainedEvent (k : Nat) : Confines [.slices, .regs, .chain, .outbox] [.EVT_STATUS, .CHAIN_ERR] (drainedEvent k) := by
  intro d
  unfold drainedEvent
  split
  · simp only [confined_ite, confined_cons, confined_nil, and_true, implies_true]
    exact fun _ => ⟨rfl, rfl⟩
  · exact confined_nil

theorem confines_stopRest (k : Nat) : Confines [.slices, .regs, .chain, .outbox, .power] [.EVT_STATUS, .CHAIN_ERR] (stopRest k) := by
  refine confines_inSequence_cons (as := [_]) (fun _ => ?_) (confines_inSequence_cons (as := []) ((confines_drainedEvent k).mono (by decide)
    (by decide)) Confines.nil)
  simp only [noteQuiet, confined_cons, confined_nil, and_true]
  rfl

theorem runAct_stopContext (k : Nat) (d : Dev) : runAct (stopContext k) d = runAct (stopRest k) (applyAll (stops k) d) := by
  unfold stopContext stopRest
  rw [runAct_inSequence_cons]
  rfl

theorem Stopped.rest {e : Dev} {k : Nat} (h : Stopped e k) : Stopped (runAct (stopRest k) e) k := by
  have rest := confines_stopRest k e
  have ring : (runAct (stopRest k) e).ring k = e.ring k := rest.ring e (by decide) k
  exact ⟨(rest.fld e (by decide) k).trans h.state, (rest.fld e (by decide) k).trans h.live, (rest.fld e (by decide) k).trans h.arm,
    ring ▸ h.cw, ring ▸ h.ccw⟩

theorem confines_stopContext (k : Nat) : Confines [.rings, .slices, .regs, .chain, .outbox, .power]
    [.RING_STATUS, .RING_CTL, .EVT_STATUS, .CHAIN_ERR] (stopContext k) := by
  refine confines_inSequence_cons (as := [_, _]) (fun _ => ?_) ((confines_stopRest k).mono (by decide) (by decide))
  simp only [confined_cons, confined_nil, and_true]
  exact ⟨rfl, rfl, rfl, rfl⟩

theorem confines_launch (k : Nat) : Confines (.slices :: liveParts) liveRegs (launch k) := by
  intro d
  rw [launch_eq]
  refine confines_inSequence_cons (as := [_]) (fun _ => (confined_launches k _).mono (by decide) (by decide))
    (confines_inSequence_cons (as := []) ?_ Confines.nil) d
  split
  · exact (confines_stopContext k).mono (by decide) (by decide)
  · refine Confines.inSequence fun a ha => ?_
    simp only [List.mem_cons, List.not_mem_nil, or_false] at ha
    rcases ha with rfl | rfl
    all_goals exact (confines_goLive k _).mono (by decide) (by decide)

theorem runAct_launch (k : Nat) (d : Dev) : runAct (launch k) d =
    runAct (if (d.plan k).count = 0 then stopContext k else goLiveBoth k) (applyAll (launches k (!d.placed k && d.firstOwner k)) d) := by
  rw [runAct_eq, launch_eq, ← runAct_eq, runAct_two, runAct_const]

/-- Settles O35: a context goes live after its launch marks in each direction that is free, or stops. -/
theorem bankLoadsAndLaunches : Obligations.BankLoadsAndLaunches := by
  intro s k hs
  refine ⟨fun bound unloaded => ?_, fun dir st first due => ⟨fun years may free => ?_, fun none => ?_⟩, fun early => ?_⟩
  · have load : bankLoadDoneAct k s.dev = loadsBanks k := if_neg (by simpa [unloaded, Option.isSome_iff_ne_none] using bound)
    have placed : Confines [.start, .outbox] [] checkPlaced := by
      intro d
      simp only [checkPlaced, confined_ite, confined_cons, confined_nil, and_true, implies_true]
      exact fun _ => ⟨rfl, rfl⟩
    have loads : Confined [.rings, .cores] [] (loadsBanks k) := by
      simp only [loadsBanks, confined_cons, confined_nil, and_true]
      exact ⟨rfl, rfl⟩
    have run : runAct (bankLoadAct k) s.dev = runAct checkPlaced (applyAll (loadsBanks k) s.dev) := by
      unfold bankLoadAct thenPlaced
      rw [runAct_two, runAct_eq _ s.dev, load]
    have check := placed (applyAll (loadsBanks k) s.dev)
    have ring (o : Nat) : (applyAll (loadsBanks k) s.dev).ring o = if o = k then { s.dev.ring k with bankLoaded := true } else s.dev.ring o := by
      rw [loadsBanks, applyAll_cons, applyAll_cons, applyAll_nil, ring_of_rings (keep_rings (.cores _) _ (of_decide_eq_true rfl)),
        ring_apply_ring]
    refine completes_powered rfl hs ?_ fun d q => ?_
    · rw [run, runAct_eq]
      exact (congrArg RouteSt.lost ((keepAll_route _ (check.leaves (by decide))).trans (keepAll_route _ (loads.leaves (by decide))))).trans hs.2
    · rw [run, runAct_eq] at q
      have rings (o : Nat) : d.ring o = (applyAll (loadsBanks k) s.dev).ring o := (q.ring o).trans (check.ring _ (by decide) o)
      refine ⟨?_, fun o other => ?_, fun r i _ hm => ?_, fun c b armed => ?_⟩
      · rw [rings, ring, if_pos rfl]
      · rw [rings, ring, if_neg other]
      · exact (q.reg r i (modeReg_eq_false hm)).trans ((check.reg _ (List.not_mem_nil) i).trans (loads.reg _ (List.not_mem_nil) i))
      · rw [q.core, check.core _ (by decide)]
        exact armed_loadsBanks armed
  · have act := ringLaunchAct_eq st first due
    have confined : Confined (.slices :: liveParts) liveRegs (ringLaunchAct k s.dev) := act ▸ confines_launch k s.dev
    obtain ⟨rings, state, plan, mode⟩ := launches_reads k (!s.dev.placed k && s.dev.firstOwner k) s.dev
    obtain ⟨awaits, liveIn⟩ := launches_waits k (!s.dev.placed k && s.dev.firstOwner k) dir s.dev
    have run : runAct (ringLaunchAct k) s.dev =
        runAct (goLiveBoth k) (applyAll (launches k (!s.dev.placed k && s.dev.firstOwner k)) s.dev) := by
      rw [runAct_eq, act, ← runAct_eq, runAct_launch, if_neg years]
    have way : s.dev.underWay (applyAll (launches k (!s.dev.placed k && s.dev.firstOwner k)) s.dev) k := by
      refine ⟨by rw [state]; exact st, fun one => .inl (by rw [state]; exact one), fun ready => .inl (mode.trans ready)⟩
    have live := goneLive_goLiveBoth dir way (awaits.trans may) (liveIn.trans free) (by rw [rings, if_pos rfl])
    rw [← run] at live
    refine completes_running rfl hs ?_ (fun idle => ?_) ⟨live.launched, live.live, live.state, live.marks, live.runs, ?_, ?_⟩
    · exact (congrArg RouteSt.lost (keepAll_route _ (confined.leaves (by decide)))).trans hs.2
    · rw [not_allIdle k.isLt live.state] at idle
      exact Bool.noConfusion idle.2
    · exact keepAll_hbm _ (confined.leaves (by decide))
    · exact keepAll_spm _ (confined.leaves (by decide))
  · have act := ringLaunchAct_eq st first due
    have confined : Confined (.slices :: liveParts) liveRegs (ringLaunchAct k s.dev) := act ▸ confines_launch k s.dev
    have stop : Stopped (runAct (ringLaunchAct k) s.dev) k := by
      rw [runAct_eq, act, ← runAct_eq, runAct_launch, if_pos none, runAct_stopContext]
      exact (stopped_stops k _).rest
    refine completes_act rfl hs confined (by decide) fun d q => ?_
    exact ⟨(q.fld rfl k).trans stop.state, (q.fld rfl k).trans stop.live, (q.fld rfl k).trans stop.arm, by rw [q.ring]; exact stop.cw,
      by rw [q.ring]; exact stop.ccw, q.hbm.trans (keepAll_hbm _ (confined.leaves (by decide))),
      q.spm.trans (keepAll_spm _ (confined.leaves (by decide)))⟩
  · exact completes_quiet rfl hs (ringLaunchAct_nil early)

end Sys2Proof.Machine
end

