-- ==== Sys2Proof/Proofs/Ethernet.lean ====
section
/-! PROOFS. Frames besides RoCE: ARP, Neighbour Discovery, echo, LLDP, link changes and pauses (R516–R518, R522, R549). -/

namespace Sys2Proof.Machine

/-- A powered command whose act is a known list of updates. -/
theorem completes_does {ins : Instr} {s : State} {act : Act} {us : List Upd} {P : Dev → Prop} {ps : List Part} {rs : List Reg}
    (he : exec ins s = perform (onPower act) s) (hs : s.dev.steady) (ha : act s.dev = us) (hc : Confined ps rs us) (route : Part.route ∉ ps)
    (h : ∀ d, Quiet (applyAll us s.dev) d → P d) : Completes ins s P := by
  subst ha
  exact completes_act he hs hc route h

theorem sent_runAct (a : Act) (d : Dev) : d.outbox <+: (runAct a d).outbox := by
  rw [runAct_eq]
  exact sent_applyAll _ d

/-- What one of a row of acts sends wherever the others leave the module stands in the outbox after the row. -/
theorem sent_forEach {α : Type} {f : α → Act} {I : Dev → Prop} {xs : List α} {x : α} {m : Msg} (inv : ∀ y ∈ xs, Invariant I (f y)) (hx : x ∈ xs)
    (sends : ∀ d, I d → m ∈ (runAct (f x) d).outbox) {d : Dev} (hd : I d) : m ∈ (runAct (forEach f xs) d).outbox := by
  induction xs generalizing d with
  | nil => exact absurd hx List.not_mem_nil
  | cons y ys ih =>
    rw [forEach, List.map_cons, runAct_inSequence_cons]
    rcases List.mem_cons.1 hx with rfl | hx
    · exact (sent_runAct ..).subset (sends d hd)
    · exact ih (fun z hz => inv z (List.mem_cons_of_mem _ hz)) hx (inv y List.mem_cons_self d hd)

/-! ### What each frame does -/

/-- A frame that is dropped is counted, and that is all (R518). -/
theorem completes_dropped {ins : Instr} {s : State} {act : Act} {e : Nat} (he : exec ins s = perform (onPower act) s) (hs : s.dev.steady)
    (ha : act s.dev = [addF F.ETH_STATUS_DROPPED e 1]) :
    Completes ins s fun d => s.dev.counted d F.ETH_STATUS_DROPPED e 1 ∧ s.dev.wrote d [.ETH_STATUS] := by
  have confined : Confined [.regs] [.ETH_STATUS] [addF F.ETH_STATUS_DROPPED e 1] := by
    simp only [confined_cons, confined_nil, and_true]
    rfl
  refine completes_does he hs ha confined (by decide) fun d q => ⟨?_, ?_⟩
  · exact (q.fld rfl _).trans (fld_addF ..)
  · exact q.wrote ((confined.mono (by decide) fun _ h => h).wrote _ (by decide))

theorem confined_ethSend (i : Nat) (f : EthOut) (d : Dev) : Confined [.outbox] [] (ethSend i f d) := by
  simp only [ethSend, confined_ite, confined_cons, confined_nil, and_true]
  exact ⟨fun _ => rfl, fun _ => trivial⟩

theorem sent_ethSend {i : Nat} {f : EthOut} {d : Dev} (h : d.ifaceSends i = true) : Msg.eth i f ∈ (runAct (ethSend i f) d).outbox := by
  rw [runAct_eq, ethSend, if_pos h]
  exact sent_of_mem (List.mem_singleton_self _) d

/-- Whether an interface sends rests on the registers and the interface table alone. -/
theorem ifaceSends_congr {d d' : Dev} (regs : d'.regs = d.regs) (ifaces : d'.svc.ifaces = d.svc.ifaces) (i : Nat) : d'.ifaceSends i = d.ifaceSends i := by
  simp only [Dev.ifaceSends, Dev.ifaceExists, Dev.iface, Dev.bit, fld_of_regs regs, ifaces]

/-- A frame that a command answers. -/
theorem completes_ethSend {ins : Instr} {s : State} {act : Act} {i : Nat} {f : EthOut} (he : exec ins s = perform (onPower act) s) (hs : s.dev.steady)
    (ha : act s.dev = ethSend i f s.dev) :
    Completes ins s fun d => s.dev.wrote d [] ∧ (s.dev.ifaceSends i = true → Msg.eth i f ∈ d.outbox) := by
  refine completes_does he hs ha (confined_ethSend i f _) (by decide) fun d q => ⟨?_, fun sends => ?_⟩
  · exact q.wrote (((confined_ethSend i f s.dev).mono (by decide) fun _ h => h).wrote _ (by decide))
  · rw [← runAct_eq] at q
    exact q.sent.subset (sent_ethSend sends)

theorem neither {a b : Bool} (ha : a = false) (hb : b = false) : (!a && !b) = true := by rw [ha, hb]; rfl

theorem either {a b : Bool} (h : a = true ∨ b = true) : ¬ (!a && !b) = true := by
  rcases h with rfl | rfl
  · simp
  · simp

/-- Learn a peer's address, then answer (R518). -/
def learnThenAnswer (i : Nat) (peer : Bool) (ip : BitVec 128) (mac : BitVec 48) (answers : Bool) (f : EthOut) : Act :=
  inSequence [fun _ => if peer then [learnPeer i ip mac] else [], onlyIf answers (ethSend i f)]

theorem confines_learnThenAnswer (i : Nat) (peer : Bool) (ip : BitVec 128) (mac : BitVec 48) (answers : Bool) (f : EthOut) :
    Confines [.svc, .outbox] [] (learnThenAnswer i peer ip mac answers f) := by
  refine confines_inSequence_cons (as := [_]) (fun d => ?_) (confines_inSequence_cons (as := []) ?_ Confines.nil)
  · simp only [confined_ite, confined_cons, confined_nil, and_true]
    exact ⟨fun _ => rfl, fun _ => trivial⟩
  · exact Confines.onlyIf fun d => (confined_ethSend i f d).mono (by decide) (by decide)

theorem learnThenAnswer_learns {i : Nat} {ip : BitVec 128} {mac : BitVec 48} {answers : Bool} {f : EthOut} (d : Dev) :
    (i, ip, mac) ∈ (runAct (learnThenAnswer i true ip mac answers f) d).svc.peers := by
  rw [learnThenAnswer, runAct_two, runAct_list]
  have same : (runAct (onlyIf answers (ethSend i f)) (applyAll [learnPeer i ip mac] d)).svc = (applyAll [learnPeer i ip mac] d).svc := by
    rw [runAct_eq]
    exact keepAll_svc _ (Confines.onlyIf (fun d => confined_ethSend i f d) _ |>.leaves (by decide))
  rw [if_pos rfl, same]
  exact List.mem_append_right _ (List.mem_singleton_self _)

theorem learnThenAnswer_answers {i : Nat} {peer : Bool} {ip : BitVec 128} {mac : BitVec 48} {f : EthOut} {d : Dev} (h : d.ifaceSends i = true) :
    Msg.eth i f ∈ (runAct (learnThenAnswer i peer ip mac true f) d).outbox := by
  rw [learnThenAnswer, runAct_two, runAct_list]
  refine sent_ethSend ((ifaceSends_congr ?_ ?_ i).trans h)
  · cases peer <;> rfl
  · cases peer <;> rfl

theorem completes_learns {ins : Instr} {s : State} {act : Act} {i : Nat} {peer : Bool} {ip : BitVec 128} {mac : BitVec 48} {answers : Bool} {f : EthOut}
    (he : exec ins s = perform (onPower act) s) (hs : s.dev.steady) (ha : act s.dev = learnThenAnswer i peer ip mac answers f s.dev) :
    Completes ins s fun d => regsBut [] s.dev d ∧ (peer = true → (i, ip, mac) ∈ d.svc.peers) ∧
      (answers = true → s.dev.ifaceSends i = true → Msg.eth i f ∈ d.outbox) := by
  have confined := confines_learnThenAnswer i peer ip mac answers f s.dev
  refine completes_does he hs ha confined (by decide) fun d q => ⟨q.regsBut (confined.regsBut _ (by decide)), ?_, ?_⟩
  · rintro rfl
    rw [q.svc, ← runAct_eq]
    exact learnThenAnswer_learns s.dev
  · rintro rfl sends
    rw [← runAct_eq] at q
    exact q.sent.subset (learnThenAnswer_answers sends)

/-! ### Link changes and pauses (R522, R549) -/

theorem bits_setBit (x : Nat) {k j : Nat} (b : Bool) :
    putBits x k k (if b then 1 else 0) / 2 ^ j % 2 = if j = k then (if b then 1 else 0) else x / 2 ^ j % 2 := by
  rw [← Nat.shiftRight_eq_div_pow, ← Nat.shiftRight_eq_div_pow]
  by_cases h : j = k
  · subst h
    rw [if_pos rfl]
    have same := bits_putBits_same x j j (if b then 1 else 0)
    rw [Nat.sub_self] at same
    exact same.trans (by cases b <;> rfl)
  · rw [if_neg h]
    have other := bits_putBits_other x (if b then 1 else 0) (hi := k) (lo := k) (hi' := j) (lo' := j) (by omega) (le_refl k) (le_refl j)
    rw [Nat.sub_self] at other
    exact other

theorem ethIndex_lt (i : Nat) : ethIndex i < 4 := Nat.mod_lt _ (by decide)

/-- A field of four bits keeps the low four bits of a value. -/
theorem low_bit (v : Nat) {j : Nat} (hj : j < 4) : v % 2 ^ (7 - 4 + 1) / 2 ^ j % 2 = v / 2 ^ j % 2 := by
  interval_cases j <;> omega

/-- UP of an interface takes the state of its link, and the UP bits of the port's others stay (R549). -/
theorem fld_linkChange (d : Dev) (e : Nat) {k j : Nat} (up an : Bool) (hj : j < 4) :
    (applyAll [setF F.ETH_STATUS_UP e (putBits (d.fld F.ETH_STATUS_UP e) k k (if up then 1 else 0)), setB F.ETH_STATUS_AN_DONE e an] d).fld
      F.ETH_STATUS_UP e / 2 ^ j % 2 = if j = k then (if up then 1 else 0) else d.fld F.ETH_STATUS_UP e / 2 ^ j % 2 := by
  simp (disch := exact of_decide_eq_true rfl) only [applyAll_cons, applyAll_nil, fld_apply_spared]
  rw [fld_setF, low_bit _ hj, bits_setBit]

/-- What decides whether a message of a queue pair goes on the wire. -/
def Dev.besideHeld (d : Dev) : SMap Nat × List Iface × SMap QpSt × Bool := (d.regs, d.svc.ifaces, d.svc.qps, d.svc.silenced)

theorem sends_roceEmit {d : Dev} {q : Nat} {m : RoceMsg} {x : QpEnt} (ent : (d.qp q).ent = some x) (silenced : d.svc.silenced = false)
    (sends : d.ifaceSends x.iface = true) (paused : d.paused x.iface = false) : Msg.roce q m ∈ (runAct (roceEmit q m) d).outbox := by
  rw [runAct_eq, roceEmit, ent]
  simp only [silenced, sends, paused]
  exact sent_of_mem (List.mem_singleton_self _) d

/-- A message held back and then put on the wire changes the rest of the service node no more than a message sent. -/
theorem keeps_roceEmit (q : Nat) (m : RoceMsg) (d : Dev) : Keeps Dev.besideHeld (roceEmit q m d) := by
  unfold roceEmit
  split
  case h_1 => exact keeps_nil
  case h_2 =>
    simp only [keeps_ite, keeps_cons, keeps_nil, and_true]
    exact ⟨fun _ => trivial, fun _ => ⟨fun _ _ => rfl, fun _ _ => rfl⟩⟩

theorem besideHeld_congr {d d' : Dev} (h : d'.besideHeld = d.besideHeld) (q i : Nat) :
    d'.qp q = d.qp q ∧ d'.svc.silenced = d.svc.silenced ∧ d'.ifaceSends i = d.ifaceSends i ∧ d'.paused i = d.paused i := by
  simp only [Dev.besideHeld, Prod.mk.injEq] at h
  obtain ⟨regs, ifaces, qps, silenced⟩ := h
  refine ⟨?_, silenced, ifaceSends_congr regs ifaces i, ?_⟩
  · simp only [Dev.qp, qps]
  · simp only [Dev.paused, Dev.iface, Dev.bit, fld_of_regs regs, ifaces]

/-- The pause of a port is over: RoCE frames are no longer held back (R522). -/
def endPause (e : Nat) : List Upd := [setF F.ETH_STATUS_PFC_RX e 0, .svc fun s => { s with held := s.held.filter fun h => h.1 ≠ e }]

theorem pfcFrame_taken {e prio : Nat} {d : Dev} (h : (d.bit F.ETH_CTL_PFC_EN e && decide (prio = d.fld F.ETH_CTL_PFC_PRIO e)) = true) :
    ¬ (!d.bit F.ETH_CTL_PFC_EN e || decide (prio ≠ d.fld F.ETH_CTL_PFC_PRIO e)) = true := by simpa using h

theorem pfcFrame_other {e prio : Nat} {d : Dev} (h : (d.bit F.ETH_CTL_PFC_EN e && decide (prio = d.fld F.ETH_CTL_PFC_PRIO e)) = false) :
    (!d.bit F.ETH_CTL_PFC_EN e || decide (prio ≠ d.fld F.ETH_CTL_PFC_PRIO e)) = true := by
  rw [decide_not, ← Bool.not_and, h]
  rfl

theorem confined_endPause (e : Nat) : Confined [.regs, .svc] [.ETH_STATUS] (endPause e) := by
  simp only [endPause, confined_cons, confined_nil, and_true]
  exact ⟨rfl, rfl⟩

/-- What the end of a pause does: it is over, and what was held back is emitted. -/
theorem confines_pfcEnd (e : Nat) (hs : List (Nat × Nat × RoceMsg)) : Confines [.regs, .svc, .outbox] [.ETH_STATUS]
    (inSequence [fun _ => endPause e, forEach (fun h => roceEmit h.2.1 h.2.2) hs]) :=
  confines_inSequence_cons (as := [_]) (fun _ => (confined_endPause e).mono (by decide) fun _ h => h)
    (confines_inSequence_cons (as := []) (Confines.forEach fun h _ => (confines_roceEmit h.2.1 h.2.2).mono (by decide) (by decide)) Confines.nil)

theorem pfcEnd_unpaused (e : Nat) (hs : List (Nat × Nat × RoceMsg)) (d : Dev) :
    (runAct (inSequence [fun _ => endPause e, forEach (fun h => roceEmit h.2.1 h.2.2) hs]) d).fld F.ETH_STATUS_PFC_RX e = 0 := by
  rw [runAct_two, runAct_list, (Confines.forEach fun h _ => confines_roceEmit h.2.1 h.2.2).fld _ (by decide)]
  exact fld_setF d F.ETH_STATUS_PFC_RX e 0

/-- What a pause held back goes out at its end (R522). -/
theorem sent_pfcEnd {e : Nat} {d : Dev} {h : Nat × Nat × RoceMsg} (held : h ∈ d.svc.held) (port : h.1 = e) {x : QpEnt} (ent : (d.qp h.2.1).ent = some x)
    (same : ethPort x.iface = e) (silenced : d.svc.silenced = false) (sends : d.ifaceSends x.iface = true) :
    Msg.roce h.2.1 h.2.2 ∈ (runAct (inSequence [fun _ => endPause e,
      forEach (fun h => roceEmit h.2.1 h.2.2) (d.svc.held.filter fun h => h.1 = e)]) d).outbox := by
  rw [runAct_two, runAct_list]
  have listed : h ∈ d.svc.held.filter fun h => h.1 = e := List.mem_filter.2 ⟨held, decide_eq_true port⟩
  generalize d.svc.held.filter (fun h => h.1 = e) = hs at listed
  have up : ((setF F.ETH_STATUS_PFC_RX e 0).apply d).ifaceSends x.iface = d.ifaceSends x.iface := by
    simp (disch := exact of_decide_eq_true rfl) only [Dev.ifaceSends, Dev.ifaceExists, Dev.iface, Dev.bit, fld_apply_spared, keep_svc]
  have unpaused : (applyAll (endPause e) d).paused x.iface = false := by
    have : (applyAll (endPause e) d).fld F.ETH_STATUS_PFC_RX e = 0 := fld_setF d F.ETH_STATUS_PFC_RX e 0
    simp only [Dev.paused, Dev.bit, same, this]
    simp
  refine sent_forEach (I := fun d' => d'.besideHeld = (applyAll (endPause e) d).besideHeld) (fun y _ d' hd => ?_) listed (fun d' hd => ?_) rfl
  · rw [runAct_eq]
    exact ((keeps_roceEmit _ _ d').eq d').trans hd
  · obtain ⟨qp, sil, snd, psd⟩ := besideHeld_congr hd h.2.1 x.iface
    exact sends_roceEmit ((congrArg QpSt.ent qp).trans ent) (sil.trans silenced) ((snd.trans up).trans sends) (psd.trans unpaused)

/-- Settles O50: each frame is dropped, kept, answered with one frame, or ends a pause. -/
theorem ethernetFramesAreTaken : Obligations.EthernetFramesAreTaken := by
  intro s i e prio a nd ec tlvs up hs none_ dropped sends
  refine ⟨completes_dropped rfl hs rfl, fun free => ?_, fun x used => ?_, ?_, ?_⟩
  · refine ⟨completes_dropped rfl hs ?_, completes_dropped rfl hs ?_, completes_dropped rfl hs ?_, completes_dropped rfl hs ?_,
      completes_quiet rfl hs ?_⟩
    · simp only [arpReceiveAct, free, dropFrame]
    · simp only [neighbourDiscoveryReceiveAct, free, dropFrame]
    · simp only [icmpEchoReceiveAct, free, dropFrame]
    · rw [lldpReceiveAct, free]
      rfl
    · simp only [lldpSendAct, free]
  · intro mineA peerA mineN from_ own mineE
    refine ⟨fun other stranger => completes_dropped rfl hs ?_, fun concerns => ?_, fun other stranger => completes_dropped rfl hs ?_, fun concerns => ?_,
      fun other => completes_dropped rfl hs ?_, fun own_ => completes_ethSend rfl hs ?_, ?_, completes_ethSend rfl hs ?_⟩
    · unfold arpReceiveAct
      simp only [used]
      exact if_pos (neither other stranger)
    · refine (completes_learns (peer := peerA) (answers := mineA && !a.isReply) (f := .arp ⟨true, x.mac, x.ipv4, a.senderIp⟩) rfl hs ?_).imp
        fun d ⟨regs, learnt, answer⟩ => ⟨regs, learnt, fun mine request => answer (by rw [mine, request]; rfl)⟩
      unfold arpReceiveAct
      simp only [used]
      exact if_neg (either concerns)
    · unfold neighbourDiscoveryReceiveAct
      simp only [used]
      exact if_pos (neither other stranger)
    · refine completes_learns (peer := s.dev.isPeer i from_) (answers := mineN) rfl hs ?_
      unfold neighbourDiscoveryReceiveAct
      simp only [used]
      exact if_neg (either concerns)
    · unfold icmpEchoReceiveAct
      simp only [used]
      exact if_neg (by change ¬ mineE = true; simp [other])
    · unfold icmpEchoReceiveAct
      simp only [used]
      exact if_pos own_
    · have confined : Confined [.svc] [] [.svc fun s => { s with lldp := mapSet (fun _ => []) i.val tlvs s.lldp }] := by
        simp only [confined_cons, confined_nil, and_true]
        rfl
      refine completes_does rfl hs (if_pos (by rw [used]; rfl)) confined (by decide) fun d q => ⟨?_, q.regsBut (confined.regsBut _ (by decide))⟩
      rw [q.svc]
      exact mapGet_mapSet_same ..
    · simp only [lldpSendAct, used]
  · intro may
    refine ⟨fun off => completes_quiet rfl hs (if_pos ?_), fun on => ?_⟩
    · rw [← Bool.not_and, Bool.not_eq_true']
      exact off
    · have confined (v : Nat) (an : Bool) : Confined [.regs] [.ETH_STATUS]
          [setF F.ETH_STATUS_UP (ethPort i) v, setB F.ETH_STATUS_AN_DONE (ethPort i) an] := by
        simp only [confined_cons, confined_nil, and_true]
        exact ⟨rfl, rfl⟩
      refine completes_does rfl hs (if_neg ?_) (confined _ _) (by decide) fun d q => ⟨?_, ?_, fun j hj other => ?_⟩
      · rw [← Bool.not_and, Bool.not_eq_true', Bool.not_eq_false]
        exact on
      · exact q.wrote (((confined _ _).mono (by decide) fun _ h => h).wrote _ (by decide))
      · rw [q.fld rfl, fld_linkChange _ _ _ _ (ethIndex_lt i), if_pos rfl]
      · rw [q.fld rfl, fld_linkChange _ _ _ _ hj, if_neg other]
  · intro takes held
    refine ⟨fun no b => ?_, fun yes => ?_, fun yes => ?_⟩
    · exact completes_dropped rfl hs (if_pos (pfcFrame_other no))
    · have confined : Confined [.regs] [.ETH_STATUS] [setF F.ETH_STATUS_PFC_RX e 1] := by
        simp only [confined_cons, confined_nil, and_true]
        rfl
      refine completes_does rfl hs ((if_neg (pfcFrame_taken yes)).trans (if_pos rfl)) confined (by decide) fun d q => ⟨?_, ?_⟩
      · exact (q.fld rfl _).trans (fld_setF ..)
      · exact q.wrote ((confined.mono (by decide) fun _ h => h).wrote _ (by decide))
    · have confined := confines_pfcEnd e (s.dev.svc.held.filter fun h => h.1 = e)
      refine completes_does rfl hs ((if_neg (pfcFrame_taken yes)).trans (if_neg Bool.false_ne_true)) (confined s.dev) (by decide)
        fun d q => ⟨?_, q.regsBut ((confined s.dev).regsBut _ (by decide)), fun h held port x ent same silenced sends => ?_⟩
      · rw [q.fld rfl, ← runAct_eq]
        exact pfcEnd_unpaused ..
      · rw [← runAct_eq] at q
        exact q.sent.subset (sent_pfcEnd held port ent same silenced sends)

end Sys2Proof.Machine
end

