-- ==== Sys2Proof/Proofs/QueuePairs.lean ====
section
/-! PROOFS. Queue pairs: requests in PSN order, responses, acknowledgements, retries and congestion (R519–R521, R524, R525). -/

namespace Sys2Proof.Machine

theorem qp_onQp (d : Dev) (q j : Nat) (g : QpSt → QpSt) : ((onQp q g).apply d).qp j = if j = q then g (d.qp q) else d.qp j :=
  mapGet_mapSet ..

theorem qp_onQp_same (d : Dev) (q : Nat) (g : QpSt → QpSt) : ((onQp q g).apply d).qp q = g (d.qp q) := mapGet_mapSet_same ..

theorem waitAt_onQp (d : Dev) (q : Nat) (g : QpSt → QpSt) : ((onQp q g).apply d).svc.waitAt = d.svc.waitAt := rfl

theorem fld_onQp (d : Dev) (q : Nat) (g : QpSt → QpSt) (f : Fld) (i : Nat) : ((onQp q g).apply d).fld f i = d.fld f i := fld_of_regs rfl f i

theorem confined_flagSvc {bit : Fld} (h : bit.reg = .SVC_ERR) : Confined [.regs] [.SVC_ERR] (flagSvc bit) := by
  simp [flagSvc, flagFault, setF, satF, Upd.confined, Upd.touches, Upd.writes, h]

theorem qp_of_qps {d d' : Dev} (h : d'.svc.qps = d.svc.qps) (j : Nat) : d'.qp j = d.qp j := by simp only [Dev.qp, h]

theorem Confines.svc {ps : List Part} {rs : List Reg} {a : Act} (h : Confines ps rs a) (d : Dev) (hp : Part.svc ∉ ps) : (runAct a d).svc = d.svc := by
  rw [runAct_eq, keepAll_svc d ((h d).leaves hp)]

theorem runAct_congr {a a' : Act} {d : Dev} (h : a d = a' d) : runAct a d = runAct a' d := by rw [runAct_eq, h, runAct_eq]

/-- What is not held back of a message leaves the queue pairs and the waiting lists. -/
theorem keeps_roceEmit_beside (q : Nat) (m : RoceMsg) (d : Dev) : Keeps (fun d => (d.svc.qps, d.svc.waitAt)) (roceEmit q m d) := by
  unfold roceEmit
  split
  case h_1 => exact keeps_nil
  case h_2 =>
    simp only [keeps_ite, keeps_cons, keeps_nil, and_true]
    exact ⟨fun _ => trivial, fun _ => ⟨fun _ _ => rfl, fun _ _ => rfl⟩⟩

/-! ### A queue pair in ERROR (R524, R541) -/

/-- Queue pair `q` is in ERROR with nothing sent; the others are in the states of `d`, and the same lists wait for records. -/
def Failed (q : Nat) (d e : Dev) : Prop :=
  (e.qp q).st = .error ∧ (e.qp q).sent = [] ∧ (∀ j, j ≠ q → (e.qp j).st = (d.qp j).st) ∧ e.svc.waitAt = d.svc.waitAt

section failed
variable {q : Nat} {d : Dev}

theorem Failed.of_qps {e e' : Dev} (h : Failed q d e) (qps : e'.svc.qps = e.svc.qps) (waitAt : e'.svc.waitAt = e.svc.waitAt) : Failed q d e' := by
  obtain ⟨st, sent, others, wait⟩ := h
  refine ⟨?_, ?_, fun j hj => ?_, waitAt.trans wait⟩
  · rw [qp_of_qps qps, st]
  · rw [qp_of_qps qps, sent]
  · rw [qp_of_qps qps, others j hj]

/-- An update of another queue pair, or of `q` beside what it sent, that keeps the state. -/
theorem Failed.onQp {e : Dev} (h : Failed q d e) {j : Nat} {g : QpSt → QpSt} (st : ∀ s, (g s).st = s.st) (sent : j = q → ∀ s, (g s).sent = s.sent) :
    Failed q d ((onQp j g).apply e) := by
  obtain ⟨stq, sentq, others, wait⟩ := h
  refine ⟨?_, ?_, fun k hk => ?_, wait⟩
  · rw [qp_onQp]
    split
    · subst_vars; exact (st _).trans stq
    · exact stq
  · rw [qp_onQp]
    split
    · subst_vars; exact (sent rfl _).trans sentq
    · exact sentq
  · rw [qp_onQp]
    split
    · subst_vars; exact (st _).trans (others _ hk)
    · exact others k hk

theorem failed_confines {ps : List Part} {rs : List Reg} {a : Act} (h : Confines ps rs a) (hp : Part.svc ∉ ps) : Invariant (Failed q d) a := fun e he =>
  he.of_qps (congrArg SvcSt.qps (h.svc e hp)) (congrArg SvcSt.waitAt (h.svc e hp))

theorem failed_roceEmit (j : Nat) (m : RoceMsg) : Invariant (Failed q d) (roceEmit j m) := fun e he => by
  rw [runAct_eq]
  obtain ⟨qps, waitAt⟩ := Prod.mk.inj ((keeps_roceEmit_beside j m e).eq e)
  exact he.of_qps qps waitAt

theorem failed_onQp {j : Nat} {g : Dev → QpSt → QpSt} (st : ∀ e s, (g e s).st = s.st) (sent : j = q → ∀ e s, (g e s).sent = s.sent) :
    Invariant (Failed q d) fun e => [Machine.onQp j (g e)] := fun e he => by
  rw [runAct_eq, applyAll_cons, applyAll_nil]
  exact he.onQp (st e) fun hj => sent hj e

theorem failed_rocePost (j : Nat) (f : Nat → RoceMsg) (pull : Option Pull) (export_ : Option Nat) : Invariant (Failed q d) (rocePost j f pull export_) := by
  intro e he
  rw [runAct_eq]
  unfold rocePost
  dsimp only
  split
  case h_1 => exact he
  case h_2 =>
    split
    case isTrue => exact he
    case isFalse ready =>
      have other : j ≠ q := fun hj => ready (by rw [hj, he.1]; decide)
      rw [← runAct_eq]
      refine Invariant.cons (failed_onQp ?_ ?_) (Invariant.cons (failed_roceEmit _ _) Invariant.nil) e he
      · exact fun _ _ => rfl
      · exact fun hj => absurd hj other

theorem failed_writeEntry (j i : Nat) (x : QpEnt) : Invariant (Failed q d) (writeEntry j i x) := by
  intro e he
  rw [runAct_eq]
  unfold writeEntry
  dsimp only
  split
  · exact he
  · rw [← runAct_eq]
    refine Invariant.cons (failed_onQp ?_ ?_) (Invariant.cons (failed_confines (confines_writeHbm _ _ _) (by decide))
      (Invariant.cons (failed_rocePost _ _ _ _) Invariant.nil)) e he
    · exact fun _ _ => rfl
    · exact fun _ _ _ => rfl

theorem failed_pumpQp (j n : Nat) : Invariant (Failed q d) (pumpQp j n) := by
  induction n with
  | zero => exact fun _ he => he
  | succ n ih =>
    intro e he
    rw [runAct_eq]
    unfold pumpQp
    dsimp only
    split
    · split
      · rw [← runAct_eq]
        exact Invariant.cons (failed_writeEntry _ _ _) (Invariant.cons ih Invariant.nil) e he
      · exact he
    · exact he

theorem failed_pumpAll (j : Nat) : Invariant (Failed q d) fun e => pumpQp j (e.qp j).backlog.length e := by
  intro e he
  rw [runAct_eq, ← runAct_eq (pumpQp _ _)]
  exact failed_pumpQp j _ e he

theorem failed_queueEntry (j kind : Nat) (body : List Byte) : Invariant (Failed q d) (queueEntry j kind body) := by
  intro e he
  rw [runAct_eq]
  unfold queueEntry
  split
  · rw [← runAct_eq]
    refine Invariant.cons (failed_onQp ?_ ?_) (Invariant.cons (failed_pumpAll j) Invariant.nil) e he
    · intros; rfl
    · intros; rfl
  · exact failed_confines (a := fun _ => [satF F.SVC_CNT_UNDELIVERED 0 1]) (ps := [.regs]) (rs := [.SVC_CNT]) (fun _ => by simp [Upd.confined]; decide) (by decide) e he

theorem failed_recordOut (it : Item) (handle status step reason : Nat) (tail : List Byte) (gcnt : BitVec 64) :
    Invariant (Failed q d) (recordOut it handle status step reason tail gcnt) := by
  intro e he
  rw [runAct_eq]
  unfold recordOut
  dsimp only
  split
  · split
    · rw [← runAct_eq, runAct_two, runAct_const]
      exact failed_queueEntry _ _ _ _ he
    · exact he
  · split
    · exact failed_queueEntry _ _ _ e he
    · exact he
  · exact failed_confines (a := fun _ => [.event 1 (recordBytes it status step gcnt)]) (ps := [.regs, .chain, .outbox]) (rs := modeRegs)
      (fun _ => by simp only [confined_cons, confined_nil, and_true]; rfl) (by decide) e he

theorem failed_releaseWith (handle : Nat) (pkey : BitVec 12) (status step reason : Nat) (tail : List Byte) :
    Invariant (Failed q d) (releaseWith handle pkey status step reason tail) := by
  intro e he
  rw [runAct_eq, releaseWith_eq]
  split
  · exact he
  · rw [← runAct_eq]
    refine Invariant.cons (failed_confines (ps := [.commit, .regs]) (rs := [.DET_STATUS]) (fun e => ?_) (by decide)) (Invariant.cons (failed_recordOut _ _ _ _ _ _ _) Invariant.nil) e he
    simp only [flagDet, flagFault, confined_append, confined_ite, confined_cons, confined_nil, and_true, implies_true]
    exact ⟨rfl, fun _ => ⟨rfl, rfl⟩⟩

/-- A job whose data is pulled over a queue pair in error ends, which its own bit records (R541). -/
def failJob (bit : Fld) (h : Nat) : Act := fun _ => [endJob h (qpFailure bit)] ++ flagSvc F.SVC_ERR_PULL

theorem failJob_run (bit : Fld) (h : Nat) (d : Dev) :
    runAct (failJob bit h) d = applyAll (flagSvc F.SVC_ERR_PULL) ((endJob h (qpFailure bit)).apply d) := by
  rw [runAct_eq, failJob, applyAll_append, applyAll_cons, applyAll_nil]

/-- What is held back of a queue pair in error, and its exports, are dropped. -/
def dropTransfers (q : Nat) : Act := fun _ =>
  [.svc fun s => { s with held := s.held.filter fun h => h.2.1 ≠ q, exports := s.exports.filter fun x => x.qp ≠ q }]

theorem confines_dropTransfers (q : Nat) : Confines [.svc] [] (dropTransfers q) := fun _ => by
  simp only [dropTransfers, confined_cons, confined_nil, and_true]
  rfl

theorem failed_dropTransfers (j : Nat) : Invariant (Failed q d) (dropTransfers j) := fun e he => by
  rw [runAct_eq, dropTransfers, applyAll_cons, applyAll_nil]
  generalize hs : Upd.svc _ = u
  refine he.of_qps ?_ ?_
  · rw [← hs, svc_apply_svc]
  · rw [← hs, svc_apply_svc]

/-- An export over a queue pair in error ends (R542). -/
def failExport (bit : Fld) (x : ExportSt) : Act := fun d => releaseWith x.handle x.pkey (qpFailure bit)
  (((d.sliceOf x.pkey).map fun i => (d.slice i).committedWord).getD 0) 255 (leBytes 24 0) d

theorem failExport_run (bit : Fld) (x : ExportSt) (d : Dev) : ∃ step,
    runAct (failExport bit x) d = runAct (releaseWith x.handle x.pkey (qpFailure bit) step 255 (leBytes 24 0)) d := ⟨_, by rw [runAct_eq, failExport, runAct_eq]⟩

/-- What follows once a queue pair has entered ERROR: its jobs and exports end (R541, R542). -/
def endTransfers (q : Nat) (bit : Fld) (pulls : List Nat) (exports : List ExportSt) : Act := inSequence [
    dropTransfers q,
    forEach (failJob bit) pulls,
    forEach (failExport bit) exports]

/-- Queue pair `q` enters ERROR with an error bit. -/
def enterError (q : Nat) (bit : Fld) : List Upd := flagSvc bit ++ [Machine.onQp q fun s => { s with st := .error, sent := [], rxVa := none }]

/-- What holds once a queue pair has entered ERROR, and what follows keeps, holds of its error. -/
theorem qpError_leaves {q : Nat} {bit : Fld} {I : Dev → Prop} (ends : ∀ pulls exports, Invariant I (endTransfers q bit pulls exports)) {d : Dev}
    (enters : I (applyAll (enterError q bit) d)) : I (runAct (qpError q bit) d) := by
  rw [runAct_eq]
  unfold qpError
  dsimp only
  rw [← runAct_eq, runAct_inSequence_cons, runAct_const]
  exact ends _ _ _ enters

/-- The parts and registers that the error of a queue pair may change. -/
def errorRegs : List Reg := .SVC_ERR :: recordRegs

theorem confines_endTransfers (q : Nat) (bit : Fld) (pulls : List Nat) (exports : List ExportSt) :
    Confines recordParts errorRegs (endTransfers q bit pulls exports) := by
  refine confines_inSequence_cons ((confines_dropTransfers q).mono (by decide) (by decide)) (confines_inSequence_cons (Confines.forEach fun h _ d => ?_)
    (confines_inSequence_cons (as := []) (Confines.forEach fun x _ d => (confines_releaseWith _ _ _ _ _ _ d).mono (by decide) (by decide)) Confines.nil))
  · simp only [failJob, flagSvc, flagFault, confined_append, confined_cons, confined_nil, and_true]
    exact ⟨rfl, rfl, rfl⟩

theorem failed_failJob (bit : Fld) (h : Nat) : Invariant (Failed q d) (failJob bit h) := fun e he => by
  rw [failJob_run]
  refine failed_confines (a := fun _ => flagSvc F.SVC_ERR_PULL) (fun _ => confined_flagSvc rfl) (by decide) _ (he.of_qps ?_ ?_)
  · rw [endJob, onJob, svc_apply_svc]
  · rw [endJob, onJob, svc_apply_svc]

theorem failed_endTransfers (bit : Fld) (pulls : List Nat) (exports : List ExportSt) : Invariant (Failed q d) (endTransfers q bit pulls exports) := by
  unfold endTransfers
  refine Invariant.cons (failed_dropTransfers q) (Invariant.cons ?_ (Invariant.cons ?_ Invariant.nil))
  · exact Invariant.forEach fun h _ => failed_failJob bit h
  · refine Invariant.forEach fun x _ e he => ?_
    obtain ⟨step, h⟩ := failExport_run bit x e
    rw [h]
    exact failed_releaseWith _ _ _ _ _ _ e he

/-- The error bits of queue pairs (R524, R525). -/
def qpBits : List Fld := [F.SVC_ERR_INVALID, F.SVC_ERR_TAIL, F.SVC_ERR_ACCESS, F.SVC_ERR_RETRY]

theorem qpBits_reg {bit : Fld} (hb : bit ∈ qpBits) : bit.reg = .SVC_ERR := (by decide : ∀ f ∈ qpBits, f.reg = .SVC_ERR) bit hb

/-- An error bit of a queue pair is another than the one of its jobs. -/
theorem set_flagPull {bit : Fld} (hb : bit ∈ qpBits) (d : Dev) : (applyAll (flagSvc F.SVC_ERR_PULL) d).fld bit 0 = d.fld bit 0 := by
  have spared : ∀ u ∈ flagSvc F.SVC_ERR_PULL, bit.spared u = true := by
    have := (by decide : ∀ f ∈ qpBits, F.SVC_ERR_PULL.apart f = true ∧ F.SVC_ERR_FAULTS.apart f = true) bit hb
    simpa [flagSvc, flagFault, Fld.spared, setF, satF] using this
  simp only [flagSvc, flagFault, List.mem_cons, List.not_mem_nil, or_false, forall_eq_or_imp, forall_eq] at spared
  obtain ⟨pull, faults⟩ := spared
  rw [flagSvc, flagFault, applyAll_cons, applyAll_cons, applyAll_nil, fld_apply_spared faults, fld_apply_spared pull]

theorem set_endTransfers {bit : Fld} (hb : bit ∈ qpBits) (pulls : List Nat) (exports : List ExportSt) :
    Invariant (fun e => e.fld bit 0 = 1) (endTransfers q bit pulls exports) := by
  unfold endTransfers
  refine Invariant.cons ?_ (Invariant.cons (Invariant.forEach fun h _ => ?_) (Invariant.cons (Invariant.forEach fun x _ => ?_) Invariant.nil))
  · exact fun e he => ((confines_dropTransfers q).fld e List.not_mem_nil 0).trans he
  · intro e he
    rw [failJob_run, set_flagPull hb, endJob, onJob, fld_of_regs rfl]
    exact he
  · intro e he
    obtain ⟨step, h⟩ := failExport_run bit x e
    rw [h]
    exact ((confines_releaseWith _ _ _ _ _ _).fld e (by rw [qpBits_reg hb]; decide) 0).trans he

/-- The error of a queue pair: it is in ERROR with nothing sent, and its bit is set (R524). -/
theorem qpError_reads {bit : Fld} (hb : bit ∈ qpBits) (d : Dev) :
    Failed q d (runAct (qpError q bit) d) ∧ (runAct (qpError q bit) d).fld bit 0 = 1 := by
  have bits := (by decide : ∀ f ∈ qpBits, (F.SVC_ERR_FAULTS.hi < f.lo ∨ f.hi < F.SVC_ERR_FAULTS.lo) ∧
    F.SVC_ERR_FAULTS.lo ≤ F.SVC_ERR_FAULTS.hi ∧ f.lo ≤ f.hi) bit hb
  refine ⟨qpError_leaves (failed_endTransfers bit) ?_, qpError_leaves (I := fun e => e.fld bit 0 = 1) (set_endTransfers hb) ?_⟩
  · rw [enterError, applyAll_append, applyAll_cons, applyAll_nil]
    have same : (applyAll (flagSvc bit) d).svc = d.svc := keepAll_svc d ((confined_flagSvc (qpBits_reg hb)).leaves (by decide))
    refine ⟨?_, ?_, fun j hj => ?_, ?_⟩
    · rw [qp_onQp_same]
    · rw [qp_onQp_same]
    · rw [qp_onQp, if_neg hj, qp_of_qps (congrArg SvcSt.qps same)]
    · exact (waitAt_onQp ..).trans (congrArg SvcSt.waitAt same)
  · rw [enterError, applyAll_append, applyAll_cons, applyAll_nil]
    have set := (fld_flagFault (bit := bit) (faults := F.SVC_ERR_FAULTS) d 0 (top := 4294967295) (by decide) bits).1
    exact (fld_onQp ..).trans set

theorem confines_qpError {bit : Fld} (hb : bit ∈ qpBits) : Confines recordParts errorRegs (qpError q bit) := by
  intro d
  unfold qpError
  dsimp only
  refine confines_inSequence_cons (fun _ => ?_) (fun d => ?_) d
  · simp only [confined_append, confined_cons, confined_nil, and_true]
    exact ⟨(confined_flagSvc (qpBits_reg hb)).mono (by decide) (by decide), rfl⟩
  · exact confines_endTransfers q bit _ _ d

end failed

/-- Queue pair `q` is in ERROR with the bit set, and the states of the others are as before. -/
def Errored (q : Nat) (bit : Fld) (d e : Dev) : Prop :=
  (e.qp q).st = .error ∧ (e.qp q).sent = [] ∧ e.fld bit 0 = 1 ∧ ∀ j, j ≠ q → (e.qp j).st = (d.qp j).st

/-- The error of a queue pair, once the pairs are as they were. -/
theorem errored_of_qps {q : Nat} {bit : Fld} (hb : bit ∈ qpBits) {d e : Dev} (qps : e.svc.qps = d.svc.qps) :
    Errored q bit d (runAct (qpError q bit) e) := by
  obtain ⟨⟨st, sent, others, _⟩, set⟩ := qpError_reads (q := q) hb e
  exact ⟨st, sent, set, fun j hj => (others j hj).trans (congrArg QpSt.st (qp_of_qps qps j))⟩

theorem completes_errored {ins : Instr} {s : State} {act : Act} {us : List Upd} {q : Nat} {bit : Fld} (hb : bit ∈ qpBits)
    (he : exec ins s = perform (onPower act) s) (hs : s.dev.steady) (ha : act s.dev = us) (hc : Confined recordParts errorRegs us)
    (h : Errored q bit s.dev (applyAll us s.dev)) : Completes ins s (Errored q bit s.dev) := by
  obtain ⟨st, sent, set, others⟩ := h
  refine completes_does he hs ha hc (by decide) fun d same => ?_
  have qps (j : Nat) := qp_of_qps (congrArg SvcSt.qps same.svc) j
  refine ⟨?_, ?_, ?_, fun j hj => ?_⟩
  · rw [qps, st]
  · rw [qps, sent]
  · rw [same.fld (by rw [qpBits_reg hb]; rfl), set]
  · rw [qps, others j hj]

/-! ### Requests in PSN order (R520) -/

theorem inSequence_skip {a : Act} {as : List Act} {d : Dev} (h : a d = []) : inSequence (a :: as) d = inSequence as d := by
  rw [inSequence, h, List.nil_append, applyAll_nil]

theorem inSequence_one (a : Act) (d : Dev) : inSequence [a] d = a d := by
  rw [inSequence, inSequence, List.append_nil]

/-- A packet without CE draws no CNP (R521). -/
theorem notifyQp_calm (q : Nat) (d : Dev) : notifyQp q false d = [] := by
  unfold notifyQp
  dsimp only
  rw [Bool.false_and, if_neg Bool.false_ne_true]

section inOrder
variable {q psn : Nat} {first : Bool} {dup k : Act} {d : Dev} (ready : (d.qp q).st = .ready) (loud : d.svc.silenced = false)
  (taken : (d.qp q).awaitFirst = false)
include ready loud taken

/-- A request in PSN order, ahead of it, or again (R519). -/
theorem inOrder_takes {k' : Act} (order : (match psnOrder (d.qp q).rqPsn psn with
      | .next => k d
      | .again => dup d
      | .ahead => roceEmit q (.nakSequence (d.qp q).rqPsn) d) = k' d) : inOrder q psn first false dup k d = k' d := by
  unfold inOrder
  dsimp only
  rw [if_neg (by rw [ready, loud]; decide), if_neg (by rw [taken]; exact Bool.false_ne_true), inSequence_skip (notifyQp_calm q d),
    inSequence_skip (by rw [taken]; rfl), inSequence_one]
  exact order

theorem inOrder_next (order : psnOrder (d.qp q).rqPsn psn = .next) : inOrder q psn first false dup k d = k d :=
  inOrder_takes ready loud taken (by rw [order])

theorem inOrder_again (order : psnOrder (d.qp q).rqPsn psn = .again) : inOrder q psn first false dup k d = dup d :=
  inOrder_takes ready loud taken (by rw [order])

theorem inOrder_ahead (order : psnOrder (d.qp q).rqPsn psn = .ahead) :
    inOrder q psn first false dup k d = roceEmit q (.nakSequence (d.qp q).rqPsn) d :=
  inOrder_takes ready loud taken (by rw [order])

end inOrder

/-- Whether a message of a queue pair with entry `x` goes on the wire at once. -/
def Dev.speaks (d : Dev) (x : QpEnt) : Bool := !d.svc.silenced && d.ifaceSends x.iface && !d.paused x.iface

theorem sent_roceEmit {d : Dev} {q : Nat} {m : RoceMsg} {x : QpEnt} (ent : (d.qp q).ent = some x) (speaks : d.speaks x = true) :
    Msg.roce q m ∈ (runAct (roceEmit q m) d).outbox := by
  simp only [Dev.speaks, Bool.and_eq_true, Bool.not_eq_true'] at speaks
  obtain ⟨⟨silenced, sends⟩, paused⟩ := speaks
  exact sends_roceEmit ent silenced sends paused

/-- Whether an entry speaks rests on the registers, the interface table and the module's silence. -/
theorem speaks_congr {d d' : Dev} (regs : d'.regs = d.regs) (ifaces : d'.svc.ifaces = d.svc.ifaces) (silenced : d'.svc.silenced = d.svc.silenced)
    (x : QpEnt) : d'.speaks x = d.speaks x := by
  simp only [Dev.speaks, silenced, ifaceSends_congr regs ifaces, Dev.paused, Dev.iface, Dev.bit, fld_of_regs regs, ifaces]

theorem qps_roceEmit (q : Nat) (m : RoceMsg) (d : Dev) : (runAct (roceEmit q m) d).svc.qps = d.svc.qps ∧ (runAct (roceEmit q m) d).svc.waitAt = d.svc.waitAt := by
  rw [runAct_eq]
  exact Prod.mk.inj ((keeps_roceEmit_beside q m d).eq d)

/-- A command that sends one message of a queue pair. -/
theorem completes_emit {ins : Instr} {s : State} {act : Act} {q : Nat} {m : RoceMsg} {x : QpEnt} (he : exec ins s = perform (onPower act) s)
    (hs : s.dev.steady) (ha : act s.dev = roceEmit q m s.dev) (ent : (s.dev.qp q).ent = some x) :
    Completes ins s fun d => (s.dev.speaks x = true → Msg.roce q m ∈ d.outbox) ∧ d.svc.qps = s.dev.svc.qps := by
  refine completes_does he hs ha (confines_roceEmit q m _) (by decide) fun d same => ?_
  rw [← runAct_eq] at same
  exact ⟨fun speaks => same.sent.subset (sent_roceEmit ent speaks), (congrArg SvcSt.qps same.svc).trans (qps_roceEmit q m s.dev).1⟩

/-- While no list waits for records, a WRITE is taken and nothing follows (R496). -/
theorem rdmaWriteReceive_take {q : Nat} {w : RdmaWrite} {d : Dev} (h : (runAct (rdmaWriteTake q w) d).svc.waitAt = []) :
    rdmaWriteReceiveAct q w d = rdmaWriteTake q w d := by
  rw [runAct_eq] at h
  rw [rdmaWriteReceiveAct, inSequence, inSequence, inSequence, retryLists, h]
  exact List.append_nil _

/-- The entries that wait for the client ring go out as far as it has room (R535). -/
def pumpAll (q : Nat) : Act := fun d => pumpQp q (d.qp q).backlog.length d

/-! ### A WRITE that is taken (R519, R525) -/

/-- What the entries of the client ring leave: the PSN and the place of queue pair `q`, the region table, and HBM beyond the header of the
region. -/
structure Pumped (q base : Nat) (d e : Dev) : Prop where
  ent : (e.qp q).ent = (d.qp q).ent
  psn : (e.qp q).rqPsn = (d.qp q).rqPsn
  va : (e.qp q).rxVa = (d.qp q).rxVa
  regions : e.regions = d.regions
  wait : e.svc.waitAt = d.svc.waitAt
  bad : e.hbmBad = d.hbmBad
  hbm : ∀ k, base + 4096 ≤ k → memByte e.hbm k = memByte d.hbm k

section pumped
variable {q base : Nat} {d : Dev}

theorem pumped_roceEmit (j : Nat) (m : RoceMsg) : Invariant (Pumped q base d) (roceEmit j m) := fun e he => by
  obtain ⟨qps, wait⟩ := qps_roceEmit j m e
  have quiet := confines_roceEmit j m
  have same := qp_of_qps qps q
  refine ⟨by rw [same, he.ent], by rw [same, he.psn], by rw [same, he.va], ?_, wait.trans he.wait, ?_, fun k hk => ?_⟩
  · rw [runAct_eq, keepAll_regions _ ((quiet e).leaves (by decide)), he.regions]
  · rw [runAct_eq, keepAll_hbmBad _ ((quiet e).leaves (by decide)), he.bad]
  · rw [quiet.hbm e (by decide), he.hbm k hk]

theorem pumped_onQp {j : Nat} {g : Dev → QpSt → QpSt} (ent : ∀ e s, (g e s).ent = s.ent) (psn : ∀ e s, (g e s).rqPsn = s.rqPsn)
    (va : ∀ e s, (g e s).rxVa = s.rxVa) : Invariant (Pumped q base d) fun e => [onQp j (g e)] := fun e he => by
  rw [runAct_eq, applyAll_cons, applyAll_nil]
  have qp : ((onQp j (g e)).apply e).qp q = if q = j then g e (e.qp j) else e.qp q := qp_onQp ..
  refine ⟨?_, ?_, ?_, he.regions, he.wait, he.bad, he.hbm⟩
  · rw [qp]
    split
    · rw [ent, ← ‹q = j›, he.ent]
    · exact he.ent
  · rw [qp]
    split
    · rw [psn, ← ‹q = j›, he.psn]
    · exact he.psn
  · rw [qp]
    split
    · rw [va, ← ‹q = j›, he.va]
    · exact he.va

theorem pumped_rocePost (j : Nat) (f : Nat → RoceMsg) (pull : Option Pull) (export_ : Option Nat) : Invariant (Pumped q base d) (rocePost j f pull export_) := by
  intro e he
  rw [runAct_eq]
  unfold rocePost
  dsimp only
  split
  · exact he
  · split
    · exact he
    · rw [← runAct_eq]
      refine Invariant.cons (pumped_onQp ?_ ?_ ?_) (Invariant.cons (pumped_roceEmit _ _) Invariant.nil) e he
      · intros; rfl
      · intros; rfl
      · intros; rfl

theorem qpRegion_congr {d e : Dev} (h : e.regions = d.regions) (x : QpEnt) : e.qpRegion x = d.qpRegion x := by
  simp only [Dev.qpRegion, Dev.svcRegion, h]

/-- A write of HBM without bad blocks writes its bytes as far as HBM reaches (R203). -/
theorem hbm_writeHbm {e : Dev} (bad : e.hbmBad = []) (a : Nat) (bs : List Byte) :
    (runAct (writeHbm a bs false) e).hbm = if bs.length = 0 then e.hbm else memWrite e.hbm a (bs.take (hbmSize - a)) := by
  rw [runAct_eq]
  unfold writeHbm
  dsimp only
  rw [bad]
  by_cases none_ : bs.length = 0
  · rw [if_pos none_, if_pos none_, applyAll_nil]
  · rw [if_neg none_, if_neg none_]
    simp only [List.filter_nil, List.isEmpty_nil, if_true, List.append_nil, Bool.false_eq_true, if_false]
    rw [applyAll_append, applyAll_cons, applyAll_nil]
    split
    · rw [applyAll_cons, applyAll_nil, keep_hbm (.hbmMarks (unmark a bs.length)) _ (by simp [Upd.touches])]
      rfl
    · rfl

theorem bad_writeHbm {e : Dev} (bad : e.hbmBad = []) (a : Nat) (bs : List Byte) (mark : Bool) : (runAct (writeHbm a bs mark) e).hbmBad = [] := by
  rw [runAct_eq]
  unfold writeHbm
  dsimp only
  rw [bad]
  simp only [List.filter_nil, List.isEmpty_nil, if_true, List.append_nil]
  split
  · exact bad
  · rw [applyAll_append, applyAll_cons, applyAll_nil]
    split
    · rw [applyAll_cons, applyAll_nil]
      exact bad
    · split
      · rw [applyAll_cons, applyAll_nil]
        exact bad
      · exact bad

/-- A write below an address leaves the bytes from there on. -/
theorem pumped_writeHbm {a : Nat} {bs : List Byte} (low : a + bs.length ≤ base + 4096) (noBad : d.hbmBad = []) : Invariant (Pumped q base d) (writeHbm a bs false) := by
  intro e he
  have bad : e.hbmBad = [] := he.bad.trans noBad
  have quiet := confines_writeHbm a bs false
  have svc := quiet.svc e (by decide)
  have same := qp_of_qps (congrArg SvcSt.qps svc) q
  refine ⟨by rw [same, he.ent], by rw [same, he.psn], by rw [same, he.va], ?_, (congrArg SvcSt.waitAt svc).trans he.wait, ?_, fun k hk => ?_⟩
  · rw [runAct_eq, keepAll_regions _ ((quiet e).leaves (by decide)), he.regions]
  · rw [bad_writeHbm bad, noBad]
  · rw [hbm_writeHbm bad, ← he.hbm k hk]
    split
    · rfl
    · refine memByte_memWrite_other _ _ _ _ (.inr ?_)
      rw [List.length_take]
      omega

theorem pumped_writeEntry {x : QpEnt} (hx : d.qpRegion x = base) (noBad : d.hbmBad = []) (j i : Nat) : Invariant (Pumped q base d) (writeEntry j i x) := by
  intro e he
  rw [runAct_eq]
  unfold writeEntry
  dsimp only
  split
  · exact he
  · rw [← runAct_eq, qpRegion_congr he.regions x, hx]
    refine Invariant.cons (pumped_onQp ?_ ?_ ?_) (Invariant.cons (pumped_writeHbm ?_ noBad) (Invariant.cons (pumped_rocePost _ _ _ _) Invariant.nil)) e he
    · intros; rfl
    · intros; rfl
    · intros; rfl
    · rw [length_leBytes]
      omega

theorem pumped_pumpQp {x : QpEnt} (ent : (d.qp q).ent = some x) (hx : d.qpRegion x = base) (noBad : d.hbmBad = []) (n : Nat) :
    Invariant (Pumped q base d) (pumpQp q n) := by
  induction n with
  | zero => exact fun _ he => he
  | succ n ih =>
    intro e he
    rw [runAct_eq]
    unfold pumpQp
    dsimp only
    split
    · rename_i x' i ent' _
      obtain rfl : x = x' := Option.some.inj (ent.symm.trans (he.ent.symm.trans ent'))
      split
      · rw [← runAct_eq]
        exact Invariant.cons (pumped_writeEntry hx noBad q i) (Invariant.cons ih Invariant.nil) e he
      · exact he
    · exact he

theorem pumped_pumpAll {x : QpEnt} (ent : (d.qp q).ent = some x) (hx : d.qpRegion x = base) (noBad : d.hbmBad = []) :
    Invariant (Pumped q base d) (pumpAll q) := fun e he => by
  rw [runAct_eq, pumpAll, ← runAct_eq (pumpQp _ _)]
  exact pumped_pumpQp ent hx noBad _ e he

theorem Pumped.refl : Pumped q base d d := ⟨rfl, rfl, rfl, rfl, rfl, rfl, fun _ _ => rfl⟩

end pumped

/-- The place of a WRITE packet: its own address, or where the one before ended (R519). -/
def Dev.placeOf (d : Dev) (q : Nat) (w : RdmaWrite) : Option Nat := if w.first then some w.va.toNat else (d.qp q).rxVa.map Prod.fst

/-- A WRITE packet that does not continue what came before, or is longer than the path MTU (R519). -/
def Dev.misplaced (d : Dev) (q : Nat) (w : RdmaWrite) (x : QpEnt) : Bool :=
  (w.first && (d.qp q).rxVa.isSome) || decide (x.mtu < w.data.length) || (!w.isLast && decide (w.data.length ≠ x.mtu))

/-- A WRITE packet outside the request region, or with another key (R524, R525). -/
def outsideOf (w : RdmaWrite) (x : QpEnt) (v : Nat) : Bool :=
  decide (x.role ≠ 1) || (w.first && decide (w.rkey.toNat ≠ x.localRkey)) || decide (x.regionBytes < v + w.data.length)

/-- A WRITE packet that is taken (R519, R525). -/
def takenWrite (q : Nat) (w : RdmaWrite) (a v : Nat) : Act := inSequence [
  writeHbm a w.data false,
  fun _ => [onQp q fun s => { s with
    rqPsn := (w.psn.toNat + 1) % psnMod, rxVa := if w.isLast then none else some (v + w.data.length, 0) }],
  roceEmit q (.ack w.psn.toNat),
  onlyIf (v = 0 && 8 ≤ w.data.length) (tailWritten q),
  pumpAll q ]

section writes
variable {q : Nat} {w : RdmaWrite} {d : Dev} {x : QpEnt} (ready : (d.qp q).st = .ready) (loud : d.svc.silenced = false)
  (taken : (d.qp q).awaitFirst = false) (calm : w.ce = false)
include ready loud taken calm

theorem rdmaWriteTake_ahead (order : psnOrder (d.qp q).rqPsn w.psn.toNat = .ahead) :
    rdmaWriteTake q w d = roceEmit q (.nakSequence (d.qp q).rqPsn) d := by
  rw [rdmaWriteTake, calm]
  exact inOrder_ahead ready loud taken order

theorem rdmaWriteTake_again (order : psnOrder (d.qp q).rqPsn w.psn.toNat = .again) :
    rdmaWriteTake q w d = roceEmit q (.ack ((d.qp q).rqPsn + psnMod - 1)) d := by
  rw [rdmaWriteTake, calm]
  exact inOrder_again ready loud taken order

variable (order : psnOrder (d.qp q).rqPsn w.psn.toNat = .next) (ent : (d.qp q).ent = some x)
include order ent

theorem rdmaWriteTake_invalid (bad : d.placeOf q w = none ∨ d.misplaced q w x = true) : rdmaWriteTake q w d = nakInvalid q w.psn.toNat d := by
  rw [rdmaWriteTake, calm]
  refine (inOrder_next ready loud taken order).trans ?_
  dsimp only
  rw [ent]
  dsimp only
  split
  · rfl
  · rename_i v place
    exact if_pos (bad.resolve_left fun none_ => nomatch none_.symm.trans place)

theorem rdmaWriteTake_outside {v : Nat} (place : d.placeOf q w = some v) (placed : d.misplaced q w x = false) (outside : outsideOf w x v = true) :
    rdmaWriteTake q w d = nakAccess q w.psn.toNat d := by
  rw [rdmaWriteTake, calm]
  refine (inOrder_next ready loud taken order).trans ?_
  dsimp only
  rw [ent]
  dsimp only
  split
  · rename_i none_
    exact nomatch none_.symm.trans place
  · rename_i v' place'
    obtain rfl : v' = v := Option.some.inj (place'.symm.trans place)
    exact (if_neg (Bool.not_eq_true _ ▸ placed)).trans (if_pos outside)

theorem rdmaWriteTake_taken {v : Nat} (place : d.placeOf q w = some v) (placed : d.misplaced q w x = false) (inside : outsideOf w x v = false) :
    rdmaWriteTake q w d = takenWrite q w (d.qpRegion x + v) v d := by
  rw [rdmaWriteTake, calm]
  refine (inOrder_next ready loud taken order).trans ?_
  dsimp only
  rw [ent]
  dsimp only
  split
  · rename_i none_
    exact nomatch none_.symm.trans place
  · rename_i v' place'
    obtain rfl : v' = v := Option.some.inj (place'.symm.trans place)
    exact (if_neg (Bool.not_eq_true _ ▸ placed)).trans (if_neg (Bool.not_eq_true _ ▸ inside))

end writes

/-- A request that draws a NAK moves its queue pair to ERROR (R519, R524). -/
theorem errored_nak {q : Nat} {bit : Fld} (hb : bit ∈ qpBits) (m : RoceMsg) (d : Dev) :
    Errored q bit d (runAct (inSequence [roceEmit q m, qpError q bit]) d) := by
  rw [runAct_two]
  exact errored_of_qps hb (qps_roceEmit q m d).1

theorem waitAt_nak {q : Nat} {bit : Fld} (hb : bit ∈ qpBits) (m : RoceMsg) (d : Dev) :
    (runAct (inSequence [roceEmit q m, qpError q bit]) d).svc.waitAt = d.svc.waitAt := by
  rw [runAct_two]
  obtain ⟨⟨_, _, _, wait⟩, _⟩ := qpError_reads (q := q) hb (runAct (roceEmit q m) d)
  exact wait.trans (qps_roceEmit q m d).2

theorem confines_nak {q : Nat} {bit : Fld} (hb : bit ∈ qpBits) (m : RoceMsg) : Confines recordParts errorRegs (inSequence [roceEmit q m, qpError q bit]) :=
  confines_inSequence_cons ((confines_roceEmit q m).mono (by decide) (by decide))
    (confines_inSequence_cons (as := []) (confines_qpError hb) Confines.nil)

/-- A WRITE that draws a NAK. -/
theorem completes_nakWrite {s : State} {q : Fin 65536} {w : RdmaWrite} {bit : Fld} (hb : bit ∈ qpBits) {m : RoceMsg} (hs : s.dev.steady)
    (quiet : s.dev.svc.waitAt = []) (ha : rdmaWriteTake q w s.dev = inSequence [roceEmit q m, qpError q bit] s.dev) :
    Completes (.rdmaWriteReceive q w) s (Errored q bit s.dev) := by
  have wait : (runAct (rdmaWriteTake q w) s.dev).svc.waitAt = [] := by rw [runAct_congr ha, waitAt_nak hb, quiet]
  refine completes_errored hb rfl hs ((rdmaWriteReceive_take wait).trans ha) (confines_nak hb m s.dev) ?_
  rw [← runAct_eq]
  exact errored_nak hb m s.dev

/-- A WRITE that draws an answer alone. -/
theorem completes_answerWrite {s : State} {q : Fin 65536} {w : RdmaWrite} {m : RoceMsg} {x : QpEnt} (hs : s.dev.steady)
    (quiet : s.dev.svc.waitAt = []) (ent : (s.dev.qp q).ent = some x) (ha : rdmaWriteTake q w s.dev = roceEmit q m s.dev) :
    Completes (.rdmaWriteReceive q w) s fun d => (s.dev.speaks x = true → Msg.roce q m ∈ d.outbox) ∧ d.svc.qps = s.dev.svc.qps := by
  refine completes_emit rfl hs ((rdmaWriteReceive_take ?_).trans ha) ent
  rw [runAct_congr ha, (qps_roceEmit q m s.dev).2, quiet]

/-- What a WRITE that is taken leaves before its acknowledgement. -/
def writeLeft (q : Nat) (w : RdmaWrite) (a v : Nat) (d : Dev) : Dev :=
  (onQp q fun s => { s with
    rqPsn := (w.psn.toNat + 1) % psnMod, rxVa := if w.isLast then none else some (v + w.data.length, 0) }).apply (runAct (writeHbm a w.data false) d)

theorem takenWrite_run {q : Nat} {w : RdmaWrite} {a v : Nat} (high : v ≠ 0) (d : Dev) :
    runAct (takenWrite q w a v) d = runAct (pumpAll q) (runAct (roceEmit q (.ack w.psn.toNat)) (writeLeft q w a v d)) := by
  have off : (decide (v = 0) && decide (8 ≤ w.data.length)) = false := by rw [decide_eq_false high, Bool.false_and]
  rw [takenWrite, off, runAct_inSequence_cons, runAct_inSequence_cons, runAct_three, runAct_onlyIf_false, runAct_const, applyAll_cons, applyAll_nil,
    writeLeft]

theorem confines_takenWrite {q : Nat} {w : RdmaWrite} {a v : Nat} (high : v ≠ 0) :
    Confines [.svc, .outbox, .hbm, .hbmBad, .hbmMarks] [] (takenWrite q w a v) := by
  have off : (decide (v = 0) && decide (8 ≤ w.data.length)) = false := by rw [decide_eq_false high, Bool.false_and]
  rw [takenWrite, off]
  refine confines_inSequence_cons ((confines_writeHbm _ _ _).mono (by decide) (by decide)) (confines_inSequence_cons (fun d => ?_)
    (confines_inSequence_cons ((confines_roceEmit _ _).mono (by decide) (by decide)) (confines_inSequence_cons (fun d => ?_)
      (confines_inSequence_cons (as := []) (fun d => confines_pumpQp _ _ d) Confines.nil))))
  · simp only [confined_cons, confined_nil, and_true]
    rfl
  · exact confined_nil

theorem writeLeft_reads (q : Nat) (w : RdmaWrite) (a v : Nat) {d : Dev} (bad : d.hbmBad = []) (x : QpEnt) :
    let l := writeLeft q w a v d
    l.qp q = { d.qp q with rqPsn := (w.psn.toNat + 1) % psnMod, rxVa := if w.isLast then none else some (v + w.data.length, 0) } ∧
      l.svc.waitAt = d.svc.waitAt ∧ l.speaks x = d.speaks x ∧ l.regions = d.regions ∧ l.hbmBad = [] ∧
      l.hbm = if w.data.length = 0 then d.hbm else memWrite d.hbm a (w.data.take (hbmSize - a)) := by
  intro l
  have quiet := confines_writeHbm a w.data false
  have svc := quiet.svc d (by decide)
  have regs : l.regs = d.regs := by
    refine (?_ : l.regs = (runAct (writeHbm a w.data false) d).regs).trans ?_
    · rfl
    · rw [runAct_eq, keepAll_regs _ ((quiet d).leaves (by decide))]
  refine ⟨?_, ?_, speaks_congr regs ?_ ?_ x, ?_, ?_, ?_⟩
  · exact (qp_onQp_same ..).trans (by rw [qp_of_qps (congrArg SvcSt.qps svc)])
  · exact (waitAt_onQp ..).trans (congrArg SvcSt.waitAt svc)
  · exact (congrArg SvcSt.ifaces svc :)
  · exact (congrArg SvcSt.silenced svc :)
  · refine (?_ : l.regions = (runAct (writeHbm a w.data false) d).regions).trans ?_
    · rfl
    · rw [runAct_eq, keepAll_regions _ ((quiet d).leaves (by decide))]
  · exact bad_writeHbm bad a w.data false
  · exact hbm_writeHbm bad a w.data

/-- A WRITE that is taken: its bytes stand in the region, the PSN and the place moved on, and it is acknowledged (R519). -/
theorem takenWrite_reads {q : Nat} {w : RdmaWrite} {v : Nat} {d : Dev} {x : QpEnt} (ent : (d.qp q).ent = some x) (high : 4096 ≤ v)
    (bad : d.hbmBad = []) (fits : d.qpRegion x + v + w.data.length ≤ hbmSize) :
    let e := runAct (takenWrite q w (d.qpRegion x + v) v) d
    ((e.qp q).rqPsn = (w.psn.toNat + 1) % psnMod ∧ (e.qp q).rxVa = (if w.isLast then none else some (v + w.data.length, 0)) ∧
      (d.speaks x = true → Msg.roce q (.ack w.psn.toNat) ∈ e.outbox) ∧
      ∀ j, j < w.data.length → memByte e.hbm (d.qpRegion x + v + j) = w.data.getD j 0) ∧ e.svc.waitAt = d.svc.waitAt := by
  intro e
  have quiet := confines_writeHbm (d.qpRegion x + v) w.data false
  have svc := quiet.svc d (by decide)
  have before := takenWrite_run (q := q) (w := w) (a := d.qpRegion x + v) (by omega : v ≠ 0) d
  obtain ⟨left, wait, speaks, regions, noBad, hbm⟩ := writeLeft_reads q w (d.qpRegion x + v) v bad x
  generalize writeLeft q w (d.qpRegion x + v) v d = l at before left wait speaks regions noBad hbm
  have said : l.speaks x = true → Msg.roce q (.ack w.psn.toNat) ∈ (runAct (roceEmit q (.ack w.psn.toNat)) l).outbox :=
    sent_roceEmit (by rw [left, ent])
  have pumped : Pumped q (d.qpRegion x) l e := by
    have := pumped_pumpAll (base := d.qpRegion x) (d := l) (by rw [left, ent]) (qpRegion_congr regions x) noBad _
      (pumped_roceEmit q (.ack w.psn.toNat) l Pumped.refl)
    rwa [← before] at this
  refine ⟨⟨?_, ?_, fun speaks' => ?_, fun j hj => ?_⟩, pumped.wait.trans wait⟩
  · rw [pumped.psn, left]
  · rw [pumped.va, left]
  · have := (sent_runAct (pumpAll q) _).subset (said (speaks.trans speaks'))
    rwa [← before] at this
  · have full : w.data.take (hbmSize - (d.qpRegion x + v)) = w.data := List.take_of_length_le (by omega)
    rw [pumped.hbm _ (by omega), hbm, if_neg (by omega), full]
    exact memByte_memWrite_same _ _ _ _ hj

/-! ### READ requests (R519) -/

/-- A READ that its key, role or place does not allow. -/
def refusedRead (rd : RdmaRead) (x : QpEnt) : Bool :=
  decide (x.role ≠ 1) || decide (rd.rkey.toNat ≠ x.localRkey) || decide (x.regionBytes < rd.va.toNat + rd.len.toNat)

/-- A READ that is answered. -/
def answeredRead (q : Nat) (rd : RdmaRead) (x : QpEnt) : Act := inSequence [
  fun _ => [onQp q fun s => { s with rqPsn := (rd.psn.toNat + mtuPackets rd.len.toNat x.mtu) % psnMod }],
  fun d => roceEmit q (.readResp rd.psn.toNat (d.readHbm (d.qpRegion x + rd.va.toNat) rd.len.toNat).1) d ]

section reads
variable {q : Nat} {rd : RdmaRead} {d : Dev} {x : QpEnt} (ready : (d.qp q).st = .ready) (loud : d.svc.silenced = false)
  (taken : (d.qp q).awaitFirst = false) (calm : rd.ce = false) (order : psnOrder (d.qp q).rqPsn rd.psn.toNat = .next) (ent : (d.qp q).ent = some x)
include ready loud taken calm order ent

theorem rdmaReadRequest_refused (bad : refusedRead rd x = true) : rdmaReadRequestReceiveAct q rd d = nakAccess q rd.psn.toNat d := by
  rw [rdmaReadRequestReceiveAct, calm]
  refine (inOrder_next ready loud taken order).trans ?_
  dsimp only
  rw [ent]
  exact if_pos bad

theorem rdmaReadRequest_answered (good : refusedRead rd x = false) : rdmaReadRequestReceiveAct q rd d = answeredRead q rd x d := by
  rw [rdmaReadRequestReceiveAct, calm]
  refine (inOrder_next ready loud taken order).trans ?_
  dsimp only
  rw [ent]
  exact (if_neg (Bool.not_eq_true _ ▸ good)).trans rfl

end reads

theorem confines_answeredRead (q : Nat) (rd : RdmaRead) (x : QpEnt) : Confines [.svc, .outbox] [] (answeredRead q rd x) := by
  refine confines_inSequence_cons (fun d => ?_) (confines_inSequence_cons (as := []) (fun d => confines_roceEmit q _ d) Confines.nil)
  simp only [confined_cons, confined_nil, and_true]
  rfl

/-- A READ is answered with what the region holds, and the PSN moves past the response (R519). -/
theorem answeredRead_reads {q : Nat} {rd : RdmaRead} {d : Dev} {x : QpEnt} (ent : (d.qp q).ent = some x) :
    let e := runAct (answeredRead q rd x) d
    (e.qp q).rqPsn = (rd.psn.toNat + mtuPackets rd.len.toNat x.mtu) % psnMod ∧
      (d.speaks x = true → Msg.roce q (.readResp rd.psn.toNat (d.readHbm (d.qpRegion x + rd.va.toNat) rd.len.toNat).1) ∈ e.outbox) := by
  intro e
  have run : e = runAct (roceEmit q (.readResp rd.psn.toNat (d.readHbm (d.qpRegion x + rd.va.toNat) rd.len.toNat).1))
      ((onQp q fun s => { s with rqPsn := (rd.psn.toNat + mtuPackets rd.len.toNat x.mtu) % psnMod }).apply d) := by
    refine (runAct_two ..).trans ?_
    rw [runAct_const, applyAll_cons, applyAll_nil]
    exact runAct_congr rfl
  refine ⟨?_, fun speaks => ?_⟩
  · rw [run, qp_of_qps (qps_roceEmit q _ _).1, qp_onQp_same]
  · rw [run]
    refine sent_roceEmit (x := x) ?_ ((speaks_congr rfl rfl rfl x).trans speaks)
    rw [qp_onQp_same, ent]

/-! ### Messages sent and acknowledged (R519, R542) -/

/-- The messages at the front of those sent, once they are acknowledged. -/
def dropSent (q n : Nat) : Act := fun d => [onQp q fun s => { s with sent := s.sent.drop n, retries := 0, progressAt := d.now }]

theorem confines_dropSent (q n : Nat) : Confines [.svc] [] (dropSent q n) := fun d => by
  simp only [dropSent, confined_cons, confined_nil, and_true]
  rfl

theorem forEach_nothing {α : Type} {f : α → Act} {xs : List α} (h : ∀ x ∈ xs, ∀ d, f x d = []) (d : Dev) : forEach f xs d = [] := by
  induction xs with
  | nil => rfl
  | cons x xs ih =>
    rw [forEach, List.map_cons, inSequence_skip (h x (List.mem_cons_self ..) d)]
    exact ih fun y hy => h y (List.mem_cons_of_mem _ hy)

/-- Messages that no export counts are dropped, and nothing follows. -/
theorem completeSent_plain {q : Nat} {ms : List SentMsg} (plain : ∀ m ∈ ms, m.export_ = none) (d : Dev) :
    completeSent q ms d = if ms.isEmpty then [] else dropSent q ms.length d := by
  unfold completeSent
  split
  · rfl
  · rw [inSequence, inSequence_one, forEach_nothing, List.append_nil]
    · rfl
    · intro m hm d
      rw [plain m hm]
      rfl

theorem confines_completeSent {q : Nat} {ms : List SentMsg} (plain : ∀ m ∈ ms, m.export_ = none) : Confines [.svc] [] (completeSent q ms) := fun d => by
  rw [completeSent_plain plain, confined_ite]
  exact ⟨fun _ => confined_nil, fun _ => confines_dropSent q _ d⟩

theorem sent_completeSent {q : Nat} {ms : List SentMsg} (plain : ∀ m ∈ ms, m.export_ = none) (d : Dev) :
    ((runAct (completeSent q ms) d).qp q).sent = (d.qp q).sent.drop ms.length := by
  rw [runAct_eq, completeSent_plain plain]
  split
  case isTrue h =>
    rw [List.isEmpty_iff.1 h]
    rfl
  case isFalse => rw [dropSent, applyAll_cons, applyAll_nil, qp_onQp_same]

theorem ackedBy_subset (psn : Nat) (ms : List SentMsg) : ∀ m ∈ ackedBy psn ms, m ∈ ms := by
  induction ms with
  | nil => exact fun m hm => hm
  | cons a ms ih =>
    intro m hm
    rw [ackedBy] at hm
    split at hm
    · rcases List.mem_cons.1 hm with rfl | hm
      · exact List.mem_cons_self ..
      · exact List.mem_cons_of_mem _ (ih m hm)
    · exact absurd hm List.not_mem_nil

/-! ### Retries (R519, R524) -/

/-- A queue pair with one retry more. -/
def retried (now : Nat) (s : QpSt) : QpSt :=
  { s with retries := s.retries + 1, progressAt := now, sent := s.sent.map fun m => { m with got := [] } }

/-- Send everything again, once more. -/
def oneRetry (q : Nat) : Act := inSequence [fun d => [onQp q (retried d.now)], resendAll q]

theorem retryQp_last {q : Nat} {d : Dev} {x : QpEnt} (ent : (d.qp q).ent = some x) (last : x.retry ≤ (d.qp q).retries) :
    retryQp q d = qpError q F.SVC_ERR_RETRY d := by
  unfold retryQp
  simp only [ent]
  exact if_pos last

theorem retryQp_again {q : Nat} {d : Dev} {x : QpEnt} (ent : (d.qp q).ent = some x) (more : ¬ x.retry ≤ (d.qp q).retries) :
    retryQp q d = oneRetry q d := by
  unfold retryQp
  simp only [ent]
  exact if_neg more

theorem confines_oneRetry (q : Nat) : Confines [.svc, .outbox] [] (oneRetry q) := by
  refine confines_inSequence_cons (fun d => ?_) (confines_inSequence_cons (as := []) (fun d => ?_) Confines.nil)
  · simp only [confined_cons, confined_nil, and_true]
    rfl
  · exact Confines.forEach (fun m _ => confines_roceEmit q m.msg) d

/-- A retry: it is counted, the queue pair stays READY, and everything sent goes out again (R519). -/
theorem oneRetry_reads {q : Nat} {d : Dev} {x : QpEnt} (ent : (d.qp q).ent = some x) (ready : (d.qp q).st = .ready) :
    let e := runAct (oneRetry q) d
    (e.qp q).retries = (d.qp q).retries + 1 ∧ (e.qp q).st = .ready ∧ ∀ m ∈ (d.qp q).sent, d.speaks x = true → Msg.roce q m.msg ∈ e.outbox := by
  intro e
  have run : e = runAct (resendAll q) ((onQp q (retried d.now)).apply d) := by
    refine (runAct_two ..).trans ?_
    rw [runAct_eq (fun d => [_]), applyAll_cons, applyAll_nil]
  generalize hl : Upd.apply _ d = l at run
  have left : l.qp q = retried d.now (d.qp q) := by rw [← hl, qp_onQp_same]
  have speaks : l.speaks x = d.speaks x := by
    subst hl
    exact speaks_congr rfl rfl rfl x
  rw [runAct_eq, resendAll, ← runAct_eq (forEach _ _)] at run
  have keeps (m : SentMsg) : Invariant (fun e => e.besideHeld = l.besideHeld) (roceEmit q m.msg) := fun e he => by
    rw [runAct_eq]
    exact ((keeps_roceEmit q m.msg e).eq e).trans he
  have same : e.besideHeld = l.besideHeld := by
    rw [run]
    exact Invariant.forEach (P := fun e => e.besideHeld = l.besideHeld) (fun m _ => keeps m) l rfl
  have qp := (besideHeld_congr same q 0).1
  refine ⟨by rw [qp, left, retried], by rw [qp, left, retried, ready], fun m hm sp => ?_⟩
  have listed : { m with got := [] } ∈ (l.qp q).sent := by
    rw [left]
    exact List.mem_map_of_mem hm
  rw [run]
  refine sent_forEach (f := fun m : SentMsg => roceEmit q m.msg) (fun m _ => keeps m) listed (fun e he => ?_) rfl
  obtain ⟨qp', silenced, sends, paused⟩ := besideHeld_congr he q x.iface
  refine sent_roceEmit (by rw [qp', left, retried, ent]) ?_
  rw [Dev.speaks, silenced, sends, paused]
  exact speaks.trans sp

/-- What a retry of queue pair `q` leaves: everything is sent again, or past the retry count the pair is in ERROR (R519, R524). -/
def Retried (q : Nat) (x : QpEnt) (d e : Dev) : Prop :=
  if x.retry ≤ (d.qp q).retries then Errored q F.SVC_ERR_RETRY d e else
    (e.qp q).retries = (d.qp q).retries + 1 ∧ (e.qp q).st = .ready ∧ ∀ m ∈ (d.qp q).sent, d.speaks x = true → Msg.roce q m.msg ∈ e.outbox

theorem completes_retried {ins : Instr} {s : State} {act : Act} {q : Nat} {x : QpEnt} (he : exec ins s = perform (onPower act) s) (hs : s.dev.steady)
    (ent : (s.dev.qp q).ent = some x) (ready : (s.dev.qp q).st = .ready) (ha : act s.dev = retryQp q s.dev) : Completes ins s (Retried q x s.dev) := by
  have hb : F.SVC_ERR_RETRY ∈ qpBits := by decide
  unfold Retried
  by_cases last : x.retry ≤ (s.dev.qp q).retries
  · simp only [last, if_true]
    refine completes_errored hb he hs (ha.trans (retryQp_last ent last)) (confines_qpError hb _) ?_
    rw [← runAct_eq]
    exact errored_of_qps hb rfl
  · simp only [last, if_false]
    refine completes_does he hs (ha.trans (retryQp_again ent last)) (confines_oneRetry q _) (by decide) fun d same => ?_
    rw [← runAct_eq] at same
    obtain ⟨retries, st, sent⟩ := oneRetry_reads ent ready
    have qp := qp_of_qps (congrArg SvcSt.qps same.svc) q
    exact ⟨by rw [qp, retries], by rw [qp, st], fun m hm speaks => same.sent.subset (sent m hm speaks)⟩

section timeout
variable {q : Nat} {d : Dev} {x : QpEnt} (ent : (d.qp q).ent = some x)
include ent

theorem roceRetransmit_due (h : (d.qp q).st = .ready ∧ (d.qp q).sent ≠ [] ∧ (d.qp q).progressAt + 4096 * 2 ^ x.timeout ≤ d.now) :
    roceRetransmitTimeoutAct q d = retryQp q d := by
  unfold roceRetransmitTimeoutAct
  dsimp only
  rw [ent]
  exact if_pos (by simpa [and_assoc] using h)

theorem roceRetransmit_early (h : ¬ ((d.qp q).st = .ready ∧ (d.qp q).sent ≠ [] ∧ (d.qp q).progressAt + 4096 * 2 ^ x.timeout ≤ d.now)) :
    roceRetransmitTimeoutAct q d = [] := by
  unfold roceRetransmitTimeoutAct
  dsimp only
  rw [ent]
  exact if_neg (by simpa [and_assoc] using h)

end timeout

/-! ### Responses to a READ (R519, R539) -/

/-- The response packets that came for a READ are kept until the last. -/
def keepPackets (q psn : Nat) (got : List Byte) : Act := fun d =>
  [onQp q fun s => { s with progressAt := d.now, sent := s.sent.map fun x => if x.psn = psn then { x with got := got } else x }]

section responses
variable {q : Nat} {rsp : RdmaResp} {d : Dev} {x : QpEnt} {m : SentMsg} (ent : (d.qp q).ent = some x) (read : (d.qp q).sent.find? SentMsg.isRead = some m)
include ent read

theorem rdmaReadResponse_other (other : ¬ (m.psn + m.got.length / x.mtu) % psnMod = rsp.psn.toNat) : rdmaReadResponseReceiveAct q rsp d = [] := by
  unfold rdmaReadResponseReceiveAct
  simp only [ent, read]
  exact if_pos (by simp [other])

variable (ready : (d.qp q).st = .ready) (calm : rsp.ce = false) (mine : (m.psn + m.got.length / x.mtu) % psnMod = rsp.psn.toNat)
include ready calm mine

theorem rdmaReadResponse_more (more : rsp.isLast = false) : rdmaReadResponseReceiveAct q rsp d =
    inSequence [completeSent q ((d.qp q).sent.takeWhile fun y => !y.isRead), keepPackets q m.psn (m.got ++ rsp.data)] d := by
  unfold rdmaReadResponseReceiveAct
  simp only [ent, read]
  rw [if_neg (by simp [ready, mine]), calm, inSequence_skip (notifyQp_calm q d), more]
  rw [inSequence, inSequence, inSequence_one, inSequence, inSequence_one]
  exact congrArg _ (List.append_nil _)

theorem rdmaReadResponse_last (last : rsp.isLast = true) (plain : m.pull = none) : rdmaReadResponseReceiveAct q rsp d =
    inSequence [completeSent q ((d.qp q).sent.takeWhile fun y => !y.isRead), completeSent q [m]] d := by
  unfold rdmaReadResponseReceiveAct
  simp only [ent, read]
  rw [if_neg (by simp [ready, mine]), calm, inSequence_skip (notifyQp_calm q d), last, plain]
  rw [inSequence, inSequence_skip (if_pos rfl), inSequence_one, inSequence, inSequence_one]
  rw [onlyIf, if_pos rfl, inSequence, inSequence_one]
  exact congrArg _ (List.append_nil _)

end responses

theorem confines_keepPackets (q psn : Nat) (got : List Byte) : Confines [.svc] [] (keepPackets q psn got) := fun d => by
  simp only [keepPackets, confined_cons, confined_nil, and_true]
  rfl

theorem sent_keepPackets (q psn : Nat) (got : List Byte) (d : Dev) :
    ((runAct (keepPackets q psn got) d).qp q).sent = (d.qp q).sent.map fun x => if x.psn = psn then { x with got := got } else x := by
  rw [runAct_eq, keepPackets, applyAll_cons, applyAll_nil, qp_onQp_same]

theorem retries_completeSent {q : Nat} {m : SentMsg} (plain : m.export_ = none) (d : Dev) : ((runAct (completeSent q [m]) d).qp q).retries = 0 := by
  rw [runAct_eq, completeSent_plain (by simpa using plain), if_neg (by simp), dropSent, applyAll_cons, applyAll_nil, qp_onQp_same]

/-! ### Congestion (R521) -/

/-- A command that changes its queue pair alone. -/
theorem completes_onQp {ins : Instr} {s : State} {act : Act} {q : Nat} {g : QpSt → QpSt} (he : exec ins s = perform (onPower act) s) (hs : s.dev.steady)
    (ha : act s.dev = [onQp q g]) : Completes ins s fun d => d.qp q = g (s.dev.qp q) ∧ regsBut [] s.dev d := by
  have confined : Confined [.svc] [] [onQp q g] := by
    simp only [confined_cons, confined_nil, and_true]
    rfl
  refine completes_does he hs ha confined (by decide) fun d same => ⟨?_, same.regsBut (confined.regsBut _ (by decide))⟩
  rw [qp_of_qps (congrArg SvcSt.qps same.svc), applyAll_cons, applyAll_nil, qp_onQp_same]

/-- A queue pair that is not READY takes nothing (R524). -/
theorem queuePairs_idle {s : State} {q : Fin 65536} (hs : s.dev.steady) (idle : (s.dev.qp q).st ≠ .ready) (w : RdmaWrite) (rd : RdmaRead) (rsp : RdmaResp)
    (psn : BitVec 24) (kind : NakKind) : (Completes (.rdmaReadRequestReceive q rd) s fun d => s.dev.wrote d []) ∧
      (Completes (.rdmaReadResponseReceive q rsp) s fun d => s.dev.wrote d []) ∧ (Completes (.roceAckReceive q psn) s fun d => s.dev.wrote d []) ∧
      (Completes (.roceNakReceive q psn kind) s fun d => s.dev.wrote d []) ∧ (Completes (.roceRetransmitTimeout q) s fun d => s.dev.wrote d []) ∧
      (Completes (.roceCnpReceive q) s fun d => s.dev.wrote d []) ∧ (Completes (.roceRateRecover q) s fun d => s.dev.wrote d []) ∧
      (s.dev.svc.waitAt = [] → Completes (.rdmaWriteReceive q w) s fun d => s.dev.wrote d []) := by
  have order (psn : Nat) (first ce : Bool) (dup k : Act) : inOrder q psn first ce dup k s.dev = [] := by
    unfold inOrder
    dsimp only
    exact if_pos (by simp [idle])
  refine ⟨completes_quiet rfl hs (order ..), completes_quiet rfl hs ?_, completes_quiet rfl hs (if_pos idle), completes_quiet rfl hs (if_pos idle),
    completes_quiet rfl hs ?_, completes_quiet rfl hs (if_neg idle), completes_quiet rfl hs (if_neg ?_), fun none_ => completes_quiet rfl hs ?_⟩
  · unfold rdmaReadResponseReceiveAct
    dsimp only
    split
    · exact if_pos (by simp [idle])
    · rfl
  · unfold roceRetransmitTimeoutAct
    dsimp only
    split
    · rfl
    · exact if_neg (by simp [idle])
  · simp [idle]
  · have nothing : rdmaWriteTake q w s.dev = [] := order ..
    rw [rdmaWriteReceive_take ?_, nothing]
    rw [runAct_eq, nothing, applyAll_nil, none_]

/-- Settles O51: by what each packet or timer finds its queue pair in; the row of a WRITE by how its PSN stands to the one expected. -/
theorem queuePairsRun : Obligations.QueuePairsRun := by
  intro s q w rd rsp psn kind hs x none_ errored
  refine ⟨fun idle => queuePairs_idle hs idle w rd rsp psn kind, fun e ent ready => ?_⟩
  intro sends base say resent va n misplaced outside order quiet
  refine ⟨fun calm plain => ?_, fun calm plain inTurn => ?_, fun m read plain noExport => ?_, fun noExport => ?_, fun k => ?_, fun k => ?_, fun k acked => ?_, ?_, ?_, ?_⟩
  · obtain ⟨loud, taken, wait⟩ := of_decide_eq_true calm
    refine ⟨fun o => ?_, fun o => ?_, fun o bad => ?_, fun v o place placed out => ?_, fun v o place placed inside high noBad fits => ?_⟩
    · exact completes_answerWrite hs wait ent (rdmaWriteTake_ahead ready loud taken plain o)
    · exact completes_answerWrite hs wait ent (rdmaWriteTake_again ready loud taken plain o)
    · exact completes_nakWrite (by decide) hs wait (rdmaWriteTake_invalid ready loud taken plain o ent bad)
    · exact completes_nakWrite (by decide) hs wait (rdmaWriteTake_outside ready loud taken plain o ent place placed out)
    · obtain ⟨⟨psn', va', ack, bytes⟩, wait'⟩ := takenWrite_reads (w := w) ent high noBad fits
      have act := rdmaWriteTake_taken ready loud taken plain o ent place placed inside
      refine completes_does rfl hs ((rdmaWriteReceive_take ((congrArg (fun e : Dev => e.svc.waitAt) (runAct_congr act)).trans (wait'.trans wait))).trans act)
        (confines_takenWrite (by omega) _) (by decide) fun d same => ?_
      rw [← runAct_eq] at same
      have qp := qp_of_qps (congrArg SvcSt.qps same.svc) q
      refine ⟨by rw [qp, psn'], by rw [qp, va'], fun speaks => same.sent.subset (ack speaks), fun j hj => ?_⟩
      rw [same.hbm, bytes j hj]
  · obtain ⟨loud, taken, wait⟩ := of_decide_eq_true calm
    intro bad
    have refused : refusedRead rd e = bad := by
      simp only [refusedRead, bad, Bool.decide_or, Bool.or_assoc]
    refine ⟨fun no => ?_, fun yes => ?_⟩
    · refine completes_errored (by decide) rfl hs (rdmaReadRequest_refused ready loud taken plain inTurn ent (refused.trans no)) (confines_nak (by decide) _ _) ?_
      rw [← runAct_eq]
      exact errored_nak (by decide) _ _
    · have act := rdmaReadRequest_answered ready loud taken plain inTurn ent (refused.trans yes)
      obtain ⟨psn', said⟩ := answeredRead_reads (rd := rd) ent
      refine completes_does rfl hs act (confines_answeredRead q rd e _) (by decide) fun d same => ?_
      have hbm := same.hbm.trans (keepAll_hbm _ ((confines_answeredRead q rd e s.dev).leaves (by decide)))
      rw [← runAct_eq] at same
      exact ⟨hbm, by rw [qp_of_qps (congrArg SvcSt.qps same.svc), psn'], fun speaks => same.sent.subset (said speaks)⟩
  · intro ahead mine
    have all (y) (hy : y ∈ ahead) : y.export_ = none := noExport y (List.takeWhile_subset _ hy)
    have own : ∀ y ∈ [m], y.export_ = none := fun y hy => noExport y (List.mem_singleton.1 hy ▸ List.mem_of_find?_eq_some read)
    refine ⟨fun other => ?_, fun its more => ?_, fun its last pull => ?_⟩
    · exact completes_quiet rfl hs (rdmaReadResponse_other ent read (of_decide_eq_false other))
    · refine completes_does rfl hs (rdmaReadResponse_more ent read ready plain (of_decide_eq_true its) more)
        (confines_inSequence_cons (confines_completeSent all) (confines_inSequence_cons (as := []) (confines_keepPackets _ _ _) Confines.nil) _) (by decide) fun d same => ?_
      rw [qp_of_qps (congrArg SvcSt.qps same.svc), ← runAct_eq, runAct_two, sent_keepPackets, sent_completeSent all]
    · refine completes_does rfl hs (rdmaReadResponse_last ent read ready plain (of_decide_eq_true its) last pull)
        (confines_inSequence_cons (confines_completeSent all) (confines_inSequence_cons (as := []) (confines_completeSent own) Confines.nil) _) (by decide) fun d same => ?_
      rw [qp_of_qps (congrArg SvcSt.qps same.svc), ← runAct_eq, runAct_two, sent_completeSent own, sent_completeSent all, List.drop_drop]
      exact ⟨rfl, retries_completeSent (own m (List.mem_singleton_self m)) _⟩
  · have all (y) (hy : y ∈ ackedBy psn.toNat x.sent) : y.export_ = none := noExport y (ackedBy_subset _ _ y hy)
    refine completes_does rfl hs (if_neg (not_not.2 ready)) (confines_completeSent all _) (by decide) fun d same => ⟨?_, ?_⟩
    · rw [qp_of_qps (congrArg SvcSt.qps same.svc), ← runAct_eq, sent_completeSent all]
    · exact same.regsBut ((confines_completeSent all s.dev).regsBut _ (by decide))
  · subst k
    refine completes_errored (by decide) rfl hs (if_neg (not_not.2 ready)) (confines_qpError (by decide) _) ?_
    rw [← runAct_eq]
    exact errored_of_qps (by decide) rfl
  · subst k
    refine completes_errored (by decide) rfl hs (if_neg (not_not.2 ready)) (confines_qpError (by decide) _) ?_
    rw [← runAct_eq]
    exact errored_of_qps (by decide) rfl
  · subst k
    refine completes_retried rfl hs ent ready ((if_neg (not_not.2 ready)).trans ?_)
    exact (inSequence_skip (by rw [show ackedBy _ _ = [] from acked]; rfl)).trans (inSequence_one _ _)
  · intro due
    refine ⟨fun yes => completes_retried rfl hs ent ready ?_, fun no => completes_quiet rfl hs ?_⟩
    · obtain ⟨sent, time⟩ := of_decide_eq_true yes
      exact roceRetransmit_due ent ⟨ready, sent, time⟩
    · exact roceRetransmit_early ent fun h => of_decide_eq_false no h.2
  · exact (completes_onQp rfl hs (if_pos ready)).imp fun d ⟨qp, regs⟩ => ⟨by rw [qp], by rw [qp], regs⟩
  · intro due
    refine ⟨fun yes => (completes_onQp rfl hs (if_pos ?_)).imp fun d ⟨qp, regs⟩ => ⟨by rw [qp], by rw [qp], regs⟩, fun no => completes_quiet rfl hs (if_neg ?_)⟩
    · rw [decide_eq_true ready, Bool.true_and]
      exact yes
    · rw [decide_eq_true ready, Bool.true_and, Bool.not_eq_true]
      exact no

end Sys2Proof.Machine
end

