-- ==== Sys2Proof/Proofs/Board.lean ====
section
/-! PROOFS. The board: supplies, RESET_N, the reference clock, the I3C target and the TAP (R576, R611, R645–R653). -/

namespace Sys2Proof.Machine

theorem completes_run {ins : Instr} {s : State} {act : Act} {P : Dev → Prop} (he : exec ins s = perform act s) (h : P (runAct act s.dev)) :
    Completes ins s P := ⟨_, he, rfl, h⟩

/-- A command of the board that does nothing. -/
theorem completes_ignored {ins : Instr} {s : State} {act : Act} (he : exec ins s = perform act s) (ha : act s.dev = []) :
    Completes ins s fun d => d = s.dev := completes_run he (by rw [runAct_eq, ha, applyAll_nil])

/-- A command of the board whose act is a known list of updates. -/
theorem completes_updates {ins : Instr} {s : State} {act : Act} {us : List Upd} {P : Dev → Prop} (he : exec ins s = perform act s)
    (ha : act s.dev = us) (h : P (applyAll us s.dev)) : Completes ins s P := completes_run he (by rw [runAct_eq, ha]; exact h)

/-! ### What a reset keeps (R571, R648) -/

/-- A field that is none of those restored reads as before them. -/
theorem fld_restored_other {fs : List Fld} {f : Fld} (h : ∀ g ∈ fs, g.apart f = true) (v : Fld → Nat) (b : Dev) :
    (fs.foldl (fun b g => b.setFld g 0 fun _ => v g) b).fld f 0 = b.fld f 0 := by
  induction fs generalizing b with
  | nil => rfl
  | cons g fs ih =>
    rw [List.foldl_cons, ih (fun k hk => h k (List.mem_cons_of_mem _ hk)), fld_setFld_apart _ _ _ _ (h g (List.mem_cons_self ..))]

/-- A field that is restored reads as the value given, where the others stand apart from it. -/
theorem fld_restored {fs : List Fld} {f : Fld} (hf : f ∈ fs) (apart : ∀ g ∈ fs, g ≠ f → g.apart f = true) (v : Fld → Nat) (b : Dev) :
    (fs.foldl (fun b g => b.setFld g 0 fun _ => v g) b).fld f 0 = v f % 2 ^ (f.hi - f.lo + 1) := by
  induction fs generalizing b with
  | nil => exact absurd hf List.not_mem_nil
  | cons g fs ih =>
    rw [List.foldl_cons]
    by_cases later : f ∈ fs
    · exact ih later (fun k hk => apart k (List.mem_cons_of_mem _ hk)) _
    · obtain rfl : f = g := (List.mem_cons.1 hf).resolve_right later
      rw [fld_restored_other fun k hk => apart k (List.mem_cons_of_mem _ hk) fun e => later (e ▸ hk)]
      exact fld_setFld_same ..

/-- A register that a reset does not keep reads as its reset word. -/
theorem reg_restartBase {warm : Bool} {r : Reg} (h : keptReg warm r = false) (d : Dev) (i : Nat) : (d.restartBase warm).reg r i = r.resetWord := by
  unfold Dev.reg Dev.restartBase
  refine (mapGet_of_not_listed _ _ _ fun listed => ?_).trans (regDefault_regKey r i)
  obtain ⟨e, he, key⟩ := List.mem_map.1 listed
  have kept := (List.mem_filter.1 he).2
  rw [key, regKey_div, Reg.all_getElem] at kept
  exact absurd kept (by simp [h])

theorem fld_restartBase {warm : Bool} {f : Fld} (h : keptReg warm f.reg = false) (d : Dev) :
    (d.restartBase warm).fld f 0 = (f.reg.resetWord >>> f.lo) % 2 ^ (f.hi - f.lo + 1) := by
  rw [Dev.fld, reg_restartBase h]

theorem keptFields_apart (warm : Bool) : ∀ f ∈ keptFields warm, ∀ g ∈ keptFields warm, g ≠ f → g.apart f = true := by
  cases warm <;> decide

/-- A field that a cold reset keeps reads as before (R571). -/
theorem fld_restart_kept {f : Fld} (h : f ∈ keptFields false) (d : Dev) : (d.restart false).fld f 0 = d.fld f 0 := by
  unfold Dev.restart
  by_cases zero : d.fld f 0 = 0
  · rw [fld_restored_other fun g hg => ?_, fld_restartBase, zero]
    · exact (by decide : ∀ f ∈ keptFields false, (f.reg.resetWord >>> f.lo) % 2 ^ (f.hi - f.lo + 1) = 0) f h
    · exact (by decide : ∀ f ∈ keptFields false, keptReg false f.reg = false) f h
    · obtain ⟨hg, other⟩ := List.mem_filter.1 hg
      exact keptFields_apart false f h g hg fun e => of_decide_eq_true other (e ▸ zero)
  · have listed : f ∈ (keptFields false).filter fun f => d.fld f ≠ 0 := List.mem_filter.2 ⟨h, decide_eq_true zero⟩
    rw [fld_restored listed fun g hg => keptFields_apart false f h g (List.mem_filter.1 hg).1]
    exact Nat.mod_eq_of_lt (fld_lt d f 0)

/-- A field that a cold reset does not keep reads as its reset value (R571). -/
theorem fld_restart_other {f : Fld} (apart : ∀ g ∈ keptFields false, g.apart f = true) (kept : keptReg false f.reg = false) (d : Dev) :
    (d.restart false).fld f 0 = (f.reg.resetWord >>> f.lo) % 2 ^ (f.hi - f.lo + 1) := by
  unfold Dev.restart
  rw [fld_restored_other fun g hg => apart g (List.mem_filter.1 hg).1, fld_restartBase kept]

/-! ### A domain held in reset (R645, R648) -/

/-- Everything at its reset value but what stands outside the domain. -/
structure InReset (d e : Dev) : Prop where
  mode : e.mode = stOff
  cores : e.cores = []
  rings : e.rings = []
  slices : e.slices = []
  ports : e.ports = []
  chain : e.chain = .init
  blocks : e.vault.blocks = d.vault.blocks
  owner : e.secure.owner = d.secure.owner
  secret : e.secure.secret = d.secure.secret
  arb : e.fld F.SEC_STATUS_ARB 0 = d.fld F.SEC_STATUS_ARB 0
  install : e.bit F.VAULT_CTL_INSTALL = false
  sent : e.outbox = d.outbox
  hbm : e.hbm = d.hbm
  board : e.board = d.board

theorem inReset_heldInReset (d : Dev) : InReset d (applyAll heldInReset d) := by
  have at_ : applyAll heldInReset d = (setF F.DEV_STATE_STATE 0 stOff).apply (d.restart false) := rfl
  obtain ⟨m, hm⟩ := restart_eq d false
  rw [at_]
  constructor
  · exact (fld_setF ..).trans (by decide)
  · rw [keep_cores _ _ (by decide), hm]; rfl
  · rw [keep_rings _ _ (by decide), hm]; rfl
  · rw [keep_slices _ _ (by decide), hm]; rfl
  · rw [keep_ports _ _ (by decide), hm]; rfl
  · rw [keep_chain _ _ (by decide), hm]; rfl
  · rw [keep_vault _ _ (by decide), hm]; rfl
  · rw [keep_secure _ _ (by decide), hm]; rfl
  · rw [keep_secure _ _ (by decide), hm]; rfl
  · rw [fld_apply_spared (by decide), fld_restart_kept (by decide)]
  · rw [Dev.bit, fld_apply_spared (by decide), fld_restart_other (by decide) (by decide)]
    decide
  · rw [keep_outbox _ _ (by decide), hm]; rfl
  · rw [keep_hbm _ _ (by decide), hm]; rfl
  · rw [keep_board _ _ (by decide), hm]; rfl

/-- What a command that resets the domain leaves beside its memory and the board's own state. -/
def HeldOff (d e : Dev) : Prop :=
  e.mode = stOff ∧ e.cores = [] ∧ e.rings = [] ∧ e.slices = [] ∧ e.ports = [] ∧ e.chain = .init ∧
    e.vault.blocks = d.vault.blocks ∧ e.secure.owner = d.secure.owner ∧ e.secure.secret = d.secure.secret ∧
    e.fld F.SEC_STATUS_ARB = d.fld F.SEC_STATUS_ARB ∧ e.bit F.VAULT_CTL_INSTALL = false ∧ e.board.i3cAddr = none ∧ e.outbox = d.outbox

theorem heldOff {d : Dev} {us : List Upd} (h : Confined [.hbm, .hbmBad, .hbmMarks, .board, .regs] [.BOARD_STATUS] us)
    (i3c : (applyAll us (applyAll heldInReset d)).board.i3cAddr = none) : HeldOff d (applyAll us (applyAll heldInReset d)) := by
  have reset := inReset_heldInReset d
  generalize applyAll heldInReset d = e at reset i3c
  refine ⟨?_, ?_, ?_, ?_, ?_, ?_, ?_, ?_, ?_, ?_, ?_, i3c, ?_⟩
  · exact (h.fld e (by decide) 0).trans reset.mode
  · rw [keepAll_cores e (h.leaves (by decide)), reset.cores]
  · rw [keepAll_rings e (h.leaves (by decide)), reset.rings]
  · rw [keepAll_slices e (h.leaves (by decide)), reset.slices]
  · rw [keepAll_ports e (h.leaves (by decide)), reset.ports]
  · rw [keepAll_chain e (h.leaves (by decide)), reset.chain]
  · rw [keepAll_vault e (h.leaves (by decide)), reset.blocks]
  · rw [keepAll_secure e (h.leaves (by decide)), reset.owner]
  · rw [keepAll_secure e (h.leaves (by decide)), reset.secret]
  · rw [h.fld e (by decide), reset.arb]
  · rw [Dev.bit, h.fld e (by decide)]
    exact reset.install
  · rw [keepAll_outbox e (h.leaves (by decide)), reset.sent]

/-- A change of the board's state alone. -/
theorem applyAll_board (d : Dev) (g : BoardSt → BoardSt) : applyAll [.board g] d = { d with board := g d.board } := rfl

section reset
variable {s : State}

theorem completes_powerOn (off : s.dev.board.vsb12 = false) : Completes .powerOn s fun d => HeldOff s.dev d ∧ (∀ a, memByte d.hbm a = 0) ∧
    d.fld F.BOARD_STATUS_CAUSE = 0 ∧ d.board = { s.dev.board with
      vsb12 := true, resetLow := true, stopped := false, refclk := true, jtag := .idcode, i3cAddr := none, i3cOff := 0 } := by
  have confined (g : BoardSt → BoardSt) : Confined [.hbm, .hbmBad, .hbmMarks, .board, .regs] [.BOARD_STATUS]
      [.hbmZero, .board g, setF F.BOARD_STATUS_CAUSE 0 0] := by
    simp only [confined_cons, confined_nil, and_true]
    exact ⟨rfl, rfl, rfl⟩
  refine completes_updates rfl (if_neg (by rw [off]; exact Bool.false_ne_true)) ?_
  rw [applyAll_append]
  have board := (inReset_heldInReset s.dev).board
  refine ⟨heldOff (confined _) ?_, fun a => ?_, ?_, ?_⟩
  · rw [applyAll_cons, applyAll_cons, applyAll_cons, applyAll_nil, keep_board _ _ (by decide), board_apply_board]
    rfl
  · rw [applyAll_cons, applyAll_cons, applyAll_cons, applyAll_nil, keep_hbm _ _ (by decide), keep_hbm _ _ (by simp)]
    rfl
  · rw [applyAll_cons, applyAll_cons, applyAll_cons, applyAll_nil]
    exact (fld_setF ..).trans (by decide)
  · rw [applyAll_cons, applyAll_cons, applyAll_cons, applyAll_nil, keep_board _ _ (by decide), board_apply_board, keep_board _ _ (by decide), board]
    rfl

theorem completes_resetNAssert (on : s.dev.board.vsb12 = true) (high : s.dev.board.resetLow = false) :
    Completes .resetNAssert s fun d => HeldOff s.dev d ∧ (∀ a, memByte d.hbm a = memByte s.dev.hbm a) ∧ d.fld F.BOARD_STATUS_CAUSE = 1 ∧
      d.board = { s.dev.board with resetLow := true, stopped := false, i3cAddr := none, i3cOff := 0 } := by
  have confined (g : BoardSt → BoardSt) : Confined [.hbm, .hbmBad, .hbmMarks, .board, .regs] [.BOARD_STATUS]
      [.board g, setF F.BOARD_STATUS_CAUSE 0 1] := by
    simp only [confined_cons, confined_nil, and_true]
    exact ⟨rfl, rfl⟩
  refine completes_updates rfl (if_neg (by rw [on, high]; decide)) ?_
  rw [applyAll_append]
  have reset := inReset_heldInReset s.dev
  refine ⟨heldOff (confined _) ?_, fun a => ?_, ?_, ?_⟩
  · rw [applyAll_cons, applyAll_cons, applyAll_nil, keep_board _ _ (by decide), board_apply_board]
    rfl
  · rw [applyAll_cons, applyAll_cons, applyAll_nil, keep_hbm _ _ (by decide), keep_hbm _ _ (by simp), reset.hbm]
  · rw [applyAll_cons, applyAll_cons, applyAll_nil]
    exact (fld_setF ..).trans (by decide)
  · rw [applyAll_cons, applyAll_cons, applyAll_nil, keep_board _ _ (by decide), board_apply_board, reset.board]
    rfl

theorem completes_vsb12Loss (on : s.dev.board.vsb12 = true) : Completes .vsb12Loss s fun d => HeldOff s.dev d ∧ d.board.vsb12 = false ∧
    d.board.refclk = false ∧ d.running = false := by
  have confined (g : BoardSt → BoardSt) : Confined [.hbm, .hbmBad, .hbmMarks, .board, .regs] [.BOARD_STATUS] [.board g] := by
    simp only [confined_cons, confined_nil, and_true]
    rfl
  refine completes_updates rfl (if_neg (by rw [on]; decide)) ?_
  rw [applyAll_append]
  refine ⟨heldOff (confined _) rfl, rfl, rfl, rfl⟩

end reset

/-! ### The reference clock (R647, R654) -/

theorem Behind.board {e d : Dev} (b : Behind e d) : d.board = e.board := by
  rw [b.quiet.board, runAct_eq, keepAll_board _ ((tames_fenceLost e).confined.leaves (by decide))]

/-- The reference clock is noted lost, and stops. -/
def noteRefclk : Act := fun _ => [setF F.BOARD_STATUS_REFCLK_LOST 0 1]

def stopRefclk : Act := fun _ => [.board fun b => { b with refclk := false }]

theorem refclkLossAct_eq {d : Dev} (on : d.board.refclk = true) :
    refclkLossAct d = inSequence [noteRefclk, onlyIf (d.mode ≠ stOff) (moduleFault 0x0A), stopRefclk] d :=
  if_neg (by rw [on]; decide)

theorem tames_noteRefclk : Tames [.regs] [.BOARD_STATUS] noteRefclk := fun _ => tame_of_all rfl

theorem tames_stopRefclk : Tames [.board] [] stopRefclk := fun _ => tame_of_all rfl

theorem refclk_stopRefclk (d : Dev) : (runAct stopRefclk d).board.refclk = false := rfl

section refclk
variable {s : State} (hs : s.dev.steady) (on : s.dev.board.refclk = true)
include hs on

theorem completes_refclkLoss_off (off : s.dev.mode = stOff) : Completes .refclkLoss s fun d =>
    d.fld F.BOARD_STATUS_REFCLK_LOST = 1 ∧ d.board.refclk = false ∧ regsBut [.BOARD_STATUS] s.dev d := by
  have confined : Confines [.regs, .board] [.BOARD_STATUS] (inSequence [noteRefclk, stopRefclk]) :=
    (Tames.cons (tames_noteRefclk.mono (by decide) (by decide)) (Tames.cons (tames_stopRefclk.mono (by decide) (by decide)) Tames.nil)).confines
  have act : refclkLossAct s.dev = inSequence [noteRefclk, stopRefclk] s.dev := by
    rw [refclkLossAct_eq on, inSequence, inSequence_skip (by rw [decide_eq_false (not_not.2 off)]; rfl), ← inSequence]
  refine completes_does rfl hs act (confined _) (by decide) fun d q => ⟨?_, ?_, q.regsBut ((confined _).regsBut _ (by decide))⟩
  · rw [q.fld rfl, ← runAct_eq, runAct_two, tames_stopRefclk.fld (by decide) 0]
    exact (fld_setF ..).trans (by decide)
  · rw [q.board, ← runAct_eq, runAct_two, refclk_stopRefclk]

theorem completes_refclkLoss_on (up : s.dev.mode ≠ stOff) : Completes .refclkLoss s fun d =>
    d.fld F.BOARD_STATUS_REFCLK_LOST = 1 ∧ d.board.refclk = false ∧ s.dev.enteredSafe d 10 := by
  have run := runAct_eq refclkLossAct s.dev
  rw [refclkLossAct_eq on, decide_eq_true up, ← runAct_eq, runAct_three, runAct_onlyIf_true] at run
  have noted : (runAct noteRefclk s.dev).fld F.BOARD_STATUS_REFCLK_LOST = 1 := (fld_setF ..).trans (by decide)
  have mode : (runAct noteRefclk s.dev).mode = s.dev.mode := tames_noteRefclk.fld (by decide) 0
  have settling : Settling s.dev (runAct noteRefclk s.dev) :=
    Settling.step ⟨fun _ => rfl, fun _ => rfl, fun _ => rfl, rfl⟩ tames_noteRefclk (by decide) (by decide)
  generalize runAct noteRefclk s.dev = d1 at run noted mode settling
  have entered := (moduleFault_reads d1 (cause := 10) (by decide)).1.before mode settling
  have kept : (runAct (moduleFault 10) d1).fld F.BOARD_STATUS_REFCLK_LOST = 1 := ((tames_moduleFault 10).fld (by decide) 0).trans noted
  refine completes_behind rfl hs fun d b => ?_
  rw [run] at b
  refine ⟨(b.fld (by decide) 0).trans ((tames_stopRefclk.fld (by decide) 0).trans kept), ?_, b.enteredSafe ?_⟩
  · rw [b.board, refclk_stopRefclk]
  · exact entered.step tames_stopRefclk (by decide) (tames_stopRefclk.confines.inSafe (by decide))

end refclk

/-! ### Acts whose updates all have a property -/

/-- Every update of a list has a property. -/
def Each (P : Upd → Prop) (us : List Upd) : Prop := ∀ u ∈ us, P u

/-- An act makes updates of a property alone. -/
def Makes (P : Upd → Prop) (a : Act) : Prop := ∀ d, Each P (a d)

section makes
variable {P : Upd → Prop}

@[simp] theorem each_nil : Each P [] := fun _ h => nomatch h
@[simp] theorem each_cons (u : Upd) (us : List Upd) : Each P (u :: us) ↔ P u ∧ Each P us := by simp [Each]
@[simp] theorem each_append (us vs : List Upd) : Each P (us ++ vs) ↔ Each P us ∧ Each P vs := by
  simp only [Each, List.mem_append, or_imp, forall_and]
@[simp] theorem each_ite (p : Prop) [Decidable p] (us vs : List Upd) : Each P (if p then us else vs) ↔ (p → Each P us) ∧ (¬p → Each P vs) := by
  split <;> simp_all
@[simp] theorem each_map {α : Type} (f : α → Upd) (xs : List α) : Each P (xs.map f) ↔ ∀ x ∈ xs, P (f x) := by simp [Each]
@[simp] theorem each_flatMap {α : Type} (f : α → List Upd) (xs : List α) : Each P (xs.flatMap f) ↔ ∀ x ∈ xs, Each P (f x) := by
  simp only [Each, List.mem_flatMap]
  exact ⟨fun h x hx u hu => h u ⟨x, hx, hu⟩, fun h u ⟨x, hx, hu⟩ => h x hx u hu⟩

theorem Makes.nil : Makes P (inSequence []) := fun _ => each_nil

theorem Makes.cons {a : Act} {as : List Act} (ha : Makes P a) (has : Makes P (inSequence as)) : Makes P (inSequence (a :: as)) := fun d => by
  rw [inSequence, each_append]
  exact ⟨ha d, has _⟩

theorem Makes.inSequence {as : List Act} (h : ∀ a ∈ as, Makes P a) : Makes P (inSequence as) := by
  induction as with
  | nil => exact Makes.nil
  | cons a as ih => exact Makes.cons (h a (List.mem_cons_self ..)) (ih fun b hb => h b (List.mem_cons_of_mem _ hb))

theorem Makes.forEach {α : Type} {f : α → Act} {xs : List α} (h : ∀ x ∈ xs, Makes P (f x)) : Makes P (forEach f xs) := by
  refine Makes.inSequence fun a ha => ?_
  obtain ⟨x, hx, rfl⟩ := List.mem_map.1 ha
  exact h x hx

theorem Makes.onlyIf {b : Bool} {a : Act} (h : Makes P a) : Makes P (onlyIf b a) := fun d => by
  rw [Machine.onlyIf, each_ite]
  exact ⟨fun _ => h d, fun _ => each_nil⟩

end makes

/-! ### Start-up, as far as the release of RESET_N runs it (R576) -/

/-- The registers that start-up writes beside those of the secure element. -/
def bootRegs : List Reg :=
  [.BOOT_STATUS, .SEC_IMG, .SEC_ERR, .START_CFG, .CODEC_CFG, .CORE_ARRAYW, .DET_MAP, .DET_STATUS, .HLTH_SUB, .HLTH_MODULE, .EVT_STATUS,
    .CHAIN_ERR, .VAULT_SLOT, .VAULT_CTL, .DEV_COORD, .GCNT_STATUS, .PLAN_STATUS, .LINK_STATUS]

/-- The parts that start-up changes beside its own record. -/
def bootParts : List Part :=
  [.regs, .svc, .regions, .codecTables, .digestK, .schedLib, .syncLib, .secure, .power, .outbox, .chain, .ports]

/-- What the release of RESET_N settles for start-up: its own record, the seed, and what the secure element found. -/
def Dev.released (d : Dev) : Bool × Bool × Nat × Nat × Nat :=
  (d.start.started, d.start.seed, d.fld F.SEC_STATUS_SE 0, d.fld F.SEC_STATUS_PUF 0, d.fld F.SEC_STATUS_IDENTITY 0)

/-- An update of start-up: it leaves what the release settled. -/
def Upd.boots (u : Upd) : Prop := u.confined (.start :: bootParts) (.SEC_STATUS :: bootRegs) = true ∧ ∀ d, (u.apply d).released = d.released

theorem Upd.boots_of_confined {u : Upd} (h : u.confined bootParts bootRegs = true) : u.boots := by
  have one : Confined bootParts bootRegs [u] := (confined_cons ..).2 ⟨h, confined_nil⟩
  refine ⟨((one.mono (List.subset_cons_self _ _) (List.subset_cons_self _ _)) u (List.mem_singleton_self u)), fun d => ?_⟩
  have start : (u.apply d).start = d.start := keepAll_start d (one.leaves (by decide))
  have fld {f : Fld} (hf : f.reg = .SEC_STATUS) : (u.apply d).fld f 0 = d.fld f 0 := one.fld d (by rw [hf]; decide) 0
  simp only [Dev.released, start, fld (f := F.SEC_STATUS_SE) rfl, fld (f := F.SEC_STATUS_PUF) rfl, fld (f := F.SEC_STATUS_IDENTITY) rfl]

theorem boots_of_confined {us : List Upd} (h : Confined bootParts bootRegs us) : Each Upd.boots us := fun u hu => Upd.boots_of_confined (h u hu)

/-- A change of start-up's own record that keeps the seed and that it has begun. -/
theorem boots_start {g : StartSt → StartSt} (h : ∀ s, (g s).started = s.started ∧ (g s).seed = s.seed) : (Upd.start g).boots := by
  refine ⟨rfl, fun d => ?_⟩
  obtain ⟨started, seed⟩ := h d.start
  simp only [Dev.released, start_apply_start, started, seed, fld_of_regs (keep_regs (Upd.start g) d (by simp))]

/-- An act of start-up. -/
abbrev Boots (a : Act) : Prop := Makes Upd.boots a

theorem boots_reg {f : Fld} {g : Nat → Nat} {i : Nat} (h : f.reg ∈ bootRegs) : (Upd.fld f i g).boots :=
  Upd.boots_of_confined (by simpa [Upd.confined, Upd.touches, Upd.writes, bootParts] using h)

theorem boots_setF {f : Fld} {i v : Nat} (h : f.reg ∈ bootRegs) : (setF f i v).boots := boots_reg h
theorem boots_setB {f : Fld} {i : Nat} {b : Bool} (h : f.reg ∈ bootRegs) : (setB f i b).boots := boots_reg h
theorem boots_event (k : Nat) (b : List Byte) : (Upd.event k b).boots := Upd.boots_of_confined rfl
theorem boots_send (m : Msg) : (Upd.send m).boots := Upd.boots_of_confined rfl

theorem boots_toStep (n : Nat) : Boots (toStep n) := fun d => by
  simp only [toStep, each_cons, each_nil, and_true]
  exact ⟨boots_setF (by decide), boots_start fun _ => ⟨rfl, rfl⟩⟩

theorem boots_imageEvent : Boots imageEvent := fun d => by
  simp only [imageEvent, each_cons, each_nil, and_true]
  exact boots_event ..

theorem boots_noteSlots (c : SlotChoice) : Each Upd.boots (noteSlots c) := by
  simp only [noteSlots, each_append, each_ite, each_cons, each_nil, and_true, implies_true, true_and]
  exact ⟨⟨⟨fun _ => boots_setF (by decide), fun _ => boots_setF (by decide)⟩, boots_setB (by decide), boots_setB (by decide)⟩,
    boots_setB (by decide), boots_setB (by decide)⟩

theorem boots_runPredictor (new : Bool) : Boots (runPredictor new) := by
  intro d
  unfold runPredictor
  dsimp only
  refine Makes.cons (fun d => ?_) (Makes.cons (as := []) (Makes.onlyIf fun d => ?_) Makes.nil) d
  · simp only [putEstimate, each_append, each_flatMap, each_cons, each_nil, and_true]
    refine ⟨⟨fun n _ => ⟨boots_setF (by decide), boots_setF (by decide), boots_setF (by decide), boots_setB (by decide), boots_setB (by decide)⟩,
      boots_setF (by decide), boots_setF (by decide), boots_setF (by decide), boots_setB (by decide), boots_setB (by decide)⟩, Upd.boots_of_confined rfl⟩
  · simp only [each_cons, each_nil, and_true]
    exact ⟨boots_event .., Upd.boots_of_confined rfl⟩

theorem boots_selfTest (bist : SMap (BitVec 64)) : Boots (selfTest bist) := by
  intro d
  unfold selfTest
  dsimp only
  refine Makes.cons (fun d => ?_) (Makes.cons (fun d => ?_) (Makes.cons (fun d => ?_) (Makes.cons (as := []) (fun d => ?_) Makes.nil))) d
  · simp only [each_map]
    exact fun _ _ => boots_setF (by decide)
  · simp only [detMap, each_cons, each_nil, and_true]
    exact ⟨boots_setF (by decide), boots_setF (by decide)⟩
  · simp only [flagDet, flagFault, each_append, each_ite, each_cons, each_nil, and_true, implies_true, true_and]
    exact ⟨fun _ => ⟨boots_setF (by decide), boots_reg (by decide)⟩, Upd.boots_of_confined rfl⟩
  · exact boots_runPredictor _ d

theorem boots_readSections (m : Image) : Boots (readSections m) := fun d => by
  simp only [readSections, each_cons, each_nil, and_true]
  exact ⟨Upd.boots_of_confined rfl, boots_start fun _ => ⟨rfl, rfl⟩, Upd.boots_of_confined rfl, boots_setF (by decide), boots_setF (by decide),
    boots_setF (by decide)⟩

/-- The installation key's bit stands apart from what the secure element found. -/
theorem boots_vaultKey (b : Bool) : (setB F.SEC_STATUS_VAULT_KEY 0 b).boots := by
  refine ⟨rfl, fun d => ?_⟩
  simp (disch := exact of_decide_eq_true rfl) only [Dev.released, fld_apply_spared, keep_start]

theorem boots_unlockVault (okA okB : Bool) : Boots (unlockVault okA okB) := fun d => by
  simp only [unlockVault, flagSec, flagFault, each_append, each_ite, each_cons, each_nil, and_true, implies_true]
  exact ⟨⟨⟨⟨boots_setF (by decide), boots_setF (by decide)⟩, fun _ => ⟨boots_setF (by decide), boots_reg (by decide)⟩⟩,
    fun _ => ⟨boots_setF (by decide), boots_reg (by decide)⟩⟩, boots_vaultKey _, boots_setB (by decide)⟩

theorem boots_countMiswired : Boots countMiswired := fun d => by
  simp only [countMiswired, each_cons, each_nil, and_true]
  exact boots_setF (by decide)

theorem boots_miswire (p : Nat) : Boots (miswire p) := by
  refine Makes.cons (fun d => ?_) (Makes.cons (as := []) boots_countMiswired Makes.nil)
  simp only [each_cons, each_nil, and_true]
  exact boots_start fun _ => ⟨rfl, rfl⟩

theorem boots_checkPeer (p : Nat) : Boots (checkPeer p) := fun d => by
  unfold checkPeer
  split
  · exact Makes.onlyIf (boots_miswire p) d
  · exact each_nil

theorem boots_greet (p : Nat) : Boots (greet p) := fun d => by
  unfold greet
  rw [each_ite]
  refine ⟨fun _ => each_nil, fun _ => ?_⟩
  rw [each_append]
  refine ⟨?_, ?_⟩
  · split
    · simp only [each_cons, each_nil, and_true]
      exact ⟨boots_send _, boots_start fun _ => ⟨rfl, rfl⟩⟩
    · exact each_nil
  · simp only [each_cons, each_nil, and_true]
    exact boots_send _

theorem boots_sendReport : Boots sendReport := fun d => by
  unfold sendReport
  split
  · simp only [each_cons, each_nil, and_true]
    exact ⟨boots_send _, boots_start fun _ => ⟨rfl, rfl⟩⟩
  · exact each_nil

theorem boots_countVacant : Boots countVacant := fun d => by
  simp only [countVacant, each_cons, each_nil, and_true]
  exact ⟨boots_setF (by decide), boots_setF (by decide), boots_start fun _ => ⟨rfl, rfl⟩⟩

theorem boots_vacancyFill : Boots vacancyFill := by
  refine Makes.cons (boots_toStep 8) (Makes.cons (fun d => ?_) (Makes.cons boots_countVacant (Makes.cons boots_countMiswired
    (Makes.cons (as := []) (fun d => Makes.forEach (fun c _ d => ?_) d) Makes.nil))))
  · simp only [each_cons, each_nil, and_true]
    exact boots_start fun _ => ⟨rfl, rfl⟩
  · simp only [spareRequest, each_cons, each_nil, and_true]
    exact boots_event ..

theorem boots_tryReport : Boots tryReport := fun d => by
  unfold tryReport
  dsimp only
  split
  · exact each_nil
  · split
    · exact boots_vacancyFill d
    · exact Makes.cons boots_sendReport (Makes.cons (as := []) (boots_toStep 8) Makes.nil) d

theorem boots_setParent (c : Coord) : Boots (setParent c) := fun d => by
  unfold setParent
  split
  · simp only [each_cons, each_nil, and_true]
    exact ⟨boots_setF (by decide), boots_setF (by decide), boots_setF (by decide)⟩
  · simp only [each_cons, each_nil, and_true]
    exact ⟨boots_setF (by decide), boots_setF (by decide)⟩

theorem boots_takeCoord (c : Coord) (uid : BitVec 32) (from_ : Option Nat) : Boots (takeCoord c uid from_) := by
  intro d
  unfold takeCoord
  dsimp only
  refine Makes.cons (fun d => ?_) (Makes.cons (boots_setParent c) (Makes.cons (boots_toStep 7) (Makes.cons (fun d => ?_)
    (Makes.cons (Makes.inSequence fun a ha => ?_) (Makes.cons (Makes.inSequence fun a ha => ?_) (Makes.cons (as := []) boots_tryReport Makes.nil)))))) d
  · simp only [setCoord, each_cons, each_nil, and_true]
    exact ⟨boots_setF (by decide), boots_setF (by decide), boots_setF (by decide), boots_setF (by decide), boots_setF (by decide),
      boots_setF (by decide), boots_setF (by decide), boots_setF (by decide), boots_setF (by decide)⟩
  · simp only [each_cons, each_nil, and_true]
    exact boots_start fun _ => ⟨rfl, rfl⟩
  · obtain ⟨p, _, rfl⟩ := List.mem_map.1 ha
    exact boots_greet p
  · obtain ⟨p, _, rfl⟩ := List.mem_map.1 ha
    exact boots_checkPeer p

theorem boots_beginWalk : Boots beginWalk := fun d => by
  unfold beginWalk
  rw [each_ite]
  exact ⟨fun _ => boots_takeCoord _ _ _ d, fun _ => boots_toStep 7 d⟩

theorem boots_startTrain (p : Nat) : Boots (startTrain p) := fun d => by
  unfold startTrain
  dsimp only
  rw [each_ite]
  refine ⟨fun _ => Makes.cons (fun d => ?_) (Makes.cons (as := []) (fun d => ?_) Makes.nil) d, fun _ => each_nil⟩
  · simp only [enterLink, each_cons, each_nil, and_true]
    exact ⟨boots_setF (by decide), boots_setF (by decide), Upd.boots_of_confined rfl⟩
  · simp only [each_cons, each_nil, and_true]
    exact Upd.boots_of_confined rfl

theorem boots_startSteps (b : BootInput) (cold : Bool) (m : Image) : Boots (startSteps b cold m) := by
  refine Makes.cons (boots_toStep 2) (Makes.cons (Makes.onlyIf (boots_selfTest _)) (Makes.cons (boots_toStep 3) (Makes.cons (boots_toStep 4)
    (Makes.cons (boots_readSections m) (Makes.cons (boots_toStep 5) (Makes.cons (boots_unlockVault _ _) (Makes.cons (boots_toStep 6)
      (Makes.cons (as := []) (fun d => ?_) Makes.nil))))))))
  dsimp only
  rw [each_ite]
  refine ⟨fun _ => boots_beginWalk d, fun _ => Makes.inSequence (fun a ha => ?_) d⟩
  obtain ⟨p, _, rfl⟩ := List.mem_map.1 ha
  exact Makes.onlyIf (boots_startTrain p)

/-! ### The release of RESET_N (R332, R576, R645, R648, R649) -/

/-- A command that discards no packet and does not leave the module RUNNING is its act alone. -/
theorem settled_run {a : Act} {d : Dev} (lost : (runAct a d).route.lost = []) (mode : (runAct a d).mode ≠ stRunning) :
    runAct (settled a) d = runAct a d := by
  rw [settled, runAct_three, runAct_fenceLost lost, runAct_eq settleReady, settleReady, if_neg (by simp [mode]), applyAll_nil]

/-- A command that does nothing leaves a settled module as it is. -/
theorem settled_rest {a : Act} {d : Dev} (h : d.Settled) (ha : a d = []) : runAct (settled a) d = d := by
  obtain ⟨lost, idle⟩ := h
  have nothing : runAct a d = d := by rw [runAct_eq, ha, applyAll_nil]
  rw [settled, runAct_three, nothing, runAct_fenceLost lost, runAct_eq settleReady, settleReady, if_neg (by simpa using idle), applyAll_nil]

/-- Whether VIN is out of range (R645). -/
def vinLow (b : BootInput) : Bool := decide (b.vinMv < 40000) || decide (60000 < b.vinMv)

/-- The straps, sampled where RESET_N itself is released (R649). -/
def sampleStraps (b : BootInput) (pin : Bool) : List Upd :=
  if pin then [setB F.BOARD_STATUS_SEED_N 0 b.seedN, setB F.BOARD_STATUS_FLASH_DUAL 0 b.flashDual,
    setB F.BOARD_STATUS_I3C_SA1 0 b.sa1, setB F.BOARD_STATUS_I3C_SA0 0 b.sa0] else []

/-- The counter, the board and the straps at the release. -/
def releaseBoard (b : BootInput) (pin : Bool) : Act := fun _ =>
  [.gcnt 0, .board fun x => { x with resetLow := false, stopped := false, refclk := true }, setF F.BOARD_STATUS_VIN_MV 0 b.vinMv] ++ sampleStraps b pin

/-- Start-up's own record at the release. -/
def releaseStart : Act := fun d => [.start fun s => { s with started := true, releasedAt := 0, seed := !d.bit F.BOARD_STATUS_SEED_N }]

/-- VIN out of range is recorded, and FAULT_N driven (R645). -/
def noteVinLow : Act := inSequence [fun _ => [setF F.BOARD_STATUS_VIN_LOW 0 1], driveFault true]

theorem resetReleaseAct_eq {b : BootInput} {d : Dev} (h : (d.board.vsb12 && (d.board.resetLow || !d.start.started)) = true) :
    resetReleaseAct b d = inSequence [releaseBoard b (decide (d.fld F.BOARD_STATUS_CAUSE ≤ 1)), releaseStart,
      enterState (if vinLow b then stOff else stBoot), onlyIf (vinLow b) noteVinLow, onlyIf (!vinLow b) (startFrom b)] d := by
  rw [Bool.and_eq_true] at h
  exact if_neg (by simpa [h.1, or_iff_not_imp_left] using h.2)

theorem resetReleaseAct_none {b : BootInput} {d : Dev} (h : (d.board.vsb12 && (d.board.resetLow || !d.start.started)) = false) :
    resetReleaseAct b d = [] := by
  refine if_pos ?_
  rw [← Bool.not_and, h]
  rfl

/-- What the secure element and the PUF gave (R571, R596). -/
def noteSecure (b : BootInput) : Act := fun _ =>
  [setB F.SEC_STATUS_SE 0 b.seOk, setB F.SEC_STATUS_PUF 0 (b.seOk && b.pufOk), setB F.SEC_STATUS_IDENTITY 0 (b.seOk && b.pufOk)] ++
    (if !b.seOk then flagSec F.SEC_ERR_SE else if !b.pufOk then flagSec F.SEC_ERR_PUF else [])

/-- Start-up behind what the secure element gave. -/
def startRest (b : BootInput) (d : Dev) : Act :=
  let cold := !d.start.warm
  let stop : Bool := cold && !(b.seOk && b.pufOk)
  let kept : Option Bool := if cold || d.start.image.isNone then none else some (d.bit F.BOOT_STATUS_SLOT)
  let c := d.chooseSlot b.slot0 b.slot1 kept
  inSequence [
    onlyIf stop imageEvent,
    onlyIf (!stop) (inSequence [
      fun _ => noteSlots c,
      match c.use with
      | none => imageEvent
      | some s =>
        let m : Image := if kept = some s then (d.start.image.getD b.slot0) else if s then b.slot1 else b.slot0
        startSteps b cold m ]) ]

theorem startFrom_run (b : BootInput) (d : Dev) : runAct (startFrom b) d = runAct (startRest b d) (runAct (onlyIf (!d.start.warm) (noteSecure b)) d) := by
  rw [runAct_eq]
  unfold startFrom
  dsimp only
  rw [← runAct_eq, runAct_inSequence_cons]
  rfl

theorem boots_startRest (b : BootInput) (d : Dev) : Boots (startRest b d) := by
  unfold startRest
  dsimp only
  refine Makes.cons (Makes.onlyIf boots_imageEvent) (Makes.cons (as := []) (Makes.onlyIf (Makes.cons (fun _ => boots_noteSlots _)
    (Makes.cons (as := []) ?_ Makes.nil))) Makes.nil)
  split
  · exact boots_imageEvent
  · exact boots_startSteps _ _ _

/-- Where the secure element or the PUF failed, start-up stops with an event (R571, R596). -/
theorem startRest_stop {b : BootInput} {d : Dev} (cold : d.start.warm = false) (bad : (b.seOk && b.pufOk) = false) (e : Dev) :
    runAct (startRest b d) e = runAct imageEvent e := by
  unfold startRest
  dsimp only
  rw [cold, bad, runAct_two]
  rfl

theorem confines_of_boots {a : Act} (h : Boots a) : Confines (.start :: bootParts) (.SEC_STATUS :: bootRegs) a := fun d u hu => (h d u hu).1

theorem released_of_boots {a : Act} (h : Boots a) (d : Dev) : (runAct a d).released = d.released := by
  rw [runAct_eq]
  exact Keeps.eq (obs := Dev.released) (fun u hu => (h d u hu).2) d

/-- What the release settles of the counter, the board, its straps and HBM. -/
structure Released (b : BootInput) (pin : Bool) (d e : Dev) : Prop where
  gcnt : e.gcnt = 0
  board : e.board = { d.board with resetLow := false, stopped := false, refclk := true }
  vin : e.fld F.BOARD_STATUS_VIN_MV 0 = b.vinMv % 2 ^ 32
  straps : pin = true → e.bit F.BOARD_STATUS_SEED_N = b.seedN ∧ e.bit F.BOARD_STATUS_FLASH_DUAL = b.flashDual ∧
    e.bit F.BOARD_STATUS_I3C_SA1 = b.sa1 ∧ e.bit F.BOARD_STATUS_I3C_SA0 = b.sa0
  hbm : e.hbm = d.hbm
  route : e.route = d.route

theorem bit_of_fld {d : Dev} {f : Fld} {b : Bool} (h : d.fld f 0 = if b then 1 else 0) : d.bit f = b := by
  rw [Dev.bit, h]
  cases b <;> decide

theorem confined_releaseBoard (b : BootInput) (pin : Bool) (d : Dev) : Confined [.gcnt, .board, .regs] [.BOARD_STATUS] (releaseBoard b pin d) := by
  simp only [releaseBoard, sampleStraps, confined_append, confined_ite, confined_cons, confined_nil, and_true, implies_true]
  exact ⟨⟨rfl, rfl, rfl⟩, fun _ => ⟨rfl, rfl, rfl, rfl⟩⟩

theorem released_releaseBoard (b : BootInput) (pin : Bool) (d : Dev) : Released b pin d (runAct (releaseBoard b pin) d) := by
  have confined := confined_releaseBoard b pin d
  have straps : Confined [.regs] [.BOARD_STATUS] (sampleStraps b pin) := by
    simp only [sampleStraps, confined_ite, confined_cons, confined_nil, and_true, implies_true]
    exact fun _ => ⟨rfl, rfl, rfl, rfl⟩
  have run : runAct (releaseBoard b pin) d = applyAll (sampleStraps b pin) ((setF F.BOARD_STATUS_VIN_MV 0 b.vinMv).apply
      ((Upd.board fun x => { x with resetLow := false, stopped := false, refclk := true }).apply ((Upd.gcnt 0).apply d))) := by
    rw [runAct_eq, releaseBoard, applyAll_append, applyAll_cons, applyAll_cons, applyAll_cons, applyAll_nil]
  constructor
  · rw [run, keepAll_gcnt _ (straps.leaves (by decide)), keep_gcnt _ _ (by simp [setF]), keep_gcnt _ _ (by simp), gcnt_apply_gcnt]
  · rw [run, keepAll_board _ (straps.leaves (by decide)), keep_board _ _ (by simp [setF]), board_apply_board, keep_board _ _ (by simp)]
  · rw [run]
    generalize (Upd.board _).apply _ = e
    have vin : ((setF F.BOARD_STATUS_VIN_MV 0 b.vinMv).apply e).fld F.BOARD_STATUS_VIN_MV 0 = b.vinMv % 2 ^ 32 := fld_setF ..
    cases pin
    · exact vin
    · simp (disch := exact of_decide_eq_true rfl) only [sampleStraps, if_true, applyAll_cons, applyAll_nil, fld_apply_spared]
      exact vin
  · rintro rfl
    rw [run]
    generalize (setF F.BOARD_STATUS_VIN_MV 0 b.vinMv).apply _ = e
    refine ⟨bit_of_fld ?_, bit_of_fld ?_, bit_of_fld ?_, bit_of_fld ?_⟩
    all_goals
      simp (disch := exact of_decide_eq_true rfl) only [sampleStraps, if_true, applyAll_cons, applyAll_nil, fld_apply_spared]
      exact fld_setB ..
  · rw [runAct_eq, keepAll_hbm _ (confined.leaves (by decide))]
  · rw [runAct_eq, keepAll_route _ (confined.leaves (by decide))]

/-- What leaves the counter, the board, BOARD_STATUS, HBM and the router keeps what the release settled. -/
theorem Released.step {b : BootInput} {pin : Bool} {d e : Dev} (h : Released b pin d e) {ps : List Part} {rs : List Reg} {a : Act}
    (c : Confines ps rs a) (parts : Part.gcnt ∉ ps ∧ Part.board ∉ ps ∧ Part.hbm ∉ ps ∧ Part.route ∉ ps) (reg : Reg.BOARD_STATUS ∉ rs) :
    Released b pin d (runAct a e) := by
  obtain ⟨gcnt, board, hbm, route⟩ := parts
  have bit {f : Fld} (hf : f.reg = .BOARD_STATUS) : (runAct a e).bit f = e.bit f := by rw [Dev.bit, Dev.bit, c.fld e (by rw [hf]; exact reg)]
  refine ⟨?_, ?_, ?_, fun on => ?_, ?_, ?_⟩
  · rw [runAct_eq, keepAll_gcnt _ ((c e).leaves gcnt), h.gcnt]
  · rw [runAct_eq, keepAll_board _ ((c e).leaves board), h.board]
  · rw [c.fld e reg, h.vin]
  · rw [bit rfl, bit rfl, bit rfl, bit rfl]
    exact h.straps on
  · rw [c.hbm e hbm, h.hbm]
  · rw [c.route e route, h.route]

theorem confines_releaseStart : Confines [.start] [] releaseStart := fun d => by
  simp only [releaseStart, confined_cons, confined_nil, and_true]
  rfl

theorem confines_noteSecure (b : BootInput) : Confines [.regs] [.SEC_STATUS, .SEC_ERR] (noteSecure b) := fun d => by
  simp only [noteSecure, flagSec, flagFault, confined_append, confined_ite, confined_cons, confined_nil, and_true, implies_true]
  exact ⟨⟨rfl, rfl, rfl⟩, fun _ => ⟨rfl, rfl⟩, fun _ _ => ⟨rfl, rfl⟩⟩

/-- The module once the release has noted its supplies and begun BOOT, or is OFF for want of VIN. -/
def afterRelease (b : BootInput) (d : Dev) : Dev :=
  runAct (enterState (if vinLow b then stOff else stBoot)) (runAct releaseStart (runAct (releaseBoard b (decide (d.fld F.BOARD_STATUS_CAUSE ≤ 1))) d))

theorem resetRelease_run {b : BootInput} {d : Dev} (h : (d.board.vsb12 && (d.board.resetLow || !d.start.started)) = true) :
    runAct (resetReleaseAct b) d = if vinLow b then runAct noteVinLow (afterRelease b d) else runAct (startFrom b) (afterRelease b d) := by
  rw [runAct_eq, resetReleaseAct_eq h, ← runAct_eq, runAct_inSequence_cons, runAct_inSequence_cons, runAct_inSequence_cons, runAct_two, ← afterRelease,
    runAct_onlyIf, runAct_onlyIf]
  cases vinLow b <;> rfl

theorem afterRelease_reads (b : BootInput) (d : Dev) : Released b (decide (d.fld F.BOARD_STATUS_CAUSE ≤ 1)) d (afterRelease b d) ∧
    (afterRelease b d).mode = (if vinLow b then stOff else stBoot) ∧ (afterRelease b d).start.started = true ∧
    (d.fld F.BOARD_STATUS_CAUSE ≤ 1 → (afterRelease b d).start.seed = !b.seedN) ∧ (afterRelease b d).start.warm = d.start.warm := by
  have board := released_releaseBoard b (decide (d.fld F.BOARD_STATUS_CAUSE ≤ 1)) d
  have warm : (runAct (releaseBoard b (decide (d.fld F.BOARD_STATUS_CAUSE ≤ 1))) d).start.warm = d.start.warm := by
    rw [runAct_eq, keepAll_start _ ((confined_releaseBoard b _ d).leaves (by decide))]
  unfold afterRelease
  generalize runAct (releaseBoard b _) d = e at board warm
  have enters := confines_enterState (if vinLow b then stOff else stBoot)
  have start : (runAct (enterState (if vinLow b then stOff else stBoot)) (runAct releaseStart e)).start = (runAct releaseStart e).start := by
    rw [runAct_eq, keepAll_start _ ((enters _).leaves (by decide))]
  refine ⟨(board.step confines_releaseStart (by decide) (by decide)).step enters (by decide) (by decide), mode_enterState _ (by split <;> decide), ?_, fun pin => ?_, ?_⟩
  · rw [start]
    rfl
  · rw [start]
    exact congrArg (!·) (board.straps (decide_eq_true pin)).1
  · rw [start]
    exact warm

theorem Released.noteLow {b : BootInput} {pin : Bool} {d e : Dev} (h : Released b pin d e) :
    Released b pin d ((setF F.BOARD_STATUS_VIN_LOW 0 1).apply e) := by
  refine ⟨?_, ?_, ?_, fun on => ?_, ?_, ?_⟩
  · rw [keep_gcnt _ _ (by decide), h.gcnt]
  · rw [keep_board _ _ (by decide), h.board]
  · rw [fld_apply_spared (of_decide_eq_true rfl), h.vin]
  · simp (disch := exact of_decide_eq_true rfl) only [Dev.bit, fld_apply_spared]
    exact h.straps on
  · rw [keep_hbm _ _ (by decide), h.hbm]
  · rw [keep_route _ _ (by decide), h.route]

theorem noteVinLow_run (d : Dev) : runAct noteVinLow d = runAct (driveFault true) ((setF F.BOARD_STATUS_VIN_LOW 0 1).apply d) := by
  rw [noteVinLow, runAct_two, runAct_const, applyAll_cons, applyAll_nil]

theorem noteVinLow_reads (d : Dev) : (runAct noteVinLow d).fld F.BOARD_STATUS_VIN_LOW = 1 ∧ (runAct noteVinLow d).fld F.SAFE_STATUS_FAULT_N = 1 ∧
    (runAct noteVinLow d).mode = d.mode ∧ (runAct noteVinLow d).start = d.start := by
  rw [noteVinLow_run]
  have low : ((setF F.BOARD_STATUS_VIN_LOW 0 1).apply d).fld F.BOARD_STATUS_VIN_LOW = 1 := (fld_setF ..).trans (by decide)
  have mode : ((setF F.BOARD_STATUS_VIN_LOW 0 1).apply d).mode = d.mode := fld_apply_spared (by decide) ..
  have start : ((setF F.BOARD_STATUS_VIN_LOW 0 1).apply d).start = d.start := keep_start _ _ (by decide)
  generalize (setF F.BOARD_STATUS_VIN_LOW 0 1).apply d = e at low mode start
  have drives := tames_driveFault true
  refine ⟨(drives.fld (by decide) 0).trans low, (driveFault_reads e e rfl true).1, (drives.fld (by decide) 0).trans mode, ?_⟩
  rw [runAct_eq, keepAll_start _ ((drives e).confined.leaves (by decide)), start]

theorem startFrom_released {b : BootInput} {pin : Bool} {d e : Dev} (h : Released b pin d e) :
    Released b pin d (runAct (startFrom b) e) ∧ (runAct (startFrom b) e).mode = e.mode ∧
      (runAct (startFrom b) e).start.started = e.start.started ∧ (runAct (startFrom b) e).start.seed = e.start.seed := by
  rw [startFrom_run]
  have secure := Confines.onlyIf (b := !e.start.warm) (confines_noteSecure b)
  have rest := boots_startRest b e
  have kept := released_of_boots rest (runAct (onlyIf (!e.start.warm) (noteSecure b)) e)
  have start : (runAct (onlyIf (!e.start.warm) (noteSecure b)) e).start = e.start := by
    rw [runAct_eq, keepAll_start _ ((secure e).leaves (by decide))]
  simp only [Dev.released, Prod.mk.injEq, start] at kept
  refine ⟨(h.step secure (by decide) (by decide)).step (confines_of_boots rest) (by decide) (by decide), ?_, kept.1, kept.2.1⟩
  exact ((confines_of_boots rest).fld _ (by decide) 0).trans (secure.fld e (by decide) 0)

/-- What the secure element and the PUF gave is recorded (R571, R596). -/
theorem noteSecure_reads (b : BootInput) (d : Dev) : (runAct (noteSecure b) d).fld F.SEC_STATUS_SE = (if b.seOk then 1 else 0) ∧
    (runAct (noteSecure b) d).fld F.SEC_STATUS_PUF = (if b.seOk && b.pufOk then 1 else 0) ∧
    (runAct (noteSecure b) d).fld F.SEC_STATUS_IDENTITY = (if b.seOk && b.pufOk then 1 else 0) ∧
    (b.seOk = false → (runAct (noteSecure b) d).fld F.SEC_ERR_SE = 1) ∧
    (b.seOk = true → b.pufOk = false → (runAct (noteSecure b) d).fld F.SEC_ERR_PUF = 1) := by
  have errors : Confined [.regs] [.SEC_ERR] (if !b.seOk then flagSec F.SEC_ERR_SE else if !b.pufOk then flagSec F.SEC_ERR_PUF else []) := by
    simp only [flagSec, flagFault, confined_ite, confined_cons, confined_nil, and_true, implies_true]
    exact ⟨fun _ => ⟨rfl, rfl⟩, fun _ _ => ⟨rfl, rfl⟩⟩
  rw [runAct_eq, noteSecure, applyAll_append]
  refine ⟨?_, ?_, ?_, fun se => ?_, fun se puf => ?_⟩
  · rw [errors.fld _ (by decide)]
    simp (disch := exact of_decide_eq_true rfl) only [applyAll_cons, applyAll_nil, fld_apply_spared]
    exact fld_setB ..
  · rw [errors.fld _ (by decide)]
    simp (disch := exact of_decide_eq_true rfl) only [applyAll_cons, applyAll_nil, fld_apply_spared]
    exact fld_setB ..
  · rw [errors.fld _ (by decide)]
    simp (disch := exact of_decide_eq_true rfl) only [applyAll_cons, applyAll_nil]
    exact fld_setB ..
  · rw [se]
    generalize applyAll [_, _, _] d = e
    exact (fld_flagFault (bit := F.SEC_ERR_SE) (faults := F.SEC_ERR_FAULTS) e 0 (top := 2 ^ 32 - 1) (by decide) (by decide)).1
  · rw [se, puf]
    generalize applyAll [_, _, _] d = e
    exact (fld_flagFault (bit := F.SEC_ERR_PUF) (faults := F.SEC_ERR_FAULTS) e 0 (top := 2 ^ 32 - 1) (by decide) (by decide)).1

/-- At a cold start what the secure element and the PUF gave stays as it is recorded (R571, R596). -/
theorem startFrom_secure {b : BootInput} {e : Dev} (cold : e.start.warm = false) :
    (runAct (startFrom b) e).fld F.SEC_STATUS_SE = (if b.seOk then 1 else 0) ∧
    (runAct (startFrom b) e).fld F.SEC_STATUS_PUF = (if b.seOk && b.pufOk then 1 else 0) ∧
    (runAct (startFrom b) e).fld F.SEC_STATUS_IDENTITY = (if b.seOk && b.pufOk then 1 else 0) ∧
    (b.seOk = false → (runAct (startFrom b) e).fld F.SEC_ERR_SE = 1) ∧
    (b.seOk = true → b.pufOk = false → (runAct (startFrom b) e).fld F.SEC_ERR_PUF = 1) := by
  rw [startFrom_run, runAct_onlyIf, cold, Bool.not_false, if_pos rfl]
  obtain ⟨se, puf, identity, seErr, pufErr⟩ := noteSecure_reads b e
  generalize runAct (noteSecure b) e = e1 at se puf identity seErr pufErr
  have kept := released_of_boots (boots_startRest b e) e1
  simp only [Dev.released, Prod.mk.injEq] at kept
  obtain ⟨_, _, kse, kpuf, kid⟩ := kept
  have stops {f : Fld} (hf : f.reg = .SEC_ERR) (bad : (b.seOk && b.pufOk) = false) : (runAct (startRest b e) e1).fld f = e1.fld f := by
    rw [startRest_stop cold bad]
    exact Confines.fld (ps := [.regs, .chain, .outbox]) (rs := [.EVT_STATUS, .CHAIN_ERR]) (fun d => by
      simp only [imageEvent, confined_cons, confined_nil, and_true]; rfl) e1 (by rw [hf]; decide) 0
  refine ⟨kse.trans se, kpuf.trans puf, kid.trans identity, fun no => ?_, fun yes no => ?_⟩
  · rw [stops rfl (by rw [no]; rfl)]
    exact seErr no
  · rw [stops rfl (by rw [yes, no]; rfl)]
    exact pufErr yes no

section release
variable {s : State} {b : BootInput}

theorem running_of_released {pin : Bool} {d e : Dev} (h : Released b pin d e) (on : d.board.vsb12 = true) :
    e.board.resetLow = false ∧ e.board.refclk = true ∧ e.running = true := by
  refine ⟨by rw [h.board], by rw [h.board], ?_⟩
  simp only [Dev.running, h.board, on]
  rfl

theorem completes_resetRelease (hl : s.dev.route.lost = []) (on : s.dev.board.vsb12 = true) (due : (s.dev.board.resetLow || !s.dev.start.started) = true) :
    Completes (.resetRelease b) s fun d => d.gcnt = 0 ∧ d.board.resetLow = false ∧ d.board.refclk = true ∧
      d.running = true ∧ d.start.started = true ∧ d.fld F.BOARD_STATUS_VIN_MV = b.vinMv % 2 ^ 32 ∧
      d.mode = (if vinLow b then stOff else stBoot) ∧ (vinLow b = true → d.fld F.BOARD_STATUS_VIN_LOW = 1 ∧ d.fld F.SAFE_STATUS_FAULT_N = 1) ∧
      (s.dev.fld F.BOARD_STATUS_CAUSE ≤ 1 → d.bit F.BOARD_STATUS_SEED_N = b.seedN ∧ d.bit F.BOARD_STATUS_FLASH_DUAL = b.flashDual ∧
        d.bit F.BOARD_STATUS_I3C_SA1 = b.sa1 ∧ d.bit F.BOARD_STATUS_I3C_SA0 = b.sa0 ∧ d.start.seed = !b.seedN) ∧
      (vinLow b = false → s.dev.start.warm = false → d.bit F.SEC_STATUS_SE = b.seOk ∧ d.bit F.SEC_STATUS_PUF = (b.seOk && b.pufOk) ∧
        d.bit F.SEC_STATUS_IDENTITY = (b.seOk && b.pufOk) ∧
        (b.seOk = false → d.fld F.SEC_ERR_SE = 1) ∧ (b.seOk = true → b.pufOk = false → d.fld F.SEC_ERR_PUF = 1)) ∧
      ∀ a, memByte d.hbm a = memByte s.dev.hbm a := by
  have run := resetRelease_run (b := b) (d := s.dev) (by rw [on, due]; rfl)
  obtain ⟨rel, mode, started, seed, warm⟩ := afterRelease_reads b s.dev
  generalize afterRelease b s.dev = e at run rel mode started seed warm
  have ends : ∃ d, runAct (resetReleaseAct b) s.dev = d ∧ Released b (decide (s.dev.fld F.BOARD_STATUS_CAUSE ≤ 1)) s.dev d ∧ d.mode = e.mode ∧
      d.start.started = e.start.started ∧ d.start.seed = e.start.seed ∧
      (vinLow b = true → d.fld F.BOARD_STATUS_VIN_LOW = 1 ∧ d.fld F.SAFE_STATUS_FAULT_N = 1) ∧
      (vinLow b = false → s.dev.start.warm = false → d.bit F.SEC_STATUS_SE = b.seOk ∧ d.bit F.SEC_STATUS_PUF = (b.seOk && b.pufOk) ∧
        d.bit F.SEC_STATUS_IDENTITY = (b.seOk && b.pufOk) ∧
        (b.seOk = false → d.fld F.SEC_ERR_SE = 1) ∧ (b.seOk = true → b.pufOk = false → d.fld F.SEC_ERR_PUF = 1)) := by
    refine ⟨_, run, ?_⟩
    cases low : vinLow b
    · obtain ⟨rel', mode', started', seed'⟩ := startFrom_released rel
      refine ⟨rel', mode', started', seed', fun h => absurd h Bool.false_ne_true, fun _ cold => ?_⟩
      obtain ⟨se, puf, identity, errors⟩ := startFrom_secure (b := b) (warm.trans cold)
      exact ⟨bit_of_fld se, bit_of_fld puf, bit_of_fld identity, errors⟩
    · obtain ⟨low', fault, mode', start'⟩ := noteVinLow_reads e
      refine ⟨?_, mode', congrArg StartSt.started start', congrArg StartSt.seed start', fun _ => ⟨low', fault⟩, fun h => absurd h.symm Bool.false_ne_true⟩
      exact noteVinLow_run e ▸ rel.noteLow.step (tames_driveFault true).confines (by decide) (by decide)
  obtain ⟨d, run', rel', mode', started', seed', low, secure⟩ := ends
  have whole : runAct (settled (resetReleaseAct b)) s.dev = d := by
    refine (settled_run ?_ ?_).trans run'
    · rw [run', rel'.route, hl]
    · rw [run', mode', mode]
      split <;> decide
  obtain ⟨high, clock, running⟩ := running_of_released rel' on
  refine completes_run (act := settled (resetReleaseAct b)) rfl ?_
  rw [whole]
  refine ⟨rel'.gcnt, high, clock, running, started'.trans started, rel'.vin, mode'.trans mode, low, fun pin => ?_, secure, fun a => by rw [rel'.hbm]⟩
  obtain ⟨seedN, dual, sa1, sa0⟩ := rel'.straps (decide_eq_true pin)
  exact ⟨seedN, dual, sa1, sa0, seed'.trans (seed pin)⟩

end release

/-! ### The I3C target and the TAP (R651, R652) -/

theorem length_telemetry (d : Dev) : d.telemetry.length = 64 := by
  simp only [Dev.telemetry, List.flatMap_cons, List.flatMap_nil, List.length_append, length_leBytes, List.length_nil]

/-- Settles O59: by the branch that each command of the board takes; the release of RESET_N by what start-up leaves of it. -/
theorem boardActs : Obligations.BoardActs := by
  intro s b dyn static viaStatic data len j x same held hbmKept low released i3c
  refine ⟨fun on => ?_, completes_powerOn, fun still => ?_, fun on high => ⟨completes_resetNAssert on high, ?_⟩, fun off => ?_, completes_vsb12Loss, fun hs off => ?_,
    fun hs on => ?_, fun hl => ⟨fun no settled => ?_, fun yes => ?_⟩, ?_, fun y is up eight small => ?_, fun no => ?_, fun down => ?_, fun up => ?_, fun on => ?_⟩
  · exact completes_ignored rfl (if_pos on)
  · have off : (!s.dev.board.vsb12 || s.dev.board.resetLow) = true := by
      rcases still with h | h
      · rw [show s.dev.board.vsb12 = false from h]; rfl
      · rw [show s.dev.board.resetLow = true from h, Bool.or_true]
    exact ⟨completes_ignored rfl (if_pos off), completes_ignored rfl (if_pos off)⟩
  · exact completes_updates rfl (if_neg (by rw [show s.dev.board.vsb12 = true from on, show s.dev.board.resetLow = false from high]; decide)) rfl
  · have no : ¬ s.dev.board.vsb12 = true := by rw [show s.dev.board.vsb12 = false from off]; decide
    exact ⟨completes_ignored rfl (if_pos (by simpa using no)), completes_ignored rfl (if_neg no), completes_ignored rfl (if_neg no)⟩
  · exact completes_quiet rfl hs (if_pos (by rw [show s.dev.board.refclk = false from off]; rfl))
  · by_cases off : s.dev.mode = stOff
    · exact (completes_refclkLoss_off hs on off).imp fun d ⟨lost, clock, regs⟩ => ⟨lost, clock, fun up => absurd off up, fun _ => regs⟩
    · exact (completes_refclkLoss_on hs on off).imp fun d ⟨lost, clock, safe⟩ => ⟨lost, clock, fun _ => safe, fun h => absurd h off⟩
  · exact completes_run (act := Machine.settled (resetReleaseAct b)) rfl (settled_rest settled (resetReleaseAct_none no))
  · rw [Bool.and_eq_true] at yes
    have lows : low = vinLow b := by simp only [low, vinLow, Bool.decide_or]
    rw [lows]
    exact completes_resetRelease hl yes.1 yes.2
  · intro takes ins
    have same : (!s.dev.i3cUp || s.dev.board.i3cAddr.isSome || (viaStatic && decide (static ≠ s.dev.i3cStatic))) = !takes := by
      simp only [takes, i3c, x, Dev.i3cUp, Bool.not_and, Bool.not_or, Bool.not_not, Option.not_isNone, decide_not]
    refine ⟨fun yes => completes_updates rfl (if_neg ?_) rfl, fun no => completes_ignored rfl (if_pos ?_)⟩
    · rw [same, yes]
      decide
    · rw [same, no]
      rfl
  · subst is
    exact completes_updates rfl (if_pos (by rw [show s.dev.i3cUp = true from up, decide_eq_true eight, decide_eq_true small]; rfl)) rfl
  · refine completes_ignored rfl ?_
    unfold i3cPrivateWriteAct
    split
    · rename_i y
      refine if_neg fun h => ?_
      simp only [Bool.and_eq_true, decide_eq_true_eq] at h
      obtain ⟨⟨up, eight⟩, small⟩ := h
      rcases no with down | long | ⟨y', is, odd⟩
      · exact absurd (up.symm.trans down) (by decide)
      · exact long rfl
      · obtain rfl : y = y' := List.head_eq_of_cons_eq is
        omega
    · rfl
  · exact completes_ignored rfl (if_pos (by rw [show s.dev.i3cUp = false from down]; rfl))
  · exact completes_updates rfl (if_neg (by rw [show s.dev.i3cUp = true from up]; decide)) ⟨length_telemetry _, rfl⟩
  · refine ⟨completes_updates rfl (if_pos on) ⟨rfl, fun high which => ?_, fun other locked => ?_, fun which => ?_⟩, completes_updates rfl (if_pos on) rfl⟩
    · have high' : s.dev.board.resetLow = false := high
      rcases which with rfl | rfl | rfl | rfl | rfl
      all_goals
        simp only [Dev.tapEffect, applyAll_cons, applyAll_nil, board_apply_board, high']
        rfl
    · subst other
      exact if_pos locked
    · subst which
      rfl

end Sys2Proof.Machine
end

