-- ==== Sys2Proof/Proofs/LinkDeath.lean ====
section
/-! PROOFS. The death of a link: what it leaves, and what stays of it behind the fences that follow (R384–R388, R397, R476). -/

namespace Sys2Proof.Machine

/-! ### What a fence leaves of a port -/

/-- A port without its queue, what it has freed, and the leaf that leaves it. -/
def PortSt.beside (s : PortSt) : PortSt := { s with queue := [], rxFreed := [], leafOut := false }

/-- What a fence leaves of a port: all but its queue, whether it is admitted, when it entered its state, and whether it discards a fenced scope
or is degraded. -/
def Dev.reception (p : Nat) (d : Dev) : PortSt × Nat × Nat × Nat × Nat :=
  ((d.port p).beside, d.fld F.LINK_STATUS_ADMITTED p, d.fld F.LINK_STATUS_ENTRY_GCNT p, d.fld F.LINK_STATUS_FENCE_RX p,
    d.fld F.LINK_STATUS_DEGRADED p)

section keeps
variable (p : Nat)

theorem Confined.reception {ps : List Part} {rs : List Reg} {us : List Upd} (h : Confined ps rs us) (ports : Part.ports ∉ ps)
    (status : Reg.LINK_STATUS ∉ rs) : Keeps (Dev.reception p) us := fun u hu d => by
  have one : Confined ps rs [u] := (confined_cons ..).2 ⟨h u hu, confined_nil⟩
  have port : (u.apply d).port p = d.port p := one.port d ports p
  have fld {f : Fld} (hf : f.reg = .LINK_STATUS) : (u.apply d).fld f p = d.fld f p := one.fld d (by rw [hf]; exact status) p
  simp only [Dev.reception, port, fld (f := F.LINK_STATUS_ADMITTED) rfl, fld (f := F.LINK_STATUS_ENTRY_GCNT) rfl,
    fld (f := F.LINK_STATUS_FENCE_RX) rfl, fld (f := F.LINK_STATUS_DEGRADED) rfl]

theorem reception_port {q : Nat} {g : PortSt → PortSt} (h : ∀ s, (g s).beside = s.beside) (d : Dev) :
    ((Upd.port q g).apply d).reception p = d.reception p := by
  have port : ((Upd.port q g).apply d).port p = if p = q then g (d.port q) else d.port p := port_apply_port ..
  have regs : ((Upd.port q g).apply d).regs = d.regs := keep_regs _ d (by simp)
  simp only [Dev.reception, port, fld_of_regs regs]
  split
  · subst_vars
    rw [h]
  · rfl

theorem reception_fenceTx {i v : Nat} (d : Dev) : ((setF F.LINK_STATUS_FENCE_TX i v).apply d).reception p = d.reception p := by
  have ports : ((setF F.LINK_STATUS_FENCE_TX i v).apply d).ports = d.ports := keep_ports _ d (by simp [setF])
  have fld {f : Fld} (hf : F.LINK_STATUS_FENCE_TX.apart f = true) : ((setF F.LINK_STATUS_FENCE_TX i v).apply d).fld f p = d.fld f p :=
    fld_setFld_apart d i p _ hf
  simp only [Dev.reception, port_of_ports ports, fld (f := F.LINK_STATUS_ADMITTED) rfl, fld (f := F.LINK_STATUS_ENTRY_GCNT) rfl,
    fld (f := F.LINK_STATUS_FENCE_RX) rfl, fld (f := F.LINK_STATUS_DEGRADED) rfl]

theorem reception_dropQueued (pkey : BitVec 12) (d : Dev) : Keeps (Dev.reception p) (dropQueued pkey d) := by
  have route (g : RouteSt → RouteSt) : Confined [.route] [] [.route g] := (confined_cons ..).2 ⟨rfl, confined_nil⟩
  refine (keeps_append _ _).2 ⟨fun u hu => ?_, ?_⟩
  · obtain ⟨q, -, hu⟩ := List.mem_flatMap.1 hu
    dsimp only at hu
    split at hu
    · exact absurd hu List.not_mem_nil
    · rcases List.mem_cons.1 hu with rfl | hu
      · exact reception_port p fun _ => rfl
      · obtain ⟨x, -, hx⟩ := List.mem_filterMap.1 hu
        obtain ⟨i, -, rfl⟩ := Option.map_eq_some_iff.1 hx
        exact reception_port p fun _ => rfl
  · rw [keeps_ite]
    exact ⟨fun _ => (route _).reception p (by decide) (by decide), fun _ => keeps_nil⟩

theorem reception_sendFences (device : Bool) (pkey : BitVec 12) (d : Dev) : Keeps (Dev.reception p) (sendFences device pkey d) := by
  intro u hu
  obtain ⟨q, -, hu⟩ := List.mem_flatMap.1 hu
  have : Keeps (Dev.reception p) [.send (.fence q device pkey d.gcnt), setF F.LINK_STATUS_FENCE_TX q 1] := by
    simp only [keeps_cons, keeps_nil, and_true]
    exact ⟨fun _ => rfl, reception_fenceTx p⟩
  exact this u hu

theorem confines_fenceCore (e : Nat × CoreSt) :
    Confines [.regs, .cores] [.SLIP_COUNT, .SLIP_TIME, .SLIP_LAST, .STREAM_ERR, .STREAM_ERR_LOC] (fenceCore e) := by
  intro d
  simp only [fenceCore, confined_append, confined_flatMap, confined_cons, confined_nil, and_true]
  refine ⟨⟨fun x _ => (confines_recordSlip _ _ _ d).mono (by decide) (by decide), ?_⟩, rfl⟩
  refine Confines.inSequence (fun a ha => ?_) d
  obtain ⟨a, -, rfl⟩ := List.mem_map.1 ha
  exact fun d => (tame_flagStream d _ ⟨by decide, rfl, by decide⟩ rfl _ _).confined.mono (by decide) (by decide)

theorem reception_fenceFlood (i cls : Nat) (d : Dev) : ∀ a ∈ fenceFlood i cls d, ∀ e, Keeps (Dev.reception p) (a e) := by
  have bit : Confined [.regs] [.RECOV_LAST, .COMMIT_CNT, .RECOV_ERR] ([setF F.RECOV_LAST_FENCE_GCNT i d.now,
      setF F.RECOV_LAST_DURATION i 65535, setF F.RECOV_LAST_REPLAYS i 0, setF F.RECOV_LAST_CLASS i cls,
      addF F.COMMIT_CNT_RECOVERIES 0 1] ++ fenceBit cls) := by
    rw [confined_append]
    refine ⟨?_, (tame_fenceBit cls).confined.mono (by decide) (by decide)⟩
    simp only [confined_cons, confined_nil, and_true]
    exact ⟨rfl, rfl, rfl, rfl, rfl⟩
  simp only [fenceFlood, List.mem_cons, List.not_mem_nil, or_false, forall_eq_or_imp, forall_eq]
  refine ⟨fun _ => ?_, fun _ => bit.reception p (by decide) (by decide), reception_dropQueued p _, reception_sendFences p _ _, fun e => ?_⟩
  · refine Confined.reception (ps := [.rings]) (rs := []) p ?_ (by decide) (by decide)
    simp only [confined_map]
    exact fun _ _ => rfl
  · exact ((tames_publishSnap true).confines.onlyIf e).reception p (by decide) (by decide)

theorem reception_fenceSlice (i cls : Nat) (d : Dev) : Keeps (Dev.reception p) (fenceSlice i cls d) := by
  rw [fenceSlice_eq, keeps_ite]
  refine ⟨fun _ => keeps_nil, fun _ => keeps_inSequence (fun a ha e => ?_) d⟩
  rcases List.mem_cons.1 ha with rfl | ha
  · exact keeps_forEach (fun x e => (confines_fenceCore x e).reception p (by decide) (by decide)) e
  rcases List.mem_cons.1 ha with rfl | ha
  · exact (tame_markFenced (ps := [.slices]) (rs := []) (by decide) i cls d).confined.reception p (by decide) (by decide)
  rcases List.mem_append.1 ha with ha | ha
  · exact reception_fenceFlood p i cls d a ha e
  · simp only [fenceEnd, List.mem_cons, List.not_mem_nil, or_false] at ha
    rcases ha with rfl | rfl
    · exact ((tames_enterState _).confines.onlyIf e).reception p (by decide) (by decide)
    · exact (tames_sendResolution i).confines e |>.reception p (by decide) (by decide)

theorem reception_faultSlice (i cls : Nat) (d : Dev) : Keeps (Dev.reception p) (faultSlice i cls d) := by
  simp only [faultSlice, keeps_ite]
  refine ⟨fun _ => keeps_nil, fun _ => keeps_inSequence (fun a ha e => ?_) d⟩
  simp only [List.mem_cons, List.not_mem_nil, or_false] at ha
  rcases ha with rfl | rfl
  · exact reception_fenceSlice p i cls e
  · exact ((tames_faultReport _ _ _).confines e).reception p (by decide) (by decide)

theorem reception_fenceLost (d : Dev) : Keeps (Dev.reception p) (fenceLost d) := by
  have none_ : Confined [.route] [] [.route fun r => { r with lost := [] }] := (confined_cons ..).2 ⟨rfl, confined_nil⟩
  simp only [fenceLost, keeps_ite]
  refine ⟨fun _ => keeps_nil, fun _ => keeps_inSequence (fun a ha e => ?_) d⟩
  simp only [List.mem_cons, List.not_mem_nil, or_false] at ha
  rcases ha with rfl | rfl
  · refine keeps_forEach (fun k e => ?_) e
    split
    · exact reception_faultSlice p _ 1 e
    · exact keeps_nil
  · exact none_.reception p (by decide) (by decide)

end keeps

/-! ### A dead link stays dead -/

/-- The parts of the module that hold its memories. -/
def memoryParts : List Part := [.hbm, .spm, .spmLost]

theorem Confined.memory {ps : List Part} {rs : List Reg} {us : List Upd} (h : Confined ps rs us) (apart : ∀ x ∈ memoryParts, x ∉ ps) (d : Dev) :
    sameMemory d (applyAll us d) := by
  refine ⟨fun a => ?_, fun c a n => readSpm_of_same ?_ ?_ c a n⟩
  · rw [keepAll_hbm d (h.leaves (apart _ (by decide)))]
  · exact keepAll_spm d (h.leaves (apart _ (by decide)))
  · exact keepAll_spmLost d (h.leaves (apart _ (by decide)))

theorem sameMemory.trans {d e f : Dev} (h : sameMemory d e) (h' : sameMemory e f) : sameMemory d f :=
  ⟨fun a => (h'.1 a).trans (h.1 a), fun c a n => (h'.2 c a n).trans (h.2 c a n)⟩

theorem Quiet.memory {d e : Dev} (q : Quiet d e) : sameMemory d e :=
  ⟨fun a => by rw [q.hbm], fun c a n => readSpm_of_same q.spm q.spmLost c a n⟩

/-- A bit of the error register of a port. -/
def LinkBit (f : Fld) : Prop := f.reg = .LINK_ERR ∧ f.lo = f.hi ∧ f.hi < 32

/-- What a death leaves of its link, beside the fences (R384–R388, R397). -/
structure LinkShut (d d' : Dev) (p : Nat) (bit : Fld) : Prop where
  state : d'.linkState p = lsDead
  cause : d'.fld bit p = 1
  count : d.tallied d' F.LINK_ERR_FAULTS p
  shut : d'.fld F.LINK_STATUS_ADMITTED p = 0
  held : (d'.port p).held = [] ∧ (d'.port p).rx = none
  lost : d'.fld F.LINK_LOST_ENTRIES p = min 64 (lostPairs (d.port p).held ++ poisonPairs (d.port p)).length
  memory : sameMemory d d'

theorem LinkDied.linkShut {d d' : Dev} {p : Nat} {bit : Fld} (h : LinkDied d d' p bit) : LinkShut d d' p bit :=
  ⟨h.state, h.cause, h.count, h.shut, h.held, h.lost, h.memory⟩

theorem LinkShut.died {d d' : Dev} {p : Nat} {bit : Fld} (h : LinkShut d d' p bit)
    (fenced : ∀ i ∈ d.slicesOnLink p (lostPairs (d.port p).held ++ poisonPairs (d.port p)),
      (d.slice i).desc.isSome = true → (d'.slice i).fenced = true) : LinkDied d d' p bit :=
  ⟨h.state, h.cause, h.count, h.shut, h.held, h.lost, fenced, h.memory⟩

/-- A link that is dead stays so behind whatever fences and leaves its port and its records. -/
theorem LinkShut.step {d e : Dev} {p : Nat} {bit : Fld} (h : LinkShut d e p bit) (hb : LinkBit bit) {ps : List Part} {rs : List Reg}
    {us : List Upd} (t : Tame ps rs us) (port : Keeps (Dev.reception p) us) (err : Reg.LINK_ERR ∉ rs) (lost : Reg.LINK_LOST ∉ rs)
    (apart : ∀ x ∈ memoryParts, x ∉ ps) : LinkShut d (applyAll us e) p bit := by
  have same := port.eq e
  simp only [Dev.reception, Prod.mk.injEq] at same
  obtain ⟨port, shut, -⟩ := same
  have held : ((applyAll us e).port p).held = (e.port p).held := (congrArg PortSt.held port :)
  have rx : ((applyAll us e).port p).rx = (e.port p).rx := (congrArg PortSt.rx port :)
  have kept {f : Fld} (hf : f.reg ∉ rs) (i : Nat) : (applyAll us e).fld f i = e.fld f i := t.confined.fld e hf i
  exact {
    state := (t.link e p).trans h.state
    cause := (kept (by rw [hb.1]; exact err) p).trans h.cause
    count := (kept err p).trans h.count
    shut := shut.trans h.shut
    held := ⟨held.trans h.held.1, rx.trans h.held.2⟩
    lost := (kept lost p).trans h.lost
    memory := h.memory.trans (t.confined.memory apart e) }

theorem LinkDied.step {d e : Dev} {p : Nat} {bit : Fld} (h : LinkDied d e p bit) (hb : LinkBit bit) {ps : List Part} {rs : List Reg}
    {us : List Upd} (t : Tame ps rs us) (port : Keeps (Dev.reception p) us) (err : Reg.LINK_ERR ∉ rs) (lost : Reg.LINK_LOST ∉ rs)
    (apart : ∀ x ∈ memoryParts, x ∉ ps) : LinkDied d (applyAll us e) p bit :=
  (h.linkShut.step hb t port err lost apart).died fun i hi desc => t.fenced e (h.fenced i hi desc)

/-- What a fence leaves of a port stands when the command is over. -/
theorem Behind.reception {e d : Dev} (b : Behind e d) (p : Nat) : d.reception p = e.reception p := by
  have lost := (reception_fenceLost p e).eq e
  rw [← runAct_eq] at lost
  rw [← lost, Dev.reception, b.quiet.port, b.quiet.fld rfl, b.quiet.fld rfl, b.quiet.fld rfl, b.quiet.fld rfl, ← Dev.reception]

/-- A link that has died is dead when its command is over. -/
theorem Behind.linkDied {d₀ e d : Dev} {p : Nat} {bit : Fld} (b : Behind e d) (h : LinkDied d₀ e p bit) (hb : LinkBit bit) :
    LinkDied d₀ d p bit := by
  have lost : LinkDied d₀ (runAct fenceLost e) p bit := by
    rw [runAct_eq]
    exact h.step hb (tames_fenceLost e) (reception_fenceLost p e) (by decide) (by decide) (by decide)
  have q := b.quiet
  exact {
    state := (q.fld rfl p).trans lost.state
    cause := (q.fld (by rw [hb.1]; rfl) p).trans lost.cause
    count := (q.fld rfl p).trans lost.count
    shut := (q.fld rfl p).trans lost.shut
    held := by rw [q.port]; exact lost.held
    lost := (q.fld rfl p).trans lost.lost
    fenced := fun i hi desc => by rw [q.slice]; exact lost.fenced i hi desc
    memory := lost.memory.trans q.memory }

/-! ### The death -/

/-- What a death records before the port is emptied (R386–R388, R397). -/
def deathRecord (p : Nat) (own all : List ((Nat × Nat) × Nat)) : List Act :=
  [recordLoss p all, fun _ => [addLost own], poisonOnward p, enterLink p lsDead]

/-- The port as a death leaves it (R384, R387). -/
def shutPort (p : Nat) : Act := fun d =>
  [setF F.LINK_STATUS_ADMITTED p 0, setF F.LINK_STATUS_FENCE_RX p 0, setF F.LINK_STATUS_FENCE_TX p 0,
    .port p fun s => { s with
      held := [], rx := none, kx := none, nakOut := false, hello := false, rxFence := [], rxDevice := false
      autoStart := d.bit F.LINK_CFG_AUTO p, leafOut := false, silent := false },
    .servo fun s => { s with heard := mapSet (fun _ => (255, 0)) p (255, 0) s.heard }]

/-- What follows a death: the event, the fences and the report, and another parent (R385, R388, R476). -/
def deathFences (p : Nat) (hit : List Nat) (keys : List (BitVec 12)) : List Act :=
  [linkEvent p, forEach (fun i => fenceSlice i 2) hit, faultReport 2 (some p) keys, parentLost p]

/-- Whether a port has a link that can die. -/
def Dev.linkLive (d : Dev) (p : Nat) : Prop := d.linkState p ≠ lsDead ∧ d.linkState p ≠ lsDown

/-- The lost flits that a death of a port records, and its slices. -/
def Dev.lossOf (d : Dev) (p : Nat) : List ((Nat × Nat) × Nat) := lostPairs (d.port p).held ++ poisonPairs (d.port p)
def Dev.hitBy (d : Dev) (p : Nat) : List Nat := d.slicesOnLink p (d.lossOf p)

theorem linkDeath_eq {d : Dev} {p : Nat} (live : d.linkLive p) (bit : Fld) : linkDeath p bit d =
    inSequence ((fun _ => flagLink p bit) :: (deathRecord p (lostPairs (d.port p).held) (d.lossOf p) ++
      (shutPort p :: deathFences p (d.hitBy p) ((d.hitBy p).map fun i => (d.slice i).pkey)))) d := by
  have alive : ¬ (decide (d.linkState p = lsDead) || decide (d.linkState p = lsDown)) = true := by
    simpa [not_or] using show _ ∧ _ from live
  exact if_neg alive

theorem confines_recordLoss (p : Nat) (pairs : List ((Nat × Nat) × Nat)) : Confines [.regs] [.LINK_LOST, .LINK_LOSTN] (recordLoss p pairs) := by
  intro d
  simp only [recordLoss, confined_append, confined_flatMap, confined_cons, confined_nil, and_true]
  exact ⟨⟨rfl, rfl, rfl⟩, fun _ _ => ⟨rfl, rfl, rfl⟩⟩

theorem entries_recordLoss (p : Nat) (pairs : List ((Nat × Nat) × Nat)) (d : Dev) :
    (runAct (recordLoss p pairs) d).fld F.LINK_LOST_ENTRIES p = min 64 pairs.length := by
  have table : Confined [.regs] [.LINK_LOSTN] ((List.range 64).flatMap fun j =>
      let e := pairs[j]?.getD ((0, 0), 0)
      [setF F.LINK_LOSTN_PKEY (p * 64 + j) e.1.1, setF F.LINK_LOSTN_FLITS (p * 64 + j) (min 65535 e.2),
       setF F.LINK_LOSTN_ITEM (p * 64 + j) e.1.2]) := by
    simp only [confined_flatMap, confined_cons, confined_nil, and_true]
    exact fun _ _ => ⟨rfl, rfl, rfl⟩
  unfold recordLoss
  rw [runAct_eq, applyAll_append, table.fld _ (by decide), applyAll_cons, applyAll_cons, applyAll_cons, applyAll_nil,
    fld_apply_spared rfl, fld_setF]
  exact Nat.mod_eq_of_lt (Nat.lt_of_le_of_lt (Nat.min_le_left ..) (by decide))

theorem confines_poisonOnward (p : Nat) : Confines [.outbox, .ports] [] (poisonOnward p) := by
  intro d
  unfold poisonOnward
  split
  · split
    · simp only [confined_cons, confined_nil, and_true]
      exact ⟨rfl, rfl⟩
    · exact confined_nil
  · exact confined_nil

theorem confines_enterLink (p st : Nat) : Confines [.regs, .ports] [.LINK_STATUS] (enterLink p st) := by
  intro d
  simp only [enterLink, confined_cons, confined_nil, and_true]
  exact ⟨rfl, rfl, rfl⟩

/-- The state of a port, its entry and the count kept, once it is entered (R379, R392). -/
theorem enteredLink_enterLink {p st : Nat} (h : st < 16) (d : Dev) : d.enteredLink (runAct (enterLink p st) d) p st := by
  simp only [Dev.enteredLink, Dev.linkState, enterLink, runAct_eq, applyAll_cons, applyAll_nil, port_apply_same]
  refine ⟨?_, ?_, trivial⟩
  · rw [fld_apply_spared rfl, fld_apply_spared rfl]
    exact fld_setF_lt d p h
  · rw [fld_apply_spared rfl, fld_setF]
    exact Nat.mod_mod_of_dvd _ (dvd_refl _)

theorem confines_addLost (pairs : List ((Nat × Nat) × Nat)) : Confines [.commit] [] fun _ => [addLost pairs] := fun _ =>
  (confined_cons ..).2 ⟨rfl, confined_nil⟩

theorem confines_deathRecord (p : Nat) (own all : List ((Nat × Nat) × Nat)) :
    Confines [.regs, .commit, .outbox, .ports] [.LINK_LOST, .LINK_LOSTN, .LINK_STATUS] (inSequence (deathRecord p own all)) :=
  confines_inSequence_cons ((confines_recordLoss p all).mono (by decide) (by decide))
    (confines_inSequence_cons ((confines_addLost own).mono (by decide) (by decide))
      (confines_inSequence_cons ((confines_poisonOnward p).mono (by decide) (by decide))
        (confines_inSequence_cons (as := []) ((confines_enterLink p lsDead).mono (by decide) (by decide)) Confines.nil)))

theorem deathRecord_reads (p : Nat) (own all : List ((Nat × Nat) × Nat)) (d : Dev) :
    (runAct (inSequence (deathRecord p own all)) d).linkState p = lsDead ∧
    (runAct (inSequence (deathRecord p own all)) d).fld F.LINK_LOST_ENTRIES p = min 64 all.length := by
  unfold deathRecord
  rw [runAct_inSequence_cons, runAct_three]
  refine ⟨(enteredLink_enterLink (by decide) _).1, ?_⟩
  rw [(confines_enterLink p lsDead).fld _ (by decide), (confines_poisonOnward p).fld _ (by decide),
    (confines_addLost own).fld _ (by decide)]
  exact entries_recordLoss p all d

theorem confines_shutPort (p : Nat) : Confines [.regs, .ports, .servo] [.LINK_STATUS] (shutPort p) := by
  intro d
  simp only [shutPort, confined_cons, confined_nil, and_true]
  exact ⟨rfl, rfl, rfl, rfl, rfl⟩

theorem shutPort_reads (p : Nat) (d : Dev) : (runAct (shutPort p) d).fld F.LINK_STATUS_ADMITTED p = 0 ∧
    (((runAct (shutPort p) d).port p).held = [] ∧ ((runAct (shutPort p) d).port p).rx = none) ∧
    (runAct (shutPort p) d).linkState p = d.linkState p := by
  simp only [shutPort, runAct_eq, Dev.linkState, applyAll_cons, applyAll_nil]
  refine ⟨?_, ?_, ?_⟩
  · rw [fld_apply_spared rfl, fld_apply_spared rfl, fld_apply_spared rfl, fld_apply_spared rfl, fld_setF]
    rfl
  · rw [port_of_ports (keep_ports (Upd.servo _) _ (by simp)), port_apply_same]
    exact ⟨rfl, rfl⟩
  · rw [fld_apply_spared rfl, fld_apply_spared rfl, fld_apply_spared rfl, fld_apply_spared rfl, fld_apply_spared rfl]

theorem confines_linkEvent (p : Nat) : Confines [.regs, .chain, .outbox] [.EVT_STATUS, .CHAIN_ERR] (linkEvent p) := fun _ =>
  (confined_cons ..).2 ⟨rfl, confined_nil⟩

theorem confines_reparent : Confines [.regs, .servo] [.GCNT_STATUS] reparent := by
  intro d
  simp only [reparent, confined_ite, confined_nil, implies_true, true_and]
  intro _
  split
  · simp only [confined_cons, confined_nil, and_true]
    exact ⟨rfl, rfl, rfl⟩
  · simp only [confined_cons, confined_nil, and_true]
    exact ⟨rfl, rfl⟩

theorem tames_linkEvent (p : Nat) : Tames [.regs, .chain, .outbox] [.EVT_STATUS, .CHAIN_ERR] (linkEvent p) :=
  (confines_linkEvent p).tames (by decide) (by decide) (by decide) (by decide)

theorem tames_parentLost (p : Nat) : Tames [.regs, .servo] [.GCNT_STATUS] (parentLost p) := fun d =>
  (confines_reparent.tames (by decide) (by decide) (by decide) (by decide)).onlyIf d

/-- A death shuts its port and records what is lost (R384–R388, R397). -/
theorem linkShut_record {p : Nat} {bit : Fld} (hb : LinkBit bit) (d : Dev) :
    LinkShut d (runAct (shutPort p) (runAct (inSequence (deathRecord p (lostPairs (d.port p).held) (d.lossOf p)))
      (applyAll (flagLink p bit) d))) p bit := by
  obtain ⟨reg, low, high⟩ := hb
  obtain ⟨cause, count⟩ := fld_flagFault (bit := bit) (faults := F.LINK_ERR_FAULTS) d p (top := 4294967295) (by decide)
    ⟨.inr (by simp only; omega), by decide, by omega⟩
  have flag : Confined [.regs] [.LINK_ERR] (flagLink p bit) := by
    simp [flagLink, flagFault, setF, satF, Upd.confined, Upd.touches, Upd.writes, reg]
  have memory := flag.memory (by decide) d
  change (applyAll (flagLink p bit) d).fld bit p = 1 at cause
  change (applyAll (flagLink p bit) d).fld F.LINK_ERR_FAULTS p = _ at count
  generalize applyAll (flagLink p bit) d = e at *
  obtain ⟨state, lost⟩ := deathRecord_reads p (lostPairs (d.port p).held) (d.lossOf p) e
  have record := confines_deathRecord p (lostPairs (d.port p).held) (d.lossOf p) e
  obtain ⟨shut, held, same⟩ := shutPort_reads p (runAct (inSequence (deathRecord p (lostPairs (d.port p).held) (d.lossOf p))) e)
  have closes := confines_shutPort p (runAct (inSequence (deathRecord p (lostPairs (d.port p).held) (d.lossOf p))) e)
  have err {f : Fld} (hf : f.reg = .LINK_ERR) (i : Nat) := (closes.fld (f := f) _ (by rw [hf]; decide) i).trans
    (record.fld (f := f) e (by rw [hf]; decide) i)
  exact {
    state := same.trans state
    cause := (err reg p).trans cause
    count := (err rfl p).trans count
    shut := shut
    held := held
    lost := (closes.fld _ (by decide) p).trans lost
    memory := (memory.trans (record.memory (by decide) e)).trans (closes.memory (by decide) _) }

/-- The descriptors of slices behind the record of a death. -/
theorem slice_record (p : Nat) (bit : Fld) (own all : List ((Nat × Nat) × Nat)) (d : Dev) (i : Nat) :
    (runAct (shutPort p) (runAct (inSequence (deathRecord p own all)) (applyAll (flagLink p bit) d))).slice i = d.slice i := by
  have flag : leaves .slices (flagLink p bit) := by simp [flagLink, flagFault, setF, satF]
  rw [runAct_eq, (confines_shutPort p _).slice _ (by decide), runAct_eq, (confines_deathRecord p own all _).slice _ (by decide),
    slice_of_slices (keepAll_slices d flag)]

/-- The slices that a death concerns are fenced by its fences. -/
theorem fenced_hit {is : List Nat} {e : Dev} {i : Nat} (hi : i ∈ is) (desc : (e.slice i).desc.isSome = true) :
    ((runAct (forEach (fun i => fenceSlice i 2) is) e).slice i).fenced = true :=
  fenced_forEach (f := fun i => fenceSlice i 2) (k := fun i => i) (fun i => tames_fenceSlice i 2) (fun _ _ h => fenced_fenceSlice h 2) is e i
    hi desc

/-- The fences of a death leave its link dead, with its slices fenced (R385, R476). -/
theorem linkDied_deathFences {d e : Dev} {p : Nat} {bit : Fld} (shut : LinkShut d e p bit) (hb : LinkBit bit)
    (slice : ∀ i, e.slice i = d.slice i) (keys : List (BitVec 12)) :
    LinkDied d (runAct (inSequence (deathFences p (d.hitBy p) keys)) e) p bit := by
  simp only [deathFences, runAct_inSequence_cons, runAct_inSequence_nil]
  have event := shut.step hb (tames_linkEvent p e) ((confines_linkEvent p e).reception p (by decide) (by decide)) (by decide)
    (by decide) (by decide)
  have slice' (i : Nat) : (runAct (linkEvent p) e).slice i = d.slice i := ((confines_linkEvent p e).slice e (by decide) i).trans (slice i)
  rw [← runAct_eq] at event
  generalize runAct (linkEvent p) e = e at *
  have fences : Tames fenceParts fenceRegs (forEach (fun i => fenceSlice i 2) (d.hitBy p)) := Tames.forEach fun i _ => tames_fenceSlice i 2
  have held := event.step hb (fences e) (keeps_forEach (fun i e => reception_fenceSlice p i 2 e) e) (by decide) (by decide) (by decide)
  have hit (i : Nat) (hi : i ∈ d.hitBy p) (desc : (d.slice i).desc.isSome = true) :=
    fenced_hit hi (e := e) (by rw [slice']; exact desc)
  rw [← runAct_eq] at held
  generalize runAct (forEach _ _) e = e at *
  have fenced := held.died hit
  have reported := fenced.step hb (tames_faultReport 2 (some p) keys e)
    ((tames_faultReport _ _ _).confines e |>.reception p (by decide) (by decide)) (by decide) (by decide) (by decide)
  rw [← runAct_eq] at reported
  exact reported.step hb (tames_parentLost p _) ((tames_parentLost p).confines _ |>.reception p (by decide) (by decide)) (by decide)
    (by decide) (by decide)

/-- A live link whose death is called dies (R384–R388, R476). -/
theorem linkDied_linkDeath {d : Dev} {p : Nat} (live : d.linkLive p) {bit : Fld} (hb : LinkBit bit) :
    LinkDied d (runAct (linkDeath p bit) d) p bit := by
  rw [runAct_eq, linkDeath_eq live, ← runAct_eq, runAct_inSequence_cons, runAct_list, runAct_inSequence_append, runAct_inSequence_cons]
  exact linkDied_deathFences (linkShut_record (p := p) hb d) hb (slice_record p bit _ _ d) _

/-! ### Deaths of commands -/

/-- What a death of port `p` reads of a module. -/
structure SameLink (d d' : Dev) (p : Nat) : Prop where
  state : d'.linkState p = d.linkState p
  held : (d'.port p).held = (d.port p).held
  rx : (d'.port p).rx = (d.port p).rx
  count : d'.fld F.LINK_ERR_FAULTS p = d.fld F.LINK_ERR_FAULTS p
  slices : d'.slices = d.slices
  coord : ∀ i, d'.reg .DEV_COORD i = d.reg .DEV_COORD i
  memory : sameMemory d d'

/-- The slices of a link rest on the map of slices and on the coordinates. -/
theorem slicesOnLink_congr {d d' : Dev} (slices : d'.slices = d.slices) (coord : ∀ i, d'.reg .DEV_COORD i = d.reg .DEV_COORD i) :
    d'.slicesOnLink = d.slicesOnLink := by
  have fld (f : Fld) (hf : f.reg = .DEV_COORD) (i : Nat) : d'.fld f i = d.fld f i := by simp only [Dev.fld, hf, coord]
  have axes : d'.axis = d.axis := funext fun a => by
    unfold Dev.axis
    split <;> exact fld _ rfl 0
  have here : d'.here = d.here := by simp only [Dev.here, fld F.DEV_COORD_X rfl, fld F.DEV_COORD_Y rfl, fld F.DEV_COORD_Z rfl]
  funext p pairs
  unfold Dev.slicesOnLink Dev.isTransitOn Dev.isMember Dev.offsetIn Dev.neighbour Dev.stepOn
  rw [slices, axes, here]

/-- A death of a module that reads the same is a death of this one. -/
theorem LinkDied.before {d d' e : Dev} {p : Nat} {bit : Fld} (h : LinkDied d' e p bit) (same : SameLink d d' p) : LinkDied d e p bit := by
  have poison : poisonPairs (d'.port p) = poisonPairs (d.port p) := by simp only [poisonPairs, PortSt.rxHeader, same.rx]
  exact {
    state := h.state
    cause := h.cause
    count := by rw [Dev.tallied, h.count, same.count]
    shut := h.shut
    held := h.held
    lost := by rw [h.lost, same.held, poison]
    fenced := fun i hi desc => by
      refine h.fenced i ?_ (by rw [slice_of_slices same.slices]; exact desc)
      rw [slicesOnLink_congr same.slices same.coord, same.held, poison]
      exact hi
    memory := same.memory.trans h.memory }

/-- A command whose act is the death of a live link. -/
theorem completes_linkDeath {ins : Instr} {s : State} {act : Act} {p : Nat} {bit : Fld} (he : exec ins s = perform (onPower act) s)
    (hs : s.dev.steady) (ha : act s.dev = linkDeath p bit s.dev) (live : s.dev.linkLive p) (hb : LinkBit bit) :
    Completes ins s fun d => LinkDied s.dev d p bit := by
  refine completes_behind he hs fun d b => ?_
  rw [runAct_eq, ha, ← runAct_eq] at b
  exact b.linkDied (linkDied_linkDeath live hb) hb

/-- A port whose flit layer runs has a link that can die. -/
theorem linkLive_of_flitLayer {d : Dev} {p : Nat} (h : d.flitLayer p = true) : d.linkLive p := by
  simp only [Dev.flitLayer, Bool.and_eq_true, decide_eq_true_eq] at h
  exact ⟨by rw [lsDead]; omega, by rw [lsDown]; omega⟩

theorem linkLive_of_up {d : Dev} {p : Nat} (h : d.linkState p = lsUp) : d.linkLive p := by
  refine ⟨?_, ?_⟩ <;>
  · rw [h]
    decide

end Sys2Proof.Machine
end

