-- ==== Sys2Proof/Proofs/PortTimers.lean ====
section
/-! PROOFS. The timers of a port: CTRL flits, resends, fences sent again, HELLO flits, silence and the end of a key phase (R368, R372, R375,
R377, R379, R384, R607). -/

namespace Sys2Proof.Machine

/-- A command that only sends. -/
theorem completes_sends {ins : Instr} {s : State} {act : Act} {ms : List Msg} (he : exec ins s = perform (onPower act) s)
    (hs : s.dev.steady) (ha : act s.dev = ms.map Upd.send) :
    Completes ins s fun d => (∀ m ∈ ms, m ∈ d.outbox) ∧ s.dev.wrote d [] := by
  have confined : Confined [.outbox] [] (ms.map Upd.send) := by
    simp only [confined_map]
    exact fun _ _ => rfl
  refine completes_does he hs ha confined (by decide) fun d q => ⟨fun m hm => ?_, ?_⟩
  · exact q.sent.subset (sent_of_mem (List.mem_map_of_mem hm) _)
  · exact q.wrote ((confined.mono (by decide) fun _ h => h).wrote _ (by decide))

/-! ### Resends -/

/-- The resends from a flit so far, this one included (R372). -/
def resendsFrom (p e : Nat) (d : Dev) : Nat := if (d.port p).resendSeq = e then (d.port p).resends + 1 else 1

/-- What a resend of `n` flits changes that does not end the link (R372). -/
def resendUpds (p e n : Nat) (d : Dev) : List Upd :=
  [.port p fun s => { s with resends := resendsFrom p e d, resendSeq := e, ackAt := d.now }, addF F.LINK_RETRY_EPISODES p 1,
   addF F.LINK_RETRY_FLITS p n, .send (.resendFlits p e n)]

theorem confined_resendUpds (p e n : Nat) (d : Dev) : Confined [.ports, .regs, .outbox] [.LINK_RETRY] (resendUpds p e n d) := by
  simp only [resendUpds, confined_cons, confined_nil, and_true]
  exact ⟨rfl, rfl, rfl, rfl⟩

theorem resendFrom_eq (p e : Nat) (d : Dev) : resendFrom p e d =
    if d.fld F.LINK_CFG_REPLAY_MAX p ≤ resendsFrom p e d then linkDeath p F.LINK_ERR_REPLAY_MAX d
    else resendUpds p e ((d.port p).held.dropWhile fun h => h.seq ≠ e).length d := rfl

theorem resendUpds_reads (p e n : Nat) (d : Dev) :
    d.counted (applyAll (resendUpds p e n d) d) F.LINK_RETRY_EPISODES p 1 ∧
    d.counted (applyAll (resendUpds p e n d) d) F.LINK_RETRY_FLITS p n ∧
    ((applyAll (resendUpds p e n d) d).port p).resends = resendsFrom p e d ∧
    ((applyAll (resendUpds p e n d) d).port p).resendSeq = e := by
  have port : (applyAll (resendUpds p e n d) d).port p = { d.port p with resends := resendsFrom p e d, resendSeq := e, ackAt := d.now } := by
    simp only [resendUpds, applyAll_cons, applyAll_nil]
    rw [port_of_ports (keep_ports (Upd.send _) _ (by simp)), port_of_ports (keep_ports (addF ..) _ (by simp [addF])),
      port_of_ports (keep_ports (addF ..) _ (by simp [addF])), port_apply_same]
  have episodes : d.counted (applyAll (resendUpds p e n d) d) F.LINK_RETRY_EPISODES p 1 := by
    simp only [resendUpds, applyAll_cons, applyAll_nil, Dev.counted]
    rw [fld_apply_spared rfl, fld_apply_spared rfl, fld_addF, fld_apply_spared rfl]
  have flits : d.counted (applyAll (resendUpds p e n d) d) F.LINK_RETRY_FLITS p n := by
    simp only [resendUpds, applyAll_cons, applyAll_nil, Dev.counted]
    rw [fld_apply_spared rfl, fld_addF, fld_apply_spared rfl, fld_apply_spared rfl]
  exact ⟨episodes, flits, by rw [port], by rw [port]⟩

/-- A command that sends the held flits again from one on. -/
theorem completes_resent {ins : Instr} {s : State} {act : Act} {p e : Nat} (he : exec ins s = perform (onPower act) s)
    (hs : s.dev.steady) (ha : act s.dev = resendFrom p e s.dev) (live : s.dev.linkLive p) :
    Completes ins s fun d => Resent s.dev d p e := by
  rw [resendFrom_eq] at ha
  by_cases last : s.dev.fld F.LINK_CFG_REPLAY_MAX p ≤ resendsFrom p e s.dev
  · rw [if_pos last] at ha
    exact (completes_linkDeath he hs ha live ⟨rfl, rfl, by decide⟩).imp fun d died => (if_pos last).mpr died
  · rw [if_neg last] at ha
    have confined := confined_resendUpds p e ((s.dev.port p).held.dropWhile fun h => h.seq ≠ e).length s.dev
    refine completes_does he hs ha confined (by decide) fun d q => (if_neg last).mpr ?_
    obtain ⟨episodes, flits, again, seq⟩ := resendUpds_reads p e ((s.dev.port p).held.dropWhile fun h => h.seq ≠ e).length s.dev
    refine ⟨(q.fld rfl p).trans episodes, (q.fld rfl p).trans flits, q.sent.subset (sent_of_mem (by simp [resendUpds]) _), ?_, ?_, ?_⟩
    · rw [q.port]; exact again
    · rw [q.port]; exact seq
    · exact (q.fld rfl p).trans (confined.fld _ (by decide) p)

/-! ### Fences sent again -/

/-- The FENCE flits of every fence in force (R377). -/
def fencesInForce (d : Dev) (p : Nat) : List Msg :=
  ((d.slices.filter fun e => e.2.fenced).map fun e => Msg.fence p false e.2.pkey d.gcnt) ++
    (if d.mode = stSafe then [.fence p true 0 d.gcnt] else [])

theorem fenceFlitResendAct_eq {d : Dev} {p : Nat} (up : d.linkState p = lsUp) : fenceFlitResendAct p d = (fencesInForce d p).map .send := by
  rw [fenceFlitResendAct, if_neg (not_not.2 up), fencesInForce, List.map_append, List.map_map]
  congr 1
  split <;> rfl

theorem mem_fencesInForce {d : Dev} {p i : Nat} (h : (d.slice i).fenced = true) : Msg.fence p false (d.slice i).pkey d.gcnt ∈ fencesInForce d p := by
  have listed : (i, d.slice i) ∈ d.slices := mem_of_mapGet fun e => by
    rw [Dev.slice, e] at h
    cases h
  exact List.mem_append_left _ (List.mem_map.2 ⟨_, List.mem_filter.2 ⟨listed, h⟩, rfl⟩)

theorem keyPhaseExhaustedAct_eq {d : Dev} {p : Nat} (up : d.linkState p = lsUp) : keyPhaseExhaustedAct p d =
    if 2 ^ 47 ≤ (d.port p).txN then linkDeath p F.LINK_ERR_PROTOCOL d else [] := by
  rw [keyPhaseExhaustedAct, onlyIf, up]
  simp [protocolFault]

theorem replayTimeoutAct_eq {d : Dev} {p : Nat} (on : d.flitLayer p = true) {h : HeldFlit} {hs : List HeldFlit} (held : (d.port p).held = h :: hs) :
    replayTimeoutAct p d = if (d.port p).ackAt + d.fld F.LINK_CFG_REPLAY_TO p ≤ d.now then resendFrom p h.seq d else [] := by
  rw [replayTimeoutAct, held]
  simp [on]

theorem replayTimeoutAct_off {d : Dev} {p : Nat} (off : d.flitLayer p = false) : replayTimeoutAct p d = [] := by
  unfold replayTimeoutAct
  split
  · rw [off]; rfl
  · rfl

/-- Settles O44: what each timer does once its time has come, and that before it nothing is done; a death and a resend by their own lemmas. -/
theorem portTimersAct : Obligations.PortTimersAct := by
  intro s p lock hs
  dsimp only
  refine ⟨fun on => ?_, fun off => ⟨?_, ?_, ?_⟩, fun on h hs' held => ⟨fun due => ?_, fun early => ?_⟩, fun none_ => ?_, fun up => ?_, fun up => ⟨?_, ?_⟩,
    fun hello => ?_, fun other => ?_, fun on => ⟨fun lost => ?_, fun ok silent => ?_, fun ok heard => ?_⟩, fun up => ⟨fun full => ?_, fun room => ?_⟩⟩
  · exact (completes_sends (ms := [_]) rfl hs (if_pos on)).imp fun d ⟨sent, rest⟩ => ⟨sent _ (List.mem_singleton_self _), rest⟩
  · exact completes_quiet rfl hs (if_neg (by rw [off]; exact Bool.false_ne_true))
  · exact completes_quiet rfl hs (replayTimeoutAct_off off)
  · exact completes_quiet rfl hs (if_pos (by rw [off]; rfl))
  · exact completes_resent rfl hs ((replayTimeoutAct_eq on held).trans (if_pos due)) (linkLive_of_flitLayer on)
  · exact completes_quiet rfl hs ((replayTimeoutAct_eq on held).trans (if_neg (by omega)))
  · exact completes_quiet rfl hs (by rw [replayTimeoutAct, none_])
  · refine (completes_sends rfl hs (fenceFlitResendAct_eq (of_decide_eq_true up))).imp fun d ⟨sent, rest⟩ => ⟨rest, fun i fenced => ?_, fun safe => ?_⟩
    · exact sent _ (mem_fencesInForce fenced)
    · exact sent _ (List.mem_append_right _ (by rw [if_pos safe]; exact List.mem_singleton_self _))
  · exact completes_quiet rfl hs (if_pos (of_decide_eq_false up))
  · exact completes_quiet rfl hs (if_neg (by simp [of_decide_eq_false up]))
  · exact (completes_sends (ms := [_]) rfl hs (if_pos hello)).imp fun d ⟨sent, rest⟩ => ⟨sent _ (List.mem_singleton_self _), rest⟩
  · exact completes_quiet rfl hs (if_neg other)
  · exact completes_linkDeath rfl hs ((if_neg (by rw [on]; decide)).trans (if_pos lost)) (linkLive_of_flitLayer on) ⟨rfl, rfl, by decide⟩
  · exact completes_linkDeath rfl hs ((if_neg (by rw [on]; decide)).trans ((if_neg (by rw [ok]; decide)).trans (if_pos silent)))
      (linkLive_of_flitLayer on) ⟨rfl, rfl, by decide⟩
  · exact completes_quiet rfl hs ((if_neg (by rw [on]; decide)).trans ((if_neg (by rw [ok]; decide)).trans (if_neg (by rw [heard]; decide))))
  · exact completes_linkDeath rfl hs ((keyPhaseExhaustedAct_eq (of_decide_eq_true up)).trans (if_pos full))
      (linkLive_of_up (of_decide_eq_true up)) ⟨rfl, rfl, by decide⟩
  · exact completes_quiet rfl hs ((keyPhaseExhaustedAct_eq (of_decide_eq_true up)).trans (if_neg (by omega)))

end Sys2Proof.Machine
end

