-- ==== Sys2Proof/Proofs/HeardRequests.lean ====
section
/-! PROOFS. Requests whose act fences or raises events: a request is counted before its act's updates, and they do behind the count what they
do without it (R557, R558, R589). -/

namespace Sys2Proof.Machine

/-! ### The count of requests is read by no update -/

/-- The module with other registers. -/
def Dev.withRegs (d : Dev) (R : SMap Nat) : Dev := { d with regs := R }

/-- A module that differs in the counters of the chain alone. -/
structure Alike (d e : Dev) : Prop where
  rest : e = d.withRegs e.regs
  reg : ∀ r i, r ≠ .CHAIN_CNT → e.reg r i = d.reg r i

/-- An update that reads and writes the counters of the chain nowhere, and of the chain only raises events. -/
def Upd.deaf : Upd → Bool
  | .fld f _ _ => decide (f.reg ≠ .CHAIN_CNT)
  | .chain _ | .pump | .routed _ | .inject _ | .snapLatch _ _ | .freeze _ | .restart _ => false
  | _ => true

/-- An act of such updates. -/
abbrev Deaf (a : Act) : Prop := Makes (fun u => u.deaf = true) a

/-- The chain holding one more event. -/
def ChainSt.holding (c : ChainSt) (k : Nat) (gcnt : BitVec 64) (b : List Byte) : ChainSt :=
  { c with evSeq := c.evSeq + 1, events := c.events ++ [⟨c.evSeq + 1, k, gcnt, b⟩] }

/-- The counts of an event that is held. -/
def Dev.noted (d : Dev) : Dev :=
  (d.setFld F.EVT_STATUS_SENT 0 fun _ => (d.chain.evSeq + 1).toNat).setFld F.EVT_STATUS_HELD 0 fun _ => d.chain.events.length + 1

theorem raise_eq (d : Dev) (k : Nat) (b : List Byte) : d.raise k b =
    if 960 ≤ d.chain.events.length ∧ k ≠ 1 ∧ k ≠ 3 then
      ((d.setFld F.EVT_STATUS_LOST 0 (satAdd 65535 1)).setFld F.CHAIN_ERR_EVENT_LOST 0 fun _ => 1).setFld F.CHAIN_ERR_FAULTS 0 (satAdd 4294967295 1)
    else ({ d.noted with chain := d.chain.holding k d.gcnt b } : Dev).sendEvents (d.chain.holding k d.gcnt b).events.length := by
  unfold Dev.raise Dev.noted ChainSt.holding
  dsimp only
  generalize sent : d.setFld F.EVT_STATUS_SENT 0 (fun _ => (d.chain.evSeq + 1).toNat) = x
  have chain : x.chain = d.chain := by rw [← sent, setFld_chain]
  have gcnt : x.gcnt = d.gcnt := by rw [← sent, setFld_gcnt]
  rw [chain]
  generalize held : x.setFld F.EVT_STATUS_HELD 0 (fun _ => d.chain.events.length + 1) = y
  have chain' : y.chain = d.chain := by rw [← held, setFld_chain, chain]
  have gcnt' : y.gcnt = d.gcnt := by rw [← held, setFld_gcnt, gcnt]
  rw [chain', gcnt']

theorem Alike.refl (d : Dev) : Alike d d := ⟨rfl, fun _ _ _ => rfl⟩

section alike
variable {d e : Dev} (h : Alike d e)
include h

theorem Alike.fld {f : Fld} (hf : f.reg ≠ .CHAIN_CNT) (i : Nat) : e.fld f i = d.fld f i := by simp only [Dev.fld, h.reg _ _ hf]

theorem Alike.of_rest {u : Upd} (hu : ∀ R, u.apply (d.withRegs R) = (u.apply d).withRegs R) : Alike (u.apply d) (u.apply e) := by
  have kept : (u.apply d).regs = d.regs := (congrArg Dev.regs (hu d.regs) :)
  have run : u.apply e = (u.apply d).withRegs e.regs := (congrArg u.apply h.rest).trans (hu _)
  rw [run]
  exact ⟨rfl, fun r i hr => (h.reg r i hr).trans (reg_of_regs kept r i).symm⟩

theorem alike_setFld {f : Fld} (hf : f.reg ≠ .CHAIN_CNT) (i : Nat) (g : Nat → Nat) : Alike (d.setFld f i g) (e.setFld f i g) := by
  refine ⟨?_, fun r j hr => ?_⟩
  · rw [h.rest]
    rfl
  · by_cases same : r = f.reg ∧ j % regCopies = i % regCopies
    · have key (x : Dev) : x.reg r j = x.reg f.reg i := by simp only [Dev.reg, regKey, same]
      rw [key, key, reg_setFld_same, reg_setFld_same, h.reg _ _ hf, h.fld hf]
    · have apart : r ≠ f.reg ∨ j % regCopies ≠ i % regCopies := by
        by_contra other
        push Not at other
        exact same other
      rw [reg_setFld_other _ _ _ _ apart, reg_setFld_other _ _ _ _ apart, h.reg r j hr]

omit h in
theorem alike_withRegs {R : SMap Nat} (reg : ∀ r i, r ≠ .CHAIN_CNT → (d.withRegs R).reg r i = d.reg r i) : Alike d (d.withRegs R) := ⟨rfl, reg⟩

theorem alike_chain (c : ChainSt) : Alike { d with chain := c } { e with chain := c } := by
  refine ⟨?_, fun r i hr => h.reg r i hr⟩
  rw [h.rest]
  rfl

theorem alike_emit (m : Msg) : Alike (d.emit m) (e.emit m) := by
  refine ⟨?_, fun r i hr => h.reg r i hr⟩
  rw [h.rest]
  rfl

theorem Alike.chain : e.chain = d.chain := by
  rw [h.rest]
  rfl

theorem Alike.gcnt : e.gcnt = d.gcnt := by
  rw [h.rest]
  rfl

theorem alike_ask (b : OwnReq) (m : BitVec 10 → Msg) : Alike (d.ask b m) (e.ask b m) := by
  have tag : e.freeTag = d.freeTag := by simp only [Dev.freeTag, h.chain]
  have now_ : e.now = d.now := by simp only [Dev.now, h.gcnt]
  simp only [Dev.ask, tag, now_, h.chain]
  exact alike_emit (alike_chain h _) _

theorem alike_sendEvents (n : Nat) : Alike (d.sendEvents n) (e.sendEvents n) := by
  induction n generalizing d e with
  | zero => exact h
  | succ n ih =>
    have chained : e.chained = d.chained := by
      simp only [Dev.chained, Dev.bit, h.fld (f := F.CHAIN_ADDR_VALID) (by decide), h.fld (f := F.CHAIN_STATUS_IN_STATE) (by decide)]
    unfold Dev.sendEvents
    rw [chained, h.chain]
    split
    · exact h
    · split
      · exact h
      · exact ih (alike_ask (alike_chain h _) _ _)

theorem alike_noted : Alike d.noted e.noted := by
  unfold Dev.noted
  rw [h.chain]
  exact alike_setFld (alike_setFld h (by decide) _ _) (by decide) _ _

theorem alike_raise (k : Nat) (b : List Byte) : Alike (d.raise k b) (e.raise k b) := by
  rw [raise_eq, raise_eq, h.chain, h.gcnt]
  split
  · exact alike_setFld (alike_setFld (alike_setFld h (by decide) _ _) (by decide) _ _) (by decide) _ _
  · exact alike_sendEvents (alike_chain (alike_noted h) (d.chain.holding k d.gcnt b)) _

theorem alike_apply {u : Upd} (hu : u.deaf = true) : Alike (u.apply d) (u.apply e) := by
  cases u with
  | fld f i g => exact alike_setFld h (of_decide_eq_true hu) i g
  | event k b => exact alike_raise h k b
  | sendEvents =>
    change Alike (d.sendEvents d.chain.events.length) (e.sendEvents e.chain.events.length)
    rw [h.chain]
    exact alike_sendEvents h _
  | ask b m => exact alike_ask h b m
  | spm c a bs =>
    refine h.of_rest fun R => ?_
    simp only [Upd.apply]
    split <;> rfl
  | chain g => cases hu
  | pump => cases hu
  | routed q => cases hu
  | inject p => cases hu
  | snapLatch i k => cases hu
  | freeze on => cases hu
  | restart w => cases hu
  | _ => exact h.of_rest fun R => rfl

theorem alike_applyAll {us : List Upd} (hus : Each (fun u => u.deaf = true) us) : Alike (applyAll us d) (applyAll us e) := by
  induction us generalizing d e with
  | nil => exact h
  | cons u us ih =>
    obtain ⟨hu, rest⟩ := (each_cons ..).1 hus
    exact ih (alike_apply h hu) rest

end alike

theorem alike_heard (d : Dev) : Alike d d.heard := ⟨rfl, fun _ i hr => reg_heard d hr i⟩

/-! ### What such updates leave of the chain -/

theorem raised_apply {u : Upd} (hu : u.deaf = true) (d : Dev) : Raised d (u.apply d) := by
  cases u with
  | fld f i g => exact raised_setFld d f i g
  | event k b => exact raised_raise d k b
  | sendEvents => exact raised_sendEvents _ d
  | ask b m => exact raised_ask d b m
  | spm c a bs =>
    refine .of_chain ?_
    simp only [Upd.apply]
    split <;> rfl
  | chain g => cases hu
  | pump => cases hu
  | routed q => cases hu
  | inject p => cases hu
  | snapLatch i k => cases hu
  | freeze on => cases hu
  | restart w => cases hu
  | _ => exact .of_chain rfl

theorem raised_applyAll {us : List Upd} (hus : Each (fun u => u.deaf = true) us) (d : Dev) : Raised d (applyAll us d) := by
  induction us generalizing d with
  | nil => exact .of_chain rfl
  | cons u us ih =>
    obtain ⟨hu, rest⟩ := (each_cons ..).1 hus
    exact (raised_apply hu d).trans (ih rest _)

/-- An act that leaves routing, the chain and the snapshot is deaf. -/
theorem Confined.deaf {ps : List Part} {rs : List Reg} {us : List Upd} (h : Confined ps rs us) (chain : Part.chain ∉ ps) (route : Part.route ∉ ps)
    (snap : Part.snapPend ∉ ps) (frozen : Part.frozen ∉ ps) (cnt : Reg.CHAIN_CNT ∉ rs) : Each (fun u => u.deaf = true) us := by
  intro u hu
  have hc := h u hu
  simp only [Upd.confined, Bool.and_eq_true, List.all_eq_true, decide_eq_true_eq] at hc
  obtain ⟨parts, regs⟩ := hc
  cases u with
  | fld f i g => exact decide_eq_true fun e => cnt (e ▸ regs f.reg (List.mem_singleton_self _))
  | chain g => exact absurd (parts .chain (by simp [Upd.touches])) chain
  | pump => exact absurd (parts .route (by simp [Upd.touches])) route
  | routed q => exact absurd (parts .route (by simp [Upd.touches])) route
  | inject p => exact absurd (parts .route (by simp [Upd.touches])) route
  | snapLatch i k => exact absurd (parts .snapPend (by simp [Upd.touches])) snap
  | freeze on => exact absurd (parts .frozen (by simp [Upd.touches])) frozen
  | restart w => exact absurd (parts .chain (by simp [Upd.touches, Part.all])) chain
  | _ => rfl

theorem deaf_dropQueued (pkey : BitVec 12) : Deaf (dropQueued pkey) := by
  intro d
  refine (each_append _ _).2 ⟨fun u hu => ?_, ?_⟩
  · obtain ⟨q, -, hu⟩ := List.mem_flatMap.1 hu
    dsimp only at hu
    split at hu
    · exact absurd hu List.not_mem_nil
    · rcases List.mem_cons.1 hu with rfl | hu
      · rfl
      · obtain ⟨x, -, hx⟩ := List.mem_filterMap.1 hu
        obtain ⟨i, -, rfl⟩ := Option.map_eq_some_iff.1 hx
        rfl
  · simp only [each_ite, each_cons, each_nil, and_true, implies_true]
    exact fun _ => rfl

theorem deaf_sendFences (device : Bool) (pkey : BitVec 12) : Deaf (sendFences device pkey) := by
  intro d
  simp only [sendFences, each_flatMap, each_cons, each_nil, and_true]
  exact fun p _ => ⟨rfl, rfl⟩

theorem deaf_enterState (st : Nat) : Deaf (enterState st) := by
  intro d
  simp only [enterState, noteQuiet, each_ite, each_append, each_cons, each_nil, and_true, implies_true, true_and]
  exact fun _ => ⟨⟨rfl, rfl, rfl, rfl⟩, rfl⟩

theorem deaf_faultReport (cls : Nat) (port : Option Nat) (pkeys : List (BitVec 12)) : Deaf (faultReport cls port pkeys) := by
  intro d
  simp only [faultReport, each_cons, each_nil, and_true]
  exact ⟨rfl, rfl⟩

theorem deaf_fenceSlice (i cls : Nat) : Deaf (fenceSlice i cls) := by
  intro d
  rw [fenceSlice_eq, each_ite]
  refine ⟨fun _ => each_nil, fun _ => Makes.inSequence (fun a ha e => ?_) d⟩
  rcases List.mem_cons.1 ha with rfl | ha
  · exact (Confines.forEach (fun x _ => confines_fenceCore x) e).deaf (by decide) (by decide) (by decide) (by decide) (by decide)
  rcases List.mem_cons.1 ha with rfl | ha
  · exact (each_cons ..).2 ⟨rfl, each_nil⟩
  rcases List.mem_append.1 ha with ha | ha
  · simp only [fenceFlood, List.mem_cons, List.not_mem_nil, or_false] at ha
    rcases ha with rfl | rfl | rfl | rfl | rfl
    · simp only [each_map]
      exact fun _ _ => rfl
    · rw [each_append]
      refine ⟨?_, (tame_fenceBit cls).confined.deaf (by decide) (by decide) (by decide) (by decide) (by decide)⟩
      simp only [each_cons, each_nil, and_true]
      exact ⟨rfl, rfl, rfl, rfl, rfl⟩
    · exact deaf_dropQueued _ e
    · exact deaf_sendFences _ _ e
    · exact ((tames_publishSnap true).confines.onlyIf e).deaf (by decide) (by decide) (by decide) (by decide) (by decide)
  · simp only [fenceEnd, List.mem_cons, List.not_mem_nil, or_false] at ha
    rcases ha with rfl | rfl
    · exact Makes.onlyIf (deaf_enterState _) e
    · exact ((tames_sendResolution i).confines e).deaf (by decide) (by decide) (by decide) (by decide) (by decide)

theorem deaf_faultSlice (i cls : Nat) : Deaf (faultSlice i cls) := by
  intro d
  simp only [faultSlice, each_ite, each_nil, implies_true, true_and]
  exact fun _ => Makes.cons (deaf_fenceSlice i cls) (Makes.cons (as := []) (deaf_faultReport _ _ _) Makes.nil) d

theorem deaf_fenceLost : Deaf fenceLost := by
  intro d
  simp only [fenceLost, each_ite, each_nil, implies_true, true_and]
  refine fun _ => Makes.cons (Makes.forEach fun k _ e => ?_) (Makes.cons (as := []) (fun d => ?_) Makes.nil) d
  · split
    · exact deaf_faultSlice _ 1 e
    · exact each_nil
  · exact (each_cons ..).2 ⟨rfl, each_nil⟩

/-! ### A request handled behind its count -/

/-- The module as a request leaves it that has been counted and answered: but for the count, the chain and the messages it is what the act
leaves. -/
structure Served (d e : Dev) : Prop where
  rest : ({ e with regs := [], chain := .init, outbox := [] } : Dev) = { d with regs := [], chain := .init, outbox := [] }
  reg : ∀ r i, r ≠ .CHAIN_CNT → e.reg r i = d.reg r i
  sent : d.outbox <+: e.outbox

theorem served_respond {d e : Dev} (h : Alike d e) (r : Req) (a : Answer) : Served d (applyAll (respond r a) e) := by
  refine ⟨?_, fun x i hx => (reg_of_regs rfl x i).trans (h.reg x i hx), ?_⟩
  · rw [h.rest]
    rfl
  · rw [h.rest]
    exact List.prefix_append ..

section served
variable {d e : Dev} (h : Served d e)
include h

theorem Served.fld {f : Fld} (hf : f.reg ≠ .CHAIN_CNT) (i : Nat) : e.fld f i = d.fld f i := by simp only [Dev.fld, h.reg _ _ hf]
theorem Served.ports : e.ports = d.ports := (congrArg Dev.ports h.rest :)
theorem Served.slices : e.slices = d.slices := (congrArg Dev.slices h.rest :)
theorem Served.cores : e.cores = d.cores := (congrArg Dev.cores h.rest :)
theorem Served.rings : e.rings = d.rings := (congrArg Dev.rings h.rest :)
theorem Served.svc : e.svc = d.svc := (congrArg Dev.svc h.rest :)
theorem Served.hbm : e.hbm = d.hbm := (congrArg Dev.hbm h.rest :)
theorem Served.spm : e.spm = d.spm := (congrArg Dev.spm h.rest :)
theorem Served.spmLost : e.spmLost = d.spmLost := (congrArg Dev.spmLost h.rest :)
theorem Served.power : e.power = d.power := (congrArg Dev.power h.rest :)
theorem Served.commit : e.commit = d.commit := (congrArg Dev.commit h.rest :)
theorem Served.gcnt : e.gcnt = d.gcnt := (congrArg Dev.gcnt h.rest :)

theorem Served.linkDied {d₀ : Dev} {p : Nat} {bit : Fld} (died : LinkDied d₀ d p bit) (hb : LinkBit bit) : LinkDied d₀ e p bit where
  state := (h.fld (by decide) p).trans died.state
  cause := (h.fld (by rw [hb.1]; decide) p).trans died.cause
  count := (h.fld (by decide) p).trans died.count
  shut := (h.fld (by decide) p).trans died.shut
  held := by rw [port_of_ports h.ports]; exact died.held
  lost := (h.fld (by decide) p).trans died.lost
  fenced := fun i hi desc => by rw [slice_of_slices h.slices]; exact died.fenced i hi desc
  memory := died.memory.trans ⟨fun a => by rw [h.hbm], fun c a n => readSpm_of_same h.spm h.spmLost c a n⟩

end served

/-- What has no update of the counters leaves the count. -/
theorem fld_applyAll_deaf {us : List Upd} (h : Each (fun u => u.deaf = true) us) (d : Dev) :
    (applyAll us d).fld F.CHAIN_CNT_RX = d.fld F.CHAIN_CNT_RX := by
  induction us generalizing d with
  | nil => rfl
  | cons u us ih =>
    obtain ⟨hu, rest⟩ := (each_cons ..).1 h
    rw [applyAll_cons, ih rest]
    have other (h : Reg.CHAIN_CNT ∉ u.writes) : (u.apply d).fld F.CHAIN_CNT_RX = d.fld F.CHAIN_CNT_RX := by
      simp only [Dev.fld, reg_apply_of_not_mem u d h]
    cases u with
    | fld f i g => exact other (by simpa [Upd.writes, eq_comm] using of_decide_eq_true hu)
    | restart w => cases hu
    | _ => exact other (of_decide_eq_true rfl)

theorem raised_settleReady (d : Dev) : Raised d (runAct settleReady d) := by
  rw [runAct_eq, settleReady]
  split
  · exact raised_enterState stReady d
  · exact .of_chain rfl

/-- A request with no response yet whose act is deaf is served. -/
theorem completes_heard {i : Instr} {s : State} {r : Req} {f : Dev → Answer × Act} {P : Dev → Prop} {a : Answer} {act : Act}
    (he : exec i s = perform (onPower (serve r f)) s) (hs : s.dev.steady) (fresh : s.dev.fresh r) (hf : f s.dev = (a, act))
    (deaf : Each (fun u => u.deaf = true) (act s.dev))
    (h : ∀ e d, Served (runAct act s.dev) e → Behind e d → s.dev.answered d r a → P d) : Completes i s P := by
  have run : runAct (serve r f) s.dev = applyAll (respond r a) (applyAll (act s.dev) s.dev.heard) := by
    rw [runAct_eq, serve_fresh f fresh, hf, ← applyAll_handled]
    rfl
  have alike : Alike (runAct act s.dev) (applyAll (act s.dev) s.dev.heard) := by
    rw [runAct_eq]
    exact alike_applyAll (alike_heard s.dev) deaf
  have count : (applyAll (act s.dev) s.dev.heard).fld F.CHAIN_CNT_RX = (s.dev.fld F.CHAIN_CNT_RX + 1) % 2 ^ 32 := by
    rw [fld_applyAll_deaf deaf]
    exact fld_addF ..
  have after (d : Dev) : (applyAll (respond r a) d).fld F.CHAIN_CNT_RX = d.fld F.CHAIN_CNT_RX := rfl
  refine ⟨_, he.trans (perform_eq _ _), rfl, ?_⟩
  rw [withDev_dev, runAct_onPower hs.1]
  simp only [settled, runAct_inSequence_cons, runAct_inSequence_nil]
  rw [run]
  have served := served_respond alike r a
  generalize applyAll (act s.dev) s.dev.heard = x at *
  have b : Behind (applyAll (respond r a) x) (runAct settleReady (runAct fenceLost (applyAll (respond r a) x))) :=
    ⟨quiet_settleReady _, fun safe => inSafe_settleReady _ (inSafe_fenceLost _ safe)⟩
  refine h _ _ served b ⟨b.sent (sent_of_mem (by simp [respond]) _), ?_, (b.fld (by decide) 0).trans ((after x).trans count)⟩
  have raised : Raised (applyAll (respond r a) x) (runAct settleReady (runAct fenceLost (applyAll (respond r a) x))) := by
    rw [runAct_eq fenceLost]
    exact (raised_applyAll (deaf_fenceLost _) _).trans (raised_settleReady _)
  rw [cached_of_cache raised.cache]
  simp only [respond, applyAll_cons, applyAll_nil, Dev.cached, chain_apply_chain]
  exact find_keepResponse r a _

end Sys2Proof.Machine
end

