-- ==== Sys2Proof/Proofs/Carried.lean ====
section
/-! PROOFS. What the router leaves of a port: it starts packets where the link is UP, and moves nothing but queues, flits and credits
(R365–R370). -/

namespace Sys2Proof.Machine

/-- A port without what the router moves: its queue, its flits and its credits. -/
def PortSt.carried (s : PortSt) : PortSt :=
  { s with
    queue := [], used := [], txSeq := 0, ackAt := 0, held := [], txN := 0, lastVc := 0, leafOut := false, oldTx := (0, 0), rxFreed := [] }

/-- What the router leaves of port `p`. -/
structure Carried (p : Nat) (d d' : Dev) : Prop where
  rest : (d'.port p).carried = (d.port p).carried
  state : d'.linkState p = d.linkState p
  held : d.linkState p ≠ lsUp → (d'.port p).held = (d.port p).held
  flits : d'.fld F.LINK_FLITS_RX p = d.fld F.LINK_FLITS_RX p

section carried
variable {p : Nat}

theorem Carried.trans {d d' d'' : Dev} (h : Carried p d d') (h' : Carried p d' d'') : Carried p d d'' :=
  ⟨h'.rest.trans h.rest, h'.state.trans h.state, fun down => (h'.held (h.state ▸ down)).trans (h.held down), h'.flits.trans h.flits⟩

theorem Carried.of_same {d d' : Dev} (ports : d'.ports = d.ports) (regs : d'.regs = d.regs) : Carried p d d' :=
  ⟨by rw [port_of_ports ports], fld_of_regs regs .., fun _ => by rw [port_of_ports ports], fld_of_regs regs ..⟩

theorem Carried.refl (d : Dev) : Carried p d d := .of_same rfl rfl

theorem carried_setFld (d : Dev) {f : Fld} (i : Nat) (g : Nat → Nat) (state : f.apart F.LINK_STATUS_STATE = true)
    (flits : f.apart F.LINK_FLITS_RX = true) : Carried p d (d.setFld f i g) :=
  ⟨rfl, fld_setFld_apart d i p g state, fun _ => rfl, fld_setFld_apart d i p g flits⟩

theorem carried_onPort (d : Dev) {q : Nat} {g : PortSt → PortSt} (rest : ∀ s, (g s).carried = s.carried)
    (held : d.linkState q ≠ lsUp → ∀ s, (g s).held = s.held) : Carried p d (d.onPort q g) := by
  have port : (d.onPort q g).port p = if p = q then g (d.port q) else d.port p := port_apply_port d q p g
  refine ⟨?_, rfl, fun down => ?_, rfl⟩
  · rw [port]
    split
    · subst_vars; exact rest _
    · rfl
  · rw [port]
    split
    · subst_vars; exact held down _
    · rfl

theorem carried_emit (d : Dev) (m : Msg) : Carried p d (d.emit m) := .of_same rfl rfl
theorem carried_route (d : Dev) (r : RouteSt) : Carried p d { d with route := r } := .of_same rfl rfl

theorem carried_freed (d : Dev) (q : Nat) (pkt : Packet) :
    Carried p d (d.onPort q fun s => { s with rxFreed := addNth s.rxFreed (pktVc pkt) (pktCredits pkt) }) :=
  carried_onPort d (fun _ => rfl) fun _ _ => rfl

theorem carried_freeBuffer (d : Dev) (q : Queued) : Carried p d (d.freeBuffer q) := by
  unfold Dev.freeBuffer
  split
  · exact carried_freed d _ q.pkt
  · exact .refl d

theorem carried_countIf (d : Dev) (b : Bool) {f : Fld} (i : Nat) (state : f.apart F.LINK_STATUS_STATE = true)
    (flits : f.apart F.LINK_FLITS_RX = true) : Carried p d (d.countIf b f i) := by
  unfold Dev.countIf
  split
  · exact carried_setFld d i _ state flits
  · exact .refl d

theorem carried_startPacket (d : Dev) (o : Nat) (e : Nat × Queued) (up : d.linkState o = lsUp) : Carried p d (d.startPacket o e) := by
  unfold Dev.startPacket
  have start (pkt : Packet) : Carried p d (d.onPort o fun s => s.started d.now e.1 pkt) :=
    carried_onPort d (fun _ => rfl) fun down => absurd up down
  exact (((((start _).trans (carried_freeBuffer _ _)).trans (carried_setFld _ _ _ rfl rfl)).trans (carried_countIf _ _ _ rfl rfl)).trans
    (carried_countIf _ _ _ rfl rfl)).trans (carried_emit _ _)

/-- A packet starts on a port that is UP. -/
theorem up_of_nextStart {d : Dev} {o : Nat} {e : Nat × Queued} (h : d.nextStart o = some e) : d.linkState o = lsUp := by
  unfold Dev.nextStart at h
  obtain ⟨vc, -, hvc⟩ := List.exists_of_findSome?_eq_some h
  obtain ⟨x, -, hx⟩ := Option.bind_eq_some_iff.1 hvc
  split at hx
  · rename_i may
    simp only [Dev.mayStart, Bool.and_eq_true, decide_eq_true_eq] at may
    exact may.1.1.1.1.1.1
  · cases hx

theorem carried_pumpPort (o n : Nat) (d : Dev) : Carried p d (d.pumpPort o n) := by
  induction n generalizing d with
  | zero => exact .refl d
  | succ n ih =>
    unfold Dev.pumpPort
    split
    · exact (carried_startPacket d o _ (up_of_nextStart ‹_›)).trans (ih _)
    · exact .refl d

theorem carried_pumpPorts (d : Dev) : Carried p d d.pumpPorts := by
  have ports : ∀ (l : List Nat) (d : Dev), Carried p d (l.foldl (fun d o => d.pumpPort o (d.port o).queue.length) d) := by
    intro l
    induction l with
    | nil => exact fun d => .refl d
    | cons o l ih => exact fun d => (carried_pumpPort o _ d).trans (ih _)
  exact ports _ d

theorem carried_countDrop (d : Dev) {cnt bit : Fld} (hc : cnt.apart F.LINK_STATUS_STATE = true ∧ cnt.apart F.LINK_FLITS_RX = true)
    (hb : bit.apart F.LINK_STATUS_STATE = true ∧ bit.apart F.LINK_FLITS_RX = true) : Carried p d (d.countDrop cnt bit) :=
  ((carried_setFld d 0 _ hc.1 hc.2).trans (carried_setFld _ 0 _ hb.1 hb.2)).trans (carried_setFld _ 0 _ rfl rfl)

theorem carried_discard (d : Dev) (h : NextHop) (q : Queued) : Carried p d (d.discard h q) := by
  have free := carried_freeBuffer (p := p) d q
  unfold Dev.discard
  cases h with
  | unreach =>
    dsimp only
    have drop := free.trans (carried_countDrop _ (cnt := F.ROUTE_DROP_UNREACH) (bit := F.ROUTE_ERR_UNREACH) ⟨rfl, rfl⟩ ⟨rfl, rfl⟩)
    split
    · exact drop.trans (carried_route _ _)
    · exact drop
  | badEpoch => exact free.trans (carried_countDrop _ ⟨rfl, rfl⟩ ⟨rfl, rfl⟩)
  | noRole => exact free.trans (carried_countDrop _ ⟨rfl, rfl⟩ ⟨rfl, rfl⟩)
  | _ => exact free

theorem carried_routePacket (d : Dev) (q : Queued) : Carried p d (d.routePacket q) := by
  unfold Dev.routePacket
  split
  · exact carried_onPort d (fun _ => rfl) fun _ _ => rfl
  · split
    · exact (carried_freed d _ q.pkt).trans (carried_emit _ _)
    · exact .refl _
  · exact carried_route _ _
  · exact carried_discard _ _ _

theorem carried_noteStart (d : Dev) (pkt : Packet) : Carried p d (d.noteStart pkt) := by
  unfold Dev.noteStart
  split
  · exact .refl _
  · exact carried_route _ _

theorem carried_release (ps : List Packet) : ∀ (kept : List Packet) (d : Dev), Carried p d (d.release kept ps) := by
  induction ps with
  | nil => exact fun _ d => carried_route d _
  | cons q ps ih =>
    intro kept d
    unfold Dev.release
    dsimp only
    split
    · exact ih _ _
    · exact ((carried_noteStart _ _).trans (carried_routePacket _ _)).trans (ih _ _)

theorem carried_pump (d : Dev) : Carried p d d.pump := by
  unfold Dev.pump
  dsimp only
  have h := carried_release (p := p) d.route.waiting [] d
  split
  · exact h.trans (carried_pumpPorts _)
  · exact (h.trans (carried_setFld _ _ _ rfl rfl)).trans (carried_pumpPorts _)

end carried

/-! ### A dead link, and the router -/

theorem fld_pump {f : Fld} (h : f.reg ∉ routerRegs) (d : Dev) (i : Nat) : d.pump.fld f i = d.fld f i := by
  simp only [Dev.fld, (routed_pump d).reg _ _ h]

section fields
variable {p : Nat} {d d' : Dev} (h : Carried p d d')
include h

theorem Carried.rx : (d'.port p).rx = (d.port p).rx := (congrArg PortSt.rx h.rest :)
theorem Carried.rxSeq : (d'.port p).rxSeq = (d.port p).rxSeq := (congrArg PortSt.rxSeq h.rest :)
theorem Carried.nakOut : (d'.port p).nakOut = (d.port p).nakOut := (congrArg PortSt.nakOut h.rest :)
theorem Carried.resends : (d'.port p).resends = (d.port p).resends := (congrArg PortSt.resends h.rest :)
theorem Carried.resendSeq : (d'.port p).resendSeq = (d.port p).resendSeq := (congrArg PortSt.resendSeq h.rest :)
theorem Carried.kx : (d'.port p).kx = (d.port p).kx := (congrArg PortSt.kx h.rest :)
theorem Carried.kxFails : (d'.port p).kxFails = (d.port p).kxFails := (congrArg PortSt.kxFails h.rest :)
theorem Carried.enteredAt : (d'.port p).enteredAt = (d.port p).enteredAt := (congrArg PortSt.enteredAt h.rest :)
theorem Carried.goodAt : (d'.port p).goodAt = (d.port p).goodAt := (congrArg PortSt.goodAt h.rest :)
theorem Carried.freed : (d'.port p).freed = (d.port p).freed := (congrArg PortSt.freed h.rest :)
theorem Carried.cap : (d'.port p).cap = (d.port p).cap := (congrArg PortSt.cap h.rest :)
theorem Carried.hello : (d'.port p).hello = (d.port p).hello := (congrArg PortSt.hello h.rest :)
theorem Carried.peerUid : (d'.port p).peerUid = (d.port p).peerUid := (congrArg PortSt.peerUid h.rest :)
theorem Carried.rxFence : (d'.port p).rxFence = (d.port p).rxFence := (congrArg PortSt.rxFence h.rest :)
theorem Carried.rxDevice : (d'.port p).rxDevice = (d.port p).rxDevice := (congrArg PortSt.rxDevice h.rest :)

end fields

theorem sameMemory_pump (d : Dev) : sameMemory d d.pump := by
  have net := net_pump d
  exact ⟨fun a => by rw [net.hbm'], fun c a n => readSpm_of_same net.spm' net.spmLost' c a n⟩

/-- The router starts nothing on a dead link. -/
theorem LinkDied.pump {d e : Dev} {p : Nat} {bit : Fld} (h : LinkDied d e p bit) (hb : LinkBit bit) : LinkDied d e.pump p bit := by
  have carried := carried_pump (p := p) e
  have down : e.linkState p ≠ lsUp := by
    rw [h.state]
    decide
  exact {
    state := carried.state.trans h.state
    cause := (fld_pump (by rw [hb.1]; decide) e p).trans h.cause
    count := (fld_pump (by decide) e p).trans h.count
    shut := (fld_pump (by decide) e p).trans h.shut
    held := ⟨(carried.held down).trans h.held.1, carried.rx.trans h.held.2⟩
    lost := (fld_pump (by decide) e p).trans h.lost
    fenced := fun i hi desc => by
      rw [slice_of_slices (net_pump e).slices']
      exact h.fenced i hi desc
    memory := h.memory.trans (sameMemory_pump e) }

end Sys2Proof.Machine
end

