-- ==== Sys2Proof/Proofs/LinksUp.lean ====
section
/-! PROOFS. How a link trains, exchanges keys and comes up, and the writes of LINK_CTL (R379, R380, R390, R398, R605–R607, R622). -/

namespace Sys2Proof.Machine

/-! ### The state a port has entered -/

/-- The state of a port, and when it entered it. -/
def Dev.linkEntry (p : Nat) (d : Dev) : Nat × Nat × Nat := (d.linkState p, d.fld F.LINK_STATUS_ENTRY_GCNT p, (d.port p).enteredAt)

theorem enteredLink_iff {d e : Dev} {p st : Nat} : d.enteredLink e p st ↔ e.linkEntry p = (st, d.now % 2 ^ 32, d.now) := by
  simp only [Dev.enteredLink, Dev.linkEntry, Prod.mk.injEq]

theorem Dev.enteredLink.after {d e e' : Dev} {p st : Nat} (h : d.enteredLink e p st) (same : e'.linkEntry p = e.linkEntry p) : d.enteredLink e' p st :=
  enteredLink_iff.2 (same.trans (enteredLink_iff.1 h))

theorem Quiet.linkEntry {e d : Dev} (q : Quiet e d) (p : Nat) : d.linkEntry p = e.linkEntry p := by
  simp only [Dev.linkEntry, Dev.linkState, q.fld (f := F.LINK_STATUS_STATE) rfl, q.fld (f := F.LINK_STATUS_ENTRY_GCNT) rfl, q.port]

section entry
variable (p : Nat)

theorem linkEntry_port {q : Nat} {g : PortSt → PortSt} (h : ∀ s, (g s).enteredAt = s.enteredAt) (d : Dev) :
    ((Upd.port q g).apply d).linkEntry p = d.linkEntry p := by
  have port : ((Upd.port q g).apply d).port p = if p = q then g (d.port q) else d.port p := port_apply_port ..
  have regs : ((Upd.port q g).apply d).regs = d.regs := keep_regs _ d (by simp)
  simp only [Dev.linkEntry, Dev.linkState, port, fld_of_regs regs]
  split
  · subst_vars
    rw [h]
  · rfl

theorem linkEntry_setF {f : Fld} {i v : Nat} (state : f.apart F.LINK_STATUS_STATE = true) (entry : f.apart F.LINK_STATUS_ENTRY_GCNT = true)
    (d : Dev) : ((setF f i v).apply d).linkEntry p = d.linkEntry p := by
  have ports : ((setF f i v).apply d).ports = d.ports := keep_ports _ d (by simp [setF])
  have st : ((setF f i v).apply d).linkState p = d.linkState p := fld_setFld_apart d i p _ state
  have at_ : ((setF f i v).apply d).fld F.LINK_STATUS_ENTRY_GCNT p = d.fld F.LINK_STATUS_ENTRY_GCNT p := fld_setFld_apart d i p _ entry
  simp only [Dev.linkEntry, port_of_ports ports, st, at_]

theorem Confined.linkEntry {ps : List Part} {rs : List Reg} {us : List Upd} (h : Confined ps rs us) (ports : Part.ports ∉ ps)
    (status : Reg.LINK_STATUS ∉ rs) : Keeps (Dev.linkEntry p) us := fun u hu d => by
  have one : Confined ps rs [u] := (confined_cons ..).2 ⟨h u hu, confined_nil⟩
  have port : (u.apply d).port p = d.port p := one.port d ports p
  have st : (u.apply d).linkState p = d.linkState p := one.fld d status p
  have at_ : (u.apply d).fld F.LINK_STATUS_ENTRY_GCNT p = d.fld F.LINK_STATUS_ENTRY_GCNT p := one.fld d status p
  simp only [Dev.linkEntry, port, st, at_]

end entry

theorem port_enterLink (p st : Nat) (d : Dev) : (runAct (enterLink p st) d).port p = { d.port p with enteredAt := d.now } := by
  simp only [enterLink, runAct_eq, applyAll_cons, applyAll_nil, port_apply_same]
  rw [port_of_ports (keep_ports (setF ..) _ (by simp [setF])), port_of_ports (keep_ports (setF ..) _ (by simp [setF]))]

/-- A command that enters a state of a port and then does more for it. -/
theorem completes_entered {ins : Instr} {s : State} {act rest : Act} {p st : Nat} {P : Dev → Prop} {ps : List Part} {rs : List Reg}
    (he : exec ins s = perform (onPower act) s) (hs : s.dev.steady) (ha : act s.dev = inSequence [enterLink p st, rest] s.dev) (hst : st < 16)
    (hc : Confines ps rs rest) (route : Part.route ∉ ps) (keeps : ∀ d, Keeps (Dev.linkEntry p) (rest d))
    (h : ∀ d, s.dev.enteredLink d p st → Quiet (runAct rest (runAct (enterLink p st) s.dev)) d → P d) : Completes ins s P := by
  have confined : Confined (.regs :: .ports :: ps) (.LINK_STATUS :: rs) (act s.dev) := by
    rw [ha]
    exact confines_inSequence_cons ((confines_enterLink p st).mono (by simp) (by simp)) (confines_inSequence_cons (as := [])
      (hc.mono (fun _ m => by simp [m]) fun _ m => by simp [m]) Confines.nil) s.dev
  refine completes_act he hs confined (by simp [route]) fun d q => ?_
  rw [← runAct_eq, runAct_eq, ha, ← runAct_eq, runAct_two] at q
  refine h d ((enteredLink_enterLink hst s.dev).after ((q.linkEntry p).trans ?_)) q
  rw [runAct_eq]
  exact (keeps _).eq _

/-! ### Training -/

/-- What a port starts its HELLO exchange with: no flits, no credits, no errors (R379, R381). -/
def alignedPort : PortSt → Nat → PortSt := fun s now => { s with
  cap := [], used := [], freed := [], rxFreed := [], txSeq := 0, rxSeq := 0, held := [], resends := 0, nakOut := false,
  rx := none, hello := false, goodAt := now, badFlits := 0, windowFlits := 0, txKph := false, rxKph := false, txN := 0,
  rxN := 0, rxOld := 4096 }

def resetPort (p : Nat) : Act := fun d => [setF F.LINK_STATUS_DEGRADED p 0, .port p fun s => alignedPort s d.now]

theorem confines_resetPort (p : Nat) : Confines [.regs, .ports] [.LINK_STATUS] (resetPort p) := by
  intro d
  simp only [resetPort, confined_cons, confined_nil, and_true]
  exact ⟨rfl, rfl⟩

theorem keeps_resetPort (p : Nat) (d : Dev) : Keeps (Dev.linkEntry p) (resetPort p d) := by
  simp only [resetPort, keeps_cons, keeps_nil, and_true]
  exact ⟨linkEntry_setF p rfl rfl, linkEntry_port p fun _ => rfl⟩

theorem port_resetPort (p : Nat) (d : Dev) : (runAct (resetPort p) d).port p = alignedPort (d.port p) d.now := by
  simp only [resetPort, runAct_eq, applyAll_cons, applyAll_nil, port_apply_same]
  rw [port_of_ports (keep_ports (setF ..) _ (by simp [setF]))]

theorem completes_trainDone {s : State} {p : Fin 6} (hs : s.dev.steady) (st : s.dev.linkState p = lsTrain) :
    Completes (.linkTrainDone p) s fun d => s.dev.enteredLink d p lsAlign ∧ regsBut [.LINK_STATUS] s.dev d := by
  have act : linkTrainDoneAct p s.dev = enterLink p lsAlign s.dev := if_pos (decide_eq_true st)
  have confined := confines_enterLink p lsAlign s.dev
  refine completes_does rfl hs act confined (by decide) fun d q => ⟨?_, q.regsBut (confined.regsBut _ (by decide))⟩
  exact (enteredLink_enterLink (by decide) s.dev).after (q.linkEntry p)

theorem completes_alignDone {s : State} {p : Fin 6} (hs : s.dev.steady) (st : s.dev.linkState p = lsAlign) :
    Completes (.linkAlignDone p) s fun d => s.dev.enteredLink d p lsHello ∧ regsBut [.LINK_STATUS] s.dev d ∧
      (d.port p).txSeq = 0 ∧ (d.port p).rxSeq = 0 ∧ (d.port p).held = [] ∧ (d.port p).rx = none ∧ (d.port p).hello = false ∧
      ∀ v, (d.port p).free v = 0 := by
  refine completes_entered (rest := resetPort p) rfl hs (if_pos (decide_eq_true st)) (by decide) (confines_resetPort p) (by decide) (keeps_resetPort p)
    fun d entered q => ⟨entered, q.regsBut ?_, ?_⟩
  · have first := (confines_enterLink p lsHello s.dev).regsBut s.dev (rs' := [.LINK_STATUS]) (by decide)
    have second := (confines_resetPort p (runAct (enterLink p lsHello) s.dev)).regsBut (runAct (enterLink p lsHello) s.dev) (rs' := [.LINK_STATUS]) (by decide)
    exact fun r i hr hm => (second r i hr hm).trans (first r i hr hm)
  · rw [q.port, port_resetPort]
    exact ⟨rfl, rfl, rfl, rfl, rfl, fun v => by simp [PortSt.free, alignedPort, nth]⟩

/-! ### The end of HELLO, and the beginning of a key exchange -/

/-- The hop latencies that the end of HELLO gives the contexts (R394). -/
def hopUpds (p hop : Nat) : List Upd :=
  match p with
  | 0 => [0, 1, 2, 3].map fun k => setF F.RING_HOP_HOP_CW k hop
  | 1 => [0, 1, 2, 3].map fun k => setF F.RING_HOP_HOP_CCW k hop
  | _ => []

def noteLatency (p lat hop : Nat) : Act := fun _ => [setF F.LINK_LAT_LAT p lat] ++ hopUpds p hop

theorem confined_hopUpds (p hop : Nat) : Confined [.regs] [.RING_HOP] (hopUpds p hop) := by
  unfold hopUpds
  split
  · simp only [confined_map]
    exact fun _ _ => rfl
  · simp only [confined_map]
    exact fun _ _ => rfl
  · exact confined_nil

/-- A field of four copies, each written once. -/
theorem fld_fourCopies (f : Fld) (v : Nat) {k : Nat} (hk : k < 4) (d : Dev) :
    (applyAll ([0, 1, 2, 3].map fun k => setF f k v) d).fld f k = v % 2 ^ (f.hi - f.lo + 1) := by
  have other (d : Dev) {i j : Nat} (hi : i < regCopies) (hj : j < regCopies) (h : j ≠ i) : ((setF f i v).apply d).fld f j = d.fld f j :=
    fld_setFld_copy _ _ (by rw [Nat.mod_eq_of_lt hi, Nat.mod_eq_of_lt hj]; exact h)
  have four : 4 ≤ regCopies := by decide
  simp only [List.map_cons, List.map_nil, applyAll_cons, applyAll_nil]
  obtain rfl | rfl | rfl | rfl : k = 0 ∨ k = 1 ∨ k = 2 ∨ k = 3 := by omega
  · rw [other _ (by omega) (by omega) (by omega), other _ (by omega) (by omega) (by omega), other _ (by omega) (by omega) (by omega), fld_setF]
  · rw [other _ (by omega) (by omega) (by omega), other _ (by omega) (by omega) (by omega), fld_setF]
  · rw [other _ (by omega) (by omega) (by omega), fld_setF]
  · rw [fld_setF]

theorem noteLatency_reads (p lat hop : Nat) (d : Dev) : (runAct (noteLatency p lat hop) d).fld F.LINK_LAT_LAT p = lat % 2 ^ 32 ∧
    (p = 0 → ∀ k, k < 4 → (runAct (noteLatency p lat hop) d).fld F.RING_HOP_HOP_CW k = hop % 2 ^ (F.RING_HOP_HOP_CW.hi - F.RING_HOP_HOP_CW.lo + 1)) ∧
    (p = 1 → ∀ k, k < 4 → (runAct (noteLatency p lat hop) d).fld F.RING_HOP_HOP_CCW k =
      hop % 2 ^ (F.RING_HOP_HOP_CCW.hi - F.RING_HOP_HOP_CCW.lo + 1)) := by
  simp only [noteLatency, runAct_eq, applyAll_append, applyAll_cons, applyAll_nil]
  refine ⟨?_, fun hp k hk => ?_, fun hp k hk => ?_⟩
  · rw [(confined_hopUpds p hop).fld _ (by decide), fld_setF]
    rfl
  · subst hp
    exact fld_fourCopies F.RING_HOP_HOP_CW hop hk _
  · subst hp
    exact fld_fourCopies F.RING_HOP_HOP_CCW hop hk _

/-- The first message of an exchange (R605). -/
def firstHello (ctr : Nat) : KxHello :=
  let (kem, ecdh) := Config.kxPart ctr []
  ⟨Config.random ctr 32, kem, ecdh⟩

theorem beginKx_eq (p : Nat) (rekey : Bool) (d : Dev) : beginKx p rekey d =
    if d.initiates p then [.drawFree, .send (.portMsg p (.kxHello (firstHello d.freeCtr))),
      .port p fun s => { s with kx := some ⟨kxBytes (firstHello d.freeCtr), false, false, rekey⟩ }]
    else [.port p fun s => { s with kx := some ⟨[], false, false, rekey⟩ }] := rfl

theorem confines_beginKx (p : Nat) (rekey : Bool) : Confines [.freeCtr, .outbox, .ports] [] (beginKx p rekey) := by
  intro d
  simp only [beginKx_eq, confined_ite, confined_cons, confined_nil, and_true]
  exact ⟨fun _ => ⟨rfl, rfl, rfl⟩, fun _ => rfl⟩

theorem keeps_beginKx (p : Nat) (rekey : Bool) (d : Dev) : Keeps (Dev.linkEntry p) (beginKx p rekey d) := by
  simp only [beginKx_eq, keeps_ite, keeps_cons, keeps_nil, and_true]
  exact ⟨fun _ => ⟨fun _ => rfl, fun _ => rfl, linkEntry_port p fun _ => rfl⟩, fun _ => linkEntry_port p fun _ => rfl⟩

theorem beginKx_reads (p : Nat) (rekey : Bool) (d : Dev) :
    (∃ k, ((runAct (beginKx p rekey) d).port p).kx = some k ∧ k.rekey = rekey ∧ k.replied = false) ∧
    (d.initiates p = true → ∃ q, Msg.portMsg p (.kxHello q) ∈ (runAct (beginKx p rekey) d).outbox) := by
  rw [runAct_eq, beginKx_eq]
  split
  · simp only [applyAll_cons, applyAll_nil, port_apply_same]
    refine ⟨⟨_, rfl, rfl, rfl⟩, fun _ => ⟨firstHello d.freeCtr, ?_⟩⟩
    rw [keep_outbox (Upd.port p _) _ (by simp), outbox_apply_send]
    exact List.mem_append_right _ (List.mem_singleton_self _)
  · rename_i no
    simp only [applyAll_cons, applyAll_nil, port_apply_same]
    exact ⟨⟨_, rfl, rfl, rfl⟩, fun yes => absurd yes no⟩

/-- Whether this end initiates rests on its identifier and on the peer's. -/
theorem initiates_congr {d d' : Dev} {p : Nat} (uid : d'.reg .SEC_UID = d.reg .SEC_UID) (peer : (d'.port p).peerUid = (d.port p).peerUid) :
    d'.initiates p = d.initiates p := by
  simp only [Dev.initiates, uid, peer]

/-- What the end of HELLO does once KEYING is entered (R379, R394, R605). -/
def enterKeying (p lat hop : Nat) : Act := inSequence [noteLatency p lat hop, beginKx p false]

theorem confines_enterKeying (p lat hop : Nat) :
    Confines [.regs, .freeCtr, .outbox, .ports] [.LINK_LAT, .RING_HOP] (enterKeying p lat hop) := by
  refine confines_inSequence_cons (fun d => ?_) (confines_inSequence_cons (as := []) ((confines_beginKx p false).mono (by decide) (by decide)) Confines.nil)
  refine (confined_append _ _).2 ⟨?_, (confined_hopUpds p hop).mono (by decide) (by decide)⟩
  simp only [confined_cons, confined_nil, and_true]
  rfl

theorem keeps_enterKeying (p lat hop : Nat) (d : Dev) : Keeps (Dev.linkEntry p) (enterKeying p lat hop d) := by
  refine keeps_inSequence (fun a ha e => ?_) d
  simp only [List.mem_cons, List.not_mem_nil, or_false] at ha
  rcases ha with rfl | rfl
  · refine (keeps_append _ _).2 ⟨?_, (confined_hopUpds p hop).linkEntry p (by decide) (by decide)⟩
    simp only [keeps_cons, keeps_nil, and_true]
    exact linkEntry_setF p rfl rfl
  · exact keeps_beginKx p false e

theorem completes_helloDone {s : State} {p : Fin 6} (lat hop : Nat) (hs : s.dev.steady) (st : s.dev.linkState p = lsHello)
    (hello : (s.dev.port p).hello = true) : Completes (.linkHelloDone p lat hop) s fun d => s.dev.enteredLink d p lsKeying ∧
      d.fld F.LINK_LAT_LAT p = lat % 2 ^ 32 ∧ (∃ k, (d.port p).kx = some k ∧ k.rekey = false) ∧
      (p = 0 → ∀ k, k < 4 → d.fld F.RING_HOP_HOP_CW k = hop % 2 ^ (F.RING_HOP_HOP_CW.hi - F.RING_HOP_HOP_CW.lo + 1)) ∧
      (p = 1 → ∀ k, k < 4 → d.fld F.RING_HOP_HOP_CCW k = hop % 2 ^ (F.RING_HOP_HOP_CCW.hi - F.RING_HOP_HOP_CCW.lo + 1)) ∧
      (s.dev.initiates p = true → ∃ q, Msg.portMsg p (.kxHello q) ∈ d.outbox) := by
  have act : linkHelloDoneAct p lat hop s.dev = inSequence [enterLink p lsKeying, enterKeying p lat hop] s.dev := by
    have two : linkHelloDoneAct p lat hop s.dev = inSequence [enterLink p lsKeying, noteLatency p lat hop, beginKx p false] s.dev :=
      if_pos (by rw [st, hello]; decide)
    rw [two]
    simp only [inSequence, enterKeying, List.append_nil]
  refine completes_entered rfl hs act (by decide) (confines_enterKeying p lat hop) (by decide) (keeps_enterKeying p lat hop) fun d entered q => ?_
  rw [enterKeying, runAct_two] at q
  have uid : (runAct (noteLatency p lat hop) (runAct (enterLink p lsKeying) s.dev)).initiates p = s.dev.initiates p := by
    have note : Confined [.regs] [.LINK_LAT, .RING_HOP] (noteLatency p lat hop (runAct (enterLink p lsKeying) s.dev)) :=
      (confined_append _ _).2 ⟨by simp only [confined_cons, confined_nil, and_true]; rfl, (confined_hopUpds p hop).mono (by decide) (by decide)⟩
    refine initiates_congr ?_ ?_
    · rw [runAct_eq, note.reg _ (by decide)]
      exact (confines_enterLink p lsKeying s.dev).reg s.dev (by decide) 0
    · rw [runAct_eq, note.port _ (by decide), port_enterLink]
  obtain ⟨lat_, cw, ccw⟩ := noteLatency_reads p lat hop (runAct (enterLink p lsKeying) s.dev)
  generalize runAct (noteLatency p lat hop) _ = e at *
  obtain ⟨⟨k, kx, rekey, -⟩, sends⟩ := beginKx_reads p false e
  have kept {f : Fld} (i : Nat) : (runAct (beginKx p false) e).fld f i = e.fld f i := (confines_beginKx p false e).fld e List.not_mem_nil i
  refine ⟨entered, (q.fld rfl p).trans ((kept _).trans lat_), ⟨k, (congrArg PortSt.kx (q.port p)).trans kx, rekey⟩,
    fun hp k hk => (q.fld rfl k).trans ((kept _).trans (cw (congrArg Fin.val hp) k hk)),
    fun hp k hk => (q.fld rfl k).trans ((kept _).trans (ccw (congrArg Fin.val hp) k hk)), fun yes => ?_⟩
  obtain ⟨m, hm⟩ := sends (uid.trans yes)
  exact ⟨m, q.sent.subset hm⟩

/-! ### Bounds of bring-up, and training again -/

/-- What a bring-up that takes too long leaves (R379). -/
def noteLock (p : Nat) : Act := fun d => [setF F.LINK_ERR_LOCK p 1, .port p fun s => { s with autoStart := d.bit F.LINK_CFG_AUTO p, kx := none }]

theorem completes_bringupTimeout {s : State} {p : Fin 6} {b : Nat} (hs : s.dev.steady) (bound : linkBound (s.dev.linkState p) = some b)
    (late : s.dev.expired (s.dev.port p).enteredAt b = true) : Completes (.linkBringupTimeout p) s fun d => s.dev.enteredLink d p lsDown ∧
      d.fld F.LINK_ERR_LOCK p = 1 ∧ (d.port p).autoStart = s.dev.bit F.LINK_CFG_AUTO p := by
  have act : linkBringupTimeoutAct p s.dev = inSequence [enterLink p lsDown, noteLock p] s.dev := by
    unfold linkBringupTimeoutAct
    rw [bound]
    exact if_pos late
  have confines : Confines [.regs, .ports] [.LINK_ERR] (noteLock p) := fun d => by
    simp only [noteLock, confined_cons, confined_nil, and_true]
    exact ⟨rfl, rfl⟩
  have keeps (d : Dev) : Keeps (Dev.linkEntry p) (noteLock p d) := by
    simp only [noteLock, keeps_cons, keeps_nil, and_true]
    exact ⟨linkEntry_setF p rfl rfl, linkEntry_port p fun _ => rfl⟩
  refine completes_entered rfl hs act (by decide) confines (by decide) keeps fun d entered q => ⟨entered, (q.fld rfl p).trans ?_, ?_⟩
  · simp only [noteLock, runAct_eq, applyAll_cons, applyAll_nil]
    rw [fld_apply_spared rfl, fld_setF]
    rfl
  · rw [q.port]
    simp only [noteLock, runAct_eq (noteLock p), applyAll_cons, applyAll_nil, port_apply_same]
    simp only [Dev.bit]
    rw [runAct_eq, (confines_enterLink p lsDown s.dev).fld s.dev (by decide)]

/-- Whether a port trains when it may (R379, R398). -/
def Dev.trainable (d : Dev) (p : Nat) : Bool :=
  (d.linkState p = lsDown || d.linkState p = lsDead) && d.bit F.LINK_CTL_ENABLE p &&
    !(d.bit F.DEV_COORD_VALID && d.axis (portAxis p) = 1)

/-- The first of a training (R379). -/
def trainFirst (p : Nat) : Act := fun _ => [.port p fun s => { s with autoStart := false }]

theorem startTrain_eq (p : Nat) (d : Dev) : startTrain p d = if d.trainable p then inSequence [enterLink p lsTrain, trainFirst p] d else [] := rfl

theorem confines_startTrain (p : Nat) : Confines [.regs, .ports] [.LINK_STATUS] (startTrain p) := by
  intro d
  rw [startTrain_eq, confined_ite]
  refine ⟨fun _ => confines_inSequence_cons (confines_enterLink p lsTrain) (confines_inSequence_cons (as := []) (fun d => ?_) Confines.nil) d,
    fun _ => confined_nil⟩
  simp only [trainFirst, confined_cons, confined_nil, and_true]
  rfl

/-- A port that trains (R379). -/
theorem startTrain_reads {p : Nat} {d : Dev} (h : d.trainable p = true) : d.enteredLink (runAct (startTrain p) d) p lsTrain ∧
    (runAct (startTrain p) d).port p = { d.port p with enteredAt := d.now, autoStart := false } := by
  rw [runAct_eq, startTrain_eq, if_pos h, ← runAct_eq, runAct_two]
  have port := port_enterLink p lsTrain d
  have entered := enteredLink_enterLink (p := p) (st := lsTrain) (by decide) d
  generalize runAct (enterLink p lsTrain) d = e at *
  simp only [trainFirst, runAct_eq, applyAll_cons, applyAll_nil, port_apply_same, port]
  refine ⟨entered.after ?_, trivial⟩
  exact linkEntry_port p (g := fun s => { s with autoStart := false }) (fun _ => rfl) e

theorem startTrain_nil {p : Nat} {d : Dev} (h : d.trainable p = false) : startTrain p d = [] := by
  rw [startTrain_eq, if_neg (by rw [h]; exact Bool.false_ne_true)]

/-- A command that trains its port. -/
theorem completes_trains {ins : Instr} {s : State} {act : Act} {p : Nat} (he : exec ins s = perform (onPower act) s) (hs : s.dev.steady)
    (ha : act s.dev = startTrain p s.dev) (h : s.dev.trainable p = true) :
    Completes ins s fun d => s.dev.enteredLink d p lsTrain ∧ (d.port p).autoStart = false := by
  refine completes_does he hs ha (confines_startTrain p s.dev) (by decide) fun d q => ?_
  obtain ⟨entered, port⟩ := startTrain_reads h
  rw [← runAct_eq] at q
  exact ⟨entered.after (q.linkEntry p), by rw [q.port, port]⟩

/-! ### What a death writes -/

/-- The registers and parts that a death writes. -/
def deathRegs : List Reg := [.LINK_ERR, .LINK_LOST, .LINK_LOSTN, .GCNT_STATUS] ++ fenceRegs
def deathParts : List Part := [.commit, .servo] ++ fenceParts

theorem confined_flagLink {bit : Fld} (hb : LinkBit bit) (p : Nat) : Confined [.regs] [.LINK_ERR] (flagLink p bit) := by
  simp [flagLink, flagFault, setF, satF, Upd.confined, Upd.touches, Upd.writes, hb.1]

theorem confines_linkDeath {bit : Fld} (hb : LinkBit bit) (p : Nat) : Confines deathParts deathRegs (linkDeath p bit) := by
  intro d
  by_cases live : d.linkLive p
  · rw [linkDeath_eq live]
    refine Confines.inSequence (fun a ha e => ?_) d
    simp only [deathRecord, deathFences, List.mem_cons, List.cons_append, List.nil_append, List.not_mem_nil, or_false] at ha
    rcases ha with rfl | rfl | rfl | rfl | rfl | rfl | rfl | rfl | rfl | rfl
    · exact (confined_flagLink hb p).mono (by decide) (by decide)
    · exact (confines_recordLoss _ _ e).mono (by decide) (by decide)
    · exact (confines_addLost _ e).mono (by decide) (by decide)
    · exact (confines_poisonOnward p e).mono (by decide) (by decide)
    · exact (confines_enterLink p _ e).mono (by decide) (by decide)
    · exact (confines_shutPort p e).mono (by decide) (by decide)
    · exact (confines_linkEvent p e).mono (by decide) (by decide)
    · exact (Confines.forEach (fun i _ => (tames_fenceSlice i 2).confines) e).mono (by decide) (by decide)
    · exact ((tames_faultReport _ _ _).confines e).mono (by decide) (by decide)
    · exact ((tames_parentLost p).confines e).mono (by decide) (by decide)
  · have none_ : linkDeath p bit d = [] := if_pos (by simpa [Dev.linkLive, or_iff_not_imp_left] using live)
    rw [none_]
    exact confined_nil

theorem deaf_linkDeath {bit : Fld} (hb : LinkBit bit) (p : Nat) : Deaf (linkDeath p bit) := by
  intro d
  by_cases live : d.linkLive p
  · rw [linkDeath_eq live]
    refine Makes.inSequence (fun a ha e => ?_) d
    simp only [deathRecord, deathFences, List.mem_cons, List.cons_append, List.nil_append, List.not_mem_nil, or_false] at ha
    rcases ha with rfl | rfl | rfl | rfl | rfl | rfl | rfl | rfl | rfl | rfl
    · exact (confined_flagLink hb p).deaf (by decide) (by decide) (by decide) (by decide) (by decide)
    · exact (confines_recordLoss _ _ e).deaf (by decide) (by decide) (by decide) (by decide) (by decide)
    · exact (confines_addLost _ e).deaf (by decide) (by decide) (by decide) (by decide) (by decide)
    · exact (confines_poisonOnward p e).deaf (by decide) (by decide) (by decide) (by decide) (by decide)
    · exact (confines_enterLink p _ e).deaf (by decide) (by decide) (by decide) (by decide) (by decide)
    · exact (confines_shutPort p e).deaf (by decide) (by decide) (by decide) (by decide) (by decide)
    · exact (each_cons ..).2 ⟨rfl, each_nil⟩
    · exact Makes.forEach (fun i _ => deaf_fenceSlice i 2) e
    · exact deaf_faultReport _ _ _ e
    · exact ((tames_parentLost p).confines e).deaf (by decide) (by decide) (by decide) (by decide) (by decide)
  · have none_ : linkDeath p bit d = [] := if_pos (by simpa [Dev.linkLive, or_iff_not_imp_left] using live)
    rw [none_]
    exact each_nil

/-! ### Writes of LINK_CTL (R390) -/

def setEnable (p : Nat) (en : Bool) : Act := fun _ => [setB F.LINK_CTL_ENABLE p en]
def holdDown (p : Nat) : Act := inSequence [linkDeath p F.LINK_ERR_KILLED, enterLink p lsDown, trainFirst p]
def retrain (p : Nat) : Act := inSequence [fun _ => [.port p fun s => { s with kxFails := 0 }], startTrain p]

/-- The idling conditions begin anew (R622). -/
def stir : Act := fun d => [.power fun w => { w with quietAt := d.now }]

theorem writeLinkCtl_eq (p : Nat) (val : BitVec 64) (d : Dev) : writeLinkCtl p val d = inSequence [setEnable p (bitOf val 0),
    onlyIf (!bitOf val 0 && decide (d.linkState p ≠ lsDown)) (holdDown p),
    onlyIf (bitOf val 0 && bitOf val 2) (linkDeath p F.LINK_ERR_KILLED),
    onlyIf (bitOf val 0 && bitOf val 1) (retrain p),
    onlyIf (bitOf val 0 && !d.bit F.LINK_CTL_ENABLE p && decide (d.linkState p = lsDown)) (startTrain p), stir] d := rfl

theorem confines_stir : Confines [.power] [] stir := fun _ => (confined_cons ..).2 ⟨rfl, confined_nil⟩

theorem confines_setEnable (p : Nat) (en : Bool) : Confines [.regs] [.LINK_CTL] (setEnable p en) := fun _ =>
  (confined_cons ..).2 ⟨rfl, confined_nil⟩

theorem confines_trainFirst (p : Nat) : Confines [.ports] [] (trainFirst p) := fun _ => (confined_cons ..).2 ⟨rfl, confined_nil⟩

theorem linkBit_killed : LinkBit F.LINK_ERR_KILLED := ⟨rfl, rfl, by decide⟩

theorem deaf_writeLinkCtl (p : Nat) (val : BitVec 64) : Deaf (writeLinkCtl p val) := by
  have train : Deaf (startTrain p) := fun d => (confines_startTrain p d).deaf (by decide) (by decide) (by decide) (by decide) (by decide)
  intro d
  rw [writeLinkCtl_eq]
  refine Makes.inSequence (fun a ha e => ?_) d
  simp only [List.mem_cons, List.not_mem_nil, or_false] at ha
  rcases ha with rfl | rfl | rfl | rfl | rfl | rfl
  · exact (confines_setEnable p _ e).deaf (by decide) (by decide) (by decide) (by decide) (by decide)
  · refine Makes.onlyIf (Makes.cons (deaf_linkDeath linkBit_killed p) (Makes.cons (fun e => ?_) (Makes.cons (as := []) (fun e => ?_) Makes.nil))) e
    · exact (confines_enterLink p _ e).deaf (by decide) (by decide) (by decide) (by decide) (by decide)
    · exact (confines_trainFirst p e).deaf (by decide) (by decide) (by decide) (by decide) (by decide)
  · exact Makes.onlyIf (deaf_linkDeath linkBit_killed p) e
  · refine Makes.onlyIf (Makes.cons (fun _ => ?_) (Makes.cons (as := []) train Makes.nil)) e
    exact (each_cons ..).2 ⟨rfl, each_nil⟩
  · exact Makes.onlyIf train e
  · exact (confines_stir e).deaf (by decide) (by decide) (by decide) (by decide) (by decide)

theorem enable_setEnable (p : Nat) (en : Bool) (d : Dev) : (runAct (setEnable p en) d).fld F.LINK_CTL_ENABLE p = if en then 1 else 0 := by
  simp only [setEnable, runAct_eq, applyAll_cons, applyAll_nil, fld_setB]

theorem bit_setEnable (p : Nat) (d : Dev) : (runAct (setEnable p true) d).bit F.LINK_CTL_ENABLE p = true := by
  rw [Dev.bit, enable_setEnable]
  rfl

/-- A written ENABLE leaves the link as a death meets it. -/
theorem sameLink_setEnable (p : Nat) (en : Bool) (d : Dev) : SameLink d (runAct (setEnable p en) d) p := by
  have confined := confines_setEnable p en d
  rw [runAct_eq]
  exact {
    state := confined.fld d (by decide) p
    held := by rw [confined.port d (by decide)]
    rx := by rw [confined.port d (by decide)]
    count := confined.fld d (by decide) p
    slices := keepAll_slices d (confined.leaves (by decide))
    coord := fun i => confined.reg d (by decide) i
    memory := confined.memory (by decide) d }

theorem SameLink.live {d d' : Dev} {p : Nat} (same : SameLink d d' p) (live : d.linkLive p) : d'.linkLive p := by
  unfold Dev.linkLive
  rw [same.state]
  exact live

/-- The death that a written KILL or a clear ENABLE is (R390). -/
theorem linkDied_setEnable {d : Dev} {p : Nat} (live : d.linkLive p) (en : Bool) :
    LinkDied d (runAct (linkDeath p F.LINK_ERR_KILLED) (runAct (setEnable p en) d)) p F.LINK_ERR_KILLED ∧
    (runAct (linkDeath p F.LINK_ERR_KILLED) (runAct (setEnable p en) d)).fld F.LINK_CTL_ENABLE p = if en then 1 else 0 := by
  have same := sameLink_setEnable p en d
  have enable := enable_setEnable p en d
  generalize runAct (setEnable p en) d = e at *
  refine ⟨(linkDied_linkDeath (same.live live) linkBit_killed).before same, ?_⟩
  rw [runAct_eq, (confines_linkDeath linkBit_killed p e).fld e (by decide)]
  exact enable

section written
variable {d : Dev} {p : Nat} {val : BitVec 64}

theorem runAct_writeLinkCtl (p : Nat) (val : BitVec 64) (d : Dev) : runAct (writeLinkCtl p val) d =
    runAct (inSequence [setEnable p (bitOf val 0),
      onlyIf (!bitOf val 0 && decide (d.linkState p ≠ lsDown)) (holdDown p),
      onlyIf (bitOf val 0 && bitOf val 2) (linkDeath p F.LINK_ERR_KILLED),
      onlyIf (bitOf val 0 && bitOf val 1) (retrain p),
      onlyIf (bitOf val 0 && !d.bit F.LINK_CTL_ENABLE p && decide (d.linkState p = lsDown)) (startTrain p), stir]) d := by
  rw [runAct_eq, writeLinkCtl_eq, ← runAct_eq]

/-- KILL on a live link. -/
theorem writeLinkCtl_kill (live : d.linkLive p) (en : bitOf val 0 = true) (train : bitOf val 1 = false) (kill : bitOf val 2 = true) :
    runAct (writeLinkCtl p val) d = runAct stir (runAct (linkDeath p F.LINK_ERR_KILLED) (runAct (setEnable p true) d)) := by
  rw [runAct_writeLinkCtl, en, train, kill, decide_eq_false live.2]
  simp only [runAct_inSequence_cons, runAct_inSequence_nil, runAct_onlyIf, Bool.not_true, Bool.false_and, Bool.and_false, Bool.and_self,
    Bool.false_eq_true, if_true, if_false]

theorem runAct_holdDown (e : Dev) : runAct (holdDown p) e =
    runAct (trainFirst p) (runAct (enterLink p lsDown) (runAct (linkDeath p F.LINK_ERR_KILLED) e)) := runAct_three ..

/-- A clear ENABLE on a live link. -/
theorem writeLinkCtl_clear (live : d.linkLive p) (en : bitOf val 0 = false) :
    runAct (writeLinkCtl p val) d = runAct stir (runAct (trainFirst p) (runAct (enterLink p lsDown)
      (runAct (linkDeath p F.LINK_ERR_KILLED) (runAct (setEnable p false) d)))) := by
  rw [runAct_writeLinkCtl, en, decide_eq_true live.2]
  simp only [runAct_inSequence_cons, runAct_inSequence_nil, runAct_onlyIf, Bool.not_false, Bool.false_and, Bool.and_self,
    Bool.false_eq_true, if_true, if_false]
  rw [runAct_holdDown]

theorem trainable_congr {d' : Dev} (state : d'.linkState p = d.linkState p) (enable : d'.bit F.LINK_CTL_ENABLE p = true)
    (coord : ∀ i, d'.reg .DEV_COORD i = d.reg .DEV_COORD i) (idle : d.linkState p = lsDown ∨ d.linkState p = lsDead)
    (long : (d.bit F.DEV_COORD_VALID && decide (d.axis (portAxis p) = 1)) = false) : d'.trainable p = true := by
  have fld (f : Fld) (hf : f.reg = .DEV_COORD) (i : Nat) : d'.fld f i = d.fld f i := by simp only [Dev.fld, hf, coord]
  have axis : d'.axis = d.axis := funext fun a => by
    unfold Dev.axis
    split <;> exact fld _ rfl 0
  have valid : d'.bit F.DEV_COORD_VALID = d.bit F.DEV_COORD_VALID := by simp only [Dev.bit, fld F.DEV_COORD_VALID rfl]
  rw [Dev.trainable, state, enable, axis, valid, long]
  simpa using idle

/-- RETRAIN on an idle port. -/
theorem writeLinkCtl_retrain (en : bitOf val 0 = true) (train : bitOf val 1 = true) (kill : bitOf val 2 = false) :
    ∃ b, runAct (writeLinkCtl p val) d = runAct stir (runAct (onlyIf b (startTrain p)) (runAct (retrain p) (runAct (setEnable p true) d))) := by
  refine ⟨!d.bit F.LINK_CTL_ENABLE p && decide (d.linkState p = lsDown), ?_⟩
  rw [runAct_writeLinkCtl, en, train, kill]
  simp only [runAct_inSequence_cons, runAct_inSequence_nil, runAct_onlyIf, Bool.not_true, Bool.false_and, Bool.and_false, Bool.and_self,
    Bool.false_eq_true, Bool.true_and, if_true, if_false]

/-- ENABLE set on a port that is DOWN. -/
theorem writeLinkCtl_enable (down : d.linkState p = lsDown) (en : bitOf val 0 = true) (train : bitOf val 1 = false)
    (kill : bitOf val 2 = false) (was : d.bit F.LINK_CTL_ENABLE p = false) :
    runAct (writeLinkCtl p val) d = runAct stir (runAct (startTrain p) (runAct (setEnable p true) d)) := by
  rw [runAct_writeLinkCtl, en, train, kill, was, decide_eq_true down]
  simp only [runAct_inSequence_cons, runAct_inSequence_nil, runAct_onlyIf, Bool.not_true, Bool.false_and, Bool.and_false, Bool.and_self,
    Bool.false_eq_true, Bool.not_false, if_true, if_false]

end written

/-- A port whose link trains does not begin again. -/
theorem startTrain_training {d : Dev} {p : Nat} (h : d.linkState p = lsTrain) : startTrain p d = [] := by
  refine startTrain_nil ?_
  rw [Dev.trainable, h]
  rfl

theorem Behind.link {e d : Dev} (b : Behind e d) (p : Nat) : d.linkState p = e.linkState p := by
  refine (b.quiet.fld rfl p).trans ?_
  rw [runAct_eq]
  exact (tames_fenceLost e).link e p

section commands
variable {ins : Instr} {s : State} {r : Req} {p : Nat} {val : BitVec 64}
  (he : exec ins s = perform (onPower (serve r (writeAt r.path .LINK_CTL p val))) s) (hs : s.dev.steady) (fresh : s.dev.fresh r)
  (powered : s.dev.powered .LINK_CTL = true)
include he hs fresh powered

theorem completes_ctl {P : Dev → Prop} (h : ∀ e d, Served (runAct (writeLinkCtl p val) s.dev) e → Behind e d → s.dev.answered d r answerOk → P d) :
    Completes ins s P :=
  completes_heard he hs fresh ((writeAt_powered _ _ _ powered).trans rfl) (deaf_writeLinkCtl p val s.dev) h

theorem completes_kill (live : s.dev.linkLive p) (en : bitOf val 0 = true) (train : bitOf val 1 = false) (kill : bitOf val 2 = true) :
    Completes ins s fun d => s.dev.answered d r answerOk ∧ LinkDied s.dev d p F.LINK_ERR_KILLED ∧ d.fld F.LINK_CTL_ENABLE p = 1 := by
  refine completes_ctl he hs fresh powered fun e d served b answered => ⟨answered, ?_⟩
  rw [writeLinkCtl_kill live en train kill] at served
  obtain ⟨died, enable⟩ := linkDied_setEnable live true
  generalize runAct (linkDeath p F.LINK_ERR_KILLED) _ = x at *
  have stirred : LinkDied s.dev (runAct stir x) p F.LINK_ERR_KILLED := by
    rw [runAct_eq]
    exact died.step linkBit_killed ((confines_stir x).tame (by decide) (by decide) (by decide) (by decide))
      ((confines_stir x).reception p (by decide) (by decide)) (by decide) (by decide) (by decide)
  refine ⟨b.linkDied (served.linkDied stirred linkBit_killed) linkBit_killed, (b.fld (by decide) p).trans ((served.fld (by decide) p).trans ?_)⟩
  rw [runAct_eq, (confines_stir x).fld x (by decide)]
  exact enable

theorem completes_clear (live : s.dev.linkLive p) (en : bitOf val 0 = false) :
    Completes ins s fun d => s.dev.answered d r answerOk ∧ d.fld F.LINK_CTL_ENABLE p = 0 ∧ d.linkState p = lsDown ∧
      d.fld F.LINK_ERR_KILLED p = 1 ∧ (d.port p).held = [] ∧ (d.port p).autoStart = false := by
  refine completes_ctl he hs fresh powered fun e d served b answered => ⟨answered, ?_⟩
  rw [writeLinkCtl_clear live en] at served
  obtain ⟨died, enable⟩ := linkDied_setEnable live false
  generalize runAct (linkDeath p F.LINK_ERR_KILLED) _ = x at *
  have down := (enteredLink_enterLink (p := p) (st := lsDown) (by decide) x).1
  have port := port_enterLink p lsDown x
  have kept {f : Fld} (hf : f.reg ≠ .LINK_STATUS) : (runAct (enterLink p lsDown) x).fld f p = x.fld f p :=
    (confines_enterLink p lsDown x).fld x (by simpa using hf) p
  have enable' := (kept (f := F.LINK_CTL_ENABLE) (by decide)).trans enable
  have killed := (kept (f := F.LINK_ERR_KILLED) (by decide)).trans died.cause
  generalize runAct (enterLink p lsDown) x = y at *
  have stirred (f : Fld) : (runAct stir (runAct (trainFirst p) y)).fld f p = y.fld f p := by
    rw [runAct_eq, (confines_stir _).fld _ List.not_mem_nil, runAct_eq, (confines_trainFirst p y).fld y List.not_mem_nil]
  have held : (runAct stir (runAct (trainFirst p) y)).port p = { y.port p with autoStart := false } := by
    rw [runAct_eq, (confines_stir _).port _ (by decide), runAct_eq]
    simp only [trainFirst, applyAll_cons, applyAll_nil, port_apply_same]
  have port' : (d.port p).beside = ({ y.port p with autoStart := false } : PortSt).beside := by
    have same := congrArg Prod.fst (b.reception p)
    simp only [Dev.reception] at same
    rw [same, port_of_ports served.ports, held]
  have field {f : Fld} (hf : f.reg ∉ fenceRegs) (cnt : f.reg ≠ .CHAIN_CNT) : d.fld f p = y.fld f p :=
    (b.fld hf p).trans ((served.fld cnt p).trans (stirred f))
  refine ⟨(field (by decide) (by decide)).trans enable', (b.link p).trans ((served.fld (by decide) p).trans ((stirred _).trans down)),
    (field (by decide) (by decide)).trans killed, ?_, (congrArg PortSt.autoStart port' :)⟩
  refine (congrArg PortSt.held port' :).trans ?_
  rw [port]
  exact died.held.1

omit he hs fresh powered in
/-- A port that trains before the end of a command trains behind it. -/
theorem trains_behind {x e d : Dev} (entered : s.dev.enteredLink x p lsTrain) (auto : (x.port p).autoStart = false)
    (served : Served (runAct stir x) e) (b : Behind e d) :
    (s.dev.enteredLink d p lsTrain ∧ (d.port p).autoStart = false) ∧ (d.port p).kxFails = (x.port p).kxFails := by
  have same := b.reception p
  simp only [Dev.reception, Prod.mk.injEq] at same
  obtain ⟨port, -, at_, -⟩ := same
  have stirred (f : Fld) (cnt : f.reg ≠ .CHAIN_CNT) : e.fld f p = x.fld f p := by
    rw [served.fld cnt, runAct_eq, (confines_stir x).fld x List.not_mem_nil]
  have held : e.port p = x.port p := by rw [port_of_ports served.ports, runAct_eq, (confines_stir x).port x (by decide)]
  rw [held] at port
  obtain ⟨state, entry, since⟩ := entered
  exact ⟨⟨⟨(b.link p).trans ((stirred _ (by decide)).trans state), at_.trans ((stirred _ (by decide)).trans entry),
    (congrArg PortSt.enteredAt port :).trans since⟩, (congrArg PortSt.autoStart port :).trans auto⟩, (congrArg PortSt.kxFails port :)⟩

theorem completes_retrain (idle : s.dev.linkState p = lsDown ∨ s.dev.linkState p = lsDead)
    (long : (s.dev.bit F.DEV_COORD_VALID && decide (s.dev.axis (portAxis p) = 1)) = false)
    (en : bitOf val 0 = true) (train : bitOf val 1 = true) (kill : bitOf val 2 = false) :
    Completes ins s fun d => s.dev.answered d r answerOk ∧ (s.dev.enteredLink d p lsTrain ∧ (d.port p).autoStart = false) ∧
      (d.port p).kxFails = 0 := by
  refine completes_ctl he hs fresh powered fun e d served b answered => ⟨answered, ?_⟩
  obtain ⟨again, run⟩ := writeLinkCtl_retrain (d := s.dev) (p := p) en train kill
  rw [run] at served
  have enable := bit_setEnable p s.dev
  have regs := confines_setEnable p true s.dev
  have state : (runAct (setEnable p true) s.dev).linkState p = s.dev.linkState p := regs.fld s.dev (by decide) p
  have coord (i : Nat) : (runAct (setEnable p true) s.dev).reg .DEV_COORD i = s.dev.reg .DEV_COORD i := regs.reg s.dev (by decide) i
  have now_ : (runAct (setEnable p true) s.dev).now = s.dev.now := congrArg BitVec.toNat (keepAll_gcnt s.dev (regs.leaves (by decide)))
  generalize runAct (setEnable p true) s.dev = w at *
  have fails : runAct (retrain p) w = runAct (startTrain p) ((Upd.port p fun s => { s with kxFails := 0 }).apply w) := by
    rw [retrain, runAct_two, runAct_list, applyAll_cons, applyAll_nil]
  have may : ((Upd.port p fun s => { s with kxFails := 0 }).apply w).trainable p = true := trainable_congr state enable coord idle long
  obtain ⟨entered, port⟩ := startTrain_reads may
  rw [← fails] at entered port
  have stays : runAct (onlyIf again (startTrain p)) (runAct (retrain p) w) = runAct (retrain p) w := by
    rw [runAct_onlyIf]
    split
    · rw [runAct_eq, startTrain_training entered.1, applyAll_nil]
    · rfl
  rw [stays] at served
  have entered' : s.dev.enteredLink (runAct (retrain p) w) p lsTrain := by
    rw [enteredLink_iff] at entered ⊢
    rw [entered, ← now_]
    rfl
  obtain ⟨trains, kept⟩ := trains_behind entered' (by rw [port]) served b
  refine ⟨trains, kept.trans ?_⟩
  rw [port, port_apply_same]

theorem completes_enable (down : s.dev.linkState p = lsDown)
    (long : (s.dev.bit F.DEV_COORD_VALID && decide (s.dev.axis (portAxis p) = 1)) = false)
    (en : bitOf val 0 = true) (train : bitOf val 1 = false) (kill : bitOf val 2 = false) (was : s.dev.bit F.LINK_CTL_ENABLE p = false) :
    Completes ins s fun d => s.dev.answered d r answerOk ∧ (s.dev.enteredLink d p lsTrain ∧ (d.port p).autoStart = false) ∧
      d.fld F.LINK_CTL_ENABLE p = 1 := by
  refine completes_ctl he hs fresh powered fun e d served b answered => ⟨answered, ?_⟩
  rw [writeLinkCtl_enable down en train kill was] at served
  have enable := enable_setEnable p true s.dev
  have enabled := bit_setEnable p s.dev
  have regs := confines_setEnable p true s.dev
  have state : (runAct (setEnable p true) s.dev).linkState p = s.dev.linkState p := regs.fld s.dev (by decide) p
  have coord (i : Nat) : (runAct (setEnable p true) s.dev).reg .DEV_COORD i = s.dev.reg .DEV_COORD i := regs.reg s.dev (by decide) i
  have now_ : (runAct (setEnable p true) s.dev).now = s.dev.now := congrArg BitVec.toNat (keepAll_gcnt s.dev (regs.leaves (by decide)))
  generalize runAct (setEnable p true) s.dev = w at *
  obtain ⟨entered, port⟩ := startTrain_reads (trainable_congr state enabled coord (.inl down) long)
  have entered' : s.dev.enteredLink (runAct (startTrain p) w) p lsTrain := by
    rw [enteredLink_iff] at entered ⊢
    rw [entered, now_]
  refine ⟨(trains_behind entered' (by rw [port]) served b).1, (b.fld (by decide) p).trans ((served.fld (by decide) p).trans ?_)⟩
  rw [runAct_eq, (confines_stir _).fld _ List.not_mem_nil, runAct_eq, (confines_startTrain p w).fld w (by decide)]
  exact enable

end commands

end Sys2Proof.Machine
end

