-- ==== Sys2Proof/Proofs/KeyExchange.lean ====
section
/-! PROOFS. The key exchange of a link, and a peer detected on a port that is DOWN (R379, R605–R607, R622). -/

namespace Sys2Proof.Machine

/-! ### A failed exchange (R606, R607) -/

/-- What a failed exchange leaves of the count of failures. -/
def failedPort (n : Nat) : PortSt → PortSt := fun s => { s with kxFails := n, autoStart := s.autoStart && n < 3 }

theorem failedPort_kxFails (n : Nat) (s : PortSt) : (failedPort n s).kxFails = n := rfl

def noteFailure (p n : Nat) : Act := fun _ => [.port p (failedPort n)]

theorem runAct_noteFailure (p n : Nat) (d : Dev) : runAct (noteFailure p n) d = (Upd.port p (failedPort n)).apply d := rfl

theorem kxFail_eq (p : Nat) (d : Dev) : kxFail p d =
    inSequence [fun _ => flagSec F.SEC_ERR_LINK_AUTH, linkDeath p F.LINK_ERR_PROTOCOL, noteFailure p ((d.port p).kxFails + 1)] d := rfl

theorem runAct_kxFail (p : Nat) (d : Dev) : runAct (kxFail p) d = runAct (noteFailure p ((d.port p).kxFails + 1))
    (runAct (linkDeath p F.LINK_ERR_PROTOCOL) (applyAll (flagSec F.SEC_ERR_LINK_AUTH) d)) := by
  rw [runAct_eq, kxFail_eq, ← runAct_eq, runAct_three, runAct_list]

theorem linkBit_protocol : LinkBit F.LINK_ERR_PROTOCOL := ⟨rfl, rfl, by decide⟩

theorem confined_flagSec {bit : Fld} (h : bit.reg = .SEC_ERR) : Confined [.regs] [.SEC_ERR] (flagSec bit) := by
  simp [flagSec, flagFault, setF, satF, Upd.confined, Upd.touches, Upd.writes, h]

/-- A change of registers other than those of the link leaves the link as a death meets it. -/
theorem Confined.sameLink {rs : List Reg} {us : List Upd} (h : Confined [.regs] rs us) (status : Reg.LINK_STATUS ∉ rs) (err : Reg.LINK_ERR ∉ rs)
    (coord : Reg.DEV_COORD ∉ rs) (d : Dev) (p : Nat) : SameLink d (applyAll us d) p where
  state := h.fld d status p
  held := by rw [h.port d (by decide)]
  rx := by rw [h.port d (by decide)]
  count := h.fld d err p
  slices := keepAll_slices d (h.leaves (by decide))
  coord := fun i => h.reg d coord i
  memory := h.memory (by decide) d

/-- A change of a port that leaves what it holds and receives leaves its dead link dead. -/
theorem LinkDied.port {d e : Dev} {p : Nat} {bit : Fld} (h : LinkDied d e p bit) {g : PortSt → PortSt}
    (same : ∀ s, (g s).held = s.held ∧ (g s).rx = s.rx) : LinkDied d ((Upd.port p g).apply e) p bit := by
  have regs : ((Upd.port p g).apply e).regs = e.regs := keep_regs _ e (by simp)
  have port : ((Upd.port p g).apply e).port p = g (e.port p) := port_apply_same ..
  obtain ⟨held, rx⟩ := same (e.port p)
  exact {
    state := (fld_of_regs regs ..).trans h.state
    cause := (fld_of_regs regs ..).trans h.cause
    count := (fld_of_regs regs ..).trans h.count
    shut := (fld_of_regs regs ..).trans h.shut
    held := by rw [port, held, rx]; exact h.held
    lost := (fld_of_regs regs ..).trans h.lost
    fenced := fun i hi desc => by
      rw [slice_of_slices (keep_slices (Upd.port p g) e (by simp))]
      exact h.fenced i hi desc
    memory := h.memory.trans ⟨fun a => by rw [keep_hbm (Upd.port p g) e (by simp)], fun c a n =>
      readSpm_of_same (keep_spm (Upd.port p g) e (by simp)) (keep_spmLost (Upd.port p g) e (by simp)) c a n⟩ }

/-- A failed exchange ends the link, is recorded, and counts among the failures of its port (R606, R607). -/
theorem kxFail_reads {p : Nat} {d : Dev} (live : d.linkLive p) :
    LinkDied d (runAct (kxFail p) d) p F.LINK_ERR_PROTOCOL ∧ (runAct (kxFail p) d).fld F.SEC_ERR_LINK_AUTH = 1 ∧
    ((runAct (kxFail p) d).port p).kxFails = (d.port p).kxFails + 1 := by
  rw [runAct_kxFail]
  have same := (confined_flagSec (bit := F.SEC_ERR_LINK_AUTH) rfl).sameLink (by decide) (by decide) (by decide) d p
  have auth : (applyAll (flagSec F.SEC_ERR_LINK_AUTH) d).fld F.SEC_ERR_LINK_AUTH = 1 :=
    (fld_flagFault (bit := F.SEC_ERR_LINK_AUTH) (faults := F.SEC_ERR_FAULTS) d 0 rfl (by decide)).1
  generalize applyAll (flagSec F.SEC_ERR_LINK_AUTH) d = e at *
  have died := (linkDied_linkDeath (same.live live) linkBit_protocol).before same
  have auth' : (runAct (linkDeath p F.LINK_ERR_PROTOCOL) e).fld F.SEC_ERR_LINK_AUTH = 1 := by
    rw [runAct_eq, (confines_linkDeath linkBit_protocol p e).fld e (by decide)]
    exact auth
  generalize runAct (linkDeath p F.LINK_ERR_PROTOCOL) e = x at *
  rw [runAct_noteFailure]
  have regs : ((Upd.port p (failedPort ((d.port p).kxFails + 1))).apply x).regs = x.regs := keep_regs _ x (by simp)
  refine ⟨died.port (g := failedPort _) fun _ => ⟨rfl, rfl⟩, ?_, ?_⟩
  · rw [fld_of_regs regs]
    exact auth'
  · rw [port_apply_same, failedPort_kxFails]

theorem kxFails_of_beside {s s' : PortSt} (h : s'.beside = s.beside) : s'.kxFails = s.kxFails := (congrArg PortSt.kxFails h :)

theorem completes_kxFailed {ins : Instr} {s : State} {act : Act} {p : Nat} (he : exec ins s = perform (onPower act) s) (hs : s.dev.steady)
    (ha : runAct act s.dev = runAct (kxFail p) s.dev) (live : s.dev.linkLive p) :
    Completes ins s fun d => LinkDied s.dev d p F.LINK_ERR_PROTOCOL ∧ d.fld F.SEC_ERR_LINK_AUTH = 1 ∧
      (d.port p).kxFails = (s.dev.port p).kxFails + 1 := by
  refine completes_behind he hs fun d b => ?_
  rw [ha] at b
  obtain ⟨died, auth, fails⟩ := kxFail_reads live
  generalize runAct (kxFail p) s.dev = e at *
  have same := b.reception p
  simp only [Dev.reception, Prod.mk.injEq] at same
  obtain ⟨port, -, -⟩ := same
  exact ⟨b.linkDied died linkBit_protocol, (b.fld (by decide) 0).trans auth, (kxFails_of_beside port).trans fails⟩

/-! ### A peer on a port that is DOWN (R622) -/

/-- The module as a peer's presence wakes it from Dormant. -/
def Dev.woken (d : Dev) : Dev := runAct (onlyIf (d.fld F.PWR_STATUS_STATE = 4) wakeUp) d

theorem woken_confined (d : Dev) : Confined [.regs, .frozen, .power] [.PWR_STATUS] (onlyIf (d.fld F.PWR_STATUS_STATE = 4) wakeUp d) := by
  unfold onlyIf
  split
  · exact confined_wakeUp d
  · exact confined_nil

/-- A module that is woken is at its operating point again. -/
theorem woken_power {d : Dev} (h : d.fld F.PWR_STATUS_STATE = 4) : d.woken.fld F.PWR_STATUS_STATE = 0 := by
  rw [Dev.woken, decide_eq_true h, runAct_onlyIf_true, runAct_eq, wakeUp_eq (by omega)]
  simp only [applyAll_cons, applyAll_nil]
  rw [fld_apply_spared rfl, fld_apply_spared rfl, fld_setF]
  rfl

theorem completes_presence {s : State} {p : Fin 6} (hs : s.dev.steady) (down : s.dev.linkState p = lsDown)
    (may : (decide (s.dev.fld F.PWR_STATUS_STATE = 4 ∨ s.dev.bit F.DEV_COORD_SPARE = true) && decide (s.dev.mode ≠ stOff)) = true)
    (enable : s.dev.bit F.LINK_CTL_ENABLE p = true)
    (long : (s.dev.bit F.DEV_COORD_VALID && decide (s.dev.axis (portAxis p) = 1)) = false) :
    Completes (.lanePresenceDetect p) s fun d => (s.dev.enteredLink d p lsTrain ∧ (d.port p).autoStart = false) ∧
      (s.dev.fld F.PWR_STATUS_STATE = 4 → d.fld F.PWR_STATUS_STATE = 0) := by
  have act : lanePresenceDetectAct p s.dev = inSequence [onlyIf (s.dev.fld F.PWR_STATUS_STATE = 4) wakeUp, startTrain p] s.dev := by
    refine if_pos ?_
    rw [down]
    simpa [Bool.or_eq_true] using may
  have wakes := woken_confined s.dev
  have confined : Confined [.regs, .frozen, .power, .ports] [.PWR_STATUS, .LINK_STATUS]
      (inSequence [onlyIf (s.dev.fld F.PWR_STATUS_STATE = 4) wakeUp, startTrain p] s.dev) :=
    confines_inSequence_cons (Confines.onlyIf fun d => (confined_wakeUp d).mono (by decide) (by decide))
      (confines_inSequence_cons (as := []) ((confines_startTrain p).mono (by decide) (by decide)) Confines.nil) s.dev
  refine completes_does rfl hs act confined (by decide) fun d q => ?_
  have run : applyAll (inSequence [onlyIf (s.dev.fld F.PWR_STATUS_STATE = 4) wakeUp, startTrain p] s.dev) s.dev =
      runAct (startTrain p) s.dev.woken := by rw [← runAct_eq, runAct_two, Dev.woken]
  rw [run] at q
  have power := woken_power (d := s.dev)
  have state : s.dev.woken.linkState p = s.dev.linkState p := wakes.fld s.dev (by decide) p
  have enable' : s.dev.woken.bit F.LINK_CTL_ENABLE p = true := by
    have same : s.dev.woken.fld F.LINK_CTL_ENABLE p = s.dev.fld F.LINK_CTL_ENABLE p := wakes.fld s.dev (by decide) p
    rw [Dev.bit, same]
    exact enable
  have coord (i : Nat) : s.dev.woken.reg .DEV_COORD i = s.dev.reg .DEV_COORD i := wakes.reg s.dev (by decide) i
  have now_ : s.dev.woken.now = s.dev.now := congrArg BitVec.toNat (keepAll_gcnt s.dev (wakes.leaves (by decide)))
  generalize s.dev.woken = w at *
  obtain ⟨entered, port⟩ := startTrain_reads (trainable_congr state enable' coord (.inl down) long)
  refine ⟨⟨?_, by rw [q.port, port]⟩, fun four => (q.fld rfl 0).trans ?_⟩
  · rw [enteredLink_iff] at entered ⊢
    rw [q.linkEntry, entered, now_]
  · rw [runAct_eq, (confines_startTrain p w).fld w (by decide)]
    exact power four

/-! ### The messages of an exchange (R605, R606) -/

/-- A command whose updates keep registers answers with its messages and a changed port. -/
theorem completes_message {ins : Instr} {s : State} {act : Act} {us : List Upd} {P : Dev → Prop} (he : exec ins s = perform (onPower act) s)
    (hs : s.dev.steady) (ha : act s.dev = us) (hc : Confined [.freeCtr, .outbox, .ports] [] us)
    (h : ∀ d, Quiet (applyAll us s.dev) d → regsBut [] s.dev d → P d) : Completes ins s P :=
  completes_does he hs ha hc (by decide) fun d q => h d q (q.regsBut (hc.regsBut _ (by decide)))

/-- The answer to a first message (R605). -/
def replyHello (ctr : Nat) (m : KxHello) : KxHello :=
  let (kem, ecdh) := Config.kxPart ctr (kxBytes m)
  ⟨Config.random ctr 32, kem, ecdh⟩

theorem completes_kxHello {s : State} {p : Fin 6} (m : KxHello) (hs : s.dev.steady) (open_ : s.dev.linkState p = lsKeying ∨ s.dev.linkState p = lsUp)
    (other : s.dev.initiates p = false) : Completes (.kxHello p m) s fun d => ∃ q, Msg.portMsg p (.kxReply q) ∈ d.outbox ∧
        Msg.portMsg p (.kxAuth 0x52) ∈ d.outbox ∧
        (d.port p).kx = some ⟨kxBytes m ++ kxBytes q, true, false, decide (s.dev.linkState p = lsUp)⟩ ∧ regsBut [] s.dev d := by
  have act : kxHelloAct p m s.dev = [.drawFree, .send (.portMsg p (.kxReply (replyHello s.dev.freeCtr m))), .send (.portMsg p (.kxAuth 0x52)),
      .port p fun x => { x with kx := some ⟨kxBytes m ++ kxBytes (replyHello s.dev.freeCtr m), true, false, s.dev.linkState p = lsUp⟩ }] :=
    if_neg (by simpa [other, ← imp_iff_not_or, or_iff_not_imp_left] using open_)
  refine completes_message rfl hs act (by simp only [confined_cons, confined_nil, and_true]; exact ⟨rfl, rfl, rfl, rfl⟩) fun d q regs =>
    ⟨replyHello s.dev.freeCtr m, q.sent.subset (sent_of_mem (by simp) _), q.sent.subset (sent_of_mem (by simp) _), ?_, regs⟩
  rw [q.port]
  simp only [applyAll_cons, applyAll_nil, port_apply_same]

theorem completes_kxReply {s : State} {p : Fin 6} (m : KxHello) (hs : s.dev.steady) {k : KxSt} (kx : (s.dev.port p).kx = some k)
    (open_ : s.dev.keyOpen p = true) (own : s.dev.initiates p = true) (first : k.replied = false) :
    Completes (.kxReply p m) s fun d => Msg.portMsg p (.kxAuth 0x49) ∈ d.outbox ∧
      (d.port p).kx = some { k with transcript := k.transcript ++ kxBytes m, replied := true } ∧ regsBut [] s.dev d := by
  have act : kxReplyAct p m s.dev = [.send (.portMsg p (.kxAuth 0x49)),
      .port p fun x => { x with kx := some { k with transcript := k.transcript ++ kxBytes m, replied := true } }] := by
    simp [kxReplyAct, kx, open_, own, first]
  refine completes_message rfl hs act (by simp only [confined_cons, confined_nil, and_true]; exact ⟨rfl, rfl⟩) fun d q regs =>
    ⟨q.sent.subset (sent_of_mem (by simp) _), ?_, regs⟩
  rw [q.port]
  simp only [applyAll_cons, applyAll_nil, port_apply_same]

theorem completes_kxAuth {s : State} {p : Fin 6} (a : KxAuth) (hs : s.dev.steady) {k : KxSt} (kx : (s.dev.port p).kx = some k)
    (open_ : s.dev.keyOpen p = true) (replied : k.replied = true)
    (ok : (a.rsaOk && a.slhOk && a.chainsOk && decide (a.uid = (s.dev.port p).peerUid)) = true) :
    Completes (.kxAuth p a) s fun d => (d.port p).kx = some { k with authOk := true } ∧
      Msg.portMsg p (.kxDone (Config.kxConfirm k.transcript (s.dev.kxRole p))) ∈ d.outbox ∧ regsBut [] s.dev d := by
  have act : kxAuthAct p a s.dev = [.send (.portMsg p (.kxDone (Config.kxConfirm k.transcript (s.dev.kxRole p)))),
      .port p fun x => { x with kx := some { k with authOk := true } }] := by
    simp only [kxAuthAct, kx, open_, replied, ok, if_true, Bool.not_true, Bool.or_self, Bool.false_eq_true, if_false]
  refine completes_message rfl hs act (by simp only [confined_cons, confined_nil, and_true]; exact ⟨rfl, rfl⟩) fun d q regs =>
    ⟨?_, q.sent.subset (sent_of_mem (by simp) _), regs⟩
  rw [q.port]
  simp only [applyAll_cons, applyAll_nil, port_apply_same]

/-! ### The end of an exchange (R379, R606, R607) -/

/-- A port that is not UP, or that comes UP when start-up is over, takes no part in it. -/
theorem portUp_nil {p : Nat} {d : Dev} (h : d.linkState p ≠ lsUp ∨ (d.mode ≠ stBoot ∧ d.mode ≠ stPlanWait)) : portUp p d = [] := by
  unfold portUp
  rcases h with down | ⟨boot, plan⟩
  · exact if_pos down
  · split
    · rfl
    · rw [decide_eq_false boot, decide_eq_false plan]
      rfl

theorem runAct_kxDone (p : Nat) (mac : List Byte) (d : Dev) : runAct (kxDoneAct p mac) d =
    runAct (onlyIf (decide (d.linkState p ≠ lsUp)) (portUp p)) (runAct (kxDoneLink p mac) d) := by
  rw [runAct_eq (kxDoneAct p mac), kxDoneAct, ← runAct_eq, runAct_two]

section done
variable {p : Nat} {mac : List Byte} {d : Dev} {k : KxSt} (kx : (d.port p).kx = some k) (open_ : d.keyOpen p = true) (auth : k.authOk = true)
include kx open_ auth

theorem kxDoneLink_fail (wrong : mac ≠ Config.kxConfirm k.transcript (d.peerRole p)) : kxDoneLink p mac d = kxFail p d := by
  simp only [kxDoneLink, kx, open_, auth, wrong, Bool.not_true, Bool.or_self, Bool.false_eq_true, if_false]

theorem kxDoneLink_done (right : mac = Config.kxConfirm k.transcript (d.peerRole p)) :
    kxDoneLink p mac d = (if k.rekey then newPhase p else comeUp p) d := by
  simp only [kxDoneLink, kx, open_, auth, right, Bool.not_true, Bool.or_self, Bool.false_eq_true, if_false, if_true]

end done

/-- A port whose exchange is open has a live link. -/
theorem linkLive_of_keyOpen {d : Dev} {p : Nat} (h : d.keyOpen p = true) : d.linkLive p := by
  simp only [Dev.keyOpen, Bool.or_eq_true, Bool.and_eq_true, decide_eq_true_eq] at h
  rcases h with keying | ⟨up, -⟩
  · refine ⟨?_, ?_⟩ <;>
    · rw [keying]
      decide
  · exact linkLive_of_up up

/-- What a port that comes UP begins with (R379, R459). -/
def upPort (now : Nat) : PortSt → PortSt := fun s => { s with kx := none, kxFails := 0, goodAt := now, heardAt := now, silent := false }

def startUp (p : Nat) : Act := fun d => [.port p (upPort d.now)]

def reportRestored (p : Nat) : Act := fun d => [.send (.mgmt d.coordinator (.faultReport 0 d.here (some p) []))]

theorem comeUp_eq (p : Nat) (d : Dev) : comeUp p d =
    inSequence [enterLink p lsUp, startUp p, admitPort p, onlyIf (d.linkDead d.route.fmap d.here p) (reportRestored p), fun _ => [.pump]] d := rfl

theorem runAct_comeUp (p : Nat) (d : Dev) : runAct (comeUp p) d =
    runAct (fun _ => [.pump]) (runAct (onlyIf (d.linkDead d.route.fmap d.here p) (reportRestored p))
      (runAct (admitPort p) (runAct (startUp p) (runAct (enterLink p lsUp) d)))) := by
  rw [runAct_eq, comeUp_eq, ← runAct_eq, runAct_inSequence_cons, runAct_inSequence_cons, runAct_three]

/-- What the end of an exchange leaves of its port. -/
def Dev.keyed (p : Nat) (d : Dev) : (Nat × Nat × Nat) × Option KxSt × Nat := (d.linkEntry p, (d.port p).kx, (d.port p).kxFails)

theorem keyed_admitPort (p : Nat) (d : Dev) : (runAct (admitPort p) d).keyed p = d.keyed p := by
  have keeps : Keeps (Dev.keyed p) (admitPort p d) := by
    unfold admitPort
    split
    · simp only [onlyIf, keeps_ite, keeps_cons, keeps_nil, and_true, implies_true]
      intro _ e
      have entry := linkEntry_setF p (f := F.LINK_STATUS_ADMITTED) (i := p) (v := 1) rfl rfl e
      have ports := port_of_ports (keep_ports (setF F.LINK_STATUS_ADMITTED p 1) e (by simp [setF])) p
      simp only [Dev.keyed, entry, ports]
    · exact keeps_nil
  rw [runAct_eq]
  exact keeps.eq d

theorem keyed_pump (p : Nat) (d : Dev) : d.pump.keyed p = d.keyed p := by
  have carried := carried_pump (p := p) d
  simp only [Dev.keyed, Dev.linkEntry, carried.kx, carried.kxFails, carried.enteredAt, carried.state,
    fld_pump (f := F.LINK_STATUS_ENTRY_GCNT) (by decide)]

theorem keyed_reportRestored (p : Nat) (b : Bool) (d : Dev) : (runAct (onlyIf b (reportRestored p)) d).keyed p = d.keyed p := by
  rw [runAct_onlyIf]
  split
  · rfl
  · rfl

theorem keyed_startUp (p : Nat) (d : Dev) : (runAct (startUp p) d).keyed p = (d.linkEntry p, none, 0) := by
  have run : runAct (startUp p) d = (Upd.port p (upPort d.now)).apply d := rfl
  have entry := linkEntry_port p (q := p) (g := upPort d.now) (fun _ => rfl) d
  rw [run, Dev.keyed, entry, port_apply_same]
  rfl

/-- A port that comes UP has entered the state, with its exchange over (R379, R606). -/
theorem comeUp_reads (p : Nat) (d : Dev) : (runAct (comeUp p) d).keyed p = ((lsUp, d.now % 2 ^ 32, d.now), none, 0) := by
  have entered := enteredLink_iff.1 (enteredLink_enterLink (p := p) (st := lsUp) (by decide) d)
  rw [runAct_comeUp]
  generalize runAct (enterLink p lsUp) d = e at *
  rw [runAct_list, applyAll_cons, applyAll_nil, apply_pump, keyed_pump, keyed_reportRestored, keyed_admitPort, keyed_startUp, entered]

theorem confines_admitPort (p : Nat) : Confines [.regs] [.LINK_STATUS] (admitPort p) := by
  intro d
  unfold admitPort
  split
  · simp only [onlyIf, confined_ite, confined_cons, confined_nil, and_true, implies_true]
    exact fun _ => rfl
  · exact confined_nil

theorem confines_pump : Confines [.regs, .ports, .route, .chain, .outbox] routerRegs fun _ => [.pump] := fun _ =>
  (confined_cons ..).2 ⟨by decide, confined_nil⟩

theorem mode_comeUp (p : Nat) (d : Dev) : (runAct (comeUp p) d).mode = d.mode := by
  have start : Confines [.ports] [] (startUp p) := fun _ => (confined_cons ..).2 ⟨rfl, confined_nil⟩
  have report : Confines [.outbox] [] (reportRestored p) := fun _ => (confined_cons ..).2 ⟨rfl, confined_nil⟩
  have confines : Confines [.regs, .ports, .route, .chain, .outbox] (.LINK_STATUS :: routerRegs) (comeUp p) := fun d => by
    rw [comeUp_eq]
    exact confines_inSequence_cons ((confines_enterLink p lsUp).mono (by decide) (by decide))
      (confines_inSequence_cons (start.mono (by decide) (by decide)) (confines_inSequence_cons ((confines_admitPort p).mono (by decide) (by decide))
        (confines_inSequence_cons (Confines.onlyIf (report.mono (by decide) (by decide))) (confines_inSequence_cons (as := [])
          (confines_pump.mono (by decide) (by decide)) Confines.nil)))) d
  rw [runAct_eq]
  exact (confines d).fld d (by decide) 0

theorem kx_of_beside {s s' : PortSt} (h : s'.beside = s.beside) : s'.kx = s.kx := (congrArg PortSt.kx h :)
theorem enteredAt_of_beside {s s' : PortSt} (h : s'.beside = s.beside) : s'.enteredAt = s.enteredAt := (congrArg PortSt.enteredAt h :)

theorem Behind.keyed {e d : Dev} (b : Behind e d) (p : Nat) : d.keyed p = e.keyed p := by
  have same := b.reception p
  simp only [Dev.reception, Prod.mk.injEq] at same
  obtain ⟨port, -, entry, -⟩ := same
  simp only [Dev.keyed, Dev.linkEntry, b.link, entry, kx_of_beside port, kxFails_of_beside port, enteredAt_of_beside port]

section done
variable {s : State} {p : Fin 6} {mac : List Byte} {k : KxSt} (hs : s.dev.steady) (kx : (s.dev.port p).kx = some k)
  (open_ : s.dev.keyOpen p = true) (auth : k.authOk = true)
include hs kx open_ auth

theorem completes_kxDone_failed (wrong : mac ≠ Config.kxConfirm k.transcript (s.dev.peerRole p)) :
    Completes (.kxDone p mac) s fun d => LinkDied s.dev d p F.LINK_ERR_PROTOCOL ∧ d.fld F.SEC_ERR_LINK_AUTH = 1 ∧
      (d.port p).kxFails = (s.dev.port p).kxFails + 1 := by
  have live := linkLive_of_keyOpen open_
  refine completes_kxFailed rfl hs ?_ live
  have fail : runAct (kxDoneLink p mac) s.dev = runAct (kxFail p) s.dev := by
    rw [runAct_eq, kxDoneLink_fail kx open_ auth wrong, ← runAct_eq]
  have dead := (kxFail_reads live).1.state
  rw [runAct_kxDone, fail]
  generalize runAct (kxFail p) s.dev = e at *
  rw [runAct_onlyIf]
  split
  · rw [runAct_eq, portUp_nil (.inl (by rw [dead]; decide)), applyAll_nil]
  · rfl

/-- The port of a rekey (R607). -/
def rekeyedPort : PortSt → PortSt := fun s =>
  { s with kx := none, kxFails := 0, txKph := !s.txKph, rxKph := !s.rxKph, txN := 0, rxN := 0, rxOld := 0 }

theorem completes_rekeyed (right : mac = Config.kxConfirm k.transcript (s.dev.peerRole p)) (rekey : k.rekey = true)
    (up : s.dev.linkState p = lsUp) : Completes (.kxDone p mac) s fun d => d.linkState p = lsUp ∧ (d.port p).kx = none ∧
      (d.port p).txKph = !(s.dev.port p).txKph ∧ (d.port p).rxKph = !(s.dev.port p).rxKph ∧ (d.port p).txN = 0 ∧ (d.port p).rxN = 0 ∧
      regsBut [] s.dev d := by
  have link : kxDoneLink p mac s.dev = [.port p rekeyedPort] := by
    rw [kxDoneLink_done kx open_ auth right, rekey]
    rfl
  have act : kxDoneAct p mac s.dev = [.port p rekeyedPort] := by
    have same : kxDoneAct p mac s.dev = inSequence [kxDoneLink p mac, onlyIf (decide (s.dev.linkState p ≠ lsUp)) (portUp p)] s.dev := rfl
    rw [same, up]
    simp only [inSequence, link, onlyIf, ne_eq, not_true_eq_false, decide_false, Bool.false_eq_true, if_false, List.append_nil]
  refine completes_message rfl hs act (by simp only [confined_cons, confined_nil, and_true]; rfl) fun d q regs => ?_
  have state : d.linkState p = lsUp := (q.fld rfl p).trans ((fld_of_regs (keep_regs (Upd.port p rekeyedPort) s.dev (by simp)) _ _).trans up)
  have port : d.port p = rekeyedPort (s.dev.port p) := by rw [q.port, applyAll_cons, applyAll_nil, port_apply_same]
  rw [port]
  exact ⟨state, rfl, rfl, rfl, rfl, rfl, regs⟩

theorem completes_keyed (right : mac = Config.kxConfirm k.transcript (s.dev.peerRole p)) (first : k.rekey = false)
    (boot : s.dev.mode ≠ stBoot) (plan : s.dev.mode ≠ stPlanWait) : Completes (.kxDone p mac) s fun d =>
      s.dev.enteredLink d p lsUp ∧ (d.port p).kx = none ∧ (d.port p).kxFails = 0 := by
  have link : runAct (kxDoneLink p mac) s.dev = runAct (comeUp p) s.dev := by
    rw [runAct_eq, kxDoneLink_done kx open_ auth right, first, ← runAct_eq]
    rfl
  have run : runAct (kxDoneAct p mac) s.dev = runAct (comeUp p) s.dev := by
    rw [runAct_kxDone, link, runAct_onlyIf]
    split
    · rw [runAct_eq (portUp p), portUp_nil (.inr ⟨by rw [mode_comeUp]; exact boot, by rw [mode_comeUp]; exact plan⟩), applyAll_nil]
    · rfl
  refine completes_behind rfl hs fun d b => ?_
  rw [run] at b
  have keyed := comeUp_reads p s.dev
  generalize runAct (comeUp p) s.dev = e at *
  have last : d.keyed p = ((lsUp, s.dev.now % 2 ^ 32, s.dev.now), none, 0) := (b.keyed p).trans keyed
  simp only [Dev.keyed, Prod.mk.injEq] at last
  obtain ⟨entry, kx', fails⟩ := last
  exact ⟨enteredLink_iff.2 entry, kx', fails⟩

end done

/-- Settles O45: each state of bring-up, each write of LINK_CTL and each message of the exchange by its own lemma. -/
theorem linksComeUp : Obligations.LinksComeUp := by
  intro s r p val lat hop m a mac hs
  dsimp only
  refine ⟨completes_trainDone hs, fun other => completes_quiet rfl hs (if_neg (by simpa using other)), completes_alignDone hs,
    fun other => completes_quiet rfl hs (if_neg (by simpa using other)), completes_helloDone lat hop hs, fun other => ?_, fun b bound => ⟨?_, fun early => ?_⟩, fun none_ => ?_,
    ⟨fun due idle enable long => ?_, fun no => ?_⟩, fun fresh powered => ?_, ⟨fun down may enable long => ?_, fun no => ?_⟩,
    ⟨fun open_ other => ?_, fun no => ?_⟩, fun k kx open_ => ?_, fun none_ => ⟨?_, ?_⟩, ⟨fun due => ?_, fun no => ?_⟩⟩
  · refine completes_quiet rfl hs (if_neg ?_)
    rcases other with state | none_
    · simp [state]
    · simp [none_]
  · exact completes_bringupTimeout hs bound
  · refine completes_quiet rfl hs ?_
    simp only [linkBringupTimeoutAct, bound, early, Bool.false_eq_true, if_false]
  · refine completes_quiet rfl hs ?_
    simp only [linkBringupTimeoutAct, none_]
  · exact completes_trains rfl hs (if_pos due) (trainable_congr rfl enable (fun _ => rfl) (of_decide_eq_true idle) long)
  · refine completes_quiet rfl hs ?_
    simp only [linkAutoRetrainAct, onlyIf, startTrain_eq, Dev.trainable]
    split
    · rename_i due
      refine if_neg ?_
      rcases no with no | no | no | no
      · exact absurd due (by rw [no]; exact Bool.false_ne_true)
      · have idle := of_decide_eq_false no
        simp only [not_or] at idle
        simp [idle]
      · simp [no]
      · simp_all
    · rfl
  · have en4 : bitOf (val ||| 4) 0 = bitOf val 0 := by simp [bitOf]
    have train4 : bitOf (val ||| 4) 1 = bitOf val 1 := by simp [bitOf]
    have kill4 : bitOf (val ||| 4) 2 = true := by simp [bitOf]
    have en2 : bitOf (val ||| 2) 0 = bitOf val 0 := by simp [bitOf]
    have train2 : bitOf (val ||| 2) 1 = true := by simp [bitOf]
    have kill2 : bitOf (val ||| 2) 2 = bitOf val 2 := by simp [bitOf]
    have live_of (live : decide (s.dev.linkState p ≠ lsDown ∧ s.dev.linkState p ≠ lsDead) = true) : s.dev.linkLive p :=
      ⟨(of_decide_eq_true live).2, (of_decide_eq_true live).1⟩
    refine ⟨fun live en train => ?_, fun live en i hi => ?_, fun idle long en kill => ?_, fun down long en train kill was => ?_⟩
    · exact completes_kill rfl hs fresh powered (live_of live) (en4.trans en) (train4.trans train) kill4
    · simp only [List.mem_cons, List.not_mem_nil, or_false] at hi
      rcases hi with rfl | rfl | rfl
      · exact completes_clear (p := p) (val := val ||| 4) rfl hs fresh powered (live_of live) (en4.trans en)
      · exact completes_clear (p := p) (val := val ||| 2) rfl hs fresh powered (live_of live) (en2.trans en)
      · exact completes_clear (p := p) (val := val) rfl hs fresh powered (live_of live) en
    · exact completes_retrain (val := val ||| 2) rfl hs fresh powered (of_decide_eq_true idle) long (en2.trans en) train2 (kill2.trans kill)
    · exact completes_enable rfl hs fresh powered down long en train kill was
  · exact completes_presence hs down may enable long
  · refine completes_quiet rfl hs (if_neg ?_)
    rcases no with no | no
    · simp [no]
    · simp_all
  · exact completes_kxHello m hs (of_decide_eq_true open_) other
  · refine completes_quiet rfl hs (if_pos ?_)
    rcases no with no | no
    · simp_all
    · simp [no]
  · have live := linkLive_of_keyOpen open_
    refine ⟨completes_kxReply m hs kx open_, fun no => completes_quiet rfl hs ?_, fun first => completes_quiet rfl hs ?_,
      fun replied => ⟨completes_kxAuth a hs kx open_ replied, fun bad => completes_kxFailed rfl hs ?_ live⟩, fun auth wrong =>
      completes_kxDone_failed hs kx open_ auth wrong, fun auth right => ⟨completes_rekeyed hs kx open_ auth right, completes_keyed hs kx open_ auth right⟩⟩
    · rcases no with no | no <;> simp [kxReplyAct, kx, no]
    · simp [kxAuthAct, kx, first]
    · have act : kxAuthAct p a s.dev = kxFail p s.dev := by
        simp only [kxAuthAct, kx, open_, replied, bad, Bool.not_true, Bool.or_self, Bool.false_eq_true, if_false]
      rw [runAct_eq, act, ← runAct_eq]
  · exact completes_quiet rfl hs (by simp only [kxReplyAct, none_])
  · exact completes_quiet rfl hs (by simp only [kxAuthAct, none_])
  · have act : rekeyStartAct p s.dev = beginKx p true s.dev := if_pos due
    obtain ⟨⟨k, kx, rekey, replied⟩, sends⟩ := beginKx_reads p true s.dev
    rw [runAct_eq] at kx sends
    refine completes_message rfl hs act (confines_beginKx p true s.dev) fun d q regs => ⟨⟨k, ?_, rekey, replied⟩, fun own => ?_, regs⟩
    · rw [q.port]
      exact kx
    · obtain ⟨m, hm⟩ := sends own
      exact ⟨m, q.sent.subset hm⟩
  · exact completes_quiet rfl hs (if_neg (by rw [no]; exact Bool.false_ne_true))

end Sys2Proof.Machine
end

