-- ==== Sys2Proof/Proofs/Flits.lean ====
section
/-! PROOFS. Flits received: CRC, headers, CTRL, NAK, FENCE and HELLO flits (R356, R357, R367, R371, R372, R378, R381, R383). -/

namespace Sys2Proof.Machine

/-! ### What stays of a port behind a command -/

theorem carried_of_beside {s s' : PortSt} (h : s'.beside = s.beside) : s'.carried = s.carried := (congrArg PortSt.carried h :)
theorem held_of_beside {s s' : PortSt} (h : s'.beside = s.beside) : s'.held = s.held := (congrArg PortSt.held h :)

theorem Behind.carried {e d : Dev} (b : Behind e d) (p : Nat) : Carried p e d := by
  have same := b.reception p
  simp only [Dev.reception, Prod.mk.injEq] at same
  obtain ⟨port, -⟩ := same
  exact ⟨carried_of_beside port, b.link p, fun _ => held_of_beside port, b.fld (by decide) p⟩

theorem Behind.reg {e d : Dev} (b : Behind e d) {r : Reg} (h : r ∉ fenceRegs) (i : Nat) : d.reg r i = e.reg r i := by
  have mode : modeReg r = false := modeReg_eq_false fun hm => h (List.mem_append_right _ hm)
  rw [b.quiet.reg r i mode, runAct_eq, (tames_fenceLost e).confined.reg e h]

theorem Behind.memory {e d : Dev} (b : Behind e d) : sameMemory e d := by
  have lost : sameMemory e (runAct fenceLost e) := by
    rw [runAct_eq]
    exact (tames_fenceLost e).confined.memory (by decide) e
  exact lost.trans b.quiet.memory

theorem resent_iff {d d' : Dev} {p e : Nat} : Resent d d' p e ↔
    if d.fld F.LINK_CFG_REPLAY_MAX p ≤ resendsFrom p e d then LinkDied d d' p F.LINK_ERR_REPLAY_MAX
    else d.counted d' F.LINK_RETRY_EPISODES p 1 ∧
      d.counted d' F.LINK_RETRY_FLITS p ((d.port p).held.dropWhile fun h => h.seq ≠ e).length ∧
      Msg.resendFlits p e ((d.port p).held.dropWhile fun h => h.seq ≠ e).length ∈ d'.outbox ∧
      (d'.port p).resends = resendsFrom p e d ∧ (d'.port p).resendSeq = e ∧ d'.linkState p = d.linkState p := Iff.rfl

/-- A resend stands behind what leaves its port, its records and what it sent. -/
theorem Resent.after {d₀ e d : Dev} {p n : Nat} (h : Resent d₀ e p n) (died : LinkDied d₀ e p F.LINK_ERR_REPLAY_MAX → LinkDied d₀ d p F.LINK_ERR_REPLAY_MAX)
    (episodes : d.fld F.LINK_RETRY_EPISODES p = e.fld F.LINK_RETRY_EPISODES p) (flits : d.fld F.LINK_RETRY_FLITS p = e.fld F.LINK_RETRY_FLITS p)
    (sent : ∀ m ∈ e.outbox, m ∈ d.outbox) (port : Carried p e d) : Resent d₀ d p n := by
  rw [resent_iff] at h ⊢
  split
  · rename_i last
    rw [if_pos last] at h
    exact died h
  · rename_i last
    rw [if_neg last] at h
    obtain ⟨hEpisodes, hFlits, hSent, again, seq, state⟩ := h
    exact ⟨episodes.trans hEpisodes, flits.trans hFlits, sent _ hSent, port.resends.trans again, port.resendSeq.trans seq, port.state.trans state⟩

theorem linkBit_replay : LinkBit F.LINK_ERR_REPLAY_MAX := ⟨rfl, rfl, by decide⟩

theorem Resent.pump {d₀ e : Dev} {p n : Nat} (h : Resent d₀ e p n) : Resent d₀ e.pump p n :=
  h.after (fun died => died.pump linkBit_replay) (fld_pump (by decide) e p) (fld_pump (by decide) e p)
    (fun _ hm => (net_pump e).sent.subset hm) (carried_pump e)

theorem Behind.resent {d₀ e d : Dev} {p n : Nat} (b : Behind e d) (h : Resent d₀ e p n) : Resent d₀ d p n :=
  h.after (fun died => b.linkDied died linkBit_replay) (b.fld (by decide) p) (b.fld (by decide) p) (fun _ hm => b.sent hm) (b.carried p)

/-- What a resend or the death that takes its place leaves. -/
theorem resent_resendFrom {d : Dev} {p : Nat} (e : Nat) (live : d.linkLive p) : Resent d (runAct (resendFrom p e) d) p e := by
  rw [resent_iff, runAct_eq, resendFrom_eq]
  split
  · rw [← runAct_eq]
    exact linkDied_linkDeath live linkBit_replay
  · rename_i last
    obtain ⟨episodes, flits, again, seq⟩ := resendUpds_reads p e ((d.port p).held.dropWhile fun h => h.seq ≠ e).length d
    exact ⟨episodes, flits, sent_of_mem (by simp [resendUpds]) _, again, seq, (confined_resendUpds p e _ d).fld _ (by decide) p⟩

/-! ### Headers -/

/-- A port that has taken the ACK and the credit count of a good flit (R357, R367, R370). -/
def taken (f : Flit) (now : Nat) : PortSt → PortSt := fun s =>
  let a := f.ack.toNat
  let hit := s.held.any fun h => h.seq = a
  let v := f.cvc.toNat
  let c := nth s.freed v
  { s with
    held := if hit then dropHeld a s.held else s.held, ackAt := if hit then now else s.ackAt
    resends := if hit then 0 else s.resends, goodAt := now
    freed := if v < 6 then addNth s.freed v ((f.ccnt.toNat + 65536 - c % 65536) % 65536) else s.freed }

theorem takeHeader_eq (p : Nat) (f : Flit) (d : Dev) : takeHeader p f d = [.port p (taken f d.now)] := rfl

/-- The module with the header of a flit taken. -/
theorem runAct_takeHeader (p : Nat) (f : Flit) (d : Dev) : runAct (takeHeader p f) d = (Upd.port p (taken f d.now)).apply d := by
  rw [runAct_eq, takeHeader_eq, applyAll_cons, applyAll_nil]

/-- A header taken leaves everything but its port. -/
structure TookHeader (p : Nat) (f : Flit) (d h : Dev) : Prop where
  port : h.port p = taken f d.now (d.port p)
  regs : h.regs = d.regs
  slices : h.slices = d.slices
  gcnt : h.gcnt = d.gcnt
  route : h.route = d.route
  sent : h.outbox = d.outbox
  memory : sameMemory d h

theorem tookHeader (p : Nat) (f : Flit) (d : Dev) : TookHeader p f d (runAct (takeHeader p f) d) := by
  rw [runAct_takeHeader]
  have one : Confined [.ports] [] [.port p (taken f d.now)] := (confined_cons ..).2 ⟨rfl, confined_nil⟩
  exact {
    port := port_apply_same ..
    regs := keep_regs _ d (by simp)
    slices := keep_slices _ d (by simp)
    gcnt := keep_gcnt _ d (by simp)
    route := keep_route _ d (by simp)
    sent := keep_outbox _ d (by simp)
    memory := one.memory (by decide) d }

theorem TookHeader.linkState {p : Nat} {f : Flit} {d h : Dev} (t : TookHeader p f d h) (q : Nat) : h.linkState q = d.linkState q := fld_of_regs t.regs ..

theorem TookHeader.live {p : Nat} {f : Flit} {d h : Dev} (t : TookHeader p f d h) (live : d.linkLive p) : h.linkLive p := by
  unfold Dev.linkLive
  rw [t.linkState]
  exact live

/-! ### Unsequenced flits (R357, R371, R383) -/

section unsequenced
variable {p type : Nat} {f : Flit} {k : Act} {d : Dev}

theorem unsequenced_off (off : d.flitLayer p = false) : unsequenced p type f k d = [] := if_pos (by rw [off]; rfl)

theorem unsequenced_crc (on : d.flitLayer p = true) (crc : f.crcOk = false) : unsequenced p type f k d = [setF F.LINK_ERR_CRC p 1] :=
  (if_neg (by rw [on]; decide)).trans (if_pos (by rw [crc]; rfl))

theorem unsequenced_bad (on : d.flitLayer p = true) (crc : f.crcOk = true) (bad : headerBad (d.port p) f = true ∨ f.ftype.toNat ≠ type) :
    unsequenced p type f k d = linkDeath p F.LINK_ERR_PROTOCOL d :=
  (if_neg (by rw [on]; decide)).trans ((if_neg (by rw [crc]; decide)).trans (if_pos (by simpa using bad)))

/-- A good flit: its header is taken, its own act follows, and the router starts what it may. -/
theorem runAct_unsequenced (on : d.flitLayer p = true) (crc : f.crcOk = true) (good : headerBad (d.port p) f = false) (its : f.ftype.toNat = type) :
    runAct (unsequenced p type f k) d = (runAct k (runAct (takeHeader p f) d)).pump := by
  have act : unsequenced p type f k d = inSequence [takeHeader p f, k, fun _ => [.pump]] d :=
    (if_neg (by rw [on]; decide)).trans ((if_neg (by rw [crc]; decide)).trans (if_neg (by simp [good, its])))
  rw [runAct_eq, act, ← runAct_eq, runAct_three, runAct_list, applyAll_cons, applyAll_nil, apply_pump]

end unsequenced

section commands
variable {ins : Instr} {s : State} {p type : Nat} {f : Flit} {k : Act} (he : exec ins s = perform (onPower (unsequenced p type f k)) s)
  (hs : s.dev.steady)
include he hs

theorem completes_unsequenced :
    (s.dev.flitLayer p = false → Completes ins s fun d => s.dev.wrote d []) ∧
    (s.dev.flitLayer p = true → f.crcOk = false → Completes ins s fun d => d.fld F.LINK_ERR_CRC p = 1 ∧ s.dev.wrote d [.LINK_ERR]) ∧
    (s.dev.flitLayer p = true → f.crcOk = true → headerBad (s.dev.port p) f = true ∨ f.ftype.toNat ≠ type →
      Completes ins s fun d => LinkDied s.dev d p F.LINK_ERR_PROTOCOL) := by
  refine ⟨fun off => completes_quiet he hs (unsequenced_off off), fun on crc => ?_, fun on crc bad => ?_⟩
  · have confined : Confined [.regs] [.LINK_ERR] [setF F.LINK_ERR_CRC p 1] := (confined_cons ..).2 ⟨rfl, confined_nil⟩
    refine completes_does he hs (unsequenced_crc on crc) confined (by decide) fun d q => ⟨(q.fld rfl p).trans ?_, ?_⟩
    · rw [applyAll_cons, applyAll_nil, fld_setF]
      rfl
    · exact q.wrote ((confined.mono (by decide) fun _ h => h).wrote _ (by decide))
  · exact completes_linkDeath he hs (unsequenced_bad on crc bad) (linkLive_of_flitLayer on) linkBit_protocol

/-- A good flit, with the module behind its act. -/
theorem completes_good {P : Dev → Prop} (on : s.dev.flitLayer p = true) (crc : f.crcOk = true) (good : headerBad (s.dev.port p) f = false)
    (its : f.ftype.toNat = type)
    (h : ∀ d, Behind (runAct k (runAct (takeHeader p f) s.dev)).pump d → P d) : Completes ins s P := by
  refine completes_behind he hs fun d b => h d ?_
  rw [runAct_unsequenced on crc good its] at b
  exact b

end commands

/-- An act that a flit chooses, where its choice is known. -/
theorem runAct_of_eq {k k' : Act} {d : Dev} (h : k d = k' d) : runAct k d = runAct k' d := by
  rw [runAct_eq, h, ← runAct_eq]

/-! ### CTRL and NAK flits (R367, R372) -/

theorem completes_ctrl {s : State} {p : Fin 6} {f : Flit} (hs : s.dev.steady) (on : s.dev.flitLayer p = true) (crc : f.crcOk = true)
    (good : headerBad (s.dev.port p) f = false) (its : f.ftype = 2) : Completes (.ctrlFlitReceive p f) s fun d =>
      (d.port p).freed = ((List.range 6).map fun v => leNat ((f.payload.drop (4 * v)).take 4)) ∧ (d.port p).goodAt = s.dev.now := by
  refine completes_good rfl hs on crc good (by rw [its]; rfl) fun d b => ?_
  have port := (tookHeader p f s.dev).port
  generalize runAct (takeHeader p f) s.dev = h at *
  have carried := (carried_pump (p := p) _).trans (b.carried p)
  rw [carried.freed, carried.goodAt, runAct_list, applyAll_cons, applyAll_nil, port_apply_same, port]
  exact ⟨rfl, rfl⟩

theorem completes_nak {s : State} {p : Fin 6} {f : Flit} (hs : s.dev.steady) (on : s.dev.flitLayer p = true) (crc : f.crcOk = true)
    (good : headerBad (s.dev.port p) f = false) (its : f.ftype = 3) : Completes (.nakFlitReceive p f) s fun d =>
      if (((runAct (takeHeader p f) s.dev).port p).held.any fun x => x.seq = leNat (f.payload.take 2) % 8192) = true
      then Resent (runAct (takeHeader p f) s.dev) d p (leNat (f.payload.take 2) % 8192)
      else LinkDied (runAct (takeHeader p f) s.dev) d p F.LINK_ERR_PROTOCOL := by
  refine completes_good rfl hs on crc good (by rw [its]; rfl) fun d b => ?_
  have live := (tookHeader p f s.dev).live (linkLive_of_flitLayer on)
  generalize runAct (takeHeader p f) s.dev = h at *
  split
  · rename_i held
    rw [runAct_of_eq (k' := resendFrom p (leNat (f.payload.take 2) % 8192)) (if_pos held)] at b
    exact b.resent (resent_resendFrom _ live).pump
  · rename_i other
    rw [runAct_of_eq (k' := linkDeath p F.LINK_ERR_PROTOCOL) (if_neg other)] at b
    exact b.linkDied ((linkDied_linkDeath live linkBit_protocol).pump linkBit_protocol) linkBit_protocol

/-! ### FENCE flits (R377, R378, R431, R461) -/

/-- What a fence flit notes at its port. -/
def noteFence (p : Nat) (device : Bool) (pkey : BitVec 12) : Act := fun _ => [receiveFence p device pkey, setF F.LINK_STATUS_FENCE_RX p 1]

/-- The fences that a fence flit of a slice, and one of a device, draw. -/
def fenceOne (key : BitVec 12) : Act := fun d =>
  match d.sliceOf key with
  | some i => onlyIf (d.memberHere (d.slice i) || d.transitHere (d.slice i)) (fenceSlice i 0) d
  | none => []
def fenceAll (p : Nat) : Act := fun d => forEach (fun i => fenceSlice i 0) (d.slicesOf (d.neighbour p)) d

theorem reception_fenceOne (p : Nat) (key : BitVec 12) (d : Dev) : Keeps (Dev.reception p) (fenceOne key d) := by
  unfold fenceOne
  split
  · unfold onlyIf
    split
    · exact reception_fenceSlice p _ 0 d
    · exact keeps_nil
  · exact keeps_nil

theorem reception_fenceAll (p q : Nat) (d : Dev) : Keeps (Dev.reception p) (fenceAll q d) :=
  keeps_forEach (fun i e => reception_fenceSlice p i 0 e) d

/-- What is noted of a fence stands behind the fences, the router and the end of the command. -/
theorem fence_noted {p : Nat} {e e' d : Dev} {us : List Upd} (keeps : Keeps (Dev.reception p) us) (run : e' = applyAll us e) (b : Behind e'.pump d) :
    (d.port p).rxFence = (e.port p).rxFence ∧ (d.port p).rxDevice = (e.port p).rxDevice ∧
    d.fld F.LINK_STATUS_FENCE_RX p = e.fld F.LINK_STATUS_FENCE_RX p := by
  have carried := (carried_pump (p := p) e').trans (b.carried p)
  have seen := b.reception p
  have same := keeps.eq e
  rw [← run] at same
  simp only [Dev.reception, Prod.mk.injEq] at same seen
  obtain ⟨port, -, -, rx, -⟩ := same
  obtain ⟨-, -, -, rx', -⟩ := seen
  refine ⟨carried.rxFence.trans (congrArg PortSt.rxFence (carried_of_beside port) :), carried.rxDevice.trans (congrArg PortSt.rxDevice
    (carried_of_beside port) :), rx'.trans ((fld_pump (by decide) e' p).trans rx)⟩

theorem noteFence_reads (p : Nat) (device : Bool) (key : BitVec 12) (d : Dev) :
    (runAct (noteFence p device key) d).fld F.LINK_STATUS_FENCE_RX p = 1 ∧
    (device = false → key ∈ ((runAct (noteFence p device key) d).port p).rxFence) ∧
    (device = true → ((runAct (noteFence p device key) d).port p).rxDevice = true) := by
  have ports (e : Dev) : ((setF F.LINK_STATUS_FENCE_RX p 1).apply e).port p = e.port p := port_of_ports (keep_ports _ e (by simp [setF])) p
  simp only [noteFence, receiveFence, runAct_eq, applyAll_cons, applyAll_nil, ports, port_apply_same]
  refine ⟨?_, fun one => ?_, fun dev => ?_⟩
  · rw [fld_setF]
    rfl
  · rw [one]
    by_cases old : (d.port p).rxFence.contains key = true
    · simp only [old, Bool.or_true, if_true]
      simpa using old
    · simp only [old, Bool.or_self, Bool.false_eq_true, if_false]
      exact List.mem_append_right _ (List.mem_singleton_self _)
  · rw [dev]
    simp

/-- The coordinates and the shape are read from DEV_COORD alone. -/
theorem shape_congr {d d' : Dev} (coord : ∀ i, d'.reg .DEV_COORD i = d.reg .DEV_COORD i) : d'.axis = d.axis ∧ d'.here = d.here := by
  have fld (f : Fld) (hf : f.reg = .DEV_COORD) (i : Nat) : d'.fld f i = d.fld f i := by simp only [Dev.fld, hf, coord]
  refine ⟨funext fun a => ?_, by simp only [Dev.here, fld F.DEV_COORD_X rfl, fld F.DEV_COORD_Y rfl, fld F.DEV_COORD_Z rfl]⟩
  unfold Dev.axis
  split <;> exact fld _ rfl 0

/-- The slices that a fence concerns rest on the map of slices and the coordinates. -/
structure SameRoles (d d' : Dev) : Prop where
  slices : d'.slices = d.slices
  coord : ∀ i, d'.reg .DEV_COORD i = d.reg .DEV_COORD i

section roles
variable {d d' : Dev} (same : SameRoles d d')
include same

theorem SameRoles.sliceOf (key : BitVec 12) : d'.sliceOf key = d.sliceOf key := by
  simp only [Dev.sliceOf, same.slices]

theorem SameRoles.slice (i : Nat) : d'.slice i = d.slice i := slice_of_slices same.slices i

theorem SameRoles.member (x : SliceSt) : d'.memberHere x = d.memberHere x := memberHere_of_same same.coord rfl

theorem SameRoles.transit (x : SliceSt) : d'.transitHere x = d.transitHere x := by
  obtain ⟨axis, here⟩ := shape_congr same.coord
  unfold Dev.transitHere Dev.isTransit Dev.isTransitOn Dev.isMember Dev.offsetIn
  rw [axis, here]

theorem SameRoles.slicesAt (p : Nat) : d'.slicesOf (d'.neighbour p) = d.slicesOf (d.neighbour p) := by
  obtain ⟨axis, here⟩ := shape_congr same.coord
  unfold Dev.slicesOf Dev.neighbour Dev.stepOn Dev.isTransit Dev.isTransitOn Dev.isMember Dev.offsetIn
  rw [axis, here, same.slices]

end roles

theorem desc_of_role {d : Dev} {x : SliceSt} (h : d.memberHere x = true ∨ d.transitHere x = true) : x.desc.isSome = true := by
  rcases h with member | transit
  · exact desc_of_memberHere member
  · unfold Dev.transitHere at transit
    split at transit
    · simp [*]
    · cases transit

theorem confines_noteFence (p : Nat) (device : Bool) (key : BitVec 12) : Confines [.ports, .regs] [.LINK_STATUS] (noteFence p device key) := fun _ => by
  simp only [noteFence, confined_cons, confined_nil, and_true]
  exact ⟨rfl, rfl⟩

/-- The roles as a fence flit's act meets them. -/
theorem sameRoles_noted {p : Nat} {f : Flit} {d h : Dev} (t : TookHeader p f d h) (device : Bool) (key : BitVec 12) :
    SameRoles d (runAct (noteFence p device key) h) where
  slices := by rw [runAct_eq, keepAll_slices _ ((confines_noteFence p device key h).leaves (by decide)), t.slices]
  coord := fun i => by rw [runAct_eq, (confines_noteFence p device key h).reg h (by decide), reg_of_regs t.regs]

/-- The scope of a FENCE flit, and the key of a slice fence (R377). -/
def fenceScope (f : Flit) : Nat := leNat ((f.payload.drop 0).take 1)
def fenceKey (f : Flit) : BitVec 12 := BitVec.ofNat 12 (leNat ((f.payload.drop 2).take 2))

/-- The act of a FENCE flit. -/
def fenceFlit (p : Nat) (f : Flit) : Act := fun d =>
  if fenceScope f = 1 then inSequence [noteFence p false (fenceKey f), fenceOne (fenceKey f)] d
  else if fenceScope f = 2 then inSequence [noteFence p true 0, fenceAll p] d
  else linkDeath p F.LINK_ERR_PROTOCOL d

theorem fenceFlitReceiveAct_eq (p : Nat) (f : Flit) : fenceFlitReceiveAct p f = unsequenced p 5 f (fenceFlit p f) := rfl

theorem completes_fence {s : State} {p : Fin 6} {f : Flit} (hs : s.dev.steady) (on : s.dev.flitLayer p = true) (crc : f.crcOk = true)
    (good : headerBad (s.dev.port p) f = false) (its : f.ftype = 5) : Completes (.fenceFlitReceive p f) s fun d =>
      (fenceScope f = 1 → (fenceKey f) ∈ (d.port p).rxFence ∧
        d.fld F.LINK_STATUS_FENCE_RX p = 1 ∧
        ∀ i, s.dev.sliceOf (fenceKey f) = some i →
          s.dev.memberHere (s.dev.slice i) = true ∨ s.dev.transitHere (s.dev.slice i) = true → (d.slice i).fenced = true) ∧
      (fenceScope f = 2 → (d.port p).rxDevice = true ∧ d.fld F.LINK_STATUS_FENCE_RX p = 1 ∧
        ∀ i ∈ s.dev.slicesOf (s.dev.neighbour p), (s.dev.slice i).desc.isSome = true → (d.slice i).fenced = true) ∧
      (fenceScope f ≠ 1 → fenceScope f ≠ 2 →
        LinkDied (runAct (takeHeader p f) s.dev) d p F.LINK_ERR_PROTOCOL) := by
  refine completes_good (type := 5) (k := fenceFlit p f) rfl hs on crc good (by rw [its]; rfl) fun d b => ?_
  have took := tookHeader p f s.dev
  generalize runAct (takeHeader p f) s.dev = h at *
  refine ⟨fun one => ?_, fun two => ?_, fun one two => ?_⟩
  · have roles := sameRoles_noted took false (fenceKey f)
    obtain ⟨rx, listed, -⟩ := noteFence_reads p false (fenceKey f) h
    rw [runAct_of_eq (k' := inSequence [noteFence p false (fenceKey f), fenceOne (fenceKey f)]) (if_pos one), runAct_two] at b
    generalize runAct (noteFence p false (fenceKey f)) h = e at *
    obtain ⟨fences, -, status⟩ := fence_noted (reception_fenceOne p (fenceKey f) e) (runAct_eq _ e) b
    refine ⟨by rw [fences]; exact listed rfl, status.trans rx, fun i slice role => b.fenced ?_⟩
    rw [slice_of_slices (net_pump _).slices']
    have act : fenceOne (fenceKey f) e = fenceSlice i 0 e := by
      rw [fenceOne, roles.sliceOf, slice]
      exact if_pos (by rw [roles.slice, roles.member, roles.transit]; simpa using role)
    rw [runAct_of_eq (k' := fenceSlice i 0) act]
    exact fenced_fenceSlice (by rw [roles.slice]; exact desc_of_role role) 0
  · have roles := sameRoles_noted took true 0
    obtain ⟨rx, -, device⟩ := noteFence_reads p true 0 h
    rw [runAct_of_eq (k' := inSequence [noteFence p true 0, fenceAll p]) ((if_neg (by rw [two]; decide)).trans (if_pos two)), runAct_two] at b
    generalize runAct (noteFence p true 0) h = e at *
    obtain ⟨-, dev, status⟩ := fence_noted (reception_fenceAll p p e) (runAct_eq _ e) b
    refine ⟨dev.trans (device rfl), status.trans rx, fun i hi desc => b.fenced ?_⟩
    rw [slice_of_slices (net_pump _).slices', runAct_of_eq (k' := forEach (fun i => fenceSlice i 0) (s.dev.slicesOf (s.dev.neighbour p)))
      (by rw [fenceAll, roles.slicesAt])]
    exact fenced_forEach (f := fun i => fenceSlice i 0) (k := fun i => i) (fun i => tames_fenceSlice i 0) (fun _ _ h => fenced_fenceSlice h 0) _ e i hi
      (by rw [roles.slice]; exact desc)
  · rw [runAct_of_eq (k' := linkDeath p F.LINK_ERR_PROTOCOL) ((if_neg one).trans (if_neg two))] at b
    exact b.linkDied ((linkDied_linkDeath (took.live (linkLive_of_flitLayer on)) linkBit_protocol).pump linkBit_protocol) linkBit_protocol

/-! ### HELLO flits (R381, R393, R394) -/

/-- A little-endian field of a flit's payload. -/
def flitField (f : Flit) (off n : Nat) : Nat := leNat ((f.payload.drop off).take n)

/-- What a HELLO flit tells of the peer. -/
def helloUpds (p : Nat) (f : Flit) : List Upd :=
  [setF F.LINK_PEER_VALID p 1, setF F.LINK_PEER_PORT p (flitField f 0 1 % 8), setF F.LINK_PEER_COORD p (flitField f 2 2 % 4096),
   setF F.LINK_PEER_COORD_V p (flitField f 1 1 % 2), setF F.LINK_PEER_SEED p (flitField f 1 1 / 2 % 2), setF F.LINK_PEER_UID_LO p (flitField f 8 4),
   setF F.LINK_LAT_ASYM p (BitVec.ofInt 32 (((Config.deskew p).toNat - (flitField f 40 4 : Int)) / 2)).toNat,
   .port p fun s => { s with
    hello := true, peerUid := BitVec.ofNat 64 (flitField f 8 8), cap := (List.range 6).map fun v => flitField f (16 + 4 * v) 4 }]

def helloFlitAct (p : Nat) (f : Flit) : Act := fun d => if d.linkState p ≠ lsHello then [] else helloUpds p f

theorem helloFlitReceiveAct_eq (p : Nat) (f : Flit) : helloFlitReceiveAct p f = unsequenced p 7 f (helloFlitAct p f) := rfl

theorem leNat_lt (bs : List Byte) : leNat bs < 256 ^ bs.length := by
  induction bs with
  | nil => decide
  | cons b bs ih =>
    have hb : b.toNat < 256 := b.isLt
    rw [leNat, List.length_cons, pow_succ]
    omega

theorem flitField_lt (f : Flit) (off n : Nat) : flitField f off n < 256 ^ n :=
  (leNat_lt _).trans_le (Nat.pow_le_pow_right (by decide) (by rw [List.length_take]; exact Nat.min_le_left _ _))

theorem helloUpds_reads (p : Nat) (f : Flit) (d : Dev) :
    let e := applyAll (helloUpds p f) d
    e.fld F.LINK_PEER_VALID p = 1 ∧ e.fld F.LINK_PEER_PORT p = flitField f 0 1 % 8 ∧ e.fld F.LINK_PEER_COORD p = flitField f 2 2 % 4096 ∧
    e.fld F.LINK_PEER_COORD_V p = flitField f 1 1 % 2 ∧ e.fld F.LINK_PEER_SEED p = flitField f 1 1 / 2 % 2 ∧
    e.fld F.LINK_PEER_UID_LO p = flitField f 8 4 := by
  simp only [helloUpds, applyAll_cons, applyAll_nil]
  refine ⟨?_, ?_, ?_, ?_, ?_, ?_⟩
  · simp (disch := exact of_decide_eq_true rfl) only [fld_apply_spared, fld_setF]
    rfl
  · simp (disch := exact of_decide_eq_true rfl) only [fld_apply_spared, fld_setF]
    exact Nat.mod_mod_of_dvd _ (dvd_refl 8)
  · simp (disch := exact of_decide_eq_true rfl) only [fld_apply_spared, fld_setF]
    exact Nat.mod_mod_of_dvd _ (dvd_refl 4096)
  · simp (disch := exact of_decide_eq_true rfl) only [fld_apply_spared, fld_setF]
    exact Nat.mod_mod_of_dvd _ (dvd_refl 2)
  · simp (disch := exact of_decide_eq_true rfl) only [fld_apply_spared, fld_setF]
    exact Nat.mod_mod_of_dvd _ (dvd_refl 2)
  · simp (disch := exact of_decide_eq_true rfl) only [fld_apply_spared, fld_setF]
    exact Nat.mod_eq_of_lt ((flitField_lt f 8 4).trans_le (by decide))

theorem port_helloUpds (p : Nat) (f : Flit) (d : Dev) :
    ((applyAll (helloUpds p f) d).port p).hello = true ∧
    ((applyAll (helloUpds p f) d).port p).cap = ((List.range 6).map fun v => flitField f (16 + 4 * v) 4) ∧
    ((applyAll (helloUpds p f) d).port p).peerUid = BitVec.ofNat 64 (flitField f 8 8) := by
  simp only [helloUpds, applyAll_cons, applyAll_nil, port_apply_same]
  exact ⟨trivial, trivial, trivial⟩

/-- A register of the peer behind the router and the end of a command. -/
theorem peer_behind {f : Fld} {e d : Dev} (b : Behind e.pump d) (hf : f.reg = .LINK_PEER) (i : Nat) : d.fld f i = e.fld f i :=
  (b.fld (by rw [hf]; decide) i).trans (fld_pump (by rw [hf]; decide) e i)

theorem completes_hello {s : State} {p : Fin 6} {f : Flit} (hs : s.dev.steady) (on : s.dev.flitLayer p = true) (crc : f.crcOk = true)
    (good : headerBad (s.dev.port p) f = false) (its : f.ftype = 7) (st : s.dev.linkState p = lsHello) : Completes (.helloFlitReceive p f) s fun d =>
      (d.port p).hello = true ∧ (d.port p).cap = ((List.range 6).map fun v => flitField f (16 + 4 * v) 4) ∧
        (d.port p).peerUid = BitVec.ofNat 64 (flitField f 8 8) ∧ d.fld F.LINK_PEER_VALID p = 1 ∧ d.fld F.LINK_PEER_PORT p = flitField f 0 1 % 8 ∧
        d.fld F.LINK_PEER_COORD p = flitField f 2 2 % 4096 ∧ d.fld F.LINK_PEER_COORD_V p = flitField f 1 1 % 2 ∧
        d.fld F.LINK_PEER_SEED p = flitField f 1 1 / 2 % 2 ∧ d.fld F.LINK_PEER_UID_LO p = flitField f 8 4 := by
  refine completes_good (type := 7) (k := helloFlitAct p f) rfl hs on crc good (by rw [its]; rfl) fun d b => ?_
  have took := tookHeader p f s.dev
  generalize runAct (takeHeader p f) s.dev = h at *
  have act : runAct (helloFlitAct p f) h = applyAll (helloUpds p f) h := by
    rw [runAct_eq, helloFlitAct, if_neg (by rw [took.linkState]; exact not_not.2 st)]
  rw [act] at b
  obtain ⟨valid, port, coord, coordV, seed, uid⟩ := helloUpds_reads p f h
  obtain ⟨hello, cap, peer⟩ := port_helloUpds p f h
  generalize applyAll (helloUpds p f) h = e at *
  have carried := (carried_pump (p := p) e).trans (b.carried p)
  exact ⟨carried.hello.trans hello, carried.cap.trans cap, carried.peerUid.trans peer, (peer_behind b rfl _).trans valid,
    (peer_behind b rfl _).trans port, (peer_behind b rfl _).trans coord, (peer_behind b rfl _).trans coordV, (peer_behind b rfl _).trans seed,
    (peer_behind b rfl _).trans uid⟩

theorem completes_lateHello {s : State} {p : Fin 6} {f : Flit} (hs : s.dev.steady) (on : s.dev.flitLayer p = true) (crc : f.crcOk = true)
    (good : headerBad (s.dev.port p) f = false) (its : f.ftype = 7) (st : s.dev.linkState p ≠ lsHello) : Completes (.helloFlitReceive p f) s fun d =>
      (d.port p).hello = (s.dev.port p).hello ∧ d.reg .LINK_PEER p = s.dev.reg .LINK_PEER p := by
  refine completes_good (type := 7) (k := helloFlitAct p f) rfl hs on crc good (by rw [its]; rfl) fun d b => ?_
  have took := tookHeader p f s.dev
  generalize runAct (takeHeader p f) s.dev = h at *
  have act : runAct (helloFlitAct p f) h = h := by
    rw [runAct_eq, helloFlitAct, if_pos (by rw [took.linkState]; exact st), applyAll_nil]
  rw [act] at b
  have carried := (carried_pump (p := p) h).trans (b.carried p)
  refine ⟨carried.hello.trans ?_, (b.reg (by decide) p).trans (((routed_pump h).reg _ _ (by decide)).trans (reg_of_regs took.regs _ _))⟩
  rw [took.port]
  rfl

end Sys2Proof.Machine
end

