-- ==== Sys2Proof/Proofs/DataFlits.lean ====
section
/-! PROOFS. DATA flits: bad CRCs, sequence, framing and the packets that a flit completes (R358, R360, R371, R374, R382). -/

namespace Sys2Proof.Machine

/-! ### Packets that land here -/

/-- What tells whether a packet lands here, and whether it is discarded before. -/
structure SameLanding (d d' : Dev) : Prop extends SameRoles d d' where
  v0 : d'.route.v0 = d.route.v0
  v1 : d'.route.v1 = d.route.v1
  epoch : ∀ i, d'.reg .ROUTE_EPOCH i = d.reg .ROUTE_EPOCH i
  mode : d'.mode = d.mode

theorem SameLanding.trans {d d' d'' : Dev} (h : SameLanding d d') (h' : SameLanding d' d'') : SameLanding d d'' where
  slices := h'.slices.trans h.slices
  coord := fun i => (h'.coord i).trans (h.coord i)
  v0 := h'.v0.trans h.v0
  v1 := h'.v1.trans h.v1
  epoch := fun i => (h'.epoch i).trans (h.epoch i)
  mode := h'.mode.trans h.mode

theorem landing_of_same {d d' : Dev} (slices : d'.slices = d.slices) (route : d'.route = d.route) (coord : ∀ i, d'.reg .DEV_COORD i = d.reg .DEV_COORD i)
    (epoch : ∀ i, d'.reg .ROUTE_EPOCH i = d.reg .ROUTE_EPOCH i) (mode : ∀ i, d'.reg .DEV_STATE i = d.reg .DEV_STATE i) : SameLanding d d' where
  slices := slices
  coord := coord
  v0 := congrArg RouteSt.v0 route
  v1 := congrArg RouteSt.v1 route
  epoch := epoch
  mode := by simp only [Dev.mode, Dev.fld, mode]

theorem Confined.landing {ps : List Part} {rs : List Reg} {us : List Upd} (h : Confined ps rs us) (slices : Part.slices ∉ ps) (route : Part.route ∉ ps)
    (coord : Reg.DEV_COORD ∉ rs) (epoch : Reg.ROUTE_EPOCH ∉ rs) (mode : Reg.DEV_STATE ∉ rs) (d : Dev) : SameLanding d (applyAll us d) :=
  landing_of_same (keepAll_slices d (h.leaves slices)) (keepAll_route d (h.leaves route)) (fun i => h.reg d coord i) (fun i => h.reg d epoch i)
    (fun i => h.reg d mode i)

theorem landing_setFld (d : Dev) {f : Fld} (i : Nat) (g : Nat → Nat) (hf : f.reg ≠ .DEV_COORD ∧ f.reg ≠ .ROUTE_EPOCH ∧ f.reg ≠ .DEV_STATE) :
    SameLanding d (d.setFld f i g) :=
  landing_of_same rfl rfl (fun _ => reg_setFld_other _ _ _ _ (.inl hf.1.symm)) (fun _ => reg_setFld_other _ _ _ _ (.inl hf.2.1.symm))
    fun _ => reg_setFld_other _ _ _ _ (.inl hf.2.2.symm)

theorem landing_onPort (d : Dev) (q : Nat) (g : PortSt → PortSt) : SameLanding d (d.onPort q g) :=
  landing_of_same rfl rfl (fun _ => rfl) (fun _ => rfl) fun _ => rfl

theorem landing_emit (d : Dev) (m : Msg) : SameLanding d (d.emit m) := landing_of_same rfl rfl (fun _ => rfl) (fun _ => rfl) fun _ => rfl

theorem landing_lost (d : Dev) (lost : List (BitVec 12)) : SameLanding d { d with route := { d.route with lost := lost } } :=
  ⟨⟨rfl, fun _ => rfl⟩, rfl, rfl, fun _ => rfl, rfl⟩

theorem landing_waiting (d : Dev) (waiting : List Packet) : SameLanding d { d with route := { d.route with waiting := waiting } } :=
  ⟨⟨rfl, fun _ => rfl⟩, rfl, rfl, fun _ => rfl, rfl⟩

theorem SameLanding.refl (d : Dev) : SameLanding d d := landing_of_same rfl rfl (fun _ => rfl) (fun _ => rfl) fun _ => rfl

theorem landing_freeBuffer (d : Dev) (q : Queued) : SameLanding d (d.freeBuffer q) := by
  unfold Dev.freeBuffer
  split
  · exact landing_onPort ..
  · exact .refl d

theorem landing_countDrop (d : Dev) {cnt bit : Fld} (hc : cnt.reg ≠ .DEV_COORD ∧ cnt.reg ≠ .ROUTE_EPOCH ∧ cnt.reg ≠ .DEV_STATE)
    (hb : bit.reg ≠ .DEV_COORD ∧ bit.reg ≠ .ROUTE_EPOCH ∧ bit.reg ≠ .DEV_STATE) : SameLanding d (d.countDrop cnt bit) :=
  ((landing_setFld d 0 _ hc).trans (landing_setFld _ 0 _ hb)).trans (landing_setFld _ 0 _ (by decide))

theorem landing_discard (d : Dev) (h : NextHop) (q : Queued) : SameLanding d (d.discard h q) := by
  have free := landing_freeBuffer d q
  unfold Dev.discard
  cases h with
  | unreach =>
    dsimp only
    have drop := free.trans (landing_countDrop _ (cnt := F.ROUTE_DROP_UNREACH) (bit := F.ROUTE_ERR_UNREACH) (by decide) (by decide))
    split
    · exact drop.trans (landing_lost ..)
    · exact drop
  | badEpoch => exact free.trans (landing_countDrop _ (by decide) (by decide))
  | noRole => exact free.trans (landing_countDrop _ (by decide) (by decide))
  | _ => exact free

/-- The router gives a packet its place and leaves what tells where packets land. -/
theorem landing_routePacket (d : Dev) (q : Queued) : SameLanding d (d.routePacket q) := by
  unfold Dev.routePacket
  split
  · exact landing_onPort ..
  · split
    · exact (landing_onPort ..).trans (landing_emit ..)
    · exact .refl _
  · exact landing_waiting ..
  · exact landing_discard ..

/-- Whether a packet lands at this module. -/
def Dev.lands (d : Dev) (q : Queued) : Bool :=
  if q.pkt.ptype.toNat = ptLeaf then q.from_.isSome && d.memberOf q.pkt.key
  else match d.table q.pkt.epoch with
    | none => false
    | some _ => !(q.from_.isSome && !d.usable q.pkt.epoch) && decide (q.pkt.dstCoord = d.here)

theorem nextHop_here (d : Dev) (q : Queued) : d.nextHop q = .here ↔ d.lands q = true := by
  unfold Dev.nextHop Dev.lands
  dsimp only
  split
  · by_cases member : (q.from_.isSome && d.memberOf q.pkt.key) = true
    · simp only [member, if_true]
    · simp only [member, Bool.false_eq_true, if_false, iff_false]
      split <;> exact NextHop.noConfusion
  · rcases d.table q.pkt.epoch with _ | v <;> dsimp only
    · simp only [Bool.false_eq_true, iff_false]
      split <;> exact NextHop.noConfusion
    · by_cases usable : (q.from_.isSome && !d.usable q.pkt.epoch) = true
      · simp only [usable, if_true, Bool.not_true, Bool.false_and, Bool.false_eq_true, iff_false]
        exact NextHop.noConfusion
      · by_cases dst : q.pkt.dstCoord = d.here
        · simp [usable, dst]
        · simp only [usable, dst, Bool.false_eq_true, if_false, decide_false, Bool.and_false, iff_false]
          repeat' split
          all_goals exact NextHop.noConfusion

theorem SameLanding.lands {d d' : Dev} (same : SameLanding d d') (q : Queued) : d'.lands q = d.lands q := by
  have member : d'.memberOf q.pkt.key = d.memberOf q.pkt.key := by
    simp only [memberOf_eq, same.toSameRoles.sliceOf, same.toSameRoles.slice, same.toSameRoles.member]
  have epoch (f : Fld) (hf : f.reg = .ROUTE_EPOCH) : d'.bit f = d.bit f := by simp only [Dev.bit, Dev.fld, hf, same.epoch]
  have table (v : Bool) : d'.table v = d.table v := by simp only [Dev.table, same.v0, same.v1]
  have usable (v : Bool) : d'.usable v = d.usable v := by
    unfold Dev.usable Dev.epoch
    rw [table, epoch F.ROUTE_EPOCH_CUR rfl, epoch F.ROUTE_EPOCH_DRAINING rfl, epoch F.ROUTE_EPOCH_NEXT_VALID rfl]
  unfold Dev.lands
  rw [member, table, usable, (shape_congr same.coord).2]

theorem SameLanding.here {d d' : Dev} (same : SameLanding d d') {q : Queued} (h : d.nextHop q = .here) : d'.nextHop q = .here := by
  rw [nextHop_here] at h ⊢
  rw [same.lands]
  exact h

/-- A packet from a port that lands here is delivered. -/
theorem delivered_routePacket {d : Dev} {p : Nat} {pkt : Packet} (h : d.nextHop ⟨some p, pkt⟩ = .here) :
    Msg.delivered p pkt ∈ (d.routePacket ⟨some p, pkt⟩).outbox := by
  unfold Dev.routePacket
  rw [h]
  exact List.mem_append_right _ (List.mem_singleton_self _)

/-! ### Flits that fail their CRC (R371, R382) -/

/-- Whether one more failure exceeds the rate of a port, and whether the link dies of it. -/
def Dev.degrades (d : Dev) (p : Nat) : Bool :=
  d.fld F.LINK_CFG_DEG_RATE p ≠ 0 && d.fld F.LINK_CFG_DEG_RATE p < (d.port p).badFlits + 1
def Dev.diesDegraded (d : Dev) (p : Nat) : Bool := d.degrades p && d.bit F.LINK_CFG_DEG_DEAD p

/-- A port with as many failures in its window (R382). -/
def failures (n : Nat) : PortSt → PortSt := fun s => { s with badFlits := n }

/-- What a failure is recorded with, and what a port that becomes degraded is. -/
def recordFailure (p n : Nat) : Act := fun _ => [.port p (failures n), setF F.LINK_ERR_CRC p 1]
def noteDegraded (p : Nat) : Act := inSequence [fun _ => [setF F.LINK_STATUS_DEGRADED p 1, setF F.LINK_ERR_DEGRADED p 1], linkEvent p]
def failFlit (p n : Nat) (b : Bool) : Act := inSequence [recordFailure p n, onlyIf b (noteDegraded p)]

theorem countFailure_eq (p : Nat) (d : Dev) : countFailure p d = inSequence [recordFailure p ((d.port p).badFlits + 1),
    onlyIf (d.degrades p && !d.bit F.LINK_STATUS_DEGRADED p) (noteDegraded p), onlyIf (d.diesDegraded p) (linkDeath p F.LINK_ERR_DEGRADED)] d := rfl

theorem countFailure_run (p : Nat) (d : Dev) : runAct (countFailure p) d =
    runAct (onlyIf (d.diesDegraded p) (linkDeath p F.LINK_ERR_DEGRADED))
      (runAct (failFlit p ((d.port p).badFlits + 1) (d.degrades p && !d.bit F.LINK_STATUS_DEGRADED p)) d) := by
  rw [runAct_eq, countFailure_eq, ← runAct_eq, runAct_three, failFlit, runAct_two]

theorem confines_recordFailure (p n : Nat) : Confines [.ports, .regs] [.LINK_ERR] (recordFailure p n) := fun _ => by
  simp only [recordFailure, confined_cons, confined_nil, and_true]
  exact ⟨rfl, rfl⟩

theorem confines_noteDegraded (p : Nat) : Confines [.regs, .chain, .outbox] [.LINK_ERR, .LINK_STATUS, .EVT_STATUS, .CHAIN_ERR] (noteDegraded p) := by
  refine confines_inSequence_cons (fun _ => ?_) (confines_inSequence_cons (as := []) ((confines_linkEvent p).mono (by decide) (by decide)) Confines.nil)
  simp only [confined_cons, confined_nil, and_true]
  exact ⟨rfl, rfl⟩

theorem confines_failFlit (p n : Nat) (b : Bool) : Confines [.ports, .regs, .chain, .outbox] [.LINK_ERR, .LINK_STATUS, .EVT_STATUS, .CHAIN_ERR] (failFlit p n b) :=
  confines_inSequence_cons ((confines_recordFailure p n).mono (by decide) (by decide))
    (confines_inSequence_cons (as := []) ((confines_noteDegraded p).onlyIf.mono (by decide) (by decide)) Confines.nil)

theorem recordFailure_reads (p n : Nat) (d : Dev) : (runAct (recordFailure p n) d).fld F.LINK_ERR_CRC p = 1 ∧
    (runAct (recordFailure p n) d).port p = failures n (d.port p) ∧
    (runAct (recordFailure p n) d).fld F.LINK_ERR_FAULTS p = d.fld F.LINK_ERR_FAULTS p := by
  simp only [recordFailure, runAct_eq, applyAll_cons, applyAll_nil]
  have regs : ((Upd.port p (failures n)).apply d).regs = d.regs := keep_regs _ d (by simp)
  have port : ((Upd.port p (failures n)).apply d).port p = failures n (d.port p) := port_apply_same ..
  generalize (Upd.port p (failures n)).apply d = e at *
  refine ⟨?_, ?_, ?_⟩
  · rw [fld_setF]
    rfl
  · rw [← port]
    exact port_of_ports (keep_ports _ e (by simp [setF])) p
  · rw [← fld_of_regs regs]
    exact fld_setFld_apart e p p _ rfl

theorem noteDegraded_reads (p : Nat) (d : Dev) : (runAct (noteDegraded p) d).bit F.LINK_STATUS_DEGRADED p = true ∧
    (∀ f, f = F.LINK_ERR_CRC ∨ f = F.LINK_ERR_FAULTS ∨ f = F.LINK_STATUS_STATE → (runAct (noteDegraded p) d).fld f p = d.fld f p) := by
  have event := confines_linkEvent p
  rw [noteDegraded, runAct_two, Dev.bit, event.fld _ (by decide)]
  simp only [runAct_eq _ d, applyAll_cons, applyAll_nil]
  refine ⟨?_, fun f hf => ?_⟩
  · have deg (e : Dev) : ((setF F.LINK_ERR_DEGRADED p 1).apply e).fld F.LINK_STATUS_DEGRADED p = e.fld F.LINK_STATUS_DEGRADED p :=
      fld_setFld_apart e p p _ rfl
    rw [deg, fld_setF]
    rfl
  · have apart : F.LINK_ERR_DEGRADED.apart f = true ∧ F.LINK_STATUS_DEGRADED.apart f = true ∧ f.reg ∉ [Reg.EVT_STATUS, .CHAIN_ERR] := by
      rcases hf with rfl | rfl | rfl <;> decide
    obtain ⟨err, status, chain⟩ := apart
    rw [event.fld _ chain]
    exact (fld_setFld_apart _ p p _ err).trans (fld_setFld_apart d p p _ status)

/-- A port with one more failure, as the death of its link meets it. -/
structure FailedFlit (p : Nat) (d e : Dev) : Prop where
  crc : e.fld F.LINK_ERR_CRC p = 1
  port : e.port p = failures ((d.port p).badFlits + 1) (d.port p)
  degraded : d.degrades p = true → e.bit F.LINK_STATUS_DEGRADED p = true
  link : SameLink d e p

theorem failedFlit (p : Nat) (d : Dev) :
    FailedFlit p d (runAct (failFlit p ((d.port p).badFlits + 1) (d.degrades p && !d.bit F.LINK_STATUS_DEGRADED p)) d) := by
  have confined := confines_failFlit p ((d.port p).badFlits + 1) (d.degrades p && !d.bit F.LINK_STATUS_DEGRADED p)
  have slices := keepAll_slices d ((confined d).leaves (by decide))
  have coord (i : Nat) := (confined d).reg d (r := .DEV_COORD) (by decide) i
  have memory := (confined d).memory (by decide) d
  rw [← runAct_eq] at slices coord memory
  have record := confines_recordFailure p ((d.port p).badFlits + 1)
  obtain ⟨crc, port, faults⟩ := recordFailure_reads p ((d.port p).badFlits + 1) d
  have status (f : Fld) (hf : f.reg = .LINK_STATUS) := record.fld (f := f) d (by rw [hf]; decide) p
  rw [failFlit, runAct_two, runAct_onlyIf] at slices coord memory ⊢
  generalize runAct (recordFailure p ((d.port p).badFlits + 1)) d = m at *
  split
  · rename_i fresh
    rw [if_pos fresh] at slices coord memory
    obtain ⟨degraded, same⟩ := noteDegraded_reads p m
    have ports : (runAct (noteDegraded p) m).port p = failures ((d.port p).badFlits + 1) (d.port p) := by
      rw [runAct_eq, (confines_noteDegraded p m).port m (by decide)]
      exact port
    exact {
      crc := (same _ (.inl rfl)).trans crc
      port := ports
      degraded := fun _ => degraded
      link := ⟨(same _ (.inr (.inr rfl))).trans (status _ rfl), by rw [ports]; rfl, by rw [ports]; rfl, (same _ (.inr (.inl rfl))).trans faults,
        slices, coord, memory⟩ }
  · rename_i old
    rw [if_neg old] at slices coord memory
    exact {
      crc := crc
      port := port
      degraded := fun beyond => by
        rw [beyond] at old
        rw [Dev.bit, status _ rfl]
        simpa [Dev.bit] using old
      link := ⟨status _ rfl, by rw [port]; rfl, by rw [port]; rfl, faults, slices, coord, memory⟩ }

/-! ### The acts of DATA flits -/

/-- Whether a port takes DATA flits. -/
def Dev.takesData (d : Dev) (p : Nat) : Prop := d.linkState p = lsKeying ∨ d.linkState p = lsUp

theorem flitLayer_of_data {d : Dev} {p : Nat} (h : d.takesData p) : d.flitLayer p = true := by
  rcases h with h | h <;> rw [Dev.flitLayer, h] <;> decide

theorem takesData_iff {d : Dev} {p : Nat} : d.takesData p ↔ ¬(d.linkState p ≠ lsKeying && !decide (d.linkState p = lsUp)) = true := by
  simp only [Dev.takesData, ne_eq, decide_not, Bool.and_eq_true, Bool.not_eq_true', decide_eq_false_iff_not, not_and_or, not_not]

/-- The NAK that a flit with a bad CRC draws. -/
def nakBad (p : Nat) (f : Flit) (s : PortSt) : Act := fun d => onlyIf (d.flitLayer p && (!s.nakOut || f.seq.toNat = s.rxSeq)) (sendNak p) d

/-- What a flit in sequence does behind its framing. -/
def setRx (p : Nat) (f : Flit) (g : Framed) : Act := fun _ =>
  [.port p fun s => { s with rx := g.rx.map fun r => if f.poison then { r with void := true } else r }]
def takeFramed (p : Nat) (f : Flit) (g : Framed) : Act :=
  inSequence [countAccepted p f, setRx p f g, forEach (takePacket p) g.done, noteOnward p]

/-- The packet in reception that a flit adds to. -/
def rxOf (f : Flit) (s : PortSt) : Option RxPacket := if f.poison then s.rx.map fun r => { r with void := true } else s.rx

/-- What a good DATA flit does behind its header. -/
def takeData (p : Nat) (f : Flit) (s : PortSt) (up : Bool) : Act := fun d =>
  if f.seq.toNat ≠ s.rxSeq then onlyIf (!s.nakOut) (sendNak p) d
  else if encBad up s f then linkDeath p F.LINK_ERR_PROTOCOL d
  else match frame f.start.toNat 1024 (rxOf f s) 0 false f.payload [] with
    | none => linkDeath p F.LINK_ERR_PROTOCOL d
    | some g => takeFramed p f g d

theorem dataFlitReceiveAct_eq (p : Nat) (f : Flit) (d : Dev) : dataFlitReceiveAct p f d =
    if d.linkState p ≠ lsKeying && !decide (d.linkState p = lsUp) then []
    else if !f.crcOk then inSequence [countFailure p, nakBad p f (d.port p)] d
    else if headerBad (d.port p) f || f.ftype ≠ 1 then linkDeath p F.LINK_ERR_PROTOCOL d
    else inSequence [takeHeader p f, takeData p f (d.port p) (d.linkState p = lsUp), fun _ => [.pump]] d := rfl

section acts
variable {p : Nat} {f : Flit} {d : Dev} (data : d.takesData p)
include data

theorem dataFlit_crc (crc : f.crcOk = false) : runAct (dataFlitReceiveAct p f) d = runAct (nakBad p f (d.port p)) (runAct (countFailure p) d) := by
  have act : dataFlitReceiveAct p f d = inSequence [countFailure p, nakBad p f (d.port p)] d := by
    rw [dataFlitReceiveAct_eq, if_neg (takesData_iff.1 data), if_pos (by rw [crc]; rfl)]
  rw [runAct_eq, act, ← runAct_eq, runAct_two]

theorem dataFlit_bad (crc : f.crcOk = true) (bad : headerBad (d.port p) f = true ∨ f.ftype ≠ 1) :
    dataFlitReceiveAct p f d = linkDeath p F.LINK_ERR_PROTOCOL d := by
  rw [dataFlitReceiveAct_eq, if_neg (takesData_iff.1 data), if_neg (by rw [crc]; decide), if_pos (by simpa using bad)]

theorem dataFlit_good (crc : f.crcOk = true) (good : headerBad (d.port p) f = false) (its : f.ftype = 1) :
    runAct (dataFlitReceiveAct p f) d = (runAct (takeData p f (d.port p) (d.linkState p = lsUp)) (runAct (takeHeader p f) d)).pump := by
  have act : dataFlitReceiveAct p f d = inSequence [takeHeader p f, takeData p f (d.port p) (d.linkState p = lsUp), fun _ => [.pump]] d := by
    rw [dataFlitReceiveAct_eq, if_neg (takesData_iff.1 data), if_neg (by rw [crc]; decide), if_neg (by simp [good, its])]
  rw [runAct_eq, act, ← runAct_eq, runAct_three, runAct_list, applyAll_cons, applyAll_nil, apply_pump]

end acts

/-! ### Commands of bad flits -/

theorem linkBit_degraded : LinkBit F.LINK_ERR_DEGRADED := ⟨rfl, rfl, by decide⟩

theorem confines_sendNak (p : Nat) : Confines [.outbox, .ports] [] (sendNak p) := fun _ => by
  simp only [sendNak, confined_cons, confined_nil, and_true]
  exact ⟨rfl, rfl⟩

theorem sendNak_reads (p : Nat) (d : Dev) : (runAct (sendNak p) d).port p = { d.port p with nakOut := true } ∧
    Msg.nakFlit p (d.port p).rxSeq ∈ (runAct (sendNak p) d).outbox := by
  rw [runAct_eq]
  refine ⟨?_, sent_of_mem (by simp [sendNak]) _⟩
  rw [sendNak, applyAll_cons, applyAll_cons, applyAll_nil, port_apply_same]
  exact congrArg (fun s : PortSt => { s with nakOut := true }) (port_of_ports (keep_ports (Upd.send _) d (by simp)) p)

/-- A NAK, where one is due, leaves what the port expects and how often it failed. -/
theorem nak_reads (p : Nat) (b : Bool) (d : Dev) : ((runAct (onlyIf b (sendNak p)) d).port p).rxSeq = (d.port p).rxSeq ∧
    ((runAct (onlyIf b (sendNak p)) d).port p).badFlits = (d.port p).badFlits ∧
    (b = true → Msg.nakFlit p (d.port p).rxSeq ∈ (runAct (onlyIf b (sendNak p)) d).outbox) := by
  obtain ⟨port, sent⟩ := sendNak_reads p d
  rw [runAct_onlyIf]
  split
  · rw [port]
    exact ⟨rfl, rfl, fun _ => sent⟩
  · rename_i off
    exact ⟨rfl, rfl, fun on => absurd on off⟩

theorem Carried.badFlits {p : Nat} {d d' : Dev} (h : Carried p d d') : (d'.port p).badFlits = (d.port p).badFlits := (congrArg PortSt.badFlits h.rest :)

section bad
variable {s : State} {p : Fin 6} {f : Flit} (hs : s.dev.steady)
include hs

theorem completes_noData (off : ¬s.dev.takesData p) : Completes (.dataFlitReceive p f) s fun d => s.dev.wrote d [] :=
  completes_quiet (act := dataFlitReceiveAct p f) rfl hs (if_pos (by rw [takesData_iff] at off; exact not_not.1 off))

variable (data : s.dev.takesData p)
include data

theorem completes_badHeader (crc : f.crcOk = true) (bad : headerBad (s.dev.port p) f = true ∨ f.ftype ≠ 1) :
    Completes (.dataFlitReceive p f) s fun d => LinkDied s.dev d p F.LINK_ERR_PROTOCOL :=
  completes_linkDeath (act := dataFlitReceiveAct p f) rfl hs (dataFlit_bad data crc bad) (linkLive_of_flitLayer (flitLayer_of_data data)) linkBit_protocol

theorem completes_degradedDeath (crc : f.crcOk = false) (dies : s.dev.diesDegraded p = true) :
    Completes (.dataFlitReceive p f) s fun d => LinkDied s.dev d p F.LINK_ERR_DEGRADED := by
  refine completes_behind (a := dataFlitReceiveAct p f) rfl hs fun d b => ?_
  rw [dataFlit_crc data crc, countFailure_run, dies, runAct_onlyIf_true] at b
  have failed := failedFlit p s.dev
  generalize runAct (failFlit p ((s.dev.port p).badFlits + 1) (s.dev.degrades p && !s.dev.bit F.LINK_STATUS_DEGRADED p)) s.dev = e at *
  have live : e.linkLive p := by
    unfold Dev.linkLive
    rw [failed.link.state]
    exact linkLive_of_flitLayer (flitLayer_of_data data)
  have died := (linkDied_linkDeath live linkBit_degraded).before failed.link
  generalize runAct (linkDeath p F.LINK_ERR_DEGRADED) e = e' at *
  have shut : e'.flitLayer p = false := by
    rw [Dev.flitLayer, died.state]
    decide
  have quiet : runAct (nakBad p f (s.dev.port p)) e' = e' := by
    rw [runAct_eq, nakBad, shut, Bool.false_and]
    rfl
  rw [quiet] at b
  exact b.linkDied died linkBit_degraded

theorem completes_badCrc (crc : f.crcOk = false) (lives : s.dev.diesDegraded p = false) : Completes (.dataFlitReceive p f) s fun d =>
    d.fld F.LINK_ERR_CRC p = 1 ∧ (d.port p).rxSeq = (s.dev.port p).rxSeq ∧ (d.port p).badFlits = (s.dev.port p).badFlits + 1 ∧
    (s.dev.degrades p = true → d.bit F.LINK_STATUS_DEGRADED p = true) ∧
    ((s.dev.port p).nakOut = false ∨ f.seq.toNat = (s.dev.port p).rxSeq → Msg.nakFlit p (s.dev.port p).rxSeq ∈ d.outbox) ∧ sameMemory s.dev d := by
  refine completes_behind (a := dataFlitReceiveAct p f) rfl hs fun d b => ?_
  rw [dataFlit_crc data crc, countFailure_run, lives, runAct_onlyIf_false] at b
  have failed := failedFlit p s.dev
  generalize runAct (failFlit p ((s.dev.port p).badFlits + 1) (s.dev.degrades p && !s.dev.bit F.LINK_STATUS_DEGRADED p)) s.dev = e at *
  have on : e.flitLayer p = true := by
    rw [Dev.flitLayer, failed.link.state]
    exact flitLayer_of_data data
  rw [runAct_of_eq (k' := onlyIf (!(s.dev.port p).nakOut || f.seq.toNat = (s.dev.port p).rxSeq) (sendNak p)) (by rw [nakBad, on, Bool.true_and])] at b
  obtain ⟨seq, fails, sent⟩ := nak_reads p (!(s.dev.port p).nakOut || f.seq.toNat = (s.dev.port p).rxSeq) e
  have confined : Confines [.outbox, .ports] [] (onlyIf (!(s.dev.port p).nakOut || f.seq.toNat = (s.dev.port p).rxSeq) (sendNak p)) :=
    (confines_sendNak p).onlyIf
  have kept (g : Fld) := confined.fld (f := g) e List.not_mem_nil p
  have memory := (confined e).memory (by decide) e
  rw [← runAct_eq] at memory
  generalize runAct (onlyIf (!(s.dev.port p).nakOut || f.seq.toNat = (s.dev.port p).rxSeq) (sendNak p)) e = e' at *
  have carried := b.carried p
  have seen := b.reception p
  simp only [Dev.reception, Prod.mk.injEq] at seen
  obtain ⟨-, -, -, -, degraded⟩ := seen
  refine ⟨(b.fld (by decide) p).trans ((kept _).trans failed.crc), (carried.rxSeq.trans seq).trans (by rw [failed.port]; rfl),
    (carried.badFlits.trans fails).trans (by rw [failed.port]; rfl), fun worn => ?_, fun due => b.sent ?_,
    (failed.link.memory.trans memory).trans b.memory⟩
  · rw [Dev.bit, degraded, kept]
    exact failed.degraded worn
  · have named : (e.port p).rxSeq = (s.dev.port p).rxSeq := by
      rw [failed.port]
      rfl
    rw [← named]
    exact sent (by simpa using due)

end bad

/-! ### Commands of good flits -/

section good
variable {s : State} {p : Fin 6} {f : Flit} (hs : s.dev.steady) (data : s.dev.takesData p) (crc : f.crcOk = true)
  (good : headerBad (s.dev.port p) f = false) (its : f.ftype = 1)
include hs data crc good its

/-- A good DATA flit, with the module behind its act. -/
theorem completes_goodData {P : Dev → Prop}
    (h : ∀ d, Behind (runAct (takeData p f (s.dev.port p) (s.dev.linkState p = lsUp)) (runAct (takeHeader p f) s.dev)).pump d → P d) :
    Completes (.dataFlitReceive p f) s P := by
  refine completes_behind (a := dataFlitReceiveAct p f) rfl hs fun d b => h d ?_
  rw [dataFlit_good data crc good its] at b
  exact b

theorem completes_outOfSequence (seq : f.seq.toNat ≠ (s.dev.port p).rxSeq) : Completes (.dataFlitReceive p f) s fun d =>
    (d.port p).rxSeq = (s.dev.port p).rxSeq ∧ d.fld F.LINK_FLITS_RX p = s.dev.fld F.LINK_FLITS_RX p ∧
    ((s.dev.port p).nakOut = false → Msg.nakFlit p (s.dev.port p).rxSeq ∈ d.outbox) := by
  refine completes_goodData hs data crc good its fun d b => ?_
  have took := tookHeader p f s.dev
  generalize runAct (takeHeader p f) s.dev = h at *
  rw [runAct_of_eq (k' := onlyIf (!(s.dev.port p).nakOut) (sendNak p)) (if_pos seq)] at b
  obtain ⟨rxSeq, -, sent⟩ := nak_reads p (!(s.dev.port p).nakOut) h
  have flits := (Confines.onlyIf (b := !(s.dev.port p).nakOut) (confines_sendNak p)).fld (f := F.LINK_FLITS_RX) h List.not_mem_nil p
  have named : (h.port p).rxSeq = (s.dev.port p).rxSeq := by
    rw [took.port]
    rfl
  rw [named] at rxSeq sent
  generalize runAct (onlyIf (!(s.dev.port p).nakOut) (sendNak p)) h = e at *
  have carried := (carried_pump (p := p) e).trans (b.carried p)
  refine ⟨carried.rxSeq.trans rxSeq, carried.flits.trans (flits.trans (fld_of_regs took.regs _ _)), fun due => b.sent ?_⟩
  exact (net_pump e).sent.subset (sent (by rw [due]; rfl))

/-- A flit in sequence that breaks the protocol behind its header. -/
theorem completes_badData
    (bad : takeData p f (s.dev.port p) (s.dev.linkState p = lsUp) (runAct (takeHeader p f) s.dev) = linkDeath p F.LINK_ERR_PROTOCOL (runAct (takeHeader p f) s.dev)) :
    Completes (.dataFlitReceive p f) s fun d => LinkDied (runAct (takeHeader p f) s.dev) d p F.LINK_ERR_PROTOCOL := by
  refine completes_goodData hs data crc good its fun d b => ?_
  have live := (tookHeader p f s.dev).live (linkLive_of_flitLayer (flitLayer_of_data data))
  rw [runAct_of_eq bad] at b
  generalize runAct (takeHeader p f) s.dev = h at *
  exact b.linkDied ((linkDied_linkDeath live linkBit_protocol).pump linkBit_protocol) linkBit_protocol

end good

/-! ### The packets of a flit -/

/-- What a port expects next, and the fences that it has received. -/
def PortSt.expects (s : PortSt) : Nat × Bool × List (BitVec 12) × Bool := (s.rxSeq, s.nakOut, s.rxFence, s.rxDevice)

/-- What the packets of a flit leave of their port and of the tables. -/
structure Taking (p : Nat) (d e : Dev) : Prop where
  landing : SameLanding d e
  expects : (e.port p).expects = (d.port p).expects
  state : e.linkState p = d.linkState p
  flits : e.fld F.LINK_FLITS_RX p = d.fld F.LINK_FLITS_RX p

section taking
variable {p : Nat}

theorem Taking.trans {d d' d'' : Dev} (h : Taking p d d') (h' : Taking p d' d'') : Taking p d d'' :=
  ⟨h.landing.trans h'.landing, h'.expects.trans h.expects, h'.state.trans h.state, h'.flits.trans h.flits⟩

theorem expects_of_carried {s s' : PortSt} (h : s'.carried = s.carried) : s'.expects = s.expects := (congrArg PortSt.expects h :)

theorem Carried.taking {d e : Dev} (h : Carried p d e) (landing : SameLanding d e) : Taking p d e :=
  ⟨landing, expects_of_carried h.rest, h.state, h.flits⟩

theorem taking_port (d : Dev) (q : Nat) {g : PortSt → PortSt} (same : ∀ s, (g s).expects = s.expects) : Taking p d ((Upd.port q g).apply d) where
  landing := landing_onPort d q g
  expects := by
    rw [port_apply_port]
    split
    · subst_vars; exact same _
    · rfl
  state := fld_of_regs (keep_regs _ d (by simp)) ..
  flits := fld_of_regs (keep_regs _ d (by simp)) ..

theorem taking_routed (d : Dev) (q : Queued) : Taking p d ((Upd.routed q).apply d) :=
  (carried_routePacket d q).taking (landing_routePacket d q)

/-- The counts that a packet moves. -/
def countPacket (p : Nat) (pkt : Packet) : Upd := .port p fun s => { s with oldRx := countEpoch pkt.epoch s.oldRx }
def freePacket (p : Nat) (pkt : Packet) : Upd := .port p fun s => { s with rxFreed := addNth s.rxFreed (pktVc pkt) (pktCredits pkt) }

theorem takePacket_eq {r : RxPacket} {d : Dev} (good : malformed (packetOfBytes r.bytes) = false) : takePacket p r d =
    if r.void || (d.port p).rxFenced (packetOfBytes r.bytes) || (pktVc (packetOfBytes r.bytes) ≤ 3 && d.mode = stSafe)
    then [countPacket p (packetOfBytes r.bytes), freePacket p (packetOfBytes r.bytes)]
    else [countPacket p (packetOfBytes r.bytes), .routed ⟨some p, packetOfBytes r.bytes⟩] := if_neg (by rw [good]; decide)

theorem taking_takePacket {r : RxPacket} (good : malformed (packetOfBytes r.bytes) = false) (d : Dev) : Taking p d (runAct (takePacket p r) d) := by
  have count : Taking p d ((countPacket p (packetOfBytes r.bytes)).apply d) := taking_port d p fun _ => rfl
  rw [runAct_eq, takePacket_eq good]
  split <;> rw [applyAll_cons, applyAll_cons, applyAll_nil]
  · exact count.trans (taking_port _ p fun _ => rfl)
  · exact count.trans (taking_routed _ _)

theorem rxFenced_congr {d e : Dev} (h : Taking p d e) (pkt : Packet) : (e.port p).rxFenced pkt = (d.port p).rxFenced pkt := by
  have same := h.expects
  simp only [PortSt.expects, Prod.mk.injEq] at same
  obtain ⟨-, -, fence, device⟩ := same
  rw [PortSt.rxFenced, PortSt.rxFenced, fence, device]

/-- A packet that lands here and is under no fence is delivered. -/
theorem delivered_takePacket {r : RxPacket} {d : Dev} (good : malformed (packetOfBytes r.bytes) = false) (whole : r.void = false)
    (free : (d.port p).rxFenced (packetOfBytes r.bytes) = false) (safe : d.mode ≠ stSafe)
    (here : d.nextHop ⟨some p, packetOfBytes r.bytes⟩ = .here) : Msg.delivered p (packetOfBytes r.bytes) ∈ (runAct (takePacket p r) d).outbox := by
  have count : Taking p d ((countPacket p (packetOfBytes r.bytes)).apply d) := taking_port d p fun _ => rfl
  rw [runAct_eq, takePacket_eq good, if_neg (by simp [whole, free, safe]), applyAll_cons, applyAll_cons, applyAll_nil, apply_routed]
  exact delivered_routePacket (count.landing.here here)

/-- Every packet of a flit that lands here is delivered. -/
theorem delivered_takePackets {done : List RxPacket} {d : Dev} (good : ∀ r ∈ done, malformed (packetOfBytes r.bytes) = false) {r : RxPacket} (hr : r ∈ done)
    (whole : r.void = false) (free : (d.port p).rxFenced (packetOfBytes r.bytes) = false) (safe : d.mode ≠ stSafe)
    (here : d.nextHop ⟨some p, packetOfBytes r.bytes⟩ = .here) :
    Msg.delivered p (packetOfBytes r.bytes) ∈ (runAct (forEach (takePacket p) done) d).outbox := by
  refine sent_forEach (I := Taking p d) (fun x hx e he => he.trans (taking_takePacket (good x hx) e)) hr (fun e he => ?_)
    ⟨.refl d, rfl, rfl, rfl⟩
  exact delivered_takePacket (good r hr) whole ((rxFenced_congr he _).trans free) (by rw [he.landing.mode]; exact safe) (he.landing.here here)

theorem taking_takePackets {done : List RxPacket} (good : ∀ r ∈ done, malformed (packetOfBytes r.bytes) = false) (d : Dev) :
    Taking p d (runAct (forEach (takePacket p) done) d) :=
  (Invariant.forEach (P := Taking p d) fun r hr e he => he.trans (taking_takePacket (good r hr) e)) d ⟨.refl d, rfl, rfl, rfl⟩

theorem taking_noteOnward (d : Dev) : Taking p d (runAct (noteOnward p) d) := by
  have quiet : Taking p d (applyAll [] d) := ⟨.refl d, rfl, rfl, rfl⟩
  rw [runAct_eq]
  unfold noteOnward
  split
  · exact quiet
  · split
    · split
      · rw [applyAll_cons, applyAll_nil]
        refine taking_port d p ?_
        exact fun _ => rfl
      · exact quiet
    · exact quiet

theorem taking_setRx (f : Flit) (g : Framed) (d : Dev) : Taking p d (runAct (setRx p f g) d) := by
  rw [runAct_eq, setRx, applyAll_cons, applyAll_nil]
  refine taking_port d p ?_
  exact fun _ => rfl

/-- The port of a flit in sequence, and the end of a window without failures. -/
def acceptedPort (f : Flit) (wrap : Bool) : PortSt → PortSt := fun s =>
  { s with
    rxSeq := (s.rxSeq + 1) % 8192, nakOut := false, windowFlits := if wrap then 0 else s.windowFlits + 1
    badFlits := if wrap then 0 else s.badFlits, rxOld := if f.kph = s.rxKph then min 4096 (s.rxOld + 1) else s.rxOld
    rxN := s.rxN + 1 }
def unworn (p : Nat) (b : Bool) : List Upd := if b then [setF F.LINK_STATUS_DEGRADED p 0] else []

theorem unworn_port (b : Bool) (d : Dev) (q : Nat) : (applyAll (unworn p b) d).port q = d.port q := by
  unfold unworn
  split
  · exact port_of_ports (keepAll_ports d (by simp [setF])) q
  · rfl

theorem unworn_fld {f : Fld} (h : F.LINK_STATUS_DEGRADED.apart f = true) (b : Bool) (d : Dev) (i : Nat) :
    (applyAll (unworn p b) d).fld f i = d.fld f i := by
  unfold unworn
  split
  · rw [applyAll_cons, applyAll_nil]
    exact fld_setFld_apart d p i _ h
  · rfl

/-- Whether the window of a degraded port ends with few failures. -/
def Dev.recovers (d : Dev) (p : Nat) : Bool :=
  (16777215 ≤ (d.port p).windowFlits) && d.bit F.LINK_STATUS_DEGRADED p && (d.port p).badFlits ≤ d.fld F.LINK_CFG_DEG_RATE p

theorem countAccepted_eq (f : Flit) (d : Dev) :
    countAccepted p f d = [.port p (acceptedPort f (16777215 ≤ (d.port p).windowFlits)), addF F.LINK_FLITS_RX p 1] ++ unworn p (d.recovers p) := rfl

/-- A flit in sequence is counted, and the next one expected (R371). -/
theorem countAccepted_reads (f : Flit) (d : Dev) :
    ((runAct (countAccepted p f) d).port p).expects = (((d.port p).rxSeq + 1) % 8192, false, (d.port p).rxFence, (d.port p).rxDevice) ∧
    d.counted (runAct (countAccepted p f) d) F.LINK_FLITS_RX p 1 ∧ (runAct (countAccepted p f) d).linkState p = d.linkState p ∧
    SameLanding d (runAct (countAccepted p f) d) := by
  have confined : Confined [.ports, .regs] [.LINK_FLITS, .LINK_STATUS] (countAccepted p f d) := by
    simp only [countAccepted, confined_append, confined_cons, confined_ite, confined_nil, and_true, implies_true]
    exact ⟨⟨rfl, rfl⟩, fun _ => rfl⟩
  have landing := confined.landing (by decide) (by decide) (by decide) (by decide) (by decide) d
  rw [runAct_eq]
  refine ⟨?_, ?_, ?_, landing⟩ <;> rw [countAccepted_eq, applyAll_append, applyAll_cons, applyAll_cons, applyAll_nil]
  · rw [unworn_port, port_of_ports (keep_ports (addF F.LINK_FLITS_RX p 1) _ (by simp [addF])), port_apply_same]
    rfl
  · rw [Dev.counted, unworn_fld rfl, fld_addF, fld_of_regs (keep_regs (Upd.port p _) d (by simp))]
  · rw [Dev.linkState, unworn_fld rfl, ← Dev.linkState]
    exact (fld_setFld_reg _ p p _ (by decide)).trans (fld_of_regs (keep_regs (Upd.port p _) d (by simp)) ..)

theorem completes_framed {s : State} {p : Fin 6} {f : Flit} (hs : s.dev.steady) (data : s.dev.takesData p) (crc : f.crcOk = true)
    (good : headerBad (s.dev.port p) f = false) (its : f.ftype = 1) (seq : f.seq.toNat = (s.dev.port p).rxSeq)
    (enc : encBad (s.dev.linkState p = lsUp) (s.dev.port p) f = false) {g : Framed}
    (framed : frame f.start.toNat 1024 (rxOf f (s.dev.port p)) 0 false f.payload [] = some g)
    (whole : ∀ r ∈ g.done, malformed (packetOfBytes r.bytes) = false) : Completes (.dataFlitReceive p f) s fun d =>
      (d.port p).rxSeq = ((s.dev.port p).rxSeq + 1) % 8192 ∧ (d.port p).nakOut = false ∧ s.dev.counted d F.LINK_FLITS_RX p 1 ∧
      d.linkState p = s.dev.linkState p ∧
      ∀ r ∈ g.done, r.void = false → (s.dev.port p).rxFenced (packetOfBytes r.bytes) = false → s.dev.mode ≠ stSafe →
        s.dev.nextHop ⟨some p.val, packetOfBytes r.bytes⟩ = .here → Msg.delivered p (packetOfBytes r.bytes) ∈ d.outbox := by
  refine completes_goodData hs data crc good its fun d b => ?_
  have took := tookHeader p f s.dev
  generalize runAct (takeHeader p f) s.dev = h at *
  have act : takeData p f (s.dev.port p) (s.dev.linkState p = lsUp) h = takeFramed p f g h := by
    rw [takeData, if_neg (not_not.2 seq), if_neg (by rw [enc]; decide), framed]
  rw [runAct_of_eq act, takeFramed, runAct_inSequence_cons, runAct_three] at b
  have same : SameLanding s.dev h := landing_of_same took.slices took.route (fun _ => reg_of_regs took.regs _ _) (fun _ => reg_of_regs took.regs _ _)
    fun _ => reg_of_regs took.regs _ _
  obtain ⟨expects, flits, state, landing⟩ := countAccepted_reads f h (p := p)
  have from_ : (h.port p).rxSeq = (s.dev.port p).rxSeq ∧ (h.port p).rxFence = (s.dev.port p).rxFence ∧ (h.port p).rxDevice = (s.dev.port p).rxDevice := by
    rw [took.port]
    exact ⟨rfl, rfl, rfl⟩
  generalize runAct (countAccepted p f) h = e at *
  have framed := taking_setRx (p := p) f g e
  generalize runAct (setRx p f g) e = e₁ at *
  have packets := taking_takePackets (p := p) whole e₁
  have delivers := @delivered_takePackets p g.done e₁ whole
  generalize runAct (forEach (takePacket p) g.done) e₁ = e₂ at *
  have onward := taking_noteOnward (p := p) e₂
  have kept := sent_runAct (noteOnward p) e₂
  generalize runAct (noteOnward p) e₂ = e₃ at *
  have taking := (framed.trans packets).trans onward
  have carried := (carried_pump (p := p) e₃).trans (b.carried p)
  have next := ((expects_of_carried carried.rest).trans taking.expects).trans expects
  simp only [PortSt.expects, Prod.mk.injEq] at next
  obtain ⟨seq', nak', -⟩ := next
  refine ⟨seq'.trans (by rw [from_.1]), nak', ?_, (carried.state.trans taking.state).trans (state.trans (took.linkState p)), ?_⟩
  · rw [Dev.counted, carried.flits, taking.flits, flits, fld_of_regs took.regs]
  · intro r hr unvoided free safe here
    refine b.sent ((net_pump e₃).sent.subset (kept.subset (delivers hr unvoided ?_ ?_ ?_)))
    · have fences := framed.expects.trans expects
      simp only [PortSt.expects, Prod.mk.injEq] at fences
      obtain ⟨-, -, fence, device⟩ := fences
      rw [PortSt.rxFenced, fence, device, from_.2.1, from_.2.2]
      exact free
    · rw [((same.trans landing).trans framed.landing).mode]
      exact safe
    · exact ((same.trans landing).trans framed.landing).here here

end taking

/-! ### The obligation -/

theorem degrades_iff (d : Dev) (p : Nat) :
    decide (d.fld F.LINK_CFG_DEG_RATE p ≠ 0 ∧ d.fld F.LINK_CFG_DEG_RATE p < (d.port p).badFlits + 1) = d.degrades p := by
  simp only [Dev.degrades, Bool.decide_and]

theorem takesData_of {d : Dev} {p : Nat} (h : decide (d.linkState p = lsKeying ∨ d.linkState p = lsUp) = true) : d.takesData p := by
  unfold Dev.takesData
  exact of_decide_eq_true h

/-- The flits that come outside the sequence (R357, R371, R383). -/
theorem completes_unsequencedFlits {s : State} (hs : s.dev.steady) (p : Fin 6) (f : Flit) :
    ∀ e ∈ [(2, Instr.ctrlFlitReceive p f), (3, .nakFlitReceive p f), (5, .fenceFlitReceive p f), (7, .helloFlitReceive p f)],
      (s.dev.flitLayer p = false → Completes e.2 s fun d => s.dev.wrote d []) ∧
      (s.dev.flitLayer p = true → f.crcOk = false → Completes e.2 s fun d => d.fld F.LINK_ERR_CRC p = 1 ∧ s.dev.wrote d [.LINK_ERR]) ∧
      (s.dev.flitLayer p = true → f.crcOk = true → headerBad (s.dev.port p) f = true ∨ f.ftype.toNat ≠ e.1 →
        Completes e.2 s fun d => LinkDied s.dev d p F.LINK_ERR_PROTOCOL) := by
  simp only [List.forall_mem_cons, List.not_mem_nil, IsEmpty.forall_iff, implies_true, and_true]
  exact ⟨completes_unsequenced rfl hs, completes_unsequenced rfl hs, completes_unsequenced rfl hs, completes_unsequenced rfl hs⟩

/-- Settles O43, by the kind of a flit and by what its header, its sequence number and its payload give. -/
theorem flitsAreReceived : Obligations.FlitsAreReceived := by
  intro s p f hs
  dsimp only
  rw [degrades_iff]
  refine ⟨completes_unsequencedFlits hs p f, fun on crc good => ⟨completes_ctrl hs on crc good, completes_nak hs on crc good,
    completes_fence hs on crc good, completes_hello hs on crc good, completes_lateHello hs on crc good⟩, fun off => ?_, fun data crc lives => ?_,
    fun data crc dies => ?_, fun data crc bad => ?_, fun data crc good its => ⟨fun seq => ?_, fun seq enc => ?_, fun seq enc => ⟨fun broken => ?_,
      fun g framed whole => ?_⟩⟩⟩
  · refine completes_noData hs ?_
    unfold Dev.takesData
    exact of_decide_eq_false off
  · exact completes_badCrc hs (takesData_of data) crc lives
  · exact completes_degradedDeath hs (takesData_of data) crc dies
  · exact completes_badHeader hs (takesData_of data) crc bad
  · exact completes_outOfSequence hs (takesData_of data) crc good its seq
  · refine completes_badData hs (takesData_of data) crc good its ?_
    rw [takeData, if_neg (not_not.2 seq), if_pos enc]
  · refine completes_badData hs (takesData_of data) crc good its ?_
    rw [takeData, if_neg (not_not.2 seq), if_neg (by rw [enc]; decide), rxOf, broken]
  · exact completes_framed hs (takesData_of data) crc good its seq enc framed whole

end Sys2Proof.Machine
end

