-- ==== Sys2Proof/Proofs/Arming.lean ====
section
/-! PROOFS. Arming a ring context (R43, R274): a slice beyond the map of slices passes the checks of a binding that has no slice. -/

namespace Sys2Proof.Machine

/-- A program of no cues. -/
def idleProgram : Program := { cues := [], ops := [], streams := [], nsets := 1, slots := [], regions := [], ctxInit := [] }

/-- A schedule of key 1 in which core 0 runs that program. -/
def idleSchedule : Schedule :=
  { pkey := 1, section5 := 0, mode := 0, baseGen := 0, daysCw := 8, daysCcw := 8, programs := [idleProgram], coreMap := [(0, 0)]
    clusters := [], mcast := [] }

/-- A slice of key 2, four modules long on the X axis. -/
def strayDesc : SliceDesc :=
  { pkey := 2, group := 0, wrap := 1, origin := 0, sizeX := 4, sizeY := 1, sizeZ := 1, useX := 1, useY := 0, useZ := 0
    tshareX := 0, tshareY := 0, tshareZ := 0, rsv := 0 }

/-- The HBM regions of the module: the mirror and the commit log, each as large as the size checks ask (R449). -/
def strayRegions : List (BitVec 128) := [BitVec.ofNat 128 (4 + 10 * 2 ^ 32 + 30000 * 2 ^ 64), BitVec.ofNat 128 (5 + 40000 * 2 ^ 32 + 50000 * 2 ^ 64)]

/-- A module of a machine of four that knows a schedule of key 1 and no slice of that key: the one slice that it lists stands at index 256,
beyond the map, which is what the checks read where a key names no slice. -/
def strayS : State := ⟨[], applyAll [
  setF F.DEV_COORD_SX 0 4, setF F.DEV_COORD_SY 0 1, setF F.DEV_COORD_SZ 0 1, setF F.DEV_COORD_VALID 0 1, setF F.DEV_STATE_STATE 0 stRunning,
  setF F.RING_PLAN_CCW_FIRST 1 3, setF F.RING_DAYS_DAYS_CW 1 8, setF F.RING_DAYS_DAYS_CCW 1 8, setF F.RING_YEARS_COUNT 1 4,
  setF F.RING_SHARE_SIZE 1 5, setF F.RING_SHADOW_BASE 1 5, setF F.RING_SHADOW_SIZE 1 5, setF F.RING_LAUNCH_GCNT 1 5000,
  .gcnt 5000, .image strayRegions [] 0 [idleSchedule] [], .slice 256 fun s => { s with desc := some strayDesc }] Dev.reset⟩

/-- A request over the Cymund chain. -/
def armRequest : Req := ⟨.cymund, 1, 5, false⟩

/-- RING_CTL of key 1 at position 0 of four, and the module with its fields set. -/
def armWord : BitVec 64 := BitVec.ofNat 64 (2 ^ F.RING_CTL_PKEY.lo + 4 * 2 ^ F.RING_CTL_LEN.lo)
def armValue : BitVec 64 := BitVec.ofNat 64 (putBits armWord.toNat F.RING_CTL_ARM.hi F.RING_CTL_ARM.lo 1)
def strayArmed : Dev := applyAll (ringCtlFields.map fun f => setF f 1 (bitsOf armValue f.hi f.lo)) strayS.dev

/-- The stray module meets what the statement asks of an ARM. -/
theorem strayS_arms : strayS.dev.steady ∧ strayS.dev.fresh armRequest ∧
    (bitsOf armValue F.RING_CTL_LEN.hi F.RING_CTL_LEN.lo ≤ 16 ∧ bitsOf armValue F.RING_CTL_MODE.hi F.RING_CTL_MODE.lo ≠ 3) ∧
    (∀ o, o < 4 → strayS.dev.fld F.RING_STATUS_STATE o = 0) ∧ strayS.dev.now ≤ strayS.dev.fld F.RING_LAUNCH_GCNT 1 := by
  have fresh : strayS.dev.cached armRequest = none := by decide +kernel
  refine ⟨⟨?_, ?_⟩, fresh, ⟨?_, ?_⟩, ?_, ?_⟩ <;> decide +kernel

theorem strayArmed_bindStatus : strayArmed.bindStatus 1 = none := by decide +kernel

/-- The key names no slice, so nothing is placed: the context stays idle. -/
theorem strayS_idle : (match exec (.ringCtlArm armRequest 1 armWord) strayS with
    | .next t => t.dev.fld F.RING_STATUS_STATE 1
    | _ => 0) = 0 := by decide +kernel

/-- Refutes O34: the checks of a binding read slice 256 where RING_CTL.PKEY names no slice; with a member slice listed there they pass, and
placing the binding, which needs the slice of the key, then does nothing, so the context is answered OK and not ARMED. -/
theorem not_armingBindsAContext : ¬ Obligations.ArmingBindsAContext := by
  intro h
  obtain ⟨steady, fresh, legal, idle, early⟩ := strayS_arms
  obtain ⟨arms, -⟩ := h strayS armRequest 1 armWord steady fresh
  have quiet : (strayS.dev.fld F.RING_STATUS_STATE 1 = 1 || strayS.dev.fld F.RING_STATUS_STATE 1 = 2) = false := by
    rw [idle 1 (by decide)]
    rfl
  obtain ⟨t, run, -, -, armed, -⟩ := arms legal quiet (fun o ho => by rw [idle o ho]; decide) strayArmed_bindStatus early
  have stays := strayS_idle
  rw [run] at stays
  exact absurd (armed.symm.trans stays) (by decide)

end Sys2Proof.Machine
end

