-- ==== Sys2Proof/Proofs/CalmUpdates.lean ====
section
/-! PROOFS. Updates that leave what a ring context stands on: its plan, its slice, its binding and the angle of a direction (R38, R41–R43, R278). -/

namespace Sys2Proof.Machine

/-! ### What the work of a leaf leaves -/

/-- The fields of a ring context that name its slice and its plan. -/
def boundFields : List Fld := F.RING_CTL_PKEY :: planFields

/-- What tells the binding of context `k`: its fields, the slices of the map with their base years, and what each core runs. -/
def Dev.bound (k : Nat) (d : Dev) : List Nat × (Nat → Option SliceDesc) × (Nat → Option Nat) × List Schedule × (Nat → Option Binding) :=
  (boundFields.map fun f => d.fld f k, fun i => (d.slice i).desc, fun i => (d.slice i).baseYear, d.schedLib, fun c => (d.core c).live)

/-- A direction with no leaf under way. -/
def Dev.dirIdle (d : Dev) (k : Nat) (dir : Dir) : Prop := ((d.ring k).dir dir).reading = false ∧ ((d.ring k).dir dir).rx = none

/-- The fields that tell the angle of a direction. -/
def angleFields (dir : Dir) : List Fld := [angleValid dir, angleYear dir, angleDay dir]

theorem angle_congr {d d' : Dev} {k : Nat} {dir : Dir} (h : ∀ f ∈ angleFields dir, d'.fld f k = d.fld f k) : d'.angle k dir = d.angle k dir := by
  unfold Dev.angle Dev.bit
  rw [h (angleValid dir) (by simp [angleFields]), h (angleYear dir) (by simp [angleFields]), h (angleDay dir) (by simp [angleFields])]

/-- An update that leaves the binding of context `k` and every core, turns no angle of direction `dir`, puts no leaf of it under way, and
asks for no block and makes none bad. -/
structure Upd.calm (k : Nat) (dir : Dir) (u : Upd) : Prop where
  cores : Part.cores ∉ u.touches
  repair : Part.repair ∉ u.touches
  errors : Reg.HBM_ERR ∉ u.writes
  bad : ∀ d, (u.apply d).hbmBad ⊆ d.hbmBad
  bound : ∀ d, (u.apply d).bound k = d.bound k
  angle : ∀ d, (u.apply d).angle k dir = d.angle k dir
  idle : ∀ d, d.dirIdle k dir → (u.apply d).dirIdle k dir

/-- An act of such updates. -/
abbrev Calms (k : Nat) (dir : Dir) (a : Act) : Prop := Makes (Upd.calm k dir) a

/-- The registers of a ring context that calm updates leave whole. -/
def ringRegs : List Reg := [.RING_CTL, .RING_PLAN, .RING_DAYS, .RING_YEARS, .RING_STATUS, .RING_ANGLE_CW, .RING_ANGLE_CCW]

theorem boundFields_ringRegs : ∀ f ∈ boundFields, f.reg ∈ ringRegs := by decide
theorem angleFields_ringRegs (dir : Dir) : ∀ f ∈ angleFields dir, f.reg ∈ ringRegs := by cases dir <;> decide

theorem bound_congr {d d' : Dev} {k : Nat} (fields : ∀ f ∈ boundFields, d'.fld f k = d.fld f k) (desc : ∀ i, (d'.slice i).desc = (d.slice i).desc)
    (base : ∀ i, (d'.slice i).baseYear = (d.slice i).baseYear) (lib : d'.schedLib = d.schedLib) (live : ∀ c, (d'.core c).live = (d.core c).live) :
    d'.bound k = d.bound k := by
  simp only [Dev.bound, desc, base, lib, live, List.map_congr_left fields]

section calm
variable {k : Nat} {dir : Dir}

/-- The parts that calm updates by their kind leave. -/
def boundParts : List Part := [.cores, .rings, .slices, .schedLib, .repair, .hbmBad]

theorem Upd.confined_one {ps : List Part} {rs : List Reg} {u : Upd} (h : u.confined ps rs = true) : Confined ps rs [u] := (confined_cons ..).2 ⟨h, confined_nil⟩

theorem calm_of_confined {ps : List Part} {rs : List Reg} {u : Upd} (h : u.confined ps rs = true) (hp : ∀ x ∈ boundParts, x ∉ ps)
    (hr : ∀ x ∈ ringRegs, x ∉ rs) (err : Reg.HBM_ERR ∉ rs) : u.calm k dir := by
  have one := Upd.confined_one h
  have parts (x : Part) (hx : x ∉ ps) : x ∉ u.touches := one.leaves hx u (List.mem_singleton_self u)
  have fld (d : Dev) (f : Fld) (hf : f.reg ∈ ringRegs) : (u.apply d).fld f k = d.fld f k := one.fld d (hr _ hf) k
  have slice (d : Dev) (i : Nat) : (u.apply d).slice i = d.slice i := one.slice d (hp .slices (by decide)) i
  exact {
    cores := parts _ (hp _ (by decide))
    repair := parts _ (hp _ (by decide))
    errors := by
      simp only [Upd.confined, Bool.and_eq_true, List.all_eq_true, decide_eq_true_eq] at h
      exact fun hw => err (h.2 _ hw)
    bad := fun d => by
      have same : (u.apply d).hbmBad = d.hbmBad := keepAll_hbmBad (us := [u]) d (one.leaves (hp _ (by decide)))
      rw [same]
      exact List.Subset.refl _
    bound := fun d => bound_congr (fun f hf => fld d f (boundFields_ringRegs f hf)) (fun i => by rw [slice]) (fun i => by rw [slice])
      (keepAll_schedLib (us := [u]) d (one.leaves (hp _ (by decide)))) fun c => congrArg CoreSt.live (one.core d (hp .cores (by decide)) c)
    angle := fun d => angle_congr fun f hf => fld d f (angleFields_ringRegs dir f hf)
    idle := fun d hd => by
      have ring : (u.apply d).ring k = d.ring k := one.ring d (hp .rings (by decide)) k
      rw [Dev.dirIdle, ring]
      exact hd }

theorem calm_list {ps : List Part} {rs : List Reg} {us : List Upd} (h : Confined ps rs us) (hp : ∀ x ∈ boundParts, x ∉ ps)
    (hr : ∀ x ∈ ringRegs, x ∉ rs) (err : Reg.HBM_ERR ∉ rs) : Each (Upd.calm k dir) us := fun u hu => calm_of_confined (h u hu) hp hr err

theorem Confines.calm {ps : List Part} {rs : List Reg} {a : Act} (h : Confines ps rs a) (hp : ∀ x ∈ boundParts, x ∉ ps)
    (hr : ∀ x ∈ ringRegs, x ∉ rs) (err : Reg.HBM_ERR ∉ rs) : Calms k dir a := fun d => calm_list (h d) hp hr err

/-- A field beside those of the binding and the angle. -/
theorem calm_fld {f : Fld} {i : Nat} {g : Nat → Nat} (bound : ∀ f' ∈ boundFields, f.apart f' = true) (angle : ∀ f' ∈ angleFields dir, f.apart f' = true)
    (err : f.reg ≠ .HBM_ERR) : (Upd.fld f i g).calm k dir where
  cores := by simp
  repair := by simp
  errors := by simpa [Upd.writes] using err.symm
  bad := fun d => List.Subset.refl _
  bound := fun d => bound_congr (fun f' hf => fld_setFld_apart d i k g (bound f' hf)) (fun _ => rfl) (fun _ => rfl) rfl fun _ => rfl
  angle := fun d => angle_congr fun f' hf => fld_setFld_apart d i k g (angle f' hf)
  idle := fun d hd => hd

/-- A change of a ring context that puts no leaf under way. -/
theorem calm_ring {o : Nat} {g : RingSt → RingSt} (h : ∀ r, (r.dir dir).reading = false ∧ (r.dir dir).rx = none →
    ((g r).dir dir).reading = false ∧ ((g r).dir dir).rx = none) : (Upd.ring o g).calm k dir where
  cores := by simp
  repair := by simp
  errors := by simp [Upd.writes]
  bad := fun d => List.Subset.refl _
  bound := fun d => rfl
  angle := fun d => rfl
  idle := fun d hd => by
    rw [Dev.dirIdle, ring_apply_ring]
    split
    · subst_vars; exact h _ hd
    · exact hd

/-- A change of a slice that leaves its descriptor and its base year. -/
theorem calm_slice {i : Nat} {g : SliceSt → SliceSt} (h : ∀ s, (g s).desc = s.desc ∧ (g s).baseYear = s.baseYear) : (Upd.slice i g).calm k dir where
  cores := by simp
  repair := by simp
  errors := by simp [Upd.writes]
  bad := fun d => List.Subset.refl _
  bound := fun d => by
    have slice (j : Nat) : ((Upd.slice i g).apply d).slice j = if j = i then g (d.slice i) else d.slice j := slice_apply_slice ..
    refine bound_congr (fun _ _ => rfl) (fun j => ?_) (fun j => ?_) rfl fun _ => rfl
    · rw [slice]
      split
      · subst_vars; exact (h _).1
      · rfl
    · rw [slice]
      split
      · subst_vars; exact (h _).2
      · rfl
  angle := fun d => rfl
  idle := fun d hd => hd

/-- A row of calm updates. -/
structure Calmed (k : Nat) (dir : Dir) (d e : Dev) : Prop where
  cores : e.cores = d.cores
  repair : e.repair = d.repair
  errors : ∀ i, e.reg .HBM_ERR i = d.reg .HBM_ERR i
  bad : e.hbmBad ⊆ d.hbmBad
  bound : e.bound k = d.bound k
  angle : e.angle k dir = d.angle k dir
  idle : d.dirIdle k dir → e.dirIdle k dir

theorem Calmed.refl (d : Dev) : Calmed k dir d d := ⟨rfl, rfl, fun _ => rfl, List.Subset.refl _, rfl, rfl, id⟩

theorem Calmed.trans {d e e' : Dev} (h : Calmed k dir d e) (h' : Calmed k dir e e') : Calmed k dir d e' where
  cores := h'.cores.trans h.cores
  repair := h'.repair.trans h.repair
  errors := fun i => (h'.errors i).trans (h.errors i)
  bad := List.Subset.trans h'.bad h.bad
  bound := h'.bound.trans h.bound
  angle := h'.angle.trans h.angle
  idle := h'.idle ∘ h.idle

theorem calmed_applyAll {us : List Upd} (h : Each (Upd.calm k dir) us) (d : Dev) : Calmed k dir d (applyAll us d) := by
  induction us generalizing d with
  | nil => exact .refl d
  | cons u us ih =>
    obtain ⟨hu, rest⟩ := (each_cons ..).1 h
    have one : Calmed k dir d (u.apply d) := ⟨keep_cores u d hu.cores, keep_repair u d hu.repair, fun i => reg_apply_of_not_mem u d hu.errors i,
      hu.bad d, hu.bound d, hu.angle d, hu.idle d⟩
    exact one.trans (ih rest _)

theorem Calms.run {a : Act} (h : Calms k dir a) (d : Dev) : Calmed k dir d (runAct a d) := by
  rw [runAct_eq]
  exact calmed_applyAll (h d) d

/-! ### Calm acts of the ring -/

/-- A mark of a context beside its plan and its angles. -/
theorem calm_mark {f : Fld} (h : f = F.RING_STATUS_STATE ∨ f = F.RING_CTL_LIVE ∨ f = F.RING_CTL_ARM ∨ f = F.RING_STATUS_YEARS_DONE ∨ f = F.RING_STATUS_BWD)
    (o v : Nat) : (setF f o v).calm k dir := by
  refine calm_fld ?_ ?_ ?_ <;> rcases h with rfl | rfl | rfl | rfl | rfl <;> cases dir <;> decide

theorem calms_enterState (st : Nat) : Calms k dir (enterState st) := (confines_enterState st).calm (by decide) (by decide) (by decide)

theorem onDir_idle {dir' : Dir} {g : RingDir → RingDir} (h : ∀ x, x.reading = false ∧ x.rx = none → (g x).reading = false ∧ (g x).rx = none) (r : RingSt)
    (idle : (r.dir dir).reading = false ∧ (r.dir dir).rx = none) : ((onDir dir' g r).dir dir).reading = false ∧ ((onDir dir' g r).dir dir).rx = none := by
  rw [dir_onDir]
  split
  · subst_vars; exact h _ idle
  · exact idle

theorem calms_goLive (o : Nat) (dir' : Dir) : Calms k dir (goLive o dir') := by
  intro d
  by_cases h : d.awaits o dir' = true ∧ d.liveIn dir' = none
  · rw [goLive_eq h.1 h.2]
    refine Makes.cons (fun e => ?_) (Makes.cons (fun _ => ?_) (Makes.cons (as := []) (Makes.onlyIf (calms_enterState _)) Makes.nil)) d
    · unfold liveMarks
      rw [each_ite]
      refine ⟨fun _ => ?_, fun _ => each_nil⟩
      simp only [each_append, each_cons, each_nil, and_true]
      exact ⟨⟨calm_mark (by simp) o 2, calm_mark (by simp) o 1, calm_mark (by simp) o 0⟩,
        calm_list (confined_lateBanks o d) (by decide) (by decide) (by decide)⟩
    · rw [each_cons]
      exact ⟨calm_ring (onDir_idle fun _ h => h), each_nil⟩
  · rw [goLive_nil h]
    exact each_nil

theorem calms_drainedEvent (o : Nat) : Calms k dir (drainedEvent o) := by
  intro d
  unfold drainedEvent
  split
  · dsimp only
    rw [each_ite]
    refine ⟨fun _ => ?_, fun _ => each_nil⟩
    simp only [each_cons, each_nil, and_true]
    refine ⟨calm_slice fun _ => ⟨rfl, rfl⟩, calm_of_confined (ps := [.regs, .chain, .outbox]) (rs := [.EVT_STATUS, .CHAIN_ERR]) rfl (by decide) (by decide)
      (by decide)⟩
  · exact each_nil

theorem calms_noteQuiet : Calms k dir noteQuiet := tames_noteQuiet.confines.calm (by decide) (by decide) (by decide)

theorem calms_stopContext (o : Nat) : Calms k dir (stopContext o) := by
  refine Makes.cons (fun _ => ?_) (Makes.cons calms_noteQuiet (Makes.cons (as := []) (calms_drainedEvent o) Makes.nil))
  simp only [each_cons, each_nil, and_true]
  refine ⟨calm_mark (by simp) o 3, calm_mark (by simp) o 0, calm_mark (by simp) o 0, calm_ring fun _ _ => ?_⟩
  cases dir <;> exact ⟨rfl, rfl⟩

theorem calms_endDir (o : Nat) (dir' : Dir) : Calms k dir (endDir o dir') := by
  refine Makes.cons (fun _ => ?_) (Makes.cons (fun _ => Makes.onlyIf (calms_stopContext o) _) (Makes.cons (as := []) (fun _ => ?_) Makes.nil))
  · rw [each_cons]
    exact ⟨calm_ring (onDir_idle fun _ _ => ⟨rfl, rfl⟩), each_nil⟩
  · split
    · exact calms_goLive _ _ _
    · exact each_nil

theorem calm_inject (p : Packet) : (Upd.inject p).calm k dir :=
  calm_of_confined (ps := [.regs, .ports, .route, .chain, .outbox]) (rs := routerRegs) rfl (by decide) (by decide) (by decide)

theorem calms_yearEnd (o : Nat) (dir' : Dir) : Calms k dir (yearEnd o dir') := by
  intro d
  unfold yearEnd
  dsimp only
  split
  · exact each_nil
  · split
    · exact each_nil
    · split
      · refine Makes.cons (Makes.onlyIf fun _ => ?_) (Makes.cons (as := []) (calms_endDir o dir') Makes.nil) d
        rw [each_map]
        exact fun p _ => calm_inject p
      · exact each_nil

/-! ### Calm acts of the service, of HBM and of the leaf tree -/

theorem confined_noteResolved (q t n : Nat) : Confined [.svc] [] [noteResolved q t n] := (confined_cons ..).2 ⟨rfl, confined_nil⟩

theorem confines_resolveWith (i q n t : Nat) (body : List Byte) (status reason : Nat) : Confines [.svc] [] (resolveWith i q n t body status reason) := fun _ =>
  (confined_cons ..).2 ⟨rfl, confined_noteResolved q t _⟩

theorem confines_resolveCancel (q n t : Nat) (r : ReqRec) : Confines [.svc, .regs] [.SVC_CNT] (resolveCancel q n t r) := by
  intro d
  unfold resolveCancel
  dsimp only
  refine (confined_append ..).2 ⟨?_, (confined_noteResolved q t _).mono (by decide) (by decide)⟩
  split
  · exact (confined_cons ..).2 ⟨rfl, confined_nil⟩
  · rw [confined_ite]
    exact ⟨fun _ => confined_nil, fun _ => (confined_cons ..).2 ⟨rfl, confined_nil⟩⟩

theorem confines_admitRequest (i q n t : Nat) (body : List Byte) (agen bgen : Nat) (deadline : Option Nat) :
    Confines [.svc, .regs, .commit] [.SVC_CNT] (admitRequest i q n t body agen bgen deadline) := fun _ => by
  simp only [admitRequest, confined_cons, confined_nil, and_true]
  exact ⟨rfl, rfl, rfl, rfl⟩

/-- What becomes of a record in a list is the service's, but for the items. -/
theorem confines_takeRecord {i q n t : Nat} {b : Block} {e : QpEnt} {d : Dev} {a : Act} (h : takeRecord i q n t b e d = some a) :
    Confines [.svc, .regs, .commit] [.SVC_CNT] a := by
  have resolved (status reason : Nat) : Confines [.svc, .regs, .commit] [.SVC_CNT] (resolveWith i q n t (d.recordAt e n) status reason) :=
    (confines_resolveWith i q n t (d.recordAt e n) status reason).mono (by decide) (by decide)
  have noted : Confines [.svc, .regs, .commit] [.SVC_CNT] fun _ => [noteResolved q t (n + 1)] := fun _ => (confined_noteResolved q t (n + 1)).mono (by decide) (by decide)
  have cancelled : Confines [.svc, .regs, .commit] [.SVC_CNT] (resolveCancel q n t (reqRec (d.recordAt e n))) :=
    (confines_resolveCancel q n t (reqRec (d.recordAt e n))).mono (by decide) (by decide)
  unfold takeRecord at h
  dsimp only at h
  repeat' split at h
  all_goals cases h
  all_goals simp only [resolved, noted, cancelled, confines_admitRequest]

theorem confines_takeRecords (i q t : Nat) (b : Block) (e : QpEnt) (n : Nat) : Confines [.svc, .regs, .commit] [.SVC_CNT] (takeRecords i q t b e n) := by
  induction n with
  | zero => exact fun _ => confined_nil
  | succ n ih =>
    intro d
    unfold takeRecords
    dsimp only
    split
    · exact confined_nil
    · split
      · rename_i a taken
        exact confines_inSequence_cons (confines_takeRecord taken) (confines_inSequence_cons (as := []) ih Confines.nil) d
      · exact confined_nil

/-- A list that closes is the service's business (R496, R529). -/
theorem confines_closeList (i t : Nat) : Confines [.svc, .regs, .commit] [.SVC_CNT] (closeList i t) := by
  intro d
  have noted (g : SvcSt → SvcSt) : Confined [.svc, .regs, .commit] [.SVC_CNT] [.svc g] := (confined_cons ..).2 ⟨rfl, confined_nil⟩
  unfold closeList
  dsimp only
  split
  · exact confined_nil
  · split
    · exact confined_nil
    · split
      · exact noted _
      · split
        · split
          · rw [confined_ite]
            exact ⟨fun _ => noted _, fun _ => confined_nil⟩
          · refine confines_inSequence_cons (Confines.forEach fun x _ e => ?_) (confines_inSequence_cons (as := []) (fun _ => noted _) Confines.nil) d
            split
            · cases taken : takeRecord i x.1 x.2 t _ _ e with
              | none => exact confined_nil
              | some a => exact confines_takeRecord taken e
            · exact confined_nil
        · exact confines_inSequence_cons (Confines.forEach fun x _ e => confines_takeRecords _ _ _ _ _ _ e)
            (confines_inSequence_cons (as := []) (fun _ => noted _) Confines.nil) d

theorem calms_joinDay (i t day : Nat) : Calms k dir (joinDay i t day) := by
  intro d
  unfold joinDay
  split
  · exact Makes.onlyIf ((confines_closeList i t).calm (by decide) (by decide) (by decide)) d
  · exact each_nil

theorem calm_hbmBad (p : Nat → Bool) : (Upd.hbmBad fun l => l.filter p).calm k dir where
  cores := by simp
  repair := by simp
  errors := by simp [Upd.writes]
  bad := fun d => List.filter_subset_self d.hbmBad
  bound := fun d => rfl
  angle := fun d => rfl
  idle := fun d hd => hd

/-- Bytes written to HBM make no block bad. -/
theorem calms_writeHbm (a : Nat) (bs : List Byte) (mark : Bool) : Calms k dir (writeHbm a bs mark) := by
  have plain {u : Upd} (h : u.confined [.hbm, .hbmMarks] [] = true) : u.calm k dir := calm_of_confined h (by decide) (by decide) (by decide)
  intro d
  unfold writeHbm
  dsimp only
  simp only [each_ite, each_append, each_cons, each_nil, and_true, implies_true, true_and]
  exact fun _ => ⟨⟨plain rfl, fun _ => calm_hbmBad _⟩, fun _ => plain rfl, fun _ _ => plain rfl⟩

theorem calms_catchUpStore (o : Nat) (dir' : Dir) (e : LeafExt) (body : List Byte) : Calms k dir (catchUpStore o dir' e body) := by
  intro d
  unfold catchUpStore
  dsimp only
  rw [each_ite]
  exact ⟨fun _ => each_nil, fun _ => Makes.cons (calms_writeHbm _ _ _) (Makes.cons (as := []) (calms_writeHbm _ _ _) Makes.nil) d⟩

theorem calms_catchUpEnd (o : Nat) : Calms k dir (catchUpEnd o) := by
  intro d
  unfold catchUpEnd
  split
  · rw [each_ite]
    refine ⟨fun _ => (each_cons ..).2 ⟨calm_ring fun r h => ?_, each_nil⟩, fun _ => each_nil⟩
    cases dir <;> exact h
  · exact each_nil

theorem roles_onStep (t : Nat) (g : StepSt → StepSt) (s : SliceSt) : (onStep t g s).desc = s.desc ∧ (onStep t g s).baseYear = s.baseYear := by
  unfold onStep
  split
  · exact ⟨rfl, rfl⟩
  · split <;> exact ⟨rfl, rfl⟩

theorem calms_checkReady (i t : Nat) : Calms k dir (checkReady i t) := by
  intro d
  unfold checkReady
  rw [each_ite]
  refine ⟨fun _ => ?_, fun _ => each_nil⟩
  split
  · simp only [each_cons, each_nil, and_true]
    exact ⟨calm_slice fun _ => roles_onStep .., calm_of_confined (ps := [.outbox]) (rs := []) rfl (by decide) (by decide) (by decide)⟩
  · exact each_nil

theorem calm_failStep (i t status : Nat) : (failStep i t status).calm k dir := calm_slice fun _ => roles_onStep ..

theorem calms_putTile {o layer t : Nat} {bs : List Byte} {bad : Bool} {d : Dev} {a : Act} (h : d.putTile o layer t bs bad = some a) : Calms k dir a := by
  unfold Dev.putTile at h
  dsimp only at h
  split at h
  · cases h
  · cases h
    refine Makes.forEach fun x _ e => (each_append ..).2 ⟨?_, ?_⟩
    · exact calm_list (confined_writeWords _ _ _ _) (by decide) (by decide) (by decide)
    · exact calm_list (confined_advancePtr e x.1 x.2 _ rfl rfl) (by decide) (by decide) (by decide)

theorem calms_feedTiles (o : Nat) (dir' : Dir) (layer first : Nat) (bad : Bool) (tiles : List (Nat × List Byte)) :
    Calms k dir (feedTiles o dir' layer first bad tiles) := by
  induction tiles with
  | nil => exact fun _ => each_nil
  | cons x rest ih =>
    intro d
    unfold feedTiles
    split
    · exact ih d
    · split
      · exact each_nil
      · rename_i a put
        refine Makes.cons (calms_putTile put) (Makes.cons (fun _ => ?_) (Makes.cons (as := []) ih Makes.nil)) d
        rw [each_cons]
        exact ⟨calm_ring (onDir_idle fun _ h => h), each_nil⟩

end calm

end Sys2Proof.Machine
end

