-- ==== Sys2Proof/Proofs/LeafTurns.lean ====
section
/-! PROOFS. The acceptance of a leaf: the angle turns to its day and the cues of the day become due, unless the slice is fenced (R38, R278). -/

namespace Sys2Proof.Machine

/-! ### Slices by key -/

/-- An entry of a family in canonical form is what the family reads there. -/
theorem mapGet_of_mem {α : Type} [DecidableEq α] {f : Nat → α} {m : SMap α} (wf : mapWf f m = true) {k : Nat} {v : α} (h : (k, v) ∈ m) : mapGet f m k = v := by
  obtain ⟨rising, -⟩ := (mapWf_iff f m).1 wf
  clear wf
  induction m with
  | nil => cases h
  | cons e m ih =>
    obtain ⟨j, a⟩ := e
    simp only [List.map_cons, List.pairwise_cons] at rising
    obtain ⟨first, rest⟩ := rising
    rcases List.mem_cons.1 h with h | h
    · cases h
      rw [mapGet, if_pos rfl]
    · have after : j < k := first k (List.mem_map_of_mem h)
      rw [mapGet, if_neg (by omega)]
      exact ih h rest

/-- The slice of a key is the first of the map that has it. -/
theorem sliceOf_iff {d : Dev} (wf : mapWf (fun _ => SliceSt.init) d.slices = true) {key : BitVec 12} {i : Nat} :
    d.sliceOf key = some i ↔ keyed key (i, d.slice i) = true ∧ ∀ j, j < i → keyed key (j, d.slice j) = false := by
  have rising := ((mapWf_iff _ _).1 wf).1
  have listed (j : Nat) (h : keyed key (j, d.slice j) = true) : (j, d.slice j) ∈ d.slices := by
    refine listed_of_desc ?_
    unfold keyed at h
    split at h
    · simp_all
    · cases h
  have found (x : Nat × SliceSt) (h : d.slices.find? (keyed key) = some x) :
      keyed key (x.1, d.slice x.1) = true ∧ ∀ j, j < x.1 → keyed key (j, d.slice j) = false := by
    obtain ⟨hx, as, bs, split, before⟩ := List.find?_eq_some_iff_append.1 h
    have here : d.slice x.1 = x.2 := mapGet_of_mem wf (by rw [split]; simp)
    refine ⟨by rw [here]; exact hx, fun j hj => ?_⟩
    by_contra keyedJ
    have member := listed j (by simpa using keyedJ)
    rw [split] at member rising
    rw [List.map_append, List.map_cons, List.pairwise_append] at rising
    obtain ⟨-, tail, -⟩ := rising
    simp only [List.pairwise_cons] at tail
    rcases List.mem_append.1 member with member | member
    · exact keyedJ (by simpa using before _ member)
    · rcases List.mem_cons.1 member with member | member
      · rw [← member] at hj
        exact absurd hj (lt_irrefl _)
      · exact absurd (tail.1 _ (List.mem_map_of_mem member)) (by simp only; omega)
  rw [sliceOf_eq]
  constructor
  · intro h
    obtain ⟨x, hx, rfl⟩ := Option.map_eq_some_iff.1 h
    exact found x hx
  · rintro ⟨hi, first⟩
    obtain ⟨x, hx⟩ := Option.isSome_iff_exists.1 (List.find?_isSome.2 ⟨_, listed i hi, hi⟩)
    obtain ⟨hx1, hxf⟩ := found x hx
    rw [hx, Option.map_some]
    rcases Nat.lt_trichotomy x.1 i with lt | rfl | gt
    · rw [first x.1 lt] at hx1
      cases hx1
    · rfl
    · rw [hxf i gt] at hi
      cases hi

/-- The slice of a key rests on the descriptors alone. -/
theorem sliceOf_congr {d e : Dev} (cd : d.Canonical) (ce : e.Canonical) (desc : ∀ i, (e.slice i).desc = (d.slice i).desc) (key : BitVec 12) :
    e.sliceOf key = d.sliceOf key := by
  have same (j : Nat) : keyed key (j, e.slice j) = keyed key (j, d.slice j) := keyed_of_desc (desc j)
  refine Option.ext fun i => ?_
  rw [sliceOf_iff ce.slices, sliceOf_iff cd.slices, same]
  simp only [same]

/-! ### The binding of a context -/

section bound
variable {k : Nat} {d e : Dev} (h : e.bound k = d.bound k)
include h

theorem bound_fld {f : Fld} (hf : f ∈ boundFields) : e.fld f k = d.fld f k := by
  have fields : boundFields.map (fun f => e.fld f k) = boundFields.map (fun f => d.fld f k) := congrArg (fun x => x.1) h
  exact List.map_inj_left.1 fields f hf
theorem bound_desc (i : Nat) : (e.slice i).desc = (d.slice i).desc := congrFun (congrArg (fun x => x.2.1) h) i
theorem bound_base (i : Nat) : (e.slice i).baseYear = (d.slice i).baseYear := congrFun (congrArg (fun x => x.2.2.1) h) i
theorem bound_lib : e.schedLib = d.schedLib := congrArg (fun x => x.2.2.2.1) h
theorem bound_live (c : Nat) : (e.core c).live = (d.core c).live := congrFun (congrArg (fun x => x.2.2.2.2) h) c

theorem bound_plan : e.plan k = d.plan k := plan_congr k fun _ hf => bound_fld h (List.mem_cons_of_mem _ hf)

theorem bound_ringSlice (cd : d.Canonical) (ce : e.Canonical) : e.ringSlice k = d.ringSlice k := by
  rw [Dev.ringSlice, Dev.ringSlice, bound_fld h (f := F.RING_CTL_PKEY) (by simp [boundFields]), sliceOf_congr cd ce (bound_desc h)]

theorem bound_stepOf (i year : Nat) : e.stepOf k i year = d.stepOf k i year := by
  simp only [Dev.stepOf, bound_base h, bound_fld h (f := F.RING_YEARS_FIRST_YEAR) (by decide), bound_fld h (f := F.RING_CTL_MODE) (by decide)]

theorem bound_liveProg (c : Nat) : e.liveProg c = d.liveProg c := by
  simp only [Dev.liveProg, Dev.schedOf, bound_live h, bound_lib h]

theorem bound_coreKey (c : Nat) : e.corePkey (e.core c) = d.corePkey (d.core c) := by
  simp only [Dev.corePkey, bound_live h, bound_lib h]

theorem bound_coreSlice (cd : d.Canonical) (ce : e.Canonical) (c : Nat) : e.coreSlice c = d.coreSlice c := by
  rw [Dev.coreSlice, Dev.coreSlice, bound_coreKey h, funext (sliceOf_congr cd ce (bound_desc h))]

end bound

/-! ### The acceptance -/

/-- The findings of the codec on a leaf, and the step that fails of them. -/
def noteFindings (dir : Dir) (e : LeafExt) (code : Option Expanded) (source : Nat) (step : Option (Nat × Nat)) : Act := fun d =>
  match code with
  | some x => recordRun d x e.day.toNat source (dir = .ccw) e.layer.toNat ++
      (if x.bad then step.toList.map fun s => failStep s.1 s.2 0x50 else [])
  | none => []

/-- The angle turns to the day of a leaf, which is no longer under way. -/
def turnAngle (k : Nat) (dir : Dir) (e : LeafExt) (p : RPlan) : Act := fun d =>
  [setF (angleYear dir) k e.year.toNat, setF (angleDay dir) k e.day.toNat, setF (angleValid dir) k 1, setB F.RING_STATUS_BWD k (p.bwd e.year.toNat),
    .ring k (onDir dir fun s => { s with rx := none, reading := false, fed := 0, acceptedAt := d.now })] ++
    (if p.mode = 2 && p.bwd e.year.toNat then [.ring k fun r => { r with bwdExts := r.bwdExts ++ [{ e with hop := 0, pktIdx := 0 }] }] else [])

/-- The cues of the day of a leaf become due. -/
def offerLeaf (k : Nat) (dir : Dir) (e : LeafExt) (p : RPlan) (step : Option (Nat × Nat)) : Act := fun d =>
  match step with
  | some s => offerDay k (dayTrig dir) e.year.toNat e.day.toNat s.2 (p.bwd e.year.toNat) d
  | none => []

/-- What follows an acceptance. -/
def joinLeaf (dir : Dir) (e : LeafExt) (step : Option (Nat × Nat)) : Act := fun d =>
  match step with
  | some s => if dir = .cw then joinDay s.1 s.2 e.day.toNat d else []
  | none => []
def readyLeaf (step : Option (Nat × Nat)) : Act := fun d =>
  match step with
  | some s => checkReady s.1 (d.slice s.1).nextStep d
  | none => []
def leafEnd (k : Nat) (dir : Dir) (e : LeafExt) (step : Option (Nat × Nat)) : Act := inSequence [
  fun d => [setF F.RING_STATUS_YEARS_DONE k (d.yearsDone k)], joinLeaf dir e step, catchUpEnd k, yearEnd k dir, readyLeaf step]

/-- The step of a leaf in the slice of its context. -/
def Dev.leafStep (d : Dev) (k year : Nat) : Option (Nat × Nat) := (d.ringSlice k).map fun i => (i, d.stepOf k i year)

theorem completeLeaf_eq (k : Nat) (dir : Dir) (e : LeafExt) (body : List Byte) (code : Option Expanded) (source : Nat) (d : Dev) :
    completeLeaf k dir e body code source d =
      inSequence [noteFindings dir e code source (d.leafStep k e.year.toNat), catchUpStore k dir e body, turnAngle k dir e (d.plan k),
        offerLeaf k dir e (d.plan k) (d.leafStep k e.year.toNat), fun d => [setF F.RING_STATUS_YEARS_DONE k (d.yearsDone k)],
        joinLeaf dir e (d.leafStep k e.year.toNat), catchUpEnd k, yearEnd k dir, readyLeaf (d.leafStep k e.year.toNat)] d := rfl

theorem completeLeaf_run (k : Nat) (dir : Dir) (e : LeafExt) (body : List Byte) (code : Option Expanded) (source : Nat) (d : Dev) :
    runAct (completeLeaf k dir e body code source) d = runAct (leafEnd k dir e (d.leafStep k e.year.toNat))
      (runAct (offerLeaf k dir e (d.plan k) (d.leafStep k e.year.toNat)) (runAct (turnAngle k dir e (d.plan k))
        (runAct (catchUpStore k dir e body) (runAct (noteFindings dir e code source (d.leafStep k e.year.toNat)) d)))) := by
  rw [runAct_eq, completeLeaf_eq, ← runAct_eq, runAct_inSequence_cons, runAct_inSequence_cons, runAct_inSequence_cons, runAct_inSequence_cons, leafEnd]

section acts
variable {k : Nat} {dir : Dir}

theorem calms_noteFindings (e : LeafExt) (code : Option Expanded) (source : Nat) (step : Option (Nat × Nat)) :
    Calms k dir (noteFindings dir e code source step) := by
  intro d
  unfold noteFindings
  split
  · rw [each_append, each_ite]
    refine ⟨calm_list (confined_recordRun _ _ _ _ _ _) (by decide) (by decide) (by decide), fun _ => ?_, fun _ => each_nil⟩
    rw [each_map]
    exact fun s _ => calm_failStep s.1 s.2 _
  · exact each_nil

theorem calms_leafEnd (e : LeafExt) (step : Option (Nat × Nat)) : Calms k dir (leafEnd k dir e step) := by
  refine Makes.cons (fun d => (each_cons ..).2 ⟨calm_mark (by simp) k _, each_nil⟩) (Makes.cons (fun d => ?_) (Makes.cons (calms_catchUpEnd k)
    (Makes.cons (calms_yearEnd k dir) (Makes.cons (as := []) (fun d => ?_) Makes.nil))))
  · unfold joinLeaf
    split
    · rw [each_ite]
      exact ⟨fun _ => calms_joinDay _ _ _ d, fun _ => each_nil⟩
    · exact each_nil
  · unfold readyLeaf
    split
    · exact calms_checkReady _ _ d
    · exact each_nil

/-- A module whose angle has turned: what is bound, and the cores, are as before. -/
structure TurnedTo (k : Nat) (dir : Dir) (year day : Nat) (d e : Dev) : Prop where
  repair : e.repair = d.repair
  errors : ∀ i, e.reg .HBM_ERR i = d.reg .HBM_ERR i
  bad : e.hbmBad ⊆ d.hbmBad
  bound : e.bound k = d.bound k
  angle : e.angle k dir = some (year, day)
  idle : e.dirIdle k dir

theorem Calmed.before {d e e' : Dev} {year day : Nat} (h : Calmed k dir d e) (h' : TurnedTo k dir year day e e') : TurnedTo k dir year day d e' where
  repair := h'.repair.trans h.repair
  errors := fun i => (h'.errors i).trans (h.errors i)
  bad := List.Subset.trans h'.bad h.bad
  bound := h'.bound.trans h.bound
  angle := h'.angle
  idle := h'.idle

theorem TurnedTo.after {d e e' : Dev} {year day : Nat} (h : TurnedTo k dir year day d e) (h' : Calmed k dir e e') : TurnedTo k dir year day d e' where
  repair := h'.repair.trans h.repair
  errors := fun i => (h'.errors i).trans (h.errors i)
  bad := List.Subset.trans h'.bad h.bad
  bound := h'.bound.trans h.bound
  angle := h'.angle.trans h.angle
  idle := h'.idle h.idle

/-- The marks that an angle turns with, and what it turns in the ring context. -/
def angleMarks (k : Nat) (dir : Dir) (e : LeafExt) (bwd : Bool) : List Upd :=
  [setF (angleYear dir) k e.year.toNat, setF (angleDay dir) k e.day.toNat, setF (angleValid dir) k 1, setB F.RING_STATUS_BWD k bwd]
def turnRing (k : Nat) (dir : Dir) (e : LeafExt) (p : RPlan) (now : Nat) : List Upd :=
  .ring k (onDir dir fun s => { s with rx := none, reading := false, fed := 0, acceptedAt := now }) ::
    (if p.mode = 2 && p.bwd e.year.toNat then [.ring k fun r => { r with bwdExts := r.bwdExts ++ [{ e with hop := 0, pktIdx := 0 }] }] else [])

theorem turnAngle_eq (e : LeafExt) (p : RPlan) (d : Dev) :
    turnAngle k dir e p d = angleMarks k dir e (p.bwd e.year.toNat) ++ turnRing k dir e p d.now := rfl

theorem confined_angleMarks (k : Nat) (dir : Dir) (e : LeafExt) (bwd : Bool) :
    Confined [.regs] [.RING_STATUS, .RING_ANGLE_CW, .RING_ANGLE_CCW] (angleMarks k dir e bwd) := by
  simp only [angleMarks, confined_cons, confined_nil, and_true]
  cases dir <;> exact ⟨rfl, rfl, rfl, rfl⟩

theorem confined_turnRing (k : Nat) (dir : Dir) (e : LeafExt) (p : RPlan) (now : Nat) : Confined [.rings] [] (turnRing k dir e p now) := by
  simp only [turnRing, confined_cons, confined_ite, confined_nil, and_true, implies_true]
  exact ⟨rfl, fun _ => rfl⟩

theorem confined_turnAngle (k : Nat) (dir : Dir) (e : LeafExt) (p : RPlan) (d : Dev) :
    Confined [.regs, .rings] [.RING_STATUS, .RING_ANGLE_CW, .RING_ANGLE_CCW] (turnAngle k dir e p d) := by
  rw [turnAngle_eq, confined_append]
  exact ⟨(confined_angleMarks k dir e _).mono (by decide) (by decide), (confined_turnRing k dir e p _).mono (by decide) (by decide)⟩

theorem turned_angleMarks (k : Nat) (dir : Dir) (e : LeafExt) (bwd : Bool) (d : Dev) :
    (applyAll (angleMarks k dir e bwd) d).angle k dir = some (e.year.toNat, e.day.toNat) := by
  have year := e.year.isLt
  have day := e.day.isLt
  cases dir <;>
  · simp (disch := exact of_decide_eq_true rfl) only [angleMarks, applyAll_cons, applyAll_nil, Dev.angle, Dev.bit, angleValid, angleYear, angleDay,
      fld_apply_spared, fld_setF]
    rw [Nat.mod_eq_of_lt (show e.year.toNat < _ from year), Nat.mod_eq_of_lt (show e.day.toNat < _ from day)]
    rfl

theorem turned_idle (k : Nat) (dir : Dir) (e : LeafExt) (p : RPlan) (d : Dev) : (applyAll (turnAngle k dir e p d) d).dirIdle k dir := by
  rw [turnAngle_eq, applyAll_append, turnRing, applyAll_cons]
  generalize applyAll (angleMarks k dir e (p.bwd e.year.toNat)) d = m
  have first : ((Upd.ring k (onDir dir fun s => { s with rx := none, reading := false, fed := 0, acceptedAt := d.now })).apply m).dirIdle k dir := by
    rw [Dev.dirIdle, ring_apply_ring, if_pos rfl, dir_onDir, if_pos rfl]
    exact ⟨rfl, rfl⟩
  generalize (Upd.ring k (onDir dir fun s => { s with rx := none, reading := false, fed := 0, acceptedAt := d.now })).apply m = m' at *
  split
  · rw [applyAll_cons, applyAll_nil, Dev.dirIdle, ring_apply_ring, if_pos rfl]
    cases dir <;> exact first
  · exact first

theorem turnAngle_reads (e : LeafExt) (p : RPlan) (d : Dev) :
    TurnedTo k dir e.year.toNat e.day.toNat d (runAct (turnAngle k dir e p) d) ∧ (runAct (turnAngle k dir e p) d).cores = d.cores := by
  have confined := confined_turnAngle k dir e p d
  have fld (f : Fld) (hf : f ∈ boundFields) := confined.fld d ((by decide : ∀ f ∈ boundFields, f.reg ∉ [Reg.RING_STATUS, .RING_ANGLE_CW, .RING_ANGLE_CCW]) f hf) k
  have bad := keepAll_hbmBad d (confined.leaves (by decide))
  have marks := turned_angleMarks k dir e (p.bwd e.year.toNat) d
  have idle := turned_idle k dir e p d
  rw [runAct_eq]
  refine ⟨{
    repair := keepAll_repair d (confined.leaves (by decide))
    errors := fun i => confined.reg d (by decide) i
    bad := by rw [bad]; exact List.Subset.refl _
    bound := bound_congr fld (fun i => by rw [confined.slice d (by decide)]) (fun i => by rw [confined.slice d (by decide)])
      (keepAll_schedLib d (confined.leaves (by decide))) fun c => by rw [confined.core d (by decide)]
    angle := ?_
    idle := idle }, keepAll_cores d (confined.leaves (by decide))⟩
  rw [turnAngle_eq, applyAll_append, angle_congr fun f _ => (confined_turnRing k dir e p d.now).fld _ List.not_mem_nil k]
  exact marks

end acts

/-! ### Cues that become due -/

/-- The updates that make the cues of a day due on one core. -/
def offerCore (trig : Trig) (year day step : Nat) (bwd : Bool) (prog : Option Program) (c : Nat) : List Upd :=
  match prog with
  | none => []
  | some p =>
    let fs := dueCues p trig year day step bwd
    if fs.isEmpty then [] else [Upd.core c fun cs => { cs with due := cs.due ++ fs }]

/-- The listed cores that run the binding of a context. -/
def Dev.onRing (d : Dev) (k : Nat) : List (Nat × CoreSt) := d.cores.filter fun e => match e.2.live with | some b => b.ring = k | none => false

theorem offerDay_eq (k : Nat) (trig : Trig) (year day step : Nat) (bwd : Bool) (d : Dev) : offerDay k trig year day step bwd d =
    (d.onRing k).flatMap fun e => offerCore trig year day step bwd (d.liveProg e.1) e.1 := rfl

section offer
variable {trig : Trig} {year day step : Nat} {bwd : Bool}

theorem confined_offerCore (prog : Option Program) (c : Nat) : Confined [.cores] [] (offerCore trig year day step bwd prog c) := by
  unfold offerCore
  split
  · exact confined_nil
  · dsimp only
    rw [confined_ite]
    exact ⟨fun _ => confined_nil, fun _ => (confined_cons ..).2 ⟨rfl, confined_nil⟩⟩

theorem keeps_offerCore {α : Type} {obs : CoreSt → α} (prog : Option Program) (c c' : Nat)
    (h : c = c' → ∀ cs fs, obs { cs with due := cs.due ++ fs } = obs cs) : Keeps (fun d => obs (d.core c')) (offerCore trig year day step bwd prog c) := by
  unfold offerCore
  split
  · exact keeps_nil
  · dsimp only
    rw [keeps_ite]
    refine ⟨fun _ => keeps_nil, fun _ => (keeps_cons ..).2 ⟨fun d => ?_, keeps_nil⟩⟩
    rw [core_apply_core]
    split
    · subst_vars; exact h rfl _ _
    · rfl

theorem due_offerCore (p : Program) (c : Nat) (d : Dev) : ((applyAll (offerCore trig year day step bwd (some p) c) d).core c).due =
    (d.core c).due ++ dueCues p trig year day step bwd := by
  unfold offerCore
  dsimp only
  split
  · rename_i none_
    rw [List.isEmpty_iff.1 none_, List.append_nil]
    rfl
  · rw [applyAll_cons, applyAll_nil, core_apply_same]

theorem keeps_flatMap {α β : Type} {obs : Dev → β} {f : α → List Upd} {xs : List α} (h : ∀ x ∈ xs, Keeps obs (f x)) : Keeps obs (xs.flatMap f) := by
  intro u hu
  obtain ⟨x, hx, hu⟩ := List.mem_flatMap.1 hu
  exact h x hx u hu

/-- The cues of a day become due on every core of the binding, once. -/
theorem due_offerDay {d : Dev} (wf : mapWf (fun _ => CoreSt.init) d.cores = true) {k c : Nat} {b : Binding} {p : Program}
    (live : (d.core c).live = some b) (ring : b.ring = k) (prog : d.liveProg c = some p) :
    ((runAct (offerDay k trig year day step bwd) d).core c).due = (d.core c).due ++ dueCues p trig year day step bwd := by
  have member : (c, d.core c) ∈ d.onRing k := by
    refine List.mem_filter.2 ⟨mem_of_mapGet fun same => ?_, ?_⟩
    · rw [Dev.core, same] at live
      cases live
    · simp only [live]
      exact decide_eq_true ring
  have rising : ((d.onRing k).map Prod.fst).Pairwise (· < ·) := filter_rising _ _ ((mapWf_iff _ _).1 wf).1
  rw [runAct_eq, offerDay_eq]
  obtain ⟨as, bs, split⟩ := List.append_of_mem member
  rw [split, List.map_append, List.map_cons, List.pairwise_append] at rising
  obtain ⟨-, tail, cross⟩ := rising
  rw [List.pairwise_cons] at tail
  have before (x : Nat × CoreSt) (hx : x ∈ as) : x.1 ≠ c := (cross _ (List.mem_map_of_mem hx) _ List.mem_cons_self).ne
  have after (x : Nat × CoreSt) (hx : x ∈ bs) : x.1 ≠ c := (tail.1 _ (List.mem_map_of_mem hx)).ne'
  rw [split, List.flatMap_append, List.flatMap_cons, applyAll_append, applyAll_append, prog]
  have others (x : Nat × CoreSt) (hx : x.1 ≠ c) : Keeps (fun d => (d.core c).due) (offerCore trig year day step bwd (d.liveProg x.1) x.1) :=
    keeps_offerCore _ _ _ fun same => absurd same hx
  rw [(keeps_flatMap fun x hx => others x (after x hx)).eq, due_offerCore, (keeps_flatMap fun x hx => others x (before x hx)).eq]

theorem confined_offerDay (k : Nat) (d : Dev) : Confined [.cores] [] (offerDay k trig year day step bwd d) := by
  intro u hu
  rw [offerDay_eq] at hu
  obtain ⟨x, -, hu⟩ := List.mem_flatMap.1 hu
  exact confined_offerCore _ _ u hu

theorem live_offerDay (k c : Nat) (d : Dev) : ((runAct (offerDay k trig year day step bwd) d).core c).live = (d.core c).live := by
  rw [runAct_eq, offerDay_eq]
  exact (keeps_flatMap (obs := fun d => (d.core c).live) fun x _ => keeps_offerCore _ _ _ fun _ _ _ => rfl).eq d

end offer

end Sys2Proof.Machine
end

