-- ==== Sys2Proof/Proofs/LeafAcceptance.lean ====
section
/-! PROOFS. The fences that a command ends with leave an angle turned, and the cues of a slice they do not fence; leaves accepted (R38, R278, R458). -/

namespace Sys2Proof.Machine

/-! ### Fences put no leaf under way -/

/-- An update that puts no leaf of a direction under way. -/
def Upd.resting (k : Nat) (dir : Dir) (u : Upd) : Prop := ∀ d, d.dirIdle k dir → (u.apply d).dirIdle k dir

section resting
variable {k : Nat} {dir : Dir}

theorem resting_ring {o : Nat} {g : RingSt → RingSt} (h : ∀ r, (r.dir dir).reading = false ∧ (r.dir dir).rx = none →
    ((g r).dir dir).reading = false ∧ ((g r).dir dir).rx = none) : (Upd.ring o g).resting k dir := (calm_ring (k := k) h).idle

theorem resting_of_apart {u : Upd} (apart : Part.rings ∉ u.touches) : u.resting k dir := fun d hd => by
  have ring : (u.apply d).ring k = d.ring k := ring_of_rings (keep_rings u d apart) k
  rw [Dev.dirIdle, ring]
  exact hd

end resting

/-- A ring context whose leaves a fence stops (R461). -/
def stopLeaves (r : RingSt) : RingSt :=
  { r with cw := { r.cw with rx := none, reading := false, fed := 0 }, ccw := { r.ccw with rx := none, reading := false, fed := 0 } }

/-! What a fence makes of the ring contexts and of the router's lists: it stops the leaves, and drops packets that wait. -/
section stops
variable {P : Upd → Prop} (apart : ∀ u : Upd, Part.rings ∉ u.touches → Part.route ∉ u.touches → P u)
include apart

theorem each_of_confined {ps : List Part} {rs : List Reg} {us : List Upd} (h : Confined ps rs us) (rings : Part.rings ∉ ps) (route : Part.route ∉ ps) :
    Each P us := fun u hu => apart u (h.leaves rings u hu) (h.leaves route u hu)

variable (drop : ∀ f, P (.route fun r => { r with waiting := r.waiting.filter f }))
include drop

theorem makes_dropQueued (pkey : BitVec 12) : Makes P (dropQueued pkey) := by
  intro d
  have port (p : Nat) (g : PortSt → PortSt) : P (.port p g) := apart _ (by simp) (by simp)
  simp only [dropQueued, each_append, each_flatMap, each_ite, each_nil, each_cons, implies_true, true_and, and_true]
  refine ⟨fun p _ _ => ⟨port _ _, fun u hu => ?_⟩, fun _ => drop _⟩
  obtain ⟨q, -, hq⟩ := List.mem_filterMap.1 hu
  obtain ⟨i, -, rfl⟩ := Option.map_eq_some_iff.1 hq
  exact port _ _

variable (stop : ∀ o, P (.ring o stopLeaves))
include stop

theorem makes_fenceSlice (i cls : Nat) : Makes P (fenceSlice i cls) := by
  intro d
  rw [fenceSlice_eq, each_ite]
  refine ⟨fun _ => each_nil, fun _ => Makes.inSequence (fun a ha e => ?_) d⟩
  rcases List.mem_cons.1 ha with rfl | ha
  · exact each_of_confined apart (Confines.forEach (fun x _ => confines_fenceCore x) e) (by decide) (by decide)
  rcases List.mem_cons.1 ha with rfl | ha
  · exact each_of_confined apart (ps := [.slices]) (rs := []) ((confined_cons ..).2 ⟨rfl, confined_nil⟩) (by decide) (by decide)
  rcases List.mem_append.1 ha with ha | ha
  · simp only [fenceFlood, List.mem_cons, List.not_mem_nil, or_false] at ha
    rcases ha with rfl | rfl | rfl | rfl | rfl
    · rw [each_map]
      exact fun o _ => stop o
    · rw [each_append]
      refine ⟨?_, each_of_confined apart (tame_fenceBit cls).confined (by decide) (by decide)⟩
      exact each_of_confined apart (ps := [.regs]) (rs := [.RECOV_LAST, .COMMIT_CNT]) (by
        simp only [confined_cons, confined_nil, and_true]
        exact ⟨rfl, rfl, rfl, rfl, rfl⟩) (by decide) (by decide)
    · exact makes_dropQueued apart drop _ e
    · simp only [sendFences, each_flatMap]
      exact fun p _ => each_of_confined apart (ps := [.regs, .outbox]) (rs := [.LINK_STATUS]) (by
        simp only [confined_cons, confined_nil, and_true]
        exact ⟨rfl, rfl⟩) (by decide) (by decide)
    · exact each_of_confined apart ((tames_publishSnap true).confines.onlyIf e) (by decide) (by decide)
  · simp only [fenceEnd, List.mem_cons, List.not_mem_nil, or_false] at ha
    rcases ha with rfl | rfl
    · exact each_of_confined apart ((tames_enterState _).confines.onlyIf e) (by decide) (by decide)
    · exact each_of_confined apart ((tames_sendResolution i).confines e) (by decide) (by decide)

theorem makes_faultSlice (i cls : Nat) : Makes P (faultSlice i cls) := by
  intro d
  simp only [faultSlice, each_ite, each_nil, implies_true, true_and]
  exact fun _ => Makes.cons (makes_fenceSlice apart drop stop i cls) (Makes.cons (as := [])
    (fun e => each_of_confined apart ((tames_faultReport _ _ _).confines e) (by decide) (by decide)) Makes.nil) d

variable (clear : P (.route fun r => { r with lost := [] }))
include clear

theorem makes_fenceLost : Makes P fenceLost := by
  intro d
  simp only [fenceLost, each_ite, each_nil, implies_true, true_and]
  refine fun _ => Makes.cons (Makes.forEach fun k _ e => ?_) (Makes.cons (as := []) (fun d => (each_cons ..).2 ⟨clear, each_nil⟩) Makes.nil) d
  split
  · exact makes_faultSlice apart drop stop _ 1 e
  · exact each_nil

end stops

section resting
variable {k : Nat} {dir : Dir}

theorem resting_fenceLost : Makes (Upd.resting k dir) fenceLost :=
  makes_fenceLost (fun _ rings _ => resting_of_apart rings) (fun _ => resting_of_apart (by simp))
    (fun _ => resting_ring fun r _ => by cases dir <;> exact ⟨rfl, rfl⟩) (resting_of_apart (by simp))

theorem resting_applyAll {us : List Upd} (h : Each (Upd.resting k dir) us) {d : Dev} (hd : d.dirIdle k dir) : (applyAll us d).dirIdle k dir := by
  induction us generalizing d with
  | nil => exact hd
  | cons u us ih =>
    obtain ⟨hu, rest⟩ := (each_cons ..).1 h
    exact ih rest (hu d hd)

theorem Behind.idle {e d : Dev} (b : Behind e d) (h : e.dirIdle k dir) : d.dirIdle k dir := by
  rw [Dev.dirIdle, b.quiet.ring, runAct_eq]
  exact resting_applyAll (resting_fenceLost e) h

theorem Behind.angle {e d : Dev} (b : Behind e d) : d.angle k dir = e.angle k dir :=
  angle_congr fun f hf => b.fld (by cases dir <;> exact (by decide : ∀ f ∈ angleFields _, f.reg ∉ fenceRegs) f hf) k

end resting

/-! ### Cues of a slice that is not fenced -/

/-- What a fence does behind the cores of its slice leaves every core. -/
theorem cores_fenceTail (i cls : Nat) (d e : Dev) :
    (runAct (inSequence ((fun _ => [.slice i (markFenced cls d)]) :: (fenceFlood i cls d ++ fenceEnd i d))) e).cores = e.cores := by
  have confines : Confines [.slices, .regs, .rings, .ports, .route, .outbox, .chain, .power, .snapPub] fenceRegs
      (inSequence ((fun _ => [.slice i (markFenced cls d)]) :: (fenceFlood i cls d ++ fenceEnd i d))) := by
    refine Confines.inSequence fun a ha => ?_
    rcases List.mem_cons.1 ha with rfl | ha
    · exact fun _ => (confined_cons ..).2 ⟨rfl, confined_nil⟩
    rcases List.mem_append.1 ha with ha | ha
    · simp only [fenceFlood, List.mem_cons, List.not_mem_nil, or_false] at ha
      rcases ha with rfl | rfl | rfl | rfl | rfl
      · intro _
        simp only [confined_map]
        exact fun _ _ => rfl
      · intro _
        simp only [confined_append, confined_cons, confined_nil, and_true]
        exact ⟨⟨rfl, rfl, rfl, rfl, rfl⟩, (tame_fenceBit cls).confined.mono (by decide) (by decide)⟩
      · exact (tames_dropQueued _).confines.mono (by decide) (by decide)
      · intro _
        simp only [sendFences, confined_flatMap, confined_cons, confined_nil, and_true]
        exact fun _ _ => ⟨rfl, rfl⟩
      · exact ((tames_publishSnap _).confines.mono (by decide) (by decide)).onlyIf
    · simp only [fenceEnd, List.mem_cons, List.not_mem_nil, or_false] at ha
      rcases ha with rfl | rfl
      · exact ((tames_enterState _).confines.mono (by decide) (by decide)).onlyIf
      · exact (tames_sendResolution i).confines.mono (by decide) (by decide)
  exact confines.cores e (by decide)

theorem keeps_fenceCore {x : Nat × CoreSt} {c : Nat} (other : x.1 ≠ c) (d : Dev) : Keeps (fun d => (d.core c).due) (fenceCore x d) := by
  have regs {us : List Upd} {rs : List Reg} (h : Confined [.regs] rs us) : Keeps (fun d => (d.core c).due) us := h.keeps_core (by decide) CoreSt.due
  simp only [fenceCore, keeps_append, keeps_cons, keeps_nil, and_true]
  refine ⟨⟨keeps_flatMap fun y _ => regs (confines_recordSlip _ _ _ d), ?_⟩, fun e => ?_⟩
  · refine keeps_inSequence (fun a ha e => ?_) d
    obtain ⟨a, -, rfl⟩ := List.mem_map.1 ha
    exact regs (tame_flagStream e _ ⟨by decide, rfl, by decide⟩ rfl _ _).confined
  · rw [core_apply_core, if_neg (Ne.symm other)]

/-- A fence stops the cores of its key alone. -/
theorem due_fenceSlice {d : Dev} (wf : mapWf (fun _ => CoreSt.init) d.cores = true) {j c : Nat} (cls : Nat)
    (other : d.corePkey (d.core c) ≠ some (d.slice j).pkey) : ((runAct (fenceSlice j cls) d).core c).due = (d.core c).due := by
  rw [runAct_eq, fenceSlice_eq]
  split
  · rfl
  · rw [← runAct_eq, runAct_inSequence_cons, core_of_cores (cores_fenceTail j cls d _), runAct_eq]
    refine (keeps_inSequence (obs := fun d => (d.core c).due) (fun a ha e => ?_) d).eq d
    obtain ⟨x, hx, rfl⟩ := List.mem_map.1 ha
    refine keeps_fenceCore (fun same => other ?_) e
    obtain ⟨member, key⟩ := List.mem_filter.1 hx
    have here : d.core x.1 = x.2 := mapGet_of_mem wf member
    rw [← same, here]
    exact of_decide_eq_true key

/-- A core of slice `i` of a binding, whose cues are `cues` unless the slice is fenced. -/
structure Cued (i c : Nat) (cues : List Firing) (e : Dev) : Prop where
  canonical : e.Canonical
  slice : e.coreSlice c = some i
  due : (e.slice i).fenced = true ∨ (e.core c).due = cues

section cued
variable {i c : Nat} {cues : List Firing}

theorem cued_tame {ps : List Part} {rs : List Reg} {us : List Upd} {e : Dev} (t : Tame ps rs us) (lib : Part.schedLib ∉ ps) (h : Cued i c cues e)
    (due : (e.core c).due = cues → ((applyAll us e).slice i).fenced = true ∨ ((applyAll us e).core c).due = cues) : Cued i c cues (applyAll us e) := by
  have canonical := canonical_applyAll us h.canonical
  refine ⟨canonical, ?_, ?_⟩
  · rw [← h.slice, Dev.coreSlice, Dev.coreSlice, Dev.corePkey, Dev.corePkey, (t.core e c).1, keepAll_schedLib e (t.confined.leaves lib),
      funext (sliceOf_congr h.canonical canonical fun j => t.desc e j)]
  · rcases h.due with fenced | now
    · exact .inl (t.fenced e fenced)
    · exact due now

theorem cued_faultSlice {key : BitVec 12} {j : Nat} (cls : Nat) {e : Dev} (found : e.sliceOf key = some j) (h : Cued i c cues e) :
    Cued i c cues (runAct (faultSlice j cls) e) := by
  have tame := tames_faultSlice j cls e
  have keyedJ := ((sliceOf_iff h.canonical.slices).1 found).1
  have desc : (e.slice j).desc.isSome = true := by
    unfold keyed at keyedJ
    split at keyedJ
    · simp_all
    · cases keyedJ
  have pkey : (e.slice j).pkey = key := by
    unfold keyed at keyedJ
    split at keyedJ
    · rename_i s hs
      dsimp only at hs
      rw [SliceSt.pkey, hs]
      exact of_decide_eq_true keyedJ
    · cases keyedJ
  rw [runAct_eq]
  refine cued_tame tame (by decide) h fun due => ?_
  rw [← runAct_eq]
  by_cases own : e.corePkey (e.core c) = some key
  · left
    have same : e.sliceOf key = some i := by
      rw [← h.slice, Dev.coreSlice, own]
      rfl
    obtain rfl := Option.some.inj (found.symm.trans same)
    exact fenced_faultSlice desc cls
  · right
    have run : runAct (faultSlice j cls) e = runAct (faultReport cls none [(e.slice j).pkey]) (runAct (fenceSlice j cls) e) := by
      rw [runAct_eq, faultSlice]
      simp only [Option.isNone_eq_false_iff.2 desc, Bool.false_eq_true, if_false]
      rw [← runAct_eq, runAct_two]
    rw [run, (tames_faultReport _ _ _).confines.core _ (by decide)]
    exact (due_fenceSlice h.canonical.cores cls (by rw [pkey]; exact own)).trans due

/-- The fences that a command ends with leave the cues of a slice they do not fence. -/
theorem cued_fenceLost {e : Dev} (h : Cued i c cues e) : Cued i c cues (runAct fenceLost e) := by
  rw [runAct_eq, fenceLost]
  split
  · exact h
  · rw [← runAct_eq, runAct_two]
    have fences : Invariant (Cued i c cues) (forEach (fun k d => match d.sliceOf k with | some i => faultSlice i 1 d | none => []) e.route.lost) := by
      refine Invariant.forEach fun key _ d hd => ?_
      rw [runAct_eq]
      split
      · rename_i j found
        exact cued_faultSlice 1 found hd
      · exact hd
    have tame : Tame [.route] [] [.route fun r => { r with lost := [] }] := tame_of_all rfl
    have after := fences e h
    exact cued_tame tame (by decide) after fun due => .inr due

theorem Behind.cued {e d : Dev} (b : Behind e d) (h : Cued i c cues e) : (d.slice i).fenced = true ∨ (d.core c).due = cues := by
  rw [b.quiet.slice, b.quiet.core]
  exact (cued_fenceLost h).due

end cued

/-! ### Leaves accepted -/

section accept
variable {k : Nat} {dir : Dir} {d : Dev}

/-- A leaf is complete: the angle has turned, and the cues of its day are due. -/
structure LeafDone (k : Nat) (dir : Dir) (e : LeafExt) (d d' : Dev) : Prop where
  turned : TurnedTo k dir e.year.toNat e.day.toNat d d'
  due : ∀ i c b p, d.ringSlice k = some i → (d.core c).live = some b → b.ring = k → d.liveProg c = some p → (d'.core c).due = (d.core c).due ++
    dueCues p (dayTrig dir) e.year.toNat e.day.toNat (d.stepOf k i e.year.toNat) ((d.plan k).bwd e.year.toNat)

/-- Cues that become due leave what an angle has turned with. -/
theorem TurnedTo.offered {d₀ : Dev} {year day : Nat} (h : TurnedTo k dir year day d₀ d) (e : LeafExt) (step : Option (Nat × Nat)) {p : RPlan} :
    TurnedTo k dir year day d₀ (runAct (offerLeaf k dir e p step) d) := by
  have confined : Confined [.cores] [] (offerLeaf k dir e p step d) := by
    unfold offerLeaf
    split
    · exact confined_offerDay k d
    · exact confined_nil
  have live (c : Nat) : ((runAct (offerLeaf k dir e p step) d).core c).live = (d.core c).live := by
    rw [runAct_eq]
    unfold offerLeaf
    split
    · rw [← runAct_eq]
      exact live_offerDay k c d
    · rfl
  have bad := keepAll_hbmBad d (confined.leaves (by decide))
  have fld (f : Fld) (i : Nat) := confined.fld d (f := f) List.not_mem_nil i
  have ring := confined.ring d (by decide) k
  rw [runAct_eq] at live ⊢
  exact {
    repair := (keepAll_repair d (confined.leaves (by decide))).trans h.repair
    errors := fun i => (confined.reg d List.not_mem_nil i).trans (h.errors i)
    bad := by rw [bad]; exact h.bad
    bound := (bound_congr (fun f _ => fld f k) (fun i => by rw [confined.slice d (by decide)]) (fun i => by rw [confined.slice d (by decide)])
      (keepAll_schedLib d (confined.leaves (by decide))) live).trans h.bound
    angle := (angle_congr fun f _ => fld f k).trans h.angle
    idle := by
      rw [Dev.dirIdle, ring]
      exact h.idle }

theorem leafDone_completeLeaf (canonical : d.Canonical) (e : LeafExt) (body : List Byte) (code : Option Expanded) (source : Nat) :
    LeafDone k dir e d (runAct (completeLeaf k dir e body code source) d) := by
  rw [completeLeaf_run]
  have found := (calms_noteFindings (k := k) (dir := dir) e code source (d.leafStep k e.year.toNat)).run d
  have canonical₁ : (runAct (noteFindings dir e code source (d.leafStep k e.year.toNat)) d).Canonical := canonical_applyAll _ canonical
  generalize runAct (noteFindings dir e code source (d.leafStep k e.year.toNat)) d = d₁ at *
  have stored := found.trans ((calms_catchUpStore (k := k) (dir := dir) k dir e body).run d₁)
  have canonical₂ : (runAct (catchUpStore k dir e body) d₁).Canonical := canonical_applyAll _ canonical₁
  generalize runAct (catchUpStore k dir e body) d₁ = d₂ at *
  obtain ⟨turns, cores⟩ := turnAngle_reads (k := k) (dir := dir) e (d.plan k) d₂
  have canonical₃ : (runAct (turnAngle k dir e (d.plan k)) d₂).Canonical := canonical_applyAll _ canonical₂
  generalize runAct (turnAngle k dir e (d.plan k)) d₂ = d₃ at *
  have turned := stored.before turns
  have cores₃ : d₃.cores = d.cores := cores.trans stored.cores
  have ended (d₄ : Dev) := (calms_leafEnd (k := k) (dir := dir) e (d.leafStep k e.year.toNat)).run d₄
  refine ⟨(turned.offered _ _).after (ended _), fun i c b p slice live ring prog => ?_⟩
  rw [core_of_cores (ended _).cores]
  have step : d.leafStep k e.year.toNat = some (i, d.stepOf k i e.year.toNat) := by rw [Dev.leafStep, slice, Option.map_some]
  have offers : runAct (offerLeaf k dir e (d.plan k) (d.leafStep k e.year.toNat)) d₃ = runAct (offerDay k (dayTrig dir) e.year.toNat e.day.toNat
      (d.stepOf k i e.year.toNat) ((d.plan k).bwd e.year.toNat)) d₃ := by
    refine runAct_of_eq ?_
    unfold offerLeaf
    rw [step]
  have core : d₃.core c = d.core c := core_of_cores cores₃ c
  rw [offers, due_offerDay canonical₃.cores (by rw [core]; exact live) ring ((bound_liveProg turned.bound c).trans prog), core]

/-- A leaf that the leaf tree takes is complete behind what its acceptance waits for. -/
theorem Calmed.leafDone {e : LeafExt} {d₁ d' : Dev} (calm : Calmed k dir d d₁) (cd : d.Canonical) (cd₁ : d₁.Canonical) (h : LeafDone k dir e d₁ d') : LeafDone k dir e d d' := by
  refine ⟨calm.before h.turned, fun i c b p slice live ring prog => ?_⟩
  have core : d₁.core c = d.core c := core_of_cores calm.cores c
  have due := h.due i c b p ((bound_ringSlice calm.bound cd cd₁).trans slice) (by rw [core]; exact live) ring ((bound_liveProg calm.bound c).trans prog)
  rw [due, core, bound_stepOf calm.bound, bound_plan calm.bound]

/-- The tiles of a leaf that a direction that goes live feeds. -/
def feedLeaf (k : Nat) (dir : Dir) (e : LeafExt) (lt : LeafTiles) : Act := inSequence [goLive k dir,
  feedTiles k dir e.layer.toNat e.tile.toNat (lt.code.any fun x => x.bad) ((List.range lt.tiles.length).zip lt.tiles)]

theorem calms_feedLeaf (e : LeafExt) (lt : LeafTiles) : Calms k dir (feedLeaf k dir e lt) :=
  Makes.cons (calms_goLive k dir) (Makes.cons (as := []) (calms_feedTiles k dir _ _ _ _) Makes.nil)

/-- What follows the tiles. -/
def endLeaf (k : Nat) (dir : Dir) (e : LeafExt) (body : List Byte) (lt : LeafTiles) (source : Nat) (after : Act) : Act := fun d =>
  if ((d.ring k).dir dir).fed < lt.tiles.length then [] else inSequence [after, completeLeaf k dir e body lt.code source] d

theorem acceptLeaf_run (e : LeafExt) (body : List Byte) (source : Nat) (after : Act) (free : d.leafHeld k dir e.year.toNat e.day.toNat = false) :
    runAct (acceptLeaf k dir e body source after) d =
      runAct (endLeaf k dir e body (d.leafTiles e body) source after) (runAct (feedLeaf k dir e (d.leafTiles e body)) d) := by
  have act : acceptLeaf k dir e body source after d = inSequence [goLive k dir,
      feedTiles k dir e.layer.toNat e.tile.toNat ((d.leafTiles e body).code.any fun x => x.bad)
        ((List.range (d.leafTiles e body).tiles.length).zip (d.leafTiles e body).tiles),
      endLeaf k dir e body (d.leafTiles e body) source after] d := if_neg (by rw [free]; decide)
  rw [runAct_eq, act, ← runAct_eq, runAct_three, feedLeaf, runAct_two]

theorem acceptLeaf_held (e : LeafExt) (body : List Byte) (source : Nat) (after : Act) (held : d.leafHeld k dir e.year.toNat e.day.toNat = true) :
    acceptLeaf k dir e body source after d = [] := if_pos held

theorem takesLeaf_iff (e : LeafExt) (body : List Byte) : d.takesLeaf k dir e body = true ↔ d.leafHeld k dir e.year.toNat e.day.toNat = false ∧
    (d.leafTiles e body).tiles.length ≤ (((runAct (feedLeaf k dir e (d.leafTiles e body)) d).ring k).dir dir).fed := by
  unfold Dev.takesLeaf feedLeaf
  simp only [Bool.and_eq_true, Bool.not_eq_true', decide_eq_true_eq]

theorem leafDone_acceptLeaf (canonical : d.Canonical) {e : LeafExt} {body : List Byte} {after : Act} (calm : Calms k dir after) (source : Nat)
    (takes : d.takesLeaf k dir e body = true) : LeafDone k dir e d (runAct (acceptLeaf k dir e body source after) d) := by
  obtain ⟨free, fed⟩ := (takesLeaf_iff e body).1 takes
  rw [acceptLeaf_run e body source after free]
  have feeds := (calms_feedLeaf (k := k) (dir := dir) e (d.leafTiles e body)).run d
  have canonical₁ : (runAct (feedLeaf k dir e (d.leafTiles e body)) d).Canonical := canonical_applyAll _ canonical
  generalize runAct (feedLeaf k dir e (d.leafTiles e body)) d = d₁ at *
  have act : endLeaf k dir e body (d.leafTiles e body) source after d₁ =
      inSequence [after, completeLeaf k dir e body (d.leafTiles e body).code source] d₁ := if_neg (Nat.not_lt.2 fed)
  rw [runAct_of_eq act, runAct_two]
  have afters := feeds.trans (calm.run d₁)
  have canonical₂ : (runAct after d₁).Canonical := canonical_applyAll _ canonical₁
  generalize runAct after d₁ = d₂ at *
  exact afters.leafDone canonical canonical₂ (leafDone_completeLeaf canonical₂ e body _ source)

/-- A leaf that is complete has turned the angle, behind the fences that its command ends with. -/
theorem LeafDone.settled {e : LeafExt} {d' d'' : Dev} (h : LeafDone k dir e d d') (cd : d.Canonical) (cd' : d'.Canonical) (b : Behind d' d'') :
    d.turned d'' k dir e.year.toNat e.day.toNat := by
  obtain ⟨reading, rx⟩ := b.idle h.turned.idle
  refine ⟨b.angle.trans h.turned.angle, reading, rx, fun i c bind p ring slice live of_ prog => ?_⟩
  exact b.cued ⟨cd', (bound_coreSlice h.turned.bound cd cd' c).trans slice, .inr (h.due i c bind p ring live of_ prog)⟩

end accept

end Sys2Proof.Machine
end

