-- ==== Sys2Proof/Proofs/Injections.lean ====
section
/-! PROOFS. Injection: every packet of this module leaves with the current epoch, and a leaf packet never waits and is never discarded (R366, R414). -/

namespace Sys2Proof.Machine

/-! ### The epoch, the tables and the rates -/

/-- The fields of the router's registers that sending packets leaves: the epoch, and the count of notifications received. -/
def sentFields : List Fld := [F.ROUTE_EPOCH_CUR, F.ROUTE_CONG_CNP_RX]

/-- The router without the packets that wait, those discarded, and the packets started toward each destination. -/
def RouteSt.tables (r : RouteSt) : RouteSt := { r with waiting := [], lost := [], rates := [] }

/-- The rate toward a destination and when it was set. -/
def Dev.rated (d : Dev) (t : Coord) : Option Nat × Nat := ((d.rateSt t).rate, (d.rateSt t).since)

/-- What starting packets leaves of the router: its tables and lists, the epoch and the count. -/
structure SameRoute (d d' : Dev) : Prop where
  route : d'.route = d.route
  fld : ∀ f ∈ sentFields, d'.fld f = d.fld f

/-- What sending packets leaves of the router. -/
structure SameTables (d d' : Dev) : Prop where
  tables : d'.route.tables = d.route.tables
  rated : ∀ t, d'.rated t = d.rated t
  fld : ∀ f ∈ sentFields, d'.fld f = d.fld f

theorem SameRoute.trans {d d' d'' : Dev} (h : SameRoute d d') (h' : SameRoute d' d'') : SameRoute d d'' :=
  ⟨h'.route.trans h.route, fun f hf => (h'.fld f hf).trans (h.fld f hf)⟩

theorem SameTables.trans {d d' d'' : Dev} (h : SameTables d d') (h' : SameTables d' d'') : SameTables d d'' :=
  ⟨h'.tables.trans h.tables, fun t => (h'.rated t).trans (h.rated t), fun f hf => (h'.fld f hf).trans (h.fld f hf)⟩

theorem SameRoute.refl (d : Dev) : SameRoute d d := ⟨rfl, fun _ _ => rfl⟩

theorem SameRoute.sameTables {d d' : Dev} (h : SameRoute d d') : SameTables d d' :=
  ⟨congrArg RouteSt.tables h.route, fun t => by simp only [Dev.rated, Dev.rateSt, h.route], h.fld⟩

theorem SameTables.refl (d : Dev) : SameTables d d := (SameRoute.refl d).sameTables

theorem SameTables.epoch {d d' : Dev} (h : SameTables d d') : d'.epoch = d.epoch := by
  rw [Dev.epoch, Dev.epoch, Dev.bit, Dev.bit, h.fld _ (by decide)]

/-- A field beside those that sending packets leaves. -/
theorem sameRoute_setFld (d : Dev) {f : Fld} (i : Nat) (g : Nat → Nat) (h : ∀ f' ∈ sentFields, f.apart f' = true) : SameRoute d (d.setFld f i g) :=
  ⟨rfl, fun f' hf => fld_setFld_apart d i 0 g (h f' hf)⟩

theorem sameRoute_countIf (d : Dev) (b : Bool) {f : Fld} (i : Nat) (h : ∀ f' ∈ sentFields, f.apart f' = true) : SameRoute d (d.countIf b f i) := by
  unfold Dev.countIf
  split
  · exact sameRoute_setFld d i _ h
  · exact .refl d

theorem sameRoute_onPort (d : Dev) (p : Nat) (g : PortSt → PortSt) : SameRoute d (d.onPort p g) := ⟨rfl, fun _ _ => rfl⟩
theorem sameRoute_emit (d : Dev) (m : Msg) : SameRoute d (d.emit m) := ⟨rfl, fun _ _ => rfl⟩

theorem sameRoute_freeBuffer (d : Dev) (q : Queued) : SameRoute d (d.freeBuffer q) := by
  unfold Dev.freeBuffer
  split
  · exact sameRoute_onPort ..
  · exact .refl d

theorem sameRoute_startPacket (d : Dev) (o : Nat) (e : Nat × Queued) : SameRoute d (d.startPacket o e) := by
  unfold Dev.startPacket
  exact (((((sameRoute_onPort ..).trans (sameRoute_freeBuffer ..)).trans (sameRoute_setFld _ _ _ (by decide))).trans
    (sameRoute_countIf _ _ _ (by decide))).trans (sameRoute_countIf _ _ _ (by decide))).trans (sameRoute_emit ..)

theorem sameRoute_pumpPort (o n : Nat) (d : Dev) : SameRoute d (d.pumpPort o n) := by
  induction n generalizing d with
  | zero => exact .refl d
  | succ n ih =>
    unfold Dev.pumpPort
    split
    · exact (sameRoute_startPacket d o _).trans (ih _)
    · exact .refl d

theorem sameRoute_pumpPorts (d : Dev) : SameRoute d d.pumpPorts := by
  have ports : ∀ (l : List Nat) (d : Dev), SameRoute d (l.foldl (fun d o => d.pumpPort o (d.port o).queue.length) d) := by
    intro l
    induction l with
    | nil => exact fun d => .refl d
    | cons o l ih => exact fun d => (sameRoute_pumpPort o _ d).trans (ih _)
  exact ports _ d

/-- A change of the packets that wait or were discarded. -/
theorem sameTables_route (d : Dev) (r : RouteSt) (tables : r.tables = d.route.tables) (rates : r.rates = d.route.rates) :
    SameTables d { d with route := r } :=
  ⟨tables, fun t => by simp only [Dev.rated, Dev.rateSt, rates], fun _ _ => rfl⟩

theorem sameRoute_countDrop (d : Dev) {cnt bit : Fld} (hc : ∀ f' ∈ sentFields, cnt.apart f' = true) (hb : ∀ f' ∈ sentFields, bit.apart f' = true) :
    SameRoute d (d.countDrop cnt bit) := ((sameRoute_setFld d 0 _ hc).trans (sameRoute_setFld _ 0 _ hb)).trans (sameRoute_setFld _ 0 _ (by decide))

theorem sameTables_discard (d : Dev) (h : NextHop) (q : Queued) : SameTables d (d.discard h q) := by
  have free := sameRoute_freeBuffer d q
  unfold Dev.discard
  cases h with
  | unreach =>
    dsimp only
    have dropped := free.trans (sameRoute_countDrop _ (cnt := F.ROUTE_DROP_UNREACH) (bit := F.ROUTE_ERR_UNREACH) (by decide) (by decide))
    split
    · exact dropped.sameTables.trans (sameTables_route _ _ rfl rfl)
    · exact dropped.sameTables
  | badEpoch => exact (free.trans (sameRoute_countDrop _ (by decide) (by decide))).sameTables
  | noRole => exact (free.trans (sameRoute_countDrop _ (by decide) (by decide))).sameTables
  | _ => exact free.sameTables

theorem sameTables_routePacket (d : Dev) (q : Queued) : SameTables d (d.routePacket q) := by
  unfold Dev.routePacket
  split
  · exact (sameRoute_onPort ..).sameTables
  · split
    · exact ((sameRoute_onPort ..).trans (sameRoute_emit ..)).sameTables
    · exact .refl _
  · exact sameTables_route _ _ rfl rfl
  · exact sameTables_discard ..

/-- A packet that starts is noted for its destination, whose rate is as before. -/
theorem sameTables_noteStart (d : Dev) (p : Packet) : SameTables d (d.noteStart p) := by
  unfold Dev.noteStart
  split
  · exact .refl _
  · refine ⟨rfl, fun t => ?_, fun _ _ => rfl⟩
    simp only [Dev.rated, Dev.rateSt, mapGet_mapSet]
    split
    · rename_i same
      rw [same]
    · rfl

theorem sameTables_release (ps : List Packet) : ∀ (kept : List Packet) (d : Dev), SameTables d (d.release kept ps) := by
  induction ps with
  | nil => exact fun _ d => sameTables_route d _ rfl rfl
  | cons q ps ih =>
    intro kept d
    unfold Dev.release
    dsimp only
    split
    · exact ih _ _
    · exact ((sameTables_noteStart _ _).trans (sameTables_routePacket _ _)).trans (ih _ _)

theorem sameRoute_hold (d : Dev) (g : Nat → Nat) : SameRoute d (d.setFld F.ROUTE_EPOCH_HOLD_ACTIVE 0 g) := sameRoute_setFld d 0 g (by decide)

/-- What `pump` makes of the ports and of HOLD_ACTIVE, once the waiting packets have been tried. -/
theorem pump_sameRoute (d : Dev) : SameRoute (d.release [] d.route.waiting) d.pump := by
  unfold Dev.pump
  dsimp only
  split
  · exact sameRoute_pumpPorts _
  · exact (sameRoute_hold _ _).trans (sameRoute_pumpPorts _)

theorem sameTables_pump (d : Dev) : SameTables d d.pump := (sameTables_release _ _ _).trans (pump_sameRoute d).sameTables

theorem sameTables_inject (d : Dev) (p : Packet) : SameTables d (d.inject p) := by
  unfold Dev.inject
  dsimp only
  have emits := (sameRoute_emit d (.packet (setFlag p 1 d.epoch))).sameTables
  generalize d.emit (.packet (setFlag p 1 d.epoch)) = e at *
  split
  · exact emits
  · exact SameTables.trans (emits.trans (sameTables_route e { e.route with waiting := e.route.waiting ++ [setFlag p 1 d.epoch] } rfl rfl)) (sameTables_pump _)

/-! ### What leaves -/

/-- A packet of this module leaves with the current epoch (R414). -/
theorem sent_inject (d : Dev) (p : Packet) : Msg.packet (setFlag p 1 d.epoch) ∈ (d.inject p).outbox := by
  unfold Dev.inject
  dsimp only
  split
  · exact List.mem_append_right _ (List.mem_singleton_self _)
  · exact (net_pump _).sent.subset (List.mem_append_right _ (List.mem_singleton_self _))

theorem sent_injects {ps : List Packet} {p : Packet} (h : p ∈ ps) (d : Dev) :
    Msg.packet (setFlag p 1 d.epoch) ∈ (applyAll (ps.map Upd.inject) d).outbox := by
  induction ps generalizing d with
  | nil => cases h
  | cons q ps ih =>
    rw [List.map_cons, applyAll_cons, apply_inject]
    rcases List.mem_cons.1 h with rfl | h
    · exact (sent_applyAll _ _).subset (sent_inject d p)
    · rw [← (sameTables_inject d q).epoch]
      exact ih h _

/-! ### Leaf packets -/

theorem ptype_setFlag (p : Packet) (i : Nat) (b : Bool) : (setFlag p i b).ptype = p.ptype := rfl
theorem isSched_setFlag (p : Packet) (i : Nat) (b : Bool) : isSched (setFlag p i b) = isSched p := rfl

/-- A leaf packet of this module goes to its port. -/
theorem nextHop_leaf (d : Dev) {p : Packet} (leaf : p.ptype.toNat = ptLeaf) : ∃ o vc, d.nextHop ⟨none, p⟩ = .out o vc := by
  unfold Dev.nextHop
  simp only [leaf, if_true]
  exact ⟨_, _, rfl⟩

theorem waits_leaf (d : Dev) {p : Packet} (leaf : p.ptype.toNat = ptLeaf) (sched : isSched p = true) (ahead : List Packet) : d.waits ahead p = false := by
  obtain ⟨o, vc, hop⟩ := nextHop_leaf d leaf
  simp [Dev.waits, Dev.rateHeld, Dev.epochHeld, leaf, sched, hop]

theorem route_noteStart_sched (d : Dev) {p : Packet} (sched : isSched p = true) : d.noteStart p = d := by
  unfold Dev.noteStart
  simp [sched]

theorem route_routePacket_leaf (d : Dev) {p : Packet} (leaf : p.ptype.toNat = ptLeaf) : (d.routePacket ⟨none, p⟩).route = d.route := by
  obtain ⟨o, vc, hop⟩ := nextHop_leaf d leaf
  unfold Dev.routePacket
  rw [hop]
  rfl

/-- A leaf packet goes to its port and leaves the router's lists, where nothing waits. -/
theorem route_inject_leaf (d : Dev) {p : Packet} (leaf : p.ptype.toNat = ptLeaf) (sched : isSched p = true) (idle : d.route.waiting = []) :
    (d.inject p).route = d.route := by
  unfold Dev.inject
  dsimp only
  rw [if_neg (by simp [ptype_setFlag, leaf]), (pump_sameRoute _).route]
  generalize hw : ({ d.emit (.packet (setFlag p 1 d.epoch)) with
    route := { (d.emit (.packet (setFlag p 1 d.epoch))).route with waiting := (d.emit (.packet (setFlag p 1 d.epoch))).route.waiting ++ [setFlag p 1 d.epoch] } } : Dev) = w
  have waiting : w.route.waiting = [setFlag p 1 d.epoch] := by
    rw [← hw]
    exact congrArg (· ++ [_]) idle
  have route : { w.route with waiting := [] } = d.route := by
    rw [← hw, ← idle]
    rfl
  rw [waiting, Dev.release]
  have leaf' : (setFlag (setFlag p 1 d.epoch) 1 w.epoch).ptype.toNat = ptLeaf := leaf
  have sched' : isSched (setFlag (setFlag p 1 d.epoch) 1 w.epoch) = true := sched
  generalize setFlag (setFlag p 1 d.epoch) 1 w.epoch = q at *
  rw [if_neg (by rw [waits_leaf w leaf' sched']; decide), Dev.release, route_noteStart_sched w sched', route_routePacket_leaf w leaf']
  exact route

theorem route_injects_leaf {ps : List Packet} (leaf : ∀ p ∈ ps, p.ptype.toNat = ptLeaf) (sched : ∀ p ∈ ps, isSched p = true) (d : Dev)
    (idle : d.route.waiting = []) : (applyAll (ps.map Upd.inject) d).route = d.route := by
  induction ps generalizing d with
  | nil => rfl
  | cons p ps ih =>
    rw [List.forall_mem_cons] at leaf sched
    rw [List.map_cons, applyAll_cons, apply_inject]
    have one := route_inject_leaf d leaf.1 sched.1 idle
    rw [ih leaf.2 sched.2 _ (by rw [one]; exact idle), one]

/-- The packets of a leaf are leaf packets of SCHED. -/
theorem leafPackets_kind {d : Dev} {k : Nat} {e : LeafExt} {body : List Byte} {p : Packet} (h : p ∈ d.leafPackets k e body) :
    p.ptype.toNat = ptLeaf ∧ isSched p = true := by
  obtain ⟨i, -, rfl⟩ := List.mem_map.1 h
  exact ⟨rfl, rfl⟩

theorem length_leafPackets (d : Dev) (k : Nat) (e : LeafExt) (body : List Byte) : (d.leafPackets k e body).length = 4 := rfl

end Sys2Proof.Machine
end

