-- ==== Sys2Proof/Proofs/OwnLeaves.lean ====
section
/-! PROOFS. O36: the leaves that a module injects as owner, and those of its own that it accepts (R26, R32, R38, R50, R206, R366). -/

namespace Sys2Proof.Machine

/-! ### Blocks asked for again -/

section repair
variable {k : Nat}

theorem forEach_cons {α : Type} (f : α → Act) (x : α) (xs : List α) (d : Dev) : runAct (forEach f (x :: xs)) d = runAct (forEach f xs) (runAct (f x) d) :=
  runAct_inSequence_cons ..

/-- A request for a block adds it to the blocks asked for, and none else. -/
theorem repair_requestRepair (b : Nat) (d : Dev) : (runAct (requestRepair k b) d).repair = if b ∈ d.repair then d.repair else d.repair ++ [b] := by
  have tail {us : List Upd} (h : leaves .repair us) : (applyAll ((.repair fun l => l ++ [b]) :: us) d).repair = d.repair ++ [b] := by
    rw [applyAll_cons, keepAll_repair _ h]
    rfl
  rw [runAct_eq, requestRepair]
  by_cases here : b ∈ d.repair
  · rw [if_pos (List.elem_eq_true_of_mem here), if_pos here]
    rfl
  · have new : ¬ d.repair.contains b = true := by simpa using here
    rw [if_neg new, if_neg here]
    dsimp only
    split
    · refine tail ?_
      split <;> intro u hu <;> simp at hu
      subst hu
      simp
    · refine tail ?_
      intro u hu
      simp only [List.mem_cons, List.not_mem_nil, or_false] at hu
      rcases hu with rfl | rfl <;> simp

theorem repair_grows (b : Nat) (d : Dev) : d.repair ⊆ (runAct (requestRepair k b) d).repair := by
  rw [repair_requestRepair]
  split
  · exact List.Subset.refl _
  · exact List.subset_append_left _ _

theorem mem_requestRepair (b : Nat) (d : Dev) : b ∈ (runAct (requestRepair k b) d).repair := by
  rw [repair_requestRepair]
  split
  · assumption
  · exact List.mem_append_right _ (List.mem_singleton_self b)

/-- Every listed block has been asked for. -/
theorem repair_forEach {bs : List Nat} {b : Nat} (h : b ∈ bs) (d : Dev) : b ∈ (runAct (forEach (requestRepair k) bs) d).repair := by
  induction bs generalizing d with
  | nil => cases h
  | cons c bs ih =>
    rw [forEach_cons]
    rcases List.mem_cons.1 h with rfl | h
    · exact Invariant.forEach (P := fun d => b ∈ d.repair) (fun c _ e he => repair_grows c e he) _ (mem_requestRepair b d)
    · exact ih h _

end repair

/-! ### Injection -/

section leaf
variable {k : Nat} {dir : Dir}

/-- Whether the module begins to read its next leaf (R32, R38). -/
def Dev.injects (d : Dev) (k : Nat) (dir : Dir) (proxy : Bool) : Bool :=
  decide (1 < (d.plan k).len) && d.playsNext k dir proxy && !((d.ring k).dir dir).reading && ((d.ring k).dir dir).rx.isNone

/-- The packets of the next leaf. -/
def Dev.nextLeaf (d : Dev) (k : Nat) (dir : Dir) : List Packet :=
  let day := d.nextDay k dir
  d.leafPackets k (d.leafExt k dir day.1 day.2) (d.readHbm (d.leafAddr k dir day.1 day.2) 16384).1

/-- The credits of the port that the next leaf leaves by. -/
def Dev.leafCredits (d : Dev) (dir : Dir) : Nat :=
  (d.port (dirPort dir)).free (d.schedVc ⟨none, mkOrdered ptLeaf d.here 0 0 []⟩ (dirPort dir))

/-- The next leaf is under way, and its packets leave. -/
def startLeaf (k : Nat) (dir : Dir) (ps : List Packet) : List Upd := .ring k (onDir dir fun s => { s with reading := true }) :: ps.map Upd.inject

variable {d : Dev} {proxy : Bool}

theorem injects_iff : d.injects k dir proxy = true ↔
    1 < (d.plan k).len ∧ d.playsNext k dir proxy = true ∧ ((d.ring k).dir dir).reading = false ∧ ((d.ring k).dir dir).rx = none := by
  simp only [Dev.injects, Bool.and_eq_true, decide_eq_true_eq, Bool.not_eq_true', Option.isNone_iff_eq_none]
  tauto

theorem leafInjectAct_eq (k : Nat) (dir : Dir) (proxy : Bool) (d : Dev) : leafInjectAct k dir proxy d =
    if d.injects k dir proxy = false then []
    else if d.badLeaf k dir (d.nextDay k dir).1 (d.nextDay k dir).2 ≠ [] then
      if proxy then [] else forEach (requestRepair k) (d.badLeaf k dir (d.nextDay k dir).1 (d.nextDay k dir).2) d
    else if d.leafCredits dir < 264 then [] else startLeaf k dir (d.nextLeaf k dir) := by
  have cond : (decide ((d.plan k).len ≤ 1) || !d.playsNext k dir proxy || ((d.ring k).dir dir).reading || ((d.ring k).dir dir).rx.isSome) = true ↔
      d.injects k dir proxy = false := by
    rw [← Bool.not_eq_true, injects_iff]
    simp only [Bool.or_eq_true, decide_eq_true_eq, Bool.not_eq_true', Option.isSome_iff_ne_none]
    grind
  have bads : (!(d.badLeaf k dir (d.nextDay k dir).1 (d.nextDay k dir).2).isEmpty) = true ↔ d.badLeaf k dir (d.nextDay k dir).1 (d.nextDay k dir).2 ≠ [] := by simp
  refine (if_congr cond rfl ?_).trans rfl
  exact if_congr bads rfl rfl

theorem confines_startLeaf (ps : List Packet) : Confined [.rings, .regs, .ports, .route, .chain, .outbox] routerRegs (startLeaf k dir ps) := by
  simp only [startLeaf, confined_cons, confined_map]
  exact ⟨rfl, fun _ _ => rfl⟩

/-- A command that discards no packet fences nothing. -/
theorem Behind.ring {e d : Dev} (b : Behind e d) (none_ : e.route.lost = []) (o : Nat) : d.ring o = e.ring o := by
  rw [b.quiet.ring, runAct_eq, fenceLost, none_]
  rfl

theorem angle_of_confined {ps : List Part} {rs : List Reg} {us : List Upd} (h : Confined ps rs us) (regs : ∀ f ∈ angleFields dir, f.reg ∉ rs) (d : Dev) :
    (applyAll us d).angle k dir = d.angle k dir := angle_congr fun f hf => h.fld d (regs f hf) k

theorem angleFields_routerRegs (dir : Dir) : ∀ f ∈ angleFields dir, f.reg ∉ routerRegs := by cases dir <;> decide

/-- What the router sends leaves HBM and the angle. -/
theorem behind_routed {ps : List Part} {a : Act} {d' : Dev} (h : Confined ps routerRegs (a d)) (hbm : Part.hbm ∉ ps) (b : Behind (runAct a d) d') :
    d'.hbm = d.hbm ∧ d'.angle k dir = d.angle k dir :=
  ⟨b.hbm.trans ((runAct_eq a d).symm ▸ keepAll_hbm d (h.leaves hbm)),
    b.angle.trans ((runAct_eq a d).symm ▸ angle_of_confined h (angleFields_routerRegs dir) d)⟩

/-- The next leaf is read and leaves. -/
theorem completes_leafInject {s : State} {k : Fin 4} (hs : s.dev.steady) (ready : s.dev.injects k dir proxy = true)
    (good : s.dev.badLeaf k dir (s.dev.nextDay k dir).1 (s.dev.nextDay k dir).2 = []) (credits : 264 ≤ s.dev.leafCredits dir) :
    Completes (.leafInject k dir proxy) s fun d => (∀ p ∈ s.dev.nextLeaf k dir, Msg.packet (setFlag p 1 s.dev.epoch) ∈ d.outbox) ∧
      (s.dev.nextLeaf k dir).length = 4 ∧ d.hbm = s.dev.hbm ∧ d.angle k dir = s.dev.angle k dir ∧
      (s.dev.route.waiting = [] → ((d.ring k).dir dir).reading = true) := by
  refine completes_behind rfl hs fun d b => ?_
  have act : leafInjectAct k dir proxy s.dev = startLeaf k dir (s.dev.nextLeaf k dir) := by
    rw [leafInjectAct_eq, if_neg (by rw [ready]; decide), if_neg (not_not.2 good), if_neg (Nat.not_lt.2 credits)]
  have confined : Confined [.rings, .regs, .ports, .route, .chain, .outbox] routerRegs (leafInjectAct k dir proxy s.dev) := act ▸ confines_startLeaf _
  obtain ⟨hbm, angle⟩ := behind_routed (k := k) (dir := dir) confined (by decide) b
  rw [runAct_eq, act, startLeaf, applyAll_cons] at b
  refine ⟨fun p hp => b.sent (sent_injects hp _), rfl, hbm, angle, fun idle => ?_⟩
  have reads : (((Upd.ring k (onDir dir fun s => { s with reading := true })).apply s.dev).ring k).dir dir = { (s.dev.ring k).dir dir with reading := true } := by
    rw [ring_apply_same, dir_onDir, if_pos rfl]
  have lost : ((Upd.ring k (onDir dir fun s => { s with reading := true })).apply s.dev).route = s.dev.route := rfl
  generalize (Upd.ring k (onDir dir fun s => { s with reading := true })).apply s.dev = m at *
  have route := route_injects_leaf (fun p hp => (leafPackets_kind hp).1) (fun p hp => (leafPackets_kind hp).2) m (by rw [lost]; exact idle) (ps := s.dev.nextLeaf k dir)
  have rings : (applyAll ((s.dev.nextLeaf k dir).map Upd.inject) m).rings = m.rings :=
    keepAll_rings m (Confined.leaves (ps := [.regs, .ports, .route, .chain, .outbox]) (rs := routerRegs) ((confined_map ..).2 fun _ _ => rfl) (by decide))
  rw [b.ring (by rw [route, lost]; exact hs.2), ring_of_rings rings, reads]

/-- The bad blocks of the next leaf are asked for again. -/
theorem completes_leafRepair {s : State} {k : Fin 4} (hs : s.dev.steady) (ready : s.dev.injects k dir false = true) {b : Nat}
    (bad : b ∈ s.dev.badLeaf k dir (s.dev.nextDay k dir).1 (s.dev.nextDay k dir).2) :
    Completes (.leafInject k dir false) s fun d => b ∈ d.repair ∧ d.hbm = s.dev.hbm ∧ d.angle k dir = s.dev.angle k dir := by
  refine completes_behind rfl hs fun d behind => ?_
  have act : leafInjectAct k dir false s.dev = forEach (requestRepair k) (s.dev.badLeaf k dir (s.dev.nextDay k dir).1 (s.dev.nextDay k dir).2) s.dev := by
    rw [leafInjectAct_eq, if_neg (by rw [ready]; decide), if_pos (List.ne_nil_of_mem bad)]
    rfl
  have confined : Confined repairParts routerRegs (leafInjectAct k dir false s.dev) := act ▸ Confines.forEach (fun b _ => confines_requestRepair k b) s.dev
  obtain ⟨hbm, angle⟩ := behind_routed (k := k) (dir := dir) confined (by decide) behind
  refine ⟨?_, hbm, angle⟩
  rw [behind.repair, runAct_of_eq act]
  exact repair_forEach bad s.dev

/-! ### Acceptance -/

theorem days_lt (d : Dev) (k : Nat) (dir : Dir) (year : Nat) : (d.plan k).days dir year < 2 ^ 32 := by
  have width (f : Fld) (h : f.hi - f.lo + 1 = 32) : d.fld f k < 2 ^ 32 := h ▸ fld_lt d f k
  unfold RPlan.days RPlan.fwdDays
  split
  · exact width F.RING_DAYS_DAYS_CW rfl
  · exact width F.RING_DAYS_DAYS_CCW rfl

theorem firstDay_lt (p : RPlan) (dir : Dir) (year : Nat) : (p.firstDay dir year).1 < 2 ^ 32 ∧ (p.firstDay dir year).2 < 2 ^ 32 := by
  unfold RPlan.firstDay yearMod
  dsimp only
  split <;> exact ⟨Nat.mod_lt _ (by decide), Nat.two_pow_pos 32⟩

/-- A day and its year fit the extension of a leaf. -/
theorem nextDay_lt (d : Dev) (k : Nat) (dir : Dir) : (d.nextDay k dir).1 < 2 ^ 32 ∧ (d.nextDay k dir).2 < 2 ^ 32 := by
  have year : d.fld (angleYear dir) k < 2 ^ 32 := by cases dir <;> exact fld_lt d _ k
  unfold Dev.nextDay
  dsimp only
  split
  · rename_i y dd angle
    unfold Dev.angle at angle
    split at angle
    · cases angle
      unfold RPlan.succ
      split
      · rename_i more
        exact ⟨year, more.trans (days_lt d k dir _)⟩
      · exact firstDay_lt ..
    · cases angle
  · exact firstDay_lt ..

/-- The extension of a leaf names its day. -/
theorem leafExt_day {year day : Nat} (hy : year < 2 ^ 32) (hd : day < 2 ^ 32) :
    (d.leafExt k dir year day).year.toNat = year ∧ (d.leafExt k dir year day).day.toNat = day :=
  ⟨Nat.mod_eq_of_lt hy, Nat.mod_eq_of_lt hd⟩

/-- The own leaf that may be accepted. -/
def Dev.mayAccept (d : Dev) (k : Nat) (dir : Dir) (loop : Bool) : Bool :=
  if loop then decide ((d.plan k).len = 1) && d.playsNext k dir false else ((d.ring k).dir dir).reading && !d.ringFenced k

/-- An own leaf is accepted. -/
def Dev.acceptOwn (d : Dev) (k : Nat) (dir : Dir) (source : Nat) : Act :=
  acceptLeaf k dir (d.leafExt k dir (d.nextDay k dir).1 (d.nextDay k dir).2)
    (d.readHbm (d.leafAddr k dir (d.nextDay k dir).1 (d.nextDay k dir).2) 16384).1 source noAct

/-- The command by which an own leaf is accepted, and its act. -/
def ownInstr (k : Fin 4) (dir : Dir) (loop : Bool) : Instr := if loop then .residentLoopbackLeaf k dir else .ownLeafAccept k dir
def ownAct (k : Nat) (dir : Dir) (loop : Bool) : Act := if loop then residentLoopbackLeafAct k dir else ownLeafAcceptAct k dir

theorem exec_ownInstr (k : Fin 4) (dir : Dir) (loop : Bool) (s : State) : exec (ownInstr k dir loop) s = perform (onPower (ownAct k dir loop)) s := by
  cases loop <;> rfl

theorem ownAct_accepts {loop : Bool} (may : d.mayAccept k dir loop = true)
    (good : loop = true → d.badLeaf k dir (d.nextDay k dir).1 (d.nextDay k dir).2 = []) :
    ownAct k dir loop d = d.acceptOwn k dir (if loop then 7 else 6) d := by
  cases loop with
  | false =>
    obtain ⟨reading, fenced⟩ : ((d.ring k).dir dir).reading = true ∧ d.ringFenced k = false := by simpa [Dev.mayAccept] using may
    exact if_neg (by rw [reading, fenced]; decide)
  | true =>
    obtain ⟨one, plays⟩ : (d.plan k).len = 1 ∧ d.playsNext k dir false = true := by simpa [Dev.mayAccept] using may
    refine (if_neg (by simp [one, plays])).trans ?_
    have none_ : ¬ (!(d.badLeaf k dir (d.nextDay k dir).1 (d.nextDay k dir).2).isEmpty) = true := by rw [good rfl]; decide
    exact if_neg none_

theorem ownAct_refuses {loop : Bool} (may : d.mayAccept k dir loop = false) : ownAct k dir loop d = [] := by
  cases loop with
  | false => exact if_pos (by revert may; simp [Dev.mayAccept]; grind)
  | true => exact if_pos (by revert may; simp [Dev.mayAccept]; grind)

theorem completes_acceptOwn {s : State} {k : Fin 4} {loop : Bool} (hs : s.dev.steady) (canonical : s.dev.Canonical)
    (may : s.dev.mayAccept k dir loop = true) (good : loop = true → s.dev.badLeaf k dir (s.dev.nextDay k dir).1 (s.dev.nextDay k dir).2 = [])
    (takes : s.dev.takesLeaf k dir (s.dev.leafExt k dir (s.dev.nextDay k dir).1 (s.dev.nextDay k dir).2)
      (s.dev.readHbm (s.dev.leafAddr k dir (s.dev.nextDay k dir).1 (s.dev.nextDay k dir).2) 16384).1 = true) :
    Completes (ownInstr k dir loop) s fun d => s.dev.turned d k dir (s.dev.nextDay k dir).1 (s.dev.nextDay k dir).2 := by
  refine completes_behind (exec_ownInstr k dir loop s) hs fun d b => ?_
  rw [runAct_of_eq (ownAct_accepts may good), Dev.acceptOwn] at b
  have done := leafDone_acceptLeaf (after := noAct) canonical (fun _ => each_nil) (if loop then 7 else 6) takes
  obtain ⟨year, day⟩ := leafExt_day (d := s.dev) (k := k) (dir := dir) (nextDay_lt s.dev k dir).1 (nextDay_lt s.dev k dir).2
  have turned := done.settled canonical (canonical_applyAll _ canonical) b
  rw [year, day] at turned
  exact turned

end leaf

/-- Settles O36: by the branches of each command; an acceptance through what each part of it leaves. -/
theorem ownLeavesAreInjectedAndAccepted : Obligations.OwnLeavesAreInjectedAndAccepted := by
  unfold Obligations.OwnLeavesAreInjectedAndAccepted
  dsimp only
  refine ⟨fun s k dir proxy hs => ⟨fun ready good credits => completes_leafInject hs ready good credits, ?_, ?_⟩,
    fun s k dir loop hs canonical => ⟨fun may good takes => completes_acceptOwn hs canonical may good takes, ?_⟩⟩
  · rintro ready rfl b hb -
    exact completes_leafRepair hs ready hb
  · rintro (idle | ⟨good, low⟩)
    · exact completes_quiet rfl hs (by rw [leafInjectAct_eq]; exact if_pos idle)
    · refine completes_quiet rfl hs ?_
      rw [leafInjectAct_eq]
      split
      · rfl
      · rw [if_neg (not_not.2 good), if_pos (show s.dev.leafCredits dir < 264 from low)]
  · rintro (no | ⟨held, good⟩)
    · exact completes_quiet (exec_ownInstr k dir loop s) hs (ownAct_refuses no)
    · refine completes_quiet (exec_ownInstr k dir loop s) hs ?_
      by_cases may : s.dev.mayAccept k dir loop = true
      · rw [ownAct_accepts may good]
        obtain ⟨year, day⟩ := leafExt_day (d := s.dev) (k := k) (dir := dir) (nextDay_lt s.dev k dir).1 (nextDay_lt s.dev k dir).2
        exact acceptLeaf_held _ _ _ _ (by rw [year, day]; exact held)
      · exact ownAct_refuses (Bool.not_eq_true _ ▸ may)

end Sys2Proof.Machine
end

