-- ==== Sys2Proof/Proofs/LeavesReceived.lean ====
section
/-! PROOFS. O37: the packets of a received leaf, and the leaves that fail a check (R38, R44, R47, R48). -/

namespace Sys2Proof.Machine

/-! ### Delivery -/

/-- A packet that may be delivered, without a congestion mark, is taken at once (R422, R430). -/
theorem deliver_eq {d : Dev} {p : Packet} (k : Act) (here : d.deliverable p = true) (free : d.fencedPacket (pktVc p) p.key = false) (unmarked : p.ce = false) :
    deliver p k d = k d := by
  have quiet : notifySource p d = [] := if_neg (by rw [unmarked]; exact Bool.false_ne_true)
  have act : deliver p k d = inSequence [notifySource p, k] d := (if_neg (by rw [here]; decide)).trans (if_neg (by rw [free]; decide))
  rw [act, inSequence_skip quiet, inSequence_one]

/-! ### Ring faults -/

/-- The error bits of RING_ERR (R68). -/
def ringBits : List Fld :=
  [F.RING_ERR_ELEMS, F.RING_ERR_INCOMPLETE, F.RING_ERR_MISMATCH, F.RING_ERR_RESERVED_VAL, F.RING_ERR_ORDER, F.RING_ERR_OWNER, F.RING_ERR_HOPS,
    F.RING_ERR_GEN, F.RING_ERR_KEY, F.RING_ERR_UNARMED]

theorem ringBit_error {f : Fld} (h : f ∈ ringBits) : ErrorBit f ∧ f.reg = .RING_ERR := by
  simp only [ringBits, List.mem_cons, List.not_mem_nil, or_false] at h
  rcases h with rfl | rfl | rfl | rfl | rfl | rfl | rfl | rfl | rfl | rfl <;> exact ⟨⟨by decide, rfl, by decide⟩, rfl⟩

/-- The bits of a ring fault and its count. -/
def ringFlags (k : Nat) (bits : List Fld) : List Upd := (bits.map fun b => setF b k 1) ++ [satF F.RING_ERR_FAULTS k 1]

/-- What a ring fault does (R48, R458). -/
theorem ringFault_eq (k : Nat) (bits : List Fld) (e : LeafExt) (d : Dev) : ringFault k bits e d = match d.sliceOf (e.pkey.truncate 12) with
    | none => ringFlags k bits
    | some i =>
      let s := d.slice i
      let r := s.repeats.at s.nextStep
      let key := (e.dir, e.year.toNat, e.day.toNat)
      if r.ringDays.contains key then inSequence [fun _ => ringFlags k bits, fenceSlice i 3, fun d' =>
        [.send (.mgmt d'.coordinator (.faultReport 3 (d.leafSender k e.dir) none [s.pkey])),
          .event 6 ([3, 0] ++ leBytes 2 (d.leafSender k e.dir).toNat ++ leBytes 2 s.pkey.toNat)]] d
      else inSequence [fun _ => ringFlags k bits ++ [.slice i fun s => { s with repeats := { r with ringDays := r.ringDays ++ [key] } }], faultSlice i 1] d := rfl

section fault
variable {k : Nat} {bits : List Fld} (known : ∀ f ∈ bits, f ∈ ringBits)
include known

theorem tame_ringFlags : Tame [.regs] [.RING_ERR] (ringFlags k bits) := by
  rw [ringFlags, tame_append, tame_map, tame_cons]
  refine ⟨fun f hf => ?_, ⟨rfl, fun _ => .inl (by decide), nofun⟩, tame_nil⟩
  obtain ⟨⟨-, one, low⟩, reg⟩ := ringBit_error (known f hf)
  exact ⟨by simp [Upd.confined, setF, Upd.writes, reg], fun _ => .inr ⟨one, low, fun _ => rfl⟩, fun link => absurd (reg.symm.trans link) (by decide)⟩

theorem set_ringFlags {f : Fld} (hf : f ∈ bits) (d : Dev) : (applyAll (ringFlags k bits) d).fld f k = 1 := by
  obtain ⟨as, bs, rfl⟩ := List.append_of_mem hf
  have tame := tame_ringFlags (k := k) known
  obtain ⟨error, -⟩ := ringBit_error (known f hf)
  rw [ringFlags, List.map_append, List.map_cons, List.append_assoc, List.cons_append, tame_append, tame_cons] at tame
  obtain ⟨-, -, rest⟩ := tame
  rw [ringFlags, List.map_append, List.map_cons, List.append_assoc, List.cons_append, applyAll_append, applyAll_cons]
  refine rest.error _ error ?_
  rw [fld_setF, ← error.2.1, Nat.sub_self]
  rfl

/-- The parts and registers of a ring fault. -/
def ringFaultRegs : List Reg := .RING_ERR :: fenceRegs

/-- A ring fault sets its bits and fences the slice. -/
theorem ringFault_reads (e : LeafExt) (d : Dev) : Tame fenceParts ringFaultRegs (ringFault k bits e d) ∧
    (∀ f ∈ bits, (applyAll (ringFault k bits e d) d).fld f k = 1) ∧
    ∀ i, d.sliceOf (e.pkey.truncate 12) = some i → (d.slice i).desc.isSome = true → ((applyAll (ringFault k bits e d) d).slice i).fenced = true := by
  have flags : Tame fenceParts ringFaultRegs (ringFlags k bits) := (tame_ringFlags known).mono (by decide) (by decide)
  rw [ringFault_eq]
  split
  · rename_i none_
    exact ⟨flags, fun f hf => set_ringFlags known hf d, fun i found => absurd (none_.symm.trans found) (by simp)⟩
  rename_i j found
  dsimp only
  split
  · have fence := (tames_fenceSlice j 3).mono (rs' := ringFaultRegs) (List.Subset.refl _) (by decide)
    have sends (d' : Dev) : Tame fenceParts ringFaultRegs [Upd.send (.mgmt d'.coordinator (.faultReport 3 (d.leafSender k e.dir) none [(d.slice j).pkey])),
        .event 6 ([3, 0] ++ leBytes 2 (d.leafSender k e.dir).toNat ++ leBytes 2 (d.slice j).pkey.toNat)] := by
      rw [tame_cons, tame_cons]
      exact ⟨tame_of_plain rfl, tame_of_plain rfl, tame_nil⟩
    refine ⟨Tames.cons (fun _ => flags) (Tames.cons fence (Tames.cons (as := []) sends Tames.nil)) d, fun f hf => ?_, fun i here desc => ?_⟩ <;>
      rw [← runAct_eq, runAct_three, runAct_eq, (runAct_eq (fun _ => ringFlags k bits))]
    · exact (sends _).error _ (ringBit_error (known f hf)).1 ((runAct_eq (fenceSlice j 3) _).symm ▸ (fence _).error _ (ringBit_error (known f hf)).1 (set_ringFlags known hf d))
    · obtain rfl := Option.some.inj (found.symm.trans here)
      exact (sends _).fenced _ (fenced_fenceSlice (by rw [flags.desc]; exact desc) 3)
  · generalize hu : ringFlags k bits ++ [Upd.slice j fun s => { s with repeats := _ }] = us
    have marks : Tame fenceParts ringFaultRegs us := by
      rw [← hu, tame_append, tame_cons]
      exact ⟨flags, ⟨rfl, fun _ => ⟨rfl, id, id⟩⟩, tame_nil⟩
    have fence := (tames_faultSlice j 1).mono (rs' := ringFaultRegs) (List.Subset.refl _) (by decide)
    refine ⟨Tames.cons (fun _ => marks) (Tames.cons (as := []) fence Tames.nil) d, fun f hf => ?_, fun i here desc => ?_⟩ <;>
      rw [← runAct_eq, runAct_two]
    · rw [runAct_eq (faultSlice j 1), runAct_eq]
      refine (fence _).error _ (ringBit_error (known f hf)).1 ?_
      have set := set_ringFlags (k := k) known hf d
      rw [← hu, applyAll_append]
      exact set
    · obtain rfl := Option.some.inj (found.symm.trans here)
      exact fenced_faultSlice (by rw [runAct_eq, marks.desc]; exact desc) 1

end fault

theorem leafFails_known {d : Dev} {k : Nat} {e : LeafExt} : ∀ f ∈ d.leafFails k e, f ∈ ringBits := by
  have one {b : Bool} {x f : Fld} (hx : x ∈ ringBits) (h : f ∈ (if b then [x] else [])) : f ∈ ringBits := by
    cases b with
    | false => cases h
    | true => exact List.mem_singleton.1 h ▸ hx
  intro f hf
  simp only [Dev.leafFails, List.mem_append] at hf
  rcases hf with (((((h | h) | h) | h) | h) | h) | h
  all_goals exact one (by decide) h

/-! ### Packets in order -/

section receive
variable {k p : Nat} {pkt : Packet} {e : LeafExt} {rx : LeafRx} {d : Dev}

/-- A leaf packet that goes on leaves what the router's lists hold, where nothing waits. -/
theorem route_forwardLeaf (idle : d.route.waiting = []) : (runAct (forwardLeaf p pkt e) d).route = d.route := by
  rw [runAct_eq]
  have pumped (d : Dev) (idle : d.route.waiting = []) : d.pump.route = d.route := by
    rw [(pump_sameRoute d).route, idle, Dev.release, ← idle]
  unfold forwardLeaf
  dsimp only
  rw [applyAll_cons, applyAll_cons, applyAll_nil]
  generalize hm : (Upd.port (dirPort e.dir) _).apply d = m
  have route : m.route = d.route := hm ▸ rfl
  rw [← route]
  exact pumped m (by rw [route]; exact idle)

theorem confines_forwardLeaf : Confines [.ports, .regs, .route, .chain, .outbox] routerRegs (forwardLeaf p pkt e) := fun d => by
  simp only [forwardLeaf, confined_cons, confined_nil, and_true]
  exact ⟨rfl, rfl⟩

/-- What a leaf packet that is received does beside its leaf: it is forwarded where the leaf goes on (R44). -/
def passLeaf (p : Nat) (pkt : Packet) (e : LeafExt) : Act := onlyIf (forwards e) (forwardLeaf p pkt e)

theorem confines_passLeaf : Confines [.ports, .regs, .route, .chain, .outbox] routerRegs (passLeaf p pkt e) := confines_forwardLeaf.onlyIf

theorem route_passLeaf (idle : d.route.waiting = []) : (runAct (passLeaf p pkt e) d).route = d.route := by
  unfold passLeaf
  cases forwards e with
  | false => rw [runAct_onlyIf_false]
  | true => rw [runAct_onlyIf_true]; exact route_forwardLeaf idle

/-- A direction receives a leaf. -/
def holdRx (k : Nat) (dir : Dir) (rx : LeafRx) : Act := fun _ => [.ring k (onDir dir fun s => { s with rx := some rx })]

theorem leafPacket_open (more : rx.next < 3) : leafPacket k p pkt e rx d =
    inSequence [holdRx k e.dir { rx with next := rx.next + 1, body := rx.body ++ pkt.payload }, passLeaf p pkt e] d := if_pos more

theorem leafPacket_last (last : rx.next = 3) (leaf : e.isEnd = false) : leafPacket k p pkt e rx d =
    acceptLeaf k e.dir rx.ext (rx.body ++ pkt.payload) p (passLeaf p pkt e) d :=
  (if_neg (by omega)).trans (if_neg (by rw [leaf]; exact Bool.false_ne_true))

/-- A packet before the last is held. -/
theorem completes_leafHeld {s : State} {a : Act} {ins : Instr} (he : exec ins s = perform (onPower a) s) (hs : s.dev.steady) (idle : s.dev.route.waiting = [])
    (act : a s.dev = inSequence [holdRx k e.dir rx, passLeaf p pkt e] s.dev) : Completes ins s fun d =>
    ((d.ring k).dir e.dir).rx = some rx ∧ d.hbm = s.dev.hbm ∧ d.angle k e.dir = s.dev.angle k e.dir := by
  refine completes_behind he hs fun d b => ?_
  have confined : Confined [.rings, .ports, .regs, .route, .chain, .outbox] routerRegs (a s.dev) := by
    rw [act]
    exact confines_inSequence_cons (fun _ => (confined_cons ..).2 ⟨rfl, confined_nil⟩)
      (confines_inSequence_cons (as := []) (confines_passLeaf.mono (by decide) (List.Subset.refl _)) Confines.nil) s.dev
  obtain ⟨hbm, angle⟩ := behind_routed (k := k) (dir := e.dir) confined (by decide) b
  refine ⟨?_, hbm, angle⟩
  rw [runAct_of_eq act, runAct_two] at b
  have holds : ((runAct (holdRx k e.dir rx) s.dev).ring k).dir e.dir = { (s.dev.ring k).dir e.dir with rx := some rx } := by
    rw [runAct_eq, holdRx, applyAll_cons, applyAll_nil, ring_apply_same, dir_onDir, if_pos rfl]
  have route : (runAct (holdRx k e.dir rx) s.dev).route = s.dev.route := rfl
  generalize runAct (holdRx k e.dir rx) s.dev = m at *
  have passed := route_passLeaf (p := p) (pkt := pkt) (e := e) (d := m) (by rw [route]; exact idle)
  have rings : (runAct (passLeaf p pkt e) m).rings = m.rings := keepAll_rings m ((confines_passLeaf m).leaves (by decide))
  rw [b.ring (by rw [passed, route]; exact hs.2), ring_of_rings rings, holds]

/-- The direction whose leaf a packet continues. -/
def Dev.receiving (d : Dev) (dir : Dir) : Option (Nat × LeafRx) := [0, 1, 2, 3].findSome? fun k => ((d.ring k).dir dir).rx.map fun x => (k, x)

theorem receiving_none {dir : Dir} (h : ∀ o, o < 4 → ((d.ring o).dir dir).rx = none) : d.receiving dir = none := by
  simp [Dev.receiving, h]

theorem receiving_first {dir : Dir} (h : ((d.ring k).dir dir).rx = some rx) (first : ∀ o, o < k → ((d.ring o).dir dir).rx = none) (four : k < 4) :
    d.receiving dir = some (k, rx) := by
  interval_cases k <;> simp [Dev.receiving, h, first]

/-- The checks of a packet that opens a leaf. -/
def Dev.openFails (d : Dev) (k : Nat) (e : LeafExt) : List Fld := d.leafFails k e ++ (if e.pktIdx.toNat % 4 = 0 then [] else [F.RING_ERR_INCOMPLETE])

theorem receiveLeaf_open (fresh : d.receiving e.dir = none) (bound : d.leafContext e.dir = some k) : receiveLeaf p pkt e d =
    if !(d.openFails k e).isEmpty then ringFault k (d.openFails k e) e d else if e.grad then [] else leafPacket k p pkt e ⟨e, 0, [], p, pktVc pkt⟩ d := by
  unfold receiveLeaf
  dsimp only
  rw [show ([0, 1, 2, 3].findSome? fun k => ((d.ring k).dir e.dir).rx.map fun x => (k, x)) = none from fresh]
  dsimp only
  rw [bound]
  rfl

theorem receiveLeaf_next (held : d.receiving e.dir = some (k, rx)) (order : e.pktIdx.toNat % 4 = rx.next) (same : { e with pktIdx := rx.ext.pktIdx } = rx.ext)
    (good : leafReserved e = false) : receiveLeaf p pkt e d = leafPacket k p pkt e rx d := by
  unfold receiveLeaf
  dsimp only
  rw [show ([0, 1, 2, 3].findSome? fun k => ((d.ring k).dir e.dir).rx.map fun x => (k, x)) = some (k, rx) from held]
  simp [order, same, good]

theorem openFails_known : ∀ f ∈ d.openFails k e, f ∈ ringBits := by
  intro f hf
  rcases List.mem_append.1 hf with h | h
  · exact leafFails_known f h
  · split at h
    · cases h
    · exact List.mem_singleton.1 h ▸ by decide

theorem angleFields_ringFaultRegs (dir : Dir) : ∀ f ∈ angleFields dir, f.reg ∉ ringFaultRegs := by cases dir <;> decide

/-- A leaf that fails a check is a ring fault. -/
theorem completes_leafFault {s : State} {a : Act} {ins : Instr} {bits : List Fld} (he : exec ins s = perform (onPower a) s) (hs : s.dev.steady)
    (known : ∀ f ∈ bits, f ∈ ringBits) (act : a s.dev = ringFault k bits e s.dev) : Completes ins s fun d =>
    (∀ f ∈ bits, d.fld f k = 1) ∧ d.hbm = s.dev.hbm ∧ d.angle k e.dir = s.dev.angle k e.dir ∧
    ∀ i, s.dev.sliceOf (e.pkey.truncate 12) = some i → (s.dev.slice i).desc.isSome = true → (d.slice i).fenced = true := by
  refine completes_behind he hs fun d b => ?_
  rw [runAct_of_eq act, runAct_eq] at b
  obtain ⟨tame, sets, fences⟩ := ringFault_reads (k := k) known e s.dev
  exact ⟨fun f hf => b.error (ringBit_error (known f hf)).1 (sets f hf), b.hbm.trans (keepAll_hbm s.dev (tame.confined.leaves (by decide))),
    b.angle.trans (angle_of_confined tame.confined (angleFields_ringFaultRegs e.dir) s.dev), fun i found desc => b.fenced (fences i found desc)⟩

end receive

/-- Settles O37: by whether a leaf is under way in the direction, and by what its packet or its checks make of it. -/
theorem leavesAreReceived : Obligations.LeavesAreReceived := by
  unfold Obligations.LeavesAreReceived
  dsimp only
  intro s p pkt hs canonical here free leaf unmarked idle
  generalize he : leafOfBytes pkt.ext = e
  have act : leafPacketReceiveAct p pkt s.dev = receiveLeaf p pkt e s.dev := by
    rw [leafPacketReceiveAct, deliver_eq _ here free unmarked, if_neg (not_not.2 leaf), he]
  refine ⟨fun k none_ bound weight => ⟨fun fails => ?_, fun fails => ?_⟩, fun k rx held first four order same good leafy => ⟨fun more => ?_, fun last takes => ?_,
    fun last held_ => ?_⟩⟩
  · have fails : s.dev.openFails k e = [] := fails
    refine completes_leafHeld (p := p) (pkt := pkt) rfl hs idle ?_
    rw [act, receiveLeaf_open (receiving_none none_) bound, fails, weight]
    exact leafPacket_open (rx := ⟨e, 0, [], p, pktVc pkt⟩) (Nat.zero_lt_succ 2)
  · have fails : s.dev.openFails k e ≠ [] := fails
    refine completes_leafFault rfl hs openFails_known ?_
    rw [act, receiveLeaf_open (receiving_none none_) bound, if_pos (by simpa using fails)]
    rfl
  all_goals have next := act.trans (receiveLeaf_next (receiving_first held first four) order same good)
  · exact (completes_leafHeld rfl hs idle (next.trans (leafPacket_open more))).imp fun d h => ⟨h.1, h.2.1⟩
  · refine completes_behind rfl hs fun d b => ?_
    rw [runAct_of_eq (next.trans (leafPacket_last last leafy))] at b
    have calm : Calms k e.dir (passLeaf p pkt e) := confines_passLeaf.calm (by decide) (by decide) (by decide)
    exact (leafDone_acceptLeaf canonical calm p takes).settled canonical (canonical_applyAll _ canonical) b
  · exact completes_quiet rfl hs ((next.trans (leafPacket_last last leafy)).trans (acceptLeaf_held _ _ _ _ held_))

end Sys2Proof.Machine
end

