-- ==== Sys2Proof/Proofs/ShareRepair.lean ====
section
/-! PROOFS. O40: refresh, fatal channel errors, and the repair of a share block (R203, R206, R207, R261, R463). -/

namespace Sys2Proof.Machine

/-! ### Acts that make no block bad -/

/-- An update that asks for no block, makes none bad, and leaves HBM_ERR. -/
structure Upd.blockless (u : Upd) : Prop where
  repair : Part.repair ∉ u.touches
  errors : Reg.HBM_ERR ∉ u.writes
  bad : ∀ d, (u.apply d).hbmBad ⊆ d.hbmBad

theorem Upd.calm.blockless {k : Nat} {dir : Dir} {u : Upd} (h : u.calm k dir) : u.blockless := ⟨h.repair, h.errors, h.bad⟩

theorem Calms.blockless {k : Nat} {dir : Dir} {a : Act} (h : Calms k dir a) : Makes Upd.blockless a := fun d u hu => (h d u hu).blockless

theorem Confined.blockless {ps : List Part} {rs : List Reg} {us : List Upd} (h : Confined ps rs us) (repair : Part.repair ∉ ps) (bad : Part.hbmBad ∉ ps)
    (errors : Reg.HBM_ERR ∉ rs) : Each Upd.blockless us := fun u hu => by
  have one := Upd.confined_one (h u hu)
  exact {
    repair := one.leaves repair u (List.mem_singleton_self u)
    errors := by
      have := h u hu
      simp only [Upd.confined, Bool.and_eq_true, List.all_eq_true, decide_eq_true_eq] at this
      exact fun hw => errors (this.2 _ hw)
    bad := fun d => by
      have same : (u.apply d).hbmBad = d.hbmBad := keepAll_hbmBad (us := [u]) d (one.leaves bad)
      rw [same]
      exact List.Subset.refl _ }

theorem blockless_completeLeaf (k : Nat) (dir : Dir) (e : LeafExt) (body : List Byte) (code : Option Expanded) (source : Nat) :
    Makes Upd.blockless (completeLeaf k dir e body code source) := fun d => by
  rw [completeLeaf_eq]
  refine Makes.cons (calms_noteFindings (k := k) (dir := dir) e code source _).blockless
    (Makes.cons (calms_catchUpStore (k := k) (dir := dir) k dir e body).blockless
    (Makes.cons (fun d => (confined_turnAngle k dir e _ d).blockless (by decide) (by decide) (by decide)) (Makes.cons (fun d => ?_)
    (calms_leafEnd (k := k) (dir := dir) e _).blockless))) d
  unfold offerLeaf
  split
  · exact (confined_offerDay k d).blockless (by decide) (by decide) (by decide)
  · exact each_nil

theorem blockless_acceptLeaf (k : Nat) (dir : Dir) (e : LeafExt) (body : List Byte) (source : Nat) : Makes Upd.blockless (acceptLeaf k dir e body source noAct) := by
  intro d
  unfold acceptLeaf
  dsimp only
  rw [each_ite]
  refine ⟨fun _ => each_nil, fun _ => Makes.cons (calms_goLive (k := k) (dir := dir) k dir).blockless
    (Makes.cons (calms_feedTiles (k := k) (dir := dir) k dir _ _ _ _).blockless (Makes.cons (as := []) (fun d => ?_) Makes.nil)) d⟩
  rw [each_ite]
  exact ⟨fun _ => each_nil, fun _ => Makes.cons (fun _ => each_nil) (Makes.cons (as := []) (blockless_completeLeaf k dir e body _ source) Makes.nil) d⟩

/-! ### A block that is repaired -/

/-- A block has been repaired: it is not listed as bad, nor asked for, and the repair is recorded. -/
structure Repaired (b : Nat) (d : Dev) : Prop where
  asked : b ∉ d.repair
  good : b ∉ d.hbmBad
  noted : d.fld F.HBM_ERR_REPAIR = 1

section repaired
variable {b : Nat}

theorem Repaired.each {us : List Upd} (h : Each Upd.blockless us) {d : Dev} (hd : Repaired b d) : Repaired b (applyAll us d) := by
  induction us generalizing d with
  | nil => exact hd
  | cons u us ih =>
    obtain ⟨hu, rest⟩ := (each_cons ..).1 h
    refine ih rest ⟨?_, fun listed => hd.good (hu.bad d listed), ?_⟩
    · rw [keep_repair u d hu.repair]
      exact hd.asked
    · have kept : (u.apply d).fld F.HBM_ERR_REPAIR = d.fld F.HBM_ERR_REPAIR := by
        unfold Dev.fld
        rw [reg_apply_of_not_mem u d hu.errors]
      exact kept.trans hd.noted

/-- Other blocks that are asked for leave one that has been repaired. -/
theorem repaired_requestRepair (k : Nat) {c : Nat} (other : c ≠ b) : Invariant (Repaired b) (requestRepair k c) := by
  intro d hd
  have confined := confines_requestRepair k c d
  refine ⟨?_, ?_, ?_⟩
  · rw [repair_requestRepair]
    split
    · exact hd.asked
    · simp [hd.asked, Ne.symm other]
  · rw [runAct_eq, keepAll_hbmBad d (confined.leaves (by decide))]
    exact hd.good
  · rw [runAct_eq, confined.fld d (by decide)]
    exact hd.noted

/-- A bad block of a leaf is a listed one. -/
theorem bad_of_badLeaf {d : Dev} {k : Nat} {dir : Dir} {year day c : Nat} (h : c ∈ d.badLeaf k dir year day) : c ∈ d.hbmBad := by
  rcases List.mem_append.1 h with h | h <;> exact List.mem_of_mem_filter h

theorem repaired_askLeaf {d : Dev} (hd : Repaired b d) (k : Nat) (dir : Dir) (year day : Nat) :
    Repaired b (runAct (forEach (requestRepair k) (d.badLeaf k dir year day)) d) :=
  Invariant.forEach (fun c hc => repaired_requestRepair k fun same => hd.good (by rw [← same]; exact bad_of_badLeaf hc)) d hd

theorem repaired_leafInject (k : Nat) (dir : Dir) : Invariant (Repaired b) (leafInjectAct k dir false) := by
  intro d hd
  have act := leafInjectAct_eq k dir false d
  split at act
  · rw [runAct_eq, act]
    exact hd
  · split at act
    · rw [runAct_of_eq act]
      exact repaired_askLeaf hd k dir _ _
    · rw [runAct_eq, act]
      split
      · exact hd
      · exact hd.each ((confines_startLeaf _).blockless (by decide) (by decide) (by decide))

theorem residentLoopbackLeafAct_eq (k : Nat) (dir : Dir) (d : Dev) : residentLoopbackLeafAct k dir d =
    if (decide ((d.plan k).len ≠ 1) || !d.playsNext k dir false) = true then []
    else if (!(d.badLeaf k dir (d.nextDay k dir).1 (d.nextDay k dir).2).isEmpty) = true then
      forEach (requestRepair k) (d.badLeaf k dir (d.nextDay k dir).1 (d.nextDay k dir).2) d
    else d.acceptOwn k dir 7 d := rfl

theorem repaired_residentLoopback (k : Nat) (dir : Dir) : Invariant (Repaired b) (residentLoopbackLeafAct k dir) := by
  intro d hd
  have act := residentLoopbackLeafAct_eq k dir d
  split at act
  · rw [runAct_eq, act]
    exact hd
  · split at act
    · rw [runAct_of_eq act]
      exact repaired_askLeaf hd k dir _ _
    · rw [runAct_of_eq act, runAct_eq]
      exact hd.each (blockless_acceptLeaf k dir _ _ _ d)

/-! ### The reply -/

/-- The leaf that waited for a block is played again (R206). -/
def replayLeaf (b : Nat) (e : Nat × Dir) : Act := fun d =>
  let (k, dir) := e
  let (y, day) := d.nextDay k dir
  let at_ := d.leafAddr k dir y day
  if (d.shareOfBlock b) ≠ some k || !d.playsNext k dir false || !(at_ ≤ b * 256 && b * 256 < at_ + 16384) then []
  else if (d.plan k).len = 1 then residentLoopbackLeafAct k dir d
  else leafInjectAct k dir false d

/-- The request of a block that has come is over. -/
def endRequest (b : Nat) : Act := fun _ => [.route fun r => { r with reads := r.reads.filter fun e => !(e.2.2.2.1 = b * 256 && e.2.2.2.2 = 256) }]

/-- The directions of the ring contexts. -/
def ringDirs : List (Nat × Dir) := [0, 1, 2, 3].flatMap fun k => [(k, Dir.cw), (k, Dir.ccw)]

theorem shareRepairReplyAct_eq {data : List Byte} {d : Dev} (asked : b ∈ d.repair) (whole : data.length = 256) : shareRepairReplyAct b data d =
    inSequence [writeHbm (b * 256) data false, finishRepair (b * 256) 256, endRequest b, forEach (replayLeaf b) ringDirs] d :=
  if_neg (by simp [asked, whole])

theorem repaired_replayLeaf (e : Nat × Dir) : Invariant (Repaired b) (replayLeaf b e) := by
  intro d hd
  rw [runAct_eq]
  unfold replayLeaf
  dsimp only
  split
  · exact hd
  · split <;> rw [← runAct_eq]
    · exact repaired_residentLoopback _ _ d hd
    · exact repaired_leafInject _ _ d hd

/-- HBM with the block rewritten, where no context of a ring of one plays. -/
def Played (m : SMap Byte) (d : Dev) : Prop := d.hbm = m ∧ ∀ k, k < 4 → (d.plan k).len ≠ 1

theorem confines_leafInject (k : Nat) (dir : Dir) : Confines [.rings, .repair, .regs, .ports, .route, .chain, .outbox] routerRegs (leafInjectAct k dir false) := by
  intro d
  rw [leafInjectAct_eq]
  simp only [confined_ite, confined_nil, implies_true, true_and, Bool.false_eq_true, if_false]
  exact fun _ => ⟨fun _ => (Confines.forEach fun c _ => confines_requestRepair k c).mono (by decide) (List.Subset.refl _) d,
    fun _ _ => (confines_startLeaf _).mono (by decide) (List.Subset.refl _)⟩

theorem planFields_routerRegs : ∀ f ∈ planFields, f.reg ∉ routerRegs := by decide

theorem played_replayLeaf {m : SMap Byte} {e : Nat × Dir} (low : e.1 < 4) : Invariant (Played m) (replayLeaf b e) := by
  rintro d ⟨hbm, rings⟩
  rw [runAct_eq]
  unfold replayLeaf
  dsimp only
  split
  · exact ⟨hbm, rings⟩
  · rw [if_neg (rings _ low)]
    have confined := confines_leafInject e.1 e.2 d
    exact ⟨(keepAll_hbm d (confined.leaves (by decide))).trans hbm, fun k hk => by
      rw [plan_congr k fun f hf => confined.fld d (planFields_routerRegs f hf) k]
      exact rings k hk⟩

/-! ### A whole block -/

/-- The blocks that a write of a whole block touches are that block. -/
theorem hit_iff (b c : Nat) : (decide (c * 256 < b * 256 + 256) && decide (b * 256 < c * 256 + 256)) = true ↔ c = b := by
  simp only [Bool.and_eq_true, decide_eq_true_eq]
  omega

theorem whole_of_hit (b : Nat) : (decide (b * 256 ≤ b * 256) && decide (b * 256 + 256 ≤ b * 256 + 256)) = true := by simp

/-- A whole block that is written is as written, and no longer bad (R203, R206). -/
theorem writeHbm_block {data : List Byte} (d : Dev) (whole : data.length = 256) (low : b < blockCount) :
    (runAct (writeHbm (b * 256) data false) d).hbm = memWrite d.hbm (b * 256) data ∧ b ∉ (runAct (writeHbm (b * 256) data false) d).hbmBad := by
  have hit : (d.hbmBad.filter fun c => decide (c * 256 < b * 256 + 256) && decide (b * 256 < c * 256 + 256)) = d.hbmBad.filter fun c => decide (c = b) :=
    List.filter_congr fun c _ => by rw [Bool.eq_iff_iff, hit_iff, decide_eq_true_eq]
  have partly : ((d.hbmBad.filter fun c => decide (c = b)).filter fun c => !(decide (b * 256 ≤ c * 256) && decide (c * 256 + 256 ≤ b * 256 + 256))) = [] := by
    rw [List.filter_eq_nil_iff]
    intro c hc
    obtain rfl : c = b := of_decide_eq_true (List.mem_filter.1 hc).2
    rw [whole_of_hit]
    decide
  have member (listed : b ∈ d.hbmBad) :
      b ∈ (d.hbmBad.filter fun c => decide (c = b)).filter fun c => decide (b * 256 ≤ c * 256) && decide (c * 256 + 256 ≤ b * 256 + 256) :=
    List.mem_filter.2 ⟨List.mem_filter.2 ⟨listed, decide_eq_true rfl⟩, whole_of_hit b⟩
  have room : data.take (hbmSize - b * 256) = data := List.take_of_length_le (by
    have : hbmSize / 256 * 256 ≤ hbmSize := Nat.div_mul_le_self ..
    unfold blockCount at low
    omega)
  have marks {us : List Upd} (h : Confined [.hbmMarks] [] us) (e : Dev) : (applyAll us e).hbm = e.hbm ∧ (applyAll us e).hbmBad = e.hbmBad :=
    ⟨keepAll_hbm e (h.leaves (by decide)), keepAll_hbmBad e (h.leaves (by decide))⟩
  rw [runAct_eq]
  unfold writeHbm
  dsimp only
  rw [whole, if_neg (by decide), hit, partly]
  simp only [List.isEmpty_nil, if_true, Bool.false_eq_true, if_false]
  rw [applyAll_append, applyAll_append, applyAll_cons, applyAll_nil]
  obtain ⟨hbm, bad⟩ := marks (us := if marked d.hbmMarks (b * 256) 256 = true then [Upd.hbmMarks (unmark (b * 256) 256)] else [])
    (by simp only [confined_ite, confined_cons, confined_nil, and_true, implies_true]; exact fun _ => rfl) (applyAll
      (if ((d.hbmBad.filter fun c => decide (c = b)).filter fun c => decide (b * 256 ≤ c * 256) && decide (c * 256 + 256 ≤ b * 256 + 256)).isEmpty = true then []
        else [Upd.hbmBad fun l => l.filter fun c => !((d.hbmBad.filter fun c => decide (c = b)).filter fun c =>
          decide (b * 256 ≤ c * 256) && decide (c * 256 + 256 ≤ b * 256 + 256)).contains c]) ((Upd.hbm (b * 256) data).apply d))
  rw [hbm, bad]
  refine ⟨?_, ?_⟩
  · have written : ((Upd.hbm (b * 256) data).apply d).hbm = memWrite d.hbm (b * 256) data := by
      rw [apply_hbm, room]
    split <;> exact written
  · split
    · rename_i none_
      intro listed
      have here := member listed
      rw [List.isEmpty_iff.1 none_] at here
      cases here
    · intro listed
      obtain ⟨here, out⟩ := List.mem_filter.1 listed
      rw [List.contains_iff_mem.2 (member here)] at out
      cases out

/-- A block asked for that has been written is asked for no more, and its repair is noted. -/
theorem finishRepair_block {d : Dev} (asked : b ∈ d.repair) : b ∉ (runAct (finishRepair (b * 256) 256) d).repair ∧
    (runAct (finishRepair (b * 256) 256) d).fld F.HBM_ERR_REPAIR = 1 ∧ (runAct (finishRepair (b * 256) 256) d).hbmBad = d.hbmBad ∧
    (runAct (finishRepair (b * 256) 256) d).hbm = d.hbm ∧ ∀ k, (runAct (finishRepair (b * 256) 256) d).plan k = d.plan k := by
  have member : b ∈ d.repair.filter fun c => decide (b * 256 ≤ c * 256) && decide (c * 256 + 256 ≤ b * 256 + 256) :=
    List.mem_filter.2 ⟨asked, whole_of_hit b⟩
  have act : finishRepair (b * 256) 256 d = [.repair fun l => l.filter fun c =>
      !(d.repair.filter fun c => decide (b * 256 ≤ c * 256) && decide (c * 256 + 256 ≤ b * 256 + 256)).contains c, setF F.HBM_ERR_REPAIR 0 1] :=
    if_neg fun none_ => by
      rw [List.isEmpty_iff.1 none_] at member
      cases member
  have confined : Confined [.repair, .regs] [.HBM_ERR] (finishRepair (b * 256) 256 d) := by
    rw [act, confined_cons, confined_cons]
    exact ⟨rfl, rfl, confined_nil⟩
  have plans (k : Nat) := plan_congr (d := d) (d' := applyAll (finishRepair (b * 256) 256 d) d) k fun f hf => confined.fld d ((by decide : ∀ f ∈ planFields, f.reg ∉ [Reg.HBM_ERR]) f hf) k
  rw [runAct_eq]
  refine ⟨?_, ?_, keepAll_hbmBad d (confined.leaves (by decide)), keepAll_hbm d (confined.leaves (by decide)), plans⟩
  · rw [act, applyAll_cons, applyAll_cons, applyAll_nil, keep_repair _ _ (by simp [setF])]
    intro listed
    obtain ⟨-, out⟩ := List.mem_filter.1 listed
    simp [asked] at out
  · rw [act, applyAll_cons, applyAll_cons, applyAll_nil, fld_setF]
    rfl

end repaired

theorem ringDirs_low : ∀ e ∈ ringDirs, e.1 < 4 := by decide

/-- The bytes of a block asked for again rewrite it (R206). -/
theorem completes_shareRepair {s : State} {b : Nat} {data : List Byte} (hs : s.dev.steady) (asked : b ∈ s.dev.repair) (whole : data.length = 256)
    (low : b < blockCount) : Completes (.shareRepairReply b data) s fun d =>
    Repaired b d ∧ ((∀ k, k < 4 → (s.dev.plan k).len ≠ 1) → d.hbm = memWrite s.dev.hbm (b * 256) data) := by
  refine completes_behind rfl hs fun d behind => ?_
  rw [runAct_of_eq (shareRepairReplyAct_eq asked whole), runAct_inSequence_cons, runAct_three] at behind
  obtain ⟨hbm, good⟩ := writeHbm_block s.dev whole low
  have confined := confines_writeHbm (b * 256) data false s.dev
  have asked₁ : b ∈ (runAct (writeHbm (b * 256) data false) s.dev).repair := by
    rw [runAct_eq, keepAll_repair s.dev (confined.leaves (by decide))]
    exact asked
  have plans₁ (k : Nat) : (runAct (writeHbm (b * 256) data false) s.dev).plan k = s.dev.plan k := plan_congr k fun f _ => by
    rw [runAct_eq]
    exact confined.fld s.dev List.not_mem_nil k
  generalize runAct (writeHbm (b * 256) data false) s.dev = d₁ at *
  obtain ⟨gone, noted, bad₂, hbm₂, plans₂⟩ := finishRepair_block asked₁
  generalize runAct (finishRepair (b * 256) 256) d₁ = d₂ at *
  have repaired₃ : Repaired b (runAct (endRequest b) d₂) := ⟨gone, by rw [← bad₂] at good; exact good, noted⟩
  have played₃ (h : ∀ k, k < 4 → (s.dev.plan k).len ≠ 1) : Played (memWrite s.dev.hbm (b * 256) data) (runAct (endRequest b) d₂) :=
    ⟨hbm₂.trans hbm, fun k hk => by
      have same : (runAct (endRequest b) d₂).plan k = d₂.plan k := rfl
      rw [same, plans₂, plans₁]
      exact h k hk⟩
  generalize runAct (endRequest b) d₂ = d₃ at *
  have repaired := Invariant.forEach (fun e _ => repaired_replayLeaf e) d₃ repaired₃ (xs := ringDirs)
  refine ⟨⟨by rw [behind.repair]; exact repaired.asked, by rw [behind.hbmBad]; exact repaired.good, (behind.fld (by decide) 0).trans repaired.noted⟩, fun h => ?_⟩
  rw [behind.hbm]
  exact (Invariant.forEach (fun e he => played_replayLeaf (ringDirs_low e he)) d₃ (played₃ h)).1

/-- Settles O40: a fatal error through `moduleFault`; a repaired block through what stays repaired while its leaf is played again. -/
theorem channelsScrubAndRepair : Obligations.ChannelsScrubAndRepair := by
  unfold Obligations.ChannelsScrubAndRepair
  refine ⟨fun s ch hs => ⟨completes_quiet rfl hs rfl, ?_⟩, fun s b data hs asked whole low => ?_⟩
  · refine completes_behind rfl hs fun d b => ?_
    obtain ⟨safe, module⟩ := moduleFault_reads s.dev (cause := 3) (by decide)
    refine ⟨b.enteredSafe safe, fun out => b.error ⟨by decide, rfl, by decide⟩ (module out), ?_⟩
    rw [b.spm]
    exact keepAll_spm s.dev ((tames_moduleFault 3).confines s.dev |>.leaves (by decide))
  · refine (completes_shareRepair hs asked whole low).imp fun d h => ?_
    obtain ⟨repaired, written⟩ := h
    refine ⟨repaired.asked, repaired.good, repaired.noted, fun rings => ?_⟩
    rw [written rings]
    exact ⟨rfl, fun i hi => memByte_memWrite_same _ _ _ _ (by omega), fun a ha => memByte_memWrite_other _ _ _ _ (by omega)⟩

end Sys2Proof.Machine
end

