-- ==== Sys2Proof/Proofs/GradientLeaves.lean ====
section
/-! PROOFS. O38: a whole gradient leaf that passes its checks (R45, R46, R138). -/

namespace Sys2Proof.Machine

/-! ### What fences leave of the gradients -/

/-- An update that leaves the gradient leaves that a ring context has counted, and those that it keeps. -/
def Upd.graded (k : Nat) (u : Upd) : Prop := ∀ d, ((u.apply d).ring k).grads = (d.ring k).grads ∧ ((u.apply d).ring k).kept = (d.ring k).kept

section graded
variable {k : Nat}

theorem graded_of_apart {u : Upd} (apart : Part.rings ∉ u.touches) : u.graded k := fun d => by
  have ring : (u.apply d).ring k = d.ring k := ring_of_rings (keep_rings u d apart) k
  rw [ring]
  exact ⟨rfl, rfl⟩

theorem graded_stopLeaves (o : Nat) : (Upd.ring o stopLeaves).graded k := fun d => by
  rw [ring_apply_ring]
  split
  · subst_vars; exact ⟨rfl, rfl⟩
  · exact ⟨rfl, rfl⟩

theorem graded_applyAll {us : List Upd} (h : Each (Upd.graded k) us) (d : Dev) :
    ((applyAll us d).ring k).grads = (d.ring k).grads ∧ ((applyAll us d).ring k).kept = (d.ring k).kept := by
  induction us generalizing d with
  | nil => exact ⟨rfl, rfl⟩
  | cons u us ih =>
    obtain ⟨hu, rest⟩ := (each_cons ..).1 h
    exact ⟨(ih rest _).1.trans (hu d).1, (ih rest _).2.trans (hu d).2⟩

/-- The fences that a command ends with leave the gradients. -/
theorem Behind.graded {e d : Dev} (b : Behind e d) : (d.ring k).grads = (e.ring k).grads ∧ (d.ring k).kept = (e.ring k).kept := by
  rw [b.quiet.ring, runAct_eq]
  exact graded_applyAll (makes_fenceLost (fun _ rings _ => graded_of_apart rings) (fun _ => graded_of_apart (by simp)) graded_stopLeaves
    (graded_of_apart (by simp)) e) e

end graded

/-! ### A gradient leaf -/

section grad
variable {k : Nat} {e : LeafExt} {d : Dev}

/-- A gradient leaf is counted for its day (R47). -/
def countGrad (k : Nat) (e : LeafExt) : Act := fun _ => [.ring k fun r => { r with grads := r.grads ++ [⟨e.dir, e.year.toNat, e.day.toNat⟩] }]

/-- A gradient leaf is kept by the owner, or goes on (R45). -/
def passGrad (k : Nat) (e : LeafExt) (vs : List Val) : Act := fun d =>
  if e.hop.toNat + 1 = e.ttl.toNat then [keepGrad k e vs]
  else (d.leafPackets k { e with hop := e.hop + 1, pktIdx := 0 } (gradBody e vs)).map Upd.inject

theorem takeGrad_eq {body : List Byte} {contrib : List (BitVec 32)} (free : d.creditHeld k (gradTrig e.dir) = false) :
    takeGrad k e body contrib d = inSequence [countGrad k e, passGrad k e (gradSums e body contrib), offerGrad k e] d :=
  if_neg (by rw [free]; exact Bool.false_ne_true)

theorem takeGrad_held {body : List Byte} {contrib : List (BitVec 32)} (held : d.creditHeld k (gradTrig e.dir) = true) :
    takeGrad k e body contrib d = [] := if_pos held

theorem confines_offerGrad (k : Nat) (e : LeafExt) : Confines [.cores] [] (offerGrad k e) := fun d => by
  unfold offerGrad
  split
  · exact confined_offerDay k d
  · exact confined_nil

theorem confines_passGrad (k : Nat) (e : LeafExt) (vs : List Val) : Confines [.rings, .regs, .ports, .route, .chain, .outbox] routerRegs (passGrad k e vs) := fun d => by
  simp only [passGrad, keepGrad, confined_ite, confined_cons, confined_nil, confined_map, and_true]
  exact ⟨fun _ => rfl, fun _ _ _ => rfl⟩

/-- The gradient leaf of a day is counted for it. -/
theorem grads_passGrad {key : GradKey} (vs : List Val) (h : key ∈ (d.ring k).grads) : key ∈ ((runAct (passGrad k e vs) d).ring k).grads := by
  rw [runAct_eq]
  unfold passGrad
  split
  · have kept : ((applyAll [keepGrad k e vs] d).ring k).grads = (d.ring k).grads := by
      rw [applyAll_cons, applyAll_nil, keepGrad, ring_apply_same]
    rw [kept]
    exact h
  · have quiet : Confined [.regs, .ports, .route, .chain, .outbox] routerRegs
        ((d.leafPackets k { e with hop := e.hop + 1, pktIdx := 0 } (gradBody e vs)).map Upd.inject) := (confined_map ..).2 fun _ _ => rfl
    rw [quiet.ring d (by decide)]
    exact h

/-- The owner keeps the sums (R45, R138). -/
theorem kept_passGrad (vs : List Val) (owner : e.hop.toNat + 1 = e.ttl.toNat) :
    (⟨⟨e.dir, e.year.toNat, e.day.toNat⟩, vs.map fun v => BitVec.ofNat 32 (fmtFp32.encode v)⟩ : KeptGrad) ∈ ((runAct (passGrad k e vs) d).ring k).kept := by
  have act : passGrad k e vs d = [keepGrad k e vs] := if_pos owner
  rw [runAct_eq, act, applyAll_cons, applyAll_nil, keepGrad, ring_apply_same]
  exact List.mem_append_right _ (List.mem_singleton_self _)

/-- The sums go on to the next module (R45). -/
theorem sent_passGrad (vs : List Val) (on : e.hop.toNat + 1 ≠ e.ttl.toNat) {q : Packet}
    (h : q ∈ d.leafPackets k { e with hop := e.hop + 1, pktIdx := 0 } (gradBody e vs)) :
    Msg.packet (setFlag q 1 d.epoch) ∈ (runAct (passGrad k e vs) d).outbox := by
  have act : passGrad k e vs d = (d.leafPackets k { e with hop := e.hop + 1, pktIdx := 0 } (gradBody e vs)).map Upd.inject := if_neg on
  rw [runAct_eq, act]
  exact sent_injects h d

/-- The checks of a whole gradient leaf (R47). -/
theorem receiveGrad_eq {pkt : Packet} {rest : List Packet} {contrib : List (BitVec 32)} (he : leafOfBytes pkt.ext = e)
    (leaves_ : ∀ q ∈ pkt :: rest, q.ptype.toNat = ptLeaf) (grad : e.grad = true) (bound : d.leafContext e.dir = some k) (passes : d.leafFails k e = [])
    (order : ((pkt :: rest).map fun q => (leafOfBytes q.ext).pktIdx.toNat % 4) = [0, 1, 2, 3])
    (same : ∀ x ∈ (pkt :: rest).map fun q => leafOfBytes q.ext, { x with pktIdx := e.pktIdx } = e ∧ leafReserved x = false) :
    receiveGrad (pkt :: rest) contrib d = takeGrad k e ((pkt :: rest).flatMap fun q => q.payload) contrib d := by
  have kinds : ((pkt :: rest).any fun q => q.ptype.toNat ≠ ptLeaf) = false := by simpa using leaves_
  have differ : (((pkt :: rest).map fun q => leafOfBytes q.ext).any fun x => { x with pktIdx := e.pktIdx } ≠ e) = false :=
    List.any_eq_false.2 fun x hx => by simpa using (same x hx).1
  have reserved : ((pkt :: rest).map fun q => leafOfBytes q.ext).any leafReserved = false :=
    List.any_eq_false.2 fun x hx => by simpa using (same x hx).2
  have ordered : (((pkt :: rest).map fun q => leafOfBytes q.ext).map fun x => x.pktIdx.toNat % 4) = [0, 1, 2, 3] := by rw [List.map_map]; exact order
  unfold receiveGrad
  dsimp only
  rw [he, grad, kinds]
  simp only [bound, passes, ordered, differ, reserved, Bool.not_true, Bool.or_self, Bool.false_eq_true, if_false, decide_true, Bool.and_false,
    if_true, List.append_nil, List.isEmpty_nil]

end grad

/-- What a gradient leaf that is taken leaves (R45, R46). -/
theorem completes_takeGrad {s : State} {ins : Instr} {a : Act} {k : Nat} {e : LeafExt} {body : List Byte} {contrib : List (BitVec 32)}
    (he : exec ins s = perform (onPower a) s) (hs : s.dev.steady) (free : s.dev.creditHeld k (gradTrig e.dir) = false)
    (act : a s.dev = takeGrad k e body contrib s.dev) : Completes ins s fun d =>
    (⟨e.dir, e.year.toNat, e.day.toNat⟩ : GradKey) ∈ (d.ring k).grads ∧ d.hbm = s.dev.hbm ∧ d.spm = s.dev.spm ∧
    (e.hop.toNat + 1 = e.ttl.toNat → (⟨⟨e.dir, e.year.toNat, e.day.toNat⟩, (gradSums e body contrib).map fun v => BitVec.ofNat 32 (fmtFp32.encode v)⟩ : KeptGrad) ∈
      (d.ring k).kept) ∧
    (e.hop.toNat + 1 ≠ e.ttl.toNat → ∀ q ∈ s.dev.leafPackets k { e with hop := e.hop + 1, pktIdx := 0 } (gradBody e (gradSums e body contrib)),
      Msg.packet (setFlag q 1 s.dev.epoch) ∈ d.outbox) := by
  refine completes_behind he hs fun d b => ?_
  have takes := takeGrad_eq (body := body) (contrib := contrib) free
  generalize gradSums e body contrib = vs at *
  rw [runAct_of_eq (act.trans takes), runAct_three] at b
  have counted : (⟨e.dir, e.year.toNat, e.day.toNat⟩ : GradKey) ∈ ((runAct (countGrad k e) s.dev).ring k).grads := by
    rw [runAct_eq, countGrad, applyAll_cons, applyAll_nil, ring_apply_same]
    exact List.mem_append_right _ (List.mem_singleton_self _)
  have epoch : (runAct (countGrad k e) s.dev).epoch = s.dev.epoch := rfl
  have memory : (runAct (countGrad k e) s.dev).hbm = s.dev.hbm ∧ (runAct (countGrad k e) s.dev).spm = s.dev.spm := ⟨rfl, rfl⟩
  have packets {x : LeafExt} (bs : List Byte) : (runAct (countGrad k e) s.dev).leafPackets k x bs = s.dev.leafPackets k x bs := rfl
  generalize runAct (countGrad k e) s.dev = d₁ at *
  have grads := grads_passGrad vs counted (e := e)
  have kept := kept_passGrad (d := d₁) (k := k) (e := e) vs
  have sent (on : e.hop.toNat + 1 ≠ e.ttl.toNat) (q : Packet) := sent_passGrad (d := d₁) (k := k) (e := e) vs on (q := q)
  have passed := confines_passGrad k e vs d₁
  have memory₂ : (runAct (passGrad k e vs) d₁).hbm = s.dev.hbm ∧ (runAct (passGrad k e vs) d₁).spm = s.dev.spm :=
    ⟨(keepAll_hbm d₁ (passed.leaves (by decide))).trans memory.1, (keepAll_spm d₁ (passed.leaves (by decide))).trans memory.2⟩
  generalize runAct (passGrad k e vs) d₁ = d₂ at *
  have offers := confines_offerGrad k e d₂
  have ring : (runAct (offerGrad k e) d₂).ring k = d₂.ring k := offers.ring d₂ (by decide) k
  have outbox : (runAct (offerGrad k e) d₂).outbox = d₂.outbox := keepAll_outbox d₂ (offers.leaves (by decide))
  refine ⟨?_, ?_, ?_, fun owner => ?_, fun on q hq => ?_⟩
  · rw [b.graded.1, ring]
    exact grads
  · rw [b.hbm]
    exact (keepAll_hbm d₂ (offers.leaves (by decide))).trans memory₂.1
  · rw [b.spm]
    exact (keepAll_spm d₂ (offers.leaves (by decide))).trans memory₂.2
  · rw [b.graded.2, ring]
    exact kept owner
  · refine b.sent ?_
    rw [outbox, ← epoch]
    exact sent on q (by rw [packets]; exact hq)

/-- Settles O38: a gradient leaf that is held changes nothing; one that is taken is counted, and its sums are kept or go on. -/
theorem gradientLeavesAdd : Obligations.GradientLeavesAdd := by
  unfold Obligations.GradientLeavesAdd
  dsimp only
  intro s p pkt rest contrib k hs here unmarked free kinds grad bound passes order same
  generalize he : leafOfBytes pkt.ext = e at *
  have act : gradientLeafReceiveAct (pkt :: rest) contrib s.dev = takeGrad k e ((pkt :: rest).flatMap fun q => q.payload) contrib s.dev := by
    rw [gradientLeafReceiveAct, deliver_eq _ here free unmarked]
    exact receiveGrad_eq he kinds grad bound passes (by rw [List.map_map] at order; exact order) same
  exact ⟨fun free => completes_takeGrad rfl hs free act, fun held => completes_quiet rfl hs (act.trans (takeGrad_held held))⟩

end Sys2Proof.Machine
end

