-- ==== Sys2Proof/Proofs/RouterTables.lean ====
section
/-! PROOFS. What sending packets, and the fences that a command ends with, leave of the router: its tables, its requests, and its rates (R412, R414,
R423). -/

namespace Sys2Proof.Machine

/-! ### Updates that leave them -/

/-- An update that leaves the router's tables and rates. -/
def Upd.steers (u : Upd) : Prop := ∀ d, (u.apply d).route.tables = d.route.tables ∧ ∀ t, (u.apply d).rated t = d.rated t

theorem steers_of_apart {u : Upd} (apart : Part.route ∉ u.touches) : u.steers := fun d => by
  have route := keep_route u d apart
  exact ⟨congrArg RouteSt.tables route, fun t => by simp only [Dev.rated, Dev.rateSt, route]⟩

theorem steers_applyAll {us : List Upd} (h : Each Upd.steers us) (d : Dev) :
    (applyAll us d).route.tables = d.route.tables ∧ ∀ t, (applyAll us d).rated t = d.rated t := by
  induction us generalizing d with
  | nil => exact ⟨rfl, fun _ => rfl⟩
  | cons u us ih =>
    obtain ⟨hu, rest⟩ := (each_cons ..).1 h
    exact ⟨(ih rest _).1.trans (hu d).1, fun t => ((ih rest _).2 t).trans ((hu d).2 t)⟩

theorem steers_inject (p : Packet) : (Upd.inject p).steers := fun d => ⟨(sameTables_inject d p).tables, (sameTables_inject d p).rated⟩
theorem steers_pump : Upd.pump.steers := fun d => ⟨(sameTables_pump d).tables, (sameTables_pump d).rated⟩
theorem steers_route {g : RouteSt → RouteSt} (h : ∀ r, (g r).tables = r.tables ∧ (g r).rates = r.rates) : (Upd.route g).steers := fun d =>
  ⟨(h _).1, fun t => by simp only [Dev.rated, Dev.rateSt, apply_route, (h _).2]⟩

/-- The fences that a command ends with leave the router's tables and rates. -/
theorem Behind.tables {e d : Dev} (b : Behind e d) : d.route.tables = e.route.tables ∧ ∀ t, d.rated t = e.rated t := by
  have fences := makes_fenceLost (P := Upd.steers) (fun _ _ route => steers_of_apart route) (fun _ => steers_route fun _ => ⟨rfl, rfl⟩)
    (fun _ => steers_of_apart (by simp)) (steers_route fun _ => ⟨rfl, rfl⟩) e
  have route : d.route = (runAct fenceLost e).route := b.quiet.route
  have after := steers_applyAll fences e
  rw [← runAct_eq] at after
  exact ⟨(congrArg RouteSt.tables route).trans after.1, fun t => by
    have same : d.rated t = (runAct fenceLost e).rated t := by simp only [Dev.rated, Dev.rateSt, route]
    rw [same, after.2]⟩

/-- Where nothing has been discarded, the router is left whole. -/
theorem Behind.route {e d : Dev} (b : Behind e d) (none_ : e.route.lost = []) : d.route = e.route := by
  have act : fenceLost e = [] := by
    rw [fenceLost, none_]
    rfl
  have route : d.route = (runAct fenceLost e).route := b.quiet.route
  rw [route, runAct_eq, act]
  rfl

/-! ### Rates toward a destination -/

theorem tablePort_congr {d d' : Dev} (v0 : d'.route.v0 = d.route.v0) (v1 : d'.route.v1 = d.route.v1) (epoch : d'.epoch = d.epoch)
    (coord : ∀ i, d'.reg .DEV_COORD i = d.reg .DEV_COORD i) (t : Coord) : d'.tablePort t = d.tablePort t := by
  obtain ⟨axis, here⟩ := shape_congr coord
  have table (v : Bool) : d'.table v = d.table v := by simp only [Dev.table, v0, v1]
  have inShape (c : Coord) : d'.inShape c = d.inShape c := by simp only [Dev.inShape, axis]
  have stepOn : d'.stepOn = d.stepOn := by funext c a plus; simp only [Dev.stepOn, axis]
  have linkDead : d'.linkDead = d.linkDead := by funext m c p; simp only [Dev.linkDead, stepOn]
  have walk (m : FaultMap) (a : Nat) (plus : Bool) (n : Nat) (c : Coord) : d'.walk m a plus n c = d.walk m a plus n c := by
    induction n generalizing c with
    | zero => rfl
    | succ n ih => simp only [Dev.walk, stepOn, linkDead, ih]
  have routeAxes (m : FaultMap) (as : List Nat) (c t : Coord) : d'.routeAxes m as c t = d.routeAxes m as c t := by
    induction as generalizing c with
    | nil => rfl
    | cons a as ih => simp only [Dev.routeAxes, axis, ih, walk]
  have path (m : FaultMap) (t : Coord) : d'.path m t = d.path m t := by simp only [Dev.path, inShape, routeAxes, here]
  have entry (v : TableVer) (t : Coord) : d'.entryPort v t = d.entryPort v t := by simp only [Dev.entryPort, inShape, here, path]
  simp only [Dev.tablePort, table, epoch, entry]

theorem portRateTo_congr {d d' : Dev} (v0 : d'.route.v0 = d.route.v0) (v1 : d'.route.v1 = d.route.v1) (epoch : d'.epoch = d.epoch)
    (coord : ∀ i, d'.reg .DEV_COORD i = d.reg .DEV_COORD i) (t : Coord) : d'.portRateTo t = d.portRateTo t := by
  simp only [Dev.portRateTo, tablePort_congr v0 v1 epoch coord]

theorem rateOf_congr {d d' : Dev} (v0 : d'.route.v0 = d.route.v0) (v1 : d'.route.v1 = d.route.v1) (epoch : d'.epoch = d.epoch)
    (coord : ∀ i, d'.reg .DEV_COORD i = d.reg .DEV_COORD i) (rated : ∀ t, d'.rated t = d.rated t) (t : Coord) : d'.rateOf t = d.rateOf t := by
  have rate : (d'.rateSt t).rate = (d.rateSt t).rate := congrArg Prod.fst (rated t)
  simp only [Dev.rateOf, rate, tablePort_congr v0 v1 epoch coord]

end Sys2Proof.Machine
end

