-- ==== Sys2Proof/Proofs/DeliveredPackets.lean ====
section
/-! PROOFS. O46: delivery of WRITE, READ_REQ, READ_RESP and CNP packets, injection rates, and heartbeats (R360–R363, R422, R423, R430, R459). -/

namespace Sys2Proof.Machine

/-! ### Delivery -/

/-- The parts that sending packets changes. -/
def senderParts : List Part := [.regs, .ports, .route, .chain, .outbox]

theorem confines_notifySource (p : Packet) : Confines senderParts routerRegs (notifySource p) := fun d => by
  simp only [notifySource, confined_ite, confined_cons, confined_nil, and_true, implies_true]
  exact fun _ => ⟨rfl, rfl, rfl⟩

/-- A module that may have sent a notification of congestion (R422). -/
structure Noted (d e : Dev) : Prop where
  sends : ∃ us, Confined senderParts routerRegs us ∧ e = applyAll us d
  reads : e.route.reads = d.route.reads
  v0 : e.route.v0 = d.route.v0
  v1 : e.route.v1 = d.route.v1
  rated : ∀ t, e.rated t = d.rated t
  fld : ∀ f ∈ sentFields, e.fld f = d.fld f

/-- The marks of a notification. -/
def noteCnp (src : Coord) (d : Dev) : List Upd := [.route fun r => { r with cnpSent := mapPut src.toNat d.now r.cnpSent }, addF F.ROUTE_CONG_CNP_TX 0 1]

theorem notifySource_eq (p : Packet) (d : Dev) : notifySource p d = [] ∨ ∃ q, notifySource p d = noteCnp p.srcCoord d ++ [.inject q] := by
  unfold notifySource
  dsimp only
  exact (ite_eq_or_eq ..).symm.imp id fun h => ⟨_, h⟩

/-- A change of the counts of notifications sent, and the notification. -/
theorem sameTables_noteCnp (src : Coord) (q : Packet) (d : Dev) :
    SameTables { d with route := { d.route with cnpSent := mapPut src.toNat d.now d.route.cnpSent } } (applyAll (noteCnp src d ++ [.inject q]) d) := by
  rw [applyAll_append, noteCnp, applyAll_cons, applyAll_cons, applyAll_nil, applyAll_cons, applyAll_nil, apply_inject, addF, apply_fld, apply_route]
  exact (sameRoute_setFld _ 0 _ (by decide)).sameTables.trans (sameTables_inject _ q)

theorem noted_notifySource (p : Packet) (d : Dev) : Noted d (runAct (notifySource p) d) := by
  have confined := confines_notifySource p d
  rw [runAct_eq]
  rcases notifySource_eq p d with none_ | ⟨q, sent⟩
  · rw [none_]
    exact ⟨⟨[], confined_nil, rfl⟩, rfl, rfl, rfl, fun _ => rfl, fun _ _ => rfl⟩
  · rw [sent] at confined ⊢
    have same := sameTables_noteCnp p.srcCoord q d
    have tables := same.tables
    exact ⟨⟨_, confined, rfl⟩, (congrArg RouteSt.reads tables :), (congrArg RouteSt.v0 tables :), (congrArg RouteSt.v1 tables :),
      fun t => same.rated t, fun f hf => same.fld f hf⟩

section noted
variable {d e : Dev} (h : Noted d e)
include h

theorem Noted.reg {r : Reg} (hr : r ∉ routerRegs) (i : Nat) : e.reg r i = d.reg r i := by
  obtain ⟨us, confined, rfl⟩ := h.sends
  exact confined.reg d hr i
theorem Noted.field {f : Fld} (hf : f.reg ∉ routerRegs) (i : Nat) : e.fld f i = d.fld f i := by
  obtain ⟨us, confined, rfl⟩ := h.sends
  exact confined.fld d hf i
theorem Noted.roles : SameRoles d e := by
  refine ⟨?_, fun i => h.reg (by decide) i⟩
  obtain ⟨us, confined, rfl⟩ := h.sends
  exact keepAll_slices d (confined.leaves (by decide))
theorem Noted.memory : sameMemory d e := by
  obtain ⟨us, confined, rfl⟩ := h.sends
  exact confined.memory (by decide) d
/-- HBM with its marks and its bad blocks is as it was. -/
theorem Noted.hbm : e.hbm = d.hbm ∧ e.hbmMarks = d.hbmMarks ∧ e.hbmBad = d.hbmBad := by
  obtain ⟨us, confined, rfl⟩ := h.sends
  exact ⟨keepAll_hbm d (confined.leaves (by decide)), keepAll_hbmMarks d (confined.leaves (by decide)), keepAll_hbmBad d (confined.leaves (by decide))⟩
theorem Noted.spm : e.spm = d.spm := by
  obtain ⟨us, confined, rfl⟩ := h.sends
  exact keepAll_spm d (confined.leaves (by decide))
theorem Noted.now : e.now = d.now := by
  obtain ⟨us, confined, rfl⟩ := h.sends
  exact congrArg BitVec.toNat (keepAll_gcnt d (confined.leaves (by decide)))
theorem Noted.epoch : e.epoch = d.epoch := by
  rw [Dev.epoch, Dev.epoch, Dev.bit, Dev.bit, h.fld _ (by decide)]
theorem Noted.portRateTo (t : Coord) : e.portRateTo t = d.portRateTo t := portRateTo_congr h.v0 h.v1 h.epoch (fun i => h.reg (by decide) i) t
theorem Noted.rateOf (t : Coord) : e.rateOf t = d.rateOf t := rateOf_congr h.v0 h.v1 h.epoch (fun i => h.reg (by decide) i) h.rated t

end noted

/-- What is done with a packet of each kind that is taken (R360–R363, R423). -/
def takeWrite (port : Nat) (p : Packet) : Act := fun d =>
  if p.ptype.toNat ≠ ptWrite || p.mirror then []
  else if hbmSize < p.addr.toNat + p.payload.length then deliveryFault port p d
  else inSequence [writeDelivered p.key p.addr.toNat p.payload p.bad, onlyIf p.hasExt (deliverSignal (syncOfBytes p.ext))] d
def takeReadReq (port : Nat) (p : Packet) : Act := fun d =>
  if p.ptype.toNat ≠ ptReadReq || p.elems = 0 then []
  else if hbmSize < p.addr.toNat + p.elems.toNat then deliveryFault port p d
  else (readResponses d p).map Upd.inject
def takeReadResp (p : Packet) : Act := fun d =>
  match d.readRecord p with
  | none => []
  | some e => inSequence [writeHbm (e.2.2.2.1 + (p.addr.toNat - e.2.2.1)) p.payload p.bad,
      finishRepair (e.2.2.2.1 + (p.addr.toNat - e.2.2.1)) p.payload.length,
      onlyIf p.isLast (fun _ => [.route fun r => { r with reads := r.reads.erase e }])] d
def takeCnp (p : Packet) : Act := fun d =>
  inSequence [fun _ => [addF F.ROUTE_CONG_CNP_RX 0 1],
    setRate p.srcCoord (max (d.rateOf p.srcCoord / 2) (d.portRateTo p.srcCoord * d.fld F.ROUTE_CFG_RMIN / 256))] d

/-! ### What follows a delivery -/

/-- What a delivery leaves stands when the command is over: a load may have been found complete, and a slice fenced (R458, R583). -/
structure Over (e d : Dev) : Prop where
  ends : ∃ us, Confined [.start, .regs, .outbox] [.LOAD_STATUS] us ∧ Behind (applyAll us e) d

section over_
variable {e d : Dev} (o : Over e d)
include o

theorem Over.hbm : d.hbm = e.hbm := by
  obtain ⟨us, confined, b⟩ := o.ends
  exact b.hbm.trans (keepAll_hbm e (confined.leaves (by decide)))
theorem Over.spm : d.spm = e.spm := by
  obtain ⟨us, confined, b⟩ := o.ends
  exact b.spm.trans (keepAll_spm e (confined.leaves (by decide)))
theorem Over.memory : sameMemory e d := by
  obtain ⟨us, confined, b⟩ := o.ends
  exact (confined.memory (by decide) e).trans b.memory
theorem Over.fld {f : Fld} (fences : f.reg ∉ fenceRegs) (load : f.reg ≠ .LOAD_STATUS) (i : Nat) : d.fld f i = e.fld f i := by
  obtain ⟨us, confined, b⟩ := o.ends
  exact (b.fld fences i).trans (confined.fld e (by simpa using load) i)
theorem Over.fenced {i : Nat} (h : (e.slice i).fenced = true) : (d.slice i).fenced = true := by
  obtain ⟨us, confined, b⟩ := o.ends
  exact b.fenced (by rw [confined.slice e (by decide)]; exact h)
theorem Over.sent {m : Msg} (h : m ∈ e.outbox) : m ∈ d.outbox := by
  obtain ⟨us, confined, b⟩ := o.ends
  exact b.sent ((sent_applyAll _ _).subset h)
theorem Over.tables : d.route.tables = e.route.tables ∧ ∀ t, d.rated t = e.rated t := by
  obtain ⟨us, confined, b⟩ := o.ends
  have route : (applyAll us e).route = e.route := keepAll_route e (confined.leaves (by decide))
  exact ⟨b.tables.1.trans (congrArg RouteSt.tables route), fun t => (b.tables.2 t).trans (by simp only [Dev.rated, Dev.rateSt, route])⟩
theorem Over.route (none_ : e.route.lost = []) : d.route = e.route := by
  obtain ⟨us, confined, b⟩ := o.ends
  have route : (applyAll us e).route = e.route := keepAll_route e (confined.leaves (by decide))
  exact (b.route (by rw [route]; exact none_)).trans route

end over_

/-- A command that delivers a packet: its act is the delivery, and what may follow it. -/
structure Delivers (ins : Instr) (s : State) (pkt : Packet) (k tail : Act) : Prop where
  exec : exec ins s = perform (onPower (inSequence [deliver pkt k, tail])) s
  tail : Confines [.start, .regs, .outbox] [.LOAD_STATUS] tail

theorem delivers_alone {ins : Instr} {s : State} {pkt : Packet} {k : Act} (he : exec ins s = perform (onPower (deliver pkt k)) s) :
    Delivers ins s pkt k noAct := by
  refine ⟨he.trans ?_, fun _ => confined_nil⟩
  have act : deliver pkt k = inSequence [deliver pkt k, noAct] := funext fun d => (List.append_nil _).symm
  rw [← act]

section exec
variable (p : Fin 6) (pkt : Packet) (s : State)

theorem delivers_writePacket : Delivers (.writePacketReceive p pkt) s pkt (takeWrite p pkt) checkLoaded := ⟨rfl, confines_checkLoaded⟩
theorem delivers_readReq : Delivers (.readReqReceive p pkt) s pkt (takeReadReq p pkt) noAct := delivers_alone rfl
theorem delivers_readResp : Delivers (.readRespReceive p pkt) s pkt (takeReadResp pkt) noAct := delivers_alone rfl
theorem delivers_cnp : Delivers (.cnpReceive p pkt) s pkt (takeCnp pkt) noAct := delivers_alone rfl

/-- The commands that deliver a packet. -/
def deliveries : List Instr := [.writePacketReceive p pkt, .readReqReceive p pkt, .readRespReceive p pkt, .cnpReceive p pkt]

theorem delivers_deliveries {i : Instr} (h : i ∈ deliveries p pkt) : ∃ k tail, Delivers i s pkt k tail := by
  simp only [deliveries, List.mem_cons, List.not_mem_nil, or_false] at h
  rcases h with rfl | rfl | rfl | rfl
  · exact ⟨_, _, delivers_writePacket p pkt s⟩
  · exact ⟨_, _, delivers_readReq p pkt s⟩
  · exact ⟨_, _, delivers_readResp p pkt s⟩
  · exact ⟨_, _, delivers_cnp p pkt s⟩

end exec

section deliver
variable {ins : Instr} {s : State} {pkt : Packet} {k tail : Act} (h : Delivers ins s pkt k tail) (hs : s.dev.steady)
include h hs

theorem Delivers.completes {P : Dev → Prop} (holds : ∀ d, Over (runAct (deliver pkt k) s.dev) d → P d) : Completes ins s P :=
  completes_behind h.exec hs fun d b => holds d ⟨_, h.tail _, by rw [← runAct_eq, ← runAct_two]; exact b⟩

/-- A packet for no member is counted and discarded (R430). -/
theorem completes_undelivered (away : s.dev.deliverable pkt = false) : Completes ins s fun d => s.dev.tallied d F.ROUTE_DROP_PKEY 0 ∧ d.fld F.ROUTE_ERR_PKEY = 1 ∧
    sameMemory s.dev d ∧ d.route = s.dev.route := by
  have act : deliver pkt k s.dev = [satF F.ROUTE_DROP_PKEY 0 1] ++ flagRoute F.ROUTE_ERR_PKEY := if_pos (by rw [away]; rfl)
  have flags : Confined [.regs] [.ROUTE_ERR] (flagRoute F.ROUTE_ERR_PKEY) := by
    simp only [flagRoute, flagFault, confined_cons, confined_nil, and_true]
    exact ⟨rfl, rfl⟩
  have confined : Confined [.regs] [.ROUTE_DROP, .ROUTE_ERR] (deliver pkt k s.dev) := by
    rw [act, confined_append, confined_cons]
    exact ⟨⟨rfl, confined_nil⟩, flags.mono (by decide) (by decide)⟩
  refine h.completes hs fun d o => ?_
  rw [runAct_eq] at o
  have route : (applyAll (deliver pkt k s.dev) s.dev).route = s.dev.route := keepAll_route s.dev (confined.leaves (by decide))
  refine ⟨?_, (o.fld (by decide) (by decide) 0).trans ?_, (confined.memory (by decide) s.dev).trans o.memory, (o.route (by rw [route]; exact hs.2)).trans route⟩
  · rw [Dev.tallied, o.fld (by decide) (by decide), act, applyAll_append, flags.fld _ (by decide), applyAll_cons, applyAll_nil, fld_satF]
  · rw [act, applyAll_append]
    exact (fld_flagFault _ 0 rfl (by decide)).1

/-- A packet of a fenced slice is discarded (R462). -/
theorem completes_fenced (here : s.dev.deliverable pkt = true) (fenced : s.dev.fencedPacket (pktVc pkt) pkt.key = true) :
    Completes ins s fun d => sameMemory s.dev d ∧ d.route = s.dev.route := by
  have act : deliver pkt k s.dev = [] := (if_neg (by rw [here]; exact Bool.false_ne_true)).trans (if_pos fenced)
  refine h.completes hs fun d o => ?_
  rw [runAct_eq, act, applyAll_nil] at o
  exact ⟨o.memory, o.route hs.2⟩

/-- A packet that is taken (R422, R430). -/
theorem completes_taken {P : Dev → Prop} (here : s.dev.deliverable pkt = true) (free : s.dev.fencedPacket (pktVc pkt) pkt.key = false)
    (holds : ∀ e d, Noted s.dev e → Over (runAct k e) d → P d) : Completes ins s P := by
  have act : deliver pkt k s.dev = inSequence [notifySource pkt, k] s.dev :=
    (if_neg (by rw [here]; exact Bool.false_ne_true)).trans (if_neg (by rw [free]; exact Bool.false_ne_true))
  refine h.completes hs fun d o => ?_
  rw [runAct_of_eq act, runAct_two] at o
  exact holds _ d (noted_notifySource pkt s.dev) o

/-! ### Faults -/

/-- A packet that reaches beyond HBM fences its slice (R362). -/
theorem completes_deliveryFault {p : Fin 6} (here : s.dev.deliverable pkt = true) (free : s.dev.fencedPacket (pktVc pkt) pkt.key = false)
    (act : ∀ e, k e = deliveryFault p pkt e) : Completes ins s fun d => d.fld F.LINK_ERR_DELIVERY p = 1 ∧ sameMemory s.dev d ∧
      ∀ i, s.dev.sliceOf pkt.key = some i → (s.dev.slice i).desc.isSome = true → (d.slice i).fenced = true := by
  refine completes_taken h hs here free fun e d noted o => ?_
  have fault : deliveryFault p pkt e = inSequence [fun _ => [setF F.LINK_ERR_DELIVERY p 1], fun d => match d.sliceOf pkt.key with
      | some i => faultSlice i 1 d
      | none => []] e := rfl
  rw [runAct_of_eq ((act e).trans fault), runAct_two] at o
  have flag : (runAct (fun _ => [setF F.LINK_ERR_DELIVERY p 1]) e).fld F.LINK_ERR_DELIVERY p = 1 := fld_setF ..
  have mark : Confined [.regs] [.LINK_ERR] [setF F.LINK_ERR_DELIVERY p 1] := (confined_cons ..).2 ⟨rfl, confined_nil⟩
  have roles : SameRoles e (runAct (fun _ => [setF F.LINK_ERR_DELIVERY p 1]) e) := ⟨rfl, fun i => mark.reg e (by decide) i⟩
  have memory : sameMemory e (runAct (fun _ => [setF F.LINK_ERR_DELIVERY p 1]) e) := ⟨fun _ => rfl, fun _ _ _ => rfl⟩
  generalize runAct (fun _ => [setF F.LINK_ERR_DELIVERY p 1]) e = m at *
  have tame : Tame fenceParts fenceRegs (match m.sliceOf pkt.key with | some i => faultSlice i 1 m | none => []) := by
    split
    · exact tames_faultSlice _ 1 m
    · exact tame_nil
  rw [runAct_eq] at o
  refine ⟨?_, ((noted.memory.trans memory).trans (tame.confined.memory (by decide) m)).trans o.memory, fun i found desc => ?_⟩
  · rw [o.fld (by decide) (by decide), tame.confined.fld m (by decide), flag]
  · have found : m.sliceOf pkt.key = some i := by rw [roles.sliceOf, noted.roles.sliceOf]; exact found
    refine o.fenced ?_
    rw [found, ← runAct_eq (faultSlice i 1)]
    exact fenced_faultSlice (by rw [roles.slice, noted.roles.slice]; exact desc) 1

end deliver

end Sys2Proof.Machine
end

