-- ==== Sys2Proof/Proofs/WrittenPackets.lean ====
section
/-! PROOFS. What a delivered WRITE leaves in HBM: its payload, with the pages that a step writes logged, mirrored and sent on to the shadow
(R35, R203, R361, R446, R447). -/

namespace Sys2Proof.Machine

/-! ### Bytes written -/

/-- The bytes that a write makes of a run: a block that is bad and only partly written keeps its bytes (R203). -/
def Dev.merged (d : Dev) (a : Nat) (bs : List Byte) : List Byte :=
  let partly := (d.hbmBad.filter fun b => b * 256 < a + bs.length && a < b * 256 + 256).filter fun b => !(a ≤ b * 256 && b * 256 + 256 ≤ a + bs.length)
  if partly.isEmpty then bs
  else (List.range bs.length).zip bs |>.map fun e => if partly.contains (blockOf (a + e.1)) then memByte d.hbm (a + e.1) else e.2

theorem hbm_writeHbm_merged (d : Dev) (a : Nat) (bs : List Byte) (bad : Bool) : (runAct (writeHbm a bs bad) d).hbm =
    if bs.length = 0 then d.hbm else memWrite d.hbm a ((d.merged a bs).take (hbmSize - a)) := by
  have marks {us : List Upd} (h : Confined [.hbmBad, .hbmMarks] [] us) (e : Dev) : (applyAll us e).hbm = e.hbm := keepAll_hbm e (h.leaves (by decide))
  rw [runAct_eq]
  unfold writeHbm
  dsimp only
  split
  · rfl
  · rw [List.append_assoc, List.singleton_append, applyAll_cons, marks]
    · rfl
    · simp only [confined_append, confined_ite, confined_cons, confined_nil, and_true, implies_true, true_and]
      exact ⟨fun _ => rfl, fun _ => rfl, fun _ _ => rfl⟩

theorem length_merged (d : Dev) (a : Nat) (bs : List Byte) : (d.merged a bs).length = bs.length := by
  unfold Dev.merged
  dsimp only
  split
  · rfl
  · simp

/-- A write rests on HBM and its bad blocks. -/
theorem hbm_writeHbm_congr {d d' : Dev} (hbm : d'.hbm = d.hbm) (bad : d'.hbmBad = d.hbmBad) (a : Nat) (bs : List Byte) (mark : Bool) :
    (runAct (writeHbm a bs mark) d').hbm = (runAct (writeHbm a bs mark) d).hbm := by
  rw [hbm_writeHbm_merged, hbm_writeHbm_merged]
  unfold Dev.merged
  rw [hbm, bad]

theorem memByte_writeHbm_other (d : Dev) (a : Nat) (bs : List Byte) (bad : Bool) {x : Nat} (h : x < a ∨ a + bs.length ≤ x) :
    memByte (runAct (writeHbm a bs bad) d).hbm x = memByte d.hbm x := by
  rw [hbm_writeHbm_merged]
  split
  · rfl
  · refine memByte_memWrite_other _ _ _ _ (h.imp id fun above => ?_)
    have short := List.length_take_le' (hbmSize - a) (d.merged a bs)
    rw [length_merged] at short
    omega

theorem memByte_writeHbm_same {d : Dev} (good : d.hbmBad = []) {a : Nat} {bs : List Byte} (fits : a + bs.length ≤ hbmSize) (bad : Bool) {j : Nat}
    (h : j < bs.length) : memByte (runAct (writeHbm a bs bad) d).hbm (a + j) = bs.getD j 0 := by
  have merged : d.merged a bs = bs := by
    unfold Dev.merged
    rw [good]
    rfl
  rw [hbm_writeHbm_merged, if_neg (by omega), merged, List.take_of_length_le (by omega), memByte_memWrite_same _ _ _ _ h]

/-! ### What a store does beside -/

/-- The parts that logging, mirroring and the readiness of a step change. -/
def storeParts : List Part := .commit :: fenceParts
def storeRegs : List Reg := .COMMIT_LOG :: fenceRegs ++ routerRegs

theorem confines_logFull (i t : Nat) : Confines storeParts storeRegs (logFull i t) := by
  refine confines_inSequence_cons (fun _ => ?_) (confines_inSequence_cons (as := []) ((tames_faultSlice i 1).confines.mono (by decide) (by decide)) Confines.nil)
  simp only [flagRecov, flagFault, confined_append, confined_cons, confined_nil, and_true]
  exact ⟨⟨rfl, rfl⟩, rfl, rfl⟩

theorem confines_logUndo (i t a n : Nat) : Confines storeParts storeRegs (logUndo i t a n) := fun d => by
  simp only [logUndo, confined_ite, confined_append, confined_cons, confined_nil, and_true, implies_true, true_and]
  exact fun _ => ⟨⟨rfl, rfl⟩, fun _ => confines_logFull i t d⟩

theorem confines_mirrorWrite (i t a : Nat) (bs : List Byte) (bad : Bool) : Confines storeParts storeRegs (mirrorWrite i t a bs bad) := fun d => by
  unfold mirrorWrite
  split
  · exact confined_nil
  · simp only [confined_append, confined_map, confined_cons, confined_nil, and_true]
    exact ⟨fun _ _ => rfl, rfl⟩

/-- The bytes of a store are those of its write (R446, R447). -/
theorem hbm_storeStep (i t a : Nat) (bs : List Byte) (bad : Bool) (d : Dev) : (runAct (storeStep i t a bs bad) d).hbm = (runAct (writeHbm a bs bad) d).hbm := by
  rw [runAct_eq (storeStep i t a bs bad)]
  unfold storeStep
  split
  · rename_i empty
    rw [hbm_writeHbm_merged, if_pos (by simpa using empty)]
    rfl
  · split
    · rw [← runAct_eq, runAct_three, runAct_eq (mirrorWrite i t a bs bad), keepAll_hbm _ ((confines_mirrorWrite i t a bs bad _).leaves (by decide))]
      have log := confines_logUndo i t a bs.length d
      exact hbm_writeHbm_congr (keepAll_hbm d (log.leaves (by decide))) (keepAll_hbmBad d (log.leaves (by decide))) a bs bad
    · rfl

theorem confines_storeStep (i t a : Nat) (bs : List Byte) (bad : Bool) : Confines (storeParts ++ [.hbm, .hbmBad, .hbmMarks]) storeRegs (storeStep i t a bs bad) := fun d => by
  have write : Confines (storeParts ++ [.hbm, .hbmBad, .hbmMarks]) storeRegs (writeHbm a bs bad) := (confines_writeHbm a bs bad).mono (by decide) (by decide)
  simp only [storeStep, confined_ite, confined_nil, implies_true, true_and]
  exact fun _ => ⟨fun _ => confines_inSequence_cons ((confines_logUndo i t a _).mono (by decide) (List.Subset.refl _)) (confines_inSequence_cons write
    (confines_inSequence_cons (as := []) ((confines_mirrorWrite i t a bs bad).mono (by decide) (List.Subset.refl _)) Confines.nil)) d, fun _ => write d⟩

theorem confines_noteShadow (i a n : Nat) : Confines [.rings, .outbox, .slices] [] (noteShadow i a n) := fun d => by
  unfold noteShadow
  split
  · exact confined_nil
  · exact confines_inSequence_cons (fun _ => (confined_cons ..).2 ⟨rfl, confined_nil⟩) (confines_inSequence_cons (as := [])
      ((confines_checkReady i _).mono (by decide) (List.Subset.refl _)) Confines.nil) d

/-- A share of a ring of more than one goes to its shadow by packets. -/
theorem confined_shadowUpdate {d : Dev} (rings : ∀ k, k < 4 → d.fld F.RING_CTL_LEN k ≠ 1) (i t a : Nat) (bs : List Byte) (bad : Bool) :
    Confined senderParts routerRegs (shadowUpdate i t a bs bad d) := by
  unfold shadowUpdate
  split
  · exact confined_nil
  · rename_i k found
    have low : k < 4 := by
      have four : k ∈ [0, 1, 2, 3] := List.mem_of_mem_filter (List.mem_of_find?_eq_some found)
      simp only [List.mem_cons, List.not_mem_nil, or_false] at four
      omega
    dsimp only
    rw [if_neg (rings k low), confined_map]
    exact fun _ _ => rfl

/-- The memories after the bytes of a WRITE: HBM as the write makes it, and every scratchpad as before. -/
structure WrittenAs (a : Nat) (bs : List Byte) (bad : Bool) (d e : Dev) : Prop where
  hbm : e.hbm = (runAct (writeHbm a bs bad) d).hbm
  spm : e.spm = d.spm

theorem WrittenAs.after {a : Nat} {bs : List Byte} {bad : Bool} {d e : Dev} (h : WrittenAs a bs bad d e) {ps : List Part} {rs : List Reg} {us : List Upd}
    (confined : Confined ps rs us) (hbm : Part.hbm ∉ ps) (spm : Part.spm ∉ ps) : WrittenAs a bs bad d (applyAll us e) :=
  ⟨(keepAll_hbm e (confined.leaves hbm)).trans h.hbm, (keepAll_spm e (confined.leaves spm)).trans h.spm⟩

theorem writtenAs_writeHbm (a : Nat) (bs : List Byte) (bad : Bool) (d : Dev) : WrittenAs a bs bad d (runAct (writeHbm a bs bad) d) :=
  ⟨rfl, keepAll_spm d ((confines_writeHbm a bs bad d).leaves (by decide))⟩

theorem writtenAs_storeStep (i t a : Nat) (bs : List Byte) (bad : Bool) (d : Dev) : WrittenAs a bs bad d (runAct (storeStep i t a bs bad) d) :=
  ⟨hbm_storeStep i t a bs bad d, keepAll_spm d ((confines_storeStep i t a bs bad d).leaves (by decide))⟩

/-- A delivered WRITE writes its bytes, where no context of a ring of one has a shadow (R35, R446). -/
theorem writtenAs_writeDelivered {d : Dev} (rings : ∀ k, k < 4 → d.fld F.RING_CTL_LEN k ≠ 1) (key : BitVec 12) (a : Nat) (bs : List Byte) (bad : Bool) :
    WrittenAs a bs bad d (runAct (writeDelivered key a bs bad) d) := by
  have units (e : Dev) (h : WrittenAs a bs bad d e) : WrittenAs a bs bad d (runAct (noteUnits a bs.length) e) :=
    h.after (confines_noteUnits a bs.length e) (by decide) (by decide)
  rw [runAct_eq, writeDelivered]
  split
  · rename_i i found
    rw [← runAct_eq, runAct_inSequence_cons, runAct_three]
    have stored := writtenAs_storeStep i (d.slice i).nextStep a bs bad d
    have rings (k : Nat) (hk : k < 4) : (runAct (storeStep i (d.slice i).nextStep a bs bad) d).fld F.RING_CTL_LEN k ≠ 1 := by
      rw [runAct_eq, (confines_storeStep i (d.slice i).nextStep a bs bad d).fld d (by decide)]
      exact rings k hk
    exact units _ ((stored.after (confined_shadowUpdate rings i _ a bs bad) (by decide) (by decide)).after (confines_noteShadow i a _ _) (by decide) (by decide))
  · rw [← runAct_eq, runAct_two]
    exact units _ (writtenAs_writeHbm a bs bad d)

/-- A WRITE that is taken writes its payload (R361). -/
theorem completes_writePacket {s : State} {p : Fin 6} {pkt : Packet} (hs : s.dev.steady) (here : s.dev.deliverable pkt = true)
    (free : s.dev.fencedPacket (pktVc pkt) pkt.key = false) (kind : pkt.ptype.toNat = ptWrite) (plain : pkt.mirror = false)
    (fits : pkt.addr.toNat + pkt.payload.length ≤ hbmSize) (bare : pkt.hasExt = false) (rings : ∀ k, k < 4 → s.dev.fld F.RING_CTL_LEN k ≠ 1) :
    Completes (.writePacketReceive p pkt) s fun d => d.hbm = (runAct (writeHbm pkt.addr.toNat pkt.payload pkt.bad) s.dev).hbm ∧ d.spm = s.dev.spm := by
  refine completes_taken (delivers_writePacket p pkt s) hs here free fun e d noted o => ?_
  have act : takeWrite p pkt e = inSequence [writeDelivered pkt.key pkt.addr.toNat pkt.payload pkt.bad, onlyIf pkt.hasExt (deliverSignal (syncOfBytes pkt.ext))] e :=
    (if_neg (by rw [plain]; simp [kind])).trans (if_neg (Nat.not_lt.2 fits))
  rw [runAct_of_eq act, runAct_two, bare, runAct_onlyIf_false] at o
  have written := writtenAs_writeDelivered (d := e) (fun k hk => by rw [noted.field (by decide)]; exact rings k hk) pkt.key pkt.addr.toNat pkt.payload pkt.bad
  obtain ⟨hbm, -, bad⟩ := noted.hbm
  exact ⟨o.hbm.trans (written.hbm.trans (hbm_writeHbm_congr hbm bad _ _ _)), o.spm.trans (written.spm.trans noted.spm)⟩

end Sys2Proof.Machine
end

