-- ==== Sys2Proof/Proofs/PacketsTaken.lean ====
section
/-! PROOFS. O46: READ_REQ, READ_RESP and CNP packets, injection rates, and heartbeats (R360, R363, R423, R459). -/

namespace Sys2Proof.Machine

theorem confines_finishRepair (a n : Nat) : Confines [.repair, .regs] [.HBM_ERR] (finishRepair a n) := fun d => by
  simp only [finishRepair, confined_ite, confined_cons, confined_nil, and_true, implies_true, true_and]
  exact fun _ => ⟨rfl, rfl⟩

section reads
variable {s : State} {p : Fin 6} {pkt : Packet} (hs : s.dev.steady) (here : s.dev.deliverable pkt = true)
    (free : s.dev.fencedPacket (pktVc pkt) pkt.key = false)
include hs here free

/-! ### READ_REQ -/

/-- A READ_REQ draws its responses (R360). -/
theorem completes_readReq (kind : pkt.ptype.toNat = ptReadReq) (fits : pkt.addr.toNat + pkt.elems.toNat ≤ hbmSize) :
    Completes (.readReqReceive p pkt) s fun d => sameMemory s.dev d ∧ ∀ q ∈ readResponses s.dev pkt, Msg.packet (setFlag q 1 s.dev.epoch) ∈ d.outbox := by
  refine completes_taken (delivers_readReq p pkt s) hs here free fun e d noted o => ?_
  have act : takeReadReq p pkt e = (readResponses e pkt).map Upd.inject := by
    unfold takeReadReq
    split
    · rename_i none_
      have zero : pkt.elems = 0 := by simpa [kind] using none_
      rw [readResponses, zero]
      rfl
    · rw [if_neg (Nat.not_lt.2 fits)]
  have same : readResponses e pkt = readResponses s.dev pkt := by
    obtain ⟨hbm, marks, bad⟩ := noted.hbm
    have reads (a n : Nat) : e.readHbm a n = s.dev.readHbm a n := by simp only [Dev.readHbm, hbm, marks, bad]
    have here := (shape_congr noted.roles.coord).2
    simp only [readResponses, reads, here]
  have confined : Confined senderParts routerRegs ((readResponses e pkt).map Upd.inject) := (confined_map ..).2 fun _ _ => rfl
  rw [runAct_eq, act] at o
  refine ⟨(noted.memory.trans (confined.memory (by decide) e)).trans o.memory, fun q hq => o.sent ?_⟩
  rw [← noted.epoch]
  exact sent_injects (by rw [same]; exact hq) e

/-! ### READ_RESP -/

/-- The end of a request, at the last of its responses. -/
def endRead (p : Packet) (r : Coord × Nat × Nat × Nat × Nat) : Act := onlyIf p.isLast fun _ => [.route fun x => { x with reads := x.reads.erase r }]

omit hs here free in
theorem endRead_reads (r : Coord × Nat × Nat × Nat × Nat) (d : Dev) : (runAct (endRead pkt r) d).hbm = d.hbm ∧ (runAct (endRead pkt r) d).spm = d.spm ∧
    (runAct (endRead pkt r) d).route.reads = if pkt.isLast then d.route.reads.erase r else d.route.reads := by
  unfold endRead
  cases pkt.isLast with
  | false => rw [runAct_onlyIf_false]; exact ⟨rfl, rfl, rfl⟩
  | true => rw [runAct_onlyIf_true]; exact ⟨rfl, rfl, rfl⟩

/-- The bytes of a READ_RESP are placed by the record of its request (R360). -/
theorem completes_readResp {r : Coord × Nat × Nat × Nat × Nat} (known : s.dev.readRecord pkt = some r) : Completes (.readRespReceive p pkt) s fun d =>
    d.hbm = (runAct (writeHbm (r.2.2.2.1 + (pkt.addr.toNat - r.2.2.1)) pkt.payload pkt.bad) s.dev).hbm ∧ d.spm = s.dev.spm ∧
    d.route.reads = if pkt.isLast then s.dev.route.reads.erase r else s.dev.route.reads := by
  refine completes_taken (delivers_readResp p pkt s) hs here free fun e d noted o => ?_
  have recorded : e.readRecord pkt = some r := by
    rw [← known]
    simp only [Dev.readRecord, noted.reads]
  have act : takeReadResp pkt e = inSequence [writeHbm (r.2.2.2.1 + (pkt.addr.toNat - r.2.2.1)) pkt.payload pkt.bad,
      finishRepair (r.2.2.2.1 + (pkt.addr.toNat - r.2.2.1)) pkt.payload.length, endRead pkt r] e := by
    unfold takeReadResp
    rw [recorded]
    rfl
  rw [runAct_of_eq act, runAct_three] at o
  generalize r.2.2.2.1 + (pkt.addr.toNat - r.2.2.1) = a at *
  have write := confines_writeHbm a pkt.payload pkt.bad e
  have repair := confines_finishRepair a pkt.payload.length (runAct (writeHbm a pkt.payload pkt.bad) e)
  have written : (runAct (writeHbm a pkt.payload pkt.bad) e).hbm = (runAct (writeHbm a pkt.payload pkt.bad) s.dev).hbm :=
    hbm_writeHbm_congr noted.hbm.1 noted.hbm.2.2 _ _ _
  have spm₁ : (runAct (writeHbm a pkt.payload pkt.bad) e).spm = e.spm := keepAll_spm e (write.leaves (by decide))
  have reads₁ : (runAct (writeHbm a pkt.payload pkt.bad) e).route = e.route := keepAll_route e (write.leaves (by decide))
  generalize runAct (writeHbm a pkt.payload pkt.bad) e = e₁ at *
  have hbm₂ : (runAct (finishRepair a pkt.payload.length) e₁).hbm = e₁.hbm := keepAll_hbm e₁ (repair.leaves (by decide))
  have spm₂ : (runAct (finishRepair a pkt.payload.length) e₁).spm = e₁.spm := keepAll_spm e₁ (repair.leaves (by decide))
  have reads₂ : (runAct (finishRepair a pkt.payload.length) e₁).route = e₁.route := keepAll_route e₁ (repair.leaves (by decide))
  obtain ⟨hbm₃, spm₃, reads₃⟩ := endRead_reads (pkt := pkt) r (runAct (finishRepair a pkt.payload.length) e₁)
  have reads : d.route.reads = (runAct (endRead pkt r) (runAct (finishRepair a pkt.payload.length) e₁)).route.reads := (congrArg RouteSt.reads o.tables.1 :)
  refine ⟨by rw [o.hbm, hbm₃, hbm₂, written], by rw [o.spm, spm₃, spm₂, spm₁, noted.spm], ?_⟩
  rw [reads, reads₃, reads₂, reads₁, noted.reads]

/-- A READ_RESP that answers no request is dropped. -/
theorem completes_strayResp (unknown : s.dev.readRecord pkt = none) : Completes (.readRespReceive p pkt) s fun d =>
    sameMemory s.dev d ∧ d.route.reads = s.dev.route.reads := by
  refine completes_taken (delivers_readResp p pkt s) hs here free fun e d noted o => ?_
  have recorded : e.readRecord pkt = none := by
    rw [← unknown]
    simp only [Dev.readRecord, noted.reads]
  have act : takeReadResp pkt e = [] := by
    unfold takeReadResp
    rw [recorded]
  rw [runAct_eq, act, applyAll_nil] at o
  exact ⟨noted.memory.trans o.memory, (congrArg RouteSt.reads o.tables.1 :).trans noted.reads⟩

end reads

/-! ### Rates -/

/-- What a destination's rate becomes (R423). -/
theorem rated_setRate (t : Coord) (v : Nat) (d : Dev) : (runAct (setRate t v) d).rated t = (if d.portRateTo t ≤ v then none else some v, d.now) ∧
    ∀ f ∈ sentFields, (runAct (setRate t v) d).fld f = d.fld f := by
  rw [runAct_eq, setRate, applyAll_cons, applyAll_cons, applyAll_nil, apply_pump, apply_route]
  refine ⟨((sameTables_pump _).rated t).trans ?_, fun f hf => (sameTables_pump _).fld f hf⟩
  simp only [Dev.rated, Dev.rateSt, mapGet_mapSet, if_true]

/-- A CNP lowers the rate toward its source (R423). -/
theorem completes_cnp {s : State} {p : Fin 6} {pkt : Packet} (hs : s.dev.steady) (here : s.dev.deliverable pkt = true)
    (free : s.dev.fencedPacket (pktVc pkt) pkt.key = false) : Completes (.cnpReceive p pkt) s fun d => s.dev.counted d F.ROUTE_CONG_CNP_RX 0 1 ∧
    d.rated pkt.srcCoord = (if s.dev.portRateTo pkt.srcCoord ≤
      max (s.dev.rateOf pkt.srcCoord / 2) (s.dev.portRateTo pkt.srcCoord * s.dev.fld F.ROUTE_CFG_RMIN / 256) then none else
      some (max (s.dev.rateOf pkt.srcCoord / 2) (s.dev.portRateTo pkt.srcCoord * s.dev.fld F.ROUTE_CFG_RMIN / 256)), s.dev.now) := by
  refine completes_taken (delivers_cnp p pkt s) hs here free fun e d noted o => ?_
  have act : takeCnp pkt e = inSequence [fun _ => [addF F.ROUTE_CONG_CNP_RX 0 1],
      setRate pkt.srcCoord (max (s.dev.rateOf pkt.srcCoord / 2) (s.dev.portRateTo pkt.srcCoord * s.dev.fld F.ROUTE_CFG_RMIN / 256))] e := by
    rw [takeCnp, noted.rateOf, noted.portRateTo, noted.field (by decide)]
  rw [runAct_of_eq act, runAct_two] at o
  generalize max (s.dev.rateOf pkt.srcCoord / 2) (s.dev.portRateTo pkt.srcCoord * s.dev.fld F.ROUTE_CFG_RMIN / 256) = v at *
  have count : (runAct (fun _ => [addF F.ROUTE_CONG_CNP_RX 0 1]) e).fld F.ROUTE_CONG_CNP_RX = 
      (e.fld F.ROUTE_CONG_CNP_RX + 1) % 2 ^ (F.ROUTE_CONG_CNP_RX.hi - F.ROUTE_CONG_CNP_RX.lo + 1) := by rw [runAct_eq, applyAll_cons, applyAll_nil, fld_addF]
  have epoch : (runAct (fun _ => [addF F.ROUTE_CONG_CNP_RX 0 1]) e).epoch = e.epoch := by
    rw [Dev.epoch, Dev.epoch, Dev.bit, Dev.bit]
    rw [runAct_eq, applyAll_cons, applyAll_nil, addF, apply_fld, fld_setFld_apart e 0 0 _ rfl]
  have mark : Confined [.regs] [.ROUTE_CONG] [addF F.ROUTE_CONG_CNP_RX 0 1] := (confined_cons ..).2 ⟨rfl, confined_nil⟩
  have route : (runAct (fun _ => [addF F.ROUTE_CONG_CNP_RX 0 1]) e).route = e.route := keepAll_route e (mark.leaves (by decide))
  have rate : (runAct (fun _ => [addF F.ROUTE_CONG_CNP_RX 0 1]) e).portRateTo pkt.srcCoord = s.dev.portRateTo pkt.srcCoord :=
    (portRateTo_congr (congrArg RouteSt.v0 route) (congrArg RouteSt.v1 route) epoch (fun i => mark.reg e (by decide) i) _).trans (noted.portRateTo _)
  have gcnt : (runAct (fun _ => [addF F.ROUTE_CONG_CNP_RX 0 1]) e).gcnt = e.gcnt := keepAll_gcnt e (mark.leaves (by decide))
  have now : (runAct (fun _ => [addF F.ROUTE_CONG_CNP_RX 0 1]) e).now = s.dev.now := (congrArg BitVec.toNat gcnt).trans noted.now
  generalize runAct (fun _ => [addF F.ROUTE_CONG_CNP_RX 0 1]) e = m at *
  obtain ⟨rated, fields⟩ := rated_setRate pkt.srcCoord v m
  refine ⟨?_, (o.tables.2 _).trans (by rw [rated, rate, now])⟩
  rw [Dev.counted, o.fld (by decide) (by decide), fields _ (by decide), count, noted.fld _ (by decide)]

/-- The rate toward a destination recovers step by step (R423). -/
theorem completes_rateRecover {s : State} {t : Coord} {v : Nat} (hs : s.dev.steady) (low : (s.dev.rateSt t).rate = some v)
    (due : s.dev.expired (s.dev.rateSt t).since (s.dev.fld F.ROUTE_CFG_RECOVER_T) = true) : Completes (.rateRecoverStep t) s fun d =>
    d.rated t = (if s.dev.portRateTo t ≤ min (v + s.dev.portRateTo t * s.dev.fld F.ROUTE_CFG_ADD / 256) (s.dev.portRateTo t) then none else
      some (min (v + s.dev.portRateTo t * s.dev.fld F.ROUTE_CFG_ADD / 256) (s.dev.portRateTo t)), s.dev.now) := by
  refine completes_behind rfl hs fun d b => ?_
  have act : rateRecoverStepAct t s.dev = setRate t (min (v + s.dev.portRateTo t * s.dev.fld F.ROUTE_CFG_ADD / 256) (s.dev.portRateTo t)) s.dev := by
    unfold rateRecoverStepAct
    dsimp only
    rw [low]
    dsimp only
    rw [if_pos due]
  rw [runAct_of_eq act] at b
  exact (b.tables.2 t).trans (rated_setRate t _ s.dev).1

theorem rateRecoverStepAct_nil {d : Dev} {t : Coord} (idle : (d.rateSt t).rate = none ∨
    d.expired (d.rateSt t).since (d.fld F.ROUTE_CFG_RECOVER_T) = false) : rateRecoverStepAct t d = [] := by
  unfold rateRecoverStepAct
  dsimp only
  split
  · rfl
  · rename_i v low
    rcases idle with none_ | early
    · exact absurd (low.symm.trans none_) (by simp)
    · rw [early, if_neg (by decide)]

/-! ### Heartbeats -/

/-- A neighbour that has fallen silent (R459). -/
def Dev.fallsSilent (d : Dev) (p : Nat) : Bool :=
  decide (d.linkState p = lsUp) && d.bit F.LINK_STATUS_ADMITTED p && !(d.port p).silent &&
    decide ((d.port p).heardAt + d.fld F.RECOV_CFG_SILENT_TO * 1000000 ≤ d.now)

/-- The acts of a silent neighbour: its mark, the fences of its slices, and the report (R459, R460). -/
def markSilent (p : Nat) : Act := fun _ => flagRecov F.RECOV_ERR_SILENT ++ [.port p fun s => { s with silent := true }]
def reportSilent (n : Coord) (p : Nat) (keys : List (BitVec 12)) : Act := fun d =>
  [.send (.mgmt (d.coordIn (addDead n d.route.fmap)) (.faultReport 3 n (some p) keys)),
    .event 6 ([3, 0] ++ leBytes 2 n.toNat ++ leBytes 2 (keys.headD 0).toNat)]

theorem neighbourSilentAct_eq (p : Nat) (d : Dev) : neighbourSilentAct p d = if d.fallsSilent p = true then
    inSequence [markSilent p, forEach (fun i => fenceSlice i 3) (d.slicesOf (d.neighbour p)),
      reportSilent (d.neighbour p) p ((d.slicesOf (d.neighbour p)).map fun i => (d.slice i).pkey)] d else [] := by
  have cond : (decide (d.linkState p ≠ lsUp) || !d.bit F.LINK_STATUS_ADMITTED p || (d.port p).silent ||
      decide (d.now < (d.port p).heardAt + d.fld F.RECOV_CFG_SILENT_TO * 1000000)) = !d.fallsSilent p := by
    simp only [Dev.fallsSilent, Bool.not_and, Bool.not_not, ← decide_not, Nat.not_le]
  unfold neighbourSilentAct
  dsimp only
  rw [cond]
  cases d.fallsSilent p <;> rfl

theorem coordIn_congr {d d' : Dev} (coord : ∀ i, d'.reg .DEV_COORD i = d.reg .DEV_COORD i) (m : FaultMap) : d'.coordIn m = d.coordIn m := by
  have all : d'.allCoords = d.allCoords := by simp only [Dev.allCoords, (shape_congr coord).1]
  simp only [Dev.coordIn, all]

theorem tame_markSilent (p : Nat) (d : Dev) : Tame (.ports :: fenceParts) fenceRegs (markSilent p d) := by
  rw [markSilent, tame_append, tame_cons]
  exact ⟨tame_flagFault (bit := F.RECOV_ERR_SILENT) (faults := F.RECOV_ERR_FAULTS) ⟨by decide, rfl, by decide⟩ rfl (by decide) (by decide) (by decide) 0,
    tame_of_plain rfl, tame_nil⟩

/-- A silent neighbour is reported, and its slices are fenced (R459, R460). -/
theorem completes_neighbourSilent {s : State} {p : Fin 6} (hs : s.dev.steady) (silent : s.dev.fallsSilent p = true) :
    Completes (.neighbourSilent p) s fun d => d.fld F.RECOV_ERR_SILENT = 1 ∧ (d.port p).silent = true ∧ sameMemory s.dev d ∧
      (∀ i ∈ s.dev.slicesOf (s.dev.neighbour p), (s.dev.slice i).desc.isSome = true → (d.slice i).fenced = true) ∧
      Msg.mgmt (s.dev.coordIn (addDead (s.dev.neighbour p) s.dev.route.fmap))
        (.faultReport 3 (s.dev.neighbour p) (some p.val) ((s.dev.slicesOf (s.dev.neighbour p)).map fun i => (s.dev.slice i).pkey)) ∈ d.outbox := by
  refine completes_behind rfl hs fun d b => ?_
  have act := neighbourSilentAct_eq p s.dev
  rw [if_pos silent] at act
  rw [runAct_of_eq act, runAct_three] at b
  generalize s.dev.neighbour p = n at *
  generalize (s.dev.slicesOf n).map (fun i => (s.dev.slice i).pkey) = keys at *
  have bit : ErrorBit F.RECOV_ERR_SILENT := ⟨by decide, rfl, by decide⟩
  have mark := tame_markSilent p s.dev
  have flag : (runAct (markSilent p) s.dev).fld F.RECOV_ERR_SILENT = 1 := by
    have port : Confined [.ports] [] [Upd.port p fun s => { s with silent := true }] := (confined_cons ..).2 ⟨rfl, confined_nil⟩
    rw [runAct_eq, markSilent, applyAll_append, port.fld _ List.not_mem_nil]
    exact (fld_flagFault s.dev 0 rfl (by decide)).1
  have port : ((runAct (markSilent p) s.dev).port p).silent = true := by
    rw [runAct_eq, markSilent, applyAll_append, applyAll_cons, applyAll_nil, port_apply_same]
  have parts : Confined [.ports, .regs] [.RECOV_ERR] (markSilent p s.dev) := by
    rw [markSilent, confined_append, flagRecov, flagFault, confined_cons, confined_cons, confined_cons]
    exact ⟨⟨rfl, rfl, confined_nil⟩, rfl, confined_nil⟩
  have route : (runAct (markSilent p) s.dev).route = s.dev.route := keepAll_route s.dev (parts.leaves (by decide))
  have memory₁ : sameMemory s.dev (runAct (markSilent p) s.dev) := mark.confined.memory (by decide) s.dev
  have coord₁ (i : Nat) : (runAct (markSilent p) s.dev).reg .DEV_COORD i = s.dev.reg .DEV_COORD i := mark.confined.reg s.dev (by decide) i
  have slices₁ : (runAct (markSilent p) s.dev).slices = s.dev.slices := keepAll_slices s.dev (parts.leaves (by decide))
  generalize runAct (markSilent p) s.dev = m at *
  have tames : Tames fenceParts fenceRegs (forEach (fun i => fenceSlice i 3) (s.dev.slicesOf n)) := Tames.forEach fun i _ => tames_fenceSlice i 3
  have fence := tames m
  have fences := fenced_forEach (f := fun i => fenceSlice i 3) (k := fun i => i) (fun i => tames_fenceSlice i 3) (fun _ _ h => fenced_fenceSlice h 3) (s.dev.slicesOf n) m
  have steers := steers_applyAll (Makes.forEach (P := Upd.steers) (xs := s.dev.slicesOf n) (f := fun i => fenceSlice i 3) (fun i _ =>
    makes_fenceSlice (fun _ _ route => steers_of_apart route) (fun _ => steers_route fun _ => ⟨rfl, rfl⟩) (fun _ => steers_of_apart (by simp)) i 3) m) m
  have kept := (keeps_forEach (obs := Dev.reception p) (xs := s.dev.slicesOf n) (fun i e => reception_fenceSlice p i 3 e) m).eq m
  rw [← runAct_eq] at steers kept
  have flag₂ : (runAct (forEach (fun i => fenceSlice i 3) (s.dev.slicesOf n)) m).fld F.RECOV_ERR_SILENT = 1 := (runAct_eq _ m).symm ▸ fence.error m bit flag
  have memory₂ : sameMemory m (runAct (forEach (fun i => fenceSlice i 3) (s.dev.slicesOf n)) m) := fence.confined.memory (by decide) m
  have coord₂ (i : Nat) : (runAct (forEach (fun i => fenceSlice i 3) (s.dev.slicesOf n)) m).reg .DEV_COORD i = m.reg .DEV_COORD i :=
    fence.confined.reg m (by decide) i
  generalize runAct (forEach (fun i => fenceSlice i 3) (s.dev.slicesOf n)) m = e at *
  have report (d : Dev) : Tame fenceParts fenceRegs (reportSilent n p keys d) := by
    rw [reportSilent, tame_cons, tame_cons]
    exact ⟨tame_of_plain rfl, tame_of_plain rfl, tame_nil⟩
  have fmap : e.route.fmap = s.dev.route.fmap := by rw [← route]; exact (congrArg RouteSt.fmap steers.1 :)
  have reported : Msg.mgmt (s.dev.coordIn (addDead n s.dev.route.fmap)) (.faultReport 3 n (some p.val) keys) ∈ (runAct (reportSilent n p keys) e).outbox := by
    rw [← fmap, ← coordIn_congr (fun i => (coord₂ i).trans (coord₁ i)), runAct_eq]
    exact sent_of_mem List.mem_cons_self e
  have port₃ : (runAct (reportSilent n p keys) e).port p = e.port p :=
    Confined.port (ps := [.regs, .chain, .outbox]) (rs := [.EVT_STATUS, .CHAIN_ERR]) (by
      rw [reportSilent, confined_cons, confined_cons]
      exact ⟨rfl, rfl, confined_nil⟩) e (by decide) p
  have beside {x y : Dev} (h : x.reception p = y.reception p) : (x.port p).silent = (y.port p).silent := (congrArg (fun r => r.1.silent) h :)
  refine ⟨b.error bit ?_, ?_, ((memory₁.trans memory₂).trans ((report e).confined.memory (by decide) e)).trans b.memory, fun i hi desc => b.fenced ?_, b.sent reported⟩
  · rw [runAct_eq]
    exact (report e).error e bit flag₂
  · rw [beside (b.reception p), port₃, beside kept, port]
  · rw [runAct_eq]
    exact (report e).fenced e (fences i hi (by rw [slice_of_slices slices₁]; exact desc))

theorem completes_heartbeatSend {s : State} (hs : s.dev.steady) : Completes .heartbeatSend s fun d => s.dev.wrote d [] ∧
    ∀ q, q < 6 → s.dev.linkState q = lsUp → s.dev.bit F.LINK_STATUS_ADMITTED q = true → Msg.mgmt (s.dev.neighbour q) .heartbeat ∈ d.outbox := by
  have act : heartbeatSendAct s.dev = (([0, 1, 2, 3, 4, 5].filter fun p => s.dev.linkState p = lsUp && s.dev.bit F.LINK_STATUS_ADMITTED p).map fun p =>
      Msg.mgmt (s.dev.neighbour p) .heartbeat).map Upd.send := by
    rw [List.map_map]
    rfl
  refine (completes_sends rfl hs act).imp fun d h => ⟨h.2, fun q low up admitted => h.1 _ (List.mem_map_of_mem (List.mem_filter.2 ⟨?_, ?_⟩))⟩
  · interval_cases q <;> decide
  · simp [up, admitted]

theorem completes_heartbeatReceive {s : State} {p : Fin 6} (hs : s.dev.steady) (up : s.dev.linkState p = lsUp) : Completes (.heartbeatReceive p) s fun d =>
    (d.port p).heardAt = s.dev.now ∧ (d.port p).silent = false ∧ regsBut [] s.dev d := by
  have act : heartbeatReceiveAct p s.dev = [.port p fun x => { x with heardAt := s.dev.now, silent := false }] := if_pos up
  have confined : Confined [.ports] [] (heartbeatReceiveAct p s.dev) := act ▸ (confined_cons ..).2 ⟨rfl, confined_nil⟩
  refine completes_act rfl hs confined (by decide) fun d q => ?_
  have port : d.port p = { s.dev.port p with heardAt := s.dev.now, silent := false } := by
    rw [q.port, act, applyAll_cons, applyAll_nil, port_apply_same]
  rw [port]
  exact ⟨rfl, rfl, q.regsBut (confined.regsBut s.dev (by decide))⟩

/-- Settles O46: each packet by whether it is for a member, fenced or taken; the rest by what its act does. -/
theorem packetsAreDelivered : Obligations.PacketsAreDelivered := by
  unfold Obligations.PacketsAreDelivered
  dsimp only
  intro s p pkt t hs
  have rated {d : Dev} {c : Coord} {x : Option Nat × Nat} (h : d.rated c = x) : (d.rateSt c).rate = x.1 ∧ (d.rateSt c).since = x.2 :=
    ⟨congrArg Prod.fst h, congrArg Prod.snd h⟩
  refine ⟨fun away i hi => ?_, fun here fenced i hi => ?_, fun here free => ⟨fun kind plain beyond => ?_, fun kind plain fits bare rings => ?_,
    fun kind beyond some_ => ?_, fun kind fits => completes_readReq hs here free kind fits, fun r known => completes_readResp hs here free known,
    fun unknown => completes_strayResp hs here free unknown, (completes_cnp hs here free).imp fun d h => ⟨h.1, rated h.2⟩⟩,
    fun v low => ⟨fun due => (completes_rateRecover hs low due).imp fun d h => rated h, fun early => completes_quiet rfl hs (rateRecoverStepAct_nil (.inr early))⟩,
    fun full => completes_quiet rfl hs (rateRecoverStepAct_nil (.inl full)), completes_heartbeatSend hs, fun up => completes_heartbeatReceive hs up,
    fun down => completes_quiet rfl hs (if_neg down), fun silent => completes_neighbourSilent hs silent, fun loud => completes_quiet rfl hs ?_⟩
  · obtain ⟨k, tail, delivers⟩ := delivers_deliveries p pkt s hi
    exact completes_undelivered delivers hs away
  · obtain ⟨k, tail, delivers⟩ := delivers_deliveries p pkt s hi
    exact completes_fenced delivers hs here fenced
  · exact completes_deliveryFault (delivers_writePacket p pkt s) hs here free fun e => (if_neg (by rw [plain]; simp [kind])).trans (if_pos beyond)
  · refine (completes_writePacket hs here free kind plain fits bare rings).imp fun d h => ⟨h.1, h.2, fun x out => ?_, fun good j hj => ?_⟩
    · rw [h.1, memByte_writeHbm_other _ _ _ _ out]
    · rw [h.1, memByte_writeHbm_same good fits _ hj]
  · exact completes_deliveryFault (delivers_readReq p pkt s) hs here free fun e => (if_neg (by simpa [kind] using some_)).trans (if_pos beyond)
  · rw [neighbourSilentAct_eq, if_neg (by rw [show s.dev.fallsSilent p = false from loud]; decide)]

end Sys2Proof.Machine
end

