-- ==== Sys2Proof/Proofs/CommitPoints.lean ====
section
/-! PROOFS. What a commit point may change (R452, R505, R529–R545): the step's records and digests, and the service's part of it. -/

namespace Sys2Proof.Machine

/-! ### What a commit point may write -/

/-- The registers that a commit point may write behind its own count. -/
def pointRegs : List Reg :=
  [.DIGEST_WR, .SVC_TOK, .SVC_ERR, .SVC_CNT, .DET_STATUS, .SNAP_GCNT, .SNAP_SEQ, .SNAP_STATUS, .EVT_STATUS, .CHAIN_ERR]

/-- The parts that a commit point may change. -/
def pointParts : List Part :=
  [.regs, .commit, .svc, .hbm, .hbmBad, .hbmMarks, .outbox, .chain, .slices, .digests, .snapInfo, .snapPub, .rings]

/-- An update of a commit point that leaves what the slices have committed. -/
def Upd.pointed (u : Upd) : Prop :=
  u.confined pointParts pointRegs = true ∧
    match u with
    | .slice _ g => ∀ s, (g s).committed = s.committed
    | _ => True

theorem makes_pointed_of_confines {ps : List Part} {rs : List Reg} {a : Act} (h : Confines ps rs a) (slices : Part.slices ∉ ps) (hp : ps ⊆ pointParts)
    (hr : rs ⊆ pointRegs) : Makes Upd.pointed a := fun d u hu => by
  refine ⟨(h d).mono hp hr u hu, ?_⟩
  cases u with
  | slice i g => exact absurd (List.mem_singleton_self _) ((h d).leaves slices _ hu)
  | _ => trivial

theorem Each.pointed_confined {us : List Upd} (h : Each Upd.pointed us) : Confined pointParts pointRegs us := fun u hu => (h u hu).1

/-- What a slice has committed stands behind pointed updates. -/
theorem Each.pointed_slice {us : List Upd} (h : Each Upd.pointed us) (d : Dev) (i : Nat) :
    ((applyAll us d).slice i).committed = (d.slice i).committed := by
  induction us generalizing d with
  | nil => rfl
  | cons u us ih =>
    obtain ⟨hu, hus⟩ := (each_cons u us).1 h
    rw [applyAll_cons, ih hus]
    cases u with
    | slice j g =>
      rw [slice_apply_slice]
      split
      · subst_vars; exact hu.2 _
      · rfl
    | restart w => cases w <;> exact absurd hu.1 (by decide)
    | _ => rw [slice_of_slices (keep_slices _ d (by simp))]

/-! ### The requests of a step -/

section requests

/-- The parts that the service's work at a commit point may change. -/
def serviceParts : List Part := [.regs, .commit, .svc, .hbm, .hbmBad, .hbmMarks, .outbox, .chain]

/-- The registers that the service's work at a commit point may write. -/
def serviceRegs : List Reg := [.SVC_TOK, .SVC_ERR, .SVC_CNT, .DET_STATUS, .EVT_STATUS, .CHAIN_ERR]

theorem confines_commitHead (q t : Nat) : Confines serviceParts serviceRegs (commitHead q t) := fun d => by
  unfold commitHead
  dsimp only
  split
  · split
    · exact (confined_cons ..).2 ⟨rfl, confined_nil⟩
    · refine confines_inSequence_cons (fun _ => ?_) (confines_inSequence_cons ((confines_writeHbm _ _ _).mono (by decide) (by decide))
        (confines_inSequence_cons (as := []) ((confines_queueEntry _ _ _).mono (by decide) (by decide)) Confines.nil)) d
      simp only [confined_cons, confined_nil, and_true]
      exact ⟨rfl, rfl⟩
  · exact confined_nil

theorem confines_sendTokens (r : SvcReq) (all : Bool) : Confines serviceParts serviceRegs (sendTokens r all) := fun d => by
  unfold sendTokens
  refine confines_inSequence_cons (Confines.forEach fun e _ => (confines_queueEntry _ _ _).mono (by decide) (by decide))
    (confines_inSequence_cons (as := []) (fun _ => ?_) Confines.nil) d
  simp only [confined_cons, confined_nil, and_true]
  exact ⟨rfl, rfl, rfl⟩

theorem confines_completeRefused (i : Nat) (x : Refused) : Confines serviceParts serviceRegs (completeRefused i x) := fun d =>
  (confines_queueEntry x.qp 1 _ d).mono (by decide) (by decide)

theorem confines_commitRequests (i t : Nat) : Confines serviceParts serviceRegs (commitRequests i t) := fun d => by
  unfold commitRequests
  split
  · exact confined_nil
  · refine confines_inSequence_cons (Confines.forEach fun q _ => confines_commitHead q.1 t)
      (confines_inSequence_cons (fun _ => (confined_cons ..).2 ⟨rfl, confined_nil⟩)
      (confines_inSequence_cons (Confines.forEach fun x _ => confines_sendTokens x.req true)
      (confines_inSequence_cons (Confines.forEach fun x _ => confines_sendTokens x.req _)
      (confines_inSequence_cons (Confines.forEach fun y _ => ?_)
      (confines_inSequence_cons (Confines.onlyIf fun _ => (confined_flagSvc rfl).mono (by decide) (by decide))
      (confines_inSequence_cons (as := []) (fun d => ?_) Confines.nil)))))) d
    · intro d
      split
      · exact (confines_releaseWith _ _ _ _ _ _ d).mono (by decide) (by decide)
      · exact confines_completeRefused i _ d
    · exact (confined_flatMap ..).2 fun _ _ => (confined_flagSvc rfl).mono (by decide) (by decide)

end requests

/-! ### Jobs and commands -/

theorem confines_pullNext (handle : Nat) : Confines serviceParts serviceRegs (pullNext handle) := by
  have read (s : Shard) (addr len : Nat) (p : Pull) (d : Dev) : Confined serviceParts serviceRegs (if (d.qp s.qp).st = .ready then
      inSequence [fun _ => [onJob handle fun j => { j with pulling := true }],
        rocePost s.qp (fun psn => .readReq psn addr s.rkey len) (some p) none] d
    else [endJob handle 0x20] ++ flagSvc F.SVC_ERR_PULL) := by
    split
    · exact confines_inSequence_cons (fun _ => (confined_cons ..).2 ⟨rfl, confined_nil⟩) (confines_inSequence_cons (as := [])
        ((confines_rocePost _ _ _ _).mono (by decide) (by decide)) Confines.nil) d
    · exact (confined_append ..).2 ⟨(confined_cons ..).2 ⟨rfl, confined_nil⟩, (confined_flagSvc rfl).mono (by decide) (by decide)⟩
  intro d
  unfold pullNext
  split
  · exact confined_nil
  · dsimp only
    split
    · exact confined_nil
    · split
      · split
        · exact read _ _ _ _ d
        · exact confined_nil
      · split
        · exact (confined_cons ..).2 ⟨rfl, confined_nil⟩
        · split
          · exact confined_nil
          · exact (confined_append ..).2 ⟨(confined_cons ..).2 ⟨rfl, confined_nil⟩, read _ _ _ _ d⟩

theorem confined_jobItem (d : Dev) (j : JobSt) (t : Option Nat) : Confined serviceParts serviceRegs (jobItem d j t) := by
  unfold jobItem
  split
  · exact (confined_cons ..).2 ⟨rfl, confined_nil⟩
  · exact confined_nil

theorem confines_commitJob (t : Nat) (j : JobSt) (fail : Option Nat) : Confines serviceParts serviceRegs (commitJob t j fail) := fun d => by
  unfold commitJob
  refine confines_inSequence_cons (fun _ => (confined_cons ..).2 ⟨rfl, confined_nil⟩)
    (confines_inSequence_cons ((confines_releaseWith _ _ _ _ _ _).mono (by decide) (by decide))
    (confines_inSequence_cons (fun _ => ?_) (confines_inSequence_cons (as := []) (confines_pullNext _) Confines.nil))) d
  split
  · exact (confined_cons ..).2 ⟨rfl, confined_nil⟩
  · split
    · simp only [confined_cons, confined_nil, and_true]
      exact ⟨rfl, rfl⟩
    · exact (confined_append ..).2 ⟨(confined_cons ..).2 ⟨rfl, confined_nil⟩, confined_jobItem d j _⟩

theorem confines_runSvcCmd (i t : Nat) (c : SvcCmd) : Confines serviceParts serviceRegs (runSvcCmd i t c) := fun d => by
  have release (handle : Nat) (pkey : BitVec 12) (status step reason : Nat) (tail : List Byte) :
      Confines serviceParts serviceRegs (releaseWith handle pkey status step reason tail) :=
    (confines_releaseWith handle pkey status step reason tail).mono (by decide) (by decide)
  unfold runSvcCmd
  split
  · exact (confined_cons ..).2 ⟨rfl, confined_nil⟩
  · exact (confined_cons ..).2 ⟨rfl, confined_nil⟩
  · rename_i j
    refine confines_inSequence_cons (fun _ => (confined_cons ..).2 ⟨rfl, confined_nil⟩)
      (confines_inSequence_cons (fun d => confined_jobItem d j _) (confines_inSequence_cons (release _ _ _ _ _ _).onlyIf
      (confines_inSequence_cons (fun _ => ?_) (confines_inSequence_cons (as := []) (confines_pullNext _) Confines.nil)))) d
    exact (confined_ite ..).2 ⟨fun _ => (confined_cons ..).2 ⟨rfl, confined_nil⟩, fun _ => confined_nil⟩
  · exact confines_inSequence_cons (release _ _ _ _ _ _) (confines_inSequence_cons (as := [])
      (fun _ => (confined_cons ..).2 ⟨rfl, confined_nil⟩) Confines.nil) d

theorem confines_stopAtOwners (i : Nat) : Confines [.outbox] [] (stopAtOwners i) := fun d => by
  unfold stopAtOwners
  dsimp only
  split
  · exact (confined_map ..).2 fun _ _ => rfl
  · exact confined_nil

theorem confines_switchBase (i : Nat) : Confines serviceParts serviceRegs (switchBase i) :=
  confines_inSequence_cons ((confines_stopAtOwners i).mono (by decide) (by decide))
    (confines_inSequence_cons (as := []) (fun _ => (confined_cons ..).2 ⟨rfl, confined_nil⟩) Confines.nil)

theorem makes_pointed_drainStop (i : Nat) : Makes Upd.pointed (drainStop i) := fun d =>
  Makes.onlyIf (Makes.cons (makes_pointed_of_confines (confines_stopAtOwners i) (by decide) (by decide) (by decide))
    (Makes.cons (fun _ => (each_cons ..).2 ⟨⟨rfl, fun _ => rfl⟩, each_nil⟩) Makes.nil)) d

theorem makes_pointed_of_service {a : Act} (h : Confines serviceParts serviceRegs a) : Makes Upd.pointed a :=
  makes_pointed_of_confines h (by decide) (by decide) (by decide)

/-- The service's part of a commit point (R529, R534, R540, R544, R545). -/
theorem makes_pointed_serviceCommit (i t : Nat) : Makes Upd.pointed (serviceCommit i t) := by
  refine Makes.cons (fun d => ?_) (Makes.cons (makes_pointed_of_service (fun d => ?_)) (Makes.cons (makes_pointed_of_service fun d => ?_)
    (Makes.cons (fun d => Makes.onlyIf (makes_pointed_of_service (confines_switchBase i)) d) (Makes.cons (makes_pointed_drainStop i)
    (Makes.cons (fun d => Makes.onlyIf (makes_pointed_of_confines (confines_closeList i (t + 1)) (by decide) (by decide) (by decide)) d)
      Makes.nil)))))
  · exact (each_ite ..).2 ⟨fun _ => makes_pointed_of_service (confines_commitRequests i t) d, fun _ => each_nil⟩
  · exact Confines.forEach (fun j _ => confines_commitJob t j _) d
  · exact confines_inSequence_cons (fun _ => (confined_cons ..).2 ⟨rfl, confined_nil⟩) (confines_inSequence_cons (as := [])
      (Confines.forEach fun c _ => confines_runSvcCmd i t c.2) Confines.nil) d

/-! ### The commit point -/

theorem confines_writeDigest (a : DigestAcc) : Confines [.regs, .hbm, .hbmBad, .hbmMarks] [.DIGEST_WR] (writeDigest a) := fun d => by
  unfold writeDigest
  split
  · exact confined_nil
  · exact confines_inSequence_cons ((confines_writeHbm _ _ _).mono (by decide) (by decide)) (confines_inSequence_cons (as := [])
      (fun _ => (confined_cons ..).2 ⟨rfl, confined_nil⟩) Confines.nil) d

theorem confines_commitDigests (pkey : BitVec 12) (t : Nat) :
    Confines [.regs, .hbm, .hbmBad, .hbmMarks, .digests] [.DIGEST_WR] (commitDigests pkey t) := fun d => by
  unfold commitDigests
  refine confines_inSequence_cons (Confines.forEach fun a _ => (confines_writeDigest a).mono (by decide) (by decide))
    (confines_inSequence_cons (as := []) (fun _ => ?_) Confines.nil) d
  exact (confined_ite ..).2 ⟨fun _ => confined_nil, fun _ => (confined_cons ..).2 ⟨rfl, confined_nil⟩⟩

theorem confines_snapCommit (pkey : BitVec 12) :
    Confines [.regs, .snapInfo, .snapPub] [.SNAP_GCNT, .SNAP_SEQ, .SNAP_STATUS] (snapCommit pkey) := fun d => by
  unfold snapCommit
  dsimp only
  rw [confined_ite]
  refine ⟨fun _ => (confined_append ..).2 ⟨(confined_cons ..).2 ⟨rfl, confined_nil⟩, (confined_ite ..).2 ⟨fun _ => ?_, fun _ => confined_nil⟩⟩,
    fun _ => confined_nil⟩
  exact (tames_publishSnap false d).confined.mono (by decide) (List.Subset.refl _)

/-- The count of a commit, with what it takes of the step's undo log, records and shadow (R452). -/
def countCommit (i t : Nat) : Act := fun d =>
  [.commit fun c => { c with
      undo := c.undo.filter fun u => !(u.slice = i && u.step = t)
      recCur := (c.recCur.filter fun r => !(r.slice = i && c.recStaged.any fun x => x.slice = i && x.step = t && x.core = r.core)) ++
        c.recStaged.filter fun r => r.slice = i && r.step = t
      recStaged := c.recStaged.filter fun r => !(r.slice = i && r.step = t) },
    addF F.COMMIT_CNT_COMMITS 0 1] ++
    ((d.boundRings (d.slice i).pkey).filter fun k => d.fld F.RING_CTL_MODE k = 2).flatMap fun k =>
      let later := fun (y : Nat) => decide (t < d.stepOf k i y)
      [.fld F.RING_STATUS_SHADOW_SEL k (fun v => 1 - v),
       .ring k fun r => { r with
        shadowBytes := 0, bwdExts := r.bwdExts.filter fun e => later e.year.toNat
        grads := r.grads.filter fun g => later g.year }]

/-- The step is committed (R452). -/
def markStep (i t : Nat) : Act := fun _ => [.slice i fun s => { s with committed := some t }]

/-- The steps up to the one committed are no longer open (R452). -/
def passSteps (i t : Nat) : Act := fun _ => [.slice i fun s => { s with
  steps := s.steps.filter fun e => t < e.step, rollbacks := 0
  noReplay := s.noReplay.filter fun n => t < n }]

/-- The acts of a commit point between the mark of the step and the word to the buddy (R452). -/
def pointWork (pkey : BitVec 12) (i t : Nat) : Act :=
  inSequence [
    commitDigests pkey t,
    serviceCommit i t,
    passSteps i t]

/-- The word to the buddy that a step is committed (R452). -/
def tellBuddy (pkey : BitVec 12) (t : Nat) : Act := fun d =>
  match d.buddyOf d.here with
  | some b => [.send (.mgmt b (.apply pkey t))]
  | none => []

theorem commitPoint_eq (i t : Nat) (d : Dev) : runAct (commitPoint i t) d =
    runAct (snapCommit (d.slice i).pkey) (runAct (tellBuddy (d.slice i).pkey t) (runAct (pointWork (d.slice i).pkey i t)
      (runAct (markStep i t) (runAct (countCommit i t) d)))) := by
  have act : commitPoint i t d = inSequence [
      fun _ => countCommit i t d, markStep i t, commitDigests (d.slice i).pkey t, serviceCommit i t, passSteps i t, tellBuddy (d.slice i).pkey t, snapCommit (d.slice i).pkey] d := rfl
  rw [runAct_of_eq act, pointWork, runAct_three, runAct_inSequence_cons, runAct_inSequence_cons, runAct_inSequence_cons, runAct_inSequence_cons,
    runAct_three, runAct_list, ← runAct_eq]

theorem makes_pointed_pointWork (pkey : BitVec 12) (i t : Nat) : Makes Upd.pointed (pointWork pkey i t) :=
  Makes.cons (makes_pointed_of_confines (confines_commitDigests pkey t) (by decide) (by decide) (by decide))
    (Makes.cons (makes_pointed_serviceCommit i t) (Makes.cons (fun _ => (each_cons ..).2 ⟨⟨rfl, fun _ => rfl⟩, each_nil⟩) Makes.nil))

theorem confined_countCommit (i t : Nat) (d : Dev) : Confined [.regs, .commit, .rings] [.COMMIT_CNT, .RING_STATUS] (countCommit i t d) := by
  unfold countCommit
  refine (confined_append ..).2 ⟨(confined_cons ..).2 ⟨rfl, (confined_cons ..).2 ⟨rfl, confined_nil⟩⟩, (confined_flatMap ..).2 fun k _ => ?_⟩
  exact (confined_cons ..).2 ⟨rfl, (confined_cons ..).2 ⟨rfl, confined_nil⟩⟩

theorem counted_countCommit (i t : Nat) (d : Dev) : d.counted (runAct (countCommit i t) d) F.COMMIT_CNT_COMMITS 0 1 := by
  rw [runAct_eq, countCommit, applyAll_append]
  refine (Confined.fld (ps := [.regs, .rings]) (rs := [.RING_STATUS]) ((confined_flatMap ..).2 fun k _ => ?_) _ (by decide) 0).trans ?_
  · exact (confined_cons ..).2 ⟨rfl, (confined_cons ..).2 ⟨rfl, confined_nil⟩⟩
  · exact fld_addF _ _ _ _

theorem confined_tellBuddy (pkey : BitVec 12) (t : Nat) (d : Dev) : Confined [.outbox] [] (tellBuddy pkey t d) := by
  unfold tellBuddy
  split
  · exact (confined_cons ..).2 ⟨rfl, confined_nil⟩
  · exact confined_nil

/-- What a commit point leaves: the step is committed and counted, the module's place and its router stand, and the buddy has been told. -/
structure AtPoint (d e : Dev) (i t : Nat) : Prop where
  committed : (e.slice i).committed = some t
  counted : d.counted e F.COMMIT_CNT_COMMITS 0 1
  coord : ∀ j, e.reg .DEV_COORD j = d.reg .DEV_COORD j
  route : e.route = d.route
  told : ∀ c, d.buddyOf d.here = some c → Msg.mgmt c (.apply (d.slice i).pkey t) ∈ e.outbox

theorem buddyOf_congr {d d' : Dev} (coord : ∀ i, d'.reg .DEV_COORD i = d.reg .DEV_COORD i) :
    d'.buddyOf d'.here = d.buddyOf d.here ∧ d'.wardOf d'.here = d.wardOf d.here := by
  obtain ⟨axis, here⟩ := shape_congr coord
  simp only [Dev.buddyOf, Dev.wardOf, Dev.buddyAxis, Dev.stepOn, axis, here, and_self]

theorem atPoint_commitPoint (i t : Nat) (d : Dev) : AtPoint d (runAct (commitPoint i t) d) i t := by
  have count := confined_countCommit i t d
  have counted := counted_countCommit i t d
  rw [commitPoint_eq]
  have coord : ∀ j, (runAct (countCommit i t) d).reg .DEV_COORD j = d.reg .DEV_COORD j := fun j => count.reg d (by decide) j
  have route : (runAct (countCommit i t) d).route = d.route := keepAll_route d (count.leaves (by decide))
  generalize runAct (countCommit i t) d = d1 at *
  have mark : Confined [.slices] [] (markStep i t d1) := (confined_cons ..).2 ⟨rfl, confined_nil⟩
  have set : ((runAct (markStep i t) d1).slice i).committed = some t :=
    congrArg SliceSt.committed (slice_apply_same d1 i fun s => { s with committed := some t })
  have coord2 := fun j => (mark.reg d1 (r := .DEV_COORD) (by decide) j).trans (coord j)
  have route2 := (keepAll_route d1 (mark.leaves (by decide))).trans route
  have counted2 := (mark.fld d1 (f := F.COMMIT_CNT_COMMITS) (by decide) 0).trans counted
  rw [← runAct_eq] at coord2 route2 counted2
  generalize runAct (markStep i t) d1 = d2 at *
  have work := makes_pointed_pointWork (d.slice i).pkey i t d2
  have committed3 := work.pointed_slice d2 i
  have coord3 := fun j => (work.pointed_confined.reg d2 (r := .DEV_COORD) (by decide) j).trans (coord2 j)
  have route3 := (keepAll_route d2 (work.pointed_confined.leaves (by decide))).trans route2
  have counted3 := (work.pointed_confined.fld d2 (f := F.COMMIT_CNT_COMMITS) (by decide) 0).trans counted2
  rw [← runAct_eq] at coord3 route3 counted3 committed3
  generalize runAct (pointWork (d.slice i).pkey i t) d2 = d3 at *
  have tell := confined_tellBuddy (d.slice i).pkey t d3
  have snap := confines_snapCommit (d.slice i).pkey (runAct (tellBuddy (d.slice i).pkey t) d3)
  have slice4 : (runAct (snapCommit (d.slice i).pkey) (runAct (tellBuddy (d.slice i).pkey t) d3)).slice i = d3.slice i :=
    (snap.slice _ (by decide) i).trans (tell.slice d3 (by decide) i)
  refine ⟨?_, ?_, fun j => ?_, ?_, fun c hc => ?_⟩
  · rw [slice4, committed3, set]
  · exact (snap.fld _ (by decide) 0).trans ((tell.fld d3 (by decide) 0).trans counted3)
  · exact (snap.reg _ (by decide) j).trans ((tell.reg d3 (by decide) j).trans (coord3 j))
  · exact (keepAll_route _ (snap.leaves (by decide))).trans ((keepAll_route d3 (tell.leaves (by decide))).trans route3)
  · refine (sent_applyAll _ _).subset ?_
    rw [runAct_eq, tellBuddy, (buddyOf_congr coord3).1, hc]
    exact List.mem_append_right _ (List.mem_singleton_self _)

end Sys2Proof.Machine
end

