-- ==== Sys2Proof/Proofs/StepsCommitted.lean ====
section
/-! PROOFS. How a step commits (R444, R447, R449–R452, R454, R470): mirrored writes, acknowledgements, READY, DECIDE, COMMIT and APPLY. -/

namespace Sys2Proof.Machine

/-! ### Mirrored writes (R447, R449, R470) -/

/-- A log that is full is recorded and fences its slice (R449). -/
theorem tames_logFull_fence (i t : Nat) : Tames fenceParts fenceRegs (logFull i t) := by
  refine Tames.cons (fun _ => ?_) (Tames.cons (tames_faultSlice i 1) Tames.nil)
  simp only [tame_append, tame_cons, tame_nil, and_true]
  exact ⟨tame_flagFault (bit := F.RECOV_ERR_LOG_FULL) (faults := F.RECOV_ERR_FAULTS) ⟨by decide, rfl, by decide⟩ rfl (by decide)
    (by decide) (by decide) 0, tame_onStep (by decide) i t _, tame_slice (by decide) fun s => ⟨rfl, id, id⟩⟩

theorem errorBit_logFull : ErrorBit F.RECOV_ERR_LOG_FULL := ⟨by decide, rfl, by decide⟩

theorem logFull_reads (i t : Nat) (d : Dev) : (runAct (logFull i t) d).fld F.RECOV_ERR_LOG_FULL = 1 := by
  rw [logFull, runAct_two]
  refine (tames_faultSlice i 1 _).error _ errorBit_logFull ?_
  rw [runAct_list, applyAll_append]
  refine Eq.trans (Confined.fld (ps := [.slices]) (rs := []) ?_ _ (by decide) 0) (fld_flagFault d 0 rfl (by decide)).1
  exact (confined_cons ..).2 ⟨rfl, (confined_cons ..).2 ⟨rfl, confined_nil⟩⟩

/-- What becomes of a ward whose staged writes overflow (R449). -/
def overflow (step : Nat) (p : Packet) : Act := fun d =>
  match d.sliceOf p.key with
  | some i => logFull i step d
  | none => flagRecov F.RECOV_ERR_LOG_FULL

theorem tames_overflow (step : Nat) (p : Packet) : Tames fenceParts fenceRegs (overflow step p) := fun d => by
  unfold overflow
  split
  · exact tames_logFull_fence _ step d
  · exact tame_flagFault (bit := F.RECOV_ERR_LOG_FULL) (faults := F.RECOV_ERR_FAULTS) errorBit_logFull rfl (by decide) (by decide) (by decide) 0

theorem overflow_reads (step : Nat) (p : Packet) (d : Dev) : (runAct (overflow step p) d).fld F.RECOV_ERR_LOG_FULL = 1 := by
  rw [runAct_eq, overflow]
  split
  · exact logFull_reads _ step d
  · exact (fld_flagFault d 0 rfl (by decide)).1

/-- A mirrored write of the ward, staged and acknowledged (R447). -/
def stageWrite (step use : Nat) (p : Packet) : List Upd :=
  [.commit fun c => { c with staged := c.staged ++ [⟨p.key, step, p.addr.toNat, p.payload⟩] },
    maxF F.COMMIT_LOG_STAGED_PEAK 0 ((use + 1048575) / 1048576), .send (.mgmt p.srcCoord (.mirrorAck p.key step))]

theorem confined_stageWrite (step use : Nat) (p : Packet) : Confined [.regs, .commit, .outbox] [.COMMIT_LOG] (stageWrite step use p) := by
  simp only [stageWrite, confined_cons, confined_nil, and_true]
  exact ⟨rfl, rfl, rfl⟩

theorem stageWrite_reads (step use : Nat) (p : Packet) (d : Dev) :
    (applyAll (stageWrite step use p) d).commit.staged = d.commit.staged ++ [⟨p.key, step, p.addr.toNat, p.payload⟩] ∧
    Msg.mgmt p.srcCoord (.mirrorAck p.key step) ∈ (applyAll (stageWrite step use p) d).outbox := by
  simp only [stageWrite, applyAll_cons, applyAll_nil]
  exact ⟨rfl, List.mem_append_right _ (List.mem_singleton_self _)⟩

/-- Whether a packet is a mirrored write of the ward or the buddy (R447). -/
def Dev.takesMirror (d : Dev) (pkt : Packet) : Bool := decide (pkt.ptype.toNat = ptWrite) && pkt.mirror && d.paired pkt.srcCoord

theorem mirrorWrite_eq (port step : Nat) (p : Packet) (d : Dev) : mirrorWriteReceiveAct port step p d =
    if !d.takesMirror p then [] else if pktVc p = 5 then recoveryWrite port p d
    else inSequence [fun _ => stageWrite step (d.stagedUse + p.payload.length) p,
      onlyIf (d.commitLogHalf < d.stagedUse + p.payload.length) (overflow step p)] d := by
  have cond : (decide (p.ptype.toNat ≠ ptWrite) || !p.mirror || !d.paired p.srcCoord) = !d.takesMirror p := by
    simp [Dev.takesMirror, Bool.not_and]
  unfold mirrorWriteReceiveAct
  rw [cond]
  rfl

section mirror
variable {s : State} (hs : s.dev.steady) {p : Fin 6} {t : Nat} {pkt : Packet}
include hs

theorem completes_notMirrored (h : s.dev.takesMirror pkt = false) : Completes (.mirrorWriteReceive p t pkt) s fun d => s.dev.wrote d [] :=
  completes_nothing rfl hs (by rw [mirrorWrite_eq, h]; rfl) fun _ q => q.wrote (wrote_refl _)

/-- A mirrored write of the ward is staged and acknowledged; one that overflows its half of the log is a fault (R447, R449). -/
theorem completes_staged (h : s.dev.takesMirror pkt = true) (vc : pktVc pkt ≠ 5) : Completes (.mirrorWriteReceive p t pkt) s fun d =>
    d.commit.staged = s.dev.commit.staged ++ [⟨pkt.key, t, pkt.addr.toNat, pkt.payload⟩] ∧
    Msg.mgmt pkt.srcCoord (.mirrorAck pkt.key t) ∈ d.outbox ∧ sameMemory s.dev d ∧
    (s.dev.commitLogHalf < s.dev.stagedUse + pkt.payload.length → d.fld F.RECOV_ERR_LOG_FULL = 1) ∧
    (s.dev.stagedUse + pkt.payload.length ≤ s.dev.commitLogHalf → regsBut [.COMMIT_LOG] s.dev d) := by
  have act := (mirrorWrite_eq p.val t pkt s.dev).trans ((if_neg (by rw [h]; exact Bool.false_ne_true)).trans (if_neg vc))
  have stage := confined_stageWrite t (s.dev.stagedUse + pkt.payload.length) pkt
  obtain ⟨staged, acked⟩ := stageWrite_reads t (s.dev.stagedUse + pkt.payload.length) pkt s.dev
  have memory := stage.memory (by decide) s.dev
  by_cases over_ : s.dev.commitLogHalf < s.dev.stagedUse + pkt.payload.length
  · refine completes_behind rfl hs fun d b => ?_
    rw [runAct_of_eq act, runAct_two, decide_eq_true over_, runAct_onlyIf_true, runAct_list] at b
    have full := tames_overflow t pkt (applyAll (stageWrite t (s.dev.stagedUse + pkt.payload.length) pkt) s.dev)
    have bit := overflow_reads t pkt (applyAll (stageWrite t (s.dev.stagedUse + pkt.payload.length) pkt) s.dev)
    generalize applyAll (stageWrite t (s.dev.stagedUse + pkt.payload.length) pkt) s.dev = e at *
    have keep := keepAll_commit e (full.confined.leaves (p := .commit) (by decide))
    have same := full.confined.memory (by decide) e
    rw [← runAct_eq] at keep same
    refine ⟨by rw [b.commit, keep, staged], b.sent ((sent_applyAll _ _).subset acked), memory.trans (same.trans b.memory),
      fun _ => b.error errorBit_logFull bit, fun le => absurd over_ (Nat.not_lt.2 le)⟩
  · have run : mirrorWriteReceiveAct p.val t pkt s.dev = stageWrite t (s.dev.stagedUse + pkt.payload.length) pkt := by
      simp [act, inSequence, onlyIf, over_]
    refine completes_does rfl hs run stage (by decide) fun d q => ?_
    exact ⟨by rw [q.commit, staged], q.sent.subset acked, memory.trans q.memory, fun lt => absurd lt over_,
      fun _ => q.regsBut (stage.regsBut _ (by decide))⟩

end mirror

section recovery
variable {s : State} (hs : s.dev.steady) {p : Fin 6} {t : Nat} {pkt : Packet}
include hs

/-- Whether a recovery write comes from the buddy: on an axis of two modules the link tells (R470). -/
def Dev.fromBuddy (d : Dev) (p : Nat) (pkt : Packet) : Bool :=
  decide (d.buddyOf d.here = some pkt.srcCoord) && (!decide (d.buddyOf d.here = d.wardOf d.here) || portPlus p)

omit hs in
theorem recoveryWrite_own (h : s.dev.fromBuddy p pkt = true) : recoveryWrite p.val pkt s.dev =
    if s.dev.bit F.SAFE_STATUS_RELINQUISHED then [] else writeHbm pkt.addr.toNat pkt.payload pkt.bad s.dev := if_pos h

/-- What the buddy sends in recovery is written to HBM, unless the module has given up its role (R469, R470). -/
theorem completes_restored (h : s.dev.takesMirror pkt = true) (vc : pktVc pkt = 5) (own : s.dev.fromBuddy p pkt = true) :
    Completes (.mirrorWriteReceive p t pkt) s fun d => regsBut [] s.dev d ∧
      d.hbm = if s.dev.bit F.SAFE_STATUS_RELINQUISHED then s.dev.hbm else (runAct (writeHbm pkt.addr.toNat pkt.payload pkt.bad) s.dev).hbm := by
  have act := (mirrorWrite_eq p.val t pkt s.dev).trans ((if_neg (by rw [h]; exact Bool.false_ne_true)).trans ((if_pos vc).trans (recoveryWrite_own own)))
  by_cases gone : s.dev.bit F.SAFE_STATUS_RELINQUISHED = true
  · refine completes_nothing rfl hs (act.trans (if_pos gone)) fun d q => ⟨q.regsBut fun _ _ _ _ => rfl, ?_⟩
    rw [if_pos gone, q.hbm]
  · have write := confines_writeHbm pkt.addr.toNat pkt.payload pkt.bad s.dev
    refine completes_does rfl hs (act.trans (if_neg gone)) write (by decide) fun d q => ⟨q.regsBut (write.regsBut _ (by decide)), ?_⟩
    rw [if_neg gone, q.hbm, runAct_eq]

omit hs in
/-- The ward's mirror rebuilds (R470). -/
def noteRebuilt (n : Nat) : Act := fun d =>
  [setF F.BUDDY_STATUS_REBUILDING 0 1, setF F.BUDDY_STATUS_MIRROR_OK 0 0, .commit fun c => { c with rebuilt := c.rebuilt + n },
    setF F.BUDDY_STATUS_REBUILT 0 ((d.commit.rebuilt + n) / 1048576)]

omit hs in
theorem noteRebuilt_reads (n : Nat) (d : Dev) : (runAct (noteRebuilt n) d).hbm = d.hbm ∧
    (runAct (noteRebuilt n) d).fld F.BUDDY_STATUS_REBUILDING = 1 ∧ (runAct (noteRebuilt n) d).fld F.BUDDY_STATUS_MIRROR_OK = 0 := by
  have confined : Confined [.regs, .commit] [.BUDDY_STATUS] (noteRebuilt n d) := by
    simp only [noteRebuilt, confined_cons, confined_nil, and_true]
    exact ⟨rfl, rfl, rfl, rfl⟩
  refine ⟨keepAll_hbm d (confined.leaves (by decide)), ?_⟩
  rw [runAct_eq, noteRebuilt]
  simp (disch := exact of_decide_eq_true rfl) only [applyAll_cons, applyAll_nil, fld_apply_spared, fld_setF]
  exact ⟨rfl, rfl⟩

omit hs in
theorem confines_writeMirror (a : Nat) (bs : List Byte) (bad : Bool) : Confines [.hbm, .hbmBad, .hbmMarks] [] (writeMirror a bs bad) := fun d => by
  unfold writeMirror
  split
  · exact confines_writeHbm _ _ _ d
  · exact confined_nil

omit hs in
theorem recoveryWrite_ward (own : s.dev.fromBuddy p pkt = false) (ward : s.dev.wardOf s.dev.here = some pkt.srcCoord) :
    recoveryWrite p.val pkt s.dev =
      inSequence [writeMirror pkt.addr.toNat pkt.payload pkt.bad, noteRebuilt pkt.payload.length] s.dev :=
  (if_neg (Bool.eq_false_iff.1 own)).trans (if_pos ward)

/-- What the ward sends in recovery rebuilds its mirror (R470). -/
theorem completes_rebuilt (h : s.dev.takesMirror pkt = true) (vc : pktVc pkt = 5) (own : s.dev.fromBuddy p pkt = false)
    (ward : s.dev.wardOf s.dev.here = some pkt.srcCoord) : Completes (.mirrorWriteReceive p t pkt) s fun d =>
      d.hbm = (runAct (writeMirror pkt.addr.toNat pkt.payload pkt.bad) s.dev).hbm ∧
      d.fld F.BUDDY_STATUS_REBUILDING = 1 ∧ d.fld F.BUDDY_STATUS_MIRROR_OK = 0 := by
  have act := (mirrorWrite_eq p.val t pkt s.dev).trans ((if_neg (by rw [h]; exact Bool.false_ne_true)).trans ((if_pos vc).trans
    (recoveryWrite_ward own ward)))
  refine completes_behind rfl hs fun d b => ?_
  rw [runAct_of_eq act, runAct_two] at b
  obtain ⟨hbm, rebuilding, ok⟩ := noteRebuilt_reads pkt.payload.length (runAct (writeMirror pkt.addr.toNat pkt.payload pkt.bad) s.dev)
  exact ⟨b.hbm.trans hbm, (b.fld (by decide) 0).trans rebuilding, (b.fld (by decide) 0).trans ok⟩

end recovery

/-! ### Acknowledgements (R445, R447, R450) -/

/-- A slice with one packet of a step fewer still out. -/
def fewerOut (t : Nat) (s : SliceSt) : SliceSt :=
  { s with steps := s.steps.map fun e => if e.step = t then { e with mirrorOut := e.mirrorOut - 1 } else e }

/-- A mirrored packet of a step is held by the buddy. -/
def ackStep (i t : Nat) : Act := fun _ => [.slice i (fewerOut t)]

theorem find_map_step {l : List StepSt} {t : Nat} {e : StepSt} {g : StepSt → StepSt} (hg : ∀ x, (g x).step = x.step)
    (h : (l.find? fun x => x.step = t) = some e) :
    ((l.map fun x => if x.step = t then g x else x).find? fun x => x.step = t) = some (g e) := by
  have at_ : e.step = t := by simpa using List.find?_some h
  have same : ((fun x : StepSt => decide (x.step = t)) ∘ fun x => if x.step = t then g x else x) = fun x => decide (x.step = t) := by
    funext x
    simp only [Function.comp]
    split
    · rw [hg]
    · rfl
  rw [List.find?_map, same, h, Option.map_some, if_pos at_]

theorem find_onStep {sl : SliceSt} {t : Nat} {e : StepSt} {g : StepSt → StepSt} (hg : ∀ x, (g x).step = x.step)
    (h : (sl.steps.find? fun x => x.step = t) = some e) : ((onStep t g sl).steps.find? fun x => x.step = t) = some (g e) := by
  have any : (sl.steps.any fun x => decide (x.step = t)) = true := 
    List.any_eq_true.2 ⟨e, List.mem_of_find?_eq_some h, List.find?_some (p := fun x : StepSt => decide (x.step = t)) h⟩
  unfold onStep
  rw [if_pos any]
  exact find_map_step hg h

/-- A slice keeps the packets of a step that are still out when the module tells the home that it is ready. -/
theorem mirrorOut_checkReady {i t : Nat} {d : Dev} {e : StepSt} (h : ((d.slice i).steps.find? fun x => x.step = t) = some e) :
    ∃ e', (((runAct (checkReady i t) d).slice i).steps.find? fun x => x.step = t) = some e' ∧ e'.mirrorOut = e.mirrorOut := by
  rw [runAct_eq, checkReady]
  split
  · split
    · simp only [applyAll_cons, applyAll_nil, apply_send]
      refine ⟨{ e with readySent := true }, ?_, rfl⟩
      change ((((Upd.slice i _).apply d).slice i).steps.find? _) = _
      rw [slice_apply_same]
      exact find_onStep (fun _ => rfl) h
    · exact ⟨e, h, rfl⟩
  · exact ⟨e, h, rfl⟩

theorem ackStep_slice (i t : Nat) (d : Dev) : (runAct (ackStep i t) d).slice i = fewerOut t (d.slice i) := slice_apply_same d i (fewerOut t)

theorem confines_checkPlaced : Confines [.start, .outbox] [] checkPlaced := fun d => by
  unfold checkPlaced
  rw [confined_ite]
  exact ⟨fun _ => (confined_cons ..).2 ⟨rfl, (confined_cons ..).2 ⟨rfl, confined_nil⟩⟩, fun _ => confined_nil⟩

/-- A module that is ready for a step tells its home (R450). -/
theorem sent_checkReady {i t : Nat} {d : Dev} (ready : d.readyFor i t = true) {x : SliceDesc} (desc : (d.slice i).desc = some x) :
    Msg.mgmt (homeOf x) (.ready (d.slice i).pkey t) ∈ (runAct (checkReady i t) d).outbox := by
  have act : checkReady i t d = [.slice i (onStep t fun s => { s with readySent := true }), .send (.mgmt (homeOf x) (.ready (d.slice i).pkey t))] := by
    rw [checkReady, if_pos ready, desc]
  rw [runAct_eq, act]
  exact List.mem_append_right _ (List.mem_singleton_self _)

/-- What makes a module ready for a step, once nothing of the step is out any more (R450). -/
theorem readyFor_ackStep {d : Dev} {i t : Nat} {e : StepSt} (found : ((d.slice i).steps.find? fun x => x.step = t) = some e)
    (open_ : (d.slice i).fenced = false) (member : d.memberHere (d.slice i) = true) (unsent : e.readySent = false) (last : e.mirrorOut = 1)
    (reports : ((d.committers i).all fun c => e.reports.contains c) = true) (shadow : d.shadowDone i = true) :
    (runAct (ackStep i t) d).readyFor i t = true := by
  have slice := ackStep_slice i t d
  have key : ((runAct (ackStep i t) d).slice i).pkey = (d.slice i).pkey := by rw [slice]; rfl
  have committers : (runAct (ackStep i t) d).committers i = d.committers i := by
    unfold Dev.committers
    rw [key]
    rfl
  have done : (runAct (ackStep i t) d).shadowDone i = d.shadowDone i := by
    unfold Dev.shadowDone
    rw [key]
    rfl
  have fewer : ((fewerOut t (d.slice i)).steps.find? fun x => x.step = t) = some { e with mirrorOut := e.mirrorOut - 1 } :=
    find_map_step (g := fun e => { e with mirrorOut := e.mirrorOut - 1 }) (fun _ => rfl) found
  have here : (runAct (ackStep i t) d).memberHere (fewerOut t (d.slice i)) = true := member
  unfold Dev.readyFor
  dsimp only
  rw [committers, done, slice, fewer, here]
  simp only [show (fewerOut t (d.slice i)).fenced = false from open_, unsent, last, reports, shadow]
  rfl

/-- The mirror of a slice's state at placement is held by the buddy (R445). -/
def holdMirrors (i : Nat) : Act := fun d =>
  (d.activeRings (d.slice i).pkey).map fun k => .ring k fun r => { r with mirrorHeld := true }

theorem mirrorHeld_mark (l : List Nat) (d : Dev) {k : Nat} (h : k ∈ l ∨ (d.ring k).mirrorHeld = true) :
    ((applyAll (l.map fun k => .ring k fun r => { r with mirrorHeld := true }) d).ring k).mirrorHeld = true := by
  induction l generalizing d with
  | nil => exact h.elim (fun m => nomatch m) id
  | cons j l ih =>
    rw [List.map_cons, applyAll_cons]
    refine ih _ ?_
    rw [ring_apply_ring]
    by_cases same : k = j
    · exact .inr (by rw [if_pos same])
    · rw [if_neg same]
      exact h.imp_left fun m => (List.mem_cons.1 m).resolve_left same

section acks
variable {s : State} (hs : s.dev.steady) {i : Fin 256}
include hs

/-- An acknowledgement of a step's packet leaves one fewer out, and may make the module ready (R447, R450). -/
theorem completes_acked {t : Nat} {e : StepSt} (found : ((s.dev.slice i).steps.find? fun x => x.step = t) = some e) :
    Completes (.mirrorAckReceive i (some t)) s fun d =>
      (∃ e', ((d.slice i).steps.find? fun x => x.step = t) = some e' ∧ e'.mirrorOut = e.mirrorOut - 1) ∧ sameMemory s.dev d ∧
      (∀ x, (s.dev.slice i).fenced = false → s.dev.memberHere (s.dev.slice i) = true → (s.dev.slice i).desc = some x → e.readySent = false →
        e.mirrorOut = 1 → ((s.dev.committers i).all fun c => e.reports.contains c) = true → s.dev.shadowDone i = true →
        Msg.mgmt (homeOf x) (.ready (s.dev.slice i).pkey t) ∈ d.outbox) := by
  have act : mirrorHeldAct i (some t) = inSequence [inSequence [ackStep i t, checkReady i t], checkPlaced] := rfl
  have confines : Confines [.slices, .outbox, .start] [] (inSequence [inSequence [ackStep i t, checkReady i t], checkPlaced]) :=
    confines_inSequence_cons (confines_inSequence_cons (fun _ => (confined_cons ..).2 ⟨rfl, confined_nil⟩) (confines_inSequence_cons (as := [])
      ((confines_checkReady i t).mono (by decide) (List.Subset.refl _)) Confines.nil))
      (confines_inSequence_cons (as := []) (confines_checkPlaced.mono (by decide) (List.Subset.refl _)) Confines.nil)
  refine completes_does rfl hs (congrFun act s.dev) (confines s.dev) (by decide) fun d q => ?_
  have memory := (confines s.dev).memory (by decide) s.dev
  rw [← runAct_eq, runAct_two, runAct_two] at q memory
  have fewer : (((runAct (ackStep i t) s.dev).slice i).steps.find? fun x => x.step = t) = some { e with mirrorOut := e.mirrorOut - 1 } := by
    rw [ackStep_slice]
    exact find_map_step (g := fun e => { e with mirrorOut := e.mirrorOut - 1 }) (fun _ => rfl) found
  obtain ⟨e', found', out⟩ := mirrorOut_checkReady fewer
  have placed := confines_checkPlaced (runAct (checkReady i t) (runAct (ackStep i t) s.dev))
  refine ⟨⟨e', ?_, out⟩, memory.trans q.memory, fun x open_ member desc unsent last reports shadow => ?_⟩
  · rw [q.slice, runAct_eq checkPlaced, placed.slice _ (by decide)]
    exact found'
  · have ready := readyFor_ackStep found open_ member unsent last reports shadow
    have slice := ackStep_slice i t s.dev
    have told := sent_checkReady ready (x := x) (by rw [slice]; exact desc)
    rw [slice] at told
    exact q.sent.subset ((sent_applyAll _ _).subset told)

/-- The buddy's acknowledgement of a slice's state at placement marks its armed and live contexts (R445). -/
theorem completes_mirrorHeld : Completes (.mirrorAckReceive i none) s fun d =>
    ∀ k ∈ s.dev.activeRings (s.dev.slice i).pkey, (d.ring k).mirrorHeld = true := by
  have act : mirrorHeldAct i none = inSequence [holdMirrors i, checkPlaced] := rfl
  have confines : Confines [.rings, .outbox, .start] [] (inSequence [holdMirrors i, checkPlaced]) :=
    confines_inSequence_cons (fun _ => (confined_map ..).2 fun _ _ => rfl) (confines_inSequence_cons (as := [])
      (confines_checkPlaced.mono (by decide) (List.Subset.refl _)) Confines.nil)
  refine completes_does rfl hs (congrFun act s.dev) (confines s.dev) (by decide) fun d q k hk => ?_
  rw [← runAct_eq, runAct_two] at q
  rw [q.ring, runAct_eq checkPlaced, (confines_checkPlaced _).ring _ (by decide)]
  exact mirrorHeld_mark _ s.dev (.inl hk)

end acks

/-! ### The home (R450, R451) -/

/-- Updates of slices and of what is sent keep the router and every register. -/
theorem route_of_confined {ps : List Part} {rs : List Reg} {us : List Upd} (h : Confined ps rs us) (route : Part.route ∉ ps) (d : Dev) :
    (applyAll us d).route = d.route := keepAll_route d (h.leaves route)

/-- The decision of a step in the home's record (R451). -/
def markDecided (t : Nat) (s : SliceSt) : SliceSt :=
  { s with home := { s.home with deciding := none, decided := some t, ready := s.home.ready.filter fun r => t < r.2 } }

/-- The home sends COMMIT to every other member (R451). -/
def sendCommits (x : SliceDesc) (pkey : BitVec 12) (t : Nat) : Act := fun d =>
  ((d.members x).filter fun c => c ≠ d.here).map fun c => .send (.mgmt c (.commit pkey t))

theorem homeDecided_eq {i t : Nat} {d : Dev} {x : SliceDesc} (desc : (d.slice i).desc = some x) : homeDecided i t d =
    inSequence [fun _ => [.slice i (markDecided t)], onlyIf (!(d.slice i).fenced && (d.slice i).nextStep = t)
      (inSequence [commitPoint i t, sendCommits x (d.slice i).pkey t])] d := by
  unfold homeDecided
  dsimp only
  rw [desc]
  rfl

/-- A step committed at the home: what the commit point leaves, and COMMIT to every other member. -/
structure HomeCommitted (d e : Dev) (i t : Nat) (x : SliceDesc) : Prop where
  committed : (e.slice i).committed = some t
  counted : d.counted e F.COMMIT_CNT_COMMITS 0 1
  coord : ∀ j, e.reg .DEV_COORD j = d.reg .DEV_COORD j
  route : e.route = d.route
  told : ∀ c, d.buddyOf d.here = some c → Msg.mgmt c (.apply (d.slice i).pkey t) ∈ e.outbox
  sent : ∀ c ∈ d.members x, c ≠ d.here → Msg.mgmt c (.commit (d.slice i).pkey t) ∈ e.outbox

theorem members_congr {d d' : Dev} (coord : ∀ i, d'.reg .DEV_COORD i = d.reg .DEV_COORD i) (x : SliceDesc) :
    d'.members x = d.members x := by
  obtain ⟨axis, -⟩ := shape_congr coord
  simp only [Dev.members, axis]

theorem homeCommitted_homeDecided {i t : Nat} {d : Dev} {x : SliceDesc} (desc : (d.slice i).desc = some x) (open_ : (d.slice i).fenced = false)
    (next : (d.slice i).nextStep = t) : HomeCommitted d (runAct (homeDecided i t) d) i t x := by
  have cond : (!(d.slice i).fenced && decide ((d.slice i).nextStep = t)) = true := by rw [open_, decide_eq_true next]; rfl
  rw [runAct_of_eq (homeDecided_eq desc), cond, runAct_two, runAct_onlyIf_true, runAct_two]
  have mark : Confined [.slices] [] [Upd.slice i (markDecided t)] := (confined_cons ..).2 ⟨rfl, confined_nil⟩
  have key : ((runAct (fun _ => [Upd.slice i (markDecided t)]) d).slice i).pkey = (d.slice i).pkey := by
    rw [runAct_list, applyAll_cons, applyAll_nil, slice_apply_same]
    rfl
  have coord : ∀ j, (runAct (fun _ => [Upd.slice i (markDecided t)]) d).reg .DEV_COORD j = d.reg .DEV_COORD j := mark.reg d (by decide)
  have count : (runAct (fun _ => [Upd.slice i (markDecided t)]) d).fld F.COMMIT_CNT_COMMITS 0 = d.fld F.COMMIT_CNT_COMMITS 0 :=
    mark.fld d (by decide) 0
  have route : (runAct (fun _ => [Upd.slice i (markDecided t)]) d).route = d.route := route_of_confined mark (by decide) d
  generalize runAct (fun _ => [Upd.slice i (markDecided t)]) d = d1 at *
  have point := atPoint_commitPoint i t d1
  generalize runAct (commitPoint i t) d1 = d2 at *
  have coord2 := fun j => (point.coord j).trans (coord j)
  have send : Confined [.outbox] [] (sendCommits x (d.slice i).pkey t d2) := (confined_map ..).2 fun _ _ => rfl
  refine ⟨?_, ?_, fun j => ?_, ?_, fun c hc => ?_, fun c hc other => ?_⟩
  · rw [runAct_eq, send.slice _ (by decide)]
    exact point.committed
  · rw [Dev.counted, runAct_eq, send.fld _ (by decide), point.counted, count]
  · rw [runAct_eq, send.reg _ (by decide)]
    exact coord2 j
  · exact (route_of_confined send (by decide) d2).trans (point.route.trans route)
  · rw [← key]
    exact (sent_applyAll _ _).subset (point.told c (by rw [(buddyOf_congr coord).1, hc]))
  · rw [runAct_eq, sendCommits]
    refine sent_of_mem (List.mem_map.2 ⟨c, ?_, rfl⟩) _
    rw [members_congr coord2, (shape_congr coord2).2]
    exact List.mem_filter.2 ⟨hc, by simpa using other⟩

/-- Whether the home may decide the next step of a slice: READY has come from every member, and no decision is under way (R451). -/
def Dev.decides (d : Dev) (i : Nat) (x : SliceDesc) : Bool :=
  !((d.slice i).fenced || (d.slice i).home.deciding.isSome ||
    !((d.members x).all fun c => (d.slice i).home.ready.contains (c, (d.slice i).nextStep)))

/-- The home asks its buddy to hold the decision of a step (R451). -/
def askBuddy (i : Nat) (b : Coord) (pkey : BitVec 12) (t : Nat) : List Upd :=
  [.slice i fun s => { s with home := { s.home with deciding := some t } }, .send (.mgmt b (.decide pkey t))]

theorem tryDecide_eq {i : Nat} {d : Dev} {x : SliceDesc} (desc : (d.slice i).desc = some x) : tryDecide i d =
    if !d.decides i x then [] else match d.buddyOf d.here with
      | some b => askBuddy i b (d.slice i).pkey (d.slice i).nextStep
      | none => homeDecided i (d.slice i).nextStep d := by
  unfold tryDecide
  dsimp only
  rw [desc]
  simp only [Dev.decides, Bool.not_not]
  rfl

theorem confined_askBuddy (i : Nat) (b : Coord) (pkey : BitVec 12) (t : Nat) : Confined [.slices, .outbox] [] (askBuddy i b pkey t) :=
  (confined_cons ..).2 ⟨rfl, (confined_cons ..).2 ⟨rfl, confined_nil⟩⟩

/-- With a buddy, the home's attempt to decide changes slices and sends. -/
theorem confined_tryDecide {i : Nat} {d : Dev} {b : Coord} (buddy : d.buddyOf d.here = some b) :
    Confined [.slices, .outbox] [] (tryDecide i d) := by
  cases desc : (d.slice i).desc with
  | none =>
    unfold tryDecide
    dsimp only
    rw [desc]
    exact confined_nil
  | some x =>
    rw [tryDecide_eq desc, buddy]
    exact (confined_ite ..).2 ⟨fun _ => confined_nil, fun _ => confined_askBuddy i b _ _⟩

/-- With a buddy, the home's attempt to decide leaves what the slice has committed, and the READYs it holds. -/
theorem tryDecide_keeps {i : Nat} {d : Dev} {b : Coord} (buddy : d.buddyOf d.here = some b) :
    ((runAct (tryDecide i) d).slice i).committed = (d.slice i).committed ∧
    ((runAct (tryDecide i) d).slice i).home.ready = (d.slice i).home.ready := by
  have nothing {us : List Upd} (h : us = []) : ((applyAll us d).slice i).committed = (d.slice i).committed ∧
      ((applyAll us d).slice i).home.ready = (d.slice i).home.ready := by
    rw [h]
    exact ⟨rfl, rfl⟩
  rw [runAct_eq]
  cases desc : (d.slice i).desc with
  | none =>
    refine nothing ?_
    unfold tryDecide
    dsimp only
    rw [desc]
  | some x =>
    rw [tryDecide_eq desc, buddy]
    split
    · exact nothing rfl
    · have run : (applyAll (askBuddy i b (d.slice i).pkey (d.slice i).nextStep) d).slice i =
          { d.slice i with home := { (d.slice i).home with deciding := some (d.slice i).nextStep } } :=
        slice_apply_same d i fun s => { s with home := { s.home with deciding := some (d.slice i).nextStep } }
      dsimp only
      rw [run]
      exact ⟨rfl, rfl⟩

/-- READY of a member enters the home's record (R450). -/
def noteReady (src : Coord) (t : Nat) (s : SliceSt) : SliceSt :=
  { s with home := { s.home with ready := if s.home.ready.contains (src, t) then s.home.ready else s.home.ready ++ [(src, t)] } }

/-- Whether READY of a module for a step is taken: the slice is open, its home is here, and the step is not yet committed (R450, R454). -/
def Dev.takesReady (d : Dev) (i : Nat) (x : SliceDesc) (src : Coord) (t : Nat) : Bool :=
  !(d.slice i).fenced && d.homeHere i && d.isMember x src && decide ((d.slice i).nextStep ≤ t)

theorem readyReceive_eq {i t : Nat} {src : Coord} {d : Dev} {x : SliceDesc} (desc : (d.slice i).desc = some x) : readyReceiveAct i src t d =
    if !d.takesReady i x src t then [] else inSequence [fun _ => [.slice i (noteReady src t)], tryDecide i] d := by
  have late : decide (t < (d.slice i).nextStep) = !decide ((d.slice i).nextStep ≤ t) := by
    rw [← decide_not]
    exact decide_eq_decide.2 Nat.not_le.symm
  have cond : ((d.slice i).fenced || !d.homeHere i || !d.isMember x src || decide (t < (d.slice i).nextStep)) = !d.takesReady i x src t := by
    rw [late]
    simp only [Dev.takesReady, Bool.not_and, Bool.not_not]
  unfold readyReceiveAct
  dsimp only
  rw [desc, Option.any_some, cond]
  rfl

theorem decides_of {d : Dev} {i : Nat} {x : SliceDesc} (open_ : (d.slice i).fenced = false) (free : (d.slice i).home.deciding = none)
    (all : ((d.members x).all fun c => (d.slice i).home.ready.contains (c, (d.slice i).nextStep)) = true) : d.decides i x = true := by
  rw [Dev.decides, open_, free, all]
  rfl

theorem takesReady_open {d : Dev} {i t : Nat} {x : SliceDesc} {src : Coord} (h : d.takesReady i x src t = true) : (d.slice i).fenced = false := by
  simp only [Dev.takesReady, Bool.and_eq_true, Bool.not_eq_true'] at h
  exact h.1.1.1

theorem tryDecide_asks {d : Dev} {i : Nat} {x : SliceDesc} {b : Coord} (desc : (d.slice i).desc = some x) (buddy : d.buddyOf d.here = some b)
    (decides : d.decides i x = true) : ((runAct (tryDecide i) d).slice i).home.deciding = some (d.slice i).nextStep ∧
      Msg.mgmt b (.decide (d.slice i).pkey (d.slice i).nextStep) ∈ (runAct (tryDecide i) d).outbox := by
  have act : tryDecide i d = askBuddy i b (d.slice i).pkey (d.slice i).nextStep := by
    rw [tryDecide_eq desc, decides, buddy]
    rfl
  have run : (applyAll (askBuddy i b (d.slice i).pkey (d.slice i).nextStep) d).slice i =
      { d.slice i with home := { (d.slice i).home with deciding := some (d.slice i).nextStep } } :=
    slice_apply_same d i fun s => { s with home := { s.home with deciding := some (d.slice i).nextStep } }
  rw [runAct_eq, act, run]
  exact ⟨rfl, sent_of_mem (by simp [askBuddy]) d⟩

theorem confined_hear (src : Coord) (t i : Nat) : Confined [.slices, .outbox] [] [Upd.slice i (noteReady src t)] :=
  (confined_cons ..).2 ⟨rfl, confined_nil⟩

theorem slice_hear (src : Coord) (t i : Nat) (d : Dev) : (applyAll [Upd.slice i (noteReady src t)] d).slice i = noteReady src t (d.slice i) :=
  slice_apply_same d i (noteReady src t)

/-- A step is committed and counted, and the buddy told to apply it (R452). -/
def Dev.stepCommitted (d : Dev) (i t : Nat) (e : Dev) : Prop :=
  (e.slice i).committed = some t ∧ d.counted e F.COMMIT_CNT_COMMITS 0 1 ∧
    ∀ c, d.buddyOf d.here = some c → Msg.mgmt c (.apply (d.slice i).pkey t) ∈ e.outbox

section home
variable {s : State} (hs : s.dev.steady) {i : Fin 256} {src b : Coord} {t : Nat} {x : SliceDesc} (desc : (s.dev.slice i).desc = some x)
include hs desc

theorem completes_notReady (h : s.dev.takesReady i x src t = false) : Completes (.readyReceive i src t) s fun d => s.dev.wrote d [] :=
  completes_nothing rfl hs ((readyReceive_eq desc).trans (if_pos (congrArg Bool.not h))) fun _ q => q.wrote (wrote_refl _)

/-- READY of every member makes the home ask its buddy, once no decision is under way (R451). -/
theorem completes_ready (h : s.dev.takesReady i x src t = true) (buddy : s.dev.buddyOf s.dev.here = some b) :
    Completes (.readyReceive i src t) s fun d => (d.slice i).home.ready = (noteReady src t (s.dev.slice i)).home.ready ∧
      (d.slice i).committed = (s.dev.slice i).committed ∧ regsBut [] s.dev d ∧
      ((s.dev.slice i).home.deciding = none →
        ((s.dev.members x).all fun c => (noteReady src t (s.dev.slice i)).home.ready.contains (c, (s.dev.slice i).nextStep)) = true →
        (d.slice i).home.deciding = some (s.dev.slice i).nextStep ∧ Msg.mgmt b (.decide (s.dev.slice i).pkey (s.dev.slice i).nextStep) ∈ d.outbox) := by
  have act := (readyReceive_eq (t := t) (src := src) desc).trans (if_neg (by rw [h]; exact Bool.false_ne_true))
  have mark := confined_hear src t i
  have coord := mark.reg s.dev (r := .DEV_COORD) (by decide)
  have buddy' := (buddyOf_congr coord).1.trans buddy
  have confined : Confined [.slices, .outbox] [] (readyReceiveAct i src t s.dev) := by
    rw [act, inSequence, inSequence_one, confined_append]
    exact ⟨mark, confined_tryDecide buddy'⟩
  have slice := slice_hear src t i s.dev
  have members := members_congr coord x
  refine completes_act rfl hs confined (by decide) fun d q => ?_
  have regs := q.regsBut (confined.regsBut s.dev (rs' := []) (by decide))
  rw [← runAct_eq, runAct_of_eq act, runAct_two, runAct_list] at q
  generalize applyAll [Upd.slice i.val (noteReady src t)] s.dev = e at *
  obtain ⟨committed, ready⟩ := tryDecide_keeps (i := i) buddy'
  refine ⟨by rw [q.slice, ready, slice], by rw [q.slice, committed, slice]; rfl, regs, fun free all => ?_⟩
  have open_ : (s.dev.slice i).fenced = false := takesReady_open h
  obtain ⟨deciding, asked⟩ := tryDecide_asks (i := i) (d := e) (x := x) (b := b) (by rw [slice]; exact desc) buddy'
    (decides_of (by rw [slice]; exact open_) (by rw [slice]; exact free) (by rw [slice, members]; exact all))
  rw [slice] at deciding asked
  exact ⟨by rw [q.slice]; exact deciding, q.sent.subset asked⟩

/-- The home of a module without a buddy commits the step once READY of every member has come (R451). -/
theorem completes_readyAlone (h : s.dev.takesReady i x src t = true) (buddy : s.dev.buddyOf s.dev.here = none)
    (next : t = (s.dev.slice i).nextStep) (free : (s.dev.slice i).home.deciding = none)
    (all : ((s.dev.members x).all fun c => (noteReady src t (s.dev.slice i)).home.ready.contains (c, (s.dev.slice i).nextStep)) = true) :
    Completes (.readyReceive i src t) s (s.dev.stepCommitted i t) := by
  have act := (readyReceive_eq (t := t) (src := src) desc).trans (if_neg (by rw [h]; exact Bool.false_ne_true))
  have mark := confined_hear src t i
  have coord := mark.reg s.dev (r := .DEV_COORD) (by decide)
  have buddy' := (buddyOf_congr coord).1.trans buddy
  have slice := slice_hear src t i s.dev
  have members := members_congr coord x
  have open_ : (s.dev.slice i).fenced = false := takesReady_open h
  have route := route_of_confined mark (by decide) s.dev
  have count := mark.fld s.dev (f := F.COMMIT_CNT_COMMITS) (by decide) 0
  have run : runAct (readyReceiveAct i src t) s.dev = runAct (homeDecided i t) (applyAll [Upd.slice i.val (noteReady src t)] s.dev) := by
    rw [runAct_of_eq act, runAct_two, runAct_list]
    refine runAct_of_eq ?_
    rw [tryDecide_eq (x := x) (by rw [slice]; exact desc), decides_of (by rw [slice]; exact open_) (by rw [slice]; exact free)
      (by rw [slice, members]; exact all), buddy', slice, next]
    rfl
  refine completes_powered rfl hs ?_ fun d q => ?_
  · rw [run, (homeCommitted_homeDecided (x := x) (by rw [slice]; exact desc) (by rw [slice]; exact open_) (by rw [slice]; exact next.symm)).route,
      route]
    exact hs.2
  · rw [run] at q
    have done := homeCommitted_homeDecided (d := applyAll [Upd.slice i.val (noteReady src t)] s.dev) (x := x) (t := t) (by rw [slice]; exact desc)
      (by rw [slice]; exact open_) (by rw [slice]; exact next.symm)
    refine ⟨by rw [q.slice]; exact done.committed, ?_, fun c hc => absurd (buddy.symm.trans hc) (Option.some_ne_none c).symm⟩
    rw [Dev.counted, q.fld (by rfl), done.counted, count]

/-- Whether an acknowledgement of a decision is awaited here (R451). -/
def Dev.awaitsAck (d : Dev) (i t : Nat) : Bool := decide ((d.slice i).home.deciding = some t) && d.homeHere i

omit hs desc in
theorem decideAck_eq (d : Dev) : decideAckReceiveAct i t d =
    if d.awaitsAck i t = true then inSequence [homeDecided i t, tryDecide i] d else [] := by
  unfold decideAckReceiveAct Dev.awaitsAck
  simp only [Bool.and_eq_true, decide_eq_true_eq]

omit desc in
theorem completes_notAwaited (h : s.dev.awaitsAck i t = false) : Completes (.decideAckReceive i t) s fun d => s.dev.wrote d [] :=
  completes_quiet rfl hs ((decideAck_eq s.dev).trans (if_neg (by rw [h]; exact Bool.false_ne_true)))

/-- With the buddy's acknowledgement the home takes its commit point and sends COMMIT (R451). -/
theorem completes_decided (h : s.dev.awaitsAck i t = true) (open_ : (s.dev.slice i).fenced = false) (next : (s.dev.slice i).nextStep = t)
    (buddy : s.dev.buddyOf s.dev.here = some b) : Completes (.decideAckReceive i t) s fun d => s.dev.stepCommitted i t d ∧
      ∀ c ∈ s.dev.members x, c ≠ s.dev.here → Msg.mgmt c (.commit (s.dev.slice i).pkey t) ∈ d.outbox := by
  have done := homeCommitted_homeDecided desc open_ next
  have run : runAct (decideAckReceiveAct i t) s.dev = runAct (tryDecide i) (runAct (homeDecided i t) s.dev) := by
    rw [runAct_of_eq ((decideAck_eq s.dev).trans (if_pos h)), runAct_two]
  generalize runAct (homeDecided i t) s.dev = e at *
  have buddy' : e.buddyOf e.here = some b := (buddyOf_congr done.coord).1.trans buddy
  have confined := confined_tryDecide (i := i) buddy'
  refine completes_powered rfl hs ?_ fun d q => ?_
  · rw [run, runAct_eq, route_of_confined confined (by decide), done.route]
    exact hs.2
  · rw [run] at q
    refine ⟨⟨?_, ?_, fun c hc => ?_⟩, fun c hc other => ?_⟩
    · rw [q.slice, (tryDecide_keeps buddy').1]
      exact done.committed
    · rw [Dev.counted, q.fld (by rfl), runAct_eq, confined.fld e (by decide), done.counted]
    · exact q.sent.subset ((sent_applyAll _ _).subset (done.told c hc))
    · exact q.sent.subset ((sent_applyAll _ _).subset (done.sent c hc other))

/-- The decision of a fenced slice stands in the home's record (R454, R466). -/
theorem completes_decidedFenced (h : s.dev.awaitsAck i t = true) (fenced : (s.dev.slice i).fenced = true) :
    Completes (.decideAckReceive i t) s fun d => (d.slice i).home.decided = some t ∧ (d.slice i).committed = (s.dev.slice i).committed ∧
      sameMemory s.dev d := by
  have mark : Confined [.slices] [] [Upd.slice i.val (markDecided t)] := (confined_cons ..).2 ⟨rfl, confined_nil⟩
  have slice : (applyAll [Upd.slice i.val (markDecided t)] s.dev).slice i = markDecided t (s.dev.slice i) := slice_apply_same s.dev i (markDecided t)
  have act : decideAckReceiveAct i t s.dev = [Upd.slice i.val (markDecided t)] := by
    have still : tryDecide i (applyAll [Upd.slice i.val (markDecided t)] s.dev) = [] := by
      have cond : (applyAll [Upd.slice i.val (markDecided t)] s.dev).decides i x = false := by
        rw [Dev.decides, slice]
        simp [markDecided, fenced]
      rw [tryDecide_eq (x := x) (by rw [slice]; exact desc), cond]
      rfl
    have first : homeDecided i t s.dev = [Upd.slice i.val (markDecided t)] := by
      simp [homeDecided_eq desc, inSequence, onlyIf, fenced]
    rw [decideAck_eq, if_pos h, inSequence, inSequence_one, first, still]
    rfl
  refine completes_does rfl hs act mark (by decide) fun d q => ⟨by rw [q.slice, slice]; rfl, by rw [q.slice, slice]; rfl, ?_⟩
  exact (mark.memory (by decide) s.dev).trans q.memory

omit desc in
/-- A member takes its commit point of the step that COMMIT names, unless its slice is fenced (R451, R452, R454). -/
theorem completes_commit (h : (!(s.dev.slice i).fenced && s.dev.memberHere (s.dev.slice i) && decide ((s.dev.slice i).nextStep = t)) = true) :
    Completes (.commitReceive i t) s (s.dev.stepCommitted i t) := by
  have point := atPoint_commitPoint i t s.dev
  have act : commitReceiveAct i t s.dev = commitPoint i t s.dev := by
    refine if_neg ?_
    simp only [Bool.and_eq_true, Bool.not_eq_true', decide_eq_true_eq] at h
    simp [h]
  refine completes_powered rfl hs ?_ fun d q => ?_
  · rw [runAct_of_eq act, point.route]
    exact hs.2
  · rw [runAct_of_eq act] at q
    exact ⟨by rw [q.slice]; exact point.committed, (q.fld (by rfl) 0).trans point.counted, fun c hc => q.sent.subset (point.told c hc)⟩

omit desc in
theorem completes_noCommit (h : (!(s.dev.slice i).fenced && s.dev.memberHere (s.dev.slice i) && decide ((s.dev.slice i).nextStep = t)) = false) :
    Completes (.commitReceive i t) s fun d => s.dev.wrote d [] := by
  refine completes_quiet rfl hs (if_pos ?_)
  rw [Bool.and_eq_false_iff, Bool.and_eq_false_iff] at h
  simp only [Bool.not_eq_false', decide_eq_false_iff_not] at h
  simp only [Bool.or_eq_true, Bool.not_eq_true', decide_eq_true_eq]
  exact h

end home

/-! ### The buddy (R451, R452) -/

theorem confines_applyStaged (pkey : BitVec 12) (upTo : Nat) : Confines [.hbm, .hbmBad, .hbmMarks, .commit] [] (applyStaged pkey upTo) := fun d =>
  confines_inSequence_cons (Confines.forEach fun w _ => (confines_writeMirror _ _ _).mono (by decide) (List.Subset.refl _))
    (confines_inSequence_cons (as := []) (fun _ => (confined_cons ..).2 ⟨rfl, confined_nil⟩) Confines.nil) d

/-- What the ward staged of a key up to a step is no longer staged once it is applied (R452). -/
theorem staged_applyStaged (pkey : BitVec 12) (upTo : Nat) (d : Dev) : (runAct (applyStaged pkey upTo) d).commit.staged =
    d.commit.staged.filter fun w => !(decide (w.pkey = pkey) && decide (w.step ≤ upTo)) := by
  have writes : Confines [.hbm, .hbmBad, .hbmMarks] [] (forEach (fun w : StagedWrite => writeMirror w.addr w.data false)
      (d.commit.staged.filter fun w => w.pkey = pkey && w.step ≤ upTo)) := Confines.forEach fun w _ => confines_writeMirror _ _ _
  have act : applyStaged pkey upTo d = inSequence [forEach (fun w : StagedWrite => writeMirror w.addr w.data false)
      (d.commit.staged.filter fun w => w.pkey = pkey && w.step ≤ upTo),
    fun _ => [.commit fun c => { c with staged := c.staged.filter fun w => !(w.pkey = pkey && w.step ≤ upTo) }]] d := rfl
  rw [runAct_of_eq act, runAct_two]
  exact congrArg (fun c : CommitSt => c.staged.filter _) (keepAll_commit d ((writes d).leaves (by decide)))

section buddy
variable {s : State} (hs : s.dev.steady) {key : BitVec 12} {t : Nat}
include hs

/-- The buddy of a home keeps the decision and acknowledges it (R451). -/
theorem completes_decide {w : Coord} (ward : s.dev.wardOf s.dev.here = some w) : Completes (.decideReceive key t) s fun d =>
    (key, t) ∈ d.commit.wardDecide ∧ Msg.mgmt w (.decideAck key t) ∈ d.outbox ∧ regsBut [] s.dev d := by
  have act : decideReceiveAct key t s.dev = [.commit fun c => { c with wardDecide := (c.wardDecide.filter fun e => e.1 ≠ key) ++ [(key, t)] },
      .send (.mgmt w (.decideAck key t))] := by
    unfold decideReceiveAct
    rw [ward]
  have confined : Confined [.commit, .outbox] [] (decideReceiveAct key t s.dev) := by
    rw [act]
    exact (confined_cons ..).2 ⟨rfl, (confined_cons ..).2 ⟨rfl, confined_nil⟩⟩
  refine completes_act rfl hs confined (by decide) fun d q => ?_
  have regs := q.regsBut (confined.regsBut s.dev (rs' := []) (by decide))
  rw [act] at q
  exact ⟨by rw [q.commit]; exact List.mem_append_right _ (List.mem_singleton_self _),
    q.sent.subset (List.mem_append_right _ (List.mem_singleton_self _)), regs⟩

theorem completes_noWard (ward : s.dev.wardOf s.dev.here = none) : Completes (.decideReceive key t) s fun d => s.dev.wrote d [] :=
  completes_quiet rfl hs (by unfold decideReceiveAct; rw [ward])

/-- The ward's staged writes of a step enter the mirror (R452). -/
theorem completes_apply : Completes (.applyReceive key t) s fun d => d.fld F.BUDDY_STATUS_MIRROR_OK = 1 ∧ regsBut [.BUDDY_STATUS] s.dev d ∧
    d.commit.staged = (s.dev.commit.staged.filter fun w => !(decide (w.pkey = key) && decide (w.step ≤ t))) ∧
    d.hbm = (runAct (applyStaged key t) s.dev).hbm := by
  have note : Confines [.regs] [.BUDDY_STATUS] (fun _ => [setF F.BUDDY_STATUS_MIRROR_OK 0 1]) := fun _ => (confined_cons ..).2 ⟨rfl, confined_nil⟩
  have confines : Confines [.regs, .hbm, .hbmBad, .hbmMarks, .commit] [.BUDDY_STATUS] (applyReceiveAct key t) :=
    confines_inSequence_cons ((confines_applyStaged key t).mono (by decide) (by decide)) (confines_inSequence_cons (as := [])
      (note.mono (by decide) (by decide)) Confines.nil)
  refine completes_act rfl hs (confines s.dev) (by decide) fun d q => ?_
  have regs := q.regsBut ((confines s.dev).regsBut s.dev (rs' := [.BUDDY_STATUS]) (by decide))
  rw [← runAct_eq, applyReceiveAct, runAct_two] at q
  refine ⟨?_, regs, ?_, ?_⟩
  · rw [q.fld (by rfl), runAct_list, applyAll_cons, applyAll_nil, fld_setF]
    rfl
  · rw [q.commit, runAct_eq, keepAll_commit _ ((note s.dev).leaves (by decide)), staged_applyStaged]
  · rw [q.hbm, runAct_eq, keepAll_hbm _ ((note s.dev).leaves (by decide))]

end buddy

/-- Settles O48: each command by its own act; a commit is the commit point at the home, or at the member that COMMIT reaches. -/
theorem stepsCommit : Obligations.StepsCommit := by
  intro s p pkt i t src b key hs sl none_ mirrored use both own committed ready
  refine ⟨completes_notMirrored hs, completes_staged hs, completes_restored hs, completes_rebuilt hs, fun e => completes_acked hs, completes_mirrorHeld hs,
    fun x desc => ⟨completes_notReady hs desc, completes_ready hs desc, completes_readyAlone hs desc, completes_notAwaited hs,
      fun acked open_ next buddy => completes_decided hs desc acked open_ next buddy, completes_decidedFenced hs desc⟩,
    fun w => completes_decide hs, completes_noWard hs, ⟨completes_commit hs, completes_noCommit hs⟩, completes_apply hs⟩

end Sys2Proof.Machine
end

