-- ==== Sys2Proof/Proofs/HostDma.lean ====
section
/-! PROOFS. Commands that leave what runs alone, and the host DMA: its packets, and the end of an item (R305, R455, R457, R563). -/

namespace Sys2Proof.Machine

/-! ### Commands that leave what runs (R305) -/

/-- A powered command whose act leaves a settled module: its act's result stands. -/
theorem completes_ends {i : Instr} {s : State} {a : Act} {P : Dev → Prop} (he : exec i s = perform (onPower a) s) (hs : s.dev.steady)
    (rest : (runAct a s.dev).Settled) (hP : P (runAct a s.dev)) : Completes i s P := by
  refine ⟨_, he.trans (perform_eq _ _), rfl, ?_⟩
  rw [withDev_dev, runAct_onPower hs.1]
  simp only [settled, runAct_inSequence_cons, runAct_inSequence_nil, runAct_fenceLost rest.1]
  rw [runAct_eq settleReady, settleReady, if_neg (by simpa using rest.2), applyAll_nil]
  exact hP

/-- A settled module stays so where its state, its contexts and its cores do not change. -/
theorem settled_of_confined {d : Dev} (h : d.Settled) {us : List Upd} {ps : List Part} {rs : List Reg} (hc : Confined ps rs us)
    (route : .route ∉ ps) (cores : .cores ∉ ps) (state : .DEV_STATE ∉ rs) (rings : .RING_STATUS ∉ rs) : (applyAll us d).Settled := by
  have lost : (applyAll us d).route.lost = [] := (congrArg RouteSt.lost (keepAll_route d (hc.leaves route))).trans h.1
  have mode : (applyAll us d).mode = d.mode := hc.fld d (f := F.DEV_STATE_STATE) state 0
  have ring (k : Nat) : (applyAll us d).fld F.RING_STATUS_STATE k = d.fld F.RING_STATUS_STATE k := hc.fld d (f := F.RING_STATUS_STATE) rings k
  have cores : (applyAll us d).cores = d.cores := keepAll_cores d (hc.leaves cores)
  have idle : (applyAll us d).allIdle = d.allIdle := by simp only [Dev.allIdle, ring, cores]
  exact ⟨lost, by rw [mode, idle]; exact h.2⟩

/-- A powered command of a settled module whose act leaves what runs: its act's result stands. -/
theorem completes_rests {i : Instr} {s : State} {a : Act} {P : Dev → Prop} {us : List Upd} {ps : List Part} {rs : List Reg}
    (he : exec i s = perform (onPower a) s) (hs : s.dev.steady) (h : s.dev.Settled) (ha : a s.dev = us) (hc : Confined ps rs us)
    (route : .route ∉ ps) (cores : .cores ∉ ps) (state : .DEV_STATE ∉ rs) (rings : .RING_STATUS ∉ rs) (hP : P (applyAll us s.dev)) :
    Completes i s P := by
  subst ha
  exact completes_ends he hs (settled_of_confined h hc route cores state rings) hP

/-- A powered command of a settled module whose act does nothing changes nothing. -/
theorem completes_same {i : Instr} {s : State} {a : Act} {P : Dev → Prop} (he : exec i s = perform (onPower a) s) (hs : s.dev.steady)
    (h : s.dev.Settled) (ha : a s.dev = []) (hP : P s.dev) : Completes i s P :=
  completes_rests he hs h ha (confined_nil (ps := []) (rs := [])) (by decide) (by decide) (by decide) (by decide) hP

/-! ### What the host DMA changes (R455, R563) -/

/-- The chain without its events, its own requests and the host DMA items. -/
def ChainSt.besideDma (c : ChainSt) : ChainSt := { c.beside with dma := [] }

/-- The registers that the host DMA and its records may write. -/
def dmaRegs : List Reg := .SEC_ERR :: recordRegs

/-- The parts that the host DMA and its records may change. -/
def dmaParts : List Part := .power :: recordParts

/-- An update of the host DMA: it names no new item, and leaves the rest of the chain but events and own requests. -/
def Upd.pumps : Upd → Prop
  | .chain g => ∀ c, (g c).besideDma = c.besideDma ∧ ∀ y ∈ (g c).dma, ∃ z ∈ c.dma, z.item = y.item
  | .event _ _ | .ask _ _ => True
  | u => u.confined [.power, .regs, .commit, .svc, .hbm, .hbmBad, .hbmMarks, .outbox] [.DET_STATUS, .SVC_CNT, .SEC_ERR] = true

theorem pumps_of_confined {ps : List Part} {rs : List Reg} {us : List Upd} (h : Confined ps rs us)
    (hp : ps ⊆ [.power, .regs, .commit, .svc, .hbm, .hbmBad, .hbmMarks, .outbox]) (hr : rs ⊆ [.DET_STATUS, .SVC_CNT, .SEC_ERR]) :
    Each Upd.pumps us := fun u hu => by
  have confined := h.mono hp hr u hu
  cases u with
  | chain g => exact absurd (confined : false = true) Bool.false_ne_true
  | event k b => trivial
  | ask b m => trivial
  | _ => exact confined

theorem makes_of_confines {ps : List Part} {rs : List Reg} {a : Act} (h : Confines ps rs a)
    (hp : ps ⊆ [.power, .regs, .commit, .svc, .hbm, .hbmBad, .hbmMarks, .outbox]) (hr : rs ⊆ [.DET_STATUS, .SVC_CNT, .SEC_ERR]) :
    Makes Upd.pumps a := fun d => pumps_of_confined (h d) hp hr

theorem Upd.pumps.confined {u : Upd} (h : u.pumps) : u.confined dmaParts dmaRegs = true := by
  have wider (h : u.confined [.power, .regs, .commit, .svc, .hbm, .hbmBad, .hbmMarks, .outbox] [.DET_STATUS, .SVC_CNT, .SEC_ERR] = true) :
      u.confined dmaParts dmaRegs = true :=
    Confined.mono (us := [u]) ((confined_cons ..).2 ⟨h, confined_nil⟩) (by decide) (by decide) u (List.mem_singleton_self u)
  cases u with
  | chain g => rfl
  | event k b => rfl
  | ask b m => rfl
  | _ => exact wider h

theorem confined_of_pumps {us : List Upd} (h : Each Upd.pumps us) : Confined dmaParts dmaRegs us := fun u hu => (h u hu).confined

/-- What the host DMA keeps of the chain, with the fields of CHAIN_ERR that no event sets. -/
structure DmaKept (d e : Dev) : Prop where
  rest : e.chain.besideDma = d.chain.besideDma
  items : ∀ y ∈ e.chain.dma, ∃ z ∈ d.chain.dma, z.item = y.item
  exhausted : e.fld F.CHAIN_ERR_RETRY_EXHAUSTED = d.fld F.CHAIN_ERR_RETRY_EXHAUSTED

theorem DmaKept.refl (d : Dev) : DmaKept d d := ⟨rfl, fun y hy => ⟨y, hy, rfl⟩, rfl⟩

theorem DmaKept.trans {d e f : Dev} (h : DmaKept d e) (h' : DmaKept e f) : DmaKept d f := by
  refine ⟨h'.rest.trans h.rest, fun y hy => ?_, h'.exhausted.trans h.exhausted⟩
  obtain ⟨z, hz, same⟩ := h'.items y hy
  obtain ⟨x, hx, same'⟩ := h.items z hz
  exact ⟨x, hx, same'.trans same⟩

theorem DmaKept.of_raised {d e : Dev} (h : Raised d e) (exhausted : e.fld F.CHAIN_ERR_RETRY_EXHAUSTED = d.fld F.CHAIN_ERR_RETRY_EXHAUSTED) :
    DmaKept d e := by
  have dma : e.chain.beside.dma = d.chain.beside.dma := congrArg ChainSt.dma h.beside
  exact ⟨by rw [ChainSt.besideDma, h.beside]; rfl, fun y hy => ⟨y, dma ▸ hy, rfl⟩, exhausted⟩

theorem exhausted_noted (d : Dev) : d.noted.fld F.CHAIN_ERR_RETRY_EXHAUSTED = d.fld F.CHAIN_ERR_RETRY_EXHAUSTED := by
  rw [Dev.noted, fld_setFld_apart _ _ _ _ (of_decide_eq_true rfl), fld_setFld_apart _ _ _ _ (of_decide_eq_true rfl)]

theorem exhausted_raise (d : Dev) (k : Nat) (b : List Byte) :
    (d.raise k b).fld F.CHAIN_ERR_RETRY_EXHAUSTED = d.fld F.CHAIN_ERR_RETRY_EXHAUSTED := by
  have beside (e : Dev) (c : ChainSt) : ({ e with chain := c } : Dev).fld F.CHAIN_ERR_RETRY_EXHAUSTED = e.fld F.CHAIN_ERR_RETRY_EXHAUSTED := rfl
  rw [raise_eq]
  split
  · rw [fld_setFld_apart _ _ _ _ (of_decide_eq_true rfl), fld_setFld_apart _ _ _ _ (of_decide_eq_true rfl),
      fld_setFld_apart _ _ _ _ (of_decide_eq_true rfl)]
  · rw [fld_of_regs (sendEvents_regs _ _)]
    exact (beside _ _).trans (exhausted_noted d)

theorem Upd.pumps.pumped {u : Upd} (h : u.pumps) (d : Dev) : DmaKept d (u.apply d) := by
  have other (h : u.confined [.power, .regs, .commit, .svc, .hbm, .hbmBad, .hbmMarks, .outbox] [.DET_STATUS, .SVC_CNT, .SEC_ERR] = true) :
      DmaKept d (u.apply d) := by
    have one : Confined _ _ [u] := (confined_cons ..).2 ⟨h, confined_nil⟩
    exact .of_raised (.of_chain (keepAll_chain d (one.leaves (by decide)))) (one.fld d (by decide) 0)
  cases u with
  | chain g => exact ⟨(h d.chain).1, (h d.chain).2, rfl⟩
  | event k b => exact .of_raised (raised_raise d k b) (exhausted_raise d k b)
  | ask b m => exact .of_raised (raised_ask d b m) rfl
  | _ => exact other h

theorem pumped_applyAll {us : List Upd} (h : Each Upd.pumps us) (d : Dev) : DmaKept d (applyAll us d) := by
  induction us generalizing d with
  | nil => exact .refl d
  | cons u us ih =>
    obtain ⟨hu, hus⟩ := (each_cons ..).1 h
    exact (hu.pumped d).trans (ih hus _)

theorem pumped_of_makes {a : Act} (h : Makes Upd.pumps a) (d : Dev) : DmaKept d (runAct a d) := pumped_applyAll (h d) d

/-! ### The end of an item (R455, R563) -/

theorem makes_recordOut (it : Item) (handle status step reason : Nat) (tail : List Byte) (gcnt : BitVec 64) :
    Makes Upd.pumps (recordOut it handle status step reason tail gcnt) := by
  have entry (q : Nat) (body : List Byte) : Makes Upd.pumps (queueEntry q 1 body) :=
    makes_of_confines (confines_queueEntry q 1 body) (by decide) (by decide)
  intro d
  unfold recordOut
  dsimp only
  split
  · split
    · exact Makes.cons (fun _ => pumps_of_confined (ps := [.svc]) (rs := []) ((confined_cons ..).2 ⟨rfl, confined_nil⟩) (by decide) (by decide))
        (Makes.cons (entry _ _) Makes.nil) d
    · exact each_nil
  · split
    · exact entry _ _ d
    · exact each_nil
  · exact (each_cons ..).2 ⟨trivial, each_nil⟩

theorem makes_releaseWith (handle : Nat) (pkey : BitVec 12) (status step reason : Nat) (tail : List Byte) :
    Makes Upd.pumps (releaseWith handle pkey status step reason tail) := by
  intro d
  rw [releaseWith_eq]
  split
  · exact each_nil
  · refine Makes.cons (fun _ => pumps_of_confined (ps := [.commit, .regs]) (rs := [.DET_STATUS]) ?_ (by decide) (by decide))
      (Makes.cons (makes_recordOut _ _ _ _ _ _ _) Makes.nil) d
    simp only [flagDet, flagFault, confined_append, confined_ite, confined_cons, confined_nil, and_true, implies_true]
    exact ⟨rfl, fun _ => ⟨rfl, rfl⟩⟩

/-- What the end of an item changes before its record leaves. -/
def dropDma (x : DmaItem) : List Upd :=
  [.chain (fun c => { c with
      dma := c.dma.filter fun y => y.item ≠ x.item
      out := c.out.filter fun o => match o.body with | .event _ => true | _ => false }),
    .commit fun c => { c with items := c.items.map fun it => if it.typ = 3 && it.handle = x.item.toNat then { it with count := x.moved } else it }]

theorem endDma_eq (x : DmaItem) (status : Nat) : endDma x status = inSequence [fun _ => dropDma x, noteQuiet,
    fun d => releaseRecord x.item.toNat x.pkey status (d.dmaStep x.pkey) d] := rfl

theorem pumps_dropDma (x : DmaItem) : Each Upd.pumps (dropDma x) := by
  simp only [dropDma, each_cons, each_nil, and_true]
  refine ⟨fun c => ⟨rfl, fun y hy => ⟨y, (List.mem_filter.1 hy).1, rfl⟩⟩, rfl⟩

theorem makes_recordDma (x : DmaItem) (status : Nat) : Makes Upd.pumps (inSequence [noteQuiet,
    fun d => releaseRecord x.item.toNat x.pkey status (d.dmaStep x.pkey) d]) :=
  Makes.cons (fun _ => (each_cons ..).2 ⟨rfl, each_nil⟩) (Makes.cons (fun d => makes_releaseWith _ _ _ _ _ _ d) Makes.nil)

theorem makes_endDma (x : DmaItem) (status : Nat) : Makes Upd.pumps (endDma x status) := by
  rw [endDma_eq]
  exact Makes.cons (fun _ => pumps_dropDma x) (makes_recordDma x status)

/-- An item that has ended is no longer among the items. -/
theorem endDma_drops (x : DmaItem) (status : Nat) (d : Dev) : ∀ y ∈ (runAct (endDma x status) d).chain.dma, y.item ≠ x.item := by
  intro y hy
  rw [endDma_eq, runAct_inSequence_cons, runAct_list] at hy
  obtain ⟨z, hz, same⟩ := (pumped_of_makes (makes_recordDma x status) _).items y hy
  rw [← same]
  exact of_decide_eq_true (List.mem_filter.1 hz).2

/-- With the one item of a module ended, it has none. -/
theorem endDma_only {x : DmaItem} {d : Dev} (only : ∀ y ∈ d.chain.dma, y.item = x.item) (status : Nat) : (runAct (endDma x status) d).chain.dma = [] := by
  refine List.eq_nil_iff_forall_not_mem.2 fun y hy => endDma_drops x status d y hy ?_
  obtain ⟨z, hz, same⟩ := (pumped_of_makes (makes_endDma x status) d).items y hy
  exact same.symm.trans (only z hz)

theorem makes_dmaFail : Makes Upd.pumps dmaFail := fun d => by
  unfold dmaFail
  split
  · exact each_nil
  · exact makes_endDma _ _ d

theorem dmaFail_none {d : Dev} (h : d.chain.dma = []) : dmaFail d = [] := by
  unfold dmaFail
  rw [h]

theorem dmaFail_first {d : Dev} {x : DmaItem} {xs : List DmaItem} (h : d.chain.dma = x :: xs) : dmaFail d = endDma x 0x20 d := by
  unfold dmaFail
  rw [h]

/-! ### The packets of an item (R558, R563) -/

/-- The next packet of an item: what is asked, and its data. -/
def Dev.dmaNext (d : Dev) (x : DmaItem) : OwnReq × List Byte :=
  let n := min 1024 (x.len - x.asked)
  (if x.toHost then .memWr (x.host + x.asked) (x.hbm + x.asked) n else .memRd (x.host + x.asked) (x.hbm + x.asked) n,
   if x.toHost then d.readOut (x.hbm + x.asked) n else [])

/-- An item of which `n` more bytes have been asked for, in its place. -/
def askedMore (x : DmaItem) (n : Nat) (c : ChainSt) : ChainSt :=
  { c with dma := c.dma.map fun y => if y.item = x.item then { y with asked := y.asked + n } else y }

/-- The updates by which the next packet of an item leaves. -/
def askNext (x : DmaItem) (d : Dev) : List Upd :=
  [.ask (d.dmaNext x).1 fun t => .chainRequest t (d.dmaNext x).1 (d.dmaNext x).2, .chain (askedMore x (min 1024 (x.len - x.asked)))]

theorem dmaPump_succ (fuel : Nat) (d : Dev) : dmaPump (fuel + 1) d =
    match d.chain.dma with
    | [] => []
    | x :: _ =>
      if x.asked = 0 && d.dmaBad x then
        inSequence [onlyIf (x.toHost && d.weightLocked x.hbm x.len) (fun _ => flagSec F.SEC_ERR_WEIGHT_READ), endDma x 0x10, dmaPump fuel] d
      else if x.len ≤ x.asked || 64 ≤ d.chain.out.length || !d.chained then []
      else inSequence [fun _ => askNext x d, dmaPump fuel] d := rfl

theorem pumps_askNext (x : DmaItem) (d : Dev) : Each Upd.pumps (askNext x d) := by
  simp only [askNext, each_cons, each_nil, and_true]
  refine ⟨trivial, fun c => ⟨rfl, fun y hy => ?_⟩⟩
  obtain ⟨z, hz, rfl⟩ := List.mem_map.1 hy
  refine ⟨z, hz, ?_⟩
  split <;> rfl

theorem makes_dmaPump (fuel : Nat) : Makes Upd.pumps (dmaPump fuel) := by
  induction fuel with
  | zero => exact fun _ => each_nil
  | succ n ih =>
    intro d
    rw [dmaPump_succ]
    split
    · exact each_nil
    · simp only [each_ite, each_nil, implies_true, true_and]
      refine ⟨fun _ => ?_, fun _ _ => ?_⟩
      · exact Makes.cons (makes_of_confines (Confines.onlyIf fun _ => confined_flagSec rfl) (by decide) (by decide))
          (Makes.cons (makes_endDma _ _) (Makes.cons ih Makes.nil)) d
      · exact Makes.cons (fun _ => pumps_askNext _ _) (Makes.cons ih Makes.nil) d

theorem makes_runDma : Makes Upd.pumps runDma := fun d => makes_dmaPump _ d

theorem dmaPump_none (fuel : Nat) {d : Dev} (h : d.chain.dma = []) : dmaPump fuel d = [] := by
  cases fuel with
  | zero => rfl
  | succ n => rw [dmaPump_succ, h]

theorem runDma_none {d : Dev} (h : d.chain.dma = []) : runDma d = [] := dmaPump_none _ h

theorem confined_askNext (x : DmaItem) (d : Dev) : Confined [.regs, .chain, .outbox] [] (askNext x d) := by
  simp only [askNext, confined_cons, confined_nil, and_true]
  exact ⟨rfl, rfl⟩

/-- An update by which packets of an item leave. -/
def Upd.asking (i : BitVec 32) : Upd → Prop
  | .ask _ _ => True
  | .chain g => ∃ y n, y.item = i ∧ g = askedMore y n
  | _ => False

theorem asking_askNext (x : DmaItem) (d : Dev) : Each (Upd.asking x.item) (askNext x d) := by
  simp only [askNext, each_cons, each_nil, and_true]
  exact ⟨trivial, x, _, rfl, rfl⟩

theorem confined_asking {i : BitVec 32} {us : List Upd} (h : Each (Upd.asking i) us) : Confined [.regs, .chain, .outbox] [] us := fun u hu => by
  have one := h u hu
  cases u with
  | ask b m => rfl
  | chain g => rfl
  | _ => exact absurd one id

/-- Packets that leave change of the first item what has been asked alone. -/
theorem asking_first {i : BitVec 32} {us : List Upd} (h : Each (Upd.asking i) us) {d : Dev} {x : DmaItem} {xs : List DmaItem}
    (first : d.chain.dma = x :: xs) : ∃ k ys, (applyAll us d).chain.dma = { x with asked := k } :: ys ∧ ys.length = xs.length := by
  induction us generalizing d x xs with
  | nil => exact ⟨x.asked, xs, first, rfl⟩
  | cons u us ih =>
    obtain ⟨hu, hus⟩ := (each_cons ..).1 h
    cases u with
    | ask b m => exact ih hus (d := d.ask b m) first
    | chain g =>
      obtain ⟨y, n, -, rfl⟩ := hu
      have next : ∃ k, ((Upd.chain (askedMore y n)).apply d).chain.dma = { x with asked := k } ::
          xs.map fun z => if z.item = y.item then { z with asked := z.asked + n } else z := by
        change ∃ k, d.chain.dma.map _ = _
        rw [first, List.map_cons]
        split
        · exact ⟨x.asked + n, rfl⟩
        · exact ⟨x.asked, rfl⟩
      obtain ⟨k, next⟩ := next
      obtain ⟨k', ys, run, len⟩ := ih hus next
      exact ⟨k', ys, run, by rw [len, List.length_map]⟩
    | _ => exact absurd hu id

/-- The first item while its data may be moved: its packets leave, and it does not end. -/
theorem dmaPump_asking (fuel : Nat) {d : Dev} {x : DmaItem} {xs : List DmaItem} (first : d.chain.dma = x :: xs)
    (fair : x.asked ≠ 0 ∨ d.dmaBad x = false) : Each (Upd.asking x.item) (dmaPump fuel d) := by
  induction fuel generalizing d x xs with
  | zero => exact each_nil
  | succ n ih =>
    have bad : ¬ (decide (x.asked = 0) && d.dmaBad x) = true := by
      rcases fair with h | h <;> simp [h]
    rw [dmaPump_succ, first]
    dsimp only
    rw [if_neg bad]
    split
    · exact each_nil
    · rename_i more
      have short : x.asked < x.len := by
        simp only [Bool.or_eq_true, decide_eq_true_eq, not_or, not_le] at more
        exact more.1.1
      have dma : (applyAll (askNext x d) d).chain.dma = { x with asked := x.asked + min 1024 (x.len - x.asked) } ::
          xs.map fun y => if y.item = x.item then { y with asked := y.asked + min 1024 (x.len - x.asked) } else y := by
        change (d.chain.dma.map _) = _
        rw [first, List.map_cons, if_pos rfl]
      simp only [inSequence, List.append_nil, each_append]
      have rest := ih (x := { x with asked := x.asked + min 1024 (x.len - x.asked) }) dma
        (.inl (by change x.asked + min 1024 (x.len - x.asked) ≠ 0; omega))
      exact ⟨asking_askNext x d, rest⟩

theorem runDma_asking {d : Dev} {x : DmaItem} {xs : List DmaItem} (first : d.chain.dma = x :: xs)
    (fair : x.asked ≠ 0 ∨ d.dmaBad x = false) : Each (Upd.asking x.item) (runDma d) := dmaPump_asking _ first fair

/-- The first packet of an item is asked for where the chain has room. -/
theorem runDma_asks_first {d : Dev} {x : DmaItem} {xs : List DmaItem} (first : d.chain.dma = x :: xs) (new : x.asked = 0) (fair : d.dmaBad x = false)
    (some_ : 0 < x.len) (chained : d.chained = true) (room : d.chain.out.length < 64) :
    Upd.ask (d.dmaNext x).1 (fun t => .chainRequest t (d.dmaNext x).1 (d.dmaNext x).2) ∈ runDma d := by
  have fuel : 64 + d.chain.dma.length = (63 + d.chain.dma.length) + 1 := by omega
  unfold runDma
  rw [fuel, dmaPump_succ, first]
  dsimp only
  rw [if_neg (by simp [fair]), if_neg (by simp [new, chained]; omega), inSequence]
  exact List.mem_append_left _ (List.mem_cons_self ..)

/-- A request that is asked for leaves under some tag. -/
theorem sent_of_asked {us : List Upd} {b : OwnReq} {m : BitVec 10 → Msg} (h : Upd.ask b m ∈ us) (d : Dev) : ∃ t, m t ∈ (applyAll us d).outbox := by
  obtain ⟨before, after, rfl⟩ := List.append_of_mem h
  refine ⟨(applyAll before d).freeTag, ?_⟩
  rw [applyAll_append, applyAll_cons]
  exact (sent_applyAll _ _).subset (List.mem_append_right _ (List.mem_singleton_self _))

end Sys2Proof.Machine
end

