-- ==== Sys2Proof/Proofs/ChainResponses.lean ====
section
/-! PROOFS. The module's own requests over the chain: events held until acknowledged, responses, and requests sent again (R558, R563–R566). -/

namespace Sys2Proof.Machine

/-! ### Events on their way (R564–R566) -/

/-- Sending held events leaves them held, and only requests for them join the outstanding ones. -/
theorem sendEvents_held (n : Nat) (d : Dev) : (d.sendEvents n).chain.events = d.chain.events ∧
    ∀ o ∈ (d.sendEvents n).chain.out, o ∈ d.chain.out ∨ ∃ e ∈ d.chain.events, o.body = .event e.seq := by
  induction n generalizing d with
  | zero => exact ⟨rfl, fun o ho => .inl ho⟩
  | succ n ih =>
    unfold Dev.sendEvents
    split
    · exact ⟨rfl, fun o ho => .inl ho⟩
    · rename_i e found
      split
      · exact ⟨rfl, fun o ho => .inl ho⟩
      · obtain ⟨events, outs⟩ := ih (({ d with chain := { d.chain with evSent := e.seq } } : Dev).ask (.event e.seq) fun t => .event t e.kind e.seq e.gcnt e.body)
        refine ⟨events, fun o ho => (outs o ho).elim (fun h => ?_) .inr⟩
        rcases List.mem_append.1 (show o ∈ d.chain.out ++ [_] from h) with h | h
        · exact .inl h
        · exact .inr ⟨e, List.mem_of_find?_eq_some found, by rw [List.mem_singleton.1 h]⟩

theorem dma_of_raised {d e : Dev} (h : Raised d e) : e.chain.dma = d.chain.dma := by
  have same : e.chain.beside.dma = d.chain.beside.dma := congrArg ChainSt.dma h.beside
  exact same

theorem dma_sendEvents (n : Nat) (d : Dev) : (d.sendEvents n).chain.dma = d.chain.dma := dma_of_raised (raised_sendEvents n d)

/-- What an acknowledgement changes (R564). -/
def ackUpds (seq : BitVec 32) (d : Dev) : List Upd :=
  [.chain fun c => { c with
      events := c.events.filter fun e => e.seq ≠ seq
      out := c.out.filter fun o => o.body ≠ .event seq },
    setF F.EVT_STATUS_HELD 0 (d.chain.events.length - 1), .sendEvents]

theorem ackEvent_eq (seq : BitVec 32) (d : Dev) : ackEvent seq d = if !(d.chain.events.any fun e => e.seq = seq) then [] else ackUpds seq d := rfl

theorem ackEvent_unknown {seq : BitVec 32} {d : Dev} (h : ∀ e ∈ d.chain.events, e.seq ≠ seq) : ackEvent seq d = [] := by
  rw [ackEvent_eq, if_pos (by simpa using h)]

theorem ackEvent_known {seq : BitVec 32} {d : Dev} (h : ∃ e ∈ d.chain.events, e.seq = seq) : ackEvent seq d = ackUpds seq d := by
  rw [ackEvent_eq, if_neg (by simpa using h)]

theorem confined_ackUpds (seq : BitVec 32) (d : Dev) : Confined [.regs, .chain, .outbox] [.EVT_STATUS] (ackUpds seq d) := by
  simp only [ackUpds, confined_cons, confined_nil, and_true]
  exact ⟨rfl, rfl, rfl⟩

theorem confines_ackEvent (seq : BitVec 32) : Confines [.regs, .chain, .outbox] [.EVT_STATUS] (ackEvent seq) := fun d => by
  rw [ackEvent_eq, confined_ite]
  exact ⟨fun _ => confined_nil, fun _ => confined_ackUpds seq d⟩

theorem ackUpds_reads (seq : BitVec 32) (d : Dev) :
    (applyAll (ackUpds seq d) d).chain.events = (d.chain.events.filter fun e => e.seq ≠ seq) ∧
    (applyAll (ackUpds seq d) d).chain.dma = d.chain.dma ∧
    (applyAll (ackUpds seq d) d).fld F.EVT_STATUS_HELD = (d.chain.events.length - 1) % 65536 ∧
    ∀ o ∈ (applyAll (ackUpds seq d) d).chain.out, o.body ≠ .event seq := by
  simp only [ackUpds, applyAll_cons, applyAll_nil]
  generalize run : (Upd.chain fun c => { c with
    events := c.events.filter fun e => e.seq ≠ seq, out := c.out.filter fun o => o.body ≠ .event seq }).apply d = a
  have chain : a.chain = { d.chain with
      events := d.chain.events.filter fun e => e.seq ≠ seq, out := d.chain.out.filter fun o => o.body ≠ .event seq } := by
    rw [← run]
    rfl
  generalize held : (setF F.EVT_STATUS_HELD 0 (d.chain.events.length - 1)).apply a = b
  have chain' : b.chain = a.chain := by rw [← held]; exact keep_chain _ a (by simp [setF])
  change (b.sendEvents _).chain.events = _ ∧ (b.sendEvents _).chain.dma = _ ∧ (b.sendEvents _).fld _ = _ ∧ ∀ o ∈ (b.sendEvents _).chain.out, _
  obtain ⟨events, outs⟩ := sendEvents_held b.chain.events.length b
  refine ⟨events.trans (by rw [chain', chain]), (dma_sendEvents _ _).trans (by rw [chain', chain]), ?_, fun o ho => ?_⟩
  · rw [fld_of_regs (sendEvents_regs _ _), ← held]
    exact fld_setF ..
  · have joined := outs o ho
    rw [chain', chain] at joined
    rcases joined with old | ⟨e, he, body⟩
    · exact of_decide_eq_true (List.mem_filter.1 old).2
    · rw [body]
      exact fun same => of_decide_eq_true (List.mem_filter.1 he).2 (by injection same)

/-- After an acknowledgement the event is no longer held, whether it was or not. -/
theorem ackEvent_events (seq : BitVec 32) (d : Dev) :
    (runAct (ackEvent seq) d).chain.events = (d.chain.events.filter fun e => e.seq ≠ seq) ∧ (runAct (ackEvent seq) d).chain.dma = d.chain.dma := by
  by_cases known : ∃ e ∈ d.chain.events, e.seq = seq
  · rw [runAct_eq, ackEvent_known known]
    exact ⟨(ackUpds_reads seq d).1, (ackUpds_reads seq d).2.1⟩
  · push Not at known
    rw [runAct_eq, ackEvent_unknown known, applyAll_nil]
    exact ⟨(List.filter_eq_self.2 fun e he => decide_eq_true (known e he)).symm, rfl⟩

section commands
variable {s : State} (hs : s.dev.steady) (h : s.dev.Settled)
include hs h

theorem completes_eventAck_unknown {seq : BitVec 32} (idle : s.dev.chain.dma = []) (unknown : ∀ e ∈ s.dev.chain.events, e.seq ≠ seq) :
    Completes (.eventAck seq) s fun d => s.dev.wrote d [] ∧ d.chain = s.dev.chain := by
  refine completes_same (a := eventAckAct seq) rfl hs h ?_ ⟨wrote_refl _, rfl⟩
  rw [eventAckAct, inSequence_skip (ackEvent_unknown unknown), inSequence_one, runDma_none idle]

theorem completes_eventAck_held {seq : BitVec 32} (idle : s.dev.chain.dma = []) (known : ∃ e ∈ s.dev.chain.events, e.seq = seq)
    (few : s.dev.chain.events.length < 1024) :
    Completes (.eventAck seq) s fun d => d.chain.events = (s.dev.chain.events.filter fun e => e.seq ≠ seq) ∧
      d.fld F.EVT_STATUS_HELD = s.dev.chain.events.length - 1 ∧ (∀ o ∈ d.chain.out, o.body ≠ .event seq) ∧ s.dev.wrote d [] := by
  obtain ⟨events, dma, held, outs⟩ := ackUpds_reads seq s.dev
  refine completes_rests (a := eventAckAct seq) (us := ackUpds seq s.dev) rfl hs h ?_ (confined_ackUpds _ _) (by decide) (by decide) (by decide)
    (by decide) ⟨events, by rw [held]; omega, outs, (confined_ackUpds _ _).wrote _ (by decide)⟩
  rw [eventAckAct, inSequence, ackEvent_known known, inSequence_one, runDma_none (by rw [dma, idle]), List.append_nil]

end commands

/-! ### Responses (R558, R563) -/

/-- An own request is no longer outstanding. -/
def retireOwn (tag : BitVec 10) : List Upd := [.chain fun c => { c with out := c.out.filter fun x => x.tag ≠ tag }]

theorem retireOwn_keeps (tag : BitVec 10) (d : Dev) : (applyAll (retireOwn tag) d).chain = { d.chain with out := d.chain.out.filter fun x => x.tag ≠ tag } ∧
    (applyAll (retireOwn tag) d).hbm = d.hbm ∧ (applyAll (retireOwn tag) d).hbmBad = d.hbmBad := ⟨rfl, rfl, rfl⟩

/-- Bytes of an item that have moved, in its place. -/
def movedMore (x : DmaItem) (n : Nat) (c : ChainSt) : ChainSt :=
  { c with dma := c.dma.map fun z => if z.item = x.item then { x with moved := x.moved + n } else z }

theorem dmaMoved_first {d : Dev} {x : DmaItem} {xs : List DmaItem} (n : Nat) (first : d.chain.dma = x :: xs) :
    dmaMoved n d = inSequence [fun _ => [.chain (movedMore x n)], onlyIf (x.len ≤ x.moved + n) (endDma { x with moved := x.moved + n } 0)] d := by
  unfold dmaMoved
  rw [first]
  rfl

/-- Before its last byte an item goes on. -/
theorem dmaMoved_more {d : Dev} {x : DmaItem} {xs : List DmaItem} {n : Nat} (first : d.chain.dma = x :: xs) (more : x.moved + n < x.len) :
    dmaMoved n d = [.chain (movedMore x n)] := by
  have last : decide (x.len ≤ x.moved + n) = false := decide_eq_false (by omega)
  rw [dmaMoved_first n first, inSequence, inSequence_one, last]
  rfl

theorem confines_dmaMoved (n : Nat) : Confines dmaParts dmaRegs (dmaMoved n) := fun d => by
  unfold dmaMoved
  split
  · exact confined_nil
  · refine confines_inSequence_cons (fun _ => (confined_cons ..).2 ⟨rfl, confined_nil⟩) (confines_inSequence_cons (as := []) (Confines.onlyIf fun d =>
      confined_of_pumps (makes_endDma _ _ d)) Confines.nil) d

theorem confines_dmaFail : Confines dmaParts dmaRegs dmaFail := fun d => confined_of_pumps (makes_dmaFail d)
theorem confines_runDma : Confines dmaParts dmaRegs runDma := fun d => confined_of_pumps (makes_runDma d)

theorem confines_takeResponse (o : OutReq) (status : BitVec 8) (data : List Byte) : Confines dmaParts dmaRegs (takeResponse o status data) := by
  have first : Confines dmaParts dmaRegs fun _ => retireOwn o.tag := fun _ => (confined_cons ..).2 ⟨rfl, confined_nil⟩
  have write (a : Nat) : Confines dmaParts dmaRegs (writeHbm a data false) := (confines_writeHbm _ _ _).mono (by decide) (by decide)
  unfold takeResponse
  dsimp only
  split
  · exact confines_inSequence_cons first (confines_inSequence_cons (as := []) ((confines_ackEvent _).mono (by decide) (by decide)) Confines.nil)
  · refine confines_inSequence_cons first (confines_inSequence_cons (as := []) ?_ Confines.nil)
    split
    · exact confines_dmaMoved _
    · exact confines_dmaFail
  · refine confines_inSequence_cons first (confines_inSequence_cons (as := []) ?_ Confines.nil)
    split
    · exact confines_inSequence_cons (write _) (confines_inSequence_cons (as := []) (confines_dmaMoved _) Confines.nil)
    · exact confines_dmaFail

/-- What a response to an own request does (R558, R563). -/
def handleResponse (o : OutReq) (status : BitVec 8) (data : List Byte) : Act :=
  inSequence [takeResponse o status data, runDma, fun _ => [.sendEvents]]

theorem confines_handleResponse (o : OutReq) (status : BitVec 8) (data : List Byte) : Confines dmaParts dmaRegs (handleResponse o status data) :=
  confines_inSequence_cons (confines_takeResponse _ _ _) (confines_inSequence_cons confines_runDma (confines_inSequence_cons (as := [])
    (fun _ => (confined_cons ..).2 ⟨rfl, confined_nil⟩) Confines.nil))

theorem chainResponseReceive_eq (tag : BitVec 10) (status : BitVec 8) (data : List Byte) (d : Dev) : chainResponseReceiveAct tag status data d =
    if d.enumBack tag data then
      [setF F.CHAIN_ADDR_LENGTH 0 (data.getD 1 0).toNat, .chain fun c => { c with enumTag := none },
       .send (.resp (enumReq tag) 0 (BitVec.ofNat 8 (data.getD 1 0).toNat) data)]
    else
      match d.chain.out.find? fun o => o.tag = tag with
      | none => []
      | some o => handleResponse o status data d := rfl

theorem chainResponseReceive_own {tag : BitVec 10} {status : BitVec 8} {data : List Byte} {d : Dev} {o : OutReq} (back : d.enumBack tag data = false)
    (own : d.chain.out.find? (fun o => o.tag = tag) = some o) :
    chainResponseReceiveAct tag status data d = handleResponse o status data d := by
  rw [chainResponseReceive_eq, if_neg (Bool.eq_false_iff.1 back), own]

/-- What follows the move of an item that goes on: its packets, and the events that have room. -/
theorem moved_goesOn {d : Dev} {x : DmaItem} {xs : List DmaItem} {n : Nat} (first : d.chain.dma = x :: xs) (more : x.moved + n < x.len) (asked : x.asked ≠ 0) :
    let e := runAct (inSequence [dmaMoved n, runDma, fun _ => [.sendEvents]]) d
    (∃ y ys, e.chain.dma = y :: ys ∧ y.item = x.item ∧ y.moved = x.moved + n) ∧ e.hbm = d.hbm := by
  rw [runAct_three, runAct_list]
  generalize moved : runAct (dmaMoved n) d = a
  have run : a = (Upd.chain (movedMore x n)).apply d := by rw [← moved, runAct_eq, dmaMoved_more first more]; rfl
  have dma : a.chain.dma = { x with moved := x.moved + n } ::
      xs.map fun z => if z.item = x.item then { x with moved := x.moved + n } else z := by
    rw [run]
    change d.chain.dma.map _ = _
    rw [first, List.map_cons, if_pos rfl]
  have asks := runDma_asking dma (.inl asked)
  obtain ⟨k, ys, goes, -⟩ := asking_first asks dma
  have hbm : (applyAll (runDma a) a).hbm = a.hbm := keepAll_hbm a ((confined_asking asks).leaves (by decide))
  rw [← runAct_eq] at goes hbm
  generalize runAct runDma a = b at goes hbm
  refine ⟨⟨_, ys, (dma_sendEvents _ b).trans goes, rfl, rfl⟩, ?_⟩
  rw [keepAll_hbm b (by simp), hbm, run]
  rfl

section commands
variable {s : State} (hs : s.dev.steady) (h : s.dev.Settled)
include hs h

theorem completes_enumBack {tag : BitVec 10} {status : BitVec 8} {data : List Byte} (back : s.dev.enumBack tag data = true) :
    Completes (.chainResponseReceive tag status data) s fun d => d.fld F.CHAIN_ADDR_LENGTH = (data.getD 1 0).toNat % 32 ∧
      d.chain.enumTag = none ∧ Msg.resp (enumReq tag) 0 (BitVec.ofNat 8 (data.getD 1 0).toNat) data ∈ d.outbox ∧ s.dev.wrote d [.CHAIN_ADDR] := by
  have act : chainResponseReceiveAct tag status data s.dev = [setF F.CHAIN_ADDR_LENGTH 0 (data.getD 1 0).toNat,
      .chain fun c => { c with enumTag := none }, .send (.resp (enumReq tag) 0 (BitVec.ofNat 8 (data.getD 1 0).toNat) data)] := by
    rw [chainResponseReceive_eq, if_pos back]
  have confined : Confined [.regs, .chain, .outbox] [.CHAIN_ADDR] [setF F.CHAIN_ADDR_LENGTH 0 (data.getD 1 0).toNat,
      .chain fun c => { c with enumTag := none }, .send (.resp (enumReq tag) 0 (BitVec.ofNat 8 (data.getD 1 0).toNat) data)] := by
    simp only [confined_cons, confined_nil, and_true]
    exact ⟨rfl, rfl, rfl⟩
  refine completes_rests rfl hs h act confined (by decide) (by decide) (by decide) (by decide) ⟨?_, rfl, ?_, confined.wrote _ (by decide)⟩
  · simp (disch := exact of_decide_eq_true rfl) only [applyAll_cons, applyAll_nil, fld_apply_spared, fld_setF]
    rfl
  · exact List.mem_append_right _ (List.mem_singleton_self _)

theorem completes_response_none {tag : BitVec 10} {status : BitVec 8} {data : List Byte} (back : s.dev.enumBack tag data = false)
    (none_ : s.dev.chain.out.find? (fun o => o.tag = tag) = none) :
    Completes (.chainResponseReceive tag status data) s fun d => s.dev.wrote d [] ∧ d.chain = s.dev.chain := by
  refine completes_same (a := chainResponseReceiveAct tag status data) rfl hs h ?_ ⟨wrote_refl _, rfl⟩
  rw [chainResponseReceive_eq, if_neg (Bool.eq_false_iff.1 back), none_]

variable {tag : BitVec 10} {status : BitVec 8} {data : List Byte} {o : OutReq} (back : s.dev.enumBack tag data = false)
  (own : s.dev.chain.out.find? (fun o => o.tag = tag) = some o)
include back own

/-- A response to an own request, as the act that takes it runs. -/
theorem completes_response {P : Dev → Prop} (hP : P (runAct (handleResponse o status data) s.dev)) :
    Completes (.chainResponseReceive tag status data) s P :=
  completes_rests (a := chainResponseReceiveAct tag status data) rfl hs h (chainResponseReceive_own back own) (confines_handleResponse o status data _)
    (by decide) (by decide) (by decide) (by decide) hP

theorem completes_response_event {q : BitVec 32} (body : o.body = .event q) (idle : s.dev.chain.dma = []) :
    Completes (.chainResponseReceive tag status data) s fun d => d.chain.events = (s.dev.chain.events.filter fun e => e.seq ≠ q) ∧ s.dev.wrote d [] := by
  have taken : takeResponse o status data = inSequence [fun _ => retireOwn o.tag, ackEvent q] := by
    unfold takeResponse
    rw [body]
    rfl
  have run : runAct (takeResponse o status data) s.dev = runAct (ackEvent q) (applyAll (retireOwn o.tag) s.dev) := by rw [taken, runAct_two, runAct_list]
  obtain ⟨events, dma⟩ := ackEvent_events q (applyAll (retireOwn o.tag) s.dev)
  rw [← run, (retireOwn_keeps o.tag s.dev).1] at events dma
  have idle' : (runAct (takeResponse o status data) s.dev).chain.dma = [] := dma.trans idle
  have act : handleResponse o status data s.dev = takeResponse o status data s.dev ++ [.sendEvents] := by
    rw [runAct_eq] at idle'
    rw [handleResponse, inSequence, inSequence_skip (runDma_none idle')]
    rfl
  have confined : Confined [.regs, .chain, .outbox] [.EVT_STATUS] (handleResponse o status data s.dev) := by
    rw [act, taken, confined_append]
    exact ⟨confines_inSequence_cons (fun _ => (confined_cons ..).2 ⟨rfl, confined_nil⟩) (confines_inSequence_cons (as := [])
      (confines_ackEvent q) Confines.nil) _, (confined_cons ..).2 ⟨rfl, confined_nil⟩⟩
  refine completes_response hs h back own ⟨?_, confined.wrote _ (by decide)⟩
  rw [runAct_eq, act, applyAll_append]
  exact (sendEvents_held _ _).1.trans events

variable {x : DmaItem} {xs : List DmaItem} (first : s.dev.chain.dma = x :: xs)
include first

theorem completes_response_read {host a k : Nat} (body : o.body = .memRd host a k) (good : status = 0) (whole : data.length = k)
    (more : x.moved + k < x.len) (asked : x.asked ≠ 0) (sound : s.dev.hbmBad = []) (fits : a + k ≤ hbmSize) :
    Completes (.chainResponseReceive tag status data) s fun d => (∃ y ys, d.chain.dma = y :: ys ∧ y.item = x.item ∧ y.moved = x.moved + k) ∧
      (∀ j, j < k → memByte d.hbm (a + j) = data.getD j 0) ∧ ∀ j, j < a ∨ a + k ≤ j → memByte d.hbm j = memByte s.dev.hbm j := by
  have taken : takeResponse o status data = inSequence [fun _ => retireOwn o.tag, inSequence [writeHbm a data false, dmaMoved k]] := by
    unfold takeResponse
    rw [body]
    dsimp only
    rw [if_pos (by simp [good, whole])]
    rfl
  have run : runAct (handleResponse o status data) s.dev = runAct (inSequence [dmaMoved k, runDma, fun _ => [.sendEvents]])
      (runAct (writeHbm a data false) (applyAll (retireOwn o.tag) s.dev)) := by
    rw [handleResponse, taken]
    simp only [runAct_inSequence_cons, runAct_inSequence_nil, runAct_list]
  have dma : (runAct (writeHbm a data false) (applyAll (retireOwn o.tag) s.dev)).chain.dma = x :: xs := by
    rw [runAct_eq, keepAll_chain _ ((confines_writeHbm a data false _).leaves (by decide))]
    exact first
  obtain ⟨moved, hbm⟩ := moved_goesOn dma more asked
  rw [← run] at moved hbm
  subst whole
  refine completes_response hs h back own ⟨moved, fun j hj => ?_, fun j hj => ?_⟩
  · rw [hbm]
    exact memByte_writeHbm_same (by exact sound) fits false hj
  · rw [hbm]
    exact memByte_writeHbm_other _ _ _ _ hj

theorem completes_response_written {host a k : Nat} (body : o.body = .memWr host a k) (good : status = 0) (more : x.moved + k < x.len)
    (asked : x.asked ≠ 0) :
    Completes (.chainResponseReceive tag status data) s fun d => (∃ y ys, d.chain.dma = y :: ys ∧ y.item = x.item ∧ y.moved = x.moved + k) ∧
      d.hbm = s.dev.hbm := by
  have taken : takeResponse o status data = inSequence [fun _ => retireOwn o.tag, dmaMoved k] := by
    unfold takeResponse
    rw [body]
    dsimp only
    rw [if_pos (by simp [good])]
    rfl
  have run : runAct (handleResponse o status data) s.dev = runAct (inSequence [dmaMoved k, runDma, fun _ => [.sendEvents]])
      (applyAll (retireOwn o.tag) s.dev) := by
    rw [handleResponse, taken]
    simp only [runAct_inSequence_cons, runAct_inSequence_nil, runAct_list]
  obtain ⟨moved, hbm⟩ := moved_goesOn (d := applyAll (retireOwn o.tag) s.dev) first more asked
  rw [← run] at moved hbm
  exact completes_response hs h back own ⟨moved, hbm⟩

theorem completes_response_failed {host a k : Nat} (body : o.body = .memRd host a k ∨ o.body = .memWr host a k) (bad : status ≠ 0) :
    Completes (.chainResponseReceive tag status data) s fun d => ∀ y ∈ d.chain.dma, y.item ≠ x.item := by
  have taken : takeResponse o status data = inSequence [fun _ => retireOwn o.tag, dmaFail] := by
    unfold takeResponse
    rcases body with body | body
    · rw [body]
      dsimp only
      rw [if_neg fun both => bad (of_decide_eq_true (Bool.and_eq_true_iff.1 both).1)]
      rfl
    · rw [body]
      dsimp only
      rw [if_neg bad]
      rfl
  have run : runAct (handleResponse o status data) s.dev =
      runAct (inSequence [runDma, fun _ => [.sendEvents]]) (runAct dmaFail (applyAll (retireOwn o.tag) s.dev)) := by
    rw [handleResponse, taken]
    simp only [runAct_inSequence_cons, runAct_inSequence_nil, runAct_list]
  refine completes_response hs h back own fun y hy => ?_
  rw [run, runAct_two, runAct_list] at hy
  obtain ⟨z, hz, same⟩ := (pumped_of_makes makes_runDma _).items y ((dma_sendEvents _ _) ▸ hy)
  rw [← same]
  rw [runAct_congr (dmaFail_first (d := applyAll (retireOwn o.tag) s.dev) first)] at hz
  exact endDma_drops x _ _ z hz

end commands

end Sys2Proof.Machine
end

