-- ==== Sys2Proof/Proofs/ChainRequests.lean ====
section
/-! PROOFS. Requests sent again, ENUMERATE, RELAY and the links of the chain (R553, R555, R558, R560, R561, R565). -/

namespace Sys2Proof.Machine

/-! ### Malformed packets and answers (R555, R557, R558) -/

theorem confined_flagChain {bit : Fld} (reg : bit.reg = .CHAIN_ERR) : Confined [.regs] [.CHAIN_ERR] (flagChain bit) := by
  simp only [flagChain, flagFault, confined_cons, confined_nil, and_true]
  exact ⟨by simp [setF, Upd.confined, Upd.touches, Upd.writes, reg], rfl⟩

theorem flagChain_reads {bit : Fld} (d : Dev) (le : bit.lo ≤ bit.hi) (low : bit.hi < 32) : (applyAll (flagChain bit) d).fld bit = 1 ∧
    d.tallied (applyAll (flagChain bit) d) F.CHAIN_ERR_FAULTS 0 := fld_flagFault d 0 rfl ⟨.inr low, by decide, le⟩

/-- A fault of the chain is set and counted, and nothing else changes. -/
theorem completes_flagged {i : Instr} {s : State} {a : Act} {bit : Fld} (he : exec i s = perform (onPower a) s) (hs : s.dev.steady)
    (h : s.dev.Settled) (ha : a s.dev = flagChain bit) (reg : bit.reg = .CHAIN_ERR) (le : bit.lo ≤ bit.hi) (low : bit.hi < 32) :
    Completes i s fun d => d.fld bit = 1 ∧ s.dev.tallied d F.CHAIN_ERR_FAULTS 0 ∧ s.dev.wrote d [] := by
  obtain ⟨set, count⟩ := flagChain_reads s.dev le low
  exact completes_rests he hs h ha (confined_flagChain reg) (by decide) (by decide) (by decide) (by decide)
    ⟨set, count, ((confined_flagChain reg).mono (by decide) fun _ m => m).wrote _ (by decide)⟩

/-- A packet that breaks its row of R556. -/
theorem completes_malformed {i : Instr} {s : State} {ok : Bool} {a : Act} (he : exec i s = perform (onPower (framed ok a)) s) (hs : s.dev.steady)
    (h : s.dev.Settled) (bad : ok = false) : Completes i s fun d => d.fld F.CHAIN_ERR_MALFORMED = 1 ∧
      s.dev.tallied d F.CHAIN_ERR_FAULTS 0 ∧ s.dev.wrote d [] :=
  completes_flagged (bit := F.CHAIN_ERR_MALFORMED) he hs h (by rw [bad]; rfl) rfl (by decide) (by decide)

/-- A request that may be executed again (R558). -/
theorem completes_again {i : Instr} {s : State} {r : Req} {f : Dev → Answer × Act} {P : Dev → Prop} {ps : List Part} {rs : List Reg}
    {a : Answer} {act : Act} (he : exec i s = perform (onPower (serveAgain r f)) s) (hs : s.dev.steady)
    (hf : f s.dev = (a, act)) (hc : Confined ps rs (act s.dev)) (route : .route ∉ ps) (cnt : .CHAIN_CNT ∉ rs)
    (h : ∀ d, Settles (applyAll (handled r a (act s.dev)) s.dev) d → s.dev.answered d r a → P d) : Completes i s P := by
  have run : runAct (serveAgain r f) s.dev = applyAll (handled r a (act s.dev)) s.dev := by
    rw [runAct_eq, serveAgain, hf]
    rfl
  refine completes_settles he hs ?_ fun d q => ?_
  · rw [run]
    exact (congrArg RouteSt.lost (keepAll_route _ ((confined_handled r a hc).leaves (by simp [route])))).trans hs.2
  · rw [run] at q
    exact h d q (answered_handled r a s.dev hc cnt q)

/-! ### Requests sent again (R558) -/

theorem confines_resend (o : OutReq) : Confines [.outbox] [] (resend o) := fun d => by
  unfold resend
  split
  · split
    · exact (confined_cons ..).2 ⟨rfl, confined_nil⟩
    · exact confined_nil
  · exact (confined_cons ..).2 ⟨rfl, confined_nil⟩
  · exact (confined_cons ..).2 ⟨rfl, confined_nil⟩

/-- An own request is counted as sent once more (R558). -/
def countResend (tag : BitVec 10) (now : Nat) : List Upd :=
  [addF F.CHAIN_CNT_RESENDS 0 1, .chain fun c => { c with
    out := c.out.map fun x => if x.tag = tag then { x with sentAt := now, resends := x.resends + 1 } else x }]

/-- An own request is given up (R558). -/
def giveUp (tag : BitVec 10) : List Upd :=
  flagChain F.CHAIN_ERR_RETRY_EXHAUSTED ++ [.chain fun c => { c with out := c.out.filter fun x => x.tag ≠ tag }]

/-- What fails with an own request given up: an event stays held. -/
def failWith (o : OutReq) : Act :=
  match o.body with
  | .event _ => noAct
  | _ => dmaFail

theorem chainRetryTimeout_eq (tag : BitVec 10) (d : Dev) : chainRetryTimeoutAct tag d =
    match d.chain.out.find? fun o => o.tag = tag with
    | none => []
    | some o =>
      if !d.expired o.sentAt (d.fld F.CHAIN_CFG_RETRY_TO) then []
      else if o.resends < d.fld F.CHAIN_CFG_RETRY_MAX then
        inSequence [fun _ => countResend tag d.now, onlyIf d.chained (resend o)] d
      else inSequence [fun _ => giveUp tag, failWith o, runDma] d := rfl

/-- The request of a tag among those outstanding, changed in its place. -/
theorem find_resent {tag : BitVec 10} {now : Nat} {o : OutReq} {os : List OutReq} (found : os.find? (fun o => o.tag = tag) = some o) :
    (os.map fun x => if x.tag = tag then { x with sentAt := now, resends := x.resends + 1 } else x).find? (fun o => o.tag = tag) =
      some { o with sentAt := now, resends := o.resends + 1 } := by
  have same : o.tag = tag := by simpa using List.find?_some found
  have keeps : ((fun o : OutReq => decide (o.tag = tag)) ∘ fun x => if x.tag = tag then { x with sentAt := now, resends := x.resends + 1 } else x) =
      fun o => decide (o.tag = tag) := by
    funext x
    dsimp only [Function.comp]
    split <;> rfl
  rw [List.find?_map, keeps, found, Option.map_some, if_pos same]

section retry
variable {s : State} (hs : s.dev.steady) (h : s.dev.Settled) {tag : BitVec 10} {o : OutReq}
include hs h

theorem completes_retry_none (none_ : s.dev.chain.out.find? (fun o => o.tag = tag) = none) :
    Completes (.chainRetryTimeout tag) s fun d => s.dev.wrote d [] ∧ d.chain = s.dev.chain :=
  completes_same (a := chainRetryTimeoutAct tag) rfl hs h (by rw [chainRetryTimeout_eq, none_]) ⟨wrote_refl _, rfl⟩

variable (own : s.dev.chain.out.find? (fun o => o.tag = tag) = some o)
include own

theorem completes_retry_early (early : s.dev.expired o.sentAt (s.dev.fld F.CHAIN_CFG_RETRY_TO) = false) :
    Completes (.chainRetryTimeout tag) s fun d => s.dev.wrote d [] ∧ d.chain = s.dev.chain := by
  refine completes_same (a := chainRetryTimeoutAct tag) rfl hs h ?_ ⟨wrote_refl _, rfl⟩
  rw [chainRetryTimeout_eq, own]
  dsimp only
  rw [if_pos (by rw [early]; rfl)]

variable (late : s.dev.expired o.sentAt (s.dev.fld F.CHAIN_CFG_RETRY_TO) = true)
include late

theorem completes_retry_again (again : o.resends < s.dev.fld F.CHAIN_CFG_RETRY_MAX) :
    Completes (.chainRetryTimeout tag) s fun d => s.dev.counted d F.CHAIN_CNT_RESENDS 0 1 ∧
      s.dev.wrote d [.CHAIN_CNT] ∧ d.chain.out.find? (fun o => o.tag = tag) = some { o with sentAt := s.dev.now, resends := o.resends + 1 } ∧
      (∀ h a k, o.body = .memRd h a k → s.dev.chained = true → Msg.chainRequest tag o.body [] ∈ d.outbox) ∧
      (∀ q e, o.body = .event q → s.dev.chain.events.find? (fun e => e.seq = q) = some e → s.dev.chained = true →
        Msg.event tag e.kind e.seq e.gcnt e.body ∈ d.outbox) := by
  have same : o.tag = tag := by simpa using List.find?_some own
  have act : chainRetryTimeoutAct tag s.dev =
      countResend tag s.dev.now ++ (if s.dev.chained then resend o (applyAll (countResend tag s.dev.now) s.dev) else []) := by
    rw [chainRetryTimeout_eq, own]
    dsimp only
    rw [if_neg (by rw [late]; exact Bool.false_ne_true), if_pos again, inSequence, inSequence_one]
    rfl
  have count : Confined [.regs, .chain] [.CHAIN_CNT] (countResend tag s.dev.now) := by
    simp only [countResend, confined_cons, confined_nil, and_true]
    exact ⟨rfl, rfl⟩
  have tail : Confined [.outbox] [] (if s.dev.chained then resend o (applyAll (countResend tag s.dev.now) s.dev) else []) := by
    rw [confined_ite]
    exact ⟨fun _ => confines_resend o _, fun _ => confined_nil⟩
  have confined : Confined [.regs, .chain, .outbox] [.CHAIN_CNT] (chainRetryTimeoutAct tag s.dev) := by
    rw [act, confined_append]
    exact ⟨count.mono (by decide) (by decide), tail.mono (by decide) (by decide)⟩
  have chain : (runAct (chainRetryTimeoutAct tag) s.dev).chain = { s.dev.chain with
      out := s.dev.chain.out.map fun x => if x.tag = tag then { x with sentAt := s.dev.now, resends := x.resends + 1 } else x } := by
    rw [runAct_eq, act, applyAll_append, keepAll_chain _ (tail.leaves (by decide))]
    rfl
  refine completes_rests (a := chainRetryTimeoutAct tag) rfl hs h rfl confined (by decide) (by decide) (by decide) (by decide)
    ⟨?_, confined.wrote _ (by decide), ?_, fun host a k body chained => ?_, fun q e body found chained => ?_⟩
  · rw [act, applyAll_append, Dev.counted, tail.fld _ List.not_mem_nil]
    simp (disch := exact of_decide_eq_true rfl) only [countResend, applyAll_cons, applyAll_nil, fld_apply_spared, fld_addF]
  · rw [← runAct_eq, chain]
    exact find_resent own
  · refine sent_of_mem ?_ _
    rw [act, if_pos chained, resend, body, same]
    exact List.mem_append_right _ (List.mem_singleton_self _)
  · refine sent_of_mem ?_ _
    rw [act, if_pos chained, resend, body]
    dsimp only
    rw [show (applyAll (countResend tag s.dev.now) s.dev).chain.events = s.dev.chain.events from rfl, found, same]
    exact List.mem_append_right _ (List.mem_singleton_self _)

theorem completes_retry_last (last : s.dev.fld F.CHAIN_CFG_RETRY_MAX ≤ o.resends) :
    Completes (.chainRetryTimeout tag) s fun d => d.fld F.CHAIN_ERR_RETRY_EXHAUSTED = 1 ∧
      (∀ q, o.body = .event q → s.dev.chain.dma = [] → d.chain.events = s.dev.chain.events) ∧
      (∀ x xs, s.dev.chain.dma = x :: xs → (∀ q, o.body ≠ .event q) → ∀ y ∈ d.chain.dma, y.item ≠ x.item) := by
  have act : chainRetryTimeoutAct tag s.dev = inSequence [fun _ => giveUp tag, failWith o, runDma] s.dev := by
    rw [chainRetryTimeout_eq, own]
    dsimp only
    rw [if_neg (by rw [late]; exact Bool.false_ne_true), if_neg (Nat.not_lt.2 last)]
  have giving : Confined [.regs, .chain] [.CHAIN_ERR] (giveUp tag) := by
    rw [giveUp, confined_append]
    exact ⟨(confined_flagChain rfl).mono (by decide) (by decide), (confined_cons ..).2 ⟨rfl, confined_nil⟩⟩
  have failing : Makes Upd.pumps (failWith o) := by
    unfold failWith
    split
    · exact fun _ => each_nil
    · exact makes_dmaFail
  have confined : Confines dmaParts dmaRegs (inSequence [fun _ => giveUp tag, failWith o, runDma]) :=
    confines_inSequence_cons (fun _ => giving.mono (by decide) (by decide)) (confines_inSequence_cons (fun d => confined_of_pumps (failing d))
      (confines_inSequence_cons (as := []) confines_runDma Confines.nil))
  refine completes_rests (a := chainRetryTimeoutAct tag) rfl hs h act (confined _) (by decide) (by decide) (by decide) (by decide) ?_
  rw [← runAct_eq, runAct_three, runAct_list]
  have given : (applyAll (giveUp tag) s.dev).fld F.CHAIN_ERR_RETRY_EXHAUSTED = 1 := by
    rw [giveUp, applyAll_append, Confined.fld (ps := [.chain]) (rs := []) ((confined_cons ..).2 ⟨rfl, confined_nil⟩) _ List.not_mem_nil]
    exact (flagChain_reads s.dev (by decide) (by decide)).1
  have chain : (applyAll (giveUp tag) s.dev).chain = { s.dev.chain with out := s.dev.chain.out.filter fun x => x.tag ≠ tag } := by
    rw [giveUp, applyAll_append, applyAll_cons, applyAll_nil, chain_apply_chain,
      keepAll_chain s.dev ((confined_flagChain (bit := F.CHAIN_ERR_RETRY_EXHAUSTED) rfl).leaves (by decide))]
  generalize applyAll (giveUp tag) s.dev = a at given chain
  refine ⟨?_, fun q body idle => ?_, fun x xs first other y hy => ?_⟩
  · rw [(pumped_of_makes makes_runDma _).exhausted, (pumped_of_makes failing _).exhausted, given]
  · have none_ : failWith o a = [] := by rw [failWith, body]; rfl
    rw [runAct_eq (failWith o), none_, applyAll_nil, runAct_eq, runDma_none (by rw [chain, idle]), applyAll_nil, chain]
  · have fails : failWith o = dmaFail := by
      unfold failWith
      split
      · rename_i q body
        exact absurd body (other q)
      · rfl
    obtain ⟨z, hz, same⟩ := (pumped_of_makes makes_runDma _).items y hy
    rw [← same]
    rw [fails, runAct_congr (dmaFail_first (d := a) (by rw [chain]; exact first))] at hz
    exact endDma_drops x _ _ z hz

end retry


/-! ### ENUMERATE (R561) -/

/-- The module takes its address: kept responses and own requests are gone. -/
def takeAddress (next : Nat) (tag : BitVec 10) (up : Bool) : List Upd :=
  [setF F.CHAIN_ADDR_VALID 0 1, setF F.CHAIN_ADDR_ADDR 0 next, setB F.CHAIN_STATUS_BEYOND 0 (up && next = 24),
    .chain fun c => { c with cache := [], out := [], enumTag := if up && next < 24 then some tag else none }]

/-- The ENUMERATE is passed on, or answered by the last module. -/
def passOn (next : Nat) (tag : BitVec 10) (up : Bool) : List Upd :=
  if up && next < 24 then [.send (.enumerate (next + 1) tag)]
  else [setF F.CHAIN_ADDR_LENGTH 0 next, .send (.resp (enumReq tag) 0 (BitVec.ofNat 8 next) (enumBytes next next))]

/-- ENUMERATE between the end of the item under way and the packets of the next. -/
def takeEnumerate (next : Nat) (tag : BitVec 10) (up : Bool) : Act :=
  inSequence [fun _ => takeAddress next tag up, fun _ => passOn next tag up, resendEvents]

theorem confined_takeAddress (next : Nat) (tag : BitVec 10) (up : Bool) : Confined [.regs, .chain] [.CHAIN_ADDR, .CHAIN_STATUS] (takeAddress next tag up) := by
  simp only [takeAddress, confined_cons, confined_nil, and_true]
  exact ⟨rfl, rfl, rfl, rfl⟩

theorem confined_passOn (next : Nat) (tag : BitVec 10) (up : Bool) : Confined [.regs, .outbox] [.CHAIN_ADDR] (passOn next tag up) := by
  simp only [passOn, confined_ite, confined_cons, confined_nil, and_true]
  exact ⟨fun _ => rfl, fun _ => ⟨rfl, rfl⟩⟩

theorem confines_resendEvents : Confines [.regs, .chain, .outbox] [] resendEvents := fun d => by
  simp only [resendEvents, confined_cons, confined_nil, and_true]
  exact ⟨rfl, rfl⟩

theorem raised_resendEvents (d : Dev) : Raised d (runAct resendEvents d) := (raised_sent d _).trans (raised_sendEvents _ _)

theorem confines_takeEnumerate (next : Nat) (tag : BitVec 10) (up : Bool) :
    Confines [.regs, .chain, .outbox] [.CHAIN_ADDR, .CHAIN_STATUS] (takeEnumerate next tag up) :=
  confines_inSequence_cons (fun _ => (confined_takeAddress _ _ _).mono (by decide) (by decide)) (confines_inSequence_cons (fun _ =>
    (confined_passOn _ _ _).mono (by decide) (by decide)) (confines_inSequence_cons (as := []) (confines_resendEvents.mono (by decide) (by decide))
    Confines.nil))

theorem enumerateAct_eq {next : Nat} (tag : BitVec 10) {d : Dev} (low : 1 ≤ next) (high : next ≤ 24) : ∃ b, enumerateAct next tag d =
    inSequence [onlyIf b dmaFail, fun _ => takeAddress next tag (d.fld F.CHAIN_STATUS_OUT_STATE = 2),
      fun _ => passOn next tag (d.fld F.CHAIN_STATUS_OUT_STATE = 2), resendEvents, runDma] d := by
  have valid : ¬ (decide (next = 0) || decide (24 < next)) = true := by
    simp only [Bool.or_eq_true, decide_eq_true_eq]
    omega
  refine ⟨d.chain.out.any fun o => match o.body with | .event _ => false | _ => true, ?_⟩
  unfold enumerateAct
  rw [if_neg valid]
  rfl

/-- What stands after ENUMERATE and before the packets of the next item. -/
structure Enumerated (next : Nat) (tag : BitVec 10) (up : Bool) (d e : Dev) : Prop where
  valid : e.fld F.CHAIN_ADDR_VALID = 1
  addr : e.fld F.CHAIN_ADDR_ADDR = next
  beyond : e.fld F.CHAIN_STATUS_BEYOND = if up && decide (next = 24) then 1 else 0
  chain : e.chain.besideDma = { d.chain.besideDma with cache := [], enumTag := if up && next < 24 then some tag else none }
  dma : e.chain.dma = d.chain.dma
  passed : up = true → next < 24 → Msg.enumerate (next + 1) tag ∈ e.outbox
  last : up = false ∨ next = 24 → e.fld F.CHAIN_ADDR_LENGTH = next ∧
    Msg.resp (enumReq tag) 0 (BitVec.ofNat 8 next) (enumBytes next next) ∈ e.outbox

theorem enumerated_takeEnumerate {next : Nat} (tag : BitVec 10) (up : Bool) (high : next ≤ 24) (d : Dev) :
    Enumerated next tag up d (runAct (takeEnumerate next tag up) d) := by
  have run : runAct (takeEnumerate next tag up) d = runAct resendEvents (applyAll (passOn next tag up) (applyAll (takeAddress next tag up) d)) := by
    rw [takeEnumerate, runAct_three, runAct_list, runAct_list]
  have taken : (applyAll (takeAddress next tag up) d).fld F.CHAIN_ADDR_VALID = 1 ∧ (applyAll (takeAddress next tag up) d).fld F.CHAIN_ADDR_ADDR = next ∧
      (applyAll (takeAddress next tag up) d).fld F.CHAIN_STATUS_BEYOND = if up && decide (next = 24) then 1 else 0 := by
    simp (disch := exact of_decide_eq_true rfl) only [takeAddress, applyAll_cons, applyAll_nil, fld_apply_spared, fld_setF, fld_setB]
    exact ⟨rfl, Nat.mod_eq_of_lt (by omega), trivial⟩
  have chain : (applyAll (takeAddress next tag up) d).chain =
      { d.chain with cache := [], out := [], enumTag := if up && next < 24 then some tag else none } := by
    simp only [takeAddress, applyAll_cons, applyAll_nil, chain_apply_chain]
    rw [keep_chain (setB ..) _ (by simp [setB]), keep_chain (setF ..) _ (by simp [setF]), keep_chain (setF ..) _ (by simp [setF])]
  generalize applyAll (takeAddress next tag up) d = a at run taken chain
  obtain ⟨valid, addr, beyond⟩ := taken
  have pass : (applyAll (passOn next tag up) a).chain = a.chain ∧ (applyAll (passOn next tag up) a).fld F.CHAIN_ADDR_VALID = 1 ∧
      (applyAll (passOn next tag up) a).fld F.CHAIN_ADDR_ADDR = next ∧
      (applyAll (passOn next tag up) a).fld F.CHAIN_STATUS_BEYOND = if up && decide (next = 24) then 1 else 0 := by
    refine ⟨keepAll_chain a ((confined_passOn _ _ _).leaves (by decide)), ?_, ?_, ?_⟩
    · rw [← valid, passOn]
      split <;> simp (disch := exact of_decide_eq_true rfl) only [applyAll_cons, applyAll_nil, fld_apply_spared]
    · rw [← addr, passOn]
      split <;> simp (disch := exact of_decide_eq_true rfl) only [applyAll_cons, applyAll_nil, fld_apply_spared]
    · rw [(confined_passOn next tag up).fld a (by decide), beyond]
  have passed (on : up = true) (more : next < 24) : Msg.enumerate (next + 1) tag ∈ (applyAll (passOn next tag up) a).outbox := by
    rw [passOn, if_pos (by simp [on, more])]
    exact sent_of_mem (List.mem_singleton_self _) a
  have last (end_ : up = false ∨ next = 24) : (applyAll (passOn next tag up) a).fld F.CHAIN_ADDR_LENGTH = next ∧
      Msg.resp (enumReq tag) 0 (BitVec.ofNat 8 next) (enumBytes next next) ∈ (applyAll (passOn next tag up) a).outbox := by
    have off : ¬ (up && decide (next < 24)) = true := by
      rcases end_ with h | h <;> simp [h]
    rw [passOn, if_neg off]
    refine ⟨?_, sent_of_mem (List.mem_cons_of_mem _ (List.mem_singleton_self _)) a⟩
    simp (disch := exact of_decide_eq_true rfl) only [applyAll_cons, applyAll_nil, fld_apply_spared, fld_setF]
    exact Nat.mod_eq_of_lt (by omega)
  generalize applyAll (passOn next tag up) a = b at run pass passed last
  obtain ⟨same, valid, addr, beyond⟩ := pass
  have regs (f : Fld) : (runAct resendEvents b).fld f 0 = b.fld f 0 := (confines_resendEvents b).fld b List.not_mem_nil 0
  have raised := raised_resendEvents b
  have sent := sent_runAct resendEvents b
  rw [run]
  refine ⟨(regs _).trans valid, (regs _).trans addr, (regs _).trans beyond, ?_, ?_, fun on more => sent.subset (passed on more), fun end_ =>
    ⟨(regs _).trans (last end_).1, sent.subset (last end_).2⟩⟩
  · rw [ChainSt.besideDma, raised.beside, same, chain]
    rfl
  · rw [dma_of_raised raised, same, chain]

section enumerate
variable {s : State} (hs : s.dev.steady) (h : s.dev.Settled) {next : Nat} {tag : BitVec 10}
include hs h

theorem completes_enumerate_malformed (bad : next = 0 ∨ 24 < next) : Completes (.enumerate next tag) s fun d => d.fld F.CHAIN_ERR_MALFORMED = 1 ∧
    s.dev.tallied d F.CHAIN_ERR_FAULTS 0 ∧ s.dev.wrote d [] := by
  refine completes_flagged (a := enumerateAct next tag) rfl hs h ?_ rfl (by decide) (by decide)
  unfold enumerateAct
  rw [if_pos (by simpa using bad)]

theorem completes_enumerate (low : 1 ≤ next) (high : next ≤ 24) :
    let outUp := decide (s.dev.fld F.CHAIN_STATUS_OUT_STATE = 2)
    Completes (.enumerate next tag) s (fun d => d.fld F.CHAIN_ADDR_VALID = 1 ∧ d.fld F.CHAIN_ADDR_ADDR = next ∧ d.chain.cache = [] ∧
      d.fld F.CHAIN_STATUS_BEYOND = (if outUp && decide (next = 24) then 1 else 0) ∧
      (outUp = true → next < 24 → d.chain.enumTag = some tag ∧ Msg.enumerate (next + 1) tag ∈ d.outbox) ∧
      (outUp = false ∨ next = 24 → d.chain.enumTag = none ∧ d.fld F.CHAIN_ADDR_LENGTH = next ∧
        Msg.resp (enumReq tag) 0 (BitVec.ofNat 8 next) (enumBytes next next) ∈ d.outbox) ∧
      (s.dev.chain.dma = [] → s.dev.wrote d [.CHAIN_ADDR, .CHAIN_STATUS])) := by
  intro outUp
  obtain ⟨b, act⟩ := enumerateAct_eq tag (d := s.dev) low high
  have confined : Confines dmaParts (.CHAIN_ADDR :: .CHAIN_STATUS :: dmaRegs) (inSequence [onlyIf b dmaFail, fun _ => takeAddress next tag outUp,
      fun _ => passOn next tag outUp, resendEvents, runDma]) :=
    confines_inSequence_cons (Confines.onlyIf (confines_dmaFail.mono (by decide) (by decide))) (confines_inSequence_cons
      (fun _ => (confined_takeAddress _ _ _).mono (by decide) (by decide)) (confines_inSequence_cons
      (fun _ => (confined_passOn _ _ _).mono (by decide) (by decide)) (confines_inSequence_cons (confines_resendEvents.mono (by decide) (by decide))
      (confines_inSequence_cons (as := []) (confines_runDma.mono (by decide) (by decide)) Confines.nil))))
  refine completes_rests (a := enumerateAct next tag) rfl hs h act (confined _) (by decide) (by decide) (by decide) (by decide) ?_
  have run : runAct (inSequence [onlyIf b dmaFail, fun _ => takeAddress next tag outUp, fun _ => passOn next tag outUp, resendEvents, runDma]) s.dev =
      runAct runDma (runAct (takeEnumerate next tag outUp) (runAct (onlyIf b dmaFail) s.dev)) := by
    simp only [takeEnumerate, runAct_inSequence_cons, runAct_inSequence_nil]
  rw [← runAct_eq, run]
  have done := enumerated_takeEnumerate tag outUp high (runAct (onlyIf b dmaFail) s.dev)
  have idle (none_ : s.dev.chain.dma = []) : runAct (onlyIf b dmaFail) s.dev = s.dev := by
    rw [runAct_eq, onlyIf, dmaFail_none none_, ite_self, applyAll_nil]
  have wrote (none_ : s.dev.chain.dma = []) :
      s.dev.wrote (runAct (takeEnumerate next tag outUp) (runAct (onlyIf b dmaFail) s.dev)) [.CHAIN_ADDR, .CHAIN_STATUS] ∧
      (runAct (takeEnumerate next tag outUp) (runAct (onlyIf b dmaFail) s.dev)).chain.dma = [] := by
    rw [done.dma, idle none_]
    exact ⟨(confines_takeEnumerate next tag outUp s.dev).wrote _ (by decide), none_⟩
  generalize runAct (takeEnumerate next tag outUp) (runAct (onlyIf b dmaFail) s.dev) = e at done wrote
  have pumped := pumped_of_makes makes_runDma e
  have sent := sent_runAct runDma e
  have regs {f : Fld} (hf : f.reg ∉ dmaRegs) : (runAct runDma e).fld f 0 = e.fld f 0 := (confines_runDma e).fld e hf 0
  have cache : (runAct runDma e).chain.besideDma.cache = [] := by rw [pumped.rest, done.chain]
  have enumTag : (runAct runDma e).chain.besideDma.enumTag = if outUp && next < 24 then some tag else none := by rw [pumped.rest, done.chain]
  refine ⟨(regs (by decide)).trans done.valid, (regs (by decide)).trans done.addr, cache, (regs (by decide)).trans done.beyond, fun on more => ⟨?_, ?_⟩,
    fun end_ => ⟨?_, ?_, ?_⟩, fun none_ => ?_⟩
  · exact enumTag.trans (if_pos (by simp [on, more]))
  · exact sent.subset (done.passed on more)
  · refine enumTag.trans (if_neg ?_)
    rcases end_ with off | off <;> simp [off]
  · exact (regs (by decide)).trans (done.last end_).1
  · exact sent.subset (done.last end_).2
  · obtain ⟨wrote, empty⟩ := wrote none_
    rw [runAct_eq, runDma_none empty, applyAll_nil]
    exact wrote

end enumerate


/-! ### Requests to other modules, and their responses (R560, R569) -/

/-- A request on its way to another module. -/
def relayOut (r : Req) (c : Coord) (inner : InnerReq) (d : Dev) : List Upd :=
  [addF F.CHAIN_CNT_RX 0 1, .chain fun x => { x with relays := x.relays ++ [⟨r, c, d.relayTag, some (innerType inner)⟩] },
    .send (.mgmt c (.relayed d.relayTag inner))]

theorem relayTo_new {r : Req} {c : Coord} {inner : InnerReq} {d : Dev} (fresh : d.fresh r)
    (new : ∀ x ∈ d.chain.relays, ¬ (x.req.path = r.path ∧ x.req.src = r.src ∧ x.req.tag = r.tag)) :
    relayTo r c inner (some (innerType inner)) d =
      if 64 ≤ (d.chain.relays.filter fun x => x.target = c).length then handled r answerBusy [] else relayOut r c inner d := by
  have none_ : ¬ (d.chain.relays.any fun x => x.req.path = r.path && x.req.src = r.src && x.req.tag = r.tag) = true := by
    simpa [and_assoc] using new
  unfold relayTo
  rw [fresh]
  dsimp only
  rw [if_neg none_]
  rfl

theorem confined_relayOut (r : Req) (c : Coord) (inner : InnerReq) (d : Dev) : Confined [.regs, .chain, .outbox] [.CHAIN_CNT] (relayOut r c inner d) := by
  simp only [relayOut, confined_cons, confined_nil, and_true]
  exact ⟨rfl, rfl, rfl⟩

/-- The answer to a relayed request, from the response of its target (R560). -/
def relayAnswer (x : RelayOut) (status reason : BitVec 8) (data : List Byte) : Answer :=
  match x.typ with
  | some t => answerData (responsePacket t x.req.tag status reason data)
  | none => ⟨status, reason, data⟩

theorem relayAnswer_eq (x : RelayOut) (status reason : BitVec 8) (data : List Byte) : relayAnswer x status reason data =
    if x.typ.isSome then answerData (responsePacket (x.typ.getD 0) x.req.tag status reason data) else ⟨status, reason, data⟩ := by
  unfold relayAnswer
  split <;> rename_i typ <;> rw [typ] <;> rfl

/-- What the response of a target does. -/
def relayBack (c : Coord) (tag : BitVec 10) (r : Req) (a : Answer) : List Upd :=
  [.chain fun x => { x with relays := x.relays.filter fun y => !(y.target = c && y.tag = tag) }] ++ respond r a

theorem confined_relayBack (c : Coord) (tag : BitVec 10) (r : Req) (a : Answer) : Confined [.regs, .chain, .outbox] [] (relayBack c tag r a) := by
  simp only [relayBack, respond, confined_append, confined_cons, confined_nil, and_true]
  exact ⟨rfl, rfl, rfl⟩

section relay
variable {s : State} (hs : s.dev.steady) (h : s.dev.Settled)
include hs h

theorem completes_relay_full {r : Req} {c : Coord} {inner : InnerReq} (single : r.bcast = false) (fresh : s.dev.fresh r)
    (new : ∀ x ∈ s.dev.chain.relays, ¬ (x.req.path = r.path ∧ x.req.src = r.src ∧ x.req.tag = r.tag))
    (full : 64 ≤ (s.dev.chain.relays.filter fun x => x.target = c).length) :
    Completes (.relay r c inner) s fun d => s.dev.answered d r answerBusy ∧ s.dev.wrote d [.CHAIN_CNT] := by
  have act : relayAct r c inner s.dev = handled r answerBusy [] := by
    rw [relayAct, framed_true _ (by rw [single]; rfl), relayTo_new fresh new, if_pos full]
  have confined := confined_handled r answerBusy (confined_nil (ps := []) (rs := []))
  refine completes_rests (a := relayAct r c inner) rfl hs h act confined (by decide) (by decide) (by decide) (by decide) ⟨?_, confined.wrote _ (by decide)⟩
  exact answered_handled (ps := []) (rs := []) r answerBusy s.dev confined_nil List.not_mem_nil ⟨.refl _, .of_chain rfl⟩

theorem completes_relay_sent {r : Req} {c : Coord} {inner : InnerReq} (single : r.bcast = false) (fresh : s.dev.fresh r)
    (new : ∀ x ∈ s.dev.chain.relays, ¬ (x.req.path = r.path ∧ x.req.src = r.src ∧ x.req.tag = r.tag))
    (room : ¬ 64 ≤ (s.dev.chain.relays.filter fun x => x.target = c).length) :
    Completes (.relay r c inner) s fun d => Msg.mgmt c (.relayed s.dev.relayTag inner) ∈ d.outbox ∧
      d.chain.relays = s.dev.chain.relays ++ [⟨r, c, s.dev.relayTag, some (innerType inner)⟩] ∧ s.dev.counted d F.CHAIN_CNT_RX 0 1 ∧
      s.dev.wrote d [.CHAIN_CNT] := by
  have act : relayAct r c inner s.dev = relayOut r c inner s.dev := by
    rw [relayAct, framed_true _ (by rw [single]; rfl), relayTo_new fresh new, if_neg room]
  have confined := confined_relayOut r c inner s.dev
  refine completes_rests (a := relayAct r c inner) rfl hs h act confined (by decide) (by decide) (by decide) (by decide)
    ⟨sent_of_mem (by simp [relayOut]) _, ?_, ?_, confined.wrote _ (by decide)⟩
  · simp only [relayOut, applyAll_cons, applyAll_nil]
    rw [keep_chain (Upd.send _) _ (by simp), chain_apply_chain, keep_chain (addF ..) _ (by simp [addF])]
  · simp (disch := exact of_decide_eq_true rfl) only [Dev.counted, relayOut, applyAll_cons, applyAll_nil, fld_apply_spared, fld_addF]

theorem completes_relayResponse_none {c : Coord} {tag : BitVec 10} {status reason : BitVec 8} {data : List Byte}
    (none_ : s.dev.chain.relays.find? (fun x => x.target = c && x.tag = tag) = none) :
    Completes (.relayResponseReceive c tag status reason data) s fun d => s.dev.wrote d [] ∧ d.chain = s.dev.chain := by
  refine completes_same (a := relayResponseReceiveAct c tag status reason data) rfl hs h ?_ ⟨wrote_refl _, rfl⟩
  unfold relayResponseReceiveAct
  rw [none_]

theorem completes_relayResponse {c : Coord} {tag : BitVec 10} {status reason : BitVec 8} {data : List Byte} {x : RelayOut}
    (found : s.dev.chain.relays.find? (fun x => x.target = c && x.tag = tag) = some x) :
    let a := relayAnswer x status reason data
    Completes (.relayResponseReceive c tag status reason data) s fun d => Msg.resp x.req a.status a.reason a.data ∈ d.outbox ∧
      d.cached x.req = some ⟨x.req.path, x.req.src, x.req.tag, a.status, a.reason, a.data⟩ ∧
      (∀ y ∈ d.chain.relays, ¬ (y.target = c ∧ y.tag = tag)) ∧ s.dev.wrote d [] := by
  intro a
  have act : relayResponseReceiveAct c tag status reason data s.dev = relayBack c tag x.req a := by
    unfold relayResponseReceiveAct
    rw [found]
    rfl
  have confined := confined_relayBack c tag x.req a
  refine completes_rests (a := relayResponseReceiveAct c tag status reason data) rfl hs h act confined (by decide) (by decide) (by decide) (by decide)
    ⟨sent_of_mem (by simp [relayBack, respond]) _, ?_, fun y hy => ?_, confined.wrote _ (by decide)⟩
  · simp only [relayBack, respond, applyAll_append, applyAll_cons, applyAll_nil, Dev.cached, chain_apply_chain]
    exact find_keepResponse x.req a _
  · have kept : y ∈ s.dev.chain.relays.filter fun y => !(y.target = c && y.tag = tag) := hy
    have other := (List.mem_filter.1 kept).2
    simpa only [Bool.not_eq_true', Bool.and_eq_false_iff, decide_eq_false_iff_not, ← not_and_or] using other

omit h in
theorem completes_relayed_read {c : Coord} {tag : BitVec 10} {adr : Nat} : Completes (.relayedRequestReceive c tag (.regRd adr)) s fun d =>
    s.dev.answered d (relayedReq c tag) (readReg .mgmt adr s.dev).1 ∧ sameMemory s.dev d := by
  have reads : (readReg .mgmt adr s.dev).2 = noAct := by
    unfold readReg
    split <;> rfl
  have confined : Confined [] [] ((readReg .mgmt adr s.dev).2 s.dev) := by
    rw [reads]
    exact confined_nil
  refine completes_again (f := readReg .mgmt adr) (act := (readReg .mgmt adr s.dev).2) rfl hs rfl confined (by decide) (by decide)
    fun d q answer => ⟨answer, ?_⟩
  exact ((confined_handled (relayedReq c tag) _ confined).memory (by decide) s.dev).trans q.quiet.memory

omit hs h in
/-- A relayed request runs as the command that it stands for. -/
theorem exec_relayed {c : Coord} {tag : BitVec 10} {inner : InnerReq} {i : Instr} (same : relayedAs (relayedReq c tag) inner = some i) :
    exec (.relayedRequestReceive c tag inner) s = exec i s := by
  cases inner with
  | regRd adr => cases same
  | regWr | memRd | memWr | install | ltol =>
    cases same
    rfl
  | cmd k => cases k <;> cases same <;> rfl

omit hs h in
theorem completes_relayed {c : Coord} {tag : BitVec 10} {inner : InnerReq} {i : Instr} (same : relayedAs (relayedReq c tag) inner = some i) :
    Completes (.relayedRequestReceive c tag inner) s fun d => exec i s = .next ⟨s.pending, d⟩ := by
  obtain ⟨a, he⟩ := exec_perform (.relayedRequestReceive c tag inner) s
  exact ⟨_, he.trans (perform_eq _ _), rfl, (exec_relayed same).symm.trans (he.trans (perform_eq _ _))⟩

end relay

/-! ### The links of the chain (R553, R565) -/

/-- The state of a port of the chain. -/
def chainPort (out : Bool) : Fld := if out then F.CHAIN_STATUS_OUT_STATE else F.CHAIN_STATUS_IN_STATE

/-- The fault of a dead port of the chain. -/
def chainDead (out : Bool) : Fld := if out then F.CHAIN_ERR_OUT_DEAD else F.CHAIN_ERR_IN_DEAD

theorem fld_chainPort (d : Dev) (out : Bool) {v : Nat} (hv : v < 4) : ((setF (chainPort out) 0 v).apply d).fld (chainPort out) = v := by
  rw [fld_setF]
  cases out <;> exact Nat.mod_eq_of_lt hv

theorem confined_chainPort (out : Bool) (v : Nat) : Confined [.regs] [.CHAIN_STATUS] [setF (chainPort out) 0 v] := by
  cases out <;> exact (confined_cons ..).2 ⟨rfl, confined_nil⟩

theorem chainLinkDeath_eq (out : Bool) (d : Dev) : chainLinkDeathAct out d =
    if d.fld (chainPort out) = 0 || d.fld (chainPort out) = csDead then [] else [setF (chainPort out) 0 csDead] ++ flagChain (chainDead out) := rfl

theorem chainLinkUp_eq (out : Bool) (d : Dev) : chainLinkUpAct out d =
    if d.fld (chainPort out) = csUp || d.mode = stOff then []
    else inSequence [fun _ => [setF (chainPort out) 0 csUp], onlyIf (!out) (inSequence [resendEvents, runDma])] d := rfl

/-- The first held event leaves where the chain is up and nothing is outstanding. -/
theorem resendEvents_first {d : Dev} {e : Event} {es : List Event} (up : d.chained = true) (events : d.chain.events = e :: es)
    (none_ : d.chain.out = []) (later : 0 < e.seq) : ∃ t, Msg.event t e.kind e.seq e.gcnt e.body ∈ (runAct resendEvents d).outbox := by
  have before : e.seq - 1 < e.seq := by bv_omega
  have run : runAct resendEvents d = ({ d with chain := { d.chain with evSent := e.seq - 1 } } : Dev).sendEvents (es.length + 1) := by
    rw [runAct_eq, resendEvents, events]
    change Dev.sendEvents _ (d.chain.events.length) = _
    rw [events]
    rfl
  rw [run]
  generalize ready : ({ d with chain := { d.chain with evSent := e.seq - 1 } } : Dev) = a
  have chain : a.chain = { d.chain with evSent := e.seq - 1 } := by rw [← ready]
  have up' : a.chained = true := by rw [← ready]; exact up
  have next : (a.chain.events.find? fun e => a.chain.evSent < e.seq && !(a.chain.out.any fun o => o.body = .event e.seq)) = some e := by
    rw [chain, events, List.find?_cons_of_pos]
    simp only [none_, List.any_nil, Bool.not_false, Bool.and_true, decide_eq_true_eq]
    exact before
  have room : ¬ (!a.chained || decide (64 ≤ a.chain.out.length)) = true := by
    rw [up', chain, none_]
    decide
  refine ⟨({ a with chain := { a.chain with evSent := e.seq } } : Dev).freeTag, ?_⟩
  unfold Dev.sendEvents
  rw [next]
  dsimp only
  rw [if_neg room]
  exact (quiet_sendEvents _ _).sent.subset (List.mem_append_right _ (List.mem_singleton_self _))

section links
variable {s : State} (hs : s.dev.steady) (h : s.dev.Settled) {out : Bool}
include hs h

theorem completes_chainDeath_none (down : s.dev.fld (chainPort out) = 0 ∨ s.dev.fld (chainPort out) = 3) :
    Completes (.chainLinkDeath out) s fun d => s.dev.wrote d [] ∧ d.chain = s.dev.chain :=
  completes_same (a := chainLinkDeathAct out) rfl hs h (by rw [chainLinkDeath_eq, if_pos (by simp only [Bool.or_eq_true, decide_eq_true_eq]; exact down)]) ⟨wrote_refl _, rfl⟩

theorem completes_chainDeath (here : s.dev.fld (chainPort out) ≠ 0) (live : s.dev.fld (chainPort out) ≠ 3) :
    Completes (.chainLinkDeath out) s fun d => d.fld (chainPort out) = 3 ∧ d.fld (chainDead out) = 1 ∧ s.dev.wrote d [.CHAIN_STATUS] := by
  have act : chainLinkDeathAct out s.dev = [setF (chainPort out) 0 csDead] ++ flagChain (chainDead out) := by
    rw [chainLinkDeath_eq, if_neg (by simp only [Bool.or_eq_true, decide_eq_true_eq, not_or]; exact ⟨here, live⟩)]
  have flag : Confined [.regs] [.CHAIN_ERR] (flagChain (chainDead out)) := confined_flagChain (by cases out <;> rfl)
  have confined : Confined [.regs, .chain, .outbox] [.CHAIN_STATUS, .CHAIN_ERR] ([setF (chainPort out) 0 csDead] ++ flagChain (chainDead out)) := by
    rw [confined_append]
    exact ⟨(confined_chainPort _ _).mono (by decide) (by decide), flag.mono (by decide) (by decide)⟩
  refine completes_rests rfl hs h act confined (by decide) (by decide) (by decide) (by decide) ⟨?_, ?_, confined.wrote _ (by decide)⟩
  · rw [applyAll_append, flag.fld _ (by cases out <;> decide), applyAll_cons, applyAll_nil, fld_chainPort _ _ (by decide), csDead]
  · rw [applyAll_append]
    exact (flagChain_reads _ (by cases out <;> decide) (by cases out <;> decide)).1

theorem completes_chainUp_none (up : s.dev.fld (chainPort out) = 2 ∨ s.dev.mode = stOff) :
    Completes (.chainLinkUp out) s fun d => s.dev.wrote d [] ∧ d.chain = s.dev.chain :=
  completes_same (a := chainLinkUpAct out) rfl hs h (by rw [chainLinkUp_eq, if_pos (by simp only [Bool.or_eq_true, decide_eq_true_eq]; exact up)]) ⟨wrote_refl _, rfl⟩

theorem completes_chainUp (down : s.dev.fld (chainPort out) ≠ 2) (on : s.dev.mode ≠ stOff) (idle : s.dev.chain.dma = []) :
    Completes (.chainLinkUp out) s fun d => d.fld (chainPort out) = 2 ∧ s.dev.wrote d [.CHAIN_STATUS] ∧
      ∀ e es, out = false → s.dev.bit F.CHAIN_ADDR_VALID = true → s.dev.chain.events = e :: es → s.dev.chain.out = [] → 0 < e.seq →
        ∃ t, Msg.event t e.kind e.seq e.gcnt e.body ∈ d.outbox := by
  generalize up : (setF (chainPort out) 0 csUp).apply s.dev = a
  have chain : a.chain = s.dev.chain := by rw [← up]; exact keep_chain _ _ (by simp [setF])
  have idle' : (runAct resendEvents a).chain.dma = [] := by rw [dma_of_raised (raised_resendEvents a), chain, idle]
  have act : chainLinkUpAct out s.dev = [setF (chainPort out) 0 csUp] ++ onlyIf (!out) resendEvents a := by
    rw [chainLinkUp_eq, if_neg (by simp only [Bool.or_eq_true, decide_eq_true_eq, not_or]; exact ⟨down, on⟩), inSequence, inSequence_one,
      applyAll_cons, applyAll_nil, up, onlyIf, onlyIf, inSequence, ← runAct_eq, inSequence_skip (runDma_none idle')]
    simp [inSequence]
  have tail : Confined [.regs, .chain, .outbox] [] (onlyIf (!out) resendEvents a) := confines_resendEvents.onlyIf a
  have confined : Confined [.regs, .chain, .outbox] [.CHAIN_STATUS] ([setF (chainPort out) 0 csUp] ++ onlyIf (!out) resendEvents a) := by
    rw [confined_append]
    exact ⟨(confined_chainPort _ _).mono (by decide) (by decide), tail.mono (by decide) (by decide)⟩
  refine completes_rests rfl hs h act confined (by decide) (by decide) (by decide) (by decide) ⟨?_, confined.wrote _ (by decide),
    fun e es inward valid events none_ later => ?_⟩
  · rw [applyAll_append, tail.fld _ List.not_mem_nil, applyAll_cons, applyAll_nil, fld_chainPort _ _ (by decide), csUp]
  · subst inward
    have chained : a.chained = true := by
      have addr : a.bit F.CHAIN_ADDR_VALID = true := by
        rw [Dev.bit, ← up, fld_apply_spared (of_decide_eq_true rfl)]
        exact valid
      have port : a.fld F.CHAIN_STATUS_IN_STATE = 2 := by
        rw [← up]
        exact fld_chainPort s.dev false (by decide)
      rw [Dev.chained, addr, port]
      rfl
    rw [applyAll_append, applyAll_cons, applyAll_nil, up]
    exact resendEvents_first chained (by rw [chain, events]) (by rw [chain, none_]) later

end links

/-- Settles O54: requests of the chain, each by the act that its command runs. -/
theorem chainResponsesReturn : Obligations.ChainResponsesReturn := by
  intro s r tag status reason data seq next out c inner hs h none_ malformed held back n max_ port
  refine ⟨fun idle => ⟨completes_eventAck_unknown hs h idle, completes_eventAck_held hs h idle⟩, completes_enumBack hs h,
    completes_response_none hs h, fun o back own => ⟨fun q body idle => completes_response_event hs h back own body idle, fun x xs first =>
      ⟨fun host a k => completes_response_read hs h back own first, fun host a k => completes_response_written hs h back own first,
        fun host a k => completes_response_failed hs h back own first⟩⟩,
    completes_retry_none hs h, fun o own => ⟨completes_retry_early hs h own, completes_retry_again hs h own, completes_retry_last hs h own⟩,
    completes_enumerate_malformed hs h, completes_enumerate hs h, fun all => ?_, fun fresh single new => ⟨fun full => ?_, fun full => ?_⟩,
    completes_relayResponse_none hs h, fun x found => ?_, fun adr reads => ?_, fun i same => completes_relayed same,
    completes_chainDeath_none hs h, completes_chainDeath hs h, completes_chainUp_none hs h, completes_chainUp hs h⟩
  · exact completes_malformed (a := relayTo r c inner (some (innerType inner))) rfl hs h (by rw [all]; rfl)
  · exact completes_relay_full hs h single fresh new (of_decide_eq_true full)
  · exact completes_relay_sent hs h single fresh new (of_decide_eq_false full)
  · dsimp only
    rw [← relayAnswer_eq]
    exact completes_relayResponse hs h found
  · subst reads
    exact completes_relayed_read hs

end Sys2Proof.Machine
end

