-- ==== Sys2Proof/Proofs/MemoryRequests.lean ====
section
/-! PROOFS. Memory requests, the installation stream and HOST_DMA (R219, R221, R555, R562, R563, R573, R595, R622). -/

namespace Sys2Proof.Machine

/-! ### A request whose act runs behind its count -/

/-- What a deaf list of updates leaves behind a request's count is what it leaves without, but for that count. -/
theorem Settles.served {r : Req} {a : Answer} {us : List Upd} {d e : Dev} (q : Settles (applyAll (handled r a us) d) e)
    (deaf : Each (fun u => u.deaf = true) us) : Quiet (applyAll us d.heard) e ∧ Alike (applyAll us d) (applyAll us d.heard) :=
  ⟨(quiet_handled r a us d).trans q.quiet, alike_applyAll (alike_heard d) deaf⟩

theorem Alike.hbm {d e : Dev} (h : Alike d e) : e.hbm = d.hbm := by
  rw [h.rest]
  rfl

theorem Alike.vault {d e : Dev} (h : Alike d e) : e.vault = d.vault := by
  rw [h.rest]
  rfl

/-! ### MEM_RD and MEM_WR (R562, R595, R622) -/

section memory
variable {s : State} (hs : s.dev.steady) {r : Req} {a n : Nat} (single : r.bcast = false)
include hs single

omit hs in
theorem exec_memRd (low : 1 ≤ n) (high : n ≤ 1024) : exec (.memRd r a n) s = perform (onPower (serveAgain r (readMem a n))) s := by
  change perform (onPower (framed (decide (1 ≤ n) && decide (n ≤ 1024) && !r.bcast) _)) s = _
  rw [framed_true _ (by simp [low, high, single])]

variable (low : 1 ≤ n) (high : n ≤ 1024)
include low high

theorem completes_memRd_quiet {x : Answer} (reads : readMem a n s.dev = (x, noAct)) :
    Completes (.memRd r a n) s fun d => s.dev.answered d r x ∧ s.dev.wrote d [.CHAIN_CNT] :=
  completes_again (exec_memRd single low high) hs reads (confined_nil (ps := []) (rs := [])) (by decide) (by decide) fun _ q answer =>
    ⟨answer, q.quiet.wrote ((confined_handled r x (confined_nil (ps := []) (rs := []))).wrote _ (by decide))⟩

theorem completes_memRd_far (far : hbmSize < a + n) :
    Completes (.memRd r a n) s fun d => s.dev.answered d r (addressError 7) ∧ s.dev.wrote d [.CHAIN_CNT] :=
  completes_memRd_quiet hs single low high (by rw [readMem, if_pos far, refuse])

theorem completes_memRd_locked (near : a + n ≤ hbmSize) (locked : s.dev.weightLocked a n = true) :
    Completes (.memRd r a n) s fun d => s.dev.answered d r (addressError 5) ∧ d.fld F.SEC_ERR_WEIGHT_READ = 1 ∧
      s.dev.wrote d [.CHAIN_CNT, .SEC_ERR] := by
  have flag := confined_flagSec (bit := F.SEC_ERR_WEIGHT_READ) rfl
  refine completes_again (act := fun _ => flagSec F.SEC_ERR_WEIGHT_READ) (exec_memRd single low high) hs
    (by rw [readMem, if_neg (Nat.not_lt.2 near), if_pos locked]) flag (by decide) (by decide) fun d q answer => ⟨answer, ?_, ?_⟩
  · rw [((quiet_handled r _ _ s.dev).trans q.quiet).fld rfl]
    exact (fld_flagFault s.dev.heard 0 rfl (by decide)).1
  · exact q.quiet.wrote (((confined_handled r _ flag).mono (by decide) fun _ m => m).wrote _ (by decide))

theorem completes_memRd_data (near : a + n ≤ hbmSize) (free : s.dev.weightLocked a n = false) :
    Completes (.memRd r a n) s fun d => s.dev.answered d r (answerData (s.dev.readOut a n)) ∧ s.dev.wrote d [.CHAIN_CNT] :=
  completes_memRd_quiet hs single low high (by
    rw [readMem, if_neg (Nat.not_lt.2 near), if_neg (Bool.eq_false_iff.1 free)])

end memory

section write
variable {s : State} (hs : s.dev.steady) {r : Req} {a : Nat} {bs : List Byte} (single : r.bcast = false) (low : 1 ≤ bs.length)
  (high : bs.length ≤ 1024) (fresh : s.dev.fresh r)
include hs single low high fresh

omit hs fresh in
theorem exec_memWr : exec (.memWr r a bs) s = perform (onPower (serve r (memBusy (writeMem a bs)))) s := by
  change perform (onPower (framed (decide (1 ≤ bs.length) && decide (bs.length ≤ 1024) && !r.bcast) _)) s = _
  rw [framed_true _ (by simp [low, high, single])]

theorem completes_memWr_asleep (asleep : 3 ≤ s.dev.fld F.PWR_STATUS_STATE) : Completes (.memWr r a bs) s fun d =>
    s.dev.answered d r answerBusy ∧ d.hbm = s.dev.hbm ∧ d.fld F.PWR_STATUS_STATE = 0 := by
  refine (completes_busy (exec_memWr single low high) hs fresh (by rw [memBusy, if_pos asleep]) (by omega)).imp
    fun d ⟨answer, woken, wrote⟩ => ⟨answer, ?_, woken⟩
  have same := congrArg Dev.hbm wrote.2.1
  exact same

variable (awake : ¬ 3 ≤ s.dev.fld F.PWR_STATUS_STATE)
include awake

theorem completes_memWr_far (far : hbmSize < a + bs.length) :
    Completes (.memWr r a bs) s fun d => s.dev.answered d r (addressError 7) ∧ s.dev.wrote d [.CHAIN_CNT] :=
  completes_refused (exec_memWr single low high) hs fresh (by rw [memBusy, if_neg awake, writeMem, if_pos far, refuse])

theorem completes_memWr_held (near : a + bs.length ≤ hbmSize) (held : s.dev.committedLive a bs.length = true) :
    Completes (.memWr r a bs) s fun d => s.dev.answered d r (addressError 5) ∧ s.dev.wrote d [.CHAIN_CNT] :=
  completes_refused (exec_memWr single low high) hs fresh
    (by rw [memBusy, if_neg awake, writeMem, if_neg (Nat.not_lt.2 near), if_pos held, refuse])

theorem completes_memWr_data (near : a + bs.length ≤ hbmSize) (free : s.dev.committedLive a bs.length = false) (sound : s.dev.hbmBad = []) :
    Completes (.memWr r a bs) s fun d => s.dev.answered d r answerOk ∧ regsBut [.CHAIN_CNT] s.dev d ∧
      (∀ j, j < bs.length → memByte d.hbm (a + j) = bs.getD j 0) ∧
      (∀ j, j < a ∨ a + bs.length ≤ j → memByte d.hbm j = memByte s.dev.hbm j) ∧ d.spm = s.dev.spm := by
  have confined := confines_writeHbm a bs false s.dev
  have handled_ := confined_handled r answerOk confined
  refine completes_request (act := writeHbm a bs false) (exec_memWr single low high) hs fresh
    (by rw [memBusy, if_neg awake, writeMem, if_neg (Nat.not_lt.2 near), if_neg (Bool.eq_false_iff.1 free)]) confined
    (by decide) (by decide) fun d q answer => ?_
  obtain ⟨quiet, alike⟩ := q.served (confined.deaf (by decide) (by decide) (by decide) (by decide) (by decide))
  have hbm : d.hbm = (runAct (writeHbm a bs false) s.dev).hbm := by
    rw [quiet.hbm, alike.hbm, runAct_eq]
  refine ⟨answer, q.quiet.regsBut (handled_.regsBut _ (by decide)), fun j hj => ?_, fun j hj => ?_, ?_⟩
  · rw [hbm]
    exact memByte_writeHbm_same sound near false hj
  · rw [hbm]
    exact memByte_writeHbm_other _ _ _ _ hj
  · rw [q.quiet.spm]
    exact keepAll_spm _ (handled_.leaves (by decide))

end write

/-! ### The blocks of a parity group (R215, R221) -/

/-- The data that a map of vault blocks gives one of them. -/
def dataOf (m : SMap VaultBlock) (b : Nat) : List Byte := (mapGet (fun _ => VaultBlock.init) m b).data

/-- A block remapped with its contents (R219). -/
def remapBlock (m : SMap VaultBlock) (b : Nat) : SMap VaultBlock :=
  mapSet (fun _ => VaultBlock.init) b { mapGet (fun _ => VaultBlock.init) m b with writes := 0 } m

/-- A block written anew. -/
def putBlock (m : SMap VaultBlock) (e : Nat × List Byte) : SMap VaultBlock :=
  mapSet (fun _ => VaultBlock.init) e.1 { data := e.2, writes := (mapGet (fun _ => VaultBlock.init) m e.1).writes + 1 } m

theorem dataOf_remapBlock (m : SMap VaultBlock) (b j : Nat) : dataOf (remapBlock m b) j = dataOf m j := by
  rw [dataOf, remapBlock, mapGet_mapSet]
  split
  · subst_vars
    rfl
  · rfl

theorem dataOf_remapBlocks (bs : List Nat) (m : SMap VaultBlock) (j : Nat) : dataOf (bs.foldl remapBlock m) j = dataOf m j := by
  induction bs generalizing m with
  | nil => rfl
  | cons b bs ih => rw [List.foldl_cons, ih, dataOf_remapBlock]

theorem dataOf_putBlock (m : SMap VaultBlock) (e : Nat × List Byte) (j : Nat) : dataOf (putBlock m e) j = if j = e.1 then e.2 else dataOf m j := by
  rw [dataOf, putBlock, mapGet_mapSet]
  split <;> rfl

/-- A block that is not among those written keeps its data. -/
theorem dataOf_puts_other {es : List (Nat × List Byte)} {j : Nat} (h : ∀ e ∈ es, e.1 ≠ j) (m : SMap VaultBlock) : dataOf (es.foldl putBlock m) j = dataOf m j := by
  induction es generalizing m with
  | nil => rfl
  | cons e es ih =>
    rw [List.foldl_cons, ih fun x hx => h x (List.mem_cons_of_mem _ hx), dataOf_putBlock, if_neg fun same => h e (List.mem_cons_self ..) same.symm]

/-- A block written once holds what was written. -/
theorem dataOf_puts_mem {es : List (Nat × List Byte)} (once : (es.map Prod.fst).Nodup) {e : Nat × List Byte} (he : e ∈ es) (m : SMap VaultBlock) :
    dataOf (es.foldl putBlock m) e.1 = e.2 := by
  induction es generalizing m with
  | nil => exact absurd he List.not_mem_nil
  | cons x xs ih =>
    rw [List.map_cons, List.nodup_cons] at once
    rcases List.mem_cons.1 he with rfl | he
    · rw [List.foldl_cons, dataOf_puts_other (fun y hy same => once.1 (List.mem_map.2 ⟨y, hy, same⟩)), dataOf_putBlock, if_pos rfl]
    · exact ih once.2 he _

/-- Block `i` of the bytes of a group. -/
def groupBlock (bs : List Byte) (i : Nat) : List Byte := padTo vaultBlockBytes (bs.drop (vaultBlockBytes * i))

/-- The parity of the bytes of a group. -/
def groupParity (bs : List Byte) : List Byte := ((List.range 8).map (groupBlock bs)).foldl xorBytes (List.replicate vaultBlockBytes 0)

/-- The blocks that a group writes. -/
def groupPuts (g : Nat) (bs : List Byte) : List (Nat × List Byte) :=
  (List.range 8).map (fun i => (8 * g + i, groupBlock bs i)) ++ [(parityBlock g, groupParity bs)]

theorem nodup_groupPuts {g : Nat} (low : g < 4194304) (bs : List Byte) : ((groupPuts g bs).map Prod.fst).Nodup := by
  have keys : (groupPuts g bs).map Prod.fst = (List.range 8).map (fun i => 8 * g + i) ++ [parityBlock g] := by
    rw [groupPuts, List.map_append, List.map_map]
    rfl
  rw [keys, List.nodup_append]
  refine ⟨List.Nodup.map (fun i j same => Nat.add_left_cancel same) List.nodup_range, List.nodup_singleton _, fun x hx y hy => ?_⟩
  obtain ⟨i, hi, rfl⟩ := List.mem_map.1 hx
  rw [List.mem_singleton.1 hy, parityBlock]
  have := List.mem_range.1 hi
  omega

theorem writeGroup_eq {g : Nat} (low : g < 4194304) (bs : List Byte) (d : Dev) : writeGroup g bs d = [.vault fun v => { v with
    bad := v.bad.filter fun b => groupOf b ≠ g && b ≠ parityBlock g, blocks := (groupPuts g bs).foldl putBlock v.blocks }] := by
  have zipped : ((List.range 8).zip ((List.range 8).map (groupBlock bs))).map (fun e => (8 * g + e.1, e.2)) =
      (List.range 8).map fun i => (8 * g + i, groupBlock bs i) := by
    rw [← List.map_prod_left_eq_zip, List.map_map]
    rfl
  unfold writeGroup
  rw [if_neg (Nat.not_le.2 low), groupPuts, ← zipped]
  rfl

/-- What a group leaves of the blocks: its own are written, the others stand. -/
theorem writeGroup_reads {g : Nat} (low : g < 4194304) (bs : List Byte) (d : Dev) :
    (∀ i, i < 8 → ((runAct (writeGroup g bs) d).vblock (8 * g + i)).data = groupBlock bs i) ∧
    ((runAct (writeGroup g bs) d).vblock (parityBlock g)).data = groupParity bs ∧
    (∀ j, groupOf j ≠ g → j ≠ parityBlock g → ((runAct (writeGroup g bs) d).vblock j).data = (d.vblock j).data) ∧
    (runAct (writeGroup g bs) d).vault.staged = d.vault.staged ∧ (runAct (writeGroup g bs) d).vault.nextUnit = d.vault.nextUnit := by
  rw [runAct_eq, writeGroup_eq low]
  have once := nodup_groupPuts low bs
  have read (es : List (Nat × List Byte)) (j : Nat) : ((applyAll [.vault fun v => { v with
      bad := v.bad.filter fun b => groupOf b ≠ g && b ≠ parityBlock g, blocks := es.foldl putBlock v.blocks }] d).vblock j).data =
      dataOf (es.foldl putBlock d.vault.blocks) j := rfl
  simp only [read]
  refine ⟨fun i hi => ?_, ?_, fun j other parity => ?_, rfl, rfl⟩
  · exact dataOf_puts_mem once (e := (8 * g + i, groupBlock bs i))
      (List.mem_append_left _ (List.mem_map.2 ⟨i, List.mem_range.2 hi, rfl⟩)) d.vault.blocks
  · exact dataOf_puts_mem once (e := (parityBlock g, groupParity bs)) (List.mem_append_right _ (List.mem_singleton_self _)) d.vault.blocks
  · refine dataOf_puts_other (fun e he same => ?_) d.vault.blocks
    rcases List.mem_append.1 he with he | he
    · obtain ⟨i, hi, rfl⟩ := List.mem_map.1 he
      have := List.mem_range.1 hi
      refine other ?_
      rw [← same, groupOf]
      dsimp only
      omega
    · rw [List.mem_singleton.1 he] at same
      exact parity same.symm

/-! ### The installation stream (R219, R221, R573) -/

theorem remapSuspects_reads (d : Dev) : (runAct remapSuspects d).vault.staged = d.vault.staged ∧
    (runAct remapSuspects d).vault.nextUnit = d.vault.nextUnit ∧ ∀ j, ((runAct remapSuspects d).vblock j).data = (d.vblock j).data := by
  rw [runAct_eq]
  unfold remapSuspects
  dsimp only
  split
  · exact ⟨rfl, rfl, fun _ => rfl⟩
  · exact ⟨rfl, rfl, fun j => dataOf_remapBlocks _ d.vault.blocks j⟩

/-- A unit of a stream is taken: the next one is expected, and these bytes are staged. -/
def stageUnit (k next : Nat) (bs : List Byte) : List Upd :=
  [.vault fun v => { v with nextUnit := mapSet (fun _ => 0) k next v.nextUnit, staged := mapSet (fun _ => []) k bs v.staged }]

/-- The bytes staged of a stream with a unit more. -/
def Dev.stagedWith (d : Dev) (k : Nat) (data : List Byte) : List Byte := mapGet (fun _ => []) d.vault.staged k ++ data

/-- The unit that a stream expects (R573). -/
def Dev.nextUnit (d : Dev) (k : Nat) : Nat := mapGet (fun _ => 0) d.vault.nextUnit k

/-- Whether a unit more makes a group of the body whole. -/
def Dev.groupWhole (d : Dev) (slotB manifest : Bool) (data : List Byte) : Bool :=
  !manifest && groupBytes ≤ (d.stagedWith (streamIx slotB manifest) data).length

/-- The group that the next unit of a slot's body ends in. -/
def Dev.groupOfUnit (d : Dev) (slotB manifest : Bool) : Nat :=
  d.fld F.VAULT_SLOT_BASE (if slotB then 1 else 0) + ((d.nextUnit (streamIx slotB manifest) + 1024) / groupBytes - 1)

/-- The steps by which a unit is taken. -/
def unitSteps (slotB manifest : Bool) (data : List Byte) (d : Dev) : List Act :=
  let k := streamIx slotB manifest
  let full := d.groupWhole slotB manifest data
  [remapSuspects, fun _ => stageUnit k (d.nextUnit k + 1024) (if full then [] else d.stagedWith k data),
    onlyIf full (writeGroup (d.groupOfUnit slotB manifest) (d.stagedWith k data)), onlyIf full wear]

theorem takeUnit_eq (slotB manifest : Bool) (data : List Byte) (d : Dev) : takeUnit slotB manifest data d = inSequence (unitSteps slotB manifest data d) d := rfl

theorem confines_wear : Confines [.regs] [.VAULT_WEAR] wear := fun d => by
  simp only [wear, confined_cons, confined_nil, and_true]
  exact ⟨rfl, rfl⟩

theorem confines_writeGroup (g : Nat) (bs : List Byte) : Confines [.regs, .vault] [.VAULT_WEAR] (writeGroup g bs) := fun d => by
  simp only [writeGroup, confined_ite, confined_nil, confined_cons, and_true, implies_true, true_and]
  exact fun _ => rfl

theorem confines_remapSuspects : Confines [.regs, .vault] [.VAULT_WEAR] remapSuspects := fun d => by
  simp only [remapSuspects, confined_ite, confined_nil, confined_cons, and_true, implies_true, true_and]
  exact fun _ => rfl

theorem confined_takeUnit (slotB manifest : Bool) (data : List Byte) (d : Dev) :
    Confined [.regs, .vault] [.VAULT_WEAR] (takeUnit slotB manifest data d) := by
  rw [takeUnit_eq]
  exact confines_inSequence_cons confines_remapSuspects (confines_inSequence_cons (fun _ => (confined_cons ..).2 ⟨rfl, confined_nil⟩)
    (confines_inSequence_cons (confines_writeGroup _ _).onlyIf (confines_inSequence_cons (as := []) (confines_wear.mono (by decide) (by decide)).onlyIf Confines.nil))) d

theorem vault_wear (d : Dev) : (applyAll (wear d) d).vault = d.vault := keepAll_vault d ((confines_wear d).leaves (by decide))

theorem nextUnit_writeGroup (g : Nat) (bs : List Byte) (d : Dev) : (runAct (writeGroup g bs) d).vault.nextUnit = d.vault.nextUnit := by
  rw [runAct_eq, writeGroup]
  split <;> rfl

/-- What a unit leaves of the vault. -/
theorem takeUnit_reads (slotB manifest : Bool) (data : List Byte) (d : Dev) :
    let k := streamIx slotB manifest
    let e := runAct (takeUnit slotB manifest data) d
    e.nextUnit k = d.nextUnit k + 1024 ∧
    (d.groupWhole slotB manifest data = false → mapGet (fun _ => []) e.vault.staged k = d.stagedWith k data ∧
      ∀ j, (e.vblock j).data = (d.vblock j).data) ∧
    (d.groupWhole slotB manifest data = true → d.groupOfUnit slotB manifest < 4194304 → mapGet (fun _ => []) e.vault.staged k = [] ∧
      (∀ i, i < 8 → (e.vblock (8 * d.groupOfUnit slotB manifest + i)).data = groupBlock (d.stagedWith k data) i) ∧
      (e.vblock (parityBlock (d.groupOfUnit slotB manifest))).data = groupParity (d.stagedWith k data) ∧
      ∀ j, groupOf j ≠ d.groupOfUnit slotB manifest → j ≠ parityBlock (d.groupOfUnit slotB manifest) →
        (e.vblock j).data = (d.vblock j).data) := by
  intro k e
  obtain ⟨-, -, data0⟩ := remapSuspects_reads d
  have run : e = runAct (onlyIf (d.groupWhole slotB manifest data) wear) (runAct (onlyIf (d.groupWhole slotB manifest data)
      (writeGroup (d.groupOfUnit slotB manifest) (d.stagedWith k data))) (applyAll (stageUnit k (d.nextUnit k + 1024)
      (if d.groupWhole slotB manifest data then [] else d.stagedWith k data)) (runAct remapSuspects d))) := by
    change runAct (takeUnit slotB manifest data) d = _
    rw [runAct_congr (takeUnit_eq slotB manifest data d), unitSteps]
    simp only [runAct_inSequence_cons, runAct_inSequence_nil, runAct_list]
    rfl
  generalize runAct remapSuspects d = a at data0 run
  have stage (bs : List Byte) : mapGet (fun _ => []) (applyAll (stageUnit k (d.nextUnit k + 1024) bs) a).vault.staged k = bs ∧
      mapGet (fun _ => 0) (applyAll (stageUnit k (d.nextUnit k + 1024) bs) a).vault.nextUnit k = d.nextUnit k + 1024 ∧
      ∀ j, ((applyAll (stageUnit k (d.nextUnit k + 1024) bs) a).vblock j).data = (d.vblock j).data :=
    ⟨mapGet_mapSet_same (fun _ => []) k bs a.vault.staged, mapGet_mapSet_same (fun _ => 0) k (d.nextUnit k + 1024) a.vault.nextUnit, data0⟩
  obtain ⟨staged, next, data1⟩ := stage (if d.groupWhole slotB manifest data then [] else d.stagedWith k data)
  generalize applyAll (stageUnit k (d.nextUnit k + 1024) (if d.groupWhole slotB manifest data then [] else d.stagedWith k data)) a = b
    at run staged next data1
  generalize d.groupOfUnit slotB manifest = g at run ⊢
  generalize d.stagedWith k data = got at run staged ⊢
  cases whole : d.groupWhole slotB manifest data with
  | false =>
    rw [whole] at run staged
    have same : e = b := run
    rw [same]
    exact ⟨next, fun _ => ⟨staged, data1⟩, fun other => absurd other Bool.false_ne_true⟩
  | true =>
    rw [whole] at run staged
    have wears : e.vault = (runAct (writeGroup g got) b).vault := by
      rw [run, runAct_onlyIf_true, runAct_onlyIf_true, runAct_eq wear]
      exact vault_wear _
    have block (j : Nat) : e.vblock j = (runAct (writeGroup g got) b).vblock j := by rw [Dev.vblock, wears, ← Dev.vblock]
    refine ⟨?_, fun other => absurd other.symm Bool.false_ne_true, fun _ low => ?_⟩
    · rw [Dev.nextUnit, wears, nextUnit_writeGroup]
      exact next
    · obtain ⟨own, parity, others, kept, -⟩ := writeGroup_reads low got b
      simp only [block]
      rw [wears, kept]
      exact ⟨staged, own, parity, fun j other apart => (others j other apart).trans (data1 j)⟩


section install
variable {s : State} (hs : s.dev.steady) {r : Req} {w : BitVec 64} {bs : List Byte} (single : r.bcast = false) (whole : bs.length = 1024)
  (fresh : s.dev.fresh r)
include hs single whole fresh

omit hs fresh in
theorem exec_install : exec (.install r w bs) s = perform (onPower (serve r (installPacket w bs))) s := by
  change perform (onPower (framed (!r.bcast && decide (bs.length = 1024)) _)) s = _
  rw [framed_true _ (by simp [single, whole])]

/-- The slot that an installation packet names. -/
def Dev.installSlot (d : Dev) (w : BitVec 64) : Option (BitVec 16) := if bitOf w 63 then d.secure.installB else d.secure.installA

theorem completes_install_closed (closed : s.dev.bit F.VAULT_CTL_INSTALL = false) : Completes (.install r w bs) s fun d =>
    s.dev.answered d r (addressError 5) ∧ d.fld F.VAULT_ERR_WRITE_REFUSED = 1 ∧ s.dev.wrote d [.CHAIN_CNT, .VAULT_ERR] := by
  have flag : Confined [.regs] [.VAULT_ERR] [setF F.VAULT_ERR_WRITE_REFUSED 0 1] := (confined_cons ..).2 ⟨rfl, confined_nil⟩
  refine completes_request (act := fun _ => [setF F.VAULT_ERR_WRITE_REFUSED 0 1]) (exec_install single whole) hs fresh
    (by rw [installPacket, if_pos (by rw [closed]; rfl)]) flag (by decide) (by decide) fun d q answer => ⟨answer, ?_, ?_⟩
  · rw [((quiet_handled r _ _ s.dev).trans q.quiet).fld rfl]
    exact fld_setF_lt _ 0 (by decide)
  · exact q.quiet.wrote (((confined_handled r _ flag).mono (by decide) fun _ m => m).wrote _ (by decide))

variable (opened : s.dev.bit F.VAULT_CTL_INSTALL = true)
include opened

omit hs single whole fresh in
theorem installPacket_open (w : BitVec 64) (bs : List Byte) : installPacket w bs s.dev =
    if (s.dev.installSlot w).isNone then refuse 5
    else if bitsOf w 61 0 % 1024 = 0 && bitsOf w 61 0 < s.dev.nextUnit (streamIx (bitOf w 63) (bitOf w 62)) then (answerOk, noAct)
    else if bitsOf w 61 0 ≠ s.dev.nextUnit (streamIx (bitOf w 63) (bitOf w 62)) then refuse 5
    else (answerOk, takeUnit (bitOf w 63) (bitOf w 62) bs) := by
  rw [installPacket, if_neg (by rw [opened]; decide)]
  rfl

theorem completes_install_unnamed (none_ : s.dev.installSlot w = none) : Completes (.install r w bs) s fun d =>
    s.dev.answered d r (addressError 5) ∧ s.dev.wrote d [.CHAIN_CNT] :=
  completes_refused (exec_install single whole) hs fresh (by rw [installPacket_open opened, none_]; rfl)

variable (named : (s.dev.installSlot w).isSome = true)
include named

omit hs single whole fresh opened in
theorem slot_named : ¬ (s.dev.installSlot w).isNone = true := by
  rw [Option.isNone_iff_eq_none]
  intro none_
  rw [none_] at named
  exact Bool.false_ne_true named

theorem completes_install_again (unit : bitsOf w 61 0 % 1024 = 0) (old : bitsOf w 61 0 < s.dev.nextUnit (streamIx (bitOf w 63) (bitOf w 62))) :
    Completes (.install r w bs) s fun d => s.dev.answered d r answerOk ∧ s.dev.wrote d [.CHAIN_CNT] :=
  completes_refused (exec_install single whole) hs fresh
    (by rw [installPacket_open opened, if_neg (slot_named named), if_pos (by simp [unit, old])])

theorem completes_install_apart
    (new : ¬ (bitsOf w 61 0 % 1024 = 0 ∧ bitsOf w 61 0 < s.dev.nextUnit (streamIx (bitOf w 63) (bitOf w 62))))
    (apart : bitsOf w 61 0 ≠ s.dev.nextUnit (streamIx (bitOf w 63) (bitOf w 62))) :
    Completes (.install r w bs) s fun d => s.dev.answered d r (addressError 5) ∧ s.dev.wrote d [.CHAIN_CNT] :=
  completes_refused (exec_install single whole) hs fresh (by
    rw [installPacket_open opened, if_neg (slot_named named), if_neg (by simpa only [Bool.and_eq_true, decide_eq_true_eq] using new), if_pos apart, refuse])

theorem completes_install_next (next : bitsOf w 61 0 = s.dev.nextUnit (streamIx (bitOf w 63) (bitOf w 62))) :
    let slotB := bitOf w 63
    let manifest := bitOf w 62
    let k := streamIx slotB manifest
    let got := s.dev.stagedWith k bs
    let g := s.dev.groupOfUnit slotB manifest
    Completes (.install r w bs) s fun d => s.dev.answered d r answerOk ∧
      d.nextUnit k = s.dev.nextUnit k + 1024 ∧ regsBut [.CHAIN_CNT, .VAULT_WEAR] s.dev d ∧ d.hbm = s.dev.hbm ∧
      (manifest = true ∨ got.length < groupBytes → mapGet (fun _ => []) d.vault.staged k = got ∧
        ∀ j, (d.vblock j).data = (s.dev.vblock j).data) ∧
      (manifest = false → groupBytes ≤ got.length → g < 4194304 → mapGet (fun _ => []) d.vault.staged k = [] ∧
        (∀ i, i < 8 → (d.vblock (8 * g + i)).data = groupBlock got i) ∧
        (d.vblock (parityBlock g)).data = groupParity got ∧
        ∀ j, groupOf j ≠ g → j ≠ parityBlock g → (d.vblock j).data = (s.dev.vblock j).data) := by
  intro slotB manifest k got g
  have confined := confined_takeUnit slotB manifest bs s.dev
  have handled_ := confined_handled r answerOk confined
  have new : ¬ (decide (bitsOf w 61 0 % 1024 = 0) && decide (bitsOf w 61 0 < s.dev.nextUnit k)) = true := by
    simp only [Bool.and_eq_true, decide_eq_true_eq, not_and, k, slotB, manifest]
    omega
  refine completes_request (act := takeUnit slotB manifest bs) (exec_install single whole) hs fresh
    (by rw [installPacket_open opened, if_neg (slot_named named), if_neg new, if_neg (not_not_intro next)]) confined (by decide) (by decide)
    fun d q answer => ?_
  obtain ⟨quiet, alike⟩ := q.served (confined.deaf (by decide) (by decide) (by decide) (by decide) (by decide))
  have vault : d.vault = (runAct (takeUnit slotB manifest bs) s.dev).vault := by rw [quiet.vault, alike.vault, runAct_eq]
  obtain ⟨expects, part, full⟩ := takeUnit_reads slotB manifest bs s.dev
  have block (j : Nat) : d.vblock j = (runAct (takeUnit slotB manifest bs) s.dev).vblock j := by rw [Dev.vblock, vault, ← Dev.vblock]
  refine ⟨answer, ?_, q.quiet.regsBut (handled_.regsBut _ (by decide)), ?_, fun more => ?_, fun body long low => ?_⟩
  · rw [Dev.nextUnit, vault]
    exact expects
  · rw [q.quiet.hbm]
    exact keepAll_hbm _ (handled_.leaves (by decide))
  · have part := part (by
      rcases more with m | m
      · rw [Dev.groupWhole, m]
        rfl
      · rw [Dev.groupWhole, decide_eq_false (Nat.not_le.2 m), Bool.and_false])
    simp only [vault, block]
    exact part
  · have full := full (by change (!manifest && decide (groupBytes ≤ got.length)) = true; rw [body, decide_eq_true long]; rfl) low
    simp only [vault, block]
    exact full

end install


/-! ### HOST_DMA (R563, R564) -/

theorem chain_heard (d : Dev) : d.heard.chain = d.chain := by
  rw [Dev.heard, applyAll_cons, applyAll_nil]
  exact keep_chain _ d (by simp [addF])

theorem commit_heard (d : Dev) : d.heard.commit = d.commit := by
  rw [Dev.heard, applyAll_cons, applyAll_nil]
  exact keep_commit _ d (by simp [addF])

/-- A response leaves the items, and their records. -/
theorem dma_handled (r : Req) (a : Answer) (us : List Upd) (d : Dev) :
    (applyAll (handled r a us) d).chain.dma = (applyAll us d.heard).chain.dma ∧ (applyAll (handled r a us) d).commit = (applyAll us d.heard).commit := by
  have after (e : Dev) : (applyAll (respond r a) e).chain.dma = e.chain.dma ∧ (applyAll (respond r a) e).commit = e.commit := ⟨rfl, rfl⟩
  rw [applyAll_handled]
  exact after _

theorem endDma_split (x : DmaItem) (status : Nat) (d : Dev) : ∃ rest, endDma x status d = dropDma x ++ rest ∧ Each Upd.pumps rest :=
  ⟨_, by rw [endDma_eq, inSequence], makes_recordDma x status _⟩

/-- A first item whose data may not be moved ends. -/
theorem runDma_bad {d : Dev} {x : DmaItem} {xs : List DmaItem} (first : d.chain.dma = x :: xs) (new : x.asked = 0) (bad : d.dmaBad x = true) :
    ∃ us rest, runDma d = us ++ dropDma x ++ rest ∧ Confined [.regs] [.SEC_ERR] us ∧ Each Upd.pumps rest := by
  have fuel : 64 + d.chain.dma.length = (63 + d.chain.dma.length) + 1 := by omega
  have flag : Confined [.regs] [.SEC_ERR] (onlyIf (x.toHost && d.weightLocked x.hbm x.len) (fun _ => flagSec F.SEC_ERR_WEIGHT_READ) d) :=
    Confines.onlyIf (fun _ => confined_flagSec rfl) d
  generalize marks : onlyIf (x.toHost && d.weightLocked x.hbm x.len) (fun _ => flagSec F.SEC_ERR_WEIGHT_READ) d = us at flag
  obtain ⟨rest, ends, pumps⟩ := endDma_split x 0x10 (applyAll us d)
  have act : runDma d = us ++ (dropDma x ++ rest ++ dmaPump (63 + d.chain.dma.length) (applyAll (dropDma x ++ rest) (applyAll us d))) := by
    unfold runDma
    rw [fuel, dmaPump_succ, first]
    dsimp only
    rw [if_pos (by simp [new, bad]), inSequence, inSequence, inSequence_one, marks, ends]
  exact ⟨us, rest ++ dmaPump (63 + d.chain.dma.length) (applyAll (dropDma x ++ rest) (applyAll us d)), by rw [act]; simp only [List.append_assoc], flag,
    (each_append ..).2 ⟨pumps, makes_dmaPump _ _⟩⟩

/-- The items once the one of a module has ended. -/
theorem dma_dropped {us rest : List Upd} {x : DmaItem} {e : Dev} (only : ∀ y ∈ (applyAll us e).chain.dma, y.item = x.item) (pumps : Each Upd.pumps rest) :
    (applyAll (us ++ dropDma x ++ rest) e).chain.dma = [] := by
  rw [applyAll_append, applyAll_append]
  refine List.eq_nil_iff_forall_not_mem.2 fun y hy => ?_
  obtain ⟨z, hz, -⟩ := (pumped_applyAll pumps _).items y hy
  obtain ⟨old, apart⟩ := List.mem_filter.1 (show z ∈ (applyAll us e).chain.dma.filter fun y => y.item ≠ x.item from hz)
  exact of_decide_eq_true apart (only z old)

/-- What a host DMA request queues beside the item: its record (R455). -/
def noteItem (item : BitVec 32) (pkey : BitVec 12) : Upd :=
  .commit fun c => { c with items := c.items ++ [⟨item.toNat, 3, pkey, none, 0, 0, 0, 0, none⟩] }

/-- The item joins the queue. -/
def queueItem (x : DmaItem) : List Upd := [noteItem x.item x.pkey, .chain fun c => { c with dma := c.dma ++ [x] }]

theorem hostDma_eq (item : BitVec 32) (pkey : BitVec 12) (toHost : Bool) (hbm host len : Nat) (d : Dev) :
    hostDma item pkey toHost hbm host len d =
      if 8 ≤ d.chain.dma.length || 960 ≤ d.chain.events.length then (answerBusy, noAct)
      else if len = 0 then (answerOk, inSequence [fun _ => [noteItem item pkey], endDma ⟨item, pkey, toHost, hbm, host, len, 0, 0⟩ 0])
      else (answerOk, inSequence [fun _ => queueItem ⟨item, pkey, toHost, hbm, host, len, 0, 0⟩, runDma]) := rfl

/-- Whether an item's data may be moved rests on the registers but PWR_STATUS, on the regions, slices, cores and schedules. -/
theorem dmaBad_congr {d e : Dev} (reg : ∀ r i, r ≠ .PWR_STATUS → e.reg r i = d.reg r i) (regions : e.regions = d.regions) (slices : e.slices = d.slices)
    (cores : e.cores = d.cores) (lib : e.schedLib = d.schedLib) (x : DmaItem) : e.dmaBad x = d.dmaBad x := by
  have fld {f : Fld} (hf : f.reg ≠ .PWR_STATUS) (i : Nat) : e.fld f i = d.fld f i := by rw [Dev.fld, reg _ _ hf, ← Dev.fld]
  have bound (k : BitVec 12) : e.boundRings k = d.boundRings k := by
    have same : e.coresOf k = d.coresOf k := by
      unfold Dev.coresOf Dev.corePkey
      rw [cores, lib]
    simp only [Dev.boundRings, same, fld (f := F.RING_CTL_PKEY) (by decide), fld (f := F.RING_STATUS_STATE) (by decide)]
  have locked (a n : Nat) : e.weightLocked a n = d.weightLocked a n := by
    simp only [Dev.weightLocked, Dev.bit, regions, fld (f := F.SEC_CFG_WEIGHT_LOCK) (by decide), fld (f := F.RING_SHARE_BASE) (by decide),
      fld (f := F.RING_SHARE_SIZE) (by decide), fld (f := F.RING_SHADOW_BASE) (by decide), fld (f := F.RING_SHADOW_SIZE) (by decide)]
  have held (a n : Nat) : e.committedLive a n = d.committedLive a n := by
    simp only [Dev.committedLive, Dev.keyLive, regions, slices, bound]
  rw [Dev.dmaBad, locked, held, ← Dev.dmaBad]

theorem readOut_congr {d e : Dev} (hbm : e.hbm = d.hbm) (bad : e.hbmBad = d.hbmBad) (marks : e.hbmMarks = d.hbmMarks)
    (undo : e.commit.undo = d.commit.undo) (a n : Nat) : e.readOut a n = d.readOut a n := by
  simp only [Dev.readOut, Dev.readHbm, hbm, bad, marks, undo]

section dma
variable {s : State} (hs : s.dev.steady) {r : Req} {item : BitVec 32} {key : BitVec 12} {toHost : Bool} {a host n : Nat} (single : r.bcast = false)
  (fresh : s.dev.fresh r)
include hs single fresh

omit hs fresh in
theorem exec_hostDma (timed : Bool) : exec (.hostDma r timed item key toHost a host n) s =
    perform (onPower (serve r (untimed timed (waking (hostDma item key toHost a host n))))) s := by
  change perform (onPower (framed (!r.bcast) _)) s = _
  rw [framed_true _ (by rw [single]; rfl)]

theorem completes_dma_timed : Completes (.hostDma r true item key toHost a host n) s fun d =>
    s.dev.answered d r (addressError 5) ∧ s.dev.wrote d [.CHAIN_CNT] :=
  completes_refused (exec_hostDma single true) hs fresh rfl

omit hs single fresh in
/-- The woken module before its request acts. -/
theorem woken_dma : Confined [.regs, .frozen, .power] [.PWR_STATUS] (wakeUp s.dev) ∧ (applyAll (wakeUp s.dev) s.dev).chain = s.dev.chain :=
  ⟨confined_wakeUp _, keepAll_chain _ ((confined_wakeUp _).leaves (by decide))⟩

/-- A host DMA request that is served, as its act runs behind the wake-up. -/
theorem completes_dma {P : Dev → Prop} {x : Answer} {act : Act} (takes : hostDma item key toHost a host n s.dev = (x, act))
    (confined : Confined dmaParts dmaRegs (act (applyAll (wakeUp s.dev) s.dev)))
    (h : ∀ d, Settles (applyAll (handled r x (wakeUp s.dev ++ act (applyAll (wakeUp s.dev) s.dev))) s.dev) d → s.dev.answered d r x → P d) :
    Completes (.hostDma r false item key toHost a host n) s P := by
  have runs : inSequence [wakeUp, act] s.dev = wakeUp s.dev ++ act (applyAll (wakeUp s.dev) s.dev) := by rw [inSequence, inSequence_one]
  refine completes_request (ps := .frozen :: dmaParts) (rs := .PWR_STATUS :: dmaRegs) (act := inSequence [wakeUp, act]) (exec_hostDma single false) hs fresh
    (by rw [untimed, if_neg Bool.false_ne_true, waking, takes]) ?_ (by decide) (by decide) (by rw [runs]; exact h)
  rw [runs, confined_append]
  exact ⟨(confined_wakeUp _).mono (by decide) (by decide), confined.mono (by decide) (by decide)⟩

theorem completes_dma_busy (full : 8 ≤ s.dev.chain.dma.length ∨ 960 ≤ s.dev.chain.events.length) :
    Completes (.hostDma r false item key toHost a host n) s fun d =>
      s.dev.answered d r answerBusy ∧ d.commit = s.dev.commit ∧ d.chain.dma = s.dev.chain.dma := by
  refine completes_dma hs single fresh (by rw [hostDma_eq, if_pos (by simpa using full)]) confined_nil fun d q answer => ⟨answer, ?_, ?_⟩
  · rw [q.quiet.commit]
    refine keepAll_commit _ (Confined.leaves (ps := [.regs, .chain, .outbox, .regs, .frozen, .power]) (rs := [.CHAIN_CNT, .PWR_STATUS]) (confined_handled r _ ?_) (by decide))
    simp only [noAct, List.append_nil]
    exact confined_wakeUp _
  · rw [dma_of_raised q.raised, (dma_handled ..).1, noAct, List.append_nil, keepAll_chain _ ((confined_wakeUp _).leaves (by decide)), chain_heard]

variable (idle : s.dev.chain.dma = []) (few : s.dev.chain.events.length < 960)
include idle few

omit hs single fresh in
theorem dma_room : ¬ (decide (8 ≤ s.dev.chain.dma.length) || decide (960 ≤ s.dev.chain.events.length)) = true := by
  simp only [idle, List.length_nil, Bool.or_eq_true, decide_eq_true_eq]
  omega

omit hs single fresh few in
theorem heard_idle {us : List Upd} (apart : leaves .chain us) : (applyAll us s.dev.heard).chain.dma = [] := by
  rw [keepAll_chain _ apart, chain_heard, idle]

theorem completes_dma_empty (zero : n = 0) : Completes (.hostDma r false item key toHost a host n) s fun d =>
    s.dev.answered d r answerOk ∧ d.chain.dma = [] := by
  let x : DmaItem := ⟨item, key, toHost, a, host, n, 0, 0⟩
  have note : Confined [.commit] [] [noteItem item key] := (confined_cons ..).2 ⟨rfl, confined_nil⟩
  obtain ⟨rest, ends, pumps⟩ := endDma_split x 0 (applyAll [noteItem item key] (applyAll (wakeUp s.dev) s.dev))
  have acts : inSequence [fun _ => [noteItem item key], endDma x 0] (applyAll (wakeUp s.dev) s.dev) = [noteItem item key] ++ (dropDma x ++ rest) := by
    rw [inSequence, inSequence_one, ends]
  refine completes_dma hs single fresh (act := inSequence [fun _ => [noteItem item key], endDma x 0])
    (by rw [hostDma_eq, if_neg (dma_room idle few), if_pos zero]) ?_ fun d q answer => ⟨answer, ?_⟩
  · exact confines_inSequence_cons (fun _ => note.mono (by decide) (by decide)) (confines_inSequence_cons (as := [])
      (fun d => confined_of_pumps (makes_endDma x 0 d)) Confines.nil) _
  · rw [dma_of_raised q.raised, (dma_handled ..).1, acts, ← List.append_assoc, ← List.append_assoc]
    refine dma_dropped (x := x) (fun y hy => ?_) pumps
    rw [heard_idle idle] at hy
    · exact absurd hy List.not_mem_nil
    · exact Confined.leaves (ps := [.regs, .frozen, .power, .commit]) (rs := [.PWR_STATUS]) ((confined_append ..).2
        ⟨(confined_wakeUp _).mono (by decide) (by decide), note.mono (by decide) (by decide)⟩) (by decide)

variable (some_ : 0 < n)
include some_

omit hs single fresh idle few some_ in
/-- The module with the item queued, before its packets. -/
theorem queued_reads (x : DmaItem) : let e := applyAll (queueItem x) (applyAll (wakeUp s.dev) s.dev)
    e.chain.dma = s.dev.chain.dma ++ [x] ∧ e.dmaBad x = s.dev.dmaBad x ∧ (∀ a n, e.readOut a n = s.dev.readOut a n) ∧ e.chained = s.dev.chained ∧
      e.chain.out = s.dev.chain.out := by
  intro e
  obtain ⟨woken, chain⟩ := woken_dma (s := s)
  have queue : Confined [.commit, .chain] [] (queueItem x) := by
    simp only [queueItem, noteItem, confined_cons, confined_nil, and_true]
    exact ⟨rfl, rfl⟩
  have both : Confined [.regs, .frozen, .power, .commit, .chain] [.PWR_STATUS] (wakeUp s.dev ++ queueItem x) :=
    (confined_append ..).2 ⟨woken.mono (by decide) (by decide), queue.mono (by decide) (by decide)⟩
  have run : e = applyAll (wakeUp s.dev ++ queueItem x) s.dev := (applyAll_append ..).symm
  have queued : e.chain = { s.dev.chain with dma := s.dev.chain.dma ++ [x] } := by
    rw [← chain]
    rfl
  have undo : e.commit.undo = s.dev.commit.undo := by
    have same := congrArg CommitSt.undo (keepAll_commit s.dev (woken.leaves (p := .commit) (by decide)))
    exact same
  refine ⟨by rw [queued], dmaBad_congr (fun r i hr => ?_) ?_ ?_ ?_ ?_ x, fun a n => readOut_congr ?_ ?_ ?_ undo a n, ?_, by rw [queued]⟩
  · rw [run]
    exact both.reg _ (by simpa using hr) i
  all_goals rw [run]
  · exact keepAll_regions _ (both.leaves (by decide))
  · exact keepAll_slices _ (both.leaves (by decide))
  · exact keepAll_cores _ (both.leaves (by decide))
  · exact keepAll_schedLib _ (both.leaves (by decide))
  · exact keepAll_hbm _ (both.leaves (by decide))
  · exact keepAll_hbmBad _ (both.leaves (by decide))
  · exact keepAll_hbmMarks _ (both.leaves (by decide))
  · simp only [Dev.chained, Dev.bit, both.fld s.dev (f := F.CHAIN_ADDR_VALID) (by decide), both.fld s.dev (f := F.CHAIN_STATUS_IN_STATE) (by decide)]

omit hs single fresh few some_ in
theorem queueItem_heard (x : DmaItem) : (applyAll (wakeUp s.dev ++ queueItem x) s.dev.heard).chain.dma = [x] := by
  rw [applyAll_append]
  change (applyAll (wakeUp s.dev) s.dev.heard).chain.dma ++ [x] = [x]
  rw [heard_idle idle ((confined_wakeUp _).leaves (by decide)), List.nil_append]

omit hs single fresh idle few some_ in
theorem confines_queueDma (x : DmaItem) : Confines dmaParts dmaRegs (inSequence [fun _ => queueItem x, runDma]) :=
  confines_inSequence_cons (fun _ => by
    simp only [queueItem, noteItem, confined_cons, confined_nil, and_true]
    exact ⟨rfl, rfl⟩) (confines_inSequence_cons (as := []) confines_runDma Confines.nil)

theorem completes_dma_bad (bad : s.dev.dmaBad ⟨item, key, toHost, a, host, n, 0, 0⟩ = true) :
    Completes (.hostDma r false item key toHost a host n) s fun d => s.dev.answered d r answerOk ∧ d.chain.dma = [] := by
  let x : DmaItem := ⟨item, key, toHost, a, host, n, 0, 0⟩
  obtain ⟨queued, same, -⟩ := queued_reads (s := s) x
  obtain ⟨us, rest, ends, flags, pumps⟩ := runDma_bad (queued.trans (by rw [idle]; rfl)) rfl (same.trans bad)
  have acts : inSequence [fun _ => queueItem x, runDma] (applyAll (wakeUp s.dev) s.dev) = queueItem x ++ (us ++ dropDma x ++ rest) := by
    rw [inSequence, inSequence_one, ends]
  refine completes_dma hs single fresh (act := inSequence [fun _ => queueItem x, runDma])
    (by rw [hostDma_eq, if_neg (dma_room idle few), if_neg (by omega)]) (confines_queueDma x _) fun d q answer => ⟨answer, ?_⟩
  rw [dma_of_raised q.raised, (dma_handled ..).1, acts]
  have split : wakeUp s.dev ++ (queueItem x ++ (us ++ dropDma x ++ rest)) = (wakeUp s.dev ++ queueItem x ++ us) ++ dropDma x ++ rest := by
    simp only [List.append_assoc]
  rw [split]
  refine dma_dropped (x := x) (fun y hy => ?_) pumps
  rw [applyAll_append, keepAll_chain _ (flags.leaves (by decide)), queueItem_heard idle, List.mem_singleton] at hy
  rw [hy]

theorem completes_dma_moves (good : s.dev.dmaBad ⟨item, key, toHost, a, host, n, 0, 0⟩ = false) :
    Completes (.hostDma r false item key toHost a host n) s fun d =>
      s.dev.answered d r answerOk ∧ d.commit.items = s.dev.commit.items ++ [⟨item.toNat, 3, key, none, 0, 0, 0, 0, none⟩] ∧
      (∃ y, d.chain.dma = [y] ∧ y.item = item ∧ y.toHost = toHost ∧ y.len = n ∧ y.moved = 0) ∧ sameMemory s.dev d ∧
      (s.dev.chained = true → s.dev.chain.out.length < 64 → ∃ t, Msg.chainRequest t
        (if toHost then .memWr host a (min 1024 n) else .memRd host a (min 1024 n)) (if toHost then s.dev.readOut a (min 1024 n) else []) ∈ d.outbox) := by
  let x : DmaItem := ⟨item, key, toHost, a, host, n, 0, 0⟩
  obtain ⟨queued, same, reads, chained, out⟩ := queued_reads (s := s) x
  have first := queued.trans (congrArg (· ++ [x]) idle)
  generalize queue : applyAll (queueItem x) (applyAll (wakeUp s.dev) s.dev) = e at same reads chained out first
  have asks := runDma_asking first (.inr (same.trans good))
  have acts : inSequence [fun _ => queueItem x, runDma] (applyAll (wakeUp s.dev) s.dev) = queueItem x ++ runDma e := by
    rw [inSequence, inSequence_one, queue]
  have confined : Confined [.regs, .frozen, .power, .commit, .chain, .outbox] [.PWR_STATUS] (wakeUp s.dev ++ (queueItem x ++ runDma e)) := by
    rw [confined_append, confined_append]
    refine ⟨(confined_wakeUp _).mono (by decide) (by decide), ?_, (confined_asking asks).mono (by decide) (by decide)⟩
    simp only [queueItem, noteItem, confined_cons, confined_nil, and_true]
    exact ⟨rfl, rfl⟩
  refine completes_dma hs single fresh (act := inSequence [fun _ => queueItem x, runDma])
    (by rw [hostDma_eq, if_neg (dma_room idle few), if_neg (by omega)]) (confines_queueDma x _) fun d q answer => ⟨answer, ?_, ?_, ?_, fun up room => ?_⟩
  all_goals rw [acts] at q
  · rw [q.quiet.commit, (dma_handled ..).2, ← List.append_assoc, applyAll_append, keepAll_commit _ ((confined_asking asks).leaves (by decide)), applyAll_append]
    change (applyAll (wakeUp s.dev) s.dev.heard).commit.items ++ _ = _
    rw [keepAll_commit _ ((confined_wakeUp _).leaves (by decide)), commit_heard]
  · have dma : d.chain.dma = (applyAll (runDma e) (applyAll (wakeUp s.dev ++ queueItem x) s.dev.heard)).chain.dma := by
      rw [dma_of_raised q.raised, (dma_handled ..).1, ← List.append_assoc, applyAll_append]
    obtain ⟨k, ys, run, len⟩ := asking_first asks (queueItem_heard idle x)
    obtain rfl := List.eq_nil_of_length_eq_zero len
    exact ⟨{ x with asked := k }, dma.trans run, rfl, rfl, rfl, rfl⟩
  · exact ((confined_handled r _ confined).memory (by decide) s.dev).trans q.quiet.memory
  · have asked := runDma_asks_first first rfl (same.trans good) some_ (chained.trans up) (by rw [out]; exact room)
    have next : e.dmaNext x = (if toHost then .memWr host a (min 1024 n) else .memRd host a (min 1024 n),
        if toHost then s.dev.readOut a (min 1024 n) else []) := by
      rw [Dev.dmaNext, reads]
      rfl
    rw [next] at asked
    obtain ⟨t, sent⟩ := sent_of_asked (us := handled r answerOk (wakeUp s.dev ++ (queueItem x ++ runDma e)))
      (m := fun t => .chainRequest t _ _)
      (List.mem_append_left _ (List.mem_append_right _ (List.mem_append_right _ (List.mem_append_right _ asked)))) s.dev
    exact ⟨t, q.quiet.sent.subset sent⟩

end dma

/-! ### The statement -/

theorem completes_discard {s : State} (hs : s.dev.steady) (h : s.dev.Settled) (b : Bool) : Completes (.chainPacketDiscard b) s fun d =>
    d.fld (if b then F.CHAIN_ERR_CRC else F.CHAIN_ERR_MALFORMED) = 1 ∧ s.dev.tallied d F.CHAIN_ERR_FAULTS 0 ∧ s.dev.wrote d [] := by
  refine completes_flagged (a := chainPacketDiscardAct b) rfl hs h rfl ?_ ?_ ?_ <;> cases b <;> decide

/-- Whether a packet for an address goes on (R559). -/
def Dev.forwards (d : Dev) (b : Bool) (dst : BitVec 8) : Bool :=
  !(d.bit F.CHAIN_ADDR_VALID && decide (dst.toNat = d.fld F.CHAIN_ADDR_ADDR)) &&
    decide ((if b then d.fld F.CHAIN_STATUS_IN_STATE else d.fld F.CHAIN_STATUS_OUT_STATE) = 2)

theorem chainPacketForward_eq (b : Bool) (dst : BitVec 8) (bs : List Byte) (d : Dev) :
    chainPacketForwardAct b dst bs d = if d.forwards b dst then [.send (.chainForward b dst bs)] else [] := by
  unfold chainPacketForwardAct Dev.forwards
  dsimp only
  generalize (d.bit F.CHAIN_ADDR_VALID && decide (dst.toNat = d.fld F.CHAIN_ADDR_ADDR)) = own
  generalize (if b then d.fld F.CHAIN_STATUS_IN_STATE else d.fld F.CHAIN_STATUS_OUT_STATE) = out
  cases own with
  | true => rfl
  | false => by_cases up : out = 2 <;> simp [csUp, up]

section forward
variable {s : State} (hs : s.dev.steady) (h : s.dev.Settled) {b : Bool} {dst : BitVec 8} {bs : List Byte}
include hs h

theorem completes_forward (on : s.dev.forwards b dst = true) : Completes (.chainPacketForward b dst bs) s fun d =>
    Msg.chainForward b dst bs ∈ d.outbox ∧ s.dev.wrote d [] := by
  have confined : Confined [.regs, .chain, .outbox] [] [.send (.chainForward b dst bs)] := (confined_cons ..).2 ⟨rfl, confined_nil⟩
  exact completes_rests (a := chainPacketForwardAct b dst bs) rfl hs h (by rw [chainPacketForward_eq, if_pos on]) confined (by decide) (by decide)
    (by decide) (by decide) ⟨sent_of_mem (List.mem_singleton_self _) _, confined.wrote _ (by decide)⟩

theorem completes_forward_none (off : s.dev.forwards b dst = false) : Completes (.chainPacketForward b dst bs) s fun d =>
    d.outbox = s.dev.outbox ∧ s.dev.wrote d [] :=
  completes_same (a := chainPacketForwardAct b dst bs) rfl hs h (by rw [chainPacketForward_eq, if_neg (Bool.eq_false_iff.1 off)]) ⟨rfl, wrote_refl _⟩

end forward

/-- Settles O53: requests of the chain, each by the act that its command runs. -/
theorem chainRequestsRun : Obligations.ChainRequestsRun := by
  intro s r a n bs w item key timed toHost host dst b hs h malformed answersIt asleep dma x part
  refine ⟨completes_discard hs h b, ⟨completes_forward hs h, completes_forward_none hs h⟩, fun bad => ?_, fun bad => ?_, fun bad => ?_, fun bad => ?_,
    fun bad => ?_, fun single low high => ⟨completes_memRd_far hs single low high, completes_memRd_locked hs single low high,
      completes_memRd_data hs single low high⟩, fun fresh single low high => ⟨fun deep => ?_, fun awake => ?_, fun awake => ?_, fun awake => ?_⟩,
    fun fresh single whole => ⟨completes_install_closed hs single whole fresh, completes_install_unnamed hs single whole fresh,
      fun opened named unit old => completes_install_again hs single whole fresh opened named unit old,
      completes_install_apart hs single whole fresh, completes_install_next hs single whole fresh⟩,
    fun fresh single => ⟨fun late => ?_, fun now_ => ?_, fun now_ idle few none_ => ?_, fun now_ idle few some_ good => ?_⟩⟩
  · exact completes_malformed (a := serveAgain r (readMem a n)) rfl hs h (by
      rcases bad with bad | bad | bad <;> simp [bad])
  · exact completes_malformed (a := serve r (memBusy (writeMem a bs))) rfl hs h (by
      rcases bad with bad | bad | bad <;> simp [bad])
  · exact completes_malformed (a := serve r (installPacket w bs)) rfl hs h (by
      rcases bad with bad | bad <;> simp [bad])
  · exact completes_malformed (a := serve r fun _ => (answerOk, writeLtol w)) rfl hs h (decide_eq_false bad)
  · exact completes_malformed (a := serve r (untimed timed (waking (hostDma item key toHost a host n)))) rfl hs h (by rw [bad]; rfl)
  · exact completes_memWr_asleep hs single low high fresh (of_decide_eq_true deep)
  · exact completes_memWr_far hs single low high fresh (of_decide_eq_false awake)
  · exact completes_memWr_held hs single low high fresh (of_decide_eq_false awake)
  · exact completes_memWr_data hs single low high fresh (of_decide_eq_false awake)
  · subst late
    exact completes_dma_timed hs single fresh
  · subst now_
    exact completes_dma_busy hs single fresh
  · subst now_
    rcases Nat.eq_zero_or_pos n with zero | some_
    · exact completes_dma_empty hs single fresh idle few zero
    · exact completes_dma_bad hs single fresh idle few some_ (none_.resolve_left (by omega))
  · subst now_
    exact completes_dma_moves hs single fresh idle few some_ good

end Sys2Proof.Machine
end

