-- ==== Sys2Proof/Proofs/WokenRequests.lean ====
section
/-! PROOFS. Requests that wake the module before they act (R620, R622). -/

namespace Sys2Proof.Machine

/-! ### The woken module -/

/-- A module that differs in its idle state alone. -/
structure Woken (d e : Dev) : Prop where
  rest : e = { d with regs := e.regs, frozen := e.frozen, power := e.power }
  reg : ∀ r i, r ≠ .PWR_STATUS → e.reg r i = d.reg r i

theorem Woken.refl (d : Dev) : Woken d d := ⟨rfl, fun _ _ _ => rfl⟩

section steps
variable {d e : Dev} (h : Woken d e)
include h

theorem Woken.slept {f : Fld} (hf : f.reg = .PWR_STATUS) (i v : Nat) : Woken d ((setF f i v).apply e) := by
  refine ⟨?_, fun r j hr => (reg_setFld_other e f i _ (.inl fun same => hr (same.trans hf))).trans (h.reg r j hr)⟩
  rw [h.rest]
  rfl

theorem Woken.thawed : Woken d ((Upd.freeze false).apply e) := by
  refine ⟨?_, fun r j hr => h.reg r j hr⟩
  rw [h.rest]
  rfl

theorem Woken.powered (g : PowerSt → PowerSt) : Woken d ((Upd.power g).apply e) := by
  refine ⟨?_, fun r j hr => h.reg r j hr⟩
  rw [h.rest]
  rfl

end steps

theorem wakeUp_none {d : Dev} (h : d.fld F.PWR_STATUS_STATE = 0) : wakeUp d = [] := if_pos h

theorem woken_wakeUp (d : Dev) : Woken d (applyAll (wakeUp d) d) := by
  by_cases awake : d.fld F.PWR_STATUS_STATE = 0
  · rw [wakeUp_none awake, applyAll_nil]
    exact .refl d
  · rw [wakeUp_eq awake, applyAll_cons, applyAll_cons, applyAll_cons, applyAll_nil]
    exact (((Woken.refl d).slept rfl 0 0).thawed).powered _

section woken
variable {d e : Dev} (h : Woken d e)
include h

theorem Woken.fld {f : Fld} (hf : f.reg ≠ .PWR_STATUS) (i : Nat) : e.fld f i = d.fld f i := by simp only [Dev.fld, h.reg _ _ hf]
theorem Woken.bit {f : Fld} (hf : f.reg ≠ .PWR_STATUS) (i : Nat) : e.bit f i = d.bit f i := by simp only [Dev.bit, h.fld hf]
theorem Woken.svc : e.svc = d.svc := (congrArg Dev.svc h.rest :)
theorem Woken.commit : e.commit = d.commit := (congrArg Dev.commit h.rest :)
theorem Woken.slices : e.slices = d.slices := (congrArg Dev.slices h.rest :)
theorem Woken.regions : e.regions = d.regions := (congrArg Dev.regions h.rest :)
theorem Woken.rings : e.rings = d.rings := (congrArg Dev.rings h.rest :)
theorem Woken.cores : e.cores = d.cores := (congrArg Dev.cores h.rest :)
theorem Woken.schedLib : e.schedLib = d.schedLib := (congrArg Dev.schedLib h.rest :)
theorem Woken.start : e.start = d.start := (congrArg Dev.start h.rest :)
theorem Woken.secure : e.secure = d.secure := (congrArg Dev.secure h.rest :)
theorem Woken.vault : e.vault = d.vault := (congrArg Dev.vault h.rest :)
theorem Woken.chain : e.chain = d.chain := (congrArg Dev.chain h.rest :)
theorem Woken.hbm : e.hbm = d.hbm := (congrArg Dev.hbm h.rest :)
theorem Woken.hbmBad : e.hbmBad = d.hbmBad := (congrArg Dev.hbmBad h.rest :)
theorem Woken.hbmMarks : e.hbmMarks = d.hbmMarks := (congrArg Dev.hbmMarks h.rest :)
theorem Woken.gcnt : e.gcnt = d.gcnt := (congrArg Dev.gcnt h.rest :)
theorem Woken.outbox : e.outbox = d.outbox := (congrArg Dev.outbox h.rest :)
theorem Woken.freeCtr : e.freeCtr = d.freeCtr := (congrArg Dev.freeCtr h.rest :)

theorem Woken.slice (i : Nat) : e.slice i = d.slice i := slice_of_slices h.slices i
theorem Woken.ring (k : Nat) : e.ring k = d.ring k := ring_of_rings h.rings k

end woken

/-! ### A request that wakes -/

theorem alike_wakeUp {d e : Dev} (h : Alike d e) (c : Dev) : Alike (applyAll (wakeUp c) d) (applyAll (wakeUp c) e) := by
  have freeze {x y : Dev} (h : Alike x y) : Alike ((Upd.freeze false).apply x) ((Upd.freeze false).apply y) := h.of_rest fun _ => rfl
  have quiet {x y : Dev} (h : Alike x y) (t : Nat) :
      Alike ((Upd.power fun p => { p with quietAt := t }).apply x) ((Upd.power fun p => { p with quietAt := t }).apply y) := h.of_rest fun _ => rfl
  by_cases awake : c.fld F.PWR_STATUS_STATE = 0
  · rw [wakeUp_none awake, applyAll_nil, applyAll_nil]
    exact h
  · rw [wakeUp_eq awake]
    simp only [applyAll_cons, applyAll_nil, setF, apply_fld]
    exact quiet (freeze (alike_setFld h (by decide) 0 _)) _

/-- What a request that wakes the module runs: the act, on what it reads of the woken module, between the request's count and the response. -/
theorem runAct_serve_waking {d : Dev} {r : Req} {f : Dev → Answer × Act} {a : Answer} {act : Act} (fresh : d.fresh r) (hf : f d = (a, act)) :
    runAct (serve r (waking f)) d = applyAll (respond r a) (applyAll (act (applyAll (wakeUp d) d)) (applyAll (wakeUp d) d.heard)) := by
  have wakes : waking f d = (a, inSequence [wakeUp, act]) := by rw [waking, hf]
  have acts : inSequence [wakeUp, act] d = wakeUp d ++ act (applyAll (wakeUp d) d) := by
    simp only [inSequence, List.append_nil]
  rw [runAct_eq, serve_fresh _ fresh, wakes]
  dsimp only
  rw [acts]
  exact (applyAll_handled r a (wakeUp d ++ act (applyAll (wakeUp d) d)) d).trans (by rw [applyAll_append (wakeUp d)])

/-- A request with no response yet that wakes the module: but for its count, the chain and the messages it leaves what its act leaves of the
woken module. -/
theorem completes_woken {i : Instr} {s : State} {r : Req} {f : Dev → Answer × Act} {P : Dev → Prop} {a : Answer} {act : Act}
    (he : exec i s = perform (onPower (serve r (waking f))) s) (hs : s.dev.steady) (fresh : s.dev.fresh r) (hf : f s.dev = (a, act))
    (deaf : Each (fun u => u.deaf = true) (act (applyAll (wakeUp s.dev) s.dev)))
    (h : ∀ e d, Served (runAct act (applyAll (wakeUp s.dev) s.dev)) e → Behind e d → s.dev.answered d r a → P d) : Completes i s P := by
  have run := runAct_serve_waking fresh hf
  generalize waked : applyAll (wakeUp s.dev) s.dev = w at deaf h run
  have alike : Alike (runAct act w) (applyAll (act w) (applyAll (wakeUp s.dev) s.dev.heard)) := by
    rw [runAct_eq]
    refine alike_applyAll ?_ deaf
    rw [← waked]
    exact alike_wakeUp (alike_heard s.dev) s.dev
  have count : (applyAll (act w) (applyAll (wakeUp s.dev) s.dev.heard)).fld F.CHAIN_CNT_RX = (s.dev.fld F.CHAIN_CNT_RX + 1) % 2 ^ 32 := by
    rw [fld_applyAll_deaf deaf, (confined_wakeUp s.dev).fld _ (by decide)]
    exact fld_addF ..
  have after (d : Dev) : (applyAll (respond r a) d).fld F.CHAIN_CNT_RX = d.fld F.CHAIN_CNT_RX := rfl
  refine ⟨_, he.trans (perform_eq _ _), rfl, ?_⟩
  rw [withDev_dev, runAct_onPower hs.1]
  simp only [settled, runAct_inSequence_cons, runAct_inSequence_nil]
  rw [run]
  have served := served_respond alike r a
  generalize applyAll (act w) (applyAll (wakeUp s.dev) s.dev.heard) = x at *
  have b : Behind (applyAll (respond r a) x) (runAct settleReady (runAct fenceLost (applyAll (respond r a) x))) :=
    ⟨quiet_settleReady _, fun safe => inSafe_settleReady _ (inSafe_fenceLost _ safe)⟩
  refine h _ _ served b ⟨b.sent (sent_of_mem (by simp [respond]) _), ?_, (b.fld (by decide) 0).trans ((after x).trans count)⟩
  have raised : Raised (applyAll (respond r a) x) (runAct settleReady (runAct fenceLost (applyAll (respond r a) x))) := by
    rw [runAct_eq fenceLost]
    exact (raised_applyAll (deaf_fenceLost _) _).trans (raised_settleReady _)
  rw [cached_of_cache raised.cache]
  simp only [respond, applyAll_cons, applyAll_nil, Dev.cached, chain_apply_chain]
  exact find_keepResponse r a _

end Sys2Proof.Machine
end

