-- ==== Sys2Proof/Proofs/ServiceCommands.lean ====
section
/-! PROOFS. The service commands of SVC_CMD, which wake the module, and the wait for a logged list (R496, R523, R524, R538, R541–R545, R550). -/

namespace Sys2Proof.Machine

/-! ### What the service reads of a woken module -/

section woken
variable {d e : Dev} (h : Woken d e)
include h

theorem Woken.here : e.here = d.here := (shape_congr fun i => h.reg _ i (by decide)).2
theorem Woken.axis : e.axis = d.axis := (shape_congr fun i => h.reg _ i (by decide)).1
theorem Woken.mode : e.mode = d.mode := h.fld (f := F.DEV_STATE_STATE) (by decide) 0
theorem Woken.svcArg (i : Nat) : e.svcArg i = d.svcArg i := h.fld (f := F.SVC_ARG_ARG) (by decide) i
theorem Woken.qp (q : Nat) : e.qp q = d.qp q := by rw [Dev.qp, h.svc, ← Dev.qp]
theorem Woken.adapter (a : Nat) : e.adapter a = d.adapter a := by rw [Dev.adapter, h.svc, ← Dev.adapter]
theorem Woken.svcRegion : e.svcRegion = d.svcRegion := by rw [Dev.svcRegion, h.regions, ← Dev.svcRegion]

theorem Woken.qpTable : e.qpTable = d.qpTable := by
  simp (disch := exact of_decide_eq_true rfl) only [Dev.qpTable, h.svcRegion, h.fld]

theorem Woken.isMember (s : SliceDesc) (c : Coord) : e.isMember s c = d.isMember s c := by
  unfold Dev.isMember Dev.offsetIn
  rw [h.axis]

theorem Woken.memberHere (s : SliceSt) : e.memberHere s = d.memberHere s := by
  simp only [Dev.memberHere, h.isMember, h.here]

theorem Woken.sliceOf (k : BitVec 12) : e.sliceOf k = d.sliceOf k := by rw [sliceOf_eq, h.slices, ← sliceOf_eq]

theorem Woken.memberOf (k : BitVec 12) : e.memberOf k = d.memberOf k := by
  simp only [Dev.memberOf, h.sliceOf, h.memberHere, h.slice]

theorem Woken.qpCheck (q : Nat) (x : QpEnt) : e.qpCheck q x = d.qpCheck q x := by
  unfold Dev.qpCheck Dev.qpRegion Dev.ifaceExists
  rw [h.svcRegion, h.svc, h.memberOf, h.qpTable, h.fld (by decide)]

theorem Woken.activeRings (k : BitVec 12) : e.activeRings k = d.activeRings k := by
  simp (disch := exact of_decide_eq_true rfl) only [Dev.activeRings, h.fld]

theorem Woken.refusedBinding (k : BitVec 12) : e.refusedBinding k = d.refusedBinding k := by
  simp only [Dev.refusedBinding, h.activeRings, h.ring]

theorem Woken.turnedAway (k : BitVec 12) : e.turnedAway k = d.turnedAway k := by rw [Dev.turnedAway, h.refusedBinding, ← Dev.turnedAway]

theorem Woken.takesItems (i : Nat) : e.takesItems i = d.takesItems i := by
  simp only [Dev.takesItems, h.slice, h.mode, h.memberHere, h.refusedBinding]

theorem Woken.boundRings (k : BitVec 12) : e.boundRings k = d.boundRings k := by
  have same : e.coresOf k = d.coresOf k := by
    unfold Dev.coresOf Dev.corePkey
    rw [h.cores, h.schedLib]
  simp (disch := exact of_decide_eq_true rfl) only [Dev.boundRings, same, h.fld]

theorem Woken.serving (k : BitVec 12) : e.serving k = d.serving k := by
  unfold Dev.serving
  rw [h.boundRings]
  split
  · rw [h.fld (by decide)]
  · rfl

theorem Woken.jobCheck (b : List Byte) (j : JobSt) : e.jobCheck b j = d.jobCheck b j := by
  have block : e.block j.pkey = d.block j.pkey := by rw [Dev.block, h.svc, ← Dev.block]
  have role (q n : Nat) : e.hasQpRole q n = d.hasQpRole q n := by rw [Dev.hasQpRole, h.qp, ← Dev.hasQpRole]
  have pinned (a g : Nat) : e.pinned a g = d.pinned a g := by rw [Dev.pinned, h.svc, ← Dev.pinned]
  unfold Dev.jobCheck
  simp only [block, role, pinned, h.svc, h.sliceOf, h.serving, h.takesItems, h.slice, h.turnedAway, h.adapter]

theorem Woken.ownSlice : e.ownSlice = d.ownSlice := by
  simp only [Dev.ownSlice, h.slices, h.memberHere, h.activeRings]

theorem Woken.armedLoaded (k : BitVec 12) (g : Nat) : e.armedLoaded k g = d.armedLoaded k g := by
  simp (disch := exact of_decide_eq_true rfl) only [Dev.armedLoaded, h.fld]

theorem Woken.readerHolds (g : Nat) : e.readerHolds g = d.readerHolds g := by
  simp (disch := exact of_decide_eq_true rfl) only [Dev.readerHolds, h.start, h.here, h.bit, h.fld]

theorem Woken.baseGen (i : Nat) : e.baseGen i = d.baseGen i := by
  simp (disch := exact of_decide_eq_true rfl) only [Dev.baseGen, h.svc, h.activeRings, h.slice, h.fld]

end woken


/-! ### A service command (R550) -/

theorem svcResult_reads (n : Nat) (d : Dev) : d.counted (applyAll (svcResult n) d) F.SVC_CMD_STATUS_SEQ 0 1 ∧
    (applyAll (svcResult n) d).fld F.SVC_CMD_STATUS_RESULT = n % 256 := by
  simp (disch := exact of_decide_eq_true rfl) only [Dev.counted, svcResult, applyAll_cons, applyAll_nil, fld_apply_spared, fld_addF, fld_setF]
  exact ⟨trivial, rfl⟩

theorem confined_svcResult (n : Nat) : Confined [.regs] [.SVC_CMD_STATUS] (svcResult n) := by
  simp only [svcResult, confined_cons, confined_nil, and_true]
  exact ⟨rfl, rfl, rfl⟩

/-- A service command has been answered, counted, and its status left (R550). -/
def Dev.svcEnded (d e : Dev) (r : Req) (n : Nat) : Prop :=
  d.answered e r answerOk ∧ d.counted e F.SVC_CMD_STATUS_SEQ 0 1 ∧ e.fld F.SVC_CMD_STATUS_RESULT = n % 256

section commands
variable {s : State} (hs : s.dev.steady) {r : Req} (fresh : s.dev.fresh r) {ins : Instr} {op : Nat}
  (he : exec ins s = perform (onPower (serve r (waking (writeSvcCmd op)))) s)
include hs fresh he

theorem completes_svc_busy (busy : s.dev.bit F.SVC_CMD_STATUS_BUSY = true) :
    Completes ins s fun d => s.dev.answered d r (addressError 5) ∧ d.svc = s.dev.svc := by
  refine completes_woken (act := noAct) he hs fresh (by rw [writeSvcCmd, if_pos busy, refuse]) each_nil fun e d served b answer => ⟨answer, ?_⟩
  rw [b.svc, served.svc, runAct_eq, noAct, applyAll_nil, (woken_wakeUp s.dev).svc]

variable (free : s.dev.bit F.SVC_CMD_STATUS_BUSY = false)
include free

/-- A service command, by the updates that its act makes of the woken module before its status. -/
theorem completes_svc {n : Nat} {us : Dev → List Upd} (known : op ∈ [1, 2, 3, 4, 5, 6, 7])
    (act : ∀ w, Woken s.dev w → svcCommand op w = us w ++ svcResult n)
    (confined : ∀ w, Confined [.svc, .commit, .outbox] [] (us w)) {P : Dev → Prop}
    (h : ∀ w d, Woken s.dev w → s.dev.svcEnded d r n → d.svc = (applyAll (us w) w).svc → d.commit = (applyAll (us w) w).commit → P d) :
    Completes ins s P := by
  have woken := woken_wakeUp s.dev
  have valid : ¬ (decide (op % 256 = 0) || decide (7 < op % 256)) = true :=
    (by decide : ∀ op ∈ [1, 2, 3, 4, 5, 6, 7], ¬ (decide (op % 256 = 0) || decide (7 < op % 256)) = true) op known
  have code : op % 256 = op := (by decide : ∀ op ∈ [1, 2, 3, 4, 5, 6, 7], op % 256 = op) op known
  have result := confined_svcResult n
  refine completes_woken (a := answerOk) (act := svcCommand op) he hs fresh ?_ ?_ fun e d served b answer => ?_
  · rw [writeSvcCmd, if_neg (Bool.eq_false_iff.1 free), if_neg valid, code]
  · rw [act _ woken, each_append]
    exact ⟨(confined _).deaf (by decide) (by decide) (by decide) (by decide) (by decide),
      result.deaf (by decide) (by decide) (by decide) (by decide) (by decide)⟩
  · generalize applyAll (wakeUp s.dev) s.dev = w at woken served
    obtain ⟨count, status⟩ := svcResult_reads n (applyAll (us w) w)
    rw [runAct_eq, act w woken, applyAll_append] at served
    have seq : (applyAll (us w) w).fld F.SVC_CMD_STATUS_SEQ = s.dev.fld F.SVC_CMD_STATUS_SEQ :=
      ((confined w).fld w List.not_mem_nil 0).trans (woken.fld (by decide) 0)
    refine h w d woken ⟨answer, ?_, ?_⟩ ?_ ?_
    · refine ((b.fld (by decide) 0).trans (served.fld (by decide) 0)).trans (count.trans ?_)
      rw [seq]
    · exact ((b.fld (by decide) 0).trans (served.fld (by decide) 0)).trans status
    · rw [b.svc, served.svc]
      exact keepAll_svc _ (result.leaves (by decide))
    · rw [b.commit, served.commit]
      exact keepAll_commit _ (result.leaves (by decide))

/-- A service command that only leaves its status. -/
theorem completes_svc_no {n : Nat} (known : op ∈ [1, 2, 3, 4, 5, 6, 7]) (act : ∀ w, Woken s.dev w → svcCommand op w = svcResult n) :
    Completes ins s fun d => s.dev.svcEnded d r n ∧ d.svc = s.dev.svc ∧ d.commit = s.dev.commit :=
  completes_svc hs fresh he free (us := fun _ => []) known act (fun _ => confined_nil) fun _ _ woken ended svc commit =>
    ⟨ended, svc.trans woken.svc, commit.trans woken.commit⟩

/-- A service command that waits for a commit point (R550). -/
theorem completes_svc_waits {k : Nat} {c : SvcCmd} (known : op ∈ [1, 2, 3, 4, 5, 6, 7])
    (act : ∀ w, Woken s.dev w → svcCommand op w = [atNextCommit k c] ++ svcResult 0) :
    Completes ins s fun d => s.dev.svcEnded d r 0 ∧ d.svc.atCommit = s.dev.svc.atCommit ++ [(k, c)] := by
  refine completes_svc hs fresh he free (us := fun _ => [atNextCommit k c]) known act (fun _ => (confined_cons ..).2 ⟨rfl, confined_nil⟩)
    fun w d woken ended svc _ => ⟨ended, ?_⟩
  rw [svc, ← woken.svc]
  rfl

end commands

/-! ### Queue pairs (R523, R524) -/

/-- The entry of the queue pair table for a queue pair. -/
def Dev.qpEntry (d : Dev) (q : Nat) : QpEnt := qpEnt (memRead d.hbm (d.qpTable.1 + 96 * q) 96)

/-- The result of QP_CREATE (R524). -/
def Dev.qpMade (d : Dev) (q : Nat) : Nat := if d.qpTable.2 ≤ 96 * q ∨ (d.qp q).st ≠ .reset then 0x12 else d.qpCheck q (d.qpEntry q)

theorem Woken.qpEntry {d e : Dev} (h : Woken d e) (q : Nat) : e.qpEntry q = d.qpEntry q := by rw [Dev.qpEntry, h.hbm, h.qpTable, ← Dev.qpEntry]

theorem Woken.qpMade {d e : Dev} (h : Woken d e) (q : Nat) : e.qpMade q = d.qpMade q := by
  rw [Dev.qpMade, h.qpTable, h.qp, h.qpEntry, h.qpCheck, ← Dev.qpMade]

/-- A queue pair as it is made. -/
def freshQp (e : QpEnt) (now : Nat) : QpSt :=
  { QpSt.init with ent := some e, st := .ready, sqPsn := e.sqPsn, rqPsn := e.rqPsn, rate := fullRate, progressAt := now, rateAt := now }

theorem qpCreate_eq (d : Dev) : qpCreate d =
    let q := d.svcArg 0 % 65536
    let e := d.qpEntry q
    inSequence [fun d' => if d.qpMade q = 0 then [onQp q fun _ => freshQp e d'.now] else [], onlyIf (d.qpMade q = 0) (resolvePeer e),
      fun _ => svcResult (d.qpMade q)] d := by
  have made : (if (decide (d.qpTable.2 ≤ 96 * (d.svcArg 0 % 65536)) || decide ((d.qp (d.svcArg 0 % 65536)).st ≠ .reset)) = true then 0x12
      else d.qpCheck (d.svcArg 0 % 65536) (d.qpEntry (d.svcArg 0 % 65536))) = d.qpMade (d.svcArg 0 % 65536) := by
    simp only [Dev.qpMade, Bool.or_eq_true, decide_eq_true_eq]
  dsimp only
  rw [← made]
  rfl

theorem confines_resolvePeer (e : QpEnt) : Confines [.outbox] [] (resolvePeer e) := fun d => by
  unfold resolvePeer
  split
  · exact confined_nil
  · split
    · exact confined_nil
    · exact confined_ethSend _ _ d

/-- What QP_CREATE makes of a module (R524). -/
def makeQp (d : Dev) : List Upd :=
  let q := d.svcArg 0 % 65536
  [onQp q fun _ => freshQp (d.qpEntry q) d.now] ++
    resolvePeer (d.qpEntry q) (applyAll [onQp q fun _ => freshQp (d.qpEntry q) d.now] d)

theorem qpCreate_made {d : Dev} (made : d.qpMade (d.svcArg 0 % 65536) = 0) : qpCreate d = makeQp d ++ svcResult 0 := by
  rw [qpCreate_eq]
  dsimp only
  rw [made]
  simp only [inSequence, onlyIf, decide_true, if_true, List.append_nil, makeQp, List.append_assoc]

theorem qpCreate_no {d : Dev} (bad : d.qpMade (d.svcArg 0 % 65536) ≠ 0) : qpCreate d = svcResult (d.qpMade (d.svcArg 0 % 65536)) := by
  rw [qpCreate_eq]
  dsimp only
  rw [inSequence_skip (if_neg bad), inSequence_skip (by rw [onlyIf, decide_eq_false bad]; rfl), inSequence_one]

section pairs
variable {s : State} (hs : s.dev.steady) {r : Req} (fresh : s.dev.fresh r) (free : s.dev.bit F.SVC_CMD_STATUS_BUSY = false)
include hs fresh free

theorem completes_qpCreate (made : s.dev.qpMade (s.dev.svcArg 0 % 65536) = 0) :
    let q := s.dev.svcArg 0 % 65536
    let e := s.dev.qpEntry q
    Completes (.qpCreate r) s fun d => s.dev.svcEnded d r 0 ∧ (d.qp q).ent = some e ∧ (d.qp q).st = .ready ∧
      (d.qp q).sqPsn = e.sqPsn ∧ (d.qp q).rqPsn = e.rqPsn ∧ ∀ j, j ≠ q → d.qp j = s.dev.qp j := by
  intro q e
  refine completes_svc hs fresh (op := 1) rfl free (n := 0) (us := makeQp) (by decide)
    (fun w woken => qpCreate_made (by rw [woken.svcArg, woken.qpMade, made])) (fun w => ?_) fun w d woken ended svc _ => ?_
  · exact (confined_append ..).2 ⟨(confined_cons ..).2 ⟨rfl, confined_nil⟩, (confines_resolvePeer _ _).mono (by decide) (by decide)⟩
  · have qp (j : Nat) : d.qp j = if j = q then freshQp e w.now else s.dev.qp j := by
      rw [Dev.qp, svc, ← Dev.qp, makeQp, applyAll_append, Dev.qp, keepAll_svc _ ((confines_resolvePeer _ _).leaves (by decide)), ← Dev.qp,
        applyAll_cons, applyAll_nil, qp_onQp, woken.svcArg, woken.qpEntry, woken.qp]
    refine ⟨ended, ?_, ?_, ?_, ?_, fun j other => (qp j).trans (if_neg other)⟩
    all_goals rw [qp, if_pos rfl]
    all_goals rfl

theorem completes_qpCreate_no (bad : s.dev.qpMade (s.dev.svcArg 0 % 65536) ≠ 0) : Completes (.qpCreate r) s fun d =>
    s.dev.svcEnded d r (s.dev.qpMade (s.dev.svcArg 0 % 65536)) ∧ d.svc = s.dev.svc ∧ d.commit = s.dev.commit := by
  refine completes_svc_no hs fresh (op := 1) rfl free (by decide) fun w woken => ?_
  have same : w.qpMade (w.svcArg 0 % 65536) = s.dev.qpMade (s.dev.svcArg 0 % 65536) := by rw [woken.svcArg, woken.qpMade]
  rw [← same] at bad ⊢
  exact qpCreate_no bad

theorem completes_qpDestroy_no (reset : (s.dev.qp (s.dev.svcArg 0 % 65536)).st = .reset) : Completes (.qpDestroy r) s fun d =>
    s.dev.svcEnded d r 0x12 ∧ d.svc = s.dev.svc ∧ d.commit = s.dev.commit :=
  completes_svc_no hs fresh (op := 2) rfl free (by decide) fun _ woken => if_pos (by rw [woken.svcArg, woken.qp, reset])

/-- What QP_DESTROY makes of a module (R524, R535). -/
def destroyQp (d : Dev) : List Upd :=
  let q := d.svcArg 0 % 65536
  [onQp q fun s => { QpSt.init with ent := s.ent }, .svc fun s => { s with
    held := s.held.filter fun h => h.2.1 ≠ q,
    reqs := s.reqs.map fun r => if r.qp = q then { r with cancelled := some (r.cancelled.getD 0) } else r }]

theorem completes_qpDestroy (live : (s.dev.qp (s.dev.svcArg 0 % 65536)).st ≠ .reset) :
    let q := s.dev.svcArg 0 % 65536
    Completes (.qpDestroy r) s fun d => s.dev.svcEnded d r 0 ∧ (d.qp q).st = .reset ∧ (d.qp q).sent = [] ∧ ∀ j, j ≠ q → d.qp j = s.dev.qp j := by
  intro q
  refine completes_svc hs fresh (op := 2) rfl free (n := 0) (us := destroyQp) (by decide) (fun w woken => ?_) (fun w => ?_) fun w d woken ended svc _ => ?_
  · change qpDestroy w = _
    unfold qpDestroy
    dsimp only
    rw [if_neg (by rw [woken.svcArg, woken.qp]; exact live)]
    simp only [inSequence, List.append_nil, destroyQp]
  · simp only [destroyQp, confined_cons, confined_nil, and_true]
    exact ⟨rfl, rfl⟩
  · have qp (j : Nat) : d.qp j = if j = q then { QpSt.init with ent := (s.dev.qp q).ent } else s.dev.qp j := by
      have run : (applyAll (destroyQp w) w).qp j = ((onQp (w.svcArg 0 % 65536) fun s => { QpSt.init with ent := s.ent }).apply w).qp j := rfl
      rw [qp_of_qps (congrArg SvcSt.qps svc), run, qp_onQp, woken.svcArg, woken.qp, woken.qp]
    refine ⟨ended, ?_, ?_, fun j other => (qp j).trans (if_neg other)⟩
    all_goals rw [qp, if_pos rfl]
    all_goals rfl

end pairs


/-! ### Jobs (R538, R541) -/

section jobs
variable {s : State} (hs : s.dev.steady) {r : Req} (fresh : s.dev.fresh r) (free : s.dev.bit F.SVC_CMD_STATUS_BUSY = false)
include hs fresh free

/-- The manifest that JOB_START names (R538). -/
def Dev.manifest (d : Dev) : List Byte := memRead d.hbm (d.svcRegion.1 + 4096 * (d.svcArg 0 % 4294967296)) 2112

omit hs fresh free in
theorem jobStart_eq {w : Dev} (woken : Woken s.dev w) : jobStart w =
    let b := s.dev.manifest
    (if s.dev.jobCheck b (jobOf b) = 0 then [atNextCommit ((s.dev.sliceOf (jobOf b).pkey).getD 0) (.jobStart (jobOf b))] else []) ++
      svcResult (s.dev.jobCheck b (jobOf b)) := by
  unfold jobStart
  rw [woken.hbm, woken.svcRegion, woken.svcArg]
  dsimp only
  rw [woken.jobCheck, woken.sliceOf]
  rfl

theorem completes_jobStart (good : s.dev.jobCheck s.dev.manifest (jobOf s.dev.manifest) = 0) : Completes (.jobStart r) s fun d =>
    s.dev.svcEnded d r 0 ∧ d.svc.atCommit =
      s.dev.svc.atCommit ++ [((s.dev.sliceOf (jobOf s.dev.manifest).pkey).getD 0, .jobStart (jobOf s.dev.manifest))] :=
  completes_svc_waits hs fresh (op := 3) rfl free (by decide) fun _ woken => (jobStart_eq woken).trans (by dsimp only; rw [good]; rfl)

theorem completes_jobStart_no (bad : s.dev.jobCheck s.dev.manifest (jobOf s.dev.manifest) ≠ 0) : Completes (.jobStart r) s fun d =>
    s.dev.svcEnded d r (s.dev.jobCheck s.dev.manifest (jobOf s.dev.manifest)) ∧ d.svc = s.dev.svc ∧ d.commit = s.dev.commit :=
  completes_svc_no hs fresh (op := 3) rfl free (by decide) fun _ woken => (jobStart_eq woken).trans (by dsimp only; rw [if_neg bad]; rfl)

theorem completes_jobStop {j : JobSt} (found : (s.dev.svc.jobs.find? fun j => j.handle = s.dev.svcArg 0 % 4294967296) = some j) :
    Completes (.jobStop r) s fun d => s.dev.svcEnded d r 0 ∧ d.svc.atCommit =
      s.dev.svc.atCommit ++ [((s.dev.sliceOf j.pkey).getD 0, .jobStop (s.dev.svcArg 0 % 4294967296))] := by
  refine completes_svc_waits hs fresh (op := 4) rfl free (by decide) fun w woken => ?_
  change jobStop w = _
  unfold jobStop
  dsimp only
  rw [woken.svc, woken.svcArg, found]
  dsimp only
  rw [woken.sliceOf]

theorem completes_jobStop_no (none_ : (s.dev.svc.jobs.find? fun j => j.handle = s.dev.svcArg 0 % 4294967296) = none) :
    Completes (.jobStop r) s fun d => s.dev.svcEnded d r 0x10 ∧ d.svc = s.dev.svc ∧ d.commit = s.dev.commit := by
  refine completes_svc_no hs fresh (op := 4) rfl free (by decide) fun w woken => ?_
  change jobStop w = _
  unfold jobStop
  dsimp only
  rw [woken.svc, woken.svcArg, none_]

/-! ### Exports (R542) -/

/-- The buffer that EXPORT names (R542). -/
def Dev.exportBuf (d : Dev) : Option AdapterBuf :=
  (d.adapter (d.svcArg 0 / 65536 % 4294967296)).bind fun a =>
    if a.buf0.gen = d.svcArg 0 / 281474976710656 % 65536 then some a.buf0
    else if a.buf1.gen = d.svcArg 0 / 281474976710656 % 65536 then some a.buf1 else none

omit hs fresh free in
theorem Woken.exportBuf {d e : Dev} (h : Woken d e) : e.exportBuf = d.exportBuf := by
  unfold Dev.exportBuf
  rw [h.adapter, h.svcArg]

/-- Whether an export's area takes the buffer (R542). -/
def Dev.exportFits (d : Dev) (q : Nat) (x : QpEnt) (y : AdapterBuf) : Bool :=
  decide (x.role = 3 ∧ (d.qp q).st = .ready ∧ d.svcArg 1 + y.bytes ≤ x.ringEntries * 1048576)

/-- Whether the slice of a key takes an export (R542). -/
def Dev.exportTakes (d : Dev) (key : BitVec 12) : Bool := (d.sliceOf key).any fun k => d.takesItems k && !(d.slice k).frozen

omit hs fresh free in
theorem Woken.exportTakes {d e : Dev} (h : Woken d e) (key : BitVec 12) : e.exportTakes key = d.exportTakes key := by
  simp only [Dev.exportTakes, h.sliceOf, h.takesItems, h.slice]

omit hs fresh free in
theorem Woken.exportFits {d e : Dev} (h : Woken d e) (q : Nat) (x : QpEnt) (y : AdapterBuf) : e.exportFits q x y = d.exportFits q x y := by
  unfold Dev.exportFits
  rw [h.qp, h.svcArg]

/-- The handle of the next export (R542). -/
def Dev.exportHandle (d : Dev) : Nat := 3221225472 + (d.fld F.SVC_CMD_STATUS_SEQ + 1) % 1073741824

/-- An export joins the items. -/
def takeExport (h q : Nat) (x : QpEnt) (y : AdapterBuf) : List Upd :=
  [.commit fun c => { c with items := c.items ++ [⟨h, 4, x.pkey, none, 0, 0, 0, 0, none⟩] },
    .svc fun s => { s with exports := s.exports ++ [⟨h, q, y.bytes, 0, x.pkey⟩] }]

/-- The messages of an export (R542). -/
def exportMsgs (d : Dev) (h q : Nat) (x : QpEnt) (y : AdapterBuf) : Act :=
  forEach (fun p => rocePost q (fun psn => .write psn (x.ringAddr + d.svcArg 1 + p.1) x.ringRkey none p.2) none (some h))
    (pieces 1048576 (d.readHbm y.addr y.bytes).1)

/-- What becomes of an export of no bytes (R23). -/
def emptyExport (d : Dev) (h : Nat) (x : QpEnt) : Act :=
  inSequence [fun _ => [.svc fun s => { s with exports := s.exports.filter fun x => x.handle ≠ h }],
    releaseRecord h x.pkey 0 (((d.sliceOf x.pkey).map fun i => (d.slice i).committedWord).getD 0)]

omit hs fresh free in
theorem exportStart_eq (d : Dev) : exportStart d =
    match (d.qp (d.svcArg 0 % 65536)).ent, d.exportBuf with
    | some x, some y =>
      if x.role ≠ 3 || (d.qp (d.svcArg 0 % 65536)).st ≠ .ready || x.ringEntries * 1048576 < d.svcArg 1 + y.bytes then svcResult 0x10
      else if !d.exportTakes x.pkey then svcResult (d.turnedAway x.pkey)
      else inSequence [fun _ => takeExport d.exportHandle (d.svcArg 0 % 65536) x y, exportMsgs d d.exportHandle (d.svcArg 0 % 65536) x y,
        onlyIf (y.bytes = 0) (emptyExport d d.exportHandle x), fun _ => svcResult 0] d
    | some _, none => svcResult 0x30
    | none, _ => svcResult 0x10 := rfl

omit hs fresh free in
theorem exportStart_both {d : Dev} {x : QpEnt} {y : AdapterBuf} (area : (d.qp (d.svcArg 0 % 65536)).ent = some x) (buf : d.exportBuf = some y) :
    exportStart d = if d.exportFits (d.svcArg 0 % 65536) x y = false then svcResult 0x10
      else if !d.exportTakes x.pkey then svcResult (d.turnedAway x.pkey)
      else inSequence [fun _ => takeExport d.exportHandle (d.svcArg 0 % 65536) x y, exportMsgs d d.exportHandle (d.svcArg 0 % 65536) x y,
        onlyIf (y.bytes = 0) (emptyExport d d.exportHandle x), fun _ => svcResult 0] d := by
  have fits : (decide (x.role ≠ 3) || decide ((d.qp (d.svcArg 0 % 65536)).st ≠ .ready) || decide (x.ringEntries * 1048576 < d.svcArg 1 + y.bytes)) = true ↔
      d.exportFits (d.svcArg 0 % 65536) x y = false := by
    simp only [Dev.exportFits, Bool.or_eq_true, decide_eq_true_eq, decide_eq_false_iff_not, not_and_or, not_le, or_assoc, ne_eq]
  rw [exportStart_eq, area, buf]
  exact if_congr fits rfl rfl

omit hs fresh free in
theorem confines_exportMsgs (d : Dev) (h q : Nat) (x : QpEnt) (y : AdapterBuf) : Confines [.svc, .outbox] [] (exportMsgs d h q x y) :=
  Confines.forEach fun _ _ => confines_rocePost _ _ _ _

omit hs fresh free in
theorem keeps_rocePost_exports (q : Nat) (f : Nat → RoceMsg) (pull : Option Pull) (export_ : Option Nat) (d : Dev) :
    Keeps (fun d => d.svc.exports) (rocePost q f pull export_ d) := by
  have emit (m : RoceMsg) (d : Dev) : Keeps (fun d => d.svc.exports) (roceEmit q m d) := by
    unfold roceEmit
    split
    · exact keeps_nil
    · simp only [keeps_ite, keeps_nil, keeps_cons, and_true, implies_true]
      exact ⟨trivial, fun _ => ⟨fun _ _ => rfl, fun _ _ => rfl⟩⟩
  unfold rocePost
  dsimp only
  split
  · exact keeps_nil
  · rw [keeps_ite]
    refine ⟨fun _ => keeps_nil, fun _ => keeps_inSequence (fun a ha d => ?_) d⟩
    simp only [List.mem_cons, List.not_mem_nil, or_false] at ha
    rcases ha with rfl | rfl
    · exact (keeps_cons ..).2 ⟨fun _ => rfl, keeps_nil⟩
    · exact emit _ d

theorem completes_export_area (none_ : (s.dev.qp (s.dev.svcArg 0 % 65536)).ent = none) : Completes (.exportAdapter r) s fun d =>
    s.dev.svcEnded d r 0x10 ∧ d.svc = s.dev.svc ∧ d.commit = s.dev.commit := by
  refine completes_svc_no hs fresh (op := 5) rfl free (by decide) fun w woken => (exportStart_eq w).trans ?_
  rw [woken.qp, woken.svcArg, none_]

variable {x : QpEnt} (area : (s.dev.qp (s.dev.svcArg 0 % 65536)).ent = some x)
include area

theorem completes_export_buf (none_ : s.dev.exportBuf = none) : Completes (.exportAdapter r) s fun d =>
    s.dev.svcEnded d r 0x30 ∧ d.svc = s.dev.svc ∧ d.commit = s.dev.commit := by
  refine completes_svc_no hs fresh (op := 5) rfl free (by decide) fun w woken => (exportStart_eq w).trans ?_
  rw [woken.qp, woken.svcArg, area, woken.exportBuf, none_]

variable {y : AdapterBuf} (buf : s.dev.exportBuf = some y)
include buf

omit hs fresh free in
theorem exportStart_woken {w : Dev} (woken : Woken s.dev w) : exportStart w =
    if s.dev.exportFits (s.dev.svcArg 0 % 65536) x y = false then svcResult 0x10
    else if !s.dev.exportTakes x.pkey then svcResult (s.dev.turnedAway x.pkey)
    else inSequence [fun _ => takeExport w.exportHandle (s.dev.svcArg 0 % 65536) x y, exportMsgs w w.exportHandle (s.dev.svcArg 0 % 65536) x y,
      onlyIf (y.bytes = 0) (emptyExport w w.exportHandle x), fun _ => svcResult 0] w := by
  rw [exportStart_both (d := w) (x := x) (y := y) (by rw [woken.qp, woken.svcArg, area]) (by rw [woken.exportBuf, buf]), woken.exportFits,
    woken.exportTakes, woken.turnedAway, woken.svcArg]

theorem completes_export_unfit (unfit : s.dev.exportFits (s.dev.svcArg 0 % 65536) x y = false) : Completes (.exportAdapter r) s fun d =>
    s.dev.svcEnded d r 0x10 ∧ d.svc = s.dev.svc ∧ d.commit = s.dev.commit :=
  completes_svc_no hs fresh (op := 5) rfl free (by decide) fun _ woken => (exportStart_woken area buf woken).trans (if_pos unfit)

variable (fits : s.dev.exportFits (s.dev.svcArg 0 % 65536) x y = true)
include fits

theorem completes_export_away (closed : s.dev.exportTakes x.pkey = false) : Completes (.exportAdapter r) s fun d =>
    s.dev.svcEnded d r (s.dev.turnedAway x.pkey) ∧ d.svc = s.dev.svc ∧ d.commit = s.dev.commit :=
  completes_svc_no hs fresh (op := 5) rfl free (by decide) fun _ woken => (exportStart_woken area buf woken).trans
    ((if_neg (by rw [fits]; decide)).trans (if_pos (by rw [closed]; rfl)))

theorem completes_export (takes : s.dev.exportTakes x.pkey = true) (full : y.bytes ≠ 0) : Completes (.exportAdapter r) s fun d =>
    s.dev.svcEnded d r 0 ∧ ∃ h, d.svc.exports = s.dev.svc.exports ++ [⟨h, s.dev.svcArg 0 % 65536, y.bytes, 0, x.pkey⟩] ∧
      d.commit.items = s.dev.commit.items ++ [⟨h, 4, x.pkey, none, 0, 0, 0, 0, none⟩] := by
  have taken (h : Nat) : Confined [.svc, .commit] [] (takeExport h (s.dev.svcArg 0 % 65536) x y) := by
    simp only [takeExport, confined_cons, confined_nil, and_true]
    exact ⟨rfl, rfl⟩
  refine completes_svc hs fresh (op := 5) rfl free (n := 0)
    (us := fun w => takeExport w.exportHandle (s.dev.svcArg 0 % 65536) x y ++
      exportMsgs w w.exportHandle (s.dev.svcArg 0 % 65536) x y (applyAll (takeExport w.exportHandle (s.dev.svcArg 0 % 65536) x y) w))
    (by decide) (fun w woken => (exportStart_woken area buf woken).trans ?_) (fun w => ?_) fun w d woken ended svc commit => ⟨ended, w.exportHandle, ?_, ?_⟩
  · rw [if_neg (by rw [fits]; decide), if_neg (by rw [takes]; decide), inSequence, inSequence, inSequence_skip (by rw [onlyIf, decide_eq_false full]; rfl),
      inSequence_one, List.append_assoc]
  · exact (confined_append ..).2 ⟨(taken _).mono (by decide) (by decide), (confines_exportMsgs _ _ _ _ _ _).mono (by decide) (by decide)⟩
  · have kept := (keeps_forEach (f := fun p => rocePost (s.dev.svcArg 0 % 65536)
      (fun psn => .write psn (x.ringAddr + w.svcArg 1 + p.1) x.ringRkey none p.2) none (some w.exportHandle))
      (xs := pieces 1048576 (w.readHbm y.addr y.bytes).1) (fun p d => keeps_rocePost_exports _ _ _ _ d)
      (applyAll (takeExport w.exportHandle (s.dev.svcArg 0 % 65536) x y) w)).eq (applyAll (takeExport w.exportHandle (s.dev.svcArg 0 % 65536) x y) w)
    rw [svc, applyAll_append, ← woken.svc]
    exact kept
  · rw [commit, applyAll_append, keepAll_commit _ ((confines_exportMsgs _ _ _ _ _ _).leaves (by decide)), ← woken.commit]
    rfl

end jobs

/-! ### Generations (R544, R545) -/

section generations
variable {s : State} (hs : s.dev.steady) {r : Req} (fresh : s.dev.fresh r) (free : s.dev.bit F.SVC_CMD_STATUS_BUSY = false)
include hs fresh free

omit hs fresh free in
theorem adapterGen_woken {w : Dev} (woken : Woken s.dev w) : adapterGen w =
    match s.dev.adapter (s.dev.svcArg 0 % 4294967296), s.dev.ownSlice with
    | some x, some i => if (otherBuf x).gen = s.dev.svcArg 0 / 4294967296 % 65536 then
        [atNextCommit i (.adapterGen (s.dev.svcArg 0 % 4294967296) (s.dev.svcArg 0 / 4294967296 % 65536))] ++ svcResult 0 else svcResult 0x30
    | some _, none => svcResult 0x60
    | none, _ => svcResult 0x30 := by
  rw [← woken.adapter, ← woken.ownSlice, ← woken.svcArg]
  rfl

theorem completes_adapterGen_unknown (none_ : s.dev.adapter (s.dev.svcArg 0 % 4294967296) = none) : Completes (.adapterGen r) s fun d =>
    s.dev.svcEnded d r 0x30 ∧ d.svc = s.dev.svc ∧ d.commit = s.dev.commit :=
  completes_svc_no hs fresh (op := 6) rfl free (by decide) fun _ woken => (adapterGen_woken woken).trans (by rw [none_])

variable {a : Adapter} (found : s.dev.adapter (s.dev.svcArg 0 % 4294967296) = some a)
include found

theorem completes_adapterGen_slice (none_ : s.dev.ownSlice = none) : Completes (.adapterGen r) s fun d =>
    s.dev.svcEnded d r 0x60 ∧ d.svc = s.dev.svc ∧ d.commit = s.dev.commit :=
  completes_svc_no hs fresh (op := 6) rfl free (by decide) fun _ woken => (adapterGen_woken woken).trans (by rw [found, none_])

variable {k : Nat} (own : s.dev.ownSlice = some k)
include own

theorem completes_adapterGen_other (other : (otherBuf a).gen ≠ s.dev.svcArg 0 / 4294967296 % 65536) : Completes (.adapterGen r) s fun d =>
    s.dev.svcEnded d r 0x30 ∧ d.svc = s.dev.svc ∧ d.commit = s.dev.commit :=
  completes_svc_no hs fresh (op := 6) rfl free (by decide) fun _ woken => (adapterGen_woken woken).trans
    (by rw [found, own]; exact if_neg other)

theorem completes_adapterGen (same : (otherBuf a).gen = s.dev.svcArg 0 / 4294967296 % 65536) : Completes (.adapterGen r) s fun d =>
    s.dev.svcEnded d r 0 ∧ d.svc.atCommit = s.dev.svc.atCommit ++
      [(k, .adapterGen (s.dev.svcArg 0 % 4294967296) (s.dev.svcArg 0 / 4294967296 % 65536))] :=
  completes_svc_waits hs fresh (op := 6) rfl free (by decide) fun _ woken => (adapterGen_woken woken).trans
    (by rw [found, own]; exact if_pos same)

end generations

section switch
variable {s : State} (hs : s.dev.steady) {r : Req} (fresh : s.dev.fresh r) (free : s.dev.bit F.SVC_CMD_STATUS_BUSY = false)
include hs fresh free

/-- Whether a slice may switch to a base generation (R545). -/
def Dev.switchFits (d : Dev) (k g : Nat) : Bool := d.armedLoaded (d.slice k).pkey g && d.readerHolds g && !(d.baseGen k).draining

omit hs fresh free in
theorem baseSwitch_woken {w : Dev} (woken : Woken s.dev w) : baseSwitch w =
    match s.dev.ownSlice with
    | none => svcResult 0x60
    | some i =>
      if s.dev.switchFits i (s.dev.svcArg 0 % 65536) = false then svcResult 0x12
      else if !s.dev.takesItems i then svcResult 0x60
      else [atNextCommit i (.baseSwitch (s.dev.svcArg 0 % 65536))] ++ svcResult 0 := by
  unfold baseSwitch
  dsimp only
  rw [woken.ownSlice, woken.svcArg]
  cases s.dev.ownSlice with
  | none => rfl
  | some i =>
    have fits : (!w.armedLoaded (w.slice i).pkey (s.dev.svcArg 0 % 65536) || !w.readerHolds (s.dev.svcArg 0 % 65536) || (w.baseGen i).draining) = true ↔
        s.dev.switchFits i (s.dev.svcArg 0 % 65536) = false := by
      rw [woken.armedLoaded, woken.slice, woken.readerHolds, woken.baseGen, Dev.switchFits]
      simp only [Bool.or_eq_true, Bool.not_eq_true', Bool.and_eq_false_iff, Bool.not_eq_false']
    dsimp only
    rw [woken.takesItems]
    exact if_congr fits rfl rfl

theorem completes_baseSwitch_none (none_ : s.dev.ownSlice = none) : Completes (.baseSwitch r) s fun d =>
    s.dev.svcEnded d r 0x60 ∧ d.svc = s.dev.svc ∧ d.commit = s.dev.commit :=
  completes_svc_no hs fresh (op := 7) rfl free (by decide) fun _ woken => (baseSwitch_woken woken).trans (by rw [none_])

variable {k : Nat} (own : s.dev.ownSlice = some k)
include own

theorem completes_baseSwitch_unfit (unfit : s.dev.switchFits k (s.dev.svcArg 0 % 65536) = false) : Completes (.baseSwitch r) s fun d =>
    s.dev.svcEnded d r 0x12 ∧ d.svc = s.dev.svc ∧ d.commit = s.dev.commit :=
  completes_svc_no hs fresh (op := 7) rfl free (by decide) fun _ woken => (baseSwitch_woken woken).trans
    (by rw [own]; exact if_pos unfit)

variable (fits : s.dev.switchFits k (s.dev.svcArg 0 % 65536) = true)
include fits

theorem completes_baseSwitch_closed (closed : s.dev.takesItems k = false) : Completes (.baseSwitch r) s fun d =>
    s.dev.svcEnded d r 0x60 ∧ d.svc = s.dev.svc ∧ d.commit = s.dev.commit :=
  completes_svc_no hs fresh (op := 7) rfl free (by decide) fun _ woken => (baseSwitch_woken woken).trans
    (by rw [own]; exact (if_neg (by rw [fits]; decide)).trans (if_pos (by rw [closed]; rfl)))

theorem completes_baseSwitch (takes : s.dev.takesItems k = true) : Completes (.baseSwitch r) s fun d =>
    s.dev.svcEnded d r 0 ∧ d.svc.atCommit = s.dev.svc.atCommit ++ [(k, .baseSwitch (s.dev.svcArg 0 % 65536))] :=
  completes_svc_waits hs fresh (op := 7) rfl free (by decide) fun _ woken => (baseSwitch_woken woken).trans
    (by rw [own]; exact (if_neg (by rw [fits]; decide)).trans (if_neg (by rw [takes]; decide)))

end switch


/-! ### The wait for a logged list (R496) -/

/-- An act that leaves the waits for logged lists. -/
abbrev KeepsWaits (a : Act) : Prop := ∀ d, Keeps (fun d => d.svc.waitAt) (a d)

theorem Confines.keepsWaits {ps : List Part} {rs : List Reg} {a : Act} (h : Confines ps rs a) (svc : Part.svc ∉ ps) : KeepsWaits a := fun d u hu e =>
  congrArg SvcSt.waitAt (keepAll_svc e (Confined.leaves (ps := ps) (rs := rs) ((confined_cons u []).2 ⟨h d u hu, confined_nil⟩) svc))

theorem KeepsWaits.seq {as : List Act} (h : ∀ a ∈ as, KeepsWaits a) : KeepsWaits (inSequence as) := fun d => keeps_inSequence h d

theorem keepsWaits_roceEmit (q : Nat) (m : RoceMsg) : KeepsWaits (roceEmit q m) := fun d u hu e =>
  congrArg Prod.snd (keeps_roceEmit_beside q m d u hu e)

theorem keepsWaits_rocePost (q : Nat) (f : Nat → RoceMsg) (pull : Option Pull) (export_ : Option Nat) : KeepsWaits (rocePost q f pull export_) := fun d => by
  unfold rocePost
  dsimp only
  split
  · exact keeps_nil
  · rw [keeps_ite]
    refine ⟨fun _ => keeps_nil, fun _ => KeepsWaits.seq (fun a ha => ?_) d⟩
    simp only [List.mem_cons, List.not_mem_nil, or_false] at ha
    rcases ha with rfl | rfl
    · exact fun _ => (keeps_cons ..).2 ⟨fun _ => rfl, keeps_nil⟩
    · exact keepsWaits_roceEmit _ _

theorem keepsWaits_writeEntry (q i : Nat) (e : QpEnt) : KeepsWaits (writeEntry q i e) := fun d => by
  unfold writeEntry
  dsimp only
  split
  · exact keeps_nil
  · refine KeepsWaits.seq (fun a ha => ?_) d
    simp only [List.mem_cons, List.not_mem_nil, or_false] at ha
    rcases ha with rfl | rfl | rfl
    · exact fun _ => (keeps_cons ..).2 ⟨fun _ => rfl, keeps_nil⟩
    · exact (confines_writeHbm _ _ _).keepsWaits (by decide)
    · exact keepsWaits_rocePost _ _ _ _

theorem keepsWaits_pumpQp (q n : Nat) : KeepsWaits (pumpQp q n) := by
  induction n with
  | zero => exact fun _ => keeps_nil
  | succ n ih =>
    intro d
    unfold pumpQp
    dsimp only
    split
    · rw [keeps_ite]
      refine ⟨fun _ => KeepsWaits.seq (fun a ha => ?_) d, fun _ => keeps_nil⟩
      simp only [List.mem_cons, List.not_mem_nil, or_false] at ha
      rcases ha with rfl | rfl
      · exact keepsWaits_writeEntry _ _ _
      · exact ih
    · exact keeps_nil

theorem keepsWaits_queueEntry (q kind : Nat) (body : List Byte) : KeepsWaits (queueEntry q kind body) := fun d => by
  simp only [queueEntry, keeps_ite]
  refine ⟨fun _ => KeepsWaits.seq (fun a ha => ?_) d, fun _ => ?_⟩
  · simp only [List.mem_cons, List.not_mem_nil, or_false] at ha
    rcases ha with rfl | rfl
    · exact fun _ => (keeps_cons ..).2 ⟨fun _ => rfl, keeps_nil⟩
    · exact fun d => keepsWaits_pumpQp q _ d
  · exact (keeps_cons ..).2 ⟨fun _ => rfl, keeps_nil⟩

theorem keepsWaits_recordOut (it : Item) (handle status step reason : Nat) (tail : List Byte) (gcnt : BitVec 64) :
    KeepsWaits (recordOut it handle status step reason tail gcnt) := fun d => by
  unfold recordOut
  dsimp only
  split
  · split
    · refine KeepsWaits.seq (fun a ha => ?_) d
      simp only [List.mem_cons, List.not_mem_nil, or_false] at ha
      rcases ha with rfl | rfl
      · exact fun _ => (keeps_cons ..).2 ⟨fun _ => rfl, keeps_nil⟩
      · exact keepsWaits_queueEntry _ _ _
    · exact keeps_nil
  · split
    · exact keepsWaits_queueEntry _ _ _ d
    · exact keeps_nil
  · exact Confines.keepsWaits (ps := [.regs, .chain, .outbox]) (rs := [.EVT_STATUS, .CHAIN_ERR])
      (fun _ => (confined_cons ..).2 ⟨rfl, confined_nil⟩) (by decide) d

theorem keepsWaits_releaseWith (handle : Nat) (pkey : BitVec 12) (status step reason : Nat) (tail : List Byte) :
    KeepsWaits (releaseWith handle pkey status step reason tail) := fun d => by
  rw [releaseWith_eq]
  split
  · exact keeps_nil
  · refine KeepsWaits.seq (fun a ha => ?_) d
    simp only [List.mem_cons, List.not_mem_nil, or_false] at ha
    rcases ha with rfl | rfl
    · refine Confines.keepsWaits (ps := [.commit, .regs]) (rs := [.DET_STATUS]) (fun _ => ?_) (by decide)
      simp only [flagDet, flagFault, confined_append, confined_ite, confined_cons, confined_nil, and_true, implies_true]
      exact ⟨rfl, fun _ => ⟨rfl, rfl⟩⟩
    · exact keepsWaits_recordOut _ _ _ _ _ _ _

theorem keepsWaits_failAllItems (i status : Nat) : KeepsWaits (failAllItems i status) := fun d => by
  refine KeepsWaits.seq (fun a ha => ?_) d
  simp only [List.mem_cons, List.not_mem_nil, or_false] at ha
  rcases ha with rfl | rfl | rfl
  · refine Confines.keepsWaits (ps := [.regs]) (rs := [.DET_STATUS]) (Confines.onlyIf fun _ => ?_) (by decide)
    simp only [flagDet, flagFault, confined_cons, confined_nil, and_true]
    exact ⟨rfl, rfl⟩
  · exact fun d => keeps_forEach (fun it d => keepsWaits_releaseWith _ _ _ _ _ _ d) d
  · exact fun _ => (keeps_cons ..).2 ⟨fun _ => rfl, keeps_nil⟩

theorem keepsWaits_timeoutSlice (i : Nat) (device : Bool) (cause : Nat) : KeepsWaits (timeoutSlice i device cause) := fun d => by
  refine KeepsWaits.seq (fun a ha => ?_) d
  simp only [List.mem_cons, List.not_mem_nil, or_false] at ha
  rcases ha with rfl | rfl | rfl
  · exact keepsWaits_failAllItems i 0x40
  · exact (tames_haltSlice i 4).confines.keepsWaits (by decide)
  · exact (tames_timeout_end device cause).confines.keepsWaits (by decide)

theorem completes_logTimeout {s : State} (hs : s.dev.steady) {i : Fin 256} :
    let wait := mapGet (fun _ => 0) s.dev.svc.waitAt i
    let due := decide (wait ≠ 0) && s.dev.expired (wait - 1) (s.dev.fld F.SYNC_CFG_WAIT_WD);
    (due = true → (s.dev.slice i).desc.isSome = true → Completes (.admissionLogTimeout i) s fun d => TimedOut s.dev d i ∧
      mapGet (fun _ => 0) d.svc.waitAt i = 0 ∧ (s.dev.bit F.SYNC_CFG_WD_SAFE = true → d.mode = stSafe)) ∧
    (due = false → Completes (.admissionLogTimeout i) s fun d => s.dev.wrote d []) := by
  intro wait due
  let clear : List Upd := [.svc fun s => { s with waitAt := mapSet (fun _ => 0) i 0 s.waitAt }]
  have act : admissionLogTimeoutAct i s.dev = if due = false then [] else
      inSequence [fun _ => clear, timeoutSlice i (s.dev.bit F.SYNC_CFG_WD_SAFE) 5] s.dev := by
    unfold admissionLogTimeoutAct
    refine if_congr ?_ rfl rfl
    simp only [due, wait, Bool.or_eq_true, Bool.and_eq_false_iff, decide_eq_true_eq, decide_eq_false_iff_not, not_not, Bool.not_eq_true', ne_eq]
  refine ⟨fun late desc => ?_, fun early => completes_quiet (act := admissionLogTimeoutAct i) rfl hs (by rw [act, if_pos early])⟩
  rw [if_neg (by rw [late]; decide)] at act
  have run : runAct (admissionLogTimeoutAct i) s.dev = runAct (timeoutSlice i (s.dev.bit F.SYNC_CFG_WD_SAFE) 5) (applyAll clear s.dev) := by
    rw [runAct_congr act, runAct_two, runAct_list]
  have out := timedOut_timeoutSlice (d := applyAll clear s.dev) (i := i) desc (s.dev.bit F.SYNC_CFG_WD_SAFE) 5
  have cleared : mapGet (fun _ => 0) (applyAll clear s.dev).svc.waitAt i = 0 := mapGet_mapSet_same (fun _ => 0) i.val 0 s.dev.svc.waitAt
  have waits := (keepsWaits_timeoutSlice i (s.dev.bit F.SYNC_CFG_WD_SAFE) 5 (applyAll clear s.dev)).eq (applyAll clear s.dev)
  rw [← runAct_eq] at waits
  have before : TimedOut s.dev (runAct (timeoutSlice i (s.dev.bit F.SYNC_CFG_WD_SAFE) 5) (applyAll clear s.dev)) i :=
    out.before rfl fun _ hx _ => hx
  refine completes_behind (a := admissionLogTimeoutAct i) rfl hs fun d b => ?_
  rw [run] at b
  refine ⟨b.timedOut before, ?_, fun safe => ?_⟩
  · rw [b.svc, waits, cleared]
  · rw [safe] at b
    exact b.safe (inSafe_timeoutSlice _ i (by decide))

/-! ### The statement -/

/-- Settles O52: each service command, by what its act makes of the woken module. -/
theorem serviceCommandsRun : Obligations.ServiceCommandsRun := by
  intro s r i hs
  refine ⟨?_, completes_logTimeout hs⟩
  intro fresh arg q tbl e made b handle gen area xgen buf ended waits no
  refine ⟨fun busy c hc => ?_, fun free => ⟨?_, ?_, ?_, ?_, ?_, ?_, ?_, ?_, ?_, ?_, ?_, ?_, fun a ha => ⟨?_, ?_, ?_⟩, ?_,
    fun k hk => ⟨?_, ?_, ?_⟩⟩⟩
  · simp only [List.mem_cons, List.not_mem_nil, or_false] at hc
    rcases hc with rfl | rfl | rfl | rfl | rfl | rfl | rfl
    · exact completes_svc_busy hs fresh (op := 1) rfl busy
    · exact completes_svc_busy hs fresh (op := 2) rfl busy
    · exact completes_svc_busy hs fresh (op := 3) rfl busy
    · exact completes_svc_busy hs fresh (op := 4) rfl busy
    · exact completes_svc_busy hs fresh (op := 5) rfl busy
    · exact completes_svc_busy hs fresh (op := 6) rfl busy
    · exact completes_svc_busy hs fresh (op := 7) rfl busy
  · exact completes_qpCreate hs fresh free
  · exact completes_qpCreate_no hs fresh free
  · exact completes_qpDestroy_no hs fresh free
  · exact completes_qpDestroy hs fresh free
  · exact completes_jobStart hs fresh free
  · exact completes_jobStart_no hs fresh free
  · exact fun j => completes_jobStop hs fresh free
  · exact completes_jobStop_no hs fresh free
  · exact completes_export_area hs fresh free
  · exact fun x hx => completes_export_buf hs fresh free hx
  · intro x y hx hy fits takes
    exact ⟨completes_export_unfit hs fresh free hx hy, completes_export_away hs fresh free hx hy,
      completes_export hs fresh free hx hy⟩
  · exact completes_adapterGen_unknown hs fresh free
  · exact completes_adapterGen_slice hs fresh free ha
  · exact fun k => completes_adapterGen_other hs fresh free ha
  · exact fun k => completes_adapterGen hs fresh free ha
  · exact completes_baseSwitch_none hs fresh free
  · exact completes_baseSwitch_unfit hs fresh free hk
  · exact completes_baseSwitch_closed hs fresh free hk
  · exact completes_baseSwitch hs fresh free hk

end Sys2Proof.Machine
end

