-- ==== Sys2Proof/Proofs/SecurityStatus.lean ====
section
/-! PROOFS. What a security command leaves beside its own effect: its status, and what it reads of a woken module (R616, R620). -/

namespace Sys2Proof.Machine

/-! ### Completion (R616) -/

theorem Behind.secure {e d : Dev} (b : Behind e d) : d.secure = e.secure := (congrArg Dev.secure b.same :)
theorem Behind.freeCtr {e d : Dev} (b : Behind e d) : d.freeCtr = e.freeCtr := (congrArg Dev.freeCtr b.same :)
theorem Served.secure {d e : Dev} (h : Served d e) : e.secure = d.secure := (congrArg Dev.secure h.rest :)
theorem Served.vault {d e : Dev} (h : Served d e) : e.vault = d.vault := (congrArg Dev.vault h.rest :)
theorem Served.freeCtr {d e : Dev} (h : Served d e) : e.freeCtr = d.freeCtr := (congrArg Dev.freeCtr h.rest :)
theorem Served.route {d e : Dev} (h : Served d e) : e.route = d.route := (congrArg Dev.route h.rest :)

/-- Where nothing is lost, a register that no change of the machine state touches stands as the act left it. -/
theorem Behind.reg_of_settled {e d : Dev} (b : Behind e d) (none_ : e.route.lost = []) {r : Reg} (h : r ∉ modeRegs) (i : Nat) : d.reg r i = e.reg r i := by
  have quiet := b.quiet.reg r i (modeReg_eq_false h)
  rwa [runAct_fenceLost none_] at quiet

/-- The parts and the registers that a security command writes before its status. -/
def secParts : List Part := [.regs, .secure, .vault, .hbm, .hbmBad, .hbmMarks, .freeCtr]

/-- The registers that a security command writes before its status. -/
def secRegs : List Reg := [.SEC_NONCE, .SEC_ERR, .SEC_STATUS, .VAULT_CTL, .VAULT_SLOT, .VAULT_WEAR]

theorem confined_secDone (res why : Nat) : Confined [.regs] [.SEC_CMD_STATUS] (secDone res why) := by
  simp only [secDone, confined_cons, confined_nil, and_true]
  exact ⟨rfl, rfl, rfl⟩

theorem secDone_reads {res why : Nat} (hres : res < 256) (hwhy : why < 256) (d : Dev) :
    d.counted (applyAll (secDone res why) d) F.SEC_CMD_STATUS_SEQ 0 1 ∧ (applyAll (secDone res why) d).fld F.SEC_CMD_STATUS_RESULT = res ∧
      (applyAll (secDone res why) d).fld F.SEC_CMD_STATUS_REASON = why := by
  simp (disch := exact of_decide_eq_true rfl) only [Dev.counted, secDone, applyAll_cons, applyAll_nil, fld_apply_spared, fld_addF, fld_setF]
  exact ⟨trivial, Nat.mod_eq_of_lt hres, Nat.mod_eq_of_lt hwhy⟩

/-- A security command has been answered, counted, and its status and reason left (R616). -/
def Dev.secEnded (d e : Dev) (r : Req) (res why : Nat) : Prop :=
  d.answered e r answerOk ∧ d.counted e F.SEC_CMD_STATUS_SEQ 0 1 ∧ e.fld F.SEC_CMD_STATUS_RESULT = res ∧ e.fld F.SEC_CMD_STATUS_REASON = why

/-- What a security command leaves beside its status. -/
structure SecLeft (x d : Dev) : Prop where
  secure : d.secure = x.secure
  vault : d.vault = x.vault
  hbm : d.hbm = x.hbm
  freeCtr : d.freeCtr = x.freeCtr
  reg : ∀ r ∈ secRegs, ∀ i, d.reg r i = x.reg r i

theorem SecLeft.fld {x d : Dev} (h : SecLeft x d) {f : Fld} (hf : f.reg ∈ secRegs) (i : Nat) : d.fld f i = x.fld f i := by
  simp only [Dev.fld, h.reg _ hf]

theorem SecLeft.bit {x d : Dev} (h : SecLeft x d) {f : Fld} (hf : f.reg ∈ secRegs) (i : Nat) : d.bit f i = x.bit f i := by
  simp only [Dev.bit, h.fld hf]

section commands
variable {s : State} (hs : s.dev.steady) {r : Req} (fresh : s.dev.fresh r) {ins : Instr} {op : Nat} {v : TokenVerdict}
  (he : exec ins s = perform (onPower (serve r (waking (writeSecCmd op v)))) s)
include hs fresh he

theorem completes_sec_busy (settled : s.dev.Settled) (busy : s.dev.bit F.SEC_CMD_STATUS_BUSY = true) : Completes ins s fun d =>
    s.dev.answered d r (addressError 5) ∧ d.secure = s.dev.secure ∧ d.vault = s.dev.vault ∧ d.hbm = s.dev.hbm ∧
      regsBut [.CHAIN_CNT, .PWR_STATUS] s.dev d := by
  have woken := woken_wakeUp s.dev
  refine completes_woken (act := noAct) he hs fresh (by rw [writeSecCmd, if_pos busy, refuse]) each_nil fun e d served b answer =>
    ⟨answer, ?_, ?_, ?_, fun x i hx hm => ?_⟩
  all_goals rw [runAct_eq, noAct, applyAll_nil] at served
  · rw [b.secure, served.secure, woken.secure]
  · rw [b.vault, served.vault, woken.vault]
  · rw [b.hbm, served.hbm, woken.hbm]
  · have none_ : e.route.lost = [] := by
      have same : e.route = s.dev.route := served.route.trans (congrArg Dev.route woken.rest :)
      rw [same]
      exact settled.1
    rw [b.reg_of_settled none_ hm, served.reg x i fun h => hx (by simp [h]), woken.reg x i fun h => hx (by simp [h])]

variable (free : s.dev.bit F.SEC_CMD_STATUS_BUSY = false)
include free

omit hs fresh he in
theorem writeSecCmd_free (known : op ∈ [1, 2, 3, 4, 5, 6]) : writeSecCmd op v s.dev = (answerOk, secCommand op v) := by
  have valid : ¬ (decide (op % 256 = 0) || decide (6 < op % 256)) = true :=
    (by decide : ∀ op ∈ [1, 2, 3, 4, 5, 6], ¬ (decide (op % 256 = 0) || decide (6 < op % 256)) = true) op known
  have code : op % 256 = op := (by decide : ∀ op ∈ [1, 2, 3, 4, 5, 6], op % 256 = op) op known
  rw [writeSecCmd, if_neg (Bool.eq_false_iff.1 free), if_neg valid, code]

/-- A security command, by the updates that its act makes of the woken module before its status. -/
theorem completes_sec {res why : Nat} (hres : res < 256) (hwhy : why < 256) {us : Dev → List Upd} (known : op ∈ [1, 2, 3, 4, 5, 6])
    (act : ∀ w, Woken s.dev w → secCommand op v w = us w ++ secDone res why) (confined : ∀ w, Confined secParts secRegs (us w)) {P : Dev → Prop}
    (h : ∀ w d, Woken s.dev w → s.dev.secEnded d r res why → SecLeft (applyAll (us w) w) d → P d) : Completes ins s P := by
  have woken := woken_wakeUp s.dev
  have result := confined_secDone res why
  refine completes_woken he hs fresh (writeSecCmd_free free known) ?_ fun e d served b answer => ?_
  · rw [act _ woken, each_append]
    exact ⟨(confined _).deaf (by decide) (by decide) (by decide) (by decide) (by decide),
      result.deaf (by decide) (by decide) (by decide) (by decide) (by decide)⟩
  · generalize applyAll (wakeUp s.dev) s.dev = w at woken served
    have confined := confined w
    obtain ⟨count, status, reason⟩ := secDone_reads hres hwhy (applyAll (us w) w)
    rw [runAct_eq, act w woken, applyAll_append] at served
    have seq : (applyAll (us w) w).fld F.SEC_CMD_STATUS_SEQ = s.dev.fld F.SEC_CMD_STATUS_SEQ :=
      (confined.fld w (by decide) 0).trans (woken.fld (by decide) 0)
    have h := h w d woken
    generalize applyAll (us w) w = x at seq count status reason served h
    refine h ⟨answer, ?_, ?_, ?_⟩ ⟨?_, ?_, ?_, ?_, fun y hy i => ?_⟩
    · refine ((b.fld (by decide) 0).trans (served.fld (by decide) 0)).trans (count.trans ?_)
      rw [seq]
    · exact ((b.fld (by decide) 0).trans (served.fld (by decide) 0)).trans status
    · exact ((b.fld (by decide) 0).trans (served.fld (by decide) 0)).trans reason
    · rw [b.secure, served.secure, keepAll_secure _ (result.leaves (by decide))]
    · rw [b.vault, served.vault, keepAll_vault _ (result.leaves (by decide))]
    · rw [b.hbm, served.hbm, keepAll_hbm _ (result.leaves (by decide))]
    · rw [b.freeCtr, served.freeCtr, keepAll_freeCtr _ (result.leaves (by decide))]
    · have apart : y ∉ fenceRegs ∧ y ≠ .CHAIN_CNT ∧ y ∉ [Reg.SEC_CMD_STATUS] :=
        (by decide : ∀ y ∈ secRegs, y ∉ fenceRegs ∧ y ≠ .CHAIN_CNT ∧ y ∉ [Reg.SEC_CMD_STATUS]) y hy
      rw [b.reg apart.1, served.reg y i apart.2.1, result.reg x apart.2.2]

/-- A security command that only leaves its status. -/
theorem completes_sec_fails {res why : Nat} (hres : res < 256) (hwhy : why < 256) (known : op ∈ [1, 2, 3, 4, 5, 6])
    (act : ∀ w, Woken s.dev w → secCommand op v w = secDone res why) :
    Completes ins s fun d => s.dev.secEnded d r res why ∧ d.secure = s.dev.secure ∧ d.vault = s.dev.vault ∧ d.hbm = s.dev.hbm :=
  completes_sec hs fresh he free hres hwhy (us := fun _ => []) known act (fun _ => confined_nil) fun _ _ woken ended left =>
    ⟨ended, left.secure.trans woken.secure, left.vault.trans woken.vault, left.hbm.trans woken.hbm⟩

end commands

/-! ### What the security commands read of a woken module -/

section woken
variable {d e : Dev} (h : Woken d e)
include h

theorem Woken.secArg : e.secArg = d.secArg := h.fld (by decide) 0
theorem Woken.inService (a n : Nat) : e.inService a n = d.inService a n := by rw [Dev.inService, h.regions, ← Dev.inService]
theorem Woken.readHbm (a n : Nat) : e.readHbm a n = d.readHbm a n := by simp only [Dev.readHbm, h.hbm, h.hbmBad, h.hbmMarks]
theorem Woken.now : e.now = d.now := by rw [Dev.now, h.gcnt, ← Dev.now]

theorem Woken.vaultDigest (slotB : Bool) : e.vaultDigest slotB = d.vaultDigest slotB := by
  simp (disch := decide) only [Dev.vaultDigest, h.bit, h.vault]

theorem Woken.reportBody (challenge : List Byte) : e.reportBody challenge = d.reportBody challenge := by
  unfold Dev.reportBody
  simp (disch := decide) only [h.bit, h.fld, h.reg, h.start, h.now, h.vaultDigest, h.secure]

theorem Woken.tokenFault (t : List Byte) (v : TokenVerdict) (formed : Bool) : e.tokenFault t v formed = d.tokenFault t v formed := by
  have nonce : e.nonceBytes = d.nonceBytes := by simp (disch := decide) only [Dev.nonceBytes, h.fld]
  unfold Dev.tokenFault
  rw [h.reg _ _ (by decide), h.secure, nonce]

end woken

/-! ### Lengths -/

theorem length_padTo (n : Nat) (bs : List Byte) : (padTo n bs).length = n := by
  rw [padTo, List.length_append, List.length_take, List.length_replicate]
  omega

theorem length_vaultDigest (d : Dev) (slotB : Bool) : (d.vaultDigest slotB).length = 48 := by
  simp only [Dev.vaultDigest, apply_ite List.length, hashBytes, length_leBytes, List.length_replicate, ite_self]

theorem length_reportBody (d : Dev) (challenge : List Byte) : (d.reportBody challenge).length = 448 := by
  unfold Dev.reportBody
  simp only [List.length_append, List.length_cons, List.length_nil, length_leBytes, length_padTo, length_vaultDigest, hashBytes,
    List.length_replicate]

end Sys2Proof.Machine
end

