-- ==== Sys2Proof/Proofs/SecurityCommands.lean ====
section
/-! PROOFS. The commands of SEC_CMD and the checks of a token (R219–R221, R571, R598, R603, R609–R613, R616, R617). -/

namespace Sys2Proof.Machine

/-! ### NONCE, ATTEST, GET_EK (R598, R603, R609) -/

/-- The nonce registers are set one by one. -/
theorem fld_setEach (f : Fld) (v : Nat → Nat) {is : List Nat} (low : ∀ i ∈ is, i < regCopies) {i : Nat} (hi : i < regCopies) (d : Dev) :
    (applyAll (is.map fun i => setF f i (v i)) d).fld f i = if i ∈ is then v i % 2 ^ (f.hi - f.lo + 1) else d.fld f i := by
  induction is generalizing d with
  | nil => rfl
  | cons k is ih =>
    rw [List.map_cons, applyAll_cons, ih fun j hj => low j (List.mem_cons_of_mem _ hj)]
    have hk := low k (List.mem_cons_self ..)
    by_cases later : i ∈ is
    · rw [if_pos later, if_pos (List.mem_cons_of_mem _ later)]
    · by_cases here : i = k
      · subst here
        rw [if_neg later, if_pos (List.mem_cons_self ..), fld_setF]
      · rw [if_neg later, if_neg fun h => (List.mem_cons.1 h).elim here later, setF, apply_fld]
        exact fld_setFld_other _ _ _ _ (.inr (.inl (by rwa [Nat.mod_eq_of_lt hi, Nat.mod_eq_of_lt hk])))

/-- The nonce registers set to the words of a nonce. -/
def setNonce (v : Nat → Nat) : List Upd := (List.range 4).map fun i => setF F.SEC_NONCE_NONCE i (v i)

theorem setNonce_reads (v : Nat → Nat) (d : Dev) {i : Nat} (hi : i < 4) : (applyAll (setNonce v) d).fld F.SEC_NONCE_NONCE i = v i % 2 ^ 64 := by
  have copies : ∀ j, j < 4 → j < regCopies := fun j hj => hj.trans (by decide)
  rw [setNonce, fld_setEach _ _ (fun j hj => copies j (List.mem_range.1 hj)) (copies i hi), if_pos (List.mem_range.2 hi)]
  rfl

theorem confined_setNonce (v : Nat → Nat) : Confined [.regs] [.SEC_NONCE] (setNonce v) := by
  intro u hu
  obtain ⟨i, _, rfl⟩ := List.mem_map.1 hu
  rfl

/-- A word of the nonce that a draw gives (R598). -/
def nonceWord (ctr i : Nat) : Nat := leNat (((padTo 32 (Config.random ctr 32)).drop (8 * i)).take 8)

theorem nonceWord_lt (ctr i : Nat) : nonceWord ctr i < 2 ^ 64 :=
  (leNat_lt _).trans_le ((Nat.pow_le_pow_right (by decide) (List.length_take_le 8 _)).trans (by decide : 256 ^ 8 ≤ 2 ^ 64))

section commands
variable {s : State} (hs : s.dev.steady) {r : Req} (fresh : s.dev.fresh r) (free : s.dev.bit F.SEC_CMD_STATUS_BUSY = false)
include hs fresh free

theorem completes_nonce :
    Completes (.nonce r) s fun d => s.dev.secEnded d r 0 0 ∧ d.secure = { s.dev.secure with nonceLive := true } ∧
      d.freeCtr = s.dev.freeCtr + 1 ∧ ∀ i, i < 4 → d.fld F.SEC_NONCE_NONCE i = nonceWord s.dev.freeCtr i := by
  refine completes_sec hs fresh (op := 1) (v := noVerdict) rfl free (by decide) (by decide)
    (us := fun w => [.drawFree, .secure fun s => { s with nonceLive := true }] ++ setNonce (nonceWord w.freeCtr)) (by decide) (fun w _ => rfl) (fun w => ?_)
    fun w d woken ended left => ⟨ended, ?_, ?_, fun i hi => ?_⟩
  · refine (confined_append ..).2 ⟨?_, (confined_setNonce _).mono (by decide) (by decide)⟩
    simp only [confined_cons, confined_nil, and_true]
    exact ⟨rfl, rfl⟩
  · rw [left.secure, applyAll_append, keepAll_secure _ ((confined_setNonce _).leaves (by decide)), ← woken.secure]
    rfl
  · rw [left.freeCtr, applyAll_append, keepAll_freeCtr _ ((confined_setNonce _).leaves (by decide)), ← woken.freeCtr]
    rfl
  · rw [left.fld (by decide), applyAll_append, setNonce_reads _ _ hi, Nat.mod_eq_of_lt (nonceWord_lt _ _), woken.freeCtr]

/-- Where a block of bytes is written, and nothing beside it. -/
theorem completes_sec_writes {ins : Instr} {op : Nat} (he : exec ins s = perform (onPower (serve r (waking (writeSecCmd op noVerdict)))) s)
    (known : op ∈ [1, 2, 3, 4, 5, 6]) {bs : List Byte} (fits : s.dev.secArg + bs.length ≤ hbmSize) (good : s.dev.hbmBad = []) {us : List Upd}
    (draws : Confined [.freeCtr] [] us)
    (act : ∀ w, Woken s.dev w → secCommand op noVerdict w = (writeHbm s.dev.secArg bs false w ++ us) ++ secDone 0 0) :
    Completes ins s fun d => s.dev.secEnded d r 0 0 ∧ (∀ j, j < bs.length → memByte d.hbm (s.dev.secArg + j) = bs.getD j 0) ∧
      (∀ j, j < s.dev.secArg ∨ s.dev.secArg + bs.length ≤ j → memByte d.hbm j = memByte s.dev.hbm j) ∧ d.vault = s.dev.vault ∧
      d.secure = s.dev.secure := by
  have writes (w : Dev) : Confined [.hbm, .hbmBad, .hbmMarks, .freeCtr] [] (writeHbm s.dev.secArg bs false w ++ us) :=
    (confined_append ..).2 ⟨(confines_writeHbm _ _ _ w).mono (by decide) (by decide), draws.mono (by decide) (by decide)⟩
  refine completes_sec hs fresh he free (by decide) (by decide) known act (fun w => (writes w).mono (by decide) (by decide))
    fun w d woken ended left => ⟨ended, ?_⟩
  have hbm : d.hbm = (runAct (writeHbm s.dev.secArg bs false) w).hbm := by
    rw [left.hbm, applyAll_append, keepAll_hbm _ (draws.leaves (by decide)), runAct_eq]
  refine ⟨fun j hj => ?_, fun j hj => ?_, ?_, ?_⟩
  · rw [hbm, memByte_writeHbm_same (woken.hbmBad.trans good) fits false hj]
  · rw [hbm, memByte_writeHbm_other _ _ _ _ hj, woken.hbm]
  · rw [left.vault, keepAll_vault _ ((writes w).leaves (by decide)), woken.vault]
  · rw [left.secure, keepAll_secure _ ((writes w).leaves (by decide)), woken.secure]

theorem completes_attest_away (away : s.dev.inService s.dev.secArg 17056 = false) : Completes (.attest r) s fun d =>
    s.dev.secEnded d r 0x10 8 ∧ d.secure = s.dev.secure ∧ d.vault = s.dev.vault ∧ d.hbm = s.dev.hbm := by
  refine completes_sec_fails hs fresh (op := 2) (v := noVerdict) rfl free (by decide) (by decide) (by decide) fun w woken => ?_
  change attest w = _
  unfold attest
  dsimp only
  rw [woken.secArg, woken.inService, away]
  rfl

theorem completes_attest (placed : s.dev.inService s.dev.secArg 17056 = true) (fits : s.dev.secArg + 17056 ≤ hbmSize) (good : s.dev.hbmBad = []) :
    let body := s.dev.reportBody (s.dev.readHbm (s.dev.secArg + 24) 32).1
    Completes (.attest r) s fun d => s.dev.secEnded d r 0 0 ∧ (∀ j, j < body.length → memByte d.hbm (s.dev.secArg + j) = body.getD j 0) ∧
      (∀ j, j < s.dev.secArg ∨ s.dev.secArg + 17056 ≤ j → memByte d.hbm j = memByte s.dev.hbm j) ∧ d.vault = s.dev.vault ∧
      d.secure = s.dev.secure := by
  intro body
  let bs := body ++ padTo 16608 (Config.signatures s.dev.freeCtr body)
  have size : bs.length = 17056 := by rw [List.length_append, length_padTo, length_reportBody]
  refine (completes_sec_writes hs fresh free (ins := .attest r) (op := 2) rfl (by decide) (bs := bs) (us := [.drawFree]) (by rwa [size]) good
    ((confined_cons ..).2 ⟨rfl, confined_nil⟩) fun w woken => ?_).imp fun d ⟨ended, wrote, kept, vault, secure⟩ =>
    ⟨ended, fun j hj => ?_, by rwa [size] at kept, vault, secure⟩
  · change attest w = _
    unfold attest
    dsimp only
    rw [woken.secArg, woken.inService, placed, woken.readHbm, woken.reportBody, woken.freeCtr]
    simp only [Bool.not_true, Bool.false_eq_true, if_false, inSequence, List.append_nil]
    rw [List.append_assoc]
    rfl
  · rw [wrote j (by rw [List.length_append]; omega), List.getD_append _ _ _ _ hj]

theorem completes_getEk_away (away : hbmSize < s.dev.secArg + 1184) : Completes (.getEk r) s fun d =>
    s.dev.secEnded d r 0x10 8 ∧ d.secure = s.dev.secure ∧ d.vault = s.dev.vault ∧ d.hbm = s.dev.hbm := by
  refine completes_sec_fails hs fresh (op := 3) (v := noVerdict) rfl free (by decide) (by decide) (by decide) fun w woken => ?_
  change getEk w = _
  unfold getEk
  dsimp only
  rw [woken.secArg]
  exact if_pos away

theorem completes_getEk (fits : s.dev.secArg + 1184 ≤ hbmSize) (good : s.dev.hbmBad = []) :
    let key := padTo 1184 (Config.encapsulationKey (BitVec.ofNat 64 (s.dev.reg .SEC_UID)))
    Completes (.getEk r) s fun d => s.dev.secEnded d r 0 0 ∧ (∀ j, j < key.length → memByte d.hbm (s.dev.secArg + j) = key.getD j 0) ∧
      ∀ j, j < s.dev.secArg ∨ s.dev.secArg + 1184 ≤ j → memByte d.hbm j = memByte s.dev.hbm j := by
  intro key
  have size : key.length = 1184 := length_padTo ..
  refine (completes_sec_writes hs fresh free (ins := .getEk r) (op := 3) rfl (by decide) (bs := key) (us := []) (by rwa [size]) good
    confined_nil fun w woken => ?_).imp fun d ⟨ended, wrote, kept, _⟩ => ⟨ended, wrote, by rwa [size] at kept⟩
  change getEk w = _
  unfold getEk
  dsimp only
  rw [woken.secArg, if_neg (Nat.not_lt.2 fits), woken.reg _ _ (by decide)]
  simp only [inSequence, List.append_nil]
  rfl

end commands

/-! ### Tokens (R609, R610, R612) -/

theorem tokenFault_lt {d : Dev} {t : List Byte} {v : TokenVerdict} {formed : Bool} {why : Nat} (h : d.tokenFault t v formed = some why) : why < 256 := by
  unfold Dev.tokenFault at h
  split_ifs at h <;> cases h <;> decide

/-- The token that SEC_ARG names. -/
def Dev.token (d : Dev) : List Byte := (d.readHbm d.secArg tokenBytes).1

/-- Whether a token may be used (R610). -/
def Dev.mayToken (d : Dev) : Bool := decide (d.mode = stMaint) && !d.bit F.VAULT_CTL_INSTALL

section woken
variable {d w : Dev} (h : Woken d w) {v : TokenVerdict} {formed : List Byte → Bool} {k : List Byte → Act}
include h

theorem withToken_woken : withToken v formed k w =
    if d.mayToken = false then secDone 0x60 7
    else if d.inService d.secArg tokenBytes = false then secDone 0x10 8
    else match d.tokenFault d.token v (formed d.token) with
      | some reason => (useNonce ++ flagSec F.SEC_ERR_TOKEN) ++ secDone 0x10 reason
      | none => useNonce ++ k d.token (applyAll useNonce w) := by
  unfold withToken
  dsimp only
  rw [h.mode, h.bit (by decide), h.secArg, h.inService, h.readHbm, ← Dev.token, h.tokenFault]
  refine if_congr ?_ rfl (if_congr ?_ rfl ?_)
  · simp only [Dev.mayToken, Bool.or_eq_true, decide_eq_true_eq, Bool.and_eq_false_iff, decide_eq_false_iff_not, Bool.not_eq_false', ne_eq]
  · simp only [Bool.not_eq_true']
  · cases d.tokenFault d.token v (formed d.token) with
    | some reason => rfl
    | none => simp only [inSequence, List.append_nil]

end woken

theorem confined_useNonce : Confined [.regs, .secure] [.SEC_NONCE] useNonce := by
  refine (confined_cons ..).2 ⟨rfl, (confined_setNonce fun _ => 0).mono (by decide) (by decide)⟩

theorem useNonce_reads (d : Dev) : (applyAll useNonce d).secure = { d.secure with nonceLive := false } ∧
    ∀ i, i < 4 → (applyAll useNonce d).fld F.SEC_NONCE_NONCE i = 0 := by
  have parts : useNonce = [.secure fun s => { s with nonceLive := false }] ++ setNonce fun _ => 0 := rfl
  rw [parts, applyAll_append]
  refine ⟨?_, fun i hi => (setNonce_reads _ _ hi).trans (Nat.zero_mod _)⟩
  rw [keepAll_secure _ ((confined_setNonce _).leaves (by decide))]
  rfl

/-- The nonce has been consumed (R610). -/
def Dev.spent (d : Dev) : Prop := d.secure.nonceLive = false ∧ ∀ i, i < 4 → d.fld F.SEC_NONCE_NONCE i = 0

theorem spent_of_left {x d : Dev} (left : SecLeft x d) (h : x.spent) : d.spent :=
  ⟨by rw [left.secure]; exact h.1, fun i hi => (left.fld (by decide) i).trans (h.2 i hi)⟩

section tokens
variable {s : State} (hs : s.dev.steady) {r : Req} (fresh : s.dev.fresh r) {ins : Instr} {op : Nat} {v : TokenVerdict}
  (he : exec ins s = perform (onPower (serve r (waking (writeSecCmd op v)))) s) (free : s.dev.bit F.SEC_CMD_STATUS_BUSY = false)
  (known : op ∈ [1, 2, 3, 4, 5, 6]) {formed : List Byte → Bool} {k : List Byte → Act} (cmd : secCommand op v = withToken v formed k)
include hs fresh he free known cmd

theorem completes_token_closed (no : s.dev.mayToken = false) : Completes ins s fun d =>
    s.dev.secEnded d r 0x60 7 ∧ d.secure = s.dev.secure ∧ d.vault = s.dev.vault ∧ d.hbm = s.dev.hbm :=
  completes_sec_fails hs fresh he free (by decide) (by decide) known fun _ woken => by rw [cmd, withToken_woken woken, if_pos no]

variable (may : s.dev.mayToken = true)
include may

theorem completes_token_away (away : s.dev.inService s.dev.secArg tokenBytes = false) : Completes ins s fun d =>
    s.dev.secEnded d r 0x10 8 ∧ d.secure = s.dev.secure ∧ d.vault = s.dev.vault ∧ d.hbm = s.dev.hbm :=
  completes_sec_fails hs fresh he free (by decide) (by decide) known fun _ woken => by
    rw [cmd, withToken_woken woken, if_neg (by rw [may]; decide), if_pos away]

variable (placed : s.dev.inService s.dev.secArg tokenBytes = true)
include placed

theorem completes_token_bad {why : Nat} (fault : s.dev.tokenFault s.dev.token v (formed s.dev.token) = some why) : Completes ins s fun d =>
    s.dev.secEnded d r 0x10 why ∧ d.spent ∧ d.fld F.SEC_ERR_TOKEN = 1 ∧ d.vault = s.dev.vault ∧ d.hbm = s.dev.hbm ∧
      d.secure.owner = s.dev.secure.owner ∧ d.secure.secret = s.dev.secure.secret := by
  have flags := confined_flagSec (bit := F.SEC_ERR_TOKEN) rfl
  have both : Confined [.regs, .secure] [.SEC_NONCE, .SEC_ERR] (useNonce ++ flagSec F.SEC_ERR_TOKEN) :=
    (confined_append ..).2 ⟨confined_useNonce.mono (by decide) (by decide), flags.mono (by decide) (by decide)⟩
  refine completes_sec hs fresh he free (res := 0x10) (by decide) (tokenFault_lt fault) known (us := fun _ => useNonce ++ flagSec F.SEC_ERR_TOKEN)
    (fun w woken => ?_) (fun _ => both.mono (by decide) (by decide)) fun w d woken ended left => ?_
  · rw [cmd, withToken_woken woken, may, placed, fault]
    rfl
  · obtain ⟨secure, nonce⟩ := useNonce_reads w
    have kept : (applyAll (useNonce ++ flagSec F.SEC_ERR_TOKEN) w).secure = { s.dev.secure with nonceLive := false } := by
      rw [applyAll_append, keepAll_secure _ (flags.leaves (by decide)), secure, woken.secure]
    refine ⟨ended, spent_of_left left ⟨by rw [kept], fun i hi => ?_⟩, ?_, ?_, ?_, ?_, ?_⟩
    · rw [applyAll_append, flags.fld _ (by decide)]
      exact nonce i hi
    · rw [left.fld (by decide), applyAll_append]
      exact (fld_flagFault (bit := F.SEC_ERR_TOKEN) (faults := F.SEC_ERR_FAULTS) _ 0 rfl (by decide)).1
    · rw [left.vault, keepAll_vault _ (both.leaves (by decide)), woken.vault]
    · rw [left.hbm, keepAll_hbm _ (both.leaves (by decide)), woken.hbm]
    · rw [left.secure, kept]
    · rw [left.secure, kept]

end tokens

/-! ### INSTALL_OPEN (R610) -/

/-- The index of a slot. -/
def slotIx (slotB : Bool) : Nat := if slotB then 1 else 0

/-- Mark the named slots, and with a new secret both, not present. -/
def dropNamed (new : Bool) (slots : BitVec 8) : List Upd :=
  (if new || bitOf slots 0 then dropSlot false else []) ++ (if new || bitOf slots 1 then dropSlot true else [])

/-- Take the new secret of a token, if it carries one. -/
def takeSecret (new : Bool) (uid : BitVec 64) (t : List Byte) : List Upd :=
  if new then [.secure fun s => { s with secret := Config.decapsulate uid ((t.drop 64).take 1088) }, setF F.SEC_STATUS_OIS 0 1] else []

/-- Open the installation of the slots that a token names. -/
def openNamed (a b : Option (BitVec 16)) : List Upd :=
  [.secure fun s => { s with installA := a, installB := b }, .vault fun v => { v with staged := [], nextUnit := [] }, setF F.VAULT_CTL_INSTALL 0 1]

theorem confined_dropSlot (slotB : Bool) : Confined [.regs, .vault] [.VAULT_SLOT] (dropSlot slotB) := by
  simp only [dropSlot, confined_cons, confined_nil, and_true]
  exact ⟨rfl, rfl⟩

theorem fld_dropSlot (slotB c : Bool) (d : Dev) : (applyAll (dropSlot slotB) d).fld F.VAULT_SLOT_PRESENT (slotIx c) =
    if slotB = c then 0 else d.fld F.VAULT_SLOT_PRESENT (slotIx c) := by
  have marks (g : VaultSt → VaultSt) : Confined [.vault] [] [.vault g] := (confined_cons ..).2 ⟨rfl, confined_nil⟩
  rw [dropSlot, applyAll_cons, (marks _).fld _ List.not_mem_nil, ← slotIx]
  by_cases same : slotB = c
  · rw [if_pos same, same, fld_setF]
    rfl
  · rw [if_neg same, setF, apply_fld]
    refine fld_setFld_other _ _ _ _ (.inr (.inl ?_))
    revert same
    cases slotB <;> cases c <;> decide

theorem confined_dropNamed (new : Bool) (slots : BitVec 8) : Confined [.regs, .vault] [.VAULT_SLOT] (dropNamed new slots) := by
  simp only [dropNamed, confined_append, confined_ite, confined_nil, implies_true, and_true]
  exact ⟨fun _ => confined_dropSlot _, fun _ => confined_dropSlot _⟩

theorem dropNamed_reads (new : Bool) (slots : BitVec 8) (c : Bool) (d : Dev) :
    (applyAll (dropNamed new slots) d).fld F.VAULT_SLOT_PRESENT (slotIx c) =
      if new || bitOf slots (slotIx c) then 0 else d.fld F.VAULT_SLOT_PRESENT (slotIx c) := by
  have one (p : Bool) (slotB : Bool) (d : Dev) : (applyAll (if p then dropSlot slotB else []) d).fld F.VAULT_SLOT_PRESENT (slotIx c) =
      if p = true ∧ slotB = c then 0 else d.fld F.VAULT_SLOT_PRESENT (slotIx c) := by
    cases p with
    | false => rfl
    | true =>
      rw [if_pos rfl, fld_dropSlot]
      simp only [true_and]
  rw [dropNamed, applyAll_append, one, one]
  cases c with
  | false => simp [slotIx]
  | true => simp [slotIx]

theorem confined_takeSecret (new : Bool) (uid : BitVec 64) (t : List Byte) : Confined [.regs, .secure] [.SEC_STATUS] (takeSecret new uid t) := by
  simp only [takeSecret, confined_ite, confined_cons, confined_nil, implies_true, and_true]
  exact fun _ => ⟨rfl, rfl⟩

theorem takeSecret_reads (new : Bool) (uid : BitVec 64) (t : List Byte) (d : Dev) :
    (applyAll (takeSecret new uid t) d).bit F.SEC_STATUS_OIS = (new || d.bit F.SEC_STATUS_OIS) ∧
      (applyAll (takeSecret new uid t) d).secure =
        { d.secure with secret := if new then Config.decapsulate uid ((t.drop 64).take 1088) else d.secure.secret } := by
  cases new with
  | false => exact ⟨rfl, rfl⟩
  | true =>
    refine ⟨?_, rfl⟩
    rw [takeSecret, if_pos rfl, applyAll_cons, applyAll_cons, applyAll_nil, Dev.bit, fld_setF]
    rfl

theorem confined_openNamed (a b : Option (BitVec 16)) : Confined [.regs, .secure, .vault] [.VAULT_CTL] (openNamed a b) := by
  simp only [openNamed, confined_cons, confined_nil, and_true]
  exact ⟨rfl, rfl, rfl⟩

theorem openNamed_reads (a b : Option (BitVec 16)) (d : Dev) : (applyAll (openNamed a b) d).bit F.VAULT_CTL_INSTALL = true ∧
    (applyAll (openNamed a b) d).vault = { d.vault with staged := [], nextUnit := [] } ∧
    (applyAll (openNamed a b) d).secure = { d.secure with installA := a, installB := b } := by
  refine ⟨?_, rfl, rfl⟩
  rw [openNamed, applyAll_cons, applyAll_cons, applyAll_cons, applyAll_nil, Dev.bit, fld_setF]
  rfl

/-- The generation that a token names for a slot, if it names the slot. -/
def namedGen (t : List Byte) (slotB : Bool) : Option (BitVec 16) :=
  if bitOf (byteOf t 48) (slotIx slotB) then some (BitVec.ofNat 16 (leNat ((t.drop (if slotB then 52 else 50)).take 2))) else none

/-- Whether a token carries a new secret. -/
def newSecret (t : List Byte) : Bool := decide (byteOf t 49 ≠ 0)

/-- What an installation token that passes its checks does. -/
def openInstall (t : List Byte) : Act := fun d =>
  if newSecret t = false ∧ d.bit F.SEC_STATUS_OIS = false then secDone 0x10 0
  else takeSecret (newSecret t) (BitVec.ofNat 64 (d.reg .SEC_UID)) t ++ dropNamed (newSecret t) (byteOf t 48) ++
    openNamed (namedGen t false) (namedGen t true) ++ secDone 0 0

theorem installOpen_eq (v : TokenVerdict) : installOpen v = withToken v installFormed openInstall := by
  unfold installOpen
  congr 1
  funext t d
  have opened : openNamed (namedGen t false) (namedGen t true) = [Upd.secure (fun s => { s with
      installA := if bitOf (byteOf t 48) 0 then some (BitVec.ofNat 16 (leNat ((t.drop 50).take 2))) else none
      installB := if bitOf (byteOf t 48) 1 then some (BitVec.ofNat 16 (leNat ((t.drop 52).take 2))) else none }),
      Upd.vault (fun v => { v with staged := [], nextUnit := [] }), setF F.VAULT_CTL_INSTALL 0 1] := rfl
  unfold openInstall
  dsimp only
  rw [opened, ← newSecret]
  refine if_congr (by simp only [Bool.and_eq_true, Bool.not_eq_true']) rfl ?_
  cases newSecret t with
  | false => simp only [takeSecret, dropNamed, Bool.false_or, Bool.false_eq_true, if_false, List.nil_append, List.append_assoc, List.cons_append]
  | true => rfl

section opens
variable {s : State} (hs : s.dev.steady) {r : Req} (fresh : s.dev.fresh r) (free : s.dev.bit F.SEC_CMD_STATUS_BUSY = false) {v : TokenVerdict}
  (may : s.dev.mayToken = true) (placed : s.dev.inService s.dev.secArg tokenBytes = true)
  (good : s.dev.tokenFault s.dev.token v (installFormed s.dev.token) = none)
include hs fresh free may placed good

omit hs fresh free in
theorem installOpen_woken {w : Dev} (woken : Woken s.dev w) : secCommand 4 v w = useNonce ++ openInstall s.dev.token (applyAll useNonce w) := by
  change installOpen v w = _
  rw [installOpen_eq, withToken_woken woken, may, placed, good]
  rfl

theorem completes_installOpen_secretless (old : newSecret s.dev.token = false) (none_ : s.dev.bit F.SEC_STATUS_OIS = false) :
    Completes (.installOpen r v) s fun d => s.dev.secEnded d r 0x10 0 ∧ d.spent ∧ d.bit F.VAULT_CTL_INSTALL = false ∧ d.vault = s.dev.vault := by
  have shut : s.dev.bit F.VAULT_CTL_INSTALL = false := by
    simp only [Dev.mayToken, Bool.and_eq_true, Bool.not_eq_true'] at may
    exact may.2
  refine completes_sec hs fresh (op := 4) (v := v) rfl free (by decide) (by decide) (us := fun _ => useNonce) (by decide)
    (fun w woken => (installOpen_woken may placed good woken).trans ?_) (fun _ => confined_useNonce.mono (by decide) (by decide))
    fun w d woken ended left => ⟨ended, spent_of_left left ?_, ?_, ?_⟩
  · have unsealed : (applyAll useNonce w).bit F.SEC_STATUS_OIS = false := by
      rw [Dev.bit, confined_useNonce.fld _ (by decide), ← Dev.bit, woken.bit (by decide), none_]
    rw [openInstall, if_pos ⟨old, unsealed⟩]
  · obtain ⟨secure, nonce⟩ := useNonce_reads w
    exact ⟨by rw [secure], nonce⟩
  · rw [left.bit (by decide), Dev.bit, confined_useNonce.fld _ (by decide), ← Dev.bit, woken.bit (by decide), shut]
  · rw [left.vault, keepAll_vault _ (confined_useNonce.leaves (by decide)), woken.vault]

/-- What INSTALL_OPEN makes of a module. -/
def openUpds (uid : BitVec 64) (t : List Byte) : List Upd :=
  useNonce ++ (takeSecret (newSecret t) uid t ++ dropNamed (newSecret t) (byteOf t 48) ++ openNamed (namedGen t false) (namedGen t true))

theorem completes_installOpen (secret : newSecret s.dev.token = true ∨ s.dev.bit F.SEC_STATUS_OIS = true) :
    let t := s.dev.token
    let uid := BitVec.ofNat 64 (s.dev.reg .SEC_UID)
    Completes (.installOpen r v) s fun d => s.dev.secEnded d r 0 0 ∧ d.spent ∧
      d.bit F.VAULT_CTL_INSTALL = true ∧ d.vault.staged = [] ∧ d.vault.nextUnit = [] ∧ d.bit F.SEC_STATUS_OIS = true ∧
      d.secure.installA = namedGen t false ∧ d.secure.installB = namedGen t true ∧
      d.secure.secret = (if newSecret t then Config.decapsulate uid ((t.drop 64).take 1088) else s.dev.secure.secret) ∧
      ∀ c, d.fld F.VAULT_SLOT_PRESENT (slotIx c) =
        if newSecret t || bitOf (byteOf t 48) (slotIx c) then 0 else s.dev.fld F.VAULT_SLOT_PRESENT (slotIx c) := by
  intro t uid
  have taken := confined_takeSecret (newSecret t) uid t
  have drops := confined_dropNamed (newSecret t) (byteOf t 48)
  have opens := confined_openNamed (namedGen t false) (namedGen t true)
  have all : Confined secParts secRegs (openUpds uid t) := by
    simp only [openUpds, confined_append]
    exact ⟨confined_useNonce.mono (by decide) (by decide), ⟨taken.mono (by decide) (by decide), drops.mono (by decide) (by decide)⟩,
      opens.mono (by decide) (by decide)⟩
  refine completes_sec hs fresh (op := 4) (v := v) rfl free (res := 0) (why := 0) (by decide) (by decide) (us := fun _ => openUpds uid t) (by decide)
    (fun w woken => (installOpen_woken may placed good woken).trans ?_) (fun _ => all) fun w d woken ended left => ?_
  · have ois : (applyAll useNonce w).bit F.SEC_STATUS_OIS = s.dev.bit F.SEC_STATUS_OIS := by
      rw [Dev.bit, confined_useNonce.fld _ (by decide), ← Dev.bit, woken.bit (by decide)]
    have id : (applyAll useNonce w).reg .SEC_UID 0 = s.dev.reg .SEC_UID 0 := by
      rw [confined_useNonce.reg _ (by decide), woken.reg _ _ (by decide)]
    rw [openInstall, if_neg, id, openUpds, List.append_assoc useNonce]
    rw [ois]
    rintro ⟨old, none_⟩
    rw [old, none_] at secret
    exact absurd secret (by decide)
  · obtain ⟨secure0, nonce0⟩ := useNonce_reads w
    obtain ⟨ois, secure1⟩ := takeSecret_reads (newSecret t) uid t (applyAll useNonce w)
    have present := fun c => dropNamed_reads (newSecret t) (byteOf t 48) c (applyAll (takeSecret (newSecret t) uid t) (applyAll useNonce w))
    obtain ⟨opened, vault, secure2⟩ := openNamed_reads (namedGen t false) (namedGen t true)
      (applyAll (dropNamed (newSecret t) (byteOf t 48)) (applyAll (takeSecret (newSecret t) uid t) (applyAll useNonce w)))
    have secure : d.secure = { s.dev.secure with
        nonceLive := false, installA := namedGen t false, installB := namedGen t true,
        secret := if newSecret t then Config.decapsulate uid ((t.drop 64).take 1088) else s.dev.secure.secret } := by
      rw [left.secure, openUpds, applyAll_append, applyAll_append, applyAll_append, secure2, keepAll_secure _ (drops.leaves (by decide)), secure1,
        secure0, woken.secure]
    have fld {f : Fld} (i : Nat) (hf : f.reg ∈ secRegs) (away : f.reg ∉ [Reg.VAULT_CTL]) : d.fld f i = (applyAll (dropNamed (newSecret t) (byteOf t 48))
        (applyAll (takeSecret (newSecret t) uid t) (applyAll useNonce w))).fld f i := by
      rw [left.fld hf, openUpds, applyAll_append, applyAll_append, applyAll_append, opens.fld _ away]
    have vaulted := left.vault
    rw [openUpds, applyAll_append, applyAll_append, applyAll_append, vault] at vaulted
    refine ⟨ended, ⟨by rw [secure], fun i hi => ?_⟩, ?_, by rw [vaulted], by rw [vaulted], ?_, by rw [secure], by rw [secure], by rw [secure], fun c => ?_⟩
    · rw [fld i (by decide) (by decide), drops.fld _ (by decide), taken.fld _ (by decide), nonce0 i hi]
    · rw [left.bit (by decide), openUpds, applyAll_append, applyAll_append, applyAll_append, opened]
    · rw [Dev.bit, fld 0 (by decide) (by decide), drops.fld _ (by decide), ← Dev.bit, ois, Dev.bit, confined_useNonce.fld _ (by decide), ← Dev.bit,
        woken.bit (by decide)]
      rcases secret with new | has
      · rw [new, Bool.true_or]
      · rw [has, Bool.or_true]
    · rw [fld _ (by decide) (by decide), present, taken.fld _ (by decide), confined_useNonce.fld _ (by decide), woken.fld (by decide)]

end opens

end Sys2Proof.Machine
end

