-- ==== Sys2Proof/Proofs/InstallationEnd.lean ====
section
/-! PROOFS. INSTALL_CLOSE and OWNER_TRANSFER (R221, R571, R611, R612, R616). -/

namespace Sys2Proof.Machine

/-! ### The steps of INSTALL_CLOSE (R611) -/

/-- The bytes that a stream of a slot has staged. -/
def Dev.stagedOf (d : Dev) (slotB manifest : Bool) : List Byte := mapGet (fun _ => []) d.vault.staged (streamIx slotB manifest)

/-- What INSTALL_CLOSE writes of a slot: present with its size and generation where its manifest has come. -/
def putNamed (slotB : Bool) : Option (BitVec 16) → Act
  | some g => putSlot slotB g
  | none => noAct

/-- The steps of INSTALL_CLOSE before its status. -/
def closeSteps (a b : Option (BitVec 16)) : List Act :=
  [lastGroup false, lastGroup true, wear, putNamed false a, putNamed true b, closeOnly]

/-- Whether a named slot has received no manifest. -/
def Dev.missing (d : Dev) (slotB : Bool) : Bool :=
  (if slotB then d.secure.installB else d.secure.installA).isSome && (d.stagedOf slotB true).isEmpty

theorem inSequence_last (as : List Act) (us : List Upd) (d : Dev) : inSequence (as ++ [fun _ => us]) d = inSequence as d ++ us := by
  induction as generalizing d with
  | nil => exact List.append_nil _
  | cons a as ih => rw [List.cons_append, inSequence, inSequence, ih, List.append_assoc]

theorem installClose_eq {d : Dev} (opened : d.bit F.VAULT_CTL_INSTALL = true) : installClose d =
    inSequence (closeSteps d.secure.installA d.secure.installB) d ++ secDone (if d.missing false || d.missing true then 0x10 else 0) 0 := by
  rw [← inSequence_last]
  unfold installClose
  dsimp only
  rw [opened]
  rfl

/-! What the last groups leave. -/

theorem confines_lastGroup (slotB : Bool) : Confines [.vault, .regs] [.VAULT_WEAR] (lastGroup slotB) := fun d => by
  simp only [lastGroup, confined_ite, confined_nil, implies_true, true_and]
  exact fun _ => confines_inSequence_cons ((confines_writeGroup _ _).mono (by decide) (by decide))
    (confines_inSequence_cons (as := []) (fun _ => (confined_cons ..).2 ⟨rfl, confined_nil⟩) Confines.nil) d

/-- The last group of a slot leaves the counts of what has come, and the manifests. -/
theorem lastGroup_reads (slotB : Bool) (d : Dev) : (runAct (lastGroup slotB) d).vault.nextUnit = d.vault.nextUnit ∧
    ∀ c, (runAct (lastGroup slotB) d).stagedOf c true = d.stagedOf c true := by
  have other (c : Bool) : streamIx c true ≠ streamIx slotB false := by cases c <;> cases slotB <;> decide
  have put (g : Nat) (bs : List Byte) : (runAct (writeGroup g bs) d).vault.staged = d.vault.staged := by
    have kept : Keeps (fun d => d.vault.staged) (writeGroup g bs d) := by
      simp only [writeGroup, keeps_ite]
      exact ⟨fun _ => keeps_nil, fun _ => (keeps_cons ..).2 ⟨fun _ => rfl, keeps_nil⟩⟩
    rw [runAct_eq]
    exact kept.eq d
  unfold lastGroup
  dsimp only
  rw [runAct_eq]
  split
  · exact ⟨rfl, fun _ => rfl⟩
  · rw [← runAct_eq, runAct_inSequence_cons, runAct_inSequence_cons, runAct_inSequence_nil]
    refine ⟨nextUnit_writeGroup _ _ d, fun c => ?_⟩
    have cleared (e : Dev) : (applyAll [.vault fun v => { v with staged := mapSet (fun _ => []) (streamIx slotB false) [] v.staged }] e).stagedOf c true =
        e.stagedOf c true := mapGet_mapSet_other (fun _ => []) [] e.vault.staged (other c)
    rw [runAct_list, cleared, Dev.stagedOf, put, ← Dev.stagedOf]

/-! What the slots written leave. -/

/-- What stands in the vault beside its slots: the streams, their counts and the manifests. -/
def Dev.streams (d : Dev) : SMap (List Byte) × SMap Nat × SMap (List Byte) := (d.vault.staged, d.vault.nextUnit, d.vault.manifest)

theorem confines_putNamed (slotB : Bool) (g : Option (BitVec 16)) : Confines [.vault, .regs] [.VAULT_SLOT] (putNamed slotB g) := fun d => by
  cases g with
  | none => exact confined_nil
  | some g =>
    simp only [putNamed, putSlot, confined_ite, confined_cons, confined_nil, and_true]
    refine ⟨fun _ => rfl, fun _ => confines_inSequence_cons (fun _ => ?_)
      (confines_inSequence_cons (as := []) (fun _ => (confined_cons ..).2 ⟨rfl, confined_nil⟩) Confines.nil) d⟩
    simp only [confined_cons, confined_nil, and_true]
    exact ⟨rfl, rfl, rfl⟩

theorem streams_setF (f : Fld) (i v : Nat) (e : Dev) : ((setF f i v).apply e).streams = e.streams := rfl

theorem keeps_putNamed (slotB : Bool) (g : Option (BitVec 16)) (d : Dev) : Keeps Dev.streams (putNamed slotB g d) := by
  cases g with
  | none => exact keeps_nil
  | some g =>
    simp only [putNamed, putSlot, keeps_ite]
    refine ⟨fun _ => (keeps_cons ..).2 ⟨streams_setF _ _ _, keeps_nil⟩, fun _ => keeps_inSequence (fun a ha d => ?_) d⟩
    simp only [List.mem_cons, List.not_mem_nil, or_false] at ha
    rcases ha with rfl | rfl
    · simp only [keeps_cons, keeps_nil, and_true]
      exact ⟨streams_setF _ _ _, streams_setF _ _ _, streams_setF _ _ _⟩
    · exact (keeps_cons ..).2 ⟨fun e => by cases slotB <;> rfl, keeps_nil⟩

/-- The other slot keeps its register. -/
theorem reg_putNamed_other {slotB c : Bool} (h : c ≠ slotB) (g : Option (BitVec 16)) (d : Dev) :
    (runAct (putNamed slotB g) d).reg .VAULT_SLOT (slotIx c) = d.reg .VAULT_SLOT (slotIx c) := by
  have apart : slotIx c % regCopies ≠ slotIx slotB % regCopies := by
    revert h
    cases slotB <;> cases c <;> decide
  have set (f : Fld) (v : Nat) (e : Dev) : ((setF f (slotIx slotB) v).apply e).reg .VAULT_SLOT (slotIx c) = e.reg .VAULT_SLOT (slotIx c) :=
    reg_setFld_other e f (slotIx slotB) _ (.inr apart)
  cases g with
  | none => rfl
  | some g =>
    have mark (k : VaultSt → VaultSt) (e : Dev) : (applyAll [.vault k] e).reg .VAULT_SLOT (slotIx c) = e.reg .VAULT_SLOT (slotIx c) :=
      Confined.reg ((confined_cons ..).2 ⟨rfl, confined_nil⟩) (ps := [.vault]) (rs := []) e List.not_mem_nil _
    rw [putNamed, runAct_eq]
    unfold putSlot
    dsimp only
    rw [← slotIx]
    split
    · rw [applyAll_cons, applyAll_nil, set]
    · rw [← runAct_eq, runAct_inSequence_cons, runAct_inSequence_cons, runAct_inSequence_nil, runAct_eq, runAct_list, mark, applyAll_cons,
        applyAll_cons, applyAll_cons, applyAll_nil, set, set, set]

/-- A slot whose manifest has come is present, with its generation and its size; one whose manifest has not is not. -/
theorem putNamed_reads (slotB : Bool) (g : BitVec 16) (d : Dev) :
    let e := runAct (putNamed slotB (some g)) d
    ((d.stagedOf slotB true).isEmpty = true → e.fld F.VAULT_SLOT_PRESENT (slotIx slotB) = 0) ∧
    ((d.stagedOf slotB true).isEmpty = false → e.fld F.VAULT_SLOT_PRESENT (slotIx slotB) = 1 ∧
      e.fld F.VAULT_SLOT_GEN (slotIx slotB) = g.toNat ∧ e.fld F.VAULT_SLOT_SIZE (slotIx slotB) =
        (mapGet (fun _ => 0) d.vault.nextUnit (streamIx slotB false) + groupBytes - 1) / groupBytes % 2 ^ 23) := by
  intro e
  have act : putNamed slotB (some g) d = if (d.stagedOf slotB true).isEmpty = true then [setF F.VAULT_SLOT_PRESENT (slotIx slotB) 0] else
      putSlot slotB g d := by
    rw [putNamed, putSlot, Dev.stagedOf, slotIx]
    split
    · rfl
    · rfl
  have mark (f : Fld) (k : VaultSt → VaultSt) (x : Dev) : (applyAll [.vault k] x).fld f (slotIx slotB) = x.fld f (slotIx slotB) :=
    Confined.fld ((confined_cons ..).2 ⟨rfl, confined_nil⟩) (ps := [.vault]) (rs := []) x List.not_mem_nil _
  refine ⟨fun empty => ?_, fun full => ?_⟩
  · rw [show e = applyAll (putNamed slotB (some g) d) d from runAct_eq _ _, act, if_pos empty, applyAll_cons, applyAll_nil, fld_setF]
    rfl
  · have run (f : Fld) : e.fld f (slotIx slotB) = (applyAll [setF F.VAULT_SLOT_PRESENT (slotIx slotB) 1, setF F.VAULT_SLOT_GEN (slotIx slotB) g.toNat,
        setF F.VAULT_SLOT_SIZE (slotIx slotB) ((mapGet (fun _ => 0) d.vault.nextUnit (streamIx slotB false) + groupBytes - 1) / groupBytes)] d).fld f
          (slotIx slotB) := by
      rw [show e = applyAll (putNamed slotB (some g) d) d from runAct_eq _ _, act, if_neg (Bool.eq_false_iff.1 full), putSlot, ← Dev.stagedOf,
        if_neg (Bool.eq_false_iff.1 full), ← runAct_eq, runAct_inSequence_cons, runAct_inSequence_cons, runAct_inSequence_nil, runAct_eq, runAct_list, mark,
        ← slotIx]
    refine ⟨?_, ?_, ?_⟩
    all_goals rw [run]
    all_goals simp (disch := exact of_decide_eq_true rfl) only [applyAll_cons, applyAll_nil, fld_apply_spared, fld_setF]
    · rfl
    · exact Nat.mod_eq_of_lt g.isLt

/-! What the end of the installation leaves. -/

theorem confines_putManifest (slotB : Bool) : Confines [.vault] [] (putManifest slotB) := fun d => by
  simp only [putManifest, confined_ite, confined_cons, confined_nil, implies_true, true_and, and_true]
  exact fun _ => rfl

theorem confines_closeOnly : Confines [.regs, .secure, .vault] [.VAULT_CTL] closeOnly := by
  refine confines_inSequence_cons ((confines_putManifest _).mono (by decide) (by decide)) (confines_inSequence_cons
    ((confines_putManifest _).mono (by decide) (by decide)) (confines_inSequence_cons (as := []) (fun _ => ?_) Confines.nil))
  simp only [confined_cons, confined_nil, and_true]
  exact ⟨rfl, rfl, rfl⟩

/-- A manifest that has come is kept for its slot. -/
theorem putManifest_reads (slotB : Bool) (d : Dev) : (runAct (putManifest slotB) d).vault.staged = d.vault.staged ∧
    ∀ c, mapGet (fun _ => []) (runAct (putManifest slotB) d).vault.manifest (slotIx c) =
      if slotB = c ∧ (d.stagedOf slotB true).isEmpty = false then d.stagedOf slotB true else mapGet (fun _ => []) d.vault.manifest (slotIx c) := by
  have act : putManifest slotB d = if (d.stagedOf slotB true).isEmpty = true then [] else
      [.vault fun v => { v with manifest := mapSet (fun _ => []) (slotIx slotB) (d.stagedOf slotB true) v.manifest }] := rfl
  rw [runAct_eq, act]
  by_cases empty : (d.stagedOf slotB true).isEmpty = true
  · rw [if_pos empty, applyAll_nil]
    exact ⟨rfl, fun c => by rw [if_neg fun h => by rw [h.2] at empty; cases empty]⟩
  · rw [if_neg empty]
    refine ⟨rfl, fun c => (mapGet_mapSet (fun _ => []) (slotIx slotB) (slotIx c) (d.stagedOf slotB true) d.vault.manifest).trans (if_congr ?_ rfl rfl)⟩
    rw [Bool.not_eq_true] at empty
    rw [empty]
    cases slotB <;> cases c <;> decide

theorem closeOnly_reads (d : Dev) : (runAct closeOnly d).bit F.VAULT_CTL_INSTALL = false ∧ (runAct closeOnly d).secure.installA = none ∧
    (runAct closeOnly d).secure.installB = none ∧ (runAct closeOnly d).vault.staged = [] ∧
    ∀ c, (d.stagedOf c true).isEmpty = false → mapGet (fun _ => []) (runAct closeOnly d).vault.manifest (slotIx c) = d.stagedOf c true := by
  obtain ⟨staged0, manifest0⟩ := putManifest_reads false d
  obtain ⟨staged1, manifest1⟩ := putManifest_reads true (runAct (putManifest false) d)
  have same : (runAct (putManifest false) d).stagedOf true true = d.stagedOf true true := by rw [Dev.stagedOf, staged0, ← Dev.stagedOf]
  rw [closeOnly, runAct_inSequence_cons, runAct_inSequence_cons, runAct_inSequence_cons, runAct_inSequence_nil, runAct_list]
  generalize runAct (putManifest true) (runAct (putManifest false) d) = e at *
  refine ⟨?_, rfl, rfl, rfl, fun c full => ?_⟩
  · have marks (f : SecureSt → SecureSt) (g : VaultSt → VaultSt) : Confined [.secure, .vault] [] [.secure f, .vault g] := by
      simp only [confined_cons, confined_nil, and_true]
      exact ⟨rfl, rfl⟩
    rw [applyAll_cons, Dev.bit, (marks _ _).fld _ List.not_mem_nil, fld_setF]
    rfl
  · refine (manifest1 c).trans ?_
    rw [same, manifest0]
    cases c with
    | false => rw [if_neg (by simp), if_pos ⟨rfl, full⟩]
    | true => rw [if_pos ⟨rfl, full⟩]

/-! ### INSTALL_CLOSE -/

theorem confines_closeSteps (a b : Option (BitVec 16)) : Confines secParts secRegs (inSequence (closeSteps a b)) :=
  confines_inSequence_cons ((confines_lastGroup _).mono (by decide) (by decide)) <|
    confines_inSequence_cons ((confines_lastGroup _).mono (by decide) (by decide)) <|
    confines_inSequence_cons (confines_wear.mono (by decide) (by decide)) <|
    confines_inSequence_cons ((confines_putNamed _ _).mono (by decide) (by decide)) <|
    confines_inSequence_cons ((confines_putNamed _ _).mono (by decide) (by decide)) <|
    confines_inSequence_cons (as := []) (confines_closeOnly.mono (by decide) (by decide)) Confines.nil

/-- What the end of an installation leaves of a slot (R611). -/
structure SlotClosed (d e : Dev) (slotB : Bool) (named : Option (BitVec 16)) : Prop where
  unnamed : named = none → e.reg .VAULT_SLOT (slotIx slotB) = d.reg .VAULT_SLOT (slotIx slotB)
  missing : named.isSome = true → (d.stagedOf slotB true).isEmpty = true → e.fld F.VAULT_SLOT_PRESENT (slotIx slotB) = 0
  put : ∀ g, named = some g → (d.stagedOf slotB true).isEmpty = false → e.fld F.VAULT_SLOT_PRESENT (slotIx slotB) = 1 ∧
    e.fld F.VAULT_SLOT_GEN (slotIx slotB) = g.toNat ∧ mapGet (fun _ => []) e.vault.manifest (slotIx slotB) = d.stagedOf slotB true ∧
    e.fld F.VAULT_SLOT_SIZE (slotIx slotB) =
      (mapGet (fun _ => 0) d.vault.nextUnit (streamIx slotB false) + groupBytes - 1) / groupBytes % 2 ^ 23

theorem slotClosed {d x e : Dev} {slotB : Bool} {named : Option (BitVec 16)} (before : x.reg .VAULT_SLOT (slotIx slotB) = d.reg .VAULT_SLOT (slotIx slotB))
    (staged : x.stagedOf slotB true = d.stagedOf slotB true) (next : x.vault.nextUnit = d.vault.nextUnit)
    (after : e.reg .VAULT_SLOT (slotIx slotB) = (runAct (putNamed slotB named) x).reg .VAULT_SLOT (slotIx slotB))
    (manifest : (d.stagedOf slotB true).isEmpty = false → mapGet (fun _ => []) e.vault.manifest (slotIx slotB) = d.stagedOf slotB true) :
    SlotClosed d e slotB named := by
  have read {f : Fld} (hf : f.reg = .VAULT_SLOT) : e.fld f (slotIx slotB) = (runAct (putNamed slotB named) x).fld f (slotIx slotB) := by
    simp only [Dev.fld, hf, after]
  refine ⟨fun none_ => ?_, fun given empty => ?_, fun g given full => ?_⟩
  · rw [after, none_, ← before]
    rfl
  · obtain ⟨g, rfl⟩ := Option.isSome_iff_exists.1 given
    exact (read rfl).trans ((putNamed_reads slotB g x).1 (by rw [staged, empty]))
  · subst given
    obtain ⟨present, gen, size⟩ := (putNamed_reads slotB g x).2 (by rw [staged, full])
    exact ⟨(read rfl).trans present, (read rfl).trans gen, manifest full, (read rfl).trans (size.trans (by rw [next]))⟩

theorem closeSteps_reads (a b : Option (BitVec 16)) (d : Dev) :
    let e := runAct (inSequence (closeSteps a b)) d
    e.bit F.VAULT_CTL_INSTALL = false ∧ e.secure.installA = none ∧ e.secure.installB = none ∧ e.vault.staged = [] ∧
      SlotClosed d e false a ∧ SlotClosed d e true b := by
  rw [closeSteps, runAct_inSequence_cons, runAct_inSequence_cons, runAct_inSequence_cons, runAct_inSequence_cons, runAct_inSequence_cons,
    runAct_inSequence_cons, runAct_inSequence_nil]
  generalize run : runAct closeOnly (runAct (putNamed true b) (runAct (putNamed false a)
    (runAct wear (runAct (lastGroup true) (runAct (lastGroup false) d))))) = e
  obtain ⟨next1, staged1⟩ := lastGroup_reads false d
  obtain ⟨next2, staged2⟩ := lastGroup_reads true (runAct (lastGroup false) d)
  have reg1 (i : Nat) : (runAct (lastGroup false) d).reg .VAULT_SLOT i = d.reg .VAULT_SLOT i := by
    rw [(confines_lastGroup false).reg (r := .VAULT_SLOT) _ (by decide)]
  have reg2 (i : Nat) : (runAct (lastGroup true) (runAct (lastGroup false) d)).reg .VAULT_SLOT i = d.reg .VAULT_SLOT i := by
    rw [(confines_lastGroup true).reg (r := .VAULT_SLOT) _ (by decide), reg1]
  generalize runAct (lastGroup true) (runAct (lastGroup false) d) = x at *
  have vault3 : (runAct wear x).vault = x.vault := by rw [runAct_eq, vault_wear]
  have reg3 (i : Nat) : (runAct wear x).reg .VAULT_SLOT i = d.reg .VAULT_SLOT i := by
    rw [confines_wear.reg (r := .VAULT_SLOT) _ (by decide), reg2]
  have staged3 (c : Bool) : (runAct wear x).stagedOf c true = d.stagedOf c true := by
    rw [Dev.stagedOf, vault3, ← Dev.stagedOf, staged2, staged1]
  have next3 : (runAct wear x).vault.nextUnit = d.vault.nextUnit := by rw [vault3, next2, next1]
  generalize runAct wear x = y at *
  have streams4 : (runAct (putNamed false a) y).streams = y.streams := by
    rw [runAct_eq]
    exact (keeps_putNamed false a y).eq y
  have streams5 : (runAct (putNamed true b) (runAct (putNamed false a) y)).streams = y.streams := by
    rw [runAct_eq (putNamed true b)]
    exact ((keeps_putNamed true b _).eq _).trans streams4
  have staged (z : Dev) (h : z.streams = y.streams) (c : Bool) : z.stagedOf c true = d.stagedOf c true := by
    rw [← staged3, Dev.stagedOf, show z.vault.staged = y.vault.staged from congrArg Prod.fst h, ← Dev.stagedOf]
  obtain ⟨shut, noA, noB, cleared, manifest⟩ := closeOnly_reads (runAct (putNamed true b) (runAct (putNamed false a) y))
  have reg6 (i : Nat) : e.reg .VAULT_SLOT i = (runAct (putNamed true b) (runAct (putNamed false a) y)).reg .VAULT_SLOT i := by
    rw [← run, confines_closeOnly.reg (r := .VAULT_SLOT) _ (by decide)]
  have kept (c : Bool) (full : (d.stagedOf c true).isEmpty = false) : mapGet (fun _ => []) e.vault.manifest (slotIx c) = d.stagedOf c true := by
    rw [← run, manifest c (by rw [staged _ streams5, full]), staged _ streams5]
  rw [run] at shut noA noB cleared
  refine ⟨shut, noA, noB, cleared, slotClosed (reg3 _) (staged3 _) next3 ?_ (kept false), slotClosed ?_ (staged _ streams4 _) ?_ (reg6 _) (kept true)⟩
  · rw [reg6, reg_putNamed_other (by decide)]
  · rw [reg_putNamed_other (by decide), reg3]
  · exact (congrArg (fun m => m.2.1) streams4).trans next3

section closes
variable {s : State} (hs : s.dev.steady) {r : Req} (fresh : s.dev.fresh r) (free : s.dev.bit F.SEC_CMD_STATUS_BUSY = false)
include hs fresh free

theorem completes_installClose_shut (shut : s.dev.bit F.VAULT_CTL_INSTALL = false) : Completes (.installClose r) s fun d =>
    s.dev.secEnded d r 0x60 7 ∧ d.secure = s.dev.secure ∧ d.vault = s.dev.vault ∧ d.hbm = s.dev.hbm := by
  refine completes_sec_fails hs fresh (op := 5) (v := noVerdict) rfl free (by decide) (by decide) (by decide) fun w woken => ?_
  change installClose w = _
  unfold installClose
  dsimp only
  rw [woken.bit (by decide), shut]
  rfl

theorem completes_installClose (opened : s.dev.bit F.VAULT_CTL_INSTALL = true) : Completes (.installClose r) s fun d =>
    s.dev.secEnded d r (if s.dev.missing false || s.dev.missing true then 0x10 else 0) 0 ∧ d.bit F.VAULT_CTL_INSTALL = false ∧
      d.secure.installA = none ∧ d.secure.installB = none ∧ d.vault.staged = [] ∧
      SlotClosed s.dev d false s.dev.secure.installA ∧ SlotClosed s.dev d true s.dev.secure.installB := by
  have code : (if s.dev.missing false || s.dev.missing true then 0x10 else 0) < 256 := by split <;> decide
  refine completes_sec hs fresh (op := 5) (v := noVerdict) rfl free code (why := 0) (by decide)
    (us := inSequence (closeSteps s.dev.secure.installA s.dev.secure.installB)) (by decide) (fun w woken => ?_) (confines_closeSteps _ _)
    fun w d woken ended left => ⟨ended, ?_⟩
  · have missing (c : Bool) : w.missing c = s.dev.missing c := by rw [Dev.missing, woken.secure, Dev.stagedOf, woken.vault, ← Dev.stagedOf, ← Dev.missing]
    rw [← woken.secure, ← missing false, ← missing true]
    exact installClose_eq (by rw [woken.bit (by decide), opened])
  · obtain ⟨shut, noA, noB, cleared, first, second⟩ := closeSteps_reads s.dev.secure.installA s.dev.secure.installB w
    rw [runAct_eq] at shut noA noB cleared first second
    have carries {c : Bool} {g : Option (BitVec 16)}
        (h : SlotClosed w (applyAll (inSequence (closeSteps s.dev.secure.installA s.dev.secure.installB) w) w) c g) : SlotClosed s.dev d c g := by
      have same : w.stagedOf c true = s.dev.stagedOf c true := by rw [Dev.stagedOf, woken.vault, ← Dev.stagedOf]
      obtain ⟨unnamed, missing, put⟩ := h
      refine ⟨fun none_ => ?_, fun given empty => ?_, fun g given full => ?_⟩
      · rw [left.reg _ (by decide), unnamed none_, woken.reg _ _ (by decide)]
      · rw [left.fld (by decide), missing given (by rw [same, empty])]
      · obtain ⟨present, gen, manifest, size⟩ := put g given (by rw [same, full])
        refine ⟨?_, ?_, ?_, ?_⟩
        · rw [left.fld (by decide), present]
        · rw [left.fld (by decide), gen]
        · rw [left.vault, manifest, same]
        · rw [left.fld (by decide), size, woken.vault]
    refine ⟨?_, ?_, ?_, ?_, carries first, carries second⟩
    · rw [left.bit (by decide), shut]
    · rw [left.secure, noA]
    · rw [left.secure, noB]
    · rw [left.vault, cleared]

end closes

/-! ### OWNER_TRANSFER (R612) -/

/-- What an owner token that passes its checks does before the reset: the new owner's keys, no secret and no slot. -/
def takeOwner (t : List Byte) : List Upd :=
  Upd.secure (fun s => { s with owner := Config.sha384 ((t.drop 48).take 96), secret := 0 }) :: setF F.SEC_STATUS_OIS 0 0 ::
    satF F.SEC_STATUS_TRANSFERS 0 1 :: (dropSlot false ++ dropSlot true ++ secDone 0 0)

/-- HBM is cleared, and the module restarts. -/
def coldReset : List Upd := [Upd.hbmZero, .restart false, setF F.BOARD_STATUS_CAUSE 0 4]

theorem ownerTransfer_eq (v : TokenVerdict) : ownerTransfer v = withToken v ownerFormed fun t _ => takeOwner t ++ coldReset := rfl

/-- A vault whose slots are marked not present. -/
structure SlotsGone (v : VaultSt) : Prop where
  first : wordFld v.slotA F.VAULT_SLOT_PRESENT = 0
  second : wordFld v.slotB F.VAULT_SLOT_PRESENT = 0

theorem present_cleared (w : BitVec 64) : wordFld (BitVec.ofNat 64 (putBits w.toNat 63 63 0)) F.VAULT_SLOT_PRESENT = 0 := by
  have low := w.isLt
  simp only [wordFld, bitsOf, putBits, BitVec.toNat_ofNat, Nat.shiftRight_eq_div_pow]
  omega

theorem slotsGone_dropSlots (d : Dev) : SlotsGone (applyAll (dropSlot true) (applyAll (dropSlot false) d)).vault := by
  have mark (slotB : Bool) (d : Dev) : (applyAll (dropSlot slotB) d).vault =
      if slotB then { d.vault with slotB := BitVec.ofNat 64 (putBits d.vault.slotB.toNat 63 63 0) }
      else { d.vault with slotA := BitVec.ofNat 64 (putBits d.vault.slotA.toNat 63 63 0) } := by
    rw [dropSlot, applyAll_cons, applyAll_cons, applyAll_nil, apply_vault, keep_vault _ _ (by rw [setF, touches_fld]; decide)]
  rw [mark, mark]
  exact ⟨present_cleared _, present_cleared _⟩

theorem takeOwner_reads (t : List Byte) (d : Dev) :
    (applyAll (takeOwner t) d).secure = { d.secure with owner := Config.sha384 ((t.drop 48).take 96), secret := 0 } ∧
    (applyAll (takeOwner t) d).fld F.SEC_STATUS_OIS = 0 ∧ d.tallied (applyAll (takeOwner t) d) F.SEC_STATUS_TRANSFERS 0 ∧
    SlotsGone (applyAll (takeOwner t) d).vault := by
  have ends := confined_secDone 0 0
  have slots : Confined [.regs, .vault] [.VAULT_SLOT] (dropSlot false ++ dropSlot true) :=
    (confined_append ..).2 ⟨confined_dropSlot false, confined_dropSlot true⟩
  have rest : Confined [.regs, .vault] [.VAULT_SLOT, .SEC_CMD_STATUS] (dropSlot false ++ dropSlot true ++ secDone 0 0) :=
    (confined_append ..).2 ⟨slots.mono (by decide) (by decide), ends.mono (by decide) (by decide)⟩
  rw [takeOwner, applyAll_cons, applyAll_cons, applyAll_cons]
  refine ⟨?_, ?_, ?_, ?_⟩
  · rw [keepAll_secure _ (rest.leaves (by decide)), keep_secure _ _ (by decide), keep_secure _ _ (by decide)]
    rfl
  · rw [rest.fld _ (by decide), fld_apply_spared (by decide), fld_setF]
    rfl
  · rw [Dev.tallied, rest.fld _ (by decide), fld_satF]
    simp (disch := exact of_decide_eq_true rfl) only [fld_apply_spared]
  · rw [applyAll_append, keepAll_vault _ (ends.leaves (by decide)), applyAll_append]
    exact slotsGone_dropSlots _

/-- What a module is behind the reset of an ownership transfer. -/
structure Restarted (y e : Dev) : Prop where
  mode : e.mode = stBoot
  cause : e.fld F.BOARD_STATUS_CAUSE = 4
  secure : e.secure = { y.secure with nonceLive := false, installA := none, installB := none }
  sealed : e.fld F.SEC_STATUS_OIS = y.fld F.SEC_STATUS_OIS
  transfers : e.fld F.SEC_STATUS_TRANSFERS = y.fld F.SEC_STATUS_TRANSFERS
  hbm : e.hbm = []
  slotA : e.vault.slotA = y.vault.slotA
  slotB : e.vault.slotB = y.vault.slotB
  lost : e.route.lost = []

theorem coldReset_reads (y : Dev) : Restarted y (applyAll coldReset y) := by
  have run : applyAll coldReset y = (setF F.BOARD_STATUS_CAUSE 0 4).apply ((Upd.hbmZero.apply y).restart false) := rfl
  have cleared : Confined [.hbm, .hbmBad, .hbmMarks] [] [Upd.hbmZero] := (confined_cons ..).2 ⟨rfl, confined_nil⟩
  have fld (f : Fld) : (Upd.hbmZero.apply y).fld f 0 = y.fld f 0 := cleared.fld y List.not_mem_nil 0
  rw [run]
  obtain ⟨m, hm⟩ := restart_eq (Upd.hbmZero.apply y) false
  constructor
  · rw [Dev.mode, fld_apply_spared (by decide), fld_restart_other (by decide) (by decide)]
    decide
  · rw [fld_setF]
    rfl
  · rw [keep_secure _ _ (by decide), hm]
    rfl
  · rw [fld_apply_spared (by decide), fld_restart_kept (by decide), fld]
  · rw [fld_apply_spared (by decide), fld_restart_kept (by decide), fld]
  · rw [keep_hbm _ _ (by decide), hm]
    rfl
  · rw [keep_vault _ _ (by decide), hm]
    rfl
  · rw [keep_vault _ _ (by decide), hm]
    rfl
  · rw [keep_route _ _ (by decide), hm]
    rfl

theorem completes_ownerTransfer {s : State} (hs : s.dev.steady) {r : Req} (fresh : s.dev.fresh r) (free : s.dev.bit F.SEC_CMD_STATUS_BUSY = false)
    {v : TokenVerdict} (may : s.dev.mayToken = true) (placed : s.dev.inService s.dev.secArg tokenBytes = true)
    (good : s.dev.tokenFault s.dev.token v (ownerFormed s.dev.token) = none) : Completes (.ownerTransfer r v) s fun d =>
      Msg.resp r 0 0 [] ∈ d.outbox ∧ d.mode = stBoot ∧ d.fld F.BOARD_STATUS_CAUSE = 4 ∧
      d.secure.owner = Config.sha384 ((s.dev.token.drop 48).take 96) ∧ d.secure.secret = 0 ∧ d.secure.nonceLive = false ∧
      d.bit F.SEC_STATUS_OIS = false ∧ s.dev.tallied d F.SEC_STATUS_TRANSFERS 0 ∧ (∀ j, memByte d.hbm j = 0) ∧
      wordFld d.vault.slotA F.VAULT_SLOT_PRESENT = 0 ∧ wordFld d.vault.slotB F.VAULT_SLOT_PRESENT = 0 := by
  have run := runAct_serve_waking (f := writeSecCmd 6 v) fresh (writeSecCmd_free free (by decide))
  have woken := woken_wakeUp s.dev
  have act : secCommand 6 v (applyAll (wakeUp s.dev) s.dev) = useNonce ++ (takeOwner s.dev.token ++ coldReset) := by
    change ownerTransfer v _ = _
    rw [ownerTransfer_eq, withToken_woken woken, may, placed, good]
    rfl
  rw [act, applyAll_append, applyAll_append] at run
  have before : (applyAll useNonce (applyAll (wakeUp s.dev) s.dev.heard)).fld F.SEC_STATUS_TRANSFERS = s.dev.fld F.SEC_STATUS_TRANSFERS := by
    rw [confined_useNonce.fld _ (by decide), (confined_wakeUp s.dev).fld _ (by decide), fld_heard s.dev (by decide)]
  generalize applyAll useNonce (applyAll (wakeUp s.dev) s.dev.heard) = x at run before
  obtain ⟨secure, sealed, tallied, gone⟩ := takeOwner_reads s.dev.token x
  generalize applyAll (takeOwner s.dev.token) x = y at run secure sealed tallied gone
  have reset := coldReset_reads y
  generalize applyAll coldReset y = z at run reset
  have same (d : Dev) (f : Fld) (i : Nat) : (applyAll (respond r answerOk) d).fld f i = d.fld f i := rfl
  have lost (d : Dev) : (applyAll (respond r answerOk) d).route = d.route := rfl
  have beside (d : Dev) : (applyAll (respond r answerOk) d).secure = d.secure ∧ (applyAll (respond r answerOk) d).hbm = d.hbm ∧
    (applyAll (respond r answerOk) d).vault = d.vault := ⟨rfl, rfl, rfl⟩
  have mode : (applyAll (respond r answerOk) z).mode = stBoot := (same z F.DEV_STATE_STATE 0).trans reset.mode
  obtain ⟨secure', hbm', vault'⟩ := beside z
  refine completes_ends (a := serve r (waking (writeSecCmd 6 v))) rfl hs ?_ ?_
  · rw [run]
    refine ⟨by rw [lost, reset.lost], ?_⟩
    rw [mode]
    exact fun running => absurd running.1 (by decide)
  · rw [run]
    refine ⟨?_, mode, (same ..).trans reset.cause, ?_, ?_, ?_, ?_, ?_, fun j => ?_, ?_, ?_⟩
    · exact sent_of_mem (by simp [respond, answerOk]) z
    · rw [secure', reset.secure, secure]
    · rw [secure', reset.secure, secure]
    · rw [secure', reset.secure]
    · rw [Dev.bit, same, reset.sealed, sealed]
      rfl
    · rw [Dev.tallied, same, reset.transfers, tallied, before]
    · rw [hbm', reset.hbm]
      rfl
    · rw [vault', reset.slotA, gone.first]
    · rw [vault', reset.slotB, gone.second]

/-! ### The statement -/

/-- Settles O57: each command of SEC_CMD, by what its act makes of the woken module; OWNER_TRANSFER by what its reset keeps. -/
theorem securityCommandsRun : Obligations.SecurityCommandsRun := by
  intro s r v hs settled fresh done fails busy opened a t may uid holds outside spent staged ix rand
  refine ⟨fun held i hi => ?_, fun free => ⟨completes_nonce hs fresh free, completes_attest_away hs fresh free, ?_, completes_getEk_away hs fresh free,
    ?_, fun i hi => ⟨?_, ?_, ?_⟩, ?_, completes_installClose_shut hs fresh free, ?_, ?_⟩⟩
  · simp only [List.mem_cons, List.not_mem_nil, or_false] at hi
    rcases hi with rfl | rfl | rfl | rfl | rfl | rfl
    · exact completes_sec_busy hs fresh (op := 1) (v := noVerdict) rfl settled held
    · exact completes_sec_busy hs fresh (op := 2) (v := noVerdict) rfl settled held
    · exact completes_sec_busy hs fresh (op := 3) (v := noVerdict) rfl settled held
    · exact completes_sec_busy hs fresh (op := 4) (v := v) rfl settled held
    · exact completes_sec_busy hs fresh (op := 5) (v := noVerdict) rfl settled held
    · exact completes_sec_busy hs fresh (op := 6) (v := v) rfl settled held
  · exact fun placed fits good => completes_attest hs fresh free placed fits good
  · exact fun fits good => completes_getEk hs fresh free fits good
  · simp only [List.mem_cons, List.not_mem_nil, or_false] at hi
    intro no
    rcases hi with rfl | rfl
    · exact completes_token_closed hs fresh (op := 4) (v := v) rfl free (by decide) (installOpen_eq v) no
    · exact completes_token_closed hs fresh (op := 6) (v := v) rfl free (by decide) (ownerTransfer_eq v) no
  · simp only [List.mem_cons, List.not_mem_nil, or_false] at hi
    intro yes away
    rcases hi with rfl | rfl
    · exact completes_token_away hs fresh (op := 4) (v := v) rfl free (by decide) (installOpen_eq v) yes away
    · exact completes_token_away hs fresh (op := 6) (v := v) rfl free (by decide) (ownerTransfer_eq v) yes away
  · simp only [List.mem_cons, List.not_mem_nil, or_false] at hi
    intro why yes placed fault
    rcases hi with rfl | rfl
    · exact completes_token_bad hs fresh (op := 4) (v := v) rfl free (by decide) (installOpen_eq v) yes placed fault
    · exact completes_token_bad hs fresh (op := 6) (v := v) rfl free (by decide) (ownerTransfer_eq v) yes placed fault
  · intro yes placed good new named gen
    exact ⟨completes_installOpen_secretless hs fresh free yes placed good, completes_installOpen hs fresh free yes placed good⟩
  · intro isOpen named missing
    refine (completes_installClose hs fresh free isOpen).imp fun d ⟨ended, shut, noA, noB, cleared, first, second⟩ => ⟨ended, shut, noA, noB, cleared, fun c => ?_⟩
    have slot : SlotClosed s.dev d c (named c) := by
      cases c with
      | false => exact first
      | true => exact second
    refine ⟨slot.unnamed, fun gone => ?_, fun g given present => ?_⟩
    · obtain ⟨given, empty⟩ := Bool.and_eq_true_iff.1 gone
      exact slot.missing given empty
    · have full : (staged c true).isEmpty = false := by simpa only [missing, given, Option.isSome_some, Bool.true_and] using present
      exact slot.put g given full
  · exact fun yes placed good => completes_ownerTransfer hs fresh free yes placed good

end Sys2Proof.Machine
end

