-- ==== Sys2Proof/Proofs/PowerPoints.lean ====
section
/-! PROOFS. Performance points, sensors and throttles, ageing samples and the predictor (R618, R619, R629–R633, R637, R639, R640). -/

namespace Sys2Proof.Machine

/-! ### Requests that leave a settled module -/

theorem answered_respond {d x : Dev} (r : Req) (a : Answer) (count : x.fld F.CHAIN_CNT_RX = (d.fld F.CHAIN_CNT_RX + 1) % 2 ^ 32) :
    d.answered (applyAll (respond r a) x) r a := by
  have after (x : Dev) : (applyAll (respond r a) x).fld F.CHAIN_CNT_RX = x.fld F.CHAIN_CNT_RX := rfl
  refine ⟨sent_of_mem (by simp [respond]) _, ?_, (after x).trans count⟩
  simp only [respond, applyAll_cons, applyAll_nil, Dev.cached, chain_apply_chain]
  exact find_keepResponse r a _

theorem Served.settled {d e : Dev} (h : Served d e) (hd : d.Settled) : e.Settled := by
  have ring (k : Nat) : e.fld F.RING_STATUS_STATE k = d.fld F.RING_STATUS_STATE k := h.fld (by decide) k
  have mode : e.mode = d.mode := h.fld (f := F.DEV_STATE_STATE) (by decide) 0
  have idle : e.allIdle = d.allIdle := by simp only [Dev.allIdle, ring, h.cores]
  exact ⟨by rw [h.route]; exact hd.1, by rw [mode, idle]; exact hd.2⟩

/-- A request with no response yet whose act is deaf and leaves a settled module: but for its count, the chain and the messages the act's
result stands. -/
theorem completes_heard_ends {i : Instr} {s : State} {r : Req} {f : Dev → Answer × Act} {P : Dev → Prop} {a : Answer} {act : Act}
    (he : exec i s = perform (onPower (serve r f)) s) (hs : s.dev.steady) (fresh : s.dev.fresh r) (hf : f s.dev = (a, act))
    (deaf : Each (fun u => u.deaf = true) (act s.dev)) (rest : (runAct act s.dev).Settled)
    (h : ∀ e, e = applyAll (respond r a) (applyAll (act s.dev) s.dev.heard) → Served (runAct act s.dev) e → s.dev.answered e r a → P e) :
    Completes i s P := by
  have run : runAct (serve r f) s.dev = applyAll (respond r a) (applyAll (act s.dev) s.dev.heard) := by
    rw [runAct_eq, serve_fresh f fresh, hf, ← applyAll_handled]
    rfl
  have served : Served (runAct act s.dev) (runAct (serve r f) s.dev) := by
    rw [run, runAct_eq]
    exact served_respond (alike_applyAll (alike_heard s.dev) deaf) r a
  refine completes_ends he hs (served.settled rest) (h _ run served ?_)
  rw [run]
  refine answered_respond r a ?_
  rw [fld_applyAll_deaf deaf]
  exact fld_addF ..

/-- The same for a request that wakes the module. -/
theorem completes_woken_ends {i : Instr} {s : State} {r : Req} {f : Dev → Answer × Act} {P : Dev → Prop} {a : Answer} {act : Act}
    (he : exec i s = perform (onPower (serve r (waking f))) s) (hs : s.dev.steady) (fresh : s.dev.fresh r) (hf : f s.dev = (a, act))
    (deaf : Each (fun u => u.deaf = true) (act (applyAll (wakeUp s.dev) s.dev))) (rest : (runAct act (applyAll (wakeUp s.dev) s.dev)).Settled)
    (h : ∀ e, Served (runAct act (applyAll (wakeUp s.dev) s.dev)) e → s.dev.answered e r a → P e) : Completes i s P := by
  have run := runAct_serve_waking fresh hf
  have served : Served (runAct act (applyAll (wakeUp s.dev) s.dev)) (runAct (serve r (waking f)) s.dev) := by
    rw [run, runAct_eq act]
    exact served_respond (alike_applyAll (alike_wakeUp (alike_heard s.dev) s.dev) deaf) r a
  refine completes_ends he hs (served.settled rest) (h _ served ?_)
  rw [run]
  refine answered_respond r a ?_
  rw [fld_applyAll_deaf deaf, (confined_wakeUp s.dev).fld _ (by decide)]
  exact fld_addF ..

/-- A served request leaves the registers that its act leaves. -/
theorem Served.regsBut {d e : Dev} {act : Act} (served : Served (runAct act d) e) {ps : List Part} {rs rs' : List Reg} (hc : Confined ps rs (act d))
    (sub : ∀ r ∈ Reg.CHAIN_CNT :: rs, r ∈ rs') : regsBut rs' d e := fun r i hr _ => by
  rw [served.reg r i fun h => hr (sub r (h ▸ List.mem_cons_self ..)), runAct_eq, hc.reg d fun h => hr (sub r (List.mem_cons_of_mem _ h))]

/-- A count since which a time has not passed is none since which it has. -/
theorem any_lt_add (c : Option Nat) (n now : Nat) : (c.any fun t => decide (now < t + n)) = !(c.all fun t => decide (t + n ≤ now)) := by
  cases c with
  | none => rfl
  | some t => simp only [Option.any_some, Option.all_some, ← decide_not, Nat.not_le]

/-! ### Points (R618, R619) -/

theorem power_setF (d : Dev) (f : Fld) (i v : Nat) : ((setF f i v).apply d).power = d.power := rfl

theorem throttleBits_reads (d : Dev) :
    (runAct throttleBits d).fld F.PWR_STATUS_THROTTLE_T = (if d.fld F.PWR_CTL_POINT < d.power.ptT then 1 else 0) ∧
    (runAct throttleBits d).fld F.PWR_STATUS_THROTTLE_P = (if d.fld F.PWR_CTL_POINT < d.power.ptP then 1 else 0) := by
  rw [runAct_eq, throttleBits, applyAll_cons, applyAll_cons, applyAll_nil]
  refine ⟨?_, ?_⟩
  · simp (disch := exact of_decide_eq_true rfl) only [fld_apply_spared, fld_setB, decide_eq_true_eq]
  · simp only [fld_setB, decide_eq_true_eq]

theorem confines_throttleBits : Confines [.regs] [.PWR_STATUS] throttleBits := fun d => by
  simp only [throttleBits, confined_cons, confined_nil, and_true]
  exact ⟨rfl, rfl⟩

/-- A request for a point, and that software asked. -/
def askPoint (n : Nat) : List Upd := [setF F.PWR_CTL_POINT 0 n, .power fun p => { p with bySoftware := true }]

theorem confined_askPoint (n : Nat) : Confined [.regs, .power] [.PWR_CTL] (askPoint n) := by
  simp only [askPoint, confined_cons, confined_nil, and_true]
  exact ⟨rfl, rfl⟩

section points
variable {s : State} (hs : s.dev.steady) (settled : s.dev.Settled)
include hs settled

theorem completes_pwrCtlWrite {r : Req} (fresh : s.dev.fresh r) (val : BitVec 64) : Completes (.pwrCtlWrite r val) s fun d =>
    s.dev.answered d r answerOk ∧ d.fld F.PWR_CTL_POINT = bitsOf val 1 0 ∧ d.power.bySoftware = true ∧
      d.fld F.PWR_STATUS_THROTTLE_T = (if bitsOf val 1 0 < s.dev.power.ptT then 1 else 0) ∧
      d.fld F.PWR_STATUS_THROTTLE_P = (if bitsOf val 1 0 < s.dev.power.ptP then 1 else 0) ∧
      regsBut [.PWR_CTL, .PWR_STATUS, .CHAIN_CNT] s.dev d := by
  have all : Confines [.regs, .power] [.PWR_CTL, .PWR_STATUS] (writePwrCtl val) :=
    confines_inSequence_cons (fun _ => (confined_askPoint _).mono (by decide) (by decide))
      (confines_inSequence_cons (as := []) (confines_throttleBits.mono (by decide) (by decide)) Confines.nil)
  have run : runAct (writePwrCtl val) s.dev = runAct throttleBits (applyAll (askPoint (bitsOf val 1 0)) s.dev) := by
    rw [writePwrCtl, runAct_inSequence_cons, runAct_inSequence_cons, runAct_inSequence_nil, runAct_list]
    rfl
  have asked : (applyAll (askPoint (bitsOf val 1 0)) s.dev).fld F.PWR_CTL_POINT = bitsOf val 1 0 := by
    rw [askPoint, applyAll_cons, applyAll_cons, applyAll_nil, fld_apply_spared rfl, fld_setBits]
  have power : (applyAll (askPoint (bitsOf val 1 0)) s.dev).power = { s.dev.power with bySoftware := true } := rfl
  obtain ⟨thermal, watts⟩ := throttleBits_reads (applyAll (askPoint (bitsOf val 1 0)) s.dev)
  rw [asked, power] at thermal watts
  have kept := (confines_throttleBits (applyAll (askPoint (bitsOf val 1 0)) s.dev))
  refine completes_heard_ends rfl hs fresh rfl ((all s.dev).deaf (by decide) (by decide) (by decide) (by decide) (by decide)) ?_
    fun e _ served answer => ⟨answer, ?_, ?_, ?_, ?_, served.regsBut (all s.dev) (by decide)⟩
  · rw [runAct_eq]
    exact settled_of_confined settled (all s.dev) (by decide) (by decide) (by decide) (by decide)
  · rw [served.fld (by decide), run, runAct_eq, kept.fld _ (by decide), asked]
  · rw [served.power, run, runAct_eq, keepAll_power _ (kept.leaves (by decide)), power]
  · rw [served.fld (by decide), run, thermal]
  · rw [served.fld (by decide), run, watts]

/-- What a change of the point leaves (R619, R510). -/
def changePoint (d : Dev) : List Upd :=
  [setF F.PWR_STATUS_POINT_EFF 0 d.pointWanted, .power fun p => { p with changeAt := some d.now, bySoftware := false, byThrottle := false }]

/-- What a change of the point records under a live slice (R510). -/
def notePoint (d : Dev) : List Upd :=
  (if d.liveRing.isSome && d.power.bySoftware then flagDet F.DET_STATUS_POINT else []) ++
    (if d.liveRing.isSome && d.power.byThrottle then flagDet F.DET_STATUS_THROTTLE else [])

/-- Whether the point ought to change now (R619). -/
def Dev.pointDue (d : Dev) : Bool := decide (d.pointWanted ≠ d.fld F.PWR_STATUS_POINT_EFF) && d.power.changeAt.all fun t => decide (t + 1000000 ≤ d.now)

omit hs settled in
theorem pointChange_eq (d : Dev) : pointChangeAct d = if d.pointDue = true then changePoint d ++ notePoint d else [] := by
  have cond : (decide (d.pointWanted = d.fld F.PWR_STATUS_POINT_EFF) || d.power.changeAt.any fun t => decide (d.now < t + 1000000)) = !d.pointDue := by
    rw [any_lt_add, Dev.pointDue, Bool.not_and, decide_not, Bool.not_not]
  unfold pointChangeAct
  dsimp only
  rw [cond, changePoint, notePoint, ← List.append_assoc]
  generalize d.pointDue = due
  cases due with
  | true => rfl
  | false => rfl

theorem completes_pointChange_early (early : s.dev.pointDue = false) : Completes .pointChange s fun d => s.dev.wrote d [] ∧ d.power = s.dev.power :=
  completes_same (a := pointChangeAct) rfl hs settled (by rw [pointChange_eq, early]; rfl) ⟨wrote_refl _, rfl⟩

theorem completes_pointChange (due : s.dev.pointDue = true) : Completes .pointChange s fun d =>
    d.fld F.PWR_STATUS_POINT_EFF = s.dev.pointWanted % 4 ∧
      d.power = { s.dev.power with changeAt := some s.dev.now, bySoftware := false, byThrottle := false } ∧
      (s.dev.liveRing.isSome = true → s.dev.power.bySoftware = true → d.fld F.DET_STATUS_POINT = 1) ∧
      (s.dev.liveRing.isSome = true → s.dev.power.byThrottle = true → d.fld F.DET_STATUS_THROTTLE = 1) ∧
      regsBut [.PWR_STATUS, .DET_STATUS] s.dev d := by
  have changed : Confined [.regs, .power] [.PWR_STATUS] (changePoint s.dev) := by
    simp only [changePoint, confined_cons, confined_nil, and_true]
    exact ⟨rfl, rfl⟩
  have flag {bit : Fld} (h : bit.reg = .DET_STATUS) : Confined [.regs] [.DET_STATUS] (flagDet bit) := by
    simp [flagDet, flagFault, setF, satF, Upd.confined, Upd.touches, Upd.writes, h]
  have noted : Confined [.regs] [.DET_STATUS] (notePoint s.dev) := by
    simp only [notePoint, confined_append, confined_ite, confined_nil, implies_true, and_true]
    exact ⟨fun _ => flag rfl, fun _ => flag rfl⟩
  have all : Confined [.regs, .power] [.PWR_STATUS, .DET_STATUS] (changePoint s.dev ++ notePoint s.dev) :=
    (confined_append ..).2 ⟨changed.mono (by decide) (by decide), noted.mono (by decide) (by decide)⟩
  refine completes_rests (a := pointChangeAct) rfl hs settled (by rw [pointChange_eq, if_pos due]) all (by decide) (by decide) (by decide) (by decide) ?_
  refine ⟨?_, ?_, fun live soft => ?_, fun live throttled => ?_, fun r i hr _ => all.reg s.dev hr i⟩
  · rw [applyAll_append, noted.fld _ (by decide), changePoint, applyAll_cons, applyAll_cons, applyAll_nil, fld_apply_spared rfl, fld_setF]
    rfl
  · rw [applyAll_append, keepAll_power _ (noted.leaves (by decide)), changePoint, applyAll_cons, applyAll_cons, applyAll_nil, apply_power, power_setF]
  · rw [applyAll_append, notePoint, live, soft, applyAll_append]
    have kept (p : Bool) (d : Dev) : (applyAll (if p then flagDet F.DET_STATUS_THROTTLE else []) d).fld F.DET_STATUS_POINT = d.fld F.DET_STATUS_POINT := by
      cases p with
      | false => rfl
      | true =>
        rw [if_pos rfl, flagDet, flagFault, applyAll_cons, applyAll_cons, applyAll_nil]
        simp (disch := exact of_decide_eq_true rfl) only [fld_apply_spared]
    rw [kept]
    exact (fld_flagFault (bit := F.DET_STATUS_POINT) (faults := F.DET_STATUS_EVENTS) _ 0 rfl (by decide)).1
  · rw [applyAll_append, notePoint, live, throttled, applyAll_append]
    exact (fld_flagFault (bit := F.DET_STATUS_THROTTLE) (faults := F.DET_STATUS_EVENTS) _ 0 rfl (by decide)).1

end points

end Sys2Proof.Machine
end

