-- ==== Sys2Proof/Proofs/Sensors.lean ====
section
/-! PROOFS. A reading of the sensors: the meters, the throttles and the trips (R629–R631, R637, R639, R654). -/

namespace Sys2Proof.Machine

/-! ### What a reading says -/

/-- Whether a reading is at a throttle temperature (R630). -/
def Dev.hot (d : Dev) (x : Sensors) : Bool :=
  decide (d.fld F.THERM_CFG_THROTTLE_C ≤ x.dieMax ∨ d.fld F.THERM_CFG_HBM_THROTTLE_C ≤ x.hbmMax)

/-- Whether a reading is more than 5 °C below the throttle temperatures (R630). -/
def Dev.cool (d : Dev) (x : Sensors) : Bool :=
  decide (x.dieMax + 5 < d.fld F.THERM_CFG_THROTTLE_C ∧ x.hbmMax + 5 < d.fld F.THERM_CFG_HBM_THROTTLE_C)

/-- Trip temperatures read in a row, with this reading (R631). -/
def Dev.readsHot (d : Dev) (x : Sensors) : Nat :=
  if d.fld F.THERM_CFG_TRIP_C ≤ x.dieMax ∨ d.fld F.THERM_CFG_HBM_TRIP_C ≤ x.hbmMax then d.power.tripReads + 1 else 0

/-- Whether the input voltage is out of range. -/
def vinOut (x : Sensors) : Bool := decide (x.vinMv < 40000 ∨ 60000 < x.vinMv)

/-- Whether a reading trips the module (R631). -/
def Dev.tripping (d : Dev) (x : Sensors) : Bool :=
  decide (2 ≤ d.readsHot x ∨ 8000 < x.watts1) || x.regFault || (vinOut x && d.power.vinSince.any fun t => decide (t + 100000 ≤ d.now))

/-- Whether a poll reads the sensors (R629). -/
def Dev.pollDue (d : Dev) : Bool := decide (d.mode ≠ stOff) && d.power.readAt.all fun t => decide (t + 100000 ≤ d.now)

/-- The values of a reading, in their registers and the trip counts. -/
def noteReading (x : Sensors) (over_ vinBad : Bool) : Act := fun d =>
  [setF F.THERM_STATUS_DIE_MAX 0 x.dieMax, setF F.THERM_STATUS_HBM_MAX 0 x.hbmMax, setF F.THERM_STATUS_HBM_STACK 0 x.hbmStack.val,
    setF F.THERM_STATUS_DIE_QUAD 0 x.dieQuad.val, setF F.PWR_STATUS_INPUT_W 0 x.watts10, setF F.BOARD_STATUS_VIN_MV 0 x.vinMv,
    .power fun p => { p with
      tripReads := if over_ then p.tripReads + 1 else 0
      vinSince := if vinBad then some (p.vinSince.getD d.now) else none }]

/-- The steps of a reading before its trip. -/
def senseSteps (d : Dev) (x : Sensors) : List Act :=
  [meter x.watts1, noteReading x (decide (d.fld F.THERM_CFG_TRIP_C ≤ x.dieMax ∨ d.fld F.THERM_CFG_HBM_TRIP_C ≤ x.hbmMax)) (vinOut x),
    stepThermal (d.hot x) (d.cool x), stepPower x.watts10, throttleBits]

theorem sensorPoll_eq (d : Dev) (x : Sensors) : sensorPollAct x d =
    if d.pollDue = true then inSequence (senseSteps d x ++ [fun e => if e.trips x then moduleFault 7 e else []]) d else [] := by
  have cond : (decide (d.mode = stOff) || d.power.readAt.any fun t => decide (d.now < t + 100000)) = !d.pollDue := by
    rw [any_lt_add, Dev.pollDue, Bool.not_and, decide_not, Bool.not_not]
  unfold sensorPollAct senseSteps Dev.hot Dev.cool vinOut
  dsimp only
  rw [cond, Bool.decide_or, Bool.decide_or, Bool.decide_or, Bool.decide_and]
  generalize d.pollDue = due
  cases due with
  | true => rfl
  | false => rfl

/-! ### The meters (R637, R639) -/

/-- The time since the last reading. -/
def Dev.sinceRead (d : Dev) : Nat := d.power.readAt.elim 0 fun t => d.now - t

/-- The energy to count on a reading. -/
def Dev.energy (d : Dev) (w : Nat) : Nat := d.power.meterNs + w * d.sinceRead

/-- The time below the requested point to count on a reading. -/
def Dev.below (d : Dev) : Nat := if d.fld F.PWR_CTL_POINT < d.fld F.PWR_STATUS_POINT_EFF then d.power.belowNs + d.sinceRead else d.power.belowNs

theorem meter_eq (w : Nat) (d : Dev) : meter w d = [addF F.PWR_METER_ENERGY_MJ 0 (d.energy w / 1000000), addF F.THERM_CNT_MS 0 (d.below / 1000000),
    .power fun p => { p with readAt := some d.now, meterNs := d.energy w % 1000000, belowNs := d.below % 1000000 }] := by
  unfold meter Dev.energy Dev.below Dev.sinceRead
  cases d.power.readAt with
  | none => rfl
  | some t => rfl

theorem confines_meter (w : Nat) : Confines [.regs, .power] [.PWR_METER, .THERM_CNT] (meter w) := fun d => by
  simp only [meter_eq, confined_cons, confined_nil, and_true]
  exact ⟨rfl, rfl, rfl⟩

theorem meter_reads (w : Nat) (d : Dev) :
    let e := runAct (meter w) d
    d.counted e F.PWR_METER_ENERGY_MJ 0 (d.energy w / 1000000) ∧ d.counted e F.THERM_CNT_MS 0 (d.below / 1000000) ∧
      e.fld F.THERM_CNT_STEPS = d.fld F.THERM_CNT_STEPS := by
  intro e
  have run : e = applyAll (meter w d) d := runAct_eq _ _
  rw [run, meter_eq, applyAll_cons, applyAll_cons, applyAll_cons, applyAll_nil]
  refine ⟨?_, ?_, ?_⟩
  · rw [Dev.counted]
    simp (disch := exact of_decide_eq_true rfl) only [fld_apply_spared, fld_addF]
  · rw [Dev.counted]
    simp (disch := exact of_decide_eq_true rfl) only [fld_apply_spared, fld_addF]
  · simp (disch := exact of_decide_eq_true rfl) only [fld_apply_spared]

/-- What the meters leave of the power state. -/
def PowerSt.metered (p : PowerSt) : Nat × Nat × Option Nat × Option Nat × Option Nat × Option Nat × Option Nat × Nat × Option Nat × Option KettleSt :=
  (p.ptT, p.ptP, p.hotSince, p.coolSince, p.hotStep, p.underSince, p.overStep, p.tripReads, p.vinSince, p.test)

theorem keeps_meter (w : Nat) (d : Dev) : Keeps (fun d => d.power.metered) (meter w d) := by
  simp only [meter_eq, keeps_cons, keeps_nil, and_true]
  exact ⟨fun _ => rfl, fun _ => rfl, fun _ => rfl⟩

/-! ### The values read (R629) -/

theorem confines_noteReading (x : Sensors) (over_ vinBad : Bool) :
    Confines [.regs, .power] [.THERM_STATUS, .PWR_STATUS, .BOARD_STATUS] (noteReading x over_ vinBad) := fun d => by
  simp only [noteReading, confined_cons, confined_nil, and_true]
  exact ⟨rfl, rfl, rfl, rfl, rfl, rfl, rfl⟩

/-- The registers of a reading hold its values. -/
structure Sensed (x : Sensors) (e : Dev) : Prop where
  die : e.fld F.THERM_STATUS_DIE_MAX = x.dieMax % 256
  hbm : e.fld F.THERM_STATUS_HBM_MAX = x.hbmMax % 256
  stack : e.fld F.THERM_STATUS_HBM_STACK = x.hbmStack.val
  quad : e.fld F.THERM_STATUS_DIE_QUAD = x.dieQuad.val
  input : e.fld F.PWR_STATUS_INPUT_W = x.watts10 % 2 ^ 32
  vin : e.fld F.BOARD_STATUS_VIN_MV = x.vinMv % 2 ^ 32

theorem sensed_noteReading (x : Sensors) (over_ vinBad : Bool) (d : Dev) : Sensed x (runAct (noteReading x over_ vinBad) d) := by
  rw [runAct_eq, noteReading]
  simp only [applyAll_cons, applyAll_nil]
  constructor
  all_goals simp (disch := exact of_decide_eq_true rfl) only [fld_apply_spared, fld_setF]
  · rfl
  · rfl
  · exact Nat.mod_eq_of_lt x.hbmStack.isLt
  · exact Nat.mod_eq_of_lt x.dieQuad.isLt

theorem power_noteReading (x : Sensors) (over_ vinBad : Bool) (d : Dev) : (runAct (noteReading x over_ vinBad) d).power = { d.power with
    tripReads := if over_ then d.power.tripReads + 1 else 0
    vinSince := if vinBad then some (d.power.vinSince.getD d.now) else none } := by
  rw [runAct_eq, noteReading, applyAll_cons, applyAll_cons, applyAll_cons, applyAll_cons, applyAll_cons, applyAll_cons, applyAll_cons, applyAll_nil,
    apply_power, power_setF, power_setF, power_setF, power_setF, power_setF, power_setF]

/-! ### The throttles (R630) -/

/-- Whether a reading moves the thermal throttle point down by a step. -/
def Dev.heats (d : Dev) (hot : Bool) : Bool :=
  hot && d.heldMs (d.power.hotSince.getD d.now) 1 && (d.power.hotStep.all fun t => d.heldMs t 10) && decide (d.power.ptT < 3)

/-- Whether a reading moves the thermal throttle point back by a step. -/
def Dev.cools (d : Dev) (hot cool : Bool) : Bool :=
  !hot && cool && d.heldMs (d.power.coolSince.getD d.now) 100 && decide (0 < d.power.ptT)

/-- Whether a reading moves the power throttle point down by a step. -/
def Dev.overs (d : Dev) (watts : Nat) : Bool :=
  !d.power.test.isSome && decide (d.fld F.PWR_CAP_WATTS < watts) && (d.power.overStep.all fun t => d.heldMs t 10) && decide (d.power.ptP < 3)

/-- Whether a reading moves the power throttle point back by a step. -/
def Dev.unders (d : Dev) (watts : Nat) : Bool :=
  !d.power.test.isSome && decide (watts ≤ d.fld F.PWR_CAP_WATTS ∧ watts * 100 < d.fld F.PWR_CAP_WATTS * 95) &&
    d.heldMs (d.power.underSince.getD d.now) 100 && decide (0 < d.power.ptP)

theorem match_all (c : Option Nat) (f : Nat → Bool) : (match c with | some t => f t | none => true) = c.all f := by
  cases c with
  | none => rfl
  | some t => rfl

/-- Whether a time has passed since a count, if there is one. -/
theorem heldAll_eq (d : Dev) (c : Option Nat) (ms : Nat) : (match c with | some t => d.heldMs t ms | none => true) = c.all fun t => d.heldMs t ms :=
  match_all c fun t => d.heldMs t ms

/-- A move of the thermal throttle point, by whether it goes down or back by a step. -/
def thermalMove (d : Dev) (hot cool up down : Bool) : List Upd :=
  if hot then
    [.power fun p => { p with
        hotSince := some (d.power.hotSince.getD d.now), coolSince := none
        ptT := if up then p.ptT + 1 else p.ptT, hotStep := if up then some d.now else p.hotStep, byThrottle := p.byThrottle || up }] ++
      (if up then [addF F.THERM_CNT_STEPS 0 1] else [])
  else if cool then
    [.power fun p => { p with
        hotSince := none, hotStep := none, coolSince := some (if down then d.now else d.power.coolSince.getD d.now)
        ptT := if down then p.ptT - 1 else p.ptT, byThrottle := p.byThrottle || down }]
  else [.power fun p => { p with hotSince := none, hotStep := none, coolSince := none }]

theorem stepThermal_move (hot cool : Bool) (d : Dev) : stepThermal hot cool d = thermalMove d hot cool
    (d.heldMs (d.power.hotSince.getD d.now) 1 && (match d.power.hotStep with | some t => d.heldMs t 10 | none => true) && decide (d.power.ptT < 3))
    (d.heldMs (d.power.coolSince.getD d.now) 100 && decide (0 < d.power.ptT)) := rfl

theorem thermalMove_masked (d : Dev) (hot cool up down : Bool) : thermalMove d hot cool up down = thermalMove d hot cool (hot && up) (!hot && (cool && down)) := by
  cases hot with
  | true => rw [Bool.true_and, thermalMove, thermalMove, if_pos (rfl : true = true), if_pos (rfl : true = true)]
  | false =>
    cases cool with
    | true => rw [Bool.not_false, Bool.true_and, Bool.true_and, thermalMove, thermalMove, if_neg Bool.false_ne_true, if_neg Bool.false_ne_true]
    | false => rw [thermalMove, thermalMove, if_neg Bool.false_ne_true, if_neg Bool.false_ne_true, if_neg Bool.false_ne_true, if_neg Bool.false_ne_true]

theorem stepThermal_eq (hot cool : Bool) (d : Dev) : stepThermal hot cool d = thermalMove d hot cool (d.heats hot) (d.cools hot cool) := by
  rw [stepThermal_move, thermalMove_masked, heldAll_eq]
  refine congrArg₂ (thermalMove d hot cool) ?_ ?_
  · rw [Dev.heats, Bool.and_assoc, Bool.and_assoc, Bool.and_assoc]
  · rw [Dev.cools, Bool.and_assoc, Bool.and_assoc]

/-- A move of the power throttle point, by whether it goes down or back by a step. -/
def powerMove (d : Dev) (over_ under up down : Bool) : List Upd :=
  if over_ then
    [.power fun p => { p with
        underSince := none, ptP := if up then p.ptP + 1 else p.ptP
        overStep := if up then some d.now else p.overStep, byThrottle := p.byThrottle || up }] ++
      (if up then [addF F.THERM_CNT_STEPS 0 1] else [])
  else if under then
    [.power fun p => { p with
        overStep := none, underSince := some (if down then d.now else d.power.underSince.getD d.now)
        ptP := if down then p.ptP - 1 else p.ptP, byThrottle := p.byThrottle || down }]
  else [.power fun p => { p with overStep := none, underSince := none }]

theorem stepPower_move (watts : Nat) (d : Dev) : stepPower watts d = if d.power.test.isSome then [] else
    powerMove d (decide (d.fld F.PWR_CAP_WATTS < watts)) (decide (watts * 100 < d.fld F.PWR_CAP_WATTS * 95))
      ((match d.power.overStep with | some t => d.heldMs t 10 | none => true) && decide (d.power.ptP < 3))
      (d.heldMs (d.power.underSince.getD d.now) 100 && decide (0 < d.power.ptP)) := by
  unfold stepPower powerMove
  dsimp only
  split
  · rfl
  · refine (if_congr decide_eq_true_iff rfl (if_congr decide_eq_true_iff rfl rfl)).symm

theorem powerMove_masked (d : Dev) (over_ under up down : Bool) :
    powerMove d over_ under up down = powerMove d over_ under (over_ && up) (!over_ && (under && down)) := by
  cases over_ with
  | true => rw [Bool.true_and, powerMove, powerMove, if_pos (rfl : true = true), if_pos (rfl : true = true)]
  | false =>
    cases under with
    | true => rw [Bool.not_false, Bool.true_and, Bool.true_and, powerMove, powerMove, if_neg Bool.false_ne_true, if_neg Bool.false_ne_true]
    | false => rw [powerMove, powerMove, if_neg Bool.false_ne_true, if_neg Bool.false_ne_true, if_neg Bool.false_ne_true, if_neg Bool.false_ne_true]

theorem stepPower_eq (watts : Nat) (d : Dev) : stepPower watts d = if d.power.test.isSome then [] else
    powerMove d (decide (d.fld F.PWR_CAP_WATTS < watts)) (decide (watts * 100 < d.fld F.PWR_CAP_WATTS * 95)) (d.overs watts) (d.unders watts) := by
  have calm : (decide (watts ≤ d.fld F.PWR_CAP_WATTS)) = !decide (d.fld F.PWR_CAP_WATTS < watts) := by
    rw [← decide_not]
    exact decide_eq_decide.2 Nat.not_lt.symm
  rw [stepPower_move, heldAll_eq, powerMove_masked, Dev.overs, Dev.unders, Bool.decide_and, calm]
  by_cases rests : d.power.test.isSome = true
  · rw [if_pos rests, if_pos rests]
  · rw [if_neg rests, if_neg rests, Bool.eq_false_iff.2 rests]
    simp only [Bool.not_false, Bool.true_and, Bool.and_assoc]

theorem confines_stepThermal (hot cool : Bool) : Confines [.regs, .power] [.THERM_CNT] (stepThermal hot cool) := fun d => by
  simp only [stepThermal_eq, thermalMove, confined_ite, confined_append, confined_cons, confined_nil, implies_true, and_true]
  exact ⟨fun _ => ⟨rfl, fun _ => rfl⟩, fun _ => ⟨fun _ => rfl, fun _ => rfl⟩⟩

theorem confines_stepPower (watts : Nat) : Confines [.regs, .power] [.THERM_CNT] (stepPower watts) := fun d => by
  simp only [stepPower_eq, powerMove, confined_ite, confined_append, confined_cons, confined_nil, implies_true, true_and, and_true]
  exact fun _ => ⟨fun _ => ⟨rfl, fun _ => rfl⟩, fun _ => ⟨fun _ => rfl, fun _ => rfl⟩⟩

/-! What a move of the thermal throttle leaves. -/

theorem power_addF (d : Dev) (f : Fld) (i n : Nat) : ((addF f i n).apply d).power = d.power := rfl

/-- The power state without the thermal throttle. -/
def PowerSt.besideThermal (p : PowerSt) : Nat × Option Nat × Option Nat × Nat × Option Nat × Option KettleSt :=
  (p.ptP, p.underSince, p.overStep, p.tripReads, p.vinSince, p.test)

theorem keeps_stepThermal (hot cool : Bool) (d : Dev) : Keeps (fun d => d.power.besideThermal) (stepThermal hot cool d) := by
  simp only [stepThermal_eq, thermalMove, keeps_ite, keeps_append, keeps_cons, keeps_nil, implies_true, and_true]
  exact ⟨fun _ => ⟨fun _ => rfl, fun _ _ => congrArg PowerSt.besideThermal (power_addF ..)⟩, fun _ => ⟨fun _ _ => rfl, fun _ _ => rfl⟩⟩

/-- A step of a throttle, which THERM_CNT counts. -/
theorem steps_counted (up : Bool) (d : Dev) : (applyAll (if up then [addF F.THERM_CNT_STEPS 0 1] else []) d).fld F.THERM_CNT_STEPS =
    (d.fld F.THERM_CNT_STEPS + if up then 1 else 0) % 2 ^ 32 ∧
    (applyAll (if up then [addF F.THERM_CNT_STEPS 0 1] else []) d).fld F.THERM_CNT_MS = d.fld F.THERM_CNT_MS ∧
    (applyAll (if up then [addF F.THERM_CNT_STEPS 0 1] else []) d).power = d.power := by
  cases up with
  | true =>
    rw [if_pos rfl, if_pos rfl, applyAll_cons, applyAll_nil, fld_addF]
    exact ⟨rfl, fld_apply_spared rfl _ _, power_addF ..⟩
  | false =>
    rw [if_neg Bool.false_ne_true, if_neg Bool.false_ne_true, applyAll_nil, Nat.add_zero]
    exact ⟨(Nat.mod_eq_of_lt (fld_lt d F.THERM_CNT_STEPS 0)).symm, rfl, rfl⟩

theorem fld_power (g : PowerSt → PowerSt) (d : Dev) (f : Fld) (i : Nat) : ((Upd.power g).apply d).fld f i = d.fld f i := rfl

theorem thermalMove_reads (d : Dev) (hot cool up down : Bool) (e : Dev) :
    (applyAll (thermalMove d hot cool up down) e).power.ptT =
      (if hot && up then e.power.ptT + 1 else if !hot && (cool && down) then e.power.ptT - 1 else e.power.ptT) ∧
    (applyAll (thermalMove d hot cool up down) e).fld F.THERM_CNT_STEPS = (e.fld F.THERM_CNT_STEPS + if hot && up then 1 else 0) % 2 ^ 32 ∧
    (applyAll (thermalMove d hot cool up down) e).fld F.THERM_CNT_MS = e.fld F.THERM_CNT_MS := by
  have rests : e.fld F.THERM_CNT_STEPS = (e.fld F.THERM_CNT_STEPS + if false then 1 else 0) % 2 ^ 32 :=
    (Nat.mod_eq_of_lt (fld_lt e F.THERM_CNT_STEPS 0)).symm
  unfold thermalMove
  cases hot with
  | true =>
    rw [if_pos (rfl : true = true), List.singleton_append, applyAll_cons]
    obtain ⟨count, time, power⟩ := steps_counted up ((Upd.power fun p => { p with
        hotSince := some (d.power.hotSince.getD d.now), coolSince := none
        ptT := if up then p.ptT + 1 else p.ptT, hotStep := if up then some d.now else p.hotStep, byThrottle := p.byThrottle || up }).apply e)
    rw [power, count, time, fld_power, fld_power, Bool.true_and, Bool.not_true, Bool.false_and, if_neg Bool.false_ne_true]
    exact ⟨rfl, rfl, rfl⟩
  | false =>
    rw [if_neg Bool.false_ne_true, Bool.false_and, if_neg Bool.false_ne_true, Bool.not_false, Bool.true_and]
    cases cool with
    | true =>
      rw [if_pos (rfl : true = true), applyAll_cons, applyAll_nil, fld_power, fld_power, Bool.true_and]
      exact ⟨rfl, rests, rfl⟩
    | false =>
      rw [if_neg Bool.false_ne_true, applyAll_cons, applyAll_nil, fld_power, fld_power, Bool.false_and, if_neg Bool.false_ne_true]
      exact ⟨rfl, rests, rfl⟩

/-! What a move of the power throttle leaves. -/

/-- The power state without the power throttle. -/
def PowerSt.besideCap (p : PowerSt) : Nat × Nat × Option Nat := (p.ptT, p.tripReads, p.vinSince)

theorem keeps_stepPower (watts : Nat) (d : Dev) : Keeps (fun d => d.power.besideCap) (stepPower watts d) := by
  simp only [stepPower_eq, powerMove, keeps_ite, keeps_append, keeps_cons, keeps_nil, implies_true, true_and, and_true]
  exact fun _ => ⟨fun _ => ⟨fun _ => rfl, fun _ _ => congrArg PowerSt.besideCap (power_addF ..)⟩, fun _ => ⟨fun _ _ => rfl, fun _ _ => rfl⟩⟩

theorem powerMove_reads (d : Dev) (over_ under up down : Bool) (e : Dev) :
    (applyAll (powerMove d over_ under up down) e).power.ptP =
      (if over_ && up then e.power.ptP + 1 else if !over_ && (under && down) then e.power.ptP - 1 else e.power.ptP) ∧
    (applyAll (powerMove d over_ under up down) e).fld F.THERM_CNT_STEPS = (e.fld F.THERM_CNT_STEPS + if over_ && up then 1 else 0) % 2 ^ 32 ∧
    (applyAll (powerMove d over_ under up down) e).fld F.THERM_CNT_MS = e.fld F.THERM_CNT_MS := by
  have rests : e.fld F.THERM_CNT_STEPS = (e.fld F.THERM_CNT_STEPS + if false then 1 else 0) % 2 ^ 32 :=
    (Nat.mod_eq_of_lt (fld_lt e F.THERM_CNT_STEPS 0)).symm
  unfold powerMove
  cases over_ with
  | true =>
    rw [if_pos (rfl : true = true), List.singleton_append, applyAll_cons]
    obtain ⟨count, time, power⟩ := steps_counted up ((Upd.power fun p => { p with
        underSince := none, ptP := if up then p.ptP + 1 else p.ptP
        overStep := if up then some d.now else p.overStep, byThrottle := p.byThrottle || up }).apply e)
    rw [power, count, time, fld_power, fld_power, Bool.true_and, Bool.not_true, Bool.false_and, if_neg Bool.false_ne_true]
    exact ⟨rfl, rfl, rfl⟩
  | false =>
    rw [if_neg Bool.false_ne_true, Bool.false_and, if_neg Bool.false_ne_true, Bool.not_false, Bool.true_and]
    cases under with
    | true =>
      rw [if_pos (rfl : true = true), applyAll_cons, applyAll_nil, fld_power, fld_power, Bool.true_and]
      exact ⟨rfl, rests, rfl⟩
    | false =>
      rw [if_neg Bool.false_ne_true, applyAll_cons, applyAll_nil, fld_power, fld_power, Bool.false_and, if_neg Bool.false_ne_true]
      exact ⟨rfl, rests, rfl⟩

/-! ### A whole reading -/

/-- The registers that a reading writes. -/
def pollRegs : List Reg := [.THERM_STATUS, .PWR_STATUS, .BOARD_STATUS, .PWR_METER, .THERM_CNT]

theorem confines_senseSteps (d : Dev) (x : Sensors) : Confines [.regs, .power] pollRegs (inSequence (senseSteps d x)) :=
  confines_inSequence_cons ((confines_meter _).mono (by decide) (by decide)) <|
    confines_inSequence_cons ((confines_noteReading _ _ _).mono (by decide) (by decide)) <|
    confines_inSequence_cons ((confines_stepThermal _ _).mono (by decide) (by decide)) <|
    confines_inSequence_cons ((confines_stepPower _).mono (by decide) (by decide)) <|
    confines_inSequence_cons (as := []) (confines_throttleBits.mono (by decide) (by decide)) Confines.nil

/-- What a reading leaves of the module. -/
structure Polled (d : Dev) (x : Sensors) (e : Dev) : Prop where
  trips : e.power.tripReads = d.readsHot x
  vin : e.power.vinSince = if vinOut x then some (d.power.vinSince.getD d.now) else none
  sensed : Sensed x e
  thermal : e.power.ptT =
    if d.heats (d.hot x) then d.power.ptT + 1 else if d.cools (d.hot x) (d.cool x) then d.power.ptT - 1 else d.power.ptT
  cap : e.power.ptP = if d.overs x.watts10 then d.power.ptP + 1 else if d.unders x.watts10 then d.power.ptP - 1 else d.power.ptP
  steps : d.counted e F.THERM_CNT_STEPS 0 ((if d.heats (d.hot x) then 1 else 0) + if d.overs x.watts10 then 1 else 0)
  energy : d.counted e F.PWR_METER_ENERGY_MJ 0 (d.energy x.watts1 / 1000000)
  below : d.counted e F.THERM_CNT_MS 0 (d.below / 1000000)

theorem stepThermal_reads (hot cool : Bool) (d : Dev) :
    (runAct (stepThermal hot cool) d).power.ptT =
      (if d.heats hot then d.power.ptT + 1 else if d.cools hot cool then d.power.ptT - 1 else d.power.ptT) ∧
    (runAct (stepThermal hot cool) d).fld F.THERM_CNT_STEPS = (d.fld F.THERM_CNT_STEPS + if d.heats hot then 1 else 0) % 2 ^ 32 ∧
    (runAct (stepThermal hot cool) d).fld F.THERM_CNT_MS = d.fld F.THERM_CNT_MS := by
  have up : (hot && d.heats hot) = d.heats hot := by
    cases hot with
    | true => exact Bool.true_and _
    | false => simp only [Dev.heats, Bool.false_and]
  have down : (!hot && (cool && d.cools hot cool)) = d.cools hot cool := by
    unfold Dev.cools
    generalize d.heldMs (d.power.coolSince.getD d.now) 100 = held
    cases hot <;> cases cool <;> simp
  rw [runAct_eq, stepThermal_eq]
  obtain ⟨point, steps, time⟩ := thermalMove_reads d hot cool (d.heats hot) (d.cools hot cool) d
  rw [up, down] at point
  rw [up] at steps
  exact ⟨point, steps, time⟩

theorem stepPower_reads (watts : Nat) (d : Dev) :
    (runAct (stepPower watts) d).power.ptP =
      (if d.overs watts then d.power.ptP + 1 else if d.unders watts then d.power.ptP - 1 else d.power.ptP) ∧
    (runAct (stepPower watts) d).fld F.THERM_CNT_STEPS = (d.fld F.THERM_CNT_STEPS + if d.overs watts then 1 else 0) % 2 ^ 32 ∧
    (runAct (stepPower watts) d).fld F.THERM_CNT_MS = d.fld F.THERM_CNT_MS := by
  rw [runAct_eq, stepPower_eq]
  by_cases rests : d.power.test.isSome = true
  · have still : d.overs watts = false ∧ d.unders watts = false := by
      rw [Dev.overs, Dev.unders, rests]
      exact ⟨rfl, rfl⟩
    rw [if_pos rests, applyAll_nil, still.1, still.2]
    exact ⟨rfl, (Nat.mod_eq_of_lt (fld_lt d F.THERM_CNT_STEPS 0)).symm, rfl⟩
  · have up : (decide (d.fld F.PWR_CAP_WATTS < watts) && d.overs watts) = d.overs watts := by
      rw [Dev.overs]
      generalize decide (d.fld F.PWR_CAP_WATTS < watts) = over_
      cases over_ <;> simp
    have down : (!decide (d.fld F.PWR_CAP_WATTS < watts) && (decide (watts * 100 < d.fld F.PWR_CAP_WATTS * 95) && d.unders watts)) = d.unders watts := by
      rw [Dev.unders, Bool.decide_and, ← decide_not, decide_eq_decide.2 (Nat.not_lt (a := d.fld F.PWR_CAP_WATTS) (b := watts))]
      generalize decide (watts ≤ d.fld F.PWR_CAP_WATTS) = calm
      generalize decide (watts * 100 < d.fld F.PWR_CAP_WATTS * 95) = under
      cases calm <;> cases under <;> simp
    obtain ⟨point, steps, time⟩ := powerMove_reads d (decide (d.fld F.PWR_CAP_WATTS < watts)) (decide (watts * 100 < d.fld F.PWR_CAP_WATTS * 95))
      (d.overs watts) (d.unders watts) d
    rw [up, down] at point
    rw [up] at steps
    rw [if_neg rests]
    exact ⟨point, steps, time⟩

/-- What the throttles read of the power state. -/
def PowerSt.thermal (p : PowerSt) : Nat × Option Nat × Option Nat × Option Nat := (p.ptT, p.hotSince, p.coolSince, p.hotStep)

/-- What the power throttle reads of the power state. -/
def PowerSt.cap (p : PowerSt) : Nat × Option Nat × Option Nat × Option KettleSt := (p.ptP, p.underSince, p.overStep, p.test)

theorem thermal_congr {d e : Dev} (same : e.power.thermal = d.power.thermal) (now : e.now = d.now) (hot cool : Bool) :
    e.heats hot = d.heats hot ∧ e.cools hot cool = d.cools hot cool := by
  simp only [PowerSt.thermal, Prod.mk.injEq] at same
  obtain ⟨point, hotSince, coolSince, hotStep⟩ := same
  simp only [Dev.heats, Dev.cools, Dev.heldMs, point, hotSince, coolSince, hotStep, now, and_self]

theorem cap_congr {d e : Dev} (same : e.power.cap = d.power.cap) (now : e.now = d.now) (cap : e.fld F.PWR_CAP_WATTS = d.fld F.PWR_CAP_WATTS) (w : Nat) :
    e.overs w = d.overs w ∧ e.unders w = d.unders w := by
  simp only [PowerSt.cap, Prod.mk.injEq] at same
  obtain ⟨point, underSince, overStep, test⟩ := same
  simp only [Dev.overs, Dev.unders, Dev.heldMs, point, underSince, overStep, test, now, cap, and_self]

/-- A reading's values stand where only the step counts change, or the throttle bits. -/
theorem Sensed.counts {x : Sensors} {d : Dev} (h : Sensed x d) {us : List Upd} {ps : List Part} (hc : Confined ps [.THERM_CNT] us) :
    Sensed x (applyAll us d) where
  die := (hc.fld d (by decide) 0).trans h.die
  hbm := (hc.fld d (by decide) 0).trans h.hbm
  stack := (hc.fld d (by decide) 0).trans h.stack
  quad := (hc.fld d (by decide) 0).trans h.quad
  input := (hc.fld d (by decide) 0).trans h.input
  vin := (hc.fld d (by decide) 0).trans h.vin

theorem Sensed.throttled {x : Sensors} {d : Dev} (h : Sensed x d) : Sensed x (runAct throttleBits d) := by
  have input : (runAct throttleBits d).fld F.PWR_STATUS_INPUT_W = d.fld F.PWR_STATUS_INPUT_W := by
    rw [runAct_eq, throttleBits, applyAll_cons, applyAll_cons, applyAll_nil]
    simp (disch := exact of_decide_eq_true rfl) only [fld_apply_spared]
  have other {f : Fld} (hf : f.reg ∉ [Reg.PWR_STATUS]) : (runAct throttleBits d).fld f = d.fld f := confines_throttleBits.fld d hf 0
  exact ⟨(other (by decide)).trans h.die, (other (by decide)).trans h.hbm, (other (by decide)).trans h.stack, (other (by decide)).trans h.quad,
    input.trans h.input, (other (by decide)).trans h.vin⟩

/-- What the throttles of a reading start from: the meters counted and the values noted. -/
structure Read (d : Dev) (x : Sensors) (e : Dev) : Prop where
  trips : e.power.tripReads = d.readsHot x
  vin : e.power.vinSince = if vinOut x then some (d.power.vinSince.getD d.now) else none
  sensed : Sensed x e
  thermal : e.power.thermal = d.power.thermal
  cap : e.power.cap = d.power.cap
  steps : e.fld F.THERM_CNT_STEPS = d.fld F.THERM_CNT_STEPS
  energy : d.counted e F.PWR_METER_ENERGY_MJ 0 (d.energy x.watts1 / 1000000)
  below : d.counted e F.THERM_CNT_MS 0 (d.below / 1000000)
  now : e.now = d.now
  capWatts : e.fld F.PWR_CAP_WATTS = d.fld F.PWR_CAP_WATTS

theorem read_noteReading (d : Dev) (x : Sensors) :
    Read d x (runAct (noteReading x (decide (d.fld F.THERM_CFG_TRIP_C ≤ x.dieMax ∨ d.fld F.THERM_CFG_HBM_TRIP_C ≤ x.hbmMax)) (vinOut x))
      (runAct (meter x.watts1) d)) := by
  obtain ⟨energy, below, steps⟩ := meter_reads x.watts1 d
  have metered : (runAct (meter x.watts1) d).power.metered = d.power.metered := by
    rw [runAct_eq]
    exact (keeps_meter x.watts1 d).eq d
  have now : (runAct (meter x.watts1) d).now = d.now := by
    rw [Dev.now, runAct_eq, keepAll_gcnt _ ((confines_meter _ d).leaves (by decide)), ← Dev.now]
  have watts : (runAct (meter x.watts1) d).fld F.PWR_CAP_WATTS = d.fld F.PWR_CAP_WATTS := (confines_meter _).fld _ (by decide) 0
  have reads : (if decide (d.fld F.THERM_CFG_TRIP_C ≤ x.dieMax ∨ d.fld F.THERM_CFG_HBM_TRIP_C ≤ x.hbmMax) = true then d.power.tripReads + 1 else 0) =
      d.readsHot x := if_congr decide_eq_true_iff rfl rfl
  generalize runAct (meter x.watts1) d = d₁ at *
  simp only [PowerSt.metered, Prod.mk.injEq] at metered
  obtain ⟨ptT, ptP, hotSince, coolSince, hotStep, underSince, overStep, tripReads, vinSince, test⟩ := metered
  generalize decide (d.fld F.THERM_CFG_TRIP_C ≤ x.dieMax ∨ d.fld F.THERM_CFG_HBM_TRIP_C ≤ x.hbmMax) = over_ at *
  have sensed := sensed_noteReading x over_ (vinOut x) d₁
  have power := power_noteReading x over_ (vinOut x) d₁
  have fld {f : Fld} (hf : f.reg ∉ [Reg.THERM_STATUS, .PWR_STATUS, .BOARD_STATUS]) : (runAct (noteReading x over_ (vinOut x)) d₁).fld f = d₁.fld f :=
    (confines_noteReading x over_ (vinOut x)).fld _ hf 0
  refine ⟨?_, ?_, sensed, ?_, ?_, (fld (by decide)).trans steps, (fld (by decide)).trans energy, (fld (by decide)).trans below,
    ?_, (fld (by decide)).trans watts⟩
  · rw [power, tripReads]
    exact reads
  · rw [power, vinSince, now]
  · rw [power]
    simp only [PowerSt.thermal, ptT, hotSince, coolSince, hotStep]
  · rw [power]
    simp only [PowerSt.cap, ptP, underSince, overStep, test]
  · rw [Dev.now, runAct_eq, keepAll_gcnt _ ((confines_noteReading x over_ (vinOut x) d₁).leaves (by decide)), ← Dev.now, now]

/-- A move of the thermal throttle leaves what the power throttle and the trips read. -/
theorem besides_stepThermal (hot cool : Bool) (d : Dev) :
    let e := runAct (stepThermal hot cool) d
    e.power.cap = d.power.cap ∧ e.power.tripReads = d.power.tripReads ∧ e.power.vinSince = d.power.vinSince := by
  intro e
  have kept : e.power.besideThermal = d.power.besideThermal := by
    rw [show e = applyAll (stepThermal hot cool d) d from runAct_eq _ _]
    exact (keeps_stepThermal hot cool d).eq d
  simp only [PowerSt.besideThermal, Prod.mk.injEq] at kept
  obtain ⟨ptP, underSince, overStep, tripReads, vinSince, test⟩ := kept
  exact ⟨by simp only [PowerSt.cap, ptP, underSince, overStep, test], tripReads, vinSince⟩

theorem polled (d : Dev) (x : Sensors) : Polled d x (runAct (inSequence (senseSteps d x)) d) := by
  have read := read_noteReading d x
  rw [senseSteps, runAct_inSequence_cons, runAct_inSequence_cons, runAct_inSequence_cons, runAct_inSequence_cons, runAct_inSequence_cons,
    runAct_inSequence_nil]
  generalize runAct (noteReading x _ _) (runAct (meter x.watts1) d) = d₂ at read ⊢
  obtain ⟨trips, vin, sensed, thermal, cap, steps, energy, below, now, config⟩ := read
  obtain ⟨point3, steps3, time3⟩ := stepThermal_reads (d.hot x) (d.cool x) d₂
  obtain ⟨cap3, trips3, vin3⟩ := besides_stepThermal (d.hot x) (d.cool x) d₂
  obtain ⟨heats, cools⟩ := thermal_congr thermal now (d.hot x) (d.cool x)
  have hc3 := confines_stepThermal (d.hot x) (d.cool x) d₂
  have sensed3 := sensed.counts hc3
  rw [← runAct_eq] at sensed3
  have now3 : (runAct (stepThermal (d.hot x) (d.cool x)) d₂).now = d.now := by
    rw [Dev.now, runAct_eq, keepAll_gcnt _ (hc3.leaves (by decide)), ← Dev.now, now]
  have fld3 {f : Fld} (hf : f.reg ∉ [Reg.THERM_CNT]) : (runAct (stepThermal (d.hot x) (d.cool x)) d₂).fld f = d₂.fld f :=
    (confines_stepThermal _ _).fld _ hf 0
  have config3 := (fld3 (f := F.PWR_CAP_WATTS) (by decide)).trans config
  have energy3 := (fld3 (f := F.PWR_METER_ENERGY_MJ) (by decide)).trans energy
  generalize runAct (stepThermal (d.hot x) (d.cool x)) d₂ = d₃ at *
  obtain ⟨point4, steps4, time4⟩ := stepPower_reads x.watts10 d₃
  obtain ⟨overs, unders⟩ := cap_congr (cap3.trans cap) now3 config3 x.watts10
  have kept4 : (runAct (stepPower x.watts10) d₃).power.besideCap = d₃.power.besideCap := by
    rw [runAct_eq]
    exact (keeps_stepPower x.watts10 d₃).eq d₃
  have hc4 := confines_stepPower x.watts10 d₃
  have sensed4 := sensed3.counts hc4
  rw [← runAct_eq] at sensed4
  have energy4 := ((confines_stepPower x.watts10).fld d₃ (f := F.PWR_METER_ENERGY_MJ) (by decide) 0).trans energy3
  generalize runAct (stepPower x.watts10) d₃ = d₄ at *
  simp only [PowerSt.thermal, PowerSt.cap, PowerSt.besideCap, Prod.mk.injEq] at thermal cap cap3 kept4
  have power5 : (runAct throttleBits d₄).power = d₄.power := by rw [runAct_eq, keepAll_power _ ((confines_throttleBits d₄).leaves (by decide))]
  have fld5 {f : Fld} (hf : f.reg ∉ [Reg.PWR_STATUS]) : (runAct throttleBits d₄).fld f = d₄.fld f := confines_throttleBits.fld _ hf 0
  refine ⟨?_, ?_, sensed4.throttled, ?_, ?_, ?_, (fld5 (by decide)).trans energy4, (fld5 (by decide)).trans (time4.trans (time3.trans below))⟩
  · rw [power5, kept4.2.1, trips3, trips]
  · rw [power5, kept4.2.2, vin3, vin]
  · rw [power5, kept4.1, point3, heats, cools, thermal.1]
  · rw [power5, point4, overs, unders, cap3.1, cap.1]
  · rw [Dev.counted, fld5 (by decide), steps4, steps3, steps, heats, overs, Nat.mod_add_mod, Nat.add_assoc]
    rfl

/-! ### SENSOR_POLL (R629, R631) -/

/-- A voltage that is out of range since now has not been for any time. -/
theorem since_any (c : Option Nat) {n : Nat} (pos : 0 < n) (now : Nat) (b : Bool) :
    ((if b then some (c.getD now) else none).any fun t => decide (t + n ≤ now)) = (b && c.any fun t => decide (t + n ≤ now)) := by
  cases b with
  | false => rfl
  | true =>
    cases c with
    | some t => rfl
    | none =>
      have never : decide (now + n ≤ now) = false := decide_eq_false (by omega)
      rw [if_pos rfl, Option.getD_none, Option.any_some, never]
      rfl

theorem Polled.tripping {d e : Dev} {x : Sensors} (h : Polled d x e) (now : e.now = d.now) : e.trips x = d.tripping x := by
  rw [Dev.trips, Dev.tripping, h.trips, h.vin, now, since_any _ (by decide), Bool.decide_or]
  generalize decide (2 ≤ d.readsHot x) = a
  generalize (vinOut x && d.power.vinSince.any fun t => decide (t + 100000 ≤ d.now)) = b
  generalize decide (8000 < x.watts1) = c
  cases a <;> cases b <;> cases c <;> cases x.regFault <;> rfl

section poll
variable {s : State} (hs : s.dev.steady) {x : Sensors}
include hs

theorem completes_sensorPoll_early (settled : s.dev.Settled) (early : s.dev.pollDue = false) :
    Completes (.sensorPoll x) s fun d => s.dev.wrote d [] ∧ d.power = s.dev.power :=
  completes_same (a := sensorPollAct x) rfl hs settled (by rw [sensorPoll_eq, early]; rfl) ⟨wrote_refl _, rfl⟩

variable (due : s.dev.pollDue = true)
include due

omit hs in
theorem sensorPoll_due : sensorPollAct x s.dev = inSequence (senseSteps s.dev x ++ [fun e => if e.trips x then moduleFault 7 e else []]) s.dev := by
  rw [sensorPoll_eq, if_pos due]

omit hs due in
theorem now_senseSteps (d : Dev) (x : Sensors) : (runAct (inSequence (senseSteps d x)) d).now = d.now := by
  rw [Dev.now, runAct_eq, keepAll_gcnt _ ((confines_senseSteps d x d).leaves (by decide)), ← Dev.now]

theorem completes_sensorPoll_trips (trips : s.dev.tripping x = true) : Completes (.sensorPoll x) s fun d => s.dev.enteredSafe d 7 := by
  have hc := confines_senseSteps s.dev x
  have trips' := (polled s.dev x).tripping (now_senseSteps s.dev x)
  have same : Settling s.dev (runAct (inSequence (senseSteps s.dev x)) s.dev) :=
    ⟨fun i => hc.reg _ (by decide) i, fun i => congrArg SliceSt.desc (hc.slice _ (by decide) i), fun p => hc.fld _ (by decide) p,
      by rw [runAct_eq, keepAll_gcnt _ ((hc s.dev).leaves (by decide))]⟩
  have mode : (runAct (inSequence (senseSteps s.dev x)) s.dev).mode = s.dev.mode := hc.fld (f := F.DEV_STATE_STATE) _ (by decide) 0
  have run : runAct (sensorPollAct x) s.dev = runAct (moduleFault 7) (runAct (inSequence (senseSteps s.dev x)) s.dev) := by
    rw [runAct_congr (sensorPoll_due due), runAct_inSequence_append, runAct_inSequence_cons, runAct_inSequence_nil, runAct_eq,
      trips', trips, if_pos rfl, ← runAct_eq]
  refine completes_behind (a := sensorPollAct x) rfl hs fun d b => ?_
  rw [run] at b
  exact b.enteredSafe ((moduleFault_reads _ (by decide)).1.before mode same)

theorem completes_sensorPoll (settled : s.dev.Settled) (calm : s.dev.tripping x = false) : Completes (.sensorPoll x) s fun d =>
    d.mode = s.dev.mode ∧ Polled s.dev x d ∧ regsBut pollRegs s.dev d := by
  have hc := confines_senseSteps s.dev x
  have trips' := (polled s.dev x).tripping (now_senseSteps s.dev x)
  have run : runAct (sensorPollAct x) s.dev = runAct (inSequence (senseSteps s.dev x)) s.dev := by
    rw [runAct_congr (sensorPoll_due due), runAct_inSequence_append, runAct_inSequence_cons, runAct_inSequence_nil, runAct_eq (fun e => _),
      trips', calm, if_neg Bool.false_ne_true, applyAll_nil]
  refine completes_ends (a := sensorPollAct x) rfl hs ?_ ?_
  · rw [run, runAct_eq]
    exact settled_of_confined settled (hc s.dev) (by decide) (by decide) (by decide) (by decide)
  · rw [run]
    exact ⟨hc.fld (f := F.DEV_STATE_STATE) _ (by decide) 0, polled s.dev x, fun r i hr _ => hc.reg _ hr i⟩

end poll

end Sys2Proof.Machine
end

