-- ==== Sys2Proof/Proofs/IdleStates.lean ====
section
/-! PROOFS. Idle states and the latency tolerance (R620–R622, R636). -/

namespace Sys2Proof.Machine

/-! ### Taking an idle state (R620, R621) -/

theorem deepest_le (d : Dev) (most : Nat) : d.deepest most ≤ 4 ∧ d.deepest most ≤ most := by
  unfold Dev.deepest
  cases found : (([4, 3, 2, 1].filter fun st => decide (st ≤ most)).find? fun st => decide (exitLatency st ≤ max 50 (d.fld F.LTOL_NS)) && d.mayIdle st) with
  | none => exact ⟨Nat.zero_le _, Nat.zero_le _⟩
  | some st =>
    obtain ⟨listed, most_⟩ := List.mem_filter.1 (List.mem_of_find?_eq_some found)
    exact ⟨(by decide : ∀ st ∈ [4, 3, 2, 1], st ≤ 4) st listed, of_decide_eq_true most_⟩

/-- A port brought DOWN (R620). -/
def portDown (p : Nat) : List Upd := [setF F.LINK_STATUS_STATE p lsDown, setF F.LINK_STATUS_ADMITTED p 0, Upd.port p fun _ => PortSt.init]

theorem portsDown_eq (d : Dev) : portsDown d = ([0, 1, 2, 3, 4, 5].filter fun p => d.linkState p ≠ lsDown).flatMap portDown := rfl

theorem confined_portDown (p : Nat) : Confined [.regs, .ports] [.LINK_STATUS] (portDown p) := by
  simp only [portDown, confined_cons, confined_nil, and_true]
  exact ⟨rfl, rfl, rfl⟩

theorem linkState_portDown {p q : Nat} (hp : p < 6) (hq : q < 6) (d : Dev) : (applyAll (portDown p) d).linkState q = if q = p then lsDown else d.linkState q := by
  have reset (e : Dev) : (applyAll [Upd.port p fun _ => PortSt.init] e).linkState q = e.linkState q :=
    Confined.fld ((confined_cons ..).2 ⟨rfl, confined_nil⟩) (ps := [.ports]) (rs := []) e List.not_mem_nil q
  have copies : ∀ p, p < 6 → p < regCopies := fun p h => h.trans (by decide)
  rw [portDown, applyAll_cons, applyAll_cons, reset, Dev.linkState, fld_apply_spared (by rfl), ← Dev.linkState]
  by_cases same : q = p
  · rw [if_pos same, same, Dev.linkState, fld_setF]
    rfl
  · have apart : q % regCopies ≠ p % regCopies := by rwa [Nat.mod_eq_of_lt (copies q hq), Nat.mod_eq_of_lt (copies p hp)]
    rw [if_neg same, setF, apply_fld, Dev.linkState, fld_setFld_other _ _ _ _ (.inr (.inl apart)), ← Dev.linkState]

theorem linkState_portsDown (d : Dev) {p : Nat} (hp : p < 6) : (runAct portsDown d).linkState p = lsDown := by
  have each (ps : List Nat) (low : ∀ q ∈ ps, q < 6) (e : Dev) : (applyAll (ps.flatMap portDown) e).linkState p = if p ∈ ps then lsDown else e.linkState p := by
    induction ps generalizing e with
    | nil => rfl
    | cons q ps ih =>
      rw [List.flatMap_cons, applyAll_append, ih fun r hr => low r (List.mem_cons_of_mem _ hr),
        linkState_portDown (low q (List.mem_cons_self ..)) hp]
      by_cases later : p ∈ ps
      · rw [if_pos later, if_pos (List.mem_cons_of_mem _ later)]
      · rw [if_neg later]
        exact if_congr (by simp [later]) rfl rfl
  have low : ∀ q ∈ [0, 1, 2, 3, 4, 5].filter fun p => decide (d.linkState p ≠ lsDown), q < 6 := fun q hq =>
    (by decide : ∀ q ∈ [0, 1, 2, 3, 4, 5], q < 6) q (List.mem_filter.1 hq).1
  rw [runAct_eq, portsDown_eq, each _ low]
  by_cases down : d.linkState p = lsDown
  · rw [down, ite_self]
  · have listed : p ∈ [0, 1, 2, 3, 4, 5].filter fun p => d.linkState p ≠ lsDown :=
      List.mem_filter.2 ⟨(by decide : ∀ p, p < 6 → p ∈ [0, 1, 2, 3, 4, 5]) p hp, by simpa using down⟩
    exact if_pos listed

/-- Dormant loses the ports and the scratchpads (R620). -/
def goDormant : Act := inSequence [portsDown, fun _ => [.loseSpm]]

/-- The registers frozen for reads in an idle state (R622). -/
def takeIdle (st : Nat) : List Upd := [setF F.PWR_STATUS_STATE 0 st, .freeze true]

theorem confines_portsDown : Confines [.regs, .ports] [.LINK_STATUS] portsDown := fun d => by
  rw [portsDown_eq, confined_flatMap]
  exact fun p _ => confined_portDown p

theorem confines_goDormant : Confines [.regs, .ports, .spm, .spmMarks, .spmParity, .spmLost, .freeCtr] [.LINK_STATUS] goDormant :=
  confines_inSequence_cons (confines_portsDown.mono (by decide) (by decide))
    (confines_inSequence_cons (as := []) (fun _ => (confined_cons ..).2 ⟨rfl, confined_nil⟩) Confines.nil)

theorem confined_takeIdle (st : Nat) : Confined [.regs, .frozen] [.PWR_STATUS] (takeIdle st) := by
  simp only [takeIdle, confined_cons, confined_nil, and_true]
  exact ⟨rfl, rfl⟩

theorem takeIdle_reads {st : Nat} (h : st ≤ 4) (d : Dev) : (applyAll (takeIdle st) d).fld F.PWR_STATUS_STATE = st ∧
    (applyAll (takeIdle st) d).frozen = some ((applyAll (takeIdle st) d).regs, d.gcnt) := by
  have after (e : Dev) : ((Upd.freeze true).apply e).frozen = some (((Upd.freeze true).apply e).regs, e.gcnt) := rfl
  rw [takeIdle, applyAll_cons, applyAll_cons, applyAll_nil]
  refine ⟨?_, (after _).trans ?_⟩
  · rw [fld_apply_spared (by rfl), fld_setF]
    exact Nat.mod_eq_of_lt (Nat.lt_of_le_of_lt h (by decide))
  · rw [setF, apply_fld, setFld_gcnt]

theorem enterIdle_run (st : Nat) (d : Dev) : runAct (enterIdle st) d = applyAll (takeIdle st) (runAct (onlyIf (decide (st = 4)) goDormant) d) := by
  rw [enterIdle, runAct_inSequence_cons, runAct_inSequence_cons, runAct_inSequence_nil, runAct_list]
  rfl

section enters
variable {s : State} (hs : s.dev.steady) (settled : s.dev.Settled)
include hs settled

/-- The state that an idle module goes to (R621). -/
def Dev.idleTarget (d : Dev) : Nat := d.deepest (if d.heldMs d.power.quietAt 100 then 4 else if d.heldMs d.power.quietAt 1 then 2 else 0)

omit hs settled in
theorem idleEnter_eq (d : Dev) : idleEnterAct d = if d.fld F.PWR_STATUS_STATE < d.idleTarget then enterIdle d.idleTarget d else [] := rfl

theorem completes_idleEnter_stays (deep : s.dev.idleTarget ≤ s.dev.fld F.PWR_STATUS_STATE) :
    Completes .idleEnter s fun d => s.dev.wrote d [] ∧ d.power = s.dev.power :=
  completes_same (a := idleEnterAct) rfl hs settled ((idleEnter_eq s.dev).trans (if_neg (Nat.not_lt.2 deep))) ⟨wrote_refl _, rfl⟩

theorem completes_idleEnter (deeper : s.dev.fld F.PWR_STATUS_STATE < s.dev.idleTarget) : Completes .idleEnter s fun d =>
    d.fld F.PWR_STATUS_STATE = s.dev.idleTarget ∧ d.frozen = some (d.regs, s.dev.gcnt) ∧ (∀ a, memByte d.hbm a = memByte s.dev.hbm a) ∧
      (s.dev.idleTarget ≠ 4 → d.spm = s.dev.spm ∧ regsBut [.PWR_STATUS] s.dev d) ∧
      (s.dev.idleTarget = 4 → ∀ p, p < 6 → d.linkState p = lsDown) := by
  have low := (deepest_le s.dev (if s.dev.heldMs s.dev.power.quietAt 100 then 4 else if s.dev.heldMs s.dev.power.quietAt 1 then 2 else 0)).1
  rw [← Dev.idleTarget] at low
  have run : runAct idleEnterAct s.dev =
      applyAll (takeIdle s.dev.idleTarget) (runAct (onlyIf (decide (s.dev.idleTarget = 4)) goDormant) s.dev) :=
    (runAct_congr ((idleEnter_eq s.dev).trans (if_pos deeper))).trans (enterIdle_run s.dev.idleTarget s.dev)
  have before : Confined _ _ (onlyIf (decide (s.dev.idleTarget = 4)) goDormant s.dev) := confines_goDormant.onlyIf s.dev
  have takes := confined_takeIdle s.dev.idleTarget
  have dormant : s.dev.idleTarget = 4 → ∀ p, p < 6 → (runAct (onlyIf (decide (s.dev.idleTarget = 4)) goDormant) s.dev).linkState p = lsDown :=
    fun four p hp => by
      have lost : Confined [.spm, .spmMarks, .spmParity, .spmLost, .freeCtr] [] [Upd.loseSpm] := (confined_cons ..).2 ⟨rfl, confined_nil⟩
      rw [decide_eq_true four, runAct_onlyIf_true, goDormant, runAct_inSequence_cons, runAct_inSequence_cons, runAct_inSequence_nil, runAct_list,
        Dev.linkState, lost.fld _ List.not_mem_nil, ← Dev.linkState, linkState_portsDown _ hp]
  have awake : s.dev.idleTarget ≠ 4 → runAct (onlyIf (decide (s.dev.idleTarget = 4)) goDormant) s.dev = s.dev := fun shallow => by
    rw [decide_eq_false shallow, runAct_onlyIf_false]
  rw [runAct_eq (onlyIf _ _)] at run dormant awake
  obtain ⟨state, frozen⟩ := takeIdle_reads low (applyAll (onlyIf (decide (s.dev.idleTarget = 4)) goDormant s.dev) s.dev)
  have rest := settled_of_confined settled before (by decide) (by decide) (by decide) (by decide)
  have gcnt := keepAll_gcnt s.dev (before.leaves (by decide))
  have hbm := keepAll_hbm s.dev (before.leaves (by decide))
  generalize applyAll (onlyIf (decide (s.dev.idleTarget = 4)) goDormant s.dev) s.dev = m at *
  refine completes_ends (a := idleEnterAct) rfl hs ?_ ?_
  · rw [run]
    exact settled_of_confined rest takes (by decide) (by decide) (by decide) (by decide)
  · rw [run]
    refine ⟨state, by rw [frozen, gcnt], fun a => ?_, fun shallow => ⟨?_, fun r i hr _ => ?_⟩, fun four p hp => ?_⟩
    · rw [keepAll_hbm _ (takes.leaves (by decide)), hbm]
    · rw [keepAll_spm _ (takes.leaves (by decide)), awake shallow]
    · rw [takes.reg _ hr, awake shallow]
    · rw [Dev.linkState, takes.fld _ (by decide), ← Dev.linkState, dormant four p hp]

end enters

/-! ### Leaving an idle state (R622) -/

section leaves
variable {s : State} (hs : s.dev.steady) (settled : s.dev.Settled)
include hs settled

theorem completes_idleExit_stays {cause : WakeCause} (idle : idleExitAct cause s.dev = []) :
    Completes (.idleExit cause) s fun d => s.dev.wrote d [] ∧ d.power = s.dev.power :=
  completes_same (a := idleExitAct cause) rfl hs settled idle ⟨wrote_refl _, rfl⟩

theorem completes_idleExit {cause : WakeCause} (wakes : idleExitAct cause s.dev = wakeUp s.dev) (asleep : s.dev.fld F.PWR_STATUS_STATE ≠ 0) :
    Completes (.idleExit cause) s fun d => d.fld F.PWR_STATUS_STATE = 0 ∧ d.frozen = none ∧ regsBut [.PWR_STATUS] s.dev d := by
  have woken := confined_wakeUp s.dev
  refine completes_rests (a := idleExitAct cause) rfl hs settled wakes woken (by decide) (by decide) (by decide) (by decide) ⟨?_, ?_, fun r i hr _ => ?_⟩
  · rw [wakeUp_eq asleep, applyAll_cons, applyAll_cons, applyAll_cons, applyAll_nil]
    simp (disch := exact of_decide_eq_true rfl) only [fld_apply_spared, fld_setF]
    rfl
  · rw [wakeUp_eq asleep]
    have after (e : Dev) (g : PowerSt → PowerSt) : (applyAll [.freeze false, .power g] e).frozen = none := rfl
    rw [applyAll_cons]
    exact after _ _
  · exact (woken_wakeUp s.dev).reg r i fun same => hr (by simp [same])

omit hs settled in
theorem idleExit_train (p : Fin 6) (d : Dev) : idleExitAct (.train p) d = if d.fld F.PWR_STATUS_STATE = 4 then wakeUp d else [] := by
  by_cases dormant : d.fld F.PWR_STATUS_STATE = 4
  · simp only [idleExitAct, onlyIf, decide_eq_true dormant, if_pos dormant, if_true]
  · simp only [idleExitAct, onlyIf, decide_eq_false dormant, if_neg dormant, Bool.false_eq_true, if_false]

omit hs settled in
theorem idleExit_packet (vc : Fin 6) (d : Dev) :
    idleExitAct (.packet vc) d = if d.fld F.PWR_STATUS_STATE = 3 ∧ vc.val ≠ 4 then wakeUp d else [] := by
  simp only [idleExitAct, onlyIf, Bool.and_eq_true, decide_eq_true_eq]

end leaves

/-! ### The latency tolerance (R622, R636) -/

theorem deepest_congr {d e : Dev} (fld : ∀ f : Fld, f.reg ∉ [Reg.PWR_STATUS, .CHAIN_CNT] → ∀ i, e.fld f i = d.fld f i) (dma : e.chain.dma = d.chain.dma)
    (exports_ : e.svc.exports = d.svc.exports) (test : e.power.test = d.power.test) (most : Nat) : e.deepest most = d.deepest most := by
  have mode : e.mode = d.mode := fld F.DEV_STATE_STATE (by decide) 0
  have bit (f : Fld) (hf : f.reg ∉ [Reg.PWR_STATUS, .CHAIN_CNT]) (i : Nat) : e.bit f i = d.bit f i := by rw [Dev.bit, fld f hf, ← Dev.bit]
  have may (st : Nat) : e.mayIdle st = d.mayIdle st := by
    unfold Dev.mayIdle
    simp only [mode, fld F.RING_STATUS_STATE (by decide), bit F.VAULT_CTL_INSTALL (by decide), bit F.SVC_CMD_STATUS_BUSY (by decide),
      bit F.SEC_CMD_STATUS_BUSY (by decide), bit F.DEV_COORD_VALID (by decide), bit F.LINK_CTL_ENABLE (by decide), dma, exports_, test]
  simp only [Dev.deepest, may, fld F.LTOL_NS (by decide)]

/-- What a new tolerance does of the present idle state (R622). -/
def shallow : Act := fun d =>
  if max 50 (d.fld F.LTOL_NS) < exitLatency (d.fld F.PWR_STATUS_STATE) then
    if d.deepest (d.fld F.PWR_STATUS_STATE) = 0 then wakeUp d else [setF F.PWR_STATUS_STATE 0 (d.deepest (d.fld F.PWR_STATUS_STATE))]
  else []

/-- The tolerance written, with the count of the last use. -/
def setLtol (val : BitVec 64) (d : Dev) : List Upd := [setF F.LTOL_NS 0 (bitsOf val 31 0), .power fun p => { p with quietAt := d.now }]

theorem writeLtol_eq (val : BitVec 64) (d : Dev) : writeLtol val d = setLtol val d ++ shallow (applyAll (setLtol val d) d) := by
  have now : ((setF F.LTOL_NS 0 (bitsOf val 31 0)).apply d).now = d.now := by rw [Dev.now, setF, apply_fld, setFld_gcnt, ← Dev.now]
  have quiet : noteQuiet ((setF F.LTOL_NS 0 (bitsOf val 31 0)).apply d) = [.power fun p => { p with quietAt := d.now }] := by rw [noteQuiet, now]
  unfold writeLtol
  rw [inSequence, inSequence, inSequence, inSequence, applyAll_cons, applyAll_nil, quiet, List.append_nil]
  rfl

theorem confines_shallow : Confines [.regs, .frozen, .power] [.PWR_STATUS] shallow := fun d => by
  simp only [shallow, confined_ite, confined_cons, confined_nil, and_true, implies_true]
  exact fun _ => ⟨fun _ => confined_wakeUp d, fun _ => rfl⟩

theorem confined_setLtol (val : BitVec 64) (d : Dev) : Confined [.regs, .power] [.LTOL] (setLtol val d) := by
  simp only [setLtol, confined_cons, confined_nil, and_true]
  exact ⟨rfl, rfl⟩

theorem exitLatency_zero : exitLatency 0 = 0 := rfl

theorem shallow_reads {d e : Dev} (same : e.fld F.PWR_STATUS_STATE = d.fld F.PWR_STATUS_STATE) : (applyAll (shallow d) e).fld F.PWR_STATUS_STATE =
      (if max 50 (d.fld F.LTOL_NS) < exitLatency (d.fld F.PWR_STATUS_STATE) then d.deepest (d.fld F.PWR_STATUS_STATE) else d.fld F.PWR_STATUS_STATE) ∧
    (applyAll (shallow d) e).power.test = e.power.test := by
  unfold shallow
  by_cases short : max 50 (d.fld F.LTOL_NS) < exitLatency (d.fld F.PWR_STATUS_STATE)
  · rw [if_pos short, if_pos short]
    have asleep : d.fld F.PWR_STATUS_STATE ≠ 0 := fun awake => by
      rw [awake, exitLatency_zero] at short
      exact absurd short (Nat.not_lt_zero _)
    by_cases wakes : d.deepest (d.fld F.PWR_STATUS_STATE) = 0
    · rw [if_pos wakes, wakes, wakeUp_eq asleep, applyAll_cons, applyAll_cons, applyAll_cons, applyAll_nil]
      refine ⟨?_, ?_⟩
      · simp (disch := exact of_decide_eq_true rfl) only [fld_apply_spared, fld_setF]
        rfl
      · rw [apply_power, keep_power (.freeze false) _ (by decide), power_setF]
    · rw [if_neg wakes, applyAll_cons, applyAll_nil, fld_setF, power_setF]
      exact ⟨Nat.mod_eq_of_lt (Nat.lt_of_le_of_lt (deepest_le _ _).1 (by decide)), rfl⟩
  · rw [if_neg short, if_neg short]
    exact ⟨same, rfl⟩

theorem setLtol_reads (val : BitVec 64) (d e : Dev) : (applyAll (setLtol val d) e).fld F.LTOL_NS = bitsOf val 31 0 ∧
    (applyAll (setLtol val d) e).power.test = e.power.test := by
  rw [setLtol, applyAll_cons, applyAll_cons, applyAll_nil, fld_power, fld_setBits, apply_power, power_setF]
  exact ⟨rfl, rfl⟩

theorem svc_heard (d : Dev) : d.heard.svc = d.svc := keep_svc (addF F.CHAIN_CNT_RX 0 1) d (by decide)

theorem power_heard (d : Dev) : d.heard.power = d.power := keep_power (addF F.CHAIN_CNT_RX 0 1) d (by decide)

theorem completes_ltol {s : State} (hs : s.dev.steady) (settled : s.dev.Settled) {r : Req} (fresh : s.dev.fresh r) {val : BitVec 64} {i : Instr}
    (he : exec i s = perform (onPower (serve r fun _ => (answerOk, writeLtol val))) s) : Completes i s fun d => s.dev.answered d r answerOk ∧
      d.fld F.LTOL_NS = bitsOf val 31 0 ∧ regsBut [.LTOL, .PWR_STATUS, .CHAIN_CNT] s.dev d ∧
      d.fld F.PWR_STATUS_STATE = (if max 50 (bitsOf val 31 0) < exitLatency (s.dev.fld F.PWR_STATUS_STATE) then d.deepest (s.dev.fld F.PWR_STATUS_STATE)
        else s.dev.fld F.PWR_STATUS_STATE) := by
  have sets := confined_setLtol val s.dev
  have moves := confines_shallow (applyAll (setLtol val s.dev) s.dev)
  have all : Confined [.regs, .frozen, .power] [.LTOL, .PWR_STATUS] (writeLtol val s.dev) := by
    rw [writeLtol_eq]
    exact (confined_append ..).2 ⟨sets.mono (by decide) (by decide), moves.mono (by decide) (by decide)⟩
  have served := (confined_handled r answerOk all)
  have act : serve r (fun _ => (answerOk, writeLtol val)) s.dev = handled r answerOk (writeLtol val s.dev) := serve_fresh _ fresh
  refine completes_rests he hs settled act served (by decide) (by decide) (by decide) (by decide) ?_
  have state : (applyAll (setLtol val s.dev) s.dev).fld F.PWR_STATUS_STATE = s.dev.fld F.PWR_STATUS_STATE := sets.fld _ (by decide) 0
  have state' : (applyAll (setLtol val s.dev) s.dev.heard).fld F.PWR_STATUS_STATE = (applyAll (setLtol val s.dev) s.dev).fld F.PWR_STATUS_STATE := by
    rw [sets.fld _ (by decide), fld_heard s.dev (by decide), state]
  obtain ⟨ltol, test⟩ := setLtol_reads val s.dev s.dev
  obtain ⟨ltol', test'⟩ := setLtol_reads val s.dev s.dev.heard
  have moved := shallow_reads state'
  have alike := alike_applyAll (alike_heard s.dev) (sets.deaf (by decide) (by decide) (by decide) (by decide) (by decide))
  have count : (applyAll (writeLtol val s.dev) s.dev.heard).fld F.CHAIN_CNT_RX = (s.dev.fld F.CHAIN_CNT_RX + 1) % 2 ^ 32 := by
    rw [all.fld _ (by decide)]
    exact fld_addF ..
  have answered := answered_respond (d := s.dev) r answerOk count
  have chain : (applyAll (writeLtol val s.dev) s.dev.heard).chain.dma = s.dev.chain.dma := by
    rw [keepAll_chain _ (all.leaves (by decide)), chain_heard]
  have svc : (applyAll (writeLtol val s.dev) s.dev.heard).svc = s.dev.svc := by
    rw [keepAll_svc _ (all.leaves (by decide)), svc_heard]
  have kept : ∀ q, q ∉ [Reg.CHAIN_CNT, .LTOL, .PWR_STATUS] → ∀ i, (applyAll (writeLtol val s.dev) s.dev.heard).reg q i = s.dev.reg q i :=
    fun q hq i => by
      simp only [List.mem_cons, List.not_mem_nil, or_false, not_or] at hq
      rw [all.reg _ (by simp [hq.2.1, hq.2.2]), reg_heard s.dev hq.1]
  rw [applyAll_handled]
  rw [writeLtol_eq, applyAll_append] at answered chain svc kept ⊢
  have after (e : Dev) (f : Fld) (i : Nat) : (applyAll (respond r answerOk) e).fld f i = e.fld f i := rfl
  have afterReg (e : Dev) (q : Reg) (i : Nat) : (applyAll (respond r answerOk) e).reg q i = e.reg q i := rfl
  have beside (e : Dev) : (applyAll (respond r answerOk) e).chain.dma = e.chain.dma ∧ (applyAll (respond r answerOk) e).svc = e.svc ∧
    (applyAll (respond r answerOk) e).power = e.power := ⟨rfl, rfl, rfl⟩
  have tolerance : (applyAll (shallow (applyAll (setLtol val s.dev) s.dev)) (applyAll (setLtol val s.dev) s.dev.heard)).fld F.LTOL_NS = bitsOf val 31 0 := by
    rw [moves.fld _ (by decide), ltol']
  have deep (most : Nat) : (applyAll (respond r answerOk) (applyAll (shallow (applyAll (setLtol val s.dev) s.dev))
      (applyAll (setLtol val s.dev) s.dev.heard))).deepest most = (applyAll (setLtol val s.dev) s.dev).deepest most := by
    obtain ⟨dma, svc', power⟩ := beside (applyAll (shallow (applyAll (setLtol val s.dev) s.dev)) (applyAll (setLtol val s.dev) s.dev.heard))
    refine deepest_congr (fun f hf i => ?_) ?_ ?_ ?_ most
    · simp only [List.mem_cons, List.not_mem_nil, or_false, not_or] at hf
      rw [after, moves.fld _ (by simp [hf.1])]
      simp only [Dev.fld, alike.reg _ _ hf.2]
    · rw [dma, chain, keepAll_chain _ (sets.leaves (by decide))]
    · rw [svc', svc, keepAll_svc _ (sets.leaves (by decide))]
    · rw [power, moved.2, test', test, power_heard]
  refine ⟨answered, (after ..).trans tolerance, fun q i hq _ => (afterReg ..).trans (kept q (fun h => hq ?_) i), ?_⟩
  · exact (by decide : ∀ q ∈ [Reg.CHAIN_CNT, .LTOL, .PWR_STATUS], q ∈ [Reg.LTOL, .PWR_STATUS, .CHAIN_CNT]) q h
  · rw [after, moved.1, deep, ltol, state]

end Sys2Proof.Machine
end
